-- ==== Sys2Proof/Word.lean ====
section
/-! DEFINITION. The word types of the slate and of the memories. -/

namespace Sys2Proof

/-- One byte of a memory, a mailbox data area or an image. -/
abbrev Byte := BitVec 8

/-- One 32-bit register word of the slate (R419). -/
abbrev Word := BitVec 32

end Sys2Proof
end

