-- ==== Sys2Proof/Machine/Bits.lean ====
section
/-! DEFINITION. Bit fields, two's complement, saturation, serial numbers (R49) and little-endian bytes (R367). -/

namespace Sys2Proof.Machine

/-- The `w` bits of `v` from bit `lo` up. -/
def bits (v lo w : Nat) : Nat := v / 2 ^ lo % 2 ^ w

/-- One bit of `v`. -/
def bit (v i : Nat) : Bool := v / 2 ^ i % 2 == 1

/-- The low `w` bits of `v`. -/
def trunc (w v : Nat) : Nat := v % 2 ^ w

/-- `v` held in a saturating counter of `w` bits. -/
def sat (w v : Nat) : Nat := min v (2 ^ w - 1)

/-- A flag as a one-bit field. -/
def ofBool (b : Bool) : Nat := if b then 1 else 0

/-- The two's complement reading of `w` bits. -/
def toSigned (w v : Nat) : Int :=
  if v % 2 ^ w < 2 ^ (w - 1) then (v % 2 ^ w : Nat) else ((v % 2 ^ w : Nat) : Int) - (2 ^ w : Nat)

/-- The `w` bits of two's complement that hold `i`. -/
def ofSigned (w : Nat) (i : Int) : Nat := (i % ((2 ^ w : Nat) : Int)).toNat

/-- `i` brought into a range. -/
def clampInt (lo hi i : Int) : Int := if i < lo then lo else if hi < i then hi else i

/-- A quotient rounded to the nearest, halves up (log entry 65); by zero it is zero. -/
def roundDiv (a b : Int) : Int := (2 * a + b) / (2 * b)

/-- Integer division rounded up. -/
def ceilDiv (a b : Nat) : Nat := (a + b - 1) / b

/-- The serial difference sdiff(b, a) of `w`-bit counters (R49): b − a modulo 2^w, read as two's complement. -/
def sdiff (w b a : Nat) : Int := toSigned w ((b + 2 ^ w - a % 2 ^ w) % 2 ^ w)

/-- `b` is later than `a` as a serial number (R49). -/
def laterThan (w b a : Nat) : Bool := decide (0 < sdiff w b a)

/-- `b` is earlier than `a` as a serial number (R49); a difference of exactly 2^(w-1) counts so. -/
def earlierThan (w b a : Nat) : Bool := decide (sdiff w b a < 0)

/-- A difference of epochs (R49, w = 16). -/
def sdiff16 (a b : Nat) : Int := sdiff 16 a b

/-- The HT integer of a short stamp `s` against the HT integer of its anchor (R51). -/
def fullStamp (anchor s : Nat) : Nat := ((anchor : Int) + sdiff 32 s (anchor % 2 ^ 32)).toNat

/-- The bytes of `v`, the least significant first. -/
def leBytes : Nat → Nat → List Byte
  | 0, _ => []
  | n + 1, v => BitVec.ofNat 8 v :: leBytes n (v / 256)

/-- The number that little-endian bytes spell. -/
def ofLe : List Byte → Nat
  | [] => 0
  | b :: t => b.toNat + 256 * ofLe t

/-- Every bit set of `v` among the low `n`, in rising order. -/
def setBits (n v : Nat) : List Nat := (List.range n).filter (bit v ·)

/-- How many of the low `n` bits of `v` are set. -/
def popCount (n v : Nat) : Nat := (setBits n v).length

/-- `v` with bit `i` set. -/
def setBit (v i : Nat) : Nat := if bit v i then v else v + 2 ^ i

/-- `v` with bit `i` clear. -/
def clearBit (v i : Nat) : Nat := if bit v i then v - 2 ^ i else v

/-- The word made of the bits `i` below `n` for which `f i` holds. -/
def maskOf (n : Nat) (f : Nat → Bool) : Nat := ((List.range n).filter f).foldl (fun a i => a + 2 ^ i) 0

/-- The bits of both words. -/
def andMask (a b : Nat) : Nat := Nat.land a b

/-- The bits of either word. -/
def orMask (a b : Nat) : Nat := Nat.lor a b

/-- The bits of `a` that `b` lacks. -/
def minusMask (n a b : Nat) : Nat := maskOf n fun i => bit a i && !bit b i

end Sys2Proof.Machine
end

