-- ==== Sys2Proof/Machine/Regs.lean ====
section
/-! DEFINITION. The register fields of both slates, one definition a field, each read from the spec's register tables
(R85, R108, R147, R176, R213, R214, R247, R248, R280 to R282, R306, R325, R346, R347, R365, R375, R396, R417, R422 to R429,
R54), and the table of the registers by offset (R420). A field's value lives in one place, under its key. -/

namespace Sys2Proof.Machine

/-- Access codes of R9. Reserved bits are the bits of a word that no field of the table covers. -/
inductive Acc where
  | ro | rw | w1c | rc | wo
  deriving DecidableEq, Repr

/-- Which encodings a writable field takes (R11); every other encoding is reserved. `plMax` and `splMax` are the
limits of R384 for a ladder class on the distributor and on the step core. -/
inductive Valid where
  | any
  | range (lo hi : Nat)
  | srange (lo hi : Int)
  | plMax (u : Nat)
  | splMax (u : Nat)
  deriving DecidableEq, Repr

/-- One register field: its word's offset in the slate, its lowest bit, its width, its reset value, its access code,
whether firmware emulates it ("(slate)" in the tables), whether the configuration image sets it (R12), its encodings. -/
structure Field where
  off : Nat
  lo : Nat
  width : Nat
  reset : Nat
  acc : Acc
  slate : Bool
  img : Bool
  valid : Valid
  deriving DecidableEq, Repr

/-- The key under which a field's value is stored. -/
def Field.key (f : Field) : Nat := f.off * 32 + f.lo

namespace Rg


/-! 02_hall_time.md, R54. -/

def HT_HT_NS_LO : Field := ⟨0x0100, 0, 32, 0, .ro, false, false, .any⟩

/-! 02_hall_time.md, R54. -/

def HT_HT_NS_HI : Field := ⟨0x0104, 0, 32, 0, .ro, false, false, .any⟩

/-! 02_hall_time.md, R54. -/

def HT_HT_FRAC : Field := ⟨0x0108, 16, 16, 0, .ro, false, false, .any⟩
def HT_LATCHED : Field := ⟨0x0108, 10, 1, 0, .ro, false, false, .any⟩
def HT_EPOCH_KIND : Field := ⟨0x0108, 8, 2, 0, .ro, false, false, .any⟩
def HT_HT_WRAP : Field := ⟨0x0108, 7, 1, 0, .w1c, false, false, .any⟩
def HT_UNALIGNED : Field := ⟨0x0108, 6, 1, 0, .ro, false, false, .any⟩
def HT_HOLDOVER : Field := ⟨0x0108, 5, 1, 0, .ro, false, false, .any⟩
def HT_SLEWING : Field := ⟨0x0108, 4, 1, 0, .ro, false, false, .any⟩
def HT_ALIGNED : Field := ⟨0x0108, 3, 1, 0, .ro, false, false, .any⟩
def HT_FORMED : Field := ⟨0x0108, 2, 1, 0, .ro, false, false, .any⟩
def HT_JOINED : Field := ⟨0x0108, 1, 1, 0, .ro, false, false, .any⟩

/-! 02_hall_time.md, R54. -/

def EPL_EPOCH_LABEL (h : Nat) : Field := ⟨0x0110 + 4 * h, 0, 32, 0, .ro, true, false, .any⟩

/-! 03_references_holdover.md, R85. -/

def REF_WTR_S : Field := ⟨0x0400, 16, 8, 0x3c, .rw, true, false, .any⟩
def REF_REVERTIVE : Field := ⟨0x0400, 8, 1, 0, .rw, true, false, .any⟩
def REF_PRIMARY : Field := ⟨0x0400, 4, 1, 0, .rw, true, false, .any⟩
def REF_REF_B_EN : Field := ⟨0x0400, 1, 1, 0, .rw, true, true, .any⟩
def REF_REF_A_EN : Field := ⟨0x0400, 0, 1, 0, .rw, true, true, .any⟩

/-! 03_references_holdover.md, R85. -/

def REF_JUMP_NS : Field := ⟨0x0404, 0, 30, 0x1f4, .rw, true, false, .range 10 1000000000⟩

/-! 03_references_holdover.md, R85. -/

def REF_SLEW_LIMIT : Field := ⟨0x0408, 0, 10, 0x14, .rw, true, false, .range 1 1000⟩

/-! 03_references_holdover.md, R85. -/

def REF_REJOIN_SLEW : Field := ⟨0x040C, 20, 10, 0x64, .rw, true, false, .range 1 1000⟩
def REF_REJOIN_MAX_US : Field := ⟨0x040C, 0, 20, 0x2710, .rw, true, false, .range 1 1000000⟩

/-! 03_references_holdover.md, R85. -/

def REFS_ROLE : Field := ⟨0x0410, 23, 3, 0, .ro, false, false, .any⟩
def REFS_HOLD_QUALITY : Field := ⟨0x0410, 21, 2, 0, .ro, false, false, .any⟩
def REFS_REJOIN_REFUSED : Field := ⟨0x0410, 20, 1, 0, .ro, false, false, .any⟩
def REFS_REF_FAULT_SEEN : Field := ⟨0x0410, 19, 1, 0, .w1c, false, false, .any⟩
def REFS_REF_B_REFUSED : Field := ⟨0x0410, 18, 1, 0, .ro, false, false, .any⟩
def REFS_REF_A_REFUSED : Field := ⟨0x0410, 17, 1, 0, .ro, false, false, .any⟩
def REFS_REF_JUMP_REFUSED : Field := ⟨0x0410, 16, 1, 0, .w1c, false, false, .any⟩
def REFS_ACCEPT_PENDING : Field := ⟨0x0410, 15, 1, 0, .ro, false, false, .any⟩
def REFS_WTR_RUNNING : Field := ⟨0x0410, 14, 1, 0, .ro, false, false, .any⟩
def REFS_LOCK : Field := ⟨0x0410, 13, 1, 0, .ro, false, false, .any⟩
def REFS_PARENT_1_QUAL : Field := ⟨0x0410, 12, 1, 0, .ro, false, false, .any⟩
def REFS_PARENT_0_QUAL : Field := ⟨0x0410, 11, 1, 0, .ro, false, false, .any⟩
def REFS_REF_B_QUAL : Field := ⟨0x0410, 10, 1, 0, .ro, false, false, .any⟩
def REFS_REF_A_QUAL : Field := ⟨0x0410, 9, 1, 0, .ro, false, false, .any⟩
def REFS_SELECTED : Field := ⟨0x0410, 4, 3, 0, .ro, false, false, .any⟩
def REFS_SEL_STATE : Field := ⟨0x0410, 0, 3, 0, .ro, false, false, .any⟩

/-! 03_references_holdover.md, R85. -/

def REFO_OFFSET (x : Nat) : Field := ⟨0x0414 + 4 * x, 0, 32, 0x80000000, .ro, true, false, .any⟩

/-! 03_references_holdover.md, R85. -/

def REFK_KEEP (x : Nat) : Field := ⟨0x041C + 4 * x, 0, 32, 0, .ro, true, false, .any⟩

/-! 03_references_holdover.md, R85. -/

def HOLD_F0 : Field := ⟨0x0428, 0, 32, 0, .ro, true, false, .any⟩
def HOLD_AGING : Field := ⟨0x042C, 0, 32, 0, .ro, true, false, .any⟩
def HOLD_C1 : Field := ⟨0x0430, 0, 32, 0, .ro, true, false, .any⟩
def HOLD_C2 : Field := ⟨0x0434, 0, 32, 0, .ro, true, false, .any⟩
def HOLD_TREF : Field := ⟨0x0438, 0, 16, 0, .ro, true, false, .any⟩

/-! 03_references_holdover.md, R85. -/

def OUT_OUT_FALLBACK (n : Nat) : Field := ⟨0x0440 + 16 * n, 17, 1, 0, .ro, true, false, .any⟩
def OUT_REALIGNING (n : Nat) : Field := ⟨0x0440 + 16 * n, 16, 1, 0, .ro, true, false, .any⟩
def OUT_ALL_JOBS (n : Nat) : Field := ⟨0x0440 + 16 * n, 15, 1, 0, .rw, true, false, .any⟩
def OUT_JOB_SEL (n : Nat) : Field := ⟨0x0440 + 16 * n, 8, 6, 0, .rw, true, false, .any⟩
def OUT_BELL_FORM (n : Nat) : Field := ⟨0x0440 + 16 * n, 5, 1, 0, .rw, true, false, .any⟩
def OUT_MUTE_UNALIGNED (n : Nat) : Field := ⟨0x0440 + 16 * n, 4, 1, 1, .rw, true, false, .any⟩
def OUT_SOURCE (n : Nat) : Field := ⟨0x0440 + 16 * n, 2, 2, 0, .rw, true, false, if n < 6 then .range 0 2 else .range 0 0⟩
def OUT_MODE (n : Nat) : Field := ⟨0x0440 + 16 * n, 1, 1, 0, .rw, true, false, .any⟩
def OUT_ENABLE (n : Nat) : Field := ⟨0x0440 + 16 * n, 0, 1, 0, .rw, true, true, .any⟩

/-! 03_references_holdover.md, R85. -/

def OUT_OFFSET (n : Nat) : Field := ⟨0x0444 + 16 * n, 0, 32, 0, .rw, true, false, if n < 6 then .srange (-2000000000) 2000000000 else .srange (-4000) 2000000000⟩

/-! 03_references_holdover.md, R85. -/

def OUT_WIDTH (n : Nat) : Field := ⟨0x0448 + 16 * n, 0, 23, 0, .rw, true, true, .range 1 5000000⟩

/-! 03_references_holdover.md, R85. -/

def PTP_PTP_LOCKED : Field := ⟨0x0500, 31, 1, 0, .ro, true, false, .any⟩
def PTP_WALL_STALE : Field := ⟨0x0500, 30, 1, 0, .ro, true, false, .any⟩
def PTP_DOMAIN : Field := ⟨0x0500, 16, 8, 0, .rw, true, false, .range 0 127⟩
def PTP_TRANSPORT : Field := ⟨0x0500, 8, 2, 0, .rw, true, false, .range 0 2⟩
def PTP_DELAY_MECH : Field := ⟨0x0500, 1, 1, 0, .rw, true, false, .any⟩
def PTP_PTP_EN : Field := ⟨0x0500, 0, 1, 0, .rw, true, true, .any⟩

/-! 04_measurement.md, R108. -/

def TDC_Q_MODE (n : Nat) : Field := ⟨0x1000 + 32 * n, 24, 2, 0, .rw, true, false, .range 0 1⟩
def TDC_REGRESS_EN (n : Nat) : Field := ⟨0x1000 + 32 * n, 16, 1, 1, .rw, true, false, .any⟩
def TDC_SOURCE (n : Nat) : Field := ⟨0x1000 + 32 * n, 8, 4, 0, .rw, true, false, .range 0 5⟩
def TDC_EDGE_SEL (n : Nat) : Field := ⟨0x1000 + 32 * n, 4, 2, 0, .rw, true, false, .range 0 2⟩
def TDC_ENABLE (n : Nat) : Field := ⟨0x1000 + 32 * n, 0, 1, 0, .rw, true, false, .any⟩

/-! 04_measurement.md, R108. -/

def TDC_P_NOM_NS (n : Nat) : Field := ⟨0x1004 + 32 * n, 0, 30, 0x3b9aca00, .rw, true, false, .range 20 1000000000⟩
def TDC_GATE_MS (n : Nat) : Field := ⟨0x1008 + 32 * n, 0, 17, 0x3e8, .rw, true, false, .range 1 100000⟩
def TDC_CAL_PERIOD_S (n : Nat) : Field := ⟨0x100C + 32 * n, 0, 16, 0x258, .rw, true, false, .range 10 65535⟩
def TDC_QUEUE_LEVEL (n : Nat) : Field := ⟨0x1010 + 32 * n, 16, 13, 0, .ro, true, false, .any⟩
def TDC_CAL_STALE (n : Nat) : Field := ⟨0x1010 + 32 * n, 8, 1, 0, .ro, true, false, .any⟩
def TDC_CAL_PENDING (n : Nat) : Field := ⟨0x1010 + 32 * n, 7, 1, 0, .ro, true, false, .any⟩
def TDC_CAL_RUNNING (n : Nat) : Field := ⟨0x1010 + 32 * n, 6, 1, 0, .ro, true, false, .any⟩
def TDC_TWIN_FAULT (n : Nat) : Field := ⟨0x1010 + 32 * n, 5, 1, 0, .ro, true, false, .any⟩
def TDC_ACTIVE_TDC (n : Nat) : Field := ⟨0x1010 + 32 * n, 4, 1, 0, .ro, true, false, .any⟩
def TDC_REANCHOR (n : Nat) : Field := ⟨0x1010 + 32 * n, 3, 1, 0, .w1c, true, false, .any⟩
def TDC_MISS (n : Nat) : Field := ⟨0x1010 + 32 * n, 2, 1, 0, .w1c, true, false, .any⟩
def TDC_OVF (n : Nat) : Field := ⟨0x1010 + 32 * n, 1, 1, 0, .w1c, true, false, .any⟩
def TDC_OVF_CNT (n : Nat) : Field := ⟨0x1014 + 32 * n, 0, 32, 0, .rc, true, false, .any⟩
def TDC_MISS_CNT (n : Nat) : Field := ⟨0x1018 + 32 * n, 0, 32, 0, .rc, true, false, .any⟩
def TDC_RDIDX (n : Nat) : Field := ⟨0x101C + 32 * n, 0, 24, 0, .rw, true, false, .any⟩

/-! 04_measurement.md, R108. -/

def TRES_GATE_SEQ (n : Nat) : Field := ⟨0x1400 + 64 * n, 0, 32, 0, .ro, true, false, .any⟩
def TRES_N_HI (n : Nat) : Field := ⟨0x1404 + 64 * n, 8, 4, 0, .ro, true, false, .any⟩
def TRES_PARTIAL (n : Nat) : Field := ⟨0x1404 + 64 * n, 4, 1, 0, .ro, true, false, .any⟩
def TRES_REANCHOR_IN_GATE (n : Nat) : Field := ⟨0x1404 + 64 * n, 3, 1, 0, .ro, true, false, .any⟩
def TRES_SWAP_IN_GATE (n : Nat) : Field := ⟨0x1404 + 64 * n, 2, 1, 0, .ro, true, false, .any⟩
def TRES_JOINED_BASE (n : Nat) : Field := ⟨0x1404 + 64 * n, 1, 1, 0, .ro, true, false, .any⟩
def TRES_VALID (n : Nat) : Field := ⟨0x1404 + 64 * n, 0, 1, 0, .ro, true, false, .any⟩
def TRES_N (n : Nat) : Field := ⟨0x1408 + 64 * n, 0, 32, 0, .ro, true, false, .any⟩
def TRES_EXCLUDED (n : Nat) : Field := ⟨0x140C + 64 * n, 0, 32, 0, .ro, true, false, .any⟩
def TRES_FIT_T_LO (n : Nat) : Field := ⟨0x1410 + 64 * n, 0, 32, 0, .ro, true, false, .any⟩
def TRES_FIT_T_HI (n : Nat) : Field := ⟨0x1414 + 64 * n, 0, 32, 0, .ro, true, false, .any⟩
def TRES_FIT_T_FRAC (n : Nat) : Field := ⟨0x1418 + 64 * n, 0, 16, 0, .ro, true, false, .any⟩
def TRES_PERIOD_NS (n : Nat) : Field := ⟨0x141C + 64 * n, 0, 30, 0, .ro, true, false, .any⟩
def TRES_PERIOD_FRAC (n : Nat) : Field := ⟨0x1420 + 64 * n, 0, 32, 0, .ro, true, false, .any⟩
def TRES_RESID_RMS (n : Nat) : Field := ⟨0x1424 + 64 * n, 0, 32, 0, .ro, true, false, .any⟩

/-! 04_measurement.md, R108. -/

def MNS_ZC_EN : Field := ⟨0x1C00, 24, 6, 0, .rw, true, true, .any⟩
def MNS_FEED_SEL : Field := ⟨0x1C00, 20, 2, 2, .rw, true, false, .range 0 2⟩
def MNS_ROCOF_GATES : Field := ⟨0x1C00, 16, 4, 0, .rw, true, false, .any⟩
def MNS_NOM : Field := ⟨0x1C00, 12, 1, 0, .rw, true, true, .any⟩
def MNS_GATE_10MS : Field := ⟨0x1C00, 0, 10, 0x14, .rw, true, false, .range 4 1000⟩

/-! 04_measurement.md, R108. -/

def MNS_ANGLE_REF : Field := ⟨0x1C04, 18, 3, 0, .ro, true, false, .any⟩
def MNS_ZC_GLITCH : Field := ⟨0x1C04, 17, 1, 0, .w1c, true, false, .any⟩
def MNS_FREQ_ALM : Field := ⟨0x1C04, 16, 1, 0, .ro, true, false, .any⟩
def MNS_SAG : Field := ⟨0x1C04, 15, 1, 0, .ro, true, false, .any⟩
def MNS_ROCOF_VALID : Field := ⟨0x1C04, 14, 1, 0, .ro, true, false, .any⟩
def MNS_MAINS_VALID : Field := ⟨0x1C04, 13, 1, 0, .ro, true, false, .any⟩
def MNS_FEED_VALID : Field := ⟨0x1C04, 11, 2, 0, .ro, true, false, .any⟩
def MNS_PHASE_VALID : Field := ⟨0x1C04, 0, 6, 0, .ro, true, false, .any⟩
def MNS_GATE_SEQ : Field := ⟨0x1C08, 0, 32, 0, .ro, true, false, .any⟩
def MNS_FREQ : Field := ⟨0x1C0C, 0, 32, 0, .ro, true, false, .any⟩
def MNS_ROCOF : Field := ⟨0x1C10, 0, 32, 0, .ro, true, false, .any⟩
def MNS_T0_LO : Field := ⟨0x1C14, 0, 32, 0, .ro, true, false, .any⟩
def MNS_T0_HI : Field := ⟨0x1C18, 0, 32, 0, .ro, true, false, .any⟩
def MNS_FREQ_P (p : Nat) : Field := ⟨0x1C20 + 4 * p, 0, 32, 0, .ro, true, false, .any⟩
def MNS_ANGLE_P (p : Nat) : Field := ⟨0x1C40 + 4 * p, 0, 32, 0, .ro, true, false, .any⟩

/-! 05_tick_link.md, R147. -/

def LINK_PAY_CW (n : Nat) : Field := ⟨0x2000 + 32 * n, 16, 6, 0x24, .rw, true, false, .range 0 38⟩
def LINK_PRECODE_ALLOW (n : Nat) : Field := ⟨0x2000 + 32 * n, 9, 1, 1, .rw, true, false, .any⟩
def LINK_MEDIUM (n : Nat) : Field := ⟨0x2000 + 32 * n, 8, 1, 0, .rw, true, true, .any⟩
def LINK_AUTO_SPARE (n : Nat) : Field := ⟨0x2000 + 32 * n, 1, 1, 1, .rw, true, false, .any⟩
def LINK_ENABLE (n : Nat) : Field := ⟨0x2000 + 32 * n, 0, 1, 0, .rw, true, true, .any⟩

/-! 05_tick_link.md, R147. -/

def LINK_CHANNEL_RANGE (n : Nat) : Field := ⟨0x2004 + 32 * n, 27, 1, 0, .ro, false, false, .any⟩
def LINK_CAL_RUNNING (n : Nat) : Field := ⟨0x2004 + 32 * n, 26, 1, 0, .ro, false, false, .any⟩
def LINK_LEVEL_REFUSED (n : Nat) : Field := ⟨0x2004 + 32 * n, 25, 1, 0, .ro, false, false, .any⟩
def LINK_HOMING_MISMATCH (n : Nat) : Field := ⟨0x2004 + 32 * n, 24, 1, 0, .ro, false, false, .any⟩
def LINK_CAL_REQUIRED (n : Nat) : Field := ⟨0x2004 + 32 * n, 23, 1, 0, .w1c, false, false, .any⟩
def LINK_CAL_VALID (n : Nat) : Field := ⟨0x2004 + 32 * n, 22, 1, 0, .ro, false, false, .any⟩
def LINK_DEGRADED (n : Nat) : Field := ⟨0x2004 + 32 * n, 21, 1, 0, .ro, false, false, .any⟩
def LINK_SWAP_PENDING (n : Nat) : Field := ⟨0x2004 + 32 * n, 20, 1, 0, .ro, false, false, .any⟩
def LINK_ON_SPARE (n : Nat) : Field := ⟨0x2004 + 32 * n, 19, 1, 0, .ro, false, false, .any⟩
def LINK_SPARE_MAP (n : Nat) : Field := ⟨0x2004 + 32 * n, 12, 7, 0x7f, .ro, false, false, .any⟩
def LINK_SUSPECT_CAUSE (n : Nat) : Field := ⟨0x2004 + 32 * n, 8, 4, 0, .ro, false, false, .any⟩
def LINK_FAR_ROLE (n : Nat) : Field := ⟨0x2004 + 32 * n, 4, 3, 0, .ro, false, false, .any⟩
def LINK_LSTATE (n : Nat) : Field := ⟨0x2004 + 32 * n, 0, 3, 0, .ro, false, false, .any⟩

/-! 05_tick_link.md, R147. -/

def LINK_MED_ASYM (n : Nat) : Field := ⟨0x2008 + 32 * n, 0, 32, 0, .rw, true, true, .srange (-100000) 100000⟩
def LINK_WAVE (n : Nat) : Field := ⟨0x200C + 32 * n, 0, 32, 0, .rw, true, true, .srange (-100000) 100000⟩
def LINK_DELAY (n : Nat) : Field := ⟨0x2010 + 32 * n, 0, 32, 0xffffffff, .ro, true, false, .any⟩
def LINK_LINK_OFFSET (n : Nat) : Field := ⟨0x2014 + 32 * n, 0, 32, 0x80000000, .ro, true, false, .any⟩
def LINK_HDR_CRC_ERR (n : Nat) : Field := ⟨0x2018 + 32 * n, 0, 12, 0, .rc, true, false, .any⟩
def LINK_CW_UNCORR (n : Nat) : Field := ⟨0x2018 + 32 * n, 12, 12, 0, .rc, true, false, .any⟩
def LINK_BAD_WORD (n : Nat) : Field := ⟨0x2018 + 32 * n, 24, 8, 0, .rc, true, false, .any⟩
def LINK_FAR_ROLL (n : Nat) : Field := ⟨0x201C + 32 * n, 0, 21, 0, .ro, true, false, .any⟩
def LINK_FAR_POSITION (n : Nat) : Field := ⟨0x201C + 32 * n, 21, 7, 0, .ro, true, false, .any⟩
def LINK_ROLL_VALID (n : Nat) : Field := ⟨0x201C + 32 * n, 28, 1, 0, .ro, true, false, .any⟩

/-! 06_die_stations.md, R176. -/

def OPE_PERIOD (i : Nat) : Field := ⟨0x2C00 + 8 * i, 0, 24, 0, .rw, true, true, .range 16384 163840⟩
def OPE_VID (i : Nat) : Field := ⟨0x2C00 + 8 * i, 24, 8, 0, .rw, true, true, .any⟩
def OPE_TEMP_MAX (i : Nat) : Field := ⟨0x2C04 + 8 * i, 0, 8, 0, .rw, true, true, .any⟩
def OPE_DROOP_MAX (i : Nat) : Field := ⟨0x2C04 + 8 * i, 8, 8, 0, .rw, true, true, .any⟩
def OPE_POWER_PCT (i : Nat) : Field := ⟨0x2C04 + 8 * i, 16, 7, 0, .rw, true, true, .range 0 100⟩
def OPE_GAP_NS (i : Nat) : Field := ⟨0x2C04 + 8 * i, 24, 8, 0, .rw, true, true, .any⟩

/-! 06_die_stations.md, R176. -/

def OPS_OPP_SPLIT : Field := ⟨0x2C80, 20, 8, 0, .rc, false, false, .any⟩
def OPS_OPP_UNREADY : Field := ⟨0x2C80, 12, 8, 0, .rc, false, false, .any⟩
def OPS_PENDING_TT : Field := ⟨0x2C80, 11, 1, 0, .ro, false, false, .any⟩
def OPS_PENDING : Field := ⟨0x2C80, 10, 1, 0, .ro, false, false, .any⟩
def OPS_NEXT : Field := ⟨0x2C80, 6, 4, 0, .ro, false, false, .any⟩
def OPS_CURRENT : Field := ⟨0x2C80, 0, 4, 0, .ro, false, true, .any⟩

/-! 06_die_stations.md, R176. -/

def STRB_SOURCE (k : Nat) : Field := ⟨0x2C90 + 16 * k, 0, 2, 0, .rw, true, false, .range 0 2⟩
def STRB_JOB (k : Nat) : Field := ⟨0x2C90 + 16 * k, 8, 6, 0, .rw, true, false, .any⟩
def STRB_START_HB_LO (k : Nat) : Field := ⟨0x2C94 + 16 * k, 0, 32, 0, .rw, true, false, .any⟩
def STRB_START_HB_HI (k : Nat) : Field := ⟨0x2C98 + 16 * k, 0, 26, 0, .rw, true, false, .any⟩
def STRB_PERIOD_HB (k : Nat) : Field := ⟨0x2C9C + 16 * k, 0, 24, 0, .rw, true, false, .any⟩

/-! 06_die_stations.md, R176. -/

def STN_STROBE_EN (s : Nat) : Field := ⟨0x3000 + 16 * s, 0, 8, 0, .rw, true, false, .any⟩
def STN_DEBT_BOUND (s : Nat) : Field := ⟨0x3000 + 16 * s, 8, 16, 0x7d0, .rw, true, false, .range 250 65535⟩
def STN_RT_UNREL (s : Nat) : Field := ⟨0x3004 + 16 * s, 0, 1, 0, .ro, false, false, .any⟩
def STN_LOSS_CAUSE (s : Nat) : Field := ⟨0x3004 + 16 * s, 1, 2, 0, .ro, false, false, .any⟩
def STN_STROBE_OVR (s : Nat) : Field := ⟨0x3004 + 16 * s, 3, 1, 0, .w1c, false, false, .any⟩
def STN_HB_MISS (s : Nat) : Field := ⟨0x3004 + 16 * s, 4, 8, 0, .rc, false, false, .any⟩
def STN_HB_ERR (s : Nat) : Field := ⟨0x3004 + 16 * s, 12, 8, 0, .rc, false, false, .any⟩
def STN_HB_CRC_ERR (s : Nat) : Field := ⟨0x3004 + 16 * s, 20, 8, 0, .rc, false, false, .any⟩
def STN_DEBT_MAX (s : Nat) : Field := ⟨0x3008 + 16 * s, 0, 16, 0, .rc, false, false, .any⟩
def STN_DEBT_OVER (s : Nat) : Field := ⟨0x3008 + 16 * s, 16, 16, 0, .rc, false, false, .any⟩
def STN_LAST_LOSS_NS (s : Nat) : Field := ⟨0x300C + 16 * s, 0, 24, 0, .ro, true, false, .any⟩
def STN_LOSS_COUNT (s : Nat) : Field := ⟨0x300C + 16 * s, 24, 8, 0, .rc, true, false, .any⟩

/-! 07_queues_barriers.md, R213. -/

def Q_CTX (q : Nat) : Field := ⟨0x4000 + 16 * q, 0, 6, 0, .rw, false, false, .any⟩
def Q_BOUND (q : Nat) : Field := ⟨0x4000 + 16 * q, 6, 1, 0, .rw, false, false, .any⟩
def Q_STATION (q : Nat) : Field := ⟨0x4000 + 16 * q, 8, 8, 0, .ro, false, false, .any⟩
def Q_BIND_GEN (q : Nat) : Field := ⟨0x4000 + 16 * q, 16, 8, 0, .ro, false, false, .any⟩
def Q_LEVEL (q : Nat) : Field := ⟨0x4004 + 16 * q, 0, 7, 0, .ro, false, false, .any⟩
def Q_WAITING (q : Nat) : Field := ⟨0x4004 + 16 * q, 7, 1, 0, .ro, false, false, .any⟩
def Q_HEAD_OP (q : Nat) : Field := ⟨0x4004 + 16 * q, 8, 4, 0, .ro, false, false, .any⟩
def Q_UNFENCED (q : Nat) : Field := ⟨0x4004 + 16 * q, 12, 1, 0, .w1c, false, false, .any⟩
def Q_DUP_SEEN (q : Nat) : Field := ⟨0x4004 + 16 * q, 13, 1, 0, .w1c, false, false, .any⟩
def Q_OVERRUN_SEEN (q : Nat) : Field := ⟨0x4004 + 16 * q, 14, 1, 0, .w1c, false, false, .any⟩
def Q_STALE_SEEN (q : Nat) : Field := ⟨0x4004 + 16 * q, 15, 1, 0, .w1c, false, false, .any⟩
def Q_MISUSE (q : Nat) : Field := ⟨0x4004 + 16 * q, 16, 16, 0, .rc, false, false, .any⟩
def Q_HEAD_CMD_LO (q : Nat) : Field := ⟨0x4008 + 16 * q, 0, 32, 0, .ro, false, false, .any⟩
def Q_HEAD_CMD_HI (q : Nat) : Field := ⟨0x400C + 16 * q, 0, 32, 0, .ro, false, false, .any⟩

/-! 07_queues_barriers.md, R213. -/

def HST_ARR_HANDLE : Field := ⟨0x4800, 0, 12, 0, .rw, true, false, .any⟩
def HST_ARR_CTX : Field := ⟨0x4800, 12, 6, 0, .rw, true, false, .any⟩
def HST_ARR_EP_AUTO : Field := ⟨0x4800, 18, 1, 0, .rw, true, false, .any⟩
def HST_ARR_EPOCH : Field := ⟨0x4804, 0, 16, 0, .wo, true, false, .any⟩
def HST_RES_STATUS : Field := ⟨0x4808, 0, 4, 0, .ro, true, false, .any⟩
def HST_RES_BUSY : Field := ⟨0x4808, 4, 1, 0, .ro, true, false, .any⟩
def HST_RES_EPOCH_T : Field := ⟨0x4808, 5, 16, 0, .ro, true, false, .any⟩
def HST_ARM_HANDLE : Field := ⟨0x4810, 0, 12, 0, .rw, true, false, .any⟩
def HST_ARM_CTX : Field := ⟨0x4810, 12, 6, 0, .rw, true, false, .any⟩
def HST_ARM_EP_AUTO : Field := ⟨0x4810, 18, 1, 0, .rw, true, false, .any⟩
def HST_ARM_ENTRY : Field := ⟨0x4810, 19, 4, 0, .rw, true, false, .any⟩
def HST_ARM_EPOCH : Field := ⟨0x4814, 0, 16, 0, .wo, true, false, .any⟩
def HST_W_DONE : Field := ⟨0x4818, 0, 16, 0, .w1c, false, false, .any⟩
def HST_W_ARMED : Field := ⟨0x4818, 16, 16, 0, .ro, false, false, .any⟩
def HST_WS_STATUS (e : Nat) : Field := ⟨0x4840 + 4 * e, 0, 4, 0, .ro, false, false, .any⟩
def HST_WS_EPOCH (e : Nat) : Field := ⟨0x4840 + 4 * e, 4, 16, 0, .ro, false, false, .any⟩
def HST_WS_VALID (e : Nat) : Field := ⟨0x4840 + 4 * e, 20, 1, 0, .ro, false, false, .any⟩

/-! 07_queues_barriers.md, R213. -/

def HF_FLAG_SET_LO (c : Nat) : Field := ⟨0x4C00 + 16 * c, 0, 32, 0, .wo, false, false, .any⟩
def HF_FLAG_SET_HI (c : Nat) : Field := ⟨0x4C04 + 16 * c, 0, 32, 0, .wo, false, false, .any⟩
def HF_FLAG_LO (c : Nat) : Field := ⟨0x4C08 + 16 * c, 0, 32, 0, .w1c, false, false, .any⟩
def HF_FLAG_HI (c : Nat) : Field := ⟨0x4C0C + 16 * c, 0, 32, 0, .w1c, false, false, .any⟩
def HF_SIG_LO (c : Nat) : Field := ⟨0x5000 + 8 * c, 0, 32, 0, .w1c, false, false, .any⟩
def HF_SIG_HI (c : Nat) : Field := ⟨0x5004 + 8 * c, 0, 32, 0, .w1c, false, false, .any⟩

/-! 07_queues_barriers.md, R213. -/

def CTX_JOB (c : Nat) : Field := ⟨0x5200 + 8 * c, 0, 6, 0, .ro, true, false, .any⟩
def CTX_JOB_VALID (c : Nat) : Field := ⟨0x5200 + 8 * c, 6, 1, 0, .ro, true, false, .any⟩
def CTX_HANDLE_QUOTA (c : Nat) : Field := ⟨0x5200 + 8 * c, 8, 13, 0x1000, .rw, true, false, .range 0 4096⟩
def CTX_HANDLES_USED (c : Nat) : Field := ⟨0x5204 + 8 * c, 0, 13, 0, .ro, true, false, .any⟩
def CTX_OVER_QUOTA (c : Nat) : Field := ⟨0x5204 + 8 * c, 13, 1, 0, .ro, true, false, .any⟩

/-! 07_queues_barriers.md, R213. -/

def MON_T_QUIET_MS : Field := ⟨0x5400, 0, 17, 0x64, .rw, true, false, .range 1 60000⟩
def MON_MON_EN : Field := ⟨0x5400, 17, 1, 1, .rw, true, false, .any⟩
def MON_DEADLOCK_LO : Field := ⟨0x5408, 0, 32, 0, .ro, false, false, .any⟩
def MON_DEADLOCK_HI : Field := ⟨0x540C, 0, 32, 0, .ro, false, false, .any⟩
def MON_DL_SEEN_LO : Field := ⟨0x5410, 0, 32, 0, .w1c, false, false, .any⟩
def MON_DL_SEEN_HI : Field := ⟨0x5414, 0, 32, 0, .w1c, false, false, .any⟩
def MON_STALE_CNT : Field := ⟨0x5420, 0, 16, 0, .rc, false, false, .any⟩
def MON_UNFENCED_CNT : Field := ⟨0x5420, 16, 16, 0, .rc, false, false, .any⟩
def MON_BAD_CMD_CNT : Field := ⟨0x5424, 0, 16, 0, .rc, false, false, .any⟩
def MON_SKIP_CNT : Field := ⟨0x5424, 16, 16, 0, .rc, false, false, .any⟩
def MON_HOST_SIG : Field := ⟨0x5430, 0, 1, 0, .ro, false, false, .any⟩
def MON_HOST_WAIT : Field := ⟨0x5430, 1, 1, 0, .ro, false, false, .any⟩
def MON_MONITOR : Field := ⟨0x5430, 2, 1, 0, .w1c, false, false, .any⟩
def MON_CLEARED : Field := ⟨0x5430, 3, 1, 0, .w1c, false, false, .any⟩
def MON_INT_EN : Field := ⟨0x5434, 0, 4, 0, .rw, false, false, .any⟩

/-! 07_queues_barriers.md, R214. -/

def BCR_HANDLE : Field := ⟨0x5800, 0, 12, 0, .rw, false, false, .any⟩
def BCR_CTX : Field := ⟨0x5800, 12, 6, 0, .rw, false, false, .any⟩
def BCR_SCOPE : Field := ⟨0x5800, 18, 1, 0, .rw, false, false, .any⟩
def BCR_HEADCOUNT : Field := ⟨0x5800, 19, 8, 0, .rw, false, false, .any⟩
def BCR_HOST : Field := ⟨0x5800, 27, 1, 0, .rw, false, false, .any⟩
def BCR_STATION : Field := ⟨0x5804, 0, 8, 0, .rw, false, false, .any⟩
def BCR_QMASK (i : Nat) : Field := ⟨0x5810 + 4 * i, 0, 32, 0, .rw, false, false, .any⟩
def BCR_OP : Field := ⟨0x5820, 0, 2, 0, .wo, false, false, .range 0 2⟩
def BCR_STATUS : Field := ⟨0x5824, 0, 4, 0, .ro, false, false, .any⟩
def BCR_BUSY : Field := ⟨0x5824, 4, 1, 0, .ro, false, false, .any⟩
def BCR_PHYS : Field := ⟨0x5824, 5, 14, 0, .ro, false, false, .any⟩
def BCR_GEN : Field := ⟨0x5824, 19, 8, 0, .ro, false, false, .any⟩

/-! 08_hall_barriers_bells.md, R247. -/

def BELL_LEAD_BEATS : Field := ⟨0x6000, 8, 8, 2, .ro, true, false, .any⟩
def BELL_LEAD_HOLD : Field := ⟨0x6000, 0, 1, 0, .rw, true, false, .any⟩

/-! 08_hall_barriers_bells.md, R247. -/

def BELL_DN_MAX : Field := ⟨0x6004, 0, 32, 0, .ro, true, false, .any⟩

/-! 08_hall_barriers_bells.md, R247. -/

def BELL_LV_MISS : Field := ⟨0x6008, 0, 4, 3, .rw, true, false, .range 2 15⟩

/-! 08_hall_barriers_bells.md, R247. -/

def HINT_QUORUM_WAIT : Field := ⟨0x6010, 3, 1, 0, .w1c, false, false, .any⟩
def HINT_JOB_DEADLOCK : Field := ⟨0x6010, 2, 1, 0, .w1c, false, false, .any⟩
def HINT_SUSPECT_CHG : Field := ⟨0x6010, 1, 1, 0, .w1c, false, false, .any⟩
def HINT_UNRESOLVED : Field := ⟨0x6010, 0, 1, 0, .w1c, false, false, .any⟩

/-! 08_hall_barriers_bells.md, R247. -/

def HCNT_DUP_OVR : Field := ⟨0x6020, 16, 16, 0, .rc, false, false, .any⟩
def HCNT_STALE_SENT : Field := ⟨0x6020, 0, 16, 0, .rc, false, false, .any⟩

/-! 08_hall_barriers_bells.md, R247. -/

def JH_MEMBERS (j : Nat) : Field := ⟨0x6100 + 16 * j, 0, 22, 0, .ro, true, false, .any⟩
def JH_SUSPECT (j : Nat) : Field := ⟨0x6104 + 16 * j, 0, 22, 0, .ro, true, false, .any⟩
def JH_DEADLOCK (j : Nat) : Field := ⟨0x6104 + 16 * j, 22, 1, 0, .ro, true, false, .any⟩
def JH_UNRESOLVED (j : Nat) : Field := ⟨0x6104 + 16 * j, 23, 1, 0, .ro, true, false, .any⟩
def JH_CREATED (j : Nat) : Field := ⟨0x6104 + 16 * j, 24, 1, 0, .ro, true, false, .any⟩
def JH_CLOSE_SEQ (j : Nat) : Field := ⟨0x6108 + 16 * j, 0, 32, 0, .ro, true, false, .any⟩
def JH_HSLOTS_USED (j : Nat) : Field := ⟨0x610C + 16 * j, 0, 20, 0, .ro, true, false, .any⟩

/-! 08_hall_barriers_bells.md, R248. -/

def SJH_BELL_LO (j : Nat) : Field := ⟨0x6400 + 16 * j, 0, 32, 0, .ro, false, false, .any⟩
def SJH_BELL_HI (j : Nat) : Field := ⟨0x6404 + 16 * j, 0, 16, 0, .ro, false, false, .any⟩
def SJH_BELL_VALID (j : Nat) : Field := ⟨0x6404 + 16 * j, 16, 1, 0, .ro, false, false, .any⟩
def SJH_MEMBER (j : Nat) : Field := ⟨0x6404 + 16 * j, 17, 1, 0, .ro, false, false, .any⟩
def SJH_MGEN (j : Nat) : Field := ⟨0x6404 + 16 * j, 18, 8, 0, .ro, false, false, .any⟩
def SJH_CLOSE_SEQ (j : Nat) : Field := ⟨0x6408 + 16 * j, 0, 32, 0, .ro, false, false, .any⟩
def SJH_LATE_BELL (j : Nat) : Field := ⟨0x640C + 16 * j, 0, 8, 0, .rc, false, false, .any⟩
def SJH_BELL_GAP (j : Nat) : Field := ⟨0x640C + 16 * j, 8, 8, 0, .rc, false, false, .any⟩
def SJH_CLOSE_GAP (j : Nat) : Field := ⟨0x640C + 16 * j, 16, 1, 0, .w1c, false, false, .any⟩
def SJH_CLOSE_BEHIND (j : Nat) : Field := ⟨0x640C + 16 * j, 17, 1, 0, .w1c, false, false, .any⟩

/-! 09_payload_arithmetic.md, R280. -/

def PD_BASE_LO : Field := ⟨0x6800, 12, 20, 0, .rw, false, false, .any⟩
def PD_PD_EN : Field := ⟨0x6800, 0, 1, 0, .rw, false, false, .any⟩
def PD_BASE_HI : Field := ⟨0x6804, 0, 32, 0, .rw, false, false, .any⟩

/-! 09_payload_arithmetic.md, R280. -/

def SPAY_IN_FLIGHT : Field := ⟨0x6808, 0, 13, 0, .ro, false, false, .any⟩
def SPAY_SRC_FAULT_CNT : Field := ⟨0x680C, 0, 16, 0, .rc, false, false, .any⟩
def SPAY_LOST_CNT : Field := ⟨0x680C, 16, 16, 0, .rc, false, false, .any⟩
def SPAY_REPEAT_CNT : Field := ⟨0x6810, 0, 16, 0, .rc, false, false, .any⟩
def SPAY_BAD_DESC_CNT : Field := ⟨0x6810, 16, 16, 0, .rc, false, false, .any⟩
def SPAY_DESC_MISMATCH : Field := ⟨0x6814, 0, 16, 0, .rc, false, false, .any⟩
def SPAY_INT : Field := ⟨0x6818, 0, 4, 0, .w1c, false, false, .any⟩
def SPAY_INT_EN : Field := ⟨0x681C, 0, 4, 0, .rw, false, false, .any⟩

/-! 09_payload_arithmetic.md, R281. -/

def CHK_WIDTH : Field := ⟨0x6900, 0, 2, 0, .rw, false, false, .any⟩
def CHK_SIGNED : Field := ⟨0x6900, 2, 1, 1, .rw, false, false, .any⟩
def CHK_AUTO_CLEAR : Field := ⟨0x6900, 3, 1, 1, .rw, false, false, .any⟩
def CHK_EXP_SRC : Field := ⟨0x6900, 4, 1, 0, .rw, false, false, .any⟩
def CHK_EXP_JOB : Field := ⟨0x6900, 8, 6, 0, .rw, false, false, .any⟩
def CHK_EXP_BUCKET : Field := ⟨0x6904, 0, 24, 0, .rw, false, false, .any⟩
def CHK_VALUE_LO : Field := ⟨0x6908, 0, 32, 0, .rw, false, false, .any⟩
def CHK_VALUE_HI : Field := ⟨0x690C, 0, 29, 0, .rw, false, false, .any⟩
def CHK_EXPECT_LO : Field := ⟨0x6910, 0, 32, 0, .rw, false, false, .any⟩
def CHK_EXPECT_HI : Field := ⟨0x6914, 0, 29, 0, .rw, false, false, .any⟩
def CHK_FINAL_LO : Field := ⟨0x6918, 0, 32, 0, .ro, false, false, .any⟩
def CHK_FINAL_HI : Field := ⟨0x691C, 0, 29, 0, .ro, false, false, .any⟩
def CHK_EXP_VALID : Field := ⟨0x6920, 0, 1, 0, .ro, false, false, .any⟩
def CHK_FINAL_VALID : Field := ⟨0x6920, 1, 1, 0, .ro, false, false, .any⟩
def CHK_MISMATCH : Field := ⟨0x6920, 2, 1, 0, .w1c, false, false, .any⟩
def CHK_MATCH : Field := ⟨0x6920, 3, 1, 0, .w1c, false, false, .any⟩
def CHK_KEEP_ERR : Field := ⟨0x6920, 8, 8, 0, .rc, false, false, .any⟩
def CHK_MISMATCH_CNT : Field := ⟨0x6920, 16, 8, 0, .rc, false, false, .any⟩
def CHK_COMPARES : Field := ⟨0x6920, 24, 8, 0, .rc, false, false, .any⟩

/-! 09_payload_arithmetic.md, R282. -/

def PIPE_PSTATE (i : Nat) : Field := ⟨0x6A00 + 16 * i, 0, 2, 0, .ro, false, false, .any⟩
def PIPE_RETIRE_MAP (i : Nat) : Field := ⟨0x6A00 + 16 * i, 8, 8, 0, .ro, false, false, .any⟩
def PIPE_MISMATCH_CNT (i : Nat) : Field := ⟨0x6A04 + 16 * i, 0, 16, 0, .rc, false, false, .any⟩
def PIPE_RETRY_FAIL (i : Nat) : Field := ⟨0x6A04 + 16 * i, 16, 16, 0, .rc, false, false, .any⟩
def PIPE_COMBINES (i : Nat) : Field := ⟨0x6A08 + 16 * i, 0, 32, 0, .rc, false, false, .any⟩

/-! 09_payload_arithmetic.md, R282. -/

def PAY_REPEAT_SENT : Field := ⟨0x6E80, 0, 16, 0, .rc, false, false, .any⟩
def PAY_PARTIAL_LOST : Field := ⟨0x6E80, 16, 16, 0, .rc, false, false, .any⟩
def PAY_PAY_MISMATCH : Field := ⟨0x6E84, 0, 16, 0, .rc, false, false, .any⟩
def PAY_DESC_MISMATCH : Field := ⟨0x6E84, 16, 16, 0, .rc, false, false, .any⟩
def PAY_BUF_USED : Field := ⟨0x6E88, 0, 17, 0, .ro, false, false, .any⟩
def PAY_BUF_WAIT : Field := ⟨0x6E88, 17, 15, 0, .rc, false, false, .any⟩

/-! 10_stud_book_register.md, R306. -/

def MEM_CH_FAILED : Field := ⟨0x7000, 16, 16, 0, .ro, false, false, .any⟩
def MEM_CH_PRESENT : Field := ⟨0x7000, 0, 16, 0, .ro, false, false, .any⟩

/-! 10_stud_book_register.md, R306. -/

def ECC_STACK_OK : Field := ⟨0x7004, 24, 4, 0xf, .ro, false, false, .any⟩
def ECC_UE_CNT : Field := ⟨0x7004, 16, 8, 0, .rc, false, false, .any⟩
def ECC_CE_CNT : Field := ⟨0x7004, 0, 16, 0, .rc, false, false, .any⟩

/-! 10_stud_book_register.md, R306. -/

def SPR_ROWS_B : Field := ⟨0x7008, 16, 16, 0, .ro, true, false, .any⟩
def SPR_ROWS_A : Field := ⟨0x7008, 0, 16, 0, .ro, true, false, .any⟩

/-! 10_stud_book_register.md, R306. -/

def SB_PAGES_FREE : Field := ⟨0x7010, 0, 13, 0x1000, .ro, true, false, .any⟩
def SB_MIRRORED : Field := ⟨0x7010, 13, 1, 0, .ro, true, false, .any⟩
def SB_MIRROR_SYNC : Field := ⟨0x7010, 14, 1, 0, .ro, true, false, .any⟩
def SB_MIRROR_LOST : Field := ⟨0x7010, 15, 1, 0, .w1c, true, false, .any⟩
def SB_ENTRY_BAD : Field := ⟨0x7010, 16, 16, 0, .rc, true, false, .any⟩
def SB_SB_UNMAPPED : Field := ⟨0x7014, 0, 16, 0, .rc, true, false, .any⟩
def SB_ENTRY_REPAIRED : Field := ⟨0x7014, 16, 16, 0, .rc, true, false, .any⟩

/-! 10_stud_book_register.md, R306. -/

def ATT_ATT_EN : Field := ⟨0x7020, 0, 1, 0, .rw, true, true, .any⟩
def ATT_SPILL_EN : Field := ⟨0x7020, 1, 1, 1, .rw, true, false, .any⟩
def ATT_SPILL_PAUSED : Field := ⟨0x7024, 0, 1, 0, .ro, false, false, .any⟩
def ATT_ARCH_LOST_SEEN : Field := ⟨0x7024, 1, 1, 0, .w1c, false, false, .any⟩
def ATT_SPILL_BUF_PCT : Field := ⟨0x7024, 8, 8, 0, .ro, false, false, .any⟩
def ATT_HEAD_SEQ : Field := ⟨0x7028, 0, 32, 0, .ro, false, false, .any⟩
def ATT_OLDEST_SEQ : Field := ⟨0x702C, 0, 32, 0, .ro, true, false, .any⟩
def ATT_ARCH_LOST : Field := ⟨0x7030, 0, 32, 0, .rc, false, false, .any⟩
def ATT_BLOCK_BAD : Field := ⟨0x7034, 0, 16, 0, .rc, false, false, .any⟩
def ATT_WIN_SEQ : Field := ⟨0x7038, 0, 32, 0, .rw, true, false, .any⟩
def ATT_HALF : Field := ⟨0x703C, 0, 1, 0, .rw, true, false, .any⟩
def ATT_WIN_BUSY : Field := ⟨0x703C, 1, 1, 0, .ro, true, false, .any⟩
def ATT_WIN_VALID : Field := ⟨0x703C, 2, 1, 0, .ro, true, false, .any⟩
def ATT_WIN_BAD : Field := ⟨0x703C, 3, 1, 0, .ro, true, false, .any⟩
def ATT_WIN_GONE : Field := ⟨0x703C, 4, 1, 0, .ro, true, false, .any⟩

/-! 10_stud_book_register.md, R306. -/

def RULE_VALID (r : Nat) : Field := ⟨0x7100 + 8 * r, 0, 1, 0, .rw, true, false, .any⟩
def RULE_ACTION (r : Nat) : Field := ⟨0x7100 + 8 * r, 1, 2, 0, .rw, true, false, .range 0 2⟩
def RULE_SCOPE (r : Nat) : Field := ⟨0x7100 + 8 * r, 3, 1, 0, .rw, true, false, .any⟩
def RULE_SAMPLE_LOG2 (r : Nat) : Field := ⟨0x7100 + 8 * r, 4, 4, 1, .rw, true, false, .range 1 15⟩
def RULE_KIND_LO (r : Nat) : Field := ⟨0x7104 + 8 * r, 0, 8, 0, .rw, true, false, .any⟩
def RULE_KIND_HI (r : Nat) : Field := ⟨0x7104 + 8 * r, 8, 8, 0xff, .rw, true, false, .any⟩
def RULE_JOB (r : Nat) : Field := ⟨0x7104 + 8 * r, 16, 6, 0, .rw, true, false, .any⟩
def RULE_ANY_JOB (r : Nat) : Field := ⟨0x7104 + 8 * r, 22, 1, 1, .rw, true, false, .any⟩

/-! 10_stud_book_register.md, R306. -/

def JM_SB_QUOTA (j : Nat) : Field := ⟨0x7200 + 16 * j, 0, 13, 0, .ro, true, false, .any⟩
def JM_SB_USED (j : Nat) : Field := ⟨0x7200 + 16 * j, 13, 13, 0, .ro, true, false, .any⟩
def JM_SB_OVER_QUOTA (j : Nat) : Field := ⟨0x7200 + 16 * j, 26, 1, 0, .ro, true, false, .any⟩
def JM_ATT_RATE (j : Nat) : Field := ⟨0x7204 + 16 * j, 0, 24, 0, .ro, true, false, .any⟩
def JM_ATT_DROP (j : Nat) : Field := ⟨0x7208 + 16 * j, 0, 32, 0, .rc, true, false, .any⟩
def JM_PAY_SHARE (j : Nat) : Field := ⟨0x720C + 16 * j, 0, 11, 0, .ro, true, false, .any⟩

/-! 10_stud_book_register.md, R306. -/

def SATT_LEVEL : Field := ⟨0x7000, 0, 11, 0, .ro, false, false, .any⟩
def SATT_DROP : Field := ⟨0x7000, 16, 16, 0, .rc, false, false, .any⟩

/-! 11_timetable_changes.md, R325. -/

def TT_LAST_TXN : Field := ⟨0x7600, 0, 32, 0, .ro, false, false, .any⟩
def TT_LAST_REASON : Field := ⟨0x7604, 0, 8, 0, .ro, false, false, .any⟩
def TT_PREPARED : Field := ⟨0x7604, 8, 4, 0, .ro, false, false, .any⟩
def TT_PENDING : Field := ⟨0x7604, 12, 5, 0, .ro, false, false, .any⟩
def TT_NO_NOW : Field := ⟨0x7604, 17, 1, 0, .ro, false, false, .any⟩
def TT_EMERG_HOLD : Field := ⟨0x7604, 18, 1, 0, .ro, false, false, .any⟩
def TT_DRILL_HOLD : Field := ⟨0x7604, 19, 1, 0, .ro, false, false, .any⟩
def TT_COMMITS : Field := ⟨0x7608, 0, 16, 0, .rc, false, false, .any⟩
def TT_ABORTS : Field := ⟨0x7608, 16, 16, 0, .rc, false, false, .any⟩
def TT_TT_LATE : Field := ⟨0x760C, 0, 16, 0, .rc, false, false, .any⟩
def TT_FW_DEFERRED : Field := ⟨0x760C, 16, 8, 0, .rc, false, false, .any⟩

/-! 11_timetable_changes.md, R325. -/

def TT_VOTE_DEF : Field := ⟨0x7610, 0, 15, 0x40, .rw, true, false, .range 8 32767⟩

/-! 12_hall_power.md, R346. -/

def PWR_ENVELOPE_KW : Field := ⟨0x9004, 0, 24, 0, .rw, true, true, .any⟩
def PWR_DIE_W : Field := ⟨0x9008, 0, 16, 0, .rw, true, true, .range 1 65535⟩
def PWR_RAMP_UP : Field := ⟨0x900C, 0, 16, 0x64, .rw, true, false, .range 1 10000⟩
def PWR_RAMP_DN : Field := ⟨0x900C, 16, 16, 0x64, .rw, true, false, .range 1 10000⟩
def PWR_UF_DB : Field := ⟨0x9010, 0, 8, 0x14, .rw, true, false, .any⟩
def PWR_UF_GAIN : Field := ⟨0x9010, 8, 10, 0x7d, .rw, true, false, .range 1 1000⟩
def PWR_UF_MAX : Field := ⟨0x9010, 18, 5, 0x19, .rw, true, false, .range 0 25⟩
def PWR_UF_EN : Field := ⟨0x9010, 31, 1, 1, .rw, true, false, .any⟩
def PWR_CURTAIL_KW : Field := ⟨0x9014, 0, 24, 0, .rw, true, false, .any⟩

/-! 12_hall_power.md, R346. -/

def PWRS_TEL_PARTIAL : Field := ⟨0x9018, 21, 1, 0, .ro, false, false, .any⟩
def PWRS_OVER_ENVELOPE : Field := ⟨0x9018, 20, 1, 0, .ro, false, false, .any⟩
def PWRS_CURTAILING : Field := ⟨0x9018, 19, 1, 0, .ro, false, false, .any⟩
def PWRS_UF_ACTIVE : Field := ⟨0x9018, 18, 1, 0, .ro, false, false, .any⟩
def PWRS_FROZEN : Field := ⟨0x9018, 17, 1, 0, .ro, false, false, .any⟩
def PWRS_EMERGENCY : Field := ⟨0x9018, 16, 1, 0, .ro, false, false, .any⟩
def PWRS_CAP : Field := ⟨0x9018, 8, 7, 0x64, .ro, false, false, .any⟩
def PWRS_UF_NOW : Field := ⟨0x9018, 0, 5, 0, .ro, false, false, .any⟩

/-! 12_hall_power.md, R346. -/

def PWRH_POWER_LO : Field := ⟨0x9020, 0, 32, 0, .ro, false, false, .any⟩
def PWRH_POWER_HI : Field := ⟨0x9024, 0, 16, 0, .ro, false, false, .any⟩
def PWRH_DIES : Field := ⟨0x9028, 0, 22, 0, .ro, false, false, .any⟩
def PWRH_REPORT_BEAT : Field := ⟨0x902C, 0, 32, 0, .ro, false, false, .any⟩

/-! 12_hall_power.md, R346. -/

def PJ_LEVEL_OUT (j : Nat) : Field := ⟨0x9100 + 16 * j, 0, 8, 0, .ro, true, false, .any⟩
def PJ_RECESS (j : Nat) : Field := ⟨0x9100 + 16 * j, 8, 1, 0, .ro, true, false, .any⟩
def PJ_PHASE (j : Nat) : Field := ⟨0x9100 + 16 * j, 9, 2, 0, .ro, true, false, .any⟩
def PJ_HOLDING (j : Nat) : Field := ⟨0x9100 + 16 * j, 11, 1, 0, .ro, true, false, .any⟩
def PJ_STEP_FLOOR (j : Nat) : Field := ⟨0x9100 + 16 * j, 16, 8, 0, .ro, true, false, .any⟩
def PJ_RECESS_LOW (j : Nat) : Field := ⟨0x9100 + 16 * j, 24, 8, 0, .ro, true, false, .any⟩
def PJ_STAGGER_LOG2 (j : Nat) : Field := ⟨0x9104 + 16 * j, 0, 3, 0, .ro, true, false, .any⟩
def PJ_AUTO_RECESS (j : Nat) : Field := ⟨0x9104 + 16 * j, 3, 1, 1, .ro, true, false, .any⟩
def PJ_STAGGER_BEATS (j : Nat) : Field := ⟨0x9104 + 16 * j, 8, 8, 0, .ro, true, false, .any⟩
def PJ_RECESS_DETECT_MS (j : Nat) : Field := ⟨0x9104 + 16 * j, 16, 16, 0x3e8, .ro, true, false, .any⟩
def PJ_MIN_INTERVAL_BEATS (j : Nat) : Field := ⟨0x9108 + 16 * j, 0, 24, 0, .ro, true, false, .any⟩
def PJ_HOLD_US (j : Nat) : Field := ⟨0x910C + 16 * j, 0, 32, 0, .rc, true, false, .any⟩

/-! 12_hall_power.md, R347. -/

def SPWR_DIE_W : Field := ⟨0x9000, 0, 16, 0, .rw, true, true, .any⟩
def SPWR_FLOOR_OUT : Field := ⟨0x9004, 0, 8, 0, .ro, false, false, .any⟩
def SPWR_PM_RECESS : Field := ⟨0x9004, 8, 1, 0, .ro, false, false, .any⟩
def SPWR_PM_EMERG : Field := ⟨0x9004, 9, 1, 0, .ro, false, false, .any⟩
def SPWR_TEL_MISS : Field := ⟨0x9004, 10, 1, 0, .w1c, false, false, .any⟩
def SPWR_LAST_MW : Field := ⟨0x9008, 0, 22, 0, .ro, false, false, .any⟩
def SPWR_LEVEL (j : Nat) : Field := ⟨0x9100 + 4 * j, 0, 8, 0, .ro, false, false, .any⟩
def SPWR_RECESS (j : Nat) : Field := ⟨0x9100 + 4 * j, 8, 1, 0, .ro, false, false, .any⟩
def SPWR_VALID (j : Nat) : Field := ⟨0x9100 + 4 * j, 9, 1, 0, .ro, false, false, .any⟩
def SPWR_ENTRY (j : Nat) : Field := ⟨0x9100 + 4 * j, 10, 7, 0, .ro, false, false, .any⟩

/-! 13_firmware_slate.md, R365. -/

def MB_CODE (m : Nat) : Field := ⟨0x8800 + 32 * m, 0, 8, 0, .rw, false, false, .any⟩
def MB_TAG (m : Nat) : Field := ⟨0x8800 + 32 * m, 8, 8, 0, .rw, false, false, .any⟩
def MB_ARG_LEN (m : Nat) : Field := ⟨0x8800 + 32 * m, 16, 9, 0, .rw, false, false, .range 0 256⟩
def MB_IRQ_EN (m : Nat) : Field := ⟨0x8800 + 32 * m, 25, 1, 0, .rw, false, false, .any⟩
def MB_DMA_RESULT (m : Nat) : Field := ⟨0x8800 + 32 * m, 26, 1, 0, .rw, false, false, .any⟩
def MB_GO (m : Nat) : Field := ⟨0x8800 + 32 * m, 31, 1, 0, .wo, false, false, .any⟩
def MB_STATUS (m : Nat) : Field := ⟨0x8804 + 32 * m, 0, 4, 0, .ro, false, false, .any⟩
def MB_DONE (m : Nat) : Field := ⟨0x8804 + 32 * m, 4, 1, 0, .ro, false, false, .any⟩
def MB_OWNED (m : Nat) : Field := ⟨0x8804 + 32 * m, 5, 1, 0, .ro, false, false, .any⟩
def MB_STAG (m : Nat) : Field := ⟨0x8804 + 32 * m, 8, 8, 0, .ro, false, false, .any⟩
def MB_RESULT_LEN (m : Nat) : Field := ⟨0x8804 + 32 * m, 16, 9, 0, .ro, false, false, .any⟩
def MB_RESULT_ADDR_LO (m : Nat) : Field := ⟨0x8808 + 32 * m, 0, 32, 0, .rw, false, false, .any⟩
def MB_RESULT_ADDR_HI (m : Nat) : Field := ⟨0x880C + 32 * m, 0, 32, 0, .rw, false, false, .any⟩
def MB_DETAIL (m : Nat) : Field := ⟨0x8810 + 32 * m, 0, 16, 0, .ro, false, false, .any⟩
def MB_RESULT_TOTAL (m : Nat) : Field := ⟨0x8814 + 32 * m, 0, 32, 0, .ro, false, false, .any⟩

/-! 13_firmware_slate.md, R375. -/

def LOAD_LOAD_ADDR_LO : Field := ⟨0xA000, 12, 20, 0, .rw, false, false, .any⟩
def LOAD_LOAD_ADDR_HI : Field := ⟨0xA004, 0, 32, 0, .rw, false, false, .any⟩
def LOAD_LOAD_LEN : Field := ⟨0xA008, 0, 24, 0, .rw, false, false, .any⟩
def LOAD_GO : Field := ⟨0xA00C, 0, 1, 0, .wo, false, false, .any⟩
def LOAD_KIND : Field := ⟨0xA00C, 1, 1, 0, .rw, false, false, .any⟩
def LOAD_STATE : Field := ⟨0xA010, 0, 3, 0, .ro, false, false, .any⟩
def LOAD_CONFIG_LOADED : Field := ⟨0xA010, 3, 1, 0, .ro, false, false, .any⟩
def LOAD_FW_LOADED : Field := ⟨0xA010, 4, 1, 0, .ro, false, false, .any⟩
def LOAD_ERROR : Field := ⟨0xA010, 8, 4, 0, .ro, false, false, .any⟩
def LOAD_FW_VERSION : Field := ⟨0xA020, 0, 32, 0, .ro, false, false, .any⟩
def LOAD_CONFIG_VERSION : Field := ⟨0xA024, 0, 32, 0, .ro, false, false, .any⟩

/-! 13_firmware_slate.md, R375. -/

def SLATE_DENIED_CNT : Field := ⟨0xA030, 24, 8, 0, .rc, false, false, .any⟩
def SLATE_HELD_COUNT : Field := ⟨0xA030, 8, 9, 0, .ro, false, false, .any⟩
def SLATE_WR_HELD : Field := ⟨0xA030, 4, 1, 0, .ro, false, false, .any⟩
def SLATE_TOKEN_DENIED : Field := ⟨0xA030, 3, 1, 0, .w1c, false, false, .any⟩
def SLATE_STALE_SEEN : Field := ⟨0xA030, 2, 1, 0, .w1c, false, false, .any⟩
def SLATE_STALE_VIEW : Field := ⟨0xA030, 1, 1, 0, .ro, false, false, .any⟩
def SLATE_BUSY : Field := ⟨0xA030, 0, 1, 0, .ro, false, false, .any⟩

/-! 13_firmware_slate.md, R375. -/

def PREF_STATE (p : Nat) : Field := ⟨0xA040 + 8 * p, 0, 3, 0, .ro, false, false, .any⟩
def PREF_ROLE (p : Nat) : Field := ⟨0xA040 + 8 * p, 3, 4, 0xf, .ro, false, false, .any⟩
def PREF_CRASHES (p : Nat) : Field := ⟨0xA040 + 8 * p, 8, 4, 0, .ro, false, false, .any⟩
def PREF_LAST_CAUSE (p : Nat) : Field := ⟨0xA040 + 8 * p, 12, 4, 0, .ro, false, false, .any⟩
def PREF_RESTARTS (p : Nat) : Field := ⟨0xA040 + 8 * p, 16, 8, 0, .rc, false, false, .any⟩
def PREF_COMP_FAULTS (p : Nat) : Field := ⟨0xA040 + 8 * p, 24, 8, 0, .rc, false, false, .any⟩
def PREF_LAST_HT32 (p : Nat) : Field := ⟨0xA044 + 8 * p, 0, 32, 0, .ro, false, false, .any⟩

/-! 13_firmware_slate.md, R375. -/

def FWS_STAGED : Field := ⟨0xA080, 0, 1, 0, .ro, true, false, .any⟩
def FWS_ACCEPT_OK : Field := ⟨0xA080, 1, 1, 0, .ro, true, false, .any⟩
def FWS_ACT_PENDING : Field := ⟨0xA080, 2, 1, 0, .ro, true, false, .any⟩
def FWS_HOLD_OFF : Field := ⟨0xA080, 3, 1, 0, .ro, true, false, .any⟩
def FWS_SCHEMA : Field := ⟨0xA080, 16, 16, 0, .ro, true, false, .any⟩
def FWS_STAGED_VERSION : Field := ⟨0xA084, 0, 32, 0, .ro, true, false, .any⟩
def FWS_STAGED_DIGEST_LO : Field := ⟨0xA088, 0, 32, 0, .ro, true, false, .any⟩
def FWS_STAGED_DIGEST_HI : Field := ⟨0xA08C, 0, 32, 0, .ro, true, false, .any⟩

/-! 13_firmware_slate.md, R375. -/

def TOK_TOKEN : Field := ⟨0xA100, 0, 32, 0, .wo, false, false, .any⟩
def TOK_CLASS : Field := ⟨0xA104, 0, 2, 0, .ro, false, false, .any⟩
def TOK_JOB : Field := ⟨0xA104, 8, 6, 0, .ro, false, false, .any⟩

/-! 14_start_power_states.md, R396. -/

def START_STAGE : Field := ⟨0xB000, 0, 2, 0, .ro, false, false, .any⟩
def START_STAGE1_MET : Field := ⟨0xB000, 2, 1, 0, .ro, false, false, .any⟩
def START_FW_UP : Field := ⟨0xB000, 3, 1, 0, .ro, false, false, .any⟩
def START_FULL : Field := ⟨0xB000, 4, 1, 0, .ro, false, false, .any⟩
def START_START_DEFAULTS : Field := ⟨0xB000, 5, 1, 1, .ro, false, false, .any⟩
def START_LAST_RESET : Field := ⟨0xB000, 8, 2, 0, .ro, false, false, .any⟩
def START_STAGE_MS : Field := ⟨0xB000, 16, 16, 0, .ro, false, false, .any⟩

/-! 14_start_power_states.md, R396. -/

def SUP_VIN_MV : Field := ⟨0xB010, 0, 16, 0, .ro, false, false, .any⟩
def SUP_WARN : Field := ⟨0xB010, 16, 1, 0, .ro, false, false, .any⟩
def SUP_GUARD : Field := ⟨0xB010, 17, 1, 0, .ro, false, false, .any⟩
def SUP_GUARD_SEEN : Field := ⟨0xB010, 18, 1, 0, .w1c, false, false, .any⟩
def SUP_RAIL_WARN : Field := ⟨0xB010, 20, 8, 0, .ro, false, false, .any⟩

/-! 14_start_power_states.md, R396. -/

def SUP_GUARD_CNT : Field := ⟨0xB014, 0, 16, 0, .rc, false, false, .any⟩
def SUP_LAST_START : Field := ⟨0xB018, 0, 32, 0, .ro, false, false, .any⟩
def SUP_LAST_LEN_US : Field := ⟨0xB01C, 0, 32, 0, .ro, false, false, .any⟩

/-! 14_start_power_states.md, R396. -/

def PL_PL_MAX (u : Nat) : Field := ⟨0xB040 + 8 * u, 0, 3, [3, 1, 3, 4, 2].getD u 0, .rw, true, false, .plMax u⟩
def PL_DWELL_US (u : Nat) : Field := ⟨0xB040 + 8 * u, 8, 16, 0xa, .rw, true, false, .range 1 65535⟩
def PL_UNITS_DOWN (u : Nat) : Field := ⟨0xB044 + 8 * u, 0, 8, 0, .ro, false, false, .any⟩
def PL_HELD (u : Nat) : Field := ⟨0xB044 + 8 * u, 8, 1, 0, .ro, false, false, .any⟩
def PL_WAKES (u : Nat) : Field := ⟨0xB044 + 8 * u, 16, 16, 0, .rc, false, false, .any⟩

/-! 15_faults_drills.md, R417. -/

def FSUM_DRILL_FAIL : Field := ⟨0xC000, 16, 1, 0, .w1c, false, false, .any⟩
def FSUM_DEMOTED : Field := ⟨0xC000, 15, 1, 0, .w1c, false, false, .any⟩
def FSUM_PROMOTED : Field := ⟨0xC000, 14, 1, 0, .w1c, false, false, .any⟩
def FSUM_CHANNEL_FAIL : Field := ⟨0xC000, 13, 1, 0, .ro, false, false, .any⟩
def FSUM_STACK_FAIL : Field := ⟨0xC000, 12, 1, 0, .ro, false, false, .any⟩
def FSUM_COLD_START : Field := ⟨0xC000, 11, 1, 0, .w1c, false, false, .any⟩
def FSUM_PREFECT_NO_SPARE : Field := ⟨0xC000, 10, 1, 0, .ro, false, false, .any⟩
def FSUM_PIPES_SHORT : Field := ⟨0xC000, 9, 1, 0, .ro, false, false, .any⟩
def FSUM_SPARE_NONE : Field := ⟨0xC000, 8, 1, 0, .ro, false, false, .any⟩
def FSUM_LANES_DEGRADED : Field := ⟨0xC000, 0, 8, 0, .ro, false, false, .any⟩

/-! 15_faults_drills.md, R417. -/

def FLT_CLASS : Field := ⟨0xC004, 0, 16, 0, .ro, true, false, .any⟩
def FLT_ACTION : Field := ⟨0xC004, 16, 8, 0, .ro, true, false, .any⟩
def FLT_LAST_HT32 : Field := ⟨0xC008, 0, 32, 0, .ro, true, false, .any⟩
def FLT_FAULTS : Field := ⟨0xC00C, 0, 16, 0, .rc, false, false, .any⟩

/-! 15_faults_drills.md, R417. -/

def PROM_PROMOTE_MS : Field := ⟨0xC010, 0, 10, 0x14, .rw, true, false, .range 5 1000⟩
def PROM_AUTO_PROMOTE : Field := ⟨0xC010, 16, 1, 1, .rw, true, false, .any⟩
def PROM_PROMO_SEQ : Field := ⟨0xC010, 24, 8, 0, .ro, true, false, .any⟩
def PROM_MIRROR_SILENT : Field := ⟨0xC014, 0, 1, 0, .ro, false, false, .any⟩
def PROM_MID_MAJORITY : Field := ⟨0xC014, 1, 1, 0, .ro, false, false, .any⟩
def PROM_MIDS_LINKED : Field := ⟨0xC014, 8, 7, 0, .ro, false, false, .any⟩
def PROM_MIDS_LOST : Field := ⟨0xC014, 16, 7, 0, .ro, false, false, .any⟩

/-! 15_faults_drills.md, R417. -/

def DRL_DRILL_EN : Field := ⟨0xC020, 0, 1, 0, .rw, true, true, .any⟩
def DRL_DRILL_PERIOD_MIN : Field := ⟨0xC020, 8, 16, 0x168, .rw, true, false, .range 10 65535⟩
def DRL_ROOT_DRILL_H : Field := ⟨0xC020, 24, 8, 0xa8, .rw, true, false, .range 1 255⟩
def DRL_RUNNING_TYPE : Field := ⟨0xC024, 0, 3, 7, .ro, true, false, .any⟩
def DRL_RUNNING : Field := ⟨0xC024, 3, 1, 0, .ro, true, false, .any⟩
def DRL_LAST_RESULT : Field := ⟨0xC024, 4, 2, 0, .ro, true, false, .any⟩
def DRL_FAIL_CNT : Field := ⟨0xC024, 8, 8, 0, .rc, true, false, .any⟩
def DRL_DONE_CNT : Field := ⟨0xC024, 16, 16, 0, .rc, true, false, .any⟩
def DRL_SKIP_CNT : Field := ⟨0xC028, 0, 16, 0, .rc, true, false, .any⟩

/-! 15_faults_drills.md, R417. -/

def JD_CONSENT (j : Nat) : Field := ⟨0xC100 + 8 * j, 0, 6, 0x3f, .ro, true, false, .any⟩

/-! 15_faults_drills.md, R417. -/

def RC_COMPUTE_MS (j : Nat) : Field := ⟨0xC400 + 32 * j, 0, 32, 0, .ro, true, false, .any⟩
def RC_WAIT_MS (j : Nat) : Field := ⟨0xC404 + 32 * j, 0, 32, 0, .ro, true, false, .any⟩
def RC_RECESS_MS (j : Nat) : Field := ⟨0xC408 + 32 * j, 0, 32, 0, .ro, true, false, .any⟩
def RC_RECOVERY_MS (j : Nat) : Field := ⟨0xC40C + 32 * j, 0, 32, 0, .ro, true, false, .any⟩
def RC_DRILL_MS (j : Nat) : Field := ⟨0xC410 + 32 * j, 0, 32, 0, .ro, true, false, .any⟩
def RC_BELLS (j : Nat) : Field := ⟨0xC414 + 32 * j, 0, 32, 0, .ro, true, false, .any⟩
def RC_SINCE_BEAT (j : Nat) : Field := ⟨0xC418 + 32 * j, 0, 32, 0, .ro, true, false, .any⟩

/-! 16_reference_maps.md, R422. -/

def ID_STEPPING : Field := ⟨0x0000, 24, 8, 0, .ro, false, false, .any⟩
def ID_PART : Field := ⟨0x0000, 16, 8, 0, .ro, false, false, .any⟩
def ID_VENDOR : Field := ⟨0x0000, 0, 16, 0x4858, .ro, false, false, .any⟩

/-! 16_reference_maps.md, R423. -/

def ROLL_SEAT : Field := ⟨0x0004, 25, 2, 0, .ro, false, true, .any⟩
def ROLL_ROLE : Field := ⟨0x0004, 22, 3, 0, .ro, false, false, .any⟩
def ROLL_ROLL_VALID : Field := ⟨0x0004, 21, 1, 0, .ro, false, false, .any⟩
def ROLL_ROLL : Field := ⟨0x0004, 0, 21, 0, .ro, false, false, .any⟩

/-! 16_reference_maps.md, R423. -/

def SROLL_LEAD : Field := ⟨0x0004, 22, 1, 0, .ro, false, false, .any⟩
def SROLL_ROLL_VALID : Field := ⟨0x0004, 21, 1, 0, .ro, false, false, .any⟩
def SROLL_ROLL : Field := ⟨0x0004, 0, 21, 0, .ro, false, false, .any⟩

/-! 16_reference_maps.md, R424. -/

def CAPS_PREFECTS : Field := ⟨0x0008, 24, 3, 7, .ro, false, false, .any⟩
def CAPS_PIPES : Field := ⟨0x0008, 16, 8, 0x44, .ro, false, false, .any⟩
def CAPS_LANES : Field := ⟨0x0008, 8, 8, 0x50, .ro, false, false, .any⟩
def CAPS_TIER_B : Field := ⟨0x0008, 5, 1, 0, .ro, false, false, .any⟩
def CAPS_EXT_TDC : Field := ⟨0x0008, 4, 1, 0, .ro, false, false, .any⟩
def CAPS_MAINS : Field := ⟨0x0008, 3, 1, 0, .ro, false, false, .any⟩
def CAPS_SHAPER : Field := ⟨0x0008, 2, 1, 0, .ro, false, false, .any⟩
def CAPS_VARIANT : Field := ⟨0x0008, 0, 2, 0, .ro, false, false, .any⟩

/-! 16_reference_maps.md, R424. -/

def SCAPS_LEAD : Field := ⟨0x0008, 15, 1, 0, .ro, false, false, .any⟩
def SCAPS_TL_PORTS : Field := ⟨0x0008, 13, 2, 0, .ro, false, false, .any⟩
def SCAPS_PKG_PORT : Field := ⟨0x0008, 12, 1, 0, .ro, false, false, .any⟩
def SCAPS_CHECKER : Field := ⟨0x0008, 11, 1, 0, .ro, false, false, .any⟩
def SCAPS_PAYLOAD : Field := ⟨0x0008, 10, 1, 0, .ro, false, false, .any⟩
def SCAPS_QUEUES_16 : Field := ⟨0x0008, 6, 4, 0, .ro, false, false, .any⟩
def SCAPS_STATIONS_8 : Field := ⟨0x0008, 0, 6, 0, .ro, false, false, .any⟩

/-! 16_reference_maps.md, R425. -/

def STATUS_ACTIVE_ROOT : Field := ⟨0x000C, 12, 1, 0, .ro, false, false, .any⟩
def STATUS_DEADLOCK : Field := ⟨0x000C, 11, 1, 0, .ro, false, false, .any⟩
def STATUS_STALE_VIEW : Field := ⟨0x000C, 10, 1, 0, .ro, false, false, .any⟩
def STATUS_ALERT : Field := ⟨0x000C, 9, 1, 0, .ro, false, false, .any⟩
def STATUS_EMERGENCY : Field := ⟨0x000C, 8, 1, 0, .ro, false, false, .any⟩
def STATUS_GUARD : Field := ⟨0x000C, 7, 1, 0, .ro, false, false, .any⟩
def STATUS_FW_READY : Field := ⟨0x000C, 6, 1, 0, .ro, false, false, .any⟩
def STATUS_HOLDOVER : Field := ⟨0x000C, 5, 1, 0, .ro, false, false, .any⟩
def STATUS_UNALIGNED : Field := ⟨0x000C, 4, 1, 0, .ro, false, false, .any⟩
def STATUS_ALIGNED : Field := ⟨0x000C, 3, 1, 0, .ro, false, false, .any⟩
def STATUS_JOINED : Field := ⟨0x000C, 2, 1, 0, .ro, false, false, .any⟩
def STATUS_STAGE : Field := ⟨0x000C, 0, 2, 0, .ro, false, false, .any⟩

/-! 16_reference_maps.md, R426. -/

def ALERT_CLOSE_GAP : Field := ⟨0x0010, 4, 1, 0, .w1c, false, false, .any⟩
def ALERT_LEAD_HOLD : Field := ⟨0x0010, 3, 1, 0, .w1c, false, false, .any⟩
def ALERT_FAULT : Field := ⟨0x0010, 2, 1, 0, .w1c, false, false, .any⟩
def ALERT_CABLING : Field := ⟨0x0010, 1, 1, 0, .w1c, false, false, .any⟩
def ALERT_RSVD_WRITE : Field := ⟨0x0010, 0, 1, 0, .w1c, false, false, .any⟩

/-! 16_reference_maps.md, R426. -/

def ALERT_EN_EN : Field := ⟨0x0014, 0, 5, 0x1f, .rw, false, false, .any⟩

/-! 16_reference_maps.md, R428. -/

def PIN_MAINS_ZC : Field := ⟨0x0018, 10, 6, 0, .ro, false, false, .any⟩
def PIN_MAINS_FREQ_ALM_N : Field := ⟨0x0018, 9, 1, 0, .ro, false, false, .any⟩
def PIN_MAINS_SAG_N : Field := ⟨0x0018, 8, 1, 0, .ro, false, false, .any⟩
def PIN_ALERT_N : Field := ⟨0x0018, 6, 1, 1, .ro, false, false, .any⟩
def PIN_FW_READY : Field := ⟨0x0018, 5, 1, 0, .ro, false, false, .any⟩
def PIN_BROWNOUT_N : Field := ⟨0x0018, 4, 1, 1, .ro, false, false, .any⟩
def PIN_ALIGN_OK : Field := ⟨0x0018, 3, 1, 0, .ro, false, false, .any⟩
def PIN_REF_FAULT : Field := ⟨0x0018, 2, 1, 0, .ro, false, false, .any⟩
def PIN_HOLDOVER : Field := ⟨0x0018, 1, 1, 0, .ro, false, false, .any⟩
def PIN_LOCK : Field := ⟨0x0018, 0, 1, 0, .ro, false, false, .any⟩

/-! 16_reference_maps.md, R429. -/

def SPIN_IRQ_ALERT : Field := ⟨0x0018, 15, 1, 0, .ro, false, false, .any⟩
def SPIN_IRQ_MBX : Field := ⟨0x0018, 14, 1, 0, .ro, false, false, .any⟩
def SPIN_IRQ_PAY : Field := ⟨0x0018, 13, 1, 0, .ro, false, false, .any⟩
def SPIN_IRQ_MON : Field := ⟨0x0018, 12, 1, 0, .ro, false, false, .any⟩
def SPIN_IRQ_SYNC : Field := ⟨0x0018, 11, 1, 0, .ro, false, false, .any⟩
def SPIN_OPP_REQ : Field := ⟨0x0018, 7, 4, 0, .ro, false, false, .any⟩
def SPIN_OPP_REQ_VALID : Field := ⟨0x0018, 6, 1, 0, .ro, false, false, .any⟩
def SPIN_OPP_READY : Field := ⟨0x0018, 5, 1, 0, .ro, false, false, .any⟩
def SPIN_PM_EMERG : Field := ⟨0x0018, 4, 1, 0, .ro, false, false, .any⟩
def SPIN_SUP_WARN_N : Field := ⟨0x0018, 0, 4, 0xf, .ro, false, false, .any⟩

/-! 08_hall_barriers_bells.md, R247. -/

def HINTEN_QUORUM_WAIT : Field := ⟨0x6014, 3, 1, 0, .rw, false, false, .any⟩
def HINTEN_JOB_DEADLOCK : Field := ⟨0x6014, 2, 1, 0, .rw, false, false, .any⟩
def HINTEN_SUSPECT_CHG : Field := ⟨0x6014, 1, 1, 0, .rw, false, false, .any⟩
def HINTEN_UNRESOLVED : Field := ⟨0x6014, 0, 1, 0, .rw, false, false, .any⟩

/-! 14_start_power_states.md, R396. -/

def SPL_PL_MAX (u : Nat) : Field := ⟨0xB040 + 8 * u, 0, 3, [2, 0, 0, 4, 2].getD u 0, .rw, true, false, .splMax u⟩

end Rg

/-- One register of the map: the parts that have it, the offset of its first instance, the distance and the number of
its instances, and the fields of instance `n`. -/
structure RegRow where
  fd : Bool
  sc : Bool
  base : Nat
  stride : Nat
  count : Nat
  fields : Nat → List Field

/-- Rows 0 of the register map, by offset. -/
def regRows0 : List RegRow := [
  ⟨true, true, 0x0000, 4, 1, fun _ => [Rg.ID_STEPPING, Rg.ID_PART, Rg.ID_VENDOR]⟩,
  ⟨true, false, 0x0004, 4, 1, fun _ => [Rg.ROLL_SEAT, Rg.ROLL_ROLE, Rg.ROLL_ROLL_VALID, Rg.ROLL_ROLL]⟩,
  ⟨false, true, 0x0004, 4, 1, fun _ => [Rg.SROLL_LEAD, Rg.SROLL_ROLL_VALID, Rg.SROLL_ROLL]⟩,
  ⟨true, false, 0x0008, 4, 1, fun _ => [Rg.CAPS_PREFECTS, Rg.CAPS_PIPES, Rg.CAPS_LANES, Rg.CAPS_TIER_B, Rg.CAPS_EXT_TDC, Rg.CAPS_MAINS, Rg.CAPS_SHAPER, Rg.CAPS_VARIANT]⟩,
  ⟨false, true, 0x0008, 4, 1, fun _ => [Rg.SCAPS_LEAD, Rg.SCAPS_TL_PORTS, Rg.SCAPS_PKG_PORT, Rg.SCAPS_CHECKER, Rg.SCAPS_PAYLOAD, Rg.SCAPS_QUEUES_16, Rg.SCAPS_STATIONS_8]⟩,
  ⟨true, true, 0x000C, 4, 1, fun _ => [Rg.STATUS_ACTIVE_ROOT, Rg.STATUS_DEADLOCK, Rg.STATUS_STALE_VIEW, Rg.STATUS_ALERT, Rg.STATUS_EMERGENCY, Rg.STATUS_GUARD, Rg.STATUS_FW_READY, Rg.STATUS_HOLDOVER, Rg.STATUS_UNALIGNED, Rg.STATUS_ALIGNED, Rg.STATUS_JOINED, Rg.STATUS_STAGE]⟩,
  ⟨true, true, 0x0010, 4, 1, fun _ => [Rg.ALERT_CLOSE_GAP, Rg.ALERT_LEAD_HOLD, Rg.ALERT_FAULT, Rg.ALERT_CABLING, Rg.ALERT_RSVD_WRITE]⟩,
  ⟨true, true, 0x0014, 4, 1, fun _ => [Rg.ALERT_EN_EN]⟩,
  ⟨true, false, 0x0018, 4, 1, fun _ => [Rg.PIN_MAINS_ZC, Rg.PIN_MAINS_FREQ_ALM_N, Rg.PIN_MAINS_SAG_N, Rg.PIN_ALERT_N, Rg.PIN_FW_READY, Rg.PIN_BROWNOUT_N, Rg.PIN_ALIGN_OK, Rg.PIN_REF_FAULT, Rg.PIN_HOLDOVER, Rg.PIN_LOCK]⟩,
  ⟨false, true, 0x0018, 4, 1, fun _ => [Rg.SPIN_IRQ_ALERT, Rg.SPIN_IRQ_MBX, Rg.SPIN_IRQ_PAY, Rg.SPIN_IRQ_MON, Rg.SPIN_IRQ_SYNC, Rg.SPIN_OPP_REQ, Rg.SPIN_OPP_REQ_VALID, Rg.SPIN_OPP_READY, Rg.SPIN_PM_EMERG, Rg.SPIN_SUP_WARN_N]⟩,
  ⟨true, true, 0x0100, 4, 1, fun _ => [Rg.HT_HT_NS_LO]⟩,
  ⟨true, true, 0x0104, 4, 1, fun _ => [Rg.HT_HT_NS_HI]⟩,
  ⟨true, true, 0x0108, 4, 1, fun _ => [Rg.HT_HT_FRAC, Rg.HT_LATCHED, Rg.HT_EPOCH_KIND, Rg.HT_HT_WRAP, Rg.HT_UNALIGNED, Rg.HT_HOLDOVER, Rg.HT_SLEWING, Rg.HT_ALIGNED, Rg.HT_FORMED, Rg.HT_JOINED]⟩,
  ⟨true, false, 0x0110, 4, 2, fun n => [Rg.EPL_EPOCH_LABEL n]⟩,
  ⟨true, false, 0x0400, 4, 1, fun _ => [Rg.REF_WTR_S, Rg.REF_REVERTIVE, Rg.REF_PRIMARY, Rg.REF_REF_B_EN, Rg.REF_REF_A_EN]⟩,
  ⟨true, false, 0x0404, 4, 1, fun _ => [Rg.REF_JUMP_NS]⟩,
  ⟨true, false, 0x0408, 4, 1, fun _ => [Rg.REF_SLEW_LIMIT]⟩,
  ⟨true, false, 0x040C, 4, 1, fun _ => [Rg.REF_REJOIN_SLEW, Rg.REF_REJOIN_MAX_US]⟩,
  ⟨true, false, 0x0410, 4, 1, fun _ => [Rg.REFS_ROLE, Rg.REFS_HOLD_QUALITY, Rg.REFS_REJOIN_REFUSED, Rg.REFS_REF_FAULT_SEEN, Rg.REFS_REF_B_REFUSED, Rg.REFS_REF_A_REFUSED, Rg.REFS_REF_JUMP_REFUSED, Rg.REFS_ACCEPT_PENDING, Rg.REFS_WTR_RUNNING, Rg.REFS_LOCK, Rg.REFS_PARENT_1_QUAL, Rg.REFS_PARENT_0_QUAL, Rg.REFS_REF_B_QUAL, Rg.REFS_REF_A_QUAL, Rg.REFS_SELECTED, Rg.REFS_SEL_STATE]⟩,
  ⟨true, false, 0x0414, 4, 2, fun n => [Rg.REFO_OFFSET n]⟩,
  ⟨true, false, 0x041C, 4, 2, fun n => [Rg.REFK_KEEP n]⟩,
  ⟨true, false, 0x0428, 4, 1, fun _ => [Rg.HOLD_F0]⟩,
  ⟨true, false, 0x042C, 4, 1, fun _ => [Rg.HOLD_AGING]⟩,
  ⟨true, false, 0x0430, 4, 1, fun _ => [Rg.HOLD_C1]⟩,
  ⟨true, false, 0x0434, 4, 1, fun _ => [Rg.HOLD_C2]⟩,
  ⟨true, false, 0x0438, 4, 1, fun _ => [Rg.HOLD_TREF]⟩,
  ⟨true, false, 0x0440, 16, 10, fun n => [Rg.OUT_OUT_FALLBACK n, Rg.OUT_REALIGNING n, Rg.OUT_ALL_JOBS n, Rg.OUT_JOB_SEL n, Rg.OUT_BELL_FORM n, Rg.OUT_MUTE_UNALIGNED n, Rg.OUT_SOURCE n, Rg.OUT_MODE n, Rg.OUT_ENABLE n]⟩,
  ⟨true, false, 0x0444, 16, 10, fun n => [Rg.OUT_OFFSET n]⟩,
  ⟨true, false, 0x0448, 16, 10, fun n => [Rg.OUT_WIDTH n]⟩,
  ⟨true, false, 0x0500, 4, 1, fun _ => [Rg.PTP_PTP_LOCKED, Rg.PTP_WALL_STALE, Rg.PTP_DOMAIN, Rg.PTP_TRANSPORT, Rg.PTP_DELAY_MECH, Rg.PTP_PTP_EN]⟩,
  ⟨true, false, 0x1000, 32, 32, fun n => [Rg.TDC_Q_MODE n, Rg.TDC_REGRESS_EN n, Rg.TDC_SOURCE n, Rg.TDC_EDGE_SEL n, Rg.TDC_ENABLE n]⟩,
  ⟨true, false, 0x1004, 32, 32, fun n => [Rg.TDC_P_NOM_NS n]⟩,
  ⟨true, false, 0x1008, 32, 32, fun n => [Rg.TDC_GATE_MS n]⟩,
  ⟨true, false, 0x100C, 32, 32, fun n => [Rg.TDC_CAL_PERIOD_S n]⟩,
  ⟨true, false, 0x1010, 32, 32, fun n => [Rg.TDC_QUEUE_LEVEL n, Rg.TDC_CAL_STALE n, Rg.TDC_CAL_PENDING n, Rg.TDC_CAL_RUNNING n, Rg.TDC_TWIN_FAULT n, Rg.TDC_ACTIVE_TDC n, Rg.TDC_REANCHOR n, Rg.TDC_MISS n, Rg.TDC_OVF n]⟩,
  ⟨true, false, 0x1014, 32, 32, fun n => [Rg.TDC_OVF_CNT n]⟩,
  ⟨true, false, 0x1018, 32, 32, fun n => [Rg.TDC_MISS_CNT n]⟩,
  ⟨true, false, 0x101C, 32, 32, fun n => [Rg.TDC_RDIDX n]⟩,
  ⟨true, false, 0x1400, 64, 32, fun n => [Rg.TRES_GATE_SEQ n]⟩,
  ⟨true, false, 0x1404, 64, 32, fun n => [Rg.TRES_N_HI n, Rg.TRES_PARTIAL n, Rg.TRES_REANCHOR_IN_GATE n, Rg.TRES_SWAP_IN_GATE n, Rg.TRES_JOINED_BASE n, Rg.TRES_VALID n]⟩]

/-- Rows 1 of the register map, by offset. -/
def regRows1 : List RegRow := [
  ⟨true, false, 0x1408, 64, 32, fun n => [Rg.TRES_N n]⟩,
  ⟨true, false, 0x140C, 64, 32, fun n => [Rg.TRES_EXCLUDED n]⟩,
  ⟨true, false, 0x1410, 64, 32, fun n => [Rg.TRES_FIT_T_LO n]⟩,
  ⟨true, false, 0x1414, 64, 32, fun n => [Rg.TRES_FIT_T_HI n]⟩,
  ⟨true, false, 0x1418, 64, 32, fun n => [Rg.TRES_FIT_T_FRAC n]⟩,
  ⟨true, false, 0x141C, 64, 32, fun n => [Rg.TRES_PERIOD_NS n]⟩,
  ⟨true, false, 0x1420, 64, 32, fun n => [Rg.TRES_PERIOD_FRAC n]⟩,
  ⟨true, false, 0x1424, 64, 32, fun n => [Rg.TRES_RESID_RMS n]⟩,
  ⟨true, false, 0x1C00, 4, 1, fun _ => [Rg.MNS_ZC_EN, Rg.MNS_FEED_SEL, Rg.MNS_ROCOF_GATES, Rg.MNS_NOM, Rg.MNS_GATE_10MS]⟩,
  ⟨true, false, 0x1C04, 4, 1, fun _ => [Rg.MNS_ANGLE_REF, Rg.MNS_ZC_GLITCH, Rg.MNS_FREQ_ALM, Rg.MNS_SAG, Rg.MNS_ROCOF_VALID, Rg.MNS_MAINS_VALID, Rg.MNS_FEED_VALID, Rg.MNS_PHASE_VALID]⟩,
  ⟨true, false, 0x1C08, 4, 1, fun _ => [Rg.MNS_GATE_SEQ]⟩,
  ⟨true, false, 0x1C0C, 4, 1, fun _ => [Rg.MNS_FREQ]⟩,
  ⟨true, false, 0x1C10, 4, 1, fun _ => [Rg.MNS_ROCOF]⟩,
  ⟨true, false, 0x1C14, 4, 1, fun _ => [Rg.MNS_T0_LO]⟩,
  ⟨true, false, 0x1C18, 4, 1, fun _ => [Rg.MNS_T0_HI]⟩,
  ⟨true, false, 0x1C20, 4, 6, fun n => [Rg.MNS_FREQ_P n]⟩,
  ⟨true, false, 0x1C40, 4, 6, fun n => [Rg.MNS_ANGLE_P n]⟩,
  ⟨true, true, 0x2000, 32, 80, fun n => [Rg.LINK_PAY_CW n, Rg.LINK_PRECODE_ALLOW n, Rg.LINK_MEDIUM n, Rg.LINK_AUTO_SPARE n, Rg.LINK_ENABLE n]⟩,
  ⟨true, true, 0x2004, 32, 80, fun n => [Rg.LINK_CHANNEL_RANGE n, Rg.LINK_CAL_RUNNING n, Rg.LINK_LEVEL_REFUSED n, Rg.LINK_HOMING_MISMATCH n, Rg.LINK_CAL_REQUIRED n, Rg.LINK_CAL_VALID n, Rg.LINK_DEGRADED n, Rg.LINK_SWAP_PENDING n, Rg.LINK_ON_SPARE n, Rg.LINK_SPARE_MAP n, Rg.LINK_SUSPECT_CAUSE n, Rg.LINK_FAR_ROLE n, Rg.LINK_LSTATE n]⟩,
  ⟨true, true, 0x2008, 32, 80, fun n => [Rg.LINK_MED_ASYM n]⟩,
  ⟨true, true, 0x200C, 32, 80, fun n => [Rg.LINK_WAVE n]⟩,
  ⟨true, true, 0x2010, 32, 80, fun n => [Rg.LINK_DELAY n]⟩,
  ⟨true, true, 0x2014, 32, 80, fun n => [Rg.LINK_LINK_OFFSET n]⟩,
  ⟨true, true, 0x2018, 32, 80, fun n => [Rg.LINK_HDR_CRC_ERR n, Rg.LINK_CW_UNCORR n, Rg.LINK_BAD_WORD n]⟩,
  ⟨true, true, 0x201C, 32, 80, fun n => [Rg.LINK_FAR_ROLL n, Rg.LINK_FAR_POSITION n, Rg.LINK_ROLL_VALID n]⟩,
  ⟨false, true, 0x2C00, 8, 16, fun n => [Rg.OPE_PERIOD n, Rg.OPE_VID n]⟩,
  ⟨false, true, 0x2C04, 8, 16, fun n => [Rg.OPE_TEMP_MAX n, Rg.OPE_DROOP_MAX n, Rg.OPE_POWER_PCT n, Rg.OPE_GAP_NS n]⟩,
  ⟨false, true, 0x2C80, 4, 1, fun _ => [Rg.OPS_OPP_SPLIT, Rg.OPS_OPP_UNREADY, Rg.OPS_PENDING_TT, Rg.OPS_PENDING, Rg.OPS_NEXT, Rg.OPS_CURRENT]⟩,
  ⟨false, true, 0x2C90, 16, 8, fun n => [Rg.STRB_SOURCE n, Rg.STRB_JOB n]⟩,
  ⟨false, true, 0x2C94, 16, 8, fun n => [Rg.STRB_START_HB_LO n]⟩,
  ⟨false, true, 0x2C98, 16, 8, fun n => [Rg.STRB_START_HB_HI n]⟩,
  ⟨false, true, 0x2C9C, 16, 8, fun n => [Rg.STRB_PERIOD_HB n]⟩,
  ⟨false, true, 0x3000, 16, 256, fun n => [Rg.STN_STROBE_EN n, Rg.STN_DEBT_BOUND n]⟩,
  ⟨false, true, 0x3004, 16, 256, fun n => [Rg.STN_RT_UNREL n, Rg.STN_LOSS_CAUSE n, Rg.STN_STROBE_OVR n, Rg.STN_HB_MISS n, Rg.STN_HB_ERR n, Rg.STN_HB_CRC_ERR n]⟩,
  ⟨false, true, 0x3008, 16, 256, fun n => [Rg.STN_DEBT_MAX n, Rg.STN_DEBT_OVER n]⟩,
  ⟨false, true, 0x300C, 16, 256, fun n => [Rg.STN_LAST_LOSS_NS n, Rg.STN_LOSS_COUNT n]⟩,
  ⟨false, true, 0x4000, 16, 128, fun n => [Rg.Q_CTX n, Rg.Q_BOUND n, Rg.Q_STATION n, Rg.Q_BIND_GEN n]⟩,
  ⟨false, true, 0x4004, 16, 128, fun n => [Rg.Q_LEVEL n, Rg.Q_WAITING n, Rg.Q_HEAD_OP n, Rg.Q_UNFENCED n, Rg.Q_DUP_SEEN n, Rg.Q_OVERRUN_SEEN n, Rg.Q_STALE_SEEN n, Rg.Q_MISUSE n]⟩,
  ⟨false, true, 0x4008, 16, 128, fun n => [Rg.Q_HEAD_CMD_LO n]⟩,
  ⟨false, true, 0x400C, 16, 128, fun n => [Rg.Q_HEAD_CMD_HI n]⟩]

/-- Rows 2 of the register map, by offset. -/
def regRows2 : List RegRow := [
  ⟨false, true, 0x4800, 4, 1, fun _ => [Rg.HST_ARR_HANDLE, Rg.HST_ARR_CTX, Rg.HST_ARR_EP_AUTO]⟩,
  ⟨false, true, 0x4804, 4, 1, fun _ => [Rg.HST_ARR_EPOCH]⟩,
  ⟨false, true, 0x4808, 4, 1, fun _ => [Rg.HST_RES_STATUS, Rg.HST_RES_BUSY, Rg.HST_RES_EPOCH_T]⟩,
  ⟨false, true, 0x4810, 4, 1, fun _ => [Rg.HST_ARM_HANDLE, Rg.HST_ARM_CTX, Rg.HST_ARM_EP_AUTO, Rg.HST_ARM_ENTRY]⟩,
  ⟨false, true, 0x4814, 4, 1, fun _ => [Rg.HST_ARM_EPOCH]⟩,
  ⟨false, true, 0x4818, 4, 1, fun _ => [Rg.HST_W_DONE, Rg.HST_W_ARMED]⟩,
  ⟨false, true, 0x4840, 4, 16, fun n => [Rg.HST_WS_STATUS n, Rg.HST_WS_EPOCH n, Rg.HST_WS_VALID n]⟩,
  ⟨false, true, 0x4C00, 16, 64, fun n => [Rg.HF_FLAG_SET_LO n]⟩,
  ⟨false, true, 0x4C04, 16, 64, fun n => [Rg.HF_FLAG_SET_HI n]⟩,
  ⟨false, true, 0x4C08, 16, 64, fun n => [Rg.HF_FLAG_LO n]⟩,
  ⟨false, true, 0x4C0C, 16, 64, fun n => [Rg.HF_FLAG_HI n]⟩,
  ⟨false, true, 0x5000, 8, 64, fun n => [Rg.HF_SIG_LO n]⟩,
  ⟨false, true, 0x5004, 8, 64, fun n => [Rg.HF_SIG_HI n]⟩,
  ⟨false, true, 0x5200, 8, 64, fun n => [Rg.CTX_JOB n, Rg.CTX_JOB_VALID n, Rg.CTX_HANDLE_QUOTA n]⟩,
  ⟨false, true, 0x5204, 8, 64, fun n => [Rg.CTX_HANDLES_USED n, Rg.CTX_OVER_QUOTA n]⟩,
  ⟨false, true, 0x5400, 4, 1, fun _ => [Rg.MON_T_QUIET_MS, Rg.MON_MON_EN]⟩,
  ⟨false, true, 0x5408, 4, 1, fun _ => [Rg.MON_DEADLOCK_LO]⟩,
  ⟨false, true, 0x540C, 4, 1, fun _ => [Rg.MON_DEADLOCK_HI]⟩,
  ⟨false, true, 0x5410, 4, 1, fun _ => [Rg.MON_DL_SEEN_LO]⟩,
  ⟨false, true, 0x5414, 4, 1, fun _ => [Rg.MON_DL_SEEN_HI]⟩,
  ⟨false, true, 0x5420, 4, 1, fun _ => [Rg.MON_STALE_CNT, Rg.MON_UNFENCED_CNT]⟩,
  ⟨false, true, 0x5424, 4, 1, fun _ => [Rg.MON_BAD_CMD_CNT, Rg.MON_SKIP_CNT]⟩,
  ⟨false, true, 0x5430, 4, 1, fun _ => [Rg.MON_HOST_SIG, Rg.MON_HOST_WAIT, Rg.MON_MONITOR, Rg.MON_CLEARED]⟩,
  ⟨false, true, 0x5434, 4, 1, fun _ => [Rg.MON_INT_EN]⟩,
  ⟨false, true, 0x5800, 4, 1, fun _ => [Rg.BCR_HANDLE, Rg.BCR_CTX, Rg.BCR_SCOPE, Rg.BCR_HEADCOUNT, Rg.BCR_HOST]⟩,
  ⟨false, true, 0x5804, 4, 1, fun _ => [Rg.BCR_STATION]⟩,
  ⟨false, true, 0x5810, 4, 4, fun n => [Rg.BCR_QMASK n]⟩,
  ⟨false, true, 0x5820, 4, 1, fun _ => [Rg.BCR_OP]⟩,
  ⟨false, true, 0x5824, 4, 1, fun _ => [Rg.BCR_STATUS, Rg.BCR_BUSY, Rg.BCR_PHYS, Rg.BCR_GEN]⟩,
  ⟨true, false, 0x6000, 4, 1, fun _ => [Rg.BELL_LEAD_BEATS, Rg.BELL_LEAD_HOLD]⟩,
  ⟨true, false, 0x6004, 4, 1, fun _ => [Rg.BELL_DN_MAX]⟩,
  ⟨true, false, 0x6008, 4, 1, fun _ => [Rg.BELL_LV_MISS]⟩,
  ⟨true, false, 0x6010, 4, 1, fun _ => [Rg.HINT_QUORUM_WAIT, Rg.HINT_JOB_DEADLOCK, Rg.HINT_SUSPECT_CHG, Rg.HINT_UNRESOLVED]⟩,
  ⟨true, false, 0x6014, 4, 1, fun _ => [Rg.HINTEN_QUORUM_WAIT, Rg.HINTEN_JOB_DEADLOCK, Rg.HINTEN_SUSPECT_CHG, Rg.HINTEN_UNRESOLVED]⟩,
  ⟨true, false, 0x6020, 4, 1, fun _ => [Rg.HCNT_DUP_OVR, Rg.HCNT_STALE_SENT]⟩,
  ⟨true, false, 0x6100, 16, 64, fun n => [Rg.JH_MEMBERS n]⟩,
  ⟨true, false, 0x6104, 16, 64, fun n => [Rg.JH_SUSPECT n, Rg.JH_DEADLOCK n, Rg.JH_UNRESOLVED n, Rg.JH_CREATED n]⟩,
  ⟨true, false, 0x6108, 16, 64, fun n => [Rg.JH_CLOSE_SEQ n]⟩,
  ⟨true, false, 0x610C, 16, 64, fun n => [Rg.JH_HSLOTS_USED n]⟩,
  ⟨false, true, 0x6400, 16, 64, fun n => [Rg.SJH_BELL_LO n]⟩]

/-- Rows 3 of the register map, by offset. -/
def regRows3 : List RegRow := [
  ⟨false, true, 0x6404, 16, 64, fun n => [Rg.SJH_BELL_HI n, Rg.SJH_BELL_VALID n, Rg.SJH_MEMBER n, Rg.SJH_MGEN n]⟩,
  ⟨false, true, 0x6408, 16, 64, fun n => [Rg.SJH_CLOSE_SEQ n]⟩,
  ⟨false, true, 0x640C, 16, 64, fun n => [Rg.SJH_LATE_BELL n, Rg.SJH_BELL_GAP n, Rg.SJH_CLOSE_GAP n, Rg.SJH_CLOSE_BEHIND n]⟩,
  ⟨false, true, 0x6800, 4, 1, fun _ => [Rg.PD_BASE_LO, Rg.PD_PD_EN]⟩,
  ⟨false, true, 0x6804, 4, 1, fun _ => [Rg.PD_BASE_HI]⟩,
  ⟨false, true, 0x6808, 4, 1, fun _ => [Rg.SPAY_IN_FLIGHT]⟩,
  ⟨false, true, 0x680C, 4, 1, fun _ => [Rg.SPAY_SRC_FAULT_CNT, Rg.SPAY_LOST_CNT]⟩,
  ⟨false, true, 0x6810, 4, 1, fun _ => [Rg.SPAY_REPEAT_CNT, Rg.SPAY_BAD_DESC_CNT]⟩,
  ⟨false, true, 0x6814, 4, 1, fun _ => [Rg.SPAY_DESC_MISMATCH]⟩,
  ⟨false, true, 0x6818, 4, 1, fun _ => [Rg.SPAY_INT]⟩,
  ⟨false, true, 0x681C, 4, 1, fun _ => [Rg.SPAY_INT_EN]⟩,
  ⟨false, true, 0x6900, 4, 1, fun _ => [Rg.CHK_WIDTH, Rg.CHK_SIGNED, Rg.CHK_AUTO_CLEAR, Rg.CHK_EXP_SRC, Rg.CHK_EXP_JOB]⟩,
  ⟨false, true, 0x6904, 4, 1, fun _ => [Rg.CHK_EXP_BUCKET]⟩,
  ⟨false, true, 0x6908, 4, 1, fun _ => [Rg.CHK_VALUE_LO]⟩,
  ⟨false, true, 0x690C, 4, 1, fun _ => [Rg.CHK_VALUE_HI]⟩,
  ⟨false, true, 0x6910, 4, 1, fun _ => [Rg.CHK_EXPECT_LO]⟩,
  ⟨false, true, 0x6914, 4, 1, fun _ => [Rg.CHK_EXPECT_HI]⟩,
  ⟨false, true, 0x6918, 4, 1, fun _ => [Rg.CHK_FINAL_LO]⟩,
  ⟨false, true, 0x691C, 4, 1, fun _ => [Rg.CHK_FINAL_HI]⟩,
  ⟨false, true, 0x6920, 4, 1, fun _ => [Rg.CHK_EXP_VALID, Rg.CHK_FINAL_VALID, Rg.CHK_MISMATCH, Rg.CHK_MATCH, Rg.CHK_KEEP_ERR, Rg.CHK_MISMATCH_CNT, Rg.CHK_COMPARES]⟩,
  ⟨true, false, 0x6A00, 16, 68, fun n => [Rg.PIPE_PSTATE n, Rg.PIPE_RETIRE_MAP n]⟩,
  ⟨true, false, 0x6A04, 16, 68, fun n => [Rg.PIPE_MISMATCH_CNT n, Rg.PIPE_RETRY_FAIL n]⟩,
  ⟨true, false, 0x6A08, 16, 68, fun n => [Rg.PIPE_COMBINES n]⟩,
  ⟨true, false, 0x6E80, 4, 1, fun _ => [Rg.PAY_REPEAT_SENT, Rg.PAY_PARTIAL_LOST]⟩,
  ⟨true, false, 0x6E84, 4, 1, fun _ => [Rg.PAY_PAY_MISMATCH, Rg.PAY_DESC_MISMATCH]⟩,
  ⟨true, false, 0x6E88, 4, 1, fun _ => [Rg.PAY_BUF_USED, Rg.PAY_BUF_WAIT]⟩,
  ⟨true, false, 0x7000, 4, 1, fun _ => [Rg.MEM_CH_FAILED, Rg.MEM_CH_PRESENT]⟩,
  ⟨false, true, 0x7000, 4, 1, fun _ => [Rg.SATT_LEVEL, Rg.SATT_DROP]⟩,
  ⟨true, false, 0x7004, 4, 1, fun _ => [Rg.ECC_STACK_OK, Rg.ECC_UE_CNT, Rg.ECC_CE_CNT]⟩,
  ⟨true, false, 0x7008, 4, 1, fun _ => [Rg.SPR_ROWS_B, Rg.SPR_ROWS_A]⟩,
  ⟨true, false, 0x7010, 4, 1, fun _ => [Rg.SB_PAGES_FREE, Rg.SB_MIRRORED, Rg.SB_MIRROR_SYNC, Rg.SB_MIRROR_LOST, Rg.SB_ENTRY_BAD]⟩,
  ⟨true, false, 0x7014, 4, 1, fun _ => [Rg.SB_SB_UNMAPPED, Rg.SB_ENTRY_REPAIRED]⟩,
  ⟨true, false, 0x7020, 4, 1, fun _ => [Rg.ATT_ATT_EN, Rg.ATT_SPILL_EN]⟩,
  ⟨true, false, 0x7024, 4, 1, fun _ => [Rg.ATT_SPILL_PAUSED, Rg.ATT_ARCH_LOST_SEEN, Rg.ATT_SPILL_BUF_PCT]⟩,
  ⟨true, false, 0x7028, 4, 1, fun _ => [Rg.ATT_HEAD_SEQ]⟩,
  ⟨true, false, 0x702C, 4, 1, fun _ => [Rg.ATT_OLDEST_SEQ]⟩,
  ⟨true, false, 0x7030, 4, 1, fun _ => [Rg.ATT_ARCH_LOST]⟩,
  ⟨true, false, 0x7034, 4, 1, fun _ => [Rg.ATT_BLOCK_BAD]⟩,
  ⟨true, false, 0x7038, 4, 1, fun _ => [Rg.ATT_WIN_SEQ]⟩,
  ⟨true, false, 0x703C, 4, 1, fun _ => [Rg.ATT_HALF, Rg.ATT_WIN_BUSY, Rg.ATT_WIN_VALID, Rg.ATT_WIN_BAD, Rg.ATT_WIN_GONE]⟩]

/-- Rows 4 of the register map, by offset. -/
def regRows4 : List RegRow := [
  ⟨true, false, 0x7100, 8, 32, fun n => [Rg.RULE_VALID n, Rg.RULE_ACTION n, Rg.RULE_SCOPE n, Rg.RULE_SAMPLE_LOG2 n]⟩,
  ⟨true, false, 0x7104, 8, 32, fun n => [Rg.RULE_KIND_LO n, Rg.RULE_KIND_HI n, Rg.RULE_JOB n, Rg.RULE_ANY_JOB n]⟩,
  ⟨true, false, 0x7200, 16, 64, fun n => [Rg.JM_SB_QUOTA n, Rg.JM_SB_USED n, Rg.JM_SB_OVER_QUOTA n]⟩,
  ⟨true, false, 0x7204, 16, 64, fun n => [Rg.JM_ATT_RATE n]⟩,
  ⟨true, false, 0x7208, 16, 64, fun n => [Rg.JM_ATT_DROP n]⟩,
  ⟨true, false, 0x720C, 16, 64, fun n => [Rg.JM_PAY_SHARE n]⟩,
  ⟨true, true, 0x7600, 4, 1, fun _ => [Rg.TT_LAST_TXN]⟩,
  ⟨true, true, 0x7604, 4, 1, fun _ => [Rg.TT_LAST_REASON, Rg.TT_PREPARED, Rg.TT_PENDING, Rg.TT_NO_NOW, Rg.TT_EMERG_HOLD, Rg.TT_DRILL_HOLD]⟩,
  ⟨true, true, 0x7608, 4, 1, fun _ => [Rg.TT_COMMITS, Rg.TT_ABORTS]⟩,
  ⟨true, true, 0x760C, 4, 1, fun _ => [Rg.TT_TT_LATE, Rg.TT_FW_DEFERRED]⟩,
  ⟨true, false, 0x7610, 4, 1, fun _ => [Rg.TT_VOTE_DEF]⟩,
  ⟨true, true, 0x8800, 32, 8, fun n => [Rg.MB_CODE n, Rg.MB_TAG n, Rg.MB_ARG_LEN n, Rg.MB_IRQ_EN n, Rg.MB_DMA_RESULT n, Rg.MB_GO n]⟩,
  ⟨true, true, 0x8804, 32, 8, fun n => [Rg.MB_STATUS n, Rg.MB_DONE n, Rg.MB_OWNED n, Rg.MB_STAG n, Rg.MB_RESULT_LEN n]⟩,
  ⟨true, true, 0x8808, 32, 8, fun n => [Rg.MB_RESULT_ADDR_LO n]⟩,
  ⟨true, true, 0x880C, 32, 8, fun n => [Rg.MB_RESULT_ADDR_HI n]⟩,
  ⟨true, true, 0x8810, 32, 8, fun n => [Rg.MB_DETAIL n]⟩,
  ⟨true, true, 0x8814, 32, 8, fun n => [Rg.MB_RESULT_TOTAL n]⟩,
  ⟨false, true, 0x9000, 4, 1, fun _ => [Rg.SPWR_DIE_W]⟩,
  ⟨true, false, 0x9004, 4, 1, fun _ => [Rg.PWR_ENVELOPE_KW]⟩,
  ⟨false, true, 0x9004, 4, 1, fun _ => [Rg.SPWR_FLOOR_OUT, Rg.SPWR_PM_RECESS, Rg.SPWR_PM_EMERG, Rg.SPWR_TEL_MISS]⟩,
  ⟨true, false, 0x9008, 4, 1, fun _ => [Rg.PWR_DIE_W]⟩,
  ⟨false, true, 0x9008, 4, 1, fun _ => [Rg.SPWR_LAST_MW]⟩,
  ⟨true, false, 0x900C, 4, 1, fun _ => [Rg.PWR_RAMP_UP, Rg.PWR_RAMP_DN]⟩,
  ⟨true, false, 0x9010, 4, 1, fun _ => [Rg.PWR_UF_DB, Rg.PWR_UF_GAIN, Rg.PWR_UF_MAX, Rg.PWR_UF_EN]⟩,
  ⟨true, false, 0x9014, 4, 1, fun _ => [Rg.PWR_CURTAIL_KW]⟩,
  ⟨true, false, 0x9018, 4, 1, fun _ => [Rg.PWRS_TEL_PARTIAL, Rg.PWRS_OVER_ENVELOPE, Rg.PWRS_CURTAILING, Rg.PWRS_UF_ACTIVE, Rg.PWRS_FROZEN, Rg.PWRS_EMERGENCY, Rg.PWRS_CAP, Rg.PWRS_UF_NOW]⟩,
  ⟨true, false, 0x9020, 4, 1, fun _ => [Rg.PWRH_POWER_LO]⟩,
  ⟨true, false, 0x9024, 4, 1, fun _ => [Rg.PWRH_POWER_HI]⟩,
  ⟨true, false, 0x9028, 4, 1, fun _ => [Rg.PWRH_DIES]⟩,
  ⟨true, false, 0x902C, 4, 1, fun _ => [Rg.PWRH_REPORT_BEAT]⟩,
  ⟨true, false, 0x9100, 16, 64, fun n => [Rg.PJ_LEVEL_OUT n, Rg.PJ_RECESS n, Rg.PJ_PHASE n, Rg.PJ_HOLDING n, Rg.PJ_STEP_FLOOR n, Rg.PJ_RECESS_LOW n]⟩,
  ⟨false, true, 0x9100, 4, 64, fun n => [Rg.SPWR_LEVEL n, Rg.SPWR_RECESS n, Rg.SPWR_VALID n, Rg.SPWR_ENTRY n]⟩,
  ⟨true, false, 0x9104, 16, 64, fun n => [Rg.PJ_STAGGER_LOG2 n, Rg.PJ_AUTO_RECESS n, Rg.PJ_STAGGER_BEATS n, Rg.PJ_RECESS_DETECT_MS n]⟩,
  ⟨true, false, 0x9108, 16, 64, fun n => [Rg.PJ_MIN_INTERVAL_BEATS n]⟩,
  ⟨true, false, 0x910C, 16, 64, fun n => [Rg.PJ_HOLD_US n]⟩,
  ⟨true, true, 0xA000, 4, 1, fun _ => [Rg.LOAD_LOAD_ADDR_LO]⟩,
  ⟨true, true, 0xA004, 4, 1, fun _ => [Rg.LOAD_LOAD_ADDR_HI]⟩,
  ⟨true, true, 0xA008, 4, 1, fun _ => [Rg.LOAD_LOAD_LEN]⟩,
  ⟨true, true, 0xA00C, 4, 1, fun _ => [Rg.LOAD_GO, Rg.LOAD_KIND]⟩,
  ⟨true, true, 0xA010, 4, 1, fun _ => [Rg.LOAD_STATE, Rg.LOAD_CONFIG_LOADED, Rg.LOAD_FW_LOADED, Rg.LOAD_ERROR]⟩]

/-- Rows 5 of the register map, by offset. -/
def regRows5 : List RegRow := [
  ⟨true, true, 0xA020, 4, 1, fun _ => [Rg.LOAD_FW_VERSION]⟩,
  ⟨true, true, 0xA024, 4, 1, fun _ => [Rg.LOAD_CONFIG_VERSION]⟩,
  ⟨true, true, 0xA030, 4, 1, fun _ => [Rg.SLATE_DENIED_CNT, Rg.SLATE_HELD_COUNT, Rg.SLATE_WR_HELD, Rg.SLATE_TOKEN_DENIED, Rg.SLATE_STALE_SEEN, Rg.SLATE_STALE_VIEW, Rg.SLATE_BUSY]⟩,
  ⟨true, true, 0xA040, 8, 7, fun n => [Rg.PREF_STATE n, Rg.PREF_ROLE n, Rg.PREF_CRASHES n, Rg.PREF_LAST_CAUSE n, Rg.PREF_RESTARTS n, Rg.PREF_COMP_FAULTS n]⟩,
  ⟨true, true, 0xA044, 8, 7, fun n => [Rg.PREF_LAST_HT32 n]⟩,
  ⟨true, true, 0xA080, 4, 1, fun _ => [Rg.FWS_STAGED, Rg.FWS_ACCEPT_OK, Rg.FWS_ACT_PENDING, Rg.FWS_HOLD_OFF, Rg.FWS_SCHEMA]⟩,
  ⟨true, true, 0xA084, 4, 1, fun _ => [Rg.FWS_STAGED_VERSION]⟩,
  ⟨true, true, 0xA088, 4, 1, fun _ => [Rg.FWS_STAGED_DIGEST_LO]⟩,
  ⟨true, true, 0xA08C, 4, 1, fun _ => [Rg.FWS_STAGED_DIGEST_HI]⟩,
  ⟨true, true, 0xA100, 4, 1, fun _ => [Rg.TOK_TOKEN]⟩,
  ⟨true, true, 0xA104, 4, 1, fun _ => [Rg.TOK_CLASS, Rg.TOK_JOB]⟩,
  ⟨true, true, 0xB000, 4, 1, fun _ => [Rg.START_STAGE, Rg.START_STAGE1_MET, Rg.START_FW_UP, Rg.START_FULL, Rg.START_START_DEFAULTS, Rg.START_LAST_RESET, Rg.START_STAGE_MS]⟩,
  ⟨true, true, 0xB010, 4, 1, fun _ => [Rg.SUP_VIN_MV, Rg.SUP_WARN, Rg.SUP_GUARD, Rg.SUP_GUARD_SEEN, Rg.SUP_RAIL_WARN]⟩,
  ⟨true, true, 0xB014, 4, 1, fun _ => [Rg.SUP_GUARD_CNT]⟩,
  ⟨true, true, 0xB018, 4, 1, fun _ => [Rg.SUP_LAST_START]⟩,
  ⟨true, true, 0xB01C, 4, 1, fun _ => [Rg.SUP_LAST_LEN_US]⟩,
  ⟨true, false, 0xB040, 8, 5, fun n => [Rg.PL_PL_MAX n, Rg.PL_DWELL_US n]⟩,
  ⟨false, true, 0xB040, 8, 5, fun n => [Rg.PL_DWELL_US n, Rg.SPL_PL_MAX n]⟩,
  ⟨true, true, 0xB044, 8, 5, fun n => [Rg.PL_UNITS_DOWN n, Rg.PL_HELD n, Rg.PL_WAKES n]⟩,
  ⟨true, true, 0xC000, 4, 1, fun _ => [Rg.FSUM_DRILL_FAIL, Rg.FSUM_DEMOTED, Rg.FSUM_PROMOTED, Rg.FSUM_CHANNEL_FAIL, Rg.FSUM_STACK_FAIL, Rg.FSUM_COLD_START, Rg.FSUM_PREFECT_NO_SPARE, Rg.FSUM_PIPES_SHORT, Rg.FSUM_SPARE_NONE, Rg.FSUM_LANES_DEGRADED]⟩,
  ⟨true, true, 0xC004, 4, 1, fun _ => [Rg.FLT_CLASS, Rg.FLT_ACTION]⟩,
  ⟨true, true, 0xC008, 4, 1, fun _ => [Rg.FLT_LAST_HT32]⟩,
  ⟨true, true, 0xC00C, 4, 1, fun _ => [Rg.FLT_FAULTS]⟩,
  ⟨true, false, 0xC010, 4, 1, fun _ => [Rg.PROM_PROMOTE_MS, Rg.PROM_AUTO_PROMOTE, Rg.PROM_PROMO_SEQ]⟩,
  ⟨true, false, 0xC014, 4, 1, fun _ => [Rg.PROM_MIRROR_SILENT, Rg.PROM_MID_MAJORITY, Rg.PROM_MIDS_LINKED, Rg.PROM_MIDS_LOST]⟩,
  ⟨true, false, 0xC020, 4, 1, fun _ => [Rg.DRL_DRILL_EN, Rg.DRL_DRILL_PERIOD_MIN, Rg.DRL_ROOT_DRILL_H]⟩,
  ⟨true, false, 0xC024, 4, 1, fun _ => [Rg.DRL_RUNNING_TYPE, Rg.DRL_RUNNING, Rg.DRL_LAST_RESULT, Rg.DRL_FAIL_CNT, Rg.DRL_DONE_CNT]⟩,
  ⟨true, false, 0xC028, 4, 1, fun _ => [Rg.DRL_SKIP_CNT]⟩,
  ⟨true, true, 0xC100, 8, 64, fun n => [Rg.JD_CONSENT n]⟩,
  ⟨true, false, 0xC400, 32, 64, fun n => [Rg.RC_COMPUTE_MS n]⟩,
  ⟨true, false, 0xC404, 32, 64, fun n => [Rg.RC_WAIT_MS n]⟩,
  ⟨true, false, 0xC408, 32, 64, fun n => [Rg.RC_RECESS_MS n]⟩,
  ⟨true, false, 0xC40C, 32, 64, fun n => [Rg.RC_RECOVERY_MS n]⟩,
  ⟨true, false, 0xC410, 32, 64, fun n => [Rg.RC_DRILL_MS n]⟩,
  ⟨true, false, 0xC414, 32, 64, fun n => [Rg.RC_BELLS n]⟩,
  ⟨true, false, 0xC418, 32, 64, fun n => [Rg.RC_SINCE_BEAT n]⟩]

/-- The register map of both parts (the slate map of chapter 16). -/
def regRows : List RegRow := regRows0 ++ regRows1 ++ regRows2 ++ regRows3 ++ regRows4 ++ regRows5

end Sys2Proof.Machine
end

