-- ==== Sys2Proof/Machine/Store.lean ====
section
/-! DEFINITION. Sparse maps, memories in canonical form (Host.Cell lists) and register files. -/

namespace Sys2Proof.Machine

/-- A table by number, listed in rising order; a number that is not listed has the table's default entry. -/
abbrev SMap (α : Type) := List (Nat × α)

/-- The entry at `k`, or `d` where none is listed. -/
def SMap.get {α : Type} (d : α) (k : Nat) : SMap α → α
  | [] => d
  | (j, v) :: t => if k = j then v else SMap.get d k t

/-- The entry at `k`, if one is listed. -/
def SMap.find {α : Type} (k : Nat) : SMap α → Option α
  | [] => none
  | (j, v) :: t => if k = j then some v else SMap.find k t

/-- The table with `v` at `k`. -/
def SMap.set {α : Type} (k : Nat) (v : α) : SMap α → SMap α
  | [] => [(k, v)]
  | (j, w) :: t => if k < j then (k, v) :: (j, w) :: t else if k = j then (k, v) :: t else (j, w) :: SMap.set k v t

/-- The table without an entry at `k`. -/
def SMap.erase {α : Type} (k : Nat) (m : SMap α) : SMap α := m.filter fun e => e.1 != k

/-! Memories. An unlisted address reads as zero (DESIGN CHOICE, log entry 2). -/

/-- Bytes by address, the addresses strictly rising, no entry zero. -/
abbrev Memory := List Host.Cell

/-- What an address that is not listed reads as. -/
def Memory.unlisted : Byte := 0

/-- The byte at an address. -/
def Memory.read (a : Nat) : Memory → Byte
  | [] => Memory.unlisted
  | c :: t => if a = c.1 then c.2 else Memory.read a t

/-- The memory with `b` at `a`, in canonical form. -/
def Memory.write (a : Nat) (b : Byte) : Memory → Memory
  | [] => if b = Memory.unlisted then [] else [(a, b)]
  | c :: t =>
    if a < c.1 then (if b = Memory.unlisted then c :: t else (a, b) :: c :: t)
    else if a = c.1 then (if b = Memory.unlisted then t else (a, b) :: t)
    else c :: Memory.write a b t

/-- The `n` bytes from an address. -/
def Memory.readN (a : Nat) : Nat → Memory → List Byte
  | 0, _ => []
  | n + 1, m => Memory.read a m :: Memory.readN (a + 1) n m

/-- The memory with bytes stored from an address up. -/
def Memory.writeN (a : Nat) : List Byte → Memory → Memory
  | [], m => m
  | b :: t, m => Memory.writeN (a + 1) t (Memory.write a b m)

/-- The little-endian number of `n` bytes at an address. -/
def Memory.readLe (a n : Nat) (m : Memory) : Nat := ofLe (m.readN a n)

/-- The canonical form: addresses strictly rising, no entry equal to what an unlisted address reads as. -/
def Memory.wf : Memory → Bool
  | [] => true
  | [c] => c.2 != Memory.unlisted
  | c :: d :: t => decide (c.1 < d.1) && (c.2 != Memory.unlisted) && Memory.wf (d :: t)

/-! Register files: the value of every field, by its key; a field never set has its reset value. -/

/-- The value of a register field. -/
def fieldGet (f : Field) (r : SMap Nat) : Nat := SMap.get f.reset f.key r

/-- The register file with a field set; the value is cut to the field's width. -/
def fieldSet (f : Field) (v : Nat) (r : SMap Nat) : SMap Nat := SMap.set f.key (v % 2 ^ f.width) r

end Sys2Proof.Machine
end

