-- ==== Sys2Proof/Msg.lean ====
section
/-! DEFINITION. The operands of the commands: the part addressed, mailbox submissions, measurements, control words, frames,
records. They are what the outside world hands to the block; each type cites the rule that lays it out. -/

namespace Sys2Proof.Machine

open Sys2Proof

/-- The part that takes a command: the distributor (FD_ registers) or the step core (SC_ registers). -/
inductive Part where
  | fd
  | sc
  deriving DecidableEq, Repr

/-- The three distributor variants (R1). -/
inductive Variant where
  | vxd2880
  | vxd2860
  | vxd2840
  deriving DecidableEq, Repr

/-- A mailbox submission (R366): the unit, the mailbox, the argument bytes the host writes to the data area, and the
fields of the MB_CTRL write with GO = 1; `req` is the requester of R364. -/
structure MbGo where
  part : Part
  box : Nat
  tag : Nat
  irq : Bool
  dma : Bool
  req : Nat
  args : List Byte
  deriving DecidableEq, Repr

/-- One of the two reference inputs (R56). -/
inductive RefIn where
  | a
  | b
  deriving DecidableEq, Repr

/-- What one 16 s gate of a reference measured (R58). Frequencies are deviations from nominal in 1e-15; the gap is the
longest gap of the 10 MHz input in ns; PPS windows counts the 1 s windows that held an edge; intervals are deviations from 1 s in
ps; phases are the edges' phases against the 10 MHz input in ps, relative to the gate's first edge. -/
structure GateMeas where
  maxGapNs : Nat
  ppsWindows : Nat
  sub : List Int
  intervals : List Int
  phases : List Int
  deriving DecidableEq, Repr

/-- The criterion of R58 that a qualified reference breaches (R59). -/
inductive RefBreach where
  | presence
  | stability
  | grossFrequency
  | ppsConsistency
  deriving DecidableEq, Repr

/-- What a PTP master announces of its grandmaster and of itself, in the order in which the default best master clock algorithm of IEEE 1588-2019 compares
(R77, log entry 68). -/
structure PtpMaster where
  priority1 : Nat
  clockClass : Nat
  accuracy : Nat
  variance : Nat
  priority2 : Nat
  identity : Nat
  steps : Nat
  port : Nat
  deriving DecidableEq, Repr

/-- A PTP message exchange as P1 takes it (R77, R78): the domain, the transport (as TRANSPORT codes it) and the delay mechanism (as DELAY_MECH) it came by, the master
that sent it, the TAI ns it names, currentUtcOffsetValid and currentUtcOffset. -/
structure PtpMsg where
  domain : Nat
  transport : Nat
  peerDelay : Bool
  master : PtpMaster
  tai : Nat
  utcValid : Bool
  utcOffset : Int
  deriving DecidableEq, Repr

/-- An attendance record with its group (R295, R296): the head's fields and the 120-bit data of its continuation
records. -/
structure Rec where
  kind : Nat
  obj : Nat := 0
  arg : Nat := 0
  epoch : Nat := 0
  port : Nat := 0
  die : Nat := 0
  job : Nat := 0
  hallwide : Bool := false
  drill : Bool := false
  below : Bool := false
  unjoined : Bool := false
  unaligned : Bool := false
  ht32 : Nat := 0
  conts : List Nat := []
  deriving DecidableEq, Repr

/-- A 128-bit bell word (R241). -/
structure BellWord where
  bellNo : Nat
  job : Nat
  kind : Nat := 0
  floor : Nat := 0
  ttAt : Bool := false
  forced : Bool := false
  unresolvedSeen : Bool := false
  closeHwm : Nat := 0
  stepEpoch : Nat := 0
  deriving DecidableEq, Repr

/-- The fields of a control word by its TYPE (R122). `undefined` is a word of a TYPE that R122 does not name. -/
inductive CtlBody where
  | arrive (hslot gen epoch src ht32 : Nat) (payload : Bool) (ptag : Nat)
  | withdraw (hslot gen epoch src ht32 : Nat)
  | liveness (src dieMask lvSeq ht32 : Nat)
  | vote (txn : Nat) (yes : Bool) (reason src ht32 : Nat)
  | monitor (ctx src ht32 : Nat) (deadlock : Bool)
  | bell (beat : Nat) (word : BellWord)
  | prepare (txn atKind at_ voteBeats digest : Nat)
  | commit (txn atKind at_ : Nat)
  | abort (txn reason origin : Nat)
  | member (txn roll action gen : Nat)
  | floor (level : Nat) (recess : Bool) (atBeat : Nat)
  | close (bucket closeSeq epoch contrib flags hash : Nat)
  | stale (roll hslot gen epoch cause : Nat)
  | done (hslot gen epoch contrib hash flags : Nat)
  | undefined (type : Nat)
  deriving DecidableEq, Repr

/-- A control word: the common fields JOB and HALLWIDE (R121) and the type's own. -/
structure CtlWord where
  job : Nat
  hallwide : Bool := false
  body : CtlBody
  deriving DecidableEq, Repr

/-- A control slot as received: its LSEQ, whether its CRC passes, the word (R121, R123). -/
structure CtlSlot where
  lseq : Nat
  crcOk : Bool
  word : CtlWord
  deriving DecidableEq, Repr

/-- The timing block (R117). -/
structure TimingBlk where
  txHt : Nat
  echoHt : Nat := 0
  turnaround : Nat := 0
  echoValid : Bool := false
  deriving DecidableEq, Repr

/-- The link-state block (R118). -/
structure LinkBlk where
  lstate : Nat := 0
  role : Nat := 0
  activeRoot : Bool := false
  formed : Bool := false
  joined : Bool := false
  unaligned : Bool := false
  holdover : Bool := false
  slewing : Bool := false
  epochKind : Nat := 0
  homing : Bool := false
  carrying : Bool := false
  position : Nat := 0
  roll : Nat := 0
  rollValid : Bool := false
  payCur : Nat := 0
  payNext : Nat := 0
  payAt : Nat := 0
  payAnn : Bool := false
  cw0Ack : Nat := 0
  swapAnn : Bool := false
  swapAt : Nat := 0
  onSpare : Bool := false
  calAnn : Bool := false
  calAt : Nat := 0
  levelRefused : Bool := false
  homingMismatch : Bool := false
  precode : Bool := false
  seatB : Bool := false
  deriving DecidableEq, Repr

/-- What the summary of a payload body says (R261): the fixed fields of R256 and the running totals. `word2` is K for
TOPK_THRESH, N_ELEMS for MEANABS. -/
structure Summary where
  contrib : Nat := 0
  hash : Nat := 0
  bucket : Nat := 0
  op : Nat := 0
  fmt : Nat := 0
  count : Nat := 0
  mean : Bool := false
  baseExp : Nat := 0
  pflags : Nat := 0
  word2 : Nat := 0
  residue : Nat := 0
  deriving DecidableEq, Repr

/-- A payload body (R261): a partial in carry form (R266) or a result in its format. `elems` holds one number an element
(fp64 bits, two's complement of 128 bits, a count, a residue, a scale or an encoding), `counts` the U64 counts of MEAN and
`present` the PRESENT map of a partial. COUNT 0 marks a summary-only partial (R256). -/
structure Body where
  sum : Summary := {}
  present : Nat := 0
  elems : List Nat := []
  counts : List Nat := []
  deriving DecidableEq, Repr

/-- A payload fragment (R260): the header's fields. The data words themselves are those of `body` from `offset` on; `words` is
the number of words of the whole body. -/
structure Fragment where
  fkind : Nat
  job : Nat
  tag : Nat
  offset : Nat := 0
  len : Nat := 0
  last : Bool := false
  gone : Bool := false
  body : Body := {}
  deriving DecidableEq, Repr

/-- A rule record of a SOURCE rule set (R303). -/
structure RuleRec where
  index : Nat
  valid : Bool
  action : Nat
  sampleLog2 : Nat
  kindLo : Nat
  kindHi : Nat
  job : Nat
  anyJob : Bool
  setSeq : Nat
  deriving DecidableEq, Repr

/-- CW41's telemetry (R120). -/
structure Telemetry where
  powerMw : Nat := 0
  dies : Nat := 0
  valid : Bool := false
  partialSum : Bool := false
  reportBeat : Nat := 0
  deriving DecidableEq, Repr

/-! What the hall keeps (chapters 8, 10, 11, 12): defined here because a mirror-lane frame carries it to the standby root. -/

/-- States of a hall slot (R219). -/
inductive HState where
  | free | counting | sent | called | closed | quorumWait | unresolved
  deriving DecidableEq, Repr

/-- A hall slot (R219) with what is kept beside the record: the last DONE (R229), the combined partial and the early
partials (R256), what the epoch has passed through, the pipe and combine that work for it, a completion held by the shaper
(R336), the beat of the last change of LEAD wait, when it was freed; at a leaf of a dual-homed pair what the packages that the partner carries have brought, and the ports whose
arrival came over a peer lane alone (R20). -/
structure HSlot where
  state : HState := .free
  policy : Bool := false
  bell : Bool := false
  payload : Bool := false
  forced : Bool := false
  job : Nat := 0
  gen : Nat := 0
  lastPort : Nat := 0
  e : Nat := 0
  completed : Nat := 0
  arr : Nat := 0
  early : Nat := 0
  wd : Nat := 0
  dlBeat : Nat := 0
  hardBeat : Nat := 0
  deadlineNs : Nat := 0
  hardMs : Nat := 0
  misuse : Nat := 0
  quorum : Nat := 0
  callSent : Bool := false
  paid : Bool := false
  contrib : Nat := 0
  hash : Nat := 0
  lastHt32 : Nat := 0
  last : Nat × Nat × Nat := (0, 0, 0)
  acc : Body := {}
  hasElems : Bool := false
  earlyBodies : SMap Body := []
  quorumWaited : Bool := false
  unresolvedSeen : Bool := false
  holding : Bool := false
  completeHt : Option Nat := none
  freedNow : Option Nat := none
  reserved : Bool := false
  skip : Nat := 0
  doneBeat : Option Nat := none
  nextQuorum : Option Nat := none
  aside : SMap Body := []
  viaPeer : Nat := 0
  deriving DecidableEq, Repr

/-- One entry of the close log (R293). -/
structure CloseEntry where
  seq : Nat
  bucket : Nat
  job : Nat
  epoch : Nat
  opFmt : Nat
  pflags : Nat
  contrib : Nat
  doneFlags : Nat
  hash : Nat
  residue : Nat
  beat : Nat
  deriving DecidableEq, Repr

/-- A job at a distributor (R220, R221, R246): its member table by port (MCOUNT, MHASH), the member dies and the stored
generations at the root, whether its tables are installed here, the words held for the install (R380), bells, quotas, the
monitor's ports, the last FLOOR word, the recovery bookkeeping of R415, whether the unit has heard of its creation (R246), its
sticky BELL_WRAP (R40). -/
structure Job where
  mcount : SMap Nat := []
  mhash : SMap Nat := []
  members : SMap Nat := []
  gens : SMap Nat := []
  installed : Bool := false
  hslotQuota : Nat := 0
  nextBell : Nat := 0
  lastBell : Nat := 0
  lastBellBeat : Nat := 0
  lastBellWord : Option BellWord := none
  bellSeen : Bool := false
  ending : Option Nat := none
  monPorts : Nat := 0
  monSent : Bool := false
  reporting : SMap Nat := []
  lastFloor : Option (Nat × Bool × Nat) := none
  rcNs : List Nat := [0, 0, 0, 0, 0]
  rcAt : Nat := 0
  rcWait : Nat := 0
  bellGaps : List Nat := []
  created : Bool := false
  bellWrap : Bool := false
  deriving DecidableEq, Repr

/-- A stud book entry (R290). -/
structure SbEntry where
  closeSeq : Nat := 0
  epoch : Nat := 0
  opFmt : Nat := 0
  pflags : Nat := 0
  contrib : Nat := 0
  doneFlags : Nat := 0
  hash : Nat := 0
  scale : Nat := 0
  flags : Nat := 0
  topkBin : Nat := 0
  topkThresh : Nat := 0
  topkKept : Nat := 0
  residue : Nat := 0
  resultResidue : Nat := 0
  closes : Nat := 0
  closeBeat : Nat := 0
  bad : Bool := false
  deriving DecidableEq, Repr

/-- The stud book (R288 to R293): page tables by job × 4,096 + slot, the pages in use, entries by index, the page slots to be
freed at the next beat boundary with the beat of their SB_FREE, the close logs by job, oldest first. -/
structure StudBook where
  pages : SMap Nat := []
  used : List Nat := []
  entries : SMap SbEntry := []
  freeing : List (Nat × Nat) := []
  logs : SMap (List CloseEntry) := []
  deriving DecidableEq, Repr

/-- A timetable change as a unit holds it (R308 to R322): its TXN_ID, scope (0 JOB, 1 HALL, 2 ROOT_PAIR) and job, instant, vote
deadline, body, MEMBER records (roll, action, generation) and digest; its state (0 QUEUED, 1 STAGING, 2 VOTING, 3 COMMITTED, 4
IN_EFFECT, 5 ABORTED); the unit's own vote (0 YES, otherwise its reason), whether YES and NO have been sent up, the positions that
received the PREPARE and those that have voted YES; reason and origin; the HT of the effect; the slots allocated to it. -/
structure TtChg where
  txn : Nat
  scope : Nat := 0
  job : Nat := 0
  atKind : Nat := 1
  at_ : Nat := 0
  voteBeats : Nat := 0
  vd : Nat := 0
  bytes : List Byte := []
  hasBody : Bool := false
  members : List (Nat × Nat × Nat) := []
  digest : Nat := 0
  state : Nat := 0
  vote : Option Nat := none
  sentYes : Bool := false
  sentNo : Bool := false
  ports : Nat := 0
  yes : Nat := 0
  reason : Nat := 0
  origin : Nat := 0
  effectHt : Nat := 0
  slots : List (Nat × Nat) := []
  prepBeat : Nat := 0
  deriving DecidableEq, Repr

/-- The changes a unit holds, oldest first, the last TXN_ID assigned at the root, MEMBER words and bodies received for changes whose
PREPARE has not come, the ports to which each body has been passed. -/
structure TtSt where
  changes : List TtChg := []
  lastTxn : Nat := 0
  members : List (Nat × Nat × Nat × Nat) := []
  bodies : List (Nat × List Byte) := []
  bodyPorts : SMap Nat := []
  deriving DecidableEq, Repr

/-- What the shaper keeps of a job (R334 to R340): recess asked for and in force, which way its ramp runs, the LEVEL of the ramp, the
directions whose step it waits for, the HT of its last STEP or RESUME bell and the intervals of the last 16, whether the interval
in progress contains a recess, whether a recess ends at the next bell, the last FLOOR word (level byte, RECESS, AT_BEAT) and the
beat it was sent in, a hold's start, cadence parameters that wait for the next tick. -/
structure JobPwr where
  ask : Bool := false
  resume : Bool := false
  recess : Bool := false
  rampUp : Bool := false
  level : Nat := 0
  down : Bool := false
  up : Bool := false
  lastStep : Option Nat := none
  gaps : List Nat := []
  gapBroken : Bool := false
  floor : Option (Nat × Bool × Nat) := none
  floorSent : Nat := 0
  holdSince : Option Nat := none
  cad : List Byte := []
  deriving DecidableEq, Repr

/-- The load shaper (R338 to R345) and the telemetry sum (R329, R330): jobs, the applied cap and the directions it waits for, the
beats at which the step timers expire, the mains gate last used, reports above the envelope by more than 5 % in a row. -/
structure PowerSt where
  jobs : SMap JobPwr := []
  cap : Nat := 100
  capDown : Bool := false
  capUp : Bool := false
  downAt : Option Nat := none
  upAt : Option Nat := none
  gateSeen : Nat := 0
  overRun : Nat := 0
  deriving DecidableEq, Repr

/-- The mirrored state of the active root (R18, R22, R76, R216, R246, R292, R322, R327, R407): the spec gives it no layout, so a mirror-lane frame
carries it whole. `regs` holds the job registers by field key. -/
structure MirrorImg where
  promoSeq : Nat := 0
  freeRun : Bool := false
  slots : SMap HSlot := []
  freed : List Nat := []
  neverUsed : Nat := 0
  jobs : SMap Job := []
  homingMap : SMap Bool := []
  label : Nat := 0
  sb : StudBook := {}
  tt : TtSt := {}
  power : PowerSt := {}
  regs : List (Nat × Nat) := []
  deriving DecidableEq, Repr

/-- The attributes of a hall slot (R218) with the name the root gave it. -/
structure SlotAttr where
  hslot : Nat
  gen : Nat
  job : Nat
  policy : Bool := false
  bell : Bool := false
  payload : Bool := false
  deadlineNs : Nat := 0
  hardMs : Nat := 10000
  quorum : Nat := 0
  deriving DecidableEq, Repr

/-- A message of the management tunnel (R120, R450): what the link prefects exchange. -/
inductive TunMsg where
  /-- A slot install, 80 bytes (R217, R450). -/
  | slotInstall (a : SlotAttr)
  /-- The release of a slot at every level (HBAR_FREE, JOB_END, SLOT_SWAP). -/
  | slotFree (hslot gen : Nat)
  /-- A job's member tables for the receiving unit and the units below it (R220, R321): the rolls below it that are or have been members, each
  with 1 for a member and its stored generation. -/
  | memberTables (job : Nat) (rolls : List (Nat × Nat × Nat))
  /-- ATT_RATE and PAY_SHARE of a job (R246). -/
  | jobShares (job attRate payShare : Nat)
  /-- The end of a job (R246). -/
  | jobEnd (job : Nat)
  /-- A leaf pair's homing mode (R18). -/
  | homing (k j : Nat) (dual : Bool)
  /-- The largest downward delay of a subtree in ps (R238). -/
  | dnMax (ps : Nat)
  /-- A mid's ROOT_STATE (R406): LSTATE of UP0 and UP1 and the HT32 at which each last left ALIGNED. -/
  | rootState (up0 up1 left0 left1 promoSeq : Nat)
  /-- The average of a reflectometry run at one end, in ps (R132). -/
  | calAverage (ps : Int)
  /-- A timetable change's body without its MEMBER records (R312). -/
  | ttBody (txn job scope : Nat) (bytes : List Byte)
  /-- A fire drill of type 5: the hub omits 3 heartbeats to a station (R410). -/
  | hbDrill (station : Nat)
  /-- The epoch label that formation fixed, for the distributors that join (R44, R54; log entry 80). -/
  | epochLabel (ns : Nat)
  /-- The recovery mask of a shaper tick and its drill mask (R415). -/
  | recovery (beat mask drill : Nat)
  deriving DecidableEq, Repr

/-- What a package-port slot other than SYNC and STATE carries (R160): a control word, or data of a DATA_KIND with its LEN and its bytes as a number. -/
inductive SlotBody where
  | control (slot : CtlSlot)
  | data (kind len value : Nat)
  deriving DecidableEq, Repr

/-- A frame as its sender composes it (R115, R120, R448): the header's blocks, the control words of CW0, the control carriers with their codeword positions, the payload
fragments, the attendance or rule records by codeword, CW41 with the tunnel's bytes and the messages that end in it. `slice` marks a calibration slice (R132), `mirror` is
the mirrored state on a mirror lane; on a package port `slots` are the slots of the beat by number (R160). -/
structure Frame where
  beat : Nat := 0
  timing : TimingBlk := { txHt := 0 }
  blk : LinkBlk := {}
  cw0 : List CtlSlot := []
  carriers : List (Nat × List CtlSlot) := []
  payload : List Fragment := []
  records : List (List Rec) := []
  rules : List (List RuleRec) := []
  tel : Telemetry := {}
  tunLen : Nat := 0
  tunnel : List TunMsg := []
  slice : Bool := false
  mirror : Option MirrorImg := none
  slots : List (Nat × SlotBody) := []
  deriving DecidableEq, Repr

/-- What a lane's receiver hands over of one frame (R114 to R116, R126): the levels of its 114,688 symbols as sliced, two bits a symbol, the first symbol the lowest; the HT80
of the coarse clock edge and the bin at which the lane TDC found the alignment edge, with the twin's difference in fs where the twin stamped it too (R90, R99). Beside the
frame's bits stand what the spec gives no layout: the tunnel messages that end in it and the mirrored state (log entry 75). -/
structure RxFrame where
  levels : Nat := 0
  coarse : Nat := 0
  bin : Nat := 0
  twin : Option Int := none
  tunnel : List TunMsg := []
  mirror : Option MirrorImg := none
  deriving DecidableEq, Repr

/-- What a frame's bits give (R115 to R120, R448): the pattern in its place, the header CRC, the blocks, the control slots in their order, telemetry, the tunnel's bytes; how
many codewords RS decoding could not correct and how many symbols it corrected. -/
structure RxParts where
  pattern : Bool := true
  headerOk : Bool := true
  timing : TimingBlk := { txHt := 0 }
  blk : LinkBlk := {}
  slots : List CtlSlot := []
  tel : Telemetry := {}
  tunLen : Nat := 0
  uncorrected : Nat := 0
  corrected : Nat := 0
  deriving DecidableEq, Repr

/-- A package-port slot as received (R160): its number in the beat, its 264 bits, bit 0 the lowest, with the lane TDC's stamp and the tunnel messages that end in it as for
a frame. -/
structure RxSlot where
  index : Nat := 0
  word : Nat := 0
  coarse : Nat := 0
  bin : Nat := 0
  twin : Option Int := none
  tunnel : List TunMsg := []
  deriving DecidableEq, Repr

/-- A TDC with its twin (R87, R90): a channel of the distributor, a part's timing block, the lane TDC of a link position. -/
inductive TdcAt where
  | channel (n : Nat)
  | timing (p : Part)
  | lane (p : Part) (n : Nat)
  deriving DecidableEq, Repr

/-- The stage conditions that become met (R378, R382): tier A and the TDCs ready, tier B trained (a mask of its channels, the GiB of each DIMM),
every component of every active prefect ready, the roll number confirmed on a joined die. -/
inductive StageCond where
  | tierAReady
  | tierBTrained (channels gib : Nat)
  | componentsReady
  | joinedConfirmed
  deriving DecidableEq, Repr

/-- The causes of R352 that PREFECT_FAULT_RESTART takes; a watchdog, a command and a drill have their own rows. -/
inductive RestartCause where
  | kernelFault
  | escalation
  | sramUe
  deriving DecidableEq, Repr

/-- The region of tier A or tier B that an uncorrectable error hits (R287): a stud book entry by index, a hall slot, the translation tables of a job, a
combine buffer (with the port of an early partial), a close log entry, an attendance block. -/
inductive UeRegion where
  | sbEntry (index : Nat)
  | hallSlot (h : Nat)
  | tables (job : Nat)
  | combine (h : Nat) (early : Option Nat)
  | closeLog (job seq : Nat)
  | block (seq : Nat)
  | none
  deriving DecidableEq, Repr

end Sys2Proof.Machine
end

