-- ==== Sys2Proof/Syntax.lean ====
section
/-! DEFINITION. The commands of the block: one constructor per row of the opcode table, in the table's order, each with its
row's rule. -/

namespace Sys2Proof

open Machine

/-- The commands (opcode_table.json). -/
inductive Instr where
  /-- POWER_GOOD (R377). -/
  | powerGood (modules : Nat)
  /-- STAGE_ADVANCE (R378). -/
  | stageAdvance (p : Part) (cond : StageCond)
  /-- CONFIG_TAKES_EFFECT (R379). -/
  | configTakesEffect (p : Part)
  /-- SC_RESET_RELEASE (R382). -/
  | scResetRelease
  /-- RESET_N_ASSERT (R394). -/
  | resetNAssert (dimmsKept : Bool)
  /-- PERST_N_ASSERT (R394). -/
  | perstNAssert
  /-- TRST_N_ASSERT (R394). -/
  | trstNAssert (p : Part)
  /-- SUPPLY_RESET_CROSSING (R388). -/
  | supplyResetCrossing (dimmsKept : Bool)
  /-- SUPPLY_WARNING (R389). -/
  | supplyWarning (p : Part) (mon vinMv : Nat)
  /-- GUARD_EXIT (R389). -/
  | guardExit (p : Part) (vinMv : Nat)
  /-- LADDER_DESCEND (R385). -/
  | ladderDescend (p : Part) (u unit : Nat)
  /-- LADDER_WAKE (R385). -/
  | ladderWake (p : Part) (u unit : Nat)
  /-- LOAD_CONFIG (R359). -/
  | loadConfig (p : Part) (req : Nat)
  /-- LOAD_FIRMWARE (R359). -/
  | loadFirmware (p : Part) (req : Nat)
  /-- LOAD_COMPLETE (R359). -/
  | loadComplete (p : Part) (fetchOk : Bool)
  /-- FW_STAGE (R370). -/
  | fwStage (m : MbGo)
  /-- FW_ACTIVATE (R372). -/
  | fwActivate (m : MbGo)
  /-- ACTIVATION_COMPLETE (R374). -/
  | activationComplete (p : Part) (bad : List Nat)
  /-- DEFERRED_ACTIVATION (R320). -/
  | deferredActivation (p : Part)
  /-- FW_STATUS (R376). -/
  | fwStatus (m : MbGo)
  /-- PREFECT_RESTART (R352). -/
  | prefectRestart (m : MbGo)
  /-- TOKEN_SET (R364). -/
  | tokenSet (m : MbGo)
  /-- CONFIG_READ (R376). -/
  | configRead (m : MbGo)
  /-- FW_UNSTAGE (R370). -/
  | fwUnstage (m : MbGo)
  /-- UNKNOWN_COMMAND (R431). -/
  | unknownCommand (m : MbGo) (code : Nat)
  /-- COMPONENT_FAULT (R351). -/
  | componentFault (p : Part) (n comp : Nat)
  /-- WATCHDOG_EXPIRY (R352). -/
  | watchdogExpiry (p : Part) (n : Nat)
  /-- PREFECT_FAULT_RESTART (R352). -/
  | prefectFaultRestart (p : Part) (n : Nat) (cause : RestartCause)
  /-- PREFECT_RESTART_COMPLETE (R352). -/
  | prefectRestartComplete (p : Part) (n : Nat) (bad : List Nat)
  /-- EMULATED_READ (R362). -/
  | emulatedRead (p : Part) (req off : Nat) (late : Bool)
  /-- EMULATED_WRITE (R363). -/
  | emulatedWrite (p : Part) (req off value : Nat)
  /-- SHADOW_TIMEOUT (R362). -/
  | shadowTimeout (p : Part)
  /-- REGISTER_WRITE (R419). -/
  | registerWrite (p : Part) (req off size value : Nat)
  /-- COUNTER_READ_CLEAR (R9). -/
  | counterReadClear (p : Part) (req off size : Nat)
  /-- TOKEN_WRITE (R364). -/
  | tokenWrite (p : Part) (req value : Nat)
  /-- HT_SNAPSHOT_READ (R54). -/
  | htSnapshotRead (p : Part) (req size : Nat)
  /-- HALL_FORM (R432). -/
  | hallForm (m : MbGo)
  /-- HALL_FORM_LOAD (R42). -/
  | hallFormLoad
  /-- HT_WRAP (R48). -/
  | htWrap (p : Part)
  /-- HOLDOVER_BEAT (R70). -/
  | holdoverBeat
  /-- STEER_BEAT (R129). -/
  | steerBeat (p : Part)
  /-- TEMPERATURE_READ (R70). -/
  | temperatureRead (temp : Option Int)
  /-- MODEL_LEARN (R71). -/
  | modelLearn (y : Int)
  /-- REF_GATE_END (R58). -/
  | refGateEnd (x : RefIn) (g : GateMeas)
  /-- REF_DISQUALIFY (R59). -/
  | refDisqualify (x : RefIn) (breach : RefBreach)
  /-- REVERTIVE_WAIT_END (R61). -/
  | revertiveWaitEnd (x : RefIn)
  /-- REF_ACCEPT (R68). -/
  | refAccept (m : MbGo)
  /-- REF_ACCEPT_CANCEL (R68). -/
  | refAcceptCancel (m : MbGo)
  /-- REJOIN_COMPLETE (R75). -/
  | rejoinComplete
  /-- SUBTREE_REJOIN (R75). -/
  | subtreeRejoin (m : MbGo)
  /-- PTP_EXCHANGE (R78). -/
  | ptpExchange (x : PtpMsg)
  /-- PTP_TIMEOUT (R78). -/
  | ptpTimeout
  /-- WALL_READ (R86). -/
  | wallRead (m : MbGo)
  /-- PPS_OUT_PULSE (R80). -/
  | ppsOutPulse (n : Nat)
  /-- BELL_OUT_PULSE (R83). -/
  | bellOutPulse (n : Nat) (bellHt : Nat) (word : BellWord)
  /-- OUT_REALIGN (R81). -/
  | outRealign (m : MbGo)
  /-- OUT_REALIGN_DONE (R81). -/
  | outRealignDone (n : Nat)
  /-- TDC_EDGE (R88). -/
  | tdcEdge (n src coarse : Nat) (rising : Bool) (bin : Nat) (twin : Option Int)
  /-- TDC_GAP_QUEUE (R92). -/
  | tdcGapQueue (n : Nat)
  /-- TDC_GATE_END (R96). -/
  | tdcGateEnd (n : Nat)
  /-- TDC_DMA (R93). -/
  | tdcDma (records : Nat)
  /-- TDC_RDIDX_WRITE (R93). -/
  | tdcRdidxWrite (req n value : Nat)
  /-- TDC_RING_SET (R93). -/
  | tdcRingSet (m : MbGo)
  /-- TDC_CAL_NOW (R98). -/
  | tdcCalNow (m : MbGo)
  /-- TDC_CAL_READ (R109). -/
  | tdcCalRead (m : MbGo)
  /-- TDC_CAL_START (R98). -/
  | tdcCalStart (a : TdcAt) (temp : Int)
  /-- TDC_CAL_TABLE_DONE (R98). -/
  | tdcCalTableDone (a : TdcAt) (hits : List Nat)
  /-- TDC_CHECK_TIMEOUT (R99). -/
  | tdcCheckTimeout (a : TdcAt)
  /-- MAINS_ZC_EDGE (R101). -/
  | mainsZcEdge (p : Nat) (stamp : Nat) (levels : Nat)
  /-- MAINS_GATE_END (R102). -/
  | mainsGateEnd
  /-- MAINS_LINE_EDGE (R106). -/
  | mainsLineEdge (alarm level : Bool) (stamp held : Nat)
  /-- FRAME_LAUNCH (R116). -/
  | frameLaunch (p : Part) (n : Nat)
  /-- FRAME_RECEIVE (R119). -/
  | frameReceive (p : Part) (n : Nat) (x : RxFrame)
  /-- SIGNAL_DETECT (R136). -/
  | signalDetect (p : Part) (n : Nat) (farOffers : Bool)
  /-- LOSS_OF_SIGNAL (R136). -/
  | lossOfSignal (p : Part) (n : Nat)
  /-- TRAINING_TIMEOUT (R136). -/
  | trainingTimeout (p : Part) (n : Nat)
  /-- RANGING_TIMEOUT (R136). -/
  | rangingTimeout (p : Part) (n : Nat)
  /-- SUSPECT_TIMEOUT (R136). -/
  | suspectTimeout (p : Part) (n : Nat)
  /-- SUSPECT_CLEAR (R136). -/
  | suspectClear (p : Part) (n : Nat)
  /-- RESIDUE_EXCEEDED (R135). -/
  | residueExceeded (p : Part) (n : Nat)
  /-- LINK_BACKOFF_END (R138). -/
  | linkBackoffEnd (p : Part) (n : Nat)
  /-- RETRANSMIT_TIMEOUT (R123). -/
  | retransmitTimeout (p : Part) (n : Nat)
  /-- STEP_CORE_HOLDOVER_RETURN (R141). -/
  | stepCoreHoldoverReturn
  /-- CARRYING_ROLE_MOVE (R20). -/
  | carryingRoleMove (n pkgs : Nat) (take : Bool)
  /-- LINK_CAL (R148). -/
  | linkCal (m : MbGo)
  /-- LINK_SWAP (R148). -/
  | linkSwap (m : MbGo)
  /-- LINK_RESET (R148). -/
  | linkReset (m : MbGo)
  /-- REFLECT_RUN_START (R132). -/
  | reflectRunStart (p : Part) (n : Nat)
  /-- CAL_SLICE (R132). -/
  | calSlice (p : Part) (n : Nat) (sent reflected : Nat)
  /-- REFLECT_RUN_END (R132). -/
  | reflectRunEnd (p : Part) (n : Nat)
  /-- SPARE_READY (R145). -/
  | spareReady (p : Part) (n : Nat) (ok : Bool)
  /-- SWAP_AT_BOUNDARY (R145). -/
  | swapAtBoundary (p : Part) (n : Nat)
  /-- PAY_SPLIT_CHANGE (R120). -/
  | paySplitChange (p : Part) (n : Nat)
  /-- PKG_SLOT_RECEIVE (R160). -/
  | pkgSlotReceive (n : Nat) (x : RxSlot)
  /-- HEARTBEAT_SEND (R151). -/
  | heartbeatSend (trip : Nat)
  /-- HEARTBEAT_RECEIVE (R155). -/
  | heartbeatReceive (n : Nat) (edges : List Nat) (tap flips : Nat)
  /-- HEARTBEAT_MISSING (R159). -/
  | heartbeatMissing (n : Nat) (edges : List Nat)
  /-- REGION_CLOCK_MISSING (R159). -/
  | regionClockMissing (n : Nat)
  /-- STATION_EVENT_COMMIT (R169). -/
  | stationEventCommit (delayed : List Nat)
  /-- STROBE_FIRE (R165). -/
  | strobeFire (n k : Nat) (edges : List Nat)
  /-- STROBE_CFG_WRITE (R164). -/
  | strobeCfgWrite (req k w value : Nat)
  /-- STROBE_EN_WRITE (R164). -/
  | strobeEnWrite (req n value : Nat)
  /-- OPP_EVALUATE (R170). -/
  | oppEvaluate (temp : Int) (droop req : Nat) (reqValid : Bool)
  /-- OPP_SWITCH (R171). -/
  | oppSwitch (m : MbGo)
  /-- OPP_CANCEL (R177). -/
  | oppCancel (m : MbGo)
  /-- STATION_READ (R177). -/
  | stationRead (m : MbGo)
  /-- OPP_READY_ASSERT (R172). -/
  | oppReadyAssert
  /-- OPP_READY_TIMEOUT (R173). -/
  | oppReadyTimeout
  /-- OPP_SEL_DRIVE (R172). -/
  | oppSelDrive (n : Nat) (edges : List Nat)
  /-- OPP_GO (R172). -/
  | oppGo (n : Nat) (edges : List Nat)
  /-- QUEUE_CMD_ACCEPT (R179). -/
  | queueCmdAccept (q cmd : Nat)
  /-- NOP (R180). -/
  | nop (q : Nat) (edges : List Nat)
  /-- ARRIVE (R190). -/
  | arrive (q : Nat) (edges : List Nat)
  /-- WAIT (R192). -/
  | wait (q : Nat) (edges : List Nat)
  /-- ARRIVE_WAIT (R183). -/
  | arriveWait (q : Nat) (edges : List Nat)
  /-- FENCE (R184). -/
  | fence (q : Nat) (edges : List Nat)
  /-- DRAIN_ACK (R184). -/
  | drainAck (q : Nat)
  /-- PAYLOAD_ARRIVE (R253). -/
  | payloadArrive (q : Nat) (edges : List Nat)
  /-- SIGNAL_HOST (R209). -/
  | signalHost (q : Nat) (edges : List Nat)
  /-- WAIT_HOST (R209). -/
  | waitHost (q : Nat) (edges : List Nat)
  /-- WAIT_BELL (R194). -/
  | waitBell (q : Nat) (edges : List Nat)
  /-- WAIT_BELL_RELEASE (R194). -/
  | waitBellRelease (q : Nat) (edges : List Nat)
  /-- WAIT_TIME (R195). -/
  | waitTime (q : Nat) (edges : List Nat)
  /-- WAIT_TIME_RELEASE (R195). -/
  | waitTimeRelease (q : Nat) (edges : List Nat)
  /-- STAMP (R196). -/
  | stamp (q : Nat) (edges : List Nat)
  /-- RESERVED_OPCODE (R180). -/
  | reservedOpcode (q : Nat) (edges : List Nat)
  /-- QUEUE_BIND (R213). -/
  | queueBind (req q ctx : Nat)
  /-- HOST_ARRIVE (R207). -/
  | hostArrive (req epoch : Nat)
  /-- HOST_WAIT_ARM (R208). -/
  | hostWaitArm (req epoch : Nat)
  /-- HOST_FLAG_SET (R209). -/
  | hostFlagSet (req c : Nat) (hi : Bool) (flags : Nat)
  /-- HOST_FLAG_WITHDRAW (R209). -/
  | hostFlagWithdraw (req c : Nat) (hi : Bool) (flags : Nat)
  /-- DIRECT_CREATE (R214). -/
  | directCreate (req : Nat)
  /-- DIRECT_FREE (R214). -/
  | directFree (req : Nat)
  /-- BARRIER_CREATE (R215). -/
  | barrierCreate (m : MbGo)
  /-- BARRIER_FREE (R204). -/
  | barrierFree (m : MbGo)
  /-- CTX_BIND (R202). -/
  | ctxBind (m : MbGo)
  /-- CTX_SWITCH (R203). -/
  | ctxSwitch (m : MbGo)
  /-- CTX_CLEAR (R203). -/
  | ctxClear (m : MbGo)
  /-- CONTEXT_CLEAR_END (R203). -/
  | contextClearEnd
  /-- SLOT_READ (R210). -/
  | slotRead (m : MbGo)
  /-- CTX_QUOTA (R202). -/
  | ctxQuota (m : MbGo)
  /-- HOST_WAIT_CANCEL (R208). -/
  | hostWaitCancel (m : MbGo)
  /-- MON_DUMP (R212). -/
  | monDump (m : MbGo)
  /-- DEADLOCK_DECLARE (R212). -/
  | deadlockDeclare (c : Nat)
  /-- ARRIVE_WORD (R225). -/
  | arriveWord (n job hslot gen epoch src ht32 : Nat) (payload : Bool) (ptag : Nat)
  /-- LEAD_DIE_ARRIVE (R199). -/
  | leadDieArrive (d job : Nat) (hallwide : Bool) (hslot gen epoch src ht32 : Nat) (payload : Bool) (ptag : Nat)
  /-- WITHDRAW_WORD (R225). -/
  | withdrawWord (n job hslot gen epoch src ht32 : Nat)
  /-- LEAD_DIE_WITHDRAW (R200). -/
  | leadDieWithdraw (d job : Nat) (hallwide : Bool) (hslot gen epoch src ht32 : Nat)
  /-- DONE_WORD (R228). -/
  | doneWord (n job hslot gen epoch contrib hash flags : Nat)
  /-- DONE_AT_DIE (R200). -/
  | doneAtDie (n job : Nat) (hallwide : Bool) (hslot gen epoch contrib hash flags : Nat)
  /-- ROOT_DEADLINE (R230). -/
  | rootDeadline (h : Nat)
  /-- MID_ANSWER_DEADLINE (R231). -/
  | midAnswerDeadline (h : Nat)
  /-- ROOT_CALL_WAIT_END (R232). -/
  | rootCallWaitEnd (h : Nat)
  /-- HARD_TIMEOUT (R233). -/
  | hardTimeout (h : Nat)
  /-- BELL_WORD_FORWARD (R242). -/
  | bellWordForward (n : Nat) (beat : Nat) (word : BellWord)
  /-- BELL_WORD_AT_DIE (R243). -/
  | bellWordAtDie (n beat : Nat) (word : BellWord)
  /-- BELL_RING (R240). -/
  | bellRing (m : MbGo)
  /-- LIVENESS_SEND (R235). -/
  | livenessSend
  /-- LIVENESS_WORD (R235). -/
  | livenessWord (n src dieMask lvSeq ht32 : Nat)
  /-- LIVENESS_MISS (R235). -/
  | livenessMiss (n : Nat)
  /-- MONITOR_WORD (R245). -/
  | monitorWord (n job ctx src ht32 : Nat) (deadlock : Bool)
  /-- DN_MAX_REPORT (R238). -/
  | dnMaxReport (n ps : Nat)
  /-- MEMBER_WORD (R221). -/
  | memberWord (p : Part) (n job txn roll action gen : Nat)
  /-- STALE_WORD (R206). -/
  | staleWord (p : Part) (n job : Nat) (hallwide : Bool) (roll hslot gen epoch cause : Nat)
  /-- SLOT_INSTALL (R450). -/
  | slotInstall (n : Nat) (msg : TunMsg)
  /-- HBAR_ALLOC_INSTALLED (R217). -/
  | hbarAllocInstalled (h : Nat)
  /-- HBAR_ALLOC (R217). -/
  | hbarAlloc (m : MbGo)
  /-- HBAR_FREE (R249). -/
  | hbarFree (m : MbGo)
  /-- HBAR_SET (R249). -/
  | hbarSet (m : MbGo)
  /-- HBAR_RESOLVE (R234). -/
  | hbarResolve (m : MbGo)
  /-- HBAR_READ (R249). -/
  | hbarRead (m : MbGo)
  /-- JOB_HALL_STATUS (R249). -/
  | jobHallStatus (m : MbGo)
  /-- SUSPECT_READ (R249). -/
  | suspectRead (m : MbGo)
  /-- HBAR_DUMP (R249). -/
  | hbarDump (m : MbGo)
  /-- JOB_CREATE (R246). -/
  | jobCreate (m : MbGo)
  /-- JOB_END (R246). -/
  | jobEnd (m : MbGo)
  /-- JOB_END_EFFECT (R246). -/
  | jobEndEffect (j : Nat)
  /-- DESCRIPTOR_READ_DONE (R254). -/
  | descriptorReadDone (desc : Nat) (descErr maskErr : Bool) (srcErr : List Nat)
  /-- FRAGMENT_RECEIVE (R260). -/
  | fragmentReceive (p : Part) (n : Nat) (f : Fragment)
  /-- BODY_CHECK (R264). -/
  | bodyCheck (p : Part) (n fkind job tag : Nat)
  /-- REPEAT_REQUEST_TIMER (R264). -/
  | repeatRequestTimer (p : Part) (n fkind job tag : Nat)
  /-- REPEAT_REQUEST (R264). -/
  | repeatRequest (p : Part) (n job tag : Nat)
  /-- PIPE_COMBINE_DONE (R275). -/
  | pipeCombineDone (n : Nat) (mismatch : Bool)
  /-- RESULT_FORMED (R257). -/
  | resultFormed (h : Nat)
  /-- CLOSE_WORD (R258). -/
  | closeWord (n job bucket seq epoch contrib hash flags : Nat)
  /-- CLOSE_AT_DIE (R258). -/
  | closeAtDie (n job bucket seq epoch contrib hash flags : Nat)
  /-- RESULT_WRITE_DONE (R258). -/
  | resultWriteDone (job seq : Nat)
  /-- PIPE_READ (R283). -/
  | pipeRead (m : MbGo)
  /-- PAY_READ (R283). -/
  | payRead (m : MbGo)
  /-- PD_BASE_WRITE (R280). -/
  | pdBaseWrite (req : Nat) (hi : Bool) (value : Nat)
  /-- CHECKER_BEAT (R277). -/
  | checkerBeat (data keep : Nat) (last : Bool)
  /-- CHK_EXPECT_WRITE (R278). -/
  | chkExpectWrite (req value : Nat)
  /-- CHK_VALUE_READ (R279). -/
  | chkValueRead (req : Nat)
  /-- CHK_VALUE_WRITE (R279). -/
  | chkValueWrite (req value : Nat)
  /-- SB_ALLOC (R289). -/
  | sbAlloc (m : MbGo)
  /-- SB_FREE (R289). -/
  | sbFree (m : MbGo)
  /-- SB_FREE_EFFECT (R289). -/
  | sbFreeEffect
  /-- SB_QUOTA (R289). -/
  | sbQuota (m : MbGo)
  /-- SB_READ (R307). -/
  | sbRead (m : MbGo)
  /-- SB_CLOSE_LOG (R293). -/
  | sbCloseLog (m : MbGo)
  /-- MIRROR_RESYNC_DONE (R292). -/
  | mirrorResyncDone
  /-- ATT_RECORD (R294). -/
  | attRecord (p : Part) (n : Nat) (x : Rec)
  /-- BLOCK_TIMEOUT (R298). -/
  | blockTimeout
  /-- RECORD_AGE_DROP (R298). -/
  | recordAgeDrop
  /-- SPILL_WRITE (R299). -/
  | spillWrite
  /-- SPILL_RESUME (R300). -/
  | spillResume
  /-- RULE_SET_SEND (R303). -/
  | ruleSetSend
  /-- RULE_RECORD_AT_DIE (R303). -/
  | ruleRecordAtDie (n : Nat) (r : RuleRec)
  /-- RULE_SET_ADOPT (R303). -/
  | ruleSetAdopt
  /-- ATT_TOKEN_REFILL (R304). -/
  | attTokenRefill
  /-- ATT_WIN_SELECT (R305). -/
  | attWinSelect (req seq : Nat)
  /-- ATT_WIN_LOADED (R305). -/
  | attWinLoaded
  /-- ATT_DMA (R305). -/
  | attDma (m : MbGo)
  /-- ATT_FIND (R307). -/
  | attFind (m : MbGo)
  /-- ATT_QUOTA (R304). -/
  | attQuota (m : MbGo)
  /-- ATT_FLUSH (R298). -/
  | attFlush (m : MbGo)
  /-- PATROL_SCRUB (R286). -/
  | patrolScrub (tierA : Bool) (unit row : Nat) (remap : Bool)
  /-- DRAM_UE (R287). -/
  | dramUe (tierA : Bool) (unit row : Nat) (region : UeRegion) (remap : Bool)
  /-- CHANNEL_FAIL (R285). -/
  | channelFail (ch cause : Nat)
  /-- STACK_FAIL (R399). -/
  | stackFail (k cause : Nat)
  /-- TT_SUBMIT (R310). -/
  | ttSubmit (m : MbGo)
  /-- TT_START (R318). -/
  | ttStart (txn : Nat)
  /-- TT_RESULT (R326). -/
  | ttResult (m : MbGo)
  /-- TT_CANCEL (R326). -/
  | ttCancel (m : MbGo)
  /-- TT_READ (R326). -/
  | ttRead (m : MbGo)
  /-- TT_BODY_RECEIVE (R312). -/
  | ttBodyReceive (p : Part) (n txn job scope : Nat) (bytes : List Byte)
  /-- PREPARE_WORD (R312). -/
  | prepareWord (p : Part) (n job : Nat) (hallwide : Bool) (txn atKind at_ voteBeats digest : Nat)
  /-- VOTE_WORD (R314). -/
  | voteWord (p : Part) (n job : Nat) (hallwide : Bool) (txn : Nat) (yes : Bool) (reason src ht32 : Nat)
  /-- TT_REVOKE (R313). -/
  | ttRevoke (p : Part) (txn : Nat)
  /-- COMMIT_WORD (R316). -/
  | commitWord (p : Part) (n job : Nat) (hallwide : Bool) (txn atKind at_ : Nat)
  /-- ABORT_WORD (R316). -/
  | abortWord (p : Part) (n job : Nat) (hallwide : Bool) (txn reason origin : Nat)
  /-- VOTE_DEADLINE (R315). -/
  | voteDeadline (txn : Nat)
  /-- TT_EFFECT (R317). -/
  | ttEffect (p : Part) (txn : Nat)
  /-- SHAPER_TICK (R345). -/
  | shaperTick (temp : Int)
  /-- STEP_TIMER_EXPIRY (R340). -/
  | stepTimerExpiry (up : Bool)
  /-- COMPLETION_RELEASE (R336). -/
  | completionRelease (h : Nat)
  /-- FLOOR_WORD (R332). -/
  | floorWord (p : Part) (n job level : Nat) (recess : Bool) (atBeat : Nat)
  /-- FLOOR_APPLY (R332). -/
  | floorApply
  /-- FLOOR_RESEND (R332). -/
  | floorResend
  /-- POWER_SAMPLE (R328). -/
  | powerSample (mw : Nat) (valid : Bool)
  /-- TELEMETRY_SEND (R329). -/
  | telemetrySend (p : Part)
  /-- EMERGENCY_START (R342). -/
  | emergencyStart (p : Part) (asserted : Bool) (temp : Int)
  /-- EMERGENCY_END (R342). -/
  | emergencyEnd (p : Part) (asserted : Bool) (temp : Int)
  /-- PWR_READ (R348). -/
  | pwrRead (m : MbGo)
  /-- PWR_JOB_SET (R348). -/
  | pwrJobSet (m : MbGo)
  /-- PWR_RECESS (R334). -/
  | pwrRecess (m : MbGo)
  /-- PWR_RESUME (R335). -/
  | pwrResume (m : MbGo)
  /-- ROOT_STATE_SEND (R406). -/
  | rootStateSend
  /-- ROOT_STATE (R406). -/
  | rootState (n up0 up1 left0 left1 promoSeq : Nat)
  /-- STANDBY_PROMOTE (R407). -/
  | standbyPromote
  /-- ROOT_DEMOTE (R408). -/
  | rootDemote
  /-- ROOT_PROMOTE (R418). -/
  | rootPromote (m : MbGo)
  /-- DRILL_MOMENT (R412). -/
  | drillMoment (target : Nat) (other partnerIdle periodEnd : Bool)
  /-- DRILL_END (R414). -/
  | drillEnd (seen realFault : Bool)
  /-- DRILL_NOW (R418). -/
  | drillNow (m : MbGo) (other partnerIdle : Bool)
  /-- DRILL_READ (R418). -/
  | drillRead (m : MbGo)
  /-- SELFTEST (R409). -/
  | selftest (m : MbGo)
  /-- SELFTEST_RUN (R409). -/
  | selftestRun (p : Part) (kind n : Nat) (passed : Bool)
  /-- PIPE_UNRETIRE (R404). -/
  | pipeUnretire (m : MbGo)
  /-- FAULT_TABLE_WRITE (R404). -/
  | faultTableWrite
  /-- REPORT_CARD_TICK (R415). -/
  | reportCardTick
  /-- RC_READ (R418). -/
  | rcRead (m : MbGo)
  /-- RC_CLEAR (R418). -/
  | rcClear (m : MbGo)
  /-- FAULT_READ (R418). -/
  | faultRead (m : MbGo)
  /-- REF_PPS_EDGE (R65). -/
  | refPpsEdge (x : RefIn) (coarse bin : Nat) (twin : Option Int) (cyc : Nat)
  /-- SC_RESET_ASSERT (R394). -/
  | scResetAssert
  /-- MSIX_VECTOR_UNMASK (R430). -/
  | msixVectorUnmask (v : Nat)
  /-- CAL_STALE (R100). -/
  | calStale (n : Nat)
  /-- HUB_RELEASE_AT_STATION (R201). -/
  | hubReleaseAtStation (q : Nat)
  /-- DIE_BELL_FIRE (R337). -/
  | dieBellFire (job : Nat)
  deriving DecidableEq, Repr

end Sys2Proof
end

