-- ==== Sys2Proof/Decode.lean ====
section
/-! DEFINITION. Commands spelled by words. spec/opcode_table.json gives no row any bits: a command of the block is an event or an access with its operands, not an encoded
word. So no word spells a command. -/

namespace Sys2Proof

/-- The command that a word of `nbits` bits spells by the table: none, for the table gives no bits. -/
def decodeTableWord (_nbits _w : Nat) : Option Instr := none

end Sys2Proof
end

