-- ==== Sys2Proof/Config.lean ====
section
/-! DEFINITION. What an implementation fixes and the spec leaves open: free values (constants without a body: nothing can
evaluate them), and the cryptographic functions and compressor the spec names by their standards. -/

namespace Sys2Proof

/-- A free value: what the spec leaves open at the `n`-th place a run asks for one (log entry 1). -/
opaque Config.freeValue : Nat → Nat

/-- SHA-384 of a byte string, as the standard defines it (R356; log entry 3). -/
opaque Config.sha384 : List Byte → BitVec 384

/-- Whether 96 signature bytes are an ECDSA P-384 signature by the key named over the digest (R356; log entry 3). -/
opaque Config.ecdsaOk : BitVec 384 → BitVec 384 → List Byte → Bool

/-- What the ROM and the fuses of a part (the step core where true) say of a public key's SHA-384 (R357): 0 absent, 1 present, 2 revoked. They are
set at manufacture (log entry 3). -/
opaque Config.romKey : Bool → BitVec 384 → Nat

/-- The length of the Zstandard frame of a block's bytes (R299; log entry 3). -/
opaque Config.zstdLen : List Byte → Nat

/-- The bytes of the management tunnel in a beat, as a number, the first byte the lowest (R120; log entry 75). -/
opaque Config.tunnelBytes : Nat → Nat

/-- The event codes of record kinds whose codes the spec does not number (R296), by kind and by the model's own number of
the event (log entry 6). -/
opaque Config.eventCode : Nat → Nat → Nat

end Sys2Proof
end

