-- ==== Sys2Proof/Machine/Ident.lean ====
section
/-! DEFINITION. The registers that silicon or the generator fixes (R6, R422, R424, R213), as they stand at every reset. -/

namespace Sys2Proof.Machine

open Sys2Proof

/-- Fields with their values as a register file. -/
def regsOf (l : List (Field × Nat)) : SMap Nat := l.foldl (fun r e => fieldSet e.1 e.2 r) []

/-- FD_ID and FD_CAPS of a variant (R2, R422, R424). -/
def fdIdent (v : Variant) : SMap Nat :=
  let big := if v = .vxd2880 then 1 else 0
  regsOf [(Rg.ID_STEPPING, 0xB0), (Rg.ID_PART, if v = .vxd2880 then 0x80 else if v = .vxd2860 then 0x60 else 0x40),
    (Rg.CAPS_TIER_B, if v = .vxd2840 then 0 else 1), (Rg.CAPS_EXT_TDC, big), (Rg.CAPS_MAINS, big), (Rg.CAPS_SHAPER, big),
    (Rg.CAPS_VARIANT, if v = .vxd2880 then 0 else if v = .vxd2860 then 1 else 2)]

/-- SC_ID, SC_CAPS and the station of each queue (R4, R178, R422, R424): the queues are spread over the stations in turn (log entry 8). -/
def scIdent (stations queues tlPorts : Nat) (payload checker pkgPort : Bool) : SMap Nat :=
  (List.range queues).foldl (fun r q => if q % stations = 0 then r else fieldSet (Rg.Q_STATION q) (q % stations) r)
    (regsOf [(Rg.ID_STEPPING, 0x30), (Rg.ID_PART, 0x01), (Rg.SCAPS_TL_PORTS, tlPorts), (Rg.SCAPS_PKG_PORT, ofBool pkgPort), (Rg.SCAPS_CHECKER, ofBool checker),
      (Rg.SCAPS_PAYLOAD, ofBool payload), (Rg.SCAPS_QUEUES_16, queues / 16), (Rg.SCAPS_STATIONS_8, stations / 8)])

end Sys2Proof.Machine
end

