-- ==== Sys2Proof/Machine/State.lean ====
section
/-! DEFINITION. The state of the block, as plain data: one distributor and one step core die with everything the spec gives
them, the memories they reach, and the queue of waiting commands. Registers live in register files keyed by field
(Sys2Proof.Machine.Regs); what the spec implies beside its registers is in the structures here. -/

namespace Sys2Proof.Machine

open Sys2Proof

/-- A snapshot latch of R54: HT80 and the status half-word at the snapshot. -/
structure Snap where
  ht : Nat := 0
  stat : Nat := 0
  deriving DecidableEq, Repr

/-- What the last register read of a part answered: requester, offset, value, whether it came from the shadow (R362). -/
structure Reply where
  req : Nat := 0
  off : Nat := 0
  value : Nat := 0
  stale : Bool := false
  deriving DecidableEq, Repr

/-- An emulated access on its way to its owner (R362): `late` marks a read that its owner does not answer within 20 µs. -/
structure EmuAcc where
  req : Nat
  off : Nat
  value : Nat := 0
  isWrite : Bool := false
  late : Bool := false
  lane : Nat := 0
  bytes : Nat := 4
  deriving DecidableEq, Repr

/-- A mailbox command that waits for its condition (R366): its code, the arguments it keeps. -/
structure MbWait where
  code : Nat
  tag : Nat
  irq : Bool
  dma : Bool
  args : List Nat := []
  deriving DecidableEq, Repr

/-- A mailbox (R365): the data area and the command that waits. Its control block is in the register file. -/
structure Mail where
  data : Memory := []
  wait : Option MbWait := none
  deriving DecidableEq, Repr

/-- The HT counter of a unit (R37, R45): HT80, the count-rate correction in 1e-15, the correction not yet counted (in
2^-16 ns × 1e-15), the phase correction outstanding in the same unit and its limit in 1e-15. -/
structure Clock where
  ht : Nat := 0
  rate : Int := 0
  carry : Int := 0
  slewLeft : Int := 0
  slewRate : Nat := 0
  slewNext : Option (Nat × Nat) := none
  deriving DecidableEq, Repr

/-- The slate's own state (R54, R361 to R364): HT latches and token latches, the most recently used first; the tokens set for
jobs; the shadow of emulated registers by offset; held writes; accesses pending at their owners; the last read. -/
structure SlateSt where
  snaps : List (Nat × Snap) := []
  latches : List (Nat × Nat) := []
  jobTokens : SMap Nat := []
  shadow : SMap Nat := []
  held : List EmuAcc := []
  emuQ : List EmuAcc := []
  reply : Reply := {}
  mail : SMap Mail := []
  deriving DecidableEq, Repr

/-- A verified image (R356): its version, schemas, digest, ACCEPT table and content. -/
structure Img where
  version : Nat := 0
  schema : Nat := 0
  schemaMin : Nat := 0
  digest : Nat := 0
  accept : List (Nat × Nat × Nat) := []
  addr : Nat := 0
  len : Nat := 0
  fields : SMap Nat := []
  deriving DecidableEq, Repr

/-- A load in progress (R359). -/
structure LoadRun where
  kind : Nat
  addr : Nat
  len : Nat
  deriving DecidableEq, Repr

/-- A prefect's own state beside PREFECT_STATUSp (R352, R353): the times of the counted
restarts, the faults of its components, the sections that started cold at its last restart. -/
structure Prefect where
  counted : List Nat := []
  compFaults : SMap (List Nat) := []
  cold : List Nat := []
  deriving DecidableEq, Repr

/-- Firmware (R349 to R376): the load in progress, a firmware image verified before stage 1, the image that runs, the staged
image, the configuration image and the beat at which it takes effect, an activation in progress and since when, a deferred
activation, committed activations by change, the prefects, the section schemas of the handover record, its sequence; the part's stepping bit, the state and serial
number of its EEPROM and its factory trims (R358). -/
structure FwSt where
  run : Option LoadRun := none
  waiting : Option Img := none
  running : Option Img := none
  staged : Option Img := none
  config : Option Img := none
  configBeat : Option Nat := none
  activating : Option Nat := none
  deferred : Option Nat := none
  committed : List (Nat × Nat) := []
  prefects : SMap Prefect := []
  sections : List (Nat × Nat) := []
  recordSchema : Nat := 0
  handoverSeq : Nat := 0
  stepping : Nat := 1
  eepromOk : Bool := true
  serial : Nat := 0
  trims : SMap Int := []
  deriving DecidableEq, Repr

/-- Start-up, supply and ladder state (R377 to R396): whether the part has started, when, the stage conditions, the guard's
entry, the monitors below warning (bit n rail n, bit 8 the 12 V input; on a step core bit n SUP_WARN_N[n]), when they last moved, the
ladder units with their rung and the time since which they idle there, tier B in self-refresh, an archive retained across the reset. -/
structure StartSt where
  on : Bool := false
  startNow : Nat := 0
  tierA : Bool := false
  tierB : Bool := false
  ready : Bool := false
  guardHt : Nat := 0
  guardNow : Nat := 0
  warn : Nat := 0
  lastWarn : Nat := 0
  rungs : SMap (Nat × Nat) := []
  refresh : Bool := false
  retained : Bool := false
  deriving DecidableEq, Repr

/-- One FAULT event of the fault log (R398). -/
structure FaultEv where
  cls : Nat
  act : Nat
  obj : Nat
  ht32 : Nat
  deriving DecidableEq, Repr

/-- The emergency of a unit (R342): the conditions in force as bits, the HT at which none held any longer. -/
structure EmergSt where
  conds : Nat := 0
  startHt : Nat := 0
  endNow : Option Nat := none
  deriving DecidableEq, Repr

/-- One reference input as the timing block measures it (R58 to R68, R80, R410): the HT of the last PPS edge and of the rising edge of its 10 MHz input next to it, whether any
edge has been stamped, since when it is qualified, whether it stands refused, an acceptance pending (KEEP or not, the offset), since when the revertive wait
counts, until when a drill treats it as disqualified. -/
structure RefSt where
  edgeHt : Nat := 0
  cycHt : Nat := 0
  edged : Bool := false
  qualNow : Nat := 0
  refused : Bool := false
  accept : Option (Bool × Int) := none
  wtrFrom : Option Nat := none
  drillUntil : Nat := 0
  deriving DecidableEq, Repr

/-- One 16 s gate that P1 has learned from (R71): when it ended, the OCXO's fractional frequency offset over it in 1e-15, the temperature in 0.01 °C. -/
structure LearnGate where
  now : Nat
  y : Int
  temp : Int
  deriving DecidableEq, Repr

/-- The holdover engine (R70, R71): the HT of entry, the temperature in 0.01 °C and when it was last read, the learned temperature span, the
gates of the last 7 days, newest first, the gates learned since power-good, the quality that learning has reached. -/
structure HoldSt where
  gates : List LearnGate := []
  learned : Nat := 0
  quality : Nat := 0

  entryHt : Nat := 0
  temp : Int := 0
  tempNow : Nat := 0
  failing : Bool := false
  spanLo : Int := 0
  spanHi : Int := 0
  mirrorFree : Bool := false
  rejoinRun : Nat := 0
  deriving DecidableEq, Repr

/-- The PTP clock (R77, R78): the masters heard, each with when it was last heard, the last exchanges, newest first, the run of measurements within ±10 µs, the
UTC offset, when the last valid exchange was taken. -/
structure PtpSt where
  masters : List (PtpMaster × Nat) := []
  hist : List (Nat × Nat) := []
  run : Nat := 0
  utcOffset : Int := 0
  ever : Bool := false
  lastNow : Nat := 0
  deriving DecidableEq, Repr

/-- One timing output (R79 to R83), times in 0.25 ns of HT: the pulses emitted, the last one, the phase it holds in HOLD (against the HT second), the move in progress
with its start and whether it steps, whether its reference has qualified since ENABLE, the last frame, until when it is high, from when a FREQ_OUT is unmuted. -/
structure OutSt where
  moveFrom : Nat := 0
  startsAt : Option Nat := none
  pulses : Nat := 0
  lastPulse : Nat := 0
  phase : Int := 0
  moveTo : Option Int := none
  step : Bool := false
  armed : Bool := false
  frameOut : List Byte := []
  highUntil : Nat := 0
  deriving DecidableEq, Repr

/-- A word sent and not yet acknowledged (R123): its LSEQ, the beat it was sent in, the word. -/
structure Sent where
  lseq : Nat
  beat : Nat
  word : CtlWord
  deriving DecidableEq, Repr

/-- A body being received (R260, R264): the words in hand, the requests sent, the beat of the next check. -/
structure RxBody where
  fkind : Nat
  job : Nat
  tag : Nat
  body : Body := {}
  words : Nat := 0
  total : Option Nat := none
  requests : Nat := 0
  dueBeat : Nat := 0
  lost : Bool := false
  named : Bool := false
  retried : Bool := false
  deriving DecidableEq, Repr

/-- A body held for sending or for repeats (R262, R264): the fragments go out from word `at_` on. -/
structure TxBody where
  fkind : Nat
  job : Nat
  tag : Nat
  body : Body
  at_ : Nat := 0
  sentBeat : Option Nat := none
  hslot : Nat := 0
  epoch : Nat := 0
  have_ : Nat := 0
  gone : Bool := false
  deriving DecidableEq, Repr

/-- One timing exchange at this end (R126, R127, R129): the beat, the offset without steering and the mean delay in
2^-16 ns. -/
structure Exchange where
  beat : Int
  theta : Int
  delay : Int
  deriving DecidableEq, Repr

/-- A calibration record (R134), with the medium it was taken on (R379). -/
structure CalRec where
  basis : Nat := 0
  medAsym : Int := 0
  wave : Int := 0
  dCal : Int := 0
  roll : Nat := 0
  position : Nat := 0
  optical : Bool := false
  deriving DecidableEq, Repr

/-- A reflectometry run (R132): this end's slices done, the sum of its delays in ps, the beat of its next slice, the far end's average, the beats (low 16 bits) in which the far end has
announced slices. -/
structure CalRun where
  slices : Nat := 0
  sum : Int := 0
  nextBeat : Nat := 0
  farAvg : Option Int := none
  far : List Nat := []
  deriving DecidableEq, Repr

/-- Where the standby one of a pair of TDCs stands (R98, R99). -/
inductive CalStep where
  | idle
  | density
  | check
  | swapReady
  deriving DecidableEq, Repr

/-- Two identical TDCs, the main and its twin (R87, R90, R98 to R100): their tables (hits a bin), when each table was taken, which of the two is the main; the calibration of the twin with the
differences of its parallel check; when the last swap was and the die temperature then and last read (0.01 °C); the failures in a row, a request that is queued, a swap whose record is still
owed (with its CHECKED). -/
structure TdcPair where
  main : List Nat := List.replicate 256 4096
  twin : List Nat := List.replicate 256 4096
  mainNow : Nat := 0
  twinNow : Nat := 0
  active : Nat := 0
  cal : CalStep := .idle
  checked : Bool := false
  diffs : List Int := []
  checkFrom : Nat := 0
  swapNow : Nat := 0
  swapTemp : Int := 0
  temp : Int := 0
  fails : Nat := 0
  fault : Bool := false
  queued : Bool := false
  owed : Option Bool := none
  deriving DecidableEq, Repr

/-- One end of a link, tick link or package port (R116 to R162, R235, R262, R448): words waiting, sent and expected; frame lock; the far end's block and the stamps of the exchange; the filter; causes of
SUSPECT; timers with the time spent in holds; payload split, swap, calibration; tunnel, bodies, records and rules to send, with what a carrier displaced; the frame last sent and the levels it
stands in on the lane (on a package port the bits of its slots); telemetry; liveness, with the beat at which a package whose link is lost is marked absent; the lane TDC with its twin, precoding as agreed in training. -/
structure Link where
  txq : List CtlWord := []
  out : List Sent := []
  nextLseq : Nat := 0
  rxNext : Nat := 0
  lockRun : Nat := 0
  missRun : Nat := 0
  hdrBad : Nat := 0
  far : LinkBlk := {}
  farHeard : Bool := false
  echoTx : Nat := 0
  echoRx : Nat := 0
  echoOk : Bool := false
  sentStamps : List (Nat × Nat × Nat) := []
  exch : List Exchange := []
  applied : Int := 0
  theta : Int := 0
  slope : Int := 0
  slopeRef : Int := 0
  delay : Int := 0
  stableRun : Nat := 0
  jumps : List Bool := []
  uncorr : List Nat := []
  resid : Int := 0
  residRun : Nat := 0
  clearRun : Nat := 0
  enteredNow : Nat := 0
  backoffUntil : Nat := 0
  fails : Nat := 0
  alignedBeat : Nat := 0
  echoRun : Nat := 0
  payNext : Nat := 0
  payAt : Nat := 0
  payAnn : Bool := false
  swapAt : Option Nat := none
  swapBack : Bool := false
  faulty : Bool := false
  cal : Option CalRec := none
  storedCal : Option CalRec := none
  calRun : Option CalRun := none
  calWant : Bool := false
  lastBellBeat : Nat := 0
  tunnel : List TunMsg := []
  tunSent : Nat := 0
  tunIn : List TunMsg := []
  txBodies : List TxBody := []
  rxBodies : List RxBody := []
  attOut : List Rec := []
  rulesOut : List RuleRec := []
  lastTx : Option Frame := none
  tel : Telemetry := {}
  telOut : Telemetry := {}
  sentByJob : SMap Nat := []
  lvSeq : Nat := 0
  lvMiss : Nat := 0
  alive : Nat := 0
  monitorUp : Bool := false
  held : Bool := false
  goneAt : Option Nat := none
  silent : Bool := false
  recoveryMask : Nat := 0
  leftHt32 : Nat := 0
  echo2 : Option (Nat × Nat) := none
  echoClean : Bool := true
  echoClean2 : Bool := true
  dirty : List Nat := []
  resend : Option Nat := none
  outFull : Nat := 0
  payCur : Nat := 36
  reverse : Option (Int × Nat) := none
  spareFailed : Bool := false
  alignedEver : Bool := false
  storeHeld : Bool := false
  moduleHere : Bool := false
  tdc : TdcPair := {}
  precode : Bool := false
  farSwapAt : Option Nat := none
  symErr : List Nat := []
  pins : Nat := 0
  payBack : List Fragment := []
  recBack : List (List Rec) := []
  ruleBack : List (List RuleRec) := []
  slotBack : List (Nat × Nat × Nat) := []
  stream : Nat × Nat := (0, 0)
  rawRecs : List Nat := []
  kindTurn : Nat := 0
  heldNs : Nat := 0
  heldFrom : Option Nat := none
  heldModel : Bool := false
  deriving DecidableEq, Repr

/-! The hall at a distributor (chapter 8). -/

/-- The hall part of a distributor: slots, jobs, free list, homing map; at a leaf the mode it has been told, the mode it runs in, the packages it carries (a mask of ports), whether
its peer lanes join leaves that are no pair (R17), the dies alive at the partner by port (R25); at a mid the packages that a dual-homed leaf does not carry, by leaf port (R20, R223); suspicion
by roll, bell lead reports, words accepted from links and awaiting their own commands, ROOT_STATE reports, formation. -/
structure HallSt where
  slots : SMap HSlot := []
  jobs : SMap Job := []
  freed : List Nat := []
  neverUsed : Nat := 0
  homing : Nat := 0
  dualHere : Bool := false
  homingSet : Bool := false
  mismatch : Bool := false
  carrying : Nat := 2 ^ 64 - 1
  partnerAlive : SMap Nat := []
  holdq : List (Nat × CtlWord) := []
  suspects : SMap Nat := []
  shorter : List Nat := []
  leadWas : Nat × Nat := (0, 0)
  portDn : SMap Nat := []
  rootStates : SMap (Nat × Nat × Nat × Nat × Nat) := []
  mirrorGoneNow : Option Nat := none
  mirrorGoneMids : Nat := 0
  promoteAt : Option Nat := none
  otherPromo : Option Nat := none
  otherFormed : Bool := false
  seatConflict : Bool := false
  homingMap : SMap Bool := []
  formKind : Nat := 0
  formAt : Nat := 0
  formBox : Option Nat := none
  formHoming : Option (List Byte) := none
  aliveOf : SMap Nat := []
  prefixOk : Bool := false
  away : SMap Nat := []
  bodyWait : List (Nat × CtlWord) := []
  deriving DecidableEq, Repr

/-! The memory tiers (chapter 10). -/

/-- An attendance block (R297): records in the order received. -/
structure Block where
  seq : Nat := 0
  gapBefore : Bool := false
  guard : Bool := false
  bad : Bool := false
  anchor : Nat := 0
  stat : Nat := 0
  openNow : Nat := 0
  roll : Nat := 0
  role : Nat := 0
  lost : Nat := 0
  wall : Nat := 0
  wallStale : Bool := false
  recs : List Rec := []
  deriving DecidableEq, Repr

/-- A block in the tier B archive (R299): its frame's length, whether it is stored raw, the channel that holds it. -/
structure Archived where
  block : Block
  len : Nat
  raw : Bool
  channel : Nat
  gone : Bool := false
  deriving DecidableEq, Repr

/-- The attendance register at a distributor (R294 to R306): the open block, the hot ring, the spill buffer and the archive
(oldest first), the next sequence, token buckets by job, matches counted by rule, rule changes, the window. -/
structure Archive where
  cur : Option Block := none
  ring : List Block := []
  spill : List Block := []
  arch : List Archived := []
  nextSeq : Nat := 0
  lost : Nat := 0
  gapNext : Bool := false
  archGap : Bool := false
  tokens : SMap Nat := []
  matches_ : SMap Nat := []
  ruleSeq : Nat := 0
  remapping : Bool := false
  window : Option Block := none
  rowCe : SMap (List Nat) := []
  ueTimes : SMap (List (Nat × Nat)) := []
  rowsUsed : SMap Nat := []
  capBlocks : Nat := 0
  dimmGib : Nat := 0
  reserveGib : Nat := 0
  ruleBeat : Option Nat := none
  deriving DecidableEq, Repr

/-- The attendance side of a step core (R298, R303): records unsent with their arrival, the drop to report, rule sets. -/
structure DieAtt where
  buf : List (Rec × Nat) := []
  lost : Nat := 0
  inUse : List RuleRec := []
  inUseSeq : Option Nat := none
  coming : SMap RuleRec := []
  comingSeq : Nat := 0
  fullBeat : Nat := 0
  matches_ : SMap Nat := []
  deriving DecidableEq, Repr

/-! Payload at a distributor (chapter 9) and spares and drills (chapter 15). -/

/-- A reduction pipe (R274, R403): its fault cells by band × 4 + class. -/
structure Pipe where
  cells : SMap Nat := []
  busy : Nat := 0
  load : Nat := 0
  deriving DecidableEq, Repr

/-- A combine or conversion on a pipe (R274, R275): the pipe, the slot, the port of the partial (64 or more: the root's
conversion), the body, whether it is the second run. -/
structure Combine where
  pipe : Nat
  hslot : Nat
  port : Nat
  body : Body
  late : Bool := false
  second : Bool := false
  word : Option (Nat × CtlWord) := none
  done : Option (Nat × Nat × Nat × Nat) := none
  fin : Bool := false
  deriving DecidableEq, Repr

/-- A drill (R410): type, target, the HT of its start, its limit's end in elapsed ns. -/
structure Drill where
  type : Nat
  target : Nat
  ht32 : Nat
  until_ : Nat
  deriving DecidableEq, Repr

/-- Spares, self-tests, drills (R400 to R414). -/
structure SpareSt where
  temp : Int := 0
  band : Nat := 0
  pipes : SMap Pipe := []
  combines : List Combine := []
  tableDirty : Option Nat := none
  eepromTable : SMap Nat := []
  running : Option Drill := none
  drillLog : List (Nat × Nat × Nat × Nat) := []
  nextType : Nat := 0
  drillDue : Bool := false
  nextPrefect : Nat := 1
  stackFailed : Bool := false
  consentDefault : Nat := 0x3F
  forceMismatch : Bool := false
  drillSeen : Nat := 0
  deriving DecidableEq, Repr
/-! Measurement (chapter 4). -/

/-- A running line fit (R95, R96): the anchor stamp, the last accepted stamp and its index, the sums, the consecutive exclusions,
the exclusions of the gate, whether the gate re-anchored. Stamps are in 2^-16 ns. -/
structure Fit where
  anchor : Option Nat := none
  lastT : Nat := 0
  x : Nat := 0
  n : Nat := 0
  sx : Nat := 0
  sxx : Nat := 0
  se : Int := 0
  sxe : Int := 0
  see : Int := 0
  exclRun : Nat := 0
  excluded : Nat := 0
  reanchored : Bool := false
  deriving DecidableEq, Repr

/-- A record that waits for a slot of a channel's queue (R91, R92): a run of lost edges (cause 0 OVF, 1 MISS) or, with `raw`, a
finished SWAP record. -/
structure PendRec where
  cause : Nat := 0
  ns : Nat := 0
  lost : Nat := 0
  seq : Nat := 0
  flags : Nat := 0
  raw : Option Nat := none
  deriving DecidableEq, Repr

/-- A TDC channel (R87 to R100): the serial counter, the last stamp, until when its front buffer is busy, records waiting and
queued, the fit, the gate in progress (start, length in force, partial, swap seen), the host ring, the two TDCs. -/
structure TdcCh where
  seq : Nat := 0
  lastStamp : Option Nat := none
  busyUntil : Nat := 0
  pend : List PendRec := []
  queue : List Nat := []
  fit : Fit := {}
  gateFrom : Nat := 0
  gateLen : Nat := 0
  gatePartial : Bool := false
  swapIn : Bool := false
  ringBase : Nat := 0
  ringLog2 : Nat := 0
  ringWb : Nat := 0
  wr : Nat := 0
  rd : Nat := 0
  pair : TdcPair := {}
  deriving DecidableEq, Repr

/-- Mains sensing (R101 to R107): per input the last accepted crossing and the fit; the gate in progress; the mains frequency of
the last gates, newest first, where valid. -/
structure MainsSt where
  last : SMap Nat := []
  fits : SMap Fit := []
  gateFrom : Nat := 0
  gateLen : Nat := 0
  hist : List (Option Nat) := []
  deriving DecidableEq, Repr

/-! The step core (chapters 6 and 7). -/

/-- A heartbeat message (R151). -/
inductive HbMsg where
  | none
  | time (beat : Nat)
  | timeTop (top : Nat)
  | strobeArm (slot target : Nat)
  | oppArm (point at_ : Nat) (cancel : Bool)
  | delay (d : Nat)
  | control (dead : Nat)
  deriving DecidableEq, Repr

/-- A heartbeat word on its wire (R151): the boundary at which it was launched, the status bits, HB_IDX, the message and which copy
of a repeated message it is. -/
structure HbWord where
  ht : Nat := 0
  idx : Nat := 0
  joined : Bool := false
  unaligned : Bool := false
  holdover : Bool := false
  slewing : Bool := false
  msg : HbMsg := .none
  copy : Nat := 0
  deriving DecidableEq, Repr

/-- A target armed on a strobe slot (R164): its HT integer, the slot's SOURCE and JOB when it was armed. -/
structure Target where
  ht : Nat
  source : Nat
  job : Nat
  deriving DecidableEq, Repr

/-- States of a barrier slot (R185). -/
inductive SlotState where
  | free
  | counting
  | sent
  | stale
  deriving DecidableEq, Repr

/-- Where a slot lives (R187): at the hub by physical index, or at a station. -/
inductive SlotRef where
  | hub (i : Nat)
  | region (st k : Nat)
  deriving DecidableEq, Repr

/-- A barrier slot (R185): SCOPE 0 REGION, 1 DIE, 2 PACKAGE, 3 HALL; the maps hold queue bits 0 to 127 and the host's bit 128;
`waits` and `hostWaits` give the epoch each stalled queue or host-wait entry waits for; the last signaller, the last DONE,
the owner; what payload arrivals have combined (chapter 9); `local_` is false at a lead die evicted alone (R222). -/
structure Slot where
  state : SlotState := .free
  scope : Nat := 0
  headcount : Nat := 0
  part : Nat := 0
  arr : Nat := 0
  early : Nat := 0
  e : Nat := 1
  missing : Nat := 0
  waits : SMap Nat := []
  hostWaits : SMap Nat := []
  sigKind : Nat := 0
  sigIdx : Nat := 0
  sigHt32 : Nat := 0
  sigStamp : Nat := 0
  gen : Nat := 0
  name : Nat := 0
  dieMask : Nat := 0
  dieArr : Nat := 0
  dieEarly : Nat := 0
  misuse : Nat := 0
  doneContrib : Nat := 0
  doneHash : Nat := 0
  doneFlags : Nat := 0
  ctx : Nat := 0
  handle : Nat := 0
  job : Nat := 0
  local_ : Bool := true
  acc : Body := {}
  hasAcc : Bool := false
  earlyAcc : SMap Body := []
  retried : Nat := 0
  deriving DecidableEq, Repr

/-- A station (R149): region time at its last edge in 2^-16 ns and whether it is valid, the loop of R155, HB_DELAY in 0.1 ps, the
hub's round trips and the delay it last sent, the hits by tap of the phase detector's table in use (none: the nominal taps) and of the one being taken (R154), the last TIME and TIME_TOP, the word on the wire, the hub's messages to it
with their copies, the status bits last received, the loss being watched (R159), the operating point and its arm, armed
strobe targets, pulses, STROBE_LATE and STROBE_UNREL as the last pulse gave them, SLIP, the counts of R177, region slots and their free list. -/
structure Station where
  rt : Nat := 0
  taps : List Nat := []
  tapHits : SMap Nat := []
  tapCount : Nat := 0
  valid : Bool := false
  pending : Int := 0
  rateTrim : Int := 0
  epsSum : Int := 0
  nHb : Nat := 0
  delay : Nat := 0
  trips : List Nat := []
  sentDelay : Nat := 0
  lastBeat : Option Nat := none
  lastTop : Option Nat := none
  word : HbWord := {}
  outq : List (HbMsg × Nat) := []
  armTaken : Bool := false
  joined : Bool := false
  unaligned : Bool := false
  holdover : Bool := false
  slewing : Bool := false
  missRun : Nat := 0
  clkLost : Bool := false
  lossHt : Option Nat := none
  restoreHt : Option Nat := none
  goodRun : Nat := 0
  dead : Nat := 0
  point : Nat := 0
  opp : Option (Nat × Nat) := none
  sel : Nat := 0
  goPulses : Nat := 0
  targets : SMap (List Target) := []
  shot : Nat := 0
  pulses : SMap Nat := []
  strobeLate : Bool := false
  strobeUnrel : Bool := false
  slip : Nat := 0
  debtSum : Nat := 0
  orderLate : Nat := 0
  strobeLost : Nat := 0
  strobeClr : Nat := 0
  slots : SMap Slot := []
  freed : List (Nat × Nat) := []
  deriving DecidableEq, Repr

/-- A pending operating-point switch (R171). -/
structure OppSw where
  point : Nat
  at_ : Nat
  tt : Bool
  deriving DecidableEq, Repr

/-- The hub's operating-point state (R170 to R173): the pending switch, whether its arms have been sent, the stations that have pulsed OPP_GO for it; after a
lost arm of a die-local switch its point, its AT and the stations that missed the cancel (R173); the switches that a timetable change replaced. -/
structure OppSt where
  pending : Option OppSw := none
  armed : Bool := false
  went : Nat := 0
  split : Option (Nat × Nat × Nat) := none
  replaced : Nat := 0
  deriving DecidableEq, Repr

/-- Where an entry of a queue stands: behind the head, stalled at the head, or past the head awaiting its outcome. -/
inductive QPhase where
  | queued
  | stalled
  | passed
  deriving DecidableEq, Repr

/-- An accepted command (R179): tag, the 64 bits, its phase, its outcome (status and flags), whether it was unfenced, the launch
target of a WAIT_BELL or WAIT_TIME. -/
structure QEntry where
  tag : Nat
  cmd : Nat
  phase : QPhase := .queued
  out : Option (Nat × Nat) := none
  unfenced : Bool := false
  target : Option Nat := none
  deriving DecidableEq, Repr

/-- A sync queue (R178 to R184): entries, the next tag, FENCED, LAST_H and LAST_EP, DRAIN_REQ, the releases given (tag, status,
flags), newest first. -/
structure SQueue where
  entries : List QEntry := []
  nextTag : Nat := 0
  fenced : Bool := false
  last : Option (Nat × Nat) := none
  drainReq : Bool := false
  rels : List (Nat × Nat × Nat) := []
  deriving DecidableEq, Repr

/-- Where a sync event is (R167, R168): in the output buffer of a station, in the crossing from one station to the next, or in the hub's reorder stage. -/
inductive EvAt where
  | buf (n : Nat)
  | hop (n m : Nat)
  | hub
  deriving DecidableEq, Repr

/-- What a sync event tells the hub (R152, R167): a queue's command with its tag and the queue's BIND_GEN, the completion of a region's count, an arm whose three copies were lost,
an attendance record. -/
inductive EvBody where
  | cmd (q tag bindGen cmd : Nat)
  | regionDone (ctx : Nat)
  | armLost (m : HbMsg)
  | record (x : Rec)
  deriving DecidableEq, Repr

/-- A sync event (R169): source region, 48-bit stamp, content, place, the HT integer at which it entered the reorder stage. -/
structure HubEv where
  src : Nat
  stamp : Nat
  body : EvBody
  at_ : EvAt := .hub
  entered : Nat := 0
  deriving DecidableEq, Repr

/-- A release on its way from the hub to a station (R201). -/
structure HubRel where
  q : Nat
  tag : Nat
  bindGen : Nat
  status : Nat
  flags : Nat := 0
  deriving DecidableEq, Repr

/-- A context clear in progress (R203): the outgoing context, the incoming one and the queue mask of a switch, the mailbox that
waits, the queues that were bound to the outgoing context. -/
structure ClearRun where
  ctx : Nat
  next : Option (Nat × Nat) := none
  box : Nat
  queues : Nat := 0
  deriving DecidableEq, Repr

/-- What the monitor keeps of a context (R211): when an arrival was last applied, since when every bound queue's head is
stalled. -/
structure MonCtx where
  lastArr : Option Nat := none
  stalled : Option Nat := none
  deriving DecidableEq, Repr

/-- A bell received and not yet fired at the die (R243). -/
structure DieBell where
  word : BellWord
  ht : Nat
  late : Bool := false
  deriving DecidableEq, Repr

/-- Queues, hub slots, handles, events and releases in flight, host waits, the clear, the monitor (chapter 7); the last
heartbeat's boundary and the station whose round trip comes next (R153); bells pending; at a lead die, members of its package by
job (mask of dies) and their generations; reporting dies by job (R212). -/
structure SyncSt where
  queues : SMap SQueue := []
  slots : SMap Slot := []
  freed : List (Nat × Nat) := []
  handles : SMap SlotRef := []
  events : List HubEv := []
  lastStamp : Option Nat := none
  rels : List HubRel := []
  hostLast : Option (Nat × Nat) := none
  clear : Option ClearRun := none
  mon : SMap MonCtx := []
  lastHb : Option Nat := none
  turn : Nat := 0
  bells : List DieBell := []
  pkgMembers : SMap Nat := []
  done : List (Nat × Nat) := []
  deriving DecidableEq, Repr


/-! Timetable changes (chapter 11). -/

/-! Payload and checker at the die (chapter 9). -/

/-- A descriptor in flight (R251 to R259): the entry, the queue's command, the slot and the epoch it arrives for, whether its reads
are still out, the status it will be released with if it is already known to be none of OK, its fields, what its partial turned out to
be. -/
structure Desc where
  idx : Nat
  q : Nat
  tag : Nat
  ctx : Nat
  ref : SlotRef
  handle : Nat
  hslot : Nat
  epoch : Nat
  job : Nat
  reading : Bool := true
  bucket : Nat := 0
  dst : Nat := 0
  status : Nat := 0
  statusOk : Bool := false
  srcFault : Bool := false
  suppressed : Bool := false
  reject : Nat := 0
  deriving DecidableEq, Repr

/-- A CLOSE received at the die (R258): its fields, the result body once it is whole, whether the result
is lost. -/
structure CloseIn where
  job : Nat
  seq : Nat
  bucket : Nat
  epoch : Nat
  contrib : Nat
  hash : Nat
  flags : Nat
  body : Option Body := none
  lost : Bool := false
  deriving DecidableEq, Repr

/-- A DONE held until the result of its epoch has been written (R258). -/
structure HeldDone where
  ref : SlotRef
  epoch : Nat
  contrib : Nat
  hash : Nat
  flags : Nat
  deriving DecidableEq, Repr

/-- The payload engine and the checker: descriptors in flight, closes in sequence order, held DONEs, arrivals of package dies that
wait for their bodies, the checker's running value and its latch. -/
structure PaySt where
  descs : List Desc := []
  closes : List CloseIn := []
  held : List HeldDone := []
  bodyWait : List (Nat × CtlWord) := []
  chk : Nat := 0
  chkLatch : Nat := 0
  deriving DecidableEq, Repr

/-! Hall power (chapter 12). -/

/-- Power at the die: FLOOR words that wait for their AT_BEAT (job, level byte, RECESS, beat), the last valid sample, the sum of the
package's samples for a report beat. -/
structure DiePwr where
  floors : List (Nat × Nat × Bool × Nat) := []
  sample : Option Nat := none
  reports : SMap (Nat × Nat) := []
  deriving DecidableEq, Repr


/-! The whole. -/

/-- What both parts have: the register file, the HT counter, the slate, firmware, start-up, the links by position, the fault log
(newest first), the emergency, the control words accepted from links that have not yet been applied, timetable changes, the self-tests
queued, by kind (R409), the timing block's TDC with its twin (R90), and, the model's own, the beat in which each periodic event last acted (log entry 30). -/
structure Common where
  regs : SMap Nat := []
  clock : Clock := {}
  slate : SlateSt := {}
  fw : FwSt := {}
  start : StartSt := {}
  links : SMap Link := []
  faults : List FaultEv := []
  emerg : EmergSt := {}
  inbox : List (Nat × CtlWord) := []
  tt : TtSt := {}
  tests : List (Nat × Nat) := []
  timing : TdcPair := {}
  lastDone : SMap Nat := []
  tested : SMap Nat := []
  deriving DecidableEq, Repr

/-- What only the distributor has. -/
structure Dist where
  variant : Variant := .vxd2880
  refA : RefSt := {}
  refB : RefSt := {}
  hold : HoldSt := {}
  ptp : PtpSt := {}
  outs : SMap OutSt := []
  tdc : SMap TdcCh := []
  tdcTurn : Nat := 0
  mains : MainsSt := {}
  hall : HallSt := {}
  sb : StudBook := {}
  arch : Archive := {}
  spare : SpareSt := {}
  power : PowerSt := {}
  mirrorTt : TtSt := {}
  deriving DecidableEq, Repr

/-- What only the step core has: its generated configuration (R4), its place in the package, and its units. -/
structure Die where
  stations : Nat := 256
  queues : Nat := 128
  payload : Bool := true
  checker : Bool := true
  pkgPort : Bool := true
  tlPorts : Nat := 2
  pkgIndex : Nat := 0
  pkgDies : Nat := 8
  timePort : Nat := 0
  coreHold : Bool := false
  holdRun : Nat := 0
  loopTrim : Nat := 0
  gridCols : Nat := 16
  running : Bool := false
  hbOmit : SMap Nat := []
  att : DieAtt := {}
  stn : SMap Station := []
  opp : OppSt := {}
  sync : SyncSt := {}
  pay : PaySt := {}
  pwr : DiePwr := {}
  deriving DecidableEq, Repr

/-- The distributor's MSI-X vectors (R430): masked vectors, pending bits, messages sent by vector. -/
structure Msix where
  masked : Nat := 255
  pending : Nat := 0
  sent : SMap Nat := []
  deriving DecidableEq, Repr

/-- The block. `now` is the time elapsed in ns, `free` the counter behind the free values (log entry 1), `die` memory and host
memory are the memories the parts reach by DMA, `pending` the queue of waiting commands, first in, first out. -/
structure State where
  now : Nat := 0
  free : Nat := 0
  fd : Common := {}
  sc : Common := {}
  dist : Dist := {}
  die : Die := {}
  msix : Msix := {}
  dieMem : Memory := []
  hostMem : Memory := []
  pending : List Instr := []
  deriving DecidableEq, Repr

/-- Reasons to stop with a fault: none of the block's commands stops so in this model. -/
inductive Fault where
  /-- Raised by no meaning; kept because an access outside both memories' 64-bit address space would be one. Safe: the
  machine would stop where the hardware's behaviour is not stated (R8). -/
  | outOfSpace
  deriving DecidableEq, Repr

/-- Reasons to refuse a command. -/
inductive Refusal where
  /-- Raised by an arm of `exec` that has no meaning yet. Safe: nothing is claimed of it. -/
  | notModelled (mnemonic : String)
  deriving DecidableEq, Repr

/-- The block right after reset: both parts unpowered or held in reset, every register at its reset value, nothing
joined, no memory listed, no command waiting. The distributor is a VXD-2880 and the step core the full configuration of R4, a lead die (log
entry 8). -/
def State.reset : State :=
  { fd := { regs := fdIdent .vxd2880 }
    sc := { regs := scIdent 256 128 2 true true true, fw := { stepping := 0 } } }

end Sys2Proof.Machine
end

