-- ==== Sys2Proof/Machine/Ops.lean ====
section
/-! DEFINITION. The named operations over the state: a part's registers, its time, alerts and interrupts (R426, R430), fault
events (R397, R398), free values, bytes written to memories. -/

namespace Sys2Proof.Machine

open Sys2Proof

/-! Parts and registers. -/

/-- A part's share of the state. -/
def State.unit (p : Part) (s : State) : Common :=
  match p with
  | .fd => s.fd
  | .sc => s.sc

/-- The state with a part's share replaced. -/
def State.setUnit (p : Part) (u : Common) (s : State) : State :=
  match p with
  | .fd => { s with fd := u }
  | .sc => { s with sc := u }

/-- The state with what only the distributor has replaced. -/
def State.setDist (d : Dist) (s : State) : State := { s with dist := d }

/-- The state with what only the step core has replaced. -/
def State.setDie (d : Die) (s : State) : State := { s with die := d }

/-- The state with the MSI-X vectors replaced. -/
def State.setMsix (m : Msix) (s : State) : State := { s with msix := m }

/-- A register field's value. -/
def State.get (p : Part) (f : Field) (s : State) : Nat := fieldGet f (s.unit p).regs

/-- The state with a register field set; the value is cut to the field's width. -/
def State.put (p : Part) (f : Field) (v : Nat) (s : State) : State :=
  s.setUnit p { s.unit p with regs := fieldSet f v (s.unit p).regs }

/-- A one-bit field as a flag. -/
def State.flag (p : Part) (f : Field) (s : State) : Bool := s.get p f != 0

/-- The state with a one-bit field set to a flag. -/
def State.putFlag (p : Part) (f : Field) (b : Bool) (s : State) : State := s.put p f (ofBool b)

/-- A signed field's value. -/
def State.getS (p : Part) (f : Field) (s : State) : Int := toSigned f.width (s.get p f)

/-- The state with a signed field set. -/
def State.putS (p : Part) (f : Field) (i : Int) (s : State) : State := s.put p f (ofSigned f.width i)

/-- A saturating counter field raised by `n` (R421). -/
def State.bump (p : Part) (f : Field) (s : State) (n : Nat := 1) : State := s.put p f (sat f.width (s.get p f + n))

/-- A part's link at a position. -/
def State.link (p : Part) (n : Nat) (s : State) : Link := SMap.get {} n (s.unit p).links

/-- The state with a part's link at a position replaced. -/
def State.setLink (p : Part) (n : Nat) (l : Link) (s : State) : State :=
  s.setUnit p { s.unit p with links := SMap.set n l (s.unit p).links }

/-- The state with a part's link changed. -/
def State.modLink (p : Part) (n : Nat) (f : Link → Link) (s : State) : State := s.setLink p n (f (s.link p n))

/-- The state with a part's firmware state replaced. -/
def State.setFw (p : Part) (fw : FwSt) (s : State) : State := s.setUnit p { s.unit p with fw := fw }

/-- The state with a part's start state replaced. -/
def State.setStart (p : Part) (st : StartSt) (s : State) : State := s.setUnit p { s.unit p with start := st }

/-- The state with a part's slate state replaced. -/
def State.setSlate (p : Part) (sl : SlateSt) (s : State) : State := s.setUnit p { s.unit p with slate := sl }

/-- The state with the hall part replaced. -/
def State.setHall (h : HallSt) (s : State) : State := s.setDist { s.dist with hall := h }

/-- The state with the archive replaced. -/
def State.setArch (a : Archive) (s : State) : State := s.setDist { s.dist with arch := a }

/-- The state with the spares replaced. -/
def State.setSpare (a : SpareSt) (s : State) : State := s.setDist { s.dist with spare := a }

/-- The state with the stud book replaced. -/
def State.setSb (b : StudBook) (s : State) : State := s.setDist { s.dist with sb := b }

/-- A free value and the state that has used it up (log entry 1). -/
def State.fresh (s : State) : Nat × State := (Config.freeValue s.free, { s with free := s.free + 1 })

/-! Time (R37). -/

/-- One LSB of the HT fraction is 2^-16 ns. -/
def nsLsb : Nat := 65536

/-- A unit's HT80. -/
def State.ht (p : Part) (s : State) : Nat := (s.unit p).clock.ht

/-- A unit's HT integer. -/
def State.htNs (p : Part) (s : State) : Nat := s.ht p / nsLsb

/-- A unit's HT32. -/
def State.ht32 (p : Part) (s : State) : Nat := s.htNs p % 2 ^ 32

/-- A unit's beat number. -/
def State.beat (p : Part) (s : State) : Nat := s.htNs p / 1024

/-- The HT80 counter's span (R37, R48). -/
def htSpan : Nat := 2 ^ 80

/-- The first beat at or after an HT integer. -/
def beatAtOrAfter (ns : Nat) : Nat := ceilDiv ns 1024

/-- The status half-word of an HT snapshot, as FRAC_STAT[15:0] with LATCHED 0 (R38, R54). -/
def State.fracStat (p : Part) (s : State) : Nat :=
  2 * s.get p Rg.HT_JOINED + 4 * (if p = .fd then s.get p Rg.HT_FORMED else s.get p Rg.HT_JOINED) + 8 * s.get p Rg.HT_ALIGNED
    + 16 * s.get p Rg.HT_SLEWING + 32 * s.get p Rg.HT_HOLDOVER + 64 * s.get p Rg.HT_UNALIGNED + 128 * s.get p Rg.HT_HT_WRAP
    + 256 * s.get p Rg.HT_EPOCH_KIND

/-- HT80 in memory: the 16-byte form of R38. -/
def ht80Bytes (ht stat : Nat) : List Byte := leBytes 8 (ht / nsLsb) ++ leBytes 2 (ht % nsLsb) ++ leBytes 2 stat ++ leBytes 4 0

/-! Roles and jobs. -/

/-- The distributor's role (FD_REF_STATUS.ROLE): 0 unassigned, 1 active root, 2 standby root, 3 mid, 4 leaf. -/
def State.role (s : State) : Nat := s.get .fd Rg.REFS_ROLE

/-- The distributor takes a role, in both registers that report it (R85, R423). -/
def State.setRole (r : Nat) (s : State) : State := (s.put .fd Rg.REFS_ROLE r).put .fd Rg.ROLL_ROLE r

/-- The distributor is the active root. -/
def State.isActiveRoot (s : State) : Bool := s.role == 1

/-- A job's record at the distributor. -/
def State.job (j : Nat) (s : State) : Job := SMap.get {} j s.dist.hall.jobs

/-- The state with a job's record replaced. -/
def State.setJob (j : Nat) (b : Job) (s : State) : State :=
  s.setHall { s.dist.hall with jobs := SMap.set j b s.dist.hall.jobs }

/-- A hall slot of the distributor. -/
def State.slot (h : Nat) (s : State) : HSlot := SMap.get {} h s.dist.hall.slots

/-- The state with a hall slot replaced. -/
def State.setSlot (h : Nat) (v : HSlot) (s : State) : State :=
  s.setHall { s.dist.hall with slots := SMap.set h v s.dist.hall.slots }

/-- MEMBER_PORTS of a job (R220): the ports below which it has a member. -/
def Job.memberPorts (b : Job) : Nat := maskOf 64 fun p => SMap.get 0 p b.mcount != 0

/-- The members of a job at or below this unit. -/
def Job.memberCount (b : Job) : Nat := b.mcount.foldl (fun n e => n + e.2) 0

/-- R372: a live job on a distributor is one with a member; on a step core, a context bound to a job whose MEMBER is 1. -/
def State.liveJob (p : Part) (s : State) : Bool :=
  match p with
  | .fd => (List.range 64).any fun j => s.get .fd (Rg.JH_MEMBERS j) != 0
  | .sc => (List.range 64).any fun c => s.flag .sc (Rg.CTX_JOB_VALID c) && s.flag .sc (Rg.SJH_MEMBER (s.get .sc (Rg.CTX_JOB c)))

/-! Alerts and interrupts (R426, R430). -/

/-- ALERT_N asserted on the distributor, IRQ_ALERT high on the step core: any bit of ALERT set with its enable. -/
def State.alertLine (p : Part) (s : State) : Bool :=
  let en := s.get p Rg.ALERT_EN_EN
  (bit en 0 && s.flag p Rg.ALERT_RSVD_WRITE) || (bit en 1 && s.flag p Rg.ALERT_CABLING) || (bit en 2 && s.flag p Rg.ALERT_FAULT)
    || (bit en 3 && s.flag p Rg.ALERT_LEAD_HOLD) || (bit en 4 && s.flag p Rg.ALERT_CLOSE_GAP)

/-- The condition of the HBAR vector: an FD_HBAR_INT bit with its enable. -/
def State.hbarLine (s : State) : Bool :=
  (s.flag .fd Rg.HINT_UNRESOLVED && s.flag .fd Rg.HINTEN_UNRESOLVED) || (s.flag .fd Rg.HINT_SUSPECT_CHG && s.flag .fd Rg.HINTEN_SUSPECT_CHG)
    || (s.flag .fd Rg.HINT_JOB_DEADLOCK && s.flag .fd Rg.HINTEN_JOB_DEADLOCK) || (s.flag .fd Rg.HINT_QUORUM_WAIT && s.flag .fd Rg.HINTEN_QUORUM_WAIT)

/-- A mailbox is done and its command asked for the interrupt. -/
def State.mailLine (p : Part) (s : State) : Bool := (List.range 8).any fun m => s.flag p (Rg.MB_DONE m) && s.flag p (Rg.MB_IRQ_EN m)

/-- The condition of an MSI-X vector (R430). -/
def State.vectorCond (v : Nat) (s : State) : Bool :=
  if v = 0 then s.mailLine .fd else if v = 1 then s.hbarLine else if v = 2 then s.alertLine .fd else false

/-- A vector signalled: its message is sent, or its pending bit sets while it is masked. -/
def State.signal (v : Nat) (s : State) : State :=
  if bit s.msix.masked v then s.setMsix { s.msix with pending := setBit s.msix.pending v }
  else s.setMsix { s.msix with sent := SMap.set v (SMap.get 0 v s.msix.sent + 1) s.msix.sent }

/-- A vector is signalled when its condition has become true since `before`. -/
def State.signalRise (v : Nat) (s before : State) : State :=
  if s.vectorCond v && !before.vectorCond v then s.signal v else s

/-- An ALERT bit sets; a rise of ALERT_N's condition signals its vector. -/
def State.raise (p : Part) (f : Field) (s : State) : State := (s.put p f 1).signalRise 2 s

/-- An FD_HBAR_INT bit sets; a rise of the condition signals its vector. -/
def State.hbarInt (f : Field) (s : State) : State := (s.put .fd f 1).signalRise 1 s

/-- A breach of R10, R11, R13 or of another statement that names it. -/
def State.rsvd (p : Part) (s : State) : State := s.raise p Rg.ALERT_RSVD_WRITE

/-! Stages (R378, R382). -/

/-- The highest stage whose conditions, and those of every stage below it, hold. -/
def State.stageOf (p : Part) (s : State) : Nat :=
  let st := (s.unit p).start
  let one := match p with
    | .fd => st.tierA
    | .sc => s.flag .sc Rg.HT_JOINED && s.flag .sc Rg.SROLL_ROLL_VALID
  let two := s.flag p Rg.START_FW_UP
  if !one then 0 else if !two then 1 else if p = .fd && st.ready then 3 else 2

/-- START_STATUS brought up to date: STAGE, STAGE1_MET, FULL, and STAGE_MS when the stage has changed. -/
def State.restage (p : Part) (s : State) : State :=
  let old := s.get p Rg.START_STAGE
  let new := s.stageOf p
  let met := match p with
    | .fd => (s.unit p).start.tierA
    | .sc => s.flag .sc Rg.HT_JOINED && s.flag .sc Rg.SROLL_ROLL_VALID
  let s1 := (s.put p Rg.START_STAGE new).putFlag p Rg.START_STAGE1_MET met
  let s2 := s1.putFlag p Rg.START_FULL (p = .fd && new == 3)
  if old = new then s2 else s2.put p Rg.START_STAGE_MS (sat 16 ((s.now - (s.unit p).start.startNow) / 1000000))

/-- The prefect that runs a role (R349): the index whose ROLE field names it and which has not been retired. -/
def State.prefectOf (p : Part) (role : Nat) (s : State) : Option Nat :=
  (List.range (if p = .fd then 7 else 3)).find? fun i => s.get p (Rg.PREF_ROLE i) == role && s.get p (Rg.PREF_STATE i) != 5

/-- The prefect of a role is running. -/
def State.roleUp (p : Part) (role : Nat) (s : State) : Bool :=
  match s.prefectOf p role with
  | some i => s.get p (Rg.PREF_STATE i) == 2
  | none => false

/-- The condition of the FW_READY pin (R84): stage 2 or later, no prefect restart or activation in progress. On the step core
the same condition has no pin (R425). -/
def State.fwReady (p : Part) (s : State) : Bool :=
  decide (2 ≤ s.get p Rg.START_STAGE) && (List.range (if p = .fd then 7 else 3)).all fun i =>
    s.get p (Rg.PREF_STATE i) != 3 && s.get p (Rg.PREF_STATE i) != 6

/-- The guard is in force (R389). -/
def State.inGuard (p : Part) (s : State) : Bool := s.flag p Rg.SUP_GUARD

/-- The configuration image's value for a key, zero where it has none. Keys from 2^21 up are the values that no register
holds: 2^21 TOKEN_EN, 2^21 + 1 the admin token, 2^21 + 2 PKG_ASYM (log entry 4). -/
def State.image (p : Part) (k : Nat) (s : State) : Nat :=
  match (s.unit p).fw.config with
  | some c => if s.flag p Rg.LOAD_CONFIG_LOADED then SMap.get 0 k c.fields else 0
  | none => 0

/-- The key of TOKEN_EN in the configuration image. -/
def imgTokenEn : Nat := 2 ^ 21

/-- The key of the admin token in the configuration image. -/
def imgAdminToken : Nat := 2 ^ 21 + 1

/-- The key of PKG_ASYM (R162) in the configuration image: ps in two's complement of 64 bits. -/
def imgPkgAsym : Nat := 2 ^ 21 + 2

/-- The first key of the factory trims that the configuration image may give as well (R88, R358): 2^-16 ns in two's complement of 64 bits. -/
def imgTrims : Nat := 2 ^ 21 + 16

/-! The wall-time mapping (R78). -/

/-- TAI ns at an HT integer by the least-squares line of the last 64 exchanges; a single exchange gives slope 1. -/
def PtpSt.taiAt (q : PtpSt) (ns : Nat) : Option Int :=
  match q.hist with
  | [] => none
  | (x0, y0) :: _ =>
    let dx := q.hist.map fun e => ((e.1 : Int) - x0)
    let dy := q.hist.map fun e => ((e.2 : Int) - y0)
    let n : Int := q.hist.length
    let sx := dx.foldl (· + ·) 0
    let sy := dy.foldl (· + ·) 0
    let sxx := (dx.map fun x => x * x).foldl (· + ·) 0
    let sxy := (List.zipWith (fun x y => x * y) dx dy).foldl (· + ·) 0
    let den := n * sxx - sx * sx
    let x : Int := (ns : Int) - x0
    if den = 0 then some (y0 + x)
    else some (y0 + ((n * sxy - sx * sy) * (n * x - sx) + sy * den) / (n * den))

/-! Attendance records (R294 to R304), as the units take them in. -/

/-- System-class kinds (R296). -/
def Rec.isSystem (r : Rec) : Bool := decide (0x20 ≤ r.kind) && decide (r.kind ≤ 0x2F)

/-- The positions a record and its continuations take. -/
def Rec.size (r : Rec) : Nat := 1 + r.conts.length

/-- Rule `r` of the distributor selects a record (R302). -/
def State.ruleMatches (r : Nat) (x : Rec) (s : State) : Bool :=
  s.flag .fd (Rg.RULE_VALID r) && decide (s.get .fd (Rg.RULE_KIND_LO r) ≤ x.kind) && decide (x.kind ≤ s.get .fd (Rg.RULE_KIND_HI r))
    && (s.flag .fd (Rg.RULE_ANY_JOB r) || (!x.hallwide && x.job == s.get .fd (Rg.RULE_JOB r)))

/-- The filter of R302 at the archiving unit, from stage 3 (R378): whether the record is kept, and the state with the rule's matches counted. -/
def State.filterRec (x : Rec) (s : State) : Bool × State :=
  if x.isSystem || x.drill || s.get .fd Rg.START_STAGE != 3 then (true, s)
  else match (List.range 32).find? fun r => s.ruleMatches r x with
    | none => (true, s)
    | some r =>
      if s.get .fd (Rg.RULE_ACTION r) = 1 then (false, s)
      else if s.get .fd (Rg.RULE_ACTION r) = 2 then
        let k := SMap.get 0 r s.dist.arch.matches_ + 1
        (k % 2 ^ s.get .fd (Rg.RULE_SAMPLE_LOG2 r) == 0, s.setArch { s.dist.arch with matches_ := SMap.set r k s.dist.arch.matches_ })
      else (true, s)

/-- The job's share (R304): a bucket of one second of ATT_RATE, kept as what is spent, in 1e-9 records. A record that finds
no token is dropped and counted. -/
def State.chargeRec (x : Rec) (s : State) : Bool × State :=
  let j := x.job % 64
  let rate := s.get .fd (Rg.JM_ATT_RATE j)
  if x.isSystem || x.drill || x.hallwide || rate = 0 then (true, s)
  else
    let spent := SMap.get 0 j s.dist.arch.tokens
    if spent + 1000000000 ≤ rate * 1000000000 then
      (true, s.setArch { s.dist.arch with tokens := SMap.set j (spent + 1000000000) s.dist.arch.tokens })
    else (false, s.bump .fd (Rg.JM_ATT_DROP j))

/-- The blocks the hot ring holds (R284). -/
def ringCapacity : Nat := 25165824

/-- The blocks the spill buffer holds (R300). -/
def spillCapacity : Nat := 2097152

/-- A block enters the hot ring; a full ring evicts its oldest block to the spill buffer, or discards it on a VXD-2840 and
while SPILL_EN is 0; a full spill buffer discards its oldest (R299, R300). -/
def State.ringPush (b : Block) (s : State) : State :=
  let a := s.dist.arch
  let s1 := s.put .fd Rg.ATT_HEAD_SEQ b.seq
  if a.ring.length < ringCapacity then s1.setArch { a with ring := a.ring ++ [b] }
  else match a.ring with
    | [] => s1
    | old :: rest =>
      if s.dist.variant = .vxd2840 || !s.flag .fd Rg.ATT_SPILL_EN then s1.setArch { a with ring := rest ++ [b] }
      else if a.spill.length < spillCapacity then s1.setArch { a with ring := rest ++ [b], spill := a.spill ++ [old] }
      else ((s1.setArch { a with ring := rest ++ [b], spill := a.spill.tail ++ [old], archGap := true }).bump .fd Rg.ATT_ARCH_LOST).put .fd
        Rg.ATT_ARCH_LOST_SEEN 1

/-- The open block closes and enters the hot ring; a block that closes during a guard carries GUARD (R298, R300). -/
def State.closeBlock (s : State) : State :=
  match s.dist.arch.cur with
  | none => s
  | some b => (s.setArch { s.dist.arch with cur := none }).ringPush { b with guard := b.guard || s.inGuard .fd }

/-- A block opened now (R297, R298). -/
def State.newBlock (s : State) : Block :=
  let tai := s.dist.ptp.taiAt (s.htNs .fd)
  { seq := s.dist.arch.nextSeq, gapBefore := s.dist.arch.gapNext, anchor := s.ht .fd, stat := s.fracStat .fd, openNow := s.now,
    roll := s.get .fd Rg.ROLL_ROLL, role := s.role, lost := s.dist.arch.lost,
    wall := if s.dist.ptp.ever then (tai.getD 0).toNat else 0, wallStale := s.flag .fd Rg.PTP_WALL_STALE }

/-- The time after which an open block closes, 2^28 ns (R298). -/
def blockNs : Nat := 268435456

/-- A record enters the open block: a block opens at its first record, a group is never split, the 252nd record closes the block, and so does its age, so that every stamp
lies near the block's anchor (R51, R297, R298). -/
def State.blockAdd (x : Rec) (s : State) : State :=
  let used := fun b : Block => b.recs.foldl (fun n r => n + r.size) 0
  let s1 := match s.dist.arch.cur with
    | some b => if used b + x.size ≤ 252 && decide (s.now < b.openNow + blockNs) then s else s.closeBlock
    | none => s
  let a := s1.dist.arch
  let b := match a.cur with
    | some b => b
    | none => s1.newBlock
  let a1 := match a.cur with
    | some _ => a
    | none => { a with nextSeq := (a.nextSeq + 1) % 2 ^ 32, lost := 0, gapNext := false }
  let b1 := { b with recs := b.recs ++ [x] }
  let s2 := s1.setArch { a1 with cur := some b1 }
  if used b1 = 252 then s2.closeBlock else s2

/-- The distributor records: ATT_EN in the image, or the start default before the image (R379), from stage 1 (R378). -/
def State.recording (s : State) : Bool :=
  s.dist.spare.stackFailed == false && s.flag .fd Rg.START_STAGE1_MET
    && (s.flag .fd Rg.START_START_DEFAULTS || s.flag .fd Rg.ATT_ATT_EN)

/-- A record is taken in at the distributor: filtered, charged to its job, written to the open block (R302, R304, R298). -/
def State.attTake (x : Rec) (s : State) : State :=
  if !s.recording then s
  else
    let (keep, s1) := s.filterRec x
    if !keep then s1
    else
      let (paid, s2) := s1.chargeRec x
      if paid then s2.blockAdd x else s2

/-- A SOURCE rule in use at the die selects a record (R302, R303). -/
def RuleRec.matches (r : RuleRec) (x : Rec) : Bool :=
  r.valid && decide (r.kindLo ≤ x.kind) && decide (x.kind ≤ r.kindHi) && (r.anyJob || (!x.hallwide && x.job == r.job))

/-- The records a step core buffers (R298). -/
def dieBufCapacity : Nat := 1024

/-- A step core record: filtered by the rule set in use, then buffered, or dropped and counted where the buffer is full. -/
def State.dieTake (x : Rec) (s : State) : State :=
  let a := s.die.att
  let hit := if x.isSystem || x.drill then none else a.inUse.find? (·.matches x)
  let n := match hit with
    | some r => SMap.get 0 r.index a.matches_ + 1
    | none => 0
  let keep := match hit with
    | some r => if r.action = 1 then false else if r.action = 2 then n % 2 ^ r.sampleLog2 == 0 else true
    | none => true
  let a1 := match hit with
    | some r => if r.action = 2 then { a with matches_ := SMap.set r.index n a.matches_ } else a
    | none => a
  let used := a.buf.foldl (fun m e => m + e.1.size) 0
  if !keep then s.setDie { s.die with att := a1 }
  else if used + x.size ≤ dieBufCapacity then s.setDie { s.die with att := { a1 with buf := a1.buf ++ [(x, s.now)] } }
  else (s.setDie { s.die with att := { a1 with lost := a1.lost + x.size } }).bump .sc Rg.SATT_DROP x.size

/-- A unit's own event is recorded: stamped with an HT32 and the unit's state, DRILL while a drill runs at it (R295, R414). -/
def State.recordAt (p : Part) (ht32 : Nat) (x : Rec) (s : State) : State :=
  let y := { x with
    ht32 := ht32
    die := if p = .sc then s.die.pkgIndex else x.die
    unjoined := !s.flag p Rg.HT_JOINED
    unaligned := s.flag p Rg.HT_UNALIGNED
    drill := x.drill || (p = .fd && s.dist.spare.running.isSome) }
  match p with
  | .fd => s.attTake y
  | .sc => s.dieTake y

/-- A unit's own event of this moment is recorded. -/
def State.record (p : Part) (x : Rec) (s : State) : State := s.recordAt p (s.ht32 p) x

/-! Fault events (R397, R398). -/

/-- A FAULT event: kept in the fault log (the last 256, newest first), in FAULT_LAST and FAULT_CNT, and recorded. -/
def State.faultLog (p : Part) (cls act obj : Nat) (s : State) (conts : List Nat := []) (job : Option Nat := none) : State :=
  let u := s.unit p
  let s1 := s.setUnit p { u with faults := ({ cls := cls, act := act, obj := obj, ht32 := s.ht32 p } :: u.faults).take 256 }
  let s2 := (((s1.put p Rg.FLT_CLASS cls).put p Rg.FLT_ACTION act).put p Rg.FLT_LAST_HT32 (s.ht32 p)).bump p Rg.FLT_FAULTS
  s2.record p { kind := 0x25, obj := obj, arg := cls + 65536 * act, conts := conts, hallwide := job.isNone, job := job.getD 0 }

/-- ALERT.FAULT for a class whose Alert column reads Yes. -/
def State.faultAlert (p : Part) (s : State) : State := s.raise p Rg.ALERT_FAULT

/-! Bytes to memory. -/

/-- The memory a part reaches by DMA: host memory for the distributor, die memory for the step core (R359). -/
def State.dma (p : Part) (s : State) : Memory :=
  match p with
  | .fd => s.hostMem
  | .sc => s.dieMem

/-- Bytes stored to the memory that a part reaches. -/
def State.dmaWrite (p : Part) (a : Nat) (b : List Byte) (s : State) : State :=
  match p with
  | .fd => { s with hostMem := s.hostMem.writeN a b }
  | .sc => { s with dieMem := s.dieMem.writeN a b }

end Sys2Proof.Machine
end

