-- ==== Sys2Proof/Machine/Layout.lean ====
section
/-! DEFINITION. Byte and bit layouts of what the block writes out: CRC-32C, the bell word (R241), attendance records and blocks
(R295, R297), the hall slot record (R219), stud book and close log entries (R290, R293). -/

namespace Sys2Proof.Machine

open Sys2Proof

/-- One bit step of CRC-32C in its reflected form. -/
def crcBit (c : Nat) : Nat := if c % 2 = 1 then Nat.xor (c / 2) 0x82F63B78 else c / 2

/-- One byte into the CRC-32C register. -/
def crcByte (c : Nat) (b : Byte) : Nat :=
  crcBit (crcBit (crcBit (crcBit (crcBit (crcBit (crcBit (crcBit (Nat.xor c b.toNat))))))))

/-- CRC-32C of a byte string. -/
def crc32c (b : List Byte) : Nat := Nat.xor (b.foldl crcByte 0xFFFFFFFF) 0xFFFFFFFF

/-- h(r) of R220: the CRC-32C of the roll number as three little-endian bytes. -/
def rollHash (r : Nat) : Nat := crc32c (leBytes 3 (r % 2 ^ 21))

/-- Fields (width, value) packed from bit 0 up. -/
def packBits : List (Nat × Nat) → Nat
  | [] => 0
  | (w, v) :: t => v % 2 ^ w + 2 ^ w * packBits t

/-- The bell word as 128 bits (R241). -/
def BellWord.toBits (w : BellWord) : Nat :=
  packBits [(48, w.bellNo), (6, w.job), (4, w.kind), (8, w.floor), (1, ofBool w.ttAt), (1, ofBool w.forced),
    (1, ofBool w.unresolvedSeen), (3, 0), (32, w.closeHwm), (16, w.stepEpoch), (8, 0)]

/-- A BELL_OUT frame (R83): preamble, bell word and CRC-32C, the most significant bit first. The CRC is computed over the word's bytes from the most significant one on, by
R12's reflected form (log entry 74). -/
def bellFrame (w : BellWord) : List Byte :=
  let body := (leBytes 16 w.toBits).reverse
  [0xAB] ++ body ++ (leBytes 4 (crc32c body)).reverse

/-- A record's head as 128 bits (R295). -/
def Rec.toBits (r : Rec) : Nat :=
  packBits [(32, r.ht32), (24, r.arg), (1, ofBool r.drill), (1, ofBool r.below), (1, ofBool r.unjoined), (1, ofBool r.unaligned), (1, 0),
    (3, r.conts.length), (24, r.obj), (16, r.epoch), (6, r.port), (3, r.die), (6, r.job), (1, ofBool r.hallwide), (8, r.kind)]

/-- A record and its continuations as bytes (R295). -/
def Rec.toBytes (r : Rec) : List Byte :=
  leBytes 16 r.toBits ++ (r.conts.map fun c => leBytes 16 (c % 2 ^ 120 + 2 ^ 120 * 0xFF)).flatten

/-- A block as delivered (R297): header, records, zero padding, CRC-32C over bytes 0 to 59 and 64 to 4,095. -/
def Block.toBytes (b : Block) : List Byte :=
  let recs := (b.recs.map Rec.toBytes).flatten
  let n := b.recs.foldl (fun k r => k + r.size) 0
  let body := recs ++ List.replicate (4032 - recs.length) 0
  let flags := ofBool b.gapBefore + 2 * ofBool b.guard
  let head := fun f : Nat => leBytes 4 b.seq ++ leBytes 2 n ++ leBytes 1 1 ++ leBytes 1 f ++ ht80Bytes b.anchor b.stat ++ leBytes 3 b.roll
    ++ leBytes 1 b.role ++ leBytes 4 b.lost ++ leBytes 8 b.wall ++ leBytes 1 (ofBool b.wallStale) ++ List.replicate 19 0
  head (flags + 4 * ofBool b.bad) ++ leBytes 4 (crc32c (head flags ++ body)) ++ body

/-- The number of a hall slot state (R219). -/
def HState.code : HState → Nat
  | .free => 0
  | .counting => 1
  | .sent => 2
  | .called => 3
  | .closed => 4
  | .quorumWait => 5
  | .unresolved => 6

/-- The 64-byte hall slot record (R219); the fields marked root are zero elsewhere. -/
def HSlot.toBytes (root : Bool) (v : HSlot) : List Byte :=
  let r := fun n : Nat => if root then n else 0
  leBytes 1 (v.state.code + 8 * ofBool v.policy + 16 * ofBool v.bell + 32 * ofBool v.payload + 64 * ofBool v.forced)
    ++ leBytes 1 v.job ++ leBytes 1 v.gen ++ leBytes 1 v.lastPort ++ leBytes 2 v.e ++ leBytes 2 v.completed ++ leBytes 8 v.arr
    ++ leBytes 8 v.early ++ leBytes 8 v.wd ++ leBytes 4 v.dlBeat ++ leBytes 4 (r v.hardBeat) ++ leBytes 4 (r v.deadlineNs)
    ++ leBytes 2 (r v.hardMs) ++ leBytes 2 v.misuse ++ leBytes 3 (r v.quorum) ++ leBytes 1 (r (ofBool v.callSent + 2 * ofBool v.paid))
    ++ leBytes 3 v.contrib ++ leBytes 1 0 ++ leBytes 4 v.hash ++ leBytes 4 v.lastHt32

/-- A byte string as continuation records of 120 bits (R295, R296). -/
def contsOf : Nat → List Byte → List Nat
  | 0, _ => []
  | n + 1, b => ofLe (b.take 15) :: contsOf n (b.drop 15)

/-- The 64-byte stud book entry of a bucket (R290). -/
def SbEntry.toBytes (job bucket : Nat) (e : SbEntry) : List Byte :=
  let b := leBytes 3 bucket ++ leBytes 1 (job + 64) ++ leBytes 4 e.closeSeq ++ leBytes 2 e.epoch ++ leBytes 1 e.opFmt ++ leBytes 1 e.pflags
    ++ leBytes 3 e.contrib ++ leBytes 1 e.doneFlags ++ leBytes 4 e.hash ++ leBytes 1 e.scale ++ leBytes 1 e.flags ++ leBytes 2 e.topkBin
    ++ leBytes 4 e.topkThresh ++ leBytes 8 e.topkKept ++ leBytes 8 e.residue ++ leBytes 8 e.resultResidue ++ leBytes 4 e.closes
    ++ leBytes 4 e.closeBeat
  b ++ leBytes 4 (crc32c b)

/-- The 32-byte close log entry (R293). -/
def CloseEntry.toBytes (c : CloseEntry) : List Byte :=
  leBytes 4 c.seq ++ leBytes 3 c.bucket ++ leBytes 1 c.job ++ leBytes 2 c.epoch ++ leBytes 1 c.opFmt ++ leBytes 1 c.pflags
    ++ leBytes 3 c.contrib ++ leBytes 1 c.doneFlags ++ leBytes 4 c.hash ++ leBytes 8 c.residue ++ leBytes 4 c.beat

end Sys2Proof.Machine
end

