-- ==== Sys2Proof/Machine/Mailbox.lean ====
section
/-! DEFINITION. Requester classes (R364) and the one operation behind every mailbox command (R366 to R369): submission, the
refusals that come before the command's own, layout of arguments and results, completion. -/

namespace Sys2Proof.Machine

open Sys2Proof

/-- The token classes of R364. -/
inductive Cls where
  | noClass
  | admin
  | job (j : Nat)
  deriving DecidableEq, Repr

/-- The class of a requester: with TOKEN_EN = 0 every requester is admin; otherwise the token in its latch decides, and the
value 0 is never valid. -/
def State.cls (p : Part) (req : Nat) (s : State) : Cls :=
  if s.image p imgTokenEn = 0 then .admin
  else match SMap.find req (s.unit p).slate.latches with
    | none => .noClass
    | some t =>
      if t = 0 then .noClass
      else if t = s.image p imgAdminToken then .admin
      else match (s.unit p).slate.jobTokens.find? fun e => e.2 == t with
        | some (j, _) => .job j
        | none => .noClass

/-- A position moved up to a multiple of a size. -/
def alignUp (a n : Nat) : Nat := ceilDiv a n * n

/-- Where fields of the given sizes end when they are laid out from a position (R367). -/
def layoutEnd : Nat → List Nat → Nat
  | pos, [] => pos
  | pos, n :: t => layoutEnd (alignUp pos n + n) t

/-- The values of fields of the given sizes, aligned and little-endian, from a position (R367). -/
def parseFields (b : List Byte) : Nat → List Nat → List Nat
  | _, [] => []
  | pos, n :: t => ofLe ((b.drop (alignUp pos n)).take n) :: parseFields b (alignUp pos n + n) t

/-- Fields (size, value) laid out from a position, with zero padding (R367). -/
def packFields : Nat → List (Nat × Nat) → List Byte
  | _, [] => []
  | pos, (n, v) :: t => List.replicate (alignUp pos n - pos) 0 ++ leBytes n v ++ packFields (alignUp pos n + n) t

/-- Entries of a list result laid out one after the other, each as its own bytes, from a position. -/
def packEntries : Nat → List (List (Nat × Nat)) → List (List Byte)
  | _, [] => []
  | pos, e :: t => packFields pos e :: packEntries (pos + (packFields pos e).length) t

/-- How many leading entries fit in `room` bytes. -/
def fitCount (room : Nat) : List (List Byte) → Nat
  | [] => 0
  | e :: t => if e.length ≤ room then 1 + fitCount (room - e.length) t else 0

/-- What a command answers: a status with its detail, a result, or a wait for its condition (R366). -/
inductive MbOut where
  | fail (status detail : Nat)
  | ok (fixed : List (Nat × Nat))
  | list (fixed : List (Nat × Nat)) (entries : List (List (Nat × Nat)))
  | bytes (b : List Byte)
  | stale (fixed : List (Nat × Nat))
  | wait (args : List Nat)
  deriving DecidableEq, Repr

/-- BUSY. -/
def MbOut.busy (detail : Nat := 0) : MbOut := .fail 1 detail
/-- REFUSED. -/
def MbOut.refuse (detail : Nat := 0) : MbOut := .fail 2 detail
/-- BAD_ARG. -/
def MbOut.badArg (detail : Nat := 0) : MbOut := .fail 3 detail
/-- NO_CAP. -/
def MbOut.noCap : MbOut := .fail 4 0
/-- QUOTA. -/
def MbOut.quota : MbOut := .fail 5 0
/-- ABORTED. -/
def MbOut.aborted : MbOut := .fail 7 0

/-- A part's mailbox. -/
def State.mail (p : Part) (box : Nat) (s : State) : Mail := SMap.get {} box (s.unit p).slate.mail

/-- The state with a mailbox replaced. -/
def State.setMail (p : Part) (box : Nat) (b : Mail) (s : State) : State :=
  s.setSlate p { (s.unit p).slate with mail := SMap.set box b (s.unit p).slate.mail }

/-- A mailbox completes (R366, steps 4 and 5): the result is in the data area, STATUS, TAG, RESULT_LEN, DETAIL and RESULT_TOTAL are
written, DONE sets and OWNED clears; with IRQ_EN the interrupt is raised. -/
def State.mbDone (p : Part) (box tag : Nat) (irq : Bool) (status detail : Nat) (area : List Byte) (total : Nat) (s : State) : State :=
  let s1 := s.setMail p box { data := (s.mail p box).data.writeN 0 area, wait := none }
  let s2 := ((((s1.put p (Rg.MB_STATUS box) status).put p (Rg.MB_STAG box) tag).put p (Rg.MB_RESULT_LEN box) area.length).put p
    (Rg.MB_DETAIL box) detail).put p (Rg.MB_RESULT_TOTAL box) total
  let s3 := (s2.put p (Rg.MB_DONE box) 1).put p (Rg.MB_OWNED box) 0
  if irq && p = .fd then s3.signal 0 else s3

/-- A list result (R367): the fixed fields, the count, as many whole entries as fit; the rest by DMA when DMA_RESULT is 1. -/
def State.mbList (p : Part) (box tag : Nat) (irq dma : Bool) (fixed : List (Nat × Nat)) (entries : List (List (Nat × Nat)))
    (s : State) : State :=
  let head := packFields 0 fixed
  let at_ := alignUp head.length 2 + 2
  let es := packEntries at_ entries
  let n := fitCount (256 - at_) es
  let count := if dma then entries.length else n
  let area := packFields 0 (fixed ++ [(2, count)]) ++ (es.take n).flatten
  let rest := (packEntries 0 (entries.drop n)).flatten
  let addr := s.get p (Rg.MB_RESULT_ADDR_LO box) + 2 ^ 32 * s.get p (Rg.MB_RESULT_ADDR_HI box)
  if dma then (s.dmaWrite p addr rest).mbDone p box tag irq 0 0 area (area.length + rest.length)
  else s.mbDone p box tag irq 0 (if n < entries.length then 6 else 0) area area.length

/-- A command's answer is delivered to its mailbox; a wait leaves the mailbox owned. -/
def State.mbAnswer (p : Part) (box code tag : Nat) (irq dma : Bool) (out : MbOut) (s : State) : State :=
  match out with
  | .fail st det => s.mbDone p box tag irq st det [] 0
  | .ok fixed => s.mbDone p box tag irq 0 0 (packFields 0 fixed) (packFields 0 fixed).length
  | .stale fixed => s.mbDone p box tag irq 6 0 (packFields 0 fixed) (packFields 0 fixed).length
  | .bytes b => s.mbDone p box tag irq 0 0 (b.take 256) b.length
  | .list fixed entries => s.mbList p box tag irq dma fixed entries
  | .wait args => s.setMail p box { s.mail p box with wait := some { code := code, tag := tag, irq := irq, dma := dma, args := args } }

/-- The mailboxes of a part whose command of a code waits. -/
def State.mbWaiting (p : Part) (code : Nat) (s : State) : List Nat :=
  (List.range 8).filter fun b => match (s.mail p b).wait with
    | some w => w.code == code
    | none => false

/-- A waiting command completes. -/
def State.mbComplete (p : Part) (box : Nat) (out : MbOut) (s : State) : State :=
  match (s.mail p box).wait with
  | some w => s.mbAnswer p box w.code w.tag w.irq w.dma out
  | none => s

/-- Every waiting command of a code completes. -/
def State.mbCompleteAll (p : Part) (code : Nat) (out : MbOut) (s : State) : State :=
  (s.mbWaiting p code).foldl (fun t b => t.mbComplete p b out) s

/-- The GO write (R366, steps 1 and 2): the arguments go into the data area, the control word into MB_CTRL; OWNED sets and DONE
clears. A GO that leaves the MAILBOX condition true sends its message again (R430). -/
def State.mbSubmit (m : MbGo) (code : Nat) (s : State) : State :=
  let b := m.box
  let s1 := s.setMail m.part b { data := (s.mail m.part b).data.writeN 0 (m.args.take 256), wait := none }
  let s2 := (((((s1.put m.part (Rg.MB_CODE b) code).put m.part (Rg.MB_TAG b) m.tag).put m.part (Rg.MB_ARG_LEN b) m.args.length).putFlag
    m.part (Rg.MB_IRQ_EN b) m.irq).putFlag m.part (Rg.MB_DMA_RESULT b) m.dma)
  let s3 := (s2.put m.part (Rg.MB_DONE b) 0).put m.part (Rg.MB_OWNED b) 1
  if m.part = .fd && s3.mailLine .fd then s3.signal 0 else s3

/-- A prefect activation is in progress (R374). -/
def State.activating (p : Part) (s : State) : Bool := (s.unit p).fw.activating.isSome

/-- Why a command is answered before its own rules (R354, R364, R366 to R368, R374): an activation, P0 or the owner down, a context
clear, no such unit here, the requester's class, arguments too short. The order is log entry 5. -/
def State.mbGate (m : MbGo) (owner : Option Nat) (named : Option Nat) (need : Nat) (s : State) : Option MbOut :=
  if s.activating m.part then some (.busy 5)
  else if !s.roleUp m.part 0 then some (.busy 3)
  else if m.part = .sc && s.die.sync.clear.isSome then some (.busy 4)
  else match owner with
    | none => some .noCap
    | some o =>
      if !s.roleUp m.part o then some (.busy 3)
      else if (match s.cls m.part m.req with
        | .admin => false
        | .job j => named != some j
        | .noClass => true) then some (.refuse 1)
      else if m.args.length < need then some .badArg
      else none

/-- A mailbox command: a GO at a mailbox the device owns is ignored and sets ALERT.RSVD_WRITE; otherwise it is submitted, and
answered by the gate or by the command's own body. `jobArg` is the position of the argument that names a job, if any. -/
def State.mailbox (m : MbGo) (code : Nat) (owner : Option Nat) (sig : List Nat) (jobArg : Option Nat)
    (body : List Nat → State → MbOut × State) (s : State) : State :=
  if s.flag m.part (Rg.MB_OWNED m.box) then s.rsvd m.part
  else
    let s1 := s.mbSubmit m code
    let a := parseFields m.args 0 sig
    match s1.mbGate m owner (jobArg.map fun i => a.getD i 0) (layoutEnd 0 sig) with
    | some out =>
      let s2 := if out = .refuse 1 then s1.put m.part Rg.SLATE_TOKEN_DENIED 1 else s1
      s2.mbAnswer m.part m.box code m.tag m.irq m.dma out
    | none =>
      let r := body a s1
      r.2.mbAnswer m.part m.box code m.tag m.irq m.dma r.1

/-- An owner on the distributor only. -/
def fdOnly (p : Part) (role : Nat) : Option Nat := if p = .fd then some role else none

/-- An owner on the step core only. -/
def scOnly (p : Part) (role : Nat) : Option Nat := if p = .sc then some role else none

/-- An owner on a VXD-2880 only. -/
def State.own2880 (p : Part) (role : Nat) (s : State) : Option Nat := if p = .fd && s.dist.variant = .vxd2880 then some role else none

/-- The active root answers a command; another unit refuses it with NOT_ROOT (R368). -/
def State.atRoot (s : State) (r : MbOut × State) : MbOut × State := if s.isActiveRoot then r else (.refuse 7, s)

end Sys2Proof.Machine
end

