-- ==== Sys2Proof/Machine/HallTime.lean ====
section
/-! DEFINITION. The HT counters (R37 to R48), the idle tick, HT snapshots (R54) and the wrap (R48). -/

namespace Sys2Proof.Machine

open Sys2Proof

/-- One correction unit: a whole LSB of the HT fraction, in the units of `Clock.carry`. -/
def lsbUnit : Int := 1000000000000000

/-- The time of one idle tick, 4 ns, in LSBs: 8 counts of the distributor core, 5 counts of the hub (log entry 7). -/
def tickLsb : Nat := 262144

/-- The slew part of k ticks: no more than the limit, no more than what is left (R46). -/
def Clock.slewStep (k : Nat) (c : Clock) : Int :=
  clampInt (-(k * tickLsb * c.slewRate : Nat)) (k * tickLsb * c.slewRate : Nat) c.slewLeft

/-- The whole LSBs by which k ticks differ from nominal: at most one a count (R45); `counts` is the counts in a tick. -/
def Clock.tickCorr (k counts : Nat) (c : Clock) : Int :=
  clampInt (-(k * counts : Nat)) (k * counts : Nat) (Int.tdiv (c.carry + (k * tickLsb : Nat) * c.rate + c.slewStep k) lsbUnit)

/-- k ticks of an HT counter at one slew limit: it counts 4 ns each and the corrections due, and never steps (R45). -/
def Clock.count (k counts : Nat) (c : Clock) : Clock :=
  let d := c.tickCorr k counts
  { c with
    ht := (c.ht + ((k * tickLsb : Nat) + d).toNat) % htSpan
    carry := c.carry + (k * tickLsb : Nat) * c.rate + c.slewStep k - d * lsbUnit
    slewLeft := c.slewLeft - c.slewStep k }

/-- The ticks, of k, that pass before a limit that waits takes effect (R46). -/
def Clock.ticksBefore (k : Nat) (c : Clock) : Nat :=
  match c.slewNext with
  | some (b, _) => min k (ceilDiv (b * 1024 * nsLsb - c.ht) tickLsb)
  | none => k

/-- The limit that waits takes effect once its beat boundary has come (R46). -/
def Clock.relimit (c : Clock) : Clock :=
  match c.slewNext with
  | some (b, r) => if b * 1024 * nsLsb ≤ c.ht then { c with slewRate := if c.slewRate = 0 then 0 else r, slewNext := none } else c
  | none => c

/-- k ticks of an HT counter, a new slew limit taking effect at its beat boundary. -/
def Clock.run (k counts : Nat) (c : Clock) : Clock :=
  let a := c.ticksBefore k
  ((c.count a counts).relimit).count (k - a) counts

/-- The counter passes 2^64 ns in these ticks (R48). -/
def Clock.wrapsIn (k counts : Nat) (c : Clock) : Bool := decide (htSpan ≤ c.ht + ((k * tickLsb : Nat) + c.tickCorr k counts).toNat)

/-- A part's counter runs, if the part has started; a wrap sets HT_WRAP. -/
def State.runPart (p : Part) (k counts : Nat) (s : State) : State :=
  if !(s.unit p).start.on then s
  else
    let c := (s.unit p).clock
    let s1 := s.setUnit p { s.unit p with clock := c.run k counts }
    if c.wrapsIn k counts then s1.put p Rg.HT_HT_WRAP 1 else s1

/-- A phase correction that has ended at the active root clears SLEWING (R47). -/
def State.slewEnd (s : State) : State :=
  if s.isActiveRoot && s.flag .fd Rg.HT_SLEWING && s.fd.clock.slewLeft == 0 then s.put .fd Rg.HT_SLEWING 0 else s

/-- k ticks of 4 ns pass on both parts (log entry 7). -/
def State.pass (k : Nat) (s : State) : State :=
  ((({ s with now := s.now + 4 * k }).runPart .fd k 8).runPart .sc k 5).slewEnd

/-- The idle tick. -/
def State.tick (s : State) : State := s.pass 1

/-! An event that names its moment brings the time to it (log entry 30): if the block's time is earlier, time passes first. -/

/-- Time passes up to an elapsed time. -/
def State.awaitNow (t : Nat) (s : State) : State := if s.now < t then s.pass (ceilDiv (t - s.now) 4) else s

/-- The ticks to let pass towards `left` ns of HT: short of it while it is far, so that the count-rate correction cannot overshoot. -/
def ticksToward (left : Nat) : Nat := if 4096 < left then (left - left / 1024) / 4 else ceilDiv left 4

/-- Time passes until a part's HT reaches an integer; a part that has not started does not count. -/
def State.awaitHtFuel (p : Part) (ns : Nat) : Nat → State → State
  | 0, s => s
  | k + 1, s => if ns ≤ s.htNs p then s else State.awaitHtFuel p ns k (s.pass (ticksToward (ns - s.htNs p)))

/-- Time passes until a part's HT reaches an integer. -/
def State.awaitHt (p : Part) (ns : Nat) (s : State) : State := if (s.unit p).start.on then s.awaitHtFuel p ns 24 else s

/-- Time passes until a part's beat. -/
def State.awaitBeat (p : Part) (b : Nat) (s : State) : State := s.awaitHt p (b * 1024)

/-- Time passes until the beat with these low 32 bits, at most half their range ahead. -/
def State.awaitBeat32 (p : Part) (b : Nat) (s : State) : State :=
  let d := (b + 2 ^ 32 - s.beat p % 2 ^ 32) % 2 ^ 32
  if d < 2 ^ 31 then s.awaitBeat p (s.beat p + d) else s

/-- Time passes to the next beat boundary of a part's hall time: what a rule lets take effect there happens then (log entry 30). -/
def State.nextBeat (p : Part) (s : State) : State := s.awaitBeat p (s.beat p + 1)

/-- Time passes to the present beat boundary, where the HT stands on one, or to the next. -/
def State.toBeat (p : Part) (s : State) : State := s.awaitBeat p (ceilDiv (s.htNs p) 1024)

/-- The first beat at or after `b` that leaves `r` modulo `m`. -/
def nextPhase (b m r : Nat) : Nat := b + (r + m - b % m) % m

/-- A periodic event: time passes to the next beat that leaves `r` modulo `m` and in which the event has not acted yet. -/
def State.periodic (p : Part) (key m r : Nat) (s : State) : State :=
  let b := nextPhase (s.beat p) m r
  let due := if SMap.find key (s.unit p).lastDone = some b then b + m else b
  let t := s.awaitBeat p due
  t.setUnit p { t.unit p with lastDone := SMap.set key (t.beat p) (t.unit p).lastDone }

/-- The HT counter of a part loaded: formation or join, the only loads (R43). The open attendance block closes before, since its anchor would lie too far from the stamps that
follow (R51). -/
def State.loadHt (p : Part) (ht : Nat) (s : State) : State :=
  let s := match p with
    | .fd => s.closeBlock
    | .sc => s
  s.setUnit p { s.unit p with clock := { ht := ht % htSpan } }

/-- An entry moved to the front of a table of at most 16 with least-recently-used replacement (R54, R364). The spec does not say what counts as a use: in this model only the
access that writes a latch does, a read of HT_NS_LO or a write of TOKEN; a read of HT_NS_HI or HT_FRAC_STAT does not (log entry 69). -/
def lruPut {α : Type} (k : Nat) (v : α) (l : List (Nat × α)) : List (Nat × α) := ((k, v) :: l.filter fun e => e.1 != k).take 16

/-- What a read of `size` bytes from HT_NS_LO answers of one snapshot (R54): HT32, the HT integer, or the three registers with LATCHED = 1. -/
def snapValue (size : Nat) (x : Snap) : Nat :=
  if size = 16 then x.ht / nsLsb + 2 ^ 64 * (x.ht % nsLsb * 65536 + x.stat + 1024)
  else if size = 8 then x.ht / nsLsb
  else x.ht / nsLsb % 2 ^ 32

/-- A read of 4, 8 or 16 bytes from HT_NS_LO takes all 80 bits and the status into the requester's latch and answers from that snapshot (R54). -/
def State.snapshotRead (p : Part) (req size : Nat) (s : State) : State :=
  let sl := (s.unit p).slate
  let x : Snap := { ht := s.ht p, stat := s.fracStat p }
  s.setSlate p { sl with snaps := lruPut req x sl.snaps, reply := { req := req, off := 0x100, value := snapValue size x } }

/-- HT_SNAPSHOT_READ (R54). -/
def execHtSnapshotRead (p : Part) (req size : Nat) (s : State) : Host.Outcome State Fault Refusal := .next (s.snapshotRead p req size)

/-- HT_WRAP (R45, R48): time passes until the HT integer has counted beyond 2^64 − 1; the counter goes on from 0 and the sticky flag sets. -/
def execHtWrap (p : Part) (s : State) : Host.Outcome State Fault Refusal :=
  .next (if (s.unit p).start.on then (s.awaitHt p (2 ^ 64 - 1)).pass 1 else s)

/-- This unit forwards the arrivals of a port (R20): in a dual-homed pair only the carrying leaf of the package does. -/
def State.carriesAt (n : Nat) (s : State) : Bool := !(s.role == 4 && s.dist.hall.dualHere) || bit s.dist.hall.carrying n

end Sys2Proof.Machine
end

