-- ==== Sys2Proof/Machine/Tdc.lean ====
section
/-! DEFINITION. Pairs of TDCs (R87, R88, R90, R98 to R100): stamps from a bin, factory trims (R126, R358), the calibration of the twin by code density, its parallel check and
the swap. The distributor's channels, the timing blocks and the lane TDCs share it. -/

namespace Sys2Proof.Machine

open Sys2Proof

/-! Stamps (R88, R98, R126). -/

/-- The position of a bin in 2^-16 ns (R98): the widths below it and half its own, a width being 0.8 ns · h / M. -/
def binPos (hits : List Nat) (k : Nat) : Nat := (2 * (hits.take k).foldl (· + ·) 0 + hits.getD k 0 + 20) / 40

/-- Every hit of the M = 1,048,576 lies in a bin, and each bin has between a tenth of and three times its even share (R98). -/
def tablePasses (hits : List Nat) : Bool :=
  hits.length == 256 && hits.foldl (· + ·) 0 == 1048576 && hits.all fun h => decide (4096 ≤ 10 * h) && decide (h ≤ 12288)

/-- The check passes (R99): 64 differences of at most 5 ps in mean and 8 ps rms, here in fs. -/
def checkPasses (d : List Int) : Bool :=
  decide ((d.foldl (· + ·) 0).natAbs ≤ 64 * 5000) && decide (d.foldl (fun a x => a + x * x) 0 ≤ 64 * 64000000)

/-- The factory trims of a part's EEPROM by key (R358; log entry 76), in 2^-16 ns: RX_LAT of a lane. -/
def trimRx (n : Nat) : Nat := n

/-- TDR_K of a lane. -/
def trimTdr (n : Nat) : Nat := 256 + n

/-- The delay trim of a TDC channel. -/
def trimTdc (n : Nat) : Nat := 512 + n

/-- A trim in force (R358): the configuration image's where it gives one, otherwise the EEPROM's; zero where the EEPROM's CRC fails. -/
def State.trim (p : Part) (k : Nat) (s : State) : Int :=
  let given := match (s.unit p).fw.config with
    | some c => if s.flag p Rg.LOAD_CONFIG_LOADED then SMap.find (imgTrims + k) c.fields else none
    | none => none
  match given with
  | some v => toSigned 64 v
  | none => if (s.unit p).fw.eepromOk then SMap.get 0 k (s.unit p).fw.trims else 0

/-! The pair (R98 to R100). -/

/-- A calibration starts, or is queued one deep while one runs (R98, R100). -/
def TdcPair.begin_ (q : TdcPair) : TdcPair := if q.cal = .idle then { q with cal := .density, queued := false } else { q with queued := true }

/-- A failed table test or parallel check (R100): the main keeps its table. -/
def TdcPair.fail (q : TdcPair) : TdcPair := { q with cal := .idle, diffs := [], fails := q.fails + 1, fault := true }

/-- The twin becomes the main (R99); the former main waits as twin. -/
def TdcPair.swap (now : Nat) (checked : Bool) (q : TdcPair) : TdcPair :=
  { q with main := q.twin, twin := q.main, mainNow := q.twinNow, twinNow := q.mainNow, active := 1 - q.active, cal := .idle, checked := checked, diffs := [], swapNow := now,
           swapTemp := q.temp, fails := 0, fault := false, owed := some checked }

/-- An edge at the pair (R99): at the first one after the check has passed the twin becomes the main; during the check an edge that both have stamped gives a difference in
fs, and the 64th decides. -/
def TdcPair.edge (now : Nat) (twin : Option Int) (q : TdcPair) : TdcPair :=
  if q.cal = .swapReady then q.swap now true
  else match q.cal, twin with
    | .check, some d =>
      let ds := d :: q.diffs
      if ds.length < 64 then { q with diffs := ds } else if checkPasses ds then { q with cal := .swapReady, diffs := [] } else q.fail
    | _, _ => q

/-- A stamp by the main (R88): the HT80 of the coarse clock edge and the calibrated position of the bin, less a trim; HT80 wraps. -/
def TdcPair.stamp (coarse bin : Nat) (trim : Int) (q : TdcPair) : Nat := (((coarse + binPos q.main bin : Nat) : Int) - trim).toNat % htSpan

/-! Pairs in the state. -/

/-- A pair of TDCs. -/
def State.pair (a : TdcAt) (s : State) : TdcPair :=
  match a with
  | .channel n => (SMap.get {} n s.dist.tdc).pair
  | .timing p => (s.unit p).timing
  | .lane p n => (s.link p n).tdc

/-- The state with a pair replaced; a channel's FD_TDC_STAT follows, and a swap falls in its gate and ends CAL_STALE (R99, R108). -/
def State.setPair (a : TdcAt) (q : TdcPair) (s : State) : State :=
  match a with
  | .channel n =>
    let c := SMap.get {} n s.dist.tdc
    let swapped := c.pair.active != q.active
    let s0 := s.setDist { s.dist with tdc := SMap.set n { c with pair := q, swapIn := c.swapIn || swapped } s.dist.tdc }
    let s1 := if swapped then s0.put .fd (Rg.TDC_CAL_STALE n) 0 else s0
    (((s1.put .fd (Rg.TDC_ACTIVE_TDC n) q.active).putFlag .fd (Rg.TDC_CAL_RUNNING n) (q.cal != .idle)).putFlag .fd (Rg.TDC_CAL_PENDING n) q.queued).putFlag .fd
      (Rg.TDC_TWIN_FAULT n) q.fault
  | .timing p => s.setUnit p { s.unit p with timing := q }
  | .lane p n => s.modLink p n fun l => { l with tdc := q }

/-- The part of a pair. -/
abbrev TdcAt.part : TdcAt → Part
  | .channel _ => .fd
  | .timing p => p
  | .lane p _ => p

/-- The object number of a pair in its FAULT events: the channel, 32 the timing block, 64 and up the lane positions (log entry 77). -/
def TdcAt.obj : TdcAt → Nat
  | .channel n => n
  | .timing _ => 32
  | .lane _ n => 64 + n

/-- The part has such a pair (R3, R87, R90): channels on a VXD-2880 only, lane TDCs at every position but those it lacks. -/
def State.hasPair (a : TdcAt) (s : State) : Bool :=
  match a with
  | .channel n => s.dist.variant = .vxd2880 && decide (n < 32)
  | .timing _ => true
  | .lane p n => if p = .fd then decide (n < 80) else decide (n < s.die.tlPorts) || n == 2 || (s.die.pkgPort && decide (8 ≤ n) && decide (n < 16))

/-- What has become of a pair is stored; a failure is logged, and the alert comes after two in a row (R100, R397). -/
def State.pairNow (a : TdcAt) (q : TdcPair) (s : State) : State :=
  let s1 := s.setPair a q
  if q.fails ≤ (s.pair a).fails then s1
  else
    let s2 := s1.faultLog a.part 0x10 0 a.obj
    if 2 ≤ q.fails then s2.faultAlert a.part else s2

/-- The pair takes an edge (R99). -/
def State.pairEdge (a : TdcAt) (twin : Option Int) (s : State) : State := s.pairNow a ((s.pair a).edge s.now twin)

/-- A calibration asked for (R98, R100): after two failures in a row none runs. -/
def State.pairCal (a : TdcAt) (s : State) : State := if 2 ≤ (s.pair a).fails then s else s.setPair a (s.pair a).begin_

/-- The calibration period in s: CAL_PERIOD_S of a channel, its reset value for the timing block and the lanes, which have no register of it (log entry 77). -/
def State.calPeriod (a : TdcAt) (s : State) : Nat :=
  match a with
  | .channel n => s.get .fd (Rg.TDC_CAL_PERIOD_S n)
  | _ => 600

/-- TDC_CAL_START (R90, R98, R100): CAL_PERIOD_S since the last swap, a change of 2 K of the die temperature (here in 0.01 °C) since then, or a queued request starts
the calibration; after two failures in a row none runs. -/
def execTdcCalStart (a : TdcAt) (temp : Int) (s : State) : Host.Outcome State Fault Refusal :=
  let q := { s.pair a with temp := temp }
  let due := decide (q.swapNow + s.calPeriod a * 1000000000 ≤ s.now) || decide (200 ≤ (temp - q.swapTemp).natAbs) || q.queued
  .next (if !s.hasPair a then s else if due && decide (q.fails < 2) then s.setPair a q.begin_ else s.setPair a q)

/-- TDC_CAL_TABLE_DONE (R90, R98 to R100): a table that passes starts the parallel check. -/
def execTdcCalTableDone (a : TdcAt) (hits : List Nat) (s : State) : Host.Outcome State Fault Refusal :=
  let q := s.pair a
  .next (if q.cal != .density then s
    else if tablePasses hits then s.setPair a { q with twin := hits, twinNow := s.now, cal := .check, diffs := [], checkFrom := s.now }
    else s.pairNow a q.fail)

/-- TDC_CHECK_TIMEOUT (R99): fewer than 64 edges in 120 s; the twin becomes the main on its table test alone. -/
def execTdcCheckTimeout (a : TdcAt) (s : State) : Host.Outcome State Fault Refusal :=
  .next (if (s.pair a).cal = .check then
      let s1 := s.awaitNow ((s.pair a).checkFrom + 120000000000)
      s1.setPair a ((s1.pair a).swap s1.now false)
    else s)

end Sys2Proof.Machine
end

