-- ==== Sys2Proof/Machine/References.lean ====
section
/-! DEFINITION. References, selection, the jump test, holdover, PTP and the timing outputs (R56 to R86, R432, R447). -/

namespace Sys2Proof.Machine

open Sys2Proof

/-! The two inputs. -/

/-- The SELECTED code of a reference (R85). -/
def RefIn.code : RefIn → Nat
  | .a => 1
  | .b => 2

/-- The index of a reference's OFFSET and KEEP registers. -/
def RefIn.idx : RefIn → Nat
  | .a => 0
  | .b => 1

/-- The other input. -/
def RefIn.other : RefIn → RefIn
  | .a => .b
  | .b => .a

/-- REF_x_QUAL. -/
def RefIn.qual : RefIn → Field
  | .a => Rg.REFS_REF_A_QUAL
  | .b => Rg.REFS_REF_B_QUAL

/-- REF_x_REFUSED. -/
def RefIn.refusedF : RefIn → Field
  | .a => Rg.REFS_REF_A_REFUSED
  | .b => Rg.REFS_REF_B_REFUSED

/-- REF_x_EN. -/
def RefIn.en : RefIn → Field
  | .a => Rg.REF_REF_A_EN
  | .b => Rg.REF_REF_B_EN

/-- A reference input's own state. -/
def State.refSt (x : RefIn) (s : State) : RefSt :=
  match x with
  | .a => s.dist.refA
  | .b => s.dist.refB

/-- The state with a reference input's state replaced. -/
def State.setRef (x : RefIn) (r : RefSt) (s : State) : State :=
  match x with
  | .a => s.setDist { s.dist with refA := r }
  | .b => s.setDist { s.dist with refB := r }

/-- The state with the holdover engine replaced. -/
def State.setHold (h : HoldSt) (s : State) : State := s.setDist { s.dist with hold := h }

/-- An input is measured: enabled, or under the start defaults of R379. -/
def State.refEnabled (x : RefIn) (s : State) : Bool := s.flag .fd Rg.START_START_DEFAULTS || s.flag .fd x.en

/-- The input that PRIMARY puts first (R61). -/
def State.primary (s : State) : RefIn := if s.flag .fd Rg.REF_PRIMARY then .b else .a

/-- The inputs in priority order. -/
def State.priority (s : State) : List RefIn := [s.primary, s.primary.other]

/-- OFFSET_x has been measured. -/
def State.offsetKnown (x : RefIn) (s : State) : Bool := s.get .fd (Rg.REFO_OFFSET x.idx) != 0x80000000

/-- OFFSET_x, in 0.25 ns (R65). -/
def State.offset (x : RefIn) (s : State) : Int := s.getS .fd (Rg.REFO_OFFSET x.idx)

/-! Records and outputs. -/

/-- A REF_EVENT record (R296): the source, the event's code, the offset where one is concerned. -/
def State.refEvent (src ev : Nat) (off : Option Int) (s : State) : State :=
  let conts := match off with
    | some o => [ofSigned 32 o]
    | none => []
  s.record .fd { kind := 0x20, obj := src, arg := Config.eventCode 0x20 ev % 256, hallwide := true, conts := conts }

/-- An output (R79). -/
def State.out (n : Nat) (s : State) : OutSt := SMap.get {} n s.dist.outs

/-- The state with an output replaced. -/
def State.setOut (n : Nat) (o : OutSt) (s : State) : State := s.setDist { s.dist with outs := SMap.set n o s.dist.outs }

/-- The unit's HT in 0.25 ns, in which outputs are placed. -/
def State.htQ (s : State) : Nat := s.ht .fd / 16384

/-- The reference a code names. -/
def refOf (n : Nat) : Option RefIn := if n = 1 then some .a else if n = 2 then some .b else none

/-- The TRACK position of an output relative to the HT second, in 0.25 ns (R80): OFFSET for source HT; for a reference OFFSET after its PPS edge, on FREQ_OUT after the
edge of its 10 MHz input. -/
def State.trackPhase (n : Nat) (s : State) : Int :=
  let off := s.getS .fd (Rg.OUT_OFFSET n)
  match refOf (s.get .fd (Rg.OUT_SOURCE n)) with
  | none => off
  | some x =>
    let m : Int := ((if n < 4 then (s.refSt x).edgeHt else (s.refSt x).cycHt) / 16384 % 4000000000 : Nat)
    (if m < 2000000000 then m else m - 4000000000) + off

/-- The phase of an output under the HOLD rule at an HT in 0.25 ns (R81): what it holds, and in a move without STEP what lies 1 µs/s from where the move began, up to its
target. -/
def OutSt.phaseAt (now : Nat) (o : OutSt) : Int :=
  match o.moveTo with
  | none => o.phase
  | some target =>
    if o.step then o.phase
    else
      let moved : Int := ((now - o.moveFrom) / 1000000 : Nat)
      o.phase + clampInt (-moved) moved (target - o.phase)

/-- The HT in 0.25 ns at which a move without STEP has reached its target (R81). -/
def OutSt.moveEnd (o : OutSt) : Nat :=
  match o.moveTo with
  | some target => if o.step then o.moveFrom else o.moveFrom + 1000000 * (target - o.phase).natAbs
  | none => o.moveFrom

/-- An output starts a move to its TRACK position, from where it stands now (R81). -/
def State.startMove (n : Nat) (step : Bool) (s : State) : State :=
  let o := s.out n
  (s.setOut n { o with phase := o.phaseAt s.htQ, moveTo := some (if n < 6 then s.trackPhase n else s.getS .fd (Rg.OUT_OFFSET n)), moveFrom := s.htQ, step := step }).put .fd
    (Rg.OUT_REALIGNING n) 1

/-- R82: every TRACK output on a source goes on under the HOLD rule, at the phase it has. -/
def State.outsFallback (x : RefIn) (s : State) : State :=
  (List.range 6).foldl (fun t n =>
    if t.flag .fd (Rg.OUT_ENABLE n) && !t.flag .fd (Rg.OUT_MODE n) && t.get .fd (Rg.OUT_SOURCE n) == x.code then
      (t.setOut n { (t.out n) with phase := t.trackPhase n, moveTo := none }).put .fd (Rg.OUT_OUT_FALLBACK n) 1
    else t) s

/-- An output is driven (R79). -/
def State.outDriven (n : Nat) (s : State) : Bool :=
  s.flag .fd (Rg.OUT_ENABLE n) && (s.flag .fd Rg.HT_JOINED || s.flag .fd Rg.HT_FORMED)
    && !(s.flag .fd Rg.HT_UNALIGNED && s.flag .fd (Rg.OUT_MUTE_UNALIGNED n))
    && (s.get .fd (Rg.OUT_SOURCE n) == 0 || (s.out n).armed)

/-- An output works under the HOLD rule: in HOLD, or in fallback (R81, R82). -/
def State.outHolds (n : Nat) (s : State) : Bool := s.flag .fd (Rg.OUT_MODE n) || s.flag .fd (Rg.OUT_OUT_FALLBACK n)

/-- Where an output stands now against the HT second, in 0.25 ns (R80 to R82). -/
def State.outPhase (n : Nat) (s : State) : Int := if s.outHolds n then (s.out n).phaseAt s.htQ else s.trackPhase n

/-- Outputs that have just been muted go low; a FREQ_OUT that has just been unmuted starts with its next full cycle (R79). -/
def State.muteOuts (s : State) : State :=
  (List.range 10).foldl (fun (t : State) n =>
    let o := t.out n
    if !t.outDriven n then (if o.highUntil = 0 && o.startsAt.isNone then t else t.setOut n { o with highUntil := 0, startsAt := none })
    else if (n == 4 || n == 5) && o.startsAt.isNone then
      t.setOut n { o with startsAt := some (t.htQ + ((t.outPhase n - t.htQ) % 400).toNat) }
    else t) s

/-- A source that qualifies: outputs that wait for it unmute (R79), outputs in fallback start their way back by a move without STEP (R82). -/
def State.outsReturn (x : RefIn) (s : State) : State :=
  (List.range 6).foldl (fun t n =>
    if t.get .fd (Rg.OUT_SOURCE n) == x.code then
      let t1 := t.setOut n { (t.out n) with armed := t.flag .fd (Rg.OUT_ENABLE n) || (t.out n).armed }
      if t1.flag .fd (Rg.OUT_OUT_FALLBACK n) then t1.startMove n false else t1
    else t) s |>.muteOuts

/-- The level of an output at this moment (R79 to R83). PPS_OUT and a pulse of BELL_OUT are high until the pulse ends; FREQ_OUT is a 10 MHz square wave with a rising edge
at every HT congruent to its phase modulo 100 ns; a BELL_OUT frame sends bit k, the most significant first, in the k-th 5 ns. -/
def State.outLevel (n : Nat) (s : State) : Bool :=
  let o := s.out n
  if !s.outDriven n then false
  else if n = 4 || n = 5 then
    (match o.startsAt with
      | some t0 => decide (t0 ≤ s.htQ) && decide ((((s.htQ : Int) - s.outPhase n) % 400) < 200)
      | none => false)
  else if decide (6 ≤ n) && s.flag .fd (Rg.OUT_BELL_FORM n) then
    let k := (s.htQ - o.lastPulse) / 20
    decide (o.lastPulse ≤ s.htQ) && decide (k < 8 * o.frameOut.length) && bit (o.frameOut.getD (k / 8) 0).toNat (7 - k % 8)
  else decide (o.lastPulse ≤ s.htQ) && decide (s.htQ < o.highUntil)

/-! Adoption (R61, R64 to R69). -/

/-- The phase correction outstanding is set: an offset in 0.25 ns, corrected within a limit in 1e-15 (R46, R69). A positive
offset means that HT is ahead. -/
def State.slewTo (off : Int) (rate : Nat) (s : State) : State :=
  s.setUnit .fd { s.fd with clock := { s.fd.clock with slewLeft := -(off * 16384 * lsbUnit), slewRate := rate, slewNext := none } }

/-- SLEW_LIMIT in 1e-15 (0.1 ns/s is 1e-10). -/
def State.slewLimit (s : State) : Nat := s.get .fd Rg.REF_SLEW_LIMIT * 100000

/-- The jump test of R66, against OFFSET_x less an accepted offset (R68). -/
def State.jumpPasses (x : RefIn) (s : State) : Bool :=
  let off := s.offset x - match (s.refSt x).accept with
    | some (_, o) => o
    | none => 0
  s.offsetKnown x && decide (off.natAbs ≤ 4 * s.get .fd Rg.REF_JUMP_NS)

/-- ACCEPT_PENDING follows the acceptances (R68). -/
def State.acceptFlag (s : State) : State := s.putFlag .fd Rg.REFS_ACCEPT_PENDING (s.dist.refA.accept.isSome || s.dist.refB.accept.isSome)

/-- The root adopts a reference: LOCKED on it, its acceptance consumed (KEEP moves the offset into KEEP_x), the offset left
corrected as a slew (R64, R66, R68, R69). -/
def State.adopt (x : RefIn) (s : State) : State :=
  let r := s.refSt x
  let s1 := match r.accept with
    | some (true, o) =>
      let old := s.getS .fd (Rg.REFK_KEEP x.idx)
      (s.putS .fd (Rg.REFO_OFFSET x.idx) (s.offset x + old - o)).putS .fd (Rg.REFK_KEEP x.idx) o
    | _ => s
  let s2 := (s1.setRef x { r with accept := none, refused := false, wtrFrom := none }).acceptFlag
  let s3 := (((s2.put .fd Rg.REFS_SEL_STATE 1).put .fd Rg.REFS_SELECTED x.code).put .fd Rg.REFS_LOCK 1).put .fd x.refusedF 0
  let s4 := (s3.put .fd Rg.HT_HOLDOVER 0).put .fd Rg.REFS_WTR_RUNNING 0
  let s5 := s4.slewTo (s4.offset x) s4.slewLimit
  s5.putFlag .fd Rg.HT_SLEWING (s5.offset x != 0)

/-- The revertive wait (R61): while the root is LOCKED, a qualified reference of higher priority that has not been refused waits from its qualification on; in any other
case no wait runs. -/
def State.revertiveWait (s : State) : State :=
  let x := s.primary
  let waits := s.get .fd Rg.REFS_SEL_STATE == 1 && s.flag .fd Rg.REF_REVERTIVE && s.flag .fd x.qual && s.get .fd Rg.REFS_SELECTED != x.code && !(s.refSt x).refused
  let s1 := s.setRef x { (s.refSt x) with wtrFrom := if waits then some (s.refSt x).qualNow else none }
  (s1.setRef x.other { (s1.refSt x.other) with wtrFrom := none }).putFlag .fd Rg.REFS_WTR_RUNNING waits

/-- The root refuses a reference: REF_JUMP_REFUSED and REF_x_REFUSED set, the refusal is recorded with the offset (R66). -/
def State.refuseRef (x : RefIn) (s : State) : State :=
  let s1 := (s.put .fd Rg.REFS_REF_JUMP_REFUSED 1).put .fd x.refusedF 1
  (s1.setRef x { (s1.refSt x) with refused := true }).refEvent x.code 1 (some (s.offset x))

/-- HOLDOVER on the OCXO (R64, R70). -/
def State.enterHoldover (s : State) : State :=
  let s1 := (((s.put .fd Rg.REFS_SEL_STATE 3).put .fd Rg.REFS_SELECTED 0).put .fd Rg.REFS_LOCK 0).put .fd Rg.HT_HOLDOVER 1
  let s2 := (s1.setHold { s1.dist.hold with entryHt := s1.ht .fd }).slewTo 0 0
  (s2.put .fd Rg.HT_SLEWING 0).refEvent 0 2 none

/-- The active root tests the qualified references among those given, in order: the first that passes R66 is adopted, those that
fail before it are refused. Answers whether one was adopted. -/
def State.selectFrom : List RefIn → State → Bool × State
  | [], s => (false, s)
  | x :: t, s =>
    if s.flag .fd x.qual then
      if s.jumpPasses x then (true, s.adopt x) else (s.refuseRef x).selectFrom t
    else s.selectFrom t

/-- The active root is formed and in FREE_RUN (R447). -/
def State.freeRunFormed (s : State) : Bool := s.get .fd Rg.REFS_SEL_STATE == 0 && s.flag .fd Rg.HT_FORMED && s.isActiveRoot

/-- The active root is in HOLDOVER. -/
def State.rootHoldover (s : State) : Bool := s.get .fd Rg.REFS_SEL_STATE == 3 && s.isActiveRoot

/-- A root that holds a seat and has not formed (R16). -/
def State.unformedRoot (s : State) : Bool := s.get .fd Rg.ROLL_SEAT != 0 && !s.flag .fd Rg.HT_FORMED

/-- FREE_RUN of an unformed root: the source is selected by priority, the count is steered in rate only (R64). -/
def State.selectUnformed (s : State) : State :=
  match s.priority.find? fun x => s.flag .fd x.qual with
  | some x => s.put .fd Rg.REFS_SELECTED x.code
  | none => s.put .fd Rg.REFS_SELECTED 0

/-- What the selector does when a reference qualifies, or when a gate ends for a refused reference (R61, R64, R66). -/
def State.refReady (x : RefIn) (s : State) : State :=
  if s.unformedRoot then s.selectUnformed
  else if s.freeRunFormed || s.rootHoldover then (s.selectFrom s.priority).2
  else if s.get .fd Rg.REFS_SEL_STATE = 1 && s.flag .fd Rg.REF_REVERTIVE && x == s.primary && s.get .fd Rg.REFS_SELECTED != x.code && (s.refSt x).refused then
    if s.jumpPasses x then s.adopt x else s.refuseRef x
  else s.revertiveWait

/-- HALL_FORM ends REFUSED, with no load, when the selected 1PPS reference is lost before its load instant (R432). -/
def State.abandonForm (x : RefIn) (s : State) : State :=
  if decide (2 ≤ s.dist.hall.formKind) && s.get .fd Rg.REFS_SELECTED == x.code && s.dist.hall.formBox.isSome then
    (s.setHall { s.dist.hall with formBox := none }).mbCompleteAll .fd 0x05 (.refuse)
  else s

/-- A qualified reference is disqualified (R59): flags, record, outputs, a waiting formation; the selector moves at the next beat boundary (R64). -/
def State.disqualify (x : RefIn) (s : State) : State :=
  if !s.flag .fd x.qual then s
  else
    let s0 := s.abandonForm x
    let s1 := ((s0.put .fd x.qual 0).put .fd x.refusedF 0).put .fd Rg.REFS_REF_FAULT_SEEN 1
    let s2 := s1.setRef x { (s1.refSt x) with refused := false }
    let s3 := (s2.revertiveWait.refEvent x.code 3 none).outsFallback x
    if s3.get .fd Rg.REFS_SELECTED != x.code then s3
    else if s3.unformedRoot then s3.selectUnformed
    else if s3.get .fd Rg.REFS_SEL_STATE = 1 then
      let r := (s3.nextBeat .fd).selectFrom [x.other]
      (if r.1 then r.2 else r.2.enterHoldover).revertiveWait
    else s3

/-- Every criterion of R58 held through the gate. -/
def GateMeas.passes (g : GateMeas) : Bool :=
  let sum := g.sub.foldl (· + ·) 0
  decide (g.maxGapNs ≤ 200) && g.ppsWindows == 16 && g.sub.length == 16
    && (g.sub.all fun f => decide ((16 * f - sum).natAbs ≤ 16 * 2000000)) && decide (sum.natAbs ≤ 16 * 1000000000)
    && (g.intervals.all fun i => decide (i.natAbs ≤ 20000)) && (g.phases.all fun i => decide (i.natAbs ≤ 5000))

/-- REF_GATE_END (R58): an enabled input's gate ends. A gate that passes qualifies the input, or tests a refused one again; a gate
that fails disqualifies it. Qualification works from stage 1 (R378). While a drill treats the input as disqualified no gate counts (R410). -/
def execRefGateEnd (x : RefIn) (g : GateMeas) (s : State) : Host.Outcome State Fault Refusal :=
  let s := if s.refEnabled x then s.awaitNow (s.refSt x).drillUntil else s
  if !s.refEnabled x || !s.flag .fd Rg.START_STAGE1_MET then .next s
  else if !g.passes then .next (s.disqualify x)
  else if s.flag .fd x.qual && !(s.refSt x).refused then .next s
  else
    let s1 := if s.flag .fd x.qual then s else s.setRef x { (s.refSt x) with qualNow := s.now }
    .next ((s1.put .fd x.qual 1).outsReturn x |>.refReady x)

/-- REF_DISQUALIFY (R59): the first breach of a criterion. -/
def execRefDisqualify (x : RefIn) (_breach : RefBreach) (s : State) : Host.Outcome State Fault Refusal :=
  .next (if s.refEnabled x then s.disqualify x else s)

/-- REVERTIVE_WAIT_END (R61, R64): WTR_S of qualification have passed for the higher-priority reference. -/
def execRevertiveWaitEnd (x : RefIn) (s : State) : Host.Outcome State Fault Refusal :=
  match (s.refSt x).wtrFrom with
  | none => .next s
  | some t =>
    if s.get .fd Rg.REFS_SEL_STATE = 1 && s.flag .fd Rg.REF_REVERTIVE && s.flag .fd x.qual && s.get .fd Rg.REFS_SELECTED != x.code
        then
      let s := s.awaitNow (t + s.get .fd Rg.REF_WTR_S * 1000000000)
      .next ((if s.jumpPasses x then s.adopt x else s.refuseRef x).revertiveWait)
    else .next s

/-- The free-running count of an unformed root steered in rate only (R64): the rate that made the interval since the reference's last edge other than 1 s is taken out.
The spec gives no loop for it (log entry 70). -/
def State.steerFree (interval : Nat) (s : State) : State :=
  let dev : Int := (interval : Int) - (1000000000 * nsLsb : Nat)
  let rate := s.fd.clock.rate - dev * 1000000000000000 / (1000000000 * nsLsb : Nat)
  s.setUnit .fd { s.fd with clock := { s.fd.clock with rate := clampInt (-200000000000) 200000000000 rate } }

/-- REF_PPS_EDGE (R47, R64, R65, R90): the timing block's TDC stamps a PPS edge at the coarse clock edge and bin given, its twin beside it where both stamp, and the 10 MHz edge
next to it (`cyc`, its HT80); the first sets OFFSET_x. A root locked to the input steers HT toward it within the slew limit and reports SLEWING; an unformed root that has selected
it steers its count in rate. -/
def execRefPpsEdge (x : RefIn) (coarse bin : Nat) (twin : Option Int) (cyc : Nat) (s : State) : Host.Outcome State Fault Refusal :=
  if !s.refEnabled x then .next s
  else
    let s := s.pairEdge (.timing .fd) twin
    let ht := (s.pair (.timing .fd)).stamp coarse bin 0
    let q : Nat := ht / 16384
    let m : Int := (q % 4000000000 : Nat)
    let near : Int := if m < 2000000000 then m else m - 4000000000
    let raw := near - s.getS .fd (Rg.REFK_KEEP x.idx)
    let off := if raw < -2000000000 then raw + 4000000000 else if 2000000000 ≤ raw then raw - 4000000000 else raw
    let old := s.refSt x
    let s1 := (s.putS .fd (Rg.REFO_OFFSET x.idx) off).setRef x { old with edgeHt := ht, cycHt := cyc, edged := true }
    if s1.get .fd Rg.REFS_SELECTED != x.code then .next s1
    else if s1.isActiveRoot && s1.get .fd Rg.REFS_SEL_STATE == 1 then .next ((s1.slewTo off s1.slewLimit).putFlag .fd Rg.HT_SLEWING (off != 0))
    else if s1.unformedRoot && old.edged && decide (old.edgeHt < ht) && decide (ht < old.edgeHt + 2000000000 * nsLsb) then .next (s1.steerFree (ht - old.edgeHt))
    else .next s1

/-- An operator acceptance takes effect (R68): the jump test is repeated against it where the root awaits a reference. -/
def State.acceptRef (x : RefIn) (keep : Bool) (off : Int) (s : State) : State :=
  let s1 := (s.setRef x { (s.refSt x) with accept := some (keep, off) }).acceptFlag
  if (s1.freeRunFormed || s1.rootHoldover) && s1.flag .fd x.qual && s1.jumpPasses x then s1.adopt x else s1

/-- REF_ACCEPT (R68, R86). -/
def execRefAccept (m : MbGo) (s : State) : Host.Outcome State Fault Refusal :=
  .next (s.mailbox m 0x06 (fdOnly m.part 1) [1, 1, 4] none fun a t =>
    t.atRoot (if t.liveJob .fd then (.refuse, t)
    else match refOf (a.getD 0 0) with
      | none => (.badArg, t)
      | some x => if 1 < a.getD 1 0 then (.badArg, t) else (.ok [], (t.nextBeat .fd).acceptRef x (a.getD 1 0 == 1) (toSigned 32 (a.getD 2 0)))))

/-- A pending acceptance removed (R68). -/
def State.cancelAccept (x : RefIn) (s : State) : State := (s.setRef x { (s.refSt x) with accept := none }).acceptFlag

/-- REF_ACCEPT_CANCEL (R68, R86). -/
def execRefAcceptCancel (m : MbGo) (s : State) : Host.Outcome State Fault Refusal :=
  .next (s.mailbox m 0x0A (fdOnly m.part 1) [1] none fun a t =>
    t.atRoot (match refOf (a.getD 0 0) with
      | none => (.badArg, t)
      | some x => if (t.refSt x).accept.isSome then (.ok [], t.cancelAccept x) else (.refuse, t)))

/-! Holdover (R70, R71). -/

/-- The model's y in 1e-15 at the present time: the coefficients that HOLD_QUALITY lets count (R70, R71). -/
def State.modelY (s : State) : Int :=
  let f0 := s.getS .fd Rg.HOLD_F0
  if s.get .fd Rg.REFS_HOLD_QUALITY = 2 then
    let t : Int := ((s.ht .fd - s.dist.hold.entryHt) / nsLsb : Nat)
    let dT := s.dist.hold.temp - s.getS .fd Rg.HOLD_TREF
    f0 + (s.getS .fd Rg.HOLD_AGING * t) / (86400000000000 * 1000) + (s.getS .fd Rg.HOLD_C1 * dT) / 100 + (s.getS .fd Rg.HOLD_C2 * dT * dT) / 10000
  else f0

/-- The count rate of a part's HT set, within ±200 ppm (R45). -/
def State.setRate (p : Part) (r : Int) (s : State) : State :=
  s.setUnit p { s.unit p with clock := { (s.unit p).clock with rate := clampInt (-200000000000) 200000000000 r } }

/-- A cable reversal holds this unit, as the child, on its frequency model (R133). -/
def State.reversing (s : State) : Bool := (s.link .fd 64).heldModel || (s.link .fd 65).heldModel

/-- The unit runs on its OCXO under the model: HOLDOVER, ISOLATED, FREE_RUN of a formed root, or a child in a cable reversal (R70, R133, R447). -/
def State.onModel (s : State) : Bool :=
  let st := s.get .fd Rg.REFS_SEL_STATE
  st == 3 || st == 4 || s.freeRunFormed || s.reversing

/-- HOLDOVER_BEAT (R70): the count rate becomes −y. -/
def execHoldoverBeat (s : State) : Host.Outcome State Fault Refusal :=
  .next (if s.onModel then s.setRate .fd (-s.modelY) else s)

/-- HOLD_QUALITY (R70, R71): the quality that learning has reached, but no more than FREQ while the temperature lies outside the learned span or has not been read for
10 s. -/
def State.qualityCap (s : State) : State :=
  let h := s.dist.hold
  let out := h.temp < h.spanLo || h.spanHi < h.temp
  let late := h.failing && decide (h.tempNow + 10000000000 ≤ s.now)
  s.put .fd Rg.REFS_HOLD_QUALITY (if out || late then min h.quality 1 else h.quality)

/-- TEMPERATURE_READ (R70): a read stores the temperature; a failed read keeps the last value, and after 10 s of failures
HOLD_QUALITY drops to FREQ. -/
def execTemperatureRead (temp : Option Int) (s : State) : Host.Outcome State Fault Refusal :=
  match temp with
  | some t => .next ((s.setHold { s.dist.hold with temp := t, tempNow := s.now, failing := false }).qualityCap)
  | none => .next ((s.setHold { s.dist.hold with failing := true }).qualityCap)

/-- The sum of integers. -/
def sumInt (l : List Int) : Int := l.foldl (· + ·) 0

/-- The determinant of a square matrix given by its rows, expanded along the first column; `n` is its size. -/
def det : Nat → List (List Int) → Int
  | 0, _ => 1
  | n + 1, rows => sumInt ((List.range (n + 1)).map fun i =>
      (if i % 2 = 0 then 1 else -1) * (rows.getD i []).headD 0 * det n ((rows.eraseIdx i).map List.tail))

/-- The least-squares coefficients of samples over their regressors, by the normal equations and Cramer's rule: numerators and their common denominator. -/
def leastSquares (xs : List (List Int)) (ys : List Int) : List Int × Int :=
  let k := (xs.headD []).length
  let col := fun j : Nat => xs.map fun r => r.getD j 0
  let dot := fun a b : List Int => sumInt (List.zipWith (· * ·) a b)
  let m := (List.range k).map fun i => (List.range k).map fun j => dot (col i) (col j)
  let v := (List.range k).map fun i => dot (col i) ys
  ((List.range k).map fun j => det k (List.zipWith (fun (r : List Int) (b : Int) => r.set j b) m v), det k m)

/-- What P1 makes of the gates it has learned from, newest first (R71): F0 is the mean over the last 1,024 s (64 gates); AGING, C1 and C2 are the least-squares fit over the
last 7 days, against the time in s and the temperature from TREF, C1 and C2 zero where the span is under 2 K. TREF is the mean temperature (log entry 71). -/
def fitModel (gs : List LearnGate) : Int × Int × Int × Int × Int :=
  let g0 := gs.take 64
  let f0 := roundDiv (sumInt (g0.map (·.y))) g0.length
  let tref := roundDiv (sumInt (gs.map (·.temp))) gs.length
  let newest := ((gs.map (·.now)).headD 0)
  let temps := gs.map (·.temp)
  let wide := decide (200 ≤ temps.foldl max (temps.headD 0) - temps.foldl min (temps.headD 0))
  let row := fun g : LearnGate =>
    let t : Int := -((newest - g.now) / 1000000000 : Nat)
    let d := g.temp - tref
    if wide then [1, t, d, d * d] else [1, t]
  let r := leastSquares (gs.map row) (gs.map (·.y))
  -- 1e-15 a second to 1e-18 a day; 1e-15 a 0.01 K to 1e-15 a K; 1e-15 a (0.01 K)² to 1e-15 a K²
  (f0, roundDiv (r.1.getD 1 0 * 86400 * 1000) r.2, roundDiv (r.1.getD 2 0 * 100) r.2, roundDiv (r.1.getD 3 0 * 10000) r.2, tref)

/-- MODEL_LEARN (R71): at the end of a 16 s gate, while the unit is LOCKED, TRACKING or MIRROR, P1 takes the OCXO's fractional frequency offset over the gate, `y` in 1e-15, and
writes the coefficients. HOLD_QUALITY follows the seconds of lock since power-good and in the last 7 days. -/
def execModelLearn (y : Int) (s : State) : Host.Outcome State Fault Refusal :=
  let st := s.get .fd Rg.REFS_SEL_STATE
  if !(st == 1 || st == 2 || st == 5) || !s.roleUp .fd 1 then .next s
  else
    let h := s.dist.hold
    let gs := (({ now := s.now, y := y, temp := h.temp } : LearnGate) :: h.gates).filter fun g => decide (s.now < g.now + 604800000000000)
    let c := fitModel gs
    let s1 := ((s.putS .fd Rg.HOLD_F0 c.1).putS .fd Rg.HOLD_AGING c.2.1).putS .fd Rg.HOLD_TREF c.2.2.2.2
    let s2 := (s1.putS .fd Rg.HOLD_C1 c.2.2.1).putS .fd Rg.HOLD_C2 c.2.2.2.1
    let temps := gs.map (·.temp)
    let q := if h.learned + 1 < 64 then 0 else if 16200 ≤ gs.length then 2 else 1
    .next ((s2.setHold { h with gates := gs, learned := h.learned + 1, quality := q,
                                spanLo := temps.foldl min h.temp, spanHi := temps.foldl max h.temp }).qualityCap)

/-! PTP and wall time (R77, R78, R86). -/

/-- The order of the default best master clock algorithm between two announced masters (R77, log entry 68): the first of the fields in which they differ decides, the
smaller value being better. -/
def PtpMaster.better (a b : PtpMaster) : Bool :=
  let ks := fun m : PtpMaster => [m.priority1, m.clockClass, m.accuracy, m.variance, m.priority2, m.identity, m.steps, m.port]
  match (List.zip (ks a) (ks b)).find? fun e => e.1 != e.2 with
  | some e => decide (e.1 < e.2)
  | none => false

/-- How long a master counts after it was last heard: three announce intervals of 2 s (log entry 68). -/
def announceNs : Nat := 6000000000

/-- The masters heard, with one heard now; a master is one port of one clock. -/
def PtpSt.hear (m : PtpMaster) (now : Nat) (q : PtpSt) : PtpSt :=
  { q with masters := (m, now) :: q.masters.filter fun e => !(e.1.identity == m.identity && e.1.port == m.port) && decide (now < e.2 + announceNs) }

/-- No master heard is better than this one. -/
def PtpSt.best (m : PtpMaster) (q : PtpSt) : Bool := q.masters.all fun e => !e.1.better m

/-- PTP_EXCHANGE (R77, R78): a message of the clock's domain, transport and delay mechanism makes its master known; P1 stamps the message of the best master with HT. An
exchange whose master reports clockClass 6 or 7 and a valid UTC offset counts; PTP locks after 16 consecutive measurements within ±10 µs of the regression over the last 64. -/
def execPtpExchange (x : PtpMsg) (s : State) : Host.Outcome State Fault Refusal :=
  let mine := x.domain == s.get .fd Rg.PTP_DOMAIN && x.transport == s.get .fd Rg.PTP_TRANSPORT && x.peerDelay == s.flag .fd Rg.PTP_DELAY_MECH
  let s := if s.roleUp .fd 1 && s.flag .fd Rg.PTP_PTP_EN && mine then s.setDist { s.dist with ptp := s.dist.ptp.hear x.master s.now } else s
  if !s.roleUp .fd 1 || !s.flag .fd Rg.PTP_PTP_EN || !mine || !s.dist.ptp.best x.master then .next s
  else if !((x.master.clockClass == 6 || x.master.clockClass == 7) && x.utcValid) then
    .next ((s.setDist { s.dist with ptp := { s.dist.ptp with run := 0 } }).put .fd Rg.PTP_PTP_LOCKED 0)
  else
    let q := s.dist.ptp
    let ns := s.htNs .fd
    let hist := ((ns, x.tai) :: q.hist).take 64
    let q1 := { q with hist := hist }
    let near := match q1.taiAt ns with
      | some t => decide ((t - x.tai).natAbs ≤ 10000)
      | none => false
    let run := if near then q.run + 1 else 0
    let locked := decide (16 ≤ run)
    let s1 := s.setDist { s.dist with ptp := { q1 with run := run, utcOffset := x.utcOffset, ever := q.ever || locked, lastNow := s.now } }
    .next ((s1.putFlag .fd Rg.PTP_PTP_LOCKED locked).put .fd Rg.PTP_WALL_STALE 0)

/-- PTP_TIMEOUT (R78): 10 s without a valid exchange. -/
def execPtpTimeout (s : State) : Host.Outcome State Fault Refusal :=
  if s.flag .fd Rg.PTP_PTP_EN then
    let s := s.awaitNow (s.dist.ptp.lastNow + 10000000000)
    .next (((s.setDist { s.dist with ptp := { s.dist.ptp with run := 0 } }).put .fd Rg.PTP_PTP_LOCKED 0).put .fd Rg.PTP_WALL_STALE 1)
  else .next s

/-- WALL_READ (R86): TAI ns at an HT, the TAI−UTC offset, PTP_LOCKED and WALL_STALE. Before any exchange the TAI is a free
value. -/
def execWallRead (m : MbGo) (s : State) : Host.Outcome State Fault Refusal :=
  .next (s.mailbox m 0x09 (fdOnly m.part 1) [8] none fun a t =>
    let r := match t.dist.ptp.taiAt (a.getD 0 0) with
      | some i => (ofSigned 64 i, t)
      | none => t.fresh
    (.ok [(8, r.1), (2, ofSigned 16 t.dist.ptp.utcOffset), (1, t.get .fd Rg.PTP_PTP_LOCKED), (1, t.get .fd Rg.PTP_WALL_STALE)], r.2))

/-! Formation (R41, R42, R432). -/

/-- The epoch kind a formation would take now (R42). -/
def State.epochKindNow (s : State) : Nat :=
  let pps := (refOf (s.get .fd Rg.REFS_SELECTED)).any fun x => s.flag .fd x.qual
  2 * ofBool pps + ofBool (s.flag .fd Rg.PTP_PTP_LOCKED)

/-- From when a formation may load (R42): 2 s from now, without a 1PPS reference at a beat boundary. -/
def State.formFrom (s : State) : Nat :=
  let at_ := s.htNs .fd + 2000000000
  if s.epochKindNow < 2 then beatAtOrAfter at_ * 1024 else at_

/-- The unit holds an aligned parent link (R41). -/
def State.parentAligned (s : State) : Bool := s.get .fd (Rg.LINK_LSTATE 64) == 3 || s.get .fd (Rg.LINK_LSTATE 65) == 3

/-- HALL_FORM (R41, R381, R432): checks the unit and awaits the load instant. -/
def execHallForm (m : MbGo) (s : State) : Host.Outcome State Fault Refusal :=
  .next (s.mailbox m 0x05 (s.own2880 m.part 1) [] none fun _ t =>
    let h := t.dist.hall
    if !(m.args.length == 0 || m.args.length == 256) then (.badArg, t)
    else if t.get .fd Rg.START_STAGE < 3 then (.busy, t)
    else if t.flag .fd Rg.HT_FORMED || t.parentAligned || h.otherFormed || t.get .fd Rg.ROLL_SEAT == 0 || h.seatConflict || h.formBox.isSome then
      (.refuse, t)
    else
      let map := if m.args.length = 256 then some m.args else none
      (.wait [], t.setHall { h with formKind := t.epochKindNow, formAt := t.formFrom, formBox := some m.box, formHoming := map }))

/-! Isolation and return (R74, R75). -/

/-- ISOLATED (R74): HT in holdover, UNALIGNED set, outputs that mute go low (R79). -/
def State.isolate (s : State) : State :=
  let s1 := (((s.put .fd Rg.REFS_SEL_STATE 4).put .fd Rg.REFS_SELECTED 0).put .fd Rg.REFS_LOCK 0).put .fd Rg.HT_HOLDOVER 1
  let s2 := ((s1.put .fd Rg.HT_UNALIGNED 1).put .fd Rg.HT_ALIGNED 0).setHold { s1.dist.hold with entryHt := s1.ht .fd, rejoinRun := 0 }
  s2.muteOuts.refEvent 0 4 none

/-- REJOINING (R75). -/
def State.startRejoin (s : State) : State :=
  let s1 := ((s.put .fd Rg.REFS_SEL_STATE 6).put .fd Rg.REFS_REJOIN_REFUSED 0).setHold { s.dist.hold with rejoinRun := 0 }
  s1.setUnit .fd { s1.fd with clock := { s1.fd.clock with slewRate := s1.get .fd Rg.REF_REJOIN_SLEW * 100000000 } }

/-! Timing outputs (R79 to R83). -/

/-- The last HT second boundary, in 0.25 ns. -/
def State.secondQ (s : State) : Nat := s.htNs .fd / 1000000000 * 4000000000

/-- PPS_OUT_PULSE (R80 to R82): a driven PPS output emits its pulse at its TRACK or HOLD position; a move with STEP ends at this pulse. -/
def execPpsOutPulse (n : Nat) (s : State) : Host.Outcome State Fault Refusal :=
  if decide (n < 4) && s.outDriven n then
    let o := s.out n
    let steps := s.outHolds n && o.step && o.moveTo.isSome
    let ph := if steps then o.moveTo.getD 0 else s.outPhase n
    let at_ := ((s.secondQ : Int) + ph).toNat
    let o1 := { o with pulses := o.pulses + 1, lastPulse := at_, highUntil := at_ + 400 * s.get .fd (Rg.OUT_WIDTH n) }
    .next (if steps then (s.setOut n { o1 with phase := ph, moveTo := none, step := false }).put .fd (Rg.OUT_REALIGNING n) 0
      else if s.outHolds n then s.setOut n o1 else s.setOut n { o1 with phase := ph })
  else .next s

/-- BELL_OUT_PULSE (R81, R83): a driven BELL_OUT answers a bell of its job, or any bell with ALL_JOBS, with a pulse or a frame at the bell's HT plus OFFSET, or in HOLD plus the
OFFSET it holds; a realignment applies from this bell. A second bell of the same beat adds no pulse; a bell under a high pulse extends it. -/
def execBellOutPulse (n : Nat) (bellHt : Nat) (word : BellWord) (s : State) : Host.Outcome State Fault Refusal :=
  if decide (6 ≤ n) && decide (n < 10) && s.outDriven n && (s.flag .fd (Rg.OUT_ALL_JOBS n) || word.job == s.get .fd (Rg.OUT_JOB_SEL n)) then
    let o := s.out n
    let ph := if s.flag .fd (Rg.OUT_MODE n) then o.moveTo.getD o.phase else s.getS .fd (Rg.OUT_OFFSET n)
    let at_ := ((4 * bellHt : Nat) + ph).toNat
    let again := o.pulses != 0 && o.lastPulse == at_
    let o1 := { o with pulses := if again then o.pulses else o.pulses + 1, lastPulse := at_, phase := ph, moveTo := none, step := false }
    let o2 := if s.flag .fd (Rg.OUT_BELL_FORM n) then { o1 with frameOut := bellFrame word }
      else { o1 with highUntil := max o.highUntil (at_ + 400 * s.get .fd (Rg.OUT_WIDTH n)) }
    let s1 := s.setOut n o2
    .next (if o.moveTo.isSome then s1.put .fd (Rg.OUT_REALIGNING n) 0 else s1)
  else .next s

/-- One output told to realign (R81): only an output in HOLD moves. -/
def State.realign (n : Nat) (step : Bool) (s : State) : State := if s.flag .fd (Rg.OUT_MODE n) then s.startMove n step else s

/-- OUT_REALIGN (R81, R86). -/
def execOutRealign (m : MbGo) (s : State) : Host.Outcome State Fault Refusal :=
  .next (s.mailbox m 0x07 (fdOnly m.part 1) [2, 1] none fun a t =>
    (.ok [], (setBits 10 (a.getD 0 0)).foldl (fun u n => u.realign n (a.getD 1 0 != 0)) t))

/-- OUT_REALIGN_DONE (R81, R82): the moment comes at which a move without STEP has reached its target; REALIGNING clears, and OUT_FALLBACK with it where the source has
requalified. A move with STEP and that of a BELL_OUT end with their pulse. -/
def execOutRealignDone (n : Nat) (s : State) : Host.Outcome State Fault Refusal :=
  let o := s.out n
  match o.moveTo with
  | none => .next s
  | some target =>
    if o.step || decide (6 ≤ n) then .next s
    else
      let s := s.awaitHt .fd (ceilDiv o.moveEnd 4)
      let s1 := (s.setOut n { o with phase := target, moveTo := none }).put .fd (Rg.OUT_REALIGNING n) 0
      .next (match refOf (s.get .fd (Rg.OUT_SOURCE n)) with
        | some x => if s1.flag .fd x.qual then s1.put .fd (Rg.OUT_OUT_FALLBACK n) 0 else s1
        | none => s1.put .fd (Rg.OUT_OUT_FALLBACK n) 0)

end Sys2Proof.Machine
end

