-- ==== Sys2Proof/Machine/LinkOps.lean ====
section
/-! DEFINITION. Operations on links (chapter 5): positions, words queued by class (R124), the line fit of R129, residues
(R135), SUSPECT (R137), DOWN (R123, R136, R138), qualification and selection of parents (R60, R62 to R67, R74), the join (R43). -/

namespace Sys2Proof.Machine

open Sys2Proof

/-! Positions (R14, R143, R147). -/

/-- The four mirror or peer positions of a distributor. -/
def prPorts : List Nat := [68, 69, 70, 71]

/-- The part and its configuration have this position (R148, R162). -/
def State.hasPosition (p : Part) (n : Nat) (s : State) : Bool :=
  match p with
  | .fd => decide (n < 80)
  | .sc => n == 0 || (n == 1 && decide (2 ≤ s.die.tlPorts)) || n == 2
      || (s.die.pkgPort && (if s.die.pkgIndex = 0 then decide (9 ≤ n) && decide (n < 16) else n == 8))

/-- The position carries a link at the unit's level (R14, R16): an UP position of a seated root trains and is refused; on a leaf the peer positions are used once it has been
told that its pair is dual-homed. -/
def State.posUsed (p : Part) (n : Nat) (s : State) : Bool :=
  match p with
  | .fd =>
    if n < 64 then true
    else if n < 68 then s.get .fd Rg.ROLL_SEAT != 0 || n == 64 || (n == 65 && s.role != 4)
    else decide (n < 72) && s.role != 3 && (s.role != 4 || s.dist.hall.homingSet)
  | .sc => if n < 2 then s.die.pkgIndex == 0 else n != 2

/-- The port's link has this unit as its parent end, or as the end that takes the parent's half (R130): a downstream port; a
mirror lane at the active root; a peer lane at the leaf under the even mid; on a lead die a package-port position. -/
def State.parentEnd (p : Part) (n : Nat) (s : State) : Bool :=
  match p with
  | .fd =>
    if n < 64 then true
    else if n < 68 then false
    else if s.role == 4 then bits (s.get .fd Rg.ROLL_ROLL) 15 1 == 0
    else s.isActiveRoot
  | .sc => decide (9 ≤ n) && s.die.pkgIndex == 0

/-- The position carries a tick link that is a child link of this unit. -/
def State.childEnd (p : Part) (n : Nat) (s : State) : Bool :=
  match p with
  | .fd => decide (64 ≤ n) && decide (n < 66)
  | .sc => decide (n < 2) || (n == 8 && s.die.pkgIndex != 0)

/-- A package-port position of the step core. -/
def isPkg (p : Part) (n : Nat) : Bool := p = .sc && decide (8 ≤ n)

/-- A port runs as enabled: by its ENABLE, or by the start defaults before the configuration image (R379). -/
def State.portEnabled (p : Part) (n : Nat) (s : State) : Bool :=
  if isPkg p n then s.die.pkgPort
  else if s.flag p Rg.START_START_DEFAULTS then
    match p with
    | .fd => decide (n < 66) || (decide (68 ≤ n) && decide (n < 72))
    | .sc => s.die.pkgIndex == 0 && decide (n < s.die.tlPorts)
  else s.flag p (Rg.LINK_ENABLE n)

/-- The medium of a port is optical: MEDIUM, or before the configuration image the calibration record's, or without a record whether a module answers
over CMIS (R379). -/
def State.optical (p : Part) (n : Nat) (s : State) : Bool :=
  if s.flag p Rg.START_START_DEFAULTS then
    match if (s.unit p).fw.eepromOk then (s.link p n).storedCal else none with
    | some c => c.optical
    | none => (s.link p n).moduleHere
  else s.flag p (Rg.LINK_MEDIUM n)

/-- A link's state (R136): 0 DOWN, 1 TRAINING, 2 RANGING, 3 ALIGNED, 4 SUSPECT. -/
def State.lstate (p : Part) (n : Nat) (s : State) : Nat := s.get p (Rg.LINK_LSTATE n)

/-- The link carries words: ALIGNED or SUSPECT. -/
def State.linkUp (p : Part) (n : Nat) (s : State) : Bool := s.lstate p n == 3 || s.lstate p n == 4

/-- A LINK_EVENT record (R296): the position, the link's state, the cause, words discarded. The cause is SUSPECT_CAUSE for SUSPECT (event 2); the spec
numbers no other (log entry 6). -/
def State.linkEvent (p : Part) (n ev discarded : Nat) (s : State) : State :=
  let cause := if ev = 2 then s.get p (Rg.LINK_SUSPECT_CAUSE n) else Config.eventCode 0x21 ev % 256
  s.record p { kind := 0x21, obj := n, port := n % 64, hallwide := true, arg := s.lstate p n + 256 * cause + 65536 * sat 8 discarded }

/-- A link enters a state; its timers restart. -/
def State.setLstate (p : Part) (n st : Nat) (s : State) : State :=
  (s.put p (Rg.LINK_LSTATE n) st).modLink p n fun l => { l with enteredNow := s.now, clearRun := 0, heldNs := 0, heldFrom := none }

/-! Dual-homed pairs (R17 to R20). -/

/-- The peer lane over which a leaf of a dual-homed pair passes words to its partner. -/
def State.peerLane (s : State) : Option Nat := if s.role == 4 && s.dist.hall.dualHere then prPorts.find? fun n => s.linkUp .fd n else none

/-! Words and tunnel messages to send. -/

/-- A control word queued on a port. -/
def State.sendWord (p : Part) (n : Nat) (w : CtlWord) (s : State) : State :=
  if s.linkUp p n then s.modLink p n fun l => { l with txq := l.txq ++ [w] } else s

/-- A control word queued on every port of a list. -/
def State.sendWords (p : Part) (ns : List Nat) (w : CtlWord) (s : State) : State := ns.foldl (fun t n => t.sendWord p n w) s

/-- A tunnel message queued on a port. -/
def State.sendTunnel (p : Part) (n : Nat) (m : TunMsg) (s : State) : State :=
  if s.linkUp p n then s.modLink p n fun l => { l with tunnel := l.tunnel ++ [m] } else s

/-- A tunnel message queued on every port of a list. -/
def State.sendTunnels (p : Part) (ns : List Nat) (m : TunMsg) (s : State) : State := ns.foldl (fun t n => t.sendTunnel p n m) s

/-- The ports on which a unit sends its upward words: a mid on its selected parent's link, a leaf on UP0; a lead die on both
tick-link ports (R142), another die on its package port. -/
def State.upPorts (p : Part) (s : State) : List Nat :=
  match p with
  | .fd => if s.role == 3 then (if s.get .fd Rg.REFS_SELECTED == 4 then [65] else [64]) else if s.role == 4 then [64] else []
  | .sc => if s.die.pkgIndex == 0 then [0, 1] else [8]

/-- A word sent upward. -/
def State.sendUp (p : Part) (w : CtlWord) (s : State) : State := s.sendWords p (s.upPorts p) w

/-- A unit's own roll number or roll prefix. -/
def State.ownRoll (p : Part) (s : State) : Nat :=
  match p with
  | .fd => s.get .fd Rg.ROLL_ROLL
  | .sc => s.get .sc Rg.SROLL_ROLL

/-- The roll that a distributor assigns to the unit at a downstream port (R22, R139): a leaf in dual mode clears bit 15. -/
def State.assignedRoll (n : Nat) (s : State) : Nat :=
  let own := s.get .fd Rg.ROLL_ROLL
  if s.role == 3 then own + 512 * n
  else if s.role == 4 then (if s.dist.hall.dualHere && bit own 15 then own - 32768 else own) + 8 * n
  else 32768 * n

/-- The roll lies in the subtree at a downstream port (R22, R224). -/
def State.rollInPort (n roll : Nat) (s : State) : Bool :=
  if s.role == 3 then roll / 512 == s.assignedRoll n / 512
  else if s.role == 4 then roll / 8 == s.assignedRoll n / 8
  else roll / 32768 == n || (roll / 32768 == n - n % 2 && n % 2 == 1)

/-- The downstream port toward a roll: by the fields of R22. -/
def State.portToward (roll : Nat) (s : State) : Nat :=
  if s.role == 3 then bits roll 9 6 else if s.role == 4 then bits roll 3 6 else bits roll 15 6

/-! The offset filter (R129). -/

/-- The least-squares line through the exchanges in hand, newest first: its value at the newest beat in 2^-16 ns and its slope in 2^-32 ns a
beat. -/
def fitLine (es : List Exchange) : Int × Int :=
  match es with
  | [] => (0, 0)
  | e0 :: _ =>
    let xs := es.map fun e => e.beat - e0.beat
    let ys := es.map fun e => e.theta
    let n : Int := es.length
    let sx := xs.foldl (· + ·) 0
    let sy := ys.foldl (· + ·) 0
    let sxx := (xs.map fun x => x * x).foldl (· + ·) 0
    let sxy := (List.zipWith (fun x y => x * y) xs ys).foldl (· + ·) 0
    let den := n * sxx - sx * sx
    if den = 0 then (e0.theta, 0) else (roundDiv (sy * sxx - sx * sxy) den, roundDiv ((n * sxy - sx * sy) * 65536) den)

/-- How far an exchange lies from a line, in 2^-16 ns. -/
def Exchange.off (ab : Int × Int) (newest : Int) (e : Exchange) : Int := e.theta - ab.1 - ab.2 * (e.beat - newest) / 65536

/-- The mean square scatter of the exchanges about their line, in (2^-16 ns)². -/
def scatter (es : List Exchange) : Int :=
  match es with
  | [] => 0
  | e0 :: _ => (es.map fun e => e.off (fitLine es) e0.beat * e.off (fitLine es) e0.beat).foldl (· + ·) 0 / es.length

/-- θ̂ of R129 at a beat: the line there, less the corrections applied. -/
def Link.thetaHat (beat : Nat) (l : Link) : Int :=
  match l.exch with
  | [] => 0
  | e0 :: _ => (fitLine l.exch).1 + ((fitLine l.exch).2 * ((beat : Int) - e0.beat) - l.applied) / 65536

/-- A time in 2^-16 ns as ps. -/
def lsbToPs (i : Int) : Int := roundDiv (i * 1000) 65536

/-- A time in ps as 2^-16 ns. -/
def psToLsb (i : Int) : Int := roundDiv (i * 65536) 1000

/-- ASYM (R128) for a mean delay, in 2^-16 ns; WAVE counts on optical links only. -/
def State.asym (p : Part) (n : Nat) (delay : Int) (s : State) : Int :=
  if isPkg p n then psToLsb (toSigned 64 (s.image p imgPkgAsym))
  else psToLsb (s.getS p (Rg.LINK_MED_ASYM n)) + (if s.optical p n then roundDiv (s.getS p (Rg.LINK_WAVE n) * delay) 100000000 else 0)

/-- d_down of a port (R127), in ps. -/
def State.dDown (p : Part) (n : Nat) (s : State) : Int :=
  let d := (s.link p n).delay
  lsbToPs (d + s.asym p n d / 2)

/-! Residues (R52, R131, R135). -/

/-- CAL_UNC of a basis in ps: 1 REFLECT, 2 REVERSAL, 3 ENTERED, any other CABLING; 25 ps on a package port. -/
def calUnc (pkg : Bool) (basis : Nat) : Int :=
  if pkg then 25 else if basis = 1 then 20 else if basis = 2 then 15 else if basis = 3 then 40 else 100

/-- The residue limit of a hop in ps (R52). -/
def State.residLimit (p : Part) (n : Nat) (s : State) : Int :=
  if isPkg p n then 40 else if s.optical p n then 150 else 80

/-- RESID_EST in ps (R135). -/
def State.residEst (p : Part) (n : Nat) (s : State) : Int :=
  let l := s.link p n
  let c := l.cal.getD {}
  calUnc (isPkg p n) c.basis + roundDiv (lsbToPs (l.delay - c.dCal)).natAbs 10 + (if s.flag p (Rg.LINK_ON_SPARE n) then 5 else 0)

/-- The channel of an electrical port is outside the electrical definition (R113): D above 450 ns. -/
def State.outOfRange (p : Part) (n : Nat) (s : State) : Bool :=
  !isPkg p n && !s.optical p n && decide (450 * 65536 < (s.link p n).delay)

/-! Parents (R60, R62, R64, R67, R74, R75). -/

/-- A parent or mirror source qualifies (R60). -/
def State.portQualifies (n : Nat) (s : State) : Bool :=
  s.lstate .fd n == 3 && (s.link .fd n).far.joined && !(s.link .fd n).far.unaligned

/-- The first mirror lane that qualifies. -/
def State.mirrorPort (s : State) : Option Nat := prPorts.find? fun n => s.portQualifies n

/-- The parent a mid or leaf should follow (R62): the qualified one that is the active root; between two that are, or that are not, the present one while it stays qualified; of
two that are not, the standby root. Where none of this decides, port 64 is taken (log entry 73). -/
def State.wantedParent (s : State) : Option Nat :=
  let q0 := s.portQualifies 64
  let q1 := s.portQualifies 65 && s.role == 3
  let a0 := (s.link .fd 64).far.activeRoot
  let a1 := (s.link .fd 65).far.activeRoot
  let standby := fun n : Nat => (s.link .fd n).far.role == 2
  let cur := if s.get .fd Rg.REFS_SELECTED = 3 then some 64 else if s.get .fd Rg.REFS_SELECTED = 4 then some 65 else none
  if q0 && q1 then
    if a0 && !a1 then some 64
    else if a1 && !a0 then some 65
    else match cur with
      | some n => some n
      | none => if !a0 && !standby 64 && standby 65 then some 65 else some 64
  else if q0 then some 64
  else if q1 then some 65
  else none

/-- The follower tracks a parent: TRACKING on it, a non-zero offset corrected as a slew within SLEW_LIMIT (R64, R69). -/
def State.track (n : Nat) (s : State) : State :=
  let s1 := (((s.put .fd Rg.REFS_SEL_STATE 2).put .fd Rg.REFS_SELECTED (n - 61)).put .fd Rg.REFS_LOCK 1).put .fd Rg.HT_HOLDOVER (ofBool (s.link .fd n).far.holdover)
  s1.setUnit .fd { s1.fd with clock := { s1.fd.clock with slewRate := s1.slewLimit } }

/-- The jump test of a follower (R67): the new parent's offset against JUMP_NS. -/
def State.parentPasses (n : Nat) (s : State) : Bool :=
  decide ((s.link .fd n).theta.natAbs ≤ 65536 * s.get .fd Rg.REF_JUMP_NS)

/-- The offset lies within the automatic rejoin limit (R75). -/
def State.rejoinWithin (n : Nat) (s : State) : Bool :=
  decide ((s.link .fd n).theta.natAbs ≤ 65536 * 1000 * s.get .fd Rg.REF_REJOIN_MAX_US)

/-- The selector of a follower after a change of its sources (R64); during a cable reversal it takes no other parent (R133). A parent that turns UNALIGNED while its link stays ALIGNED gives way to
another, but where there is none the unit stays below it and inherits UNALIGNED (R74, R75). -/
def State.reselect (s : State) : State :=
  let s := (s.putFlag .fd Rg.REFS_PARENT_0_QUAL (s.portQualifies 64)).putFlag .fd Rg.REFS_PARENT_1_QUAL (s.portQualifies 65)
  let st := s.get .fd Rg.REFS_SEL_STATE
  if s.role == 2 then
    if st = 5 then (if s.mirrorPort.isSome then s else ((s.put .fd Rg.REFS_SEL_STATE 3).put .fd Rg.REFS_SELECTED 0).put .fd Rg.REFS_LOCK 0 |>.put .fd Rg.HT_HOLDOVER 1
      |> fun t => (t.setHold { t.dist.hold with entryHt := t.ht .fd, mirrorFree := s.dist.hold.mirrorFree }).refEvent 0 2 none)
    else if st = 3 && s.flag .fd Rg.HT_JOINED && s.mirrorPort.isSome then
      let t := (((s.put .fd Rg.REFS_SEL_STATE 5).put .fd Rg.REFS_SELECTED 5).put .fd Rg.REFS_LOCK 1).put .fd Rg.HT_HOLDOVER 0
      t.setUnit .fd { t.fd with clock := { t.fd.clock with slewRate := t.get .fd Rg.REF_REJOIN_SLEW * 100000000 } }
    else s
  else if !(s.role == 3 || s.role == 4) || !s.flag .fd Rg.HT_JOINED then s
  else
    let cur := s.get .fd Rg.REFS_SELECTED + 61
    match if s.reversing then none else s.wantedParent with
    | none =>
      let stays := s.lstate .fd cur == 3 && (s.link .fd cur).far.joined
      if (st = 2 && !stays) || st = 6 then s.isolate else if st = 4 then s.put .fd Rg.REFS_REJOIN_REFUSED 0 else s
    | some n =>
      if st = 2 then
        if n = cur then s
        else if s.parentPasses n then s.track n
        else (s.put .fd Rg.REFS_REF_JUMP_REFUSED 1).isolate
      else if st = 4 then
        if s.rejoinWithin n then (s.put .fd Rg.REFS_SELECTED (n - 61)).startRejoin else s.put .fd Rg.REFS_REJOIN_REFUSED 1
      else if st = 6 && !s.portQualifies cur then s.isolate
      else s

/-- The exchanges in hand as they stand once HT has been loaded: offsets, beat numbers and the unit's own stamps of exchanges under way move with it. -/
def Link.rebase (theta : Int) (oldBeat newBeat : Nat) (l : Link) : Link :=
  let move := fun t : Nat => (((t : Int) - theta) % (htSpan : Int)).toNat
  { l with exch := l.exch.map fun e => { e with beat := e.beat + newBeat - oldBeat, theta := e.theta - theta }, theta := 0,
           sentStamps := l.sentStamps.map fun e => (move e.1, e.2.1, move e.2.2), echoRx := move l.echoRx, echo2 := l.echo2.map fun e => (e.1, move e.2),
           dirty := l.dirty.map move }

/-- The join (R43): at the first alignment of the upward link HT is loaded from the parent, JOINED sets, the parent's epoch
kind and state are taken over. -/
def State.join (p : Part) (n : Nat) (s : State) : State :=
  let ahead := ((s.ht p : Int) - (s.link p n).theta) % ((1024 * nsLsb : Nat) : Int)
  let s := if p = .sc && ahead != 0 then s.awaitNow (s.now + ceilDiv (1024 * nsLsb - ahead.toNat) nsLsb) else s
  let l := s.link p n
  let s1 := s.loadHt p (((s.ht p : Int) - l.theta) % (htSpan : Int)).toNat
  let s2 := ((s1.put p Rg.HT_JOINED 1).putFlag p Rg.HT_FORMED l.far.formed).put p Rg.HT_EPOCH_KIND l.far.epochKind
  let s3 := ((s2.putFlag p Rg.HT_HOLDOVER l.far.holdover).putFlag p Rg.HT_UNALIGNED l.far.unaligned).putFlag p Rg.HT_ALIGNED (!l.far.unaligned)
  let s4 := s3.modLink p n (·.rebase l.theta (s.beat p) (s1.beat p))
  match p with
  | .fd =>
    if s.role == 2 then (((s4.put .fd Rg.REFS_SEL_STATE 5).put .fd Rg.REFS_SELECTED 5).put .fd Rg.REFS_LOCK 1).put .fd Rg.ROLL_ROLL_VALID 1
    else ((s4.put .fd Rg.REFS_SEL_STATE 2).put .fd Rg.REFS_SELECTED (n - 61)).put .fd Rg.REFS_LOCK 1
  | .sc => (s4.setDie { s4.die with timePort := n }).restage .sc

/-! The step core's two ports (R140). -/

/-- The tick-link port from which a step core should take time: port 0 while ALIGNED, otherwise port 1, without reversion. -/
def State.dieWantedPort (s : State) : Option Nat :=
  if s.die.pkgIndex != 0 then (if s.lstate .sc 8 == 3 then some 8 else none)
  else if s.lstate .sc s.die.timePort == 3 then some s.die.timePort
  else if s.lstate .sc 0 == 3 then some 0
  else if s.lstate .sc 1 == 3 then some 1
  else none

/-- Step core holdover (R140, R141): the die stays JOINED and reports UNALIGNED; it returns at 100,000 ns/s. -/
def State.dieHoldover (s : State) : State :=
  let s1 := ((s.put .sc Rg.HT_UNALIGNED 1).put .sc Rg.HT_ALIGNED 0).put .sc Rg.HT_HOLDOVER 1
  let s2 := s1.setUnit .sc { s1.sc with clock := { s1.sc.clock with slewRate := 100000000000 } }
  s2.setDie { s2.die with coreHold := true, holdRun := 0 }

/-- R140: a joined die that has lost its timing port switches, or enters holdover where the offsets differ by more than 10 ns or
no port is left. -/
def State.dieReselect (s : State) : State :=
  if !s.flag .sc Rg.HT_JOINED then s
  else match s.dieWantedPort with
    | none => if s.die.coreHold then s else s.dieHoldover
    | some n =>
      if n = s.die.timePort then s
      else if s.die.coreHold then s.setDie { s.die with timePort := n, holdRun := 0 }
      else
        let d := (s.link .sc n).theta - (s.link .sc s.die.timePort).theta
        let s1 := s.setDie { s.die with timePort := n }
        if d.natAbs ≤ 655360 then s1 else s1.dieHoldover

/-- The step core's roll number stays valid while a path that carried it is ALIGNED (R423). -/
def State.dieRollCheck (s : State) : State :=
  let ports := if s.die.pkgIndex = 0 then [0, 1] else [8]
  if s.flag .sc Rg.SROLL_ROLL_VALID && !(ports.any fun n => s.linkUp .sc n) then (s.put .sc Rg.SROLL_ROLL_VALID 0).restage .sc else s

/-- A mid's or leaf's roll prefix stays valid while a path that carried it is ALIGNED (R423). -/
def State.rollCheck (s : State) : State :=
  if (s.role == 3 || s.role == 4) && s.flag .fd Rg.ROLL_ROLL_VALID && !s.linkUp .fd 64 && !s.linkUp .fd 65 then s.put .fd Rg.ROLL_ROLL_VALID 0 else s

/-! Presence (R25, R235). -/

/-- The dies alive at a port: in a dual-homed pair a die is present while either leaf has it (R19, R25). -/
def State.aliveAt (n : Nat) (s : State) : Nat :=
  if s.role == 4 && s.dist.hall.dualHere then orMask (s.link .fd n).alive (SMap.get 0 n s.dist.hall.partnerAlive) else (s.link .fd n).alive

/-- A LIVENESS word of this leaf about a port, with its own change count. -/
def State.livenessWord (n mask : Nat) (s : State) : CtlWord :=
  { job := 0, hallwide := true, body := .liveness (s.assignedRoll n) mask (SMap.get 0 0 s.dist.hall.aliveOf) (s.ht32 .fd) }

/-- On a change of a port's set of alive dies the leaf that carries the package sends one LIVENESS word up (R235). -/
def State.reportAlive (n was : Nat) (s : State) : State :=
  if s.aliveAt n = was then s
  else
    let cnt := (SMap.get 0 0 s.dist.hall.aliveOf + 1) % 65536
    let s1 := s.setHall { s.dist.hall with aliveOf := SMap.set 0 cnt s.dist.hall.aliveOf }
    if s1.role == 4 && s1.carriesAt n then s1.sendUp .fd (s1.livenessWord n (s1.aliveAt n)) else s1

/-- The leaf's own set of alive dies at a port: the partner of a dual-homed pair learns it over a peer lane. -/
def State.portAlive (n mask : Nat) (s : State) : State :=
  if (s.link .fd n).alive = mask then s
  else
    let s1 := s.modLink .fd n fun k => { k with alive := mask }
    let s2 := match s1.peerLane with
      | some q => s1.sendWord .fd q (s1.livenessWord n mask)
      | none => s1
    s2.reportAlive n (s.aliveAt n)

/-- The partner's set of alive dies at a port. -/
def State.partnerPort (n mask : Nat) (s : State) : State :=
  (s.setHall { s.dist.hall with partnerAlive := SMap.set n mask s.dist.hall.partnerAlive }).reportAlive n (s.aliveAt n)

/-- At the beat boundary after its link was lost a package is marked absent at the leaf (R25). -/
def State.goneBeat (s : State) : State :=
  (List.range 64).foldl (fun (t : State) n => match (t.link .fd n).goneAt with
    | some b => if b ≤ t.beat .fd then (t.modLink .fd n fun l => { l with goneAt := none }).portAlive n 0 else t
    | none => t) s

/-- The seat conflict of R16 over the mirror lanes, and whether the partner root reports formed (R41). -/
def State.seatCheck (s : State) : State :=
  if s.get .fd Rg.ROLL_SEAT = 0 then s
  else
    let heard := prPorts.filter fun n => s.lstate .fd n != 0 && (s.link .fd n).farHeard && ((s.link .fd n).far.role == 1 || (s.link .fd n).far.role == 2)
    s.setHall { s.dist.hall with
      seatConflict := heard.any fun n => (s.link .fd n).far.seatB == (s.get .fd Rg.ROLL_SEAT == 2)
      otherFormed := heard.any fun n => (s.link .fd n).far.formed }

/-! DOWN and SUSPECT. -/

/-- The retry backoff after a failure (R138, R162): 100 ms, and 10 s after 8 failures in a row; 1 ms and 100 ms on a package port. -/
def backoffNs (pkg : Bool) (fails : Nat) : Nat :=
  if pkg then (if 8 ≤ fails then 100000000 else 1000000) else if 8 ≤ fails then 10000000000 else 100000000

/-- The mirror links are not ALIGNED: the root runs unmirrored (R292). -/
def State.mirrorLost (s : State) : State :=
  if !s.isActiveRoot || prPorts.any fun n => s.lstate .fd n == 3 then s
  else if s.flag .fd Rg.SB_MIRRORED || s.flag .fd Rg.SB_MIRROR_SYNC then
    ((((s.put .fd Rg.SB_MIRRORED 0).put .fd Rg.SB_MIRROR_SYNC 0).put .fd Rg.SB_MIRROR_LOST 1).faultLog .fd 0x70 0 68).faultAlert .fd
  else s

/-- The moment from which no mirror lane is ALIGNED (R405) and the mids that were ALIGNED then. -/
def State.mirrorClock (s : State) : State :=
  if prPorts.any fun n => s.lstate .fd n == 3 then s.setHall { s.dist.hall with mirrorGoneNow := none }
  else match s.dist.hall.mirrorGoneNow with
    | some _ => s
    | none => s.setHall { s.dist.hall with mirrorGoneNow := some s.now, mirrorGoneMids := maskOf 64 fun n => s.lstate .fd n == 3 }

/-- A link goes DOWN (R136): unacknowledged words are discarded and recorded (R123), the offset and delay are unmeasured, a failure
out of TRAINING, RANGING or SUSPECT starts the backoff (R138); what depended on the link follows (R16, R25, R64, R74, R140, R292). CHANNEL_RANGE stays until the link
retrains (R113), and the lane TDC keeps its tables. -/
def State.linkDown (p : Part) (n : Nat) (s : State) : State :=
  let st := s.lstate p n
  if st = 0 then s
  else
    let l := s.link p n
    let failed := st == 1 || st == 2 || st == 4
    let fails := if failed then l.fails + 1 else l.fails
    let until_ := if failed then s.now + backoffNs (isPkg p n) fails else l.backoffUntil
    let l1 : Link := { fails := fails, backoffUntil := until_, cal := l.cal, storedCal := l.storedCal, faulty := l.faulty, enteredNow := s.now,
                       calWant := l.calWant, silent := l.silent, lvSeq := l.lvSeq, alive := l.alive, tel := l.tel,
                       monitorUp := l.monitorUp, theta := l.theta, recoveryMask := l.recoveryMask, outFull := l.outFull, reverse := l.reverse,
                       spareFailed := l.spareFailed, alignedEver := l.alignedEver, storeHeld := l.storeHeld, moduleHere := l.moduleHere,
                       leftHt32 := if st = 3 then s.ht32 p else l.leftHt32, tdc := l.tdc, heldModel := l.heldModel,
                       goneAt := if p = .fd && s.role == 4 && decide (n < 64) then some (s.beat .fd + 1) else none }
    let s1 := ((s.put p (Rg.LINK_LSTATE n) 0).linkEvent p n 1 (l.out.length + l.txq.length)).setLink p n l1
    let s2 := (((s1.put p (Rg.LINK_DELAY n) (2 ^ 32 - 1)).put p (Rg.LINK_LINK_OFFSET n) 0x80000000).put p (Rg.LINK_SUSPECT_CAUSE n) 0).put p (Rg.LINK_ROLL_VALID n) 0
    let s3 := ((s2.put p (Rg.LINK_LEVEL_REFUSED n) 0).put p (Rg.LINK_HOMING_MISMATCH n) 0).putFlag p (Rg.LINK_CAL_RUNNING n) l.reverse.isSome |>.put p (Rg.LINK_SWAP_PENDING n) 0
    match p with
    | .fd =>
      let s4 := if prPorts.contains n then s3.seatCheck else s3
      ((if prPorts.contains n && st == 3 then s4.mirrorLost.mirrorClock else s4).reselect).rollCheck
    | .sc => s3.dieRollCheck.dieReselect

/-- Positions that the level taken leaves unused are powered down (R14). -/
def State.dropUnused (s : State) : State := (List.range 72).foldl (fun (t : State) n => if t.posUsed .fd n then t else t.linkDown .fd n) s

/-- The children whose roll prefix or roll number is no longer the one they were given train again (log entry 82). -/
def State.reroll (before : State) (s : State) : State :=
  (List.range 64).foldl (fun (t : State) n => if 2 ≤ t.lstate .fd n && t.assignedRoll n != before.assignedRoll n then t.linkDown .fd n else t) s

/-- A leaf's homing (R17, R18, R20, R22): told the mode, and whether its peer lanes join leaves that are no pair, it runs dual-homed or single-homed; the leaf under the even
mid begins as the carrying leaf of every package. -/
def State.runHoming (told mismatch : Bool) (s : State) : State :=
  let h := s.dist.hall
  let dual := told && !mismatch
  let odd := bit (s.get .fd Rg.ROLL_ROLL) 15
  ((s.setHall { h with homingSet := told, mismatch := mismatch, dualHere := dual,
                       carrying := if dual && !h.dualHere then (if odd then 0 else 2 ^ 64 - 1) else h.carrying }).reroll s).dropUnused

/-- A cause of SUSPECT is found (R137): bit 0 HDR, 1 JUMP, 2 FEC, 3 RESIDUE. An ALIGNED link enters SUSPECT and writes a LINK_EVENT
record. -/
def State.suspect (p : Part) (n cause : Nat) (s : State) : State :=
  let c := setBit (s.get p (Rg.LINK_SUSPECT_CAUSE n)) cause
  if s.lstate p n = 3 then
    let s1 := (((s.put p (Rg.LINK_SUSPECT_CAUSE n) c).setLstate p n 4).linkEvent p n 2 0).modLink p n fun l => { l with leftHt32 := s.ht32 p }
    match p with
    | .fd => if prPorts.contains n then s1.reselect.mirrorLost.mirrorClock else s1.reselect
    | .sc => s1.dieReselect
  else if s.lstate p n = 4 then (s.put p (Rg.LINK_SUSPECT_CAUSE n) c).modLink p n fun l => { l with clearRun := 0 }
  else s

/-- A port's link is held short of ALIGNED for a cabling reason: ALERT.CABLING and a FAULT record of class CABLING (R397). -/
def State.cablingHold (p : Part) (n : Nat) (s : State) : State :=
  if (s.link p n).held then s
  else ((s.modLink p n fun l => { l with held := true }).faultLog p 0x05 0 n).raise p Rg.ALERT_CABLING

/-- A reflectometry run is asked for on an electrical port (R132, R134): it starts when its window comes. -/
def State.wantCal (p : Part) (n : Nat) (s : State) : State := s.modLink p n fun l => { l with calWant := true }

end Sys2Proof.Machine
end

