-- ==== Sys2Proof/Machine/PayOps.lean ====
section
/-! DEFINITION. Payload arithmetic (R261, R265 to R273): formats, carry forms, the combine of two partials, the conversion of a
result, the words of a body. -/

namespace Sys2Proof.Machine

open Sys2Proof

/-! Numbers. -/

/-- A floating-point value: `fin neg m e` is (−1)^neg × m × 2^e. -/
inductive Fp where
  | nan
  | inf (neg : Bool)
  | fin (neg : Bool) (m : Nat) (e : Int)
  deriving DecidableEq, Repr

/-- A binary floating-point layout (R265): exponent and mantissa bits, bias, whether it has infinities, the largest finite encoding,
the canonical NaN if it has one. -/
structure FpFmt where
  eb : Nat
  mb : Nat
  bias : Int
  hasInf : Bool
  maxFin : Nat
  nan : Option Nat
  deriving DecidableEq, Repr

/-- The floating-point formats of R265 by code. -/
def fpFmt (f : Nat) : Option FpFmt :=
  if f = 0 then some { eb := 11, mb := 52, bias := 1023, hasInf := true, maxFin := 0x7FEFFFFFFFFFFFFF, nan := some 0x7FF8000000000000 }
  else if f = 1 then some { eb := 8, mb := 23, bias := 127, hasInf := true, maxFin := 0x7F7FFFFF, nan := some 0x7FC00000 }
  else if f = 2 then some { eb := 8, mb := 7, bias := 127, hasInf := true, maxFin := 0x7F7F, nan := some 0x7FC0 }
  else if f = 3 then some { eb := 5, mb := 10, bias := 15, hasInf := true, maxFin := 0x7BFF, nan := some 0x7E00 }
  else if f = 4 then some { eb := 4, mb := 3, bias := 7, hasInf := false, maxFin := 0x7E, nan := some 0x7F }
  else if f = 5 then some { eb := 5, mb := 2, bias := 15, hasInf := true, maxFin := 0x7B, nan := some 0x7F }
  else if f = 6 then some { eb := 3, mb := 2, bias := 3, hasInf := false, maxFin := 0x1F, nan := none }
  else if f = 7 then some { eb := 2, mb := 3, bias := 1, hasInf := false, maxFin := 0x1F, nan := none }
  else if f = 8 then some { eb := 2, mb := 1, bias := 1, hasInf := false, maxFin := 0x7, nan := none }
  else none

/-- The fp64 layout, the carry form F64. -/
def fp64 : FpFmt := { eb := 11, mb := 52, bias := 1023, hasInf := true, maxFin := 0x7FEFFFFFFFFFFFFF, nan := some 0x7FF8000000000000 }

/-- The fp32 layout. -/
def fp32 : FpFmt := { eb := 8, mb := 23, bias := 127, hasInf := true, maxFin := 0x7F7FFFFF, nan := some 0x7FC00000 }

/-- The sign bit of an encoding that is negative. -/
def FpFmt.sign (f : FpFmt) (neg : Bool) : Nat := if neg then 2 ^ (f.eb + f.mb) else 0

/-- The exponent of the least significant bit of a subnormal. -/
def FpFmt.emin (f : FpFmt) : Int := 1 - f.bias - f.mb

/-- The value of an encoding. -/
def FpFmt.decode (f : FpFmt) (v : Nat) : Fp :=
  let neg := bit v (f.eb + f.mb)
  let mag := v % 2 ^ (f.eb + f.mb)
  if f.maxFin < mag then (if f.hasInf && mag == f.maxFin + 1 then .inf neg else .nan)
  else if mag < 2 ^ f.mb then .fin neg mag f.emin
  else .fin neg (mag % 2 ^ f.mb + 2 ^ f.mb) (f.emin + (mag / 2 ^ f.mb : Nat) - 1)

/-- num × 2^e / den to the nearest integer, ties to even. -/
def divEven (num den : Nat) : Nat :=
  let q := num / den
  let r := num % den
  if 2 * r < den then q else if den < 2 * r then q + 1 else if q % 2 = 0 then q else q + 1

/-- The exponent of the leading bit of num × 2^e / den. -/
def leadExp (num den : Nat) (e : Int) : Int :=
  let l : Int := (num.log2 : Int) - den.log2
  let fits := if 0 ≤ l then decide (den * 2 ^ l.toNat ≤ num) else decide (den ≤ num * 2 ^ (-l).toNat)
  e + (if fits then l else l - 1)

/-- The magnitude num × 2^e / den rounded to nearest even in a layout without a bound on its exponent: an encoding, beyond
`maxFin` where it lies out of range. -/
def FpFmt.round (f : FpFmt) (num den : Nat) (e : Int) : Nat :=
  if num = 0 then 0
  else
    let l := leadExp num den e
    let u := if l - f.mb < f.emin then f.emin else l - f.mb
    let q := if 0 ≤ e - u then divEven (num * 2 ^ (e - u).toNat) den else divEven num (den * 2 ^ (u - e).toNat)
    (u - f.emin).toNat * 2 ^ f.mb + q

/-- A value converted to a format (R267): the encoding and whether it did not fit. -/
def FpFmt.encode (f : FpFmt) (v : Fp) : Nat × Bool :=
  match v with
  | .nan => (f.nan.getD 0, false)
  | .inf neg => if f.hasInf then (f.sign neg + f.maxFin + 1, false) else (f.sign neg + f.maxFin, true)
  | .fin neg m e =>
    let r := f.round m 1 e
    if f.maxFin < r then (if f.hasInf && f.mb != 2 then (f.sign neg + f.maxFin + 1, true) else (f.sign neg + f.maxFin, true))
    else (f.sign neg + r, false)

/-- An fp64 encoding as IEEE 754 rounds it: overflow goes to infinity. -/
def enc64 (v : Fp) : Nat := (fp64.encode v).1

/-- IEEE 754 addition of two fp64 encodings, round to nearest even; whether a NaN comes out. -/
def fadd (x y : Nat) : Nat × Bool :=
  match fp64.decode x, fp64.decode y with
  | .nan, _ => (0x7FF8000000000000, true)
  | _, .nan => (0x7FF8000000000000, true)
  | .inf a, .inf b => if a = b then (enc64 (.inf a), false) else (0x7FF8000000000000, true)
  | .inf a, .fin _ _ _ => (enc64 (.inf a), false)
  | .fin _ _ _, .inf b => (enc64 (.inf b), false)
  | .fin na ma ea, .fin nb mb eb =>
    let e := if ea < eb then ea else eb
    let a : Int := (if na then -1 else 1) * (ma * 2 ^ (ea - e).toNat : Nat)
    let b : Int := (if nb then -1 else 1) * (mb * 2 ^ (eb - e).toNat : Nat)
    if a + b = 0 then (enc64 (.fin (na && nb) 0 e), false) else (enc64 (.fin (decide (a + b < 0)) (a + b).natAbs e), false)

/-- An fp64 encoding divided by a positive count in fp64. -/
def fdivn (x c : Nat) : Fp :=
  match fp64.decode x with
  | .nan => .nan
  | .inf n => .inf n
  | .fin n m e =>
    let r := fp64.round m c e
    if fp64.maxFin < r then .inf n else fp64.decode (fp64.sign n + r)

/-- A key that orders fp64 encodings other than NaN, −0 before +0. -/
def fkey (x : Nat) : Int := if bit x 63 then -((x % 2 ^ 63 : Nat) : Int) - 1 else (x % 2 ^ 63 : Nat)

/-- An fp64 encoding is a NaN. -/
def isNan64 (x : Nat) : Bool := fp64.decode x == .nan

/-! Formats and operations (R265, R268). -/

/-- M of the residues. -/
def resMod : Nat := 2 ^ 61 - 1

/-- The width of a format. -/
def fmtWidth (f : Nat) : Nat :=
  [64, 32, 16, 16, 8, 8, 6, 6, 4, 8, 64, 32, 16, 8, 64, 64].getD f 0

/-- The source width of an operation in a format (R268). -/
def srcWidth (op f : Nat) : Nat := if op = 8 || op = 10 then 32 else fmtWidth f

/-- The pairing of operation and format is allowed (R268). -/
def opAllowed (op f : Nat) : Bool :=
  if op = 0 then f ≤ 8 || (10 ≤ f && f ≤ 14)
  else if op = 1 || op = 2 then decide (f ≤ 14)
  else if op ≤ 5 then true
  else if op = 6 then 10 ≤ f && f ≤ 14
  else if op = 7 then f == 15
  else if op = 8 || op = 10 then f == 14
  else if op = 9 then f == 9
  else if op = 11 then decide (f ≤ 8)
  else false

/-- The carry of an operation in a format is F64. -/
def carryF (op f : Nat) : Bool := (op ≤ 2 || op == 11) && f ≤ 8

/-- The carry of an operation in a format is I128. -/
def carryI (op f : Nat) : Bool := op ≤ 2 && 10 ≤ f

/-- The carry words that an element takes (R266), as bits. -/
def carryBits (op f : Nat) : Nat :=
  if carryF op f then 64 else if carryI op f then 128 else if op ≤ 2 || op = 9 then 8 else if op ≤ 5 then fmtWidth f else 64

/-! Combining (R256, R269, R270). -/

/-- The PFLAGS bits of R270. -/
def pfNan : Nat := 1
/-- INF. -/
def pfInf : Nat := 2
/-- SAT. -/
def pfSat : Nat := 4
/-- PIPE_FAULT. -/
def pfPipe : Nat := 8
/-- MASKED. -/
def pfMasked : Nat := 16
/-- DROPPED. -/
def pfDropped : Nat := 32
/-- EMPTY. -/
def pfEmpty : Nat := 64
/-- TOPK_SHORT. -/
def pfShort : Nat := 128

/-- One element of two partials combined, both with the lane unmasked or the operation's identity in it; whether a NaN arises. -/
def combineElem (op f x y : Nat) : Nat × Bool :=
  if op = 0 || op = 11 then (if carryF op f then fadd x y else ((x + y) % 2 ^ 128, false))
  else if op = 1 then
    if carryF op f then (if isNan64 x || isNan64 y then (0x7FF8000000000000, true) else (if fkey x < fkey y then y else x, false))
    else if carryI op f then (if toSigned 128 x < toSigned 128 y then y else x, false)
    else (max x y, false)
  else if op = 2 then
    if carryF op f then (if isNan64 x || isNan64 y then (0x7FF8000000000000, true) else (if fkey y < fkey x then y else x, false))
    else if carryI op f then (if toSigned 128 y < toSigned 128 x then y else x, false)
    else if x = 0xFF || y = 0xFF then (0xFF, false)
    else (min x y, false)
  else if op = 3 then (Nat.land x y, false)
  else if op = 4 then (Nat.lor x y, false)
  else if op = 5 then (Nat.xor x y, false)
  else if op = 7 then ((x + y) % resMod, false)
  else if op = 9 then (max x y, false)
  else ((x + y) % 2 ^ 64, false)

/-- Elements of two partials combined from lane `i` on. A lane that one partial has masked takes the other's element where the
identity 0xFF of MIN on e8m0 reads as its NaN. -/
def combineElems (op f px py : Nat) : Nat → List Nat → List Nat → List Nat × Bool
  | _, [], ys => (ys, false)
  | _, xs, [] => (xs, false)
  | i, x :: xs, y :: ys =>
    let r := combineElems op f px py (i + 1) xs ys
    let c := if op = 2 && f == 9 && !bit px i then (y, false) else if op = 2 && f == 9 && !bit py i then (x, false) else combineElem op f x y
    (c.1 :: r.1, c.2 || r.2)

/-- The fields that the first element partial fixes (R255, R256). -/
def Summary.sameFields (a b : Summary) : Bool :=
  a.bucket == b.bucket && a.op == b.op && a.fmt == b.fmt && a.count == b.count && a.mean == b.mean && a.baseExp == b.baseExp
    && (a.op != 10 || a.word2 == b.word2)

/-- A partial that carries elements. -/
def Body.isElem (b : Body) : Bool := b.sum.count != 0

/-- A summary-only partial (R256). -/
def summaryOnly (contrib hash pflags : Nat) : Body := { sum := { contrib := contrib, hash := hash, pflags := pflags } }

/-- Contributor count, paddock hash and PFLAGS of two partials together. -/
def Summary.merge (a b : Summary) (flags : Nat) : Summary :=
  { a with contrib := (a.contrib + b.contrib) % 2 ^ 22, hash := Nat.xor a.hash b.hash, pflags := orMask (orMask a.pflags b.pflags) flags }

/-- Two partials combined (R256): element by element where both have elements, otherwise the elements of the one that has. -/
def Body.combine (a b : Body) : Body :=
  if !b.isElem then { a with sum := a.sum.merge b.sum 0 }
  else if !a.isElem then { b with sum := b.sum.merge a.sum 0 }
  else
    let r := combineElems a.sum.op a.sum.fmt a.present b.present 0 a.elems b.elems
    let s := a.sum.merge b.sum (if r.2 then pfNan else 0)
    { sum := if a.sum.op = 11 then { s with word2 := a.sum.word2 + b.sum.word2 } else s
      present := orMask a.present b.present
      elems := r.1
      counts := List.zipWith (· + ·) a.counts b.counts }

/-! The die's partial (R254). -/

/-- The identity of a masked lane (R268). -/
def identityOf (op f : Nat) : Nat :=
  if op = 1 then (if f ≤ 8 then 0xFFF0000000000000 else if f = 9 then 0 else 2 ^ 127)
  else if op = 2 then (if f ≤ 8 then 0x7FF0000000000000 else if f = 9 then 0xFF else 2 ^ 127 - 1)
  else if op = 3 then 2 ^ fmtWidth f - 1
  else 0

/-- A source element in its carry form (R266), with the PFLAGS it raises. -/
def carryOf (op f raw : Nat) : Nat × Nat :=
  if op = 6 then (1, 0)
  else if op = 7 then (raw % resMod, 0)
  else if 3 ≤ op && op ≤ 5 then (raw, 0)
  else if op = 8 || op = 10 then (raw, 0)
  else if op = 9 then (raw, if raw = 0xFF then pfInf else 0)
  else match fpFmt f with
    | some t =>
      let v := t.decode raw
      (enc64 v, match v with
        | .nan => pfNan
        | .inf _ => pfInf
        | .fin _ _ _ => 0)
    | none =>
      if f = 9 then (raw, if raw = 0xFF then pfNan else 0)
      else if f = 14 then (raw, 0)
      else (ofSigned 128 (toSigned (fmtWidth f) raw), 0)

/-- The magnitude of an fp64 encoding. -/
def fabs (x : Nat) : Nat := if isNan64 x then x else x % 2 ^ 63

/-- The partial of one die: `raw` the source elements, `mask` the masked lanes (R254, R269, R273). -/
def diePartial (s : Summary) (raw : List Nat) (mask : Nat) : Body :=
  let n := s.count
  let lanes := List.range n
  let cs := lanes.map fun i => if bit mask i then (identityOf s.op s.fmt, 0) else carryOf s.op s.fmt (raw.getD i 0)
  let flags := cs.foldl (fun a c => orMask a c.2) (if mask % 2 ^ n = 0 then 0 else pfMasked)
  let pres := maskOf n fun i => !bit mask i
  if s.op = 11 then
    let sum := (lanes.filter fun i => !bit mask i).foldl (fun a i => (fadd a (fabs ((cs.getD i (0, 0)).1))).1) 0
    { sum := { s with contrib := 1, pflags := flags, word2 := popCount n pres }, present := pres, elems := [sum] }
  else
    { sum := { s with contrib := 1, pflags := flags }, present := pres, elems := cs.map (·.1)
      counts := if s.mean then lanes.map fun i => if bit mask i then 0 else 1 else [] }

/-- A masked lane holds a NaN or an infinity (R254). -/
def maskedOdd (s : Summary) (raw : List Nat) (mask : Nat) : Bool :=
  (s.op ≤ 2 || s.op == 9 || s.op == 11) && (List.range s.count).any fun i => bit mask i && (carryOf s.op s.fmt (raw.getD i 0)).2 != 0

/-! Results (R267, R269, R271 to R273). -/

/-- The nearest bound of an integer format, and whether the value did not fit. -/
def intResult (f : Nat) (v : Int) : Nat × Bool :=
  let w := fmtWidth f
  let lo : Int := if f = 14 then 0 else -((2 ^ (w - 1) : Nat) : Int)
  let hi : Int := if f = 14 then ((2 ^ w : Nat) : Int) - 1 else ((2 ^ (w - 1) : Nat) : Int) - 1
  (ofSigned w (clampInt lo hi v), decide (v < lo) || decide (hi < v))

/-- v / c to the nearest integer, ties to even. -/
def idivEven (v : Int) (c : Nat) : Int := if v < 0 then -((divEven v.natAbs c : Nat) : Int) else (divEven v.natAbs c : Nat)

/-- One element of a result (R267, R269, R271), with the PFLAGS it raises; `h` is H of R271, `c` the element's count. -/
def resultElem (s : Summary) (h : Nat) (x c : Nat) : Nat × Nat :=
  if carryF s.op s.fmt then
    match fpFmt s.fmt with
    | some t =>
      let r := t.encode (if s.mean then fdivn x c else fp64.decode x)
      (r.1, if r.2 then pfSat else 0)
    | none => (0, 0)
  else if carryI s.op s.fmt then
    let r := intResult s.fmt (if s.mean then idivEven (toSigned 128 x) c else toSigned 128 x)
    (r.1, if r.2 then pfSat else 0)
  else if s.op = 6 then
    let r := intResult s.fmt x
    (r.1, if r.2 then pfSat else 0)
  else if s.op = 9 then
    if x = 0xFF then (0xFE, pfInf) else if 254 < x + h then (0xFE, pfSat) else (x + h, 0)
  else (x, 0)

/-- ceil(log2 n) for n of at least 1. -/
def clog2 (n : Nat) : Nat := if n ≤ 1 then 0 else (n - 1).log2 + 1

/-- The mantissas of 2^(r/4) in fp32, rounded to nearest even (R272). -/
def quarterMant (r : Nat) : Nat := [8388608, 9975792, 11863283, 14107901].getD r 0

/-- fp32 of 2^(B + (t − 64)/4) (R272). -/
def topkThresh (b : Int) (t : Nat) : Nat :=
  let q := 4 * b + (t : Int) - 64
  fp32.round (quarterMant (q % 4).toNat) 1 (q / 4 - 23)

/-- The walk of R272 over the bins from the highest down: BIN, KEPT, and whether K was reached. -/
def topkWalk (bins : List Nat) (k : Nat) : Nat → Nat → Nat × Nat × Bool
  | 0, kept => (0, kept, false)
  | t + 1, kept =>
    let kept1 := kept + bins.getD t 0
    if k ≤ kept1 then (t, kept1, true) else topkWalk bins k t kept1

/-- What TOPK_THRESH gives: THRESH, BIN, KEPT, TOPK_SHORT (R272). -/
def topkResult (b : Int) (bins : List Nat) (k : Nat) : Nat × Nat × Nat × Bool :=
  if k = 0 then (0x7F800000, 128, 0, false)
  else
    let r := topkWalk bins k 128 0
    if r.2.2 then (if r.1 = 0 then 0 else topkThresh b r.1, r.1, r.2.1, false) else (0, 0, r.2.1, true)

/-- The width of a result's elements. -/
def Summary.resultWidth (s : Summary) : Nat :=
  if s.op = 7 || s.op = 8 || s.op = 10 then 64 else if s.op = 9 then 8 else if s.op = 11 then 32 else fmtWidth s.fmt

/-- Values of one width packed from bit 0 up. -/
def packElems (w : Nat) : List Nat → Nat
  | [] => 0
  | e :: t => e % 2 ^ w + 2 ^ w * packElems w t

/-- The 64-bit words of `bits` bits. -/
def wordsOf (nbits v : Nat) : List Nat := (List.range (ceilDiv nbits 64)).map fun i => v / 2 ^ (64 * i) % 2 ^ 64

/-- The result elements as bytes. -/
def Body.resultBytes (b : Body) : List Byte :=
  let w := b.sum.resultWidth
  leBytes (ceilDiv (w * b.elems.length) 8) (packElems w b.elems)

/-- RESULT_RESIDUE of a result's elements (R261). -/
def Body.areaResidue (b : Body) : Nat :=
  let w := b.sum.resultWidth
  (wordsOf (w * b.elems.length) (packElems w b.elems)).foldl (fun a x => (a + x) % resMod) 0

/-- The root's conversion of an epoch's total (R267): `contrib` and `hash` are those of the DONE. -/
def Body.convert (contrib hash : Nat) (b : Body) : Body :=
  let s := b.sum
  let n := s.count
  let empty := b.present % 2 ^ n != 2 ^ n - 1
  let h := clog2 contrib
  let r : List Nat × Nat :=
    if s.op = 10 then
      let k := topkResult (toSigned 8 s.baseExp) b.elems s.word2
      ([k.1 + 2 ^ 32 * k.2.1, k.2.2.1], (if k.2.2.2 then pfShort else 0) + (if empty then pfEmpty else 0))
    else if s.op = 11 then
      if s.word2 = 0 then ([0], pfEmpty)
      else
        let v := fdivn (b.elems.getD 0 0) s.word2
        let e := fp32.encode v
        ([e.1], if e.2 then pfSat else 0)
    else
      let es := (List.range n).map fun i => if bit b.present i then resultElem s h (b.elems.getD i 0) (b.counts.getD i 1) else (0, 0)
      (es.map (·.1), es.foldl (fun a e => orMask a e.2) (if empty then pfEmpty else 0))
  let out : Body := { sum := { s with contrib := contrib, hash := hash, pflags := orMask s.pflags r.2 }, elems := r.1 }
  { out with sum := { out.sum with residue := out.areaResidue } }

/-! The words of a body (R261). -/

/-- How many words a partial has. -/
def Body.partialWords (b : Body) : Nat :=
  if !b.isElem then 4
  else 4 + ceilDiv b.sum.count 64 + ceilDiv (b.elems.length * carryBits b.sum.op b.sum.fmt) 64 + b.counts.length

/-- How many words a result has. -/
def Body.resultWords (b : Body) : Nat := 4 + ceilDiv (b.elems.length * b.sum.resultWidth) 64

/-- How many words a body of a fragment kind has: 1 a partial, 2 a result. -/
def Body.wordsAs (fkind : Nat) (b : Body) : Nat := if fkind = 1 then b.partialWords else b.resultWords

end Sys2Proof.Machine
end

