-- ==== Sys2Proof/Machine/Bodies.lean ====
section
/-! DEFINITION. Payload bodies on links (R260 to R264): arrivals sent with their partials, results, the bodies being received, repeat
requests. -/

namespace Sys2Proof.Machine

open Sys2Proof

/-! Sending. -/

/-- A PTAG that no partial has yet: the arrival waits for one (R262). -/
def noPtag : Nat := 4096

/-- The lowest PTAG free on a link direction (R262). -/
def Link.freePtag (l : Link) : Nat :=
  ((List.range noPtag).find? fun t => !(l.txBodies.any fun b => b.fkind == 1 && b.tag == t)).getD noPtag

/-- An arrival sent up the ports of a list (R224); one with a partial gets a PTAG of each link direction (R262). -/
def State.sendArrive (p : Part) (ns : List Nat) (job hslot gen epoch src ht32 : Nat) (body : Option Body) (s : State) : State :=
  ns.foldl (fun (t : State) n =>
    match body with
    | none => t.sendWord p n { job := job, body := .arrive hslot gen epoch src ht32 false 0 }
    | some b =>
      if t.linkUp p n then
        let tag := (t.link p n).freePtag
        (t.sendWord p n { job := job, body := .arrive hslot gen epoch src ht32 true tag }).modLink p n fun l =>
          { l with txBodies := l.txBodies ++ [{ fkind := 1, job := job, tag := tag, body := b, hslot := hslot, epoch := epoch, have_ := b.partialWords }] }
      else t) s

/-- A word that waits for a PTAG gets one. -/
def CtlWord.givePtag (hslot epoch tag : Nat) (w : CtlWord) : CtlWord :=
  match w.body with
  | .arrive h g e src t true pt => if pt = noPtag && h = hslot && e = epoch then { w with body := .arrive h g e src t true tag } else w
  | _ => w

/-- A PTAG that has become free goes to the first partial that waits for one. -/
def Link.assignPtag (l : Link) : Link :=
  match l.txBodies.find? fun b => b.fkind == 1 && b.tag == noPtag with
  | none => l
  | some b =>
    let tag := l.freePtag
    if tag = noPtag then l
    else { l with
      txBodies := l.txBodies.map fun x => if x.fkind = 1 && x.tag = noPtag && x.hslot = b.hslot && x.epoch = b.epoch then { x with tag := tag } else x
      txq := l.txq.map (·.givePtag b.hslot b.epoch tag) }

/-- The partials of an epoch are no longer held once it has completed at the sender (R262, R264). -/
def State.freePartials (p : Part) (ns : List Nat) (job hslot epoch : Nat) (s : State) : State :=
  ns.foldl (fun (t : State) n => t.modLink p n fun l =>
    ({ l with txBodies := l.txBodies.filter fun b => !(b.fkind == 1 && b.job == job && b.hslot == hslot && b.epoch == epoch) } : Link).assignPtag) s

/-- A result queued on a port under its CLOSE_SEQ, with the words of it that are in hand. -/
def State.sendResult (p : Part) (job seq words : Nat) (body : Body) (n : Nat) (s : State) : State :=
  if !s.linkUp p n then s
  else s.modLink p n fun l =>
    if l.txBodies.any fun b => b.fkind == 2 && b.job == job && b.tag == seq then
      { l with txBodies := l.txBodies.map fun b => if b.fkind = 2 && b.job = job && b.tag = seq then { b with have_ := max b.have_ words, body := body } else b }
    else { l with txBodies := l.txBodies ++ [{ fkind := 2, job := job, tag := seq, body := body, have_ := words }] }

/-! Receiving. -/

/-- A body being received is the one of a kind, job and tag. -/
def RxBody.is (fkind job tag : Nat) (r : RxBody) : Bool := r.fkind == fkind && r.job == job && r.tag == tag

/-- Every word of the body is in hand. -/
def RxBody.whole (r : RxBody) : Bool := r.total == some r.words

/-- A fragment taken into its body: the words from the start up to the first missing one count. -/
def RxBody.take (f : Fragment) (r : RxBody) : RxBody :=
  let r1 := if f.offset ≤ r.words then { r with words := max r.words (f.offset + f.len), body := f.body } else r
  if f.last then { r1 with total := some (f.offset + f.len) } else r1

/-- The body being received at a port, if any of its fragments or its naming word has come. -/
def State.rxBody (p : Part) (n fkind job tag : Nat) (s : State) : Option RxBody := (s.link p n).rxBodies.find? (·.is fkind job tag)

/-- A body being received is changed; it is begun where there is none. -/
def State.modRx (p : Part) (n fkind job tag : Nat) (f : RxBody → RxBody) (s : State) : State :=
  s.modLink p n fun l =>
    match l.rxBodies.find? (·.is fkind job tag) with
    | some _ => { l with rxBodies := l.rxBodies.map fun r => if r.is fkind job tag then f r else r }
    | none => { l with rxBodies := l.rxBodies ++ [f { fkind := fkind, job := job, tag := tag }] }

/-- A body is no longer needed. -/
def State.dropRx (p : Part) (n fkind job tag : Nat) (s : State) : State :=
  s.modLink p n fun l => { l with rxBodies := l.rxBodies.filter fun r => !r.is fkind job tag }

/-- The control word that names a body has been accepted: it is checked 2 beats later (R264). -/
def State.nameBody (p : Part) (n fkind job tag : Nat) (s : State) : State :=
  s.modRx p n fkind job tag fun r => if r.named then r else { r with named := true, dueBeat := s.beat p + 2 }

/-- A repeat request goes to the sender (R264): FKIND 3, OFFSET 0, LEN 0. -/
def State.requestBody (p : Part) (n fkind job tag : Nat) (s : State) : State :=
  let s1 := s.modRx p n fkind job tag fun r => { r with requests := r.requests + 1, dueBeat := s.beat p + 16 }
  let s2 := s1.modLink p n fun l => { l with txBodies := l.txBodies ++ [{ fkind := 3, job := job, tag := tag, body := {} }] }
  s2.bump p (if p = .fd then Rg.PAY_REPEAT_SENT else Rg.SPAY_REPEAT_CNT)

/-- A repeat request at a sender (R264): a result is asked for from below, a partial from above. The body goes out whole again, or the
answer is GONE. -/
def State.repeatBody (p : Part) (n job tag : Nat) (s : State) : State :=
  let k := if s.parentEnd p n then 2 else 1
  s.modLink p n fun l =>
    if l.txBodies.any fun b => b.fkind == k && b.job == job && b.tag == tag then
      { l with txBodies := l.txBodies.map fun b => if b.fkind = k && b.job = job && b.tag = tag then { b with at_ := 0, sentBeat := none } else b }
    else { l with txBodies := l.txBodies ++ [{ fkind := k, job := job, tag := tag, body := {}, gone := true }] }

end Sys2Proof.Machine
end

