-- ==== Sys2Proof/Machine/Ladder.lean ====
section
/-! DEFINITION. The power ladder (R383 to R387). -/

namespace Sys2Proof.Machine

open Sys2Proof

/-- The key of a ladder unit: class `u`, unit `n`. -/
def ladderKey (u n : Nat) : Nat := u * 1024 + n

/-- A unit's rung and the time since which it has idled there. -/
def State.rung (p : Part) (u n : Nat) (s : State) : Nat × Nat :=
  SMap.get (0, (s.unit p).start.startNow) (ladderKey u n) (s.unit p).start.rungs

/-- A unit put on a rung, its dwell restarted. -/
def State.setRung (p : Part) (u n rung since : Nat) (s : State) : State :=
  s.setStart p { (s.unit p).start with rungs := SMap.set (ladderKey u n) (rung, since) (s.unit p).start.rungs }

/-- A demand on a unit (R385): below PL0 it exits directly to PL0 and counts in WAKES; its dwell starts again. -/
def State.wake (p : Part) (u n : Nat) (s : State) : State :=
  let s1 := s.setRung p u n 0 s.now
  if (s.rung p u n).1 = 0 then s1
  else (s1.bump p (Rg.PL_WAKES u)).put p (Rg.PL_UNITS_DOWN u) (s.get p (Rg.PL_UNITS_DOWN u) - 1)

/-- Demands on every unit of a class below PL0: what R384 allows has fallen to PL0. -/
def State.wakeAll (p : Part) (u : Nat) (s : State) : State :=
  (s.unit p).start.rungs.foldl (fun t e => if e.1 / 1024 = u && e.2.1 != 0 then t.wake p u (e.1 % 1024) else t) s

/-- R387: some sync queue of the step core waits. -/
def State.anyWaiting (s : State) : Bool := (List.range s.die.queues).any fun q => s.flag .sc (Rg.Q_WAITING q)

/-- The hold of R387 begins: every ladder unit of the step core below PL0 exits, HELD reports it. -/
def State.holdLadder (s : State) : State :=
  let s1 := s.sc.start.rungs.foldl (fun t e => t.wake .sc (e.1 / 1024) (e.1 % 1024)) s
  [0, 3, 4].foldl (fun t u => t.put .sc (Rg.PL_HELD u) 1) s1

/-- The hold of R387 ends: dwell timers start from zero. -/
def State.unholdLadder (s : State) : State :=
  let s1 := s.sc.start.rungs.foldl (fun t e => t.setRung .sc (e.1 / 1024) (e.1 % 1024) 0 s.now) s
  [0, 3, 4].foldl (fun t u => t.put .sc (Rg.PL_HELD u) 0) s1

/-- Any PAYLOAD slot is live at the distributor. -/
def State.payloadLive (s : State) : Bool := s.dist.hall.slots.any fun e => e.2.payload && e.2.state != .free

/-- A spare lane that carries a port. -/
def State.spareInUse (p : Part) (n : Nat) (s : State) : Bool := (if p = .fd then decide (72 ≤ n) else n == 2) && s.get p (Rg.LINK_SPARE_MAP n) != 127

/-- HELD of a class (R384, R387): a queue of the step core waits, or a limit of R384 holds a unit of the class at PL0. -/
def State.classHeld (p : Part) (u : Nat) (s : State) : Bool :=
  (p = .sc && u != 1 && u != 2 && s.anyWaiting) || (u == 3 && (List.range (if p = .fd then 80 else 16)).any fun n => s.get p (Rg.LINK_LSTATE n) != 0)
    || (p = .fd && ((u == 0 && s.payloadLive) || (u == 1 && s.liveJob .fd)))

/-- The deepest rung that R384 allows a unit now. -/
def State.ladderLimit (p : Part) (u n : Nat) (s : State) : Nat :=
  match p, u with
  | .fd, 0 => if s.get .fd (Rg.PIPE_PSTATE n) == 2 then 4 else if s.payloadLive then 0 else 3
  | .sc, 0 => if s.die.payload then 2 else 0
  | .fd, 1 => if s.liveJob .fd then 0 else 1
  | .fd, 2 => if s.dist.variant = .vxd2840 then 0 else 3
  | _, 3 => if s.get p (Rg.LINK_LSTATE n) = 0 && !s.spareInUse p n then 4 else 0
  | _, 4 => if s.get p (Rg.PREF_STATE n) = 4 then 4 else if s.get p (Rg.PREF_STATE n) = 2 then 2 else 0
  | _, _ => 0

/-- The unit is idle as far as the block itself knows (R384). -/
def State.ladderIdle (p : Part) (u n : Nat) (s : State) : Bool :=
  match p, u with
  | .fd, 0 => s.dist.spare.combines.all fun c => c.pipe != n
  | .sc, 0 => s.get .sc Rg.SPAY_IN_FLIGHT == 0
  | _, _ => true

/-- LADDER_DESCEND (R385, R387): a unit idle at PLn for DWELL_US × 10^n µs moves to PLn + 1, never below PL_MAX nor the limits of R384. -/
def execLadderDescend (p : Part) (u unit : Nat) (s : State) : Host.Outcome State Fault Refusal :=
  let r := s.rung p u unit
  let lim := min (s.get p (Rg.PL_PL_MAX u)) (s.ladderLimit p u unit)
  let held := p = .sc && s.anyWaiting
  if (s.unit p).start.on && decide (u < 5) && decide (r.1 < lim) && !held && s.ladderIdle p u unit then
    let s := s.awaitNow (r.2 + s.get p (Rg.PL_DWELL_US u) * 10 ^ r.1 * 1000)
    let s1 := s.setRung p u unit (r.1 + 1) s.now
    .next (if r.1 = 0 then s1.put p (Rg.PL_UNITS_DOWN u) (sat 8 (s.get p (Rg.PL_UNITS_DOWN u) + 1)) else s1)
  else .next s

/-- LADDER_WAKE (R385): the demands that the block itself does not meet (log entry 88). -/
def execLadderWake (p : Part) (u unit : Nat) (s : State) : Host.Outcome State Fault Refusal :=
  .next (if decide (u < 5) && (s.rung p u unit).1 != 0 then s.wake p u unit else s)

end Sys2Proof.Machine
end

