-- ==== Sys2Proof/Machine/Shaper.lean ====
section
/-! DEFINITION. Operations of the load shaper and of bells and floors at a distributor (R239, R242, R327 to R343): member ports, words
sent down, levels, the hold of a completion. -/

namespace Sys2Proof.Machine

open Sys2Proof

/-! Down the tree. -/

/-- A root's port pair that holds a dual-homed leaf pair (R223). -/
def State.pairDual (k : Nat) (s : State) : Bool := (List.range 64).any fun j => SMap.get true (64 * k + j) s.dist.hall.homingMap

/-- The physical ports of a participant port: the root reaches a dual-homed pair through both sister mids (R223). -/
def State.portsOf (n : Nat) (s : State) : List Nat := if s.isActiveRoot && n % 2 == 0 && s.pairDual (n / 2) then [n, n + 1] else [n]

/-- The physical ports of a mask of participant ports. -/
def State.portsOfMask (mask : Nat) (s : State) : List Nat := ((setBits 64 mask).map fun n => s.portsOf n).flatten

/-- The participant bit that a port fills (R223): at the root the odd port of a dual-homed pair fills the even bit. -/
def State.participant (j n : Nat) (s : State) : Nat :=
  let b := s.job j
  if s.isActiveRoot && n % 2 == 1 && SMap.get 0 n b.mcount == 0 && SMap.get 0 (n - 1) b.mcount != 0 then n - 1 else n

/-- A word sent toward every port of a job's MEMBER_PORTS. -/
def State.sendMembers (j : Nat) (w : CtlWord) (s : State) : State := s.sendWords .fd (s.portsOfMask (s.job j).memberPorts) w

/-- LEAD_BEATS in force (R239): in the beat in which a report raised it still the earlier value. -/
def State.lead (s : State) : Nat :=
  if s.dist.hall.leadWas.2 != 0 && s.dist.hall.leadWas.1 == s.beat .fd then s.dist.hall.leadWas.2 else s.get .fd Rg.BELL_LEAD_BEATS

/-! The shaper's state. -/

/-- The state with the shaper's state replaced. -/
def State.setPower (x : PowerSt) (s : State) : State := s.setDist { s.dist with power := x }

/-- What the shaper keeps of a job. -/
def State.pj (j : Nat) (s : State) : JobPwr := SMap.get {} j s.dist.power.jobs

/-- The state with a job's shaper state replaced. -/
def State.setPj (j : Nat) (x : JobPwr) (s : State) : State := s.setPower { s.dist.power with jobs := SMap.set j x s.dist.power.jobs }

/-- The shaper has started (R327): a VXD-2880 that is the active root, from stage 3. -/
def State.shaperOn (s : State) : Bool := s.dist.variant = .vxd2880 && s.isActiveRoot && decide (3 ≤ s.get .fd Rg.START_STAGE)

/-- The shaper runs: it has started and P3 is up. -/
def State.shaperUp (s : State) : Bool := s.shaperOn && s.roleUp .fd 3

/-- Rank 1 of R341 is in force: the active root's guard, or MAINS_SAG_N asserted. -/
def State.frozen (s : State) : Bool := s.inGuard .fd || s.flag .fd Rg.MNS_SAG

/-- The mean of a list of intervals. -/
def meanGap (g : List Nat) : Nat := g.foldl (· + ·) 0 / g.length

/-- The level byte of a job (R331, R339): in recess the ramp's LEVEL limited to A; stepping, A with PIN while A is below 100, otherwise
STEP_FLOOR. -/
def State.levelByte (j : Nat) (s : State) : Nat :=
  let a := s.dist.power.cap
  if !s.shaperOn then 0
  else if (s.pj j).recess then min (s.pj j).level a
  else if a < 100 then a + 128
  else s.get .fd (Rg.PJ_STEP_FLOOR j)

/-- FD_PWR_JOBj brought up to date: LEVEL_OUT, RECESS, PHASE. -/
def State.pjRegs (j : Nat) (s : State) : State :=
  let x := s.pj j
  let phase := if !x.recess then 0 else if x.rampUp then 3 else if x.level ≤ s.get .fd (Rg.PJ_RECESS_LOW j) then 2 else 1
  ((s.put .fd (Rg.PJ_LEVEL_OUT j) (s.levelByte j)).putFlag .fd (Rg.PJ_RECESS j) x.recess).put .fd (Rg.PJ_PHASE j) phase

/-- A FLOOR word of a job's level is sent (R332), where the level has changed since the last. -/
def State.sendFloor (j : Nat) (s : State) : State :=
  let x := s.pj j
  let lv := s.levelByte j
  let at_ := s.beat .fd + s.lead
  let same := match x.floor with
    | some (l, r, _) => l == lv && r == x.recess
    | none => lv == 0 && !x.recess
  let s1 := s.pjRegs j
  if same then s1
  else (s1.setPj j { x with floor := some (lv, x.recess, at_), floorSent := s.beat .fd }).sendMembers j { job := j, body := .floor lv x.recess at_ }

/-- The ramp of a job has reached LEVEL 100 and that word's AT_BEAT has passed (R336). -/
def State.rampDone (j : Nat) (s : State) : Bool :=
  let x := s.pj j
  !x.recess || (x.rampUp && x.level == 100 && match x.floor with
    | some (l, _, b) => l == 100 && decide (b ≤ s.beat .fd)
    | none => false)

/-- The earliest HT at which a job's next completion keeps its bell interval (R336): the last bell's HT + (MIN_INTERVAL_BEATS − LEAD_BEATS) × 1,024 ns; 0 before the first
bell. -/
def State.bellSpaced (j : Nat) (s : State) : Int :=
  let b := s.job j
  if b.lastBellWord.isNone then 0 else ((b.lastBellBeat : Int) + ((s.get .fd (Rg.PJ_MIN_INTERVAL_BEATS j) : Int) - s.lead)) * 1024

/-- R336: the conditions under which a completed count of a BELL slot completes at the present HT; `need` is c0 plus the stretch. -/
def State.mayComplete (j need : Nat) (s : State) : Bool :=
  decide (need ≤ s.htNs .fd) && decide (s.bellSpaced j ≤ s.htNs .fd) && s.rampDone j && !(s.frozen && (s.pj j).recess)

/-- c0 plus the stretch in force at c0 (R336). -/
def State.stretchedNeed (j : Nat) (s : State) : Nat := s.htNs .fd + s.get .fd Rg.PWRS_UF_NOW * meanGap (s.pj j).gaps / 100

end Sys2Proof.Machine
end

