-- ==== Sys2Proof/Machine/HallBarrier.lean ====
section
/-! DEFINITION. Hall slots at a distributor (R216 to R234): the words and timer events of R225, completion, calls, the paddock, the quorum,
bells scheduled, and the pipes that combine partials (R274, R275). -/

namespace Sys2Proof.Machine

open Sys2Proof

/-! Slots, membership, records. -/

/-- The expected set of a slot (R220): MEMBER_PORTS and not WD_MAP. -/
def State.expected (h : Nat) (s : State) : Nat :=
  let v := s.slot h
  minusMask 64 (s.job v.job).memberPorts v.wd

/-- The members of a job below a port that are counted here (R20, R223): at a leaf of a dual-homed pair those of the packages it carries, at a mid those that the leaf carries. -/
def State.carriedMembers (j n : Nat) (s : State) : List Nat :=
  let away := if s.role == 3 then SMap.get 0 n s.dist.hall.away else if s.carriesAt n then 0 else 2 ^ 64 - 1
  ((s.job j).members.filter fun e => e.2 != 0 && s.portToward e.1 == n && !bit away (bits e.1 3 6)).map (·.1)

/-- Whether the port's members may be counted elsewhere in its pair. -/
def State.paired (n : Nat) (s : State) : Bool := if s.role == 3 then SMap.get 0 n s.dist.hall.away != 0 else !s.carriesAt n

/-- MCOUNT of a port (R220), without the dies that another leaf of the pair carries (R223). -/
def State.mcountAt (j n : Nat) (s : State) : Nat := if s.paired n then (s.carriedMembers j n).length else SMap.get 0 n (s.job j).mcount

/-- MHASH of a port in the same way. -/
def State.mhashAt (j n : Nat) (s : State) : Nat :=
  if s.paired n then (s.carriedMembers j n).foldl (fun a r => Nat.xor a (rollHash r)) 0 else SMap.get 0 n (s.job j).mhash

/-- The expected ports that count here (R223). -/
def State.counted (h : Nat) (s : State) : Nat := maskOf 64 fun n => bit (s.expected h) n && s.mcountAt (s.slot h).job n != 0

/-- The counted ports that have not arrived. -/
def State.missingPorts (h : Nat) (s : State) : List Nat := (setBits 64 (s.counted h)).filter fun p => !bit (s.slot h).arr p

/-- The count of a slot is complete at this distributor (R220). -/
def State.countFull (h : Nat) (s : State) : Bool := s.counted h != 0 && (s.missingPorts h).isEmpty

/-- The live slots of a job. -/
def State.jobSlots (j : Nat) (s : State) : List Nat := (s.dist.hall.slots.filter fun e => e.2.state != .free && e.2.job == j).map (·.1)

/-- The slots held unused for a job by timetable changes (R310). -/
def State.reservedCount (j : Nat) (s : State) : Nat := (s.dist.hall.slots.filter fun e => e.2.reserved && e.2.job == j).length

/-- R384: with a payload slot live, pipes exit to PL0; with a live job, the tier A stacks. -/
def State.limitLadder (s : State) : State :=
  let s1 := if s.payloadLive then s.wakeAll .fd 0 else s
  if s1.liveJob .fd then s1.wakeAll .fd 1 else s1

/-- FD_JOB_HALLj brought up to date (R247). -/
def State.jobRegs (j : Nat) (s : State) : State :=
  let b := s.job j
  let sus := (b.members.filter fun e => e.2 != 0 && (SMap.find e.1 s.dist.hall.suspects).isSome).length
  let unres := (s.jobSlots j).any fun h => (s.slot h).state == .unresolved
  let s0 := (s.put .fd (Rg.JH_MEMBERS j) b.memberCount).put .fd (Rg.JH_HSLOTS_USED j) ((s.jobSlots j).length + s.reservedCount j)
  let s1 := s0.limitLadder
  if s.isActiveRoot then (s1.put .fd (Rg.JH_SUSPECT j) sus).putFlag .fd (Rg.JH_UNRESOLVED j) unres else s1

/-- BUF_USED brought up to date: one buffer a slot with elements, one an early partial with elements (R274). -/
def State.bufSync (s : State) : State :=
  let n := s.dist.hall.slots.foldl (fun a e => a + ofBool e.2.hasElems + (e.2.earlyBodies.filter fun b => b.2.isElem).length) 0
  s.put .fd Rg.PAY_BUF_USED n

/-- A record about a hall slot. -/
def State.hallRec (kind h arg epoch port : Nat) (s : State) (conts : List Nat := []) : State :=
  s.record .fd { kind := kind, obj := h, arg := arg, epoch := epoch, port := port % 64, job := (s.slot h).job, conts := conts }

/-- STALE sent down toward a roll (R225): on the port the word came from, with the HSLOT, GEN and EPOCH of the word. -/
def State.sendStale (n job roll h gen epoch cause : Nat) (s : State) : State :=
  let s1 := (s.sendWord .fd n { job := job, body := .stale roll h gen epoch cause }).bump .fd Rg.HCNT_STALE_SENT
  s1.record .fd { kind := 0x08, obj := h, arg := gen + 256 * cause, epoch := epoch, port := n % 64, job := job }

/-- A DUP (status 2) or OVERRUN (status 3) at a slot: MISUSE and DUP_OVR count, the misuse is recorded. -/
def State.hallMisuse (h status epoch port : Nat) (s : State) : State :=
  let v := s.slot h
  ((s.setSlot h { v with misuse := sat 16 (v.misuse + 1) }).bump .fd Rg.HCNT_DUP_OVR).hallRec 0x09 h status epoch port

/-! Partials (R256). -/

/-- What an arrival adds to a slot: contributor count, paddock hash, body; `PFLAGS` where nothing is combined. -/
structure Added where
  c : Nat := 0
  hash : Nat := 0
  body : Option Body := none
  flags : Nat := 0
  deriving DecidableEq, Repr

/-- What came with an arrival: no partial, its body, or a loss (R264, or with `pipe` two failed combines, R275). -/
inductive PayIn where
  | none
  | body (b : Body)
  | lost (pipe : Bool)
  deriving DecidableEq, Repr

/-- The body differs in a fixed field from the first element partial of the epoch (R256). -/
def HSlot.differs (b : Body) (v : HSlot) : Bool := b.isElem && v.hasElems && !v.acc.sum.sameFields b.sum

/-- What a primary arrival of a participant port adds (R225, R256). -/
def State.addedBy (h p : Nat) (x : PayIn) (s : State) : Added :=
  let v := s.slot h
  let mh := s.mhashAt v.job p
  if !v.payload then { c := s.mcountAt v.job p }
  else match x with
    | .none => { hash := mh }
    | .lost pipe => { hash := mh, flags := pfDropped + (if pipe then pfPipe else 0) }
    | .body d => if v.differs d then { hash := mh, flags := pfDropped } else { c := d.sum.contrib, hash := d.sum.hash, body := some d }

/-- The counters of R256 and R264 that go with a partial. -/
def State.countPartial (h : Nat) (payload : Bool) (x : PayIn) (s : State) : State :=
  let v := s.slot h
  if !v.payload then (if payload then s.bump .fd Rg.PAY_PAY_MISMATCH else s)
  else match x with
    | .body d => if v.differs d then s.bump .fd Rg.PAY_DESC_MISMATCH else s
    | .lost false => s.bump .fd Rg.PAY_PARTIAL_LOST
    | _ => s

/-- "Partial added" (R225). -/
def HSlot.add (a : Added) (v : HSlot) : HSlot :=
  let body := a.body.getD (summaryOnly 0 0 a.flags)
  { v with contrib := (v.contrib + a.c) % 2 ^ 22, hash := Nat.xor v.hash a.hash, acc := v.acc.combine body, hasElems := v.hasElems || body.isElem }

/-- The body that a slot sends up (R256): its elements, or the summary alone where there are none. -/
def HSlot.outBody (v : HSlot) : Body :=
  if v.hasElems then { v.acc with sum := { v.acc.sum with contrib := v.contrib, hash := v.hash } }
  else summaryOnly v.contrib v.hash v.acc.sum.pflags

/-! Words up (R226). -/

/-- This distributor sends words up: a leaf of a dual-homed pair only while it carries a package (R20, R226). -/
def State.carries (s : State) : Bool := !(s.role == 4 && s.dist.hall.dualHere) || s.dist.hall.carrying != 0

/-- It sends words up for a slot: a leaf of a dual-homed pair only for packages that it carries. -/
def State.sendsFor (h : Nat) (s : State) : Bool := !(s.role == 4 && s.dist.hall.dualHere) || s.counted h != 0

/-- The slot's primary ARRIVE. A payload slot sends a partial, unless nothing was combined and the paddock is that of ports that all
arrived without one. -/
def State.sendSlotUp (h : Nat) (s : State) : State :=
  let v := s.slot h
  let plain := (setBits 64 v.arr).foldl (fun a p => Nat.xor a (s.mhashAt v.job p)) 0
  let body := if !v.payload || (!v.hasElems && v.contrib == 0 && v.acc.sum.pflags == 0 && v.hash == plain && v.state != .closed) then none
    else some v.outBody
  if s.sendsFor h then s.sendArrive .fd (s.upPorts .fd) v.job h v.gen v.e (s.ownRoll .fd) (s.ht32 .fd) body else s

/-! Bells (R240, R241, R343). -/

/-- A committed change takes effect at a bell (R317). -/
def State.ttAtBell (j no : Nat) (s : State) : Bool :=
  s.fd.tt.changes.any fun c => c.state == 3 && c.atKind == 0 && c.job == j && c.at_ == no

/-- The bell word sent toward every port of the job whose far end does not report UNALIGNED, staggered by port group (R242, R343). -/
def State.sendBell (w : BellWord) (beat : Nat) (s : State) : State :=
  let lg := s.get .fd (Rg.PJ_STAGGER_LOG2 w.job)
  let step := s.get .fd (Rg.PJ_STAGGER_BEATS w.job)
  (s.portsOfMask (s.job w.job).memberPorts).foldl (fun (t : State) n =>
    if (t.link .fd n).far.unaligned then t
    else t.sendWord .fd n { job := w.job, body := .bell (beat + (if s.isActiveRoot && lg != 0 then n / 2 % 2 ^ lg * step else 0)) w }) s

/-- A bell is scheduled at the first beat boundary at or after c plus the bell lead (R240), with the job's next number. A STEP bell of a
job in recess is its RESUME bell and ends the recess (R337). -/
def State.scheduleBell (j kind epoch : Nat) (flags : Nat) (s : State) : State :=
  let b := s.job j
  let no := b.nextBell
  let beat := beatAtOrAfter (s.htNs .fd + 1024 * s.lead)
  let x := s.pj j
  let resume := kind == 0 && x.recess
  let gap := beat * 1024 - b.lastBellBeat * 1024
  let gaps := if kind != 0 then x.gaps
    else match x.lastStep with
      | some t => if x.gapBroken || x.recess then x.gaps else ((beat * 1024 - t) :: x.gaps).take 16
      | none => x.gaps
  let x1 : JobPwr := if kind != 0 then x
    else { x with recess := false, ask := false, resume := false, rampUp := false, level := 0, down := false, up := false, gapBroken := false,
                  lastStep := some (beat * 1024), gaps := gaps }
  let s1 := (s.setPj j x1).pjRegs j
  let lv := s1.levelByte j
  let s2 := if resume then s1.setPj j { (s1.pj j) with floor := some (lv, false, beat), floorSent := s.beat .fd } else s1
  let w : BellWord := { bellNo := no, job := j, kind := if resume then 2 else kind, floor := lv, ttAt := s.ttAtBell j no, forced := bit flags 1,
                        unresolvedSeen := bit flags 4, closeHwm := s.get .fd (Rg.JH_CLOSE_SEQ j), stepEpoch := if kind = 0 then epoch else 0 }
  let s3 := s2.setJob j { b with rcWait := b.rcWait + (if kind = 0 then beat * 1024 - s.htNs .fd else 0), rcAt := if b.lastBellWord.isSome then b.rcAt else s.now,
                                 nextBell := (no + 1) % 2 ^ 48, bellWrap := b.bellWrap || no + 1 == 2 ^ 48, lastBell := no, lastBellBeat := beat, lastBellWord := some w, bellSeen := true,
                                 bellGaps := if b.lastBellWord.isSome then (gap :: b.bellGaps).take 16 else b.bellGaps }
  let s4 := s3.sendBell w beat
  let s5 := s4.record .fd { kind := 0x07, obj := no % 2 ^ 24, arg := w.kind + 256 * s.lead, job := j }
  s5.put .fd (Rg.RC_BELLS j) (sat 32 (s.get .fd (Rg.RC_BELLS j) + 1))

/-! Completion (R227, R228). -/

/-- Arrivals are kept port by port, since the carrying role may move: a leaf of a dual-homed pair (R20). -/
def State.peering (s : State) : Bool := s.role == 4 && s.dist.hall.dualHere

/-- What the ports in ARR_MAP have brought is added to a slot whose sums stand at nothing. -/
def State.addArrived (h : Nat) (bodies : SMap Body) (s : State) : State :=
  (setBits 64 (s.slot h).arr).foldl (fun (t : State) p =>
    if !t.carriesAt p then t
    else
      let x := match SMap.find p bodies with
        | some b => PayIn.body b
        | none => PayIn.none
      (t.countPartial h false x).setSlot h ((t.slot h).add (t.addedBy h p x))) s

/-- The sums of a slot of a dual-homed leaf formed anew from what each carried port has brought (R20). -/
def State.recount (h : Nat) (s : State) : State :=
  let v := s.slot h
  if v.state = .counting || v.state = .called then
    ((s.setSlot h { v with contrib := 0, hash := 0, acc := {}, hasElems := false }).addArrived h v.aside).bufSync
  else s

/-- The next epoch opens: early arrivals and the partials held for them are promoted, the contributions reset to those. -/
def State.promote (h : Nat) (s : State) : State :=
  let v := s.slot h
  let v1 := { v with completed := v.e, e := (v.e + 1) % 65536, arr := v.early, early := 0, contrib := 0, hash := 0, acc := {}, hasElems := false,
                     earlyBodies := [], state := .counting, callSent := false, paid := false, quorumWaited := false, unresolvedSeen := false,
                     holding := false, completeHt := none, quorum := v.nextQuorum.getD v.quorum, nextQuorum := none,
                     aside := if s.peering then v.earlyBodies else [], viaPeer := v.viaPeer / 2 ^ 64 }
  let t := (s.setSlot h v1).addArrived h v.earlyBodies
  (t.freePartials .fd (t.upPorts .fd ++ prPorts) v.job h v.e).bufSync

/-- DONE goes to every port of the expected set (R227, R228). -/
def State.sendDone (h mask epoch contrib hash flags : Nat) (s : State) : State :=
  let v := s.slot h
  s.sendWords .fd (s.portsOfMask mask) { job := v.job, body := .done h v.gen epoch contrib hash flags }

/-- The pipes usable in the temperature band in force (R403). -/
def State.usablePipes (s : State) : List Nat := (List.range 68).filter fun i => !bit (s.get .fd (Rg.PIPE_RETIRE_MAP i)) s.dist.spare.band

/-- The pipes that serve: the 64 lowest-indexed of those usable (R403). -/
def State.servingPipes (s : State) : List Nat := s.usablePipes.take 64

/-- A pipe's record. -/
def State.pipe (i : Nat) (s : State) : Pipe := SMap.get {} i s.dist.spare.pipes

/-- The faults counted against a pipe in a band, over the four load classes (R403). -/
def Pipe.bandFaults (band : Nat) (x : Pipe) : Nat := (List.range 4).foldl (fun a c => a + SMap.get 0 (4 * band + c) x.cells) 0

/-- The element of a list with the least value, the first where several have it. -/
def leastBy (f : Nat → Nat) : List Nat → Option Nat
  | [] => none
  | i :: t => match leastBy f t with
    | none => some i
    | some k => if f k < f i then some k else some i

/-- The pipe for a combine (R274, R403): the least loaded of those that serve, but for the pipe to be avoided; with no other usable pipe, the
retired pipe with the fewest faults in the band. -/
def State.pickPipe (avoid : Nat) (s : State) : Nat :=
  let load := fun i => (s.dist.spare.combines.filter fun c => c.pipe == i).length
  match leastBy load (s.servingPipes.filter (· != avoid)) with
  | some i => i
  | none => (leastBy (fun i => (s.pipe i).bandFaults s.dist.spare.band)
      ((List.range 68).filter fun i => i != avoid && bit (s.get .fd (Rg.PIPE_RETIRE_MAP i)) s.dist.spare.band)).getD avoid

/-- A combine or conversion starts on a pipe; PSTATE reads active while it runs. -/
def State.startCombine (c : Combine) (avoid : Nat) (s : State) : State :=
  let i := s.pickPipe avoid
  let s := s.wake .fd 0 i
  ((s.setSpare { s.dist.spare with combines := s.dist.spare.combines ++ [{ c with pipe := i }] }).put .fd (Rg.PIPE_PSTATE i) 1).bump .fd (Rg.PIPE_COMBINES i)

/-- The members behind a mask of participant ports. -/
def State.membersOf (j mask : Nat) (s : State) : Nat := (setBits 64 mask).foldl (fun a p => a + s.mcountAt j p) 0

/-- The root completes epoch E (R227): DONE, or the formation of the result first (R257); a bell; the next epoch. -/
def State.rootComplete (h : Nat) (forced : Bool) (s : State) : State :=
  let v := s.slot h
  let mask := s.expected h
  let noClose := v.payload && !v.hasElems
  let flags := ofBool (decide (v.contrib < s.membersOf v.job mask)) + 2 * ofBool forced + 8 * ofBool v.quorumWaited + 16 * ofBool v.unresolvedSeen
    + 32 * ofBool noClose
  let s1 := if v.payload && v.hasElems then
      s.startCombine { pipe := 0, hslot := h, port := 64, body := v.acc, done := some (v.e, v.contrib, v.hash, flags) } 99
    else s.sendDone h mask v.e v.contrib v.hash flags
  let s2 := s1.hallRec 0x03 h v.contrib v.e v.lastPort
  let s3 := s2.setSlot h { (s2.slot h) with forced := forced, last := (v.contrib, v.hash, flags) }
  let s4 := if v.bell then s3.scheduleBell v.job 0 v.e flags else s3
  let s5 := s4.promote h
  let ht := s.htNs .fd
  let w := s5.slot h
  let s6 := s5.setSlot h { w with
    dlBeat := if w.policy then beatAtOrAfter (ht + w.deadlineNs) % 2 ^ 32 else 0
    hardBeat := if w.hardMs = 0 then 0 else beatAtOrAfter (ht + 1000000 * w.hardMs) % 2 ^ 32 }
  (s6.putFlag .fd (Rg.PJ_HOLDING v.job) false).jobRegs v.job

/-- A held completion's time is added to HOLD_US (R346); what the report card has not counted yet waits for its next tick (R415). -/
def State.holdEnd (j : Nat) (s : State) : State :=
  match (s.pj j).holdSince with
  | some t =>
    let b := s.job j
    ((s.setPj j { (s.pj j) with holdSince := none }).setJob j { b with rcWait := b.rcWait + (s.now - max t b.rcAt) }).bump .fd (Rg.PJ_HOLD_US j) ((s.now - t) / 1000)
  | none => s

/-- The count of a root slot is complete (R227, R336): it completes, or is held where the slot has BELL and a condition of R336 does not
hold yet. -/
def State.rootFull (h : Nat) (s : State) : State :=
  let v := s.slot h
  if v.bell && s.shaperOn then
    let need := v.completeHt.getD (s.stretchedNeed v.job)
    if s.shaperUp && s.mayComplete v.job need then (s.holdEnd v.job).rootComplete h false
    else
      let s1 := s.setSlot h { v with holding := true, completeHt := some need }
      let s2 := if (s1.pj v.job).holdSince.isSome then s1 else s1.setPj v.job { (s1.pj v.job) with holdSince := some s.now }
      s2.putFlag .fd (Rg.PJ_HOLDING v.job) true
  else s.rootComplete h false

/-- The completion check of a slot (R220, R226, R227, R232), run again while promoted arrivals already complete the count; at most `k`
rounds, and an epoch has one held ahead of it. -/
def State.hallCheck (h : Nat) : Nat → State → State
  | 0, s => s
  | k + 1, s =>
    let v := s.slot h
    if v.state = .free then s
    else if s.isActiveRoot then
      let open_ := v.state == .counting || v.state == .called || v.state == .quorumWait || v.state == .unresolved
      let quorum := v.policy && decide (v.quorum ≤ v.contrib) && (v.state == .quorumWait || (v.state == .unresolved && v.paid))
      if open_ && s.countFull h then
        let t := s.rootFull h
        if (t.slot h).e = v.e then t else t.hallCheck h k
      else if open_ && quorum then (s.rootComplete h false).hallCheck h k
      else if v.holding then ((s.setSlot h { v with holding := false, completeHt := none }).holdEnd v.job).putFlag .fd (Rg.PJ_HOLDING v.job) false
      else s
    else if (v.state == .counting || v.state == .called) && s.countFull h then
      (s.setSlot h { v with state := .sent }).sendSlotUp h
    else s

/-- The completion check with as many rounds as early arrivals can cause. -/
def State.hallTest (h : Nat) (s : State) : State := s.hallCheck h 3

/-! Arrivals (R224, R225). -/

/-- An ARRIVE as received: its fields, the position of the link it came on and the downstream port it counts for; at a leaf these differ for a copy from the partner, which
came over a peer lane (R20). -/
structure Arr where
  via : Nat
  port : Nat
  job : Nat
  h : Nat
  gen : Nat
  epoch : Nat
  src : Nat
  ht32 : Nat
  payload : Bool
  ptag : Nat
  deriving DecidableEq, Repr

/-- The downstream port for which a word from a position counts: over a peer lane that of its SRC. -/
def portOf (n src : Nat) : Nat := if n < 64 then n else bits src 3 6

/-- The fields of an ARRIVE word, if the word is one. -/
def arrOf (n : Nat) (w : CtlWord) : Option Arr :=
  match w.body with
  | .arrive h g e src t pl pt => some { via := n, port := portOf n src, job := w.job, h := h, gen := g, epoch := e, src := src, ht32 := t, payload := pl, ptag := pt }
  | _ => none

/-- SRC is the roll or prefix assigned to the port: a primary word (R224). -/
def State.primarySrc (n src : Nat) (s : State) : Bool := src == s.assignedRoll n

/-- A HALL_ARRIVE record with the row of R225 that was taken, counted from 0 in the table's order. -/
def State.arriveRec (a : Arr) (row : Nat) (s : State) : State :=
  s.record .fd { kind := 0x04, obj := a.h, arg := a.gen + 256 * row, epoch := a.epoch, port := a.port % 64, job := a.job }

/-- A late arrival forwarded up, with the paddock hash given (R225). -/
def State.forwardLate (a : Arr) (body : Option Body) (s : State) : State :=
  if s.carriesAt a.port then s.sendArrive .fd (s.upPorts .fd) a.job a.h a.gen a.epoch a.src a.ht32 body else s

/-- The port is inside the 64 beats after it reached ALIGNED (R229). -/
def State.resyncing (n : Nat) (s : State) : Bool := decide (s.beat .fd < (s.link .fd n).alignedBeat + 64)

/-- A slot's own job has the word: a word of another job meets it as one of another GEN, so that no job counts toward another's barriers (R27; log entry 83). -/
def HSlot.owns (job gen : Nat) (v : HSlot) : Bool := v.state != .free && v.gen == gen && v.job == job

/-- What a port has brought is kept beside the sums. -/
def HSlot.keep (p : Nat) (x : PayIn) (mh : Nat) (v : HSlot) : HSlot :=
  match x with
  | .body c => { v with aside := SMap.set p c v.aside }
  | .lost pipe => { v with aside := SMap.set p (summaryOnly 0 mh (pfDropped + (if pipe then pfPipe else 0))) v.aside }
  | .none => v

/-- An arrival has filled a bit of a slot: whether it came over a peer lane, at the root whether it came from the odd port of a dual-homed pair (R20, R223). -/
def State.markVia (a : Arr) (k : Nat) (s : State) : State :=
  let v := s.slot a.h
  if 64 ≤ a.via || (s.isActiveRoot && a.port % 2 == 1) then s.setSlot a.h { v with viaPeer := setBit v.viaPeer k } else s

/-- A port's arrival for the open epoch is counted: ARR, LAST_PORT, LAST_HT32, the partial (R225); of a package that the partner carries it is kept aside (R20). -/
def State.countArr (a : Arr) (x : PayIn) (s : State) : State :=
  let p := s.participant a.job a.port
  let s1 := s.countPartial a.h a.payload x
  let v := if s.peering && (s1.slot a.h).payload then (s1.slot a.h).keep p x (SMap.get 0 p (s.job a.job).mhash) else s1.slot a.h
  let y := s1.addedBy a.h p x
  let y1 := if v.paid && (v.state == .quorumWait || v.state == .unresolved) then { y with hash := Nat.xor (s.mhashAt v.job p) y.hash } else y
  let w := if s.carriesAt p then v.add y1 else v
  (s1.setSlot a.h { w with arr := setBit v.arr p, lastPort := a.port % 64, lastHt32 := a.ht32 }).markVia a p

/-- A second copy of an arrival that a dual-homed pair has already counted, dropped in silence (R20, R223): at a leaf the one of the two, by the package's own link and by the
peer lane, that came later; at the root the one from the other sister mid. -/
def State.pairCopy (a : Arr) (s : State) : Bool :=
  let v := s.slot a.h
  let p := s.participant a.job a.port
  let d := sdiff16 a.epoch v.e
  let had := if d = 0 then bit v.arr p else d == 1 && bit v.early p
  let other := bit v.viaPeer (if d = 0 then p else p + 64)
  if s.role == 4 then (if 64 ≤ a.via then !(s.primarySrc a.port a.src && ((d == 0 && !had) || (d == 1 && bit v.arr p && !had))) else had && other)
  else s.isActiveRoot && s.pairDual (a.port / 2) && had && other != (a.port % 2 == 1)

/-- The copy of an arrival that a leaf of a dual-homed pair passes to its partner over a peer lane (R20). -/
def State.peerCopy (a : Arr) (x : PayIn) (s : State) : State :=
  match s.peerLane with
  | none => s
  | some q =>
    if 64 ≤ a.via then s
    else s.sendArrive .fd [q] a.job a.h a.gen a.epoch a.src a.ht32 (match x with
      | .body c => some c
      | .lost pipe => some (summaryOnly 0 (SMap.get 0 a.port (s.job a.job).mhash) (pfDropped + (if pipe then pfPipe else 0)))
      | .none => none)

/-- An ARRIVE is applied to its slot by the rows of R225. -/
def State.applyRows (a : Arr) (x : PayIn) (s : State) : State :=
  let v := s.slot a.h
  let p := s.participant a.job a.port
  let b := s.job a.job
  let primary := s.primarySrc a.port a.src
  let d := sdiff16 a.epoch v.e
  let stale := fun (row cause : Nat) => (s.sendStale a.port a.job a.src a.h a.gen a.epoch cause).arriveRec a row
  if !v.owns a.job a.gen then stale 0 1
  else if SMap.get 0 p b.mcount = 0 then stale 1 2
  else if bit v.wd p then stale 2 4
  else if primary && s.resyncing a.port && (d == -1 || (d == 0 && bit v.arr p)) then s
  else if d < 0 then stale 3 3
  else if primary then
    if d = 0 then
      if bit v.arr p then (s.hallMisuse a.h 2 a.epoch a.port).arriveRec a 8
      else match v.state with
        | .closed =>
          let s1 := s.countPartial a.h a.payload x
          let y := s1.addedBy a.h p x
          let hash := Nat.xor (s.mhashAt a.job p) y.hash
          let body := match y.body with
            | some c => { c with sum := { c.sum with hash := hash } }
            | none => summaryOnly y.c hash y.flags
          ((s1.setSlot a.h { (s1.slot a.h) with arr := setBit v.arr p }).forwardLate a (some body)).arriveRec a 6
        | .sent => ((s.countArr a x).arriveRec a 5).bufSync
        | .quorumWait | .unresolved => (((s.countArr a x).arriveRec a 7).bufSync).hallTest a.h
        | _ => (((s.countArr a x).arriveRec a 4).bufSync).hallTest a.h
    else if d = 1 && bit v.early p then (s.hallMisuse a.h 2 a.epoch a.port).arriveRec a 10
    else if d = 1 && bit v.arr p then
      let bodies := match x with
        | .body c => v.earlyBodies ++ [(p, c)]
        | .lost pipe => v.earlyBodies ++ [(p, summaryOnly 0 (SMap.get 0 p b.mhash) (pfDropped + (if pipe then pfPipe else 0)))]
        | .none => v.earlyBodies
      let s1 := if !v.payload && a.payload then s.bump .fd Rg.PAY_PAY_MISMATCH else s
      (((s1.setSlot a.h { v with early := setBit v.early p, earlyBodies := bodies }).markVia a (p + 64)).arriveRec a 9).bufSync
    else (s.hallMisuse a.h 3 a.epoch a.port).arriveRec a 11
  else if d = 0 then
    if !s.isActiveRoot then
      match x with
      | .body c => (s.forwardLate a (some c)).arriveRec a 12
      | .lost _ => s.arriveRec a 12
      | .none => (s.forwardLate a none).arriveRec a 12
    else
      match x with
      | .body c =>
        if v.differs c then (s.countPartial a.h a.payload x).arriveRec a 13
        else (((s.setSlot a.h (v.add { c := c.sum.contrib, hash := c.sum.hash, body := some c })).arriveRec a 13).bufSync).hallTest a.h
      | .lost true => ((s.setSlot a.h (v.add { flags := pfDropped + pfPipe })).arriveRec a 13).hallTest a.h
      | _ => (s.arriveRec a 13).hallTest a.h
  else (s.hallMisuse a.h 3 a.epoch a.port).arriveRec a 14

/-- An ARRIVE is applied (R20, R225): a leaf of a dual-homed pair passes it to its partner; a second copy is dropped. -/
def State.applyArrive (a : Arr) (x : PayIn) (s : State) : State :=
  let s1 := s.peerCopy a x
  if (s1.slot a.h).owns a.job a.gen && s1.pairCopy a then s1
  else if 64 ≤ a.via && (!(s1.slot a.h).owns a.job a.gen || bit (s1.slot a.h).wd a.port || SMap.get 0 a.port (s1.job a.job).mcount == 0) then s1
  else s1.applyRows a x

/-- The arrival's elements would be combined now (R225, R256): a live slot takes it for the open epoch. -/
def State.wouldCombine (a : Arr) (c : Body) (s : State) : Bool :=
  let v := s.slot a.h
  let p := s.participant a.job a.port
  let primary := s.primarySrc a.port a.src
  v.owns a.job a.gen && s.carriesAt a.port && v.payload && c.isElem && !v.differs c && sdiff16 a.epoch v.e == 0 && !bit v.wd p
    && SMap.get 0 p (s.job a.job).mcount != 0 && v.state != .closed && (if primary then !bit v.arr p else s.isActiveRoot)

/-- An earlier word of the same port for the same slot still waits for its body or its pipe (R264). -/
def State.behind (n h : Nat) (s : State) : Bool :=
  (s.dist.hall.bodyWait.any fun e => e.1 == n && (match e.2.body with
    | .arrive k _ _ _ _ _ _ => k == h
    | .withdraw k _ _ _ _ => k == h
    | _ => false))
  || s.dist.spare.combines.any fun c => c.hslot == h && c.port == n && c.done.isNone

/-- A word waits for its body, its buffer or the words before it. -/
def State.holdArr (n : Nat) (w : CtlWord) (s : State) : State :=
  s.setHall { s.dist.hall with bodyWait := s.dist.hall.bodyWait ++ [(n, w)] }

/-- An ARRIVE whose body is known is applied, or starts its combine on a pipe and is applied when the pipe is done (R256, R274). -/
def State.runArrive (a : Arr) (w : CtlWord) (x : PayIn) (s : State) : State :=
  match x with
  | .body c =>
    if s.wouldCombine a c then
      s.startCombine { pipe := 0, hslot := a.h, port := a.port, body := c, late := !s.primarySrc a.port a.src, word := some (a.via, w) } 99
    else s.applyArrive a x
  | _ => s.applyArrive a x

/-- The arrival would open a combine buffer and none is free (R274). -/
def State.noBuffer (a : Arr) (c : Body) (s : State) : Bool :=
  s.wouldCombine a c && !(s.slot a.h).hasElems && decide (65536 ≤ s.get .fd Rg.PAY_BUF_USED)

/-- An ARRIVE that finds no free buffer waits with its body; BUF_WAIT counts once (R274). -/
def State.waitBuffer (a : Arr) (w : CtlWord) (r : RxBody) (s : State) : State :=
  let s1 := if r.retried then s else (s.modRx .fd a.via 1 a.job a.ptag fun x => { x with retried := true }).bump .fd Rg.PAY_BUF_WAIT
  s1.holdArr a.via w

/-- An ARRIVE is taken up: without a partial at once; with one when its body is whole or lost, otherwise it waits (R264). -/
def State.tryArrive (a : Arr) (w : CtlWord) (s : State) : State :=
  if !a.payload then s.runArrive a w .none
  else match s.rxBody .fd a.via 1 a.job a.ptag with
    | some r =>
      if r.whole && s.noBuffer a r.body then s.waitBuffer a w r
      else if r.whole then (s.dropRx .fd a.via 1 a.job a.ptag).runArrive a w (.body r.body)
      else if r.lost then (s.dropRx .fd a.via 1 a.job a.ptag).runArrive a w (.lost false)
      else (s.nameBody .fd a.via 1 a.job a.ptag).holdArr a.via w
    | none => (s.nameBody .fd a.via 1 a.job a.ptag).holdArr a.via w

/-- A mid's or leaf's WITHDRAW for a slot whose expected set is empty (R226): its own prefix, GEN and EPOCH = E. -/
def State.withdrawUp (h : Nat) (v : HSlot) (s : State) : State :=
  s.sendUp .fd { job := v.job, body := .withdraw h v.gen v.e (s.ownRoll .fd) (s.ht32 .fd) }

/-- A WITHDRAW at its slot (R20, R225, R226): a leaf of a dual-homed pair passes it to its partner; its copy from there is silent. -/
def State.applyWithdraw (n : Nat) (w : CtlWord) (h gen epoch src : Nat) (s0 : State) : State :=
  let s := match s0.peerLane with
    | some q => if n < 64 then s0.sendWord .fd q w else s0
    | none => s0
  let v := s.slot h
  let p := s.participant w.job (portOf n src)
  if !v.owns w.job gen then (if 64 ≤ n then s else s.sendStale n w.job src h gen epoch 1)
  else if v.state = .counting || v.state = .called then
    let s1 := s.setSlot h { v with wd := setBit v.wd p, arr := clearBit v.arr p, early := clearBit v.early p, earlyBodies := v.earlyBodies.filter fun e => e.1 != p }
    if !s.isActiveRoot && s1.counted h = 0 then
      if s.sendsFor h then s1.withdrawUp h v else s1
    else s1.hallTest h
  else
    let s1 := s.setSlot h { v with wd := setBit v.wd p, early := clearBit v.early p, earlyBodies := v.earlyBodies.filter fun e => e.1 != p }
    if !s.isActiveRoot && s1.counted h = 0 && s.sendsFor h then s1.withdrawUp h v else s1

/-- SRC lies in neither the port's own roll or prefix nor its subtree (R224): BAD_WORD, a HALL_ARRIVE record of outcome 0xF. -/
def State.badSrc (n job h gen epoch : Nat) (s : State) : State :=
  (s.bump .fd (Rg.LINK_BAD_WORD n)).record .fd { kind := 0x04, obj := h, arg := gen + 256 * 15, epoch := epoch, port := n % 64, job := job }

/-- A word that counts at a slot is processed: an ARRIVE or a WITHDRAW; others are not held. -/
def State.hallWord (n : Nat) (w : CtlWord) (s : State) : State :=
  match w.body with
  | .arrive h g e src _ _ _ =>
    if !s.rollInPort (portOf n src) src then s.badSrc n w.job h g e
    else if s.behind n h then s.holdArr n w
    else match arrOf n w with
      | some a => s.tryArrive a w
      | none => s
  | .withdraw h g e src _ =>
    if !s.rollInPort (portOf n src) src then s.badSrc n w.job h g e
    else if s.behind n h then s.holdArr n w
    else s.applyWithdraw n w h g e src
  | _ => s

/-- The words held for bodies, buffers or earlier words are tried once more in order (R264). -/
def State.retryHeld (s : State) : State :=
  let q := s.dist.hall.bodyWait
  q.foldl (fun t e => t.hallWord e.1 e.2) (s.setHall { s.dist.hall with bodyWait := [] })

/-! DONE and calls at a mid or leaf (R228, R230, R231). -/

/-- A leaf or mid closes with what it holds (R231): the missing ports go into the paddock, each with a record, and the primary ARRIVE
goes up. -/
def State.payPorts (h : Nat) (s : State) : State :=
  let v := s.slot h
  (s.missingPorts h).foldl (fun (t : State) p =>
    let y := t.slot h
    (t.setSlot h { y with hash := Nat.xor y.hash (s.mhashAt v.job p) }).record .fd
      { kind := 0x05, obj := h, arg := v.gen + 256 * (s.mcountAt v.job p % 65536), epoch := v.e, port := p, job := v.job }) s

/-- R231 at a leaf or mid. -/
def State.closeSlot (h : Nat) (s : State) : State :=
  let s1 := s.payPorts h
  (s1.setSlot h { (s1.slot h) with state := .closed }).sendSlotUp h

/-- A call is received in COUNTING (R230): a leaf closes, a mid passes it on and waits. -/
def State.called (h epoch : Nat) (s : State) : State :=
  let v := s.slot h
  if s.role == 4 then s.closeSlot h
  else
    let miss := s.missingPorts h
    let w : CtlWord := { job := v.job, body := .done h v.gen epoch 0 0 4 }
    let far := (List.range 64).foldl (fun a n => if s.lstate .fd n == 3 then max a ((s.link .fd n).delay.toNat / nsLsb) else a) 0
    (s.sendWords .fd miss w).setSlot h { v with state := .called, dlBeat := beatAtOrAfter (s.htNs .fd + 2 * far + 1024) % 2 ^ 32 }

/-- A DONE from the parent (R225, R228, R230). -/
def State.hallDone (w : CtlWord) (h gen epoch contrib hash flags : Nat) (s : State) : State :=
  let v := s.slot h
  let d := sdiff16 epoch v.e
  if !v.owns w.job gen then s
  else if bit flags 2 then (if d = 0 && v.state = .counting then s.called h epoch else s)
  else if d < 0 then s
  else
    let s1 := s.sendWords .fd (s.portsOfMask (s.expected h)) w
    let s2 := s1.hallRec 0x03 h (contrib % 2 ^ 22) epoch 0
    let s3 := s2.setSlot h { v with last := (contrib, hash, flags), forced := bit flags 1, skip := v.skip + d.toNat, doneBeat := some (s.beat .fd) }
    if d = 0 then (s3.promote h).hallTest h
    else
      let s4 := s3.freePartials .fd (s3.upPorts .fd) v.job h v.e
      let s5 := s4.setSlot h { (s4.slot h) with e := epoch, early := 0, earlyBodies := [] }
      (s5.promote h).hallTest h

/-- The serial beat of a slot's field has come (R49, w = 32). -/
def State.beatDue (b : Nat) (s : State) : Bool := !laterThan 32 b (s.beat .fd % 2 ^ 32)

/-- ROOT_DEADLINE (R230, R233): at DL_BEAT a DEADLINE slot calls the ports that have not arrived. -/
def State.callOut (h : Nat) (s : State) : State :=
  let v := s.slot h
  let w : CtlWord := { job := v.job, body := .done h v.gen v.e 0 0 4 }
  let ports := ((s.missingPorts h).map fun p => s.portsOf p).flatten
  (s.sendWords .fd ports w).setSlot h { v with
    state := if v.state = .counting then .called else v.state
    callSent := true
    dlBeat := (s.beat .fd + 2 * s.lead) % 2 ^ 32 }

/-- The quorum decision (R232). -/
def State.decideQuorum (h : Nat) (s : State) : State :=
  let v := s.slot h
  if v.quorum ≤ v.contrib then (s.rootComplete h false).hallTest h
  else if v.state = .unresolved then s
  else (s.setSlot h { v with state := .quorumWait, quorumWaited := true }).hbarInt Rg.HINT_QUORUM_WAIT

/-- Every live slot of a job is checked again (R221). -/
def State.recheckJob (j : Nat) (s : State) : State := (s.jobSlots j).foldl (fun t h => t.hallTest h) s

/-- A MEMBER change takes effect at a distributor (R221): MCOUNT and MHASH of the port toward the roll, MEMBER_PORTS with them; the leaf's
members and generations, and the root's. -/
def State.memberChange (j roll action gen : Nat) (s : State) : State :=
  let b := s.job j
  let n := s.portToward roll
  let c := SMap.get 0 n b.mcount
  let h := Nat.xor (SMap.get 0 n b.mhash) (rollHash roll)
  let b1 := { b with
    mcount := SMap.set n (if action = 0 then c + 1 else c - 1) b.mcount
    mhash := SMap.set n h b.mhash
    members := SMap.set roll (if action = 0 then 1 else 0) b.members
    gens := SMap.set roll gen b.gens }
  ((s.setJob j b1).jobRegs j).recheckJob j

/-! The carrying role (R20, R223). -/

/-- A leaf's carried packages change: slots still open are counted anew over the carried ports; the leaf that takes packages sends an ARRIVE for every live slot that is complete. -/
def State.carryNow (mask : Nat) (took : Bool) (s : State) : State :=
  let s1 := s.setHall { s.dist.hall with carrying := mask }
  s1.dist.hall.slots.foldl (fun (t : State) e =>
    if e.2.state = .sent || e.2.state = .closed then (if took then t.sendSlotUp e.1 else t)
    else if e.2.state = .free then t
    else (t.recount e.1).hallTest e.1) s1

/-- A mid's table follows the carrying role of the leaf at a port; duplicates of what it has counted are dropped for 64 beats, as after an entry to ALIGNED (R223, R229). -/
def State.carryBelow (n away : Nat) (s : State) : State :=
  let s1 := (s.setHall { s.dist.hall with away := SMap.set n away s.dist.hall.away }).modLink .fd n fun l => { l with alignedBeat := s.beat .fd }
  s1.dist.hall.jobs.foldl (fun (t : State) e => t.recheckJob e.1) s1

end Sys2Proof.Machine
end

