-- ==== Sys2Proof/Machine/Attendance.lean ====
section
/-! DEFINITION. The attendance register and the memory tiers (R285 to R287, R294 to R307, R399). -/

namespace Sys2Proof.Machine

open Sys2Proof

/-! Taking in. -/

/-- ATT_RECORD (R294, R295, R298): a leaf archives a record from a die of its port; a lead die holds one of its package's for sending. Rule records are
never archived (R303). -/
def execAttRecord (p : Part) (n : Nat) (x : Rec) (s : State) : Host.Outcome State Fault Refusal :=
  .next (if x.kind = 0xFE || !s.linkUp p n then s
    else match p with
      | .fd => if s.role == 4 && n < 64 then s.attTake { x with below := true, port := n } else s
      | .sc =>
        if s.die.pkgIndex != 0 || n < 9 then s
        else
          let a := s.die.att
          if (a.buf.foldl (fun m e => m + e.1.size) 0) + x.size ≤ dieBufCapacity then
            s.setDie { s.die with att := { a with buf := a.buf ++ [({ x with die := n - 8 }, s.now)] } }
          else (s.setDie { s.die with att := { a with lost := a.lost + x.size } }).bump .sc Rg.SATT_DROP x.size)

/-- BLOCK_TIMEOUT (R298): 2^28 ns after its anchor the open block closes. -/
def execBlockTimeout (s : State) : Host.Outcome State Fault Refusal :=
  .next (match s.dist.arch.cur with
    | some b => (s.awaitNow (b.openNow + blockNs)).closeBlock
    | none => s)

/-- RECORD_AGE_DROP (R298): records that have waited 2^29 ns at the die are dropped and counted. -/
def execRecordAgeDrop (s : State) : Host.Outcome State Fault Refusal :=
  let s := match s.die.att.buf with
    | e :: _ => s.awaitNow (e.2 + 2 ^ 29)
    | [] => s
  let a := s.die.att
  let old := a.buf.filter fun e => decide (e.2 + 2 ^ 29 ≤ s.now)
  let n : Nat := old.foldl (fun (m : Nat) (e : Rec × Nat) => m + e.1.size) 0
  .next (if n = 0 then s
    else (s.setDie { s.die with att := { a with buf := a.buf.filter fun e => !decide (e.2 + 2 ^ 29 ≤ s.now), lost := a.lost + n } }).bump .sc Rg.SATT_DROP n)

/-! Ring, spill, archive (R299, R300). -/

/-- Spill is paused (R300): during the guard, while P4 is down, while the archive is remapped. -/
def State.spillPaused (s : State) : Bool := s.inGuard .fd || !s.roleUp .fd 4 || s.dist.arch.remapping || s.get .fd Rg.START_STAGE != 3

/-- FD_ATT_STATUS and OLDEST_SEQ brought up to date (R306). -/
def State.attRegs (s : State) : State :=
  let a := s.dist.arch
  let oldest := match (a.arch.filter (!·.gone)).head?, a.spill.head?, a.ring.head? with
    | some x, _, _ => x.block.seq
    | none, some b, _ => b.seq
    | none, none, some b => b.seq
    | none, none, none => s.get .fd Rg.ATT_OLDEST_SEQ
  let s1 := s.put .fd Rg.ATT_OLDEST_SEQ oldest
  if s.dist.variant = .vxd2840 then s1
  else (s1.putFlag .fd Rg.ATT_SPILL_PAUSED s.spillPaused).put .fd Rg.ATT_SPILL_BUF_PCT (100 * a.spill.length / spillCapacity)

/-- The bytes the archive holds. -/
def Archive.used (a : Archive) : Nat := a.arch.foldl (fun n x => n + x.len) 0

/-- The oldest archived blocks are overwritten until a length fits (R299). -/
def makeRoom (cap len : Nat) : List Archived → List Archived
  | [] => []
  | x :: t => if ((x :: t).foldl (fun n y => n + y.len) 0) + len ≤ cap then x :: t else makeRoom cap len t

/-- The channels that hold archive data. -/
def State.archChannels (s : State) : List Nat := setBits 16 (minusMask 16 (s.get .fd Rg.MEM_CH_PRESENT) (s.get .fd Rg.MEM_CH_FAILED))

/-- SPILL_WRITE (R299, R300): the oldest block of the spill buffer is compressed and archived, unless spill is paused. After a loss it carries
GAP_BEFORE. Archive data is spread over the channels by block (DESIGN CHOICE, log entry 20). -/
def execSpillWrite (s : State) : Host.Outcome State Fault Refusal :=
  let a := s.dist.arch
  match a.spill with
  | [] => .next s.attRegs
  | b :: rest =>
    if s.spillPaused || a.capBlocks = 0 then .next s.attRegs
    else
      let b1 := { b with gapBefore := b.gapBefore || a.archGap }
      let z := Config.zstdLen b1.toBytes
      let raw := decide (4096 ≤ z)
      let len := min z 4096
      let chans := s.archChannels
      let x : Archived := { block := b1, len := len, raw := raw, channel := chans.getD (b.seq % chans.length) 0 }
      let s1 := (s.setArch { a with spill := rest, archGap := false, arch := makeRoom (4096 * a.capBlocks) len a.arch ++ [x] }).attRegs
      .next (if b.bad then s1.bump .fd Rg.ATT_BLOCK_BAD else s1)

/-- SPILL_RESUME (R300): a pause ends: the archive's remapping is done. -/
def execSpillResume (s : State) : Host.Outcome State Fault Refusal := .next (s.setArch { s.dist.arch with remapping := false }).attRegs

/-! Rules (R302, R303). -/

/-- A rule as its record (R303): a rule whose scope is ARCHIVE, or that is not valid, has VALID 0. -/
def State.ruleRec (r : Nat) (s : State) : RuleRec :=
  { index := r, valid := s.flag .fd (Rg.RULE_VALID r) && s.flag .fd (Rg.RULE_SCOPE r), action := s.get .fd (Rg.RULE_ACTION r),
    sampleLog2 := s.get .fd (Rg.RULE_SAMPLE_LOG2 r), kindLo := s.get .fd (Rg.RULE_KIND_LO r), kindHi := s.get .fd (Rg.RULE_KIND_HI r),
    job := s.get .fd (Rg.RULE_JOB r), anyJob := s.flag .fd (Rg.RULE_ANY_JOB r), setSeq := s.dist.arch.ruleSeq }

/-- The whole set is queued on a downstream port. -/
def State.sendRules (n : Nat) (s : State) : State :=
  if s.linkUp .fd n then s.modLink .fd n fun l => { l with rulesOut := (List.range 32).map fun r => s.ruleRec r } else s

/-- A rule has been changed at a leaf: SET_SEQ counts, the set goes out in the next beat (R303). -/
def State.ruleChanged (s : State) : State :=
  s.setArch { s.dist.arch with ruleSeq := (s.dist.arch.ruleSeq + 1) % 65536, ruleBeat := some (s.beat .fd) }

/-- RULE_SET_SEND (R303): a leaf sends its set in the beat after a change and every 1,024 beats. -/
def execRuleSetSend (s : State) : Host.Outcome State Fault Refusal :=
  let due := s.dist.arch.ruleBeat.isSome
  let s := match s.dist.arch.ruleBeat with
    | some b => s.awaitBeat .fd (b + 1)
    | none => if s.role = 4 then s.periodic .fd 8 1024 0 else s
  .next (if s.role == 4 && s.get .fd Rg.START_STAGE == 3 && (due || s.beat .fd % 1024 == 0) then
      ((List.range 64).foldl (fun (t : State) n => t.sendRules n) s).setArch { s.dist.arch with ruleBeat := if due then none else s.dist.arch.ruleBeat }
    else s)

/-- A die takes rule records from this port (R303): of a dual-homed package only where its leaf reports CARRYING. -/
def State.rulePort (n : Nat) (s : State) : Bool :=
  s.linkUp .sc n && (if s.die.pkgIndex = 0 then n < 2 && (!(s.link .sc n).far.homing || (s.link .sc n).far.carrying) else n == 8)

/-- A rule record collected (R303): records of an incomplete set give way to a later one. -/
def DieAtt.collect (r : RuleRec) (a : DieAtt) : DieAtt :=
  let newer := match a.inUseSeq with
    | some q => laterThan 16 r.setSeq q
    | none => true
  if !newer then a
  else if a.coming.isEmpty || laterThan 16 r.setSeq a.comingSeq then { a with coming := [(r.index, r)], comingSeq := r.setSeq }
  else if r.setSeq = a.comingSeq then { a with coming := SMap.set r.index r a.coming }
  else a

/-- RULE_RECORD_AT_DIE (R303): a lead die forwards the record to every other die of its package; the die collects it. -/
def execRuleRecordAtDie (n : Nat) (r : RuleRec) (s : State) : Host.Outcome State Fault Refusal :=
  .next (if !s.rulePort n then s
    else
      let s1 := if s.die.pkgIndex != 0 then s
        else (List.range 7).foldl (fun (t : State) k => if t.linkUp .sc (9 + k) then t.modLink .sc (9 + k) fun l => { l with rulesOut := l.rulesOut ++ [r] } else t) s
      let a := s1.die.att.collect r
      (s1.setDie { s1.die with att := if a.coming.length = 32 && s1.die.att.coming.length != 32 then { a with fullBeat := s1.beat .sc } else a }))

/-- RULE_SET_ADOPT (R303): at the beat boundary after all 32 records of a later set are held, the set is taken into use. -/
def execRuleSetAdopt (s : State) : Host.Outcome State Fault Refusal :=
  let s := if s.die.att.coming.length = 32 then s.awaitBeat .sc (s.die.att.fullBeat + 1) else s
  let a := s.die.att
  .next (if a.coming.length = 32 then
      s.setDie { s.die with att := { a with inUse := a.coming.map (·.2), inUseSeq := some a.comingSeq, coming := [] } }
    else s)

/-- A die's link has reached ALIGNED: it applies no SOURCE rule until it holds a complete set (R303). -/
def State.dropRules (s : State) : State := s.setDie { s.die with att := { s.die.att with inUse := [], inUseSeq := none, coming := [] } }

/-! Shares (R304). -/

/-- ATT_TOKEN_REFILL (R304): a beat's tokens come back to every job's bucket. -/
def execAttTokenRefill (s : State) : Host.Outcome State Fault Refusal :=
  let s := s.periodic .fd 12 1 0
  let a := s.dist.arch
  .next (s.setArch { a with tokens := a.tokens.map fun e => (e.1, e.2 - 1024 * s.get .fd (Rg.JM_ATT_RATE e.1)) })

/-- ATT_QUOTA (0x82; R304, R307): JOB, ATT_RATE. -/
def execAttQuota (m : MbGo) (s : State) : Host.Outcome State Fault Refusal :=
  .next (s.mailbox m 0x82 (fdOnly m.part 4) [1, 4] (some 0) fun a t =>
    if 63 < a.getD 0 0 || 2 ^ 24 ≤ a.getD 1 0 then (.badArg, t) else (.ok [], t.put .fd (Rg.JM_ATT_RATE (a.getD 0 0)) (a.getD 1 0)))

/-- ATT_FLUSH (0x83; R298, R307): the open block closes. -/
def execAttFlush (m : MbGo) (s : State) : Host.Outcome State Fault Refusal :=
  .next (s.mailbox m 0x83 (fdOnly m.part 4) [] none fun _ t => (.ok [], t.closeBlock.attRegs))

/-! Reading (R305). -/

/-- Every block held, oldest first. -/
def State.heldBlocks (s : State) : List Block :=
  let a := s.dist.arch
  (a.arch.filter (!·.gone)).map (·.block) ++ a.spill ++ a.ring

/-- The block of a sequence, where it is held. -/
def State.heldBlock (seq : Nat) (s : State) : Option Block := s.heldBlocks.find? fun b => b.seq == seq

/-- The archive holds the block of a sequence. -/
def State.archiveHas (seq : Nat) (s : State) : Bool := s.dist.arch.arch.any fun x => !x.gone && x.block.seq == seq

/-- A write to FD_ATT_WIN_SEL starts the fetch (R305). -/
def State.winSelect (v : Nat) (s : State) : State :=
  let s1 := (((s.put .fd Rg.ATT_WIN_SEQ v).put .fd Rg.ATT_WIN_BUSY 1).put .fd Rg.ATT_WIN_VALID 0).put .fd Rg.ATT_WIN_BAD 0
  (s1.put .fd Rg.ATT_WIN_GONE 0).setArch { s1.dist.arch with window := none }

/-- ATT_WIN_LOADED (R287, R305): the fetch ends; a block whose CRC fails is shown with BAD set and counted. A block of the archive is read
from stage 3 and outside the guard (R378, R390). -/
def execAttWinLoaded (s : State) : Host.Outcome State Fault Refusal :=
  .next (if !s.flag .fd Rg.ATT_WIN_BUSY then s
    else if s.archiveHas (s.get .fd Rg.ATT_WIN_SEQ) && (s.inGuard .fd || s.get .fd Rg.START_STAGE != 3) then s
    else
      let s1 := s.put .fd Rg.ATT_WIN_BUSY 0
      match s.heldBlock (s.get .fd Rg.ATT_WIN_SEQ) with
      | none => s1.put .fd Rg.ATT_WIN_GONE 1
      | some b =>
        let s2 := ((s1.put .fd Rg.ATT_WIN_VALID 1).putFlag .fd Rg.ATT_WIN_BAD b.bad).setArch { s1.dist.arch with window := some b }
        if b.bad then s2.bump .fd Rg.ATT_BLOCK_BAD else s2)

/-- The newest block anchored at or before an HT integer (R307). -/
def State.findBlock (ht : Nat) (s : State) : Option Block := (s.heldBlocks.filter fun b => decide (b.anchor / nsLsb ≤ ht)).getLast?

/-- Sequences in a row as ranges (first, last). -/
def ranges : List Nat → List (Nat × Nat)
  | [] => []
  | a :: t => match ranges t with
    | (b, c) :: r => if b = (a + 1) % 2 ^ 32 then (a, c) :: r else (a, a) :: (b, c) :: r
    | [] => [(a, a)]

/-- The sequences that an ATT_DMA asks for: from a sequence or an HT, up to the newest closed block. -/
def State.dmaSeqs (a : List Nat) (s : State) : List Nat :=
  let first := if a.getD 1 0 = 0 then a.getD 0 0 % 2 ^ 32 else match s.findBlock (a.getD 0 0) with
    | some b => b.seq
    | none => (s.heldBlocks.head?.map (·.seq)).getD 0
  ((List.range (a.getD 2 0)).map fun i => (first + i) % 2 ^ 32).filter fun q => !laterThan 32 q (s.get .fd Rg.ATT_HEAD_SEQ)

/-- ATT_DMA carried out: the blocks go to host memory in BLOCK_SEQ order; a missing block is skipped and named. -/
def State.attDma (a : List Nat) (s : State) : MbOut × State :=
  let seqs := s.dmaSeqs a
  let held := seqs.filterMap fun q => s.heldBlock q
  let gaps := ranges (seqs.filter fun q => (s.heldBlock q).isNone)
  let bad := (held.filter (·.bad)).length
  let s1 := (s.dmaWrite .fd (a.getD 3 0) (held.map Block.toBytes).flatten).bump .fd Rg.ATT_BLOCK_BAD bad
  (.list [(4, (held.head?.map (·.seq)).getD 0), (4, (held.getLast?.map (·.seq)).getD 0)] ((gaps.take 16).map fun g => [(4, g.1), (4, g.2)]), s1)

/-- The ATT_DMA commands that wait for the end of the guard are carried out (R390). -/
def State.attDmaResume (s : State) : State :=
  (s.mbWaiting .fd 0x80).foldl (fun (t : State) b => match (t.mail .fd b).wait with
    | some w => let r := t.attDma w.args; r.2.mbComplete .fd b r.1
    | none => t) s

/-- ATT_DMA (0x80; R305, R307). A read of the archive needs stage 3 (BUSY below it, log entry 42) and waits for the end of the guard (R390). -/
def execAttDma (m : MbGo) (s : State) : Host.Outcome State Fault Refusal :=
  .next (s.mailbox m 0x80 (fdOnly m.part 4) [8, 1, 4, 8] none fun a t =>
    let count := a.getD 2 0
    let archived := (t.dmaSeqs a).any fun q => t.archiveHas q
    if a.getD 3 0 % 4096 != 0 || count = 0 || 65536 < count || 1 < a.getD 1 0 then (.badArg, t)
    else if archived && t.get .fd Rg.START_STAGE != 3 then (.busy, t)
    else if archived && t.inGuard .fd then (.wait a, t)
    else t.attDma a)

/-- ATT_FIND (0x81; R307): the newest block anchored at or before an HT; STALE with the oldest sequence held. -/
def execAttFind (m : MbGo) (s : State) : Host.Outcome State Fault Refusal :=
  .next (s.mailbox m 0x81 (fdOnly m.part 4) [8] none fun a t =>
    match t.findBlock (a.getD 0 0) with
    | some b => (.ok [(4, b.seq)], t)
    | none => (.stale [(4, t.attRegs.get .fd Rg.ATT_OLDEST_SEQ)], t))

/-! Errors (R285 to R287, R399). -/

/-- One day in ns. -/
def dayNs : Nat := 86400000000000

/-- The key of a tier's stack or channel. -/
def memUnit (tierA : Bool) (unit : Nat) : Nat := unit + (if tierA then 64 else 0)

/-- A row is spared or remapped (R286): `remap` says that tier B's repair resources are spent and a remap row is taken. -/
def State.spareRow (tierA : Bool) (unit row : Nat) (remap : Bool) (s : State) : State :=
  let a := s.dist.arch
  let k := memUnit tierA unit
  let s1 := s.setArch { a with rowCe := SMap.erase (k * 2 ^ 32 + row) a.rowCe,
                               rowsUsed := if tierA || remap then SMap.set k (SMap.get 0 k a.rowsUsed + 1) a.rowsUsed else a.rowsUsed }
  (s1.bump .fd (if tierA then Rg.SPR_ROWS_A else Rg.SPR_ROWS_B)).faultLog .fd 0x30 1 unit

/-- PATROL_SCRUB (R286): a corrected error is written back and counted; a row's second within 24 h spares the row. Tier B's scrub waits out the
guard (R390). -/
def execPatrolScrub (tierA : Bool) (unit row : Nat) (remap : Bool) (s : State) : Host.Outcome State Fault Refusal :=
  let k := memUnit tierA unit * 2 ^ 32 + row
  let recent := (SMap.get [] k s.dist.arch.rowCe).filter fun t => decide (s.now < t + dayNs)
  let s1 := (s.setArch { s.dist.arch with rowCe := SMap.set k (s.now :: recent) s.dist.arch.rowCe }).bump .fd Rg.ECC_CE_CNT
  .next (if !tierA && s.inGuard .fd then s else if recent.isEmpty then s1 else s1.spareRow tierA unit row remap)

/-- A mid or leaf reinstalls a slot; its count starts again as if every port had just reached ALIGNED (R229, R287). -/
def State.reinstall (h : Nat) (s : State) : State :=
  let v := s.slot h
  let s1 := (s.setSlot h { v with state := .counting, arr := 0, early := 0, contrib := 0, hash := 0, acc := {}, hasElems := false, earlyBodies := [],
                                  callSent := false, paid := false }).bufSync
  let ports := s.portsOfMask (s.job v.job).memberPorts
  let s2 := ports.foldl (fun (t : State) n => t.modLink .fd n fun l => { l with alignedBeat := t.beat .fd }) s1
  s2.sendWords .fd ports { job := v.job, body := .done h v.gen v.completed v.last.1 v.last.2.1 v.last.2.2 }

/-- What an uncorrectable error costs in each region (R287). A root slot lost without a mirror copy has counts that the spec does not state: they
are free values. -/
def State.ueRegion (r : UeRegion) (s : State) : State :=
  match r with
  | .sbEntry i =>
    if s.flag .fd Rg.SB_MIRRORED then s.bump .fd Rg.SB_ENTRY_REPAIRED
    else (s.setSb { s.dist.sb with entries := SMap.set i { bad := true } s.dist.sb.entries }).bump .fd Rg.SB_ENTRY_BAD
  | .hallSlot h =>
    if (s.slot h).state = .free then s
    else if !s.isActiveRoot then s.reinstall h
    else if s.flag .fd Rg.SB_MIRRORED then s
    else
      let a := s.fresh
      let b := a.2.fresh
      let c := b.2.fresh
      c.2.setSlot h { c.2.slot h with arr := a.1 % 2 ^ 64, contrib := b.1 % 2 ^ 22, hash := c.1 % 2 ^ 32 }
  | .tables j => if s.isActiveRoot then s else s.setJob j { s.job j with installed := false }
  | .combine h none =>
    let v := s.slot h
    let hash := (setBits 64 v.arr).foldl (fun a p => Nat.xor a (SMap.get 0 p (s.job v.job).mhash)) 0
    if v.hasElems then (s.setSlot h { v with contrib := 0, hash := hash, acc := summaryOnly 0 hash (orMask v.acc.sum.pflags pfDropped), hasElems := false }).bufSync
    else s
  | .combine h (some p) =>
    let v := s.slot h
    match SMap.find p v.earlyBodies with
    | some _ => (s.setSlot h { v with earlyBodies := SMap.set p (summaryOnly 0 (SMap.get 0 p (s.job v.job).mhash) pfDropped) v.earlyBodies }).bufSync
    | none => s
  | .closeLog j seq => s.setSb { s.dist.sb with logs := SMap.set j ((SMap.get [] j s.dist.sb.logs).filter fun c => c.seq != seq) s.dist.sb.logs }
  | .block seq =>
    let mark := fun b : Block => if b.seq = seq then { b with bad := true } else b
    let a := s.dist.arch
    s.setArch { a with ring := a.ring.map mark, spill := a.spill.map mark, arch := a.arch.map fun x => { x with block := mark x.block } }
  | .none => s

/-- DRAM_UE (R287, R397): an uncorrectable error is counted, recorded and handled by region; its row is spared. -/
def execDramUe (tierA : Bool) (unit row : Nat) (region : UeRegion) (remap : Bool) (s : State) : Host.Outcome State Fault Refusal :=
  let k := memUnit tierA unit
  let a := s.dist.arch
  let s1 := s.setArch { a with ueTimes := SMap.set k ((row, s.now) :: (SMap.get [] k a.ueTimes).filter fun e => decide (s.now < e.2 + dayNs)) a.ueTimes }
  let s2 := (s1.bump .fd Rg.ECC_UE_CNT).faultLog .fd 0x31 0 unit
  .next ((s2.ueRegion region).spareRow tierA unit row remap)

/-- CHANNEL_FAIL (R285, R397): a tier B channel is declared failed; `cause` 0 training, 1 uncorrectable errors on 3 distinct rows within 24 h, 2 its 256
remap rows spent. Its blocks are lost, the archive is remapped into the reserve of the others. -/
def execChannelFail (ch cause : Nat) (s : State) : Host.Outcome State Fault Refusal :=
  let a := s.dist.arch
  let rows := (((SMap.get [] ch a.ueTimes).filter fun e => decide (s.now < e.2 + dayNs)).map (·.1)).eraseDups.length
  let met := cause == 0 || (cause == 1 && decide (3 ≤ rows)) || (cause == 2 && decide (256 ≤ SMap.get 0 ch a.rowsUsed))
  .next (if s.dist.variant = .vxd2840 || 15 < ch || !bit (s.get .fd Rg.MEM_CH_PRESENT) ch || bit (s.get .fd Rg.MEM_CH_FAILED) ch || !met then s
    else
      let need := a.dimmGib * 15 / 16
      let reserve := a.reserveGib - a.dimmGib / 16
      let take := min need reserve
      let lost := (need - take) * 262144
      let s1 := (s.put .fd Rg.MEM_CH_FAILED (setBit (s.get .fd Rg.MEM_CH_FAILED) ch)).put .fd Rg.FSUM_CHANNEL_FAIL 1
      let s2 := s1.setArch { a with arch := a.arch.map fun x => if x.channel = ch then { x with gone := true } else x
                                    remapping := true, reserveGib := reserve - take, capBlocks := a.capBlocks - lost * 29 / 30 }
      ((s2.faultLog .fd 0x32 0 ch).faultAlert .fd).attRegs)

/-- STACK_FAIL (R397, R399): a tier A stack fails in service; `cause` 0 its spare rows are spent, 1 it had 8 uncorrectable errors within 1 h, 2 it
failed its training before stage 1. The distributor transmits on no tick-link port any more. -/
def execStackFail (k cause : Nat) (s : State) : Host.Outcome State Fault Refusal :=
  let recent := (SMap.get [] (memUnit true k) s.dist.arch.ueTimes).filter fun e => decide (s.now < e.2 + 3600000000000)
  let met := if s.flag .fd Rg.START_STAGE1_MET then cause == 0 || (cause == 1 && decide (8 ≤ recent.length)) else cause == 2
  .next (if 3 < k || !bit (s.get .fd Rg.ECC_STACK_OK) k || !met then s
    else
      let s1 := ((s.faultLog .fd 0x33 4 k).faultAlert .fd).put .fd Rg.ECC_STACK_OK (clearBit (s.get .fd Rg.ECC_STACK_OK) k)
      (s1.put .fd Rg.FSUM_STACK_FAIL 1).setSpare { s1.dist.spare with stackFailed := true })

end Sys2Proof.Machine
end

