-- ==== Sys2Proof/Machine/Stations.lean ====
section
/-! DEFINITION. The hub and the stations (chapter 6): region time (R154 to R156), losses of reference (R159), launches and their debt
(R163 to R166), strobe slots (R164), operating points (R170 to R173), the heartbeat's sender (R151, R153). -/

namespace Sys2Proof.Machine

open Sys2Proof

/-! Access. -/

/-- A station of the die. -/
def State.stn (n : Nat) (s : State) : Station := SMap.get {} n s.die.stn

/-- The state with a station replaced. -/
def State.setStn (n : Nat) (x : Station) (s : State) : State := s.setDie { s.die with stn := SMap.set n x s.die.stn }

/-- The state with the operating-point state replaced. -/
def State.setOpp (o : OppSt) (s : State) : State := s.setDie { s.die with opp := o }

/-- The state with queues, slots and events replaced. -/
def State.setSync (y : SyncSt) (s : State) : State := s.setDie { s.die with sync := y }

/-- The station exists and is clocked: within the configured count, from the release of SC_RESET_N (R149, R174). -/
def State.stnLive (n : Nat) (s : State) : Bool := s.die.running && decide (n < s.die.stations)

/-- PERIOD_CUR of a station, in 2^-16 ns; 0 before the configuration image has set the entry (R12). -/
def State.period (n : Nat) (s : State) : Nat := s.get .sc (Rg.OPE_PERIOD (s.stn n).point)

/-- HB_DELAY in 2^-16 ns. -/
def Station.delayLsb (x : Station) : Nat := x.delay * 65536 / 10000

/-! Region time (R155). -/

/-- One rising edge of the region clock; `stretch` is STRETCH_IN, in 1/64 of the period. -/
def Station.edge (period : Nat) (x : Station) (stretch : Nat) : Station :=
  let st := min stretch 63 * period / 64
  let q : Int := (period / 4 : Nat)
  let step := clampInt (-q) q x.pending
  { x with pending := x.pending - step, rt := ((x.rt : Int) + period + st + x.rateTrim + step).toNat, slip := sat 16 (x.slip + min stretch 63) }

/-- The edges since the last event, oldest first; the last one is the edge of the event. -/
def Station.edges (period : Nat) (es : List Nat) (x : Station) : Station := es.foldl (fun y e => y.edge period e) x

/-- A station takes its region edges. -/
def State.stnEdges (n : Nat) (es : List Nat) (s : State) : State := s.setStn n ((s.stn n).edges (s.period n) es)

/-- The correction at an accepted heartbeat (R155). -/
def Station.correct (period : Nat) (eps : Int) (x : Station) : Station :=
  let sum := x.epsSum + eps
  if x.nHb + 1 = 16 then
    let lim : Int := (period / 2000 : Nat)
    { x with pending := -eps, nHb := 0, epsSum := 0,
             rateTrim := clampInt (-lim) lim (x.rateTrim - Int.tdiv (sum * period) (1024 * 65536)) }
  else { x with pending := -eps, nHb := x.nHb + 1, epsSum := sum }

/-- Region time reloaded from a heartbeat (R174, R175): rt := hb_ht + HB_DELAY − φ. -/
def Station.reload (hb phi : Nat) (x : Station) : Station :=
  { x with rt := hb * 65536 + x.delayLsb - phi, pending := 0, valid := true }

/-- The 48-bit stamp of an event (R169): HT32 and the fraction of the region time of its edge. -/
def Station.stamp (x : Station) : Nat := x.rt % 2 ^ 48

/-! Crossings between regions (R167, R168). -/

/-- The next hop of a station: the generator's primary, or its alternate while DEAD_NEIGHBOUR marks that one; none is the hub. The spec gives no table: here the hub lies north of
the grid, the primary hop is north and the alternate the neighbour in the row (log entry 16). -/
def State.nextHop (n : Nat) (s : State) : Option Nat :=
  let w := s.die.gridCols
  if n < w then none
  else if !bit (s.stn n).dead 0 then some (n - w)
  else if n % w != 0 then some (n - 1)
  else if n + 1 < s.die.stations && (n + 1) % w != 0 then some (n + 1) else some (n - w)

/-- An event moves on: out of a station whose clock runs, into a crossing that has one of its eight places free. -/
def State.evStep (s : State) (others : List HubEv) : Nat → HubEv → HubEv
  | 0, e => e
  | k + 1, e =>
    let from_ := match e.at_ with
      | .buf n => some n
      | .hop _ m => some m
      | .hub => none
    match from_ with
    | none => e
    | some n =>
      if (s.stn n).clkLost then e
      else match s.nextHop n with
        | none => { e with at_ := .hub, entered := s.htNs .sc }
        | some m =>
          if (others.filter fun o => o.at_ == .hop n m).length < 8 then s.evStep others k { e with at_ := .hop n m } else e

/-- Every event of a list moves in turn. -/
def State.evMoves (s : State) : List HubEv → List HubEv → List HubEv
  | done, [] => done
  | done, e :: t => State.evMoves s (done ++ [s.evStep (done ++ t) 64 e]) t

/-- The events as far toward the hub as they can go: travel takes no time of its own here (log entry 85). -/
def State.evSettle : Nat → State → State
  | 0, s => s
  | k + 1, s => State.evSettle k (s.setSync { s.die.sync with events := s.evMoves [] s.die.sync.events })

/-- Events move on. -/
def State.settle (s : State) : State := s.evSettle s.die.sync.events.length

/-- An event leaves a station with the stamp of its last edge (R169). -/
def State.postEvent (n : Nat) (b : EvBody) (s : State) : State :=
  (s.setSync { s.die.sync with events := s.die.sync.events ++ [{ src := n, stamp := (s.stn n).stamp, body := b, at_ := .buf n }] }).settle

/-! Attendance records of the die. -/

/-- A record whose HT32 is that of the event. -/
def State.dieRecordAt (x : Rec) (ht32 : Nat) (s : State) : State :=
  s.dieTake { x with ht32 := ht32, unjoined := !s.flag .sc Rg.HT_JOINED, unaligned := s.flag .sc Rg.HT_UNALIGNED }

/-- A station's record travels to the hub (R167). -/
def State.stnRecord (n : Nat) (x : Rec) (ht32 : Nat) (s : State) : State :=
  s.postEvent n (.record { x with ht32 := ht32, unjoined := !s.flag .sc Rg.HT_JOINED, unaligned := s.flag .sc Rg.HT_UNALIGNED })

/-! Launches (R163, R165). -/

/-- A launch at the station's last edge against its target: the debt is summed, and a debt above DEBT_BOUND is late. Sources: 1 BELL
strobe, 2 TIMED strobe, 3 WAIT_BELL, 4 WAIT_TIME. Answers whether it was late. -/
def State.launch (n target src : Nat) (s : State) : Bool × State :=
  let x := s.stn n
  let ps := (x.rt - target * 65536) * 1000 / 65536
  let late := decide (s.get .sc (Rg.STN_DEBT_BOUND n) < ps)
  let s1 := s.setStn n { x with debtSum := sat 64 (x.debtSum + ps) }
  let s2 := s1.put .sc (Rg.STN_DEBT_MAX n) (max (s.get .sc (Rg.STN_DEBT_MAX n)) (sat 16 ps))
  if late then
    (true, (s2.bump .sc (Rg.STN_DEBT_OVER n)).stnRecord n
      { kind := 0x11, obj := n, arg := sat 16 ps + 65536 * (Config.eventCode 0x11 src % 8), hallwide := true } (x.rt / 65536 % 2 ^ 32))
  else (false, s2)

/-- A target is reached at the station's last edge (R163). -/
def Station.reached (target : Nat) (x : Station) : Bool := decide (target * 65536 ≤ x.rt)

/-! Strobe slots (R164). -/

/-- START_HB of a slot. -/
def State.startHb (k : Nat) (s : State) : Nat := s.get .sc (Rg.STRB_START_HB_LO k) + 2 ^ 32 * s.get .sc (Rg.STRB_START_HB_HI k)

/-- A target armed on a slot of a station; a slot holds two, a third is dropped and sets STROBE_OVR. An occurrence of a TIMED slot is armed once. -/
def State.arm (n k ht : Nat) (s : State) : State :=
  let x := s.stn n
  let ts := SMap.get [] k x.targets
  if ts.any (fun t => t.ht == ht && t.source == 2) && s.get .sc (Rg.STRB_SOURCE k) == 2 then s
  else if 2 ≤ ts.length then s.put .sc (Rg.STN_STROBE_OVR n) 1
  else s.setStn n { x with targets := SMap.set k (ts ++ [{ ht := ht, source := s.get .sc (Rg.STRB_SOURCE k), job := s.get .sc (Rg.STRB_JOB k) }]) x.targets }

/-- A TIMED slot armed at a station from its configuration (R164): the earliest occurrence at or after the arming; the one
occurrence of a single-shot slot once for each write of its timing. -/
def State.armTimed (n k : Nat) (s : State) : State :=
  let x := s.stn n
  if s.get .sc (Rg.STRB_SOURCE k) != 2 || !s.flag .sc Rg.HT_JOINED || !bit (s.get .sc (Rg.STN_STROBE_EN n)) k then s
  else
    let start := s.startHb k * 64
    let per := s.get .sc (Rg.STRB_PERIOD_HB k) * 64
    let now := ceilDiv (s.ht .sc) nsLsb
    if per = 0 then
      if bit x.shot k then s else s.arm n k start
    else s.arm n k (if now ≤ start then start else start + ceilDiv (now - start) per * per)

/-- The targets armed on a slot are discarded at a station and counted. -/
def State.clearTargets (n k : Nat) (s : State) : State :=
  let x := s.stn n
  s.setStn n { x with targets := SMap.erase k x.targets, strobeClr := x.strobeClr + (SMap.get [] k x.targets).length }

/-- SC_STROBE_CFGk has been written (R164): a change of SOURCE, JOB, START_HB or PERIOD_HB discards every target armed on the slot;
one of its timing arms a TIMED slot anew. -/
def State.strobeCfgWritten (k : Nat) (s before : State) : State :=
  let same := fun fs : List Field => fs.all fun f => before.get .sc f == s.get .sc f
  let timing := same [Rg.STRB_SOURCE k, Rg.STRB_START_HB_LO k, Rg.STRB_START_HB_HI k, Rg.STRB_PERIOD_HB k]
  if timing && same [Rg.STRB_JOB k] then s
  else (List.range s.die.stations).foldl (fun t n =>
    let t1 := t.clearTargets n k
    if timing then t1 else (t1.setStn n { (t1.stn n) with shot := clearBit (t1.stn n).shot k }).armTimed n k) s

/-- STROBE_EN of a station has been written (R164): a bit that sets arms its TIMED slot there. -/
def State.strobeEnWritten (n : Nat) (s before : State) : State :=
  (List.range 8).foldl (fun t k =>
    if bit (s.get .sc (Rg.STN_STROBE_EN n)) k && !bit (before.get .sc (Rg.STN_STROBE_EN n)) k then t.armTimed n k else t) s

/-- STROBE_FIRE (R163 to R166): the first armed target of a slot is reached at a region edge; it pulses where the slot still has the
SOURCE and JOB of its arming and is enabled, and is discarded otherwise. A TIMED slot is armed for its next occurrence. -/
def execStrobeFire (n k : Nat) (edges : List Nat) (s : State) : Host.Outcome State Fault Refusal :=
  if !s.stnLive n then .next s
  else
    let s1 := s.stnEdges n edges
    let x := s1.stn n
    match SMap.get [] k x.targets with
    | [] => .next s1
    | t :: rest =>
      if !x.reached t.ht || 8 ≤ k then .next s1
      else
        let s2 := s1.setStn n { x with targets := SMap.set k rest x.targets }
        let src := s.get .sc (Rg.STRB_SOURCE k)
        let ok := src == t.source && (src != 1 || s.get .sc (Rg.STRB_JOB k) == t.job) && bit (s.get .sc (Rg.STN_STROBE_EN n)) k
        if !ok then .next (s2.setStn n { (s2.stn n) with strobeClr := x.strobeClr + 1 })
        else
          let r := s2.launch n t.ht src
          let y := r.2.stn n
          let s3 := r.2.setStn n { y with
            pulses := SMap.set k (SMap.get 0 k y.pulses + 1) y.pulses
            strobeLate := r.1
            strobeUnrel := s.flag .sc (Rg.STN_RT_UNREL n)
            slip := 0
            shot := if src = 2 then setBit y.shot k else y.shot }
          let per := s.get .sc (Rg.STRB_PERIOD_HB k) * 64
          .next (if src = 2 && per != 0 then s3.arm n k (t.ht + per) else s3)

/-! Losses of reference (R159). -/

/-- A loss is detected: RT_UNREL, LOSS_CAUSE (field bit 0 HB, bit 1 CLK), the alert line, the loss start. -/
def State.stnLoss (n causeBit : Nat) (s : State) : State :=
  let x := s.stn n
  let s1 := (s.put .sc (Rg.STN_RT_UNREL n) 1).put .sc (Rg.STN_LOSS_CAUSE n) (setBit (s.get .sc (Rg.STN_LOSS_CAUSE n)) causeBit)
  let start := match x.lossHt with
    | some h => h
    | none => s.htNs .sc
  let s2 := s1.setStn n { x with lossHt := some start, restoreHt := none, goodRun := 0, clkLost := x.clkLost || causeBit == 1 }
  if bit (s.get .sc (Rg.STN_LOSS_CAUSE n)) causeBit then s2 else s2.faultAlert .sc

/-- Recovery (R159): RT_UNREL clears, LAST_LOSS_NS and LOSS_COUNT are updated, the STATION_LOSS record is written with the HT32 of
the loss start. R159 gives it the cause, R296 no field for that: it stands in EPOCH (log entry 86). -/
def State.stnRecover (n : Nat) (s : State) : State :=
  let x := s.stn n
  let start := x.lossHt.getD 0
  let len := sat 24 ((x.restoreHt.getD start - start) / 64)
  let s1 := ((s.put .sc (Rg.STN_RT_UNREL n) 0).put .sc (Rg.STN_LOSS_CAUSE n) 0).put .sc (Rg.STN_LAST_LOSS_NS n) len
  let s2 := (s1.bump .sc (Rg.STN_LOSS_COUNT n)).setStn n { x with lossHt := none, restoreHt := none, clkLost := false, goodRun := 0, missRun := 0 }
  s2.stnRecord n { kind := 0x10, obj := n, arg := len, epoch := s.get .sc (Rg.STN_LOSS_CAUSE n), hallwide := true } (start % 2 ^ 32)

/-- The third copy of an arm has failed after the other two (R152): the station's status event tells the hub. -/
def State.copyLost (n : Nat) (w : HbWord) (s : State) : State :=
  if (s.stn n).armTaken || w.copy != 2 then s
  else match w.msg with
    | .strobeArm _ _ => s.postEvent n (.armLost w.msg)
    | .oppArm _ _ _ => s.postEvent n (.armLost w.msg)
    | _ => s

/-- HEARTBEAT_MISSING (R159): no heartbeat is accepted in its window; two in a row set RT_UNREL. -/
def execHeartbeatMissing (n : Nat) (edges : List Nat) (s : State) : Host.Outcome State Fault Refusal :=
  if !s.stnLive n then .next s
  else
    let s1 := ((s.stnEdges n edges).bump .sc (Rg.STN_HB_MISS n)).copyLost n (s.stn n).word
    let x := s1.stn n
    let s2 := s1.setStn n { x with missRun := x.missRun + 1, goodRun := 0 }
    .next (if 2 ≤ x.missRun + 1 then s2.stnLoss n 0 else s2)

/-- The neighbours of a station on the die's grid (log entry 16): north, east, south, west. -/
def State.neighbours (n : Nat) (s : State) : List (Option Nat) :=
  let w := s.die.gridCols
  [if w ≤ n then some (n - w) else none, if (n + 1) % w ≠ 0 then some (n + 1) else none, some (n + w), if n % w ≠ 0 then some (n - 1) else none]

/-- DEAD_NEIGHBOUR of a station: the neighbours that have lost their region clock. -/
def State.deadMask (n : Nat) (s : State) : Nat :=
  maskOf 4 fun i => match (s.neighbours n).getD i none with
    | some m => decide (m < s.die.stations) && (s.stn m).clkLost
    | none => false

/-- A message queued at the hub for a station, in one copy or in three (R151). -/
def State.hbQueue (n : Nat) (m : HbMsg) (copies : Nat) (s : State) : State :=
  let x := s.stn n
  s.setStn n { x with outq := x.outq ++ (List.range copies).map fun c => (m, c) }

/-- A message queued for every station. -/
def State.hbQueueAll (m : HbMsg) (copies : Nat) (s : State) : State := (List.range s.die.stations).foldl (fun t n => t.hbQueue n m copies) s

/-- CONTROL goes to the neighbours whose mask has changed (R151). -/
def State.hbControl (n : Nat) (s : State) : State :=
  (s.neighbours n).foldl (fun t o => match o with
    | some m => if m < t.die.stations then t.hbQueue m (.control (t.deadMask m)) 1 else t
    | none => t) s

/-- REGION_CLOCK_MISSING (R159): no region edge between two heartbeats. -/
def execRegionClockMissing (n : Nat) (s : State) : Host.Outcome State Fault Refusal :=
  if !s.stnLive n then .next s
  else
    let s1 := s.stnLoss n 1
    .next (if (s.stn n).clkLost then s1 else s1.hbControl n)

/-! The heartbeat word (R151). -/

/-- A CRC-8 register after one more bit: polynomial x^8 + x^2 + x + 1, the word's bits in the order of the wire (log entry 74). -/
def crc8Step (c b : Nat) : Nat := if (c / 128 + b) % 2 = 1 then Nat.xor (2 * (c % 128)) 7 else 2 * (c % 128)

/-- HB_CRC of a word: over its bits [55:1], from 0. -/
def hbCrc (v : Nat) : Nat := (List.range 55).foldl (fun c i => crc8Step c (v / 2 ^ (i + 1) % 2)) 0

/-- MSG_KIND and MSG. -/
def HbMsg.code : HbMsg → Nat × Nat
  | .none => (0, 0)
  | .time b => (1, b % 2 ^ 44)
  | .timeTop t => (2, t % 1024)
  | .strobeArm k t => (3, k % 8 + 8 * (t % 2 ^ 38))
  | .oppArm p a c => (4, p % 16 + 16 * (a % 2 ^ 38) + 2 ^ 42 * ofBool c)
  | .delay d => (5, d % 2 ^ 16)
  | .control d => (6, d % 16)

/-- The message of a MSG_KIND; reserved ones say nothing. -/
def HbMsg.ofCode (kind v : Nat) : HbMsg :=
  if kind = 1 then .time v
  else if kind = 2 then .timeTop (v % 1024)
  else if kind = 3 then .strobeArm (v % 8) (bits v 3 38)
  else if kind = 4 then .oppArm (v % 16) (bits v 4 38) (bit v 42)
  else if kind = 5 then .delay (v % 2 ^ 16)
  else if kind = 6 then .control (v % 16)
  else .none

/-- The 64 bits of a heartbeat word. -/
def HbWord.toBits (w : HbWord) : Nat :=
  let v := 1 + 2 * ofBool w.joined + 4 * ofBool w.unaligned + 8 * ofBool w.holdover + 16 * ofBool w.slewing + 32 * (w.idx % 16) + 512 * w.msg.code.1 + 4096 * w.msg.code.2
  v + 2 ^ 56 * hbCrc v

/-- HB_CRC of received bits passes. -/
def hbPasses (v : Nat) : Bool := bits v 56 8 == hbCrc v

/-- What a station reads in received bits; when the word was launched and which copy it is are no part of them. -/
def HbWord.read (v : Nat) (w : HbWord) : HbWord :=
  { w with idx := bits v 5 4, joined := bit v 1, unaligned := bit v 2, holdover := bit v 3, slewing := bit v 4, msg := HbMsg.ofCode (bits v 9 3) (bits v 12 44) }

/-! The phase detector (R154). -/

/-- The position of a tap in 2^-16 ns: the widths below it and half its own; of 65,536 hits, a width is 2.56 ns · h / 65,536; nominal taps are equal. -/
def tapPos (taps : List Nat) (k : Nat) : Nat := if taps.isEmpty then (2 * k + 1) * 4096 / 25 else (2 * (taps.take k).foldl (· + ·) 0 + taps.getD k 0) * 32 / 25

/-- A heartbeat edge is a hit of the table being taken; the 65,536th replaces the table in use at this heartbeat. -/
def Station.tapHit (k : Nat) (x : Station) : Station :=
  let hits := SMap.set k (SMap.get 0 k x.tapHits + 1) x.tapHits
  if x.tapCount + 1 = 65536 then { x with taps := (List.range 512).map fun i => SMap.get 0 i hits, tapHits := [], tapCount := 0 }
  else { x with tapHits := hits, tapCount := x.tapCount + 1 }

/-! The heartbeat's sender (R151, R153). -/

/-- The hub takes a station's round trip, in 0.1 ps: HB_DELAY := (mean of the last 64 − LOOP_TRIM) / 2; DELAY is sent when it has moved
by 1 ps or more. -/
def State.hbMeasure (n trip : Nat) (s : State) : State :=
  let x := s.stn n
  let ts := (trip :: x.trips).take 64
  let d := (ts.foldl (· + ·) 0 / ts.length - s.die.loopTrim) / 2
  let s1 := s.setStn n { x with trips := ts }
  if 10 ≤ ((d : Int) - x.sentDelay).natAbs then (s1.setStn n { (s1.stn n) with sentDelay := d }).hbQueue n (.delay (d % 65536)) 1 else s1

/-- One station's word at a boundary. -/
def State.hbLaunch (b n : Nat) (s : State) : State :=
  let x := s.stn n
  let idx := b / 64 % 16
  let w : HbWord := { ht := b, idx := idx, joined := s.flag .sc Rg.HT_JOINED, unaligned := s.flag .sc Rg.HT_UNALIGNED,
                      holdover := s.flag .sc Rg.HT_HOLDOVER, slewing := s.flag .sc Rg.HT_SLEWING }
  if idx = 0 then s.setStn n { x with word := { w with msg := .time (b / 1024 % 2 ^ 44) } }
  else if idx = 1 then s.setStn n { x with word := { w with msg := .timeTop (b / 2 ^ 54) } }
  else if idx = 15 then s.setStn n { x with word := { w with msg := .control (s.deadMask n) } }
  else match x.outq with
    | [] => s.setStn n { x with word := w }
    | (m, c) :: t => s.setStn n { x with word := { w with msg := m, copy := c }, outq := t, armTaken := x.armTaken && c != 0 }

/-- One station's word at a boundary, or none where a drill omits it (R410). -/
def State.hbWord (b n : Nat) (s : State) : State :=
  match SMap.get 0 n s.die.hbOmit with
  | 0 => s.hbLaunch b n
  | k + 1 =>
    let t := s.setStn n { (s.stn n) with word := {} }
    t.setDie { t.die with hbOmit := SMap.set n k t.die.hbOmit }

/-! Operating points (R170 to R173). -/

/-- The power floor ceiling (R170, R331): LEVEL when PIN = 1, 100 otherwise. -/
def State.ceiling (s : State) : Nat :=
  let f := s.get .sc Rg.SPWR_FLOOR_OUT
  if bit f 7 then f % 128 else 100

/-- An entry whose encodings are not reserved (R150). -/
def State.pointValid (i : Nat) (s : State) : Bool :=
  decide (i < 16) && decide (16384 ≤ s.get .sc (Rg.OPE_PERIOD i)) && decide (s.get .sc (Rg.OPE_PERIOD i) ≤ 163840)

/-- The highest-indexed entry that meets R170. -/
def State.choosePoint (temp : Int) (droop : Nat) (s : State) : Option Nat :=
  (List.range 16).reverse.find? fun i =>
    s.pointValid i && decide (temp ≤ s.get .sc (Rg.OPE_TEMP_MAX i)) && decide (droop ≤ s.get .sc (Rg.OPE_DROOP_MAX i))
      && decide (s.get .sc (Rg.OPE_POWER_PCT i) ≤ s.ceiling) && (!s.flag .sc Rg.SPIN_OPP_REQ_VALID || decide (i ≤ s.get .sc Rg.SPIN_OPP_REQ))

/-- A switch becomes the pending one (R171, R172): OPP_NEXT goes to the power manager. -/
def State.oppPend (w : OppSw) (s : State) : State :=
  (((s.setOpp { s.die.opp with pending := some w, armed := false, went := 0 }).put .sc Rg.OPS_PENDING 1).putFlag .sc Rg.OPS_PENDING_TT w.tt).put .sc Rg.OPS_NEXT w.point
    |>.put .sc Rg.SPIN_OPP_READY 0

/-- The pending switch ends. -/
def State.oppClear (s : State) : State :=
  (((s.setOpp { s.die.opp with pending := none, armed := false, went := 0 }).put .sc Rg.OPS_PENDING 0).put .sc Rg.OPS_PENDING_TT 0).put .sc Rg.OPS_NEXT 0

/-- A die-local request (R171) is accepted: no pending switch, AT at least 4,096 ns ahead. -/
def State.oppLocalOk (at_ : Nat) (s : State) : Bool := s.die.opp.pending.isNone && decide (s.htNs .sc + 4096 ≤ at_)

/-- The three OPP_ARM copies of the pending switch go to every station, once (R172). -/
def State.oppArmAll (s : State) : State :=
  match s.die.opp.pending with
  | some w => if s.die.opp.armed then s else (s.hbQueueAll (.oppArm w.point (w.at_ / 64 % 2 ^ 38) false) 3).setOpp { s.die.opp with armed := true }
  | none => s

/-- What is due at the heartbeat of boundary `b`: the arms of the pending switch in time for their first copy to leave by AT − 2,048 ns even where OPP_READY is absent (R172); at AT
of a die-local switch whose arm was lost, another arm for the stations that missed the cancel (R173). -/
def State.oppDue (b : Nat) (s : State) : State :=
  let s1 := match s.die.opp.pending with
    | some w => if w.at_ ≤ b + 2304 then s.oppArmAll else s
    | none => s
  match s1.die.opp.split with
  | some (p, at_, missed) =>
    if at_ ≤ b then
      let again := b + 1024
      (setBits 256 missed).foldl (fun (t : State) n => t.hbQueue n (.oppArm p (again / 64 % 2 ^ 38) false) 3) (s1.setOpp { s1.die.opp with split := none })
    else s1
  | none => s1

/-- CANCEL to every station (R173, R177). -/
def State.oppCancelAll (w : OppSw) (s : State) : State :=
  if s.die.opp.armed then s.hbQueueAll (.oppArm w.point (w.at_ / 64 % 2 ^ 38) true) 3 else s

/-- HEARTBEAT_SEND (R151, R153): at each 64 ns boundary the hub sends every station its word and measures the round trip of one
station, here in 0.1 ps. -/
def execHeartbeatSend (trip : Nat) (s : State) : Host.Outcome State Fault Refusal :=
  let b := s.htNs .sc / 64 * 64
  if !s.die.running || s.die.sync.lastHb == some b then .next s
  else
    let s0 := s.oppDue b
    let s1 := (List.range s.die.stations).foldl (fun t n => t.hbWord b n) s0
    let turn := s.die.sync.turn
    let s2 := if turn < s.die.stations then s1.hbMeasure turn trip else s1
    .next (s2.setSync { s2.die.sync with lastHb := some b, turn := if turn + 1 < s.die.stations then turn + 1 else 0 })

/-- A committed timetable change switches the die (R171): it replaces a pending die-local switch, which is cancelled and counted. -/
def State.oppFromChange (point at_ : Nat) (s : State) : State :=
  match s.die.opp.pending with
  | some w =>
    let s1 := s.oppCancelAll w
    (s1.setOpp { s1.die.opp with replaced := s1.die.opp.replaced + 1 }).oppPend { point := point, at_ := at_, tt := true }
  | none => s.oppPend { point := point, at_ := at_, tt := true }

/-- OPP_EVALUATE (R170, R392): at a power report or a change of OPP_REQ P1 chooses a point; a changed choice becomes a die-local
switch at the first 64 ns boundary at least 8,192 ns ahead. In the guard no switch goes to a higher index. -/
def execOppEvaluate (temp : Int) (droop req : Nat) (reqValid : Bool) (s : State) : Host.Outcome State Fault Refusal :=
  let s1 := (s.put .sc Rg.SPIN_OPP_REQ req).putFlag .sc Rg.SPIN_OPP_REQ_VALID reqValid
  if !s1.roleUp .sc 1 || s1.get .sc Rg.START_STAGE < 2 then .next s1
  else match s1.choosePoint temp droop with
    | none => .next s1
    | some i =>
      let cur := s1.get .sc Rg.OPS_CURRENT
      let at_ := ceilDiv (s1.htNs .sc + 8192) 64 * 64
      if i = cur || (s1.inGuard .sc && decide (cur < i)) || !s1.oppLocalOk at_ then .next s1
      else .next (s1.oppPend { point := i, at_ := at_, tt := false })

/-- OPP_SWITCH (R171, R177, R392). -/
def execOppSwitch (m : MbGo) (s : State) : Host.Outcome State Fault Refusal :=
  .next (s.mailbox m 0x11 (scOnly m.part 1) [1, 8] none fun a t =>
    let p := a.getD 0 0
    let at_ := a.getD 1 0
    if at_ % 64 != 0 || !t.pointValid p then (.badArg, t)
    else if !t.oppLocalOk at_ || (t.inGuard .sc && decide (t.get .sc Rg.OPS_CURRENT < p)) then (.refuse, t)
    else (.ok [], t.oppPend { point := p, at_ := at_, tt := false }))

/-- OPP_CANCEL (R177). -/
def execOppCancel (m : MbGo) (s : State) : Host.Outcome State Fault Refusal :=
  .next (s.mailbox m 0x12 (scOnly m.part 1) [] none fun _ t =>
    match t.die.opp.pending with
    | some w => if !w.tt && decide (t.htNs .sc + 1024 ≤ w.at_) then (.ok [], (t.oppCancelAll w).oppClear) else (.refuse, t)
    | none => (.refuse, t))

/-- STATION_READ (R177). -/
def execStationRead (m : MbGo) (s : State) : Host.Outcome State Fault Refusal :=
  .next (s.mailbox m 0x13 (scOnly m.part 1) [1] none fun a t =>
    let n := a.getD 0 0
    if t.die.stations ≤ n then (.badArg, t)
    else
      let x := t.stn n
      (.ok [(8, x.debtSum), (2, x.delay), (4, x.orderLate), (4, x.strobeLost), (4, x.strobeClr)], t))

/-- OPP_READY_ASSERT (R172): the hub sends the three OPP_ARM copies. -/
def execOppReadyAssert (s : State) : Host.Outcome State Fault Refusal := .next (s.put .sc Rg.SPIN_OPP_READY 1).oppArmAll

/-- OPP_READY_TIMEOUT (R173): OPP_READY is absent at AT − 1,024 ns: a die-local switch is cancelled, a timetable-change switch
proceeds with an alert. -/
def execOppReadyTimeout (s : State) : Host.Outcome State Fault Refusal :=
  match s.die.opp.pending with
  | none => .next s
  | some w =>
    let s := if s.flag .sc Rg.SPIN_OPP_READY then s else s.awaitHt .sc (w.at_ - 1024)
    if s.flag .sc Rg.SPIN_OPP_READY || s.htNs .sc + 1024 < w.at_ then .next s
    else
      let s1 := (s.bump .sc Rg.OPS_OPP_UNREADY).faultLog .sc 0x50 0 w.point
      if w.tt then .next (s1.oppArmAll.faultAlert .sc)
      else .next ((s1.hbQueueAll (.oppArm w.point (w.at_ / 64 % 2 ^ 38) true) 3).oppClear)

/-- All three copies of an OPP_ARM failed at a station (R173): a lost arm counts in OPP_SPLIT, a die-local switch is cancelled and a station that then loses the cancel is noted
until AT; of a switch of the timetable, or one under way, the station is armed again. -/
def State.oppArmLost (n point : Nat) (cancel : Bool) (s : State) : State :=
  if cancel then
    match s.die.opp.split with
    | some (p, at_, missed) => s.setOpp { s.die.opp with split := some (p, at_, setBit missed n) }
    | none => s
  else
    let again := ceilDiv (s.htNs .sc + 1024) 64 * 64
    let s1 := s.bump .sc Rg.OPS_OPP_SPLIT
    match s.die.opp.pending with
    | some w =>
      if w.tt then s1.hbQueue n (.oppArm point (again / 64 % 2 ^ 38) false) 3
      else
        let s2 := (s1.oppCancelAll w).oppClear
        s2.setOpp { s2.die.opp with split := some (w.point, w.at_, 0) }
    | none => s1.hbQueue n (.oppArm point (again / 64 % 2 ^ 38) false) 3

/-- OPP_SEL_DRIVE (R172): from its first edge at or after AT − 16 ns a station drives OPP_SEL. -/
def execOppSelDrive (n : Nat) (edges : List Nat) (s : State) : Host.Outcome State Fault Refusal :=
  if !s.stnLive n then .next s
  else
    let s1 := s.stnEdges n edges
    let x := s1.stn n
    match x.opp with
    | some (p, at_) => .next (if x.reached (at_ - 16) then s1.setStn n { x with sel := p } else s1)
    | none => .next s1

/-- Every station whose region clock runs has pulsed OPP_GO for the pending switch: CURRENT follows. -/
def State.oppSettle (s : State) : State :=
  match s.die.opp.pending with
  | some w =>
    if (List.range s.die.stations).all fun n => bit s.die.opp.went n || (s.stn n).clkLost then ((s.awaitHt .sc w.at_).put .sc Rg.OPS_CURRENT w.point).oppClear
    else s
  | none => s

/-- OPP_GO (R172): at its first edge at or after AT a station pulses OPP_GO; the new period holds from the edge after, rate_trim := 0. -/
def execOppGo (n : Nat) (edges : List Nat) (s : State) : Host.Outcome State Fault Refusal :=
  if !s.stnLive n then .next s
  else
    let s1 := s.stnEdges n edges
    let x := s1.stn n
    match x.opp with
    | some (p, at_) =>
      if x.reached at_ then
        let s2 := s1.setStn n { x with sel := p, point := p, opp := none, rateTrim := 0, goPulses := x.goPulses + 1 }
        .next (s2.setOpp { s2.die.opp with went := setBit s2.die.opp.went n }).oppSettle
      else .next s1
    | none => .next s1

/-! The heartbeat at a station (R155, R156). -/

/-- The value nearest a reference whose low `w` bits are given (R49, R151, R195). -/
def nearest (w low ref : Nat) : Nat :=
  let v := (ref : Int) + sdiff w low (ref % 2 ^ w)
  if v < 0 then low % 2 ^ w else v.toNat

/-- A heartbeat's message taken by a station (R151, R152): of a repeated message the first copy that passes. -/
def State.hbMessage (n : Nat) (s : State) : State :=
  let x := s.stn n
  let w := x.word
  let fresh := w.copy = 0 || !x.armTaken
  match w.msg with
  | .none => s
  | .time b => s.setStn n { x with lastBeat := some b }
  | .timeTop t => s.setStn n { x with lastTop := some t }
  | .delay d => s.setStn n { x with delay := d }
  | .control m => s.setStn n { x with dead := m }
  | .strobeArm k t => if fresh then (s.setStn n { x with armTaken := true }).arm n k (nearest 38 t (x.rt / nsLsb / 64) * 64) else s
  | .oppArm p t c =>
    if fresh then s.setStn n { x with armTaken := true, opp := if c then none else some (p, nearest 38 t (x.rt / nsLsb / 64) * 64) } else s

/-- A heartbeat whose HB_CRC fails (R152): MSG is discarded and counted. -/
def State.hbCrcFail (n : Nat) (s : State) : State := (s.bump .sc (Rg.STN_HB_CRC_ERR n)).copyLost n (s.stn n).word

/-- The hub learns of a lost arm (R152, R173): it resends a strobe whose target lies at least 128 ns ahead, and otherwise counts and records it. -/
def State.armLostAtHub (n : Nat) (m : HbMsg) (s : State) : State :=
  match m with
  | .strobeArm _ t =>
    let ht := nearest 38 t (s.htNs .sc / 64) * 64
    if s.htNs .sc + 128 ≤ ht then s.hbQueue n m 3
    else (s.setStn n { (s.stn n) with strobeLost := (s.stn n).strobeLost + 1 }).dieRecordAt
      { kind := 0x11, obj := n, arg := 65536 * (Config.eventCode 0x11 5 % 8), hallwide := true } (s.ht32 .sc)
  | .oppArm p _ c => s.oppArmLost n p c
  | _ => s

/-- The boundary a heartbeat names, in HT ns (R156): from region time while it is reliable, otherwise from HB_IDX and the last TIME
and TIME_TOP. -/
def Station.boundary (phi : Nat) (unrel : Bool) (x : Station) : Option Nat :=
  if x.valid && !unrel then
    let arr := x.rt + phi - x.delayLsb
    some ((arr + 32 * nsLsb) / (64 * nsLsb) * 64)
  else match x.lastBeat, x.lastTop with
    | some b, some t => some (t * 2 ^ 54 + b * 1024 + x.word.idx * 64)
    | _, _ => none

/-- An accepted heartbeat corrects region time and is counted (R155, R156, R159). -/
def State.hbAccept (n hb phi : Nat) (s : State) : State :=
  let x := s.stn n
  let unrel := s.flag .sc (Rg.STN_RT_UNREL n)
  let eps : Int := ((x.rt + phi : Nat) : Int) - ((hb * nsLsb + x.delayLsb : Nat) : Int)
  let y :=
    if !x.valid then x.reload hb phi
    else if x.clkLost then { (x.reload hb phi) with rt := max x.rt (hb * nsLsb + x.delayLsb - phi) }
    else x.correct (s.period n) eps
  let s1 := if x.valid && decide (100 * 65536 < eps.natAbs * 1000) then s.bump .sc (Rg.STN_HB_ERR n) else s
  let good := if decide (eps.natAbs * 1000 ≤ 50 * 65536) then x.goodRun + 1 else 0
  let s2 := s1.setStn n { y with missRun := 0, clkLost := false, goodRun := good,
                                 restoreHt := if x.restoreHt.isNone && x.lossHt.isSome then some hb else x.restoreHt }
  let s3 := if x.clkLost then (s2.hbControl n).settle else s2
  if unrel && decide (16 ≤ good) then s3.stnRecover n else s3

end Sys2Proof.Machine
end

