-- ==== Sys2Proof/Machine/Queues.lean ====
section
/-! DEFINITION. Sync queues and barrier slots of the die (R178 to R212): queue entries and releases, arrivals, waits and completions,
handles and the free lists, the words of PACKAGE and HALL slots, host waits, the monitor. -/

namespace Sys2Proof.Machine

open Sys2Proof

/-! Contexts and jobs (R202). -/

/-- The job a context is bound to. -/
def State.ctxJob (c : Nat) (s : State) : Option Nat := if s.flag .sc (Rg.CTX_JOB_VALID c) then some (s.get .sc (Rg.CTX_JOB c)) else none

/-- The hall context of a job on this die (R26). -/
def State.hallCtx (j : Nat) (s : State) : Option Nat := (List.range 64).find? fun c => s.ctxJob c == some j

/-- The queues bound to a context. -/
def State.boundQueues (c : Nat) (s : State) : List Nat :=
  (List.range s.die.queues).filter fun q => s.flag .sc (Rg.Q_BOUND q) && s.get .sc (Rg.Q_CTX q) == c

/-- A record about a context's barrier: its job, or HALLWIDE for an unbound context. -/
def State.ctxRecord (c : Nat) (x : Rec) (s : State) : State :=
  s.record .sc { x with job := (s.ctxJob c).getD 0, hallwide := (s.ctxJob c).isNone }

/-! Queues. -/

/-- A queue's own state. -/
def State.queue (q : Nat) (s : State) : SQueue := SMap.get {} q s.die.sync.queues

/-- The entry that executes or stalls: the first that has not passed the head (R181). -/
def SQueue.head (x : SQueue) : Option QEntry := x.entries.find? fun e => e.phase != .passed

/-- An entry's OPCODE. -/
def QEntry.op (e : QEntry) : Nat := e.cmd / 2 ^ 60 % 16

/-- A 64-bit map held in two 32-bit fields. -/
def State.get64 (lo hi : Field) (s : State) : Nat := s.get .sc lo + 2 ^ 32 * s.get .sc hi

/-- A 64-bit map written to two 32-bit fields. -/
def State.put64 (lo hi : Field) (v : Nat) (s : State) : State := (s.put .sc lo v).put .sc hi (v / 2 ^ 32)

/-- A word sent upward by the die. -/
def State.dieUp (w : CtlWord) (s : State) : State := s.sendUp .sc w

/-- A MONITOR word (R212). -/
def State.sendMonitor (c : Nat) (dead : Bool) (s : State) : State :=
  match s.ctxJob c with
  | some j => s.dieUp { job := j, body := .monitor c (s.get .sc Rg.SROLL_ROLL) (s.ht32 .sc) dead }
  | none => s

/-- The monitor's state of a context (R211). -/
def State.mon (c : Nat) (s : State) : MonCtx := SMap.get {} c s.die.sync.mon

/-- The state with the monitor's state of a context replaced. -/
def State.setMon (c : Nat) (m : MonCtx) (s : State) : State := s.setSync { s.die.sync with mon := SMap.set c m s.die.sync.mon }

/-- A release or an applied arrival ends a declared deadlock (R212). -/
def State.monEnd (c : Nat) (s : State) : State :=
  let d := s.get64 Rg.MON_DEADLOCK_LO Rg.MON_DEADLOCK_HI
  if bit d c then (s.put64 Rg.MON_DEADLOCK_LO Rg.MON_DEADLOCK_HI (clearBit d c)).sendMonitor c false else s

/-- An arrival is applied to a slot of a context (R211). -/
def State.monArrival (c : Nat) (s : State) : State := (s.setMon c { s.mon c with lastArr := some (s.htNs .sc) }).monEnd c

/-- Every bound queue of a context has its head stalled on a command that R211 names. -/
def State.allStalled (c : Nat) (s : State) : Bool :=
  let qs := s.boundQueues c
  !qs.isEmpty && qs.all fun q => match (s.queue q).head with
    | some e => e.phase == .stalled && [2, 3, 4, 7, 8].contains e.op
    | none => false

/-- The instant since which every head is stalled is kept up to date. -/
def State.monStall (c : Nat) (s : State) : State :=
  let m := s.mon c
  if s.allStalled c then (match m.stalled with
    | some _ => s
    | none => s.setMon c { m with stalled := some (s.htNs .sc) })
  else if m.stalled.isSome then s.setMon c { m with stalled := none } else s

/-- The state with a queue replaced: LEVEL, WAITING, HEAD_OP and HEAD_CMD follow, and with them the ladder's hold (R387) and the
monitor (R211). -/
def State.setQueue (q : Nat) (x : SQueue) (s : State) : State :=
  let before := s.anyWaiting
  let s1 := s.setSync { s.die.sync with queues := SMap.set q x s.die.sync.queues }
  let cmd := match x.head with
    | some e => e.cmd
    | none => 0
  let waiting := match x.head with
    | some e => e.phase == .stalled
    | none => false
  let s2 := (((s1.put .sc (Rg.Q_LEVEL q) x.entries.length).putFlag .sc (Rg.Q_WAITING q) waiting).put .sc (Rg.Q_HEAD_OP q) (cmd / 2 ^ 60)).put .sc
    (Rg.Q_HEAD_CMD_LO q) cmd
  let s3 := s2.put .sc (Rg.Q_HEAD_CMD_HI q) (cmd / 2 ^ 32)
  let s4 := if !before && s3.anyWaiting then s3.holdLadder else if before && !s3.anyWaiting then s3.unholdLadder else s3
  s4.monStall (s.get .sc (Rg.Q_CTX q))

/-- The leading entries whose outcome is known leave the queue as releases (R179). -/
def popDone : List QEntry → List (Nat × Nat × Nat) × List QEntry
  | [] => ([], [])
  | e :: t => match e.out with
    | some (st, fl) => let r := popDone t; ((e.tag, st, fl) :: r.1, r.2)
    | none => ([], e :: t)

/-- An entry is changed. -/
def SQueue.modTag (tag : Nat) (f : QEntry → QEntry) (x : SQueue) : SQueue :=
  { x with entries := x.entries.map fun e => if e.tag = tag then f e else e }

/-- The attendance RELEASE record of a wait (R296). -/
def State.recordRelease (q : Nat) (e : QEntry) (status : Nat) (s : State) : State :=
  if e.op = 2 || e.op = 3 then
    s.ctxRecord (s.get .sc (Rg.Q_CTX q)) { kind := 0x02, obj := bits e.cmd 48 12, arg := q + 256 * status, epoch := bits e.cmd 32 16 }
  else s

/-- An entry's outcome is known (R182): it is released as soon as every entry before it has been. -/
def State.qResolve (q tag status flags : Nat) (s : State) : State :=
  let x := s.queue q
  match x.entries.find? fun e => e.tag == tag && e.out.isNone with
  | none => s
  | some e =>
    let fl := flags + ofBool e.unfenced
    let y := x.modTag tag fun k => { k with out := some (status, fl), phase := .passed }
    let r := popDone y.entries
    let s1 := (s.recordRelease q e status).setQueue q { y with entries := r.2, rels := r.1.reverse ++ x.rels }
    if r.1.isEmpty then s1 else s1.monEnd (s.get .sc (Rg.Q_CTX q))

/-- An outcome that counts as misuse or sets a sticky bit (R182, R190). -/
def State.qMisuse (q status : Nat) (s : State) : State :=
  let s1 := if status = 2 || status = 3 || status = 5 || status = 6 then s.bump .sc (Rg.Q_MISUSE q) else s
  if status = 2 then s1.put .sc (Rg.Q_DUP_SEEN q) 1
  else if status = 3 then s1.put .sc (Rg.Q_OVERRUN_SEEN q) 1
  else if status = 4 then s1.put .sc (Rg.Q_STALE_SEEN q) 1
  else s1

/-! Descriptors in flight (R251, R259). -/

/-- The state with the payload engine's state replaced; IN_FLIGHT follows. -/
def State.setPay (x : PaySt) (s : State) : State :=
  (s.setDie { s.die with pay := x }).put .sc Rg.SPAY_IN_FLIGHT x.descs.length

/-- A payload interrupt bit sets (R280): 0 SRC_FAULT, 1 RESULT_LOST, 2 CHK_MISMATCH, 3 CHK_DONE. -/
def State.payInt (i : Nat) (s : State) : State := s.put .sc Rg.SPAY_INT (setBit (s.get .sc Rg.SPAY_INT) i)

/-- The 32-byte status record (R259). -/
def State.statusBytes (d : Desc) (rstatus seq : Nat) (r : Summary) (doneFlags : Nat) (s : State) : List Byte :=
  leBytes 4 seq ++ leBytes 3 r.contrib ++ leBytes 1 r.pflags ++ leBytes 4 r.hash ++ leBytes 2 d.epoch
    ++ leBytes 1 (rstatus + 16 * ofBool d.srcFault + 32 * ofBool d.suppressed) ++ leBytes 1 doneFlags ++ leBytes 8 r.residue ++ leBytes 3 d.bucket
    ++ leBytes 1 d.job ++ leBytes 4 (s.ht32 .sc)

/-- A descriptor ends (R259): its status record is written where the descriptor was read and its STATUS address is aligned, and it leaves
flight. -/
def State.endDesc (d : Desc) (rstatus seq : Nat) (r : Summary) (doneFlags : Nat) (s : State) : State :=
  let s1 := if d.reading || !d.statusOk then s else s.dmaWrite .sc d.status (s.statusBytes d rstatus seq r doneFlags)
  s1.setPay { s1.die.pay with descs := s1.die.pay.descs.filter fun e => e.idx != d.idx }

/-- A result is lost: LOST_CNT and IRQ_PAY (R258, R264). -/
def State.countLost (s : State) : State := (s.bump .sc Rg.SPAY_LOST_CNT).payInt 1

/-! Slots. -/

/-- A slot by reference. -/
def State.slotAt (r : SlotRef) (s : State) : Slot :=
  match r with
  | .hub i => SMap.get {} i s.die.sync.slots
  | .region n k => SMap.get {} k (s.stn n).slots

/-- The state with a slot replaced. -/
def State.setSlotAt (r : SlotRef) (v : Slot) (s : State) : State :=
  match r with
  | .hub i => s.setSync { s.die.sync with slots := SMap.set i v s.die.sync.slots }
  | .region n k => s.setStn n { (s.stn n) with slots := SMap.set k v (s.stn n).slots }

/-- COMPLETED. -/
def Slot.completed (v : Slot) : Nat := (v.e + 65535) % 65536

/-- The target epoch of an arrival (R189). -/
def Slot.target (p : Nat) (auto : Bool) (epoch : Nat) (v : Slot) : Nat :=
  if !auto then epoch
  else if !bit v.arr p then v.e
  else if !bit v.early p then (v.e + 1) % 65536
  else (v.e + 2) % 65536

/-- An arrival not counted, its misuse counted (R182). -/
def Slot.misused (v : Slot) : Slot := { v with misuse := sat 16 (v.misuse + 1) }

/-- LAST_SIG (R185): the participant with the HT32 of its arrival. Of two queues that arrive at one edge of a REGION slot the later in the order is the one with the higher index
(R193). -/
def Slot.signed (kind idx stamp : Nat) (v : Slot) : Slot :=
  if v.scope = 0 && v.sigStamp == stamp && decide (idx < v.sigIdx) then v
  else { v with sigKind := kind, sigIdx := idx, sigHt32 := stamp / 65536 % 2 ^ 32, sigStamp := stamp }

/-- An arrival of participant `p` for epoch `t`, issued at a 48-bit stamp (R190): the status and the slot. -/
def Slot.apply (p t kind idx stamp : Nat) (v : Slot) : Nat × Slot :=
  if v.state = .stale || !v.local_ then (4, v)
  else if !bit v.part p then (6, v)
  else
    let d := sdiff16 t v.e
    if d = -1 && bit v.missing p then (4, { v with missing := clearBit v.missing p })
    else if d < 0 then (2, v.misused)
    else if d = 0 then
      if bit v.arr p then (2, v.misused)
      else (0, { v with arr := setBit v.arr p }.signed kind idx stamp)
    else if d = 1 then
      if bit v.early p then (2, v.misused)
      else if bit v.arr p then (0, { v with early := setBit v.early p })
      else (3, v.misused)
    else (3, v.misused)

/-- The same rules at the lead die, with the die as participant and DIE_MASK as PART_MAP (R198). -/
def Slot.applyDie (d t idx ht32 : Nat) (v : Slot) : Nat × Slot :=
  let k := sdiff16 t v.e
  if k < 0 then (2, v.misused)
  else if k = 0 then
    if bit v.dieArr d then (2, v.misused) else (0, { v with dieArr := setBit v.dieArr d, sigKind := 2, sigIdx := idx, sigHt32 := ht32 })
  else if k = 1 then
    if bit v.dieEarly d then (2, v.misused)
    else if bit v.dieArr d then (0, { v with dieEarly := setBit v.dieEarly d })
    else (3, v.misused)
  else (3, v.misused)

/-- A wait by epoch (R192): released with a status at once, or stalled. -/
def Slot.waitFor (w : Nat) (v : Slot) : Option Nat :=
  if v.state = .stale || !v.local_ then some 4
  else
    let d := sdiff16 w v.completed
    if d ≤ 0 then some 0 else if d ≤ 2 then none else some 3

/-! Releases of waiters. -/

/-- A queue's stalled head is released: at a region slot by its station, at a hub slot by a release sent to the station (R201). -/
def State.relQueue (r : SlotRef) (q status : Nat) (s : State) : State :=
  match (s.queue q).head with
  | none => s
  | some e =>
    match r with
    | .region _ _ => s.qResolve q e.tag status 0
    | .hub _ => s.setSync { s.die.sync with rels := s.die.sync.rels ++ [{ q := q, tag := e.tag, bindGen := s.get .sc (Rg.Q_BIND_GEN q), status := status }] }

/-- A host-wait entry ends (R208). -/
def State.hostWaitEnd (en status epoch : Nat) (s : State) : State :=
  let s1 := ((s.put .sc (Rg.HST_WS_STATUS en) status).put .sc (Rg.HST_WS_EPOCH en) epoch).put .sc (Rg.HST_WS_VALID en) 1
  (s1.put .sc Rg.HST_W_DONE (setBit (s.get .sc Rg.HST_W_DONE) en)).put .sc Rg.HST_W_ARMED (clearBit (s.get .sc Rg.HST_W_ARMED) en)

/-- Waiters of a slot are released with a status: those for which `f` holds of the epoch waited for. -/
def State.relWaiters (r : SlotRef) (status : Nat) (f : Nat → Bool) (s : State) : State :=
  let v := s.slotAt r
  let s0 := s.setSlotAt r { v with waits := v.waits.filter fun e => !f e.2, hostWaits := v.hostWaits.filter fun e => !f e.2 }
  let s1 := (v.waits.filter fun e => f e.2).foldl (fun t e => t.relQueue r e.1 status) s0
  (v.hostWaits.filter fun e => f e.2).foldl (fun t e => t.hostWaitEnd e.1 status e.2) s1

/-! Package and hall words. -/

/-- This die is the lead of its package. -/
def State.isLead (s : State) : Bool := s.die.pkgIndex == 0

/-- A word to another die of the package, by its package port position on the lead die. -/
def State.toDie (d : Nat) (w : CtlWord) (s : State) : State := s.sendWord .sc (8 + d) w

/-- The dies of a mask other than the lead. -/
def otherDies (mask : Nat) : List Nat := (setBits 8 mask).filter (· != 0)

/-- The word of a slot: package words are HALLWIDE with JOB 0 (R197). -/
def Slot.word (v : Slot) (b : CtlBody) : CtlWord := if v.scope = 2 then { job := 0, hallwide := true, body := b } else { job := v.job, body := b }

/-- The roll number of a die of this package. -/
def State.dieRoll (d : Nat) (s : State) : Nat := s.get .sc Rg.SROLL_ROLL / 8 * 8 + d

/-- A partial applied at a die's slot (R255, R256): one whose fixed fields differ from the epoch's first element partial is not combined,
its die's `h` goes into the paddock and DROPPED sets. Answers whether it differed. -/
def Slot.addPartial (h : Nat) (b : Body) (v : Slot) : Slot × Bool :=
  if b.isElem && v.acc.isElem && !v.acc.sum.sameFields b.sum then ({ v with acc := v.acc.combine (summaryOnly 0 h pfDropped) }, true)
  else ({ v with acc := v.acc.combine b }, false)

/-- The same with the mismatch counted (R255). -/
def State.partialAt (r : SlotRef) (d : Nat) (b : Body) (s : State) : State :=
  let o := (s.slotAt r).addPartial (rollHash (s.dieRoll d)) b
  let s1 := s.setSlotAt r (if d = s.die.pkgIndex then { o.1 with hasAcc := true } else o.1)
  if o.2 then s1.bump .sc Rg.SPAY_DESC_MISMATCH else s1

/-- What the slot's arrival carries (R254 to R256): at the lead die the package's partial where a die contributed, a summary-only partial
where something was dropped; at another die its own. -/
def State.outBody (v : Slot) (s : State) : Option Body :=
  if s.isLead then
    if v.acc.isElem then some v.acc
    else if bit v.acc.sum.pflags 5 then some (summaryOnly v.acc.sum.contrib v.acc.sum.hash v.acc.sum.pflags) else none
  else if v.hasAcc then some v.acc else none

/-- The slot's one arrival outward (R198, R199); a payload slot sends its partial with it (R255, R256). -/
def State.slotSend (r : SlotRef) (s : State) : State :=
  let v := s.slotAt r
  let s1 := s.setSlotAt r { v with state := .sent }
  if v.scope = 2 then s1.dieUp (v.word (.arrive v.name v.gen v.e (s.get .sc Rg.SROLL_ROLL) (s.ht32 .sc) false 0))
  else s1.sendArrive .sc (s.upPorts .sc) v.job v.name v.gen v.e (s.get .sc Rg.SROLL_ROLL) (s.ht32 .sc) (s.outBody v)

/-- Epoch E of a slot completes (R191): waiters are released, early arrivals and the partials held for them are promoted (R253). -/
def State.completeSlot (r : SlotRef) (missing : Nat) (s : State) : State :=
  let v := s.slotAt r
  let done := v.e
  let v1 := { v with e := (v.e + 1) % 65536, arr := v.early, early := 0, dieArr := v.dieEarly, dieEarly := 0, state := .counting,
                     missing := missing, retried := 0, acc := {}, hasAcc := false, earlyAcc := [] }
  let s1 := v.earlyAcc.foldl (fun t e => t.partialAt r e.1 e.2) (s.setSlotAt r v1)
  let s2 := if v.scope = 3 then s1.freePartials .sc (s1.upPorts .sc) v.job v.name done else s1
  s2.relWaiters r 0 fun w => decide (sdiff16 w done ≤ 0)

/-- DIE_ARR equals DIE_MASK at the lead die (R198, R199): a PACKAGE slot completes with a DONE to the other dies, a HALL slot sends
one ARRIVE up. -/
def State.dieCheck (r : SlotRef) (s : State) : Bool × State :=
  let v := s.slotAt r
  if !s.isLead || v.scope < 2 || v.state != .counting || v.dieMask = 0 || v.dieArr != v.dieMask then (false, s)
  else if v.scope = 2 then
    let w := v.word (.done v.name v.gen v.e 0 0 0)
    (true, ((otherDies v.dieMask).foldl (fun t d => t.toDie d w) s).completeSlot r 0)
  else (false, s.slotSend r)

/-- A REGION slot's completed count is an event toward the hub (R167). -/
def State.regionDone (r : SlotRef) (s : State) : State :=
  match r with
  | .region n _ => s.postEvent n (.regionDone (s.slotAt r).ctx)
  | .hub _ => s

/-- The completion check of a slot (R191), run again while promoted arrivals already reach the count. -/
def State.slotCheck (r : SlotRef) : Nat → State → State
  | 0, s => s
  | k + 1, s =>
    let v := s.slotAt r
    if v.state != .counting then s
    else
      let full := v.local_ && v.headcount != 0 && popCount 129 v.arr == v.headcount
      if v.scope < 2 then (if full then ((s.completeSlot r 0).regionDone r).slotCheck r k else s)
      else if s.isLead then
        let s1 := if full && !bit v.dieArr 0 then
            let s0 := s.setSlotAt r { v with dieArr := setBit v.dieArr 0 }
            if v.scope = 3 && !v.hasAcc then s0.partialAt r 0 (summaryOnly 0 (rollHash (s.dieRoll 0)) 0) else s0
          else s
        let c := s1.dieCheck r
        if c.1 then c.2.slotCheck r k else c.2
      else if full then s.slotSend r
      else s

/-- The completion check with as many rounds as early arrivals can cause. -/
def State.slotTest (r : SlotRef) (s : State) : State := s.slotCheck r 3

/-! Arrivals and waits of participants. -/

/-- An arrival is applied to a slot and recorded; it may complete the epoch (R190, R191). A payload arrival brings its partial, which is combined
or held with the early bit (R253, R255). Answers the status and the target. -/
def State.arriveAt (r : SlotRef) (p kind idx stamp epoch : Nat) (auto : Bool) (s : State) (body : Option Body := none) : Nat × Nat × State :=
  let v := s.slotAt r
  let t := v.target p auto epoch
  let o := v.apply p t kind idx stamp
  let s0 := s.setSlotAt r o.2
  let s1 := match body with
    | none => s0
    | some b =>
      if o.1 != 0 then s0
      else if t = v.e then s0.partialAt r s.die.pkgIndex b
      else s0.setSlotAt r { o.2 with earlyAcc := o.2.earlyAcc ++ [(s.die.pkgIndex, b)] }
  let s2 := s1.ctxRecord v.ctx { kind := 0x01, obj := v.handle, arg := idx % 128 + 256 * o.1, epoch := t }
  let s3 := if o.1 = 2 || o.1 = 3 then s2.ctxRecord v.ctx { kind := 0x09, obj := v.handle, arg := o.1, epoch := t } else s2
  let s4 := if o.1 = 0 then s3.monArrival v.ctx else s3
  (o.1, t, s4.slotTest r)

/-- A queue's counted or held arrival is remembered (R189). -/
def State.qLast (q h t : Nat) (s : State) : State := s.setQueue q { (s.queue q) with last := some (h, t) }

/-- A wait that ends with OVERRUN counts in the slot's misuse too (R182). -/
def State.waitMisuse (r : SlotRef) (status : Nat) (s : State) : State := if status = 3 then s.setSlotAt r (s.slotAt r).misused else s

/-- A queue waits for an epoch of a slot (R192): answered at once, or stalled in WAIT_MAP. -/
def State.waitAt (r : SlotRef) (q tag w : Nat) (s : State) : State :=
  match (s.slotAt r).waitFor w with
  | some st =>
    let s1 := (s.waitMisuse r st).qMisuse q st
    match r with
    | .region _ _ => s1.qResolve q tag st 0
    | .hub _ => s1.setSync { s1.die.sync with rels := s1.die.sync.rels ++ [{ q := q, tag := tag, bindGen := s.get .sc (Rg.Q_BIND_GEN q), status := st }] }
  | none =>
    let v := s.slotAt r
    s.setSlotAt r { v with waits := SMap.set q w v.waits }

/-- An outcome known at a region slot goes to the head at once, at the hub it travels to the station. -/
def State.answer (local_ : Bool) (q tag status : Nat) (s : State) : State :=
  let s1 := s.qMisuse q status
  if local_ then s1.qResolve q tag status 0
  else s1.setSync { s1.die.sync with rels := s1.die.sync.rels ++ [{ q := q, tag := tag, bindGen := s.get .sc (Rg.Q_BIND_GEN q), status := status }] }

/-- A command on a handle, issued at a 48-bit stamp, is carried out at its slot (R182, R183, R190, R192): `op` 1 ARRIVE, 2 WAIT, 3 ARRIVE_WAIT. -/
def State.barrierOp (r : Option SlotRef) (local_ : Bool) (q tag stamp cmd : Nat) (s : State) : State :=
  let h := bits cmd 48 12
  let epoch := bits cmd 32 16
  let auto := bit cmd 31
  let op := bits cmd 60 4
  match r with
  | none => s.answer local_ q tag 5
  | some ref =>
    if op = 2 then
      if auto then (match (s.queue q).last with
        | some (lh, le) => if lh = h then s.waitAt ref q tag le else s.answer local_ q tag 8
        | none => s.answer local_ q tag 8)
      else s.waitAt ref q tag epoch
    else
      let o := s.arriveAt ref q 0 q stamp epoch auto
      if o.1 != 0 then o.2.2.answer local_ q tag o.1
      else
        let s1 := o.2.2.qLast q h o.2.1
        if op = 1 then s1.answer local_ q tag 0 else s1.waitAt ref q tag o.2.1

/-! Handles and free lists (R187). -/

/-- The slot a context's handle names. -/
def State.handle (c h : Nat) (s : State) : Option SlotRef := SMap.find (c * 4096 + h) s.die.sync.handles

/-- The slot that a queue's handle names for its station: a REGION slot of another station is no translation (R182). -/
def State.queueSlot (q h : Nat) (s : State) : Option SlotRef :=
  match s.handle (s.get .sc (Rg.Q_CTX q)) h with
  | some (.region n k) => if n = s.get .sc (Rg.Q_STATION q) then some (.region n k) else none
  | r => r

/-- The lowest index from `i` up that has never been allocated. -/
def firstFresh (used : SMap Slot) : Nat → Nat → Option Nat
  | 0, _ => none
  | k + 1, i => match SMap.find i used with
    | none => some i
    | some _ => firstFresh used k (i + 1)

/-- A slot from the head of a free list (R187): an index, or BUSY 1 while every free slot is inside its 4 µs wait, REFUSED 2 when
none is free. -/
def allocSlot (used : SMap Slot) (freed : List (Nat × Nat)) (size now : Nat) : Nat ⊕ Nat :=
  match firstFresh used size 0 with
  | some i => .inl i
  | none => match freed with
    | [] => .inr 2
    | (i, t) :: _ => if t + 4000 ≤ now then .inl i else .inr 1

/-- A slot is freed: its handle is invalidated, it goes to the tail of its free list. -/
def State.freeSlot (r : SlotRef) (s : State) : State :=
  let v := s.slotAt r
  let s1 := s.setSlotAt r { state := .free, gen := v.gen }
  let y := s1.die.sync
  let s2 := s1.setSync { y with handles := SMap.erase (v.ctx * 4096 + v.handle) y.handles }
  let s3 := match r with
    | .hub i => s2.setSync { s2.die.sync with freed := s2.die.sync.freed ++ [(i, s.now)] }
    | .region n k => s2.setStn n { (s2.stn n) with freed := (s2.stn n).freed ++ [(k, s.now)] }
  let used := s.get .sc (Rg.CTX_HANDLES_USED v.ctx) - 1
  (s3.put .sc (Rg.CTX_HANDLES_USED v.ctx) used).putFlag .sc (Rg.CTX_OVER_QUOTA v.ctx) (decide (s.get .sc (Rg.CTX_HANDLE_QUOTA v.ctx) < used))

/-- What a create asks for. -/
structure CreateArgs where
  ctx : Nat
  handle : Nat
  scope : Nat
  headcount : Nat
  part : Nat
  station : Nat := 0
  name : Nat := 0
  gen : Nat := 0
  dieMask : Option Nat := none
  deriving DecidableEq, Repr

/-- R186: whether HEADCOUNT, PART_MAP and DIE_MASK are well formed. -/
def State.createOk (a : CreateArgs) (s : State) : Bool :=
  let qs := setBits 128 a.part
  let bound := qs.all fun q => decide (q < s.die.queues) && s.flag .sc (Rg.Q_BOUND q) && s.get .sc (Rg.Q_CTX q) == a.ctx
  let mask := a.dieMask.getD 0
  decide (a.ctx < 64) && decide (a.handle < 4096) && decide (a.scope < 4) && popCount 129 a.part == a.headcount && bound
    && (a.scope == 1 || !bit a.part 128)
    && (if a.scope = 0 then decide (a.station < s.die.stations) && qs.all (fun q => s.get .sc (Rg.Q_STATION q) == a.station) && a.headcount != 0
        else if a.scope = 1 then a.headcount != 0
        else if s.isLead then
          a.dieMask.isSome && mask != 0 && bit mask 0 == (a.headcount != 0)
            && (otherDies mask).all (fun d => decide (d < s.die.pkgDies)) && decide (mask < 256)
        else mask == 0 && a.headcount != 0)

/-- A slot is created under a handle (R186, R187, R215): a mailbox status (0 OK), the physical index and GEN. -/
def State.createSlot (a : CreateArgs) (s : State) : Nat × Nat × Nat × State :=
  if a.scope = 2 && !s.die.pkgPort then (4, 0, 0, s)
  else if !s.createOk a then (3, 0, 0, s)
  else if 2 ≤ a.scope && s.get .sc Rg.START_STAGE < 2 then (1, 0, 0, s)
  else if a.scope = 3 && (s.ctxJob a.ctx).isNone then (2, 0, 0, s)
  else if (s.handle a.ctx a.handle).isSome then (2, 0, 0, s)
  else if s.get .sc (Rg.CTX_HANDLE_QUOTA a.ctx) ≤ s.get .sc (Rg.CTX_HANDLES_USED a.ctx) then (5, 0, 0, s)
  else
    let y := s.die.sync
    let pick : Nat ⊕ Nat :=
      if a.scope = 0 then allocSlot (s.stn a.station).slots (s.stn a.station).freed 64 s.now
      else if a.scope = 2 then
        (match SMap.find a.name y.slots with
          | none => if a.name < 16384 then .inl a.name else .inr 3
          | some v => if v.state != .free then .inr 2
            else match y.freed.find? fun e => e.1 == a.name with
              | some (_, t) => if t + 4000 ≤ s.now then .inl a.name else .inr 1
              | none => .inl a.name)
      else allocSlot y.slots y.freed 16384 s.now
    match pick with
    | .inr st => (st, 0, 0, s)
    | .inl i =>
      let r := if a.scope = 0 then SlotRef.region a.station i else SlotRef.hub i
      let old := s.slotAt r
      let gen := if a.scope < 2 then (old.gen + 1) % 256 else a.gen % 256
      let v : Slot := { state := .counting, scope := a.scope, headcount := a.headcount, part := a.part, gen := gen, name := a.name, dieMask := a.dieMask.getD 0,
                        ctx := a.ctx, handle := a.handle, job := (s.ctxJob a.ctx).getD 0 }
      let s1 := s.setSlotAt r v
      let s2 := match r with
        | .hub k => s1.setSync { s1.die.sync with freed := s1.die.sync.freed.filter fun e => e.1 != k }
        | .region n k => s1.setStn n { (s1.stn n) with freed := (s1.stn n).freed.filter fun e => e.1 != k }
      let s3 := s2.setSync { s2.die.sync with handles := SMap.set (a.ctx * 4096 + a.handle) r s2.die.sync.handles }
      (0, i, gen, s3.put .sc (Rg.CTX_HANDLES_USED a.ctx) (s.get .sc (Rg.CTX_HANDLES_USED a.ctx) + 1))

/-- The participation of a PACKAGE or HALL slot is withdrawn (R203, steps 3 and 4). -/
def State.withdrawSlot (r : SlotRef) (s : State) : State :=
  let v := s.slotAt r
  if v.scope < 2 || (v.scope = 3 && v.state = .stale) then s
  else
    let w := v.word (.withdraw v.name v.gen v.e (s.get .sc Rg.SROLL_ROLL) (s.ht32 .sc))
    let s1 := if v.scope = 2 && s.isLead then s else s.dieUp w
    if s.isLead then (otherDies v.dieMask).foldl (fun t d => t.toDie d (v.word (.stale (t.dieRoll d) v.name v.gen v.e 4))) s1 else s1

/-- Every descriptor of a slot ends with a status (R259); an arrival that has not been applied is released with `rel`. DONEs held for the slot
are dropped. -/
def State.endDescs (r : SlotRef) (rstatus rel : Nat) (f : Desc → Bool) (s : State) : State :=
  let s1 := (s.die.pay.descs.filter fun d => d.ref == r && f d).foldl (fun (t : State) d =>
    (t.endDesc d rstatus 0 {} 0).qResolve d.q d.tag rel 0) s
  s1.setPay { s1.die.pay with held := s1.die.pay.held.filter fun h => h.ref != r }

/-- BARRIER_FREE of a slot (R204): waiters released with CLEARED, descriptors ended with CLEARED, participation withdrawn, the slot freed. -/
def State.barrierFree (r : SlotRef) (s : State) : State :=
  (((s.relWaiters r 1 fun _ => true).endDescs r 1 1 fun _ => true).withdrawSlot r).freeSlot r

/-- A slot goes STALE (R206, R222): every waiter is released with STALE, and a descriptor whose arrival has been applied ends with STALE
(R259). -/
def State.slotStale (r : SlotRef) (s : State) : State :=
  ((s.setSlotAt r { (s.slotAt r) with state := .stale }).relWaiters r 4 fun _ => true).endDescs r 2 4 fun d => !d.reading

/-- The hub slot of a word: by PSLOT for HALLWIDE = 1, by HSLOT and job otherwise, with its GEN. -/
def State.wordSlot (w : CtlWord) (name gen : Nat) (s : State) : Option SlotRef :=
  (s.die.sync.slots.find? fun e => e.2.state != .free && e.2.gen == gen && e.2.name == name
    && (if w.hallwide then e.2.scope == 2 else e.2.scope == 3)).map fun e => SlotRef.hub e.1

/-- The hub slots of a context that are live. -/
def State.ctxSlots (c : Nat) (s : State) : List SlotRef :=
  ((s.die.sync.slots.filter fun e => e.2.state != .free && e.2.ctx == c).map fun e => SlotRef.hub e.1)
    ++ (s.die.stn.map fun n => (n.2.slots.filter fun e => e.2.state != .free && e.2.ctx == c).map fun e => SlotRef.region n.1 e.1).flatten

/-- STALE_CNT (R188). -/
def State.staleCount (s : State) : State := s.bump .sc Rg.MON_STALE_CNT

/-! DONE at a die (R200). -/

/-- One completion by a DONE: MISSING_MAP takes the participants that had not arrived. -/
def State.completeByDone (r : SlotRef) (s : State) : State :=
  let v := s.slotAt r
  s.completeSlot r (if v.state = .sent then 0 else minusMask 129 v.part v.arr)

/-- A DONE for an epoch at or after E (R200): epochs E to EPOCH complete one after another. -/
def State.slotDone (r : SlotRef) (epoch contrib hash flags : Nat) (s : State) : State :=
  let v := s.slotAt r
  let d := (sdiff16 epoch v.e).toNat
  let s1 := s.completeByDone r
  let s2 := if d = 0 then s1 else s1.completeByDone r
  let s3 := if d ≤ 1 then s2 else (s2.setSlotAt r { (s2.slotAt r) with e := epoch }).completeByDone r
  let s4 := s3.setSlotAt r { (s3.slotAt r) with doneContrib := contrib, doneHash := hash, doneFlags := flags }
  let s5 := if d = 0 then s4 else s4.bump .sc Rg.MON_SKIP_CNT d
  (s5.ctxRecord v.ctx { kind := 0x03, obj := v.handle, arg := contrib % 2 ^ 22, epoch := epoch }).slotTest r

/-- A DONE at a die's slot (R200, R258, R259): one that says NO_CLOSE ends the epoch's descriptor with LOST; while a descriptor of that slot
and epoch is in flight, and behind a DONE already held, it is held. -/
def State.doneOrHold (r : SlotRef) (epoch contrib hash flags : Nat) (s : State) : State :=
  let mine := s.die.pay.descs.filter fun d => d.ref == r && d.epoch == epoch
  let s1 := if bit flags 5 then mine.foldl (fun (t : State) d => (t.endDesc d 3 0 {} flags).countLost) s else s
  if (!bit flags 5 && !mine.isEmpty) || (s1.die.pay.held.any fun h => h.ref == r) then
    s1.setPay { s1.die.pay with held := s1.die.pay.held ++ [{ ref := r, epoch := epoch, contrib := contrib, hash := hash, flags := flags }] }
  else s1.slotDone r epoch contrib hash flags

/-- The DONEs held for a slot are applied in order as far as no descriptor of their epoch is in flight (R258). -/
def State.applyHeld (r : SlotRef) : Nat → State → State
  | 0, s => s
  | k + 1, s =>
    match s.die.pay.held.find? fun h => h.ref == r with
    | none => s
    | some h =>
      if s.die.pay.descs.any fun d => d.ref == r && d.epoch == h.epoch then s
      else
        let s1 := s.setPay { s.die.pay with held := s.die.pay.held.erase h }
        let s2 := if sdiff16 h.epoch (s1.slotAt r).e < 0 then s1 else s1.slotDone r h.epoch h.contrib h.hash h.flags
        s2.applyHeld r k

/-- Every DONE held for a slot that may be applied is applied. -/
def State.doneHeld (r : SlotRef) (s : State) : State := s.applyHeld r s.die.pay.held.length

end Sys2Proof.Machine
end

