-- ==== Sys2Proof/Machine/QueueCmds.lean ====
section
/-! DEFINITION. The commands of the queues and of the die's barriers (chapter 7), events committing at the hub (R169), the heartbeat
at a station (R155, R175). -/

namespace Sys2Proof.Machine

open Sys2Proof

/-! Accepting and executing commands (R179 to R184). -/

/-- The queue is bound and its station's region clock runs (R159, R178). -/
def State.queueLive (q : Nat) (s : State) : Bool :=
  s.die.running && decide (q < s.die.queues) && s.flag .sc (Rg.Q_BOUND q) && !(s.stn (s.get .sc (Rg.Q_STATION q))).clkLost

/-- A clear in progress concerns the queue (R179, R203). -/
def State.clearing (q : Nat) (s : State) : Bool :=
  match s.die.sync.clear with
  | some r => bit r.queues q
  | none => false

/-- CMD_READY (R179). -/
def State.cmdReady (q : Nat) (s : State) : Bool := s.queueLive q && decide ((s.queue q).entries.length < 64) && !s.clearing q

/-- QUEUE_CMD_ACCEPT (R179): a command offered while CMD_READY is high takes the next tag. -/
def execQueueCmdAccept (q cmd : Nat) (s : State) : Host.Outcome State Fault Refusal :=
  if !s.cmdReady q then .next s
  else
    let x := s.queue q
    .next (s.setQueue q { x with entries := x.entries ++ [{ tag := x.nextTag, cmd := cmd % 2 ^ 64 }], nextTag := (x.nextTag + 1) % 64 })

/-- The bits of a command that its opcode's fields cover (R180), as (lowest bit, width). -/
def opFields : Nat → List (Nat × Nat)
  | 1 => [(48, 12), (32, 16), (31, 1)]
  | 2 => [(48, 12), (32, 16), (31, 1)]
  | 3 => [(48, 12), (32, 16), (31, 1)]
  | 5 => [(48, 12), (32, 16), (31, 1), (0, 12)]
  | 6 => [(0, 6)]
  | 7 => [(0, 6)]
  | 8 => [(0, 48)]
  | 9 => [(0, 60)]
  | 10 => [(0, 60)]
  | _ => []

/-- The command with every bit outside its fields zero. -/
def cleanCmd (cmd : Nat) : Nat :=
  let op := bits cmd 60 4
  op * 2 ^ 60 + (opFields op).foldl (fun a f => a + bits cmd f.1 f.2 * 2 ^ f.1) 0

/-- A command with bits outside its fields executes as if they were zero, sets ALERT.RSVD_WRITE and counts (R180). -/
def State.strayBits (q : Nat) (e : QEntry) (s : State) : State :=
  if e.op ≤ 10 && cleanCmd e.cmd != e.cmd then
    let s1 := (s.rsvd .sc).bump .sc Rg.MON_BAD_CMD_CNT
    s1.setQueue q ((s1.queue q).modTag e.tag fun k => { k with cmd := cleanCmd e.cmd })
  else s

/-- The head of a queue executes if it is one of the opcodes and not yet stalled; the station first takes its region edges. -/
def State.atHead (q : Nat) (edges : List Nat) (ops : Nat → Bool) (run : QEntry → State → State) (s : State) : State :=
  if !s.queueLive q then s
  else match (s.queue q).head with
    | none => s
    | some e =>
      if !(e.phase == .queued && ops e.op) then s
      else
        let s1 := (s.stnEdges (s.get .sc (Rg.Q_STATION q)) edges).strayBits q e
        run { e with cmd := if e.op ≤ 10 then cleanCmd e.cmd else e.cmd } s1

/-- The head stalls. -/
def State.stallHead (q tag : Nat) (target : Option Nat) (s : State) : State :=
  s.setQueue q ((s.queue q).modTag tag fun k => { k with phase := .stalled, target := target })

/-- The head passes on, its outcome awaited. -/
def State.passHead (q tag : Nat) (s : State) : State := s.setQueue q ((s.queue q).modTag tag fun k => { k with phase := .passed })

/-- An arrival reaches the head (R184): it clears FENCED; without a fence it is flagged, and counted. -/
def State.fenceTest (q tag : Nat) (s : State) : State :=
  let x := s.queue q
  if x.fenced then s.setQueue q { x with fenced := false }
  else ((s.setQueue q (x.modTag tag fun k => { k with unfenced := true })).put .sc (Rg.Q_UNFENCED q) 1).bump .sc Rg.MON_UNFENCED_CNT

/-- A queue's command goes from its station to the hub (R169). -/
def State.sendEvent (q tag cmd : Nat) (s : State) : State := s.postEvent (s.get .sc (Rg.Q_STATION q)) (.cmd q tag (s.get .sc (Rg.Q_BIND_GEN q)) cmd)

/-- The station's 16-entry output buffer is full (R168). -/
def State.stnFull (q : Nat) (s : State) : Bool := decide (16 ≤ (s.die.sync.events.filter fun e => e.at_ == .buf (s.get .sc (Rg.Q_STATION q))).length)

/-- A barrier command at the head: at a region slot of the station it is carried out there, otherwise it travels to the hub. Barriers work from the first valid region time
(R174). -/
def State.barrierHead (q : Nat) (edges : List Nat) (op : Nat) (s : State) : State :=
  if s.stnFull q || !(s.stn (s.get .sc (Rg.Q_STATION q))).valid then s
  else s.atHead q edges (· == op) fun e t =>
    let t1 := if op = 2 then t else t.fenceTest q e.tag
    let t2 := if op = 1 then t1.passHead q e.tag else t1.stallHead q e.tag none
    match t2.queueSlot q (bits e.cmd 48 12) with
    | some (.region n k) => t2.barrierOp (some (.region n k)) true q e.tag (t2.stn n).stamp e.cmd
    | _ => t2.sendEvent q e.tag e.cmd

/-- NOP (R180). -/
def execNop (q : Nat) (edges : List Nat) (s : State) : Host.Outcome State Fault Refusal :=
  .next (s.atHead q edges (· == 0) fun e t => t.qResolve q e.tag 0 0)

/-- ARRIVE (R181, R184, R189, R190). -/
def execArrive (q : Nat) (edges : List Nat) (s : State) : Host.Outcome State Fault Refusal := .next (s.barrierHead q edges 1)

/-- WAIT (R192). -/
def execWait (q : Nat) (edges : List Nat) (s : State) : Host.Outcome State Fault Refusal := .next (s.barrierHead q edges 2)

/-- ARRIVE_WAIT (R183). -/
def execArriveWait (q : Nat) (edges : List Nat) (s : State) : Host.Outcome State Fault Refusal := .next (s.barrierHead q edges 3)

/-- FENCE (R184): DRAIN_REQ rises and the head stalls. -/
def execFence (q : Nat) (edges : List Nat) (s : State) : Host.Outcome State Fault Refusal :=
  .next (s.atHead q edges (· == 4) fun e t =>
    let t1 := t.stallHead q e.tag none
    t1.setQueue q { (t1.queue q) with drainReq := true })

/-- DRAIN_ACK (R184): the FENCE at the head completes and sets FENCED; an acknowledgement without a request is ignored. -/
def execDrainAck (q : Nat) (s : State) : Host.Outcome State Fault Refusal :=
  let x := s.queue q
  match x.head with
  | some e =>
    if x.drainReq && e.op == 4 && e.phase == .stalled then .next ((s.setQueue q { x with drainReq := false, fenced := true }).qResolve q e.tag 0 0) else .next s
  | none => .next s

/-- The host flags and signals of a context. -/
def State.hostFlags (c : Nat) (s : State) : Nat := s.get64 (Rg.HF_FLAG_LO c) (Rg.HF_FLAG_HI c)

/-- SIGNAL_HOST (R209). -/
def execSignalHost (q : Nat) (edges : List Nat) (s : State) : Host.Outcome State Fault Refusal :=
  .next (s.atHead q edges (· == 6) fun e t =>
    let c := t.get .sc (Rg.Q_CTX q)
    let sig := t.get64 (Rg.HF_SIG_LO c) (Rg.HF_SIG_HI c)
    (t.put64 (Rg.HF_SIG_LO c) (Rg.HF_SIG_HI c) (setBit sig (e.cmd % 64))).qResolve q e.tag 0 0)

/-- WAIT_HOST (R209): releases and clears the flag, or stalls. -/
def execWaitHost (q : Nat) (edges : List Nat) (s : State) : Host.Outcome State Fault Refusal :=
  .next (s.atHead q edges (· == 7) fun e t =>
    let c := t.get .sc (Rg.Q_CTX q)
    let fl := t.hostFlags c
    if bit fl (e.cmd % 64) then (t.put64 (Rg.HF_FLAG_LO c) (Rg.HF_FLAG_HI c) (clearBit fl (e.cmd % 64))).qResolve q e.tag 0 0
    else t.stallHead q e.tag none)

/-- A host flag of a context is set (R209): the lowest-indexed queue that waits for it releases and clears it. -/
def State.setHostFlag (c n : Nat) (s : State) : State :=
  let waiter := (s.boundQueues c).findSome? fun q => match (s.queue q).head with
    | some e => if e.phase == .stalled && e.op == 7 && e.cmd % 64 == n then some (q, e.tag) else none
    | none => none
  match waiter with
  | some (q, tag) => s.qResolve q tag 0 0
  | none => s.put64 (Rg.HF_FLAG_LO c) (Rg.HF_FLAG_HI c) (setBit (s.hostFlags c) n)

/-- The last bell number of a job (R194). -/
def State.lastBell (j : Nat) (s : State) : Nat := s.get .sc (Rg.SJH_BELL_LO j) + 2 ^ 32 * s.get .sc (Rg.SJH_BELL_HI j)

/-- sdiff of bell numbers, w = 48. -/
def sdiff48 (a b : Nat) : Int := sdiff 48 a b

/-- WAIT_BELL (R194). -/
def execWaitBell (q : Nat) (edges : List Nat) (s : State) : Host.Outcome State Fault Refusal :=
  .next (s.atHead q edges (· == 8) fun e t =>
    match t.ctxJob (t.get .sc (Rg.Q_CTX q)) with
    | none => t.qResolve q e.tag 8 0
    | some j =>
      if t.flag .sc (Rg.SJH_BELL_VALID j) && decide (sdiff48 (e.cmd % 2 ^ 48) (t.lastBell j) ≤ 0) then
        t.qResolve q e.tag 0 (4 * t.get .sc (Rg.STN_RT_UNREL (t.get .sc (Rg.Q_STATION q))))
      else t.stallHead q e.tag none)

/-- A launch releases the head of a queue (R163, R165, R194, R195): flags LATE and RT_UNREL. -/
def State.launchHead (q : Nat) (edges : List Nat) (op src : Nat) (s : State) : State :=
  let st := s.get .sc (Rg.Q_STATION q)
  if !s.queueLive q then s
  else match (s.queue q).head with
    | none => s
    | some e =>
      if !(e.phase == .stalled && e.op == op) then s
      else match e.target with
        | none => s
        | some t =>
          let s1 := s.stnEdges st edges
          if !(s1.stn st).reached t then s1
          else
            let r := s1.launch st t src
            r.2.qResolve q e.tag 0 (2 * ofBool r.1 + 4 * s.get .sc (Rg.STN_RT_UNREL st))

/-- WAIT_BELL_RELEASE (R194, R163). -/
def execWaitBellRelease (q : Nat) (edges : List Nat) (s : State) : Host.Outcome State Fault Refusal := .next (s.launchHead q edges 8 3)

/-- The target a WAIT_TIME names: the HT integer nearest the station's region time with these low 60 bits (R195). -/
def State.timeTarget (q cmd : Nat) (s : State) : Nat := nearest 60 (cmd % 2 ^ 60) ((s.stn (s.get .sc (Rg.Q_STATION q))).rt / nsLsb)

/-- WAIT_TIME (R195). -/
def execWaitTime (q : Nat) (edges : List Nat) (s : State) : Host.Outcome State Fault Refusal :=
  .next (s.atHead q edges (· == 9) fun e t => t.stallHead q e.tag (some (t.timeTarget q e.cmd)))

/-- WAIT_TIME_RELEASE (R195, R163). -/
def execWaitTimeRelease (q : Nat) (edges : List Nat) (s : State) : Host.Outcome State Fault Refusal := .next (s.launchHead q edges 9 4)

/-- The status half-word of a station (R38, R196). -/
def State.stnStat (n : Nat) (s : State) : Nat :=
  let x := s.stn n
  2 * ofBool x.joined + 4 * ofBool x.joined + 8 * ofBool (x.joined && !x.unaligned) + 16 * ofBool x.slewing + 32 * ofBool x.holdover
    + 64 * ofBool x.unaligned + 128 * s.get .sc Rg.HT_HT_WRAP + 256 * s.get .sc Rg.HT_EPOCH_KIND

/-- STAMP (R196): the region time and status of the edge go to the address, in the 16-byte form of R38. -/
def execStamp (q : Nat) (edges : List Nat) (s : State) : Host.Outcome State Fault Refusal :=
  .next (s.atHead q edges (· == 10) fun e t =>
    let st := t.get .sc (Rg.Q_STATION q)
    (t.dmaWrite .sc (16 * (e.cmd % 2 ^ 60)) (ht80Bytes (t.stn st).rt (t.stnStat st))).qResolve q e.tag 0 0)

/-- RESERVED_OPCODE (R180): completes at once with BAD_OP. -/
def execReservedOpcode (q : Nat) (edges : List Nat) (s : State) : Host.Outcome State Fault Refusal :=
  .next (s.atHead q edges (fun o => decide (11 ≤ o)) fun e t => t.qResolve q e.tag 7 0)

/-! The hub (R169, R201). -/

/-- The event that commits next: the lowest stamp in serial order, equal stamps by ascending region, among the events that have
reached the hub. -/
def pickEvent : List HubEv → Option HubEv
  | [] => none
  | e :: t => match pickEvent t with
    | none => some e
    | some b => if earlierThan 48 b.stamp e.stamp || (b.stamp == e.stamp && decide (b.src < e.src)) then some b else some e

/-- A stamp is committed: a later one stays the last. Answers whether it came behind a later one. -/
def State.commitStamp (stamp : Nat) (s : State) : Bool × State :=
  let late := match s.die.sync.lastStamp with
    | some l => earlierThan 48 stamp l
    | none => false
  (late, if late then s else s.setSync { s.die.sync with lastStamp := some stamp })

/-- An event commits (R152, R167, R169, R188); one behind a later stamp counts in ORDER_LATE. A command of an earlier binding is dropped. -/
def State.commitEvent (e : HubEv) (s : State) : State :=
  let c := (s.setSync { s.die.sync with events := s.die.sync.events.erase e }).commitStamp e.stamp
  let t := if c.1 then c.2.setStn e.src { (c.2.stn e.src) with orderLate := (c.2.stn e.src).orderLate + 1 } else c.2
  match e.body with
  | .cmd q tag bindGen cmd =>
    if t.get .sc (Rg.Q_BIND_GEN q) != bindGen || !t.flag .sc (Rg.Q_BOUND q) then t.staleCount
    else (t.barrierOp (t.queueSlot q (bits cmd 48 12)) false q tag e.stamp cmd).settle
  | .regionDone _ => t.settle
  | .armLost m => (t.armLostAtHub e.src m).settle
  | .record x => (t.dieTake x).settle

/-- The events in the reorder stage. -/
def SyncSt.waiting (y : SyncSt) : List HubEv := y.events.filter fun e => e.at_ == .hub

/-- STATION_EVENT_COMMIT (R169): 4 ns after it entered the reorder stage the event with the lowest stamp commits; `delayed` names stations whose events have not reached
the hub. -/
def execStationEventCommit (delayed : List Nat) (s : State) : Host.Outcome State Fault Refusal :=
  .next (match pickEvent (s.die.sync.waiting.filter fun e => !delayed.contains e.src) with
    | none => s
    | some e => (s.awaitHt .sc (e.entered + 4)).commitEvent e)

/-- Events that wait and are older than a stamp commit before it. -/
def State.commitBefore (stamp : Nat) : Nat → State → State
  | 0, s => s
  | k + 1, s => match pickEvent s.die.sync.waiting with
    | none => s
    | some e => if earlierThan 48 stamp e.stamp then s else State.commitBefore stamp k (s.commitEvent e)

/-- A word from the package port or a tick link enters the commit order stamped at its receipt (R193). -/
def State.commitWord (s : State) : State :=
  let stamp := s.ht .sc % 2 ^ 48
  ((s.commitBefore stamp s.die.sync.events.length).commitStamp stamp).2

/-- HUB_RELEASE_AT_STATION (R188, R201): a release from the hub reaches its station; one of an earlier binding is dropped. -/
def execHubReleaseAtStation (q : Nat) (s : State) : Host.Outcome State Fault Refusal :=
  let y := s.die.sync
  match y.rels.find? fun r => r.q == q with
  | none => .next s
  | some r =>
    let s1 := s.setSync { y with rels := y.rels.erase r }
    if s.get .sc (Rg.Q_BIND_GEN q) != r.bindGen || !s.flag .sc (Rg.Q_BOUND q) then .next s1.staleCount
    else .next (s1.qResolve q r.tag r.status r.flags)

/-! The heartbeat at a station (R155, R156, R175). -/

/-- Every WAIT_TIME at a head of the station's queues takes its target anew (R175). -/
def State.retarget (n : Nat) (s : State) : State :=
  (List.range s.die.queues).foldl (fun t q =>
    if t.get .sc (Rg.Q_STATION q) != n then t
    else match (t.queue q).head with
      | some e => if e.phase == .stalled && e.op == 9 then t.stallHead q e.tag (some (t.timeTarget q e.cmd)) else t
      | none => t) s

/-- The first heartbeat with JOINED = 1 (R175): region time is reloaded, armed strobes are discarded and counted, WAIT_TIME targets
are taken anew; TIMED slots are armed from the join (R164). -/
def State.hbJoin (n phi : Nat) (s : State) : State :=
  let x := s.stn n
  let s1 := s.setStn n { (x.reload x.word.ht phi) with joined := true, missRun := 0 }
  let s2 := (List.range 8).foldl (fun t k => t.clearTargets n k) s1
  (List.range 8).foldl (fun t k => t.armTimed n k) (s2.retarget n)

/-- HEARTBEAT_RECEIVE (R151, R152, R154 to R156, R159, R175): the station's region edges, then the edge of its word, which strikes the phase detector at a tap; `flips` are the
bits of the 64 that the wire has changed. Without its START bit there is no edge. While the region clock is still stopped the heartbeat corrects nothing. -/
def execHeartbeatReceive (n : Nat) (edges : List Nat) (tap flips : Nat) (s : State) : Host.Outcome State Fault Refusal :=
  let raw := Nat.xor (s.stn n).word.toBits (flips % 2 ^ 64)
  if !s.stnLive n || !bit raw 0 then .next s
  else
    let phi := tapPos (s.stn n).taps tap
    let crcOk := hbPasses raw
    let s0 := s.stnEdges n edges
    let hit := (s0.stn n).tapHit tap
    let s1 := s0.setStn n (if crcOk then { hit with word := hit.word.read raw } else hit)
    let unrel := s.flag .sc (Rg.STN_RT_UNREL n)
    let s2 := if crcOk then s1.hbMessage n else s1.hbCrcFail n
    let w := (s2.stn n).word
    if crcOk && w.joined && !(s2.stn n).joined then .next (s2.hbJoin n phi)
    else if (s.stn n).clkLost && edges.isEmpty then .next s2
    else
      let x := s2.stn n
      let s3 := if crcOk then s2.setStn n { x with joined := w.joined, unaligned := w.unaligned, holdover := w.holdover, slewing := w.slewing } else s2
      if !crcOk && (unrel || !x.valid) then .next s3
      else match x.boundary phi unrel with
        | none => .next s3
        | some hb =>
          let eps : Int := ((x.rt + phi : Nat) : Int) - ((hb * nsLsb + x.delayLsb : Nat) : Int)
          if x.valid && !unrel && decide (2 * nsLsb < eps.natAbs) then .next s3 else .next (s3.hbAccept n hb phi)

/-! Mailbox commands of R215. -/

/-- BARRIER_CREATE (R186, R187, R197, R215). The 129-bit PART_MAP takes bytes 6 to 22, the scope's own fields follow from byte 23. -/
def execBarrierCreate (m : MbGo) (s : State) : Host.Outcome State Fault Refusal :=
  .next (s.mailbox m 0x20 (scOnly m.part 0) [1, 2, 1, 1] none fun a t =>
    let at_ := fun i n : Nat => ofLe ((m.args.drop i).take n)
    let sc := a.getD 2 0
    let maskAt := if sc = 2 then 27 else 29
    let c : CreateArgs := { ctx := a.getD 0 0, handle := a.getD 1 0, scope := sc, headcount := a.getD 3 0, part := at_ 6 17 % 2 ^ 129,
                            station := if sc = 0 then at_ 23 1 else 0,
                            name := if sc = 2 then at_ 24 2 else if sc = 3 then at_ 24 4 % 2 ^ 20 else 0,
                            gen := if sc = 2 then at_ 26 1 else if sc = 3 then at_ 28 1 else 0,
                            dieMask := if 2 ≤ sc && maskAt < m.args.length then some (at_ maskAt 1) else none }
    if m.args.length < (if sc = 0 then 24 else if sc = 1 then 23 else maskAt) then (.badArg, t)
    else
      let r := t.createSlot c
      if r.1 = 0 then (.ok [(2, r.2.1), (1, r.2.2.1)], r.2.2.2) else (.fail r.1 0, t))

/-- BARRIER_FREE (R204, R215). -/
def execBarrierFree (m : MbGo) (s : State) : Host.Outcome State Fault Refusal :=
  .next (s.mailbox m 0x21 (scOnly m.part 0) [1, 2] none fun a t =>
    match t.handle (a.getD 0 0) (a.getD 1 0) with
    | none => (.badArg, t)
    | some r => (.ok [], t.barrierFree r))

/-- CTX_BIND (R26, R202, R382): JOB 0xFF unbinds. -/
def execCtxBind (m : MbGo) (s : State) : Host.Outcome State Fault Refusal :=
  .next (s.mailbox m 0x22 (scOnly m.part 0) [1, 1] (some 1) fun a t =>
    let c := a.getD 0 0
    let j := a.getD 1 0
    if 63 < c || (63 < j && j != 255) then (.badArg, t)
    else if j != 255 && t.get .sc Rg.START_STAGE < 2 then (.busy, t)
    else
      let new := if j = 255 then none else some j
      let hall := (t.ctxSlots c).any fun r => (t.slotAt r).scope == 3
      let other := match t.hallCtx j with
        | some k => k != c
        | none => false
      if t.ctxJob c = new then (.ok [], t)
      else if hall || (j != 255 && other) then (.refuse, t)
      else if j = 255 then (.ok [], t.put .sc (Rg.CTX_JOB_VALID c) 0)
      else (.ok [], ((t.put .sc (Rg.CTX_JOB c) j).put .sc (Rg.CTX_JOB_VALID c) 1).put .sc (Rg.SJH_BELL_VALID j) 0))

/-- A queue's entries are all released with CLEARED, and the queue is unbound (R203, step 1). -/
def State.clearQueue (q : Nat) (s : State) : State :=
  let x := s.queue q
  let s0 := s.setQueue q { x with entries := x.entries.map fun e => { e with out := none } }
  let s1 := x.entries.foldl (fun t e => t.qResolve q e.tag 1 0) s0
  (s1.setQueue q { (s1.queue q) with drainReq := false }).put .sc (Rg.Q_BOUND q) 0

/-- A context is cleared (R203, steps 1 to 5). -/
def State.clearContext (c : Nat) (s : State) : State :=
  let s1 := (s.boundQueues c).foldl (fun t q => t.clearQueue q) s
  let s2 := (s1.ctxSlots c).foldl (fun t r => t.barrierFree r) s1
  let s2 := (s2.die.pay.descs.filter fun d => d.ctx == c).foldl (fun (t : State) d => t.endDesc d 1 0 {} 0) s2
  let s3 := (s2.put64 (Rg.HF_FLAG_LO c) (Rg.HF_FLAG_HI c) 0).put64 (Rg.HF_SIG_LO c) (Rg.HF_SIG_HI c) 0
  s3.setMon c {}

/-- CTX_SWITCH (R203): the 128-bit queue mask takes bytes 2 to 17. -/
def execCtxSwitch (m : MbGo) (s : State) : Host.Outcome State Fault Refusal :=
  .next (s.mailbox m 0x23 (scOnly m.part 0) [1, 1] none fun a t =>
    let c := a.getD 0 0
    let mask := ofLe ((m.args.drop 2).take 16)
    if 63 < c || 63 < a.getD 1 0 || m.args.length < 18 || (setBits 128 mask).any (fun q => !(t.boundQueues c).contains q) then (.badArg, t)
    else
      let t1 := t.clearContext c
      (.wait [], t1.setSync { t1.die.sync with clear := some { ctx := c, next := some (a.getD 1 0, mask), box := m.box, queues := maskOf 128 ((t.boundQueues c).contains ·) } }))

/-- CTX_CLEAR (R203). -/
def execCtxClear (m : MbGo) (s : State) : Host.Outcome State Fault Refusal :=
  .next (s.mailbox m 0x24 (scOnly m.part 0) [1] none fun a t =>
    let c := a.getD 0 0
    if 63 < c then (.badArg, t)
    else
      let t1 := t.clearContext c
      (.wait [], t1.setSync { t1.die.sync with clear := some { ctx := c, box := m.box, queues := maskOf 128 ((t.boundQueues c).contains ·) } }))

/-- A queue is bound to a context (R178, R213): BIND_GEN counts, tags start at 0, FENCED is clear. -/
def State.bindQueue (q c : Nat) (s : State) : State :=
  let s1 := ((s.put .sc (Rg.Q_CTX q) c).put .sc (Rg.Q_BOUND q) 1).put .sc (Rg.Q_BIND_GEN q) (s.get .sc (Rg.Q_BIND_GEN q) + 1)
  s1.setQueue q { rels := (s.queue q).rels }

/-- CONTEXT_CLEAR_END (R203, step 6): the masked queues bind to the incoming context, CLEARED sets, the command completes. -/
def execContextClearEnd (s : State) : Host.Outcome State Fault Refusal :=
  match s.die.sync.clear with
  | none => .next s
  | some r =>
    let s1 := s.setSync { s.die.sync with clear := none }
    let s2 := match r.next with
      | some (c, mask) => (setBits 128 mask).foldl (fun (t : State) q => t.bindQueue q c) s1
      | none => s1
    .next ((s2.put .sc Rg.MON_CLEARED 1).mbComplete .sc r.box (.ok []))

/-- The SLOT_READ response (R210). -/
def State.slotBytes (r : SlotRef) (s : State) : List Byte :=
  let v := s.slotAt r
  let st := match v.state with
    | .free => 0
    | .counting => 1
    | .sent => 2
    | .stale => 3
  let arrived := if s.isLead && 2 ≤ v.scope then popCount 8 v.dieArr else popCount 129 v.arr
  let mask := fun l : SMap Nat => l.foldl (fun a e => setBit a e.1) 0
  leBytes 1 (st + 4 * v.scope) ++ leBytes 1 v.gen ++ leBytes 2 v.headcount ++ leBytes 2 v.e ++ leBytes 2 v.completed ++ leBytes 2 v.misuse
    ++ leBytes 2 arrived ++ leBytes 4 (v.name % 2 ^ 20) ++ leBytes 17 v.part ++ leBytes 17 v.arr ++ leBytes 17 v.early ++ leBytes 17 v.missing
    ++ leBytes 16 (mask v.waits) ++ leBytes 2 (mask v.hostWaits) ++ leBytes 1 v.dieMask ++ leBytes 1 v.dieArr ++ leBytes 1 v.dieEarly
    ++ leBytes 1 v.sigKind ++ leBytes 4 v.sigIdx ++ leBytes 4 v.sigHt32 ++ leBytes 24 (v.doneContrib + 2 ^ 32 * v.doneHash + 2 ^ 64 * v.doneFlags)
    ++ leBytes 4 (v.ctx + 64 * v.handle) ++ List.replicate 114 0

/-- SLOT_READ (R210): form 0 names CTX and HANDLE; form 1 names the scope, the physical index and, for a REGION slot, the station. -/
def execSlotRead (m : MbGo) (s : State) : Host.Outcome State Fault Refusal :=
  .next (s.mailbox m 0x25 (scOnly m.part 0) [1, 1, 2, 1] none fun a t =>
    if a.getD 0 0 = 0 then (match t.handle (a.getD 1 0) (a.getD 2 0) with
      | none => (.badArg, t)
      | some r => (.bytes (t.slotBytes r), t))
    else if a.getD 1 0 = 0 then
      (if a.getD 2 0 < 64 && a.getD 3 0 < t.die.stations then (.bytes (t.slotBytes (.region (a.getD 3 0) (a.getD 2 0))), t) else (.badArg, t))
    else if a.getD 2 0 < 16384 then (.bytes (t.slotBytes (.hub (a.getD 2 0))), t)
    else (.badArg, t))

/-- HANDLE_QUOTA of a context is set; OVER_QUOTA follows (R202). -/
def State.setQuota (c v : Nat) (s : State) : State :=
  (s.put .sc (Rg.CTX_HANDLE_QUOTA c) v).putFlag .sc (Rg.CTX_OVER_QUOTA c) (decide (v < s.get .sc (Rg.CTX_HANDLES_USED c)))

/-- CTX_QUOTA (R202). -/
def execCtxQuota (m : MbGo) (s : State) : Host.Outcome State Fault Refusal :=
  .next (s.mailbox m 0x26 (scOnly m.part 0) [1, 2] none fun a t =>
    if 63 < a.getD 0 0 || 4096 < a.getD 1 0 then (.badArg, t) else (.ok [], t.setQuota (a.getD 0 0) (a.getD 1 0)))

/-- The armed host wait of an entry ends (R208). -/
def State.hostWaitStop (en status : Nat) (s : State) : State :=
  match s.die.sync.slots.find? fun e => (SMap.find en e.2.hostWaits).isSome with
  | none => s
  | some (i, v) =>
    (s.setSlotAt (.hub i) { v with hostWaits := SMap.erase en v.hostWaits }).hostWaitEnd en status (SMap.get 0 en v.hostWaits)

/-- HOST_WAIT_CANCEL (R208, R215). -/
def execHostWaitCancel (m : MbGo) (s : State) : Host.Outcome State Fault Refusal :=
  .next (s.mailbox m 0x27 (scOnly m.part 0) [2] none fun a t => (.ok [], (setBits 16 (a.getD 0 0)).foldl (fun u en => u.hostWaitStop en 1) t))

/-! The host as participant (R207, R208). -/

/-- The slot a host operation names: a DIE, PACKAGE or HALL slot of the context; a REGION slot is no translation for the host. -/
def State.hostSlot (c h : Nat) (s : State) : Option SlotRef :=
  match s.handle c h with
  | some (.hub i) => some (.hub i)
  | _ => none

/-- A host arrival (R207): participant 128, with LAST_H and LAST_EP of its own; its outcome goes to SC_HOST_RESULT, where BUSY clears. -/
def State.hostArrive (epoch : Nat) (s : State) : State :=
  let s := s.put .sc Rg.HST_RES_BUSY 0
  let h := s.get .sc Rg.HST_ARR_HANDLE
  let c := s.get .sc Rg.HST_ARR_CTX
  match s.hostSlot c h with
  | none => (s.put .sc Rg.HST_RES_STATUS 5).put .sc Rg.HST_RES_EPOCH_T epoch
  | some r =>
    let o := s.arriveAt r 128 1 0 (s.ht .sc % 2 ^ 48) epoch (s.flag .sc Rg.HST_ARR_EP_AUTO)
    let s1 := (o.2.2.put .sc Rg.HST_RES_STATUS o.1).put .sc Rg.HST_RES_EPOCH_T o.2.1
    if o.1 = 0 then s1.setSync { s1.die.sync with hostLast := some (c * 4096 + h, o.2.1) } else s1

/-- A host wait is armed (R208): a wait already armed on the entry ends with CLEARED first. -/
def State.hostArm (epoch : Nat) (s : State) : State :=
  let en := s.get .sc Rg.HST_ARM_ENTRY
  let c := s.get .sc Rg.HST_ARM_CTX
  let h := s.get .sc Rg.HST_ARM_HANDLE
  let s1 := s.hostWaitStop en 1
  let w : Option Nat := if s.flag .sc Rg.HST_ARM_EP_AUTO then (match s.die.sync.hostLast with
      | some (k, e) => if k = c * 4096 + h then some e else none
      | none => none)
    else some epoch
  match s1.hostSlot c h, w with
  | none, _ => s1.hostWaitEnd en 5 epoch
  | _, none => s1.hostWaitEnd en 8 epoch
  | some r, some e => match (s1.slotAt r).waitFor e with
    | some st => (s1.waitMisuse r st).hostWaitEnd en st e
    | none => (s1.setSlotAt r { (s1.slotAt r) with hostWaits := SMap.set en e (s1.slotAt r).hostWaits }).put .sc Rg.HST_W_ARMED
        (setBit (s1.get .sc Rg.HST_W_ARMED) en)

/-! The monitor (R211, R212). -/

/-- The DEADLOCK records of a context (R212): one for each bound queue. -/
def State.deadlockRecords (c : Nat) (s : State) : State :=
  (s.boundQueues c).foldl (fun t q =>
    let cmd := match (t.queue q).head with
      | some e => e.cmd
      | none => 0
    let r := t.queueSlot q (bits cmd 48 12)
    let v := match r with
      | some x => t.slotAt x
      | none => {}
    let phys := match r with
      | some (.hub i) => i
      | some (.region _ k) => k
      | none => 0
    let wm := v.waits.foldl (fun a e => setBit a e.1) 0
    t.ctxRecord c { kind := 0x0B, obj := phys, arg := q, epoch := v.e, conts := [cmd, wm % 2 ^ 120, wm / 2 ^ 120] }) s

/-- DEADLOCK_DECLARE (R211, R212). -/
def execDeadlockDeclare (c : Nat) (s : State) : Host.Outcome State Fault Refusal :=
  let m := s.mon c
  let d := s.get64 Rg.MON_DEADLOCK_LO Rg.MON_DEADLOCK_HI
  match m.stalled with
  | none => .next s
  | some t =>
    let since := max t (m.lastArr.getD 0)
    if decide (c < 64) && s.flag .sc Rg.MON_MON_EN && !bit d c then
      let s := s.awaitHt .sc (since + s.get .sc Rg.MON_T_QUIET_MS * 1000000)
      let s1 := s.put64 Rg.MON_DEADLOCK_LO Rg.MON_DEADLOCK_HI (setBit d c)
      let s2 := s1.put64 Rg.MON_DL_SEEN_LO Rg.MON_DL_SEEN_HI (setBit (s.get64 Rg.MON_DL_SEEN_LO Rg.MON_DL_SEEN_HI) c)
      .next (((s2.put .sc Rg.MON_MONITOR 1).deadlockRecords c).sendMonitor c true)
    else .next s

/-- MON_DUMP (R212, R215). -/
def execMonDump (m : MbGo) (s : State) : Host.Outcome State Fault Refusal :=
  .next (s.mailbox m 0x28 (scOnly m.part 0) [1] none fun a t => (.ok [], t.deadlockRecords (a.getD 0 0)))

end Sys2Proof.Machine
end

