-- ==== Sys2Proof/Machine/DiePay.lean ====
section
/-! DEFINITION. The payload engine and the checker of the die (R250 to R259, R276 to R281). -/

namespace Sys2Proof.Machine

open Sys2Proof

/-! PAYLOAD_ARRIVE (R250 to R254). -/

/-- A queue's payload arrivals still on their way count as applied when a later one's target is fixed (R250). -/
def State.targetOf (r : SlotRef) (q epoch : Nat) (auto : Bool) (s : State) : Nat :=
  let v := s.slotAt r
  let mine := s.die.pay.descs.filter fun d => d.ref == r && d.q == q && d.reading
  let v1 := mine.foldl (fun (w : Slot) d => if d.epoch = w.e then { w with arr := setBit w.arr q } else if d.epoch = (w.e + 1) % 65536 then { w with early := setBit w.early q } else w) v
  v1.target q auto epoch

/-- The die already holds a payload arrival of the epoch for the slot (R250). -/
def State.holdsArrival (r : SlotRef) (epoch : Nat) (s : State) : Bool :=
  let v := s.slotAt r
  (s.die.pay.descs.any fun d => d.ref == r && d.epoch == epoch) || (v.e == epoch && v.hasAcc)
    || ((v.e + 1) % 65536 == epoch && v.earlyAcc.any fun e => e.1 == s.die.pkgIndex)

/-- PAYLOAD_ARRIVE (R7, R181, R184, R250 to R253): without an engine it releases NO_CAP and is no arrival; a descriptor already in flight or
PD_EN = 0 releases BAD_ARG; otherwise the head advances and the descriptor is read. -/
def execPayloadArrive (q : Nat) (edges : List Nat) (s : State) : Host.Outcome State Fault Refusal :=
  .next (s.atHead q edges (· == 5) fun e t =>
    if !t.die.payload then t.qResolve q e.tag 9 0
    else
      let t1 := t.fenceTest q e.tag
      let idx := e.cmd % 4096
      if (t1.die.pay.descs.any fun d => d.idx == idx) || !t1.flag .sc Rg.PD_PD_EN then t1.qResolve q e.tag 8 0
      else
        let c := t1.get .sc (Rg.Q_CTX q)
        let h := bits e.cmd 48 12
        let ref := t1.queueSlot q h
        let r := ref.getD (.hub 65535)
        let v := t1.slotAt r
        let ep := t1.targetOf r q (bits e.cmd 32 16) (bit e.cmd 31)
        let reject := match ref with
          | none => 5
          | some (.region _ _) => 8
          | some (.hub _) => if v.scope != 3 || t1.holdsArrival r ep then 8 else 0
        let d : Desc := { idx := idx, q := q, tag := e.tag, ctx := c, ref := if reject = 0 then r else .hub 65535, handle := h, hslot := v.name, epoch := ep, job := v.job, reject := reject }
        ((t1.passHead q e.tag).wake .sc 0 0).setPay { t1.die.pay with descs := t1.die.pay.descs ++ [d] })

/-- A descriptor's fields (R251). -/
structure DescFields where
  sum : Summary
  src : Nat
  dst : Nat
  mask : Nat
  status : Nat
  stray : Bool
  deriving DecidableEq, Repr

/-- The 64 bytes of a descriptor read (R251). -/
def readDesc (b : List Byte) : DescFields :=
  let f := fun lo n : Nat => ofLe ((b.drop lo).take n)
  let op := f 3 1 % 16
  { sum := { bucket := f 0 3, op := op, fmt := f 3 1 / 16, count := f 4 2 % 2048, mean := f 6 1 % 2 == 1, baseExp := if op = 10 then f 7 1 else 0,
             word2 := if op = 10 then f 40 8 else 0 }
    src := f 8 8, dst := f 16 8, mask := f 24 8, status := f 32 8
    stray := decide (2048 ≤ f 4 2) || decide (2 ≤ f 6 1) || f 48 16 != 0 }

/-- R252: the descriptor is refused. -/
def DescFields.bad (d : DescFields) : Bool :=
  !opAllowed d.sum.op d.sum.fmt || d.sum.count == 0 || decide (1024 < d.sum.count) || (d.sum.op == 10 && d.sum.count != 128)
    || d.dst % 8 != 0 || d.mask % 8 != 0 || d.status % 32 != 0
    || (d.sum.op == 10 && decide (110 < (toSigned 8 d.sum.baseExp).natAbs)) || (d.sum.mean && d.sum.op != 0)

/-- The source elements at an address: `w` bits each, packed from bit 0 up (R251). -/
def Memory.elements (a w n : Nat) (m : Memory) : List Nat :=
  let v := m.readLe a (ceilDiv (w * n) 8)
  (List.range n).map fun i => bits v (w * i) w

/-- A PAYLOAD_ARRIVE that is not counted is released, and its descriptor ends as REJECTED, or STALE where it released STALE (R259). -/
def State.rejectDesc (d : Desc) (status : Nat) (s : State) : State :=
  ((s.answer false d.q d.tag status).endDesc d (if status = 4 then 2 else 4) 0 {} (if status = 4 then 0 else status)).doneHeld d.ref

/-- DESCRIPTOR_READ_DONE (R252 to R254): the descriptor, mask and source reads end, with what the fabric reports: an error on the descriptor, on
the mask, on source lanes. The partial is formed and the arrival applied at its slot. -/
def execDescriptorReadDone (desc : Nat) (descErr maskErr : Bool) (srcErr : List Nat) (s : State) : Host.Outcome State Fault Refusal :=
  match s.die.pay.descs.find? fun d => d.idx == desc && d.reading with
  | none => .next s
  | some d0 =>
    let base := s.get .sc Rg.PD_BASE_LO * 4096 + 2 ^ 32 * s.get .sc Rg.PD_BASE_HI
    let f := readDesc (s.dieMem.readN (base + 64 * desc) 64)
    if descErr then .next (s.rejectDesc d0 (if d0.reject = 0 then 8 else d0.reject))
    else
      let s0 := if f.stray then (s.rsvd .sc).bump .sc Rg.SPAY_BAD_DESC_CNT else s
      let d1 := { d0 with reading := false, bucket := f.sum.bucket, dst := f.dst, status := f.status, statusOk := f.status % 32 == 0 }
      if d0.reject != 0 then .next (s0.rejectDesc d1 d0.reject)
      else if f.bad then .next (s0.rejectDesc d1 8)
      else
        let n := f.sum.count
        let mask := if f.mask = 0 then 0 else if maskErr then 0 else s0.dieMem.readLe f.mask (ceilDiv n 8) % 2 ^ n
        let raw := if f.sum.op = 6 then [] else s0.dieMem.elements f.src (srcWidth f.sum.op f.sum.fmt) n
        let errs := if f.sum.op = 6 then [] else srcErr.filter (· < n)
        let fault := (f.mask != 0 && maskErr) || errs.any fun i => !bit mask i
        let d := { d1 with srcFault := fault, suppressed := !fault && (!errs.isEmpty || maskedOdd f.sum raw mask) }
        let body := if fault then summaryOnly 0 (rollHash (s0.get .sc Rg.SROLL_ROLL)) 0 else diePartial f.sum raw mask
        let s1 := s0.setPay { s0.die.pay with descs := s0.die.pay.descs.map fun e => if e.idx = desc then d else e }
        let s2 := if fault then (s1.bump .sc Rg.SPAY_SRC_FAULT_CNT).payInt 0 else s1
        let o := s2.arriveAt d.ref d.q 0 d.q (s2.ht .sc % 2 ^ 48) d.epoch false (some body)
        if o.1 = 0 then .next (((o.2.2.qLast d.q d.handle d.epoch).answer false d.q d.tag 0))
        else .next (o.2.2.rejectDesc d o.1)

/-! Closes and results (R244, R258). -/

/-- The closes whose body is whole take it, if its element area agrees with RESULT_RESIDUE; a result that fails is asked for once more and is
lost if it fails again (R264). -/
def State.takeResult (n job seq : Nat) (s : State) : State :=
  match s.rxBody .sc n 2 job seq with
  | none => s
  | some r =>
    if !r.whole || !(s.die.pay.closes.any fun c => c.job == job && c.seq == seq && c.body.isNone && !c.lost) then s
    else
      let mark := fun (f : CloseIn → CloseIn) (t : State) => t.setPay { t.die.pay with closes := t.die.pay.closes.map fun c => if c.job = job && c.seq = seq then f c else c }
      if r.body.areaResidue = r.body.sum.residue then (mark (fun c => { c with body := some r.body }) s).dropRx .sc n 2 job seq
      else if r.retried then (mark (fun c => { c with lost := true }) s).dropRx .sc n 2 job seq
      else (s.modRx .sc n 2 job seq fun x => { x with words := 0, total := none, retried := true, requests := 0 }).requestBody .sc n 2 job seq

/-- A result's close is lost (R264). -/
def State.loseResult (job seq : Nat) (s : State) : State :=
  s.setPay { s.die.pay with closes := s.die.pay.closes.map fun c => if c.job = job && c.seq = seq && c.body.isNone then { c with lost := true } else c }

/-- CLOSE_AT_DIE (R244, R258): a close notice from a port. One at or before the last sequence is the second copy of a dual-homed package; a lead
die passes it on to the member dies of its package; a sequence that is not the next sets CLOSE_GAP. -/
def execCloseAtDie (n job bucket seq epoch contrib hash flags : Nat) (s : State) : Host.Outcome State Fault Refusal :=
  let w : CtlWord := { job := job, body := .close bucket seq epoch contrib flags hash }
  let s0 := s.setUnit .sc { s.sc with inbox := s.sc.inbox.erase (n, w) }
  let last := s.get .sc (Rg.SJH_CLOSE_SEQ job)
  if (s.hallCtx job).isNone && !s.isLead then .next s0.staleCount
  else if sdiff 32 seq last ≤ 0 then .next s0
  else
    let s1 := if s.isLead then (otherDies (SMap.get 0 job s.die.sync.pkgMembers)).foldl (fun t d => t.toDie d w) s0 else s0
    let gap := seq != (last + 1) % 2 ^ 32
    let s2 := s1.put .sc (Rg.SJH_CLOSE_SEQ job) seq
    let s3 := if gap then ((s2.put .sc (Rg.SJH_CLOSE_GAP job) 1).raise .sc Rg.ALERT_CLOSE_GAP).record .sc
        { kind := 0x12, arg := (last + 1) % 2 ^ 24, job := job } else s2
    let d := s3.die.pay.descs.find? fun d => d.job == job && d.epoch == epoch && (d.reading || d.bucket == bucket)
    match d with
    | none =>
      let wait := s3.isLead && otherDies (SMap.get 0 job s3.die.sync.pkgMembers) != [] && !(match s3.rxBody .sc n 2 job seq with
        | some r => r.whole
        | none => false)
      .next (if wait then s3.nameBody .sc n 2 job seq else s3.dropRx .sc n 2 job seq)
    | some _ =>
      let c : CloseIn := { job := job, seq := seq, bucket := bucket, epoch := epoch, contrib := contrib, hash := hash, flags := flags }
      let s4 := s3.setPay { s3.die.pay with closes := s3.die.pay.closes ++ [c] }
      .next ((s4.nameBody .sc n 2 job seq).takeResult n job seq)

/-! The checker (R276 to R279). -/

/-- The comparison (R278): it runs once both values are valid. -/
def State.chkCompare (s : State) : State :=
  if !(s.flag .sc Rg.CHK_EXP_VALID && s.flag .sc Rg.CHK_FINAL_VALID) then s
  else
    let fin := s.get .sc Rg.CHK_FINAL_LO + 2 ^ 32 * s.get .sc Rg.CHK_FINAL_HI
    let exp := s.get .sc Rg.CHK_EXPECT_LO + 2 ^ 32 * s.get .sc Rg.CHK_EXPECT_HI
    let s1 := (((s.put .sc Rg.CHK_EXP_VALID 0).put .sc Rg.CHK_FINAL_VALID 0).bump .sc Rg.CHK_COMPARES).payInt 3
    if fin = exp then s1.put .sc Rg.CHK_MATCH 1
    else ((((s1.put .sc Rg.CHK_MISMATCH 1).bump .sc Rg.CHK_MISMATCH_CNT).record .sc
      { kind := 0x13, obj := s.get .sc Rg.CHK_EXP_BUCKET, conts := [fin, exp], job := s.get .sc Rg.CHK_EXP_JOB })).payInt 2

/-- The expected value becomes valid (R278). -/
def State.chkExpect (v : Nat) (s : State) : State :=
  (((s.put .sc Rg.CHK_EXPECT_LO v).put .sc Rg.CHK_EXPECT_HI (v / 2 ^ 32)).put .sc Rg.CHK_EXP_VALID 1).chkCompare

/-- One element into the running value (R277). -/
def chkAdd (signed : Bool) (w v x : Nat) : Nat :=
  if signed && bit x (w - 1) then (v + (resMod - (2 ^ w - x) % resMod)) % resMod else (v + x) % resMod

/-- The elements of a beat (R276): those with an enabled byte, the bytes not enabled zero; how many were partly enabled. -/
def chkElems (bytes data keep : Nat) : List Nat × Nat :=
  let is := (List.range (32 / bytes)).map fun i => (bits keep (bytes * i) bytes, bits data (8 * bytes * i) (8 * bytes))
  let val := fun e : Nat × Nat => (List.range bytes).foldl (fun a b => if bit e.1 b then a + bits e.2 (8 * b) 8 * 2 ^ (8 * b) else a) 0
  ((is.filter fun e => e.1 != 0).map val, (is.filter fun e => e.1 != 0 && e.1 != 2 ^ bytes - 1).length)

/-- CHECKER_BEAT (R276, R277): a stream beat is accepted while no FINAL waits for its comparison; CHK_LAST latches FINAL. -/
def execCheckerBeat (data keep : Nat) (last : Bool) (s : State) : Host.Outcome State Fault Refusal :=
  if !s.die.checker || !s.die.running || s.flag .sc Rg.CHK_FINAL_VALID then .next s
  else
    let bytes := 2 ^ s.get .sc Rg.CHK_WIDTH
    let es := chkElems bytes data keep
    let v := es.1.foldl (fun a x => chkAdd (s.flag .sc Rg.CHK_SIGNED) (8 * bytes) a x) s.die.pay.chk
    let s1 := s.bump .sc Rg.CHK_KEEP_ERR es.2
    if !last then .next (s1.setPay { s1.die.pay with chk := v })
    else
      let s2 := s1.setPay { s1.die.pay with chk := if s.flag .sc Rg.CHK_AUTO_CLEAR then 0 else v }
      .next ((((s2.put .sc Rg.CHK_FINAL_LO v).put .sc Rg.CHK_FINAL_HI (v / 2 ^ 32)).put .sc Rg.CHK_FINAL_VALID 1).chkCompare)

/-- RESULT_WRITE_DONE (R258, R259): the oldest matched close of a job, its result checked, is written to DST and its status record to STATUS, or
LOST is written; then the slot's DONE is applied. -/
def execResultWriteDone (job seq : Nat) (s : State) : Host.Outcome State Fault Refusal :=
  match s.die.pay.closes.find? fun c => c.job == job with
  | none => .next s
  | some c =>
    if c.seq != seq || (c.body.isNone && !c.lost) then .next s
    else
      let s1 := s.setPay { s.die.pay with closes := s.die.pay.closes.filter fun e => !(e.job == job && e.seq == seq) }
      match s1.die.pay.descs.find? fun d => d.job == job && d.bucket == c.bucket && d.epoch == c.epoch && !d.reading with
      | none => .next s1
      | some d =>
        let done := (s.die.pay.held.find? fun h => h.ref == d.ref && h.epoch == c.epoch).map (·.flags)
        let sum : Summary := { contrib := c.contrib, pflags := c.flags, hash := c.hash, residue := match c.body with
          | some b => b.sum.residue
          | none => 0 }
        match c.body with
        | some b =>
          let s2 := if d.dst = 0 then s1 else s1.dmaWrite .sc d.dst b.resultBytes
          let s3 := s2.endDesc d 0 seq sum (done.getD 0)
          let s4 := if b.sum.op = 7 && s3.flag .sc Rg.CHK_EXP_SRC && s3.get .sc Rg.CHK_EXP_JOB = job && s3.get .sc Rg.CHK_EXP_BUCKET = c.bucket then
              s3.chkExpect (b.elems.getD 0 0) else s3
          .next (s4.doneHeld d.ref)
        | none => .next (((s1.endDesc d 3 seq sum (done.getD 0)).countLost).doneHeld d.ref)

/-! The checker's registers (R278, R279), as the slate writes and reads them. -/

/-- A write of VALUE_HI loads the running value: the high bits written over VALUE_LO as last written. R279 has software wait for FINAL_VALID = 0 before a switch
and states no case for a write before that, so such a write is ignored and sets ALERT.RSVD_WRITE (R13). -/
def State.chkLoad (hi : Nat) (s : State) : State :=
  if s.flag .sc Rg.CHK_FINAL_VALID then s.rsvd .sc
  else s.setPay { s.die.pay with chk := (s.get .sc Rg.CHK_VALUE_LO + 2 ^ 32 * (hi % 2 ^ 29)) % resMod }

end Sys2Proof.Machine
end

