-- ==== Sys2Proof/Machine/Measure.lean ====
section
/-! DEFINITION. Time-interval measurement and mains sensing (chapter 4): stamps, queues and rings, gate fits, calibration of the
standby TDCs, mains frequency, angle and rate of change. -/

namespace Sys2Proof.Machine

open Sys2Proof

/-! Arithmetic of the fit (R95, R96). -/

/-- One bit of a square root, from the bit `b` down: `r` is the root so far. -/
def sqrtBits : Nat → Nat → Nat → Nat
  | 0, _, r => r
  | b + 1, v, r => if (r + 2 ^ b) * (r + 2 ^ b) ≤ v then sqrtBits b v (r + 2 ^ b) else sqrtBits b v r

/-- The integer square root of a number below 2^256. -/
def isqrt (v : Nat) : Nat := sqrtBits 128 v 0

/-- A fit whose anchor is this stamp. -/
def Fit.startAt (t : Nat) (excluded : Nat) (re : Bool) : Fit :=
  { anchor := some t, lastT := t, n := 1, excluded := excluded, reanchored := re }

/-- A stamp accepted with an index. The spec gives the sums 128 bits and no rule for their overflow: here they are unbounded (log entry 78). -/
def Fit.accept (pnom t k : Nat) (f : Fit) : Fit :=
  let x := f.x + k
  let e : Int := ((t : Int) - (f.anchor.getD t : Nat)) - (x * pnom * nsLsb : Nat)
  { f with lastT := t, x := x, n := f.n + 1, sx := f.sx + x, sxx := f.sxx + x * x, se := f.se + e, sxe := f.sxe + x * e, see := f.see + e * e, exclRun := 0 }

/-- One stamp placed on the nominal grid (R95). -/
def Fit.place (pnom t : Nat) (f : Fit) : Fit :=
  match f.anchor with
  | none => Fit.startAt t f.excluded f.reanchored
  | some _ =>
    let p : Int := (pnom * nsLsb : Nat)
    let d : Int := (t : Int) - f.lastT
    let k := (2 * d + p) / (2 * p)
    if k ≤ 0 || decide (p < 4 * ((d - k * p).natAbs : Int)) then
      if f.exclRun = 7 then Fit.startAt t (f.excluded + 1 + f.n) true
      else { f with exclRun := f.exclRun + 1, excluded := f.excluded + 1 }
    else f.accept pnom t k.toNat

/-- What a gate publishes (R96): b in 2^-32 ns a period, FIT_T in 2^-16 ns, the residual in 0.1 ps. -/
structure FitOut where
  b : Int
  fitT : Int
  resid : Nat
  deriving DecidableEq, Repr

/-- The least-squares result of R96; at least three accepted stamps are needed. -/
def Fit.out (pnom : Nat) (f : Fit) : Option FitOut :=
  if f.n < 3 then none
  else
    let n : Int := f.n
    let den : Int := n * f.sxx - f.sx * f.sx
    let b := roundDiv ((n * f.sxe - f.sx * f.se) * 65536) den
    let a := f.se * 65536 - b * f.sx
    let dev := roundDiv (a + b * n * f.x) (n * 65536)
    let v : Int := (f.see * n * 65536 - a * f.se - b * n * f.sxe) * 4 * 100000000
    let w := (v / (n * 65536 * (n - 2) * 4294967296)).toNat
    some { b := b, fitT := (f.anchor.getD 0 : Nat) + (f.x * pnom * nsLsb : Nat) + dev, resid := (isqrt w + 1) / 2 }

/-! Channels. -/

/-- A channel. -/
def State.tdc (n : Nat) (s : State) : TdcCh := SMap.get {} n s.dist.tdc

/-- The state with a channel replaced; QUEUE_LEVEL follows. -/
def State.setTdc (n : Nat) (c : TdcCh) (s : State) : State :=
  (s.setDist { s.dist with tdc := SMap.set n c s.dist.tdc }).put .fd (Rg.TDC_QUEUE_LEVEL n) c.queue.length

/-- The part has the channels and mains inputs (R3). -/
def State.has2880 (s : State) : Bool := s.dist.variant = .vxd2880

/-- JOINED, UNALIGNED and the physical TDC, as bits 97 to 99 of a record hold them. -/
def State.stampFlags (n : Nat) (s : State) : Nat :=
  s.get .fd Rg.HT_JOINED + 2 * s.get .fd Rg.HT_UNALIGNED + 4 * s.get .fd (Rg.TDC_ACTIVE_TDC n)

/-- A 16-byte record as 128 bits (R91). -/
def stampWord (lo frac code ch kind edge flags seq : Nat) : Nat :=
  lo % 2 ^ 64 + 2 ^ 64 * (frac % 2 ^ 16) + 2 ^ 80 * (code % 2 ^ 8) + 2 ^ 88 * (ch % 2 ^ 6) + 2 ^ 94 * (kind % 4) + 2 ^ 96 * (edge % 2)
    + 2 ^ 97 * (flags % 8) + 2 ^ 104 * (seq % 2 ^ 24)

/-- A waiting record in its final form: LOST_COUNT saturates (R91). -/
def PendRec.word (n : Nat) (r : PendRec) : Nat :=
  match r.raw with
  | some w => w
  | none => stampWord r.ns (sat 24 r.lost % 2 ^ 16) (sat 24 r.lost / 2 ^ 16) n 1 r.cause r.flags r.seq

/-- Records that wait enter the queue while it has a slot for them (R92): the last slot is a GAP record's. -/
def flushPend (n : Nat) : List PendRec → List Nat → List PendRec × List Nat
  | [], q => ([], q)
  | r :: t, q => if q.length < (if r.raw.isSome then 4095 else 4096) then flushPend n t (q ++ [r.word n]) else (r :: t, q)

/-- A lost edge joins the run of its cause or starts one (R92). -/
def addLost (cause ns seq flags : Nat) : List PendRec → List PendRec
  | [] => [{ cause := cause, ns := ns, lost := 1, seq := seq, flags := flags }]
  | [r] =>
    if r.raw.isNone && r.cause = cause then [{ r with lost := r.lost + 1 }]
    else [r, { cause := cause, ns := ns, lost := 1, seq := seq, flags := flags }]
  | r :: t => r :: addLost cause ns seq flags t

/-- A queued record is the GAP record of a run of a cause. -/
def isGap (cause w : Nat) : Bool := bits w 94 2 == 1 && bits w 96 1 == cause

/-- A queued GAP record with one more lost edge (R91). -/
def moreLost (w : Nat) : Nat :=
  let k := sat 24 (bits w 64 24 + 1)
  w - 2 ^ 64 * bits w 64 24 + 2 ^ 64 * k

/-- A lost edge reported (R92): it joins an unbroken run of its cause, whose GAP record may stand at the queue's end; the record enters as soon as a slot is free. -/
def reportLost (n cause ns seq flags : Nat) (pend : List PendRec) (queue : List Nat) : List PendRec × List Nat :=
  match pend, queue.getLast? with
  | [], some w =>
    if isGap cause w then ([], queue.dropLast ++ [moreLost w]) else flushPend n (addLost cause ns seq flags []) queue
  | _, _ => flushPend n (addLost cause ns seq flags pend) queue

/-- The end of the gate in progress, an HT integer (R94). -/
def TdcCh.gateEndNs (c : TdcCh) : Nat := (c.gateFrom / (c.gateLen * 1000000) + 1) * (c.gateLen * 1000000)

/-- The gate in progress is published (R96, R97); a result that is not valid leaves PERIOD, FIT_T and RESID_RMS. P_NOM_NS written within the gate: the spec says nothing; the
result is formed with the value the register then holds, over the sums taken with the one before (log entry 78). -/
def State.tdcPublish (n : Nat) (valid : Bool) (s : State) : State :=
  let c := s.tdc n
  let f := c.fit
  let pnom := s.get .fd (Rg.TDC_P_NOM_NS n)
  let s1 := ((s.put .fd (Rg.TRES_N n) f.n).put .fd (Rg.TRES_N_HI n) (f.n / 2 ^ 32)).put .fd (Rg.TRES_EXCLUDED n) (sat 32 f.excluded)
  let s2 := ((s1.putFlag .fd (Rg.TRES_PARTIAL n) c.gatePartial).putFlag .fd (Rg.TRES_REANCHOR_IN_GATE n) f.reanchored).putFlag .fd
    (Rg.TRES_SWAP_IN_GATE n) c.swapIn
  let s3 := s2.putFlag .fd (Rg.TRES_JOINED_BASE n) (s.flag .fd Rg.HT_JOINED)
  let s4 := match (if valid then f.out pnom else none) with
    | none => s3.put .fd (Rg.TRES_VALID n) 0
    | some o =>
      let per : Nat := ((pnom * 2 ^ 32 : Nat) + o.b).toNat
      let t := o.fitT.toNat
      (((((((s3.put .fd (Rg.TRES_VALID n) 1).put .fd (Rg.TRES_PERIOD_NS n) (per / 2 ^ 32)).put .fd (Rg.TRES_PERIOD_FRAC n) per).put .fd
        (Rg.TRES_FIT_T_LO n) (t / nsLsb)).put .fd (Rg.TRES_FIT_T_HI n) (t / nsLsb / 2 ^ 32)).put .fd (Rg.TRES_FIT_T_FRAC n) t).put .fd
        (Rg.TRES_RESID_RMS n) (sat 32 o.resid))
  s4.put .fd (Rg.TRES_GATE_SEQ n) (s.get .fd (Rg.TRES_GATE_SEQ n) + 1)

/-- The next gate begins at an HT integer; a new GATE_MS takes effect here, and the gate that follows a change is PARTIAL (R94). -/
def State.tdcNextGate (n at_ : Nat) (changeable : Bool) (s : State) : State :=
  let c := s.tdc n
  let len := s.get .fd (Rg.TDC_GATE_MS n)
  s.setTdc n { c with fit := {}, gateFrom := at_, gateLen := len, gatePartial := changeable && len != c.gateLen, swapIn := false }

/-- Gates run on a channel. -/
def State.tdcGating (n : Nat) (s : State) : Bool :=
  s.has2880 && decide (n < 32) && s.flag .fd (Rg.TDC_ENABLE n) && s.flag .fd (Rg.TDC_REGRESS_EN n)

/-- Gates without a stamp that ended up to an HT integer are published, each with VALID = 0; the last leaves what the registers show. -/
def State.tdcSkip (n ns : Nat) (s : State) : State :=
  let c := s.tdc n
  if c.gateLen = 0 || ns < c.gateEndNs then s
  else
    let s1 := s.tdcPublish n true
    let len := s1.get .fd (Rg.TDC_GATE_MS n) * 1000000
    let more := (ns - c.gateEndNs) / len
    let s2 := if more = 0 then s1.tdcNextGate n c.gateEndNs true
      else ((s1.tdcNextGate n c.gateEndNs true).tdcPublish n true).tdcNextGate n (ns / len * len) false
    s2.put .fd (Rg.TRES_GATE_SEQ n) (s.get .fd (Rg.TRES_GATE_SEQ n) + 1 + more)

/-- The gates that an HT integer has left end, and it lies in the gate in progress (R94). -/
def State.tdcCatchUp (n ns : Nat) (s : State) : State :=
  let c := s.tdc n
  if !s.tdcGating n then s
  else if c.gateLen = 0 then s.tdcNextGate n ns false
  else if c.gateEndNs ≤ ns then ((s.tdcPublish n true).tdcNextGate n c.gateEndNs true).tdcSkip n ns
  else s

/-- A stamp of the counter before a load as the counter after it would have given it. -/
def shiftStamp (old new t : Nat) : Nat := ((t : Int) + new - old).toNat

/-- The unit joins or forms (R94): every gate in progress is published with VALID = 0 and gates restart on the new HT; the last stamps move with the counter, which stood at
`old`. -/
def State.tdcRebase (old : Nat) (oldJoined : Bool) (s : State) : State :=
  (List.range 32).foldl (fun t n =>
    let c := t.tdc n
    let t0 := if c.lastStamp.isNone then t
      else t.setTdc n { c with lastStamp := c.lastStamp.map (shiftStamp old (s.ht .fd)), busyUntil := shiftStamp old (s.ht .fd) c.busyUntil }
    if t0.tdcGating n && (t0.tdc n).gateLen != 0 then ((t0.tdcPublish n false).putFlag .fd (Rg.TRES_JOINED_BASE n) oldJoined).tdcNextGate n (t0.htNs .fd) false
    else t0) s

/-- A lost edge (R89, R92): MISS counts in MISS_CNT, OVF in OVF_CNT; with a queue it joins a gap. -/
def State.tdcLost (n cause ns : Nat) (s : State) : State :=
  let c := s.tdc n
  let s1 := if cause = 1 then (s.bump .fd (Rg.TDC_MISS_CNT n)).put .fd (Rg.TDC_MISS n) 1
    else (s.bump .fd (Rg.TDC_OVF_CNT n)).put .fd (Rg.TDC_OVF n) 1
  let pq := reportLost n cause ns c.seq (s.stampFlags n) c.pend c.queue
  if s.get .fd (Rg.TDC_Q_MODE n) = 1 then s1.setTdc n { c with pend := pq.1, queue := pq.2 } else s1

/-- A stamp enters the queue, behind what waits; with 4,095 records held it is not queued (R92). -/
def State.tdcEnqueue (n stamp code edge : Nat) (s : State) : State :=
  if s.get .fd (Rg.TDC_Q_MODE n) != 1 then s
  else
    let c := s.tdc n
    let pq := flushPend n c.pend c.queue
    if pq.1.isEmpty && decide (pq.2.length < 4095) then
      s.setTdc n { c with pend := [], queue := pq.2 ++ [stampWord (stamp / nsLsb) stamp code n 0 edge (s.stampFlags n) c.seq] }
    else (s.setTdc n { c with pend := pq.1, queue := pq.2 }).tdcLost n 0 (stamp / nsLsb)

/-- The selected edge of EDGE_SEL. -/
def edgeTaken (sel : Nat) (rising : Bool) : Bool := sel == 2 || (sel == 0 && rising) || (sel == 1 && !rising)

/-- The front buffer holds 16 stamps at a stamp's time: stamps leave it at 50 M a second (R87, R89). -/
def TdcCh.frontFull (stamp : Nat) (c : TdcCh) : Bool := decide (stamp + 15 * (20 * nsLsb) < c.busyUntil)

/-- A SWAP record that is owed goes ahead of the stamp of this edge (R91, R99). -/
def State.tdcSwapRec (n stamp : Nat) (s : State) : State :=
  let c := s.tdc n
  match c.pair.owed with
  | none => s
  | some checked =>
    let w := stampWord (stamp / nsLsb) stamp 0 n 2 (ofBool checked) (s.stampFlags n) c.seq
    s.setTdc n { c with pair := { c.pair with owed := none }, pend := if s.get .fd (Rg.TDC_Q_MODE n) = 1 then c.pend ++ [{ raw := some w }] else c.pend }

/-- The edge comes within the 2.4 ns dead time of the last stamped one (R89). -/
def TdcCh.dead (stamp : Nat) (c : TdcCh) : Bool :=
  match c.lastStamp with
  | some t => decide (t ≤ stamp) && decide (10 * (stamp - t) < 24 * nsLsb)
  | none => false

/-- An edge stamped (R88, R92, R95, R99): the pair takes it, its gate is the one in which the stamp lies, it enters queue and fit. Each re-anchoring sets REANCHOR. -/
def State.tdcStamp (n : Nat) (rising : Bool) (stamp bin : Nat) (q : TdcPair) (s : State) : State :=
  let s1 := ((s.tdcCatchUp n (stamp / nsLsb)).pairNow (.channel n) q).tdcSwapRec n stamp
  let s2 := s1.tdcEnqueue n stamp bin (ofBool rising)
  let c := s2.tdc n
  let f := if s2.tdcGating n then c.fit.place (s2.get .fd (Rg.TDC_P_NOM_NS n)) stamp else c.fit
  let s3 := s2.setTdc n { c with seq := (c.seq + 1) % 2 ^ 24, lastStamp := some stamp, busyUntil := max c.busyUntil stamp + 20 * nsLsb, fit := f }
  if c.fit.exclRun = 7 && f.exclRun = 0 && f.n = 1 then s3.put .fd (Rg.TDC_REANCHOR n) 1 else s3

/-- TDC_EDGE (R88, R89, R92, R95, R99): an edge on a channel's source `src`, as SOURCE numbers them, found at bin `bin` of the coarse clock period that begins at HT80 `coarse`.
The selected edge of an enabled channel is stamped, fitted and queued, or counted as a miss within the 2.4 ns dead time or while the front buffer is full. `twin` is the
twin's difference in fs where both stamped. -/
def execTdcEdge (n src coarse : Nat) (rising : Bool) (bin : Nat) (twin : Option Int) (s : State) : Host.Outcome State Fault Refusal :=
  .next (if !(s.has2880 && decide (n < 32) && s.flag .fd (Rg.TDC_ENABLE n) && s.get .fd (Rg.TDC_SOURCE n) == src && edgeTaken (s.get .fd (Rg.TDC_EDGE_SEL n)) rising) then s
    else
      let c := s.tdc n
      let trim := s.trim .fd (trimTdc n)
      let seen := c.pair.stamp coarse bin trim
      if c.dead seen || c.frontFull seen then
        let s1 := s.tdcLost n 1 (seen / nsLsb)
        s1.setTdc n { (s1.tdc n) with seq := (c.seq + 1) % 2 ^ 24 }
      else
        let q := c.pair.edge s.now twin
        s.tdcStamp n rising (q.stamp coarse bin trim) bin q)

/-- TDC_GAP_QUEUE (R92): what waits enters the queue once a slot is free. -/
def execTdcGapQueue (n : Nat) (s : State) : Host.Outcome State Fault Refusal :=
  let c := s.tdc n
  let pq := flushPend n c.pend c.queue
  .next (if decide (n < 32) && !c.pend.isEmpty then s.setTdc n { c with pend := pq.1, queue := pq.2 } else s)

/-- TDC_GATE_END (R94, R96, R97). -/
def execTdcGateEnd (n : Nat) (s : State) : Host.Outcome State Fault Refusal := .next (s.tdcCatchUp n (s.htNs .fd))

/-- One record moved from the queue to its slot of the host ring (R93). -/
def State.tdcMove (n : Nat) (s : State) : State :=
  let c := s.tdc n
  match c.queue with
  | [] => s
  | w :: t =>
    if c.wr - c.rd < 2 ^ c.ringLog2 then
      (s.dmaWrite .fd (c.ringBase + 16 * (c.wr % 2 ^ c.ringLog2)) (leBytes 16 w)).setTdc n { c with queue := t, wr := (c.wr + 1) % 2 ^ 64 }
    else s

/-- A channel has a record that may move (R93). -/
def State.tdcMovable (n : Nat) (s : State) : Bool :=
  let c := s.tdc n
  s.get .fd (Rg.TDC_Q_MODE n) == 1 && c.ringLog2 != 0 && !c.queue.isEmpty && decide (c.wr - c.rd < 2 ^ c.ringLog2)

/-- Up to `k` records moved, the channels served in turn (R93). -/
def State.tdcMoves : Nat → State → State
  | 0, s => s
  | k + 1, s => match (List.range 32).find? fun i => s.tdcMovable ((s.dist.tdcTurn + i) % 32) with
    | none => s
    | some i =>
      let n := (s.dist.tdcTurn + i) % 32
      let t := s.tdcMove n
      (t.setDist { t.dist with tdcTurn := (n + 1) % 32 }).tdcMoves k

/-- The write index of every ring that has moved goes to its write-back address (R93). -/
def State.tdcWriteBack (before s : State) : State :=
  (List.range 32).foldl (fun (t : State) n => if (t.tdc n).wr = (before.tdc n).wr then t else t.dmaWrite .fd (t.tdc n).ringWb (leBytes 8 (t.tdc n).wr)) s

/-- TDC_DMA (R93): up to `records` records move from the queues to the host rings, in queue order and the channels in turn, never to a slot the host has not released, and the
write indexes are written back. The budget of 400 M a second is 4,000 in the 10 µs within which a write index is written. -/
def execTdcDma (records : Nat) (s : State) : Host.Outcome State Fault Refusal :=
  .next (if s.has2880 then State.tdcWriteBack s (s.tdcMoves (min records 4000)) else s)

/-- The host's read index (R93), a 24-bit serial count, releases the slots before it. An index earlier than the present one releases none, one past the write index all that are
written: the spec says nothing of either (log entry 79). -/
def State.tdcRelease (n : Nat) (value : Nat) (s : State) : State :=
  let c := s.tdc n
  let ahead := sdiff 24 value c.rd
  (s.setTdc n { c with rd := if ahead < 0 then c.rd else min c.wr (c.rd + ahead.toNat) }).put .fd (Rg.TDC_RDIDX n) value

/-- A channel's ENABLE, REGRESS_EN or Q_MODE has been written (R92, R94, R97): a channel switched off publishes its gate with
VALID = 0, a channel switched on starts its first gate, Q_MODE = 0 empties the queue. The spec says so of ENABLE alone; REGRESS_EN = 0 does the same here (log entry 78). -/
def State.tdcCtrlWritten (n : Nat) (s before : State) : State :=
  let s1 := if before.tdcGating n && !s.tdcGating n then
      let t := s.tdcPublish n false
      t.setTdc n { (t.tdc n) with fit := {}, gateLen := 0 }
    else if !before.tdcGating n && s.tdcGating n then s.tdcNextGate n (s.htNs .fd) false
    else s
  if s1.get .fd (Rg.TDC_Q_MODE n) = 0 then s1.setTdc n { (s1.tdc n) with queue := [], pend := [] } else s1

/-- TDC_RING_SET (R93, R109). -/
def execTdcRingSet (m : MbGo) (s : State) : Host.Outcome State Fault Refusal :=
  .next (s.mailbox m 0x0B (s.own2880 m.part 1) [1, 8, 1, 8] none fun a t =>
    let n := a.getD 0 0
    let lg := a.getD 2 0
    if 31 < n || a.getD 1 0 % 4096 != 0 || lg < 12 || 24 < lg || a.getD 3 0 % 64 != 0 then (.badArg, t)
    else if t.get .fd (Rg.TDC_Q_MODE n) = 1 then (.refuse, t)
    else
      let t1 := t.setTdc n { (t.tdc n) with ringBase := a.getD 1 0, ringLog2 := lg, ringWb := a.getD 3 0, wr := 0, rd := 0 }
      (.ok [], t1.put .fd (Rg.TDC_RDIDX n) 0))

/-- TDC_CAL_NOW (R98, R100, R109): refused, for all, where a masked channel has failed twice in a row. -/
def execTdcCalNow (m : MbGo) (s : State) : Host.Outcome State Fault Refusal :=
  .next (s.mailbox m 0x0C (s.own2880 m.part 1) [4] none fun a t =>
    let ns := setBits 32 (a.getD 0 0)
    if ns.any fun n => decide (2 ≤ (t.tdc n).pair.fails) then (.refuse, t)
    else (.ok [], ns.foldl (fun (u : State) n => u.pairCal (.channel n)) t))

/-- TDC_CAL_READ (R109): 128 widths of w = 800 ps · h / M, in 0.001 ps, 16 bits each. -/
def execTdcCalRead (m : MbGo) (s : State) : Host.Outcome State Fault Refusal :=
  .next (s.mailbox m 0x0D (s.own2880 m.part 1) [1, 1, 1] none fun a t =>
    let n := a.getD 0 0
    if 31 < n || 1 < a.getD 1 0 || 1 < a.getD 2 0 then (.badArg, t)
    else
      let tab := if a.getD 1 0 = 0 then (t.tdc n).pair.main else (t.tdc n).pair.twin
      (.bytes (((tab.drop (128 * a.getD 2 0)).take 128).map fun h => leBytes 2 ((2 * 800000 * h + 1048576) / 2097152)).flatten, t))

/-- CAL_STALE (R100): the main's table is older than twice CAL_PERIOD_S, counted from when it was taken. -/
def execCalStale (n : Nat) (s : State) : Host.Outcome State Fault Refusal :=
  if s.has2880 && decide (n < 32) then
    .next ((s.awaitNow ((s.tdc n).pair.mainNow + 2 * s.get .fd (Rg.TDC_CAL_PERIOD_S n) * 1000000000 + 1)).put .fd (Rg.TDC_CAL_STALE n) 1)
  else .next s

/-! Mains (R101 to R107). -/

/-- The nominal period in ns (R102). -/
def State.mainsNom (s : State) : Nat := if s.flag .fd Rg.MNS_NOM then 16666667 else 20000000

/-- The nominal frequency in µHz. -/
def State.mainsNomUhz (s : State) : Nat := if s.flag .fd Rg.MNS_NOM then 60000000 else 50000000

/-- The state with mains sensing replaced. -/
def State.setMains (m : MainsSt) (s : State) : State := s.setDist { s.dist with mains := m }

/-- A MAINS_EVENT record (R106, R296). -/
def State.mainsEvent (ev : Nat) (s : State) : State :=
  s.record .fd { kind := 0x23, arg := Config.eventCode 0x23 ev % 256, hallwide := true }

/-- A MAINS_EVENT record of an edge stamped at an HT integer (R106). -/
def State.mainsEventAt (ns ev : Nat) (s : State) : State :=
  s.recordAt .fd (ns % 2 ^ 32) { kind := 0x23, arg := Config.eventCode 0x23 ev % 256, hallwide := true }

/-- A stamp at the coarse resolution of 0.8 ns (R101, R106): the last whole multiple of it. -/
def coarseStamp (t : Nat) : Nat := t * 5 / (4 * nsLsb) * (4 * nsLsb) / 5

/-- A phase's result in a gate: frequency in µHz and fit, where valid (R102). -/
def State.phaseOut (p : Nat) (s : State) : Option (Nat × FitOut) :=
  if !bit (s.get .fd Rg.MNS_ZC_EN) p then none
  else match Fit.out s.mainsNom (SMap.get {} p s.dist.mains.fits) with
    | none => none
    | some o =>
      let per : Int := (s.mainsNom * 2 ^ 32 : Nat) + o.b
      if per ≤ 0 then none
      else
        let f := (roundDiv ((10 ^ 15 * 2 ^ 32 : Nat) : Int) per).toNat
        if decide (10 * ((f : Int) - s.mainsNomUhz).natAbs ≤ s.mainsNomUhz) then some (f, o) else none

/-- The rounded mean of numbers. -/
def meanOf (l : List Nat) : Nat := (2 * l.foldl (· + ·) 0 + l.length) / (2 * l.length)

/-- A feed's frequency, where it is valid (R103). -/
def feedFreq (fs : List Nat) : Option Nat :=
  if fs.length < 2 then none
  else if fs.foldl max 0 - fs.foldl min (fs.getD 0 0) ≤ 10000 then some (meanOf fs) else none

/-- The mains frequency by FEED_SEL (R103). -/
def selectFeed (sel : Nat) (a b : Option Nat) : Option Nat :=
  if sel = 0 then a else if sel = 1 then b
  else match a, b with
    | some x, some y => some (meanOf [x, y])
    | some x, none => some x
    | none, y => y

/-- The angle of a phase against the reference in 0.001°, in −180,000 < a ≤ 180,000 (R104). -/
def angleOf (t t0 per : Int) : Int :=
  let a := roundDiv (360000 * (t - t0) * 65536) per % 360000
  if 180000 < a then a - 360000 else a

/-- ROCOF in µHz/s over m gates (R105). -/
def rocofOf (m gate10 : Nat) (hist : List (Option Nat)) : Option Int :=
  let w := hist.take (m + 1)
  if w.length = m + 1 && w.all Option.isSome then
    some (roundDiv ((((w.getD 0 none).getD 0 : Nat) - ((w.getD m none).getD 0 : Nat) : Int) * 100) (m * gate10 : Nat))
  else none

/-- The end of the mains gate in progress, an HT integer (R102). -/
def MainsSt.gateEndNs (m : MainsSt) : Nat := (m.gateFrom / (m.gateLen * 10000000) + 1) * (m.gateLen * 10000000)

/-- The mains results of a gate (R102 to R107): `valid` is false for a gate that a join or formation cuts short. Where GATE_10MS changed within the gates of a ROCOF the spec says
nothing: m times the length of the gate that ended divides (log entry 78). -/
def State.mainsPublish (valid : Bool) (s : State) : State :=
  let m := s.dist.mains
  let outs := (List.range 6).map fun p => if valid then s.phaseOut p else none
  let fr := fun p : Nat => (outs.getD p none).map (·.1)
  let fa := feedFreq ([0, 1, 2].filterMap fr)
  let fb := feedFreq ([3, 4, 5].filterMap fr)
  let sel := selectFeed (s.get .fd Rg.MNS_FEED_SEL) fa fb
  let ref := (List.range 6).find? fun p => (outs.getD p none).isSome
  let hist := (sel :: m.hist).take 17
  let roc := rocofOf (s.get .fd Rg.MNS_ROCOF_GATES + 1) m.gateLen hist
  let s1 := (s.put .fd Rg.MNS_PHASE_VALID (maskOf 6 fun p => (outs.getD p none).isSome)).put .fd Rg.MNS_FEED_VALID (ofBool fa.isSome + 2 * ofBool fb.isSome)
  let s2 := (s1.putFlag .fd Rg.MNS_MAINS_VALID sel.isSome).putFlag .fd Rg.MNS_ROCOF_VALID roc.isSome
  let s3 := match sel with
    | some f => s2.put .fd Rg.MNS_FREQ f
    | none => s2
  let s4 := match roc with
    | some r => s3.putS .fd Rg.MNS_ROCOF r
    | none => s3
  let o0 := (outs.getD (ref.getD 0) none).map (·.2)
  let t0 : Int := (o0.map (·.fitT)).getD 0
  let per : Int := (s.mainsNom * 2 ^ 32 : Nat) + (o0.map (·.b)).getD 0
  let s5 := match ref with
    | none => s4
    | some p0 => ((s4.put .fd Rg.MNS_ANGLE_REF p0).put .fd Rg.MNS_T0_LO (t0.toNat / nsLsb)).put .fd Rg.MNS_T0_HI (t0.toNat / nsLsb / 2 ^ 32)
  let s6 := (List.range 6).foldl (fun (t : State) p => match outs.getD p none with
    | some (f, o) => (t.put .fd (Rg.MNS_FREQ_P p) f).putS .fd (Rg.MNS_ANGLE_P p) (angleOf o.fitT t0 per)
    | none => t.put .fd (Rg.MNS_ANGLE_P p) 0) s5
  let s7 := (s6.put .fd Rg.MNS_GATE_SEQ (s.get .fd Rg.MNS_GATE_SEQ + 1)).setMains { m with fits := [], hist := hist }
  let s8 := if sel.isSome != s.flag .fd Rg.MNS_MAINS_VALID then s7.mainsEvent (ofBool sel.isSome) else s7
  if roc.isSome != s.flag .fd Rg.MNS_ROCOF_VALID then s8.mainsEvent (2 + ofBool roc.isSome) else s8

/-- The next mains gate begins at an HT integer; a new GATE_10MS takes effect here (R94, R102). -/
def State.mainsNextGate (at_ : Nat) (s : State) : State := s.setMains { s.dist.mains with fits := [], gateFrom := at_, gateLen := s.get .fd Rg.MNS_GATE_10MS }

/-- The mains gates that an HT integer has left end (R94, R102): the one in progress with what it holds, and if more have gone by without a crossing one for them all, with GATE_SEQ
counting each. -/
def State.mainsCatchUp (ns : Nat) (s : State) : State :=
  let m := s.dist.mains
  if m.gateLen = 0 then s.mainsNextGate ns
  else if ns < m.gateEndNs then s
  else
    let s1 := (s.mainsPublish true).mainsNextGate m.gateEndNs
    let len := s.get .fd Rg.MNS_GATE_10MS * 10000000
    if ns < s1.dist.mains.gateEndNs then s1
    else
      let more := (ns - s1.dist.mains.gateEndNs) / len
      ((s1.mainsPublish true).mainsNextGate (ns / len * len)).put .fd Rg.MNS_GATE_SEQ (s.get .fd Rg.MNS_GATE_SEQ + 2 + more)

/-- The unit joins or forms (R94, R102): the mains gate in progress is published without a valid result, gates restart on the new HT, the last crossings move with the counter. -/
def State.mainsRebase (old : Nat) (s : State) : State :=
  let s0 := s.setMains { s.dist.mains with last := s.dist.mains.last.map fun e => (e.1, shiftStamp old (s.ht .fd) e.2) }
  if !s.has2880 || s.dist.mains.gateLen = 0 then s0 else (s0.mainsPublish false).mainsNextGate (s0.htNs .fd)

/-- What measurement does at a join or formation, the counter having stood at `old`. -/
def State.rebaseAll (old : Nat) (s : State) (oldJoined : Bool := false) : State := (s.tdcRebase old oldJoined).mainsRebase old

/-- MAINS_ZC_EDGE (R101, R102): a rising edge on an enabled input is stamped at 0.8 ns and fitted into the gate in which it lies, or rejected less than 40 % of the nominal
period after the last accepted one. `levels` are the levels of the six pins at the edge. -/
def execMainsZcEdge (p : Nat) (stamp : Nat) (levels : Nat) (s : State) : Host.Outcome State Fault Refusal :=
  if !s.has2880 then .next s
  else
    let s0 := s.put .fd Rg.PIN_MAINS_ZC levels
    if !(decide (p < 6) && bit (s.get .fd Rg.MNS_ZC_EN) p) then .next s0
    else
      let at_ := coarseStamp stamp
      let soon := match SMap.find p s.dist.mains.last with
        | some t => decide (t ≤ at_) && decide (10 * (at_ - t) < 4 * s.mainsNom * nsLsb)
        | none => false
      if soon then .next (s0.put .fd Rg.MNS_ZC_GLITCH 1)
      else
        let s1 := s0.mainsCatchUp (at_ / nsLsb)
        let m := s1.dist.mains
        .next (s1.setMains { m with last := SMap.set p at_ m.last, fits := SMap.set p (Fit.place s.mainsNom at_ (SMap.get {} p m.fits)) m.fits })

/-- MAINS_GATE_END (R102 to R107): phase frequencies, feeds, the selected frequency, angles and ROCOF are published together. With ZC_EN written to 0 the spec says nothing of gates: here
none ends any more, and the last results stand (log entry 78). -/
def execMainsGateEnd (s : State) : Host.Outcome State Fault Refusal :=
  .next (if !s.has2880 || s.get .fd Rg.MNS_ZC_EN == 0 then s
    else
      let m := s.dist.mains
      let s1 := if m.gateLen = 0 then s else s.awaitHt .fd m.gateEndNs
      s1.mainsCatchUp (s1.htNs .fd))

/-- MAINS_LINE_EDGE (R106): an edge of MAINS_SAG_N, or of MAINS_FREQ_ALM_N with `alarm`, whose new level then holds for `held` ns: one that holds for 1 µs is accepted, stamped at 0.8 ns
and recorded; both lines are asserted low. -/
def execMainsLineEdge (alarm level : Bool) (stamp held : Nat) (s : State) : Host.Outcome State Fault Refusal :=
  .next (if !s.has2880 || held < 1000 then s
    else
      let at_ := coarseStamp stamp / nsLsb
      if alarm then ((s.putFlag .fd Rg.PIN_MAINS_FREQ_ALM_N level).putFlag .fd Rg.MNS_FREQ_ALM (!level)).mainsEventAt at_ (4 + ofBool level)
      else ((s.putFlag .fd Rg.PIN_MAINS_SAG_N level).putFlag .fd Rg.MNS_SAG (!level)).mainsEventAt at_ (6 + ofBool level))

end Sys2Proof.Machine
end

