-- ==== Sys2Proof/Machine/HallCmds.lean ====
section
/-! DEFINITION. Hall barriers, bells, liveness and monitors at a distributor (R221, R225 to R245): the commands that words and timers
are. -/

namespace Sys2Proof.Machine

open Sys2Proof

/-- A word accepted from a port has been processed: its entry leaves the inbox. -/
def eraseFirst (e : Nat × CtlWord) : List (Nat × CtlWord) → List (Nat × CtlWord)
  | [] => []
  | x :: t => if x = e then t else x :: eraseFirst e t

/-- A word taken from a unit's inbox. -/
def State.takeWord (p : Part) (n : Nat) (w : CtlWord) (s : State) : State := s.setUnit p { s.unit p with inbox := eraseFirst (n, w) (s.unit p).inbox }

/-- A job's words are held until its tables are installed (R380): nothing of the job is processed at a mid or leaf before that. -/
def State.jobHeld (j : Nat) (s : State) : Bool := !s.isActiveRoot && s.role != 2 && !(s.job j).installed

/-- A word of a job at a distributor: taken from the inbox and processed, or held for the install (R380). -/
def State.onWord (n : Nat) (w : CtlWord) (f : State → State) (s : State) : State :=
  let s1 := s.takeWord .fd n w
  if !w.hallwide && s.jobHeld w.job then s1.setHall { s1.dist.hall with holdq := s1.dist.hall.holdq ++ [(n, w)] } else f s1

/-! Arrivals, withdrawals, DONE. -/

/-- ARRIVE_WORD (R224, R225): an ARRIVE from a downstream port. -/
def execArriveWord (n job hslot gen epoch src ht32 : Nat) (payload : Bool) (ptag : Nat) (s : State) : Host.Outcome State Fault Refusal :=
  let w : CtlWord := { job := job, body := .arrive hslot gen epoch src ht32 payload ptag }
  .next (s.onWord n w fun t => t.hallWord n w)

/-- WITHDRAW_WORD (R225): a WITHDRAW from a downstream port. -/
def execWithdrawWord (n job hslot gen epoch src ht32 : Nat) (s : State) : Host.Outcome State Fault Refusal :=
  let w : CtlWord := { job := job, body := .withdraw hslot gen epoch src ht32 }
  .next (s.onWord n w fun t => t.hallWord n w)

/-- DONE_WORD (R225, R228, R230): a DONE from the parent. -/
def execDoneWord (n job hslot gen epoch contrib hash flags : Nat) (s : State) : Host.Outcome State Fault Refusal :=
  let w : CtlWord := { job := job, body := .done hslot gen epoch contrib hash flags }
  let t := s.takeWord .fd n w
  .next (if t.isActiveRoot then t else (t.hallDone w hslot gen epoch contrib hash flags).retryHeld)

/-- ROOT_DEADLINE (R230, R233): at DL_BEAT a DEADLINE slot in COUNTING, or in UNRESOLVED without a call, sends the call. -/
def execRootDeadline (h : Nat) (s : State) : Host.Outcome State Fault Refusal :=
  let v := s.slot h
  .next (if s.isActiveRoot && v.policy && !v.callSent && (v.state == .counting || v.state == .unresolved) then (s.awaitBeat32 .fd v.dlBeat).callOut h else s)

/-- MID_ANSWER_DEADLINE (R231): a called mid whose DL_BEAT passes closes. -/
def execMidAnswerDeadline (h : Nat) (s : State) : Host.Outcome State Fault Refusal :=
  let v := s.slot h
  .next (if s.role == 3 && v.state == .called then (s.awaitBeat32 .fd v.dlBeat).closeSlot h else s)

/-- ROOT_CALL_WAIT_END (R231 to R233): the call wait ends, every unanswered port is paid into the paddock and the quorum decided. -/
def execRootCallWaitEnd (h : Nat) (s : State) : Host.Outcome State Fault Refusal :=
  let v := s.slot h
  .next (if s.isActiveRoot && v.callSent && !v.paid && (v.state == .called || v.state == .unresolved) then
      let s1 := (s.awaitBeat32 .fd v.dlBeat).payPorts h
      (s1.setSlot h { (s1.slot h) with paid := true }).decideQuorum h
    else s)

/-- HARD_TIMEOUT (R233): at HARD_BEAT an open root slot enters UNRESOLVED, raises the interrupt and records itself; a held completion does
not (R336). -/
def execHardTimeout (h : Nat) (s : State) : Host.Outcome State Fault Refusal :=
  let v := s.slot h
  .next (if s.isActiveRoot && !v.holding && v.hardBeat != 0 && (v.state == .counting || v.state == .called || v.state == .quorumWait) then
      let s1 := (s.awaitBeat32 .fd v.hardBeat).setSlot h { v with state := .unresolved, unresolvedSeen := true }
      ((s1.hbarInt Rg.HINT_UNRESOLVED).hallRec 0x0A h v.gen v.e 0 (contsOf 5 ((s1.slot h).toBytes true))).jobRegs v.job
    else s)

/-! Bells. -/

/-- A distributor holds a bell on a port while a COMMIT of the job waits there: the words of a port leave in order, the COMMIT first
(R124, R316). BELL_WORD_FORWARD (R242): the bell goes toward every member port. -/
def execBellWordForward (n : Nat) (beat : Nat) (word : BellWord) (s : State) : Host.Outcome State Fault Refusal :=
  let w : CtlWord := { job := word.job, body := .bell beat word }
  let t := s.takeWord .fd n w
  let b := t.job word.job
  .next ((t.setJob word.job { b with lastBell := word.bellNo, lastBellBeat := beat, lastBellWord := some word, bellSeen := true }).sendBell word beat)

/-- BELL_RING (0x25; R240, R249): a MANUAL bell by the rule of R240. -/
def execBellRing (m : MbGo) (s : State) : Host.Outcome State Fault Refusal :=
  .next (s.mailbox m 0x25 (fdOnly m.part 2) [1] (some 0) (fun a t => t.atRoot (
    let j := a.getD 0 0
    if 63 < j || !t.flag .fd (Rg.JH_CREATED j) then (.badArg, t)
    else
      let t1 := t.scheduleBell j 1 0 0
      (.ok [(8, (t1.job j).lastBell), (8, (t1.job j).lastBellBeat)], t1))))

/-! Liveness (R235, R236). -/

/-- LIVENESS_SEND (R235): in each beat whose number is a multiple of 1,024 a lead die sends a LIVENESS word on each tick-link port. -/
def execLivenessSend (s : State) : Host.Outcome State Fault Refusal :=
  let s := if s.die.running && s.die.pkgIndex == 0 then s.periodic .sc 3 1024 0 else s
  if !s.die.running || s.die.pkgIndex != 0 || s.beat .sc % 1024 != 0 || !s.flag .sc Rg.HT_JOINED then .next s
  else
    let mask := maskOf 8 fun d => d == 0 || (decide (d < s.die.pkgDies) && s.lstate .sc (8 + d) == 3)
    .next ([0, 1].foldl (fun (t : State) n =>
      let seq := (t.link .sc n).lvSeq
      (t.sendWord .sc n { job := 0, hallwide := true, body := .liveness (t.get .sc Rg.SROLL_ROLL) mask seq (t.ht32 .sc) }).modLink .sc n
        fun k => { k with lvSeq := (seq + 1) % 65536 }) s)

/-- The root's suspicion of the rolls of a package (R236): each change is recorded, SUSPECT of the jobs and SUSPECT_CHG follow. -/
def State.suspectPackage (roll mask : Nat) (s : State) : State :=
  let base := roll / 8 * 8
  let s1 := (List.range 8).foldl (fun (t : State) d =>
    let r := base + d
    let was := (SMap.find r t.dist.hall.suspects).isSome
    let now := !bit mask d
    if was = now then t
    else
      let t1 := t.setHall { t.dist.hall with suspects := if now then SMap.set r (t.ht32 .fd) t.dist.hall.suspects else SMap.erase r t.dist.hall.suspects }
      (t1.record .fd { kind := 0x22, obj := r, arg := ofBool now, hallwide := true }).hbarInt Rg.HINT_SUSPECT_CHG) s
  s1.dist.hall.jobs.foldl (fun t e => t.jobRegs e.1) s1

/-- LIVENESS_WORD (R25, R235, R236): at a leaf the word restores or suspects dies of its port, and one from a peer lane says which dies of a port its partner has; at a mid it is
passed up; at the root it updates the suspect bitmap. -/
def execLivenessWord (n src dieMask lvSeq ht32 : Nat) (s : State) : Host.Outcome State Fault Refusal :=
  let w : CtlWord := { job := 0, hallwide := true, body := .liveness src dieMask lvSeq ht32 }
  let s1 := s.takeWord .fd n w
  .next (if !s.rollInPort (portOf n src) src then s1.bump .fd (Rg.LINK_BAD_WORD n)
    else if s.role == 4 && 64 ≤ n then s1.partnerPort (bits src 3 6) (dieMask % 256)
    else if s.role == 4 then (s1.modLink .fd n fun l => { l with lvMiss := 0, lvSeq := lvSeq }).portAlive n (dieMask % 256)
    else if s.role == 3 then s1.sendUp .fd w
    else if s.isActiveRoot then s1.suspectPackage src dieMask else s1)

/-- LIVENESS_MISS (R235): a LIVENESS word of a port is missing; after LV_MISS in a row every die of the package is SUSPECT. -/
def execLivenessMiss (n : Nat) (s : State) : Host.Outcome State Fault Refusal :=
  if s.role != 4 || 64 ≤ n || !s.linkUp .fd n then .next s
  else
    let k := (s.link .fd n).lvMiss + 1
    let s1 := s.modLink .fd n fun l => { l with lvMiss := k }
    .next (if s.get .fd Rg.BELL_LV_MISS ≤ k then s1.portAlive n 0 else s1)

/-! Deadlock across the hall (R245). -/

/-- The dies below a leaf's port that are members of a job and neither report DEADLOCK nor are absent; and whether one reports. -/
def State.leafDeadlocked (j : Nat) (s : State) : Bool :=
  let b := s.job j
  let ms := (b.members.filter fun e => e.2 != 0).map (·.1)
  let reports := fun r : Nat => SMap.get 0 r b.reporting != 0
  let present := fun r : Nat => bit (s.aliveAt (bits r 3 6)) (r % 8)
  !ms.isEmpty && ms.any reports && ms.all fun r => reports r || !present r

/-- The combined state of a job at a mid or the root: every expected port reports, and at least one does. -/
def State.portsDeadlocked (j : Nat) (s : State) : Bool :=
  let b := s.job j
  b.memberPorts != 0 && (setBits 64 b.memberPorts).all fun p => bit b.monPorts p

/-- Every live slot record of a job is written to the attendance register (R245, HBAR_DUMP). -/
def State.dumpJob (j : Nat) (s : State) : State :=
  (s.jobSlots j).foldl (fun (t : State) h => t.hallRec 0x0C h (t.slot h).gen (t.slot h).e 0 (contsOf 5 ((t.slot h).toBytes t.isActiveRoot))) s

/-- The combined MONITOR state of a job changes: it is passed up, or declared at the root. -/
def State.monitorUpdate (j : Nat) (s : State) : State :=
  let b := s.job j
  let dead := if s.role == 4 then s.leafDeadlocked j else s.portsDeadlocked j
  if s.isActiveRoot then
    if dead && !s.flag .fd (Rg.JH_DEADLOCK j) then ((s.put .fd (Rg.JH_DEADLOCK j) 1).hbarInt Rg.HINT_JOB_DEADLOCK).dumpJob j
    else if !dead then s.put .fd (Rg.JH_DEADLOCK j) 0 else s
  else if dead = b.monSent then s
  else (s.setJob j { b with monSent := dead }).sendUp .fd { job := j, body := .monitor 0 (s.ownRoll .fd) (s.ht32 .fd) dead }

/-- MONITOR_WORD (R245): a MONITOR word from below is combined per job. -/
def execMonitorWord (n job ctx src ht32 : Nat) (deadlock : Bool) (s : State) : Host.Outcome State Fault Refusal :=
  let w : CtlWord := { job := job, body := .monitor ctx src ht32 deadlock }
  .next (s.onWord n w fun t =>
    let b := t.job job
    let b1 := if t.role == 4 then { b with reporting := SMap.set src (ofBool deadlock) b.reporting }
      else { b with monPorts := if deadlock then setBit b.monPorts (t.participant job n) else clearBit b.monPorts (t.participant job n) }
    (t.setJob job b1).monitorUpdate job)

/-! The bell lead (R238, R239). -/

/-- The largest downward delay in this distributor's subtree, in ps: below a leaf the port's own path, with 16 ns for a package port;
above, the child's report on top of the hop. -/
def State.dnMax (s : State) : Nat :=
  (List.range 64).foldl (fun a n =>
    if s.lstate .fd n != 3 then a
    else
      let hop := (s.dDown .fd n).toNat
      if s.role == 4 then max a (hop + (if 2 ≤ (s.link .fd n).alive then 16000 else 0)) else max a (hop + SMap.get 0 n s.dist.hall.portDn)) 0

/-- LEAD_BEATS at the root after a report (R239): a larger value takes effect for bells scheduled from the next beat, a smaller one after 16 reports in a row below the lead
in force; under LEAD_HOLD neither does and a need for a larger one sets ALERT.LEAD_HOLD. -/
def State.leadUpdate (s : State) : State :=
  let dn := sat 32 s.dnMax
  let want := ceilDiv (dn + 1024000) 1024000
  let s1 := s.put .fd Rg.BELL_DN_MAX dn
  let lead := s.lead
  if !s.isActiveRoot then s1
  else if s.flag .fd Rg.BELL_LEAD_HOLD then (if lead < want then s1.raise .fd Rg.ALERT_LEAD_HOLD else s1)
  else if lead < want then (s1.put .fd Rg.BELL_LEAD_BEATS want).setHall { s1.dist.hall with shorter := [], leadWas := (s.beat .fd, lead) }
  else if want < lead then
    let l := want :: s.dist.hall.shorter
    if l.length < 16 then s1.setHall { s1.dist.hall with shorter := l }
    else (s1.put .fd Rg.BELL_LEAD_BEATS (l.foldl max 0)).setHall { s1.dist.hall with shorter := [] }
  else s1.setHall { s1.dist.hall with shorter := [] }

/-- DN_MAX_REPORT (R238, R239): a child's report arrives (position 0 to 63), or this unit's own period ends (position 64): DN_MAX follows,
a mid or leaf reports to its parent every 1,024 beats. -/
def execDnMaxReport (n ps : Nat) (s : State) : Host.Outcome State Fault Refusal :=
  if !s.roleUp .fd 5 then .next s
  else if n < 64 then
    let s1 := s.modLink .fd n fun l => { l with tunIn := l.tunIn.filter (· != .dnMax ps) }
    .next (s1.setHall { s1.dist.hall with portDn := SMap.set n ps s1.dist.hall.portDn }).leadUpdate
  else
    let s := if s.role == 3 || s.role == 4 then s.periodic .fd 9 1024 0 else s
    let s1 := s.put .fd Rg.BELL_DN_MAX (sat 32 s.dnMax)
    .next (if (s.role == 3 || s.role == 4) && s.beat .fd % 1024 == 0 then s1.sendTunnels .fd (s.upPorts .fd) (.dnMax (sat 32 s.dnMax)) else s1)

/-! MEMBER and STALE at either part come with the die's side (HallDie); the root's mailbox commands follow in HallJobs. -/

end Sys2Proof.Machine
end

