-- ==== Sys2Proof/Machine/HallDie.lean ====
section
/-! DEFINITION. Words of PACKAGE and HALL barriers, bells, members and STALE notices at a die (R198 to R200, R205, R206, R221, R222, R243), MEMBER
and STALE words at a distributor, the die's power floor (R332, R333). -/

namespace Sys2Proof.Machine

open Sys2Proof

/-! The power floor (R331 to R335). -/

/-- The jobs of which the die is a member. -/
def State.dieJobs (s : State) : List Nat := (List.range 64).filter fun j => s.flag .sc (Rg.SJH_MEMBER j)

/-- abs_j: LEVEL while stepping, ceil(ENTRY × LEVEL / 100) in recess (R333). -/
def State.absLevel (j : Nat) (s : State) : Nat :=
  let l := s.get .sc (Rg.SPWR_LEVEL j) % 128
  if s.flag .sc (Rg.SPWR_RECESS j) then ceilDiv (s.get .sc (Rg.SPWR_ENTRY j) * l) 100 else l

/-- SC_PWR_FLOOR and PM_RECESS by the first case of R333 that holds. -/
def State.floorOut (s : State) : Nat × Bool :=
  let js := s.dieJobs
  let pins := (js.filter fun j => !s.flag .sc (Rg.SPWR_RECESS j) && bit (s.get .sc (Rg.SPWR_LEVEL j)) 7).map fun j => s.get .sc (Rg.SPWR_LEVEL j) % 128
  let top := js.foldl (fun a j => max a (s.absLevel j)) 0
  match js, pins with
  | [], _ => (0, false)
  | _, l :: t => (128 + t.foldl min l, false)
  | _, [] => if js.all fun j => s.flag .sc (Rg.SPWR_RECESS j) then (128 + top, true) else (top, false)

/-- The outputs brought up to date (R333). -/
def State.driveFloor (s : State) : State :=
  let o := s.floorOut
  (s.put .sc Rg.SPWR_FLOOR_OUT o.1).putFlag .sc Rg.SPWR_PM_RECESS o.2

/-- ENTRY_j latched from the last valid sample (R335); 100 without one. -/
def State.entryLevel (s : State) : Nat :=
  match s.die.pwr.sample with
  | none => 100
  | some mw => if s.get .sc Rg.SPWR_DIE_W = 0 then 100 else min 100 (ceilDiv (100 * mw) (s.get .sc Rg.SPWR_DIE_W * 1000))

/-- A level of a job applies at the die (R332, R335): the first word of an episode with RECESS = 1 latches ENTRY. -/
def State.applyLevel (j level : Nat) (recess : Bool) (s : State) : State :=
  let was := s.flag .sc (Rg.SPWR_RECESS j)
  let s1 := ((s.put .sc (Rg.SPWR_LEVEL j) level).putFlag .sc (Rg.SPWR_RECESS j) recess).put .sc (Rg.SPWR_VALID j) 1
  let s2 := if recess && !was then s1.put .sc (Rg.SPWR_ENTRY j) s.entryLevel else if !recess then s1.put .sc (Rg.SPWR_ENTRY j) 0 else s1
  s2.driveFloor

/-- A job's level is cleared (R332). -/
def State.clearLevel (j : Nat) (s : State) : State :=
  ([Rg.SPWR_LEVEL j, Rg.SPWR_RECESS j, Rg.SPWR_VALID j, Rg.SPWR_ENTRY j].foldl (fun t f => t.put .sc f 0) s).driveFloor

/-! Package and hall words. -/

/-- A word taken from the die's inbox: it enters the hub's commit order (R193). -/
def State.takeDieWord (n : Nat) (w : CtlWord) (s : State) : State := (s.takeWord .sc n w).commitWord

/-- STALE sent by a lead die to a die of its package. -/
def State.staleToDie (d : Nat) (w : CtlWord) (h gen epoch cause : Nat) (s : State) : State :=
  s.toDie d { w with body := .stale (s.dieRoll d) h gen epoch cause }

/-- A package die's ARRIVE is applied at the lead die (R185, R198, R199, R200, R255). `body` is its partial, if one came. -/
def State.leadArrive (d : Nat) (w : CtlWord) (h gen epoch src ht32 : Nat) (body : Option Body) (s : State) : State :=
  match s.wordSlot w h gen with
  | none => (s.staleCount).staleToDie d w h gen epoch (if w.hallwide || (s.hallCtx w.job).isSome then 1 else 5)
  | some r =>
    let v := s.slotAt r
    if !bit v.dieMask d || v.state = .stale then s.staleCount
    else
      let o := v.applyDie d epoch (src % 2 ^ 21) ht32
      let s1 := s.setSlotAt r o.2
      if o.1 != 0 then s1.ctxRecord v.ctx { kind := 0x09, obj := v.handle, arg := o.1, epoch := epoch, die := d }
      else
        let b := body.getD (summaryOnly 0 (rollHash (s.dieRoll d)) 0)
        let s2 := if v.scope != 3 then s1
          else if epoch = v.e then s1.partialAt r d b
          else s1.setSlotAt r { o.2 with earlyAcc := o.2.earlyAcc ++ [(d, b)] }
        (s2.monArrival v.ctx).slotTest r

/-- An ARRIVE with a partial waits for its body; later words of the same die for the same slot wait behind it (R264). -/
def State.dieBehind (n h : Nat) (s : State) : Bool :=
  s.die.pay.bodyWait.any fun e => e.1 == n && (match e.2.body with
    | .arrive k _ _ _ _ _ _ => k == h
    | .withdraw k _ _ _ _ => k == h
    | _ => false)

/-- A word of a package die waits. -/
def State.holdDieWord (n : Nat) (w : CtlWord) (s : State) : State := s.setPay { s.die.pay with bodyWait := s.die.pay.bodyWait ++ [(n, w)] }

/-- A withdrawing die leaves DIE_MASK, DIE_ARR and DIE_EARLY (R200); an empty mask withdraws the package or makes the slot STALE. -/
def State.leadWithdraw (d : Nat) (w : CtlWord) (h gen : Nat) (s : State) : State :=
  match s.wordSlot w h gen with
  | none => s.staleCount
  | some r =>
    let v := s.slotAt r
    let v1 := { v with dieMask := clearBit v.dieMask d, dieArr := clearBit v.dieArr d, dieEarly := clearBit v.dieEarly d, earlyAcc := v.earlyAcc.filter fun e => e.1 != d }
    let s1 := s.setSlotAt r v1
    if v1.dieMask = 0 then
      (if v.scope = 3 then s1.dieUp (v.word (.withdraw v.name v.gen v.e (s.get .sc Rg.SROLL_ROLL) (s.ht32 .sc))) else s1.slotStale r)
    else s1.slotTest r

/-- A word of a package die is processed at the lead die. -/
def State.packageWord (n : Nat) (w : CtlWord) (s : State) : State :=
  let d := n - 8
  match w.body with
  | .arrive h g e src ht32 pl tag =>
    if s.dieBehind n h then s.holdDieWord n w
    else if !pl || w.hallwide then s.leadArrive d w h g e src ht32 none
    else match s.rxBody .sc n 1 w.job tag with
      | some r =>
        if r.whole then (s.dropRx .sc n 1 w.job tag).leadArrive d w h g e src ht32 (some r.body)
        else if r.lost then (s.dropRx .sc n 1 w.job tag).leadArrive d w h g e src ht32 (some (summaryOnly 0 (rollHash (s.dieRoll d)) pfDropped))
        else (s.nameBody .sc n 1 w.job tag).holdDieWord n w
      | none => (s.nameBody .sc n 1 w.job tag).holdDieWord n w
  | .withdraw h g _ _ _ => if s.dieBehind n h then s.holdDieWord n w else s.leadWithdraw d w h g
  | _ => s

/-- The words held at a lead die are tried once more in order. -/
def State.retryDieHeld (s : State) : State :=
  let q := s.die.pay.bodyWait
  q.foldl (fun t e => t.packageWord e.1 e.2) (s.setPay { s.die.pay with bodyWait := [] })

/-- LEAD_DIE_ARRIVE (R198, R199): die `d`'s ARRIVE at the lead die; HALLWIDE with JOB 0 names a PACKAGE slot. -/
def execLeadDieArrive (d job : Nat) (hallwide : Bool) (hslot gen epoch src ht32 : Nat) (payload : Bool) (ptag : Nat) (s : State) : Host.Outcome State Fault Refusal :=
  let w : CtlWord := { job := job, hallwide := hallwide, body := .arrive hslot gen epoch src ht32 payload ptag }
  .next (if s.isLead then (s.takeDieWord (8 + d) w).packageWord (8 + d) w else s)

/-- LEAD_DIE_WITHDRAW (R200): die `d` withdraws at the lead die. -/
def execLeadDieWithdraw (d job : Nat) (hallwide : Bool) (hslot gen epoch src ht32 : Nat) (s : State) : Host.Outcome State Fault Refusal :=
  let w : CtlWord := { job := job, hallwide := hallwide, body := .withdraw hslot gen epoch src ht32 }
  .next (if s.isLead then (s.takeDieWord (8 + d) w).packageWord (8 + d) w else s)

/-- DONE_AT_DIE (R199, R200, R258): a lead die forwards a hall DONE to the other dies of DIE_MASK and applies it to its own slot. -/
def execDoneAtDie (n job : Nat) (hallwide : Bool) (hslot gen epoch contrib hash flags : Nat) (s : State) : Host.Outcome State Fault Refusal :=
  let w : CtlWord := { job := job, hallwide := hallwide, body := .done hslot gen epoch contrib hash flags }
  let s0 := s.takeDieWord n w
  .next (match s0.wordSlot w hslot gen with
    | none => s0.staleCount
    | some r =>
      let v := s0.slotAt r
      let d := sdiff16 epoch v.e
      if d < 0 || v.state = .stale then s0.staleCount
      else
        let s1 := if s0.isLead && v.scope = 3 then (otherDies v.dieMask).foldl (fun t k => t.toDie k w) s0 else s0
        s1.doneOrHold r epoch contrib hash flags)

/-! Bells at the die (R243). -/

/-- The package dies to which a lead die forwards a job's bell and floor words: members whose package-port link is ALIGNED. -/
def State.bellDies (j : Nat) (s : State) : List Nat :=
  if s.isLead then (otherDies (SMap.get 0 j s.die.sync.pkgMembers)).filter fun d => s.lstate .sc (8 + d) == 3 else []

/-- The strobe slots of a job with SOURCE BELL. -/
def State.bellSlots (j : Nat) (s : State) : List Nat := (List.range 8).filter fun k => s.get .sc (Rg.STRB_SOURCE k) == 1 && s.get .sc (Rg.STRB_JOB k) == j

/-- WAIT_BELL heads of a job's context that a bell number satisfies get the bell's HT as their launch target (R194). -/
def State.bellTargets (j no ht : Nat) (s : State) : State :=
  (List.range s.die.queues).foldl (fun (t : State) q =>
    match (t.queue q).head with
    | some e =>
      if e.phase == .stalled && e.op == 8 && e.target.isNone && t.ctxJob (t.get .sc (Rg.Q_CTX q)) == some j && decide (sdiff48 (e.cmd % 2 ^ 48) no ≤ 0)
      then t.stallHead q e.tag (some ht) else t
    | none => t) s

/-- BELL_WORD_AT_DIE (R27, R222, R242, R243): a number at or before the last is a duplicate; a later one is recorded, passed on by a lead die, and
at a member die arms the BELL strobes once JOINED (R174), gives WAIT_BELL its launch target and brings the floor. -/
def execBellWordAtDie (n beat : Nat) (word : BellWord) (s : State) : Host.Outcome State Fault Refusal :=
  let j := word.job
  let w : CtlWord := { job := j, body := .bell beat word }
  let s0 := s.takeDieWord n w
  let seen := s.flag .sc (Rg.SJH_BELL_VALID j)
  let last := s.lastBell j
  if (s.hallCtx j).isNone then .next s0.staleCount
  else if seen && sdiff48 word.bellNo last ≤ 0 then .next s0
  else
    let ht := beat * 1024
    let s1 := (s0.bellDies j).foldl (fun t d => t.toDie d w) s0
    let s2 := ((s1.put .sc (Rg.SJH_BELL_LO j) word.bellNo).put .sc (Rg.SJH_BELL_HI j) (word.bellNo / 2 ^ 32)).put .sc (Rg.SJH_BELL_VALID j) 1
    let s3 := if seen && 1 < sdiff48 word.bellNo last then s2.bump .sc (Rg.SJH_BELL_GAP j) else s2
    if !s.flag .sc (Rg.SJH_MEMBER j) then .next s3
    else
      let late := decide (ht < s.htNs .sc)
      let s4 := if late then (s3.bump .sc (Rg.SJH_LATE_BELL j)).record .sc
          { kind := 0x14, obj := word.bellNo % 2 ^ 24, arg := sat 24 (s.htNs .sc - ht), job := j } else s3
      let s5 := if s.flag .sc Rg.HT_JOINED then (s4.bellSlots j).foldl (fun t k => t.hbQueueAll (.strobeArm k (ht / 64 % 2 ^ 38)) 3) s4 else s4
      let s6 := s5.bellTargets j word.bellNo ht
      .next (s6.setSync { s6.die.sync with bells := s6.die.sync.bells ++ [{ word := word, ht := ht, late := late }] })

/-- DIE_BELL_FIRE (R244, R332, R337): the HT of the oldest pending bell of a job is reached: a RESUME bell ends the recess, a CLOSE_HWM not yet
received sets CLOSE_BEHIND, the bell's level applies. -/
def execDieBellFire (job : Nat) (s : State) : Host.Outcome State Fault Refusal :=
  match s.die.sync.bells.find? fun b => b.word.job == job with
  | none => .next s
  | some b =>
    let s := s.awaitHt .sc b.ht
    if s.htNs .sc < b.ht then .next s
    else
      let s1 := s.setSync { s.die.sync with bells := s.die.sync.bells.erase b }
      let s2 := if earlierThan 32 (s.get .sc (Rg.SJH_CLOSE_SEQ job)) b.word.closeHwm && b.word.closeHwm != 0 then s1.put .sc (Rg.SJH_CLOSE_BEHIND job) 1 else s1
      let recess := s.flag .sc (Rg.SPWR_RECESS job) && b.word.kind != 2
      if 100 < b.word.floor % 128 then .next (s2.bump .sc (Rg.LINK_BAD_WORD s.die.timePort))
      else .next (s2.applyLevel job b.word.floor recess)

/-! Members (R221, R222, R248, R321). -/

/-- The HALL slots of a job on this die. -/
def State.jobHallSlots (j : Nat) (s : State) : List SlotRef :=
  (s.die.sync.slots.filter fun e => e.2.state != .free && e.2.scope == 3 && e.2.job == j).map fun e => SlotRef.hub e.1

/-- The dies of the package, other than this lead die, that are members of a job. -/
def State.otherMembers (j : Nat) (s : State) : Nat := clearBit (SMap.get 0 j s.die.sync.pkgMembers) 0

/-- A lead die that is evicted alone goes on serving its package (R222): its own participants are released with STALE. -/
def State.leadLeaves (r : SlotRef) (s : State) : State :=
  let v := s.slotAt r
  ((s.setSlotAt r { v with dieMask := clearBit v.dieMask 0, dieArr := clearBit v.dieArr 0, dieEarly := clearBit v.dieEarly 0, local_ := false }).relWaiters r 4
    fun _ => true).slotTest r

/-- A MEMBER word applies at a die (R221, R222, R321): at the die it names, and at its lead die. -/
def State.memberAtDie (j roll action gen : Nat) (s : State) : State :=
  let d := roll % 8
  let mask := SMap.get 0 j s.die.sync.pkgMembers
  let s0 := if s.isLead then
      s.setSync { s.die.sync with pkgMembers := SMap.set j (if action = 0 then setBit mask d else clearBit mask d) s.die.sync.pkgMembers } else s
  if d = s.die.pkgIndex then
    let was := s.flag .sc (Rg.SJH_MEMBER j)
    let s1 := (s0.put .sc (Rg.SJH_MEMBER j) (1 - action)).put .sc (Rg.SJH_MGEN j) gen
    if action = 1 && was then
      let s2 := (s1.jobHallSlots j).foldl (fun (t : State) r => if t.isLead && t.otherMembers j != 0 then t.leadLeaves r else t.slotStale r) s1
      s2.clearLevel j
    else s1.driveFloor
  else if s.isLead && action = 1 then
    (s0.jobHallSlots j).foldl (fun (t : State) r =>
      let v := t.slotAt r
      let t1 := t.setSlotAt r { v with dieMask := clearBit v.dieMask d, dieArr := clearBit v.dieArr d, dieEarly := clearBit v.dieEarly d }
      if !t.flag .sc (Rg.SJH_MEMBER j) && t.otherMembers j == 0 then t1.slotStale r else t1.slotTest r) s0
  else s0

/-- MEMBER_WORD (R221, R312, R321): a word of a change is kept for it and passed toward its roll; one with TXN_ID 0 restores a returning die at
once. Reserved actions count in BAD_WORD. -/
def execMemberWord (p : Part) (n job txn roll action gen : Nat) (s : State) : Host.Outcome State Fault Refusal :=
  let w : CtlWord := { job := job, body := .member txn roll action gen }
  let s0 := s.takeWord p n w
  let held := fun t : State => t.setUnit p { t.unit p with tt := { (t.unit p).tt with members := (t.unit p).tt.members ++ [(txn, roll, action, gen)] } }
  if 1 < action then .next (s0.bump p (Rg.LINK_BAD_WORD n))
  else match p with
    | .fd =>
      let towards := s.portToward roll
      let fwd := if s.rollInPort towards roll then s0.sendWords .fd (s.portsOf towards) w else s0
      .next (if txn = 0 then fwd else held fwd)
    | .sc =>
      let d := roll % 8
      let mine := d == s.die.pkgIndex
      let fwd := if s.isLead && !mine && d < s.die.pkgDies then s0.toDie d w else s0
      .next (if txn = 0 then fwd.memberAtDie job roll action gen else held fwd)

/-- STALE_WORD (R205, R206): a distributor passes it toward its roll; a lead die passes one for another die on; at the die named it is counted,
recorded, and moves a matching slot to STALE unless its cause is LATE or reserved. -/
def execStaleWord (p : Part) (n job : Nat) (hallwide : Bool) (roll hslot gen epoch cause : Nat) (s : State) : Host.Outcome State Fault Refusal :=
  let w : CtlWord := { job := job, hallwide := hallwide, body := .stale roll hslot gen epoch cause }
  let s0 := s.takeWord p n w
  match p with
  | .fd =>
    let towards := s.portToward roll
    let seen := match s.dist.spare.running with
      | some d => d.type == 4 && cause == 3 && d.target == hslot
      | none => false
    let s1 := if seen then s0.setSpare { s0.dist.spare with drillSeen := 2 } else s0
    .next (if s.rollInPort towards roll then s1.sendWords .fd (s.portsOf towards) w else s1)
  | .sc =>
    if roll % 8 != s.die.pkgIndex then .next (if s.isLead then s0.toDie (roll % 8) w else s0)
    else
      let s1 := s0.staleCount.record .sc { kind := 0x08, obj := hslot, arg := gen + 256 * (cause % 256), epoch := epoch, job := job, hallwide := hallwide }
      .next (match s1.wordSlot w hslot gen with
        | some r => if cause = 1 || cause = 2 || cause = 4 || cause = 5 then s1.slotStale r else s1
        | none => s1)

end Sys2Proof.Machine
end

