-- ==== Sys2Proof/Machine/Pipes.lean ====
section
/-! DEFINITION. Reduction pipes: which serve, what is counted against them, when they retire (R401 to R404). -/

namespace Sys2Proof.Machine

open Sys2Proof

/-- PSTATE of every pipe (R282, R403): 3 retired in every band, 1 while it holds a combine, 0 where it serves, 2 as a spare. -/
def State.pipeStates (s : State) : State :=
  let serving := s.servingPipes
  (List.range 68).foldl (fun (t : State) i =>
    t.put .fd (Rg.PIPE_PSTATE i) (if t.get .fd (Rg.PIPE_RETIRE_MAP i) = 255 then 3
      else if s.dist.spare.combines.any fun c => c.pipe == i && !c.fin then 1
      else if serving.contains i then 0 else 2)) s

/-- PIPES_SHORT follows the number of usable pipes in the band in force; a fall below 64 is a fault (R397, R403). -/
def State.pipesShort (s : State) : State :=
  let short := decide (s.usablePipes.length < 64)
  let s1 := s.putFlag .fd Rg.FSUM_PIPES_SHORT short
  if short && !s.flag .fd Rg.FSUM_PIPES_SHORT then (s1.faultLog .fd 0x22 0 s.dist.spare.band).faultAlert .fd else s1

/-- A pipe's record replaced. -/
def State.setPipe (i : Nat) (x : Pipe) (s : State) : State := s.setSpare { s.dist.spare with pipes := SMap.set i x s.dist.spare.pipes }

/-- The fault table has changed: its write to the EEPROM falls due (R404). -/
def State.tableChanged (s : State) : State :=
  match s.dist.spare.tableDirty with
  | some _ => s
  | none => s.setSpare { s.dist.spare with tableDirty := some s.now }

/-- A pipe is retired in the band in force once its cells there reach 3; the last usable pipe never is (R403). -/
def State.retireTest (i : Nat) (s : State) : State :=
  let band := s.dist.spare.band
  let map := s.get .fd (Rg.PIPE_RETIRE_MAP i)
  if (s.pipe i).bandFaults band < 3 || bit map band || s.usablePipes.length ≤ 1 then s
  else (((s.put .fd (Rg.PIPE_RETIRE_MAP i) (setBit map band)).faultLog .fd 0x21 2 i).pipeStates).pipesShort

/-- One fault counted in a pipe's cell for the band and load class in force (R402). -/
def State.countPipe (i : Nat) (s : State) : State :=
  let x := s.pipe i
  let k := 4 * s.dist.spare.band + x.load
  ((s.setPipe i { x with cells := SMap.set k (min 255 (SMap.get 0 k x.cells + 1)) x.cells }).tableChanged).retireTest i

/-- The temperature band of a temperature in 0.01 °C, the band in force kept within 1 K of its edges (R401). -/
def bandOf (cur : Nat) (t : Int) : Nat :=
  let raw := fun x : Int => if x < 4500 then 0 else min 7 ((x - 4500) / 1000 + 1).toNat
  if raw t = cur then cur
  else if cur < raw t then max cur (raw (t - 100)) else min cur (raw (t + 100))

/-- A shaper tick at the pipes (R401): the band from the core temperature, each pipe's load class from its busy fraction. A pipe performs
16 element operations a ns. -/
def State.pipeTick (temp : Int) (s : State) : State :=
  let band := bandOf s.dist.spare.band temp
  let cls := fun b : Nat => min 3 (4 * b / (16 * 1048576))
  let s1 := s.setSpare { s.dist.spare with temp := temp, band := band, pipes := s.dist.spare.pipes.map fun e => (e.1, { e.2 with busy := 0, load := cls e.2.busy }) }
  if band = s.dist.spare.band then s1 else s1.pipeStates.pipesShort

end Sys2Proof.Machine
end

