-- ==== Sys2Proof/Machine/StudBook.lean ====
section
/-! DEFINITION. The stud book and the close logs at the root (R288 to R293). -/

namespace Sys2Proof.Machine

open Sys2Proof

/-- The pages of a job. -/
def State.sbPages (j : Nat) (s : State) : List (Nat × Nat) := s.dist.sb.pages.filter fun e => e.1 / 4096 == j

/-- PAGES_FREE, SB_USED and SB_OVER_QUOTA brought up to date (R289). -/
def State.sbRegs (j : Nat) (s : State) : State :=
  let n := (s.sbPages j).length
  ((s.put .fd Rg.SB_PAGES_FREE (4096 - s.dist.sb.used.length)).put .fd (Rg.JM_SB_USED j) n).putFlag .fd (Rg.JM_SB_OVER_QUOTA j)
    (decide (s.get .fd (Rg.JM_SB_QUOTA j) < n))

/-- A page slot's SB_FREE has taken effect: the beat boundary after the command has passed (R289). -/
def State.sbFreed (key : Nat) (s : State) : Bool := s.dist.sb.freeing.any fun e => e.1 == key && decide (e.2 < s.beat .fd)

/-- The entry index of a bucket, where its page is mapped (R288). -/
def State.sbIndex (j bucket : Nat) (s : State) : Option Nat :=
  if s.sbFreed (j * 4096 + bucket / 4096) then none
  else (SMap.find (j * 4096 + bucket / 4096) s.dist.sb.pages).map fun p => p * 4096 + bucket % 4096

/-- What a close writes into its entry (R291): the close's own fields, and the group of its operation. -/
def SbEntry.close (c : CloseEntry) (b : Body) (present : Bool) (e : SbEntry) : SbEntry :=
  let e1 := { e with closeSeq := c.seq, epoch := c.epoch, opFmt := c.opFmt, pflags := c.pflags, contrib := c.contrib, doneFlags := c.doneFlags, hash := c.hash,
                     resultResidue := c.residue, closes := sat 32 (e.closes + 1), closeBeat := c.beat, bad := false }
  let x := b.elems.getD 0 0
  if b.sum.op = 9 then
    (if present then { e1 with scale := x, flags := setBit e1.flags 0 } else { e1 with scale := 0, flags := clearBit e1.flags 0 })
  else if b.sum.op = 10 then
    (if present then { e1 with topkThresh := x % 2 ^ 32, topkBin := x / 2 ^ 32, topkKept := b.elems.getD 1 0, flags := setBit e1.flags 1 }
     else { e1 with topkThresh := 0, topkBin := 0, topkKept := 0, flags := clearBit e1.flags 1 })
  else if b.sum.op = 7 then
    (if present then { e1 with residue := x, flags := setBit e1.flags 2 } else { e1 with residue := 0, flags := clearBit e1.flags 2 })
  else e1

/-- A close is recorded (R291, R293): the entry of its bucket, or SB_UNMAPPED; the close log; a CLOSE record. `present` is the PRESENT bit of
element 0. -/
def State.recordClose (c : CloseEntry) (b : Body) (present : Bool) (s : State) : State :=
  let log := SMap.get [] c.job s.dist.sb.logs ++ [c]
  let s1 := s.setSb { s.dist.sb with logs := SMap.set c.job (log.drop (log.length - 65536)) s.dist.sb.logs }
  let idx := s1.sbIndex c.job c.bucket
  let s2 := match idx with
    | some i => s1.setSb { s1.dist.sb with entries := SMap.set i (SbEntry.close c b present (SMap.get {} i s1.dist.sb.entries)) s1.dist.sb.entries }
    | none => s1.bump .fd Rg.SB_SB_UNMAPPED
  s2.record .fd { kind := 0x06, obj := c.bucket, arg := c.seq % 2 ^ 23 + 2 ^ 23 * ofBool idx.isNone, epoch := c.epoch, job := c.job }

/-- A page slot is unmapped; its page is zeroed and returns to the free list (R289). -/
def State.sbUnmap (key : Nat) (s : State) : State :=
  match SMap.find key s.dist.sb.pages with
  | none => s
  | some p => (s.setSb { s.dist.sb with pages := SMap.erase key s.dist.sb.pages, used := s.dist.sb.used.filter (· != p),
                                        entries := s.dist.sb.entries.filter fun e => e.1 / 4096 != p }).sbRegs (key / 4096)

/-- Every page and the close log of a job freed and zeroed (R246). -/
def State.sbFreeJob (j : Nat) (s : State) : State :=
  let s1 := (s.sbPages j).foldl (fun t e => t.sbUnmap e.1) s
  s1.setSb { s1.dist.sb with logs := SMap.erase j s1.dist.sb.logs, freeing := s1.dist.sb.freeing.filter fun e => e.1 / 4096 != j }

/-- The stud book commands: on a VXD-2880 active root (R307). -/
def State.sbCmd (m : MbGo) (code : Nat) (sig : List Nat) (body : List Nat → State → MbOut × State) (s : State) : State :=
  s.mailbox m code (s.own2880 m.part 2) sig (some 0) (fun a t => t.atRoot (body a t))

/-- SB_ALLOC (0x42; R289, R307): JOB, first page slot, count. The lowest free pages are taken. -/
def execSbAlloc (m : MbGo) (s : State) : Host.Outcome State Fault Refusal :=
  .next (s.sbCmd m 0x42 [1, 2, 2] fun a t =>
    let j := a.getD 0 0
    let first := a.getD 1 0
    let n := a.getD 2 0
    let keys := (List.range n).map fun i => j * 4096 + first + i
    let free := (List.range 4096).filter fun p => !t.dist.sb.used.contains p
    if 63 < j || !t.flag .fd (Rg.JH_CREATED j) || 4096 < first + n then (.badArg, t)
    else if t.get .fd (Rg.JM_SB_QUOTA j) < (t.sbPages j).length + n then (.quota, t)
    else if free.length < n || keys.any (fun k => (SMap.find k t.dist.sb.pages).isSome) then (.refuse, t)
    else
      let take := free.take n
      let pages := (List.zip keys take).foldl (fun q e => SMap.set e.1 e.2 q) t.dist.sb.pages
      (.list [] (take.map fun p => [(2, p)]), (t.setSb { t.dist.sb with pages := pages, used := t.dist.sb.used ++ take }).sbRegs j))

/-- SB_FREE (0x43; R289, R307): the pages are freed at the next beat boundary. -/
def execSbFree (m : MbGo) (s : State) : Host.Outcome State Fault Refusal :=
  .next (s.sbCmd m 0x43 [1, 2, 2] fun a t =>
    let j := a.getD 0 0
    let keys := (List.range (a.getD 2 0)).map fun i => j * 4096 + a.getD 1 0 + i
    if 63 < j || 4096 < a.getD 1 0 + a.getD 2 0 || keys.any (fun k => (SMap.find k t.dist.sb.pages).isNone) then (.badArg, t)
    else (.ok [], t.setSb { t.dist.sb with freeing := t.dist.sb.freeing ++ keys.map fun k => (k, t.beat .fd) }))

/-- SB_FREE_EFFECT (R289): the beat boundary after SB_FREE. -/
def execSbFreeEffect (s : State) : Host.Outcome State Fault Refusal :=
  let s := match s.dist.sb.freeing with
    | e :: _ => s.awaitBeat .fd (e.2 + 1)
    | [] => s
  let due := s.dist.sb.freeing.filter fun e => decide (e.2 < s.beat .fd)
  let s1 := due.foldl (fun t e => t.sbUnmap e.1) s
  .next (s1.setSb { s1.dist.sb with freeing := s1.dist.sb.freeing.filter fun e => !decide (e.2 < s.beat .fd) })

/-- SB_QUOTA (0x44; R289, R307). -/
def execSbQuota (m : MbGo) (s : State) : Host.Outcome State Fault Refusal :=
  .next (s.sbCmd m 0x44 [1, 2] fun a t =>
    let j := a.getD 0 0
    if 63 < j || 4096 < a.getD 1 0 then (.badArg, t) else (.ok [], (t.put .fd (Rg.JM_SB_QUOTA j) (a.getD 1 0)).sbRegs j))

/-- SB_READ (0x45; R287, R290, R307): the entry of a mapped bucket. -/
def execSbRead (m : MbGo) (s : State) : Host.Outcome State Fault Refusal :=
  .next (s.sbCmd m 0x45 [1, 4] fun a t =>
    let j := a.getD 0 0
    let b := a.getD 1 0
    if 63 < j || 2 ^ 24 ≤ b then (.badArg, t)
    else match t.sbIndex j b with
      | none => (.badArg, t)
      | some i =>
        let e := SMap.get {} i t.dist.sb.entries
        (.bytes ((if e.bad then ({} : SbEntry) else e).toBytes j b), t))

/-- SB_CLOSE_LOG (0x46; R293, R307): up to 7 entries from a sequence. -/
def execSbCloseLog (m : MbGo) (s : State) : Host.Outcome State Fault Refusal :=
  .next (s.sbCmd m 0x46 [1, 4] fun a t =>
    let j := a.getD 0 0
    let first := a.getD 1 0
    let log := SMap.get [] j t.dist.sb.logs
    if 63 < j || laterThan 32 first (t.get .fd (Rg.JH_CLOSE_SEQ j)) then (.badArg, t)
    else match log with
      | [] => (.list [] [], t)
      | c :: _ =>
        if earlierThan 32 first c.seq then (.stale [(4, c.seq)], t)
        else (.list [] (((log.filter fun e => decide (0 ≤ sdiff 32 e.seq first)).take 7).map fun e => e.toBytes.map fun x => (1, x.toNat)), t))

/-- MIRROR_RESYNC_DONE (R292): the copy to the standby ends. -/
def execMirrorResyncDone (s : State) : Host.Outcome State Fault Refusal :=
  .next (if s.flag .fd Rg.SB_MIRROR_SYNC then (s.put .fd Rg.SB_MIRROR_SYNC 0).put .fd Rg.SB_MIRRORED 1 else s)

end Sys2Proof.Machine
end

