-- ==== Sys2Proof/Machine/Payload.lean ====
section
/-! DEFINITION. Payload transport (R257 to R264), the pipes' combines and the root's results (R274, R275), the payload commands (R283). -/

namespace Sys2Proof.Machine

open Sys2Proof

/-! Bodies on links. -/

/-- The ports to which a result is forwarded (R258): a distributor's member ports; a lead die's other members. -/
def State.resultPorts (p : Part) (job : Nat) (s : State) : List Nat :=
  match p with
  | .fd => s.portsOfMask (s.job job).memberPorts
  | .sc => if s.isLead then (otherDies (SMap.get 0 job s.die.sync.pkgMembers)).map (8 + ·) else []

/-- A result that a unit cannot obtain: whoever asks it for a repeat is answered with GONE (R264). -/
def State.resultGone (p : Part) (job seq : Nat) (s : State) : State :=
  (s.resultPorts p job).foldl (fun (t : State) n => t.modLink p n fun l =>
    { l with txBodies := l.txBodies.map fun b => if b.fkind = 2 && b.job = job && b.tag = seq then { b with gone := true, at_ := 0, sentBeat := none } else b }) s

/-- A body that cannot be obtained (R264): a partial's word is applied as contributing nothing, a result is lost. -/
def State.loseBody (p : Part) (n fkind job tag : Nat) (s : State) : State :=
  if fkind = 1 then
    let s1 := s.modRx p n 1 job tag fun r => { r with lost := true }
    match p with
    | .fd => s1.retryHeld
    | .sc => s1.retryDieHeld
  else
    let s1 := (s.dropRx p n 2 job tag).resultGone p job tag
    match p with
    | .fd => s1
    | .sc => s1.loseResult job tag

/-- A fragment is taken into its body (R258, R264): a partial that is whole lets its word proceed; a result's words go on toward the ports that the
CLOSE goes to, and a whole one is taken at the die. -/
def State.fragment (p : Part) (n : Nat) (f : Fragment) (s : State) : State :=
  if f.gone then s.loseBody p n f.fkind f.job f.tag
  else
    let s1 := s.modRx p n f.fkind f.job f.tag fun r => r.take f
    let r := (s1.rxBody p n f.fkind f.job f.tag).getD { fkind := f.fkind, job := f.job, tag := f.tag }
    if f.fkind = 1 then
      match p with
      | .fd => if r.whole && r.named then s1.retryHeld else s1
      | .sc => if r.whole && r.named then s1.retryDieHeld else s1
    else
      let s2 := (s1.resultPorts p f.job).foldl (fun (t : State) k => t.sendResult p f.job f.tag r.words r.body k) s1
      match p with
      | .fd => if r.whole && r.named then s2.dropRx .fd n 2 f.job f.tag else s2
      | .sc => s2.takeResult n f.job f.tag

/-- FRAGMENT_RECEIVE (R20, R258, R260, R264): a fragment from a port that carries words; partials come from below, or over a peer lane with the copy of an arrival, results from
above. -/
def execFragmentReceive (p : Part) (n : Nat) (f : Fragment) (s : State) : Host.Outcome State Fault Refusal :=
  .next (if !s.linkUp p n then s
    else if f.fkind = 1 then (if s.parentEnd p n || (p = .fd && prPorts.contains n) then s.fragment p n f else s)
    else if f.fkind = 2 then (if s.parentEnd p n then s else s.fragment p n f)
    else if f.fkind = 3 then s.repeatBody p n f.job f.tag
    else s)

/-- BODY_CHECK (R264): two beats after its naming word a body with a word missing is asked for. -/
def execBodyCheck (p : Part) (n fkind job tag : Nat) (s : State) : Host.Outcome State Fault Refusal :=
  .next (match s.rxBody p n fkind job tag with
    | none => s
    | some r =>
      let s := if r.named && r.requests == 0 && !r.lost then s.awaitBeat p r.dueBeat else s
      if !r.named || r.requests != 0 || r.lost || s.beat p < r.dueBeat then s
      else if r.whole then (if fkind = 2 then s.dropRx p n 2 job tag else s)
      else s.requestBody p n fkind job tag)

/-- REPEAT_REQUEST_TIMER (R264): 16 beats after a request the body is asked for again, up to 3 times; then it is lost. -/
def execRepeatRequestTimer (p : Part) (n fkind job tag : Nat) (s : State) : Host.Outcome State Fault Refusal :=
  .next (match s.rxBody p n fkind job tag with
    | none => s
    | some r =>
      let s := if r.requests != 0 && !r.lost && !r.whole then s.awaitBeat p r.dueBeat else s
      if r.requests = 0 || r.lost || r.whole || s.beat p < r.dueBeat then s
      else if r.requests < 3 then s.requestBody p n fkind job tag
      else s.loseBody p n fkind job tag)

/-- REPEAT_REQUEST (R264): the sender of a body is asked for it. -/
def execRepeatRequest (p : Part) (n job tag : Nat) (s : State) : Host.Outcome State Fault Refusal :=
  .next (if s.linkUp p n then s.repeatBody p n job tag else s)

/-- CLOSE_WORD (R257, R258): a mid or leaf forwards a CLOSE to the job's member ports and sees to the result it names. -/
def execCloseWord (n job bucket seq epoch contrib hash flags : Nat) (s : State) : Host.Outcome State Fault Refusal :=
  let w : CtlWord := { job := job, body := .close bucket seq epoch contrib flags hash }
  .next (if s.isActiveRoot then s.takeWord .fd n w else
    s.onWord n w fun t =>
      let t1 := t.sendMembers job w
      match t1.rxBody .fd n 2 job seq with
      | some r => if r.whole then t1.dropRx .fd n 2 job seq else t1.nameBody .fd n 2 job seq
      | none => t1.nameBody .fd n 2 job seq)

/-! Combines (R256, R274, R275). -/

/-- A combine leaves its pipe; the words that waited behind it and for its buffer go on. -/
def State.endCombine (c : Combine) (f : State → State) (s : State) : State :=
  let x := s.pipe c.pipe
  let s1 := s.setSpare { s.dist.spare with combines := s.dist.spare.combines.erase c }
  let s2 := (s1.setPipe c.pipe { x with busy := x.busy + c.body.sum.count }).pipeStates
  (f s2).retryHeld

/-- What a finished combine does: the arrival it belongs to is applied; a finished conversion waits for RESULT_FORMED. -/
def State.combineResult (c : Combine) (x : PayIn) (s : State) : State :=
  match c.word with
  | some (n, w) => s.endCombine c fun t => match arrOf n w with
    | some a => t.applyArrive a x
    | none => t
  | none =>
    let flags := match x with
      | .lost _ => orMask c.body.sum.pflags pfPipe
      | _ => c.body.sum.pflags
    let c1 := { c with fin := true, body := { c.body with sum := { c.body.sum with pflags := flags } } }
    (s.setSpare { s.dist.spare with combines := s.dist.spare.combines.map fun e => if e = c then c1 else e }).pipeStates

/-- PIPE_COMBINE_DONE (R275, R402, R410): the oldest combine of a pipe ends. A first mismatch is counted and the inputs are combined again on
another pipe; a second one drops the partial, or marks the result. A running PIPE_FAULT drill forces the first mismatch. -/
def execPipeCombineDone (i : Nat) (mismatch : Bool) (s : State) : Host.Outcome State Fault Refusal :=
  match s.dist.spare.combines.find? fun c => c.pipe == i && !c.fin with
  | none => .next s
  | some c =>
    let forced := s.dist.spare.forceMismatch && !c.second && !mismatch
    if !mismatch && !forced then
      let s1 := if c.second && s.dist.spare.drillSeen == 1 then s.setSpare { s.dist.spare with drillSeen := 2 } else s
      .next (s1.combineResult c (.body c.body))
    else if c.second then
      let s1 := ((s.bump .fd (Rg.PIPE_RETRY_FAIL i)).faultLog .fd 0x23 0 i).countPipe i
      .next (s1.combineResult c (.lost true))
    else
      let s1 := if forced then s.setSpare { s.dist.spare with forceMismatch := false, drillSeen := 1 } else s
      let s2 := (s1.bump .fd (Rg.PIPE_MISMATCH_CNT i)).faultLog .fd 0x20 3 i
      let s3 := if forced then s2 else s2.countPipe i
      let s4 := s3.setSpare { s3.dist.spare with combines := s3.dist.spare.combines.erase c }
      .next ((s4.startCombine { c with second := true } i).pipeStates)

/-- RESULT_FORMED (R257, R258, R262, R291, R293): the root's conversion of a slot's epoch has ended. The close takes the job's next CLOSE_SEQ; DONE
and CLOSE leave together, the result after it; the stud book and the close log take it. -/
def execResultFormed (h : Nat) (s : State) : Host.Outcome State Fault Refusal :=
  match s.dist.spare.combines.find? fun c => c.hslot == h && c.fin with
  | none => .next s
  | some c =>
    let o := c.done.getD (0, 0, 0, 0)
    let j := (s.slot h).job
    let seq := (s.get .fd (Rg.JH_CLOSE_SEQ j) + 1) % 2 ^ 32
    let body := c.body.convert o.2.1 o.2.2.1
    let ports := s.portsOfMask (s.job j).memberPorts
    let s1 := s.put .fd (Rg.JH_CLOSE_SEQ j) seq
    let s2 := s1.sendDone h (s.expected h) o.1 o.2.1 o.2.2.1 o.2.2.2
    let s3 := s2.sendMembers j { job := j, body := .close body.sum.bucket seq o.1 o.2.1 body.sum.pflags o.2.2.1 }
    let s4 := ports.foldl (fun (t : State) n => t.sendResult .fd j seq body.resultWords body n) s3
    let entry : CloseEntry := { seq := seq, bucket := body.sum.bucket, job := j, epoch := o.1, opFmt := body.sum.op + 16 * body.sum.fmt,
                                pflags := body.sum.pflags, contrib := o.2.1, doneFlags := o.2.2.2, hash := o.2.2.1, residue := body.sum.residue, beat := s.beat .fd % 2 ^ 32 }
    .next ((s4.recordClose entry body (bit c.body.present 0)).endCombine c id)

/-! Commands (R283). -/

/-- PIPE_READ (0x40; R283, R404): PSTATE, RETIRE_MAP and the 32 cells of a pipe. -/
def execPipeRead (m : MbGo) (s : State) : Host.Outcome State Fault Refusal :=
  .next (s.mailbox m 0x40 (fdOnly m.part 2) [1] none fun a t =>
    let i := a.getD 0 0
    if 67 < i then (.badArg, t)
    else (.ok ([(1, t.get .fd (Rg.PIPE_PSTATE i)), (1, t.get .fd (Rg.PIPE_RETIRE_MAP i))] ++ (List.range 32).map fun k => (1, SMap.get 0 k (t.pipe i).cells)), t))

/-- PAY_READ (0x41; R283): at the die the descriptors in flight from the lowest index; at the distributor buffers, open payload epochs, results
held. -/
def execPayRead (m : MbGo) (s : State) : Host.Outcome State Fault Refusal :=
  .next (s.mailbox m 0x41 (if m.part = .fd then some 2 else if s.die.payload then some 0 else none) [] none fun _ t =>
    match m.part with
    | .fd =>
      let opened := (t.dist.hall.slots.filter fun e => e.2.state != .free && e.2.payload).length
      let held := ((t.fd.links.map fun e => (e.2.txBodies.filter fun b => b.fkind == 2).map fun b => (b.job, b.tag)).flatten).eraseDups.length
      (.ok [(4, t.get .fd Rg.PAY_BUF_USED), (4, opened), (4, held)], t)
    | .sc =>
      let byIdx : SMap Desc := t.die.pay.descs.foldl (fun m d => SMap.set d.idx d m) []
      (.list [(2, t.get .sc Rg.SPAY_IN_FLIGHT)] ((byIdx.take 48).map fun e => [(4, e.2.hslot), (4, e.2.bucket), (2, e.2.epoch)]), t))

end Sys2Proof.Machine
end

