-- ==== Sys2Proof/Machine/FwOps.lean ====
section
/-! DEFINITION. Firmware images and their verification, the handover record, restarts and activation (R320, R351 to R359, R370 to R374), and the
emergency (R342), as operations. -/

namespace Sys2Proof.Machine

open Sys2Proof

/-! The emergency and its hold-off (R320, R342). -/

/-- The unit is in an emergency. -/
def State.emergency (p : Part) (s : State) : Bool := (s.unit p).emerg.conds != 0

/-- An emergency has ended less than 30 s ago. -/
def State.emergHold (p : Part) (s : State) : Bool :=
  !s.emergency p && match (s.unit p).emerg.endNow with
    | some t => decide (s.now < t + 30000000000)
    | none => false

/-! Prefects (R349 to R355). -/

/-- The prefects of a part. -/
def prefectCount (p : Part) : Nat := if p = .fd then 7 else 3

/-- The spare's index. -/
def spareIndex (p : Part) : Nat := prefectCount p - 1

/-- A prefect's own state. -/
def State.pref (p : Part) (i : Nat) (s : State) : Prefect := SMap.get {} i (s.unit p).fw.prefects

/-- The state with a prefect's own state replaced. -/
def State.setPref (p : Part) (i : Nat) (x : Prefect) (s : State) : State :=
  s.setFw p { (s.unit p).fw with prefects := SMap.set i x (s.unit p).fw.prefects }

/-- A prefect of the part restarts. -/
def State.restarting (p : Part) (s : State) : Bool := (List.range (prefectCount p)).any fun i => s.get p (Rg.PREF_STATE i) == 3

/-- An FW_EVENT record (R296). -/
def State.fwEvent (p : Part) (i ev : Nat) (s : State) : State :=
  s.record p { kind := 0x28, obj := i, arg := Config.eventCode 0x28 ev % 256, hallwide := true }

/-- Reflectometry runs are discarded while P5 is down and start again after it (R354). -/
def State.discardRuns (s : State) : State :=
  s.setUnit .fd { s.fd with links := s.fd.links.map fun e =>
    (e.1, if e.2.calRun.isSome then { e.2 with calRun := none, calWant := true } else e.2) }

/-- The role of a prefect. -/
def State.prefRole (p : Part) (i : Nat) (s : State) : Nat := s.get p (Rg.PREF_ROLE i)

/-- A prefect goes down (R352): STATE, LAST_CAUSE, RESTARTS, LAST_HT32 and an FW_EVENT record. `cause` is that of PREFECT_STATUS. What
P1 and P5 had in hand is lost: a formation that awaits its load instant (R369), reflectometry runs. -/
def State.prefectDown (p : Part) (i cause : Nat) (s : State) : State :=
  let s1 := (((s.put p (Rg.PREF_STATE i) 3).put p (Rg.PREF_LAST_CAUSE i) cause).put p (Rg.PREF_LAST_HT32 i) (s.ht32 p)).bump p (Rg.PREF_RESTARTS i)
  let s2 := s1.fwEvent p i cause
  if p = .fd && s.prefRole .fd i = 5 then s2.discardRuns
  else if p = .fd && s.prefRole .fd i = 1 then s2.setHall { s2.dist.hall with formBox := none }
  else s2

/-- The restarts that count toward the spare, within 10 minutes of now (R353). -/
def State.countedRestarts (p : Part) (i : Nat) (s : State) : List Nat := (s.pref p i).counted.filter fun t => decide (s.now < t + 600000000000)

/-- A restart from one of the first four causes of R352 (R353): the third within 10 minutes brings in the spare where it is idle; otherwise the
prefect keeps restarting and the alert asserts. -/
def State.prefectFail (p : Part) (i cause : Nat) (s : State) : State :=
  let times := (s.now :: s.countedRestarts p i)
  let s1 := s.prefectDown p i cause
  let s2 := (s1.setPref p i { (s1.pref p i) with counted := times }).put p (Rg.PREF_CRASHES i) (sat 4 times.length)
  let sp := spareIndex p
  if times.length < 3 then s2
  else if s2.get p (Rg.PREF_STATE sp) = 4 then
    let role := s2.prefRole p i
    let s3 := (s2.put p (Rg.PREF_STATE i) 5).put p (Rg.PREF_ROLE i) 15
    let s4 := ((s3.wake p 4 sp).put p (Rg.PREF_STATE sp) 3).put p (Rg.PREF_ROLE sp) role
    s4.faultLog p 0x42 1 i
  else ((s2.put p Rg.FSUM_PREFECT_NO_SPARE 1).faultLog p 0x43 0 i).faultAlert p

/-! Images (R356, R357). -/

/-- A little-endian field of a byte string. -/
def fieldAt (b : List Byte) (lo n : Nat) : Nat := ofLe ((b.drop lo).take n)

/-- One segment of an image (R356): ROLE, MEM, OFFSET, LENGTH, LOAD_ADDR. -/
structure Segment where
  role : Nat
  mem : Nat
  off : Nat
  len : Nat
  addr : Nat
  deriving DecidableEq, Repr

/-- The segment table of an image. -/
def segments (b : List Byte) : List Segment :=
  (List.range (fieldAt b 22 2)).map fun i =>
    let o := 80 + 16 * i
    { role := fieldAt b o 1, mem := fieldAt b (o + 1) 1, off := fieldAt b (o + 4) 4, len := fieldAt b (o + 8) 4, addr := fieldAt b (o + 12) 4 }

/-- The SHA-384 of the signed bytes. -/
def imageHash (b : List Byte) : BitVec 384 := Config.sha384 (b.take (fieldAt b 8 4))

/-- The first 8 bytes of a SHA-384 as the 8 bytes of IMAGE_DIGEST and DIGEST, in the byte order of the output. -/
def digestOf (h : BitVec 384) : Nat := ofLe ((leBytes 8 (h.toNat / 2 ^ 320)).reverse)

/-- The local SRAM of a prefect (R349). -/
def sramSize (p : Part) : Nat := if p = .fd then 524288 else 131072

/-- A segment lies inside the content and fits its prefect's memory (R357). -/
def segmentOk (p : Part) (kind len : Nat) (g : Segment) : Bool :=
  decide (512 ≤ g.off) && decide (g.off + g.len ≤ len)
    && (if kind = 1 then g.role == 0xFF
        else decide (g.role < (if p = .fd then 6 else 2)) && decide (g.mem < 2) && decide (g.addr + g.len ≤ sramSize p))

/-- The key field of an image (R356). -/
def imageKey (b : List Byte) : BitVec 384 := BitVec.ofNat 384 (ofLe (((b.drop 24).take 48).reverse))

/-- R357, as the ERROR code of R375: 0 where the ROM accepts an image of a kind of `n` bytes with its signature. The order of the tests is log
entry 21. -/
def imageError (p : Part) (stepping kind n : Nat) (b : List Byte) : Nat :=
  let len := fieldAt b 8 4
  let seg := segments b
  if fieldAt b 0 4 != 0x57465856 || fieldAt b 4 2 != 1 || fieldAt b 7 1 != kind || seg.length = 0 || 16 < seg.length then 1
  else if (if p = .fd then 8388608 else 1048576) < len || n != len + 96 || seg.any (fun g => !segmentOk p kind len g)
      || (List.range 6).any (fun r => sramSize p < ((seg.filter fun g => g.role == r).foldl (fun a g => a + g.len) 0)) then 5
  else if fieldAt b 6 1 != (if p = .fd then 0 else 1) then 4
  else if !bit (fieldAt b 20 2) stepping then 8
  else if Config.romKey (p = .sc) (imageKey b) = 0 then 2
  else if Config.romKey (p = .sc) (imageKey b) = 2 then 3
  else if !Config.ecdsaOk (imageKey b) (imageHash b) ((b.drop len).take 96) then 2
  else 0

/-- The (field, value) pairs of a configuration image's segment, 8 bytes each: the identifier, the value (log entry 4). -/
def configPairs (b : List Byte) (g : Segment) : SMap Nat :=
  (List.range (g.len / 8)).foldl (fun m i => SMap.set (fieldAt b (g.off + 8 * i) 4) (fieldAt b (g.off + 8 * i + 4) 4) m) []

/-- An image as the part keeps it. -/
def parseImage (addr : Nat) (b : List Byte) : Img :=
  { version := fieldAt b 12 4, schema := fieldAt b 16 2, schemaMin := fieldAt b 18 2, digest := (imageHash b).toNat, addr := addr, len := fieldAt b 8 4
    accept := ((List.range 32).map fun i => (fieldAt b (336 + 4 * i) 1, fieldAt b (337 + 4 * i) 1, fieldAt b (338 + 4 * i) 1)).takeWhile fun e => e.1 != 0
    fields := if fieldAt b 7 1 = 1 then match segments b with
      | g :: _ => configPairs b g
      | [] => []
      else [] }

/-- IMAGE_DIGEST of an image. -/
def Img.imageDigest (i : Img) : Nat := digestOf (BitVec.ofNat 384 i.digest)

/-! The handover record (R371, R373). -/

/-- The sections of a part's handover record. -/
def sectionIds (p : Part) : List Nat := if p = .fd then [1, 2, 3, 4, 5, 6] else [0x11, 0x12]

/-- The record that a running image keeps: its schema, and each section in the newest schema its ACCEPT table names (log entry 21). -/
def FwSt.keepRecord (p : Part) (i : Img) (fw : FwSt) : FwSt :=
  { fw with recordSchema := i.schema, sections := (sectionIds p).map fun k => (k, ((i.accept.find? fun e => e.1 == k).map (·.2.2)).getD 0) }

/-- R373: the staged image's header accepts the record. -/
def FwSt.accepts (i : Img) (fw : FwSt) : Bool :=
  decide (i.schemaMin ≤ fw.recordSchema) && decide (fw.recordSchema ≤ i.schema)
    && fw.sections.all fun e => i.accept.any fun a => a.1 == e.1 && decide (a.2.1 ≤ e.2) && decide (e.2 ≤ a.2.2)

/-- The staged image accepts the record. -/
def State.acceptOk (p : Part) (s : State) : Bool :=
  match (s.unit p).fw.staged with
  | some i => (s.unit p).fw.accepts i
  | none => false

/-- FW_STATUS brought up to date (R375). -/
def State.fwRegs (p : Part) (s : State) : State :=
  let fw := (s.unit p).fw
  let i := fw.staged.getD {}
  let s1 := ((s.putFlag p Rg.FWS_STAGED fw.staged.isSome).putFlag p Rg.FWS_ACCEPT_OK (s.acceptOk p)).putFlag p Rg.FWS_ACT_PENDING (!fw.committed.isEmpty || fw.deferred.isSome)
  let s2 := (s1.putFlag p Rg.FWS_HOLD_OFF (s.emergency p || s.emergHold p)).put p Rg.FWS_SCHEMA ((fw.running.getD {}).schema)
  let d := if fw.staged.isSome then i.imageDigest else 0
  ((s2.put p Rg.FWS_STAGED_VERSION i.version).put p Rg.FWS_STAGED_DIGEST_LO d).put p Rg.FWS_STAGED_DIGEST_HI (d / 2 ^ 32)

/-! Activation (R374). -/

/-- Steps 1 to 3 of an activation: every active prefect that runs goes to ACTIVATING, the record header is written with SEQ incremented. -/
def State.startActivation (p : Part) (s : State) : State :=
  let s1 := (List.range (prefectCount p)).foldl (fun (t : State) i => if t.get p (Rg.PREF_STATE i) = 2 || t.get p (Rg.PREF_STATE i) = 3 then t.put p (Rg.PREF_STATE i) 6 else t) s
  let s2 := if p = .fd then s1.setHall { s1.dist.hall with formBox := none } else s1
  (s2.setFw p { (s2.unit p).fw with activating := some s.now, handoverSeq := (s2.unit p).fw.handoverSeq + 1, deferred := none }).restage p

/-- A FW_ACTIVATE action takes effect (R320): in an emergency, within 30 s of one, or during a prefect restart the unit keeps its image and defers. -/
def State.changeActivates (p : Part) (digest : Nat) (s : State) : State :=
  match (s.unit p).fw.staged with
  | none => s
  | some i =>
    if i.imageDigest != digest then s
    else if s.emergency p || s.emergHold p || s.restarting p then
      (((s.setFw p { (s.unit p).fw with deferred := some digest }).bump p Rg.TT_FW_DEFERRED).fwEvent p 0 8).fwRegs p
    else s.startActivation p

end Sys2Proof.Machine
end

