-- ==== Sys2Proof/Machine/HallJobs.lean ====
section
/-! DEFINITION. Jobs and hall slots at the root (R216 to R218, R234, R246, R249), their installs down the tree (R217, R380, R450). -/

namespace Sys2Proof.Machine

open Sys2Proof

/-! Slots: allocation, installation, freeing. -/

/-- The hall slots (R216). -/
def hallSlots : Nat := 1048576

/-- A slot as its attributes make it (R217, R218): COUNTING, E = 1, GEN as given. The root's deadline and timeout of the first epoch run
from the allocation (log entry 24). -/
def State.newSlot (a : SlotAttr) (s : State) : HSlot :=
  let root := s.isActiveRoot
  let ht := s.htNs .fd
  { state := .counting, policy := a.policy, bell := a.bell, payload := a.payload, job := a.job, gen := a.gen, e := 1, completed := 0
    deadlineNs := a.deadlineNs, hardMs := a.hardMs, quorum := a.quorum
    dlBeat := if root && a.policy then beatAtOrAfter (ht + a.deadlineNs) % 2 ^ 32 else 0
    hardBeat := if root && a.hardMs != 0 then beatAtOrAfter (ht + 1000000 * a.hardMs) % 2 ^ 32 else 0 }

/-- The slot at the head of the root's free list (R217): an index, or BUSY 1 while every free slot is inside its 10 ms, REFUSED 2 when no
slot is free. -/
def State.freeHall (s : State) : Nat ⊕ Nat :=
  let h := s.dist.hall
  if h.neverUsed < hallSlots then .inl h.neverUsed
  else match h.freed with
    | [] => .inr 2
    | i :: _ => match (s.slot i).freedNow with
      | some t => if t + 10000000 ≤ s.now then .inl i else .inr 1
      | none => .inl i

/-- A slot taken from the free list: its index leaves the list, its GEN goes up by one (R217). -/
def State.takeHall (i : Nat) (s : State) : Nat × State :=
  let h := s.dist.hall
  let h1 := if i = h.neverUsed then { h with neverUsed := h.neverUsed + 1 } else { h with freed := h.freed.filter (· != i) }
  (((s.slot i).gen + 1) % 256, s.setHall h1)

/-- A slot goes FREE at this unit (R249); at the root it goes to the tail of the free list. -/
def State.dropHall (i : Nat) (s : State) : State :=
  let v := s.slot i
  if v.state = .free then s
  else
    let s1 := (s.setSlot i { state := .free, gen := v.gen, freedNow := some s.now }).freePartials .fd (s.upPorts .fd ++ prPorts) v.job i v.e
    let s2 := if s.isActiveRoot then s1.setHall { s1.dist.hall with freed := s1.dist.hall.freed ++ [i] } else s1
    (s2.bufSync).jobRegs v.job

/-- The ports on which a job's installs travel. -/
def State.jobPorts (j : Nat) (s : State) : List Nat := s.portsOfMask (s.job j).memberPorts

/-- A slot freed at every level (R249). -/
def State.freeEverywhere (i : Nat) (s : State) : State :=
  let v := s.slot i
  (s.sendTunnels .fd (s.jobPorts v.job) (.slotFree i v.gen)).dropHall i

/-- The attributes of a live slot, as an install carries them. -/
def HSlot.attr (i : Nat) (v : HSlot) : SlotAttr :=
  { hslot := i, gen := v.gen, job := v.job, policy := v.policy, bell := v.bell, payload := v.payload, deadlineNs := v.deadlineNs, hardMs := v.hardMs,
    quorum := v.quorum }

/-- A job already holds a live BELL slot (R218). -/
def State.bellLive (j : Nat) (s : State) : Bool := (s.jobSlots j).any fun h => (s.slot h).bell

/-- R218: the attributes are in range. -/
def SlotAttr.ok (a : SlotAttr) : Bool :=
  decide (a.quorum ≤ 4194303) && decide (a.hardMs ≤ 65535) && (!a.policy || (a.payload && decide (1024 ≤ a.deadlineNs))) && !(a.bell && a.policy)

/-- HBAR_ALLOC (0x20; R217, R218, R249): JOB, POLICY, BELL, PAYLOAD, DEADLINE_NS, HARD_MS, QUORUM. It completes when the slot is installed. -/
def execHbarAlloc (m : MbGo) (s : State) : Host.Outcome State Fault Refusal :=
  .next (s.mailbox m 0x20 (fdOnly m.part 2) [1, 1, 1, 1, 4, 2, 4] (some 0) (fun a t => t.atRoot (
    let j := a.getD 0 0
    let attr : SlotAttr := { hslot := 0, gen := 0, job := j, policy := a.getD 1 0 == 1, bell := a.getD 2 0 == 1, payload := a.getD 3 0 == 1,
                             deadlineNs := a.getD 4 0, hardMs := a.getD 5 0, quorum := a.getD 6 0 }
    if 63 < j || !t.flag .fd (Rg.JH_CREATED j) || 1 < a.getD 1 0 || 1 < a.getD 2 0 || 1 < a.getD 3 0 || !attr.ok then (.badArg, t)
    else if attr.bell && t.bellLive j then (.refuse, t)
    else if (t.job j).hslotQuota ≤ (t.jobSlots j).length + t.reservedCount j then (.quota, t)
    else match t.freeHall with
      | .inr st => (.fail st 0, t)
      | .inl i =>
        let r := t.takeHall i
        let attr1 := { attr with hslot := i, gen := r.1 }
        let t1 := ((r.2.setSlot i (r.2.newSlot attr1)).jobRegs j).sendTunnels .fd (r.2.jobPorts j) (.slotInstall attr1)
        if (r.2.jobPorts j).isEmpty then (.ok [(4, i), (1, r.1)], t1) else (.wait [i, r.1], t1))))

/-- HBAR_ALLOC_INSTALLED (R217): the slot is installed wherever the job is carried on ALIGNED paths, and HBAR_ALLOC completes. The install has
left every tunnel of this unit. -/
def execHbarAllocInstalled (h : Nat) (s : State) : Host.Outcome State Fault Refusal :=
  let gen := (s.slot h).gen
  let inTunnel := (s.fd.links.any fun e => e.2.tunnel.any fun x => x == .slotInstall ((s.slot h).attr h))
  let box := (s.mbWaiting .fd 0x20).find? fun b => match (s.mail .fd b).wait with
    | some w => w.args.getD 0 0 == h && w.args.getD 1 0 == gen
    | none => false
  .next (match box with
    | some b => if inTunnel then s else s.mbComplete .fd b (.ok [(4, h), (1, gen)])
    | none => s)

/-- A slot named by HSLOT and GEN is live. -/
def State.hallLive (h gen : Nat) (s : State) : Bool := (s.slot h).state != .free && (s.slot h).gen == gen

/-- HBAR_FREE (0x21; R249). -/
def execHbarFree (m : MbGo) (s : State) : Host.Outcome State Fault Refusal :=
  .next (s.mailbox m 0x21 (fdOnly m.part 2) [4, 1] none (fun a t => t.atRoot (
    if !t.hallLive (a.getD 0 0) (a.getD 1 0) then (.badArg, t) else (.ok [], t.freeEverywhere (a.getD 0 0)))))

/-- HBAR_SET (0x22; R249): HSLOT, GEN, DEADLINE_NS, HARD_MS, QUORUM; with 32 bytes of arguments ABS_DEADLINE instead of the three. New
attributes apply from the next epoch. -/
def execHbarSet (m : MbGo) (s : State) : Host.Outcome State Fault Refusal :=
  .next (s.mailbox m 0x22 (fdOnly m.part 2) [4, 1, 4, 2, 4] none (fun a t => t.atRoot (
    let h := a.getD 0 0
    let v := t.slot h
    if !t.hallLive h (a.getD 1 0) then (.badArg, t)
    else if 32 ≤ m.args.length then
      let abs := (parseFields m.args 0 [4, 1, 4, 2, 4, 8]).getD 5 0
      if !v.policy then (.badArg, t)
      else if v.state != .counting || abs < t.htNs .fd then (.refuse, t)
      else (.ok [], t.setSlot h { v with dlBeat := beatAtOrAfter abs % 2 ^ 32 })
    else
      let attr : SlotAttr := { hslot := h, gen := v.gen, job := v.job, policy := v.policy, payload := v.payload, deadlineNs := a.getD 2 0, hardMs := a.getD 3 0, quorum := a.getD 4 0 }
      if !attr.ok then (.badArg, t)
      else (.ok [], t.setSlot h { v with deadlineNs := if v.policy then attr.deadlineNs else v.deadlineNs, hardMs := attr.hardMs, nextQuorum := some attr.quorum }))))

/-- HBAR_RESOLVE (0x23; R234, R249): action 0 CLOSE completes the open epoch with FORCED; a held completion is left alone (R336). -/
def execHbarResolve (m : MbGo) (s : State) : Host.Outcome State Fault Refusal :=
  .next (s.mailbox m 0x23 (fdOnly m.part 2) [4, 1, 1] none (fun a t => t.atRoot (
    let h := a.getD 0 0
    let v := t.slot h
    if !t.hallLive h (a.getD 1 0) || a.getD 2 0 != 0 then (.badArg, t)
    else if !(v.state == .counting || v.state == .called || v.state == .quorumWait || v.state == .unresolved) then (.refuse, t)
    else if v.holding then (.ok [], t)
    else
      let t1 := if v.paid then t else (t.missingPorts h).foldl (fun (u : State) p =>
        u.setSlot h { (u.slot h) with hash := Nat.xor (u.slot h).hash (u.mhashAt v.job p) }) t
      (.ok [], (t1.rootComplete h true).hallTest h))))

/-- HBAR_READ (0x24; R219, R249): the slot record at this unit. -/
def execHbarRead (m : MbGo) (s : State) : Host.Outcome State Fault Refusal :=
  .next (s.mailbox m 0x24 (fdOnly m.part 2) [4] none fun a t =>
    if hallSlots ≤ a.getD 0 0 then (.badArg, t) else (.bytes ((t.slot (a.getD 0 0)).toBytes t.isActiveRoot), t))

/-- JOB_HALL_STATUS (0x26; R249). -/
def execJobHallStatus (m : MbGo) (s : State) : Host.Outcome State Fault Refusal :=
  .next (s.mailbox m 0x26 (fdOnly m.part 2) [1] (some 0) (fun a t => t.atRoot (
    let j := a.getD 0 0
    let b := t.job j
    if 63 < j then (.badArg, t)
    else (.ok [(1, t.get .fd (Rg.JH_CREATED j)), (4, t.get .fd (Rg.JH_MEMBERS j)), (4, t.get .fd (Rg.JH_SUSPECT j)), (1, t.get .fd (Rg.JH_DEADLOCK j)),
      (4, ((t.jobSlots j).filter fun h => (t.slot h).state == .unresolved).length), (4, b.hslotQuota), (4, (t.jobSlots j).length + t.reservedCount j),
      (2, t.get .fd (Rg.JM_PAY_SHARE j)), (8, b.lastBell), (8, b.lastBellBeat), (4, t.get .fd (Rg.JH_CLOSE_SEQ j))], t))))

/-- SUSPECT_READ (0x27; R249): up to 48 suspected member rolls from a roll upward, with the HT32 of detection. -/
def execSuspectRead (m : MbGo) (s : State) : Host.Outcome State Fault Refusal :=
  .next (s.mailbox m 0x27 (fdOnly m.part 2) [1, 4] (some 0) (fun a t => t.atRoot (
    let j := a.getD 0 0
    if 63 < j then (.badArg, t)
    else
      let es := t.dist.hall.suspects.filter fun e => decide (a.getD 1 0 ≤ e.1) && SMap.get 0 e.1 (t.job j).members != 0
      (.list [] ((es.take 48).map fun e => [(4, e.1), (4, e.2)]), t))))

/-- HBAR_DUMP (0x28; R249). -/
def execHbarDump (m : MbGo) (s : State) : Host.Outcome State Fault Refusal :=
  .next (s.mailbox m 0x28 (fdOnly m.part 2) [1] (some 0) (fun a t => t.atRoot (if 63 < a.getD 0 0 then (.badArg, t) else (.ok [], t.dumpJob (a.getD 0 0)))))

/-! Jobs (R246). -/

/-- The cadence parameters at their register resets (R246, R346). -/
def State.cadenceReset (j : Nat) (s : State) : State :=
  ([Rg.PJ_STEP_FLOOR j, Rg.PJ_RECESS_LOW j, Rg.PJ_STAGGER_LOG2 j, Rg.PJ_AUTO_RECESS j, Rg.PJ_STAGGER_BEATS j, Rg.PJ_RECESS_DETECT_MS j,
    Rg.PJ_MIN_INTERVAL_BEATS j, Rg.PJ_HOLD_US j, Rg.PJ_LEVEL_OUT j, Rg.PJ_RECESS j, Rg.PJ_PHASE j, Rg.PJ_HOLDING j].foldl (fun t f => t.put .fd f f.reset) s).setPj j {}

/-- The report card of a job cleared (R415). -/
def State.rcClear (j : Nat) (s : State) : State :=
  (([Rg.RC_COMPUTE_MS j, Rg.RC_WAIT_MS j, Rg.RC_RECESS_MS j, Rg.RC_RECOVERY_MS j, Rg.RC_DRILL_MS j, Rg.RC_BELLS j].foldl (fun t f => t.put .fd f 0) s).put .fd
    (Rg.RC_SINCE_BEAT j) (s.beat .fd)).setJob j { (s.job j) with rcNs := [0, 0, 0, 0, 0] }

/-- JOB_CREATE (0x29; R246, R249): JOB, HSLOT_QUOTA, SB_QUOTA, ATT_RATE, PAY_SHARE. -/
def execJobCreate (m : MbGo) (s : State) : Host.Outcome State Fault Refusal :=
  .next (s.mailbox m 0x29 (fdOnly m.part 2) [1, 4, 2, 4, 2] (some 0) (fun a t => t.atRoot (
    let j := a.getD 0 0
    if 63 < j || hallSlots < a.getD 1 0 || 4096 < a.getD 2 0 || 2 ^ 24 ≤ a.getD 3 0 || a.getD 4 0 = 0 || 1024 < a.getD 4 0 then (.badArg, t)
    else if t.flag .fd (Rg.JH_CREATED j) then (.refuse, t)
    else
      let t1 := (t.setJob j { hslotQuota := a.getD 1 0, installed := true, created := true }).put .fd (Rg.JH_CREATED j) 1
      let t2 := (((t1.put .fd (Rg.JH_CLOSE_SEQ j) 0).put .fd (Rg.JM_SB_QUOTA j) (a.getD 2 0)).put .fd (Rg.JM_ATT_RATE j) (a.getD 3 0)).put .fd (Rg.JM_PAY_SHARE j) (a.getD 4 0)
      let t3 := ((t2.cadenceReset j).put .fd (Rg.JD_CONSENT j) t.dist.spare.consentDefault).rcClear j
      (.ok [], (t3.sendTunnels .fd (List.range 64) (.jobShares j (a.getD 3 0) (a.getD 4 0))).jobRegs j))))

/-- JOB_END (0x2A; R246, R249): refused while the job has a member or a change that is not in effect; otherwise its slots, pages, log and quotas
go at once, CREATED at the next beat boundary. -/
def execJobEnd (m : MbGo) (s : State) : Host.Outcome State Fault Refusal :=
  .next (s.mailbox m 0x2A (fdOnly m.part 2) [1] (some 0) (fun a t => t.atRoot (
    let j := a.getD 0 0
    if 63 < j || !t.flag .fd (Rg.JH_CREATED j) then (.badArg, t)
    else if (t.job j).memberCount != 0 || t.fd.tt.changes.any (fun c => c.scope == 0 && c.job == j && c.state < 4) then (.refuse, t)
    else
      let t1 := (t.jobSlots j).foldl (fun (u : State) h => u.freeEverywhere h) t
      let t2 := (t1.sbFreeJob j).setJob j { ((t1.sbFreeJob j).job j) with hslotQuota := 0, ending := some (t.beat .fd) }
      let t3 := ((t2.put .fd (Rg.JM_SB_QUOTA j) 0).put .fd (Rg.JM_ATT_RATE j) 0).put .fd (Rg.JM_PAY_SHARE j) 0
      (.ok [], ((t3.sendTunnels .fd (List.range 64) (.jobEnd j)).sbRegs j).jobRegs j))))

/-- JOB_END_EFFECT (R246): at the beat boundary after JOB_END CREATED clears and the job's record is empty. -/
def execJobEndEffect (j : Nat) (s : State) : Host.Outcome State Fault Refusal :=
  .next (match (s.job j).ending with
    | some b => ((s.awaitBeat .fd (b + 1)).setJob j {}).put .fd (Rg.JH_CREATED j) 0
    | none => s)

/-! Installs (R217, R380, R450). -/

/-- The words of a job held for its install are applied in order (R380). -/
def State.releaseHeld (j : Nat) (s : State) : State :=
  let q := s.dist.hall.holdq
  let s1 := s.setHall { s.dist.hall with holdq := q.filter fun e => e.2.job != j }
  (q.filter fun e => e.2.job == j).foldl (fun (t : State) e => match e.2.body with
    | .monitor ctx src ht32 dead => match execMonitorWord e.1 j ctx src ht32 dead t with
      | .next u => u
      | _ => t
    | _ => t.hallWord e.1 e.2) s1

/-- The member tables of a job as the rolls below this unit give them (R220). -/
def State.tablesOf (rolls : List (Nat × Nat × Nat)) (b : Job) (s : State) : Job :=
  let mem := rolls.filter fun r => r.2.1 != 0
  { b with
    mcount := mem.foldl (fun q r => SMap.set (s.portToward r.1) (SMap.get 0 (s.portToward r.1) q + 1) q) []
    mhash := mem.foldl (fun q r => SMap.set (s.portToward r.1) (Nat.xor (SMap.get 0 (s.portToward r.1) q) (rollHash r.1)) q) []
    members := rolls.foldl (fun q r => SMap.set r.1 r.2.1 q) []
    gens := rolls.foldl (fun q r => SMap.set r.1 r.2.2 q) []
    installed := true, created := true }

/-- A job's tables toward one port: the rolls of that port's subtree, where the child is a distributor. -/
def State.sendTables (j n : Nat) (s : State) : State :=
  let b := s.job j
  let rolls := (b.members.filter fun e => s.rollInPort n e.1).map fun e => (e.1, e.2, SMap.get 0 e.1 b.gens)
  if s.role == 4 then s else s.sendTunnel .fd n (.memberTables j rolls)

/-- SLOT_INSTALL (R217, R246, R380, R450): an install from the parent is taken in by P2 from stage 3 on and forwarded down. -/
def execSlotInstall (n : Nat) (msg : TunMsg) (s : State) : Host.Outcome State Fault Refusal :=
  if !s.roleUp .fd 2 || s.get .fd Rg.START_STAGE < 3 then .next s
  else
    let s1 := s.modLink .fd n fun l => { l with tunIn := l.tunIn.erase msg }
    .next (match msg with
      | .slotInstall a =>
        if s1.hallLive a.hslot a.gen then s1
        else ((s1.setSlot a.hslot (s1.newSlot a)).jobRegs a.job).sendTunnels .fd (s1.jobPorts a.job) msg
      | .slotFree h gen => if s1.hallLive h gen then (s1.sendTunnels .fd (s1.jobPorts (s1.slot h).job) msg).dropHall h else s1
      | .memberTables j rolls =>
        let s2 := (s1.setJob j (s1.tablesOf rolls (s1.job j))).jobRegs j
        let s3 := (List.range 64).foldl (fun (t : State) p => if SMap.get 0 p (t.job j).mcount != 0 then t.sendTables j p else t) s2
        (s3.releaseHeld j).recheckJob j
      | .jobShares j rate share => (((s1.setJob j { (s1.job j) with created := true }).put .fd (Rg.JM_ATT_RATE j) rate).put .fd (Rg.JM_PAY_SHARE j) share).sendTunnels .fd (List.range 64) msg
      | .jobEnd j =>
        let s2 := (s1.jobSlots j).foldl (fun (t : State) h => t.dropHall h) s1
        (((s2.setJob j {}).put .fd (Rg.JM_ATT_RATE j) 0).put .fd (Rg.JM_PAY_SHARE j) 0).sendTunnels .fd (List.range 64) msg
      | _ => s)

end Sys2Proof.Machine
end

