-- ==== Sys2Proof/Machine/Power.lean ====
section
/-! DEFINITION. Hall power (chapter 12): the shaper's tick and its step timers, floors, telemetry, emergencies, the shaper's commands. -/

namespace Sys2Proof.Machine

open Sys2Proof

/-! The control law (R334, R335, R338 to R345). -/

/-- u by the under-frequency law (R338); FREQ is in µHz. -/
def State.ufLaw (s : State) : Nat :=
  let f0 := if s.flag .fd Rg.MNS_NOM then 60000000 else 50000000
  let delta := f0 - s.get .fd Rg.MNS_FREQ
  let db := 1000 * s.get .fd Rg.PWR_UF_DB
  if delta ≤ db then 0 else min (s.get .fd Rg.PWR_UF_MAX) ((delta - db) * s.get .fd Rg.PWR_UF_GAIN / 1000000)

/-- u brought up to date at a tick (R338). -/
def State.ufTick (s : State) : State :=
  let valid := s.flag .fd Rg.MNS_MAINS_VALID
  let seq := s.get .fd Rg.MNS_GATE_SEQ
  let cur := s.get .fd Rg.PWRS_UF_NOW
  let u := if !s.flag .fd Rg.PWR_UF_EN then 0
    else if valid then (if seq = s.dist.power.gateSeen then cur else s.ufLaw)
    else if s.flag .fd Rg.MNS_FREQ_ALM then s.get .fd Rg.PWR_UF_MAX else cur
  ((s.put .fd Rg.PWRS_UF_NOW u).putFlag .fd Rg.PWRS_UF_ACTIVE (u != 0)).setPower { s.dist.power with gateSeen := if valid then seq else s.dist.power.gateSeen }

/-- cap_c (R339): the setpoint against the hall's dies. -/
def State.capC (s : State) : Nat :=
  let env := s.get .fd Rg.PWR_ENVELOPE_KW
  let cur := s.get .fd Rg.PWR_CURTAIL_KW
  let sp := if cur = 0 then env else min cur env
  let full := s.get .fd Rg.PWRH_DIES * s.get .fd Rg.PWR_DIE_W
  if full = 0 then 100 else min 100 (100 * sp * 1000 / full)

/-- F_j in W (R340). -/
def State.fullW (j : Nat) (s : State) : Nat := s.get .fd (Rg.JH_MEMBERS j) * s.get .fd Rg.PWR_DIE_W

/-- The jobs of a direction, and every created job where the cap moves in it (R340). -/
def State.movers (up : Bool) (s : State) : List Nat :=
  let x := s.dist.power
  (List.range 64).filter fun j => if up then x.capUp && s.flag .fd (Rg.JH_CREATED j) || (s.pj j).up else x.capDown && s.flag .fd (Rg.JH_CREATED j) || (s.pj j).down

/-- The ticks of one step in a direction (R340). -/
def State.stepTicks (up : Bool) (s : State) : Nat :=
  let sum := (s.movers up).foldl (fun a j => a + s.fullW j) 0
  let rate := s.get .fd (if up then Rg.PWR_RAMP_UP else Rg.PWR_RAMP_DN) * s.get .fd Rg.PWR_ENVELOPE_KW
  max 1 (ceilDiv (sum * 100000000) (rate * 1048576))

/-- Something waits in a direction. -/
def State.waits (up : Bool) (s : State) : Bool :=
  let x := s.dist.power
  (if up then x.capUp else x.capDown) || (List.range 64).any fun j => if up then (s.pj j).up else (s.pj j).down

/-- An idle timer is loaded for what has joined its direction; a direction that nothing waits in is idle (R340). -/
def State.loadTimer (up : Bool) (s : State) : State :=
  let x := s.dist.power
  let t := if !s.waits up then none
    else match (if up then x.upAt else x.downAt) with
      | some b => some b
      | none => some (s.beat .fd + 1024 * s.stepTicks up)
  s.setPower (if up then { x with upAt := t } else { x with downAt := t })

/-- The count of a BELL slot of the job is complete and held (R335, R336). -/
def State.bellHeld (j : Nat) (s : State) : Bool := (s.jobSlots j).any fun h => (s.slot h).bell && (s.slot h).holding

/-- The job's bells have stopped (R334). -/
def State.bellsStopped (j : Nat) (s : State) : Bool :=
  let x := s.pj j
  s.flag .fd (Rg.PJ_AUTO_RECESS j) && match x.lastStep with
    | none => false
    | some t => decide (t + max (1000000 * s.get .fd (Rg.PJ_RECESS_DETECT_MS j)) (4 * meanGap x.gaps) ≤ s.htNs .fd)

/-- The 16 bytes of R348 are in range. -/
def cadenceOk (b : List Byte) : Bool :=
  let f := fieldAt b
  decide (f 0 1 ≤ 100) && decide (f 1 1 ≤ 100) && decide (f 2 1 % 8 ≤ 5) && f 2 1 / 8 % 16 == 0 && f 7 1 == 0 && decide (10 ≤ f 8 2) && f 10 6 == 0

/-- The cadence parameters of a job set (R348). -/
def State.setCadence (j : Nat) (b : List Byte) (s : State) : State :=
  let f := fieldAt b
  let s1 := (((s.put .fd (Rg.PJ_STEP_FLOOR j) (f 0 1)).put .fd (Rg.PJ_RECESS_LOW j) (f 1 1)).put .fd (Rg.PJ_STAGGER_LOG2 j) (f 2 1 % 8)).put .fd (Rg.PJ_AUTO_RECESS j) (f 2 1 / 128)
  ((s1.put .fd (Rg.PJ_STAGGER_BEATS j) (f 3 1)).put .fd (Rg.PJ_MIN_INTERVAL_BEATS j) (f 4 3)).put .fd (Rg.PJ_RECESS_DETECT_MS j) (f 8 2)

/-- A job's part of the tick (R334, R335, R345): cadence that waited, entry into recess, the direction its ramp waits for. -/
def State.jobTick (s : State) (j : Nat) : State :=
  if !s.flag .fd (Rg.JH_CREATED j) then s
  else
    let s1 := if (s.pj j).cad.isEmpty then s else (s.setCadence j (s.pj j).cad).setPj j { (s.pj j) with cad := [] }
    let x := s1.pj j
    let enter := !x.recess && (x.ask || s1.bellsStopped j)
    let rise := x.recess && (x.resume || s1.bellHeld j)
    let x1 : JobPwr := if enter then { x with recess := true, ask := false, resume := false, rampUp := false, level := 100, gapBroken := true } else { x with rampUp := rise }
    let x2 := { x1 with up := x1.recess && x1.rampUp && decide (x1.level < 100) && !s1.frozen,
                        down := x1.recess && !x1.rampUp && decide (s1.get .fd (Rg.PJ_RECESS_LOW j) < x1.level) }
    s1.setPj j x2

/-- Every job's level sent where it has changed. -/
def State.sendFloors (s : State) : State := (List.range 64).foldl (fun (t : State) j => if t.flag .fd (Rg.JH_CREATED j) then t.sendFloor j else t) s

/-- The shaper's tick (R345). -/
def State.shaperTick (s : State) : State :=
  let s1 := s.ufTick
  let capUf := 10000 / (100 + s1.get .fd Rg.PWRS_UF_NOW)
  let capC := s1.capC
  let x := s1.dist.power
  let x1 : PowerSt := if capUf < x.cap then { x with cap := capUf, capDown := false, capUp := false }
    else if capC < x.cap then { x with capDown := true, capUp := false }
    else if x.cap < min capUf capC && !s1.frozen then { x with capUp := true, capDown := false }
    else { x with capUp := false, capDown := false }
  let s2 := (List.range 64).foldl State.jobTick (s1.setPower x1)
  let s3 := (s2.loadTimer false).loadTimer true
  let s4 := ((s3.put .fd Rg.PWRS_CAP s3.dist.power.cap).putFlag .fd Rg.PWRS_CURTAILING (decide (capC < 100))).putFlag .fd Rg.PWRS_FROZEN s3.frozen
  s4.sendFloors

/-- SHAPER_TICK (R327, R345, R401): at every beat whose number is a multiple of 1,024. The pipes take the core temperature (0.01 °C); at the active root
the shaper runs while P3 is up. -/
def execShaperTick (temp : Int) (s : State) : Host.Outcome State Fault Refusal :=
  let s := s.periodic .fd 0 1024 0
  .next (if s.beat .fd % 1024 != 0 then s
    else
      let s1 := s.pipeTick temp
      if s1.shaperUp then s1.shaperTick else s1)

/-- One step of everything that waits in a direction (R340). -/
def State.stepLevels (up : Bool) (s : State) : State :=
  let x := s.dist.power
  let s1 := s.setPower (if up then { x with cap := if x.capUp then x.cap + 1 else x.cap } else { x with cap := if x.capDown then x.cap - 1 else x.cap })
  (List.range 64).foldl (fun (t : State) j =>
    let y := t.pj j
    if up && y.up then t.setPj j { y with level := y.level + 1, up := decide (y.level + 1 < 100) }
    else if !up && y.down then t.setPj j { y with level := y.level - 1, down := decide (t.get .fd (Rg.PJ_RECESS_LOW j) < y.level - 1) }
    else t) s1

/-- The cap has reached its target in a direction. -/
def State.capArrived (s : State) : State :=
  let x := s.dist.power
  let target := min (10000 / (100 + s.get .fd Rg.PWRS_UF_NOW)) s.capC
  s.setPower { x with capUp := x.capUp && decide (x.cap < target), capDown := x.capDown && decide (s.capC < x.cap) }

/-- STEP_TIMER_EXPIRY (R340, R341): at the tick at which a direction's timer expires every level waiting there moves by 1, the timer is reloaded for what
still moves, FLOOR words go out. While FROZEN nothing rises. -/
def execStepTimerExpiry (up : Bool) (s : State) : Host.Outcome State Fault Refusal :=
  let at_ := if up then s.dist.power.upAt else s.dist.power.downAt
  let s := match at_ with
    | some b => if s.shaperUp && !(up && s.frozen) then s.awaitBeat .fd (nextPhase (max b (s.beat .fd)) 1024 0) else s
    | none => s
  let due := match at_ with
    | some b => decide (b ≤ s.beat .fd)
    | none => false
  .next (if !s.shaperUp || s.beat .fd % 1024 != 0 || !due || (up && s.frozen) then s
    else
      let s1 := (s.stepLevels up).capArrived
      let x := s1.dist.power
      let s2 := (s1.setPower (if up then { x with upAt := none } else { x with downAt := none })).loadTimer up
      (s2.put .fd Rg.PWRS_CAP s2.dist.power.cap).sendFloors)

/-- COMPLETION_RELEASE (R336): a held completion is tried again at the HT from which its stretch and its job's bell interval allow it; it completes once every condition
holds. -/
def execCompletionRelease (h : Nat) (s : State) : Host.Outcome State Fault Refusal :=
  let v := s.slot h
  .next (if s.isActiveRoot && v.holding then
      ((if s.rampDone v.job then s.awaitHt .fd (max (v.completeHt.getD 0) (s.bellSpaced v.job).toNat) else s).hallTest h)
    else s)

/-! Floors (R332). -/

/-- FLOOR_WORD (R331, R332): a distributor forwards it to the job's member ports and keeps it for ports that align later; a lead die forwards it to the
members of its package; a member die holds it for AT_BEAT, or applies it at once where that has passed. -/
def execFloorWord (p : Part) (n job level : Nat) (recess : Bool) (atBeat : Nat) (s : State) : Host.Outcome State Fault Refusal :=
  let w : CtlWord := { job := job, body := .floor level recess atBeat }
  let s0 := s.takeWord p n w
  match p with
  | .fd => .next (if s.isActiveRoot then s0 else (s0.setJob job { (s0.job job) with lastFloor := some (level, recess, atBeat) }).sendMembers job w)
  | .sc =>
    let s1 := (s0.bellDies job).foldl (fun t d => t.toDie d w) s0
    .next (if !s1.flag .sc (Rg.SJH_MEMBER job) then s1
      else if 100 < level % 128 then s1.bump .sc (Rg.LINK_BAD_WORD n)
      else if atBeat ≤ s1.beat .sc then s1.applyLevel job level recess
      else (s1.setDie { s1.die with pwr := { s1.die.pwr with floors := s1.die.pwr.floors ++ [(job, level, recess, atBeat)] } }))

/-- FLOOR_APPLY (R332, R333): at a beat boundary the floors whose AT_BEAT has come apply. -/
def execFloorApply (s : State) : Host.Outcome State Fault Refusal :=
  let s := match s.die.pwr.floors with
    | f :: l => s.awaitBeat .sc (l.foldl (fun (m : Nat) (g : Nat × Nat × Bool × Nat) => min m g.2.2.2) f.2.2.2)
    | [] => s
  let q := s.die.pwr.floors
  let due := fun f : Nat × Nat × Bool × Nat => decide (f.2.2.2 ≤ s.beat .sc)
  let s1 := s.setDie { s.die with pwr := { s.die.pwr with floors := q.filter fun f => !due f } }
  .next ((q.filter due).foldl (fun (t : State) (f : Nat × Nat × Bool × Nat) => if t.flag .sc (Rg.SJH_MEMBER f.1) then t.applyLevel f.1 f.2.1 f.2.2.1 else t) s1)

/-- FLOOR_RESEND (R332): the root resends each job's last FLOOR word 65,536 beats after it was last sent. -/
def execFloorResend (s : State) : Host.Outcome State Fault Refusal :=
  let sent := (List.range 64).filterMap fun j => if (s.pj j).floor.isSome then some (s.pj j).floorSent else none
  let s := match sent with
    | b :: l => if s.shaperOn then s.awaitBeat .fd (l.foldl min b + 65536) else s
    | [] => s
  .next (if !s.shaperOn then s
    else (List.range 64).foldl (fun (t : State) j =>
      let x := t.pj j
      match x.floor with
      | some (l, r, b) =>
        if x.floorSent + 65536 ≤ t.beat .fd then (t.setPj j { x with floorSent := t.beat .fd }).sendMembers j { job := j, body := .floor l r b } else t
      | none => t) s)

/-! Telemetry (R328 to R330). -/

/-- The package-die samples that a lead die holds, by die. -/
def State.dieReport (d mw b : Nat) (s : State) : State :=
  s.setDie { s.die with pwr := { s.die.pwr with reports := SMap.set d (mw, b) s.die.pwr.reports } }

/-- POWER_SAMPLE (R328, R329): 256 beats after a report beat the step core samples PWR_AVG_MW; a non-lead die sends its sample at once. -/
def execPowerSample (mw : Nat) (valid : Bool) (s : State) : Host.Outcome State Fault Refusal :=
  let s := if s.die.running then s.periodic .sc 6 1024 256 else s
  .next (if s.beat .sc % 1024 != 256 || !s.die.running then s
    else if !valid then s.put .sc Rg.SPWR_TEL_MISS 1
    else
      let b := s.beat .sc - 256
      let s1 := (s.setDie { s.die with pwr := { s.die.pwr with sample := some mw } }).put .sc Rg.SPWR_LAST_MW mw
      if s.die.pkgIndex = 0 then s1.dieReport 0 mw b
      else s1.modLink .sc 8 fun l => { l with telOut := { powerMw := mw, dies := 1, valid := true, reportBeat := b } })

/-- The reports that a lead die sums (R330): its own and those of the dies of its package that it has heard or whose links are up. -/
def State.pkgReports (s : State) : List Telemetry :=
  ((List.range 8).filter fun d => d == 0 || s.linkUp .sc (8 + d) || (SMap.find d s.die.pwr.reports).isSome).map fun d =>
    match SMap.find d s.die.pwr.reports with
    | some x => { powerMw := x.1, dies := 1, valid := true, reportBeat := x.2 }
    | none => {}

/-- A sum of reports for a beat (R330): (power, dies, partial). A report that has not come counts with its last power, nothing where none ever came, and makes the sum partial;
after 16 periods of silence it counts as 0. -/
def sumReports (b : Nat) (rs : List Telemetry) : Nat × Nat × Bool :=
  rs.foldl (fun a r =>
    if !r.valid then (a.1, a.2.1, true)
    else if r.reportBeat = b then (a.1 + r.powerMw, a.2.1 + r.dies, a.2.2 || r.partialSum)
    else (a.1 + (if r.reportBeat + 16384 ≤ b then 0 else r.powerMw), a.2.1, true)) (0, 0, false)

/-- TELEMETRY_SEND (R329, R330, R342): at its sending frame a unit sums the reports from below and sends them up in CW41; a distributor publishes its own
sum, the root the hall's. -/
def execTelemetrySend (p : Part) (s : State) : Host.Outcome State Fault Refusal :=
  match p with
  | .sc =>
    let s := if s.die.pkgIndex = 0 then s.periodic .sc 5 1024 0 else s
    if s.beat .sc % 1024 != 0 || s.die.pkgIndex != 0 || s.beat .sc < 1024 then .next s
    else
      let b := s.beat .sc - 1024
      let x := sumReports b (s.pkgReports)
      let t : Telemetry := { powerMw := sat 32 x.1, dies := x.2.1, valid := true, partialSum := x.2.2, reportBeat := b }
      .next ([0, 1].foldl (fun (u : State) n => u.modLink .sc n fun l => { l with telOut := t }) s)
  | .fd =>
    let lag := if s.role = 4 then 2048 else if s.role = 3 then 3072 else 4096
    let s := if s.role = 0 then s else s.periodic .fd 5 1024 0
    if s.beat .fd % 1024 != 0 || s.role = 0 || s.beat .fd < lag then .next s
    else
      let b := s.beat .fd - lag
      let x := sumReports b (((List.range 64).filter fun n => s.carriesAt n && (s.linkUp .fd n || (s.link .fd n).tel.valid)).map fun n => (s.link .fd n).tel)
      let sum := if s.isActiveRoot then sat 48 x.1 else sat 32 x.1
      let s1 := (((s.put .fd Rg.PWRH_POWER_LO sum).put .fd Rg.PWRH_POWER_HI (sum / 2 ^ 32)).put .fd Rg.PWRH_DIES x.2.1).put .fd Rg.PWRH_REPORT_BEAT b
      let s2 := s1.putFlag .fd Rg.PWRS_TEL_PARTIAL x.2.2
      if s.isActiveRoot then
        let env := 1000000 * s.get .fd Rg.PWR_ENVELOPE_KW
        let o := s.dist.power.overRun
        let o1 := if env * 105 < sum * 100 then min 3 (o + 1) else if env < sum && o = 3 then 3 else 0
        .next ((s2.putFlag .fd Rg.PWRS_OVER_ENVELOPE (decide (env < sum))).setPower { s2.dist.power with overRun := o1 })
      else
        let t : Telemetry := { powerMw := sum, dies := x.2.1, valid := true, partialSum := x.2.2, reportBeat := b }
        .next ((s2.upPorts .fd).foldl (fun (u : State) n => u.modLink .fd n fun l => { l with telOut := t }) s2)

/-! Emergencies (R342). -/

/-- The emergency conditions that hold, as bits: 0 PM_EMERG; 1 the distributor's core temperature; at the active root 2 MAINS_SAG_N, 3 u = UF_MAX,
4 the hall sum. -/
def State.emergNow (p : Part) (asserted : Bool) (temp : Int) (s : State) : Nat :=
  match p with
  | .sc => ofBool asserted
  | .fd =>
    let hot := decide (10500 ≤ temp) || (bit s.fd.emerg.conds 1 && decide (10000 ≤ temp))
    let u := s.get .fd Rg.PWR_UF_MAX != 0 && s.get .fd Rg.PWRS_UF_NOW == s.get .fd Rg.PWR_UF_MAX && s.shaperOn
    2 * ofBool hot + (if s.isActiveRoot then 4 * ofBool (s.flag .fd Rg.MNS_SAG) + 8 * ofBool u + 16 * ofBool (s.dist.power.overRun == 3) else 0)

/-- The emergency's register and pin. -/
def State.emergFlag (p : Part) (b : Bool) (s : State) : State :=
  match p with
  | .fd => s.putFlag .fd Rg.PWRS_EMERGENCY b
  | .sc => (s.putFlag .sc Rg.SPWR_PM_EMERG b).putFlag .sc Rg.SPIN_PM_EMERG b

/-- EMERGENCY_START (R342): a condition holds, PM_EMERG with `asserted` on the step core, the core temperature (0.01 °C) and the root's conditions on a
distributor. The first one starts the emergency, which is recorded. -/
def execEmergencyStart (p : Part) (asserted : Bool) (temp : Int) (s : State) : Host.Outcome State Fault Refusal :=
  let c := s.emergNow p asserted temp
  let e := (s.unit p).emerg
  .next (if c = 0 then s
    else
      let s1 := s.setUnit p { s.unit p with emerg := { e with conds := c, startHt := if e.conds = 0 then s.ht p else e.startHt, endNow := none } }
      let s2 := s1.emergFlag p true
      if e.conds = 0 then (s2.faultLog p 0x60 0 0).fwRegs p else s2)

/-- EMERGENCY_END (R342): no condition holds; the end is recorded for the 30 s hold-off. -/
def execEmergencyEnd (p : Part) (asserted : Bool) (temp : Int) (s : State) : Host.Outcome State Fault Refusal :=
  let c := s.emergNow p asserted temp
  let e := (s.unit p).emerg
  .next (if e.conds = 0 || c != 0 then s
    else
      let s1 := s.setUnit p { s.unit p with emerg := { e with conds := 0, endNow := some s.now } }
      ((s1.emergFlag p false).faultLog p 0x60 0 0).fwRegs p)

/-! Commands (R348). -/

/-- PWR_READ (0x70; R348): hall sum, DIES, u, A, FROZEN, EMERGENCY, LEVEL_OUT and PHASE of every job. -/
def execPwrRead (m : MbGo) (s : State) : Host.Outcome State Fault Refusal :=
  .next (s.mailbox m 0x70 (s.own2880 m.part 3) [] none fun _ t => t.atRoot (
    let g := fun f => t.get .fd f
    (.ok ([(8, g Rg.PWRH_POWER_LO + 2 ^ 32 * g Rg.PWRH_POWER_HI), (4, g Rg.PWRH_DIES), (1, g Rg.PWRS_UF_NOW), (1, t.dist.power.cap), (1, ofBool t.frozen),
      (1, g Rg.PWRS_EMERGENCY)] ++ ((List.range 64).map fun j => [(1, g (Rg.PJ_LEVEL_OUT j)), (1, g (Rg.PJ_PHASE j))]).flatten), t)))

/-- PWR_JOB_SET (0x71; R348): JOB and the 16 bytes of R348; refused while the job holds a live BELL slot. It counts from the next tick. -/
def execPwrJobSet (m : MbGo) (s : State) : Host.Outcome State Fault Refusal :=
  .next (s.mailbox m 0x71 (s.own2880 m.part 3) (1 :: List.replicate 16 1) (some 0) fun a t => t.atRoot (
    let j := a.getD 0 0
    let b := (m.args.drop 1).take 16
    if 63 < j || !t.flag .fd (Rg.JH_CREATED j) || !cadenceOk b then (.badArg, t)
    else if t.bellLive j then (.refuse, t)
    else (.ok [], t.setPj j { (t.pj j) with cad := b })))

/-- PWR_RECESS (0x72; R334, R348). -/
def execPwrRecess (m : MbGo) (s : State) : Host.Outcome State Fault Refusal :=
  .next (s.mailbox m 0x72 (s.own2880 m.part 3) [1] (some 0) fun a t => t.atRoot (
    let j := a.getD 0 0
    if 63 < j || !t.flag .fd (Rg.JH_CREATED j) then (.badArg, t)
    else if (t.pj j).recess then (.refuse, t)
    else (.ok [], t.setPj j { (t.pj j) with ask := true })))

/-- PWR_RESUME (0x73; R335, R348): the ramp turns upward at the next tick; answered with the beat at which LEVEL 100 is due. -/
def execPwrResume (m : MbGo) (s : State) : Host.Outcome State Fault Refusal :=
  .next (s.mailbox m 0x73 (s.own2880 m.part 3) [1] (some 0) fun a t => t.atRoot (
    let j := a.getD 0 0
    let x := t.pj j
    if 63 < j || !t.flag .fd (Rg.JH_CREATED j) then (.badArg, t)
    else if !x.recess then (.refuse, t)
    else
      let t1 := t.setPj j { x with resume := true }
      let ticks := (t.setPj j { x with up := true }).stepTicks true
      let start := ceilDiv (t.beat .fd + 1) 1024 * 1024
      let first := t.dist.power.upAt.getD (start + 1024 * ticks)
      let due := if 100 ≤ x.level then start else first + 1024 * ticks * (99 - x.level)
      (.ok [(8, due + t.lead)], t1)))

end Sys2Proof.Machine
end

