-- ==== Sys2Proof/Machine/TtBody.lean ====
section
/-! DEFINITION. The body of a timetable change (R308, R310, R449): action records, their layout, the scopes and values allowed. -/

namespace Sys2Proof.Machine

open Sys2Proof

/-- An action of a change (R308). -/
inductive TtAct where
  | member (roll action gen : Nat)
  | swap (frees : List (Nat × Nat)) (installs : List SlotAttr)
  | opp (point : Nat)
  | cadence (b : List Byte)
  | refAccept (x mode off : Nat)
  | refCancel (x : Nat)
  | fwActivate (target digest : Nat)
  | drillMask (mask : Nat)
  | quota (kind ctx value : Nat)
  | homing (k j mode : Nat)
  deriving DecidableEq, Repr

/-- Bytes that are all zero. -/
def zeros (b : List Byte) (lo n : Nat) : Bool := fieldAt b lo n == 0

/-- An install entry of a SLOT_SWAP record, at its offset (R449). -/
def swapInstall (job : Nat) (r : List Byte) (o : Nat) : SlotAttr :=
  { hslot := fieldAt r o 4 % hallSlots, gen := fieldAt r (o + 4) 1, job := job, policy := fieldAt r (o + 8) 1 == 1, bell := fieldAt r (o + 9) 1 == 1,
    payload := fieldAt r (o + 10) 1 == 1, deadlineNs := fieldAt r (o + 12) 4, hardMs := fieldAt r (o + 16) 2, quorum := fieldAt r (o + 20) 4 }

/-- An install entry meets its layout: zeros where the table gives them, flags of one bit. -/
def swapInstallOk (r : List Byte) (o : Nat) : Bool :=
  decide (fieldAt r o 4 < hallSlots) && zeros r (o + 5) 3 && decide (fieldAt r (o + 8) 1 < 2) && decide (fieldAt r (o + 9) 1 < 2) && decide (fieldAt r (o + 10) 1 < 2)
    && zeros r (o + 11) 1 && zeros r (o + 18) 2 && decide (fieldAt r (o + 20) 4 < 2 ^ 22)

/-- The LEN of a record in 8-byte units (R449), 0 for a reserved TYPE. -/
def recordLen (r : List Byte) : Nat :=
  match fieldAt r 0 1 with
  | 2 => 2 + fieldAt r 8 2 + 3 * fieldAt r 10 2
  | 4 => 3
  | 7 => 3
  | 1 | 3 | 5 | 6 | 8 | 9 | 10 => 2
  | _ => 0

/-- A record read by R449: none where its TYPE is reserved, its LEN differs or a byte that the table gives as zero is not. `job` is the change's. -/
def parseRecord (job : Nat) (r : List Byte) : Option TtAct :=
  let f := fieldAt r
  if !(zeros r 1 1 && zeros r 4 4 && f 2 2 == recordLen r && r.length == 8 * f 2 2) then none
  else match f 0 1 with
    | 1 => if zeros r 13 3 && decide (f 8 3 < 2 ^ 21) then some (.member (f 8 3) (f 11 1) (f 12 1)) else none
    | 2 =>
      let n := f 8 2
      let k := f 10 2
      let at_ := fun i => 16 + 8 * n + 24 * i
      if decide (n ≤ 256) && decide (k ≤ 256) && zeros r 12 4 && (List.range n).all (fun i => decide (f (16 + 8 * i) 4 < hallSlots) && zeros r (21 + 8 * i) 3)
          && (List.range k).all (fun i => swapInstallOk r (at_ i)) then
        some (.swap ((List.range n).map fun i => (f (16 + 8 * i) 4, f (20 + 8 * i) 1)) ((List.range k).map fun i => swapInstall job r (at_ i)))
      else none
    | 3 => if zeros r 9 7 then some (.opp (f 8 1)) else none
    | 4 => some (.cadence ((r.drop 8).take 16))
    | 5 => if zeros r 10 2 then some (.refAccept (f 8 1) (f 9 1) (f 12 4)) else none
    | 6 => if zeros r 9 7 then some (.refCancel (f 8 1)) else none
    | 7 => if zeros r 9 7 then some (.fwActivate (f 8 1) (f 16 8)) else none
    | 8 => some (.drillMask (f 8 8))
    | 9 => if zeros r 10 2 then some (.quota (f 8 1) (f 9 1) (f 12 4)) else none
    | 10 => if zeros r 11 5 then some (.homing (f 8 1) (f 9 1) (f 10 1)) else none
    | _ => none

/-- A body cut into its records by their LEN; at most `k` of them. -/
def splitRecords : Nat → List Byte → Option (List (List Byte))
  | 0, b => if b.isEmpty then some [] else none
  | k + 1, b =>
    if b.isEmpty then some []
    else
      let n := 8 * fieldAt b 2 2
      if n = 0 || b.length < n then none
      else match splitRecords k (b.drop n) with
        | some t => some (b.take n :: t)
        | none => none

/-- The records of a body with their actions. -/
def parseBody (job : Nat) (b : List Byte) : Option (List (List Byte × TtAct)) :=
  match splitRecords (b.length / 8) b with
  | none => none
  | some rs => rs.mapM fun r => (parseRecord job r).map fun a => (r, a)

/-- A SLOT_SWAP record as the root sends it: the installs carry the HSLOT and GEN allocated (R449). -/
def swapBytes (frees : List (Nat × Nat)) (installs : List SlotAttr) : List Byte :=
  leBytes 1 2 ++ leBytes 1 0 ++ leBytes 2 (2 + frees.length + 3 * installs.length) ++ leBytes 4 0 ++ leBytes 2 frees.length ++ leBytes 2 installs.length ++ leBytes 4 0
    ++ (frees.map fun e => leBytes 4 e.1 ++ leBytes 1 e.2 ++ leBytes 3 0).flatten
    ++ (installs.map fun a => leBytes 4 a.hslot ++ leBytes 1 a.gen ++ leBytes 3 0 ++ leBytes 1 (ofBool a.policy) ++ leBytes 1 (ofBool a.bell) ++ leBytes 1 (ofBool a.payload)
        ++ leBytes 1 0 ++ leBytes 4 a.deadlineNs ++ leBytes 2 a.hardMs ++ leBytes 2 0 ++ leBytes 4 a.quorum).flatten

/-- The action is a MEMBER record, which the body that travels leaves out (R312). -/
def TtAct.isMember : TtAct → Bool
  | .member _ _ _ => true
  | _ => false

/-- The action is allowed in a scope (R308): 0 JOB, 1 HALL, 2 ROOT_PAIR. -/
def TtAct.allowed (scope : Nat) : TtAct → Bool
  | .member _ _ _ | .swap _ _ | .cadence _ | .quota _ _ _ => scope == 0
  | .opp _ | .drillMask _ => scope == 0 || scope == 1
  | .refAccept _ _ _ | .refCancel _ => scope == 2
  | .fwActivate _ _ => true
  | .homing _ _ _ => scope == 1

/-- The unit is a leaf of the pair (k, j) or one of its two sister mids (R18). -/
def State.homingHere (k j : Nat) (s : State) : Bool :=
  let own := s.get .fd Rg.ROLL_ROLL
  bits own 16 5 == k && (s.role == 3 || (s.role == 4 && bits own 9 6 == j))

/-- A pair's homing mode at a mid or leaf (R18). The leaf under the even mid carries a dual-homed pair (R20); the mid under the other counts none of its packages
(R223). -/
def State.takeHoming (k j : Nat) (dual : Bool) (s : State) : State :=
  let h := s.dist.hall
  let odd := bit (s.get .fd Rg.ROLL_ROLL) 15
  if !s.homingHere k j then s
  else if s.role == 3 then
    if bit h.homing j = dual then s
    else s.setHall { h with homing := if dual then setBit h.homing j else clearBit h.homing j, away := SMap.set j (if dual && odd then 2 ^ 64 - 1 else 0) h.away }
  else s.runHoming dual h.mismatch

/-- An action's value is reserved, or out of range, or the action is absent on the unit that must apply it (R313, REASON 0x0B; R308, R411). -/
def TtAct.bad (p : Part) (s : State) : TtAct → Bool
  | .member _ a _ => decide (1 < a)
  | .swap _ xs => p = .fd && xs.any fun a => !a.ok
  | .opp point => p = .sc && !s.pointValid point
  | .cadence b => p = .fd && (s.role == 1 || s.role == 2) && (s.dist.variant != .vxd2880 || !cadenceOk b)
  | .refAccept x mode _ => p = .fd && s.role == 1 && ((refOf x).isNone || decide (1 < mode))
  | .refCancel x => p = .fd && s.role == 1 && (refOf x).isNone
  | .fwActivate t _ => decide (1 < t)
  | .drillMask m => decide (2 ^ 6 ≤ m)
  | .quota k c v =>
    if k = 0 then p = .sc && (decide (4096 < v) || (decide (63 < c) && c != 255))
    else if p = .sc then false
    else if k = 1 then decide (hallSlots < v) || c != 0
    else if k = 2 then decide (4096 < v) || c != 0
    else if k = 3 then decide (2 ^ 24 ≤ v) || c != 0
    else if k = 4 then v == 0 || decide (1024 < v) || c != 0
    else true
  | .homing k j mode => p = .fd && (decide (31 < k) || decide (63 < j) || decide (1 < mode))

/-- A FW_ACTIVATE action names this unit's kind. -/
def TtAct.activates (p : Part) : TtAct → Option Nat
  | .fwActivate t d => if (p = .fd && t == 0) || (p = .sc && t == 1) then some d else none
  | _ => none

end Sys2Proof.Machine
end

