-- ==== Sys2Proof/Machine/Timetable.lean ====
section
/-! DEFINITION. Timetable changes (chapter 11): submission, votes, decisions and effects at the distributor and the step core. -/

namespace Sys2Proof.Machine

open Sys2Proof

/-! The changes a unit holds. -/

/-- A unit's timetable state. -/
def State.tt (p : Part) (s : State) : TtSt := (s.unit p).tt

/-- The state with a unit's timetable state replaced. -/
def State.setTt (p : Part) (x : TtSt) (s : State) : State := s.setUnit p { s.unit p with tt := x }

/-- The change of a TXN_ID, if the unit holds a record of it. -/
def State.chg (p : Part) (txn : Nat) (s : State) : Option TtChg := (s.tt p).changes.find? fun c => c.txn == txn

/-- The state with a change replaced. -/
def State.setChg (p : Part) (c : TtChg) (s : State) : State :=
  s.setTt p { s.tt p with changes := (s.tt p).changes.map fun x => if x.txn = c.txn then c else x }

/-- A change entered; the last 1,024 are kept, the decided ones being dropped first from the oldest (R316, R326). -/
def State.addChg (p : Part) (c : TtChg) (s : State) : State :=
  let l := (s.tt p).changes ++ [c]
  let excess := l.length - 1024
  let old := ((l.filter fun x => decide (4 ≤ x.state)).take excess).map (·.txn)
  s.setTt p { s.tt p with changes := l.filter fun x => !old.contains x.txn }

/-- The change is prepared and awaits its decision. -/
def TtChg.prepared (c : TtChg) : Bool := c.state == 1 || c.state == 2

/-- A word of a change: HALLWIDE but for scope JOB (R121, R316). -/
def TtChg.word (c : TtChg) (b : CtlBody) : CtlWord := if c.scope = 0 then { job := c.job, body := b } else { job := 0, hallwide := true, body := b }

/-- The actions of a change's body. -/
def TtChg.acts (c : TtChg) : List TtAct := ((parseBody c.job c.bytes).getD []).map (·.2)

/-- A reason for NO of R313 that concerns the unit whatever the change. -/
def State.noNow (p : Part) (s : State) : Nat :=
  if s.emergency p then 1
  else if s.inGuard p then 2
  else if s.restarting p || s.activating p then 3
  else 0

/-- FD_TT_STATUS or SC_TT_STATUS brought up to date (R325). -/
def State.ttRegs (p : Part) (s : State) : State :=
  let cs := (s.tt p).changes
  let prep := (cs.filter (·.prepared)).length
  let pend := (cs.filter fun c => c.state == 3).length
  ((((s.put p Rg.TT_PREPARED (sat 4 prep)).put p Rg.TT_PENDING (sat 5 pend)).putFlag p Rg.TT_NO_NOW (s.noNow p != 0)).putFlag p Rg.TT_EMERG_HOLD (s.emergHold p)).putFlag
    p Rg.TT_DRILL_HOLD (prep + pend != 0)

/-- A TT_EVENT record of a step (R324). -/
def State.ttEvent (p : Part) (txn job : Nat) (hallwide : Bool) (step reason : Nat) (s : State) : State :=
  s.record p { kind := 0x27, obj := txn % 2 ^ 24, arg := step + 256 * (reason % 256), job := job, hallwide := hallwide }

/-- A TT_EVENT record of a change. -/
def State.chgEvent (p : Part) (c : TtChg) (step reason : Nat) (s : State) : State := s.ttEvent p c.txn c.job (c.scope != 0) step reason

/-- A decision is known at this unit (R325). -/
def State.decided (p : Part) (txn reason : Nat) (s : State) : State := (s.put p Rg.TT_LAST_TXN txn).put p Rg.TT_LAST_REASON reason

/-! Ports (R309). -/

/-- The mirror lane that carries a change's words between the roots. -/
def State.mirrorUp (s : State) : Option Nat := prPorts.find? fun n => s.linkUp .fd n

/-- The downstream ports of a scope: the job's MEMBER_PORTS with those toward the rolls of ADD records, every port for HALL, none for
ROOT_PAIR; at a lead die the member dies' positions. Only ports that are ALIGNED or SUSPECT (R309). -/
def State.ttDown (p : Part) (scope job : Nat) (members : List (Nat × Nat × Nat)) (s : State) : List Nat :=
  let all := match p with
    | .fd =>
      let adds := ((members.filter fun (m : Nat × Nat × Nat) => m.2.1 == 0 && s.rollInPort (s.portToward m.1) m.1).map fun (m : Nat × Nat × Nat) => s.portsOf (s.portToward m.1)).flatten
      if scope = 0 then (List.range 64).filter fun n => (s.portsOfMask (s.job job).memberPorts ++ adds).contains n
      else if scope = 1 then List.range 64
      else []
    | .sc =>
      if !s.isLead then []
      else if scope = 0 then
        let mask := members.foldl (fun a (m : Nat × Nat × Nat) => if m.2.1 = 0 && m.1 / 8 = s.get .sc Rg.SROLL_ROLL / 8 then setBit a (m.1 % 8) else a) (SMap.get 0 job s.die.sync.pkgMembers)
        (otherDies mask).map (8 + ·)
      else if scope = 1 then (List.range (s.die.pkgDies - 1)).map (9 + ·)
      else []
  all.filter fun n => s.linkUp p n

/-- A leaf that carries packages of its pair passes the words of a change to its partner over a peer lane (R309). -/
def State.ttPartner (p : Part) (s : State) : List Nat := if p = .fd && s.carries then s.peerLane.toList else []

/-- The ports that take part in the vote: those below, and at the active root the standby (R309). -/
def State.ttVoters (p : Part) (c : TtChg) (s : State) : List Nat :=
  s.ttDown p c.scope c.job c.members ++ (if p = .fd && s.isActiveRoot then (match s.mirrorUp with
    | some n => [n]
    | none => []) else [])

/-- A position mask as a list. -/
def maskPorts (m : Nat) : List Nat := setBits 80 m

/-- A change's word sent to every port that received its PREPARE, and to the partner. -/
def State.sendChg (p : Part) (c : TtChg) (b : CtlBody) (s : State) : State := s.sendWords p (maskPorts c.ports ++ s.ttPartner p) (c.word b)

/-- A vote sent up (R314): the standby votes over the mirror, a partner that a carrying leaf serves not at all. -/
def State.sendVote (p : Part) (c : TtChg) (yes : Bool) (reason src ht32 : Nat) (s : State) : State :=
  let w := c.word (.vote c.txn yes reason src ht32)
  if p = .fd && s.role == 2 then (match s.mirrorUp with
    | some n => s.sendWord .fd n w
    | none => s)
  else if p = .fd && !s.carries then s
  else s.sendUp p w

/-! A unit's own vote (R313). -/

/-- The bell `at_` of a change, and every later one, is still to come (serial, w = 48). -/
def bellAhead (next at_ : Nat) : Bool := decide (0 ≤ sdiff48 at_ next)

/-- The job would hold more hall slots or pages than it may (R313, REASON 0x04): at a root. -/
def State.overQuota (c : TtChg) (s : State) : Bool :=
  let frees := c.acts.foldl (fun n a => match a with
    | .swap fs _ => n + (fs.filter fun e => s.hallLive e.1 e.2).length
    | _ => n) 0
  let ins := c.acts.foldl (fun n a => match a with
    | .swap _ xs => n + xs.length
    | _ => n) 0
  s.isActiveRoot && c.scope == 0 && ins != 0 && decide ((s.job c.job).hslotQuota + frees < (s.jobSlots c.job).length + s.reservedCount c.job)

/-- A port that received the PREPARE went DOWN before its vote arrived (R313, REASON 0x09). -/
def State.voteLinkLost (p : Part) (c : TtChg) (s : State) : Bool :=
  (maskPorts c.ports).any fun n => !bit c.yes n && (!s.linkUp p n || decide (c.prepBeat < (s.link p n).alignedBeat))

/-- The first reason of R313 that applies at this unit, 0 for none. `arriving` is the evaluation when the PREPARE arrives. -/
def State.ttReason (p : Part) (c : TtChg) (arriving : Bool) (s : State) : Nat :=
  let g := s.noNow p
  let acts := c.acts
  let act := acts.filterMap (·.activates p)
  let busy := (((s.tt p).changes.filter fun x => x.prepared && x.txn != c.txn).length, ((s.tt p).changes.filter fun x => x.state == 3).length)
  if g = 1 || g = 2 then g
  else if g = 3 && !c.sentYes then 3
  else if s.overQuota c then 4
  else if arriving && (!c.hasBody || digestOf (Config.sha384 c.bytes) != c.digest || (parseBody c.job c.bytes).isNone) then 5
  else if arriving && !(p = .fd && s.isActiveRoot) && !laterThan 16 (c.vd % 2 ^ 16) (s.beat p) then 6
  else if p = .sc && acts.any (fun a => match a with
      | .opp _ => decide (c.at_ * 1024 < c.vd * 1024 + 4096)
      | _ => false) then 6
  else if !act.isEmpty && s.emergHold p then 7
  else if act.any (fun d => match (s.unit p).fw.staged with
      | some i => i.imageDigest != d
      | none => true) || (!act.isEmpty && !s.acceptOk p) then 8
  else if !c.sentYes && s.voteLinkLost p c then 9
  else if arriving && (8 ≤ busy.1 || 16 ≤ busy.2) then 10
  else if acts.any (TtAct.bad p s) || c.members.any (fun m => 1 < m.2.1) then 11
  else 0

/-! Slots held for a change (R310). -/

/-- A slot held unused is freed: it goes to the tail of the free list and leaves the job's count. -/
def State.unreserve (i : Nat) (s : State) : State :=
  let v := s.slot i
  if !v.reserved then s
  else
    let s1 := s.setSlot i { state := .free, gen := v.gen, freedNow := some s.now }
    (s1.setHall { s1.dist.hall with freed := s1.dist.hall.freed ++ [i] }).jobRegs v.job

/-- Every slot held for a change is freed. -/
def State.unreserveAll (c : TtChg) (s : State) : State := c.slots.foldl (fun t e => t.unreserve e.1) s

/-! The effect (R317). -/

/-- The quota of a context of the job, where the context is bound to it (R308). -/
def State.quotaAtDie (c : TtChg) (ctx value : Nat) (s : State) : State :=
  let towards := if ctx = 255 then s.hallCtx c.job else some ctx
  match towards with
  | some k => if k < 64 && s.ctxJob k == some c.job then s.setQuota k value else s.chgEvent .sc c 5 11
  | none => if ctx = 255 then s else s.chgEvent .sc c 5 11

/-- An action takes effect at a unit. What the standby root mirrors it does not apply itself (R22). -/
def State.applyAct (p : Part) (c : TtChg) (s : State) (a : TtAct) : State :=
  let root := s.isActiveRoot
  match p, a with
  | .fd, .swap frees installs =>
    if s.role == 2 then s
    else
      let s1 := frees.foldl (fun (t : State) e => if t.hallLive e.1 e.2 && (t.slot e.1).job == c.job then t.dropHall e.1 else t) s
      installs.foldl (fun (t : State) x => if t.hallLive x.hslot x.gen then t else (t.setSlot x.hslot (t.newSlot x)).jobRegs c.job) s1
  | .fd, .cadence b => if root then s.setCadence c.job b else s
  | .fd, .refAccept x mode off => match refOf x with
    | some r => if root then s.acceptRef r (mode == 1) (toSigned 32 off) else s
    | none => s
  | .fd, .refCancel x => match refOf x with
    | some r => if root then s.cancelAccept r else s
    | none => s
  | .fd, .quota k _ v =>
    if k = 1 && root then (s.setJob c.job { (s.job c.job) with hslotQuota := v }).jobRegs c.job
    else if k = 2 && root then (s.put .fd (Rg.JM_SB_QUOTA c.job) v).sbRegs c.job
    else if k = 3 then s.put .fd (Rg.JM_ATT_RATE c.job) v
    else if k = 4 then s.put .fd (Rg.JM_PAY_SHARE c.job) v
    else s
  | .sc, .quota k ctx v => if k = 0 then s.quotaAtDie c ctx v else s
  | .fd, .homing k j mode =>
    let h := s.dist.hall
    if root then s.setHall { h with homingMap := SMap.set (64 * k + j) (mode == 1) h.homingMap } else s.takeHoming k j (mode == 1)
  | _, .drillMask m =>
    let s1 := (List.range 64).foldl (fun (t : State) j =>
      if c.scope = 0 then (if j = c.job then t.put p (Rg.JD_CONSENT j) m else t)
      else if p = .fd && t.flag .fd (Rg.JH_CREATED j) && t.get .fd (Rg.JH_MEMBERS j) == 0 then t else t.put p (Rg.JD_CONSENT j) m) s
    if p = .fd && c.scope != 0 then s1.setSpare { s1.dist.spare with consentDefault := m } else s1
  | _, .fwActivate _ d => match a.activates p with
    | some _ => s.changeActivates p d
    | none => s
  | _, _ => s

/-- A MEMBER record takes effect at a unit. -/
def State.applyMember (p : Part) (c : TtChg) (s : State) (m : Nat × Nat × Nat) : State :=
  match p with
  | .fd => if s.role == 2 || !s.rollInPort (s.portToward m.1) m.1 then s else s.memberChange c.job m.1 m.2.1 m.2.2
  | .sc => if m.1 / 8 = s.get .sc Rg.SROLL_ROLL / 8 then s.memberAtDie c.job m.1 m.2.1 m.2.2 else s

/-- A committed change takes effect at a unit: its whole shadow, the slots and quotas first, then the members with their completion checks. The
slots held for it are now the job's live slots. -/
def State.ttApply (p : Part) (c : TtChg) (step : Nat) (s : State) : State :=
  let c1 := { c with state := 4, effectHt := s.ht p }
  let s1 := s.setChg p c1
  let s2 := c.acts.foldl (State.applyAct p c) s1
  let s3 := c.members.foldl (State.applyMember p c) s2
  let s4 := s3.setFw p { (s3.unit p).fw with committed := (s3.unit p).fw.committed.filter fun e => e.1 != c.txn }
  (((s4.bump p Rg.TT_COMMITS).chgEvent p c step c.reason).ttRegs p).fwRegs p

/-- The instant of a change has come at this unit (R317): the HT of beat AT; at the distributor the HT of bell AT or of a later one; at the die when
bell AT has been fired, or a later one's HT is reached. -/
def State.ttDue (p : Part) (c : TtChg) (s : State) : Bool :=
  if c.atKind = 1 then decide (c.at_ * 1024 ≤ s.htNs p)
  else match p with
    | .fd =>
      let b := s.job c.job
      b.bellSeen && decide (sdiff48 c.at_ b.lastBell ≤ 0) && (decide (sdiff48 c.at_ b.lastBell < 0) || decide (b.lastBellBeat * 1024 ≤ s.htNs .fd))
    | .sc =>
      let waiting := s.die.sync.bells.filter fun b => b.word.job == c.job
      let at_ := waiting.any fun b => b.word.bellNo == c.at_ % 2 ^ 48
      let later := waiting.filter fun b => decide (0 < sdiff48 b.word.bellNo c.at_)
      s.flag .sc (Rg.SJH_BELL_VALID c.job) && decide (sdiff48 c.at_ (s.lastBell c.job) ≤ 0) && !at_ && (later.isEmpty || later.any fun b => decide (b.ht ≤ s.htNs .sc))

/-- The operating-point action of a committed change becomes the die's pending switch (R171), unless a change with an earlier instant is
pending already. An instant that has passed is made good at the next 64 ns boundary at least 4,096 ns ahead. -/
def State.ttOpp (c : TtChg) (s : State) : State :=
  c.acts.foldl (fun (t : State) a => match a with
    | .opp point =>
      let at_ := if c.at_ * 1024 ≤ t.htNs .sc then ceilDiv (t.htNs .sc + 4096) 64 * 64 else c.at_ * 1024
      match t.die.opp.pending with
      | some w => if w.tt && w.at_ < at_ then t else t.oppFromChange point at_
      | none => t.oppFromChange point at_
    | _ => t) s

/-- The FW_ACTIVATE actions of a change are pending until it takes effect (R375). -/
def State.ttPendFw (p : Part) (c : TtChg) (s : State) : State :=
  match c.acts.filterMap (·.activates p) with
  | d :: _ => s.setFw p { (s.unit p).fw with committed := (s.unit p).fw.committed ++ [(c.txn, d)] }
  | [] => s

/-- A COMMIT is held at a unit: it awaits its instant, or applies at once where that has passed (R321). -/
def State.commitHeld (p : Part) (c : TtChg) (s : State) : State :=
  let c1 := { c with state := 3 }
  let s1 := ((s.setChg p c1).decided p c.txn 0).chgEvent p c1 3 0
  let s2 := if p = .sc then s1.ttOpp c1 else s1
  if s2.ttDue p c1 then (s2.ttApply p c1 6).bump p Rg.TT_TT_LATE else ((s2.ttPendFw p c1).ttRegs p).fwRegs p

/-- An ABORT is held at a unit: the shadow is discarded. -/
def State.abortHeld (p : Part) (c : TtChg) (reason origin : Nat) (s : State) : State :=
  let c1 := { c with state := 5, reason := reason, origin := origin }
  let s1 := ((s.setChg p c1).decided p c.txn reason).chgEvent p c1 3 reason
  let s2 := s1.bump p Rg.TT_ABORTS
  (if p = .fd then s2.unreserveAll c1 else s2).ttRegs p

/-! The decision (R315). -/

/-- The root aborts a change. -/
def State.rootAbort (c : TtChg) (reason origin : Nat) (s : State) : State :=
  (s.sendChg .fd c (.abort c.txn reason origin)).abortHeld .fd c reason origin

/-- The decision test: AT is still ahead. -/
def State.decisionOk (c : TtChg) (s : State) : Bool :=
  if c.atKind = 1 then decide (s.beat .fd + s.lead + 1 ≤ c.at_) else bellAhead (s.job c.job).nextBell c.at_

/-- The root decides once every vote is in. -/
def State.rootDecide (c : TtChg) (s : State) : State :=
  if s.decisionOk c then (s.sendChg .fd c (.commit c.txn c.atKind c.at_)).commitHeld .fd c
  else s.rootAbort c 0x23 (s.ownRoll .fd)

/-- Votes combined (R314): YES goes up once the unit's own vote and every port's are YES; at the root that decides. -/
def State.combineYes (p : Part) (c : TtChg) (s : State) : State :=
  if c.vote != some 0 || c.sentNo || minusMask 80 c.ports c.yes != 0 then s
  else if p = .fd && s.isActiveRoot then s.rootDecide c
  else if c.sentYes then s
  else (s.setChg p { c with sentYes := true }).sendVote p c true 0 (s.ownRoll p) (s.ht32 p)

/-- A NO is sent up with its reason and source; after a YES it is a revocation. At the root it aborts the change (R314, R315). -/
def State.combineNo (p : Part) (c : TtChg) (reason src ht32 : Nat) (s : State) : State :=
  if p = .fd && s.isActiveRoot then s.rootAbort c reason src
  else if c.sentNo then s
  else
    let s1 := (s.setChg p { c with sentNo := true, reason := reason }).sendVote p c false reason src ht32
    if c.sentYes then s1.chgEvent p c 5 reason else s1

/-- Timetable changes work from stage 3 on a distributor, votes from stage 2 on a step core (R378, R382). -/
def State.canVote (p : Part) (s : State) : Bool := decide ((if p = .fd then 3 else 2) ≤ s.get p Rg.START_STAGE)

/-- The unit votes for itself (R313); a unit below the stage at which it votes casts none until it is there. -/
def State.ownVote (p : Part) (c : TtChg) (s : State) : State :=
  let r := s.ttReason p c true
  let c1 := { c with vote := some r }
  let s1 := (s.setChg p c1).chgEvent p c1 2 r
  if !s.canVote p then s
  else if r = 0 then s1.combineYes p c1 else s1.combineNo p c1 r (s1.ownRoll p) (s1.ht32 p)

/-! Submission (R310, R326). -/

/-- The MEMBER records of a change meet R221, and no roll is named twice. -/
def State.membersOk (j : Nat) (ms : List (Nat × Nat × Nat)) (s : State) : Bool :=
  let b := s.job j
  ms.all (fun m =>
    let in_ := SMap.get 0 m.1 b.members != 0
    let g := SMap.get 0 m.1 b.gens
    if m.2.1 = 0 then !in_ && m.2.2 == g else if m.2.1 = 1 then in_ && m.2.2 == (g + 1) % 256 else false)
    && (ms.map (·.1)).eraseDups.length == ms.length

/-- A MEMBER action as (roll, action, generation). -/
def TtAct.memberOf : TtAct → Option (Nat × Nat × Nat)
  | .member r a g => some (r, a, g)
  | _ => none

/-- The installs of a change with the HSLOT and GEN allocated to each: the slots, or the status that no free slot gives. -/
def State.takeSlots : List TtAct → State → Except Nat (List TtAct × List (Nat × Nat) × State)
  | [], s => .ok ([], [], s)
  | .swap fs xs :: t, s =>
    let step := xs.foldl (fun (a : Except Nat (List SlotAttr × State)) x => match a with
      | .error e => .error e
      | .ok (l, u) => match u.freeHall with
        | .inr e => .error e
        | .inl i =>
          let r := u.takeHall i
          let x1 := { x with hslot := i, gen := r.1 }
          .ok (l ++ [x1], r.2.setSlot i { state := .free, gen := r.1, job := x.job, reserved := true })) (.ok ([], s))
    match step with
    | .error e => .error e
    | .ok (l, u) => match State.takeSlots t u with
      | .error e => .error e
      | .ok (as, ss, v) => .ok (.swap fs l :: as, l.map (fun x => (x.hslot, x.gen)) ++ ss, v)
  | a :: t, s => match State.takeSlots t s with
    | .error e => .error e
    | .ok (as, ss, v) => .ok (a :: as, ss, v)

/-- The next TXN_ID (R310): a serial count that starts at 1; 0 names no change. -/
def nextTxn (last : Nat) : Nat := if (last + 1) % 2 ^ 32 = 0 then 1 else (last + 1) % 2 ^ 32

/-- R310: a submission's answer and the state with the change queued. -/
def State.ttSubmit (scope job atKind at_ voteBeats : Nat) (body : List Byte) (s : State) : MbOut × State :=
  let vb := if voteBeats = 0 then s.get .fd Rg.TT_VOTE_DEF else voteBeats
  match parseBody job body with
  | none => (.badArg, s)
  | some rs =>
    let acts := rs.map (·.2)
    let ms := acts.filterMap (·.memberOf)
    let rest := rs.filter fun e => !e.2.isMember
    let len := rest.foldl (fun n e => n + e.1.length) 0
    let opp := acts.any fun a => match a with
      | .opp _ => true
      | _ => false
    let installs := (acts.map fun a => match a with
      | .swap _ xs => xs
      | _ => []).flatten
    let frees := ((acts.map fun a => match a with
      | .swap fs _ => fs
      | _ => []).flatten).filter fun e => s.hallLive e.1 e.2 && (s.slot e.1).job == job
    let bells := (installs.filter (·.bell)).length + ((s.jobSlots job).filter fun h => (s.slot h).bell && !(frees.any fun e => e.1 == h)).length
    let attrs := installs.all fun a => a.ok
    let jobOk := scope != 0 || (decide (job < 64) && s.flag .fd (Rg.JH_CREATED job))
    let atOk := if atKind = 1 then decide (at_ < 2 ^ 54) && decide (s.beat .fd + vb + s.lead + 1 ≤ at_)
      else atKind == 0 && scope == 0 && decide (at_ < 2 ^ 48) && bellAhead (s.job job).nextBell at_ && s.get .fd (Rg.PJ_STAGGER_LOG2 job) == 0
    if !(decide (scope ≤ 2) && jobOk && acts.all (TtAct.allowed scope) && decide (len ≤ 65536) && decide (ms.length ≤ 65536) && (!opp || atKind == 1)
        && decide (8 ≤ vb) && decide (vb ≤ 32767) && atOk && s.membersOk job ms && attrs) then (.badArg, s)
    else if (s.emergency .fd || s.emergHold .fd) && acts.any (fun a => match a with
        | .fwActivate _ _ => true
        | _ => false) then (.refuse 8, s)
    else if 1 < bells && installs.any (·.bell) then (.refuse, s)
    else if installs.length != 0 && (s.job job).hslotQuota + frees.length < (s.jobSlots job).length + s.reservedCount job + installs.length then (.quota, s)
    else if 64 ≤ ((s.tt .fd).changes.filter fun c => c.state == 0).length then (.busy, s)
    else match s.takeSlots (rest.map (·.2)) with
      | .error e => (.fail e 0, s)
      | .ok (as, slots, s1) =>
        let bytes := ((List.zip (rest.map (·.1)) as).map fun e => match e.2 with
          | .swap fs xs => swapBytes fs xs
          | _ => e.1).flatten
        let txn := nextTxn (s1.tt .fd).lastTxn
        let c : TtChg := { txn := txn, scope := scope, job := if scope = 0 then job else 0, atKind := atKind, at_ := at_, voteBeats := vb, bytes := bytes, hasBody := true,
                           members := ms, digest := digestOf (Config.sha384 bytes), slots := slots }
        let s2 := (s1.setTt .fd { s1.tt .fd with lastTxn := txn }).addChg .fd c
        (.list [(4, txn)] (slots.map fun e => [(4, e.1), (1, e.2)]), if scope = 0 then s2.jobRegs job else s2)

/-- TT_SUBMIT (0x60; R310, R320, R326, R344): SCOPE, JOB, AT_KIND, AT, VOTE_BEATS, body address and length. A job requester may submit for its job
only. -/
def execTtSubmit (m : MbGo) (s : State) : Host.Outcome State Fault Refusal :=
  .next (s.mailbox m 0x60 (fdOnly m.part 2) [1, 1, 1, 8, 2, 8, 4] (some 1) fun a t => t.atRoot (
    let addr := a.getD 5 0
    if a.getD 0 0 != 0 && t.cls .fd m.req != .admin then (.refuse 1, t)
    else if addr % 4096 != 0 || 2 ^ 21 < a.getD 6 0 then (.badArg, t)
    else t.ttSubmit (a.getD 0 0) (a.getD 1 0) (a.getD 2 0) (a.getD 3 0) (a.getD 4 0) (t.hostMem.readN addr (a.getD 6 0))))

/-- Two changes may not run together (R318). -/
def TtChg.conflicts (a b : TtChg) : Bool := a.scope != 0 || b.scope != 0 || a.job == b.job

/-- The turn of a queued change has come: no change ahead of it conflicts with it (R318). -/
def State.turn (c : TtChg) (s : State) : Bool :=
  (s.tt .fd).changes.all fun x => x.txn == c.txn || !x.conflicts c || !(x.prepared || (x.state == 0 && earlierThan 32 x.txn c.txn))

/-- The tables and slots of a job go to a unit on the path toward an ADD's ROLL that does not carry the job yet (R312). -/
def State.installToward (j n : Nat) (s : State) : State :=
  if SMap.get 0 n (s.job j).mcount != 0 || s.role == 4 then s
  else (s.jobSlots j).foldl (fun (t : State) h => t.sendTunnel .fd n (.slotInstall ((t.slot h).attr h))) (s.sendTables j n)

/-- The body, the MEMBER words addressed through a port and the PREPARE queued on it (R312). The PREPARE leaves once they have left. -/
def State.sendPrepare (p : Part) (c : TtChg) (bodySent : Bool) (vd : Nat) (s : State) (n : Nat) : State :=
  let down := match p with
    | .fd => decide (n < 64)
    | .sc => decide (8 ≤ n)
  let s1 := if p = .fd && c.scope = 0 && down then s.installToward c.job n else s
  let s2 := if bodySent then s1 else s1.sendTunnel p n (.ttBody c.txn c.job c.scope c.bytes)
  let mine := c.members.filter fun m => match p with
    | .fd => !down || s.rollInPort n m.1
    | .sc => n == 8 + m.1 % 8 && m.1 / 8 == s.get .sc Rg.SROLL_ROLL / 8
  let s3 := mine.foldl (fun (t : State) m => t.sendWord p n (c.word (.member c.txn m.1 m.2.1 m.2.2))) s2
  s3.sendWord p n (c.word (.prepare c.txn c.atKind c.at_ vd c.digest))

/-- TT_START (R311, R318): a queued change whose turn has come is staged: its body, MEMBER words and PREPARE go out; VD is set when the PREPARE
leaves (FRAME_LAUNCH). The root votes first. -/
def execTtStart (txn : Nat) (s : State) : Host.Outcome State Fault Refusal :=
  .next (match s.chg .fd txn with
    | none => s
    | some c =>
      if !s.isActiveRoot || c.state != 0 || !s.turn c then s
      else
        let ports := s.ttVoters .fd c
        let c1 := { c with state := if ports.isEmpty then 2 else 1, ports := maskOf 80 fun n => ports.contains n, prepBeat := s.beat .fd, vd := if ports.isEmpty then s.beat .fd + c.voteBeats else 0 }
        let r := s.ttReason .fd c1 true
        if r != 0 then ((s.setChg .fd { c with vote := some r, state := 2 }).chgEvent .fd c 2 r).rootAbort { c with vote := some r } r (s.ownRoll .fd)
        else (ports.foldl (State.sendPrepare .fd c1 false 0) (s.setChg .fd c1)).ownVote .fd c1)

/-- The TXN_ID argument of TT_RESULT and TT_CANCEL: BAD_ARG for 0 and for one later than the last assigned, STALE for one no longer kept (R326). -/
def State.txnArg (txn : Nat) (f : TtChg → MbOut × State) (s : State) : MbOut × State :=
  if txn = 0 || laterThan 32 txn (s.tt .fd).lastTxn || (s.tt .fd).lastTxn = 0 then (.badArg, s)
  else match s.chg .fd txn with
    | some c => f c
    | none => (.stale [], s)

/-- TT_RESULT (0x61; R326): state, VD, REASON, ORIGIN, effect HT. -/
def execTtResult (m : MbGo) (s : State) : Host.Outcome State Fault Refusal :=
  .next (s.mailbox m 0x61 (fdOnly m.part 2) [4] none fun a t => t.atRoot (t.txnArg (a.getD 0 0) fun c =>
    (.ok [(1, c.state), (8, c.vd), (1, c.reason), (4, c.origin), (8, c.effectHt / nsLsb)], t)))

/-- TT_CANCEL (0x62; R319, R326): ABORT CANCELLED before the decision. -/
def execTtCancel (m : MbGo) (s : State) : Host.Outcome State Fault Refusal :=
  .next (s.mailbox m 0x62 (fdOnly m.part 2) [4] none fun a t => t.atRoot (t.txnArg (a.getD 0 0) fun c =>
    if 3 ≤ c.state then (.refuse, t) else (.ok [], t.rootAbort c 0x22 (t.ownRoll .fd))))

/-- TT_READ (0x63; R326): this unit's record: state, own vote and REASON, the ports that received the PREPARE and those that have voted. -/
def execTtRead (m : MbGo) (s : State) : Host.Outcome State Fault Refusal :=
  .next (s.mailbox m 0x63 (fdOnly m.part 2) [4] none fun a t =>
    match t.chg .fd (a.getD 0 0) with
    | none => (.stale [], t)
    | some c => (.ok [(1, c.state), (1, ofBool (c.vote == some 0)), (1, if c.vote.getD 0 = 0 then c.reason else c.vote.getD 0), (8, c.ports % 2 ^ 64), (8, c.ports / 2 ^ 64),
        (8, c.yes % 2 ^ 64), (8, c.yes / 2 ^ 64)], t))

/-! Words of a change at a unit. -/

/-- TT_BODY_RECEIVE (R312): a body received over the tunnel is kept and passed on toward the ports of its scope. -/
def execTtBodyReceive (p : Part) (n txn job scope : Nat) (bytes : List Byte) (s : State) : Host.Outcome State Fault Refusal :=
  let msg : TunMsg := .ttBody txn job scope bytes
  let s1 := s.modLink p n fun l => { l with tunIn := l.tunIn.erase msg }
  let t := s1.tt p
  if (s1.chg p txn).isSome then .next s1
  else
    let ms := (t.members.filter fun m => m.1 == txn).map (·.2)
    let towards := if p = .fd && (s1.role == 2 || 66 ≤ n) then [] else s1.ttDown p scope job ms ++ s1.ttPartner p
    .next ((s1.setTt p { t with bodies := (t.bodies.filter fun e => e.1 != txn) ++ [(txn, bytes)],
                                bodyPorts := SMap.set txn (maskOf 80 fun k => towards.contains k) t.bodyPorts }).sendTunnels p towards msg)

/-- PREPARE_WORD (R309, R312, R313): the PREPARE of a change is received: it takes in the body and the MEMBER words, forwards them with the
PREPARE to every port in scope, and the unit votes. A change already held ignores the second copies (R321). A partner leaf applies and does not
vote (R309). -/
def execPrepareWord (p : Part) (n job : Nat) (hallwide : Bool) (txn atKind at_ voteBeats digest : Nat) (s : State) : Host.Outcome State Fault Refusal :=
  let w : CtlWord := { job := job, hallwide := hallwide, body := .prepare txn atKind at_ voteBeats digest }
  let s0 := s.takeWord p n w
  let t := s0.tt p
  let body := t.bodies.find? fun e => e.1 == txn
  let ms := ((t.members.filter fun m => m.1 == txn).map (·.2)).eraseDups
  let sent := SMap.get 0 txn t.bodyPorts
  let s1 := s0.setTt p { t with bodies := t.bodies.filter fun e => e.1 != txn, members := t.members.filter fun m => m.1 != txn, bodyPorts := SMap.erase txn t.bodyPorts }
  if (s1.chg p txn).isSome then .next s1
  else
    let beat := s1.beat p
    let scope := if !hallwide then 0 else 1
    let ahead := (voteBeats + 65536 - beat % 65536) % 65536
    let c : TtChg := { txn := txn, scope := scope, job := job, atKind := atKind, at_ := at_, voteBeats := voteBeats, vd := if ahead < 32768 then beat + ahead else beat + ahead - 65536,
                       bytes := (body.map (·.2)).getD [], hasBody := body.isSome, members := ms, digest := digest, state := 2, prepBeat := beat }
    let peer := p = .fd && (s1.role == 2 || 66 ≤ n)
    let ports := if peer then [] else s1.ttDown p scope job ms
    let c1 := { c with ports := maskOf 80 fun k => ports.contains k }
    let s2 := (s1.addChg p c1).chgEvent p c1 1 0
    let s3 := (ports ++ (if peer then [] else s1.ttPartner p)).foldl (fun (u : State) k => u.sendPrepare p c1 (bit sent k) voteBeats k) s2
    let s4 := if p = .fd && 66 ≤ n && s1.role == 4 then s3.setChg p { c1 with vote := some 0, sentYes := true } else s3.ownVote p c1
    .next (s4.ttRegs p)

/-- VOTE_WORD (R314, R315): a port's vote is combined; a vote of an unknown or decided change is discarded and recorded. -/
def execVoteWord (p : Part) (n job : Nat) (hallwide : Bool) (txn : Nat) (yes : Bool) (reason src ht32 : Nat) (s : State) : Host.Outcome State Fault Refusal :=
  let s0 := s.takeWord p n { job := job, hallwide := hallwide, body := .vote txn yes reason src ht32 }
  .next (match s0.chg p txn with
    | none => s0.ttEvent p txn job hallwide 7 reason
    | some c =>
      if !c.prepared || !bit c.ports n then s0.ttEvent p txn job hallwide 7 reason
      else
        let s1 := if yes then
            let c1 := { c with yes := setBit c.yes n }
            (s0.setChg p c1).combineYes p c1
          else s0.combineNo p c reason src ht32
        s1.ttRegs p)

/-- TT_REVOKE (R313, R314, R319): a reason for NO has started to apply before the decision: the unit votes NO, a revocation where its YES has gone
up. At the root the change aborts. -/
def execTtRevoke (p : Part) (txn : Nat) (s : State) : Host.Outcome State Fault Refusal :=
  .next (match s.chg p txn with
    | none => s
    | some c =>
      let r := s.ttReason p c false
      if !c.prepared || c.sentNo || r = 0 || !s.canVote p || (p = .fd && s.role == 4 && !s.carries) then s
      else ((s.setChg p { c with vote := some r }).combineNo p { c with vote := some r } r (s.ownRoll p) (s.ht32 p)).ttRegs p)

/-- COMMIT_WORD (R316, R321): a COMMIT is forwarded to every port that received the PREPARE and held for its instant; a unit without a record of the
change records the step and does no more. -/
def execCommitWord (p : Part) (n job : Nat) (hallwide : Bool) (txn atKind at_ : Nat) (s : State) : Host.Outcome State Fault Refusal :=
  let s0 := s.takeWord p n { job := job, hallwide := hallwide, body := .commit txn atKind at_ }
  .next (match s0.chg p txn with
    | none => s0.ttEvent p txn job hallwide 8 0
    | some c => if c.prepared then (s0.sendChg p c (.commit txn atKind at_)).commitHeld p c else s0)

/-- The downstream ports to which an ABORT without a record is forwarded (R316). -/
def State.abortPorts (p : Part) (job : Nat) (hallwide : Bool) (s : State) : List Nat := s.ttDown p (if hallwide then 1 else 0) job []

/-- ABORT_WORD (R316): an ABORT is forwarded and its shadow discarded; without a record it is forwarded within the word's scope. -/
def execAbortWord (p : Part) (n job : Nat) (hallwide : Bool) (txn reason origin : Nat) (s : State) : Host.Outcome State Fault Refusal :=
  let w : CtlWord := { job := job, hallwide := hallwide, body := .abort txn reason origin }
  let s0 := s.takeWord p n w
  .next (match s0.chg p txn with
    | none => (s0.ttEvent p txn job hallwide 8 reason).sendWords p (s0.abortPorts p job hallwide) w
    | some c => if c.prepared then (s0.sendChg p c (.abort txn reason origin)).abortHeld p c reason origin else s0)

/-- The lowest port of a change that has not voted. -/
def TtChg.silent (c : TtChg) : Option Nat := (maskPorts c.ports).find? fun n => !bit c.yes n

/-- VOTE_DEADLINE (R315): at the boundary of beat VD the root aborts a change with a vote missing; ORIGIN is the roll prefix of the lowest silent
port. -/
def execVoteDeadline (txn : Nat) (s : State) : Host.Outcome State Fault Refusal :=
  .next (match s.chg .fd txn with
    | none => s
    | some c =>
      let s := if s.isActiveRoot && c.state == 2 then s.awaitBeat .fd c.vd else s
      if !s.isActiveRoot || c.state != 2 || s.beat .fd < c.vd then s
      else match c.silent with
        | some n => s.rootAbort c 0x20 (if n < 64 then s.assignedRoll n else s.ownRoll .fd)
        | none => s)

/-- The instant of a change as an order: its beat, or the bell's number. -/
def TtChg.before (a b : TtChg) : Bool :=
  if a.atKind = b.atKind && a.at_ != b.at_ then (if a.atKind = 1 then decide (a.at_ < b.at_) else decide (sdiff48 a.at_ b.at_ < 0)) else earlierThan 32 a.txn b.txn

/-- The committed changes that are due no later than one of them, in the order of their instants and TXN_IDs; at most `k`. -/
def State.dueBefore (p : Part) (c : TtChg) (s : State) : List TtChg :=
  ((s.tt p).changes.filter fun x => x.state == 3 && s.ttDue p x && (x.txn == c.txn || x.before c)).foldr (fun x l =>
    (l.takeWhile fun y => y.before x) ++ x :: l.dropWhile fun y => y.before x) []

/-- The HT at which a committed change whose AT is known comes due (R317): of beat AT, or of the bell that is or follows bell AT. -/
def State.ttInstant (p : Part) (c : TtChg) (s : State) : Nat :=
  if c.atKind = 1 then c.at_ * 1024
  else match p with
    | .fd => if (s.job c.job).bellSeen && sdiff48 c.at_ (s.job c.job).lastBell == 0 then (s.job c.job).lastBellBeat * 1024 else 0
    | .sc => match s.die.sync.bells.find? fun b => b.word.job == c.job && decide (0 < sdiff48 b.word.bellNo c.at_) with
      | some b => b.ht
      | none => 0

/-- TT_EFFECT (R317): the instant of a committed change is reached; the changes due before it apply first (R317: TXN_ID order). A die then takes up the next
operating-point switch of its committed changes. -/
def execTtEffect (p : Part) (txn : Nat) (s : State) : Host.Outcome State Fault Refusal :=
  .next (match s.chg p txn with
    | none => s
    | some c =>
      let s := if c.state = 3 then s.awaitHt p (s.ttInstant p c) else s
      if c.state != 3 || !s.ttDue p c then s
      else
        let s1 := (s.dueBefore p c).foldl (fun (t : State) x => t.ttApply p x 4) s
        if p = .sc && s1.die.opp.pending.isNone then (match (s1.tt .sc).changes.find? fun x => x.state == 3 && x.acts.any (fun a => match a with
            | .opp _ => true
            | _ => false) with
          | some x => s1.ttOpp x
          | none => s1)
        else s1)

end Sys2Proof.Machine
end

