-- ==== Sys2Proof/Machine/Roots.lean ====
section
/-! DEFINITION. The two roots (R405 to R408): ROOT_STATE, promotion, demotion; the DONEs of R229. -/

namespace Sys2Proof.Machine

open Sys2Proof

/-- R229: DONE with EPOCH = COMPLETED for every live slot of each job that has members below a port, with the fields of the last DONE. -/
def State.sendCompleted (n : Nat) (s : State) : State :=
  s.dist.hall.slots.foldl (fun (t : State) e =>
    let v := e.2
    if v.state != .free && SMap.get 0 (t.participant v.job n) (t.job v.job).mcount != 0 then
      t.sendWord .fd n { job := v.job, body := .done e.1 v.gen v.completed v.last.1 v.last.2.1 v.last.2.2 }
    else t) s

/-! ROOT_STATE (R405, R406). -/

/-- The uplink of a mid that leads to the other root: UP1 for a root of seat A, UP0 for one of seat B (R15). -/
def State.otherUp (s : State) : Nat := if s.get .fd Rg.ROLL_SEAT = 2 then 0 else 1

/-- The mids ALIGNED to this root. -/
def State.midsLinked (s : State) : Nat := ((List.range 64).filter fun n => s.lstate .fd n == 3).length

/-- A mid's report says that its link to the other root has been out of ALIGNED for PROMOTE_MS; a report more than 256 beats old says nothing. -/
def State.midLost (n : Nat) (s : State) : Bool :=
  match SMap.find n s.dist.hall.rootStates with
  | none => false
  | some (u0, u1, l0, l1, b) =>
    let st := if s.otherUp = 0 then u0 else u1
    let left := if s.otherUp = 0 then l0 else l1
    s.lstate .fd n == 3 && decide (s.beat .fd ≤ b + 256) && st != 3
      && decide (1000000 * s.get .fd Rg.PROM_PROMOTE_MS ≤ (s.ht32 .fd + 2 ^ 32 - left % 2 ^ 32) % 2 ^ 32)

/-- The mids that report the loss. -/
def State.midsLost (s : State) : Nat := ((List.range 64).filter fun n => s.midLost n).length

/-- Condition 1 of R405. -/
def State.mirrorSilent (s : State) : Bool :=
  match s.dist.hall.mirrorGoneNow with
  | some t => decide (t + 1000000 * s.get .fd Rg.PROM_PROMOTE_MS ≤ s.now)
  | none => false

/-- Condition 2 of R405: a strict majority of the mids linked. -/
def State.midMajority (s : State) : Bool := decide (s.midsLinked < 2 * s.midsLost)

/-- FD_PROMOTE_STATUS brought up to date (R417). -/
def State.promoteRegs (s : State) : State :=
  (((s.putFlag .fd Rg.PROM_MIRROR_SILENT s.mirrorSilent).putFlag .fd Rg.PROM_MID_MAJORITY s.midMajority).put .fd Rg.PROM_MIDS_LINKED s.midsLinked).put .fd Rg.PROM_MIDS_LOST
    s.midsLost

/-- ROOT_STATE_SEND (R406): every 64 beats a mid sends the state of its two uplinks to both roots. -/
def execRootStateSend (s : State) : Host.Outcome State Fault Refusal :=
  let s := if s.role = 3 then s.periodic .fd 7 64 0 else s
  .next (if s.role != 3 || s.beat .fd % 64 != 0 then s
    else s.sendTunnels .fd [64, 65] (.rootState (s.lstate .fd 64) (s.lstate .fd 65) (s.link .fd 64).leftHt32 (s.link .fd 65).leftHt32 (s.get .fd Rg.PROM_PROMO_SEQ)))

/-- ROOT_STATE (R405, R406, R408): a root takes a mid's report. -/
def execRootState (n up0 up1 left0 left1 promoSeq : Nat) (s : State) : Host.Outcome State Fault Refusal :=
  let s1 := s.modLink .fd n fun l => { l with tunIn := l.tunIn.erase (.rootState up0 up1 left0 left1 promoSeq) }
  .next (if s1.role != 1 && s1.role != 2 then s1
    else (s1.setHall { s1.dist.hall with rootStates := SMap.set n (up0, up1, left0, left1, s1.beat .fd) s1.dist.hall.rootStates, otherPromo := some promoSeq }).promoteRegs)

/-! Promotion (R407). -/

/-- The changes that the mirror shows (R322): the undecided ones are aborted, the COMMITs of those whose instant lies ahead sent again. -/
def State.takeOverChanges (s : State) : State :=
  let m := s.dist.mirrorTt
  let s1 := s.setTt .fd { m with changes := m.changes.map fun c => { c with ports := c.ports % 2 ^ 64, yes := c.yes % 2 ^ 64 } }
  let s2 := s1.fd.tt.changes.foldl (fun (t : State) c => if c.state < 3 then t.rootAbort c 0x21 (t.ownRoll .fd)
    else if c.state = 3 && !t.ttDue .fd c then t.sendChg .fd c (.commit c.txn c.atKind c.at_)
    else t) s1
  s2.ttRegs .fd

/-- The DONEs and bells of the new root (R407, steps 3 and 4). -/
def State.resendDown (s : State) : State :=
  let s1 := (List.range 64).foldl (fun (t : State) n => (t.sendCompleted n).modLink .fd n fun l => { l with alignedBeat := t.beat .fd }) s
  s1.dist.hall.jobs.foldl (fun (t : State) e => match e.2.lastBellWord with
    | some w => if t.htNs .fd < e.2.lastBellBeat * 1024 then t.sendBell w e.2.lastBellBeat else t
    | none => t) s1

/-- The time from the mirror's loss to the promotion is RECOVERY of every job (R415). -/
def State.promotionRecovery (s : State) : State :=
  let lost := match s.dist.hall.mirrorGoneNow with
    | some t => s.now - t
    | none => 0
  s.dist.hall.jobs.foldl (fun (t : State) e =>
    let j := e.1
    let b := t.job j
    let ns := b.rcNs.set 3 (b.rcNs.getD 3 0 + (if b.lastBellWord.isSome then lost else 0))
    (t.setJob j { b with rcNs := ns, rcAt := t.now, rcWait := 0 }).put .fd (Rg.RC_RECOVERY_MS j) (sat 32 (ns.getD 3 0 / 1000000))) s

/-- The standby becomes the active root (R76, R407, R447): it keeps its HT, enters HOLDOVER, or FREE_RUN with the time of the model counted from formation, which is HT 0 there,
and selects among its own qualified references. -/
def State.promote2 (s : State) : State :=
  let free := s.dist.hold.mirrorFree
  let s1 := (s.put .fd Rg.PROM_PROMO_SEQ (s.get .fd Rg.PROM_PROMO_SEQ + 1)).setRole 1
  let s2 := if free then
      ((((((s1.put .fd Rg.REFS_SEL_STATE 0).put .fd Rg.REFS_SELECTED 0).put .fd Rg.REFS_LOCK 0).put .fd Rg.HT_HOLDOVER 0).put .fd Rg.HT_FORMED 1).slewTo 0 0)
        |> fun t => t.setHold { t.dist.hold with entryHt := 0 }
    else if s1.get .fd Rg.REFS_SEL_STATE = 3 then s1 else s1.enterHoldover
  let s2 := (s2.selectFrom s2.priority).2
  let s3 := s2.setHall { s2.dist.hall with promoteAt := none }
  let s4 := (s3.takeOverChanges.resendDown).promotionRecovery
  (((s4.put .fd Rg.FSUM_PROMOTED 1).faultLog .fd 0x71 5 0).faultAlert .fd).promoteRegs

/-- STANDBY_PROMOTE (R405, R407, R418): at a beat boundary the standby promotes itself when both conditions hold, or because ROOT_PROMOTE asked for
it. -/
def execStandbyPromote (s : State) : Host.Outcome State Fault Refusal :=
  let s := if s.role != 2 then s
    else match s.dist.hall.promoteAt, s.dist.hall.mirrorGoneNow with
      | some b, _ => s.awaitBeat .fd (b + 1)
      | none, some t => if s.flag .fd Rg.PROM_AUTO_PROMOTE && s.midMajority then (s.awaitNow (t + 1000000 * s.get .fd Rg.PROM_PROMOTE_MS)).toBeat .fd else s
      | none, none => s
  let asked := match s.dist.hall.promoteAt with
    | some b => decide (b < s.beat .fd)
    | none => false
  .next (if s.role == 2 && (asked || (s.flag .fd Rg.PROM_AUTO_PROMOTE && s.mirrorSilent && s.midMajority)) then s.promote2 else s.promoteRegs)

/-- ROOT_PROMOTE (0x14; R405, R418). -/
def execRootPromote (m : MbGo) (s : State) : Host.Outcome State Fault Refusal :=
  .next (s.mailbox m 0x14 (s.own2880 m.part 2) [] none fun _ t =>
    if t.role != 2 || prPorts.any (fun n => t.lstate .fd n == 3) then (.refuse, t)
    else (.ok [], t.setHall { t.dist.hall with promoteAt := some (t.beat .fd) }))

/-! Demotion (R408). -/

/-- The mids that were ALIGNED when the mirror was lost are not by a strict majority ALIGNED still. -/
def State.midsGone (s : State) : Bool :=
  let were := s.dist.hall.mirrorGoneMids
  !decide (popCount 64 were < 2 * ((setBits 64 were).filter fun n => s.lstate .fd n == 3).length)

/-- R405's demotion test: no ALIGNED mirror lane for half of PROMOTE_MS, and not a strict majority of the mids that were ALIGNED when the mirror was
lost. -/
def State.demotionTest (s : State) : Bool :=
  match s.dist.hall.mirrorGoneNow with
  | none => false
  | some t => decide (t + 500000 * s.get .fd Rg.PROM_PROMOTE_MS ≤ s.now) && s.midsGone

/-- The active root becomes standby (R408). -/
def State.demote (s : State) : State :=
  let s1 := (((s.setRole 2).put .fd Rg.SB_MIRRORED 0).put .fd Rg.SB_MIRROR_SYNC 0).setHall { s.dist.hall with otherPromo := none }
  let s2 := if s1.get .fd Rg.REFS_SEL_STATE = 3 then s1 else s1.enterHoldover
  (((s2.reselect).put .fd Rg.FSUM_DEMOTED 1).faultLog .fd 0x72 6 0).faultAlert .fd

/-- ROOT_DEMOTE (R405, R408): an active root that learns of a higher PROMO_SEQ, or meets the demotion test, becomes standby. -/
def execRootDemote (s : State) : Host.Outcome State Fault Refusal :=
  let higher := match s.dist.hall.otherPromo with
    | some q => laterThan 8 (q % 256) (s.get .fd Rg.PROM_PROMO_SEQ)
    | none => false
  let s := match s.dist.hall.mirrorGoneNow with
    | some t => if s.isActiveRoot && !higher && s.midsGone then s.awaitNow (t + 500000 * s.get .fd Rg.PROM_PROMOTE_MS) else s
    | none => s
  .next (if !s.isActiveRoot || !(higher || s.demotionTest) then s else s.demote)

end Sys2Proof.Machine
end

