-- ==== Sys2Proof/Machine/Drills.lean ====
section
/-! DEFINITION. Fire drills, self-tests, the pipe fault table, the report card, the fault log (R404, R409 to R418). -/

namespace Sys2Proof.Machine

open Sys2Proof

/-! Fire drills (R410 to R414). -/

/-- The jobs with members at or below a downstream port. -/
def State.jobsBelow (n : Nat) (s : State) : List Nat := (List.range 64).filter fun j => SMap.get 0 n (s.job j).mcount != 0

/-- The jobs with members at or below this unit. -/
def State.jobsHere (s : State) : List Nat := (List.range 64).filter fun j => s.get .fd (Rg.JH_MEMBERS j) != 0

/-- Every job of a list consents to a drill type (R411). -/
def State.consents (type : Nat) (js : List Nat) (s : State) : Bool := js.all fun j => bit (s.get .fd (Rg.JD_CONSENT j)) type

/-- The jobs whose consent a drill of a type on a target needs. -/
def State.drillJobs (type target : Nat) (s : State) : List Nat :=
  if type = 0 || type = 5 then s.jobsBelow target
  else if type = 4 then [(s.slot target).job]
  else s.jobsHere

/-- The target of a drill as it starts: the prefect in rotation, the selected reference, otherwise the one named. -/
def State.drillTarget (type target : Nat) (s : State) : Nat :=
  if type = 1 then s.dist.spare.nextPrefect else if type = 2 then s.get .fd Rg.REFS_SELECTED else target

/-- The applicability of R410 and the unit that runs the drill. `other` says that the package's other link is ALIGNED. -/
def State.drillApplies (type target : Nat) (other : Bool) (s : State) : Bool :=
  if type = 2 then
    s.isActiveRoot && s.get .fd Rg.REFS_SEL_STATE == 1 && (match refOf target with
      | some x => s.flag .fd x.other.qual || s.get .fd Rg.REFS_HOLD_QUALITY == 2
      | none => false)
  else if s.role != 4 then false
  else if type = 0 then s.dist.hall.dualHere && decide (target < 64) && s.lstate .fd target == 3 && other
  else if type = 1 then (match s.prefectOf .fd target with
    | some i => s.get .fd (Rg.PREF_STATE i) == 2 && s.get .fd (Rg.PREF_STATE (spareIndex .fd)) == 4
    | none => false)
  else if type = 3 then decide (2 ≤ s.usablePipes.length)
  else if type = 4 then
    (s.slot target).state != .free && (match (s.slot target).doneBeat with
      | some b => decide (s.beat .fd ≤ b + 64)
      | none => false) && s.lstate .fd 64 == 3 && decide ((s.link .fd 64).alignedBeat + 64 < s.beat .fd)
  else if type = 5 then decide (target < 64) && s.lstate .fd target == 3
  else false

/-- The gates of R413 that concern the unit. -/
def State.drillGates (s : State) : Bool :=
  s.flag .fd Rg.DRL_DRILL_EN && s.get .fd Rg.START_STAGE == 3 && !(s.fd.tt.changes.any fun c => c.prepared || c.state == 3) && !s.inGuard .fd && !s.emergency .fd

/-- A DRILL record (R414). -/
def State.drillRec (type target step : Nat) (s : State) : State := s.record .fd { kind := 0x26, obj := target % 2 ^ 24, arg := type + 256 * step, hallwide := true }

/-- The limit of a drill in ns (R410). -/
def drillLimit (type : Nat) : Nat :=
  if type = 0 then 2000000000 else if type = 1 then 10000000 else if type = 2 then 120000000000 else if type = 3 then 1000000 else if type = 4 then 65536 else 10000

/-- The injection of a drill (R410). -/
def State.inject (type target : Nat) (s : State) : State :=
  if type = 0 then (s.linkDown .fd target).modLink .fd target fun l => { l with fails := 0, backoffUntil := 0 }
  else if type = 1 then
    let s1 := match s.prefectOf .fd target with
      | some i => (s.setPref .fd i { s.pref .fd i with cold := [] }).prefectDown .fd i 6
      | none => s
    (s1.setSpare { s1.dist.spare with nextPrefect := if target < 5 then target + 1 else 1 }).restage .fd
  else if type = 2 then (match refOf target with
    | some x => (s.disqualify x).setRef x { ((s.disqualify x).refSt x) with drillUntil := s.now + 60000000000 }
    | none => s)
  else if type = 3 then s.setSpare { s.dist.spare with forceMismatch := true }
  else if type = 4 then
    let v := s.slot target
    s.sendWord .fd 64 { job := v.job, body := .arrive target v.gen v.completed (s.ownRoll .fd) (s.ht32 .fd) false 0 }
  else s.sendTunnel .fd target (.hbDrill 0)

/-- A drill starts (R413, R414). -/
def State.startDrill (type target : Nat) (s : State) : State :=
  let s1 := s.drillRec type target 0
  let s2 := s1.setSpare { s1.dist.spare with running := some { type := type, target := target, ht32 := s.ht32 .fd, until_ := s.now + drillLimit type }, drillSeen := 0, drillDue := false }
  ((s2.put .fd Rg.DRL_RUNNING 1).put .fd Rg.DRL_RUNNING_TYPE type).inject type target

/-- A drill of a type may start now: P4 runs (R354), the gates, no other drill here or at the pair partner, the consent, the applicability. -/
def State.drillOpen (type target : Nat) (other partnerIdle : Bool) (s : State) : Bool :=
  s.drillGates && s.roleUp .fd 4 && s.dist.spare.running.isNone && partnerIdle && s.consents type (s.drillJobs type target) && s.drillApplies type target other

/-- The first type in rotation that may start, from the next one on. -/
def State.nextDrill (target : Nat) (other partnerIdle : Bool) (s : State) : Option Nat :=
  ((List.range 6).map fun i => (s.dist.spare.nextType + i) % 6).find? fun ty => s.drillOpen ty (s.drillTarget ty target) other partnerIdle

/-- A drill that ended, kept in the log of 16 (R418), with its result. -/
def State.logDrill (type target ht32 result : Nat) (s : State) : State :=
  (s.setSpare { s.dist.spare with drillLog := ((type, target, ht32, result) :: s.dist.spare.drillLog).take 16 }).put .fd Rg.DRL_LAST_RESULT result

/-- DRILL_MOMENT (R412): the drawn moment comes, or a due drill is tried again: the next type in rotation that is consented and applicable starts on the
target drawn. A drill whose gates have not opened when its period ends is skipped. `other` and `partnerIdle` are what the peer lanes say: the
package's other link is ALIGNED, no drill runs at the pair partner. -/
def execDrillMoment (target : Nat) (other partnerIdle periodEnd : Bool) (s : State) : Host.Outcome State Fault Refusal :=
  .next (if !(s.role == 4 || s.isActiveRoot) || !s.flag .fd Rg.DRL_DRILL_EN then s
    else match s.nextDrill target other partnerIdle with
      | some ty => (s.setSpare { s.dist.spare with nextType := (ty + 1) % 6 }).startDrill ty (s.drillTarget ty target)
      | none =>
        if !periodEnd then s.setSpare { s.dist.spare with drillDue := true }
        else
          let ty := if s.isActiveRoot then 2 else s.dist.spare.nextType
          let s1 := (s.drillRec ty target 3).bump .fd Rg.DRL_SKIP_CNT
          (s1.setSpare { s1.dist.spare with drillDue := false }).logDrill ty target (s.ht32 .fd) 3)

/-- The pass condition of the running drill (R410); `seen` says what the lead die reports of an omitted heartbeat. -/
def State.drillPasses (d : Drill) (seen : Bool) (s : State) : Bool :=
  if d.type = 0 then s.lstate .fd d.target == 3
  else if d.type = 1 then (match s.prefectOf .fd d.target with
    | some i => s.get .fd (Rg.PREF_STATE i) == 2 && (s.pref .fd i).cold.isEmpty
    | none => false)
  else if d.type = 2 then (match refOf d.target with
    | some x => s.flag .fd x.qual && !(s.refSt x).refused && s.get .fd Rg.REFS_SEL_STATE == 1 && s.get .fd Rg.REFS_SELECTED == x.code
    | none => false)
  else if d.type = 5 then seen
  else s.dist.spare.drillSeen == 2

/-- The injection is withdrawn. -/
def State.withdraw (d : Drill) (s : State) : State :=
  let s1 := s.setSpare { s.dist.spare with forceMismatch := false, drillSeen := 0, running := none }
  let s2 := if d.type = 2 then (match refOf d.target with
    | some x => s1.setRef x { (s1.refSt x) with drillUntil := 0 }
    | none => s1) else s1
  ((s2.put .fd Rg.DRL_RUNNING 0).put .fd Rg.DRL_RUNNING_TYPE 7).bump .fd Rg.DRL_DONE_CNT

/-- DRILL_END (R410, R414): the running drill passes, or reaches its limit and fails, or a gate has closed or a real fault has struck and it is
abandoned. The end's own record carries no DRILL. -/
def execDrillEnd (seen realFault : Bool) (s : State) : Host.Outcome State Fault Refusal :=
  .next (match s.dist.spare.running with
    | none => s
    | some d =>
      if realFault || !s.drillGates then ((s.withdraw d).drillRec d.type d.target 3).logDrill d.type d.target d.ht32 2
      else if s.drillPasses d seen then ((s.withdraw d).drillRec d.type d.target 1).logDrill d.type d.target d.ht32 0
      else
        let s1 := ((((s.awaitNow d.until_).withdraw d).drillRec d.type d.target 2).logDrill d.type d.target d.ht32 1).bump .fd Rg.DRL_FAIL_CNT
        ((s1.put .fd Rg.FSUM_DRILL_FAIL 1).faultLog .fd 0x80 0 d.target).faultAlert .fd)

/-- DRILL_NOW (0xA0; R413, R418): type and target index. -/
def execDrillNow (m : MbGo) (other partnerIdle : Bool) (s : State) : Host.Outcome State Fault Refusal :=
  .next (s.mailbox m 0xA0 (fdOnly m.part 4) [1, 4] none fun a t =>
    let ty := a.getD 0 0
    let target := if ty = 1 || ty = 2 then t.drillTarget ty (a.getD 1 0) else a.getD 1 0
    if 5 < ty then (.badArg, t)
    else if t.drillOpen ty target other partnerIdle then (.ok [], t.startDrill ty target)
    else (.refuse, t))

/-- DRILL_READ (0xA1; R418): the last 16 drills. A step core runs none of its own. -/
def execDrillRead (m : MbGo) (s : State) : Host.Outcome State Fault Refusal :=
  .next (s.mailbox m 0xA1 (some (if m.part = .fd then 4 else 0)) [] none fun _ t =>
    (.list [] ((if m.part = .fd then t.dist.spare.drillLog else []).map fun d => [(1, d.1), (4, d.2.1), (4, d.2.2.1), (1, d.2.2.2)]), t))

/-! Self-tests (R409). -/

/-- The resources of a kind (R409, R418): 0 pipes, 1 spare lanes, 2 TDC twins. -/
def State.testUnits (p : Part) (kind : Nat) (s : State) : Nat :=
  match p with
  | .fd => if kind = 0 then 68 else if kind = 1 then 8 else if s.dist.variant = .vxd2880 then 113 else 81
  | .sc => if kind = 0 then 0 else if kind = 1 then 1 else 17

/-- The TDC twin that an index of SELFTEST names: the channels, the timing block's, the lanes by position (log entry 77). -/
def State.testPair (p : Part) (i : Nat) (s : State) : TdcAt :=
  let base := if p = .fd && s.dist.variant = .vxd2880 then 32 else 0
  if i < base then .channel i else if i = base then .timing p else .lane p (i - base - 1)

/-- The link position of a spare lane (R143, R147). -/
def sparePos (p : Part) (i : Nat) : Nat := if p = .fd then 72 + i else 2

/-- The resource carries no work at this moment (R409). -/
def State.testFree (p : Part) (kind i : Nat) (s : State) : Bool :=
  if kind = 0 then !s.servingPipes.contains i && !(s.dist.spare.combines.any fun c => c.pipe == i)
  else if kind = 1 then s.get p (Rg.LINK_SPARE_MAP (sparePos p i)) == 127
  else (s.pair (s.testPair p i)).cal == .idle

/-- A request queued, one per kind; a later one of the kind merges into it (R409). -/
def State.queueTest (p : Part) (kind i : Nat) (s : State) : State :=
  let old := SMap.find kind (s.unit p).tests
  let k := match old with
    | none => i
    | some j => if j = i then i else 255
  s.setUnit p { s.unit p with tests := SMap.set kind k (s.unit p).tests }

/-- SELFTEST (0xA2; R409, R418): kind and index, 0xFF for all. The request is queued for SELFTEST_RUN. -/
def execSelftest (m : MbGo) (s : State) : Host.Outcome State Fault Refusal :=
  .next (s.mailbox m 0xA2 (some (if m.part = .fd then 4 else 1)) [1, 1] none fun a t =>
    let k := a.getD 0 0
    let i := a.getD 1 0
    if 2 < k then (.badArg, t)
    else if t.testUnits m.part k = 0 then (.refuse, t)
    else if i != 255 && t.testUnits m.part k ≤ i then (.badArg, t)
    else (.ok [], t.queueTest m.part k i))

/-- When a distributor's resource was last tested (R409); a resource not tested yet counts from the start. -/
def State.lastTest (kind i : Nat) (s : State) : Nat := SMap.get s.fd.start.startNow (256 * kind + i) s.fd.tested

/-- SELFTEST_RUN (R98, R146, R402, R409): a test that was queued, or that of a distributor at stage 3 every 24 h, runs on a resource that carries no work.
A failed pipe test counts in the pipe's cell, a failed lane is marked faulty, a TDC twin is calibrated. -/
def execSelftestRun (p : Part) (kind i : Nat) (passed : Bool) (s : State) : Host.Outcome State Fault Refusal :=
  let asked := SMap.find kind (s.unit p).tests
  let wanted := asked == some i || asked == some 255
  let due := wanted || (p = .fd && kind < 2 && s.get .fd Rg.START_STAGE == 3)
  let s := if due && !wanted then s.awaitNow (s.lastTest kind i + 86400000000000) else s
  .next (if !due || s.testUnits p kind ≤ i || !s.testFree p kind i then s
    else
      let s := s.setUnit p { s.unit p with tested := SMap.set (256 * kind + i) s.now (s.unit p).tested }
      let s1 := if asked == some i || (asked == some 255 && i + 1 == s.testUnits p kind) then s.setUnit p { s.unit p with tests := SMap.erase kind (s.unit p).tests } else s
      if kind = 0 then (if passed then s1 else s1.countPipe i)
      else if kind = 1 then (if passed then s1 else s1.modLink p (sparePos p i) fun l => { l with faulty := true })
      else if s1.hasPair (s1.testPair p i) then s1.pairCal (s1.testPair p i) else s1)

/-! The fault table (R404). -/

/-- PIPE_UNRETIRE (0xA3; R404, R418): the cells and the retirement of a pipe in the bands named are cleared. -/
def execPipeUnretire (m : MbGo) (s : State) : Host.Outcome State Fault Refusal :=
  .next (s.mailbox m 0xA3 (fdOnly m.part 2) [1, 1] none fun a t =>
    let i := a.getD 0 0
    let bands := a.getD 1 0
    if 67 < i then (.badArg, t)
    else
      let x := t.pipe i
      let t1 := t.setPipe i { x with cells := x.cells.filter fun e => !bit bands (e.1 / 4) }
      (.ok [], ((t1.put .fd (Rg.PIPE_RETIRE_MAP i) (minusMask 8 (t.get .fd (Rg.PIPE_RETIRE_MAP i)) bands)).tableChanged.pipeStates).pipesShort))

/-- The fault table as it is kept (R404): the cells and the retirement map of every pipe, 33 numbers a pipe. -/
def State.faultTable (s : State) : SMap Nat :=
  (List.range 68).foldl (fun m i =>
    let m1 := (s.pipe i).cells.foldl (fun q e => SMap.set (33 * i + e.1) e.2 q) m
    if s.get .fd (Rg.PIPE_RETIRE_MAP i) = 0 then m1 else SMap.set (33 * i + 32) (s.get .fd (Rg.PIPE_RETIRE_MAP i)) m1) []

/-- FAULT_TABLE_WRITE (R390, R404): within 1 s of a change the fault table goes to the board EEPROM; the write waits during the guard. -/
def execFaultTableWrite (s : State) : Host.Outcome State Fault Refusal :=
  .next (if s.dist.spare.tableDirty.isNone || s.inGuard .fd then s
    else s.setSpare { s.dist.spare with tableDirty := none, eepromTable := s.faultTable })

/-! The report card (R415). -/

/-- The jobs for which this unit marks the tick as recovery. -/
def State.ownRecovery (s : State) : Nat :=
  let installs := (s.fd.links.map fun e => e.2.tunIn).flatten
  maskOf 64 fun j =>
    let b := s.job j
    (s.jobSlots j).any (fun h => (s.slot h).bell && (s.missingPorts h).any fun n => s.lstate .fd n != 3 || (s.link .fd n).far.unaligned)
      || (s.dist.hall.holdq.any fun e => e.2.job == j)
      || (s.get .fd (Rg.PREF_STATE ((s.prefectOf .fd 2).getD 2)) == 3 && !b.installed && installs.any fun m => match m with
        | .memberTables k _ => k == j
        | .slotInstall a => a.job == j
        | _ => false)

/-- The recovery mask and the drill mask of a tick: this unit's, with those of its ports. -/
def State.recoveryMasks (s : State) : Nat × Nat :=
  let own := s.ownRecovery
  (List.range 64).foldl (fun a n => (orMask a.1 ((s.link .fd n).recoveryMask % 2 ^ 64), orMask a.2 ((s.link .fd n).recoveryMask / 2 ^ 64)))
    (own, if s.dist.spare.running.isSome then own else 0)

/-- The part of R415 to which the present moment of a job is counted: 0 RECESS, 1 RECOVERY, 2 WAIT, 3 COMPUTE. -/
def State.rcPart (j : Nat) (s : State) : Nat :=
  if (s.pj j).recess then 0 else if bit s.recoveryMasks.1 j then 1 else if (s.pj j).holdSince.isSome || s.htNs .fd < (s.job j).lastBellBeat * 1024 then 2 else 3

/-- A job's time since the last tick, given to its parts: rcNs holds compute, wait, recess, recovery and drill in ns. -/
def State.rcJob (masks : Nat × Nat) (s : State) (j : Nat) : State :=
  let b := s.job j
  if !s.flag .fd (Rg.JH_CREATED j) then s
  else if b.lastBellWord.isNone then s.setJob j { b with rcAt := s.now }
  else
    let dt := s.now - b.rcAt
    let held := match (s.pj j).holdSince with
      | some t => s.now - max t b.rcAt
      | none => 0
    let wait := min dt (b.rcWait + held)
    let at_ := fun k => b.rcNs.getD k 0
    let ns := if (s.pj j).recess then [at_ 0, at_ 1, at_ 2 + dt, at_ 3, at_ 4]
      else if bit masks.1 j then [at_ 0, at_ 1, at_ 2, at_ 3 + dt, at_ 4 + (if bit masks.2 j then dt else 0)]
      else [at_ 0 + (dt - wait), at_ 1 + wait, at_ 2, at_ 3, at_ 4]
    let s1 := s.setJob j { b with rcNs := ns, rcAt := s.now, rcWait := b.rcWait + held - wait }
    let ms := fun k => sat 32 (ns.getD k 0 / 1000000)
    ((((s1.put .fd (Rg.RC_COMPUTE_MS j) (ms 0)).put .fd (Rg.RC_WAIT_MS j) (ms 1)).put .fd (Rg.RC_RECESS_MS j) (ms 2)).put .fd (Rg.RC_RECOVERY_MS j) (ms 3)).put .fd
      (Rg.RC_DRILL_MS j) (ms 4)

/-- REPORT_CARD_TICK (R415): at each shaper tick a mid or leaf sends its recovery masks up, the active root gives every job's time to its parts. -/
def execReportCardTick (s : State) : Host.Outcome State Fault Refusal :=
  let s := s.periodic .fd 4 1024 0
  let m := s.recoveryMasks
  .next (if s.beat .fd % 1024 != 0 then s
    else if s.isActiveRoot then (List.range 64).foldl (State.rcJob m) s
    else if s.role == 3 || s.role == 4 then s.sendTunnels .fd (s.upPorts .fd) (.recovery (s.beat .fd) m.1 m.2)
    else s)

/-- RC_READ (0xA4; R415, R418): the 32 bytes of FD_RC_JOBj and the part that counts now. -/
def execRcRead (m : MbGo) (s : State) : Host.Outcome State Fault Refusal :=
  .next (s.mailbox m 0xA4 (fdOnly m.part 4) [1] (some 0) fun a t => t.atRoot (
    let j := a.getD 0 0
    if 63 < j then (.badArg, t)
    else (.ok ([Rg.RC_COMPUTE_MS j, Rg.RC_WAIT_MS j, Rg.RC_RECESS_MS j, Rg.RC_RECOVERY_MS j, Rg.RC_DRILL_MS j, Rg.RC_BELLS j, Rg.RC_SINCE_BEAT j].map (fun f => (4, t.get .fd f))
      ++ [(4, 0), (1, t.rcPart j)]), t)))

/-- RC_CLEAR (0xA5; R415, R418): a job's counters, or every job's with 0xFF. -/
def execRcClear (m : MbGo) (s : State) : Host.Outcome State Fault Refusal :=
  .next (s.mailbox m 0xA5 (fdOnly m.part 4) [1] (some 0) fun a t => t.atRoot (
    let j := a.getD 0 0
    if 63 < j && j != 255 then (.badArg, t)
    else (.ok [], if j = 255 then (List.range 64).foldl (fun (u : State) k => u.rcClear k) t else t.rcClear j)))

/-! The fault log (R398). -/

/-- FAULT_READ (0xF0; R398, R418): up to 12 entries from an index, newest first. -/
def execFaultRead (m : MbGo) (s : State) : Host.Outcome State Fault Refusal :=
  .next (s.mailbox m 0xF0 (some 0) [1] none fun a t =>
    (.list [] ((((t.unit m.part).faults.drop (a.getD 0 0)).take 12).map fun e => [(2, e.cls), (1, e.act), (4, e.obj), (4, e.ht32)]), t))

end Sys2Proof.Machine
end

