-- ==== Sys2Proof/Machine/LinkTrain.lean ====
section
/-! DEFINITION. Training, ranging and alignment of links (R15 to R25, R113, R126 to R140, R144, R217, R229, R303, R321, R332, R427): what a good
header brings about, and what follows when a link enters ALIGNED. -/

namespace Sys2Proof.Machine

open Sys2Proof

/-! Who governs. -/

/-- This end governs the payload split (R120): the parent; root A on mirror lanes; the leaf under the even mid on peer lanes. -/
def State.governs (p : Part) (n : Nat) (s : State) : Bool :=
  match p with
  | .fd => if n < 64 then true else if n < 68 then false
      else if s.role == 1 || s.role == 2 then s.get .fd Rg.ROLL_SEAT == 1 else bits (s.get .fd Rg.ROLL_ROLL) 15 1 == 0
  | .sc => false

/-! The roll number sent (R22, R24, R139). -/

/-- The partner over a peer lane has shown the sister prefix (R17, R24). -/
def State.sisterRoll (n : Nat) (s : State) : Bool :=
  let own := s.get .fd Rg.ROLL_ROLL
  (s.link .fd n).far.rollValid && (s.link .fd n).far.roll == (if bit own 15 then own - 32768 else own + 32768)

/-- A parent end may send its child's roll: a root always, another unit once its own is confirmed, a leaf in dual mode once the partner has confirmed
the prefix. -/
def State.rollReady (p : Part) (s : State) : Bool :=
  match p with
  | .fd => s.get .fd Rg.ROLL_SEAT != 0 || (s.flag .fd Rg.ROLL_ROLL_VALID && (!(s.role == 4 && s.dist.hall.dualHere) || s.dist.hall.prefixOk))
  | .sc => s.flag .sc Rg.SROLL_ROLL_VALID

/-- The end that assigns roll numbers on this link. -/
def State.assigns (p : Part) (n : Nat) (s : State) : Bool :=
  match p with
  | .fd => decide (n < 64)
  | .sc => decide (9 ≤ n) && s.die.pkgIndex == 0

/-- The roll that this end assigns to the far one. -/
def State.rollFor (p : Part) (n : Nat) (s : State) : Nat :=
  match p with
  | .fd => s.assignedRoll n
  | .sc => s.dieRoll (n - 8)

/-- ROLL and ROLL_VALID of the link-state block sent on a port (R118, R139): downward the roll assigned; upward the echo, or the unit's own once it holds
one and the value came over another link; on peer and mirror lanes its own. -/
def State.rollSent (p : Part) (n : Nat) (s : State) : Nat × Bool :=
  if s.assigns p n then (s.rollFor p n, s.rollReady p)
  else
    let f := (s.link p n).far
    match p with
    | .fd =>
      if 66 ≤ n then (s.get .fd Rg.ROLL_ROLL, s.flag .fd Rg.ROLL_ROLL_VALID)
      else if n = 65 && s.flag .fd Rg.ROLL_ROLL_VALID then (s.get .fd Rg.ROLL_ROLL, true)
      else (f.roll, f.rollValid)
    | .sc => if n < 2 && s.flag .sc Rg.SROLL_ROLL_VALID then (s.get .sc Rg.SROLL_ROLL, true) else (f.roll, f.rollValid)

/-! The checks of TRAINING (R15 to R17, R19, R21, R139). -/

/-- What the checks find: 0 passed, 1 wait, 2 level refused, 3 homing mismatch, 4 held for another reason of cabling. -/
def State.trainCheck (p : Part) (n : Nat) (s : State) : Nat :=
  let f := (s.link p n).far
  let twoUp := decide (64 ≤ f.position) && decide (f.position < 68)
  match p with
  | .sc =>
    if 8 ≤ n then
      (if s.die.pkgIndex = 0 && ((List.range 7).any fun k => 9 + k != n && decide (2 ≤ s.lstate .sc (9 + k)) && (s.link .sc (9 + k)).far.position == f.position) then 4 else 0)
    else if f.role = 0 then 1
    else if twoUp || f.role != 4 then 2
    else if s.flag .sc Rg.SROLL_ROLL_VALID && f.rollValid && f.roll != s.get .sc Rg.SROLL_ROLL then 3 else 0
  | .fd =>
    let seat := s.get .fd Rg.ROLL_SEAT
    if n < 64 then (if s.role == 4 && s.dist.hall.dualHere && f.rollValid && f.roll != s.assignedRoll n then 3 else 0)
    else if n < 68 then
      if f.role = 0 then 1
      else if twoUp || seat != 0 || f.role = 4 || f.role = 5 then 2
      else if f.role = 3 then (if n = 64 then 0 else 1)
      else if s.dist.variant = .vxd2840 then 2
      else if (n == 65) != f.seatB then 4
      else if n = 65 && s.flag .fd Rg.ROLL_ROLL_VALID && f.rollValid && f.roll != s.get .fd Rg.ROLL_ROLL then 4
      else 0
    else if f.role = 0 || s.role == 0 || s.role == 3 then 1
    else if s.role == 4 then
      (if f.role != 4 then 4 else if !f.rollValid || !s.flag .fd Rg.ROLL_ROLL_VALID then 1 else if s.sisterRoll n then 0 else 4)
    else if f.role != 1 && f.role != 2 then 4
    else if f.seatB == (seat == 2) then 4 else 0

/-- TRAINING is held (R136, R139): its limit does not run. -/
def State.trainHold (p : Part) (n : Nat) (s : State) : Bool :=
  let l := s.link p n
  decide (16 ≤ l.lockRun) && l.farHeard && s.trainCheck p n != 0

/-- A die that takes another roll number than its last is a member of no job (R23). -/
def State.leaveJobs (s : State) : State :=
  (List.range 64).foldl (fun (t : State) j => ((t.put .sc (Rg.SJH_MEMBER j) 0).put .sc (Rg.SJH_MGEN j) 0).clearLevel j) (s.setSync { s.die.sync with pkgMembers := [] })

/-- The child takes its roll number once the parent has confirmed it (R24, R139), and its level. A mid whose UP0 brings another index than its UP1 runs from root A alone: the
link to root B trains again and is held (R15). -/
def State.takeRoll (p : Part) (n : Nat) (s : State) : State :=
  let f := (s.link p n).far
  match p with
  | .fd =>
    let role := if f.role = 3 then 4 else 3
    let s1 := s.setRole role
    let s2 := if n = 64 || !s.flag .fd Rg.ROLL_ROLL_VALID then (s1.put .fd Rg.ROLL_ROLL f.roll).put .fd Rg.ROLL_ROLL_VALID 1 else s1
    let s3 := if n = 64 && 2 ≤ s.lstate .fd 65 && (s.link .fd 65).far.roll != f.roll then s2.linkDown .fd 65 else s2
    ((if s.role == role then s3.reroll s else s3)).dropUnused
  | .sc =>
    let s1 := if s.get .sc Rg.SROLL_ROLL = f.roll then s else s.leaveJobs
    (((s1.put .sc Rg.SROLL_ROLL f.roll).put .sc Rg.SROLL_ROLL_VALID 1).putFlag .sc Rg.SROLL_LEAD (s.die.pkgIndex == 0)).restage .sc

/-- TRAINING ends in RANGING (R136). -/
def State.enterRanging (p : Part) (n : Nat) (s : State) : State :=
  (s.setLstate p n 2).modLink p n fun l => { l with exch := [], applied := 0, stableRun := 0, jumps := [], held := false }

/-- What peer training has found (R17): leaves that are no pair run single-homed, each for itself. -/
def State.peerTrained (ok : Bool) (s : State) : State := if s.dist.hall.mismatch = !ok then s else s.runHoming s.dist.hall.homingSet (!ok)

/-- TRAINING at a good header (R136, R139): frame lock, the checks with their flags and alerts, the roll number. R139 lets the parent see when the number is confirmed and does not
say how the child learns it: in this model the child leaves TRAINING when the parent reports RANGING or ALIGNED with ROLL_VALID (log entry 81). -/
def State.train (p : Part) (n : Nat) (s : State) : State :=
  let l := s.link p n
  if l.lockRun < 16 || !l.farHeard then s
  else
    let c := s.trainCheck p n
    let s1 := (s.putFlag p (Rg.LINK_LEVEL_REFUSED n) (c == 2)).putFlag p (Rg.LINK_HOMING_MISMATCH n) (c == 3)
    let s2 := if c < 2 then s1.modLink p n fun k => { k with held := false }
      else if isPkg p n then (s1.modLink p n fun k => { k with held := true }).raise p Rg.ALERT_CABLING else s1.cablingHold p n
    let f := l.far
    let peer := p = .fd && 68 ≤ n && s.role == 4
    if c = 4 && peer then s2.peerTrained false
    else if c != 0 then s2
    else if s.assigns p n then
      let run := if f.rollValid && f.roll == s.rollFor p n && s.rollReady p then l.echoRun + 1 else 0
      let s3 := s2.modLink p n fun k => { k with echoRun := run }
      if 16 ≤ run then (s3.put p (Rg.LINK_ROLL_VALID n) 1).enterRanging p n else s3
    else if p = .fd && 66 ≤ n then
      (if peer then (s2.setHall { s2.dist.hall with prefixOk := true }).peerTrained true else s2).enterRanging .fd n
    else if f.rollValid && (f.lstate == 2 || f.lstate == 3) then ((s2.takeRoll p n).put p (Rg.LINK_ROLL_VALID n) 1).enterRanging p n
    else s2

/-! The exchange (R126 to R130). -/

/-- The two differences A and B of the exchange that a good header completes, at the child's end from its own stamps, at the parent's from the header. An
exchange that a slice or a swap touched is none (R126, R132; log entry 84). -/
def Link.exchangeOf (parent : Bool) (t : TimingBlk) (rxHt : Nat) (clean : Bool) (l : Link) : Option (Int × Int) :=
  if !t.echoValid || !clean || l.dirty.contains t.echoHt then none
  else if parent then
    let t2 : Int := (t.txHt : Int) - t.turnaround
    some (t2 - t.echoHt, (rxHt : Int) - t.txHt)
  else match l.sentStamps.find? fun e => e.1 == t.echoHt with
    | none => none
    | some (t3, t1, t2) => some ((t2 : Int) - t1, (t.txHt : Int) - t.turnaround - t3)

/-- DELAY and LINK_OFFSET of R147 from the filter. -/
def State.linkRegs (p : Part) (n : Nat) (s : State) : State :=
  let l := s.link p n
  if l.exch.isEmpty then s
  else (s.put p (Rg.LINK_DELAY n) (clampInt 0 (2 ^ 32 - 2) (lsbToPs l.delay)).toNat).putS p (Rg.LINK_LINK_OFFSET n)
    (clampInt (-(2 ^ 31 - 1)) (2 ^ 31 - 1) (roundDiv (l.theta * 10000) 65536))

/-- One exchange (R127): the delay and the jump test of R137; outside SUSPECT it enters the filter (R129): the last 1,024, the line through them, the run of steady
rates. In SUSPECT the line stays as it was (R137). -/
def State.takeExchange (p : Part) (n : Nat) (ab : Int × Int) (s : State) : State :=
  let l := s.link p n
  let b := s.beat p
  let d := roundDiv (ab.1 + ab.2) 2
  let theta := roundDiv (ab.1 - ab.2 - s.asym p n d) 2
  let jump := !l.exch.isEmpty && decide (65536 < (theta - l.thetaHat b).natAbs)
  let exch := if s.lstate p n = 4 then l.exch else ({ beat := b, theta := theta + roundDiv l.applied 65536, delay := d } :: l.exch).take 1024
  let slope := (fitLine exch).2
  let steady := decide ((slope - l.slopeRef).natAbs ≤ 43980)
  let l1 := { l with exch := exch, slope := slope, delay := d, jumps := (jump :: l.jumps).take 16, stableRun := if steady then l.stableRun + 1 else 0,
                     slopeRef := if steady then l.slopeRef else slope }
  (s.setLink p n { l1 with theta := l1.thetaHat b }).linkRegs p n

/-! The calibration record (R131, R134), the residue (R135), the channel (R113). -/

/-- The record is void: there is none, the far end differs, or D has moved by more than 500 ps. -/
def State.calVoid (p : Part) (n : Nat) (s : State) : Bool :=
  let l := s.link p n
  match l.cal with
  | none => true
  | some c => c.roll != l.far.roll || c.position != l.far.position || decide (32768 < (l.delay - c.dCal).natAbs)

/-- A calibration of a basis at the present D (R131). -/
def State.newCal (p : Part) (n basis : Nat) (asym : Int) (s : State) : State :=
  let l := s.link p n
  let c : CalRec := { basis := basis, medAsym := asym, wave := s.getS p (Rg.LINK_WAVE n), dCal := l.delay, roll := l.far.roll, position := l.far.position,
                      optical := s.optical p n }
  ((s.setLink p n { l with cal := some c }).putS p (Rg.LINK_MED_ASYM n) asym).put p (Rg.LINK_CAL_VALID n) 1

/-- The record checked in RANGING and while ALIGNED (R134). -/
def State.calCheck (p : Part) (n : Nat) (s : State) : State :=
  if isPkg p n || (s.link p n).exch.isEmpty then s
  else if !s.calVoid p n then s.put p (Rg.LINK_CAL_VALID n) 1
  else if s.optical p n then (s.newCal p n 0 0).put p (Rg.LINK_CAL_REQUIRED n) 1
  else
    let s1 := s.put p (Rg.LINK_CAL_VALID n) 0
    let s2 := if (s.link p n).calRun.isNone then s1.wantCal p n else s1
    if s.linkUp p n then s2.suspect p n 3 else s2

/-- D above 450 ns on an electrical port (R113). The hold in RANGING ends when MEDIUM is rewritten, or when the link has retrained and finds D within the limit: `held` marks the
spell in which it began. -/
def State.channelCheck (p : Part) (n : Nat) (s : State) : State :=
  let was := s.flag p (Rg.LINK_CHANNEL_RANGE n)
  if s.outOfRange p n then
    let s1 := if was then s else ((s.put p (Rg.LINK_CHANNEL_RANGE n) 1).raise p Rg.ALERT_CABLING).linkEvent p n 5 0
    let s2 := if s.lstate p n = 2 then s1.modLink p n fun l => { l with held := true } else s1
    if s.linkUp p n then s2.suspect p n 3 else s2
  else if was && (s.optical p n || (s.lstate p n == 2 && !(s.link p n).held)) then (s.put p (Rg.LINK_CHANNEL_RANGE n) 0).modLink p n fun l => { l with held := false }
  else s

/-- The hop residue of this beat, and for how many beats it has exceeded the limit (R135). -/
def State.residueBeat (p : Part) (n : Nat) (s : State) : State :=
  let e := s.residEst p n
  s.modLink p n fun l => { l with resid := e, residRun := if s.residLimit p n < e then l.residRun + 1 else 0 }

/-- A residue cause of R137 is present. -/
def State.residueCause (p : Part) (n : Nat) (s : State) : Bool :=
  s.outOfRange p n || decide (s.residLimit p n < s.residEst p n) || (!isPkg p n && !s.optical p n && s.calVoid p n)

/-- Every cause of R137 is clear at this beat. -/
def State.causesClear (p : Part) (n : Nat) (s : State) : Bool :=
  let l := s.link p n
  l.hdrBad == 0 && decide ((l.jumps.filter id).length < 8) && decide (l.uncorr.foldl (· + ·) 0 < 8) && !s.residueCause p n
    && !(s.parentEnd p n && l.far.lstate == 4)

/-! Lanes (R143 to R146). -/

/-- The spare position of a port (R143). -/
def spareOf (p : Part) (n : Nat) : Nat := if p = .fd then 72 + n / 9 else 2

/-- A port of the same group is on the spare or about to go there. -/
def State.spareTaken (p : Part) (n : Nat) (s : State) : Bool :=
  s.get p (Rg.LINK_SPARE_MAP (spareOf p n)) != 127
    || (List.range 72).any fun k => spareOf p k == spareOf p n && s.flag p (Rg.LINK_SWAP_PENDING k) && !s.flag p (Rg.LINK_ON_SPARE k)

/-- The group's spare is free. -/
def State.spareFree (p : Part) (n : Nat) (s : State) : Bool := !isPkg p n && !s.spareTaken p n && !(s.link p (spareOf p n)).faulty

/-- LANES_DEGRADED and SPARE_NONE of FAULT_SUM (R417). -/
def State.laneSum (p : Part) (s : State) : State :=
  let bad := (List.range 72).filter fun n => s.flag p (Rg.LINK_DEGRADED n)
  (s.put p Rg.FSUM_LANES_DEGRADED (sat 8 bad.length)).putFlag p Rg.FSUM_SPARE_NONE
    (bad.any fun n => !s.flag p (Rg.LINK_SWAP_PENDING n) && ((s.link p n).spareFailed || s.flag p (Rg.LINK_ON_SPARE n) || !s.spareFree p n))

/-- A swap is prepared (R145): the lane it goes to leaves the ladder (R384). -/
def State.startSwap (p : Part) (n : Nat) (back : Bool) (s : State) : State :=
  ((s.wake p 3 (if back then n else spareOf p n)).put p (Rg.LINK_SWAP_PENDING n) 1).modLink p n fun l => { l with swapBack := back, swapAt := none, spareFailed := false }

/-- A lane without a spare to go to (R146, R397). -/
def State.spareNone (p : Part) (n : Nat) (s : State) : State := ((s.faultLog p 0x02 0 n).faultAlert p).laneSum p

/-- The lane that carries a port: its own, or its spare (R143). -/
def State.laneOf (p : Part) (n : Nat) (s : State) : Nat := if s.flag p (Rg.LINK_ON_SPARE n) then spareOf p n else n

/-- The symbol errors in 1,024 frames of 42 codewords that make a ratio above 10^-5 (R144). -/
def serLimit : Nat := 1024 * 42 * 544 / 100000

/-- The lane's condition in this frame (R144): a lane that becomes DEGRADED writes a LINK_EVENT, and with AUTO_SPARE goes to a free spare. -/
def State.laneCheck (p : Part) (n : Nat) (s : State) : State :=
  if isPkg p n then s
  else
    let was := s.flag p (Rg.LINK_DEGRADED n)
    let l := s.link p n
    let bad := decide (serLimit < l.symErr.foldl (· + ·) 0) || decide (0 < l.uncorr.foldl (· + ·) 0) || (s.link p (s.laneOf p n)).tdc.fault
    let s1 := s.putFlag p (Rg.LINK_DEGRADED n) bad
    if bad == was then s1
    else if !bad then s1.laneSum p
    else
      let s2 := s1.linkEvent p n 6 0
      if !s2.flag p (Rg.LINK_AUTO_SPARE n) || s2.flag p (Rg.LINK_SWAP_PENDING n) then s2.laneSum p
      else if !s2.flag p (Rg.LINK_ON_SPARE n) && s2.spareFree p n then (s2.startSwap p n false).laneSum p
      else s2.spareNone p n

/-! Entering ALIGNED (R136): resends and installs. -/

/-- The homing modes below a port that has reached ALIGNED (R18): the root's for a mid's pairs, a mid's for its leaf. -/
def State.sendHoming (n : Nat) (s : State) : State :=
  if s.isActiveRoot then
    (List.range 64).foldl (fun (t : State) j => t.sendTunnel .fd n (.homing (n / 2) j (SMap.get true (64 * (n / 2) + j) s.dist.hall.homingMap))) s
  else if s.role == 3 then s.sendTunnel .fd n (.homing (s.get .fd Rg.ROLL_ROLL / 65536) n (bit s.dist.hall.homing n))
  else s

/-- The epoch label toward a distributor (R54): the spec does not say how a joined one comes by it (log entry 80). -/
def State.sendLabel (n : Nat) (s : State) : State :=
  if s.role == 4 then s else s.sendTunnel .fd n (.epochLabel (s.get .fd (Rg.EPL_EPOCH_LABEL 0) + 2 ^ 32 * s.get .fd (Rg.EPL_EPOCH_LABEL 1)))

/-- The jobs whose creation this unit has heard of, or of which it holds tables. -/
def State.knownJobs (s : State) : List Nat := (s.dist.hall.jobs.filter fun e => e.2.created || e.2.installed).map (·.1)

/-- The restore words of R321 toward a lead die: one a die position for each created job. -/
def State.restoreWords (n : Nat) (s : State) : State :=
  s.knownJobs.foldl (fun (t : State) j =>
    let b := t.job j
    (List.range 8).foldl (fun (u : State) d =>
      let r := u.assignedRoll n + d
      u.sendWord .fd n { job := j, body := .member 0 r (if SMap.get 0 r b.members != 0 then 0 else 1) (SMap.get 0 r b.gens) }) t) s

/-- The tables and live slots of every job below a port (R217, R321). -/
def State.installBelow (n : Nat) (s : State) : State :=
  if s.role == 4 then s.restoreWords n
  else s.knownJobs.foldl (fun (t : State) j =>
    let t1 := t.sendTunnel .fd n (.jobShares j (t.get .fd (Rg.JM_ATT_RATE j)) (t.get .fd (Rg.JM_PAY_SHARE j)))
    if SMap.get 0 (t1.participant j n) (t1.job j).mcount = 0 then t1
    else (t1.jobSlots j).foldl (fun (u : State) h => u.sendTunnel .fd n (.slotInstall ((u.slot h).attr h))) (t1.sendTables j n)) s

/-- The decisions and committed changes of R321 at a port that has reached ALIGNED. -/
def State.resendChanges (p : Part) (n : Nat) (s : State) : State :=
  (s.tt p).changes.foldl (fun (t : State) c =>
    let had := bit c.ports n
    if c.state = 3 && !t.ttDue p c && (t.ttDown p c.scope c.job c.members).contains n then
      ((t.setChg p { c with ports := setBit c.ports n }).sendPrepare p c false (c.vd % 65536) n).sendWord p n (c.word (.commit c.txn c.atKind c.at_))
    else if had && (c.state = 3 || c.state = 4) then t.sendWord p n (c.word (.commit c.txn c.atKind c.at_))
    else if had && c.state = 5 then t.sendWord p n (c.word (.abort c.txn c.reason c.origin))
    else t) s

/-- The last FLOOR word of each job with members below a port (R332). -/
def State.resendFloors (n : Nat) (s : State) : State :=
  s.knownJobs.foldl (fun (t : State) j =>
    let b := t.job j
    let w := if t.isActiveRoot then (t.pj j).floor else b.lastFloor
    match w with
    | some (l, r, at_) => if SMap.get 0 (t.participant j n) b.mcount = 0 then t else t.sendWord .fd n { job := j, body := .floor l r at_ }
    | none => t) s

/-- A downstream port has reached ALIGNED. -/
def State.alignedDown (n : Nat) (s : State) : State :=
  let s1 := (((s.sendHoming n).sendLabel n).installBelow n).sendCompleted n
  let s2 := (s1.resendChanges .fd n).resendFloors n
  if s2.role == 4 then s2.sendRules n else s2

/-- The upward link has reached ALIGNED at a distributor: the join, or the resends of R229. -/
def State.alignedUp (n : Nat) (s : State) : State :=
  if !s.flag .fd Rg.HT_JOINED then (s.join .fd n).rebaseAll (s.ht .fd)
  else if (s.upPorts .fd).contains n then
    s.dist.hall.slots.foldl (fun (t : State) e => if e.2.state = .sent || e.2.state = .closed then t.sendSlotUp e.1 else t) s
  else s

/-- The slots of the die whose arrival is out. -/
def State.dieSent (s : State) : List Nat := (s.die.sync.slots.filter fun e => e.2.state = .sent && 2 ≤ e.2.scope).map (·.1)

/-- A step core's upward link has reached ALIGNED: the join, or the resends of R229; no SOURCE rule applies until a complete set is held (R303). -/
def State.alignedDie (n : Nat) (s : State) : State :=
  let s1 := s.dropRules
  if !s1.flag .sc Rg.HT_JOINED then s1.join .sc n
  else (s1.dieSent.filter fun i => !(s1.isLead && (s1.slotAt (.hub i)).scope == 2)).foldl (fun (t : State) i => t.slotSend (.hub i)) s1

/-- A package-port position of the lead die has reached ALIGNED: DONE for the slots that count its die (R229), the changes of R321. -/
def State.alignedPkg (n : Nat) (s : State) : State :=
  let s1 := s.die.sync.slots.foldl (fun (t : State) e =>
    let v := e.2
    if v.state != .free && 2 ≤ v.scope && bit v.dieMask (n - 8) then
      t.toDie (n - 8) (v.word (.done v.name v.gen ((v.e + 65535) % 65536) v.doneContrib v.doneHash v.doneFlags))
    else t) s
  s1.resendChanges .sc n

/-- A link enters ALIGNED from RANGING (R136): the resends and installs of the hall follow. -/
def State.linkAligned (p : Part) (n : Nat) (s : State) : State :=
  let s1 := (s.setLstate p n 3).modLink p n fun l => { l with alignedBeat := s.beat p, fails := 0, goneAt := none }
  let s2 := s1.linkEvent p n 3 0
  match p with
  | .fd =>
    if n < 64 then s2.alignedDown n
    else if n < 66 then (s2.alignedUp n).reselect
    else if s2.isActiveRoot then (s2.put .fd Rg.SB_MIRROR_SYNC 1).mirrorClock
    else if s2.role == 2 then ((if s2.flag .fd Rg.HT_JOINED then s2 else (s2.join .fd n).rebaseAll (s2.ht .fd)).reselect).mirrorClock
    else s2
  | .sc =>
    let s3 := if isPkg .sc n && !(s2.link .sc n).alignedEver then
        s2.modLink .sc n fun l => { l with cal := some { dCal := l.delay }, alignedEver := true }
      else s2
    if s3.parentEnd .sc n then s3.alignedPkg n else (s3.alignedDie n).dieReselect

/-! The states (R136). -/

/-- The parent end reports JOINED, and FORMED where it is a root. -/
def LinkBlk.parentReady (pkg : Bool) (f : LinkBlk) : Bool := f.joined && (pkg || (f.role != 1 && f.role != 2) || f.formed)

/-- The child's condition for ALIGNED: 1,024 valid exchanges, scatter within 250 ps, a steady rate over 256 beats. -/
def Link.ranged (l : Link) : Bool := l.exch.length == 1024 && decide (scatter l.exch ≤ 16384 * 16384) && decide (256 ≤ l.stableRun)

/-- RANGING at a good header. A distributor's links pass to ALIGNED from stage 1 (R378). -/
def State.range (p : Part) (n : Nat) (s : State) : State :=
  let s1 := (s.channelCheck p n).calCheck p n
  let l := s1.link p n
  let calOk := isPkg p n || !s1.calVoid p n
  if s1.flag p (Rg.LINK_CHANNEL_RANGE n) || !calOk || l.exch.isEmpty || (p = .fd && !s1.flag .fd Rg.START_STAGE1_MET) then s1
  else if s1.parentEnd p n then (if l.far.lstate == 3 then s1.linkAligned p n else s1)
  else if l.far.parentReady (isPkg p n) && l.ranged then s1.linkAligned p n
  else s1

/-- RANGING is held (R113, R136): its limit does not run. -/
def State.rangeHold (p : Part) (n : Nat) (s : State) : Bool :=
  s.flag p (Rg.LINK_CHANNEL_RANGE n)
    || (if s.parentEnd p n then !s.flag p Rg.HT_JOINED || (p = .fd && (s.role == 1 || s.role == 2) && !s.flag .fd Rg.HT_FORMED)
        else !(s.link p n).far.parentReady (isPkg p n))

/-- ALIGNED and SUSPECT at a good header (R113, R134, R135, R137). -/
def State.watch (p : Part) (n : Nat) (s : State) : State :=
  let s1 := ((s.residueBeat p n).channelCheck p n).calCheck p n
  let l := s1.link p n
  let s2 := if !s1.parentEnd p n && decide (8 ≤ (l.jumps.filter id).length) then s1.suspect p n 1 else s1
  let s3 := if s2.parentEnd p n && l.far.lstate == 4 && s2.lstate p n == 3 then
      let t := (s2.setLstate p n 4).linkEvent p n 2 0
      match p with
      | .fd => if prPorts.contains n then t.mirrorLost.mirrorClock else t
      | .sc => t
    else s2
  if s3.lstate p n != 4 then s3
  else
    let s4 := if s3.residueCause p n then s3 else s3.put p (Rg.LINK_SUSPECT_CAUSE n) (clearBit (s3.get p (Rg.LINK_SUSPECT_CAUSE n)) 3)
    s4.modLink p n fun k => { k with clearRun := if s4.causesClear p n then k.clearRun + 1 else 0 }

/-- The status that a unit takes from the source of its time (R47, R54, R74): FORMED, HOLDOVER, SLEWING, UNALIGNED, and ALIGNED while its own link is; on the way back from
isolation or holdover SLEWING alone. -/
def State.followSource (p : Part) (n : Nat) (s : State) : State :=
  let f := (s.link p n).far
  match p with
  | .fd =>
    let st := s.get .fd Rg.REFS_SEL_STATE
    let chosen := s.get .fd Rg.REFS_SELECTED + 61 == n
    let follows := (st == 2 && chosen) || (st == 5 && s.mirrorPort == some n)
    if !s.flag .fd Rg.HT_JOINED then s
    else if st == 6 && chosen then s.putFlag .fd Rg.HT_SLEWING f.slewing
    else if !follows then s
    else (((((s.putFlag .fd Rg.HT_FORMED f.formed).putFlag .fd Rg.HT_HOLDOVER f.holdover).putFlag .fd Rg.HT_SLEWING f.slewing).putFlag .fd Rg.HT_UNALIGNED
      f.unaligned).putFlag .fd Rg.HT_ALIGNED (!f.unaligned && s.lstate .fd n == 3)).muteOuts
  | .sc =>
    if s.die.timePort != n || !s.flag .sc Rg.HT_JOINED || !s.linkUp .sc n then s
    else if s.die.coreHold then s.putFlag .sc Rg.HT_SLEWING f.slewing
    else (((s.putFlag .sc Rg.HT_HOLDOVER f.holdover).putFlag .sc Rg.HT_SLEWING f.slewing).putFlag .sc Rg.HT_UNALIGNED f.unaligned).putFlag .sc Rg.HT_ALIGNED
      (!f.unaligned && s.lstate .sc n == 3)

/-- The time spent in a hold of TRAINING or RANGING is counted apart, since the limits do not run in it (R113, R136). -/
def State.trackHold (p : Part) (n : Nat) (s : State) : State :=
  let hold := (s.lstate p n == 1 && s.trainHold p n) || (s.lstate p n == 2 && s.rangeHold p n)
  s.modLink p n fun l => match l.heldFrom with
    | some t => if hold then l else { l with heldFrom := none, heldNs := l.heldNs + (s.now - t) }
    | none => if hold then { l with heldFrom := some s.now } else l

/-- The state machine at a good header, and the selection of a time source after it. -/
def State.linkStep (p : Part) (n : Nat) (s : State) : State :=
  let s0 := if p = .fd && 68 ≤ n then s.seatCheck else s
  let st := s0.lstate p n
  let s1 := if st = 1 then s0.train p n else if st = 2 then s0.range p n else if st = 3 || st = 4 then s0.watch p n else s0
  let s2 := (s1.followSource p n).trackHold p n
  match p with
  | .fd => if 64 ≤ n && n < 72 then s2.reselect else s2
  | .sc => s2.dieReselect

end Sys2Proof.Machine
end

