-- ==== Sys2Proof/Machine/Fec.lean ====
section
/-! DEFINITION. How bits stand on a lane: the additive scrambler and PAM4 mapping of R114, the precoding and the RS(544,514) code of R111. Every string of
bits is a number whose bit `i` is the `i`-th bit sent. -/

namespace Sys2Proof.Machine

/-! The scrambler x^58 + x^39 + 1 (R114, R160). -/

/-- From `len` bits of the sequence the next ones: bit `n` is the exclusive or of bits `n - 39` and `n - 58`, hence also of bits `n - 39·2^k` and `n - 58·2^k`. -/
def scramGrow : Nat → Nat → Nat → Nat → Nat
  | 0, _, _, s => s
  | f + 1, want, len, s =>
    if want ≤ len then s
    else
      let k := (len / 58).log2
      let a := 39 * 2 ^ k
      scramGrow f want (len + a) (s + 2 ^ len * (Nat.xor (s / 2 ^ (len - a)) (s / 2 ^ (len - 58 * 2 ^ k)) % 2 ^ a))

/-- The first `n` bits of the scrambling sequence after a seed of all ones (log entry 74). -/
def scramBits (n : Nat) : Nat := scramGrow 30 (58 + n) 58 (2 ^ 58 - 1) / 2 ^ 58 % 2 ^ n

/-- `n` bits scrambled from the seed on; the same takes the scrambling off. -/
def scramble (n v : Nat) : Nat := Nat.xor (v % 2 ^ n) (scramBits n)

/-! PAM4 (R111, R114): a level takes two bits, the first symbol sent the lowest. -/

/-- The low bit of each of `n` symbols. -/
def lowBits (n : Nat) : Nat := (4 ^ n - 1) / 3

/-- The Gray mapping of `n` symbols: of each pair the later bit is the upper bit of the level, the exclusive or of the two its lower one. It is its own inverse. -/
def grayMap (n v : Nat) : Nat := Nat.xor v (Nat.land (v / 2) (lowBits n))

/-- The sum modulo 4, symbol by symbol. -/
def addLevels (n a b : Nat) : Nat := Nat.xor (Nat.xor a b) (2 * Nat.land (Nat.land a b) (lowBits n)) % 4 ^ n

/-- The negative modulo 4, symbol by symbol. -/
def negLevels (n a : Nat) : Nat := Nat.xor a (2 * Nat.land a (lowBits n)) % 4 ^ n

/-- The product of the factors 1 + D^(2^j) from `j` on. -/
def spreadLevels (n : Nat) : Nat → Nat → Nat → Nat
  | 0, _, x => x
  | f + 1, j, x => spreadLevels n f (j + 1) (addLevels n x (x * 4 ^ 2 ^ j % 4 ^ n))

/-- Precoding 1/(1+D) mod 4 (R111), that is (1 - D)(1 + D²)(1 + D⁴)…, of `n` symbols that follow the level `prev`. -/
def precode (n prev g : Nat) : Nat :=
  let x := addLevels n g (negLevels n (prev % 4))
  spreadLevels n 17 1 (addLevels n x (negLevels n (x * 4 % 4 ^ n)))

/-- The precoding taken off. -/
def unprecode (n prev v : Nat) : Nat := addLevels n v ((v * 4 + prev % 4) % 4 ^ n)

/-! The field of 1,024 elements with x^10 + x^3 + 1, and RS(544,514) over it as IEEE 802.3 has them (log entry 74). -/

/-- A field element times x. -/
def gfX (a : Nat) : Nat := if 1024 ≤ 2 * a then Nat.xor (2 * a) 0x409 else 2 * a

/-- The product of two elements by the low `k` bits of the second. -/
def gfMulN : Nat → Nat → Nat → Nat
  | 0, _, _ => 0
  | k + 1, a, b => Nat.xor (if b % 2 = 1 then a else 0) (gfMulN k (gfX a) (b / 2))

/-- The product of two elements. -/
def gfMul (a b : Nat) : Nat := gfMulN 10 a b

/-- A power of an element. -/
def gfPow (a : Nat) : Nat → Nat
  | 0 => 1
  | n + 1 => gfMul a (gfPow a n)

/-- The inverse of an element, its 1,022nd power, from its first, third, …, 511th. -/
def gfInv (a : Nat) : Nat :=
  let step := fun x => gfMul (gfMul x x) a
  let x := step (step (step (step (step (step (step (step a)))))))
  gfMul x x

/-- x to a power below 1,023, by squaring. -/
def gfExp (n : Nat) : Nat :=
  (List.range 10).foldl (fun r i => let q := gfMul r r; if bit n (9 - i) then gfX q else q) 1

/-- The generator polynomial, the product of (X - x^j) for j from 0 to 29, times x^b for b from 0 to 9, without its leading term: ten bits a coefficient, that of
X^29 the lowest. -/
def rsRows : List Nat :=
  [0x82f422009e2e47f620c198b145a7737dfae605efb405e212513e51a8d46c00628398bb8a23f, 0x7e8d4013c5c8fec418233621b4aeffbb55c0bde6a4bc420ab7ca3418cd8008597317616477,
    0xf91380278b91fc8a7046684b6b5d7f56a3837b5d497884156f9061319b0010b2e62ec2c8ee, 0x1f226024f9707f816e01cd096d6baee8d4f04f63ab6f00a6acf04c26336002164ce5d1591dc,
    0x3e045049f2e0bf92d80b9852caf755d3e9e09acf54de914951e2d84c62c9042c89efa2b23b8, 0x7c08a093e4c37fb5b01632e585cea3a5d3513197a9bd2292a2c7f088e59b081993ff4d66779,
    0xf8114123c184fffb602c658b9b994f49e6a2632e517ad5214d8de191ef36103327fa93ccafb, 0xf26282438b0bff76e458cb1727169e938dd4c255a2b53a429a19c3b3da652026dff12f9b5ff,
    0xe6c594831f17be7dc8b0946e4e2935255ba980a3476af4a53d338767b0c3400d3fc65e34ffe, 0xcfcb2902372f3c7bb5602adc1c766a4ab74325468e95794a7a670ecf6186801a6facb569bf5]

/-- An element times the generator polynomial. -/
def rsTimes : Nat → List Nat → Nat
  | _, [] => 0
  | f, r :: t => Nat.xor (if f % 2 = 1 then r else 0) (rsTimes (f / 2) t)

/-- The remainder after `k` more information symbols, the next of them the lowest of `v`. -/
def rsDivide : Nat → Nat → Nat → Nat
  | 0, _, rem => rem
  | k + 1, v, rem =>
    let f := Nat.xor (v % 1024) (rem % 1024)
    rsDivide k (v / 1024) (if f = 0 then rem / 1024 else Nat.xor (rem / 1024) (rsTimes f rsRows))

/-- The 300 parity bits of 5,140 information bits; an idle codeword has none set. -/
def rsParity (info : Nat) : Nat := if info = 0 then 0 else rsDivide 514 info 0

/-- The codeword of 5,440 bits: 514 information symbols, then 30 parity symbols (R115). -/
def rsEncode (info : Nat) : Nat := info % 2 ^ 5140 + 2 ^ 5140 * rsParity (info % 2 ^ 5140)

/-- A polynomial, the lowest coefficient first, at a point. -/
def gfEval (x : Nat) : List Nat → Nat
  | [] => 0
  | c :: t => Nat.xor c (gfMul x (gfEval x t))

/-- The syndromes: the values of the remainder at x^0 to x^29. -/
def rsSyndromes (rem : Nat) : List Nat :=
  let cs := (List.range 30).map fun i => bits rem (290 - 10 * i) 10
  (List.range 30).map fun j => gfEval (gfExp j) cs

/-- The sum of two polynomials. -/
def gfPlus : List Nat → List Nat → List Nat
  | [], b => b
  | a, [] => a
  | x :: a, y :: b => Nat.xor x y :: gfPlus a b

/-- What Berlekamp and Massey's search for the error locator carries: the locator, its length, the last one before the length grew, the discrepancy then and the
steps since. -/
structure Locator where
  poly : List Nat := [1]
  len : Nat := 0
  prev : List Nat := [1]
  gap : Nat := 1
  disc : Nat := 1
  deriving DecidableEq, Repr

/-- One step of the search: `syn` are the syndromes up to the present one, the present one first. -/
def Locator.step (syn : List Nat) (n : Nat) (c : Locator) : Locator :=
  let d := (List.zipWith gfMul c.poly syn).foldl Nat.xor 0
  if d = 0 then { c with gap := c.gap + 1 }
  else
    let q := gfMul d (gfInv c.disc)
    let next := gfPlus c.poly (List.replicate c.gap 0 ++ c.prev.map (gfMul q))
    if 2 * c.len ≤ n then { poly := next, len := n + 1 - c.len, prev := c.poly, gap := 1, disc := d } else { c with poly := next, gap := c.gap + 1 }

/-- The search over the syndromes that follow `seen`. -/
def Locator.run : List Nat → List Nat → Nat → Locator → Locator
  | [], _, _, c => c
  | s :: t, seen, n, c => Locator.run t (s :: seen) (n + 1) (c.step (s :: seen) n)

/-- The derivative of a polynomial: in characteristic 2 the odd powers, one lower. -/
def gfDerive (c : List Nat) : List Nat := (List.range (c.length - 1)).map fun i => if i % 2 = 0 then c.getD (i + 1) 0 else 0

/-- The errors of a codeword with these syndromes, as symbol positions from the first sent and values (the roots of the locator, Forney's formula); none where there
are more than 15 or no codeword lies so near. -/
def rsErrors (syn : List Nat) : Option (List (Nat × Nat)) :=
  let l := Locator.run syn [] 0 {}
  let omega := (List.range 30).map fun i => ((List.range (i + 1)).map fun j => gfMul (l.poly.getD j 0) (syn.getD (i - j) 0)).foldl Nat.xor 0
  let slope := gfDerive l.poly
  let found := (List.range 544).filterMap fun i =>
    let inv := gfExp ((1023 - (543 - i)) % 1023)
    if gfEval inv l.poly = 0 then some (i, gfMul (gfExp (543 - i)) (gfMul (gfEval inv omega) (gfInv (gfEval inv slope)))) else none
  if 15 < l.len || found.length != l.len then none else some found

/-- RS decoding (R111): the information bits and how many symbols were corrected; none where the codeword cannot be corrected. -/
def rsDecode (cw : Nat) : Option (Nat × Nat) :=
  let info := cw % 2 ^ 5140
  let rem := Nat.xor (cw / 2 ^ 5140 % 2 ^ 300) (rsParity info)
  if rem = 0 then some (info, 0)
  else match rsErrors (rsSyndromes rem) with
    | none => none
    | some es =>
      let fixed := es.foldl (fun v e => Nat.xor v (e.2 * 2 ^ (10 * e.1))) (cw % 2 ^ 5440)
      if Nat.xor (fixed / 2 ^ 5140) (rsParity (fixed % 2 ^ 5140)) = 0 then some (fixed % 2 ^ 5140, es.length) else none

end Sys2Proof.Machine
end

