-- ==== Sys2Proof/Machine/Wire.lean ====
section
/-! DEFINITION. The bits of links: control words and slots (R121, R122), the header's blocks (R117, R118), codewords (R115, R120, R260, R261, R303, R448), frames as PAM4 levels (R111, R114 to
R116, R132), package-port slots (R160). The least significant bit of a field is sent first. -/

namespace Sys2Proof.Machine

open Sys2Proof

/-- A number read from bit 0 up as fields of these widths. -/
def unpackBits : List Nat → Nat → List Nat
  | [], _ => []
  | w :: t, v => v % 2 ^ w :: unpackBits t (v / 2 ^ w)

/-- A one-bit field as a flag. -/
def toBool (v : Nat) : Bool := v % 2 == 1

/-- `n` bytes of bits followed by their CRC-32C. -/
def withCrc (n v : Nat) : Nat := v % 2 ^ (8 * n) + 2 ^ (8 * n) * crc32c (leBytes n v)

/-- The CRC-32C behind `n` bytes of bits passes. -/
def crcPasses (n v : Nat) : Bool := v / 2 ^ (8 * n) % 2 ^ 32 == crc32c (leBytes n v)

/-! Control words (R121, R122). -/

/-- The bell word of 128 bits (R241). -/
def BellWord.ofBits (v : Nat) : BellWord :=
  match unpackBits [48, 6, 4, 8, 1, 1, 1, 3, 32, 16] v with
  | [no, job, kind, floor, tt, forced, unres, _, hwm, epoch] =>
    { bellNo := no, job := job, kind := kind, floor := floor, ttAt := toBool tt, forced := toBool forced, unresolvedSeen := toBool unres, closeHwm := hwm, stepEpoch := epoch }
  | _ => { bellNo := 0, job := 0 }

/-- The TYPE of a control word (R122). -/
def CtlBody.code : CtlBody → Nat
  | .arrive _ _ _ _ _ _ _ => 0x01
  | .withdraw _ _ _ _ _ => 0x02
  | .liveness _ _ _ _ => 0x03
  | .vote _ _ _ _ _ => 0x04
  | .monitor _ _ _ _ => 0x05
  | .bell _ _ => 0x10
  | .prepare _ _ _ _ _ => 0x11
  | .commit _ _ _ => 0x12
  | .abort _ _ _ => 0x13
  | .member _ _ _ _ => 0x14
  | .floor _ _ _ => 0x15
  | .close _ _ _ _ _ _ => 0x16
  | .stale _ _ _ _ _ => 0x17
  | .done _ _ _ _ _ _ => 0x18
  | .undefined t => t

/-- The widths of the fields of a TYPE from slot bit 32 up (R122). -/
def ctlWidths (t : Nat) : List Nat :=
  if t = 0x01 then [20, 8, 16, 21, 32, 1, 12]
  else if t = 0x02 then [20, 8, 16, 21, 32]
  else if t = 0x03 then [21, 8, 16, 32]
  else if t = 0x04 then [32, 1, 8, 21, 32]
  else if t = 0x05 then [6, 21, 32, 1]
  else if t = 0x10 then [54, 128]
  else if t = 0x11 then [32, 1, 54, 16, 64]
  else if t = 0x12 then [32, 1, 54]
  else if t = 0x13 then [32, 8, 21]
  else if t = 0x14 then [32, 21, 2, 8]
  else if t = 0x15 then [8, 1, 54]
  else if t = 0x16 then [24, 32, 16, 22, 8, 32]
  else if t = 0x17 then [21, 20, 8, 16, 8]
  else if t = 0x18 then [20, 8, 16, 22, 32, 8]
  else []

/-- The values of the fields of a control word in the order of R122. -/
def CtlBody.fields : CtlBody → List Nat
  | .arrive h g e src ht pl tag => [h, g, e, src, ht, ofBool pl, tag]
  | .withdraw h g e src ht => [h, g, e, src, ht]
  | .liveness src mask seq ht => [src, mask, seq, ht]
  | .vote txn yes reason src ht => [txn, ofBool yes, reason, src, ht]
  | .monitor ctx src ht dead => [ctx, src, ht, ofBool dead]
  | .bell b w => [b, w.toBits]
  | .prepare txn k a vb d => [txn, k, a, vb, d]
  | .commit txn k a => [txn, k, a]
  | .abort txn reason origin => [txn, reason, origin]
  | .member txn roll action gen => [txn, roll, action, gen]
  | .floor level recess b => [level, ofBool recess, b]
  | .close bucket seq e contrib flags hash => [bucket, seq, e, contrib, flags, hash]
  | .stale roll h g e cause => [roll, h, g, e, cause]
  | .done h g e contrib hash flags => [h, g, e, contrib, hash, flags]
  | .undefined _ => []

/-- The control word of a TYPE with these field values. -/
def CtlBody.ofFields (t : Nat) (v : List Nat) : CtlBody :=
  match t, v with
  | 0x01, [h, g, e, src, ht, pl, tag] => .arrive h g e src ht (toBool pl) tag
  | 0x02, [h, g, e, src, ht] => .withdraw h g e src ht
  | 0x03, [src, mask, seq, ht] => .liveness src mask seq ht
  | 0x04, [txn, yes, reason, src, ht] => .vote txn (toBool yes) reason src ht
  | 0x05, [ctx, src, ht, dead] => .monitor ctx src ht (toBool dead)
  | 0x10, [b, w] => .bell b (BellWord.ofBits w)
  | 0x11, [txn, k, a, vb, d] => .prepare txn k a vb d
  | 0x12, [txn, k, a] => .commit txn k a
  | 0x13, [txn, reason, origin] => .abort txn reason origin
  | 0x14, [txn, roll, action, gen] => .member txn roll action gen
  | 0x15, [level, recess, b] => .floor level (toBool recess) b
  | 0x16, [bucket, seq, e, contrib, flags, hash] => .close bucket seq e contrib flags hash
  | 0x17, [roll, h, g, e, cause] => .stale roll h g e cause
  | 0x18, [h, g, e, contrib, hash, flags] => .done h g e contrib hash flags
  | _, _ => .undefined t

/-- A control slot of 256 bits with its CRC (R121). -/
def CtlSlot.toBits (x : CtlSlot) : Nat :=
  withCrc 28 (packBits [(8, x.word.body.code), (6, x.word.job), (1, ofBool x.word.hallwide), (1, 0), (16, x.lseq), (192, packBits ((ctlWidths x.word.body.code).zip x.word.body.fields))])

/-- A control slot read from its 256 bits; field bits that the TYPE does not name are ignored. -/
def CtlSlot.ofBits (v : Nat) : CtlSlot :=
  let t := bits v 0 8
  { lseq := bits v 16 16, crcOk := crcPasses 28 v,
    word := { job := bits v 8 6, hallwide := bit v 14, body := CtlBody.ofFields t (unpackBits (ctlWidths t) (bits v 32 192)) } }

/-! The header (R115, R117, R118). -/

/-- The timing block's 256 bits (R117). -/
def TimingBlk.toBits (t : TimingBlk) : Nat := packBits [(80, t.txHt), (80, t.echoHt), (48, t.turnaround), (1, ofBool t.echoValid), (47, 0)]

/-- A timing block read from its bits. -/
def TimingBlk.ofBits (v : Nat) : TimingBlk := { txHt := bits v 0 80, echoHt := bits v 80 80, turnaround := bits v 160 48, echoValid := bit v 208 }

/-- The link-state block's 256 bits (R118). -/
def LinkBlk.toBits (b : LinkBlk) : Nat :=
  packBits [(3, b.lstate), (3, b.role), (1, ofBool b.activeRoot), (1, ofBool b.formed), (1, ofBool b.joined), (1, ofBool b.unaligned), (1, ofBool b.holdover),
    (1, ofBool b.slewing), (2, b.epochKind), (1, ofBool b.homing), (1, ofBool b.carrying), (7, b.position), (21, b.roll), (1, ofBool b.rollValid), (6, b.payCur), (6, b.payNext),
    (16, b.payAt), (1, ofBool b.payAnn), (16, b.cw0Ack), (1, ofBool b.swapAnn), (16, b.swapAt), (1, ofBool b.onSpare), (1, ofBool b.calAnn), (16, b.calAt),
    (1, ofBool b.levelRefused), (1, ofBool b.homingMismatch), (1, ofBool b.precode), (1, ofBool b.seatB), (127, 0)]

/-- A link-state block read from its bits; reserved bits are ignored (R119). -/
def LinkBlk.ofBits (v : Nat) : LinkBlk :=
  { lstate := bits v 0 3, role := bits v 3 3, activeRoot := bit v 6, formed := bit v 7, joined := bit v 8, unaligned := bit v 9, holdover := bit v 10, slewing := bit v 11,
    epochKind := bits v 12 2, homing := bit v 14, carrying := bit v 15, position := bits v 16 7, roll := bits v 23 21, rollValid := bit v 44, payCur := bits v 45 6,
    payNext := bits v 51 6, payAt := bits v 57 16, payAnn := bit v 73, cw0Ack := bits v 74 16, swapAnn := bit v 90, swapAt := bits v 91 16, onSpare := bit v 107,
    calAnn := bit v 108, calAt := bits v 109 16, levelRefused := bit v 125, homingMismatch := bit v 126, precode := bit v 127, seatB := bit v 128 }

/-- Frame bits 128 to 895: the blocks, the reserved bits, the CRC-32C over bits 128 to 863 (R115). -/
def headerBits (t : TimingBlk) (b : LinkBlk) : Nat := withCrc 92 (packBits [(256, t.toBits), (256, b.toBits), (224, 0)])

/-! Codewords (R120, R260, R261, R303, R448). -/

/-- CW0: SLOT_VALID, then 20 slots (R121). -/
def cw0Bits (l : List CtlSlot) : Nat := packBits ((20, 2 ^ l.length - 1) :: l.map fun x => (256, x.toBits))

/-- A control carrier: the marker, SLOT_VALID, 19 slots (R448). -/
def carrierBits (l : List CtlSlot) : Nat := packBits ((20, 0x80000) :: (19, 2 ^ l.length - 1) :: l.map fun x => (256, x.toBits))

/-- The slots that `n` SLOT_VALID bits name, the first slot at bit `at_`. -/
def validSlots (n valid at_ v : Nat) : List CtlSlot := (setBits n valid).map fun s => CtlSlot.ofBits (bits v (at_ + 256 * s) 256)

/-- The slots of a CW0. -/
def cw0Slots (v : Nat) : List CtlSlot := validSlots 20 (bits v 0 20) 20 v

/-- The slots of a codeword that is a carrier; none of any other. -/
def carrierSlots (v : Nat) : List CtlSlot := if bits v 0 20 = 0x80000 then validSlots 19 (bits v 20 19) 39 v else []

/-- Elements with a count behind each, as MEAN has them (R266). -/
def packPairs (w : Nat) : List Nat → List Nat → Nat
  | e :: t, c :: u => e % 2 ^ w + 2 ^ w * (c % 2 ^ 64 + 2 ^ 64 * packPairs w t u)
  | _, _ => 0

/-- The four words of a summary (R261). -/
def Summary.toBits (fkind : Nat) (s : Summary) : Nat :=
  packBits [(22, s.contrib), (10, 0), (32, s.hash), (24, s.bucket), (4, s.op), (4, s.fmt), (11, s.count), (1, ofBool s.mean), (8, s.baseExp), (8, s.pflags), (4, 0), (64, s.word2),
    (61, if fkind = 2 then s.residue else 0), (3, 0)]

/-- A body as words from bit 0 up (R261): summary, PRESENT of an element partial, elements. -/
def Body.toBits (fkind : Nat) (b : Body) : Nat :=
  let s := b.sum
  if fkind = 1 then
    if !b.isElem then s.toBits 1
    else packBits [(256, s.toBits 1), (64 * ceilDiv s.count 64, b.present), (64 * 4096,
      if s.mean then packPairs (carryBits s.op s.fmt) b.elems b.counts else packElems (carryBits s.op s.fmt) b.elems)]
  else s.toBits 2 + 2 ^ 256 * packElems s.resultWidth b.elems

/-- A fragment's header and data words (R260). -/
def Fragment.toBits (f : Fragment) : Nat :=
  packBits [(2, f.fkind), (6, f.job), (32, f.tag), (12, f.offset), (7, f.len), (1, ofBool f.last), (1, ofBool f.gone), (3, 0), (64 * f.len, f.body.toBits f.fkind / 2 ^ (64 * f.offset))]

/-- A record and its continuations as positions of 128 bits (R295). -/
def Rec.words (r : Rec) : List Nat := r.toBits :: r.conts.map fun c => c % 2 ^ 120 + 2 ^ 120 * 0xFF

/-- A rule record (R303). -/
def RuleRec.toBits (r : RuleRec) : Nat :=
  packBits [(5, r.index), (1, ofBool r.valid), (2, r.action), (4, r.sampleLog2), (8, r.kindLo), (8, r.kindHi), (6, r.job), (1, ofBool r.anyJob), (16, r.setSeq), (69, 0), (8, 0xFE)]

/-- An attendance codeword: the count, then the positions in use (R120). -/
def attBits (l : List Nat) : Nat := packBits ((6, l.length) :: (14, 0) :: l.map fun x => (128, x))

/-- The telemetry bits of CW41 (R120). -/
def Telemetry.toBits (t : Telemetry) : Nat := packBits [(40, t.powerMw), (22, t.dies), (1, ofBool t.valid), (1, ofBool t.partialSum), (54, t.reportBeat)]

/-- Telemetry read from its bits. -/
def Telemetry.ofBits (v : Nat) : Telemetry :=
  { powerMw := bits v 0 40, dies := bits v 40 22, valid := bit v 62, partialSum := bit v 63, reportBeat := bits v 64 54 }

/-- The tunnel's bytes of a beat, a free value: the spec lays out the stream and not what stands in it (R120; log entry 75). -/
def tunnelBytes (beat len : Nat) : Nat := if len = 0 then 0 else Config.tunnelBytes beat % 2 ^ (8 * len)

/-- CW41 (R120). -/
def cw41Bits (beat tunLen : Nat) (t : Telemetry) : Nat := packBits [(128, t.toBits), (10, tunLen), (4992, tunnelBytes beat tunLen)]

/-! The frame (R111, R114 to R116, R132). -/

/-- The codeword positions from `a` to `b` that no carrier takes. -/
def freePositions (taken : List Nat) (a b : Nat) : List Nat := ((List.range (b + 1 - a)).map (a + ·)).filter fun c => !taken.contains c

/-- The information bits of CW0 to CW41 (R120, R448): fragments fill the payload positions from CW1, attendance or rule records those after them. -/
def Frame.infos (f : Frame) : List Nat :=
  let taken := f.carriers.map (·.1)
  let p := f.blk.payCur
  let recs := (f.records.map fun l => attBits (l.map Rec.words).flatten) ++ f.rules.map fun l => attBits (l.map RuleRec.toBits)
  let put := (f.carriers.map fun e => (e.1, carrierBits e.2)) ++ (freePositions taken 1 p).zip (f.payload.map Fragment.toBits) ++ (freePositions taken (p + 1) 40).zip recs
  (List.range 42).map fun c => if c = 0 then cw0Bits f.cw0 else if c = 41 then cw41Bits f.beat f.tunLen f.tel else ((put.find? fun e => e.1 == c).map (·.2)).getD 0

/-- Frame bits 128 to 229,375 before scrambling (R115). -/
def Frame.bodyBits (f : Frame) : Nat := packBits ((768, headerBits f.timing f.blk) :: f.infos.map fun v => (5440, rsEncode v))

/-- The alignment pattern as levels: 32 symbols at 0, then 32 at 3 (R116). -/
def patternLevels : Nat := 4 ^ 64 - 4 ^ 32

/-- The symbol with which CW1 begins, counted from bit 128. -/
def sliceFrom : Nat := 3104

/-- The symbol with which CW41 begins, counted from bit 128. -/
def sliceTo : Nat := 111904

/-- A slice frame's levels in place of CW1 to CW40 (R132): level 0, and level 3 from 512 ns after the frame's start. -/
def sliceLevels : Nat := 4 ^ (sliceTo - sliceFrom) - 4 ^ (57280 - sliceFrom)

/-- The levels a lane drives for coded bits from frame bit 128 on (R111, R114): precoding goes on from the level before, the pattern's 3 or the step's. -/
def driveLevels (pre slice : Bool) (coded : Nat) : Nat :=
  let g := grayMap 114624 coded
  let run := fun n v : Nat => if pre then precode n 3 v else v
  if slice then packBits [(2 * sliceFrom, run sliceFrom (g % 4 ^ sliceFrom)), (2 * (sliceTo - sliceFrom), sliceLevels), (2 * (114624 - sliceTo), run (114624 - sliceTo) (g / 4 ^ sliceTo))]
  else run 114624 g

/-- A frame as the levels of its 114,688 symbols. -/
def Frame.levels (pre : Bool) (f : Frame) : Nat := patternLevels + 4 ^ 64 * driveLevels pre f.slice (scramble 229248 f.bodyBits)

/-- The coded bits that levels give; in a slice frame the receiver sees nothing of CW1 to CW40, whose levels it knows (R132). -/
def codedBits (pre slice : Bool) (levels : Nat) : Nat :=
  let v := if slice then packBits [(2 * sliceFrom, levels), (2 * (sliceTo - sliceFrom), sliceLevels), (2 * (114624 - sliceTo), levels / 4 ^ sliceTo)] else levels
  grayMap 114624 (if pre then unprecode 114624 3 v else v)

/-- What a received frame gives (R115, R116, R119, R120, R448): `pre` where the far end precodes, `slice` where a calibration slice is due from it. -/
def RxFrame.parts (pre slice : Bool) (x : RxFrame) : RxParts :=
  let v := scramble 229248 (codedBits pre slice (x.levels / 4 ^ 64 % 4 ^ 114624))
  let cw := fun c : Nat => rsDecode (bits v (768 + 5440 * c) 5440)
  let cws := if slice then [cw 0, cw 41] else (List.range 42).map cw
  let info := fun o : Option (Nat × Nat) => (o.map (·.1)).getD 0
  let last := info (cws.getLast?.getD none)
  { pattern := x.levels % 4 ^ 64 == patternLevels, headerOk := crcPasses 92 v, timing := TimingBlk.ofBits v, blk := LinkBlk.ofBits (bits v 256 256),
    slots := cw0Slots (info (cws.getD 0 none)) ++ (((cws.drop 1).dropLast).map fun o => carrierSlots (info o)).flatten,
    tel := Telemetry.ofBits last, tunLen := bits last 128 10, uncorrected := (cws.filter Option.isNone).length,
    corrected := cws.foldl (fun n o => n + (o.map (·.2)).getD 0) 0 }

/-! Package-port slots (R160). -/

/-- SLOT_KINDs (R160). -/
def kindSync : Nat := 0xF0

/-- The STATE slot's kind. -/
def kindState : Nat := 0x3C

/-- A CONTROL slot's kind. -/
def kindControl : Nat := 0x5A

/-- A DATA slot's kind. -/
def kindData : Nat := 0xA5

/-- The scrambling of slot `k`: the sequence runs across the 256 body bits of each slot of the beat. -/
def slotScramble (k : Nat) : Nat := scramBits (256 * (k + 1)) / 2 ^ (256 * k)

/-- The 264 bits of slot `k` with a kind and a body. -/
def slotWord (k kind body : Nat) : Nat := kind % 256 + 256 * Nat.xor (body % 2 ^ 256) (slotScramble k)

/-- The body of a SYNC slot. -/
def syncBody (t : TimingBlk) : Nat := withCrc 28 (packBits [(80, t.txHt), (80, t.echoHt), (48, t.turnaround), (1, ofBool t.echoValid), (15, 0)])

/-- The body of a STATE slot; DIE is the POSITION of the link-state block. -/
def stateBody (b : LinkBlk) : Nat :=
  withCrc 28 (packBits [(3, b.lstate), (3, b.position), (21, b.roll), (1, ofBool b.rollValid), (1, ofBool b.joined), (1, ofBool b.unaligned), (1, ofBool b.holdover),
    (1, ofBool b.slewing), (2, b.epochKind), (16, b.cw0Ack), (174, 0)])

/-- A link-state block read from a STATE body; the far end of a package port is a die. -/
def blkOfState (v : Nat) : LinkBlk :=
  { lstate := bits v 0 3, role := 5, position := bits v 3 3, roll := bits v 6 21, rollValid := bit v 27, joined := bit v 28, unaligned := bit v 29, holdover := bit v 30,
    slewing := bit v 31, epochKind := bits v 32 2, cw0Ack := bits v 34 16 }

/-- The kind and body of what a slot carries. -/
def SlotBody.toBits : SlotBody → Nat × Nat
  | .control x => (kindControl, x.toBits)
  | .data kind len v => (kindData, withCrc 28 (packBits [(8, kind), (8, len), (208, v)]))

/-- The 256 slots of a beat, one after the other: 67,584 bits, the even ones on lane 0 and the odd ones on lane 1. -/
def Frame.slotBits (f : Frame) : Nat :=
  packBits ((List.range 256).map fun k =>
    (264, if k = 0 then slotWord 0 kindSync (syncBody f.timing)
      else if k = 128 then slotWord 128 kindState (stateBody f.blk)
      else match f.slots.find? fun e => e.1 == k with
        | some e => slotWord k e.2.toBits.1 e.2.toBits.2
        | none => slotWord k 0 0))

/-- What a received slot is (R160). A SYNC or STATE kind in another slot counts as a reserved kind (log entry 75). -/
inductive PkgSlot where
  | sync (timing : TimingBlk) (crcOk : Bool)
  | state (blk : LinkBlk) (crcOk : Bool)
  | control (slot : CtlSlot)
  | data (kind len value : Nat) (crcOk : Bool)
  | idle
  | reserved (kind : Nat)
  deriving DecidableEq, Repr

/-- A received slot read. -/
def RxSlot.parse (x : RxSlot) : PkgSlot :=
  let kind := bits x.word 0 8
  let v := Nat.xor (bits x.word 8 256) (slotScramble x.index % 2 ^ 256)
  if kind = 0 then .idle
  else if kind = kindSync && x.index = 0 then .sync (TimingBlk.ofBits (v % 2 ^ 209)) (crcPasses 28 v)
  else if kind = kindState && x.index = 128 then .state (blkOfState v) (crcPasses 28 v)
  else if kind = kindControl && x.index != 0 && x.index != 128 then .control (CtlSlot.ofBits v)
  else if kind = kindData && x.index != 0 && x.index != 128 then .data (bits v 0 8) (bits v 8 8) (bits v 16 208) (crcPasses 28 v)
  else .reserved kind

end Sys2Proof.Machine
end

