-- ==== Sys2Proof/Machine/LinkTx.lean ====
section
/-! DEFINITION. The frame that a port sends in each beat (R115 to R124, R132, R142, R160, R161, R262, R294, R303, R311, R312, R316, R448). -/

namespace Sys2Proof.Machine

open Sys2Proof

/-! Control words (R123, R124, R448). -/

/-- The place of a word's class in the order of R124. -/
def CtlBody.order : CtlBody → Nat
  | .bell _ _ => 0
  | .abort _ _ _ => 1
  | .commit _ _ _ => 2
  | .prepare _ _ _ _ _ => 3
  | .member _ _ _ _ => 4
  | .floor _ _ _ => 5
  | .close _ _ _ _ _ _ => 6
  | .done _ _ _ _ _ _ => 7
  | .stale _ _ _ _ _ => 8
  | .vote _ _ _ _ _ => 0
  | .arrive _ _ _ _ _ _ _ => 1
  | .withdraw _ _ _ _ _ => 2
  | .monitor _ _ _ _ => 3
  | .liveness _ _ _ _ => 4
  | .undefined _ => 9

/-- A body of a kind and tag has not been sent to its LAST fragment. -/
def Link.bodyOwed (fkind job tag : Nat) (l : Link) : Bool :=
  l.txBodies.any fun b => b.fkind == fkind && b.job == job && b.tag == tag && b.sentBeat.isNone && !b.gone

/-- The tunnel still holds an install of a job (R321, R380). -/
def Link.installing (job : Nat) (l : Link) : Bool :=
  l.tunnel.any fun m => match m with
    | .memberTables j _ => j == job
    | .slotInstall a => a.job == job
    | _ => false

/-- A word of the job waits that satisfies a test. -/
def Link.waits (job : Nat) (f : CtlBody → Bool) (l : Link) : Bool := l.txq.any fun w => w.job == job && f w.body

/-- A restore word of R321. -/
def CtlBody.isRestore : CtlBody → Bool
  | .member 0 _ _ _ => true
  | _ => false

/-- What the word itself waits for: an ARRIVE for its partial, the root's CLOSE for its result and the DONE for that CLOSE (R257, R262), a WITHDRAW behind
the arrival of its slot, a BELL behind the job's COMMIT (R316), a PREPARE behind the body and the MEMBER words (R312), a decision behind the PREPARE. -/
def CtlWord.ready (root : Bool) (l : Link) (w : CtlWord) : Bool :=
  match w.body with
  | .arrive _ _ _ _ _ pl tag => !pl || (tag != noPtag && !l.bodyOwed 1 w.job tag)
  | .withdraw h _ _ _ _ => !l.waits w.job fun b => match b with
      | .arrive k _ _ _ _ _ _ => k == h
      | _ => false
  | .close _ seq _ _ _ _ => !root || !l.bodyOwed 2 w.job seq
  | .done _ _ epoch _ _ _ => !root || !l.waits w.job fun b => match b with
      | .close _ seq e _ _ _ => e == epoch && l.bodyOwed 2 w.job seq
      | _ => false
  | .bell _ _ => !l.waits w.job fun b => match b with
      | .commit _ _ _ => true
      | _ => false
  | .prepare txn _ _ _ _ =>
    !(l.tunnel.any fun m => match m with
      | .ttBody t _ _ _ => t == txn
      | _ => false) && !(l.txq.any fun x => match x.body with
      | .member t _ _ _ => t == txn
      | _ => false)
  | .commit txn _ _ => !l.txq.any fun x => match x.body with
      | .prepare t _ _ _ _ => t == txn
      | _ => false
  | .abort txn _ _ => !l.txq.any fun x => match x.body with
      | .prepare t _ _ _ _ => t == txn
      | _ => false
  | _ => true

/-- A word may leave: it is ready, and no install of its job and no restore word of it goes before (R321). -/
def CtlWord.free (root : Bool) (l : Link) (w : CtlWord) : Bool :=
  w.ready root l && (w.hallwide || w.body.isRestore || (!l.installing w.job && !l.waits w.job CtlBody.isRestore))

/-- The next word by class and order (R124): in a class the word queued first, unless it may not leave yet; a restore word goes before the words that wait for it (R321). -/
def Link.nextWord (root : Bool) (l : Link) : Option CtlWord :=
  (List.range 10).findSome? fun c =>
    match l.txq.find? fun w => w.body.order == c && w.body.isRestore && w.free root l with
    | some w => some w
    | none => (l.txq.find? fun w => w.body.order == c).filter (·.free root l)

/-- Up to `k` new words leave the queue. -/
def Link.pickWords (root : Bool) : Nat → Link → List CtlWord × Link
  | 0, l => ([], l)
  | k + 1, l => match l.nextWord root with
    | none => ([], l)
    | some w =>
      let r := Link.pickWords root k { l with txq := l.txq.erase w }
      (w :: r.1, r.2)

/-- A list in pieces of `k`. -/
def pieces {α : Type} (k : Nat) : Nat → List α → List (List α)
  | 0, _ => []
  | _, [] => []
  | f + 1, l => l.take k :: pieces k f (l.drop k)

/-- The words that a CW0 and `c` carriers hold. -/
def wordRoom (c : Nat) : Nat := 20 + 19 * c

/-- A control word waits that could leave now. -/
def Link.wordsWait (root : Bool) (l : Link) : Bool := l.resend.isSome || (decide (l.out.length < 4096) && (l.nextWord root).isSome)

/-- The vote deadline of a change is fixed as its first PREPARE leaves the root (R311); the word carries its low 16 bits. -/
def State.stampPrepare (beat : Nat) (w : CtlWord) (s : State) : CtlWord × State :=
  match w.body with
  | .prepare txn k a _ d =>
    if !s.isActiveRoot then (w, s)
    else match s.chg .fd txn with
      | none => (w, s)
      | some c =>
        let vd := if c.vd = 0 then beat + c.voteBeats else c.vd
        ({ w with body := .prepare txn k a (vd % 65536) d }, if c.vd = 0 then s.setChg .fd { c with vd := vd, state := if c.state = 1 then 2 else c.state } else s)
  | _ => (w, s)

/-- The same for a list. -/
def State.stampPrepares (beat : Nat) : List CtlWord → State → List CtlWord × State
  | [], s => ([], s)
  | w :: t, s =>
    let a := s.stampPrepare beat w
    let b := State.stampPrepares beat t a.2
    (a.1 :: b.1, b.2)

/-- The control slots of a frame, `all` of them at most (R123): words to be sent again first, then new ones, with their LSEQ; at most 4,096 outstanding. -/
def State.txWords (p : Part) (n all : Nat) (s : State) : List CtlSlot × State :=
  if !s.linkUp p n then ([], s)
  else
    let l := s.link p n
    let beat := s.beat p
    let again := match l.resend with
      | none => []
      | some from_ => (l.out.filter fun x => !laterThan 16 from_ x.lseq).take all
    let next := match again.getLast? with
      | none => none
      | some x => if (l.out.getLast?.map (·.lseq)) == some x.lseq then none else some ((x.lseq + 1) % 65536)
    let room := min (all - again.length) (4096 - l.out.length)
    let pick := l.pickWords (p = .fd && s.isActiveRoot) room
    let st := s.stampPrepares beat pick.1
    let fresh := (List.range st.1.length).zip st.1 |>.map fun e => ({ lseq := (l.nextLseq + e.1) % 65536, beat := beat, word := e.2 } : Sent)
    let out := l.out.map fun x => if again.any (·.lseq == x.lseq) then { x with beat := beat } else x
    let full := 4096 ≤ out.length + fresh.length && !pick.2.txq.isEmpty
    let bell := fresh.any fun x => match x.word.body with
      | .bell _ _ => true
      | _ => false
    let l1 := { pick.2 with out := out ++ fresh, nextLseq := (l.nextLseq + fresh.length) % 65536, resend := next, outFull := if full then l.outFull + 1 else l.outFull,
                            lastBellBeat := if bell then beat else l.lastBellBeat }
    ((again ++ fresh).map fun x => { lseq := x.lseq, crcOk := true, word := x.word }, st.2.setLink p n l1)

/-- A BELL word on the link discards a calibration run, which starts again after 64 beats without one (R132). A link in SUSPECT ignores the condition (R134). -/
def State.bellOnLink (p : Part) (n : Nat) (s : State) : State :=
  let s1 := s.modLink p n fun l => { l with lastBellBeat := s.beat p }
  if (s1.link p n).calRun.isSome && s1.lstate p n == 3 then
    (s1.modLink p n fun l => { l with calRun := none, calWant := true }).put p (Rg.LINK_CAL_RUNNING n) 0
  else s1

/-! Payload (R260 to R264). -/

/-- The body has a fragment to send. -/
def TxBody.sendable (b : TxBody) : Bool :=
  b.sentBeat.isNone && (b.fkind == 3 || b.gone || (!(b.fkind == 1 && b.tag == noPtag) && decide (b.at_ < b.have_)))

/-- The next fragment of a body (R260): up to 79 words. -/
def TxBody.fragment (b : TxBody) : Fragment :=
  if b.fkind = 3 then { fkind := 3, job := b.job, tag := b.tag }
  else if b.gone then { fkind := b.fkind, job := b.job, tag := b.tag, gone := true }
  else
    let len := min 79 (b.have_ - b.at_)
    { fkind := b.fkind, job := b.job, tag := b.tag, offset := b.at_, len := len, last := b.at_ + len == b.body.wordsAs b.fkind, body := b.body }

/-- The body after its fragment has gone; a request and a GONE are not kept. -/
def TxBody.after (beat : Nat) (f : Fragment) (b : TxBody) : Option TxBody :=
  if b.fkind = 3 || b.gone then none
  else some { b with at_ := b.at_ + f.len, sentBeat := if f.last then some beat else none }

/-- The first body that satisfies a test is changed or goes. -/
def changeFirst (t : TxBody → Bool) (f : TxBody → Option TxBody) : List TxBody → List TxBody
  | [] => []
  | b :: r => if t b then (f b).toList ++ r else b :: changeFirst t f r

/-- PAY_SHARE of a job at a sender; a step core's jobs share equally. -/
def State.payShare (p : Part) (j : Nat) (s : State) : Nat := if p = .fd then max 1 (s.get .fd (Rg.JM_PAY_SHARE j)) else 1

/-- Up to `k` fragments: the job that has had least of its share comes next (R262). -/
def Link.pickFragments (beat : Nat) (share : Nat → Nat) : Nat → Link → List Fragment × Link
  | 0, l => ([], l)
  | k + 1, l =>
    let jobs := ((l.txBodies.filter (·.sendable)).map (·.job)).eraseDups
    match leastBy (fun j => SMap.get 0 j l.sentByJob * 1048576 / share j) jobs with
    | none => ([], { l with sentByJob := [] })
    | some j =>
      match l.txBodies.find? fun b => b.sendable && b.job == j with
      | none => ([], l)
      | some b =>
        let f := b.fragment
        let l1 := { l with txBodies := changeFirst (fun x => x.sendable && x.job == j) (·.after beat f) l.txBodies,
                           sentByJob := SMap.set j (SMap.get 0 j l.sentByJob + 1) l.sentByJob }
        let r := Link.pickFragments beat share k l1
        (f :: r.1, r.2)

/-- Results are held for 256 beats after their LAST fragment (R264). -/
def Link.dropOld (beat : Nat) (l : Link) : Link :=
  { l with txBodies := l.txBodies.filter fun b => !(b.fkind == 2 && (match b.sentBeat with
      | some t => decide (t + 256 < beat)
      | none => false)) }

/-- The fragments of a frame: those that a carrier has displaced first (R448). -/
def State.txPayload (p : Part) (n room : Nat) (s : State) : List Fragment × State :=
  if !s.linkUp p n then ([], s)
  else
    let l := s.link p n
    let back := l.payBack.take room
    let r := ({ l with payBack := l.payBack.drop room }.dropOld (s.beat p)).pickFragments (s.beat p) (s.payShare p · ) (room - back.length)
    (back ++ r.1, s.setLink p n r.2)

/-! Attendance records and rules (R120, R294, R298, R303). -/

/-- The groups from the front of a list that fit in `room` positions. -/
def takeRecs (room : Nat) : List Rec → List Rec × List Rec
  | [] => ([], [])
  | x :: t => if x.size ≤ room then
      let r := takeRecs (room - x.size) t
      (x :: r.1, r.2)
    else ([], x :: t)

/-- The positions that records take. -/
def recSize (l : List Rec) : Nat := l.foldl (fun n x => n + x.size) 0

/-- Records leave the die's buffer for every upward port that is up (R142), as many as fit; a drop is reported by one REC_LOST record (R298). -/
def State.pullRecs (room : Nat) (s : State) : State :=
  let a := s.die.att
  let lost : List Rec := if a.lost = 0 then [] else
    [{ kind := 0x2F, arg := sat 24 a.lost, hallwide := true, die := s.die.pkgIndex, ht32 := s.ht32 .sc, unjoined := !s.flag .sc Rg.HT_JOINED, unaligned := s.flag .sc Rg.HT_UNALIGNED }]
  let r := takeRecs (room - recSize lost) (a.buf.map (·.1))
  let going := lost ++ r.1
  let s1 := s.setDie { s.die with att := { a with buf := a.buf.drop r.1.length, lost := 0 } }
  ((s.upPorts .sc).filter fun n => s.linkUp .sc n).foldl (fun (t : State) n => t.modLink .sc n fun l => { l with attOut := l.attOut ++ going }) s1

/-- Records by codeword, in up to `k` codewords of 40 positions each; a group stands in one codeword (log entry 75). -/
def takeCodewords : Nat → List Rec → List (List Rec) × List Rec
  | 0, l => ([], l)
  | _, [] => ([], [])
  | k + 1, l =>
    let a := takeRecs 40 l
    let r := takeCodewords k a.2
    (a.1 :: r.1, r.2)

/-- The unit sends its attendance records on this port. -/
def State.sendsRecs (p : Part) (n : Nat) (s : State) : Bool := p = .sc && (s.upPorts .sc).contains n && s.linkUp .sc n

/-- The attendance records of a frame upward by codeword: those that a carrier has displaced first (R448). -/
def State.txRecs (p : Part) (n cws : Nat) (s : State) : List (List Rec) × State :=
  if !s.sendsRecs p n then ([], s)
  else
    let s1 := s.pullRecs (40 * cws - recSize (s.link .sc n).attOut)
    let l := s1.link .sc n
    let back := l.recBack.take cws
    let r := takeCodewords (cws - back.length) l.attOut
    (back ++ r.1, s1.setLink .sc n { l with recBack := l.recBack.drop cws, attOut := r.2 })

/-- The rule records of a frame downward by codeword. -/
def State.txRules (p : Part) (n cws : Nat) (s : State) : List (List RuleRec) × State :=
  if !s.linkUp p n then ([], s)
  else
    let l := s.link p n
    let back := l.ruleBack.take cws
    let room := 40 * (cws - back.length)
    (back ++ pieces 40 40 (l.rulesOut.take room), s.setLink p n { l with ruleBack := l.ruleBack.drop cws, rulesOut := l.rulesOut.drop room })

/-! CW41 (R120, R329, R450). -/

/-- The bytes of a tunnel message: 80 for a slot install, 512 or 1,088 for member tables (R450). -/
def TunMsg.size (toLeaf : Bool) : TunMsg → Nat
  | .slotInstall _ => 80
  | .memberTables _ _ => if toLeaf then 1088 else 512
  | .ttBody _ _ _ bytes => bytes.length + 16
  | _ => 16

/-- The messages whose last byte leaves in a frame of `room` tunnel bytes, those that stay, and the bytes of the first of them already sent. -/
def takeTunnel (toLeaf : Bool) (room sent : Nat) : List TunMsg → List TunMsg × List TunMsg × Nat
  | [] => ([], [], 0)
  | m :: t =>
    let need := m.size toLeaf - sent
    if need ≤ room then
      let r := takeTunnel toLeaf (room - need) 0 t
      (m :: r.1, r.2.1, r.2.2)
    else ([], m :: t, sent + room)

/-- The tunnel bytes that wait. -/
def Link.tunBytes (toLeaf : Bool) (l : Link) : Nat := (l.tunnel.map (·.size toLeaf)).foldl (· + ·) 0 - l.tunSent

/-- The tunnel bytes of a frame: how many, the messages that end in it. -/
def State.txTunnel (p : Part) (n : Nat) (s : State) : Nat × List TunMsg × State :=
  let l := s.link p n
  let toLeaf := p = .fd && s.role == 3
  if s.lstate p n < 2 then (0, [], s)
  else
    let r := takeTunnel toLeaf 624 l.tunSent l.tunnel
    (min 624 (l.tunBytes toLeaf), r.1, s.setLink p n { l with tunnel := r.2.1, tunSent := r.2.2 })

/-- The telemetry of a frame: valid in beats that are a multiple of 1,024; a package die's sample leaves at once (R329). -/
def State.txTel (p : Part) (n : Nat) (s : State) : Telemetry × State :=
  if !s.linkUp p n || (s.beat p % 1024 != 0 && !isPkg p n) then ({}, s)
  else ((s.link p n).telOut, s.modLink p n fun l => { l with telOut := {} })

/-! The mirror (R18, R22, R76, R216, R246, R292, R322, R327, R407). -/

/-- The register fields of a job that the active root mirrors. -/
def jobFields (j : Nat) : List Field :=
  [Rg.JH_CREATED j, Rg.JH_CLOSE_SEQ j, Rg.JH_MEMBERS j, Rg.JM_SB_QUOTA j, Rg.JM_ATT_RATE j, Rg.JM_PAY_SHARE j, Rg.JD_CONSENT j, Rg.PJ_STEP_FLOOR j, Rg.PJ_RECESS_LOW j,
    Rg.PJ_STAGGER_LOG2 j, Rg.PJ_AUTO_RECESS j, Rg.PJ_STAGGER_BEATS j, Rg.PJ_RECESS_DETECT_MS j, Rg.PJ_MIN_INTERVAL_BEATS j, Rg.PJ_HOLD_US j]

/-- The mirrored state of the active root. -/
def State.mirrorImg (s : State) : MirrorImg :=
  let h := s.dist.hall
  { promoSeq := s.get .fd Rg.PROM_PROMO_SEQ, freeRun := s.freeRunFormed, slots := h.slots, freed := h.freed, neverUsed := h.neverUsed, jobs := h.jobs, homingMap := h.homingMap,
    label := s.get .fd (Rg.EPL_EPOCH_LABEL 0) + 2 ^ 32 * s.get .fd (Rg.EPL_EPOCH_LABEL 1), sb := s.dist.sb, tt := s.fd.tt, power := s.dist.power,
    regs := ((List.range 64).map fun j => (jobFields j).map fun f => (f.key, s.get .fd f)).flatten }

/-- The mirrored state goes out on a mirror lane while the root is mirrored. -/
def State.txMirror (p : Part) (n : Nat) (s : State) : Option MirrorImg :=
  if p = .fd && prPorts.contains n && s.isActiveRoot && s.flag .fd Rg.SB_MIRRORED && s.linkUp .fd n then some s.mirrorImg else none

/-! The header (R116 to R118). -/

/-- TX_HT80 of the frame of a beat: the alignment edge comes 285.714 ps after the beat, 60.606 ps on a package port (R116, R162). -/
def txStamp (pkg : Bool) (beat : Nat) : Nat := (beat * 1024 * nsLsb + (if pkg then 3972 else 18725)) % htSpan

/-- The frame answered (R117): the latest good one that came at least 200 ns before this edge and no more than 2,048 ns; with it whether its exchange is clean. -/
def Link.answered (tx : Nat) (l : Link) : Option (Nat × Nat × Bool) :=
  let fits := fun r => decide (r + 200 * nsLsb ≤ tx) && decide (tx ≤ r + 2048 * nsLsb)
  if l.echoOk && fits l.echoRx then some (l.echoTx, l.echoRx, l.echoClean)
  else match l.echo2 with
    | some (t, r) => if fits r then some (t, r, l.echoClean2) else none
    | none => none

/-- The timing block (R117). -/
def timingOf (tx : Nat) (a : Option (Nat × Nat × Bool)) : TimingBlk :=
  match a with
  | some (t, r, _) => { txHt := tx, echoHt := t, turnaround := tx - r, echoValid := true }
  | none => { txHt := tx }

/-- ROLE of the link-state block (R16, R118): 0 before the configuration image while no parent is ALIGNED. -/
def State.roleSent (p : Part) (s : State) : Nat :=
  match p with
  | .fd => if s.get .fd Rg.ROLL_SEAT = 0 && s.flag .fd Rg.START_START_DEFAULTS && !s.parentAligned then 0 else s.role
  | .sc => 5

/-- The beats of this end's slices that are still to come: one every 8 (R132). -/
def CalRun.ownSlices (r : CalRun) : List Nat := (List.range (8 - r.slices)).map fun i => r.nextBeat + 8 * i

/-- The slice announced in the frame of a beat: the next that lies at least 16 beats ahead (R118, R132). -/
def Link.calAnnounced (beat : Nat) (l : Link) : Option Nat :=
  match l.calRun with
  | some r => r.ownSlices.find? fun b => decide (beat + 16 ≤ b)
  | none => none

/-- The calibration slice of this end falls in the frame of a beat (R132). -/
def Link.sliceDue (beat : Nat) (l : Link) : Bool :=
  match l.calRun with
  | some r => r.nextBeat == beat && decide (r.slices < 8)
  | none => false

/-- The link-state block (R118). -/
def State.blkSent (p : Part) (n : Nat) (s : State) : LinkBlk :=
  let l := s.link p n
  let roll := s.rollSent p n
  let cal := l.calAnnounced (s.beat p)
  { lstate := s.lstate p n, role := s.roleSent p, activeRoot := p = .fd && s.isActiveRoot, formed := if p = .fd then s.flag .fd Rg.HT_FORMED else s.flag .sc Rg.HT_JOINED,
    joined := s.flag p Rg.HT_JOINED, unaligned := s.flag p Rg.HT_UNALIGNED, holdover := s.flag p Rg.HT_HOLDOVER, slewing := s.flag p Rg.HT_SLEWING,
    epochKind := s.get p Rg.HT_EPOCH_KIND, homing := p = .fd && s.role == 4 && s.dist.hall.dualHere, carrying := p = .fd && s.role == 4 && n < 64 && s.carriesAt n,
    position := if isPkg p n then (if n = 8 then s.die.pkgIndex else n - 8) else n, roll := roll.1, rollValid := roll.2,
    payCur := l.payCur, payNext := l.payNext, payAt := l.payAt % 65536, payAnn := l.payAnn && s.governs p n, cw0Ack := l.rxNext,
    swapAnn := l.swapAt.isSome, swapAt := (l.swapAt.getD 0) % 65536, onSpare := s.flag p (Rg.LINK_ON_SPARE n), calAnn := cal.isSome, calAt := cal.getD 0 % 65536,
    levelRefused := s.flag p (Rg.LINK_LEVEL_REFUSED n), homingMismatch := s.flag p (Rg.LINK_HOMING_MISMATCH n), precode := l.precode,
    seatB := p = .fd && s.get .fd Rg.ROLL_SEAT == 2 }

/-! Alert conditions (R427). -/

/-- The conditions behind ALERT[3:1] set their bits again at a beat boundary while they persist. -/
def State.alertBeat (p : Part) (s : State) : State :=
  let ports := List.range (if p = .fd then 72 else 16)
  let cabling := ports.any fun n => s.flag p (Rg.LINK_LEVEL_REFUSED n) || s.flag p (Rg.LINK_HOMING_MISMATCH n) || s.flag p (Rg.LINK_CHANNEL_RANGE n) || (s.link p n).held
  let fault := [Rg.FSUM_SPARE_NONE, Rg.FSUM_PIPES_SHORT, Rg.FSUM_PREFECT_NO_SPARE, Rg.FSUM_STACK_FAIL, Rg.FSUM_CHANNEL_FAIL].any fun f => s.flag p f
  let hold := p = .fd && s.flag .fd Rg.BELL_LEAD_HOLD && decide (s.get .fd Rg.BELL_LEAD_BEATS < ceilDiv (s.get .fd Rg.BELL_DN_MAX + 1024000) 1024000)
  let s1 := if cabling && !s.flag p Rg.ALERT_CABLING then s.raise p Rg.ALERT_CABLING else s
  let s2 := if fault && !s1.flag p Rg.ALERT_FAULT then s1.raise p Rg.ALERT_FAULT else s1
  if hold && !s2.flag p Rg.ALERT_LEAD_HOLD then s2.raise p Rg.ALERT_LEAD_HOLD else s2

/-! The frame. -/

/-- The carriers that the waiting words need beyond CW0 (R448): none in a slice frame. -/
def State.carriersFor (p : Part) (n : Nat) (slice : Bool) (s : State) : Nat :=
  if slice || isPkg p n then 0
  else
    let l := s.link p n
    let k := (l.resend.map fun _ => l.out.length).getD 0 + l.txq.length
    min 40 (ceilDiv (k - 20) 19)

/-- Data of a DATA_KIND for one slot of the package port (R160, R263): its LEN and bytes, the tunnel messages that end in it, what is left. Payload is one byte stream of
fragments; a record takes a slot (log entry 75). -/
def Link.dataOf (beat slot : Nat) (share : Nat → Nat) (kind : Nat) (l : Link) : Option ((Nat × Nat × Nat) × List TunMsg × Link) :=
  if kind = 1 then
    let l1 := if 26 ≤ l.stream.1 then l else match l.pickFragments beat share 1 with
      | (f :: _, k) => { k with stream := (l.stream.1 + 8 + 8 * f.len, l.stream.2 + 2 ^ (8 * l.stream.1) * f.toBits) }
      | ([], k) => k
    let len := min 26 l1.stream.1
    if len = 0 then none else some ((1, len, l1.stream.2 % 2 ^ (8 * len)), [], { l1 with stream := (l1.stream.1 - len, l1.stream.2 / 2 ^ (8 * len)) })
  else if kind = 2 then
    match l.rawRecs with
    | r :: t => some ((2, 16, r), [], { l with rawRecs := t })
    | [] => none
  else if kind = 3 then
    (if l.telOut.valid then some ((3, 15, l.telOut.toBits), [], { l with telOut := {} }) else none)
  else
    let len := min 26 (l.tunBytes false)
    let r := takeTunnel false 26 l.tunSent l.tunnel
    if len = 0 then none else some ((4, len, tunnelBytes (256 * beat + slot) len), r.1, { l with tunnel := r.2.1, tunSent := r.2.2 })

/-- The data for a slot (R161): what a control word has displaced first, then the kinds in turn. -/
def Link.dataSlot (beat slot : Nat) (share : Nat → Nat) (l : Link) : Option ((Nat × Nat × Nat) × List TunMsg × Link) :=
  match l.slotBack with
  | b :: t => some (b, [], { l with slotBack := t })
  | [] => (List.range 4).findSome? fun i =>
      let turn := (l.kindTurn + i) % 4
      (l.dataOf beat slot share (turn + 1)).map fun r => (r.1, r.2.1, { r.2.2 with kindTurn := (turn + 1) % 4 })

/-- Data fills the slots of a list while there is any. -/
def Link.fillSlots (beat : Nat) (share : Nat → Nat) : List Nat → Link → List (Nat × SlotBody) × List TunMsg × Link
  | [], l => ([], [], l)
  | k :: t, l => match l.dataSlot beat k share with
    | none => ([], [], l)
    | some (d, ms, l1) =>
      let r := Link.fillSlots beat share t l1
      ((k, .data d.1 d.2.1 d.2.2) :: r.1, ms ++ r.2.1, r.2.2)

/-- The slots of a beat that SYNC and STATE leave (R160). -/
def freeSlots : List Nat := (List.range 256).filter fun k => k != 0 && k != 128

/-- The slots of a beat on a package port (R161): control words first, then data. -/
def State.txSlots (n : Nat) (s : State) : List (Nat × SlotBody) × List TunMsg × State :=
  if s.lstate .sc n < 2 then ([], [], s)
  else
    let words := s.txWords .sc n 254
    let recs := words.2.txRecs .sc n 40
    let rules := recs.2.txRules .sc n 40
    let raw := (recs.1.map fun l => (l.map Rec.words).flatten).flatten ++ (rules.1.map fun l => l.map RuleRec.toBits).flatten
    let s1 := rules.2
    let l := s1.link .sc n
    let l1 := ({ l with rawRecs := l.rawRecs ++ raw }.dropOld (s.beat .sc))
    let d := if s.linkUp .sc n then l1.fillSlots (s.beat .sc) (s.payShare .sc ·) (freeSlots.drop words.1.length) else ([], [], l1)
    (freeSlots.zip (words.1.map SlotBody.control) ++ d.1, d.2.1, s1.setLink .sc n d.2.2)

/-- The header of a frame: its blocks, and the state with the exchange's own stamps kept (R117, R126). -/
def State.txHeader (p : Part) (n : Nat) (slice : Bool) (s : State) : Frame × State :=
  let beat := s.beat p
  let l := s.link p n
  let tx := txStamp (isPkg p n) beat
  let swap := l.swapAt == some beat
  let ans := l.answered tx
  let clean := match ans with
    | some (_, _, k) => k && !slice && !swap
    | none => false
  let stamps := match ans with
    | some (t, r, _) => if clean && !s.parentEnd p n then ((tx, t, r) :: l.sentStamps).take 16 else l.sentStamps
    | none => l.sentStamps
  ({ beat := beat, timing := timingOf tx ans, blk := s.blkSent p n, slice := slice },
    s.setLink p n { l with sentStamps := stamps, dirty := if slice || swap then (tx :: l.dirty).take 16 else l.dirty })

/-- The frame as it stands on the lane (R114, R160). -/
def Frame.onPins (pkg pre : Bool) (f : Frame) : Nat := if pkg then f.slotBits else f.levels pre

/-- The frame sent is kept, with what the pins carry. -/
def State.sentFrame (p : Part) (n : Nat) (f : Frame) (s : State) : State := s.modLink p n fun l => { l with lastTx := some f, pins := f.onPins (isPkg p n) l.precode }

/-- The frame of this beat on a port, and the state after it. -/
def State.launch40 (p : Part) (n : Nat) (s : State) : Frame × State :=
  let l := s.link p n
  let slice := l.sliceDue (s.beat p)
  let head := s.txHeader p n slice
  if isPkg p n then
    let r := head.2.txSlots n
    let f : Frame := { head.1 with slots := r.1, tunnel := r.2.1 }
    (f, r.2.2.sentFrame p n f)
  else
    let c := s.carriersFor p n slice
    let pay := head.2.txPayload p n (if slice then 0 else l.payCur - c)
    let words := pay.2.txWords p n (wordRoom c)
    let used := ceilDiv (words.1.length - 20) 19
    let room := if slice then 0 else 40 - l.payCur - (used - l.payCur)
    let recs := words.2.txRecs p n room
    let rules := recs.2.txRules p n (room - recs.1.length)
    let tun := rules.2.txTunnel p n
    let tel := tun.2.2.txTel p n
    let f : Frame :=
      { head.1 with cw0 := words.1.take 20, carriers := ((List.range used).map (· + 1)).zip (pieces 19 40 (words.1.drop 20)), payload := pay.1, records := recs.1, rules := rules.1,
                    tel := tel.1, tunLen := tun.1, tunnel := tun.2.1, mirror := s.txMirror p n }
    (f, tel.2.sentFrame p n f)

/-! Words that become ready after CW0 has begun to leave (R30, R448). -/

/-- The codeword positions of the beat's frame that have not begun to leave the pin, `off` being the time since the beat began in 2^-16 ns. -/
def openPositions (off : Nat) : List Nat := (List.range 41).filter fun c => c != 0 && decide (off * 224 < (896 + 5440 * c) * nsLsb)

/-- The slots of the beat that have not begun. -/
def openSlots (off : Nat) : List Nat := freeSlots.filter fun k => decide (off < 4 * k * nsLsb)

/-- A carrier in a frame: the content it displaces goes first in the same positions of the next frame. -/
def Frame.carry (c : Nat) (slots : List CtlSlot) (f : Frame) (l : Link) : Frame × Link :=
  let taken := f.carriers.map (·.1)
  let f1 := { f with carriers := f.carriers ++ [(c, slots)] }
  if c ≤ f.blk.payCur then
    let i := ((freePositions taken 1 f.blk.payCur).filter (decide <| · < c)).length
    ({ f1 with payload := f.payload.eraseIdx i }, { l with payBack := l.payBack ++ ((f.payload.drop i).take 1) })
  else
    let i := ((freePositions taken (f.blk.payCur + 1) 40).filter (decide <| · < c)).length
    if i < f.records.length then ({ f1 with records := f.records.eraseIdx i }, { l with recBack := l.recBack ++ ((f.records.drop i).take 1) })
    else
      let k := i - f.records.length
      ({ f1 with rules := f.rules.eraseIdx k }, { l with ruleBack := l.ruleBack ++ ((f.rules.drop k).take 1) })

/-- Control words in slots of the beat that have not begun; a data slot that one displaces goes first in the next beat. -/
def Frame.slip : List (Nat × CtlSlot) → Frame → Link → Frame × Link
  | [], f, l => (f, l)
  | (k, w) :: t, f, l =>
    let old := (f.slots.find? fun e => e.1 == k).map (·.2)
    let back := match old with
      | some (.data a b c) => [(a, b, c)]
      | _ => []
    Frame.slip t { f with slots := (f.slots.filter fun e => e.1 != k) ++ [(k, .control w)] } { l with slotBack := l.slotBack ++ back }

/-- Words that wait in a beat whose frame has gone leave in what is left of it: in a control carrier, or in slots of the package port. None if nothing waits or no place is left. -/
def State.launchLate (p : Part) (n : Nat) (f : Frame) (s : State) : Option (List CtlSlot × State) :=
  let l := s.link p n
  let off := s.ht p % (1024 * nsLsb)
  if !s.linkUp p n || !l.wordsWait (p = .fd && s.isActiveRoot) || f.slice then none
  else if isPkg p n then
    let places := (openSlots off).filter fun k => !f.slots.any fun e => e.1 == k && (match e.2 with
      | .control _ => true
      | _ => false)
    if places.isEmpty then none
    else
      let words := s.txWords p n places.length
      let r := Frame.slip (places.zip words.1) f (words.2.link p n)
      some (words.1, (words.2.setLink p n r.2).sentFrame p n r.1)
  else match (openPositions off).find? fun c => !(f.carriers.map (·.1)).contains c with
    | none => none
    | some c =>
      let words := s.txWords p n 19
      let r := f.carry c words.1 (words.2.link p n)
      some (words.1, (words.2.setLink p n r.2).sentFrame p n r.1)

/-- The port's transmitter sends frames (R136, R399): the part runs, the port is enabled and used, the unit has not failed silent. -/
def State.transmits (p : Part) (n : Nat) (s : State) : Bool :=
  (s.unit p).start.on && s.hasPosition p n && s.posUsed p n && s.portEnabled p n && !(p = .fd && s.dist.spare.stackFailed) && !(s.link p n).silent

/-- A BELL word sent discards a calibration run (R132). -/
def State.noteBells (p : Part) (n : Nat) (sent : List CtlSlot) (s : State) : State :=
  if sent.any fun x => match x.word.body with
    | .bell _ _ => true
    | _ => false
  then s.bellOnLink p n else s

/-- The words of a frame. -/
def Frame.words (f : Frame) : List CtlSlot :=
  f.cw0 ++ (f.carriers.map (·.2)).flatten ++ f.slots.filterMap fun e => match e.2 with
    | .control w => some w
    | _ => none

/-- The frame of a beat goes out, with what a unit does at each beat boundary. -/
def State.launchFrame (p : Part) (n : Nat) (s : State) : State :=
  let s1 := if p = .fd then s.goneBeat else s
  let r := (s1.alertBeat p).launch40 p n
  r.2.noteBells p n r.1.words

/-- FRAME_LAUNCH (R30, R110, R115 to R118, R160, R448): each beat a unit sends one frame on a port, on a package port the beat's slots. Once it has gone, words that wait leave in
the places of it that have not begun; where none does, the next beat's frame is sent. The frame sent stays in the link's state with the levels on the pins. -/
def execFrameLaunch (p : Part) (n : Nat) (s : State) : Host.Outcome State Fault Refusal :=
  .next (if !s.transmits p n then s
    else match (s.link p n).lastTx with
      | none => s.launchFrame p n
      | some f =>
        if f.beat != s.beat p then s.launchFrame p n
        else match s.launchLate p n f with
          | some r => r.2.noteBells p n r.1
          | none => (s.awaitBeat p (s.beat p + 1)).launchFrame p n)

end Sys2Proof.Machine
end

