-- ==== Sys2Proof/Machine/LinkRx.lean ====
section
/-! DEFINITION. A frame or package-port slot received (R116, R119 to R126, R144, R160 to R163, R380): header, control words, CW41, mirrored state. -/

namespace Sys2Proof.Machine

open Sys2Proof

/-! Control words in (R123, R125, R380). -/

/-- The word's TYPE travels upward; `undefined` in neither direction. -/
def CtlBody.up : CtlBody → Option Bool
  | .arrive _ _ _ _ _ _ _ => some true
  | .withdraw _ _ _ _ _ => some true
  | .liveness _ _ _ _ => some true
  | .vote _ _ _ _ _ => some true
  | .monitor _ _ _ _ => some true
  | .undefined _ => none
  | _ => some false

/-- The word comes in a direction of its type (R125): upward at a parent end, downward at a child end; peer and mirror lanes carry the words of changes both
ways. -/
def State.rightWay (p : Part) (n : Nat) (w : CtlWord) (s : State) : Bool :=
  match w.body.up with
  | none => false
  | some up => (p = .fd && prPorts.contains n) || up == s.parentEnd p n

/-- The hold queue of R380 is full and the word would go there. -/
def State.holdFull (p : Part) (w : CtlWord) (s : State) : Bool :=
  p = .fd && !w.hallwide && w.body.up == some true && s.jobHeld w.job && decide (4096 ≤ s.dist.hall.holdq.length + (s.fd.inbox.filter fun e => s.jobHeld e.2.job).length)

/-- One control slot (R123, R125). An accepted word stands in the inbox until its own command processes it; a lead die forwards the MONITOR words of its package at once (R212). -/
def State.takeSlot (p : Part) (n : Nat) (s : State) (x : CtlSlot) : State :=
  if !x.crcOk then s.bump p (Rg.LINK_BAD_WORD n)
  else if x.lseq != (s.link p n).rxNext then s
  else if s.rightWay p n x.word && s.holdFull p x.word then s
  else
    let s1 := s.modLink p n fun l => { l with rxNext := (l.rxNext + 1) % 65536 }
    if !s1.rightWay p n x.word then s1.bump p (Rg.LINK_BAD_WORD n)
    else if p = .sc && (match x.word.body with
        | .monitor _ _ _ _ => true
        | _ => false) then s1.dieUp x.word
    else
      let s2 := s1.setUnit p { s1.unit p with inbox := (s1.unit p).inbox ++ [(n, x.word)] }
      match x.word.body with
      | .bell _ _ => s2.bellOnLink p n
      | _ => s2

/-- CW0_ACK of a good header (R123): acknowledged words are no longer kept. -/
def State.takeAck (p : Part) (n ack : Nat) (s : State) : State :=
  if !s.linkUp p n then s else s.modLink p n fun l => { l with out := l.out.filter fun x => !laterThan 16 ack x.lseq }

/-! CW41 in (R120). -/

/-- A tunnel message received: what the prefect takes at once, and what waits for its own command. -/
def State.takeTunnel (p : Part) (n : Nat) (s : State) (m : TunMsg) : State :=
  match m with
  | .homing k j dual =>
    if p = .sc then s
    else
      let s1 := s.takeHoming k j dual
      if s1.role == 3 then s1.sendTunnel .fd j m else s1
  | .calAverage ps => s.modLink p n fun l => { l with calRun := l.calRun.map fun r => { r with farAvg := some ps } }
  | .recovery _ mask drill => s.modLink p n fun l => { l with recoveryMask := mask + 2 ^ 64 * drill }
  | .epochLabel ns =>
    if p = .sc then s
    else
      let s1 := (s.put .fd (Rg.EPL_EPOCH_LABEL 0) ns).put .fd (Rg.EPL_EPOCH_LABEL 1) (ns / 2 ^ 32)
      if s1.role == 3 then s1.sendTunnels .fd (List.range 64) m else s1
  | .hbDrill st => if p = .sc then (s.setDie { s.die with hbOmit := SMap.set st 3 s.die.hbOmit }) else s
  | _ => s.modLink p n fun l => { l with tunIn := l.tunIn ++ [m] }

/-- Telemetry of a frame (R120, R329): the last valid report of the port; a lead die keeps its package dies' samples by die. -/
def State.takeTel (p : Part) (n : Nat) (t : Telemetry) (s : State) : State :=
  if !t.valid then s
  else if p = .sc && 9 ≤ n then s.dieReport (n - 8) t.powerMw t.reportBeat
  else s.modLink p n fun l => { l with tel := t }

/-! The mirror (R292, R322, R407). -/

/-- The mirrored state at the standby root. -/
def State.takeMirror (m : MirrorImg) (s : State) : State :=
  if s.isActiveRoot then s.setHall { s.dist.hall with otherPromo := some m.promoSeq }
  else if s.role != 2 then s
  else
    let regs := (List.range 64).flatMap fun j => jobFields j
    let s1 := regs.foldl (fun (t : State) f => match m.regs.find? fun e => e.1 == f.key with
      | some e => t.put .fd f e.2
      | none => t) s
    let s2 := s1.setHall { s1.dist.hall with slots := m.slots, freed := m.freed, neverUsed := m.neverUsed, jobs := m.jobs, homingMap := m.homingMap }
    let s3 := (((s2.setSb m.sb).put .fd Rg.PROM_PROMO_SEQ m.promoSeq).put .fd (Rg.EPL_EPOCH_LABEL 0) m.label).put .fd (Rg.EPL_EPOCH_LABEL 1) (m.label / 2 ^ 32)
    s3.setDist { s3.dist with mirrorTt := m.tt, power := m.power, hold := { s3.dist.hold with mirrorFree := m.freeRun } }

/-! The header (R116 to R119). -/

/-- A good header (R117, R118): frame lock advances, the link-state block and the stamps are kept. `clean` is false for a frame that a slice or the far end's
swap touched. -/
def State.takeHeader (p : Part) (n : Nat) (blk : LinkBlk) (txHt rxHt : Nat) (clean : Bool) (s : State) : State :=
  let s1 := s.modLink p n fun l =>
    { l with far := blk, farHeard := true, hdrBad := 0, lockRun := min 16 (l.lockRun + 1), echo2 := if l.echoOk then some (l.echoTx, l.echoRx) else none,
             echoClean2 := l.echoClean, echoTx := txHt, echoRx := rxHt, echoOk := true, echoClean := clean }
  ((s1.put p (Rg.LINK_FAR_ROLE n) blk.role).put p (Rg.LINK_FAR_ROLL n) blk.roll).put p (Rg.LINK_FAR_POSITION n) blk.position

/-- A header whose CRC fails (R119, R137). -/
def State.badHeader (p : Part) (n : Nat) (s : State) : State :=
  let s1 := (s.bump p (Rg.LINK_HDR_CRC_ERR n)).modLink p n fun l => { l with hdrBad := l.hdrBad + 1, lockRun := if l.lockRun < 16 then 0 else l.lockRun }
  if 4 ≤ (s1.link p n).hdrBad then s1.suspect p n 0 else s1

/-- The beat of this unit that the far end names by its low 16 bits in the frame of its beat `b`. Joined units share their beat numbers, so the name is compared serially (R49,
R118); before the join the far end's count runs apart, and the distance from the frame counts, less the time it has travelled. -/
def State.beatOf (p : Part) (n b at_ : Nat) (s : State) : Nat :=
  if s.flag p Rg.HT_JOINED then ((s.beat p : Int) + sdiff16 at_ (s.beat p % 65536)).toNat
  else s.beat p + (at_ + 65536 - b % 65536) % 65536 - (s.link p n).delay.toNat / (1024 * nsLsb)

/-- A slice that the far end announces is noted (R132); it begins the run at this end, whose own slices lie halfway between. -/
def State.takeSlice (p : Part) (n b at_ : Nat) (s : State) : State :=
  let note := fun r : CalRun => { r with far := if r.far.contains at_ then r.far else (at_ :: r.far).take 8 }
  match (s.link p n).calRun with
  | some r => s.modLink p n fun k => { k with calRun := some (note r) }
  | none =>
    let own := s.beatOf p n b at_
    (s.modLink p n fun k => { k with calRun := some (note { nextBeat := if s.parentEnd p n then own - 4 else own + 4 }), calWant := false }).put p (Rg.LINK_CAL_RUNNING n) 1

/-- Announcements of the far end in the frame of its beat `b` (R118, R120, R132, R145): a payload split at the end that does not govern, a slice, a swap. A frame sent before the
last split says what was in use then. -/
def State.takeAnnounced (p : Part) (n b : Nat) (f : LinkBlk) (s : State) : State :=
  let l := s.link p n
  let s1 := if s.governs p n || isPkg p n then s
    else if f.payAnn then (if l.payAnn then s else s.setLink p n { l with payAnn := true, payNext := f.payNext, payAt := s.beatOf p n b f.payAt })
    else if l.payAnn || b < l.payAt then s
    else (s.setLink p n { l with payCur := f.payCur }).put p (Rg.LINK_PAY_CW n) f.payCur
  let s2 := if f.swapAnn then s1.modLink p n fun k => { k with farSwapAt := some f.swapAt } else s1
  if f.calAnn && !isPkg p n then s2.takeSlice p n b f.calAt else s2

/-- The exchange that a good header completes (R126), from RANGING on. -/
def State.headerExchange (p : Part) (n : Nat) (t : TimingBlk) (rxHt : Nat) (clean : Bool) (s : State) : State :=
  if s.lstate p n < 2 then s
  else match (s.link p n).exchangeOf (s.parentEnd p n) t rxHt clean with
    | some ab => s.takeExchange p n ab
    | none => s

/-- Codewords that RS decoding could not correct (R120, R137): counted, and 8 in 1,024 frames are a cause of SUSPECT. -/
def State.takeUncorr (p : Part) (n k : Nat) (s : State) : State :=
  let s1 := (if k = 0 then s else s.bump p (Rg.LINK_CW_UNCORR n) k).modLink p n fun l => { l with uncorr := (k :: l.uncorr).take 1024 }
  if 8 ≤ (s1.link p n).uncorr.foldl (· + ·) 0 then s1.suspect p n 2 else s1

/-- The codewords of a frame (R119, R120): decoded although its header failed. Payload and records are taken in by their own commands. -/
def State.takeCodewords (p : Part) (n : Nat) (r : RxParts) (x : RxFrame) (s : State) : State :=
  let s1 := (s.modLink p n fun l => { l with symErr := (r.corrected :: l.symErr).take 1024 }).takeUncorr p n r.uncorrected
  let s2 := s1.laneCheck p n
  let s3 := if s2.linkUp p n then r.slots.foldl (State.takeSlot p n) s2 else s2
  let s4 := if 2 ≤ s3.lstate p n then x.tunnel.foldl (State.takeTunnel p n) s3 else s3
  let s5 := if s4.linkUp p n then s4.takeTel p n r.tel else s4
  match x.mirror with
  | some m => if p = .fd && prPorts.contains n && s5.linkUp .fd n then s5.takeMirror m else s5
  | none => s5

/-- The pattern is missing (R116): frame lock is lost in the fourth frame running. -/
def State.patternMissing (p : Part) (n : Nat) (s : State) : State :=
  let s1 := s.modLink p n fun l => { l with missRun := l.missRun + 1, lockRun := if l.lockRun < 16 then 0 else l.lockRun }
  if 4 ≤ (s1.link p n).missRun && 16 ≤ (s1.link p n).lockRun then s1.linkDown p n else s1

/-- The alignment edge of a frame or beat of slots (R90, R99, R126): the lane TDC's stamp less its RX_LAT trim, and the state with the lane's twin served. -/
def State.laneStamp (p : Part) (n coarse bin : Nat) (twin : Option Int) (s : State) : Nat × State :=
  let k := s.laneOf p n
  ((s.pair (.lane p k)).stamp coarse bin (s.trim p (trimRx k)), s.pairEdge (.lane p k) twin)

/-- The beat of the far end whose frame carries a TX_HT80. -/
def TimingBlk.beat (t : TimingBlk) : Nat := t.txHt / (1024 * nsLsb)

/-- The far end sends a calibration slice in the frame of its beat `b` (R132). -/
def Link.farSlice (b : Nat) (l : Link) : Bool :=
  match l.calRun with
  | some r => r.far.contains (b % 65536)
  | none => false

/-- FRAME_RECEIVE (R114 to R116, R119): the bits of a frame received on a port are read and checked; its timing sample and link state are taken, training, ranging and alignment
advance (R136), its codewords are decoded. An exchange is none where a slice or a swap of either end touched the frame (R126, R145). -/
def execFrameReceive (p : Part) (n : Nat) (x : RxFrame) (s : State) : Host.Outcome State Fault Refusal :=
  .next (if s.lstate p n = 0 || isPkg p n then s
    else
      let l := s.link p n
      let head := x.parts l.precode false
      let slice := head.headerOk && l.farSlice head.timing.beat
      let r := if slice then x.parts l.precode true else head
      if !r.pattern then s.patternMissing p n
      else
        let rx := s.laneStamp p n x.coarse x.bin x.twin
        let s1 := rx.2.modLink p n fun k => { k with missRun := 0 }
        if !r.headerOk then (s1.badHeader p n).takeCodewords p n r x
        else
          let s2 := s1.takeAnnounced p n r.timing.beat r.blk
          let clean := !slice && (s2.link p n).farSwapAt != some (r.timing.beat % 65536)
          let s3 := (s2.takeHeader p n r.blk r.timing.txHt rx.1 clean).takeAck p n r.blk.cw0Ack
          let s4 := (s3.headerExchange p n r.timing rx.1 clean).takeCodewords p n r x
          s4.linkStep p n)

/-! The package port (R160 to R162). -/

/-- A DATA slot whose CRC fails counts in CW_UNCORR, in the window's present beat (R137, R160). -/
def State.slotLost (n : Nat) (s : State) : State :=
  let s1 := (s.bump .sc (Rg.LINK_CW_UNCORR n)).modLink .sc n fun l => { l with uncorr := match l.uncorr with
    | k :: t => (k + 1) :: t
    | [] => [1] }
  if 8 ≤ (s1.link .sc n).uncorr.foldl (· + ·) 0 then s1.suspect .sc n 2 else s1

/-- PKG_SLOT_RECEIVE (R160, R161): the 264 bits of a slot of a package-port link are read. SYNC gives the exchange and frame lock, STATE the link state and the acknowledgement;
a CRC failure or a reserved kind discards the slot and counts. -/
def execPkgSlotReceive (n : Nat) (x : RxSlot) (s : State) : Host.Outcome State Fault Refusal :=
  .next (if !isPkg .sc n || s.lstate .sc n = 0 then s
    else match x.parse with
      | .sync t ok =>
        if !ok then (s.bump .sc (Rg.LINK_BAD_WORD n)).badHeader .sc n
        else
          let rx := s.laneStamp .sc n x.coarse x.bin x.twin
          let heard := (s.link .sc n).farHeard
          let s1 := ((rx.2.takeUncorr .sc n 0).takeHeader .sc n (s.link .sc n).far t.txHt rx.1 true).modLink .sc n fun l => { l with farHeard := heard }
          s1.headerExchange .sc n t rx.1 true
      | .state blk ok =>
        if !ok then s.bump .sc (Rg.LINK_BAD_WORD n)
        else
          let s1 := (s.modLink .sc n fun l => { l with far := blk, farHeard := true }).takeAck .sc n blk.cw0Ack
          let s2 := (s1.put .sc (Rg.LINK_FAR_ROLL n) blk.roll).put .sc (Rg.LINK_FAR_POSITION n) blk.position
          s2.linkStep .sc n
      | .control c => if s.linkUp .sc n then s.takeSlot .sc n c else s
      | .data kind _ v ok =>
        if !ok then s.slotLost n
        else if kind = 3 then (if s.linkUp .sc n then s.takeTel .sc n (Telemetry.ofBits v) else s)
        else if kind = 4 then (if 2 ≤ s.lstate .sc n then x.tunnel.foldl (State.takeTunnel .sc n) s else s)
        else s
      | .idle => s
      | .reserved _ => s.bump .sc (Rg.LINK_BAD_WORD n))

end Sys2Proof.Machine
end

