-- ==== Sys2Proof/Machine/LinkCmds.lean ====
section
/-! DEFINITION. The timers, steering, calibration, spare swaps and commands of links (R20, R113, R123, R129 to R148). -/

namespace Sys2Proof.Machine

open Sys2Proof

/-! Steering (R129, R130, R137, R141). -/

/-- The port that steers a part's HT (R130): the selected parent, or the mirror lane at the standby; the step core's timing port once it has joined. -/
def State.steerPort (p : Part) (s : State) : Option Nat :=
  match p with
  | .fd =>
    let st := s.get .fd Rg.REFS_SEL_STATE
    if st = 2 || st = 6 then some (s.get .fd Rg.REFS_SELECTED + 61) else if st = 5 then s.mirrorPort else none
  | .sc => if s.flag .sc Rg.HT_JOINED then some s.die.timePort else none

/-- A rate in 1e-15 as a correction a beat in 2^-32 ns. -/
def rateToBeat (r : Int) : Int := r * (1024 * 2 ^ 32) / lsbUnit

/-- A correction a beat in 2^-32 ns as a rate in 1e-15. -/
def beatToRate (c : Int) : Int := c * lsbUnit / (1024 * 2 ^ 32)

/-- The corrections applied since the last steering are added to the sums of the links that hear this unit as a child (R129). -/
def State.countApplied (p : Part) (beats : Nat) (s : State) : State :=
  let c := rateToBeat (s.unit p).clock.rate * beats
  (s.unit p).links.foldl (fun (t : State) e => if t.parentEnd p e.1 then t else t.modLink p e.1 fun l => { l with applied := l.applied + c }) s

/-- The phase part of a beat's correction (R129, R46, R75, R141): a 64th of the offset, within the limit in force, in 2^-32 ns. -/
def phasePart (theta : Int) (slewRate : Nat) : Int :=
  let want := theta * 1024
  let lim := rateToBeat slewRate
  if slewRate = 0 then want else clampInt (-lim) lim want

/-- What a beat within or outside 1 ns of the source means for a slew or a return (R64, R75, R141). -/
def State.steerRun (p : Part) (near : Bool) (s : State) : State :=
  let ended := { (s.unit p).clock with slewRate := 0 }
  match p with
  | .fd =>
    if s.get .fd Rg.REFS_SEL_STATE = 6 then s.setHold { s.dist.hold with rejoinRun := if near then s.dist.hold.rejoinRun + 1 else 0 }
    else if near then s.setUnit .fd { s.fd with clock := ended } else s
  | .sc =>
    if s.die.coreHold then s.setDie { s.die with holdRun := if near then s.die.holdRun + 1 else 0 }
    else if near then s.setUnit .sc { s.sc with clock := ended } else s

/-- STEER_BEAT (R129): once a beat the unit steers its count rate by its source's filter; with the source in SUSPECT it keeps the fitted rate without
a phase correction (R137); during a cable reversal a child stays on its model (R133). -/
def execSteerBeat (p : Part) (s : State) : Host.Outcome State Fault Refusal :=
  let last := SMap.find 10 (s.unit p).lastDone
  let s := if (s.steerPort p).isSome then s.periodic p 10 1 0 else s
  .next (match s.steerPort p with
    | none => s
    | some n =>
      let b := s.beat p
      let gone := match last with
        | some k => if k < b && b < k + 1048576 then b - k else 0
        | none => 0
      let s1 := s.countApplied p gone
      let l := s1.link p n
      if l.exch.isEmpty || (p = .fd && s1.reversing) then s1
      else
        let slope := (fitLine l.exch).2
        if s1.lstate p n = 4 then s1.setRate p (beatToRate (-slope))
        else if s1.lstate p n != 3 then s1
        else
          let theta := l.thetaHat b
          let s2 := ((s1.setLink p n { l with theta := theta }).linkRegs p n).setRate p (beatToRate (-(slope + phasePart theta (s1.unit p).clock.slewRate)))
          s2.steerRun p (decide (theta.natAbs ≤ 65536)))

/-- STEP_CORE_HOLDOVER_RETURN (R141): 16 consecutive beats within 1 ns of an ALIGNED source. -/
def execStepCoreHoldoverReturn (s : State) : Host.Outcome State Fault Refusal :=
  .next (if s.die.coreHold && decide (16 ≤ s.die.holdRun) && s.lstate .sc s.die.timePort == 3 then
      let s1 := ((s.put .sc Rg.HT_UNALIGNED 0).put .sc Rg.HT_ALIGNED 1).putFlag .sc Rg.HT_HOLDOVER (s.link .sc s.die.timePort).far.holdover
      let s2 := s1.setUnit .sc { s1.sc with clock := { s1.sc.clock with slewRate := 0 } }
      s2.setDie { s2.die with coreHold := false, holdRun := 0 }
    else s)

/-! Rejoining (R75). -/

/-- REJOIN_COMPLETE (R75): 16 consecutive beats within 1 ns; at the next beat boundary the unit returns to TRACKING and UNALIGNED clears. -/
def execRejoinComplete (s : State) : Host.Outcome State Fault Refusal :=
  if s.get .fd Rg.REFS_SEL_STATE = 6 && decide (16 ≤ s.dist.hold.rejoinRun) then
    let s := s.nextBeat .fd
    let far := (s.link .fd (s.get .fd Rg.REFS_SELECTED + 61)).far
    let s1 := (((s.put .fd Rg.REFS_SEL_STATE 2).put .fd Rg.REFS_LOCK 1).put .fd Rg.HT_UNALIGNED 0).put .fd Rg.HT_ALIGNED 1
    let s2 := (s1.putFlag .fd Rg.HT_HOLDOVER far.holdover).putFlag .fd Rg.HT_SLEWING far.slewing
    .next ((s2.setUnit .fd { s2.fd with clock := { s2.fd.clock with slewRate := 0 } }).muteOuts)
  else .next s

/-- SUBTREE_REJOIN (R75, R86): an isolated unit refused for its offset rejoins the parent it should follow. -/
def execSubtreeRejoin (m : MbGo) (s : State) : Host.Outcome State Fault Refusal :=
  .next (s.mailbox m 0x08 (fdOnly m.part 1) [] none fun _ t =>
    match t.wantedParent with
    | some n =>
      if t.get .fd Rg.REFS_SEL_STATE = 4 && t.flag .fd Rg.REFS_REJOIN_REFUSED then (.ok [], (t.put .fd Rg.REFS_SELECTED (n - 61)).startRejoin)
      else (.refuse, t)
    | none => (.refuse, t))

/-! Entries and timers (R136, R138, R146). -/

/-- A port moves to its group's spare lane, or back to its main lane (R143): ON_SPARE and both SPARE_MAP fields. -/
def State.putOnSpare (p : Part) (n : Nat) (on : Bool) (s : State) : State :=
  let k := spareOf p n
  ((s.putFlag p (Rg.LINK_ON_SPARE n) on).put p (Rg.LINK_SPARE_MAP n) (if on then k else 127)).put p (Rg.LINK_SPARE_MAP k) (if on then n else 127)

/-- SIGNAL_DETECT (R111, R136): an enabled DOWN port has had signal for 1 ms and its backoff has elapsed: it trains, and precoding is agreed where both ends offer it; a port
with a faulty lane circuit on a free spare (R146). -/
def execSignalDetect (p : Part) (n : Nat) (farOffers : Bool) (s : State) : Host.Outcome State Fault Refusal :=
  .next (if s.lstate p n != 0 || !s.hasPosition p n || !s.posUsed p n || !s.portEnabled p n || !(s.unit p).start.on then s
    else
      let s0 := (s.awaitNow (s.link p n).backoffUntil).wake p 3 n
      let pay := if s0.governs p n then min 38 (s0.get p (Rg.LINK_PAY_CW n)) else 36
      let s1 := (s0.setLstate p n 1).modLink p n fun l =>
        { l with nextLseq := 0, rxNext := 0, payCur := pay, backoffUntil := 0, lockRun := 0, missRun := 0,
                 precode := farOffers && !isPkg p n && s0.flag p (Rg.LINK_PRECODE_ALLOW n) }
      if (s1.link p n).faulty && !s1.flag p (Rg.LINK_ON_SPARE n) && s1.spareFree p n then s1.putOnSpare p n true else s1)

/-- LOSS_OF_SIGNAL (R116, R136). -/
def execLossOfSignal (p : Part) (n : Nat) (s : State) : Host.Outcome State Fault Refusal := .next (s.linkDown p n)

/-- When a limit runs out that counts from a state's entry and not in a hold (R113, R136). -/
def State.limitEnd (p : Part) (n ns : Nat) (s : State) : Nat :=
  let l := s.link p n
  l.enteredNow + ns + l.heldNs + (match l.heldFrom with
    | some t => s.now - t
    | none => 0)

/-- TRAINING_TIMEOUT (R136, R162): 1,000 ms in TRAINING without a hold; 10 ms on a package port. -/
def execTrainingTimeout (p : Part) (n : Nat) (s : State) : Host.Outcome State Fault Refusal :=
  .next (if s.lstate p n = 1 && !s.trainHold p n then (s.awaitNow (s.limitEnd p n (if isPkg p n then 10000000 else 1000000000))).linkDown p n else s)

/-- RANGING_TIMEOUT (R136): 400 ms in RANGING, not counting a hold. -/
def execRangingTimeout (p : Part) (n : Nat) (s : State) : Host.Outcome State Fault Refusal :=
  .next (if s.lstate p n = 2 && !s.rangeHold p n then (s.awaitNow (s.limitEnd p n 400000000)).linkDown p n else s)

/-- SUSPECT_TIMEOUT (R136): 100 ms in SUSPECT, except with cause RESIDUE alone. -/
def execSuspectTimeout (p : Part) (n : Nat) (s : State) : Host.Outcome State Fault Refusal :=
  let c := s.get p (Rg.LINK_SUSPECT_CAUSE n)
  .next (if s.lstate p n = 4 && c != 8 then (s.awaitNow ((s.link p n).enteredNow + 100000000)).linkDown p n else s)

/-- SUSPECT_CLEAR (R113, R136): every cause clear for 64 consecutive beats; the return is no entry to ALIGNED, so nothing is resent. -/
def execSuspectClear (p : Part) (n : Nat) (s : State) : Host.Outcome State Fault Refusal :=
  .next (if s.lstate p n = 4 && decide (64 ≤ (s.link p n).clearRun) then
      let s1 := (((s.setLstate p n 3).put p (Rg.LINK_SUSPECT_CAUSE n) 0).put p (Rg.LINK_CHANNEL_RANGE n) 0).linkEvent p n 3 0
      match p with
      | .fd => if prPorts.contains n then s1.reselect.mirrorClock else s1.reselect
      | .sc => s1.dieReselect
    else s)

/-- RESIDUE_EXCEEDED (R135): RESID_EST above the limit for 64 consecutive beats. -/
def execResidueExceeded (p : Part) (n : Nat) (s : State) : Host.Outcome State Fault Refusal :=
  .next (if s.linkUp p n && decide (64 ≤ (s.link p n).residRun) then
      let s1 := ((s.suspect p n 3).put p (Rg.LINK_CAL_REQUIRED n) 1).linkEvent p n 4 0
      if isPkg p n || s1.optical p n || (s1.link p n).calRun.isSome then s1 else s1.wantCal p n
    else s)

/-- LINK_BACKOFF_END (R138). -/
def execLinkBackoffEnd (p : Part) (n : Nat) (s : State) : Host.Outcome State Fault Refusal :=
  .next ((s.awaitNow (s.link p n).backoffUntil).modLink p n fun l => { l with backoffUntil := 0 })

/-- RETX_BEATS of R123. -/
def Link.retxBeats (l : Link) : Nat := ceilDiv (2 * l.delay.toNat) (1024 * nsLsb) + 2

/-- RETRANSMIT_TIMEOUT (R123): the sender resends from the oldest unacknowledged word onward. -/
def execRetransmitTimeout (p : Part) (n : Nat) (s : State) : Host.Outcome State Fault Refusal :=
  .next (match (s.link p n).out with
    | [] => s
    | w :: _ => if s.linkUp p n then (s.awaitBeat p (w.beat + (s.link p n).retxBeats)).modLink p n fun l => { l with resend := some w.lseq } else s)

/-- The beat named by an announcement of 16 beats ahead (R118, R120, R145): counted from the first frame that carries it, which is the next where this beat's has gone. -/
def State.announceAt (p : Part) (n : Nat) (s : State) : Nat :=
  s.beat p + (match (s.link p n).lastTx with
    | some f => if f.beat = s.beat p then 17 else 16
    | none => 16)

/-- PAY_SPLIT_CHANGE (R120): at beat PAY_AT the announced count takes effect; a write to PAY_CW since then is the next announcement. -/
def execPaySplitChange (p : Part) (n : Nat) (s : State) : Host.Outcome State Fault Refusal :=
  .next (if !(s.link p n).payAnn then s
    else
      let s1 := (s.awaitBeat p (s.link p n).payAt).modLink p n fun l => { l with payCur := l.payNext, payAnn := false }
      let cur := (s1.link p n).payCur
      if !s1.governs p n then s1.put p (Rg.LINK_PAY_CW n) cur
      else if s1.get p (Rg.LINK_PAY_CW n) = cur then s1
      else s1.modLink p n fun l => { l with payNext := s1.get p (Rg.LINK_PAY_CW n), payAt := s1.announceAt p n, payAnn := true })

/-! The carrying role (R20). -/

/-- The leaf carries arrivals of a package over its own path (R20): its mid's link and the package's link are up. -/
def State.pathHeld (n : Nat) (s : State) : Bool := s.linkUp .fd 64 && s.linkUp .fd n

/-- CARRYING_ROLE_MOVE (R20): at the next beat boundary the carrying role of packages, `pkgs` being a mask of ports, moves within a dual-homed pair. At a leaf `take` says whether
this leaf takes the role, which its own path allows, or gives it up, the path being lost; at a mid, position `n` is the leaf whose role changes: the mid counts the pair's
participants where they are carried. -/
def execCarryingRoleMove (n pkgs : Nat) (take : Bool) (s : State) : Host.Outcome State Fault Refusal :=
  let h := s.dist.hall
  .next (if s.role == 4 && h.dualHere then
      let moved := maskOf 64 fun k => bit pkgs k && (if take then s.pathHeld k && !bit h.carrying k else !s.pathHeld k && bit h.carrying k)
      if moved = 0 then s else (s.nextBeat .fd).carryNow (if take then orMask h.carrying moved else minusMask 64 h.carrying moved) take
    else if s.role == 3 && bit h.homing n then
      let away := SMap.get 0 n h.away
      (s.nextBeat .fd).carryBelow n (if take then minusMask 64 away pkgs else orMask away pkgs)
    else s)

/-! Calibration (R131 to R134). -/

/-- No job has a member below the link (R133): below a downstream port, or below the unit for its own upward link. -/
def State.membersBelow (n : Nat) (s : State) : Bool :=
  s.dist.hall.jobs.any fun e => if n < 64 then SMap.get 0 n e.2.mcount != 0 else n < 66 && e.2.memberCount != 0

/-- Calibration records are stored (R134, R354, R390): at once, or once the supply guard has ended and P5 runs again. -/
def State.storeCal (p : Part) (n : Nat) (s : State) : State :=
  if s.inGuard p || (p = .fd && !s.roleUp .fd 5) then s.modLink p n fun l => { l with storeHeld := true } else s.modLink p n fun l => { l with storedCal := l.cal }

/-- LINK_CAL (0x0E; R133, R134, R148). -/
def execLinkCal (m : MbGo) (s : State) : Host.Outcome State Fault Refusal :=
  let p := m.part
  .next (s.mailbox m 0x0E (some (if p = .fd then 5 else 1)) [1, 1] none fun a t =>
    let n := a.getD 0 0
    let step := a.getD 1 0
    let optical := t.optical p n
    let l := t.link p n
    if !t.hasPosition p n || 4 < step then (.badArg, t)
    else if step = 0 then (if optical || isPkg p n then (.badArg, t) else (.ok [], t.wantCal p n))
    else if step < 3 && (!optical || p = .sc || (t.role == 4 && decide (n < 64))) then (.badArg, t)
    else if step = 1 then
      (if t.membersBelow n then (.refuse, t)
       else (.ok [], ((t.setLink p n { l with reverse := some (l.theta, t.now), heldModel := decide (64 ≤ n) }).setHold { t.dist.hold with entryHt := t.ht .fd }).put p (Rg.LINK_CAL_RUNNING n) 1))
    else if step = 2 then
      (match l.reverse with
       | none => (.refuse, t)
       | some (theta1, began) =>
         let t1 := (t.setLink p n { l with reverse := none, heldModel := false }).put p (Rg.LINK_CAL_RUNNING n) 0 |>.reselect
         if began + 10000000000 < t.now || t.membersBelow n then (.refuse, t1)
         else (.ok [], t1.newCal p n 2 (clampInt (-100000) 100000 (lsbToPs (l.theta - theta1)))))
    else if step = 3 then
      (let x := parseFields m.args 0 [1, 1, 4, 4]
       let asym := toSigned 32 (x.getD 2 0)
       let wave := toSigned 32 (x.getD 3 0)
       if m.args.length < 12 || 100000 < asym.natAbs || 100000 < wave.natAbs then (.badArg, t)
       else (.ok [], (t.putS p (Rg.LINK_WAVE n) (if optical then wave else 0)).newCal p n 3 asym))
    else if t.flag p (Rg.LINK_CAL_RUNNING n) then (.refuse, t)
    else (.ok [], t.storeCal p n))

/-- LINK_SWAP (0x0F; R144, R145, R148). -/
def execLinkSwap (m : MbGo) (s : State) : Host.Outcome State Fault Refusal :=
  let p := m.part
  .next (s.mailbox m 0x0F (some (if p = .fd then 5 else 1)) [1, 1] none fun a t =>
    let n := a.getD 0 0
    let on := t.flag p (Rg.LINK_ON_SPARE n)
    if !t.hasPosition p n || 1 < a.getD 1 0 then (.badArg, t)
    else if a.getD 1 0 = 0 then (if on || spareOf p n = n || !t.spareFree p n then (.refuse, t) else (.ok [], (t.startSwap p n false).laneSum p))
    else if !on || t.flag p (Rg.LINK_SWAP_PENDING n) then (.refuse, t)
    else (.ok [], (t.startSwap p n true).laneSum p))

/-- LINK_RESET (0x10; R138, R148). -/
def execLinkReset (m : MbGo) (s : State) : Host.Outcome State Fault Refusal :=
  let p := m.part
  .next (s.mailbox m 0x10 (some (if p = .fd then 5 else 1)) [1] none fun a t =>
    let n := a.getD 0 0
    if !t.hasPosition p n then (.badArg, t)
    else (.ok [], ((t.modLink p n fun l => { l with fails := 0 }).linkDown p n).modLink p n fun l => { l with fails := 0 }))

/-- REFLECT_RUN_START (R132, R134): the run starts after 64 beats without a bell on the link, or at once short of ALIGNED; the parent's first slice is announced 17
beats ahead. A distributor's P5 must run (R354, R378). -/
def execReflectRunStart (p : Part) (n : Nat) (s : State) : Host.Outcome State Fault Refusal :=
  let l := s.link p n
  .next (if !l.calWant || (p = .fd && !s.roleUp .fd 5) || isPkg p n || s.optical p n || l.calRun.isSome || s.lstate p n < 2 then s
    else
      let s1 := if s.lstate p n = 3 then s.awaitBeat p (l.lastBellBeat + 65) else s
      let first := s1.beat p + (if s1.parentEnd p n then 17 else 21)
      (s1.modLink p n fun k => { k with calRun := some { nextBeat := first }, calWant := false }).put p (Rg.LINK_CAL_RUNNING n) 1)

/-- CAL_SLICE (R132): the step of this end's slice is reflected; the two stamps of the sense tap give the one-way delay of its own pair, half their difference less the TDR_K trim
of the lane. After the eighth its average goes over the tunnel. -/
def execCalSlice (p : Part) (n : Nat) (sent reflected : Nat) (s : State) : Host.Outcome State Fault Refusal :=
  .next (match (s.link p n).calRun with
    | none => s
    | some r =>
      if 8 ≤ r.slices then s
      else
        let delay := lsbToPs (roundDiv ((reflected : Int) - sent) 2 - s.trim p (trimTdr (s.laneOf p n)))
        let r1 : CalRun := { r with slices := r.slices + 1, sum := r.sum + delay, nextBeat := r.nextBeat + 8 }
        (s.awaitBeat p r.nextBeat).modLink p n fun l =>
          { l with calRun := some r1, tunnel := if r1.slices = 8 then l.tunnel ++ [.calAverage (roundDiv r1.sum 8)] else l.tunnel })

/-- REFLECT_RUN_END (R132, R134): both averages are known: MED_ASYM is the downward one less the upward one, the record is written and stored. -/
def execReflectRunEnd (p : Part) (n : Nat) (s : State) : Host.Outcome State Fault Refusal :=
  .next (match (s.link p n).calRun with
    | some { slices := 8, sum := sum, farAvg := some far, .. } =>
      let own := roundDiv sum 8
      let asym := if s.parentEnd p n then own - far else far - own
      let s1 := (s.modLink p n fun l => { l with calRun := none }).newCal p n 1 (clampInt (-100000) 100000 asym)
      (s1.put p (Rg.LINK_CAL_RUNNING n) 0).storeCal p n
    | _ => s)

/-! Swaps (R145, R146). -/

/-- SPARE_READY (R145, R146): the lane prepared is matched, and the swap is announced 16 beats ahead; or the preparation failed, and the port keeps DEGRADED. -/
def execSpareReady (p : Part) (n : Nat) (ok : Bool) (s : State) : Host.Outcome State Fault Refusal :=
  let l := s.link p n
  .next (if !s.flag p (Rg.LINK_SWAP_PENDING n) || l.swapAt.isSome then s
    else if ok then s.setLink p n { l with swapAt := some (s.announceAt p n) }
    else ((s.put p (Rg.LINK_SWAP_PENDING n) 0).setLink p n { l with spareFailed := true }).spareNone p n)

/-- SWAP_AT_BOUNDARY (R145): at beat SWAP_AT the port moves to the spare or back; the exchange of that beat is none, a calibration run is discarded. -/
def execSwapAtBoundary (p : Part) (n : Nat) (s : State) : Host.Outcome State Fault Refusal :=
  .next (match (s.link p n).swapAt with
    | none => s
    | some b =>
      let s1 := (s.awaitBeat p b).putOnSpare p n (!(s.link p n).swapBack)
      let ran := (s.link p n).calRun.isSome
      let s2 := s1.modLink p n fun l => { l with swapAt := none, uncorr := [], calRun := none, calWant := l.calWant || ran, dirty := (txStamp (isPkg p n) b :: l.dirty).take 16 }
      let s3 := (s2.put p (Rg.LINK_SWAP_PENDING n) 0).putFlag p (Rg.LINK_CAL_RUNNING n) (s2.flag p (Rg.LINK_CAL_RUNNING n) && !ran)
      (s3.put p (Rg.LINK_DEGRADED n) 0).laneSum p)

end Sys2Proof.Machine
end

