-- ==== Sys2Proof/Machine/Slate.lean ====
section
/-! DEFINITION. The slate (R3, R9 to R13, R54, R361 to R364, R419 to R430): the register map, reads and writes of registers, the shadow and the held
writes of emulated registers, and the registers whose writes act. -/

namespace Sys2Proof.Machine

open Sys2Proof

/-! The map (R3, R420). -/

/-- The part has the registers of an offset: blocks that the variant or configuration lacks, and indexes beyond its count, are unoccupied (R420).
FD_PWR_STATUS (0x9018), which R346 heads VXD-2880 and the map of chapter 16 gives to every distributor, is kept on every variant, with CAP at its reset value (log entry 67). -/
def State.regPresent (p : Part) (off : Nat) (s : State) : Bool :=
  match p with
  | .fd =>
    let big := s.dist.variant == .vxd2880
    let only := (decide (0x1000 ≤ off) && decide (off < 0x2000)) || (decide (0x9004 ≤ off) && decide (off < 0x9018)) || (decide (0x9100 ≤ off) && decide (off < 0x9500))
      || off == 0x7010 || off == 0x7014 || off == 0xC010 || off == 0xC014 || (decide (0xC400 ≤ off) && decide (off < 0xCC00))
    (big || !only) && !(s.dist.variant == .vxd2840 && (off == 0xB050 || off == 0xB054))
  | .sc =>
    if 0x2000 ≤ off && off < 0x2A00 then s.hasPosition .sc ((off - 0x2000) / 32)
    else if 0x3000 ≤ off && off < 0x4000 then (off - 0x3000) / 16 < s.die.stations
    else if 0x4000 ≤ off && off < 0x4800 then (off - 0x4000) / 16 < s.die.queues
    else if 0x6800 ≤ off && off < 0x6820 then s.die.payload
    else if 0x6900 ≤ off && off < 0x6924 then s.die.checker
    else if 0xA040 ≤ off && off < 0xA078 then off < 0xA058
    else if off = 0xB040 || off = 0xB044 then s.die.payload
    else !(0xB048 ≤ off && off < 0xB058)

/-- The register's word covers an offset. -/
def RegRow.covers (p : Part) (off : Nat) (r : RegRow) : Bool :=
  (if p = .fd then r.fd else r.sc) && decide (r.base ≤ off) && (off - r.base) % r.stride == 0 && decide ((off - r.base) / r.stride < r.count)

/-- The unit that a field belongs to is present: a VXD-2840 has no spill and no archive (R306), a package-port position has no WAVE (R162). The bits of a field
that is not there are reserved (R3). -/
def State.hasField (p : Part) (f : Field) (s : State) : Bool :=
  match p with
  | .fd => !(s.dist.variant == .vxd2840 && (f.key == Rg.ATT_SPILL_EN.key || f.key == Rg.ATT_SPILL_PAUSED.key || f.key == Rg.ATT_ARCH_LOST_SEEN.key
      || f.key == Rg.ATT_SPILL_BUF_PCT.key || f.key == Rg.ATT_ARCH_LOST.key))
  | .sc => !(List.range 8).any fun i => f.key == (Rg.LINK_WAVE (8 + i)).key

/-- A package-port position's MEDIUM, PAY_CW, PRECODE_ALLOW and MED_ASYM read zero and take no write (R162): such a field as the register shows it. -/
def portField (p : Part) (f : Field) : Field :=
  if p = .sc && (List.range 8).any (fun i => f.key == (Rg.LINK_MEDIUM (8 + i)).key || f.key == (Rg.LINK_PAY_CW (8 + i)).key
      || f.key == (Rg.LINK_PRECODE_ALLOW (8 + i)).key || f.key == (Rg.LINK_MED_ASYM (8 + i)).key) then { f with acc := .wo } else f

/-- The index within its block and the fields of the register at an offset. -/
def State.regAt (p : Part) (off : Nat) (s : State) : Option (Nat × List Field) :=
  if !s.regPresent p off then none
  else (regRows.find? (·.covers p off)).map fun r =>
    ((off - r.base) / r.stride, ((r.fields ((off - r.base) / r.stride)).filter (s.hasField p)).map (portField p))

/-- A register that reads zero whatever its fields hold: the stud book registers at a unit that is not a root (R306); at a unit that is not the active root the shaper's
registers but FD_PWR_STATUS and FD_PWR_HALL, which alone hold values there (R346, log entry 67). -/
def State.readsZero (p : Part) (off : Nat) (s : State) : Bool :=
  p = .fd && (((off == 0x7010 || off == 0x7014) && s.role != 1 && s.role != 2)
    || (!s.isActiveRoot && ((decide (0x9004 ≤ off) && decide (off < 0x9018)) || (decide (0x9100 ≤ off) && decide (off < 0x9500)))))

/-- The word of a register from its fields, each cut to its width: WO fields read zero (R9), bits outside the fields too (R10). -/
def State.wordOf (p : Part) (fs : List Field) (s : State) : Nat := fs.foldl (fun a f => a + (if f.acc = .wo then 0 else s.get p f % 2 ^ f.width * 2 ^ f.lo)) 0

/-- The word of a register at reset. -/
def resetWord (fs : List Field) : Nat := fs.foldl (fun a f => a + (if f.acc = .wo then 0 else f.reset * 2 ^ f.lo)) 0

/-- The bits of a word that no field covers: reserved (R10). -/
def reservedBits (fs : List Field) : Nat := fs.foldl (fun a f => minusMask 32 a ((2 ^ f.width - 1) * 2 ^ f.lo)) (2 ^ 32 - 1)

/-- Some field of the register is emulated (R361). -/
def emulated (fs : List Field) : Bool := fs.any (·.slate)

/-- The deepest rung a ladder class may be set to (R384). -/
def plLimit (p : Part) (u : Nat) : Nat := if p = .fd then [4, 1, 3, 4, 4].getD u 0 else [2, 0, 0, 4, 4].getD u 0

/-- An encoding that a field takes; any other is reserved (R11). -/
def Field.takes (f : Field) (v : Nat) : Bool :=
  match f.valid with
  | .any => true
  | .range lo hi => decide (lo ≤ v) && decide (v ≤ hi)
  | .srange lo hi => decide (lo ≤ toSigned f.width v) && decide (toSigned f.width v ≤ hi)
  | .plMax u => decide (v ≤ plLimit .fd u)
  | .splMax u => decide (v ≤ plLimit .sc u)

/-- The prefect role that owns an emulated register (R354, R361; log entry 40). -/
def emuOwner (p : Part) (off : Nat) : Nat :=
  match p with
  | .fd =>
    if off < 0x2000 then 1
    else if off < 0x3000 then 5
    else if off < 0x6000 then 0
    else if off = 0x6004 then 5
    else if off < 0x7000 then 2
    else if off = 0x7008 then 4
    else if off < 0x7018 then 2
    else if off < 0x7200 then 4
    else if off < 0x7800 then 2
    else if off < 0x8000 then 4
    else if 0x9000 ≤ off && off < 0x9500 then 3
    else if off = 0xC010 then 2
    else if 0xC020 ≤ off then 4
    else 0
  | .sc => if off < 0x4000 || off = 0x9000 then 1 else 0

/-- P0, or the prefect that owns a register, is down: the register is served from the shadow, writes are held (R363). -/
def State.ownerDown (p : Part) (off : Nat) (s : State) : Bool := !s.roleUp p 0 || !s.roleUp p (emuOwner p off) || s.activating p

/-- HELD_COUNT, WR_HELD and BUSY of SLATE_STATUS follow the queues; STALE_VIEW clears once every write held has been applied (R362, R363). -/
def State.slateRegs (p : Part) (s : State) : State :=
  let sl := (s.unit p).slate
  ((s.put p Rg.SLATE_HELD_COUNT (min 256 sl.held.length)).putFlag p Rg.SLATE_WR_HELD (!sl.held.isEmpty)).putFlag p Rg.SLATE_BUSY (!sl.emuQ.isEmpty)

/-! Tokens (R364). -/

/-- The job to whose registers an offset belongs, for a word written there. -/
def State.regJob (p : Part) (off v : Nat) (s : State) : Option Nat :=
  let ofCtx := fun c => s.ctxJob c
  if 0xC100 ≤ off && off < 0xC300 then some ((off - 0xC100) / 8)
  else match p with
    | .fd =>
      if 0x6100 ≤ off && off < 0x6500 then some ((off - 0x6100) / 16)
      else if 0x7200 ≤ off && off < 0x7600 then some ((off - 0x7200) / 16)
      else if 0x9100 ≤ off && off < 0x9500 then some ((off - 0x9100) / 16)
      else if 0xC400 ≤ off && off < 0xCC00 then some ((off - 0xC400) / 32)
      else none
    | .sc =>
      if off = 0x4800 || off = 0x4810 then ofCtx (bits v 12 6)
      else if off = 0x4804 then ofCtx (s.get .sc Rg.HST_ARR_CTX)
      else if off = 0x4814 then ofCtx (s.get .sc Rg.HST_ARM_CTX)
      else if 0x4C00 ≤ off && off < 0x5000 then ofCtx ((off - 0x4C00) / 16)
      else if 0x5000 ≤ off && off < 0x5200 then ofCtx ((off - 0x5000) / 8)
      else if 0x4000 ≤ off && off < 0x4800 && s.flag .sc (Rg.Q_BOUND ((off - 0x4000) / 16)) then ofCtx (s.get .sc (Rg.Q_CTX ((off - 0x4000) / 16)))
      else none

/-- A requester may write an offset (R364): an admin everything; a job its own registers, a WAIT_DONE bit (log entry 41) and the mailboxes through which it issues
its commands; TOKEN is written by everyone. -/
def State.mayWrite (p : Part) (req off v : Nat) (s : State) : Bool :=
  if off = 0xA100 then true
  else match s.cls p req with
    | .admin => true
    | .noClass => false
    | .job j => (decide (0x8000 ≤ off) && decide (off < 0x8900)) || (p = .sc && off == 0x4818) || s.regJob p off v == some j

/-- A refused write is ignored and counted (R364). -/
def State.denied (p : Part) (s : State) : State := (s.bump p Rg.SLATE_DENIED_CNT).put p Rg.SLATE_TOKEN_DENIED 1

/-! Registers that follow other state at a read (R84, R213, R306, R375, R424, R425, R428, R429). -/

/-- FD_STATUS and SC_STATUS (R425). -/
def State.statusRegs (p : Part) (s : State) : State :=
  let dead := match p with
    | .fd => (List.range 64).any fun j => s.flag .fd (Rg.JH_DEADLOCK j)
    | .sc => s.get64 Rg.MON_DEADLOCK_LO Rg.MON_DEADLOCK_HI != 0
  let s1 := ((s.putFlag p Rg.STATUS_ACTIVE_ROOT (p = .fd && s.isActiveRoot)).putFlag p Rg.STATUS_DEADLOCK dead).put p Rg.STATUS_STALE_VIEW (s.get p Rg.SLATE_STALE_VIEW)
  let s2 := ((s1.putFlag p Rg.STATUS_ALERT (s.alertLine p)).putFlag p Rg.STATUS_EMERGENCY (s.emergency p)).putFlag p Rg.STATUS_GUARD (s.inGuard p)
  let s3 := ((s2.putFlag p Rg.STATUS_FW_READY (s.fwReady p)).put p Rg.STATUS_HOLDOVER (s.get p Rg.HT_HOLDOVER)).put p Rg.STATUS_UNALIGNED (s.get p Rg.HT_UNALIGNED)
  ((s3.put p Rg.STATUS_ALIGNED (s.get p Rg.HT_ALIGNED)).put p Rg.STATUS_JOINED (s.get p Rg.HT_JOINED)).put p Rg.STATUS_STAGE (s.get p Rg.START_STAGE)

/-- An enabled reference is not qualified, or the jump test has refused one (R84). -/
def State.refFault (s : State) : Bool :=
  s.flag .fd Rg.REFS_REF_JUMP_REFUSED || [RefIn.a, RefIn.b].any fun x => s.refEnabled x && !s.flag .fd x.qual

/-- FD_PIN_STATE (R84, R428). The MAINS fields hold the levels as the inputs last gave them. -/
def State.fdPins (s : State) : State :=
  let s1 := (((s.putFlag .fd Rg.PIN_ALERT_N (!s.alertLine .fd)).putFlag .fd Rg.PIN_FW_READY (s.fwReady .fd)).putFlag .fd Rg.PIN_BROWNOUT_N
    (!(s.flag .fd Rg.SUP_WARN || s.inGuard .fd)))
  (((s1.put .fd Rg.PIN_ALIGN_OK (s.get .fd Rg.HT_ALIGNED)).putFlag .fd Rg.PIN_REF_FAULT s.refFault).put .fd Rg.PIN_HOLDOVER (s.get .fd Rg.HT_HOLDOVER)).put .fd Rg.PIN_LOCK
    (s.get .fd Rg.REFS_LOCK)

/-- SC_SYNC_INT's HOST_SIG and HOST_WAIT (R213). -/
def State.syncInt (s : State) : State :=
  let sig := (List.range 64).any fun c => s.get64 (Rg.HF_SIG_LO c) (Rg.HF_SIG_HI c) != 0
  (s.putFlag .sc Rg.MON_HOST_SIG sig).putFlag .sc Rg.MON_HOST_WAIT (s.get .sc Rg.HST_W_DONE != 0)

/-- The five lines of the step core (R209, R426, R430), within SC_PIN_STATE (R429). -/
def State.scPins (s : State) : State :=
  let t := s.syncInt
  let en := t.get .sc Rg.MON_INT_EN
  let sync := (bit en 0 && t.flag .sc Rg.MON_HOST_SIG) || (bit en 1 && t.flag .sc Rg.MON_HOST_WAIT) || (bit en 3 && t.flag .sc Rg.MON_CLEARED)
  let pay := (List.range 4).any fun i => bit (t.get .sc Rg.SPAY_INT) i && bit (t.get .sc Rg.SPAY_INT_EN) i
  let t1 := ((t.putFlag .sc Rg.SPIN_IRQ_SYNC sync).putFlag .sc Rg.SPIN_IRQ_MON (bit en 2 && t.flag .sc Rg.MON_MONITOR)).putFlag .sc Rg.SPIN_IRQ_PAY pay
  (t1.putFlag .sc Rg.SPIN_IRQ_MBX (t.mailLine .sc)).putFlag .sc Rg.SPIN_IRQ_ALERT (t.alertLine .sc)

/-- The attendance records that wait at the die (R306). -/
def State.sattLevel (s : State) : Nat := s.die.att.buf.foldl (fun (m : Nat) (e : Rec × Nat) => m + e.1.size) 0

/-- A register whose fields are taken from other state at the read. -/
def State.refresh (p : Part) (req off : Nat) (s : State) : State :=
  if off = 0x000C then s.statusRegs p
  else if off = 0xA080 || off = 0xA084 || off = 0xA088 || off = 0xA08C then s.fwRegs p
  else if 0x7600 ≤ off && off < 0x7610 then s.ttRegs p
  else if off = 0xA030 then s.slateRegs p
  else if 0xB040 ≤ off && off < 0xB068 && off % 8 = 4 then s.putFlag p (Rg.PL_HELD ((off - 0xB040) / 8)) (s.classHeld p ((off - 0xB040) / 8))
  else if 0xA040 ≤ off && off < 0xA078 && off % 8 = 0 then
    s.put p (Rg.PREF_CRASHES ((off - 0xA040) / 8)) (sat 4 (s.countedRestarts p ((off - 0xA040) / 8)).length)
  else if off = 0xA104 then (match s.cls p req with
    | .noClass => (s.put p Rg.TOK_CLASS 0).put p Rg.TOK_JOB 0
    | .admin => (s.put p Rg.TOK_CLASS 1).put p Rg.TOK_JOB 0
    | .job j => (s.put p Rg.TOK_CLASS 2).put p Rg.TOK_JOB j)
  else match p with
    | .fd =>
      if off = 0x0018 then s.fdPins
      else if off = 0x7024 || off = 0x702C then s.attRegs
      else if off = 0xC014 then s.promoteRegs
      else s
    | .sc =>
      if off = 0x0018 then s.scPins
      else if off = 0x5430 then s.syncInt
      else if off = 0x0008 then s.put .sc Rg.SCAPS_LEAD (s.get .sc Rg.SROLL_LEAD)
      else if off = 0x7000 then s.put .sc Rg.SATT_LEVEL (sat Rg.SATT_LEVEL.width s.sattLevel)
      else s

/-! Reads (R9, R54, R279, R305, R419). -/

/-- HT_NS_HI and HT_FRAC_STAT (R54): the requester's latch, or live values with LATCHED = 0. -/
def State.htWord (p : Part) (req off : Nat) (s : State) : Nat :=
  let x : Nat × Nat := match SMap.find req (s.unit p).slate.snaps with
    | some sn => (sn.ht, sn.stat + 1024)
    | none => (s.ht p, s.fracStat p)
  if off = 0x104 then x.1 / nsLsb / 2 ^ 32 else x.1 % nsLsb * 65536 + x.2

/-- The register's word at a read, and the state after it: RC fields clear (R9); the checker's VALUE_LO latches the value for VALUE_HI (R279). -/
def State.readWord (p : Part) (req off : Nat) (s : State) : Nat × State :=
  if off = 0x100 then (s.ht32 p, s)
  else if off = 0x104 || off = 0x108 then (s.htWord p req off, s)
  else if 0x8000 ≤ off && off < 0x8800 then ((s.mail p ((off - 0x8000) / 256)).data.readLe (off % 256) 4, s)
  else if p = .fd && 0x7800 ≤ off && off < 0x8000 then
    (match s.dist.arch.window with
      | some b => (ofLe ((b.toBytes.drop (2048 * s.get .fd Rg.ATT_HALF + (off - 0x7800))).take 4), s)
      | none => (0, s))
  else match s.regAt p off with
    | none => (0, s)
    | some (_, fs) =>
      if s.readsZero p off then (0, s)
      else if p = .sc && off = 0x6908 then (s.die.pay.chk % 2 ^ 32, s.setPay { s.die.pay with chkLatch := s.die.pay.chk })
      else if p = .sc && off = 0x690C then (s.die.pay.chkLatch / 2 ^ 32, s)
      else
        let t := s.refresh p req off
        (t.wordOf p fs, fs.foldl (fun (u : State) f => if f.acc = .rc then u.put p f 0 else u) t)

/-- A read answered to its requester. -/
def State.replyTo (p : Part) (req off v : Nat) (stale : Bool) (s : State) : State :=
  s.setSlate p { (s.unit p).slate with reply := { req := req, off := off, value := v, stale := stale } }

/-! Writes (R9 to R11). -/

/-- A word written into a register's fields: RW takes its value unless the encoding is reserved, W1C clears, the rest is ignored; a reserved bit or encoding sets
ALERT.RSVD_WRITE. `only` picks the fields that the write reaches. -/
def State.writeFields (p : Part) (fs : List Field) (v : Nat) (only : Field → Bool) (s : State) : State :=
  let s1 := (fs.filter only).foldl (fun (t : State) f =>
    let x := bits v f.lo f.width
    match f.acc with
    | .rw => if f.takes x then t.put p f x else t.rsvd p
    | .w1c => t.put p f (minusMask f.width (t.get p f) x)
    | _ => t) s
  if maskOf 32 (fun i => bit v i && bit (reservedBits fs) i) != 0 then s1.rsvd p else s1

/-- The word without a field, whose present value stands in its place. -/
def State.keepField (p : Part) (f : Field) (v : Nat) (s : State) : Nat := v - bits v f.lo f.width * 2 ^ f.lo + s.get p f * 2 ^ f.lo

/-- A link's LINK_CTRL has been written (R113, R120, R136): a port disabled goes DOWN; PAY_CW at the governing end is announced; MEDIUM is looked at again. -/
def State.linkCtrlWritten (p : Part) (n : Nat) (s before : State) : State :=
  let s1 := if before.portEnabled p n && !s.portEnabled p n then s.linkDown p n else s
  let l := s1.link p n
  let cw := s1.get p (Rg.LINK_PAY_CW n)
  let s2 := if s1.governs p n && s1.linkUp p n && !l.payAnn && cw != l.payCur then
      s1.setLink p n { l with payNext := cw, payAt := s1.beat p + 16, payAnn := true }
    else s1
  if before.flag p (Rg.LINK_MEDIUM n) == s2.flag p (Rg.LINK_MEDIUM n) then s2 else s2.channelCheck p n

/-- A timing output's OUT_CTRL has been written (R79, R81, R83): an output enabled waits for its reference; one that enters HOLD keeps its present phase; ALL_JOBS is
reserved in FRAME form; an output muted goes low. -/
def State.outCtrlWritten (n : Nat) (s before : State) : State :=
  let s0 := if s.flag .fd (Rg.OUT_BELL_FORM n) && s.flag .fd (Rg.OUT_ALL_JOBS n) then
      (s.put .fd (Rg.OUT_ALL_JOBS n) (before.get .fd (Rg.OUT_ALL_JOBS n))).rsvd .fd else s
  let on := s0.flag .fd (Rg.OUT_ENABLE n)
  let ready := match refOf (s0.get .fd (Rg.OUT_SOURCE n)) with
    | some x => s0.flag .fd x.qual
    | none => true
  let o := s0.out n
  let o1 := if !on then { o with armed := false } else if !before.flag .fd (Rg.OUT_ENABLE n) then { o with armed := ready } else { o with armed := o.armed || ready }
  let held := on && s0.flag .fd (Rg.OUT_MODE n) && !(before.flag .fd (Rg.OUT_ENABLE n) && before.flag .fd (Rg.OUT_MODE n))
  let s1 := if held then
      ((s0.setOut n { o1 with phase := if n < 6 then before.outPhase n else s0.getS .fd (Rg.OUT_OFFSET n), moveTo := none }).put .fd (Rg.OUT_REALIGNING n) 0).put .fd
        (Rg.OUT_OUT_FALLBACK n) 0
    else s0.setOut n o1
  s1.muteOuts

/-- FD_REF_CTRL has been written (R56, R59, R61, R85): an input disabled is disqualified and no longer measured; the revertive wait follows REVERTIVE and PRIMARY. -/
def State.refCtrlWritten (s before : State) : State :=
  ([RefIn.a, RefIn.b].foldl (fun (t : State) x =>
    if before.refEnabled x && !t.refEnabled x then ((t.disqualify x).put .fd (Rg.REFO_OFFSET x.idx) 0x80000000).setRef x { ((t.disqualify x).refSt x) with edged := false }
    else t) s).revertiveWait

/-- SLEW_LIMIT has been written (R46, R69): a slew in progress goes on at the new limit from the next beat boundary. -/
def State.slewWritten (s : State) : State :=
  if s.fd.clock.slewRate = 0 || s.get .fd Rg.REFS_SEL_STATE = 6 || (s.get .fd Rg.REFS_SEL_STATE = 5) then s
  else
    s.setUnit .fd { s.fd with clock := { s.fd.clock with slewNext := some (s.beat .fd + 1, s.slewLimit) } }

/-- PTP_EN has been written (R78): without PTP the clock is not locked, and its labels are stale at once, where the spec gives only the 10 s without a valid exchange (log
entry 72). -/
def State.ptpWritten (s : State) : State :=
  if s.flag .fd Rg.PTP_PTP_EN then s
  else ((s.setDist { s.dist with ptp := { s.dist.ptp with run := 0 } }).put .fd Rg.PTP_PTP_LOCKED 0).put .fd Rg.PTP_WALL_STALE 1

/-- PL_MAX has been written (R385): units below the new limit exit. -/
def State.ladderWritten (p : Part) (u : Nat) (s : State) : State :=
  let lim := s.get p (if p = .fd then Rg.PL_PL_MAX u else Rg.SPL_PL_MAX u)
  (s.unit p).start.rungs.foldl (fun (t : State) e => if e.1 / 1024 = u && lim < e.2.1 then t.wake p u (e.1 % 1024) else t) s

/-- The direct create block (R214): OP 1 creates, OP 2 frees. Only REGION and DIE slots are its own. -/
def State.directOp (op : Nat) (s : State) : State :=
  let c := s.get .sc Rg.BCR_CTX
  let h := s.get .sc Rg.BCR_HANDLE
  if op = 1 then
    let part := (List.range 4).foldl (fun a i => a + s.get .sc (Rg.BCR_QMASK i) * 2 ^ (32 * i)) 0 + s.get .sc Rg.BCR_HOST * 2 ^ 128
    let r := s.createSlot { ctx := c, handle := h, scope := s.get .sc Rg.BCR_SCOPE, headcount := s.get .sc Rg.BCR_HEADCOUNT, part := part, station := s.get .sc Rg.BCR_STATION }
    let t := r.2.2.2.put .sc Rg.BCR_STATUS r.1
    if r.1 = 0 then (t.put .sc Rg.BCR_PHYS r.2.1).put .sc Rg.BCR_GEN r.2.2.1 else t
  else if op = 2 then
    match s.handle c h with
    | none => s.put .sc Rg.BCR_STATUS 3
    | some r => if 2 ≤ (s.slotAt r).scope then s.put .sc Rg.BCR_STATUS 2 else (s.barrierFree r).put .sc Rg.BCR_STATUS 0
  else if op = 3 then s.rsvd .sc
  else s

/-- What follows a write at the distributor, beyond its fields. -/
def State.fdWritten (off n v : Nat) (s before : State) : State :=
  if off = 0x0010 then (if s.vectorCond 2 then s.signal 2 else s)
  else if off = 0x0014 then s.signalRise 2 before
  else if off = 0x6010 then (if s.vectorCond 1 then s.signal 1 else s)
  else if off = 0x6014 then s.signalRise 1 before
  else if off = 0x0400 then s.refCtrlWritten before
  else if off = 0x0408 then s.slewWritten
  else if 0x0440 ≤ off && off < 0x04E0 && off % 16 = 0 then s.outCtrlWritten n before
  else if off = 0x0500 then s.ptpWritten
  else if 0x1000 ≤ off && off < 0x1400 && off % 32 = 0 then s.tdcCtrlWritten n before
  else if 0x1000 ≤ off && off < 0x1400 && off % 32 = 28 then s.tdcRelease n (v % 2 ^ 24)
  else if off = 0x7038 then s.winSelect v
  else if 0x7100 ≤ off && off < 0x7200 then s.ruleChanged
  else s

/-- What follows a write at the step core, beyond its fields. -/
def State.scWritten (off n v : Nat) (s before : State) : State :=
  if 0x2C90 ≤ off && off < 0x2D10 then s.strobeCfgWritten n before
  else if 0x3000 ≤ off && off < 0x4000 && off % 16 = 0 then s.strobeEnWritten n before
  else if off = 0x4804 then s.hostArrive (v % 65536)
  else if off = 0x4814 then s.hostArm (v % 65536)
  else if off = 0x4818 then (setBits 16 v).foldl (fun (t : State) e => t.put .sc (Rg.HST_WS_VALID e) 0) s
  else if 0x4C00 ≤ off && off < 0x5000 && off % 16 < 8 then (setBits 32 v).foldl (fun (t : State) i => t.setHostFlag n (i + 8 * (off % 16))) s
  else if 0x5200 ≤ off && off < 0x5400 && off % 8 = 0 then s.setQuota n (s.get .sc (Rg.CTX_HANDLE_QUOTA n))
  else if off = 0x5820 then s.directOp (v % 4)
  else if off = 0x690C then s.chkLoad v
  else if off = 0x6914 then s.chkExpect (s.get .sc Rg.CHK_EXPECT_LO + 2 ^ 32 * v)
  else s

/-- The word that a write brings where a field of the register cannot change now: PAY_CW at the end that does not govern (R147), the table base while
descriptors are in flight (R280). -/
def State.effective (p : Part) (off n v : Nat) (s : State) : Nat :=
  if 0x2000 ≤ off && off < 0x2A00 && off % 32 = 0 && !s.governs p n then s.keepField p (Rg.LINK_PAY_CW n) v
  else if p = .sc && off = 0x6800 && s.get .sc Rg.SPAY_IN_FLIGHT != 0 then s.keepField .sc Rg.PD_BASE_LO v
  else if p = .sc && off = 0x6804 && s.get .sc Rg.SPAY_IN_FLIGHT != 0 then s.keepField .sc Rg.PD_BASE_HI v
  else v

/-- A write that its register ignores as a whole, setting ALERT.RSVD_WRITE: MB_CTRL of a mailbox the device owns (R366), a bound queue (R213). -/
def State.locked (p : Part) (off n : Nat) (s : State) : Bool :=
  (decide (0x8800 ≤ off) && decide (off < 0x8900) && off % 32 == 0 && s.flag p (Rg.MB_OWNED n))
    || (p = .sc && decide (0x4000 ≤ off) && decide (off < 0x4800) && off % 16 == 0 && s.flag .sc (Rg.Q_BOUND n))

/-- A word written to a register of the part, its rights and its owner already seen to; `only` picks the fields that the write reaches. -/
def State.applyWord (p : Part) (off n : Nat) (fs : List Field) (v : Nat) (only : Field → Bool) (s : State) : State :=
  if s.locked p off n then s.rsvd p
  else if p = .sc && 0x4000 ≤ off && off < 0x4800 && off % 16 = 0 && bit v 6 then
    (if Nat.land v (reservedBits fs) != 0 then s.rsvd .sc else s).bindQueue n (v % 64)
  else
    let v1 := s.effective p off n v
    let s0 := if p = .sc && (off = 0x6800 || off = 0x6804) && v1 != v then s.rsvd .sc else s
    let s1 := s0.writeFields p fs v1 only
    let s2 := if 0x2000 ≤ off && off < 0x2A00 && off % 32 = 0 then s1.linkCtrlWritten p n s
      else if 0xB040 ≤ off && off < 0xB068 && off % 8 = 0 then s1.ladderWritten p n
      else match p with
        | .fd => s1.fdWritten off n v s
        | .sc => s1.scWritten off n v s
    if emulated fs then s2.setSlate p { (s2.unit p).slate with shadow := SMap.set off (s2.wordOf p fs) (s2.unit p).slate.shadow } else s2

/-- The bytes of a register's word that a read names (R419). -/
def EmuAcc.part (a : EmuAcc) (v : Nat) : Nat := v / 2 ^ (8 * a.lane) % 2 ^ (8 * a.bytes)

/-- An emulated access is carried out: a read answers and refreshes the shadow, a write is applied (R361, R362). -/
def State.serve (p : Part) (a : EmuAcc) (s : State) : State :=
  if a.isWrite then
    (match s.regAt p a.off with
      | some (n, fs) => s.applyWord p a.off n fs a.value (·.slate)
      | none => s)
  else
    let r := s.readWord p a.req a.off
    let s1 := r.2.setSlate p { (r.2.unit p).slate with shadow := SMap.set a.off r.1 (r.2.unit p).slate.shadow }
    (s1.put p Rg.SLATE_STALE_VIEW 0).replyTo p a.req (a.off + a.lane) (a.part r.1) false

/-- The shadow of an emulated register: its last value; at first its reset value (R361, R363). -/
def State.shadowOf (p : Part) (off : Nat) (s : State) : Nat :=
  match SMap.find off (s.unit p).slate.shadow with
  | some v => v
  | none => match s.regAt p off with
    | some (_, fs) => resetWord fs
    | none => 0

/-- A read served from the shadow (R362, R363). -/
def State.serveStale (p : Part) (a : EmuAcc) (s : State) : State :=
  ((s.replyTo p a.req (a.off + a.lane) (a.part (s.shadowOf p a.off)) true).put p Rg.SLATE_STALE_VIEW 1).put p Rg.SLATE_STALE_SEEN 1

/-- A host arrival that waits for its owner shows BUSY (R207). -/
def State.hostBusy (p : Part) (a : EmuAcc) (s : State) : State := if p = .sc && a.isWrite && a.off = 0x4804 then s.put .sc Rg.HST_RES_BUSY 1 else s

/-- An emulated access arrives (R361 to R363): before stage 2, on the step core before FW_UP (R382), reads give zero and writes are ignored; while its owner is down a read takes the shadow and a write is
held; behind a read that is still pending it waits its turn. A host arrival is ignored while
another is BUSY (R207). -/
def State.emulate (p : Part) (a : EmuAcc) (s : State) : State :=
  let sl := (s.unit p).slate
  if (match p with
      | .fd => decide (s.get .fd Rg.START_STAGE < 2)
      | .sc => !s.flag .sc Rg.START_FW_UP) then (if a.isWrite then s else s.replyTo p a.req a.off 0 false)
  else if p = .sc && a.isWrite && a.off = 0x4804 && s.flag .sc Rg.HST_RES_BUSY then s.rsvd .sc
  else if s.ownerDown p a.off then
    (if a.isWrite then ((s.setSlate p { sl with held := sl.held ++ [a] }).slateRegs p).hostBusy p a else s.serveStale p a)
  else if a.late || !sl.emuQ.isEmpty then ((s.setSlate p { sl with emuQ := sl.emuQ ++ [a] }).slateRegs p).hostBusy p a
  else s.serve p a

/-- Accesses are served in arrival order up to the next read without an answer. -/
def State.drainEmu (p : Part) : List EmuAcc → State → State
  | [], s => (s.setSlate p { (s.unit p).slate with emuQ := [] }).slateRegs p
  | a :: t, s =>
    if a.late then (s.setSlate p { (s.unit p).slate with emuQ := a :: t }).slateRegs p else State.drainEmu p t (s.serve p a)

/-- Held writes whose owner runs again are applied in arrival order; STALE_VIEW clears (R363). -/
def State.releaseHeldWrites (p : Part) (s : State) : State :=
  let q := (s.unit p).slate.held
  let s1 := s.setSlate p { (s.unit p).slate with held := q.filter fun a => s.ownerDown p a.off }
  let s2 := (q.filter fun a => !s.ownerDown p a.off).foldl (fun (t : State) a => t.serve p a) s1
  (if (s2.unit p).slate.held.isEmpty then s2.put p Rg.SLATE_STALE_VIEW 0 else s2).slateRegs p

/-- One word of a slate write (R364, R419, R420). -/
def State.slateWord (p : Part) (req off v : Nat) (s : State) : State :=
  if !s.mayWrite p req off v then s.denied p
  else if off = 0xA100 then s.setSlate p { (s.unit p).slate with latches := lruPut req v (s.unit p).slate.latches }
  else if p = .fd && 0x7800 ≤ off && off < 0x8000 then s
  else match s.regAt p off with
    | none => if v = 0 then s else s.rsvd p
    | some (n, fs) =>
      let s1 := if fs.any (fun f => !f.slate) then s.applyWord p off n fs v (fun f => !f.slate) else s
      if emulated fs then s1.emulate p { req := req, off := off, value := v, isWrite := true } else s1

/-- Bytes written to a mailbox's data area, of any width (R365, R366, R419): ignored while the device owns the mailbox. -/
def State.mailWrite (p : Part) (req off : Nat) (b : List Byte) (s : State) : State :=
  let m := (off - 0x8000) / 256
  if !s.mayWrite p req off 0 then s.denied p
  else if s.flag p (Rg.MB_OWNED m) then s.rsvd p
  else s.setMail p m { s.mail p m with data := (s.mail p m).data.writeN (off % 256) b }

/-! The commands. -/

/-- EMULATED_WRITE (R361, R363). -/
def execEmulatedWrite (p : Part) (req off value : Nat) (s : State) : Host.Outcome State Fault Refusal := .next (s.slateWord p req off (value % 2 ^ 32))

/-- EMULATED_READ (R361 to R363): `late` marks a read that its owner leaves without an answer for 20 µs. -/
def execEmulatedRead (p : Part) (req off : Nat) (late : Bool) (s : State) : Host.Outcome State Fault Refusal :=
  .next (s.emulate p { req := req, off := off, late := late })

/-- SHADOW_TIMEOUT (R362): the pending read is answered from the shadow; those behind it follow. -/
def execShadowTimeout (p : Part) (s : State) : Host.Outcome State Fault Refusal :=
  .next (match (s.unit p).slate.emuQ with
    | [] => s
    | a :: t => (s.serveStale p a).drainEmu p t)

/-- A read of one register, or of `bytes` of its bytes from `lane` on (R9, R419): RC fields clear; an emulated register answers through its owner. -/
def State.readReg (p : Part) (req off lane bytes : Nat) (s : State) : State :=
  let a : EmuAcc := { req := req, off := off, lane := lane, bytes := bytes }
  match s.regAt p off with
  | some (_, fs) =>
    if emulated fs then s.emulate p a
    else
      let r := s.readWord p req off
      r.2.replyTo p req (off + lane) (a.part r.1) false
  | none => s.replyTo p req (off + lane) (a.part (s.readWord p req off).1) false

/-- A read of several registers, register by register in ascending order (R419); one whose owner has not answered yet gives zero here and answers on its own. -/
def State.readWide (p : Part) (req off n : Nat) (s : State) : State :=
  (List.range n).foldl (fun (t : State) i =>
    let got := (t.unit p).slate.reply.value
    let u := (t.replyTo p req off 0 false).readReg p req (off + 4 * i) 0 4
    u.replyTo p req off (got + (u.unit p).slate.reply.value * 2 ^ (32 * i)) false) (s.replyTo p req off 0 false)

/-- COUNTER_READ_CLEAR (R9, R54, R419, R421): a read of 1, 2, 4, 8 or 16 bytes returns the register's bytes and clears its RC fields, those of several registers in ascending
order; from HT_NS_LO it takes the snapshot of R54. -/
def execCounterReadClear (p : Part) (req off size : Nat) (s : State) : Host.Outcome State Fault Refusal :=
  .next (if off = 0x100 && 4 ≤ size then s.snapshotRead p req size
    else if 4 < size then s.readWide p req off (size / 4)
    else s.readReg p req (off - off % 4) (off % 4) size)

/-- TOKEN_WRITE (R364). -/
def execTokenWrite (p : Part) (req value : Nat) (s : State) : Host.Outcome State Fault Refusal := .next (s.slateWord p req 0xA100 (value % 2 ^ 32))

/-- STROBE_CFG_WRITE (R164): word `w` of SC_STROBE_CFGk. -/
def execStrobeCfgWrite (req k w value : Nat) (s : State) : Host.Outcome State Fault Refusal := .next (s.slateWord .sc req (0x2C90 + 16 * k + 4 * w) (value % 2 ^ 32))

/-- STROBE_EN_WRITE (R164): SC_STN_CTRL of a station. -/
def execStrobeEnWrite (req n value : Nat) (s : State) : Host.Outcome State Fault Refusal := .next (s.slateWord .sc req (0x3000 + 16 * n) (value % 2 ^ 32))

/-- QUEUE_BIND (R178, R213): BOUND written 1 with a context. -/
def execQueueBind (req q ctx : Nat) (s : State) : Host.Outcome State Fault Refusal := .next (s.slateWord .sc req (0x4000 + 16 * q) (ctx % 64 + 64))

/-- HOST_ARRIVE (R207): a write to SC_HOST_ARRIVE_HI. -/
def execHostArrive (req epoch : Nat) (s : State) : Host.Outcome State Fault Refusal := .next (s.slateWord .sc req 0x4804 (epoch % 65536))

/-- HOST_WAIT_ARM (R208): a write to SC_HOST_WAIT_ARM_HI. -/
def execHostWaitArm (req epoch : Nat) (s : State) : Host.Outcome State Fault Refusal := .next (s.slateWord .sc req 0x4814 (epoch % 65536))

/-- HOST_FLAG_SET (R209): a word of SC_HOST_FLAG_SETc. -/
def execHostFlagSet (req c : Nat) (hi : Bool) (flags : Nat) (s : State) : Host.Outcome State Fault Refusal :=
  .next (s.slateWord .sc req (0x4C00 + 16 * c + 4 * ofBool hi) (flags % 2 ^ 32))

/-- HOST_FLAG_WITHDRAW (R209): a word of SC_HOST_FLAGc. -/
def execHostFlagWithdraw (req c : Nat) (hi : Bool) (flags : Nat) (s : State) : Host.Outcome State Fault Refusal :=
  .next (s.slateWord .sc req (0x4C08 + 16 * c + 4 * ofBool hi) (flags % 2 ^ 32))

/-- DIRECT_CREATE (R214). -/
def execDirectCreate (req : Nat) (s : State) : Host.Outcome State Fault Refusal := .next (s.slateWord .sc req 0x5820 1)

/-- DIRECT_FREE (R214). -/
def execDirectFree (req : Nat) (s : State) : Host.Outcome State Fault Refusal := .next (s.slateWord .sc req 0x5820 2)

/-- PD_BASE_WRITE (R280): SC_PD_BASE_LO with PD_EN, or SC_PD_BASE_HI. -/
def execPdBaseWrite (req : Nat) (hi : Bool) (value : Nat) (s : State) : Host.Outcome State Fault Refusal :=
  .next (s.slateWord .sc req (0x6800 + 4 * ofBool hi) (value % 2 ^ 32))

/-- CHK_EXPECT_WRITE (R278): a write to SC_CHK_EXPECT_HI. -/
def execChkExpectWrite (req value : Nat) (s : State) : Host.Outcome State Fault Refusal := .next (s.slateWord .sc req 0x6914 (value % 2 ^ 32))

/-- CHK_VALUE_READ (R279): a read of VALUE_LO latches the value for VALUE_HI. -/
def execChkValueRead (req : Nat) (s : State) : Host.Outcome State Fault Refusal :=
  let r := s.readWord .sc req 0x6908
  .next (r.2.replyTo .sc req 0x6908 r.1 false)

/-- CHK_VALUE_WRITE (R279): a write of VALUE_HI loads the running value, its low bits as last written to VALUE_LO. -/
def execChkValueWrite (req value : Nat) (s : State) : Host.Outcome State Fault Refusal := .next (s.slateWord .sc req 0x690C (value % 2 ^ 32))

/-- TDC_RDIDX_WRITE (R93). -/
def execTdcRdidxWrite (req n value : Nat) (s : State) : Host.Outcome State Fault Refusal := .next (s.slateWord .fd req (0x101C + 32 * n) (value % 2 ^ 32))

/-- ATT_WIN_SELECT (R305): a write to FD_ATT_WIN_SEL. -/
def execAttWinSelect (req seq : Nat) (s : State) : Host.Outcome State Fault Refusal := .next (s.slateWord .fd req 0x7038 (seq % 2 ^ 32))

/-- MSIX_VECTOR_UNMASK (R430): a pending message is sent if its condition still holds. -/
def execMsixVectorUnmask (v : Nat) (s : State) : Host.Outcome State Fault Refusal :=
  .next (if 8 ≤ v || !bit s.msix.masked v then s
    else
      let waits := bit s.msix.pending v && s.vectorCond v
      let s1 := s.setMsix { s.msix with masked := clearBit s.msix.masked v, pending := clearBit s.msix.pending v }
      if waits then s1.signal v else s1)

end Sys2Proof.Machine
end

