-- ==== Sys2Proof/Machine/Start.lean ====
section
/-! DEFINITION. Power good, the stages, the configuration image taking effect, the supply guard, the resets (R377 to R382, R388 to R395). -/

namespace Sys2Proof.Machine

open Sys2Proof

/-! Start (R358, R377, R378, R382). -/

/-- The EEPROM at start (R134, R358): the calibration records with their MED_ASYM and WAVE. One whose CRC fails leaves its fields at zero and is a fault. -/
def State.readEeprom (p : Part) (s : State) : State :=
  if !(s.unit p).fw.eepromOk then (s.faultLog p 0x45 0 0).faultAlert p
  else (s.unit p).links.foldl (fun (t : State) e => match e.2.storedCal with
    | none => t
    | some c => ((t.modLink p e.1 fun l => { l with cal := some c }).putS p (Rg.LINK_MED_ASYM e.1) c.medAsym).putS p (Rg.LINK_WAVE e.1) c.wave) s

/-- The start instant (R377, R378, R382): HT counts from 0, the ROM runs on P0, the EEPROM is read. -/
def State.startUp (p : Part) (s : State) : State :=
  let u := s.unit p
  let s1 := s.setUnit p { u with clock := {}, start := { u.start with on := true, startNow := s.now } }
  ((s1.put p (Rg.PREF_STATE 0) 1).readEeprom p).restage p

/-- POWER_GOOD (R377, R378): the distributor starts; `modules` names the positions at which a module answers over CMIS (R379). -/
def execPowerGood (modules : Nat) (s : State) : Host.Outcome State Fault Refusal :=
  .next (if s.fd.start.on then s
    else ((List.range 80).foldl (fun (t : State) n =>
      if (t.link .fd n).moduleHere = bit modules n then t else t.modLink .fd n fun l => { l with moduleHere := bit modules n }) s).startUp .fd)

/-- SC_RESET_RELEASE (R174, R382): the step core starts; heartbeats start with JOINED 0. -/
def execScResetRelease (s : State) : Host.Outcome State Fault Refusal :=
  .next (if s.sc.start.on then s else (s.setDie { s.die with running := true }).startUp .sc)

/-- The firmware's start (R359): every active prefect runs its role, the spare stands idle, FW_UP sets; the record is the image's own (R371). -/
def State.startFirmware (p : Part) (i : Img) (s : State) : State :=
  let sp := spareIndex p
  let s1 := (List.range sp).foldl (fun (t : State) k => (t.put p (Rg.PREF_STATE k) 2).put p (Rg.PREF_ROLE k) k) s
  let s2 := ((s1.put p (Rg.PREF_STATE sp) 4).put p Rg.START_FW_UP 1).put p Rg.LOAD_FW_VERSION i.version
  let s3 := s2.setFw p (({ (s2.unit p).fw with running := some i, waiting := none } : FwSt).keepRecord p i)
  (s3.fwRegs p).restage p

/-- The pipe fault table restored from the EEPROM (R404). -/
def State.restoreTable (s : State) : State :=
  if !s.fd.fw.eepromOk then s
  else s.dist.spare.eepromTable.foldl (fun (t : State) e =>
    let i := e.1 / 33
    if e.1 % 33 = 32 then t.put .fd (Rg.PIPE_RETIRE_MAP i) e.2 else t.setPipe i { t.pipe i with cells := SMap.set (e.1 % 33) e.2 (t.pipe i).cells }) s

/-- The archive index read at stage 1 (R395): BLOCK_SEQ goes on from the highest retained value, the first new block carries GAP_BEFORE. -/
def State.readArchive (s : State) : State :=
  match s.fd.start.retained, s.dist.arch.arch.getLast? with
  | true, some x => s.setArch { s.dist.arch with nextSeq := (x.block.seq + 1) % 2 ^ 32, gapNext := true }
  | _, _ => s

/-- A unit that has reached the stage at which it votes casts the votes it owes (R313, R378, R382). -/
def State.lateVotes (p : Part) (s : State) : State :=
  if !s.canVote p then s
  else (s.tt p).changes.foldl (fun (t : State) c => match t.chg p c.txn with
    | some d => if d.prepared && d.vote.isNone && !(p = .fd && t.isActiveRoot) then t.ownVote p d else t
    | none => t) s

/-- Every prefect that has a role runs. -/
def State.activesRun (p : Part) (s : State) : Bool :=
  (List.range (spareIndex p)).all fun r => s.roleUp p r

/-- STAGE_ADVANCE (R285, R378, R382, R390): a condition is met. Tier A and the TDCs ready, not within the guard; tier B trained, on `channels` with `gib` GiB each, not within
the guard; every component ready; the step core joined with its roll number confirmed. -/
def execStageAdvance (p : Part) (cond : StageCond) (s : State) : Host.Outcome State Fault Refusal :=
  let st := (s.unit p).start
  .next (if !st.on then s
    else match cond with
    | .tierAReady =>
      if p = .sc || st.tierA || s.dist.spare.stackFailed || s.inGuard p then s
      else
        let s1 := ((s.setStart .fd { st with tierA := true }).restoreTable.readArchive).pipeStates
        match s1.fd.fw.waiting with
        | some i => s1.startFirmware .fd i
        | none => s1.restage .fd
    | .tierBTrained channels gib =>
      if p = .sc || s.dist.variant = .vxd2840 || !st.tierA || st.tierB || s.inGuard p then s
      else
        let n := popCount 16 channels
        let s1 := (s.setStart .fd { st with tierB := true, refresh := false }).put .fd Rg.MEM_CH_PRESENT channels
        s1.setArch { s1.dist.arch with capBlocks := n * gib * 29 * 8192, reserveGib := n * gib / 16, dimmGib := gib }
    | .componentsReady =>
      if p = .sc || st.ready || s.get .fd Rg.START_STAGE < 2 || !s.activesRun .fd then s
      else ((s.setStart .fd { st with ready := true }).restage .fd).lateVotes .fd
    | .joinedConfirmed => if p = .sc then (s.restage .sc).lateVotes .sc else s)

/-! The configuration image (R11, R12, R16, R379). -/

/-- One pair of the image: the field marked "image" with that key takes the value; an encoding that the field does not have, and a seat on a variant that takes none (R16), is
ignored and sets ALERT.RSVD_WRITE. -/
def State.takeField (p : Part) (k v : Nat) (s : State) : State :=
  match s.regAt p (k / 32) with
  | none => s
  | some (_, fs) => match fs.find? fun f => f.lo == k % 32 && f.img with
    | none => s
    | some f => if f.takes v && decide (v < 2 ^ f.width) && !(f = Rg.ROLL_SEAT && ((s.dist.variant != .vxd2880 && v != 0) || 2 < v)) then s.put p f v else s.rsvd p

/-- The ports as the image leaves them (R113, R379): one that no longer runs goes DOWN; a medium that differs ends or starts a hold of R113. -/
def State.portsConfigured (p : Part) (s before : State) : State :=
  (List.range (if p = .fd then 80 else 16)).foldl (fun (t : State) n =>
    let t1 := if before.portEnabled p n && !t.portEnabled p n then t.linkDown p n else t
    if before.optical p n = t1.optical p n then t1 else t1.channelCheck p n) s

/-- CONFIG_TAKES_EFFECT (R379): at the beat boundary after a configuration load each image field takes its value. -/
def execConfigTakesEffect (p : Part) (s : State) : Host.Outcome State Fault Refusal :=
  .next (match (s.unit p).fw.config, (s.unit p).fw.configBeat with
    | some c, some b =>
      let s0 := s.awaitBeat p b
      let s1 := c.fields.foldl (fun (t : State) e => t.takeField p e.1 e.2) (s0.setFw p { (s0.unit p).fw with configBeat := none })
      let s2 := ((s1.put p Rg.START_START_DEFAULTS 0).put p Rg.LOAD_CONFIG_LOADED 1).put p Rg.LOAD_CONFIG_VERSION c.version
      let s3 := s2.portsConfigured p s0
      (match p with
      | .fd =>
        let s4 := if s3.get .fd Rg.ROLL_SEAT = 0 then s3 else s3.setRole 2
        ((List.range 10).foldl (fun (t : State) n => t.outCtrlWritten n s0) (s4.refCtrlWritten s0)).ptpWritten
      | .sc => (List.range s3.die.stations).foldl (fun (t : State) n => t.setStn n { t.stn n with point := t.get .sc Rg.OPS_CURRENT }) s3)
    | _, _ => s)

/-! The supply guard (R388 to R393). -/

/-- WARN, RAIL_WARN, the SUP_WARN_N pins and VIN_MV (R396, R429): `mon` names the monitors below warning, bit n rail n and bit 8 the 12 V input, or SUP_WARN_N[n]. -/
def State.supplyLevels (p : Part) (mon vinMv : Nat) (s : State) : State :=
  let s1 := (s.setStart p { (s.unit p).start with warn := mon, lastWarn := s.now }).putFlag p Rg.SUP_WARN (mon != 0)
  match p with
  | .fd => (s1.put .fd Rg.SUP_RAIL_WARN (if s.dist.variant = .vxd2840 then minusMask 8 mon 64 else mon)).put .fd Rg.SUP_VIN_MV vinMv
  | .sc => (s1.put .sc Rg.SUP_RAIL_WARN (mon % 16)).put .sc Rg.SPIN_SUP_WARN_N (15 - mon % 16)

/-- SUPPLY_WARNING (R389, R390): the monitors below warning change; the first that warns begins an episode. -/
def execSupplyWarning (p : Part) (mon vinMv : Nat) (s : State) : Host.Outcome State Fault Refusal :=
  .next (if !(s.unit p).start.on then s
    else
      let s1 := s.supplyLevels p mon vinMv
      if mon = 0 || s.inGuard p then s1
      else
        let s2 := ((s1.put p Rg.SUP_GUARD 1).put p Rg.SUP_GUARD_SEEN 1).bump p Rg.SUP_GUARD_CNT
        let s3 := s2.setStart p { (s2.unit p).start with guardHt := s2.ht p, guardNow := s2.now, refresh := p = .fd && (s2.dist.variant != .vxd2840) }
        s3.record p { kind := 0x24, arg := 1, hallwide := true })

/-- Calibration records held back are stored (R354, R390). -/
def State.flushStores (p : Part) (s : State) : State :=
  if s.inGuard p || (p = .fd && !s.roleUp .fd 5) then s
  else s.setUnit p { s.unit p with links := (s.unit p).links.map fun e => (e.1, if e.2.storeHeld then { e.2 with storedCal := e.2.cal, storeHeld := false } else e.2) }

/-- GUARD_EXIT (R389, R390): every monitor has held at or above release for 10 ms: the episode ends, its exit record and what was held back are written. -/
def execGuardExit (p : Part) (vinMv : Nat) (s : State) : Host.Outcome State Fault Refusal :=
  .next (if !s.inGuard p then s
    else
      let s1 := (s.awaitNow ((s.unit p).start.lastWarn + 10000000)).supplyLevels p 0 vinMv
      let st := (s1.unit p).start
      let s2 := ((s1.put p Rg.SUP_GUARD 0).put p Rg.SUP_LAST_START (st.guardHt / nsLsb)).put p Rg.SUP_LAST_LEN_US (sat 32 ((s1.now - st.guardNow) / 1000))
      let s3 := (s2.setStart p { st with refresh := false }).record p { kind := 0x24, arg := 0, hallwide := true, conts := [st.guardHt, s2.ht p] }
      let s4 := s3.flushStores p
      if p = .fd then s4.attDmaResume else s4)

/-! Resets (R388, R393 to R395). -/

/-- What a part keeps outside itself: its stepping and EEPROM. -/
def FwSt.rom (fw : FwSt) : FwSt := { stepping := fw.stepping, eepromOk := fw.eepromOk, serial := fw.serial }

/-- The calibration records in the EEPROM, and the modules fitted. -/
def keptLinks (m : SMap Link) : SMap Link := m.map fun e => (e.1, { storedCal := e.2.storedCal, moduleHere := e.2.moduleHere })

/-- A reset that reaches the whole distributor (R395): the EEPROM's content stays, and the archive where it is retained. `cause` is LAST_RESET. -/
def State.resetFd (cause : Nat) (kept : Bool) (s : State) : State :=
  { s with
    fd := { regs := fieldSet Rg.START_LAST_RESET cause (fdIdent s.dist.variant), fw := s.fd.fw.rom, links := keptLinks s.fd.links, start := { retained := kept, refresh := kept } }
    dist := { variant := s.dist.variant, spare := { eepromTable := s.dist.spare.eepromTable }, arch := { arch := if kept then s.dist.arch.arch else [] } }
    msix := {} }

/-- RESET_N_ASSERT (R394, R395): tier B enters self-refresh, the distributor resets 20 µs after the falling edge; the archive survives where the DIMMs stay powered. -/
def execResetNAssert (dimmsKept : Bool) (s : State) : Host.Outcome State Fault Refusal :=
  .next ((s.awaitNow (s.now + 20000)).resetFd 2 (dimmsKept && s.dist.variant != .vxd2840))

/-- SUPPLY_RESET_CROSSING (R388, R393 to R395): the distributor resets at once; the archive survives where it was in self-refresh and its DIMMs stay powered. -/
def execSupplyResetCrossing (dimmsKept : Bool) (s : State) : Host.Outcome State Fault Refusal := .next (s.resetFd 1 (dimmsKept && s.fd.start.refresh))

/-- SC_RESET_ASSERT (R382, R394, R395): the whole step core; die memory lies outside it. -/
def execScResetAssert (s : State) : Host.Outcome State Fault Refusal :=
  let d := s.die
  .next { s with
    sc := { regs := scIdent d.stations d.queues d.tlPorts d.payload d.checker d.pkgPort, fw := s.sc.fw.rom, links := keptLinks s.sc.links }
    die := { stations := d.stations, queues := d.queues, payload := d.payload, checker := d.checker, pkgPort := d.pkgPort, tlPorts := d.tlPorts,
             pkgIndex := d.pkgIndex, pkgDies := d.pkgDies, loopTrim := d.loopTrim, gridCols := d.gridCols } }

/-- PERST_N_ASSERT (R394): the PCIe controller, MSI-X state and the requester latches; mailboxes go on. -/
def execPerstNAssert (s : State) : Host.Outcome State Fault Refusal :=
  .next ((s.setMsix {}).setSlate .fd { s.fd.slate with snaps := [], latches := [] })

/-- TRST_N_ASSERT (R394): only the test logic, which is outside the model. -/
def execTrstNAssert (_p : Part) (s : State) : Host.Outcome State Fault Refusal := .next s

end Sys2Proof.Machine
end

