-- ==== Sys2Proof/Machine/Firmware.lean ====
section
/-! DEFINITION. Loads, the firmware commands, activation, prefect faults and restarts (R351 to R360, R364, R369 to R376, R431). -/

namespace Sys2Proof.Machine

open Sys2Proof

/-! Loading (R359, R360). -/

/-- A load fails; the part stays at its stage. -/
def State.loadFails (p : Part) (e : Nat) (s : State) : State := (s.put p Rg.LOAD_STATE 4).put p Rg.LOAD_ERROR e

/-- An image of a kind has been loaded. -/
def FwSt.hasKind (kind : Nat) (fw : FwSt) : Bool := if kind = 1 then fw.config.isSome else fw.running.isSome || fw.waiting.isSome

/-- A GO in the load registers (R359, R360, R364). -/
def State.loadGo (p : Part) (kind req : Nat) (s : State) : State :=
  if !s.mayWrite p req 0xA00C (1 + 2 * kind) then s.denied p
  else
    let s1 := s.put p Rg.LOAD_KIND kind
    let fw := (s.unit p).fw
    if !(s.unit p).start.on then s1
    else if fw.run.isSome then s1.rsvd p
    else if kind = 0 && fw.config.isNone then s1.loadFails p 7
    else if fw.hasKind kind then s1.loadFails p 9
    else
      let addr := s1.get p Rg.LOAD_LOAD_ADDR_LO * 4096 + s1.get p Rg.LOAD_LOAD_ADDR_HI * 2 ^ 32
      ((s1.setFw p { fw with run := some { kind := kind, addr := addr, len := s1.get p Rg.LOAD_LOAD_LEN } }).put p Rg.LOAD_STATE 1).put p Rg.LOAD_ERROR 0

/-- LOAD_CONFIG (R359): a GO with KIND 1. -/
def execLoadConfig (p : Part) (req : Nat) (s : State) : Host.Outcome State Fault Refusal := .next (s.loadGo p 1 req)

/-- LOAD_FIRMWARE (R359): a GO with KIND 0. -/
def execLoadFirmware (p : Part) (req : Nat) (s : State) : Host.Outcome State Fault Refusal := .next (s.loadGo p 0 req)

/-- LOAD_COMPLETE (R357, R359, R360, R378): DMA and verification end. A configuration image takes effect at the next beat; firmware starts, on a distributor not
before stage 1. -/
def execLoadComplete (p : Part) (fetchOk : Bool) (s : State) : Host.Outcome State Fault Refusal :=
  .next (match (s.unit p).fw.run with
    | none => s
    | some r =>
      let s0 := s.setFw p { (s.unit p).fw with run := none }
      let b := (s.dma p).readN r.addr r.len
      let e := if fetchOk then imageError p (s.unit p).fw.stepping r.kind r.len b else 6
      if e != 0 then s0.loadFails p e
      else
        let i := parseImage r.addr b
        let s1 := s0.put p Rg.LOAD_STATE 3
        let fw := (s1.unit p).fw
        if r.kind = 1 then s1.setFw p { fw with config := some i, configBeat := some (s1.beat p + 1) }
        else
          let s2 := s1.put p Rg.LOAD_FW_LOADED 1
          if p = .sc || (s2.unit p).start.tierA then (s2.startFirmware p i).lateVotes p else s2.setFw p { fw with waiting := some i })

/-! The staged image (R370 to R373). -/

/-- A committed activation names the staged image. -/
def FwSt.stagedCommitted (fw : FwSt) : Bool :=
  match fw.staged with
  | some i => fw.committed.any (fun e => e.2 == i.imageDigest) || fw.deferred == some i.imageDigest
  | none => false

/-- FW_STAGE (0x90; R370, R376): image address, length. -/
def execFwStage (m : MbGo) (s : State) : Host.Outcome State Fault Refusal :=
  let p := m.part
  .next (s.mailbox m 0x90 (some 0) [8, 4] none fun a t =>
    let addr := a.getD 0 0
    let b := (t.dma p).readN addr (a.getD 1 0)
    if addr % 4096 != 0 then (.badArg, t)
    else if (t.unit p).fw.stagedCommitted then (.refuse, t)
    else if imageError p (t.unit p).fw.stepping 0 (a.getD 1 0) b != 0 then (.badArg 9, t)
    else
      let i := parseImage addr b
      (.ok [(4, i.version), (2, i.schema), (8, i.imageDigest)], (t.setFw p { (t.unit p).fw with staged := some i }).fwRegs p))

/-- FW_UNSTAGE (0x96; R370, R376). -/
def execFwUnstage (m : MbGo) (s : State) : Host.Outcome State Fault Refusal :=
  let p := m.part
  .next (s.mailbox m 0x96 (some 0) [] none fun _ t =>
    if (t.unit p).fw.stagedCommitted then (.refuse, t) else (.ok [], (t.setFw p { (t.unit p).fw with staged := none }).fwRegs p))

/-- FW_ACTIVATE (0x91; R320, R372 to R374, R376, R390): the digest's first 8 bytes. -/
def execFwActivate (m : MbGo) (s : State) : Host.Outcome State Fault Refusal :=
  let p := m.part
  .next (s.mailbox m 0x91 (some 0) [8] none fun a t =>
    if ((t.unit p).fw.staged.map Img.imageDigest) != some (a.getD 0 0) then (.badArg, t)
    else if t.emergency p || t.emergHold p then (.refuse 8, t)
    else if t.liveJob p || t.inGuard p then (.refuse, t)
    else if !t.acceptOk p then (.refuse 10, t)
    else (.wait [], (t.startActivation p).fwRegs p))

/-! Cold sections (R355, R371). -/

/-- The section of a role. -/
def sectionOf (p : Part) (role : Nat) : Nat := if p = .fd then role + 1 else role + 0x11

/-- Every command in flight completes ABORTED. -/
def State.abortWaiting (p : Part) (s : State) : State :=
  let s1 := if p = .fd then s.setHall { s.dist.hall with formBox := none } else s
  (List.range 8).foldl (fun (t : State) b => t.mbComplete p b .aborted) s1

/-- The undecided changes that the unit prepared draw a revocation NO with FW_RESTART. -/
def State.revokeAll (p : Part) (s : State) : State :=
  (s.tt p).changes.foldl (fun (t : State) c => match t.chg p c.txn with
    | some d => if d.prepared && !d.sentNo then t.combineNo p { d with vote := some 3 } 3 (t.ownRoll p) (t.ht32 p) else t
    | none => t) s

/-- What a cold start of each section does (R371, the outline's last column). -/
def State.coldEffect (p : Part) (sec : Nat) (s : State) : State :=
  let x := s.dist.ptp
  if sec = 1 || sec = 0x11 then (s.setSlate p { (s.unit p).slate with jobTokens := [] }).abortWaiting p
  else if p = .sc then s
  else if sec = 2 then
    let s1 := s.setDist { s.dist with ptp := { x with hist := [], run := 0 }, refA := { s.dist.refA with accept := none }, refB := { s.dist.refB with accept := none },
                                      hold := { s.dist.hold with gates := [], learned := 0, quality := 0 } }
    ((s1.put .fd Rg.REFS_HOLD_QUALITY 0).put .fd Rg.PTP_PTP_LOCKED 0).acceptFlag
  else if sec = 3 then s.revokeAll .fd
  else if sec = 4 then
    (if s.flag .fd Rg.SB_MIRRORED then s else ((s.setPower { s.dist.power with upAt := none, downAt := none }).loadTimer true).loadTimer false)
  else if sec = 5 then (s.setSpare { s.dist.spare with drillDue := false }).setArch { s.dist.arch with matches_ := [] }
  else if sec = 6 then (s.setUnit .fd { s.fd with links := s.fd.links.map fun (e : Nat × Link) => (e.1, { e.2 with cal := if s.fd.fw.eepromOk then e.2.storedCal else none }) }).discardRuns
  else s

/-- A component starts cold (R355): its effects, an FW_EVENT record, the alert. -/
def State.coldStart (p : Part) (i sec : Nat) (s : State) : State :=
  (((s.coldEffect p sec).fwEvent p i 9).put p Rg.FSUM_COLD_START 1).faultAlert p

/-- The sections found bad start cold. -/
def State.coldStarts (p : Part) (i : Nat) (secs : List Nat) (s : State) : State :=
  (secs.foldl (fun (t : State) k => t.coldStart p i k) s).setPref p i { s.pref p i with cold := secs }

/-! Activation (R374). -/

/-- The prefects that restart or activate run again. -/
def State.prefectsRun (p : Part) (s : State) : State :=
  (List.range (prefectCount p)).foldl (fun (t : State) i => if t.get p (Rg.PREF_STATE i) = 3 || t.get p (Rg.PREF_STATE i) = 6 then t.put p (Rg.PREF_STATE i) 2 else t) s

/-- Commands that had not taken effect when their prefect went down complete ABORTED after the restart (R369): HALL_FORM before its load instant, a read of the
archive that waits. -/
def State.abortedBy (role : Nat) (s : State) : State :=
  if role = 1 then (if s.dist.hall.formBox.isNone then s.mbCompleteAll .fd 0x05 .aborted else s)
  else if role = 4 then s.mbCompleteAll .fd 0x80 .aborted
  else s

/-- The commands of every role of the distributor, and the PREFECT_RESTARTs, after an activation. -/
def State.afterActivation (p : Part) (s : State) : State :=
  let s1 := if p = .fd then (s.abortedBy 1).abortedBy 4 else s
  ((s1.mbCompleteAll p 0x93 (.ok [])).flushStores p).releaseHeldWrites p

/-- ACTIVATION_COMPLETE (R355, R370, R374, R376): the new image runs, sections in `bad` start cold, held writes are applied. An image in die memory that no longer
has its SHA-384 is not activated: the old one goes on (log entry 43). -/
def execActivationComplete (p : Part) (bad : List Nat) (s : State) : Host.Outcome State Fault Refusal :=
  .next (match (s.unit p).fw.activating, (s.unit p).fw.staged with
    | some _, some i =>
      let same := p = .fd || (imageHash (s.dieMem.readN i.addr (i.len + 96))).toNat == i.digest
      let s1 := (s.prefectsRun p).setFw p { (s.unit p).fw with activating := none, staged := none }
      if same then
        let s2 := s1.setFw p (({ (s1.unit p).fw with running := some i } : FwSt).keepRecord p i)
        let s3 := (s2.put p Rg.LOAD_FW_VERSION i.version).restage p
        let s4 := bad.foldl (fun (t : State) k => if (sectionIds p).contains k then t.coldStart p ((t.prefectOf p (k - sectionOf p 0)).getD 0) k else t) s3
        ((s4.mbCompleteAll p 0x91 (.ok [])).afterActivation p).fwRegs p
      else (((s1.restage p).mbCompleteAll p 0x91 (.badArg 9)).afterActivation p).fwRegs p
    | _, _ => s)

/-- DEFERRED_ACTIVATION (R320, R373): 30 s after the emergency, once no prefect restarts, the deferred activation runs. -/
def execDeferredActivation (p : Part) (s : State) : Host.Outcome State Fault Refusal :=
  .next (match (s.unit p).fw.deferred with
    | none => s
    | some d =>
      let s := if s.emergency p then s else match (s.unit p).emerg.endNow with
        | some t => s.awaitNow (t + 30000000000)
        | none => s
      if s.emergency p || s.emergHold p || s.restarting p || s.activating p then s
      else if ((s.unit p).fw.staged.map Img.imageDigest) = some d && s.acceptOk p then (s.startActivation p).fwRegs p
      else (s.setFw p { (s.unit p).fw with deferred := none }).fwRegs p)

/-! Status and tokens (R364, R376). -/

/-- FW_STATUS (0x92). -/
def execFwStatus (m : MbGo) (s : State) : Host.Outcome State Fault Refusal :=
  let p := m.part
  .next (s.mailbox m 0x92 (some 0) [] none fun _ t =>
    let fw := (t.unit p).fw
    let i := fw.staged.getD {}
    (.list [(4, t.get p Rg.LOAD_FW_VERSION), (4, t.get p Rg.LOAD_CONFIG_VERSION), (2, (fw.running.getD {}).schema), (4, i.version),
        (8, if fw.staged.isSome then i.imageDigest else 0)]
      ((List.range (prefectCount p)).map fun k => [(1, t.get p (Rg.PREF_STATE k)), (1, t.get p (Rg.PREF_ROLE k))]), t))

/-- TOKEN_SET (0x94): JOB, TOKEN; the admin class only. -/
def execTokenSet (m : MbGo) (s : State) : Host.Outcome State Fault Refusal :=
  let p := m.part
  .next (s.mailbox m 0x94 (some 0) [1, 4] none fun a t =>
    let j := a.getD 0 0
    let k := a.getD 1 0
    let sl := (t.unit p).slate
    if 63 < j then (.badArg, t)
    else (.ok [], t.setSlate p { sl with jobTokens := if k = 0 then SMap.erase j sl.jobTokens else SMap.set j k sl.jobTokens }))

/-- CONFIG_READ (0x95): CONFIG_VERSION, serial number, EEPROM CRC state. -/
def execConfigRead (m : MbGo) (s : State) : Host.Outcome State Fault Refusal :=
  let p := m.part
  .next (s.mailbox m 0x95 (some 0) [] none fun _ t =>
    let fw := (t.unit p).fw
    (.ok [(4, t.get p Rg.LOAD_CONFIG_VERSION), (8, if fw.eepromOk then fw.serial else 0), (1, ofBool fw.eepromOk)], t))

/-- The codes that R431 gives to a part. -/
def knownCode (p : Part) (c : Nat) : Bool :=
  let within := fun lo hi => decide (lo ≤ c) && decide (c ≤ hi)
  within 0x0E 0x10 || within 0x20 0x28 || within 0x40 0x46 || within 0x60 0x63 || within 0x70 0x73 || within 0x80 0x83 || within 0x90 0x96 || within 0xA0 0xA5 || c == 0xF0
    || (if p = .fd then within 0x05 0x0D || c == 0x14 || c == 0x29 || c == 0x2A else within 0x11 0x13)

/-- The codes of a unit that this part lacks (R3, R7): the load shaper's on a VXD-2860 or VXD-2840, the payload engine's on a step core without one. -/
def State.lacksCode (p : Part) (c : Nat) (s : State) : Bool :=
  match p with
  | .fd => s.dist.variant != .vxd2880 && decide (0x70 ≤ c) && decide (c ≤ 0x7F)
  | .sc => !s.die.payload && decide (0x40 ≤ c) && decide (c ≤ 0x5F)

/-- The other part. -/
def otherPart (p : Part) : Part := if p = .fd then .sc else .fd

/-- UNKNOWN_COMMAND (R3, R7, R368, R431): a code that this part does not have. -/
def execUnknownCommand (m : MbGo) (code : Nat) (s : State) : Host.Outcome State Fault Refusal :=
  .next (if knownCode m.part code then s
    else s.mailbox m code (some 0) [] none fun _ t => (if knownCode (otherPart m.part) code || t.lacksCode m.part code then .noCap else .badArg 2, t))

/-! Prefect faults and restarts (R351 to R355). -/

/-- PREFECT_RESTART (0x93; R352, R376). -/
def execPrefectRestart (m : MbGo) (s : State) : Host.Outcome State Fault Refusal :=
  let p := m.part
  .next (s.mailbox m 0x93 (some 0) [1] none fun a t =>
    let i := a.getD 0 0
    let st := t.get p (Rg.PREF_STATE i)
    if prefectCount p ≤ i then (.badArg, t)
    else if st = 4 || st = 5 || i = 0 || t.prefRole p i = 0 then (.refuse, t)
    else (.wait [i], (t.prefectDown p i 5).restage p))

/-- A prefect that runs or activates can fault. -/
def State.canFault (p : Part) (i : Nat) (s : State) : Bool := decide (i < prefectCount p) && (s.get p (Rg.PREF_STATE i) == 2 || s.get p (Rg.PREF_STATE i) == 6)

/-- WATCHDOG_EXPIRY (R352, R353): 2 ms after the kernel last serviced it. -/
def execWatchdogExpiry (p : Part) (i : Nat) (s : State) : Host.Outcome State Fault Refusal := .next (if s.canFault p i then (s.prefectFail p i 1).restage p else s)

/-- PREFECT_FAULT_RESTART (R352, R353). -/
def execPrefectFaultRestart (p : Part) (i : Nat) (cause : RestartCause) (s : State) : Host.Outcome State Fault Refusal :=
  .next (if s.canFault p i then (s.prefectFail p i (match cause with
    | .kernelFault => 2
    | .escalation => 3
    | .sramUe => 4)).restage p else s)

/-- COMPONENT_FAULT (R351): component `comp` of a prefect traps; the third time within 10 minutes its prefect restarts instead. -/
def execComponentFault (p : Part) (i comp : Nat) (s : State) : Host.Outcome State Fault Refusal :=
  let x := s.pref p i
  let times := s.now :: (SMap.get [] comp x.compFaults).filter fun t => decide (s.now < t + 600000000000)
  .next (if !s.canFault p i then s
    else if times.length < 3 then
      ((s.setPref p i { x with compFaults := SMap.set comp times x.compFaults }).bump p (Rg.PREF_COMP_FAULTS i)).fwEvent p i 7
    else ((s.setPref p i { x with compFaults := SMap.erase comp x.compFaults }).prefectFail p i 3).restage p)

/-- PREFECT_RESTART_COMPLETE (R73, R352, R354, R355, R363, R369): the prefect runs again, the sections of its role in `bad` start cold, held writes are applied,
commands that waited for it complete. -/
def execPrefectRestartComplete (p : Part) (i : Nat) (bad : List Nat) (s : State) : Host.Outcome State Fault Refusal :=
  .next (if s.get p (Rg.PREF_STATE i) != 3 || prefectCount p ≤ i then s
    else
      let role := s.prefRole p i
      let s1 := (s.put p (Rg.PREF_STATE i) (if s.activating p then 6 else 2)).coldStarts p i (bad.filter (· == sectionOf p role))
      let s2 := (s1.mbWaiting p 0x93).foldl (fun (t : State) b => match (t.mail p b).wait with
        | some w => if w.args == [i] then t.mbComplete p b (.ok []) else t
        | none => t) s1
      let s3 := if p = .fd then s2.abortedBy role else s2
      ((s3.flushStores p).releaseHeldWrites p).restage p)

end Sys2Proof.Machine
end

