-- ==== Sys2Proof/Machine/Formation.lean ====
section
/-! DEFINITION. The load instant of a formation (R42 to R44, R432). -/

namespace Sys2Proof.Machine

open Sys2Proof

/-- The homing map of a formation: bit 64·k + j is leaf pair (k, j); without an argument every pair is dual (R432). -/
def homingOf (b : Option (List Byte)) : SMap Bool :=
  match b with
  | none => []
  | some l => (List.range 2048).filterMap fun i => if bit (ofLe ((l.drop (i / 8)).take 1)) (i % 8) then none else some (i, false)

/-- The load instant of a formation that waits (R42): without a selected 1PPS reference the beat boundary that HALL_FORM found; with one, the first PPS edge of that
reference at or after 2 s from the command, predicted from its last edge. A load that comes after that edge takes the next one. -/
def State.formInstant (s : State) : Nat :=
  match refOf (s.get .fd Rg.REFS_SELECTED) with
  | some x =>
    if s.dist.hall.formKind < 2 then s.dist.hall.formAt
    else
      let edge := (s.refSt x).edgeHt / nsLsb
      let from_ := max s.dist.hall.formAt (s.htNs .fd)
      from_ + (edge + 1000000000 - from_ % 1000000000) % 1000000000
  | none => s.dist.hall.formAt

/-- HALL_FORM_LOAD (R42 to R44): at the load instant HT is loaded by the epoch kind with fraction 0, FORMED and JOINED set, the unit
becomes the active root, and HALL_FORM completes. -/
def execHallFormLoad (s : State) : Host.Outcome State Fault Refusal :=
  let h := s.dist.hall
  match h.formBox with
  | none => .next s
  | some box =>
    let at_ := s.formInstant
    let s := s.awaitHt .fd at_
    if s.htNs .fd < at_ then .next s
    else
      let tai := ((s.dist.ptp.taiAt at_).getD 0).toNat
      let ns := if h.formKind = 3 then (tai + 500000000) / 1000000000 * 1000000000 else 0
      let label := if h.formKind = 1 then tai else 0
      let s1 := s.loadHt .fd (ns * nsLsb)
      let s2 := ((((s1.put .fd Rg.HT_FORMED 1).put .fd Rg.HT_JOINED 1).put .fd Rg.HT_ALIGNED 1).put .fd Rg.HT_EPOCH_KIND h.formKind)
      let s3 := ((s2.put .fd (Rg.EPL_EPOCH_LABEL 0) label).put .fd (Rg.EPL_EPOCH_LABEL 1) (label / 2 ^ 32))
      let s4 := ((s3.setRole 1).put .fd Rg.ROLL_ROLL_VALID 1).put .fd Rg.ROLL_ROLL 0
      let s5 := s4.setHold { s4.dist.hold with entryHt := s4.ht .fd }
      let sel := s5.get .fd Rg.REFS_SELECTED != 0
      let s6 := (s5.put .fd Rg.REFS_SEL_STATE (ofBool sel)).putFlag .fd Rg.REFS_LOCK sel
      let s7 := s6.setHall { s6.dist.hall with formBox := none, homingMap := homingOf h.formHoming }
      .next (((s7.rebaseAll (s.ht .fd) (s.flag .fd Rg.HT_JOINED)).muteOuts).mbComplete .fd box (.ok [(1, h.formKind), (8, ns)]))

end Sys2Proof.Machine
end

