-- ==== Sys2Proof/Machine/SlateCmds.lean ====
section
/-! DEFINITION. Slate writes, and what their GO bits start: mailbox commands (R365, R366, R431) and loads (R359). -/

namespace Sys2Proof.Machine

open Sys2Proof

/-- A mailbox command's meaning. -/
abbrev Command := MbGo → State → Host.Outcome State Fault Refusal

/-- The commands whose code means the same on both parts (R431). What peer lanes say is no argument of DRILL_NOW: submitted by a write, its gates that need it are closed (log
entry 87). -/
def commonCommands : List (Nat × Command) :=
  [(0x05, execHallForm), (0x06, execRefAccept), (0x07, execOutRealign), (0x08, execSubtreeRejoin), (0x09, execWallRead), (0x0A, execRefAcceptCancel),
    (0x0B, execTdcRingSet), (0x0C, execTdcCalNow), (0x0D, execTdcCalRead), (0x0E, execLinkCal), (0x0F, execLinkSwap), (0x10, execLinkReset)]
    ++ [(0x11, execOppSwitch), (0x12, execOppCancel), (0x13, execStationRead), (0x14, execRootPromote), (0x29, execJobCreate), (0x2A, execJobEnd),
    (0x40, execPipeRead), (0x41, execPayRead), (0x42, execSbAlloc), (0x43, execSbFree), (0x44, execSbQuota), (0x45, execSbRead)]
    ++ [(0x46, execSbCloseLog), (0x60, execTtSubmit), (0x61, execTtResult), (0x62, execTtCancel), (0x63, execTtRead), (0x70, execPwrRead), (0x71, execPwrJobSet),
    (0x72, execPwrRecess), (0x73, execPwrResume), (0x80, execAttDma), (0x81, execAttFind), (0x82, execAttQuota)]
    ++ [(0x83, execAttFlush), (0x90, execFwStage), (0x91, execFwActivate), (0x92, execFwStatus), (0x93, execPrefectRestart), (0x94, execTokenSet),
    (0x95, execConfigRead), (0x96, execFwUnstage), (0xA0, (fun m s => execDrillNow m false false s)), (0xA1, execDrillRead), (0xA2, execSelftest),
    (0xA3, execPipeUnretire)]
    ++ [(0xA4, execRcRead), (0xA5, execRcClear), (0xF0, execFaultRead)]

/-- The commands of codes 0x20 to 0x28, which differ by part (R431). -/
def partCommands (p : Part) : List (Nat × Command) :=
  match p with
  | .fd => [(0x20, execHbarAlloc), (0x21, execHbarFree), (0x22, execHbarSet), (0x23, execHbarResolve), (0x24, execHbarRead), (0x25, execBellRing),
      (0x26, execJobHallStatus), (0x27, execSuspectRead), (0x28, execHbarDump)]
  | .sc => [(0x20, execBarrierCreate), (0x21, execBarrierFree), (0x22, execCtxBind), (0x23, execCtxSwitch), (0x24, execCtxClear), (0x25, execSlotRead),
      (0x26, execCtxQuota), (0x27, execHostWaitCancel), (0x28, execMonDump)]

/-- A submitted command by its code (R366, R368). -/
def runCommand (code : Nat) (m : MbGo) (s : State) : Host.Outcome State Fault Refusal :=
  match (partCommands m.part ++ commonCommands).find? fun e => e.1 == code with
  | some e => e.2 m s
  | none => execUnknownCommand m code s

/-- What GO of MB_CTRL submits: the mailbox's CODE with the ARG_LEN bytes of its data area. -/
def State.submission (p : Part) (req box : Nat) (s : State) : MbGo :=
  { part := p, box := box, tag := s.get p (Rg.MB_TAG box), irq := s.flag p (Rg.MB_IRQ_EN box), dma := s.flag p (Rg.MB_DMA_RESULT box), req := req,
    args := (s.mail p box).data.readN 0 (s.get p (Rg.MB_ARG_LEN box)) }

/-- The state that a command leaves. -/
def State.after (o : Host.Outcome State Fault Refusal) (s : State) : State :=
  match o with
  | .next t => t
  | _ => s

/-- One word of a slate write with the action that its GO performs (R9): a mailbox command, unless the device owns the mailbox, or a load. -/
def State.writeWord (p : Part) (req off v : Nat) (s : State) : State :=
  let t := s.slateWord p req off v
  let box := (off - 0x8800) / 32
  if !s.mayWrite p req off v then t
  else if 0x8800 ≤ off && off < 0x8900 && off % 32 = 0 && bit v 31 && !s.flag p (Rg.MB_OWNED box) then
    t.after (runCommand (t.get p (Rg.MB_CODE box)) (t.submission p req box) t)
  else if off = 0xA00C && bit v 0 then t.after (if bit v 1 then execLoadConfig p req t else execLoadFirmware p req t)
  else t

/-- REGISTER_WRITE (R9 to R11, R364, R419, R420): a write of 1, 2, 4, 8 or 16 bytes; narrower than a register it is ignored, wider it is applied register by
register in ascending order. -/
def execRegisterWrite (p : Part) (req off size value : Nat) (s : State) : Host.Outcome State Fault Refusal :=
  .next (if 0x8000 ≤ off && off < 0x8800 then s.mailWrite p req off (leBytes size value)
    else if size < 4 then s.rsvd p
    else (List.range (size / 4)).foldl (fun (t : State) i => t.writeWord p req (off + 4 * i) (bits value (32 * i) 32)) s)

end Sys2Proof.Machine
end

