-- ==== Sys2Proof/Machine/Dispatch.lean ====
section
/-! DEFINITION. One arm per command: a direct call of its meaning. -/

namespace Sys2Proof.Machine

open Sys2Proof

def exec (i : Instr) (s : State) : Host.Outcome State Fault Refusal :=
  match i with
  | .powerGood modules => Sys2Proof.Machine.execPowerGood modules s
  | .stageAdvance p cond => Sys2Proof.Machine.execStageAdvance p cond s
  | .configTakesEffect p => Sys2Proof.Machine.execConfigTakesEffect p s
  | .scResetRelease => Sys2Proof.Machine.execScResetRelease s
  | .resetNAssert dimmsKept => Sys2Proof.Machine.execResetNAssert dimmsKept s
  | .perstNAssert => Sys2Proof.Machine.execPerstNAssert s
  | .trstNAssert p => Sys2Proof.Machine.execTrstNAssert p s
  | .supplyResetCrossing dimmsKept => Sys2Proof.Machine.execSupplyResetCrossing dimmsKept s
  | .supplyWarning p mon vinMv => Sys2Proof.Machine.execSupplyWarning p mon vinMv s
  | .guardExit p vinMv => Sys2Proof.Machine.execGuardExit p vinMv s
  | .ladderDescend p u unit => Sys2Proof.Machine.execLadderDescend p u unit s
  | .ladderWake p u unit => Sys2Proof.Machine.execLadderWake p u unit s
  | .loadConfig p req => Sys2Proof.Machine.execLoadConfig p req s
  | .loadFirmware p req => Sys2Proof.Machine.execLoadFirmware p req s
  | .loadComplete p fetchOk => Sys2Proof.Machine.execLoadComplete p fetchOk s
  | .fwStage m => Sys2Proof.Machine.execFwStage m s
  | .fwActivate m => Sys2Proof.Machine.execFwActivate m s
  | .activationComplete p bad => Sys2Proof.Machine.execActivationComplete p bad s
  | .deferredActivation p => Sys2Proof.Machine.execDeferredActivation p s
  | .fwStatus m => Sys2Proof.Machine.execFwStatus m s
  | .prefectRestart m => Sys2Proof.Machine.execPrefectRestart m s
  | .tokenSet m => Sys2Proof.Machine.execTokenSet m s
  | .configRead m => Sys2Proof.Machine.execConfigRead m s
  | .fwUnstage m => Sys2Proof.Machine.execFwUnstage m s
  | .unknownCommand m code => Sys2Proof.Machine.execUnknownCommand m code s
  | .componentFault p n comp => Sys2Proof.Machine.execComponentFault p n comp s
  | .watchdogExpiry p n => Sys2Proof.Machine.execWatchdogExpiry p n s
  | .prefectFaultRestart p n cause => Sys2Proof.Machine.execPrefectFaultRestart p n cause s
  | .prefectRestartComplete p n bad => Sys2Proof.Machine.execPrefectRestartComplete p n bad s
  | .emulatedRead p req off late => Sys2Proof.Machine.execEmulatedRead p req off late s
  | .emulatedWrite p req off value => Sys2Proof.Machine.execEmulatedWrite p req off value s
  | .shadowTimeout p => Sys2Proof.Machine.execShadowTimeout p s
  | .registerWrite p req off size value => Sys2Proof.Machine.execRegisterWrite p req off size value s
  | .counterReadClear p req off size => Sys2Proof.Machine.execCounterReadClear p req off size s
  | .tokenWrite p req value => Sys2Proof.Machine.execTokenWrite p req value s
  | .htSnapshotRead p req size => Sys2Proof.Machine.execHtSnapshotRead p req size s
  | .hallForm m => Sys2Proof.Machine.execHallForm m s
  | .hallFormLoad => Sys2Proof.Machine.execHallFormLoad s
  | .htWrap p => Sys2Proof.Machine.execHtWrap p s
  | .holdoverBeat => Sys2Proof.Machine.execHoldoverBeat s
  | .steerBeat p => Sys2Proof.Machine.execSteerBeat p s
  | .temperatureRead temp => Sys2Proof.Machine.execTemperatureRead temp s
  | .modelLearn y => Sys2Proof.Machine.execModelLearn y s
  | .refGateEnd x g => Sys2Proof.Machine.execRefGateEnd x g s
  | .refDisqualify x breach => Sys2Proof.Machine.execRefDisqualify x breach s
  | .revertiveWaitEnd x => Sys2Proof.Machine.execRevertiveWaitEnd x s
  | .refAccept m => Sys2Proof.Machine.execRefAccept m s
  | .refAcceptCancel m => Sys2Proof.Machine.execRefAcceptCancel m s
  | .rejoinComplete => Sys2Proof.Machine.execRejoinComplete s
  | .subtreeRejoin m => Sys2Proof.Machine.execSubtreeRejoin m s
  | .ptpExchange x => Sys2Proof.Machine.execPtpExchange x s
  | .ptpTimeout => Sys2Proof.Machine.execPtpTimeout s
  | .wallRead m => Sys2Proof.Machine.execWallRead m s
  | .ppsOutPulse n => Sys2Proof.Machine.execPpsOutPulse n s
  | .bellOutPulse n bellHt word => Sys2Proof.Machine.execBellOutPulse n bellHt word s
  | .outRealign m => Sys2Proof.Machine.execOutRealign m s
  | .outRealignDone n => Sys2Proof.Machine.execOutRealignDone n s
  | .tdcEdge n src coarse rising bin twin => Sys2Proof.Machine.execTdcEdge n src coarse rising bin twin s
  | .tdcGapQueue n => Sys2Proof.Machine.execTdcGapQueue n s
  | .tdcGateEnd n => Sys2Proof.Machine.execTdcGateEnd n s
  | .tdcDma records => Sys2Proof.Machine.execTdcDma records s
  | .tdcRdidxWrite req n value => Sys2Proof.Machine.execTdcRdidxWrite req n value s
  | .tdcRingSet m => Sys2Proof.Machine.execTdcRingSet m s
  | .tdcCalNow m => Sys2Proof.Machine.execTdcCalNow m s
  | .tdcCalRead m => Sys2Proof.Machine.execTdcCalRead m s
  | .tdcCalStart a temp => Sys2Proof.Machine.execTdcCalStart a temp s
  | .tdcCalTableDone a hits => Sys2Proof.Machine.execTdcCalTableDone a hits s
  | .tdcCheckTimeout a => Sys2Proof.Machine.execTdcCheckTimeout a s
  | .mainsZcEdge p stamp levels => Sys2Proof.Machine.execMainsZcEdge p stamp levels s
  | .mainsGateEnd => Sys2Proof.Machine.execMainsGateEnd s
  | .mainsLineEdge alarm level stamp held => Sys2Proof.Machine.execMainsLineEdge alarm level stamp held s
  | .frameLaunch p n => Sys2Proof.Machine.execFrameLaunch p n s
  | .frameReceive p n x => Sys2Proof.Machine.execFrameReceive p n x s
  | .signalDetect p n farOffers => Sys2Proof.Machine.execSignalDetect p n farOffers s
  | .lossOfSignal p n => Sys2Proof.Machine.execLossOfSignal p n s
  | .trainingTimeout p n => Sys2Proof.Machine.execTrainingTimeout p n s
  | .rangingTimeout p n => Sys2Proof.Machine.execRangingTimeout p n s
  | .suspectTimeout p n => Sys2Proof.Machine.execSuspectTimeout p n s
  | .suspectClear p n => Sys2Proof.Machine.execSuspectClear p n s
  | .residueExceeded p n => Sys2Proof.Machine.execResidueExceeded p n s
  | .linkBackoffEnd p n => Sys2Proof.Machine.execLinkBackoffEnd p n s
  | .retransmitTimeout p n => Sys2Proof.Machine.execRetransmitTimeout p n s
  | .stepCoreHoldoverReturn => Sys2Proof.Machine.execStepCoreHoldoverReturn s
  | .carryingRoleMove n pkgs take => Sys2Proof.Machine.execCarryingRoleMove n pkgs take s
  | .linkCal m => Sys2Proof.Machine.execLinkCal m s
  | .linkSwap m => Sys2Proof.Machine.execLinkSwap m s
  | .linkReset m => Sys2Proof.Machine.execLinkReset m s
  | .reflectRunStart p n => Sys2Proof.Machine.execReflectRunStart p n s
  | .calSlice p n sent reflected => Sys2Proof.Machine.execCalSlice p n sent reflected s
  | .reflectRunEnd p n => Sys2Proof.Machine.execReflectRunEnd p n s
  | .spareReady p n ok => Sys2Proof.Machine.execSpareReady p n ok s
  | .swapAtBoundary p n => Sys2Proof.Machine.execSwapAtBoundary p n s
  | .paySplitChange p n => Sys2Proof.Machine.execPaySplitChange p n s
  | .pkgSlotReceive n x => Sys2Proof.Machine.execPkgSlotReceive n x s
  | .heartbeatSend trip => Sys2Proof.Machine.execHeartbeatSend trip s
  | .heartbeatReceive n edges tap flips => Sys2Proof.Machine.execHeartbeatReceive n edges tap flips s
  | .heartbeatMissing n edges => Sys2Proof.Machine.execHeartbeatMissing n edges s
  | .regionClockMissing n => Sys2Proof.Machine.execRegionClockMissing n s
  | .stationEventCommit delayed => Sys2Proof.Machine.execStationEventCommit delayed s
  | .strobeFire n k edges => Sys2Proof.Machine.execStrobeFire n k edges s
  | .strobeCfgWrite req k w value => Sys2Proof.Machine.execStrobeCfgWrite req k w value s
  | .strobeEnWrite req n value => Sys2Proof.Machine.execStrobeEnWrite req n value s
  | .oppEvaluate temp droop req reqValid => Sys2Proof.Machine.execOppEvaluate temp droop req reqValid s
  | .oppSwitch m => Sys2Proof.Machine.execOppSwitch m s
  | .oppCancel m => Sys2Proof.Machine.execOppCancel m s
  | .stationRead m => Sys2Proof.Machine.execStationRead m s
  | .oppReadyAssert => Sys2Proof.Machine.execOppReadyAssert s
  | .oppReadyTimeout => Sys2Proof.Machine.execOppReadyTimeout s
  | .oppSelDrive n edges => Sys2Proof.Machine.execOppSelDrive n edges s
  | .oppGo n edges => Sys2Proof.Machine.execOppGo n edges s
  | .queueCmdAccept q cmd => Sys2Proof.Machine.execQueueCmdAccept q cmd s
  | .nop q edges => Sys2Proof.Machine.execNop q edges s
  | .arrive q edges => Sys2Proof.Machine.execArrive q edges s
  | .wait q edges => Sys2Proof.Machine.execWait q edges s
  | .arriveWait q edges => Sys2Proof.Machine.execArriveWait q edges s
  | .fence q edges => Sys2Proof.Machine.execFence q edges s
  | .drainAck q => Sys2Proof.Machine.execDrainAck q s
  | .payloadArrive q edges => Sys2Proof.Machine.execPayloadArrive q edges s
  | .signalHost q edges => Sys2Proof.Machine.execSignalHost q edges s
  | .waitHost q edges => Sys2Proof.Machine.execWaitHost q edges s
  | .waitBell q edges => Sys2Proof.Machine.execWaitBell q edges s
  | .waitBellRelease q edges => Sys2Proof.Machine.execWaitBellRelease q edges s
  | .waitTime q edges => Sys2Proof.Machine.execWaitTime q edges s
  | .waitTimeRelease q edges => Sys2Proof.Machine.execWaitTimeRelease q edges s
  | .stamp q edges => Sys2Proof.Machine.execStamp q edges s
  | .reservedOpcode q edges => Sys2Proof.Machine.execReservedOpcode q edges s
  | .queueBind req q ctx => Sys2Proof.Machine.execQueueBind req q ctx s
  | .hostArrive req epoch => Sys2Proof.Machine.execHostArrive req epoch s
  | .hostWaitArm req epoch => Sys2Proof.Machine.execHostWaitArm req epoch s
  | .hostFlagSet req c hi flags => Sys2Proof.Machine.execHostFlagSet req c hi flags s
  | .hostFlagWithdraw req c hi flags => Sys2Proof.Machine.execHostFlagWithdraw req c hi flags s
  | .directCreate req => Sys2Proof.Machine.execDirectCreate req s
  | .directFree req => Sys2Proof.Machine.execDirectFree req s
  | .barrierCreate m => Sys2Proof.Machine.execBarrierCreate m s
  | .barrierFree m => Sys2Proof.Machine.execBarrierFree m s
  | .ctxBind m => Sys2Proof.Machine.execCtxBind m s
  | .ctxSwitch m => Sys2Proof.Machine.execCtxSwitch m s
  | .ctxClear m => Sys2Proof.Machine.execCtxClear m s
  | .contextClearEnd => Sys2Proof.Machine.execContextClearEnd s
  | .slotRead m => Sys2Proof.Machine.execSlotRead m s
  | .ctxQuota m => Sys2Proof.Machine.execCtxQuota m s
  | .hostWaitCancel m => Sys2Proof.Machine.execHostWaitCancel m s
  | .monDump m => Sys2Proof.Machine.execMonDump m s
  | .deadlockDeclare c => Sys2Proof.Machine.execDeadlockDeclare c s
  | .arriveWord n job hslot gen epoch src ht32 payload ptag => Sys2Proof.Machine.execArriveWord n job hslot gen epoch src ht32 payload ptag s
  | .leadDieArrive d job hallwide hslot gen epoch src ht32 payload ptag => Sys2Proof.Machine.execLeadDieArrive d job hallwide hslot gen epoch src ht32 payload ptag s
  | .withdrawWord n job hslot gen epoch src ht32 => Sys2Proof.Machine.execWithdrawWord n job hslot gen epoch src ht32 s
  | .leadDieWithdraw d job hallwide hslot gen epoch src ht32 => Sys2Proof.Machine.execLeadDieWithdraw d job hallwide hslot gen epoch src ht32 s
  | .doneWord n job hslot gen epoch contrib hash flags => Sys2Proof.Machine.execDoneWord n job hslot gen epoch contrib hash flags s
  | .doneAtDie n job hallwide hslot gen epoch contrib hash flags => Sys2Proof.Machine.execDoneAtDie n job hallwide hslot gen epoch contrib hash flags s
  | .rootDeadline h => Sys2Proof.Machine.execRootDeadline h s
  | .midAnswerDeadline h => Sys2Proof.Machine.execMidAnswerDeadline h s
  | .rootCallWaitEnd h => Sys2Proof.Machine.execRootCallWaitEnd h s
  | .hardTimeout h => Sys2Proof.Machine.execHardTimeout h s
  | .bellWordForward n beat word => Sys2Proof.Machine.execBellWordForward n beat word s
  | .bellWordAtDie n beat word => Sys2Proof.Machine.execBellWordAtDie n beat word s
  | .bellRing m => Sys2Proof.Machine.execBellRing m s
  | .livenessSend => Sys2Proof.Machine.execLivenessSend s
  | .livenessWord n src dieMask lvSeq ht32 => Sys2Proof.Machine.execLivenessWord n src dieMask lvSeq ht32 s
  | .livenessMiss n => Sys2Proof.Machine.execLivenessMiss n s
  | .monitorWord n job ctx src ht32 deadlock => Sys2Proof.Machine.execMonitorWord n job ctx src ht32 deadlock s
  | .dnMaxReport n ps => Sys2Proof.Machine.execDnMaxReport n ps s
  | .memberWord p n job txn roll action gen => Sys2Proof.Machine.execMemberWord p n job txn roll action gen s
  | .staleWord p n job hallwide roll hslot gen epoch cause => Sys2Proof.Machine.execStaleWord p n job hallwide roll hslot gen epoch cause s
  | .slotInstall n msg => Sys2Proof.Machine.execSlotInstall n msg s
  | .hbarAllocInstalled h => Sys2Proof.Machine.execHbarAllocInstalled h s
  | .hbarAlloc m => Sys2Proof.Machine.execHbarAlloc m s
  | .hbarFree m => Sys2Proof.Machine.execHbarFree m s
  | .hbarSet m => Sys2Proof.Machine.execHbarSet m s
  | .hbarResolve m => Sys2Proof.Machine.execHbarResolve m s
  | .hbarRead m => Sys2Proof.Machine.execHbarRead m s
  | .jobHallStatus m => Sys2Proof.Machine.execJobHallStatus m s
  | .suspectRead m => Sys2Proof.Machine.execSuspectRead m s
  | .hbarDump m => Sys2Proof.Machine.execHbarDump m s
  | .jobCreate m => Sys2Proof.Machine.execJobCreate m s
  | .jobEnd m => Sys2Proof.Machine.execJobEnd m s
  | .jobEndEffect j => Sys2Proof.Machine.execJobEndEffect j s
  | .descriptorReadDone desc descErr maskErr srcErr => Sys2Proof.Machine.execDescriptorReadDone desc descErr maskErr srcErr s
  | .fragmentReceive p n f => Sys2Proof.Machine.execFragmentReceive p n f s
  | .bodyCheck p n fkind job tag => Sys2Proof.Machine.execBodyCheck p n fkind job tag s
  | .repeatRequestTimer p n fkind job tag => Sys2Proof.Machine.execRepeatRequestTimer p n fkind job tag s
  | .repeatRequest p n job tag => Sys2Proof.Machine.execRepeatRequest p n job tag s
  | .pipeCombineDone n mismatch => Sys2Proof.Machine.execPipeCombineDone n mismatch s
  | .resultFormed h => Sys2Proof.Machine.execResultFormed h s
  | .closeWord n job bucket seq epoch contrib hash flags => Sys2Proof.Machine.execCloseWord n job bucket seq epoch contrib hash flags s
  | .closeAtDie n job bucket seq epoch contrib hash flags => Sys2Proof.Machine.execCloseAtDie n job bucket seq epoch contrib hash flags s
  | .resultWriteDone job seq => Sys2Proof.Machine.execResultWriteDone job seq s
  | .pipeRead m => Sys2Proof.Machine.execPipeRead m s
  | .payRead m => Sys2Proof.Machine.execPayRead m s
  | .pdBaseWrite req hi value => Sys2Proof.Machine.execPdBaseWrite req hi value s
  | .checkerBeat data keep last => Sys2Proof.Machine.execCheckerBeat data keep last s
  | .chkExpectWrite req value => Sys2Proof.Machine.execChkExpectWrite req value s
  | .chkValueRead req => Sys2Proof.Machine.execChkValueRead req s
  | .chkValueWrite req value => Sys2Proof.Machine.execChkValueWrite req value s
  | .sbAlloc m => Sys2Proof.Machine.execSbAlloc m s
  | .sbFree m => Sys2Proof.Machine.execSbFree m s
  | .sbFreeEffect => Sys2Proof.Machine.execSbFreeEffect s
  | .sbQuota m => Sys2Proof.Machine.execSbQuota m s
  | .sbRead m => Sys2Proof.Machine.execSbRead m s
  | .sbCloseLog m => Sys2Proof.Machine.execSbCloseLog m s
  | .mirrorResyncDone => Sys2Proof.Machine.execMirrorResyncDone s
  | .attRecord p n x => Sys2Proof.Machine.execAttRecord p n x s
  | .blockTimeout => Sys2Proof.Machine.execBlockTimeout s
  | .recordAgeDrop => Sys2Proof.Machine.execRecordAgeDrop s
  | .spillWrite => Sys2Proof.Machine.execSpillWrite s
  | .spillResume => Sys2Proof.Machine.execSpillResume s
  | .ruleSetSend => Sys2Proof.Machine.execRuleSetSend s
  | .ruleRecordAtDie n r => Sys2Proof.Machine.execRuleRecordAtDie n r s
  | .ruleSetAdopt => Sys2Proof.Machine.execRuleSetAdopt s
  | .attTokenRefill => Sys2Proof.Machine.execAttTokenRefill s
  | .attWinSelect req seq => Sys2Proof.Machine.execAttWinSelect req seq s
  | .attWinLoaded => Sys2Proof.Machine.execAttWinLoaded s
  | .attDma m => Sys2Proof.Machine.execAttDma m s
  | .attFind m => Sys2Proof.Machine.execAttFind m s
  | .attQuota m => Sys2Proof.Machine.execAttQuota m s
  | .attFlush m => Sys2Proof.Machine.execAttFlush m s
  | .patrolScrub tierA unit row remap => Sys2Proof.Machine.execPatrolScrub tierA unit row remap s
  | .dramUe tierA unit row region remap => Sys2Proof.Machine.execDramUe tierA unit row region remap s
  | .channelFail ch cause => Sys2Proof.Machine.execChannelFail ch cause s
  | .stackFail k cause => Sys2Proof.Machine.execStackFail k cause s
  | .ttSubmit m => Sys2Proof.Machine.execTtSubmit m s
  | .ttStart txn => Sys2Proof.Machine.execTtStart txn s
  | .ttResult m => Sys2Proof.Machine.execTtResult m s
  | .ttCancel m => Sys2Proof.Machine.execTtCancel m s
  | .ttRead m => Sys2Proof.Machine.execTtRead m s
  | .ttBodyReceive p n txn job scope bytes => Sys2Proof.Machine.execTtBodyReceive p n txn job scope bytes s
  | .prepareWord p n job hallwide txn atKind at_ voteBeats digest => Sys2Proof.Machine.execPrepareWord p n job hallwide txn atKind at_ voteBeats digest s
  | .voteWord p n job hallwide txn yes reason src ht32 => Sys2Proof.Machine.execVoteWord p n job hallwide txn yes reason src ht32 s
  | .ttRevoke p txn => Sys2Proof.Machine.execTtRevoke p txn s
  | .commitWord p n job hallwide txn atKind at_ => Sys2Proof.Machine.execCommitWord p n job hallwide txn atKind at_ s
  | .abortWord p n job hallwide txn reason origin => Sys2Proof.Machine.execAbortWord p n job hallwide txn reason origin s
  | .voteDeadline txn => Sys2Proof.Machine.execVoteDeadline txn s
  | .ttEffect p txn => Sys2Proof.Machine.execTtEffect p txn s
  | .shaperTick temp => Sys2Proof.Machine.execShaperTick temp s
  | .stepTimerExpiry up => Sys2Proof.Machine.execStepTimerExpiry up s
  | .completionRelease h => Sys2Proof.Machine.execCompletionRelease h s
  | .floorWord p n job level recess atBeat => Sys2Proof.Machine.execFloorWord p n job level recess atBeat s
  | .floorApply => Sys2Proof.Machine.execFloorApply s
  | .floorResend => Sys2Proof.Machine.execFloorResend s
  | .powerSample mw valid => Sys2Proof.Machine.execPowerSample mw valid s
  | .telemetrySend p => Sys2Proof.Machine.execTelemetrySend p s
  | .emergencyStart p asserted temp => Sys2Proof.Machine.execEmergencyStart p asserted temp s
  | .emergencyEnd p asserted temp => Sys2Proof.Machine.execEmergencyEnd p asserted temp s
  | .pwrRead m => Sys2Proof.Machine.execPwrRead m s
  | .pwrJobSet m => Sys2Proof.Machine.execPwrJobSet m s
  | .pwrRecess m => Sys2Proof.Machine.execPwrRecess m s
  | .pwrResume m => Sys2Proof.Machine.execPwrResume m s
  | .rootStateSend => Sys2Proof.Machine.execRootStateSend s
  | .rootState n up0 up1 left0 left1 promoSeq => Sys2Proof.Machine.execRootState n up0 up1 left0 left1 promoSeq s
  | .standbyPromote => Sys2Proof.Machine.execStandbyPromote s
  | .rootDemote => Sys2Proof.Machine.execRootDemote s
  | .rootPromote m => Sys2Proof.Machine.execRootPromote m s
  | .drillMoment target other partnerIdle periodEnd => Sys2Proof.Machine.execDrillMoment target other partnerIdle periodEnd s
  | .drillEnd seen realFault => Sys2Proof.Machine.execDrillEnd seen realFault s
  | .drillNow m other partnerIdle => Sys2Proof.Machine.execDrillNow m other partnerIdle s
  | .drillRead m => Sys2Proof.Machine.execDrillRead m s
  | .selftest m => Sys2Proof.Machine.execSelftest m s
  | .selftestRun p kind n passed => Sys2Proof.Machine.execSelftestRun p kind n passed s
  | .pipeUnretire m => Sys2Proof.Machine.execPipeUnretire m s
  | .faultTableWrite => Sys2Proof.Machine.execFaultTableWrite s
  | .reportCardTick => Sys2Proof.Machine.execReportCardTick s
  | .rcRead m => Sys2Proof.Machine.execRcRead m s
  | .rcClear m => Sys2Proof.Machine.execRcClear m s
  | .faultRead m => Sys2Proof.Machine.execFaultRead m s
  | .refPpsEdge x coarse bin twin cyc => Sys2Proof.Machine.execRefPpsEdge x coarse bin twin cyc s
  | .scResetAssert => Sys2Proof.Machine.execScResetAssert s
  | .msixVectorUnmask v => Sys2Proof.Machine.execMsixVectorUnmask v s
  | .calStale n => Sys2Proof.Machine.execCalStale n s
  | .hubReleaseAtStation q => Sys2Proof.Machine.execHubReleaseAtStation q s
  | .dieBellFire job => Sys2Proof.Machine.execDieBellFire job s

end Sys2Proof.Machine
end

