-- ==== Sys2Proof/WellFormed.lean ====
section
/-! DEFINITION. Which commands are well-formed: every operand within the range that the rule of its field gives it. -/

namespace Sys2Proof

open Machine

/-- A link position of a part (R14, R147, R162). -/
def posWf (p : Part) (n : Nat) : Bool := decide (n < if p = .fd then 80 else 16)

/-- A mailbox submission (R365): one of eight mailboxes, an 8-bit TAG, at most 256 argument bytes. -/
def Machine.MbGo.wf (m : MbGo) : Bool := decide (m.box < 8) && decide (m.tag < 256) && decide (m.args.length ≤ 256)

/-- A bell word (R241). -/
def Machine.BellWord.wf (w : BellWord) : Bool :=
  decide (w.bellNo < 2 ^ 48) && decide (w.job < 64) && decide (w.kind < 16) && decide (w.floor < 256) && decide (w.closeHwm < 2 ^ 32) && decide (w.stepEpoch < 65536)

/-- A stage condition (R285, R378): at most 16 channels. -/
def Machine.StageCond.wf (c : StageCond) : Bool :=
  match c with
  | .tierBTrained channels _ => decide (channels < 65536)
  | _ => true

/-- The width of a slate access in bytes (R54, R419). -/
def sizeWf (n : Nat) : Bool := n == 1 || n == 2 || n == 4 || n == 8 || n == 16

/-- The HT80 of a coarse clock edge (R88). -/
def coarseWf (n : Nat) : Bool := decide (n < 2 ^ 80)

/-- A TDC with its twin (R90): 32 channels, a timing block, the lane of a link position. -/
def Machine.TdcAt.wf (a : TdcAt) : Bool :=
  match a with
  | .channel n => decide (n < 32)
  | .timing _ => true
  | .lane p n => posWf p n

/-- A PTP message (R77): the ranges of its fields. -/
def Machine.PtpMsg.wf (x : PtpMsg) : Bool :=
  decide (x.domain < 256) && decide (x.transport < 3) && decide (x.tai < 2 ^ 64) && decide (x.master.clockClass < 256) && decide (x.master.identity < 2 ^ 64)

/-- Every operand within its range. -/
def wellFormed (i : Instr) : Bool :=
  match i with
  | .powerGood modules => decide (modules < 2 ^ 80)
  | .stageAdvance _ cond => cond.wf
  | .configTakesEffect _ => true
  | .scResetRelease => true
  | .resetNAssert _ => true
  | .perstNAssert => true
  | .trstNAssert _ => true
  | .supplyResetCrossing _ => true
  | .supplyWarning p mon vinMv => decide (mon < (if p = .fd then 512 else 16)) && decide (vinMv < 65536)
  | .guardExit _ vinMv => decide (vinMv < 65536)
  | .ladderDescend _ u unit => decide (u < 5) && decide (unit < 1024)
  | .ladderWake _ u unit => decide (u < 5) && decide (unit < 1024)
  | .loadConfig _ _ => true
  | .loadFirmware _ _ => true
  | .loadComplete _ _ => true
  | .fwStage m => m.wf
  | .fwActivate m => m.wf
  | .activationComplete _ bad => bad.all (· < 256)
  | .deferredActivation _ => true
  | .fwStatus m => m.wf
  | .prefectRestart m => m.wf
  | .tokenSet m => m.wf
  | .configRead m => m.wf
  | .fwUnstage m => m.wf
  | .unknownCommand m code => m.wf && decide (code < 256)
  | .componentFault p n _ => decide (n < (if p = .fd then 7 else 3))
  | .watchdogExpiry p n => decide (n < (if p = .fd then 7 else 3))
  | .prefectFaultRestart p n _ => decide (n < (if p = .fd then 7 else 3))
  | .prefectRestartComplete p n bad => decide (n < (if p = .fd then 7 else 3)) && bad.all (· < 256)
  | .emulatedRead _ _ off _ => decide (off < 65536) && decide (off % 4 = 0)
  | .emulatedWrite _ _ off value => decide (off < 65536) && decide (off % 4 = 0) && decide (value < 2 ^ 32)
  | .shadowTimeout _ => true
  | .registerWrite _ _ off size value => decide (off < 65536) && sizeWf size && decide (off % size = 0) && decide (value < 256 ^ size)
  | .counterReadClear _ _ off size => decide (off < 65536) && sizeWf size && decide (off % min size 4 = 0)
  | .tokenWrite _ _ value => decide (value < 2 ^ 32)
  | .htSnapshotRead _ _ size => size == 4 || size == 8 || size == 16
  | .hallForm m => m.wf
  | .hallFormLoad => true
  | .htWrap _ => true
  | .holdoverBeat => true
  | .steerBeat _ => true
  | .temperatureRead _ => true
  | .modelLearn _ => true
  | .refGateEnd _ _ => true
  | .refDisqualify _ _ => true
  | .revertiveWaitEnd _ => true
  | .refAccept m => m.wf
  | .refAcceptCancel m => m.wf
  | .rejoinComplete => true
  | .subtreeRejoin m => m.wf
  | .ptpExchange x => x.wf
  | .ptpTimeout => true
  | .wallRead m => m.wf
  | .ppsOutPulse n => decide (n < 10)
  | .bellOutPulse n bellHt word => decide (n < 10) && decide (bellHt < 2 ^ 64) && word.wf
  | .outRealign m => m.wf
  | .outRealignDone n => decide (n < 10)
  | .tdcEdge n src coarse _ bin _ => decide (n < 32) && decide (src < 6) && coarseWf coarse && decide (bin < 256)
  | .tdcGapQueue n => decide (n < 32)
  | .tdcGateEnd n => decide (n < 32)
  | .tdcDma _ => true
  | .tdcRdidxWrite _ n value => decide (n < 32) && decide (value < 2 ^ 32)
  | .tdcRingSet m => m.wf
  | .tdcCalNow m => m.wf
  | .tdcCalRead m => m.wf
  | .tdcCalStart a _ => a.wf
  | .tdcCalTableDone a hits => a.wf && decide (hits.length = 256)
  | .tdcCheckTimeout a => a.wf
  | .mainsZcEdge p stamp levels => decide (p < 6) && decide (stamp < 2 ^ 80) && decide (levels < 64)
  | .mainsGateEnd => true
  | .mainsLineEdge _ _ stamp _ => decide (stamp < 2 ^ 80)
  | .frameLaunch p n => posWf p n
  | .frameReceive p n x => posWf p n && x.levels >>> 229376 == 0 && coarseWf x.coarse && decide (x.bin < 256)
  | .signalDetect p n _ => posWf p n
  | .lossOfSignal p n => posWf p n
  | .trainingTimeout p n => posWf p n
  | .rangingTimeout p n => posWf p n
  | .suspectTimeout p n => posWf p n
  | .suspectClear p n => posWf p n
  | .residueExceeded p n => posWf p n
  | .linkBackoffEnd p n => posWf p n
  | .retransmitTimeout p n => posWf p n
  | .stepCoreHoldoverReturn => true
  | .carryingRoleMove n pkgs _ => decide (n < 64) && decide (pkgs < 2 ^ 64)
  | .linkCal m => m.wf
  | .linkSwap m => m.wf
  | .linkReset m => m.wf
  | .reflectRunStart p n => posWf p n
  | .calSlice p n sent reflected => posWf p n && decide (sent < 2 ^ 80) && decide (reflected < 2 ^ 80)
  | .reflectRunEnd p n => posWf p n
  | .spareReady p n _ => posWf p n
  | .swapAtBoundary p n => posWf p n
  | .paySplitChange p n => posWf p n
  | .pkgSlotReceive n x => decide (8 ≤ n) && decide (n < 16) && decide (x.index < 256) && decide (x.word < 2 ^ 264) && coarseWf x.coarse && decide (x.bin < 256)
  | .heartbeatSend _ => true
  | .heartbeatReceive n _ tap flips => decide (n < 256) && decide (tap < 512) && decide (flips < 2 ^ 64)
  | .heartbeatMissing n _ => decide (n < 256)
  | .regionClockMissing n => decide (n < 256)
  | .stationEventCommit _ => true
  | .strobeFire n k _ => decide (n < 256) && decide (k < 8)
  | .strobeCfgWrite _ k w value => decide (k < 8) && decide (w < 4) && decide (value < 2 ^ 32)
  | .strobeEnWrite _ n value => decide (n < 256) && decide (value < 2 ^ 32)
  | .oppEvaluate _ _ req _ => decide (req < 16)
  | .oppSwitch m => m.wf
  | .oppCancel m => m.wf
  | .stationRead m => m.wf
  | .oppReadyAssert => true
  | .oppReadyTimeout => true
  | .oppSelDrive n _ => decide (n < 256)
  | .oppGo n _ => decide (n < 256)
  | .queueCmdAccept q cmd => decide (q < 128) && decide (cmd < 2 ^ 64)
  | .nop q _ => decide (q < 128)
  | .arrive q _ => decide (q < 128)
  | .wait q _ => decide (q < 128)
  | .arriveWait q _ => decide (q < 128)
  | .fence q _ => decide (q < 128)
  | .drainAck q => decide (q < 128)
  | .payloadArrive q _ => decide (q < 128)
  | .signalHost q _ => decide (q < 128)
  | .waitHost q _ => decide (q < 128)
  | .waitBell q _ => decide (q < 128)
  | .waitBellRelease q _ => decide (q < 128)
  | .waitTime q _ => decide (q < 128)
  | .waitTimeRelease q _ => decide (q < 128)
  | .stamp q _ => decide (q < 128)
  | .reservedOpcode q _ => decide (q < 128)
  | .queueBind _ q ctx => decide (q < 128) && decide (ctx < 64)
  | .hostArrive _ epoch => decide (epoch < 65536)
  | .hostWaitArm _ epoch => decide (epoch < 65536)
  | .hostFlagSet _ c _ flags => decide (c < 64) && decide (flags < 2 ^ 32)
  | .hostFlagWithdraw _ c _ flags => decide (c < 64) && decide (flags < 2 ^ 32)
  | .directCreate _ => true
  | .directFree _ => true
  | .barrierCreate m => m.wf
  | .barrierFree m => m.wf
  | .ctxBind m => m.wf
  | .ctxSwitch m => m.wf
  | .ctxClear m => m.wf
  | .contextClearEnd => true
  | .slotRead m => m.wf
  | .ctxQuota m => m.wf
  | .hostWaitCancel m => m.wf
  | .monDump m => m.wf
  | .deadlockDeclare c => decide (c < 64)
  | .arriveWord n job hslot gen epoch src ht32 _ ptag => decide (n < 80) && decide (job < 64) && decide (hslot < 2 ^ 20) && decide (gen < 256) && decide (epoch < 65536) && decide (src < 2 ^ 21) && decide (ht32 < 2 ^ 32) && decide (ptag < 2 ^ 12)
  | .leadDieArrive d job _ hslot gen epoch src ht32 _ ptag => decide (d < 8) && decide (job < 64) && decide (hslot < 2 ^ 20) && decide (gen < 256) && decide (epoch < 65536) && decide (src < 2 ^ 21) && decide (ht32 < 2 ^ 32) && decide (ptag < 2 ^ 12)
  | .withdrawWord n job hslot gen epoch src ht32 => decide (n < 80) && decide (job < 64) && decide (hslot < 2 ^ 20) && decide (gen < 256) && decide (epoch < 65536) && decide (src < 2 ^ 21) && decide (ht32 < 2 ^ 32)
  | .leadDieWithdraw d job _ hslot gen epoch src ht32 => decide (d < 8) && decide (job < 64) && decide (hslot < 2 ^ 20) && decide (gen < 256) && decide (epoch < 65536) && decide (src < 2 ^ 21) && decide (ht32 < 2 ^ 32)
  | .doneWord n job hslot gen epoch contrib hash flags => decide (n < 80) && decide (job < 64) && decide (hslot < 2 ^ 20) && decide (gen < 256) && decide (epoch < 65536) && decide (contrib < 2 ^ 22) && decide (hash < 2 ^ 32) && decide (flags < 256)
  | .doneAtDie n job _ hslot gen epoch contrib hash flags => decide (n < 16) && decide (job < 64) && decide (hslot < 2 ^ 20) && decide (gen < 256) && decide (epoch < 65536) && decide (contrib < 2 ^ 22) && decide (hash < 2 ^ 32) && decide (flags < 256)
  | .rootDeadline h => decide (h < 2 ^ 20)
  | .midAnswerDeadline h => decide (h < 2 ^ 20)
  | .rootCallWaitEnd h => decide (h < 2 ^ 20)
  | .hardTimeout h => decide (h < 2 ^ 20)
  | .bellWordForward n beat word => decide (n < 80) && decide (beat < 2 ^ 54) && word.wf
  | .bellWordAtDie n beat word => decide (n < 16) && decide (beat < 2 ^ 54) && word.wf
  | .bellRing m => m.wf
  | .livenessSend => true
  | .livenessWord n src dieMask lvSeq ht32 => decide (n < 80) && decide (src < 2 ^ 21) && decide (dieMask < 256) && decide (lvSeq < 65536) && decide (ht32 < 2 ^ 32)
  | .livenessMiss n => decide (n < 64)
  | .monitorWord n job ctx src ht32 _ => decide (n < 80) && decide (job < 64) && decide (ctx < 64) && decide (src < 2 ^ 21) && decide (ht32 < 2 ^ 32)
  | .dnMaxReport n ps => decide (n ≤ 64) && decide (ps < 2 ^ 32)
  | .memberWord p n job txn roll action gen => posWf p n && decide (job < 64) && decide (txn < 2 ^ 32) && decide (roll < 2 ^ 21) && decide (action < 4) && decide (gen < 256)
  | .staleWord p n job _ roll hslot gen epoch cause => posWf p n && decide (job < 64) && decide (roll < 2 ^ 21) && decide (hslot < 2 ^ 20) && decide (gen < 256) && decide (epoch < 65536) && decide (cause < 256)
  | .slotInstall n _ => decide (n < 80)
  | .hbarAllocInstalled h => decide (h < 2 ^ 20)
  | .hbarAlloc m => m.wf
  | .hbarFree m => m.wf
  | .hbarSet m => m.wf
  | .hbarResolve m => m.wf
  | .hbarRead m => m.wf
  | .jobHallStatus m => m.wf
  | .suspectRead m => m.wf
  | .hbarDump m => m.wf
  | .jobCreate m => m.wf
  | .jobEnd m => m.wf
  | .jobEndEffect j => decide (j < 64)
  | .descriptorReadDone desc _ _ _ => decide (desc < 4096)
  | .fragmentReceive p n f => posWf p n && decide (f.fkind < 4) && decide (f.job < 64)
  | .bodyCheck p n fkind job _ => posWf p n && decide (fkind < 4) && decide (job < 64)
  | .repeatRequestTimer p n fkind job _ => posWf p n && decide (fkind < 4) && decide (job < 64)
  | .repeatRequest p n job _ => posWf p n && decide (job < 64)
  | .pipeCombineDone n _ => decide (n < 68)
  | .resultFormed h => decide (h < 2 ^ 20)
  | .closeWord n job bucket seq epoch contrib hash flags => decide (n < 80) && decide (job < 64) && decide (bucket < 2 ^ 24) && decide (seq < 2 ^ 32) && decide (epoch < 65536) && decide (contrib < 2 ^ 22) && decide (hash < 2 ^ 32) && decide (flags < 256)
  | .closeAtDie n job bucket seq epoch contrib hash flags => decide (n < 16) && decide (job < 64) && decide (bucket < 2 ^ 24) && decide (seq < 2 ^ 32) && decide (epoch < 65536) && decide (contrib < 2 ^ 22) && decide (hash < 2 ^ 32) && decide (flags < 256)
  | .resultWriteDone job seq => decide (job < 64) && decide (seq < 2 ^ 32)
  | .pipeRead m => m.wf
  | .payRead m => m.wf
  | .pdBaseWrite _ _ value => decide (value < 2 ^ 32)
  | .checkerBeat data keep _ => decide (data < 2 ^ 256) && decide (keep < 2 ^ 32)
  | .chkExpectWrite _ value => decide (value < 2 ^ 32)
  | .chkValueRead _ => true
  | .chkValueWrite _ value => decide (value < 2 ^ 32)
  | .sbAlloc m => m.wf
  | .sbFree m => m.wf
  | .sbFreeEffect => true
  | .sbQuota m => m.wf
  | .sbRead m => m.wf
  | .sbCloseLog m => m.wf
  | .mirrorResyncDone => true
  | .attRecord p n x => posWf p n && decide (x.job < 64) && decide (x.conts.length < 8)
  | .blockTimeout => true
  | .recordAgeDrop => true
  | .spillWrite => true
  | .spillResume => true
  | .ruleSetSend => true
  | .ruleRecordAtDie n r => decide (n < 16) && decide (r.index < 32) && decide (r.action < 3) && decide (r.job < 64) && decide (r.setSeq < 65536)
  | .ruleSetAdopt => true
  | .attTokenRefill => true
  | .attWinSelect _ seq => decide (seq < 2 ^ 32)
  | .attWinLoaded => true
  | .attDma m => m.wf
  | .attFind m => m.wf
  | .attQuota m => m.wf
  | .attFlush m => m.wf
  | .patrolScrub _ unit _ _ => decide (unit < 16)
  | .dramUe _ unit _ _ _ => decide (unit < 16)
  | .channelFail ch cause => decide (ch < 16) && decide (cause < 3)
  | .stackFail k cause => decide (k < 4) && decide (cause < 3)
  | .ttSubmit m => m.wf
  | .ttStart txn => decide (txn < 2 ^ 32)
  | .ttResult m => m.wf
  | .ttCancel m => m.wf
  | .ttRead m => m.wf
  | .ttBodyReceive p n txn job scope bytes => posWf p n && decide (txn < 2 ^ 32) && decide (job < 64) && decide (scope < 2) && decide (bytes.length ≤ 65536)
  | .prepareWord p n job _ txn atKind at_ voteBeats digest => posWf p n && decide (job < 64) && decide (txn < 2 ^ 32) && decide (atKind < 2) && decide (at_ < 2 ^ 54) && decide (voteBeats < 65536) && decide (digest < 2 ^ 64)
  | .voteWord p n job _ txn _ reason src ht32 => posWf p n && decide (job < 64) && decide (txn < 2 ^ 32) && decide (reason < 256) && decide (src < 2 ^ 21) && decide (ht32 < 2 ^ 32)
  | .ttRevoke _ txn => decide (txn < 2 ^ 32)
  | .commitWord p n job _ txn atKind at_ => posWf p n && decide (job < 64) && decide (txn < 2 ^ 32) && decide (atKind < 2) && decide (at_ < 2 ^ 54)
  | .abortWord p n job _ txn reason origin => posWf p n && decide (job < 64) && decide (txn < 2 ^ 32) && decide (reason < 256) && decide (origin < 2 ^ 21)
  | .voteDeadline txn => decide (txn < 2 ^ 32)
  | .ttEffect _ txn => decide (txn < 2 ^ 32)
  | .shaperTick _ => true
  | .stepTimerExpiry _ => true
  | .completionRelease h => decide (h < 2 ^ 20)
  | .floorWord p n job level _ atBeat => posWf p n && decide (job < 64) && decide (level < 256) && decide (atBeat < 2 ^ 54)
  | .floorApply => true
  | .floorResend => true
  | .powerSample mw _ => decide (mw < 2 ^ 32)
  | .telemetrySend _ => true
  | .emergencyStart _ _ _ => true
  | .emergencyEnd _ _ _ => true
  | .pwrRead m => m.wf
  | .pwrJobSet m => m.wf
  | .pwrRecess m => m.wf
  | .pwrResume m => m.wf
  | .rootStateSend => true
  | .rootState n up0 up1 left0 left1 promoSeq => decide (n < 64) && decide (up0 < 8) && decide (up1 < 8) && decide (left0 < 2 ^ 32) && decide (left1 < 2 ^ 32) && decide (promoSeq < 256)
  | .standbyPromote => true
  | .rootDemote => true
  | .rootPromote m => m.wf
  | .drillMoment _ _ _ _ => true
  | .drillEnd _ _ => true
  | .drillNow m _ _ => m.wf
  | .drillRead m => m.wf
  | .selftest m => m.wf
  | .selftestRun _ kind _ _ => decide (kind < 3)
  | .pipeUnretire m => m.wf
  | .faultTableWrite => true
  | .reportCardTick => true
  | .rcRead m => m.wf
  | .rcClear m => m.wf
  | .faultRead m => m.wf
  | .refPpsEdge _ coarse bin _ _ => coarseWf coarse && decide (bin < 256)
  | .scResetAssert => true
  | .msixVectorUnmask v => decide (v < 8)
  | .calStale n => decide (n < 32)
  | .hubReleaseAtStation q => decide (q < 128)
  | .dieBellFire job => decide (job < 64)

end Sys2Proof
end

