-- ==== Sys2Proof/Safety.lean ====
section
/-! DEFINITION. The terms of the statements: a command that answers a next state, memories in canonical form, a mailbox command that
reaches its own rules (R354, R364, R366 to R368), the answer of a mailbox, a change of registers alone. -/

namespace Sys2Proof

open Machine

/-- The command answers a next state. -/
def Runs (i : Instr) (s : State) : Prop := ∃ t, exec i s = .next t

/-- The command answers a next state of which something holds. -/
def Gives (i : Instr) (s : State) (P : State → Prop) : Prop := ∃ t, exec i s = .next t ∧ P t

/-- Die memory and host memory are in canonical form. -/
def MemOk (s : State) : Bool := Memory.wf s.dieMem && Memory.wf s.hostMem

/-- Nothing stands in the way of a mailbox command before its own rules: the mailbox is one of the eight and the device does not own it (R365, R366), no
activation is in progress (R374), P0 and the command's owner run (R354), no context clear on a step core (R368), the requester's class
is admin or that of the job the command names (R364), the arguments are long enough (R367). -/
structure MbReady (m : MbGo) (owner : Nat) (named : Option Nat) (need : Nat) (s : State) : Prop where
  box : m.box < 8
  owned : s.get m.part (Rg.MB_OWNED m.box) = 0
  active : (s.unit m.part).fw.activating = none
  p0 : s.roleUp m.part 0 = true
  up : s.roleUp m.part owner = true
  clear : m.part = .sc → s.die.sync.clear = none
  cls : s.cls m.part m.req = .admin ∨ ∃ j, named = some j ∧ s.cls m.part m.req = .job j
  long : need ≤ m.args.length

/-- The mailbox has answered with a status: STATUS and TAG are written, DONE is set, OWNED is clear (R366). -/
def Answered (m : MbGo) (status : Nat) (t : State) : Prop :=
  t.get m.part (Rg.MB_STATUS m.box) = status ∧ t.get m.part (Rg.MB_STAG m.box) = m.tag % 256 ∧ t.get m.part (Rg.MB_DONE m.box) = 1
    ∧ t.get m.part (Rg.MB_OWNED m.box) = 0

/-- The `i`-th argument of a mailbox command whose arguments have the given sizes: aligned and little-endian in the data area (R367). -/
def Machine.MbGo.argAt (m : MbGo) (sizes : List Nat) (i : Nat) : Nat := (parseFields m.args 0 sizes).getD i 0

/-- The mailbox has answered OK with these result bytes: the arguments and then the result stand from the start of its data area, RESULT_LEN counts
the result (R366, R367). -/
def Result (m : MbGo) (b : List Byte) (s t : State) : Prop :=
  Answered m 0 t ∧ (t.mail m.part m.box).data = ((s.mail m.part m.box).data.writeN 0 (m.args.take 256)).writeN 0 b
    ∧ t.get m.part (Rg.MB_RESULT_LEN m.box) = b.length % 2 ^ 9

/-- The bytes of a list result that is not delivered by DMA: the fixed fields, the count, as many whole entries as fit (R367). -/
def Machine.listArea (fixed : List (Nat × Nat)) (entries : List (List (Nat × Nat))) : List Byte :=
  let start := alignUp (packFields 0 fixed).length 2 + 2
  let es := packEntries start entries
  let n := fitCount (256 - start) es
  packFields 0 (fixed ++ [(2, n)]) ++ (es.take n).flatten

/-- An access to an emulated register is carried out at once (R361 to R363): the part has reached the stage, P0 and the register's owner run, no read
before it is still pending. -/
def EmuOpen (p : Part) (off : Nat) (s : State) : Prop :=
  (p = .fd → 2 ≤ s.get .fd Rg.START_STAGE) ∧ (p = .sc → s.get .sc Rg.START_FW_UP = 1) ∧ s.ownerDown p off = false ∧ (s.unit p).slate.emuQ = []

/-- An accepted command stands in a queue, others before and behind it (R179): its tag is its own and its outcome is not known yet. -/
structure InQueue (q : Nat) (before : List QEntry) (e : QEntry) (behind : List QEntry) (s : State) : Prop where
  here : (s.queue q).entries = before ++ e :: behind
  own : ∀ x ∈ before ++ behind, x.tag ≠ e.tag
  unanswered : e.out = none

/-- A command at the head of its queue that may execute (R179 to R181): the queue is bound and clocked, what stands before the command has passed the
head, the command is not yet stalled, and its bits outside the opcode's fields are zero (R180). -/
structure AtHead (q : Nat) (before : List QEntry) (e : QEntry) (behind : List QEntry) (s : State) : Prop extends InQueue q before e behind s where
  live : s.queueLive q = true
  passed : ∀ x ∈ before, x.phase = .passed
  fresh : e.phase = .queued
  clean : e.op ≤ 10 → cleanCmd e.cmd = e.cmd

/-- The command's outcome, a status and flags, is known (R179, R182): with it the leading commands whose outcomes are known have been released in order. -/
def Released (q : Nat) (before : List QEntry) (e : QEntry) (behind : List QEntry) (status flags : Nat) (s t : State) : Prop :=
  let r := popDone (before ++ { e with out := some (status, flags + ofBool e.unfenced), phase := .passed } :: behind)
  (t.queue q).entries = r.2 ∧ (t.queue q).rels = r.1.reverse ++ (s.queue q).rels

/-- The entry's command is on its way to the hub, behind what was: its station's event with a stamp, the queue's tag and binding (R167, R169). -/
def Sent (q : Nat) (e : QEntry) (stamp : Nat) (s t : State) : Prop :=
  t.die.sync.events.map (fun x => (x.src, x.stamp, x.body)) = s.die.sync.events.map (fun x => (x.src, x.stamp, x.body)) ++
    [(s.get .sc (Rg.Q_STATION q), stamp, .cmd q e.tag (s.get .sc (Rg.Q_BIND_GEN q)) e.cmd)]

/-- The fields that attendance writes when a record is taken in (R298, R300, R304, R424): ATT_HEAD_SEQ, the counters of lost blocks and records. -/
def attKeys (k : Nat) : Prop :=
  k = (Rg.ATT_HEAD_SEQ).key ∨ k = (Rg.ATT_ARCH_LOST).key ∨ k = (Rg.ATT_ARCH_LOST_SEEN).key ∨ k = (Rg.SATT_DROP).key ∨ ∃ j, k = (Rg.JM_ATT_DROP (j % 64)).key

/-- The fields that a fault event writes (R397, R426): FLT_LAST, FLT_LAST_HT32, the count, ALERT, beside those of attendance. -/
def faultKeys (k : Nat) : Prop :=
  k = (Rg.FLT_CLASS).key ∨ k = (Rg.FLT_ACTION).key ∨ k = (Rg.FLT_LAST_HT32).key ∨ k = (Rg.FLT_FAULTS).key ∨ k = (Rg.ALERT_FAULT).key ∨ attKeys k

/-- The fields of the mailboxes' control blocks (R423). -/
def mbKeys (k : Nat) : Prop := 0x8800 * 32 ≤ k ∧ k < 0x8900 * 32

/-- A change of one part in which only the fields with keys in `K` change, and what an event feeds: the fault log, the attendance records the unit
keeps, the MSI-X vectors; with `boxes`, the mailboxes' data too. Time, memories, links, the queue of commands and the other part stay. -/
structure Only (p : Part) (boxes : Bool) (K : Nat → Prop) (s t : State) : Prop where
  get : ∀ f : Field, ¬ K f.key → t.get p f = s.get p f
  unit : t.unit p = { s.unit p with
    regs := (t.unit p).regs, faults := (t.unit p).faults, slate := { (s.unit p).slate with mail := (t.unit p).slate.mail } }
  mail : boxes = false → (t.unit p).slate.mail = (s.unit p).slate.mail
  other : ∀ q, q ≠ p → t.unit q = s.unit q
  dist : t.dist = { s.dist with arch := t.dist.arch }
  die : t.die = { s.die with att := t.die.att }
  ofFd : p = .fd → t.die = s.die
  ofSc : p = .sc → t.dist = s.dist ∧ t.msix = s.msix
  rest : t.now = s.now ∧ t.free = s.free ∧ t.dieMem = s.dieMem ∧ t.hostMem = s.hostMem ∧ t.pending = s.pending

/-- The mailbox has answered OK with a list (R367): without DMA_RESULT the entries that fit, nothing else changed; with it the whole count, and the entries that do not
fit stand at RESULT_ADDR. -/
def Listed (m : MbGo) (fixed : List (Nat × Nat)) (entries : List (List (Nat × Nat))) (s t : State) : Prop :=
  if m.dma = true then
    let start := alignUp (packFields 0 fixed).length 2 + 2
    let n := fitCount (256 - start) (packEntries start entries)
    Answered m 0 t
      ∧ (t.mail m.part m.box).data = ((s.mail m.part m.box).data.writeN 0 (m.args.take 256)).writeN 0
          (packFields 0 (fixed ++ [(2, entries.length)]) ++ ((packEntries start entries).take n).flatten)
      ∧ t.dma m.part = (s.dma m.part).writeN (s.get m.part (Rg.MB_RESULT_ADDR_LO m.box) + 2 ^ 32 * s.get m.part (Rg.MB_RESULT_ADDR_HI m.box))
          (packEntries 0 (entries.drop n)).flatten
  else Result m (listArea fixed entries) s t ∧ Only m.part true mbKeys s t

/-- Every field whose key is not in `K` reads as before, on both parts. -/
def Regs (K : Nat → Prop) (s t : State) : Prop := ∀ (p : Part) (f : Field), ¬ K f.key → t.get p f = s.get p f

/-- The part that a command acts on alone. None for a command whose meaning waits for its moment, since the time that passes moves both parts. -/
def Instr.partOf : Instr → Option Part
  | .powerGood _ | .perstNAssert | .supplyResetCrossing _ | .holdoverBeat | .temperatureRead _ | .modelLearn _ | .ptpExchange _ | .ppsOutPulse _
  | .bellOutPulse _ _ _ | .tdcEdge _ _ _ _ _ _ | .tdcGapQueue _ | .tdcGateEnd _ | .tdcDma _ | .mainsZcEdge _ _ _ | .mainsLineEdge _ _ _ _
  | .arriveWord _ _ _ _ _ _ _ _ _ | .withdrawWord _ _ _ _ _ _ _ | .doneWord _ _ _ _ _ _ _ _ | .bellWordForward _ _ _ | .livenessWord _ _ _ _ _
  | .livenessMiss _ | .monitorWord _ _ _ _ _ _ | .slotInstall _ _ | .hbarAllocInstalled _ | .pipeCombineDone _ _ | .resultFormed _
  | .closeWord _ _ _ _ _ _ _ _ | .mirrorResyncDone | .spillWrite | .spillResume | .attWinLoaded | .patrolScrub _ _ _ _ | .dramUe _ _ _ _ _
  | .channelFail _ _ | .stackFail _ _ | .ttStart _ | .rootState _ _ _ _ _ _ | .faultTableWrite | .refPpsEdge _ _ _ _ _ | .msixVectorUnmask _ => some .fd
  | .stageAdvance p _ | .trstNAssert p | .supplyWarning p _ _ | .ladderWake p _ _ | .loadConfig p _ | .loadFirmware p _ | .loadComplete p _
  | .componentFault p _ _ | .watchdogExpiry p _ | .prefectFaultRestart p _ _ | .htSnapshotRead p _ _ | .lossOfSignal p _ | .suspectClear p _
  | .residueExceeded p _ | .reflectRunEnd p _ | .spareReady p _ _ | .memberWord p _ _ _ _ _ _ | .staleWord p _ _ _ _ _ _ _ _ | .fragmentReceive p _ _
  | .repeatRequest p _ _ _ | .attRecord p _ _ | .ttBodyReceive p _ _ _ _ _ | .prepareWord p _ _ _ _ _ _ _ _ | .voteWord p _ _ _ _ _ _ _ _
  | .ttRevoke p _ | .commitWord p _ _ _ _ _ _ | .abortWord p _ _ _ _ _ _ | .floorWord p _ _ _ _ _ | .emergencyStart p _ _ | .emergencyEnd p _ _ => some p
  | .scResetRelease | .activationComplete .sc _ | .prefectRestartComplete .sc _ _ | .emulatedRead .sc _ _ _ | .emulatedWrite .sc _ _ _
  | .shadowTimeout .sc | .counterReadClear .sc _ _ _ | .tokenWrite .sc _ _ | .stepCoreHoldoverReturn | .heartbeatSend _ | .heartbeatReceive _ _ _ _
  | .heartbeatMissing _ _ | .regionClockMissing _ | .strobeFire _ _ _ | .strobeCfgWrite _ _ _ _ | .strobeEnWrite _ _ _ | .oppEvaluate _ _ _ _
  | .oppReadyAssert | .oppSelDrive _ _ | .queueCmdAccept _ _ | .nop _ _ | .arrive _ _ | .wait _ _ | .arriveWait _ _ | .fence _ _ | .drainAck _
  | .payloadArrive _ _ | .signalHost _ _ | .waitHost _ _ | .waitBell _ _ | .waitBellRelease _ _ | .waitTime _ _ | .waitTimeRelease _ _ | .stamp _ _
  | .reservedOpcode _ _ | .queueBind _ _ _ | .hostArrive _ _ | .hostWaitArm _ _ | .hostFlagSet _ _ _ _ | .hostFlagWithdraw _ _ _ _ | .directCreate _
  | .directFree _ | .contextClearEnd | .leadDieArrive _ _ _ _ _ _ _ _ _ _ | .leadDieWithdraw _ _ _ _ _ _ _ _ | .doneAtDie _ _ _ _ _ _ _ _ _
  | .bellWordAtDie _ _ _ | .descriptorReadDone _ _ _ _ | .closeAtDie _ _ _ _ _ _ _ _ | .resultWriteDone _ _ | .pdBaseWrite _ _ _ | .checkerBeat _ _ _
  | .chkExpectWrite _ _ | .chkValueRead _ | .chkValueWrite _ _ | .ruleRecordAtDie _ _ | .scResetAssert | .hubReleaseAtStation _ => some .sc
  | .fwStage m | .fwActivate m | .fwStatus m | .prefectRestart m | .tokenSet m | .configRead m | .fwUnstage m | .unknownCommand m _ | .hallForm m
  | .refAcceptCancel m | .subtreeRejoin m | .wallRead m | .outRealign m | .tdcRingSet m | .tdcCalNow m | .tdcCalRead m | .linkSwap m | .linkReset m
  | .oppSwitch m | .oppCancel m | .stationRead m | .barrierCreate m | .barrierFree m | .ctxBind m | .ctxSwitch m | .ctxClear m | .slotRead m
  | .ctxQuota m | .hostWaitCancel m | .monDump m | .bellRing m | .hbarAlloc m | .hbarFree m | .hbarSet m | .hbarResolve m | .hbarRead m
  | .jobHallStatus m | .suspectRead m | .hbarDump m | .jobCreate m | .jobEnd m | .pipeRead m | .payRead m | .sbAlloc m | .sbFree m | .sbQuota m
  | .sbRead m | .sbCloseLog m | .attDma m | .attFind m | .attQuota m | .attFlush m | .ttSubmit m | .ttResult m | .ttCancel m | .ttRead m | .pwrRead m
  | .pwrJobSet m | .pwrRecess m | .pwrResume m | .rootPromote m | .drillRead m | .selftest m | .pipeUnretire m | .rcRead m | .rcClear m | .faultRead m => some m.part
  | .tdcCalStart a _ | .tdcCalTableDone a _ => some a.part
  | _ => none

/-- Whether a command may store to host or die memory: a ring record, a stamp, a result with its status record (which a slot or a context that ends brings about, too), blocks of
the archive, the answer of a command that waits in a mailbox, whatever a register write starts; any other command of a mailbox only as a list by DMA (R367). No other command stores. -/
def Instr.mayStore : Instr → Bool
  | .stageAdvance _ _ | .configTakesEffect _ | .guardExit _ _ | .loadComplete _ _ | .activationComplete _ _ | .prefectRestartComplete _ _ _
  | .emulatedRead _ _ _ _ | .emulatedWrite _ _ _ _ | .shadowTimeout _ | .registerWrite _ _ _ _ _ | .counterReadClear _ _ _ _ | .tokenWrite _ _ _
  | .hallFormLoad | .refGateEnd _ _ | .refDisqualify _ _ | .tdcDma _ | .tdcRdidxWrite _ _ _ | .strobeCfgWrite _ _ _ _ | .strobeEnWrite _ _ _
  | .stamp _ _ | .queueBind _ _ _ | .hostArrive _ _ | .hostWaitArm _ _ | .hostFlagSet _ _ _ _ | .hostFlagWithdraw _ _ _ _ | .directCreate _
  | .directFree _ | .barrierFree _ | .ctxSwitch _ | .ctxClear _ | .contextClearEnd | .leadDieArrive _ _ _ _ _ _ _ _ _ _
  | .leadDieWithdraw _ _ _ _ _ _ _ _ | .doneAtDie _ _ _ _ _ _ _ _ _ | .memberWord _ _ _ _ _ _ _ | .staleWord _ _ _ _ _ _ _ _ _ | .hbarAllocInstalled _
  | .descriptorReadDone _ _ _ _ | .fragmentReceive _ _ _ | .repeatRequestTimer _ _ _ _ _ | .resultWriteDone _ _ | .pdBaseWrite _ _ _
  | .chkExpectWrite _ _ | .chkValueWrite _ _ | .attWinSelect _ _ | .attDma _ | .ttStart _ | .prepareWord _ _ _ _ _ _ _ _ _
  | .voteWord _ _ _ _ _ _ _ _ _ | .commitWord _ _ _ _ _ _ _ | .ttEffect _ _ | .drillMoment _ _ _ _ | .drillNow _ _ _ => true
  | .fwStage m | .fwActivate m | .fwStatus m | .prefectRestart m | .tokenSet m | .configRead m | .fwUnstage m | .unknownCommand m _ | .hallForm m
  | .refAccept m | .refAcceptCancel m | .subtreeRejoin m | .wallRead m | .outRealign m | .tdcRingSet m | .tdcCalNow m | .tdcCalRead m | .linkCal m
  | .linkSwap m | .linkReset m | .oppSwitch m | .oppCancel m | .stationRead m | .barrierCreate m | .ctxBind m | .slotRead m | .ctxQuota m
  | .hostWaitCancel m | .monDump m | .bellRing m | .hbarAlloc m | .hbarFree m | .hbarSet m | .hbarResolve m | .hbarRead m | .jobHallStatus m
  | .suspectRead m | .hbarDump m | .jobCreate m | .jobEnd m | .pipeRead m | .payRead m | .sbAlloc m | .sbFree m | .sbQuota m | .sbRead m
  | .sbCloseLog m | .attFind m | .attQuota m | .attFlush m | .ttSubmit m | .ttResult m | .ttCancel m | .ttRead m | .pwrRead m | .pwrJobSet m
  | .pwrRecess m | .pwrResume m | .rootPromote m | .drillRead m | .selftest m | .pipeUnretire m | .rcRead m | .rcClear m | .faultRead m => m.dma
  | _ => false

end Sys2Proof
end

