-- ==== Sys2Proof/Certificates/Slice0/Obligations.lean ====
section
/-! DEFINITION. The statements for the provers: what the commands do by the spec's rules, and what the block as a whole keeps. Each statement about
commands concludes that the command answers a next state (`Gives`, `Runs`) and says of it what the rules give. -/

open Sys2Proof Sys2Proof.Machine

/-- POWER_GOOD, SC_RESET_RELEASE, STAGE_ADVANCE, RESET_N_ASSERT, SUPPLY_RESET_CROSSING, SC_RESET_ASSERT, PERST_N_ASSERT, TRST_N_ASSERT (R377, R378, R382, R388, R394, R395). -/
def Obligations.PowerStagesAndResets : Prop :=
  (∀ (modules : Nat) (s : State), s.fd.start.on = false →
      Gives (.powerGood modules) s fun t => t.fd.start.on = true ∧ t.ht .fd = 0)
  ∧ (∀ s : State, s.sc.start.on = false → Gives .scResetRelease s fun t => t.sc.start.on = true ∧ t.ht .sc = 0)
  ∧ (∀ (channels gib : Nat) (s : State), s.fd.start.on = true → s.dist.variant ≠ .vxd2840 → s.fd.start.tierA = true → s.fd.start.tierB = false →
        s.inGuard .fd = false →
      Gives (.stageAdvance .fd (.tierBTrained channels gib)) s fun t =>
        t.fd.start.tierB = true ∧ t.dist.arch.capBlocks = popCount 16 channels * gib * 29 * 8192 ∧ t.get .fd Rg.MEM_CH_PRESENT = channels % 2 ^ 16
          ∧ ∀ f : Field, f.key ≠ (Rg.MEM_CH_PRESENT).key → t.get .fd f = s.get .fd f)
  ∧ (∀ s : State, s.fd.start.on = true → s.fd.start.tierA = false → s.dist.spare.stackFailed = false → s.inGuard .fd = false → s.fd.fw.waiting = none →
      Gives (.stageAdvance .fd .tierAReady) s fun t => t.fd.start.tierA = true)
  ∧ (∀ (kept : Bool) (s : State), Gives (.resetNAssert kept) s fun t =>
      t.fd.start.on = false ∧ t.get .fd Rg.START_LAST_RESET = 2 ∧ t.fd.clock = {} ∧ t.dist.hall = {} ∧ t.msix = {} ∧ t.sc.start = s.sc.start ∧ t.sc.slate = s.sc.slate
        ∧ t.die = s.die ∧ t.dieMem = s.dieMem ∧ t.hostMem = s.hostMem ∧ t.dist.arch.arch = if kept && s.dist.variant != .vxd2840 then s.dist.arch.arch else [])
  ∧ (∀ (kept : Bool) (s : State), Gives (.supplyResetCrossing kept) s fun t =>
      t.fd.start.on = false ∧ t.get .fd Rg.START_LAST_RESET = 1 ∧ t.fd.clock = {} ∧ t.dist.hall = {} ∧ t.msix = {} ∧ t.sc = s.sc
        ∧ t.die = s.die ∧ t.dieMem = s.dieMem ∧ t.hostMem = s.hostMem
        ∧ t.dist.arch.arch = if kept && s.fd.start.refresh then s.dist.arch.arch else [])
  ∧ (∀ s : State, Gives .scResetAssert s fun t =>
      t.sc.start = {} ∧ t.sc.clock = {} ∧ t.die.running = false ∧ t.die.sync = {} ∧ t.die.stations = s.die.stations ∧ t.die.queues = s.die.queues
        ∧ t.get .sc Rg.ID_PART = 1 ∧ t.fd = s.fd ∧ t.dist = s.dist ∧ t.dieMem = s.dieMem ∧ t.hostMem = s.hostMem)
  ∧ (∀ s : State, Gives .perstNAssert s fun t =>
      t.msix = {} ∧ t.fd.slate.latches = [] ∧ t.fd.slate.snaps = [] ∧ t.fd.slate.mail = s.fd.slate.mail ∧ t.fd.regs = s.fd.regs ∧ t.fd.fw = s.fd.fw ∧ t.dist = s.dist
        ∧ t.sc = s.sc ∧ t.die = s.die ∧ t.dieMem = s.dieMem ∧ t.hostMem = s.hostMem)
  ∧ (∀ (p : Part) (s : State), exec (.trstNAssert p) s = .next s)

/-- LOAD_CONFIG, LOAD_FIRMWARE, LOAD_COMPLETE, FW_STAGE, FW_UNSTAGE, FW_ACTIVATE, FW_STATUS, TOKEN_SET, CONFIG_READ, UNKNOWN_COMMAND (R359, R360, R364, R368, R370 to R376). -/
def Obligations.LoadsAndFirmwareCommands : Prop :=
  (∀ (p : Part) (req : Nat) (s : State), (s.unit p).start.on = true → (s.unit p).fw.run = none → (s.unit p).fw.config = none → s.mayWrite p req 0xA00C 3 = true →
      Gives (.loadConfig p req) s fun t => t.get p Rg.LOAD_STATE = 1 ∧ t.get p Rg.LOAD_ERROR = 0 ∧ t.get p Rg.LOAD_KIND = 1
        ∧ (t.unit p).fw.run = some { kind := 1, addr := s.get p Rg.LOAD_LOAD_ADDR_LO * 4096 + s.get p Rg.LOAD_LOAD_ADDR_HI * 2 ^ 32, len := s.get p Rg.LOAD_LOAD_LEN })
  ∧ (∀ (p : Part) (req : Nat) (s : State), (s.unit p).start.on = true → (s.unit p).fw.run = none → (s.unit p).fw.config.isSome → (s.unit p).fw.running = none →
        (s.unit p).fw.waiting = none → s.mayWrite p req 0xA00C 1 = true →
      Gives (.loadFirmware p req) s fun t => t.get p Rg.LOAD_STATE = 1 ∧ t.get p Rg.LOAD_ERROR = 0 ∧ t.get p Rg.LOAD_KIND = 0
        ∧ (t.unit p).fw.run = some { kind := 0, addr := s.get p Rg.LOAD_LOAD_ADDR_LO * 4096 + s.get p Rg.LOAD_LOAD_ADDR_HI * 2 ^ 32, len := s.get p Rg.LOAD_LOAD_LEN })
  ∧ (∀ (p : Part) (r : LoadRun) (s : State), (s.unit p).fw.run = some r →
      Gives (.loadComplete p false) s fun t => t.get p Rg.LOAD_STATE = 4 ∧ t.get p Rg.LOAD_ERROR = 6 ∧ (t.unit p).fw = { (s.unit p).fw with run := none })
  ∧ (∀ (p : Part) (r : LoadRun) (s : State), (s.unit p).fw.run = some r → r.kind = 1 →
      Gives (.loadComplete p true) s fun t =>
        if imageError p (s.unit p).fw.stepping 1 r.len ((s.dma p).readN r.addr r.len) = 0 then
          t.get p Rg.LOAD_STATE = 3 ∧ (t.unit p).fw.config = some (parseImage r.addr ((s.dma p).readN r.addr r.len))
            ∧ (t.unit p).fw.configBeat = some (s.beat p + 1) ∧ (t.unit p).fw.run = none
        else t.get p Rg.LOAD_STATE = 4 ∧ t.get p Rg.LOAD_ERROR = imageError p (s.unit p).fw.stepping 1 r.len ((s.dma p).readN r.addr r.len)
          ∧ (t.unit p).fw = { (s.unit p).fw with run := none })
  ∧ (∀ (m : MbGo) (s : State), MbReady m 0 none 12 s → m.argAt [8, 4] 0 % 4096 = 0 → (s.unit m.part).fw.stagedCommitted = false →
      Gives (.fwStage m) s fun t =>
        if imageError m.part (s.unit m.part).fw.stepping 0 (m.argAt [8, 4] 1) ((s.dma m.part).readN (m.argAt [8, 4] 0) (m.argAt [8, 4] 1)) = 0 then
          Answered m 0 t
            ∧ (t.unit m.part).fw = { (s.unit m.part).fw with staged := some (parseImage (m.argAt [8, 4] 0) ((s.dma m.part).readN (m.argAt [8, 4] 0) (m.argAt [8, 4] 1))) }
        else Answered m 3 t ∧ (t.unit m.part).fw = (s.unit m.part).fw)
  ∧ (∀ (m : MbGo) (s : State), MbReady m 0 none 0 s → (s.unit m.part).fw.stagedCommitted = false →
      Gives (.fwUnstage m) s fun t => Answered m 0 t ∧ (t.unit m.part).fw = { (s.unit m.part).fw with staged := none })
  ∧ (∀ (m : MbGo) (i : Img) (s : State), MbReady m 0 none 8 s → (s.unit m.part).fw.staged = some i → i.imageDigest = m.argAt [8] 0 → (s.unit m.part).emerg.conds = 0 →
        (s.unit m.part).emerg.endNow = none → (m.part = .fd → ∀ j < 64, s.get .fd (Rg.JH_MEMBERS j) = 0) → (m.part = .sc → ∀ c < 64, s.get .sc (Rg.CTX_JOB_VALID c) = 0) →
        s.inGuard m.part = false → (s.unit m.part).fw.accepts i = true →
      Gives (.fwActivate m) s fun t => (t.unit m.part).fw.activating = some s.now ∧ (t.unit m.part).fw.handoverSeq = (s.unit m.part).fw.handoverSeq + 1
        ∧ t.get m.part (Rg.MB_OWNED m.box) = 1)
  ∧ (∀ (m : MbGo) (s : State), MbReady m 0 none 0 s →
      Gives (.fwStatus m) s fun t => Answered m 0 t ∧ (m.dma = false → Only m.part true mbKeys s t))
  ∧ (∀ (m : MbGo) (s : State), MbReady m 0 none 8 s → m.argAt [1, 4] 0 ≤ 63 → m.argAt [1, 4] 1 ≠ 0 →
      Gives (.tokenSet m) s fun t => Answered m 0 t ∧ SMap.find (m.argAt [1, 4] 0) (t.unit m.part).slate.jobTokens = some (m.argAt [1, 4] 1))
  ∧ (∀ (m : MbGo) (s : State), MbReady m 0 none 0 s →
      Gives (.configRead m) s fun t => Only m.part true mbKeys s t
        ∧ Result m (packFields 0 [(4, s.get m.part Rg.LOAD_CONFIG_VERSION), (8, if (s.unit m.part).fw.eepromOk then (s.unit m.part).fw.serial else 0), (1, ofBool (s.unit m.part).fw.eepromOk)]) s t)
  ∧ (∀ (m : MbGo) (code : Nat) (s : State), MbReady m 0 none 0 s → knownCode m.part code = false →
      Gives (.unknownCommand m code) s fun t => Answered m (if knownCode (otherPart m.part) code || s.lacksCode m.part code then 4 else 3) t ∧ Only m.part true mbKeys s t)

/-- COMPONENT_FAULT, WATCHDOG_EXPIRY, PREFECT_FAULT_RESTART, PREFECT_RESTART, PREFECT_RESTART_COMPLETE, ACTIVATION_COMPLETE, DEFERRED_ACTIVATION (R320, R351 to R355, R370, R374, R376). -/
def Obligations.PrefectsRestartAndReport : Prop :=
  (∀ (p : Part) (i : Nat) (s : State), s.canFault p i = true → (s.countedRestarts p i).length < 2 →
      Gives (.watchdogExpiry p i) s fun t => t.get p (Rg.PREF_STATE i) = 3 ∧ t.get p (Rg.PREF_LAST_CAUSE i) = 1 ∧ t.get p (Rg.PREF_LAST_HT32 i) = s.ht32 p
        ∧ t.get p (Rg.PREF_CRASHES i) = (s.countedRestarts p i).length + 1)
  ∧ (∀ (p : Part) (i : Nat) (cause : RestartCause) (s : State), s.canFault p i = true → (s.countedRestarts p i).length < 2 →
      Gives (.prefectFaultRestart p i cause) s fun t => t.get p (Rg.PREF_STATE i) = 3 ∧ t.get p (Rg.PREF_LAST_HT32 i) = s.ht32 p
        ∧ t.get p (Rg.PREF_LAST_CAUSE i) = (match cause with
          | .kernelFault => 2
          | .escalation => 3
          | .sramUe => 4))
  ∧ (∀ (p : Part) (i comp : Nat) (s : State), s.canFault p i = true → (SMap.get [] comp (s.pref p i).compFaults) = [] →
      Gives (.componentFault p i comp) s fun t => t.get p (Rg.PREF_COMP_FAULTS i) = sat (Rg.PREF_COMP_FAULTS i).width (s.get p (Rg.PREF_COMP_FAULTS i) + 1)
        ∧ SMap.get [] comp (t.pref p i).compFaults = [s.now] ∧ t.get p (Rg.PREF_STATE i) = s.get p (Rg.PREF_STATE i))
  ∧ (∀ (m : MbGo) (s : State), MbReady m 0 none 1 s → m.argAt [1] 0 < prefectCount m.part → m.argAt [1] 0 ≠ 0 → s.get m.part (Rg.PREF_STATE (m.argAt [1] 0)) = 2 →
        s.prefRole m.part (m.argAt [1] 0) ≠ 0 →
      Gives (.prefectRestart m) s fun t => t.get m.part (Rg.PREF_STATE (m.argAt [1] 0)) = 3 ∧ t.get m.part (Rg.PREF_LAST_CAUSE (m.argAt [1] 0)) = 5
        ∧ (t.mail m.part m.box).wait = some { code := 0x93, tag := m.tag, irq := m.irq, dma := m.dma, args := [m.argAt [1] 0] })
  ∧ (∀ (p : Part) (i : Nat) (s : State), i < prefectCount p → s.get p (Rg.PREF_STATE i) = 3 → s.activating p = false → (s.unit p).slate.held = [] →
        (∀ b, b < 8 → (s.mail p b).wait = none) →
      Gives (.prefectRestartComplete p i []) s fun t => t.get p (Rg.PREF_STATE i) = 2)
  ∧ (∀ (p : Part) (i : Img) (s : State), s.activating p = true → (s.unit p).fw.staged = some i → (p = .sc → (imageHash (s.dieMem.readN i.addr (i.len + 96))).toNat = i.digest) →
        (s.unit p).slate.held = [] → (∀ b, b < 8 → (s.mail p b).wait = none) →
      Gives (.activationComplete p []) s fun t => (t.unit p).fw.running = some i ∧ (t.unit p).fw.staged = none ∧ (t.unit p).fw.activating = none
        ∧ t.get p Rg.LOAD_FW_VERSION = i.version % 2 ^ 32)
  ∧ (∀ (p : Part) (i : Img) (s : State), (s.unit p).fw.deferred = some i.imageDigest → (s.unit p).fw.staged = some i → (s.unit p).emerg.conds = 0 →
        (s.unit p).emerg.endNow = none → s.restarting p = false → s.activating p = false → (s.unit p).fw.accepts i = true →
      Gives (.deferredActivation p) s fun t => (t.unit p).fw.activating = some s.now ∧ (t.unit p).fw.deferred = none
        ∧ (t.unit p).fw.handoverSeq = (s.unit p).fw.handoverSeq + 1)
  ∧ (∀ (p : Part) (i comp : Nat) (l : List Nat) (s : State), s.canFault p i = true → ((SMap.get [] comp (s.pref p i).compFaults).filter fun t => decide (s.now < t + 600000000000)) = l →
      (l.length < 2 → Gives (.componentFault p i comp) s fun t => SMap.get [] comp (t.pref p i).compFaults = s.now :: l ∧ t.get p (Rg.PREF_STATE i) = s.get p (Rg.PREF_STATE i)
          ∧ t.get p (Rg.PREF_COMP_FAULTS i) = sat (Rg.PREF_COMP_FAULTS i).width (s.get p (Rg.PREF_COMP_FAULTS i) + 1))
        ∧ (2 ≤ l.length → exec (.componentFault p i comp) s = .next
            (((s.setPref p i { s.pref p i with compFaults := SMap.erase comp (s.pref p i).compFaults }).prefectFail p i 3).restage p)))
  ∧ (∀ (p : Part) (i : Nat) (bad : List Nat) (s u : State), i < prefectCount p → s.get p (Rg.PREF_STATE i) = 3 →
        (s.put p (Rg.PREF_STATE i) (if s.activating p then 6 else 2)).coldStarts p i (bad.filter (· == sectionOf p (s.prefRole p i))) = u →
      exec (.prefectRestartComplete p i bad) s = .next ((((fun v : State => if p = .fd then v.abortedBy (s.prefRole p i) else v)
        ((u.mbWaiting p 0x93).foldl (fun (t : State) b => match (t.mail p b).wait with
          | some w => if w.args == [i] then t.mbComplete p b (.ok []) else t
          | none => t) u)).flushStores p).releaseHeldWrites p |>.restage p))
  ∧ (∀ (p : Part) (bad : List Nat) (i : Img) (s u v : State), s.activating p = true → (s.unit p).fw.staged = some i → (p = .sc → (imageHash (s.dieMem.readN i.addr (i.len + 96))).toNat = i.digest) →
        ((s.prefectsRun p).setFw p { (s.unit p).fw with activating := none, staged := none }).setFw p (({ (s.unit p).fw with activating := none, staged := none, running := some i } : FwSt).keepRecord p i) = u →
        bad.foldl (fun (t : State) k => if (sectionIds p).contains k then t.coldStart p ((t.prefectOf p (k - sectionOf p 0)).getD 0) k else t) ((u.put p Rg.LOAD_FW_VERSION i.version).restage p) = v →
      (u.unit p).fw.staged = none ∧ (u.unit p).fw.activating = none ∧ (u.unit p).fw.running = some i
        ∧ exec (.activationComplete p bad) s = .next (((v.mbCompleteAll p 0x91 (.ok [])).afterActivation p).fwRegs p))

/-- SUPPLY_WARNING, GUARD_EXIT, CONFIG_TAKES_EFFECT, LADDER_DESCEND, LADDER_WAKE (R379, R385, R387, R389, R390). -/
def Obligations.GuardLadderAndConfiguration : Prop :=
  (∀ (p : Part) (mon vinMv : Nat) (s : State), (s.unit p).start.on = true → mon ≠ 0 → s.inGuard p = false →
      Gives (.supplyWarning p mon vinMv) s fun t => t.get p Rg.SUP_GUARD = 1 ∧ t.get p Rg.SUP_GUARD_SEEN = 1 ∧ t.get p Rg.SUP_WARN = 1
        ∧ t.get p Rg.SUP_GUARD_CNT = sat 16 (s.get p Rg.SUP_GUARD_CNT + 1) ∧ (t.unit p).start.guardHt = s.ht p ∧ (t.unit p).start.guardNow = s.now
        ∧ (p = .fd → t.get .fd Rg.SUP_VIN_MV = vinMv % 65536) ∧ (p = .sc → t.get .sc Rg.SPIN_SUP_WARN_N = 15 - mon % 16))
  ∧ (∀ (p : Part) (vinMv : Nat) (s : State), s.inGuard p = true → (∀ b, b < 8 → (s.mail p b).wait = none) →
      Gives (.guardExit p vinMv) s fun t => t.get p Rg.SUP_GUARD = 0 ∧ t.get p Rg.SUP_WARN = 0 ∧ t.get p Rg.SUP_LAST_START = (s.unit p).start.guardHt / 65536 % 2 ^ 32)
  ∧ (∀ (p : Part) (u unit : Nat) (s : State), (s.unit p).start.on = true → u < 5 → (s.rung p u unit).1 < min (s.get p (Rg.PL_PL_MAX u)) (s.ladderLimit p u unit) →
        (p = .sc → s.anyWaiting = false) → s.ladderIdle p u unit = true →
      Gives (.ladderDescend p u unit) s fun t => (t.rung p u unit).1 = (s.rung p u unit).1 + 1
        ∧ ((s.rung p u unit).1 = 0 → t.get p (Rg.PL_UNITS_DOWN u) = sat 8 (s.get p (Rg.PL_UNITS_DOWN u) + 1)))
  ∧ (∀ (p : Part) (u unit : Nat) (s : State), u < 5 → (s.rung p u unit).1 ≠ 0 →
      Gives (.ladderWake p u unit) s fun t => t.rung p u unit = (0, s.now) ∧ t.get p (Rg.PL_WAKES u) = sat (Rg.PL_WAKES u).width (s.get p (Rg.PL_WAKES u) + 1)
        ∧ t.get p (Rg.PL_UNITS_DOWN u) = (s.get p (Rg.PL_UNITS_DOWN u) - 1) % 2 ^ 8)
  ∧ (∀ (p : Part) (c : Img) (b : Nat) (s : State), (s.unit p).fw.config = some c → (s.unit p).fw.configBeat = some b → c.fields = [] → s.get p Rg.START_START_DEFAULTS = 0 →
      Gives (.configTakesEffect p) s fun t => t.get p Rg.LOAD_CONFIG_LOADED = 1 ∧ t.get p Rg.LOAD_CONFIG_VERSION = c.version % 2 ^ 32 ∧ t.get p Rg.START_START_DEFAULTS = 0)
  ∧ (∀ (c : Img) (b v : Nat) (s : State), s.fd.fw.config = some c → s.fd.fw.configBeat = some b → c.fields = [((Rg.DRL_DRILL_EN).key, v)] → s.get .fd Rg.START_START_DEFAULTS = 0 →
        v < 2 →
      Gives (.configTakesEffect .fd) s fun t => t.get .fd Rg.DRL_DRILL_EN = v ∧ t.get .fd Rg.LOAD_CONFIG_LOADED = 1 ∧ t.get .fd Rg.LOAD_CONFIG_VERSION = c.version % 2 ^ 32)
  ∧ (∀ (p : Part) (mon vinMv : Nat) (s : State), (s.unit p).start.on = true →
      Gives (.supplyWarning p mon vinMv) s fun t => t.get p Rg.SUP_WARN = ofBool (mon != 0) ∧ (t.unit p).start.warn = mon ∧ (t.unit p).start.lastWarn = s.now
        ∧ (mon = 0 ∨ s.inGuard p = true → t.get p Rg.SUP_GUARD = s.get p Rg.SUP_GUARD ∧ t.get p Rg.SUP_GUARD_CNT = s.get p Rg.SUP_GUARD_CNT)
        ∧ (mon ≠ 0 → s.inGuard p = false → t.get p Rg.SUP_GUARD = 1))
  ∧ (∀ (p : Part) (vinMv : Nat) (s : State), s.inGuard p = true →
      ∃ u : State, u.get p Rg.SUP_GUARD = 0 ∧ u.get p Rg.SUP_WARN = 0 ∧ u.get p Rg.SUP_LAST_START = (s.unit p).start.guardHt / 65536 % 2 ^ 32 ∧ u.mail p = s.mail p
        ∧ (s.unit p).start.lastWarn + 10000000 ≤ u.now ∧ exec (.guardExit p vinMv) s = .next (if p = .fd then (u.flushStores p).attDmaResume else u.flushStores p))
  ∧ (∀ (p : Part) (c : Img) (b : Nat) (s u v : State), (s.unit p).fw.config = some c → (s.unit p).fw.configBeat = some b → s.awaitBeat p b = v →
        (((c.fields.foldl (fun (t : State) e => t.takeField p e.1 e.2) (v.setFw p { (v.unit p).fw with configBeat := none })).put p Rg.START_START_DEFAULTS 0).put p Rg.LOAD_CONFIG_LOADED 1).put p
          Rg.LOAD_CONFIG_VERSION c.version = u →
      u.get p Rg.START_START_DEFAULTS = 0 ∧ u.get p Rg.LOAD_CONFIG_LOADED = 1 ∧ u.get p Rg.LOAD_CONFIG_VERSION = c.version % 2 ^ 32
        ∧ (p = .sc → exec (.configTakesEffect p) s = .next ((List.range (u.portsConfigured .sc v).die.stations).foldl
            (fun (t : State) n => t.setStn n { t.stn n with point := t.get .sc Rg.OPS_CURRENT }) (u.portsConfigured .sc v)))
        ∧ (p = .fd → exec (.configTakesEffect p) s = .next ((List.range 10).foldl (fun (t : State) n => t.outCtrlWritten n v)
            ((if (u.portsConfigured .fd v).get .fd Rg.ROLL_SEAT = 0 then u.portsConfigured .fd v else (u.portsConfigured .fd v).setRole 2).refCtrlWritten v)).ptpWritten))
  ∧ (∀ (p : Part) (u unit : Nat) (s : State), (s.rung p u unit).1 = 0 → exec (.ladderWake p u unit) s = .next s)

/-- REGISTER_WRITE, EMULATED_WRITE, EMULATED_READ, SHADOW_TIMEOUT, COUNTER_READ_CLEAR, TOKEN_WRITE, HT_SNAPSHOT_READ, HT_WRAP, MSIX_VECTOR_UNMASK, QUEUE_BIND (R9 to R11, R48, R54, R213, R361 to R364, R419, R420, R430). -/
def Obligations.RegisterAccess : Prop :=
  (∀ (p : Part) (req v : Nat) (s : State), s.mayWrite p req 0x14 (v % 2 ^ 32) = true →
      Gives (.registerWrite p req 0x14 4 v) s fun t => t.get p Rg.ALERT_EN_EN = v % 32 ∧ (32 ≤ v % 2 ^ 32 → t.get p Rg.ALERT_RSVD_WRITE = 1)
        ∧ Only p false (fun k => k = (Rg.ALERT_EN_EN).key ∨ (32 ≤ v % 2 ^ 32 ∧ k = (Rg.ALERT_RSVD_WRITE).key)) s t)
  ∧ (∀ (p : Part) (req off v : Nat) (s : State), ¬ (0x8000 ≤ off ∧ off < 0x8800) → s.mayWrite p req off (v % 2 ^ 32) = false →
      Gives (.registerWrite p req off 4 v) s fun t => t.get p Rg.SLATE_TOKEN_DENIED = 1 ∧ t.get p Rg.SLATE_DENIED_CNT = sat 8 (s.get p Rg.SLATE_DENIED_CNT + 1)
        ∧ Only p false (fun k => k = (Rg.SLATE_TOKEN_DENIED).key ∨ k = (Rg.SLATE_DENIED_CNT).key) s t)
  ∧ (∀ (p : Part) (req off size v : Nat) (s : State), 0x8000 ≤ off → off < 0x8800 → s.mayWrite p req off 0 = true → s.get p (Rg.MB_OWNED ((off - 0x8000) / 256)) = 0 →
      Gives (.registerWrite p req off size v) s fun t =>
        (t.mail p ((off - 0x8000) / 256)).data = (s.mail p ((off - 0x8000) / 256)).data.writeN (off % 256) (leBytes size v) ∧ Only p true (fun _ => False) s t)
  ∧ (∀ (p : Part) (req off size v : Nat) (s : State), ¬ (0x8000 ≤ off ∧ off < 0x8800) → size < 4 →
      Gives (.registerWrite p req off size v) s fun t => t.get p Rg.ALERT_RSVD_WRITE = 1 ∧ Only p false (fun k => k = (Rg.ALERT_RSVD_WRITE).key) s t)
  ∧ (∀ (req v : Nat) (s : State), s.mayWrite .fd req 0x404 (v % 2 ^ 32) = true → EmuOpen .fd 0x404 s → 10 ≤ v → v ≤ 1000000000 →
      Gives (.emulatedWrite .fd req 0x404 v) s fun t => t.get .fd Rg.REF_JUMP_NS = v ∧ ∀ f : Field, f.key ≠ (Rg.REF_JUMP_NS).key → t.get .fd f = s.get .fd f)
  ∧ (∀ (p : Part) (req off : Nat) (s : State), EmuOpen p off s → Gives (.emulatedRead p req off false) s fun t =>
      (t.unit p).slate.reply = { req := req, off := off, value := (s.readWord p req off).1 % 2 ^ 32, stale := false } ∧ t.get p Rg.SLATE_STALE_VIEW = 0)
  ∧ (∀ (p : Part) (req off : Nat) (late : Bool) (s : State), (p = .fd → 2 ≤ s.get .fd Rg.START_STAGE) → (p = .sc → s.get .sc Rg.START_FW_UP = 1) →
        s.ownerDown p off = true →
      Gives (.emulatedRead p req off late) s fun t => (t.unit p).slate.reply = { req := req, off := off, value := s.shadowOf p off % 2 ^ 32, stale := true }
        ∧ t.get p Rg.SLATE_STALE_VIEW = 1 ∧ t.get p Rg.SLATE_STALE_SEEN = 1)
  ∧ (∀ (p : Part) (a : EmuAcc) (s : State), (s.unit p).slate.emuQ = [a] →
      Gives (.shadowTimeout p) s fun t => (t.unit p).slate.reply = { req := a.req, off := a.off + a.lane, value := a.part (s.shadowOf p a.off), stale := true } ∧ (t.unit p).slate.emuQ = []
        ∧ t.get p Rg.SLATE_STALE_VIEW = 1 ∧ t.get p Rg.SLATE_BUSY = 0)
  ∧ (∀ (p : Part) (req : Nat) (s : State), Gives (.counterReadClear p req 0xB014 4) s fun t =>
      (t.unit p).slate.reply = { req := req, off := 0xB014, value := s.get p Rg.SUP_GUARD_CNT % 2 ^ 16, stale := false } ∧ t.get p Rg.SUP_GUARD_CNT = 0
        ∧ ∀ f : Field, f.key ≠ (Rg.SUP_GUARD_CNT).key → t.get p f = s.get p f)
  ∧ (∀ (p : Part) (req v : Nat) (s : State), Gives (.tokenWrite p req v) s fun t => SMap.find req (t.unit p).slate.latches = some (v % 2 ^ 32) ∧ (t.unit p).regs = (s.unit p).regs)
  ∧ (∀ (p : Part) (req size : Nat) (s : State), Gives (.htSnapshotRead p req size) s fun t =>
      SMap.find req (t.unit p).slate.snaps = some { ht := s.ht p, stat := s.fracStat p } ∧ (t.unit p).slate.reply = { req := req, off := 0x100, value := snapValue size { ht := s.ht p, stat := s.fracStat p } }
        ∧ (t.unit p).regs = (s.unit p).regs ∧ t.ht p = s.ht p)
  ∧ (∀ (p : Part) (s : State), (s.unit p).start.on = true → s.htNs p = 2 ^ 64 - 1 → Gives (.htWrap p) s fun t => t.get p Rg.HT_HT_WRAP = 1 ∧ t.htNs p ≤ 4
      ∧ ((s.unit p).clock = { ht := s.ht p } → t.ht p = (s.ht p + 262144) % 2 ^ 80))
  ∧ (∀ (v : Nat) (s : State), v < 8 → bit s.msix.masked v = true → bit s.msix.pending v = true → s.vectorCond v = true →
      Gives (.msixVectorUnmask v) s fun t => SMap.get 0 v t.msix.sent = SMap.get 0 v s.msix.sent + 1 ∧ bit t.msix.masked v = false ∧ bit t.msix.pending v = false)
  ∧ (∀ (req q ctx : Nat) (s : State), q < s.die.queues → q < 128 → s.mayWrite .sc req (0x4000 + 16 * q) (ctx % 64 + 64) = true → s.get .sc (Rg.Q_BOUND q) = 0 →
      Gives (.queueBind req q ctx) s fun t => t.get .sc (Rg.Q_CTX q) = ctx % 64 ∧ t.get .sc (Rg.Q_BOUND q) = 1
        ∧ t.get .sc (Rg.Q_BIND_GEN q) = (s.get .sc (Rg.Q_BIND_GEN q) + 1) % 256)
  ∧ (∀ (p : Part) (req off n : Nat) (fs : List Field) (s : State), off % 4 = 0 → off ≠ 0x100 → s.regAt p off = some (n, fs) → emulated fs = false →
      Gives (.counterReadClear p req off 4) s fun t => (t.unit p).slate.reply = { req := req, off := off, value := (s.readWord p req off).1 % 2 ^ 32, stale := false }
        ∧ ∀ f : Field, t.get p f = (s.readWord p req off).2.get p f)
  ∧ (∀ (p : Part) (a : EmuAcc) (l : List EmuAcc) (s : State), (s.unit p).slate.emuQ = a :: l →
      exec (.shadowTimeout p) s = .next ((s.serveStale p a).drainEmu p l))

/-- REF_GATE_END, REF_DISQUALIFY, REVERTIVE_WAIT_END, REF_PPS_EDGE, REF_ACCEPT, REF_ACCEPT_CANCEL (R58, R59, R61, R64 to R66, R68, R86). -/
def Obligations.ReferencesQualifyAndSteer : Prop :=
  (∀ (x : RefIn) (g : GateMeas) (s : State), s.refEnabled x = true → s.get .fd Rg.START_STAGE1_MET = 1 → (s.refSt x).drillUntil ≤ s.now → g.passes = true →
        s.get .fd x.qual = 0 → s.unformedRoot = true →
      Gives (.refGateEnd x g) s fun t => t.get .fd x.qual = 1 ∧ t.get .fd Rg.REFS_SELECTED ≠ 0)
  ∧ (∀ (x : RefIn) (g : GateMeas) (s : State), s.refEnabled x = true → s.get .fd Rg.START_STAGE1_MET = 1 → (s.refSt x).drillUntil ≤ s.now → g.passes = false →
        s.get .fd x.qual = 1 → s.get .fd Rg.REFS_SELECTED ≠ x.code → s.dist.hall.formBox = none →
      Gives (.refGateEnd x g) s fun t => t.get .fd x.qual = 0 ∧ t.get .fd Rg.REFS_REF_FAULT_SEEN = 1 ∧ t.get .fd Rg.REFS_SEL_STATE = s.get .fd Rg.REFS_SEL_STATE)
  ∧ (∀ (x : RefIn) (b : RefBreach) (s : State), s.refEnabled x = true → s.get .fd x.qual = 1 → s.get .fd Rg.REFS_SELECTED ≠ x.code → s.dist.hall.formBox = none →
      Gives (.refDisqualify x b) s fun t => t.get .fd x.qual = 0 ∧ t.get .fd x.refusedF = 0 ∧ t.get .fd Rg.REFS_REF_FAULT_SEEN = 1
        ∧ t.get .fd Rg.REFS_SEL_STATE = s.get .fd Rg.REFS_SEL_STATE ∧ t.get .fd Rg.REFS_SELECTED = s.get .fd Rg.REFS_SELECTED)
  ∧ (∀ (x : RefIn) (t0 : Nat) (s : State), (s.refSt x).wtrFrom = some t0 → s.primary = x → s.get .fd Rg.REFS_SEL_STATE = 1 → s.get .fd Rg.REF_REVERTIVE = 1 → s.get .fd x.qual = 1 →
        s.get .fd Rg.REFS_SELECTED ≠ x.code → t0 + s.get .fd Rg.REF_WTR_S * 1000000000 ≤ s.now → s.jumpPasses x = true → (s.refSt x).accept = none →
      Gives (.revertiveWaitEnd x) s fun t => t.get .fd Rg.REFS_SELECTED = x.code ∧ t.get .fd Rg.REFS_SEL_STATE = 1 ∧ t.get .fd Rg.REFS_LOCK = 1
        ∧ t.get .fd Rg.REFS_WTR_RUNNING = 0 ∧ t.get .fd x.refusedF = 0 ∧ (t.refSt x).wtrFrom = none)
  ∧ (∀ (x : RefIn) (coarse bin : Nat) (twin : Option Int) (cyc : Nat) (s u : State), u = s.pairEdge (.timing .fd) twin → s.refEnabled x = true → u.get .fd Rg.REFS_SELECTED ≠ x.code →
        u.getS .fd (Rg.REFK_KEEP x.idx) = 0 → (u.pair (.timing .fd)).stamp coarse bin 0 / 16384 % 4000000000 < 2000000000 →
      Gives (.refPpsEdge x coarse bin twin cyc) s fun t => t.get .fd (Rg.REFO_OFFSET x.idx) = (u.pair (.timing .fd)).stamp coarse bin 0 / 16384 % 4000000000 ∧ t.fd.clock = u.fd.clock
        ∧ ∀ f, f.key ≠ (Rg.REFO_OFFSET x.idx).key → t.get .fd f = u.get .fd f)
  ∧ (∀ (x : RefIn) (coarse bin : Nat) (twin : Option Int) (cyc : Nat) (s u : State), u = s.pairEdge (.timing .fd) twin → s.refEnabled x = true → u.isActiveRoot = true →
        u.get .fd Rg.REFS_SEL_STATE = 1 → u.get .fd Rg.REFS_SELECTED = x.code → u.getS .fd (Rg.REFK_KEEP x.idx) = 0 →
        (u.pair (.timing .fd)).stamp coarse bin 0 / 16384 % 4000000000 < 2000000000 →
      Gives (.refPpsEdge x coarse bin twin cyc) s fun t => t.get .fd (Rg.REFO_OFFSET x.idx) = (u.pair (.timing .fd)).stamp coarse bin 0 / 16384 % 4000000000
        ∧ t.get .fd Rg.HT_SLEWING = ofBool ((u.pair (.timing .fd)).stamp coarse bin 0 / 16384 % 4000000000 != 0)
        ∧ t.fd.clock = { u.fd.clock with slewRate := u.get .fd Rg.REF_SLEW_LIMIT * 100000, slewNext := none, slewLeft := -((((u.pair (.timing .fd)).stamp coarse bin 0 / 16384 % 4000000000 : Nat) : Int) * 16384 * 1000000000000000) })
  ∧ (∀ (m : MbGo) (x : RefIn) (s : State), MbReady m 1 none 8 s → m.part = .fd → s.isActiveRoot = true →
        (∀ j < 64, s.get .fd (Rg.JH_MEMBERS j) = 0) → m.argAt [1, 1, 4] 0 = x.code → m.argAt [1, 1, 4] 1 ≤ 1 → s.freeRunFormed = false → s.rootHoldover = false →
      Gives (.refAccept m) s fun t => Answered m 0 t ∧ t.get .fd Rg.REFS_ACCEPT_PENDING = 1
        ∧ (t.refSt x).accept = some (m.argAt [1, 1, 4] 1 == 1, toSigned 32 (m.argAt [1, 1, 4] 2)))
  ∧ (∀ (m : MbGo) (x : RefIn) (s : State), MbReady m 1 none 1 s → m.part = .fd → s.isActiveRoot = true → m.argAt [1] 0 = x.code →
        (s.refSt x).accept.isSome = true →
      Gives (.refAcceptCancel m) s fun t => Answered m 0 t ∧ (t.refSt x).accept = none ∧ t.refSt x.other = s.refSt x.other
        ∧ t.get .fd Rg.REFS_ACCEPT_PENDING = ofBool (s.refSt x.other).accept.isSome)

/-- HOLDOVER_BEAT, TEMPERATURE_READ, MODEL_LEARN, PTP_EXCHANGE, PTP_TIMEOUT, WALL_READ, SUBTREE_REJOIN, REJOIN_COMPLETE, PPS_OUT_PULSE, BELL_OUT_PULSE, OUT_REALIGN, OUT_REALIGN_DONE, HALL_FORM, HALL_FORM_LOAD (R42, R43, R70, R71, R75, R78, R80, R81, R83, R86, R432). -/
def Obligations.HoldoverWallTimeAndOutputs : Prop :=
  (∀ (s : State), s.onModel = true →
      exec .holdoverBeat s = .next { s with fd := { s.fd with clock := { s.fd.clock with rate := clampInt (-200000000000) 200000000000 (-s.modelY) } } })
  ∧ (∀ (t0 : Int) (s : State), s.dist.hold.spanLo ≤ t0 → t0 ≤ s.dist.hold.spanHi →
      Gives (.temperatureRead (some t0)) s fun t => t.get .fd Rg.REFS_HOLD_QUALITY = s.dist.hold.quality % 4 ∧ t.dist = { s.dist with hold := { s.dist.hold with temp := t0, tempNow := s.now, failing := false } }
        ∧ ∀ f, f.key ≠ (Rg.REFS_HOLD_QUALITY).key → t.get .fd f = s.get .fd f)
  ∧ (∀ (s : State), s.dist.hold.tempNow + 10000000000 ≤ s.now → s.dist.hold.quality = 2 →
      Gives (.temperatureRead none) s fun t => t.get .fd Rg.REFS_HOLD_QUALITY = 1 ∧ t.dist.hold = { s.dist.hold with failing := true })
  ∧ (∀ (y : Int) (gs : List LearnGate) (s : State), (s.get .fd Rg.REFS_SEL_STATE = 1 ∨ s.get .fd Rg.REFS_SEL_STATE = 2 ∨ s.get .fd Rg.REFS_SEL_STATE = 5) → s.roleUp .fd 1 = true →
        gs = ({ now := s.now, y := y, temp := s.dist.hold.temp } :: s.dist.hold.gates).filter (fun g => decide (s.now < g.now + 604800000000000)) →
        64 ≤ s.dist.hold.learned + 1 → gs.length < 16200 → s.dist.hold.failing = false →
      Gives (.modelLearn y) s fun t => t.dist.hold.gates = gs ∧ t.dist.hold.learned = s.dist.hold.learned + 1 ∧ t.dist.hold.quality = 1 ∧ t.get .fd Rg.REFS_HOLD_QUALITY = 1
        ∧ t.get .fd Rg.HOLD_F0 = ofSigned 32 (fitModel gs).1 ∧ t.get .fd Rg.HOLD_AGING = ofSigned 32 (fitModel gs).2.1 ∧ t.get .fd Rg.HOLD_C1 = ofSigned 32 (fitModel gs).2.2.1
        ∧ t.get .fd Rg.HOLD_C2 = ofSigned 32 (fitModel gs).2.2.2.1)
  ∧ (∀ (x : PtpMsg) (s : State), s.roleUp .fd 1 = true → s.get .fd Rg.PTP_PTP_EN = 1 → x.domain = s.get .fd Rg.PTP_DOMAIN → x.transport = s.get .fd Rg.PTP_TRANSPORT →
        x.peerDelay = s.flag .fd Rg.PTP_DELAY_MECH → (s.dist.ptp.hear x.master s.now).best x.master = true → (x.master.clockClass = 6 ∨ x.master.clockClass = 7) → x.utcValid = true → s.dist.ptp.hist = [] →
      Gives (.ptpExchange x) s fun t => t.get .fd Rg.PTP_WALL_STALE = 0 ∧ t.dist.ptp = { s.dist.ptp.hear x.master s.now with hist := [(s.htNs .fd, x.tai)], run := s.dist.ptp.run + 1, utcOffset := x.utcOffset, ever := s.dist.ptp.ever || decide (16 ≤ s.dist.ptp.run + 1), lastNow := s.now }
        ∧ (t.get .fd Rg.PTP_PTP_LOCKED = 1 ↔ 16 ≤ s.dist.ptp.run + 1))
  ∧ (∀ (x : PtpMsg) (s : State), s.roleUp .fd 1 = true → s.get .fd Rg.PTP_PTP_EN = 1 → x.domain = s.get .fd Rg.PTP_DOMAIN → x.transport = s.get .fd Rg.PTP_TRANSPORT →
        x.peerDelay = s.flag .fd Rg.PTP_DELAY_MECH → (s.dist.ptp.hear x.master s.now).best x.master = true → x.utcValid = false →
      Gives (.ptpExchange x) s fun t => t.get .fd Rg.PTP_PTP_LOCKED = 0 ∧ t.dist.ptp = { s.dist.ptp.hear x.master s.now with run := 0 })
  ∧ (∀ (s : State), s.get .fd Rg.PTP_PTP_EN = 1 →
      Gives .ptpTimeout s fun t => t.get .fd Rg.PTP_PTP_LOCKED = 0 ∧ t.get .fd Rg.PTP_WALL_STALE = 1 ∧ t.dist = { s.dist with ptp := { s.dist.ptp with run := 0 } }
        ∧ s.dist.ptp.lastNow + 10000000000 ≤ t.now)
  ∧ (∀ (m : MbGo) (i : Int) (s : State), MbReady m 1 none 8 s → m.part = .fd → s.dist.ptp.taiAt (m.argAt [8] 0) = some i →
      Gives (.wallRead m) s fun t => Only .fd true mbKeys s t ∧ Result m (packFields 0 [(8, ofSigned 64 i), (2, ofSigned 16 s.dist.ptp.utcOffset),
        (1, s.get .fd Rg.PTP_PTP_LOCKED), (1, s.get .fd Rg.PTP_WALL_STALE)]) s t)
  ∧ (∀ (m : MbGo) (n : Nat) (s : State), MbReady m 1 none 0 s → m.part = .fd → s.get .fd Rg.REFS_SEL_STATE = 4 → s.get .fd Rg.REFS_REJOIN_REFUSED = 1 → s.wantedParent = some n →
      Gives (.subtreeRejoin m) s fun t => Answered m 0 t ∧ t.get .fd Rg.REFS_SEL_STATE = 6 ∧ t.get .fd Rg.REFS_REJOIN_REFUSED = 0 ∧ t.get .fd Rg.REFS_SELECTED = n - 61
        ∧ t.fd.clock = { s.fd.clock with slewRate := s.get .fd Rg.REF_REJOIN_SLEW * 100000000 })
  ∧ (∀ (s u : State), s.get .fd Rg.REFS_SEL_STATE = 6 → 16 ≤ s.dist.hold.rejoinRun → u = s.nextBeat .fd →
      Gives .rejoinComplete s fun t => t.get .fd Rg.REFS_SEL_STATE = 2 ∧ t.get .fd Rg.REFS_LOCK = 1 ∧ t.get .fd Rg.HT_UNALIGNED = 0 ∧ t.get .fd Rg.HT_ALIGNED = 1
        ∧ t.get .fd Rg.HT_HOLDOVER = ofBool (s.link .fd (s.get .fd Rg.REFS_SELECTED + 61)).far.holdover
        ∧ t.get .fd Rg.HT_SLEWING = ofBool (s.link .fd (s.get .fd Rg.REFS_SELECTED + 61)).far.slewing
        ∧ t.fd.clock = { u.fd.clock with slewRate := 0 } ∧ t.sc = u.sc)
  ∧ (∀ (n : Nat) (s : State), n < 4 → s.outDriven n = true → s.get .fd (Rg.OUT_MODE n) = 0 → s.get .fd (Rg.OUT_OUT_FALLBACK n) = 0 →
      Gives (.ppsOutPulse n) s fun t => t.out n = { s.out n with pulses := (s.out n).pulses + 1, lastPulse := ((s.secondQ : Int) + s.trackPhase n).toNat, phase := s.trackPhase n, highUntil := ((s.secondQ : Int) + s.trackPhase n).toNat + 400 * s.get .fd (Rg.OUT_WIDTH n) }
        ∧ t.fd = s.fd ∧ t.sc = s.sc ∧ ∀ k, k ≠ n → t.out k = s.out k)
  ∧ (∀ (n ht : Nat) (w : BellWord) (s : State), 6 ≤ n → n < 10 → s.outDriven n = true → s.get .fd (Rg.OUT_ALL_JOBS n) = 1 → s.get .fd (Rg.OUT_MODE n) = 0 →
        s.get .fd (Rg.OUT_BELL_FORM n) = 1 → (s.out n).moveTo = none → (s.out n).pulses = 0 →
      Gives (.bellOutPulse n ht w) s fun t => t.out n = { s.out n with pulses := 1, lastPulse := ((4 * ht : Nat) + s.getS .fd (Rg.OUT_OFFSET n)).toNat, phase := s.getS .fd (Rg.OUT_OFFSET n), step := false, frameOut := bellFrame w } ∧ t.fd = s.fd)
  ∧ (∀ (m : MbGo) (n : Nat) (s : State), MbReady m 1 none 3 s → m.part = .fd → n < 6 → m.argAt [2, 1] 0 = 2 ^ n → s.get .fd (Rg.OUT_MODE n) = 1 →
      Gives (.outRealign m) s fun t => Answered m 0 t ∧ t.get .fd (Rg.OUT_REALIGNING n) = 1 ∧ (t.out n).moveTo = some (s.trackPhase n)
        ∧ (t.out n).step = (m.argAt [2, 1] 1 != 0) ∧ ∀ k, k ≠ n → t.out k = s.out k)
  ∧ (∀ (n : Nat) (v : Int) (s : State), n < 6 → (s.out n).step = false → s.get .fd (Rg.OUT_SOURCE n) = 0 → (s.out n).moveTo = some v →
      Gives (.outRealignDone n) s fun t => t.get .fd (Rg.OUT_REALIGNING n) = 0 ∧ t.get .fd (Rg.OUT_OUT_FALLBACK n) = 0
        ∧ t.out n = { s.out n with phase := v, moveTo := none } ∧ ∀ k, k ≠ n → t.out k = s.out k)
  ∧ (∀ (m : MbGo) (s : State), MbReady m 1 none 0 s → m.part = .fd → s.dist.variant = .vxd2880 → m.args = [] → 3 ≤ s.get .fd Rg.START_STAGE → s.get .fd Rg.HT_FORMED = 0 →
        s.parentAligned = false → s.dist.hall.otherFormed = false → s.get .fd Rg.ROLL_SEAT ≠ 0 → s.dist.hall.seatConflict = false → s.dist.hall.formBox = none →
      Gives (.hallForm m) s fun t => t.dist.hall = { s.dist.hall with formKind := s.epochKindNow, formAt := s.formFrom, formBox := some m.box, formHoming := none }
        ∧ (t.mail .fd m.box).wait = some { code := 5, tag := m.tag, irq := m.irq, dma := m.dma, args := [] } ∧ t.get .fd (Rg.MB_OWNED m.box) = 1)
  ∧ (∀ (b : Nat) (w : MbWait) (s : State), s.dist.hall.formBox = some b → b < 8 → (s.mail .fd b).wait = some w → s.dist.hall.formAt ≤ s.htNs .fd → s.dist.hall.formKind = 0 →
      Gives .hallFormLoad s fun t => t.ht .fd = 0 ∧ t.get .fd Rg.HT_FORMED = 1 ∧ t.get .fd Rg.HT_JOINED = 1 ∧ t.get .fd Rg.HT_ALIGNED = 1 ∧ t.get .fd Rg.HT_EPOCH_KIND = 0
        ∧ t.isActiveRoot = true ∧ t.get .fd Rg.ROLL_ROLL_VALID = 1 ∧ t.dist.hall.formBox = none ∧ t.get .fd (Rg.MB_STATUS b) = 0 ∧ t.get .fd (Rg.MB_DONE b) = 1)

/-- TDC_EDGE, TDC_GAP_QUEUE, TDC_GATE_END, TDC_DMA, TDC_RING_SET, TDC_CAL_NOW, TDC_CAL_READ, TDC_CAL_START, TDC_CAL_TABLE_DONE, TDC_CHECK_TIMEOUT, CAL_STALE, MAINS_ZC_EDGE, MAINS_GATE_END, MAINS_LINE_EDGE (R88 to R109). -/
def Obligations.TimeIntervalsAndMains : Prop :=
  (∀ (n src coarse bin st : Nat) (s : State), s.has2880 = true → n < 32 → s.get .fd (Rg.TDC_ENABLE n) = 1 → s.get .fd (Rg.TDC_SOURCE n) = src → s.get .fd (Rg.TDC_EDGE_SEL n) = 0 →
        s.get .fd (Rg.TDC_REGRESS_EN n) = 0 → s.get .fd (Rg.TDC_Q_MODE n) = 1 → (s.tdc n).lastStamp = none → (s.tdc n).pend = [] → (s.tdc n).queue = [] → (s.tdc n).pair.cal = .idle →
        (s.tdc n).pair.owed = none → st = (s.tdc n).pair.stamp coarse bin (s.trim .fd (trimTdc n)) → (s.tdc n).busyUntil ≤ st →
      Gives (.tdcEdge n src coarse true bin none) s fun t => t.get .fd (Rg.TDC_QUEUE_LEVEL n) = 1
        ∧ t.tdc n = { s.tdc n with queue := [stampWord (st / nsLsb) st bin n 0 1 (s.get .fd Rg.HT_JOINED + 2 * s.get .fd Rg.HT_UNALIGNED + 4 * ((s.tdc n).pair.active % 2)) (s.tdc n).seq], seq := ((s.tdc n).seq + 1) % 2 ^ 24, lastStamp := some st, busyUntil := st + 20 * nsLsb })
  ∧ (∀ (n src coarse bin t0 st : Nat) (s : State), s.has2880 = true → n < 32 → s.get .fd (Rg.TDC_ENABLE n) = 1 → s.get .fd (Rg.TDC_SOURCE n) = src → s.get .fd (Rg.TDC_EDGE_SEL n) = 0 →
        s.get .fd (Rg.TDC_Q_MODE n) = 0 → (s.tdc n).lastStamp = some t0 → st = (s.tdc n).pair.stamp coarse bin (s.trim .fd (trimTdc n)) → t0 ≤ st → 10 * (st - t0) < 24 * nsLsb →
      Gives (.tdcEdge n src coarse true bin none) s fun t => t.get .fd (Rg.TDC_MISS_CNT n) = sat 32 (s.get .fd (Rg.TDC_MISS_CNT n) + 1) ∧ t.get .fd (Rg.TDC_MISS n) = 1
        ∧ t.tdc n = { s.tdc n with seq := ((s.tdc n).seq + 1) % 2 ^ 24 })
  ∧ (∀ (n : Nat) (r : PendRec) (s : State), n < 32 → (s.tdc n).pend = [r] → (s.tdc n).queue.length < (if r.raw.isSome then 4095 else 4096) →
      Gives (.tdcGapQueue n) s fun t => t.tdc n = { s.tdc n with pend := [], queue := (s.tdc n).queue ++ [r.word n] } ∧ (∀ k, k ≠ n → t.tdc k = s.tdc k)
        ∧ t.get .fd (Rg.TDC_QUEUE_LEVEL n) = (s.tdc n).queue.length + 1)
  ∧ (∀ (n : Nat) (s : State), s.tdcGating n = true → (s.tdc n).gateLen ≠ 0 → (s.tdc n).gateEndNs ≤ s.htNs .fd →
        s.htNs .fd < ({ s.tdc n with gateFrom := (s.tdc n).gateEndNs, gateLen := s.get .fd (Rg.TDC_GATE_MS n) } : TdcCh).gateEndNs → (s.tdc n).fit.n < 3 →
      Gives (.tdcGateEnd n) s fun t => t.get .fd (Rg.TRES_VALID n) = 0 ∧ t.get .fd (Rg.TRES_GATE_SEQ n) = (s.get .fd (Rg.TRES_GATE_SEQ n) + 1) % 2 ^ 32
        ∧ (t.tdc n).fit = {} ∧ (t.tdc n).gateFrom = (s.tdc n).gateEndNs)
  ∧ (∀ (n w : Nat) (s : State), s.has2880 = true → n < 32 → s.get .fd (Rg.TDC_Q_MODE n) = 1 → (s.tdc n).ringLog2 ≠ 0 → (s.tdc n).queue = [w] →
        (s.tdc n).wr - (s.tdc n).rd < 2 ^ (s.tdc n).ringLog2 → (∀ k < 32, k ≠ n → (s.tdc k).queue = []) →
      Gives (.tdcDma 1) s fun t => t.tdc n = { s.tdc n with queue := [], wr := ((s.tdc n).wr + 1) % 2 ^ 64 } ∧ (∀ k < 32, k ≠ n → t.tdc k = s.tdc k) ∧ t.get .fd (Rg.TDC_QUEUE_LEVEL n) = 0
        ∧ t.hostMem = (s.hostMem.writeN ((s.tdc n).ringBase + 16 * ((s.tdc n).wr % 2 ^ (s.tdc n).ringLog2)) (leBytes 16 w)).writeN (s.tdc n).ringWb
            (leBytes 8 (((s.tdc n).wr + 1) % 2 ^ 64)) ∧ t.dieMem = s.dieMem ∧ t.dist.tdcTurn = (n + 1) % 32)
  ∧ (∀ (m : MbGo) (s : State), MbReady m 1 none 32 s → m.part = .fd → s.dist.variant = .vxd2880 → m.argAt [1, 8, 1, 8] 0 < 32 → m.argAt [1, 8, 1, 8] 1 % 4096 = 0 →
        12 ≤ m.argAt [1, 8, 1, 8] 2 → m.argAt [1, 8, 1, 8] 2 ≤ 24 → m.argAt [1, 8, 1, 8] 3 % 64 = 0 → s.get .fd (Rg.TDC_Q_MODE (m.argAt [1, 8, 1, 8] 0)) = 0 →
      Gives (.tdcRingSet m) s fun t => Answered m 0 t ∧ t.get .fd (Rg.TDC_RDIDX (m.argAt [1, 8, 1, 8] 0)) = 0
        ∧ t.tdc (m.argAt [1, 8, 1, 8] 0) = { s.tdc (m.argAt [1, 8, 1, 8] 0) with ringBase := m.argAt [1, 8, 1, 8] 1, ringLog2 := m.argAt [1, 8, 1, 8] 2, ringWb := m.argAt [1, 8, 1, 8] 3, wr := 0, rd := 0 })
  ∧ (∀ (m : MbGo) (n : Nat) (s : State), MbReady m 1 none 4 s → m.part = .fd → s.dist.variant = .vxd2880 → n < 32 → m.argAt [4] 0 = 2 ^ n → (s.tdc n).pair.fails < 2 → (s.tdc n).pair.cal = .idle →
      Gives (.tdcCalNow m) s fun t => Answered m 0 t ∧ t.tdc n = { s.tdc n with pair := { (s.tdc n).pair with cal := .density, queued := false } } ∧ t.get .fd (Rg.TDC_CAL_RUNNING n) = 1 ∧ t.get .fd (Rg.TDC_CAL_PENDING n) = 0)
  ∧ (∀ (m : MbGo) (s : State), MbReady m 1 none 3 s → m.part = .fd → s.dist.variant = .vxd2880 → m.argAt [1, 1, 1] 0 < 32 → m.argAt [1, 1, 1] 1 = 0 → m.argAt [1, 1, 1] 2 ≤ 1 →
      Gives (.tdcCalRead m) s fun t => Only .fd true mbKeys s t
        ∧ Result m (((((s.tdc (m.argAt [1, 1, 1] 0)).pair.main.drop (128 * m.argAt [1, 1, 1] 2)).take 128).map fun h => leBytes 2 ((1600000 * h + 1048576) / 2097152)).flatten.take 256) s t)
  ∧ (∀ (a : TdcAt) (temp : Int) (s : State), s.hasPair a = true → (s.pair a).fails < 2 → (s.pair a).swapNow + s.calPeriod a * 1000000000 ≤ s.now → (s.pair a).cal = .idle →
      Gives (.tdcCalStart a temp) s fun t => t.pair a = { s.pair a with temp := temp, cal := .density, queued := false }
        ∧ ∀ n, a = .channel n → t.get .fd (Rg.TDC_CAL_RUNNING n) = 1 ∧ t.get .fd (Rg.TDC_CAL_PENDING n) = 0)
  ∧ (∀ (a : TdcAt) (hits : List Nat) (s : State), (s.pair a).cal = .density → tablePasses hits = true →
      Gives (.tdcCalTableDone a hits) s fun t => t.pair a = { s.pair a with twin := hits, twinNow := s.now, cal := .check, diffs := [], checkFrom := s.now }
        ∧ ∀ n, a = .channel n → ∀ k, k ≠ n → t.tdc k = s.tdc k)
  ∧ (∀ (a : TdcAt) (s : State), (s.pair a).cal = .check →
      Gives (.tdcCheckTimeout a) s fun t => t.pair a = (s.pair a).swap t.now false ∧ (t.pair a).main = (s.pair a).twin ∧ (t.pair a).twin = (s.pair a).main ∧ (s.pair a).checkFrom + 120000000000 ≤ t.now)
  ∧ (∀ (n : Nat) (s : State), s.has2880 = true → n < 32 →
      Gives (.calStale n) s fun t => t.get .fd (Rg.TDC_CAL_STALE n) = 1 ∧ (s.tdc n).pair.mainNow + 2 * s.get .fd (Rg.TDC_CAL_PERIOD_S n) * 1000000000 < t.now)
  ∧ (∀ (p stamp levels : Nat) (s : State), s.has2880 = true → p < 6 → bit (s.get .fd Rg.MNS_ZC_EN) p = true → SMap.find p s.dist.mains.last = none → s.dist.mains.gateLen ≠ 0 →
        coarseStamp stamp / nsLsb < s.dist.mains.gateEndNs →
      Gives (.mainsZcEdge p stamp levels) s fun t => t.get .fd Rg.PIN_MAINS_ZC = levels % 64
        ∧ t.dist.mains = { s.dist.mains with last := SMap.set p (coarseStamp stamp) s.dist.mains.last, fits := SMap.set p (Fit.place s.mainsNom (coarseStamp stamp) (SMap.get {} p s.dist.mains.fits)) s.dist.mains.fits })
  ∧ (∀ (s : State), s.has2880 = true → s.get .fd Rg.MNS_ZC_EN ≠ 0 → s.dist.mains.gateLen ≠ 0 → s.dist.mains.gateEndNs ≤ s.htNs .fd →
        s.htNs .fd < ({ s.dist.mains with gateFrom := s.dist.mains.gateEndNs, gateLen := s.get .fd Rg.MNS_GATE_10MS } : MainsSt).gateEndNs → s.dist.mains.fits = [] →
        s.get .fd Rg.MNS_MAINS_VALID = 0 → s.get .fd Rg.MNS_ROCOF_VALID = 0 →
      Gives .mainsGateEnd s fun t => t.get .fd Rg.MNS_PHASE_VALID = 0 ∧ t.get .fd Rg.MNS_FEED_VALID = 0 ∧ t.get .fd Rg.MNS_MAINS_VALID = 0 ∧ t.get .fd Rg.MNS_ROCOF_VALID = 0
        ∧ (∀ p < 6, t.get .fd (Rg.MNS_ANGLE_P p) = 0) ∧ t.get .fd Rg.MNS_GATE_SEQ = (s.get .fd Rg.MNS_GATE_SEQ + 1) % 2 ^ 32 ∧ t.dist.mains.gateFrom = s.dist.mains.gateEndNs)
  ∧ (∀ (level : Bool) (stamp held : Nat) (s : State), s.has2880 = true → 1000 ≤ held →
      Gives (.mainsLineEdge true level stamp held) s fun t => t.get .fd Rg.PIN_MAINS_FREQ_ALM_N = ofBool level ∧ t.get .fd Rg.MNS_FREQ_ALM = ofBool (!level) ∧ t.get .fd Rg.MNS_SAG = s.get .fd Rg.MNS_SAG)
  ∧ (∀ (level : Bool) (stamp held : Nat) (s : State), s.has2880 = true → 1000 ≤ held →
      Gives (.mainsLineEdge false level stamp held) s fun t => t.get .fd Rg.PIN_MAINS_SAG_N = ofBool level ∧ t.get .fd Rg.MNS_SAG = ofBool (!level) ∧ t.get .fd Rg.MNS_FREQ_ALM = s.get .fd Rg.MNS_FREQ_ALM)

/-- TDC_RDIDX_WRITE, STROBE_CFG_WRITE, STROBE_EN_WRITE, PD_BASE_WRITE, CHK_EXPECT_WRITE, CHK_VALUE_READ, CHK_VALUE_WRITE, ATT_WIN_SELECT (R93, R164, R278 to R280, R305, R420). -/
def Obligations.RegisterCommands : Prop :=
  (∀ (req n v : Nat) (s : State), n < 32 → v < 2 ^ 24 → s.dist.variant = .vxd2880 → s.mayWrite .fd req (0x101C + 32 * n) v = true → EmuOpen .fd (0x101C + 32 * n) s →
      Gives (.tdcRdidxWrite req n v) s fun t => t.get .fd (Rg.TDC_RDIDX n) = v
        ∧ (∀ k, v = ((s.tdc n).rd + k) % 2 ^ 24 → k < 2 ^ 23 → (s.tdc n).rd + k ≤ (s.tdc n).wr → t.tdc n = { s.tdc n with rd := (s.tdc n).rd + k }))
  ∧ (∀ (req k v : Nat) (s : State), k < 8 → v < 2 ^ 32 → s.mayWrite .sc req (0x2C94 + 16 * k) v = true → EmuOpen .sc (0x2C94 + 16 * k) s →
      Gives (.strobeCfgWrite req k 1 v) s fun t => t.get .sc (Rg.STRB_START_HB_LO k) = v)
  ∧ (∀ (req n v : Nat) (s : State), n < s.die.stations → n < 256 → v < 2 ^ 24 → 250 ≤ v / 256 → s.mayWrite .sc req (0x3000 + 16 * n) v = true → EmuOpen .sc (0x3000 + 16 * n) s →
      Gives (.strobeEnWrite req n v) s fun t => t.get .sc (Rg.STN_STROBE_EN n) = v % 256 ∧ t.get .sc (Rg.STN_DEBT_BOUND n) = v / 256)
  ∧ (∀ (req v : Nat) (s : State), v < 2 ^ 32 → bits v 1 11 = 0 → s.die.payload = true → s.get .sc Rg.SPAY_IN_FLIGHT = 0 → s.mayWrite .sc req 0x6800 v = true →
      Gives (.pdBaseWrite req false v) s fun t => t.get .sc Rg.PD_BASE_LO = v / 4096 ∧ t.get .sc Rg.PD_PD_EN = v % 2 ∧ t.fd = s.fd ∧ t.dist = s.dist ∧ t.die = s.die)
  ∧ (∀ (req v : Nat) (s : State), v < 2 ^ 29 → s.die.checker = true → s.get .sc Rg.CHK_FINAL_VALID = 0 → s.mayWrite .sc req 0x6914 v = true → s.get .sc Rg.CHK_EXPECT_LO < 2 ^ 32 →
      Gives (.chkExpectWrite req v) s fun t => t.get .sc Rg.CHK_EXPECT_HI = v ∧ t.get .sc Rg.CHK_EXPECT_LO = s.get .sc Rg.CHK_EXPECT_LO ∧ t.get .sc Rg.CHK_EXP_VALID = 1)
  ∧ (∀ (req : Nat) (s : State), s.die.checker = true →
      Gives (.chkValueRead req) s fun t => t.sc.slate.reply = { req := req, off := 0x6908, value := s.die.pay.chk % 2 ^ 32, stale := false } ∧ t.die.pay = { s.die.pay with chkLatch := s.die.pay.chk })
  ∧ (∀ (req v : Nat) (s : State), v < 2 ^ 29 → s.die.checker = true → s.get .sc Rg.CHK_FINAL_VALID = 0 → s.mayWrite .sc req 0x690C v = true →
      Gives (.chkValueWrite req v) s fun t => t.die.pay = { s.die.pay with chk := (s.get .sc Rg.CHK_VALUE_LO + 2 ^ 32 * v) % resMod } ∧ t.get .sc Rg.CHK_VALUE_HI = v)
  ∧ (∀ (req v : Nat) (s : State), v < 2 ^ 32 → s.mayWrite .fd req 0x7038 v = true → EmuOpen .fd 0x7038 s →
      Gives (.attWinSelect req v) s fun t => t.get .fd Rg.ATT_WIN_SEQ = v ∧ t.get .fd Rg.ATT_WIN_BUSY = 1 ∧ t.get .fd Rg.ATT_WIN_VALID = 0 ∧ t.get .fd Rg.ATT_WIN_GONE = 0
        ∧ t.dist.arch.window = none)

/-- STEER_BEAT, STEP_CORE_HOLDOVER_RETURN, SIGNAL_DETECT, LOSS_OF_SIGNAL, TRAINING_TIMEOUT, RANGING_TIMEOUT, SUSPECT_TIMEOUT, SUSPECT_CLEAR, RESIDUE_EXCEEDED, LINK_BACKOFF_END, RETRANSMIT_TIMEOUT (R113, R123, R129, R135 to R138, R141, R146). -/
def Obligations.LinksTrainAndFail : Prop :=
  (∀ (n : Nat) (s : State), n < 64 → s.get .fd Rg.REFS_ROLE = 1 → s.get .fd (Rg.LINK_LSTATE n) ≠ 0 →
      Gives (.lossOfSignal .fd n) s fun t => t.get .fd (Rg.LINK_LSTATE n) = 0 ∧ t.get .fd (Rg.LINK_DELAY n) = 2 ^ 32 - 1
        ∧ t.get .fd (Rg.LINK_LINK_OFFSET n) = 0x80000000 ∧ (t.link .fd n).txq = [] ∧ (t.link .fd n).out = [])
  ∧ (∀ (n : Nat) (s : State), n < 64 → s.get .fd Rg.REFS_ROLE = 1 → s.get .fd (Rg.LINK_LSTATE n) = 1 → s.trainHold .fd n = false →
        (s.link .fd n).heldNs = 0 → (s.link .fd n).heldFrom = none → (s.link .fd n).enteredNow + 1000000000 ≤ s.now →
      Gives (.trainingTimeout .fd n) s fun t => t.get .fd (Rg.LINK_LSTATE n) = 0 ∧ (t.link .fd n).fails = (s.link .fd n).fails + 1
        ∧ (t.link .fd n).backoffUntil = s.now + (if 8 ≤ (s.link .fd n).fails + 1 then 10000000000 else 100000000))
  ∧ (∀ (n : Nat) (s : State), n < 64 → s.get .fd Rg.REFS_ROLE = 1 → s.get .fd (Rg.LINK_LSTATE n) = 2 → s.rangeHold .fd n = false →
        (s.link .fd n).heldNs = 0 → (s.link .fd n).heldFrom = none → (s.link .fd n).enteredNow + 400000000 ≤ s.now →
      Gives (.rangingTimeout .fd n) s fun t => t.get .fd (Rg.LINK_LSTATE n) = 0 ∧ (t.link .fd n).fails = (s.link .fd n).fails + 1
        ∧ (t.link .fd n).backoffUntil = s.now + (if 8 ≤ (s.link .fd n).fails + 1 then 10000000000 else 100000000))
  ∧ (∀ (n : Nat) (s : State), n < 64 → s.get .fd Rg.REFS_ROLE = 1 → s.get .fd (Rg.LINK_LSTATE n) = 4 →
        s.get .fd (Rg.LINK_SUSPECT_CAUSE n) ≠ 0 → s.get .fd (Rg.LINK_SUSPECT_CAUSE n) ≠ 8 → (s.link .fd n).enteredNow + 100000000 ≤ s.now →
      Gives (.suspectTimeout .fd n) s fun t => t.get .fd (Rg.LINK_LSTATE n) = 0 ∧ (t.link .fd n).fails = (s.link .fd n).fails + 1)
  ∧ (∀ (p : Part) (n : Nat) (s : State), s.get p (Rg.LINK_LSTATE n) = 4 → s.get p (Rg.LINK_SUSPECT_CAUSE n) = 8 → exec (.suspectTimeout p n) s = .next s)
  ∧ (∀ (n : Nat) (far : Bool) (s : State), n < 64 → s.get .fd (Rg.LINK_LSTATE n) = 0 → s.portEnabled .fd n = true → s.fd.start.on = true →
        (s.link .fd n).backoffUntil ≤ s.now → (s.link .fd n).faulty = false →
      Gives (.signalDetect .fd n far) s fun t => t.get .fd (Rg.LINK_LSTATE n) = 1 ∧ (t.link .fd n).enteredNow = s.now ∧ (t.link .fd n).nextLseq = 0
        ∧ (t.link .fd n).rxNext = 0 ∧ (t.link .fd n).payCur = min 38 (s.get .fd (Rg.LINK_PAY_CW n))
        ∧ (t.link .fd n).precode = (far && s.flag .fd (Rg.LINK_PRECODE_ALLOW n)))
  ∧ (∀ (n : Nat) (s : State), n < 64 → s.get .fd Rg.REFS_ROLE = 1 → s.get .fd (Rg.LINK_LSTATE n) = 4 → 64 ≤ (s.link .fd n).clearRun →
      Gives (.suspectClear .fd n) s fun t => t.get .fd (Rg.LINK_LSTATE n) = 3 ∧ t.get .fd (Rg.LINK_SUSPECT_CAUSE n) = 0 ∧ t.get .fd (Rg.LINK_CHANNEL_RANGE n) = 0
        ∧ t.link .fd n = { s.link .fd n with enteredNow := s.now, clearRun := 0, heldNs := 0, heldFrom := none })
  ∧ (∀ (n : Nat) (s : State), n < 64 → s.get .fd Rg.REFS_ROLE = 1 → s.get .fd (Rg.LINK_LSTATE n) = 3 → 64 ≤ (s.link .fd n).residRun →
        (s.link .fd n).calRun = none → s.optical .fd n = false →
      Gives (.residueExceeded .fd n) s fun t => t.get .fd (Rg.LINK_LSTATE n) = 4 ∧ t.get .fd (Rg.LINK_SUSPECT_CAUSE n) = setBit (s.get .fd (Rg.LINK_SUSPECT_CAUSE n)) 3 % 2 ^ 4
        ∧ t.get .fd (Rg.LINK_CAL_REQUIRED n) = 1 ∧ (t.link .fd n).calWant = true)
  ∧ (∀ (p : Part) (n : Nat) (s : State),
      Gives (.linkBackoffEnd p n) s fun t => (s.link p n).backoffUntil ≤ t.now ∧ t.link p n = { s.link p n with backoffUntil := 0 })
  ∧ (∀ (p : Part) (n : Nat) (s : State) (w : Machine.Sent) (l : List Machine.Sent), (s.link p n).out = w :: l → s.linkUp p n = true →
      Gives (.retransmitTimeout p n) s fun t => t.link p n = { s.link p n with resend := some w.lseq })
  ∧ (∀ (s : State), s.die.coreHold = true → 16 ≤ s.die.holdRun → s.get .sc (Rg.LINK_LSTATE s.die.timePort) = 3 →
      Gives .stepCoreHoldoverReturn s fun t => t.get .sc Rg.HT_UNALIGNED = 0 ∧ t.get .sc Rg.HT_ALIGNED = 1
        ∧ t.get .sc Rg.HT_HOLDOVER = ofBool (s.link .sc s.die.timePort).far.holdover ∧ t.die = { s.die with coreHold := false, holdRun := 0 } ∧ t.sc.clock.slewRate = 0)
  ∧ (∀ (s : State), s.get .fd Rg.REFS_SEL_STATE = 2 → s.get .fd Rg.REFS_SELECTED = 3 → s.get .fd (Rg.LINK_LSTATE 64) = 4 →
        (s.link .fd 64).exch ≠ [] → (s.link .fd 64).heldModel = false → (s.link .fd 65).heldModel = false →
      Gives (.steerBeat .fd) s fun t => t.fd.clock.rate = clampInt (-200000000000) 200000000000 (beatToRate (-(fitLine (s.link .fd 64).exch).2)))

/-- CARRYING_ROLE_MOVE, LINK_CAL, LINK_SWAP, LINK_RESET, REFLECT_RUN_START, CAL_SLICE, REFLECT_RUN_END, SPARE_READY, SWAP_AT_BOUNDARY, PAY_SPLIT_CHANGE, FRAME_RECEIVE, PKG_SLOT_RECEIVE, FRAME_LAUNCH (R20, R116 to R120, R131 to R134, R138, R144, R145, R148, R160). -/
def Obligations.LinkCommands : Prop :=
  (∀ (m : MbGo) (n : Nat) (s : State), MbReady m 5 none 2 s → m.part = .fd → m.argAt [1, 1] 0 = n → m.argAt [1, 1] 1 = 0 → n < 80 → s.optical .fd n = false →
      Gives (.linkCal m) s fun t => Answered m 0 t ∧ t.link .fd n = { s.link .fd n with calWant := true })
  ∧ (∀ (m : MbGo) (n : Nat) (s : State), MbReady m 5 none 2 s → m.part = .fd → m.argAt [1, 1] 0 = n → m.argAt [1, 1] 1 = 0 → n < 72 → s.get .fd (Rg.LINK_ON_SPARE n) = 0 →
        s.spareFree .fd n = true →
      Gives (.linkSwap m) s fun t => Answered m 0 t ∧ t.get .fd (Rg.LINK_SWAP_PENDING n) = 1 ∧ (t.link .fd n).swapBack = false ∧ (t.link .fd n).swapAt = none)
  ∧ (∀ (m : MbGo) (n : Nat) (s : State), MbReady m 5 none 1 s → m.part = .fd → m.argAt [1] 0 = n → n < 64 → s.get .fd Rg.REFS_ROLE = 1 → s.get .fd (Rg.LINK_LSTATE n) ≠ 0 →
      Gives (.linkReset m) s fun t => Answered m 0 t ∧ t.get .fd (Rg.LINK_LSTATE n) = 0 ∧ (t.link .fd n).fails = 0
        ∧ (s.get .fd (Rg.LINK_LSTATE n) ≠ 3 → s.get .fd (Rg.LINK_LSTATE n) < 5 → (t.link .fd n).backoffUntil = s.now + 100000000))
  ∧ (∀ (n : Nat) (s : State), n < 64 → (s.link .fd n).calWant = true → s.roleUp .fd 5 = true → s.optical .fd n = false → (s.link .fd n).calRun = none → s.get .fd (Rg.LINK_LSTATE n) = 2 →
      Gives (.reflectRunStart .fd n) s fun t => (t.link .fd n).calRun = some { nextBeat := s.beat .fd + 17 } ∧ (t.link .fd n).calWant = false ∧ t.get .fd (Rg.LINK_CAL_RUNNING n) = 1)
  ∧ (∀ (p : Part) (n a b : Nat) (r : Machine.CalRun) (s : State), (s.link p n).calRun = some r → r.slices < 7 →
      Gives (.calSlice p n a b) s fun t => t.link p n = { s.link p n with calRun := some { r with slices := r.slices + 1, sum := r.sum + (lsbToPs (roundDiv ((b : Int) - a) 2 - s.trim p (trimTdr (s.laneOf p n)))), nextBeat := r.nextBeat + 8 } })
  ∧ (∀ (p : Part) (n a b : Nat) (r : Machine.CalRun) (s : State), (s.link p n).calRun = some r → r.slices = 7 →
      Gives (.calSlice p n a b) s fun t => (t.link p n).tunnel = (s.link p n).tunnel ++ [.calAverage (roundDiv (r.sum + (lsbToPs (roundDiv ((b : Int) - a) 2 - s.trim p (trimTdr (s.laneOf p n))))) 8)])
  ∧ (∀ (n : Nat) (sum far : Int) (b : Nat) (s : State), n < 64 → (s.link .fd n).calRun = some { slices := 8, sum := sum, farAvg := some far, nextBeat := b } →
        s.get .fd Rg.SUP_GUARD = 0 → s.roleUp .fd 5 = true →
      Gives (.reflectRunEnd .fd n) s fun t => (t.link .fd n).calRun = none ∧ t.get .fd (Rg.LINK_CAL_VALID n) = 1 ∧ t.get .fd (Rg.LINK_CAL_RUNNING n) = 0
        ∧ t.getS .fd (Rg.LINK_MED_ASYM n) = clampInt (-100000) 100000 (roundDiv sum 8 - far) ∧ (t.link .fd n).storedCal = (t.link .fd n).cal
        ∧ ((t.link .fd n).cal.map fun c => (c.basis, c.medAsym)) = some (1, clampInt (-100000) 100000 (roundDiv sum 8 - far)))
  ∧ (∀ (p : Part) (n : Nat) (s : State), s.get p (Rg.LINK_SWAP_PENDING n) = 1 → (s.link p n).swapAt = none →
      Gives (.spareReady p n true) s fun t => t.link p n = { s.link p n with swapAt := some (s.announceAt p n) } ∧ s.beat p + 16 ≤ s.announceAt p n)
  ∧ (∀ (n b : Nat) (s : State), n < 72 → (s.link .fd n).swapAt = some b → (s.link .fd n).swapBack = false →
      Gives (.swapAtBoundary .fd n) s fun t => t.get .fd (Rg.LINK_ON_SPARE n) = 1 ∧ t.get .fd (Rg.LINK_SPARE_MAP n) = 72 + n / 9 ∧ t.get .fd (Rg.LINK_SPARE_MAP (72 + n / 9)) = n
        ∧ t.get .fd (Rg.LINK_SWAP_PENDING n) = 0 ∧ t.get .fd (Rg.LINK_DEGRADED n) = 0 ∧ (t.link .fd n).swapAt = none ∧ (t.link .fd n).calRun = none)
  ∧ (∀ (p : Part) (n : Nat) (s : State), (s.link p n).payAnn = true → s.governs p n = false → (s.link p n).payNext < 64 →
      Gives (.paySplitChange p n) s fun t => t.link p n = { s.link p n with payCur := (s.link p n).payNext, payAnn := false })
  ∧ (∀ (n k : Nat) (s : State), s.get .fd Rg.REFS_ROLE = 4 → s.dist.hall.dualHere = true → s.dist.hall.slots = [] → s.get .fd (Rg.LINK_LSTATE 64) = 0 → n < 64 →
        bit s.dist.hall.carrying n = true →
      Gives (.carryingRoleMove k (2 ^ n) false) s fun t => bit t.dist.hall.carrying n = false ∧ (∀ i < 64, i ≠ n → bit t.dist.hall.carrying i = bit s.dist.hall.carrying i))
  ∧ (∀ (n : Nat) (x : Machine.RxFrame) (r : Machine.RxParts) (s : State), n < 64 → s.get .fd (Rg.LINK_LSTATE n) = 1 → s.get .fd Rg.REFS_SEL_STATE = 1 →
        (s.link .fd n).lockRun < 15 → (s.link .fd n).uncorr = [] → (s.link .fd n).symErr = [] → s.get .fd (Rg.LINK_DEGRADED n) = 0 → (s.link .fd n).calRun = none →
        (s.pair (.lane .fd (s.laneOf .fd n))).cal = .idle → (s.pair (.lane .fd (s.laneOf .fd n))).fault = false → x.parts (s.link .fd n).precode false = r →
        r.pattern = true → r.headerOk = true → r.uncorrected = 0 → r.corrected = 0 → r.blk.calAnn = false → r.blk.swapAnn = false →
      Gives (.frameReceive .fd n x) s fun t => (t.link .fd n).far = r.blk ∧ (t.link .fd n).farHeard = true ∧ (t.link .fd n).lockRun = (s.link .fd n).lockRun + 1
        ∧ (t.link .fd n).echoTx = r.timing.txHt
        ∧ (t.link .fd n).echoRx = (s.pair (.lane .fd (s.laneOf .fd n))).stamp x.coarse x.bin (s.trim .fd (trimRx (s.laneOf .fd n)))
        ∧ t.get .fd (Rg.LINK_FAR_ROLE n) = r.blk.role % 2 ^ 3 ∧ t.get .fd (Rg.LINK_LSTATE n) = 1)
  ∧ (∀ (n : Nat) (x : Machine.RxSlot) (c : Machine.CtlSlot) (s : State), 8 ≤ n → s.get .sc (Rg.LINK_LSTATE n) = 3 → x.parse = .control c → c.crcOk = true →
        c.lseq = (s.link .sc n).rxNext → s.rightWay .sc n c.word = true → (∀ a b, c.word.body ≠ .bell a b) → (∀ a b d e, c.word.body ≠ .monitor a b d e) →
      Gives (.pkgSlotReceive n x) s fun t => (t.link .sc n).rxNext = ((s.link .sc n).rxNext + 1) % 65536 ∧ t.sc.inbox = s.sc.inbox ++ [(n, c.word)])
  ∧ (∀ (n : Nat) (s : State), s.transmits .fd n = true → (s.link .fd n).lastTx = none → (s.link .fd n).calRun = none → (∀ k < 64, (s.link .fd k).goneAt = none) → s.get .fd (Rg.LINK_LSTATE n) = 1 →
      Gives (.frameLaunch .fd n) s fun t => ∃ f, (t.link .fd n).pins = f.levels (s.link .fd n).precode ∧ (t.link .fd n).lastTx = some f ∧ f.beat = s.beat .fd ∧ f.timing.txHt = (s.beat .fd * 1024 * nsLsb + 18725) % htSpan
        ∧ f.blk.lstate = 1 ∧ f.blk.position = n ∧ f.blk.cw0Ack = (s.link .fd n).rxNext ∧ f.cw0 = [] ∧ f.carriers = [] ∧ f.payload = [] ∧ f.records = [] ∧ f.tunnel = [])

/-- HEARTBEAT_SEND, HEARTBEAT_MISSING, REGION_CLOCK_MISSING, STROBE_FIRE, OPP_EVALUATE, OPP_SWITCH, OPP_CANCEL, STATION_READ, OPP_READY_ASSERT, OPP_READY_TIMEOUT, OPP_SEL_DRIVE, OPP_GO (R151 to R173, R177). -/
def Obligations.StationsKeepTimeAndLaunch : Prop :=
  (∀ (trip n : Nat) (s : State), s.die.running = true → s.die.sync.lastHb ≠ some (s.htNs .sc / 64 * 64) → n < s.die.stations → SMap.get 0 n s.die.hbOmit = 0 →
      Gives (.heartbeatSend trip) s fun t => (t.stn n).word.ht = s.htNs .sc / 64 * 64 ∧ (t.stn n).word.idx = s.htNs .sc / 64 * 64 / 64 % 16
        ∧ t.die.sync = { s.die.sync with lastHb := some (s.htNs .sc / 64 * 64), turn := if s.die.sync.turn + 1 < s.die.stations then s.die.sync.turn + 1 else 0 })
  ∧ (∀ (n : Nat) (es : List Nat) (s : State), s.stnLive n = true → ((s.stn n).edges (s.period n) es).missRun = 0 →
      Gives (.heartbeatMissing n es) s fun t => t.get .sc (Rg.STN_HB_MISS n) = sat 8 (s.get .sc (Rg.STN_HB_MISS n) + 1) ∧ (t.stn n).missRun = 1 ∧ (t.stn n).goodRun = 0
        ∧ t.get .sc (Rg.STN_RT_UNREL n) = s.get .sc (Rg.STN_RT_UNREL n))
  ∧ (∀ (n : Nat) (es : List Nat) (s : State), s.stnLive n = true → 1 ≤ ((s.stn n).edges (s.period n) es).missRun →
      Gives (.heartbeatMissing n es) s fun t => t.get .sc (Rg.STN_RT_UNREL n) = 1
        ∧ t.get .sc (Rg.STN_LOSS_CAUSE n) = setBit (s.get .sc (Rg.STN_LOSS_CAUSE n)) 0 % 4)
  ∧ (∀ (n : Nat) (s : State), s.stnLive n = true →
      Gives (.regionClockMissing n) s fun t => t.get .sc (Rg.STN_RT_UNREL n) = 1 ∧ t.get .sc (Rg.STN_LOSS_CAUSE n) = setBit (s.get .sc (Rg.STN_LOSS_CAUSE n)) 1 % 4)
  ∧ (∀ (n k : Nat) (es : List Nat) (x : Machine.Target) (l : List Machine.Target) (s : State), s.stnLive n = true → k < 8 → SMap.get [] k (s.stn n).targets = x :: l →
        ((s.stn n).edges (s.period n) es).reached x.ht = true → s.get .sc (Rg.STRB_SOURCE k) = 1 → x.source = 1 → s.get .sc (Rg.STRB_JOB k) = x.job →
        bit (s.get .sc (Rg.STN_STROBE_EN n)) k = true →
      Gives (.strobeFire n k es) s fun t => SMap.get 0 k (t.stn n).pulses = SMap.get 0 k (s.stn n).pulses + 1 ∧ SMap.get [] k (t.stn n).targets = l
        ∧ (t.stn n).strobeUnrel = s.flag .sc (Rg.STN_RT_UNREL n) ∧ (t.stn n).slip = 0)
  ∧ (∀ (temp : Int) (droop req i : Nat) (valid : Bool) (s : State), s.roleUp .sc 1 = true → 2 ≤ s.get .sc Rg.START_STAGE → s.get .sc Rg.SUP_GUARD = 0 → s.die.opp.pending = none →
        ((s.put .sc Rg.SPIN_OPP_REQ req).putFlag .sc Rg.SPIN_OPP_REQ_VALID valid).choosePoint temp droop = some i → i < 16 → i ≠ s.get .sc Rg.OPS_CURRENT →
      Gives (.oppEvaluate temp droop req valid) s fun t => t.get .sc Rg.OPS_PENDING = 1 ∧ t.get .sc Rg.OPS_NEXT = i ∧ t.get .sc Rg.OPS_PENDING_TT = 0
        ∧ t.die.opp.pending = some { point := i, at_ := ceilDiv (s.htNs .sc + 8192) 64 * 64, tt := false })
  ∧ (∀ (m : MbGo) (s : State), MbReady m 1 none 16 s → m.part = .sc → m.argAt [1, 8] 1 % 64 = 0 → m.argAt [1, 8] 0 < 16 → s.pointValid (m.argAt [1, 8] 0) = true → s.die.opp.pending = none →
        s.htNs .sc + 4096 ≤ m.argAt [1, 8] 1 → s.get .sc Rg.SUP_GUARD = 0 →
      Gives (.oppSwitch m) s fun t => Answered m 0 t ∧ t.get .sc Rg.OPS_PENDING = 1 ∧ t.get .sc Rg.OPS_NEXT = m.argAt [1, 8] 0
        ∧ t.die.opp.pending = some { point := m.argAt [1, 8] 0, at_ := m.argAt [1, 8] 1, tt := false })
  ∧ (∀ (m : MbGo) (w : OppSw) (s : State), MbReady m 1 none 0 s → m.part = .sc → s.die.opp.pending = some w → w.tt = false → s.htNs .sc + 1024 ≤ w.at_ →
      Gives (.oppCancel m) s fun t => Answered m 0 t ∧ t.get .sc Rg.OPS_PENDING = 0 ∧ t.die.opp.pending = none)
  ∧ (∀ (m : MbGo) (n : Nat) (s : State), MbReady m 1 none 1 s → m.part = .sc → m.argAt [1] 0 = n → n < s.die.stations →
      Gives (.stationRead m) s fun t => Result m (packFields 0 [(8, (s.stn n).debtSum), (2, (s.stn n).delay), (4, (s.stn n).orderLate), (4, (s.stn n).strobeLost), (4, (s.stn n).strobeClr)]) s t
        ∧ Only .sc true mbKeys s t)
  ∧ (∀ (w : OppSw) (s : State), s.die.opp.pending = some w → s.die.opp.armed = false →
      Gives .oppReadyAssert s fun t => t.get .sc Rg.SPIN_OPP_READY = 1 ∧ t.die.opp = { s.die.opp with armed := true })
  ∧ (∀ (w : OppSw) (s : State), s.die.opp.pending = some w → w.tt = false → s.get .sc Rg.SPIN_OPP_READY = 0 → w.at_ - 1024 ≤ s.htNs .sc → w.at_ ≤ s.htNs .sc + 1024 →
      Gives .oppReadyTimeout s fun t => t.get .sc Rg.OPS_OPP_UNREADY = sat 8 (s.get .sc Rg.OPS_OPP_UNREADY + 1) ∧ t.get .sc Rg.OPS_PENDING = 0 ∧ t.die.opp.pending = none)
  ∧ (∀ (n i a : Nat) (es : List Nat) (s : State), s.stnLive n = true → ((s.stn n).edges (s.period n) es).opp = some (i, a) → ((s.stn n).edges (s.period n) es).reached (a - 16) = true →
      Gives (.oppSelDrive n es) s fun t => t.stn n = { (s.stn n).edges (s.period n) es with sel := i })
  ∧ (∀ (n i a : Nat) (es : List Nat) (s : State), s.stnLive n = true → ((s.stn n).edges (s.period n) es).opp = some (i, a) → ((s.stn n).edges (s.period n) es).reached a = true →
        s.die.opp.pending = none →
      Gives (.oppGo n es) s fun t => t.stn n = { (s.stn n).edges (s.period n) es with sel := i, point := i, opp := none, rateTrim := 0, goPulses := ((s.stn n).edges (s.period n) es).goPulses + 1 })

/-- QUEUE_CMD_ACCEPT, NOP, ARRIVE, WAIT, ARRIVE_WAIT, FENCE, DRAIN_ACK, SIGNAL_HOST, WAIT_HOST, WAIT_BELL and its release, WAIT_TIME and its release, STAMP, RESERVED_OPCODE, HUB_RELEASE_AT_STATION (R179 to R184, R190 to R196, R201, R209). -/
def Obligations.SyncQueuesExecute : Prop :=
  (∀ (q cmd : Nat) (s : State), s.queueLive q = true → (s.queue q).entries.length < 64 → s.clearing q = false →
      Gives (.queueCmdAccept q cmd) s fun t => t.queue q = { s.queue q with
        entries := (s.queue q).entries ++ [{ tag := (s.queue q).nextTag, cmd := cmd % 2 ^ 64 }], nextTag := ((s.queue q).nextTag + 1) % 64 })
  ∧ (∀ (q : Nat) (es : List Nat) (e : Machine.QEntry) (pre rest : List Machine.QEntry) (s : State), AtHead q pre e rest s → e.op = 0 → Gives (.nop q es) s fun t => Released q pre e rest 0 0 s t)
  ∧ (∀ (q : Nat) (es : List Nat) (e : Machine.QEntry) (pre rest : List Machine.QEntry) (s : State), AtHead q pre e rest s → 11 ≤ e.op → Gives (.reservedOpcode q es) s fun t => Released q pre e rest 7 0 s t)
  ∧ (∀ (q i : Nat) (es : List Nat) (e : Machine.QEntry) (pre rest : List Machine.QEntry) (s : State), AtHead q pre e rest s → e.op = 1 → (s.queue q).fenced = true → s.stnFull q = false → (s.stn (s.get .sc (Rg.Q_STATION q))).valid = true →
        s.handle (s.get .sc (Rg.Q_CTX q)) (bits e.cmd 48 12) = some (.hub i) →
      Gives (.arrive q es) s fun t => (t.queue q).fenced = false ∧ (t.queue q).entries = pre ++ { e with phase := .passed } :: rest
        ∧ Sent q e ((s.stn (s.get .sc (Rg.Q_STATION q))).edges (s.period (s.get .sc (Rg.Q_STATION q))) es).stamp s t)
  ∧ (∀ (q i : Nat) (es : List Nat) (e : Machine.QEntry) (pre rest : List Machine.QEntry) (s : State), AtHead q pre e rest s → e.op = 2 → s.stnFull q = false → (s.stn (s.get .sc (Rg.Q_STATION q))).valid = true →
        s.handle (s.get .sc (Rg.Q_CTX q)) (bits e.cmd 48 12) = some (.hub i) →
      Gives (.wait q es) s fun t => (t.queue q).entries = pre ++ { e with phase := .stalled, target := none } :: rest ∧ t.get .sc (Rg.Q_WAITING q) = 1
        ∧ Sent q e ((s.stn (s.get .sc (Rg.Q_STATION q))).edges (s.period (s.get .sc (Rg.Q_STATION q))) es).stamp s t)
  ∧ (∀ (q : Nat) (es : List Nat) (e : Machine.QEntry) (pre rest : List Machine.QEntry) (s : State), AtHead q pre e rest s → e.op = 4 →
      Gives (.fence q es) s fun t => t.queue q = { s.queue q with entries := pre ++ { e with phase := .stalled, target := none } :: rest, drainReq := true } ∧ t.get .sc (Rg.Q_WAITING q) = 1)
  ∧ (∀ (q : Nat) (e : Machine.QEntry) (pre rest : List Machine.QEntry) (s : State), InQueue q pre e rest s → (∀ x ∈ pre, x.phase = .passed) → e.phase = .stalled → e.op = 4 → (s.queue q).drainReq = true →
      Gives (.drainAck q) s fun t => Released q pre e rest 0 0 s t ∧ (t.queue q).fenced = true ∧ (t.queue q).drainReq = false)
  ∧ (∀ (q : Nat) (es : List Nat) (e : Machine.QEntry) (pre rest : List Machine.QEntry) (s : State), AtHead q pre e rest s → q < 128 → e.op = 6 → s.get .sc (Rg.Q_CTX q) < 64 →
      Gives (.signalHost q es) s fun t => Released q pre e rest 0 0 s t
        ∧ t.get .sc (Rg.HF_SIG_LO (s.get .sc (Rg.Q_CTX q))) = setBit (s.get64 (Rg.HF_SIG_LO (s.get .sc (Rg.Q_CTX q))) (Rg.HF_SIG_HI (s.get .sc (Rg.Q_CTX q)))) (e.cmd % 64) % 2 ^ 32
        ∧ t.get .sc (Rg.HF_SIG_HI (s.get .sc (Rg.Q_CTX q))) = setBit (s.get64 (Rg.HF_SIG_LO (s.get .sc (Rg.Q_CTX q))) (Rg.HF_SIG_HI (s.get .sc (Rg.Q_CTX q)))) (e.cmd % 64) / 2 ^ 32 % 2 ^ 32)
  ∧ (∀ (q : Nat) (es : List Nat) (e : Machine.QEntry) (pre rest : List Machine.QEntry) (s : State), AtHead q pre e rest s → e.op = 7 → bit (s.hostFlags (s.get .sc (Rg.Q_CTX q))) (e.cmd % 64) = true →
      Gives (.waitHost q es) s fun t => Released q pre e rest 0 0 s t)
  ∧ (∀ (q : Nat) (es : List Nat) (e : Machine.QEntry) (pre rest : List Machine.QEntry) (s : State), AtHead q pre e rest s → e.op = 7 → bit (s.hostFlags (s.get .sc (Rg.Q_CTX q))) (e.cmd % 64) = false →
      Gives (.waitHost q es) s fun t => (t.queue q).entries = pre ++ { e with phase := .stalled, target := none } :: rest ∧ t.get .sc (Rg.Q_WAITING q) = 1)
  ∧ (∀ (q j : Nat) (es : List Nat) (e : Machine.QEntry) (pre rest : List Machine.QEntry) (s : State), AtHead q pre e rest s → e.op = 8 → s.ctxJob (s.get .sc (Rg.Q_CTX q)) = some j → s.get .sc (Rg.SJH_BELL_VALID j) = 1 →
        sdiff48 (e.cmd % 2 ^ 48) (s.lastBell j) ≤ 0 →
      Gives (.waitBell q es) s fun t => Released q pre e rest 0 (4 * s.get .sc (Rg.STN_RT_UNREL (s.get .sc (Rg.Q_STATION q)))) s t)
  ∧ (∀ (q : Nat) (es : List Nat) (e : Machine.QEntry) (pre rest : List Machine.QEntry) (s : State), AtHead q pre e rest s → e.op = 9 →
      Gives (.waitTime q es) s fun t => (t.queue q).entries = pre ++ { e with phase := .stalled, target := some ((s.stnEdges (s.get .sc (Rg.Q_STATION q)) es).timeTarget q e.cmd) } :: rest
        ∧ t.get .sc (Rg.Q_WAITING q) = 1)
  ∧ (∀ (q : Nat) (es : List Nat) (e : Machine.QEntry) (pre rest : List Machine.QEntry) (s : State), AtHead q pre e rest s → e.op = 10 →
      Gives (.stamp q es) s fun t => Released q pre e rest 0 0 s t ∧ t.dieMem = s.dieMem.writeN (16 * (e.cmd % 2 ^ 60))
        (ht80Bytes ((s.stn (s.get .sc (Rg.Q_STATION q))).edges (s.period (s.get .sc (Rg.Q_STATION q))) es).rt
          ((s.stnEdges (s.get .sc (Rg.Q_STATION q)) es).stnStat (s.get .sc (Rg.Q_STATION q)))))
  ∧ (∀ (q : Nat) (r : Machine.HubRel) (e : Machine.QEntry) (pre rest : List Machine.QEntry) (s : State), (s.die.sync.rels.find? fun x => x.q == q) = some r → s.get .sc (Rg.Q_BIND_GEN q) = r.bindGen → s.get .sc (Rg.Q_BOUND q) = 1 →
        InQueue q pre e rest s → e.tag = r.tag →
      Gives (.hubReleaseAtStation q) s fun t => Released q pre e rest r.status r.flags s t ∧ t.die.sync.rels = s.die.sync.rels.erase r)
  ∧ (∀ (q x : Nat) (es : List Nat) (e : Machine.QEntry) (pre rest : List Machine.QEntry) (s : State), s.queueLive q = true → InQueue q pre e rest s → (∀ x ∈ pre, x.phase = .passed) → e.phase = .stalled → e.op = 8 → e.target = some x →
        ((s.stn (s.get .sc (Rg.Q_STATION q))).edges (s.period (s.get .sc (Rg.Q_STATION q))) es).reached x = true →
      Gives (.waitBellRelease q es) s fun t => ∃ late : Bool, Released q pre e rest 0 (2 * ofBool late + 4 * s.get .sc (Rg.STN_RT_UNREL (s.get .sc (Rg.Q_STATION q)))) s t)
  ∧ (∀ (q x : Nat) (es : List Nat) (e : Machine.QEntry) (pre rest : List Machine.QEntry) (s : State), s.queueLive q = true → InQueue q pre e rest s → (∀ x ∈ pre, x.phase = .passed) → e.phase = .stalled → e.op = 9 → e.target = some x →
        ((s.stn (s.get .sc (Rg.Q_STATION q))).edges (s.period (s.get .sc (Rg.Q_STATION q))) es).reached x = true →
      Gives (.waitTimeRelease q es) s fun t => ∃ late : Bool, Released q pre e rest 0 (2 * ofBool late + 4 * s.get .sc (Rg.STN_RT_UNREL (s.get .sc (Rg.Q_STATION q)))) s t)
  ∧ (∀ (q i : Nat) (es : List Nat) (e : Machine.QEntry) (pre rest : List Machine.QEntry) (s : State), AtHead q pre e rest s → e.op = 3 → (s.queue q).fenced = true → s.stnFull q = false → (s.stn (s.get .sc (Rg.Q_STATION q))).valid = true →
        s.handle (s.get .sc (Rg.Q_CTX q)) (bits e.cmd 48 12) = some (.hub i) →
      Gives (.arriveWait q es) s fun t => (t.queue q).fenced = false ∧ (t.queue q).entries = pre ++ { e with phase := .stalled, target := none } :: rest ∧ t.get .sc (Rg.Q_WAITING q) = 1
        ∧ Sent q e ((s.stn (s.get .sc (Rg.Q_STATION q))).edges (s.period (s.get .sc (Rg.Q_STATION q))) es).stamp s t)

/-- HEARTBEAT_RECEIVE, STATION_EVENT_COMMIT, BARRIER_CREATE, BARRIER_FREE, CTX_BIND, CTX_SWITCH, CTX_CLEAR, CONTEXT_CLEAR_END, SLOT_READ, CTX_QUOTA, HOST_WAIT_CANCEL, MON_DUMP, DEADLOCK_DECLARE, HOST_ARRIVE, HOST_WAIT_ARM, HOST_FLAG_SET, HOST_FLAG_WITHDRAW, DIRECT_CREATE, DIRECT_FREE (R155, R169, R186, R187, R202 to R215). -/
def Obligations.BarriersAndContexts : Prop :=
  (∀ (n tap flips raw phi hb : Nat) (es : List Nat) (x : Machine.Station) (s : State), s.stnLive n = true → Nat.xor (s.stn n).word.toBits (flips % 2 ^ 64) = raw → bit raw 0 = true → hbPasses raw = true →
        { ((s.stn n).edges (s.period n) es).tapHit tap with word := (((s.stn n).edges (s.period n) es).tapHit tap).word.read raw } = x → x.word.msg = .none → x.word.joined = true →
        x.joined = true → s.get .sc (Rg.STN_RT_UNREL n) = 0 → x.valid = true → (s.stn n).clkLost = false → x.clkLost = false → tapPos (s.stn n).taps tap = phi → x.boundary phi false = some hb →
        (((x.rt + phi : Nat) : Int) - ((hb * nsLsb + x.delayLsb : Nat) : Int)).natAbs ≤ 2 * nsLsb →
      Gives (.heartbeatReceive n es tap flips) s fun t => (t.stn n).missRun = 0 ∧ (t.stn n).pending = -(((x.rt + phi : Nat) : Int) - ((hb * nsLsb + x.delayLsb : Nat) : Int))
        ∧ (t.stn n).unaligned = x.word.unaligned ∧ (t.stn n).holdover = x.word.holdover ∧ (t.stn n).tapHits = x.tapHits)
  ∧ (∀ (e : Machine.HubEv) (q tag gen cmd i : Nat) (s : State), pickEvent s.die.sync.waiting = some e → e.body = .cmd q tag gen cmd → e.entered + 4 ≤ s.htNs .sc → s.die.sync.lastStamp = none →
        s.get .sc (Rg.Q_BIND_GEN q) = gen → s.get .sc (Rg.Q_BOUND q) = 1 → s.queueSlot q (bits cmd 48 12) = some (.hub i) → bits cmd 60 4 = 2 → bit cmd 31 = false →
        (s.slotAt (.hub i)).waitFor (bits cmd 32 16) = some 0 →
      Gives (.stationEventCommit []) s fun t => t.die.sync.events.map (fun x => (x.src, x.stamp, x.body)) = (s.die.sync.events.erase e).map (fun x => (x.src, x.stamp, x.body))
        ∧ t.die.sync.lastStamp = some e.stamp ∧ t.die.sync.rels = s.die.sync.rels ++ [{ q := q, tag := tag, bindGen := gen, status := 0 }])
  ∧ (∀ (m : MbGo) (i : Nat) (s : State), MbReady m 0 none 6 s → m.part = .sc → m.argAt [1, 2, 1, 1] 2 = 1 → 23 ≤ m.args.length → m.argAt [1, 2, 1, 1] 0 < 64 →
        s.createOk { ctx := m.argAt [1, 2, 1, 1] 0, handle := m.argAt [1, 2, 1, 1] 1, scope := 1, headcount := m.argAt [1, 2, 1, 1] 3, part := ofLe ((m.args.drop 6).take 17) % 2 ^ 129 } = true →
        s.handle (m.argAt [1, 2, 1, 1] 0) (m.argAt [1, 2, 1, 1] 1) = none →
        s.get .sc (Rg.CTX_HANDLES_USED (m.argAt [1, 2, 1, 1] 0)) < s.get .sc (Rg.CTX_HANDLE_QUOTA (m.argAt [1, 2, 1, 1] 0)) → firstFresh s.die.sync.slots 16384 0 = some i →
      Gives (.barrierCreate m) s fun t => Answered m 0 t ∧ t.handle (m.argAt [1, 2, 1, 1] 0) (m.argAt [1, 2, 1, 1] 1) = some (.hub i)
        ∧ (t.slotAt (.hub i)).state = .counting ∧ (t.slotAt (.hub i)).headcount = m.argAt [1, 2, 1, 1] 3 ∧ (t.slotAt (.hub i)).part = ofLe ((m.args.drop 6).take 17) % 2 ^ 129
        ∧ (t.slotAt (.hub i)).arr = 0)
  ∧ (∀ (m : MbGo) (i c h : Nat) (s : State), MbReady m 0 none 4 s → m.part = .sc → m.argAt [1, 2] 0 = c → m.argAt [1, 2] 1 = h → s.handle c h = some (.hub i) →
        (s.slotAt (.hub i)).ctx = c → (s.slotAt (.hub i)).handle = h → (s.slotAt (.hub i)).scope = 1 → (s.slotAt (.hub i)).waits = [] → (s.slotAt (.hub i)).hostWaits = [] → s.die.pay.descs = [] → s.die.pay.held = [] →
      Gives (.barrierFree m) s fun t => Answered m 0 t ∧ t.handle c h = none ∧ (t.slotAt (.hub i)).state = .free ∧ (t.slotAt (.hub i)).gen = (s.slotAt (.hub i)).gen
        ∧ t.die.sync.freed = s.die.sync.freed ++ [(i, s.now)])
  ∧ (∀ (m : MbGo) (c j : Nat) (s : State), MbReady m 0 (some (m.argAt [1, 1] 1)) 2 s → m.part = .sc → m.argAt [1, 1] 0 = c → m.argAt [1, 1] 1 = j → c < 64 → j < 64 → 2 ≤ s.get .sc Rg.START_STAGE →
        s.get .sc (Rg.CTX_JOB_VALID c) = 0 → (∀ k, k < 64 → s.ctxJob k ≠ some j) → s.ctxSlots c = [] →
      Gives (.ctxBind m) s fun t => Answered m 0 t ∧ t.get .sc (Rg.CTX_JOB c) = j ∧ t.get .sc (Rg.CTX_JOB_VALID c) = 1 ∧ t.get .sc (Rg.SJH_BELL_VALID j) = 0)
  ∧ (∀ (m : MbGo) (c : Nat) (s : State), MbReady m 0 none 1 s → m.part = .sc → m.argAt [1] 0 = c → c < 64 → s.boundQueues c = [] → s.ctxSlots c = [] → s.die.pay.descs = [] → s.die.queues ≤ 128 →
      Gives (.ctxClear m) s fun t => t.get .sc (Rg.MB_OWNED m.box) = 1 ∧ t.die.sync.clear = some { ctx := c, box := m.box } ∧ t.hostFlags c = 0
        ∧ t.get .sc (Rg.HF_SIG_LO c) = 0 ∧ t.get .sc (Rg.HF_SIG_HI c) = 0)
  ∧ (∀ (m : MbGo) (c d : Nat) (s : State), MbReady m 0 none 2 s → m.part = .sc → m.argAt [1, 1] 0 = c → m.argAt [1, 1] 1 = d → c < 64 → d < 64 → 18 ≤ m.args.length → ofLe ((m.args.drop 2).take 16) = 0 →
        s.boundQueues c = [] → s.ctxSlots c = [] → s.die.pay.descs = [] → s.die.queues ≤ 128 →
      Gives (.ctxSwitch m) s fun t => t.get .sc (Rg.MB_OWNED m.box) = 1 ∧ t.die.sync.clear = some { ctx := c, next := some (d, 0), box := m.box } ∧ t.hostFlags c = 0
        ∧ t.get .sc (Rg.HF_SIG_LO c) = 0 ∧ t.get .sc (Rg.HF_SIG_HI c) = 0)
  ∧ (∀ (b c : Nat) (w : Machine.MbWait) (s : State), s.die.sync.clear = some { ctx := c, box := b } → b < 8 → (s.mail .sc b).wait = some w →
      Gives .contextClearEnd s fun t => t.get .sc Rg.MON_CLEARED = 1 ∧ t.die.sync.clear = none ∧ t.get .sc (Rg.MB_STATUS b) = 0 ∧ t.get .sc (Rg.MB_DONE b) = 1 ∧ t.get .sc (Rg.MB_OWNED b) = 0)
  ∧ (∀ (m : MbGo) (i : Nat) (s : State), MbReady m 0 none 5 s → m.part = .sc → m.argAt [1, 1, 2, 1] 0 = 1 → m.argAt [1, 1, 2, 1] 1 ≠ 0 → m.argAt [1, 1, 2, 1] 2 = i → i < 16384 →
      Gives (.slotRead m) s fun t => Result m ((s.slotBytes (.hub i)).take 256) s t ∧ Only .sc true mbKeys s t)
  ∧ (∀ (m : MbGo) (c v : Nat) (s : State), MbReady m 0 none 4 s → m.part = .sc → m.argAt [1, 2] 0 = c → m.argAt [1, 2] 1 = v → c < 64 → v ≤ 4096 →
      Gives (.ctxQuota m) s fun t => Answered m 0 t ∧ t.get .sc (Rg.CTX_HANDLE_QUOTA c) = v ∧ t.get .sc (Rg.CTX_OVER_QUOTA c) = ofBool (decide (v < s.get .sc (Rg.CTX_HANDLES_USED c))))
  ∧ (∀ (m : MbGo) (s : State), MbReady m 0 none 1 s → m.part = .sc →
      Gives (.monDump m) s fun t => Answered m 0 t ∧ Only .sc true (fun k => mbKeys k ∨ attKeys k) s t)
  ∧ (∀ (m : MbGo) (i en : Nat) (v : Machine.Slot) (s : State), MbReady m 0 none 2 s → m.part = .sc → m.argAt [2] 0 = 2 ^ en → en < 16 →
        (s.die.sync.slots.find? fun e => (SMap.find en e.2.hostWaits).isSome) = some (i, v) →
      Gives (.hostWaitCancel m) s fun t => Answered m 0 t ∧ t.get .sc (Rg.HST_WS_STATUS en) = 1 ∧ t.get .sc (Rg.HST_WS_VALID en) = 1 ∧ (t.slotAt (.hub i)).hostWaits = SMap.erase en v.hostWaits)
  ∧ (∀ (c a : Nat) (s : State), c < 64 → (s.mon c).stalled = some a → s.get .sc Rg.MON_MON_EN = 1 → bit (s.get64 Rg.MON_DEADLOCK_LO Rg.MON_DEADLOCK_HI) c = false →
      Gives (.deadlockDeclare c) s fun t => t.get .sc Rg.MON_MONITOR = 1
        ∧ t.get .sc Rg.MON_DEADLOCK_LO = setBit (s.get64 Rg.MON_DEADLOCK_LO Rg.MON_DEADLOCK_HI) c % 2 ^ 32
        ∧ t.get .sc Rg.MON_DEADLOCK_HI = setBit (s.get64 Rg.MON_DEADLOCK_LO Rg.MON_DEADLOCK_HI) c / 2 ^ 32 % 2 ^ 32)
  ∧ (∀ (m : MbGo) (c : Nat) (s u v : State), MbReady m 0 none 1 s → m.part = .sc → m.argAt [1] 0 = c → c < 64 → s.mbSubmit m 0x24 = u → u.clearContext c = v →
      Gives (.ctxClear m) s fun t => t.die.sync.clear = some { ctx := c, box := m.box, queues := maskOf 128 ((u.boundQueues c).contains ·) } ∧ t.hostFlags c = 0
        ∧ t.get .sc (Rg.HF_SIG_LO c) = 0 ∧ t.get .sc (Rg.HF_SIG_HI c) = 0 ∧ ∀ q, t.queue q = v.queue q)
  ∧ (∀ (m : MbGo) (c d : Nat) (s u v : State), MbReady m 0 none 2 s → m.part = .sc → m.argAt [1, 1] 0 = c → m.argAt [1, 1] 1 = d → c < 64 → d < 64 → 18 ≤ m.args.length → s.mbSubmit m 0x23 = u → u.clearContext c = v → (∀ q < 128, bit (ofLe ((m.args.drop 2).take 16)) q = true → q ∈ u.boundQueues c) →
      Gives (.ctxSwitch m) s fun t => t.die.sync.clear = some { ctx := c, next := some (d, ofLe ((m.args.drop 2).take 16)), box := m.box, queues := maskOf 128 ((u.boundQueues c).contains ·) } ∧ t.hostFlags c = 0
        ∧ t.get .sc (Rg.HF_SIG_LO c) = 0 ∧ t.get .sc (Rg.HF_SIG_HI c) = 0 ∧ ∀ q, t.queue q = v.queue q)

/-- HOST_ARRIVE, HOST_WAIT_ARM, HOST_FLAG_SET, HOST_FLAG_WITHDRAW, DIRECT_CREATE, DIRECT_FREE (R207 to R209, R214). -/
def Obligations.HostTakesPart : Prop :=
  (∀ (req i : Nat) (s : State), s.mayWrite .sc req 0x4804 0 = true → EmuOpen .sc 0x4804 s → s.get .sc Rg.HST_RES_BUSY = 0 → s.get .sc Rg.HST_ARR_EP_AUTO = 1 →
        s.handle (s.get .sc Rg.HST_ARR_CTX) (s.get .sc Rg.HST_ARR_HANDLE) = some (.hub i) → (s.slotAt (.hub i)).state = .counting → (s.slotAt (.hub i)).local_ = true → (s.slotAt (.hub i)).scope = 1 →
        bit (s.slotAt (.hub i)).part 128 = true → bit (s.slotAt (.hub i)).arr 128 = false → popCount 129 (setBit (s.slotAt (.hub i)).arr 128) ≠ (s.slotAt (.hub i)).headcount →
      Gives (.hostArrive req 0) s fun t => t.get .sc Rg.HST_RES_STATUS = 0 ∧ t.get .sc Rg.HST_RES_EPOCH_T = (s.slotAt (.hub i)).e % 2 ^ 16 ∧ (t.slotAt (.hub i)).arr = setBit (s.slotAt (.hub i)).arr 128
        ∧ t.die.sync.hostLast = some (s.get .sc Rg.HST_ARR_CTX * 4096 + s.get .sc Rg.HST_ARR_HANDLE, (s.slotAt (.hub i)).e))
  ∧ (∀ (req epoch i : Nat) (s : State), epoch < 65536 → s.mayWrite .sc req 0x4814 epoch = true → EmuOpen .sc 0x4814 s → s.get .sc Rg.HST_ARM_EP_AUTO = 0 →
        s.handle (s.get .sc Rg.HST_ARM_CTX) (s.get .sc Rg.HST_ARM_HANDLE) = some (.hub i) → (∀ e ∈ s.die.sync.slots, SMap.find (s.get .sc Rg.HST_ARM_ENTRY) e.2.hostWaits = none) →
        (s.slotAt (.hub i)).waitFor epoch = none →
      Gives (.hostWaitArm req epoch) s fun t => t.get .sc Rg.HST_W_ARMED = setBit (s.get .sc Rg.HST_W_ARMED) (s.get .sc Rg.HST_ARM_ENTRY) % 2 ^ 16
        ∧ SMap.get 0 (s.get .sc Rg.HST_ARM_ENTRY) (t.slotAt (.hub i)).hostWaits = epoch)
  ∧ (∀ (req c i : Nat) (s : State), c < 64 → i < 32 → s.mayWrite .sc req (0x4C00 + 16 * c) (2 ^ i) = true → s.boundQueues c = [] →
      Gives (.hostFlagSet req c false (2 ^ i)) s fun t => t.get .sc (Rg.HF_FLAG_LO c) = setBit (s.hostFlags c) i % 2 ^ 32
        ∧ t.get .sc (Rg.HF_FLAG_HI c) = setBit (s.hostFlags c) i / 2 ^ 32 % 2 ^ 32)
  ∧ (∀ (req c v : Nat) (s : State), c < 64 → v < 2 ^ 32 → s.mayWrite .sc req (0x4C08 + 16 * c) v = true →
      Gives (.hostFlagWithdraw req c false v) s fun t => t.get .sc (Rg.HF_FLAG_LO c) = minusMask 32 (s.get .sc (Rg.HF_FLAG_LO c)) v % 2 ^ 32
        ∧ t.get .sc (Rg.HF_FLAG_HI c) = s.get .sc (Rg.HF_FLAG_HI c))
  ∧ (∀ (req i : Nat) (s : State), s.mayWrite .sc req 0x5820 1 = true → s.get .sc Rg.BCR_SCOPE = 1 → s.get .sc Rg.BCR_CTX < 64 →
        s.createOk { ctx := s.get .sc Rg.BCR_CTX, handle := s.get .sc Rg.BCR_HANDLE, scope := 1, headcount := s.get .sc Rg.BCR_HEADCOUNT, station := s.get .sc Rg.BCR_STATION,
                     part := (List.range 4).foldl (fun a i => a + s.get .sc (Rg.BCR_QMASK i) * 2 ^ (32 * i)) 0 + s.get .sc Rg.BCR_HOST * 2 ^ 128 } = true →
        s.handle (s.get .sc Rg.BCR_CTX) (s.get .sc Rg.BCR_HANDLE) = none →
        s.get .sc (Rg.CTX_HANDLES_USED (s.get .sc Rg.BCR_CTX)) < s.get .sc (Rg.CTX_HANDLE_QUOTA (s.get .sc Rg.BCR_CTX)) → firstFresh s.die.sync.slots 16384 0 = some i →
      Gives (.directCreate req) s fun t => t.get .sc Rg.BCR_STATUS = 0 ∧ t.get .sc Rg.BCR_PHYS = i % 2 ^ 14 ∧ t.handle (s.get .sc Rg.BCR_CTX) (s.get .sc Rg.BCR_HANDLE) = some (.hub i)
        ∧ (t.slotAt (.hub i)).state = .counting ∧ (t.slotAt (.hub i)).headcount = s.get .sc Rg.BCR_HEADCOUNT)
  ∧ (∀ (req i : Nat) (s : State), s.mayWrite .sc req 0x5820 2 = true → s.handle (s.get .sc Rg.BCR_CTX) (s.get .sc Rg.BCR_HANDLE) = some (.hub i) →
        (s.slotAt (.hub i)).ctx = s.get .sc Rg.BCR_CTX → (s.slotAt (.hub i)).handle = s.get .sc Rg.BCR_HANDLE → (s.slotAt (.hub i)).scope = 1 → (s.slotAt (.hub i)).waits = [] → (s.slotAt (.hub i)).hostWaits = [] →
        s.die.pay.descs = [] → s.die.pay.held = [] →
      Gives (.directFree req) s fun t => t.get .sc Rg.BCR_STATUS = 0 ∧ t.handle (s.get .sc Rg.BCR_CTX) (s.get .sc Rg.BCR_HANDLE) = none ∧ (t.slotAt (.hub i)).state = .free)

/-- PAYLOAD_ARRIVE, DESCRIPTOR_READ_DONE, CLOSE_AT_DIE, RESULT_WRITE_DONE, CHECKER_BEAT (R181, R244, R250 to R259, R276, R277). -/
def Obligations.PayloadAtTheDie : Prop :=
  (∀ (q i : Nat) (es : List Nat) (e : Machine.QEntry) (pre rest : List Machine.QEntry) (s : State), AtHead q pre e rest s → e.op = 5 → s.die.payload = true → (s.queue q).fenced = true → s.die.pay.descs = [] → s.get .sc Rg.PD_PD_EN = 1 →
        s.handle (s.get .sc (Rg.Q_CTX q)) (bits e.cmd 48 12) = some (.hub i) → (s.slotAt (.hub i)).scope = 3 → bit e.cmd 31 = false → bits e.cmd 32 16 = (s.slotAt (.hub i)).e →
        (s.slotAt (.hub i)).hasAcc = false → (s.slotAt (.hub i)).earlyAcc = [] →
      Gives (.payloadArrive q es) s fun t => (t.queue q).fenced = false ∧ (t.queue q).entries = pre ++ { e with phase := .passed } :: rest ∧ t.get .sc Rg.SPAY_IN_FLIGHT = 1
        ∧ t.die.pay.descs = [{ idx := e.cmd % 4096, q := q, tag := e.tag, ctx := s.get .sc (Rg.Q_CTX q), ref := .hub i, handle := bits e.cmd 48 12, hslot := (s.slotAt (.hub i)).name, epoch := (s.slotAt (.hub i)).e, job := (s.slotAt (.hub i)).job }])
  ∧ (∀ (i q : Nat) (d : Machine.Desc) (s : State), s.die.pay.descs = [d] → d.reading = true → d.reject = 0 → d.ref = .hub i → d.q = q → q < 128 →
        let f := readDesc (s.dieMem.readN (s.get .sc Rg.PD_BASE_LO * 4096 + 2 ^ 32 * s.get .sc Rg.PD_BASE_HI + 64 * d.idx) 64)
        f.bad = false → f.stray = false → f.mask = 0 → maskedOdd f.sum (if f.sum.op = 6 then [] else s.dieMem.elements f.src (srcWidth f.sum.op f.sum.fmt) f.sum.count) 0 = false →
        (s.slotAt (.hub i)).state = .counting → (s.slotAt (.hub i)).local_ = true → (s.slotAt (.hub i)).scope = 3 → bit (s.slotAt (.hub i)).part q = true → bit (s.slotAt (.hub i)).arr q = false →
        d.epoch = (s.slotAt (.hub i)).e → popCount 129 (setBit (s.slotAt (.hub i)).arr q) ≠ (s.slotAt (.hub i)).headcount → (s.slotAt (.hub i)).acc.isElem = false → s.die.pkgIndex ≠ 0 →
      Gives (.descriptorReadDone d.idx false false []) s fun t => (t.slotAt (.hub i)).arr = setBit (s.slotAt (.hub i)).arr q ∧ (t.slotAt (.hub i)).hasAcc = true
        ∧ (t.slotAt (.hub i)).acc = (s.slotAt (.hub i)).acc.combine (diePartial f.sum (if f.sum.op = 6 then [] else s.dieMem.elements f.src (srcWidth f.sum.op f.sum.fmt) f.sum.count) 0)
        ∧ t.die.pay.descs = [{ d with reading := false, bucket := f.sum.bucket, dst := f.dst, status := f.status, statusOk := f.status % 32 == 0, srcFault := false, suppressed := false }]
        ∧ t.die.sync.rels = s.die.sync.rels ++ [{ q := q, tag := d.tag, bindGen := s.get .sc (Rg.Q_BIND_GEN q), status := 0 }])
  ∧ (∀ (n job bucket seq epoch contrib hash flags c : Nat) (d : Machine.Desc) (s : State), job < 64 → s.hallCtx job = some c → s.die.pkgIndex ≠ 0 → seq = (s.get .sc (Rg.SJH_CLOSE_SEQ job) + 1) % 2 ^ 32 →
        (s.die.pay.descs.find? fun e => e.job == job && e.epoch == epoch && (e.reading || e.bucket == bucket)) = some d → s.rxBody .sc n 2 job seq = none →
      Gives (.closeAtDie n job bucket seq epoch contrib hash flags) s fun t => t.get .sc (Rg.SJH_CLOSE_SEQ job) = seq
        ∧ t.die.pay.closes = s.die.pay.closes ++ [{ job := job, seq := seq, bucket := bucket, epoch := epoch, contrib := contrib, hash := hash, flags := flags }]
        ∧ t.get .sc (Rg.SJH_CLOSE_GAP job) = s.get .sc (Rg.SJH_CLOSE_GAP job)
        ∧ t.rxBody .sc n 2 job seq = some { fkind := 2, job := job, tag := seq, named := true, dueBeat := s.beat .sc + 2 })
  ∧ (∀ (job seq : Nat) (c : Machine.CloseIn) (b : Body) (d : Machine.Desc) (s : State), s.die.pay.closes = [c] → c.job = job → c.seq = seq → c.body = some b → b.sum.op ≠ 7 → s.die.pay.descs = [d] →
        d.job = job → d.bucket = c.bucket → d.epoch = c.epoch → d.reading = false → d.dst ≠ 0 → d.statusOk = true → s.die.pay.held = [] →
      Gives (.resultWriteDone job seq) s fun t => t.die.pay.closes = [] ∧ t.die.pay.descs = [] ∧ t.get .sc Rg.SPAY_IN_FLIGHT = 0
        ∧ t.dieMem = (s.dieMem.writeN d.dst b.resultBytes).writeN d.status (s.statusBytes d 0 seq { contrib := c.contrib, pflags := c.flags, hash := c.hash, residue := b.sum.residue } 0))
  ∧ (∀ (data keep : Nat) (s : State), s.die.checker = true → s.die.running = true → s.get .sc Rg.CHK_FINAL_VALID = 0 → s.get .sc Rg.CHK_EXP_VALID = 0 →
        let es := chkElems (2 ^ s.get .sc Rg.CHK_WIDTH) data keep
        let v := es.1.foldl (fun a x => chkAdd (s.flag .sc Rg.CHK_SIGNED) (8 * 2 ^ s.get .sc Rg.CHK_WIDTH) a x) s.die.pay.chk
      Gives (.checkerBeat data keep false) s (fun t => t.die.pay.chk = v ∧ t.get .sc Rg.CHK_FINAL_VALID = 0)
        ∧ Gives (.checkerBeat data keep true) s fun t => t.get .sc Rg.CHK_FINAL_LO = v % 2 ^ 32 ∧ t.get .sc Rg.CHK_FINAL_HI = v / 2 ^ 32 % 2 ^ 29 ∧ t.get .sc Rg.CHK_FINAL_VALID = 1
            ∧ t.die.pay.chk = if s.flag .sc Rg.CHK_AUTO_CLEAR then 0 else v)

/-- ARRIVE_WORD, WITHDRAW_WORD, DONE_WORD, ROOT_DEADLINE, MID_ANSWER_DEADLINE, ROOT_CALL_WAIT_END, HARD_TIMEOUT (R220 to R233). -/
def Obligations.HallSlotsCountAndDecide : Prop :=
  (∀ (n job h gen epoch src ht32 k : Nat) (s : State), n < 64 → s.peering = false → s.jobHeld job = false → s.rollInPort n src = true → s.behind n h = false → s.primarySrc n src = true → s.resyncing n = false →
        (s.slot h).state = .counting → (s.slot h).gen = gen → (s.slot h).job = job → (s.slot h).payload = false → (s.slot h).holding = false → SMap.get 0 (s.participant job n) (s.job job).mcount ≠ 0 →
        bit (s.slot h).wd (s.participant job n) = false → epoch = (s.slot h).e → bit (s.slot h).arr (s.participant job n) = false → k < 64 → k ≠ s.participant job n → bit (s.counted h) k = true → bit (s.slot h).arr k = false →
      Gives (.arriveWord n job h gen epoch src ht32 false 0) s fun t => (t.slot h).arr = setBit (s.slot h).arr (s.participant job n)
        ∧ (t.slot h).contrib = ((s.slot h).contrib + s.mcountAt job (s.participant job n)) % 2 ^ 22 ∧ (t.slot h).lastPort = n % 64 ∧ (t.slot h).lastHt32 = ht32
        ∧ (t.slot h).state = .counting ∧ (t.slot h).e = (s.slot h).e)
  ∧ (∀ (n job h gen epoch src ht32 k : Nat) (s : State), n < 64 → s.peering = false → s.jobHeld job = false → s.rollInPort n src = true → s.behind n h = false → s.isActiveRoot = true →
        (s.slot h).state = .counting → (s.slot h).gen = gen → (s.slot h).job = job → (s.slot h).holding = false → k < 64 → k ≠ s.participant job n → bit (s.counted h) k = true → bit (s.slot h).arr k = false →
      Gives (.withdrawWord n job h gen epoch src ht32) s fun t => t.slot h = { s.slot h with
        wd := setBit (s.slot h).wd (s.participant job n), arr := clearBit (s.slot h).arr (s.participant job n), early := clearBit (s.slot h).early (s.participant job n),
        earlyBodies := (s.slot h).earlyBodies.filter fun e => e.1 != s.participant job n })
  ∧ (∀ (n job h epoch contrib hash flags : Nat) (s : State), s.isActiveRoot = false → (s.slot h).state ≠ .free → (s.slot h).job = job → epoch = (s.slot h).e → bit flags 2 = false → (s.slot h).early = 0 → s.dist.hall.bodyWait = [] →
      Gives (.doneWord n job h (s.slot h).gen epoch contrib hash flags) s fun t => (t.slot h).completed = epoch ∧ (t.slot h).e = (epoch + 1) % 65536 ∧ (t.slot h).arr = 0 ∧ (t.slot h).state = .counting
        ∧ (t.slot h).last = (contrib, hash, flags) ∧ (t.slot h).contrib = 0 ∧ (t.slot h).hash = 0)
  ∧ (∀ (h : Nat) (s : State), s.isActiveRoot = true → (s.slot h).policy = true → (s.slot h).callSent = false → (s.slot h).state = .counting →
      Gives (.rootDeadline h) s fun t => (t.slot h).state = .called ∧ (t.slot h).callSent = true ∧ (t.slot h).dlBeat = (t.beat .fd + 2 * t.lead) % 2 ^ 32)
  ∧ (∀ (h : Nat) (s : State), s.role = 3 → (s.slot h).state = .called →
      Gives (.midAnswerDeadline h) s fun t => (t.slot h).state = .closed ∧ (t.slot h).e = (s.slot h).e
        ∧ (t.slot h).hash = (s.missingPorts h).foldl (fun a p => Nat.xor a (s.mhashAt (s.slot h).job p)) (s.slot h).hash)
  ∧ (∀ (h : Nat) (s : State), s.isActiveRoot = true → (s.slot h).callSent = true → (s.slot h).paid = false → (s.slot h).state = .called → (s.slot h).contrib < (s.slot h).quorum →
      Gives (.rootCallWaitEnd h) s fun t => (t.slot h).state = .quorumWait ∧ (t.slot h).paid = true ∧ (t.slot h).quorumWaited = true
        ∧ (t.slot h).hash = (s.missingPorts h).foldl (fun a p => Nat.xor a (s.mhashAt (s.slot h).job p)) (s.slot h).hash ∧ t.get .fd Rg.HINT_QUORUM_WAIT = 1)
  ∧ (∀ (h : Nat) (s : State), s.isActiveRoot = true → (s.slot h).holding = false → (s.slot h).hardBeat ≠ 0 → (s.slot h).state = .counting → (s.slot h).job < 64 →
      Gives (.hardTimeout h) s fun t => (t.slot h).state = .unresolved ∧ (t.slot h).unresolvedSeen = true ∧ (t.slot h).arr = (s.slot h).arr ∧ t.get .fd Rg.HINT_UNRESOLVED = 1)

/-- BELL_WORD_FORWARD, BELL_RING, LIVENESS_SEND, LIVENESS_WORD, LIVENESS_MISS, MONITOR_WORD, DN_MAX_REPORT (R235 to R249). -/
def Obligations.BellsLivenessMonitors : Prop :=
  (∀ (n beat : Nat) (w : Machine.BellWord) (s : State),
      Gives (.bellWordForward n beat w) s fun t => (t.job w.job).lastBell = w.bellNo ∧ (t.job w.job).lastBellBeat = beat ∧ (t.job w.job).lastBellWord = some w ∧ (t.job w.job).bellSeen = true
        ∧ (t.job w.job).nextBell = (s.job w.job).nextBell)
  ∧ (∀ (m : MbGo) (j : Nat) (s : State), MbReady m 2 (some (m.argAt [1] 0)) 1 s → m.part = .fd → m.argAt [1] 0 = j → s.isActiveRoot = true → j < 64 → s.get .fd (Rg.JH_CREATED j) = 1 →
      Gives (.bellRing m) s fun t => Answered m 0 t ∧ (t.job j).lastBell = (s.job j).nextBell ∧ (t.job j).nextBell = ((s.job j).nextBell + 1) % 2 ^ 48
        ∧ (t.job j).lastBellBeat = beatAtOrAfter (s.htNs .fd + 1024 * s.lead) ∧ t.get .fd (Rg.RC_BELLS j) = sat 32 (s.get .fd (Rg.RC_BELLS j) + 1))
  ∧ (∀ (s : State), s.die.running = true → s.die.pkgIndex = 0 → s.beat .sc % 1024 = 0 → SMap.find 3 s.sc.lastDone ≠ some (s.beat .sc) → s.get .sc Rg.HT_JOINED = 1 →
      Gives .livenessSend s fun t => (t.link .sc 0).lvSeq = ((s.link .sc 0).lvSeq + 1) % 65536 ∧ (t.link .sc 1).lvSeq = ((s.link .sc 1).lvSeq + 1) % 65536
        ∧ (s.linkUp .sc 0 = true → (t.link .sc 0).txq = (s.link .sc 0).txq ++ [{ job := 0, hallwide := true, body := .liveness (s.get .sc Rg.SROLL_ROLL) (maskOf 8 fun d => d == 0 || (decide (d < s.die.pkgDies) && s.lstate .sc (8 + d) == 3)) (s.link .sc 0).lvSeq (s.ht32 .sc) }]))
  ∧ (∀ (n src mask seq ht32 : Nat) (s : State), n < 64 → s.role = 4 → s.rollInPort n src = true →
      Gives (.livenessWord n src mask seq ht32) s fun t => (t.link .fd n).lvMiss = 0 ∧ (t.link .fd n).lvSeq = seq ∧ (t.link .fd n).alive = mask % 256)
  ∧ (∀ (n : Nat) (s : State), s.role = 4 → n < 64 → s.linkUp .fd n = true →
      Gives (.livenessMiss n) s fun t => (t.link .fd n).lvMiss = (s.link .fd n).lvMiss + 1
        ∧ (t.link .fd n).alive = if s.get .fd Rg.BELL_LV_MISS ≤ (s.link .fd n).lvMiss + 1 then 0 else (s.link .fd n).alive)
  ∧ (∀ (n job ctx src ht32 : Nat) (dead : Bool) (s : State), s.role = 4 → (s.job job).installed = true →
      Gives (.monitorWord n job ctx src ht32 dead) s fun t => (t.job job).reporting = SMap.set src (ofBool dead) (s.job job).reporting ∧ (t.job job).members = (s.job job).members)
  ∧ (∀ (n ps : Nat) (s : State), s.roleUp .fd 5 = true → n < 64 → s.isActiveRoot = false →
      Gives (.dnMaxReport n ps) s fun t => SMap.get 0 n t.dist.hall.portDn = ps ∧ t.get .fd Rg.BELL_DN_MAX = sat 32 t.dnMax)
  ∧ (∀ (n src mask seq ht32 : Nat) (s : State), 64 ≤ n → s.role = 4 → s.rollInPort (portOf n src) src = true →
      Gives (.livenessWord n src mask seq ht32) s fun t => SMap.get 0 (bits src 3 6) t.dist.hall.partnerAlive = mask % 256)

/-- LEAD_DIE_ARRIVE, LEAD_DIE_WITHDRAW, DONE_AT_DIE, BELL_WORD_AT_DIE, MEMBER_WORD, STALE_WORD, DIE_BELL_FIRE (R198 to R200, R205, R206, R221, R222, R242, R243, R321, R332). -/
def Obligations.HallWordsAtTheDie : Prop :=
  (∀ (d h gen epoch src ht32 tag i : Nat) (s u : State), s.takeDieWord (8 + d) { job := 0, hallwide := true, body := .arrive h gen epoch src ht32 false tag } = u → s.die.pkgIndex = 0 → u.die.pkgIndex = 0 → u.dieBehind (8 + d) h = false → u.wordSlot { job := 0, hallwide := true, body := .arrive h gen epoch src ht32 false tag } h gen = some (.hub i) →
        bit (u.slotAt (.hub i)).dieMask d = true → (u.slotAt (.hub i)).state = .counting → (u.slotAt (.hub i)).scope = 2 → epoch = (u.slotAt (.hub i)).e → bit (u.slotAt (.hub i)).dieArr d = false →
        setBit (u.slotAt (.hub i)).dieArr d ≠ (u.slotAt (.hub i)).dieMask → popCount 129 (u.slotAt (.hub i)).arr ≠ (u.slotAt (.hub i)).headcount →
      Gives (.leadDieArrive d 0 true h gen epoch src ht32 false tag) s fun t => t.slotAt (.hub i) = { u.slotAt (.hub i) with
        dieArr := setBit (u.slotAt (.hub i)).dieArr d, sigKind := 2, sigIdx := src % 2 ^ 21, sigHt32 := ht32 })
  ∧ (∀ (d job h gen epoch src ht32 i : Nat) (hw : Bool) (s u : State), s.takeDieWord (8 + d) { job := job, hallwide := hw, body := .withdraw h gen epoch src ht32 } = u → s.die.pkgIndex = 0 → u.die.pkgIndex = 0 → u.dieBehind (8 + d) h = false → u.wordSlot { job := job, hallwide := hw, body := .withdraw h gen epoch src ht32 } h gen = some (.hub i) →
        (u.slotAt (.hub i)).state = .counting → 2 ≤ (u.slotAt (.hub i)).scope → clearBit (u.slotAt (.hub i)).dieMask d ≠ 0 →
        clearBit (u.slotAt (.hub i)).dieArr d ≠ clearBit (u.slotAt (.hub i)).dieMask d → popCount 129 (u.slotAt (.hub i)).arr ≠ (u.slotAt (.hub i)).headcount →
      Gives (.leadDieWithdraw d job hw h gen epoch src ht32) s fun t => t.slotAt (.hub i) = { u.slotAt (.hub i) with
        dieMask := clearBit (u.slotAt (.hub i)).dieMask d, dieArr := clearBit (u.slotAt (.hub i)).dieArr d, dieEarly := clearBit (u.slotAt (.hub i)).dieEarly d,
        earlyAcc := (u.slotAt (.hub i)).earlyAcc.filter fun e => e.1 != d })
  ∧ (∀ (n job h gen epoch contrib hash flags i : Nat) (s u : State), s.takeDieWord n { job := job, body := .done h gen epoch contrib hash flags } = u → u.die.pkgIndex ≠ 0 → u.wordSlot { job := job, body := .done h gen epoch contrib hash flags } h gen = some (.hub i) → (u.slotAt (.hub i)).state = .counting →
        (u.slotAt (.hub i)).scope = 3 → epoch = (u.slotAt (.hub i)).e → bit flags 5 = false → u.die.pay.descs = [] → u.die.pay.held = [] → (u.slotAt (.hub i)).early = 0 → (u.slotAt (.hub i)).earlyAcc = [] →
        (u.slotAt (.hub i)).waits = [] → (u.slotAt (.hub i)).hostWaits = [] →
      Gives (.doneAtDie n job false h gen epoch contrib hash flags) s fun t => (t.slotAt (.hub i)).e = (epoch + 1) % 65536 ∧ (t.slotAt (.hub i)).arr = 0 ∧ (t.slotAt (.hub i)).state = .counting
        ∧ (t.slotAt (.hub i)).doneContrib = contrib ∧ (t.slotAt (.hub i)).doneHash = hash ∧ (t.slotAt (.hub i)).doneFlags = flags
        ∧ (t.slotAt (.hub i)).missing = minusMask 129 (u.slotAt (.hub i)).part (u.slotAt (.hub i)).arr)
  ∧ (∀ (n job roll gen : Nat) (s : State), job < 64 → s.die.pkgIndex ≠ 0 → roll % 8 = s.die.pkgIndex →
      Gives (.memberWord .sc n job 0 roll 0 gen) s fun t => t.get .sc (Rg.SJH_MEMBER job) = 1 ∧ t.get .sc (Rg.SJH_MGEN job) = gen % 2 ^ (Rg.SJH_MGEN job).width)
  ∧ (∀ (n job roll h gen epoch i : Nat) (s : State), roll % 8 = s.die.pkgIndex → s.wordSlot { job := job, body := .stale roll h gen epoch 1 } h gen = some (.hub i) → (s.slotAt (.hub i)).waits = [] →
        (s.slotAt (.hub i)).hostWaits = [] → s.die.pay.descs = [] → s.die.pay.held = [] →
      Gives (.staleWord .sc n job false roll h gen epoch 1) s fun t => (t.slotAt (.hub i)).state = .stale ∧ t.get .sc Rg.MON_STALE_CNT = sat Rg.MON_STALE_CNT.width (s.get .sc Rg.MON_STALE_CNT + 1))
  ∧ (∀ (job : Nat) (b : Machine.DieBell) (s : State), job < 64 → (s.die.sync.bells.find? fun x => x.word.job == job) = some b → b.ht ≤ s.htNs .sc → b.word.closeHwm = 0 → b.word.floor ≤ 100 → s.get .sc (Rg.SPWR_RECESS job) = 0 →
      Gives (.dieBellFire job) s fun t => t.die.sync.bells = s.die.sync.bells.erase b ∧ t.get .sc (Rg.SPWR_LEVEL job) = b.word.floor ∧ t.get .sc (Rg.SPWR_RECESS job) = 0 ∧ t.get .sc (Rg.SPWR_VALID job) = 1
        ∧ t.get .sc (Rg.SPWR_ENTRY job) = 0)
  ∧ (∀ (n beat c : Nat) (w : Machine.BellWord) (s u : State), s.takeDieWord n { job := w.job, body := .bell beat w } = u → w.job < 64 → u.die.pkgIndex ≠ 0 → s.hallCtx w.job = some c → s.get .sc (Rg.SJH_BELL_VALID w.job) = 0 → s.get .sc (Rg.SJH_MEMBER w.job) = 1 →
        s.htNs .sc ≤ beat * 1024 → u.bellSlots w.job = [] → (∀ q, q < u.die.queues → (u.queue q).head = none) →
      Gives (.bellWordAtDie n beat w) s fun t => t.get .sc (Rg.SJH_BELL_LO w.job) = w.bellNo % 2 ^ 32 ∧ t.get .sc (Rg.SJH_BELL_HI w.job) = w.bellNo / 2 ^ 32 % 2 ^ 16 ∧ t.get .sc (Rg.SJH_BELL_VALID w.job) = 1
        ∧ t.die.sync.bells = u.die.sync.bells ++ [{ word := w, ht := beat * 1024, late := false }])

/-- SLOT_INSTALL, HBAR_ALLOC, HBAR_ALLOC_INSTALLED, HBAR_FREE, HBAR_SET, HBAR_RESOLVE, HBAR_READ, JOB_HALL_STATUS, SUSPECT_READ, HBAR_DUMP, JOB_CREATE, JOB_END, JOB_END_EFFECT (R216 to R219, R227, R234, R246, R249, R450). -/
def Obligations.HallJobsAndSlotsAtTheRoot : Prop :=
  (∀ (n : Nat) (a : Machine.SlotAttr) (s : State), s.roleUp .fd 2 = true → 3 ≤ s.get .fd Rg.START_STAGE → s.hallLive a.hslot a.gen = false →
      Gives (.slotInstall n (.slotInstall a)) s fun t => t.slot a.hslot = s.newSlot a)
  ∧ (∀ (h b : Nat) (w : Machine.MbWait) (s : State), b < 8 → (s.mail .fd b).wait = some w → s.mbWaiting .fd 0x20 = [b] → w.args.getD 0 0 = h → w.args.getD 1 0 = (s.slot h).gen → (∀ e ∈ s.fd.links, e.2.tunnel = []) →
      Gives (.hbarAllocInstalled h) s fun t => t.get .fd (Rg.MB_STATUS b) = 0 ∧ t.get .fd (Rg.MB_DONE b) = 1 ∧ t.get .fd (Rg.MB_OWNED b) = 0 ∧ t.slot h = s.slot h)
  ∧ (∀ (m : MbGo) (j i : Nat) (a : Machine.SlotAttr) (s : State), MbReady m 2 (some (m.argAt [1, 1, 1, 1, 4, 2, 4] 0)) 16 s → m.part = .fd → s.isActiveRoot = true → m.argAt [1, 1, 1, 1, 4, 2, 4] 0 = j → j < 64 →
        s.get .fd (Rg.JH_CREATED j) = 1 → m.argAt [1, 1, 1, 1, 4, 2, 4] 1 ≤ 1 → m.argAt [1, 1, 1, 1, 4, 2, 4] 2 = 0 → m.argAt [1, 1, 1, 1, 4, 2, 4] 3 ≤ 1 →
        a = { hslot := i, gen := ((s.slot i).gen + 1) % 256, job := j, policy := m.argAt [1, 1, 1, 1, 4, 2, 4] 1 == 1, bell := false, payload := m.argAt [1, 1, 1, 1, 4, 2, 4] 3 == 1, deadlineNs := m.argAt [1, 1, 1, 1, 4, 2, 4] 4, hardMs := m.argAt [1, 1, 1, 1, 4, 2, 4] 5, quorum := m.argAt [1, 1, 1, 1, 4, 2, 4] 6 } →
        a.ok = true → (s.jobSlots j).length + s.reservedCount j < (s.job j).hslotQuota → s.dist.hall.neverUsed = i → i < 1048576 → (s.job j).memberPorts = 0 →
      Gives (.hbarAlloc m) s fun t => Answered m 0 t ∧ t.slot i = s.newSlot a ∧ t.dist.hall.neverUsed = i + 1)
  ∧ (∀ (m : MbGo) (h : Nat) (s : State), MbReady m 2 none 5 s → m.part = .fd → s.isActiveRoot = true → m.argAt [4, 1] 0 = h → m.argAt [4, 1] 1 = (s.slot h).gen → (s.slot h).state ≠ .free →
      Gives (.hbarFree m) s fun t => Answered m 0 t ∧ (t.slot h).state = .free ∧ (t.slot h).gen = (s.slot h).gen ∧ (t.slot h).freedNow = some s.now ∧ t.dist.hall.freed = s.dist.hall.freed ++ [h])
  ∧ (∀ (m : MbGo) (h : Nat) (s : State), MbReady m 2 none 20 s → m.part = .fd → s.isActiveRoot = true → m.argAt [4, 1, 4, 2, 4] 0 = h → m.argAt [4, 1, 4, 2, 4] 1 = (s.slot h).gen → (s.slot h).state ≠ .free → m.args.length < 32 →
        m.argAt [4, 1, 4, 2, 4] 4 ≤ 4194303 → m.argAt [4, 1, 4, 2, 4] 3 ≤ 65535 → (s.slot h).policy = false →
      Gives (.hbarSet m) s fun t => Answered m 0 t ∧ t.slot h = { s.slot h with hardMs := m.argAt [4, 1, 4, 2, 4] 3, nextQuorum := some (m.argAt [4, 1, 4, 2, 4] 4) })
  ∧ (∀ (m : MbGo) (h : Nat) (s : State), MbReady m 2 none 6 s → m.part = .fd → s.isActiveRoot = true → m.argAt [4, 1, 1] 0 = h → m.argAt [4, 1, 1] 1 = (s.slot h).gen → m.argAt [4, 1, 1] 2 = 0 → (s.slot h).state = .unresolved →
        (s.slot h).holding = false → (s.slot h).paid = true → (s.slot h).payload = false → (s.slot h).bell = false → (s.slot h).early = 0 →
      Gives (.hbarResolve m) s fun t => Answered m 0 t ∧ (t.slot h).completed = (s.slot h).e ∧ (t.slot h).e = ((s.slot h).e + 1) % 65536 ∧ (t.slot h).forced = true ∧ (t.slot h).state = .counting
        ∧ (t.slot h).arr = 0 ∧ (t.slot h).last = ((s.slot h).contrib, (s.slot h).hash, ofBool (decide ((s.slot h).contrib < s.membersOf (s.slot h).job (s.expected h))) + 2
          + 8 * ofBool (s.slot h).quorumWaited + 16 * ofBool (s.slot h).unresolvedSeen))
  ∧ (∀ (m : MbGo) (h : Nat) (s : State), MbReady m 2 none 4 s → m.part = .fd → m.argAt [4] 0 = h → h < 1048576 →
      Gives (.hbarRead m) s fun t => Only .fd true mbKeys s t ∧ Result m (((s.slot h).toBytes s.isActiveRoot).take 256) s t)
  ∧ (∀ (m : MbGo) (j : Nat) (s : State), MbReady m 2 (some (m.argAt [1] 0)) 1 s → m.part = .fd → s.isActiveRoot = true → m.argAt [1] 0 = j → j < 64 →
      Gives (.jobHallStatus m) s fun t => Only .fd true mbKeys s t ∧ Result m (packFields 0 [(1, s.get .fd (Rg.JH_CREATED j)), (4, s.get .fd (Rg.JH_MEMBERS j)), (4, s.get .fd (Rg.JH_SUSPECT j)), (1, s.get .fd (Rg.JH_DEADLOCK j)),
          (4, ((s.jobSlots j).filter fun h => (s.slot h).state == .unresolved).length), (4, (s.job j).hslotQuota), (4, (s.jobSlots j).length + s.reservedCount j),
          (2, s.get .fd (Rg.JM_PAY_SHARE j)), (8, (s.job j).lastBell), (8, (s.job j).lastBellBeat), (4, s.get .fd (Rg.JH_CLOSE_SEQ j))]) s t)
  ∧ (∀ (m : MbGo) (j r : Nat) (s : State), MbReady m 2 (some (m.argAt [1, 4] 0)) 8 s → m.part = .fd → s.isActiveRoot = true → m.argAt [1, 4] 0 = j → m.argAt [1, 4] 1 = r → j < 64 →
      Gives (.suspectRead m) s fun t => Listed m [] (((s.dist.hall.suspects.filter fun e => decide (r ≤ e.1) && SMap.get 0 e.1 (s.job j).members != 0).take 48).map fun e => [(4, e.1), (4, e.2)]) s t)
  ∧ (∀ (m : MbGo) (s : State), MbReady m 2 (some (m.argAt [1] 0)) 1 s → m.part = .fd → s.isActiveRoot = true → m.argAt [1] 0 < 64 →
      Gives (.hbarDump m) s fun t => Answered m 0 t ∧ Only .fd true (fun k => mbKeys k ∨ attKeys k) s t)
  ∧ (∀ (m : MbGo) (j : Nat) (s : State), MbReady m 2 (some (m.argAt [1, 4, 2, 4, 2] 0)) 18 s → m.part = .fd → s.isActiveRoot = true → m.argAt [1, 4, 2, 4, 2] 0 = j → j < 64 → s.get .fd (Rg.JH_CREATED j) = 0 →
        m.argAt [1, 4, 2, 4, 2] 1 ≤ 1048576 → m.argAt [1, 4, 2, 4, 2] 2 ≤ 4096 → m.argAt [1, 4, 2, 4, 2] 3 < 2 ^ 24 → m.argAt [1, 4, 2, 4, 2] 4 ≠ 0 → m.argAt [1, 4, 2, 4, 2] 4 ≤ 1024 →
      Gives (.jobCreate m) s fun t => Answered m 0 t ∧ t.get .fd (Rg.JH_CREATED j) = 1 ∧ (t.job j).hslotQuota = m.argAt [1, 4, 2, 4, 2] 1 ∧ t.get .fd (Rg.JM_SB_QUOTA j) = m.argAt [1, 4, 2, 4, 2] 2
        ∧ t.get .fd (Rg.JM_ATT_RATE j) = m.argAt [1, 4, 2, 4, 2] 3 ∧ t.get .fd (Rg.JM_PAY_SHARE j) = m.argAt [1, 4, 2, 4, 2] 4 ∧ t.get .fd (Rg.JH_CLOSE_SEQ j) = 0
        ∧ t.get .fd (Rg.PJ_STEP_FLOOR j) = (Rg.PJ_STEP_FLOOR j).reset % 2 ^ (Rg.PJ_STEP_FLOOR j).width)
  ∧ (∀ (m : MbGo) (j : Nat) (s : State), MbReady m 2 (some (m.argAt [1] 0)) 1 s → m.part = .fd → s.isActiveRoot = true → m.argAt [1] 0 = j → j < 64 → s.get .fd (Rg.JH_CREATED j) = 1 → (s.job j).memberCount = 0 → s.fd.tt.changes = [] →
        s.jobSlots j = [] → s.sbPages j = [] →
      Gives (.jobEnd m) s fun t => Answered m 0 t ∧ (t.job j).ending = some (s.beat .fd) ∧ (t.job j).hslotQuota = 0 ∧ t.get .fd (Rg.JH_CREATED j) = 1 ∧ t.get .fd (Rg.JM_SB_QUOTA j) = 0
        ∧ t.get .fd (Rg.JM_ATT_RATE j) = 0 ∧ t.get .fd (Rg.JM_PAY_SHARE j) = 0 ∧ SMap.find j t.dist.sb.logs = none)
  ∧ (∀ (j b : Nat) (s : State), (s.job j).ending = some b →
      Gives (.jobEndEffect j) s fun t => t.job j = {} ∧ t.get .fd (Rg.JH_CREATED j) = 0)

/-- SB_ALLOC, SB_FREE, SB_FREE_EFFECT, SB_QUOTA, SB_READ, SB_CLOSE_LOG, MIRROR_RESYNC_DONE (R246, R287 to R293, R307). -/
def Obligations.StudBookPagesAndLogs : Prop :=
  (∀ (m : MbGo) (j first n : Nat) (s : State), MbReady m 2 (some (m.argAt [1, 2, 2] 0)) 6 s → m.part = .fd → s.dist.variant = .vxd2880 → s.isActiveRoot = true →
      m.argAt [1, 2, 2] 0 = j → m.argAt [1, 2, 2] 1 = first → m.argAt [1, 2, 2] 2 = n → j < 64 → s.get .fd (Rg.JH_CREATED j) = 1 → first + n ≤ 4096 →
      (s.sbPages j).length + n ≤ s.get .fd (Rg.JM_SB_QUOTA j) → n ≤ ((List.range 4096).filter fun p => !s.dist.sb.used.contains p).length → (∀ i < n, SMap.find (j * 4096 + first + i) s.dist.sb.pages = none) →
      Gives (.sbAlloc m) s fun t => Answered m 0 t ∧ t.dist.sb.used = s.dist.sb.used ++ ((List.range 4096).filter fun p => !s.dist.sb.used.contains p).take n
        ∧ t.dist.sb.pages = (List.zip ((List.range n).map fun i => j * 4096 + first + i) ((List.range 4096).filter fun p => !s.dist.sb.used.contains p)).foldl (fun q e => SMap.set e.1 e.2 q) s.dist.sb.pages
        ∧ t.dist.sb.entries = s.dist.sb.entries)
  ∧ (∀ (m : MbGo) (j first n : Nat) (s : State), MbReady m 2 (some (m.argAt [1, 2, 2] 0)) 6 s → m.part = .fd → s.dist.variant = .vxd2880 → s.isActiveRoot = true →
      m.argAt [1, 2, 2] 0 = j → m.argAt [1, 2, 2] 1 = first → m.argAt [1, 2, 2] 2 = n → j < 64 → first + n ≤ 4096 → (∀ i < n, SMap.find (j * 4096 + first + i) s.dist.sb.pages ≠ none) →
      Gives (.sbFree m) s fun t => Answered m 0 t ∧ t.dist.sb.freeing = s.dist.sb.freeing ++ (List.range n).map (fun i => (j * 4096 + first + i, s.beat .fd)) ∧ t.dist.sb.pages = s.dist.sb.pages)
  ∧ (∀ (key page at_ : Nat) (s : State), s.dist.sb.freeing = [(key, at_)] → at_ < s.beat .fd → SMap.find key s.dist.sb.pages = some page →
      Gives .sbFreeEffect s fun t => t.dist.sb.freeing = [] ∧ t.dist.sb.pages = SMap.erase key s.dist.sb.pages ∧ t.dist.sb.used = s.dist.sb.used.filter (· != page)
        ∧ t.dist.sb.entries = s.dist.sb.entries.filter (fun e => e.1 / 4096 != page) ∧ t.now = s.now)
  ∧ (∀ (m : MbGo) (j n : Nat) (s : State), MbReady m 2 (some (m.argAt [1, 2] 0)) 4 s → m.part = .fd → s.dist.variant = .vxd2880 → s.isActiveRoot = true →
      m.argAt [1, 2] 0 = j → m.argAt [1, 2] 1 = n → j < 64 → n ≤ 4096 →
      Gives (.sbQuota m) s fun t => Answered m 0 t ∧ t.get .fd (Rg.JM_SB_QUOTA j) = n ∧ t.get .fd (Rg.JM_SB_USED j) = (s.sbPages j).length % 2 ^ 13
        ∧ t.get .fd (Rg.JM_SB_OVER_QUOTA j) = ofBool (decide (n < (s.sbPages j).length)) ∧ t.dist.sb = s.dist.sb)
  ∧ (∀ (m : MbGo) (j b i : Nat) (s : State), MbReady m 2 (some (m.argAt [1, 4] 0)) 8 s → m.part = .fd → s.dist.variant = .vxd2880 → s.isActiveRoot = true →
      m.argAt [1, 4] 0 = j → m.argAt [1, 4] 1 = b → j < 64 → b < 2 ^ 24 → s.sbIndex j b = some i →
      Gives (.sbRead m) s fun t => Result m (((if (SMap.get ({} : SbEntry) i s.dist.sb.entries).bad then ({} : SbEntry) else SMap.get ({} : SbEntry) i s.dist.sb.entries).toBytes j b).take 256) s t ∧ Only .fd true mbKeys s t)
  ∧ (∀ (m : MbGo) (j first : Nat) (c : CloseEntry) (l : List CloseEntry) (s : State), MbReady m 2 (some (m.argAt [1, 4] 0)) 8 s → m.part = .fd → s.dist.variant = .vxd2880 → s.isActiveRoot = true → 
      m.argAt [1, 4] 0 = j → m.argAt [1, 4] 1 = first → j < 64 → laterThan 32 first (s.get .fd (Rg.JH_CLOSE_SEQ j)) = false → SMap.get [] j s.dist.sb.logs = c :: l → earlierThan 32 first c.seq = false →
      Gives (.sbCloseLog m) s fun t => Listed m [] ((((c :: l).filter fun e => decide (0 ≤ Machine.sdiff 32 e.seq first)).take 7).map fun e => e.toBytes.map fun x => (1, x.toNat)) s t)
  ∧ (∀ (s : State), s.get .fd Rg.SB_MIRROR_SYNC = 1 → Gives .mirrorResyncDone s fun t => t.get .fd Rg.SB_MIRROR_SYNC = 0 ∧ t.get .fd Rg.SB_MIRRORED = 1 ∧ t.dist = s.dist)

/-- FRAGMENT_RECEIVE, BODY_CHECK, REPEAT_REQUEST_TIMER, REPEAT_REQUEST, PIPE_COMBINE_DONE, RESULT_FORMED, CLOSE_WORD, PIPE_READ, PAY_READ (R256 to R264, R274, R275, R282, R283, R293). That two beats separate the naming word from the check and 16 a request from the next is R264's. -/
def Obligations.PayloadOnLinksAndPipes : Prop :=
  (∀ (p : Part) (n : Nat) (f : Fragment) (s : State), s.linkUp p n = true → f.fkind = 1 → f.gone = false → s.parentEnd p n = true → s.rxBody p n 1 f.job f.tag = none →
      Gives (.fragmentReceive p n f) s fun t => (t.link p n).rxBodies = (s.link p n).rxBodies ++ [RxBody.take f { fkind := 1, job := f.job, tag := f.tag }] ∧ t.dist = s.dist ∧ t.die = s.die)
  ∧ (∀ (p : Part) (n fkind job tag : Nat) (r : RxBody) (s : State), s.rxBody p n fkind job tag = some r → r.named = true → r.requests = 0 → r.lost = false → r.whole = false → r.dueBeat ≤ s.beat p →
      Gives (.bodyCheck p n fkind job tag) s fun t => (t.link p n).txBodies = (s.link p n).txBodies ++ [{ fkind := 3, job := job, tag := tag, body := {} }]
        ∧ (t.link p n).rxBodies = (s.link p n).rxBodies.map (fun x => if x.is fkind job tag then { x with requests := x.requests + 1, dueBeat := s.beat p + 16 } else x)
        ∧ t.get p (if p = .fd then Rg.PAY_REPEAT_SENT else Rg.SPAY_REPEAT_CNT) = sat 16 (s.get p (if p = .fd then Rg.PAY_REPEAT_SENT else Rg.SPAY_REPEAT_CNT) + 1))
  ∧ (∀ (p : Part) (n fkind job tag : Nat) (r : RxBody) (s : State), s.rxBody p n fkind job tag = some r → 1 ≤ r.requests → r.requests < 3 → r.lost = false → r.whole = false → r.dueBeat ≤ s.beat p →
      Gives (.repeatRequestTimer p n fkind job tag) s fun t => (t.link p n).txBodies = (s.link p n).txBodies ++ [{ fkind := 3, job := job, tag := tag, body := {} }]
        ∧ (t.link p n).rxBodies = (s.link p n).rxBodies.map (fun x => if x.is fkind job tag then { x with requests := x.requests + 1, dueBeat := s.beat p + 16 } else x)
        ∧ t.get p (if p = .fd then Rg.PAY_REPEAT_SENT else Rg.SPAY_REPEAT_CNT) = sat 16 (s.get p (if p = .fd then Rg.PAY_REPEAT_SENT else Rg.SPAY_REPEAT_CNT) + 1))
  ∧ (∀ (p : Part) (n job tag : Nat) (s : State), s.linkUp p n = true →
      Gives (.repeatRequest p n job tag) s fun t => (t.link p n).txBodies =
        (if (s.link p n).txBodies.any (fun b => b.fkind == (if s.parentEnd p n then 2 else 1) && b.job == job && b.tag == tag) then
          (s.link p n).txBodies.map fun b => if b.fkind = (if s.parentEnd p n then 2 else 1) ∧ b.job = job ∧ b.tag = tag then { b with at_ := 0, sentBeat := none } else b
        else (s.link p n).txBodies ++ [{ fkind := if s.parentEnd p n then 2 else 1, job := job, tag := tag, body := {}, gone := true }]) ∧ t.dist = s.dist ∧ t.die = s.die)
  ∧ (∀ (i : Nat) (c : Combine) (s : State), s.dist.spare.combines = [c] → c.pipe = i → c.fin = false → c.second = false → c.word = none → s.dist.spare.forceMismatch = false →
      Gives (.pipeCombineDone i false) s fun t => t.dist.spare.combines = [{ c with fin := true }] ∧ t.dist.hall = s.dist.hall ∧ ∀ k < 68, t.get .fd (Rg.PIPE_MISMATCH_CNT k) = s.get .fd (Rg.PIPE_MISMATCH_CNT k))
  ∧ (∀ (h : Nat) (c : Combine) (o : Nat × Nat × Nat × Nat) (s : State), s.dist.spare.combines = [c] → c.hslot = h → c.fin = true → c.done = some o → s.dist.hall.bodyWait = [] → (s.slot h).job < 64 →
      (SMap.get [] (s.slot h).job s.dist.sb.logs).length < 65536 →
      Gives (.resultFormed h) s fun t => t.get .fd (Rg.JH_CLOSE_SEQ (s.slot h).job) = (s.get .fd (Rg.JH_CLOSE_SEQ (s.slot h).job) + 1) % 2 ^ 32 ∧ t.dist.spare.combines = []
        ∧ ∃ e : CloseEntry, SMap.get [] (s.slot h).job t.dist.sb.logs = SMap.get [] (s.slot h).job s.dist.sb.logs ++ [e] ∧ e.job = (s.slot h).job ∧ e.epoch = o.1 ∧ e.contrib = o.2.1 ∧ e.hash = o.2.2.1
          ∧ e.doneFlags = o.2.2.2 ∧ e.seq = (s.get .fd (Rg.JH_CLOSE_SEQ (s.slot h).job) + 1) % 2 ^ 32 ∧ e.beat = s.beat .fd % 2 ^ 32)
  ∧ (∀ (n job bucket seq epoch contrib hash flags : Nat) (s : State), s.role = 4 → (s.job job).installed = true → s.rxBody .fd n 2 job seq = none →
      Gives (.closeWord n job bucket seq epoch contrib hash flags) s fun t => (t.link .fd n).rxBodies = (s.link .fd n).rxBodies ++ [{ fkind := 2, job := job, tag := seq, named := true, dueBeat := s.beat .fd + 2 }] ∧ t.dist = s.dist
        ∧ ∀ k l, s.portsOfMask (s.job job).memberPorts = [k] → k ≠ n → s.linkUp .fd k = true → l = { job := job, body := .close bucket seq epoch contrib flags hash } → (t.link .fd k).txq = (s.link .fd k).txq ++ [l])
  ∧ (∀ (m : MbGo) (i : Nat) (s : State), MbReady m 2 none 1 s → m.part = .fd → m.argAt [1] 0 = i → i < 68 →
      Gives (.pipeRead m) s fun t => Result m (packFields 0 ([(1, s.get .fd (Rg.PIPE_PSTATE i)), (1, s.get .fd (Rg.PIPE_RETIRE_MAP i))] ++ (List.range 32).map fun k => (1, SMap.get 0 k (s.pipe i).cells))) s t ∧ Only .fd true mbKeys s t)
  ∧ (∀ (m : MbGo) (s : State), MbReady m 0 none 0 s → m.part = .sc → s.die.payload = true →
      Gives (.payRead m) s fun t => Listed m [(2, s.get .sc Rg.SPAY_IN_FLIGHT)] (((s.die.pay.descs.foldl (fun (m : SMap Desc) d => SMap.set d.idx d m) []).take 48).map fun e => [(4, e.2.hslot), (4, e.2.bucket), (2, e.2.epoch)]) s t)

/-- ATT_RECORD, BLOCK_TIMEOUT, RECORD_AGE_DROP, SPILL_WRITE, SPILL_RESUME, RULE_SET_SEND, RULE_RECORD_AT_DIE, RULE_SET_ADOPT, ATT_TOKEN_REFILL (R294 to R306). -/
def Obligations.AttendanceTakesAndKeeps : Prop :=
  (∀ (n : Nat) (x : Machine.Rec) (s : State), x.kind ≠ 0xFE → s.linkUp .sc n = true → s.die.pkgIndex = 0 → 9 ≤ n →
      (s.die.att.buf.foldl (fun (m : Nat) (e : Machine.Rec × Nat) => m + e.1.size) 0) + x.size ≤ dieBufCapacity →
      Gives (.attRecord .sc n x) s fun t => t.die = { s.die with att := { s.die.att with buf := s.die.att.buf ++ [({ x with die := n - 8 }, s.now)] } } ∧ t.get .sc Rg.SATT_DROP = s.get .sc Rg.SATT_DROP)
  ∧ (∀ (b : Block) (s : State), s.dist.arch.cur = some b → b.openNow + blockNs ≤ s.now → s.dist.arch.ring.length < ringCapacity →
      Gives .blockTimeout s fun t => t.dist.arch.cur = none ∧ t.dist.arch.ring = s.dist.arch.ring ++ [{ b with guard := b.guard || s.inGuard .fd }] ∧ t.get .fd Rg.ATT_HEAD_SEQ = b.seq % 2 ^ 32)
  ∧ (∀ (x : Machine.Rec) (at_ : Nat) (s : State), s.die.att.buf = [(x, at_)] → at_ + 2 ^ 29 ≤ s.now → x.size ≠ 0 →
      Gives .recordAgeDrop s fun t => t.die.att = { s.die.att with buf := [], lost := s.die.att.lost + x.size } ∧ t.get .sc Rg.SATT_DROP = sat 16 (s.get .sc Rg.SATT_DROP + x.size))
  ∧ (∀ (b : Block) (rest : List Block) (s : State), s.dist.arch.spill = b :: rest → s.spillPaused = false → s.dist.arch.capBlocks ≠ 0 →
      Gives .spillWrite s fun t => t.dist.arch.spill = rest ∧ t.dist.arch.archGap = false ∧ t.dist.arch.ring = s.dist.arch.ring
        ∧ ∃ x, t.dist.arch.arch.getLast? = some x ∧ x.block = { b with gapBefore := b.gapBefore || s.dist.arch.archGap } ∧ x.len ≤ 4096 ∧ x.gone = false)
  ∧ (∀ (s : State), Gives .spillResume s fun t => t.dist.arch = { s.dist.arch with remapping := false } ∧ t.die = s.die)
  ∧ (∀ (b : Nat) (s : State), s.dist.arch.ruleBeat = some b → b + 1 ≤ s.beat .fd → s.role = 4 → s.get .fd Rg.START_STAGE = 3 →
      Gives .ruleSetSend s fun t => t.dist.arch = { s.dist.arch with ruleBeat := none } ∧ ∀ n < 64, s.linkUp .fd n = true → (t.link .fd n).rulesOut = (List.range 32).map fun r => s.ruleRec r)
  ∧ (∀ (n : Nat) (r : RuleRec) (s : State), s.rulePort n = true → s.die.pkgIndex ≠ 0 → Gives (.ruleRecordAtDie n r) s fun t => (∃ b, t.die = { s.die with att := { s.die.att.collect r with fullBeat := b } }) ∧ t.dist = s.dist)
  ∧ (∀ (s : State), s.die.att.coming.length = 32 → Gives .ruleSetAdopt s fun t => t.die.att = { s.die.att with inUse := s.die.att.coming.map (·.2), inUseSeq := some s.die.att.comingSeq, coming := [] })
  ∧ (∀ (s : State), Gives .attTokenRefill s fun t => t.dist.arch = { s.dist.arch with tokens := s.dist.arch.tokens.map fun e => (e.1, e.2 - 1024 * s.get .fd (Rg.JM_ATT_RATE e.1)) })
  ∧ (∀ (x : Machine.Rec) (at_ n : Nat) (l : List (Machine.Rec × Nat)) (s : State), s.die.att.buf = (x, at_) :: l → at_ + 2 ^ 29 ≤ s.now → x.size ≠ 0 →
        ((s.die.att.buf.filter fun e => decide (e.2 + 2 ^ 29 ≤ s.now)).map fun e => e.1.size).sum = n →
      Gives .recordAgeDrop s fun t => t.die.att = { s.die.att with buf := s.die.att.buf.filter (fun e => !decide (e.2 + 2 ^ 29 ≤ s.now)), lost := s.die.att.lost + n }
        ∧ t.get .sc Rg.SATT_DROP = sat 16 (s.get .sc Rg.SATT_DROP + n))

/-- ATT_WIN_LOADED, ATT_DMA, ATT_FIND, ATT_QUOTA, ATT_FLUSH, PATROL_SCRUB, DRAM_UE, CHANNEL_FAIL, STACK_FAIL (R285 to R287, R298, R304, R305, R307, R397, R399). -/
def Obligations.AttendanceReadsAndMemoryErrors : Prop :=
  (∀ (b : Block) (s : State), s.get .fd Rg.ATT_WIN_BUSY = 1 → s.archiveHas (s.get .fd Rg.ATT_WIN_SEQ) = false → s.heldBlock (s.get .fd Rg.ATT_WIN_SEQ) = some b → b.bad = false →
      Gives .attWinLoaded s fun t => t.get .fd Rg.ATT_WIN_BUSY = 0 ∧ t.get .fd Rg.ATT_WIN_VALID = 1 ∧ t.get .fd Rg.ATT_WIN_BAD = 0 ∧ t.dist.arch = { s.dist.arch with window := some b })
  ∧ (∀ (m : MbGo) (s : State), MbReady m 4 none 24 s → m.part = .fd → m.argAt [8, 1, 4, 8] 3 % 4096 = 0 → 1 ≤ m.argAt [8, 1, 4, 8] 2 → m.argAt [8, 1, 4, 8] 2 ≤ 65536 → m.argAt [8, 1, 4, 8] 1 ≤ 1 →
      (s.dmaSeqs (parseFields m.args 0 [8, 1, 4, 8])).any (fun q => s.archiveHas q) = false →
      Gives (.attDma m) s fun t => Answered m 0 t ∧ t.dist = s.dist ∧ (m.dma = false → t.hostMem = s.hostMem.writeN (m.argAt [8, 1, 4, 8] 3) (((s.dmaSeqs (parseFields m.args 0 [8, 1, 4, 8])).filterMap fun q => s.heldBlock q).map Block.toBytes).flatten))
  ∧ (∀ (m : MbGo) (b : Block) (s : State), MbReady m 4 none 8 s → m.part = .fd → s.findBlock (m.argAt [8] 0) = some b → Gives (.attFind m) s fun t => Result m (packFields 0 [(4, b.seq)]) s t ∧ Only .fd true mbKeys s t)
  ∧ (∀ (m : MbGo) (j v : Nat) (s : State), MbReady m 4 (some (m.argAt [1, 4] 0)) 8 s → m.part = .fd → m.argAt [1, 4] 0 = j → m.argAt [1, 4] 1 = v → j < 64 → v < 2 ^ 24 →
      Gives (.attQuota m) s fun t => Answered m 0 t ∧ t.get .fd (Rg.JM_ATT_RATE j) = v ∧ t.dist = s.dist ∧ ∀ f : Machine.Field, f.key ≠ (Rg.JM_ATT_RATE j).key → ¬ mbKeys f.key → t.get .fd f = s.get .fd f)
  ∧ (∀ (m : MbGo) (b : Block) (s : State), MbReady m 4 none 0 s → m.part = .fd → s.dist.arch.cur = some b → s.dist.arch.ring.length < ringCapacity →
      Gives (.attFlush m) s fun t => Answered m 0 t ∧ t.dist.arch.cur = none ∧ (∃ g, t.dist.arch.ring = s.dist.arch.ring ++ [{ b with guard := g }]) ∧ t.get .fd Rg.ATT_HEAD_SEQ = b.seq % 2 ^ 32)
  ∧ (∀ (unit row : Nat) (remap : Bool) (s : State), (SMap.get [] (memUnit true unit * 2 ^ 32 + row) s.dist.arch.rowCe).filter (fun t => decide (s.now < t + dayNs)) = [] →
      Gives (.patrolScrub true unit row remap) s fun t => t.get .fd Rg.ECC_CE_CNT = sat 16 (s.get .fd Rg.ECC_CE_CNT + 1) ∧ SMap.get [] (memUnit true unit * 2 ^ 32 + row) t.dist.arch.rowCe = [s.now] ∧ t.get .fd Rg.SPR_ROWS_A = s.get .fd Rg.SPR_ROWS_A)
  ∧ (∀ (tierA : Bool) (unit row : Nat) (remap : Bool) (s : State),
      Gives (.dramUe tierA unit row .none remap) s fun t => t.get .fd Rg.ECC_UE_CNT = sat 8 (s.get .fd Rg.ECC_UE_CNT + 1)
        ∧ t.get .fd (if tierA then Rg.SPR_ROWS_A else Rg.SPR_ROWS_B) = sat 16 (s.get .fd (if tierA then Rg.SPR_ROWS_A else Rg.SPR_ROWS_B) + 1))
  ∧ (∀ (ch : Nat) (s : State), s.dist.variant = .vxd2880 → ch < 16 → bit (s.get .fd Rg.MEM_CH_PRESENT) ch = true → bit (s.get .fd Rg.MEM_CH_FAILED) ch = false → s.get .fd Rg.MEM_CH_FAILED < 2 ^ 16 →
      Gives (.channelFail ch 0) s fun t => t.get .fd Rg.MEM_CH_FAILED = setBit (s.get .fd Rg.MEM_CH_FAILED) ch ∧ t.get .fd Rg.FSUM_CHANNEL_FAIL = 1 ∧ t.get .fd Rg.MEM_CH_PRESENT = s.get .fd Rg.MEM_CH_PRESENT)
  ∧ (∀ (k : Nat) (s : State), k < 4 → s.get .fd Rg.START_STAGE1_MET = 1 → bit (s.get .fd Rg.ECC_STACK_OK) k = true → s.get .fd Rg.ECC_STACK_OK < 16 →
      Gives (.stackFail k 0) s fun t => t.get .fd Rg.ECC_STACK_OK = clearBit (s.get .fd Rg.ECC_STACK_OK) k ∧ t.get .fd Rg.FSUM_STACK_FAIL = 1 ∧ t.dist.spare = { s.dist.spare with stackFailed := true })

/-- TT_SUBMIT, TT_START, TT_RESULT, TT_CANCEL, TT_READ, TT_REVOKE, VOTE_DEADLINE (R309 to R320, R326). The submission is that of one DRILL_MASK action of scope JOB at a beat. -/
def Obligations.TimetableAtTheRoot : Prop :=
  (∀ (m : MbGo) (j at_ vb mask : Nat) (r : List Byte) (s : State), MbReady m 2 (some (m.argAt [1, 1, 1, 8, 2, 8, 4] 1)) 36 s → m.part = .fd → s.isActiveRoot = true →
      parseFields m.args 0 [1, 1, 1, 8, 2, 8, 4] = [0, j, 1, at_, vb, 0, 16] → j < 64 → s.get .fd (Rg.JH_CREATED j) = 1 → parseBody j (s.hostMem.readN 0 16) = some [(r, .drillMask mask)] → r.length ≤ 65536 →
      8 ≤ vb → vb ≤ 32767 → at_ < 2 ^ 54 → s.beat .fd + vb + s.lead + 1 ≤ at_ → ((s.tt .fd).changes.filter fun c => c.state == 0).length < 64 → (s.tt .fd).changes.length < 1024 →
      Gives (.ttSubmit m) s fun t => Answered m 0 t ∧ (t.tt .fd).lastTxn = nextTxn (s.tt .fd).lastTxn
        ∧ (t.tt .fd).changes = (s.tt .fd).changes ++ [{ txn := nextTxn (s.tt .fd).lastTxn, scope := 0, job := j, atKind := 1, at_ := at_, voteBeats := vb, bytes := r, hasBody := true, digest := digestOf (Config.sha384 r) }])
  ∧ (∀ (txn : Nat) (c : TtChg) (s : State), s.isActiveRoot = true → ((s.tt .fd).changes.filter fun x => x.txn == txn) = [c] → c.state = 0 → s.turn c = true → c.scope ≠ 0 → c.sentNo = false → s.get .fd Rg.START_STAGE = 3 →
      (s.ttVoters .fd c).isEmpty = false → minusMask 80 (maskOf 80 fun n => (s.ttVoters .fd c).contains n) c.yes ≠ 0 →
      s.ttReason .fd { c with state := 1, ports := maskOf 80 fun n => (s.ttVoters .fd c).contains n, prepBeat := s.beat .fd, vd := 0 } true = 0 →
      Gives (.ttStart txn) s fun t => t.chg .fd txn = some { c with state := 1, ports := maskOf 80 fun n => (s.ttVoters .fd c).contains n, prepBeat := s.beat .fd, vd := 0, vote := some 0 })
  ∧ (∀ (m : MbGo) (txn : Nat) (c : TtChg) (s : State), MbReady m 2 none 4 s → m.part = .fd → s.isActiveRoot = true → m.argAt [4] 0 = txn → txn ≠ 0 → (s.tt .fd).lastTxn ≠ 0 → laterThan 32 txn (s.tt .fd).lastTxn = false → s.chg .fd txn = some c →
      Gives (.ttResult m) s fun t => Result m (packFields 0 [(1, c.state), (8, c.vd), (1, c.reason), (4, c.origin), (8, c.effectHt / nsLsb)]) s t ∧ Only .fd true mbKeys s t)
  ∧ (∀ (m : MbGo) (txn : Nat) (c : TtChg) (s : State), MbReady m 2 none 4 s → m.part = .fd → s.isActiveRoot = true → m.argAt [4] 0 = txn → txn ≠ 0 → (s.tt .fd).lastTxn ≠ 0 → laterThan 32 txn (s.tt .fd).lastTxn = false → s.chg .fd txn = some c → c.state < 3 →
      Gives (.ttCancel m) s fun t => Answered m 0 t ∧ t.chg .fd txn = some { c with state := 5, reason := 0x22, origin := s.ownRoll .fd })
  ∧ (∀ (m : MbGo) (c : TtChg) (s : State), MbReady m 2 none 4 s → m.part = .fd → s.chg .fd (m.argAt [4] 0) = some c →
      Gives (.ttRead m) s fun t => Result m (packFields 0 [(1, c.state), (1, ofBool (c.vote == some 0)), (1, if c.vote.getD 0 = 0 then c.reason else c.vote.getD 0), (8, c.ports % 2 ^ 64), (8, c.ports / 2 ^ 64), (8, c.yes % 2 ^ 64), (8, c.yes / 2 ^ 64)]) s t ∧ Only .fd true mbKeys s t)
  ∧ (∀ (txn r : Nat) (c : TtChg) (s : State), s.isActiveRoot = true → s.chg .fd txn = some c → c.prepared = true → c.sentNo = false → s.ttReason .fd c false = r → r ≠ 0 → s.get .fd Rg.START_STAGE = 3 →
      Gives (.ttRevoke .fd txn) s fun t => t.chg .fd txn = some { c with vote := some r, state := 5, reason := r, origin := s.ownRoll .fd })
  ∧ (∀ (txn n : Nat) (c : TtChg) (s : State), s.isActiveRoot = true → s.chg .fd txn = some c → c.state = 2 → c.vd ≤ s.beat .fd → c.silent = some n →
      Gives (.voteDeadline txn) s fun t => t.chg .fd txn = some { c with state := 5, reason := 0x20, origin := if n < 64 then s.assignedRoll n else s.ownRoll .fd })

/-- TT_BODY_RECEIVE, PREPARE_WORD, VOTE_WORD, COMMIT_WORD, ABORT_WORD, TT_EFFECT (R308 to R325). The PREPARE is one at a partner leaf, which applies and does not vote; the effect that of one DRILL_MASK action of scope JOB. -/
def Obligations.TimetableAtUnits : Prop :=
  (∀ (p : Part) (n txn job scope : Nat) (bytes : List Byte) (s : State), s.chg p txn = none →
      Gives (.ttBodyReceive p n txn job scope bytes) s fun t => (t.tt p).bodies = ((s.tt p).bodies.filter fun e => e.1 != txn) ++ [(txn, bytes)] ∧ (t.tt p).changes = (s.tt p).changes)
  ∧ (∀ (n job : Nat) (txn atKind at_ voteBeats digest : Nat) (bytes : List Byte) (s : State), 66 ≤ n → s.role = 4 → s.chg .fd txn = none → (s.tt .fd).bodies.find? (fun e => e.1 == txn) = some (txn, bytes) → (s.tt .fd).changes.length < 1024 →
      Gives (.prepareWord .fd n job false txn atKind at_ voteBeats digest) s fun t => ∃ c, t.chg .fd txn = some c ∧ c.job = job ∧ c.scope = 0 ∧ c.atKind = atKind ∧ c.at_ = at_ ∧ c.bytes = bytes ∧ c.digest = digest ∧ c.vote = some 0 ∧ c.state = 2 ∧ c.ports = 0
        ∧ c.members = (((s.tt .fd).members.filter fun m => m.1 == txn).map (·.2)).eraseDups ∧ c.prepBeat = s.beat .fd)
  ∧ (∀ (p : Part) (n job : Nat) (hallwide : Bool) (txn src ht32 : Nat) (c : TtChg) (s : State), s.chg p txn = some c → c.prepared = true → bit c.ports n = true → c.vote = none →
      Gives (.voteWord p n job hallwide txn true 0 src ht32) s fun t => t.chg p txn = some { c with yes := setBit c.yes n })
  ∧ (∀ (n job : Nat) (hallwide : Bool) (txn atKind at_ : Nat) (c : TtChg) (s : State), s.chg .fd txn = some c → c.prepared = true → c.atKind = 1 → s.htNs .fd < c.at_ * 1024 →
      Gives (.commitWord .fd n job hallwide txn atKind at_) s fun t => t.chg .fd txn = some { c with state := 3 } ∧ t.get .fd Rg.TT_LAST_TXN = txn % 2 ^ 32 ∧ t.get .fd Rg.TT_LAST_REASON = 0)
  ∧ (∀ (p : Part) (n job : Nat) (hallwide : Bool) (txn reason origin : Nat) (c : TtChg) (s : State), s.chg p txn = some c → c.prepared = true →
      Gives (.abortWord p n job hallwide txn reason origin) s fun t => t.chg p txn = some { c with state := 5, reason := reason, origin := origin })
  ∧ (∀ (txn mask : Nat) (c : TtChg) (s : State), (s.tt .fd).changes = [c] → c.txn = txn → c.state = 3 → c.atKind = 1 → c.at_ * 1024 ≤ s.htNs .fd → c.acts = [.drillMask mask] → c.members = [] → c.scope = 0 → c.job < 64 →
      Gives (.ttEffect .fd txn) s fun t => t.chg .fd txn = some { c with state := 4, effectHt := s.ht .fd } ∧ t.get .fd (Rg.JD_CONSENT c.job) = mask % 2 ^ 6)

/-- SHAPER_TICK, STEP_TIMER_EXPIRY, COMPLETION_RELEASE, FLOOR_WORD, FLOOR_APPLY, FLOOR_RESEND, POWER_SAMPLE, TELEMETRY_SEND (R327 to R345, R401). -/
def Obligations.ShaperFloorsTelemetry : Prop :=
  (∀ (temp : Int) (s : State), s.beat .fd % 1024 = 0 → SMap.find 0 s.fd.lastDone ≠ some (s.beat .fd) → bandOf s.dist.spare.band temp = s.dist.spare.band → s.shaperUp = true → s.get .fd Rg.PWR_UF_EN = 0 → s.dist.power.cap ≤ 100 →
      Gives (.shaperTick temp) s fun t => t.dist.spare.temp = temp ∧ t.get .fd Rg.PWRS_UF_NOW = 0 ∧ t.get .fd Rg.PWRS_CAP = s.dist.power.cap ∧ t.dist.power.cap = s.dist.power.cap ∧ t.get .fd Rg.PWRS_CURTAILING = ofBool (decide (s.capC < 100)))
  ∧ (∀ (b : Nat) (s : State), s.shaperUp = true → s.beat .fd % 1024 = 0 → s.dist.power.downAt = some b → b ≤ s.beat .fd → s.dist.power.capDown = true → s.dist.power.cap ≤ 100 →
      Gives (.stepTimerExpiry false) s fun t => t.dist.power.cap = s.dist.power.cap - 1 ∧ t.get .fd Rg.PWRS_CAP = s.dist.power.cap - 1)
  ∧ (∀ (h : Nat) (s u : State), s.isActiveRoot = true → (s.slot h).holding = true →
      (if s.rampDone (s.slot h).job = true then s.awaitHt .fd (max ((s.slot h).completeHt.getD 0) (s.bellSpaced (s.slot h).job).toNat) else s) = u →
      (u.slot h).state = .counting → (u.slot h).bell = true → (u.slot h).payload = false → (u.slot h).early = 0 → u.countFull h = true → u.shaperUp = true → u.isActiveRoot = true →
      u.mayComplete (u.slot h).job ((u.slot h).completeHt.getD (u.stretchedNeed (u.slot h).job)) = true → (u.pj (u.slot h).job).holdSince = none →
      Gives (.completionRelease h) s fun t => (t.slot h).completed = (s.slot h).e ∧ (t.slot h).e = ((s.slot h).e + 1) % 65536 ∧ (t.slot h).state = .counting ∧ (t.slot h).holding = false)
  ∧ (∀ (n job level atBeat : Nat) (recess : Bool) (s : State), s.role = 4 →
      Gives (.floorWord .fd n job level recess atBeat) s fun t => (t.job job).lastFloor = some (level, recess, atBeat) ∧ (t.job job).members = (s.job job).members)
  ∧ (∀ (job level atBeat : Nat) (s : State), s.die.pwr.floors = [(job, level, false, atBeat)] → atBeat ≤ s.beat .sc → s.get .sc (Rg.SJH_MEMBER job) = 1 →
      Gives .floorApply s fun t => t.die.pwr.floors = [] ∧ t.get .sc (Rg.SPWR_LEVEL job) = level % 2 ^ 8 ∧ t.get .sc (Rg.SPWR_RECESS job) = 0 ∧ t.get .sc (Rg.SPWR_VALID job) = 1 ∧ t.get .sc (Rg.SPWR_ENTRY job) = 0)
  ∧ (∀ (j : Nat) (s : State), s.shaperOn = true → j < 64 → (s.pj j).floor ≠ none → (∀ k < 64, (s.pj k).floor ≠ none → (s.pj k).floorSent + 65536 ≤ s.beat .fd) →
      Gives .floorResend s fun t => t.pj j = { s.pj j with floorSent := s.beat .fd })
  ∧ (∀ (mw : Nat) (s : State), s.die.running = true → s.beat .sc % 1024 = 256 → SMap.find 6 s.sc.lastDone ≠ some (s.beat .sc) → s.die.pkgIndex = 0 → mw < 2 ^ 22 →
      Gives (.powerSample mw true) s fun t => t.die.pwr.sample = some mw ∧ t.get .sc Rg.SPWR_LAST_MW = mw ∧ SMap.get (0, 0) 0 t.die.pwr.reports = (mw, s.beat .sc - 256))
  ∧ (∀ (s : State), s.die.pkgIndex = 0 → s.beat .sc % 1024 = 0 → 1024 ≤ s.beat .sc → SMap.find 5 s.sc.lastDone ≠ some (s.beat .sc) →
      Gives (.telemetrySend .sc) s fun t => ∀ n < 2, (t.link .sc n).telOut = { powerMw := sat 32 (sumReports (s.beat .sc - 1024) s.pkgReports).1, dies := (sumReports (s.beat .sc - 1024) s.pkgReports).2.1, valid := true, partialSum := (sumReports (s.beat .sc - 1024) s.pkgReports).2.2, reportBeat := s.beat .sc - 1024 })
  ∧ (∀ (f : Nat × Nat × Bool × Nat) (l : List (Nat × Nat × Bool × Nat)) (s : State), s.die.pwr.floors = f :: l → f.2.2.2 ≤ s.beat .sc →
      Gives .floorApply s fun t => t.die.pwr.floors = s.die.pwr.floors.filter fun g => !decide (g.2.2.2 ≤ s.beat .sc))

/-- EMERGENCY_START, EMERGENCY_END, PWR_READ, PWR_JOB_SET, PWR_RECESS, PWR_RESUME (R334, R335, R339, R342, R348). -/
def Obligations.EmergenciesAndShaperCommands : Prop :=
  (∀ (temp : Int) (s : State), (s.unit .sc).emerg.conds = 0 →
      Gives (.emergencyStart .sc true temp) s fun t => (t.unit .sc).emerg.conds = 1 ∧ (t.unit .sc).emerg.startHt = s.ht .sc ∧ t.get .sc Rg.SPWR_PM_EMERG = 1 ∧ t.get .sc Rg.SPIN_PM_EMERG = 1 ∧ t.get .sc Rg.FLT_CLASS = 0x60)
  ∧ (∀ (temp : Int) (s : State), (s.unit .sc).emerg.conds ≠ 0 →
      Gives (.emergencyEnd .sc false temp) s fun t => (t.unit .sc).emerg.conds = 0 ∧ (t.unit .sc).emerg.endNow = some s.now ∧ t.get .sc Rg.SPWR_PM_EMERG = 0 ∧ t.get .sc Rg.SPIN_PM_EMERG = 0)
  ∧ (∀ (m : MbGo) (s : State), MbReady m 3 none 0 s → m.part = .fd → s.dist.variant = .vxd2880 → s.isActiveRoot = true →
      Gives (.pwrRead m) s fun t => Result m (packFields 0 ([(8, s.get .fd Rg.PWRH_POWER_LO + 2 ^ 32 * s.get .fd Rg.PWRH_POWER_HI), (4, s.get .fd Rg.PWRH_DIES), (1, s.get .fd Rg.PWRS_UF_NOW), (1, s.dist.power.cap), (1, ofBool s.frozen),
          (1, s.get .fd Rg.PWRS_EMERGENCY)] ++ ((List.range 64).map fun j => [(1, s.get .fd (Rg.PJ_LEVEL_OUT j)), (1, s.get .fd (Rg.PJ_PHASE j))]).flatten)) s t ∧ Only .fd true mbKeys s t)
  ∧ (∀ (m : MbGo) (j : Nat) (s : State), MbReady m 3 (some (m.argAt (1 :: List.replicate 16 1) 0)) 17 s → m.part = .fd → s.dist.variant = .vxd2880 → s.isActiveRoot = true → m.argAt (1 :: List.replicate 16 1) 0 = j → j < 64 →
      s.get .fd (Rg.JH_CREATED j) = 1 → cadenceOk ((m.args.drop 1).take 16) = true → s.bellLive j = false →
      Gives (.pwrJobSet m) s fun t => Answered m 0 t ∧ t.pj j = { s.pj j with cad := (m.args.drop 1).take 16 })
  ∧ (∀ (m : MbGo) (j : Nat) (s : State), MbReady m 3 (some (m.argAt [1] 0)) 1 s → m.part = .fd → s.dist.variant = .vxd2880 → s.isActiveRoot = true → m.argAt [1] 0 = j → j < 64 →
      s.get .fd (Rg.JH_CREATED j) = 1 → (s.pj j).recess = false →
      Gives (.pwrRecess m) s fun t => Answered m 0 t ∧ t.pj j = { s.pj j with ask := true })
  ∧ (∀ (m : MbGo) (j : Nat) (s : State), MbReady m 3 (some (m.argAt [1] 0)) 1 s → m.part = .fd → s.dist.variant = .vxd2880 → s.isActiveRoot = true → m.argAt [1] 0 = j → j < 64 →
      s.get .fd (Rg.JH_CREATED j) = 1 → (s.pj j).recess = true →
      Gives (.pwrResume m) s fun t => Answered m 0 t ∧ t.pj j = { s.pj j with resume := true })

/-- ROOT_STATE_SEND, ROOT_STATE, ROOT_PROMOTE, STANDBY_PROMOTE, ROOT_DEMOTE (R405 to R408, R417, R418). -/
def Obligations.RootsReportAndChangeRoles : Prop :=
  (∀ (s : State), s.role = 3 → s.beat .fd % 64 = 0 → SMap.find 7 s.fd.lastDone ≠ some (s.beat .fd) → s.linkUp .fd 64 = true → s.linkUp .fd 65 = true →
      Gives .rootStateSend s fun t => ∀ n, n = 64 ∨ n = 65 →
        (t.link .fd n).tunnel = (s.link .fd n).tunnel ++ [.rootState (s.lstate .fd 64) (s.lstate .fd 65) (s.link .fd 64).leftHt32 (s.link .fd 65).leftHt32 (s.get .fd Rg.PROM_PROMO_SEQ)])
  ∧ (∀ (n u0 u1 l0 l1 q : Nat) (s : State), s.role = 1 ∨ s.role = 2 →
      Gives (.rootState n u0 u1 l0 l1 q) s fun t => t.dist.hall = { s.dist.hall with rootStates := SMap.set n (u0, u1, l0, l1, s.beat .fd) s.dist.hall.rootStates, otherPromo := some q }
        ∧ Regs (fun k => k = Rg.PROM_MIRROR_SILENT.key ∨ k = Rg.PROM_MID_MAJORITY.key ∨ k = Rg.PROM_MIDS_LINKED.key ∨ k = Rg.PROM_MIDS_LOST.key) s t)
  ∧ (∀ (b : Nat) (s : State), s.role = 2 → s.dist.hall.promoteAt = some b → b < s.beat .fd → s.dist.mirrorTt.changes = [] → (∀ e ∈ s.dist.hall.jobs, e.1 < 64) →
      Gives .standbyPromote s fun t => t.role = 1 ∧ t.get .fd Rg.PROM_PROMO_SEQ = (s.get .fd Rg.PROM_PROMO_SEQ + 1) % 256 ∧ t.get .fd Rg.FSUM_PROMOTED = 1 ∧ t.dist.hall.promoteAt = none)
  ∧ (∀ (q : Nat) (s : State), s.isActiveRoot = true → s.dist.hall.otherPromo = some q → laterThan 8 (q % 256) (s.get .fd Rg.PROM_PROMO_SEQ) = true →
      Gives .rootDemote s fun t => t.role = 2 ∧ t.get .fd Rg.FSUM_DEMOTED = 1 ∧ t.get .fd Rg.SB_MIRRORED = 0 ∧ t.get .fd Rg.SB_MIRROR_SYNC = 0 ∧ t.dist.hall = { s.dist.hall with otherPromo := none })
  ∧ (∀ (m : MbGo) (s : State), MbReady m 2 none 0 s → m.part = .fd → s.dist.variant = .vxd2880 → s.role = 2 → (∀ n, 68 ≤ n → n ≤ 71 → s.lstate .fd n ≠ 3) →
      Gives (.rootPromote m) s fun t => Answered m 0 t ∧ t.dist = { s.dist with hall := { s.dist.hall with promoteAt := some (s.beat .fd) } })

/-- DRILL_MOMENT, DRILL_END, DRILL_NOW, DRILL_READ, SELFTEST, SELFTEST_RUN, FAULT_READ (R398, R402, R409 to R414, R418). -/
def Obligations.DrillsAndSelfTests : Prop :=
  (∀ (target : Nat) (other idle pe : Bool) (s : State), s.role = 4 → s.get .fd Rg.DRL_DRILL_EN = 1 → s.nextDrill target other idle = some 3 →
      Gives (.drillMoment target other idle pe) s fun t => t.get .fd Rg.DRL_RUNNING = 1 ∧ t.get .fd Rg.DRL_RUNNING_TYPE = 3
        ∧ t.dist.spare = { s.dist.spare with nextType := 4, running := some { type := 3, target := target, ht32 := s.ht32 .fd, until_ := s.now + 1000000 }, drillSeen := 0, drillDue := false, forceMismatch := true })
  ∧ (∀ (target : Nat) (other idle : Bool) (s : State), s.role = 4 → s.get .fd Rg.DRL_DRILL_EN = 1 → s.nextDrill target other idle = none →
      Gives (.drillMoment target other idle true) s fun t => t.get .fd Rg.DRL_SKIP_CNT = sat 16 (s.get .fd Rg.DRL_SKIP_CNT + 1) ∧ t.get .fd Rg.DRL_LAST_RESULT = 3
        ∧ t.dist.spare = { s.dist.spare with drillDue := false, drillLog := ((s.dist.spare.nextType, target, s.ht32 .fd, 3) :: s.dist.spare.drillLog).take 16 })
  ∧ (∀ (d : Drill) (seen : Bool) (s : State), s.dist.spare.running = some d → s.drillGates = true → s.drillPasses d seen = true →
      Gives (.drillEnd seen false) s fun t => t.get .fd Rg.DRL_RUNNING = 0 ∧ t.get .fd Rg.DRL_RUNNING_TYPE = 7 ∧ t.get .fd Rg.DRL_LAST_RESULT = 0 ∧ t.get .fd Rg.DRL_DONE_CNT = sat 16 (s.get .fd Rg.DRL_DONE_CNT + 1)
        ∧ t.dist.spare = { s.dist.spare with forceMismatch := false, drillSeen := 0, running := none, drillLog := ((d.type, d.target, d.ht32, 0) :: s.dist.spare.drillLog).take 16 })
  ∧ (∀ (d : Drill) (seen : Bool) (s : State), s.dist.spare.running = some d →
      Gives (.drillEnd seen true) s fun t => t.get .fd Rg.DRL_RUNNING = 0 ∧ t.get .fd Rg.DRL_RUNNING_TYPE = 7 ∧ t.get .fd Rg.DRL_LAST_RESULT = 2 ∧ t.get .fd Rg.DRL_DONE_CNT = sat 16 (s.get .fd Rg.DRL_DONE_CNT + 1)
        ∧ t.dist.spare = { s.dist.spare with forceMismatch := false, drillSeen := 0, running := none, drillLog := ((d.type, d.target, d.ht32, 2) :: s.dist.spare.drillLog).take 16 })
  ∧ (∀ (m : MbGo) (target : Nat) (other : Bool) (s : State), MbReady m 4 none 8 s → m.part = .fd → m.argAt [1, 4] 0 = 3 → m.argAt [1, 4] 1 = target → s.drillGates = true → s.roleUp .fd 4 = true → s.dist.spare.running = none →
      (∀ j < 64, s.get .fd (Rg.JH_MEMBERS j) ≠ 0 → bit (s.get .fd (Rg.JD_CONSENT j)) 3 = true) → s.role = 4 → 2 ≤ s.usablePipes.length →
      Gives (.drillNow m other true) s fun t => Answered m 0 t ∧ t.get .fd Rg.DRL_RUNNING = 1 ∧ t.get .fd Rg.DRL_RUNNING_TYPE = 3
        ∧ t.dist.spare = { s.dist.spare with running := some { type := 3, target := target, ht32 := s.ht32 .fd, until_ := s.now + 1000000 }, drillSeen := 0, drillDue := false, forceMismatch := true })
  ∧ (∀ (m : MbGo) (s : State), MbReady m (if m.part = .fd then 4 else 0) none 0 s →
      Gives (.drillRead m) s fun t => Listed m [] ((if m.part = .fd then s.dist.spare.drillLog else []).map fun d => [(1, d.1), (4, d.2.1), (4, d.2.2.1), (1, d.2.2.2)]) s t)
  ∧ (∀ (m : MbGo) (k i : Nat) (s : State), MbReady m (if m.part = .fd then 4 else 1) none 2 s → m.argAt [1, 1] 0 = k → m.argAt [1, 1] 1 = i → k ≤ 2 → i < s.testUnits m.part k →
      Gives (.selftest m) s fun t => Answered m 0 t
        ∧ (t.unit m.part).tests = SMap.set k (match SMap.find k (s.unit m.part).tests with | none => i | some j => if j = i then i else 255) (s.unit m.part).tests)
  ∧ (∀ (p : Part) (i : Nat) (s : State), SMap.find 1 (s.unit p).tests = some i → i < s.testUnits p 1 → s.get p (Rg.LINK_SPARE_MAP (sparePos p i)) = 127 →
      Gives (.selftestRun p 1 i false) s fun t => (t.link p (sparePos p i)).faulty = true ∧ (t.unit p).tests = SMap.erase 1 (s.unit p).tests ∧ SMap.get 0 (256 + i) (t.unit p).tested = s.now)
  ∧ (∀ (m : MbGo) (i : Nat) (s : State), MbReady m 0 none 1 s → m.argAt [1] 0 = i →
      Gives (.faultRead m) s fun t => Listed m [] ((((s.unit m.part).faults.drop i).take 12).map fun e => [(2, e.cls), (1, e.act), (4, e.obj), (4, e.ht32)]) s t)

/-- PIPE_UNRETIRE, FAULT_TABLE_WRITE, REPORT_CARD_TICK, RC_READ, RC_CLEAR (R390, R403, R404, R415, R418). -/
def Obligations.FaultTableAndReportCard : Prop :=
  (∀ (m : MbGo) (i b : Nat) (s : State), MbReady m 2 none 2 s → m.part = .fd → m.argAt [1, 1] 0 = i → m.argAt [1, 1] 1 = b → i < 68 →
      Gives (.pipeUnretire m) s fun t => Answered m 0 t ∧ t.get .fd (Rg.PIPE_RETIRE_MAP i) = minusMask 8 (s.get .fd (Rg.PIPE_RETIRE_MAP i)) b % 256
        ∧ (t.pipe i) = { s.pipe i with cells := (s.pipe i).cells.filter fun e => !bit b (e.1 / 4) })
  ∧ (∀ (b : Nat) (s : State), s.dist.spare.tableDirty = some b → s.get .fd Rg.SUP_GUARD = 0 →
      Gives .faultTableWrite s fun t => t = s.setSpare { s.dist.spare with tableDirty := none, eepromTable := s.faultTable }
        ∧ ∀ i < 68, s.get .fd (Rg.PIPE_RETIRE_MAP i) ≠ 0 → (∀ k < 68, ∀ e ∈ (s.pipe k).cells, e.1 < 32) → SMap.find (33 * i + 32) t.dist.spare.eepromTable = some (s.get .fd (Rg.PIPE_RETIRE_MAP i)))
  ∧ (∀ (s : State), s.role = 4 → s.beat .fd % 1024 = 0 → SMap.find 4 s.fd.lastDone ≠ some (s.beat .fd) → s.linkUp .fd 64 = true →
      Gives .reportCardTick s fun t => (t.link .fd 64).tunnel = (s.link .fd 64).tunnel ++ [.recovery (s.beat .fd) s.recoveryMasks.1 s.recoveryMasks.2] ∧ t.dist = s.dist)
  ∧ (∀ (j : Nat) (s : State), s.isActiveRoot = true → s.beat .fd % 1024 = 0 → SMap.find 4 s.fd.lastDone ≠ some (s.beat .fd) → j < 64 → s.get .fd (Rg.JH_CREATED j) = 1 →
      Gives .reportCardTick s fun t => (t.job j).rcAt = s.now)
  ∧ (∀ (m : MbGo) (j : Nat) (s : State), MbReady m 4 (some (m.argAt [1] 0)) 1 s → m.part = .fd → s.isActiveRoot = true → m.argAt [1] 0 = j → j < 64 →
      Gives (.rcRead m) s fun t => Only .fd true mbKeys s t
        ∧ Result m (packFields 0 [(4, s.get .fd (Rg.RC_COMPUTE_MS j)), (4, s.get .fd (Rg.RC_WAIT_MS j)), (4, s.get .fd (Rg.RC_RECESS_MS j)), (4, s.get .fd (Rg.RC_RECOVERY_MS j)), (4, s.get .fd (Rg.RC_DRILL_MS j)),
          (4, s.get .fd (Rg.RC_BELLS j)), (4, s.get .fd (Rg.RC_SINCE_BEAT j)), (4, 0), (1, s.rcPart j)]) s t)
  ∧ (∀ (m : MbGo) (j : Nat) (s : State), MbReady m 4 (some (m.argAt [1] 0)) 1 s → m.part = .fd → s.isActiveRoot = true → m.argAt [1] 0 = j → j < 64 →
      Gives (.rcClear m) s fun t => Answered m 0 t ∧ t.get .fd (Rg.RC_COMPUTE_MS j) = 0 ∧ t.get .fd (Rg.RC_WAIT_MS j) = 0 ∧ t.get .fd (Rg.RC_RECESS_MS j) = 0 ∧ t.get .fd (Rg.RC_RECOVERY_MS j) = 0
        ∧ t.get .fd (Rg.RC_DRILL_MS j) = 0 ∧ t.get .fd (Rg.RC_BELLS j) = 0 ∧ t.get .fd (Rg.RC_SINCE_BEAT j) = s.beat .fd % 2 ^ 32 ∧ (t.job j).rcNs = [0, 0, 0, 0, 0])

/-- A step takes the command at the front of the queue, first in, first out, and runs it with the queue's rest. The queue is the model's own (log entry 7). -/
def Obligations.StepTakesTheFrontCommand : Prop :=
  ∀ (c : Instr) (rest : List Instr) (s : State), step { s with pending := c :: rest } = exec c { s with pending := rest }

/-- An empty queue: the step lets 4 ns of true time pass. DESIGN CHOICE of the model, log entry 7. -/
def Obligations.IdleStepPassesTime : Prop :=
  ∀ (s : State), s.pending = [] → ∃ t, step s = .next t ∧ t.now = s.now + 4 ∧ t.pending = [] ∧ t.hostMem = s.hostMem ∧ t.dieMem = s.dieMem

/-- Totality: every command has an effect in every state, and the queue is the step's alone. -/
def Obligations.EveryCommandAnswersAndKeepsTheQueue : Prop :=
  (∀ (i : Instr) (s : State), ∃ t, exec i s = .next t ∧ t.pending = s.pending)
  ∧ (∀ (s : State), ∃ t, step s = .next t ∧ t.pending = s.pending.tail)

/-- The memories' canonical form (log entry 2) is kept by every step. -/
def Obligations.StepsKeepMemoriesCanonical : Prop :=
  ∀ (s t : State), MemOk s = true → step s = .next t → MemOk t = true

/-- The invariant holds at reset. DESIGN CHOICE: log entries 2 and 7. -/
def Obligations.ResetMemoriesAreCanonical : Prop :=
  MemOk State.reset = true ∧ State.reset.pending = [] ∧ (∀ a, State.reset.hostMem.read a = 0 ∧ State.reset.dieMem.read a = 0)

/-- What one part's command can't change: the other part, whichever command, operands and state. -/
def Obligations.PartsActApart : Prop :=
  ∀ (i : Instr) (p : Part) (s t : State), i.partOf = some p → exec i s = .next t →
    (p = .fd → t.sc = s.sc ∧ t.die = s.die ∧ t.dieMem = s.dieMem) ∧ (p = .sc → t.fd = s.fd ∧ t.dist = s.dist ∧ t.hostMem = s.hostMem ∧ t.msix = s.msix)

/-- Read after write, for a run of bytes in either memory and in a mailbox's data area. -/
def Obligations.MemoryKeepsStoredBytes : Prop :=
  ∀ (a : Nat) (bs : List Byte) (m : Memory), Memory.wf m = true →
    Memory.wf (m.writeN a bs) = true ∧ (m.writeN a bs).readN a bs.length = bs ∧ (∀ b, b < a ∨ a + bs.length ≤ b → (m.writeN a bs).read b = m.read b)

/-- R49: serial comparison of wrapping counters. -/
def Obligations.SerialNumbersCompare : Prop :=
  (∀ (w a b : Nat), 1 ≤ w → w ≤ 63 →
      (∃ k : Int, toSigned w ((b + 2 ^ w - a % 2 ^ w) % 2 ^ w) = (b : Int) - a + k * 2 ^ w)
        ∧ -(2 : Int) ^ (w - 1) ≤ toSigned w ((b + 2 ^ w - a % 2 ^ w) % 2 ^ w) ∧ toSigned w ((b + 2 ^ w - a % 2 ^ w) % 2 ^ w) ≤ 2 ^ (w - 1) - 1
        ∧ (laterThan w b a = true ↔ 0 < toSigned w ((b + 2 ^ w - a % 2 ^ w) % 2 ^ w)) ∧ (earlierThan w b a = true ↔ toSigned w ((b + 2 ^ w - a % 2 ^ w) % 2 ^ w) < 0)
        ∧ (a % 2 ^ w = b % 2 ^ w ↔ toSigned w ((b + 2 ^ w - a % 2 ^ w) % 2 ^ w) = 0)
        ∧ ((a + 2 ^ (w - 1)) % 2 ^ w = b % 2 ^ w → toSigned w ((b + 2 ^ w - a % 2 ^ w) % 2 ^ w) < 0 ∧ earlierThan w b a = true))
  ∧ (∀ (a b : Nat), sdiff16 b a = toSigned 16 ((b + 2 ^ 16 - a % 2 ^ 16) % 2 ^ 16) ∧ sdiff48 b a = toSigned 48 ((b + 2 ^ 48 - a % 2 ^ 48) % 2 ^ 48))

/-- R38: the form of HT80 in memory. -/
def Obligations.HallTimeInMemory : Prop :=
  (∀ (ht stat : Nat), ht < 2 ^ 80 → stat < 2 ^ 16 →
      (ht80Bytes ht stat).length = 16 ∧ ofLe ((ht80Bytes ht stat).take 8) = ht / 2 ^ 16 ∧ ofLe (((ht80Bytes ht stat).drop 8).take 2) = ht % 2 ^ 16
        ∧ ofLe (((ht80Bytes ht stat).drop 10).take 2) = stat ∧ (ht80Bytes ht stat).drop 12 = [0, 0, 0, 0])
  ∧ (∀ (q : Nat) (es : List Nat) (e : QEntry) (pre rest : List QEntry) (s : State), AtHead q pre e rest s → e.op = 10 →
      Gives (.stamp q es) s fun t => t.dieMem = s.dieMem.writeN (16 * (e.cmd % 2 ^ 60))
        (ht80Bytes ((s.stn (s.get .sc (Rg.Q_STATION q))).edges (s.period (s.get .sc (Rg.Q_STATION q))) es).rt
          ((s.stnEdges (s.get .sc (Rg.Q_STATION q)) es).stnStat (s.get .sc (Rg.Q_STATION q)))))
  ∧ (∀ (b : Block), (b.toBytes.drop 8).take 16 = ht80Bytes b.anchor b.stat)

/-- R422: the identity registers. -/
def Obligations.IdentityRegisters : Prop :=
  (∀ v : Variant, fieldGet Rg.ID_VENDOR (fdIdent v) = 0x4858 ∧ fieldGet Rg.ID_STEPPING (fdIdent v) = 0xB0
      ∧ fieldGet Rg.ID_PART (fdIdent v) = (match v with | .vxd2880 => 0x80 | .vxd2860 => 0x60 | .vxd2840 => 0x40))
    ∧ State.reset.wordOf .fd [Rg.ID_STEPPING, Rg.ID_PART, Rg.ID_VENDOR] = 0xB0804858 ∧ State.reset.wordOf .sc [Rg.ID_STEPPING, Rg.ID_PART, Rg.ID_VENDOR] = 0x30014858
    ∧ (∀ (p : Part) (s : State), s.regPresent p 0 = true → s.regAt p 0 = some (0, [Rg.ID_STEPPING, Rg.ID_PART, Rg.ID_VENDOR]))
    ∧ (∀ f ∈ [Rg.ID_STEPPING, Rg.ID_PART, Rg.ID_VENDOR], f.acc = .ro)

/-- R125: the words that a control slot discards. -/
def Obligations.WrongWordsCountInBadWord : Prop :=
  (∀ (p : Part) (n : Nat) (x : CtlSlot) (s : State), x.crcOk = false → s.takeSlot p n x = s.bump p (Rg.LINK_BAD_WORD n))
  ∧ (∀ (p : Part) (n : Nat) (x : CtlSlot) (s : State), x.crcOk = true → x.lseq = (s.link p n).rxNext →
        ((∃ k, x.word.body = .undefined k) ∨ ∃ up, x.word.body.up = some up ∧ ¬ (p = .fd ∧ 68 ≤ n ∧ n ≤ 71) ∧ up ≠ s.parentEnd p n) →
      ((s.takeSlot p n x).link p n).rxNext = ((s.link p n).rxNext + 1) % 65536 ∧ (s.takeSlot p n x).get p (Rg.LINK_BAD_WORD n) = sat 8 (s.get p (Rg.LINK_BAD_WORD n) + 1)
        ∧ ((s.takeSlot p n x).unit p).inbox = (s.unit p).inbox ∧ (s.takeSlot p n x).dist = s.dist ∧ (s.takeSlot p n x).die = s.die)

/-- R10 and R11, over the registers of the map, for a word written to the fields that an access reaches (`only`). -/
def Obligations.ReservedBitsAndEncodings : Prop :=
  (∀ (r : RegRow) (n : Nat) (p : Part) (i : Nat) (s : State), r ∈ regRows → i < 32 → bit (reservedBits (r.fields n)) i = true → bit (s.wordOf p (r.fields n)) i = false)
  ∧ (∀ (r : RegRow) (n : Nat) (p : Part) (v : Nat) (only : Field → Bool) (s : State), r ∈ regRows → (∃ i < 32, bit v i = true ∧ bit (reservedBits (r.fields n)) i = true) →
      (s.writeFields p (r.fields n) v only).get p Rg.ALERT_RSVD_WRITE = 1
        ∧ ∀ g : Field, g.key ≠ Rg.ALERT_RSVD_WRITE.key → (∀ f ∈ r.fields n, g.key ≠ f.key) → (s.writeFields p (r.fields n) v only).get p g = s.get p g)
  ∧ (∀ (r : RegRow) (n : Nat) (f : Field) (p : Part) (v : Nat) (only : Field → Bool) (s : State), r ∈ regRows → f ∈ r.fields n → f.acc = .rw → only f = true →
      (f.takes (bits v f.lo f.width) = true → (s.writeFields p (r.fields n) v only).get p f = bits v f.lo f.width)
        ∧ (f.takes (bits v f.lo f.width) = false → (s.writeFields p (r.fields n) v only).get p f = s.get p f ∧ (s.writeFields p (r.fields n) v only).get p Rg.ALERT_RSVD_WRITE = 1))

/-- R420: unoccupied offsets. An absent block's offsets are unoccupied. -/
def Obligations.UnoccupiedOffsets : Prop :=
  (∀ (p : Part) (off : Nat) (s : State), s.regPresent p off = false → s.regAt p off = none)
  ∧ (∀ (p : Part) (req off v : Nat) (s : State), s.regAt p off = none → off ≠ 0x100 → off ≠ 0x104 → off ≠ 0x108 → ¬ (0x7800 ≤ off ∧ off < 0x8800) → off ≠ 0xA100 →
      s.readWord p req off = (0, s) ∧ (s.mayWrite p req off v = true → s.slateWord p req off v = if v = 0 then s else s.rsvd p))

/-- The gate that every mailbox command passes. The order of the refusals is DEDUCED: log entry 5. -/
def Obligations.MailboxGateAnswers : Prop :=
  (∀ (m : MbGo) (code : Nat) (owner : Option Nat) (sig : List Nat) (jobArg : Option Nat) (body : List Nat → State → MbOut × State) (s : State), s.get m.part (Rg.MB_OWNED m.box) = 1 →
      s.mailbox m code owner sig jobArg body = s.rsvd m.part)
  ∧ (∀ (m : MbGo) (code : Nat) (owner : Option Nat) (sig : List Nat) (jobArg : Option Nat) (body : List Nat → State → MbOut × State) (s : State), m.box < 8 → s.get m.part (Rg.MB_OWNED m.box) = 0 →
        (s.unit m.part).fw.activating ≠ none →
      Answered m 1 (s.mailbox m code owner sig jobArg body) ∧ (s.mailbox m code owner sig jobArg body).get m.part (Rg.MB_DETAIL m.box) = 5 ∧ Only m.part true mbKeys s (s.mailbox m code owner sig jobArg body))
  ∧ (∀ (m : MbGo) (code : Nat) (o : Nat) (sig : List Nat) (jobArg : Option Nat) (body : List Nat → State → MbOut × State) (s : State), m.box < 8 → s.get m.part (Rg.MB_OWNED m.box) = 0 →
        (s.unit m.part).fw.activating = none → (m.part = .sc → s.die.sync.clear = none) → s.roleUp m.part 0 = false ∨ s.roleUp m.part o = false →
      Answered m 1 (s.mailbox m code (some o) sig jobArg body) ∧ (s.mailbox m code (some o) sig jobArg body).get m.part (Rg.MB_DETAIL m.box) = 3
        ∧ Only m.part true mbKeys s (s.mailbox m code (some o) sig jobArg body))
  ∧ (∀ (m : MbGo) (code : Nat) (o : Nat) (sig : List Nat) (body : List Nat → State → MbOut × State) (s : State), m.box < 8 → s.get m.part (Rg.MB_OWNED m.box) = 0 →
        (s.unit m.part).fw.activating = none → (m.part = .sc → s.die.sync.clear = none) → s.roleUp m.part 0 = true → s.roleUp m.part o = true → s.cls m.part m.req ≠ .admin →
      Answered m 2 (s.mailbox m code (some o) sig none body) ∧ (s.mailbox m code (some o) sig none body).get m.part (Rg.MB_DETAIL m.box) = 1
        ∧ (s.mailbox m code (some o) sig none body).get m.part Rg.SLATE_TOKEN_DENIED = 1)
  ∧ (∀ (m : MbGo) (code : Nat) (o : Nat) (sig : List Nat) (jobArg : Option Nat) (body : List Nat → State → MbOut × State) (s : State), m.box < 8 → s.get m.part (Rg.MB_OWNED m.box) = 0 →
        (s.unit m.part).fw.activating = none → (m.part = .sc → s.die.sync.clear = none) → s.roleUp m.part 0 = true → s.roleUp m.part o = true → s.cls m.part m.req = .admin →
        m.args.length < layoutEnd 0 sig →
      Answered m 3 (s.mailbox m code (some o) sig jobArg body) ∧ Only m.part true mbKeys s (s.mailbox m code (some o) sig jobArg body))

/-- The register map, from the spec's register tables, read as a whole. -/
def Obligations.RegisterMapIsUnambiguous : Prop :=
  (∀ (p : Part) (off : Nat), (regRows.filter fun r => r.covers p off).length ≤ 1)
  ∧ (∀ (r : RegRow) (n : Nat), r ∈ regRows → (r.fields n).Pairwise (fun f g => f.lo + f.width ≤ g.lo ∨ g.lo + g.width ≤ f.lo) ∧ ∀ f ∈ r.fields n, 0 < f.width ∧ f.lo + f.width ≤ 32)

/-- Reset values. The values that the model names where the spec gives none are log entries of the model. -/
def Obligations.RegistersAtReset : Prop :=
  ∀ (f : Field), (SMap.find f.key (fdIdent .vxd2880) = none → State.reset.get .fd f = f.reset) ∧ (SMap.find f.key (scIdent 256 128 2 true true true) = none → State.reset.get .sc f = f.reset)

/-- R38, R93, R196, R254, R305, R365, R367 name what is stored in memory; every byte stays under every other command. -/
def Obligations.CommandsThatStoreNothingLeaveMemory : Prop :=
  ∀ (i : Instr) (s t : State), i.mayStore = false → exec i s = .next t → t.hostMem = s.hostMem ∧ t.dieMem = s.dieMem
end

