-- ==== Sys2Proof/Laws/Regs.lean ====
section
/-! SUPPORT. Laws of sparse maps, register files and memories: what a read gives after a write. -/

namespace Sys2Proof.Machine

@[simp] theorem SMap.get_nil {α : Type} (d : α) (k : Nat) : SMap.get d k [] = d := rfl

@[simp] theorem SMap.get_set_same {α : Type} (d : α) (k : Nat) (v : α) (m : SMap α) : SMap.get d k (SMap.set k v m) = v := by
  induction m with
  | nil => simp [SMap.set, SMap.get]
  | cons e t ih =>
    obtain ⟨j, w⟩ := e
    simp only [SMap.set]
    split
    · simp [SMap.get]
    · split
      · simp [SMap.get]
      · simp [SMap.get, *]

theorem SMap.get_set_ne {α : Type} (d : α) {j k : Nat} (h : j ≠ k) (v : α) (m : SMap α) : SMap.get d j (SMap.set k v m) = SMap.get d j m := by
  induction m with
  | nil => simp [SMap.set, SMap.get, h]
  | cons e t ih =>
    obtain ⟨i, w⟩ := e
    simp only [SMap.set]
    split
    · simp [SMap.get, h]
    · split
      · subst_vars; simp [SMap.get, h]
      · simp [SMap.get, ih]

@[simp] theorem SMap.find_set_same {α : Type} (k : Nat) (v : α) (m : SMap α) : SMap.find k (SMap.set k v m) = some v := by
  induction m with
  | nil => simp [SMap.set, SMap.find]
  | cons e t ih =>
    obtain ⟨j, w⟩ := e
    simp only [SMap.set]
    split
    · simp [SMap.find]
    · split
      · simp [SMap.find]
      · simp [SMap.find, *]

@[simp] theorem fieldGet_fieldSet_same (f : Field) (v : Nat) (r : SMap Nat) : fieldGet f (fieldSet f v r) = v % 2 ^ f.width := by
  simp [fieldGet, fieldSet]

theorem fieldGet_fieldSet_ne {f g : Field} (h : f.key ≠ g.key) (v : Nat) (r : SMap Nat) : fieldGet f (fieldSet g v r) = fieldGet f r :=
  SMap.get_set_ne _ h _ _

/-! Memories. -/

theorem Memory.read_write_same (a : Nat) (b : Byte) (m : Memory) (h : Memory.wf m) : Memory.read a (Memory.write a b m) = b := by
  induction m with
  | nil => by_cases hb : b = Memory.unlisted <;> simp [Memory.write, Memory.read, hb]
  | cons c t ih =>
    have ht : Memory.wf t := by cases t <;> simp_all [Memory.wf]
    have hlt : ∀ e ∈ t, c.1 < e.1 := by
      clear ih
      induction t generalizing c with
      | nil => simp
      | cons d u iu =>
        simp only [Memory.wf, Bool.and_eq_true, decide_eq_true_eq] at h
        have hu : Memory.wf u := by cases u <;> simp_all [Memory.wf]
        intro e he
        rcases List.mem_cons.1 he with rfl | he
        · exact h.1.1
        · exact lt_trans h.1.1 (iu d h.2 hu e he)
    have hnone : ∀ (u : Memory) (x : Nat), (∀ e ∈ u, x < e.1) → Memory.read x u = Memory.unlisted := by
      intro u
      induction u with
      | nil => intros; rfl
      | cons e u iu =>
        intro x hx
        have h1 := hx e (by simp)
        rw [Memory.read, if_neg (by omega)]
        exact iu x fun y hy => hx y (by simp [hy])
    rw [Memory.write]
    split
    · split
      · subst_vars
        apply hnone
        intro e he
        rcases List.mem_cons.1 he with rfl | he
        · assumption
        · exact lt_trans ‹_› (hlt e he)
      · simp [Memory.read]
    · split
      · subst_vars
        split
        · subst_vars; exact hnone t _ hlt
        · simp [Memory.read]
      · rw [Memory.read, if_neg (by assumption)]
        exact ih ht

theorem Memory.read_write_ne {a x : Nat} (h : x ≠ a) (b : Byte) (m : Memory) : Memory.read x (Memory.write a b m) = Memory.read x m := by
  induction m with
  | nil => by_cases hb : b = Memory.unlisted <;> simp [Memory.write, Memory.read, hb, h]
  | cons c t ih =>
    rw [Memory.write]
    split
    · split <;> simp [Memory.read, h]
    · split
      · subst_vars; split <;> simp [Memory.read, h]
      · simp [Memory.read, ih]

theorem Memory.wf_cons (c : Host.Cell) (m : Memory) : Memory.wf (c :: m) = true ↔ c.2 ≠ Memory.unlisted ∧ (∀ e ∈ m.head?, c.1 < e.1) ∧ Memory.wf m = true := by
  cases m <;> simp [Memory.wf, and_comm, and_assoc, and_left_comm]

theorem Memory.head_write (a : Nat) (b : Byte) (m : Memory) : ∀ e ∈ (Memory.write a b m).head?, e.1 = a ∨ e ∈ m := by
  cases m with
  | nil => by_cases hb : b = Memory.unlisted <;> simp [Memory.write, hb]
  | cons c t =>
    rw [Memory.write]
    intro e
    split
    · split
      · intro h; exact Or.inr (List.mem_of_mem_head? h)
      · intro h; exact Or.inl (by simp at h; rw [← h])
    · split
      · split
        · intro h; exact Or.inr (List.mem_cons_of_mem _ (List.mem_of_mem_head? h))
        · intro h; exact Or.inl (by simp at h; rw [← h])
      · intro h; exact Or.inr (by simp at h; rw [← h]; simp)

theorem Memory.lt_of_wf {c : Host.Cell} {m : Memory} (h : Memory.wf (c :: m) = true) : ∀ e ∈ m, c.1 < e.1 := by
  induction m generalizing c with
  | nil => simp
  | cons d u ih =>
    have h1 := (Memory.wf_cons c _).1 h
    have hd : c.1 < d.1 := h1.2.1 d (by simp)
    intro e he
    rcases List.mem_cons.1 he with rfl | he
    · exact hd
    · exact lt_trans hd (ih h1.2.2 e he)

/-- A write keeps the canonical form. -/
theorem Memory.wf_write (a : Nat) (b : Byte) (m : Memory) (h : Memory.wf m = true) : Memory.wf (Memory.write a b m) = true := by
  induction m with
  | nil => by_cases hb : b = Memory.unlisted <;> simp [Memory.write, hb, Memory.wf]
  | cons c t ih =>
    have h1 := (Memory.wf_cons c t).1 h
    rw [Memory.write]
    split
    · split
      · exact h
      · rw [Memory.wf_cons]; exact ⟨by assumption, by simp; assumption, h⟩
    · split
      · subst_vars
        split
        · exact h1.2.2
        · rw [Memory.wf_cons]; exact ⟨by assumption, h1.2.1, h1.2.2⟩
      · rw [Memory.wf_cons]
        refine ⟨h1.1, fun e he => ?_, ih h1.2.2⟩
        rcases Memory.head_write a b t e he with rfl | he
        · omega
        · exact Memory.lt_of_wf h e he

/-- Stored bytes keep the canonical form. -/
theorem Memory.wf_writeN (a : Nat) (l : List Byte) (m : Memory) (h : Memory.wf m = true) : Memory.wf (Memory.writeN a l m) = true := by
  induction l generalizing a m with
  | nil => exact h
  | cons b t ih => exact ih _ _ (Memory.wf_write a b m h)

/-- Bytes outside those stored read as before. -/
theorem Memory.read_writeN_ne (a x : Nat) (l : List Byte) (m : Memory) (h : x < a ∨ a + l.length ≤ x) :
    Memory.read x (Memory.writeN a l m) = Memory.read x m := by
  induction l generalizing a m with
  | nil => rfl
  | cons b t ih =>
    simp only [List.length_cons] at h
    rw [Memory.writeN, ih (a + 1) _ (by omega), Memory.read_write_ne (by omega)]

/-- A byte stored reads as stored. -/
theorem Memory.read_writeN (a i : Nat) (l : List Byte) (m : Memory) (hw : Memory.wf m = true) (h : i < l.length) :
    Memory.read (a + i) (Memory.writeN a l m) = l[i] := by
  induction l generalizing a i m with
  | nil => simp at h
  | cons b t ih =>
    rw [Memory.writeN]
    cases i with
    | zero => rw [Nat.add_zero, Memory.read_writeN_ne _ _ _ _ (by omega), Memory.read_write_same _ _ _ hw]; rfl
    | succ i =>
      have := ih (a + 1) i (Memory.write a b m) (Memory.wf_write a b m hw) (by simpa using h)
      rw [show a + (i + 1) = a + 1 + i by omega, this]; rfl

end Sys2Proof.Machine
end

