-- ==== Sys2Proof/Laws/State.lean ====
section
/-! SUPPORT. Laws of the state's updates: what each update leaves of each field, and what a register reads after a register is set. -/

namespace Sys2Proof.Machine

open Sys2Proof

@[simp] theorem State.setUnit_now (p : Part) (u : Common) (s : State) : (s.setUnit p u).now = s.now := by cases p <;> rfl
@[simp] theorem State.setUnit_free (p : Part) (u : Common) (s : State) : (s.setUnit p u).free = s.free := by cases p <;> rfl
@[simp] theorem State.setUnit_dist (p : Part) (u : Common) (s : State) : (s.setUnit p u).dist = s.dist := by cases p <;> rfl
@[simp] theorem State.setUnit_die (p : Part) (u : Common) (s : State) : (s.setUnit p u).die = s.die := by cases p <;> rfl
@[simp] theorem State.setUnit_msix (p : Part) (u : Common) (s : State) : (s.setUnit p u).msix = s.msix := by cases p <;> rfl
@[simp] theorem State.setUnit_dieMem (p : Part) (u : Common) (s : State) : (s.setUnit p u).dieMem = s.dieMem := by cases p <;> rfl
@[simp] theorem State.setUnit_hostMem (p : Part) (u : Common) (s : State) : (s.setUnit p u).hostMem = s.hostMem := by cases p <;> rfl
@[simp] theorem State.setUnit_pending (p : Part) (u : Common) (s : State) : (s.setUnit p u).pending = s.pending := by cases p <;> rfl
@[simp] theorem State.setUnit_fd_sc (u : Common) (s : State) : (s.setUnit .fd u).sc = s.sc := rfl
@[simp] theorem State.setUnit_sc_fd (u : Common) (s : State) : (s.setUnit .sc u).fd = s.fd := rfl
@[simp] theorem State.setUnit_fd_fd (u : Common) (s : State) : (s.setUnit .fd u).fd = u := rfl
@[simp] theorem State.setUnit_sc_sc (u : Common) (s : State) : (s.setUnit .sc u).sc = u := rfl
@[simp] theorem State.unit_setUnit (p : Part) (u : Common) (s : State) : (s.setUnit p u).unit p = u := by cases p <;> rfl
@[simp] theorem State.unit_fd (s : State) : s.unit .fd = s.fd := rfl
@[simp] theorem State.unit_sc (s : State) : s.unit .sc = s.sc := rfl
theorem State.unit_setUnit_ne {p q : Part} (h : p ≠ q) (u : Common) (s : State) : (s.setUnit q u).unit p = s.unit p := by
  cases p <;> cases q <;> first | rfl | exact absurd rfl h
@[simp] theorem State.setUnit_setUnit (p : Part) (u v : Common) (s : State) : (s.setUnit p u).setUnit p v = s.setUnit p v := by cases p <;> rfl

@[simp] theorem State.unit_put_clock (p q : Part) (g : Field) (v : Nat) (s : State) : ((s.put q g v).unit p).clock = (s.unit p).clock := by cases p <;> cases q <;> rfl
@[simp] theorem State.unit_put_slate (p q : Part) (g : Field) (v : Nat) (s : State) : ((s.put q g v).unit p).slate = (s.unit p).slate := by cases p <;> cases q <;> rfl
@[simp] theorem State.unit_put_fw (p q : Part) (g : Field) (v : Nat) (s : State) : ((s.put q g v).unit p).fw = (s.unit p).fw := by cases p <;> cases q <;> rfl
@[simp] theorem State.unit_put_start (p q : Part) (g : Field) (v : Nat) (s : State) : ((s.put q g v).unit p).start = (s.unit p).start := by cases p <;> cases q <;> rfl
@[simp] theorem State.unit_put_links (p q : Part) (g : Field) (v : Nat) (s : State) : ((s.put q g v).unit p).links = (s.unit p).links := by cases p <;> cases q <;> rfl
@[simp] theorem State.unit_put_faults (p q : Part) (g : Field) (v : Nat) (s : State) : ((s.put q g v).unit p).faults = (s.unit p).faults := by cases p <;> cases q <;> rfl
@[simp] theorem State.unit_put_emerg (p q : Part) (g : Field) (v : Nat) (s : State) : ((s.put q g v).unit p).emerg = (s.unit p).emerg := by cases p <;> cases q <;> rfl
@[simp] theorem State.unit_put_inbox (p q : Part) (g : Field) (v : Nat) (s : State) : ((s.put q g v).unit p).inbox = (s.unit p).inbox := by cases p <;> cases q <;> rfl
@[simp] theorem State.unit_put_tt (p q : Part) (g : Field) (v : Nat) (s : State) : ((s.put q g v).unit p).tt = (s.unit p).tt := by cases p <;> cases q <;> rfl
@[simp] theorem State.unit_put_tests (p q : Part) (g : Field) (v : Nat) (s : State) : ((s.put q g v).unit p).tests = (s.unit p).tests := by cases p <;> cases q <;> rfl
@[simp] theorem State.unit_put_timing (p q : Part) (g : Field) (v : Nat) (s : State) : ((s.put q g v).unit p).timing = (s.unit p).timing := by cases p <;> cases q <;> rfl
@[simp] theorem State.unit_put_lastDone (p q : Part) (g : Field) (v : Nat) (s : State) : ((s.put q g v).unit p).lastDone = (s.unit p).lastDone := by cases p <;> cases q <;> rfl
@[simp] theorem State.unit_put_tested (p q : Part) (g : Field) (v : Nat) (s : State) : ((s.put q g v).unit p).tested = (s.unit p).tested := by cases p <;> cases q <;> rfl
@[simp] theorem State.put_now (p : Part) (g : Field) (v : Nat) (s : State) : (s.put p g v).now = s.now := by cases p <;> rfl
@[simp] theorem State.put_free (p : Part) (g : Field) (v : Nat) (s : State) : (s.put p g v).free = s.free := by cases p <;> rfl
@[simp] theorem State.put_dist (p : Part) (g : Field) (v : Nat) (s : State) : (s.put p g v).dist = s.dist := by cases p <;> rfl
@[simp] theorem State.put_die (p : Part) (g : Field) (v : Nat) (s : State) : (s.put p g v).die = s.die := by cases p <;> rfl
@[simp] theorem State.put_msix (p : Part) (g : Field) (v : Nat) (s : State) : (s.put p g v).msix = s.msix := by cases p <;> rfl
@[simp] theorem State.put_dieMem (p : Part) (g : Field) (v : Nat) (s : State) : (s.put p g v).dieMem = s.dieMem := by cases p <;> rfl
@[simp] theorem State.put_hostMem (p : Part) (g : Field) (v : Nat) (s : State) : (s.put p g v).hostMem = s.hostMem := by cases p <;> rfl
@[simp] theorem State.put_pending (p : Part) (g : Field) (v : Nat) (s : State) : (s.put p g v).pending = s.pending := by cases p <;> rfl
@[simp] theorem State.setLink_regs (p q : Part) (n : Nat) (x : Link) (s : State) : ((s.setLink q n x).unit p).regs = (s.unit p).regs := by cases p <;> cases q <;> rfl
@[simp] theorem State.setLink_clock (p q : Part) (n : Nat) (x : Link) (s : State) : ((s.setLink q n x).unit p).clock = (s.unit p).clock := by cases p <;> cases q <;> rfl
@[simp] theorem State.setLink_slate (p q : Part) (n : Nat) (x : Link) (s : State) : ((s.setLink q n x).unit p).slate = (s.unit p).slate := by cases p <;> cases q <;> rfl
@[simp] theorem State.setLink_fw (p q : Part) (n : Nat) (x : Link) (s : State) : ((s.setLink q n x).unit p).fw = (s.unit p).fw := by cases p <;> cases q <;> rfl
@[simp] theorem State.setLink_start (p q : Part) (n : Nat) (x : Link) (s : State) : ((s.setLink q n x).unit p).start = (s.unit p).start := by cases p <;> cases q <;> rfl
@[simp] theorem State.setLink_faults (p q : Part) (n : Nat) (x : Link) (s : State) : ((s.setLink q n x).unit p).faults = (s.unit p).faults := by cases p <;> cases q <;> rfl
@[simp] theorem State.setLink_emerg (p q : Part) (n : Nat) (x : Link) (s : State) : ((s.setLink q n x).unit p).emerg = (s.unit p).emerg := by cases p <;> cases q <;> rfl
@[simp] theorem State.setLink_inbox (p q : Part) (n : Nat) (x : Link) (s : State) : ((s.setLink q n x).unit p).inbox = (s.unit p).inbox := by cases p <;> cases q <;> rfl
@[simp] theorem State.setLink_tt (p q : Part) (n : Nat) (x : Link) (s : State) : ((s.setLink q n x).unit p).tt = (s.unit p).tt := by cases p <;> cases q <;> rfl
@[simp] theorem State.setLink_tests (p q : Part) (n : Nat) (x : Link) (s : State) : ((s.setLink q n x).unit p).tests = (s.unit p).tests := by cases p <;> cases q <;> rfl
@[simp] theorem State.setLink_timing (p q : Part) (n : Nat) (x : Link) (s : State) : ((s.setLink q n x).unit p).timing = (s.unit p).timing := by cases p <;> cases q <;> rfl
@[simp] theorem State.setLink_lastDone (p q : Part) (n : Nat) (x : Link) (s : State) : ((s.setLink q n x).unit p).lastDone = (s.unit p).lastDone := by cases p <;> cases q <;> rfl
@[simp] theorem State.setLink_tested (p q : Part) (n : Nat) (x : Link) (s : State) : ((s.setLink q n x).unit p).tested = (s.unit p).tested := by cases p <;> cases q <;> rfl
@[simp] theorem State.now_setLink (p : Part) (n : Nat) (x : Link) (s : State) : (s.setLink p n x).now = s.now := by cases p <;> rfl
@[simp] theorem State.free_setLink (p : Part) (n : Nat) (x : Link) (s : State) : (s.setLink p n x).free = s.free := by cases p <;> rfl
@[simp] theorem State.dist_setLink (p : Part) (n : Nat) (x : Link) (s : State) : (s.setLink p n x).dist = s.dist := by cases p <;> rfl
@[simp] theorem State.die_setLink (p : Part) (n : Nat) (x : Link) (s : State) : (s.setLink p n x).die = s.die := by cases p <;> rfl
@[simp] theorem State.msix_setLink (p : Part) (n : Nat) (x : Link) (s : State) : (s.setLink p n x).msix = s.msix := by cases p <;> rfl
@[simp] theorem State.dieMem_setLink (p : Part) (n : Nat) (x : Link) (s : State) : (s.setLink p n x).dieMem = s.dieMem := by cases p <;> rfl
@[simp] theorem State.hostMem_setLink (p : Part) (n : Nat) (x : Link) (s : State) : (s.setLink p n x).hostMem = s.hostMem := by cases p <;> rfl
@[simp] theorem State.pending_setLink (p : Part) (n : Nat) (x : Link) (s : State) : (s.setLink p n x).pending = s.pending := by cases p <;> rfl
@[simp] theorem State.setFw_regs (p q : Part) (x : FwSt) (s : State) : ((s.setFw q x).unit p).regs = (s.unit p).regs := by cases p <;> cases q <;> rfl
@[simp] theorem State.setFw_clock (p q : Part) (x : FwSt) (s : State) : ((s.setFw q x).unit p).clock = (s.unit p).clock := by cases p <;> cases q <;> rfl
@[simp] theorem State.setFw_slate (p q : Part) (x : FwSt) (s : State) : ((s.setFw q x).unit p).slate = (s.unit p).slate := by cases p <;> cases q <;> rfl
@[simp] theorem State.setFw_start (p q : Part) (x : FwSt) (s : State) : ((s.setFw q x).unit p).start = (s.unit p).start := by cases p <;> cases q <;> rfl
@[simp] theorem State.setFw_links (p q : Part) (x : FwSt) (s : State) : ((s.setFw q x).unit p).links = (s.unit p).links := by cases p <;> cases q <;> rfl
@[simp] theorem State.setFw_faults (p q : Part) (x : FwSt) (s : State) : ((s.setFw q x).unit p).faults = (s.unit p).faults := by cases p <;> cases q <;> rfl
@[simp] theorem State.setFw_emerg (p q : Part) (x : FwSt) (s : State) : ((s.setFw q x).unit p).emerg = (s.unit p).emerg := by cases p <;> cases q <;> rfl
@[simp] theorem State.setFw_inbox (p q : Part) (x : FwSt) (s : State) : ((s.setFw q x).unit p).inbox = (s.unit p).inbox := by cases p <;> cases q <;> rfl
@[simp] theorem State.setFw_tt (p q : Part) (x : FwSt) (s : State) : ((s.setFw q x).unit p).tt = (s.unit p).tt := by cases p <;> cases q <;> rfl
@[simp] theorem State.setFw_tests (p q : Part) (x : FwSt) (s : State) : ((s.setFw q x).unit p).tests = (s.unit p).tests := by cases p <;> cases q <;> rfl
@[simp] theorem State.setFw_timing (p q : Part) (x : FwSt) (s : State) : ((s.setFw q x).unit p).timing = (s.unit p).timing := by cases p <;> cases q <;> rfl
@[simp] theorem State.setFw_lastDone (p q : Part) (x : FwSt) (s : State) : ((s.setFw q x).unit p).lastDone = (s.unit p).lastDone := by cases p <;> cases q <;> rfl
@[simp] theorem State.setFw_tested (p q : Part) (x : FwSt) (s : State) : ((s.setFw q x).unit p).tested = (s.unit p).tested := by cases p <;> cases q <;> rfl
@[simp] theorem State.now_setFw (p : Part) (x : FwSt) (s : State) : (s.setFw p x).now = s.now := by cases p <;> rfl
@[simp] theorem State.free_setFw (p : Part) (x : FwSt) (s : State) : (s.setFw p x).free = s.free := by cases p <;> rfl
@[simp] theorem State.dist_setFw (p : Part) (x : FwSt) (s : State) : (s.setFw p x).dist = s.dist := by cases p <;> rfl
@[simp] theorem State.die_setFw (p : Part) (x : FwSt) (s : State) : (s.setFw p x).die = s.die := by cases p <;> rfl
@[simp] theorem State.msix_setFw (p : Part) (x : FwSt) (s : State) : (s.setFw p x).msix = s.msix := by cases p <;> rfl
@[simp] theorem State.dieMem_setFw (p : Part) (x : FwSt) (s : State) : (s.setFw p x).dieMem = s.dieMem := by cases p <;> rfl
@[simp] theorem State.hostMem_setFw (p : Part) (x : FwSt) (s : State) : (s.setFw p x).hostMem = s.hostMem := by cases p <;> rfl
@[simp] theorem State.pending_setFw (p : Part) (x : FwSt) (s : State) : (s.setFw p x).pending = s.pending := by cases p <;> rfl
@[simp] theorem State.setStart_regs (p q : Part) (x : StartSt) (s : State) : ((s.setStart q x).unit p).regs = (s.unit p).regs := by cases p <;> cases q <;> rfl
@[simp] theorem State.setStart_clock (p q : Part) (x : StartSt) (s : State) : ((s.setStart q x).unit p).clock = (s.unit p).clock := by cases p <;> cases q <;> rfl
@[simp] theorem State.setStart_slate (p q : Part) (x : StartSt) (s : State) : ((s.setStart q x).unit p).slate = (s.unit p).slate := by cases p <;> cases q <;> rfl
@[simp] theorem State.setStart_fw (p q : Part) (x : StartSt) (s : State) : ((s.setStart q x).unit p).fw = (s.unit p).fw := by cases p <;> cases q <;> rfl
@[simp] theorem State.setStart_links (p q : Part) (x : StartSt) (s : State) : ((s.setStart q x).unit p).links = (s.unit p).links := by cases p <;> cases q <;> rfl
@[simp] theorem State.setStart_faults (p q : Part) (x : StartSt) (s : State) : ((s.setStart q x).unit p).faults = (s.unit p).faults := by cases p <;> cases q <;> rfl
@[simp] theorem State.setStart_emerg (p q : Part) (x : StartSt) (s : State) : ((s.setStart q x).unit p).emerg = (s.unit p).emerg := by cases p <;> cases q <;> rfl
@[simp] theorem State.setStart_inbox (p q : Part) (x : StartSt) (s : State) : ((s.setStart q x).unit p).inbox = (s.unit p).inbox := by cases p <;> cases q <;> rfl
@[simp] theorem State.setStart_tt (p q : Part) (x : StartSt) (s : State) : ((s.setStart q x).unit p).tt = (s.unit p).tt := by cases p <;> cases q <;> rfl
@[simp] theorem State.setStart_tests (p q : Part) (x : StartSt) (s : State) : ((s.setStart q x).unit p).tests = (s.unit p).tests := by cases p <;> cases q <;> rfl
@[simp] theorem State.setStart_timing (p q : Part) (x : StartSt) (s : State) : ((s.setStart q x).unit p).timing = (s.unit p).timing := by cases p <;> cases q <;> rfl
@[simp] theorem State.setStart_lastDone (p q : Part) (x : StartSt) (s : State) : ((s.setStart q x).unit p).lastDone = (s.unit p).lastDone := by cases p <;> cases q <;> rfl
@[simp] theorem State.setStart_tested (p q : Part) (x : StartSt) (s : State) : ((s.setStart q x).unit p).tested = (s.unit p).tested := by cases p <;> cases q <;> rfl
@[simp] theorem State.now_setStart (p : Part) (x : StartSt) (s : State) : (s.setStart p x).now = s.now := by cases p <;> rfl
@[simp] theorem State.free_setStart (p : Part) (x : StartSt) (s : State) : (s.setStart p x).free = s.free := by cases p <;> rfl
@[simp] theorem State.dist_setStart (p : Part) (x : StartSt) (s : State) : (s.setStart p x).dist = s.dist := by cases p <;> rfl
@[simp] theorem State.die_setStart (p : Part) (x : StartSt) (s : State) : (s.setStart p x).die = s.die := by cases p <;> rfl
@[simp] theorem State.msix_setStart (p : Part) (x : StartSt) (s : State) : (s.setStart p x).msix = s.msix := by cases p <;> rfl
@[simp] theorem State.dieMem_setStart (p : Part) (x : StartSt) (s : State) : (s.setStart p x).dieMem = s.dieMem := by cases p <;> rfl
@[simp] theorem State.hostMem_setStart (p : Part) (x : StartSt) (s : State) : (s.setStart p x).hostMem = s.hostMem := by cases p <;> rfl
@[simp] theorem State.pending_setStart (p : Part) (x : StartSt) (s : State) : (s.setStart p x).pending = s.pending := by cases p <;> rfl
@[simp] theorem State.setSlate_regs (p q : Part) (x : SlateSt) (s : State) : ((s.setSlate q x).unit p).regs = (s.unit p).regs := by cases p <;> cases q <;> rfl
@[simp] theorem State.setSlate_clock (p q : Part) (x : SlateSt) (s : State) : ((s.setSlate q x).unit p).clock = (s.unit p).clock := by cases p <;> cases q <;> rfl
@[simp] theorem State.setSlate_fw (p q : Part) (x : SlateSt) (s : State) : ((s.setSlate q x).unit p).fw = (s.unit p).fw := by cases p <;> cases q <;> rfl
@[simp] theorem State.setSlate_start (p q : Part) (x : SlateSt) (s : State) : ((s.setSlate q x).unit p).start = (s.unit p).start := by cases p <;> cases q <;> rfl
@[simp] theorem State.setSlate_links (p q : Part) (x : SlateSt) (s : State) : ((s.setSlate q x).unit p).links = (s.unit p).links := by cases p <;> cases q <;> rfl
@[simp] theorem State.setSlate_faults (p q : Part) (x : SlateSt) (s : State) : ((s.setSlate q x).unit p).faults = (s.unit p).faults := by cases p <;> cases q <;> rfl
@[simp] theorem State.setSlate_emerg (p q : Part) (x : SlateSt) (s : State) : ((s.setSlate q x).unit p).emerg = (s.unit p).emerg := by cases p <;> cases q <;> rfl
@[simp] theorem State.setSlate_inbox (p q : Part) (x : SlateSt) (s : State) : ((s.setSlate q x).unit p).inbox = (s.unit p).inbox := by cases p <;> cases q <;> rfl
@[simp] theorem State.setSlate_tt (p q : Part) (x : SlateSt) (s : State) : ((s.setSlate q x).unit p).tt = (s.unit p).tt := by cases p <;> cases q <;> rfl
@[simp] theorem State.setSlate_tests (p q : Part) (x : SlateSt) (s : State) : ((s.setSlate q x).unit p).tests = (s.unit p).tests := by cases p <;> cases q <;> rfl
@[simp] theorem State.setSlate_timing (p q : Part) (x : SlateSt) (s : State) : ((s.setSlate q x).unit p).timing = (s.unit p).timing := by cases p <;> cases q <;> rfl
@[simp] theorem State.setSlate_lastDone (p q : Part) (x : SlateSt) (s : State) : ((s.setSlate q x).unit p).lastDone = (s.unit p).lastDone := by cases p <;> cases q <;> rfl
@[simp] theorem State.setSlate_tested (p q : Part) (x : SlateSt) (s : State) : ((s.setSlate q x).unit p).tested = (s.unit p).tested := by cases p <;> cases q <;> rfl
@[simp] theorem State.now_setSlate (p : Part) (x : SlateSt) (s : State) : (s.setSlate p x).now = s.now := by cases p <;> rfl
@[simp] theorem State.free_setSlate (p : Part) (x : SlateSt) (s : State) : (s.setSlate p x).free = s.free := by cases p <;> rfl
@[simp] theorem State.dist_setSlate (p : Part) (x : SlateSt) (s : State) : (s.setSlate p x).dist = s.dist := by cases p <;> rfl
@[simp] theorem State.die_setSlate (p : Part) (x : SlateSt) (s : State) : (s.setSlate p x).die = s.die := by cases p <;> rfl
@[simp] theorem State.msix_setSlate (p : Part) (x : SlateSt) (s : State) : (s.setSlate p x).msix = s.msix := by cases p <;> rfl
@[simp] theorem State.dieMem_setSlate (p : Part) (x : SlateSt) (s : State) : (s.setSlate p x).dieMem = s.dieMem := by cases p <;> rfl
@[simp] theorem State.hostMem_setSlate (p : Part) (x : SlateSt) (s : State) : (s.setSlate p x).hostMem = s.hostMem := by cases p <;> rfl
@[simp] theorem State.pending_setSlate (p : Part) (x : SlateSt) (s : State) : (s.setSlate p x).pending = s.pending := by cases p <;> rfl
@[simp] theorem State.setFw_self (p : Part) (x : FwSt) (s : State) : ((s.setFw p x).unit p).fw = x := by cases p <;> rfl
@[simp] theorem State.setStart_self (p : Part) (x : StartSt) (s : State) : ((s.setStart p x).unit p).start = x := by cases p <;> rfl
@[simp] theorem State.setSlate_self (p : Part) (x : SlateSt) (s : State) : ((s.setSlate p x).unit p).slate = x := by cases p <;> rfl
@[simp] theorem State.setHall_variant (x : HallSt) (s : State) : (s.setHall x).dist.variant = s.dist.variant := rfl
@[simp] theorem State.setHall_refA (x : HallSt) (s : State) : (s.setHall x).dist.refA = s.dist.refA := rfl
@[simp] theorem State.setHall_refB (x : HallSt) (s : State) : (s.setHall x).dist.refB = s.dist.refB := rfl
@[simp] theorem State.setHall_hold (x : HallSt) (s : State) : (s.setHall x).dist.hold = s.dist.hold := rfl
@[simp] theorem State.setHall_ptp (x : HallSt) (s : State) : (s.setHall x).dist.ptp = s.dist.ptp := rfl
@[simp] theorem State.setHall_outs (x : HallSt) (s : State) : (s.setHall x).dist.outs = s.dist.outs := rfl
@[simp] theorem State.setHall_tdc (x : HallSt) (s : State) : (s.setHall x).dist.tdc = s.dist.tdc := rfl
@[simp] theorem State.setHall_tdcTurn (x : HallSt) (s : State) : (s.setHall x).dist.tdcTurn = s.dist.tdcTurn := rfl
@[simp] theorem State.setHall_mains (x : HallSt) (s : State) : (s.setHall x).dist.mains = s.dist.mains := rfl
@[simp] theorem State.setHall_hall (x : HallSt) (s : State) : (s.setHall x).dist.hall = x := rfl
@[simp] theorem State.setHall_sb (x : HallSt) (s : State) : (s.setHall x).dist.sb = s.dist.sb := rfl
@[simp] theorem State.setHall_arch (x : HallSt) (s : State) : (s.setHall x).dist.arch = s.dist.arch := rfl
@[simp] theorem State.setHall_spare (x : HallSt) (s : State) : (s.setHall x).dist.spare = s.dist.spare := rfl
@[simp] theorem State.setHall_power (x : HallSt) (s : State) : (s.setHall x).dist.power = s.dist.power := rfl
@[simp] theorem State.setHall_mirrorTt (x : HallSt) (s : State) : (s.setHall x).dist.mirrorTt = s.dist.mirrorTt := rfl
@[simp] theorem State.now_setHall (x : HallSt) (s : State) : (s.setHall x).now = s.now := rfl
@[simp] theorem State.free_setHall (x : HallSt) (s : State) : (s.setHall x).free = s.free := rfl
@[simp] theorem State.fd_setHall (x : HallSt) (s : State) : (s.setHall x).fd = s.fd := rfl
@[simp] theorem State.sc_setHall (x : HallSt) (s : State) : (s.setHall x).sc = s.sc := rfl
@[simp] theorem State.die_setHall (x : HallSt) (s : State) : (s.setHall x).die = s.die := rfl
@[simp] theorem State.msix_setHall (x : HallSt) (s : State) : (s.setHall x).msix = s.msix := rfl
@[simp] theorem State.dieMem_setHall (x : HallSt) (s : State) : (s.setHall x).dieMem = s.dieMem := rfl
@[simp] theorem State.hostMem_setHall (x : HallSt) (s : State) : (s.setHall x).hostMem = s.hostMem := rfl
@[simp] theorem State.pending_setHall (x : HallSt) (s : State) : (s.setHall x).pending = s.pending := rfl
@[simp] theorem State.get_setHall (p : Part) (f : Field) (x : HallSt) (s : State) : (s.setHall x).get p f = s.get p f := by cases p <;> rfl
@[simp] theorem State.setArch_variant (x : Archive) (s : State) : (s.setArch x).dist.variant = s.dist.variant := rfl
@[simp] theorem State.setArch_refA (x : Archive) (s : State) : (s.setArch x).dist.refA = s.dist.refA := rfl
@[simp] theorem State.setArch_refB (x : Archive) (s : State) : (s.setArch x).dist.refB = s.dist.refB := rfl
@[simp] theorem State.setArch_hold (x : Archive) (s : State) : (s.setArch x).dist.hold = s.dist.hold := rfl
@[simp] theorem State.setArch_ptp (x : Archive) (s : State) : (s.setArch x).dist.ptp = s.dist.ptp := rfl
@[simp] theorem State.setArch_outs (x : Archive) (s : State) : (s.setArch x).dist.outs = s.dist.outs := rfl
@[simp] theorem State.setArch_tdc (x : Archive) (s : State) : (s.setArch x).dist.tdc = s.dist.tdc := rfl
@[simp] theorem State.setArch_tdcTurn (x : Archive) (s : State) : (s.setArch x).dist.tdcTurn = s.dist.tdcTurn := rfl
@[simp] theorem State.setArch_mains (x : Archive) (s : State) : (s.setArch x).dist.mains = s.dist.mains := rfl
@[simp] theorem State.setArch_hall (x : Archive) (s : State) : (s.setArch x).dist.hall = s.dist.hall := rfl
@[simp] theorem State.setArch_sb (x : Archive) (s : State) : (s.setArch x).dist.sb = s.dist.sb := rfl
@[simp] theorem State.setArch_arch (x : Archive) (s : State) : (s.setArch x).dist.arch = x := rfl
@[simp] theorem State.setArch_spare (x : Archive) (s : State) : (s.setArch x).dist.spare = s.dist.spare := rfl
@[simp] theorem State.setArch_power (x : Archive) (s : State) : (s.setArch x).dist.power = s.dist.power := rfl
@[simp] theorem State.setArch_mirrorTt (x : Archive) (s : State) : (s.setArch x).dist.mirrorTt = s.dist.mirrorTt := rfl
@[simp] theorem State.now_setArch (x : Archive) (s : State) : (s.setArch x).now = s.now := rfl
@[simp] theorem State.free_setArch (x : Archive) (s : State) : (s.setArch x).free = s.free := rfl
@[simp] theorem State.fd_setArch (x : Archive) (s : State) : (s.setArch x).fd = s.fd := rfl
@[simp] theorem State.sc_setArch (x : Archive) (s : State) : (s.setArch x).sc = s.sc := rfl
@[simp] theorem State.die_setArch (x : Archive) (s : State) : (s.setArch x).die = s.die := rfl
@[simp] theorem State.msix_setArch (x : Archive) (s : State) : (s.setArch x).msix = s.msix := rfl
@[simp] theorem State.dieMem_setArch (x : Archive) (s : State) : (s.setArch x).dieMem = s.dieMem := rfl
@[simp] theorem State.hostMem_setArch (x : Archive) (s : State) : (s.setArch x).hostMem = s.hostMem := rfl
@[simp] theorem State.pending_setArch (x : Archive) (s : State) : (s.setArch x).pending = s.pending := rfl
@[simp] theorem State.get_setArch (p : Part) (f : Field) (x : Archive) (s : State) : (s.setArch x).get p f = s.get p f := by cases p <;> rfl
@[simp] theorem State.setSpare_variant (x : SpareSt) (s : State) : (s.setSpare x).dist.variant = s.dist.variant := rfl
@[simp] theorem State.setSpare_refA (x : SpareSt) (s : State) : (s.setSpare x).dist.refA = s.dist.refA := rfl
@[simp] theorem State.setSpare_refB (x : SpareSt) (s : State) : (s.setSpare x).dist.refB = s.dist.refB := rfl
@[simp] theorem State.setSpare_hold (x : SpareSt) (s : State) : (s.setSpare x).dist.hold = s.dist.hold := rfl
@[simp] theorem State.setSpare_ptp (x : SpareSt) (s : State) : (s.setSpare x).dist.ptp = s.dist.ptp := rfl
@[simp] theorem State.setSpare_outs (x : SpareSt) (s : State) : (s.setSpare x).dist.outs = s.dist.outs := rfl
@[simp] theorem State.setSpare_tdc (x : SpareSt) (s : State) : (s.setSpare x).dist.tdc = s.dist.tdc := rfl
@[simp] theorem State.setSpare_tdcTurn (x : SpareSt) (s : State) : (s.setSpare x).dist.tdcTurn = s.dist.tdcTurn := rfl
@[simp] theorem State.setSpare_mains (x : SpareSt) (s : State) : (s.setSpare x).dist.mains = s.dist.mains := rfl
@[simp] theorem State.setSpare_hall (x : SpareSt) (s : State) : (s.setSpare x).dist.hall = s.dist.hall := rfl
@[simp] theorem State.setSpare_sb (x : SpareSt) (s : State) : (s.setSpare x).dist.sb = s.dist.sb := rfl
@[simp] theorem State.setSpare_arch (x : SpareSt) (s : State) : (s.setSpare x).dist.arch = s.dist.arch := rfl
@[simp] theorem State.setSpare_spare (x : SpareSt) (s : State) : (s.setSpare x).dist.spare = x := rfl
@[simp] theorem State.setSpare_power (x : SpareSt) (s : State) : (s.setSpare x).dist.power = s.dist.power := rfl
@[simp] theorem State.setSpare_mirrorTt (x : SpareSt) (s : State) : (s.setSpare x).dist.mirrorTt = s.dist.mirrorTt := rfl
@[simp] theorem State.now_setSpare (x : SpareSt) (s : State) : (s.setSpare x).now = s.now := rfl
@[simp] theorem State.free_setSpare (x : SpareSt) (s : State) : (s.setSpare x).free = s.free := rfl
@[simp] theorem State.fd_setSpare (x : SpareSt) (s : State) : (s.setSpare x).fd = s.fd := rfl
@[simp] theorem State.sc_setSpare (x : SpareSt) (s : State) : (s.setSpare x).sc = s.sc := rfl
@[simp] theorem State.die_setSpare (x : SpareSt) (s : State) : (s.setSpare x).die = s.die := rfl
@[simp] theorem State.msix_setSpare (x : SpareSt) (s : State) : (s.setSpare x).msix = s.msix := rfl
@[simp] theorem State.dieMem_setSpare (x : SpareSt) (s : State) : (s.setSpare x).dieMem = s.dieMem := rfl
@[simp] theorem State.hostMem_setSpare (x : SpareSt) (s : State) : (s.setSpare x).hostMem = s.hostMem := rfl
@[simp] theorem State.pending_setSpare (x : SpareSt) (s : State) : (s.setSpare x).pending = s.pending := rfl
@[simp] theorem State.get_setSpare (p : Part) (f : Field) (x : SpareSt) (s : State) : (s.setSpare x).get p f = s.get p f := by cases p <;> rfl
@[simp] theorem State.setSb_variant (x : StudBook) (s : State) : (s.setSb x).dist.variant = s.dist.variant := rfl
@[simp] theorem State.setSb_refA (x : StudBook) (s : State) : (s.setSb x).dist.refA = s.dist.refA := rfl
@[simp] theorem State.setSb_refB (x : StudBook) (s : State) : (s.setSb x).dist.refB = s.dist.refB := rfl
@[simp] theorem State.setSb_hold (x : StudBook) (s : State) : (s.setSb x).dist.hold = s.dist.hold := rfl
@[simp] theorem State.setSb_ptp (x : StudBook) (s : State) : (s.setSb x).dist.ptp = s.dist.ptp := rfl
@[simp] theorem State.setSb_outs (x : StudBook) (s : State) : (s.setSb x).dist.outs = s.dist.outs := rfl
@[simp] theorem State.setSb_tdc (x : StudBook) (s : State) : (s.setSb x).dist.tdc = s.dist.tdc := rfl
@[simp] theorem State.setSb_tdcTurn (x : StudBook) (s : State) : (s.setSb x).dist.tdcTurn = s.dist.tdcTurn := rfl
@[simp] theorem State.setSb_mains (x : StudBook) (s : State) : (s.setSb x).dist.mains = s.dist.mains := rfl
@[simp] theorem State.setSb_hall (x : StudBook) (s : State) : (s.setSb x).dist.hall = s.dist.hall := rfl
@[simp] theorem State.setSb_sb (x : StudBook) (s : State) : (s.setSb x).dist.sb = x := rfl
@[simp] theorem State.setSb_arch (x : StudBook) (s : State) : (s.setSb x).dist.arch = s.dist.arch := rfl
@[simp] theorem State.setSb_spare (x : StudBook) (s : State) : (s.setSb x).dist.spare = s.dist.spare := rfl
@[simp] theorem State.setSb_power (x : StudBook) (s : State) : (s.setSb x).dist.power = s.dist.power := rfl
@[simp] theorem State.setSb_mirrorTt (x : StudBook) (s : State) : (s.setSb x).dist.mirrorTt = s.dist.mirrorTt := rfl
@[simp] theorem State.now_setSb (x : StudBook) (s : State) : (s.setSb x).now = s.now := rfl
@[simp] theorem State.free_setSb (x : StudBook) (s : State) : (s.setSb x).free = s.free := rfl
@[simp] theorem State.fd_setSb (x : StudBook) (s : State) : (s.setSb x).fd = s.fd := rfl
@[simp] theorem State.sc_setSb (x : StudBook) (s : State) : (s.setSb x).sc = s.sc := rfl
@[simp] theorem State.die_setSb (x : StudBook) (s : State) : (s.setSb x).die = s.die := rfl
@[simp] theorem State.msix_setSb (x : StudBook) (s : State) : (s.setSb x).msix = s.msix := rfl
@[simp] theorem State.dieMem_setSb (x : StudBook) (s : State) : (s.setSb x).dieMem = s.dieMem := rfl
@[simp] theorem State.hostMem_setSb (x : StudBook) (s : State) : (s.setSb x).hostMem = s.hostMem := rfl
@[simp] theorem State.pending_setSb (x : StudBook) (s : State) : (s.setSb x).pending = s.pending := rfl
@[simp] theorem State.get_setSb (p : Part) (f : Field) (x : StudBook) (s : State) : (s.setSb x).get p f = s.get p f := by cases p <;> rfl
@[simp] theorem State.get_setLink (p q : Part) (f : Field) (n : Nat) (x : Link) (s : State) : (s.setLink q n x).get p f = s.get p f := by cases p <;> cases q <;> rfl
@[simp] theorem State.get_setFw (p q : Part) (f : Field) (x : FwSt) (s : State) : (s.setFw q x).get p f = s.get p f := by cases p <;> cases q <;> rfl
@[simp] theorem State.get_setStart (p q : Part) (f : Field) (x : StartSt) (s : State) : (s.setStart q x).get p f = s.get p f := by cases p <;> cases q <;> rfl
@[simp] theorem State.get_setSlate (p q : Part) (f : Field) (x : SlateSt) (s : State) : (s.setSlate q x).get p f = s.get p f := by cases p <;> cases q <;> rfl

/-! Registers. -/

@[simp] theorem State.get_put_same (p : Part) (f : Field) (v : Nat) (s : State) : (s.put p f v).get p f = v % 2 ^ f.width := by
  cases p <;> simp [State.get, State.put]

/-- Setting one field leaves every field under another key. -/
theorem State.get_put_ne (p : Part) {f g : Field} (h : f.key ≠ g.key) (v : Nat) (s : State) : (s.put p g v).get p f = s.get p f := by
  cases p <;> simp [State.get, State.put, fieldGet_fieldSet_ne h]

/-- Setting a register of one part leaves the other part's. -/
theorem State.get_put_part {p q : Part} (h : p ≠ q) (f g : Field) (v : Nat) (s : State) : (s.put q g v).get p f = s.get p f := by
  cases p <;> cases q <;> first | rfl | exact absurd rfl h

@[simp] theorem State.get_put_fd_sc (f g : Field) (v : Nat) (s : State) : (s.put .sc g v).get .fd f = s.get .fd f := rfl
@[simp] theorem State.get_put_sc_fd (f g : Field) (v : Nat) (s : State) : (s.put .fd g v).get .sc f = s.get .sc f := rfl

@[simp] theorem State.get_signal (p : Part) (f : Field) (v : Nat) (s : State) : (s.signal v).get p f = s.get p f := by
  unfold State.signal; split <;> cases p <;> rfl

@[simp] theorem State.get_signalRise (p : Part) (f : Field) (v : Nat) (b s : State) : (s.signalRise v b).get p f = s.get p f := by
  unfold State.signalRise; split <;> simp

theorem State.get_raise_ne (p q : Part) {f g : Field} (h : f.key ≠ g.key) (s : State) : (s.raise q g).get p f = s.get p f := by
  unfold State.raise
  rw [State.get_signalRise]
  by_cases hp : p = q
  · subst hp; exact State.get_put_ne _ h _ _
  · exact State.get_put_part hp _ _ _ _

@[simp] theorem State.get_dmaWrite (p q : Part) (f : Field) (a : Nat) (b : List Byte) (s : State) : (s.dmaWrite q a b).get p f = s.get p f := by
  cases p <;> cases q <;> rfl

end Sys2Proof.Machine
end

