-- ==== Sys2Proof/Laws/Acts.lean ====
section
/-! SUPPORT. What every operation of one part keeps, as one relation between the state before and the state after: the queue of
commands, the canonical form of both memories, and everything of the other part. `Keep` is the share of it that operations of both
parts keep. -/

namespace Sys2Proof.Machine

open Sys2Proof

/-- What every operation keeps: the commands that wait and the canonical form of the memories; a quiet one stores nothing. -/
structure Keep (quiet : Bool) (s t : State) : Prop where
  pending : t.pending = s.pending
  dieMem : Memory.wf s.dieMem = true → Memory.wf t.dieMem = true
  hostMem : Memory.wf s.hostMem = true → Memory.wf t.hostMem = true
  same : quiet = true → t.dieMem = s.dieMem ∧ t.hostMem = s.hostMem

/-- What an operation of one part keeps: the other part with its memory, as well. -/
structure Acts (p : Part) (quiet : Bool) (s t : State) : Prop where
  keep : Keep quiet s t
  sc : p = .fd → t.sc = s.sc ∧ t.die = s.die ∧ t.dieMem = s.dieMem
  fd : p = .sc → t.fd = s.fd ∧ t.dist = s.dist ∧ t.hostMem = s.hostMem ∧ t.msix = s.msix

variable {quiet : Bool}

theorem Keep.refl (s : State) : Keep quiet s s := ⟨rfl, id, id, fun _ => ⟨rfl, rfl⟩⟩

theorem Keep.trans {s t u : State} (h : Keep quiet s t) (k : Keep quiet t u) : Keep quiet s u :=
  ⟨k.pending.trans h.pending, fun x => k.dieMem (h.dieMem x), fun x => k.hostMem (h.hostMem x),
    fun e => ⟨(k.same e).1.trans (h.same e).1, (k.same e).2.trans (h.same e).2⟩⟩

theorem Acts.refl (p : Part) (s : State) : Acts p quiet s s := ⟨Keep.refl s, fun _ => ⟨rfl, rfl, rfl⟩, fun _ => ⟨rfl, rfl, rfl, rfl⟩⟩

theorem Acts.trans {p : Part} {s t u : State} (h : Acts p quiet s t) (k : Acts p quiet t u) : Acts p quiet s u :=
  ⟨h.keep.trans k.keep,
    fun e => ⟨(k.sc e).1.trans (h.sc e).1, (k.sc e).2.1.trans (h.sc e).2.1, (k.sc e).2.2.trans (h.sc e).2.2⟩,
    fun e => ⟨(k.fd e).1.trans (h.fd e).1, (k.fd e).2.1.trans (h.fd e).2.1, (k.fd e).2.2.1.trans (h.fd e).2.2.1,
      (k.fd e).2.2.2.trans (h.fd e).2.2.2⟩⟩

theorem Acts.ite {p : Part} {s a b : State} {c : Prop} [Decidable c] (h : c → Acts p quiet s a) (k : ¬c → Acts p quiet s b) : Acts p quiet s (if c then a else b) := by
  split
  · exact h ‹_›
  · exact k ‹_›

theorem Keep.ite {s a b : State} {c : Prop} [Decidable c] (h : c → Keep quiet s a) (k : ¬c → Keep quiet s b) : Keep quiet s (if c then a else b) := by
  split
  · exact h ‹_›
  · exact k ‹_›

theorem Acts.foldl {α : Type} {p : Part} {f : State → α → State} (h : ∀ t b, Acts p quiet t (f t b)) (l : List α) (s : State) : Acts p quiet s (l.foldl f s) := by
  induction l generalizing s with
  | nil => exact Acts.refl p s
  | cons b l ih => exact (h s b).trans (ih _)

theorem Keep.foldl {α : Type} {f : State → α → State} (h : ∀ t b, Keep quiet t (f t b)) (l : List α) (s : State) : Keep quiet s (l.foldl f s) := by
  induction l generalizing s with
  | nil => exact Keep.refl s
  | cons b l ih => exact (h s b).trans (ih _)

theorem Acts.foldl_trans {α : Type} {p : Part} {s₀ s : State} {f : State → α → State} {l : List α} (h : ∀ t b, Acts p quiet t (f t b)) (k : Acts p quiet s₀ s) :
    Acts p quiet s₀ (l.foldl f s) := k.trans (Acts.foldl h l s)

theorem Keep.foldl_trans {α : Type} {s₀ s : State} {f : State → α → State} {l : List α} (h : ∀ t b, Keep quiet t (f t b)) (k : Keep quiet s₀ s) :
    Keep quiet s₀ (l.foldl f s) := k.trans (Keep.foldl h l s)

theorem Acts.snd {α : Type} {p : Part} {s t : State} {q : α × State} {a : α} (h : q = (a, t)) (k : Acts p quiet s q.2) : Acts p quiet s t := by subst h; exact k

theorem Keep.snd {α : Type} {s t : State} {q : α × State} {a : α} (h : q = (a, t)) (k : Keep quiet s q.2) : Keep quiet s t := by subst h; exact k

theorem Acts.snd2 {α β : Type} {p : Part} {s t : State} {q : α × β × State} {a : α} {b : β} (h : q = (a, b, t)) (k : Acts p quiet s q.2.2) : Acts p quiet s t := by
  subst h; exact k

/-- The relation for a command's outcome, which is a next state. -/
def ActsO (p : Part) (quiet : Bool) (s : State) : Host.Outcome State Fault Refusal → Prop
  | .next t => Acts p quiet s t
  | _ => False

/-- The relation for a command's outcome, which is a next state. -/
def KeepO (quiet : Bool) (s : State) : Host.Outcome State Fault Refusal → Prop
  | .next t => Keep quiet s t
  | _ => False

theorem ActsO.next {p : Part} {s t : State} (h : Acts p quiet s t) : ActsO p quiet s (.next t) := h
theorem KeepO.next {s t : State} (h : Keep quiet s t) : KeepO quiet s (.next t) := h

theorem Acts.ofO {p : Part} {s t : State} {o : Host.Outcome State Fault Refusal} (h : o = .next t) (k : ActsO p quiet s o) : Acts p quiet s t := by subst h; exact k
theorem Keep.ofO {s t : State} {o : Host.Outcome State Fault Refusal} (h : o = .next t) (k : KeepO quiet s o) : Keep quiet s t := by subst h; exact k

theorem ActsO.ite {p : Part} {s : State} {a b : Host.Outcome State Fault Refusal} {c : Prop} [Decidable c] (h : c → ActsO p quiet s a) (k : ¬c → ActsO p quiet s b) :
    ActsO p quiet s (if c then a else b) := by
  split
  · exact h ‹_›
  · exact k ‹_›

theorem KeepO.ite {s : State} {a b : Host.Outcome State Fault Refusal} {c : Prop} [Decidable c] (h : c → KeepO quiet s a) (k : ¬c → KeepO quiet s b) :
    KeepO quiet s (if c then a else b) := by
  split
  · exact h ‹_›
  · exact k ‹_›

theorem Acts.iteS {α : Type} {p : Part} {s : State} {a b : α × State} {c : Prop} [Decidable c] (h : c → Acts p quiet s a.2) (k : ¬c → Acts p quiet s b.2) : Acts p quiet s (if c then a else b).2 := by
  split
  · exact h ‹_›
  · exact k ‹_›

theorem Acts.iteS2 {α β : Type} {p : Part} {s : State} {a b : α × β × State} {c : Prop} [Decidable c] (h : c → Acts p quiet s a.2.2) (k : ¬c → Acts p quiet s b.2.2) :
    Acts p quiet s (if c then a else b).2.2 := by
  split
  · exact h ‹_›
  · exact k ‹_›

theorem Acts.mkS {α : Type} {p : Part} {s t : State} {a : α} (h : Acts p quiet s t) : Acts p quiet s (a, t).2 := h

theorem Keep.iteS {α : Type} {s : State} {a b : α × State} {c : Prop} [Decidable c] (h : c → Keep quiet s a.2) (k : ¬c → Keep quiet s b.2) : Keep quiet s (if c then a else b).2 := by
  split
  · exact h ‹_›
  · exact k ‹_›

theorem Keep.iteS2 {α β : Type} {s : State} {a b : α × β × State} {c : Prop} [Decidable c] (h : c → Keep quiet s a.2.2) (k : ¬c → Keep quiet s b.2.2) :
    Keep quiet s (if c then a else b).2.2 := by
  split
  · exact h ‹_›
  · exact k ‹_›

theorem Keep.mkS {α : Type} {s t : State} {a : α} (h : Keep quiet s t) : Keep quiet s (a, t).2 := h

theorem Acts.step {p : Part} {s₀ s : State} {f : State → State} (h : ∀ t, Acts p quiet t (f t)) (k : Acts p quiet s₀ s) : Acts p quiet s₀ (f s) := k.trans (h s)
theorem Keep.step {s₀ s : State} {f : State → State} (h : ∀ t, Keep quiet t (f t)) (k : Keep quiet s₀ s) : Keep quiet s₀ (f s) := k.trans (h s)
theorem Acts.stepS {α : Type} {p : Part} {s₀ s : State} {f : State → α × State} (h : ∀ t, Acts p quiet t (f t).2) (k : Acts p quiet s₀ s) : Acts p quiet s₀ (f s).2 := k.trans (h s)
theorem Keep.stepS {α : Type} {s₀ s : State} {f : State → α × State} (h : ∀ t, Keep quiet t (f t).2) (k : Keep quiet s₀ s) : Keep quiet s₀ (f s).2 := k.trans (h s)

theorem setUnit_acts (p : Part) (u : Common) (s : State) : Acts p quiet s (s.setUnit p u) := by
  cases p
  · exact ⟨⟨rfl, id, id, fun _ => ⟨rfl, rfl⟩⟩, fun _ => ⟨rfl, rfl, rfl⟩, nofun⟩
  · exact ⟨⟨rfl, id, id, fun _ => ⟨rfl, rfl⟩⟩, nofun, fun _ => ⟨rfl, rfl, rfl, rfl⟩⟩

theorem setDist_acts (d : Dist) (s : State) : Acts .fd quiet s (s.setDist d) := ⟨⟨rfl, id, id, fun _ => ⟨rfl, rfl⟩⟩, fun _ => ⟨rfl, rfl, rfl⟩, nofun⟩

theorem setDie_acts (d : Die) (s : State) : Acts .sc quiet s (s.setDie d) := ⟨⟨rfl, id, id, fun _ => ⟨rfl, rfl⟩⟩, nofun, fun _ => ⟨rfl, rfl, rfl, rfl⟩⟩

theorem setMsix_acts (m : Msix) (s : State) : Acts .fd quiet s (s.setMsix m) := ⟨⟨rfl, id, id, fun _ => ⟨rfl, rfl⟩⟩, fun _ => ⟨rfl, rfl, rfl⟩, nofun⟩

theorem fresh_acts (p : Part) (s : State) : Acts p quiet s s.fresh.2 :=
  ⟨⟨rfl, id, id, fun _ => ⟨rfl, rfl⟩⟩, fun _ => ⟨rfl, rfl, rfl⟩, fun _ => ⟨rfl, rfl, rfl, rfl⟩⟩

theorem dmaWrite_acts (p : Part) (a : Nat) (b : List Byte) (s : State) : Acts p false s (s.dmaWrite p a b) := by
  cases p
  · exact ⟨⟨rfl, id, Memory.wf_writeN a b _, nofun⟩, fun _ => ⟨rfl, rfl, rfl⟩, nofun⟩
  · exact ⟨⟨rfl, Memory.wf_writeN a b _, id, nofun⟩, nofun, fun _ => ⟨rfl, rfl, rfl, rfl⟩⟩

theorem put_acts (p : Part) (f : Field) (v : Nat) (s : State) : Acts p quiet s (s.put p f v) := setUnit_acts p _ s

theorem signal_acts (v : Nat) (s : State) : Acts .fd quiet s (s.signal v) := by
  unfold State.signal
  split
  · exact setMsix_acts ..
  · exact setMsix_acts ..

theorem signalRise_acts (v : Nat) (s before : State) : Acts .fd quiet s (s.signalRise v before) := by
  unfold State.signalRise
  split
  · exact signal_acts ..
  · exact Acts.refl ..

/-- A rise on the step core signals nothing: the vectors are the distributor's. -/
theorem raise_sc (f : Field) (s : State) : s.raise .sc f = s.put .sc f 1 := by
  have h : (s.put .sc f 1).vectorCond 2 = s.vectorCond 2 := rfl
  unfold State.raise State.signalRise
  rw [h, if_neg (by simp)]

theorem raise_acts (p : Part) (f : Field) (s : State) : Acts p quiet s (s.raise p f) := by
  cases p
  · exact (put_acts .fd f 1 s).trans (signalRise_acts ..)
  · rw [raise_sc]; exact put_acts ..

theorem setUnit_trans {p : Part} {u : Common} {s₀ s : State} (h : Acts p quiet s₀ s) : Acts p quiet s₀ (s.setUnit p u) := h.trans (setUnit_acts ..)
theorem setUnit_keep {p : Part} {u : Common} {s₀ s : State} (h : Keep quiet s₀ s) : Keep quiet s₀ (s.setUnit p u) := h.trans (setUnit_acts ..).keep

theorem setDist_trans {d : Dist} {s₀ s : State} (h : Acts .fd quiet s₀ s) : Acts .fd quiet s₀ (s.setDist d) := h.trans (setDist_acts ..)
theorem setDist_keep {d : Dist} {s₀ s : State} (h : Keep quiet s₀ s) : Keep quiet s₀ (s.setDist d) := h.trans (setDist_acts ..).keep

theorem setDie_trans {d : Die} {s₀ s : State} (h : Acts .sc quiet s₀ s) : Acts .sc quiet s₀ (s.setDie d) := h.trans (setDie_acts ..)
theorem setDie_keep {d : Die} {s₀ s : State} (h : Keep quiet s₀ s) : Keep quiet s₀ (s.setDie d) := h.trans (setDie_acts ..).keep

theorem setMsix_trans {m : Msix} {s₀ s : State} (h : Acts .fd quiet s₀ s) : Acts .fd quiet s₀ (s.setMsix m) := h.trans (setMsix_acts ..)
theorem setMsix_keep {m : Msix} {s₀ s : State} (h : Keep quiet s₀ s) : Keep quiet s₀ (s.setMsix m) := h.trans (setMsix_acts ..).keep

theorem dmaWrite_trans {p : Part} {a : Nat} {b : List Byte} {s₀ s : State} (h : Acts p false s₀ s) : Acts p false s₀ (s.dmaWrite p a b) := h.trans (dmaWrite_acts ..)
theorem dmaWrite_keep {p : Part} {a : Nat} {b : List Byte} {s₀ s : State} (h : Keep false s₀ s) : Keep false s₀ (s.dmaWrite p a b) := h.trans (dmaWrite_acts ..).keep

theorem put_trans {p : Part} {f : Field} {v : Nat} {s₀ s : State} (h : Acts p quiet s₀ s) : Acts p quiet s₀ (s.put p f v) := h.trans (put_acts ..)
theorem put_keep {p : Part} {f : Field} {v : Nat} {s₀ s : State} (h : Keep quiet s₀ s) : Keep quiet s₀ (s.put p f v) := h.trans (put_acts ..).keep

theorem signal_trans {v : Nat} {s₀ s : State} (h : Acts .fd quiet s₀ s) : Acts .fd quiet s₀ (s.signal v) := h.trans (signal_acts ..)
theorem signal_keep {v : Nat} {s₀ s : State} (h : Keep quiet s₀ s) : Keep quiet s₀ (s.signal v) := h.trans (signal_acts ..).keep

theorem raise_trans {p : Part} {f : Field} {s₀ s : State} (h : Acts p quiet s₀ s) : Acts p quiet s₀ (s.raise p f) := h.trans (raise_acts ..)
theorem raise_keep {p : Part} {f : Field} {s₀ s : State} (h : Keep quiet s₀ s) : Keep quiet s₀ (s.raise p f) := h.trans (raise_acts ..).keep

theorem signalRise_trans {v : Nat} {s₀ s before : State} (h : Acts .fd quiet s₀ s) : Acts .fd quiet s₀ (s.signalRise v before) := h.trans (signalRise_acts ..)
theorem signalRise_keep {v : Nat} {s₀ s before : State} (h : Keep quiet s₀ s) : Keep quiet s₀ (s.signalRise v before) := h.trans (signalRise_acts ..).keep
theorem fresh_trans {p : Part} {s₀ s : State} (h : Acts p quiet s₀ s) : Acts p quiet s₀ s.fresh.2 := h.trans (fresh_acts ..)
theorem fresh_keep {s₀ s : State} (h : Keep quiet s₀ s) : Keep quiet s₀ s.fresh.2 := h.trans (fresh_acts .fd s).keep

end Sys2Proof.Machine
end

