-- ==== Sys2Proof/Laws/ActsOps.lean ====
section
/-! SUPPORT. One lemma an operation: what it keeps (Acts, Keep). -/

namespace Sys2Proof.Machine

open Sys2Proof

set_option linter.unusedTactic false
set_option linter.unreachableTactic false
set_option linter.unusedVariables false

variable {quiet : Bool}

theorem putFlag_acts (p : Part) (f : Field) (b : Bool) (s : State) : Acts p quiet s (State.putFlag p f b s) := by
  unfold State.putFlag
  repeat' first
    | fail_if_no_progress extract_lets
    | (with_reducible apply Acts.ite) <;> intro _
    | with_reducible apply Acts.refl
    | with_reducible assumption
    | with_reducible apply put_trans
    | dsimp -zeta only
theorem putFlag_trans {p : Part} {f : Field} {b : Bool} {s : State} {s₀ : State} (h₀ : Acts p quiet s₀ s) : Acts p quiet s₀ (State.putFlag p f b s) := h₀.trans (putFlag_acts ..)
theorem putFlag_keep {p : Part} {f : Field} {b : Bool} {s : State} {s₀ : State} (h₀ : Keep quiet s₀ s) : Keep quiet s₀ (State.putFlag p f b s) := h₀.trans (putFlag_acts ..).keep

theorem putS_acts (p : Part) (f : Field) (i : Int) (s : State) : Acts p quiet s (State.putS p f i s) := by
  unfold State.putS
  repeat' first
    | fail_if_no_progress extract_lets
    | (with_reducible apply Acts.ite) <;> intro _
    | with_reducible apply Acts.refl
    | with_reducible assumption
    | with_reducible apply put_trans
    | dsimp -zeta only
theorem putS_trans {p : Part} {f : Field} {i : Int} {s : State} {s₀ : State} (h₀ : Acts p quiet s₀ s) : Acts p quiet s₀ (State.putS p f i s) := h₀.trans (putS_acts ..)
theorem putS_keep {p : Part} {f : Field} {i : Int} {s : State} {s₀ : State} (h₀ : Keep quiet s₀ s) : Keep quiet s₀ (State.putS p f i s) := h₀.trans (putS_acts ..).keep

theorem bump_acts (p : Part) (f : Field) (s : State) (n : Nat) : Acts p quiet s (State.bump p f s n) := by
  unfold State.bump
  repeat' first
    | fail_if_no_progress extract_lets
    | (with_reducible apply Acts.ite) <;> intro _
    | with_reducible apply Acts.refl
    | with_reducible assumption
    | with_reducible apply put_trans
    | dsimp -zeta only
theorem bump_trans {p : Part} {f : Field} {s : State} {n : Nat} {s₀ : State} (h₀ : Acts p quiet s₀ s) : Acts p quiet s₀ (State.bump p f s n) := h₀.trans (bump_acts ..)
theorem bump_keep {p : Part} {f : Field} {s : State} {n : Nat} {s₀ : State} (h₀ : Keep quiet s₀ s) : Keep quiet s₀ (State.bump p f s n) := h₀.trans (bump_acts ..).keep

theorem setLink_acts (p : Part) (n : Nat) (l : Link) (s : State) : Acts p quiet s (State.setLink p n l s) := by
  unfold State.setLink
  repeat' first
    | fail_if_no_progress extract_lets
    | (with_reducible apply Acts.ite) <;> intro _
    | with_reducible apply Acts.refl
    | with_reducible assumption
    | with_reducible apply setUnit_trans
    | dsimp -zeta only
theorem setLink_trans {p : Part} {n : Nat} {l : Link} {s : State} {s₀ : State} (h₀ : Acts p quiet s₀ s) : Acts p quiet s₀ (State.setLink p n l s) := h₀.trans (setLink_acts ..)
theorem setLink_keep {p : Part} {n : Nat} {l : Link} {s : State} {s₀ : State} (h₀ : Keep quiet s₀ s) : Keep quiet s₀ (State.setLink p n l s) := h₀.trans (setLink_acts ..).keep

theorem modLink_acts (p : Part) (n : Nat) (f : Link → Link) (s : State) : Acts p quiet s (State.modLink p n f s) := by
  unfold State.modLink
  repeat' first
    | fail_if_no_progress extract_lets
    | (with_reducible apply Acts.ite) <;> intro _
    | with_reducible apply Acts.refl
    | with_reducible assumption
    | with_reducible apply setLink_trans
    | dsimp -zeta only
theorem modLink_trans {p : Part} {n : Nat} {f : Link → Link} {s : State} {s₀ : State} (h₀ : Acts p quiet s₀ s) : Acts p quiet s₀ (State.modLink p n f s) := h₀.trans (modLink_acts ..)
theorem modLink_keep {p : Part} {n : Nat} {f : Link → Link} {s : State} {s₀ : State} (h₀ : Keep quiet s₀ s) : Keep quiet s₀ (State.modLink p n f s) := h₀.trans (modLink_acts ..).keep

theorem setFw_acts (p : Part) (fw : FwSt) (s : State) : Acts p quiet s (State.setFw p fw s) := by
  unfold State.setFw
  repeat' first
    | fail_if_no_progress extract_lets
    | (with_reducible apply Acts.ite) <;> intro _
    | with_reducible apply Acts.refl
    | with_reducible assumption
    | with_reducible apply setUnit_trans
    | dsimp -zeta only
theorem setFw_trans {p : Part} {fw : FwSt} {s : State} {s₀ : State} (h₀ : Acts p quiet s₀ s) : Acts p quiet s₀ (State.setFw p fw s) := h₀.trans (setFw_acts ..)
theorem setFw_keep {p : Part} {fw : FwSt} {s : State} {s₀ : State} (h₀ : Keep quiet s₀ s) : Keep quiet s₀ (State.setFw p fw s) := h₀.trans (setFw_acts ..).keep

theorem setStart_acts (p : Part) (st : StartSt) (s : State) : Acts p quiet s (State.setStart p st s) := by
  unfold State.setStart
  repeat' first
    | fail_if_no_progress extract_lets
    | (with_reducible apply Acts.ite) <;> intro _
    | with_reducible apply Acts.refl
    | with_reducible assumption
    | with_reducible apply setUnit_trans
    | dsimp -zeta only
theorem setStart_trans {p : Part} {st : StartSt} {s : State} {s₀ : State} (h₀ : Acts p quiet s₀ s) : Acts p quiet s₀ (State.setStart p st s) := h₀.trans (setStart_acts ..)
theorem setStart_keep {p : Part} {st : StartSt} {s : State} {s₀ : State} (h₀ : Keep quiet s₀ s) : Keep quiet s₀ (State.setStart p st s) := h₀.trans (setStart_acts ..).keep

theorem setSlate_acts (p : Part) (sl : SlateSt) (s : State) : Acts p quiet s (State.setSlate p sl s) := by
  unfold State.setSlate
  repeat' first
    | fail_if_no_progress extract_lets
    | (with_reducible apply Acts.ite) <;> intro _
    | with_reducible apply Acts.refl
    | with_reducible assumption
    | with_reducible apply setUnit_trans
    | dsimp -zeta only
theorem setSlate_trans {p : Part} {sl : SlateSt} {s : State} {s₀ : State} (h₀ : Acts p quiet s₀ s) : Acts p quiet s₀ (State.setSlate p sl s) := h₀.trans (setSlate_acts ..)
theorem setSlate_keep {p : Part} {sl : SlateSt} {s : State} {s₀ : State} (h₀ : Keep quiet s₀ s) : Keep quiet s₀ (State.setSlate p sl s) := h₀.trans (setSlate_acts ..).keep

theorem setHall_acts (h : HallSt) (s : State) : Acts .fd quiet s (State.setHall h s) := by
  unfold State.setHall
  repeat' first
    | fail_if_no_progress extract_lets
    | (with_reducible apply Acts.ite) <;> intro _
    | with_reducible apply Acts.refl
    | with_reducible assumption
    | with_reducible apply setDist_trans
    | dsimp -zeta only
theorem setHall_trans {h : HallSt} {s : State} {s₀ : State} (h₀ : Acts .fd quiet s₀ s) : Acts .fd quiet s₀ (State.setHall h s) := h₀.trans (setHall_acts ..)
theorem setHall_keep {h : HallSt} {s : State} {s₀ : State} (h₀ : Keep quiet s₀ s) : Keep quiet s₀ (State.setHall h s) := h₀.trans (setHall_acts ..).keep

theorem setArch_acts (a : Archive) (s : State) : Acts .fd quiet s (State.setArch a s) := by
  unfold State.setArch
  repeat' first
    | fail_if_no_progress extract_lets
    | (with_reducible apply Acts.ite) <;> intro _
    | with_reducible apply Acts.refl
    | with_reducible assumption
    | with_reducible apply setDist_trans
    | dsimp -zeta only
theorem setArch_trans {a : Archive} {s : State} {s₀ : State} (h₀ : Acts .fd quiet s₀ s) : Acts .fd quiet s₀ (State.setArch a s) := h₀.trans (setArch_acts ..)
theorem setArch_keep {a : Archive} {s : State} {s₀ : State} (h₀ : Keep quiet s₀ s) : Keep quiet s₀ (State.setArch a s) := h₀.trans (setArch_acts ..).keep

theorem setSpare_acts (a : SpareSt) (s : State) : Acts .fd quiet s (State.setSpare a s) := by
  unfold State.setSpare
  repeat' first
    | fail_if_no_progress extract_lets
    | (with_reducible apply Acts.ite) <;> intro _
    | with_reducible apply Acts.refl
    | with_reducible assumption
    | with_reducible apply setDist_trans
    | dsimp -zeta only
theorem setSpare_trans {a : SpareSt} {s : State} {s₀ : State} (h₀ : Acts .fd quiet s₀ s) : Acts .fd quiet s₀ (State.setSpare a s) := h₀.trans (setSpare_acts ..)
theorem setSpare_keep {a : SpareSt} {s : State} {s₀ : State} (h₀ : Keep quiet s₀ s) : Keep quiet s₀ (State.setSpare a s) := h₀.trans (setSpare_acts ..).keep

theorem setSb_acts (b : StudBook) (s : State) : Acts .fd quiet s (State.setSb b s) := by
  unfold State.setSb
  repeat' first
    | fail_if_no_progress extract_lets
    | (with_reducible apply Acts.ite) <;> intro _
    | with_reducible apply Acts.refl
    | with_reducible assumption
    | with_reducible apply setDist_trans
    | dsimp -zeta only
theorem setSb_trans {b : StudBook} {s : State} {s₀ : State} (h₀ : Acts .fd quiet s₀ s) : Acts .fd quiet s₀ (State.setSb b s) := h₀.trans (setSb_acts ..)
theorem setSb_keep {b : StudBook} {s : State} {s₀ : State} (h₀ : Keep quiet s₀ s) : Keep quiet s₀ (State.setSb b s) := h₀.trans (setSb_acts ..).keep

theorem setRole_acts (r : Nat) (s : State) : Acts .fd quiet s (State.setRole r s) := by
  unfold State.setRole
  repeat' first
    | fail_if_no_progress extract_lets
    | (with_reducible apply Acts.ite) <;> intro _
    | with_reducible apply Acts.refl
    | with_reducible assumption
    | with_reducible apply put_trans
    | dsimp -zeta only
theorem setRole_trans {r : Nat} {s : State} {s₀ : State} (h₀ : Acts .fd quiet s₀ s) : Acts .fd quiet s₀ (State.setRole r s) := h₀.trans (setRole_acts ..)
theorem setRole_keep {r : Nat} {s : State} {s₀ : State} (h₀ : Keep quiet s₀ s) : Keep quiet s₀ (State.setRole r s) := h₀.trans (setRole_acts ..).keep

theorem setJob_acts (j : Nat) (b : Job) (s : State) : Acts .fd quiet s (State.setJob j b s) := by
  unfold State.setJob
  repeat' first
    | fail_if_no_progress extract_lets
    | (with_reducible apply Acts.ite) <;> intro _
    | with_reducible apply Acts.refl
    | with_reducible assumption
    | with_reducible apply setHall_trans
    | dsimp -zeta only
theorem setJob_trans {j : Nat} {b : Job} {s : State} {s₀ : State} (h₀ : Acts .fd quiet s₀ s) : Acts .fd quiet s₀ (State.setJob j b s) := h₀.trans (setJob_acts ..)
theorem setJob_keep {j : Nat} {b : Job} {s : State} {s₀ : State} (h₀ : Keep quiet s₀ s) : Keep quiet s₀ (State.setJob j b s) := h₀.trans (setJob_acts ..).keep

theorem setSlot_acts (h : Nat) (v : HSlot) (s : State) : Acts .fd quiet s (State.setSlot h v s) := by
  unfold State.setSlot
  repeat' first
    | fail_if_no_progress extract_lets
    | (with_reducible apply Acts.ite) <;> intro _
    | with_reducible apply Acts.refl
    | with_reducible assumption
    | with_reducible apply setHall_trans
    | dsimp -zeta only
theorem setSlot_trans {h : Nat} {v : HSlot} {s : State} {s₀ : State} (h₀ : Acts .fd quiet s₀ s) : Acts .fd quiet s₀ (State.setSlot h v s) := h₀.trans (setSlot_acts ..)
theorem setSlot_keep {h : Nat} {v : HSlot} {s : State} {s₀ : State} (h₀ : Keep quiet s₀ s) : Keep quiet s₀ (State.setSlot h v s) := h₀.trans (setSlot_acts ..).keep

theorem hbarInt_acts (f : Field) (s : State) : Acts .fd quiet s (State.hbarInt f s) := by
  unfold State.hbarInt
  repeat' first
    | fail_if_no_progress extract_lets
    | (with_reducible apply Acts.ite) <;> intro _
    | with_reducible apply Acts.refl
    | with_reducible assumption
    | with_reducible apply put_trans
    | with_reducible apply signalRise_trans
    | dsimp -zeta only
theorem hbarInt_trans {f : Field} {s : State} {s₀ : State} (h₀ : Acts .fd quiet s₀ s) : Acts .fd quiet s₀ (State.hbarInt f s) := h₀.trans (hbarInt_acts ..)
theorem hbarInt_keep {f : Field} {s : State} {s₀ : State} (h₀ : Keep quiet s₀ s) : Keep quiet s₀ (State.hbarInt f s) := h₀.trans (hbarInt_acts ..).keep

theorem rsvd_acts (p : Part) (s : State) : Acts p quiet s (State.rsvd p s) := by
  unfold State.rsvd
  repeat' first
    | fail_if_no_progress extract_lets
    | (with_reducible apply Acts.ite) <;> intro _
    | with_reducible apply Acts.refl
    | with_reducible assumption
    | with_reducible apply raise_trans
    | dsimp -zeta only
theorem rsvd_trans {p : Part} {s : State} {s₀ : State} (h₀ : Acts p quiet s₀ s) : Acts p quiet s₀ (State.rsvd p s) := h₀.trans (rsvd_acts ..)
theorem rsvd_keep {p : Part} {s : State} {s₀ : State} (h₀ : Keep quiet s₀ s) : Keep quiet s₀ (State.rsvd p s) := h₀.trans (rsvd_acts ..).keep

theorem restage_acts (p : Part) (s : State) : Acts p quiet s (State.restage p s) := by
  unfold State.restage
  repeat' first
    | fail_if_no_progress extract_lets
    | (with_reducible apply Acts.ite) <;> intro _
    | with_reducible apply Acts.refl
    | with_reducible assumption
    | with_reducible apply put_trans
    | with_reducible apply putFlag_trans
    | (with_reducible apply Acts.snd; with_reducible assumption)
    | split
    | dsimp -zeta only
    | dsimp +zetaDelta -zeta only
theorem restage_trans {p : Part} {s : State} {s₀ : State} (h₀ : Acts p quiet s₀ s) : Acts p quiet s₀ (State.restage p s) := h₀.trans (restage_acts ..)
theorem restage_keep {p : Part} {s : State} {s₀ : State} (h₀ : Keep quiet s₀ s) : Keep quiet s₀ (State.restage p s) := h₀.trans (restage_acts ..).keep

theorem filterRec_acts (x : Rec) (s : State) : Acts .fd quiet s (State.filterRec x s).2 := by
  unfold State.filterRec
  repeat' first
    | fail_if_no_progress extract_lets
    | (with_reducible apply Acts.iteS) <;> intro _
    | (with_reducible apply Acts.iteS2) <;> intro _
    | (with_reducible apply Acts.ite) <;> intro _
    | with_reducible apply Acts.refl
    | with_reducible assumption
    | dsimp -zeta only
    | with_reducible apply setArch_trans
    | (with_reducible apply Acts.snd; with_reducible assumption)
    | split
    | dsimp -zeta only
    | dsimp +zetaDelta -zeta only
theorem filterRec_trans {x : Rec} {s : State} {s₀ : State} (h₀ : Acts .fd quiet s₀ s) : Acts .fd quiet s₀ (State.filterRec x s).2 := h₀.trans (filterRec_acts ..)
theorem filterRec_keep {x : Rec} {s : State} {s₀ : State} (h₀ : Keep quiet s₀ s) : Keep quiet s₀ (State.filterRec x s).2 := h₀.trans (filterRec_acts ..).keep

theorem chargeRec_acts (x : Rec) (s : State) : Acts .fd quiet s (State.chargeRec x s).2 := by
  unfold State.chargeRec
  repeat' first
    | fail_if_no_progress extract_lets
    | (with_reducible apply Acts.iteS) <;> intro _
    | (with_reducible apply Acts.iteS2) <;> intro _
    | (with_reducible apply Acts.ite) <;> intro _
    | with_reducible apply Acts.refl
    | with_reducible assumption
    | dsimp -zeta only
    | with_reducible apply bump_trans
    | with_reducible apply setArch_trans
    | split
    | dsimp -zeta only
    | dsimp +zetaDelta -zeta only
theorem chargeRec_trans {x : Rec} {s : State} {s₀ : State} (h₀ : Acts .fd quiet s₀ s) : Acts .fd quiet s₀ (State.chargeRec x s).2 := h₀.trans (chargeRec_acts ..)
theorem chargeRec_keep {x : Rec} {s : State} {s₀ : State} (h₀ : Keep quiet s₀ s) : Keep quiet s₀ (State.chargeRec x s).2 := h₀.trans (chargeRec_acts ..).keep

theorem ringPush_acts (b : Block) (s : State) : Acts .fd quiet s (State.ringPush b s) := by
  unfold State.ringPush
  repeat' first
    | fail_if_no_progress extract_lets
    | (with_reducible apply Acts.ite) <;> intro _
    | with_reducible apply Acts.refl
    | with_reducible assumption
    | with_reducible apply put_trans
    | with_reducible apply bump_trans
    | with_reducible apply setArch_trans
    | (with_reducible apply Acts.snd; with_reducible assumption)
    | split
    | dsimp -zeta only
    | dsimp +zetaDelta -zeta only
theorem ringPush_trans {b : Block} {s : State} {s₀ : State} (h₀ : Acts .fd quiet s₀ s) : Acts .fd quiet s₀ (State.ringPush b s) := h₀.trans (ringPush_acts ..)
theorem ringPush_keep {b : Block} {s : State} {s₀ : State} (h₀ : Keep quiet s₀ s) : Keep quiet s₀ (State.ringPush b s) := h₀.trans (ringPush_acts ..).keep

theorem closeBlock_acts (s : State) : Acts .fd quiet s (State.closeBlock s) := by
  unfold State.closeBlock
  repeat' first
    | fail_if_no_progress extract_lets
    | (with_reducible apply Acts.ite) <;> intro _
    | with_reducible apply Acts.refl
    | with_reducible assumption
    | with_reducible apply setArch_trans
    | with_reducible apply ringPush_trans
    | (with_reducible apply Acts.snd; with_reducible assumption)
    | split
    | dsimp -zeta only
theorem closeBlock_trans {s : State} {s₀ : State} (h₀ : Acts .fd quiet s₀ s) : Acts .fd quiet s₀ (State.closeBlock s) := h₀.trans (closeBlock_acts ..)
theorem closeBlock_keep {s : State} {s₀ : State} (h₀ : Keep quiet s₀ s) : Keep quiet s₀ (State.closeBlock s) := h₀.trans (closeBlock_acts ..).keep

theorem blockAdd_acts (x : Rec) (s : State) : Acts .fd quiet s (State.blockAdd x s) := by
  unfold State.blockAdd
  repeat' first
    | fail_if_no_progress extract_lets
    | (with_reducible apply Acts.ite) <;> intro _
    | with_reducible apply Acts.refl
    | with_reducible assumption
    | with_reducible apply setArch_trans
    | with_reducible apply closeBlock_trans
    | ((with_reducible apply Acts.foldl_trans); intro _ _)
    | (with_reducible apply Acts.snd; with_reducible assumption)
    | split
    | dsimp -zeta only
    | dsimp +zetaDelta -zeta only
theorem blockAdd_trans {x : Rec} {s : State} {s₀ : State} (h₀ : Acts .fd quiet s₀ s) : Acts .fd quiet s₀ (State.blockAdd x s) := h₀.trans (blockAdd_acts ..)
theorem blockAdd_keep {x : Rec} {s : State} {s₀ : State} (h₀ : Keep quiet s₀ s) : Keep quiet s₀ (State.blockAdd x s) := h₀.trans (blockAdd_acts ..).keep

theorem attTake_acts (x : Rec) (s : State) : Acts .fd quiet s (State.attTake x s) := by
  unfold State.attTake
  repeat' first
    | fail_if_no_progress extract_lets
    | (with_reducible apply Acts.ite) <;> intro _
    | with_reducible apply Acts.refl
    | with_reducible assumption
    | with_reducible apply filterRec_trans
    | with_reducible apply chargeRec_trans
    | with_reducible apply blockAdd_trans
    | (with_reducible apply Acts.snd; with_reducible assumption)
    | split
    | dsimp -zeta only
    | dsimp +zetaDelta -zeta only
theorem attTake_trans {x : Rec} {s : State} {s₀ : State} (h₀ : Acts .fd quiet s₀ s) : Acts .fd quiet s₀ (State.attTake x s) := h₀.trans (attTake_acts ..)
theorem attTake_keep {x : Rec} {s : State} {s₀ : State} (h₀ : Keep quiet s₀ s) : Keep quiet s₀ (State.attTake x s) := h₀.trans (attTake_acts ..).keep

theorem dieTake_acts (x : Rec) (s : State) : Acts .sc quiet s (State.dieTake x s) := by
  unfold State.dieTake
  repeat' first
    | fail_if_no_progress extract_lets
    | (with_reducible apply Acts.ite) <;> intro _
    | with_reducible apply Acts.refl
    | with_reducible assumption
    | with_reducible apply setDie_trans
    | with_reducible apply bump_trans
    | ((with_reducible apply Acts.foldl_trans); intro _ _)
    | (with_reducible apply Acts.snd; with_reducible assumption)
    | split
    | dsimp -zeta only
    | dsimp +zetaDelta -zeta only
theorem dieTake_trans {x : Rec} {s : State} {s₀ : State} (h₀ : Acts .sc quiet s₀ s) : Acts .sc quiet s₀ (State.dieTake x s) := h₀.trans (dieTake_acts ..)
theorem dieTake_keep {x : Rec} {s : State} {s₀ : State} (h₀ : Keep quiet s₀ s) : Keep quiet s₀ (State.dieTake x s) := h₀.trans (dieTake_acts ..).keep

theorem recordAt_acts (p : Part) (ht32 : Nat) (x : Rec) (s : State) : Acts p quiet s (State.recordAt p ht32 x s) := by
  unfold State.recordAt
  repeat' first
    | fail_if_no_progress extract_lets
    | (with_reducible apply Acts.ite) <;> intro _
    | with_reducible apply Acts.refl
    | with_reducible assumption
    | with_reducible apply attTake_trans
    | with_reducible apply dieTake_trans
    | (with_reducible apply Acts.snd; with_reducible assumption)
    | split
    | dsimp -zeta only
    | dsimp +zetaDelta -zeta only
theorem recordAt_trans {p : Part} {ht32 : Nat} {x : Rec} {s : State} {s₀ : State} (h₀ : Acts p quiet s₀ s) : Acts p quiet s₀ (State.recordAt p ht32 x s) := h₀.trans (recordAt_acts ..)
theorem recordAt_keep {p : Part} {ht32 : Nat} {x : Rec} {s : State} {s₀ : State} (h₀ : Keep quiet s₀ s) : Keep quiet s₀ (State.recordAt p ht32 x s) := h₀.trans (recordAt_acts ..).keep

theorem record_acts (p : Part) (x : Rec) (s : State) : Acts p quiet s (State.record p x s) := by
  cases p
  all_goals unfold State.record
  all_goals
  repeat' first
    | fail_if_no_progress extract_lets
    | (with_reducible apply Acts.ite) <;> intro _
    | with_reducible apply Acts.refl
    | with_reducible assumption
    | with_reducible apply recordAt_trans
    | dsimp -zeta only
    | (exfalso; simp_all; done)
theorem record_trans {p : Part} {x : Rec} {s : State} {s₀ : State} (h₀ : Acts p quiet s₀ s) : Acts p quiet s₀ (State.record p x s) := h₀.trans (record_acts ..)
theorem record_keep {p : Part} {x : Rec} {s : State} {s₀ : State} (h₀ : Keep quiet s₀ s) : Keep quiet s₀ (State.record p x s) := h₀.trans (record_acts ..).keep

theorem faultLog_acts (p : Part) (cls act obj : Nat) (s : State) (conts : List Nat) (job : Option Nat) : Acts p quiet s (State.faultLog p cls act obj s conts job) := by
  unfold State.faultLog
  repeat' first
    | fail_if_no_progress extract_lets
    | (with_reducible apply Acts.ite) <;> intro _
    | with_reducible apply Acts.refl
    | with_reducible assumption
    | with_reducible apply setUnit_trans
    | with_reducible apply put_trans
    | with_reducible apply bump_trans
    | with_reducible apply record_trans
    | dsimp -zeta only
    | dsimp +zetaDelta -zeta only
theorem faultLog_trans {p : Part} {cls act obj : Nat} {s : State} {conts : List Nat} {job : Option Nat} {s₀ : State} (h₀ : Acts p quiet s₀ s) : Acts p quiet s₀ (State.faultLog p cls act obj s conts job) := h₀.trans (faultLog_acts ..)
theorem faultLog_keep {p : Part} {cls act obj : Nat} {s : State} {conts : List Nat} {job : Option Nat} {s₀ : State} (h₀ : Keep quiet s₀ s) : Keep quiet s₀ (State.faultLog p cls act obj s conts job) := h₀.trans (faultLog_acts ..).keep

theorem faultAlert_acts (p : Part) (s : State) : Acts p quiet s (State.faultAlert p s) := by
  unfold State.faultAlert
  repeat' first
    | fail_if_no_progress extract_lets
    | (with_reducible apply Acts.ite) <;> intro _
    | with_reducible apply Acts.refl
    | with_reducible assumption
    | with_reducible apply raise_trans
    | dsimp -zeta only
theorem faultAlert_trans {p : Part} {s : State} {s₀ : State} (h₀ : Acts p quiet s₀ s) : Acts p quiet s₀ (State.faultAlert p s) := h₀.trans (faultAlert_acts ..)
theorem faultAlert_keep {p : Part} {s : State} {s₀ : State} (h₀ : Keep quiet s₀ s) : Keep quiet s₀ (State.faultAlert p s) := h₀.trans (faultAlert_acts ..).keep

end Sys2Proof.Machine
end

