-- ==== Sys2Proof/Laws/ActsMailbox.lean ====
section
/-! SUPPORT. One lemma an operation: what it keeps (Acts, Keep). -/

namespace Sys2Proof.Machine

open Sys2Proof

set_option linter.unusedTactic false
set_option linter.unreachableTactic false
set_option linter.unusedVariables false

variable {quiet : Bool}

theorem setMail_acts (p : Part) (box : Nat) (b : Mail) (s : State) : Acts p quiet s (State.setMail p box b s) := by
  unfold State.setMail
  repeat' first
    | fail_if_no_progress extract_lets
    | (with_reducible apply Acts.ite) <;> intro _
    | with_reducible apply Acts.refl
    | with_reducible assumption
    | with_reducible apply setSlate_trans
    | dsimp -zeta only
theorem setMail_trans {p : Part} {box : Nat} {b : Mail} {s : State} {s₀ : State} (h₀ : Acts p quiet s₀ s) : Acts p quiet s₀ (State.setMail p box b s) := h₀.trans (setMail_acts ..)
theorem setMail_keep {p : Part} {box : Nat} {b : Mail} {s : State} {s₀ : State} (h₀ : Keep quiet s₀ s) : Keep quiet s₀ (State.setMail p box b s) := h₀.trans (setMail_acts ..).keep

theorem mbDone_acts (p : Part) (box tag : Nat) (irq : Bool) (status detail : Nat) (area : List Byte) (total : Nat) (s : State) : Acts p quiet s (State.mbDone p box tag irq status detail area total s) := by
  cases p
  all_goals unfold State.mbDone
  all_goals
  repeat' first
    | fail_if_no_progress extract_lets
    | (with_reducible apply Acts.ite) <;> intro _
    | with_reducible apply Acts.refl
    | with_reducible assumption
    | with_reducible apply put_trans
    | with_reducible apply signal_trans
    | with_reducible apply setMail_trans
    | split
    | dsimp -zeta only
    | dsimp +zetaDelta -zeta only
    | (exfalso; simp_all; done)
theorem mbDone_trans {p : Part} {box tag : Nat} {irq : Bool} {status detail : Nat} {area : List Byte} {total : Nat} {s : State} {s₀ : State} (h₀ : Acts p quiet s₀ s) : Acts p quiet s₀ (State.mbDone p box tag irq status detail area total s) := h₀.trans (mbDone_acts ..)
theorem mbDone_keep {p : Part} {box tag : Nat} {irq : Bool} {status detail : Nat} {area : List Byte} {total : Nat} {s : State} {s₀ : State} (h₀ : Keep quiet s₀ s) : Keep quiet s₀ (State.mbDone p box tag irq status detail area total s) := h₀.trans (mbDone_acts ..).keep

theorem mbList_acts (p : Part) (box tag : Nat) (irq dma : Bool) (fixed : List (Nat × Nat)) (entries : List (List (Nat × Nat))) (s : State) : Acts p false s (State.mbList p box tag irq dma fixed entries s) := by
  unfold State.mbList
  repeat' first
    | fail_if_no_progress extract_lets
    | (with_reducible apply Acts.ite) <;> intro _
    | with_reducible apply Acts.refl
    | with_reducible assumption
    | with_reducible apply dmaWrite_trans
    | with_reducible apply mbDone_trans
    | split
    | exact nofun
    | dsimp -zeta only
    | dsimp +zetaDelta -zeta only
theorem mbList_trans {p : Part} {box tag : Nat} {irq dma : Bool} {fixed : List (Nat × Nat)} {entries : List (List (Nat × Nat))} {s : State} {s₀ : State} (h₀ : Acts p false s₀ s) : Acts p false s₀ (State.mbList p box tag irq dma fixed entries s) := h₀.trans (mbList_acts ..)
theorem mbList_keep {p : Part} {box tag : Nat} {irq dma : Bool} {fixed : List (Nat × Nat)} {entries : List (List (Nat × Nat))} {s : State} {s₀ : State} (h₀ : Keep false s₀ s) : Keep false s₀ (State.mbList p box tag irq dma fixed entries s) := h₀.trans (mbList_acts ..).keep

theorem mbAnswer_acts (p : Part) (box code tag : Nat) (irq dma : Bool) (out : MbOut) (s : State) (hd : quiet = true → dma = false) :
    Acts p quiet s (State.mbAnswer p box code tag irq dma out s) := by
  unfold State.mbAnswer
  cases out
  case list fixed entries =>
    cases quiet
    · exact mbList_acts ..
    · rw [hd rfl]
      unfold State.mbList
      exact mbDone_acts ..
  case wait args => exact setMail_acts ..
  all_goals exact mbDone_acts ..
theorem mbAnswer_trans {p : Part} {box code tag : Nat} {irq dma : Bool} {out : MbOut} {s s₀ : State} (h₀ : Acts p quiet s₀ s) (hd : quiet = true → dma = false) :
    Acts p quiet s₀ (State.mbAnswer p box code tag irq dma out s) := h₀.trans (mbAnswer_acts _ _ _ _ _ _ _ _ hd)
theorem mbAnswer_keep {p : Part} {box code tag : Nat} {irq dma : Bool} {out : MbOut} {s s₀ : State} (h₀ : Keep quiet s₀ s) (hd : quiet = true → dma = false) :
    Keep quiet s₀ (State.mbAnswer p box code tag irq dma out s) := h₀.trans (mbAnswer_acts _ _ _ _ _ _ _ _ hd).keep

theorem mbComplete_acts (p : Part) (box : Nat) (out : MbOut) (s : State) : Acts p false s (State.mbComplete p box out s) := by
  unfold State.mbComplete
  repeat' first
    | fail_if_no_progress extract_lets
    | (with_reducible apply Acts.ite) <;> intro _
    | with_reducible apply Acts.refl
    | with_reducible assumption
    | with_reducible apply mbAnswer_trans
    | (with_reducible apply Acts.snd; with_reducible assumption)
    | split
    | exact nofun
    | dsimp -zeta only
theorem mbComplete_trans {p : Part} {box : Nat} {out : MbOut} {s : State} {s₀ : State} (h₀ : Acts p false s₀ s) : Acts p false s₀ (State.mbComplete p box out s) := h₀.trans (mbComplete_acts ..)
theorem mbComplete_keep {p : Part} {box : Nat} {out : MbOut} {s : State} {s₀ : State} (h₀ : Keep false s₀ s) : Keep false s₀ (State.mbComplete p box out s) := h₀.trans (mbComplete_acts ..).keep

theorem mbCompleteAll_acts (p : Part) (code : Nat) (out : MbOut) (s : State) : Acts p false s (State.mbCompleteAll p code out s) := by
  unfold State.mbCompleteAll
  repeat' first
    | fail_if_no_progress extract_lets
    | (with_reducible apply Acts.ite) <;> intro _
    | with_reducible apply Acts.refl
    | with_reducible assumption
    | with_reducible apply mbComplete_trans
    | ((with_reducible apply Acts.foldl_trans); intro _ _)
    | exact nofun
    | dsimp -zeta only
    | dsimp +zetaDelta -zeta only
theorem mbCompleteAll_trans {p : Part} {code : Nat} {out : MbOut} {s : State} {s₀ : State} (h₀ : Acts p false s₀ s) : Acts p false s₀ (State.mbCompleteAll p code out s) := h₀.trans (mbCompleteAll_acts ..)
theorem mbCompleteAll_keep {p : Part} {code : Nat} {out : MbOut} {s : State} {s₀ : State} (h₀ : Keep false s₀ s) : Keep false s₀ (State.mbCompleteAll p code out s) := h₀.trans (mbCompleteAll_acts ..).keep

theorem mbSubmit_acts (m : MbGo) (code : Nat) (s : State) : Acts m.part quiet s (State.mbSubmit m code s) := by
  obtain ⟨p, box, tag, irq, dma, req, args⟩ := m
  cases p
  all_goals unfold State.mbSubmit
  all_goals
  repeat' first
    | fail_if_no_progress extract_lets
    | (with_reducible apply Acts.ite) <;> intro _
    | with_reducible apply Acts.refl
    | with_reducible assumption
    | with_reducible apply put_trans
    | with_reducible apply putFlag_trans
    | with_reducible apply signal_trans
    | with_reducible apply setMail_trans
    | split
    | dsimp -zeta only
    | dsimp +zetaDelta -zeta only
    | (exfalso; simp_all; done)
theorem mbSubmit_trans {m : MbGo} {code : Nat} {s : State} {s₀ : State} (h₀ : Acts m.part quiet s₀ s) : Acts m.part quiet s₀ (State.mbSubmit m code s) := h₀.trans (mbSubmit_acts ..)
theorem mbSubmit_keep {m : MbGo} {code : Nat} {s : State} {s₀ : State} (h₀ : Keep quiet s₀ s) : Keep quiet s₀ (State.mbSubmit m code s) := h₀.trans (mbSubmit_acts ..).keep

/-- A mailbox command keeps what its body keeps. -/
theorem mailbox_any {m : MbGo} {code : Nat} {owner : Option Nat} {sig : List Nat} {jobArg : Option Nat} {body : List Nat → State → MbOut × State} {s : State}
    (h : ∀ a t, Acts m.part quiet t (body a t).2) (hd : quiet = true → m.dma = false) : Acts m.part quiet s (s.mailbox m code owner sig jobArg body) := by
  unfold State.mailbox
  split
  · exact raise_acts ..
  · dsimp only
    split
    · refine mbAnswer_trans ?_ hd
      split
      · exact (mbSubmit_acts ..).trans (put_acts ..)
      · exact mbSubmit_acts ..
    · exact mbAnswer_trans ((mbSubmit_acts ..).trans (h ..)) hd

theorem mailbox_keep {m : MbGo} {code : Nat} {owner : Option Nat} {sig : List Nat} {jobArg : Option Nat} {body : List Nat → State → MbOut × State} {s : State}
    (h : ∀ a t, Keep quiet t (body a t).2) (hd : quiet = true → m.dma = false) : Keep quiet s (s.mailbox m code owner sig jobArg body) := by
  unfold State.mailbox
  split
  · exact (raise_acts ..).keep
  · dsimp only
    split
    · refine mbAnswer_keep ?_ hd
      split
      · exact (mbSubmit_acts ..).keep.trans (put_acts ..).keep
      · exact (mbSubmit_acts ..).keep
    · exact mbAnswer_keep ((mbSubmit_acts ..).keep.trans (h ..)) hd

/-- A mailbox without an owner never reaches its body. -/
theorem mailbox_none {m : MbGo} {code : Nat} {sig : List Nat} {jobArg : Option Nat} {body : List Nat → State → MbOut × State} {s : State}
    (hd : quiet = true → m.dma = false) : Acts m.part quiet s (s.mailbox m code none sig jobArg body) := by
  unfold State.mailbox
  split
  · exact raise_acts ..
  · dsimp only
    split
    · refine mbAnswer_trans ?_ hd
      split
      · exact (mbSubmit_acts ..).trans (put_acts ..)
      · exact mbSubmit_acts ..
    · rename_i h
      exfalso
      revert h
      unfold State.mbGate
      split_ifs <;> simp

theorem mailbox_fd {m : MbGo} {code role : Nat} {sig : List Nat} {jobArg : Option Nat} {body : List Nat → State → MbOut × State} {s : State}
    (h : ∀ a t, Acts .fd quiet t (body a t).2) (hd : quiet = true → m.dma = false) : Acts m.part quiet s (s.mailbox m code (fdOnly m.part role) sig jobArg body) := by
  unfold fdOnly
  cases hp : m.part
  · rw [← hp] at h ⊢; exact mailbox_any h hd
  · rw [if_neg (by simp), ← hp]; exact mailbox_none hd

theorem mailbox_sc {m : MbGo} {code role : Nat} {sig : List Nat} {jobArg : Option Nat} {body : List Nat → State → MbOut × State} {s : State}
    (h : ∀ a t, Acts .sc quiet t (body a t).2) (hd : quiet = true → m.dma = false) : Acts m.part quiet s (s.mailbox m code (scOnly m.part role) sig jobArg body) := by
  unfold scOnly
  cases hp : m.part
  · rw [if_neg (by simp), ← hp]; exact mailbox_none hd
  · rw [← hp] at h ⊢; exact mailbox_any h hd

theorem mailbox_own2880 {m : MbGo} {code role : Nat} {sig : List Nat} {jobArg : Option Nat} {body : List Nat → State → MbOut × State} {s u : State}
    (h : ∀ a t, Acts .fd quiet t (body a t).2) (hd : quiet = true → m.dma = false) : Acts m.part quiet s (s.mailbox m code (u.own2880 m.part role) sig jobArg body) := by
  unfold State.own2880
  cases hp : m.part
  · rw [← hp] at h ⊢; exact mailbox_any h hd
  · rw [if_neg (by simp), ← hp]; exact mailbox_none hd

/-- What a command at the root keeps, its body does. -/
theorem atRoot_trans {p : Part} {s₀ s : State} {r : MbOut × State} (h : Acts p quiet s₀ r.2) (k : Acts p quiet s₀ s) : Acts p quiet s₀ (s.atRoot r).2 := by
  unfold State.atRoot
  split
  · exact h
  · exact k

theorem atRoot_keep {s₀ s : State} {r : MbOut × State} (h : Keep quiet s₀ r.2) (k : Keep quiet s₀ s) : Keep quiet s₀ (s.atRoot r).2 := by
  unfold State.atRoot
  split
  · exact h
  · exact k

theorem runPart_acts (p : Part) (k counts : Nat) (s : State) : Acts p quiet s (State.runPart p k counts s) := by
  unfold State.runPart
  repeat' first
    | fail_if_no_progress extract_lets
    | (with_reducible apply Acts.ite) <;> intro _
    | with_reducible apply Acts.refl
    | with_reducible assumption
    | with_reducible apply setUnit_trans
    | with_reducible apply put_trans
    | split
    | dsimp -zeta only
    | dsimp +zetaDelta -zeta only
theorem runPart_trans {p : Part} {k counts : Nat} {s : State} {s₀ : State} (h₀ : Acts p quiet s₀ s) : Acts p quiet s₀ (State.runPart p k counts s) := h₀.trans (runPart_acts ..)
theorem runPart_keep {p : Part} {k counts : Nat} {s : State} {s₀ : State} (h₀ : Keep quiet s₀ s) : Keep quiet s₀ (State.runPart p k counts s) := h₀.trans (runPart_acts ..).keep

theorem slewEnd_acts (s : State) : Acts .fd quiet s (State.slewEnd s) := by
  unfold State.slewEnd
  repeat' first
    | fail_if_no_progress extract_lets
    | (with_reducible apply Acts.ite) <;> intro _
    | with_reducible apply Acts.refl
    | with_reducible assumption
    | with_reducible apply put_trans
    | split
    | dsimp -zeta only
theorem slewEnd_trans {s : State} {s₀ : State} (h₀ : Acts .fd quiet s₀ s) : Acts .fd quiet s₀ (State.slewEnd s) := h₀.trans (slewEnd_acts ..)
theorem slewEnd_keep {s : State} {s₀ : State} (h₀ : Keep quiet s₀ s) : Keep quiet s₀ (State.slewEnd s) := h₀.trans (slewEnd_acts ..).keep

theorem pass_acts (k : Nat) (s : State) : Keep quiet s (State.pass k s) := by
  have h : Keep quiet s { s with now := s.now + 4 * k } := ⟨rfl, id, id, fun _ => ⟨rfl, rfl⟩⟩
  exact slewEnd_keep (runPart_keep (runPart_keep h))
theorem pass_keep {k : Nat} {s s₀ : State} (h₀ : Keep quiet s₀ s) : Keep quiet s₀ (State.pass k s) := h₀.trans (pass_acts ..)

theorem tick_acts (s : State) : Keep quiet s (State.tick s) := by
  unfold State.tick
  repeat' first
    | fail_if_no_progress extract_lets
    | (with_reducible apply Keep.ite) <;> intro _
    | with_reducible apply Keep.refl
    | with_reducible assumption
    | with_reducible apply pass_keep
    | dsimp -zeta only
theorem tick_keep {s : State} {s₀ : State} (h₀ : Keep quiet s₀ s) : Keep quiet s₀ (State.tick s) := h₀.trans (tick_acts ..)

theorem awaitNow_acts (t : Nat) (s : State) : Keep quiet s (State.awaitNow t s) := by
  unfold State.awaitNow
  repeat' first
    | fail_if_no_progress extract_lets
    | (with_reducible apply Keep.ite) <;> intro _
    | with_reducible apply Keep.refl
    | with_reducible assumption
    | with_reducible apply pass_keep
    | split
    | dsimp -zeta only
theorem awaitNow_keep {t : Nat} {s : State} {s₀ : State} (h₀ : Keep quiet s₀ s) : Keep quiet s₀ (State.awaitNow t s) := h₀.trans (awaitNow_acts ..)

theorem awaitHtFuel_acts (p : Part) (ns : Nat) (k : Nat) (s : State) : Keep quiet s (State.awaitHtFuel p ns k s) := by
  induction k generalizing s with
  | zero => exact Keep.refl s
  | succ k ih =>
    unfold State.awaitHtFuel
    split
    · exact Keep.refl s
    · exact (pass_acts ..).trans (ih _)
theorem awaitHtFuel_keep {p : Part} {ns k : Nat} {s s₀ : State} (h₀ : Keep quiet s₀ s) : Keep quiet s₀ (State.awaitHtFuel p ns k s) := h₀.trans (awaitHtFuel_acts ..)

theorem awaitHt_acts (p : Part) (ns : Nat) (s : State) : Keep quiet s (State.awaitHt p ns s) := by
  unfold State.awaitHt
  repeat' first
    | fail_if_no_progress extract_lets
    | (with_reducible apply Keep.ite) <;> intro _
    | with_reducible apply Keep.refl
    | with_reducible assumption
    | with_reducible apply awaitHtFuel_keep
    | split
    | dsimp -zeta only
theorem awaitHt_keep {p : Part} {ns : Nat} {s : State} {s₀ : State} (h₀ : Keep quiet s₀ s) : Keep quiet s₀ (State.awaitHt p ns s) := h₀.trans (awaitHt_acts ..)

theorem awaitBeat_acts (p : Part) (b : Nat) (s : State) : Keep quiet s (State.awaitBeat p b s) := by
  unfold State.awaitBeat
  repeat' first
    | fail_if_no_progress extract_lets
    | (with_reducible apply Keep.ite) <;> intro _
    | with_reducible apply Keep.refl
    | with_reducible assumption
    | with_reducible apply awaitHt_keep
    | dsimp -zeta only
theorem awaitBeat_keep {p : Part} {b : Nat} {s : State} {s₀ : State} (h₀ : Keep quiet s₀ s) : Keep quiet s₀ (State.awaitBeat p b s) := h₀.trans (awaitBeat_acts ..)

theorem awaitBeat32_acts (p : Part) (b : Nat) (s : State) : Keep quiet s (State.awaitBeat32 p b s) := by
  unfold State.awaitBeat32
  repeat' first
    | fail_if_no_progress extract_lets
    | (with_reducible apply Keep.ite) <;> intro _
    | with_reducible apply Keep.refl
    | with_reducible assumption
    | with_reducible apply awaitBeat_keep
    | split
    | dsimp -zeta only
    | dsimp +zetaDelta -zeta only
theorem awaitBeat32_keep {p : Part} {b : Nat} {s : State} {s₀ : State} (h₀ : Keep quiet s₀ s) : Keep quiet s₀ (State.awaitBeat32 p b s) := h₀.trans (awaitBeat32_acts ..)

theorem nextBeat_acts (p : Part) (s : State) : Keep quiet s (State.nextBeat p s) := by
  unfold State.nextBeat
  repeat' first
    | fail_if_no_progress extract_lets
    | (with_reducible apply Keep.ite) <;> intro _
    | with_reducible apply Keep.refl
    | with_reducible assumption
    | with_reducible apply awaitBeat_keep
    | dsimp -zeta only
theorem nextBeat_keep {p : Part} {s : State} {s₀ : State} (h₀ : Keep quiet s₀ s) : Keep quiet s₀ (State.nextBeat p s) := h₀.trans (nextBeat_acts ..)

theorem toBeat_acts (p : Part) (s : State) : Keep quiet s (State.toBeat p s) := by
  unfold State.toBeat
  repeat' first
    | fail_if_no_progress extract_lets
    | (with_reducible apply Keep.ite) <;> intro _
    | with_reducible apply Keep.refl
    | with_reducible assumption
    | with_reducible apply awaitBeat_keep
    | dsimp -zeta only
theorem toBeat_keep {p : Part} {s : State} {s₀ : State} (h₀ : Keep quiet s₀ s) : Keep quiet s₀ (State.toBeat p s) := h₀.trans (toBeat_acts ..)

theorem periodic_acts (p : Part) (key m r : Nat) (s : State) : Keep quiet s (State.periodic p key m r s) := by
  unfold State.periodic
  repeat' first
    | fail_if_no_progress extract_lets
    | (with_reducible apply Keep.ite) <;> intro _
    | with_reducible apply Keep.refl
    | with_reducible assumption
    | with_reducible apply setUnit_keep
    | with_reducible apply awaitBeat_keep
    | split
    | dsimp -zeta only
    | dsimp +zetaDelta -zeta only
theorem periodic_keep {p : Part} {key m r : Nat} {s : State} {s₀ : State} (h₀ : Keep quiet s₀ s) : Keep quiet s₀ (State.periodic p key m r s) := h₀.trans (periodic_acts ..)

theorem loadHt_acts (p : Part) (ht : Nat) (s : State) : Acts p quiet s (State.loadHt p ht s) := by
  unfold State.loadHt
  repeat' first
    | fail_if_no_progress extract_lets
    | (with_reducible apply Acts.ite) <;> intro _
    | with_reducible apply Acts.refl
    | with_reducible assumption
    | with_reducible apply setUnit_trans
    | with_reducible apply closeBlock_trans
    | (with_reducible apply Acts.snd; with_reducible assumption)
    | split
    | dsimp -zeta only
    | dsimp +zetaDelta -zeta only
theorem loadHt_trans {p : Part} {ht : Nat} {s : State} {s₀ : State} (h₀ : Acts p quiet s₀ s) : Acts p quiet s₀ (State.loadHt p ht s) := h₀.trans (loadHt_acts ..)
theorem loadHt_keep {p : Part} {ht : Nat} {s : State} {s₀ : State} (h₀ : Keep quiet s₀ s) : Keep quiet s₀ (State.loadHt p ht s) := h₀.trans (loadHt_acts ..).keep

theorem snapshotRead_acts (p : Part) (req size : Nat) (s : State) : Acts p quiet s (State.snapshotRead p req size s) := by
  unfold State.snapshotRead
  repeat' first
    | fail_if_no_progress extract_lets
    | (with_reducible apply Acts.ite) <;> intro _
    | with_reducible apply Acts.refl
    | with_reducible assumption
    | with_reducible apply setSlate_trans
    | dsimp -zeta only
    | dsimp +zetaDelta -zeta only
theorem snapshotRead_trans {p : Part} {req size : Nat} {s : State} {s₀ : State} (h₀ : Acts p quiet s₀ s) : Acts p quiet s₀ (State.snapshotRead p req size s) := h₀.trans (snapshotRead_acts ..)
theorem snapshotRead_keep {p : Part} {req size : Nat} {s : State} {s₀ : State} (h₀ : Keep quiet s₀ s) : Keep quiet s₀ (State.snapshotRead p req size s) := h₀.trans (snapshotRead_acts ..).keep

theorem execHtSnapshotRead_acts (p : Part) (req size : Nat) (s : State) : ActsO p quiet s (execHtSnapshotRead p req size s) := by
  unfold execHtSnapshotRead
  repeat' first
    | fail_if_no_progress extract_lets
    | (with_reducible apply ActsO.ite) <;> intro _
    | with_reducible apply ActsO.next
    | (with_reducible apply Acts.ite) <;> intro _
    | with_reducible apply Acts.refl
    | with_reducible assumption
    | with_reducible apply snapshotRead_trans
    | dsimp -zeta only

theorem execHtWrap_acts (p : Part) (s : State) : KeepO quiet s (execHtWrap p s) := by
  unfold execHtWrap
  repeat' first
    | fail_if_no_progress extract_lets
    | (with_reducible apply KeepO.ite) <;> intro _
    | with_reducible apply KeepO.next
    | (with_reducible apply Keep.ite) <;> intro _
    | with_reducible apply Keep.refl
    | with_reducible assumption
    | with_reducible apply pass_keep
    | with_reducible apply awaitHt_keep
    | dsimp -zeta only

theorem setRung_acts (p : Part) (u n rung since : Nat) (s : State) : Acts p quiet s (State.setRung p u n rung since s) := by
  unfold State.setRung
  repeat' first
    | fail_if_no_progress extract_lets
    | (with_reducible apply Acts.ite) <;> intro _
    | with_reducible apply Acts.refl
    | with_reducible assumption
    | with_reducible apply setStart_trans
    | dsimp -zeta only
theorem setRung_trans {p : Part} {u n rung since : Nat} {s : State} {s₀ : State} (h₀ : Acts p quiet s₀ s) : Acts p quiet s₀ (State.setRung p u n rung since s) := h₀.trans (setRung_acts ..)
theorem setRung_keep {p : Part} {u n rung since : Nat} {s : State} {s₀ : State} (h₀ : Keep quiet s₀ s) : Keep quiet s₀ (State.setRung p u n rung since s) := h₀.trans (setRung_acts ..).keep

theorem wake_acts (p : Part) (u n : Nat) (s : State) : Acts p quiet s (State.wake p u n s) := by
  unfold State.wake
  repeat' first
    | fail_if_no_progress extract_lets
    | (with_reducible apply Acts.ite) <;> intro _
    | with_reducible apply Acts.refl
    | with_reducible assumption
    | with_reducible apply put_trans
    | with_reducible apply bump_trans
    | with_reducible apply setRung_trans
    | split
    | dsimp -zeta only
    | dsimp +zetaDelta -zeta only
theorem wake_trans {p : Part} {u n : Nat} {s : State} {s₀ : State} (h₀ : Acts p quiet s₀ s) : Acts p quiet s₀ (State.wake p u n s) := h₀.trans (wake_acts ..)
theorem wake_keep {p : Part} {u n : Nat} {s : State} {s₀ : State} (h₀ : Keep quiet s₀ s) : Keep quiet s₀ (State.wake p u n s) := h₀.trans (wake_acts ..).keep

theorem wakeAll_acts (p : Part) (u : Nat) (s : State) : Acts p quiet s (State.wakeAll p u s) := by
  unfold State.wakeAll
  repeat' first
    | fail_if_no_progress extract_lets
    | (with_reducible apply Acts.ite) <;> intro _
    | with_reducible apply Acts.refl
    | with_reducible assumption
    | with_reducible apply wake_trans
    | ((with_reducible apply Acts.foldl_trans); intro _ _)
    | split
    | dsimp -zeta only
theorem wakeAll_trans {p : Part} {u : Nat} {s : State} {s₀ : State} (h₀ : Acts p quiet s₀ s) : Acts p quiet s₀ (State.wakeAll p u s) := h₀.trans (wakeAll_acts ..)
theorem wakeAll_keep {p : Part} {u : Nat} {s : State} {s₀ : State} (h₀ : Keep quiet s₀ s) : Keep quiet s₀ (State.wakeAll p u s) := h₀.trans (wakeAll_acts ..).keep

theorem holdLadder_acts (s : State) : Acts .sc quiet s (State.holdLadder s) := by
  unfold State.holdLadder
  repeat' first
    | fail_if_no_progress extract_lets
    | (with_reducible apply Acts.ite) <;> intro _
    | with_reducible apply Acts.refl
    | with_reducible assumption
    | with_reducible apply put_trans
    | with_reducible apply wake_trans
    | ((with_reducible apply Acts.foldl_trans); intro _ _)
    | dsimp -zeta only
    | dsimp +zetaDelta -zeta only
theorem holdLadder_trans {s : State} {s₀ : State} (h₀ : Acts .sc quiet s₀ s) : Acts .sc quiet s₀ (State.holdLadder s) := h₀.trans (holdLadder_acts ..)
theorem holdLadder_keep {s : State} {s₀ : State} (h₀ : Keep quiet s₀ s) : Keep quiet s₀ (State.holdLadder s) := h₀.trans (holdLadder_acts ..).keep

theorem unholdLadder_acts (s : State) : Acts .sc quiet s (State.unholdLadder s) := by
  unfold State.unholdLadder
  repeat' first
    | fail_if_no_progress extract_lets
    | (with_reducible apply Acts.ite) <;> intro _
    | with_reducible apply Acts.refl
    | with_reducible assumption
    | with_reducible apply put_trans
    | with_reducible apply setRung_trans
    | ((with_reducible apply Acts.foldl_trans); intro _ _)
    | dsimp -zeta only
    | dsimp +zetaDelta -zeta only
theorem unholdLadder_trans {s : State} {s₀ : State} (h₀ : Acts .sc quiet s₀ s) : Acts .sc quiet s₀ (State.unholdLadder s) := h₀.trans (unholdLadder_acts ..)
theorem unholdLadder_keep {s : State} {s₀ : State} (h₀ : Keep quiet s₀ s) : Keep quiet s₀ (State.unholdLadder s) := h₀.trans (unholdLadder_acts ..).keep

theorem execLadderDescend_acts (p : Part) (u unit : Nat) (s : State) : KeepO quiet s (execLadderDescend p u unit s) := by
  unfold execLadderDescend
  repeat' first
    | fail_if_no_progress extract_lets
    | (with_reducible apply KeepO.ite) <;> intro _
    | with_reducible apply KeepO.next
    | (with_reducible apply Keep.ite) <;> intro _
    | with_reducible apply Keep.refl
    | with_reducible assumption
    | with_reducible apply put_keep
    | with_reducible apply awaitNow_keep
    | with_reducible apply setRung_keep
    | split
    | dsimp -zeta only
    | dsimp +zetaDelta -zeta only

theorem execLadderWake_acts (p : Part) (u unit : Nat) (s : State) : ActsO p quiet s (execLadderWake p u unit s) := by
  unfold execLadderWake
  repeat' first
    | fail_if_no_progress extract_lets
    | (with_reducible apply ActsO.ite) <;> intro _
    | with_reducible apply ActsO.next
    | (with_reducible apply Acts.ite) <;> intro _
    | with_reducible apply Acts.refl
    | with_reducible assumption
    | with_reducible apply wake_trans
    | dsimp -zeta only

theorem setPair_acts (a : TdcAt) (q : TdcPair) (s : State) : Acts a.part quiet s (State.setPair a q s) := by
  cases a
  all_goals unfold State.setPair
  all_goals
  repeat' first
    | fail_if_no_progress extract_lets
    | (with_reducible apply Acts.ite) <;> intro _
    | with_reducible apply Acts.refl
    | with_reducible assumption
    | with_reducible apply setUnit_trans
    | with_reducible apply setDist_trans
    | with_reducible apply put_trans
    | with_reducible apply putFlag_trans
    | with_reducible apply modLink_trans
    | (with_reducible apply Acts.snd; with_reducible assumption)
    | split
    | dsimp -zeta only
    | dsimp +zetaDelta -zeta only
    | (exfalso; simp_all; done)
theorem setPair_trans {a : TdcAt} {q : TdcPair} {s : State} {s₀ : State} (h₀ : Acts a.part quiet s₀ s) : Acts a.part quiet s₀ (State.setPair a q s) := h₀.trans (setPair_acts ..)
theorem setPair_keep {a : TdcAt} {q : TdcPair} {s : State} {s₀ : State} (h₀ : Keep quiet s₀ s) : Keep quiet s₀ (State.setPair a q s) := h₀.trans (setPair_acts ..).keep

theorem pairNow_acts (a : TdcAt) (q : TdcPair) (s : State) : Acts a.part quiet s (State.pairNow a q s) := by
  unfold State.pairNow
  repeat' first
    | fail_if_no_progress extract_lets
    | (with_reducible apply Acts.ite) <;> intro _
    | with_reducible apply Acts.refl
    | with_reducible assumption
    | with_reducible apply faultLog_trans
    | with_reducible apply faultAlert_trans
    | with_reducible apply setPair_trans
    | split
    | dsimp -zeta only
    | dsimp +zetaDelta -zeta only
theorem pairNow_trans {a : TdcAt} {q : TdcPair} {s : State} {s₀ : State} (h₀ : Acts a.part quiet s₀ s) : Acts a.part quiet s₀ (State.pairNow a q s) := h₀.trans (pairNow_acts ..)
theorem pairNow_keep {a : TdcAt} {q : TdcPair} {s : State} {s₀ : State} (h₀ : Keep quiet s₀ s) : Keep quiet s₀ (State.pairNow a q s) := h₀.trans (pairNow_acts ..).keep

theorem pairEdge_acts (a : TdcAt) (twin : Option Int) (s : State) : Acts a.part quiet s (State.pairEdge a twin s) := by
  unfold State.pairEdge
  repeat' first
    | fail_if_no_progress extract_lets
    | (with_reducible apply Acts.ite) <;> intro _
    | with_reducible apply Acts.refl
    | with_reducible assumption
    | with_reducible apply pairNow_trans
    | dsimp -zeta only
theorem pairEdge_trans {a : TdcAt} {twin : Option Int} {s : State} {s₀ : State} (h₀ : Acts a.part quiet s₀ s) : Acts a.part quiet s₀ (State.pairEdge a twin s) := h₀.trans (pairEdge_acts ..)
theorem pairEdge_keep {a : TdcAt} {twin : Option Int} {s : State} {s₀ : State} (h₀ : Keep quiet s₀ s) : Keep quiet s₀ (State.pairEdge a twin s) := h₀.trans (pairEdge_acts ..).keep

theorem pairCal_acts (a : TdcAt) (s : State) : Acts a.part quiet s (State.pairCal a s) := by
  unfold State.pairCal
  repeat' first
    | fail_if_no_progress extract_lets
    | (with_reducible apply Acts.ite) <;> intro _
    | with_reducible apply Acts.refl
    | with_reducible assumption
    | with_reducible apply setPair_trans
    | split
    | dsimp -zeta only
theorem pairCal_trans {a : TdcAt} {s : State} {s₀ : State} (h₀ : Acts a.part quiet s₀ s) : Acts a.part quiet s₀ (State.pairCal a s) := h₀.trans (pairCal_acts ..)
theorem pairCal_keep {a : TdcAt} {s : State} {s₀ : State} (h₀ : Keep quiet s₀ s) : Keep quiet s₀ (State.pairCal a s) := h₀.trans (pairCal_acts ..).keep

theorem execTdcCalStart_acts (a : TdcAt) (temp : Int) (s : State) : ActsO a.part quiet s (execTdcCalStart a temp s) := by
  unfold execTdcCalStart
  repeat' first
    | fail_if_no_progress extract_lets
    | (with_reducible apply ActsO.ite) <;> intro _
    | with_reducible apply ActsO.next
    | (with_reducible apply Acts.ite) <;> intro _
    | with_reducible apply Acts.refl
    | with_reducible assumption
    | with_reducible apply setPair_trans
    | split
    | dsimp -zeta only
    | dsimp +zetaDelta -zeta only

theorem execTdcCalTableDone_acts (a : TdcAt) (hits : List Nat) (s : State) : ActsO a.part quiet s (execTdcCalTableDone a hits s) := by
  unfold execTdcCalTableDone
  repeat' first
    | fail_if_no_progress extract_lets
    | (with_reducible apply ActsO.ite) <;> intro _
    | with_reducible apply ActsO.next
    | (with_reducible apply Acts.ite) <;> intro _
    | with_reducible apply Acts.refl
    | with_reducible assumption
    | with_reducible apply setPair_trans
    | with_reducible apply pairNow_trans
    | split
    | dsimp -zeta only
    | dsimp +zetaDelta -zeta only

theorem execTdcCheckTimeout_acts (a : TdcAt) (s : State) : KeepO quiet s (execTdcCheckTimeout a s) := by
  unfold execTdcCheckTimeout
  repeat' first
    | fail_if_no_progress extract_lets
    | (with_reducible apply KeepO.ite) <;> intro _
    | with_reducible apply KeepO.next
    | (with_reducible apply Keep.ite) <;> intro _
    | with_reducible apply Keep.refl
    | with_reducible assumption
    | with_reducible apply awaitNow_keep
    | with_reducible apply setPair_keep
    | dsimp -zeta only
    | dsimp +zetaDelta -zeta only

end Sys2Proof.Machine
end

