-- ==== Sys2Proof/Laws/ActsReferences.lean ====
section
/-! SUPPORT. One lemma an operation: what it keeps (Acts, Keep). -/

namespace Sys2Proof.Machine

open Sys2Proof

set_option linter.unusedTactic false
set_option linter.unreachableTactic false
set_option linter.unusedVariables false

variable {quiet : Bool}

theorem setRef_acts (x : RefIn) (r : RefSt) (s : State) : Acts .fd quiet s (State.setRef x r s) := by
  unfold State.setRef
  repeat' first
    | fail_if_no_progress extract_lets
    | (with_reducible apply Acts.ite) <;> intro _
    | with_reducible apply Acts.refl
    | with_reducible assumption
    | with_reducible apply setDist_trans
    | (with_reducible apply Acts.snd; with_reducible assumption)
    | split
    | dsimp -zeta only
theorem setRef_trans {x : RefIn} {r : RefSt} {s : State} {s₀ : State} (h₀ : Acts .fd quiet s₀ s) : Acts .fd quiet s₀ (State.setRef x r s) := h₀.trans (setRef_acts ..)
theorem setRef_keep {x : RefIn} {r : RefSt} {s : State} {s₀ : State} (h₀ : Keep quiet s₀ s) : Keep quiet s₀ (State.setRef x r s) := h₀.trans (setRef_acts ..).keep

theorem setHold_acts (h : HoldSt) (s : State) : Acts .fd quiet s (State.setHold h s) := by
  unfold State.setHold
  repeat' first
    | fail_if_no_progress extract_lets
    | (with_reducible apply Acts.ite) <;> intro _
    | with_reducible apply Acts.refl
    | with_reducible assumption
    | with_reducible apply setDist_trans
    | dsimp -zeta only
theorem setHold_trans {h : HoldSt} {s : State} {s₀ : State} (h₀ : Acts .fd quiet s₀ s) : Acts .fd quiet s₀ (State.setHold h s) := h₀.trans (setHold_acts ..)
theorem setHold_keep {h : HoldSt} {s : State} {s₀ : State} (h₀ : Keep quiet s₀ s) : Keep quiet s₀ (State.setHold h s) := h₀.trans (setHold_acts ..).keep

theorem refEvent_acts (src ev : Nat) (off : Option Int) (s : State) : Acts .fd quiet s (State.refEvent src ev off s) := by
  unfold State.refEvent
  repeat' first
    | fail_if_no_progress extract_lets
    | (with_reducible apply Acts.ite) <;> intro _
    | with_reducible apply Acts.refl
    | with_reducible assumption
    | with_reducible apply record_trans
    | (with_reducible apply Acts.snd; with_reducible assumption)
    | split
    | dsimp -zeta only
    | dsimp +zetaDelta -zeta only
theorem refEvent_trans {src ev : Nat} {off : Option Int} {s : State} {s₀ : State} (h₀ : Acts .fd quiet s₀ s) : Acts .fd quiet s₀ (State.refEvent src ev off s) := h₀.trans (refEvent_acts ..)
theorem refEvent_keep {src ev : Nat} {off : Option Int} {s : State} {s₀ : State} (h₀ : Keep quiet s₀ s) : Keep quiet s₀ (State.refEvent src ev off s) := h₀.trans (refEvent_acts ..).keep

theorem setOut_acts (n : Nat) (o : OutSt) (s : State) : Acts .fd quiet s (State.setOut n o s) := by
  unfold State.setOut
  repeat' first
    | fail_if_no_progress extract_lets
    | (with_reducible apply Acts.ite) <;> intro _
    | with_reducible apply Acts.refl
    | with_reducible assumption
    | with_reducible apply setDist_trans
    | dsimp -zeta only
theorem setOut_trans {n : Nat} {o : OutSt} {s : State} {s₀ : State} (h₀ : Acts .fd quiet s₀ s) : Acts .fd quiet s₀ (State.setOut n o s) := h₀.trans (setOut_acts ..)
theorem setOut_keep {n : Nat} {o : OutSt} {s : State} {s₀ : State} (h₀ : Keep quiet s₀ s) : Keep quiet s₀ (State.setOut n o s) := h₀.trans (setOut_acts ..).keep

theorem startMove_acts (n : Nat) (step : Bool) (s : State) : Acts .fd quiet s (State.startMove n step s) := by
  unfold State.startMove
  repeat' first
    | fail_if_no_progress extract_lets
    | (with_reducible apply Acts.ite) <;> intro _
    | with_reducible apply Acts.refl
    | with_reducible assumption
    | with_reducible apply put_trans
    | with_reducible apply setOut_trans
    | dsimp -zeta only
    | dsimp +zetaDelta -zeta only
theorem startMove_trans {n : Nat} {step : Bool} {s : State} {s₀ : State} (h₀ : Acts .fd quiet s₀ s) : Acts .fd quiet s₀ (State.startMove n step s) := h₀.trans (startMove_acts ..)
theorem startMove_keep {n : Nat} {step : Bool} {s : State} {s₀ : State} (h₀ : Keep quiet s₀ s) : Keep quiet s₀ (State.startMove n step s) := h₀.trans (startMove_acts ..).keep

theorem outsFallback_acts (x : RefIn) (s : State) : Acts .fd quiet s (State.outsFallback x s) := by
  unfold State.outsFallback
  repeat' first
    | fail_if_no_progress extract_lets
    | (with_reducible apply Acts.ite) <;> intro _
    | with_reducible apply Acts.refl
    | with_reducible assumption
    | with_reducible apply put_trans
    | with_reducible apply setOut_trans
    | ((with_reducible apply Acts.foldl_trans); intro _ _)
    | split
    | dsimp -zeta only
theorem outsFallback_trans {x : RefIn} {s : State} {s₀ : State} (h₀ : Acts .fd quiet s₀ s) : Acts .fd quiet s₀ (State.outsFallback x s) := h₀.trans (outsFallback_acts ..)
theorem outsFallback_keep {x : RefIn} {s : State} {s₀ : State} (h₀ : Keep quiet s₀ s) : Keep quiet s₀ (State.outsFallback x s) := h₀.trans (outsFallback_acts ..).keep

theorem muteOuts_acts (s : State) : Acts .fd quiet s (State.muteOuts s) := by
  unfold State.muteOuts
  repeat' first
    | fail_if_no_progress extract_lets
    | (with_reducible apply Acts.ite) <;> intro _
    | with_reducible apply Acts.refl
    | with_reducible assumption
    | with_reducible apply setOut_trans
    | ((with_reducible apply Acts.foldl_trans); intro _ _)
    | split
    | dsimp -zeta only
    | dsimp +zetaDelta -zeta only
theorem muteOuts_trans {s : State} {s₀ : State} (h₀ : Acts .fd quiet s₀ s) : Acts .fd quiet s₀ (State.muteOuts s) := h₀.trans (muteOuts_acts ..)
theorem muteOuts_keep {s : State} {s₀ : State} (h₀ : Keep quiet s₀ s) : Keep quiet s₀ (State.muteOuts s) := h₀.trans (muteOuts_acts ..).keep

theorem outsReturn_acts (x : RefIn) (s : State) : Acts .fd quiet s (State.outsReturn x s) := by
  unfold State.outsReturn
  repeat' first
    | fail_if_no_progress extract_lets
    | (with_reducible apply Acts.ite) <;> intro _
    | with_reducible apply Acts.refl
    | with_reducible assumption
    | with_reducible apply setOut_trans
    | with_reducible apply startMove_trans
    | with_reducible apply muteOuts_trans
    | ((with_reducible apply Acts.foldl_trans); intro _ _)
    | split
    | dsimp -zeta only
    | dsimp +zetaDelta -zeta only
theorem outsReturn_trans {x : RefIn} {s : State} {s₀ : State} (h₀ : Acts .fd quiet s₀ s) : Acts .fd quiet s₀ (State.outsReturn x s) := h₀.trans (outsReturn_acts ..)
theorem outsReturn_keep {x : RefIn} {s : State} {s₀ : State} (h₀ : Keep quiet s₀ s) : Keep quiet s₀ (State.outsReturn x s) := h₀.trans (outsReturn_acts ..).keep

theorem slewTo_acts (off : Int) (rate : Nat) (s : State) : Acts .fd quiet s (State.slewTo off rate s) := by
  unfold State.slewTo
  repeat' first
    | fail_if_no_progress extract_lets
    | (with_reducible apply Acts.ite) <;> intro _
    | with_reducible apply Acts.refl
    | with_reducible assumption
    | with_reducible apply setUnit_trans
    | dsimp -zeta only
theorem slewTo_trans {off : Int} {rate : Nat} {s : State} {s₀ : State} (h₀ : Acts .fd quiet s₀ s) : Acts .fd quiet s₀ (State.slewTo off rate s) := h₀.trans (slewTo_acts ..)
theorem slewTo_keep {off : Int} {rate : Nat} {s : State} {s₀ : State} (h₀ : Keep quiet s₀ s) : Keep quiet s₀ (State.slewTo off rate s) := h₀.trans (slewTo_acts ..).keep

theorem acceptFlag_acts (s : State) : Acts .fd quiet s (State.acceptFlag s) := by
  unfold State.acceptFlag
  repeat' first
    | fail_if_no_progress extract_lets
    | (with_reducible apply Acts.ite) <;> intro _
    | with_reducible apply Acts.refl
    | with_reducible assumption
    | with_reducible apply putFlag_trans
    | split
    | dsimp -zeta only
theorem acceptFlag_trans {s : State} {s₀ : State} (h₀ : Acts .fd quiet s₀ s) : Acts .fd quiet s₀ (State.acceptFlag s) := h₀.trans (acceptFlag_acts ..)
theorem acceptFlag_keep {s : State} {s₀ : State} (h₀ : Keep quiet s₀ s) : Keep quiet s₀ (State.acceptFlag s) := h₀.trans (acceptFlag_acts ..).keep

theorem adopt_acts (x : RefIn) (s : State) : Acts .fd quiet s (State.adopt x s) := by
  unfold State.adopt
  repeat' first
    | fail_if_no_progress extract_lets
    | (with_reducible apply Acts.ite) <;> intro _
    | with_reducible apply Acts.refl
    | with_reducible assumption
    | with_reducible apply put_trans
    | with_reducible apply putFlag_trans
    | with_reducible apply putS_trans
    | with_reducible apply setRef_trans
    | with_reducible apply slewTo_trans
    | with_reducible apply acceptFlag_trans
    | (with_reducible apply Acts.snd; with_reducible assumption)
    | split
    | dsimp -zeta only
    | dsimp +zetaDelta -zeta only
theorem adopt_trans {x : RefIn} {s : State} {s₀ : State} (h₀ : Acts .fd quiet s₀ s) : Acts .fd quiet s₀ (State.adopt x s) := h₀.trans (adopt_acts ..)
theorem adopt_keep {x : RefIn} {s : State} {s₀ : State} (h₀ : Keep quiet s₀ s) : Keep quiet s₀ (State.adopt x s) := h₀.trans (adopt_acts ..).keep

theorem revertiveWait_acts (s : State) : Acts .fd quiet s (State.revertiveWait s) := by
  unfold State.revertiveWait
  repeat' first
    | fail_if_no_progress extract_lets
    | (with_reducible apply Acts.ite) <;> intro _
    | with_reducible apply Acts.refl
    | with_reducible assumption
    | with_reducible apply putFlag_trans
    | with_reducible apply setRef_trans
    | split
    | dsimp -zeta only
    | dsimp +zetaDelta -zeta only
theorem revertiveWait_trans {s : State} {s₀ : State} (h₀ : Acts .fd quiet s₀ s) : Acts .fd quiet s₀ (State.revertiveWait s) := h₀.trans (revertiveWait_acts ..)
theorem revertiveWait_keep {s : State} {s₀ : State} (h₀ : Keep quiet s₀ s) : Keep quiet s₀ (State.revertiveWait s) := h₀.trans (revertiveWait_acts ..).keep

theorem refuseRef_acts (x : RefIn) (s : State) : Acts .fd quiet s (State.refuseRef x s) := by
  unfold State.refuseRef
  repeat' first
    | fail_if_no_progress extract_lets
    | (with_reducible apply Acts.ite) <;> intro _
    | with_reducible apply Acts.refl
    | with_reducible assumption
    | with_reducible apply put_trans
    | with_reducible apply setRef_trans
    | with_reducible apply refEvent_trans
    | dsimp -zeta only
    | dsimp +zetaDelta -zeta only
theorem refuseRef_trans {x : RefIn} {s : State} {s₀ : State} (h₀ : Acts .fd quiet s₀ s) : Acts .fd quiet s₀ (State.refuseRef x s) := h₀.trans (refuseRef_acts ..)
theorem refuseRef_keep {x : RefIn} {s : State} {s₀ : State} (h₀ : Keep quiet s₀ s) : Keep quiet s₀ (State.refuseRef x s) := h₀.trans (refuseRef_acts ..).keep

theorem enterHoldover_acts (s : State) : Acts .fd quiet s (State.enterHoldover s) := by
  unfold State.enterHoldover
  repeat' first
    | fail_if_no_progress extract_lets
    | (with_reducible apply Acts.ite) <;> intro _
    | with_reducible apply Acts.refl
    | with_reducible assumption
    | with_reducible apply put_trans
    | with_reducible apply setHold_trans
    | with_reducible apply refEvent_trans
    | with_reducible apply slewTo_trans
    | dsimp -zeta only
    | dsimp +zetaDelta -zeta only
theorem enterHoldover_trans {s : State} {s₀ : State} (h₀ : Acts .fd quiet s₀ s) : Acts .fd quiet s₀ (State.enterHoldover s) := h₀.trans (enterHoldover_acts ..)
theorem enterHoldover_keep {s : State} {s₀ : State} (h₀ : Keep quiet s₀ s) : Keep quiet s₀ (State.enterHoldover s) := h₀.trans (enterHoldover_acts ..).keep

theorem selectFrom_acts (l : List RefIn) (s : State) : Acts .fd quiet s (State.selectFrom l s).2 := by
  induction l generalizing s with
  | nil => exact Acts.refl ..
  | cons x t ih =>
    unfold State.selectFrom
    split
    · split
      · exact adopt_acts ..
      · exact (refuseRef_acts ..).trans (ih _)
    · exact ih _
theorem selectFrom_trans {l : List RefIn} {s s₀ : State} (h₀ : Acts .fd quiet s₀ s) : Acts .fd quiet s₀ (State.selectFrom l s).2 := h₀.trans (selectFrom_acts ..)
theorem selectFrom_keep {l : List RefIn} {s s₀ : State} (h₀ : Keep quiet s₀ s) : Keep quiet s₀ (State.selectFrom l s).2 := h₀.trans (selectFrom_acts ..).keep

theorem selectUnformed_acts (s : State) : Acts .fd quiet s (State.selectUnformed s) := by
  unfold State.selectUnformed
  repeat' first
    | fail_if_no_progress extract_lets
    | (with_reducible apply Acts.ite) <;> intro _
    | with_reducible apply Acts.refl
    | with_reducible assumption
    | with_reducible apply put_trans
    | (with_reducible apply Acts.snd; with_reducible assumption)
    | split
    | dsimp -zeta only
theorem selectUnformed_trans {s : State} {s₀ : State} (h₀ : Acts .fd quiet s₀ s) : Acts .fd quiet s₀ (State.selectUnformed s) := h₀.trans (selectUnformed_acts ..)
theorem selectUnformed_keep {s : State} {s₀ : State} (h₀ : Keep quiet s₀ s) : Keep quiet s₀ (State.selectUnformed s) := h₀.trans (selectUnformed_acts ..).keep

theorem refReady_acts (x : RefIn) (s : State) : Acts .fd quiet s (State.refReady x s) := by
  unfold State.refReady
  repeat' first
    | fail_if_no_progress extract_lets
    | (with_reducible apply Acts.ite) <;> intro _
    | with_reducible apply Acts.refl
    | with_reducible assumption
    | with_reducible apply adopt_trans
    | with_reducible apply revertiveWait_trans
    | with_reducible apply refuseRef_trans
    | with_reducible apply selectFrom_trans
    | with_reducible apply selectUnformed_trans
    | ((with_reducible apply Acts.foldl_trans); intro _ _)
    | split
    | dsimp -zeta only
theorem refReady_trans {x : RefIn} {s : State} {s₀ : State} (h₀ : Acts .fd quiet s₀ s) : Acts .fd quiet s₀ (State.refReady x s) := h₀.trans (refReady_acts ..)
theorem refReady_keep {x : RefIn} {s : State} {s₀ : State} (h₀ : Keep quiet s₀ s) : Keep quiet s₀ (State.refReady x s) := h₀.trans (refReady_acts ..).keep

theorem abandonForm_acts (x : RefIn) (s : State) : Acts .fd false s (State.abandonForm x s) := by
  unfold State.abandonForm
  repeat' first
    | fail_if_no_progress extract_lets
    | (with_reducible apply Acts.ite) <;> intro _
    | with_reducible apply Acts.refl
    | with_reducible assumption
    | with_reducible apply setHall_trans
    | with_reducible apply mbCompleteAll_trans
    | ((with_reducible apply Acts.foldl_trans); intro _ _)
    | split
    | exact nofun
    | dsimp -zeta only
    | dsimp +zetaDelta -zeta only
theorem abandonForm_trans {x : RefIn} {s : State} {s₀ : State} (h₀ : Acts .fd false s₀ s) : Acts .fd false s₀ (State.abandonForm x s) := h₀.trans (abandonForm_acts ..)
theorem abandonForm_keep {x : RefIn} {s : State} {s₀ : State} (h₀ : Keep false s₀ s) : Keep false s₀ (State.abandonForm x s) := h₀.trans (abandonForm_acts ..).keep

theorem disqualify_acts (x : RefIn) (s : State) : Keep false s (State.disqualify x s) := by
  unfold State.disqualify
  repeat' first
    | fail_if_no_progress extract_lets
    | (with_reducible apply Keep.ite) <;> intro _
    | with_reducible apply Keep.refl
    | with_reducible assumption
    | with_reducible apply put_keep
    | with_reducible apply nextBeat_keep
    | with_reducible apply setRef_keep
    | with_reducible apply refEvent_keep
    | with_reducible apply outsFallback_keep
    | with_reducible apply revertiveWait_keep
    | with_reducible apply enterHoldover_keep
    | with_reducible apply selectFrom_keep
    | with_reducible apply selectUnformed_keep
    | with_reducible apply abandonForm_keep
    | ((with_reducible apply Keep.foldl_trans); intro _ _)
    | split
    | exact nofun
    | dsimp -zeta only
    | dsimp +zetaDelta -zeta only
theorem disqualify_keep {x : RefIn} {s : State} {s₀ : State} (h₀ : Keep false s₀ s) : Keep false s₀ (State.disqualify x s) := h₀.trans (disqualify_acts ..)

theorem execRefGateEnd_acts (x : RefIn) (g : GateMeas) (s : State) : KeepO false s (execRefGateEnd x g s) := by
  unfold execRefGateEnd
  repeat' first
    | fail_if_no_progress extract_lets
    | (with_reducible apply KeepO.ite) <;> intro _
    | with_reducible apply KeepO.next
    | (with_reducible apply Keep.ite) <;> intro _
    | with_reducible apply Keep.refl
    | with_reducible assumption
    | with_reducible apply put_keep
    | with_reducible apply awaitNow_keep
    | with_reducible apply setRef_keep
    | with_reducible apply outsReturn_keep
    | with_reducible apply refReady_keep
    | with_reducible apply disqualify_keep
    | split
    | exact nofun
    | dsimp -zeta only
    | dsimp +zetaDelta -zeta only

theorem execRefDisqualify_acts (x : RefIn) (x_breach : RefBreach) (s : State) : KeepO false s (execRefDisqualify x x_breach s) := by
  unfold execRefDisqualify
  repeat' first
    | fail_if_no_progress extract_lets
    | (with_reducible apply KeepO.ite) <;> intro _
    | with_reducible apply KeepO.next
    | (with_reducible apply Keep.ite) <;> intro _
    | with_reducible apply Keep.refl
    | with_reducible assumption
    | with_reducible apply disqualify_keep
    | exact nofun
    | dsimp -zeta only

theorem execRevertiveWaitEnd_acts (x : RefIn) (s : State) : KeepO quiet s (execRevertiveWaitEnd x s) := by
  unfold execRevertiveWaitEnd
  repeat' first
    | fail_if_no_progress extract_lets
    | (with_reducible apply KeepO.ite) <;> intro _
    | with_reducible apply KeepO.next
    | (with_reducible apply Keep.ite) <;> intro _
    | with_reducible apply Keep.refl
    | with_reducible assumption
    | with_reducible apply awaitNow_keep
    | with_reducible apply adopt_keep
    | with_reducible apply revertiveWait_keep
    | with_reducible apply refuseRef_keep
    | (with_reducible apply Keep.snd; with_reducible assumption)
    | split
    | dsimp -zeta only
    | dsimp +zetaDelta -zeta only

theorem steerFree_acts (interval : Nat) (s : State) : Acts .fd quiet s (State.steerFree interval s) := by
  unfold State.steerFree
  repeat' first
    | fail_if_no_progress extract_lets
    | (with_reducible apply Acts.ite) <;> intro _
    | with_reducible apply Acts.refl
    | with_reducible assumption
    | with_reducible apply setUnit_trans
    | dsimp -zeta only
    | dsimp +zetaDelta -zeta only
theorem steerFree_trans {interval : Nat} {s : State} {s₀ : State} (h₀ : Acts .fd quiet s₀ s) : Acts .fd quiet s₀ (State.steerFree interval s) := h₀.trans (steerFree_acts ..)
theorem steerFree_keep {interval : Nat} {s : State} {s₀ : State} (h₀ : Keep quiet s₀ s) : Keep quiet s₀ (State.steerFree interval s) := h₀.trans (steerFree_acts ..).keep

theorem execRefPpsEdge_acts (x : RefIn) (coarse bin : Nat) (twin : Option Int) (cyc : Nat) (s : State) : ActsO .fd quiet s (execRefPpsEdge x coarse bin twin cyc s) := by
  unfold execRefPpsEdge
  repeat' first
    | fail_if_no_progress extract_lets
    | (with_reducible apply ActsO.ite) <;> intro _
    | with_reducible apply ActsO.next
    | (with_reducible apply Acts.ite) <;> intro _
    | with_reducible apply Acts.refl
    | with_reducible assumption
    | with_reducible apply putFlag_trans
    | with_reducible apply putS_trans
    | with_reducible exact pairEdge_trans (a := .channel _) ‹_›
    | with_reducible exact pairEdge_trans (a := .timing .fd) ‹_›
    | with_reducible exact pairEdge_trans (a := .lane .fd _) ‹_›
    | refine pairEdge_trans (a := .channel _) ?_
    | refine pairEdge_trans (a := .timing .fd) ?_
    | refine pairEdge_trans (a := .lane .fd _) ?_
    | with_reducible apply setRef_trans
    | with_reducible apply slewTo_trans
    | with_reducible apply steerFree_trans
    | ((with_reducible apply Acts.foldl_trans); intro _ _)
    | split
    | dsimp -zeta only
    | dsimp +zetaDelta -zeta only

theorem acceptRef_acts (x : RefIn) (keep : Bool) (off : Int) (s : State) : Acts .fd quiet s (State.acceptRef x keep off s) := by
  unfold State.acceptRef
  repeat' first
    | fail_if_no_progress extract_lets
    | (with_reducible apply Acts.ite) <;> intro _
    | with_reducible apply Acts.refl
    | with_reducible assumption
    | with_reducible apply setRef_trans
    | with_reducible apply acceptFlag_trans
    | with_reducible apply adopt_trans
    | split
    | dsimp -zeta only
    | dsimp +zetaDelta -zeta only
theorem acceptRef_trans {x : RefIn} {keep : Bool} {off : Int} {s : State} {s₀ : State} (h₀ : Acts .fd quiet s₀ s) : Acts .fd quiet s₀ (State.acceptRef x keep off s) := h₀.trans (acceptRef_acts ..)
theorem acceptRef_keep {x : RefIn} {keep : Bool} {off : Int} {s : State} {s₀ : State} (h₀ : Keep quiet s₀ s) : Keep quiet s₀ (State.acceptRef x keep off s) := h₀.trans (acceptRef_acts ..).keep

theorem execRefAccept_acts (m : MbGo) (s : State) (hd : quiet = true → m.dma = false := by first | assumption | nofun) : KeepO quiet s (execRefAccept m s) := by
  unfold execRefAccept
  repeat' first
    | fail_if_no_progress extract_lets
    | ((with_reducible apply mailbox_keep); intro _ _)
    | with_reducible apply atRoot_keep
    | (with_reducible apply Keep.iteS) <;> intro _
    | (with_reducible apply Keep.iteS2) <;> intro _
    | (with_reducible apply KeepO.ite) <;> intro _
    | with_reducible apply KeepO.next
    | (with_reducible apply Keep.ite) <;> intro _
    | with_reducible apply Keep.refl
    | with_reducible assumption
    | dsimp -zeta only
    | with_reducible apply nextBeat_keep
    | with_reducible apply acceptRef_keep
    | (with_reducible apply Keep.snd; with_reducible assumption)
    | split
    | dsimp -zeta only

theorem cancelAccept_acts (x : RefIn) (s : State) : Acts .fd quiet s (State.cancelAccept x s) := by
  unfold State.cancelAccept
  repeat' first
    | fail_if_no_progress extract_lets
    | (with_reducible apply Acts.ite) <;> intro _
    | with_reducible apply Acts.refl
    | with_reducible assumption
    | with_reducible apply setRef_trans
    | with_reducible apply acceptFlag_trans
    | dsimp -zeta only
theorem cancelAccept_trans {x : RefIn} {s : State} {s₀ : State} (h₀ : Acts .fd quiet s₀ s) : Acts .fd quiet s₀ (State.cancelAccept x s) := h₀.trans (cancelAccept_acts ..)
theorem cancelAccept_keep {x : RefIn} {s : State} {s₀ : State} (h₀ : Keep quiet s₀ s) : Keep quiet s₀ (State.cancelAccept x s) := h₀.trans (cancelAccept_acts ..).keep

theorem execRefAcceptCancel_acts (m : MbGo) (s : State) (hd : quiet = true → m.dma = false := by first | assumption | nofun) : ActsO m.part quiet s (execRefAcceptCancel m s) := by
  unfold execRefAcceptCancel
  repeat' first
    | fail_if_no_progress extract_lets
    | ((with_reducible apply mailbox_fd); intro _ _)
    | ((with_reducible apply mailbox_sc); intro _ _)
    | ((with_reducible apply mailbox_own2880); intro _ _)
    | ((with_reducible apply mailbox_any); intro _ _)
    | with_reducible apply atRoot_trans
    | (with_reducible apply Acts.iteS) <;> intro _
    | (with_reducible apply Acts.iteS2) <;> intro _
    | (with_reducible apply ActsO.ite) <;> intro _
    | with_reducible apply ActsO.next
    | (with_reducible apply Acts.ite) <;> intro _
    | with_reducible apply Acts.refl
    | with_reducible assumption
    | dsimp -zeta only
    | with_reducible apply cancelAccept_trans
    | (with_reducible apply Acts.snd; with_reducible assumption)
    | split
    | dsimp -zeta only

theorem setRate_acts (p : Part) (r : Int) (s : State) : Acts p quiet s (State.setRate p r s) := by
  unfold State.setRate
  repeat' first
    | fail_if_no_progress extract_lets
    | (with_reducible apply Acts.ite) <;> intro _
    | with_reducible apply Acts.refl
    | with_reducible assumption
    | with_reducible apply setUnit_trans
    | dsimp -zeta only
theorem setRate_trans {p : Part} {r : Int} {s : State} {s₀ : State} (h₀ : Acts p quiet s₀ s) : Acts p quiet s₀ (State.setRate p r s) := h₀.trans (setRate_acts ..)
theorem setRate_keep {p : Part} {r : Int} {s : State} {s₀ : State} (h₀ : Keep quiet s₀ s) : Keep quiet s₀ (State.setRate p r s) := h₀.trans (setRate_acts ..).keep

theorem execHoldoverBeat_acts (s : State) : ActsO .fd quiet s (execHoldoverBeat s) := by
  unfold execHoldoverBeat
  repeat' first
    | fail_if_no_progress extract_lets
    | (with_reducible apply ActsO.ite) <;> intro _
    | with_reducible apply ActsO.next
    | (with_reducible apply Acts.ite) <;> intro _
    | with_reducible apply Acts.refl
    | with_reducible assumption
    | with_reducible apply setRate_trans
    | dsimp -zeta only

theorem qualityCap_acts (s : State) : Acts .fd quiet s (State.qualityCap s) := by
  unfold State.qualityCap
  repeat' first
    | fail_if_no_progress extract_lets
    | (with_reducible apply Acts.ite) <;> intro _
    | with_reducible apply Acts.refl
    | with_reducible assumption
    | with_reducible apply put_trans
    | split
    | dsimp -zeta only
    | dsimp +zetaDelta -zeta only
theorem qualityCap_trans {s : State} {s₀ : State} (h₀ : Acts .fd quiet s₀ s) : Acts .fd quiet s₀ (State.qualityCap s) := h₀.trans (qualityCap_acts ..)
theorem qualityCap_keep {s : State} {s₀ : State} (h₀ : Keep quiet s₀ s) : Keep quiet s₀ (State.qualityCap s) := h₀.trans (qualityCap_acts ..).keep

theorem execTemperatureRead_acts (temp : Option Int) (s : State) : ActsO .fd quiet s (execTemperatureRead temp s) := by
  unfold execTemperatureRead
  repeat' first
    | fail_if_no_progress extract_lets
    | (with_reducible apply ActsO.ite) <;> intro _
    | with_reducible apply ActsO.next
    | (with_reducible apply Acts.ite) <;> intro _
    | with_reducible apply Acts.refl
    | with_reducible assumption
    | with_reducible apply setHold_trans
    | with_reducible apply qualityCap_trans
    | (with_reducible apply Acts.snd; with_reducible assumption)
    | split
    | dsimp -zeta only

theorem execModelLearn_acts (y : Int) (s : State) : ActsO .fd quiet s (execModelLearn y s) := by
  unfold execModelLearn
  repeat' first
    | fail_if_no_progress extract_lets
    | (with_reducible apply ActsO.ite) <;> intro _
    | with_reducible apply ActsO.next
    | (with_reducible apply Acts.ite) <;> intro _
    | with_reducible apply Acts.refl
    | with_reducible assumption
    | with_reducible apply putS_trans
    | with_reducible apply setHold_trans
    | with_reducible apply qualityCap_trans
    | ((with_reducible apply Acts.foldl_trans); intro _ _)
    | split
    | dsimp -zeta only
    | dsimp +zetaDelta -zeta only

theorem execPtpExchange_acts (x : PtpMsg) (s : State) : ActsO .fd quiet s (execPtpExchange x s) := by
  unfold execPtpExchange
  repeat' first
    | fail_if_no_progress extract_lets
    | (with_reducible apply ActsO.ite) <;> intro _
    | with_reducible apply ActsO.next
    | (with_reducible apply Acts.ite) <;> intro _
    | with_reducible apply Acts.refl
    | with_reducible assumption
    | with_reducible apply setDist_trans
    | with_reducible apply put_trans
    | with_reducible apply putFlag_trans
    | (with_reducible apply Acts.snd; with_reducible assumption)
    | split
    | dsimp -zeta only
    | dsimp +zetaDelta -zeta only

theorem execPtpTimeout_acts (s : State) : KeepO quiet s (execPtpTimeout s) := by
  unfold execPtpTimeout
  repeat' first
    | fail_if_no_progress extract_lets
    | (with_reducible apply KeepO.ite) <;> intro _
    | with_reducible apply KeepO.next
    | (with_reducible apply Keep.ite) <;> intro _
    | with_reducible apply Keep.refl
    | with_reducible assumption
    | with_reducible apply setDist_keep
    | with_reducible apply put_keep
    | with_reducible apply awaitNow_keep
    | split
    | dsimp -zeta only
    | dsimp +zetaDelta -zeta only

theorem execWallRead_acts (m : MbGo) (s : State) (hd : quiet = true → m.dma = false := by first | assumption | nofun) : ActsO m.part quiet s (execWallRead m s) := by
  unfold execWallRead
  repeat' first
    | fail_if_no_progress extract_lets
    | ((with_reducible apply mailbox_fd); intro _ _)
    | ((with_reducible apply mailbox_sc); intro _ _)
    | ((with_reducible apply mailbox_own2880); intro _ _)
    | ((with_reducible apply mailbox_any); intro _ _)
    | (with_reducible apply Acts.iteS) <;> intro _
    | (with_reducible apply Acts.iteS2) <;> intro _
    | (with_reducible apply ActsO.ite) <;> intro _
    | with_reducible apply ActsO.next
    | (with_reducible apply Acts.ite) <;> intro _
    | with_reducible apply Acts.refl
    | with_reducible assumption
    | dsimp -zeta only
    | with_reducible apply fresh_trans
    | (with_reducible apply Acts.snd; with_reducible assumption)
    | split
    | dsimp -zeta only
    | dsimp +zetaDelta -zeta only

theorem execHallForm_acts (m : MbGo) (s : State) (hd : quiet = true → m.dma = false := by first | assumption | nofun) : ActsO m.part quiet s (execHallForm m s) := by
  unfold execHallForm
  repeat' first
    | fail_if_no_progress extract_lets
    | ((with_reducible apply mailbox_fd); intro _ _)
    | ((with_reducible apply mailbox_sc); intro _ _)
    | ((with_reducible apply mailbox_own2880); intro _ _)
    | ((with_reducible apply mailbox_any); intro _ _)
    | (with_reducible apply Acts.iteS) <;> intro _
    | (with_reducible apply Acts.iteS2) <;> intro _
    | (with_reducible apply ActsO.ite) <;> intro _
    | with_reducible apply ActsO.next
    | (with_reducible apply Acts.ite) <;> intro _
    | with_reducible apply Acts.refl
    | with_reducible assumption
    | dsimp -zeta only
    | with_reducible apply setHall_trans
    | ((with_reducible apply Acts.foldl_trans); intro _ _)
    | split
    | dsimp -zeta only
    | dsimp +zetaDelta -zeta only

theorem isolate_acts (s : State) : Acts .fd quiet s (State.isolate s) := by
  unfold State.isolate
  repeat' first
    | fail_if_no_progress extract_lets
    | (with_reducible apply Acts.ite) <;> intro _
    | with_reducible apply Acts.refl
    | with_reducible assumption
    | with_reducible apply put_trans
    | with_reducible apply setHold_trans
    | with_reducible apply refEvent_trans
    | with_reducible apply muteOuts_trans
    | dsimp -zeta only
    | dsimp +zetaDelta -zeta only
theorem isolate_trans {s : State} {s₀ : State} (h₀ : Acts .fd quiet s₀ s) : Acts .fd quiet s₀ (State.isolate s) := h₀.trans (isolate_acts ..)
theorem isolate_keep {s : State} {s₀ : State} (h₀ : Keep quiet s₀ s) : Keep quiet s₀ (State.isolate s) := h₀.trans (isolate_acts ..).keep

theorem startRejoin_acts (s : State) : Acts .fd quiet s (State.startRejoin s) := by
  unfold State.startRejoin
  repeat' first
    | fail_if_no_progress extract_lets
    | (with_reducible apply Acts.ite) <;> intro _
    | with_reducible apply Acts.refl
    | with_reducible assumption
    | with_reducible apply setUnit_trans
    | with_reducible apply put_trans
    | with_reducible apply setHold_trans
    | dsimp -zeta only
    | dsimp +zetaDelta -zeta only
theorem startRejoin_trans {s : State} {s₀ : State} (h₀ : Acts .fd quiet s₀ s) : Acts .fd quiet s₀ (State.startRejoin s) := h₀.trans (startRejoin_acts ..)
theorem startRejoin_keep {s : State} {s₀ : State} (h₀ : Keep quiet s₀ s) : Keep quiet s₀ (State.startRejoin s) := h₀.trans (startRejoin_acts ..).keep

theorem execPpsOutPulse_acts (n : Nat) (s : State) : ActsO .fd quiet s (execPpsOutPulse n s) := by
  unfold execPpsOutPulse
  repeat' first
    | fail_if_no_progress extract_lets
    | (with_reducible apply ActsO.ite) <;> intro _
    | with_reducible apply ActsO.next
    | (with_reducible apply Acts.ite) <;> intro _
    | with_reducible apply Acts.refl
    | with_reducible assumption
    | with_reducible apply put_trans
    | with_reducible apply setOut_trans
    | split
    | dsimp -zeta only
    | dsimp +zetaDelta -zeta only

theorem execBellOutPulse_acts (n : Nat) (bellHt : Nat) (word : BellWord) (s : State) : ActsO .fd quiet s (execBellOutPulse n bellHt word s) := by
  unfold execBellOutPulse
  repeat' first
    | fail_if_no_progress extract_lets
    | (with_reducible apply ActsO.ite) <;> intro _
    | with_reducible apply ActsO.next
    | (with_reducible apply Acts.ite) <;> intro _
    | with_reducible apply Acts.refl
    | with_reducible assumption
    | with_reducible apply put_trans
    | with_reducible apply setOut_trans
    | split
    | dsimp -zeta only
    | dsimp +zetaDelta -zeta only

theorem realign_acts (n : Nat) (step : Bool) (s : State) : Acts .fd quiet s (State.realign n step s) := by
  unfold State.realign
  repeat' first
    | fail_if_no_progress extract_lets
    | (with_reducible apply Acts.ite) <;> intro _
    | with_reducible apply Acts.refl
    | with_reducible assumption
    | with_reducible apply startMove_trans
    | split
    | dsimp -zeta only
theorem realign_trans {n : Nat} {step : Bool} {s : State} {s₀ : State} (h₀ : Acts .fd quiet s₀ s) : Acts .fd quiet s₀ (State.realign n step s) := h₀.trans (realign_acts ..)
theorem realign_keep {n : Nat} {step : Bool} {s : State} {s₀ : State} (h₀ : Keep quiet s₀ s) : Keep quiet s₀ (State.realign n step s) := h₀.trans (realign_acts ..).keep

theorem execOutRealign_acts (m : MbGo) (s : State) (hd : quiet = true → m.dma = false := by first | assumption | nofun) : ActsO m.part quiet s (execOutRealign m s) := by
  exact mailbox_fd (fun a t => Acts.foldl_trans (fun u n => realign_acts ..) (Acts.refl ..)) hd

theorem execOutRealignDone_acts (n : Nat) (s : State) : KeepO quiet s (execOutRealignDone n s) := by
  unfold execOutRealignDone
  repeat' first
    | fail_if_no_progress extract_lets
    | (with_reducible apply KeepO.ite) <;> intro _
    | with_reducible apply KeepO.next
    | (with_reducible apply Keep.ite) <;> intro _
    | with_reducible apply Keep.refl
    | with_reducible assumption
    | with_reducible apply put_keep
    | with_reducible apply awaitHt_keep
    | with_reducible apply setOut_keep
    | (with_reducible apply Keep.snd; with_reducible assumption)
    | split
    | dsimp -zeta only
    | dsimp +zetaDelta -zeta only

end Sys2Proof.Machine
end

