-- ==== Sys2Proof/Laws/ActsLinkOps.lean ====
section
/-! SUPPORT. One lemma an operation: what it keeps (Acts, Keep). -/

namespace Sys2Proof.Machine

open Sys2Proof

set_option linter.unusedTactic false
set_option linter.unreachableTactic false
set_option linter.unusedVariables false

variable {quiet : Bool}

theorem linkEvent_acts (p : Part) (n ev discarded : Nat) (s : State) : Acts p quiet s (State.linkEvent p n ev discarded s) := by
  unfold State.linkEvent
  repeat' first
    | fail_if_no_progress extract_lets
    | (with_reducible apply Acts.ite) <;> intro _
    | with_reducible apply Acts.refl
    | with_reducible assumption
    | with_reducible apply record_trans
    | split
    | dsimp -zeta only
    | dsimp +zetaDelta -zeta only
theorem linkEvent_trans {p : Part} {n ev discarded : Nat} {s : State} {s₀ : State} (h₀ : Acts p quiet s₀ s) : Acts p quiet s₀ (State.linkEvent p n ev discarded s) := h₀.trans (linkEvent_acts ..)
theorem linkEvent_keep {p : Part} {n ev discarded : Nat} {s : State} {s₀ : State} (h₀ : Keep quiet s₀ s) : Keep quiet s₀ (State.linkEvent p n ev discarded s) := h₀.trans (linkEvent_acts ..).keep

theorem setLstate_acts (p : Part) (n st : Nat) (s : State) : Acts p quiet s (State.setLstate p n st s) := by
  unfold State.setLstate
  repeat' first
    | fail_if_no_progress extract_lets
    | (with_reducible apply Acts.ite) <;> intro _
    | with_reducible apply Acts.refl
    | with_reducible assumption
    | with_reducible apply put_trans
    | with_reducible apply modLink_trans
    | dsimp -zeta only
theorem setLstate_trans {p : Part} {n st : Nat} {s : State} {s₀ : State} (h₀ : Acts p quiet s₀ s) : Acts p quiet s₀ (State.setLstate p n st s) := h₀.trans (setLstate_acts ..)
theorem setLstate_keep {p : Part} {n st : Nat} {s : State} {s₀ : State} (h₀ : Keep quiet s₀ s) : Keep quiet s₀ (State.setLstate p n st s) := h₀.trans (setLstate_acts ..).keep

theorem sendWord_acts (p : Part) (n : Nat) (w : CtlWord) (s : State) : Acts p quiet s (State.sendWord p n w s) := by
  unfold State.sendWord
  repeat' first
    | fail_if_no_progress extract_lets
    | (with_reducible apply Acts.ite) <;> intro _
    | with_reducible apply Acts.refl
    | with_reducible assumption
    | with_reducible apply modLink_trans
    | split
    | dsimp -zeta only
theorem sendWord_trans {p : Part} {n : Nat} {w : CtlWord} {s : State} {s₀ : State} (h₀ : Acts p quiet s₀ s) : Acts p quiet s₀ (State.sendWord p n w s) := h₀.trans (sendWord_acts ..)
theorem sendWord_keep {p : Part} {n : Nat} {w : CtlWord} {s : State} {s₀ : State} (h₀ : Keep quiet s₀ s) : Keep quiet s₀ (State.sendWord p n w s) := h₀.trans (sendWord_acts ..).keep

theorem sendWords_acts (p : Part) (ns : List Nat) (w : CtlWord) (s : State) : Acts p quiet s (State.sendWords p ns w s) := by
  unfold State.sendWords
  repeat' first
    | fail_if_no_progress extract_lets
    | (with_reducible apply Acts.ite) <;> intro _
    | with_reducible apply Acts.refl
    | with_reducible assumption
    | with_reducible apply sendWord_trans
    | ((with_reducible apply Acts.foldl_trans); intro _ _)
    | dsimp -zeta only
theorem sendWords_trans {p : Part} {ns : List Nat} {w : CtlWord} {s : State} {s₀ : State} (h₀ : Acts p quiet s₀ s) : Acts p quiet s₀ (State.sendWords p ns w s) := h₀.trans (sendWords_acts ..)
theorem sendWords_keep {p : Part} {ns : List Nat} {w : CtlWord} {s : State} {s₀ : State} (h₀ : Keep quiet s₀ s) : Keep quiet s₀ (State.sendWords p ns w s) := h₀.trans (sendWords_acts ..).keep

theorem sendTunnel_acts (p : Part) (n : Nat) (m : TunMsg) (s : State) : Acts p quiet s (State.sendTunnel p n m s) := by
  unfold State.sendTunnel
  repeat' first
    | fail_if_no_progress extract_lets
    | (with_reducible apply Acts.ite) <;> intro _
    | with_reducible apply Acts.refl
    | with_reducible assumption
    | with_reducible apply modLink_trans
    | split
    | dsimp -zeta only
theorem sendTunnel_trans {p : Part} {n : Nat} {m : TunMsg} {s : State} {s₀ : State} (h₀ : Acts p quiet s₀ s) : Acts p quiet s₀ (State.sendTunnel p n m s) := h₀.trans (sendTunnel_acts ..)
theorem sendTunnel_keep {p : Part} {n : Nat} {m : TunMsg} {s : State} {s₀ : State} (h₀ : Keep quiet s₀ s) : Keep quiet s₀ (State.sendTunnel p n m s) := h₀.trans (sendTunnel_acts ..).keep

theorem sendTunnels_acts (p : Part) (ns : List Nat) (m : TunMsg) (s : State) : Acts p quiet s (State.sendTunnels p ns m s) := by
  unfold State.sendTunnels
  repeat' first
    | fail_if_no_progress extract_lets
    | (with_reducible apply Acts.ite) <;> intro _
    | with_reducible apply Acts.refl
    | with_reducible assumption
    | with_reducible apply sendTunnel_trans
    | ((with_reducible apply Acts.foldl_trans); intro _ _)
    | dsimp -zeta only
theorem sendTunnels_trans {p : Part} {ns : List Nat} {m : TunMsg} {s : State} {s₀ : State} (h₀ : Acts p quiet s₀ s) : Acts p quiet s₀ (State.sendTunnels p ns m s) := h₀.trans (sendTunnels_acts ..)
theorem sendTunnels_keep {p : Part} {ns : List Nat} {m : TunMsg} {s : State} {s₀ : State} (h₀ : Keep quiet s₀ s) : Keep quiet s₀ (State.sendTunnels p ns m s) := h₀.trans (sendTunnels_acts ..).keep

theorem sendUp_acts (p : Part) (w : CtlWord) (s : State) : Acts p quiet s (State.sendUp p w s) := by
  unfold State.sendUp
  repeat' first
    | fail_if_no_progress extract_lets
    | (with_reducible apply Acts.ite) <;> intro _
    | with_reducible apply Acts.refl
    | with_reducible assumption
    | with_reducible apply sendWords_trans
    | dsimp -zeta only
theorem sendUp_trans {p : Part} {w : CtlWord} {s : State} {s₀ : State} (h₀ : Acts p quiet s₀ s) : Acts p quiet s₀ (State.sendUp p w s) := h₀.trans (sendUp_acts ..)
theorem sendUp_keep {p : Part} {w : CtlWord} {s : State} {s₀ : State} (h₀ : Keep quiet s₀ s) : Keep quiet s₀ (State.sendUp p w s) := h₀.trans (sendUp_acts ..).keep

theorem track_acts (n : Nat) (s : State) : Acts .fd quiet s (State.track n s) := by
  unfold State.track
  repeat' first
    | fail_if_no_progress extract_lets
    | (with_reducible apply Acts.ite) <;> intro _
    | with_reducible apply Acts.refl
    | with_reducible assumption
    | with_reducible apply setUnit_trans
    | with_reducible apply put_trans
    | dsimp -zeta only
    | dsimp +zetaDelta -zeta only
theorem track_trans {n : Nat} {s : State} {s₀ : State} (h₀ : Acts .fd quiet s₀ s) : Acts .fd quiet s₀ (State.track n s) := h₀.trans (track_acts ..)
theorem track_keep {n : Nat} {s : State} {s₀ : State} (h₀ : Keep quiet s₀ s) : Keep quiet s₀ (State.track n s) := h₀.trans (track_acts ..).keep

theorem reselect_acts (s : State) : Acts .fd quiet s (State.reselect s) := by
  unfold State.reselect
  repeat' first
    | fail_if_no_progress extract_lets
    | (with_reducible apply Acts.ite) <;> intro _
    | with_reducible apply Acts.refl
    | with_reducible assumption
    | with_reducible apply setUnit_trans
    | with_reducible apply put_trans
    | with_reducible apply putFlag_trans
    | with_reducible apply setHold_trans
    | with_reducible apply refEvent_trans
    | with_reducible apply isolate_trans
    | with_reducible apply startRejoin_trans
    | with_reducible apply track_trans
    | (with_reducible apply Acts.snd; with_reducible assumption)
    | split
    | dsimp -zeta only
    | dsimp +zetaDelta -zeta only
theorem reselect_trans {s : State} {s₀ : State} (h₀ : Acts .fd quiet s₀ s) : Acts .fd quiet s₀ (State.reselect s) := h₀.trans (reselect_acts ..)
theorem reselect_keep {s : State} {s₀ : State} (h₀ : Keep quiet s₀ s) : Keep quiet s₀ (State.reselect s) := h₀.trans (reselect_acts ..).keep

theorem join_acts (p : Part) (n : Nat) (s : State) : Keep quiet s (State.join p n s) := by
  unfold State.join
  repeat' first
    | fail_if_no_progress extract_lets
    | (with_reducible apply Keep.ite) <;> intro _
    | with_reducible apply Keep.refl
    | with_reducible assumption
    | with_reducible apply setDie_keep
    | with_reducible apply put_keep
    | with_reducible apply putFlag_keep
    | with_reducible apply modLink_keep
    | with_reducible apply restage_keep
    | with_reducible apply awaitNow_keep
    | with_reducible apply loadHt_keep
    | ((with_reducible apply Keep.foldl_trans); intro _ _)
    | (with_reducible apply Keep.snd; with_reducible assumption)
    | split
    | dsimp -zeta only
    | dsimp +zetaDelta -zeta only
theorem join_keep {p : Part} {n : Nat} {s : State} {s₀ : State} (h₀ : Keep quiet s₀ s) : Keep quiet s₀ (State.join p n s) := h₀.trans (join_acts ..)

theorem dieHoldover_acts (s : State) : Acts .sc quiet s (State.dieHoldover s) := by
  unfold State.dieHoldover
  repeat' first
    | fail_if_no_progress extract_lets
    | (with_reducible apply Acts.ite) <;> intro _
    | with_reducible apply Acts.refl
    | with_reducible assumption
    | with_reducible apply setUnit_trans
    | with_reducible apply setDie_trans
    | with_reducible apply put_trans
    | dsimp -zeta only
    | dsimp +zetaDelta -zeta only
theorem dieHoldover_trans {s : State} {s₀ : State} (h₀ : Acts .sc quiet s₀ s) : Acts .sc quiet s₀ (State.dieHoldover s) := h₀.trans (dieHoldover_acts ..)
theorem dieHoldover_keep {s : State} {s₀ : State} (h₀ : Keep quiet s₀ s) : Keep quiet s₀ (State.dieHoldover s) := h₀.trans (dieHoldover_acts ..).keep

theorem dieReselect_acts (s : State) : Acts .sc quiet s (State.dieReselect s) := by
  unfold State.dieReselect
  repeat' first
    | fail_if_no_progress extract_lets
    | (with_reducible apply Acts.ite) <;> intro _
    | with_reducible apply Acts.refl
    | with_reducible assumption
    | with_reducible apply setDie_trans
    | with_reducible apply dieHoldover_trans
    | (with_reducible apply Acts.snd; with_reducible assumption)
    | split
    | dsimp -zeta only
    | dsimp +zetaDelta -zeta only
theorem dieReselect_trans {s : State} {s₀ : State} (h₀ : Acts .sc quiet s₀ s) : Acts .sc quiet s₀ (State.dieReselect s) := h₀.trans (dieReselect_acts ..)
theorem dieReselect_keep {s : State} {s₀ : State} (h₀ : Keep quiet s₀ s) : Keep quiet s₀ (State.dieReselect s) := h₀.trans (dieReselect_acts ..).keep

theorem dieRollCheck_acts (s : State) : Acts .sc quiet s (State.dieRollCheck s) := by
  unfold State.dieRollCheck
  repeat' first
    | fail_if_no_progress extract_lets
    | (with_reducible apply Acts.ite) <;> intro _
    | with_reducible apply Acts.refl
    | with_reducible assumption
    | with_reducible apply put_trans
    | with_reducible apply restage_trans
    | split
    | dsimp -zeta only
    | dsimp +zetaDelta -zeta only
theorem dieRollCheck_trans {s : State} {s₀ : State} (h₀ : Acts .sc quiet s₀ s) : Acts .sc quiet s₀ (State.dieRollCheck s) := h₀.trans (dieRollCheck_acts ..)
theorem dieRollCheck_keep {s : State} {s₀ : State} (h₀ : Keep quiet s₀ s) : Keep quiet s₀ (State.dieRollCheck s) := h₀.trans (dieRollCheck_acts ..).keep

theorem rollCheck_acts (s : State) : Acts .fd quiet s (State.rollCheck s) := by
  unfold State.rollCheck
  repeat' first
    | fail_if_no_progress extract_lets
    | (with_reducible apply Acts.ite) <;> intro _
    | with_reducible apply Acts.refl
    | with_reducible assumption
    | with_reducible apply put_trans
    | split
    | dsimp -zeta only
theorem rollCheck_trans {s : State} {s₀ : State} (h₀ : Acts .fd quiet s₀ s) : Acts .fd quiet s₀ (State.rollCheck s) := h₀.trans (rollCheck_acts ..)
theorem rollCheck_keep {s : State} {s₀ : State} (h₀ : Keep quiet s₀ s) : Keep quiet s₀ (State.rollCheck s) := h₀.trans (rollCheck_acts ..).keep

theorem reportAlive_acts (n was : Nat) (s : State) : Acts .fd quiet s (State.reportAlive n was s) := by
  unfold State.reportAlive
  repeat' first
    | fail_if_no_progress extract_lets
    | (with_reducible apply Acts.ite) <;> intro _
    | with_reducible apply Acts.refl
    | with_reducible assumption
    | with_reducible apply setHall_trans
    | with_reducible apply sendUp_trans
    | split
    | dsimp -zeta only
    | dsimp +zetaDelta -zeta only
theorem reportAlive_trans {n was : Nat} {s : State} {s₀ : State} (h₀ : Acts .fd quiet s₀ s) : Acts .fd quiet s₀ (State.reportAlive n was s) := h₀.trans (reportAlive_acts ..)
theorem reportAlive_keep {n was : Nat} {s : State} {s₀ : State} (h₀ : Keep quiet s₀ s) : Keep quiet s₀ (State.reportAlive n was s) := h₀.trans (reportAlive_acts ..).keep

theorem portAlive_acts (n mask : Nat) (s : State) : Acts .fd quiet s (State.portAlive n mask s) := by
  unfold State.portAlive
  repeat' first
    | fail_if_no_progress extract_lets
    | (with_reducible apply Acts.ite) <;> intro _
    | with_reducible apply Acts.refl
    | with_reducible assumption
    | with_reducible apply modLink_trans
    | with_reducible apply sendWord_trans
    | with_reducible apply reportAlive_trans
    | (with_reducible apply Acts.snd; with_reducible assumption)
    | split
    | dsimp -zeta only
    | dsimp +zetaDelta -zeta only
theorem portAlive_trans {n mask : Nat} {s : State} {s₀ : State} (h₀ : Acts .fd quiet s₀ s) : Acts .fd quiet s₀ (State.portAlive n mask s) := h₀.trans (portAlive_acts ..)
theorem portAlive_keep {n mask : Nat} {s : State} {s₀ : State} (h₀ : Keep quiet s₀ s) : Keep quiet s₀ (State.portAlive n mask s) := h₀.trans (portAlive_acts ..).keep

theorem partnerPort_acts (n mask : Nat) (s : State) : Acts .fd quiet s (State.partnerPort n mask s) := by
  unfold State.partnerPort
  repeat' first
    | fail_if_no_progress extract_lets
    | (with_reducible apply Acts.ite) <;> intro _
    | with_reducible apply Acts.refl
    | with_reducible assumption
    | with_reducible apply setHall_trans
    | with_reducible apply reportAlive_trans
    | dsimp -zeta only
theorem partnerPort_trans {n mask : Nat} {s : State} {s₀ : State} (h₀ : Acts .fd quiet s₀ s) : Acts .fd quiet s₀ (State.partnerPort n mask s) := h₀.trans (partnerPort_acts ..)
theorem partnerPort_keep {n mask : Nat} {s : State} {s₀ : State} (h₀ : Keep quiet s₀ s) : Keep quiet s₀ (State.partnerPort n mask s) := h₀.trans (partnerPort_acts ..).keep

theorem goneBeat_acts (s : State) : Acts .fd quiet s (State.goneBeat s) := by
  unfold State.goneBeat
  repeat' first
    | fail_if_no_progress extract_lets
    | (with_reducible apply Acts.ite) <;> intro _
    | with_reducible apply Acts.refl
    | with_reducible assumption
    | with_reducible apply modLink_trans
    | with_reducible apply portAlive_trans
    | ((with_reducible apply Acts.foldl_trans); intro _ _)
    | (with_reducible apply Acts.snd; with_reducible assumption)
    | split
    | dsimp -zeta only
theorem goneBeat_trans {s : State} {s₀ : State} (h₀ : Acts .fd quiet s₀ s) : Acts .fd quiet s₀ (State.goneBeat s) := h₀.trans (goneBeat_acts ..)
theorem goneBeat_keep {s : State} {s₀ : State} (h₀ : Keep quiet s₀ s) : Keep quiet s₀ (State.goneBeat s) := h₀.trans (goneBeat_acts ..).keep

theorem seatCheck_acts (s : State) : Acts .fd quiet s (State.seatCheck s) := by
  unfold State.seatCheck
  repeat' first
    | fail_if_no_progress extract_lets
    | (with_reducible apply Acts.ite) <;> intro _
    | with_reducible apply Acts.refl
    | with_reducible assumption
    | with_reducible apply setHall_trans
    | ((with_reducible apply Acts.foldl_trans); intro _ _)
    | split
    | dsimp -zeta only
    | dsimp +zetaDelta -zeta only
theorem seatCheck_trans {s : State} {s₀ : State} (h₀ : Acts .fd quiet s₀ s) : Acts .fd quiet s₀ (State.seatCheck s) := h₀.trans (seatCheck_acts ..)
theorem seatCheck_keep {s : State} {s₀ : State} (h₀ : Keep quiet s₀ s) : Keep quiet s₀ (State.seatCheck s) := h₀.trans (seatCheck_acts ..).keep

theorem mirrorLost_acts (s : State) : Acts .fd quiet s (State.mirrorLost s) := by
  unfold State.mirrorLost
  repeat' first
    | fail_if_no_progress extract_lets
    | (with_reducible apply Acts.ite) <;> intro _
    | with_reducible apply Acts.refl
    | with_reducible assumption
    | with_reducible apply put_trans
    | with_reducible apply faultLog_trans
    | with_reducible apply faultAlert_trans
    | split
    | dsimp -zeta only
theorem mirrorLost_trans {s : State} {s₀ : State} (h₀ : Acts .fd quiet s₀ s) : Acts .fd quiet s₀ (State.mirrorLost s) := h₀.trans (mirrorLost_acts ..)
theorem mirrorLost_keep {s : State} {s₀ : State} (h₀ : Keep quiet s₀ s) : Keep quiet s₀ (State.mirrorLost s) := h₀.trans (mirrorLost_acts ..).keep

theorem mirrorClock_acts (s : State) : Acts .fd quiet s (State.mirrorClock s) := by
  unfold State.mirrorClock
  repeat' first
    | fail_if_no_progress extract_lets
    | (with_reducible apply Acts.ite) <;> intro _
    | with_reducible apply Acts.refl
    | with_reducible assumption
    | with_reducible apply setHall_trans
    | (with_reducible apply Acts.snd; with_reducible assumption)
    | split
    | dsimp -zeta only
theorem mirrorClock_trans {s : State} {s₀ : State} (h₀ : Acts .fd quiet s₀ s) : Acts .fd quiet s₀ (State.mirrorClock s) := h₀.trans (mirrorClock_acts ..)
theorem mirrorClock_keep {s : State} {s₀ : State} (h₀ : Keep quiet s₀ s) : Keep quiet s₀ (State.mirrorClock s) := h₀.trans (mirrorClock_acts ..).keep

theorem linkDown_acts (p : Part) (n : Nat) (s : State) : Acts p quiet s (State.linkDown p n s) := by
  unfold State.linkDown
  repeat' first
    | fail_if_no_progress extract_lets
    | (with_reducible apply Acts.ite) <;> intro _
    | with_reducible apply Acts.refl
    | with_reducible assumption
    | with_reducible apply put_trans
    | with_reducible apply putFlag_trans
    | with_reducible apply setLink_trans
    | with_reducible apply linkEvent_trans
    | with_reducible apply reselect_trans
    | with_reducible apply dieReselect_trans
    | with_reducible apply dieRollCheck_trans
    | with_reducible apply rollCheck_trans
    | with_reducible apply seatCheck_trans
    | with_reducible apply mirrorLost_trans
    | with_reducible apply mirrorClock_trans
    | (with_reducible apply Acts.snd; with_reducible assumption)
    | split
    | dsimp -zeta only
    | dsimp +zetaDelta -zeta only
theorem linkDown_trans {p : Part} {n : Nat} {s : State} {s₀ : State} (h₀ : Acts p quiet s₀ s) : Acts p quiet s₀ (State.linkDown p n s) := h₀.trans (linkDown_acts ..)
theorem linkDown_keep {p : Part} {n : Nat} {s : State} {s₀ : State} (h₀ : Keep quiet s₀ s) : Keep quiet s₀ (State.linkDown p n s) := h₀.trans (linkDown_acts ..).keep

theorem dropUnused_acts (s : State) : Acts .fd quiet s (State.dropUnused s) := by
  unfold State.dropUnused
  repeat' first
    | fail_if_no_progress extract_lets
    | (with_reducible apply Acts.ite) <;> intro _
    | with_reducible apply Acts.refl
    | with_reducible assumption
    | with_reducible apply linkDown_trans
    | ((with_reducible apply Acts.foldl_trans); intro _ _)
    | split
    | dsimp -zeta only
theorem dropUnused_trans {s : State} {s₀ : State} (h₀ : Acts .fd quiet s₀ s) : Acts .fd quiet s₀ (State.dropUnused s) := h₀.trans (dropUnused_acts ..)
theorem dropUnused_keep {s : State} {s₀ : State} (h₀ : Keep quiet s₀ s) : Keep quiet s₀ (State.dropUnused s) := h₀.trans (dropUnused_acts ..).keep

theorem reroll_acts (before : State) (s : State) : Acts .fd quiet s (State.reroll before s) := by
  unfold State.reroll
  repeat' first
    | fail_if_no_progress extract_lets
    | (with_reducible apply Acts.ite) <;> intro _
    | with_reducible apply Acts.refl
    | with_reducible assumption
    | with_reducible apply linkDown_trans
    | ((with_reducible apply Acts.foldl_trans); intro _ _)
    | split
    | dsimp -zeta only
theorem reroll_trans {before : State} {s : State} {s₀ : State} (h₀ : Acts .fd quiet s₀ s) : Acts .fd quiet s₀ (State.reroll before s) := h₀.trans (reroll_acts ..)
theorem reroll_keep {before : State} {s : State} {s₀ : State} (h₀ : Keep quiet s₀ s) : Keep quiet s₀ (State.reroll before s) := h₀.trans (reroll_acts ..).keep

theorem runHoming_acts (told mismatch : Bool) (s : State) : Acts .fd quiet s (State.runHoming told mismatch s) := by
  unfold State.runHoming
  repeat' first
    | fail_if_no_progress extract_lets
    | (with_reducible apply Acts.ite) <;> intro _
    | with_reducible apply Acts.refl
    | with_reducible assumption
    | with_reducible apply setHall_trans
    | with_reducible apply dropUnused_trans
    | with_reducible apply reroll_trans
    | (with_reducible apply Acts.snd; with_reducible assumption)
    | split
    | dsimp -zeta only
    | dsimp +zetaDelta -zeta only
theorem runHoming_trans {told mismatch : Bool} {s : State} {s₀ : State} (h₀ : Acts .fd quiet s₀ s) : Acts .fd quiet s₀ (State.runHoming told mismatch s) := h₀.trans (runHoming_acts ..)
theorem runHoming_keep {told mismatch : Bool} {s : State} {s₀ : State} (h₀ : Keep quiet s₀ s) : Keep quiet s₀ (State.runHoming told mismatch s) := h₀.trans (runHoming_acts ..).keep

theorem suspect_acts (p : Part) (n cause : Nat) (s : State) : Acts p quiet s (State.suspect p n cause s) := by
  unfold State.suspect
  repeat' first
    | fail_if_no_progress extract_lets
    | (with_reducible apply Acts.ite) <;> intro _
    | with_reducible apply Acts.refl
    | with_reducible assumption
    | with_reducible apply put_trans
    | with_reducible apply modLink_trans
    | with_reducible apply linkEvent_trans
    | with_reducible apply setLstate_trans
    | with_reducible apply reselect_trans
    | with_reducible apply dieReselect_trans
    | with_reducible apply mirrorLost_trans
    | with_reducible apply mirrorClock_trans
    | (with_reducible apply Acts.snd; with_reducible assumption)
    | split
    | dsimp -zeta only
    | dsimp +zetaDelta -zeta only
theorem suspect_trans {p : Part} {n cause : Nat} {s : State} {s₀ : State} (h₀ : Acts p quiet s₀ s) : Acts p quiet s₀ (State.suspect p n cause s) := h₀.trans (suspect_acts ..)
theorem suspect_keep {p : Part} {n cause : Nat} {s : State} {s₀ : State} (h₀ : Keep quiet s₀ s) : Keep quiet s₀ (State.suspect p n cause s) := h₀.trans (suspect_acts ..).keep

theorem cablingHold_acts (p : Part) (n : Nat) (s : State) : Acts p quiet s (State.cablingHold p n s) := by
  unfold State.cablingHold
  repeat' first
    | fail_if_no_progress extract_lets
    | (with_reducible apply Acts.ite) <;> intro _
    | with_reducible apply Acts.refl
    | with_reducible assumption
    | with_reducible apply modLink_trans
    | with_reducible apply raise_trans
    | with_reducible apply faultLog_trans
    | split
    | dsimp -zeta only
theorem cablingHold_trans {p : Part} {n : Nat} {s : State} {s₀ : State} (h₀ : Acts p quiet s₀ s) : Acts p quiet s₀ (State.cablingHold p n s) := h₀.trans (cablingHold_acts ..)
theorem cablingHold_keep {p : Part} {n : Nat} {s : State} {s₀ : State} (h₀ : Keep quiet s₀ s) : Keep quiet s₀ (State.cablingHold p n s) := h₀.trans (cablingHold_acts ..).keep

theorem wantCal_acts (p : Part) (n : Nat) (s : State) : Acts p quiet s (State.wantCal p n s) := by
  unfold State.wantCal
  repeat' first
    | fail_if_no_progress extract_lets
    | (with_reducible apply Acts.ite) <;> intro _
    | with_reducible apply Acts.refl
    | with_reducible assumption
    | with_reducible apply modLink_trans
    | dsimp -zeta only
theorem wantCal_trans {p : Part} {n : Nat} {s : State} {s₀ : State} (h₀ : Acts p quiet s₀ s) : Acts p quiet s₀ (State.wantCal p n s) := h₀.trans (wantCal_acts ..)
theorem wantCal_keep {p : Part} {n : Nat} {s : State} {s₀ : State} (h₀ : Keep quiet s₀ s) : Keep quiet s₀ (State.wantCal p n s) := h₀.trans (wantCal_acts ..).keep

end Sys2Proof.Machine
end

