-- ==== Sys2Proof/Laws/ActsBodies.lean ====
section
/-! SUPPORT. One lemma an operation: what it keeps (Acts, Keep). -/

namespace Sys2Proof.Machine

open Sys2Proof

set_option linter.unusedTactic false
set_option linter.unreachableTactic false
set_option linter.unusedVariables false

variable {quiet : Bool}

theorem sendArrive_acts (p : Part) (ns : List Nat) (job hslot gen epoch src ht32 : Nat) (body : Option Body) (s : State) : Acts p quiet s (State.sendArrive p ns job hslot gen epoch src ht32 body s) := by
  unfold State.sendArrive
  repeat' first
    | fail_if_no_progress extract_lets
    | (with_reducible apply Acts.ite) <;> intro _
    | with_reducible apply Acts.refl
    | with_reducible assumption
    | with_reducible apply modLink_trans
    | with_reducible apply sendWord_trans
    | ((with_reducible apply Acts.foldl_trans); intro _ _)
    | (with_reducible apply Acts.snd; with_reducible assumption)
    | split
    | dsimp -zeta only
    | dsimp +zetaDelta -zeta only
theorem sendArrive_trans {p : Part} {ns : List Nat} {job hslot gen epoch src ht32 : Nat} {body : Option Body} {s : State} {s₀ : State} (h₀ : Acts p quiet s₀ s) : Acts p quiet s₀ (State.sendArrive p ns job hslot gen epoch src ht32 body s) := h₀.trans (sendArrive_acts ..)
theorem sendArrive_keep {p : Part} {ns : List Nat} {job hslot gen epoch src ht32 : Nat} {body : Option Body} {s : State} {s₀ : State} (h₀ : Keep quiet s₀ s) : Keep quiet s₀ (State.sendArrive p ns job hslot gen epoch src ht32 body s) := h₀.trans (sendArrive_acts ..).keep

theorem freePartials_acts (p : Part) (ns : List Nat) (job hslot epoch : Nat) (s : State) : Acts p quiet s (State.freePartials p ns job hslot epoch s) := by
  unfold State.freePartials
  repeat' first
    | fail_if_no_progress extract_lets
    | (with_reducible apply Acts.ite) <;> intro _
    | with_reducible apply Acts.refl
    | with_reducible assumption
    | with_reducible apply modLink_trans
    | ((with_reducible apply Acts.foldl_trans); intro _ _)
    | dsimp -zeta only
theorem freePartials_trans {p : Part} {ns : List Nat} {job hslot epoch : Nat} {s : State} {s₀ : State} (h₀ : Acts p quiet s₀ s) : Acts p quiet s₀ (State.freePartials p ns job hslot epoch s) := h₀.trans (freePartials_acts ..)
theorem freePartials_keep {p : Part} {ns : List Nat} {job hslot epoch : Nat} {s : State} {s₀ : State} (h₀ : Keep quiet s₀ s) : Keep quiet s₀ (State.freePartials p ns job hslot epoch s) := h₀.trans (freePartials_acts ..).keep

theorem sendResult_acts (p : Part) (job seq words : Nat) (body : Body) (n : Nat) (s : State) : Acts p quiet s (State.sendResult p job seq words body n s) := by
  unfold State.sendResult
  repeat' first
    | fail_if_no_progress extract_lets
    | (with_reducible apply Acts.ite) <;> intro _
    | with_reducible apply Acts.refl
    | with_reducible assumption
    | with_reducible apply modLink_trans
    | split
    | dsimp -zeta only
theorem sendResult_trans {p : Part} {job seq words : Nat} {body : Body} {n : Nat} {s : State} {s₀ : State} (h₀ : Acts p quiet s₀ s) : Acts p quiet s₀ (State.sendResult p job seq words body n s) := h₀.trans (sendResult_acts ..)
theorem sendResult_keep {p : Part} {job seq words : Nat} {body : Body} {n : Nat} {s : State} {s₀ : State} (h₀ : Keep quiet s₀ s) : Keep quiet s₀ (State.sendResult p job seq words body n s) := h₀.trans (sendResult_acts ..).keep

theorem modRx_acts (p : Part) (n fkind job tag : Nat) (f : RxBody → RxBody) (s : State) : Acts p quiet s (State.modRx p n fkind job tag f s) := by
  unfold State.modRx
  repeat' first
    | fail_if_no_progress extract_lets
    | (with_reducible apply Acts.ite) <;> intro _
    | with_reducible apply Acts.refl
    | with_reducible assumption
    | with_reducible apply modLink_trans
    | (with_reducible apply Acts.snd; with_reducible assumption)
    | split
    | dsimp -zeta only
theorem modRx_trans {p : Part} {n fkind job tag : Nat} {f : RxBody → RxBody} {s : State} {s₀ : State} (h₀ : Acts p quiet s₀ s) : Acts p quiet s₀ (State.modRx p n fkind job tag f s) := h₀.trans (modRx_acts ..)
theorem modRx_keep {p : Part} {n fkind job tag : Nat} {f : RxBody → RxBody} {s : State} {s₀ : State} (h₀ : Keep quiet s₀ s) : Keep quiet s₀ (State.modRx p n fkind job tag f s) := h₀.trans (modRx_acts ..).keep

theorem dropRx_acts (p : Part) (n fkind job tag : Nat) (s : State) : Acts p quiet s (State.dropRx p n fkind job tag s) := by
  unfold State.dropRx
  repeat' first
    | fail_if_no_progress extract_lets
    | (with_reducible apply Acts.ite) <;> intro _
    | with_reducible apply Acts.refl
    | with_reducible assumption
    | with_reducible apply modLink_trans
    | dsimp -zeta only
theorem dropRx_trans {p : Part} {n fkind job tag : Nat} {s : State} {s₀ : State} (h₀ : Acts p quiet s₀ s) : Acts p quiet s₀ (State.dropRx p n fkind job tag s) := h₀.trans (dropRx_acts ..)
theorem dropRx_keep {p : Part} {n fkind job tag : Nat} {s : State} {s₀ : State} (h₀ : Keep quiet s₀ s) : Keep quiet s₀ (State.dropRx p n fkind job tag s) := h₀.trans (dropRx_acts ..).keep

theorem nameBody_acts (p : Part) (n fkind job tag : Nat) (s : State) : Acts p quiet s (State.nameBody p n fkind job tag s) := by
  unfold State.nameBody
  repeat' first
    | fail_if_no_progress extract_lets
    | (with_reducible apply Acts.ite) <;> intro _
    | with_reducible apply Acts.refl
    | with_reducible assumption
    | with_reducible apply modRx_trans
    | split
    | dsimp -zeta only
theorem nameBody_trans {p : Part} {n fkind job tag : Nat} {s : State} {s₀ : State} (h₀ : Acts p quiet s₀ s) : Acts p quiet s₀ (State.nameBody p n fkind job tag s) := h₀.trans (nameBody_acts ..)
theorem nameBody_keep {p : Part} {n fkind job tag : Nat} {s : State} {s₀ : State} (h₀ : Keep quiet s₀ s) : Keep quiet s₀ (State.nameBody p n fkind job tag s) := h₀.trans (nameBody_acts ..).keep

theorem requestBody_acts (p : Part) (n fkind job tag : Nat) (s : State) : Acts p quiet s (State.requestBody p n fkind job tag s) := by
  unfold State.requestBody
  repeat' first
    | fail_if_no_progress extract_lets
    | (with_reducible apply Acts.ite) <;> intro _
    | with_reducible apply Acts.refl
    | with_reducible assumption
    | with_reducible apply bump_trans
    | with_reducible apply modLink_trans
    | with_reducible apply modRx_trans
    | dsimp -zeta only
    | dsimp +zetaDelta -zeta only
theorem requestBody_trans {p : Part} {n fkind job tag : Nat} {s : State} {s₀ : State} (h₀ : Acts p quiet s₀ s) : Acts p quiet s₀ (State.requestBody p n fkind job tag s) := h₀.trans (requestBody_acts ..)
theorem requestBody_keep {p : Part} {n fkind job tag : Nat} {s : State} {s₀ : State} (h₀ : Keep quiet s₀ s) : Keep quiet s₀ (State.requestBody p n fkind job tag s) := h₀.trans (requestBody_acts ..).keep

theorem repeatBody_acts (p : Part) (n job tag : Nat) (s : State) : Acts p quiet s (State.repeatBody p n job tag s) := by
  unfold State.repeatBody
  repeat' first
    | fail_if_no_progress extract_lets
    | (with_reducible apply Acts.ite) <;> intro _
    | with_reducible apply Acts.refl
    | with_reducible assumption
    | with_reducible apply modLink_trans
    | split
    | dsimp -zeta only
    | dsimp +zetaDelta -zeta only
theorem repeatBody_trans {p : Part} {n job tag : Nat} {s : State} {s₀ : State} (h₀ : Acts p quiet s₀ s) : Acts p quiet s₀ (State.repeatBody p n job tag s) := h₀.trans (repeatBody_acts ..)
theorem repeatBody_keep {p : Part} {n job tag : Nat} {s : State} {s₀ : State} (h₀ : Keep quiet s₀ s) : Keep quiet s₀ (State.repeatBody p n job tag s) := h₀.trans (repeatBody_acts ..).keep

end Sys2Proof.Machine
end

