-- ==== Sys2Proof/Laws/ActsShaper.lean ====
section
/-! SUPPORT. One lemma an operation: what it keeps (Acts, Keep). -/

namespace Sys2Proof.Machine

open Sys2Proof

set_option linter.unusedTactic false
set_option linter.unreachableTactic false
set_option linter.unusedVariables false

variable {quiet : Bool}

theorem sendMembers_acts (j : Nat) (w : CtlWord) (s : State) : Acts .fd quiet s (State.sendMembers j w s) := by
  unfold State.sendMembers
  repeat' first
    | fail_if_no_progress extract_lets
    | (with_reducible apply Acts.ite) <;> intro _
    | with_reducible apply Acts.refl
    | with_reducible assumption
    | with_reducible apply sendWords_trans
    | dsimp -zeta only
theorem sendMembers_trans {j : Nat} {w : CtlWord} {s : State} {s₀ : State} (h₀ : Acts .fd quiet s₀ s) : Acts .fd quiet s₀ (State.sendMembers j w s) := h₀.trans (sendMembers_acts ..)
theorem sendMembers_keep {j : Nat} {w : CtlWord} {s : State} {s₀ : State} (h₀ : Keep quiet s₀ s) : Keep quiet s₀ (State.sendMembers j w s) := h₀.trans (sendMembers_acts ..).keep

theorem setPower_acts (x : PowerSt) (s : State) : Acts .fd quiet s (State.setPower x s) := by
  unfold State.setPower
  repeat' first
    | fail_if_no_progress extract_lets
    | (with_reducible apply Acts.ite) <;> intro _
    | with_reducible apply Acts.refl
    | with_reducible assumption
    | with_reducible apply setDist_trans
    | dsimp -zeta only
theorem setPower_trans {x : PowerSt} {s : State} {s₀ : State} (h₀ : Acts .fd quiet s₀ s) : Acts .fd quiet s₀ (State.setPower x s) := h₀.trans (setPower_acts ..)
theorem setPower_keep {x : PowerSt} {s : State} {s₀ : State} (h₀ : Keep quiet s₀ s) : Keep quiet s₀ (State.setPower x s) := h₀.trans (setPower_acts ..).keep

theorem setPj_acts (j : Nat) (x : JobPwr) (s : State) : Acts .fd quiet s (State.setPj j x s) := by
  unfold State.setPj
  repeat' first
    | fail_if_no_progress extract_lets
    | (with_reducible apply Acts.ite) <;> intro _
    | with_reducible apply Acts.refl
    | with_reducible assumption
    | with_reducible apply setPower_trans
    | dsimp -zeta only
theorem setPj_trans {j : Nat} {x : JobPwr} {s : State} {s₀ : State} (h₀ : Acts .fd quiet s₀ s) : Acts .fd quiet s₀ (State.setPj j x s) := h₀.trans (setPj_acts ..)
theorem setPj_keep {j : Nat} {x : JobPwr} {s : State} {s₀ : State} (h₀ : Keep quiet s₀ s) : Keep quiet s₀ (State.setPj j x s) := h₀.trans (setPj_acts ..).keep

theorem pjRegs_acts (j : Nat) (s : State) : Acts .fd quiet s (State.pjRegs j s) := by
  unfold State.pjRegs
  repeat' first
    | fail_if_no_progress extract_lets
    | (with_reducible apply Acts.ite) <;> intro _
    | with_reducible apply Acts.refl
    | with_reducible assumption
    | with_reducible apply put_trans
    | with_reducible apply putFlag_trans
    | split
    | dsimp -zeta only
    | dsimp +zetaDelta -zeta only
theorem pjRegs_trans {j : Nat} {s : State} {s₀ : State} (h₀ : Acts .fd quiet s₀ s) : Acts .fd quiet s₀ (State.pjRegs j s) := h₀.trans (pjRegs_acts ..)
theorem pjRegs_keep {j : Nat} {s : State} {s₀ : State} (h₀ : Keep quiet s₀ s) : Keep quiet s₀ (State.pjRegs j s) := h₀.trans (pjRegs_acts ..).keep

theorem sendFloor_acts (j : Nat) (s : State) : Acts .fd quiet s (State.sendFloor j s) := by
  unfold State.sendFloor
  repeat' first
    | fail_if_no_progress extract_lets
    | (with_reducible apply Acts.ite) <;> intro _
    | with_reducible apply Acts.refl
    | with_reducible assumption
    | with_reducible apply sendMembers_trans
    | with_reducible apply setPj_trans
    | with_reducible apply pjRegs_trans
    | (with_reducible apply Acts.snd; with_reducible assumption)
    | split
    | dsimp -zeta only
    | dsimp +zetaDelta -zeta only
theorem sendFloor_trans {j : Nat} {s : State} {s₀ : State} (h₀ : Acts .fd quiet s₀ s) : Acts .fd quiet s₀ (State.sendFloor j s) := h₀.trans (sendFloor_acts ..)
theorem sendFloor_keep {j : Nat} {s : State} {s₀ : State} (h₀ : Keep quiet s₀ s) : Keep quiet s₀ (State.sendFloor j s) := h₀.trans (sendFloor_acts ..).keep

end Sys2Proof.Machine
end

