-- ==== Sys2Proof/Laws/ActsHallBarrier.lean ====
section
/-! SUPPORT. One lemma an operation: what it keeps (Acts, Keep). -/

namespace Sys2Proof.Machine

open Sys2Proof

set_option linter.unusedTactic false
set_option linter.unreachableTactic false
set_option linter.unusedVariables false

variable {quiet : Bool}

theorem limitLadder_acts (s : State) : Acts .fd quiet s (State.limitLadder s) := by
  unfold State.limitLadder
  repeat' first
    | fail_if_no_progress extract_lets
    | (with_reducible apply Acts.ite) <;> intro _
    | with_reducible apply Acts.refl
    | with_reducible assumption
    | with_reducible apply wakeAll_trans
    | split
    | dsimp -zeta only
    | dsimp +zetaDelta -zeta only
theorem limitLadder_trans {s : State} {s₀ : State} (h₀ : Acts .fd quiet s₀ s) : Acts .fd quiet s₀ (State.limitLadder s) := h₀.trans (limitLadder_acts ..)
theorem limitLadder_keep {s : State} {s₀ : State} (h₀ : Keep quiet s₀ s) : Keep quiet s₀ (State.limitLadder s) := h₀.trans (limitLadder_acts ..).keep

theorem jobRegs_acts (j : Nat) (s : State) : Acts .fd quiet s (State.jobRegs j s) := by
  unfold State.jobRegs
  repeat' first
    | fail_if_no_progress extract_lets
    | (with_reducible apply Acts.ite) <;> intro _
    | with_reducible apply Acts.refl
    | with_reducible assumption
    | with_reducible apply put_trans
    | with_reducible apply putFlag_trans
    | with_reducible apply limitLadder_trans
    | split
    | dsimp -zeta only
    | dsimp +zetaDelta -zeta only
theorem jobRegs_trans {j : Nat} {s : State} {s₀ : State} (h₀ : Acts .fd quiet s₀ s) : Acts .fd quiet s₀ (State.jobRegs j s) := h₀.trans (jobRegs_acts ..)
theorem jobRegs_keep {j : Nat} {s : State} {s₀ : State} (h₀ : Keep quiet s₀ s) : Keep quiet s₀ (State.jobRegs j s) := h₀.trans (jobRegs_acts ..).keep

theorem bufSync_acts (s : State) : Acts .fd quiet s (State.bufSync s) := by
  unfold State.bufSync
  repeat' first
    | fail_if_no_progress extract_lets
    | (with_reducible apply Acts.ite) <;> intro _
    | with_reducible apply Acts.refl
    | with_reducible assumption
    | with_reducible apply put_trans
    | ((with_reducible apply Acts.foldl_trans); intro _ _)
    | dsimp -zeta only
    | dsimp +zetaDelta -zeta only
theorem bufSync_trans {s : State} {s₀ : State} (h₀ : Acts .fd quiet s₀ s) : Acts .fd quiet s₀ (State.bufSync s) := h₀.trans (bufSync_acts ..)
theorem bufSync_keep {s : State} {s₀ : State} (h₀ : Keep quiet s₀ s) : Keep quiet s₀ (State.bufSync s) := h₀.trans (bufSync_acts ..).keep

theorem hallRec_acts (kind h arg epoch port : Nat) (s : State) (conts : List Nat) : Acts .fd quiet s (State.hallRec kind h arg epoch port s conts) := by
  unfold State.hallRec
  repeat' first
    | fail_if_no_progress extract_lets
    | (with_reducible apply Acts.ite) <;> intro _
    | with_reducible apply Acts.refl
    | with_reducible assumption
    | with_reducible apply record_trans
    | dsimp -zeta only
theorem hallRec_trans {kind h arg epoch port : Nat} {s : State} {conts : List Nat} {s₀ : State} (h₀ : Acts .fd quiet s₀ s) : Acts .fd quiet s₀ (State.hallRec kind h arg epoch port s conts) := h₀.trans (hallRec_acts ..)
theorem hallRec_keep {kind h arg epoch port : Nat} {s : State} {conts : List Nat} {s₀ : State} (h₀ : Keep quiet s₀ s) : Keep quiet s₀ (State.hallRec kind h arg epoch port s conts) := h₀.trans (hallRec_acts ..).keep

theorem sendStale_acts (n job roll h gen epoch cause : Nat) (s : State) : Acts .fd quiet s (State.sendStale n job roll h gen epoch cause s) := by
  unfold State.sendStale
  repeat' first
    | fail_if_no_progress extract_lets
    | (with_reducible apply Acts.ite) <;> intro _
    | with_reducible apply Acts.refl
    | with_reducible assumption
    | with_reducible apply bump_trans
    | with_reducible apply record_trans
    | with_reducible apply sendWord_trans
    | dsimp -zeta only
    | dsimp +zetaDelta -zeta only
theorem sendStale_trans {n job roll h gen epoch cause : Nat} {s : State} {s₀ : State} (h₀ : Acts .fd quiet s₀ s) : Acts .fd quiet s₀ (State.sendStale n job roll h gen epoch cause s) := h₀.trans (sendStale_acts ..)
theorem sendStale_keep {n job roll h gen epoch cause : Nat} {s : State} {s₀ : State} (h₀ : Keep quiet s₀ s) : Keep quiet s₀ (State.sendStale n job roll h gen epoch cause s) := h₀.trans (sendStale_acts ..).keep

theorem hallMisuse_acts (h status epoch port : Nat) (s : State) : Acts .fd quiet s (State.hallMisuse h status epoch port s) := by
  unfold State.hallMisuse
  repeat' first
    | fail_if_no_progress extract_lets
    | (with_reducible apply Acts.ite) <;> intro _
    | with_reducible apply Acts.refl
    | with_reducible assumption
    | with_reducible apply bump_trans
    | with_reducible apply setSlot_trans
    | with_reducible apply hallRec_trans
    | dsimp -zeta only
    | dsimp +zetaDelta -zeta only
theorem hallMisuse_trans {h status epoch port : Nat} {s : State} {s₀ : State} (h₀ : Acts .fd quiet s₀ s) : Acts .fd quiet s₀ (State.hallMisuse h status epoch port s) := h₀.trans (hallMisuse_acts ..)
theorem hallMisuse_keep {h status epoch port : Nat} {s : State} {s₀ : State} (h₀ : Keep quiet s₀ s) : Keep quiet s₀ (State.hallMisuse h status epoch port s) := h₀.trans (hallMisuse_acts ..).keep

theorem countPartial_acts (h : Nat) (payload : Bool) (x : PayIn) (s : State) : Acts .fd quiet s (State.countPartial h payload x s) := by
  unfold State.countPartial
  repeat' first
    | fail_if_no_progress extract_lets
    | (with_reducible apply Acts.ite) <;> intro _
    | with_reducible apply Acts.refl
    | with_reducible assumption
    | with_reducible apply bump_trans
    | (with_reducible apply Acts.snd; with_reducible assumption)
    | split
    | dsimp -zeta only
    | dsimp +zetaDelta -zeta only
theorem countPartial_trans {h : Nat} {payload : Bool} {x : PayIn} {s : State} {s₀ : State} (h₀ : Acts .fd quiet s₀ s) : Acts .fd quiet s₀ (State.countPartial h payload x s) := h₀.trans (countPartial_acts ..)
theorem countPartial_keep {h : Nat} {payload : Bool} {x : PayIn} {s : State} {s₀ : State} (h₀ : Keep quiet s₀ s) : Keep quiet s₀ (State.countPartial h payload x s) := h₀.trans (countPartial_acts ..).keep

theorem sendSlotUp_acts (h : Nat) (s : State) : Acts .fd quiet s (State.sendSlotUp h s) := by
  unfold State.sendSlotUp
  repeat' first
    | fail_if_no_progress extract_lets
    | (with_reducible apply Acts.ite) <;> intro _
    | with_reducible apply Acts.refl
    | with_reducible assumption
    | with_reducible apply sendArrive_trans
    | ((with_reducible apply Acts.foldl_trans); intro _ _)
    | split
    | dsimp -zeta only
    | dsimp +zetaDelta -zeta only
theorem sendSlotUp_trans {h : Nat} {s : State} {s₀ : State} (h₀ : Acts .fd quiet s₀ s) : Acts .fd quiet s₀ (State.sendSlotUp h s) := h₀.trans (sendSlotUp_acts ..)
theorem sendSlotUp_keep {h : Nat} {s : State} {s₀ : State} (h₀ : Keep quiet s₀ s) : Keep quiet s₀ (State.sendSlotUp h s) := h₀.trans (sendSlotUp_acts ..).keep

theorem sendBell_acts (w : BellWord) (beat : Nat) (s : State) : Acts .fd quiet s (State.sendBell w beat s) := by
  unfold State.sendBell
  repeat' first
    | fail_if_no_progress extract_lets
    | (with_reducible apply Acts.ite) <;> intro _
    | with_reducible apply Acts.refl
    | with_reducible assumption
    | with_reducible apply sendWord_trans
    | ((with_reducible apply Acts.foldl_trans); intro _ _)
    | split
    | dsimp -zeta only
    | dsimp +zetaDelta -zeta only
theorem sendBell_trans {w : BellWord} {beat : Nat} {s : State} {s₀ : State} (h₀ : Acts .fd quiet s₀ s) : Acts .fd quiet s₀ (State.sendBell w beat s) := h₀.trans (sendBell_acts ..)
theorem sendBell_keep {w : BellWord} {beat : Nat} {s : State} {s₀ : State} (h₀ : Keep quiet s₀ s) : Keep quiet s₀ (State.sendBell w beat s) := h₀.trans (sendBell_acts ..).keep

theorem scheduleBell_acts (j kind epoch : Nat) (flags : Nat) (s : State) : Acts .fd quiet s (State.scheduleBell j kind epoch flags s) := by
  unfold State.scheduleBell
  repeat' first
    | fail_if_no_progress extract_lets
    | (with_reducible apply Acts.ite) <;> intro _
    | with_reducible apply Acts.refl
    | with_reducible assumption
    | with_reducible apply put_trans
    | with_reducible apply setJob_trans
    | with_reducible apply record_trans
    | with_reducible apply setPj_trans
    | with_reducible apply pjRegs_trans
    | with_reducible apply sendBell_trans
    | ((with_reducible apply Acts.foldl_trans); intro _ _)
    | (with_reducible apply Acts.snd; with_reducible assumption)
    | split
    | dsimp -zeta only
    | dsimp +zetaDelta -zeta only
theorem scheduleBell_trans {j kind epoch : Nat} {flags : Nat} {s : State} {s₀ : State} (h₀ : Acts .fd quiet s₀ s) : Acts .fd quiet s₀ (State.scheduleBell j kind epoch flags s) := h₀.trans (scheduleBell_acts ..)
theorem scheduleBell_keep {j kind epoch : Nat} {flags : Nat} {s : State} {s₀ : State} (h₀ : Keep quiet s₀ s) : Keep quiet s₀ (State.scheduleBell j kind epoch flags s) := h₀.trans (scheduleBell_acts ..).keep

theorem addArrived_acts (h : Nat) (bodies : SMap Body) (s : State) : Acts .fd quiet s (State.addArrived h bodies s) := by
  unfold State.addArrived
  repeat' first
    | fail_if_no_progress extract_lets
    | (with_reducible apply Acts.ite) <;> intro _
    | with_reducible apply Acts.refl
    | with_reducible assumption
    | with_reducible apply setSlot_trans
    | with_reducible apply countPartial_trans
    | ((with_reducible apply Acts.foldl_trans); intro _ _)
    | (with_reducible apply Acts.snd; with_reducible assumption)
    | split
    | dsimp -zeta only
    | dsimp +zetaDelta -zeta only
theorem addArrived_trans {h : Nat} {bodies : SMap Body} {s : State} {s₀ : State} (h₀ : Acts .fd quiet s₀ s) : Acts .fd quiet s₀ (State.addArrived h bodies s) := h₀.trans (addArrived_acts ..)
theorem addArrived_keep {h : Nat} {bodies : SMap Body} {s : State} {s₀ : State} (h₀ : Keep quiet s₀ s) : Keep quiet s₀ (State.addArrived h bodies s) := h₀.trans (addArrived_acts ..).keep

theorem recount_acts (h : Nat) (s : State) : Acts .fd quiet s (State.recount h s) := by
  unfold State.recount
  repeat' first
    | fail_if_no_progress extract_lets
    | (with_reducible apply Acts.ite) <;> intro _
    | with_reducible apply Acts.refl
    | with_reducible assumption
    | with_reducible apply setSlot_trans
    | with_reducible apply bufSync_trans
    | with_reducible apply addArrived_trans
    | split
    | dsimp -zeta only
    | dsimp +zetaDelta -zeta only
theorem recount_trans {h : Nat} {s : State} {s₀ : State} (h₀ : Acts .fd quiet s₀ s) : Acts .fd quiet s₀ (State.recount h s) := h₀.trans (recount_acts ..)
theorem recount_keep {h : Nat} {s : State} {s₀ : State} (h₀ : Keep quiet s₀ s) : Keep quiet s₀ (State.recount h s) := h₀.trans (recount_acts ..).keep

theorem promote_acts (h : Nat) (s : State) : Acts .fd quiet s (State.promote h s) := by
  unfold State.promote
  repeat' first
    | fail_if_no_progress extract_lets
    | (with_reducible apply Acts.ite) <;> intro _
    | with_reducible apply Acts.refl
    | with_reducible assumption
    | with_reducible apply setSlot_trans
    | with_reducible apply freePartials_trans
    | with_reducible apply bufSync_trans
    | with_reducible apply addArrived_trans
    | split
    | dsimp -zeta only
    | dsimp +zetaDelta -zeta only
theorem promote_trans {h : Nat} {s : State} {s₀ : State} (h₀ : Acts .fd quiet s₀ s) : Acts .fd quiet s₀ (State.promote h s) := h₀.trans (promote_acts ..)
theorem promote_keep {h : Nat} {s : State} {s₀ : State} (h₀ : Keep quiet s₀ s) : Keep quiet s₀ (State.promote h s) := h₀.trans (promote_acts ..).keep

theorem sendDone_acts (h mask epoch contrib hash flags : Nat) (s : State) : Acts .fd quiet s (State.sendDone h mask epoch contrib hash flags s) := by
  unfold State.sendDone
  repeat' first
    | fail_if_no_progress extract_lets
    | (with_reducible apply Acts.ite) <;> intro _
    | with_reducible apply Acts.refl
    | with_reducible assumption
    | with_reducible apply sendWords_trans
    | dsimp -zeta only
    | dsimp +zetaDelta -zeta only
theorem sendDone_trans {h mask epoch contrib hash flags : Nat} {s : State} {s₀ : State} (h₀ : Acts .fd quiet s₀ s) : Acts .fd quiet s₀ (State.sendDone h mask epoch contrib hash flags s) := h₀.trans (sendDone_acts ..)
theorem sendDone_keep {h mask epoch contrib hash flags : Nat} {s : State} {s₀ : State} (h₀ : Keep quiet s₀ s) : Keep quiet s₀ (State.sendDone h mask epoch contrib hash flags s) := h₀.trans (sendDone_acts ..).keep

theorem startCombine_acts (c : Combine) (avoid : Nat) (s : State) : Acts .fd quiet s (State.startCombine c avoid s) := by
  unfold State.startCombine
  repeat' first
    | fail_if_no_progress extract_lets
    | (with_reducible apply Acts.ite) <;> intro _
    | with_reducible apply Acts.refl
    | with_reducible assumption
    | with_reducible apply put_trans
    | with_reducible apply bump_trans
    | with_reducible apply setSpare_trans
    | with_reducible apply wake_trans
    | dsimp -zeta only
    | dsimp +zetaDelta -zeta only
theorem startCombine_trans {c : Combine} {avoid : Nat} {s : State} {s₀ : State} (h₀ : Acts .fd quiet s₀ s) : Acts .fd quiet s₀ (State.startCombine c avoid s) := h₀.trans (startCombine_acts ..)
theorem startCombine_keep {c : Combine} {avoid : Nat} {s : State} {s₀ : State} (h₀ : Keep quiet s₀ s) : Keep quiet s₀ (State.startCombine c avoid s) := h₀.trans (startCombine_acts ..).keep

theorem rootComplete_acts (h : Nat) (forced : Bool) (s : State) : Acts .fd quiet s (State.rootComplete h forced s) := by
  unfold State.rootComplete
  repeat' first
    | fail_if_no_progress extract_lets
    | (with_reducible apply Acts.ite) <;> intro _
    | with_reducible apply Acts.refl
    | with_reducible assumption
    | with_reducible apply putFlag_trans
    | with_reducible apply setSlot_trans
    | with_reducible apply jobRegs_trans
    | with_reducible apply hallRec_trans
    | with_reducible apply scheduleBell_trans
    | with_reducible apply promote_trans
    | with_reducible apply sendDone_trans
    | with_reducible apply startCombine_trans
    | ((with_reducible apply Acts.foldl_trans); intro _ _)
    | split
    | dsimp -zeta only
    | dsimp +zetaDelta -zeta only
theorem rootComplete_trans {h : Nat} {forced : Bool} {s : State} {s₀ : State} (h₀ : Acts .fd quiet s₀ s) : Acts .fd quiet s₀ (State.rootComplete h forced s) := h₀.trans (rootComplete_acts ..)
theorem rootComplete_keep {h : Nat} {forced : Bool} {s : State} {s₀ : State} (h₀ : Keep quiet s₀ s) : Keep quiet s₀ (State.rootComplete h forced s) := h₀.trans (rootComplete_acts ..).keep

theorem holdEnd_acts (j : Nat) (s : State) : Acts .fd quiet s (State.holdEnd j s) := by
  unfold State.holdEnd
  repeat' first
    | fail_if_no_progress extract_lets
    | (with_reducible apply Acts.ite) <;> intro _
    | with_reducible apply Acts.refl
    | with_reducible assumption
    | with_reducible apply bump_trans
    | with_reducible apply setJob_trans
    | with_reducible apply setPj_trans
    | (with_reducible apply Acts.snd; with_reducible assumption)
    | split
    | dsimp -zeta only
    | dsimp +zetaDelta -zeta only
theorem holdEnd_trans {j : Nat} {s : State} {s₀ : State} (h₀ : Acts .fd quiet s₀ s) : Acts .fd quiet s₀ (State.holdEnd j s) := h₀.trans (holdEnd_acts ..)
theorem holdEnd_keep {j : Nat} {s : State} {s₀ : State} (h₀ : Keep quiet s₀ s) : Keep quiet s₀ (State.holdEnd j s) := h₀.trans (holdEnd_acts ..).keep

theorem rootFull_acts (h : Nat) (s : State) : Acts .fd quiet s (State.rootFull h s) := by
  unfold State.rootFull
  repeat' first
    | fail_if_no_progress extract_lets
    | (with_reducible apply Acts.ite) <;> intro _
    | with_reducible apply Acts.refl
    | with_reducible assumption
    | with_reducible apply putFlag_trans
    | with_reducible apply setSlot_trans
    | with_reducible apply setPj_trans
    | with_reducible apply rootComplete_trans
    | with_reducible apply holdEnd_trans
    | split
    | dsimp -zeta only
    | dsimp +zetaDelta -zeta only
theorem rootFull_trans {h : Nat} {s : State} {s₀ : State} (h₀ : Acts .fd quiet s₀ s) : Acts .fd quiet s₀ (State.rootFull h s) := h₀.trans (rootFull_acts ..)
theorem rootFull_keep {h : Nat} {s : State} {s₀ : State} (h₀ : Keep quiet s₀ s) : Keep quiet s₀ (State.rootFull h s) := h₀.trans (rootFull_acts ..).keep

theorem hallCheck_acts (h : Nat) (y0 : Nat) (s : State) : Acts .fd quiet s (State.hallCheck h y0 s) := by
  induction y0 generalizing s with
  | zero =>
    unfold State.hallCheck
    repeat' first
    | fail_if_no_progress extract_lets
    | (with_reducible apply Acts.ite) <;> intro _
    | with_reducible apply Acts.refl
    | with_reducible assumption
    | with_reducible apply putFlag_trans
    | with_reducible apply setSlot_trans
    | with_reducible apply sendSlotUp_trans
    | with_reducible apply rootComplete_trans
    | with_reducible apply holdEnd_trans
    | with_reducible apply rootFull_trans
    | split
    | dsimp -zeta only
    | dsimp +zetaDelta -zeta only
  | succ k ih =>
    unfold State.hallCheck
    repeat' first
    | fail_if_no_progress extract_lets
    | (with_reducible apply Acts.ite) <;> intro _
    | with_reducible apply Acts.refl
    | with_reducible apply Acts.step ih
    | with_reducible assumption
    | with_reducible apply putFlag_trans
    | with_reducible apply setSlot_trans
    | with_reducible apply sendSlotUp_trans
    | with_reducible apply rootComplete_trans
    | with_reducible apply holdEnd_trans
    | with_reducible apply rootFull_trans
    | split
    | dsimp -zeta only
    | dsimp +zetaDelta -zeta only
theorem hallCheck_trans {h : Nat} {y0 : Nat} {s : State} {s₀ : State} (h₀ : Acts .fd quiet s₀ s) : Acts .fd quiet s₀ (State.hallCheck h y0 s) := h₀.trans (hallCheck_acts ..)
theorem hallCheck_keep {h : Nat} {y0 : Nat} {s : State} {s₀ : State} (h₀ : Keep quiet s₀ s) : Keep quiet s₀ (State.hallCheck h y0 s) := h₀.trans (hallCheck_acts ..).keep

theorem hallTest_acts (h : Nat) (s : State) : Acts .fd quiet s (State.hallTest h s) := by
  unfold State.hallTest
  repeat' first
    | fail_if_no_progress extract_lets
    | (with_reducible apply Acts.ite) <;> intro _
    | with_reducible apply Acts.refl
    | with_reducible assumption
    | with_reducible apply hallCheck_trans
    | dsimp -zeta only
theorem hallTest_trans {h : Nat} {s : State} {s₀ : State} (h₀ : Acts .fd quiet s₀ s) : Acts .fd quiet s₀ (State.hallTest h s) := h₀.trans (hallTest_acts ..)
theorem hallTest_keep {h : Nat} {s : State} {s₀ : State} (h₀ : Keep quiet s₀ s) : Keep quiet s₀ (State.hallTest h s) := h₀.trans (hallTest_acts ..).keep

theorem arriveRec_acts (a : Arr) (row : Nat) (s : State) : Acts .fd quiet s (State.arriveRec a row s) := by
  unfold State.arriveRec
  repeat' first
    | fail_if_no_progress extract_lets
    | (with_reducible apply Acts.ite) <;> intro _
    | with_reducible apply Acts.refl
    | with_reducible assumption
    | with_reducible apply record_trans
    | dsimp -zeta only
theorem arriveRec_trans {a : Arr} {row : Nat} {s : State} {s₀ : State} (h₀ : Acts .fd quiet s₀ s) : Acts .fd quiet s₀ (State.arriveRec a row s) := h₀.trans (arriveRec_acts ..)
theorem arriveRec_keep {a : Arr} {row : Nat} {s : State} {s₀ : State} (h₀ : Keep quiet s₀ s) : Keep quiet s₀ (State.arriveRec a row s) := h₀.trans (arriveRec_acts ..).keep

theorem forwardLate_acts (a : Arr) (body : Option Body) (s : State) : Acts .fd quiet s (State.forwardLate a body s) := by
  unfold State.forwardLate
  repeat' first
    | fail_if_no_progress extract_lets
    | (with_reducible apply Acts.ite) <;> intro _
    | with_reducible apply Acts.refl
    | with_reducible assumption
    | with_reducible apply sendArrive_trans
    | split
    | dsimp -zeta only
theorem forwardLate_trans {a : Arr} {body : Option Body} {s : State} {s₀ : State} (h₀ : Acts .fd quiet s₀ s) : Acts .fd quiet s₀ (State.forwardLate a body s) := h₀.trans (forwardLate_acts ..)
theorem forwardLate_keep {a : Arr} {body : Option Body} {s : State} {s₀ : State} (h₀ : Keep quiet s₀ s) : Keep quiet s₀ (State.forwardLate a body s) := h₀.trans (forwardLate_acts ..).keep

theorem markVia_acts (a : Arr) (k : Nat) (s : State) : Acts .fd quiet s (State.markVia a k s) := by
  unfold State.markVia
  repeat' first
    | fail_if_no_progress extract_lets
    | (with_reducible apply Acts.ite) <;> intro _
    | with_reducible apply Acts.refl
    | with_reducible assumption
    | with_reducible apply setSlot_trans
    | split
    | dsimp -zeta only
    | dsimp +zetaDelta -zeta only
theorem markVia_trans {a : Arr} {k : Nat} {s : State} {s₀ : State} (h₀ : Acts .fd quiet s₀ s) : Acts .fd quiet s₀ (State.markVia a k s) := h₀.trans (markVia_acts ..)
theorem markVia_keep {a : Arr} {k : Nat} {s : State} {s₀ : State} (h₀ : Keep quiet s₀ s) : Keep quiet s₀ (State.markVia a k s) := h₀.trans (markVia_acts ..).keep

theorem countArr_acts (a : Arr) (x : PayIn) (s : State) : Acts .fd quiet s (State.countArr a x s) := by
  unfold State.countArr
  repeat' first
    | fail_if_no_progress extract_lets
    | (with_reducible apply Acts.ite) <;> intro _
    | with_reducible apply Acts.refl
    | with_reducible assumption
    | with_reducible apply setSlot_trans
    | with_reducible apply countPartial_trans
    | with_reducible apply markVia_trans
    | split
    | dsimp -zeta only
    | dsimp +zetaDelta -zeta only
theorem countArr_trans {a : Arr} {x : PayIn} {s : State} {s₀ : State} (h₀ : Acts .fd quiet s₀ s) : Acts .fd quiet s₀ (State.countArr a x s) := h₀.trans (countArr_acts ..)
theorem countArr_keep {a : Arr} {x : PayIn} {s : State} {s₀ : State} (h₀ : Keep quiet s₀ s) : Keep quiet s₀ (State.countArr a x s) := h₀.trans (countArr_acts ..).keep

theorem peerCopy_acts (a : Arr) (x : PayIn) (s : State) : Acts .fd quiet s (State.peerCopy a x s) := by
  unfold State.peerCopy
  repeat' first
    | fail_if_no_progress extract_lets
    | (with_reducible apply Acts.ite) <;> intro _
    | with_reducible apply Acts.refl
    | with_reducible assumption
    | with_reducible apply sendArrive_trans
    | (with_reducible apply Acts.snd; with_reducible assumption)
    | split
    | dsimp -zeta only
theorem peerCopy_trans {a : Arr} {x : PayIn} {s : State} {s₀ : State} (h₀ : Acts .fd quiet s₀ s) : Acts .fd quiet s₀ (State.peerCopy a x s) := h₀.trans (peerCopy_acts ..)
theorem peerCopy_keep {a : Arr} {x : PayIn} {s : State} {s₀ : State} (h₀ : Keep quiet s₀ s) : Keep quiet s₀ (State.peerCopy a x s) := h₀.trans (peerCopy_acts ..).keep

theorem applyRows_acts (a : Arr) (x : PayIn) (s : State) : Acts .fd quiet s (State.applyRows a x s) := by
  unfold State.applyRows
  repeat' first
    | fail_if_no_progress extract_lets
    | (with_reducible apply Acts.ite) <;> intro _
    | with_reducible apply Acts.refl
    | with_reducible assumption
    | with_reducible apply bump_trans
    | with_reducible apply setSlot_trans
    | with_reducible apply bufSync_trans
    | with_reducible apply sendStale_trans
    | with_reducible apply hallMisuse_trans
    | with_reducible apply countPartial_trans
    | with_reducible apply hallTest_trans
    | with_reducible apply arriveRec_trans
    | with_reducible apply forwardLate_trans
    | with_reducible apply markVia_trans
    | with_reducible apply countArr_trans
    | ((with_reducible apply Acts.foldl_trans); intro _ _)
    | (with_reducible apply Acts.snd; with_reducible assumption)
    | split
    | dsimp -zeta only
    | dsimp +zetaDelta -zeta only
theorem applyRows_trans {a : Arr} {x : PayIn} {s : State} {s₀ : State} (h₀ : Acts .fd quiet s₀ s) : Acts .fd quiet s₀ (State.applyRows a x s) := h₀.trans (applyRows_acts ..)
theorem applyRows_keep {a : Arr} {x : PayIn} {s : State} {s₀ : State} (h₀ : Keep quiet s₀ s) : Keep quiet s₀ (State.applyRows a x s) := h₀.trans (applyRows_acts ..).keep

theorem applyArrive_acts (a : Arr) (x : PayIn) (s : State) : Acts .fd quiet s (State.applyArrive a x s) := by
  unfold State.applyArrive
  repeat' first
    | fail_if_no_progress extract_lets
    | (with_reducible apply Acts.ite) <;> intro _
    | with_reducible apply Acts.refl
    | with_reducible assumption
    | with_reducible apply peerCopy_trans
    | with_reducible apply applyRows_trans
    | split
    | dsimp -zeta only
    | dsimp +zetaDelta -zeta only
theorem applyArrive_trans {a : Arr} {x : PayIn} {s : State} {s₀ : State} (h₀ : Acts .fd quiet s₀ s) : Acts .fd quiet s₀ (State.applyArrive a x s) := h₀.trans (applyArrive_acts ..)
theorem applyArrive_keep {a : Arr} {x : PayIn} {s : State} {s₀ : State} (h₀ : Keep quiet s₀ s) : Keep quiet s₀ (State.applyArrive a x s) := h₀.trans (applyArrive_acts ..).keep

theorem holdArr_acts (n : Nat) (w : CtlWord) (s : State) : Acts .fd quiet s (State.holdArr n w s) := by
  unfold State.holdArr
  repeat' first
    | fail_if_no_progress extract_lets
    | (with_reducible apply Acts.ite) <;> intro _
    | with_reducible apply Acts.refl
    | with_reducible assumption
    | with_reducible apply setHall_trans
    | dsimp -zeta only
theorem holdArr_trans {n : Nat} {w : CtlWord} {s : State} {s₀ : State} (h₀ : Acts .fd quiet s₀ s) : Acts .fd quiet s₀ (State.holdArr n w s) := h₀.trans (holdArr_acts ..)
theorem holdArr_keep {n : Nat} {w : CtlWord} {s : State} {s₀ : State} (h₀ : Keep quiet s₀ s) : Keep quiet s₀ (State.holdArr n w s) := h₀.trans (holdArr_acts ..).keep

theorem runArrive_acts (a : Arr) (w : CtlWord) (x : PayIn) (s : State) : Acts .fd quiet s (State.runArrive a w x s) := by
  unfold State.runArrive
  repeat' first
    | fail_if_no_progress extract_lets
    | (with_reducible apply Acts.ite) <;> intro _
    | with_reducible apply Acts.refl
    | with_reducible assumption
    | with_reducible apply startCombine_trans
    | with_reducible apply applyArrive_trans
    | (with_reducible apply Acts.snd; with_reducible assumption)
    | split
    | dsimp -zeta only
theorem runArrive_trans {a : Arr} {w : CtlWord} {x : PayIn} {s : State} {s₀ : State} (h₀ : Acts .fd quiet s₀ s) : Acts .fd quiet s₀ (State.runArrive a w x s) := h₀.trans (runArrive_acts ..)
theorem runArrive_keep {a : Arr} {w : CtlWord} {x : PayIn} {s : State} {s₀ : State} (h₀ : Keep quiet s₀ s) : Keep quiet s₀ (State.runArrive a w x s) := h₀.trans (runArrive_acts ..).keep

theorem waitBuffer_acts (a : Arr) (w : CtlWord) (r : RxBody) (s : State) : Acts .fd quiet s (State.waitBuffer a w r s) := by
  unfold State.waitBuffer
  repeat' first
    | fail_if_no_progress extract_lets
    | (with_reducible apply Acts.ite) <;> intro _
    | with_reducible apply Acts.refl
    | with_reducible assumption
    | with_reducible apply bump_trans
    | with_reducible apply modRx_trans
    | with_reducible apply holdArr_trans
    | split
    | dsimp -zeta only
    | dsimp +zetaDelta -zeta only
theorem waitBuffer_trans {a : Arr} {w : CtlWord} {r : RxBody} {s : State} {s₀ : State} (h₀ : Acts .fd quiet s₀ s) : Acts .fd quiet s₀ (State.waitBuffer a w r s) := h₀.trans (waitBuffer_acts ..)
theorem waitBuffer_keep {a : Arr} {w : CtlWord} {r : RxBody} {s : State} {s₀ : State} (h₀ : Keep quiet s₀ s) : Keep quiet s₀ (State.waitBuffer a w r s) := h₀.trans (waitBuffer_acts ..).keep

theorem tryArrive_acts (a : Arr) (w : CtlWord) (s : State) : Acts .fd quiet s (State.tryArrive a w s) := by
  unfold State.tryArrive
  repeat' first
    | fail_if_no_progress extract_lets
    | (with_reducible apply Acts.ite) <;> intro _
    | with_reducible apply Acts.refl
    | with_reducible assumption
    | with_reducible apply dropRx_trans
    | with_reducible apply nameBody_trans
    | with_reducible apply holdArr_trans
    | with_reducible apply runArrive_trans
    | with_reducible apply waitBuffer_trans
    | (with_reducible apply Acts.snd; with_reducible assumption)
    | split
    | dsimp -zeta only
theorem tryArrive_trans {a : Arr} {w : CtlWord} {s : State} {s₀ : State} (h₀ : Acts .fd quiet s₀ s) : Acts .fd quiet s₀ (State.tryArrive a w s) := h₀.trans (tryArrive_acts ..)
theorem tryArrive_keep {a : Arr} {w : CtlWord} {s : State} {s₀ : State} (h₀ : Keep quiet s₀ s) : Keep quiet s₀ (State.tryArrive a w s) := h₀.trans (tryArrive_acts ..).keep

theorem withdrawUp_acts (h : Nat) (v : HSlot) (s : State) : Acts .fd quiet s (State.withdrawUp h v s) := by
  unfold State.withdrawUp
  repeat' first
    | fail_if_no_progress extract_lets
    | (with_reducible apply Acts.ite) <;> intro _
    | with_reducible apply Acts.refl
    | with_reducible assumption
    | with_reducible apply sendUp_trans
    | dsimp -zeta only
theorem withdrawUp_trans {h : Nat} {v : HSlot} {s : State} {s₀ : State} (h₀ : Acts .fd quiet s₀ s) : Acts .fd quiet s₀ (State.withdrawUp h v s) := h₀.trans (withdrawUp_acts ..)
theorem withdrawUp_keep {h : Nat} {v : HSlot} {s : State} {s₀ : State} (h₀ : Keep quiet s₀ s) : Keep quiet s₀ (State.withdrawUp h v s) := h₀.trans (withdrawUp_acts ..).keep

theorem applyWithdraw_acts (n : Nat) (w : CtlWord) (h gen epoch src : Nat) (s0 : State) : Acts .fd quiet s0 (State.applyWithdraw n w h gen epoch src s0) := by
  unfold State.applyWithdraw
  repeat' first
    | fail_if_no_progress extract_lets
    | (with_reducible apply Acts.ite) <;> intro _
    | with_reducible apply Acts.refl
    | with_reducible assumption
    | with_reducible apply setSlot_trans
    | with_reducible apply sendWord_trans
    | with_reducible apply sendStale_trans
    | with_reducible apply hallTest_trans
    | with_reducible apply withdrawUp_trans
    | (with_reducible apply Acts.snd; with_reducible assumption)
    | split
    | dsimp -zeta only
    | dsimp +zetaDelta -zeta only
theorem applyWithdraw_trans {n : Nat} {w : CtlWord} {h gen epoch src : Nat} {s0 : State} {s₀ : State} (h₀ : Acts .fd quiet s₀ s0) : Acts .fd quiet s₀ (State.applyWithdraw n w h gen epoch src s0) := h₀.trans (applyWithdraw_acts ..)
theorem applyWithdraw_keep {n : Nat} {w : CtlWord} {h gen epoch src : Nat} {s0 : State} {s₀ : State} (h₀ : Keep quiet s₀ s0) : Keep quiet s₀ (State.applyWithdraw n w h gen epoch src s0) := h₀.trans (applyWithdraw_acts ..).keep

theorem badSrc_acts (n job h gen epoch : Nat) (s : State) : Acts .fd quiet s (State.badSrc n job h gen epoch s) := by
  unfold State.badSrc
  repeat' first
    | fail_if_no_progress extract_lets
    | (with_reducible apply Acts.ite) <;> intro _
    | with_reducible apply Acts.refl
    | with_reducible assumption
    | with_reducible apply bump_trans
    | with_reducible apply record_trans
    | dsimp -zeta only
theorem badSrc_trans {n job h gen epoch : Nat} {s : State} {s₀ : State} (h₀ : Acts .fd quiet s₀ s) : Acts .fd quiet s₀ (State.badSrc n job h gen epoch s) := h₀.trans (badSrc_acts ..)
theorem badSrc_keep {n job h gen epoch : Nat} {s : State} {s₀ : State} (h₀ : Keep quiet s₀ s) : Keep quiet s₀ (State.badSrc n job h gen epoch s) := h₀.trans (badSrc_acts ..).keep

theorem hallWord_acts (n : Nat) (w : CtlWord) (s : State) : Acts .fd quiet s (State.hallWord n w s) := by
  unfold State.hallWord
  repeat' first
    | fail_if_no_progress extract_lets
    | (with_reducible apply Acts.ite) <;> intro _
    | with_reducible apply Acts.refl
    | with_reducible assumption
    | with_reducible apply holdArr_trans
    | with_reducible apply tryArrive_trans
    | with_reducible apply applyWithdraw_trans
    | with_reducible apply badSrc_trans
    | (with_reducible apply Acts.snd; with_reducible assumption)
    | split
    | dsimp -zeta only
theorem hallWord_trans {n : Nat} {w : CtlWord} {s : State} {s₀ : State} (h₀ : Acts .fd quiet s₀ s) : Acts .fd quiet s₀ (State.hallWord n w s) := h₀.trans (hallWord_acts ..)
theorem hallWord_keep {n : Nat} {w : CtlWord} {s : State} {s₀ : State} (h₀ : Keep quiet s₀ s) : Keep quiet s₀ (State.hallWord n w s) := h₀.trans (hallWord_acts ..).keep

theorem retryHeld_acts (s : State) : Acts .fd quiet s (State.retryHeld s) := by
  unfold State.retryHeld
  repeat' first
    | fail_if_no_progress extract_lets
    | (with_reducible apply Acts.ite) <;> intro _
    | with_reducible apply Acts.refl
    | with_reducible assumption
    | with_reducible apply setHall_trans
    | with_reducible apply hallWord_trans
    | ((with_reducible apply Acts.foldl_trans); intro _ _)
    | dsimp -zeta only
    | dsimp +zetaDelta -zeta only
theorem retryHeld_trans {s : State} {s₀ : State} (h₀ : Acts .fd quiet s₀ s) : Acts .fd quiet s₀ (State.retryHeld s) := h₀.trans (retryHeld_acts ..)
theorem retryHeld_keep {s : State} {s₀ : State} (h₀ : Keep quiet s₀ s) : Keep quiet s₀ (State.retryHeld s) := h₀.trans (retryHeld_acts ..).keep

theorem payPorts_acts (h : Nat) (s : State) : Acts .fd quiet s (State.payPorts h s) := by
  unfold State.payPorts
  repeat' first
    | fail_if_no_progress extract_lets
    | (with_reducible apply Acts.ite) <;> intro _
    | with_reducible apply Acts.refl
    | with_reducible assumption
    | with_reducible apply setSlot_trans
    | with_reducible apply record_trans
    | ((with_reducible apply Acts.foldl_trans); intro _ _)
    | dsimp -zeta only
    | dsimp +zetaDelta -zeta only
theorem payPorts_trans {h : Nat} {s : State} {s₀ : State} (h₀ : Acts .fd quiet s₀ s) : Acts .fd quiet s₀ (State.payPorts h s) := h₀.trans (payPorts_acts ..)
theorem payPorts_keep {h : Nat} {s : State} {s₀ : State} (h₀ : Keep quiet s₀ s) : Keep quiet s₀ (State.payPorts h s) := h₀.trans (payPorts_acts ..).keep

theorem closeSlot_acts (h : Nat) (s : State) : Acts .fd quiet s (State.closeSlot h s) := by
  unfold State.closeSlot
  repeat' first
    | fail_if_no_progress extract_lets
    | (with_reducible apply Acts.ite) <;> intro _
    | with_reducible apply Acts.refl
    | with_reducible assumption
    | with_reducible apply setSlot_trans
    | with_reducible apply sendSlotUp_trans
    | with_reducible apply payPorts_trans
    | dsimp -zeta only
    | dsimp +zetaDelta -zeta only
theorem closeSlot_trans {h : Nat} {s : State} {s₀ : State} (h₀ : Acts .fd quiet s₀ s) : Acts .fd quiet s₀ (State.closeSlot h s) := h₀.trans (closeSlot_acts ..)
theorem closeSlot_keep {h : Nat} {s : State} {s₀ : State} (h₀ : Keep quiet s₀ s) : Keep quiet s₀ (State.closeSlot h s) := h₀.trans (closeSlot_acts ..).keep

theorem called_acts (h epoch : Nat) (s : State) : Acts .fd quiet s (State.called h epoch s) := by
  unfold State.called
  repeat' first
    | fail_if_no_progress extract_lets
    | (with_reducible apply Acts.ite) <;> intro _
    | with_reducible apply Acts.refl
    | with_reducible assumption
    | with_reducible apply setSlot_trans
    | with_reducible apply sendWords_trans
    | with_reducible apply closeSlot_trans
    | ((with_reducible apply Acts.foldl_trans); intro _ _)
    | split
    | dsimp -zeta only
    | dsimp +zetaDelta -zeta only
theorem called_trans {h epoch : Nat} {s : State} {s₀ : State} (h₀ : Acts .fd quiet s₀ s) : Acts .fd quiet s₀ (State.called h epoch s) := h₀.trans (called_acts ..)
theorem called_keep {h epoch : Nat} {s : State} {s₀ : State} (h₀ : Keep quiet s₀ s) : Keep quiet s₀ (State.called h epoch s) := h₀.trans (called_acts ..).keep

theorem hallDone_acts (w : CtlWord) (h gen epoch contrib hash flags : Nat) (s : State) : Acts .fd quiet s (State.hallDone w h gen epoch contrib hash flags s) := by
  unfold State.hallDone
  repeat' first
    | fail_if_no_progress extract_lets
    | (with_reducible apply Acts.ite) <;> intro _
    | with_reducible apply Acts.refl
    | with_reducible assumption
    | with_reducible apply setSlot_trans
    | with_reducible apply sendWords_trans
    | with_reducible apply freePartials_trans
    | with_reducible apply hallRec_trans
    | with_reducible apply promote_trans
    | with_reducible apply hallTest_trans
    | with_reducible apply called_trans
    | ((with_reducible apply Acts.foldl_trans); intro _ _)
    | split
    | dsimp -zeta only
    | dsimp +zetaDelta -zeta only
theorem hallDone_trans {w : CtlWord} {h gen epoch contrib hash flags : Nat} {s : State} {s₀ : State} (h₀ : Acts .fd quiet s₀ s) : Acts .fd quiet s₀ (State.hallDone w h gen epoch contrib hash flags s) := h₀.trans (hallDone_acts ..)
theorem hallDone_keep {w : CtlWord} {h gen epoch contrib hash flags : Nat} {s : State} {s₀ : State} (h₀ : Keep quiet s₀ s) : Keep quiet s₀ (State.hallDone w h gen epoch contrib hash flags s) := h₀.trans (hallDone_acts ..).keep

theorem callOut_acts (h : Nat) (s : State) : Acts .fd quiet s (State.callOut h s) := by
  unfold State.callOut
  repeat' first
    | fail_if_no_progress extract_lets
    | (with_reducible apply Acts.ite) <;> intro _
    | with_reducible apply Acts.refl
    | with_reducible assumption
    | with_reducible apply setSlot_trans
    | with_reducible apply sendWords_trans
    | with_reducible apply called_trans
    | split
    | dsimp -zeta only
    | dsimp +zetaDelta -zeta only
theorem callOut_trans {h : Nat} {s : State} {s₀ : State} (h₀ : Acts .fd quiet s₀ s) : Acts .fd quiet s₀ (State.callOut h s) := h₀.trans (callOut_acts ..)
theorem callOut_keep {h : Nat} {s : State} {s₀ : State} (h₀ : Keep quiet s₀ s) : Keep quiet s₀ (State.callOut h s) := h₀.trans (callOut_acts ..).keep

theorem decideQuorum_acts (h : Nat) (s : State) : Acts .fd quiet s (State.decideQuorum h s) := by
  unfold State.decideQuorum
  repeat' first
    | fail_if_no_progress extract_lets
    | (with_reducible apply Acts.ite) <;> intro _
    | with_reducible apply Acts.refl
    | with_reducible assumption
    | with_reducible apply setSlot_trans
    | with_reducible apply hbarInt_trans
    | with_reducible apply rootComplete_trans
    | with_reducible apply hallTest_trans
    | split
    | dsimp -zeta only
    | dsimp +zetaDelta -zeta only
theorem decideQuorum_trans {h : Nat} {s : State} {s₀ : State} (h₀ : Acts .fd quiet s₀ s) : Acts .fd quiet s₀ (State.decideQuorum h s) := h₀.trans (decideQuorum_acts ..)
theorem decideQuorum_keep {h : Nat} {s : State} {s₀ : State} (h₀ : Keep quiet s₀ s) : Keep quiet s₀ (State.decideQuorum h s) := h₀.trans (decideQuorum_acts ..).keep

theorem recheckJob_acts (j : Nat) (s : State) : Acts .fd quiet s (State.recheckJob j s) := by
  unfold State.recheckJob
  repeat' first
    | fail_if_no_progress extract_lets
    | (with_reducible apply Acts.ite) <;> intro _
    | with_reducible apply Acts.refl
    | with_reducible assumption
    | with_reducible apply hallTest_trans
    | ((with_reducible apply Acts.foldl_trans); intro _ _)
    | dsimp -zeta only
theorem recheckJob_trans {j : Nat} {s : State} {s₀ : State} (h₀ : Acts .fd quiet s₀ s) : Acts .fd quiet s₀ (State.recheckJob j s) := h₀.trans (recheckJob_acts ..)
theorem recheckJob_keep {j : Nat} {s : State} {s₀ : State} (h₀ : Keep quiet s₀ s) : Keep quiet s₀ (State.recheckJob j s) := h₀.trans (recheckJob_acts ..).keep

theorem memberChange_acts (j roll action gen : Nat) (s : State) : Acts .fd quiet s (State.memberChange j roll action gen s) := by
  unfold State.memberChange
  repeat' first
    | fail_if_no_progress extract_lets
    | (with_reducible apply Acts.ite) <;> intro _
    | with_reducible apply Acts.refl
    | with_reducible assumption
    | with_reducible apply setJob_trans
    | with_reducible apply jobRegs_trans
    | with_reducible apply recheckJob_trans
    | dsimp -zeta only
    | dsimp +zetaDelta -zeta only
theorem memberChange_trans {j roll action gen : Nat} {s : State} {s₀ : State} (h₀ : Acts .fd quiet s₀ s) : Acts .fd quiet s₀ (State.memberChange j roll action gen s) := h₀.trans (memberChange_acts ..)
theorem memberChange_keep {j roll action gen : Nat} {s : State} {s₀ : State} (h₀ : Keep quiet s₀ s) : Keep quiet s₀ (State.memberChange j roll action gen s) := h₀.trans (memberChange_acts ..).keep

theorem carryNow_acts (mask : Nat) (took : Bool) (s : State) : Acts .fd quiet s (State.carryNow mask took s) := by
  unfold State.carryNow
  repeat' first
    | fail_if_no_progress extract_lets
    | (with_reducible apply Acts.ite) <;> intro _
    | with_reducible apply Acts.refl
    | with_reducible assumption
    | with_reducible apply setHall_trans
    | with_reducible apply sendSlotUp_trans
    | with_reducible apply recount_trans
    | with_reducible apply hallTest_trans
    | ((with_reducible apply Acts.foldl_trans); intro _ _)
    | split
    | dsimp -zeta only
    | dsimp +zetaDelta -zeta only
theorem carryNow_trans {mask : Nat} {took : Bool} {s : State} {s₀ : State} (h₀ : Acts .fd quiet s₀ s) : Acts .fd quiet s₀ (State.carryNow mask took s) := h₀.trans (carryNow_acts ..)
theorem carryNow_keep {mask : Nat} {took : Bool} {s : State} {s₀ : State} (h₀ : Keep quiet s₀ s) : Keep quiet s₀ (State.carryNow mask took s) := h₀.trans (carryNow_acts ..).keep

theorem carryBelow_acts (n away : Nat) (s : State) : Acts .fd quiet s (State.carryBelow n away s) := by
  unfold State.carryBelow
  repeat' first
    | fail_if_no_progress extract_lets
    | (with_reducible apply Acts.ite) <;> intro _
    | with_reducible apply Acts.refl
    | with_reducible assumption
    | with_reducible apply modLink_trans
    | with_reducible apply setHall_trans
    | with_reducible apply recheckJob_trans
    | ((with_reducible apply Acts.foldl_trans); intro _ _)
    | dsimp -zeta only
    | dsimp +zetaDelta -zeta only
theorem carryBelow_trans {n away : Nat} {s : State} {s₀ : State} (h₀ : Acts .fd quiet s₀ s) : Acts .fd quiet s₀ (State.carryBelow n away s) := h₀.trans (carryBelow_acts ..)
theorem carryBelow_keep {n away : Nat} {s : State} {s₀ : State} (h₀ : Keep quiet s₀ s) : Keep quiet s₀ (State.carryBelow n away s) := h₀.trans (carryBelow_acts ..).keep

end Sys2Proof.Machine
end

