-- ==== Sys2Proof/Laws/ActsHallCmds.lean ====
section
/-! SUPPORT. One lemma an operation: what it keeps (Acts, Keep). -/

namespace Sys2Proof.Machine

open Sys2Proof

set_option linter.unusedTactic false
set_option linter.unreachableTactic false
set_option linter.unusedVariables false

variable {quiet : Bool}

theorem takeWord_acts (p : Part) (n : Nat) (w : CtlWord) (s : State) : Acts p quiet s (State.takeWord p n w s) := by
  unfold State.takeWord
  repeat' first
    | fail_if_no_progress extract_lets
    | (with_reducible apply Acts.ite) <;> intro _
    | with_reducible apply Acts.refl
    | with_reducible assumption
    | with_reducible apply setUnit_trans
    | dsimp -zeta only
theorem takeWord_trans {p : Part} {n : Nat} {w : CtlWord} {s : State} {s₀ : State} (h₀ : Acts p quiet s₀ s) : Acts p quiet s₀ (State.takeWord p n w s) := h₀.trans (takeWord_acts ..)
theorem takeWord_keep {p : Part} {n : Nat} {w : CtlWord} {s : State} {s₀ : State} (h₀ : Keep quiet s₀ s) : Keep quiet s₀ (State.takeWord p n w s) := h₀.trans (takeWord_acts ..).keep

theorem onWord_trans {n : Nat} {w : CtlWord} {f : State → State} {s₀ s : State} (h : ∀ t, Acts .fd quiet t (f t)) (k : Acts .fd quiet s₀ s) :
    Acts .fd quiet s₀ (s.onWord n w f) := by
  refine k.trans ?_
  unfold State.onWord
  extract_lets
  split
  · exact setHall_trans (takeWord_acts ..)
  · exact (takeWord_acts ..).trans (h _)

theorem onWord_keep {n : Nat} {w : CtlWord} {f : State → State} {s₀ s : State} (h : ∀ t, Keep quiet t (f t)) (k : Keep quiet s₀ s) :
    Keep quiet s₀ (s.onWord n w f) := by
  refine k.trans ?_
  unfold State.onWord
  extract_lets
  split
  · exact (setHall_trans (takeWord_acts ..)).keep
  · exact (takeWord_acts ..).keep.trans (h _)

theorem execArriveWord_acts (n job hslot gen epoch src ht32 : Nat) (payload : Bool) (ptag : Nat) (s : State) : ActsO .fd quiet s (execArriveWord n job hslot gen epoch src ht32 payload ptag s) := by
  unfold execArriveWord
  repeat' first
    | fail_if_no_progress extract_lets
    | (with_reducible apply ActsO.ite) <;> intro _
    | with_reducible apply ActsO.next
    | (with_reducible apply Acts.ite) <;> intro _
    | with_reducible apply Acts.refl
    | with_reducible assumption
    | with_reducible apply hallWord_trans
    | with_reducible apply onWord_trans
    | intro _
    | dsimp -zeta only
    | dsimp +zetaDelta -zeta only

theorem execWithdrawWord_acts (n job hslot gen epoch src ht32 : Nat) (s : State) : ActsO .fd quiet s (execWithdrawWord n job hslot gen epoch src ht32 s) := by
  unfold execWithdrawWord
  repeat' first
    | fail_if_no_progress extract_lets
    | (with_reducible apply ActsO.ite) <;> intro _
    | with_reducible apply ActsO.next
    | (with_reducible apply Acts.ite) <;> intro _
    | with_reducible apply Acts.refl
    | with_reducible assumption
    | with_reducible apply hallWord_trans
    | with_reducible apply onWord_trans
    | intro _
    | dsimp -zeta only
    | dsimp +zetaDelta -zeta only

theorem execDoneWord_acts (n job hslot gen epoch contrib hash flags : Nat) (s : State) : ActsO .fd quiet s (execDoneWord n job hslot gen epoch contrib hash flags s) := by
  unfold execDoneWord
  repeat' first
    | fail_if_no_progress extract_lets
    | (with_reducible apply ActsO.ite) <;> intro _
    | with_reducible apply ActsO.next
    | (with_reducible apply Acts.ite) <;> intro _
    | with_reducible apply Acts.refl
    | with_reducible assumption
    | with_reducible apply retryHeld_trans
    | with_reducible apply hallDone_trans
    | with_reducible apply takeWord_trans
    | dsimp -zeta only
    | dsimp +zetaDelta -zeta only

theorem execRootDeadline_acts (h : Nat) (s : State) : KeepO quiet s (execRootDeadline h s) := by
  unfold execRootDeadline
  repeat' first
    | fail_if_no_progress extract_lets
    | (with_reducible apply KeepO.ite) <;> intro _
    | with_reducible apply KeepO.next
    | (with_reducible apply Keep.ite) <;> intro _
    | with_reducible apply Keep.refl
    | with_reducible assumption
    | with_reducible apply awaitBeat32_keep
    | with_reducible apply callOut_keep
    | split
    | dsimp -zeta only
    | dsimp +zetaDelta -zeta only

theorem execMidAnswerDeadline_acts (h : Nat) (s : State) : KeepO quiet s (execMidAnswerDeadline h s) := by
  unfold execMidAnswerDeadline
  repeat' first
    | fail_if_no_progress extract_lets
    | (with_reducible apply KeepO.ite) <;> intro _
    | with_reducible apply KeepO.next
    | (with_reducible apply Keep.ite) <;> intro _
    | with_reducible apply Keep.refl
    | with_reducible assumption
    | with_reducible apply awaitBeat32_keep
    | with_reducible apply closeSlot_keep
    | with_reducible apply called_keep
    | dsimp -zeta only
    | dsimp +zetaDelta -zeta only

theorem execRootCallWaitEnd_acts (h : Nat) (s : State) : KeepO quiet s (execRootCallWaitEnd h s) := by
  unfold execRootCallWaitEnd
  repeat' first
    | fail_if_no_progress extract_lets
    | (with_reducible apply KeepO.ite) <;> intro _
    | with_reducible apply KeepO.next
    | (with_reducible apply Keep.ite) <;> intro _
    | with_reducible apply Keep.refl
    | with_reducible assumption
    | with_reducible apply setSlot_keep
    | with_reducible apply awaitBeat32_keep
    | with_reducible apply payPorts_keep
    | with_reducible apply called_keep
    | with_reducible apply decideQuorum_keep
    | split
    | dsimp -zeta only
    | dsimp +zetaDelta -zeta only

theorem execHardTimeout_acts (h : Nat) (s : State) : KeepO quiet s (execHardTimeout h s) := by
  unfold execHardTimeout
  repeat' first
    | fail_if_no_progress extract_lets
    | (with_reducible apply KeepO.ite) <;> intro _
    | with_reducible apply KeepO.next
    | (with_reducible apply Keep.ite) <;> intro _
    | with_reducible apply Keep.refl
    | with_reducible assumption
    | with_reducible apply setSlot_keep
    | with_reducible apply hbarInt_keep
    | with_reducible apply awaitBeat32_keep
    | with_reducible apply jobRegs_keep
    | with_reducible apply hallRec_keep
    | with_reducible apply called_keep
    | split
    | dsimp -zeta only
    | dsimp +zetaDelta -zeta only

theorem execBellWordForward_acts (n : Nat) (beat : Nat) (word : BellWord) (s : State) : ActsO .fd quiet s (execBellWordForward n beat word s) := by
  unfold execBellWordForward
  repeat' first
    | fail_if_no_progress extract_lets
    | (with_reducible apply ActsO.ite) <;> intro _
    | with_reducible apply ActsO.next
    | (with_reducible apply Acts.ite) <;> intro _
    | with_reducible apply Acts.refl
    | with_reducible assumption
    | with_reducible apply setJob_trans
    | with_reducible apply sendBell_trans
    | with_reducible apply takeWord_trans
    | dsimp -zeta only
    | dsimp +zetaDelta -zeta only

theorem execBellRing_acts (m : MbGo) (s : State) (hd : quiet = true → m.dma = false := by first | assumption | nofun) : ActsO m.part quiet s (execBellRing m s) := by
  unfold execBellRing
  repeat' first
    | fail_if_no_progress extract_lets
    | ((with_reducible apply mailbox_fd); intro _ _)
    | ((with_reducible apply mailbox_sc); intro _ _)
    | ((with_reducible apply mailbox_own2880); intro _ _)
    | ((with_reducible apply mailbox_any); intro _ _)
    | with_reducible apply atRoot_trans
    | (with_reducible apply Acts.iteS) <;> intro _
    | (with_reducible apply Acts.iteS2) <;> intro _
    | (with_reducible apply ActsO.ite) <;> intro _
    | with_reducible apply ActsO.next
    | (with_reducible apply Acts.ite) <;> intro _
    | with_reducible apply Acts.refl
    | with_reducible assumption
    | dsimp -zeta only
    | with_reducible apply scheduleBell_trans
    | split
    | dsimp -zeta only
    | dsimp +zetaDelta -zeta only

theorem execLivenessSend_acts (s : State) : KeepO quiet s (execLivenessSend s) := by
  unfold execLivenessSend
  repeat' first
    | fail_if_no_progress extract_lets
    | (with_reducible apply KeepO.ite) <;> intro _
    | with_reducible apply KeepO.next
    | (with_reducible apply Keep.ite) <;> intro _
    | with_reducible apply Keep.refl
    | with_reducible assumption
    | with_reducible apply modLink_keep
    | with_reducible apply periodic_keep
    | with_reducible apply sendWord_keep
    | ((with_reducible apply Keep.foldl_trans); intro _ _)
    | split
    | dsimp -zeta only
    | dsimp +zetaDelta -zeta only

theorem suspectPackage_acts (roll mask : Nat) (s : State) : Acts .fd quiet s (State.suspectPackage roll mask s) := by
  unfold State.suspectPackage
  repeat' first
    | fail_if_no_progress extract_lets
    | (with_reducible apply Acts.ite) <;> intro _
    | with_reducible apply Acts.refl
    | with_reducible assumption
    | with_reducible apply setHall_trans
    | with_reducible apply hbarInt_trans
    | with_reducible apply record_trans
    | with_reducible apply jobRegs_trans
    | ((with_reducible apply Acts.foldl_trans); intro _ _)
    | split
    | dsimp -zeta only
    | dsimp +zetaDelta -zeta only
theorem suspectPackage_trans {roll mask : Nat} {s : State} {s₀ : State} (h₀ : Acts .fd quiet s₀ s) : Acts .fd quiet s₀ (State.suspectPackage roll mask s) := h₀.trans (suspectPackage_acts ..)
theorem suspectPackage_keep {roll mask : Nat} {s : State} {s₀ : State} (h₀ : Keep quiet s₀ s) : Keep quiet s₀ (State.suspectPackage roll mask s) := h₀.trans (suspectPackage_acts ..).keep

theorem execLivenessWord_acts (n src dieMask lvSeq ht32 : Nat) (s : State) : ActsO .fd quiet s (execLivenessWord n src dieMask lvSeq ht32 s) := by
  unfold execLivenessWord
  repeat' first
    | fail_if_no_progress extract_lets
    | (with_reducible apply ActsO.ite) <;> intro _
    | with_reducible apply ActsO.next
    | (with_reducible apply Acts.ite) <;> intro _
    | with_reducible apply Acts.refl
    | with_reducible assumption
    | with_reducible apply bump_trans
    | with_reducible apply modLink_trans
    | with_reducible apply sendUp_trans
    | with_reducible apply portAlive_trans
    | with_reducible apply partnerPort_trans
    | with_reducible apply takeWord_trans
    | with_reducible apply suspectPackage_trans
    | split
    | dsimp -zeta only
    | dsimp +zetaDelta -zeta only

theorem execLivenessMiss_acts (n : Nat) (s : State) : ActsO .fd quiet s (execLivenessMiss n s) := by
  unfold execLivenessMiss
  repeat' first
    | fail_if_no_progress extract_lets
    | (with_reducible apply ActsO.ite) <;> intro _
    | with_reducible apply ActsO.next
    | (with_reducible apply Acts.ite) <;> intro _
    | with_reducible apply Acts.refl
    | with_reducible assumption
    | with_reducible apply modLink_trans
    | with_reducible apply portAlive_trans
    | split
    | dsimp -zeta only
    | dsimp +zetaDelta -zeta only

theorem dumpJob_acts (j : Nat) (s : State) : Acts .fd quiet s (State.dumpJob j s) := by
  unfold State.dumpJob
  repeat' first
    | fail_if_no_progress extract_lets
    | (with_reducible apply Acts.ite) <;> intro _
    | with_reducible apply Acts.refl
    | with_reducible assumption
    | with_reducible apply hallRec_trans
    | ((with_reducible apply Acts.foldl_trans); intro _ _)
    | dsimp -zeta only
theorem dumpJob_trans {j : Nat} {s : State} {s₀ : State} (h₀ : Acts .fd quiet s₀ s) : Acts .fd quiet s₀ (State.dumpJob j s) := h₀.trans (dumpJob_acts ..)
theorem dumpJob_keep {j : Nat} {s : State} {s₀ : State} (h₀ : Keep quiet s₀ s) : Keep quiet s₀ (State.dumpJob j s) := h₀.trans (dumpJob_acts ..).keep

theorem monitorUpdate_acts (j : Nat) (s : State) : Acts .fd quiet s (State.monitorUpdate j s) := by
  unfold State.monitorUpdate
  repeat' first
    | fail_if_no_progress extract_lets
    | (with_reducible apply Acts.ite) <;> intro _
    | with_reducible apply Acts.refl
    | with_reducible assumption
    | with_reducible apply put_trans
    | with_reducible apply setJob_trans
    | with_reducible apply hbarInt_trans
    | with_reducible apply sendUp_trans
    | with_reducible apply dumpJob_trans
    | split
    | dsimp -zeta only
    | dsimp +zetaDelta -zeta only
theorem monitorUpdate_trans {j : Nat} {s : State} {s₀ : State} (h₀ : Acts .fd quiet s₀ s) : Acts .fd quiet s₀ (State.monitorUpdate j s) := h₀.trans (monitorUpdate_acts ..)
theorem monitorUpdate_keep {j : Nat} {s : State} {s₀ : State} (h₀ : Keep quiet s₀ s) : Keep quiet s₀ (State.monitorUpdate j s) := h₀.trans (monitorUpdate_acts ..).keep

theorem execMonitorWord_acts (n job ctx src ht32 : Nat) (deadlock : Bool) (s : State) : ActsO .fd quiet s (execMonitorWord n job ctx src ht32 deadlock s) := by
  unfold execMonitorWord
  repeat' first
    | fail_if_no_progress extract_lets
    | (with_reducible apply ActsO.ite) <;> intro _
    | with_reducible apply ActsO.next
    | (with_reducible apply Acts.ite) <;> intro _
    | with_reducible apply Acts.refl
    | with_reducible assumption
    | with_reducible apply setJob_trans
    | with_reducible apply onWord_trans
    | intro _
    | with_reducible apply monitorUpdate_trans
    | split
    | dsimp -zeta only
    | dsimp +zetaDelta -zeta only

theorem leadUpdate_acts (s : State) : Acts .fd quiet s (State.leadUpdate s) := by
  unfold State.leadUpdate
  repeat' first
    | fail_if_no_progress extract_lets
    | (with_reducible apply Acts.ite) <;> intro _
    | with_reducible apply Acts.refl
    | with_reducible assumption
    | with_reducible apply put_trans
    | with_reducible apply setHall_trans
    | with_reducible apply raise_trans
    | ((with_reducible apply Acts.foldl_trans); intro _ _)
    | split
    | dsimp -zeta only
    | dsimp +zetaDelta -zeta only
theorem leadUpdate_trans {s : State} {s₀ : State} (h₀ : Acts .fd quiet s₀ s) : Acts .fd quiet s₀ (State.leadUpdate s) := h₀.trans (leadUpdate_acts ..)
theorem leadUpdate_keep {s : State} {s₀ : State} (h₀ : Keep quiet s₀ s) : Keep quiet s₀ (State.leadUpdate s) := h₀.trans (leadUpdate_acts ..).keep

theorem execDnMaxReport_acts (n ps : Nat) (s : State) : KeepO quiet s (execDnMaxReport n ps s) := by
  unfold execDnMaxReport
  repeat' first
    | fail_if_no_progress extract_lets
    | (with_reducible apply KeepO.ite) <;> intro _
    | with_reducible apply KeepO.next
    | (with_reducible apply Keep.ite) <;> intro _
    | with_reducible apply Keep.refl
    | with_reducible assumption
    | with_reducible apply put_keep
    | with_reducible apply modLink_keep
    | with_reducible apply setHall_keep
    | with_reducible apply periodic_keep
    | with_reducible apply sendTunnels_keep
    | with_reducible apply leadUpdate_keep
    | split
    | dsimp -zeta only
    | dsimp +zetaDelta -zeta only

end Sys2Proof.Machine
end

