-- ==== Sys2Proof/Laws/ActsStudBook.lean ====
section
/-! SUPPORT. One lemma an operation: what it keeps (Acts, Keep). -/

namespace Sys2Proof.Machine

open Sys2Proof

set_option linter.unusedTactic false
set_option linter.unreachableTactic false
set_option linter.unusedVariables false

variable {quiet : Bool}

theorem sbRegs_acts (j : Nat) (s : State) : Acts .fd quiet s (State.sbRegs j s) := by
  unfold State.sbRegs
  repeat' first
    | fail_if_no_progress extract_lets
    | (with_reducible apply Acts.ite) <;> intro _
    | with_reducible apply Acts.refl
    | with_reducible assumption
    | with_reducible apply put_trans
    | with_reducible apply putFlag_trans
    | dsimp -zeta only
    | dsimp +zetaDelta -zeta only
theorem sbRegs_trans {j : Nat} {s : State} {s₀ : State} (h₀ : Acts .fd quiet s₀ s) : Acts .fd quiet s₀ (State.sbRegs j s) := h₀.trans (sbRegs_acts ..)
theorem sbRegs_keep {j : Nat} {s : State} {s₀ : State} (h₀ : Keep quiet s₀ s) : Keep quiet s₀ (State.sbRegs j s) := h₀.trans (sbRegs_acts ..).keep

theorem recordClose_acts (c : CloseEntry) (b : Body) (present : Bool) (s : State) : Acts .fd quiet s (State.recordClose c b present s) := by
  unfold State.recordClose
  repeat' first
    | fail_if_no_progress extract_lets
    | (with_reducible apply Acts.ite) <;> intro _
    | with_reducible apply Acts.refl
    | with_reducible assumption
    | with_reducible apply bump_trans
    | with_reducible apply setSb_trans
    | with_reducible apply record_trans
    | (with_reducible apply Acts.snd; with_reducible assumption)
    | split
    | dsimp -zeta only
    | dsimp +zetaDelta -zeta only
theorem recordClose_trans {c : CloseEntry} {b : Body} {present : Bool} {s : State} {s₀ : State} (h₀ : Acts .fd quiet s₀ s) : Acts .fd quiet s₀ (State.recordClose c b present s) := h₀.trans (recordClose_acts ..)
theorem recordClose_keep {c : CloseEntry} {b : Body} {present : Bool} {s : State} {s₀ : State} (h₀ : Keep quiet s₀ s) : Keep quiet s₀ (State.recordClose c b present s) := h₀.trans (recordClose_acts ..).keep

theorem sbUnmap_acts (key : Nat) (s : State) : Acts .fd quiet s (State.sbUnmap key s) := by
  unfold State.sbUnmap
  repeat' first
    | fail_if_no_progress extract_lets
    | (with_reducible apply Acts.ite) <;> intro _
    | with_reducible apply Acts.refl
    | with_reducible assumption
    | with_reducible apply setSb_trans
    | with_reducible apply sbRegs_trans
    | (with_reducible apply Acts.snd; with_reducible assumption)
    | split
    | dsimp -zeta only
theorem sbUnmap_trans {key : Nat} {s : State} {s₀ : State} (h₀ : Acts .fd quiet s₀ s) : Acts .fd quiet s₀ (State.sbUnmap key s) := h₀.trans (sbUnmap_acts ..)
theorem sbUnmap_keep {key : Nat} {s : State} {s₀ : State} (h₀ : Keep quiet s₀ s) : Keep quiet s₀ (State.sbUnmap key s) := h₀.trans (sbUnmap_acts ..).keep

theorem sbFreeJob_acts (j : Nat) (s : State) : Acts .fd quiet s (State.sbFreeJob j s) := by
  unfold State.sbFreeJob
  repeat' first
    | fail_if_no_progress extract_lets
    | (with_reducible apply Acts.ite) <;> intro _
    | with_reducible apply Acts.refl
    | with_reducible assumption
    | with_reducible apply setSb_trans
    | with_reducible apply sbUnmap_trans
    | ((with_reducible apply Acts.foldl_trans); intro _ _)
    | dsimp -zeta only
    | dsimp +zetaDelta -zeta only
theorem sbFreeJob_trans {j : Nat} {s : State} {s₀ : State} (h₀ : Acts .fd quiet s₀ s) : Acts .fd quiet s₀ (State.sbFreeJob j s) := h₀.trans (sbFreeJob_acts ..)
theorem sbFreeJob_keep {j : Nat} {s : State} {s₀ : State} (h₀ : Keep quiet s₀ s) : Keep quiet s₀ (State.sbFreeJob j s) := h₀.trans (sbFreeJob_acts ..).keep

theorem sbCmd_trans {m : MbGo} {code : Nat} {sig : List Nat} {body : List Nat → State → MbOut × State} {s : State}
    (h : ∀ a t, Acts .fd quiet t (body a t).2) (hd : quiet = true → m.dma = false) : Acts m.part quiet s (s.sbCmd m code sig body) :=
  mailbox_own2880 (fun a t => atRoot_trans (h a t) (Acts.refl ..)) hd

theorem execSbAlloc_acts (m : MbGo) (s : State) (hd : quiet = true → m.dma = false := by first | assumption | nofun) : ActsO m.part quiet s (execSbAlloc m s) := by
  unfold execSbAlloc
  repeat' first
    | fail_if_no_progress extract_lets
    | ((with_reducible apply mailbox_fd); intro _ _)
    | ((with_reducible apply mailbox_sc); intro _ _)
    | ((with_reducible apply mailbox_own2880); intro _ _)
    | ((with_reducible apply mailbox_any); intro _ _)
    | (with_reducible apply Acts.iteS) <;> intro _
    | (with_reducible apply Acts.iteS2) <;> intro _
    | (with_reducible apply ActsO.ite) <;> intro _
    | with_reducible apply ActsO.next
    | (with_reducible apply Acts.ite) <;> intro _
    | with_reducible apply Acts.refl
    | with_reducible assumption
    | dsimp -zeta only
    | with_reducible apply setSb_trans
    | with_reducible apply sbRegs_trans
    | with_reducible apply sbCmd_trans
    | intro _
    | ((with_reducible apply Acts.foldl_trans); intro _ _)
    | split
    | dsimp -zeta only
    | dsimp +zetaDelta -zeta only

theorem execSbFree_acts (m : MbGo) (s : State) (hd : quiet = true → m.dma = false := by first | assumption | nofun) : ActsO m.part quiet s (execSbFree m s) := by
  unfold execSbFree
  repeat' first
    | fail_if_no_progress extract_lets
    | ((with_reducible apply mailbox_fd); intro _ _)
    | ((with_reducible apply mailbox_sc); intro _ _)
    | ((with_reducible apply mailbox_own2880); intro _ _)
    | ((with_reducible apply mailbox_any); intro _ _)
    | (with_reducible apply Acts.iteS) <;> intro _
    | (with_reducible apply Acts.iteS2) <;> intro _
    | (with_reducible apply ActsO.ite) <;> intro _
    | with_reducible apply ActsO.next
    | (with_reducible apply Acts.ite) <;> intro _
    | with_reducible apply Acts.refl
    | with_reducible assumption
    | dsimp -zeta only
    | with_reducible apply setSb_trans
    | with_reducible apply sbCmd_trans
    | intro _
    | split
    | dsimp -zeta only
    | dsimp +zetaDelta -zeta only

theorem execSbFreeEffect_acts (s : State) : KeepO quiet s (execSbFreeEffect s) := by
  unfold execSbFreeEffect
  repeat' first
    | fail_if_no_progress extract_lets
    | (with_reducible apply KeepO.ite) <;> intro _
    | with_reducible apply KeepO.next
    | (with_reducible apply Keep.ite) <;> intro _
    | with_reducible apply Keep.refl
    | with_reducible assumption
    | with_reducible apply setSb_keep
    | with_reducible apply awaitBeat_keep
    | with_reducible apply sbUnmap_keep
    | ((with_reducible apply Keep.foldl_trans); intro _ _)
    | (with_reducible apply Keep.snd; with_reducible assumption)
    | split
    | dsimp -zeta only
    | dsimp +zetaDelta -zeta only

theorem execSbQuota_acts (m : MbGo) (s : State) (hd : quiet = true → m.dma = false := by first | assumption | nofun) : ActsO m.part quiet s (execSbQuota m s) := by
  unfold execSbQuota
  repeat' first
    | fail_if_no_progress extract_lets
    | ((with_reducible apply mailbox_fd); intro _ _)
    | ((with_reducible apply mailbox_sc); intro _ _)
    | ((with_reducible apply mailbox_own2880); intro _ _)
    | ((with_reducible apply mailbox_any); intro _ _)
    | (with_reducible apply Acts.iteS) <;> intro _
    | (with_reducible apply Acts.iteS2) <;> intro _
    | (with_reducible apply ActsO.ite) <;> intro _
    | with_reducible apply ActsO.next
    | (with_reducible apply Acts.ite) <;> intro _
    | with_reducible apply Acts.refl
    | with_reducible assumption
    | dsimp -zeta only
    | with_reducible apply put_trans
    | with_reducible apply sbRegs_trans
    | with_reducible apply sbCmd_trans
    | intro _
    | split
    | dsimp -zeta only
    | dsimp +zetaDelta -zeta only

theorem execSbRead_acts (m : MbGo) (s : State) (hd : quiet = true → m.dma = false := by first | assumption | nofun) : ActsO m.part quiet s (execSbRead m s) := by
  unfold execSbRead
  repeat' first
    | fail_if_no_progress extract_lets
    | ((with_reducible apply mailbox_fd); intro _ _)
    | ((with_reducible apply mailbox_sc); intro _ _)
    | ((with_reducible apply mailbox_own2880); intro _ _)
    | ((with_reducible apply mailbox_any); intro _ _)
    | (with_reducible apply Acts.iteS) <;> intro _
    | (with_reducible apply Acts.iteS2) <;> intro _
    | (with_reducible apply ActsO.ite) <;> intro _
    | with_reducible apply ActsO.next
    | (with_reducible apply Acts.ite) <;> intro _
    | with_reducible apply Acts.refl
    | with_reducible assumption
    | dsimp -zeta only
    | with_reducible apply sbCmd_trans
    | intro _
    | (with_reducible apply Acts.snd; with_reducible assumption)
    | split
    | dsimp -zeta only
    | dsimp +zetaDelta -zeta only

theorem execSbCloseLog_acts (m : MbGo) (s : State) (hd : quiet = true → m.dma = false := by first | assumption | nofun) : ActsO m.part quiet s (execSbCloseLog m s) := by
  unfold execSbCloseLog
  repeat' first
    | fail_if_no_progress extract_lets
    | ((with_reducible apply mailbox_fd); intro _ _)
    | ((with_reducible apply mailbox_sc); intro _ _)
    | ((with_reducible apply mailbox_own2880); intro _ _)
    | ((with_reducible apply mailbox_any); intro _ _)
    | (with_reducible apply Acts.iteS) <;> intro _
    | (with_reducible apply Acts.iteS2) <;> intro _
    | (with_reducible apply ActsO.ite) <;> intro _
    | with_reducible apply ActsO.next
    | (with_reducible apply Acts.ite) <;> intro _
    | with_reducible apply Acts.refl
    | with_reducible assumption
    | dsimp -zeta only
    | with_reducible apply sbCmd_trans
    | intro _
    | (with_reducible apply Acts.snd; with_reducible assumption)
    | split
    | dsimp -zeta only
    | dsimp +zetaDelta -zeta only

theorem execMirrorResyncDone_acts (s : State) : ActsO .fd quiet s (execMirrorResyncDone s) := by
  unfold execMirrorResyncDone
  repeat' first
    | fail_if_no_progress extract_lets
    | (with_reducible apply ActsO.ite) <;> intro _
    | with_reducible apply ActsO.next
    | (with_reducible apply Acts.ite) <;> intro _
    | with_reducible apply Acts.refl
    | with_reducible assumption
    | with_reducible apply put_trans
    | dsimp -zeta only

end Sys2Proof.Machine
end

