-- ==== Sys2Proof/Laws/ActsMeasure.lean ====
section
/-! SUPPORT. One lemma an operation: what it keeps (Acts, Keep). -/

namespace Sys2Proof.Machine

open Sys2Proof

set_option linter.unusedTactic false
set_option linter.unreachableTactic false
set_option linter.unusedVariables false

variable {quiet : Bool}

theorem setTdc_acts (n : Nat) (c : TdcCh) (s : State) : Acts .fd quiet s (State.setTdc n c s) := by
  unfold State.setTdc
  repeat' first
    | fail_if_no_progress extract_lets
    | (with_reducible apply Acts.ite) <;> intro _
    | with_reducible apply Acts.refl
    | with_reducible assumption
    | with_reducible apply setDist_trans
    | with_reducible apply put_trans
    | dsimp -zeta only
theorem setTdc_trans {n : Nat} {c : TdcCh} {s : State} {s₀ : State} (h₀ : Acts .fd quiet s₀ s) : Acts .fd quiet s₀ (State.setTdc n c s) := h₀.trans (setTdc_acts ..)
theorem setTdc_keep {n : Nat} {c : TdcCh} {s : State} {s₀ : State} (h₀ : Keep quiet s₀ s) : Keep quiet s₀ (State.setTdc n c s) := h₀.trans (setTdc_acts ..).keep

theorem tdcPublish_acts (n : Nat) (valid : Bool) (s : State) : Acts .fd quiet s (State.tdcPublish n valid s) := by
  unfold State.tdcPublish
  repeat' first
    | fail_if_no_progress extract_lets
    | (with_reducible apply Acts.ite) <;> intro _
    | with_reducible apply Acts.refl
    | with_reducible assumption
    | with_reducible apply put_trans
    | with_reducible apply putFlag_trans
    | (with_reducible apply Acts.snd; with_reducible assumption)
    | split
    | dsimp -zeta only
    | dsimp +zetaDelta -zeta only
theorem tdcPublish_trans {n : Nat} {valid : Bool} {s : State} {s₀ : State} (h₀ : Acts .fd quiet s₀ s) : Acts .fd quiet s₀ (State.tdcPublish n valid s) := h₀.trans (tdcPublish_acts ..)
theorem tdcPublish_keep {n : Nat} {valid : Bool} {s : State} {s₀ : State} (h₀ : Keep quiet s₀ s) : Keep quiet s₀ (State.tdcPublish n valid s) := h₀.trans (tdcPublish_acts ..).keep

theorem tdcNextGate_acts (n at_ : Nat) (changeable : Bool) (s : State) : Acts .fd quiet s (State.tdcNextGate n at_ changeable s) := by
  unfold State.tdcNextGate
  repeat' first
    | fail_if_no_progress extract_lets
    | (with_reducible apply Acts.ite) <;> intro _
    | with_reducible apply Acts.refl
    | with_reducible assumption
    | with_reducible apply setTdc_trans
    | dsimp -zeta only
    | dsimp +zetaDelta -zeta only
theorem tdcNextGate_trans {n at_ : Nat} {changeable : Bool} {s : State} {s₀ : State} (h₀ : Acts .fd quiet s₀ s) : Acts .fd quiet s₀ (State.tdcNextGate n at_ changeable s) := h₀.trans (tdcNextGate_acts ..)
theorem tdcNextGate_keep {n at_ : Nat} {changeable : Bool} {s : State} {s₀ : State} (h₀ : Keep quiet s₀ s) : Keep quiet s₀ (State.tdcNextGate n at_ changeable s) := h₀.trans (tdcNextGate_acts ..).keep

theorem tdcSkip_acts (n ns : Nat) (s : State) : Acts .fd quiet s (State.tdcSkip n ns s) := by
  unfold State.tdcSkip
  repeat' first
    | fail_if_no_progress extract_lets
    | (with_reducible apply Acts.ite) <;> intro _
    | with_reducible apply Acts.refl
    | with_reducible assumption
    | with_reducible apply put_trans
    | with_reducible apply tdcPublish_trans
    | with_reducible apply tdcNextGate_trans
    | split
    | dsimp -zeta only
    | dsimp +zetaDelta -zeta only
theorem tdcSkip_trans {n ns : Nat} {s : State} {s₀ : State} (h₀ : Acts .fd quiet s₀ s) : Acts .fd quiet s₀ (State.tdcSkip n ns s) := h₀.trans (tdcSkip_acts ..)
theorem tdcSkip_keep {n ns : Nat} {s : State} {s₀ : State} (h₀ : Keep quiet s₀ s) : Keep quiet s₀ (State.tdcSkip n ns s) := h₀.trans (tdcSkip_acts ..).keep

theorem tdcCatchUp_acts (n ns : Nat) (s : State) : Acts .fd quiet s (State.tdcCatchUp n ns s) := by
  unfold State.tdcCatchUp
  repeat' first
    | fail_if_no_progress extract_lets
    | (with_reducible apply Acts.ite) <;> intro _
    | with_reducible apply Acts.refl
    | with_reducible assumption
    | with_reducible apply tdcPublish_trans
    | with_reducible apply tdcNextGate_trans
    | with_reducible apply tdcSkip_trans
    | split
    | dsimp -zeta only
    | dsimp +zetaDelta -zeta only
theorem tdcCatchUp_trans {n ns : Nat} {s : State} {s₀ : State} (h₀ : Acts .fd quiet s₀ s) : Acts .fd quiet s₀ (State.tdcCatchUp n ns s) := h₀.trans (tdcCatchUp_acts ..)
theorem tdcCatchUp_keep {n ns : Nat} {s : State} {s₀ : State} (h₀ : Keep quiet s₀ s) : Keep quiet s₀ (State.tdcCatchUp n ns s) := h₀.trans (tdcCatchUp_acts ..).keep

theorem tdcRebase_acts (old : Nat) (oldJoined : Bool) (s : State) : Acts .fd quiet s (State.tdcRebase old oldJoined s) := by
  unfold State.tdcRebase
  repeat' first
    | fail_if_no_progress extract_lets
    | (with_reducible apply Acts.ite) <;> intro _
    | with_reducible apply Acts.refl
    | with_reducible assumption
    | with_reducible apply putFlag_trans
    | with_reducible apply setTdc_trans
    | with_reducible apply tdcPublish_trans
    | with_reducible apply tdcNextGate_trans
    | ((with_reducible apply Acts.foldl_trans); intro _ _)
    | split
    | dsimp -zeta only
    | dsimp +zetaDelta -zeta only
theorem tdcRebase_trans {old : Nat} {oldJoined : Bool} {s : State} {s₀ : State} (h₀ : Acts .fd quiet s₀ s) : Acts .fd quiet s₀ (State.tdcRebase old oldJoined s) := h₀.trans (tdcRebase_acts ..)
theorem tdcRebase_keep {old : Nat} {oldJoined : Bool} {s : State} {s₀ : State} (h₀ : Keep quiet s₀ s) : Keep quiet s₀ (State.tdcRebase old oldJoined s) := h₀.trans (tdcRebase_acts ..).keep

theorem tdcLost_acts (n cause ns : Nat) (s : State) : Acts .fd quiet s (State.tdcLost n cause ns s) := by
  unfold State.tdcLost
  repeat' first
    | fail_if_no_progress extract_lets
    | (with_reducible apply Acts.ite) <;> intro _
    | with_reducible apply Acts.refl
    | with_reducible assumption
    | with_reducible apply put_trans
    | with_reducible apply bump_trans
    | with_reducible apply setTdc_trans
    | split
    | dsimp -zeta only
    | dsimp +zetaDelta -zeta only
theorem tdcLost_trans {n cause ns : Nat} {s : State} {s₀ : State} (h₀ : Acts .fd quiet s₀ s) : Acts .fd quiet s₀ (State.tdcLost n cause ns s) := h₀.trans (tdcLost_acts ..)
theorem tdcLost_keep {n cause ns : Nat} {s : State} {s₀ : State} (h₀ : Keep quiet s₀ s) : Keep quiet s₀ (State.tdcLost n cause ns s) := h₀.trans (tdcLost_acts ..).keep

theorem tdcEnqueue_acts (n stamp code edge : Nat) (s : State) : Acts .fd quiet s (State.tdcEnqueue n stamp code edge s) := by
  unfold State.tdcEnqueue
  repeat' first
    | fail_if_no_progress extract_lets
    | (with_reducible apply Acts.ite) <;> intro _
    | with_reducible apply Acts.refl
    | with_reducible assumption
    | with_reducible apply setTdc_trans
    | with_reducible apply tdcLost_trans
    | split
    | dsimp -zeta only
    | dsimp +zetaDelta -zeta only
theorem tdcEnqueue_trans {n stamp code edge : Nat} {s : State} {s₀ : State} (h₀ : Acts .fd quiet s₀ s) : Acts .fd quiet s₀ (State.tdcEnqueue n stamp code edge s) := h₀.trans (tdcEnqueue_acts ..)
theorem tdcEnqueue_keep {n stamp code edge : Nat} {s : State} {s₀ : State} (h₀ : Keep quiet s₀ s) : Keep quiet s₀ (State.tdcEnqueue n stamp code edge s) := h₀.trans (tdcEnqueue_acts ..).keep

theorem tdcSwapRec_acts (n stamp : Nat) (s : State) : Acts .fd quiet s (State.tdcSwapRec n stamp s) := by
  unfold State.tdcSwapRec
  repeat' first
    | fail_if_no_progress extract_lets
    | (with_reducible apply Acts.ite) <;> intro _
    | with_reducible apply Acts.refl
    | with_reducible assumption
    | with_reducible apply setTdc_trans
    | (with_reducible apply Acts.snd; with_reducible assumption)
    | split
    | dsimp -zeta only
    | dsimp +zetaDelta -zeta only
theorem tdcSwapRec_trans {n stamp : Nat} {s : State} {s₀ : State} (h₀ : Acts .fd quiet s₀ s) : Acts .fd quiet s₀ (State.tdcSwapRec n stamp s) := h₀.trans (tdcSwapRec_acts ..)
theorem tdcSwapRec_keep {n stamp : Nat} {s : State} {s₀ : State} (h₀ : Keep quiet s₀ s) : Keep quiet s₀ (State.tdcSwapRec n stamp s) := h₀.trans (tdcSwapRec_acts ..).keep

theorem tdcStamp_acts (n : Nat) (rising : Bool) (stamp bin : Nat) (q : TdcPair) (s : State) : Acts .fd quiet s (State.tdcStamp n rising stamp bin q s) := by
  unfold State.tdcStamp
  repeat' first
    | fail_if_no_progress extract_lets
    | (with_reducible apply Acts.ite) <;> intro _
    | with_reducible apply Acts.refl
    | with_reducible assumption
    | with_reducible apply put_trans
    | with_reducible exact pairNow_trans (a := .channel _) ‹_›
    | with_reducible exact pairNow_trans (a := .timing .fd) ‹_›
    | with_reducible exact pairNow_trans (a := .lane .fd _) ‹_›
    | refine pairNow_trans (a := .channel _) ?_
    | refine pairNow_trans (a := .timing .fd) ?_
    | refine pairNow_trans (a := .lane .fd _) ?_
    | with_reducible apply setTdc_trans
    | with_reducible apply tdcCatchUp_trans
    | with_reducible apply tdcEnqueue_trans
    | with_reducible apply tdcSwapRec_trans
    | split
    | dsimp -zeta only
    | dsimp +zetaDelta -zeta only
theorem tdcStamp_trans {n : Nat} {rising : Bool} {stamp bin : Nat} {q : TdcPair} {s : State} {s₀ : State} (h₀ : Acts .fd quiet s₀ s) : Acts .fd quiet s₀ (State.tdcStamp n rising stamp bin q s) := h₀.trans (tdcStamp_acts ..)
theorem tdcStamp_keep {n : Nat} {rising : Bool} {stamp bin : Nat} {q : TdcPair} {s : State} {s₀ : State} (h₀ : Keep quiet s₀ s) : Keep quiet s₀ (State.tdcStamp n rising stamp bin q s) := h₀.trans (tdcStamp_acts ..).keep

theorem execTdcEdge_acts (n src coarse : Nat) (rising : Bool) (bin : Nat) (twin : Option Int) (s : State) : ActsO .fd quiet s (execTdcEdge n src coarse rising bin twin s) := by
  unfold execTdcEdge
  repeat' first
    | fail_if_no_progress extract_lets
    | (with_reducible apply ActsO.ite) <;> intro _
    | with_reducible apply ActsO.next
    | (with_reducible apply Acts.ite) <;> intro _
    | with_reducible apply Acts.refl
    | with_reducible assumption
    | with_reducible apply setTdc_trans
    | with_reducible apply tdcLost_trans
    | with_reducible apply tdcStamp_trans
    | split
    | dsimp -zeta only
    | dsimp +zetaDelta -zeta only

theorem execTdcGapQueue_acts (n : Nat) (s : State) : ActsO .fd quiet s (execTdcGapQueue n s) := by
  unfold execTdcGapQueue
  repeat' first
    | fail_if_no_progress extract_lets
    | (with_reducible apply ActsO.ite) <;> intro _
    | with_reducible apply ActsO.next
    | (with_reducible apply Acts.ite) <;> intro _
    | with_reducible apply Acts.refl
    | with_reducible assumption
    | with_reducible apply setTdc_trans
    | dsimp -zeta only
    | dsimp +zetaDelta -zeta only

theorem execTdcGateEnd_acts (n : Nat) (s : State) : ActsO .fd quiet s (execTdcGateEnd n s) := by
  unfold execTdcGateEnd
  repeat' first
    | fail_if_no_progress extract_lets
    | (with_reducible apply ActsO.ite) <;> intro _
    | with_reducible apply ActsO.next
    | (with_reducible apply Acts.ite) <;> intro _
    | with_reducible apply Acts.refl
    | with_reducible assumption
    | with_reducible apply tdcCatchUp_trans
    | dsimp -zeta only

theorem tdcMove_acts (n : Nat) (s : State) : Acts .fd false s (State.tdcMove n s) := by
  unfold State.tdcMove
  repeat' first
    | fail_if_no_progress extract_lets
    | (with_reducible apply Acts.ite) <;> intro _
    | with_reducible apply Acts.refl
    | with_reducible assumption
    | with_reducible apply dmaWrite_trans
    | with_reducible apply setTdc_trans
    | (with_reducible apply Acts.snd; with_reducible assumption)
    | split
    | exact nofun
    | dsimp -zeta only
    | dsimp +zetaDelta -zeta only
theorem tdcMove_trans {n : Nat} {s : State} {s₀ : State} (h₀ : Acts .fd false s₀ s) : Acts .fd false s₀ (State.tdcMove n s) := h₀.trans (tdcMove_acts ..)
theorem tdcMove_keep {n : Nat} {s : State} {s₀ : State} (h₀ : Keep false s₀ s) : Keep false s₀ (State.tdcMove n s) := h₀.trans (tdcMove_acts ..).keep

theorem tdcMoves_acts (y0 : Nat) (s : State) : Acts .fd false s (State.tdcMoves y0 s) := by
  induction y0 generalizing s with
  | zero =>
    unfold State.tdcMoves
    repeat' first
    | fail_if_no_progress extract_lets
    | (with_reducible apply Acts.ite) <;> intro _
    | with_reducible apply Acts.refl
    | with_reducible assumption
    | with_reducible apply setDist_trans
    | with_reducible apply tdcMove_trans
    | (with_reducible apply Acts.snd; with_reducible assumption)
    | split
    | exact nofun
    | dsimp -zeta only
    | dsimp +zetaDelta -zeta only
  | succ k ih =>
    unfold State.tdcMoves
    repeat' first
    | fail_if_no_progress extract_lets
    | (with_reducible apply Acts.ite) <;> intro _
    | with_reducible apply Acts.refl
    | with_reducible apply Acts.step ih
    | with_reducible assumption
    | with_reducible apply setDist_trans
    | with_reducible apply tdcMove_trans
    | (with_reducible apply Acts.snd; with_reducible assumption)
    | split
    | exact nofun
    | dsimp -zeta only
    | dsimp +zetaDelta -zeta only
theorem tdcMoves_trans {y0 : Nat} {s : State} {s₀ : State} (h₀ : Acts .fd false s₀ s) : Acts .fd false s₀ (State.tdcMoves y0 s) := h₀.trans (tdcMoves_acts ..)
theorem tdcMoves_keep {y0 : Nat} {s : State} {s₀ : State} (h₀ : Keep false s₀ s) : Keep false s₀ (State.tdcMoves y0 s) := h₀.trans (tdcMoves_acts ..).keep

theorem tdcWriteBack_acts (before s : State) : Acts .fd false s (State.tdcWriteBack before s) := by
  unfold State.tdcWriteBack
  repeat' first
    | fail_if_no_progress extract_lets
    | (with_reducible apply Acts.ite) <;> intro _
    | with_reducible apply Acts.refl
    | with_reducible assumption
    | with_reducible apply dmaWrite_trans
    | ((with_reducible apply Acts.foldl_trans); intro _ _)
    | split
    | exact nofun
    | dsimp -zeta only
theorem tdcWriteBack_trans {before s : State} {s₀ : State} (h₀ : Acts .fd false s₀ s) : Acts .fd false s₀ (State.tdcWriteBack before s) := h₀.trans (tdcWriteBack_acts ..)
theorem tdcWriteBack_keep {before s : State} {s₀ : State} (h₀ : Keep false s₀ s) : Keep false s₀ (State.tdcWriteBack before s) := h₀.trans (tdcWriteBack_acts ..).keep

theorem execTdcDma_acts (records : Nat) (s : State) : ActsO .fd false s (execTdcDma records s) := by
  unfold execTdcDma
  repeat' first
    | fail_if_no_progress extract_lets
    | (with_reducible apply ActsO.ite) <;> intro _
    | with_reducible apply ActsO.next
    | (with_reducible apply Acts.ite) <;> intro _
    | with_reducible apply Acts.refl
    | with_reducible assumption
    | with_reducible apply tdcMoves_trans
    | with_reducible apply tdcWriteBack_trans
    | exact nofun
    | dsimp -zeta only

theorem tdcRelease_acts (n : Nat) (value : Nat) (s : State) : Acts .fd quiet s (State.tdcRelease n value s) := by
  unfold State.tdcRelease
  repeat' first
    | fail_if_no_progress extract_lets
    | (with_reducible apply Acts.ite) <;> intro _
    | with_reducible apply Acts.refl
    | with_reducible assumption
    | with_reducible apply put_trans
    | with_reducible apply setTdc_trans
    | split
    | dsimp -zeta only
    | dsimp +zetaDelta -zeta only
theorem tdcRelease_trans {n : Nat} {value : Nat} {s : State} {s₀ : State} (h₀ : Acts .fd quiet s₀ s) : Acts .fd quiet s₀ (State.tdcRelease n value s) := h₀.trans (tdcRelease_acts ..)
theorem tdcRelease_keep {n : Nat} {value : Nat} {s : State} {s₀ : State} (h₀ : Keep quiet s₀ s) : Keep quiet s₀ (State.tdcRelease n value s) := h₀.trans (tdcRelease_acts ..).keep

theorem tdcCtrlWritten_acts (n : Nat) (s before : State) : Acts .fd quiet s (State.tdcCtrlWritten n s before) := by
  unfold State.tdcCtrlWritten
  repeat' first
    | fail_if_no_progress extract_lets
    | (with_reducible apply Acts.ite) <;> intro _
    | with_reducible apply Acts.refl
    | with_reducible assumption
    | with_reducible apply setTdc_trans
    | with_reducible apply tdcPublish_trans
    | with_reducible apply tdcNextGate_trans
    | ((with_reducible apply Acts.foldl_trans); intro _ _)
    | split
    | dsimp -zeta only
    | dsimp +zetaDelta -zeta only
theorem tdcCtrlWritten_trans {n : Nat} {s before : State} {s₀ : State} (h₀ : Acts .fd quiet s₀ s) : Acts .fd quiet s₀ (State.tdcCtrlWritten n s before) := h₀.trans (tdcCtrlWritten_acts ..)
theorem tdcCtrlWritten_keep {n : Nat} {s before : State} {s₀ : State} (h₀ : Keep quiet s₀ s) : Keep quiet s₀ (State.tdcCtrlWritten n s before) := h₀.trans (tdcCtrlWritten_acts ..).keep

theorem execTdcRingSet_acts (m : MbGo) (s : State) (hd : quiet = true → m.dma = false := by first | assumption | nofun) : ActsO m.part quiet s (execTdcRingSet m s) := by
  unfold execTdcRingSet
  repeat' first
    | fail_if_no_progress extract_lets
    | ((with_reducible apply mailbox_fd); intro _ _)
    | ((with_reducible apply mailbox_sc); intro _ _)
    | ((with_reducible apply mailbox_own2880); intro _ _)
    | ((with_reducible apply mailbox_any); intro _ _)
    | (with_reducible apply Acts.iteS) <;> intro _
    | (with_reducible apply Acts.iteS2) <;> intro _
    | (with_reducible apply ActsO.ite) <;> intro _
    | with_reducible apply ActsO.next
    | (with_reducible apply Acts.ite) <;> intro _
    | with_reducible apply Acts.refl
    | with_reducible assumption
    | dsimp -zeta only
    | with_reducible apply put_trans
    | with_reducible apply setTdc_trans
    | split
    | dsimp -zeta only
    | dsimp +zetaDelta -zeta only

theorem execTdcCalNow_acts (m : MbGo) (s : State) (hd : quiet = true → m.dma = false := by first | assumption | nofun) : ActsO m.part quiet s (execTdcCalNow m s) := by
  unfold execTdcCalNow
  repeat' first
    | fail_if_no_progress extract_lets
    | ((with_reducible apply mailbox_fd); intro _ _)
    | ((with_reducible apply mailbox_sc); intro _ _)
    | ((with_reducible apply mailbox_own2880); intro _ _)
    | ((with_reducible apply mailbox_any); intro _ _)
    | (with_reducible apply Acts.iteS) <;> intro _
    | (with_reducible apply Acts.iteS2) <;> intro _
    | (with_reducible apply ActsO.ite) <;> intro _
    | with_reducible apply ActsO.next
    | (with_reducible apply Acts.ite) <;> intro _
    | with_reducible apply Acts.refl
    | with_reducible assumption
    | dsimp -zeta only
    | with_reducible exact pairCal_trans (a := .channel _) ‹_›
    | with_reducible exact pairCal_trans (a := .timing .fd) ‹_›
    | refine pairCal_trans (a := .channel _) ?_
    | refine pairCal_trans (a := .timing .fd) ?_
    | ((with_reducible apply Acts.foldl_trans); intro _ _)
    | split
    | dsimp -zeta only
    | dsimp +zetaDelta -zeta only

theorem execTdcCalRead_acts (m : MbGo) (s : State) (hd : quiet = true → m.dma = false := by first | assumption | nofun) : ActsO m.part quiet s (execTdcCalRead m s) := by
  unfold execTdcCalRead
  repeat' first
    | fail_if_no_progress extract_lets
    | ((with_reducible apply mailbox_fd); intro _ _)
    | ((with_reducible apply mailbox_sc); intro _ _)
    | ((with_reducible apply mailbox_own2880); intro _ _)
    | ((with_reducible apply mailbox_any); intro _ _)
    | (with_reducible apply Acts.iteS) <;> intro _
    | (with_reducible apply Acts.iteS2) <;> intro _
    | (with_reducible apply ActsO.ite) <;> intro _
    | with_reducible apply ActsO.next
    | (with_reducible apply Acts.ite) <;> intro _
    | with_reducible apply Acts.refl
    | with_reducible assumption
    | dsimp -zeta only
    | split
    | dsimp -zeta only
    | dsimp +zetaDelta -zeta only

theorem execCalStale_acts (n : Nat) (s : State) : KeepO quiet s (execCalStale n s) := by
  unfold execCalStale
  repeat' first
    | fail_if_no_progress extract_lets
    | (with_reducible apply KeepO.ite) <;> intro _
    | with_reducible apply KeepO.next
    | (with_reducible apply Keep.ite) <;> intro _
    | with_reducible apply Keep.refl
    | with_reducible assumption
    | with_reducible apply put_keep
    | with_reducible apply awaitNow_keep
    | split
    | dsimp -zeta only

theorem setMains_acts (m : MainsSt) (s : State) : Acts .fd quiet s (State.setMains m s) := by
  unfold State.setMains
  repeat' first
    | fail_if_no_progress extract_lets
    | (with_reducible apply Acts.ite) <;> intro _
    | with_reducible apply Acts.refl
    | with_reducible assumption
    | with_reducible apply setDist_trans
    | dsimp -zeta only
theorem setMains_trans {m : MainsSt} {s : State} {s₀ : State} (h₀ : Acts .fd quiet s₀ s) : Acts .fd quiet s₀ (State.setMains m s) := h₀.trans (setMains_acts ..)
theorem setMains_keep {m : MainsSt} {s : State} {s₀ : State} (h₀ : Keep quiet s₀ s) : Keep quiet s₀ (State.setMains m s) := h₀.trans (setMains_acts ..).keep

theorem mainsEvent_acts (ev : Nat) (s : State) : Acts .fd quiet s (State.mainsEvent ev s) := by
  unfold State.mainsEvent
  repeat' first
    | fail_if_no_progress extract_lets
    | (with_reducible apply Acts.ite) <;> intro _
    | with_reducible apply Acts.refl
    | with_reducible assumption
    | with_reducible apply record_trans
    | dsimp -zeta only
theorem mainsEvent_trans {ev : Nat} {s : State} {s₀ : State} (h₀ : Acts .fd quiet s₀ s) : Acts .fd quiet s₀ (State.mainsEvent ev s) := h₀.trans (mainsEvent_acts ..)
theorem mainsEvent_keep {ev : Nat} {s : State} {s₀ : State} (h₀ : Keep quiet s₀ s) : Keep quiet s₀ (State.mainsEvent ev s) := h₀.trans (mainsEvent_acts ..).keep

theorem mainsEventAt_acts (ns ev : Nat) (s : State) : Acts .fd quiet s (State.mainsEventAt ns ev s) := by
  unfold State.mainsEventAt
  repeat' first
    | fail_if_no_progress extract_lets
    | (with_reducible apply Acts.ite) <;> intro _
    | with_reducible apply Acts.refl
    | with_reducible assumption
    | with_reducible apply recordAt_trans
    | dsimp -zeta only
theorem mainsEventAt_trans {ns ev : Nat} {s : State} {s₀ : State} (h₀ : Acts .fd quiet s₀ s) : Acts .fd quiet s₀ (State.mainsEventAt ns ev s) := h₀.trans (mainsEventAt_acts ..)
theorem mainsEventAt_keep {ns ev : Nat} {s : State} {s₀ : State} (h₀ : Keep quiet s₀ s) : Keep quiet s₀ (State.mainsEventAt ns ev s) := h₀.trans (mainsEventAt_acts ..).keep

theorem mainsPublish_acts (valid : Bool) (s : State) : Acts .fd quiet s (State.mainsPublish valid s) := by
  unfold State.mainsPublish
  repeat' first
    | fail_if_no_progress extract_lets
    | (with_reducible apply Acts.ite) <;> intro _
    | with_reducible apply Acts.refl
    | with_reducible assumption
    | with_reducible apply put_trans
    | with_reducible apply putFlag_trans
    | with_reducible apply putS_trans
    | with_reducible apply setMains_trans
    | with_reducible apply mainsEvent_trans
    | ((with_reducible apply Acts.foldl_trans); intro _ _)
    | (with_reducible apply Acts.snd; with_reducible assumption)
    | split
    | dsimp -zeta only
    | dsimp +zetaDelta -zeta only
theorem mainsPublish_trans {valid : Bool} {s : State} {s₀ : State} (h₀ : Acts .fd quiet s₀ s) : Acts .fd quiet s₀ (State.mainsPublish valid s) := h₀.trans (mainsPublish_acts ..)
theorem mainsPublish_keep {valid : Bool} {s : State} {s₀ : State} (h₀ : Keep quiet s₀ s) : Keep quiet s₀ (State.mainsPublish valid s) := h₀.trans (mainsPublish_acts ..).keep

theorem mainsNextGate_acts (at_ : Nat) (s : State) : Acts .fd quiet s (State.mainsNextGate at_ s) := by
  unfold State.mainsNextGate
  repeat' first
    | fail_if_no_progress extract_lets
    | (with_reducible apply Acts.ite) <;> intro _
    | with_reducible apply Acts.refl
    | with_reducible assumption
    | with_reducible apply setMains_trans
    | dsimp -zeta only
theorem mainsNextGate_trans {at_ : Nat} {s : State} {s₀ : State} (h₀ : Acts .fd quiet s₀ s) : Acts .fd quiet s₀ (State.mainsNextGate at_ s) := h₀.trans (mainsNextGate_acts ..)
theorem mainsNextGate_keep {at_ : Nat} {s : State} {s₀ : State} (h₀ : Keep quiet s₀ s) : Keep quiet s₀ (State.mainsNextGate at_ s) := h₀.trans (mainsNextGate_acts ..).keep

theorem mainsCatchUp_acts (ns : Nat) (s : State) : Acts .fd quiet s (State.mainsCatchUp ns s) := by
  unfold State.mainsCatchUp
  repeat' first
    | fail_if_no_progress extract_lets
    | (with_reducible apply Acts.ite) <;> intro _
    | with_reducible apply Acts.refl
    | with_reducible assumption
    | with_reducible apply put_trans
    | with_reducible apply mainsPublish_trans
    | with_reducible apply mainsNextGate_trans
    | split
    | dsimp -zeta only
    | dsimp +zetaDelta -zeta only
theorem mainsCatchUp_trans {ns : Nat} {s : State} {s₀ : State} (h₀ : Acts .fd quiet s₀ s) : Acts .fd quiet s₀ (State.mainsCatchUp ns s) := h₀.trans (mainsCatchUp_acts ..)
theorem mainsCatchUp_keep {ns : Nat} {s : State} {s₀ : State} (h₀ : Keep quiet s₀ s) : Keep quiet s₀ (State.mainsCatchUp ns s) := h₀.trans (mainsCatchUp_acts ..).keep

theorem mainsRebase_acts (old : Nat) (s : State) : Acts .fd quiet s (State.mainsRebase old s) := by
  unfold State.mainsRebase
  repeat' first
    | fail_if_no_progress extract_lets
    | (with_reducible apply Acts.ite) <;> intro _
    | with_reducible apply Acts.refl
    | with_reducible assumption
    | with_reducible apply setMains_trans
    | with_reducible apply mainsPublish_trans
    | with_reducible apply mainsNextGate_trans
    | split
    | dsimp -zeta only
    | dsimp +zetaDelta -zeta only
theorem mainsRebase_trans {old : Nat} {s : State} {s₀ : State} (h₀ : Acts .fd quiet s₀ s) : Acts .fd quiet s₀ (State.mainsRebase old s) := h₀.trans (mainsRebase_acts ..)
theorem mainsRebase_keep {old : Nat} {s : State} {s₀ : State} (h₀ : Keep quiet s₀ s) : Keep quiet s₀ (State.mainsRebase old s) := h₀.trans (mainsRebase_acts ..).keep

theorem rebaseAll_acts (old : Nat) (s : State) (oldJoined : Bool) : Acts .fd quiet s (State.rebaseAll old s oldJoined) := by
  unfold State.rebaseAll
  repeat' first
    | fail_if_no_progress extract_lets
    | (with_reducible apply Acts.ite) <;> intro _
    | with_reducible apply Acts.refl
    | with_reducible assumption
    | with_reducible apply tdcRebase_trans
    | with_reducible apply mainsRebase_trans
    | dsimp -zeta only
theorem rebaseAll_trans {old : Nat} {s : State} {oldJoined : Bool} {s₀ : State} (h₀ : Acts .fd quiet s₀ s) : Acts .fd quiet s₀ (State.rebaseAll old s oldJoined) := h₀.trans (rebaseAll_acts ..)
theorem rebaseAll_keep {old : Nat} {s : State} {oldJoined : Bool} {s₀ : State} (h₀ : Keep quiet s₀ s) : Keep quiet s₀ (State.rebaseAll old s oldJoined) := h₀.trans (rebaseAll_acts ..).keep

theorem execMainsZcEdge_acts (p : Nat) (stamp : Nat) (levels : Nat) (s : State) : ActsO .fd quiet s (execMainsZcEdge p stamp levels s) := by
  unfold execMainsZcEdge
  repeat' first
    | fail_if_no_progress extract_lets
    | (with_reducible apply ActsO.ite) <;> intro _
    | with_reducible apply ActsO.next
    | (with_reducible apply Acts.ite) <;> intro _
    | with_reducible apply Acts.refl
    | with_reducible assumption
    | with_reducible apply put_trans
    | with_reducible apply setMains_trans
    | with_reducible apply mainsCatchUp_trans
    | (with_reducible apply Acts.snd; with_reducible assumption)
    | split
    | dsimp -zeta only
    | dsimp +zetaDelta -zeta only

theorem execMainsGateEnd_acts (s : State) : KeepO quiet s (execMainsGateEnd s) := by
  unfold execMainsGateEnd
  repeat' first
    | fail_if_no_progress extract_lets
    | (with_reducible apply KeepO.ite) <;> intro _
    | with_reducible apply KeepO.next
    | (with_reducible apply Keep.ite) <;> intro _
    | with_reducible apply Keep.refl
    | with_reducible assumption
    | with_reducible apply awaitHt_keep
    | with_reducible apply mainsCatchUp_keep
    | split
    | dsimp -zeta only
    | dsimp +zetaDelta -zeta only

theorem execMainsLineEdge_acts (alarm level : Bool) (stamp held : Nat) (s : State) : ActsO .fd quiet s (execMainsLineEdge alarm level stamp held s) := by
  unfold execMainsLineEdge
  repeat' first
    | fail_if_no_progress extract_lets
    | (with_reducible apply ActsO.ite) <;> intro _
    | with_reducible apply ActsO.next
    | (with_reducible apply Acts.ite) <;> intro _
    | with_reducible apply Acts.refl
    | with_reducible assumption
    | with_reducible apply putFlag_trans
    | with_reducible apply mainsEventAt_trans
    | split
    | dsimp -zeta only
    | dsimp +zetaDelta -zeta only

end Sys2Proof.Machine
end

