-- ==== Sys2Proof/Laws/ActsFormation.lean ====
section
/-! SUPPORT. One lemma an operation: what it keeps (Acts, Keep). -/

namespace Sys2Proof.Machine

open Sys2Proof

set_option linter.unusedTactic false
set_option linter.unreachableTactic false
set_option linter.unusedVariables false

variable {quiet : Bool}

theorem execHallFormLoad_acts (s : State) : KeepO false s (execHallFormLoad s) := by
  unfold execHallFormLoad
  repeat' first
    | fail_if_no_progress extract_lets
    | (with_reducible apply KeepO.ite) <;> intro _
    | with_reducible apply KeepO.next
    | (with_reducible apply Keep.ite) <;> intro _
    | with_reducible apply Keep.refl
    | with_reducible assumption
    | with_reducible apply put_keep
    | with_reducible apply putFlag_keep
    | with_reducible apply setHall_keep
    | with_reducible apply setRole_keep
    | with_reducible apply mbComplete_keep
    | with_reducible apply awaitHt_keep
    | with_reducible apply loadHt_keep
    | with_reducible apply setHold_keep
    | with_reducible apply muteOuts_keep
    | with_reducible apply rebaseAll_keep
    | ((with_reducible apply Keep.foldl_trans); intro _ _)
    | (with_reducible apply Keep.snd; with_reducible assumption)
    | split
    | exact nofun
    | dsimp -zeta only
    | dsimp +zetaDelta -zeta only

end Sys2Proof.Machine
end

