-- ==== Sys2Proof/Laws/ActsStations.lean ====
section
/-! SUPPORT. One lemma an operation: what it keeps (Acts, Keep). -/

namespace Sys2Proof.Machine

open Sys2Proof

set_option linter.unusedTactic false
set_option linter.unreachableTactic false
set_option linter.unusedVariables false

variable {quiet : Bool}

theorem setStn_acts (n : Nat) (x : Station) (s : State) : Acts .sc quiet s (State.setStn n x s) := by
  unfold State.setStn
  repeat' first
    | fail_if_no_progress extract_lets
    | (with_reducible apply Acts.ite) <;> intro _
    | with_reducible apply Acts.refl
    | with_reducible assumption
    | with_reducible apply setDie_trans
    | dsimp -zeta only
theorem setStn_trans {n : Nat} {x : Station} {s : State} {s₀ : State} (h₀ : Acts .sc quiet s₀ s) : Acts .sc quiet s₀ (State.setStn n x s) := h₀.trans (setStn_acts ..)
theorem setStn_keep {n : Nat} {x : Station} {s : State} {s₀ : State} (h₀ : Keep quiet s₀ s) : Keep quiet s₀ (State.setStn n x s) := h₀.trans (setStn_acts ..).keep

theorem setOpp_acts (o : OppSt) (s : State) : Acts .sc quiet s (State.setOpp o s) := by
  unfold State.setOpp
  repeat' first
    | fail_if_no_progress extract_lets
    | (with_reducible apply Acts.ite) <;> intro _
    | with_reducible apply Acts.refl
    | with_reducible assumption
    | with_reducible apply setDie_trans
    | dsimp -zeta only
theorem setOpp_trans {o : OppSt} {s : State} {s₀ : State} (h₀ : Acts .sc quiet s₀ s) : Acts .sc quiet s₀ (State.setOpp o s) := h₀.trans (setOpp_acts ..)
theorem setOpp_keep {o : OppSt} {s : State} {s₀ : State} (h₀ : Keep quiet s₀ s) : Keep quiet s₀ (State.setOpp o s) := h₀.trans (setOpp_acts ..).keep

theorem setSync_acts (y : SyncSt) (s : State) : Acts .sc quiet s (State.setSync y s) := by
  unfold State.setSync
  repeat' first
    | fail_if_no_progress extract_lets
    | (with_reducible apply Acts.ite) <;> intro _
    | with_reducible apply Acts.refl
    | with_reducible assumption
    | with_reducible apply setDie_trans
    | dsimp -zeta only
theorem setSync_trans {y : SyncSt} {s : State} {s₀ : State} (h₀ : Acts .sc quiet s₀ s) : Acts .sc quiet s₀ (State.setSync y s) := h₀.trans (setSync_acts ..)
theorem setSync_keep {y : SyncSt} {s : State} {s₀ : State} (h₀ : Keep quiet s₀ s) : Keep quiet s₀ (State.setSync y s) := h₀.trans (setSync_acts ..).keep

theorem stnEdges_acts (n : Nat) (es : List Nat) (s : State) : Acts .sc quiet s (State.stnEdges n es s) := by
  unfold State.stnEdges
  repeat' first
    | fail_if_no_progress extract_lets
    | (with_reducible apply Acts.ite) <;> intro _
    | with_reducible apply Acts.refl
    | with_reducible assumption
    | with_reducible apply setStn_trans
    | dsimp -zeta only
theorem stnEdges_trans {n : Nat} {es : List Nat} {s : State} {s₀ : State} (h₀ : Acts .sc quiet s₀ s) : Acts .sc quiet s₀ (State.stnEdges n es s) := h₀.trans (stnEdges_acts ..)
theorem stnEdges_keep {n : Nat} {es : List Nat} {s : State} {s₀ : State} (h₀ : Keep quiet s₀ s) : Keep quiet s₀ (State.stnEdges n es s) := h₀.trans (stnEdges_acts ..).keep

theorem evSettle_acts (y0 : Nat) (s : State) : Acts .sc quiet s (State.evSettle y0 s) := by
  induction y0 generalizing s with
  | zero =>
    unfold State.evSettle
    repeat' first
    | fail_if_no_progress extract_lets
    | (with_reducible apply Acts.ite) <;> intro _
    | with_reducible apply Acts.refl
    | with_reducible assumption
    | with_reducible apply setSync_trans
    | split
    | dsimp -zeta only
  | succ k ih =>
    unfold State.evSettle
    repeat' first
    | fail_if_no_progress extract_lets
    | (with_reducible apply Acts.ite) <;> intro _
    | with_reducible apply Acts.refl
    | with_reducible apply Acts.step ih
    | with_reducible assumption
    | with_reducible apply setSync_trans
    | split
    | dsimp -zeta only
theorem evSettle_trans {y0 : Nat} {s : State} {s₀ : State} (h₀ : Acts .sc quiet s₀ s) : Acts .sc quiet s₀ (State.evSettle y0 s) := h₀.trans (evSettle_acts ..)
theorem evSettle_keep {y0 : Nat} {s : State} {s₀ : State} (h₀ : Keep quiet s₀ s) : Keep quiet s₀ (State.evSettle y0 s) := h₀.trans (evSettle_acts ..).keep

theorem settle_acts (s : State) : Acts .sc quiet s (State.settle s) := by
  unfold State.settle
  repeat' first
    | fail_if_no_progress extract_lets
    | (with_reducible apply Acts.ite) <;> intro _
    | with_reducible apply Acts.refl
    | with_reducible assumption
    | with_reducible apply evSettle_trans
    | dsimp -zeta only
theorem settle_trans {s : State} {s₀ : State} (h₀ : Acts .sc quiet s₀ s) : Acts .sc quiet s₀ (State.settle s) := h₀.trans (settle_acts ..)
theorem settle_keep {s : State} {s₀ : State} (h₀ : Keep quiet s₀ s) : Keep quiet s₀ (State.settle s) := h₀.trans (settle_acts ..).keep

theorem postEvent_acts (n : Nat) (b : EvBody) (s : State) : Acts .sc quiet s (State.postEvent n b s) := by
  unfold State.postEvent
  repeat' first
    | fail_if_no_progress extract_lets
    | (with_reducible apply Acts.ite) <;> intro _
    | with_reducible apply Acts.refl
    | with_reducible assumption
    | with_reducible apply setSync_trans
    | with_reducible apply settle_trans
    | dsimp -zeta only
theorem postEvent_trans {n : Nat} {b : EvBody} {s : State} {s₀ : State} (h₀ : Acts .sc quiet s₀ s) : Acts .sc quiet s₀ (State.postEvent n b s) := h₀.trans (postEvent_acts ..)
theorem postEvent_keep {n : Nat} {b : EvBody} {s : State} {s₀ : State} (h₀ : Keep quiet s₀ s) : Keep quiet s₀ (State.postEvent n b s) := h₀.trans (postEvent_acts ..).keep

theorem dieRecordAt_acts (x : Rec) (ht32 : Nat) (s : State) : Acts .sc quiet s (State.dieRecordAt x ht32 s) := by
  unfold State.dieRecordAt
  repeat' first
    | fail_if_no_progress extract_lets
    | (with_reducible apply Acts.ite) <;> intro _
    | with_reducible apply Acts.refl
    | with_reducible assumption
    | with_reducible apply dieTake_trans
    | dsimp -zeta only
theorem dieRecordAt_trans {x : Rec} {ht32 : Nat} {s : State} {s₀ : State} (h₀ : Acts .sc quiet s₀ s) : Acts .sc quiet s₀ (State.dieRecordAt x ht32 s) := h₀.trans (dieRecordAt_acts ..)
theorem dieRecordAt_keep {x : Rec} {ht32 : Nat} {s : State} {s₀ : State} (h₀ : Keep quiet s₀ s) : Keep quiet s₀ (State.dieRecordAt x ht32 s) := h₀.trans (dieRecordAt_acts ..).keep

theorem stnRecord_acts (n : Nat) (x : Rec) (ht32 : Nat) (s : State) : Acts .sc quiet s (State.stnRecord n x ht32 s) := by
  unfold State.stnRecord
  repeat' first
    | fail_if_no_progress extract_lets
    | (with_reducible apply Acts.ite) <;> intro _
    | with_reducible apply Acts.refl
    | with_reducible assumption
    | with_reducible apply record_trans
    | with_reducible apply postEvent_trans
    | dsimp -zeta only
theorem stnRecord_trans {n : Nat} {x : Rec} {ht32 : Nat} {s : State} {s₀ : State} (h₀ : Acts .sc quiet s₀ s) : Acts .sc quiet s₀ (State.stnRecord n x ht32 s) := h₀.trans (stnRecord_acts ..)
theorem stnRecord_keep {n : Nat} {x : Rec} {ht32 : Nat} {s : State} {s₀ : State} (h₀ : Keep quiet s₀ s) : Keep quiet s₀ (State.stnRecord n x ht32 s) := h₀.trans (stnRecord_acts ..).keep

theorem launch_acts (n target src : Nat) (s : State) : Acts .sc quiet s (State.launch n target src s).2 := by
  unfold State.launch
  repeat' first
    | fail_if_no_progress extract_lets
    | (with_reducible apply Acts.iteS) <;> intro _
    | (with_reducible apply Acts.iteS2) <;> intro _
    | (with_reducible apply Acts.ite) <;> intro _
    | with_reducible apply Acts.refl
    | with_reducible assumption
    | dsimp -zeta only
    | with_reducible apply put_trans
    | with_reducible apply bump_trans
    | with_reducible apply setStn_trans
    | with_reducible apply stnRecord_trans
    | split
    | dsimp -zeta only
    | dsimp +zetaDelta -zeta only
theorem launch_trans {n target src : Nat} {s : State} {s₀ : State} (h₀ : Acts .sc quiet s₀ s) : Acts .sc quiet s₀ (State.launch n target src s).2 := h₀.trans (launch_acts ..)
theorem launch_keep {n target src : Nat} {s : State} {s₀ : State} (h₀ : Keep quiet s₀ s) : Keep quiet s₀ (State.launch n target src s).2 := h₀.trans (launch_acts ..).keep

theorem arm_acts (n k ht : Nat) (s : State) : Acts .sc quiet s (State.arm n k ht s) := by
  unfold State.arm
  repeat' first
    | fail_if_no_progress extract_lets
    | (with_reducible apply Acts.ite) <;> intro _
    | with_reducible apply Acts.refl
    | with_reducible assumption
    | with_reducible apply put_trans
    | with_reducible apply setStn_trans
    | split
    | dsimp -zeta only
    | dsimp +zetaDelta -zeta only
theorem arm_trans {n k ht : Nat} {s : State} {s₀ : State} (h₀ : Acts .sc quiet s₀ s) : Acts .sc quiet s₀ (State.arm n k ht s) := h₀.trans (arm_acts ..)
theorem arm_keep {n k ht : Nat} {s : State} {s₀ : State} (h₀ : Keep quiet s₀ s) : Keep quiet s₀ (State.arm n k ht s) := h₀.trans (arm_acts ..).keep

theorem armTimed_acts (n k : Nat) (s : State) : Acts .sc quiet s (State.armTimed n k s) := by
  unfold State.armTimed
  repeat' first
    | fail_if_no_progress extract_lets
    | (with_reducible apply Acts.ite) <;> intro _
    | with_reducible apply Acts.refl
    | with_reducible assumption
    | with_reducible apply arm_trans
    | split
    | dsimp -zeta only
    | dsimp +zetaDelta -zeta only
theorem armTimed_trans {n k : Nat} {s : State} {s₀ : State} (h₀ : Acts .sc quiet s₀ s) : Acts .sc quiet s₀ (State.armTimed n k s) := h₀.trans (armTimed_acts ..)
theorem armTimed_keep {n k : Nat} {s : State} {s₀ : State} (h₀ : Keep quiet s₀ s) : Keep quiet s₀ (State.armTimed n k s) := h₀.trans (armTimed_acts ..).keep

theorem clearTargets_acts (n k : Nat) (s : State) : Acts .sc quiet s (State.clearTargets n k s) := by
  unfold State.clearTargets
  repeat' first
    | fail_if_no_progress extract_lets
    | (with_reducible apply Acts.ite) <;> intro _
    | with_reducible apply Acts.refl
    | with_reducible assumption
    | with_reducible apply setStn_trans
    | dsimp -zeta only
    | dsimp +zetaDelta -zeta only
theorem clearTargets_trans {n k : Nat} {s : State} {s₀ : State} (h₀ : Acts .sc quiet s₀ s) : Acts .sc quiet s₀ (State.clearTargets n k s) := h₀.trans (clearTargets_acts ..)
theorem clearTargets_keep {n k : Nat} {s : State} {s₀ : State} (h₀ : Keep quiet s₀ s) : Keep quiet s₀ (State.clearTargets n k s) := h₀.trans (clearTargets_acts ..).keep

theorem strobeCfgWritten_acts (k : Nat) (s before : State) : Acts .sc quiet s (State.strobeCfgWritten k s before) := by
  unfold State.strobeCfgWritten
  repeat' first
    | fail_if_no_progress extract_lets
    | (with_reducible apply Acts.ite) <;> intro _
    | with_reducible apply Acts.refl
    | with_reducible assumption
    | with_reducible apply setStn_trans
    | with_reducible apply armTimed_trans
    | with_reducible apply clearTargets_trans
    | ((with_reducible apply Acts.foldl_trans); intro _ _)
    | split
    | dsimp -zeta only
    | dsimp +zetaDelta -zeta only
theorem strobeCfgWritten_trans {k : Nat} {s before : State} {s₀ : State} (h₀ : Acts .sc quiet s₀ s) : Acts .sc quiet s₀ (State.strobeCfgWritten k s before) := h₀.trans (strobeCfgWritten_acts ..)
theorem strobeCfgWritten_keep {k : Nat} {s before : State} {s₀ : State} (h₀ : Keep quiet s₀ s) : Keep quiet s₀ (State.strobeCfgWritten k s before) := h₀.trans (strobeCfgWritten_acts ..).keep

theorem strobeEnWritten_acts (n : Nat) (s before : State) : Acts .sc quiet s (State.strobeEnWritten n s before) := by
  unfold State.strobeEnWritten
  repeat' first
    | fail_if_no_progress extract_lets
    | (with_reducible apply Acts.ite) <;> intro _
    | with_reducible apply Acts.refl
    | with_reducible assumption
    | with_reducible apply armTimed_trans
    | ((with_reducible apply Acts.foldl_trans); intro _ _)
    | split
    | dsimp -zeta only
theorem strobeEnWritten_trans {n : Nat} {s before : State} {s₀ : State} (h₀ : Acts .sc quiet s₀ s) : Acts .sc quiet s₀ (State.strobeEnWritten n s before) := h₀.trans (strobeEnWritten_acts ..)
theorem strobeEnWritten_keep {n : Nat} {s before : State} {s₀ : State} (h₀ : Keep quiet s₀ s) : Keep quiet s₀ (State.strobeEnWritten n s before) := h₀.trans (strobeEnWritten_acts ..).keep

theorem execStrobeFire_acts (n k : Nat) (edges : List Nat) (s : State) : ActsO .sc quiet s (execStrobeFire n k edges s) := by
  unfold execStrobeFire
  repeat' first
    | fail_if_no_progress extract_lets
    | (with_reducible apply ActsO.ite) <;> intro _
    | with_reducible apply ActsO.next
    | (with_reducible apply Acts.ite) <;> intro _
    | with_reducible apply Acts.refl
    | with_reducible assumption
    | with_reducible apply setStn_trans
    | with_reducible apply stnEdges_trans
    | with_reducible apply launch_trans
    | with_reducible apply arm_trans
    | (with_reducible apply Acts.snd; with_reducible assumption)
    | split
    | dsimp -zeta only
    | dsimp +zetaDelta -zeta only

theorem stnLoss_acts (n causeBit : Nat) (s : State) : Acts .sc quiet s (State.stnLoss n causeBit s) := by
  unfold State.stnLoss
  repeat' first
    | fail_if_no_progress extract_lets
    | (with_reducible apply Acts.ite) <;> intro _
    | with_reducible apply Acts.refl
    | with_reducible assumption
    | with_reducible apply put_trans
    | with_reducible apply faultAlert_trans
    | with_reducible apply setStn_trans
    | (with_reducible apply Acts.snd; with_reducible assumption)
    | split
    | dsimp -zeta only
    | dsimp +zetaDelta -zeta only
theorem stnLoss_trans {n causeBit : Nat} {s : State} {s₀ : State} (h₀ : Acts .sc quiet s₀ s) : Acts .sc quiet s₀ (State.stnLoss n causeBit s) := h₀.trans (stnLoss_acts ..)
theorem stnLoss_keep {n causeBit : Nat} {s : State} {s₀ : State} (h₀ : Keep quiet s₀ s) : Keep quiet s₀ (State.stnLoss n causeBit s) := h₀.trans (stnLoss_acts ..).keep

theorem stnRecover_acts (n : Nat) (s : State) : Acts .sc quiet s (State.stnRecover n s) := by
  unfold State.stnRecover
  repeat' first
    | fail_if_no_progress extract_lets
    | (with_reducible apply Acts.ite) <;> intro _
    | with_reducible apply Acts.refl
    | with_reducible assumption
    | with_reducible apply put_trans
    | with_reducible apply bump_trans
    | with_reducible apply setStn_trans
    | with_reducible apply stnRecord_trans
    | dsimp -zeta only
    | dsimp +zetaDelta -zeta only
theorem stnRecover_trans {n : Nat} {s : State} {s₀ : State} (h₀ : Acts .sc quiet s₀ s) : Acts .sc quiet s₀ (State.stnRecover n s) := h₀.trans (stnRecover_acts ..)
theorem stnRecover_keep {n : Nat} {s : State} {s₀ : State} (h₀ : Keep quiet s₀ s) : Keep quiet s₀ (State.stnRecover n s) := h₀.trans (stnRecover_acts ..).keep

theorem copyLost_acts (n : Nat) (w : HbWord) (s : State) : Acts .sc quiet s (State.copyLost n w s) := by
  unfold State.copyLost
  repeat' first
    | fail_if_no_progress extract_lets
    | (with_reducible apply Acts.ite) <;> intro _
    | with_reducible apply Acts.refl
    | with_reducible assumption
    | with_reducible apply postEvent_trans
    | (with_reducible apply Acts.snd; with_reducible assumption)
    | split
    | dsimp -zeta only
theorem copyLost_trans {n : Nat} {w : HbWord} {s : State} {s₀ : State} (h₀ : Acts .sc quiet s₀ s) : Acts .sc quiet s₀ (State.copyLost n w s) := h₀.trans (copyLost_acts ..)
theorem copyLost_keep {n : Nat} {w : HbWord} {s : State} {s₀ : State} (h₀ : Keep quiet s₀ s) : Keep quiet s₀ (State.copyLost n w s) := h₀.trans (copyLost_acts ..).keep

theorem execHeartbeatMissing_acts (n : Nat) (edges : List Nat) (s : State) : ActsO .sc quiet s (execHeartbeatMissing n edges s) := by
  unfold execHeartbeatMissing
  repeat' first
    | fail_if_no_progress extract_lets
    | (with_reducible apply ActsO.ite) <;> intro _
    | with_reducible apply ActsO.next
    | (with_reducible apply Acts.ite) <;> intro _
    | with_reducible apply Acts.refl
    | with_reducible assumption
    | with_reducible apply bump_trans
    | with_reducible apply setStn_trans
    | with_reducible apply stnEdges_trans
    | with_reducible apply stnLoss_trans
    | with_reducible apply copyLost_trans
    | split
    | dsimp -zeta only
    | dsimp +zetaDelta -zeta only

theorem hbQueue_acts (n : Nat) (m : HbMsg) (copies : Nat) (s : State) : Acts .sc quiet s (State.hbQueue n m copies s) := by
  unfold State.hbQueue
  repeat' first
    | fail_if_no_progress extract_lets
    | (with_reducible apply Acts.ite) <;> intro _
    | with_reducible apply Acts.refl
    | with_reducible assumption
    | with_reducible apply setStn_trans
    | dsimp -zeta only
    | dsimp +zetaDelta -zeta only
theorem hbQueue_trans {n : Nat} {m : HbMsg} {copies : Nat} {s : State} {s₀ : State} (h₀ : Acts .sc quiet s₀ s) : Acts .sc quiet s₀ (State.hbQueue n m copies s) := h₀.trans (hbQueue_acts ..)
theorem hbQueue_keep {n : Nat} {m : HbMsg} {copies : Nat} {s : State} {s₀ : State} (h₀ : Keep quiet s₀ s) : Keep quiet s₀ (State.hbQueue n m copies s) := h₀.trans (hbQueue_acts ..).keep

theorem hbQueueAll_acts (m : HbMsg) (copies : Nat) (s : State) : Acts .sc quiet s (State.hbQueueAll m copies s) := by
  unfold State.hbQueueAll
  repeat' first
    | fail_if_no_progress extract_lets
    | (with_reducible apply Acts.ite) <;> intro _
    | with_reducible apply Acts.refl
    | with_reducible assumption
    | with_reducible apply hbQueue_trans
    | ((with_reducible apply Acts.foldl_trans); intro _ _)
    | dsimp -zeta only
theorem hbQueueAll_trans {m : HbMsg} {copies : Nat} {s : State} {s₀ : State} (h₀ : Acts .sc quiet s₀ s) : Acts .sc quiet s₀ (State.hbQueueAll m copies s) := h₀.trans (hbQueueAll_acts ..)
theorem hbQueueAll_keep {m : HbMsg} {copies : Nat} {s : State} {s₀ : State} (h₀ : Keep quiet s₀ s) : Keep quiet s₀ (State.hbQueueAll m copies s) := h₀.trans (hbQueueAll_acts ..).keep

theorem hbControl_acts (n : Nat) (s : State) : Acts .sc quiet s (State.hbControl n s) := by
  unfold State.hbControl
  repeat' first
    | fail_if_no_progress extract_lets
    | (with_reducible apply Acts.ite) <;> intro _
    | with_reducible apply Acts.refl
    | with_reducible assumption
    | with_reducible apply hbQueue_trans
    | ((with_reducible apply Acts.foldl_trans); intro _ _)
    | (with_reducible apply Acts.snd; with_reducible assumption)
    | split
    | dsimp -zeta only
theorem hbControl_trans {n : Nat} {s : State} {s₀ : State} (h₀ : Acts .sc quiet s₀ s) : Acts .sc quiet s₀ (State.hbControl n s) := h₀.trans (hbControl_acts ..)
theorem hbControl_keep {n : Nat} {s : State} {s₀ : State} (h₀ : Keep quiet s₀ s) : Keep quiet s₀ (State.hbControl n s) := h₀.trans (hbControl_acts ..).keep

theorem execRegionClockMissing_acts (n : Nat) (s : State) : ActsO .sc quiet s (execRegionClockMissing n s) := by
  unfold execRegionClockMissing
  repeat' first
    | fail_if_no_progress extract_lets
    | (with_reducible apply ActsO.ite) <;> intro _
    | with_reducible apply ActsO.next
    | (with_reducible apply Acts.ite) <;> intro _
    | with_reducible apply Acts.refl
    | with_reducible assumption
    | with_reducible apply stnLoss_trans
    | with_reducible apply hbControl_trans
    | split
    | dsimp -zeta only
    | dsimp +zetaDelta -zeta only

theorem hbMeasure_acts (n trip : Nat) (s : State) : Acts .sc quiet s (State.hbMeasure n trip s) := by
  unfold State.hbMeasure
  repeat' first
    | fail_if_no_progress extract_lets
    | (with_reducible apply Acts.ite) <;> intro _
    | with_reducible apply Acts.refl
    | with_reducible assumption
    | with_reducible apply setStn_trans
    | with_reducible apply hbQueue_trans
    | ((with_reducible apply Acts.foldl_trans); intro _ _)
    | split
    | dsimp -zeta only
    | dsimp +zetaDelta -zeta only
theorem hbMeasure_trans {n trip : Nat} {s : State} {s₀ : State} (h₀ : Acts .sc quiet s₀ s) : Acts .sc quiet s₀ (State.hbMeasure n trip s) := h₀.trans (hbMeasure_acts ..)
theorem hbMeasure_keep {n trip : Nat} {s : State} {s₀ : State} (h₀ : Keep quiet s₀ s) : Keep quiet s₀ (State.hbMeasure n trip s) := h₀.trans (hbMeasure_acts ..).keep

theorem hbLaunch_acts (b n : Nat) (s : State) : Acts .sc quiet s (State.hbLaunch b n s) := by
  unfold State.hbLaunch
  repeat' first
    | fail_if_no_progress extract_lets
    | (with_reducible apply Acts.ite) <;> intro _
    | with_reducible apply Acts.refl
    | with_reducible assumption
    | with_reducible apply setStn_trans
    | (with_reducible apply Acts.snd; with_reducible assumption)
    | split
    | dsimp -zeta only
    | dsimp +zetaDelta -zeta only
theorem hbLaunch_trans {b n : Nat} {s : State} {s₀ : State} (h₀ : Acts .sc quiet s₀ s) : Acts .sc quiet s₀ (State.hbLaunch b n s) := h₀.trans (hbLaunch_acts ..)
theorem hbLaunch_keep {b n : Nat} {s : State} {s₀ : State} (h₀ : Keep quiet s₀ s) : Keep quiet s₀ (State.hbLaunch b n s) := h₀.trans (hbLaunch_acts ..).keep

theorem hbWord_acts (b n : Nat) (s : State) : Acts .sc quiet s (State.hbWord b n s) := by
  unfold State.hbWord
  repeat' first
    | fail_if_no_progress extract_lets
    | (with_reducible apply Acts.ite) <;> intro _
    | with_reducible apply Acts.refl
    | with_reducible assumption
    | with_reducible apply setDie_trans
    | with_reducible apply setStn_trans
    | with_reducible apply hbLaunch_trans
    | (with_reducible apply Acts.snd; with_reducible assumption)
    | split
    | dsimp -zeta only
    | dsimp +zetaDelta -zeta only
theorem hbWord_trans {b n : Nat} {s : State} {s₀ : State} (h₀ : Acts .sc quiet s₀ s) : Acts .sc quiet s₀ (State.hbWord b n s) := h₀.trans (hbWord_acts ..)
theorem hbWord_keep {b n : Nat} {s : State} {s₀ : State} (h₀ : Keep quiet s₀ s) : Keep quiet s₀ (State.hbWord b n s) := h₀.trans (hbWord_acts ..).keep

theorem oppPend_acts (w : OppSw) (s : State) : Acts .sc quiet s (State.oppPend w s) := by
  unfold State.oppPend
  repeat' first
    | fail_if_no_progress extract_lets
    | (with_reducible apply Acts.ite) <;> intro _
    | with_reducible apply Acts.refl
    | with_reducible assumption
    | with_reducible apply put_trans
    | with_reducible apply putFlag_trans
    | with_reducible apply setOpp_trans
    | split
    | dsimp -zeta only
theorem oppPend_trans {w : OppSw} {s : State} {s₀ : State} (h₀ : Acts .sc quiet s₀ s) : Acts .sc quiet s₀ (State.oppPend w s) := h₀.trans (oppPend_acts ..)
theorem oppPend_keep {w : OppSw} {s : State} {s₀ : State} (h₀ : Keep quiet s₀ s) : Keep quiet s₀ (State.oppPend w s) := h₀.trans (oppPend_acts ..).keep

theorem oppClear_acts (s : State) : Acts .sc quiet s (State.oppClear s) := by
  unfold State.oppClear
  repeat' first
    | fail_if_no_progress extract_lets
    | (with_reducible apply Acts.ite) <;> intro _
    | with_reducible apply Acts.refl
    | with_reducible assumption
    | with_reducible apply put_trans
    | with_reducible apply setOpp_trans
    | dsimp -zeta only
theorem oppClear_trans {s : State} {s₀ : State} (h₀ : Acts .sc quiet s₀ s) : Acts .sc quiet s₀ (State.oppClear s) := h₀.trans (oppClear_acts ..)
theorem oppClear_keep {s : State} {s₀ : State} (h₀ : Keep quiet s₀ s) : Keep quiet s₀ (State.oppClear s) := h₀.trans (oppClear_acts ..).keep

theorem oppArmAll_acts (s : State) : Acts .sc quiet s (State.oppArmAll s) := by
  unfold State.oppArmAll
  repeat' first
    | fail_if_no_progress extract_lets
    | (with_reducible apply Acts.ite) <;> intro _
    | with_reducible apply Acts.refl
    | with_reducible assumption
    | with_reducible apply setOpp_trans
    | with_reducible apply hbQueueAll_trans
    | (with_reducible apply Acts.snd; with_reducible assumption)
    | split
    | dsimp -zeta only
theorem oppArmAll_trans {s : State} {s₀ : State} (h₀ : Acts .sc quiet s₀ s) : Acts .sc quiet s₀ (State.oppArmAll s) := h₀.trans (oppArmAll_acts ..)
theorem oppArmAll_keep {s : State} {s₀ : State} (h₀ : Keep quiet s₀ s) : Keep quiet s₀ (State.oppArmAll s) := h₀.trans (oppArmAll_acts ..).keep

theorem oppDue_acts (b : Nat) (s : State) : Acts .sc quiet s (State.oppDue b s) := by
  unfold State.oppDue
  repeat' first
    | fail_if_no_progress extract_lets
    | (with_reducible apply Acts.ite) <;> intro _
    | with_reducible apply Acts.refl
    | with_reducible assumption
    | with_reducible apply setOpp_trans
    | with_reducible apply hbQueue_trans
    | with_reducible apply oppArmAll_trans
    | ((with_reducible apply Acts.foldl_trans); intro _ _)
    | (with_reducible apply Acts.snd; with_reducible assumption)
    | split
    | dsimp -zeta only
    | dsimp +zetaDelta -zeta only
theorem oppDue_trans {b : Nat} {s : State} {s₀ : State} (h₀ : Acts .sc quiet s₀ s) : Acts .sc quiet s₀ (State.oppDue b s) := h₀.trans (oppDue_acts ..)
theorem oppDue_keep {b : Nat} {s : State} {s₀ : State} (h₀ : Keep quiet s₀ s) : Keep quiet s₀ (State.oppDue b s) := h₀.trans (oppDue_acts ..).keep

theorem oppCancelAll_acts (w : OppSw) (s : State) : Acts .sc quiet s (State.oppCancelAll w s) := by
  unfold State.oppCancelAll
  repeat' first
    | fail_if_no_progress extract_lets
    | (with_reducible apply Acts.ite) <;> intro _
    | with_reducible apply Acts.refl
    | with_reducible assumption
    | with_reducible apply hbQueueAll_trans
    | split
    | dsimp -zeta only
theorem oppCancelAll_trans {w : OppSw} {s : State} {s₀ : State} (h₀ : Acts .sc quiet s₀ s) : Acts .sc quiet s₀ (State.oppCancelAll w s) := h₀.trans (oppCancelAll_acts ..)
theorem oppCancelAll_keep {w : OppSw} {s : State} {s₀ : State} (h₀ : Keep quiet s₀ s) : Keep quiet s₀ (State.oppCancelAll w s) := h₀.trans (oppCancelAll_acts ..).keep

theorem execHeartbeatSend_acts (trip : Nat) (s : State) : ActsO .sc quiet s (execHeartbeatSend trip s) := by
  unfold execHeartbeatSend
  repeat' first
    | fail_if_no_progress extract_lets
    | (with_reducible apply ActsO.ite) <;> intro _
    | with_reducible apply ActsO.next
    | (with_reducible apply Acts.ite) <;> intro _
    | with_reducible apply Acts.refl
    | with_reducible assumption
    | with_reducible apply setSync_trans
    | with_reducible apply hbMeasure_trans
    | with_reducible apply hbWord_trans
    | with_reducible apply oppDue_trans
    | ((with_reducible apply Acts.foldl_trans); intro _ _)
    | split
    | dsimp -zeta only
    | dsimp +zetaDelta -zeta only

theorem oppFromChange_acts (point at_ : Nat) (s : State) : Acts .sc quiet s (State.oppFromChange point at_ s) := by
  unfold State.oppFromChange
  repeat' first
    | fail_if_no_progress extract_lets
    | (with_reducible apply Acts.ite) <;> intro _
    | with_reducible apply Acts.refl
    | with_reducible assumption
    | with_reducible apply setOpp_trans
    | with_reducible apply oppPend_trans
    | with_reducible apply oppCancelAll_trans
    | (with_reducible apply Acts.snd; with_reducible assumption)
    | split
    | dsimp -zeta only
    | dsimp +zetaDelta -zeta only
theorem oppFromChange_trans {point at_ : Nat} {s : State} {s₀ : State} (h₀ : Acts .sc quiet s₀ s) : Acts .sc quiet s₀ (State.oppFromChange point at_ s) := h₀.trans (oppFromChange_acts ..)
theorem oppFromChange_keep {point at_ : Nat} {s : State} {s₀ : State} (h₀ : Keep quiet s₀ s) : Keep quiet s₀ (State.oppFromChange point at_ s) := h₀.trans (oppFromChange_acts ..).keep

theorem execOppEvaluate_acts (temp : Int) (droop req : Nat) (reqValid : Bool) (s : State) : ActsO .sc quiet s (execOppEvaluate temp droop req reqValid s) := by
  unfold execOppEvaluate
  repeat' first
    | fail_if_no_progress extract_lets
    | (with_reducible apply ActsO.ite) <;> intro _
    | with_reducible apply ActsO.next
    | (with_reducible apply Acts.ite) <;> intro _
    | with_reducible apply Acts.refl
    | with_reducible assumption
    | with_reducible apply put_trans
    | with_reducible apply putFlag_trans
    | with_reducible apply oppPend_trans
    | (with_reducible apply Acts.snd; with_reducible assumption)
    | split
    | dsimp -zeta only
    | dsimp +zetaDelta -zeta only

theorem execOppSwitch_acts (m : MbGo) (s : State) (hd : quiet = true → m.dma = false := by first | assumption | nofun) : ActsO m.part quiet s (execOppSwitch m s) := by
  unfold execOppSwitch
  repeat' first
    | fail_if_no_progress extract_lets
    | ((with_reducible apply mailbox_fd); intro _ _)
    | ((with_reducible apply mailbox_sc); intro _ _)
    | ((with_reducible apply mailbox_own2880); intro _ _)
    | ((with_reducible apply mailbox_any); intro _ _)
    | (with_reducible apply Acts.iteS) <;> intro _
    | (with_reducible apply Acts.iteS2) <;> intro _
    | (with_reducible apply ActsO.ite) <;> intro _
    | with_reducible apply ActsO.next
    | (with_reducible apply Acts.ite) <;> intro _
    | with_reducible apply Acts.refl
    | with_reducible assumption
    | dsimp -zeta only
    | with_reducible apply oppPend_trans
    | split
    | dsimp -zeta only
    | dsimp +zetaDelta -zeta only

theorem execOppCancel_acts (m : MbGo) (s : State) (hd : quiet = true → m.dma = false := by first | assumption | nofun) : ActsO m.part quiet s (execOppCancel m s) := by
  unfold execOppCancel
  repeat' first
    | fail_if_no_progress extract_lets
    | ((with_reducible apply mailbox_fd); intro _ _)
    | ((with_reducible apply mailbox_sc); intro _ _)
    | ((with_reducible apply mailbox_own2880); intro _ _)
    | ((with_reducible apply mailbox_any); intro _ _)
    | (with_reducible apply Acts.iteS) <;> intro _
    | (with_reducible apply Acts.iteS2) <;> intro _
    | (with_reducible apply ActsO.ite) <;> intro _
    | with_reducible apply ActsO.next
    | (with_reducible apply Acts.ite) <;> intro _
    | with_reducible apply Acts.refl
    | with_reducible assumption
    | dsimp -zeta only
    | with_reducible apply oppClear_trans
    | with_reducible apply oppCancelAll_trans
    | (with_reducible apply Acts.snd; with_reducible assumption)
    | split
    | dsimp -zeta only

theorem execStationRead_acts (m : MbGo) (s : State) (hd : quiet = true → m.dma = false := by first | assumption | nofun) : ActsO m.part quiet s (execStationRead m s) := by
  unfold execStationRead
  repeat' first
    | fail_if_no_progress extract_lets
    | ((with_reducible apply mailbox_fd); intro _ _)
    | ((with_reducible apply mailbox_sc); intro _ _)
    | ((with_reducible apply mailbox_own2880); intro _ _)
    | ((with_reducible apply mailbox_any); intro _ _)
    | (with_reducible apply Acts.iteS) <;> intro _
    | (with_reducible apply Acts.iteS2) <;> intro _
    | (with_reducible apply ActsO.ite) <;> intro _
    | with_reducible apply ActsO.next
    | (with_reducible apply Acts.ite) <;> intro _
    | with_reducible apply Acts.refl
    | with_reducible assumption
    | dsimp -zeta only
    | split
    | dsimp -zeta only
    | dsimp +zetaDelta -zeta only

theorem execOppReadyAssert_acts (s : State) : ActsO .sc quiet s (execOppReadyAssert s) := by
  unfold execOppReadyAssert
  repeat' first
    | fail_if_no_progress extract_lets
    | (with_reducible apply ActsO.ite) <;> intro _
    | with_reducible apply ActsO.next
    | (with_reducible apply Acts.ite) <;> intro _
    | with_reducible apply Acts.refl
    | with_reducible assumption
    | with_reducible apply put_trans
    | with_reducible apply oppArmAll_trans
    | dsimp -zeta only

theorem execOppReadyTimeout_acts (s : State) : KeepO quiet s (execOppReadyTimeout s) := by
  unfold execOppReadyTimeout
  repeat' first
    | fail_if_no_progress extract_lets
    | (with_reducible apply KeepO.ite) <;> intro _
    | with_reducible apply KeepO.next
    | (with_reducible apply Keep.ite) <;> intro _
    | with_reducible apply Keep.refl
    | with_reducible assumption
    | with_reducible apply bump_keep
    | with_reducible apply faultLog_keep
    | with_reducible apply faultAlert_keep
    | with_reducible apply awaitHt_keep
    | with_reducible apply hbQueueAll_keep
    | with_reducible apply oppClear_keep
    | with_reducible apply oppArmAll_keep
    | (with_reducible apply Keep.snd; with_reducible assumption)
    | split
    | dsimp -zeta only
    | dsimp +zetaDelta -zeta only

theorem oppArmLost_acts (n point : Nat) (cancel : Bool) (s : State) : Acts .sc quiet s (State.oppArmLost n point cancel s) := by
  unfold State.oppArmLost
  repeat' first
    | fail_if_no_progress extract_lets
    | (with_reducible apply Acts.ite) <;> intro _
    | with_reducible apply Acts.refl
    | with_reducible assumption
    | with_reducible apply bump_trans
    | with_reducible apply setOpp_trans
    | with_reducible apply hbQueue_trans
    | with_reducible apply oppClear_trans
    | with_reducible apply oppCancelAll_trans
    | (with_reducible apply Acts.snd; with_reducible assumption)
    | split
    | dsimp -zeta only
    | dsimp +zetaDelta -zeta only
theorem oppArmLost_trans {n point : Nat} {cancel : Bool} {s : State} {s₀ : State} (h₀ : Acts .sc quiet s₀ s) : Acts .sc quiet s₀ (State.oppArmLost n point cancel s) := h₀.trans (oppArmLost_acts ..)
theorem oppArmLost_keep {n point : Nat} {cancel : Bool} {s : State} {s₀ : State} (h₀ : Keep quiet s₀ s) : Keep quiet s₀ (State.oppArmLost n point cancel s) := h₀.trans (oppArmLost_acts ..).keep

theorem execOppSelDrive_acts (n : Nat) (edges : List Nat) (s : State) : ActsO .sc quiet s (execOppSelDrive n edges s) := by
  unfold execOppSelDrive
  repeat' first
    | fail_if_no_progress extract_lets
    | (with_reducible apply ActsO.ite) <;> intro _
    | with_reducible apply ActsO.next
    | (with_reducible apply Acts.ite) <;> intro _
    | with_reducible apply Acts.refl
    | with_reducible assumption
    | with_reducible apply setStn_trans
    | with_reducible apply stnEdges_trans
    | (with_reducible apply Acts.snd; with_reducible assumption)
    | split
    | dsimp -zeta only
    | dsimp +zetaDelta -zeta only

theorem oppSettle_acts (s : State) : Keep quiet s (State.oppSettle s) := by
  unfold State.oppSettle
  repeat' first
    | fail_if_no_progress extract_lets
    | (with_reducible apply Keep.ite) <;> intro _
    | with_reducible apply Keep.refl
    | with_reducible assumption
    | with_reducible apply put_keep
    | with_reducible apply awaitHt_keep
    | with_reducible apply oppClear_keep
    | (with_reducible apply Keep.snd; with_reducible assumption)
    | split
    | dsimp -zeta only
theorem oppSettle_keep {s : State} {s₀ : State} (h₀ : Keep quiet s₀ s) : Keep quiet s₀ (State.oppSettle s) := h₀.trans (oppSettle_acts ..)

theorem execOppGo_acts (n : Nat) (edges : List Nat) (s : State) : KeepO quiet s (execOppGo n edges s) := by
  unfold execOppGo
  repeat' first
    | fail_if_no_progress extract_lets
    | (with_reducible apply KeepO.ite) <;> intro _
    | with_reducible apply KeepO.next
    | (with_reducible apply Keep.ite) <;> intro _
    | with_reducible apply Keep.refl
    | with_reducible assumption
    | with_reducible apply setStn_keep
    | with_reducible apply setOpp_keep
    | with_reducible apply stnEdges_keep
    | with_reducible apply oppSettle_keep
    | (with_reducible apply Keep.snd; with_reducible assumption)
    | split
    | dsimp -zeta only
    | dsimp +zetaDelta -zeta only

theorem hbMessage_acts (n : Nat) (s : State) : Acts .sc quiet s (State.hbMessage n s) := by
  unfold State.hbMessage
  repeat' first
    | fail_if_no_progress extract_lets
    | (with_reducible apply Acts.ite) <;> intro _
    | with_reducible apply Acts.refl
    | with_reducible assumption
    | with_reducible apply fresh_trans
    | with_reducible apply setStn_trans
    | with_reducible apply arm_trans
    | (with_reducible apply Acts.snd; with_reducible assumption)
    | split
    | dsimp -zeta only
    | dsimp +zetaDelta -zeta only
theorem hbMessage_trans {n : Nat} {s : State} {s₀ : State} (h₀ : Acts .sc quiet s₀ s) : Acts .sc quiet s₀ (State.hbMessage n s) := h₀.trans (hbMessage_acts ..)
theorem hbMessage_keep {n : Nat} {s : State} {s₀ : State} (h₀ : Keep quiet s₀ s) : Keep quiet s₀ (State.hbMessage n s) := h₀.trans (hbMessage_acts ..).keep

theorem hbCrcFail_acts (n : Nat) (s : State) : Acts .sc quiet s (State.hbCrcFail n s) := by
  unfold State.hbCrcFail
  repeat' first
    | fail_if_no_progress extract_lets
    | (with_reducible apply Acts.ite) <;> intro _
    | with_reducible apply Acts.refl
    | with_reducible assumption
    | with_reducible apply bump_trans
    | with_reducible apply copyLost_trans
    | dsimp -zeta only
theorem hbCrcFail_trans {n : Nat} {s : State} {s₀ : State} (h₀ : Acts .sc quiet s₀ s) : Acts .sc quiet s₀ (State.hbCrcFail n s) := h₀.trans (hbCrcFail_acts ..)
theorem hbCrcFail_keep {n : Nat} {s : State} {s₀ : State} (h₀ : Keep quiet s₀ s) : Keep quiet s₀ (State.hbCrcFail n s) := h₀.trans (hbCrcFail_acts ..).keep

theorem armLostAtHub_acts (n : Nat) (m : HbMsg) (s : State) : Acts .sc quiet s (State.armLostAtHub n m s) := by
  unfold State.armLostAtHub
  repeat' first
    | fail_if_no_progress extract_lets
    | (with_reducible apply Acts.ite) <;> intro _
    | with_reducible apply Acts.refl
    | with_reducible assumption
    | with_reducible apply setStn_trans
    | with_reducible apply dieRecordAt_trans
    | with_reducible apply hbQueue_trans
    | with_reducible apply oppArmLost_trans
    | (with_reducible apply Acts.snd; with_reducible assumption)
    | split
    | dsimp -zeta only
    | dsimp +zetaDelta -zeta only
theorem armLostAtHub_trans {n : Nat} {m : HbMsg} {s : State} {s₀ : State} (h₀ : Acts .sc quiet s₀ s) : Acts .sc quiet s₀ (State.armLostAtHub n m s) := h₀.trans (armLostAtHub_acts ..)
theorem armLostAtHub_keep {n : Nat} {m : HbMsg} {s : State} {s₀ : State} (h₀ : Keep quiet s₀ s) : Keep quiet s₀ (State.armLostAtHub n m s) := h₀.trans (armLostAtHub_acts ..).keep

theorem hbAccept_acts (n hb phi : Nat) (s : State) : Acts .sc quiet s (State.hbAccept n hb phi s) := by
  unfold State.hbAccept
  repeat' first
    | fail_if_no_progress extract_lets
    | (with_reducible apply Acts.ite) <;> intro _
    | with_reducible apply Acts.refl
    | with_reducible assumption
    | with_reducible apply bump_trans
    | with_reducible apply setStn_trans
    | with_reducible apply settle_trans
    | with_reducible apply stnRecover_trans
    | with_reducible apply hbControl_trans
    | split
    | dsimp -zeta only
    | dsimp +zetaDelta -zeta only
theorem hbAccept_trans {n hb phi : Nat} {s : State} {s₀ : State} (h₀ : Acts .sc quiet s₀ s) : Acts .sc quiet s₀ (State.hbAccept n hb phi s) := h₀.trans (hbAccept_acts ..)
theorem hbAccept_keep {n hb phi : Nat} {s : State} {s₀ : State} (h₀ : Keep quiet s₀ s) : Keep quiet s₀ (State.hbAccept n hb phi s) := h₀.trans (hbAccept_acts ..).keep

end Sys2Proof.Machine
end

