-- ==== Sys2Proof/Laws/ActsQueues.lean ====
section
/-! SUPPORT. One lemma an operation: what it keeps (Acts, Keep). -/

namespace Sys2Proof.Machine

open Sys2Proof

set_option linter.unusedTactic false
set_option linter.unreachableTactic false
set_option linter.unusedVariables false

variable {quiet : Bool}

theorem ctxRecord_acts (c : Nat) (x : Rec) (s : State) : Acts .sc quiet s (State.ctxRecord c x s) := by
  unfold State.ctxRecord
  repeat' first
    | fail_if_no_progress extract_lets
    | (with_reducible apply Acts.ite) <;> intro _
    | with_reducible apply Acts.refl
    | with_reducible assumption
    | with_reducible apply record_trans
    | dsimp -zeta only
theorem ctxRecord_trans {c : Nat} {x : Rec} {s : State} {s₀ : State} (h₀ : Acts .sc quiet s₀ s) : Acts .sc quiet s₀ (State.ctxRecord c x s) := h₀.trans (ctxRecord_acts ..)
theorem ctxRecord_keep {c : Nat} {x : Rec} {s : State} {s₀ : State} (h₀ : Keep quiet s₀ s) : Keep quiet s₀ (State.ctxRecord c x s) := h₀.trans (ctxRecord_acts ..).keep

theorem put64_acts (lo hi : Field) (v : Nat) (s : State) : Acts .sc quiet s (State.put64 lo hi v s) := by
  unfold State.put64
  repeat' first
    | fail_if_no_progress extract_lets
    | (with_reducible apply Acts.ite) <;> intro _
    | with_reducible apply Acts.refl
    | with_reducible assumption
    | with_reducible apply put_trans
    | dsimp -zeta only
theorem put64_trans {lo hi : Field} {v : Nat} {s : State} {s₀ : State} (h₀ : Acts .sc quiet s₀ s) : Acts .sc quiet s₀ (State.put64 lo hi v s) := h₀.trans (put64_acts ..)
theorem put64_keep {lo hi : Field} {v : Nat} {s : State} {s₀ : State} (h₀ : Keep quiet s₀ s) : Keep quiet s₀ (State.put64 lo hi v s) := h₀.trans (put64_acts ..).keep

theorem dieUp_acts (w : CtlWord) (s : State) : Acts .sc quiet s (State.dieUp w s) := by
  unfold State.dieUp
  repeat' first
    | fail_if_no_progress extract_lets
    | (with_reducible apply Acts.ite) <;> intro _
    | with_reducible apply Acts.refl
    | with_reducible assumption
    | with_reducible apply sendUp_trans
    | dsimp -zeta only
theorem dieUp_trans {w : CtlWord} {s : State} {s₀ : State} (h₀ : Acts .sc quiet s₀ s) : Acts .sc quiet s₀ (State.dieUp w s) := h₀.trans (dieUp_acts ..)
theorem dieUp_keep {w : CtlWord} {s : State} {s₀ : State} (h₀ : Keep quiet s₀ s) : Keep quiet s₀ (State.dieUp w s) := h₀.trans (dieUp_acts ..).keep

theorem sendMonitor_acts (c : Nat) (dead : Bool) (s : State) : Acts .sc quiet s (State.sendMonitor c dead s) := by
  unfold State.sendMonitor
  repeat' first
    | fail_if_no_progress extract_lets
    | (with_reducible apply Acts.ite) <;> intro _
    | with_reducible apply Acts.refl
    | with_reducible assumption
    | with_reducible apply dieUp_trans
    | (with_reducible apply Acts.snd; with_reducible assumption)
    | split
    | dsimp -zeta only
theorem sendMonitor_trans {c : Nat} {dead : Bool} {s : State} {s₀ : State} (h₀ : Acts .sc quiet s₀ s) : Acts .sc quiet s₀ (State.sendMonitor c dead s) := h₀.trans (sendMonitor_acts ..)
theorem sendMonitor_keep {c : Nat} {dead : Bool} {s : State} {s₀ : State} (h₀ : Keep quiet s₀ s) : Keep quiet s₀ (State.sendMonitor c dead s) := h₀.trans (sendMonitor_acts ..).keep

theorem setMon_acts (c : Nat) (m : MonCtx) (s : State) : Acts .sc quiet s (State.setMon c m s) := by
  unfold State.setMon
  repeat' first
    | fail_if_no_progress extract_lets
    | (with_reducible apply Acts.ite) <;> intro _
    | with_reducible apply Acts.refl
    | with_reducible assumption
    | with_reducible apply setSync_trans
    | dsimp -zeta only
theorem setMon_trans {c : Nat} {m : MonCtx} {s : State} {s₀ : State} (h₀ : Acts .sc quiet s₀ s) : Acts .sc quiet s₀ (State.setMon c m s) := h₀.trans (setMon_acts ..)
theorem setMon_keep {c : Nat} {m : MonCtx} {s : State} {s₀ : State} (h₀ : Keep quiet s₀ s) : Keep quiet s₀ (State.setMon c m s) := h₀.trans (setMon_acts ..).keep

theorem monEnd_acts (c : Nat) (s : State) : Acts .sc quiet s (State.monEnd c s) := by
  unfold State.monEnd
  repeat' first
    | fail_if_no_progress extract_lets
    | (with_reducible apply Acts.ite) <;> intro _
    | with_reducible apply Acts.refl
    | with_reducible assumption
    | with_reducible apply put64_trans
    | with_reducible apply sendMonitor_trans
    | split
    | dsimp -zeta only
    | dsimp +zetaDelta -zeta only
theorem monEnd_trans {c : Nat} {s : State} {s₀ : State} (h₀ : Acts .sc quiet s₀ s) : Acts .sc quiet s₀ (State.monEnd c s) := h₀.trans (monEnd_acts ..)
theorem monEnd_keep {c : Nat} {s : State} {s₀ : State} (h₀ : Keep quiet s₀ s) : Keep quiet s₀ (State.monEnd c s) := h₀.trans (monEnd_acts ..).keep

theorem monArrival_acts (c : Nat) (s : State) : Acts .sc quiet s (State.monArrival c s) := by
  unfold State.monArrival
  repeat' first
    | fail_if_no_progress extract_lets
    | (with_reducible apply Acts.ite) <;> intro _
    | with_reducible apply Acts.refl
    | with_reducible assumption
    | with_reducible apply setMon_trans
    | with_reducible apply monEnd_trans
    | dsimp -zeta only
theorem monArrival_trans {c : Nat} {s : State} {s₀ : State} (h₀ : Acts .sc quiet s₀ s) : Acts .sc quiet s₀ (State.monArrival c s) := h₀.trans (monArrival_acts ..)
theorem monArrival_keep {c : Nat} {s : State} {s₀ : State} (h₀ : Keep quiet s₀ s) : Keep quiet s₀ (State.monArrival c s) := h₀.trans (monArrival_acts ..).keep

theorem monStall_acts (c : Nat) (s : State) : Acts .sc quiet s (State.monStall c s) := by
  unfold State.monStall
  repeat' first
    | fail_if_no_progress extract_lets
    | (with_reducible apply Acts.ite) <;> intro _
    | with_reducible apply Acts.refl
    | with_reducible assumption
    | with_reducible apply setMon_trans
    | (with_reducible apply Acts.snd; with_reducible assumption)
    | split
    | dsimp -zeta only
    | dsimp +zetaDelta -zeta only
theorem monStall_trans {c : Nat} {s : State} {s₀ : State} (h₀ : Acts .sc quiet s₀ s) : Acts .sc quiet s₀ (State.monStall c s) := h₀.trans (monStall_acts ..)
theorem monStall_keep {c : Nat} {s : State} {s₀ : State} (h₀ : Keep quiet s₀ s) : Keep quiet s₀ (State.monStall c s) := h₀.trans (monStall_acts ..).keep

theorem setQueue_acts (q : Nat) (x : SQueue) (s : State) : Acts .sc quiet s (State.setQueue q x s) := by
  unfold State.setQueue
  repeat' first
    | fail_if_no_progress extract_lets
    | (with_reducible apply Acts.ite) <;> intro _
    | with_reducible apply Acts.refl
    | with_reducible assumption
    | with_reducible apply put_trans
    | with_reducible apply putFlag_trans
    | with_reducible apply holdLadder_trans
    | with_reducible apply unholdLadder_trans
    | with_reducible apply setSync_trans
    | with_reducible apply monStall_trans
    | ((with_reducible apply Acts.foldl_trans); intro _ _)
    | (with_reducible apply Acts.snd; with_reducible assumption)
    | split
    | dsimp -zeta only
    | dsimp +zetaDelta -zeta only
theorem setQueue_trans {q : Nat} {x : SQueue} {s : State} {s₀ : State} (h₀ : Acts .sc quiet s₀ s) : Acts .sc quiet s₀ (State.setQueue q x s) := h₀.trans (setQueue_acts ..)
theorem setQueue_keep {q : Nat} {x : SQueue} {s : State} {s₀ : State} (h₀ : Keep quiet s₀ s) : Keep quiet s₀ (State.setQueue q x s) := h₀.trans (setQueue_acts ..).keep

theorem recordRelease_acts (q : Nat) (e : QEntry) (status : Nat) (s : State) : Acts .sc quiet s (State.recordRelease q e status s) := by
  unfold State.recordRelease
  repeat' first
    | fail_if_no_progress extract_lets
    | (with_reducible apply Acts.ite) <;> intro _
    | with_reducible apply Acts.refl
    | with_reducible assumption
    | with_reducible apply ctxRecord_trans
    | split
    | dsimp -zeta only
theorem recordRelease_trans {q : Nat} {e : QEntry} {status : Nat} {s : State} {s₀ : State} (h₀ : Acts .sc quiet s₀ s) : Acts .sc quiet s₀ (State.recordRelease q e status s) := h₀.trans (recordRelease_acts ..)
theorem recordRelease_keep {q : Nat} {e : QEntry} {status : Nat} {s : State} {s₀ : State} (h₀ : Keep quiet s₀ s) : Keep quiet s₀ (State.recordRelease q e status s) := h₀.trans (recordRelease_acts ..).keep

theorem qResolve_acts (q tag status flags : Nat) (s : State) : Acts .sc quiet s (State.qResolve q tag status flags s) := by
  unfold State.qResolve
  repeat' first
    | fail_if_no_progress extract_lets
    | (with_reducible apply Acts.ite) <;> intro _
    | with_reducible apply Acts.refl
    | with_reducible assumption
    | with_reducible apply monEnd_trans
    | with_reducible apply setQueue_trans
    | with_reducible apply recordRelease_trans
    | (with_reducible apply Acts.snd; with_reducible assumption)
    | split
    | dsimp -zeta only
    | dsimp +zetaDelta -zeta only
theorem qResolve_trans {q tag status flags : Nat} {s : State} {s₀ : State} (h₀ : Acts .sc quiet s₀ s) : Acts .sc quiet s₀ (State.qResolve q tag status flags s) := h₀.trans (qResolve_acts ..)
theorem qResolve_keep {q tag status flags : Nat} {s : State} {s₀ : State} (h₀ : Keep quiet s₀ s) : Keep quiet s₀ (State.qResolve q tag status flags s) := h₀.trans (qResolve_acts ..).keep

theorem qMisuse_acts (q status : Nat) (s : State) : Acts .sc quiet s (State.qMisuse q status s) := by
  unfold State.qMisuse
  repeat' first
    | fail_if_no_progress extract_lets
    | (with_reducible apply Acts.ite) <;> intro _
    | with_reducible apply Acts.refl
    | with_reducible assumption
    | with_reducible apply put_trans
    | with_reducible apply bump_trans
    | split
    | dsimp -zeta only
    | dsimp +zetaDelta -zeta only
theorem qMisuse_trans {q status : Nat} {s : State} {s₀ : State} (h₀ : Acts .sc quiet s₀ s) : Acts .sc quiet s₀ (State.qMisuse q status s) := h₀.trans (qMisuse_acts ..)
theorem qMisuse_keep {q status : Nat} {s : State} {s₀ : State} (h₀ : Keep quiet s₀ s) : Keep quiet s₀ (State.qMisuse q status s) := h₀.trans (qMisuse_acts ..).keep

theorem setPay_acts (x : PaySt) (s : State) : Acts .sc quiet s (State.setPay x s) := by
  unfold State.setPay
  repeat' first
    | fail_if_no_progress extract_lets
    | (with_reducible apply Acts.ite) <;> intro _
    | with_reducible apply Acts.refl
    | with_reducible assumption
    | with_reducible apply setDie_trans
    | with_reducible apply put_trans
    | dsimp -zeta only
theorem setPay_trans {x : PaySt} {s : State} {s₀ : State} (h₀ : Acts .sc quiet s₀ s) : Acts .sc quiet s₀ (State.setPay x s) := h₀.trans (setPay_acts ..)
theorem setPay_keep {x : PaySt} {s : State} {s₀ : State} (h₀ : Keep quiet s₀ s) : Keep quiet s₀ (State.setPay x s) := h₀.trans (setPay_acts ..).keep

theorem payInt_acts (i : Nat) (s : State) : Acts .sc quiet s (State.payInt i s) := by
  unfold State.payInt
  repeat' first
    | fail_if_no_progress extract_lets
    | (with_reducible apply Acts.ite) <;> intro _
    | with_reducible apply Acts.refl
    | with_reducible assumption
    | with_reducible apply put_trans
    | dsimp -zeta only
theorem payInt_trans {i : Nat} {s : State} {s₀ : State} (h₀ : Acts .sc quiet s₀ s) : Acts .sc quiet s₀ (State.payInt i s) := h₀.trans (payInt_acts ..)
theorem payInt_keep {i : Nat} {s : State} {s₀ : State} (h₀ : Keep quiet s₀ s) : Keep quiet s₀ (State.payInt i s) := h₀.trans (payInt_acts ..).keep

theorem endDesc_acts (d : Desc) (rstatus seq : Nat) (r : Summary) (doneFlags : Nat) (s : State) : Acts .sc false s (State.endDesc d rstatus seq r doneFlags s) := by
  unfold State.endDesc
  repeat' first
    | fail_if_no_progress extract_lets
    | (with_reducible apply Acts.ite) <;> intro _
    | with_reducible apply Acts.refl
    | with_reducible assumption
    | with_reducible apply dmaWrite_trans
    | with_reducible apply setPay_trans
    | split
    | exact nofun
    | dsimp -zeta only
    | dsimp +zetaDelta -zeta only
theorem endDesc_trans {d : Desc} {rstatus seq : Nat} {r : Summary} {doneFlags : Nat} {s : State} {s₀ : State} (h₀ : Acts .sc false s₀ s) : Acts .sc false s₀ (State.endDesc d rstatus seq r doneFlags s) := h₀.trans (endDesc_acts ..)
theorem endDesc_keep {d : Desc} {rstatus seq : Nat} {r : Summary} {doneFlags : Nat} {s : State} {s₀ : State} (h₀ : Keep false s₀ s) : Keep false s₀ (State.endDesc d rstatus seq r doneFlags s) := h₀.trans (endDesc_acts ..).keep

theorem countLost_acts (s : State) : Acts .sc quiet s (State.countLost s) := by
  unfold State.countLost
  repeat' first
    | fail_if_no_progress extract_lets
    | (with_reducible apply Acts.ite) <;> intro _
    | with_reducible apply Acts.refl
    | with_reducible assumption
    | with_reducible apply bump_trans
    | with_reducible apply payInt_trans
    | dsimp -zeta only
theorem countLost_trans {s : State} {s₀ : State} (h₀ : Acts .sc quiet s₀ s) : Acts .sc quiet s₀ (State.countLost s) := h₀.trans (countLost_acts ..)
theorem countLost_keep {s : State} {s₀ : State} (h₀ : Keep quiet s₀ s) : Keep quiet s₀ (State.countLost s) := h₀.trans (countLost_acts ..).keep

theorem setSlotAt_acts (r : SlotRef) (v : Slot) (s : State) : Acts .sc quiet s (State.setSlotAt r v s) := by
  unfold State.setSlotAt
  repeat' first
    | fail_if_no_progress extract_lets
    | (with_reducible apply Acts.ite) <;> intro _
    | with_reducible apply Acts.refl
    | with_reducible assumption
    | with_reducible apply setStn_trans
    | with_reducible apply setSync_trans
    | (with_reducible apply Acts.snd; with_reducible assumption)
    | split
    | dsimp -zeta only
theorem setSlotAt_trans {r : SlotRef} {v : Slot} {s : State} {s₀ : State} (h₀ : Acts .sc quiet s₀ s) : Acts .sc quiet s₀ (State.setSlotAt r v s) := h₀.trans (setSlotAt_acts ..)
theorem setSlotAt_keep {r : SlotRef} {v : Slot} {s : State} {s₀ : State} (h₀ : Keep quiet s₀ s) : Keep quiet s₀ (State.setSlotAt r v s) := h₀.trans (setSlotAt_acts ..).keep

theorem relQueue_acts (r : SlotRef) (q status : Nat) (s : State) : Acts .sc quiet s (State.relQueue r q status s) := by
  unfold State.relQueue
  repeat' first
    | fail_if_no_progress extract_lets
    | (with_reducible apply Acts.ite) <;> intro _
    | with_reducible apply Acts.refl
    | with_reducible assumption
    | with_reducible apply setSync_trans
    | with_reducible apply qResolve_trans
    | (with_reducible apply Acts.snd; with_reducible assumption)
    | split
    | dsimp -zeta only
theorem relQueue_trans {r : SlotRef} {q status : Nat} {s : State} {s₀ : State} (h₀ : Acts .sc quiet s₀ s) : Acts .sc quiet s₀ (State.relQueue r q status s) := h₀.trans (relQueue_acts ..)
theorem relQueue_keep {r : SlotRef} {q status : Nat} {s : State} {s₀ : State} (h₀ : Keep quiet s₀ s) : Keep quiet s₀ (State.relQueue r q status s) := h₀.trans (relQueue_acts ..).keep

theorem hostWaitEnd_acts (en status epoch : Nat) (s : State) : Acts .sc quiet s (State.hostWaitEnd en status epoch s) := by
  unfold State.hostWaitEnd
  repeat' first
    | fail_if_no_progress extract_lets
    | (with_reducible apply Acts.ite) <;> intro _
    | with_reducible apply Acts.refl
    | with_reducible assumption
    | with_reducible apply put_trans
    | dsimp -zeta only
    | dsimp +zetaDelta -zeta only
theorem hostWaitEnd_trans {en status epoch : Nat} {s : State} {s₀ : State} (h₀ : Acts .sc quiet s₀ s) : Acts .sc quiet s₀ (State.hostWaitEnd en status epoch s) := h₀.trans (hostWaitEnd_acts ..)
theorem hostWaitEnd_keep {en status epoch : Nat} {s : State} {s₀ : State} (h₀ : Keep quiet s₀ s) : Keep quiet s₀ (State.hostWaitEnd en status epoch s) := h₀.trans (hostWaitEnd_acts ..).keep

theorem relWaiters_acts (r : SlotRef) (status : Nat) (f : Nat → Bool) (s : State) : Acts .sc quiet s (State.relWaiters r status f s) := by
  unfold State.relWaiters
  repeat' first
    | fail_if_no_progress extract_lets
    | (with_reducible apply Acts.ite) <;> intro _
    | with_reducible apply Acts.refl
    | with_reducible assumption
    | with_reducible apply setSlotAt_trans
    | with_reducible apply relQueue_trans
    | with_reducible apply hostWaitEnd_trans
    | ((with_reducible apply Acts.foldl_trans); intro _ _)
    | dsimp -zeta only
    | dsimp +zetaDelta -zeta only
theorem relWaiters_trans {r : SlotRef} {status : Nat} {f : Nat → Bool} {s : State} {s₀ : State} (h₀ : Acts .sc quiet s₀ s) : Acts .sc quiet s₀ (State.relWaiters r status f s) := h₀.trans (relWaiters_acts ..)
theorem relWaiters_keep {r : SlotRef} {status : Nat} {f : Nat → Bool} {s : State} {s₀ : State} (h₀ : Keep quiet s₀ s) : Keep quiet s₀ (State.relWaiters r status f s) := h₀.trans (relWaiters_acts ..).keep

theorem toDie_acts (d : Nat) (w : CtlWord) (s : State) : Acts .sc quiet s (State.toDie d w s) := by
  unfold State.toDie
  repeat' first
    | fail_if_no_progress extract_lets
    | (with_reducible apply Acts.ite) <;> intro _
    | with_reducible apply Acts.refl
    | with_reducible assumption
    | with_reducible apply sendWord_trans
    | dsimp -zeta only
theorem toDie_trans {d : Nat} {w : CtlWord} {s : State} {s₀ : State} (h₀ : Acts .sc quiet s₀ s) : Acts .sc quiet s₀ (State.toDie d w s) := h₀.trans (toDie_acts ..)
theorem toDie_keep {d : Nat} {w : CtlWord} {s : State} {s₀ : State} (h₀ : Keep quiet s₀ s) : Keep quiet s₀ (State.toDie d w s) := h₀.trans (toDie_acts ..).keep

theorem partialAt_acts (r : SlotRef) (d : Nat) (b : Body) (s : State) : Acts .sc quiet s (State.partialAt r d b s) := by
  unfold State.partialAt
  repeat' first
    | fail_if_no_progress extract_lets
    | (with_reducible apply Acts.ite) <;> intro _
    | with_reducible apply Acts.refl
    | with_reducible assumption
    | with_reducible apply bump_trans
    | with_reducible apply setSlotAt_trans
    | split
    | dsimp -zeta only
    | dsimp +zetaDelta -zeta only
theorem partialAt_trans {r : SlotRef} {d : Nat} {b : Body} {s : State} {s₀ : State} (h₀ : Acts .sc quiet s₀ s) : Acts .sc quiet s₀ (State.partialAt r d b s) := h₀.trans (partialAt_acts ..)
theorem partialAt_keep {r : SlotRef} {d : Nat} {b : Body} {s : State} {s₀ : State} (h₀ : Keep quiet s₀ s) : Keep quiet s₀ (State.partialAt r d b s) := h₀.trans (partialAt_acts ..).keep

theorem slotSend_acts (r : SlotRef) (s : State) : Acts .sc quiet s (State.slotSend r s) := by
  unfold State.slotSend
  repeat' first
    | fail_if_no_progress extract_lets
    | (with_reducible apply Acts.ite) <;> intro _
    | with_reducible apply Acts.refl
    | with_reducible assumption
    | with_reducible apply sendArrive_trans
    | with_reducible apply dieUp_trans
    | with_reducible apply setSlotAt_trans
    | split
    | dsimp -zeta only
    | dsimp +zetaDelta -zeta only
theorem slotSend_trans {r : SlotRef} {s : State} {s₀ : State} (h₀ : Acts .sc quiet s₀ s) : Acts .sc quiet s₀ (State.slotSend r s) := h₀.trans (slotSend_acts ..)
theorem slotSend_keep {r : SlotRef} {s : State} {s₀ : State} (h₀ : Keep quiet s₀ s) : Keep quiet s₀ (State.slotSend r s) := h₀.trans (slotSend_acts ..).keep

theorem completeSlot_acts (r : SlotRef) (missing : Nat) (s : State) : Acts .sc quiet s (State.completeSlot r missing s) := by
  unfold State.completeSlot
  repeat' first
    | fail_if_no_progress extract_lets
    | (with_reducible apply Acts.ite) <;> intro _
    | with_reducible apply Acts.refl
    | with_reducible assumption
    | with_reducible apply freePartials_trans
    | with_reducible apply setSlotAt_trans
    | with_reducible apply relWaiters_trans
    | with_reducible apply partialAt_trans
    | ((with_reducible apply Acts.foldl_trans); intro _ _)
    | split
    | dsimp -zeta only
    | dsimp +zetaDelta -zeta only
theorem completeSlot_trans {r : SlotRef} {missing : Nat} {s : State} {s₀ : State} (h₀ : Acts .sc quiet s₀ s) : Acts .sc quiet s₀ (State.completeSlot r missing s) := h₀.trans (completeSlot_acts ..)
theorem completeSlot_keep {r : SlotRef} {missing : Nat} {s : State} {s₀ : State} (h₀ : Keep quiet s₀ s) : Keep quiet s₀ (State.completeSlot r missing s) := h₀.trans (completeSlot_acts ..).keep

theorem dieCheck_acts (r : SlotRef) (s : State) : Acts .sc quiet s (State.dieCheck r s).2 := by
  unfold State.dieCheck
  repeat' first
    | fail_if_no_progress extract_lets
    | (with_reducible apply Acts.iteS) <;> intro _
    | (with_reducible apply Acts.iteS2) <;> intro _
    | (with_reducible apply Acts.ite) <;> intro _
    | with_reducible apply Acts.refl
    | with_reducible assumption
    | dsimp -zeta only
    | with_reducible apply toDie_trans
    | with_reducible apply slotSend_trans
    | with_reducible apply completeSlot_trans
    | ((with_reducible apply Acts.foldl_trans); intro _ _)
    | split
    | dsimp -zeta only
    | dsimp +zetaDelta -zeta only
theorem dieCheck_trans {r : SlotRef} {s : State} {s₀ : State} (h₀ : Acts .sc quiet s₀ s) : Acts .sc quiet s₀ (State.dieCheck r s).2 := h₀.trans (dieCheck_acts ..)
theorem dieCheck_keep {r : SlotRef} {s : State} {s₀ : State} (h₀ : Keep quiet s₀ s) : Keep quiet s₀ (State.dieCheck r s).2 := h₀.trans (dieCheck_acts ..).keep

theorem regionDone_acts (r : SlotRef) (s : State) : Acts .sc quiet s (State.regionDone r s) := by
  unfold State.regionDone
  repeat' first
    | fail_if_no_progress extract_lets
    | (with_reducible apply Acts.ite) <;> intro _
    | with_reducible apply Acts.refl
    | with_reducible assumption
    | with_reducible apply postEvent_trans
    | (with_reducible apply Acts.snd; with_reducible assumption)
    | split
    | dsimp -zeta only
theorem regionDone_trans {r : SlotRef} {s : State} {s₀ : State} (h₀ : Acts .sc quiet s₀ s) : Acts .sc quiet s₀ (State.regionDone r s) := h₀.trans (regionDone_acts ..)
theorem regionDone_keep {r : SlotRef} {s : State} {s₀ : State} (h₀ : Keep quiet s₀ s) : Keep quiet s₀ (State.regionDone r s) := h₀.trans (regionDone_acts ..).keep

theorem slotCheck_acts (r : SlotRef) (y0 : Nat) (s : State) : Acts .sc quiet s (State.slotCheck r y0 s) := by
  induction y0 generalizing s with
  | zero =>
    unfold State.slotCheck
    repeat' first
    | fail_if_no_progress extract_lets
    | (with_reducible apply Acts.ite) <;> intro _
    | with_reducible apply Acts.refl
    | with_reducible assumption
    | with_reducible apply setSlotAt_trans
    | with_reducible apply partialAt_trans
    | with_reducible apply slotSend_trans
    | with_reducible apply completeSlot_trans
    | with_reducible apply dieCheck_trans
    | with_reducible apply regionDone_trans
    | split
    | dsimp -zeta only
    | dsimp +zetaDelta -zeta only
  | succ k ih =>
    unfold State.slotCheck
    repeat' first
    | fail_if_no_progress extract_lets
    | (with_reducible apply Acts.ite) <;> intro _
    | with_reducible apply Acts.refl
    | with_reducible apply Acts.step ih
    | with_reducible assumption
    | with_reducible apply setSlotAt_trans
    | with_reducible apply partialAt_trans
    | with_reducible apply slotSend_trans
    | with_reducible apply completeSlot_trans
    | with_reducible apply dieCheck_trans
    | with_reducible apply regionDone_trans
    | split
    | dsimp -zeta only
    | dsimp +zetaDelta -zeta only
theorem slotCheck_trans {r : SlotRef} {y0 : Nat} {s : State} {s₀ : State} (h₀ : Acts .sc quiet s₀ s) : Acts .sc quiet s₀ (State.slotCheck r y0 s) := h₀.trans (slotCheck_acts ..)
theorem slotCheck_keep {r : SlotRef} {y0 : Nat} {s : State} {s₀ : State} (h₀ : Keep quiet s₀ s) : Keep quiet s₀ (State.slotCheck r y0 s) := h₀.trans (slotCheck_acts ..).keep

theorem slotTest_acts (r : SlotRef) (s : State) : Acts .sc quiet s (State.slotTest r s) := by
  unfold State.slotTest
  repeat' first
    | fail_if_no_progress extract_lets
    | (with_reducible apply Acts.ite) <;> intro _
    | with_reducible apply Acts.refl
    | with_reducible assumption
    | with_reducible apply slotCheck_trans
    | dsimp -zeta only
theorem slotTest_trans {r : SlotRef} {s : State} {s₀ : State} (h₀ : Acts .sc quiet s₀ s) : Acts .sc quiet s₀ (State.slotTest r s) := h₀.trans (slotTest_acts ..)
theorem slotTest_keep {r : SlotRef} {s : State} {s₀ : State} (h₀ : Keep quiet s₀ s) : Keep quiet s₀ (State.slotTest r s) := h₀.trans (slotTest_acts ..).keep

theorem arriveAt_acts (r : SlotRef) (p kind idx stamp epoch : Nat) (auto : Bool) (s : State) (body : Option Body) : Acts .sc quiet s (State.arriveAt r p kind idx stamp epoch auto s body).2.2 := by
  unfold State.arriveAt
  repeat' first
    | fail_if_no_progress extract_lets
    | (with_reducible apply Acts.iteS) <;> intro _
    | (with_reducible apply Acts.iteS2) <;> intro _
    | (with_reducible apply Acts.ite) <;> intro _
    | with_reducible apply Acts.refl
    | with_reducible assumption
    | dsimp -zeta only
    | with_reducible apply ctxRecord_trans
    | with_reducible apply monArrival_trans
    | with_reducible apply setSlotAt_trans
    | with_reducible apply partialAt_trans
    | with_reducible apply slotTest_trans
    | (with_reducible apply Acts.snd; with_reducible assumption)
    | split
    | dsimp -zeta only
    | dsimp +zetaDelta -zeta only
theorem arriveAt_trans {r : SlotRef} {p kind idx stamp epoch : Nat} {auto : Bool} {s : State} {body : Option Body} {s₀ : State} (h₀ : Acts .sc quiet s₀ s) : Acts .sc quiet s₀ (State.arriveAt r p kind idx stamp epoch auto s body).2.2 := h₀.trans (arriveAt_acts ..)
theorem arriveAt_keep {r : SlotRef} {p kind idx stamp epoch : Nat} {auto : Bool} {s : State} {body : Option Body} {s₀ : State} (h₀ : Keep quiet s₀ s) : Keep quiet s₀ (State.arriveAt r p kind idx stamp epoch auto s body).2.2 := h₀.trans (arriveAt_acts ..).keep

theorem qLast_acts (q h t : Nat) (s : State) : Acts .sc quiet s (State.qLast q h t s) := by
  unfold State.qLast
  repeat' first
    | fail_if_no_progress extract_lets
    | (with_reducible apply Acts.ite) <;> intro _
    | with_reducible apply Acts.refl
    | with_reducible assumption
    | with_reducible apply setQueue_trans
    | dsimp -zeta only
theorem qLast_trans {q h t : Nat} {s : State} {s₀ : State} (h₀ : Acts .sc quiet s₀ s) : Acts .sc quiet s₀ (State.qLast q h t s) := h₀.trans (qLast_acts ..)
theorem qLast_keep {q h t : Nat} {s : State} {s₀ : State} (h₀ : Keep quiet s₀ s) : Keep quiet s₀ (State.qLast q h t s) := h₀.trans (qLast_acts ..).keep

theorem waitMisuse_acts (r : SlotRef) (status : Nat) (s : State) : Acts .sc quiet s (State.waitMisuse r status s) := by
  unfold State.waitMisuse
  repeat' first
    | fail_if_no_progress extract_lets
    | (with_reducible apply Acts.ite) <;> intro _
    | with_reducible apply Acts.refl
    | with_reducible assumption
    | with_reducible apply setSlotAt_trans
    | split
    | dsimp -zeta only
theorem waitMisuse_trans {r : SlotRef} {status : Nat} {s : State} {s₀ : State} (h₀ : Acts .sc quiet s₀ s) : Acts .sc quiet s₀ (State.waitMisuse r status s) := h₀.trans (waitMisuse_acts ..)
theorem waitMisuse_keep {r : SlotRef} {status : Nat} {s : State} {s₀ : State} (h₀ : Keep quiet s₀ s) : Keep quiet s₀ (State.waitMisuse r status s) := h₀.trans (waitMisuse_acts ..).keep

theorem waitAt_acts (r : SlotRef) (q tag w : Nat) (s : State) : Acts .sc quiet s (State.waitAt r q tag w s) := by
  unfold State.waitAt
  repeat' first
    | fail_if_no_progress extract_lets
    | (with_reducible apply Acts.ite) <;> intro _
    | with_reducible apply Acts.refl
    | with_reducible assumption
    | with_reducible apply setSync_trans
    | with_reducible apply qResolve_trans
    | with_reducible apply qMisuse_trans
    | with_reducible apply setSlotAt_trans
    | with_reducible apply waitMisuse_trans
    | (with_reducible apply Acts.snd; with_reducible assumption)
    | split
    | dsimp -zeta only
    | dsimp +zetaDelta -zeta only
theorem waitAt_trans {r : SlotRef} {q tag w : Nat} {s : State} {s₀ : State} (h₀ : Acts .sc quiet s₀ s) : Acts .sc quiet s₀ (State.waitAt r q tag w s) := h₀.trans (waitAt_acts ..)
theorem waitAt_keep {r : SlotRef} {q tag w : Nat} {s : State} {s₀ : State} (h₀ : Keep quiet s₀ s) : Keep quiet s₀ (State.waitAt r q tag w s) := h₀.trans (waitAt_acts ..).keep

theorem answer_acts (local_ : Bool) (q tag status : Nat) (s : State) : Acts .sc quiet s (State.answer local_ q tag status s) := by
  unfold State.answer
  repeat' first
    | fail_if_no_progress extract_lets
    | (with_reducible apply Acts.ite) <;> intro _
    | with_reducible apply Acts.refl
    | with_reducible assumption
    | with_reducible apply setSync_trans
    | with_reducible apply qResolve_trans
    | with_reducible apply qMisuse_trans
    | split
    | dsimp -zeta only
    | dsimp +zetaDelta -zeta only
theorem answer_trans {local_ : Bool} {q tag status : Nat} {s : State} {s₀ : State} (h₀ : Acts .sc quiet s₀ s) : Acts .sc quiet s₀ (State.answer local_ q tag status s) := h₀.trans (answer_acts ..)
theorem answer_keep {local_ : Bool} {q tag status : Nat} {s : State} {s₀ : State} (h₀ : Keep quiet s₀ s) : Keep quiet s₀ (State.answer local_ q tag status s) := h₀.trans (answer_acts ..).keep

theorem barrierOp_acts (r : Option SlotRef) (local_ : Bool) (q tag stamp cmd : Nat) (s : State) : Acts .sc quiet s (State.barrierOp r local_ q tag stamp cmd s) := by
  unfold State.barrierOp
  repeat' first
    | fail_if_no_progress extract_lets
    | (with_reducible apply Acts.ite) <;> intro _
    | with_reducible apply Acts.refl
    | with_reducible assumption
    | with_reducible apply arriveAt_trans
    | with_reducible apply qLast_trans
    | with_reducible apply waitAt_trans
    | with_reducible apply answer_trans
    | (with_reducible apply Acts.snd; with_reducible assumption)
    | split
    | dsimp -zeta only
    | dsimp +zetaDelta -zeta only
theorem barrierOp_trans {r : Option SlotRef} {local_ : Bool} {q tag stamp cmd : Nat} {s : State} {s₀ : State} (h₀ : Acts .sc quiet s₀ s) : Acts .sc quiet s₀ (State.barrierOp r local_ q tag stamp cmd s) := h₀.trans (barrierOp_acts ..)
theorem barrierOp_keep {r : Option SlotRef} {local_ : Bool} {q tag stamp cmd : Nat} {s : State} {s₀ : State} (h₀ : Keep quiet s₀ s) : Keep quiet s₀ (State.barrierOp r local_ q tag stamp cmd s) := h₀.trans (barrierOp_acts ..).keep

theorem freeSlot_acts (r : SlotRef) (s : State) : Acts .sc quiet s (State.freeSlot r s) := by
  unfold State.freeSlot
  repeat' first
    | fail_if_no_progress extract_lets
    | (with_reducible apply Acts.ite) <;> intro _
    | with_reducible apply Acts.refl
    | with_reducible assumption
    | with_reducible apply put_trans
    | with_reducible apply putFlag_trans
    | with_reducible apply setStn_trans
    | with_reducible apply setSync_trans
    | with_reducible apply setSlotAt_trans
    | (with_reducible apply Acts.snd; with_reducible assumption)
    | split
    | dsimp -zeta only
    | dsimp +zetaDelta -zeta only
theorem freeSlot_trans {r : SlotRef} {s : State} {s₀ : State} (h₀ : Acts .sc quiet s₀ s) : Acts .sc quiet s₀ (State.freeSlot r s) := h₀.trans (freeSlot_acts ..)
theorem freeSlot_keep {r : SlotRef} {s : State} {s₀ : State} (h₀ : Keep quiet s₀ s) : Keep quiet s₀ (State.freeSlot r s) := h₀.trans (freeSlot_acts ..).keep

theorem createSlot_acts (a : CreateArgs) (s : State) : Acts .sc quiet s (State.createSlot a s).2.2.2 := by
  unfold State.createSlot
  repeat' first
    | fail_if_no_progress extract_lets
    | (with_reducible apply Acts.iteS) <;> intro _
    | (with_reducible apply Acts.iteS2) <;> intro _
    | (with_reducible apply Acts.ite) <;> intro _
    | with_reducible apply Acts.refl
    | with_reducible assumption
    | dsimp -zeta only
    | with_reducible apply put_trans
    | with_reducible apply setStn_trans
    | with_reducible apply setSync_trans
    | with_reducible apply setSlotAt_trans
    | (with_reducible apply Acts.snd; with_reducible assumption)
    | split
    | dsimp -zeta only
    | dsimp +zetaDelta -zeta only
theorem createSlot_trans {a : CreateArgs} {s : State} {s₀ : State} (h₀ : Acts .sc quiet s₀ s) : Acts .sc quiet s₀ (State.createSlot a s).2.2.2 := h₀.trans (createSlot_acts ..)
theorem createSlot_keep {a : CreateArgs} {s : State} {s₀ : State} (h₀ : Keep quiet s₀ s) : Keep quiet s₀ (State.createSlot a s).2.2.2 := h₀.trans (createSlot_acts ..).keep

theorem withdrawSlot_acts (r : SlotRef) (s : State) : Acts .sc quiet s (State.withdrawSlot r s) := by
  unfold State.withdrawSlot
  repeat' first
    | fail_if_no_progress extract_lets
    | (with_reducible apply Acts.ite) <;> intro _
    | with_reducible apply Acts.refl
    | with_reducible assumption
    | with_reducible apply dieUp_trans
    | with_reducible apply toDie_trans
    | ((with_reducible apply Acts.foldl_trans); intro _ _)
    | split
    | dsimp -zeta only
    | dsimp +zetaDelta -zeta only
theorem withdrawSlot_trans {r : SlotRef} {s : State} {s₀ : State} (h₀ : Acts .sc quiet s₀ s) : Acts .sc quiet s₀ (State.withdrawSlot r s) := h₀.trans (withdrawSlot_acts ..)
theorem withdrawSlot_keep {r : SlotRef} {s : State} {s₀ : State} (h₀ : Keep quiet s₀ s) : Keep quiet s₀ (State.withdrawSlot r s) := h₀.trans (withdrawSlot_acts ..).keep

theorem endDescs_acts (r : SlotRef) (rstatus rel : Nat) (f : Desc → Bool) (s : State) : Acts .sc false s (State.endDescs r rstatus rel f s) := by
  unfold State.endDescs
  repeat' first
    | fail_if_no_progress extract_lets
    | (with_reducible apply Acts.ite) <;> intro _
    | with_reducible apply Acts.refl
    | with_reducible assumption
    | with_reducible apply qResolve_trans
    | with_reducible apply setPay_trans
    | with_reducible apply endDesc_trans
    | ((with_reducible apply Acts.foldl_trans); intro _ _)
    | exact nofun
    | dsimp -zeta only
    | dsimp +zetaDelta -zeta only
theorem endDescs_trans {r : SlotRef} {rstatus rel : Nat} {f : Desc → Bool} {s : State} {s₀ : State} (h₀ : Acts .sc false s₀ s) : Acts .sc false s₀ (State.endDescs r rstatus rel f s) := h₀.trans (endDescs_acts ..)
theorem endDescs_keep {r : SlotRef} {rstatus rel : Nat} {f : Desc → Bool} {s : State} {s₀ : State} (h₀ : Keep false s₀ s) : Keep false s₀ (State.endDescs r rstatus rel f s) := h₀.trans (endDescs_acts ..).keep

theorem barrierFree_acts (r : SlotRef) (s : State) : Acts .sc false s (State.barrierFree r s) := by
  unfold State.barrierFree
  repeat' first
    | fail_if_no_progress extract_lets
    | (with_reducible apply Acts.ite) <;> intro _
    | with_reducible apply Acts.refl
    | with_reducible assumption
    | with_reducible apply relWaiters_trans
    | with_reducible apply freeSlot_trans
    | with_reducible apply withdrawSlot_trans
    | with_reducible apply endDescs_trans
    | exact nofun
    | dsimp -zeta only
theorem barrierFree_trans {r : SlotRef} {s : State} {s₀ : State} (h₀ : Acts .sc false s₀ s) : Acts .sc false s₀ (State.barrierFree r s) := h₀.trans (barrierFree_acts ..)
theorem barrierFree_keep {r : SlotRef} {s : State} {s₀ : State} (h₀ : Keep false s₀ s) : Keep false s₀ (State.barrierFree r s) := h₀.trans (barrierFree_acts ..).keep

theorem slotStale_acts (r : SlotRef) (s : State) : Acts .sc false s (State.slotStale r s) := by
  unfold State.slotStale
  repeat' first
    | fail_if_no_progress extract_lets
    | (with_reducible apply Acts.ite) <;> intro _
    | with_reducible apply Acts.refl
    | with_reducible assumption
    | with_reducible apply setSlotAt_trans
    | with_reducible apply relWaiters_trans
    | with_reducible apply endDescs_trans
    | exact nofun
    | dsimp -zeta only
theorem slotStale_trans {r : SlotRef} {s : State} {s₀ : State} (h₀ : Acts .sc false s₀ s) : Acts .sc false s₀ (State.slotStale r s) := h₀.trans (slotStale_acts ..)
theorem slotStale_keep {r : SlotRef} {s : State} {s₀ : State} (h₀ : Keep false s₀ s) : Keep false s₀ (State.slotStale r s) := h₀.trans (slotStale_acts ..).keep

theorem staleCount_acts (s : State) : Acts .sc quiet s (State.staleCount s) := by
  unfold State.staleCount
  repeat' first
    | fail_if_no_progress extract_lets
    | (with_reducible apply Acts.ite) <;> intro _
    | with_reducible apply Acts.refl
    | with_reducible assumption
    | with_reducible apply bump_trans
    | dsimp -zeta only
theorem staleCount_trans {s : State} {s₀ : State} (h₀ : Acts .sc quiet s₀ s) : Acts .sc quiet s₀ (State.staleCount s) := h₀.trans (staleCount_acts ..)
theorem staleCount_keep {s : State} {s₀ : State} (h₀ : Keep quiet s₀ s) : Keep quiet s₀ (State.staleCount s) := h₀.trans (staleCount_acts ..).keep

theorem completeByDone_acts (r : SlotRef) (s : State) : Acts .sc quiet s (State.completeByDone r s) := by
  unfold State.completeByDone
  repeat' first
    | fail_if_no_progress extract_lets
    | (with_reducible apply Acts.ite) <;> intro _
    | with_reducible apply Acts.refl
    | with_reducible assumption
    | with_reducible apply completeSlot_trans
    | dsimp -zeta only
    | dsimp +zetaDelta -zeta only
theorem completeByDone_trans {r : SlotRef} {s : State} {s₀ : State} (h₀ : Acts .sc quiet s₀ s) : Acts .sc quiet s₀ (State.completeByDone r s) := h₀.trans (completeByDone_acts ..)
theorem completeByDone_keep {r : SlotRef} {s : State} {s₀ : State} (h₀ : Keep quiet s₀ s) : Keep quiet s₀ (State.completeByDone r s) := h₀.trans (completeByDone_acts ..).keep

theorem slotDone_acts (r : SlotRef) (epoch contrib hash flags : Nat) (s : State) : Acts .sc quiet s (State.slotDone r epoch contrib hash flags s) := by
  unfold State.slotDone
  repeat' first
    | fail_if_no_progress extract_lets
    | (with_reducible apply Acts.ite) <;> intro _
    | with_reducible apply Acts.refl
    | with_reducible assumption
    | with_reducible apply bump_trans
    | with_reducible apply ctxRecord_trans
    | with_reducible apply setSlotAt_trans
    | with_reducible apply slotTest_trans
    | with_reducible apply completeByDone_trans
    | split
    | dsimp -zeta only
    | dsimp +zetaDelta -zeta only
theorem slotDone_trans {r : SlotRef} {epoch contrib hash flags : Nat} {s : State} {s₀ : State} (h₀ : Acts .sc quiet s₀ s) : Acts .sc quiet s₀ (State.slotDone r epoch contrib hash flags s) := h₀.trans (slotDone_acts ..)
theorem slotDone_keep {r : SlotRef} {epoch contrib hash flags : Nat} {s : State} {s₀ : State} (h₀ : Keep quiet s₀ s) : Keep quiet s₀ (State.slotDone r epoch contrib hash flags s) := h₀.trans (slotDone_acts ..).keep

theorem doneOrHold_acts (r : SlotRef) (epoch contrib hash flags : Nat) (s : State) : Acts .sc false s (State.doneOrHold r epoch contrib hash flags s) := by
  unfold State.doneOrHold
  repeat' first
    | fail_if_no_progress extract_lets
    | (with_reducible apply Acts.ite) <;> intro _
    | with_reducible apply Acts.refl
    | with_reducible assumption
    | with_reducible apply setPay_trans
    | with_reducible apply endDesc_trans
    | with_reducible apply countLost_trans
    | with_reducible apply slotDone_trans
    | ((with_reducible apply Acts.foldl_trans); intro _ _)
    | split
    | exact nofun
    | dsimp -zeta only
    | dsimp +zetaDelta -zeta only
theorem doneOrHold_trans {r : SlotRef} {epoch contrib hash flags : Nat} {s : State} {s₀ : State} (h₀ : Acts .sc false s₀ s) : Acts .sc false s₀ (State.doneOrHold r epoch contrib hash flags s) := h₀.trans (doneOrHold_acts ..)
theorem doneOrHold_keep {r : SlotRef} {epoch contrib hash flags : Nat} {s : State} {s₀ : State} (h₀ : Keep false s₀ s) : Keep false s₀ (State.doneOrHold r epoch contrib hash flags s) := h₀.trans (doneOrHold_acts ..).keep

theorem applyHeld_acts (r : SlotRef) (y0 : Nat) (s : State) : Acts .sc quiet s (State.applyHeld r y0 s) := by
  induction y0 generalizing s with
  | zero =>
    unfold State.applyHeld
    repeat' first
    | fail_if_no_progress extract_lets
    | (with_reducible apply Acts.ite) <;> intro _
    | with_reducible apply Acts.refl
    | with_reducible assumption
    | with_reducible apply setPay_trans
    | with_reducible apply slotDone_trans
    | (with_reducible apply Acts.snd; with_reducible assumption)
    | split
    | dsimp -zeta only
    | dsimp +zetaDelta -zeta only
  | succ k ih =>
    unfold State.applyHeld
    repeat' first
    | fail_if_no_progress extract_lets
    | (with_reducible apply Acts.ite) <;> intro _
    | with_reducible apply Acts.refl
    | with_reducible apply Acts.step ih
    | with_reducible assumption
    | with_reducible apply setPay_trans
    | with_reducible apply slotDone_trans
    | (with_reducible apply Acts.snd; with_reducible assumption)
    | split
    | dsimp -zeta only
    | dsimp +zetaDelta -zeta only
theorem applyHeld_trans {r : SlotRef} {y0 : Nat} {s : State} {s₀ : State} (h₀ : Acts .sc quiet s₀ s) : Acts .sc quiet s₀ (State.applyHeld r y0 s) := h₀.trans (applyHeld_acts ..)
theorem applyHeld_keep {r : SlotRef} {y0 : Nat} {s : State} {s₀ : State} (h₀ : Keep quiet s₀ s) : Keep quiet s₀ (State.applyHeld r y0 s) := h₀.trans (applyHeld_acts ..).keep

theorem doneHeld_acts (r : SlotRef) (s : State) : Acts .sc quiet s (State.doneHeld r s) := by
  unfold State.doneHeld
  repeat' first
    | fail_if_no_progress extract_lets
    | (with_reducible apply Acts.ite) <;> intro _
    | with_reducible apply Acts.refl
    | with_reducible assumption
    | with_reducible apply applyHeld_trans
    | dsimp -zeta only
theorem doneHeld_trans {r : SlotRef} {s : State} {s₀ : State} (h₀ : Acts .sc quiet s₀ s) : Acts .sc quiet s₀ (State.doneHeld r s) := h₀.trans (doneHeld_acts ..)
theorem doneHeld_keep {r : SlotRef} {s : State} {s₀ : State} (h₀ : Keep quiet s₀ s) : Keep quiet s₀ (State.doneHeld r s) := h₀.trans (doneHeld_acts ..).keep

end Sys2Proof.Machine
end

