-- ==== Sys2Proof/Laws/ActsQueueCmds.lean ====
section
/-! SUPPORT. One lemma an operation: what it keeps (Acts, Keep). -/

namespace Sys2Proof.Machine

open Sys2Proof

set_option linter.unusedTactic false
set_option linter.unreachableTactic false
set_option linter.unusedVariables false

variable {quiet : Bool}

theorem execQueueCmdAccept_acts (q cmd : Nat) (s : State) : ActsO .sc quiet s (execQueueCmdAccept q cmd s) := by
  unfold execQueueCmdAccept
  repeat' first
    | fail_if_no_progress extract_lets
    | (with_reducible apply ActsO.ite) <;> intro _
    | with_reducible apply ActsO.next
    | (with_reducible apply Acts.ite) <;> intro _
    | with_reducible apply Acts.refl
    | with_reducible assumption
    | with_reducible apply setQueue_trans
    | split
    | dsimp -zeta only
    | dsimp +zetaDelta -zeta only

theorem strayBits_acts (q : Nat) (e : QEntry) (s : State) : Acts .sc quiet s (State.strayBits q e s) := by
  unfold State.strayBits
  repeat' first
    | fail_if_no_progress extract_lets
    | (with_reducible apply Acts.ite) <;> intro _
    | with_reducible apply Acts.refl
    | with_reducible assumption
    | with_reducible apply bump_trans
    | with_reducible apply rsvd_trans
    | with_reducible apply setQueue_trans
    | split
    | dsimp -zeta only
    | dsimp +zetaDelta -zeta only
theorem strayBits_trans {q : Nat} {e : QEntry} {s : State} {s₀ : State} (h₀ : Acts .sc quiet s₀ s) : Acts .sc quiet s₀ (State.strayBits q e s) := h₀.trans (strayBits_acts ..)
theorem strayBits_keep {q : Nat} {e : QEntry} {s : State} {s₀ : State} (h₀ : Keep quiet s₀ s) : Keep quiet s₀ (State.strayBits q e s) := h₀.trans (strayBits_acts ..).keep

theorem atHead_trans {q : Nat} {edges : List Nat} {ops : Nat → Bool} {run : QEntry → State → State} {s₀ s : State}
    (h : ∀ e t, Acts .sc quiet t (run e t)) (k : Acts .sc quiet s₀ s) : Acts .sc quiet s₀ (s.atHead q edges ops run) := by
  refine k.trans ?_
  unfold State.atHead
  split
  · exact Acts.refl ..
  · split
    · exact Acts.refl ..
    · split
      · exact Acts.refl ..
      · exact (strayBits_trans (stnEdges_acts ..)).trans (h ..)

theorem atHead_keep {q : Nat} {edges : List Nat} {ops : Nat → Bool} {run : QEntry → State → State} {s₀ s : State}
    (h : ∀ e t, Keep quiet t (run e t)) (k : Keep quiet s₀ s) : Keep quiet s₀ (s.atHead q edges ops run) := by
  refine k.trans ?_
  unfold State.atHead
  split
  · exact Keep.refl ..
  · split
    · exact Keep.refl ..
    · split
      · exact Keep.refl ..
      · exact (strayBits_trans (stnEdges_acts ..)).keep.trans (h ..)

theorem stallHead_acts (q tag : Nat) (target : Option Nat) (s : State) : Acts .sc quiet s (State.stallHead q tag target s) := by
  unfold State.stallHead
  repeat' first
    | fail_if_no_progress extract_lets
    | (with_reducible apply Acts.ite) <;> intro _
    | with_reducible apply Acts.refl
    | with_reducible assumption
    | with_reducible apply setQueue_trans
    | dsimp -zeta only
theorem stallHead_trans {q tag : Nat} {target : Option Nat} {s : State} {s₀ : State} (h₀ : Acts .sc quiet s₀ s) : Acts .sc quiet s₀ (State.stallHead q tag target s) := h₀.trans (stallHead_acts ..)
theorem stallHead_keep {q tag : Nat} {target : Option Nat} {s : State} {s₀ : State} (h₀ : Keep quiet s₀ s) : Keep quiet s₀ (State.stallHead q tag target s) := h₀.trans (stallHead_acts ..).keep

theorem passHead_acts (q tag : Nat) (s : State) : Acts .sc quiet s (State.passHead q tag s) := by
  unfold State.passHead
  repeat' first
    | fail_if_no_progress extract_lets
    | (with_reducible apply Acts.ite) <;> intro _
    | with_reducible apply Acts.refl
    | with_reducible assumption
    | with_reducible apply setQueue_trans
    | dsimp -zeta only
theorem passHead_trans {q tag : Nat} {s : State} {s₀ : State} (h₀ : Acts .sc quiet s₀ s) : Acts .sc quiet s₀ (State.passHead q tag s) := h₀.trans (passHead_acts ..)
theorem passHead_keep {q tag : Nat} {s : State} {s₀ : State} (h₀ : Keep quiet s₀ s) : Keep quiet s₀ (State.passHead q tag s) := h₀.trans (passHead_acts ..).keep

theorem fenceTest_acts (q tag : Nat) (s : State) : Acts .sc quiet s (State.fenceTest q tag s) := by
  unfold State.fenceTest
  repeat' first
    | fail_if_no_progress extract_lets
    | (with_reducible apply Acts.ite) <;> intro _
    | with_reducible apply Acts.refl
    | with_reducible assumption
    | with_reducible apply put_trans
    | with_reducible apply bump_trans
    | with_reducible apply setQueue_trans
    | split
    | dsimp -zeta only
    | dsimp +zetaDelta -zeta only
theorem fenceTest_trans {q tag : Nat} {s : State} {s₀ : State} (h₀ : Acts .sc quiet s₀ s) : Acts .sc quiet s₀ (State.fenceTest q tag s) := h₀.trans (fenceTest_acts ..)
theorem fenceTest_keep {q tag : Nat} {s : State} {s₀ : State} (h₀ : Keep quiet s₀ s) : Keep quiet s₀ (State.fenceTest q tag s) := h₀.trans (fenceTest_acts ..).keep

theorem sendEvent_acts (q tag cmd : Nat) (s : State) : Acts .sc quiet s (State.sendEvent q tag cmd s) := by
  unfold State.sendEvent
  repeat' first
    | fail_if_no_progress extract_lets
    | (with_reducible apply Acts.ite) <;> intro _
    | with_reducible apply Acts.refl
    | with_reducible assumption
    | with_reducible apply postEvent_trans
    | dsimp -zeta only
theorem sendEvent_trans {q tag cmd : Nat} {s : State} {s₀ : State} (h₀ : Acts .sc quiet s₀ s) : Acts .sc quiet s₀ (State.sendEvent q tag cmd s) := h₀.trans (sendEvent_acts ..)
theorem sendEvent_keep {q tag cmd : Nat} {s : State} {s₀ : State} (h₀ : Keep quiet s₀ s) : Keep quiet s₀ (State.sendEvent q tag cmd s) := h₀.trans (sendEvent_acts ..).keep

theorem barrierHead_acts (q : Nat) (edges : List Nat) (op : Nat) (s : State) : Acts .sc quiet s (State.barrierHead q edges op s) := by
  unfold State.barrierHead
  repeat' first
    | fail_if_no_progress extract_lets
    | (with_reducible apply Acts.ite) <;> intro _
    | with_reducible apply Acts.refl
    | with_reducible assumption
    | with_reducible apply barrierOp_trans
    | with_reducible apply atHead_trans
    | intro _
    | with_reducible apply stallHead_trans
    | with_reducible apply passHead_trans
    | with_reducible apply fenceTest_trans
    | with_reducible apply sendEvent_trans
    | (with_reducible apply Acts.snd; with_reducible assumption)
    | split
    | dsimp -zeta only
    | dsimp +zetaDelta -zeta only
theorem barrierHead_trans {q : Nat} {edges : List Nat} {op : Nat} {s : State} {s₀ : State} (h₀ : Acts .sc quiet s₀ s) : Acts .sc quiet s₀ (State.barrierHead q edges op s) := h₀.trans (barrierHead_acts ..)
theorem barrierHead_keep {q : Nat} {edges : List Nat} {op : Nat} {s : State} {s₀ : State} (h₀ : Keep quiet s₀ s) : Keep quiet s₀ (State.barrierHead q edges op s) := h₀.trans (barrierHead_acts ..).keep

theorem execNop_acts (q : Nat) (edges : List Nat) (s : State) : ActsO .sc quiet s (execNop q edges s) := by
  unfold execNop
  repeat' first
    | fail_if_no_progress extract_lets
    | (with_reducible apply ActsO.ite) <;> intro _
    | with_reducible apply ActsO.next
    | (with_reducible apply Acts.ite) <;> intro _
    | with_reducible apply Acts.refl
    | with_reducible assumption
    | with_reducible apply qResolve_trans
    | with_reducible apply atHead_trans
    | intro _
    | dsimp -zeta only

theorem execArrive_acts (q : Nat) (edges : List Nat) (s : State) : ActsO .sc quiet s (execArrive q edges s) := by
  unfold execArrive
  repeat' first
    | fail_if_no_progress extract_lets
    | (with_reducible apply ActsO.ite) <;> intro _
    | with_reducible apply ActsO.next
    | (with_reducible apply Acts.ite) <;> intro _
    | with_reducible apply Acts.refl
    | with_reducible assumption
    | with_reducible apply barrierHead_trans
    | dsimp -zeta only

theorem execWait_acts (q : Nat) (edges : List Nat) (s : State) : ActsO .sc quiet s (execWait q edges s) := by
  unfold execWait
  repeat' first
    | fail_if_no_progress extract_lets
    | (with_reducible apply ActsO.ite) <;> intro _
    | with_reducible apply ActsO.next
    | (with_reducible apply Acts.ite) <;> intro _
    | with_reducible apply Acts.refl
    | with_reducible assumption
    | with_reducible apply barrierHead_trans
    | dsimp -zeta only

theorem execArriveWait_acts (q : Nat) (edges : List Nat) (s : State) : ActsO .sc quiet s (execArriveWait q edges s) := by
  unfold execArriveWait
  repeat' first
    | fail_if_no_progress extract_lets
    | (with_reducible apply ActsO.ite) <;> intro _
    | with_reducible apply ActsO.next
    | (with_reducible apply Acts.ite) <;> intro _
    | with_reducible apply Acts.refl
    | with_reducible assumption
    | with_reducible apply barrierHead_trans
    | dsimp -zeta only

theorem execFence_acts (q : Nat) (edges : List Nat) (s : State) : ActsO .sc quiet s (execFence q edges s) := by
  unfold execFence
  repeat' first
    | fail_if_no_progress extract_lets
    | (with_reducible apply ActsO.ite) <;> intro _
    | with_reducible apply ActsO.next
    | (with_reducible apply Acts.ite) <;> intro _
    | with_reducible apply Acts.refl
    | with_reducible assumption
    | with_reducible apply setQueue_trans
    | with_reducible apply atHead_trans
    | intro _
    | with_reducible apply stallHead_trans
    | dsimp -zeta only
    | dsimp +zetaDelta -zeta only

theorem execDrainAck_acts (q : Nat) (s : State) : ActsO .sc quiet s (execDrainAck q s) := by
  unfold execDrainAck
  repeat' first
    | fail_if_no_progress extract_lets
    | (with_reducible apply ActsO.ite) <;> intro _
    | with_reducible apply ActsO.next
    | (with_reducible apply Acts.ite) <;> intro _
    | with_reducible apply Acts.refl
    | with_reducible assumption
    | with_reducible apply setQueue_trans
    | with_reducible apply qResolve_trans
    | (with_reducible apply Acts.snd; with_reducible assumption)
    | split
    | dsimp -zeta only
    | dsimp +zetaDelta -zeta only

theorem execSignalHost_acts (q : Nat) (edges : List Nat) (s : State) : ActsO .sc quiet s (execSignalHost q edges s) := by
  unfold execSignalHost
  repeat' first
    | fail_if_no_progress extract_lets
    | (with_reducible apply ActsO.ite) <;> intro _
    | with_reducible apply ActsO.next
    | (with_reducible apply Acts.ite) <;> intro _
    | with_reducible apply Acts.refl
    | with_reducible assumption
    | with_reducible apply put64_trans
    | with_reducible apply qResolve_trans
    | with_reducible apply atHead_trans
    | intro _
    | dsimp -zeta only
    | dsimp +zetaDelta -zeta only

theorem execWaitHost_acts (q : Nat) (edges : List Nat) (s : State) : ActsO .sc quiet s (execWaitHost q edges s) := by
  unfold execWaitHost
  repeat' first
    | fail_if_no_progress extract_lets
    | (with_reducible apply ActsO.ite) <;> intro _
    | with_reducible apply ActsO.next
    | (with_reducible apply Acts.ite) <;> intro _
    | with_reducible apply Acts.refl
    | with_reducible assumption
    | with_reducible apply put64_trans
    | with_reducible apply qResolve_trans
    | with_reducible apply atHead_trans
    | intro _
    | with_reducible apply stallHead_trans
    | split
    | dsimp -zeta only
    | dsimp +zetaDelta -zeta only

theorem setHostFlag_acts (c n : Nat) (s : State) : Acts .sc quiet s (State.setHostFlag c n s) := by
  unfold State.setHostFlag
  repeat' first
    | fail_if_no_progress extract_lets
    | (with_reducible apply Acts.ite) <;> intro _
    | with_reducible apply Acts.refl
    | with_reducible assumption
    | with_reducible apply put64_trans
    | with_reducible apply qResolve_trans
    | (with_reducible apply Acts.snd; with_reducible assumption)
    | split
    | dsimp -zeta only
    | dsimp +zetaDelta -zeta only
theorem setHostFlag_trans {c n : Nat} {s : State} {s₀ : State} (h₀ : Acts .sc quiet s₀ s) : Acts .sc quiet s₀ (State.setHostFlag c n s) := h₀.trans (setHostFlag_acts ..)
theorem setHostFlag_keep {c n : Nat} {s : State} {s₀ : State} (h₀ : Keep quiet s₀ s) : Keep quiet s₀ (State.setHostFlag c n s) := h₀.trans (setHostFlag_acts ..).keep

theorem execWaitBell_acts (q : Nat) (edges : List Nat) (s : State) : ActsO .sc quiet s (execWaitBell q edges s) := by
  unfold execWaitBell
  repeat' first
    | fail_if_no_progress extract_lets
    | (with_reducible apply ActsO.ite) <;> intro _
    | with_reducible apply ActsO.next
    | (with_reducible apply Acts.ite) <;> intro _
    | with_reducible apply Acts.refl
    | with_reducible assumption
    | with_reducible apply qResolve_trans
    | with_reducible apply atHead_trans
    | intro _
    | with_reducible apply stallHead_trans
    | (with_reducible apply Acts.snd; with_reducible assumption)
    | split
    | dsimp -zeta only

theorem launchHead_acts (q : Nat) (edges : List Nat) (op src : Nat) (s : State) : Acts .sc quiet s (State.launchHead q edges op src s) := by
  unfold State.launchHead
  repeat' first
    | fail_if_no_progress extract_lets
    | (with_reducible apply Acts.ite) <;> intro _
    | with_reducible apply Acts.refl
    | with_reducible assumption
    | with_reducible apply stnEdges_trans
    | with_reducible apply launch_trans
    | with_reducible apply qResolve_trans
    | (with_reducible apply Acts.snd; with_reducible assumption)
    | split
    | dsimp -zeta only
    | dsimp +zetaDelta -zeta only
theorem launchHead_trans {q : Nat} {edges : List Nat} {op src : Nat} {s : State} {s₀ : State} (h₀ : Acts .sc quiet s₀ s) : Acts .sc quiet s₀ (State.launchHead q edges op src s) := h₀.trans (launchHead_acts ..)
theorem launchHead_keep {q : Nat} {edges : List Nat} {op src : Nat} {s : State} {s₀ : State} (h₀ : Keep quiet s₀ s) : Keep quiet s₀ (State.launchHead q edges op src s) := h₀.trans (launchHead_acts ..).keep

theorem execWaitBellRelease_acts (q : Nat) (edges : List Nat) (s : State) : ActsO .sc quiet s (execWaitBellRelease q edges s) := by
  unfold execWaitBellRelease
  repeat' first
    | fail_if_no_progress extract_lets
    | (with_reducible apply ActsO.ite) <;> intro _
    | with_reducible apply ActsO.next
    | (with_reducible apply Acts.ite) <;> intro _
    | with_reducible apply Acts.refl
    | with_reducible assumption
    | with_reducible apply launchHead_trans
    | dsimp -zeta only

theorem execWaitTime_acts (q : Nat) (edges : List Nat) (s : State) : ActsO .sc quiet s (execWaitTime q edges s) := by
  unfold execWaitTime
  repeat' first
    | fail_if_no_progress extract_lets
    | (with_reducible apply ActsO.ite) <;> intro _
    | with_reducible apply ActsO.next
    | (with_reducible apply Acts.ite) <;> intro _
    | with_reducible apply Acts.refl
    | with_reducible assumption
    | with_reducible apply atHead_trans
    | intro _
    | with_reducible apply stallHead_trans
    | dsimp -zeta only

theorem execWaitTimeRelease_acts (q : Nat) (edges : List Nat) (s : State) : ActsO .sc quiet s (execWaitTimeRelease q edges s) := by
  unfold execWaitTimeRelease
  repeat' first
    | fail_if_no_progress extract_lets
    | (with_reducible apply ActsO.ite) <;> intro _
    | with_reducible apply ActsO.next
    | (with_reducible apply Acts.ite) <;> intro _
    | with_reducible apply Acts.refl
    | with_reducible assumption
    | with_reducible apply launchHead_trans
    | dsimp -zeta only

theorem execStamp_acts (q : Nat) (edges : List Nat) (s : State) : ActsO .sc false s (execStamp q edges s) := by
  unfold execStamp
  repeat' first
    | fail_if_no_progress extract_lets
    | (with_reducible apply ActsO.ite) <;> intro _
    | with_reducible apply ActsO.next
    | (with_reducible apply Acts.ite) <;> intro _
    | with_reducible apply Acts.refl
    | with_reducible assumption
    | with_reducible apply dmaWrite_trans
    | with_reducible apply qResolve_trans
    | with_reducible apply atHead_trans
    | intro _
    | exact fun h => absurd h Bool.false_ne_true
    | dsimp -zeta only
    | dsimp +zetaDelta -zeta only

theorem execReservedOpcode_acts (q : Nat) (edges : List Nat) (s : State) : ActsO .sc quiet s (execReservedOpcode q edges s) := by
  unfold execReservedOpcode
  repeat' first
    | fail_if_no_progress extract_lets
    | (with_reducible apply ActsO.ite) <;> intro _
    | with_reducible apply ActsO.next
    | (with_reducible apply Acts.ite) <;> intro _
    | with_reducible apply Acts.refl
    | with_reducible assumption
    | with_reducible apply qResolve_trans
    | with_reducible apply atHead_trans
    | intro _
    | dsimp -zeta only

theorem commitStamp_acts (stamp : Nat) (s : State) : Acts .sc quiet s (State.commitStamp stamp s).2 := by
  unfold State.commitStamp
  repeat' first
    | fail_if_no_progress extract_lets
    | (with_reducible apply Acts.iteS) <;> intro _
    | (with_reducible apply Acts.iteS2) <;> intro _
    | (with_reducible apply Acts.ite) <;> intro _
    | with_reducible apply Acts.refl
    | with_reducible assumption
    | dsimp -zeta only
    | with_reducible apply setSync_trans
    | (with_reducible apply Acts.snd; with_reducible assumption)
    | split
    | dsimp -zeta only
    | dsimp +zetaDelta -zeta only
theorem commitStamp_trans {stamp : Nat} {s : State} {s₀ : State} (h₀ : Acts .sc quiet s₀ s) : Acts .sc quiet s₀ (State.commitStamp stamp s).2 := h₀.trans (commitStamp_acts ..)
theorem commitStamp_keep {stamp : Nat} {s : State} {s₀ : State} (h₀ : Keep quiet s₀ s) : Keep quiet s₀ (State.commitStamp stamp s).2 := h₀.trans (commitStamp_acts ..).keep

theorem commitEvent_acts (e : HubEv) (s : State) : Acts .sc quiet s (State.commitEvent e s) := by
  unfold State.commitEvent
  repeat' first
    | fail_if_no_progress extract_lets
    | (with_reducible apply Acts.ite) <;> intro _
    | with_reducible apply Acts.refl
    | with_reducible assumption
    | with_reducible apply dieTake_trans
    | with_reducible apply record_trans
    | with_reducible apply setStn_trans
    | with_reducible apply setSync_trans
    | with_reducible apply settle_trans
    | with_reducible apply armLostAtHub_trans
    | with_reducible apply regionDone_trans
    | with_reducible apply barrierOp_trans
    | with_reducible apply staleCount_trans
    | with_reducible apply commitStamp_trans
    | (with_reducible apply Acts.snd; with_reducible assumption)
    | split
    | dsimp -zeta only
    | dsimp +zetaDelta -zeta only
theorem commitEvent_trans {e : HubEv} {s : State} {s₀ : State} (h₀ : Acts .sc quiet s₀ s) : Acts .sc quiet s₀ (State.commitEvent e s) := h₀.trans (commitEvent_acts ..)
theorem commitEvent_keep {e : HubEv} {s : State} {s₀ : State} (h₀ : Keep quiet s₀ s) : Keep quiet s₀ (State.commitEvent e s) := h₀.trans (commitEvent_acts ..).keep

theorem execStationEventCommit_acts (delayed : List Nat) (s : State) : KeepO quiet s (execStationEventCommit delayed s) := by
  unfold execStationEventCommit
  repeat' first
    | fail_if_no_progress extract_lets
    | (with_reducible apply KeepO.ite) <;> intro _
    | with_reducible apply KeepO.next
    | (with_reducible apply Keep.ite) <;> intro _
    | with_reducible apply Keep.refl
    | with_reducible assumption
    | with_reducible apply awaitHt_keep
    | with_reducible apply commitEvent_keep
    | (with_reducible apply Keep.snd; with_reducible assumption)
    | split
    | dsimp -zeta only

theorem commitBefore_acts (stamp : Nat) (y0 : Nat) (s : State) : Acts .sc quiet s (State.commitBefore stamp y0 s) := by
  induction y0 generalizing s with
  | zero =>
    unfold State.commitBefore
    repeat' first
    | fail_if_no_progress extract_lets
    | (with_reducible apply Acts.ite) <;> intro _
    | with_reducible apply Acts.refl
    | with_reducible assumption
    | with_reducible apply commitEvent_trans
    | ((with_reducible apply Acts.foldl_trans); intro _ _)
    | (with_reducible apply Acts.snd; with_reducible assumption)
    | split
    | dsimp -zeta only
  | succ k ih =>
    unfold State.commitBefore
    repeat' first
    | fail_if_no_progress extract_lets
    | (with_reducible apply Acts.ite) <;> intro _
    | with_reducible apply Acts.refl
    | with_reducible apply Acts.step ih
    | with_reducible assumption
    | with_reducible apply commitEvent_trans
    | ((with_reducible apply Acts.foldl_trans); intro _ _)
    | (with_reducible apply Acts.snd; with_reducible assumption)
    | split
    | dsimp -zeta only
theorem commitBefore_trans {stamp : Nat} {y0 : Nat} {s : State} {s₀ : State} (h₀ : Acts .sc quiet s₀ s) : Acts .sc quiet s₀ (State.commitBefore stamp y0 s) := h₀.trans (commitBefore_acts ..)
theorem commitBefore_keep {stamp : Nat} {y0 : Nat} {s : State} {s₀ : State} (h₀ : Keep quiet s₀ s) : Keep quiet s₀ (State.commitBefore stamp y0 s) := h₀.trans (commitBefore_acts ..).keep

theorem commitWord_acts (s : State) : Acts .sc quiet s (State.commitWord s) := by
  unfold State.commitWord
  repeat' first
    | fail_if_no_progress extract_lets
    | (with_reducible apply Acts.ite) <;> intro _
    | with_reducible apply Acts.refl
    | with_reducible assumption
    | with_reducible apply commitStamp_trans
    | with_reducible apply commitBefore_trans
    | ((with_reducible apply Acts.foldl_trans); intro _ _)
    | dsimp -zeta only
    | dsimp +zetaDelta -zeta only
theorem commitWord_trans {s : State} {s₀ : State} (h₀ : Acts .sc quiet s₀ s) : Acts .sc quiet s₀ (State.commitWord s) := h₀.trans (commitWord_acts ..)
theorem commitWord_keep {s : State} {s₀ : State} (h₀ : Keep quiet s₀ s) : Keep quiet s₀ (State.commitWord s) := h₀.trans (commitWord_acts ..).keep

theorem execHubReleaseAtStation_acts (q : Nat) (s : State) : ActsO .sc quiet s (execHubReleaseAtStation q s) := by
  unfold execHubReleaseAtStation
  repeat' first
    | fail_if_no_progress extract_lets
    | (with_reducible apply ActsO.ite) <;> intro _
    | with_reducible apply ActsO.next
    | (with_reducible apply Acts.ite) <;> intro _
    | with_reducible apply Acts.refl
    | with_reducible assumption
    | with_reducible apply setSync_trans
    | with_reducible apply qResolve_trans
    | with_reducible apply staleCount_trans
    | (with_reducible apply Acts.snd; with_reducible assumption)
    | split
    | dsimp -zeta only
    | dsimp +zetaDelta -zeta only

theorem retarget_acts (n : Nat) (s : State) : Acts .sc quiet s (State.retarget n s) := by
  unfold State.retarget
  repeat' first
    | fail_if_no_progress extract_lets
    | (with_reducible apply Acts.ite) <;> intro _
    | with_reducible apply Acts.refl
    | with_reducible assumption
    | with_reducible apply stallHead_trans
    | ((with_reducible apply Acts.foldl_trans); intro _ _)
    | (with_reducible apply Acts.snd; with_reducible assumption)
    | split
    | dsimp -zeta only
theorem retarget_trans {n : Nat} {s : State} {s₀ : State} (h₀ : Acts .sc quiet s₀ s) : Acts .sc quiet s₀ (State.retarget n s) := h₀.trans (retarget_acts ..)
theorem retarget_keep {n : Nat} {s : State} {s₀ : State} (h₀ : Keep quiet s₀ s) : Keep quiet s₀ (State.retarget n s) := h₀.trans (retarget_acts ..).keep

theorem hbJoin_acts (n phi : Nat) (s : State) : Acts .sc quiet s (State.hbJoin n phi s) := by
  unfold State.hbJoin
  repeat' first
    | fail_if_no_progress extract_lets
    | (with_reducible apply Acts.ite) <;> intro _
    | with_reducible apply Acts.refl
    | with_reducible assumption
    | with_reducible apply setStn_trans
    | with_reducible apply armTimed_trans
    | with_reducible apply clearTargets_trans
    | with_reducible apply retarget_trans
    | ((with_reducible apply Acts.foldl_trans); intro _ _)
    | dsimp -zeta only
    | dsimp +zetaDelta -zeta only
theorem hbJoin_trans {n phi : Nat} {s : State} {s₀ : State} (h₀ : Acts .sc quiet s₀ s) : Acts .sc quiet s₀ (State.hbJoin n phi s) := h₀.trans (hbJoin_acts ..)
theorem hbJoin_keep {n phi : Nat} {s : State} {s₀ : State} (h₀ : Keep quiet s₀ s) : Keep quiet s₀ (State.hbJoin n phi s) := h₀.trans (hbJoin_acts ..).keep

theorem execHeartbeatReceive_acts (n : Nat) (edges : List Nat) (tap flips : Nat) (s : State) : ActsO .sc quiet s (execHeartbeatReceive n edges tap flips s) := by
  unfold execHeartbeatReceive
  repeat' first
    | fail_if_no_progress extract_lets
    | (with_reducible apply ActsO.ite) <;> intro _
    | with_reducible apply ActsO.next
    | (with_reducible apply Acts.ite) <;> intro _
    | with_reducible apply Acts.refl
    | with_reducible assumption
    | with_reducible apply setStn_trans
    | with_reducible apply stnEdges_trans
    | with_reducible apply hbMessage_trans
    | with_reducible apply hbCrcFail_trans
    | with_reducible apply hbAccept_trans
    | with_reducible apply hbJoin_trans
    | (with_reducible apply Acts.snd; with_reducible assumption)
    | split
    | dsimp -zeta only
    | dsimp +zetaDelta -zeta only

theorem execBarrierCreate_acts (m : MbGo) (s : State) (hd : quiet = true → m.dma = false := by first | assumption | nofun) : ActsO m.part quiet s (execBarrierCreate m s) := by
  unfold execBarrierCreate
  repeat' first
    | fail_if_no_progress extract_lets
    | ((with_reducible apply mailbox_fd); intro _ _)
    | ((with_reducible apply mailbox_sc); intro _ _)
    | ((with_reducible apply mailbox_own2880); intro _ _)
    | ((with_reducible apply mailbox_any); intro _ _)
    | (with_reducible apply Acts.iteS) <;> intro _
    | (with_reducible apply Acts.iteS2) <;> intro _
    | (with_reducible apply ActsO.ite) <;> intro _
    | with_reducible apply ActsO.next
    | (with_reducible apply Acts.ite) <;> intro _
    | with_reducible apply Acts.refl
    | with_reducible assumption
    | dsimp -zeta only
    | with_reducible apply createSlot_trans
    | split
    | dsimp -zeta only
    | dsimp +zetaDelta -zeta only

theorem execBarrierFree_acts (m : MbGo) (s : State) : ActsO m.part false s (execBarrierFree m s) := by
  have hd : false = true → m.dma = false := nofun
  unfold execBarrierFree
  repeat' first
    | fail_if_no_progress extract_lets
    | ((with_reducible apply mailbox_fd); intro _ _)
    | ((with_reducible apply mailbox_sc); intro _ _)
    | ((with_reducible apply mailbox_own2880); intro _ _)
    | ((with_reducible apply mailbox_any); intro _ _)
    | (with_reducible apply Acts.iteS) <;> intro _
    | (with_reducible apply Acts.iteS2) <;> intro _
    | (with_reducible apply ActsO.ite) <;> intro _
    | with_reducible apply ActsO.next
    | (with_reducible apply Acts.ite) <;> intro _
    | with_reducible apply Acts.refl
    | with_reducible assumption
    | dsimp -zeta only
    | with_reducible apply barrierFree_trans
    | (with_reducible apply Acts.snd; with_reducible assumption)
    | split
    | exact fun h => absurd h Bool.false_ne_true
    | dsimp -zeta only

theorem execCtxBind_acts (m : MbGo) (s : State) (hd : quiet = true → m.dma = false := by first | assumption | nofun) : ActsO m.part quiet s (execCtxBind m s) := by
  unfold execCtxBind
  repeat' first
    | fail_if_no_progress extract_lets
    | ((with_reducible apply mailbox_fd); intro _ _)
    | ((with_reducible apply mailbox_sc); intro _ _)
    | ((with_reducible apply mailbox_own2880); intro _ _)
    | ((with_reducible apply mailbox_any); intro _ _)
    | (with_reducible apply Acts.iteS) <;> intro _
    | (with_reducible apply Acts.iteS2) <;> intro _
    | (with_reducible apply ActsO.ite) <;> intro _
    | with_reducible apply ActsO.next
    | (with_reducible apply Acts.ite) <;> intro _
    | with_reducible apply Acts.refl
    | with_reducible assumption
    | dsimp -zeta only
    | with_reducible apply put_trans
    | (with_reducible apply Acts.snd; with_reducible assumption)
    | split
    | dsimp -zeta only
    | dsimp +zetaDelta -zeta only

theorem clearQueue_acts (q : Nat) (s : State) : Acts .sc quiet s (State.clearQueue q s) := by
  unfold State.clearQueue
  repeat' first
    | fail_if_no_progress extract_lets
    | (with_reducible apply Acts.ite) <;> intro _
    | with_reducible apply Acts.refl
    | with_reducible assumption
    | with_reducible apply put_trans
    | with_reducible apply setQueue_trans
    | with_reducible apply qResolve_trans
    | ((with_reducible apply Acts.foldl_trans); intro _ _)
    | dsimp -zeta only
    | dsimp +zetaDelta -zeta only
theorem clearQueue_trans {q : Nat} {s : State} {s₀ : State} (h₀ : Acts .sc quiet s₀ s) : Acts .sc quiet s₀ (State.clearQueue q s) := h₀.trans (clearQueue_acts ..)
theorem clearQueue_keep {q : Nat} {s : State} {s₀ : State} (h₀ : Keep quiet s₀ s) : Keep quiet s₀ (State.clearQueue q s) := h₀.trans (clearQueue_acts ..).keep

theorem clearContext_acts (c : Nat) (s : State) : Acts .sc false s (State.clearContext c s) := by
  unfold State.clearContext
  repeat' first
    | fail_if_no_progress extract_lets
    | (with_reducible apply Acts.ite) <;> intro _
    | with_reducible apply Acts.refl
    | with_reducible assumption
    | with_reducible apply put64_trans
    | with_reducible apply setMon_trans
    | with_reducible apply endDesc_trans
    | with_reducible apply barrierFree_trans
    | with_reducible apply clearQueue_trans
    | ((with_reducible apply Acts.foldl_trans); intro _ _)
    | exact fun h => absurd h Bool.false_ne_true
    | dsimp -zeta only
    | dsimp +zetaDelta -zeta only
theorem clearContext_trans {c : Nat} {s : State} {s₀ : State} (h₀ : Acts .sc false s₀ s) : Acts .sc false s₀ (State.clearContext c s) := h₀.trans (clearContext_acts ..)
theorem clearContext_keep {c : Nat} {s : State} {s₀ : State} (h₀ : Keep false s₀ s) : Keep false s₀ (State.clearContext c s) := h₀.trans (clearContext_acts ..).keep

theorem execCtxSwitch_acts (m : MbGo) (s : State) : ActsO m.part false s (execCtxSwitch m s) := by
  have hd : false = true → m.dma = false := nofun
  unfold execCtxSwitch
  repeat' first
    | fail_if_no_progress extract_lets
    | ((with_reducible apply mailbox_fd); intro _ _)
    | ((with_reducible apply mailbox_sc); intro _ _)
    | ((with_reducible apply mailbox_own2880); intro _ _)
    | ((with_reducible apply mailbox_any); intro _ _)
    | (with_reducible apply Acts.iteS) <;> intro _
    | (with_reducible apply Acts.iteS2) <;> intro _
    | (with_reducible apply ActsO.ite) <;> intro _
    | with_reducible apply ActsO.next
    | (with_reducible apply Acts.ite) <;> intro _
    | with_reducible apply Acts.refl
    | with_reducible assumption
    | dsimp -zeta only
    | with_reducible apply setSync_trans
    | with_reducible apply clearContext_trans
    | split
    | exact fun h => absurd h Bool.false_ne_true
    | dsimp -zeta only
    | dsimp +zetaDelta -zeta only

theorem execCtxClear_acts (m : MbGo) (s : State) : ActsO m.part false s (execCtxClear m s) := by
  have hd : false = true → m.dma = false := nofun
  unfold execCtxClear
  repeat' first
    | fail_if_no_progress extract_lets
    | ((with_reducible apply mailbox_fd); intro _ _)
    | ((with_reducible apply mailbox_sc); intro _ _)
    | ((with_reducible apply mailbox_own2880); intro _ _)
    | ((with_reducible apply mailbox_any); intro _ _)
    | (with_reducible apply Acts.iteS) <;> intro _
    | (with_reducible apply Acts.iteS2) <;> intro _
    | (with_reducible apply ActsO.ite) <;> intro _
    | with_reducible apply ActsO.next
    | (with_reducible apply Acts.ite) <;> intro _
    | with_reducible apply Acts.refl
    | with_reducible assumption
    | dsimp -zeta only
    | with_reducible apply setSync_trans
    | with_reducible apply clearContext_trans
    | split
    | exact fun h => absurd h Bool.false_ne_true
    | dsimp -zeta only
    | dsimp +zetaDelta -zeta only

theorem bindQueue_acts (q c : Nat) (s : State) : Acts .sc quiet s (State.bindQueue q c s) := by
  unfold State.bindQueue
  repeat' first
    | fail_if_no_progress extract_lets
    | (with_reducible apply Acts.ite) <;> intro _
    | with_reducible apply Acts.refl
    | with_reducible assumption
    | with_reducible apply put_trans
    | with_reducible apply setQueue_trans
    | dsimp -zeta only
    | dsimp +zetaDelta -zeta only
theorem bindQueue_trans {q c : Nat} {s : State} {s₀ : State} (h₀ : Acts .sc quiet s₀ s) : Acts .sc quiet s₀ (State.bindQueue q c s) := h₀.trans (bindQueue_acts ..)
theorem bindQueue_keep {q c : Nat} {s : State} {s₀ : State} (h₀ : Keep quiet s₀ s) : Keep quiet s₀ (State.bindQueue q c s) := h₀.trans (bindQueue_acts ..).keep

theorem execContextClearEnd_acts (s : State) : ActsO .sc false s (execContextClearEnd s) := by
  unfold execContextClearEnd
  repeat' first
    | fail_if_no_progress extract_lets
    | (with_reducible apply ActsO.ite) <;> intro _
    | with_reducible apply ActsO.next
    | (with_reducible apply Acts.ite) <;> intro _
    | with_reducible apply Acts.refl
    | with_reducible assumption
    | with_reducible apply put_trans
    | with_reducible apply mbComplete_trans
    | with_reducible apply setSync_trans
    | with_reducible apply bindQueue_trans
    | ((with_reducible apply Acts.foldl_trans); intro _ _)
    | (with_reducible apply Acts.snd; with_reducible assumption)
    | split
    | exact fun h => absurd h Bool.false_ne_true
    | dsimp -zeta only
    | dsimp +zetaDelta -zeta only

theorem execSlotRead_acts (m : MbGo) (s : State) (hd : quiet = true → m.dma = false := by first | assumption | nofun) : ActsO m.part quiet s (execSlotRead m s) := by
  unfold execSlotRead
  repeat' first
    | fail_if_no_progress extract_lets
    | ((with_reducible apply mailbox_fd); intro _ _)
    | ((with_reducible apply mailbox_sc); intro _ _)
    | ((with_reducible apply mailbox_own2880); intro _ _)
    | ((with_reducible apply mailbox_any); intro _ _)
    | (with_reducible apply Acts.iteS) <;> intro _
    | (with_reducible apply Acts.iteS2) <;> intro _
    | (with_reducible apply ActsO.ite) <;> intro _
    | with_reducible apply ActsO.next
    | (with_reducible apply Acts.ite) <;> intro _
    | with_reducible apply Acts.refl
    | with_reducible assumption
    | dsimp -zeta only
    | (with_reducible apply Acts.snd; with_reducible assumption)
    | split
    | dsimp -zeta only

theorem setQuota_acts (c v : Nat) (s : State) : Acts .sc quiet s (State.setQuota c v s) := by
  unfold State.setQuota
  repeat' first
    | fail_if_no_progress extract_lets
    | (with_reducible apply Acts.ite) <;> intro _
    | with_reducible apply Acts.refl
    | with_reducible assumption
    | with_reducible apply put_trans
    | with_reducible apply putFlag_trans
    | dsimp -zeta only
theorem setQuota_trans {c v : Nat} {s : State} {s₀ : State} (h₀ : Acts .sc quiet s₀ s) : Acts .sc quiet s₀ (State.setQuota c v s) := h₀.trans (setQuota_acts ..)
theorem setQuota_keep {c v : Nat} {s : State} {s₀ : State} (h₀ : Keep quiet s₀ s) : Keep quiet s₀ (State.setQuota c v s) := h₀.trans (setQuota_acts ..).keep

theorem execCtxQuota_acts (m : MbGo) (s : State) (hd : quiet = true → m.dma = false := by first | assumption | nofun) : ActsO m.part quiet s (execCtxQuota m s) := by
  unfold execCtxQuota
  repeat' first
    | fail_if_no_progress extract_lets
    | ((with_reducible apply mailbox_fd); intro _ _)
    | ((with_reducible apply mailbox_sc); intro _ _)
    | ((with_reducible apply mailbox_own2880); intro _ _)
    | ((with_reducible apply mailbox_any); intro _ _)
    | (with_reducible apply Acts.iteS) <;> intro _
    | (with_reducible apply Acts.iteS2) <;> intro _
    | (with_reducible apply ActsO.ite) <;> intro _
    | with_reducible apply ActsO.next
    | (with_reducible apply Acts.ite) <;> intro _
    | with_reducible apply Acts.refl
    | with_reducible assumption
    | dsimp -zeta only
    | with_reducible apply setQuota_trans
    | split
    | dsimp -zeta only

theorem hostWaitStop_acts (en status : Nat) (s : State) : Acts .sc quiet s (State.hostWaitStop en status s) := by
  unfold State.hostWaitStop
  repeat' first
    | fail_if_no_progress extract_lets
    | (with_reducible apply Acts.ite) <;> intro _
    | with_reducible apply Acts.refl
    | with_reducible assumption
    | with_reducible apply setSlotAt_trans
    | with_reducible apply hostWaitEnd_trans
    | (with_reducible apply Acts.snd; with_reducible assumption)
    | split
    | dsimp -zeta only
theorem hostWaitStop_trans {en status : Nat} {s : State} {s₀ : State} (h₀ : Acts .sc quiet s₀ s) : Acts .sc quiet s₀ (State.hostWaitStop en status s) := h₀.trans (hostWaitStop_acts ..)
theorem hostWaitStop_keep {en status : Nat} {s : State} {s₀ : State} (h₀ : Keep quiet s₀ s) : Keep quiet s₀ (State.hostWaitStop en status s) := h₀.trans (hostWaitStop_acts ..).keep

theorem execHostWaitCancel_acts (m : MbGo) (s : State) (hd : quiet = true → m.dma = false := by first | assumption | nofun) : ActsO m.part quiet s (execHostWaitCancel m s) := by
  unfold execHostWaitCancel
  repeat' first
    | fail_if_no_progress extract_lets
    | ((with_reducible apply mailbox_fd); intro _ _)
    | ((with_reducible apply mailbox_sc); intro _ _)
    | ((with_reducible apply mailbox_own2880); intro _ _)
    | ((with_reducible apply mailbox_any); intro _ _)
    | (with_reducible apply Acts.iteS) <;> intro _
    | (with_reducible apply Acts.iteS2) <;> intro _
    | (with_reducible apply ActsO.ite) <;> intro _
    | with_reducible apply ActsO.next
    | (with_reducible apply Acts.ite) <;> intro _
    | with_reducible apply Acts.refl
    | with_reducible assumption
    | dsimp -zeta only
    | with_reducible apply hostWaitStop_trans
    | ((with_reducible apply Acts.foldl_trans); intro _ _)
    | split
    | dsimp -zeta only

theorem hostArrive_acts (epoch : Nat) (s : State) : Acts .sc quiet s (State.hostArrive epoch s) := by
  unfold State.hostArrive
  repeat' first
    | fail_if_no_progress extract_lets
    | (with_reducible apply Acts.ite) <;> intro _
    | with_reducible apply Acts.refl
    | with_reducible assumption
    | with_reducible apply put_trans
    | with_reducible apply setSync_trans
    | with_reducible apply arriveAt_trans
    | (with_reducible apply Acts.snd; with_reducible assumption)
    | split
    | dsimp -zeta only
    | dsimp +zetaDelta -zeta only
theorem hostArrive_trans {epoch : Nat} {s : State} {s₀ : State} (h₀ : Acts .sc quiet s₀ s) : Acts .sc quiet s₀ (State.hostArrive epoch s) := h₀.trans (hostArrive_acts ..)
theorem hostArrive_keep {epoch : Nat} {s : State} {s₀ : State} (h₀ : Keep quiet s₀ s) : Keep quiet s₀ (State.hostArrive epoch s) := h₀.trans (hostArrive_acts ..).keep

theorem hostArm_acts (epoch : Nat) (s : State) : Acts .sc quiet s (State.hostArm epoch s) := by
  unfold State.hostArm
  repeat' first
    | fail_if_no_progress extract_lets
    | (with_reducible apply Acts.ite) <;> intro _
    | with_reducible apply Acts.refl
    | with_reducible assumption
    | with_reducible apply put_trans
    | with_reducible apply setSlotAt_trans
    | with_reducible apply hostWaitEnd_trans
    | with_reducible apply waitMisuse_trans
    | with_reducible apply hostWaitStop_trans
    | (with_reducible apply Acts.snd; with_reducible assumption)
    | split
    | dsimp -zeta only
    | dsimp +zetaDelta -zeta only
theorem hostArm_trans {epoch : Nat} {s : State} {s₀ : State} (h₀ : Acts .sc quiet s₀ s) : Acts .sc quiet s₀ (State.hostArm epoch s) := h₀.trans (hostArm_acts ..)
theorem hostArm_keep {epoch : Nat} {s : State} {s₀ : State} (h₀ : Keep quiet s₀ s) : Keep quiet s₀ (State.hostArm epoch s) := h₀.trans (hostArm_acts ..).keep

theorem deadlockRecords_acts (c : Nat) (s : State) : Acts .sc quiet s (State.deadlockRecords c s) := by
  unfold State.deadlockRecords
  repeat' first
    | fail_if_no_progress extract_lets
    | (with_reducible apply Acts.ite) <;> intro _
    | with_reducible apply Acts.refl
    | with_reducible assumption
    | with_reducible apply ctxRecord_trans
    | ((with_reducible apply Acts.foldl_trans); intro _ _)
    | (with_reducible apply Acts.snd; with_reducible assumption)
    | split
    | dsimp -zeta only
    | dsimp +zetaDelta -zeta only
theorem deadlockRecords_trans {c : Nat} {s : State} {s₀ : State} (h₀ : Acts .sc quiet s₀ s) : Acts .sc quiet s₀ (State.deadlockRecords c s) := h₀.trans (deadlockRecords_acts ..)
theorem deadlockRecords_keep {c : Nat} {s : State} {s₀ : State} (h₀ : Keep quiet s₀ s) : Keep quiet s₀ (State.deadlockRecords c s) := h₀.trans (deadlockRecords_acts ..).keep

theorem execDeadlockDeclare_acts (c : Nat) (s : State) : KeepO quiet s (execDeadlockDeclare c s) := by
  unfold execDeadlockDeclare
  repeat' first
    | fail_if_no_progress extract_lets
    | (with_reducible apply KeepO.ite) <;> intro _
    | with_reducible apply KeepO.next
    | (with_reducible apply Keep.ite) <;> intro _
    | with_reducible apply Keep.refl
    | with_reducible assumption
    | with_reducible apply put_keep
    | with_reducible apply awaitHt_keep
    | with_reducible apply put64_keep
    | with_reducible apply sendMonitor_keep
    | with_reducible apply deadlockRecords_keep
    | (with_reducible apply Keep.snd; with_reducible assumption)
    | split
    | dsimp -zeta only
    | dsimp +zetaDelta -zeta only

theorem execMonDump_acts (m : MbGo) (s : State) (hd : quiet = true → m.dma = false := by first | assumption | nofun) : ActsO m.part quiet s (execMonDump m s) := by
  unfold execMonDump
  repeat' first
    | fail_if_no_progress extract_lets
    | ((with_reducible apply mailbox_fd); intro _ _)
    | ((with_reducible apply mailbox_sc); intro _ _)
    | ((with_reducible apply mailbox_own2880); intro _ _)
    | ((with_reducible apply mailbox_any); intro _ _)
    | (with_reducible apply Acts.iteS) <;> intro _
    | (with_reducible apply Acts.iteS2) <;> intro _
    | (with_reducible apply ActsO.ite) <;> intro _
    | with_reducible apply ActsO.next
    | (with_reducible apply Acts.ite) <;> intro _
    | with_reducible apply Acts.refl
    | with_reducible assumption
    | dsimp -zeta only
    | with_reducible apply deadlockRecords_trans
    | split
    | dsimp -zeta only

end Sys2Proof.Machine
end

