-- ==== Sys2Proof/Laws/ActsHallJobs.lean ====
section
/-! SUPPORT. One lemma an operation: what it keeps (Acts, Keep). -/

namespace Sys2Proof.Machine

open Sys2Proof

set_option linter.unusedTactic false
set_option linter.unreachableTactic false
set_option linter.unusedVariables false

variable {quiet : Bool}

theorem takeHall_acts (i : Nat) (s : State) : Acts .fd quiet s (State.takeHall i s).2 := by
  unfold State.takeHall
  repeat' first
    | fail_if_no_progress extract_lets
    | (with_reducible apply Acts.iteS) <;> intro _
    | (with_reducible apply Acts.iteS2) <;> intro _
    | (with_reducible apply Acts.ite) <;> intro _
    | with_reducible apply Acts.refl
    | with_reducible assumption
    | dsimp -zeta only
    | with_reducible apply setHall_trans
    | split
    | dsimp -zeta only
    | dsimp +zetaDelta -zeta only
theorem takeHall_trans {i : Nat} {s : State} {s₀ : State} (h₀ : Acts .fd quiet s₀ s) : Acts .fd quiet s₀ (State.takeHall i s).2 := h₀.trans (takeHall_acts ..)
theorem takeHall_keep {i : Nat} {s : State} {s₀ : State} (h₀ : Keep quiet s₀ s) : Keep quiet s₀ (State.takeHall i s).2 := h₀.trans (takeHall_acts ..).keep

theorem dropHall_acts (i : Nat) (s : State) : Acts .fd quiet s (State.dropHall i s) := by
  unfold State.dropHall
  repeat' first
    | fail_if_no_progress extract_lets
    | (with_reducible apply Acts.ite) <;> intro _
    | with_reducible apply Acts.refl
    | with_reducible assumption
    | with_reducible apply setHall_trans
    | with_reducible apply setSlot_trans
    | with_reducible apply freePartials_trans
    | with_reducible apply jobRegs_trans
    | with_reducible apply bufSync_trans
    | split
    | dsimp -zeta only
    | dsimp +zetaDelta -zeta only
theorem dropHall_trans {i : Nat} {s : State} {s₀ : State} (h₀ : Acts .fd quiet s₀ s) : Acts .fd quiet s₀ (State.dropHall i s) := h₀.trans (dropHall_acts ..)
theorem dropHall_keep {i : Nat} {s : State} {s₀ : State} (h₀ : Keep quiet s₀ s) : Keep quiet s₀ (State.dropHall i s) := h₀.trans (dropHall_acts ..).keep

theorem freeEverywhere_acts (i : Nat) (s : State) : Acts .fd quiet s (State.freeEverywhere i s) := by
  unfold State.freeEverywhere
  repeat' first
    | fail_if_no_progress extract_lets
    | (with_reducible apply Acts.ite) <;> intro _
    | with_reducible apply Acts.refl
    | with_reducible assumption
    | with_reducible apply sendTunnels_trans
    | with_reducible apply dropHall_trans
    | dsimp -zeta only
    | dsimp +zetaDelta -zeta only
theorem freeEverywhere_trans {i : Nat} {s : State} {s₀ : State} (h₀ : Acts .fd quiet s₀ s) : Acts .fd quiet s₀ (State.freeEverywhere i s) := h₀.trans (freeEverywhere_acts ..)
theorem freeEverywhere_keep {i : Nat} {s : State} {s₀ : State} (h₀ : Keep quiet s₀ s) : Keep quiet s₀ (State.freeEverywhere i s) := h₀.trans (freeEverywhere_acts ..).keep

theorem execHbarAlloc_acts (m : MbGo) (s : State) (hd : quiet = true → m.dma = false := by first | assumption | nofun) : ActsO m.part quiet s (execHbarAlloc m s) := by
  unfold execHbarAlloc
  repeat' first
    | fail_if_no_progress extract_lets
    | ((with_reducible apply mailbox_fd); intro _ _)
    | ((with_reducible apply mailbox_sc); intro _ _)
    | ((with_reducible apply mailbox_own2880); intro _ _)
    | ((with_reducible apply mailbox_any); intro _ _)
    | with_reducible apply atRoot_trans
    | (with_reducible apply Acts.iteS) <;> intro _
    | (with_reducible apply Acts.iteS2) <;> intro _
    | (with_reducible apply ActsO.ite) <;> intro _
    | with_reducible apply ActsO.next
    | (with_reducible apply Acts.ite) <;> intro _
    | with_reducible apply Acts.refl
    | with_reducible assumption
    | dsimp -zeta only
    | with_reducible apply setSlot_trans
    | with_reducible apply sendTunnels_trans
    | with_reducible apply jobRegs_trans
    | with_reducible apply takeHall_trans
    | (with_reducible apply Acts.snd; with_reducible assumption)
    | split
    | dsimp -zeta only
    | dsimp +zetaDelta -zeta only

theorem execHbarAllocInstalled_acts (h : Nat) (s : State) : ActsO .fd false s (execHbarAllocInstalled h s) := by
  unfold execHbarAllocInstalled
  repeat' first
    | fail_if_no_progress extract_lets
    | (with_reducible apply ActsO.ite) <;> intro _
    | with_reducible apply ActsO.next
    | (with_reducible apply Acts.ite) <;> intro _
    | with_reducible apply Acts.refl
    | with_reducible assumption
    | with_reducible apply mbComplete_trans
    | (with_reducible apply Acts.snd; with_reducible assumption)
    | split
    | exact fun h => absurd h Bool.false_ne_true
    | dsimp -zeta only
    | dsimp +zetaDelta -zeta only

theorem execHbarFree_acts (m : MbGo) (s : State) (hd : quiet = true → m.dma = false := by first | assumption | nofun) : ActsO m.part quiet s (execHbarFree m s) := by
  unfold execHbarFree
  repeat' first
    | fail_if_no_progress extract_lets
    | ((with_reducible apply mailbox_fd); intro _ _)
    | ((with_reducible apply mailbox_sc); intro _ _)
    | ((with_reducible apply mailbox_own2880); intro _ _)
    | ((with_reducible apply mailbox_any); intro _ _)
    | with_reducible apply atRoot_trans
    | (with_reducible apply Acts.iteS) <;> intro _
    | (with_reducible apply Acts.iteS2) <;> intro _
    | (with_reducible apply ActsO.ite) <;> intro _
    | with_reducible apply ActsO.next
    | (with_reducible apply Acts.ite) <;> intro _
    | with_reducible apply Acts.refl
    | with_reducible assumption
    | dsimp -zeta only
    | with_reducible apply freeEverywhere_trans
    | split
    | dsimp -zeta only

theorem execHbarSet_acts (m : MbGo) (s : State) (hd : quiet = true → m.dma = false := by first | assumption | nofun) : ActsO m.part quiet s (execHbarSet m s) := by
  unfold execHbarSet
  repeat' first
    | fail_if_no_progress extract_lets
    | ((with_reducible apply mailbox_fd); intro _ _)
    | ((with_reducible apply mailbox_sc); intro _ _)
    | ((with_reducible apply mailbox_own2880); intro _ _)
    | ((with_reducible apply mailbox_any); intro _ _)
    | with_reducible apply atRoot_trans
    | (with_reducible apply Acts.iteS) <;> intro _
    | (with_reducible apply Acts.iteS2) <;> intro _
    | (with_reducible apply ActsO.ite) <;> intro _
    | with_reducible apply ActsO.next
    | (with_reducible apply Acts.ite) <;> intro _
    | with_reducible apply Acts.refl
    | with_reducible assumption
    | dsimp -zeta only
    | with_reducible apply setSlot_trans
    | split
    | dsimp -zeta only
    | dsimp +zetaDelta -zeta only

theorem execHbarResolve_acts (m : MbGo) (s : State) (hd : quiet = true → m.dma = false := by first | assumption | nofun) : ActsO m.part quiet s (execHbarResolve m s) := by
  unfold execHbarResolve
  repeat' first
    | fail_if_no_progress extract_lets
    | ((with_reducible apply mailbox_fd); intro _ _)
    | ((with_reducible apply mailbox_sc); intro _ _)
    | ((with_reducible apply mailbox_own2880); intro _ _)
    | ((with_reducible apply mailbox_any); intro _ _)
    | with_reducible apply atRoot_trans
    | (with_reducible apply Acts.iteS) <;> intro _
    | (with_reducible apply Acts.iteS2) <;> intro _
    | (with_reducible apply ActsO.ite) <;> intro _
    | with_reducible apply ActsO.next
    | (with_reducible apply Acts.ite) <;> intro _
    | with_reducible apply Acts.refl
    | with_reducible assumption
    | dsimp -zeta only
    | with_reducible apply setSlot_trans
    | with_reducible apply rootComplete_trans
    | with_reducible apply hallTest_trans
    | with_reducible apply called_trans
    | ((with_reducible apply Acts.foldl_trans); intro _ _)
    | split
    | dsimp -zeta only
    | dsimp +zetaDelta -zeta only

theorem execHbarRead_acts (m : MbGo) (s : State) (hd : quiet = true → m.dma = false := by first | assumption | nofun) : ActsO m.part quiet s (execHbarRead m s) := by
  unfold execHbarRead
  repeat' first
    | fail_if_no_progress extract_lets
    | ((with_reducible apply mailbox_fd); intro _ _)
    | ((with_reducible apply mailbox_sc); intro _ _)
    | ((with_reducible apply mailbox_own2880); intro _ _)
    | ((with_reducible apply mailbox_any); intro _ _)
    | (with_reducible apply Acts.iteS) <;> intro _
    | (with_reducible apply Acts.iteS2) <;> intro _
    | (with_reducible apply ActsO.ite) <;> intro _
    | with_reducible apply ActsO.next
    | (with_reducible apply Acts.ite) <;> intro _
    | with_reducible apply Acts.refl
    | with_reducible assumption
    | dsimp -zeta only
    | split
    | dsimp -zeta only

theorem execJobHallStatus_acts (m : MbGo) (s : State) (hd : quiet = true → m.dma = false := by first | assumption | nofun) : ActsO m.part quiet s (execJobHallStatus m s) := by
  unfold execJobHallStatus
  repeat' first
    | fail_if_no_progress extract_lets
    | ((with_reducible apply mailbox_fd); intro _ _)
    | ((with_reducible apply mailbox_sc); intro _ _)
    | ((with_reducible apply mailbox_own2880); intro _ _)
    | ((with_reducible apply mailbox_any); intro _ _)
    | with_reducible apply atRoot_trans
    | (with_reducible apply Acts.iteS) <;> intro _
    | (with_reducible apply Acts.iteS2) <;> intro _
    | (with_reducible apply ActsO.ite) <;> intro _
    | with_reducible apply ActsO.next
    | (with_reducible apply Acts.ite) <;> intro _
    | with_reducible apply Acts.refl
    | with_reducible assumption
    | dsimp -zeta only
    | split
    | dsimp -zeta only
    | dsimp +zetaDelta -zeta only

theorem execSuspectRead_acts (m : MbGo) (s : State) (hd : quiet = true → m.dma = false := by first | assumption | nofun) : ActsO m.part quiet s (execSuspectRead m s) := by
  unfold execSuspectRead
  repeat' first
    | fail_if_no_progress extract_lets
    | ((with_reducible apply mailbox_fd); intro _ _)
    | ((with_reducible apply mailbox_sc); intro _ _)
    | ((with_reducible apply mailbox_own2880); intro _ _)
    | ((with_reducible apply mailbox_any); intro _ _)
    | with_reducible apply atRoot_trans
    | (with_reducible apply Acts.iteS) <;> intro _
    | (with_reducible apply Acts.iteS2) <;> intro _
    | (with_reducible apply ActsO.ite) <;> intro _
    | with_reducible apply ActsO.next
    | (with_reducible apply Acts.ite) <;> intro _
    | with_reducible apply Acts.refl
    | with_reducible assumption
    | dsimp -zeta only
    | split
    | dsimp -zeta only
    | dsimp +zetaDelta -zeta only

theorem execHbarDump_acts (m : MbGo) (s : State) (hd : quiet = true → m.dma = false := by first | assumption | nofun) : ActsO m.part quiet s (execHbarDump m s) := by
  unfold execHbarDump
  repeat' first
    | fail_if_no_progress extract_lets
    | ((with_reducible apply mailbox_fd); intro _ _)
    | ((with_reducible apply mailbox_sc); intro _ _)
    | ((with_reducible apply mailbox_own2880); intro _ _)
    | ((with_reducible apply mailbox_any); intro _ _)
    | with_reducible apply atRoot_trans
    | (with_reducible apply Acts.iteS) <;> intro _
    | (with_reducible apply Acts.iteS2) <;> intro _
    | (with_reducible apply ActsO.ite) <;> intro _
    | with_reducible apply ActsO.next
    | (with_reducible apply Acts.ite) <;> intro _
    | with_reducible apply Acts.refl
    | with_reducible assumption
    | dsimp -zeta only
    | with_reducible apply dumpJob_trans
    | split
    | dsimp -zeta only

theorem cadenceReset_acts (j : Nat) (s : State) : Acts .fd quiet s (State.cadenceReset j s) := by
  unfold State.cadenceReset
  repeat' first
    | fail_if_no_progress extract_lets
    | (with_reducible apply Acts.ite) <;> intro _
    | with_reducible apply Acts.refl
    | with_reducible assumption
    | with_reducible apply put_trans
    | with_reducible apply setPj_trans
    | ((with_reducible apply Acts.foldl_trans); intro _ _)
    | dsimp -zeta only
theorem cadenceReset_trans {j : Nat} {s : State} {s₀ : State} (h₀ : Acts .fd quiet s₀ s) : Acts .fd quiet s₀ (State.cadenceReset j s) := h₀.trans (cadenceReset_acts ..)
theorem cadenceReset_keep {j : Nat} {s : State} {s₀ : State} (h₀ : Keep quiet s₀ s) : Keep quiet s₀ (State.cadenceReset j s) := h₀.trans (cadenceReset_acts ..).keep

theorem rcClear_acts (j : Nat) (s : State) : Acts .fd quiet s (State.rcClear j s) := by
  unfold State.rcClear
  repeat' first
    | fail_if_no_progress extract_lets
    | (with_reducible apply Acts.ite) <;> intro _
    | with_reducible apply Acts.refl
    | with_reducible assumption
    | with_reducible apply put_trans
    | with_reducible apply setJob_trans
    | ((with_reducible apply Acts.foldl_trans); intro _ _)
    | dsimp -zeta only
theorem rcClear_trans {j : Nat} {s : State} {s₀ : State} (h₀ : Acts .fd quiet s₀ s) : Acts .fd quiet s₀ (State.rcClear j s) := h₀.trans (rcClear_acts ..)
theorem rcClear_keep {j : Nat} {s : State} {s₀ : State} (h₀ : Keep quiet s₀ s) : Keep quiet s₀ (State.rcClear j s) := h₀.trans (rcClear_acts ..).keep

theorem execJobCreate_acts (m : MbGo) (s : State) (hd : quiet = true → m.dma = false := by first | assumption | nofun) : ActsO m.part quiet s (execJobCreate m s) := by
  unfold execJobCreate
  repeat' first
    | fail_if_no_progress extract_lets
    | ((with_reducible apply mailbox_fd); intro _ _)
    | ((with_reducible apply mailbox_sc); intro _ _)
    | ((with_reducible apply mailbox_own2880); intro _ _)
    | ((with_reducible apply mailbox_any); intro _ _)
    | with_reducible apply atRoot_trans
    | (with_reducible apply Acts.iteS) <;> intro _
    | (with_reducible apply Acts.iteS2) <;> intro _
    | (with_reducible apply ActsO.ite) <;> intro _
    | with_reducible apply ActsO.next
    | (with_reducible apply Acts.ite) <;> intro _
    | with_reducible apply Acts.refl
    | with_reducible assumption
    | dsimp -zeta only
    | with_reducible apply put_trans
    | with_reducible apply setJob_trans
    | with_reducible apply sendTunnels_trans
    | with_reducible apply jobRegs_trans
    | with_reducible apply cadenceReset_trans
    | with_reducible apply rcClear_trans
    | split
    | dsimp -zeta only
    | dsimp +zetaDelta -zeta only

theorem execJobEnd_acts (m : MbGo) (s : State) (hd : quiet = true → m.dma = false := by first | assumption | nofun) : ActsO m.part quiet s (execJobEnd m s) := by
  unfold execJobEnd
  repeat' first
    | fail_if_no_progress extract_lets
    | ((with_reducible apply mailbox_fd); intro _ _)
    | ((with_reducible apply mailbox_sc); intro _ _)
    | ((with_reducible apply mailbox_own2880); intro _ _)
    | ((with_reducible apply mailbox_any); intro _ _)
    | with_reducible apply atRoot_trans
    | (with_reducible apply Acts.iteS) <;> intro _
    | (with_reducible apply Acts.iteS2) <;> intro _
    | (with_reducible apply ActsO.ite) <;> intro _
    | with_reducible apply ActsO.next
    | (with_reducible apply Acts.ite) <;> intro _
    | with_reducible apply Acts.refl
    | with_reducible assumption
    | dsimp -zeta only
    | with_reducible apply put_trans
    | with_reducible apply setJob_trans
    | with_reducible apply sendTunnels_trans
    | with_reducible apply jobRegs_trans
    | with_reducible apply sbRegs_trans
    | with_reducible apply sbFreeJob_trans
    | with_reducible apply freeEverywhere_trans
    | ((with_reducible apply Acts.foldl_trans); intro _ _)
    | split
    | dsimp -zeta only
    | dsimp +zetaDelta -zeta only

theorem execJobEndEffect_acts (j : Nat) (s : State) : KeepO quiet s (execJobEndEffect j s) := by
  unfold execJobEndEffect
  repeat' first
    | fail_if_no_progress extract_lets
    | (with_reducible apply KeepO.ite) <;> intro _
    | with_reducible apply KeepO.next
    | (with_reducible apply Keep.ite) <;> intro _
    | with_reducible apply Keep.refl
    | with_reducible assumption
    | with_reducible apply put_keep
    | with_reducible apply setJob_keep
    | with_reducible apply awaitBeat_keep
    | (with_reducible apply Keep.snd; with_reducible assumption)
    | split
    | dsimp -zeta only

theorem releaseHeld_acts (j : Nat) (s : State) : Acts .fd quiet s (State.releaseHeld j s) := by
  unfold State.releaseHeld
  repeat' first
    | fail_if_no_progress extract_lets
    | (with_reducible apply Acts.ite) <;> intro _
    | with_reducible apply Acts.refl
    | with_reducible assumption
    | with_reducible apply setHall_trans
    | with_reducible apply hallWord_trans
    | (with_reducible apply Acts.ofO; with_reducible assumption)
    | with_reducible apply execMonitorWord_acts
    | ((with_reducible apply Acts.foldl_trans); intro _ _)
    | (with_reducible apply Acts.snd; with_reducible assumption)
    | split
    | dsimp -zeta only
    | dsimp +zetaDelta -zeta only
theorem releaseHeld_trans {j : Nat} {s : State} {s₀ : State} (h₀ : Acts .fd quiet s₀ s) : Acts .fd quiet s₀ (State.releaseHeld j s) := h₀.trans (releaseHeld_acts ..)
theorem releaseHeld_keep {j : Nat} {s : State} {s₀ : State} (h₀ : Keep quiet s₀ s) : Keep quiet s₀ (State.releaseHeld j s) := h₀.trans (releaseHeld_acts ..).keep

theorem sendTables_acts (j n : Nat) (s : State) : Acts .fd quiet s (State.sendTables j n s) := by
  unfold State.sendTables
  repeat' first
    | fail_if_no_progress extract_lets
    | (with_reducible apply Acts.ite) <;> intro _
    | with_reducible apply Acts.refl
    | with_reducible assumption
    | with_reducible apply sendTunnel_trans
    | split
    | dsimp -zeta only
    | dsimp +zetaDelta -zeta only
theorem sendTables_trans {j n : Nat} {s : State} {s₀ : State} (h₀ : Acts .fd quiet s₀ s) : Acts .fd quiet s₀ (State.sendTables j n s) := h₀.trans (sendTables_acts ..)
theorem sendTables_keep {j n : Nat} {s : State} {s₀ : State} (h₀ : Keep quiet s₀ s) : Keep quiet s₀ (State.sendTables j n s) := h₀.trans (sendTables_acts ..).keep

theorem execSlotInstall_acts (n : Nat) (msg : TunMsg) (s : State) : ActsO .fd quiet s (execSlotInstall n msg s) := by
  unfold execSlotInstall
  repeat' first
    | fail_if_no_progress extract_lets
    | (with_reducible apply ActsO.ite) <;> intro _
    | with_reducible apply ActsO.next
    | (with_reducible apply Acts.ite) <;> intro _
    | with_reducible apply Acts.refl
    | with_reducible assumption
    | with_reducible apply put_trans
    | with_reducible apply modLink_trans
    | with_reducible apply setJob_trans
    | with_reducible apply setSlot_trans
    | with_reducible apply sendTunnels_trans
    | with_reducible apply jobRegs_trans
    | with_reducible apply recheckJob_trans
    | with_reducible apply dropHall_trans
    | with_reducible apply releaseHeld_trans
    | with_reducible apply sendTables_trans
    | ((with_reducible apply Acts.foldl_trans); intro _ _)
    | (with_reducible apply Acts.snd; with_reducible assumption)
    | split
    | dsimp -zeta only
    | dsimp +zetaDelta -zeta only

end Sys2Proof.Machine
end

