-- ==== Sys2Proof/Laws/ActsDiePay.lean ====
section
/-! SUPPORT. One lemma an operation: what it keeps (Acts, Keep). -/

namespace Sys2Proof.Machine

open Sys2Proof

set_option linter.unusedTactic false
set_option linter.unreachableTactic false
set_option linter.unusedVariables false

variable {quiet : Bool}

theorem execPayloadArrive_acts (q : Nat) (edges : List Nat) (s : State) : ActsO .sc quiet s (execPayloadArrive q edges s) := by
  unfold execPayloadArrive
  repeat' first
    | fail_if_no_progress extract_lets
    | (with_reducible apply ActsO.ite) <;> intro _
    | with_reducible apply ActsO.next
    | (with_reducible apply Acts.ite) <;> intro _
    | with_reducible apply Acts.refl
    | with_reducible assumption
    | with_reducible apply wake_trans
    | with_reducible apply qResolve_trans
    | with_reducible apply setPay_trans
    | with_reducible apply atHead_trans
    | intro _
    | with_reducible apply passHead_trans
    | with_reducible apply fenceTest_trans
    | (with_reducible apply Acts.snd; with_reducible assumption)
    | split
    | dsimp -zeta only
    | dsimp +zetaDelta -zeta only

theorem rejectDesc_acts (d : Desc) (status : Nat) (s : State) : Acts .sc false s (State.rejectDesc d status s) := by
  unfold State.rejectDesc
  repeat' first
    | fail_if_no_progress extract_lets
    | (with_reducible apply Acts.ite) <;> intro _
    | with_reducible apply Acts.refl
    | with_reducible assumption
    | with_reducible apply endDesc_trans
    | with_reducible apply answer_trans
    | with_reducible apply doneHeld_trans
    | exact fun h => absurd h Bool.false_ne_true
    | dsimp -zeta only
theorem rejectDesc_trans {d : Desc} {status : Nat} {s : State} {s₀ : State} (h₀ : Acts .sc false s₀ s) : Acts .sc false s₀ (State.rejectDesc d status s) := h₀.trans (rejectDesc_acts ..)
theorem rejectDesc_keep {d : Desc} {status : Nat} {s : State} {s₀ : State} (h₀ : Keep false s₀ s) : Keep false s₀ (State.rejectDesc d status s) := h₀.trans (rejectDesc_acts ..).keep

theorem execDescriptorReadDone_acts (desc : Nat) (descErr maskErr : Bool) (srcErr : List Nat) (s : State) : ActsO .sc false s (execDescriptorReadDone desc descErr maskErr srcErr s) := by
  unfold execDescriptorReadDone
  repeat' first
    | fail_if_no_progress extract_lets
    | (with_reducible apply ActsO.ite) <;> intro _
    | with_reducible apply ActsO.next
    | (with_reducible apply Acts.ite) <;> intro _
    | with_reducible apply Acts.refl
    | with_reducible assumption
    | with_reducible apply bump_trans
    | with_reducible apply rsvd_trans
    | with_reducible apply setPay_trans
    | with_reducible apply payInt_trans
    | with_reducible apply arriveAt_trans
    | with_reducible apply qLast_trans
    | with_reducible apply answer_trans
    | with_reducible apply rejectDesc_trans
    | (with_reducible apply Acts.snd; with_reducible assumption)
    | split
    | exact fun h => absurd h Bool.false_ne_true
    | dsimp -zeta only
    | dsimp +zetaDelta -zeta only

theorem takeResult_acts (n job seq : Nat) (s : State) : Acts .sc quiet s (State.takeResult n job seq s) := by
  unfold State.takeResult
  repeat' first
    | fail_if_no_progress extract_lets
    | (with_reducible apply Acts.ite) <;> intro _
    | with_reducible apply Acts.refl
    | with_reducible assumption
    | with_reducible apply modRx_trans
    | with_reducible apply dropRx_trans
    | with_reducible apply requestBody_trans
    | with_reducible apply setPay_trans
    | (with_reducible apply Acts.snd; with_reducible assumption)
    | split
    | dsimp -zeta only
    | dsimp +zetaDelta -zeta only
theorem takeResult_trans {n job seq : Nat} {s : State} {s₀ : State} (h₀ : Acts .sc quiet s₀ s) : Acts .sc quiet s₀ (State.takeResult n job seq s) := h₀.trans (takeResult_acts ..)
theorem takeResult_keep {n job seq : Nat} {s : State} {s₀ : State} (h₀ : Keep quiet s₀ s) : Keep quiet s₀ (State.takeResult n job seq s) := h₀.trans (takeResult_acts ..).keep

theorem loseResult_acts (job seq : Nat) (s : State) : Acts .sc quiet s (State.loseResult job seq s) := by
  unfold State.loseResult
  repeat' first
    | fail_if_no_progress extract_lets
    | (with_reducible apply Acts.ite) <;> intro _
    | with_reducible apply Acts.refl
    | with_reducible assumption
    | with_reducible apply setPay_trans
    | split
    | dsimp -zeta only
theorem loseResult_trans {job seq : Nat} {s : State} {s₀ : State} (h₀ : Acts .sc quiet s₀ s) : Acts .sc quiet s₀ (State.loseResult job seq s) := h₀.trans (loseResult_acts ..)
theorem loseResult_keep {job seq : Nat} {s : State} {s₀ : State} (h₀ : Keep quiet s₀ s) : Keep quiet s₀ (State.loseResult job seq s) := h₀.trans (loseResult_acts ..).keep

theorem execCloseAtDie_acts (n job bucket seq epoch contrib hash flags : Nat) (s : State) : ActsO .sc quiet s (execCloseAtDie n job bucket seq epoch contrib hash flags s) := by
  unfold execCloseAtDie
  repeat' first
    | fail_if_no_progress extract_lets
    | (with_reducible apply ActsO.ite) <;> intro _
    | with_reducible apply ActsO.next
    | (with_reducible apply Acts.ite) <;> intro _
    | with_reducible apply Acts.refl
    | with_reducible assumption
    | with_reducible apply setUnit_trans
    | with_reducible apply put_trans
    | with_reducible apply raise_trans
    | with_reducible apply record_trans
    | with_reducible apply dropRx_trans
    | with_reducible apply nameBody_trans
    | with_reducible apply setPay_trans
    | with_reducible apply toDie_trans
    | with_reducible apply staleCount_trans
    | with_reducible apply takeResult_trans
    | ((with_reducible apply Acts.foldl_trans); intro _ _)
    | (with_reducible apply Acts.snd; with_reducible assumption)
    | split
    | dsimp -zeta only
    | dsimp +zetaDelta -zeta only

theorem chkCompare_acts (s : State) : Acts .sc quiet s (State.chkCompare s) := by
  unfold State.chkCompare
  repeat' first
    | fail_if_no_progress extract_lets
    | (with_reducible apply Acts.ite) <;> intro _
    | with_reducible apply Acts.refl
    | with_reducible assumption
    | with_reducible apply put_trans
    | with_reducible apply bump_trans
    | with_reducible apply record_trans
    | with_reducible apply payInt_trans
    | split
    | dsimp -zeta only
    | dsimp +zetaDelta -zeta only
theorem chkCompare_trans {s : State} {s₀ : State} (h₀ : Acts .sc quiet s₀ s) : Acts .sc quiet s₀ (State.chkCompare s) := h₀.trans (chkCompare_acts ..)
theorem chkCompare_keep {s : State} {s₀ : State} (h₀ : Keep quiet s₀ s) : Keep quiet s₀ (State.chkCompare s) := h₀.trans (chkCompare_acts ..).keep

theorem chkExpect_acts (v : Nat) (s : State) : Acts .sc quiet s (State.chkExpect v s) := by
  unfold State.chkExpect
  repeat' first
    | fail_if_no_progress extract_lets
    | (with_reducible apply Acts.ite) <;> intro _
    | with_reducible apply Acts.refl
    | with_reducible assumption
    | with_reducible apply put_trans
    | with_reducible apply chkCompare_trans
    | dsimp -zeta only
theorem chkExpect_trans {v : Nat} {s : State} {s₀ : State} (h₀ : Acts .sc quiet s₀ s) : Acts .sc quiet s₀ (State.chkExpect v s) := h₀.trans (chkExpect_acts ..)
theorem chkExpect_keep {v : Nat} {s : State} {s₀ : State} (h₀ : Keep quiet s₀ s) : Keep quiet s₀ (State.chkExpect v s) := h₀.trans (chkExpect_acts ..).keep

theorem execCheckerBeat_acts (data keep : Nat) (last : Bool) (s : State) : ActsO .sc quiet s (execCheckerBeat data keep last s) := by
  unfold execCheckerBeat
  repeat' first
    | fail_if_no_progress extract_lets
    | (with_reducible apply ActsO.ite) <;> intro _
    | with_reducible apply ActsO.next
    | (with_reducible apply Acts.ite) <;> intro _
    | with_reducible apply Acts.refl
    | with_reducible assumption
    | with_reducible apply put_trans
    | with_reducible apply bump_trans
    | with_reducible apply setPay_trans
    | with_reducible apply chkCompare_trans
    | ((with_reducible apply Acts.foldl_trans); intro _ _)
    | split
    | dsimp -zeta only
    | dsimp +zetaDelta -zeta only

theorem execResultWriteDone_acts (job seq : Nat) (s : State) : ActsO .sc false s (execResultWriteDone job seq s) := by
  unfold execResultWriteDone
  repeat' first
    | fail_if_no_progress extract_lets
    | (with_reducible apply ActsO.ite) <;> intro _
    | with_reducible apply ActsO.next
    | (with_reducible apply Acts.ite) <;> intro _
    | with_reducible apply Acts.refl
    | with_reducible assumption
    | with_reducible apply dmaWrite_trans
    | with_reducible apply setPay_trans
    | with_reducible apply endDesc_trans
    | with_reducible apply countLost_trans
    | with_reducible apply doneHeld_trans
    | with_reducible apply chkExpect_trans
    | (with_reducible apply Acts.snd; with_reducible assumption)
    | split
    | exact fun h => absurd h Bool.false_ne_true
    | dsimp -zeta only
    | dsimp +zetaDelta -zeta only

theorem chkLoad_acts (hi : Nat) (s : State) : Acts .sc quiet s (State.chkLoad hi s) := by
  unfold State.chkLoad
  repeat' first
    | fail_if_no_progress extract_lets
    | (with_reducible apply Acts.ite) <;> intro _
    | with_reducible apply Acts.refl
    | with_reducible assumption
    | with_reducible apply rsvd_trans
    | with_reducible apply setPay_trans
    | split
    | dsimp -zeta only
theorem chkLoad_trans {hi : Nat} {s : State} {s₀ : State} (h₀ : Acts .sc quiet s₀ s) : Acts .sc quiet s₀ (State.chkLoad hi s) := h₀.trans (chkLoad_acts ..)
theorem chkLoad_keep {hi : Nat} {s : State} {s₀ : State} (h₀ : Keep quiet s₀ s) : Keep quiet s₀ (State.chkLoad hi s) := h₀.trans (chkLoad_acts ..).keep

end Sys2Proof.Machine
end

