-- ==== Sys2Proof/Laws/ActsHallDie.lean ====
section
/-! SUPPORT. One lemma an operation: what it keeps (Acts, Keep). -/

namespace Sys2Proof.Machine

open Sys2Proof

set_option linter.unusedTactic false
set_option linter.unreachableTactic false
set_option linter.unusedVariables false

variable {quiet : Bool}

theorem driveFloor_acts (s : State) : Acts .sc quiet s (State.driveFloor s) := by
  unfold State.driveFloor
  repeat' first
    | fail_if_no_progress extract_lets
    | (with_reducible apply Acts.ite) <;> intro _
    | with_reducible apply Acts.refl
    | with_reducible assumption
    | with_reducible apply put_trans
    | with_reducible apply putFlag_trans
    | dsimp -zeta only
    | dsimp +zetaDelta -zeta only
theorem driveFloor_trans {s : State} {s₀ : State} (h₀ : Acts .sc quiet s₀ s) : Acts .sc quiet s₀ (State.driveFloor s) := h₀.trans (driveFloor_acts ..)
theorem driveFloor_keep {s : State} {s₀ : State} (h₀ : Keep quiet s₀ s) : Keep quiet s₀ (State.driveFloor s) := h₀.trans (driveFloor_acts ..).keep

theorem applyLevel_acts (j level : Nat) (recess : Bool) (s : State) : Acts .sc quiet s (State.applyLevel j level recess s) := by
  unfold State.applyLevel
  repeat' first
    | fail_if_no_progress extract_lets
    | (with_reducible apply Acts.ite) <;> intro _
    | with_reducible apply Acts.refl
    | with_reducible assumption
    | with_reducible apply put_trans
    | with_reducible apply putFlag_trans
    | with_reducible apply driveFloor_trans
    | split
    | dsimp -zeta only
    | dsimp +zetaDelta -zeta only
theorem applyLevel_trans {j level : Nat} {recess : Bool} {s : State} {s₀ : State} (h₀ : Acts .sc quiet s₀ s) : Acts .sc quiet s₀ (State.applyLevel j level recess s) := h₀.trans (applyLevel_acts ..)
theorem applyLevel_keep {j level : Nat} {recess : Bool} {s : State} {s₀ : State} (h₀ : Keep quiet s₀ s) : Keep quiet s₀ (State.applyLevel j level recess s) := h₀.trans (applyLevel_acts ..).keep

theorem clearLevel_acts (j : Nat) (s : State) : Acts .sc quiet s (State.clearLevel j s) := by
  unfold State.clearLevel
  repeat' first
    | fail_if_no_progress extract_lets
    | (with_reducible apply Acts.ite) <;> intro _
    | with_reducible apply Acts.refl
    | with_reducible assumption
    | with_reducible apply put_trans
    | with_reducible apply driveFloor_trans
    | ((with_reducible apply Acts.foldl_trans); intro _ _)
    | dsimp -zeta only
theorem clearLevel_trans {j : Nat} {s : State} {s₀ : State} (h₀ : Acts .sc quiet s₀ s) : Acts .sc quiet s₀ (State.clearLevel j s) := h₀.trans (clearLevel_acts ..)
theorem clearLevel_keep {j : Nat} {s : State} {s₀ : State} (h₀ : Keep quiet s₀ s) : Keep quiet s₀ (State.clearLevel j s) := h₀.trans (clearLevel_acts ..).keep

theorem takeDieWord_acts (n : Nat) (w : CtlWord) (s : State) : Acts .sc quiet s (State.takeDieWord n w s) := by
  unfold State.takeDieWord
  repeat' first
    | fail_if_no_progress extract_lets
    | (with_reducible apply Acts.ite) <;> intro _
    | with_reducible apply Acts.refl
    | with_reducible assumption
    | with_reducible apply takeWord_trans
    | with_reducible apply commitWord_trans
    | dsimp -zeta only
theorem takeDieWord_trans {n : Nat} {w : CtlWord} {s : State} {s₀ : State} (h₀ : Acts .sc quiet s₀ s) : Acts .sc quiet s₀ (State.takeDieWord n w s) := h₀.trans (takeDieWord_acts ..)
theorem takeDieWord_keep {n : Nat} {w : CtlWord} {s : State} {s₀ : State} (h₀ : Keep quiet s₀ s) : Keep quiet s₀ (State.takeDieWord n w s) := h₀.trans (takeDieWord_acts ..).keep

theorem staleToDie_acts (d : Nat) (w : CtlWord) (h gen epoch cause : Nat) (s : State) : Acts .sc quiet s (State.staleToDie d w h gen epoch cause s) := by
  unfold State.staleToDie
  repeat' first
    | fail_if_no_progress extract_lets
    | (with_reducible apply Acts.ite) <;> intro _
    | with_reducible apply Acts.refl
    | with_reducible assumption
    | with_reducible apply toDie_trans
    | dsimp -zeta only
theorem staleToDie_trans {d : Nat} {w : CtlWord} {h gen epoch cause : Nat} {s : State} {s₀ : State} (h₀ : Acts .sc quiet s₀ s) : Acts .sc quiet s₀ (State.staleToDie d w h gen epoch cause s) := h₀.trans (staleToDie_acts ..)
theorem staleToDie_keep {d : Nat} {w : CtlWord} {h gen epoch cause : Nat} {s : State} {s₀ : State} (h₀ : Keep quiet s₀ s) : Keep quiet s₀ (State.staleToDie d w h gen epoch cause s) := h₀.trans (staleToDie_acts ..).keep

theorem leadArrive_acts (d : Nat) (w : CtlWord) (h gen epoch src ht32 : Nat) (body : Option Body) (s : State) : Acts .sc quiet s (State.leadArrive d w h gen epoch src ht32 body s) := by
  unfold State.leadArrive
  repeat' first
    | fail_if_no_progress extract_lets
    | (with_reducible apply Acts.ite) <;> intro _
    | with_reducible apply Acts.refl
    | with_reducible assumption
    | with_reducible apply ctxRecord_trans
    | with_reducible apply monArrival_trans
    | with_reducible apply setSlotAt_trans
    | with_reducible apply partialAt_trans
    | with_reducible apply slotTest_trans
    | with_reducible apply staleCount_trans
    | with_reducible apply staleToDie_trans
    | (with_reducible apply Acts.snd; with_reducible assumption)
    | split
    | dsimp -zeta only
    | dsimp +zetaDelta -zeta only
theorem leadArrive_trans {d : Nat} {w : CtlWord} {h gen epoch src ht32 : Nat} {body : Option Body} {s : State} {s₀ : State} (h₀ : Acts .sc quiet s₀ s) : Acts .sc quiet s₀ (State.leadArrive d w h gen epoch src ht32 body s) := h₀.trans (leadArrive_acts ..)
theorem leadArrive_keep {d : Nat} {w : CtlWord} {h gen epoch src ht32 : Nat} {body : Option Body} {s : State} {s₀ : State} (h₀ : Keep quiet s₀ s) : Keep quiet s₀ (State.leadArrive d w h gen epoch src ht32 body s) := h₀.trans (leadArrive_acts ..).keep

theorem holdDieWord_acts (n : Nat) (w : CtlWord) (s : State) : Acts .sc quiet s (State.holdDieWord n w s) := by
  unfold State.holdDieWord
  repeat' first
    | fail_if_no_progress extract_lets
    | (with_reducible apply Acts.ite) <;> intro _
    | with_reducible apply Acts.refl
    | with_reducible assumption
    | with_reducible apply setPay_trans
    | dsimp -zeta only
theorem holdDieWord_trans {n : Nat} {w : CtlWord} {s : State} {s₀ : State} (h₀ : Acts .sc quiet s₀ s) : Acts .sc quiet s₀ (State.holdDieWord n w s) := h₀.trans (holdDieWord_acts ..)
theorem holdDieWord_keep {n : Nat} {w : CtlWord} {s : State} {s₀ : State} (h₀ : Keep quiet s₀ s) : Keep quiet s₀ (State.holdDieWord n w s) := h₀.trans (holdDieWord_acts ..).keep

theorem leadWithdraw_acts (d : Nat) (w : CtlWord) (h gen : Nat) (s : State) : Acts .sc false s (State.leadWithdraw d w h gen s) := by
  unfold State.leadWithdraw
  repeat' first
    | fail_if_no_progress extract_lets
    | (with_reducible apply Acts.ite) <;> intro _
    | with_reducible apply Acts.refl
    | with_reducible assumption
    | with_reducible apply dieUp_trans
    | with_reducible apply setSlotAt_trans
    | with_reducible apply slotTest_trans
    | with_reducible apply slotStale_trans
    | with_reducible apply staleCount_trans
    | (with_reducible apply Acts.snd; with_reducible assumption)
    | split
    | exact fun h => absurd h Bool.false_ne_true
    | dsimp -zeta only
    | dsimp +zetaDelta -zeta only
theorem leadWithdraw_trans {d : Nat} {w : CtlWord} {h gen : Nat} {s : State} {s₀ : State} (h₀ : Acts .sc false s₀ s) : Acts .sc false s₀ (State.leadWithdraw d w h gen s) := h₀.trans (leadWithdraw_acts ..)
theorem leadWithdraw_keep {d : Nat} {w : CtlWord} {h gen : Nat} {s : State} {s₀ : State} (h₀ : Keep false s₀ s) : Keep false s₀ (State.leadWithdraw d w h gen s) := h₀.trans (leadWithdraw_acts ..).keep

theorem packageWord_acts (n : Nat) (w : CtlWord) (s : State) : Acts .sc false s (State.packageWord n w s) := by
  unfold State.packageWord
  repeat' first
    | fail_if_no_progress extract_lets
    | (with_reducible apply Acts.ite) <;> intro _
    | with_reducible apply Acts.refl
    | with_reducible assumption
    | with_reducible apply dropRx_trans
    | with_reducible apply nameBody_trans
    | with_reducible apply leadArrive_trans
    | with_reducible apply holdDieWord_trans
    | with_reducible apply leadWithdraw_trans
    | (with_reducible apply Acts.snd; with_reducible assumption)
    | split
    | exact fun h => absurd h Bool.false_ne_true
    | dsimp -zeta only
    | dsimp +zetaDelta -zeta only
theorem packageWord_trans {n : Nat} {w : CtlWord} {s : State} {s₀ : State} (h₀ : Acts .sc false s₀ s) : Acts .sc false s₀ (State.packageWord n w s) := h₀.trans (packageWord_acts ..)
theorem packageWord_keep {n : Nat} {w : CtlWord} {s : State} {s₀ : State} (h₀ : Keep false s₀ s) : Keep false s₀ (State.packageWord n w s) := h₀.trans (packageWord_acts ..).keep

theorem retryDieHeld_acts (s : State) : Acts .sc false s (State.retryDieHeld s) := by
  unfold State.retryDieHeld
  repeat' first
    | fail_if_no_progress extract_lets
    | (with_reducible apply Acts.ite) <;> intro _
    | with_reducible apply Acts.refl
    | with_reducible assumption
    | with_reducible apply setPay_trans
    | with_reducible apply packageWord_trans
    | ((with_reducible apply Acts.foldl_trans); intro _ _)
    | exact fun h => absurd h Bool.false_ne_true
    | dsimp -zeta only
    | dsimp +zetaDelta -zeta only
theorem retryDieHeld_trans {s : State} {s₀ : State} (h₀ : Acts .sc false s₀ s) : Acts .sc false s₀ (State.retryDieHeld s) := h₀.trans (retryDieHeld_acts ..)
theorem retryDieHeld_keep {s : State} {s₀ : State} (h₀ : Keep false s₀ s) : Keep false s₀ (State.retryDieHeld s) := h₀.trans (retryDieHeld_acts ..).keep

theorem execLeadDieArrive_acts (d job : Nat) (hallwide : Bool) (hslot gen epoch src ht32 : Nat) (payload : Bool) (ptag : Nat) (s : State) : ActsO .sc false s (execLeadDieArrive d job hallwide hslot gen epoch src ht32 payload ptag s) := by
  unfold execLeadDieArrive
  repeat' first
    | fail_if_no_progress extract_lets
    | (with_reducible apply ActsO.ite) <;> intro _
    | with_reducible apply ActsO.next
    | (with_reducible apply Acts.ite) <;> intro _
    | with_reducible apply Acts.refl
    | with_reducible assumption
    | with_reducible apply takeDieWord_trans
    | with_reducible apply packageWord_trans
    | exact fun h => absurd h Bool.false_ne_true
    | dsimp -zeta only
    | dsimp +zetaDelta -zeta only

theorem execLeadDieWithdraw_acts (d job : Nat) (hallwide : Bool) (hslot gen epoch src ht32 : Nat) (s : State) : ActsO .sc false s (execLeadDieWithdraw d job hallwide hslot gen epoch src ht32 s) := by
  unfold execLeadDieWithdraw
  repeat' first
    | fail_if_no_progress extract_lets
    | (with_reducible apply ActsO.ite) <;> intro _
    | with_reducible apply ActsO.next
    | (with_reducible apply Acts.ite) <;> intro _
    | with_reducible apply Acts.refl
    | with_reducible assumption
    | with_reducible apply takeDieWord_trans
    | with_reducible apply packageWord_trans
    | exact fun h => absurd h Bool.false_ne_true
    | dsimp -zeta only
    | dsimp +zetaDelta -zeta only

theorem execDoneAtDie_acts (n job : Nat) (hallwide : Bool) (hslot gen epoch contrib hash flags : Nat) (s : State) : ActsO .sc false s (execDoneAtDie n job hallwide hslot gen epoch contrib hash flags s) := by
  unfold execDoneAtDie
  repeat' first
    | fail_if_no_progress extract_lets
    | (with_reducible apply ActsO.ite) <;> intro _
    | with_reducible apply ActsO.next
    | (with_reducible apply Acts.ite) <;> intro _
    | with_reducible apply Acts.refl
    | with_reducible assumption
    | with_reducible apply toDie_trans
    | with_reducible apply staleCount_trans
    | with_reducible apply doneOrHold_trans
    | with_reducible apply takeDieWord_trans
    | ((with_reducible apply Acts.foldl_trans); intro _ _)
    | (with_reducible apply Acts.snd; with_reducible assumption)
    | split
    | exact fun h => absurd h Bool.false_ne_true
    | dsimp -zeta only
    | dsimp +zetaDelta -zeta only

theorem bellTargets_acts (j no ht : Nat) (s : State) : Acts .sc quiet s (State.bellTargets j no ht s) := by
  unfold State.bellTargets
  repeat' first
    | fail_if_no_progress extract_lets
    | (with_reducible apply Acts.ite) <;> intro _
    | with_reducible apply Acts.refl
    | with_reducible assumption
    | with_reducible apply stallHead_trans
    | ((with_reducible apply Acts.foldl_trans); intro _ _)
    | (with_reducible apply Acts.snd; with_reducible assumption)
    | split
    | dsimp -zeta only
theorem bellTargets_trans {j no ht : Nat} {s : State} {s₀ : State} (h₀ : Acts .sc quiet s₀ s) : Acts .sc quiet s₀ (State.bellTargets j no ht s) := h₀.trans (bellTargets_acts ..)
theorem bellTargets_keep {j no ht : Nat} {s : State} {s₀ : State} (h₀ : Keep quiet s₀ s) : Keep quiet s₀ (State.bellTargets j no ht s) := h₀.trans (bellTargets_acts ..).keep

theorem execBellWordAtDie_acts (n beat : Nat) (word : BellWord) (s : State) : ActsO .sc quiet s (execBellWordAtDie n beat word s) := by
  unfold execBellWordAtDie
  repeat' first
    | fail_if_no_progress extract_lets
    | (with_reducible apply ActsO.ite) <;> intro _
    | with_reducible apply ActsO.next
    | (with_reducible apply Acts.ite) <;> intro _
    | with_reducible apply Acts.refl
    | with_reducible assumption
    | with_reducible apply put_trans
    | with_reducible apply bump_trans
    | with_reducible apply record_trans
    | with_reducible apply setSync_trans
    | with_reducible apply hbQueueAll_trans
    | with_reducible apply toDie_trans
    | with_reducible apply staleCount_trans
    | with_reducible apply takeDieWord_trans
    | with_reducible apply bellTargets_trans
    | ((with_reducible apply Acts.foldl_trans); intro _ _)
    | split
    | dsimp -zeta only
    | dsimp +zetaDelta -zeta only

theorem execDieBellFire_acts (job : Nat) (s : State) : KeepO quiet s (execDieBellFire job s) := by
  unfold execDieBellFire
  repeat' first
    | fail_if_no_progress extract_lets
    | (with_reducible apply KeepO.ite) <;> intro _
    | with_reducible apply KeepO.next
    | (with_reducible apply Keep.ite) <;> intro _
    | with_reducible apply Keep.refl
    | with_reducible assumption
    | with_reducible apply put_keep
    | with_reducible apply bump_keep
    | with_reducible apply awaitHt_keep
    | with_reducible apply setSync_keep
    | with_reducible apply applyLevel_keep
    | (with_reducible apply Keep.snd; with_reducible assumption)
    | split
    | dsimp -zeta only
    | dsimp +zetaDelta -zeta only

theorem leadLeaves_acts (r : SlotRef) (s : State) : Acts .sc quiet s (State.leadLeaves r s) := by
  unfold State.leadLeaves
  repeat' first
    | fail_if_no_progress extract_lets
    | (with_reducible apply Acts.ite) <;> intro _
    | with_reducible apply Acts.refl
    | with_reducible assumption
    | with_reducible apply setSlotAt_trans
    | with_reducible apply relWaiters_trans
    | with_reducible apply slotTest_trans
    | dsimp -zeta only
    | dsimp +zetaDelta -zeta only
theorem leadLeaves_trans {r : SlotRef} {s : State} {s₀ : State} (h₀ : Acts .sc quiet s₀ s) : Acts .sc quiet s₀ (State.leadLeaves r s) := h₀.trans (leadLeaves_acts ..)
theorem leadLeaves_keep {r : SlotRef} {s : State} {s₀ : State} (h₀ : Keep quiet s₀ s) : Keep quiet s₀ (State.leadLeaves r s) := h₀.trans (leadLeaves_acts ..).keep

theorem memberAtDie_acts (j roll action gen : Nat) (s : State) : Acts .sc false s (State.memberAtDie j roll action gen s) := by
  unfold State.memberAtDie
  repeat' first
    | fail_if_no_progress extract_lets
    | (with_reducible apply Acts.ite) <;> intro _
    | with_reducible apply Acts.refl
    | with_reducible assumption
    | with_reducible apply put_trans
    | with_reducible apply setSync_trans
    | with_reducible apply setSlotAt_trans
    | with_reducible apply slotTest_trans
    | with_reducible apply slotStale_trans
    | with_reducible apply driveFloor_trans
    | with_reducible apply clearLevel_trans
    | with_reducible apply leadLeaves_trans
    | ((with_reducible apply Acts.foldl_trans); intro _ _)
    | split
    | exact fun h => absurd h Bool.false_ne_true
    | dsimp -zeta only
    | dsimp +zetaDelta -zeta only
theorem memberAtDie_trans {j roll action gen : Nat} {s : State} {s₀ : State} (h₀ : Acts .sc false s₀ s) : Acts .sc false s₀ (State.memberAtDie j roll action gen s) := h₀.trans (memberAtDie_acts ..)
theorem memberAtDie_keep {j roll action gen : Nat} {s : State} {s₀ : State} (h₀ : Keep false s₀ s) : Keep false s₀ (State.memberAtDie j roll action gen s) := h₀.trans (memberAtDie_acts ..).keep

theorem execMemberWord_acts (p : Part) (n job txn roll action gen : Nat) (s : State) : ActsO p false s (execMemberWord p n job txn roll action gen s) := by
  unfold execMemberWord
  repeat' first
    | fail_if_no_progress extract_lets
    | (with_reducible apply ActsO.ite) <;> intro _
    | with_reducible apply ActsO.next
    | (with_reducible apply Acts.ite) <;> intro _
    | with_reducible apply Acts.refl
    | with_reducible assumption
    | with_reducible apply setUnit_trans
    | with_reducible apply bump_trans
    | with_reducible apply sendWords_trans
    | with_reducible apply takeWord_trans
    | with_reducible apply toDie_trans
    | with_reducible apply memberAtDie_trans
    | (with_reducible apply Acts.snd; with_reducible assumption)
    | split
    | exact fun h => absurd h Bool.false_ne_true
    | dsimp -zeta only
    | dsimp +zetaDelta -zeta only

theorem execStaleWord_acts (p : Part) (n job : Nat) (hallwide : Bool) (roll hslot gen epoch cause : Nat) (s : State) : ActsO p false s (execStaleWord p n job hallwide roll hslot gen epoch cause s) := by
  unfold execStaleWord
  repeat' first
    | fail_if_no_progress extract_lets
    | (with_reducible apply ActsO.ite) <;> intro _
    | with_reducible apply ActsO.next
    | (with_reducible apply Acts.ite) <;> intro _
    | with_reducible apply Acts.refl
    | with_reducible assumption
    | with_reducible apply setSpare_trans
    | with_reducible apply record_trans
    | with_reducible apply sendWords_trans
    | with_reducible apply takeWord_trans
    | with_reducible apply toDie_trans
    | with_reducible apply slotStale_trans
    | with_reducible apply staleCount_trans
    | (with_reducible apply Acts.snd; with_reducible assumption)
    | split
    | exact fun h => absurd h Bool.false_ne_true
    | dsimp -zeta only
    | dsimp +zetaDelta -zeta only

end Sys2Proof.Machine
end

