-- ==== Sys2Proof/Laws/ActsPipes.lean ====
section
/-! SUPPORT. One lemma an operation: what it keeps (Acts, Keep). -/

namespace Sys2Proof.Machine

open Sys2Proof

set_option linter.unusedTactic false
set_option linter.unreachableTactic false
set_option linter.unusedVariables false

variable {quiet : Bool}

theorem pipeStates_acts (s : State) : Acts .fd quiet s (State.pipeStates s) := by
  unfold State.pipeStates
  repeat' first
    | fail_if_no_progress extract_lets
    | (with_reducible apply Acts.ite) <;> intro _
    | with_reducible apply Acts.refl
    | with_reducible assumption
    | with_reducible apply put_trans
    | ((with_reducible apply Acts.foldl_trans); intro _ _)
    | split
    | dsimp -zeta only
    | dsimp +zetaDelta -zeta only
theorem pipeStates_trans {s : State} {s₀ : State} (h₀ : Acts .fd quiet s₀ s) : Acts .fd quiet s₀ (State.pipeStates s) := h₀.trans (pipeStates_acts ..)
theorem pipeStates_keep {s : State} {s₀ : State} (h₀ : Keep quiet s₀ s) : Keep quiet s₀ (State.pipeStates s) := h₀.trans (pipeStates_acts ..).keep

theorem pipesShort_acts (s : State) : Acts .fd quiet s (State.pipesShort s) := by
  unfold State.pipesShort
  repeat' first
    | fail_if_no_progress extract_lets
    | (with_reducible apply Acts.ite) <;> intro _
    | with_reducible apply Acts.refl
    | with_reducible assumption
    | with_reducible apply putFlag_trans
    | with_reducible apply faultLog_trans
    | with_reducible apply faultAlert_trans
    | split
    | dsimp -zeta only
    | dsimp +zetaDelta -zeta only
theorem pipesShort_trans {s : State} {s₀ : State} (h₀ : Acts .fd quiet s₀ s) : Acts .fd quiet s₀ (State.pipesShort s) := h₀.trans (pipesShort_acts ..)
theorem pipesShort_keep {s : State} {s₀ : State} (h₀ : Keep quiet s₀ s) : Keep quiet s₀ (State.pipesShort s) := h₀.trans (pipesShort_acts ..).keep

theorem setPipe_acts (i : Nat) (x : Pipe) (s : State) : Acts .fd quiet s (State.setPipe i x s) := by
  unfold State.setPipe
  repeat' first
    | fail_if_no_progress extract_lets
    | (with_reducible apply Acts.ite) <;> intro _
    | with_reducible apply Acts.refl
    | with_reducible assumption
    | with_reducible apply setSpare_trans
    | dsimp -zeta only
theorem setPipe_trans {i : Nat} {x : Pipe} {s : State} {s₀ : State} (h₀ : Acts .fd quiet s₀ s) : Acts .fd quiet s₀ (State.setPipe i x s) := h₀.trans (setPipe_acts ..)
theorem setPipe_keep {i : Nat} {x : Pipe} {s : State} {s₀ : State} (h₀ : Keep quiet s₀ s) : Keep quiet s₀ (State.setPipe i x s) := h₀.trans (setPipe_acts ..).keep

theorem tableChanged_acts (s : State) : Acts .fd quiet s (State.tableChanged s) := by
  unfold State.tableChanged
  repeat' first
    | fail_if_no_progress extract_lets
    | (with_reducible apply Acts.ite) <;> intro _
    | with_reducible apply Acts.refl
    | with_reducible assumption
    | with_reducible apply setSpare_trans
    | (with_reducible apply Acts.snd; with_reducible assumption)
    | split
    | dsimp -zeta only
theorem tableChanged_trans {s : State} {s₀ : State} (h₀ : Acts .fd quiet s₀ s) : Acts .fd quiet s₀ (State.tableChanged s) := h₀.trans (tableChanged_acts ..)
theorem tableChanged_keep {s : State} {s₀ : State} (h₀ : Keep quiet s₀ s) : Keep quiet s₀ (State.tableChanged s) := h₀.trans (tableChanged_acts ..).keep

theorem retireTest_acts (i : Nat) (s : State) : Acts .fd quiet s (State.retireTest i s) := by
  unfold State.retireTest
  repeat' first
    | fail_if_no_progress extract_lets
    | (with_reducible apply Acts.ite) <;> intro _
    | with_reducible apply Acts.refl
    | with_reducible assumption
    | with_reducible apply put_trans
    | with_reducible apply faultLog_trans
    | with_reducible apply pipeStates_trans
    | with_reducible apply pipesShort_trans
    | split
    | dsimp -zeta only
    | dsimp +zetaDelta -zeta only
theorem retireTest_trans {i : Nat} {s : State} {s₀ : State} (h₀ : Acts .fd quiet s₀ s) : Acts .fd quiet s₀ (State.retireTest i s) := h₀.trans (retireTest_acts ..)
theorem retireTest_keep {i : Nat} {s : State} {s₀ : State} (h₀ : Keep quiet s₀ s) : Keep quiet s₀ (State.retireTest i s) := h₀.trans (retireTest_acts ..).keep

theorem countPipe_acts (i : Nat) (s : State) : Acts .fd quiet s (State.countPipe i s) := by
  unfold State.countPipe
  repeat' first
    | fail_if_no_progress extract_lets
    | (with_reducible apply Acts.ite) <;> intro _
    | with_reducible apply Acts.refl
    | with_reducible assumption
    | with_reducible apply setPipe_trans
    | with_reducible apply tableChanged_trans
    | with_reducible apply retireTest_trans
    | dsimp -zeta only
    | dsimp +zetaDelta -zeta only
theorem countPipe_trans {i : Nat} {s : State} {s₀ : State} (h₀ : Acts .fd quiet s₀ s) : Acts .fd quiet s₀ (State.countPipe i s) := h₀.trans (countPipe_acts ..)
theorem countPipe_keep {i : Nat} {s : State} {s₀ : State} (h₀ : Keep quiet s₀ s) : Keep quiet s₀ (State.countPipe i s) := h₀.trans (countPipe_acts ..).keep

theorem pipeTick_acts (temp : Int) (s : State) : Acts .fd quiet s (State.pipeTick temp s) := by
  unfold State.pipeTick
  repeat' first
    | fail_if_no_progress extract_lets
    | (with_reducible apply Acts.ite) <;> intro _
    | with_reducible apply Acts.refl
    | with_reducible assumption
    | with_reducible apply setSpare_trans
    | with_reducible apply pipeStates_trans
    | with_reducible apply pipesShort_trans
    | split
    | dsimp -zeta only
    | dsimp +zetaDelta -zeta only
theorem pipeTick_trans {temp : Int} {s : State} {s₀ : State} (h₀ : Acts .fd quiet s₀ s) : Acts .fd quiet s₀ (State.pipeTick temp s) := h₀.trans (pipeTick_acts ..)
theorem pipeTick_keep {temp : Int} {s : State} {s₀ : State} (h₀ : Keep quiet s₀ s) : Keep quiet s₀ (State.pipeTick temp s) := h₀.trans (pipeTick_acts ..).keep

end Sys2Proof.Machine
end

