-- ==== Sys2Proof/Laws/ActsPayload.lean ====
section
/-! SUPPORT. One lemma an operation: what it keeps (Acts, Keep). -/

namespace Sys2Proof.Machine

open Sys2Proof

set_option linter.unusedTactic false
set_option linter.unreachableTactic false
set_option linter.unusedVariables false

variable {quiet : Bool}

theorem resultGone_acts (p : Part) (job seq : Nat) (s : State) : Acts p quiet s (State.resultGone p job seq s) := by
  unfold State.resultGone
  repeat' first
    | fail_if_no_progress extract_lets
    | (with_reducible apply Acts.ite) <;> intro _
    | with_reducible apply Acts.refl
    | with_reducible assumption
    | with_reducible apply modLink_trans
    | ((with_reducible apply Acts.foldl_trans); intro _ _)
    | split
    | dsimp -zeta only
theorem resultGone_trans {p : Part} {job seq : Nat} {s : State} {s₀ : State} (h₀ : Acts p quiet s₀ s) : Acts p quiet s₀ (State.resultGone p job seq s) := h₀.trans (resultGone_acts ..)
theorem resultGone_keep {p : Part} {job seq : Nat} {s : State} {s₀ : State} (h₀ : Keep quiet s₀ s) : Keep quiet s₀ (State.resultGone p job seq s) := h₀.trans (resultGone_acts ..).keep

theorem loseBody_acts (p : Part) (n fkind job tag : Nat) (s : State) : Acts p false s (State.loseBody p n fkind job tag s) := by
  unfold State.loseBody
  repeat' first
    | fail_if_no_progress extract_lets
    | (with_reducible apply Acts.ite) <;> intro _
    | with_reducible apply Acts.refl
    | with_reducible assumption
    | with_reducible apply modRx_trans
    | with_reducible apply dropRx_trans
    | with_reducible apply retryHeld_trans
    | with_reducible apply loseResult_trans
    | with_reducible apply retryDieHeld_trans
    | with_reducible apply resultGone_trans
    | (with_reducible apply Acts.snd; with_reducible assumption)
    | split
    | exact fun h => absurd h Bool.false_ne_true
    | dsimp -zeta only
    | dsimp +zetaDelta -zeta only
theorem loseBody_trans {p : Part} {n fkind job tag : Nat} {s : State} {s₀ : State} (h₀ : Acts p false s₀ s) : Acts p false s₀ (State.loseBody p n fkind job tag s) := h₀.trans (loseBody_acts ..)
theorem loseBody_keep {p : Part} {n fkind job tag : Nat} {s : State} {s₀ : State} (h₀ : Keep false s₀ s) : Keep false s₀ (State.loseBody p n fkind job tag s) := h₀.trans (loseBody_acts ..).keep

theorem fragment_acts (p : Part) (n : Nat) (f : Fragment) (s : State) : Acts p false s (State.fragment p n f s) := by
  unfold State.fragment
  repeat' first
    | fail_if_no_progress extract_lets
    | (with_reducible apply Acts.ite) <;> intro _
    | with_reducible apply Acts.refl
    | with_reducible assumption
    | with_reducible apply sendResult_trans
    | with_reducible apply modRx_trans
    | with_reducible apply dropRx_trans
    | with_reducible apply retryHeld_trans
    | with_reducible apply takeResult_trans
    | with_reducible apply retryDieHeld_trans
    | with_reducible apply loseBody_trans
    | ((with_reducible apply Acts.foldl_trans); intro _ _)
    | (with_reducible apply Acts.snd; with_reducible assumption)
    | split
    | exact fun h => absurd h Bool.false_ne_true
    | dsimp -zeta only
    | dsimp +zetaDelta -zeta only
theorem fragment_trans {p : Part} {n : Nat} {f : Fragment} {s : State} {s₀ : State} (h₀ : Acts p false s₀ s) : Acts p false s₀ (State.fragment p n f s) := h₀.trans (fragment_acts ..)
theorem fragment_keep {p : Part} {n : Nat} {f : Fragment} {s : State} {s₀ : State} (h₀ : Keep false s₀ s) : Keep false s₀ (State.fragment p n f s) := h₀.trans (fragment_acts ..).keep

theorem execFragmentReceive_acts (p : Part) (n : Nat) (f : Fragment) (s : State) : ActsO p false s (execFragmentReceive p n f s) := by
  unfold execFragmentReceive
  repeat' first
    | fail_if_no_progress extract_lets
    | (with_reducible apply ActsO.ite) <;> intro _
    | with_reducible apply ActsO.next
    | (with_reducible apply Acts.ite) <;> intro _
    | with_reducible apply Acts.refl
    | with_reducible assumption
    | with_reducible apply repeatBody_trans
    | with_reducible apply fragment_trans
    | split
    | exact fun h => absurd h Bool.false_ne_true
    | dsimp -zeta only

theorem execBodyCheck_acts (p : Part) (n fkind job tag : Nat) (s : State) : KeepO quiet s (execBodyCheck p n fkind job tag s) := by
  unfold execBodyCheck
  repeat' first
    | fail_if_no_progress extract_lets
    | (with_reducible apply KeepO.ite) <;> intro _
    | with_reducible apply KeepO.next
    | (with_reducible apply Keep.ite) <;> intro _
    | with_reducible apply Keep.refl
    | with_reducible assumption
    | with_reducible apply awaitBeat_keep
    | with_reducible apply dropRx_keep
    | with_reducible apply requestBody_keep
    | (with_reducible apply Keep.snd; with_reducible assumption)
    | split
    | dsimp -zeta only
    | dsimp +zetaDelta -zeta only

theorem execRepeatRequestTimer_acts (p : Part) (n fkind job tag : Nat) (s : State) : KeepO false s (execRepeatRequestTimer p n fkind job tag s) := by
  unfold execRepeatRequestTimer
  repeat' first
    | fail_if_no_progress extract_lets
    | (with_reducible apply KeepO.ite) <;> intro _
    | with_reducible apply KeepO.next
    | (with_reducible apply Keep.ite) <;> intro _
    | with_reducible apply Keep.refl
    | with_reducible assumption
    | with_reducible apply awaitBeat_keep
    | with_reducible apply requestBody_keep
    | with_reducible apply loseBody_keep
    | (with_reducible apply Keep.snd; with_reducible assumption)
    | split
    | exact fun h => absurd h Bool.false_ne_true
    | dsimp -zeta only
    | dsimp +zetaDelta -zeta only

theorem execRepeatRequest_acts (p : Part) (n job tag : Nat) (s : State) : ActsO p quiet s (execRepeatRequest p n job tag s) := by
  unfold execRepeatRequest
  repeat' first
    | fail_if_no_progress extract_lets
    | (with_reducible apply ActsO.ite) <;> intro _
    | with_reducible apply ActsO.next
    | (with_reducible apply Acts.ite) <;> intro _
    | with_reducible apply Acts.refl
    | with_reducible assumption
    | with_reducible apply repeatBody_trans
    | dsimp -zeta only

theorem execCloseWord_acts (n job bucket seq epoch contrib hash flags : Nat) (s : State) : ActsO .fd quiet s (execCloseWord n job bucket seq epoch contrib hash flags s) := by
  unfold execCloseWord
  repeat' first
    | fail_if_no_progress extract_lets
    | (with_reducible apply ActsO.ite) <;> intro _
    | with_reducible apply ActsO.next
    | (with_reducible apply Acts.ite) <;> intro _
    | with_reducible apply Acts.refl
    | with_reducible assumption
    | with_reducible apply dropRx_trans
    | with_reducible apply nameBody_trans
    | with_reducible apply sendMembers_trans
    | with_reducible apply takeWord_trans
    | with_reducible apply onWord_trans
    | intro _
    | (with_reducible apply Acts.snd; with_reducible assumption)
    | split
    | dsimp -zeta only
    | dsimp +zetaDelta -zeta only

theorem endCombine_trans {c : Combine} {f : State → State} {s₀ s : State} (h : ∀ t, Acts .fd quiet t (f t)) (k : Acts .fd quiet s₀ s) :
    Acts .fd quiet s₀ (s.endCombine c f) := by
  unfold State.endCombine
  exact retryHeld_trans ((pipeStates_trans (setPipe_trans (setSpare_trans k))).trans (h _))

theorem endCombine_keep {c : Combine} {f : State → State} {s₀ s : State} (h : ∀ t, Keep quiet t (f t)) (k : Keep quiet s₀ s) :
    Keep quiet s₀ (s.endCombine c f) := by
  unfold State.endCombine
  exact retryHeld_keep ((pipeStates_keep (setPipe_keep (setSpare_keep k))).trans (h _))

theorem combineResult_acts (c : Combine) (x : PayIn) (s : State) : Acts .fd quiet s (State.combineResult c x s) := by
  unfold State.combineResult
  repeat' first
    | fail_if_no_progress extract_lets
    | (with_reducible apply Acts.ite) <;> intro _
    | with_reducible apply Acts.refl
    | with_reducible assumption
    | with_reducible apply setSpare_trans
    | with_reducible apply applyArrive_trans
    | with_reducible apply pipeStates_trans
    | with_reducible apply endCombine_trans
    | intro _
    | (with_reducible apply Acts.snd; with_reducible assumption)
    | split
    | dsimp -zeta only
    | dsimp +zetaDelta -zeta only
theorem combineResult_trans {c : Combine} {x : PayIn} {s : State} {s₀ : State} (h₀ : Acts .fd quiet s₀ s) : Acts .fd quiet s₀ (State.combineResult c x s) := h₀.trans (combineResult_acts ..)
theorem combineResult_keep {c : Combine} {x : PayIn} {s : State} {s₀ : State} (h₀ : Keep quiet s₀ s) : Keep quiet s₀ (State.combineResult c x s) := h₀.trans (combineResult_acts ..).keep

theorem execPipeCombineDone_acts (i : Nat) (mismatch : Bool) (s : State) : ActsO .fd quiet s (execPipeCombineDone i mismatch s) := by
  unfold execPipeCombineDone
  repeat' first
    | fail_if_no_progress extract_lets
    | (with_reducible apply ActsO.ite) <;> intro _
    | with_reducible apply ActsO.next
    | (with_reducible apply Acts.ite) <;> intro _
    | with_reducible apply Acts.refl
    | with_reducible assumption
    | with_reducible apply bump_trans
    | with_reducible apply setSpare_trans
    | with_reducible apply faultLog_trans
    | with_reducible apply startCombine_trans
    | with_reducible apply pipeStates_trans
    | with_reducible apply countPipe_trans
    | with_reducible apply combineResult_trans
    | ((with_reducible apply Acts.foldl_trans); intro _ _)
    | (with_reducible apply Acts.snd; with_reducible assumption)
    | split
    | dsimp -zeta only
    | dsimp +zetaDelta -zeta only

theorem execResultFormed_acts (h : Nat) (s : State) : ActsO .fd quiet s (execResultFormed h s) := by
  unfold execResultFormed
  repeat' first
    | fail_if_no_progress extract_lets
    | (with_reducible apply ActsO.ite) <;> intro _
    | with_reducible apply ActsO.next
    | (with_reducible apply Acts.ite) <;> intro _
    | with_reducible apply Acts.refl
    | with_reducible assumption
    | with_reducible apply put_trans
    | with_reducible apply sendResult_trans
    | with_reducible apply sendMembers_trans
    | with_reducible apply sendDone_trans
    | with_reducible apply recordClose_trans
    | with_reducible apply endCombine_trans
    | intro _
    | ((with_reducible apply Acts.foldl_trans); intro _ _)
    | (with_reducible apply Acts.snd; with_reducible assumption)
    | split
    | dsimp -zeta only
    | dsimp +zetaDelta -zeta only
    | exact Acts.refl ..

theorem execPipeRead_acts (m : MbGo) (s : State) (hd : quiet = true → m.dma = false := by first | assumption | nofun) : ActsO m.part quiet s (execPipeRead m s) := by
  unfold execPipeRead
  repeat' first
    | fail_if_no_progress extract_lets
    | ((with_reducible apply mailbox_fd); intro _ _)
    | ((with_reducible apply mailbox_sc); intro _ _)
    | ((with_reducible apply mailbox_own2880); intro _ _)
    | ((with_reducible apply mailbox_any); intro _ _)
    | (with_reducible apply Acts.iteS) <;> intro _
    | (with_reducible apply Acts.iteS2) <;> intro _
    | (with_reducible apply ActsO.ite) <;> intro _
    | with_reducible apply ActsO.next
    | (with_reducible apply Acts.ite) <;> intro _
    | with_reducible apply Acts.refl
    | with_reducible assumption
    | dsimp -zeta only
    | split
    | dsimp -zeta only
    | dsimp +zetaDelta -zeta only

theorem execPayRead_acts (m : MbGo) (s : State) (hd : quiet = true → m.dma = false := by first | assumption | nofun) : ActsO m.part quiet s (execPayRead m s) := by
  unfold execPayRead
  repeat' first
    | fail_if_no_progress extract_lets
    | ((with_reducible apply mailbox_fd); intro _ _)
    | ((with_reducible apply mailbox_sc); intro _ _)
    | ((with_reducible apply mailbox_own2880); intro _ _)
    | ((with_reducible apply mailbox_any); intro _ _)
    | (with_reducible apply Acts.iteS) <;> intro _
    | (with_reducible apply Acts.iteS2) <;> intro _
    | (with_reducible apply ActsO.ite) <;> intro _
    | with_reducible apply ActsO.next
    | (with_reducible apply Acts.ite) <;> intro _
    | with_reducible apply Acts.refl
    | with_reducible assumption
    | dsimp -zeta only
    | ((with_reducible apply Acts.foldl_trans); intro _ _)
    | (with_reducible apply Acts.snd; with_reducible assumption)
    | split
    | dsimp -zeta only
    | dsimp +zetaDelta -zeta only

end Sys2Proof.Machine
end

