-- ==== Sys2Proof/Laws/ActsAttendance.lean ====
section
/-! SUPPORT. One lemma an operation: what it keeps (Acts, Keep). -/

namespace Sys2Proof.Machine

open Sys2Proof

set_option linter.unusedTactic false
set_option linter.unreachableTactic false
set_option linter.unusedVariables false

variable {quiet : Bool}

theorem execAttRecord_acts (p : Part) (n : Nat) (x : Rec) (s : State) : ActsO p quiet s (execAttRecord p n x s) := by
  unfold execAttRecord
  repeat' first
    | fail_if_no_progress extract_lets
    | (with_reducible apply ActsO.ite) <;> intro _
    | with_reducible apply ActsO.next
    | (with_reducible apply Acts.ite) <;> intro _
    | with_reducible apply Acts.refl
    | with_reducible assumption
    | with_reducible apply setDie_trans
    | with_reducible apply bump_trans
    | with_reducible apply attTake_trans
    | ((with_reducible apply Acts.foldl_trans); intro _ _)
    | (with_reducible apply Acts.snd; with_reducible assumption)
    | split
    | dsimp -zeta only
    | dsimp +zetaDelta -zeta only

theorem execBlockTimeout_acts (s : State) : KeepO quiet s (execBlockTimeout s) := by
  unfold execBlockTimeout
  repeat' first
    | fail_if_no_progress extract_lets
    | (with_reducible apply KeepO.ite) <;> intro _
    | with_reducible apply KeepO.next
    | (with_reducible apply Keep.ite) <;> intro _
    | with_reducible apply Keep.refl
    | with_reducible assumption
    | with_reducible apply closeBlock_keep
    | with_reducible apply awaitNow_keep
    | (with_reducible apply Keep.snd; with_reducible assumption)
    | split
    | dsimp -zeta only

theorem execRecordAgeDrop_acts (s : State) : KeepO quiet s (execRecordAgeDrop s) := by
  unfold execRecordAgeDrop
  repeat' first
    | fail_if_no_progress extract_lets
    | (with_reducible apply KeepO.ite) <;> intro _
    | with_reducible apply KeepO.next
    | (with_reducible apply Keep.ite) <;> intro _
    | with_reducible apply Keep.refl
    | with_reducible assumption
    | with_reducible apply setDie_keep
    | with_reducible apply bump_keep
    | with_reducible apply awaitNow_keep
    | ((with_reducible apply Keep.foldl_trans); intro _ _)
    | (with_reducible apply Keep.snd; with_reducible assumption)
    | split
    | dsimp -zeta only
    | dsimp +zetaDelta -zeta only

theorem attRegs_acts (s : State) : Acts .fd quiet s (State.attRegs s) := by
  unfold State.attRegs
  repeat' first
    | fail_if_no_progress extract_lets
    | (with_reducible apply Acts.ite) <;> intro _
    | with_reducible apply Acts.refl
    | with_reducible assumption
    | with_reducible apply put_trans
    | with_reducible apply putFlag_trans
    | (with_reducible apply Acts.snd; with_reducible assumption)
    | split
    | dsimp -zeta only
    | dsimp +zetaDelta -zeta only
theorem attRegs_trans {s : State} {s₀ : State} (h₀ : Acts .fd quiet s₀ s) : Acts .fd quiet s₀ (State.attRegs s) := h₀.trans (attRegs_acts ..)
theorem attRegs_keep {s : State} {s₀ : State} (h₀ : Keep quiet s₀ s) : Keep quiet s₀ (State.attRegs s) := h₀.trans (attRegs_acts ..).keep

theorem execSpillWrite_acts (s : State) : ActsO .fd quiet s (execSpillWrite s) := by
  unfold execSpillWrite
  repeat' first
    | fail_if_no_progress extract_lets
    | (with_reducible apply ActsO.ite) <;> intro _
    | with_reducible apply ActsO.next
    | (with_reducible apply Acts.ite) <;> intro _
    | with_reducible apply Acts.refl
    | with_reducible assumption
    | with_reducible apply bump_trans
    | with_reducible apply setArch_trans
    | with_reducible apply attRegs_trans
    | ((with_reducible apply Acts.foldl_trans); intro _ _)
    | (with_reducible apply Acts.snd; with_reducible assumption)
    | split
    | dsimp -zeta only
    | dsimp +zetaDelta -zeta only

theorem execSpillResume_acts (s : State) : ActsO .fd quiet s (execSpillResume s) := by
  unfold execSpillResume
  repeat' first
    | fail_if_no_progress extract_lets
    | (with_reducible apply ActsO.ite) <;> intro _
    | with_reducible apply ActsO.next
    | (with_reducible apply Acts.ite) <;> intro _
    | with_reducible apply Acts.refl
    | with_reducible assumption
    | with_reducible apply setArch_trans
    | with_reducible apply attRegs_trans
    | dsimp -zeta only

theorem sendRules_acts (n : Nat) (s : State) : Acts .fd quiet s (State.sendRules n s) := by
  unfold State.sendRules
  repeat' first
    | fail_if_no_progress extract_lets
    | (with_reducible apply Acts.ite) <;> intro _
    | with_reducible apply Acts.refl
    | with_reducible assumption
    | with_reducible apply modLink_trans
    | split
    | dsimp -zeta only
theorem sendRules_trans {n : Nat} {s : State} {s₀ : State} (h₀ : Acts .fd quiet s₀ s) : Acts .fd quiet s₀ (State.sendRules n s) := h₀.trans (sendRules_acts ..)
theorem sendRules_keep {n : Nat} {s : State} {s₀ : State} (h₀ : Keep quiet s₀ s) : Keep quiet s₀ (State.sendRules n s) := h₀.trans (sendRules_acts ..).keep

theorem ruleChanged_acts (s : State) : Acts .fd quiet s (State.ruleChanged s) := by
  unfold State.ruleChanged
  repeat' first
    | fail_if_no_progress extract_lets
    | (with_reducible apply Acts.ite) <;> intro _
    | with_reducible apply Acts.refl
    | with_reducible assumption
    | with_reducible apply setArch_trans
    | dsimp -zeta only
theorem ruleChanged_trans {s : State} {s₀ : State} (h₀ : Acts .fd quiet s₀ s) : Acts .fd quiet s₀ (State.ruleChanged s) := h₀.trans (ruleChanged_acts ..)
theorem ruleChanged_keep {s : State} {s₀ : State} (h₀ : Keep quiet s₀ s) : Keep quiet s₀ (State.ruleChanged s) := h₀.trans (ruleChanged_acts ..).keep

theorem execRuleSetSend_acts (s : State) : KeepO quiet s (execRuleSetSend s) := by
  unfold execRuleSetSend
  repeat' first
    | fail_if_no_progress extract_lets
    | (with_reducible apply KeepO.ite) <;> intro _
    | with_reducible apply KeepO.next
    | (with_reducible apply Keep.ite) <;> intro _
    | with_reducible apply Keep.refl
    | with_reducible assumption
    | with_reducible apply setArch_keep
    | with_reducible apply awaitBeat_keep
    | with_reducible apply periodic_keep
    | with_reducible apply sendRules_keep
    | ((with_reducible apply Keep.foldl_trans); intro _ _)
    | (with_reducible apply Keep.snd; with_reducible assumption)
    | split
    | dsimp -zeta only
    | dsimp +zetaDelta -zeta only

theorem execRuleRecordAtDie_acts (n : Nat) (r : RuleRec) (s : State) : ActsO .sc quiet s (execRuleRecordAtDie n r s) := by
  unfold execRuleRecordAtDie
  repeat' first
    | fail_if_no_progress extract_lets
    | (with_reducible apply ActsO.ite) <;> intro _
    | with_reducible apply ActsO.next
    | (with_reducible apply Acts.ite) <;> intro _
    | with_reducible apply Acts.refl
    | with_reducible assumption
    | with_reducible apply setDie_trans
    | with_reducible apply modLink_trans
    | ((with_reducible apply Acts.foldl_trans); intro _ _)
    | split
    | dsimp -zeta only
    | dsimp +zetaDelta -zeta only

theorem execRuleSetAdopt_acts (s : State) : KeepO quiet s (execRuleSetAdopt s) := by
  unfold execRuleSetAdopt
  repeat' first
    | fail_if_no_progress extract_lets
    | (with_reducible apply KeepO.ite) <;> intro _
    | with_reducible apply KeepO.next
    | (with_reducible apply Keep.ite) <;> intro _
    | with_reducible apply Keep.refl
    | with_reducible assumption
    | with_reducible apply setDie_keep
    | with_reducible apply awaitBeat_keep
    | split
    | dsimp -zeta only
    | dsimp +zetaDelta -zeta only

theorem dropRules_acts (s : State) : Acts .sc quiet s (State.dropRules s) := by
  unfold State.dropRules
  repeat' first
    | fail_if_no_progress extract_lets
    | (with_reducible apply Acts.ite) <;> intro _
    | with_reducible apply Acts.refl
    | with_reducible assumption
    | with_reducible apply setDie_trans
    | dsimp -zeta only
theorem dropRules_trans {s : State} {s₀ : State} (h₀ : Acts .sc quiet s₀ s) : Acts .sc quiet s₀ (State.dropRules s) := h₀.trans (dropRules_acts ..)
theorem dropRules_keep {s : State} {s₀ : State} (h₀ : Keep quiet s₀ s) : Keep quiet s₀ (State.dropRules s) := h₀.trans (dropRules_acts ..).keep

theorem execAttTokenRefill_acts (s : State) : KeepO quiet s (execAttTokenRefill s) := by
  unfold execAttTokenRefill
  repeat' first
    | fail_if_no_progress extract_lets
    | (with_reducible apply KeepO.ite) <;> intro _
    | with_reducible apply KeepO.next
    | (with_reducible apply Keep.ite) <;> intro _
    | with_reducible apply Keep.refl
    | with_reducible assumption
    | with_reducible apply setArch_keep
    | with_reducible apply periodic_keep
    | dsimp -zeta only
    | dsimp +zetaDelta -zeta only

theorem execAttQuota_acts (m : MbGo) (s : State) (hd : quiet = true → m.dma = false := by first | assumption | nofun) : ActsO m.part quiet s (execAttQuota m s) := by
  unfold execAttQuota
  repeat' first
    | fail_if_no_progress extract_lets
    | ((with_reducible apply mailbox_fd); intro _ _)
    | ((with_reducible apply mailbox_sc); intro _ _)
    | ((with_reducible apply mailbox_own2880); intro _ _)
    | ((with_reducible apply mailbox_any); intro _ _)
    | (with_reducible apply Acts.iteS) <;> intro _
    | (with_reducible apply Acts.iteS2) <;> intro _
    | (with_reducible apply ActsO.ite) <;> intro _
    | with_reducible apply ActsO.next
    | (with_reducible apply Acts.ite) <;> intro _
    | with_reducible apply Acts.refl
    | with_reducible assumption
    | dsimp -zeta only
    | with_reducible apply put_trans
    | split
    | dsimp -zeta only

theorem execAttFlush_acts (m : MbGo) (s : State) (hd : quiet = true → m.dma = false := by first | assumption | nofun) : ActsO m.part quiet s (execAttFlush m s) := by
  unfold execAttFlush
  repeat' first
    | fail_if_no_progress extract_lets
    | ((with_reducible apply mailbox_fd); intro _ _)
    | ((with_reducible apply mailbox_sc); intro _ _)
    | ((with_reducible apply mailbox_own2880); intro _ _)
    | ((with_reducible apply mailbox_any); intro _ _)
    | (with_reducible apply Acts.iteS) <;> intro _
    | (with_reducible apply Acts.iteS2) <;> intro _
    | (with_reducible apply ActsO.ite) <;> intro _
    | with_reducible apply ActsO.next
    | (with_reducible apply Acts.ite) <;> intro _
    | with_reducible apply Acts.refl
    | with_reducible assumption
    | dsimp -zeta only
    | with_reducible apply closeBlock_trans
    | with_reducible apply attRegs_trans
    | split
    | dsimp -zeta only

theorem winSelect_acts (v : Nat) (s : State) : Acts .fd quiet s (State.winSelect v s) := by
  unfold State.winSelect
  repeat' first
    | fail_if_no_progress extract_lets
    | (with_reducible apply Acts.ite) <;> intro _
    | with_reducible apply Acts.refl
    | with_reducible assumption
    | with_reducible apply put_trans
    | with_reducible apply setArch_trans
    | dsimp -zeta only
    | dsimp +zetaDelta -zeta only
theorem winSelect_trans {v : Nat} {s : State} {s₀ : State} (h₀ : Acts .fd quiet s₀ s) : Acts .fd quiet s₀ (State.winSelect v s) := h₀.trans (winSelect_acts ..)
theorem winSelect_keep {v : Nat} {s : State} {s₀ : State} (h₀ : Keep quiet s₀ s) : Keep quiet s₀ (State.winSelect v s) := h₀.trans (winSelect_acts ..).keep

theorem execAttWinLoaded_acts (s : State) : ActsO .fd quiet s (execAttWinLoaded s) := by
  unfold execAttWinLoaded
  repeat' first
    | fail_if_no_progress extract_lets
    | (with_reducible apply ActsO.ite) <;> intro _
    | with_reducible apply ActsO.next
    | (with_reducible apply Acts.ite) <;> intro _
    | with_reducible apply Acts.refl
    | with_reducible assumption
    | with_reducible apply put_trans
    | with_reducible apply putFlag_trans
    | with_reducible apply bump_trans
    | with_reducible apply setArch_trans
    | (with_reducible apply Acts.snd; with_reducible assumption)
    | split
    | dsimp -zeta only
    | dsimp +zetaDelta -zeta only

theorem attDma_acts (a : List Nat) (s : State) : Acts .fd false s (State.attDma a s).2 := by
  unfold State.attDma
  repeat' first
    | fail_if_no_progress extract_lets
    | (with_reducible apply Acts.iteS) <;> intro _
    | (with_reducible apply Acts.iteS2) <;> intro _
    | (with_reducible apply Acts.ite) <;> intro _
    | with_reducible apply Acts.refl
    | with_reducible assumption
    | dsimp -zeta only
    | with_reducible apply bump_trans
    | with_reducible apply dmaWrite_trans
    | exact fun h => absurd h Bool.false_ne_true
    | dsimp -zeta only
    | dsimp +zetaDelta -zeta only
theorem attDma_trans {a : List Nat} {s : State} {s₀ : State} (h₀ : Acts .fd false s₀ s) : Acts .fd false s₀ (State.attDma a s).2 := h₀.trans (attDma_acts ..)
theorem attDma_keep {a : List Nat} {s : State} {s₀ : State} (h₀ : Keep false s₀ s) : Keep false s₀ (State.attDma a s).2 := h₀.trans (attDma_acts ..).keep

theorem attDmaResume_acts (s : State) : Acts .fd false s (State.attDmaResume s) := by
  unfold State.attDmaResume
  repeat' first
    | fail_if_no_progress extract_lets
    | (with_reducible apply Acts.ite) <;> intro _
    | with_reducible apply Acts.refl
    | with_reducible assumption
    | with_reducible apply mbComplete_trans
    | with_reducible apply attDma_trans
    | ((with_reducible apply Acts.foldl_trans); intro _ _)
    | (with_reducible apply Acts.snd; with_reducible assumption)
    | split
    | exact fun h => absurd h Bool.false_ne_true
    | dsimp -zeta only
    | dsimp +zetaDelta -zeta only
theorem attDmaResume_trans {s : State} {s₀ : State} (h₀ : Acts .fd false s₀ s) : Acts .fd false s₀ (State.attDmaResume s) := h₀.trans (attDmaResume_acts ..)
theorem attDmaResume_keep {s : State} {s₀ : State} (h₀ : Keep false s₀ s) : Keep false s₀ (State.attDmaResume s) := h₀.trans (attDmaResume_acts ..).keep

theorem execAttDma_acts (m : MbGo) (s : State) : ActsO m.part false s (execAttDma m s) := by
  have hd : false = true → m.dma = false := nofun
  unfold execAttDma
  repeat' first
    | fail_if_no_progress extract_lets
    | ((with_reducible apply mailbox_fd); intro _ _)
    | ((with_reducible apply mailbox_sc); intro _ _)
    | ((with_reducible apply mailbox_own2880); intro _ _)
    | ((with_reducible apply mailbox_any); intro _ _)
    | (with_reducible apply Acts.iteS) <;> intro _
    | (with_reducible apply Acts.iteS2) <;> intro _
    | (with_reducible apply ActsO.ite) <;> intro _
    | with_reducible apply ActsO.next
    | (with_reducible apply Acts.ite) <;> intro _
    | with_reducible apply Acts.refl
    | with_reducible assumption
    | dsimp -zeta only
    | with_reducible apply attDma_trans
    | split
    | exact fun h => absurd h Bool.false_ne_true
    | dsimp -zeta only
    | dsimp +zetaDelta -zeta only

theorem execAttFind_acts (m : MbGo) (s : State) (hd : quiet = true → m.dma = false := by first | assumption | nofun) : ActsO m.part quiet s (execAttFind m s) := by
  unfold execAttFind
  repeat' first
    | fail_if_no_progress extract_lets
    | ((with_reducible apply mailbox_fd); intro _ _)
    | ((with_reducible apply mailbox_sc); intro _ _)
    | ((with_reducible apply mailbox_own2880); intro _ _)
    | ((with_reducible apply mailbox_any); intro _ _)
    | (with_reducible apply Acts.iteS) <;> intro _
    | (with_reducible apply Acts.iteS2) <;> intro _
    | (with_reducible apply ActsO.ite) <;> intro _
    | with_reducible apply ActsO.next
    | (with_reducible apply Acts.ite) <;> intro _
    | with_reducible apply Acts.refl
    | with_reducible assumption
    | dsimp -zeta only
    | with_reducible apply attRegs_trans
    | (with_reducible apply Acts.snd; with_reducible assumption)
    | split
    | dsimp -zeta only

theorem spareRow_acts (tierA : Bool) (unit row : Nat) (remap : Bool) (s : State) : Acts .fd quiet s (State.spareRow tierA unit row remap s) := by
  unfold State.spareRow
  repeat' first
    | fail_if_no_progress extract_lets
    | (with_reducible apply Acts.ite) <;> intro _
    | with_reducible apply Acts.refl
    | with_reducible assumption
    | with_reducible apply bump_trans
    | with_reducible apply setArch_trans
    | with_reducible apply faultLog_trans
    | split
    | dsimp -zeta only
    | dsimp +zetaDelta -zeta only
theorem spareRow_trans {tierA : Bool} {unit row : Nat} {remap : Bool} {s : State} {s₀ : State} (h₀ : Acts .fd quiet s₀ s) : Acts .fd quiet s₀ (State.spareRow tierA unit row remap s) := h₀.trans (spareRow_acts ..)
theorem spareRow_keep {tierA : Bool} {unit row : Nat} {remap : Bool} {s : State} {s₀ : State} (h₀ : Keep quiet s₀ s) : Keep quiet s₀ (State.spareRow tierA unit row remap s) := h₀.trans (spareRow_acts ..).keep

theorem execPatrolScrub_acts (tierA : Bool) (unit row : Nat) (remap : Bool) (s : State) : ActsO .fd quiet s (execPatrolScrub tierA unit row remap s) := by
  unfold execPatrolScrub
  repeat' first
    | fail_if_no_progress extract_lets
    | (with_reducible apply ActsO.ite) <;> intro _
    | with_reducible apply ActsO.next
    | (with_reducible apply Acts.ite) <;> intro _
    | with_reducible apply Acts.refl
    | with_reducible assumption
    | with_reducible apply bump_trans
    | with_reducible apply setArch_trans
    | with_reducible apply spareRow_trans
    | split
    | dsimp -zeta only
    | dsimp +zetaDelta -zeta only

theorem reinstall_acts (h : Nat) (s : State) : Acts .fd quiet s (State.reinstall h s) := by
  unfold State.reinstall
  repeat' first
    | fail_if_no_progress extract_lets
    | (with_reducible apply Acts.ite) <;> intro _
    | with_reducible apply Acts.refl
    | with_reducible assumption
    | with_reducible apply modLink_trans
    | with_reducible apply setSlot_trans
    | with_reducible apply sendWords_trans
    | with_reducible apply bufSync_trans
    | ((with_reducible apply Acts.foldl_trans); intro _ _)
    | dsimp -zeta only
    | dsimp +zetaDelta -zeta only
theorem reinstall_trans {h : Nat} {s : State} {s₀ : State} (h₀ : Acts .fd quiet s₀ s) : Acts .fd quiet s₀ (State.reinstall h s) := h₀.trans (reinstall_acts ..)
theorem reinstall_keep {h : Nat} {s : State} {s₀ : State} (h₀ : Keep quiet s₀ s) : Keep quiet s₀ (State.reinstall h s) := h₀.trans (reinstall_acts ..).keep

theorem ueRegion_acts (r : UeRegion) (s : State) : Acts .fd quiet s (State.ueRegion r s) := by
  unfold State.ueRegion
  repeat' first
    | fail_if_no_progress extract_lets
    | (with_reducible apply Acts.ite) <;> intro _
    | with_reducible apply Acts.refl
    | with_reducible assumption
    | with_reducible apply bump_trans
    | with_reducible apply setArch_trans
    | with_reducible apply setSb_trans
    | with_reducible apply fresh_trans
    | with_reducible apply setJob_trans
    | with_reducible apply setSlot_trans
    | with_reducible apply bufSync_trans
    | with_reducible apply reinstall_trans
    | ((with_reducible apply Acts.foldl_trans); intro _ _)
    | (with_reducible apply Acts.snd; with_reducible assumption)
    | split
    | dsimp -zeta only
    | dsimp +zetaDelta -zeta only
theorem ueRegion_trans {r : UeRegion} {s : State} {s₀ : State} (h₀ : Acts .fd quiet s₀ s) : Acts .fd quiet s₀ (State.ueRegion r s) := h₀.trans (ueRegion_acts ..)
theorem ueRegion_keep {r : UeRegion} {s : State} {s₀ : State} (h₀ : Keep quiet s₀ s) : Keep quiet s₀ (State.ueRegion r s) := h₀.trans (ueRegion_acts ..).keep

theorem execDramUe_acts (tierA : Bool) (unit row : Nat) (region : UeRegion) (remap : Bool) (s : State) : ActsO .fd quiet s (execDramUe tierA unit row region remap s) := by
  unfold execDramUe
  repeat' first
    | fail_if_no_progress extract_lets
    | (with_reducible apply ActsO.ite) <;> intro _
    | with_reducible apply ActsO.next
    | (with_reducible apply Acts.ite) <;> intro _
    | with_reducible apply Acts.refl
    | with_reducible assumption
    | with_reducible apply bump_trans
    | with_reducible apply setArch_trans
    | with_reducible apply faultLog_trans
    | with_reducible apply spareRow_trans
    | with_reducible apply ueRegion_trans
    | dsimp -zeta only
    | dsimp +zetaDelta -zeta only

theorem execChannelFail_acts (ch cause : Nat) (s : State) : ActsO .fd quiet s (execChannelFail ch cause s) := by
  unfold execChannelFail
  repeat' first
    | fail_if_no_progress extract_lets
    | (with_reducible apply ActsO.ite) <;> intro _
    | with_reducible apply ActsO.next
    | (with_reducible apply Acts.ite) <;> intro _
    | with_reducible apply Acts.refl
    | with_reducible assumption
    | with_reducible apply put_trans
    | with_reducible apply setArch_trans
    | with_reducible apply faultLog_trans
    | with_reducible apply faultAlert_trans
    | with_reducible apply attRegs_trans
    | split
    | dsimp -zeta only
    | dsimp +zetaDelta -zeta only

theorem execStackFail_acts (k cause : Nat) (s : State) : ActsO .fd quiet s (execStackFail k cause s) := by
  unfold execStackFail
  repeat' first
    | fail_if_no_progress extract_lets
    | (with_reducible apply ActsO.ite) <;> intro _
    | with_reducible apply ActsO.next
    | (with_reducible apply Acts.ite) <;> intro _
    | with_reducible apply Acts.refl
    | with_reducible assumption
    | with_reducible apply put_trans
    | with_reducible apply setSpare_trans
    | with_reducible apply faultLog_trans
    | with_reducible apply faultAlert_trans
    | split
    | dsimp -zeta only
    | dsimp +zetaDelta -zeta only

end Sys2Proof.Machine
end

