-- ==== Sys2Proof/Laws/ActsFwOps.lean ====
section
/-! SUPPORT. One lemma an operation: what it keeps (Acts, Keep). -/

namespace Sys2Proof.Machine

open Sys2Proof

set_option linter.unusedTactic false
set_option linter.unreachableTactic false
set_option linter.unusedVariables false

variable {quiet : Bool}

theorem setPref_acts (p : Part) (i : Nat) (x : Prefect) (s : State) : Acts p quiet s (State.setPref p i x s) := by
  unfold State.setPref
  repeat' first
    | fail_if_no_progress extract_lets
    | (with_reducible apply Acts.ite) <;> intro _
    | with_reducible apply Acts.refl
    | with_reducible assumption
    | with_reducible apply setFw_trans
    | dsimp -zeta only
theorem setPref_trans {p : Part} {i : Nat} {x : Prefect} {s : State} {s₀ : State} (h₀ : Acts p quiet s₀ s) : Acts p quiet s₀ (State.setPref p i x s) := h₀.trans (setPref_acts ..)
theorem setPref_keep {p : Part} {i : Nat} {x : Prefect} {s : State} {s₀ : State} (h₀ : Keep quiet s₀ s) : Keep quiet s₀ (State.setPref p i x s) := h₀.trans (setPref_acts ..).keep

theorem fwEvent_acts (p : Part) (i ev : Nat) (s : State) : Acts p quiet s (State.fwEvent p i ev s) := by
  unfold State.fwEvent
  repeat' first
    | fail_if_no_progress extract_lets
    | (with_reducible apply Acts.ite) <;> intro _
    | with_reducible apply Acts.refl
    | with_reducible assumption
    | with_reducible apply record_trans
    | dsimp -zeta only
theorem fwEvent_trans {p : Part} {i ev : Nat} {s : State} {s₀ : State} (h₀ : Acts p quiet s₀ s) : Acts p quiet s₀ (State.fwEvent p i ev s) := h₀.trans (fwEvent_acts ..)
theorem fwEvent_keep {p : Part} {i ev : Nat} {s : State} {s₀ : State} (h₀ : Keep quiet s₀ s) : Keep quiet s₀ (State.fwEvent p i ev s) := h₀.trans (fwEvent_acts ..).keep

theorem discardRuns_acts (s : State) : Acts .fd quiet s (State.discardRuns s) := by
  unfold State.discardRuns
  repeat' first
    | fail_if_no_progress extract_lets
    | (with_reducible apply Acts.ite) <;> intro _
    | with_reducible apply Acts.refl
    | with_reducible assumption
    | with_reducible apply setUnit_trans
    | split
    | dsimp -zeta only
theorem discardRuns_trans {s : State} {s₀ : State} (h₀ : Acts .fd quiet s₀ s) : Acts .fd quiet s₀ (State.discardRuns s) := h₀.trans (discardRuns_acts ..)
theorem discardRuns_keep {s : State} {s₀ : State} (h₀ : Keep quiet s₀ s) : Keep quiet s₀ (State.discardRuns s) := h₀.trans (discardRuns_acts ..).keep

theorem prefectDown_acts (p : Part) (i cause : Nat) (s : State) : Acts p quiet s (State.prefectDown p i cause s) := by
  cases p
  all_goals unfold State.prefectDown
  all_goals
  repeat' first
    | fail_if_no_progress extract_lets
    | (with_reducible apply Acts.ite) <;> intro _
    | with_reducible apply Acts.refl
    | with_reducible assumption
    | with_reducible apply put_trans
    | with_reducible apply bump_trans
    | with_reducible apply setHall_trans
    | with_reducible apply fwEvent_trans
    | with_reducible apply discardRuns_trans
    | ((with_reducible apply Acts.foldl_trans); intro _ _)
    | split
    | dsimp -zeta only
    | dsimp +zetaDelta -zeta only
    | (exfalso; simp_all; done)
theorem prefectDown_trans {p : Part} {i cause : Nat} {s : State} {s₀ : State} (h₀ : Acts p quiet s₀ s) : Acts p quiet s₀ (State.prefectDown p i cause s) := h₀.trans (prefectDown_acts ..)
theorem prefectDown_keep {p : Part} {i cause : Nat} {s : State} {s₀ : State} (h₀ : Keep quiet s₀ s) : Keep quiet s₀ (State.prefectDown p i cause s) := h₀.trans (prefectDown_acts ..).keep

theorem prefectFail_acts (p : Part) (i cause : Nat) (s : State) : Acts p quiet s (State.prefectFail p i cause s) := by
  unfold State.prefectFail
  repeat' first
    | fail_if_no_progress extract_lets
    | (with_reducible apply Acts.ite) <;> intro _
    | with_reducible apply Acts.refl
    | with_reducible assumption
    | with_reducible apply put_trans
    | with_reducible apply faultLog_trans
    | with_reducible apply faultAlert_trans
    | with_reducible apply wake_trans
    | with_reducible apply setPref_trans
    | with_reducible apply prefectDown_trans
    | split
    | dsimp -zeta only
    | dsimp +zetaDelta -zeta only
theorem prefectFail_trans {p : Part} {i cause : Nat} {s : State} {s₀ : State} (h₀ : Acts p quiet s₀ s) : Acts p quiet s₀ (State.prefectFail p i cause s) := h₀.trans (prefectFail_acts ..)
theorem prefectFail_keep {p : Part} {i cause : Nat} {s : State} {s₀ : State} (h₀ : Keep quiet s₀ s) : Keep quiet s₀ (State.prefectFail p i cause s) := h₀.trans (prefectFail_acts ..).keep

theorem fwRegs_acts (p : Part) (s : State) : Acts p quiet s (State.fwRegs p s) := by
  unfold State.fwRegs
  repeat' first
    | fail_if_no_progress extract_lets
    | (with_reducible apply Acts.ite) <;> intro _
    | with_reducible apply Acts.refl
    | with_reducible assumption
    | with_reducible apply put_trans
    | with_reducible apply putFlag_trans
    | split
    | dsimp -zeta only
    | dsimp +zetaDelta -zeta only
theorem fwRegs_trans {p : Part} {s : State} {s₀ : State} (h₀ : Acts p quiet s₀ s) : Acts p quiet s₀ (State.fwRegs p s) := h₀.trans (fwRegs_acts ..)
theorem fwRegs_keep {p : Part} {s : State} {s₀ : State} (h₀ : Keep quiet s₀ s) : Keep quiet s₀ (State.fwRegs p s) := h₀.trans (fwRegs_acts ..).keep

theorem startActivation_acts (p : Part) (s : State) : Acts p quiet s (State.startActivation p s) := by
  cases p
  all_goals unfold State.startActivation
  all_goals
  repeat' first
    | fail_if_no_progress extract_lets
    | (with_reducible apply Acts.ite) <;> intro _
    | with_reducible apply Acts.refl
    | with_reducible assumption
    | with_reducible apply put_trans
    | with_reducible apply setFw_trans
    | with_reducible apply setHall_trans
    | with_reducible apply restage_trans
    | ((with_reducible apply Acts.foldl_trans); intro _ _)
    | split
    | dsimp -zeta only
    | dsimp +zetaDelta -zeta only
    | (exfalso; simp_all; done)
theorem startActivation_trans {p : Part} {s : State} {s₀ : State} (h₀ : Acts p quiet s₀ s) : Acts p quiet s₀ (State.startActivation p s) := h₀.trans (startActivation_acts ..)
theorem startActivation_keep {p : Part} {s : State} {s₀ : State} (h₀ : Keep quiet s₀ s) : Keep quiet s₀ (State.startActivation p s) := h₀.trans (startActivation_acts ..).keep

theorem changeActivates_acts (p : Part) (digest : Nat) (s : State) : Acts p quiet s (State.changeActivates p digest s) := by
  unfold State.changeActivates
  repeat' first
    | fail_if_no_progress extract_lets
    | (with_reducible apply Acts.ite) <;> intro _
    | with_reducible apply Acts.refl
    | with_reducible assumption
    | with_reducible apply bump_trans
    | with_reducible apply setFw_trans
    | with_reducible apply fwEvent_trans
    | with_reducible apply fwRegs_trans
    | with_reducible apply startActivation_trans
    | (with_reducible apply Acts.snd; with_reducible assumption)
    | split
    | dsimp -zeta only
theorem changeActivates_trans {p : Part} {digest : Nat} {s : State} {s₀ : State} (h₀ : Acts p quiet s₀ s) : Acts p quiet s₀ (State.changeActivates p digest s) := h₀.trans (changeActivates_acts ..)
theorem changeActivates_keep {p : Part} {digest : Nat} {s : State} {s₀ : State} (h₀ : Keep quiet s₀ s) : Keep quiet s₀ (State.changeActivates p digest s) := h₀.trans (changeActivates_acts ..).keep

end Sys2Proof.Machine
end

