-- ==== Sys2Proof/Laws/ActsPower.lean ====
section
/-! SUPPORT. One lemma an operation: what it keeps (Acts, Keep). -/

namespace Sys2Proof.Machine

open Sys2Proof

set_option linter.unusedTactic false
set_option linter.unreachableTactic false
set_option linter.unusedVariables false

variable {quiet : Bool}

theorem ufTick_acts (s : State) : Acts .fd quiet s (State.ufTick s) := by
  unfold State.ufTick
  repeat' first
    | fail_if_no_progress extract_lets
    | (with_reducible apply Acts.ite) <;> intro _
    | with_reducible apply Acts.refl
    | with_reducible assumption
    | with_reducible apply put_trans
    | with_reducible apply putFlag_trans
    | with_reducible apply setPower_trans
    | split
    | dsimp -zeta only
    | dsimp +zetaDelta -zeta only
theorem ufTick_trans {s : State} {s₀ : State} (h₀ : Acts .fd quiet s₀ s) : Acts .fd quiet s₀ (State.ufTick s) := h₀.trans (ufTick_acts ..)
theorem ufTick_keep {s : State} {s₀ : State} (h₀ : Keep quiet s₀ s) : Keep quiet s₀ (State.ufTick s) := h₀.trans (ufTick_acts ..).keep

theorem loadTimer_acts (up : Bool) (s : State) : Acts .fd quiet s (State.loadTimer up s) := by
  unfold State.loadTimer
  repeat' first
    | fail_if_no_progress extract_lets
    | (with_reducible apply Acts.ite) <;> intro _
    | with_reducible apply Acts.refl
    | with_reducible assumption
    | with_reducible apply setPower_trans
    | (with_reducible apply Acts.snd; with_reducible assumption)
    | split
    | dsimp -zeta only
    | dsimp +zetaDelta -zeta only
theorem loadTimer_trans {up : Bool} {s : State} {s₀ : State} (h₀ : Acts .fd quiet s₀ s) : Acts .fd quiet s₀ (State.loadTimer up s) := h₀.trans (loadTimer_acts ..)
theorem loadTimer_keep {up : Bool} {s : State} {s₀ : State} (h₀ : Keep quiet s₀ s) : Keep quiet s₀ (State.loadTimer up s) := h₀.trans (loadTimer_acts ..).keep

theorem setCadence_acts (j : Nat) (b : List Byte) (s : State) : Acts .fd quiet s (State.setCadence j b s) := by
  unfold State.setCadence
  repeat' first
    | fail_if_no_progress extract_lets
    | (with_reducible apply Acts.ite) <;> intro _
    | with_reducible apply Acts.refl
    | with_reducible assumption
    | with_reducible apply put_trans
    | dsimp -zeta only
    | dsimp +zetaDelta -zeta only
theorem setCadence_trans {j : Nat} {b : List Byte} {s : State} {s₀ : State} (h₀ : Acts .fd quiet s₀ s) : Acts .fd quiet s₀ (State.setCadence j b s) := h₀.trans (setCadence_acts ..)
theorem setCadence_keep {j : Nat} {b : List Byte} {s : State} {s₀ : State} (h₀ : Keep quiet s₀ s) : Keep quiet s₀ (State.setCadence j b s) := h₀.trans (setCadence_acts ..).keep

theorem jobTick_acts (s : State) (j : Nat) : Acts .fd quiet s (State.jobTick s j) := by
  unfold State.jobTick
  repeat' first
    | fail_if_no_progress extract_lets
    | (with_reducible apply Acts.ite) <;> intro _
    | with_reducible apply Acts.refl
    | with_reducible assumption
    | with_reducible apply setPj_trans
    | with_reducible apply setCadence_trans
    | split
    | dsimp -zeta only
    | dsimp +zetaDelta -zeta only
theorem jobTick_trans {s : State} {j : Nat} {s₀ : State} (h₀ : Acts .fd quiet s₀ s) : Acts .fd quiet s₀ (State.jobTick s j) := h₀.trans (jobTick_acts ..)
theorem jobTick_keep {s : State} {j : Nat} {s₀ : State} (h₀ : Keep quiet s₀ s) : Keep quiet s₀ (State.jobTick s j) := h₀.trans (jobTick_acts ..).keep

theorem sendFloors_acts (s : State) : Acts .fd quiet s (State.sendFloors s) := by
  unfold State.sendFloors
  repeat' first
    | fail_if_no_progress extract_lets
    | (with_reducible apply Acts.ite) <;> intro _
    | with_reducible apply Acts.refl
    | with_reducible assumption
    | with_reducible apply sendFloor_trans
    | ((with_reducible apply Acts.foldl_trans); intro _ _)
    | split
    | dsimp -zeta only
theorem sendFloors_trans {s : State} {s₀ : State} (h₀ : Acts .fd quiet s₀ s) : Acts .fd quiet s₀ (State.sendFloors s) := h₀.trans (sendFloors_acts ..)
theorem sendFloors_keep {s : State} {s₀ : State} (h₀ : Keep quiet s₀ s) : Keep quiet s₀ (State.sendFloors s) := h₀.trans (sendFloors_acts ..).keep

theorem shaperTick_acts (s : State) : Acts .fd quiet s (State.shaperTick s) := by
  unfold State.shaperTick
  repeat' first
    | fail_if_no_progress extract_lets
    | (with_reducible apply Acts.ite) <;> intro _
    | with_reducible apply Acts.refl
    | with_reducible assumption
    | with_reducible apply put_trans
    | with_reducible apply putFlag_trans
    | with_reducible apply setPower_trans
    | with_reducible apply ufTick_trans
    | with_reducible apply loadTimer_trans
    | with_reducible apply jobTick_trans
    | with_reducible apply sendFloors_trans
    | ((with_reducible apply Acts.foldl_trans); intro _ _)
    | split
    | dsimp -zeta only
    | dsimp +zetaDelta -zeta only
theorem shaperTick_trans {s : State} {s₀ : State} (h₀ : Acts .fd quiet s₀ s) : Acts .fd quiet s₀ (State.shaperTick s) := h₀.trans (shaperTick_acts ..)
theorem shaperTick_keep {s : State} {s₀ : State} (h₀ : Keep quiet s₀ s) : Keep quiet s₀ (State.shaperTick s) := h₀.trans (shaperTick_acts ..).keep

theorem execShaperTick_acts (temp : Int) (s : State) : KeepO quiet s (execShaperTick temp s) := by
  unfold execShaperTick
  repeat' first
    | fail_if_no_progress extract_lets
    | (with_reducible apply KeepO.ite) <;> intro _
    | with_reducible apply KeepO.next
    | (with_reducible apply Keep.ite) <;> intro _
    | with_reducible apply Keep.refl
    | with_reducible assumption
    | with_reducible apply periodic_keep
    | with_reducible apply pipeTick_keep
    | with_reducible apply shaperTick_keep
    | split
    | dsimp -zeta only
    | dsimp +zetaDelta -zeta only

theorem stepLevels_acts (up : Bool) (s : State) : Acts .fd quiet s (State.stepLevels up s) := by
  unfold State.stepLevels
  repeat' first
    | fail_if_no_progress extract_lets
    | (with_reducible apply Acts.ite) <;> intro _
    | with_reducible apply Acts.refl
    | with_reducible assumption
    | with_reducible apply setPower_trans
    | with_reducible apply setPj_trans
    | ((with_reducible apply Acts.foldl_trans); intro _ _)
    | split
    | dsimp -zeta only
    | dsimp +zetaDelta -zeta only
theorem stepLevels_trans {up : Bool} {s : State} {s₀ : State} (h₀ : Acts .fd quiet s₀ s) : Acts .fd quiet s₀ (State.stepLevels up s) := h₀.trans (stepLevels_acts ..)
theorem stepLevels_keep {up : Bool} {s : State} {s₀ : State} (h₀ : Keep quiet s₀ s) : Keep quiet s₀ (State.stepLevels up s) := h₀.trans (stepLevels_acts ..).keep

theorem capArrived_acts (s : State) : Acts .fd quiet s (State.capArrived s) := by
  unfold State.capArrived
  repeat' first
    | fail_if_no_progress extract_lets
    | (with_reducible apply Acts.ite) <;> intro _
    | with_reducible apply Acts.refl
    | with_reducible assumption
    | with_reducible apply setPower_trans
    | dsimp -zeta only
    | dsimp +zetaDelta -zeta only
theorem capArrived_trans {s : State} {s₀ : State} (h₀ : Acts .fd quiet s₀ s) : Acts .fd quiet s₀ (State.capArrived s) := h₀.trans (capArrived_acts ..)
theorem capArrived_keep {s : State} {s₀ : State} (h₀ : Keep quiet s₀ s) : Keep quiet s₀ (State.capArrived s) := h₀.trans (capArrived_acts ..).keep

theorem execStepTimerExpiry_acts (up : Bool) (s : State) : KeepO quiet s (execStepTimerExpiry up s) := by
  unfold execStepTimerExpiry
  repeat' first
    | fail_if_no_progress extract_lets
    | (with_reducible apply KeepO.ite) <;> intro _
    | with_reducible apply KeepO.next
    | (with_reducible apply Keep.ite) <;> intro _
    | with_reducible apply Keep.refl
    | with_reducible assumption
    | with_reducible apply put_keep
    | with_reducible apply awaitBeat_keep
    | with_reducible apply setPower_keep
    | with_reducible apply loadTimer_keep
    | with_reducible apply sendFloors_keep
    | with_reducible apply stepLevels_keep
    | with_reducible apply capArrived_keep
    | (with_reducible apply Keep.snd; with_reducible assumption)
    | split
    | dsimp -zeta only
    | dsimp +zetaDelta -zeta only

theorem execCompletionRelease_acts (h : Nat) (s : State) : KeepO quiet s (execCompletionRelease h s) := by
  unfold execCompletionRelease
  repeat' first
    | fail_if_no_progress extract_lets
    | (with_reducible apply KeepO.ite) <;> intro _
    | with_reducible apply KeepO.next
    | (with_reducible apply Keep.ite) <;> intro _
    | with_reducible apply Keep.refl
    | with_reducible assumption
    | with_reducible apply awaitHt_keep
    | with_reducible apply hallTest_keep
    | dsimp -zeta only
    | dsimp +zetaDelta -zeta only

theorem execFloorWord_acts (p : Part) (n job level : Nat) (recess : Bool) (atBeat : Nat) (s : State) : ActsO p quiet s (execFloorWord p n job level recess atBeat s) := by
  unfold execFloorWord
  repeat' first
    | fail_if_no_progress extract_lets
    | (with_reducible apply ActsO.ite) <;> intro _
    | with_reducible apply ActsO.next
    | (with_reducible apply Acts.ite) <;> intro _
    | with_reducible apply Acts.refl
    | with_reducible assumption
    | with_reducible apply setDie_trans
    | with_reducible apply bump_trans
    | with_reducible apply setJob_trans
    | with_reducible apply sendMembers_trans
    | with_reducible apply takeWord_trans
    | with_reducible apply toDie_trans
    | with_reducible apply applyLevel_trans
    | ((with_reducible apply Acts.foldl_trans); intro _ _)
    | (with_reducible apply Acts.snd; with_reducible assumption)
    | split
    | dsimp -zeta only
    | dsimp +zetaDelta -zeta only

theorem execFloorApply_acts (s : State) : KeepO quiet s (execFloorApply s) := by
  unfold execFloorApply
  repeat' first
    | fail_if_no_progress extract_lets
    | (with_reducible apply KeepO.ite) <;> intro _
    | with_reducible apply KeepO.next
    | (with_reducible apply Keep.ite) <;> intro _
    | with_reducible apply Keep.refl
    | with_reducible assumption
    | with_reducible apply setDie_keep
    | with_reducible apply awaitBeat_keep
    | with_reducible apply applyLevel_keep
    | ((with_reducible apply Keep.foldl_trans); intro _ _)
    | (with_reducible apply Keep.snd; with_reducible assumption)
    | split
    | dsimp -zeta only
    | dsimp +zetaDelta -zeta only

theorem execFloorResend_acts (s : State) : KeepO quiet s (execFloorResend s) := by
  unfold execFloorResend
  repeat' first
    | fail_if_no_progress extract_lets
    | (with_reducible apply KeepO.ite) <;> intro _
    | with_reducible apply KeepO.next
    | (with_reducible apply Keep.ite) <;> intro _
    | with_reducible apply Keep.refl
    | with_reducible assumption
    | with_reducible apply awaitBeat_keep
    | with_reducible apply sendMembers_keep
    | with_reducible apply setPj_keep
    | ((with_reducible apply Keep.foldl_trans); intro _ _)
    | (with_reducible apply Keep.snd; with_reducible assumption)
    | split
    | dsimp -zeta only
    | dsimp +zetaDelta -zeta only

theorem dieReport_acts (d mw b : Nat) (s : State) : Acts .sc quiet s (State.dieReport d mw b s) := by
  unfold State.dieReport
  repeat' first
    | fail_if_no_progress extract_lets
    | (with_reducible apply Acts.ite) <;> intro _
    | with_reducible apply Acts.refl
    | with_reducible assumption
    | with_reducible apply setDie_trans
    | dsimp -zeta only
theorem dieReport_trans {d mw b : Nat} {s : State} {s₀ : State} (h₀ : Acts .sc quiet s₀ s) : Acts .sc quiet s₀ (State.dieReport d mw b s) := h₀.trans (dieReport_acts ..)
theorem dieReport_keep {d mw b : Nat} {s : State} {s₀ : State} (h₀ : Keep quiet s₀ s) : Keep quiet s₀ (State.dieReport d mw b s) := h₀.trans (dieReport_acts ..).keep

theorem execPowerSample_acts (mw : Nat) (valid : Bool) (s : State) : KeepO quiet s (execPowerSample mw valid s) := by
  unfold execPowerSample
  repeat' first
    | fail_if_no_progress extract_lets
    | (with_reducible apply KeepO.ite) <;> intro _
    | with_reducible apply KeepO.next
    | (with_reducible apply Keep.ite) <;> intro _
    | with_reducible apply Keep.refl
    | with_reducible assumption
    | with_reducible apply setDie_keep
    | with_reducible apply put_keep
    | with_reducible apply modLink_keep
    | with_reducible apply periodic_keep
    | with_reducible apply dieReport_keep
    | split
    | dsimp -zeta only
    | dsimp +zetaDelta -zeta only

theorem execTelemetrySend_acts (p : Part) (s : State) : KeepO quiet s (execTelemetrySend p s) := by
  unfold execTelemetrySend
  repeat' first
    | fail_if_no_progress extract_lets
    | (with_reducible apply KeepO.ite) <;> intro _
    | with_reducible apply KeepO.next
    | (with_reducible apply Keep.ite) <;> intro _
    | with_reducible apply Keep.refl
    | with_reducible assumption
    | with_reducible apply put_keep
    | with_reducible apply putFlag_keep
    | with_reducible apply modLink_keep
    | with_reducible apply periodic_keep
    | with_reducible apply setPower_keep
    | ((with_reducible apply Keep.foldl_trans); intro _ _)
    | (with_reducible apply Keep.snd; with_reducible assumption)
    | split
    | dsimp -zeta only
    | dsimp +zetaDelta -zeta only

theorem emergFlag_acts (p : Part) (b : Bool) (s : State) : Acts p quiet s (State.emergFlag p b s) := by
  unfold State.emergFlag
  repeat' first
    | fail_if_no_progress extract_lets
    | (with_reducible apply Acts.ite) <;> intro _
    | with_reducible apply Acts.refl
    | with_reducible assumption
    | with_reducible apply putFlag_trans
    | (with_reducible apply Acts.snd; with_reducible assumption)
    | split
    | dsimp -zeta only
theorem emergFlag_trans {p : Part} {b : Bool} {s : State} {s₀ : State} (h₀ : Acts p quiet s₀ s) : Acts p quiet s₀ (State.emergFlag p b s) := h₀.trans (emergFlag_acts ..)
theorem emergFlag_keep {p : Part} {b : Bool} {s : State} {s₀ : State} (h₀ : Keep quiet s₀ s) : Keep quiet s₀ (State.emergFlag p b s) := h₀.trans (emergFlag_acts ..).keep

theorem execEmergencyStart_acts (p : Part) (asserted : Bool) (temp : Int) (s : State) : ActsO p quiet s (execEmergencyStart p asserted temp s) := by
  unfold execEmergencyStart
  repeat' first
    | fail_if_no_progress extract_lets
    | (with_reducible apply ActsO.ite) <;> intro _
    | with_reducible apply ActsO.next
    | (with_reducible apply Acts.ite) <;> intro _
    | with_reducible apply Acts.refl
    | with_reducible assumption
    | with_reducible apply setUnit_trans
    | with_reducible apply faultLog_trans
    | with_reducible apply fwRegs_trans
    | with_reducible apply emergFlag_trans
    | split
    | dsimp -zeta only
    | dsimp +zetaDelta -zeta only

theorem execEmergencyEnd_acts (p : Part) (asserted : Bool) (temp : Int) (s : State) : ActsO p quiet s (execEmergencyEnd p asserted temp s) := by
  unfold execEmergencyEnd
  repeat' first
    | fail_if_no_progress extract_lets
    | (with_reducible apply ActsO.ite) <;> intro _
    | with_reducible apply ActsO.next
    | (with_reducible apply Acts.ite) <;> intro _
    | with_reducible apply Acts.refl
    | with_reducible assumption
    | with_reducible apply setUnit_trans
    | with_reducible apply faultLog_trans
    | with_reducible apply fwRegs_trans
    | with_reducible apply emergFlag_trans
    | split
    | dsimp -zeta only
    | dsimp +zetaDelta -zeta only

theorem execPwrRead_acts (m : MbGo) (s : State) (hd : quiet = true → m.dma = false := by first | assumption | nofun) : ActsO m.part quiet s (execPwrRead m s) := by
  unfold execPwrRead
  repeat' first
    | fail_if_no_progress extract_lets
    | ((with_reducible apply mailbox_fd); intro _ _)
    | ((with_reducible apply mailbox_sc); intro _ _)
    | ((with_reducible apply mailbox_own2880); intro _ _)
    | ((with_reducible apply mailbox_any); intro _ _)
    | with_reducible apply atRoot_trans
    | (with_reducible apply Acts.iteS) <;> intro _
    | (with_reducible apply Acts.iteS2) <;> intro _
    | (with_reducible apply ActsO.ite) <;> intro _
    | with_reducible apply ActsO.next
    | (with_reducible apply Acts.ite) <;> intro _
    | with_reducible apply Acts.refl
    | with_reducible assumption
    | dsimp -zeta only
    | split
    | dsimp -zeta only
    | dsimp +zetaDelta -zeta only

theorem execPwrJobSet_acts (m : MbGo) (s : State) (hd : quiet = true → m.dma = false := by first | assumption | nofun) : ActsO m.part quiet s (execPwrJobSet m s) := by
  unfold execPwrJobSet
  repeat' first
    | fail_if_no_progress extract_lets
    | ((with_reducible apply mailbox_fd); intro _ _)
    | ((with_reducible apply mailbox_sc); intro _ _)
    | ((with_reducible apply mailbox_own2880); intro _ _)
    | ((with_reducible apply mailbox_any); intro _ _)
    | with_reducible apply atRoot_trans
    | (with_reducible apply Acts.iteS) <;> intro _
    | (with_reducible apply Acts.iteS2) <;> intro _
    | (with_reducible apply ActsO.ite) <;> intro _
    | with_reducible apply ActsO.next
    | (with_reducible apply Acts.ite) <;> intro _
    | with_reducible apply Acts.refl
    | with_reducible assumption
    | dsimp -zeta only
    | with_reducible apply setPj_trans
    | split
    | dsimp -zeta only
    | dsimp +zetaDelta -zeta only

theorem execPwrRecess_acts (m : MbGo) (s : State) (hd : quiet = true → m.dma = false := by first | assumption | nofun) : ActsO m.part quiet s (execPwrRecess m s) := by
  unfold execPwrRecess
  repeat' first
    | fail_if_no_progress extract_lets
    | ((with_reducible apply mailbox_fd); intro _ _)
    | ((with_reducible apply mailbox_sc); intro _ _)
    | ((with_reducible apply mailbox_own2880); intro _ _)
    | ((with_reducible apply mailbox_any); intro _ _)
    | with_reducible apply atRoot_trans
    | (with_reducible apply Acts.iteS) <;> intro _
    | (with_reducible apply Acts.iteS2) <;> intro _
    | (with_reducible apply ActsO.ite) <;> intro _
    | with_reducible apply ActsO.next
    | (with_reducible apply Acts.ite) <;> intro _
    | with_reducible apply Acts.refl
    | with_reducible assumption
    | dsimp -zeta only
    | with_reducible apply setPj_trans
    | split
    | dsimp -zeta only
    | dsimp +zetaDelta -zeta only

theorem execPwrResume_acts (m : MbGo) (s : State) (hd : quiet = true → m.dma = false := by first | assumption | nofun) : ActsO m.part quiet s (execPwrResume m s) := by
  unfold execPwrResume
  repeat' first
    | fail_if_no_progress extract_lets
    | ((with_reducible apply mailbox_fd); intro _ _)
    | ((with_reducible apply mailbox_sc); intro _ _)
    | ((with_reducible apply mailbox_own2880); intro _ _)
    | ((with_reducible apply mailbox_any); intro _ _)
    | with_reducible apply atRoot_trans
    | (with_reducible apply Acts.iteS) <;> intro _
    | (with_reducible apply Acts.iteS2) <;> intro _
    | (with_reducible apply ActsO.ite) <;> intro _
    | with_reducible apply ActsO.next
    | (with_reducible apply Acts.ite) <;> intro _
    | with_reducible apply Acts.refl
    | with_reducible assumption
    | dsimp -zeta only
    | with_reducible apply setPj_trans
    | split
    | dsimp -zeta only
    | dsimp +zetaDelta -zeta only

end Sys2Proof.Machine
end

