-- ==== Sys2Proof/Laws/ActsTtBody.lean ====
section
/-! SUPPORT. One lemma an operation: what it keeps (Acts, Keep). -/

namespace Sys2Proof.Machine

open Sys2Proof

set_option linter.unusedTactic false
set_option linter.unreachableTactic false
set_option linter.unusedVariables false

variable {quiet : Bool}

theorem takeHoming_acts (k j : Nat) (dual : Bool) (s : State) : Acts .fd quiet s (State.takeHoming k j dual s) := by
  unfold State.takeHoming
  repeat' first
    | fail_if_no_progress extract_lets
    | (with_reducible apply Acts.ite) <;> intro _
    | with_reducible apply Acts.refl
    | with_reducible assumption
    | with_reducible apply setHall_trans
    | with_reducible apply runHoming_trans
    | (with_reducible apply Acts.snd; with_reducible assumption)
    | split
    | dsimp -zeta only
    | dsimp +zetaDelta -zeta only
theorem takeHoming_trans {k j : Nat} {dual : Bool} {s : State} {s₀ : State} (h₀ : Acts .fd quiet s₀ s) : Acts .fd quiet s₀ (State.takeHoming k j dual s) := h₀.trans (takeHoming_acts ..)
theorem takeHoming_keep {k j : Nat} {dual : Bool} {s : State} {s₀ : State} (h₀ : Keep quiet s₀ s) : Keep quiet s₀ (State.takeHoming k j dual s) := h₀.trans (takeHoming_acts ..).keep

end Sys2Proof.Machine
end

