-- ==== Sys2Proof/Laws/ActsTimetable.lean ====
section
/-! SUPPORT. One lemma an operation: what it keeps (Acts, Keep). -/

namespace Sys2Proof.Machine

open Sys2Proof

set_option linter.unusedTactic false
set_option linter.unreachableTactic false
set_option linter.unusedVariables false

variable {quiet : Bool}

theorem setTt_acts (p : Part) (x : TtSt) (s : State) : Acts p quiet s (State.setTt p x s) := by
  unfold State.setTt
  repeat' first
    | fail_if_no_progress extract_lets
    | (with_reducible apply Acts.ite) <;> intro _
    | with_reducible apply Acts.refl
    | with_reducible assumption
    | with_reducible apply setUnit_trans
    | dsimp -zeta only
theorem setTt_trans {p : Part} {x : TtSt} {s : State} {s₀ : State} (h₀ : Acts p quiet s₀ s) : Acts p quiet s₀ (State.setTt p x s) := h₀.trans (setTt_acts ..)
theorem setTt_keep {p : Part} {x : TtSt} {s : State} {s₀ : State} (h₀ : Keep quiet s₀ s) : Keep quiet s₀ (State.setTt p x s) := h₀.trans (setTt_acts ..).keep

theorem setChg_acts (p : Part) (c : TtChg) (s : State) : Acts p quiet s (State.setChg p c s) := by
  unfold State.setChg
  repeat' first
    | fail_if_no_progress extract_lets
    | (with_reducible apply Acts.ite) <;> intro _
    | with_reducible apply Acts.refl
    | with_reducible assumption
    | with_reducible apply setTt_trans
    | split
    | dsimp -zeta only
theorem setChg_trans {p : Part} {c : TtChg} {s : State} {s₀ : State} (h₀ : Acts p quiet s₀ s) : Acts p quiet s₀ (State.setChg p c s) := h₀.trans (setChg_acts ..)
theorem setChg_keep {p : Part} {c : TtChg} {s : State} {s₀ : State} (h₀ : Keep quiet s₀ s) : Keep quiet s₀ (State.setChg p c s) := h₀.trans (setChg_acts ..).keep

theorem addChg_acts (p : Part) (c : TtChg) (s : State) : Acts p quiet s (State.addChg p c s) := by
  unfold State.addChg
  repeat' first
    | fail_if_no_progress extract_lets
    | (with_reducible apply Acts.ite) <;> intro _
    | with_reducible apply Acts.refl
    | with_reducible assumption
    | with_reducible apply setTt_trans
    | dsimp -zeta only
    | dsimp +zetaDelta -zeta only
theorem addChg_trans {p : Part} {c : TtChg} {s : State} {s₀ : State} (h₀ : Acts p quiet s₀ s) : Acts p quiet s₀ (State.addChg p c s) := h₀.trans (addChg_acts ..)
theorem addChg_keep {p : Part} {c : TtChg} {s : State} {s₀ : State} (h₀ : Keep quiet s₀ s) : Keep quiet s₀ (State.addChg p c s) := h₀.trans (addChg_acts ..).keep

theorem ttRegs_acts (p : Part) (s : State) : Acts p quiet s (State.ttRegs p s) := by
  unfold State.ttRegs
  repeat' first
    | fail_if_no_progress extract_lets
    | (with_reducible apply Acts.ite) <;> intro _
    | with_reducible apply Acts.refl
    | with_reducible assumption
    | with_reducible apply put_trans
    | with_reducible apply putFlag_trans
    | dsimp -zeta only
    | dsimp +zetaDelta -zeta only
theorem ttRegs_trans {p : Part} {s : State} {s₀ : State} (h₀ : Acts p quiet s₀ s) : Acts p quiet s₀ (State.ttRegs p s) := h₀.trans (ttRegs_acts ..)
theorem ttRegs_keep {p : Part} {s : State} {s₀ : State} (h₀ : Keep quiet s₀ s) : Keep quiet s₀ (State.ttRegs p s) := h₀.trans (ttRegs_acts ..).keep

theorem ttEvent_acts (p : Part) (txn job : Nat) (hallwide : Bool) (step reason : Nat) (s : State) : Acts p quiet s (State.ttEvent p txn job hallwide step reason s) := by
  unfold State.ttEvent
  repeat' first
    | fail_if_no_progress extract_lets
    | (with_reducible apply Acts.ite) <;> intro _
    | with_reducible apply Acts.refl
    | with_reducible assumption
    | with_reducible apply record_trans
    | dsimp -zeta only
theorem ttEvent_trans {p : Part} {txn job : Nat} {hallwide : Bool} {step reason : Nat} {s : State} {s₀ : State} (h₀ : Acts p quiet s₀ s) : Acts p quiet s₀ (State.ttEvent p txn job hallwide step reason s) := h₀.trans (ttEvent_acts ..)
theorem ttEvent_keep {p : Part} {txn job : Nat} {hallwide : Bool} {step reason : Nat} {s : State} {s₀ : State} (h₀ : Keep quiet s₀ s) : Keep quiet s₀ (State.ttEvent p txn job hallwide step reason s) := h₀.trans (ttEvent_acts ..).keep

theorem chgEvent_acts (p : Part) (c : TtChg) (step reason : Nat) (s : State) : Acts p quiet s (State.chgEvent p c step reason s) := by
  unfold State.chgEvent
  repeat' first
    | fail_if_no_progress extract_lets
    | (with_reducible apply Acts.ite) <;> intro _
    | with_reducible apply Acts.refl
    | with_reducible assumption
    | with_reducible apply ttEvent_trans
    | dsimp -zeta only
theorem chgEvent_trans {p : Part} {c : TtChg} {step reason : Nat} {s : State} {s₀ : State} (h₀ : Acts p quiet s₀ s) : Acts p quiet s₀ (State.chgEvent p c step reason s) := h₀.trans (chgEvent_acts ..)
theorem chgEvent_keep {p : Part} {c : TtChg} {step reason : Nat} {s : State} {s₀ : State} (h₀ : Keep quiet s₀ s) : Keep quiet s₀ (State.chgEvent p c step reason s) := h₀.trans (chgEvent_acts ..).keep

theorem decided_acts (p : Part) (txn reason : Nat) (s : State) : Acts p quiet s (State.decided p txn reason s) := by
  unfold State.decided
  repeat' first
    | fail_if_no_progress extract_lets
    | (with_reducible apply Acts.ite) <;> intro _
    | with_reducible apply Acts.refl
    | with_reducible assumption
    | with_reducible apply put_trans
    | dsimp -zeta only
theorem decided_trans {p : Part} {txn reason : Nat} {s : State} {s₀ : State} (h₀ : Acts p quiet s₀ s) : Acts p quiet s₀ (State.decided p txn reason s) := h₀.trans (decided_acts ..)
theorem decided_keep {p : Part} {txn reason : Nat} {s : State} {s₀ : State} (h₀ : Keep quiet s₀ s) : Keep quiet s₀ (State.decided p txn reason s) := h₀.trans (decided_acts ..).keep

theorem sendChg_acts (p : Part) (c : TtChg) (b : CtlBody) (s : State) : Acts p quiet s (State.sendChg p c b s) := by
  unfold State.sendChg
  repeat' first
    | fail_if_no_progress extract_lets
    | (with_reducible apply Acts.ite) <;> intro _
    | with_reducible apply Acts.refl
    | with_reducible assumption
    | with_reducible apply sendWords_trans
    | dsimp -zeta only
theorem sendChg_trans {p : Part} {c : TtChg} {b : CtlBody} {s : State} {s₀ : State} (h₀ : Acts p quiet s₀ s) : Acts p quiet s₀ (State.sendChg p c b s) := h₀.trans (sendChg_acts ..)
theorem sendChg_keep {p : Part} {c : TtChg} {b : CtlBody} {s : State} {s₀ : State} (h₀ : Keep quiet s₀ s) : Keep quiet s₀ (State.sendChg p c b s) := h₀.trans (sendChg_acts ..).keep

theorem sendVote_acts (p : Part) (c : TtChg) (yes : Bool) (reason src ht32 : Nat) (s : State) : Acts p quiet s (State.sendVote p c yes reason src ht32 s) := by
  cases p
  all_goals unfold State.sendVote
  all_goals
  repeat' first
    | fail_if_no_progress extract_lets
    | (with_reducible apply Acts.ite) <;> intro _
    | with_reducible apply Acts.refl
    | with_reducible assumption
    | with_reducible apply sendWord_trans
    | with_reducible apply sendUp_trans
    | (with_reducible apply Acts.snd; with_reducible assumption)
    | split
    | dsimp -zeta only
    | dsimp +zetaDelta -zeta only
    | (exfalso; simp_all; done)
theorem sendVote_trans {p : Part} {c : TtChg} {yes : Bool} {reason src ht32 : Nat} {s : State} {s₀ : State} (h₀ : Acts p quiet s₀ s) : Acts p quiet s₀ (State.sendVote p c yes reason src ht32 s) := h₀.trans (sendVote_acts ..)
theorem sendVote_keep {p : Part} {c : TtChg} {yes : Bool} {reason src ht32 : Nat} {s : State} {s₀ : State} (h₀ : Keep quiet s₀ s) : Keep quiet s₀ (State.sendVote p c yes reason src ht32 s) := h₀.trans (sendVote_acts ..).keep

theorem unreserve_acts (i : Nat) (s : State) : Acts .fd quiet s (State.unreserve i s) := by
  unfold State.unreserve
  repeat' first
    | fail_if_no_progress extract_lets
    | (with_reducible apply Acts.ite) <;> intro _
    | with_reducible apply Acts.refl
    | with_reducible assumption
    | with_reducible apply setHall_trans
    | with_reducible apply setSlot_trans
    | with_reducible apply jobRegs_trans
    | split
    | dsimp -zeta only
    | dsimp +zetaDelta -zeta only
theorem unreserve_trans {i : Nat} {s : State} {s₀ : State} (h₀ : Acts .fd quiet s₀ s) : Acts .fd quiet s₀ (State.unreserve i s) := h₀.trans (unreserve_acts ..)
theorem unreserve_keep {i : Nat} {s : State} {s₀ : State} (h₀ : Keep quiet s₀ s) : Keep quiet s₀ (State.unreserve i s) := h₀.trans (unreserve_acts ..).keep

theorem unreserveAll_acts (c : TtChg) (s : State) : Acts .fd quiet s (State.unreserveAll c s) := by
  unfold State.unreserveAll
  repeat' first
    | fail_if_no_progress extract_lets
    | (with_reducible apply Acts.ite) <;> intro _
    | with_reducible apply Acts.refl
    | with_reducible assumption
    | with_reducible apply unreserve_trans
    | ((with_reducible apply Acts.foldl_trans); intro _ _)
    | dsimp -zeta only
theorem unreserveAll_trans {c : TtChg} {s : State} {s₀ : State} (h₀ : Acts .fd quiet s₀ s) : Acts .fd quiet s₀ (State.unreserveAll c s) := h₀.trans (unreserveAll_acts ..)
theorem unreserveAll_keep {c : TtChg} {s : State} {s₀ : State} (h₀ : Keep quiet s₀ s) : Keep quiet s₀ (State.unreserveAll c s) := h₀.trans (unreserveAll_acts ..).keep

theorem quotaAtDie_acts (c : TtChg) (ctx value : Nat) (s : State) : Acts .sc quiet s (State.quotaAtDie c ctx value s) := by
  unfold State.quotaAtDie
  repeat' first
    | fail_if_no_progress extract_lets
    | (with_reducible apply Acts.ite) <;> intro _
    | with_reducible apply Acts.refl
    | with_reducible assumption
    | with_reducible apply setQuota_trans
    | with_reducible apply chgEvent_trans
    | (with_reducible apply Acts.snd; with_reducible assumption)
    | split
    | dsimp -zeta only
    | dsimp +zetaDelta -zeta only
theorem quotaAtDie_trans {c : TtChg} {ctx value : Nat} {s : State} {s₀ : State} (h₀ : Acts .sc quiet s₀ s) : Acts .sc quiet s₀ (State.quotaAtDie c ctx value s) := h₀.trans (quotaAtDie_acts ..)
theorem quotaAtDie_keep {c : TtChg} {ctx value : Nat} {s : State} {s₀ : State} (h₀ : Keep quiet s₀ s) : Keep quiet s₀ (State.quotaAtDie c ctx value s) := h₀.trans (quotaAtDie_acts ..).keep

theorem applyAct_acts (p : Part) (c : TtChg) (s : State) (a : TtAct) : Acts p quiet s (State.applyAct p c s a) := by
  cases p
  all_goals unfold State.applyAct
  all_goals
  repeat' first
    | fail_if_no_progress extract_lets
    | (with_reducible apply Acts.ite) <;> intro _
    | with_reducible apply Acts.refl
    | with_reducible assumption
    | with_reducible apply put_trans
    | with_reducible apply setHall_trans
    | with_reducible apply setSpare_trans
    | with_reducible apply setJob_trans
    | with_reducible apply setSlot_trans
    | with_reducible apply acceptRef_trans
    | with_reducible apply cancelAccept_trans
    | with_reducible apply jobRegs_trans
    | with_reducible apply sbRegs_trans
    | with_reducible apply dropHall_trans
    | with_reducible apply changeActivates_trans
    | with_reducible apply setCadence_trans
    | with_reducible apply takeHoming_trans
    | with_reducible apply quotaAtDie_trans
    | ((with_reducible apply Acts.foldl_trans); intro _ _)
    | (with_reducible apply Acts.snd; with_reducible assumption)
    | split
    | dsimp -zeta only
    | dsimp +zetaDelta -zeta only
    | (exfalso; simp_all; done)
theorem applyAct_trans {p : Part} {c : TtChg} {s : State} {a : TtAct} {s₀ : State} (h₀ : Acts p quiet s₀ s) : Acts p quiet s₀ (State.applyAct p c s a) := h₀.trans (applyAct_acts ..)
theorem applyAct_keep {p : Part} {c : TtChg} {s : State} {a : TtAct} {s₀ : State} (h₀ : Keep quiet s₀ s) : Keep quiet s₀ (State.applyAct p c s a) := h₀.trans (applyAct_acts ..).keep

theorem applyMember_acts (p : Part) (c : TtChg) (s : State) (m : Nat × Nat × Nat) : Acts p false s (State.applyMember p c s m) := by
  unfold State.applyMember
  repeat' first
    | fail_if_no_progress extract_lets
    | (with_reducible apply Acts.ite) <;> intro _
    | with_reducible apply Acts.refl
    | with_reducible assumption
    | with_reducible apply memberChange_trans
    | with_reducible apply memberAtDie_trans
    | (with_reducible apply Acts.snd; with_reducible assumption)
    | split
    | exact fun h => absurd h Bool.false_ne_true
    | dsimp -zeta only
theorem applyMember_trans {p : Part} {c : TtChg} {s : State} {m : Nat × Nat × Nat} {s₀ : State} (h₀ : Acts p false s₀ s) : Acts p false s₀ (State.applyMember p c s m) := h₀.trans (applyMember_acts ..)
theorem applyMember_keep {p : Part} {c : TtChg} {s : State} {m : Nat × Nat × Nat} {s₀ : State} (h₀ : Keep false s₀ s) : Keep false s₀ (State.applyMember p c s m) := h₀.trans (applyMember_acts ..).keep

theorem ttApply_acts (p : Part) (c : TtChg) (step : Nat) (s : State) : Acts p false s (State.ttApply p c step s) := by
  unfold State.ttApply
  repeat' first
    | fail_if_no_progress extract_lets
    | (with_reducible apply Acts.ite) <;> intro _
    | with_reducible apply Acts.refl
    | with_reducible assumption
    | with_reducible apply bump_trans
    | with_reducible apply setFw_trans
    | with_reducible apply fwRegs_trans
    | with_reducible apply setChg_trans
    | with_reducible apply ttRegs_trans
    | with_reducible apply chgEvent_trans
    | with_reducible apply applyAct_trans
    | with_reducible apply applyMember_trans
    | ((with_reducible apply Acts.foldl_trans); intro _ _)
    | exact fun h => absurd h Bool.false_ne_true
    | dsimp -zeta only
    | dsimp +zetaDelta -zeta only
theorem ttApply_trans {p : Part} {c : TtChg} {step : Nat} {s : State} {s₀ : State} (h₀ : Acts p false s₀ s) : Acts p false s₀ (State.ttApply p c step s) := h₀.trans (ttApply_acts ..)
theorem ttApply_keep {p : Part} {c : TtChg} {step : Nat} {s : State} {s₀ : State} (h₀ : Keep false s₀ s) : Keep false s₀ (State.ttApply p c step s) := h₀.trans (ttApply_acts ..).keep

theorem ttOpp_acts (c : TtChg) (s : State) : Acts .sc quiet s (State.ttOpp c s) := by
  unfold State.ttOpp
  repeat' first
    | fail_if_no_progress extract_lets
    | (with_reducible apply Acts.ite) <;> intro _
    | with_reducible apply Acts.refl
    | with_reducible assumption
    | with_reducible apply oppFromChange_trans
    | ((with_reducible apply Acts.foldl_trans); intro _ _)
    | (with_reducible apply Acts.snd; with_reducible assumption)
    | split
    | dsimp -zeta only
    | dsimp +zetaDelta -zeta only
theorem ttOpp_trans {c : TtChg} {s : State} {s₀ : State} (h₀ : Acts .sc quiet s₀ s) : Acts .sc quiet s₀ (State.ttOpp c s) := h₀.trans (ttOpp_acts ..)
theorem ttOpp_keep {c : TtChg} {s : State} {s₀ : State} (h₀ : Keep quiet s₀ s) : Keep quiet s₀ (State.ttOpp c s) := h₀.trans (ttOpp_acts ..).keep

theorem ttPendFw_acts (p : Part) (c : TtChg) (s : State) : Acts p quiet s (State.ttPendFw p c s) := by
  unfold State.ttPendFw
  repeat' first
    | fail_if_no_progress extract_lets
    | (with_reducible apply Acts.ite) <;> intro _
    | with_reducible apply Acts.refl
    | with_reducible assumption
    | with_reducible apply setFw_trans
    | (with_reducible apply Acts.snd; with_reducible assumption)
    | split
    | dsimp -zeta only
theorem ttPendFw_trans {p : Part} {c : TtChg} {s : State} {s₀ : State} (h₀ : Acts p quiet s₀ s) : Acts p quiet s₀ (State.ttPendFw p c s) := h₀.trans (ttPendFw_acts ..)
theorem ttPendFw_keep {p : Part} {c : TtChg} {s : State} {s₀ : State} (h₀ : Keep quiet s₀ s) : Keep quiet s₀ (State.ttPendFw p c s) := h₀.trans (ttPendFw_acts ..).keep

theorem commitHeld_acts (p : Part) (c : TtChg) (s : State) : Acts p false s (State.commitHeld p c s) := by
  cases p
  all_goals unfold State.commitHeld
  all_goals
  repeat' first
    | fail_if_no_progress extract_lets
    | (with_reducible apply Acts.ite) <;> intro _
    | with_reducible apply Acts.refl
    | with_reducible assumption
    | with_reducible apply bump_trans
    | with_reducible apply fwRegs_trans
    | with_reducible apply setChg_trans
    | with_reducible apply ttRegs_trans
    | with_reducible apply chgEvent_trans
    | with_reducible apply decided_trans
    | with_reducible apply ttApply_trans
    | with_reducible apply ttOpp_trans
    | with_reducible apply ttPendFw_trans
    | split
    | exact fun h => absurd h Bool.false_ne_true
    | dsimp -zeta only
    | dsimp +zetaDelta -zeta only
    | (exfalso; simp_all; done)
theorem commitHeld_trans {p : Part} {c : TtChg} {s : State} {s₀ : State} (h₀ : Acts p false s₀ s) : Acts p false s₀ (State.commitHeld p c s) := h₀.trans (commitHeld_acts ..)
theorem commitHeld_keep {p : Part} {c : TtChg} {s : State} {s₀ : State} (h₀ : Keep false s₀ s) : Keep false s₀ (State.commitHeld p c s) := h₀.trans (commitHeld_acts ..).keep

theorem abortHeld_acts (p : Part) (c : TtChg) (reason origin : Nat) (s : State) : Acts p quiet s (State.abortHeld p c reason origin s) := by
  cases p
  all_goals unfold State.abortHeld
  all_goals
  repeat' first
    | fail_if_no_progress extract_lets
    | (with_reducible apply Acts.ite) <;> intro _
    | with_reducible apply Acts.refl
    | with_reducible assumption
    | with_reducible apply bump_trans
    | with_reducible apply setChg_trans
    | with_reducible apply ttRegs_trans
    | with_reducible apply chgEvent_trans
    | with_reducible apply decided_trans
    | with_reducible apply unreserveAll_trans
    | dsimp -zeta only
    | dsimp +zetaDelta -zeta only
    | (exfalso; simp_all; done)
theorem abortHeld_trans {p : Part} {c : TtChg} {reason origin : Nat} {s : State} {s₀ : State} (h₀ : Acts p quiet s₀ s) : Acts p quiet s₀ (State.abortHeld p c reason origin s) := h₀.trans (abortHeld_acts ..)
theorem abortHeld_keep {p : Part} {c : TtChg} {reason origin : Nat} {s : State} {s₀ : State} (h₀ : Keep quiet s₀ s) : Keep quiet s₀ (State.abortHeld p c reason origin s) := h₀.trans (abortHeld_acts ..).keep

theorem rootAbort_acts (c : TtChg) (reason origin : Nat) (s : State) : Acts .fd quiet s (State.rootAbort c reason origin s) := by
  unfold State.rootAbort
  repeat' first
    | fail_if_no_progress extract_lets
    | (with_reducible apply Acts.ite) <;> intro _
    | with_reducible apply Acts.refl
    | with_reducible assumption
    | with_reducible apply sendChg_trans
    | with_reducible apply abortHeld_trans
    | dsimp -zeta only
theorem rootAbort_trans {c : TtChg} {reason origin : Nat} {s : State} {s₀ : State} (h₀ : Acts .fd quiet s₀ s) : Acts .fd quiet s₀ (State.rootAbort c reason origin s) := h₀.trans (rootAbort_acts ..)
theorem rootAbort_keep {c : TtChg} {reason origin : Nat} {s : State} {s₀ : State} (h₀ : Keep quiet s₀ s) : Keep quiet s₀ (State.rootAbort c reason origin s) := h₀.trans (rootAbort_acts ..).keep

theorem rootDecide_acts (c : TtChg) (s : State) : Acts .fd false s (State.rootDecide c s) := by
  unfold State.rootDecide
  repeat' first
    | fail_if_no_progress extract_lets
    | (with_reducible apply Acts.ite) <;> intro _
    | with_reducible apply Acts.refl
    | with_reducible assumption
    | with_reducible apply sendChg_trans
    | with_reducible apply commitHeld_trans
    | with_reducible apply rootAbort_trans
    | split
    | exact fun h => absurd h Bool.false_ne_true
    | dsimp -zeta only
theorem rootDecide_trans {c : TtChg} {s : State} {s₀ : State} (h₀ : Acts .fd false s₀ s) : Acts .fd false s₀ (State.rootDecide c s) := h₀.trans (rootDecide_acts ..)
theorem rootDecide_keep {c : TtChg} {s : State} {s₀ : State} (h₀ : Keep false s₀ s) : Keep false s₀ (State.rootDecide c s) := h₀.trans (rootDecide_acts ..).keep

theorem combineYes_acts (p : Part) (c : TtChg) (s : State) : Acts p false s (State.combineYes p c s) := by
  cases p
  all_goals unfold State.combineYes
  all_goals
  repeat' first
    | fail_if_no_progress extract_lets
    | (with_reducible apply Acts.ite) <;> intro _
    | with_reducible apply Acts.refl
    | with_reducible assumption
    | with_reducible apply setChg_trans
    | with_reducible apply sendVote_trans
    | with_reducible apply rootDecide_trans
    | split
    | exact fun h => absurd h Bool.false_ne_true
    | dsimp -zeta only
    | (exfalso; simp_all; done)
theorem combineYes_trans {p : Part} {c : TtChg} {s : State} {s₀ : State} (h₀ : Acts p false s₀ s) : Acts p false s₀ (State.combineYes p c s) := h₀.trans (combineYes_acts ..)
theorem combineYes_keep {p : Part} {c : TtChg} {s : State} {s₀ : State} (h₀ : Keep false s₀ s) : Keep false s₀ (State.combineYes p c s) := h₀.trans (combineYes_acts ..).keep

theorem combineNo_acts (p : Part) (c : TtChg) (reason src ht32 : Nat) (s : State) : Acts p quiet s (State.combineNo p c reason src ht32 s) := by
  cases p
  all_goals unfold State.combineNo
  all_goals
  repeat' first
    | fail_if_no_progress extract_lets
    | (with_reducible apply Acts.ite) <;> intro _
    | with_reducible apply Acts.refl
    | with_reducible assumption
    | with_reducible apply setChg_trans
    | with_reducible apply chgEvent_trans
    | with_reducible apply sendVote_trans
    | with_reducible apply rootAbort_trans
    | split
    | dsimp -zeta only
    | dsimp +zetaDelta -zeta only
    | (exfalso; simp_all; done)
theorem combineNo_trans {p : Part} {c : TtChg} {reason src ht32 : Nat} {s : State} {s₀ : State} (h₀ : Acts p quiet s₀ s) : Acts p quiet s₀ (State.combineNo p c reason src ht32 s) := h₀.trans (combineNo_acts ..)
theorem combineNo_keep {p : Part} {c : TtChg} {reason src ht32 : Nat} {s : State} {s₀ : State} (h₀ : Keep quiet s₀ s) : Keep quiet s₀ (State.combineNo p c reason src ht32 s) := h₀.trans (combineNo_acts ..).keep

theorem ownVote_acts (p : Part) (c : TtChg) (s : State) : Acts p false s (State.ownVote p c s) := by
  unfold State.ownVote
  repeat' first
    | fail_if_no_progress extract_lets
    | (with_reducible apply Acts.ite) <;> intro _
    | with_reducible apply Acts.refl
    | with_reducible assumption
    | with_reducible apply setChg_trans
    | with_reducible apply chgEvent_trans
    | with_reducible apply combineYes_trans
    | with_reducible apply combineNo_trans
    | split
    | exact fun h => absurd h Bool.false_ne_true
    | dsimp -zeta only
    | dsimp +zetaDelta -zeta only
theorem ownVote_trans {p : Part} {c : TtChg} {s : State} {s₀ : State} (h₀ : Acts p false s₀ s) : Acts p false s₀ (State.ownVote p c s) := h₀.trans (ownVote_acts ..)
theorem ownVote_keep {p : Part} {c : TtChg} {s : State} {s₀ : State} (h₀ : Keep false s₀ s) : Keep false s₀ (State.ownVote p c s) := h₀.trans (ownVote_acts ..).keep

theorem takeSlots_trans {l as : List TtAct} {ss : List (Nat × Nat)} {s₀ s v : State} (h : State.takeSlots l s = .ok (as, ss, v)) (k : Acts .fd quiet s₀ s) :
    Acts .fd quiet s₀ v := by
  induction l generalizing s as ss v with
  | nil => simp only [State.takeSlots, Except.ok.injEq, Prod.mk.injEq] at h; obtain ⟨_, _, rfl⟩ := h; exact k
  | cons a t ih =>
    have gen : ∀ (xs : List SlotAttr) (l0 : List SlotAttr) (u0 u : State) (l : List SlotAttr), Acts .fd quiet s₀ u0 →
        xs.foldl (fun (a : Except Nat (List SlotAttr × State)) x => match a with
          | .error e => .error e
          | .ok (l, u) => match u.freeHall with
            | .inr e => .error e
            | .inl i =>
              let r := u.takeHall i
              let x1 := { x with hslot := i, gen := r.1 }
              .ok (l ++ [x1], r.2.setSlot i { state := .free, gen := r.1, job := x.job, reserved := true })) (.ok (l0, u0)) = .ok (l, u) →
        Acts .fd quiet s₀ u := by
      intro xs
      induction xs with
      | nil => intro l0 u0 u l h0 e; simp only [List.foldl_nil, Except.ok.injEq, Prod.mk.injEq] at e; obtain ⟨_, rfl⟩ := e; exact h0
      | cons x xs ihx =>
        intro l0 u0 u l h0 e
        rw [List.foldl_cons] at e
        dsimp only at e
        split at e
        · exfalso
          have stuck : ∀ (ys : List SlotAttr) (r : Nat), ys.foldl (fun (a : Except Nat (List SlotAttr × State)) x => match a with
              | .error e => .error e
              | .ok (l, u) => match u.freeHall with
                | .inr e => .error e
                | .inl i =>
                  let r := u.takeHall i
                  let x1 := { x with hslot := i, gen := r.1 }
                  .ok (l ++ [x1], r.2.setSlot i { state := .free, gen := r.1, job := x.job, reserved := true })) (.error r) = .error r := by
            intro ys r; induction ys with
            | nil => rfl
            | cons y ys ihy => rw [List.foldl_cons]; exact ihy
          rw [stuck] at e; cases e
        · exact ihx _ _ _ _ (setSlot_trans (takeHall_trans h0)) e
    cases a
    case swap fs xs =>
      simp only [State.takeSlots] at h
      split at h
      · cases h
      · rename_i e
        split at h
        · cases h
        · rename_i e2
          simp only [Except.ok.injEq, Prod.mk.injEq] at h
          obtain ⟨_, _, rfl⟩ := h
          exact ih e2 (gen _ _ _ _ _ k e)
    all_goals
      simp only [State.takeSlots] at h
      split at h
      · cases h
      · rename_i e2
        simp only [Except.ok.injEq, Prod.mk.injEq] at h
        obtain ⟨_, _, rfl⟩ := h
        exact ih e2 k

theorem ttSubmit_acts (scope job atKind at_ voteBeats : Nat) (body : List Byte) (s : State) : Acts .fd quiet s (State.ttSubmit scope job atKind at_ voteBeats body s).2 := by
  unfold State.ttSubmit
  repeat' first
    | (with_reducible apply takeSlots_trans; with_reducible assumption)
    | fail_if_no_progress extract_lets
    | (with_reducible apply Acts.iteS) <;> intro _
    | (with_reducible apply Acts.iteS2) <;> intro _
    | (with_reducible apply Acts.ite) <;> intro _
    | with_reducible apply Acts.refl
    | with_reducible assumption
    | dsimp -zeta only
    | with_reducible apply jobRegs_trans
    | with_reducible apply setTt_trans
    | with_reducible apply addChg_trans
    | ((with_reducible apply Acts.foldl_trans); intro _ _)
    | (with_reducible apply Acts.snd; with_reducible assumption)
    | split
    | dsimp -zeta only
    | dsimp +zetaDelta -zeta only
theorem ttSubmit_trans {scope job atKind at_ voteBeats : Nat} {body : List Byte} {s : State} {s₀ : State} (h₀ : Acts .fd quiet s₀ s) : Acts .fd quiet s₀ (State.ttSubmit scope job atKind at_ voteBeats body s).2 := h₀.trans (ttSubmit_acts ..)
theorem ttSubmit_keep {scope job atKind at_ voteBeats : Nat} {body : List Byte} {s : State} {s₀ : State} (h₀ : Keep quiet s₀ s) : Keep quiet s₀ (State.ttSubmit scope job atKind at_ voteBeats body s).2 := h₀.trans (ttSubmit_acts ..).keep

theorem execTtSubmit_acts (m : MbGo) (s : State) (hd : quiet = true → m.dma = false := by first | assumption | nofun) : ActsO m.part quiet s (execTtSubmit m s) := by
  unfold execTtSubmit
  repeat' first
    | fail_if_no_progress extract_lets
    | ((with_reducible apply mailbox_fd); intro _ _)
    | ((with_reducible apply mailbox_sc); intro _ _)
    | ((with_reducible apply mailbox_own2880); intro _ _)
    | ((with_reducible apply mailbox_any); intro _ _)
    | with_reducible apply atRoot_trans
    | (with_reducible apply Acts.iteS) <;> intro _
    | (with_reducible apply Acts.iteS2) <;> intro _
    | (with_reducible apply ActsO.ite) <;> intro _
    | with_reducible apply ActsO.next
    | (with_reducible apply Acts.ite) <;> intro _
    | with_reducible apply Acts.refl
    | with_reducible assumption
    | dsimp -zeta only
    | with_reducible apply ttSubmit_trans
    | split
    | dsimp -zeta only
    | dsimp +zetaDelta -zeta only

theorem installToward_acts (j n : Nat) (s : State) : Acts .fd quiet s (State.installToward j n s) := by
  unfold State.installToward
  repeat' first
    | fail_if_no_progress extract_lets
    | (with_reducible apply Acts.ite) <;> intro _
    | with_reducible apply Acts.refl
    | with_reducible assumption
    | with_reducible apply sendTunnel_trans
    | with_reducible apply sendTables_trans
    | ((with_reducible apply Acts.foldl_trans); intro _ _)
    | split
    | dsimp -zeta only
theorem installToward_trans {j n : Nat} {s : State} {s₀ : State} (h₀ : Acts .fd quiet s₀ s) : Acts .fd quiet s₀ (State.installToward j n s) := h₀.trans (installToward_acts ..)
theorem installToward_keep {j n : Nat} {s : State} {s₀ : State} (h₀ : Keep quiet s₀ s) : Keep quiet s₀ (State.installToward j n s) := h₀.trans (installToward_acts ..).keep

theorem sendPrepare_acts (p : Part) (c : TtChg) (bodySent : Bool) (vd : Nat) (s : State) (n : Nat) : Acts p quiet s (State.sendPrepare p c bodySent vd s n) := by
  cases p
  all_goals unfold State.sendPrepare
  all_goals
  repeat' first
    | fail_if_no_progress extract_lets
    | (with_reducible apply Acts.ite) <;> intro _
    | with_reducible apply Acts.refl
    | with_reducible assumption
    | with_reducible apply sendWord_trans
    | with_reducible apply sendTunnel_trans
    | with_reducible apply installToward_trans
    | ((with_reducible apply Acts.foldl_trans); intro _ _)
    | (with_reducible apply Acts.snd; with_reducible assumption)
    | split
    | dsimp -zeta only
    | dsimp +zetaDelta -zeta only
    | (exfalso; simp_all; done)
theorem sendPrepare_trans {p : Part} {c : TtChg} {bodySent : Bool} {vd : Nat} {s : State} {n : Nat} {s₀ : State} (h₀ : Acts p quiet s₀ s) : Acts p quiet s₀ (State.sendPrepare p c bodySent vd s n) := h₀.trans (sendPrepare_acts ..)
theorem sendPrepare_keep {p : Part} {c : TtChg} {bodySent : Bool} {vd : Nat} {s : State} {n : Nat} {s₀ : State} (h₀ : Keep quiet s₀ s) : Keep quiet s₀ (State.sendPrepare p c bodySent vd s n) := h₀.trans (sendPrepare_acts ..).keep

theorem execTtStart_acts (txn : Nat) (s : State) : ActsO .fd false s (execTtStart txn s) := by
  unfold execTtStart
  repeat' first
    | fail_if_no_progress extract_lets
    | (with_reducible apply ActsO.ite) <;> intro _
    | with_reducible apply ActsO.next
    | (with_reducible apply Acts.ite) <;> intro _
    | with_reducible apply Acts.refl
    | with_reducible assumption
    | with_reducible apply setChg_trans
    | with_reducible apply chgEvent_trans
    | with_reducible apply rootAbort_trans
    | with_reducible apply ownVote_trans
    | with_reducible apply sendPrepare_trans
    | ((with_reducible apply Acts.foldl_trans); intro _ _)
    | (with_reducible apply Acts.snd; with_reducible assumption)
    | split
    | exact fun h => absurd h Bool.false_ne_true
    | dsimp -zeta only
    | dsimp +zetaDelta -zeta only

theorem txnArg_trans {txn : Nat} {f : TtChg → MbOut × State} {p : Part} {s₀ s : State} (h : ∀ c, Acts p quiet s₀ (f c).2) (k : Acts p quiet s₀ s) :
    Acts p quiet s₀ (s.txnArg txn f).2 := by
  unfold State.txnArg
  split
  · exact k
  · split
    · exact h _
    · exact k

theorem txnArg_keep {txn : Nat} {f : TtChg → MbOut × State} {s₀ s : State} (h : ∀ c, Keep quiet s₀ (f c).2) (k : Keep quiet s₀ s) :
    Keep quiet s₀ (s.txnArg txn f).2 := by
  unfold State.txnArg
  split
  · exact k
  · split
    · exact h _
    · exact k

theorem execTtResult_acts (m : MbGo) (s : State) (hd : quiet = true → m.dma = false := by first | assumption | nofun) : ActsO m.part quiet s (execTtResult m s) := by
  unfold execTtResult
  repeat' first
    | fail_if_no_progress extract_lets
    | ((with_reducible apply mailbox_fd); intro _ _)
    | ((with_reducible apply mailbox_sc); intro _ _)
    | ((with_reducible apply mailbox_own2880); intro _ _)
    | ((with_reducible apply mailbox_any); intro _ _)
    | with_reducible apply atRoot_trans
    | (with_reducible apply Acts.iteS) <;> intro _
    | (with_reducible apply Acts.iteS2) <;> intro _
    | (with_reducible apply ActsO.ite) <;> intro _
    | with_reducible apply ActsO.next
    | (with_reducible apply Acts.ite) <;> intro _
    | with_reducible apply Acts.refl
    | with_reducible assumption
    | dsimp -zeta only
    | with_reducible apply txnArg_trans
    | intro _
    | split
    | dsimp -zeta only

theorem execTtCancel_acts (m : MbGo) (s : State) (hd : quiet = true → m.dma = false := by first | assumption | nofun) : ActsO m.part quiet s (execTtCancel m s) := by
  unfold execTtCancel
  repeat' first
    | fail_if_no_progress extract_lets
    | ((with_reducible apply mailbox_fd); intro _ _)
    | ((with_reducible apply mailbox_sc); intro _ _)
    | ((with_reducible apply mailbox_own2880); intro _ _)
    | ((with_reducible apply mailbox_any); intro _ _)
    | with_reducible apply atRoot_trans
    | (with_reducible apply Acts.iteS) <;> intro _
    | (with_reducible apply Acts.iteS2) <;> intro _
    | (with_reducible apply ActsO.ite) <;> intro _
    | with_reducible apply ActsO.next
    | (with_reducible apply Acts.ite) <;> intro _
    | with_reducible apply Acts.refl
    | with_reducible assumption
    | dsimp -zeta only
    | with_reducible apply rootAbort_trans
    | with_reducible apply txnArg_trans
    | intro _
    | split
    | dsimp -zeta only

theorem execTtRead_acts (m : MbGo) (s : State) (hd : quiet = true → m.dma = false := by first | assumption | nofun) : ActsO m.part quiet s (execTtRead m s) := by
  unfold execTtRead
  repeat' first
    | fail_if_no_progress extract_lets
    | ((with_reducible apply mailbox_fd); intro _ _)
    | ((with_reducible apply mailbox_sc); intro _ _)
    | ((with_reducible apply mailbox_own2880); intro _ _)
    | ((with_reducible apply mailbox_any); intro _ _)
    | (with_reducible apply Acts.iteS) <;> intro _
    | (with_reducible apply Acts.iteS2) <;> intro _
    | (with_reducible apply ActsO.ite) <;> intro _
    | with_reducible apply ActsO.next
    | (with_reducible apply Acts.ite) <;> intro _
    | with_reducible apply Acts.refl
    | with_reducible assumption
    | dsimp -zeta only
    | (with_reducible apply Acts.snd; with_reducible assumption)
    | split
    | dsimp -zeta only

theorem execTtBodyReceive_acts (p : Part) (n txn job scope : Nat) (bytes : List Byte) (s : State) : ActsO p quiet s (execTtBodyReceive p n txn job scope bytes s) := by
  unfold execTtBodyReceive
  repeat' first
    | fail_if_no_progress extract_lets
    | (with_reducible apply ActsO.ite) <;> intro _
    | with_reducible apply ActsO.next
    | (with_reducible apply Acts.ite) <;> intro _
    | with_reducible apply Acts.refl
    | with_reducible assumption
    | with_reducible apply modLink_trans
    | with_reducible apply sendTunnels_trans
    | with_reducible apply setTt_trans
    | split
    | dsimp -zeta only
    | dsimp +zetaDelta -zeta only

theorem execPrepareWord_acts (p : Part) (n job : Nat) (hallwide : Bool) (txn atKind at_ voteBeats digest : Nat) (s : State) : ActsO p false s (execPrepareWord p n job hallwide txn atKind at_ voteBeats digest s) := by
  unfold execPrepareWord
  repeat' first
    | fail_if_no_progress extract_lets
    | (with_reducible apply ActsO.ite) <;> intro _
    | with_reducible apply ActsO.next
    | (with_reducible apply Acts.ite) <;> intro _
    | with_reducible apply Acts.refl
    | with_reducible assumption
    | with_reducible apply takeWord_trans
    | with_reducible apply setTt_trans
    | with_reducible apply setChg_trans
    | with_reducible apply addChg_trans
    | with_reducible apply ttRegs_trans
    | with_reducible apply chgEvent_trans
    | with_reducible apply ownVote_trans
    | with_reducible apply sendPrepare_trans
    | ((with_reducible apply Acts.foldl_trans); intro _ _)
    | split
    | exact fun h => absurd h Bool.false_ne_true
    | dsimp -zeta only
    | dsimp +zetaDelta -zeta only

theorem execVoteWord_acts (p : Part) (n job : Nat) (hallwide : Bool) (txn : Nat) (yes : Bool) (reason src ht32 : Nat) (s : State) : ActsO p false s (execVoteWord p n job hallwide txn yes reason src ht32 s) := by
  unfold execVoteWord
  repeat' first
    | fail_if_no_progress extract_lets
    | (with_reducible apply ActsO.ite) <;> intro _
    | with_reducible apply ActsO.next
    | (with_reducible apply Acts.ite) <;> intro _
    | with_reducible apply Acts.refl
    | with_reducible assumption
    | with_reducible apply takeWord_trans
    | with_reducible apply setChg_trans
    | with_reducible apply ttRegs_trans
    | with_reducible apply ttEvent_trans
    | with_reducible apply combineYes_trans
    | with_reducible apply combineNo_trans
    | (with_reducible apply Acts.snd; with_reducible assumption)
    | split
    | exact fun h => absurd h Bool.false_ne_true
    | dsimp -zeta only
    | dsimp +zetaDelta -zeta only

theorem execTtRevoke_acts (p : Part) (txn : Nat) (s : State) : ActsO p quiet s (execTtRevoke p txn s) := by
  unfold execTtRevoke
  repeat' first
    | fail_if_no_progress extract_lets
    | (with_reducible apply ActsO.ite) <;> intro _
    | with_reducible apply ActsO.next
    | (with_reducible apply Acts.ite) <;> intro _
    | with_reducible apply Acts.refl
    | with_reducible assumption
    | with_reducible apply setChg_trans
    | with_reducible apply ttRegs_trans
    | with_reducible apply combineNo_trans
    | (with_reducible apply Acts.snd; with_reducible assumption)
    | split
    | dsimp -zeta only
    | dsimp +zetaDelta -zeta only

theorem execCommitWord_acts (p : Part) (n job : Nat) (hallwide : Bool) (txn atKind at_ : Nat) (s : State) : ActsO p false s (execCommitWord p n job hallwide txn atKind at_ s) := by
  unfold execCommitWord
  repeat' first
    | fail_if_no_progress extract_lets
    | (with_reducible apply ActsO.ite) <;> intro _
    | with_reducible apply ActsO.next
    | (with_reducible apply Acts.ite) <;> intro _
    | with_reducible apply Acts.refl
    | with_reducible assumption
    | with_reducible apply takeWord_trans
    | with_reducible apply ttEvent_trans
    | with_reducible apply sendChg_trans
    | with_reducible apply commitHeld_trans
    | (with_reducible apply Acts.snd; with_reducible assumption)
    | split
    | exact fun h => absurd h Bool.false_ne_true
    | dsimp -zeta only
    | dsimp +zetaDelta -zeta only

theorem execAbortWord_acts (p : Part) (n job : Nat) (hallwide : Bool) (txn reason origin : Nat) (s : State) : ActsO p quiet s (execAbortWord p n job hallwide txn reason origin s) := by
  unfold execAbortWord
  repeat' first
    | fail_if_no_progress extract_lets
    | (with_reducible apply ActsO.ite) <;> intro _
    | with_reducible apply ActsO.next
    | (with_reducible apply Acts.ite) <;> intro _
    | with_reducible apply Acts.refl
    | with_reducible assumption
    | with_reducible apply sendWords_trans
    | with_reducible apply takeWord_trans
    | with_reducible apply ttEvent_trans
    | with_reducible apply sendChg_trans
    | with_reducible apply abortHeld_trans
    | (with_reducible apply Acts.snd; with_reducible assumption)
    | split
    | dsimp -zeta only
    | dsimp +zetaDelta -zeta only

theorem execVoteDeadline_acts (txn : Nat) (s : State) : KeepO quiet s (execVoteDeadline txn s) := by
  unfold execVoteDeadline
  repeat' first
    | fail_if_no_progress extract_lets
    | (with_reducible apply KeepO.ite) <;> intro _
    | with_reducible apply KeepO.next
    | (with_reducible apply Keep.ite) <;> intro _
    | with_reducible apply Keep.refl
    | with_reducible assumption
    | with_reducible apply awaitBeat_keep
    | with_reducible apply rootAbort_keep
    | (with_reducible apply Keep.snd; with_reducible assumption)
    | split
    | dsimp -zeta only
    | dsimp +zetaDelta -zeta only

theorem execTtEffect_acts (p : Part) (txn : Nat) (s : State) : KeepO false s (execTtEffect p txn s) := by
  unfold execTtEffect
  repeat' first
    | fail_if_no_progress extract_lets
    | (with_reducible apply KeepO.ite) <;> intro _
    | with_reducible apply KeepO.next
    | (with_reducible apply Keep.ite) <;> intro _
    | with_reducible apply Keep.refl
    | with_reducible assumption
    | with_reducible apply awaitHt_keep
    | with_reducible apply ttApply_keep
    | with_reducible apply ttOpp_keep
    | ((with_reducible apply Keep.foldl_trans); intro _ _)
    | (with_reducible apply Keep.snd; with_reducible assumption)
    | split
    | exact fun h => absurd h Bool.false_ne_true
    | dsimp -zeta only
    | dsimp +zetaDelta -zeta only

end Sys2Proof.Machine
end

