-- ==== Sys2Proof/Laws/ActsRoots.lean ====
section
/-! SUPPORT. One lemma an operation: what it keeps (Acts, Keep). -/

namespace Sys2Proof.Machine

open Sys2Proof

set_option linter.unusedTactic false
set_option linter.unreachableTactic false
set_option linter.unusedVariables false

variable {quiet : Bool}

theorem sendCompleted_acts (n : Nat) (s : State) : Acts .fd quiet s (State.sendCompleted n s) := by
  unfold State.sendCompleted
  repeat' first
    | fail_if_no_progress extract_lets
    | (with_reducible apply Acts.ite) <;> intro _
    | with_reducible apply Acts.refl
    | with_reducible assumption
    | with_reducible apply sendWord_trans
    | ((with_reducible apply Acts.foldl_trans); intro _ _)
    | split
    | dsimp -zeta only
    | dsimp +zetaDelta -zeta only
theorem sendCompleted_trans {n : Nat} {s : State} {s₀ : State} (h₀ : Acts .fd quiet s₀ s) : Acts .fd quiet s₀ (State.sendCompleted n s) := h₀.trans (sendCompleted_acts ..)
theorem sendCompleted_keep {n : Nat} {s : State} {s₀ : State} (h₀ : Keep quiet s₀ s) : Keep quiet s₀ (State.sendCompleted n s) := h₀.trans (sendCompleted_acts ..).keep

theorem promoteRegs_acts (s : State) : Acts .fd quiet s (State.promoteRegs s) := by
  unfold State.promoteRegs
  repeat' first
    | fail_if_no_progress extract_lets
    | (with_reducible apply Acts.ite) <;> intro _
    | with_reducible apply Acts.refl
    | with_reducible assumption
    | with_reducible apply put_trans
    | with_reducible apply putFlag_trans
    | dsimp -zeta only
theorem promoteRegs_trans {s : State} {s₀ : State} (h₀ : Acts .fd quiet s₀ s) : Acts .fd quiet s₀ (State.promoteRegs s) := h₀.trans (promoteRegs_acts ..)
theorem promoteRegs_keep {s : State} {s₀ : State} (h₀ : Keep quiet s₀ s) : Keep quiet s₀ (State.promoteRegs s) := h₀.trans (promoteRegs_acts ..).keep

theorem execRootStateSend_acts (s : State) : KeepO quiet s (execRootStateSend s) := by
  unfold execRootStateSend
  repeat' first
    | fail_if_no_progress extract_lets
    | (with_reducible apply KeepO.ite) <;> intro _
    | with_reducible apply KeepO.next
    | (with_reducible apply Keep.ite) <;> intro _
    | with_reducible apply Keep.refl
    | with_reducible assumption
    | with_reducible apply periodic_keep
    | with_reducible apply sendTunnels_keep
    | split
    | dsimp -zeta only
    | dsimp +zetaDelta -zeta only

theorem execRootState_acts (n up0 up1 left0 left1 promoSeq : Nat) (s : State) : ActsO .fd quiet s (execRootState n up0 up1 left0 left1 promoSeq s) := by
  unfold execRootState
  repeat' first
    | fail_if_no_progress extract_lets
    | (with_reducible apply ActsO.ite) <;> intro _
    | with_reducible apply ActsO.next
    | (with_reducible apply Acts.ite) <;> intro _
    | with_reducible apply Acts.refl
    | with_reducible assumption
    | with_reducible apply modLink_trans
    | with_reducible apply setHall_trans
    | with_reducible apply promoteRegs_trans
    | dsimp -zeta only
    | dsimp +zetaDelta -zeta only

theorem takeOverChanges_acts (s : State) : Acts .fd quiet s (State.takeOverChanges s) := by
  unfold State.takeOverChanges
  repeat' first
    | fail_if_no_progress extract_lets
    | (with_reducible apply Acts.ite) <;> intro _
    | with_reducible apply Acts.refl
    | with_reducible assumption
    | with_reducible apply setTt_trans
    | with_reducible apply ttRegs_trans
    | with_reducible apply sendChg_trans
    | with_reducible apply rootAbort_trans
    | ((with_reducible apply Acts.foldl_trans); intro _ _)
    | split
    | dsimp -zeta only
    | dsimp +zetaDelta -zeta only
theorem takeOverChanges_trans {s : State} {s₀ : State} (h₀ : Acts .fd quiet s₀ s) : Acts .fd quiet s₀ (State.takeOverChanges s) := h₀.trans (takeOverChanges_acts ..)
theorem takeOverChanges_keep {s : State} {s₀ : State} (h₀ : Keep quiet s₀ s) : Keep quiet s₀ (State.takeOverChanges s) := h₀.trans (takeOverChanges_acts ..).keep

theorem resendDown_acts (s : State) : Acts .fd quiet s (State.resendDown s) := by
  unfold State.resendDown
  repeat' first
    | fail_if_no_progress extract_lets
    | (with_reducible apply Acts.ite) <;> intro _
    | with_reducible apply Acts.refl
    | with_reducible assumption
    | with_reducible apply modLink_trans
    | with_reducible apply sendBell_trans
    | with_reducible apply sendCompleted_trans
    | ((with_reducible apply Acts.foldl_trans); intro _ _)
    | (with_reducible apply Acts.snd; with_reducible assumption)
    | split
    | dsimp -zeta only
    | dsimp +zetaDelta -zeta only
theorem resendDown_trans {s : State} {s₀ : State} (h₀ : Acts .fd quiet s₀ s) : Acts .fd quiet s₀ (State.resendDown s) := h₀.trans (resendDown_acts ..)
theorem resendDown_keep {s : State} {s₀ : State} (h₀ : Keep quiet s₀ s) : Keep quiet s₀ (State.resendDown s) := h₀.trans (resendDown_acts ..).keep

theorem promotionRecovery_acts (s : State) : Acts .fd quiet s (State.promotionRecovery s) := by
  unfold State.promotionRecovery
  repeat' first
    | fail_if_no_progress extract_lets
    | (with_reducible apply Acts.ite) <;> intro _
    | with_reducible apply Acts.refl
    | with_reducible assumption
    | with_reducible apply put_trans
    | with_reducible apply setJob_trans
    | ((with_reducible apply Acts.foldl_trans); intro _ _)
    | (with_reducible apply Acts.snd; with_reducible assumption)
    | split
    | dsimp -zeta only
    | dsimp +zetaDelta -zeta only
theorem promotionRecovery_trans {s : State} {s₀ : State} (h₀ : Acts .fd quiet s₀ s) : Acts .fd quiet s₀ (State.promotionRecovery s) := h₀.trans (promotionRecovery_acts ..)
theorem promotionRecovery_keep {s : State} {s₀ : State} (h₀ : Keep quiet s₀ s) : Keep quiet s₀ (State.promotionRecovery s) := h₀.trans (promotionRecovery_acts ..).keep

theorem promote2_acts (s : State) : Acts .fd quiet s (State.promote2 s) := by
  unfold State.promote2
  repeat' first
    | fail_if_no_progress extract_lets
    | (with_reducible apply Acts.ite) <;> intro _
    | with_reducible apply Acts.refl
    | with_reducible assumption
    | with_reducible apply put_trans
    | with_reducible apply setHall_trans
    | with_reducible apply setRole_trans
    | with_reducible apply faultLog_trans
    | with_reducible apply faultAlert_trans
    | with_reducible apply setHold_trans
    | with_reducible apply slewTo_trans
    | with_reducible apply enterHoldover_trans
    | with_reducible apply selectFrom_trans
    | with_reducible apply promoteRegs_trans
    | with_reducible apply takeOverChanges_trans
    | with_reducible apply resendDown_trans
    | with_reducible apply promotionRecovery_trans
    | split
    | dsimp -zeta only
    | dsimp +zetaDelta -zeta only
theorem promote2_trans {s : State} {s₀ : State} (h₀ : Acts .fd quiet s₀ s) : Acts .fd quiet s₀ (State.promote2 s) := h₀.trans (promote2_acts ..)
theorem promote2_keep {s : State} {s₀ : State} (h₀ : Keep quiet s₀ s) : Keep quiet s₀ (State.promote2 s) := h₀.trans (promote2_acts ..).keep

theorem execStandbyPromote_acts (s : State) : KeepO quiet s (execStandbyPromote s) := by
  unfold execStandbyPromote
  repeat' first
    | fail_if_no_progress extract_lets
    | (with_reducible apply KeepO.ite) <;> intro _
    | with_reducible apply KeepO.next
    | (with_reducible apply Keep.ite) <;> intro _
    | with_reducible apply Keep.refl
    | with_reducible assumption
    | with_reducible apply awaitNow_keep
    | with_reducible apply awaitBeat_keep
    | with_reducible apply toBeat_keep
    | with_reducible apply promoteRegs_keep
    | with_reducible apply promote2_keep
    | (with_reducible apply Keep.snd; with_reducible assumption)
    | split
    | dsimp -zeta only
    | dsimp +zetaDelta -zeta only

theorem execRootPromote_acts (m : MbGo) (s : State) (hd : quiet = true → m.dma = false := by first | assumption | nofun) : ActsO m.part quiet s (execRootPromote m s) := by
  unfold execRootPromote
  repeat' first
    | fail_if_no_progress extract_lets
    | ((with_reducible apply mailbox_fd); intro _ _)
    | ((with_reducible apply mailbox_sc); intro _ _)
    | ((with_reducible apply mailbox_own2880); intro _ _)
    | ((with_reducible apply mailbox_any); intro _ _)
    | (with_reducible apply Acts.iteS) <;> intro _
    | (with_reducible apply Acts.iteS2) <;> intro _
    | (with_reducible apply ActsO.ite) <;> intro _
    | with_reducible apply ActsO.next
    | (with_reducible apply Acts.ite) <;> intro _
    | with_reducible apply Acts.refl
    | with_reducible assumption
    | dsimp -zeta only
    | with_reducible apply setHall_trans
    | split
    | dsimp -zeta only

theorem demote_acts (s : State) : Acts .fd quiet s (State.demote s) := by
  unfold State.demote
  repeat' first
    | fail_if_no_progress extract_lets
    | (with_reducible apply Acts.ite) <;> intro _
    | with_reducible apply Acts.refl
    | with_reducible assumption
    | with_reducible apply put_trans
    | with_reducible apply setHall_trans
    | with_reducible apply setRole_trans
    | with_reducible apply faultLog_trans
    | with_reducible apply faultAlert_trans
    | with_reducible apply enterHoldover_trans
    | with_reducible apply reselect_trans
    | split
    | dsimp -zeta only
    | dsimp +zetaDelta -zeta only
theorem demote_trans {s : State} {s₀ : State} (h₀ : Acts .fd quiet s₀ s) : Acts .fd quiet s₀ (State.demote s) := h₀.trans (demote_acts ..)
theorem demote_keep {s : State} {s₀ : State} (h₀ : Keep quiet s₀ s) : Keep quiet s₀ (State.demote s) := h₀.trans (demote_acts ..).keep

theorem execRootDemote_acts (s : State) : KeepO quiet s (execRootDemote s) := by
  unfold execRootDemote
  repeat' first
    | fail_if_no_progress extract_lets
    | (with_reducible apply KeepO.ite) <;> intro _
    | with_reducible apply KeepO.next
    | (with_reducible apply Keep.ite) <;> intro _
    | with_reducible apply Keep.refl
    | with_reducible assumption
    | with_reducible apply awaitNow_keep
    | with_reducible apply demote_keep
    | (with_reducible apply Keep.snd; with_reducible assumption)
    | split
    | dsimp -zeta only
    | dsimp +zetaDelta -zeta only

end Sys2Proof.Machine
end

