-- ==== Sys2Proof/Laws/ActsDrills.lean ====
section
/-! SUPPORT. One lemma an operation: what it keeps (Acts, Keep). -/

namespace Sys2Proof.Machine

open Sys2Proof

set_option linter.unusedTactic false
set_option linter.unreachableTactic false
set_option linter.unusedVariables false

variable {quiet : Bool}

theorem drillRec_acts (type target step : Nat) (s : State) : Acts .fd quiet s (State.drillRec type target step s) := by
  unfold State.drillRec
  repeat' first
    | fail_if_no_progress extract_lets
    | (with_reducible apply Acts.ite) <;> intro _
    | with_reducible apply Acts.refl
    | with_reducible assumption
    | with_reducible apply record_trans
    | dsimp -zeta only
theorem drillRec_trans {type target step : Nat} {s : State} {s₀ : State} (h₀ : Acts .fd quiet s₀ s) : Acts .fd quiet s₀ (State.drillRec type target step s) := h₀.trans (drillRec_acts ..)
theorem drillRec_keep {type target step : Nat} {s : State} {s₀ : State} (h₀ : Keep quiet s₀ s) : Keep quiet s₀ (State.drillRec type target step s) := h₀.trans (drillRec_acts ..).keep

theorem inject_acts (type target : Nat) (s : State) : Keep false s (State.inject type target s) := by
  unfold State.inject
  repeat' first
    | fail_if_no_progress extract_lets
    | (with_reducible apply Keep.ite) <;> intro _
    | with_reducible apply Keep.refl
    | with_reducible assumption
    | with_reducible apply modLink_keep
    | with_reducible apply setSpare_keep
    | with_reducible apply restage_keep
    | with_reducible apply setRef_keep
    | with_reducible apply disqualify_keep
    | with_reducible apply sendWord_keep
    | with_reducible apply sendTunnel_keep
    | with_reducible apply linkDown_keep
    | with_reducible apply setPref_keep
    | with_reducible apply prefectDown_keep
    | ((with_reducible apply Keep.foldl_trans); intro _ _)
    | (with_reducible apply Keep.snd; with_reducible assumption)
    | split
    | exact fun h => absurd h Bool.false_ne_true
    | dsimp -zeta only
    | dsimp +zetaDelta -zeta only
theorem inject_keep {type target : Nat} {s : State} {s₀ : State} (h₀ : Keep false s₀ s) : Keep false s₀ (State.inject type target s) := h₀.trans (inject_acts ..)

theorem startDrill_acts (type target : Nat) (s : State) : Keep false s (State.startDrill type target s) := by
  unfold State.startDrill
  repeat' first
    | fail_if_no_progress extract_lets
    | (with_reducible apply Keep.ite) <;> intro _
    | with_reducible apply Keep.refl
    | with_reducible assumption
    | with_reducible apply put_keep
    | with_reducible apply setSpare_keep
    | with_reducible apply drillRec_keep
    | with_reducible apply inject_keep
    | exact fun h => absurd h Bool.false_ne_true
    | dsimp -zeta only
    | dsimp +zetaDelta -zeta only
theorem startDrill_keep {type target : Nat} {s : State} {s₀ : State} (h₀ : Keep false s₀ s) : Keep false s₀ (State.startDrill type target s) := h₀.trans (startDrill_acts ..)

theorem logDrill_acts (type target ht32 result : Nat) (s : State) : Acts .fd quiet s (State.logDrill type target ht32 result s) := by
  unfold State.logDrill
  repeat' first
    | fail_if_no_progress extract_lets
    | (with_reducible apply Acts.ite) <;> intro _
    | with_reducible apply Acts.refl
    | with_reducible assumption
    | with_reducible apply put_trans
    | with_reducible apply setSpare_trans
    | dsimp -zeta only
theorem logDrill_trans {type target ht32 result : Nat} {s : State} {s₀ : State} (h₀ : Acts .fd quiet s₀ s) : Acts .fd quiet s₀ (State.logDrill type target ht32 result s) := h₀.trans (logDrill_acts ..)
theorem logDrill_keep {type target ht32 result : Nat} {s : State} {s₀ : State} (h₀ : Keep quiet s₀ s) : Keep quiet s₀ (State.logDrill type target ht32 result s) := h₀.trans (logDrill_acts ..).keep

theorem execDrillMoment_acts (target : Nat) (other partnerIdle periodEnd : Bool) (s : State) : KeepO false s (execDrillMoment target other partnerIdle periodEnd s) := by
  unfold execDrillMoment
  repeat' first
    | fail_if_no_progress extract_lets
    | (with_reducible apply KeepO.ite) <;> intro _
    | with_reducible apply KeepO.next
    | (with_reducible apply Keep.ite) <;> intro _
    | with_reducible apply Keep.refl
    | with_reducible assumption
    | with_reducible apply bump_keep
    | with_reducible apply setSpare_keep
    | with_reducible apply drillRec_keep
    | with_reducible apply startDrill_keep
    | with_reducible apply logDrill_keep
    | (with_reducible apply Keep.snd; with_reducible assumption)
    | split
    | exact fun h => absurd h Bool.false_ne_true
    | dsimp -zeta only
    | dsimp +zetaDelta -zeta only

theorem withdraw_acts (d : Drill) (s : State) : Acts .fd quiet s (State.withdraw d s) := by
  unfold State.withdraw
  repeat' first
    | fail_if_no_progress extract_lets
    | (with_reducible apply Acts.ite) <;> intro _
    | with_reducible apply Acts.refl
    | with_reducible assumption
    | with_reducible apply put_trans
    | with_reducible apply bump_trans
    | with_reducible apply setSpare_trans
    | with_reducible apply setRef_trans
    | ((with_reducible apply Acts.foldl_trans); intro _ _)
    | (with_reducible apply Acts.snd; with_reducible assumption)
    | split
    | dsimp -zeta only
    | dsimp +zetaDelta -zeta only
theorem withdraw_trans {d : Drill} {s : State} {s₀ : State} (h₀ : Acts .fd quiet s₀ s) : Acts .fd quiet s₀ (State.withdraw d s) := h₀.trans (withdraw_acts ..)
theorem withdraw_keep {d : Drill} {s : State} {s₀ : State} (h₀ : Keep quiet s₀ s) : Keep quiet s₀ (State.withdraw d s) := h₀.trans (withdraw_acts ..).keep

theorem execDrillEnd_acts (seen realFault : Bool) (s : State) : KeepO quiet s (execDrillEnd seen realFault s) := by
  unfold execDrillEnd
  repeat' first
    | fail_if_no_progress extract_lets
    | (with_reducible apply KeepO.ite) <;> intro _
    | with_reducible apply KeepO.next
    | (with_reducible apply Keep.ite) <;> intro _
    | with_reducible apply Keep.refl
    | with_reducible assumption
    | with_reducible apply put_keep
    | with_reducible apply bump_keep
    | with_reducible apply faultLog_keep
    | with_reducible apply faultAlert_keep
    | with_reducible apply awaitNow_keep
    | with_reducible apply drillRec_keep
    | with_reducible apply logDrill_keep
    | with_reducible apply withdraw_keep
    | (with_reducible apply Keep.snd; with_reducible assumption)
    | split
    | dsimp -zeta only
    | dsimp +zetaDelta -zeta only

theorem execDrillNow_acts (m : MbGo) (other partnerIdle : Bool) (s : State) : KeepO false s (execDrillNow m other partnerIdle s) := by
  have hd : false = true → m.dma = false := nofun
  unfold execDrillNow
  repeat' first
    | fail_if_no_progress extract_lets
    | ((with_reducible apply mailbox_keep); intro _ _)
    | (with_reducible apply Keep.iteS) <;> intro _
    | (with_reducible apply Keep.iteS2) <;> intro _
    | (with_reducible apply KeepO.ite) <;> intro _
    | with_reducible apply KeepO.next
    | (with_reducible apply Keep.ite) <;> intro _
    | with_reducible apply Keep.refl
    | with_reducible assumption
    | dsimp -zeta only
    | with_reducible apply startDrill_keep
    | split
    | exact fun h => absurd h Bool.false_ne_true
    | dsimp -zeta only
    | dsimp +zetaDelta -zeta only

theorem execDrillRead_acts (m : MbGo) (s : State) (hd : quiet = true → m.dma = false := by first | assumption | nofun) : ActsO m.part quiet s (execDrillRead m s) := by
  unfold execDrillRead
  repeat' first
    | fail_if_no_progress extract_lets
    | ((with_reducible apply mailbox_fd); intro _ _)
    | ((with_reducible apply mailbox_sc); intro _ _)
    | ((with_reducible apply mailbox_own2880); intro _ _)
    | ((with_reducible apply mailbox_any); intro _ _)
    | (with_reducible apply Acts.iteS) <;> intro _
    | (with_reducible apply Acts.iteS2) <;> intro _
    | (with_reducible apply ActsO.ite) <;> intro _
    | with_reducible apply ActsO.next
    | (with_reducible apply Acts.ite) <;> intro _
    | with_reducible apply Acts.refl
    | with_reducible assumption
    | dsimp -zeta only
    | split
    | dsimp -zeta only

theorem queueTest_acts (p : Part) (kind i : Nat) (s : State) : Acts p quiet s (State.queueTest p kind i s) := by
  unfold State.queueTest
  repeat' first
    | fail_if_no_progress extract_lets
    | (with_reducible apply Acts.ite) <;> intro _
    | with_reducible apply Acts.refl
    | with_reducible assumption
    | with_reducible apply setUnit_trans
    | (with_reducible apply Acts.snd; with_reducible assumption)
    | split
    | dsimp -zeta only
    | dsimp +zetaDelta -zeta only
theorem queueTest_trans {p : Part} {kind i : Nat} {s : State} {s₀ : State} (h₀ : Acts p quiet s₀ s) : Acts p quiet s₀ (State.queueTest p kind i s) := h₀.trans (queueTest_acts ..)
theorem queueTest_keep {p : Part} {kind i : Nat} {s : State} {s₀ : State} (h₀ : Keep quiet s₀ s) : Keep quiet s₀ (State.queueTest p kind i s) := h₀.trans (queueTest_acts ..).keep

theorem execSelftest_acts (m : MbGo) (s : State) (hd : quiet = true → m.dma = false := by first | assumption | nofun) : ActsO m.part quiet s (execSelftest m s) := by
  unfold execSelftest
  repeat' first
    | fail_if_no_progress extract_lets
    | ((with_reducible apply mailbox_fd); intro _ _)
    | ((with_reducible apply mailbox_sc); intro _ _)
    | ((with_reducible apply mailbox_own2880); intro _ _)
    | ((with_reducible apply mailbox_any); intro _ _)
    | (with_reducible apply Acts.iteS) <;> intro _
    | (with_reducible apply Acts.iteS2) <;> intro _
    | (with_reducible apply ActsO.ite) <;> intro _
    | with_reducible apply ActsO.next
    | (with_reducible apply Acts.ite) <;> intro _
    | with_reducible apply Acts.refl
    | with_reducible assumption
    | dsimp -zeta only
    | with_reducible apply queueTest_trans
    | split
    | dsimp -zeta only
    | dsimp +zetaDelta -zeta only

theorem execSelftestRun_acts (p : Part) (kind i : Nat) (passed : Bool) (s : State) : KeepO quiet s (execSelftestRun p kind i passed s) := by
  unfold execSelftestRun
  repeat' first
    | fail_if_no_progress extract_lets
    | (with_reducible apply KeepO.ite) <;> intro _
    | with_reducible apply KeepO.next
    | (with_reducible apply Keep.ite) <;> intro _
    | with_reducible apply Keep.refl
    | with_reducible assumption
    | with_reducible apply setUnit_keep
    | with_reducible apply modLink_keep
    | with_reducible apply awaitNow_keep
    | with_reducible apply pairCal_keep
    | with_reducible apply countPipe_keep
    | split
    | dsimp -zeta only
    | dsimp +zetaDelta -zeta only

theorem execPipeUnretire_acts (m : MbGo) (s : State) (hd : quiet = true → m.dma = false := by first | assumption | nofun) : ActsO m.part quiet s (execPipeUnretire m s) := by
  unfold execPipeUnretire
  repeat' first
    | fail_if_no_progress extract_lets
    | ((with_reducible apply mailbox_fd); intro _ _)
    | ((with_reducible apply mailbox_sc); intro _ _)
    | ((with_reducible apply mailbox_own2880); intro _ _)
    | ((with_reducible apply mailbox_any); intro _ _)
    | (with_reducible apply Acts.iteS) <;> intro _
    | (with_reducible apply Acts.iteS2) <;> intro _
    | (with_reducible apply ActsO.ite) <;> intro _
    | with_reducible apply ActsO.next
    | (with_reducible apply Acts.ite) <;> intro _
    | with_reducible apply Acts.refl
    | with_reducible assumption
    | dsimp -zeta only
    | with_reducible apply put_trans
    | with_reducible apply pipeStates_trans
    | with_reducible apply pipesShort_trans
    | with_reducible apply setPipe_trans
    | with_reducible apply tableChanged_trans
    | split
    | dsimp -zeta only
    | dsimp +zetaDelta -zeta only

theorem execFaultTableWrite_acts (s : State) : ActsO .fd quiet s (execFaultTableWrite s) := by
  unfold execFaultTableWrite
  repeat' first
    | fail_if_no_progress extract_lets
    | (with_reducible apply ActsO.ite) <;> intro _
    | with_reducible apply ActsO.next
    | (with_reducible apply Acts.ite) <;> intro _
    | with_reducible apply Acts.refl
    | with_reducible assumption
    | with_reducible apply setSpare_trans
    | split
    | dsimp -zeta only

theorem rcJob_acts (masks : Nat × Nat) (s : State) (j : Nat) : Acts .fd quiet s (State.rcJob masks s j) := by
  unfold State.rcJob
  repeat' first
    | fail_if_no_progress extract_lets
    | (with_reducible apply Acts.ite) <;> intro _
    | with_reducible apply Acts.refl
    | with_reducible assumption
    | with_reducible apply put_trans
    | with_reducible apply setJob_trans
    | (with_reducible apply Acts.snd; with_reducible assumption)
    | split
    | dsimp -zeta only
    | dsimp +zetaDelta -zeta only
theorem rcJob_trans {masks : Nat × Nat} {s : State} {j : Nat} {s₀ : State} (h₀ : Acts .fd quiet s₀ s) : Acts .fd quiet s₀ (State.rcJob masks s j) := h₀.trans (rcJob_acts ..)
theorem rcJob_keep {masks : Nat × Nat} {s : State} {j : Nat} {s₀ : State} (h₀ : Keep quiet s₀ s) : Keep quiet s₀ (State.rcJob masks s j) := h₀.trans (rcJob_acts ..).keep

theorem execReportCardTick_acts (s : State) : KeepO quiet s (execReportCardTick s) := by
  unfold execReportCardTick
  repeat' first
    | fail_if_no_progress extract_lets
    | (with_reducible apply KeepO.ite) <;> intro _
    | with_reducible apply KeepO.next
    | (with_reducible apply Keep.ite) <;> intro _
    | with_reducible apply Keep.refl
    | with_reducible assumption
    | with_reducible apply periodic_keep
    | with_reducible apply sendTunnels_keep
    | with_reducible apply rcJob_keep
    | ((with_reducible apply Keep.foldl_trans); intro _ _)
    | split
    | dsimp -zeta only
    | dsimp +zetaDelta -zeta only

theorem execRcRead_acts (m : MbGo) (s : State) (hd : quiet = true → m.dma = false := by first | assumption | nofun) : ActsO m.part quiet s (execRcRead m s) := by
  unfold execRcRead
  repeat' first
    | fail_if_no_progress extract_lets
    | ((with_reducible apply mailbox_fd); intro _ _)
    | ((with_reducible apply mailbox_sc); intro _ _)
    | ((with_reducible apply mailbox_own2880); intro _ _)
    | ((with_reducible apply mailbox_any); intro _ _)
    | with_reducible apply atRoot_trans
    | (with_reducible apply Acts.iteS) <;> intro _
    | (with_reducible apply Acts.iteS2) <;> intro _
    | (with_reducible apply ActsO.ite) <;> intro _
    | with_reducible apply ActsO.next
    | (with_reducible apply Acts.ite) <;> intro _
    | with_reducible apply Acts.refl
    | with_reducible assumption
    | dsimp -zeta only
    | split
    | dsimp -zeta only
    | dsimp +zetaDelta -zeta only

theorem execRcClear_acts (m : MbGo) (s : State) (hd : quiet = true → m.dma = false := by first | assumption | nofun) : ActsO m.part quiet s (execRcClear m s) := by
  unfold execRcClear
  repeat' first
    | fail_if_no_progress extract_lets
    | ((with_reducible apply mailbox_fd); intro _ _)
    | ((with_reducible apply mailbox_sc); intro _ _)
    | ((with_reducible apply mailbox_own2880); intro _ _)
    | ((with_reducible apply mailbox_any); intro _ _)
    | with_reducible apply atRoot_trans
    | (with_reducible apply Acts.iteS) <;> intro _
    | (with_reducible apply Acts.iteS2) <;> intro _
    | (with_reducible apply ActsO.ite) <;> intro _
    | with_reducible apply ActsO.next
    | (with_reducible apply Acts.ite) <;> intro _
    | with_reducible apply Acts.refl
    | with_reducible assumption
    | dsimp -zeta only
    | with_reducible apply rcClear_trans
    | ((with_reducible apply Acts.foldl_trans); intro _ _)
    | split
    | dsimp -zeta only
    | dsimp +zetaDelta -zeta only

theorem execFaultRead_acts (m : MbGo) (s : State) (hd : quiet = true → m.dma = false := by first | assumption | nofun) : ActsO m.part quiet s (execFaultRead m s) := by
  unfold execFaultRead
  repeat' first
    | fail_if_no_progress extract_lets
    | ((with_reducible apply mailbox_fd); intro _ _)
    | ((with_reducible apply mailbox_sc); intro _ _)
    | ((with_reducible apply mailbox_own2880); intro _ _)
    | ((with_reducible apply mailbox_any); intro _ _)
    | (with_reducible apply Acts.iteS) <;> intro _
    | (with_reducible apply Acts.iteS2) <;> intro _
    | (with_reducible apply ActsO.ite) <;> intro _
    | with_reducible apply ActsO.next
    | (with_reducible apply Acts.ite) <;> intro _
    | with_reducible apply Acts.refl
    | with_reducible assumption
    | dsimp -zeta only
    | split
    | dsimp -zeta only

end Sys2Proof.Machine
end

