-- ==== Sys2Proof/Laws/ActsLinkTrain.lean ====
section
/-! SUPPORT. One lemma an operation: what it keeps (Acts, Keep). -/

namespace Sys2Proof.Machine

open Sys2Proof

set_option linter.unusedTactic false
set_option linter.unreachableTactic false
set_option linter.unusedVariables false

variable {quiet : Bool}

theorem leaveJobs_acts (s : State) : Acts .sc quiet s (State.leaveJobs s) := by
  unfold State.leaveJobs
  repeat' first
    | fail_if_no_progress extract_lets
    | (with_reducible apply Acts.ite) <;> intro _
    | with_reducible apply Acts.refl
    | with_reducible assumption
    | with_reducible apply put_trans
    | with_reducible apply setSync_trans
    | with_reducible apply clearLevel_trans
    | ((with_reducible apply Acts.foldl_trans); intro _ _)
    | dsimp -zeta only
theorem leaveJobs_trans {s : State} {s₀ : State} (h₀ : Acts .sc quiet s₀ s) : Acts .sc quiet s₀ (State.leaveJobs s) := h₀.trans (leaveJobs_acts ..)
theorem leaveJobs_keep {s : State} {s₀ : State} (h₀ : Keep quiet s₀ s) : Keep quiet s₀ (State.leaveJobs s) := h₀.trans (leaveJobs_acts ..).keep

theorem takeRoll_acts (p : Part) (n : Nat) (s : State) : Acts p quiet s (State.takeRoll p n s) := by
  unfold State.takeRoll
  repeat' first
    | fail_if_no_progress extract_lets
    | (with_reducible apply Acts.ite) <;> intro _
    | with_reducible apply Acts.refl
    | with_reducible assumption
    | with_reducible apply put_trans
    | with_reducible apply putFlag_trans
    | with_reducible apply setRole_trans
    | with_reducible apply restage_trans
    | with_reducible apply linkDown_trans
    | with_reducible apply dropUnused_trans
    | with_reducible apply reroll_trans
    | with_reducible apply leaveJobs_trans
    | (with_reducible apply Acts.snd; with_reducible assumption)
    | split
    | dsimp -zeta only
    | dsimp +zetaDelta -zeta only
theorem takeRoll_trans {p : Part} {n : Nat} {s : State} {s₀ : State} (h₀ : Acts p quiet s₀ s) : Acts p quiet s₀ (State.takeRoll p n s) := h₀.trans (takeRoll_acts ..)
theorem takeRoll_keep {p : Part} {n : Nat} {s : State} {s₀ : State} (h₀ : Keep quiet s₀ s) : Keep quiet s₀ (State.takeRoll p n s) := h₀.trans (takeRoll_acts ..).keep

theorem enterRanging_acts (p : Part) (n : Nat) (s : State) : Acts p quiet s (State.enterRanging p n s) := by
  unfold State.enterRanging
  repeat' first
    | fail_if_no_progress extract_lets
    | (with_reducible apply Acts.ite) <;> intro _
    | with_reducible apply Acts.refl
    | with_reducible assumption
    | with_reducible apply modLink_trans
    | with_reducible apply setLstate_trans
    | dsimp -zeta only
theorem enterRanging_trans {p : Part} {n : Nat} {s : State} {s₀ : State} (h₀ : Acts p quiet s₀ s) : Acts p quiet s₀ (State.enterRanging p n s) := h₀.trans (enterRanging_acts ..)
theorem enterRanging_keep {p : Part} {n : Nat} {s : State} {s₀ : State} (h₀ : Keep quiet s₀ s) : Keep quiet s₀ (State.enterRanging p n s) := h₀.trans (enterRanging_acts ..).keep

theorem peerTrained_acts (ok : Bool) (s : State) : Acts .fd quiet s (State.peerTrained ok s) := by
  unfold State.peerTrained
  repeat' first
    | fail_if_no_progress extract_lets
    | (with_reducible apply Acts.ite) <;> intro _
    | with_reducible apply Acts.refl
    | with_reducible assumption
    | with_reducible apply runHoming_trans
    | (with_reducible apply Acts.snd; with_reducible assumption)
    | split
    | dsimp -zeta only
theorem peerTrained_trans {ok : Bool} {s : State} {s₀ : State} (h₀ : Acts .fd quiet s₀ s) : Acts .fd quiet s₀ (State.peerTrained ok s) := h₀.trans (peerTrained_acts ..)
theorem peerTrained_keep {ok : Bool} {s : State} {s₀ : State} (h₀ : Keep quiet s₀ s) : Keep quiet s₀ (State.peerTrained ok s) := h₀.trans (peerTrained_acts ..).keep

theorem train_acts (p : Part) (n : Nat) (s : State) : Keep quiet s (State.train p n s) := by
  unfold State.train
  repeat' first
    | fail_if_no_progress extract_lets
    | (with_reducible apply Keep.ite) <;> intro _
    | with_reducible apply Keep.refl
    | with_reducible assumption
    | with_reducible apply put_keep
    | with_reducible apply putFlag_keep
    | with_reducible apply modLink_keep
    | with_reducible apply setHall_keep
    | with_reducible apply raise_keep
    | with_reducible apply cablingHold_keep
    | with_reducible apply takeRoll_keep
    | with_reducible apply enterRanging_keep
    | with_reducible apply peerTrained_keep
    | split
    | dsimp -zeta only
    | dsimp +zetaDelta -zeta only
theorem train_keep {p : Part} {n : Nat} {s : State} {s₀ : State} (h₀ : Keep quiet s₀ s) : Keep quiet s₀ (State.train p n s) := h₀.trans (train_acts ..)

theorem linkRegs_acts (p : Part) (n : Nat) (s : State) : Acts p quiet s (State.linkRegs p n s) := by
  unfold State.linkRegs
  repeat' first
    | fail_if_no_progress extract_lets
    | (with_reducible apply Acts.ite) <;> intro _
    | with_reducible apply Acts.refl
    | with_reducible assumption
    | with_reducible apply put_trans
    | with_reducible apply putS_trans
    | split
    | dsimp -zeta only
    | dsimp +zetaDelta -zeta only
theorem linkRegs_trans {p : Part} {n : Nat} {s : State} {s₀ : State} (h₀ : Acts p quiet s₀ s) : Acts p quiet s₀ (State.linkRegs p n s) := h₀.trans (linkRegs_acts ..)
theorem linkRegs_keep {p : Part} {n : Nat} {s : State} {s₀ : State} (h₀ : Keep quiet s₀ s) : Keep quiet s₀ (State.linkRegs p n s) := h₀.trans (linkRegs_acts ..).keep

theorem takeExchange_acts (p : Part) (n : Nat) (ab : Int × Int) (s : State) : Acts p quiet s (State.takeExchange p n ab s) := by
  unfold State.takeExchange
  repeat' first
    | fail_if_no_progress extract_lets
    | (with_reducible apply Acts.ite) <;> intro _
    | with_reducible apply Acts.refl
    | with_reducible assumption
    | with_reducible apply setLink_trans
    | with_reducible apply linkRegs_trans
    | split
    | dsimp -zeta only
    | dsimp +zetaDelta -zeta only
theorem takeExchange_trans {p : Part} {n : Nat} {ab : Int × Int} {s : State} {s₀ : State} (h₀ : Acts p quiet s₀ s) : Acts p quiet s₀ (State.takeExchange p n ab s) := h₀.trans (takeExchange_acts ..)
theorem takeExchange_keep {p : Part} {n : Nat} {ab : Int × Int} {s : State} {s₀ : State} (h₀ : Keep quiet s₀ s) : Keep quiet s₀ (State.takeExchange p n ab s) := h₀.trans (takeExchange_acts ..).keep

theorem newCal_acts (p : Part) (n basis : Nat) (asym : Int) (s : State) : Acts p quiet s (State.newCal p n basis asym s) := by
  unfold State.newCal
  repeat' first
    | fail_if_no_progress extract_lets
    | (with_reducible apply Acts.ite) <;> intro _
    | with_reducible apply Acts.refl
    | with_reducible assumption
    | with_reducible apply put_trans
    | with_reducible apply putS_trans
    | with_reducible apply setLink_trans
    | dsimp -zeta only
    | dsimp +zetaDelta -zeta only
theorem newCal_trans {p : Part} {n basis : Nat} {asym : Int} {s : State} {s₀ : State} (h₀ : Acts p quiet s₀ s) : Acts p quiet s₀ (State.newCal p n basis asym s) := h₀.trans (newCal_acts ..)
theorem newCal_keep {p : Part} {n basis : Nat} {asym : Int} {s : State} {s₀ : State} (h₀ : Keep quiet s₀ s) : Keep quiet s₀ (State.newCal p n basis asym s) := h₀.trans (newCal_acts ..).keep

theorem calCheck_acts (p : Part) (n : Nat) (s : State) : Acts p quiet s (State.calCheck p n s) := by
  unfold State.calCheck
  repeat' first
    | fail_if_no_progress extract_lets
    | (with_reducible apply Acts.ite) <;> intro _
    | with_reducible apply Acts.refl
    | with_reducible assumption
    | with_reducible apply put_trans
    | with_reducible apply suspect_trans
    | with_reducible apply wantCal_trans
    | with_reducible apply newCal_trans
    | split
    | dsimp -zeta only
    | dsimp +zetaDelta -zeta only
theorem calCheck_trans {p : Part} {n : Nat} {s : State} {s₀ : State} (h₀ : Acts p quiet s₀ s) : Acts p quiet s₀ (State.calCheck p n s) := h₀.trans (calCheck_acts ..)
theorem calCheck_keep {p : Part} {n : Nat} {s : State} {s₀ : State} (h₀ : Keep quiet s₀ s) : Keep quiet s₀ (State.calCheck p n s) := h₀.trans (calCheck_acts ..).keep

theorem channelCheck_acts (p : Part) (n : Nat) (s : State) : Acts p quiet s (State.channelCheck p n s) := by
  unfold State.channelCheck
  repeat' first
    | fail_if_no_progress extract_lets
    | (with_reducible apply Acts.ite) <;> intro _
    | with_reducible apply Acts.refl
    | with_reducible assumption
    | with_reducible apply put_trans
    | with_reducible apply modLink_trans
    | with_reducible apply raise_trans
    | with_reducible apply linkEvent_trans
    | with_reducible apply suspect_trans
    | split
    | dsimp -zeta only
    | dsimp +zetaDelta -zeta only
theorem channelCheck_trans {p : Part} {n : Nat} {s : State} {s₀ : State} (h₀ : Acts p quiet s₀ s) : Acts p quiet s₀ (State.channelCheck p n s) := h₀.trans (channelCheck_acts ..)
theorem channelCheck_keep {p : Part} {n : Nat} {s : State} {s₀ : State} (h₀ : Keep quiet s₀ s) : Keep quiet s₀ (State.channelCheck p n s) := h₀.trans (channelCheck_acts ..).keep

theorem residueBeat_acts (p : Part) (n : Nat) (s : State) : Acts p quiet s (State.residueBeat p n s) := by
  unfold State.residueBeat
  repeat' first
    | fail_if_no_progress extract_lets
    | (with_reducible apply Acts.ite) <;> intro _
    | with_reducible apply Acts.refl
    | with_reducible assumption
    | with_reducible apply modLink_trans
    | split
    | dsimp -zeta only
    | dsimp +zetaDelta -zeta only
theorem residueBeat_trans {p : Part} {n : Nat} {s : State} {s₀ : State} (h₀ : Acts p quiet s₀ s) : Acts p quiet s₀ (State.residueBeat p n s) := h₀.trans (residueBeat_acts ..)
theorem residueBeat_keep {p : Part} {n : Nat} {s : State} {s₀ : State} (h₀ : Keep quiet s₀ s) : Keep quiet s₀ (State.residueBeat p n s) := h₀.trans (residueBeat_acts ..).keep

theorem laneSum_acts (p : Part) (s : State) : Acts p quiet s (State.laneSum p s) := by
  unfold State.laneSum
  repeat' first
    | fail_if_no_progress extract_lets
    | (with_reducible apply Acts.ite) <;> intro _
    | with_reducible apply Acts.refl
    | with_reducible assumption
    | with_reducible apply put_trans
    | with_reducible apply putFlag_trans
    | split
    | dsimp -zeta only
    | dsimp +zetaDelta -zeta only
theorem laneSum_trans {p : Part} {s : State} {s₀ : State} (h₀ : Acts p quiet s₀ s) : Acts p quiet s₀ (State.laneSum p s) := h₀.trans (laneSum_acts ..)
theorem laneSum_keep {p : Part} {s : State} {s₀ : State} (h₀ : Keep quiet s₀ s) : Keep quiet s₀ (State.laneSum p s) := h₀.trans (laneSum_acts ..).keep

theorem startSwap_acts (p : Part) (n : Nat) (back : Bool) (s : State) : Acts p quiet s (State.startSwap p n back s) := by
  unfold State.startSwap
  repeat' first
    | fail_if_no_progress extract_lets
    | (with_reducible apply Acts.ite) <;> intro _
    | with_reducible apply Acts.refl
    | with_reducible assumption
    | with_reducible apply put_trans
    | with_reducible apply modLink_trans
    | with_reducible apply wake_trans
    | dsimp -zeta only
theorem startSwap_trans {p : Part} {n : Nat} {back : Bool} {s : State} {s₀ : State} (h₀ : Acts p quiet s₀ s) : Acts p quiet s₀ (State.startSwap p n back s) := h₀.trans (startSwap_acts ..)
theorem startSwap_keep {p : Part} {n : Nat} {back : Bool} {s : State} {s₀ : State} (h₀ : Keep quiet s₀ s) : Keep quiet s₀ (State.startSwap p n back s) := h₀.trans (startSwap_acts ..).keep

theorem spareNone_acts (p : Part) (n : Nat) (s : State) : Acts p quiet s (State.spareNone p n s) := by
  unfold State.spareNone
  repeat' first
    | fail_if_no_progress extract_lets
    | (with_reducible apply Acts.ite) <;> intro _
    | with_reducible apply Acts.refl
    | with_reducible assumption
    | with_reducible apply faultLog_trans
    | with_reducible apply faultAlert_trans
    | with_reducible apply laneSum_trans
    | dsimp -zeta only
theorem spareNone_trans {p : Part} {n : Nat} {s : State} {s₀ : State} (h₀ : Acts p quiet s₀ s) : Acts p quiet s₀ (State.spareNone p n s) := h₀.trans (spareNone_acts ..)
theorem spareNone_keep {p : Part} {n : Nat} {s : State} {s₀ : State} (h₀ : Keep quiet s₀ s) : Keep quiet s₀ (State.spareNone p n s) := h₀.trans (spareNone_acts ..).keep

theorem laneCheck_acts (p : Part) (n : Nat) (s : State) : Acts p quiet s (State.laneCheck p n s) := by
  unfold State.laneCheck
  repeat' first
    | fail_if_no_progress extract_lets
    | (with_reducible apply Acts.ite) <;> intro _
    | with_reducible apply Acts.refl
    | with_reducible assumption
    | with_reducible apply putFlag_trans
    | with_reducible apply linkEvent_trans
    | with_reducible apply laneSum_trans
    | with_reducible apply startSwap_trans
    | with_reducible apply spareNone_trans
    | ((with_reducible apply Acts.foldl_trans); intro _ _)
    | split
    | dsimp -zeta only
    | dsimp +zetaDelta -zeta only
theorem laneCheck_trans {p : Part} {n : Nat} {s : State} {s₀ : State} (h₀ : Acts p quiet s₀ s) : Acts p quiet s₀ (State.laneCheck p n s) := h₀.trans (laneCheck_acts ..)
theorem laneCheck_keep {p : Part} {n : Nat} {s : State} {s₀ : State} (h₀ : Keep quiet s₀ s) : Keep quiet s₀ (State.laneCheck p n s) := h₀.trans (laneCheck_acts ..).keep

theorem sendHoming_acts (n : Nat) (s : State) : Acts .fd quiet s (State.sendHoming n s) := by
  unfold State.sendHoming
  repeat' first
    | fail_if_no_progress extract_lets
    | (with_reducible apply Acts.ite) <;> intro _
    | with_reducible apply Acts.refl
    | with_reducible assumption
    | with_reducible apply sendTunnel_trans
    | ((with_reducible apply Acts.foldl_trans); intro _ _)
    | split
    | dsimp -zeta only
theorem sendHoming_trans {n : Nat} {s : State} {s₀ : State} (h₀ : Acts .fd quiet s₀ s) : Acts .fd quiet s₀ (State.sendHoming n s) := h₀.trans (sendHoming_acts ..)
theorem sendHoming_keep {n : Nat} {s : State} {s₀ : State} (h₀ : Keep quiet s₀ s) : Keep quiet s₀ (State.sendHoming n s) := h₀.trans (sendHoming_acts ..).keep

theorem sendLabel_acts (n : Nat) (s : State) : Acts .fd quiet s (State.sendLabel n s) := by
  unfold State.sendLabel
  repeat' first
    | fail_if_no_progress extract_lets
    | (with_reducible apply Acts.ite) <;> intro _
    | with_reducible apply Acts.refl
    | with_reducible assumption
    | with_reducible apply sendTunnel_trans
    | split
    | dsimp -zeta only
theorem sendLabel_trans {n : Nat} {s : State} {s₀ : State} (h₀ : Acts .fd quiet s₀ s) : Acts .fd quiet s₀ (State.sendLabel n s) := h₀.trans (sendLabel_acts ..)
theorem sendLabel_keep {n : Nat} {s : State} {s₀ : State} (h₀ : Keep quiet s₀ s) : Keep quiet s₀ (State.sendLabel n s) := h₀.trans (sendLabel_acts ..).keep

theorem restoreWords_acts (n : Nat) (s : State) : Acts .fd quiet s (State.restoreWords n s) := by
  unfold State.restoreWords
  repeat' first
    | fail_if_no_progress extract_lets
    | (with_reducible apply Acts.ite) <;> intro _
    | with_reducible apply Acts.refl
    | with_reducible assumption
    | with_reducible apply sendWord_trans
    | ((with_reducible apply Acts.foldl_trans); intro _ _)
    | dsimp -zeta only
    | dsimp +zetaDelta -zeta only
theorem restoreWords_trans {n : Nat} {s : State} {s₀ : State} (h₀ : Acts .fd quiet s₀ s) : Acts .fd quiet s₀ (State.restoreWords n s) := h₀.trans (restoreWords_acts ..)
theorem restoreWords_keep {n : Nat} {s : State} {s₀ : State} (h₀ : Keep quiet s₀ s) : Keep quiet s₀ (State.restoreWords n s) := h₀.trans (restoreWords_acts ..).keep

theorem installBelow_acts (n : Nat) (s : State) : Acts .fd quiet s (State.installBelow n s) := by
  unfold State.installBelow
  repeat' first
    | fail_if_no_progress extract_lets
    | (with_reducible apply Acts.ite) <;> intro _
    | with_reducible apply Acts.refl
    | with_reducible assumption
    | with_reducible apply sendTunnel_trans
    | with_reducible apply sendTables_trans
    | with_reducible apply restoreWords_trans
    | ((with_reducible apply Acts.foldl_trans); intro _ _)
    | split
    | dsimp -zeta only
    | dsimp +zetaDelta -zeta only
theorem installBelow_trans {n : Nat} {s : State} {s₀ : State} (h₀ : Acts .fd quiet s₀ s) : Acts .fd quiet s₀ (State.installBelow n s) := h₀.trans (installBelow_acts ..)
theorem installBelow_keep {n : Nat} {s : State} {s₀ : State} (h₀ : Keep quiet s₀ s) : Keep quiet s₀ (State.installBelow n s) := h₀.trans (installBelow_acts ..).keep

theorem resendChanges_acts (p : Part) (n : Nat) (s : State) : Acts p quiet s (State.resendChanges p n s) := by
  unfold State.resendChanges
  repeat' first
    | fail_if_no_progress extract_lets
    | (with_reducible apply Acts.ite) <;> intro _
    | with_reducible apply Acts.refl
    | with_reducible assumption
    | with_reducible apply sendWord_trans
    | with_reducible apply setChg_trans
    | with_reducible apply sendPrepare_trans
    | ((with_reducible apply Acts.foldl_trans); intro _ _)
    | split
    | dsimp -zeta only
    | dsimp +zetaDelta -zeta only
theorem resendChanges_trans {p : Part} {n : Nat} {s : State} {s₀ : State} (h₀ : Acts p quiet s₀ s) : Acts p quiet s₀ (State.resendChanges p n s) := h₀.trans (resendChanges_acts ..)
theorem resendChanges_keep {p : Part} {n : Nat} {s : State} {s₀ : State} (h₀ : Keep quiet s₀ s) : Keep quiet s₀ (State.resendChanges p n s) := h₀.trans (resendChanges_acts ..).keep

theorem resendFloors_acts (n : Nat) (s : State) : Acts .fd quiet s (State.resendFloors n s) := by
  unfold State.resendFloors
  repeat' first
    | fail_if_no_progress extract_lets
    | (with_reducible apply Acts.ite) <;> intro _
    | with_reducible apply Acts.refl
    | with_reducible assumption
    | with_reducible apply sendWord_trans
    | ((with_reducible apply Acts.foldl_trans); intro _ _)
    | (with_reducible apply Acts.snd; with_reducible assumption)
    | split
    | dsimp -zeta only
    | dsimp +zetaDelta -zeta only
theorem resendFloors_trans {n : Nat} {s : State} {s₀ : State} (h₀ : Acts .fd quiet s₀ s) : Acts .fd quiet s₀ (State.resendFloors n s) := h₀.trans (resendFloors_acts ..)
theorem resendFloors_keep {n : Nat} {s : State} {s₀ : State} (h₀ : Keep quiet s₀ s) : Keep quiet s₀ (State.resendFloors n s) := h₀.trans (resendFloors_acts ..).keep

theorem alignedDown_acts (n : Nat) (s : State) : Acts .fd quiet s (State.alignedDown n s) := by
  unfold State.alignedDown
  repeat' first
    | fail_if_no_progress extract_lets
    | (with_reducible apply Acts.ite) <;> intro _
    | with_reducible apply Acts.refl
    | with_reducible assumption
    | with_reducible apply sendRules_trans
    | with_reducible apply sendCompleted_trans
    | with_reducible apply sendHoming_trans
    | with_reducible apply sendLabel_trans
    | with_reducible apply installBelow_trans
    | with_reducible apply resendChanges_trans
    | with_reducible apply resendFloors_trans
    | split
    | dsimp -zeta only
    | dsimp +zetaDelta -zeta only
theorem alignedDown_trans {n : Nat} {s : State} {s₀ : State} (h₀ : Acts .fd quiet s₀ s) : Acts .fd quiet s₀ (State.alignedDown n s) := h₀.trans (alignedDown_acts ..)
theorem alignedDown_keep {n : Nat} {s : State} {s₀ : State} (h₀ : Keep quiet s₀ s) : Keep quiet s₀ (State.alignedDown n s) := h₀.trans (alignedDown_acts ..).keep

theorem alignedUp_acts (n : Nat) (s : State) : Keep quiet s (State.alignedUp n s) := by
  unfold State.alignedUp
  repeat' first
    | fail_if_no_progress extract_lets
    | (with_reducible apply Keep.ite) <;> intro _
    | with_reducible apply Keep.refl
    | with_reducible assumption
    | with_reducible apply join_keep
    | with_reducible apply sendSlotUp_keep
    | with_reducible apply rebaseAll_keep
    | ((with_reducible apply Keep.foldl_trans); intro _ _)
    | split
    | dsimp -zeta only
theorem alignedUp_keep {n : Nat} {s : State} {s₀ : State} (h₀ : Keep quiet s₀ s) : Keep quiet s₀ (State.alignedUp n s) := h₀.trans (alignedUp_acts ..)

theorem alignedDie_acts (n : Nat) (s : State) : Keep quiet s (State.alignedDie n s) := by
  unfold State.alignedDie
  repeat' first
    | fail_if_no_progress extract_lets
    | (with_reducible apply Keep.ite) <;> intro _
    | with_reducible apply Keep.refl
    | with_reducible assumption
    | with_reducible apply join_keep
    | with_reducible apply slotSend_keep
    | with_reducible apply dropRules_keep
    | ((with_reducible apply Keep.foldl_trans); intro _ _)
    | split
    | dsimp -zeta only
    | dsimp +zetaDelta -zeta only
theorem alignedDie_keep {n : Nat} {s : State} {s₀ : State} (h₀ : Keep quiet s₀ s) : Keep quiet s₀ (State.alignedDie n s) := h₀.trans (alignedDie_acts ..)

theorem alignedPkg_acts (n : Nat) (s : State) : Acts .sc quiet s (State.alignedPkg n s) := by
  unfold State.alignedPkg
  repeat' first
    | fail_if_no_progress extract_lets
    | (with_reducible apply Acts.ite) <;> intro _
    | with_reducible apply Acts.refl
    | with_reducible assumption
    | with_reducible apply toDie_trans
    | with_reducible apply resendChanges_trans
    | ((with_reducible apply Acts.foldl_trans); intro _ _)
    | split
    | dsimp -zeta only
    | dsimp +zetaDelta -zeta only
theorem alignedPkg_trans {n : Nat} {s : State} {s₀ : State} (h₀ : Acts .sc quiet s₀ s) : Acts .sc quiet s₀ (State.alignedPkg n s) := h₀.trans (alignedPkg_acts ..)
theorem alignedPkg_keep {n : Nat} {s : State} {s₀ : State} (h₀ : Keep quiet s₀ s) : Keep quiet s₀ (State.alignedPkg n s) := h₀.trans (alignedPkg_acts ..).keep

theorem linkAligned_acts (p : Part) (n : Nat) (s : State) : Keep quiet s (State.linkAligned p n s) := by
  unfold State.linkAligned
  repeat' first
    | fail_if_no_progress extract_lets
    | (with_reducible apply Keep.ite) <;> intro _
    | with_reducible apply Keep.refl
    | with_reducible assumption
    | with_reducible apply put_keep
    | with_reducible apply modLink_keep
    | with_reducible apply linkEvent_keep
    | with_reducible apply setLstate_keep
    | with_reducible apply reselect_keep
    | with_reducible apply join_keep
    | with_reducible apply dieReselect_keep
    | with_reducible apply mirrorClock_keep
    | with_reducible apply rebaseAll_keep
    | with_reducible apply alignedDown_keep
    | with_reducible apply alignedUp_keep
    | with_reducible apply alignedDie_keep
    | with_reducible apply alignedPkg_keep
    | (with_reducible apply Keep.snd; with_reducible assumption)
    | split
    | dsimp -zeta only
    | dsimp +zetaDelta -zeta only
theorem linkAligned_keep {p : Part} {n : Nat} {s : State} {s₀ : State} (h₀ : Keep quiet s₀ s) : Keep quiet s₀ (State.linkAligned p n s) := h₀.trans (linkAligned_acts ..)

theorem range_acts (p : Part) (n : Nat) (s : State) : Keep quiet s (State.range p n s) := by
  unfold State.range
  repeat' first
    | fail_if_no_progress extract_lets
    | (with_reducible apply Keep.ite) <;> intro _
    | with_reducible apply Keep.refl
    | with_reducible assumption
    | with_reducible apply calCheck_keep
    | with_reducible apply channelCheck_keep
    | with_reducible apply linkAligned_keep
    | split
    | dsimp -zeta only
    | dsimp +zetaDelta -zeta only
theorem range_keep {p : Part} {n : Nat} {s : State} {s₀ : State} (h₀ : Keep quiet s₀ s) : Keep quiet s₀ (State.range p n s) := h₀.trans (range_acts ..)

theorem watch_acts (p : Part) (n : Nat) (s : State) : Acts p quiet s (State.watch p n s) := by
  unfold State.watch
  repeat' first
    | fail_if_no_progress extract_lets
    | (with_reducible apply Acts.ite) <;> intro _
    | with_reducible apply Acts.refl
    | with_reducible assumption
    | with_reducible apply put_trans
    | with_reducible apply modLink_trans
    | with_reducible apply linkEvent_trans
    | with_reducible apply setLstate_trans
    | with_reducible apply mirrorLost_trans
    | with_reducible apply mirrorClock_trans
    | with_reducible apply suspect_trans
    | with_reducible apply calCheck_trans
    | with_reducible apply channelCheck_trans
    | with_reducible apply residueBeat_trans
    | (with_reducible apply Acts.snd; with_reducible assumption)
    | split
    | dsimp -zeta only
    | dsimp +zetaDelta -zeta only
    | exact Acts.refl ..
theorem watch_trans {p : Part} {n : Nat} {s : State} {s₀ : State} (h₀ : Acts p quiet s₀ s) : Acts p quiet s₀ (State.watch p n s) := h₀.trans (watch_acts ..)
theorem watch_keep {p : Part} {n : Nat} {s : State} {s₀ : State} (h₀ : Keep quiet s₀ s) : Keep quiet s₀ (State.watch p n s) := h₀.trans (watch_acts ..).keep

theorem followSource_acts (p : Part) (n : Nat) (s : State) : Acts p quiet s (State.followSource p n s) := by
  unfold State.followSource
  repeat' first
    | fail_if_no_progress extract_lets
    | (with_reducible apply Acts.ite) <;> intro _
    | with_reducible apply Acts.refl
    | with_reducible assumption
    | with_reducible apply putFlag_trans
    | with_reducible apply muteOuts_trans
    | ((with_reducible apply Acts.foldl_trans); intro _ _)
    | (with_reducible apply Acts.snd; with_reducible assumption)
    | split
    | dsimp -zeta only
    | dsimp +zetaDelta -zeta only
theorem followSource_trans {p : Part} {n : Nat} {s : State} {s₀ : State} (h₀ : Acts p quiet s₀ s) : Acts p quiet s₀ (State.followSource p n s) := h₀.trans (followSource_acts ..)
theorem followSource_keep {p : Part} {n : Nat} {s : State} {s₀ : State} (h₀ : Keep quiet s₀ s) : Keep quiet s₀ (State.followSource p n s) := h₀.trans (followSource_acts ..).keep

theorem trackHold_acts (p : Part) (n : Nat) (s : State) : Acts p quiet s (State.trackHold p n s) := by
  unfold State.trackHold
  repeat' first
    | fail_if_no_progress extract_lets
    | (with_reducible apply Acts.ite) <;> intro _
    | with_reducible apply Acts.refl
    | with_reducible assumption
    | with_reducible apply modLink_trans
    | (with_reducible apply Acts.snd; with_reducible assumption)
    | split
    | dsimp -zeta only
    | dsimp +zetaDelta -zeta only
theorem trackHold_trans {p : Part} {n : Nat} {s : State} {s₀ : State} (h₀ : Acts p quiet s₀ s) : Acts p quiet s₀ (State.trackHold p n s) := h₀.trans (trackHold_acts ..)
theorem trackHold_keep {p : Part} {n : Nat} {s : State} {s₀ : State} (h₀ : Keep quiet s₀ s) : Keep quiet s₀ (State.trackHold p n s) := h₀.trans (trackHold_acts ..).keep

theorem linkStep_acts (p : Part) (n : Nat) (s : State) : Keep quiet s (State.linkStep p n s) := by
  unfold State.linkStep
  repeat' first
    | fail_if_no_progress extract_lets
    | (with_reducible apply Keep.ite) <;> intro _
    | with_reducible apply Keep.refl
    | with_reducible assumption
    | with_reducible apply reselect_keep
    | with_reducible apply dieReselect_keep
    | with_reducible apply seatCheck_keep
    | with_reducible apply train_keep
    | with_reducible apply range_keep
    | with_reducible apply watch_keep
    | with_reducible apply followSource_keep
    | with_reducible apply trackHold_keep
    | (with_reducible apply Keep.snd; with_reducible assumption)
    | split
    | dsimp -zeta only
    | dsimp +zetaDelta -zeta only
theorem linkStep_keep {p : Part} {n : Nat} {s : State} {s₀ : State} (h₀ : Keep quiet s₀ s) : Keep quiet s₀ (State.linkStep p n s) := h₀.trans (linkStep_acts ..)

end Sys2Proof.Machine
end

