-- ==== Sys2Proof/Laws/ActsLinkTx.lean ====
section
/-! SUPPORT. One lemma an operation: what it keeps (Acts, Keep). -/

namespace Sys2Proof.Machine

open Sys2Proof

set_option linter.unusedTactic false
set_option linter.unreachableTactic false
set_option linter.unusedVariables false

variable {quiet : Bool}

theorem stampPrepare_acts (beat : Nat) (w : CtlWord) (s : State) : Acts .fd quiet s (State.stampPrepare beat w s).2 := by
  unfold State.stampPrepare
  repeat' first
    | fail_if_no_progress extract_lets
    | (with_reducible apply Acts.iteS) <;> intro _
    | (with_reducible apply Acts.iteS2) <;> intro _
    | (with_reducible apply Acts.ite) <;> intro _
    | with_reducible apply Acts.refl
    | with_reducible assumption
    | dsimp -zeta only
    | with_reducible apply setChg_trans
    | (with_reducible apply Acts.snd; with_reducible assumption)
    | split
    | dsimp -zeta only
    | dsimp +zetaDelta -zeta only
theorem stampPrepare_trans {beat : Nat} {w : CtlWord} {s : State} {s₀ : State} (h₀ : Acts .fd quiet s₀ s) : Acts .fd quiet s₀ (State.stampPrepare beat w s).2 := h₀.trans (stampPrepare_acts ..)
theorem stampPrepare_keep {beat : Nat} {w : CtlWord} {s : State} {s₀ : State} (h₀ : Keep quiet s₀ s) : Keep quiet s₀ (State.stampPrepare beat w s).2 := h₀.trans (stampPrepare_acts ..).keep

theorem stampPrepares_acts (beat : Nat) (y0 : List CtlWord) (s : State) : Acts .fd quiet s (State.stampPrepares beat y0 s).2 := by
  induction y0 generalizing s with
  | nil =>
    unfold State.stampPrepares
    repeat' first
    | fail_if_no_progress extract_lets
    | (with_reducible apply Acts.iteS) <;> intro _
    | (with_reducible apply Acts.iteS2) <;> intro _
    | (with_reducible apply Acts.ite) <;> intro _
    | with_reducible apply Acts.refl
    | with_reducible assumption
    | dsimp -zeta only
    | with_reducible apply stampPrepare_trans
    | split
    | dsimp -zeta only
    | dsimp +zetaDelta -zeta only
  | cons y l ih =>
    unfold State.stampPrepares
    repeat' first
    | fail_if_no_progress extract_lets
    | (with_reducible apply Acts.iteS) <;> intro _
    | (with_reducible apply Acts.iteS2) <;> intro _
    | with_reducible apply Acts.stepS ih
    | (with_reducible apply Acts.ite) <;> intro _
    | with_reducible apply Acts.refl
    | with_reducible assumption
    | dsimp -zeta only
    | with_reducible apply stampPrepare_trans
    | split
    | dsimp -zeta only
    | dsimp +zetaDelta -zeta only
theorem stampPrepares_trans {beat : Nat} {y0 : List CtlWord} {s : State} {s₀ : State} (h₀ : Acts .fd quiet s₀ s) : Acts .fd quiet s₀ (State.stampPrepares beat y0 s).2 := h₀.trans (stampPrepares_acts ..)
theorem stampPrepares_keep {beat : Nat} {y0 : List CtlWord} {s : State} {s₀ : State} (h₀ : Keep quiet s₀ s) : Keep quiet s₀ (State.stampPrepares beat y0 s).2 := h₀.trans (stampPrepares_acts ..).keep

theorem txWords_acts (p : Part) (n all : Nat) (s : State) : Keep quiet s (State.txWords p n all s).2 := by
  unfold State.txWords
  repeat' first
    | fail_if_no_progress extract_lets
    | (with_reducible apply Keep.iteS) <;> intro _
    | (with_reducible apply Keep.iteS2) <;> intro _
    | (with_reducible apply Keep.ite) <;> intro _
    | with_reducible apply Keep.refl
    | with_reducible assumption
    | dsimp -zeta only
    | with_reducible apply setLink_keep
    | with_reducible apply fresh_keep
    | with_reducible apply range_keep
    | with_reducible apply stampPrepares_keep
    | (with_reducible apply Keep.snd; with_reducible assumption)
    | split
    | dsimp -zeta only
    | dsimp +zetaDelta -zeta only
theorem txWords_keep {p : Part} {n all : Nat} {s : State} {s₀ : State} (h₀ : Keep quiet s₀ s) : Keep quiet s₀ (State.txWords p n all s).2 := h₀.trans (txWords_acts ..)

theorem bellOnLink_acts (p : Part) (n : Nat) (s : State) : Acts p quiet s (State.bellOnLink p n s) := by
  unfold State.bellOnLink
  repeat' first
    | fail_if_no_progress extract_lets
    | (with_reducible apply Acts.ite) <;> intro _
    | with_reducible apply Acts.refl
    | with_reducible assumption
    | with_reducible apply put_trans
    | with_reducible apply modLink_trans
    | split
    | dsimp -zeta only
    | dsimp +zetaDelta -zeta only
theorem bellOnLink_trans {p : Part} {n : Nat} {s : State} {s₀ : State} (h₀ : Acts p quiet s₀ s) : Acts p quiet s₀ (State.bellOnLink p n s) := h₀.trans (bellOnLink_acts ..)
theorem bellOnLink_keep {p : Part} {n : Nat} {s : State} {s₀ : State} (h₀ : Keep quiet s₀ s) : Keep quiet s₀ (State.bellOnLink p n s) := h₀.trans (bellOnLink_acts ..).keep

theorem txPayload_acts (p : Part) (n room : Nat) (s : State) : Acts p quiet s (State.txPayload p n room s).2 := by
  unfold State.txPayload
  repeat' first
    | fail_if_no_progress extract_lets
    | (with_reducible apply Acts.iteS) <;> intro _
    | (with_reducible apply Acts.iteS2) <;> intro _
    | (with_reducible apply Acts.ite) <;> intro _
    | with_reducible apply Acts.refl
    | with_reducible assumption
    | dsimp -zeta only
    | with_reducible apply setLink_trans
    | split
    | dsimp -zeta only
    | dsimp +zetaDelta -zeta only
theorem txPayload_trans {p : Part} {n room : Nat} {s : State} {s₀ : State} (h₀ : Acts p quiet s₀ s) : Acts p quiet s₀ (State.txPayload p n room s).2 := h₀.trans (txPayload_acts ..)
theorem txPayload_keep {p : Part} {n room : Nat} {s : State} {s₀ : State} (h₀ : Keep quiet s₀ s) : Keep quiet s₀ (State.txPayload p n room s).2 := h₀.trans (txPayload_acts ..).keep

theorem pullRecs_acts (room : Nat) (s : State) : Acts .sc quiet s (State.pullRecs room s) := by
  unfold State.pullRecs
  repeat' first
    | fail_if_no_progress extract_lets
    | (with_reducible apply Acts.ite) <;> intro _
    | with_reducible apply Acts.refl
    | with_reducible assumption
    | with_reducible apply setDie_trans
    | with_reducible apply modLink_trans
    | ((with_reducible apply Acts.foldl_trans); intro _ _)
    | split
    | dsimp -zeta only
    | dsimp +zetaDelta -zeta only
theorem pullRecs_trans {room : Nat} {s : State} {s₀ : State} (h₀ : Acts .sc quiet s₀ s) : Acts .sc quiet s₀ (State.pullRecs room s) := h₀.trans (pullRecs_acts ..)
theorem pullRecs_keep {room : Nat} {s : State} {s₀ : State} (h₀ : Keep quiet s₀ s) : Keep quiet s₀ (State.pullRecs room s) := h₀.trans (pullRecs_acts ..).keep

theorem txRecs_acts (p : Part) (n cws : Nat) (s : State) : Keep quiet s (State.txRecs p n cws s).2 := by
  unfold State.txRecs
  repeat' first
    | fail_if_no_progress extract_lets
    | (with_reducible apply Keep.iteS) <;> intro _
    | (with_reducible apply Keep.iteS2) <;> intro _
    | (with_reducible apply Keep.ite) <;> intro _
    | with_reducible apply Keep.refl
    | with_reducible assumption
    | dsimp -zeta only
    | with_reducible apply setLink_keep
    | with_reducible apply pullRecs_keep
    | split
    | dsimp -zeta only
    | dsimp +zetaDelta -zeta only
theorem txRecs_keep {p : Part} {n cws : Nat} {s : State} {s₀ : State} (h₀ : Keep quiet s₀ s) : Keep quiet s₀ (State.txRecs p n cws s).2 := h₀.trans (txRecs_acts ..)

theorem txRules_acts (p : Part) (n cws : Nat) (s : State) : Acts p quiet s (State.txRules p n cws s).2 := by
  unfold State.txRules
  repeat' first
    | fail_if_no_progress extract_lets
    | (with_reducible apply Acts.iteS) <;> intro _
    | (with_reducible apply Acts.iteS2) <;> intro _
    | (with_reducible apply Acts.ite) <;> intro _
    | with_reducible apply Acts.refl
    | with_reducible assumption
    | dsimp -zeta only
    | with_reducible apply setLink_trans
    | split
    | dsimp -zeta only
    | dsimp +zetaDelta -zeta only
theorem txRules_trans {p : Part} {n cws : Nat} {s : State} {s₀ : State} (h₀ : Acts p quiet s₀ s) : Acts p quiet s₀ (State.txRules p n cws s).2 := h₀.trans (txRules_acts ..)
theorem txRules_keep {p : Part} {n cws : Nat} {s : State} {s₀ : State} (h₀ : Keep quiet s₀ s) : Keep quiet s₀ (State.txRules p n cws s).2 := h₀.trans (txRules_acts ..).keep

theorem txTunnel_acts (p : Part) (n : Nat) (s : State) : Acts p quiet s (State.txTunnel p n s).2.2 := by
  unfold State.txTunnel
  repeat' first
    | fail_if_no_progress extract_lets
    | (with_reducible apply Acts.iteS) <;> intro _
    | (with_reducible apply Acts.iteS2) <;> intro _
    | (with_reducible apply Acts.ite) <;> intro _
    | with_reducible apply Acts.refl
    | with_reducible assumption
    | dsimp -zeta only
    | with_reducible apply setLink_trans
    | split
    | dsimp -zeta only
    | dsimp +zetaDelta -zeta only
theorem txTunnel_trans {p : Part} {n : Nat} {s : State} {s₀ : State} (h₀ : Acts p quiet s₀ s) : Acts p quiet s₀ (State.txTunnel p n s).2.2 := h₀.trans (txTunnel_acts ..)
theorem txTunnel_keep {p : Part} {n : Nat} {s : State} {s₀ : State} (h₀ : Keep quiet s₀ s) : Keep quiet s₀ (State.txTunnel p n s).2.2 := h₀.trans (txTunnel_acts ..).keep

theorem txTel_acts (p : Part) (n : Nat) (s : State) : Acts p quiet s (State.txTel p n s).2 := by
  unfold State.txTel
  repeat' first
    | fail_if_no_progress extract_lets
    | (with_reducible apply Acts.iteS) <;> intro _
    | (with_reducible apply Acts.iteS2) <;> intro _
    | (with_reducible apply Acts.ite) <;> intro _
    | with_reducible apply Acts.refl
    | with_reducible assumption
    | dsimp -zeta only
    | with_reducible apply modLink_trans
    | split
    | dsimp -zeta only
theorem txTel_trans {p : Part} {n : Nat} {s : State} {s₀ : State} (h₀ : Acts p quiet s₀ s) : Acts p quiet s₀ (State.txTel p n s).2 := h₀.trans (txTel_acts ..)
theorem txTel_keep {p : Part} {n : Nat} {s : State} {s₀ : State} (h₀ : Keep quiet s₀ s) : Keep quiet s₀ (State.txTel p n s).2 := h₀.trans (txTel_acts ..).keep

theorem alertBeat_acts (p : Part) (s : State) : Acts p quiet s (State.alertBeat p s) := by
  unfold State.alertBeat
  repeat' first
    | fail_if_no_progress extract_lets
    | (with_reducible apply Acts.ite) <;> intro _
    | with_reducible apply Acts.refl
    | with_reducible assumption
    | with_reducible apply raise_trans
    | split
    | dsimp -zeta only
    | dsimp +zetaDelta -zeta only
theorem alertBeat_trans {p : Part} {s : State} {s₀ : State} (h₀ : Acts p quiet s₀ s) : Acts p quiet s₀ (State.alertBeat p s) := h₀.trans (alertBeat_acts ..)
theorem alertBeat_keep {p : Part} {s : State} {s₀ : State} (h₀ : Keep quiet s₀ s) : Keep quiet s₀ (State.alertBeat p s) := h₀.trans (alertBeat_acts ..).keep

theorem txSlots_acts (n : Nat) (s : State) : Keep quiet s (State.txSlots n s).2.2 := by
  unfold State.txSlots
  repeat' first
    | fail_if_no_progress extract_lets
    | (with_reducible apply Keep.iteS) <;> intro _
    | (with_reducible apply Keep.iteS2) <;> intro _
    | (with_reducible apply Keep.ite) <;> intro _
    | with_reducible apply Keep.refl
    | with_reducible assumption
    | dsimp -zeta only
    | with_reducible apply setLink_keep
    | with_reducible apply txWords_keep
    | with_reducible apply txRecs_keep
    | with_reducible apply txRules_keep
    | split
    | dsimp -zeta only
    | dsimp +zetaDelta -zeta only
theorem txSlots_keep {n : Nat} {s : State} {s₀ : State} (h₀ : Keep quiet s₀ s) : Keep quiet s₀ (State.txSlots n s).2.2 := h₀.trans (txSlots_acts ..)

theorem txHeader_acts (p : Part) (n : Nat) (slice : Bool) (s : State) : Acts p quiet s (State.txHeader p n slice s).2 := by
  unfold State.txHeader
  repeat' first
    | fail_if_no_progress extract_lets
    | (with_reducible apply Acts.iteS) <;> intro _
    | (with_reducible apply Acts.iteS2) <;> intro _
    | (with_reducible apply Acts.ite) <;> intro _
    | with_reducible apply Acts.refl
    | with_reducible assumption
    | dsimp -zeta only
    | with_reducible apply setLink_trans
    | (with_reducible apply Acts.snd; with_reducible assumption)
    | split
    | dsimp -zeta only
    | dsimp +zetaDelta -zeta only
theorem txHeader_trans {p : Part} {n : Nat} {slice : Bool} {s : State} {s₀ : State} (h₀ : Acts p quiet s₀ s) : Acts p quiet s₀ (State.txHeader p n slice s).2 := h₀.trans (txHeader_acts ..)
theorem txHeader_keep {p : Part} {n : Nat} {slice : Bool} {s : State} {s₀ : State} (h₀ : Keep quiet s₀ s) : Keep quiet s₀ (State.txHeader p n slice s).2 := h₀.trans (txHeader_acts ..).keep

theorem sentFrame_acts (p : Part) (n : Nat) (f : Frame) (s : State) : Acts p quiet s (State.sentFrame p n f s) := by
  unfold State.sentFrame
  repeat' first
    | fail_if_no_progress extract_lets
    | (with_reducible apply Acts.ite) <;> intro _
    | with_reducible apply Acts.refl
    | with_reducible assumption
    | with_reducible apply modLink_trans
    | dsimp -zeta only
theorem sentFrame_trans {p : Part} {n : Nat} {f : Frame} {s : State} {s₀ : State} (h₀ : Acts p quiet s₀ s) : Acts p quiet s₀ (State.sentFrame p n f s) := h₀.trans (sentFrame_acts ..)
theorem sentFrame_keep {p : Part} {n : Nat} {f : Frame} {s : State} {s₀ : State} (h₀ : Keep quiet s₀ s) : Keep quiet s₀ (State.sentFrame p n f s) := h₀.trans (sentFrame_acts ..).keep

theorem launch40_acts (p : Part) (n : Nat) (s : State) : Keep quiet s (State.launch40 p n s).2 := by
  unfold State.launch40
  repeat' first
    | fail_if_no_progress extract_lets
    | (with_reducible apply Keep.iteS) <;> intro _
    | (with_reducible apply Keep.iteS2) <;> intro _
    | (with_reducible apply Keep.ite) <;> intro _
    | with_reducible apply Keep.refl
    | with_reducible assumption
    | dsimp -zeta only
    | with_reducible apply range_keep
    | with_reducible apply txWords_keep
    | with_reducible apply txPayload_keep
    | with_reducible apply txRecs_keep
    | with_reducible apply txRules_keep
    | with_reducible apply txTunnel_keep
    | with_reducible apply txTel_keep
    | with_reducible apply txSlots_keep
    | with_reducible apply txHeader_keep
    | with_reducible apply sentFrame_keep
    | split
    | dsimp -zeta only
    | dsimp +zetaDelta -zeta only
theorem launch40_keep {p : Part} {n : Nat} {s : State} {s₀ : State} (h₀ : Keep quiet s₀ s) : Keep quiet s₀ (State.launch40 p n s).2 := h₀.trans (launch40_acts ..)

/-- Words that leave late: what the port keeps. -/
theorem launchLate_keep {p : Part} {n : Nat} {f : Frame} {s₀ s : State} {r : List CtlSlot × State} (h : s.launchLate p n f = some r) (k : Keep quiet s₀ s) : Keep quiet s₀ r.2 := by
  unfold State.launchLate at h
  dsimp only at h
  split at h
  · cases h
  · split at h
    · split at h
      · cases h
      · cases h; exact sentFrame_keep (setLink_keep (txWords_keep k))
    · split at h
      · cases h
      · cases h; exact sentFrame_keep (setLink_keep (txWords_keep k))

theorem noteBells_acts (p : Part) (n : Nat) (sent : List CtlSlot) (s : State) : Acts p quiet s (State.noteBells p n sent s) := by
  unfold State.noteBells
  repeat' first
    | fail_if_no_progress extract_lets
    | (with_reducible apply Acts.ite) <;> intro _
    | with_reducible apply Acts.refl
    | with_reducible assumption
    | with_reducible apply bellOnLink_trans
    | (with_reducible apply Acts.snd; with_reducible assumption)
    | split
    | dsimp -zeta only
theorem noteBells_trans {p : Part} {n : Nat} {sent : List CtlSlot} {s : State} {s₀ : State} (h₀ : Acts p quiet s₀ s) : Acts p quiet s₀ (State.noteBells p n sent s) := h₀.trans (noteBells_acts ..)
theorem noteBells_keep {p : Part} {n : Nat} {sent : List CtlSlot} {s : State} {s₀ : State} (h₀ : Keep quiet s₀ s) : Keep quiet s₀ (State.noteBells p n sent s) := h₀.trans (noteBells_acts ..).keep

theorem launchFrame_acts (p : Part) (n : Nat) (s : State) : Keep quiet s (State.launchFrame p n s) := by
  unfold State.launchFrame
  repeat' first
    | fail_if_no_progress extract_lets
    | (with_reducible apply Keep.ite) <;> intro _
    | with_reducible apply Keep.refl
    | with_reducible assumption
    | with_reducible apply goneBeat_keep
    | with_reducible apply alertBeat_keep
    | with_reducible apply launch40_keep
    | with_reducible apply noteBells_keep
    | split
    | dsimp -zeta only
    | dsimp +zetaDelta -zeta only
theorem launchFrame_keep {p : Part} {n : Nat} {s : State} {s₀ : State} (h₀ : Keep quiet s₀ s) : Keep quiet s₀ (State.launchFrame p n s) := h₀.trans (launchFrame_acts ..)

theorem execFrameLaunch_acts (p : Part) (n : Nat) (s : State) : KeepO quiet s (execFrameLaunch p n s) := by
  unfold execFrameLaunch
  repeat' first
    | fail_if_no_progress extract_lets
    | (with_reducible apply KeepO.ite) <;> intro _
    | with_reducible apply KeepO.next
    | (with_reducible apply Keep.ite) <;> intro _
    | with_reducible apply Keep.refl
    | with_reducible assumption
    | with_reducible apply awaitBeat_keep
    | with_reducible apply noteBells_keep
    | with_reducible apply launchFrame_keep
    | (with_reducible apply Keep.snd; with_reducible assumption)
    | split
    | exact launchLate_keep ‹_› (Keep.refl _)
    | dsimp -zeta only

end Sys2Proof.Machine
end

