-- ==== Sys2Proof/Laws/ActsLinkRx.lean ====
section
/-! SUPPORT. One lemma an operation: what it keeps (Acts, Keep). -/

namespace Sys2Proof.Machine

open Sys2Proof

set_option linter.unusedTactic false
set_option linter.unreachableTactic false
set_option linter.unusedVariables false

variable {quiet : Bool}

theorem takeSlot_acts (p : Part) (n : Nat) (s : State) (x : CtlSlot) : Acts p quiet s (State.takeSlot p n s x) := by
  cases p
  all_goals unfold State.takeSlot
  all_goals
  repeat' first
    | fail_if_no_progress extract_lets
    | (with_reducible apply Acts.ite) <;> intro _
    | with_reducible apply Acts.refl
    | with_reducible assumption
    | with_reducible apply setUnit_trans
    | with_reducible apply bump_trans
    | with_reducible apply modLink_trans
    | with_reducible apply dieUp_trans
    | with_reducible apply bellOnLink_trans
    | (with_reducible apply Acts.snd; with_reducible assumption)
    | split
    | dsimp -zeta only
    | dsimp +zetaDelta -zeta only
    | (exfalso; simp_all; done)
theorem takeSlot_trans {p : Part} {n : Nat} {s : State} {x : CtlSlot} {s₀ : State} (h₀ : Acts p quiet s₀ s) : Acts p quiet s₀ (State.takeSlot p n s x) := h₀.trans (takeSlot_acts ..)
theorem takeSlot_keep {p : Part} {n : Nat} {s : State} {x : CtlSlot} {s₀ : State} (h₀ : Keep quiet s₀ s) : Keep quiet s₀ (State.takeSlot p n s x) := h₀.trans (takeSlot_acts ..).keep

theorem takeAck_acts (p : Part) (n ack : Nat) (s : State) : Acts p quiet s (State.takeAck p n ack s) := by
  unfold State.takeAck
  repeat' first
    | fail_if_no_progress extract_lets
    | (with_reducible apply Acts.ite) <;> intro _
    | with_reducible apply Acts.refl
    | with_reducible assumption
    | with_reducible apply modLink_trans
    | split
    | dsimp -zeta only
theorem takeAck_trans {p : Part} {n ack : Nat} {s : State} {s₀ : State} (h₀ : Acts p quiet s₀ s) : Acts p quiet s₀ (State.takeAck p n ack s) := h₀.trans (takeAck_acts ..)
theorem takeAck_keep {p : Part} {n ack : Nat} {s : State} {s₀ : State} (h₀ : Keep quiet s₀ s) : Keep quiet s₀ (State.takeAck p n ack s) := h₀.trans (takeAck_acts ..).keep

theorem takeTunnel_acts (p : Part) (n : Nat) (s : State) (m : TunMsg) : Acts p quiet s (State.takeTunnel p n s m) := by
  cases p
  all_goals unfold State.takeTunnel
  all_goals
  repeat' first
    | fail_if_no_progress extract_lets
    | (with_reducible apply Acts.ite) <;> intro _
    | with_reducible apply Acts.refl
    | with_reducible assumption
    | with_reducible apply setDie_trans
    | with_reducible apply put_trans
    | with_reducible apply modLink_trans
    | with_reducible apply sendTunnel_trans
    | with_reducible apply sendTunnels_trans
    | with_reducible apply takeHoming_trans
    | (with_reducible apply Acts.snd; with_reducible assumption)
    | split
    | dsimp -zeta only
    | dsimp +zetaDelta -zeta only
    | (exfalso; simp_all; done)
theorem takeTunnel_trans {p : Part} {n : Nat} {s : State} {m : TunMsg} {s₀ : State} (h₀ : Acts p quiet s₀ s) : Acts p quiet s₀ (State.takeTunnel p n s m) := h₀.trans (takeTunnel_acts ..)
theorem takeTunnel_keep {p : Part} {n : Nat} {s : State} {m : TunMsg} {s₀ : State} (h₀ : Keep quiet s₀ s) : Keep quiet s₀ (State.takeTunnel p n s m) := h₀.trans (takeTunnel_acts ..).keep

theorem takeTel_acts (p : Part) (n : Nat) (t : Telemetry) (s : State) : Acts p quiet s (State.takeTel p n t s) := by
  cases p
  all_goals unfold State.takeTel
  all_goals
  repeat' first
    | fail_if_no_progress extract_lets
    | (with_reducible apply Acts.ite) <;> intro _
    | with_reducible apply Acts.refl
    | with_reducible assumption
    | with_reducible apply modLink_trans
    | with_reducible apply dieReport_trans
    | split
    | dsimp -zeta only
    | (exfalso; simp_all; done)
theorem takeTel_trans {p : Part} {n : Nat} {t : Telemetry} {s : State} {s₀ : State} (h₀ : Acts p quiet s₀ s) : Acts p quiet s₀ (State.takeTel p n t s) := h₀.trans (takeTel_acts ..)
theorem takeTel_keep {p : Part} {n : Nat} {t : Telemetry} {s : State} {s₀ : State} (h₀ : Keep quiet s₀ s) : Keep quiet s₀ (State.takeTel p n t s) := h₀.trans (takeTel_acts ..).keep

theorem takeMirror_acts (m : MirrorImg) (s : State) : Acts .fd quiet s (State.takeMirror m s) := by
  unfold State.takeMirror
  repeat' first
    | fail_if_no_progress extract_lets
    | (with_reducible apply Acts.ite) <;> intro _
    | with_reducible apply Acts.refl
    | with_reducible assumption
    | with_reducible apply setDist_trans
    | with_reducible apply put_trans
    | with_reducible apply setHall_trans
    | with_reducible apply setSb_trans
    | ((with_reducible apply Acts.foldl_trans); intro _ _)
    | (with_reducible apply Acts.snd; with_reducible assumption)
    | split
    | dsimp -zeta only
    | dsimp +zetaDelta -zeta only
theorem takeMirror_trans {m : MirrorImg} {s : State} {s₀ : State} (h₀ : Acts .fd quiet s₀ s) : Acts .fd quiet s₀ (State.takeMirror m s) := h₀.trans (takeMirror_acts ..)
theorem takeMirror_keep {m : MirrorImg} {s : State} {s₀ : State} (h₀ : Keep quiet s₀ s) : Keep quiet s₀ (State.takeMirror m s) := h₀.trans (takeMirror_acts ..).keep

theorem takeHeader_acts (p : Part) (n : Nat) (blk : LinkBlk) (txHt rxHt : Nat) (clean : Bool) (s : State) : Acts p quiet s (State.takeHeader p n blk txHt rxHt clean s) := by
  unfold State.takeHeader
  repeat' first
    | fail_if_no_progress extract_lets
    | (with_reducible apply Acts.ite) <;> intro _
    | with_reducible apply Acts.refl
    | with_reducible assumption
    | with_reducible apply put_trans
    | with_reducible apply modLink_trans
    | split
    | dsimp -zeta only
    | dsimp +zetaDelta -zeta only
theorem takeHeader_trans {p : Part} {n : Nat} {blk : LinkBlk} {txHt rxHt : Nat} {clean : Bool} {s : State} {s₀ : State} (h₀ : Acts p quiet s₀ s) : Acts p quiet s₀ (State.takeHeader p n blk txHt rxHt clean s) := h₀.trans (takeHeader_acts ..)
theorem takeHeader_keep {p : Part} {n : Nat} {blk : LinkBlk} {txHt rxHt : Nat} {clean : Bool} {s : State} {s₀ : State} (h₀ : Keep quiet s₀ s) : Keep quiet s₀ (State.takeHeader p n blk txHt rxHt clean s) := h₀.trans (takeHeader_acts ..).keep

theorem badHeader_acts (p : Part) (n : Nat) (s : State) : Acts p quiet s (State.badHeader p n s) := by
  unfold State.badHeader
  repeat' first
    | fail_if_no_progress extract_lets
    | (with_reducible apply Acts.ite) <;> intro _
    | with_reducible apply Acts.refl
    | with_reducible assumption
    | with_reducible apply bump_trans
    | with_reducible apply modLink_trans
    | with_reducible apply suspect_trans
    | split
    | dsimp -zeta only
    | dsimp +zetaDelta -zeta only
theorem badHeader_trans {p : Part} {n : Nat} {s : State} {s₀ : State} (h₀ : Acts p quiet s₀ s) : Acts p quiet s₀ (State.badHeader p n s) := h₀.trans (badHeader_acts ..)
theorem badHeader_keep {p : Part} {n : Nat} {s : State} {s₀ : State} (h₀ : Keep quiet s₀ s) : Keep quiet s₀ (State.badHeader p n s) := h₀.trans (badHeader_acts ..).keep

theorem takeSlice_acts (p : Part) (n b at_ : Nat) (s : State) : Acts p quiet s (State.takeSlice p n b at_ s) := by
  unfold State.takeSlice
  repeat' first
    | fail_if_no_progress extract_lets
    | (with_reducible apply Acts.ite) <;> intro _
    | with_reducible apply Acts.refl
    | with_reducible assumption
    | with_reducible apply put_trans
    | with_reducible apply modLink_trans
    | (with_reducible apply Acts.snd; with_reducible assumption)
    | split
    | dsimp -zeta only
    | dsimp +zetaDelta -zeta only
theorem takeSlice_trans {p : Part} {n b at_ : Nat} {s : State} {s₀ : State} (h₀ : Acts p quiet s₀ s) : Acts p quiet s₀ (State.takeSlice p n b at_ s) := h₀.trans (takeSlice_acts ..)
theorem takeSlice_keep {p : Part} {n b at_ : Nat} {s : State} {s₀ : State} (h₀ : Keep quiet s₀ s) : Keep quiet s₀ (State.takeSlice p n b at_ s) := h₀.trans (takeSlice_acts ..).keep

theorem takeAnnounced_acts (p : Part) (n b : Nat) (f : LinkBlk) (s : State) : Acts p quiet s (State.takeAnnounced p n b f s) := by
  unfold State.takeAnnounced
  repeat' first
    | fail_if_no_progress extract_lets
    | (with_reducible apply Acts.ite) <;> intro _
    | with_reducible apply Acts.refl
    | with_reducible assumption
    | with_reducible apply put_trans
    | with_reducible apply setLink_trans
    | with_reducible apply modLink_trans
    | with_reducible apply takeSlice_trans
    | split
    | dsimp -zeta only
    | dsimp +zetaDelta -zeta only
theorem takeAnnounced_trans {p : Part} {n b : Nat} {f : LinkBlk} {s : State} {s₀ : State} (h₀ : Acts p quiet s₀ s) : Acts p quiet s₀ (State.takeAnnounced p n b f s) := h₀.trans (takeAnnounced_acts ..)
theorem takeAnnounced_keep {p : Part} {n b : Nat} {f : LinkBlk} {s : State} {s₀ : State} (h₀ : Keep quiet s₀ s) : Keep quiet s₀ (State.takeAnnounced p n b f s) := h₀.trans (takeAnnounced_acts ..).keep

theorem headerExchange_acts (p : Part) (n : Nat) (t : TimingBlk) (rxHt : Nat) (clean : Bool) (s : State) : Acts p quiet s (State.headerExchange p n t rxHt clean s) := by
  unfold State.headerExchange
  repeat' first
    | fail_if_no_progress extract_lets
    | (with_reducible apply Acts.ite) <;> intro _
    | with_reducible apply Acts.refl
    | with_reducible assumption
    | with_reducible apply takeExchange_trans
    | (with_reducible apply Acts.snd; with_reducible assumption)
    | split
    | dsimp -zeta only
theorem headerExchange_trans {p : Part} {n : Nat} {t : TimingBlk} {rxHt : Nat} {clean : Bool} {s : State} {s₀ : State} (h₀ : Acts p quiet s₀ s) : Acts p quiet s₀ (State.headerExchange p n t rxHt clean s) := h₀.trans (headerExchange_acts ..)
theorem headerExchange_keep {p : Part} {n : Nat} {t : TimingBlk} {rxHt : Nat} {clean : Bool} {s : State} {s₀ : State} (h₀ : Keep quiet s₀ s) : Keep quiet s₀ (State.headerExchange p n t rxHt clean s) := h₀.trans (headerExchange_acts ..).keep

theorem takeUncorr_acts (p : Part) (n k : Nat) (s : State) : Acts p quiet s (State.takeUncorr p n k s) := by
  unfold State.takeUncorr
  repeat' first
    | fail_if_no_progress extract_lets
    | (with_reducible apply Acts.ite) <;> intro _
    | with_reducible apply Acts.refl
    | with_reducible assumption
    | with_reducible apply bump_trans
    | with_reducible apply modLink_trans
    | with_reducible apply suspect_trans
    | ((with_reducible apply Acts.foldl_trans); intro _ _)
    | split
    | dsimp -zeta only
    | dsimp +zetaDelta -zeta only
theorem takeUncorr_trans {p : Part} {n k : Nat} {s : State} {s₀ : State} (h₀ : Acts p quiet s₀ s) : Acts p quiet s₀ (State.takeUncorr p n k s) := h₀.trans (takeUncorr_acts ..)
theorem takeUncorr_keep {p : Part} {n k : Nat} {s : State} {s₀ : State} (h₀ : Keep quiet s₀ s) : Keep quiet s₀ (State.takeUncorr p n k s) := h₀.trans (takeUncorr_acts ..).keep

theorem takeCodewords_acts (p : Part) (n : Nat) (r : RxParts) (x : RxFrame) (s : State) : Acts p quiet s (State.takeCodewords p n r x s) := by
  cases p
  all_goals unfold State.takeCodewords
  all_goals
  repeat' first
    | fail_if_no_progress extract_lets
    | (with_reducible apply Acts.ite) <;> intro _
    | with_reducible apply Acts.refl
    | with_reducible assumption
    | with_reducible apply modLink_trans
    | with_reducible apply laneCheck_trans
    | with_reducible apply takeSlot_trans
    | with_reducible apply takeTunnel_trans
    | with_reducible apply takeTel_trans
    | with_reducible apply takeMirror_trans
    | with_reducible apply takeUncorr_trans
    | ((with_reducible apply Acts.foldl_trans); intro _ _)
    | (with_reducible apply Acts.snd; with_reducible assumption)
    | split
    | dsimp -zeta only
    | dsimp +zetaDelta -zeta only
    | (exfalso; simp_all; done)
theorem takeCodewords_trans {p : Part} {n : Nat} {r : RxParts} {x : RxFrame} {s : State} {s₀ : State} (h₀ : Acts p quiet s₀ s) : Acts p quiet s₀ (State.takeCodewords p n r x s) := h₀.trans (takeCodewords_acts ..)
theorem takeCodewords_keep {p : Part} {n : Nat} {r : RxParts} {x : RxFrame} {s : State} {s₀ : State} (h₀ : Keep quiet s₀ s) : Keep quiet s₀ (State.takeCodewords p n r x s) := h₀.trans (takeCodewords_acts ..).keep

theorem patternMissing_acts (p : Part) (n : Nat) (s : State) : Acts p quiet s (State.patternMissing p n s) := by
  unfold State.patternMissing
  repeat' first
    | fail_if_no_progress extract_lets
    | (with_reducible apply Acts.ite) <;> intro _
    | with_reducible apply Acts.refl
    | with_reducible assumption
    | with_reducible apply modLink_trans
    | with_reducible apply linkDown_trans
    | split
    | dsimp -zeta only
    | dsimp +zetaDelta -zeta only
theorem patternMissing_trans {p : Part} {n : Nat} {s : State} {s₀ : State} (h₀ : Acts p quiet s₀ s) : Acts p quiet s₀ (State.patternMissing p n s) := h₀.trans (patternMissing_acts ..)
theorem patternMissing_keep {p : Part} {n : Nat} {s : State} {s₀ : State} (h₀ : Keep quiet s₀ s) : Keep quiet s₀ (State.patternMissing p n s) := h₀.trans (patternMissing_acts ..).keep

theorem laneStamp_acts (p : Part) (n coarse bin : Nat) (twin : Option Int) (s : State) : Acts p quiet s (State.laneStamp p n coarse bin twin s).2 := by
  unfold State.laneStamp
  repeat' first
    | fail_if_no_progress extract_lets
    | (with_reducible apply Acts.iteS) <;> intro _
    | (with_reducible apply Acts.iteS2) <;> intro _
    | (with_reducible apply Acts.ite) <;> intro _
    | with_reducible apply Acts.refl
    | with_reducible assumption
    | dsimp -zeta only
    | with_reducible exact pairEdge_trans (a := .lane p _) ‹_›
    | with_reducible exact pairEdge_trans (a := .timing p) ‹_›
    | refine pairEdge_trans (a := .lane p _) ?_
    | refine pairEdge_trans (a := .timing p) ?_
    | dsimp -zeta only
    | dsimp +zetaDelta -zeta only
theorem laneStamp_trans {p : Part} {n coarse bin : Nat} {twin : Option Int} {s : State} {s₀ : State} (h₀ : Acts p quiet s₀ s) : Acts p quiet s₀ (State.laneStamp p n coarse bin twin s).2 := h₀.trans (laneStamp_acts ..)
theorem laneStamp_keep {p : Part} {n coarse bin : Nat} {twin : Option Int} {s : State} {s₀ : State} (h₀ : Keep quiet s₀ s) : Keep quiet s₀ (State.laneStamp p n coarse bin twin s).2 := h₀.trans (laneStamp_acts ..).keep

theorem execFrameReceive_acts (p : Part) (n : Nat) (x : RxFrame) (s : State) : KeepO quiet s (execFrameReceive p n x s) := by
  unfold execFrameReceive
  repeat' first
    | fail_if_no_progress extract_lets
    | (with_reducible apply KeepO.ite) <;> intro _
    | with_reducible apply KeepO.next
    | (with_reducible apply Keep.ite) <;> intro _
    | with_reducible apply Keep.refl
    | with_reducible assumption
    | with_reducible apply modLink_keep
    | with_reducible apply linkStep_keep
    | with_reducible apply takeAck_keep
    | with_reducible apply takeHeader_keep
    | with_reducible apply badHeader_keep
    | with_reducible apply takeAnnounced_keep
    | with_reducible apply headerExchange_keep
    | with_reducible apply takeCodewords_keep
    | with_reducible apply patternMissing_keep
    | with_reducible apply laneStamp_keep
    | split
    | dsimp -zeta only
    | dsimp +zetaDelta -zeta only

theorem slotLost_acts (n : Nat) (s : State) : Acts .sc quiet s (State.slotLost n s) := by
  unfold State.slotLost
  repeat' first
    | fail_if_no_progress extract_lets
    | (with_reducible apply Acts.ite) <;> intro _
    | with_reducible apply Acts.refl
    | with_reducible assumption
    | with_reducible apply bump_trans
    | with_reducible apply modLink_trans
    | with_reducible apply suspect_trans
    | ((with_reducible apply Acts.foldl_trans); intro _ _)
    | (with_reducible apply Acts.snd; with_reducible assumption)
    | split
    | dsimp -zeta only
    | dsimp +zetaDelta -zeta only
theorem slotLost_trans {n : Nat} {s : State} {s₀ : State} (h₀ : Acts .sc quiet s₀ s) : Acts .sc quiet s₀ (State.slotLost n s) := h₀.trans (slotLost_acts ..)
theorem slotLost_keep {n : Nat} {s : State} {s₀ : State} (h₀ : Keep quiet s₀ s) : Keep quiet s₀ (State.slotLost n s) := h₀.trans (slotLost_acts ..).keep

theorem execPkgSlotReceive_acts (n : Nat) (x : RxSlot) (s : State) : KeepO quiet s (execPkgSlotReceive n x s) := by
  unfold execPkgSlotReceive
  repeat' first
    | fail_if_no_progress extract_lets
    | (with_reducible apply KeepO.ite) <;> intro _
    | with_reducible apply KeepO.next
    | (with_reducible apply Keep.ite) <;> intro _
    | with_reducible apply Keep.refl
    | with_reducible assumption
    | with_reducible apply put_keep
    | with_reducible apply bump_keep
    | with_reducible apply modLink_keep
    | with_reducible apply linkStep_keep
    | with_reducible apply takeSlot_keep
    | with_reducible apply takeAck_keep
    | with_reducible apply takeTunnel_keep
    | with_reducible apply takeTel_keep
    | with_reducible apply takeHeader_keep
    | with_reducible apply badHeader_keep
    | with_reducible apply headerExchange_keep
    | with_reducible apply takeUncorr_keep
    | with_reducible apply laneStamp_keep
    | with_reducible apply slotLost_keep
    | ((with_reducible apply Keep.foldl_trans); intro _ _)
    | (with_reducible apply Keep.snd; with_reducible assumption)
    | split
    | dsimp -zeta only
    | dsimp +zetaDelta -zeta only

end Sys2Proof.Machine
end

