-- ==== Sys2Proof/Laws/ActsLinkCmds.lean ====
section
/-! SUPPORT. One lemma an operation: what it keeps (Acts, Keep). -/

namespace Sys2Proof.Machine

open Sys2Proof

set_option linter.unusedTactic false
set_option linter.unreachableTactic false
set_option linter.unusedVariables false

variable {quiet : Bool}

theorem countApplied_acts (p : Part) (beats : Nat) (s : State) : Acts p quiet s (State.countApplied p beats s) := by
  unfold State.countApplied
  repeat' first
    | fail_if_no_progress extract_lets
    | (with_reducible apply Acts.ite) <;> intro _
    | with_reducible apply Acts.refl
    | with_reducible assumption
    | with_reducible apply modLink_trans
    | ((with_reducible apply Acts.foldl_trans); intro _ _)
    | split
    | dsimp -zeta only
    | dsimp +zetaDelta -zeta only
theorem countApplied_trans {p : Part} {beats : Nat} {s : State} {s₀ : State} (h₀ : Acts p quiet s₀ s) : Acts p quiet s₀ (State.countApplied p beats s) := h₀.trans (countApplied_acts ..)
theorem countApplied_keep {p : Part} {beats : Nat} {s : State} {s₀ : State} (h₀ : Keep quiet s₀ s) : Keep quiet s₀ (State.countApplied p beats s) := h₀.trans (countApplied_acts ..).keep

theorem steerRun_acts (p : Part) (near : Bool) (s : State) : Acts p quiet s (State.steerRun p near s) := by
  unfold State.steerRun
  repeat' first
    | fail_if_no_progress extract_lets
    | (with_reducible apply Acts.ite) <;> intro _
    | with_reducible apply Acts.refl
    | with_reducible assumption
    | with_reducible apply setUnit_trans
    | with_reducible apply setDie_trans
    | with_reducible apply setHold_trans
    | (with_reducible apply Acts.snd; with_reducible assumption)
    | split
    | dsimp -zeta only
    | dsimp +zetaDelta -zeta only
theorem steerRun_trans {p : Part} {near : Bool} {s : State} {s₀ : State} (h₀ : Acts p quiet s₀ s) : Acts p quiet s₀ (State.steerRun p near s) := h₀.trans (steerRun_acts ..)
theorem steerRun_keep {p : Part} {near : Bool} {s : State} {s₀ : State} (h₀ : Keep quiet s₀ s) : Keep quiet s₀ (State.steerRun p near s) := h₀.trans (steerRun_acts ..).keep

theorem execSteerBeat_acts (p : Part) (s : State) : KeepO quiet s (execSteerBeat p s) := by
  unfold execSteerBeat
  repeat' first
    | fail_if_no_progress extract_lets
    | (with_reducible apply KeepO.ite) <;> intro _
    | with_reducible apply KeepO.next
    | (with_reducible apply Keep.ite) <;> intro _
    | with_reducible apply Keep.refl
    | with_reducible assumption
    | with_reducible apply setLink_keep
    | with_reducible apply periodic_keep
    | with_reducible apply setRate_keep
    | with_reducible apply linkRegs_keep
    | with_reducible apply countApplied_keep
    | with_reducible apply steerRun_keep
    | (with_reducible apply Keep.snd; with_reducible assumption)
    | split
    | dsimp -zeta only
    | dsimp +zetaDelta -zeta only

theorem execStepCoreHoldoverReturn_acts (s : State) : ActsO .sc quiet s (execStepCoreHoldoverReturn s) := by
  unfold execStepCoreHoldoverReturn
  repeat' first
    | fail_if_no_progress extract_lets
    | (with_reducible apply ActsO.ite) <;> intro _
    | with_reducible apply ActsO.next
    | (with_reducible apply Acts.ite) <;> intro _
    | with_reducible apply Acts.refl
    | with_reducible assumption
    | with_reducible apply setUnit_trans
    | with_reducible apply setDie_trans
    | with_reducible apply put_trans
    | with_reducible apply putFlag_trans
    | dsimp -zeta only
    | dsimp +zetaDelta -zeta only

theorem execRejoinComplete_acts (s : State) : KeepO quiet s (execRejoinComplete s) := by
  unfold execRejoinComplete
  repeat' first
    | fail_if_no_progress extract_lets
    | (with_reducible apply KeepO.ite) <;> intro _
    | with_reducible apply KeepO.next
    | (with_reducible apply Keep.ite) <;> intro _
    | with_reducible apply Keep.refl
    | with_reducible assumption
    | with_reducible apply setUnit_keep
    | with_reducible apply put_keep
    | with_reducible apply putFlag_keep
    | with_reducible apply nextBeat_keep
    | with_reducible apply muteOuts_keep
    | split
    | dsimp -zeta only
    | dsimp +zetaDelta -zeta only

theorem execSubtreeRejoin_acts (m : MbGo) (s : State) (hd : quiet = true → m.dma = false := by first | assumption | nofun) : ActsO m.part quiet s (execSubtreeRejoin m s) := by
  unfold execSubtreeRejoin
  repeat' first
    | fail_if_no_progress extract_lets
    | ((with_reducible apply mailbox_fd); intro _ _)
    | ((with_reducible apply mailbox_sc); intro _ _)
    | ((with_reducible apply mailbox_own2880); intro _ _)
    | ((with_reducible apply mailbox_any); intro _ _)
    | (with_reducible apply Acts.iteS) <;> intro _
    | (with_reducible apply Acts.iteS2) <;> intro _
    | (with_reducible apply ActsO.ite) <;> intro _
    | with_reducible apply ActsO.next
    | (with_reducible apply Acts.ite) <;> intro _
    | with_reducible apply Acts.refl
    | with_reducible assumption
    | dsimp -zeta only
    | with_reducible apply put_trans
    | with_reducible apply startRejoin_trans
    | (with_reducible apply Acts.snd; with_reducible assumption)
    | split
    | dsimp -zeta only

theorem putOnSpare_acts (p : Part) (n : Nat) (on : Bool) (s : State) : Acts p quiet s (State.putOnSpare p n on s) := by
  unfold State.putOnSpare
  repeat' first
    | fail_if_no_progress extract_lets
    | (with_reducible apply Acts.ite) <;> intro _
    | with_reducible apply Acts.refl
    | with_reducible assumption
    | with_reducible apply put_trans
    | with_reducible apply putFlag_trans
    | dsimp -zeta only
    | dsimp +zetaDelta -zeta only
theorem putOnSpare_trans {p : Part} {n : Nat} {on : Bool} {s : State} {s₀ : State} (h₀ : Acts p quiet s₀ s) : Acts p quiet s₀ (State.putOnSpare p n on s) := h₀.trans (putOnSpare_acts ..)
theorem putOnSpare_keep {p : Part} {n : Nat} {on : Bool} {s : State} {s₀ : State} (h₀ : Keep quiet s₀ s) : Keep quiet s₀ (State.putOnSpare p n on s) := h₀.trans (putOnSpare_acts ..).keep

theorem execSignalDetect_acts (p : Part) (n : Nat) (farOffers : Bool) (s : State) : KeepO quiet s (execSignalDetect p n farOffers s) := by
  unfold execSignalDetect
  repeat' first
    | fail_if_no_progress extract_lets
    | (with_reducible apply KeepO.ite) <;> intro _
    | with_reducible apply KeepO.next
    | (with_reducible apply Keep.ite) <;> intro _
    | with_reducible apply Keep.refl
    | with_reducible assumption
    | with_reducible apply modLink_keep
    | with_reducible apply awaitNow_keep
    | with_reducible apply wake_keep
    | with_reducible apply setLstate_keep
    | with_reducible apply putOnSpare_keep
    | split
    | dsimp -zeta only
    | dsimp +zetaDelta -zeta only

theorem execLossOfSignal_acts (p : Part) (n : Nat) (s : State) : ActsO p quiet s (execLossOfSignal p n s) := by
  unfold execLossOfSignal
  repeat' first
    | fail_if_no_progress extract_lets
    | (with_reducible apply ActsO.ite) <;> intro _
    | with_reducible apply ActsO.next
    | (with_reducible apply Acts.ite) <;> intro _
    | with_reducible apply Acts.refl
    | with_reducible assumption
    | with_reducible apply linkDown_trans
    | dsimp -zeta only

theorem execTrainingTimeout_acts (p : Part) (n : Nat) (s : State) : KeepO quiet s (execTrainingTimeout p n s) := by
  unfold execTrainingTimeout
  repeat' first
    | fail_if_no_progress extract_lets
    | (with_reducible apply KeepO.ite) <;> intro _
    | with_reducible apply KeepO.next
    | (with_reducible apply Keep.ite) <;> intro _
    | with_reducible apply Keep.refl
    | with_reducible assumption
    | with_reducible apply awaitNow_keep
    | with_reducible apply linkDown_keep
    | dsimp -zeta only

theorem execRangingTimeout_acts (p : Part) (n : Nat) (s : State) : KeepO quiet s (execRangingTimeout p n s) := by
  unfold execRangingTimeout
  repeat' first
    | fail_if_no_progress extract_lets
    | (with_reducible apply KeepO.ite) <;> intro _
    | with_reducible apply KeepO.next
    | (with_reducible apply Keep.ite) <;> intro _
    | with_reducible apply Keep.refl
    | with_reducible assumption
    | with_reducible apply awaitNow_keep
    | with_reducible apply linkDown_keep
    | dsimp -zeta only

theorem execSuspectTimeout_acts (p : Part) (n : Nat) (s : State) : KeepO quiet s (execSuspectTimeout p n s) := by
  unfold execSuspectTimeout
  repeat' first
    | fail_if_no_progress extract_lets
    | (with_reducible apply KeepO.ite) <;> intro _
    | with_reducible apply KeepO.next
    | (with_reducible apply Keep.ite) <;> intro _
    | with_reducible apply Keep.refl
    | with_reducible assumption
    | with_reducible apply awaitNow_keep
    | with_reducible apply linkDown_keep
    | dsimp -zeta only
    | dsimp +zetaDelta -zeta only

theorem execSuspectClear_acts (p : Part) (n : Nat) (s : State) : ActsO p quiet s (execSuspectClear p n s) := by
  unfold execSuspectClear
  repeat' first
    | fail_if_no_progress extract_lets
    | (with_reducible apply ActsO.ite) <;> intro _
    | with_reducible apply ActsO.next
    | (with_reducible apply Acts.ite) <;> intro _
    | with_reducible apply Acts.refl
    | with_reducible assumption
    | with_reducible apply put_trans
    | with_reducible apply linkEvent_trans
    | with_reducible apply setLstate_trans
    | with_reducible apply reselect_trans
    | with_reducible apply dieReselect_trans
    | with_reducible apply mirrorClock_trans
    | (with_reducible apply Acts.snd; with_reducible assumption)
    | split
    | dsimp -zeta only
    | dsimp +zetaDelta -zeta only

theorem execResidueExceeded_acts (p : Part) (n : Nat) (s : State) : ActsO p quiet s (execResidueExceeded p n s) := by
  unfold execResidueExceeded
  repeat' first
    | fail_if_no_progress extract_lets
    | (with_reducible apply ActsO.ite) <;> intro _
    | with_reducible apply ActsO.next
    | (with_reducible apply Acts.ite) <;> intro _
    | with_reducible apply Acts.refl
    | with_reducible assumption
    | with_reducible apply put_trans
    | with_reducible apply linkEvent_trans
    | with_reducible apply suspect_trans
    | with_reducible apply wantCal_trans
    | split
    | dsimp -zeta only
    | dsimp +zetaDelta -zeta only

theorem execLinkBackoffEnd_acts (p : Part) (n : Nat) (s : State) : KeepO quiet s (execLinkBackoffEnd p n s) := by
  unfold execLinkBackoffEnd
  repeat' first
    | fail_if_no_progress extract_lets
    | (with_reducible apply KeepO.ite) <;> intro _
    | with_reducible apply KeepO.next
    | (with_reducible apply Keep.ite) <;> intro _
    | with_reducible apply Keep.refl
    | with_reducible assumption
    | with_reducible apply modLink_keep
    | with_reducible apply awaitNow_keep
    | dsimp -zeta only

theorem execRetransmitTimeout_acts (p : Part) (n : Nat) (s : State) : KeepO quiet s (execRetransmitTimeout p n s) := by
  unfold execRetransmitTimeout
  repeat' first
    | fail_if_no_progress extract_lets
    | (with_reducible apply KeepO.ite) <;> intro _
    | with_reducible apply KeepO.next
    | (with_reducible apply Keep.ite) <;> intro _
    | with_reducible apply Keep.refl
    | with_reducible assumption
    | with_reducible apply modLink_keep
    | with_reducible apply awaitBeat_keep
    | (with_reducible apply Keep.snd; with_reducible assumption)
    | split
    | dsimp -zeta only

theorem execPaySplitChange_acts (p : Part) (n : Nat) (s : State) : KeepO quiet s (execPaySplitChange p n s) := by
  unfold execPaySplitChange
  repeat' first
    | fail_if_no_progress extract_lets
    | (with_reducible apply KeepO.ite) <;> intro _
    | with_reducible apply KeepO.next
    | (with_reducible apply Keep.ite) <;> intro _
    | with_reducible apply Keep.refl
    | with_reducible assumption
    | with_reducible apply put_keep
    | with_reducible apply modLink_keep
    | with_reducible apply awaitBeat_keep
    | split
    | dsimp -zeta only
    | dsimp +zetaDelta -zeta only

theorem execCarryingRoleMove_acts (n pkgs : Nat) (take : Bool) (s : State) : KeepO quiet s (execCarryingRoleMove n pkgs take s) := by
  unfold execCarryingRoleMove
  repeat' first
    | fail_if_no_progress extract_lets
    | (with_reducible apply KeepO.ite) <;> intro _
    | with_reducible apply KeepO.next
    | (with_reducible apply Keep.ite) <;> intro _
    | with_reducible apply Keep.refl
    | with_reducible assumption
    | with_reducible apply nextBeat_keep
    | with_reducible apply carryNow_keep
    | with_reducible apply carryBelow_keep
    | split
    | dsimp -zeta only
    | dsimp +zetaDelta -zeta only

theorem storeCal_acts (p : Part) (n : Nat) (s : State) : Acts p quiet s (State.storeCal p n s) := by
  unfold State.storeCal
  repeat' first
    | fail_if_no_progress extract_lets
    | (with_reducible apply Acts.ite) <;> intro _
    | with_reducible apply Acts.refl
    | with_reducible assumption
    | with_reducible apply modLink_trans
    | split
    | dsimp -zeta only
theorem storeCal_trans {p : Part} {n : Nat} {s : State} {s₀ : State} (h₀ : Acts p quiet s₀ s) : Acts p quiet s₀ (State.storeCal p n s) := h₀.trans (storeCal_acts ..)
theorem storeCal_keep {p : Part} {n : Nat} {s : State} {s₀ : State} (h₀ : Keep quiet s₀ s) : Keep quiet s₀ (State.storeCal p n s) := h₀.trans (storeCal_acts ..).keep

theorem execLinkCal_acts (m : MbGo) (s : State) (hd : quiet = true → m.dma = false := by first | assumption | nofun) : KeepO quiet s (execLinkCal m s) := by
  unfold execLinkCal
  repeat' first
    | fail_if_no_progress extract_lets
    | ((with_reducible apply mailbox_keep); intro _ _)
    | (with_reducible apply Keep.iteS) <;> intro _
    | (with_reducible apply Keep.iteS2) <;> intro _
    | (with_reducible apply KeepO.ite) <;> intro _
    | with_reducible apply KeepO.next
    | (with_reducible apply Keep.ite) <;> intro _
    | with_reducible apply Keep.refl
    | with_reducible assumption
    | dsimp -zeta only
    | with_reducible apply put_keep
    | with_reducible apply putS_keep
    | with_reducible apply setLink_keep
    | with_reducible apply setHold_keep
    | with_reducible apply reselect_keep
    | with_reducible apply wantCal_keep
    | with_reducible apply newCal_keep
    | with_reducible apply storeCal_keep
    | (with_reducible apply Keep.snd; with_reducible assumption)
    | split
    | dsimp -zeta only
    | dsimp +zetaDelta -zeta only

theorem execLinkSwap_acts (m : MbGo) (s : State) (hd : quiet = true → m.dma = false := by first | assumption | nofun) : ActsO m.part quiet s (execLinkSwap m s) := by
  unfold execLinkSwap
  repeat' first
    | fail_if_no_progress extract_lets
    | ((with_reducible apply mailbox_fd); intro _ _)
    | ((with_reducible apply mailbox_sc); intro _ _)
    | ((with_reducible apply mailbox_own2880); intro _ _)
    | ((with_reducible apply mailbox_any); intro _ _)
    | (with_reducible apply Acts.iteS) <;> intro _
    | (with_reducible apply Acts.iteS2) <;> intro _
    | (with_reducible apply ActsO.ite) <;> intro _
    | with_reducible apply ActsO.next
    | (with_reducible apply Acts.ite) <;> intro _
    | with_reducible apply Acts.refl
    | with_reducible assumption
    | dsimp -zeta only
    | with_reducible apply laneSum_trans
    | with_reducible apply startSwap_trans
    | split
    | dsimp -zeta only
    | dsimp +zetaDelta -zeta only

theorem execLinkReset_acts (m : MbGo) (s : State) (hd : quiet = true → m.dma = false := by first | assumption | nofun) : ActsO m.part quiet s (execLinkReset m s) := by
  unfold execLinkReset
  repeat' first
    | fail_if_no_progress extract_lets
    | ((with_reducible apply mailbox_fd); intro _ _)
    | ((with_reducible apply mailbox_sc); intro _ _)
    | ((with_reducible apply mailbox_own2880); intro _ _)
    | ((with_reducible apply mailbox_any); intro _ _)
    | (with_reducible apply Acts.iteS) <;> intro _
    | (with_reducible apply Acts.iteS2) <;> intro _
    | (with_reducible apply ActsO.ite) <;> intro _
    | with_reducible apply ActsO.next
    | (with_reducible apply Acts.ite) <;> intro _
    | with_reducible apply Acts.refl
    | with_reducible assumption
    | dsimp -zeta only
    | with_reducible apply modLink_trans
    | with_reducible apply linkDown_trans
    | split
    | dsimp -zeta only
    | dsimp +zetaDelta -zeta only

theorem execReflectRunStart_acts (p : Part) (n : Nat) (s : State) : KeepO quiet s (execReflectRunStart p n s) := by
  unfold execReflectRunStart
  repeat' first
    | fail_if_no_progress extract_lets
    | (with_reducible apply KeepO.ite) <;> intro _
    | with_reducible apply KeepO.next
    | (with_reducible apply Keep.ite) <;> intro _
    | with_reducible apply Keep.refl
    | with_reducible assumption
    | with_reducible apply put_keep
    | with_reducible apply modLink_keep
    | with_reducible apply awaitBeat_keep
    | with_reducible apply nextBeat_keep
    | split
    | dsimp -zeta only
    | dsimp +zetaDelta -zeta only

theorem execCalSlice_acts (p : Part) (n : Nat) (sent reflected : Nat) (s : State) : KeepO quiet s (execCalSlice p n sent reflected s) := by
  unfold execCalSlice
  repeat' first
    | fail_if_no_progress extract_lets
    | (with_reducible apply KeepO.ite) <;> intro _
    | with_reducible apply KeepO.next
    | (with_reducible apply Keep.ite) <;> intro _
    | with_reducible apply Keep.refl
    | with_reducible assumption
    | with_reducible apply modLink_keep
    | with_reducible apply awaitBeat_keep
    | with_reducible apply nextBeat_keep
    | (with_reducible apply Keep.snd; with_reducible assumption)
    | split
    | dsimp -zeta only
    | dsimp +zetaDelta -zeta only

theorem execReflectRunEnd_acts (p : Part) (n : Nat) (s : State) : ActsO p quiet s (execReflectRunEnd p n s) := by
  unfold execReflectRunEnd
  repeat' first
    | fail_if_no_progress extract_lets
    | (with_reducible apply ActsO.ite) <;> intro _
    | with_reducible apply ActsO.next
    | (with_reducible apply Acts.ite) <;> intro _
    | with_reducible apply Acts.refl
    | with_reducible assumption
    | with_reducible apply put_trans
    | with_reducible apply modLink_trans
    | with_reducible apply newCal_trans
    | with_reducible apply storeCal_trans
    | (with_reducible apply Acts.snd; with_reducible assumption)
    | split
    | dsimp -zeta only
    | dsimp +zetaDelta -zeta only

theorem execSpareReady_acts (p : Part) (n : Nat) (ok : Bool) (s : State) : ActsO p quiet s (execSpareReady p n ok s) := by
  unfold execSpareReady
  repeat' first
    | fail_if_no_progress extract_lets
    | (with_reducible apply ActsO.ite) <;> intro _
    | with_reducible apply ActsO.next
    | (with_reducible apply Acts.ite) <;> intro _
    | with_reducible apply Acts.refl
    | with_reducible assumption
    | with_reducible apply put_trans
    | with_reducible apply setLink_trans
    | with_reducible apply spareNone_trans
    | split
    | dsimp -zeta only
    | dsimp +zetaDelta -zeta only

theorem execSwapAtBoundary_acts (p : Part) (n : Nat) (s : State) : KeepO quiet s (execSwapAtBoundary p n s) := by
  unfold execSwapAtBoundary
  repeat' first
    | fail_if_no_progress extract_lets
    | (with_reducible apply KeepO.ite) <;> intro _
    | with_reducible apply KeepO.next
    | (with_reducible apply Keep.ite) <;> intro _
    | with_reducible apply Keep.refl
    | with_reducible assumption
    | with_reducible apply put_keep
    | with_reducible apply putFlag_keep
    | with_reducible apply modLink_keep
    | with_reducible apply awaitBeat_keep
    | with_reducible apply laneSum_keep
    | with_reducible apply putOnSpare_keep
    | (with_reducible apply Keep.snd; with_reducible assumption)
    | split
    | dsimp -zeta only
    | dsimp +zetaDelta -zeta only

end Sys2Proof.Machine
end

