-- ==== Sys2Proof/Laws/ActsSlate.lean ====
section
/-! SUPPORT. One lemma an operation: what it keeps (Acts, Keep). -/

namespace Sys2Proof.Machine

open Sys2Proof

set_option linter.unusedTactic false
set_option linter.unreachableTactic false
set_option linter.unusedVariables false

variable {quiet : Bool}

theorem slateRegs_acts (p : Part) (s : State) : Acts p quiet s (State.slateRegs p s) := by
  unfold State.slateRegs
  repeat' first
    | fail_if_no_progress extract_lets
    | (with_reducible apply Acts.ite) <;> intro _
    | with_reducible apply Acts.refl
    | with_reducible assumption
    | with_reducible apply put_trans
    | with_reducible apply putFlag_trans
    | dsimp -zeta only
    | dsimp +zetaDelta -zeta only
theorem slateRegs_trans {p : Part} {s : State} {s₀ : State} (h₀ : Acts p quiet s₀ s) : Acts p quiet s₀ (State.slateRegs p s) := h₀.trans (slateRegs_acts ..)
theorem slateRegs_keep {p : Part} {s : State} {s₀ : State} (h₀ : Keep quiet s₀ s) : Keep quiet s₀ (State.slateRegs p s) := h₀.trans (slateRegs_acts ..).keep

theorem denied_acts (p : Part) (s : State) : Acts p quiet s (State.denied p s) := by
  unfold State.denied
  repeat' first
    | fail_if_no_progress extract_lets
    | (with_reducible apply Acts.ite) <;> intro _
    | with_reducible apply Acts.refl
    | with_reducible assumption
    | with_reducible apply put_trans
    | with_reducible apply bump_trans
    | dsimp -zeta only
theorem denied_trans {p : Part} {s : State} {s₀ : State} (h₀ : Acts p quiet s₀ s) : Acts p quiet s₀ (State.denied p s) := h₀.trans (denied_acts ..)
theorem denied_keep {p : Part} {s : State} {s₀ : State} (h₀ : Keep quiet s₀ s) : Keep quiet s₀ (State.denied p s) := h₀.trans (denied_acts ..).keep

theorem statusRegs_acts (p : Part) (s : State) : Acts p quiet s (State.statusRegs p s) := by
  unfold State.statusRegs
  repeat' first
    | fail_if_no_progress extract_lets
    | (with_reducible apply Acts.ite) <;> intro _
    | with_reducible apply Acts.refl
    | with_reducible assumption
    | with_reducible apply put_trans
    | with_reducible apply putFlag_trans
    | (with_reducible apply Acts.snd; with_reducible assumption)
    | split
    | dsimp -zeta only
    | dsimp +zetaDelta -zeta only
theorem statusRegs_trans {p : Part} {s : State} {s₀ : State} (h₀ : Acts p quiet s₀ s) : Acts p quiet s₀ (State.statusRegs p s) := h₀.trans (statusRegs_acts ..)
theorem statusRegs_keep {p : Part} {s : State} {s₀ : State} (h₀ : Keep quiet s₀ s) : Keep quiet s₀ (State.statusRegs p s) := h₀.trans (statusRegs_acts ..).keep

theorem fdPins_acts (s : State) : Acts .fd quiet s (State.fdPins s) := by
  unfold State.fdPins
  repeat' first
    | fail_if_no_progress extract_lets
    | (with_reducible apply Acts.ite) <;> intro _
    | with_reducible apply Acts.refl
    | with_reducible assumption
    | with_reducible apply put_trans
    | with_reducible apply putFlag_trans
    | split
    | dsimp -zeta only
    | dsimp +zetaDelta -zeta only
theorem fdPins_trans {s : State} {s₀ : State} (h₀ : Acts .fd quiet s₀ s) : Acts .fd quiet s₀ (State.fdPins s) := h₀.trans (fdPins_acts ..)
theorem fdPins_keep {s : State} {s₀ : State} (h₀ : Keep quiet s₀ s) : Keep quiet s₀ (State.fdPins s) := h₀.trans (fdPins_acts ..).keep

theorem syncInt_acts (s : State) : Acts .sc quiet s (State.syncInt s) := by
  unfold State.syncInt
  repeat' first
    | fail_if_no_progress extract_lets
    | (with_reducible apply Acts.ite) <;> intro _
    | with_reducible apply Acts.refl
    | with_reducible assumption
    | with_reducible apply putFlag_trans
    | dsimp -zeta only
    | dsimp +zetaDelta -zeta only
theorem syncInt_trans {s : State} {s₀ : State} (h₀ : Acts .sc quiet s₀ s) : Acts .sc quiet s₀ (State.syncInt s) := h₀.trans (syncInt_acts ..)
theorem syncInt_keep {s : State} {s₀ : State} (h₀ : Keep quiet s₀ s) : Keep quiet s₀ (State.syncInt s) := h₀.trans (syncInt_acts ..).keep

theorem scPins_acts (s : State) : Acts .sc quiet s (State.scPins s) := by
  unfold State.scPins
  repeat' first
    | fail_if_no_progress extract_lets
    | (with_reducible apply Acts.ite) <;> intro _
    | with_reducible apply Acts.refl
    | with_reducible assumption
    | with_reducible apply putFlag_trans
    | with_reducible apply syncInt_trans
    | split
    | dsimp -zeta only
    | dsimp +zetaDelta -zeta only
theorem scPins_trans {s : State} {s₀ : State} (h₀ : Acts .sc quiet s₀ s) : Acts .sc quiet s₀ (State.scPins s) := h₀.trans (scPins_acts ..)
theorem scPins_keep {s : State} {s₀ : State} (h₀ : Keep quiet s₀ s) : Keep quiet s₀ (State.scPins s) := h₀.trans (scPins_acts ..).keep

theorem refresh_acts (p : Part) (req off : Nat) (s : State) : Acts p quiet s (State.refresh p req off s) := by
  unfold State.refresh
  repeat' first
    | fail_if_no_progress extract_lets
    | (with_reducible apply Acts.ite) <;> intro _
    | with_reducible apply Acts.refl
    | with_reducible assumption
    | with_reducible apply put_trans
    | with_reducible apply putFlag_trans
    | with_reducible apply attRegs_trans
    | with_reducible apply fwRegs_trans
    | with_reducible apply ttRegs_trans
    | with_reducible apply promoteRegs_trans
    | with_reducible apply slateRegs_trans
    | with_reducible apply statusRegs_trans
    | with_reducible apply fdPins_trans
    | with_reducible apply syncInt_trans
    | with_reducible apply scPins_trans
    | (with_reducible apply Acts.snd; with_reducible assumption)
    | split
    | dsimp -zeta only
theorem refresh_trans {p : Part} {req off : Nat} {s : State} {s₀ : State} (h₀ : Acts p quiet s₀ s) : Acts p quiet s₀ (State.refresh p req off s) := h₀.trans (refresh_acts ..)
theorem refresh_keep {p : Part} {req off : Nat} {s : State} {s₀ : State} (h₀ : Keep quiet s₀ s) : Keep quiet s₀ (State.refresh p req off s) := h₀.trans (refresh_acts ..).keep

theorem readWord_acts (p : Part) (req off : Nat) (s : State) : Acts p quiet s (State.readWord p req off s).2 := by
  cases p
  all_goals unfold State.readWord
  all_goals
  repeat' first
    | fail_if_no_progress extract_lets
    | (with_reducible apply Acts.iteS) <;> intro _
    | (with_reducible apply Acts.iteS2) <;> intro _
    | (with_reducible apply Acts.ite) <;> intro _
    | with_reducible apply Acts.refl
    | with_reducible assumption
    | dsimp -zeta only
    | with_reducible apply put_trans
    | with_reducible apply setPay_trans
    | with_reducible apply refresh_trans
    | ((with_reducible apply Acts.foldl_trans); intro _ _)
    | (with_reducible apply Acts.snd; with_reducible assumption)
    | split
    | dsimp -zeta only
    | dsimp +zetaDelta -zeta only
    | (exfalso; simp_all; done)
theorem readWord_trans {p : Part} {req off : Nat} {s : State} {s₀ : State} (h₀ : Acts p quiet s₀ s) : Acts p quiet s₀ (State.readWord p req off s).2 := h₀.trans (readWord_acts ..)
theorem readWord_keep {p : Part} {req off : Nat} {s : State} {s₀ : State} (h₀ : Keep quiet s₀ s) : Keep quiet s₀ (State.readWord p req off s).2 := h₀.trans (readWord_acts ..).keep

theorem replyTo_acts (p : Part) (req off v : Nat) (stale : Bool) (s : State) : Acts p quiet s (State.replyTo p req off v stale s) := by
  unfold State.replyTo
  repeat' first
    | fail_if_no_progress extract_lets
    | (with_reducible apply Acts.ite) <;> intro _
    | with_reducible apply Acts.refl
    | with_reducible assumption
    | with_reducible apply setSlate_trans
    | dsimp -zeta only
theorem replyTo_trans {p : Part} {req off v : Nat} {stale : Bool} {s : State} {s₀ : State} (h₀ : Acts p quiet s₀ s) : Acts p quiet s₀ (State.replyTo p req off v stale s) := h₀.trans (replyTo_acts ..)
theorem replyTo_keep {p : Part} {req off v : Nat} {stale : Bool} {s : State} {s₀ : State} (h₀ : Keep quiet s₀ s) : Keep quiet s₀ (State.replyTo p req off v stale s) := h₀.trans (replyTo_acts ..).keep

theorem writeFields_acts (p : Part) (fs : List Field) (v : Nat) (only : Field → Bool) (s : State) : Acts p quiet s (State.writeFields p fs v only s) := by
  unfold State.writeFields
  repeat' first
    | fail_if_no_progress extract_lets
    | (with_reducible apply Acts.ite) <;> intro _
    | with_reducible apply Acts.refl
    | with_reducible assumption
    | with_reducible apply put_trans
    | with_reducible apply rsvd_trans
    | ((with_reducible apply Acts.foldl_trans); intro _ _)
    | (with_reducible apply Acts.snd; with_reducible assumption)
    | split
    | dsimp -zeta only
    | dsimp +zetaDelta -zeta only
theorem writeFields_trans {p : Part} {fs : List Field} {v : Nat} {only : Field → Bool} {s : State} {s₀ : State} (h₀ : Acts p quiet s₀ s) : Acts p quiet s₀ (State.writeFields p fs v only s) := h₀.trans (writeFields_acts ..)
theorem writeFields_keep {p : Part} {fs : List Field} {v : Nat} {only : Field → Bool} {s : State} {s₀ : State} (h₀ : Keep quiet s₀ s) : Keep quiet s₀ (State.writeFields p fs v only s) := h₀.trans (writeFields_acts ..).keep

theorem linkCtrlWritten_acts (p : Part) (n : Nat) (s before : State) : Acts p quiet s (State.linkCtrlWritten p n s before) := by
  unfold State.linkCtrlWritten
  repeat' first
    | fail_if_no_progress extract_lets
    | (with_reducible apply Acts.ite) <;> intro _
    | with_reducible apply Acts.refl
    | with_reducible assumption
    | with_reducible apply setLink_trans
    | with_reducible apply linkDown_trans
    | with_reducible apply channelCheck_trans
    | ((with_reducible apply Acts.foldl_trans); intro _ _)
    | split
    | dsimp -zeta only
    | dsimp +zetaDelta -zeta only
theorem linkCtrlWritten_trans {p : Part} {n : Nat} {s before : State} {s₀ : State} (h₀ : Acts p quiet s₀ s) : Acts p quiet s₀ (State.linkCtrlWritten p n s before) := h₀.trans (linkCtrlWritten_acts ..)
theorem linkCtrlWritten_keep {p : Part} {n : Nat} {s before : State} {s₀ : State} (h₀ : Keep quiet s₀ s) : Keep quiet s₀ (State.linkCtrlWritten p n s before) := h₀.trans (linkCtrlWritten_acts ..).keep

theorem outCtrlWritten_acts (n : Nat) (s before : State) : Acts .fd quiet s (State.outCtrlWritten n s before) := by
  unfold State.outCtrlWritten
  repeat' first
    | fail_if_no_progress extract_lets
    | (with_reducible apply Acts.ite) <;> intro _
    | with_reducible apply Acts.refl
    | with_reducible assumption
    | with_reducible apply put_trans
    | with_reducible apply rsvd_trans
    | with_reducible apply setOut_trans
    | with_reducible apply muteOuts_trans
    | ((with_reducible apply Acts.foldl_trans); intro _ _)
    | (with_reducible apply Acts.snd; with_reducible assumption)
    | split
    | dsimp -zeta only
    | dsimp +zetaDelta -zeta only
theorem outCtrlWritten_trans {n : Nat} {s before : State} {s₀ : State} (h₀ : Acts .fd quiet s₀ s) : Acts .fd quiet s₀ (State.outCtrlWritten n s before) := h₀.trans (outCtrlWritten_acts ..)
theorem outCtrlWritten_keep {n : Nat} {s before : State} {s₀ : State} (h₀ : Keep quiet s₀ s) : Keep quiet s₀ (State.outCtrlWritten n s before) := h₀.trans (outCtrlWritten_acts ..).keep

theorem refCtrlWritten_acts (s before : State) : Keep false s (State.refCtrlWritten s before) := by
  unfold State.refCtrlWritten
  repeat' first
    | fail_if_no_progress extract_lets
    | (with_reducible apply Keep.ite) <;> intro _
    | with_reducible apply Keep.refl
    | with_reducible assumption
    | with_reducible apply put_keep
    | with_reducible apply setRef_keep
    | with_reducible apply revertiveWait_keep
    | with_reducible apply disqualify_keep
    | ((with_reducible apply Keep.foldl_trans); intro _ _)
    | split
    | exact fun h => absurd h Bool.false_ne_true
    | dsimp -zeta only
theorem refCtrlWritten_keep {s before : State} {s₀ : State} (h₀ : Keep false s₀ s) : Keep false s₀ (State.refCtrlWritten s before) := h₀.trans (refCtrlWritten_acts ..)

theorem slewWritten_acts (s : State) : Acts .fd quiet s (State.slewWritten s) := by
  unfold State.slewWritten
  repeat' first
    | fail_if_no_progress extract_lets
    | (with_reducible apply Acts.ite) <;> intro _
    | with_reducible apply Acts.refl
    | with_reducible assumption
    | with_reducible apply setUnit_trans
    | split
    | dsimp -zeta only
theorem slewWritten_trans {s : State} {s₀ : State} (h₀ : Acts .fd quiet s₀ s) : Acts .fd quiet s₀ (State.slewWritten s) := h₀.trans (slewWritten_acts ..)
theorem slewWritten_keep {s : State} {s₀ : State} (h₀ : Keep quiet s₀ s) : Keep quiet s₀ (State.slewWritten s) := h₀.trans (slewWritten_acts ..).keep

theorem ptpWritten_acts (s : State) : Acts .fd quiet s (State.ptpWritten s) := by
  unfold State.ptpWritten
  repeat' first
    | fail_if_no_progress extract_lets
    | (with_reducible apply Acts.ite) <;> intro _
    | with_reducible apply Acts.refl
    | with_reducible assumption
    | with_reducible apply setDist_trans
    | with_reducible apply put_trans
    | split
    | dsimp -zeta only
theorem ptpWritten_trans {s : State} {s₀ : State} (h₀ : Acts .fd quiet s₀ s) : Acts .fd quiet s₀ (State.ptpWritten s) := h₀.trans (ptpWritten_acts ..)
theorem ptpWritten_keep {s : State} {s₀ : State} (h₀ : Keep quiet s₀ s) : Keep quiet s₀ (State.ptpWritten s) := h₀.trans (ptpWritten_acts ..).keep

theorem ladderWritten_acts (p : Part) (u : Nat) (s : State) : Acts p quiet s (State.ladderWritten p u s) := by
  unfold State.ladderWritten
  repeat' first
    | fail_if_no_progress extract_lets
    | (with_reducible apply Acts.ite) <;> intro _
    | with_reducible apply Acts.refl
    | with_reducible assumption
    | with_reducible apply wake_trans
    | ((with_reducible apply Acts.foldl_trans); intro _ _)
    | split
    | dsimp -zeta only
    | dsimp +zetaDelta -zeta only
theorem ladderWritten_trans {p : Part} {u : Nat} {s : State} {s₀ : State} (h₀ : Acts p quiet s₀ s) : Acts p quiet s₀ (State.ladderWritten p u s) := h₀.trans (ladderWritten_acts ..)
theorem ladderWritten_keep {p : Part} {u : Nat} {s : State} {s₀ : State} (h₀ : Keep quiet s₀ s) : Keep quiet s₀ (State.ladderWritten p u s) := h₀.trans (ladderWritten_acts ..).keep

theorem directOp_acts (op : Nat) (s : State) : Acts .sc false s (State.directOp op s) := by
  unfold State.directOp
  repeat' first
    | fail_if_no_progress extract_lets
    | (with_reducible apply Acts.ite) <;> intro _
    | with_reducible apply Acts.refl
    | with_reducible assumption
    | with_reducible apply put_trans
    | with_reducible apply rsvd_trans
    | with_reducible apply createSlot_trans
    | with_reducible apply barrierFree_trans
    | ((with_reducible apply Acts.foldl_trans); intro _ _)
    | (with_reducible apply Acts.snd; with_reducible assumption)
    | split
    | exact fun h => absurd h Bool.false_ne_true
    | dsimp -zeta only
    | dsimp +zetaDelta -zeta only
theorem directOp_trans {op : Nat} {s : State} {s₀ : State} (h₀ : Acts .sc false s₀ s) : Acts .sc false s₀ (State.directOp op s) := h₀.trans (directOp_acts ..)
theorem directOp_keep {op : Nat} {s : State} {s₀ : State} (h₀ : Keep false s₀ s) : Keep false s₀ (State.directOp op s) := h₀.trans (directOp_acts ..).keep

theorem fdWritten_acts (off n v : Nat) (s before : State) : Keep false s (State.fdWritten off n v s before) := by
  unfold State.fdWritten
  repeat' first
    | fail_if_no_progress extract_lets
    | (with_reducible apply Keep.ite) <;> intro _
    | with_reducible apply Keep.refl
    | with_reducible assumption
    | with_reducible apply signal_keep
    | with_reducible apply signalRise_keep
    | with_reducible apply tdcRelease_keep
    | with_reducible apply tdcCtrlWritten_keep
    | with_reducible apply ruleChanged_keep
    | with_reducible apply winSelect_keep
    | with_reducible apply outCtrlWritten_keep
    | with_reducible apply refCtrlWritten_keep
    | with_reducible apply slewWritten_keep
    | with_reducible apply ptpWritten_keep
    | ((with_reducible apply Keep.foldl_trans); intro _ _)
    | split
    | exact fun h => absurd h Bool.false_ne_true
    | dsimp -zeta only
theorem fdWritten_keep {off n v : Nat} {s before : State} {s₀ : State} (h₀ : Keep false s₀ s) : Keep false s₀ (State.fdWritten off n v s before) := h₀.trans (fdWritten_acts ..)

theorem scWritten_acts (off n v : Nat) (s before : State) : Acts .sc false s (State.scWritten off n v s before) := by
  unfold State.scWritten
  repeat' first
    | fail_if_no_progress extract_lets
    | (with_reducible apply Acts.ite) <;> intro _
    | with_reducible apply Acts.refl
    | with_reducible assumption
    | with_reducible apply put_trans
    | with_reducible apply strobeCfgWritten_trans
    | with_reducible apply strobeEnWritten_trans
    | with_reducible apply setHostFlag_trans
    | with_reducible apply setQuota_trans
    | with_reducible apply hostArrive_trans
    | with_reducible apply hostArm_trans
    | with_reducible apply chkExpect_trans
    | with_reducible apply chkLoad_trans
    | with_reducible apply directOp_trans
    | ((with_reducible apply Acts.foldl_trans); intro _ _)
    | split
    | exact fun h => absurd h Bool.false_ne_true
    | dsimp -zeta only
theorem scWritten_trans {off n v : Nat} {s before : State} {s₀ : State} (h₀ : Acts .sc false s₀ s) : Acts .sc false s₀ (State.scWritten off n v s before) := h₀.trans (scWritten_acts ..)
theorem scWritten_keep {off n v : Nat} {s before : State} {s₀ : State} (h₀ : Keep false s₀ s) : Keep false s₀ (State.scWritten off n v s before) := h₀.trans (scWritten_acts ..).keep

theorem applyWord_acts (p : Part) (off n : Nat) (fs : List Field) (v : Nat) (only : Field → Bool) (s : State) : Keep false s (State.applyWord p off n fs v only s) := by
  unfold State.applyWord
  repeat' first
    | fail_if_no_progress extract_lets
    | (with_reducible apply Keep.ite) <;> intro _
    | with_reducible apply Keep.refl
    | with_reducible assumption
    | with_reducible apply setSlate_keep
    | with_reducible apply rsvd_keep
    | with_reducible apply bindQueue_keep
    | with_reducible apply writeFields_keep
    | with_reducible apply linkCtrlWritten_keep
    | with_reducible apply ladderWritten_keep
    | with_reducible apply fdWritten_keep
    | with_reducible apply scWritten_keep
    | (with_reducible apply Keep.snd; with_reducible assumption)
    | split
    | exact fun h => absurd h Bool.false_ne_true
    | dsimp -zeta only
    | dsimp +zetaDelta -zeta only
theorem applyWord_keep {p : Part} {off n : Nat} {fs : List Field} {v : Nat} {only : Field → Bool} {s : State} {s₀ : State} (h₀ : Keep false s₀ s) : Keep false s₀ (State.applyWord p off n fs v only s) := h₀.trans (applyWord_acts ..)

theorem applyWord_sc_acts (off n : Nat) (fs : List Field) (v : Nat) (only : Field → Bool) (s : State) : Acts .sc false s (State.applyWord .sc off n fs v only s) := by
  unfold State.applyWord
  repeat' first
    | fail_if_no_progress extract_lets
    | (with_reducible apply Acts.ite) <;> intro _
    | with_reducible apply Acts.refl
    | with_reducible assumption
    | with_reducible apply setSlate_trans
    | with_reducible apply rsvd_trans
    | with_reducible apply bindQueue_trans
    | with_reducible apply writeFields_trans
    | with_reducible apply linkCtrlWritten_trans
    | with_reducible apply ladderWritten_trans
    | with_reducible apply scWritten_trans
    | (with_reducible apply Acts.snd; with_reducible assumption)
    | split
    | exact fun h => absurd h Bool.false_ne_true
    | dsimp -zeta only
    | dsimp +zetaDelta -zeta only
    | (exfalso; simp_all; done)
theorem applyWord_sc_trans {off n : Nat} {fs : List Field} {v : Nat} {only : Field → Bool} {s : State} {s₀ : State} (h₀ : Acts .sc false s₀ s) : Acts .sc false s₀ (State.applyWord .sc off n fs v only s) := h₀.trans (applyWord_sc_acts ..)
theorem applyWord_sc_keep {off n : Nat} {fs : List Field} {v : Nat} {only : Field → Bool} {s : State} {s₀ : State} (h₀ : Keep false s₀ s) : Keep false s₀ (State.applyWord .sc off n fs v only s) := h₀.trans (applyWord_sc_acts ..).keep

theorem serve_acts (p : Part) (a : EmuAcc) (s : State) : Keep false s (State.serve p a s) := by
  unfold State.serve
  repeat' first
    | fail_if_no_progress extract_lets
    | (with_reducible apply Keep.ite) <;> intro _
    | with_reducible apply Keep.refl
    | with_reducible assumption
    | with_reducible apply put_keep
    | with_reducible apply setSlate_keep
    | with_reducible apply readWord_keep
    | with_reducible apply replyTo_keep
    | with_reducible apply applyWord_keep
    | (with_reducible apply Keep.snd; with_reducible assumption)
    | split
    | exact fun h => absurd h Bool.false_ne_true
    | dsimp -zeta only
    | dsimp +zetaDelta -zeta only
theorem serve_keep {p : Part} {a : EmuAcc} {s : State} {s₀ : State} (h₀ : Keep false s₀ s) : Keep false s₀ (State.serve p a s) := h₀.trans (serve_acts ..)

theorem serve_sc_acts (a : EmuAcc) (s : State) : Acts .sc false s (State.serve .sc a s) := by
  unfold State.serve
  repeat' first
    | fail_if_no_progress extract_lets
    | (with_reducible apply Acts.ite) <;> intro _
    | with_reducible apply Acts.refl
    | with_reducible assumption
    | with_reducible apply put_trans
    | with_reducible apply setSlate_trans
    | with_reducible apply readWord_trans
    | with_reducible apply replyTo_trans
    | with_reducible apply applyWord_sc_trans
    | (with_reducible apply Acts.snd; with_reducible assumption)
    | split
    | exact fun h => absurd h Bool.false_ne_true
    | dsimp -zeta only
    | dsimp +zetaDelta -zeta only
    | (exfalso; simp_all; done)
theorem serve_sc_trans {a : EmuAcc} {s : State} {s₀ : State} (h₀ : Acts .sc false s₀ s) : Acts .sc false s₀ (State.serve .sc a s) := h₀.trans (serve_sc_acts ..)
theorem serve_sc_keep {a : EmuAcc} {s : State} {s₀ : State} (h₀ : Keep false s₀ s) : Keep false s₀ (State.serve .sc a s) := h₀.trans (serve_sc_acts ..).keep

theorem serveStale_acts (p : Part) (a : EmuAcc) (s : State) : Acts p quiet s (State.serveStale p a s) := by
  unfold State.serveStale
  repeat' first
    | fail_if_no_progress extract_lets
    | (with_reducible apply Acts.ite) <;> intro _
    | with_reducible apply Acts.refl
    | with_reducible assumption
    | with_reducible apply put_trans
    | with_reducible apply replyTo_trans
    | dsimp -zeta only
theorem serveStale_trans {p : Part} {a : EmuAcc} {s : State} {s₀ : State} (h₀ : Acts p quiet s₀ s) : Acts p quiet s₀ (State.serveStale p a s) := h₀.trans (serveStale_acts ..)
theorem serveStale_keep {p : Part} {a : EmuAcc} {s : State} {s₀ : State} (h₀ : Keep quiet s₀ s) : Keep quiet s₀ (State.serveStale p a s) := h₀.trans (serveStale_acts ..).keep

theorem hostBusy_acts (p : Part) (a : EmuAcc) (s : State) : Acts p quiet s (State.hostBusy p a s) := by
  cases p
  all_goals unfold State.hostBusy
  all_goals
  repeat' first
    | fail_if_no_progress extract_lets
    | (with_reducible apply Acts.ite) <;> intro _
    | with_reducible apply Acts.refl
    | with_reducible assumption
    | with_reducible apply put_trans
    | split
    | dsimp -zeta only
    | (exfalso; simp_all; done)
theorem hostBusy_trans {p : Part} {a : EmuAcc} {s : State} {s₀ : State} (h₀ : Acts p quiet s₀ s) : Acts p quiet s₀ (State.hostBusy p a s) := h₀.trans (hostBusy_acts ..)
theorem hostBusy_keep {p : Part} {a : EmuAcc} {s : State} {s₀ : State} (h₀ : Keep quiet s₀ s) : Keep quiet s₀ (State.hostBusy p a s) := h₀.trans (hostBusy_acts ..).keep

theorem emulate_acts (p : Part) (a : EmuAcc) (s : State) : Keep false s (State.emulate p a s) := by
  unfold State.emulate
  repeat' first
    | fail_if_no_progress extract_lets
    | (with_reducible apply Keep.ite) <;> intro _
    | with_reducible apply Keep.refl
    | with_reducible assumption
    | with_reducible apply setSlate_keep
    | with_reducible apply rsvd_keep
    | with_reducible apply slateRegs_keep
    | with_reducible apply replyTo_keep
    | with_reducible apply serve_keep
    | with_reducible apply serveStale_keep
    | with_reducible apply hostBusy_keep
    | (with_reducible apply Keep.snd; with_reducible assumption)
    | split
    | exact fun h => absurd h Bool.false_ne_true
    | dsimp -zeta only
    | dsimp +zetaDelta -zeta only
theorem emulate_keep {p : Part} {a : EmuAcc} {s : State} {s₀ : State} (h₀ : Keep false s₀ s) : Keep false s₀ (State.emulate p a s) := h₀.trans (emulate_acts ..)

theorem emulate_sc_acts (a : EmuAcc) (s : State) : Acts .sc false s (State.emulate .sc a s) := by
  unfold State.emulate
  repeat' first
    | fail_if_no_progress extract_lets
    | (with_reducible apply Acts.ite) <;> intro _
    | with_reducible apply Acts.refl
    | with_reducible assumption
    | with_reducible apply setSlate_trans
    | with_reducible apply rsvd_trans
    | with_reducible apply slateRegs_trans
    | with_reducible apply replyTo_trans
    | with_reducible apply serve_sc_trans
    | with_reducible apply serveStale_trans
    | with_reducible apply hostBusy_trans
    | (with_reducible apply Acts.snd; with_reducible assumption)
    | split
    | exact fun h => absurd h Bool.false_ne_true
    | dsimp -zeta only
    | dsimp +zetaDelta -zeta only
    | (exfalso; simp_all; done)
theorem emulate_sc_trans {a : EmuAcc} {s : State} {s₀ : State} (h₀ : Acts .sc false s₀ s) : Acts .sc false s₀ (State.emulate .sc a s) := h₀.trans (emulate_sc_acts ..)
theorem emulate_sc_keep {a : EmuAcc} {s : State} {s₀ : State} (h₀ : Keep false s₀ s) : Keep false s₀ (State.emulate .sc a s) := h₀.trans (emulate_sc_acts ..).keep

theorem drainEmu_acts (p : Part) (y0 : List EmuAcc) (s : State) : Keep false s (State.drainEmu p y0 s) := by
  induction y0 generalizing s with
  | nil =>
    unfold State.drainEmu
    repeat' first
    | fail_if_no_progress extract_lets
    | (with_reducible apply Keep.ite) <;> intro _
    | with_reducible apply Keep.refl
    | with_reducible assumption
    | with_reducible apply setSlate_keep
    | with_reducible apply slateRegs_keep
    | with_reducible apply serve_keep
    | split
    | exact fun h => absurd h Bool.false_ne_true
    | dsimp -zeta only
  | cons y l ih =>
    unfold State.drainEmu
    repeat' first
    | fail_if_no_progress extract_lets
    | (with_reducible apply Keep.ite) <;> intro _
    | with_reducible apply Keep.refl
    | with_reducible apply Keep.step ih
    | with_reducible assumption
    | with_reducible apply setSlate_keep
    | with_reducible apply slateRegs_keep
    | with_reducible apply serve_keep
    | split
    | exact fun h => absurd h Bool.false_ne_true
    | dsimp -zeta only
theorem drainEmu_keep {p : Part} {y0 : List EmuAcc} {s : State} {s₀ : State} (h₀ : Keep false s₀ s) : Keep false s₀ (State.drainEmu p y0 s) := h₀.trans (drainEmu_acts ..)

theorem drainEmu_sc_acts (y0 : List EmuAcc) (s : State) : Acts .sc false s (State.drainEmu .sc y0 s) := by
  induction y0 generalizing s with
  | nil =>
    unfold State.drainEmu
    repeat' first
    | fail_if_no_progress extract_lets
    | (with_reducible apply Acts.ite) <;> intro _
    | with_reducible apply Acts.refl
    | with_reducible assumption
    | with_reducible apply setSlate_trans
    | with_reducible apply slateRegs_trans
    | with_reducible apply serve_sc_trans
    | split
    | exact fun h => absurd h Bool.false_ne_true
    | dsimp -zeta only
    | (exfalso; simp_all; done)
  | cons y l ih =>
    unfold State.drainEmu
    repeat' first
    | fail_if_no_progress extract_lets
    | (with_reducible apply Acts.ite) <;> intro _
    | with_reducible apply Acts.refl
    | with_reducible apply Acts.step ih
    | with_reducible assumption
    | with_reducible apply setSlate_trans
    | with_reducible apply slateRegs_trans
    | with_reducible apply serve_sc_trans
    | split
    | exact fun h => absurd h Bool.false_ne_true
    | dsimp -zeta only
    | (exfalso; simp_all; done)
theorem drainEmu_sc_trans {y0 : List EmuAcc} {s : State} {s₀ : State} (h₀ : Acts .sc false s₀ s) : Acts .sc false s₀ (State.drainEmu .sc y0 s) := h₀.trans (drainEmu_sc_acts ..)
theorem drainEmu_sc_keep {y0 : List EmuAcc} {s : State} {s₀ : State} (h₀ : Keep false s₀ s) : Keep false s₀ (State.drainEmu .sc y0 s) := h₀.trans (drainEmu_sc_acts ..).keep

theorem releaseHeldWrites_acts (p : Part) (s : State) : Keep false s (State.releaseHeldWrites p s) := by
  unfold State.releaseHeldWrites
  repeat' first
    | fail_if_no_progress extract_lets
    | (with_reducible apply Keep.ite) <;> intro _
    | with_reducible apply Keep.refl
    | with_reducible assumption
    | with_reducible apply put_keep
    | with_reducible apply setSlate_keep
    | with_reducible apply slateRegs_keep
    | with_reducible apply serve_keep
    | ((with_reducible apply Keep.foldl_trans); intro _ _)
    | exact fun h => absurd h Bool.false_ne_true
    | dsimp -zeta only
    | dsimp +zetaDelta -zeta only
theorem releaseHeldWrites_keep {p : Part} {s : State} {s₀ : State} (h₀ : Keep false s₀ s) : Keep false s₀ (State.releaseHeldWrites p s) := h₀.trans (releaseHeldWrites_acts ..)

theorem releaseHeldWrites_sc_acts (s : State) : Acts .sc false s (State.releaseHeldWrites .sc s) := by
  unfold State.releaseHeldWrites
  repeat' first
    | fail_if_no_progress extract_lets
    | (with_reducible apply Acts.ite) <;> intro _
    | with_reducible apply Acts.refl
    | with_reducible assumption
    | with_reducible apply put_trans
    | with_reducible apply setSlate_trans
    | with_reducible apply slateRegs_trans
    | with_reducible apply serve_sc_trans
    | ((with_reducible apply Acts.foldl_trans); intro _ _)
    | exact fun h => absurd h Bool.false_ne_true
    | dsimp -zeta only
    | dsimp +zetaDelta -zeta only
    | (exfalso; simp_all; done)
theorem releaseHeldWrites_sc_trans {s : State} {s₀ : State} (h₀ : Acts .sc false s₀ s) : Acts .sc false s₀ (State.releaseHeldWrites .sc s) := h₀.trans (releaseHeldWrites_sc_acts ..)
theorem releaseHeldWrites_sc_keep {s : State} {s₀ : State} (h₀ : Keep false s₀ s) : Keep false s₀ (State.releaseHeldWrites .sc s) := h₀.trans (releaseHeldWrites_sc_acts ..).keep

theorem slateWord_acts (p : Part) (req off v : Nat) (s : State) : Keep false s (State.slateWord p req off v s) := by
  unfold State.slateWord
  repeat' first
    | fail_if_no_progress extract_lets
    | (with_reducible apply Keep.ite) <;> intro _
    | with_reducible apply Keep.refl
    | with_reducible assumption
    | with_reducible apply setSlate_keep
    | with_reducible apply rsvd_keep
    | with_reducible apply denied_keep
    | with_reducible apply applyWord_keep
    | with_reducible apply emulate_keep
    | (with_reducible apply Keep.snd; with_reducible assumption)
    | split
    | exact fun h => absurd h Bool.false_ne_true
    | dsimp -zeta only
    | dsimp +zetaDelta -zeta only
theorem slateWord_keep {p : Part} {req off v : Nat} {s : State} {s₀ : State} (h₀ : Keep false s₀ s) : Keep false s₀ (State.slateWord p req off v s) := h₀.trans (slateWord_acts ..)

theorem slateWord_sc_acts (req off v : Nat) (s : State) : Acts .sc false s (State.slateWord .sc req off v s) := by
  unfold State.slateWord
  repeat' first
    | fail_if_no_progress extract_lets
    | (with_reducible apply Acts.ite) <;> intro _
    | with_reducible apply Acts.refl
    | with_reducible assumption
    | with_reducible apply setSlate_trans
    | with_reducible apply rsvd_trans
    | with_reducible apply denied_trans
    | with_reducible apply applyWord_sc_trans
    | with_reducible apply emulate_sc_trans
    | (with_reducible apply Acts.snd; with_reducible assumption)
    | split
    | exact fun h => absurd h Bool.false_ne_true
    | dsimp -zeta only
    | dsimp +zetaDelta -zeta only
    | (exfalso; simp_all; done)
theorem slateWord_sc_trans {req off v : Nat} {s : State} {s₀ : State} (h₀ : Acts .sc false s₀ s) : Acts .sc false s₀ (State.slateWord .sc req off v s) := h₀.trans (slateWord_sc_acts ..)
theorem slateWord_sc_keep {req off v : Nat} {s : State} {s₀ : State} (h₀ : Keep false s₀ s) : Keep false s₀ (State.slateWord .sc req off v s) := h₀.trans (slateWord_sc_acts ..).keep

theorem mailWrite_acts (p : Part) (req off : Nat) (b : List Byte) (s : State) : Acts p quiet s (State.mailWrite p req off b s) := by
  unfold State.mailWrite
  repeat' first
    | fail_if_no_progress extract_lets
    | (with_reducible apply Acts.ite) <;> intro _
    | with_reducible apply Acts.refl
    | with_reducible assumption
    | with_reducible apply rsvd_trans
    | with_reducible apply setMail_trans
    | with_reducible apply denied_trans
    | split
    | dsimp -zeta only
    | dsimp +zetaDelta -zeta only
theorem mailWrite_trans {p : Part} {req off : Nat} {b : List Byte} {s : State} {s₀ : State} (h₀ : Acts p quiet s₀ s) : Acts p quiet s₀ (State.mailWrite p req off b s) := h₀.trans (mailWrite_acts ..)
theorem mailWrite_keep {p : Part} {req off : Nat} {b : List Byte} {s : State} {s₀ : State} (h₀ : Keep quiet s₀ s) : Keep quiet s₀ (State.mailWrite p req off b s) := h₀.trans (mailWrite_acts ..).keep

theorem execEmulatedWrite_acts (p : Part) (req off value : Nat) (s : State) : KeepO false s (execEmulatedWrite p req off value s) := by
  unfold execEmulatedWrite
  repeat' first
    | fail_if_no_progress extract_lets
    | (with_reducible apply KeepO.ite) <;> intro _
    | with_reducible apply KeepO.next
    | (with_reducible apply Keep.ite) <;> intro _
    | with_reducible apply Keep.refl
    | with_reducible assumption
    | with_reducible apply slateWord_keep
    | exact fun h => absurd h Bool.false_ne_true
    | dsimp -zeta only

theorem execEmulatedWrite_sc_acts (req off value : Nat) (s : State) : ActsO .sc false s (execEmulatedWrite .sc req off value s) := by
  unfold execEmulatedWrite
  repeat' first
    | fail_if_no_progress extract_lets
    | (with_reducible apply ActsO.ite) <;> intro _
    | with_reducible apply ActsO.next
    | (with_reducible apply Acts.ite) <;> intro _
    | with_reducible apply Acts.refl
    | with_reducible assumption
    | with_reducible apply slateWord_sc_trans
    | exact fun h => absurd h Bool.false_ne_true
    | dsimp -zeta only
    | (exfalso; simp_all; done)

theorem execEmulatedRead_acts (p : Part) (req off : Nat) (late : Bool) (s : State) : KeepO false s (execEmulatedRead p req off late s) := by
  unfold execEmulatedRead
  repeat' first
    | fail_if_no_progress extract_lets
    | (with_reducible apply KeepO.ite) <;> intro _
    | with_reducible apply KeepO.next
    | (with_reducible apply Keep.ite) <;> intro _
    | with_reducible apply Keep.refl
    | with_reducible assumption
    | with_reducible apply emulate_keep
    | exact fun h => absurd h Bool.false_ne_true
    | dsimp -zeta only

theorem execEmulatedRead_sc_acts (req off : Nat) (late : Bool) (s : State) : ActsO .sc false s (execEmulatedRead .sc req off late s) := by
  unfold execEmulatedRead
  repeat' first
    | fail_if_no_progress extract_lets
    | (with_reducible apply ActsO.ite) <;> intro _
    | with_reducible apply ActsO.next
    | (with_reducible apply Acts.ite) <;> intro _
    | with_reducible apply Acts.refl
    | with_reducible assumption
    | with_reducible apply emulate_sc_trans
    | exact fun h => absurd h Bool.false_ne_true
    | dsimp -zeta only
    | (exfalso; simp_all; done)

theorem execShadowTimeout_acts (p : Part) (s : State) : KeepO false s (execShadowTimeout p s) := by
  unfold execShadowTimeout
  repeat' first
    | fail_if_no_progress extract_lets
    | (with_reducible apply KeepO.ite) <;> intro _
    | with_reducible apply KeepO.next
    | (with_reducible apply Keep.ite) <;> intro _
    | with_reducible apply Keep.refl
    | with_reducible assumption
    | with_reducible apply serveStale_keep
    | with_reducible apply drainEmu_keep
    | (with_reducible apply Keep.snd; with_reducible assumption)
    | split
    | exact fun h => absurd h Bool.false_ne_true
    | dsimp -zeta only

theorem execShadowTimeout_sc_acts (s : State) : ActsO .sc false s (execShadowTimeout .sc s) := by
  unfold execShadowTimeout
  repeat' first
    | fail_if_no_progress extract_lets
    | (with_reducible apply ActsO.ite) <;> intro _
    | with_reducible apply ActsO.next
    | (with_reducible apply Acts.ite) <;> intro _
    | with_reducible apply Acts.refl
    | with_reducible assumption
    | with_reducible apply serveStale_trans
    | with_reducible apply drainEmu_sc_trans
    | (with_reducible apply Acts.snd; with_reducible assumption)
    | split
    | exact fun h => absurd h Bool.false_ne_true
    | dsimp -zeta only
    | (exfalso; simp_all; done)

theorem readReg_acts (p : Part) (req off lane bytes : Nat) (s : State) : Keep false s (State.readReg p req off lane bytes s) := by
  unfold State.readReg
  repeat' first
    | fail_if_no_progress extract_lets
    | (with_reducible apply Keep.ite) <;> intro _
    | with_reducible apply Keep.refl
    | with_reducible assumption
    | with_reducible apply readWord_keep
    | with_reducible apply replyTo_keep
    | with_reducible apply emulate_keep
    | (with_reducible apply Keep.snd; with_reducible assumption)
    | split
    | exact fun h => absurd h Bool.false_ne_true
    | dsimp -zeta only
    | dsimp +zetaDelta -zeta only
theorem readReg_keep {p : Part} {req off lane bytes : Nat} {s : State} {s₀ : State} (h₀ : Keep false s₀ s) : Keep false s₀ (State.readReg p req off lane bytes s) := h₀.trans (readReg_acts ..)

theorem readReg_sc_acts (req off lane bytes : Nat) (s : State) : Acts .sc false s (State.readReg .sc req off lane bytes s) := by
  unfold State.readReg
  repeat' first
    | fail_if_no_progress extract_lets
    | (with_reducible apply Acts.ite) <;> intro _
    | with_reducible apply Acts.refl
    | with_reducible assumption
    | with_reducible apply readWord_trans
    | with_reducible apply replyTo_trans
    | with_reducible apply emulate_sc_trans
    | (with_reducible apply Acts.snd; with_reducible assumption)
    | split
    | exact fun h => absurd h Bool.false_ne_true
    | dsimp -zeta only
    | dsimp +zetaDelta -zeta only
    | (exfalso; simp_all; done)
theorem readReg_sc_trans {req off lane bytes : Nat} {s : State} {s₀ : State} (h₀ : Acts .sc false s₀ s) : Acts .sc false s₀ (State.readReg .sc req off lane bytes s) := h₀.trans (readReg_sc_acts ..)
theorem readReg_sc_keep {req off lane bytes : Nat} {s : State} {s₀ : State} (h₀ : Keep false s₀ s) : Keep false s₀ (State.readReg .sc req off lane bytes s) := h₀.trans (readReg_sc_acts ..).keep

theorem readWide_acts (p : Part) (req off n : Nat) (s : State) : Keep false s (State.readWide p req off n s) := by
  unfold State.readWide
  repeat' first
    | fail_if_no_progress extract_lets
    | (with_reducible apply Keep.ite) <;> intro _
    | with_reducible apply Keep.refl
    | with_reducible assumption
    | with_reducible apply range_keep
    | with_reducible apply replyTo_keep
    | with_reducible apply readReg_keep
    | ((with_reducible apply Keep.foldl_trans); intro _ _)
    | exact fun h => absurd h Bool.false_ne_true
    | dsimp -zeta only
    | dsimp +zetaDelta -zeta only
theorem readWide_keep {p : Part} {req off n : Nat} {s : State} {s₀ : State} (h₀ : Keep false s₀ s) : Keep false s₀ (State.readWide p req off n s) := h₀.trans (readWide_acts ..)

theorem readWide_sc_acts (req off n : Nat) (s : State) : Acts .sc false s (State.readWide .sc req off n s) := by
  unfold State.readWide
  repeat' first
    | fail_if_no_progress extract_lets
    | (with_reducible apply Acts.ite) <;> intro _
    | with_reducible apply Acts.refl
    | with_reducible assumption
    | with_reducible apply replyTo_trans
    | with_reducible apply readReg_sc_trans
    | ((with_reducible apply Acts.foldl_trans); intro _ _)
    | exact fun h => absurd h Bool.false_ne_true
    | dsimp -zeta only
    | dsimp +zetaDelta -zeta only
    | (exfalso; simp_all; done)
theorem readWide_sc_trans {req off n : Nat} {s : State} {s₀ : State} (h₀ : Acts .sc false s₀ s) : Acts .sc false s₀ (State.readWide .sc req off n s) := h₀.trans (readWide_sc_acts ..)
theorem readWide_sc_keep {req off n : Nat} {s : State} {s₀ : State} (h₀ : Keep false s₀ s) : Keep false s₀ (State.readWide .sc req off n s) := h₀.trans (readWide_sc_acts ..).keep

theorem execCounterReadClear_acts (p : Part) (req off size : Nat) (s : State) : KeepO false s (execCounterReadClear p req off size s) := by
  cases p
  all_goals unfold execCounterReadClear
  all_goals
  repeat' first
    | fail_if_no_progress extract_lets
    | (with_reducible apply KeepO.ite) <;> intro _
    | with_reducible apply KeepO.next
    | (with_reducible apply Keep.ite) <;> intro _
    | with_reducible apply Keep.refl
    | with_reducible assumption
    | with_reducible apply snapshotRead_keep
    | with_reducible apply readReg_keep
    | with_reducible apply readWide_keep
    | split
    | exact fun h => absurd h Bool.false_ne_true
    | dsimp -zeta only
    | (exfalso; simp_all; done)

theorem execCounterReadClear_sc_acts (req off size : Nat) (s : State) : ActsO .sc false s (execCounterReadClear .sc req off size s) := by
  unfold execCounterReadClear
  repeat' first
    | fail_if_no_progress extract_lets
    | (with_reducible apply ActsO.ite) <;> intro _
    | with_reducible apply ActsO.next
    | (with_reducible apply Acts.ite) <;> intro _
    | with_reducible apply Acts.refl
    | with_reducible assumption
    | with_reducible apply snapshotRead_trans
    | with_reducible apply readReg_sc_trans
    | with_reducible apply readWide_sc_trans
    | split
    | exact fun h => absurd h Bool.false_ne_true
    | dsimp -zeta only
    | (exfalso; simp_all; done)

theorem execTokenWrite_acts (p : Part) (req value : Nat) (s : State) : KeepO false s (execTokenWrite p req value s) := by
  unfold execTokenWrite
  repeat' first
    | fail_if_no_progress extract_lets
    | (with_reducible apply KeepO.ite) <;> intro _
    | with_reducible apply KeepO.next
    | (with_reducible apply Keep.ite) <;> intro _
    | with_reducible apply Keep.refl
    | with_reducible assumption
    | with_reducible apply slateWord_keep
    | exact fun h => absurd h Bool.false_ne_true
    | dsimp -zeta only

theorem execTokenWrite_sc_acts (req value : Nat) (s : State) : ActsO .sc false s (execTokenWrite .sc req value s) := by
  unfold execTokenWrite
  repeat' first
    | fail_if_no_progress extract_lets
    | (with_reducible apply ActsO.ite) <;> intro _
    | with_reducible apply ActsO.next
    | (with_reducible apply Acts.ite) <;> intro _
    | with_reducible apply Acts.refl
    | with_reducible assumption
    | with_reducible apply slateWord_sc_trans
    | exact fun h => absurd h Bool.false_ne_true
    | dsimp -zeta only
    | (exfalso; simp_all; done)

theorem execStrobeCfgWrite_acts (req k w value : Nat) (s : State) : ActsO .sc false s (execStrobeCfgWrite req k w value s) := by
  unfold execStrobeCfgWrite
  repeat' first
    | fail_if_no_progress extract_lets
    | (with_reducible apply ActsO.ite) <;> intro _
    | with_reducible apply ActsO.next
    | (with_reducible apply Acts.ite) <;> intro _
    | with_reducible apply Acts.refl
    | with_reducible assumption
    | with_reducible apply slateWord_sc_trans
    | exact fun h => absurd h Bool.false_ne_true
    | dsimp -zeta only

theorem execStrobeEnWrite_acts (req n value : Nat) (s : State) : ActsO .sc false s (execStrobeEnWrite req n value s) := by
  unfold execStrobeEnWrite
  repeat' first
    | fail_if_no_progress extract_lets
    | (with_reducible apply ActsO.ite) <;> intro _
    | with_reducible apply ActsO.next
    | (with_reducible apply Acts.ite) <;> intro _
    | with_reducible apply Acts.refl
    | with_reducible assumption
    | with_reducible apply slateWord_sc_trans
    | exact fun h => absurd h Bool.false_ne_true
    | dsimp -zeta only

theorem execQueueBind_acts (req q ctx : Nat) (s : State) : ActsO .sc false s (execQueueBind req q ctx s) := by
  unfold execQueueBind
  repeat' first
    | fail_if_no_progress extract_lets
    | (with_reducible apply ActsO.ite) <;> intro _
    | with_reducible apply ActsO.next
    | (with_reducible apply Acts.ite) <;> intro _
    | with_reducible apply Acts.refl
    | with_reducible assumption
    | with_reducible apply slateWord_sc_trans
    | exact fun h => absurd h Bool.false_ne_true
    | dsimp -zeta only

theorem execHostArrive_acts (req epoch : Nat) (s : State) : ActsO .sc false s (execHostArrive req epoch s) := by
  unfold execHostArrive
  repeat' first
    | fail_if_no_progress extract_lets
    | (with_reducible apply ActsO.ite) <;> intro _
    | with_reducible apply ActsO.next
    | (with_reducible apply Acts.ite) <;> intro _
    | with_reducible apply Acts.refl
    | with_reducible assumption
    | with_reducible apply slateWord_sc_trans
    | exact fun h => absurd h Bool.false_ne_true
    | dsimp -zeta only

theorem execHostWaitArm_acts (req epoch : Nat) (s : State) : ActsO .sc false s (execHostWaitArm req epoch s) := by
  unfold execHostWaitArm
  repeat' first
    | fail_if_no_progress extract_lets
    | (with_reducible apply ActsO.ite) <;> intro _
    | with_reducible apply ActsO.next
    | (with_reducible apply Acts.ite) <;> intro _
    | with_reducible apply Acts.refl
    | with_reducible assumption
    | with_reducible apply slateWord_sc_trans
    | exact fun h => absurd h Bool.false_ne_true
    | dsimp -zeta only

theorem execHostFlagSet_acts (req c : Nat) (hi : Bool) (flags : Nat) (s : State) : ActsO .sc false s (execHostFlagSet req c hi flags s) := by
  unfold execHostFlagSet
  repeat' first
    | fail_if_no_progress extract_lets
    | (with_reducible apply ActsO.ite) <;> intro _
    | with_reducible apply ActsO.next
    | (with_reducible apply Acts.ite) <;> intro _
    | with_reducible apply Acts.refl
    | with_reducible assumption
    | with_reducible apply slateWord_sc_trans
    | exact fun h => absurd h Bool.false_ne_true
    | dsimp -zeta only

theorem execHostFlagWithdraw_acts (req c : Nat) (hi : Bool) (flags : Nat) (s : State) : ActsO .sc false s (execHostFlagWithdraw req c hi flags s) := by
  unfold execHostFlagWithdraw
  repeat' first
    | fail_if_no_progress extract_lets
    | (with_reducible apply ActsO.ite) <;> intro _
    | with_reducible apply ActsO.next
    | (with_reducible apply Acts.ite) <;> intro _
    | with_reducible apply Acts.refl
    | with_reducible assumption
    | with_reducible apply slateWord_sc_trans
    | exact fun h => absurd h Bool.false_ne_true
    | dsimp -zeta only

theorem execDirectCreate_acts (req : Nat) (s : State) : ActsO .sc false s (execDirectCreate req s) := by
  unfold execDirectCreate
  repeat' first
    | fail_if_no_progress extract_lets
    | (with_reducible apply ActsO.ite) <;> intro _
    | with_reducible apply ActsO.next
    | (with_reducible apply Acts.ite) <;> intro _
    | with_reducible apply Acts.refl
    | with_reducible assumption
    | with_reducible apply slateWord_sc_trans
    | exact fun h => absurd h Bool.false_ne_true
    | dsimp -zeta only

theorem execDirectFree_acts (req : Nat) (s : State) : ActsO .sc false s (execDirectFree req s) := by
  unfold execDirectFree
  repeat' first
    | fail_if_no_progress extract_lets
    | (with_reducible apply ActsO.ite) <;> intro _
    | with_reducible apply ActsO.next
    | (with_reducible apply Acts.ite) <;> intro _
    | with_reducible apply Acts.refl
    | with_reducible assumption
    | with_reducible apply slateWord_sc_trans
    | exact fun h => absurd h Bool.false_ne_true
    | dsimp -zeta only

theorem execPdBaseWrite_acts (req : Nat) (hi : Bool) (value : Nat) (s : State) : ActsO .sc false s (execPdBaseWrite req hi value s) := by
  unfold execPdBaseWrite
  repeat' first
    | fail_if_no_progress extract_lets
    | (with_reducible apply ActsO.ite) <;> intro _
    | with_reducible apply ActsO.next
    | (with_reducible apply Acts.ite) <;> intro _
    | with_reducible apply Acts.refl
    | with_reducible assumption
    | with_reducible apply slateWord_sc_trans
    | exact fun h => absurd h Bool.false_ne_true
    | dsimp -zeta only

theorem execChkExpectWrite_acts (req value : Nat) (s : State) : ActsO .sc false s (execChkExpectWrite req value s) := by
  unfold execChkExpectWrite
  repeat' first
    | fail_if_no_progress extract_lets
    | (with_reducible apply ActsO.ite) <;> intro _
    | with_reducible apply ActsO.next
    | (with_reducible apply Acts.ite) <;> intro _
    | with_reducible apply Acts.refl
    | with_reducible assumption
    | with_reducible apply slateWord_sc_trans
    | exact fun h => absurd h Bool.false_ne_true
    | dsimp -zeta only

theorem execChkValueRead_acts (req : Nat) (s : State) : ActsO .sc quiet s (execChkValueRead req s) := by
  unfold execChkValueRead
  repeat' first
    | fail_if_no_progress extract_lets
    | (with_reducible apply ActsO.ite) <;> intro _
    | with_reducible apply ActsO.next
    | (with_reducible apply Acts.ite) <;> intro _
    | with_reducible apply Acts.refl
    | with_reducible assumption
    | with_reducible apply readWord_trans
    | with_reducible apply replyTo_trans
    | dsimp -zeta only
    | dsimp +zetaDelta -zeta only

theorem execChkValueWrite_acts (req value : Nat) (s : State) : ActsO .sc false s (execChkValueWrite req value s) := by
  unfold execChkValueWrite
  repeat' first
    | fail_if_no_progress extract_lets
    | (with_reducible apply ActsO.ite) <;> intro _
    | with_reducible apply ActsO.next
    | (with_reducible apply Acts.ite) <;> intro _
    | with_reducible apply Acts.refl
    | with_reducible assumption
    | with_reducible apply slateWord_sc_trans
    | exact fun h => absurd h Bool.false_ne_true
    | dsimp -zeta only

theorem execTdcRdidxWrite_acts (req n value : Nat) (s : State) : KeepO false s (execTdcRdidxWrite req n value s) := by
  unfold execTdcRdidxWrite
  repeat' first
    | fail_if_no_progress extract_lets
    | (with_reducible apply KeepO.ite) <;> intro _
    | with_reducible apply KeepO.next
    | (with_reducible apply Keep.ite) <;> intro _
    | with_reducible apply Keep.refl
    | with_reducible assumption
    | with_reducible apply slateWord_keep
    | exact fun h => absurd h Bool.false_ne_true
    | dsimp -zeta only

theorem execAttWinSelect_acts (req seq : Nat) (s : State) : KeepO false s (execAttWinSelect req seq s) := by
  unfold execAttWinSelect
  repeat' first
    | fail_if_no_progress extract_lets
    | (with_reducible apply KeepO.ite) <;> intro _
    | with_reducible apply KeepO.next
    | (with_reducible apply Keep.ite) <;> intro _
    | with_reducible apply Keep.refl
    | with_reducible assumption
    | with_reducible apply slateWord_keep
    | exact fun h => absurd h Bool.false_ne_true
    | dsimp -zeta only

theorem execMsixVectorUnmask_acts (v : Nat) (s : State) : ActsO .fd quiet s (execMsixVectorUnmask v s) := by
  unfold execMsixVectorUnmask
  repeat' first
    | fail_if_no_progress extract_lets
    | (with_reducible apply ActsO.ite) <;> intro _
    | with_reducible apply ActsO.next
    | (with_reducible apply Acts.ite) <;> intro _
    | with_reducible apply Acts.refl
    | with_reducible assumption
    | with_reducible apply setMsix_trans
    | with_reducible apply signal_trans
    | split
    | dsimp -zeta only
    | dsimp +zetaDelta -zeta only

end Sys2Proof.Machine
end

