-- ==== Sys2Proof/Laws/ActsStart.lean ====
section
/-! SUPPORT. One lemma an operation: what it keeps (Acts, Keep). -/

namespace Sys2Proof.Machine

open Sys2Proof

set_option linter.unusedTactic false
set_option linter.unreachableTactic false
set_option linter.unusedVariables false

variable {quiet : Bool}

theorem readEeprom_acts (p : Part) (s : State) : Acts p quiet s (State.readEeprom p s) := by
  unfold State.readEeprom
  repeat' first
    | fail_if_no_progress extract_lets
    | (with_reducible apply Acts.ite) <;> intro _
    | with_reducible apply Acts.refl
    | with_reducible assumption
    | with_reducible apply putS_trans
    | with_reducible apply modLink_trans
    | with_reducible apply faultLog_trans
    | with_reducible apply faultAlert_trans
    | ((with_reducible apply Acts.foldl_trans); intro _ _)
    | (with_reducible apply Acts.snd; with_reducible assumption)
    | split
    | dsimp -zeta only
theorem readEeprom_trans {p : Part} {s : State} {s₀ : State} (h₀ : Acts p quiet s₀ s) : Acts p quiet s₀ (State.readEeprom p s) := h₀.trans (readEeprom_acts ..)
theorem readEeprom_keep {p : Part} {s : State} {s₀ : State} (h₀ : Keep quiet s₀ s) : Keep quiet s₀ (State.readEeprom p s) := h₀.trans (readEeprom_acts ..).keep

theorem startUp_acts (p : Part) (s : State) : Acts p quiet s (State.startUp p s) := by
  unfold State.startUp
  repeat' first
    | fail_if_no_progress extract_lets
    | (with_reducible apply Acts.ite) <;> intro _
    | with_reducible apply Acts.refl
    | with_reducible assumption
    | with_reducible apply setUnit_trans
    | with_reducible apply put_trans
    | with_reducible apply restage_trans
    | with_reducible apply readEeprom_trans
    | dsimp -zeta only
    | dsimp +zetaDelta -zeta only
theorem startUp_trans {p : Part} {s : State} {s₀ : State} (h₀ : Acts p quiet s₀ s) : Acts p quiet s₀ (State.startUp p s) := h₀.trans (startUp_acts ..)
theorem startUp_keep {p : Part} {s : State} {s₀ : State} (h₀ : Keep quiet s₀ s) : Keep quiet s₀ (State.startUp p s) := h₀.trans (startUp_acts ..).keep

theorem execPowerGood_acts (modules : Nat) (s : State) : ActsO .fd quiet s (execPowerGood modules s) := by
  unfold execPowerGood
  repeat' first
    | fail_if_no_progress extract_lets
    | (with_reducible apply ActsO.ite) <;> intro _
    | with_reducible apply ActsO.next
    | (with_reducible apply Acts.ite) <;> intro _
    | with_reducible apply Acts.refl
    | with_reducible assumption
    | with_reducible apply modLink_trans
    | with_reducible apply startUp_trans
    | ((with_reducible apply Acts.foldl_trans); intro _ _)
    | split
    | dsimp -zeta only

theorem execScResetRelease_acts (s : State) : ActsO .sc quiet s (execScResetRelease s) := by
  unfold execScResetRelease
  repeat' first
    | fail_if_no_progress extract_lets
    | (with_reducible apply ActsO.ite) <;> intro _
    | with_reducible apply ActsO.next
    | (with_reducible apply Acts.ite) <;> intro _
    | with_reducible apply Acts.refl
    | with_reducible assumption
    | with_reducible apply setDie_trans
    | with_reducible apply startUp_trans
    | dsimp -zeta only

theorem startFirmware_acts (p : Part) (i : Img) (s : State) : Acts p quiet s (State.startFirmware p i s) := by
  unfold State.startFirmware
  repeat' first
    | fail_if_no_progress extract_lets
    | (with_reducible apply Acts.ite) <;> intro _
    | with_reducible apply Acts.refl
    | with_reducible assumption
    | with_reducible apply put_trans
    | with_reducible apply setFw_trans
    | with_reducible apply restage_trans
    | with_reducible apply fwRegs_trans
    | ((with_reducible apply Acts.foldl_trans); intro _ _)
    | dsimp -zeta only
    | dsimp +zetaDelta -zeta only
theorem startFirmware_trans {p : Part} {i : Img} {s : State} {s₀ : State} (h₀ : Acts p quiet s₀ s) : Acts p quiet s₀ (State.startFirmware p i s) := h₀.trans (startFirmware_acts ..)
theorem startFirmware_keep {p : Part} {i : Img} {s : State} {s₀ : State} (h₀ : Keep quiet s₀ s) : Keep quiet s₀ (State.startFirmware p i s) := h₀.trans (startFirmware_acts ..).keep

theorem restoreTable_acts (s : State) : Acts .fd quiet s (State.restoreTable s) := by
  unfold State.restoreTable
  repeat' first
    | fail_if_no_progress extract_lets
    | (with_reducible apply Acts.ite) <;> intro _
    | with_reducible apply Acts.refl
    | with_reducible assumption
    | with_reducible apply put_trans
    | with_reducible apply setPipe_trans
    | ((with_reducible apply Acts.foldl_trans); intro _ _)
    | split
    | dsimp -zeta only
    | dsimp +zetaDelta -zeta only
theorem restoreTable_trans {s : State} {s₀ : State} (h₀ : Acts .fd quiet s₀ s) : Acts .fd quiet s₀ (State.restoreTable s) := h₀.trans (restoreTable_acts ..)
theorem restoreTable_keep {s : State} {s₀ : State} (h₀ : Keep quiet s₀ s) : Keep quiet s₀ (State.restoreTable s) := h₀.trans (restoreTable_acts ..).keep

theorem readArchive_acts (s : State) : Acts .fd quiet s (State.readArchive s) := by
  unfold State.readArchive
  repeat' first
    | fail_if_no_progress extract_lets
    | (with_reducible apply Acts.ite) <;> intro _
    | with_reducible apply Acts.refl
    | with_reducible assumption
    | with_reducible apply setArch_trans
    | (with_reducible apply Acts.snd; with_reducible assumption)
    | split
    | dsimp -zeta only
theorem readArchive_trans {s : State} {s₀ : State} (h₀ : Acts .fd quiet s₀ s) : Acts .fd quiet s₀ (State.readArchive s) := h₀.trans (readArchive_acts ..)
theorem readArchive_keep {s : State} {s₀ : State} (h₀ : Keep quiet s₀ s) : Keep quiet s₀ (State.readArchive s) := h₀.trans (readArchive_acts ..).keep

theorem lateVotes_acts (p : Part) (s : State) : Acts p false s (State.lateVotes p s) := by
  unfold State.lateVotes
  repeat' first
    | fail_if_no_progress extract_lets
    | (with_reducible apply Acts.ite) <;> intro _
    | with_reducible apply Acts.refl
    | with_reducible assumption
    | with_reducible apply ownVote_trans
    | ((with_reducible apply Acts.foldl_trans); intro _ _)
    | (with_reducible apply Acts.snd; with_reducible assumption)
    | split
    | exact fun h => absurd h Bool.false_ne_true
    | dsimp -zeta only
theorem lateVotes_trans {p : Part} {s : State} {s₀ : State} (h₀ : Acts p false s₀ s) : Acts p false s₀ (State.lateVotes p s) := h₀.trans (lateVotes_acts ..)
theorem lateVotes_keep {p : Part} {s : State} {s₀ : State} (h₀ : Keep false s₀ s) : Keep false s₀ (State.lateVotes p s) := h₀.trans (lateVotes_acts ..).keep

theorem execStageAdvance_acts (p : Part) (cond : StageCond) (s : State) : ActsO p false s (execStageAdvance p cond s) := by
  cases p
  all_goals unfold execStageAdvance
  all_goals
  repeat' first
    | fail_if_no_progress extract_lets
    | (with_reducible apply ActsO.ite) <;> intro _
    | with_reducible apply ActsO.next
    | (with_reducible apply Acts.ite) <;> intro _
    | with_reducible apply Acts.refl
    | with_reducible assumption
    | with_reducible apply put_trans
    | with_reducible apply setStart_trans
    | with_reducible apply setArch_trans
    | with_reducible apply restage_trans
    | with_reducible apply pipeStates_trans
    | with_reducible apply refresh_trans
    | with_reducible apply startFirmware_trans
    | with_reducible apply restoreTable_trans
    | with_reducible apply readArchive_trans
    | with_reducible apply lateVotes_trans
    | (with_reducible apply Acts.snd; with_reducible assumption)
    | split
    | exact fun h => absurd h Bool.false_ne_true
    | dsimp -zeta only
    | dsimp +zetaDelta -zeta only
    | (exfalso; simp_all; done)

theorem takeField_acts (p : Part) (k v : Nat) (s : State) : Acts p quiet s (State.takeField p k v s) := by
  unfold State.takeField
  repeat' first
    | fail_if_no_progress extract_lets
    | (with_reducible apply Acts.ite) <;> intro _
    | with_reducible apply Acts.refl
    | with_reducible assumption
    | with_reducible apply put_trans
    | with_reducible apply rsvd_trans
    | (with_reducible apply Acts.snd; with_reducible assumption)
    | split
    | dsimp -zeta only
theorem takeField_trans {p : Part} {k v : Nat} {s : State} {s₀ : State} (h₀ : Acts p quiet s₀ s) : Acts p quiet s₀ (State.takeField p k v s) := h₀.trans (takeField_acts ..)
theorem takeField_keep {p : Part} {k v : Nat} {s : State} {s₀ : State} (h₀ : Keep quiet s₀ s) : Keep quiet s₀ (State.takeField p k v s) := h₀.trans (takeField_acts ..).keep

theorem portsConfigured_acts (p : Part) (s before : State) : Acts p quiet s (State.portsConfigured p s before) := by
  unfold State.portsConfigured
  repeat' first
    | fail_if_no_progress extract_lets
    | (with_reducible apply Acts.ite) <;> intro _
    | with_reducible apply Acts.refl
    | with_reducible assumption
    | with_reducible apply linkDown_trans
    | with_reducible apply channelCheck_trans
    | ((with_reducible apply Acts.foldl_trans); intro _ _)
    | split
    | dsimp -zeta only
    | dsimp +zetaDelta -zeta only
theorem portsConfigured_trans {p : Part} {s before : State} {s₀ : State} (h₀ : Acts p quiet s₀ s) : Acts p quiet s₀ (State.portsConfigured p s before) := h₀.trans (portsConfigured_acts ..)
theorem portsConfigured_keep {p : Part} {s before : State} {s₀ : State} (h₀ : Keep quiet s₀ s) : Keep quiet s₀ (State.portsConfigured p s before) := h₀.trans (portsConfigured_acts ..).keep

theorem execConfigTakesEffect_acts (p : Part) (s : State) : KeepO false s (execConfigTakesEffect p s) := by
  unfold execConfigTakesEffect
  repeat' first
    | fail_if_no_progress extract_lets
    | (with_reducible apply KeepO.ite) <;> intro _
    | with_reducible apply KeepO.next
    | (with_reducible apply Keep.ite) <;> intro _
    | with_reducible apply Keep.refl
    | with_reducible assumption
    | with_reducible apply put_keep
    | with_reducible apply setFw_keep
    | with_reducible apply setRole_keep
    | with_reducible apply awaitBeat_keep
    | with_reducible apply setStn_keep
    | with_reducible apply range_keep
    | with_reducible apply outCtrlWritten_keep
    | with_reducible apply refCtrlWritten_keep
    | with_reducible apply ptpWritten_keep
    | with_reducible apply takeField_keep
    | with_reducible apply portsConfigured_keep
    | ((with_reducible apply Keep.foldl_trans); intro _ _)
    | (with_reducible apply Keep.snd; with_reducible assumption)
    | split
    | exact fun h => absurd h Bool.false_ne_true
    | dsimp -zeta only
    | dsimp +zetaDelta -zeta only

theorem supplyLevels_acts (p : Part) (mon vinMv : Nat) (s : State) : Acts p quiet s (State.supplyLevels p mon vinMv s) := by
  unfold State.supplyLevels
  repeat' first
    | fail_if_no_progress extract_lets
    | (with_reducible apply Acts.ite) <;> intro _
    | with_reducible apply Acts.refl
    | with_reducible assumption
    | with_reducible apply put_trans
    | with_reducible apply putFlag_trans
    | with_reducible apply setStart_trans
    | (with_reducible apply Acts.snd; with_reducible assumption)
    | split
    | dsimp -zeta only
    | dsimp +zetaDelta -zeta only
theorem supplyLevels_trans {p : Part} {mon vinMv : Nat} {s : State} {s₀ : State} (h₀ : Acts p quiet s₀ s) : Acts p quiet s₀ (State.supplyLevels p mon vinMv s) := h₀.trans (supplyLevels_acts ..)
theorem supplyLevels_keep {p : Part} {mon vinMv : Nat} {s : State} {s₀ : State} (h₀ : Keep quiet s₀ s) : Keep quiet s₀ (State.supplyLevels p mon vinMv s) := h₀.trans (supplyLevels_acts ..).keep

theorem execSupplyWarning_acts (p : Part) (mon vinMv : Nat) (s : State) : ActsO p quiet s (execSupplyWarning p mon vinMv s) := by
  unfold execSupplyWarning
  repeat' first
    | fail_if_no_progress extract_lets
    | (with_reducible apply ActsO.ite) <;> intro _
    | with_reducible apply ActsO.next
    | (with_reducible apply Acts.ite) <;> intro _
    | with_reducible apply Acts.refl
    | with_reducible assumption
    | with_reducible apply put_trans
    | with_reducible apply bump_trans
    | with_reducible apply setStart_trans
    | with_reducible apply record_trans
    | with_reducible apply refresh_trans
    | with_reducible apply supplyLevels_trans
    | split
    | dsimp -zeta only
    | dsimp +zetaDelta -zeta only

theorem flushStores_acts (p : Part) (s : State) : Acts p quiet s (State.flushStores p s) := by
  unfold State.flushStores
  repeat' first
    | fail_if_no_progress extract_lets
    | (with_reducible apply Acts.ite) <;> intro _
    | with_reducible apply Acts.refl
    | with_reducible assumption
    | with_reducible apply setUnit_trans
    | split
    | dsimp -zeta only
theorem flushStores_trans {p : Part} {s : State} {s₀ : State} (h₀ : Acts p quiet s₀ s) : Acts p quiet s₀ (State.flushStores p s) := h₀.trans (flushStores_acts ..)
theorem flushStores_keep {p : Part} {s : State} {s₀ : State} (h₀ : Keep quiet s₀ s) : Keep quiet s₀ (State.flushStores p s) := h₀.trans (flushStores_acts ..).keep

theorem execGuardExit_acts (p : Part) (vinMv : Nat) (s : State) : KeepO false s (execGuardExit p vinMv s) := by
  unfold execGuardExit
  repeat' first
    | fail_if_no_progress extract_lets
    | (with_reducible apply KeepO.ite) <;> intro _
    | with_reducible apply KeepO.next
    | (with_reducible apply Keep.ite) <;> intro _
    | with_reducible apply Keep.refl
    | with_reducible assumption
    | with_reducible apply put_keep
    | with_reducible apply setStart_keep
    | with_reducible apply record_keep
    | with_reducible apply awaitNow_keep
    | with_reducible apply attDmaResume_keep
    | with_reducible apply refresh_keep
    | with_reducible apply supplyLevels_keep
    | with_reducible apply flushStores_keep
    | split
    | exact fun h => absurd h Bool.false_ne_true
    | dsimp -zeta only
    | dsimp +zetaDelta -zeta only

theorem resetFd_acts (cause : Nat) (kept : Bool) (s : State) : Acts .fd quiet s (State.resetFd cause kept s) :=
  ⟨⟨rfl, id, id, fun _ => ⟨rfl, rfl⟩⟩, fun _ => ⟨rfl, rfl, rfl⟩, nofun⟩
theorem resetFd_trans {cause : Nat} {kept : Bool} {s s₀ : State} (h₀ : Acts .fd quiet s₀ s) : Acts .fd quiet s₀ (State.resetFd cause kept s) := h₀.trans (resetFd_acts ..)
theorem resetFd_keep {cause : Nat} {kept : Bool} {s s₀ : State} (h₀ : Keep quiet s₀ s) : Keep quiet s₀ (State.resetFd cause kept s) := h₀.trans (resetFd_acts ..).keep

theorem execResetNAssert_acts (dimmsKept : Bool) (s : State) : KeepO quiet s (execResetNAssert dimmsKept s) := by
  unfold execResetNAssert
  repeat' first
    | fail_if_no_progress extract_lets
    | (with_reducible apply KeepO.ite) <;> intro _
    | with_reducible apply KeepO.next
    | (with_reducible apply Keep.ite) <;> intro _
    | with_reducible apply Keep.refl
    | with_reducible assumption
    | with_reducible apply awaitNow_keep
    | with_reducible apply resetFd_keep
    | dsimp -zeta only

theorem execSupplyResetCrossing_acts (dimmsKept : Bool) (s : State) : ActsO .fd quiet s (execSupplyResetCrossing dimmsKept s) := by
  unfold execSupplyResetCrossing
  repeat' first
    | fail_if_no_progress extract_lets
    | (with_reducible apply ActsO.ite) <;> intro _
    | with_reducible apply ActsO.next
    | (with_reducible apply Acts.ite) <;> intro _
    | with_reducible apply Acts.refl
    | with_reducible assumption
    | with_reducible apply refresh_trans
    | with_reducible apply resetFd_trans
    | dsimp -zeta only

theorem execScResetAssert_acts (s : State) : ActsO .sc quiet s (execScResetAssert s) := by
  exact ⟨⟨rfl, id, id, fun _ => ⟨rfl, rfl⟩⟩, nofun, fun _ => ⟨rfl, rfl, rfl, rfl⟩⟩

theorem execPerstNAssert_acts (s : State) : ActsO .fd quiet s (execPerstNAssert s) := by
  unfold execPerstNAssert
  repeat' first
    | fail_if_no_progress extract_lets
    | (with_reducible apply ActsO.ite) <;> intro _
    | with_reducible apply ActsO.next
    | (with_reducible apply Acts.ite) <;> intro _
    | with_reducible apply Acts.refl
    | with_reducible assumption
    | with_reducible apply setMsix_trans
    | with_reducible apply setSlate_trans
    | dsimp -zeta only

theorem execTrstNAssert_acts (x_p : Part) (s : State) : ActsO _p quiet s (execTrstNAssert x_p s) := by
  unfold execTrstNAssert
  repeat' first
    | fail_if_no_progress extract_lets
    | (with_reducible apply ActsO.ite) <;> intro _
    | with_reducible apply ActsO.next
    | (with_reducible apply Acts.ite) <;> intro _
    | with_reducible apply Acts.refl
    | with_reducible assumption
    | dsimp -zeta only

end Sys2Proof.Machine
end

