-- ==== Sys2Proof/Laws/ActsFirmware.lean ====
section
/-! SUPPORT. One lemma an operation: what it keeps (Acts, Keep). -/

namespace Sys2Proof.Machine

open Sys2Proof

set_option linter.unusedTactic false
set_option linter.unreachableTactic false
set_option linter.unusedVariables false

variable {quiet : Bool}

theorem loadFails_acts (p : Part) (e : Nat) (s : State) : Acts p quiet s (State.loadFails p e s) := by
  unfold State.loadFails
  repeat' first
    | fail_if_no_progress extract_lets
    | (with_reducible apply Acts.ite) <;> intro _
    | with_reducible apply Acts.refl
    | with_reducible assumption
    | with_reducible apply put_trans
    | dsimp -zeta only
theorem loadFails_trans {p : Part} {e : Nat} {s : State} {s₀ : State} (h₀ : Acts p quiet s₀ s) : Acts p quiet s₀ (State.loadFails p e s) := h₀.trans (loadFails_acts ..)
theorem loadFails_keep {p : Part} {e : Nat} {s : State} {s₀ : State} (h₀ : Keep quiet s₀ s) : Keep quiet s₀ (State.loadFails p e s) := h₀.trans (loadFails_acts ..).keep

theorem loadGo_acts (p : Part) (kind req : Nat) (s : State) : Acts p quiet s (State.loadGo p kind req s) := by
  unfold State.loadGo
  repeat' first
    | fail_if_no_progress extract_lets
    | (with_reducible apply Acts.ite) <;> intro _
    | with_reducible apply Acts.refl
    | with_reducible assumption
    | with_reducible apply put_trans
    | with_reducible apply setFw_trans
    | with_reducible apply rsvd_trans
    | with_reducible apply denied_trans
    | with_reducible apply loadFails_trans
    | split
    | dsimp -zeta only
    | dsimp +zetaDelta -zeta only
theorem loadGo_trans {p : Part} {kind req : Nat} {s : State} {s₀ : State} (h₀ : Acts p quiet s₀ s) : Acts p quiet s₀ (State.loadGo p kind req s) := h₀.trans (loadGo_acts ..)
theorem loadGo_keep {p : Part} {kind req : Nat} {s : State} {s₀ : State} (h₀ : Keep quiet s₀ s) : Keep quiet s₀ (State.loadGo p kind req s) := h₀.trans (loadGo_acts ..).keep

theorem execLoadConfig_acts (p : Part) (req : Nat) (s : State) : ActsO p quiet s (execLoadConfig p req s) := by
  unfold execLoadConfig
  repeat' first
    | fail_if_no_progress extract_lets
    | (with_reducible apply ActsO.ite) <;> intro _
    | with_reducible apply ActsO.next
    | (with_reducible apply Acts.ite) <;> intro _
    | with_reducible apply Acts.refl
    | with_reducible assumption
    | with_reducible apply loadGo_trans
    | dsimp -zeta only

theorem execLoadFirmware_acts (p : Part) (req : Nat) (s : State) : ActsO p quiet s (execLoadFirmware p req s) := by
  unfold execLoadFirmware
  repeat' first
    | fail_if_no_progress extract_lets
    | (with_reducible apply ActsO.ite) <;> intro _
    | with_reducible apply ActsO.next
    | (with_reducible apply Acts.ite) <;> intro _
    | with_reducible apply Acts.refl
    | with_reducible assumption
    | with_reducible apply loadGo_trans
    | dsimp -zeta only

theorem execLoadComplete_acts (p : Part) (fetchOk : Bool) (s : State) : ActsO p false s (execLoadComplete p fetchOk s) := by
  unfold execLoadComplete
  repeat' first
    | fail_if_no_progress extract_lets
    | (with_reducible apply ActsO.ite) <;> intro _
    | with_reducible apply ActsO.next
    | (with_reducible apply Acts.ite) <;> intro _
    | with_reducible apply Acts.refl
    | with_reducible assumption
    | with_reducible apply put_trans
    | with_reducible apply setFw_trans
    | with_reducible apply startFirmware_trans
    | with_reducible apply lateVotes_trans
    | with_reducible apply loadFails_trans
    | (with_reducible apply Acts.snd; with_reducible assumption)
    | split
    | exact fun h => absurd h Bool.false_ne_true
    | dsimp -zeta only
    | dsimp +zetaDelta -zeta only

theorem execFwStage_acts (m : MbGo) (s : State) (hd : quiet = true → m.dma = false := by first | assumption | nofun) : ActsO m.part quiet s (execFwStage m s) := by
  unfold execFwStage
  repeat' first
    | fail_if_no_progress extract_lets
    | ((with_reducible apply mailbox_fd); intro _ _)
    | ((with_reducible apply mailbox_sc); intro _ _)
    | ((with_reducible apply mailbox_own2880); intro _ _)
    | ((with_reducible apply mailbox_any); intro _ _)
    | (with_reducible apply Acts.iteS) <;> intro _
    | (with_reducible apply Acts.iteS2) <;> intro _
    | (with_reducible apply ActsO.ite) <;> intro _
    | with_reducible apply ActsO.next
    | (with_reducible apply Acts.ite) <;> intro _
    | with_reducible apply Acts.refl
    | with_reducible assumption
    | dsimp -zeta only
    | with_reducible apply setFw_trans
    | with_reducible apply fwRegs_trans
    | split
    | dsimp -zeta only
    | dsimp +zetaDelta -zeta only

theorem execFwUnstage_acts (m : MbGo) (s : State) (hd : quiet = true → m.dma = false := by first | assumption | nofun) : ActsO m.part quiet s (execFwUnstage m s) := by
  unfold execFwUnstage
  repeat' first
    | fail_if_no_progress extract_lets
    | ((with_reducible apply mailbox_fd); intro _ _)
    | ((with_reducible apply mailbox_sc); intro _ _)
    | ((with_reducible apply mailbox_own2880); intro _ _)
    | ((with_reducible apply mailbox_any); intro _ _)
    | (with_reducible apply Acts.iteS) <;> intro _
    | (with_reducible apply Acts.iteS2) <;> intro _
    | (with_reducible apply ActsO.ite) <;> intro _
    | with_reducible apply ActsO.next
    | (with_reducible apply Acts.ite) <;> intro _
    | with_reducible apply Acts.refl
    | with_reducible assumption
    | dsimp -zeta only
    | with_reducible apply setFw_trans
    | with_reducible apply fwRegs_trans
    | split
    | dsimp -zeta only
    | dsimp +zetaDelta -zeta only

theorem execFwActivate_acts (m : MbGo) (s : State) (hd : quiet = true → m.dma = false := by first | assumption | nofun) : ActsO m.part quiet s (execFwActivate m s) := by
  unfold execFwActivate
  repeat' first
    | fail_if_no_progress extract_lets
    | ((with_reducible apply mailbox_fd); intro _ _)
    | ((with_reducible apply mailbox_sc); intro _ _)
    | ((with_reducible apply mailbox_own2880); intro _ _)
    | ((with_reducible apply mailbox_any); intro _ _)
    | (with_reducible apply Acts.iteS) <;> intro _
    | (with_reducible apply Acts.iteS2) <;> intro _
    | (with_reducible apply ActsO.ite) <;> intro _
    | with_reducible apply ActsO.next
    | (with_reducible apply Acts.ite) <;> intro _
    | with_reducible apply Acts.refl
    | with_reducible assumption
    | dsimp -zeta only
    | with_reducible apply fwRegs_trans
    | with_reducible apply startActivation_trans
    | split
    | dsimp -zeta only
    | dsimp +zetaDelta -zeta only

theorem abortWaiting_acts (p : Part) (s : State) : Acts p false s (State.abortWaiting p s) := by
  cases p
  all_goals unfold State.abortWaiting
  all_goals
  repeat' first
    | fail_if_no_progress extract_lets
    | (with_reducible apply Acts.ite) <;> intro _
    | with_reducible apply Acts.refl
    | with_reducible assumption
    | with_reducible apply setHall_trans
    | with_reducible apply mbComplete_trans
    | ((with_reducible apply Acts.foldl_trans); intro _ _)
    | split
    | exact fun h => absurd h Bool.false_ne_true
    | dsimp -zeta only
    | dsimp +zetaDelta -zeta only
    | (exfalso; simp_all; done)
theorem abortWaiting_trans {p : Part} {s : State} {s₀ : State} (h₀ : Acts p false s₀ s) : Acts p false s₀ (State.abortWaiting p s) := h₀.trans (abortWaiting_acts ..)
theorem abortWaiting_keep {p : Part} {s : State} {s₀ : State} (h₀ : Keep false s₀ s) : Keep false s₀ (State.abortWaiting p s) := h₀.trans (abortWaiting_acts ..).keep

theorem revokeAll_acts (p : Part) (s : State) : Acts p quiet s (State.revokeAll p s) := by
  unfold State.revokeAll
  repeat' first
    | fail_if_no_progress extract_lets
    | (with_reducible apply Acts.ite) <;> intro _
    | with_reducible apply Acts.refl
    | with_reducible assumption
    | with_reducible apply combineNo_trans
    | ((with_reducible apply Acts.foldl_trans); intro _ _)
    | (with_reducible apply Acts.snd; with_reducible assumption)
    | split
    | dsimp -zeta only
theorem revokeAll_trans {p : Part} {s : State} {s₀ : State} (h₀ : Acts p quiet s₀ s) : Acts p quiet s₀ (State.revokeAll p s) := h₀.trans (revokeAll_acts ..)
theorem revokeAll_keep {p : Part} {s : State} {s₀ : State} (h₀ : Keep quiet s₀ s) : Keep quiet s₀ (State.revokeAll p s) := h₀.trans (revokeAll_acts ..).keep

theorem coldEffect_acts (p : Part) (sec : Nat) (s : State) : Acts p false s (State.coldEffect p sec s) := by
  cases p
  all_goals unfold State.coldEffect
  all_goals
  repeat' first
    | fail_if_no_progress extract_lets
    | (with_reducible apply Acts.ite) <;> intro _
    | with_reducible apply Acts.refl
    | with_reducible assumption
    | with_reducible apply setUnit_trans
    | with_reducible apply setDist_trans
    | with_reducible apply put_trans
    | with_reducible apply setSlate_trans
    | with_reducible apply setArch_trans
    | with_reducible apply setSpare_trans
    | with_reducible apply acceptFlag_trans
    | with_reducible apply setPower_trans
    | with_reducible apply discardRuns_trans
    | with_reducible apply loadTimer_trans
    | with_reducible apply abortWaiting_trans
    | with_reducible apply revokeAll_trans
    | (with_reducible apply Acts.snd; with_reducible assumption)
    | split
    | exact fun h => absurd h Bool.false_ne_true
    | dsimp -zeta only
    | dsimp +zetaDelta -zeta only
    | (exfalso; simp_all; done)
theorem coldEffect_trans {p : Part} {sec : Nat} {s : State} {s₀ : State} (h₀ : Acts p false s₀ s) : Acts p false s₀ (State.coldEffect p sec s) := h₀.trans (coldEffect_acts ..)
theorem coldEffect_keep {p : Part} {sec : Nat} {s : State} {s₀ : State} (h₀ : Keep false s₀ s) : Keep false s₀ (State.coldEffect p sec s) := h₀.trans (coldEffect_acts ..).keep

theorem coldStart_acts (p : Part) (i sec : Nat) (s : State) : Acts p false s (State.coldStart p i sec s) := by
  unfold State.coldStart
  repeat' first
    | fail_if_no_progress extract_lets
    | (with_reducible apply Acts.ite) <;> intro _
    | with_reducible apply Acts.refl
    | with_reducible assumption
    | with_reducible apply put_trans
    | with_reducible apply faultAlert_trans
    | with_reducible apply fwEvent_trans
    | with_reducible apply coldEffect_trans
    | exact fun h => absurd h Bool.false_ne_true
    | dsimp -zeta only
theorem coldStart_trans {p : Part} {i sec : Nat} {s : State} {s₀ : State} (h₀ : Acts p false s₀ s) : Acts p false s₀ (State.coldStart p i sec s) := h₀.trans (coldStart_acts ..)
theorem coldStart_keep {p : Part} {i sec : Nat} {s : State} {s₀ : State} (h₀ : Keep false s₀ s) : Keep false s₀ (State.coldStart p i sec s) := h₀.trans (coldStart_acts ..).keep

theorem coldStarts_acts (p : Part) (i : Nat) (secs : List Nat) (s : State) : Acts p false s (State.coldStarts p i secs s) := by
  unfold State.coldStarts
  repeat' first
    | fail_if_no_progress extract_lets
    | (with_reducible apply Acts.ite) <;> intro _
    | with_reducible apply Acts.refl
    | with_reducible assumption
    | with_reducible apply setPref_trans
    | with_reducible apply coldStart_trans
    | ((with_reducible apply Acts.foldl_trans); intro _ _)
    | exact fun h => absurd h Bool.false_ne_true
    | dsimp -zeta only
theorem coldStarts_trans {p : Part} {i : Nat} {secs : List Nat} {s : State} {s₀ : State} (h₀ : Acts p false s₀ s) : Acts p false s₀ (State.coldStarts p i secs s) := h₀.trans (coldStarts_acts ..)
theorem coldStarts_keep {p : Part} {i : Nat} {secs : List Nat} {s : State} {s₀ : State} (h₀ : Keep false s₀ s) : Keep false s₀ (State.coldStarts p i secs s) := h₀.trans (coldStarts_acts ..).keep

theorem prefectsRun_acts (p : Part) (s : State) : Acts p quiet s (State.prefectsRun p s) := by
  unfold State.prefectsRun
  repeat' first
    | fail_if_no_progress extract_lets
    | (with_reducible apply Acts.ite) <;> intro _
    | with_reducible apply Acts.refl
    | with_reducible assumption
    | with_reducible apply put_trans
    | ((with_reducible apply Acts.foldl_trans); intro _ _)
    | split
    | dsimp -zeta only
theorem prefectsRun_trans {p : Part} {s : State} {s₀ : State} (h₀ : Acts p quiet s₀ s) : Acts p quiet s₀ (State.prefectsRun p s) := h₀.trans (prefectsRun_acts ..)
theorem prefectsRun_keep {p : Part} {s : State} {s₀ : State} (h₀ : Keep quiet s₀ s) : Keep quiet s₀ (State.prefectsRun p s) := h₀.trans (prefectsRun_acts ..).keep

theorem abortedBy_acts (role : Nat) (s : State) : Acts .fd false s (State.abortedBy role s) := by
  unfold State.abortedBy
  repeat' first
    | fail_if_no_progress extract_lets
    | (with_reducible apply Acts.ite) <;> intro _
    | with_reducible apply Acts.refl
    | with_reducible assumption
    | with_reducible apply mbCompleteAll_trans
    | ((with_reducible apply Acts.foldl_trans); intro _ _)
    | split
    | exact fun h => absurd h Bool.false_ne_true
    | dsimp -zeta only
    | dsimp +zetaDelta -zeta only
theorem abortedBy_trans {role : Nat} {s : State} {s₀ : State} (h₀ : Acts .fd false s₀ s) : Acts .fd false s₀ (State.abortedBy role s) := h₀.trans (abortedBy_acts ..)
theorem abortedBy_keep {role : Nat} {s : State} {s₀ : State} (h₀ : Keep false s₀ s) : Keep false s₀ (State.abortedBy role s) := h₀.trans (abortedBy_acts ..).keep

theorem afterActivation_acts (p : Part) (s : State) : Keep false s (State.afterActivation p s) := by
  unfold State.afterActivation
  repeat' first
    | fail_if_no_progress extract_lets
    | (with_reducible apply Keep.ite) <;> intro _
    | with_reducible apply Keep.refl
    | with_reducible assumption
    | with_reducible apply mbCompleteAll_keep
    | with_reducible apply releaseHeldWrites_keep
    | with_reducible apply flushStores_keep
    | with_reducible apply abortedBy_keep
    | split
    | exact fun h => absurd h Bool.false_ne_true
    | dsimp -zeta only
    | dsimp +zetaDelta -zeta only
theorem afterActivation_keep {p : Part} {s : State} {s₀ : State} (h₀ : Keep false s₀ s) : Keep false s₀ (State.afterActivation p s) := h₀.trans (afterActivation_acts ..)

theorem afterActivation_sc_acts (s : State) : Acts .sc false s (State.afterActivation .sc s) := by
  unfold State.afterActivation
  repeat' first
    | fail_if_no_progress extract_lets
    | (with_reducible apply Acts.ite) <;> intro _
    | with_reducible apply Acts.refl
    | with_reducible assumption
    | with_reducible apply mbCompleteAll_trans
    | with_reducible apply releaseHeldWrites_sc_trans
    | with_reducible apply flushStores_trans
    | with_reducible apply abortedBy_trans
    | split
    | exact fun h => absurd h Bool.false_ne_true
    | dsimp -zeta only
    | dsimp +zetaDelta -zeta only
    | (exfalso; simp_all; done)
theorem afterActivation_sc_trans {s : State} {s₀ : State} (h₀ : Acts .sc false s₀ s) : Acts .sc false s₀ (State.afterActivation .sc s) := h₀.trans (afterActivation_sc_acts ..)
theorem afterActivation_sc_keep {s : State} {s₀ : State} (h₀ : Keep false s₀ s) : Keep false s₀ (State.afterActivation .sc s) := h₀.trans (afterActivation_sc_acts ..).keep

theorem execActivationComplete_acts (p : Part) (bad : List Nat) (s : State) : KeepO false s (execActivationComplete p bad s) := by
  unfold execActivationComplete
  repeat' first
    | fail_if_no_progress extract_lets
    | (with_reducible apply KeepO.ite) <;> intro _
    | with_reducible apply KeepO.next
    | (with_reducible apply Keep.ite) <;> intro _
    | with_reducible apply Keep.refl
    | with_reducible assumption
    | with_reducible apply put_keep
    | with_reducible apply setFw_keep
    | with_reducible apply restage_keep
    | with_reducible apply mbCompleteAll_keep
    | with_reducible apply fwRegs_keep
    | with_reducible apply coldStart_keep
    | with_reducible apply prefectsRun_keep
    | with_reducible apply afterActivation_keep
    | ((with_reducible apply Keep.foldl_trans); intro _ _)
    | (with_reducible apply Keep.snd; with_reducible assumption)
    | split
    | exact fun h => absurd h Bool.false_ne_true
    | dsimp -zeta only
    | dsimp +zetaDelta -zeta only

theorem execActivationComplete_sc_acts (bad : List Nat) (s : State) : ActsO .sc false s (execActivationComplete .sc bad s) := by
  unfold execActivationComplete
  repeat' first
    | fail_if_no_progress extract_lets
    | (with_reducible apply ActsO.ite) <;> intro _
    | with_reducible apply ActsO.next
    | (with_reducible apply Acts.ite) <;> intro _
    | with_reducible apply Acts.refl
    | with_reducible assumption
    | with_reducible apply put_trans
    | with_reducible apply setFw_trans
    | with_reducible apply restage_trans
    | with_reducible apply mbCompleteAll_trans
    | with_reducible apply fwRegs_trans
    | with_reducible apply coldStart_trans
    | with_reducible apply prefectsRun_trans
    | with_reducible apply afterActivation_sc_trans
    | ((with_reducible apply Acts.foldl_trans); intro _ _)
    | (with_reducible apply Acts.snd; with_reducible assumption)
    | split
    | exact fun h => absurd h Bool.false_ne_true
    | dsimp -zeta only
    | dsimp +zetaDelta -zeta only
    | (exfalso; simp_all; done)

theorem execDeferredActivation_acts (p : Part) (s : State) : KeepO quiet s (execDeferredActivation p s) := by
  unfold execDeferredActivation
  repeat' first
    | fail_if_no_progress extract_lets
    | (with_reducible apply KeepO.ite) <;> intro _
    | with_reducible apply KeepO.next
    | (with_reducible apply Keep.ite) <;> intro _
    | with_reducible apply Keep.refl
    | with_reducible assumption
    | with_reducible apply setFw_keep
    | with_reducible apply awaitNow_keep
    | with_reducible apply fwRegs_keep
    | with_reducible apply startActivation_keep
    | (with_reducible apply Keep.snd; with_reducible assumption)
    | split
    | dsimp -zeta only
    | dsimp +zetaDelta -zeta only

theorem execFwStatus_acts (m : MbGo) (s : State) (hd : quiet = true → m.dma = false := by first | assumption | nofun) : ActsO m.part quiet s (execFwStatus m s) := by
  unfold execFwStatus
  repeat' first
    | fail_if_no_progress extract_lets
    | ((with_reducible apply mailbox_fd); intro _ _)
    | ((with_reducible apply mailbox_sc); intro _ _)
    | ((with_reducible apply mailbox_own2880); intro _ _)
    | ((with_reducible apply mailbox_any); intro _ _)
    | (with_reducible apply Acts.iteS) <;> intro _
    | (with_reducible apply Acts.iteS2) <;> intro _
    | (with_reducible apply ActsO.ite) <;> intro _
    | with_reducible apply ActsO.next
    | (with_reducible apply Acts.ite) <;> intro _
    | with_reducible apply Acts.refl
    | with_reducible assumption
    | dsimp -zeta only
    | split
    | dsimp -zeta only
    | dsimp +zetaDelta -zeta only

theorem execTokenSet_acts (m : MbGo) (s : State) (hd : quiet = true → m.dma = false := by first | assumption | nofun) : ActsO m.part quiet s (execTokenSet m s) := by
  unfold execTokenSet
  repeat' first
    | fail_if_no_progress extract_lets
    | ((with_reducible apply mailbox_fd); intro _ _)
    | ((with_reducible apply mailbox_sc); intro _ _)
    | ((with_reducible apply mailbox_own2880); intro _ _)
    | ((with_reducible apply mailbox_any); intro _ _)
    | (with_reducible apply Acts.iteS) <;> intro _
    | (with_reducible apply Acts.iteS2) <;> intro _
    | (with_reducible apply ActsO.ite) <;> intro _
    | with_reducible apply ActsO.next
    | (with_reducible apply Acts.ite) <;> intro _
    | with_reducible apply Acts.refl
    | with_reducible assumption
    | dsimp -zeta only
    | with_reducible apply setSlate_trans
    | split
    | dsimp -zeta only
    | dsimp +zetaDelta -zeta only

theorem execConfigRead_acts (m : MbGo) (s : State) (hd : quiet = true → m.dma = false := by first | assumption | nofun) : ActsO m.part quiet s (execConfigRead m s) := by
  unfold execConfigRead
  repeat' first
    | fail_if_no_progress extract_lets
    | ((with_reducible apply mailbox_fd); intro _ _)
    | ((with_reducible apply mailbox_sc); intro _ _)
    | ((with_reducible apply mailbox_own2880); intro _ _)
    | ((with_reducible apply mailbox_any); intro _ _)
    | (with_reducible apply Acts.iteS) <;> intro _
    | (with_reducible apply Acts.iteS2) <;> intro _
    | (with_reducible apply ActsO.ite) <;> intro _
    | with_reducible apply ActsO.next
    | (with_reducible apply Acts.ite) <;> intro _
    | with_reducible apply Acts.refl
    | with_reducible assumption
    | dsimp -zeta only
    | split
    | dsimp -zeta only
    | dsimp +zetaDelta -zeta only

theorem execUnknownCommand_acts (m : MbGo) (code : Nat) (s : State) (hd : quiet = true → m.dma = false := by first | assumption | nofun) : ActsO m.part quiet s (execUnknownCommand m code s) := by
  unfold execUnknownCommand
  repeat' first
    | fail_if_no_progress extract_lets
    | ((with_reducible apply mailbox_fd); intro _ _)
    | ((with_reducible apply mailbox_sc); intro _ _)
    | ((with_reducible apply mailbox_own2880); intro _ _)
    | ((with_reducible apply mailbox_any); intro _ _)
    | (with_reducible apply Acts.iteS) <;> intro _
    | (with_reducible apply Acts.iteS2) <;> intro _
    | (with_reducible apply ActsO.ite) <;> intro _
    | with_reducible apply ActsO.next
    | (with_reducible apply Acts.ite) <;> intro _
    | with_reducible apply Acts.refl
    | with_reducible assumption
    | dsimp -zeta only
    | split
    | dsimp -zeta only

theorem execPrefectRestart_acts (m : MbGo) (s : State) (hd : quiet = true → m.dma = false := by first | assumption | nofun) : ActsO m.part quiet s (execPrefectRestart m s) := by
  unfold execPrefectRestart
  repeat' first
    | fail_if_no_progress extract_lets
    | ((with_reducible apply mailbox_fd); intro _ _)
    | ((with_reducible apply mailbox_sc); intro _ _)
    | ((with_reducible apply mailbox_own2880); intro _ _)
    | ((with_reducible apply mailbox_any); intro _ _)
    | (with_reducible apply Acts.iteS) <;> intro _
    | (with_reducible apply Acts.iteS2) <;> intro _
    | (with_reducible apply ActsO.ite) <;> intro _
    | with_reducible apply ActsO.next
    | (with_reducible apply Acts.ite) <;> intro _
    | with_reducible apply Acts.refl
    | with_reducible assumption
    | dsimp -zeta only
    | with_reducible apply restage_trans
    | with_reducible apply prefectDown_trans
    | split
    | dsimp -zeta only
    | dsimp +zetaDelta -zeta only

theorem execWatchdogExpiry_acts (p : Part) (i : Nat) (s : State) : ActsO p quiet s (execWatchdogExpiry p i s) := by
  unfold execWatchdogExpiry
  repeat' first
    | fail_if_no_progress extract_lets
    | (with_reducible apply ActsO.ite) <;> intro _
    | with_reducible apply ActsO.next
    | (with_reducible apply Acts.ite) <;> intro _
    | with_reducible apply Acts.refl
    | with_reducible assumption
    | with_reducible apply restage_trans
    | with_reducible apply prefectFail_trans
    | dsimp -zeta only

theorem execPrefectFaultRestart_acts (p : Part) (i : Nat) (cause : RestartCause) (s : State) : ActsO p quiet s (execPrefectFaultRestart p i cause s) := by
  unfold execPrefectFaultRestart
  repeat' first
    | fail_if_no_progress extract_lets
    | (with_reducible apply ActsO.ite) <;> intro _
    | with_reducible apply ActsO.next
    | (with_reducible apply Acts.ite) <;> intro _
    | with_reducible apply Acts.refl
    | with_reducible assumption
    | with_reducible apply restage_trans
    | with_reducible apply prefectFail_trans
    | (with_reducible apply Acts.snd; with_reducible assumption)
    | split
    | dsimp -zeta only

theorem execComponentFault_acts (p : Part) (i comp : Nat) (s : State) : ActsO p quiet s (execComponentFault p i comp s) := by
  unfold execComponentFault
  repeat' first
    | fail_if_no_progress extract_lets
    | (with_reducible apply ActsO.ite) <;> intro _
    | with_reducible apply ActsO.next
    | (with_reducible apply Acts.ite) <;> intro _
    | with_reducible apply Acts.refl
    | with_reducible assumption
    | with_reducible apply bump_trans
    | with_reducible apply restage_trans
    | with_reducible apply setPref_trans
    | with_reducible apply fwEvent_trans
    | with_reducible apply prefectFail_trans
    | split
    | dsimp -zeta only
    | dsimp +zetaDelta -zeta only

theorem execPrefectRestartComplete_acts (p : Part) (i : Nat) (bad : List Nat) (s : State) : KeepO false s (execPrefectRestartComplete p i bad s) := by
  unfold execPrefectRestartComplete
  repeat' first
    | fail_if_no_progress extract_lets
    | (with_reducible apply KeepO.ite) <;> intro _
    | with_reducible apply KeepO.next
    | (with_reducible apply Keep.ite) <;> intro _
    | with_reducible apply Keep.refl
    | with_reducible assumption
    | with_reducible apply put_keep
    | with_reducible apply restage_keep
    | with_reducible apply mbComplete_keep
    | with_reducible apply releaseHeldWrites_keep
    | with_reducible apply flushStores_keep
    | with_reducible apply coldStarts_keep
    | with_reducible apply abortedBy_keep
    | ((with_reducible apply Keep.foldl_trans); intro _ _)
    | (with_reducible apply Keep.snd; with_reducible assumption)
    | split
    | exact fun h => absurd h Bool.false_ne_true
    | dsimp -zeta only
    | dsimp +zetaDelta -zeta only

theorem execPrefectRestartComplete_sc_acts (i : Nat) (bad : List Nat) (s : State) : ActsO .sc false s (execPrefectRestartComplete .sc i bad s) := by
  unfold execPrefectRestartComplete
  repeat' first
    | fail_if_no_progress extract_lets
    | (with_reducible apply ActsO.ite) <;> intro _
    | with_reducible apply ActsO.next
    | (with_reducible apply Acts.ite) <;> intro _
    | with_reducible apply Acts.refl
    | with_reducible assumption
    | with_reducible apply put_trans
    | with_reducible apply restage_trans
    | with_reducible apply mbComplete_trans
    | with_reducible apply releaseHeldWrites_sc_trans
    | with_reducible apply flushStores_trans
    | with_reducible apply coldStarts_trans
    | with_reducible apply abortedBy_trans
    | ((with_reducible apply Acts.foldl_trans); intro _ _)
    | (with_reducible apply Acts.snd; with_reducible assumption)
    | split
    | exact fun h => absurd h Bool.false_ne_true
    | dsimp -zeta only
    | dsimp +zetaDelta -zeta only
    | (exfalso; simp_all; done)

end Sys2Proof.Machine
end

