-- ==== Sys2Proof/Laws/ActsSlateCmds.lean ====
section
/-! SUPPORT. One lemma an operation: what it keeps (Acts, Keep). -/

namespace Sys2Proof.Machine

open Sys2Proof

set_option linter.unusedTactic false
set_option linter.unreachableTactic false
set_option linter.unusedVariables false

variable {quiet : Bool}

theorem ActsO.keepO {p : Part} {s : State} {o : Host.Outcome State Fault Refusal} (h : ActsO p false s o) : KeepO false s o := by
  cases o
  · exact h.keep
  · exact h
  · exact h

theorem KeepO.trans {s₀ s : State} {o : Host.Outcome State Fault Refusal} (h : Keep false s₀ s) (k : KeepO false s o) : KeepO false s₀ o := by
  cases o
  · exact h.trans k
  · exact k
  · exact k

/-- Every command of both parts keeps what every operation keeps. -/
theorem commonCommands_keepO (m : MbGo) (s : State) : ∀ e ∈ commonCommands, KeepO false s (e.2 m s) := by
  unfold commonCommands
  simp only [List.cons_append, List.nil_append, List.forall_mem_cons, List.not_mem_nil, false_implies, implies_true, and_true]
  exact ⟨(execHallForm_acts m s).keepO,
    execRefAccept_acts m s,
    (execOutRealign_acts m s).keepO,
    (execSubtreeRejoin_acts m s).keepO,
    (execWallRead_acts m s).keepO,
    (execRefAcceptCancel_acts m s).keepO,
    (execTdcRingSet_acts m s).keepO,
    (execTdcCalNow_acts m s).keepO,
    (execTdcCalRead_acts m s).keepO,
    execLinkCal_acts m s,
    (execLinkSwap_acts m s).keepO,
    (execLinkReset_acts m s).keepO,
    (execOppSwitch_acts m s).keepO,
    (execOppCancel_acts m s).keepO,
    (execStationRead_acts m s).keepO,
    (execRootPromote_acts m s).keepO,
    (execJobCreate_acts m s).keepO,
    (execJobEnd_acts m s).keepO,
    (execPipeRead_acts m s).keepO,
    (execPayRead_acts m s).keepO,
    (execSbAlloc_acts m s).keepO,
    (execSbFree_acts m s).keepO,
    (execSbQuota_acts m s).keepO,
    (execSbRead_acts m s).keepO,
    (execSbCloseLog_acts m s).keepO,
    (execTtSubmit_acts m s).keepO,
    (execTtResult_acts m s).keepO,
    (execTtCancel_acts m s).keepO,
    (execTtRead_acts m s).keepO,
    (execPwrRead_acts m s).keepO,
    (execPwrJobSet_acts m s).keepO,
    (execPwrRecess_acts m s).keepO,
    (execPwrResume_acts m s).keepO,
    (execAttDma_acts m s).keepO,
    (execAttFind_acts m s).keepO,
    (execAttQuota_acts m s).keepO,
    (execAttFlush_acts m s).keepO,
    (execFwStage_acts m s).keepO,
    (execFwActivate_acts m s).keepO,
    (execFwStatus_acts m s).keepO,
    (execPrefectRestart_acts m s).keepO,
    (execTokenSet_acts m s).keepO,
    (execConfigRead_acts m s).keepO,
    (execFwUnstage_acts m s).keepO,
    execDrillNow_acts m false false s,
    (execDrillRead_acts m s).keepO,
    (execSelftest_acts m s).keepO,
    (execPipeUnretire_acts m s).keepO,
    (execRcRead_acts m s).keepO,
    (execRcClear_acts m s).keepO,
    (execFaultRead_acts m s).keepO⟩

theorem fdCommands_keepO (m : MbGo) (s : State) : ∀ e ∈ partCommands .fd, KeepO false s (e.2 m s) := by
  simp only [partCommands, List.forall_mem_cons, List.not_mem_nil, false_implies, implies_true, and_true]
  exact ⟨(execHbarAlloc_acts m s).keepO,
    (execHbarFree_acts m s).keepO,
    (execHbarSet_acts m s).keepO,
    (execHbarResolve_acts m s).keepO,
    (execHbarRead_acts m s).keepO,
    (execBellRing_acts m s).keepO,
    (execJobHallStatus_acts m s).keepO,
    (execSuspectRead_acts m s).keepO,
    (execHbarDump_acts m s).keepO⟩

theorem scCommands_keepO (m : MbGo) (s : State) : ∀ e ∈ partCommands .sc, KeepO false s (e.2 m s) := by
  simp only [partCommands, List.forall_mem_cons, List.not_mem_nil, false_implies, implies_true, and_true]
  exact ⟨(execBarrierCreate_acts m s).keepO,
    (execBarrierFree_acts m s).keepO,
    (execCtxBind_acts m s).keepO,
    (execCtxSwitch_acts m s).keepO,
    (execCtxClear_acts m s).keepO,
    (execSlotRead_acts m s).keepO,
    (execCtxQuota_acts m s).keepO,
    (execHostWaitCancel_acts m s).keepO,
    (execMonDump_acts m s).keepO⟩

/-- Every mailbox command keeps what every operation keeps. -/
theorem commands_keepO (p : Part) (m : MbGo) (s : State) : ∀ e ∈ partCommands p ++ commonCommands, KeepO false s (e.2 m s) := by
  simp only [List.forall_mem_append]
  cases p
  · exact ⟨fdCommands_keepO m s, commonCommands_keepO m s⟩
  · exact ⟨scCommands_keepO m s, commonCommands_keepO m s⟩

theorem runCommand_acts (code : Nat) (m : MbGo) (s : State) : KeepO false s (runCommand code m s) := by
  unfold runCommand
  split
  · exact commands_keepO m.part m s _ (List.mem_of_find?_eq_some ‹_›)
  · exact (execUnknownCommand_acts m code s).keepO

theorem after_keep {o : Host.Outcome State Fault Refusal} {s s₀ : State} (h : KeepO quiet s₀ o) : Keep quiet s₀ (s.after o) := by
  cases o
  · exact h
  · exact h.elim
  · exact h.elim

theorem writeWord_acts (p : Part) (req off v : Nat) (s : State) : Keep false s (State.writeWord p req off v s) := by
  have hw : Keep false s (s.slateWord p req off v) := slateWord_acts ..
  unfold State.writeWord
  dsimp only
  split
  · exact hw
  · split
    · exact after_keep (KeepO.trans hw (runCommand_acts ..))
    · split
      · refine after_keep (KeepO.trans hw ?_)
        split
        · exact (execLoadConfig_acts ..).keepO
        · exact (execLoadFirmware_acts ..).keepO
      · exact hw
theorem writeWord_keep {p : Part} {req off v : Nat} {s s₀ : State} (h₀ : Keep false s₀ s) : Keep false s₀ (State.writeWord p req off v s) := h₀.trans (writeWord_acts ..)

theorem execRegisterWrite_acts (p : Part) (req off size value : Nat) (s : State) : KeepO false s (execRegisterWrite p req off size value s) := by
  unfold execRegisterWrite
  repeat' first
    | fail_if_no_progress extract_lets
    | (with_reducible apply KeepO.ite) <;> intro _
    | with_reducible apply KeepO.next
    | (with_reducible apply Keep.ite) <;> intro _
    | with_reducible apply Keep.refl
    | with_reducible assumption
    | with_reducible apply rsvd_keep
    | with_reducible apply range_keep
    | with_reducible apply mailWrite_keep
    | with_reducible apply writeWord_keep
    | ((with_reducible apply Keep.foldl_trans); intro _ _)
    | split
    | exact fun h => absurd h Bool.false_ne_true
    | dsimp -zeta only

end Sys2Proof.Machine
end

