-- ==== Sys2Proof/Laws/Mailbox.lean ====
section
/-! SUPPORT. What submission and completion of a mailbox command leave (R366). -/

namespace Sys2Proof.Machine

open Sys2Proof

/-- The field is none of a mailbox's control block. -/
def OffMb (f : Field) : Prop := f.key < 0x8800 * 32 ∨ 0x8900 * 32 ≤ f.key

theorem offMb_ne {f : Field} (h : OffMb f) {g : Field} (lo : 0x8800 ≤ g.off) (hi : g.off < 0x8900) (l : g.lo < 32) : f.key ≠ g.key := by
  unfold OffMb at h
  simp only [Field.key] at *
  omega

/-- The units of a part's mailboxes aside, submission changes no register. -/
theorem get_mbSubmit {f : Field} (h : OffMb f) (m : MbGo) (hb : m.box < 8) (code : Nat) (p : Part) (s : State) : (s.mbSubmit m code).get p f = s.get p f := by
  have key : ∀ (g : Field) (v : Nat) (t : State), 0x8800 ≤ g.off → g.off < 0x8900 → g.lo < 32 → (t.put m.part g v).get p f = t.get p f := by
    intro g v t lo hi l
    by_cases hp : p = m.part
    · subst hp; exact State.get_put_ne _ (offMb_ne h lo hi l) _ _
    · exact State.get_put_part hp _ _ _ _
  unfold State.mbSubmit State.putFlag
  dsimp only
  split <;> (try simp only [State.get_signal]) <;>
    (repeat rw [key]) <;> first | (unfold State.setMail; simp) | (simp [Rg.MB_CODE, Rg.MB_TAG, Rg.MB_ARG_LEN, Rg.MB_IRQ_EN, Rg.MB_DMA_RESULT, Rg.MB_DONE, Rg.MB_OWNED]; try omega)

/-- Completion changes no register outside the mailboxes. -/
theorem get_mbDone {f : Field} (h : OffMb f) (p q : Part) {box : Nat} (hb : box < 8) (tag : Nat) (irq : Bool) (status detail : Nat) (area : List Byte) (total : Nat)
    (s : State) : (s.mbDone q box tag irq status detail area total).get p f = s.get p f := by
  have key : ∀ (g : Field) (v : Nat) (t : State), 0x8800 ≤ g.off → g.off < 0x8900 → g.lo < 32 → (t.put q g v).get p f = t.get p f := by
    intro g v t lo hi l
    by_cases hp : p = q
    · subst hp; exact State.get_put_ne _ (offMb_ne h lo hi l) _ _
    · exact State.get_put_part hp _ _ _ _
  unfold State.mbDone
  split <;> (try simp only [State.get_signal]) <;>
    (repeat rw [key]) <;> first | (unfold State.setMail; simp) | (simp [Rg.MB_STATUS, Rg.MB_STAG, Rg.MB_RESULT_LEN, Rg.MB_DETAIL, Rg.MB_RESULT_TOTAL, Rg.MB_DONE, Rg.MB_OWNED]; try omega)

@[simp] theorem State.unit_signal (p : Part) (v : Nat) (s : State) : (s.signal v).unit p = s.unit p := by
  unfold State.signal; split <;> cases p <;> rfl

@[simp] theorem mbDone_now (p : Part) (box tag : Nat) (irq : Bool) (status detail : Nat) (area : List Byte) (total : Nat) (s : State) :
    (s.mbDone p box tag irq status detail area total).now = s.now := by unfold State.mbDone State.signal State.setMail; dsimp only; split_ifs <;> simp [State.setMsix]
@[simp] theorem mbSubmit_now (m : MbGo) (code : Nat) (s : State) : (s.mbSubmit m code).now = s.now := by
  unfold State.mbSubmit State.signal State.setMail State.putFlag; dsimp only; split_ifs <;> simp [State.setMsix]
@[simp] theorem mbDone_free (p : Part) (box tag : Nat) (irq : Bool) (status detail : Nat) (area : List Byte) (total : Nat) (s : State) :
    (s.mbDone p box tag irq status detail area total).free = s.free := by unfold State.mbDone State.signal State.setMail; dsimp only; split_ifs <;> simp [State.setMsix]
@[simp] theorem mbSubmit_free (m : MbGo) (code : Nat) (s : State) : (s.mbSubmit m code).free = s.free := by
  unfold State.mbSubmit State.signal State.setMail State.putFlag; dsimp only; split_ifs <;> simp [State.setMsix]
@[simp] theorem mbDone_dist (p : Part) (box tag : Nat) (irq : Bool) (status detail : Nat) (area : List Byte) (total : Nat) (s : State) :
    (s.mbDone p box tag irq status detail area total).dist = s.dist := by unfold State.mbDone State.signal State.setMail; dsimp only; split_ifs <;> simp [State.setMsix]
@[simp] theorem mbSubmit_dist (m : MbGo) (code : Nat) (s : State) : (s.mbSubmit m code).dist = s.dist := by
  unfold State.mbSubmit State.signal State.setMail State.putFlag; dsimp only; split_ifs <;> simp [State.setMsix]
@[simp] theorem mbDone_die (p : Part) (box tag : Nat) (irq : Bool) (status detail : Nat) (area : List Byte) (total : Nat) (s : State) :
    (s.mbDone p box tag irq status detail area total).die = s.die := by unfold State.mbDone State.signal State.setMail; dsimp only; split_ifs <;> simp [State.setMsix]
@[simp] theorem mbSubmit_die (m : MbGo) (code : Nat) (s : State) : (s.mbSubmit m code).die = s.die := by
  unfold State.mbSubmit State.signal State.setMail State.putFlag; dsimp only; split_ifs <;> simp [State.setMsix]
@[simp] theorem mbDone_dieMem (p : Part) (box tag : Nat) (irq : Bool) (status detail : Nat) (area : List Byte) (total : Nat) (s : State) :
    (s.mbDone p box tag irq status detail area total).dieMem = s.dieMem := by unfold State.mbDone State.signal State.setMail; dsimp only; split_ifs <;> simp [State.setMsix]
@[simp] theorem mbSubmit_dieMem (m : MbGo) (code : Nat) (s : State) : (s.mbSubmit m code).dieMem = s.dieMem := by
  unfold State.mbSubmit State.signal State.setMail State.putFlag; dsimp only; split_ifs <;> simp [State.setMsix]
@[simp] theorem mbDone_hostMem (p : Part) (box tag : Nat) (irq : Bool) (status detail : Nat) (area : List Byte) (total : Nat) (s : State) :
    (s.mbDone p box tag irq status detail area total).hostMem = s.hostMem := by unfold State.mbDone State.signal State.setMail; dsimp only; split_ifs <;> simp [State.setMsix]
@[simp] theorem mbSubmit_hostMem (m : MbGo) (code : Nat) (s : State) : (s.mbSubmit m code).hostMem = s.hostMem := by
  unfold State.mbSubmit State.signal State.setMail State.putFlag; dsimp only; split_ifs <;> simp [State.setMsix]
@[simp] theorem mbDone_pending (p : Part) (box tag : Nat) (irq : Bool) (status detail : Nat) (area : List Byte) (total : Nat) (s : State) :
    (s.mbDone p box tag irq status detail area total).pending = s.pending := by unfold State.mbDone State.signal State.setMail; dsimp only; split_ifs <;> simp [State.setMsix]
@[simp] theorem mbSubmit_pending (m : MbGo) (code : Nat) (s : State) : (s.mbSubmit m code).pending = s.pending := by
  unfold State.mbSubmit State.signal State.setMail State.putFlag; dsimp only; split_ifs <;> simp [State.setMsix]
@[simp] theorem mbDone_unit_clock (p q : Part) (box tag : Nat) (irq : Bool) (status detail : Nat) (area : List Byte) (total : Nat) (s : State) :
    ((s.mbDone p box tag irq status detail area total).unit q).clock = (s.unit q).clock := by
  unfold State.mbDone State.setMail; dsimp only; split <;> simp
@[simp] theorem mbSubmit_unit_clock (m : MbGo) (q : Part) (code : Nat) (s : State) : ((s.mbSubmit m code).unit q).clock = (s.unit q).clock := by
  unfold State.mbSubmit State.setMail State.putFlag; dsimp only; split <;> simp
@[simp] theorem mbDone_unit_fw (p q : Part) (box tag : Nat) (irq : Bool) (status detail : Nat) (area : List Byte) (total : Nat) (s : State) :
    ((s.mbDone p box tag irq status detail area total).unit q).fw = (s.unit q).fw := by
  unfold State.mbDone State.setMail; dsimp only; split <;> simp
@[simp] theorem mbSubmit_unit_fw (m : MbGo) (q : Part) (code : Nat) (s : State) : ((s.mbSubmit m code).unit q).fw = (s.unit q).fw := by
  unfold State.mbSubmit State.setMail State.putFlag; dsimp only; split <;> simp
@[simp] theorem mbDone_unit_start (p q : Part) (box tag : Nat) (irq : Bool) (status detail : Nat) (area : List Byte) (total : Nat) (s : State) :
    ((s.mbDone p box tag irq status detail area total).unit q).start = (s.unit q).start := by
  unfold State.mbDone State.setMail; dsimp only; split <;> simp
@[simp] theorem mbSubmit_unit_start (m : MbGo) (q : Part) (code : Nat) (s : State) : ((s.mbSubmit m code).unit q).start = (s.unit q).start := by
  unfold State.mbSubmit State.setMail State.putFlag; dsimp only; split <;> simp
@[simp] theorem mbDone_unit_links (p q : Part) (box tag : Nat) (irq : Bool) (status detail : Nat) (area : List Byte) (total : Nat) (s : State) :
    ((s.mbDone p box tag irq status detail area total).unit q).links = (s.unit q).links := by
  unfold State.mbDone State.setMail; dsimp only; split <;> simp
@[simp] theorem mbSubmit_unit_links (m : MbGo) (q : Part) (code : Nat) (s : State) : ((s.mbSubmit m code).unit q).links = (s.unit q).links := by
  unfold State.mbSubmit State.setMail State.putFlag; dsimp only; split <;> simp
@[simp] theorem mbDone_unit_faults (p q : Part) (box tag : Nat) (irq : Bool) (status detail : Nat) (area : List Byte) (total : Nat) (s : State) :
    ((s.mbDone p box tag irq status detail area total).unit q).faults = (s.unit q).faults := by
  unfold State.mbDone State.setMail; dsimp only; split <;> simp
@[simp] theorem mbSubmit_unit_faults (m : MbGo) (q : Part) (code : Nat) (s : State) : ((s.mbSubmit m code).unit q).faults = (s.unit q).faults := by
  unfold State.mbSubmit State.setMail State.putFlag; dsimp only; split <;> simp
@[simp] theorem mbDone_unit_emerg (p q : Part) (box tag : Nat) (irq : Bool) (status detail : Nat) (area : List Byte) (total : Nat) (s : State) :
    ((s.mbDone p box tag irq status detail area total).unit q).emerg = (s.unit q).emerg := by
  unfold State.mbDone State.setMail; dsimp only; split <;> simp
@[simp] theorem mbSubmit_unit_emerg (m : MbGo) (q : Part) (code : Nat) (s : State) : ((s.mbSubmit m code).unit q).emerg = (s.unit q).emerg := by
  unfold State.mbSubmit State.setMail State.putFlag; dsimp only; split <;> simp
@[simp] theorem mbDone_unit_inbox (p q : Part) (box tag : Nat) (irq : Bool) (status detail : Nat) (area : List Byte) (total : Nat) (s : State) :
    ((s.mbDone p box tag irq status detail area total).unit q).inbox = (s.unit q).inbox := by
  unfold State.mbDone State.setMail; dsimp only; split <;> simp
@[simp] theorem mbSubmit_unit_inbox (m : MbGo) (q : Part) (code : Nat) (s : State) : ((s.mbSubmit m code).unit q).inbox = (s.unit q).inbox := by
  unfold State.mbSubmit State.setMail State.putFlag; dsimp only; split <;> simp
@[simp] theorem mbDone_unit_tt (p q : Part) (box tag : Nat) (irq : Bool) (status detail : Nat) (area : List Byte) (total : Nat) (s : State) :
    ((s.mbDone p box tag irq status detail area total).unit q).tt = (s.unit q).tt := by
  unfold State.mbDone State.setMail; dsimp only; split <;> simp
@[simp] theorem mbSubmit_unit_tt (m : MbGo) (q : Part) (code : Nat) (s : State) : ((s.mbSubmit m code).unit q).tt = (s.unit q).tt := by
  unfold State.mbSubmit State.setMail State.putFlag; dsimp only; split <;> simp
@[simp] theorem mbDone_unit_tests (p q : Part) (box tag : Nat) (irq : Bool) (status detail : Nat) (area : List Byte) (total : Nat) (s : State) :
    ((s.mbDone p box tag irq status detail area total).unit q).tests = (s.unit q).tests := by
  unfold State.mbDone State.setMail; dsimp only; split <;> simp
@[simp] theorem mbSubmit_unit_tests (m : MbGo) (q : Part) (code : Nat) (s : State) : ((s.mbSubmit m code).unit q).tests = (s.unit q).tests := by
  unfold State.mbSubmit State.setMail State.putFlag; dsimp only; split <;> simp
@[simp] theorem mbDone_unit_lastDone (p q : Part) (box tag : Nat) (irq : Bool) (status detail : Nat) (area : List Byte) (total : Nat) (s : State) :
    ((s.mbDone p box tag irq status detail area total).unit q).lastDone = (s.unit q).lastDone := by
  unfold State.mbDone State.setMail; dsimp only; split <;> simp
@[simp] theorem mbSubmit_unit_lastDone (m : MbGo) (q : Part) (code : Nat) (s : State) : ((s.mbSubmit m code).unit q).lastDone = (s.unit q).lastDone := by
  unfold State.mbSubmit State.setMail State.putFlag; dsimp only; split <;> simp

/-- The answer of a mailbox without a wait: STATUS, TAG, DONE and OWNED. -/
theorem mbDone_answer (p : Part) (box tag : Nat) (irq : Bool) {status : Nat} (hs : status < 16) (detail : Nat) (area : List Byte) (total : Nat) (s : State) :
    (s.mbDone p box tag irq status detail area total).get p (Rg.MB_STATUS box) = status
      ∧ (s.mbDone p box tag irq status detail area total).get p (Rg.MB_STAG box) = tag % 256
      ∧ (s.mbDone p box tag irq status detail area total).get p (Rg.MB_DONE box) = 1
      ∧ (s.mbDone p box tag irq status detail area total).get p (Rg.MB_OWNED box) = 0 := by
  have ne : ∀ {f g : Field}, f.key ≠ g.key → ∀ (v : Nat) (t : State), (t.put p g v).get p f = t.get p f := fun h v t => State.get_put_ne p h v t
  unfold State.mbDone
  dsimp only
  refine ⟨?_, ?_, ?_, ?_⟩ <;> split <;> (try simp only [State.get_signal]) <;>
    repeat (first
      | rw [State.get_put_same]
      | rw [ne (by simp [Field.key, Rg.MB_STATUS, Rg.MB_STAG, Rg.MB_RESULT_LEN, Rg.MB_DETAIL, Rg.MB_RESULT_TOTAL, Rg.MB_DONE, Rg.MB_OWNED]; try omega)])
  all_goals simp [Rg.MB_STATUS, Rg.MB_STAG, Rg.MB_DONE, Rg.MB_OWNED]
  all_goals omega


@[simp] theorem image_mbSubmit (m : MbGo) (hb : m.box < 8) (code : Nat) (p : Part) (k : Nat) (s : State) : (s.mbSubmit m code).image p k = s.image p k := by
  unfold State.image State.flag
  rw [mbSubmit_unit_fw, get_mbSubmit (Or.inr (by simp [Field.key, Rg.LOAD_CONFIG_LOADED])) m hb]

@[simp] theorem latches_setMail (q : Part) (b : Nat) (x : Mail) (p : Part) (s : State) :
    ((s.setMail q b x).unit p).slate.latches = (s.unit p).slate.latches := by cases p <;> cases q <;> rfl

@[simp] theorem latches_mbSubmit (m : MbGo) (code : Nat) (p : Part) (s : State) : ((s.mbSubmit m code).unit p).slate.latches = (s.unit p).slate.latches := by
  unfold State.mbSubmit State.putFlag; dsimp only; split <;> simp

@[simp] theorem jobTokens_setMail (q : Part) (b : Nat) (x : Mail) (p : Part) (s : State) :
    ((s.setMail q b x).unit p).slate.jobTokens = (s.unit p).slate.jobTokens := by cases p <;> cases q <;> rfl

@[simp] theorem jobTokens_mbSubmit (m : MbGo) (code : Nat) (p : Part) (s : State) : ((s.mbSubmit m code).unit p).slate.jobTokens = (s.unit p).slate.jobTokens := by
  unfold State.mbSubmit State.putFlag; dsimp only; split <;> simp

@[simp] theorem cls_mbSubmit (m : MbGo) (hb : m.box < 8) (code : Nat) (p : Part) (req : Nat) (s : State) : (s.mbSubmit m code).cls p req = s.cls p req := by
  unfold State.cls
  simp only [image_mbSubmit m hb, latches_mbSubmit, jobTokens_mbSubmit]

theorem prefectOf_congr {p : Part} {s t : State} (h : ∀ i < 7, t.get p (Rg.PREF_ROLE i) = s.get p (Rg.PREF_ROLE i) ∧ t.get p (Rg.PREF_STATE i) = s.get p (Rg.PREF_STATE i))
    (r : Nat) : t.prefectOf p r = s.prefectOf p r := by
  unfold State.prefectOf
  have : ∀ l : List Nat, (∀ i ∈ l, i < 7) → l.find? (fun i => t.get p (Rg.PREF_ROLE i) == r && t.get p (Rg.PREF_STATE i) != 5)
      = l.find? (fun i => s.get p (Rg.PREF_ROLE i) == r && s.get p (Rg.PREF_STATE i) != 5) := by
    intro l
    induction l with
    | nil => intro _; rfl
    | cons a l ih =>
      intro hl
      rw [List.find?_cons, List.find?_cons, (h a (hl a (by simp))).1, (h a (hl a (by simp))).2, ih fun i hi => hl i (by simp [hi])]
  apply this
  intro i hi
  have := List.mem_range.1 hi
  split at this <;> omega

theorem roleUp_congr {p : Part} {s t : State} (h : ∀ i < 7, t.get p (Rg.PREF_ROLE i) = s.get p (Rg.PREF_ROLE i) ∧ t.get p (Rg.PREF_STATE i) = s.get p (Rg.PREF_STATE i))
    (r : Nat) : t.roleUp p r = s.roleUp p r := by
  have hlt : ∀ i, s.prefectOf p r = some i → i < 7 := by
    intro i hi
    have := List.mem_range.1 (List.mem_of_find?_eq_some hi)
    split at this <;> omega
  unfold State.roleUp
  rw [prefectOf_congr h]
  split
  · rename_i i hi; rw [(h i (hlt i hi)).2]
  · rfl

@[simp] theorem roleUp_mbSubmit (m : MbGo) (hb : m.box < 8) (code : Nat) (p : Part) (r : Nat) (s : State) : (s.mbSubmit m code).roleUp p r = s.roleUp p r :=
  roleUp_congr (fun i hi => ⟨get_mbSubmit (Or.inr (by simp [Field.key, Rg.PREF_ROLE]; omega)) m hb code p s,
    get_mbSubmit (Or.inr (by simp [Field.key, Rg.PREF_STATE]; omega)) m hb code p s⟩) r

/-- A command that is ready passes the gate. -/
theorem mbGate_ready {m : MbGo} {owner : Nat} {named : Option Nat} {need : Nat} {s : State} (h : MbReady m owner named need s) (code : Nat) :
    (s.mbSubmit m code).mbGate m (some owner) named need = none := by
  unfold State.mbGate State.activating
  simp only [mbSubmit_unit_fw, h.active, Option.isSome_none, roleUp_mbSubmit m h.box, h.p0, h.up, mbSubmit_die, cls_mbSubmit m h.box]
  have hl : ¬ m.args.length < need := by have := h.long; omega
  have hk : (decide (m.part = .sc) && s.die.sync.clear.isSome) = false := by
    by_cases hp : m.part = .sc
    · simp [h.clear hp]
    · simp [hp]
  rcases h.cls with e | ⟨j, e1, e2⟩
  · simp [hl, hk, e]
  · simp [hl, hk, e1, e2]

/-- A command that is ready runs its body on the submitted state and answers what the body says. -/
theorem mailbox_ready {m : MbGo} {owner need : Nat} {s : State} {sig : List Nat} {jobArg : Option Nat}
    (h : MbReady m owner (jobArg.map fun i => (parseFields m.args 0 sig).getD i 0) need s) (hn : layoutEnd 0 sig = need) (code : Nat)
    (body : List Nat → State → MbOut × State) :
    s.mailbox m code (some owner) sig jobArg body =
      (body (parseFields m.args 0 sig) (s.mbSubmit m code)).2.mbAnswer m.part m.box code m.tag m.irq m.dma (body (parseFields m.args 0 sig) (s.mbSubmit m code)).1 := by
  subst hn
  unfold State.mailbox State.flag
  rw [h.owned]
  dsimp only
  rw [mbGate_ready h code]
  rfl

/-- A body that answers fixed fields completes its mailbox with OK. -/
theorem mbAnswer_ok (p : Part) (box code tag : Nat) (irq dma : Bool) (fixed : List (Nat × Nat)) (s : State) :
    (s.mbAnswer p box code tag irq dma (.ok fixed)).get p (Rg.MB_STATUS box) = 0
      ∧ (s.mbAnswer p box code tag irq dma (.ok fixed)).get p (Rg.MB_STAG box) = tag % 256
      ∧ (s.mbAnswer p box code tag irq dma (.ok fixed)).get p (Rg.MB_DONE box) = 1
      ∧ (s.mbAnswer p box code tag irq dma (.ok fixed)).get p (Rg.MB_OWNED box) = 0 := mbDone_answer p box tag irq (by omega) 0 _ _ s

/-- The same, as `Answered`. -/
theorem answered_ok (m : MbGo) (code : Nat) (fixed : List (Nat × Nat)) (t : State) :
    Answered m 0 (t.mbAnswer m.part m.box code m.tag m.irq m.dma (.ok fixed)) := mbAnswer_ok ..

@[simp] theorem State.mail_put (p q : Part) (b : Nat) (f : Field) (v : Nat) (s : State) : (s.put q f v).mail p b = s.mail p b := by
  unfold State.mail; rw [State.unit_put_slate]

@[simp] theorem State.mail_signal (p : Part) (b v : Nat) (s : State) : (s.signal v).mail p b = s.mail p b := by
  unfold State.mail; rw [State.unit_signal]

@[simp] theorem State.mail_setMail (p : Part) (b : Nat) (x : Mail) (s : State) : (s.setMail p b x).mail p b = x := by
  unfold State.mail State.setMail
  rw [State.setSlate_self]
  simp

theorem mail_mbDone (p : Part) (box tag : Nat) (irq : Bool) (status detail : Nat) (area : List Byte) (total : Nat) (s : State) :
    (s.mbDone p box tag irq status detail area total).mail p box = { data := (s.mail p box).data.writeN 0 area, wait := none } := by
  unfold State.mbDone
  dsimp only
  split <;> simp

theorem mail_mbSubmit (m : MbGo) (code : Nat) (s : State) :
    (s.mbSubmit m code).mail m.part m.box = { data := (s.mail m.part m.box).data.writeN 0 (m.args.take 256), wait := none } := by
  unfold State.mbSubmit State.putFlag
  dsimp only
  split <;> simp

/-- Between submission and completion the device owns the mailbox. -/
theorem owned_mbSubmit (m : MbGo) (code : Nat) (s : State) : (s.mbSubmit m code).get m.part (Rg.MB_OWNED m.box) = 1 := by
  unfold State.mbSubmit
  dsimp only
  split <;> (try simp only [State.get_signal]) <;> rw [State.get_put_same] <;> rfl

theorem len_mbDone (p : Part) (box tag : Nat) (irq : Bool) (status detail : Nat) (area : List Byte) (total : Nat) (s : State) :
    (s.mbDone p box tag irq status detail area total).get p (Rg.MB_RESULT_LEN box) = area.length % 2 ^ 9 := by
  have ne : ∀ {f g : Field}, f.key ≠ g.key → ∀ (v : Nat) (t : State), (t.put p g v).get p f = t.get p f := fun h v t => State.get_put_ne p h v t
  unfold State.mbDone
  dsimp only
  split <;> (try simp only [State.get_signal]) <;>
    repeat (first
      | rw [State.get_put_same]
      | rw [ne (by simp [Field.key, Rg.MB_STATUS, Rg.MB_STAG, Rg.MB_RESULT_LEN, Rg.MB_DETAIL, Rg.MB_RESULT_TOTAL, Rg.MB_DONE, Rg.MB_OWNED]; try omega)])
  all_goals rfl

/-- A body that changes no mailbox and answers fixed fields: the command's whole answer. -/
theorem result_ok (m : MbGo) (code : Nat) (fixed : List (Nat × Nat)) (s t : State) (h : t.mail m.part m.box = (s.mbSubmit m code).mail m.part m.box) :
    Result m (packFields 0 fixed) s (t.mbAnswer m.part m.box code m.tag m.irq m.dma (.ok fixed)) := by
  refine ⟨answered_ok m code fixed t, ?_, len_mbDone ..⟩
  show ((t.mbDone m.part m.box m.tag m.irq 0 0 _ _).mail m.part m.box).data = _
  rw [mail_mbDone, h, mail_mbSubmit]

end Sys2Proof.Machine
end

