-- ==== Sys2Proof/Laws/Only.lean ====
section
/-! SUPPORT. The operations that change registers alone: each with the registers it writes. -/

namespace Sys2Proof

open Machine

theorem ne_of_key {f g : Field} {K : Nat → Prop} (hf : ¬ K f.key) (hg : K g.key) : f.key ≠ g.key := by
  intro e
  rw [e] at hf
  exact hf hg

/-- What each step of a fold leaves, the fold leaves. -/
theorem foldl_keeps {α β σ : Type} (g : σ → β) {f : σ → α → σ} (h : ∀ t x, g (f t x) = g t) (l : List α) (s : σ) : g (l.foldl f s) = g s := by
  induction l generalizing s with
  | nil => rfl
  | cons x l ih => rw [List.foldl_cons, ih, h]

theorem Only.refl (p : Part) (b : Bool) (K : Nat → Prop) (s : State) : Only p b K s s :=
  ⟨fun _ _ => rfl, rfl, fun _ => rfl, fun _ _ => rfl, rfl, rfl, fun _ => rfl, fun _ => ⟨rfl, rfl⟩, rfl, rfl, rfl, rfl, rfl⟩

theorem Only.trans {p : Part} {b : Bool} {K : Nat → Prop} {s t u : State} (h : Only p b K s t) (k : Only p b K t u) : Only p b K s u where
  get f hf := (k.get f hf).trans (h.get f hf)
  unit := by rw [k.unit, h.unit]
  mail e := (k.mail e).trans (h.mail e)
  other q hq := (k.other q hq).trans (h.other q hq)
  dist := by rw [k.dist, h.dist]
  die := by rw [k.die, h.die]
  ofFd e := (k.ofFd e).trans (h.ofFd e)
  ofSc e := ⟨(k.ofSc e).1.trans (h.ofSc e).1, (k.ofSc e).2.trans (h.ofSc e).2⟩
  rest := ⟨k.rest.1.trans h.rest.1, k.rest.2.1.trans h.rest.2.1, k.rest.2.2.1.trans h.rest.2.2.1, k.rest.2.2.2.1.trans h.rest.2.2.2.1,
    k.rest.2.2.2.2.trans h.rest.2.2.2.2⟩

theorem Only.mono {p : Part} {b : Bool} {K L : Nat → Prop} {s t : State} (h : Only p b K s t) (k : ∀ o, K o → L o) : Only p b L s t :=
  { h with get := fun f hf => h.get f fun e => hf (k _ e) }

theorem Only.loose {p : Part} {b : Bool} {K : Nat → Prop} {s t : State} (h : Only p false K s t) : Only p b K s t :=
  { h with mail := fun _ => h.mail rfl }

theorem Only.of_put (p : Part) (b : Bool) {K : Nat → Prop} {f : Field} (hk : K f.key) (v : Nat) (s : State) : Only p b K s (s.put p f v) where
  get _ hf := State.get_put_ne p (ne_of_key hf hk) _ _
  unit := by cases p <;> rfl
  mail _ := by cases p <;> rfl
  other q hq := by cases p <;> cases q <;> first | rfl | exact absurd rfl hq
  dist := by cases p <;> rfl
  die := by cases p <;> rfl
  ofFd e := by subst e; rfl
  ofSc e := by subst e; exact ⟨rfl, rfl⟩
  rest := by cases p <;> exact ⟨rfl, rfl, rfl, rfl, rfl⟩

variable {p : Part} {b : Bool} {K : Nat → Prop} {s t : State}

theorem Only.put (h : Only p b K s t) {f : Field} (hk : K f.key) (v : Nat) : Only p b K s (t.put p f v) := h.trans (Only.of_put p b hk v t)
theorem Only.putFlag (h : Only p b K s t) {f : Field} (hk : K f.key) (v : Bool) : Only p b K s (t.putFlag p f v) := h.put hk _
theorem Only.putS (h : Only p b K s t) {f : Field} (hk : K f.key) (v : Int) : Only p b K s (t.putS p f v) := h.put hk _
theorem Only.bump (h : Only p b K s t) {f : Field} (hk : K f.key) (n : Nat) : Only p b K s (t.bump p f n) := h.put hk _

theorem Only.ite {u : State} {c : Prop} [Decidable c] (h : c → Only p b K s t) (k : ¬c → Only p b K s u) : Only p b K s (if c then t else u) := by
  split
  · exact h ‹_›
  · exact k ‹_›

theorem Only.foldl {α : Type} {f : State → α → State} (h : ∀ t x, Only p b K t (f t x)) (l : List α) (k : Only p b K s t) : Only p b K s (l.foldl f t) := by
  induction l generalizing t with
  | nil => exact k
  | cons x l ih => exact ih (k.trans (h _ x))

theorem Only.signal (h : Only .fd b K s t) (v : Nat) : Only .fd b K s (t.signal v) := by
  refine h.trans ?_
  unfold State.signal
  split <;> exact ⟨fun _ _ => rfl, rfl, fun _ => rfl, fun _ _ => rfl, rfl, rfl, fun _ => rfl, nofun, rfl, rfl, rfl, rfl, rfl⟩

theorem Only.signalRise (h : Only .fd b K s t) (v : Nat) (u : State) : Only .fd b K s (t.signalRise v u) := by
  unfold State.signalRise
  exact Only.ite (fun _ => h.signal v) fun _ => h

theorem Only.raise (h : Only p b K s t) {f : Field} (hk : K f.key) : Only p b K s (t.raise p f) := by
  unfold State.raise
  cases p with
  | fd => exact (h.put hk 1).signalRise _ _
  | sc =>
    have e : (t.put .sc f 1).signalRise 2 t = t.put .sc f 1 := by
      unfold State.signalRise
      rw [if_neg]
      have : (t.put .sc f 1).vectorCond 2 = t.vectorCond 2 := rfl
      rw [this]; simp
    rw [e]; exact h.put hk 1

theorem Only.hbarInt (h : Only .fd b K s t) {f : Field} (hk : K f.key) : Only .fd b K s (t.hbarInt f) := (h.put hk 1).signalRise _ _
theorem Only.rsvd (h : Only p b K s t) (hk : K (Rg.ALERT_RSVD_WRITE).key) : Only p b K s (t.rsvd p) := h.raise hk
theorem Only.faultAlert (h : Only p b K s t) (hk : K (Rg.ALERT_FAULT).key) : Only p b K s (t.faultAlert p) := h.raise hk

theorem Only.setArch (h : Only .fd b K s t) (a : Archive) : Only .fd b K s (t.setArch a) :=
  h.trans ⟨fun _ _ => rfl, rfl, fun _ => rfl, fun _ _ => rfl, rfl, rfl, fun _ => rfl, nofun, rfl, rfl, rfl, rfl, rfl⟩

theorem Only.setAtt (h : Only .sc b K s t) (d : DieAtt) (u : Die) (e : u = { t.die with att := d }) : Only .sc b K s (t.setDie u) := by
  subst e
  exact h.trans ⟨fun _ _ => rfl, rfl, fun _ => rfl, fun _ _ => rfl, rfl, rfl, nofun, fun _ => ⟨rfl, rfl⟩, rfl, rfl, rfl, rfl, rfl⟩

theorem Only.filterRec (h : Only .fd b K s t) (x : Rec) : Only .fd b K s (t.filterRec x).2 := by
  unfold State.filterRec
  split
  · exact h
  · split
    · exact h
    · split
      · exact h
      · split
        · exact h.setArch _
        · exact h

theorem Only.faults (h : Only p b K s t) (l : List FaultEv) : Only p b K s (t.setUnit p { t.unit p with faults := l }) := by
  refine h.trans ?_
  cases p
  · exact ⟨fun _ _ => rfl, rfl, fun _ => rfl, fun q hq => by cases q <;> first | rfl | exact absurd rfl hq, rfl, rfl, fun _ => rfl, nofun, rfl, rfl, rfl, rfl, rfl⟩
  · exact ⟨fun _ _ => rfl, rfl, fun _ => rfl, fun q hq => by cases q <;> first | rfl | exact absurd rfl hq, rfl, rfl, nofun, fun _ => ⟨rfl, rfl⟩, rfl, rfl, rfl, rfl, rfl⟩

theorem Only.ringPush (h : Only .fd b K s t) (hk : ∀ o, attKeys o → o ≠ Rg.SATT_DROP.key → K o) (x : Block) : Only .fd b K s (t.ringPush x) := by
  have k1 : K (Rg.ATT_HEAD_SEQ).key := hk _ (Or.inl rfl) (by decide)
  have k2 : K (Rg.ATT_ARCH_LOST).key := hk _ (Or.inr (Or.inl rfl)) (by decide)
  have k3 : K (Rg.ATT_ARCH_LOST_SEEN).key := hk _ (Or.inr (Or.inr (Or.inl rfl))) (by decide)
  unfold State.ringPush
  dsimp only
  split
  · exact (h.put k1 _).setArch _
  · split
    · exact h.put k1 _
    · split
      · exact (h.put k1 _).setArch _
      · split
        · exact (h.put k1 _).setArch _
        · exact (((h.put k1 _).setArch _).bump k2 _).put k3 _

theorem Only.closeBlock (h : Only .fd b K s t) (hk : ∀ o, attKeys o → o ≠ Rg.SATT_DROP.key → K o) : Only .fd b K s t.closeBlock := by
  unfold State.closeBlock
  split
  · exact h
  · exact (h.setArch _).ringPush hk _

theorem Only.blockAdd (h : Only .fd b K s t) (hk : ∀ o, attKeys o → o ≠ Rg.SATT_DROP.key → K o) (x : Rec) : Only .fd b K s (t.blockAdd x) := by
  unfold State.blockAdd
  dsimp only
  repeat' split
  all_goals first
    | exact ((h.closeBlock hk).setArch _).closeBlock hk
    | exact (h.closeBlock hk).setArch _
    | exact (h.setArch _).closeBlock hk
    | exact h.setArch _

theorem Only.chargeRec (h : Only .fd b K s t) (hk : ∀ o, attKeys o → o ≠ Rg.SATT_DROP.key → K o) (x : Rec) : Only .fd b K s (t.chargeRec x).2 := by
  unfold State.chargeRec
  dsimp only
  split
  · exact h
  · split
    · exact h.setArch _
    · exact h.bump (hk _ (Or.inr (Or.inr (Or.inr (Or.inr ⟨_, rfl⟩)))) (by simp only [Field.key, Rg.SATT_DROP, Rg.JM_ATT_DROP]; omega)) _

theorem Only.attTake (h : Only .fd b K s t) (hk : ∀ o, attKeys o → o ≠ Rg.SATT_DROP.key → K o) (x : Rec) : Only .fd b K s (t.attTake x) := by
  unfold State.attTake
  refine Only.ite (fun _ => h) fun _ => ?_
  have g := h.filterRec x
  revert g
  generalize t.filterRec x = r
  intro g
  refine Only.ite (fun _ => g) fun _ => ?_
  have k := g.chargeRec hk x
  revert k
  generalize r.2.chargeRec x = q
  intro k
  exact Only.ite (fun _ => k.blockAdd hk x) fun _ => k

/-- A fault event at the distributor leaves the field that shares its place with the step core's SATT_DROP. -/
theorem Only.faultLogFd (h : Only .fd b K s t) (hk : ∀ o, faultKeys o → o ≠ Rg.SATT_DROP.key → K o) (cls act obj : Nat) (conts : List Nat) (job : Option Nat) :
    Only .fd b K s (t.faultLog .fd cls act obj conts job) := by
  unfold State.faultLog State.record State.recordAt
  refine Only.attTake (Only.bump (Only.put (Only.put (Only.put (h.faults _) ?_ _) ?_ _) ?_ _) ?_ _) ?_ _
  · exact hk _ (Or.inl rfl) (by decide)
  · exact hk _ (Or.inr (Or.inl rfl)) (by decide)
  · exact hk _ (Or.inr (Or.inr (Or.inl rfl))) (by decide)
  · exact hk _ (Or.inr (Or.inr (Or.inr (Or.inl rfl)))) (by decide)
  · exact fun o ho => hk o (Or.inr (Or.inr (Or.inr (Or.inr (Or.inr ho)))))

theorem Only.dieTake (h : Only .sc b K s t) (hk : ∀ o, attKeys o → K o) (x : Rec) : Only .sc b K s (t.dieTake x) := by
  unfold State.dieTake
  exact Only.ite (fun _ => h.setAtt _ _ rfl) fun _ => Only.ite (fun _ => h.setAtt _ _ rfl)
    fun _ => (h.setAtt _ _ rfl).bump (hk _ (Or.inr (Or.inr (Or.inr (Or.inl rfl))))) _

theorem Only.recordAt (h : Only p b K s t) (hk : ∀ o, attKeys o → K o) (n : Nat) (x : Rec) : Only p b K s (t.recordAt p n x) := by
  unfold State.recordAt
  cases p with
  | fd => exact h.attTake (fun o ho _ => hk o ho) _
  | sc => exact h.dieTake hk _

theorem Only.record (h : Only p b K s t) (hk : ∀ o, attKeys o → K o) (x : Rec) : Only p b K s (t.record p x) := h.recordAt hk _ x

theorem Only.faultLog (h : Only p b K s t) (hk : ∀ o, faultKeys o → K o) (cls act obj : Nat) (conts : List Nat) (job : Option Nat) :
    Only p b K s (t.faultLog p cls act obj conts job) := by
  unfold State.faultLog
  refine Only.record (Only.bump (Only.put (Only.put (Only.put (h.faults _) ?_ _) ?_ _) ?_ _) ?_ _) ?_ _
  · exact hk _ (Or.inl rfl)
  · exact hk _ (Or.inr (Or.inl rfl))
  · exact hk _ (Or.inr (Or.inr (Or.inl rfl)))
  · exact hk _ (Or.inr (Or.inr (Or.inr (Or.inl rfl))))
  · exact fun o ho => hk o (Or.inr (Or.inr (Or.inr (Or.inr (Or.inr ho)))))

/-- The fields that START_STATUS takes from the stage. -/
def stageKeys (k : Nat) : Prop := k = (Rg.START_STAGE).key ∨ k = (Rg.START_STAGE1_MET).key ∨ k = (Rg.START_FULL).key ∨ k = (Rg.START_STAGE_MS).key

theorem Only.restage (h : Only p b K s t) (hk : ∀ k, stageKeys k → K k) : Only p b K s (t.restage p) := by
  unfold State.restage
  have k1 := hk _ (Or.inl rfl)
  have k2 := hk _ (Or.inr (Or.inl rfl))
  have k3 := hk _ (Or.inr (Or.inr (Or.inl rfl)))
  have k4 := hk _ (Or.inr (Or.inr (Or.inr rfl)))
  have g : ∀ m f v, Only p b K s (((t.put p Rg.START_STAGE (t.stageOf p)).putFlag p Rg.START_STAGE1_MET m).putFlag p Rg.START_FULL f)
      ∧ Only p b K s ((((t.put p Rg.START_STAGE (t.stageOf p)).putFlag p Rg.START_STAGE1_MET m).putFlag p Rg.START_FULL f).put p Rg.START_STAGE_MS v) :=
    fun m f v => ⟨((h.put k1 _).putFlag k2 _).putFlag k3 _, (((h.put k1 _).putFlag k2 _).putFlag k3 _).put k4 _⟩
  exact Only.ite (fun _ => (g _ _ 0).1) fun _ => (g _ _ _).2

/-- Where attendance's fields lie. -/
theorem attKeys_cases {k : Nat} (h : attKeys k) : k = 0x7000 * 32 + 16 ∨ 0x7024 * 32 ≤ k ∧ k ≤ 0x7030 * 32 ∨ 0x7208 * 32 ≤ k ∧ k < 0x7600 * 32 ∧ k % 512 = 256 := by
  rcases h with h | h | h | h | ⟨j, h⟩
  · exact Or.inr (Or.inl (by rw [h]; decide))
  · exact Or.inr (Or.inl (by rw [h]; decide))
  · exact Or.inr (Or.inl (by rw [h]; decide))
  · exact Or.inl (by rw [h]; decide)
  · have e : k = (0x7208 + 16 * (j % 64)) * 32 + 0 := h
    omega

theorem faultKeys_cases {k : Nat} (h : faultKeys k) : attKeys k ∨ k = 0x10 * 32 + 2 ∨ 0xC000 * 32 ≤ k ∧ k < 0xC010 * 32 := by
  rcases h with h | h | h | h | h | h
  · exact Or.inr (Or.inr (by rw [h]; decide))
  · exact Or.inr (Or.inr (by rw [h]; decide))
  · exact Or.inr (Or.inr (by rw [h]; decide))
  · exact Or.inr (Or.inr (by rw [h]; decide))
  · exact Or.inr (Or.inl (by rw [h]; decide))
  · exact Or.inl h

/-! A change of registers alone, whatever else changes: what a field reads outside the keys written. -/

theorem Regs.refl (K : Nat → Prop) (s : State) : Regs K s s := fun _ _ _ => rfl
theorem Regs.trans {K : Nat → Prop} {s t u : State} (h : Regs K s t) (k : Regs K t u) : Regs K s u := fun p f hf => (k p f hf).trans (h p f hf)
theorem Regs.of_regs (h : ∀ q, (t.unit q).regs = (s.unit q).regs) : Regs K s t := fun q f _ => by unfold State.get; rw [h q]
theorem Regs.same {u : State} (h : Regs K s t) (k : ∀ q, (u.unit q).regs = (t.unit q).regs) : Regs K s u := h.trans (Regs.of_regs k)
theorem Regs.of_only (h : Only p b K s t) : Regs K s t := fun q f hf => by
  by_cases e : q = p
  · subst e; exact h.get f hf
  · unfold State.get; rw [h.other q e]
theorem Regs.put {q : Part} (h : Regs K s t) {f : Field} (hk : K f.key) (v : Nat) : Regs K s (t.put q f v) := h.trans (Regs.of_only (Only.of_put q false hk v t))
theorem Regs.putFlag {q : Part} (h : Regs K s t) {f : Field} (hk : K f.key) (v : Bool) : Regs K s (t.putFlag q f v) := h.put hk _
theorem Regs.putS {q : Part} (h : Regs K s t) {f : Field} (hk : K f.key) (v : Int) : Regs K s (t.putS q f v) := h.put hk _
theorem Regs.bump {q : Part} (h : Regs K s t) {f : Field} (hk : K f.key) (n : Nat) : Regs K s (t.bump q f n) := h.put hk _
theorem Regs.ite {u : State} {c : Prop} [Decidable c] (h : c → Regs K s t) (k : ¬c → Regs K s u) : Regs K s (if c then t else u) := by
  split
  · exact h ‹_›
  · exact k ‹_›
theorem Regs.foldl {α : Type} {f : State → α → State} (h : ∀ t x, Regs K t (f t x)) (l : List α) (k : Regs K s t) : Regs K s (l.foldl f t) := by
  induction l generalizing t with
  | nil => exact k
  | cons x l ih => exact ih (k.trans (h _ x))
theorem Regs.raise {q : Part} (h : Regs K s t) {f : Field} (hk : K f.key) : Regs K s (t.raise q f) :=
  h.trans (Regs.of_only ((Only.refl q false K t).raise hk))
theorem Regs.recordAt {q : Part} (h : Regs K s t) (hk : ∀ o, attKeys o → K o) (n : Nat) (x : Rec) : Regs K s (t.recordAt q n x) :=
  h.trans (Regs.of_only ((Only.refl q false K t).recordAt hk n x))
theorem Regs.record {q : Part} (h : Regs K s t) (hk : ∀ o, attKeys o → K o) (x : Rec) : Regs K s (t.record q x) :=
  h.trans (Regs.of_only ((Only.refl q false K t).record hk x))
theorem Regs.faultLog {q : Part} (h : Regs K s t) (hk : ∀ o, faultKeys o → K o) (cls act obj : Nat) (conts : List Nat) (job : Option Nat) :
    Regs K s (t.faultLog q cls act obj conts job) := h.trans (Regs.of_only ((Only.refl q false K t).faultLog hk cls act obj conts job))
theorem Regs.faultAlert {q : Part} (h : Regs K s t) (hk : ∀ o, faultKeys o → K o) : Regs K s (t.faultAlert q) :=
  h.raise (hk _ (Or.inr (Or.inr (Or.inr (Or.inr (Or.inl rfl))))))
theorem Regs.restage {q : Part} (h : Regs K s t) (hk : ∀ k, stageKeys k → K k) : Regs K s (t.restage q) :=
  h.trans (Regs.of_only ((Only.refl q false K t).restage hk))
theorem Regs.setUnit {q : Part} (h : Regs K s t) (u : Common) (e : u.regs = (t.unit q).regs) : Regs K s (t.setUnit q u) :=
  h.same fun r => by cases q <;> cases r <;> first | rfl | exact e

theorem Only.clock (h : Only p b K s t) : (t.unit p).clock = (s.unit p).clock := by rw [h.unit]
theorem Only.fw (h : Only p b K s t) : (t.unit p).fw = (s.unit p).fw := by rw [h.unit]
theorem Only.start (h : Only p b K s t) : (t.unit p).start = (s.unit p).start := by rw [h.unit]
theorem Only.links (h : Only p b K s t) : (t.unit p).links = (s.unit p).links := by rw [h.unit]
theorem Only.emerg (h : Only p b K s t) : (t.unit p).emerg = (s.unit p).emerg := by rw [h.unit]
theorem Only.inbox (h : Only p b K s t) : (t.unit p).inbox = (s.unit p).inbox := by rw [h.unit]
theorem Only.tt (h : Only p b K s t) : (t.unit p).tt = (s.unit p).tt := by rw [h.unit]
theorem Only.tests (h : Only p b K s t) : (t.unit p).tests = (s.unit p).tests := by rw [h.unit]
theorem Only.timing (h : Only p b K s t) : (t.unit p).timing = (s.unit p).timing := by rw [h.unit]
theorem Only.tested (h : Only p b K s t) : (t.unit p).tested = (s.unit p).tested := by rw [h.unit]
theorem Only.lastDone (h : Only p b K s t) : (t.unit p).lastDone = (s.unit p).lastDone := by rw [h.unit]
theorem Only.ht (h : Only p b K s t) : t.ht p = s.ht p := by unfold State.ht; rw [h.clock]
theorem Only.now (h : Only p b K s t) : t.now = s.now := h.rest.1

/-- Any field at all. -/
def anyKey (_ : Nat) : Prop := True

end Sys2Proof
end

