-- ==== Sys2Proof/Laws/MbOnly.lean ====
section
/-! SUPPORT. Submission and completion of a mailbox command as changes of the mailboxes alone (R366). -/

namespace Sys2Proof

open Machine

theorem Only.setMail {p : Part} {K : Nat → Prop} {s t : State} (h : Only p true K s t) (box : Nat) (x : Mail) : Only p true K s (t.setMail p box x) := by
  refine h.trans ?_
  cases p
  · exact ⟨fun _ _ => rfl, rfl, nofun, fun q hq => by cases q <;> first | rfl | exact absurd rfl hq, rfl, rfl, fun _ => rfl, nofun, rfl, rfl, rfl, rfl, rfl⟩
  · exact ⟨fun _ _ => rfl, rfl, nofun, fun q hq => by cases q <;> first | rfl | exact absurd rfl hq, rfl, rfl, nofun, fun _ => ⟨rfl, rfl⟩, rfl, rfl, rfl, rfl, rfl⟩

variable {p : Part} {K : Nat → Prop} {s t : State}

theorem Only.mbSubmit {m : MbGo} (h : Only m.part true K s t) (hb : m.box < 8) (hk : ∀ k, mbKeys k → K k) (code : Nat) :
    Only m.part true K s (t.mbSubmit m code) := by
  have key : ∀ f : Field, 0x8800 * 32 ≤ f.key ∧ f.key < 0x8900 * 32 → K f.key := fun f e => hk _ e
  have g := (((((((h.setMail m.box { data := (t.mail m.part m.box).data.writeN 0 (m.args.take 256), wait := none }).put
    (f := Rg.MB_CODE m.box) (key _ (by simp [Field.key, Rg.MB_CODE]; omega)) code).put
    (f := Rg.MB_TAG m.box) (key _ (by simp [Field.key, Rg.MB_TAG]; omega)) m.tag).put
    (f := Rg.MB_ARG_LEN m.box) (key _ (by simp [Field.key, Rg.MB_ARG_LEN]; omega)) m.args.length).putFlag
    (f := Rg.MB_IRQ_EN m.box) (key _ (by simp [Field.key, Rg.MB_IRQ_EN]; omega)) m.irq).putFlag
    (f := Rg.MB_DMA_RESULT m.box) (key _ (by simp [Field.key, Rg.MB_DMA_RESULT]; omega)) m.dma).put
    (f := Rg.MB_DONE m.box) (key _ (by simp [Field.key, Rg.MB_DONE]; omega)) 0).put
    (f := Rg.MB_OWNED m.box) (key _ (by simp [Field.key, Rg.MB_OWNED]; omega)) 1
  unfold State.mbSubmit
  dsimp only
  split
  · rename_i e
    obtain ⟨q, _, _, _, _, _, _⟩ := m
    simp only [Bool.and_eq_true, decide_eq_true_eq] at e
    obtain ⟨e, -⟩ := e
    subst e
    exact g.signal 0
  · exact g

theorem Only.mbDone (h : Only p true K s t) {box : Nat} (hb : box < 8) (hk : ∀ k, mbKeys k → K k) (tag : Nat) (irq : Bool) (status detail : Nat) (area : List Byte)
    (total : Nat) : Only p true K s (t.mbDone p box tag irq status detail area total) := by
  have key : ∀ f : Field, 0x8800 * 32 ≤ f.key ∧ f.key < 0x8900 * 32 → K f.key := fun f e => hk _ e
  have g := (((((((h.setMail box { data := (t.mail p box).data.writeN 0 area, wait := none }).put
    (f := Rg.MB_STATUS box) (key _ (by simp [Field.key, Rg.MB_STATUS]; omega)) status).put
    (f := Rg.MB_STAG box) (key _ (by simp [Field.key, Rg.MB_STAG]; omega)) tag).put
    (f := Rg.MB_RESULT_LEN box) (key _ (by simp [Field.key, Rg.MB_RESULT_LEN]; omega)) area.length).put
    (f := Rg.MB_DETAIL box) (key _ (by simp [Field.key, Rg.MB_DETAIL]; omega)) detail).put
    (f := Rg.MB_RESULT_TOTAL box) (key _ (by simp [Field.key, Rg.MB_RESULT_TOTAL]; omega)) total).put
    (f := Rg.MB_DONE box) (key _ (by simp [Field.key, Rg.MB_DONE]; omega)) 1).put
    (f := Rg.MB_OWNED box) (key _ (by simp [Field.key, Rg.MB_OWNED]; omega)) 0
  unfold State.mbDone
  dsimp only
  split
  · rename_i e
    simp only [Bool.and_eq_true, decide_eq_true_eq] at e
    obtain ⟨-, e⟩ := e
    subst e
    exact g.signal 0
  · exact g

theorem Only.mbAnswer_ok (h : Only p true K s t) {box : Nat} (hb : box < 8) (hk : ∀ k, mbKeys k → K k) (code tag : Nat) (irq dma : Bool) (fixed : List (Nat × Nat)) :
    Only p true K s (t.mbAnswer p box code tag irq dma (.ok fixed)) := h.mbDone hb hk ..

theorem offMb_iff (f : Field) : OffMb f ↔ ¬ mbKeys f.key := by unfold OffMb mbKeys; omega

/-- A command that is ready and whose body answers fixed fields without changing anything: its answer, and nothing else. -/
theorem reader_ok {m : MbGo} {owner need : Nat} {s : State} {sig : List Nat} {jobArg : Option Nat}
    (h : MbReady m owner (jobArg.map fun i => (parseFields m.args 0 sig).getD i 0) need s) (hn : layoutEnd 0 sig = need) (code : Nat)
    (body : List Nat → State → MbOut × State) (fixed : List (Nat × Nat)) (hb : body (parseFields m.args 0 sig) (s.mbSubmit m code) = (.ok fixed, s.mbSubmit m code)) :
    Result m (packFields 0 fixed) s (s.mailbox m code (some owner) sig jobArg body)
      ∧ Only m.part true mbKeys s (s.mailbox m code (some owner) sig jobArg body) := by
  rw [mailbox_ready h hn, hb]
  exact ⟨result_ok m code fixed s _ rfl, ((Only.refl _ _ _ s).mbSubmit h.box (fun _ x => x) code).mbAnswer_ok h.box (fun _ x => x) ..⟩

/-- A reader that answers bytes. -/
theorem bytes_ok {m : MbGo} {owner need : Nat} {s : State} {sig : List Nat} {jobArg : Option Nat}
    (h : MbReady m owner (jobArg.map fun i => (parseFields m.args 0 sig).getD i 0) need s) (hn : layoutEnd 0 sig = need) (code : Nat)
    (body : List Nat → State → MbOut × State) (x : List Byte) (hb : body (parseFields m.args 0 sig) (s.mbSubmit m code) = (.bytes x, s.mbSubmit m code)) :
    Result m (x.take 256) s (s.mailbox m code (some owner) sig jobArg body)
      ∧ Only m.part true mbKeys s (s.mailbox m code (some owner) sig jobArg body) := by
  rw [mailbox_ready h hn, hb]
  refine ⟨⟨mbDone_answer _ _ _ _ (by decide) _ _ _ _, ?_, len_mbDone ..⟩, ((Only.refl _ _ _ s).mbSubmit h.box (fun _ x => x) code).mbDone h.box (fun _ x => x) ..⟩
  show (((s.mbSubmit m code).mbDone m.part m.box m.tag m.irq 0 0 _ _).mail m.part m.box).data = _
  rw [mail_mbDone, mail_mbSubmit]

/-- A reader that answers a list, without DMA. -/
theorem list_ok {m : MbGo} {owner need : Nat} {s : State} {sig : List Nat} {jobArg : Option Nat}
    (h : MbReady m owner (jobArg.map fun i => (parseFields m.args 0 sig).getD i 0) need s) (hn : layoutEnd 0 sig = need) (hd : m.dma = false) (code : Nat)
    (body : List Nat → State → MbOut × State) (fixed : List (Nat × Nat)) (entries : List (List (Nat × Nat)))
    (hb : body (parseFields m.args 0 sig) (s.mbSubmit m code) = (.list fixed entries, s.mbSubmit m code)) :
    Result m (listArea fixed entries) s (s.mailbox m code (some owner) sig jobArg body)
      ∧ Only m.part true mbKeys s (s.mailbox m code (some owner) sig jobArg body) := by
  rw [mailbox_ready h hn, hb]
  unfold State.mbAnswer State.mbList
  simp only [hd, Bool.false_eq_true, if_false]
  refine ⟨⟨mbDone_answer _ _ _ _ (by decide) _ _ _ _, ?_, len_mbDone ..⟩, ((Only.refl _ _ _ s).mbSubmit h.box (fun _ x => x) code).mbDone h.box (fun _ x => x) ..⟩
  rw [mail_mbDone, mail_mbSubmit]
  rfl

/-- A reader that answers a list, with or without DMA. -/
theorem list_any {m : MbGo} {owner need : Nat} {s : State} {sig : List Nat} {jobArg : Option Nat}
    (h : MbReady m owner (jobArg.map fun i => (parseFields m.args 0 sig).getD i 0) need s) (hn : layoutEnd 0 sig = need) (code : Nat)
    (body : List Nat → State → MbOut × State) (fixed : List (Nat × Nat)) (entries : List (List (Nat × Nat)))
    (hb : body (parseFields m.args 0 sig) (s.mbSubmit m code) = (.list fixed entries, s.mbSubmit m code)) :
    Listed m fixed entries s (s.mailbox m code (some owner) sig jobArg body) := by
  unfold Listed
  split
  · rename_i hd
    rw [mailbox_ready h hn, hb]
    unfold State.mbAnswer State.mbList
    simp only [hd, if_true]
    have ra : (s.mbSubmit m code).get m.part (Rg.MB_RESULT_ADDR_LO m.box) = s.get m.part (Rg.MB_RESULT_ADDR_LO m.box) ∧ (s.mbSubmit m code).get m.part (Rg.MB_RESULT_ADDR_HI m.box) = s.get m.part (Rg.MB_RESULT_ADDR_HI m.box) := by
      have k : ∀ (g : Field) (v : Nat) (t : State) (f : Field), f.key ≠ g.key → (t.put m.part g v).get m.part f = t.get m.part f := fun g v t f hf => State.get_put_ne m.part hf v t
      have q : ∀ f : Field, f.key ≠ (Rg.MB_CODE m.box).key → f.key ≠ (Rg.MB_TAG m.box).key → f.key ≠ (Rg.MB_ARG_LEN m.box).key → f.key ≠ (Rg.MB_IRQ_EN m.box).key →
          f.key ≠ (Rg.MB_DMA_RESULT m.box).key → f.key ≠ (Rg.MB_DONE m.box).key → f.key ≠ (Rg.MB_OWNED m.box).key → (s.mbSubmit m code).get m.part f = s.get m.part f := by
        intro f a1 a2 a3 a4 a5 a6 a7
        unfold State.mbSubmit State.putFlag
        dsimp only
        split <;> (try rw [State.get_signal]) <;> rw [k _ _ _ _ a7, k _ _ _ _ a6, k _ _ _ _ a5, k _ _ _ _ a4, k _ _ _ _ a3, k _ _ _ _ a2, k _ _ _ _ a1] <;> (unfold State.setMail; rw [State.get_setSlate])
      constructor <;> apply q <;> (simp [Field.key, Rg.MB_RESULT_ADDR_LO, Rg.MB_RESULT_ADDR_HI, Rg.MB_CODE, Rg.MB_TAG, Rg.MB_ARG_LEN, Rg.MB_IRQ_EN, Rg.MB_DMA_RESULT, Rg.MB_DONE, Rg.MB_OWNED]; try omega)
    refine ⟨mbDone_answer _ _ _ _ (by decide) _ _ _ _, ?_, ?_⟩
    · rw [mail_mbDone]
      have : ∀ p a b (u : State), (u.dmaWrite p a b).mail m.part m.box = u.mail m.part m.box := by intro p a b u; cases p <;> (unfold State.mail; cases m.part <;> rfl)
      dsimp only; rw [this, mail_mbSubmit]
    · rw [ra.1, ra.2]
      cases hp : m.part <;> simp [State.dma, State.dmaWrite]
  · rename_i hd
    exact list_ok h hn (by simpa using hd) code body fixed entries hb

end Sys2Proof
end

