-- ==== Sys2Proof/Laws/Setters.lean ====
section
/-! SUPPORT. The setters of one component: no register and no other component changes. -/

namespace Sys2Proof.Machine

open Sys2Proof

@[simp] theorem State.get_setRef (p : Part) (f : Field) (x : RefIn) (a : RefSt) (s : State) : (s.setRef x a).get p f = s.get p f := by cases x <;> cases p <;> rfl
@[simp] theorem State.unit_setRef (p : Part) (x : RefIn) (a : RefSt) (s : State) : (s.setRef x a).unit p = s.unit p := by cases x <;> cases p <;> rfl
@[simp] theorem State.setRef_now (x : RefIn) (a : RefSt) (s : State) : (s.setRef x a).now = s.now := by cases x <;> rfl
@[simp] theorem State.setRef_free (x : RefIn) (a : RefSt) (s : State) : (s.setRef x a).free = s.free := by cases x <;> rfl
@[simp] theorem State.setRef_pending (x : RefIn) (a : RefSt) (s : State) : (s.setRef x a).pending = s.pending := by cases x <;> rfl
@[simp] theorem State.setRef_dieMem (x : RefIn) (a : RefSt) (s : State) : (s.setRef x a).dieMem = s.dieMem := by cases x <;> rfl
@[simp] theorem State.setRef_hostMem (x : RefIn) (a : RefSt) (s : State) : (s.setRef x a).hostMem = s.hostMem := by cases x <;> rfl
@[simp] theorem State.setRef_msix (x : RefIn) (a : RefSt) (s : State) : (s.setRef x a).msix = s.msix := by cases x <;> rfl
@[simp] theorem State.setRef_die (x : RefIn) (a : RefSt) (s : State) : (s.setRef x a).die = s.die := by cases x <;> rfl
@[simp] theorem State.get_setHold (p : Part) (f : Field) (a : HoldSt) (s : State) : (s.setHold a).get p f = s.get p f := by cases p <;> rfl
@[simp] theorem State.unit_setHold (p : Part) (a : HoldSt) (s : State) : (s.setHold a).unit p = s.unit p := by cases p <;> rfl
@[simp] theorem State.setHold_now (a : HoldSt) (s : State) : (s.setHold a).now = s.now := by rfl
@[simp] theorem State.setHold_free (a : HoldSt) (s : State) : (s.setHold a).free = s.free := by rfl
@[simp] theorem State.setHold_pending (a : HoldSt) (s : State) : (s.setHold a).pending = s.pending := by rfl
@[simp] theorem State.setHold_dieMem (a : HoldSt) (s : State) : (s.setHold a).dieMem = s.dieMem := by rfl
@[simp] theorem State.setHold_hostMem (a : HoldSt) (s : State) : (s.setHold a).hostMem = s.hostMem := by rfl
@[simp] theorem State.setHold_msix (a : HoldSt) (s : State) : (s.setHold a).msix = s.msix := by rfl
@[simp] theorem State.setHold_die (a : HoldSt) (s : State) : (s.setHold a).die = s.die := by rfl
@[simp] theorem State.get_setOut (p : Part) (f : Field) (n : Nat) (a : OutSt) (s : State) : (s.setOut n a).get p f = s.get p f := by cases p <;> rfl
@[simp] theorem State.unit_setOut (p : Part) (n : Nat) (a : OutSt) (s : State) : (s.setOut n a).unit p = s.unit p := by cases p <;> rfl
@[simp] theorem State.setOut_now (n : Nat) (a : OutSt) (s : State) : (s.setOut n a).now = s.now := by rfl
@[simp] theorem State.setOut_free (n : Nat) (a : OutSt) (s : State) : (s.setOut n a).free = s.free := by rfl
@[simp] theorem State.setOut_pending (n : Nat) (a : OutSt) (s : State) : (s.setOut n a).pending = s.pending := by rfl
@[simp] theorem State.setOut_dieMem (n : Nat) (a : OutSt) (s : State) : (s.setOut n a).dieMem = s.dieMem := by rfl
@[simp] theorem State.setOut_hostMem (n : Nat) (a : OutSt) (s : State) : (s.setOut n a).hostMem = s.hostMem := by rfl
@[simp] theorem State.setOut_msix (n : Nat) (a : OutSt) (s : State) : (s.setOut n a).msix = s.msix := by rfl
@[simp] theorem State.setOut_die (n : Nat) (a : OutSt) (s : State) : (s.setOut n a).die = s.die := by rfl
@[simp] theorem State.get_setMains (p : Part) (f : Field) (a : MainsSt) (s : State) : (s.setMains a).get p f = s.get p f := by cases p <;> rfl
@[simp] theorem State.unit_setMains (p : Part) (a : MainsSt) (s : State) : (s.setMains a).unit p = s.unit p := by cases p <;> rfl
@[simp] theorem State.setMains_now (a : MainsSt) (s : State) : (s.setMains a).now = s.now := by rfl
@[simp] theorem State.setMains_free (a : MainsSt) (s : State) : (s.setMains a).free = s.free := by rfl
@[simp] theorem State.setMains_pending (a : MainsSt) (s : State) : (s.setMains a).pending = s.pending := by rfl
@[simp] theorem State.setMains_dieMem (a : MainsSt) (s : State) : (s.setMains a).dieMem = s.dieMem := by rfl
@[simp] theorem State.setMains_hostMem (a : MainsSt) (s : State) : (s.setMains a).hostMem = s.hostMem := by rfl
@[simp] theorem State.setMains_msix (a : MainsSt) (s : State) : (s.setMains a).msix = s.msix := by rfl
@[simp] theorem State.setMains_die (a : MainsSt) (s : State) : (s.setMains a).die = s.die := by rfl
@[simp] theorem State.get_setPower (p : Part) (f : Field) (a : PowerSt) (s : State) : (s.setPower a).get p f = s.get p f := by cases p <;> rfl
@[simp] theorem State.unit_setPower (p : Part) (a : PowerSt) (s : State) : (s.setPower a).unit p = s.unit p := by cases p <;> rfl
@[simp] theorem State.setPower_now (a : PowerSt) (s : State) : (s.setPower a).now = s.now := by rfl
@[simp] theorem State.setPower_free (a : PowerSt) (s : State) : (s.setPower a).free = s.free := by rfl
@[simp] theorem State.setPower_pending (a : PowerSt) (s : State) : (s.setPower a).pending = s.pending := by rfl
@[simp] theorem State.setPower_dieMem (a : PowerSt) (s : State) : (s.setPower a).dieMem = s.dieMem := by rfl
@[simp] theorem State.setPower_hostMem (a : PowerSt) (s : State) : (s.setPower a).hostMem = s.hostMem := by rfl
@[simp] theorem State.setPower_msix (a : PowerSt) (s : State) : (s.setPower a).msix = s.msix := by rfl
@[simp] theorem State.setPower_die (a : PowerSt) (s : State) : (s.setPower a).die = s.die := by rfl
@[simp] theorem State.get_setPj (p : Part) (f : Field) (j : Nat) (a : JobPwr) (s : State) : (s.setPj j a).get p f = s.get p f := by cases p <;> rfl
@[simp] theorem State.unit_setPj (p : Part) (j : Nat) (a : JobPwr) (s : State) : (s.setPj j a).unit p = s.unit p := by cases p <;> rfl
@[simp] theorem State.setPj_now (j : Nat) (a : JobPwr) (s : State) : (s.setPj j a).now = s.now := by rfl
@[simp] theorem State.setPj_free (j : Nat) (a : JobPwr) (s : State) : (s.setPj j a).free = s.free := by rfl
@[simp] theorem State.setPj_pending (j : Nat) (a : JobPwr) (s : State) : (s.setPj j a).pending = s.pending := by rfl
@[simp] theorem State.setPj_dieMem (j : Nat) (a : JobPwr) (s : State) : (s.setPj j a).dieMem = s.dieMem := by rfl
@[simp] theorem State.setPj_hostMem (j : Nat) (a : JobPwr) (s : State) : (s.setPj j a).hostMem = s.hostMem := by rfl
@[simp] theorem State.setPj_msix (j : Nat) (a : JobPwr) (s : State) : (s.setPj j a).msix = s.msix := by rfl
@[simp] theorem State.setPj_die (j : Nat) (a : JobPwr) (s : State) : (s.setPj j a).die = s.die := by rfl
@[simp] theorem State.get_setJob (p : Part) (f : Field) (j : Nat) (a : Job) (s : State) : (s.setJob j a).get p f = s.get p f := by cases p <;> rfl
@[simp] theorem State.unit_setJob (p : Part) (j : Nat) (a : Job) (s : State) : (s.setJob j a).unit p = s.unit p := by cases p <;> rfl
@[simp] theorem State.setJob_now (j : Nat) (a : Job) (s : State) : (s.setJob j a).now = s.now := by rfl
@[simp] theorem State.setJob_free (j : Nat) (a : Job) (s : State) : (s.setJob j a).free = s.free := by rfl
@[simp] theorem State.setJob_pending (j : Nat) (a : Job) (s : State) : (s.setJob j a).pending = s.pending := by rfl
@[simp] theorem State.setJob_dieMem (j : Nat) (a : Job) (s : State) : (s.setJob j a).dieMem = s.dieMem := by rfl
@[simp] theorem State.setJob_hostMem (j : Nat) (a : Job) (s : State) : (s.setJob j a).hostMem = s.hostMem := by rfl
@[simp] theorem State.setJob_msix (j : Nat) (a : Job) (s : State) : (s.setJob j a).msix = s.msix := by rfl
@[simp] theorem State.setJob_die (j : Nat) (a : Job) (s : State) : (s.setJob j a).die = s.die := by rfl
@[simp] theorem State.get_setSlot (p : Part) (f : Field) (h : Nat) (a : HSlot) (s : State) : (s.setSlot h a).get p f = s.get p f := by cases p <;> rfl
@[simp] theorem State.unit_setSlot (p : Part) (h : Nat) (a : HSlot) (s : State) : (s.setSlot h a).unit p = s.unit p := by cases p <;> rfl
@[simp] theorem State.setSlot_now (h : Nat) (a : HSlot) (s : State) : (s.setSlot h a).now = s.now := by rfl
@[simp] theorem State.setSlot_free (h : Nat) (a : HSlot) (s : State) : (s.setSlot h a).free = s.free := by rfl
@[simp] theorem State.setSlot_pending (h : Nat) (a : HSlot) (s : State) : (s.setSlot h a).pending = s.pending := by rfl
@[simp] theorem State.setSlot_dieMem (h : Nat) (a : HSlot) (s : State) : (s.setSlot h a).dieMem = s.dieMem := by rfl
@[simp] theorem State.setSlot_hostMem (h : Nat) (a : HSlot) (s : State) : (s.setSlot h a).hostMem = s.hostMem := by rfl
@[simp] theorem State.setSlot_msix (h : Nat) (a : HSlot) (s : State) : (s.setSlot h a).msix = s.msix := by rfl
@[simp] theorem State.setSlot_die (h : Nat) (a : HSlot) (s : State) : (s.setSlot h a).die = s.die := by rfl
@[simp] theorem State.get_setPipe (p : Part) (f : Field) (i : Nat) (a : Pipe) (s : State) : (s.setPipe i a).get p f = s.get p f := by cases p <;> rfl
@[simp] theorem State.unit_setPipe (p : Part) (i : Nat) (a : Pipe) (s : State) : (s.setPipe i a).unit p = s.unit p := by cases p <;> rfl
@[simp] theorem State.setPipe_now (i : Nat) (a : Pipe) (s : State) : (s.setPipe i a).now = s.now := by rfl
@[simp] theorem State.setPipe_free (i : Nat) (a : Pipe) (s : State) : (s.setPipe i a).free = s.free := by rfl
@[simp] theorem State.setPipe_pending (i : Nat) (a : Pipe) (s : State) : (s.setPipe i a).pending = s.pending := by rfl
@[simp] theorem State.setPipe_dieMem (i : Nat) (a : Pipe) (s : State) : (s.setPipe i a).dieMem = s.dieMem := by rfl
@[simp] theorem State.setPipe_hostMem (i : Nat) (a : Pipe) (s : State) : (s.setPipe i a).hostMem = s.hostMem := by rfl
@[simp] theorem State.setPipe_msix (i : Nat) (a : Pipe) (s : State) : (s.setPipe i a).msix = s.msix := by rfl
@[simp] theorem State.setPipe_die (i : Nat) (a : Pipe) (s : State) : (s.setPipe i a).die = s.die := by rfl
@[simp] theorem State.get_setDist (p : Part) (f : Field) (a : Dist) (s : State) : (s.setDist a).get p f = s.get p f := by cases p <;> rfl
@[simp] theorem State.unit_setDist (p : Part) (a : Dist) (s : State) : (s.setDist a).unit p = s.unit p := by cases p <;> rfl
@[simp] theorem State.setDist_now (a : Dist) (s : State) : (s.setDist a).now = s.now := by rfl
@[simp] theorem State.setDist_free (a : Dist) (s : State) : (s.setDist a).free = s.free := by rfl
@[simp] theorem State.setDist_pending (a : Dist) (s : State) : (s.setDist a).pending = s.pending := by rfl
@[simp] theorem State.setDist_dieMem (a : Dist) (s : State) : (s.setDist a).dieMem = s.dieMem := by rfl
@[simp] theorem State.setDist_hostMem (a : Dist) (s : State) : (s.setDist a).hostMem = s.hostMem := by rfl
@[simp] theorem State.setDist_msix (a : Dist) (s : State) : (s.setDist a).msix = s.msix := by rfl
@[simp] theorem State.setDist_die (a : Dist) (s : State) : (s.setDist a).die = s.die := by rfl
@[simp] theorem State.unit_setSb (p : Part) (a : StudBook) (s : State) : (s.setSb a).unit p = s.unit p := by cases p <;> rfl
@[simp] theorem State.setSb_now (a : StudBook) (s : State) : (s.setSb a).now = s.now := by rfl
@[simp] theorem State.setSb_free (a : StudBook) (s : State) : (s.setSb a).free = s.free := by rfl
@[simp] theorem State.setSb_pending (a : StudBook) (s : State) : (s.setSb a).pending = s.pending := by rfl
@[simp] theorem State.setSb_dieMem (a : StudBook) (s : State) : (s.setSb a).dieMem = s.dieMem := by rfl
@[simp] theorem State.setSb_hostMem (a : StudBook) (s : State) : (s.setSb a).hostMem = s.hostMem := by rfl
@[simp] theorem State.setSb_msix (a : StudBook) (s : State) : (s.setSb a).msix = s.msix := by rfl
@[simp] theorem State.setSb_die (a : StudBook) (s : State) : (s.setSb a).die = s.die := by rfl
@[simp] theorem State.unit_setHall (p : Part) (a : HallSt) (s : State) : (s.setHall a).unit p = s.unit p := by cases p <;> rfl
@[simp] theorem State.setHall_now (a : HallSt) (s : State) : (s.setHall a).now = s.now := by rfl
@[simp] theorem State.setHall_free (a : HallSt) (s : State) : (s.setHall a).free = s.free := by rfl
@[simp] theorem State.setHall_pending (a : HallSt) (s : State) : (s.setHall a).pending = s.pending := by rfl
@[simp] theorem State.setHall_dieMem (a : HallSt) (s : State) : (s.setHall a).dieMem = s.dieMem := by rfl
@[simp] theorem State.setHall_hostMem (a : HallSt) (s : State) : (s.setHall a).hostMem = s.hostMem := by rfl
@[simp] theorem State.setHall_msix (a : HallSt) (s : State) : (s.setHall a).msix = s.msix := by rfl
@[simp] theorem State.setHall_die (a : HallSt) (s : State) : (s.setHall a).die = s.die := by rfl
@[simp] theorem State.unit_setArch (p : Part) (a : Archive) (s : State) : (s.setArch a).unit p = s.unit p := by cases p <;> rfl
@[simp] theorem State.setArch_now (a : Archive) (s : State) : (s.setArch a).now = s.now := by rfl
@[simp] theorem State.setArch_free (a : Archive) (s : State) : (s.setArch a).free = s.free := by rfl
@[simp] theorem State.setArch_pending (a : Archive) (s : State) : (s.setArch a).pending = s.pending := by rfl
@[simp] theorem State.setArch_dieMem (a : Archive) (s : State) : (s.setArch a).dieMem = s.dieMem := by rfl
@[simp] theorem State.setArch_hostMem (a : Archive) (s : State) : (s.setArch a).hostMem = s.hostMem := by rfl
@[simp] theorem State.setArch_msix (a : Archive) (s : State) : (s.setArch a).msix = s.msix := by rfl
@[simp] theorem State.setArch_die (a : Archive) (s : State) : (s.setArch a).die = s.die := by rfl
@[simp] theorem State.unit_setSpare (p : Part) (a : SpareSt) (s : State) : (s.setSpare a).unit p = s.unit p := by cases p <;> rfl
@[simp] theorem State.setSpare_now (a : SpareSt) (s : State) : (s.setSpare a).now = s.now := by rfl
@[simp] theorem State.setSpare_free (a : SpareSt) (s : State) : (s.setSpare a).free = s.free := by rfl
@[simp] theorem State.setSpare_pending (a : SpareSt) (s : State) : (s.setSpare a).pending = s.pending := by rfl
@[simp] theorem State.setSpare_dieMem (a : SpareSt) (s : State) : (s.setSpare a).dieMem = s.dieMem := by rfl
@[simp] theorem State.setSpare_hostMem (a : SpareSt) (s : State) : (s.setSpare a).hostMem = s.hostMem := by rfl
@[simp] theorem State.setSpare_msix (a : SpareSt) (s : State) : (s.setSpare a).msix = s.msix := by rfl
@[simp] theorem State.setSpare_die (a : SpareSt) (s : State) : (s.setSpare a).die = s.die := by rfl
@[simp] theorem State.get_setStn (p : Part) (f : Field) (n : Nat) (a : Station) (s : State) : (s.setStn n a).get p f = s.get p f := by cases p <;> rfl
@[simp] theorem State.unit_setStn (p : Part) (n : Nat) (a : Station) (s : State) : (s.setStn n a).unit p = s.unit p := by cases p <;> rfl
@[simp] theorem State.setStn_now (n : Nat) (a : Station) (s : State) : (s.setStn n a).now = s.now := by rfl
@[simp] theorem State.setStn_free (n : Nat) (a : Station) (s : State) : (s.setStn n a).free = s.free := by rfl
@[simp] theorem State.setStn_pending (n : Nat) (a : Station) (s : State) : (s.setStn n a).pending = s.pending := by rfl
@[simp] theorem State.setStn_dieMem (n : Nat) (a : Station) (s : State) : (s.setStn n a).dieMem = s.dieMem := by rfl
@[simp] theorem State.setStn_hostMem (n : Nat) (a : Station) (s : State) : (s.setStn n a).hostMem = s.hostMem := by rfl
@[simp] theorem State.setStn_msix (n : Nat) (a : Station) (s : State) : (s.setStn n a).msix = s.msix := by rfl
@[simp] theorem State.setStn_dist (n : Nat) (a : Station) (s : State) : (s.setStn n a).dist = s.dist := by rfl
@[simp] theorem State.get_setOpp (p : Part) (f : Field) (a : OppSt) (s : State) : (s.setOpp a).get p f = s.get p f := by cases p <;> rfl
@[simp] theorem State.unit_setOpp (p : Part) (a : OppSt) (s : State) : (s.setOpp a).unit p = s.unit p := by cases p <;> rfl
@[simp] theorem State.setOpp_now (a : OppSt) (s : State) : (s.setOpp a).now = s.now := by rfl
@[simp] theorem State.setOpp_free (a : OppSt) (s : State) : (s.setOpp a).free = s.free := by rfl
@[simp] theorem State.setOpp_pending (a : OppSt) (s : State) : (s.setOpp a).pending = s.pending := by rfl
@[simp] theorem State.setOpp_dieMem (a : OppSt) (s : State) : (s.setOpp a).dieMem = s.dieMem := by rfl
@[simp] theorem State.setOpp_hostMem (a : OppSt) (s : State) : (s.setOpp a).hostMem = s.hostMem := by rfl
@[simp] theorem State.setOpp_msix (a : OppSt) (s : State) : (s.setOpp a).msix = s.msix := by rfl
@[simp] theorem State.setOpp_dist (a : OppSt) (s : State) : (s.setOpp a).dist = s.dist := by rfl
@[simp] theorem State.get_setSync (p : Part) (f : Field) (a : SyncSt) (s : State) : (s.setSync a).get p f = s.get p f := by cases p <;> rfl
@[simp] theorem State.unit_setSync (p : Part) (a : SyncSt) (s : State) : (s.setSync a).unit p = s.unit p := by cases p <;> rfl
@[simp] theorem State.setSync_now (a : SyncSt) (s : State) : (s.setSync a).now = s.now := by rfl
@[simp] theorem State.setSync_free (a : SyncSt) (s : State) : (s.setSync a).free = s.free := by rfl
@[simp] theorem State.setSync_pending (a : SyncSt) (s : State) : (s.setSync a).pending = s.pending := by rfl
@[simp] theorem State.setSync_dieMem (a : SyncSt) (s : State) : (s.setSync a).dieMem = s.dieMem := by rfl
@[simp] theorem State.setSync_hostMem (a : SyncSt) (s : State) : (s.setSync a).hostMem = s.hostMem := by rfl
@[simp] theorem State.setSync_msix (a : SyncSt) (s : State) : (s.setSync a).msix = s.msix := by rfl
@[simp] theorem State.setSync_dist (a : SyncSt) (s : State) : (s.setSync a).dist = s.dist := by rfl
@[simp] theorem State.get_setMon (p : Part) (f : Field) (c : Nat) (a : MonCtx) (s : State) : (s.setMon c a).get p f = s.get p f := by cases p <;> rfl
@[simp] theorem State.unit_setMon (p : Part) (c : Nat) (a : MonCtx) (s : State) : (s.setMon c a).unit p = s.unit p := by cases p <;> rfl
@[simp] theorem State.setMon_now (c : Nat) (a : MonCtx) (s : State) : (s.setMon c a).now = s.now := by rfl
@[simp] theorem State.setMon_free (c : Nat) (a : MonCtx) (s : State) : (s.setMon c a).free = s.free := by rfl
@[simp] theorem State.setMon_pending (c : Nat) (a : MonCtx) (s : State) : (s.setMon c a).pending = s.pending := by rfl
@[simp] theorem State.setMon_dieMem (c : Nat) (a : MonCtx) (s : State) : (s.setMon c a).dieMem = s.dieMem := by rfl
@[simp] theorem State.setMon_hostMem (c : Nat) (a : MonCtx) (s : State) : (s.setMon c a).hostMem = s.hostMem := by rfl
@[simp] theorem State.setMon_msix (c : Nat) (a : MonCtx) (s : State) : (s.setMon c a).msix = s.msix := by rfl
@[simp] theorem State.setMon_dist (c : Nat) (a : MonCtx) (s : State) : (s.setMon c a).dist = s.dist := by rfl
@[simp] theorem State.get_setDie (p : Part) (f : Field) (a : Die) (s : State) : (s.setDie a).get p f = s.get p f := by cases p <;> rfl
@[simp] theorem State.unit_setDie (p : Part) (a : Die) (s : State) : (s.setDie a).unit p = s.unit p := by cases p <;> rfl
@[simp] theorem State.setDie_now (a : Die) (s : State) : (s.setDie a).now = s.now := by rfl
@[simp] theorem State.setDie_free (a : Die) (s : State) : (s.setDie a).free = s.free := by rfl
@[simp] theorem State.setDie_pending (a : Die) (s : State) : (s.setDie a).pending = s.pending := by rfl
@[simp] theorem State.setDie_dieMem (a : Die) (s : State) : (s.setDie a).dieMem = s.dieMem := by rfl
@[simp] theorem State.setDie_hostMem (a : Die) (s : State) : (s.setDie a).hostMem = s.hostMem := by rfl
@[simp] theorem State.setDie_msix (a : Die) (s : State) : (s.setDie a).msix = s.msix := by rfl
@[simp] theorem State.setDie_dist (a : Die) (s : State) : (s.setDie a).dist = s.dist := by rfl
@[simp] theorem State.get_setMail (p q : Part) (f : Field) (b : Nat) (x : Mail) (s : State) : (s.setMail q b x).get p f = s.get p f := by cases p <;> cases q <;> rfl
@[simp] theorem State.get_setPref (p q : Part) (f : Field) (b : Nat) (x : Prefect) (s : State) : (s.setPref q b x).get p f = s.get p f := by cases p <;> cases q <;> rfl
@[simp] theorem State.get_setRung (p q : Part) (f : Field) (u n r t : Nat) (s : State) : (s.setRung q u n r t).get p f = s.get p f := by cases p <;> cases q <;> rfl
@[simp] theorem State.get_setMsix (p : Part) (f : Field) (x : Msix) (s : State) : (s.setMsix x).get p f = s.get p f := by cases p <;> rfl
@[simp] theorem State.get_setTt (p q : Part) (f : Field) (x : TtSt) (s : State) : (s.setTt q x).get p f = s.get p f := by cases p <;> cases q <;> rfl
@[simp] theorem State.get_modLink (p q : Part) (f : Field) (n : Nat) (g : Link → Link) (s : State) : (s.modLink q n g).get p f = s.get p f := by unfold State.modLink; simp
theorem State.get_setUnit (p : Part) (f : Field) (u : Common) (s : State) : (s.setUnit p u).get p f = fieldGet f u.regs := by cases p <;> rfl

end Sys2Proof.Machine
end

