-- ==== Sys2Proof/Laws/Slate.lean ====
section
/-! SUPPORT. Accesses to registers: where the register map finds a register, and what an access that nothing delays comes to (R9, R361, R419, R420). -/

namespace Sys2Proof.Machine

open Sys2Proof

/-- The register at an offset, by the map alone. -/
def mapAt (p : Part) (off : Nat) : Option (Nat × List Field) :=
  (regRows.find? (·.covers p off)).map fun r => ((off - r.base) / r.stride, r.fields ((off - r.base) / r.stride))

/-- A field that every part has and shows as the map gives it: neither spill's nor a link position's (R162, R306). -/
def plainKey (p : Part) (k : Nat) : Prop :=
  match p with
  | .fd => k ≠ (Rg.ATT_SPILL_EN).key ∧ k ≠ (Rg.ATT_SPILL_PAUSED).key ∧ k ≠ (Rg.ATT_ARCH_LOST_SEEN).key ∧ k ≠ (Rg.ATT_SPILL_BUF_PCT).key ∧ k ≠ (Rg.ATT_ARCH_LOST).key
  | .sc => k < 0x2000 * 32 ∨ 0x2A00 * 32 ≤ k

theorem portKeys {i : Nat} (h : i ∈ List.range 8) (f : Field) (k : f.key < 0x2000 * 32 ∨ 0x2A00 * 32 ≤ f.key) :
    (f.key == (Rg.LINK_MEDIUM (8 + i)).key || f.key == (Rg.LINK_PAY_CW (8 + i)).key || f.key == (Rg.LINK_PRECODE_ALLOW (8 + i)).key
      || f.key == (Rg.LINK_MED_ASYM (8 + i)).key) = false ∧ (f.key == (Rg.LINK_WAVE (8 + i)).key) = false := by
  have hi : i < 8 := List.mem_range.1 h
  simp only [Bool.or_eq_false_iff, beq_eq_false_iff_ne]
  refine ⟨⟨⟨⟨?_, ?_⟩, ?_⟩, ?_⟩, ?_⟩ <;> (intro e; rw [e] at k; simp only [Field.key, Rg.LINK_MEDIUM, Rg.LINK_PAY_CW, Rg.LINK_PRECODE_ALLOW, Rg.LINK_MED_ASYM, Rg.LINK_WAVE] at k; omega)

theorem hasField_plain {p : Part} {f : Field} (h : plainKey p f.key) (s : State) : s.hasField p f = true := by
  cases p with
  | fd =>
    obtain ⟨a, b, c, d, e⟩ := h
    simp [State.hasField, a, b, c, d, e]
  | sc =>
    simp only [State.hasField, Bool.not_eq_true', List.any_eq_false, Bool.not_eq_true]
    exact fun i hi => (portKeys hi f h).2

theorem portField_plain {p : Part} {f : Field} (h : plainKey p f.key) : portField p f = f := by
  unfold portField
  cases p with
  | fd => simp
  | sc =>
    rw [if_neg]
    simp only [Bool.and_eq_true, List.any_eq_true, not_and, not_exists, decide_eq_true_eq]
    intro _ i hi
    rw [(portKeys hi f h).1]
    exact nofun

/-- The register at an offset whose fields every part has. -/
theorem regAt_of {p : Part} {off n : Nat} {fs : List Field} {s : State} (h : s.regPresent p off = true) (hm : mapAt p off = some (n, fs)) (hp : ∀ f ∈ fs, plainKey p f.key) :
    s.regAt p off = some (n, fs) := by
  have e : (fs.filter (s.hasField p)).map (portField p) = fs := by
    rw [List.filter_eq_self.2 fun f hf => hasField_plain (hp f hf) s]
    exact (List.map_congr_left fun f hf => portField_plain (hp f hf)).trans (List.map_id fs)
  unfold mapAt at hm
  unfold State.regAt
  simp only [h, Bool.not_true, Bool.false_eq_true, if_false]
  revert hm
  cases regRows.find? (·.covers p off) with
  | none => exact nofun
  | some r =>
    intro hm
    simp only [Option.map_some, Option.some.injEq, Prod.mk.injEq] at hm ⊢
    rw [hm.2]
    exact ⟨hm.1, e⟩

/-- An access that nothing delays is served. -/
theorem emulate_open {p : Part} {a : EmuAcc} {s : State} (h : EmuOpen p a.off s) (hl : a.late = false)
    (hb : p = .sc → a.isWrite = true → a.off = 0x4804 → s.flag .sc Rg.HST_RES_BUSY = false) : s.emulate p a = s.serve p a := by
  have e : (a.late || !(s.unit p).slate.emuQ.isEmpty) = false := by rw [hl, h.2.2.2]; rfl
  have b : (decide (p = .sc) && a.isWrite && decide (a.off = 0x4804) && s.flag .sc Rg.HST_RES_BUSY) = false := by
    rw [Bool.eq_false_iff]
    intro k
    simp only [Bool.and_eq_true, decide_eq_true_eq] at k
    exact absurd k.2 (by rw [hb k.1.1.1 k.1.1.2 k.1.2]; exact nofun)
  unfold State.emulate
  cases p
  · have hs := h.1 rfl
    have : ¬ s.get .fd Rg.START_STAGE < 2 := by omega
    simp only [this, decide_false, Bool.false_eq_true, if_false, h.2.2.1, e, b]
  · have hs := h.2.1 rfl
    have : (!s.flag .sc Rg.START_FW_UP) = false := by simp [State.flag, hs]
    simp only [this, Bool.false_eq_true, if_false, h.2.2.1, e]
    simp only [decide_true] at b ⊢
    simp only [b, Bool.false_eq_true, if_false]

/-- A write to an emulated register alone, carried out at once. -/
theorem slateWord_open {p : Part} {req off v n : Nat} {fs : List Field} {s : State} (hm : s.mayWrite p req off v = true) (ho : off ≠ 0xA100)
    (hw : ¬ (p = .fd ∧ 0x7800 ≤ off ∧ off < 0x8000)) (hr : s.regAt p off = some (n, fs)) (hf : (fs.any fun f => !f.slate) = false) (he : emulated fs = true)
    (h : EmuOpen p off s) (hb : p = .sc → off = 0x4804 → s.flag .sc Rg.HST_RES_BUSY = false) : s.slateWord p req off v = s.applyWord p off n fs v (·.slate) := by
  have e1 : (decide (p = .fd) && decide (0x7800 ≤ off) && decide (off < 0x8000)) = false := by
    rw [Bool.and_eq_false_iff, Bool.and_eq_false_iff]
    by_cases a : p = .fd <;> by_cases b : 0x7800 ≤ off <;> by_cases c : off < 0x8000 <;> simp_all
  unfold State.slateWord
  simp only [hm, Bool.not_true, Bool.false_eq_true, if_false, ho, e1, hr, hf, he, if_true]
  rw [emulate_open (a := { req := req, off := off, value := v, isWrite := true }) h rfl fun a _ b => hb a b]
  unfold State.serve
  simp [hr]

/-- A write to a register that is not emulated. -/
theorem slateWord_direct {p : Part} {req off v n : Nat} {fs : List Field} {s : State} (hm : s.mayWrite p req off v = true) (ho : off ≠ 0xA100)
    (hw : ¬ (p = .fd ∧ 0x7800 ≤ off ∧ off < 0x8000)) (hr : s.regAt p off = some (n, fs)) (hf : (fs.any fun f => !f.slate) = true) (he : emulated fs = false) :
    s.slateWord p req off v = s.applyWord p off n fs v (fun f => !f.slate) := by
  have e1 : (decide (p = .fd) && decide (0x7800 ≤ off) && decide (off < 0x8000)) = false := by
    rw [Bool.and_eq_false_iff, Bool.and_eq_false_iff]
    by_cases a : p = .fd <;> by_cases b : 0x7800 ≤ off <;> by_cases c : off < 0x8000 <;> simp_all
  unfold State.slateWord
  simp [hm, ho, e1, hr, hf, he]

end Sys2Proof.Machine
end

