-- ==== Sys2Proof/Laws/Time.lean ====
section
/-! SUPPORT. What the passing of time leaves: everything but the clocks, the elapsed time, HT_WRAP and the active root's SLEWING. -/

namespace Sys2Proof

open Machine

/-- The fields that the passing of time may change (R47, R48). -/
def timeKeys (k : Nat) : Prop := k = (Rg.HT_HT_WRAP).key ∨ k = (Rg.HT_SLEWING).key

/-- What the passing of time leaves. -/
structure Waits (s t : State) : Prop where
  get : ∀ (p : Part) (f : Field), ¬ timeKeys f.key → t.get p f = s.get p f
  unit : ∀ p, t.unit p = { s.unit p with regs := (t.unit p).regs, clock := (t.unit p).clock, lastDone := (t.unit p).lastDone }
  dist : t.dist = s.dist
  die : t.die = s.die
  msix : t.msix = s.msix
  free : t.free = s.free
  dieMem : t.dieMem = s.dieMem
  hostMem : t.hostMem = s.hostMem
  pending : t.pending = s.pending

theorem Waits.refl (s : State) : Waits s s := ⟨fun _ _ _ => rfl, fun _ => rfl, rfl, rfl, rfl, rfl, rfl, rfl, rfl⟩

theorem Waits.trans {s t u : State} (h : Waits s t) (k : Waits t u) : Waits s u where
  get p f hf := (k.get p f hf).trans (h.get p f hf)
  unit p := by rw [k.unit p, h.unit p]
  dist := k.dist.trans h.dist
  die := k.die.trans h.die
  msix := k.msix.trans h.msix
  free := k.free.trans h.free
  dieMem := k.dieMem.trans h.dieMem
  hostMem := k.hostMem.trans h.hostMem
  pending := k.pending.trans h.pending

theorem Waits.of_put (p : Part) {f : Field} (hk : timeKeys f.key) (v : Nat) (s : State) : Waits s (s.put p f v) where
  get q g hg := by
    by_cases e : q = p
    · subst e; exact State.get_put_ne q (ne_of_key hg hk) _ _
    · exact State.get_put_part e _ _ _ _
  unit q := by cases p <;> cases q <;> rfl
  dist := by cases p <;> rfl
  die := by cases p <;> rfl
  msix := by cases p <;> rfl
  free := by cases p <;> rfl
  dieMem := by cases p <;> rfl
  hostMem := by cases p <;> rfl
  pending := by cases p <;> rfl

theorem Waits.of_unit (p : Part) (c : Clock) (l : SMap Nat) (s : State) : Waits s (s.setUnit p { s.unit p with clock := c, lastDone := l }) where
  get q g _ := by cases p <;> cases q <;> rfl
  unit q := by cases p <;> cases q <;> rfl
  dist := by cases p <;> rfl
  die := by cases p <;> rfl
  msix := by cases p <;> rfl
  free := by cases p <;> rfl
  dieMem := by cases p <;> rfl
  hostMem := by cases p <;> rfl
  pending := by cases p <;> rfl

theorem Waits.runPart (p : Part) (k c : Nat) (s : State) : Waits s (s.runPart p k c) := by
  unfold State.runPart
  split
  · exact Waits.refl s
  · have a : Waits s (s.setUnit p { s.unit p with clock := (s.unit p).clock.run k c }) := Waits.of_unit p _ _ s
    dsimp only
    split
    · exact a.trans (Waits.of_put p (Or.inl rfl) _ _)
    · exact a

theorem Waits.pass (k : Nat) (s : State) : Waits s (s.pass k) := by
  unfold State.pass
  have a : Waits s { s with now := s.now + 4 * k } := ⟨fun p _ _ => by cases p <;> rfl, fun p => by cases p <;> rfl, rfl, rfl, rfl, rfl, rfl, rfl, rfl⟩
  refine ((a.trans (Waits.runPart .fd k 8 _)).trans (Waits.runPart .sc k 5 _)).trans ?_
  unfold State.slewEnd
  split
  · exact Waits.of_put .fd (Or.inr rfl) _ _
  · exact Waits.refl _

theorem Waits.awaitNow (t : Nat) (s : State) : Waits s (s.awaitNow t) := by
  unfold State.awaitNow
  split
  · exact Waits.pass _ s
  · exact Waits.refl s

theorem Waits.awaitHtFuel (p : Part) (ns k : Nat) (s : State) : Waits s (s.awaitHtFuel p ns k) := by
  induction k generalizing s with
  | zero => exact Waits.refl s
  | succ k ih =>
    unfold State.awaitHtFuel
    split
    · exact Waits.refl s
    · exact (Waits.pass _ s).trans (ih _)

theorem Waits.awaitHt (p : Part) (ns : Nat) (s : State) : Waits s (s.awaitHt p ns) := by
  unfold State.awaitHt
  split
  · exact Waits.awaitHtFuel p ns _ s
  · exact Waits.refl s

theorem Waits.awaitBeat (p : Part) (b : Nat) (s : State) : Waits s (s.awaitBeat p b) := Waits.awaitHt p _ s

theorem Waits.nextBeat (p : Part) (s : State) : Waits s (s.nextBeat p) := Waits.awaitBeat p _ s

theorem Waits.toBeat (p : Part) (s : State) : Waits s (s.toBeat p) := Waits.awaitBeat p _ s

theorem Waits.awaitBeat32 (p : Part) (b : Nat) (s : State) : Waits s (s.awaitBeat32 p b) := by
  unfold State.awaitBeat32
  dsimp only
  split
  · exact Waits.awaitBeat p _ s
  · exact Waits.refl s

theorem Waits.periodic (p : Part) (key m r : Nat) (s : State) : Waits s (s.periodic p key m r) := by
  unfold State.periodic
  exact (Waits.awaitBeat p _ s).trans (Waits.of_unit p _ _ _)

variable {s t : State}

theorem Waits.links (h : Waits s t) (p : Part) : (t.unit p).links = (s.unit p).links := by rw [h.unit p]
theorem Waits.fw (h : Waits s t) (p : Part) : (t.unit p).fw = (s.unit p).fw := by rw [h.unit p]
theorem Waits.slate (h : Waits s t) (p : Part) : (t.unit p).slate = (s.unit p).slate := by rw [h.unit p]
theorem Waits.start (h : Waits s t) (p : Part) : (t.unit p).start = (s.unit p).start := by rw [h.unit p]
theorem Waits.faults (h : Waits s t) (p : Part) : (t.unit p).faults = (s.unit p).faults := by rw [h.unit p]
theorem Waits.emerg (h : Waits s t) (p : Part) : (t.unit p).emerg = (s.unit p).emerg := by rw [h.unit p]
theorem Waits.inbox (h : Waits s t) (p : Part) : (t.unit p).inbox = (s.unit p).inbox := by rw [h.unit p]
theorem Waits.tt (h : Waits s t) (p : Part) : (t.unit p).tt = (s.unit p).tt := by rw [h.unit p]
theorem Waits.tests (h : Waits s t) (p : Part) : (t.unit p).tests = (s.unit p).tests := by rw [h.unit p]
theorem Waits.timing (h : Waits s t) (p : Part) : (t.unit p).timing = (s.unit p).timing := by rw [h.unit p]
theorem Waits.tested (h : Waits s t) (p : Part) : (t.unit p).tested = (s.unit p).tested := by rw [h.unit p]
theorem Waits.regs {K : Nat → Prop} (h : Waits s t) (hk : ∀ k, timeKeys k → K k) : Regs K s t := fun p f hf => h.get p f fun e => hf (hk _ e)

end Sys2Proof
end

