-- ==== Sys2Proof/Laws/Commands.lean ====
section
/-! SUPPORT. What the shared operations do to the registers, queues, slots and links, for the statements about single commands: one lemma per operation
and part of the state it may move. -/

namespace Sys2Proof.Cmds

open Sys2Proof Sys2Proof.Machine

set_option linter.unusedVariables false
set_option linter.unusedSimpArgs false
set_option linter.unusedTactic false
set_option linter.unreachableTactic false

theorem not_att {f : Field} (a : f.key ≠ 0x7000 * 32 + 16) (b : ¬ (0x7024 * 32 ≤ f.key ∧ f.key ≤ 0x7030 * 32)) (c : ¬ (0x7208 * 32 ≤ f.key ∧ f.key < 0x7600 * 32 ∧ f.key % 512 = 256)) : ¬ attKeys f.key := by
  intro h
  rcases attKeys_cases h with h | h | h
  · exact a h
  · exact b h
  · exact c h
theorem not_fault {f : Field} (h : ¬ attKeys f.key) (a : f.key ≠ 0x10 * 32 + 2) (b : ¬ (0xC000 * 32 ≤ f.key ∧ f.key < 0xC010 * 32)) : ¬ faultKeys f.key := by
  intro e
  rcases faultKeys_cases e with e | e | e
  · exact h e
  · exact a e
  · exact b e
theorem fdOnly_fd {p : Part} (h : p = .fd) (r : Nat) : fdOnly p r = some r := by simp [fdOnly, h]
theorem scOnly_sc {p : Part} (h : p = .sc) (r : Nat) : scOnly p r = some r := by simp [scOnly, h]
theorem get_sub {m : MbGo} {s : State} (hb : m.box < 8) (code : Nat) {f : Field} (h : ¬ mbKeys f.key) (p : Part) : (s.mbSubmit m code).get p f = s.get p f :=
  get_mbSubmit ((offMb_iff f).2 h) m hb code p s
theorem get_ans {m : MbGo} {t : State} (hb : m.box < 8) (code : Nat) (fixed : List (Nat × Nat)) {f : Field} (h : ¬ mbKeys f.key) (p : Part) :
    (t.mbAnswer m.part m.box code m.tag m.irq m.dma (.ok fixed)).get p f = t.get p f := get_mbDone ((offMb_iff f).2 h) p m.part hb ..
theorem only_slate {p : Part} {b : Bool} {K : Nat → Prop} {s t : State} (h : Only p b K s t) : (t.unit p).slate = { (s.unit p).slate with mail := (t.unit p).slate.mail } := by
  have := h.unit
  exact congrArg Common.slate this
theorem any_congr' {α : Type} {l : List α} {f g : α → Bool} (h : ∀ x ∈ l, f x = g x) : l.any f = l.any g := by
  induction l with
  | nil => rfl
  | cons a l ih => simp only [List.any_cons]; rw [h a (by simp), ih fun x hx => h x (by simp [hx])]
theorem all_congr' {α : Type} {l : List α} {f g : α → Bool} (h : ∀ x ∈ l, f x = g x) : l.all f = l.all g := by
  induction l with
  | nil => rfl
  | cons a l ih => simp only [List.all_cons]; rw [h a (by simp), ih fun x hx => h x (by simp [hx])]
theorem liveJob_none {p : Part} {s : State} (hf : p = .fd → ∀ j < 64, s.get .fd (Rg.JH_MEMBERS j) = 0) (hs : p = .sc → ∀ c < 64, s.get .sc (Rg.CTX_JOB_VALID c) = 0) :
    s.liveJob p = false := by
  unfold State.liveJob State.flag
  cases p
  · simp only [List.any_eq_false, List.mem_range]; intro j hj; rw [hf rfl j hj]; simp
  · simp only [List.any_eq_false, List.mem_range]; intro j hj; rw [hs rfl j hj]; simp
theorem waiting_nil (p : Part) (code : Nat) (s : State) (h : ∀ b, b < 8 → (s.mail p b).wait = none) : s.mbWaiting p code = [] := by
  unfold State.mbWaiting
  rw [List.filter_eq_nil_iff]
  intro b hb
  rw [h b (by simpa using hb)]; simp
theorem completeAll_nil (p : Part) (code : Nat) (out : MbOut) (s : State) (h : ∀ b, b < 8 → (s.mail p b).wait = none) : s.mbCompleteAll p code out = s := by
  unfold State.mbCompleteAll
  rw [waiting_nil p code s h]; rfl
theorem fwRegs_only (p : Part) (s : State) : Only p false anyKey s (s.fwRegs p) := by
  unfold State.fwRegs
  exact ((((((((Only.refl p false anyKey s).putFlag trivial _).putFlag trivial _).putFlag trivial _).putFlag trivial _).put trivial _).put trivial _).put trivial _).put trivial _
def fwKeys (k : Nat) : Prop := 0xA080 * 32 ≤ k ∧ k < 0xA090 * 32
theorem fwRegs_only' (p : Part) (s : State) : Only p false fwKeys s (s.fwRegs p) := by
  unfold State.fwRegs
  refine Only.put (Only.put (Only.put (Only.put (Only.putFlag (Only.putFlag (Only.putFlag (Only.putFlag (Only.refl p false fwKeys s) ?_ _) ?_ _) ?_ _) ?_ _) ?_ _) ?_ _) ?_ _) ?_ _ <;> (unfold fwKeys; ((try simp only [Field.key, Rg.FWS_STAGED, Rg.FWS_ACCEPT_OK, Rg.FWS_ACT_PENDING, Rg.FWS_HOLD_OFF, Rg.FWS_SCHEMA, Rg.FWS_STAGED_VERSION, Rg.FWS_STAGED_DIGEST_LO, Rg.FWS_STAGED_DIGEST_HI]); first | done | decide | omega | (simp; done) | (simp; omega)))
/-- prefectDown: registers -/
theorem prefectDown_regs (p : Part) (i cause : Nat) (s : State) :
    Regs attKeys ((((s.put p (Rg.PREF_STATE i) 3).put p (Rg.PREF_LAST_CAUSE i) cause).put p (Rg.PREF_LAST_HT32 i) (s.ht32 p)).bump p (Rg.PREF_RESTARTS i)) (s.prefectDown p i cause) := by
  unfold State.prefectDown State.fwEvent
  have r : ∀ u x, Regs attKeys u (u.record p x) := fun u x => (Regs.refl _ u).record (fun _ h => h) x
  dsimp only
  split
  · unfold State.discardRuns
    exact (r _ _).setUnit (q := .fd) _ rfl
  · split
    · exact (r _ _).same fun q => by rw [State.unit_setHall]
    · exact r _ _
theorem ht32_lt (p : Part) (s : State) : s.ht32 p % 2 ^ 32 = s.ht32 p := by unfold State.ht32; omega
theorem canFault_lt {p : Part} {i : Nat} {s : State} (h : s.canFault p i = true) : i < 7 := by
  unfold State.canFault prefectCount at h
  simp only [Bool.and_eq_true, decide_eq_true_eq] at h
  have := h.1; split at this <;> omega
theorem restage_get {p : Part} {f : Field} (h : ¬ stageKeys f.key) (q : Part) (s : State) : (s.restage p).get q f = s.get q f :=
  (Regs.refl stageKeys s).restage (q := p) (fun _ x => x) q f h
theorem sat_mod (w n : Nat) : sat w n % 2 ^ w = sat w n := by
  unfold sat; apply Nat.mod_eq_of_lt; have := Nat.two_pow_pos w; omega
theorem get_bump (p : Part) (f : Field) (n : Nat) (s : State) : (s.bump p f n).get p f = sat f.width (s.get p f + n) := by
  unfold State.bump; rw [State.get_put_same, sat_mod]
theorem get_bump_ne (p : Part) {f g : Field} (h : f.key ≠ g.key) (n : Nat) (s : State) : (s.bump p g n).get p f = s.get p f := by
  unfold State.bump; rw [State.get_put_ne _ h]
theorem abortedBy_nil (r : Nat) (s : State) (h : ∀ b, b < 8 → (s.mail .fd b).wait = none) : s.abortedBy r = s := by
  unfold State.abortedBy
  simp only [completeAll_nil _ _ _ s h]
  split
  · split <;> rfl
  · split <;> rfl
def heldKeys (k : Nat) : Prop := 0xA030 * 32 ≤ k ∧ k < 0xA034 * 32
theorem flushStores_regs (K : Nat → Prop) (p : Part) (s : State) : Regs K s (s.flushStores p) := by
  unfold State.flushStores
  split
  · exact Regs.refl _ _
  · exact (Regs.refl _ _).setUnit _ rfl
theorem flushStores_fw (p : Part) (s : State) : ((s.flushStores p).unit p).fw = (s.unit p).fw ∧ ((s.flushStores p).unit p).slate = (s.unit p).slate := by
  unfold State.flushStores
  split
  · exact ⟨rfl, rfl⟩
  · exact ⟨by simp, by simp⟩
theorem slateRegs_only (p : Part) (s : State) : Only p false heldKeys s (s.slateRegs p) := by
  unfold State.slateRegs
  refine Only.putFlag (Only.putFlag (Only.put (Only.refl _ _ _ s) ?_ _) ?_ _) ?_ _ <;> (unfold heldKeys; ((try simp only [Field.key, Rg.SLATE_HELD_COUNT, Rg.SLATE_WR_HELD, Rg.SLATE_BUSY]); first | done | decide | omega | (simp; done) | (simp; omega)))
theorem release_nil (p : Part) (s : State) (h : (s.unit p).slate.held = []) : Only p false heldKeys s (s.releaseHeldWrites p) := by
  have e : s.setSlate p { (s.unit p).slate with held := [] } = s := by
    cases p
    · show { s with fd := { s.fd with slate := { s.fd.slate with held := [] } } } = s
      have h' : s.fd.slate.held = [] := h
      rw [← h']
    · show { s with sc := { s.sc with slate := { s.sc.slate with held := [] } } } = s
      have h' : s.sc.slate.held = [] := h
      rw [← h']
  unfold State.releaseHeldWrites
  simp only [h, List.filter_nil, e, List.foldl_nil, List.isEmpty_nil, if_true]
  exact ((Only.refl _ _ _ s).put (by unfold heldKeys; ((try simp only [Field.key, Rg.SLATE_STALE_VIEW]); first | done | decide | omega | (simp; done) | (simp; omega))) _).trans (slateRegs_only p _)
theorem mail_of_slate {p : Part} {s t : State} (h : (t.unit p).slate.mail = (s.unit p).slate.mail) (b : Nat) : t.mail p b = s.mail p b := by
  unfold State.mail; rw [h]
theorem afterActivation_nil (p : Part) (s : State) (h : ∀ b, b < 8 → (s.mail p b).wait = none) (k : (s.unit p).slate.held = []) :
    ((s.afterActivation p).unit p).fw = (s.unit p).fw ∧ Regs heldKeys s (s.afterActivation p) := by
  unfold State.afterActivation
  have ea : (if p = .fd then (s.abortedBy 1).abortedBy 4 else s) = s := by
    split
    · rename_i e; subst e; rw [abortedBy_nil 1 s h, abortedBy_nil 4 s h]
    · rfl
  dsimp only
  rw [ea, completeAll_nil _ _ _ s h]
  have r := release_nil p (s.flushStores p) (by rw [(flushStores_fw p s).2]; exact k)
  exact ⟨by rw [r.fw, (flushStores_fw p s).1], (flushStores_regs _ p s).trans (Regs.of_only r)⟩
theorem hte_of_only {p : Part} {b : Bool} {K : Nat → Prop} {s t : State} (h : Only p b K s t) : t.ht p = s.ht p := h.ht
theorem bit_clearBit (x v : Nat) : bit (clearBit x v) v = false := by
  unfold clearBit
  split
  · rename_i h
    unfold bit at h ⊢
    have e : (x - 2 ^ v) / 2 ^ v = x / 2 ^ v - 1 := by
      have := Nat.sub_mul_div x (2 ^ v) 1
      simpa using this
    rw [e]; simp at h ⊢; omega
  · rename_i h; simpa using h
theorem maskOf_zero (n : Nat) (f : Nat → Bool) : maskOf n f = 0 ↔ ∀ i < n, f i = false := by
  have key : ∀ (l : List Nat) (a : Nat), l.foldl (fun a i => a + 2 ^ i) a = 0 ↔ a = 0 ∧ l = [] := by
    intro l
    induction l with
    | nil => intro a; simp
    | cons b l ih => intro a; rw [List.foldl_cons, ih]; have := Nat.two_pow_pos b; simp
  unfold maskOf
  rw [key, List.filter_eq_nil_iff]
  simp
theorem bit_testBit (v i : Nat) : bit v i = v.testBit i := by
  unfold bit; rw [Nat.testBit_eq_decide_div_mod_eq]; by_cases h : v / 2 ^ i % 2 = 1 <;> simp [h]
/-- the fields that setQueue writes -/
def queueKeys (q k : Nat) : Prop := k = (Rg.Q_LEVEL q).key ∨ k = (Rg.Q_WAITING q).key ∨ k = (Rg.Q_HEAD_OP q).key ∨ k = (Rg.Q_HEAD_CMD_LO q).key ∨ k = (Rg.Q_HEAD_CMD_HI q).key
  ∨ (∃ u, k = (Rg.PL_HELD u).key ∨ k = (Rg.PL_WAKES u).key ∨ k = (Rg.PL_UNITS_DOWN u).key)
theorem wake_regs {K : Nat → Prop} {p : Part} {u n : Nat} {s t : State} (h : Regs K s t) (h1 : K (Rg.PL_WAKES u).key) (h2 : K (Rg.PL_UNITS_DOWN u).key) : Regs K s (t.wake p u n) := by
  unfold State.wake
  have r : Regs K s (t.setRung p u n 0 t.now) := h.same fun q => by unfold State.setRung; cases p <;> cases q <;> rfl
  exact Regs.ite (fun _ => r) fun _ => (r.bump h1 _).put h2 _
theorem holdLadder_regs {K : Nat → Prop} {s t : State} (h : Regs K s t) (hk : ∀ u, K (Rg.PL_HELD u).key ∧ K (Rg.PL_WAKES u).key ∧ K (Rg.PL_UNITS_DOWN u).key) : Regs K s t.holdLadder := by
  unfold State.holdLadder
  exact Regs.foldl (fun t u => (Regs.refl K t).put (hk u).1 _) _ (Regs.foldl (fun t e => wake_regs (Regs.refl K t) (hk _).2.1 (hk _).2.2) _ h)
theorem unholdLadder_regs {K : Nat → Prop} {s t : State} (h : Regs K s t) (hk : ∀ u, K (Rg.PL_HELD u).key) : Regs K s t.unholdLadder := by
  unfold State.unholdLadder
  exact Regs.foldl (fun t u => (Regs.refl K t).put (hk u) _) _ (Regs.foldl (fun t e => (Regs.refl K t).same fun q => by unfold State.setRung; cases q <;> rfl) _ h)
theorem monStall_regs {K : Nat → Prop} {c : Nat} {s t : State} (h : Regs K s t) : Regs K s (t.monStall c) := by
  unfold State.monStall
  dsimp only
  split
  · split
    · exact h
    · exact h.same fun q => by rw [State.unit_setMon]
  · split
    · exact h.same fun q => by rw [State.unit_setMon]
    · exact h
theorem setQueue_regs {K : Nat → Prop} {q : Nat} {x : SQueue} {s t : State} (h : Regs K s t) (hk : ∀ k, queueKeys q k → K k) : Regs K s (t.setQueue q x) := by
  unfold State.setQueue
  dsimp only
  apply monStall_regs
  have g : ∀ a b c d e, Regs K s ((((((t.setSync { t.die.sync with queues := SMap.set q x t.die.sync.queues }).put .sc (Rg.Q_LEVEL q) a).putFlag .sc (Rg.Q_WAITING q) b).put .sc (Rg.Q_HEAD_OP q) c).put .sc
      (Rg.Q_HEAD_CMD_LO q) d).put .sc (Rg.Q_HEAD_CMD_HI q) e) := by
    intro a b c d e
    refine Regs.put (Regs.put (Regs.put (Regs.putFlag (Regs.put (h.same fun r => by rw [State.unit_setSync]) (hk _ ?_) _) (hk _ ?_) _) (hk _ ?_) _) (hk _ ?_) _) (hk _ ?_) _ <;> (unfold queueKeys; simp)
  have kk : ∀ u, K (Rg.PL_HELD u).key ∧ K (Rg.PL_WAKES u).key ∧ K (Rg.PL_UNITS_DOWN u).key := fun u => ⟨hk _ (by unfold queueKeys; exact Or.inr (Or.inr (Or.inr (Or.inr (Or.inr ⟨u, by simp⟩))))), hk _ (by unfold queueKeys; exact Or.inr (Or.inr (Or.inr (Or.inr (Or.inr ⟨u, by simp⟩))))), hk _ (by unfold queueKeys; exact Or.inr (Or.inr (Or.inr (Or.inr (Or.inr ⟨u, by simp⟩)))))⟩
  refine Regs.ite (fun _ => holdLadder_regs (g _ _ _ _ _) kk) fun _ => Regs.ite (fun _ => unholdLadder_regs (g _ _ _ _ _) fun u => (kk u).1) fun _ => g _ _ _ _ _
theorem flag1 {p : Part} {f : Field} {s : State} (h : s.get p f = 1) : s.flag p f = true := by unfold State.flag; rw [h]; rfl
theorem flag0 {p : Part} {f : Field} {s : State} (h : s.get p f = 0) : s.flag p f = false := by unfold State.flag; rw [h]; rfl
theorem flagn {p : Part} {f : Field} {s : State} (h : s.get p f ≠ 0) : s.flag p f = true := by unfold State.flag; simp [h]
theorem flag_put {p : Part} {f g : Field} (h : f.key ≠ g.key) (v : Nat) (s : State) : (s.put p g v).flag p f = s.flag p f := by unfold State.flag; rw [State.get_put_ne _ h]
theorem flag_put_same (p : Part) (f : Field) (v : Nat) (s : State) : (s.put p f v).flag p f = (v % 2 ^ f.width != 0) := by unfold State.flag; rw [State.get_put_same]
theorem awaitNow_past {n : Nat} {s : State} (h : n ≤ s.now) : s.awaitNow n = s := by
  unfold State.awaitNow; rw [if_neg (by omega)]
theorem awaitHt_past {p : Part} {n : Nat} {s : State} (h : n ≤ s.htNs p) : s.awaitHt p n = s := by
  unfold State.awaitHt; split
  · unfold State.awaitHtFuel; rw [if_pos h]
  · rfl
theorem own_fd {p : Part} (h : p = .fd) {s : State} (v : s.dist.variant = .vxd2880) (r : Nat) : s.own2880 p r = some r := by simp [State.own2880, h, v]
theorem ans_ok (t : State) (p : Part) (b c tag : Nat) (irq dma : Bool) (fixed : List (Nat × Nat)) :
    t.mbAnswer p b c tag irq dma (.ok fixed) = t.mbDone p b tag irq 0 0 (packFields 0 fixed) (packFields 0 fixed).length := rfl
theorem ans_wait (t : State) (p : Part) (b c tag : Nat) (irq dma : Bool) (args : List Nat) :
    t.mbAnswer p b c tag irq dma (.wait args) = t.setMail p b { t.mail p b with wait := some { code := c, tag := tag, irq := irq, dma := dma, args := args } } := rfl
/-- an if whose condition is known -/
theorem pass_now (k : Nat) (s : State) : (s.pass k).now = s.now + 4 * k := by
  have r : ∀ (p : Part) (k c : Nat) (s : State), (s.runPart p k c).now = s.now := by
    intro p k c s; unfold State.runPart; split
    · rfl
    · dsimp only; split <;> simp
  have e : ∀ s : State, s.slewEnd.now = s.now := by intro s; unfold State.slewEnd; split <;> simp
  unfold State.pass
  rw [e, r, r]
theorem awaitNow_le (n : Nat) (s : State) : n ≤ (s.awaitNow n).now := by
  unfold State.awaitNow
  split
  · rw [pass_now]; unfold ceilDiv; omega
  · omega
@[simp] theorem setMail_dist (p : Part) (b : Nat) (x : Mail) (s : State) : (s.setMail p b x).dist = s.dist := by cases p <;> rfl
@[simp] theorem setMail_die (p : Part) (b : Nat) (x : Mail) (s : State) : (s.setMail p b x).die = s.die := by cases p <;> rfl
@[simp] theorem ht_mbSubmit (m : MbGo) (code : Nat) (p : Part) (s : State) : (s.mbSubmit m code).ht p = s.ht p := by unfold State.ht; rw [mbSubmit_unit_clock]
@[simp] theorem htNs_mbSubmit (m : MbGo) (code : Nat) (p : Part) (s : State) : (s.mbSubmit m code).htNs p = s.htNs p := by unfold State.htNs; rw [ht_mbSubmit]
theorem slewEnd_clock (u : State) : u.slewEnd.fd.clock = u.fd.clock := by unfold State.slewEnd; split <;> rfl
theorem slewTo_get (o : Int) (r : Nat) (w : State) (f : Machine.Field) (p : Part) : (w.slewTo o r).get p f = w.get p f := by
  unfold State.slewTo; cases p
  · rw [State.get_setUnit]; rfl
  · rfl
theorem get_comp {f : Machine.Field} (h : OffMb f) (p q : Part) {b : Nat} (hb : b < 8) (fixed : List (Nat × Nat)) (s : State) : (s.mbComplete q b (.ok fixed)).get p f = s.get p f := by
  unfold State.mbComplete
  split
  · rw [ans_ok, get_mbDone h _ _ hb]
  · rfl
@[simp] theorem comp_dist (q : Part) (b : Nat) (fixed : List (Nat × Nat)) (s : State) : (s.mbComplete q b (.ok fixed)).dist = s.dist := by
  unfold State.mbComplete
  split
  · rw [ans_ok, mbDone_dist]
  · rfl
@[simp] theorem comp_ht (q p : Part) (b : Nat) (fixed : List (Nat × Nat)) (s : State) : (s.mbComplete q b (.ok fixed)).ht p = s.ht p := by
  unfold State.mbComplete
  split
  · rw [ans_ok]; unfold State.ht; rw [mbDone_unit_clock]
  · rfl
theorem comp_answered {q : Part} {b : Nat} {w : MbWait} {s : State} (h : (s.mail q b).wait = some w) (fixed : List (Nat × Nat)) :
    (s.mbComplete q b (.ok fixed)).get q (Rg.MB_STATUS b) = 0 ∧ (s.mbComplete q b (.ok fixed)).get q (Rg.MB_STAG b) = w.tag % 256
      ∧ (s.mbComplete q b (.ok fixed)).get q (Rg.MB_DONE b) = 1 ∧ (s.mbComplete q b (.ok fixed)).get q (Rg.MB_OWNED b) = 0 := by
  unfold State.mbComplete
  rw [h]
  exact mbAnswer_ok ..
def tresKeys (k : Nat) : Prop := 0x1000 * 32 ≤ k ∧ k < 0x2000 * 32
theorem tdcPublish_regs {n : Nat} (hn : n < 32) (v : Bool) (s : State) : Regs tresKeys s (s.tdcPublish n v) := by
  unfold State.tdcPublish State.putFlag
  dsimp only
  split <;> (repeat (refine Regs.put ?_ (by unfold tresKeys; ((try simp only [Field.key, Rg.TRES_GATE_SEQ, Rg.TRES_VALID, Rg.TRES_JOINED_BASE, Rg.TRES_SWAP_IN_GATE, Rg.TRES_REANCHOR_IN_GATE, Rg.TRES_PARTIAL, Rg.TRES_EXCLUDED, Rg.TRES_N_HI, Rg.TRES_N, Rg.TRES_RESID_RMS, Rg.TRES_FIT_T_FRAC, Rg.TRES_FIT_T_HI, Rg.TRES_FIT_T_LO, Rg.TRES_PERIOD_FRAC, Rg.TRES_PERIOD_NS]); first | done | decide | omega | (simp; done) | (simp; omega))) _)) <;> exact Regs.refl _ _
theorem tdcPublish_same (n : Nat) (v : Bool) (s : State) : (s.tdcPublish n v).dist = s.dist ∧ (∀ p, (s.tdcPublish n v).ht p = s.ht p) := by
  unfold State.tdcPublish State.putFlag State.ht
  dsimp only
  split <;> simp only [State.put_dist, State.unit_put_clock, implies_true, and_self]
theorem setTdc_regs {n : Nat} (hn : n < 32) (x : TdcCh) (s : State) : Regs tresKeys s (s.setTdc n x) := by
  unfold State.setTdc; exact Regs.put (Regs.of_regs fun q => by rw [State.unit_setDist]) (by unfold tresKeys; ((try simp only [Field.key, Rg.TDC_QUEUE_LEVEL]); first | done | decide | omega | (simp; done) | (simp; omega))) _
@[simp] theorem unit_setTdc_clock (n : Nat) (x : TdcCh) (p : Part) (s : State) : ((s.setTdc n x).unit p).clock = (s.unit p).clock := by
  unfold State.setTdc; rw [State.unit_put_clock, State.unit_setDist]
@[simp] theorem unit_setTdc_slate (n : Nat) (x : TdcCh) (p : Part) (s : State) : ((s.setTdc n x).unit p).slate = (s.unit p).slate := by
  unfold State.setTdc; rw [State.unit_put_slate, State.unit_setDist]
theorem setTdc_dist (n : Nat) (x : TdcCh) (s : State) : (s.setTdc n x).dist = { s.dist with tdc := SMap.set n x s.dist.tdc } := by
  unfold State.setTdc; rw [State.put_dist]; rfl
theorem tdcNextGate_regs {n : Nat} (hn : n < 32) (a : Nat) (c : Bool) (s : State) : Regs tresKeys s (s.tdcNextGate n a c) := by
  unfold State.tdcNextGate; exact setTdc_regs hn _ _
/-- what a channel's rebase leaves -/
def RebaseOk (s t : State) : Prop := Regs tresKeys s t ∧ t.dist.hall = s.dist.hall ∧ (∀ p, t.ht p = s.ht p) ∧ (t.unit .fd).slate = (s.unit .fd).slate
theorem RebaseOk.refl (s : State) : RebaseOk s s := ⟨Regs.refl _ _, rfl, fun _ => rfl, rfl⟩
theorem RebaseOk.trans {s t u : State} (a : RebaseOk s t) (b : RebaseOk t u) : RebaseOk s u := ⟨a.1.trans b.1, b.2.1.trans a.2.1, fun p => (b.2.2.1 p).trans (a.2.2.1 p), b.2.2.2.trans a.2.2.2⟩
theorem RebaseOk.ite {s t u : State} {c : Prop} [Decidable c] (a : RebaseOk s t) (b : RebaseOk s u) : RebaseOk s (if c then t else u) := by split <;> assumption
theorem RebaseOk.setTdc {n : Nat} (hn : n < 32) (x : TdcCh) (s : State) : RebaseOk s (s.setTdc n x) :=
  ⟨setTdc_regs hn x s, by rw [setTdc_dist], fun p => by unfold State.ht; rw [unit_setTdc_clock], unit_setTdc_slate ..⟩
theorem tdcPublish_slate (n : Nat) (v : Bool) (s : State) : ((s.tdcPublish n v).unit .fd).slate = (s.unit .fd).slate := by
  unfold State.tdcPublish State.putFlag
  dsimp only
  split <;> simp only [State.unit_put_slate]
theorem RebaseOk.publish {n : Nat} (hn : n < 32) (v : Bool) (s : State) : RebaseOk s (s.tdcPublish n v) :=
  ⟨tdcPublish_regs hn v s, by rw [(tdcPublish_same n v s).1], (tdcPublish_same n v s).2, tdcPublish_slate n v s⟩
theorem RebaseOk.putFlag {n : Nat} (hn : n < 32) (o : Bool) (s : State) : RebaseOk s (s.putFlag .fd (Rg.TRES_JOINED_BASE n) o) :=
  ⟨(Regs.refl _ _).putFlag (by unfold tresKeys; ((try simp only [Field.key, Rg.TRES_JOINED_BASE]); first | done | decide | omega | (simp; done) | (simp; omega))) _, by unfold State.putFlag; rw [State.put_dist], fun p => by unfold State.putFlag State.ht; rw [State.unit_put_clock], by unfold State.putFlag; rw [State.unit_put_slate]⟩
theorem tdcRebase_ok (old : Nat) (o : Bool) (s : State) : RebaseOk s (s.tdcRebase old o) := by
  unfold State.tdcRebase
  generalize hh : s.ht .fd = h
  have : ∀ (l : List Nat) (f : State → Nat → State) (t : State), (∀ n ∈ l, n < 32) → (∀ t n, n < 32 → RebaseOk t (f t n)) → RebaseOk t (l.foldl f t) := by
    intro l f
    induction l with
    | nil => intro t _ _; exact RebaseOk.refl t
    | cons a l ih => intro t hl hf; exact (hf t a (hl a (by simp))).trans (ih _ (fun n hn => hl n (by simp [hn])) hf)
  refine this _ _ _ (fun n hn => List.mem_range.1 hn) fun t n hn => ?_
  dsimp only
  have a : RebaseOk t (if (t.tdc n).lastStamp.isNone then t else t.setTdc n { (t.tdc n) with lastStamp := (t.tdc n).lastStamp.map (shiftStamp old h), busyUntil := shiftStamp old h (t.tdc n).busyUntil }) :=
    RebaseOk.ite (RebaseOk.refl t) (RebaseOk.setTdc hn _ _)
  refine RebaseOk.ite ?_ a
  exact ((a.trans (RebaseOk.publish hn false _)).trans (RebaseOk.putFlag hn _ _)).trans (RebaseOk.setTdc hn _ _)
theorem tdcRebase_all (old : Nat) (o : Bool) (s : State) : Regs tresKeys s (s.tdcRebase old o) ∧ (s.tdcRebase old o).dist.hall = s.dist.hall ∧ (∀ p, (s.tdcRebase old o).ht p = s.ht p) :=
  let h := tdcRebase_ok old o s
  ⟨h.1, h.2.1, h.2.2.1⟩
theorem tdcRebase_slate (old : Nat) (o : Bool) (s : State) : ((s.tdcRebase old o).unit .fd).slate = (s.unit .fd).slate := (tdcRebase_ok old o s).2.2.2
theorem ans_bytes (t : State) (p : Part) (b c tag : Nat) (irq dma : Bool) (x : List Byte) :
    t.mbAnswer p b c tag irq dma (.bytes x) = t.mbDone p b tag irq 0 0 (x.take 256) x.length := rfl
@[simp] theorem dmaWrite_dist (p : Part) (a : Nat) (b : List Byte) (s : State) : (s.dmaWrite p a b).dist = s.dist := by cases p <;> rfl
@[simp] theorem dmaWrite_die (p : Part) (a : Nat) (b : List Byte) (s : State) : (s.dmaWrite p a b).die = s.die := by cases p <;> rfl
@[simp] theorem unit_dmaWrite (p q : Part) (a : Nat) (b : List Byte) (s : State) : (s.dmaWrite p a b).unit q = s.unit q := by cases p <;> cases q <;> rfl
@[simp] theorem dmaWrite_now (p : Part) (a : Nat) (b : List Byte) (s : State) : (s.dmaWrite p a b).now = s.now := by cases p <;> rfl
theorem dmaWrite_fd_host (a : Nat) (b : List Byte) (s : State) : (s.dmaWrite .fd a b).hostMem = s.hostMem.writeN a b := rfl
theorem dmaWrite_fd_die (a : Nat) (b : List Byte) (s : State) : (s.dmaWrite .fd a b).dieMem = s.dieMem := rfl
theorem dmaWrite_sc_die (a : Nat) (b : List Byte) (s : State) : (s.dmaWrite .sc a b).dieMem = s.dieMem.writeN a b := rfl
@[simp] theorem tdc_dmaWrite (n : Nat) (p : Part) (a : Nat) (b : List Byte) (s : State) : (s.dmaWrite p a b).tdc n = s.tdc n := by unfold State.tdc; rw [dmaWrite_dist]
theorem noRsv {fs : List Machine.Field} {v k : Nat} (r : ∀ i < 32, bit (reservedBits fs) i = true → k ≤ i) (hv : v < 2 ^ k) :
    maskOf 32 (fun i => bit v i && bit (reservedBits fs) i) = 0 := by
  rw [maskOf_zero]
  intro i hi
  by_cases b : bit (reservedBits fs) i = true
  · have := r i hi b
    have : v / 2 ^ i = 0 := Nat.div_eq_of_lt (Nat.lt_of_lt_of_le hv (Nat.pow_le_pow_right (by omega) this))
    simp [bit, this]
  · simp [b]
theorem writeFields_plain {p : Part} {fs : List Machine.Field} {v k : Nat} (only : Machine.Field → Bool) (s : State) (r : ∀ i < 32, bit (reservedBits fs) i = true → k ≤ i) (hv : v < 2 ^ k) :
    s.writeFields p fs v only = (fs.filter only).foldl (fun (t : State) f =>
    match f.acc with
    | .rw => if f.takes (bits v f.lo f.width) then t.put p f (bits v f.lo f.width) else t.rsvd p
    | .w1c => t.put p f (minusMask f.width (t.get p f) (bits v f.lo f.width))
    | _ => t) s := by
  unfold State.writeFields
  rw [noRsv r hv]; rfl
theorem applyWord_off {p : Part} {off n v : Nat} {fs : List Machine.Field} {only : Machine.Field → Bool} {s : State}
    (h : off < 0x2000 ∨ (0x2A00 ≤ off ∧ off < 0x4000) ∨ (0x4800 ≤ off ∧ off < 0x6800) ∨ (0x6808 ≤ off ∧ off < 0x8800)) :
    s.applyWord p off n fs v only =
      let s2 := (match p with
        | .fd => (s.writeFields p fs v only).fdWritten off n v s
        | .sc => (s.writeFields p fs v only).scWritten off n v s)
      if emulated fs then s2.setSlate p { (s2.unit p).slate with shadow := SMap.set off (s2.wordOf p fs) (s2.unit p).slate.shadow } else s2 := by
  unfold State.applyWord
  have l : s.locked p off n = false := by
    unfold State.locked
    have a : (decide (0x8800 ≤ off)) = false := by simp; omega
    have b : (decide (0x4000 ≤ off) && decide (off < 0x4800)) = false := by simp; omega
    rw [a, Bool.and_assoc (decide (p = .sc)), b]; simp
  have l2 : (decide (p = .sc) && decide (0x4000 ≤ off) && decide (off < 0x4800) && decide (off % 16 = 0) && bit v 6) = false := by
    have b : (decide (0x4000 ≤ off) && decide (off < 0x4800)) = false := by simp; omega
    rw [Bool.and_assoc (decide (p = .sc)), b]; simp
  have e : s.effective p off n v = v := by
    unfold State.effective
    have b : (decide (0x2000 ≤ off) && decide (off < 0x2A00)) = false := by simp; omega
    have c : ¬ off = 0x6800 := by omega
    have d : ¬ off = 0x6804 := by omega
    simp only [b, c, d, decide_false, Bool.false_and, Bool.and_false, Bool.false_eq_true, if_false]
  have b1 : (decide (0x2000 ≤ off) && decide (off < 0x2A00) && decide (off % 32 = 0)) = false := by
    have b : (decide (0x2000 ≤ off) && decide (off < 0x2A00)) = false := by simp; omega
    rw [b]; rfl
  have b2 : (decide (0xB040 ≤ off) && decide (off < 0xB068) && decide (off % 8 = 0)) = false := by
    have b : (decide (0xB040 ≤ off)) = false := by simp; omega
    rw [b]; rfl
  simp only [l, l2, e, b1, b2, Bool.false_eq_true, if_false, bne_self_eq_false, Bool.and_false]
  all_goals (cases p <;> rfl)
@[simp] theorem get_setSlate (p q : Part) (f : Machine.Field) (x : SlateSt) (s : State) : (s.setSlate q x).get p f = s.get p f := by cases p <;> cases q <;> rfl
@[simp] theorem setSlate_dist (q : Part) (x : SlateSt) (s : State) : (s.setSlate q x).dist = s.dist := by cases q <;> rfl
@[simp] theorem setSlate_die (q : Part) (x : SlateSt) (s : State) : (s.setSlate q x).die = s.die := by cases q <;> rfl
theorem writeFields_one {p : Part} {f : Machine.Field} {v k : Nat} {only : Machine.Field → Bool} {s : State} (ha : f.acc = .rw) (ho : only f = true) (h0 : f.lo = 0) (hk : f.width = k)
    (ht : f.takes v = true) (r : ∀ i < 32, bit (reservedBits [f]) i = true → k ≤ i) (hv : v < 2 ^ k) : s.writeFields p [f] v only = s.put p f v := by
  have b : bits v f.lo f.width = v := by unfold bits; rw [h0, hk]; simp [Nat.mod_eq_of_lt hv]
  rw [writeFields_plain only s r hv]
  simp only [List.filter_cons, ho, if_true, List.filter_nil, List.foldl_cons, List.foldl_nil, b, ha, ht]

open Sys2Proof.Machine (Link LinkBlk CtlWord CtlBody)
@[simp] theorem link_put (p q : Part) (f : Machine.Field) (n v : Nat) (s : State) : (s.put q f v).link p n = s.link p n := by unfold State.link; rw [State.unit_put_links]
@[simp] theorem link_putFlag (p q : Part) (f : Machine.Field) (n : Nat) (v : Bool) (s : State) : (s.putFlag q f v).link p n = s.link p n := link_put ..
theorem link_setLink (p : Part) (n : Nat) (l : Link) (s : State) : (s.setLink p n l).link p n = l := by
  unfold State.link State.setLink; rw [State.unit_setUnit]; dsimp only; rw [SMap.get_set_same]
theorem link_setLink_ne (p : Part) {n k : Nat} (h : k ≠ n) (l : Link) (s : State) : (s.setLink p n l).link p k = s.link p k := by
  unfold State.link State.setLink; rw [State.unit_setUnit]; dsimp only; rw [SMap.get_set_ne _ h]
theorem link_modLink (p : Part) (n : Nat) (f : Link → Link) (s : State) : (s.modLink p n f).link p n = f (s.link p n) := link_setLink ..
theorem link_event (p : Part) (n ev d k : Nat) (s : State) : (s.linkEvent p n ev d).link p k = s.link p k := by
  have o : Only p false attKeys s (s.linkEvent p n ev d) := by unfold State.linkEvent; exact Only.record (Only.refl _ _ _ _) (fun _ h => h) _
  unfold State.link; rw [o.links]
theorem get_event {p : Part} {f : Machine.Field} (h : ¬ attKeys f.key) (n ev d : Nat) (s : State) : (s.linkEvent p n ev d).get p f = s.get p f := by
  have o : Only p false attKeys s (s.linkEvent p n ev d) := by unfold State.linkEvent; exact Only.record (Only.refl _ _ _ _) (fun _ h => h) _
  exact o.get f h
theorem now_event (p : Part) (n ev d : Nat) (s : State) : (s.linkEvent p n ev d).now = s.now := by
  have o : Only p false attKeys s (s.linkEvent p n ev d) := by unfold State.linkEvent; exact Only.record (Only.refl _ _ _ _) (fun _ h => h) _
  exact o.now
theorem counts_spec (p : Part) (b : Nat) (s : State) (k : Nat) : ((s.countApplied p b).link p k).exch = (s.link p k).exch ∧ ((s.countApplied p b).link p k).heldModel = (s.link p k).heldModel
    ∧ (∀ f, (s.countApplied p b).get p f = s.get p f) := by
  unfold State.countApplied
  dsimp only
  generalize (s.unit p).links = ls
  generalize rateToBeat _ * _ = c
  induction ls generalizing s with
  | nil => exact ⟨rfl, rfl, fun _ => rfl⟩
  | cons a ls ih =>
    rw [List.foldl_cons]
    have h := ih (if s.parentEnd p a.1 then s else s.modLink p a.1 fun l => { l with applied := l.applied + c })
    refine ⟨h.1.trans ?_, h.2.1.trans ?_, fun f => (h.2.2 f).trans ?_⟩
    · split
      · rfl
      · by_cases e : k = a.1
        · rw [← e, link_modLink]
        · unfold State.modLink; rw [link_setLink_ne _ e]
    · split
      · rfl
      · by_cases e : k = a.1
        · rw [← e, link_modLink]
        · unfold State.modLink; rw [link_setLink_ne _ e]
    · split
      · rfl
      · rw [State.get_modLink]
theorem reselect_root {s : State} (h : s.get .fd Rg.REFS_ROLE = 1) : s.reselect = (s.putFlag .fd Rg.REFS_PARENT_0_QUAL (s.portQualifies 64)).putFlag .fd Rg.REFS_PARENT_1_QUAL (s.portQualifies 65) := by
  unfold State.reselect
  have r : ((s.putFlag .fd Rg.REFS_PARENT_0_QUAL (s.portQualifies 64)).putFlag .fd Rg.REFS_PARENT_1_QUAL (s.portQualifies 65)).role = 1 := by
    unfold State.role State.putFlag; rw [State.get_put_ne _ (by decide), State.get_put_ne _ (by decide)]; exact h
  simp only [r]
  simp
theorem rollCheck_root {s : State} (h : s.get .fd Rg.REFS_ROLE = 1) : s.rollCheck = s := by
  unfold State.rollCheck State.role; rw [h]; rfl
theorem prNot {n : Nat} (h : n < 64) : prPorts.contains n = false := by
  unfold prPorts; simp; omega
theorem down_root {n : Nat} {s : State} (hn : n < 64) (hr : s.get .fd Rg.REFS_ROLE = 1) (hl : s.get .fd (Rg.LINK_LSTATE n) ≠ 0) :
    (s.linkDown .fd n).get .fd (Rg.LINK_LSTATE n) = 0 ∧ (s.linkDown .fd n).get .fd (Rg.LINK_DELAY n) = 2 ^ 32 - 1 ∧ (s.linkDown .fd n).get .fd (Rg.LINK_LINK_OFFSET n) = 0x80000000
    ∧ ((s.linkDown .fd n).link .fd n).txq = [] ∧ ((s.linkDown .fd n).link .fd n).out = []
    ∧ ((s.linkDown .fd n).link .fd n).fails = (if s.get .fd (Rg.LINK_LSTATE n) = 3 then (s.link .fd n).fails else if s.get .fd (Rg.LINK_LSTATE n) ∈ [1, 2, 4] then (s.link .fd n).fails + 1 else (s.link .fd n).fails)
    ∧ ((s.linkDown .fd n).link .fd n).backoffUntil = (if s.get .fd (Rg.LINK_LSTATE n) ∈ [1, 2, 4] then s.now + (if 8 ≤ (s.link .fd n).fails + 1 then 10000000000 else 100000000) else (s.link .fd n).backoffUntil) := by
  unfold State.linkDown State.lstate
  rw [if_neg hl]
  dsimp only
  simp only [prNot hn, Bool.false_and, Bool.false_eq_true, if_false]
  generalize hx : (State.put _ (Rg.LINK_SWAP_PENDING n) 0 _) = x
  have rx : x.get .fd Rg.REFS_ROLE = 1 := by
    rw [← hx]; simp (disch := ((try simp only [Field.key, Rg.REFS_ROLE, Rg.LINK_SWAP_PENDING, Rg.LINK_CAL_RUNNING, Rg.LINK_HOMING_MISMATCH, Rg.LINK_LEVEL_REFUSED, Rg.LINK_ROLL_VALID, Rg.LINK_SUSPECT_CAUSE, Rg.LINK_LINK_OFFSET, Rg.LINK_DELAY]); first | done | decide | omega | (simp; done) | (simp; omega))) only [State.get_put_ne, State.putFlag, State.get_setLink]; rw [get_event (by (refine not_att ?_ ?_ ?_ <;> ((try simp only [Field.key, Rg.REFS_ROLE]); first | done | decide | omega | (simp; done) | (simp; omega))))]; rw [State.get_put_ne _ (by ((try simp only [Field.key, Rg.REFS_ROLE, Rg.LINK_LSTATE]); first | done | decide | omega | (simp; done) | (simp; omega)))]; exact hr
  rw [reselect_root rx, rollCheck_root (by unfold State.putFlag; rw [State.get_put_ne _ (by decide), State.get_put_ne _ (by decide)]; exact rx)]
  have lk := congrArg (fun u => u.link .fd n) hx
  simp only [link_put, link_putFlag, link_setLink] at lk
  simp only [link_putFlag]
  rw [← lk]
  refine ⟨?_, ?_, ?_, rfl, rfl, ?_, ?_⟩
  · unfold State.putFlag; rw [State.get_put_ne _ (by ((try simp only [Field.key, Rg.LINK_LSTATE, Rg.REFS_PARENT_1_QUAL]); first | done | decide | omega | (simp; done) | (simp; omega))), State.get_put_ne _ (by ((try simp only [Field.key, Rg.LINK_LSTATE, Rg.REFS_PARENT_0_QUAL]); first | done | decide | omega | (simp; done) | (simp; omega))), ← hx]; simp (disch := ((try simp only [Field.key, Rg.LINK_LSTATE, Rg.LINK_SWAP_PENDING, Rg.LINK_CAL_RUNNING, Rg.LINK_HOMING_MISMATCH, Rg.LINK_LEVEL_REFUSED, Rg.LINK_ROLL_VALID, Rg.LINK_SUSPECT_CAUSE, Rg.LINK_LINK_OFFSET, Rg.LINK_DELAY]); first | done | decide | omega | (simp; done) | (simp; omega))) only [State.get_put_ne, State.putFlag, State.get_setLink]; rw [get_event (by (refine not_att ?_ ?_ ?_ <;> ((try simp only [Field.key, Rg.LINK_LSTATE]); first | done | decide | omega | (simp; done) | (simp; omega)))), State.get_put_same]; rfl
  · unfold State.putFlag; rw [State.get_put_ne _ (by ((try simp only [Field.key, Rg.LINK_DELAY, Rg.REFS_PARENT_1_QUAL]); first | done | decide | omega | (simp; done) | (simp; omega))), State.get_put_ne _ (by ((try simp only [Field.key, Rg.LINK_DELAY, Rg.REFS_PARENT_0_QUAL]); first | done | decide | omega | (simp; done) | (simp; omega))), ← hx]; simp (disch := ((try simp only [Field.key, Rg.LINK_DELAY, Rg.LINK_SWAP_PENDING, Rg.LINK_CAL_RUNNING, Rg.LINK_HOMING_MISMATCH, Rg.LINK_LEVEL_REFUSED, Rg.LINK_ROLL_VALID, Rg.LINK_SUSPECT_CAUSE, Rg.LINK_LINK_OFFSET]); first | done | decide | omega | (simp; done) | (simp; omega))) only [State.get_put_ne, State.putFlag, State.get_put_same]; rfl
  · unfold State.putFlag; rw [State.get_put_ne _ (by ((try simp only [Field.key, Rg.LINK_LINK_OFFSET, Rg.REFS_PARENT_1_QUAL]); first | done | decide | omega | (simp; done) | (simp; omega))), State.get_put_ne _ (by ((try simp only [Field.key, Rg.LINK_LINK_OFFSET, Rg.REFS_PARENT_0_QUAL]); first | done | decide | omega | (simp; done) | (simp; omega))), ← hx]; simp (disch := ((try simp only [Field.key, Rg.LINK_LINK_OFFSET, Rg.LINK_SWAP_PENDING, Rg.LINK_CAL_RUNNING, Rg.LINK_HOMING_MISMATCH, Rg.LINK_LEVEL_REFUSED, Rg.LINK_ROLL_VALID, Rg.LINK_SUSPECT_CAUSE]); first | done | decide | omega | (simp; done) | (simp; omega))) only [State.get_put_ne, State.putFlag, State.get_put_same]; rfl
  · by_cases a : s.get .fd (Rg.LINK_LSTATE n) = 3
    · simp [a]
    · simp only [if_neg a]; simp [or_assoc]
  · unfold backoffNs isPkg; simp
    by_cases e : (s.get .fd (Rg.LINK_LSTATE n) = 1 ∨ s.get .fd (Rg.LINK_LSTATE n) = 2) ∨ s.get .fd (Rg.LINK_LSTATE n) = 4
    · rcases e with (e|e)|e <;> simp [e]
    · simp only [not_or] at e; simp [e.1.1, e.1.2, e.2]

theorem link_sub (m : MbGo) (c : Nat) (p : Part) (n : Nat) (s : State) : (s.mbSubmit m c).link p n = s.link p n := by unfold State.link; rw [mbSubmit_unit_links]
theorem link_done (p q : Part) (box tag : Nat) (irq : Bool) (status detail : Nat) (area : List Byte) (total n : Nat) (s : State) :
    (s.mbDone q box tag irq status detail area total).link p n = s.link p n := by unfold State.link; rw [mbDone_unit_links]
theorem laneSum_get {p : Part} {f : Machine.Field} (h1 : f.key ≠ Rg.FSUM_LANES_DEGRADED.key) (h2 : f.key ≠ Rg.FSUM_SPARE_NONE.key) (q : Part) (s : State) : (s.laneSum p).get q f = s.get q f := by
  unfold State.laneSum State.putFlag; dsimp only
  cases p <;> cases q <;> first | rw [State.get_put_ne _ h2, State.get_put_ne _ h1] | rfl
theorem laneSum_link (p q : Part) (n : Nat) (s : State) : (s.laneSum p).link q n = s.link q n := by
  unfold State.laneSum; simp
theorem toSigned_ofSigned {a : Int} (h : -100000 ≤ a ∧ a ≤ 100000) : toSigned 32 (ofSigned 32 a % 2 ^ 32) = a := by
  unfold toSigned ofSigned
  have : ((2 ^ 32 : Nat) : Int) = 4294967296 := rfl
  rw [this]
  split_ifs with c <;> omega

open Sys2Proof.Machine (Station OppSw HbMsg)
theorem stn_of {s t : State} (h : t.die.stn = s.die.stn) (n : Nat) : t.stn n = s.stn n := by unfold State.stn; rw [h]
@[simp] theorem stn_put (p : Part) (f : Machine.Field) (v n : Nat) (s : State) : (s.put p f v).stn n = s.stn n := stn_of (by rw [State.put_die]) n
theorem stn_setStn (n : Nat) (x : Station) (s : State) : (s.setStn n x).stn n = x := by
  unfold State.stn State.setStn; show SMap.get _ _ (SMap.set _ _ _) = _; rw [SMap.get_set_same]
theorem stn_setStn_ne {n k : Nat} (h : k ≠ n) (x : Station) (s : State) : (s.setStn n x).stn k = s.stn k := by
  unfold State.stn State.setStn; show SMap.get _ _ (SMap.set _ _ _) = _; rw [SMap.get_set_ne _ h]
theorem stnEdges_stn (n : Nat) (es : List Nat) (s : State) : (s.stnEdges n es).stn n = (s.stn n).edges (s.period n) es := stn_setStn ..
/-- only the die's events change -/
def OnlyEv (s t : State) : Prop := ∃ ev, t = s.setSync { s.die.sync with events := ev }
theorem OnlyEv.trans {s t u : State} (h : OnlyEv s t) (k : OnlyEv t u) : OnlyEv s u := by
  obtain ⟨a, rfl⟩ := h; obtain ⟨b, rfl⟩ := k; exact ⟨b, rfl⟩
theorem evSettle_ev (k : Nat) (s : State) : OnlyEv s (s.evSettle k) := by
  induction k generalizing s with
  | zero => exact ⟨s.die.sync.events, rfl⟩
  | succ k ih => exact OnlyEv.trans ⟨_, rfl⟩ (ih _)
theorem postEvent_ev (n : Nat) (b : Machine.EvBody) (s : State) : OnlyEv s (s.postEvent n b) := OnlyEv.trans ⟨_, rfl⟩ (evSettle_ev _ _)
theorem stnRecord_ev (k : Nat) (x : Machine.Rec) (h : Nat) (s : State) : OnlyEv s (s.stnRecord k x h) := postEvent_ev ..
theorem OnlyEv.get {s t : State} (h : OnlyEv s t) (p : Part) (f : Machine.Field) : t.get p f = s.get p f := by obtain ⟨a, rfl⟩ := h; cases p <;> rfl
theorem OnlyEv.die {s t : State} (h : OnlyEv s t) : t.die = { s.die with sync := { s.die.sync with events := t.die.sync.events } } := by obtain ⟨a, rfl⟩ := h; rfl
theorem OnlyEv.regs {s t : State} (h : OnlyEv s t) (K : Nat → Prop) : Regs K s t := fun p f _ => h.get p f
theorem stnRecord_stn (k : Nat) (x : Machine.Rec) (h n : Nat) (s : State) : (s.stnRecord k x h).stn n = s.stn n := stn_of (by rw [(stnRecord_ev k x h s).die]) n
theorem hbQueue_get (p : Part) (f : Machine.Field) (n : Nat) (m : HbMsg) (c : Nat) (s : State) : (s.hbQueue n m c).get p f = s.get p f := by unfold State.hbQueue; dsimp only; rw [State.get_setStn]
theorem hbQueueAll_get (p : Part) (f : Machine.Field) (m : HbMsg) (c : Nat) (s : State) : (s.hbQueueAll m c).get p f = s.get p f := by
  unfold State.hbQueueAll; exact foldl_keeps (fun t : State => t.get p f) (fun t n => hbQueue_get p f n m c t) _ _
theorem hbQueueAll_die (m : HbMsg) (c : Nat) (s : State) : (s.hbQueueAll m c).die = { s.die with stn := (s.hbQueueAll m c).die.stn } := by
  unfold State.hbQueueAll
  have : ∀ (l : List Nat) (t : State), (l.foldl (fun t n => t.hbQueue n m c) t).die = { t.die with stn := (l.foldl (fun t n => t.hbQueue n m c) t).die.stn } := by
    intro l
    induction l with
    | nil => intro t; rfl
    | cons a l ih => intro t; rw [List.foldl_cons, ih]; rfl
  exact this _ _
theorem hbControl_get (p : Part) (f : Machine.Field) (n : Nat) (s : State) : (s.hbControl n).get p f = s.get p f := by
  unfold State.hbControl
  refine foldl_keeps (fun t : State => t.get p f) (fun t o => ?_) _ _
  cases o with
  | none => rfl
  | some m => dsimp only; split; exact hbQueue_get ..; rfl
theorem hbWord_rest (b n : Nat) (s : State) : (s.hbWord b n).die = { s.die with stn := (s.hbWord b n).die.stn, hbOmit := (s.hbWord b n).die.hbOmit } ∧ (∀ p f, (s.hbWord b n).get p f = s.get p f)
    ∧ (∀ k, k ≠ n → (s.hbWord b n).stn k = s.stn k ∧ SMap.get 0 k (s.hbWord b n).die.hbOmit = SMap.get 0 k s.die.hbOmit)
    ∧ (SMap.get 0 n s.die.hbOmit = 0 → SMap.get 0 n (s.hbWord b n).die.hbOmit = 0 ∧ ((s.hbWord b n).stn n).word.ht = b ∧ ((s.hbWord b n).stn n).word.idx = b / 64 % 16) := by
  have L : (s.hbLaunch b n).die = { s.die with stn := (s.hbLaunch b n).die.stn } ∧ (∀ p f, (s.hbLaunch b n).get p f = s.get p f) ∧ (∀ k, k ≠ n → (s.hbLaunch b n).stn k = s.stn k)
      ∧ ((s.hbLaunch b n).stn n).word.ht = b ∧ ((s.hbLaunch b n).stn n).word.idx = b / 64 % 16 := by
    unfold State.hbLaunch
    dsimp only
    split
    · exact ⟨rfl, fun _ _ => State.get_setStn .., fun k h => stn_setStn_ne h .., by rw [stn_setStn], by rw [stn_setStn]⟩
    split
    · exact ⟨rfl, fun _ _ => State.get_setStn .., fun k h => stn_setStn_ne h .., by rw [stn_setStn], by rw [stn_setStn]⟩
    split
    · exact ⟨rfl, fun _ _ => State.get_setStn .., fun k h => stn_setStn_ne h .., by rw [stn_setStn], by rw [stn_setStn]⟩
    split
    · exact ⟨rfl, fun _ _ => State.get_setStn .., fun k h => stn_setStn_ne h .., by rw [stn_setStn], by rw [stn_setStn]⟩
    · exact ⟨rfl, fun _ _ => State.get_setStn .., fun k h => stn_setStn_ne h .., by rw [stn_setStn], by rw [stn_setStn]⟩
  unfold State.hbWord
  split
  · rename_i hz
    refine ⟨?_, L.2.1, fun k h => ⟨L.2.2.1 k h, by rw [L.1]⟩, fun _ => ⟨by rw [L.1]; exact hz, L.2.2.2⟩⟩
    rw [L.1]
  · rename_i j hz
    refine ⟨rfl, fun p f => by rw [State.get_setDie, State.get_setStn], fun k h => ⟨stn_setStn_ne h _ s, SMap.get_set_ne _ h _ _⟩, fun e => ?_⟩
    rw [hz] at e; cases e
theorem hbWords (b n : Nat) : ∀ (l : List Nat) (s : State), SMap.get 0 n s.die.hbOmit = 0 →
    (∀ p f, (l.foldl (fun t k => t.hbWord b k) s).get p f = s.get p f) ∧ (l.foldl (fun t k => t.hbWord b k) s).die.sync = s.die.sync ∧ (l.foldl (fun t k => t.hbWord b k) s).die.stations = s.die.stations
    ∧ SMap.get 0 n (l.foldl (fun t k => t.hbWord b k) s).die.hbOmit = 0
    ∧ ((n ∈ l ∨ ((s.stn n).word.ht = b ∧ (s.stn n).word.idx = b / 64 % 16)) → (((l.foldl (fun t k => t.hbWord b k) s).stn n).word.ht = b ∧ ((l.foldl (fun t k => t.hbWord b k) s).stn n).word.idx = b / 64 % 16)) := by
  intro l
  induction l with
  | nil => intro s h; exact ⟨fun _ _ => rfl, rfl, rfl, h, fun e => e.elim (fun e => absurd e (by simp)) id⟩
  | cons a l ih =>
    intro s h
    have r := hbWord_rest b a s
    by_cases e : n = a
    · subst e
      have q := r.2.2.2 h
      have k := ih (s.hbWord b n) q.1
      rw [List.foldl_cons]
      exact ⟨fun p f => (k.1 p f).trans (r.2.1 p f), by rw [k.2.1, r.1], by rw [k.2.2.1, r.1], k.2.2.2.1, fun _ => k.2.2.2.2 (.inr q.2)⟩
    · have q := r.2.2.1 n e
      have k := ih (s.hbWord b a) (by rw [q.2]; exact h)
      rw [List.foldl_cons]
      refine ⟨fun p f => (k.1 p f).trans (r.2.1 p f), by rw [k.2.1, r.1], by rw [k.2.2.1, r.1], k.2.2.2.1, fun m => k.2.2.2.2 ?_⟩
      rw [q.1]
      rcases m with m | m
      · rcases List.mem_cons.1 m with m | m
        · exact absurd m e
        · exact .inl m
      · exact .inr m
theorem hbMeasure_word (n k trip : Nat) (s : State) : ((s.hbMeasure n trip).stn k).word = (s.stn k).word := by
  unfold State.hbMeasure
  dsimp only
  by_cases e : k = n
  · subst e
    split
    · unfold State.hbQueue; dsimp only; rw [stn_setStn]; dsimp only; rw [stn_setStn]; dsimp only; rw [stn_setStn]
    · rw [stn_setStn]
  · split
    · unfold State.hbQueue; dsimp only; rw [stn_setStn_ne e, stn_setStn_ne e, stn_setStn_ne e]
    · rw [stn_setStn_ne e]
theorem hbMeasure_sync (n trip : Nat) (s : State) : (s.hbMeasure n trip).die.sync = s.die.sync ∧ (s.hbMeasure n trip).die.stations = s.die.stations := by
  unfold State.hbMeasure
  dsimp only
  split <;> exact ⟨rfl, rfl⟩
theorem stnLoss_spec (n c : Nat) (s : State) : (s.stnLoss n c).get .sc (Rg.STN_RT_UNREL n) = 1 ∧ (s.stnLoss n c).get .sc (Rg.STN_LOSS_CAUSE n) = setBit (s.get .sc (Rg.STN_LOSS_CAUSE n)) c % 4 := by
  unfold State.stnLoss
  dsimp only
  have a : ∀ x, (((s.put .sc (Rg.STN_RT_UNREL n) 1).put .sc (Rg.STN_LOSS_CAUSE n) (setBit (s.get .sc (Rg.STN_LOSS_CAUSE n)) c)).setStn n x).get .sc (Rg.STN_RT_UNREL n) = 1 := by
    intro x; rw [State.get_setStn, State.get_put_ne _ (by ((try simp only [Field.key, Rg.STN_RT_UNREL, Rg.STN_LOSS_CAUSE]); first | done | decide | omega | (simp; done) | (simp; omega))), State.get_put_same]; rfl
  have b : ∀ x, (((s.put .sc (Rg.STN_RT_UNREL n) 1).put .sc (Rg.STN_LOSS_CAUSE n) (setBit (s.get .sc (Rg.STN_LOSS_CAUSE n)) c)).setStn n x).get .sc (Rg.STN_LOSS_CAUSE n) = setBit (s.get .sc (Rg.STN_LOSS_CAUSE n)) c % 4 := by
    intro x; rw [State.get_setStn, State.get_put_same]; rfl
  split
  · exact ⟨a _, b _⟩
  · unfold State.faultAlert
    rw [(Regs.raise (Regs.refl (fun k => k = Rg.ALERT_FAULT.key) _) rfl) _ _ (by show _ ≠ _; ((try simp only [Field.key, Rg.STN_RT_UNREL, Rg.ALERT_FAULT]); first | done | decide | omega | (simp; done) | (simp; omega))), (Regs.raise (Regs.refl (fun k => k = Rg.ALERT_FAULT.key) _) rfl) _ _ (by show _ ≠ _; ((try simp only [Field.key, Rg.STN_LOSS_CAUSE, Rg.ALERT_FAULT]); first | done | decide | omega | (simp; done) | (simp; omega)))]
    exact ⟨a _, b _⟩

open Sys2Proof.Machine (SQueue QEntry SlotRef Slot)
/-- only the queues, the monitor and attendance of the die change -/
def DQ (s t : State) : Prop := t.die = { s.die with sync := { s.die.sync with queues := t.die.sync.queues, mon := t.die.sync.mon }, att := t.die.att }
theorem DQ.refl (s : State) : DQ s s := rfl
theorem DQ.trans {s t u : State} (h : DQ s t) (k : DQ t u) : DQ s u := by unfold DQ at *; rw [k, h]
theorem DQ.of_die {s t : State} (h : t.die = s.die) : DQ s t := by unfold DQ; rw [h]
theorem DQ.of_only {p : Part} {b : Bool} {K : Nat → Prop} {s t : State} (h : Only p b K s t) : DQ s t := by unfold DQ; rw [h.die]
theorem DQ.stn {s t : State} (h : DQ s t) (n : Nat) : t.stn n = s.stn n := by unfold State.stn; rw [h]
theorem setMon_dq (c : Nat) (m : Machine.MonCtx) (s : State) : DQ s (s.setMon c m) := rfl
theorem wake_die (p : Part) (u n : Nat) (s : State) : (s.wake p u n).die = s.die := by
  unfold State.wake State.bump State.setRung; dsimp only; split <;> cases p <;> rfl
theorem setRung_die (p : Part) (u n r x : Nat) (s : State) : (s.setRung p u n r x).die = s.die := by unfold State.setRung; cases p <;> rfl
theorem holdLadder_die (s : State) : s.holdLadder.die = s.die := by
  unfold State.holdLadder
  have a := foldl_keeps (fun t : State => t.die) (f := fun t (e : Nat × Nat × Nat) => t.wake .sc (e.1 / 1024) (e.1 % 1024)) (fun t e => wake_die ..) s.sc.start.rungs s
  refine Eq.trans ?_ a
  simp
theorem unholdLadder_die (s : State) : s.unholdLadder.die = s.die := by
  unfold State.unholdLadder
  have a := foldl_keeps (fun t : State => t.die) (f := fun t (e : Nat × Nat × Nat) => t.setRung .sc (e.1 / 1024) (e.1 % 1024) 0 s.now) (fun t e => setRung_die ..) s.sc.start.rungs s
  refine Eq.trans ?_ a
  simp
theorem monStall_dq (c : Nat) (s : State) : DQ s (s.monStall c) ∧ (s.monStall c).die.sync.queues = s.die.sync.queues := by
  unfold State.monStall
  dsimp only
  split
  · split
    · exact ⟨rfl, rfl⟩
    · exact ⟨rfl, rfl⟩
  · split
    · exact ⟨rfl, rfl⟩
    · exact ⟨rfl, rfl⟩
theorem ite3 {α : Type} (c d : Prop) [Decidable c] [Decidable d] (a b e : α) : (if c then a else if d then b else e) = a ∨ (if c then a else if d then b else e) = b ∨ (if c then a else if d then b else e) = e := by
  by_cases hc : c
  · rw [if_pos hc]; exact .inl rfl
  · rw [if_neg hc]; by_cases hd : d
    · rw [if_pos hd]; exact .inr (.inl rfl)
    · rw [if_neg hd]; exact .inr (.inr rfl)
theorem setQueue_shape (q : Nat) (x : SQueue) (s : State) : ∃ a b c d y z, (y = State.holdLadder z ∨ y = State.unholdLadder z ∨ y = z)
    ∧ z = (((((s.setSync { s.die.sync with queues := SMap.set q x s.die.sync.queues }).put .sc (Rg.Q_LEVEL q) a).putFlag .sc (Rg.Q_WAITING q) (match x.head with | some e => e.phase == Machine.QPhase.stalled | none => false)).put .sc (Rg.Q_HEAD_OP q) b).put .sc
    (Rg.Q_HEAD_CMD_LO q) c).put .sc (Rg.Q_HEAD_CMD_HI q) d ∧ s.setQueue q x = y.monStall (s.get .sc (Rg.Q_CTX q)) := by
  unfold State.setQueue
  dsimp only
  exact ⟨_, _, _, _, _, _, ite3 _ _ _ _ _, rfl, rfl⟩
theorem setQueue_dq (q : Nat) (x : SQueue) (s : State) : DQ s (s.setQueue q x) ∧ (s.setQueue q x).die.sync.queues = SMap.set q x s.die.sync.queues := by
  obtain ⟨a, b, c, d, y, z, hy, hz, e⟩ := setQueue_shape q x s
  have zd : z.die = { s.die with sync := { s.die.sync with queues := SMap.set q x s.die.sync.queues } } := by rw [hz]; rfl
  have yd : y.die = z.die := by rcases hy with h | h | h <;> rw [h]; exact holdLadder_die z; exact unholdLadder_die z
  rw [e]
  refine ⟨DQ.trans ?_ (monStall_dq _ _).1, (monStall_dq _ _).2.trans ?_⟩
  · unfold DQ; rw [yd, zd]
  · rw [yd, zd]
theorem queue_setQueue (q : Nat) (x : SQueue) (s : State) : (s.setQueue q x).queue q = x := by
  unfold State.queue; rw [(setQueue_dq q x s).2, SMap.get_set_same]
theorem queue_put (p : Part) (f : Machine.Field) (v q : Nat) (s : State) : (s.put p f v).queue q = s.queue q := by unfold State.queue; rw [State.put_die]
theorem queue_setStn (n q : Nat) (x : Station) (s : State) : (s.setStn n x).queue q = s.queue q := rfl
theorem queue_of {s t : State} (h : t.die.sync.queues = s.die.sync.queues) (q : Nat) : t.queue q = s.queue q := by unfold State.queue; rw [h]
theorem sendMonitor_all (c : Nat) (d : Bool) (s : State) : (s.sendMonitor c d).die = s.die ∧ (∀ p f, (s.sendMonitor c d).get p f = s.get p f) ∧ (s.sendMonitor c d).dieMem = s.dieMem := by
  have w : ∀ n x (t : State), (t.sendWord .sc n x).die = t.die ∧ (∀ p f, (t.sendWord .sc n x).get p f = t.get p f) ∧ (t.sendWord .sc n x).dieMem = t.dieMem := by
    intro n x t; unfold State.sendWord; split
    · exact ⟨State.die_setLink .., fun p f => State.get_modLink .., State.dieMem_setLink ..⟩
    · exact ⟨rfl, fun _ _ => rfl, rfl⟩
  unfold State.sendMonitor
  split
  · unfold State.dieUp State.sendUp State.sendWords
    exact ⟨foldl_keeps (fun t : State => t.die) (fun t n => (w n _ t).1) _ _, fun p f => foldl_keeps (fun t : State => t.get p f) (fun t n => (w n _ t).2.1 p f) _ _, foldl_keeps (fun t : State => t.dieMem) (fun t n => (w n _ t).2.2) _ _⟩
  · exact ⟨rfl, fun _ _ => rfl, rfl⟩
/-- the fields that a release writes -/
def relKeys (q k : Nat) : Prop := queueKeys q k ∨ attKeys k ∨ k = (Rg.MON_DEADLOCK_LO).key ∨ k = (Rg.MON_DEADLOCK_HI).key
theorem monEnd_keep (c : Nat) (s : State) : (s.monEnd c).die = s.die ∧ (∀ (q : Nat), Regs (relKeys q) s (s.monEnd c)) ∧ (s.monEnd c).dieMem = s.dieMem := by
  unfold State.monEnd
  dsimp only
  split
  · refine ⟨(sendMonitor_all ..).1.trans rfl, fun q => ?_, (sendMonitor_all ..).2.2.trans rfl⟩
    intro p f hf
    rw [(sendMonitor_all ..).2.1]
    unfold State.put64
    exact Regs.put (Regs.put (Regs.refl (relKeys q) s) (.inr (.inr (.inl rfl))) _) (.inr (.inr (.inr rfl))) _ p f hf
  · exact ⟨rfl, fun q => Regs.refl _ _, rfl⟩
theorem recordRelease_only (q : Nat) (e : QEntry) (st : Nat) (s : State) : Only .sc false attKeys s (s.recordRelease q e st) := by
  unfold State.recordRelease State.ctxRecord
  exact Only.ite (fun _ => Only.record (Only.refl _ _ _ _) (fun _ h => h) _) fun _ => Only.refl _ _ _ _
theorem setQueue_mem (q : Nat) (x : SQueue) (s : State) : (s.setQueue q x).dieMem = s.dieMem := by
  have wk : ∀ u n (t : State), (t.wake .sc u n).dieMem = t.dieMem := by intro u n t; unfold State.wake State.bump State.setRung; dsimp only; split <;> rfl
  have h1 : ∀ t : State, t.holdLadder.dieMem = t.dieMem := by
    intro t; unfold State.holdLadder
    have a := foldl_keeps (fun t : State => t.dieMem) (f := fun t (e : Nat × Nat × Nat) => t.wake .sc (e.1 / 1024) (e.1 % 1024)) (fun t e => wk _ _ t) t.sc.start.rungs t
    refine Eq.trans ?_ a; simp
  have h2 : ∀ t : State, t.unholdLadder.dieMem = t.dieMem := by
    intro t; unfold State.unholdLadder
    have a := foldl_keeps (fun u : State => u.dieMem) (f := fun u (e : Nat × Nat × Nat) => u.setRung .sc (e.1 / 1024) (e.1 % 1024) 0 t.now) (fun u e => rfl) t.sc.start.rungs t
    refine Eq.trans ?_ a; simp
  have h3 : ∀ c (t : State), (t.monStall c).dieMem = t.dieMem := by
    intro c t; unfold State.monStall; dsimp only; split
    · split <;> rfl
    · split <;> rfl
  obtain ⟨a, b, c, d, y, z, hy, hz, e⟩ := setQueue_shape q x s
  rw [e, h3]
  rcases hy with h | h | h <;> rw [h]
  · rw [h1, hz]; rfl
  · rw [h2, hz]; rfl
  · rw [hz]; rfl
theorem modTag_at {q : Nat} {e : QEntry} {pre rest : List QEntry} {s : State} (h : InQueue q pre e rest s) (f : QEntry → QEntry) (x : Machine.SQueue) (hx : x.entries = (s.queue q).entries) :
    x.modTag e.tag f = { x with entries := pre ++ f e :: rest } := by
  unfold SQueue.modTag
  rw [hx, h.here, List.map_append, List.map_cons, if_pos rfl]
  have k : ∀ l : List QEntry, (∀ y ∈ l, y.tag ≠ e.tag) → l.map (fun k => if k.tag = e.tag then f k else k) = l := by
    intro l hl
    induction l with
    | nil => rfl
    | cons a l ih => rw [List.map_cons, if_neg (hl a (by simp)), ih fun y hy => hl y (by simp [hy])]
  rw [k pre fun y hy => h.own y (by simp [hy]), k rest fun y hy => h.own y (by simp [hy])]
theorem resolve_one {q st fl : Nat} {e : QEntry} {pre rest : List QEntry} {s : State} (h : InQueue q pre e rest s) :
    DQ s (s.qResolve q e.tag st fl) ∧ (s.qResolve q e.tag st fl).queue q = { s.queue q with
      entries := (popDone (pre ++ { e with out := some (st, fl + ofBool e.unfenced), phase := .passed } :: rest)).2,
      rels := (popDone (pre ++ { e with out := some (st, fl + ofBool e.unfenced), phase := .passed } :: rest)).1.reverse ++ (s.queue q).rels }
    ∧ Regs (relKeys q) s (s.qResolve q e.tag st fl) ∧ (s.qResolve q e.tag st fl).dieMem = s.dieMem := by
  unfold State.qResolve
  have f : ((s.queue q).entries.find? fun k => k.tag == e.tag && k.out.isNone) = some e := by
    rw [h.here, List.find?_append, List.find?_cons_of_pos (by simp [h.unanswered])]
    rw [List.find?_eq_none.2 fun x hx => by simp [h.own x (by simp [hx])]]; rfl
  simp only [f]
  rw [modTag_at h _ _ rfl]
  dsimp only
  generalize popDone _ = r
  have ro := recordRelease_only q e st s
  have ke : ∀ u : State, (if r.1.isEmpty then u else u.monEnd (s.get .sc (Rg.Q_CTX q))).die = u.die ∧ Regs (relKeys q) u (if r.1.isEmpty then u else u.monEnd (s.get .sc (Rg.Q_CTX q)))
      ∧ (if r.1.isEmpty then u else u.monEnd (s.get .sc (Rg.Q_CTX q))).dieMem = u.dieMem := by
    intro u; split
    · exact ⟨rfl, Regs.refl _ _, rfl⟩
    · exact ⟨(monEnd_keep _ _).1, (monEnd_keep _ _).2.1 q, (monEnd_keep _ _).2.2⟩
  refine ⟨?_, ?_, ?_, ?_⟩
  · exact (DQ.of_only ro).trans ((setQueue_dq _ _ _).1.trans (DQ.of_die (ke _).1))
  · unfold State.queue; rw [(ke _).1]
    show State.queue q (State.setQueue q _ _) = _
    rw [queue_setQueue]
  · exact Regs.trans (setQueue_regs (Regs.of_only (ro.mono fun _ k => .inr (.inl k))) fun _ k => .inl k) (ke _).2.1
  · rw [(ke _).2.2, setQueue_mem]; exact ro.rest.2.2.1
theorem inQueue_of {q : Nat} {e : QEntry} {pre rest : List QEntry} {s t : State} (h : InQueue q pre e rest s) (k : (t.queue q).entries = (s.queue q).entries) : InQueue q pre e rest t :=
  ⟨k.trans h.here, h.own, h.unanswered⟩
theorem head_at {e : QEntry} {pre rest : List QEntry} (x : Machine.SQueue) (hp : ∀ y ∈ pre, y.phase = .passed) (he : e.phase ≠ .passed) (h : x.entries = pre ++ e :: rest) : x.head = some e := by
  unfold SQueue.head
  rw [h, List.find?_append, List.find?_cons_of_pos (by simpa using he), List.find?_eq_none.2 fun y hy => by simp [hp y hy]]; rfl
theorem head_one {q : Nat} {e : QEntry} {pre rest : List QEntry} {s : State} (h : InQueue q pre e rest s) (hs : ∀ y ∈ pre, y.phase = .passed) (hp : e.phase ≠ .passed) : (s.queue q).head = some e :=
  head_at _ hs hp h.here
theorem atHead_one {q : Nat} {e : QEntry} {pre rest : List QEntry} {s : State} (h : AtHead q pre e rest s) (es : List Nat) (ops : Nat → Bool) (ho : ops e.op = true) (run : QEntry → State → State) :
    s.atHead q es ops run = run e (s.stnEdges (s.get .sc (Rg.Q_STATION q)) es) := by
  unfold State.atHead
  rw [h.live, head_one h.toInQueue h.passed (by rw [h.fresh]; decide)]
  simp only [Bool.not_true, Bool.false_eq_true, if_false, h.fresh, ho, beq_self_eq_true, Bool.and_self]
  have sb : ∀ t : State, t.strayBits q e = t := by
    intro t; unfold State.strayBits
    rw [if_neg]
    intro c; simp at c
    exact c.2 (h.clean c.1)
  rw [sb]
  have : (if e.op ≤ 10 then cleanCmd e.cmd else e.cmd) = e.cmd := by split; exact h.clean ‹_›; rfl
  rw [this, ← h.fresh]
theorem edges_get (n : Nat) (es : List Nat) (p : Part) (f : Machine.Field) (s : State) : (s.stnEdges n es).get p f = s.get p f := State.get_setStn ..
theorem edges_queue (n q : Nat) (es : List Nat) (s : State) : (s.stnEdges n es).queue q = s.queue q := rfl
theorem released_of {q st fl : Nat} {e : QEntry} {pre rest : List QEntry} {s t : State} (he : (t.queue q) = { s.queue q with
      entries := (popDone (pre ++ { e with out := some (st, fl + ofBool e.unfenced), phase := .passed } :: rest)).2,
      rels := (popDone (pre ++ { e with out := some (st, fl + ofBool e.unfenced), phase := .passed } :: rest)).1.reverse ++ (s.queue q).rels }) : Released q pre e rest st fl s t := by
  unfold Released; rw [he]; exact ⟨rfl, rfl⟩
def ladKeys (k : Nat) : Prop := ∃ u, k = (Rg.PL_HELD u).key ∨ k = (Rg.PL_WAKES u).key ∨ k = (Rg.PL_UNITS_DOWN u).key
theorem setQueue_waiting (q : Nat) (x : SQueue) (s : State) : (s.setQueue q x).get .sc (Rg.Q_WAITING q) = ofBool (match x.head with | some e => e.phase == Machine.QPhase.stalled | none => false) := by
  obtain ⟨a, b, c, d, y, z, hy, hz, e⟩ := setQueue_shape q x s
  have lk : ∀ u, ladKeys (Rg.PL_HELD u).key ∧ ladKeys (Rg.PL_WAKES u).key ∧ ladKeys (Rg.PL_UNITS_DOWN u).key := fun u => ⟨⟨u, .inl rfl⟩, ⟨u, .inr (.inl rfl)⟩, ⟨u, .inr (.inr rfl)⟩⟩
  have nk : ¬ ladKeys (Rg.Q_WAITING q).key := by
    rintro ⟨u, h | h | h⟩ <;> revert h <;> (change _ ≠ _; ((try simp only [Field.key, Rg.Q_WAITING, Rg.PL_HELD, Rg.PL_WAKES, Rg.PL_UNITS_DOWN]); first | done | decide | omega | (simp; done) | (simp; omega)))
  rw [e, (monStall_regs (Regs.refl (fun _ => False) _)) _ _ (fun h => h)]
  have zv : z.get .sc (Rg.Q_WAITING q) = ofBool (match x.head with | some e => e.phase == Machine.QPhase.stalled | none => false) := by
    rw [hz, State.get_put_ne _ (by ((try simp only [Field.key, Rg.Q_WAITING, Rg.Q_HEAD_CMD_HI]); first | done | decide | omega | (simp; done) | (simp; omega))), State.get_put_ne _ (by ((try simp only [Field.key, Rg.Q_WAITING, Rg.Q_HEAD_CMD_LO]); first | done | decide | omega | (simp; done) | (simp; omega))), State.get_put_ne _ (by ((try simp only [Field.key, Rg.Q_WAITING, Rg.Q_HEAD_OP]); first | done | decide | omega | (simp; done) | (simp; omega)))]; unfold State.putFlag; rw [State.get_put_same]
    cases (match x.head with | some e => e.phase == Machine.QPhase.stalled | none => false) <;> rfl
  rcases hy with h | h | h <;> rw [h]
  · rw [holdLadder_regs (Regs.refl ladKeys z) lk _ _ nk]; exact zv
  · rw [unholdLadder_regs (Regs.refl ladKeys z) (fun u => (lk u).1) _ _ nk]; exact zv
  · exact zv
theorem launch_sync (n target src : Nat) (s : State) : (s.launch n target src).2.die.sync = { s.die.sync with events := (s.launch n target src).2.die.sync.events } := by
  unfold State.launch
  dsimp only
  split
  · dsimp only; rw [(stnRecord_ev _ _ _ _).die]; rfl
  · rfl
theorem launchHead_one {q op src x : Nat} {es : List Nat} {e : QEntry} {pre rest : List QEntry} {s : State} (hl : s.queueLive q = true) (h1 : InQueue q pre e rest s) (hp : ∀ y ∈ pre, y.phase = .passed) (h2 : e.phase = .stalled) (h3 : e.op = op) 
    (h5 : e.target = some x) (h6 : ((s.stn (s.get .sc (Rg.Q_STATION q))).edges (s.period (s.get .sc (Rg.Q_STATION q))) es).reached x = true) :
    ∃ late : Bool, Released q pre e rest 0 (2 * ofBool late + 4 * s.get .sc (Rg.STN_RT_UNREL (s.get .sc (Rg.Q_STATION q)))) s (s.launchHead q es op src) := by
  unfold State.launchHead
  dsimp only
  rw [head_one h1 hp (by rw [h2]; decide)]
  have c : (e.phase == Machine.QPhase.stalled && e.op == op) = true := by rw [h2, h3]; simp
  simp only [hl, c, h5, Bool.not_true, Bool.false_eq_true, if_false]
  rw [stnEdges_stn, h6]
  simp only [Bool.not_true, Bool.false_eq_true, if_false]
  refine ⟨(State.launch (s.get .sc (Rg.Q_STATION q)) x src (s.stnEdges (s.get .sc (Rg.Q_STATION q)) es)).1, released_of ?_⟩
  have lq : ∀ a b c (u : State), (u.launch a b c).2.queue q = u.queue q := fun a b c u => queue_of (by rw [launch_sync]) q
  rw [(resolve_one (inQueue_of h1 (by rw [lq]; rfl))).2.1, lq]; rfl

open Sys2Proof.Machine (CreateArgs)
theorem find_erase {α : Type} (k : Nat) (m : SMap α) : SMap.find k (SMap.erase k m) = none := by
  unfold SMap.erase
  induction m with
  | nil => rfl
  | cons a m ih =>
    by_cases e : a.1 = k
    · simp [e, ih]
    · have : (a.1 != k) = true := by simpa using e
      rw [List.filter_cons, if_pos this]
      obtain ⟨j, v⟩ := a
      show (if k = j then some v else SMap.find k _) = none
      rw [if_neg (fun h => e h.symm)]; exact ih
theorem writeFields_wo {p : Part} {fs : List Machine.Field} {v k : Nat} {only : Machine.Field → Bool} {s : State} (ha : ∀ f ∈ fs, f.acc = .wo)
    (r : ∀ i < 32, bit (reservedBits fs) i = true → k ≤ i) (hv : v < 2 ^ k) : s.writeFields p fs v only = s := by
  rw [writeFields_plain only s r hv]
  have : ∀ (l : List Machine.Field) (t : State), (∀ f ∈ l, f.acc = .wo) → l.foldl (fun (t : State) f => match f.acc with
    | .rw => if f.takes (bits v f.lo f.width) then t.put p f (bits v f.lo f.width) else t.rsvd p
    | .w1c => t.put p f (minusMask f.width (t.get p f) (bits v f.lo f.width))
    | _ => t) t = t := by
    intro l
    induction l with
    | nil => intro t _; rfl
    | cons a l ih =>
      intro t h
      rw [List.foldl_cons]
      have := h a (by simp)
      simp only [this]
      exact ih t fun f hf => h f (by simp [hf])
  exact this _ _ fun f hf => ha f (List.mem_filter.1 hf).1
theorem create_hub {a : CreateArgs} {i : Nat} {s : State} (h1 : a.scope = 1) (h2 : s.createOk a = true) (h3 : s.handle a.ctx a.handle = none)
    (h4 : s.get .sc (Rg.CTX_HANDLES_USED a.ctx) < s.get .sc (Rg.CTX_HANDLE_QUOTA a.ctx)) (h5 : firstFresh s.die.sync.slots 16384 0 = some i) :
    ∃ t, s.createSlot a = (0, i, ((s.slotAt (.hub i)).gen + 1) % 256, t) ∧ t.handle a.ctx a.handle = some (.hub i)
      ∧ (t.slotAt (.hub i)).state = .counting ∧ (t.slotAt (.hub i)).scope = 1 ∧ (t.slotAt (.hub i)).headcount = a.headcount ∧ (t.slotAt (.hub i)).part = a.part
      ∧ (t.slotAt (.hub i)).arr = 0 ∧ (∀ f : Machine.Field, f.key ≠ (Rg.CTX_HANDLES_USED a.ctx).key → t.get .sc f = s.get .sc f) := by
  unfold State.createSlot
  have al : allocSlot s.die.sync.slots s.die.sync.freed 16384 s.now = .inl i := by unfold allocSlot; rw [h5]
  have e1 : ¬ a.scope = 2 := by omega
  have e2 : ¬ 2 ≤ a.scope := by omega
  have e3 : ¬ a.scope = 3 := by omega
  have e0 : ¬ a.scope = 0 := by omega
  have e4 : ¬ s.get .sc (Rg.CTX_HANDLE_QUOTA a.ctx) ≤ s.get .sc (Rg.CTX_HANDLES_USED a.ctx) := by omega
  simp only [e1, e2, e3, e0, e4, h2, h3, al, decide_false, Bool.false_and, Bool.not_true, Option.isSome_none, Bool.false_eq_true, if_false]
  have e5 : a.scope < 2 := by omega
  simp only [e5, if_true]
  refine ⟨_, rfl, ?_, ?_, ?_, ?_, ?_, ?_, ?_⟩
  · unfold State.handle; rw [State.put_die]; show SMap.find _ (SMap.set _ _ _) = _; rw [SMap.find_set_same]
  · unfold State.slotAt; rw [State.put_die]; show Slot.state (SMap.get _ _ (SMap.set _ _ _)) = _; rw [SMap.get_set_same]
  · unfold State.slotAt; rw [State.put_die]; show Slot.scope (SMap.get _ _ (SMap.set _ _ _)) = _; rw [SMap.get_set_same]; exact h1
  · unfold State.slotAt; rw [State.put_die]; show Slot.headcount (SMap.get _ _ (SMap.set _ _ _)) = _; rw [SMap.get_set_same]
  · unfold State.slotAt; rw [State.put_die]; show Slot.part (SMap.get _ _ (SMap.set _ _ _)) = _; rw [SMap.get_set_same]
  · unfold State.slotAt; rw [State.put_die]; show Slot.arr (SMap.get _ _ (SMap.set _ _ _)) = _; rw [SMap.get_set_same]
  · intro f hf; rw [State.get_put_ne _ hf]; rfl
theorem free_hub {i : Nat} {s : State} (h1 : (s.slotAt (.hub i)).scope = 1) (h2 : (s.slotAt (.hub i)).waits = []) (h3 : (s.slotAt (.hub i)).hostWaits = [])
    (h4 : s.die.pay.descs = []) (h5 : s.die.pay.held = []) :
    (s.barrierFree (.hub i)).handle (s.slotAt (.hub i)).ctx (s.slotAt (.hub i)).handle = none ∧ ((s.barrierFree (.hub i)).slotAt (.hub i)).state = .free
      ∧ ((s.barrierFree (.hub i)).slotAt (.hub i)).gen = (s.slotAt (.hub i)).gen ∧ (s.barrierFree (.hub i)).die.sync.freed = s.die.sync.freed ++ [(i, s.now)] := by
  have r1 : s.relWaiters (.hub i) 1 (fun _ => true) = s.setSlotAt (.hub i) (s.slotAt (.hub i)) := by
    unfold State.relWaiters
    have e : ∀ v : Slot, v.waits = [] → v.hostWaits = [] → ({ v with waits := v.waits.filter fun _ => !true, hostWaits := v.hostWaits.filter fun _ => !true } : Slot) = v := by
      intro v a b; obtain ⟨⟩ := v; simp only at a b; subst a; subst b; rfl
    dsimp only
    rw [e _ h2 h3, h2, h3]; rfl
  generalize hv : s.slotAt (.hub i) = v at *
  have r2 : (s.setSlotAt (.hub i) v).endDescs (.hub i) 1 1 (fun _ => true) = (s.setSlotAt (.hub i) v).setPay (s.setSlotAt (.hub i) v).die.pay := by
    unfold State.endDescs
    have d : (s.setSlotAt (.hub i) v).die.pay.descs = [] := h4
    have h : (s.setSlotAt (.hub i) v).die.pay.held = [] := h5
    have e : ∀ x : Machine.PaySt, x.held = [] → ({ x with held := x.held.filter fun h => h.ref != .hub i } : Machine.PaySt) = x := by
      intro x a; obtain ⟨⟩ := x; simp only at a; subst a; rfl
    dsimp only
    rw [d]
    simp only [List.filter_nil, List.foldl_nil]
    rw [e _ h]
  have s1 : ((s.setSlotAt (.hub i) v).setPay (s.setSlotAt (.hub i) v).die.pay).slotAt (.hub i) = v := by
    unfold State.slotAt State.setPay; rw [State.put_die]; show SMap.get _ _ (SMap.set _ _ _) = _; rw [SMap.get_set_same]
  have r3 : ((s.setSlotAt (.hub i) v).setPay (s.setSlotAt (.hub i) v).die.pay).withdrawSlot (.hub i) = (s.setSlotAt (.hub i) v).setPay (s.setSlotAt (.hub i) v).die.pay := by
    unfold State.withdrawSlot; rw [s1]; dsimp only; rw [if_pos (by simp; omega)]
  have bf : s.barrierFree (.hub i) = ((s.setSlotAt (.hub i) v).setPay (s.setSlotAt (.hub i) v).die.pay).freeSlot (.hub i) := by
    unfold State.barrierFree; rw [r1, r2, r3]
  rw [bf]
  unfold State.freeSlot
  rw [s1]
  refine ⟨?_, ?_, ?_, ?_⟩
  · unfold State.handle State.putFlag; rw [State.put_die, State.put_die]; show SMap.find _ (SMap.erase _ _) = _; exact find_erase ..
  · unfold State.slotAt State.putFlag; rw [State.put_die, State.put_die]; show Slot.state (SMap.get _ _ (SMap.set _ _ _)) = _; rw [SMap.get_set_same]
  · unfold State.slotAt State.putFlag; rw [State.put_die, State.put_die]; show Slot.gen (SMap.get _ _ (SMap.set _ _ _)) = _; rw [SMap.get_set_same]
  · unfold State.putFlag; rw [State.put_die, State.put_die]; rfl
theorem sdiff16_self (a : Nat) : sdiff16 a a = 0 := by
  unfold Machine.sdiff16 Machine.sdiff Machine.toSigned
  have : (a + 2 ^ 16 - a % 2 ^ 16) % 2 ^ 16 = 0 := by omega
  rw [this]; decide
theorem arrive_hub {i p kind idx stamp epoch : Nat} {auto : Bool} {s : State} (h1 : (s.slotAt (.hub i)).state = .counting) (h2 : (s.slotAt (.hub i)).local_ = true) (h3 : (s.slotAt (.hub i)).scope = 1)
    (h4 : bit (s.slotAt (.hub i)).part p = true) (h5 : bit (s.slotAt (.hub i)).arr p = false) (h6 : auto = true ∨ epoch = (s.slotAt (.hub i)).e)
    (h7 : popCount 129 (setBit (s.slotAt (.hub i)).arr p) ≠ (s.slotAt (.hub i)).headcount) :
    (s.arriveAt (.hub i) p kind idx stamp epoch auto).1 = 0 ∧ (s.arriveAt (.hub i) p kind idx stamp epoch auto).2.1 = (s.slotAt (.hub i)).e
    ∧ (s.arriveAt (.hub i) p kind idx stamp epoch auto).2.2.slotAt (.hub i) = { s.slotAt (.hub i) with arr := setBit (s.slotAt (.hub i)).arr p, sigKind := kind, sigIdx := idx, sigHt32 := stamp / 65536 % 2 ^ 32, sigStamp := stamp }
    ∧ Regs (relKeys 0) s (s.arriveAt (.hub i) p kind idx stamp epoch auto).2.2 := by
  generalize hv : s.slotAt (.hub i) = v at *
  have tg : v.target p auto epoch = v.e := by
    unfold Slot.target; rcases h6 with h | h
    · simp [h, h5]
    · cases auto <;> simp [h, h5]
  have ap : v.apply p v.e kind idx stamp = (0, { v with arr := setBit v.arr p, sigKind := kind, sigIdx := idx, sigHt32 := stamp / 65536 % 2 ^ 32, sigStamp := stamp }) := by
    unfold Slot.apply
    have z : sdiff16 v.e v.e = 0 := by exact sdiff16_self _
    have st : ¬ (v.state = Machine.SlotState.stale) := by rw [h1]; decide
    simp [st, h2, h4, h5, z, Slot.signed, h3]
  unfold State.arriveAt
  simp only [hv, tg, ap]
  simp only [show ¬ (0 = 2) by omega, show ¬ (0 = 3) by omega, decide_false, Bool.or_self, Bool.false_eq_true, if_false, if_true]
  generalize hw : ({ v with arr := setBit v.arr p, sigKind := kind, sigIdx := idx, sigHt32 := stamp / 65536 % 2 ^ 32, sigStamp := stamp } : Slot) = w
  generalize hx : ({ kind := 0x01, obj := v.handle, arg := idx % 128 + 256 * 0, epoch := v.e } : Machine.Rec) = x
  have r1 : Only .sc false attKeys (s.setSlotAt (.hub i) w) ((s.setSlotAt (.hub i) w).ctxRecord v.ctx x) := by
    unfold State.ctxRecord; exact Only.record (Only.refl _ _ _ _) (fun _ h => h) _
  generalize hy : (s.setSlotAt (.hub i) w).ctxRecord v.ctx x = y at r1
  have ys : y.slotAt (.hub i) = w := by
    unfold State.slotAt; rw [r1.die]; show SMap.get _ _ (SMap.set _ _ _) = _; rw [SMap.get_set_same]
  have ma : (y.monArrival v.ctx).slotAt (.hub i) = w := by
    unfold State.slotAt State.monArrival; rw [(monEnd_keep _ _).1]; exact ys
  have sc : (y.monArrival v.ctx).slotTest (.hub i) = y.monArrival v.ctx := by
    unfold State.slotTest State.slotCheck
    rw [ma]
    have w1 : w.state = .counting := by rw [← hw]; exact h1
    have w2 : w.scope < 2 := by rw [← hw]; show v.scope < 2; omega
    have w3 : (popCount 129 w.arr == w.headcount) = false := by rw [← hw]; exact beq_eq_false_iff_ne.2 h7
    simp only [w1, w2, w3, bne_self_eq_false, Bool.and_false, Bool.false_eq_true, if_false, if_true]
  rw [sc]
  refine ⟨trivial, trivial, ma, ?_⟩
  unfold State.monArrival
  refine Regs.trans (Regs.trans (t := s.setSlotAt (.hub i) w) (Regs.of_regs fun q => by cases q <;> rfl) (Regs.of_only (r1.mono fun _ k => .inr (.inl k)))) ?_
  refine Regs.trans (t := y.setMon v.ctx _) (Regs.of_regs fun q => ?_) ((monEnd_keep _ _).2.1 0)
  rw [State.unit_setMon]
theorem clear_empty {m : MbGo} {code c : Nat} {s : State} (hb : m.box < 8) (hp : m.part = .sc) (h2 : c < 64) (h3 : s.boundQueues c = []) (h4 : s.ctxSlots c = []) (h5 : s.die.pay.descs = []) (h6 : s.die.queues ≤ 128) :
    (s.mbSubmit m code).clearContext c = (((s.mbSubmit m code).put64 (Rg.HF_FLAG_LO c) (Rg.HF_FLAG_HI c) 0).put64 (Rg.HF_SIG_LO c) (Rg.HF_SIG_HI c) 0).setMon c {}
    ∧ ((((s.mbSubmit m code).put64 (Rg.HF_FLAG_LO c) (Rg.HF_FLAG_HI c) 0).put64 (Rg.HF_SIG_LO c) (Rg.HF_SIG_HI c) 0).setMon c {}).get .sc (Rg.MB_OWNED m.box) = 1
    ∧ ((((s.mbSubmit m code).put64 (Rg.HF_FLAG_LO c) (Rg.HF_FLAG_HI c) 0).put64 (Rg.HF_SIG_LO c) (Rg.HF_SIG_HI c) 0).setMon c {}).get .sc (Rg.HF_FLAG_LO c) = 0
    ∧ ((((s.mbSubmit m code).put64 (Rg.HF_FLAG_LO c) (Rg.HF_FLAG_HI c) 0).put64 (Rg.HF_SIG_LO c) (Rg.HF_SIG_HI c) 0).setMon c {}).get .sc (Rg.HF_FLAG_HI c) = 0
    ∧ ((((s.mbSubmit m code).put64 (Rg.HF_FLAG_LO c) (Rg.HF_FLAG_HI c) 0).put64 (Rg.HF_SIG_LO c) (Rg.HF_SIG_HI c) 0).setMon c {}).get .sc (Rg.HF_SIG_LO c) = 0
    ∧ ((((s.mbSubmit m code).put64 (Rg.HF_FLAG_LO c) (Rg.HF_FLAG_HI c) 0).put64 (Rg.HF_SIG_LO c) (Rg.HF_SIG_HI c) 0).setMon c {}).get .sc (Rg.HF_SIG_HI c) = 0 := by
  have g : ∀ f, ¬ mbKeys f.key → (s.mbSubmit m code).get .sc f = s.get .sc f := fun f hf => get_sub hb _ hf .sc
  have ow := owned_mbSubmit m code s
  rw [hp] at ow
  refine ⟨?_, ?_, ?_, ?_, ?_, ?_⟩
  · unfold State.clearContext
    have bq : (s.mbSubmit m code).boundQueues c = [] := by
      rw [← h3]; unfold State.boundQueues; rw [mbSubmit_die]
      refine List.filter_congr fun q hq => ?_
      have : q < 128 := by have : q < s.die.queues := by simpa using hq
                           omega
      unfold State.flag; rw [g _ (by (unfold mbKeys; ((try simp only [Field.key, Rg.Q_BOUND]); first | done | decide | omega | (simp; done) | (simp; omega)))), g _ (by (unfold mbKeys; ((try simp only [Field.key, Rg.Q_CTX]); first | done | decide | omega | (simp; done) | (simp; omega))))]
    have cs : (s.mbSubmit m code).ctxSlots c = [] := by unfold State.ctxSlots at *; rw [mbSubmit_die]; exact h4
    have ds : (s.mbSubmit m code).die.pay.descs = [] := by rw [mbSubmit_die]; exact h5
    simp only [bq, cs, ds, List.foldl_nil, List.filter_nil]
  all_goals (rw [State.get_setMon]; unfold State.put64; simp (disch := ((try simp only [Field.key, Rg.MB_OWNED, Rg.HF_SIG_HI, Rg.HF_SIG_LO, Rg.HF_FLAG_HI, Rg.HF_FLAG_LO]); first | done | decide | omega | (simp; done) | (simp; omega))) only [State.get_put_ne, State.get_put_same])
  · exact ow
  all_goals rfl
theorem comp_die (p : Part) (b : Nat) (fixed : List (Nat × Nat)) (s : State) : (s.mbComplete p b (.ok fixed)).die = s.die := by
  unfold State.mbComplete
  split
  · rw [ans_ok, mbDone_die]
  · rfl

theorem partialAt_first {i d : Nat} {b : Body} {s : State} (h : (s.slotAt (.hub i)).acc.isElem = false) (hd : d = s.die.pkgIndex) :
    s.partialAt (.hub i) d b = s.setSlotAt (.hub i) { s.slotAt (.hub i) with acc := (s.slotAt (.hub i)).acc.combine b, hasAcc := true } := by
  unfold State.partialAt Slot.addPartial
  rw [h]
  simp only [Bool.and_false, Bool.false_and, Bool.false_eq_true, if_false, hd, if_true]
theorem slotAt_set (i : Nat) (v : Slot) (s : State) : (s.setSlotAt (.hub i) v).slotAt (.hub i) = v := by
  unfold State.slotAt; show SMap.get _ _ (SMap.set _ _ _) = _; rw [SMap.get_set_same]
theorem setSlot_twice (i : Nat) (v w : Slot) (s : State) : ((s.setSlotAt (.hub i) v).setSlotAt (.hub i) w).slotAt (.hub i) = w := slotAt_set ..
theorem arrive_pay {i p stamp epoch : Nat} {b : Body} {s : State} (h1 : (s.slotAt (.hub i)).state = .counting) (h2 : (s.slotAt (.hub i)).local_ = true) (h3 : (s.slotAt (.hub i)).scope = 3)
    (h4 : bit (s.slotAt (.hub i)).part p = true) (h5 : bit (s.slotAt (.hub i)).arr p = false) (h6 : epoch = (s.slotAt (.hub i)).e)
    (h7 : popCount 129 (setBit (s.slotAt (.hub i)).arr p) ≠ (s.slotAt (.hub i)).headcount) (h8 : (s.slotAt (.hub i)).acc.isElem = false) (h9 : s.die.pkgIndex ≠ 0) :
    (s.arriveAt (.hub i) p 0 p stamp epoch false (some b)).1 = 0 ∧ (s.arriveAt (.hub i) p 0 p stamp epoch false (some b)).2.1 = epoch
    ∧ (s.arriveAt (.hub i) p 0 p stamp epoch false (some b)).2.2.slotAt (.hub i) = { s.slotAt (.hub i) with arr := setBit (s.slotAt (.hub i)).arr p, sigKind := 0, sigIdx := p, sigHt32 := stamp / 65536 % 2 ^ 32, sigStamp := stamp, acc := (s.slotAt (.hub i)).acc.combine b, hasAcc := true }
    ∧ Regs (relKeys 0) s (s.arriveAt (.hub i) p 0 p stamp epoch false (some b)).2.2
    ∧ (s.arriveAt (.hub i) p 0 p stamp epoch false (some b)).2.2.die.sync.rels = s.die.sync.rels ∧ (s.arriveAt (.hub i) p 0 p stamp epoch false (some b)).2.2.die.pay = s.die.pay := by
  generalize hv : s.slotAt (.hub i) = v at *
  have tg : v.target p false epoch = v.e := by unfold Slot.target; simp [h6]
  have ap : v.apply p v.e 0 p stamp = (0, { v with arr := setBit v.arr p, sigKind := 0, sigIdx := p, sigHt32 := stamp / 65536 % 2 ^ 32, sigStamp := stamp }) := by
    unfold Slot.apply
    have z : sdiff16 v.e v.e = 0 := by exact sdiff16_self _
    have st : ¬ (v.state = Machine.SlotState.stale) := by rw [h1]; decide
    simp [st, h2, h4, h5, z, Slot.signed, h3]
  unfold State.arriveAt
  simp only [hv, tg, ap]
  simp only [show ¬ (0 = 2) by omega, show ¬ (0 = 3) by omega, decide_false, Bool.or_self, Bool.false_eq_true, if_false, if_true, bne_self_eq_false]
  have e8 : ({ v with arr := setBit v.arr p, sigKind := 0, sigIdx := p, sigHt32 := stamp / 65536 % 2 ^ 32, sigStamp := stamp } : Slot).acc.isElem = false := h8
  have pe : ∀ z : Slot, z.acc.isElem = false → (s.setSlotAt (.hub i) z).partialAt (.hub i) s.die.pkgIndex b = (s.setSlotAt (.hub i) z).setSlotAt (.hub i) { z with acc := z.acc.combine b, hasAcc := true } := by
    intro z hz; have k := partialAt_first (i := i) (d := s.die.pkgIndex) (b := b) (s := s.setSlotAt (.hub i) z) (by rw [slotAt_set]; exact hz) rfl; rw [k, slotAt_set]
  rw [pe _ e8]
  generalize hw : ({ v with arr := setBit v.arr p, sigKind := 0, sigIdx := p, sigHt32 := stamp / 65536 % 2 ^ 32, sigStamp := stamp, acc := v.acc.combine b, hasAcc := true } : Slot) = w
  generalize hx : ({ kind := 0x01, obj := v.handle, arg := p % 128 + 256 * 0, epoch := v.e } : Machine.Rec) = x
  generalize hs' : (s.setSlotAt (.hub i) { v with arr := setBit v.arr p, sigKind := 0, sigIdx := p, sigHt32 := stamp / 65536 % 2 ^ 32, sigStamp := stamp }).setSlotAt (.hub i) w = s'
  have s's : s'.slotAt (.hub i) = w := by rw [← hs']; exact slotAt_set ..
  have s'd : s'.die.sync.rels = s.die.sync.rels ∧ s'.die.pay = s.die.pay ∧ s'.die.pkgIndex = s.die.pkgIndex := by rw [← hs']; exact ⟨rfl, rfl, rfl⟩
  have s'r : Regs (relKeys 0) s s' := by rw [← hs']; exact Regs.of_regs fun q => by cases q <;> rfl
  have r1 : Only .sc false attKeys s' (s'.ctxRecord v.ctx x) := by
    unfold State.ctxRecord; exact Only.record (Only.refl _ _ _ _) (fun _ h => h) _
  generalize hy : s'.ctxRecord v.ctx x = y at r1
  have ys : y.slotAt (.hub i) = w := by rw [← s's]; unfold State.slotAt; rw [r1.die]
  have md : (y.monArrival v.ctx).die = { y.die with sync := { y.die.sync with mon := (y.monArrival v.ctx).die.sync.mon } } := by unfold State.monArrival; rw [(monEnd_keep _ _).1]; rfl
  have ma : (y.monArrival v.ctx).slotAt (.hub i) = w := by rw [← ys]; unfold State.slotAt; rw [md]
  have sc : (y.monArrival v.ctx).slotTest (.hub i) = y.monArrival v.ctx := by
    unfold State.slotTest State.slotCheck
    rw [ma]
    have w1 : w.state = .counting := by rw [← hw]; exact h1
    have w2 : ¬ w.scope < 2 := by rw [← hw]; show ¬ v.scope < 2; omega
    have w3 : (popCount 129 w.arr == w.headcount) = false := by rw [← hw]; exact beq_eq_false_iff_ne.2 h7
    have w4 : (y.monArrival v.ctx).isLead = false := by
      unfold State.isLead; rw [md, r1.die]; show (s'.die.pkgIndex == 0) = false; rw [s'd.2.2]; exact beq_eq_false_iff_ne.2 h9
    simp only [w1, w2, w3, w4, bne_self_eq_false, Bool.and_false, Bool.false_eq_true, if_false]
  rw [sc]
  refine ⟨trivial, h6.symm, ma, ?_, ?_, ?_⟩
  · refine Regs.trans (s'r.trans (Regs.of_only (r1.mono fun _ k => .inr (.inl k)))) ?_
    unfold State.monArrival
    refine Regs.trans (t := y.setMon v.ctx _) (Regs.of_regs fun q => ?_) ((monEnd_keep _ _).2.1 0)
    rw [State.unit_setMon]
  · rw [md, r1.die]; exact s'd.1
  · rw [md, r1.die]; exact s'd.2.1
theorem setPay_regs (x : Machine.PaySt) (s : State) : Regs (fun k => k = (Rg.SPAY_IN_FLIGHT).key) s (s.setPay x) := by
  intro p f hf; unfold State.setPay; cases p
  · rfl
  · exact (State.get_put_ne _ hf _ _).trans (State.get_setDie ..)
theorem setPay_die (x : Machine.PaySt) (s : State) : (s.setPay x).die = { s.die with pay := x } := by unfold State.setPay; rw [State.put_die]; rfl
open Sys2Proof.Machine (HSlot Arr PayIn Job)
/-- of the distributor's own state only the archive changes -/
def HQ (s t : State) : Prop := t.dist = { s.dist with arch := t.dist.arch }
theorem HQ.refl (s : State) : HQ s s := rfl
theorem HQ.trans {s t u : State} (h : HQ s t) (k : HQ t u) : HQ s u := by unfold HQ at *; rw [k, h]
theorem HQ.of_dist {s t : State} (h : t.dist = s.dist) : HQ s t := by unfold HQ; rw [h]
theorem HQ.of_only {p : Part} {b : Bool} {K : Nat → Prop} {s t : State} (h : Only p b K s t) : HQ s t := h.dist
theorem HQ.hall {s t : State} (h : HQ s t) : t.dist.hall = s.dist.hall := by rw [h]
theorem HQ.slot {s t : State} (h : HQ s t) (n : Nat) : t.slot n = s.slot n := by unfold State.slot; rw [h]
theorem HQ.job {s t : State} (h : HQ s t) (n : Nat) : t.job n = s.job n := by unfold State.job; rw [h]
theorem slot_setSlot (h : Nat) (v : HSlot) (s : State) : (s.setSlot h v).slot h = v := by
  unfold State.slot State.setSlot State.setHall; show SMap.get _ _ (SMap.set _ _ _) = _; rw [SMap.get_set_same]
theorem job_setJob (j : Nat) (b : Job) (s : State) : (s.setJob j b).job j = b := by
  unfold State.job State.setJob State.setHall; show SMap.get _ _ (SMap.set _ _ _) = _; rw [SMap.get_set_same]
theorem job_setSlot (h j : Nat) (v : HSlot) (s : State) : (s.setSlot h v).job j = s.job j := rfl
theorem slot_setJob (h j : Nat) (b : Job) (s : State) : (s.setJob j b).slot h = s.slot h := rfl
theorem slot_put (p : Part) (f : Machine.Field) (v h : Nat) (s : State) : (s.put p f v).slot h = s.slot h := by unfold State.slot; rw [State.put_dist]
theorem job_put (p : Part) (f : Machine.Field) (v h : Nat) (s : State) : (s.put p f v).job h = s.job h := by unfold State.job; rw [State.put_dist]
theorem sendWord_all (p : Part) (n : Nat) (w : CtlWord) (s : State) : (s.sendWord p n w).dist = s.dist ∧ (s.sendWord p n w).die = s.die ∧ (∀ q f, (s.sendWord p n w).get q f = s.get q f)
    ∧ (s.sendWord p n w).now = s.now ∧ (∀ q, ((s.sendWord p n w).unit q).clock = (s.unit q).clock) := by
  unfold State.sendWord
  split
  · refine ⟨?_, ?_, fun q f => State.get_modLink .., ?_, fun q => ?_⟩ <;> unfold State.modLink
    · exact State.dist_setLink ..
    · exact State.die_setLink ..
    · exact State.now_setLink ..
    · exact State.setLink_clock ..
  · exact ⟨rfl, rfl, fun _ _ => rfl, rfl, fun _ => rfl⟩
theorem sendWords_all (p : Part) (ns : List Nat) (w : CtlWord) (s : State) : (s.sendWords p ns w).dist = s.dist ∧ (s.sendWords p ns w).die = s.die ∧ (∀ q f, (s.sendWords p ns w).get q f = s.get q f)
    ∧ (s.sendWords p ns w).now = s.now ∧ (∀ q, ((s.sendWords p ns w).unit q).clock = (s.unit q).clock) := by
  unfold State.sendWords
  exact ⟨foldl_keeps (fun t : State => t.dist) (fun t n => (sendWord_all p n w t).1) _ _, foldl_keeps (fun t : State => t.die) (fun t n => (sendWord_all p n w t).2.1) _ _,
    fun q f => foldl_keeps (fun t : State => t.get q f) (fun t n => (sendWord_all p n w t).2.2.1 q f) _ _, foldl_keeps (fun t : State => t.now) (fun t n => (sendWord_all p n w t).2.2.2.1) _ _,
    fun q => foldl_keeps (fun t : State => (t.unit q).clock) (fun t n => (sendWord_all p n w t).2.2.2.2 q) _ _⟩
theorem modLink_all (p : Part) (n : Nat) (f : Link → Link) (s : State) : (s.modLink p n f).dist = s.dist ∧ (s.modLink p n f).die = s.die ∧ (∀ q g, (s.modLink p n f).get q g = s.get q g) := by
  refine ⟨?_, ?_, fun q f => State.get_modLink ..⟩ <;> unfold State.modLink
  · exact State.dist_setLink ..
  · exact State.die_setLink ..
theorem sendArrive_all (p : Part) (ns : List Nat) (j h g e r x : Nat) (b : Option Body) (s : State) : (s.sendArrive p ns j h g e r x b).dist = s.dist ∧ (s.sendArrive p ns j h g e r x b).die = s.die
    ∧ (∀ q f, (s.sendArrive p ns j h g e r x b).get q f = s.get q f) := by
  unfold State.sendArrive
  cases b with
  | none => exact ⟨foldl_keeps (fun t : State => t.dist) (fun t n => (sendWord_all p n _ t).1) _ _, foldl_keeps (fun t : State => t.die) (fun t n => (sendWord_all p n _ t).2.1) _ _,
    fun q f => foldl_keeps (fun t : State => t.get q f) (fun t n => (sendWord_all p n _ t).2.2.1 q f) _ _⟩
  | some c =>
    refine ⟨foldl_keeps (fun t : State => t.dist) (fun t n => ?_) _ _, foldl_keeps (fun t : State => t.die) (fun t n => ?_) _ _, fun q f => foldl_keeps (fun t : State => t.get q f) (fun t n => ?_) _ _⟩
    all_goals dsimp only; split
    · exact (modLink_all ..).1.trans (sendWord_all ..).1
    · rfl
    · exact (modLink_all ..).2.1.trans (sendWord_all ..).2.1
    · rfl
    · exact ((modLink_all ..).2.2 q f).trans ((sendWord_all ..).2.2.1 q f)
    · rfl
theorem freePartials_all (p : Part) (ns : List Nat) (j h e : Nat) (s : State) : (s.freePartials p ns j h e).dist = s.dist ∧ (s.freePartials p ns j h e).die = s.die ∧ (∀ q f, (s.freePartials p ns j h e).get q f = s.get q f) := by
  unfold State.freePartials
  exact ⟨foldl_keeps (fun t : State => t.dist) (fun t n => (modLink_all p n _ t).1) _ _, foldl_keeps (fun t : State => t.die) (fun t n => (modLink_all p n _ t).2.1) _ _,
    fun q f => foldl_keeps (fun t : State => t.get q f) (fun t n => (modLink_all p n _ t).2.2 q f) _ _⟩
theorem record_fd (x : Machine.Rec) (s : State) : Only .fd false attKeys s (s.record .fd x) := Only.record (Only.refl _ _ _ _) (fun _ h => h) _
theorem hallRec_only (k h a e p : Nat) (c : List Nat) (s : State) : Only .fd false attKeys s (s.hallRec k h a e p c) := record_fd _ _
theorem arriveRec_only (a : Arr) (r : Nat) (s : State) : Only .fd false attKeys s (s.arriveRec a r) := record_fd _ _
theorem bufSync_only (s : State) : Only .fd false (fun k => k = Rg.PAY_BUF_USED.key) s s.bufSync := by
  unfold State.bufSync; exact Only.put (K := fun k => k = Rg.PAY_BUF_USED.key) (Only.refl _ _ _ _) rfl _
theorem bit_setBit_ne {v i k : Nat} (h : k ≠ i) : bit (setBit v i) k = bit v k := by
  unfold setBit
  split
  · rfl
  · rename_i hb
    unfold bit at *
    have hb : v / 2 ^ i % 2 = 0 := by simp at hb; omega
    congr 1
    rcases Nat.lt_or_gt_of_ne h with g | g
    · have e : 2 ^ i = 2 ^ k * (2 * 2 ^ (i - k - 1)) := by rw [← Nat.pow_succ', ← Nat.pow_add]; congr 1; omega
      rw [e, Nat.add_mul_div_left _ _ (Nat.two_pow_pos k)]; omega
    · have e : 2 ^ k = 2 ^ i * 2 * 2 ^ (k - i - 1) := by rw [← Nat.pow_succ, ← Nat.pow_add]; congr 1; omega
      rw [e, ← Nat.div_div_eq_div_mul, ← Nat.div_div_eq_div_mul, ← Nat.div_div_eq_div_mul, ← Nat.div_div_eq_div_mul]
      rw [Nat.add_div_right _ (Nat.two_pow_pos i)]
      have : (v / 2 ^ i).succ / 2 = v / 2 ^ i / 2 := by omega
      rw [this]
theorem countFull_of {h k : Nat} {s : State} (h1 : k < 64) (h2 : bit (s.counted h) k = true) (h3 : bit (s.slot h).arr k = false) : s.countFull h = false := by
  unfold State.countFull
  have : k ∈ s.missingPorts h := by unfold State.missingPorts setBits; simp [h1, h2, h3]
  have : (s.missingPorts h).isEmpty = false := by cases e : s.missingPorts h with
    | nil => rw [e] at this; cases this
    | cons a l => rfl
  rw [this]; simp
theorem hallTest_open {h : Nat} {s : State} (h1 : (s.slot h).state = .counting) (h2 : (s.slot h).holding = false) (h3 : s.countFull h = false) : s.hallTest h = s := by
  unfold State.hallTest State.hallCheck
  simp only [h1, h2, h3, Bool.and_false, Bool.false_eq_true, if_false, reduceCtorEq]
  have e1 : (Machine.HState.counting == Machine.HState.quorumWait) = false := rfl
  have e2 : (Machine.HState.counting == Machine.HState.unresolved) = false := rfl
  simp only [e1, e2, Bool.false_and, Bool.or_self, Bool.and_false, Bool.false_eq_true, if_false, ite_self]
/-- all that the counts of a slot's ports rest on beside the slot -/
theorem mcountAt_of {s t : State} (hr : t.role = s.role) (hd : t.dist.hall = { s.dist.hall with slots := t.dist.hall.slots }) (j n : Nat) : t.mcountAt j n = s.mcountAt j n := by
  unfold State.mcountAt State.paired State.carriedMembers State.carriesAt State.portToward State.job
  rw [hr, hd]
theorem mhashAt_of {s t : State} (hr : t.role = s.role) (hd : t.dist.hall = { s.dist.hall with slots := t.dist.hall.slots }) (j n : Nat) : t.mhashAt j n = s.mhashAt j n := by
  unfold State.mhashAt State.paired State.carriedMembers State.carriesAt State.portToward State.job
  rw [hr, hd]
theorem hallCount_of {h : Nat} {s t : State} (hr : t.role = s.role) (hd : t.dist.hall = { s.dist.hall with slots := t.dist.hall.slots }) (h1 : (t.slot h).job = (s.slot h).job) (h2 : (t.slot h).wd = (s.slot h).wd) :
    t.counted h = s.counted h := by
  have hj : t.job (s.slot h).job = s.job (s.slot h).job := by unfold State.job; rw [hd]
  unfold State.counted State.expected
  dsimp only
  simp only [h1, h2, hj, mcountAt_of hr hd]
/-- only time, links, the inbox and registers of the units differ -/
theorem took_fd (n : Nat) (w : CtlWord) (s : State) : (s.takeWord .fd n w).dist = s.dist ∧ (∀ p f, (s.takeWord .fd n w).get p f = s.get p f) ∧ (∀ p k, (s.takeWord .fd n w).link p k = s.link p k)
    ∧ (∀ p, (s.takeWord .fd n w).beat p = s.beat p) ∧ (∀ p, (s.takeWord .fd n w).htNs p = s.htNs p) ∧ (s.takeWord .fd n w).die = s.die := by
  refine ⟨rfl, fun p f => ?_, fun p k => ?_, fun p => ?_, fun p => ?_, rfl⟩ <;> cases p <;> rfl
theorem hall_hbarInt (f : Machine.Field) (s : State) : HQ s (s.hbarInt f) := HQ.of_only (p := .fd) (b := false) (K := fun k => k = f.key) (Only.hbarInt (Only.refl _ _ _ s) rfl)
/-- of the distributor's own state only the archive and the hall slots change -/
def HS (s t : State) : Prop := t.dist = { s.dist with arch := t.dist.arch, hall := { s.dist.hall with slots := t.dist.hall.slots } }
theorem HS.refl (s : State) : HS s s := rfl
theorem HS.trans {s t u : State} (h : HS s t) (k : HS t u) : HS s u := by unfold HS at *; rw [k, h]
theorem HQ.hs {s t : State} (h : HQ s t) : HS s t := by unfold HS; unfold HQ at h; rw [h]
theorem HS.job {s t : State} (h : HS s t) (n : Nat) : t.job n = s.job n := by unfold State.job; rw [h]
theorem HS.away {s t : State} (h : HS s t) : t.dist.hall.away = s.dist.hall.away := by rw [h]
theorem setSlot_hs (h : Nat) (v : HSlot) (s : State) : HS s (s.setSlot h v) := rfl
theorem payPorts_spec (h : Nat) (s : State) : (s.payPorts h).slot h = { s.slot h with hash := (s.missingPorts h).foldl (fun a p => Nat.xor a (s.mhashAt (s.slot h).job p)) (s.slot h).hash }
    ∧ HS s (s.payPorts h) ∧ Regs attKeys s (s.payPorts h) := by
  unfold State.payPorts
  dsimp only
  have key : ∀ (mh mc : Nat → Nat) (gg ee jj : Nat) (l : List Nat) (t : State), (l.foldl (fun (t : State) p => (t.setSlot h { t.slot h with hash := Nat.xor (t.slot h).hash (mh p) }).record .fd
        { kind := 0x05, obj := h, arg := gg + 256 * (mc p % 65536), epoch := ee, port := p, job := jj }) t).slot h
        = { t.slot h with hash := l.foldl (fun a p => Nat.xor a (mh p)) (t.slot h).hash }
      ∧ HS t (l.foldl (fun (t : State) p => (t.setSlot h { t.slot h with hash := Nat.xor (t.slot h).hash (mh p) }).record .fd
        { kind := 0x05, obj := h, arg := gg + 256 * (mc p % 65536), epoch := ee, port := p, job := jj }) t)
      ∧ Regs attKeys t (l.foldl (fun (t : State) p => (t.setSlot h { t.slot h with hash := Nat.xor (t.slot h).hash (mh p) }).record .fd
        { kind := 0x05, obj := h, arg := gg + 256 * (mc p % 65536), epoch := ee, port := p, job := jj }) t) := by
    intro mh mc gg ee jj l
    induction l with
    | nil => intro t; exact ⟨rfl, HS.refl _, Regs.refl _ _⟩
    | cons a l ih =>
      intro t
      rw [List.foldl_cons]
      generalize hx : ({ kind := 0x05, obj := h, arg := gg + 256 * (mc a % 65536), epoch := ee, port := a, job := jj } : Machine.Rec) = x
      have o := record_fd x (t.setSlot h { t.slot h with hash := Nat.xor (t.slot h).hash (mh a) })
      generalize ((t.setSlot h { t.slot h with hash := Nat.xor (t.slot h).hash (mh a) }).record .fd x) = u at *
      have us : u.slot h = { t.slot h with hash := Nat.xor (t.slot h).hash (mh a) } := ((HQ.of_only o).slot h).trans (slot_setSlot ..)
      obtain ⟨i1, i2, i3⟩ := ih u
      refine ⟨?_, ?_, ?_⟩
      · rw [i1, us, List.foldl_cons]
      · exact ((setSlot_hs ..).trans (HQ.of_only o).hs).trans i2
      · exact Regs.trans (Regs.trans (t := t.setSlot h { t.slot h with hash := Nat.xor (t.slot h).hash (mh a) }) (Regs.of_regs fun q => by cases q <;> rfl) (Regs.of_only o)) i3
  exact key _ _ _ _ _ _ s
theorem hbarInt_get {f : Machine.Field} (s : State) (hf : f.width = 1 := by rfl) : (s.hbarInt f).get .fd f = 1 := by
  have o : Only .fd false (fun _ => False) (s.put .fd f 1) (s.hbarInt f) := Only.signalRise (Only.refl _ _ _ _) _ _
  rw [o.get _ (fun h => h), State.get_put_same, hf]; rfl
theorem mask_fold (n : Nat) (g : Nat → Bool) : ∀ a, ((List.range n).filter g).foldl (fun a i => a + 2 ^ i) a = a + ((List.range n).filter g).foldl (fun a i => a + 2 ^ i) 0 := by
  intro a
  generalize (List.range n).filter g = l
  have : ∀ (l : List Nat) (a : Nat), l.foldl (fun a i => a + 2 ^ i) a = a + l.foldl (fun a i => a + 2 ^ i) 0 := by
    intro l
    induction l with
    | nil => intro a; rfl
    | cons b l ih => intro a; rw [List.foldl_cons, List.foldl_cons, ih (a + 2 ^ b), ih (0 + 2 ^ b)]; omega
  exact this l a
theorem maskOf_succ (n : Nat) (g : Nat → Bool) : maskOf (n + 1) g = maskOf n g + (if g n then 2 ^ n else 0) := by
  unfold maskOf
  rw [List.range_succ, List.filter_append, List.foldl_append]
  by_cases h : g n <;> simp [h]
theorem maskOf_lt (n : Nat) (g : Nat → Bool) : maskOf n g < 2 ^ n := by
  induction n with
  | zero => simp [maskOf]
  | succ n ih => rw [maskOf_succ, Nat.pow_succ]; split <;> omega
theorem testBit_maskOf {n i : Nat} {g : Nat → Bool} (h : i < n) : (maskOf n g).testBit i = g i := by
  induction n with
  | zero => omega
  | succ n ih =>
    rw [maskOf_succ]
    have lt := maskOf_lt n g
    by_cases hn : g n = true
    · rw [if_pos hn, Nat.add_comm]
      rcases Nat.lt_or_ge i n with c | c
      · rw [Nat.testBit_two_pow_add_gt c]; exact ih c
      · have : i = n := by omega
        subst this
        rw [Nat.testBit_two_pow_add_eq, Nat.testBit_lt_two_pow lt, hn]; rfl
    · rw [if_neg hn, Nat.add_zero]
      rcases Nat.lt_or_ge i n with c | c
      · exact ih c
      · have : i = n := by omega
        subst this
        rw [Nat.testBit_lt_two_pow lt]; simp at hn; exact hn.symm
theorem bit_maskOf {n i : Nat} {g : Nat → Bool} (h : i < n) : bit (maskOf n g) i = g i := by
  rw [bit_testBit]; exact testBit_maskOf h
theorem bit_clearBit_ne {v i k : Nat} (h : k ≠ i) : bit (clearBit v i) k = bit v k := by
  unfold clearBit
  split
  · rename_i hb
    unfold bit at *
    have hb : v / 2 ^ i % 2 = 1 := by simpa using hb
    congr 1
    have le : 2 ^ i ≤ v := by
      by_contra c
      rw [Nat.div_eq_of_lt (by omega)] at hb; omega
    obtain ⟨u, hu⟩ := Nat.exists_eq_add_of_le le
    subst hu
    rw [Nat.add_sub_cancel_left]
    rw [Nat.add_comm] at hb ⊢
    rw [Nat.add_div_right _ (Nat.two_pow_pos i)] at hb
    rcases Nat.lt_or_gt_of_ne h with g | g
    · have e : 2 ^ i = 2 ^ k * (2 * 2 ^ (i - k - 1)) := by rw [← Nat.pow_succ', ← Nat.pow_add]; congr 1; omega
      rw [e, Nat.add_mul_div_left _ _ (Nat.two_pow_pos k)]; omega
    · have e : 2 ^ k = 2 ^ i * 2 * 2 ^ (k - i - 1) := by rw [← Nat.pow_succ, ← Nat.pow_add]; congr 1; omega
      rw [e, ← Nat.div_div_eq_div_mul, ← Nat.div_div_eq_div_mul, ← Nat.div_div_eq_div_mul, ← Nat.div_div_eq_div_mul]
      rw [Nat.add_div_right _ (Nat.two_pow_pos i)]
      have : (u / 2 ^ i).succ / 2 = u / 2 ^ i / 2 := by omega
      rw [this]
  · rfl
theorem promote_plain {h : Nat} {s : State} (he : (s.slot h).early = 0) :
    (s.promote h).slot h = { s.slot h with completed := (s.slot h).e, e := ((s.slot h).e + 1) % 65536, arr := 0, early := 0, contrib := 0, hash := 0, acc := {}, hasElems := false, earlyBodies := [], state := .counting, callSent := false, paid := false, quorumWaited := false, unresolvedSeen := false, holding := false, completeHt := none, quorum := (s.slot h).nextQuorum.getD (s.slot h).quorum, nextQuorum := none, aside := if s.peering then (s.slot h).earlyBodies else [], viaPeer := (s.slot h).viaPeer / 2 ^ 64 }
    ∧ (s.promote h).dist.hall = { s.dist.hall with slots := (s.promote h).dist.hall.slots } ∧ (∀ f : Machine.Field, f.key ≠ Rg.PAY_BUF_USED.key → (s.promote h).get .fd f = s.get .fd f) := by
  unfold State.promote
  have nb : setBits 64 0 = [] := by decide
  have na : ∀ (v : HSlot) bs, v.arr = 0 → (s.setSlot h v).addArrived h bs = s.setSlot h v := by
    intro v bs hv; unfold State.addArrived; rw [slot_setSlot, hv, nb]; rfl
  dsimp only
  rw [na _ _ (by exact he)]
  simp only [he]
  generalize hv : ({ s.slot h with completed := (s.slot h).e, e := ((s.slot h).e + 1) % 65536, arr := 0, early := 0, contrib := 0, hash := 0, acc := {}, hasElems := false, earlyBodies := [], state := .counting, callSent := false, paid := false, quorumWaited := false, unresolvedSeen := false, holding := false, completeHt := none, quorum := (s.slot h).nextQuorum.getD (s.slot h).quorum, nextQuorum := none, aside := if s.peering then (s.slot h).earlyBodies else [], viaPeer := (s.slot h).viaPeer / 2 ^ 64 } : HSlot) = v
  have fp := freePartials_all .fd ((s.setSlot h v).upPorts .fd ++ prPorts) (s.slot h).job h (s.slot h).e (s.setSlot h v)
  generalize (s.setSlot h v).freePartials .fd ((s.setSlot h v).upPorts .fd ++ prPorts) (s.slot h).job h (s.slot h).e = y at *
  have bo := bufSync_only y
  refine ⟨?_, ?_, ?_⟩
  · rw [(HQ.of_only bo).slot, HQ.slot (.of_dist fp.1), slot_setSlot]
  · rw [(HQ.of_only bo).hall, fp.1]; rfl
  · intro f hf; rw [bo.get f hf, fp.2.2]; rfl
theorem htNs_of {p : Part} {s t : State} (h : (t.unit p).clock = (s.unit p).clock) : t.htNs p = s.htNs p := by
  unfold State.htNs State.ht; rw [h]
theorem beat_of {p : Part} {s t : State} (h : (t.unit p).clock = (s.unit p).clock) : t.beat p = s.beat p := by
  unfold State.beat; rw [htNs_of h]
theorem sendWord_link (p : Part) (n : Nat) (w : CtlWord) (k : Nat) (s : State) : (s.sendWord p n w).link p k = { s.link p k with txq := ((s.sendWord p n w).link p k).txq } := by
  unfold State.sendWord
  split
  · by_cases e : k = n
    · subst e; rw [link_modLink]
    · unfold State.modLink; rw [link_setLink_ne _ e]
  · rfl
theorem sendWords_link (p : Part) (ns : List Nat) (w : CtlWord) (k : Nat) (s : State) : (s.sendWords p ns w).link p k = { s.link p k with txq := ((s.sendWords p ns w).link p k).txq } := by
  unfold State.sendWords
  induction ns generalizing s with
  | nil => rfl
  | cons a l ih => rw [List.foldl_cons, ih, sendWord_link]
theorem portAlive_link (n m k : Nat) (s : State) : (s.portAlive n m).link .fd k = { s.link .fd k with alive := if k = n then m else (s.link .fd k).alive, txq := ((s.portAlive n m).link .fd k).txq } := by
  unfold State.portAlive
  dsimp only
  by_cases h : (s.link .fd n).alive = m
  · rw [if_pos h]
    by_cases e : k = n
    · subst e; rw [if_pos rfl, ← h]
    · rw [if_neg e]
  · rw [if_neg h]
    have ml : (s.modLink .fd n fun k => { k with alive := m }).link .fd k = { s.link .fd k with alive := if k = n then m else (s.link .fd k).alive } := by
      by_cases e : k = n
      · subst e; rw [link_modLink, if_pos rfl]
      · unfold State.modLink; rw [link_setLink_ne _ e, if_neg e]
    have rl : ∀ (u : State) a, (u.reportAlive n a).link .fd k = { u.link .fd k with txq := ((u.reportAlive n a).link .fd k).txq } := by
      intro u a; unfold State.reportAlive; dsimp only
      split
      · rfl
      · split
        · unfold State.sendUp; rw [sendWords_link]; rfl
        · rfl
    rw [rl]
    split
    · rw [sendWord_link, ml]
    · rw [ml]
theorem sendBell_dist (w : Machine.BellWord) (b : Nat) (s : State) : (s.sendBell w b).dist = s.dist ∧ (∀ p f, (s.sendBell w b).get p f = s.get p f) := by
  unfold State.sendBell
  refine ⟨foldl_keeps (fun t : State => t.dist) (fun t n => ?_) _ _, fun p f => foldl_keeps (fun t : State => t.get p f) (fun t n => ?_) _ _⟩
  · split
    · rfl
    · exact (sendWord_all ..).1
  · split
    · rfl
    · exact (sendWord_all ..).2.2.1 ..
theorem foldl_congr' {α β : Type} {f g : β → α → β} {l : List α} {b : β} (h : ∀ b, ∀ x ∈ l, f b x = g b x) : l.foldl f b = l.foldl g b := by
  induction l generalizing b with
  | nil => rfl
  | cons a l ih => rw [List.foldl_cons, List.foldl_cons, h b a (by simp), ih fun b x hx => h b x (by simp [hx])]
theorem took_sc (n : Nat) (w : CtlWord) (s : State) : (s.takeWord .sc n w).dist = s.dist ∧ (∀ p f, (s.takeWord .sc n w).get p f = s.get p f) ∧ (∀ p k, (s.takeWord .sc n w).link p k = s.link p k)
    ∧ (∀ p, (s.takeWord .sc n w).beat p = s.beat p) ∧ (∀ p, (s.takeWord .sc n w).htNs p = s.htNs p) ∧ (s.takeWord .sc n w).die = s.die := by
  refine ⟨rfl, fun p f => ?_, fun p k => ?_, fun p => ?_, fun p => ?_, rfl⟩ <;> cases p <;> rfl
theorem slotTest_lead {i : Nat} {s : State} (h0 : s.die.pkgIndex = 0) (h1 : (s.slotAt (.hub i)).state = .counting) (h2 : 2 ≤ (s.slotAt (.hub i)).scope)
    (h3 : popCount 129 (s.slotAt (.hub i)).arr ≠ (s.slotAt (.hub i)).headcount) (h4 : (s.slotAt (.hub i)).dieArr ≠ (s.slotAt (.hub i)).dieMask) : s.slotTest (.hub i) = s := by
  unfold State.slotTest State.slotCheck
  have il : s.isLead = true := by unfold State.isLead; rw [h0]; rfl
  have f : (popCount 129 (s.slotAt (.hub i)).arr == (s.slotAt (.hub i)).headcount) = false := beq_eq_false_iff_ne.2 h3
  have dc : s.dieCheck (.hub i) = (false, s) := by
    unfold State.dieCheck
    have : ((s.slotAt (.hub i)).dieArr != (s.slotAt (.hub i)).dieMask) = true := by simpa using h4
    simp [this]
  simp only [h1, f, il, bne_self_eq_false, Bool.and_false, Bool.false_and, Bool.false_eq_true, if_false, if_true, show ¬ (s.slotAt (.hub i)).scope < 2 by omega, dc]
theorem monArrival_die (c : Nat) (s : State) : (s.monArrival c).die = { s.die with sync := { s.die.sync with mon := (s.monArrival c).die.sync.mon } } := by
  unfold State.monArrival; rw [(monEnd_keep _ _).1]; rfl
theorem completeSlot_plain {i missing : Nat} {s : State} (h1 : (s.slotAt (.hub i)).earlyAcc = []) (h2 : (s.slotAt (.hub i)).early = 0) (h3 : (s.slotAt (.hub i)).waits = []) (h4 : (s.slotAt (.hub i)).hostWaits = []) :
    (s.completeSlot (.hub i) missing).slotAt (.hub i) = { s.slotAt (.hub i) with e := ((s.slotAt (.hub i)).e + 1) % 65536, arr := 0, early := 0, dieArr := (s.slotAt (.hub i)).dieEarly, dieEarly := 0, state := .counting, missing := missing, retried := 0, acc := {}, hasAcc := false, earlyAcc := [] }
    ∧ (s.completeSlot (.hub i) missing).die = { s.die with sync := { s.die.sync with slots := (s.completeSlot (.hub i) missing).die.sync.slots } } := by
  unfold State.completeSlot
  simp only [h1, h2, List.foldl_nil]
  generalize hv : ({ s.slotAt (.hub i) with e := ((s.slotAt (.hub i)).e + 1) % 65536, arr := 0, early := 0, dieArr := (s.slotAt (.hub i)).dieEarly, dieEarly := 0, state := .counting, missing := missing, retried := 0, acc := {}, hasAcc := false, earlyAcc := [] } : Slot) = v
  have v1 : v.waits = [] := by rw [← hv]; exact h3
  have v2 : v.hostWaits = [] := by rw [← hv]; exact h4
  have key : ∀ y : State, y.die = (s.setSlotAt (.hub i) v).die → ∀ f, (y.relWaiters (.hub i) 0 f).slotAt (.hub i) = v ∧ (y.relWaiters (.hub i) 0 f).die = { s.die with sync := { s.die.sync with slots := (y.relWaiters (.hub i) 0 f).die.sync.slots } } := by
    intro y hy f
    have ys : y.slotAt (.hub i) = v := by
      have : y.slotAt (.hub i) = (s.setSlotAt (.hub i) v).slotAt (.hub i) := by unfold State.slotAt; rw [hy]
      rw [this, slotAt_set]
    unfold State.relWaiters
    rw [ys]
    simp only [v1, v2, List.filter_nil, List.foldl_nil]
    refine ⟨?_, ?_⟩
    · rw [slotAt_set]
      have e : ∀ x : Slot, x.waits = [] → x.hostWaits = [] → ({ x with waits := [], hostWaits := [] } : Slot) = x := by
        intro x a b; obtain ⟨⟩ := x; simp only at a b; subst a; subst b; rfl
      exact e v v1 v2
    · unfold State.setSlotAt State.setSync State.setDie; dsimp only; rw [hy]; rfl
  split
  · exact key _ (freePartials_all ..).2.1 _
  · exact key _ rfl _
open Sys2Proof.Machine (SlotAttr TunMsg)
theorem sendTunnels_all (p : Part) (ns : List Nat) (m : TunMsg) (s : State) : (s.sendTunnels p ns m).dist = s.dist ∧ (∀ q f, (s.sendTunnels p ns m).get q f = s.get q f)
    ∧ (s.sendTunnels p ns m).now = s.now ∧ (∀ q, ((s.sendTunnels p ns m).unit q).clock = (s.unit q).clock) := by
  have one : ∀ (t : State) n, (t.sendTunnel p n m).dist = t.dist ∧ (∀ q f, (t.sendTunnel p n m).get q f = t.get q f) ∧ (t.sendTunnel p n m).now = t.now ∧ (∀ q, ((t.sendTunnel p n m).unit q).clock = (t.unit q).clock) := by
    intro t n; unfold State.sendTunnel; split
    · refine ⟨(modLink_all ..).1, (modLink_all ..).2.2, ?_, fun q => ?_⟩ <;> unfold State.modLink
      · exact State.now_setLink ..
      · exact State.setLink_clock ..
    · exact ⟨rfl, fun _ _ => rfl, rfl, fun _ => rfl⟩
  unfold State.sendTunnels
  exact ⟨foldl_keeps (fun t : State => t.dist) (fun t n => (one t n).1) _ _, fun q f => foldl_keeps (fun t : State => t.get q f) (fun t n => (one t n).2.1 q f) _ _,
    foldl_keeps (fun t : State => t.now) (fun t n => (one t n).2.2.1) _ _, fun q => foldl_keeps (fun t : State => (t.unit q).clock) (fun t n => (one t n).2.2.2 q) _ _⟩
/-- the ladder's registers -/
def ladKey (k : Nat) : Prop := 0xB000 * 32 ≤ k ∧ k < 0xC000 * 32
/-- only a unit's ladder moves -/
def Lad (s t : State) : Prop := t.dist = s.dist ∧ t.die = s.die ∧ t.now = s.now ∧ (∀ q, t.unit q = { s.unit q with regs := (t.unit q).regs, start := (t.unit q).start }) ∧ Regs ladKey s t
theorem Lad.refl (s : State) : Lad s s := ⟨rfl, rfl, rfl, fun _ => rfl, Regs.refl _ _⟩
theorem Lad.trans {s t u : State} (h : Lad s t) (k : Lad t u) : Lad s u := ⟨k.1.trans h.1, k.2.1.trans h.2.1, k.2.2.1.trans h.2.2.1, fun q => by rw [k.2.2.2.1 q, h.2.2.2.1 q], h.2.2.2.2.trans k.2.2.2.2⟩
theorem setRung_lad (p : Part) (u n r x : Nat) (s : State) : Lad s (s.setRung p u n r x) := by
  unfold State.setRung; exact ⟨by cases p <;> rfl, by cases p <;> rfl, by cases p <;> rfl, fun q => by cases p <;> cases q <;> rfl, Regs.of_regs fun q => by cases p <;> cases q <;> rfl⟩
theorem wake_lad (p : Part) {u : Nat} (hu : u < 5) (n : Nat) (s : State) : Lad s (s.wake p u n) := by
  unfold State.wake; dsimp only
  have a := setRung_lad p u n 0 s.now s
  split
  · exact a
  · refine a.trans ?_
    generalize s.setRung p u n 0 s.now = t
    exact ⟨by unfold State.bump; simp only [State.put_dist], by unfold State.bump; simp only [State.put_die], by unfold State.bump; cases p <;> rfl, fun q => by unfold State.bump; cases p <;> cases q <;> rfl,
      ((Regs.refl _ _).bump (by unfold ladKey; ((try simp only [Field.key, Rg.PL_WAKES]); first | done | decide | omega | (simp; done) | (simp; omega))) _).put (by unfold ladKey; ((try simp only [Field.key, Rg.PL_UNITS_DOWN]); first | done | decide | omega | (simp; done) | (simp; omega))) _⟩
theorem wakeAll_lad (p : Part) {u : Nat} (hu : u < 5) (s : State) : Lad s (s.wakeAll p u) := by
  unfold State.wakeAll
  have : ∀ (l : SMap (Nat × Nat)) (t : State), Lad t (l.foldl (fun t e => if e.1 / 1024 = u && e.2.1 != 0 then t.wake p u (e.1 % 1024) else t) t) := by
    intro l
    induction l with
    | nil => intro t; exact Lad.refl t
    | cons a l ih => intro t; rw [List.foldl_cons]; refine Lad.trans ?_ (ih _); split; exact wake_lad p hu _ t; exact Lad.refl t
  exact this _ _
theorem limitLadder_lad (s : State) : Lad s s.limitLadder := by
  unfold State.limitLadder
  have a : Lad s (if s.payloadLive then s.wakeAll .fd 0 else s) := by split; exact wakeAll_lad .fd (by decide) s; exact Lad.refl s
  dsimp only
  refine a.trans ?_
  generalize (if s.payloadLive then s.wakeAll .fd 0 else s) = t
  split
  · exact wakeAll_lad .fd (by decide) t
  · exact Lad.refl t
theorem Lad.clock {s t : State} (h : Lad s t) (q : Part) : (t.unit q).clock = (s.unit q).clock := by rw [h.2.2.2.1 q]
theorem Lad.tt {s t : State} (h : Lad s t) (q : Part) : (t.unit q).tt = (s.unit q).tt := by rw [h.2.2.2.1 q]
theorem jobRegs_tt (j : Nat) (q : Part) (s : State) : ((s.jobRegs j).unit q).tt = (s.unit q).tt := by
  unfold State.jobRegs State.putFlag
  dsimp only
  split <;> simp only [State.unit_put_tt, (limitLadder_lad _).tt]
theorem jobRegs_all (j : Nat) (s : State) : (s.jobRegs j).dist = s.dist ∧ (∀ f : Machine.Field, f.key ≠ (Rg.JH_MEMBERS j).key → f.key ≠ (Rg.JH_HSLOTS_USED j).key → f.key ≠ (Rg.JH_SUSPECT j).key → f.key ≠ (Rg.JH_UNRESOLVED j).key → ¬ ladKey f.key →
    ∀ p, (s.jobRegs j).get p f = s.get p f) ∧ (∀ q, ((s.jobRegs j).unit q).clock = (s.unit q).clock) := by
  unfold State.jobRegs State.putFlag
  dsimp only
  have ll := limitLadder_lad ((s.put .fd (Rg.JH_MEMBERS j) (s.job j).memberCount).put .fd (Rg.JH_HSLOTS_USED j) ((s.jobSlots j).length + s.reservedCount j))
  generalize ((s.put .fd (Rg.JH_MEMBERS j) (s.job j).memberCount).put .fd (Rg.JH_HSLOTS_USED j) ((s.jobSlots j).length + s.reservedCount j)).limitLadder = u at *
  have ud : u.dist = s.dist := by rw [ll.1]; simp only [State.put_dist]
  have uc : ∀ q, (u.unit q).clock = (s.unit q).clock := fun q => by rw [ll.clock]; simp only [State.unit_put_clock]
  have ug : ∀ f : Machine.Field, f.key ≠ (Rg.JH_MEMBERS j).key → f.key ≠ (Rg.JH_HSLOTS_USED j).key → ¬ ladKey f.key → ∀ p, u.get p f = s.get p f := by
    intro f a b l p
    rw [ll.2.2.2.2 p f l]
    cases p
    · rw [State.get_put_ne _ b, State.get_put_ne _ a]
    · rfl
  split
  · refine ⟨by simp only [State.put_dist, ud], fun f a b c d l p => ?_, fun q => by simp only [State.unit_put_clock, uc]⟩
    cases p
    · rw [State.get_put_ne _ d, State.get_put_ne _ c, ug f a b l]
    · exact ug f a b l .sc
  · exact ⟨ud, fun f a b _ _ l p => ug f a b l p, uc⟩
theorem countFull_zero {h : Nat} {s : State} (ha : (s.slot h).arr = 0) : s.countFull h = false := by
  unfold State.countFull State.missingPorts
  rw [ha]
  cases e : s.counted h != 0 with
  | false => rfl
  | true =>
    have ne : s.counted h ≠ 0 := by simpa using e
    have z0 : ∀ k, bit 0 k = false := fun k => by unfold bit; simp
    simp only [z0, Bool.not_false, List.filter_true, Bool.true_and]
    have cl : s.counted h = maskOf 64 (fun i => bit (s.counted h) i) := by
      have hh : ∃ g, s.counted h = maskOf 64 g := by
        unfold State.counted; exact ⟨_, rfl⟩
      obtain ⟨g, hg⟩ := hh
      rw [hg]; unfold maskOf; congr 1
      refine List.filter_congr fun i hi => ?_
      have hi : i < 64 := by simpa using hi
      exact (bit_maskOf (g := g) hi).symm
    rcases hs : setBits 64 (s.counted h) with _ | ⟨a, l⟩
    · exfalso; apply ne; rw [cl, maskOf]; unfold setBits at hs
      have : (List.range 64).filter (fun i => bit (s.counted h) i) = [] := hs
      rw [this]; rfl
    · rfl
theorem rootComplete_plain {h : Nat} {forced : Bool} {s : State} (h1 : (s.slot h).payload = false) (h2 : (s.slot h).bell = false) (h3 : (s.slot h).early = 0) (hr : s.isActiveRoot = true) :
    (((s.rootComplete h forced).slot h).completed = (s.slot h).e ∧ ((s.rootComplete h forced).slot h).e = ((s.slot h).e + 1) % 65536 ∧ ((s.rootComplete h forced).slot h).forced = forced ∧ ((s.rootComplete h forced).slot h).state = .counting
      ∧ ((s.rootComplete h forced).slot h).arr = 0 ∧ ((s.rootComplete h forced).slot h).last = ((s.slot h).contrib, (s.slot h).hash, ofBool (decide ((s.slot h).contrib < s.membersOf (s.slot h).job (s.expected h))) + 2 * ofBool forced + 8 * ofBool (s.slot h).quorumWaited + 16 * ofBool (s.slot h).unresolvedSeen))
    ∧ (s.rootComplete h forced).hallTest h = s.rootComplete h forced := by
  unfold State.rootComplete
  simp only [h1, h2, Bool.false_and, Bool.false_eq_true, if_false]
  have sw := sendWords_all .fd (s.portsOfMask (s.expected h)) { job := (s.slot h).job, body := .done h (s.slot h).gen (s.slot h).e (s.slot h).contrib (s.slot h).hash (ofBool (decide ((s.slot h).contrib < s.membersOf (s.slot h).job (s.expected h))) + 2 * ofBool forced + 8 * ofBool (s.slot h).quorumWaited + 16 * ofBool (s.slot h).unresolvedSeen + 32 * ofBool false) } s
  generalize hx : s.sendDone h (s.expected h) _ _ _ _ = x
  have xd : x.dist = s.dist ∧ (∀ q f, x.get q f = s.get q f) := by rw [← hx]; exact ⟨sw.1, sw.2.2.1⟩
  have ro := hallRec_only 0x03 h (s.slot h).contrib (s.slot h).e (s.slot h).lastPort [] x
  generalize x.hallRec 0x03 h (s.slot h).contrib (s.slot h).e (s.slot h).lastPort = y at *
  have ys : y.slot h = s.slot h := by rw [(HQ.of_only ro).slot, HQ.slot (.of_dist xd.1)]
  have yr : y.isActiveRoot = true := by unfold State.isActiveRoot State.role at *; rw [ro.get _ (by (refine not_att ?_ ?_ ?_ <;> ((try simp only [Field.key, Rg.REFS_ROLE]); first | done | decide | omega | (simp; done) | (simp; omega)))), xd.2]; exact hr
  rw [ys]
  generalize hv : ({ s.slot h with forced := forced, last := ((s.slot h).contrib, (s.slot h).hash, _) } : HSlot) = v
  obtain ⟨p1, p2, p3⟩ := promote_plain (h := h) (s := y.setSlot h v) (by rw [slot_setSlot, ← hv]; exact h3)
  rw [slot_setSlot] at p1
  generalize (y.setSlot h v).promote h = z at *
  have zr : z.isActiveRoot = true := by unfold State.isActiveRoot State.role at *; rw [p3 _ (by ((try simp only [Field.key, Rg.REFS_ROLE, Rg.PAY_BUF_USED]); first | done | decide | omega | (simp; done) | (simp; omega)))]; exact yr
  have v1 : v.e = (s.slot h).e ∧ v.forced = forced ∧ v.last = ((s.slot h).contrib, (s.slot h).hash, ofBool (decide ((s.slot h).contrib < s.membersOf (s.slot h).job (s.expected h))) + 2 * ofBool forced + 8 * ofBool (s.slot h).quorumWaited + 16 * ofBool (s.slot h).unresolvedSeen) := by
    rw [← hv]; exact ⟨rfl, rfl, rfl⟩
  have js : ∀ (d b : Nat) (w : State), w = (((z.setSlot h { z.slot h with dlBeat := d, hardBeat := b }).putFlag .fd (Rg.PJ_HOLDING (s.slot h).job) false).jobRegs (s.slot h).job) →
      w.slot h = { z.slot h with dlBeat := d, hardBeat := b } ∧ w.hallTest h = w := by
    intro d b w hw
    have ws : w.slot h = { z.slot h with dlBeat := d, hardBeat := b } := by
      rw [hw, HQ.slot (.of_dist (jobRegs_all ..).1)]; unfold State.putFlag; rw [slot_put, slot_setSlot]
    refine ⟨ws, hallTest_open ?_ ?_ (countFull_zero ?_)⟩ <;> rw [ws, p1]
  obtain ⟨w1, w2⟩ := js _ _ _ rfl
  refine ⟨?_, w2⟩
  rw [w1, p1]
  exact ⟨v1.1, by rw [← v1.1], v1.2.1, rfl, rfl, v1.2.2⟩
theorem active_sub {m : MbGo} {s : State} (hb : m.box < 8) (c : Nat) (ar : s.isActiveRoot = true) : (s.mbSubmit m c).isActiveRoot = true := by
  unfold State.isActiveRoot State.role; rw [get_sub hb _ (by (unfold mbKeys; ((try simp only [Field.key, Rg.REFS_ROLE]); first | done | decide | omega | (simp; done) | (simp; omega))))]; exact ar
theorem sb_ready {m : MbGo} {s : State} {sig : List Nat} {need : Nat} (h : MbReady m 2 (some (m.argAt sig 0)) need s) (hn : layoutEnd 0 sig = need) (hp : m.part = .fd)
    (hv : s.dist.variant = .vxd2880) (ar : s.isActiveRoot = true) (code : Nat) (body : List Nat → State → MbOut × State) :
    s.sbCmd m code sig body = (body (parseFields m.args 0 sig) (s.mbSubmit m code)).2.mbAnswer m.part m.box code m.tag m.irq m.dma (body (parseFields m.args 0 sig) (s.mbSubmit m code)).1 := by
  unfold State.sbCmd
  rw [own_fd hp hv, mailbox_ready (jobArg := some 0) h hn]
  unfold State.atRoot
  simp only [active_sub h.box code ar, if_true]
theorem ans_list_ok (m : MbGo) (code : Nat) (fixed : List (Nat × Nat)) (es : List (List (Nat × Nat))) (t : State) :
    Answered m 0 (t.mbAnswer m.part m.box code m.tag m.irq m.dma (.list fixed es)) ∧ (t.mbAnswer m.part m.box code m.tag m.irq m.dma (.list fixed es)).dist = t.dist
      ∧ (t.mbAnswer m.part m.box code m.tag m.irq m.dma (.list fixed es)).die = t.die
      ∧ (m.box < 8 → ∀ f : Machine.Field, ¬ mbKeys f.key → ∀ p, (t.mbAnswer m.part m.box code m.tag m.irq m.dma (.list fixed es)).get p f = t.get p f) := by
  unfold State.mbAnswer State.mbList
  have w : ∀ p a b (u : State), (u.dmaWrite p a b).dist = u.dist ∧ (u.dmaWrite p a b).die = u.die ∧ ∀ q f, (u.dmaWrite p a b).get q f = u.get q f := by
    intro p a b u; cases p <;> exact ⟨rfl, rfl, fun q f => by cases q <;> rfl⟩
  cases hd : m.dma
  · simp only [Bool.false_eq_true, if_false]
    exact ⟨mbDone_answer _ _ _ _ (by decide) _ _ _ _, mbDone_dist .., mbDone_die .., fun hb f hf p => get_mbDone ((offMb_iff f).2 hf) _ _ hb _ _ _ _ _ _ _⟩
  · simp only [if_true]
    exact ⟨mbDone_answer _ _ _ _ (by decide) _ _ _ _, (mbDone_dist ..).trans (w ..).1, (mbDone_die ..).trans (w ..).2.1,
      fun hb f hf p => (get_mbDone ((offMb_iff f).2 hf) _ _ hb _ _ _ _ _ _ _).trans ((w ..).2.2 _ _)⟩
theorem sbRegs_dist (j : Nat) (s : State) : (s.sbRegs j).dist = s.dist := by unfold State.sbRegs State.putFlag; simp only [State.put_dist]
theorem sbUnmap_one (key p : Nat) (s : State) (h : SMap.find key s.dist.sb.pages = some p) :
    (s.sbUnmap key).dist.sb = { s.dist.sb with pages := SMap.erase key s.dist.sb.pages, used := s.dist.sb.used.filter (· != p), entries := s.dist.sb.entries.filter fun e => e.1 / 4096 != p } := by
  unfold State.sbUnmap; rw [h]; dsimp only; rw [sbRegs_dist]; rfl
theorem retryHeld_nil {s : State} (h : s.dist.hall.bodyWait = []) : s.retryHeld.dist = s.dist ∧ (∀ p, s.retryHeld.unit p = s.unit p) ∧ s.retryHeld.die = s.die := by
  unfold State.retryHeld
  rw [h]
  dsimp only [List.foldl_nil]
  refine ⟨?_, fun p => by rw [State.unit_setHall], rfl⟩
  show ({ s.dist with hall := { s.dist.hall with bodyWait := [] } } : Dist) = s.dist
  rw [← h]
theorem pipeStates_keep (s : State) : s.pipeStates.dist = s.dist ∧ (∀ f : Machine.Field, (∀ i < 68, f.key ≠ (Rg.PIPE_PSTATE i).key) → ∀ p, s.pipeStates.get p f = s.get p f) ∧ s.pipeStates.die = s.die := by
  unfold State.pipeStates
  have hm : ∀ i ∈ List.range 68, i < 68 := by simp
  generalize s.servingPipes = sv
  generalize List.range 68 = l at *
  induction l generalizing s with
  | nil => exact ⟨rfl, fun _ _ _ => rfl, rfl⟩
  | cons a l ih =>
    rw [List.foldl_cons]
    generalize hv : (if s.get .fd (Rg.PIPE_RETIRE_MAP a) = 255 then 3 else if s.dist.spare.combines.any (fun c => c.pipe == a && !c.fin) then 1 else if sv.contains a then 0 else 2 : Nat) = v
    obtain ⟨i1, i2, i3⟩ := ih (s.put .fd (Rg.PIPE_PSTATE a) v) fun i hi => hm i (by simp [hi])
    refine ⟨i1.trans (State.put_dist ..), fun f hf p => (i2 f hf p).trans ?_, i3.trans (State.put_die ..)⟩
    cases p
    · exact State.get_put_ne _ (hf a (hm a (by simp))) _ _
    · rfl
theorem pipeStates_keep' (s : State) : s.pipeStates.dist = s.dist ∧ (∀ f : Machine.Field, (∀ i < 68, f.key ≠ (Rg.PIPE_PSTATE i).key) → ∀ p, s.pipeStates.get p f = s.get p f) ∧ s.pipeStates.die = s.die := pipeStates_keep s
theorem requestBody_spec (p : Part) (n fkind job tag : Nat) (s : State) {r : RxBody} (h : s.rxBody p n fkind job tag = some r) :
    ((s.requestBody p n fkind job tag).link p n).txBodies = (s.link p n).txBodies ++ [{ fkind := 3, job := job, tag := tag, body := {} }]
    ∧ ((s.requestBody p n fkind job tag).link p n).rxBodies = (s.link p n).rxBodies.map (fun x => if x.is fkind job tag then { x with requests := x.requests + 1, dueBeat := s.beat p + 16 } else x)
    ∧ (s.requestBody p n fkind job tag).get p (if p = .fd then Rg.PAY_REPEAT_SENT else Rg.SPAY_REPEAT_CNT) = sat 16 (s.get p (if p = .fd then Rg.PAY_REPEAT_SENT else Rg.SPAY_REPEAT_CNT) + 1) := by
  unfold State.requestBody
  dsimp only
  unfold State.bump
  rw [link_put]
  unfold State.rxBody at h
  refine ⟨?_, ?_, ?_⟩
  · rw [link_modLink]; unfold State.modRx; rw [link_modLink, h]
  · rw [link_modLink]; unfold State.modRx; rw [link_modLink, h]
  · rw [State.get_put_same, (modLink_all ..).2.2]
    unfold State.modRx
    rw [(modLink_all ..).2.2]
    have w : (if p = Part.fd then Rg.PAY_REPEAT_SENT else Rg.SPAY_REPEAT_CNT).width = 16 := by split <;> rfl
    rw [w, sat_mod]
theorem attRegs_spec (s : State) : s.attRegs.dist = s.dist ∧ s.attRegs.die = s.die ∧ (∀ f : Machine.Field, f.key ≠ Rg.ATT_OLDEST_SEQ.key → f.key ≠ Rg.ATT_SPILL_PAUSED.key → f.key ≠ Rg.ATT_SPILL_BUF_PCT.key → ∀ p, s.attRegs.get p f = s.get p f) := by
  unfold State.attRegs
  dsimp only
  generalize (match (s.dist.arch.arch.filter (!·.gone)).head?, s.dist.arch.spill.head?, s.dist.arch.ring.head? with
    | some x, _, _ => x.block.seq
    | none, some b, _ => b.seq
    | none, none, some b => b.seq
    | none, none, none => s.get .fd Rg.ATT_OLDEST_SEQ) = v
  unfold State.putFlag
  split
  · refine ⟨State.put_dist .., State.put_die .., fun f a b c p => ?_⟩
    cases p
    · rw [State.get_put_ne _ a]
    · rfl
  · refine ⟨by simp only [State.put_dist], by simp only [State.put_die], fun f a b c p => ?_⟩
    cases p
    · rw [State.get_put_ne _ c, State.get_put_ne _ b, State.get_put_ne _ a]
    · rfl
theorem att_ready {m : MbGo} {s : State} {sig : List Nat} {need : Nat} {jobArg : Option Nat} (h : MbReady m 4 (jobArg.map fun i => (parseFields m.args 0 sig).getD i 0) need s) (hn : layoutEnd 0 sig = need) (hp : m.part = .fd)
    (code : Nat) (body : List Nat → State → MbOut × State) :
    s.mailbox m code (fdOnly m.part 4) sig jobArg body = (body (parseFields m.args 0 sig) (s.mbSubmit m code)).2.mbAnswer m.part m.box code m.tag m.irq m.dma (body (parseFields m.args 0 sig) (s.mbSubmit m code)).1 := by
  rw [fdOnly_fd hp, mailbox_ready h hn]
theorem ringPush_room {b : Block} {s : State} (h : s.dist.arch.ring.length < ringCapacity) :
    (s.ringPush b).dist = { s.dist with arch := { s.dist.arch with ring := s.dist.arch.ring ++ [b] } } ∧ (s.ringPush b).get .fd Rg.ATT_HEAD_SEQ = b.seq % 2 ^ 32 := by
  unfold State.ringPush
  dsimp only
  rw [if_pos h]
  exact ⟨by show ({ (s.put .fd Rg.ATT_HEAD_SEQ b.seq).dist with arch := _ } : Dist) = _; rw [State.put_dist], by show (s.put .fd Rg.ATT_HEAD_SEQ b.seq).get .fd _ = _; rw [State.get_put_same]; rfl⟩
theorem closeBlock_room {b : Block} {s : State} (h : s.dist.arch.cur = some b) (hr : s.dist.arch.ring.length < ringCapacity) :
    s.closeBlock.dist = { s.dist with arch := { s.dist.arch with cur := none, ring := s.dist.arch.ring ++ [{ b with guard := b.guard || s.inGuard .fd }] } } ∧ s.closeBlock.get .fd Rg.ATT_HEAD_SEQ = b.seq % 2 ^ 32 := by
  unfold State.closeBlock
  rw [h]
  dsimp only
  have rp := ringPush_room (b := { b with guard := b.guard || s.inGuard .fd }) (s := s.setArch { s.dist.arch with cur := none }) hr
  exact ⟨rp.1, rp.2⟩
theorem ruleSet_link (n : Nat) (x : Archive) (s : State) : (s.setArch x).link .fd n = s.link .fd n := rfl
theorem only_tt {p : Part} {b : Bool} {K : Nat → Prop} {s t : State} (h : Only p b K s t) : (t.unit p).tt = (s.unit p).tt := by rw [h.unit]
theorem only_clock {p : Part} {b : Bool} {K : Nat → Prop} {s t : State} (h : Only p b K s t) : (t.unit p).clock = (s.unit p).clock := by rw [h.unit]
theorem chgEvent_only (p : Part) (c : TtChg) (a r : Nat) (s : State) : Only p false attKeys s (s.chgEvent p c a r) := by
  unfold State.chgEvent State.ttEvent; exact Only.record (Only.refl _ _ _ _) (fun _ h => h) _
theorem ttEvent_only (p : Part) (a b : Nat) (c : Bool) (d e : Nat) (s : State) : Only p false attKeys s (s.ttEvent p a b c d e) := by
  unfold State.ttEvent; exact Only.record (Only.refl _ _ _ _) (fun _ h => h) _
def ttKeys (k : Nat) : Prop := k = Rg.TT_PREPARED.key ∨ k = Rg.TT_PENDING.key ∨ k = Rg.TT_NO_NOW.key ∨ k = Rg.TT_EMERG_HOLD.key ∨ k = Rg.TT_DRILL_HOLD.key
theorem ttRegs_only (p : Part) (s : State) : Only p false ttKeys s (s.ttRegs p) := by
  unfold State.ttRegs
  exact Only.putFlag (Only.putFlag (Only.putFlag (Only.put (Only.put (Only.refl _ _ _ _) (Or.inl rfl) _) (Or.inr (Or.inl rfl)) _) (Or.inr (Or.inr (Or.inl rfl))) _) (Or.inr (Or.inr (Or.inr (Or.inl rfl)))) _) (Or.inr (Or.inr (Or.inr (Or.inr rfl)))) _
theorem tt_setTt (p : Part) (x : TtSt) (s : State) : ((s.setTt p x).unit p).tt = x := by cases p <;> rfl
theorem tt_modLink (p q : Part) (n : Nat) (f : Link → Link) (s : State) : ((s.modLink p n f).unit q).tt = (s.unit q).tt := State.setLink_tt ..
theorem tt_sendWords (p q : Part) (ns : List Nat) (w : CtlWord) (s : State) : ((s.sendWords p ns w).unit q).tt = (s.unit q).tt := by
  unfold State.sendWords
  refine foldl_keeps (fun t : State => (t.unit q).tt) (fun t n => ?_) _ _
  unfold State.sendWord; split
  · exact tt_modLink ..
  · rfl
theorem tt_sendTunnels (p q : Part) (ns : List Nat) (w : TunMsg) (s : State) : ((s.sendTunnels p ns w).unit q).tt = (s.unit q).tt := by
  unfold State.sendTunnels
  refine foldl_keeps (fun t : State => (t.unit q).tt) (fun t n => ?_) _ _
  unfold State.sendTunnel; split
  · exact tt_modLink ..
  · rfl
theorem chg_tt {p : Part} {s t : State} (h : (t.unit p).tt = (s.unit p).tt) (x : Nat) : t.chg p x = s.chg p x := by unfold State.chg State.tt; rw [h]
theorem chg_txn {p : Part} {s : State} {x : Nat} {c : TtChg} (h : s.chg p x = some c) : c.txn = x := by
  unfold State.chg at h; have := List.find?_some h; simpa using this
theorem chg_setChg {p : Part} {s : State} {x : Nat} {c d : TtChg} (h : s.chg p x = some c) (hd : d.txn = x) : (s.setChg p d).chg p x = some d := by
  unfold State.setChg State.chg
  show ((s.setTt p _).unit p).tt.changes.find? _ = _
  rw [tt_setTt]
  unfold State.chg at h
  show ((s.tt p).changes.map fun y => if y.txn = d.txn then d else y).find? (fun y => y.txn == x) = some d
  generalize (s.tt p).changes = l at *
  induction l with
  | nil => simp at h
  | cons a l ih =>
    by_cases e : a.txn = x
    · simp [List.find?_cons, e, hd]
    · rw [List.find?_cons] at h
      have e' : (a.txn == x) = false := beq_eq_false_iff_ne.2 e
      rw [e'] at h
      rw [List.map_cons, List.find?_cons]
      have : ¬ a.txn = d.txn := by rw [hd]; exact e
      rw [if_neg this, e']; exact ih h
theorem tt_unreserveAll (c : TtChg) (q : Part) (s : State) : ((s.unreserveAll c).unit q).tt = (s.unit q).tt := by
  unfold State.unreserveAll
  refine foldl_keeps (fun t : State => (t.unit q).tt) (fun t n => ?_) _ _
  unfold State.unreserve
  dsimp only
  split
  · rfl
  · rw [jobRegs_tt]; simp only [State.unit_setHall, State.unit_setSlot]
theorem decided_tt (p : Part) (a b : Nat) (s : State) : ((s.decided p a b).unit p).tt = (s.unit p).tt := by unfold State.decided; simp
theorem abortHeld_chg {p : Part} {s : State} {x : Nat} {c0 c : TtChg} (h : s.chg p x = some c0) (hc : c.txn = x) (r o : Nat) :
    (s.abortHeld p c r o).chg p x = some { c with state := 5, reason := r, origin := o } := by
  unfold State.abortHeld
  dsimp only
  rw [chg_tt (only_tt (ttRegs_only ..))]
  have b : ∀ y : State, ((if p = .fd then y.unreserveAll { c with state := 5, reason := r, origin := o } else y).unit p).tt = (y.unit p).tt := by
    intro y; split
    · exact tt_unreserveAll ..
    · rfl
  rw [chg_tt (b _)]
  have bu : ∀ y : State, ((y.bump p Rg.TT_ABORTS).unit p).tt = (y.unit p).tt := by intro y; unfold State.bump; simp
  rw [chg_tt (bu _), chg_tt (only_tt (chgEvent_only ..)), chg_tt (decided_tt ..)]
  exact chg_setChg h hc
theorem rootAbort_chg {s : State} {x : Nat} {c0 c : TtChg} (h : s.chg .fd x = some c0) (hc : c.txn = x) (r o : Nat) :
    (s.rootAbort c r o).chg .fd x = some { c with state := 5, reason := r, origin := o } := by
  unfold State.rootAbort State.sendChg
  exact abortHeld_chg (by rw [chg_tt (tt_sendWords ..)]; exact h) hc r o
/-- Only what waits on links changes, and the timetable state. -/
def LQ (s u : State) : Prop := u.dist = s.dist ∧ u.die = s.die ∧ u.now = s.now ∧ (∀ q f, u.get q f = s.get q f) ∧ u.fd = { s.fd with links := u.fd.links } ∧ (∀ n, (u.link .fd n).alignedBeat = (s.link .fd n).alignedBeat)
theorem LQ.refl (s : State) : LQ s s := ⟨rfl, rfl, rfl, fun _ _ => rfl, rfl, fun _ => rfl⟩
theorem LQ.trans {s t u : State} (h : LQ s t) (k : LQ t u) : LQ s u :=
  ⟨k.1.trans h.1, k.2.1.trans h.2.1, k.2.2.1.trans h.2.2.1, fun q f => (k.2.2.2.1 q f).trans (h.2.2.2.1 q f), by rw [k.2.2.2.2.1, h.2.2.2.2.1], fun n => (k.2.2.2.2.2 n).trans (h.2.2.2.2.2 n)⟩
theorem modLink_LQ (n : Nat) (f : Link → Link) (s : State) (hf : ∀ l, (f l).alignedBeat = l.alignedBeat) : LQ s (s.modLink .fd n f) := by
  refine ⟨(modLink_all ..).1, (modLink_all ..).2.1, by unfold State.modLink; exact State.now_setLink .., (modLink_all ..).2.2, rfl, fun k => ?_⟩
  by_cases e : k = n
  · subst e; rw [link_modLink, hf]
  · unfold State.modLink; rw [link_setLink_ne _ e]
theorem foldl_LQ {α : Type} {f : State → α → State} (h : ∀ t x, LQ t (f t x)) (l : List α) (s : State) : LQ s (l.foldl f s) := by
  induction l generalizing s with
  | nil => exact LQ.refl s
  | cons a l ih => exact (h s a).trans (ih _)
theorem sendPrepare_LQ (c : TtChg) (b : Bool) (v n : Nat) (s : State) (h : c.scope ≠ 0) : LQ s (s.sendPrepare .fd c b v n) := by
  unfold State.sendPrepare
  have w : ∀ (t : State) x, LQ t (t.sendWord .fd n x) := by
    intro t x; unfold State.sendWord; split
    · exact modLink_LQ _ _ _ fun _ => rfl
    · exact LQ.refl t
  have g : ∀ (t : State) x, LQ t (t.sendTunnel .fd n x) := by
    intro t x; unfold State.sendTunnel; split
    · exact modLink_LQ _ _ _ fun _ => rfl
    · exact LQ.refl t
  have sc : (decide (c.scope = 0)) = false := decide_eq_false h
  simp only [sc, Bool.and_false, Bool.false_and, Bool.false_eq_true, if_false]
  refine LQ.trans (LQ.trans ?_ (foldl_LQ (fun t x => w t _) _ _)) (w _ _)
  split
  · exact LQ.refl s
  · exact g _ _
theorem ttReason_congr {s u : State} (c : TtChg) (b : Bool) (hd : u.dist = s.dist) (hn : u.now = s.now) (hg : ∀ f, u.get .fd f = s.get .fd f)
    (hu : u.fd = { s.fd with links := u.fd.links, tt := u.fd.tt }) (hl : ∀ n, (u.link .fd n).alignedBeat = (s.link .fd n).alignedBeat)
    (h1 : ((u.tt .fd).changes.filter fun x => x.prepared && x.txn != c.txn).length = ((s.tt .fd).changes.filter fun x => x.prepared && x.txn != c.txn).length)
    (h2 : ((u.tt .fd).changes.filter fun x => x.state == 3).length = ((s.tt .fd).changes.filter fun x => x.state == 3).length) : u.ttReason .fd c b = s.ttReason .fd c b := by
  have uf : (u.unit .fd).fw = (s.unit .fd).fw := by show u.fd.fw = s.fd.fw; rw [hu]
  have ue : (u.unit .fd).emerg = (s.unit .fd).emerg := by show u.fd.emerg = s.fd.emerg; rw [hu]
  have uc : (u.unit .fd).clock = (s.unit .fd).clock := by show u.fd.clock = s.fd.clock; rw [hu]
  have a1 : u.noNow .fd = s.noNow .fd := by unfold State.noNow State.emergency State.inGuard State.restarting State.activating State.flag; simp only [uf, ue, hg]
  have a2 : u.isActiveRoot = s.isActiveRoot := by unfold State.isActiveRoot State.role; rw [hg]
  have a3 : u.overQuota c = s.overQuota c := by
    unfold State.overQuota State.hallLive State.slot State.job State.jobSlots State.reservedCount; simp only [hd, a2]
  have a4 : u.beat .fd = s.beat .fd := beat_of uc
  have a5 : u.emergHold .fd = s.emergHold .fd := by unfold State.emergHold State.emergency; simp only [ue, hn]
  have a6 : u.acceptOk .fd = s.acceptOk .fd := by unfold State.acceptOk; rw [uf]
  have a7 : u.voteLinkLost .fd c = s.voteLinkLost .fd c := by unfold State.voteLinkLost State.linkUp State.lstate; simp only [hg, hl]
  have a8 : ∀ a : TtAct, TtAct.bad .fd u a = TtAct.bad .fd s a := by
    intro a; cases a <;> simp only [TtAct.bad, State.role, hg, hd, reduceCtorEq, decide_false, Bool.false_and]
  have a9 : TtAct.bad .fd u = TtAct.bad .fd s := funext a8
  unfold State.ttReason
  simp only [a1, a2, a3, a4, a5, a6, a7, a9, uf, h1, h2]
theorem periodic_now {p : Part} {key m r : Nat} {s : State} (hm : 0 < m) (h1 : s.beat p % m = r) (h2 : SMap.find key (s.unit p).lastDone ≠ some (s.beat p)) :
    s.periodic p key m r = s.setUnit p { s.unit p with lastDone := SMap.set key (s.beat p) (s.unit p).lastDone } := by
  have np : nextPhase (s.beat p) m r = s.beat p := by
    unfold nextPhase; rw [h1]
    have : r + m - r = m := by omega
    rw [this, Nat.mod_self]; rfl
  unfold State.periodic
  dsimp only
  rw [np, if_neg h2]
  have aw : s.awaitBeat p (s.beat p) = s := by unfold State.awaitBeat; refine awaitHt_past ?_; unfold State.beat; omega
  rw [aw]
theorem scheduleBell_slot (j k e fl h : Nat) (s : State) : (s.scheduleBell j k e fl).slot h = s.slot h ∧ (s.scheduleBell j k e fl).role = s.role := by
  unfold State.scheduleBell State.role
  dsimp only
  generalize hs1 : (s.setPj j _).pjRegs j = s1
  have a1 : s1.slot h = s.slot h ∧ s1.get .fd Rg.REFS_ROLE = s.get .fd Rg.REFS_ROLE := by
    rw [← hs1]; unfold State.pjRegs State.putFlag; dsimp only
    refine ⟨by simp only [slot_put]; rfl, ?_⟩
    rw [State.get_put_ne _ (by ((try simp only [Field.key, Rg.REFS_ROLE, Rg.PJ_PHASE]); first | done | decide | omega | (simp; done) | (simp; omega))), State.get_put_ne _ (by ((try simp only [Field.key, Rg.REFS_ROLE, Rg.PJ_RECESS]); first | done | decide | omega | (simp; done) | (simp; omega))), State.get_put_ne _ (by ((try simp only [Field.key, Rg.REFS_ROLE, Rg.PJ_LEVEL_OUT]); first | done | decide | omega | (simp; done) | (simp; omega)))]; rfl
  generalize hs2 : (if (k == 0 && (s.pj j).recess) = true then s1.setPj j _ else s1) = s2
  have a2 : s2.slot h = s.slot h ∧ s2.get .fd Rg.REFS_ROLE = s.get .fd Rg.REFS_ROLE := by
    rw [← hs2]; split
    · exact a1
    · exact a1
  generalize hs3 : s2.setJob j _ = s3
  have a3 : s3.slot h = s.slot h ∧ s3.get .fd Rg.REFS_ROLE = s.get .fd Rg.REFS_ROLE := by
    rw [← hs3]; exact a2
  rw [slot_put, State.get_put_ne _ (by ((try simp only [Field.key, Rg.REFS_ROLE, Rg.RC_BELLS]); first | done | decide | omega | (simp; done) | (simp; omega))), HQ.slot (.of_only (record_fd ..)), (record_fd ..).get _ (by (refine not_att ?_ ?_ ?_ <;> ((try simp only [Field.key, Rg.REFS_ROLE]); first | done | decide | omega | (simp; done) | (simp; omega)))), HQ.slot (.of_dist (sendBell_dist ..).1), (sendBell_dist ..).2]
  exact a3
theorem hallCheck_idle {h k : Nat} {s : State} (h1 : (s.slot h).state = .counting) (h2 : (s.slot h).holding = false) (h3 : s.countFull h = false) : s.hallCheck h k = s := by
  cases k with
  | zero => rfl
  | succ k =>
    unfold State.hallCheck
    simp only [h1, h2, h3, Bool.and_false, Bool.false_eq_true, if_false, reduceCtorEq]
    have e1 : (Machine.HState.counting == Machine.HState.quorumWait) = false := rfl
    have e2 : (Machine.HState.counting == Machine.HState.unresolved) = false := rfl
    simp only [e1, e2, Bool.false_and, Bool.or_self, Bool.and_false, Bool.false_eq_true, if_false, ite_self]
theorem rootComplete_bell {h : Nat} {forced : Bool} {s : State} (h1 : (s.slot h).payload = false) (h3 : (s.slot h).early = 0) (hr : s.isActiveRoot = true) :
    ((s.rootComplete h forced).slot h).completed = (s.slot h).e ∧ ((s.rootComplete h forced).slot h).e = ((s.slot h).e + 1) % 65536 ∧ ((s.rootComplete h forced).slot h).state = .counting
      ∧ ((s.rootComplete h forced).slot h).arr = 0 ∧ ((s.rootComplete h forced).slot h).holding = false := by
  unfold State.rootComplete
  simp only [h1, Bool.false_and, Bool.false_eq_true, if_false]
  generalize hx : s.sendDone h (s.expected h) _ _ _ _ = x
  have xd : x.dist = s.dist ∧ (∀ q f, x.get q f = s.get q f) := by rw [← hx]; unfold State.sendDone; exact ⟨(sendWords_all ..).1, (sendWords_all ..).2.2.1⟩
  have ro := hallRec_only 0x03 h (s.slot h).contrib (s.slot h).e (s.slot h).lastPort [] x
  generalize x.hallRec 0x03 h (s.slot h).contrib (s.slot h).e (s.slot h).lastPort = y at *
  have ys : y.slot h = s.slot h := by rw [(HQ.of_only ro).slot, HQ.slot (.of_dist xd.1)]
  rw [ys]
  generalize hv : ({ s.slot h with forced := forced, last := ((s.slot h).contrib, (s.slot h).hash, _) } : HSlot) = v
  generalize hz : (if (s.slot h).bell = true then (y.setSlot h v).scheduleBell _ _ _ _ else y.setSlot h v) = z
  have zs : z.slot h = v := by
    rw [← hz]; split
    · rw [(scheduleBell_slot ..).1, slot_setSlot]
    · rw [slot_setSlot]
  obtain ⟨p1, _, _⟩ := promote_plain (h := h) (s := z) (by rw [zs, ← hv]; exact h3)
  rw [zs] at p1
  generalize z.promote h = w at *
  have ve : v.e = (s.slot h).e := by rw [← hv]
  rw [HQ.slot (.of_dist (jobRegs_all ..).1)]
  unfold State.putFlag
  rw [slot_put, slot_setSlot, p1]
  exact ⟨ve, by rw [← ve], rfl, rfl, rfl⟩
def pjKeys (k : Nat) : Prop := 0x9100 * 32 ≤ k ∧ k < 0x9500 * 32
/-- What the shaper keeps while it works on jobs. -/
def PT (s t : State) : Prop := t.dist.power.cap = s.dist.power.cap ∧ t.dist.spare = s.dist.spare ∧ (∀ f : Machine.Field, ¬ pjKeys f.key → t.get .fd f = s.get .fd f) ∧ (t.unit .fd).clock = (s.unit .fd).clock
theorem PT.refl (s : State) : PT s s := ⟨rfl, rfl, fun _ _ => rfl, rfl⟩
theorem PT.trans {s t u : State} (h : PT s t) (k : PT t u) : PT s u := ⟨k.1.trans h.1, k.2.1.trans h.2.1, fun f hf => (k.2.2.1 f hf).trans (h.2.2.1 f hf), k.2.2.2.trans h.2.2.2⟩
theorem put_PT {f : Machine.Field} {v : Nat} {s : State} (h : pjKeys f.key) : PT s (s.put .fd f v) :=
  ⟨by rw [State.put_dist], by rw [State.put_dist], fun g hg => State.get_put_ne _ (by intro e; rw [e] at hg; exact hg h) _ _, State.unit_put_clock ..⟩
theorem foldl_PT {f : State → Nat → State} {l : List Nat} {s : State} (h : ∀ t, ∀ j ∈ l, PT t (f t j)) : PT s (l.foldl f s) := by
  induction l generalizing s with
  | nil => exact PT.refl s
  | cons a l ih => exact (h s a (by simp)).trans (ih fun t j hj => h t j (by simp [hj]))
theorem setPj_PT (j : Nat) (x : JobPwr) (s : State) : PT s (s.setPj j x) := ⟨rfl, rfl, fun _ _ => rfl, rfl⟩
theorem setCadence_PT {j : Nat} (hj : j < 64) (b : List Byte) (s : State) : PT s (s.setCadence j b) := by
  unfold State.setCadence
  dsimp only
  exact (((((((put_PT (by (unfold pjKeys; ((try simp only [Field.key, Rg.PJ_STEP_FLOOR]); first | done | decide | omega | (simp; done) | (simp; omega))))).trans (put_PT (by (unfold pjKeys; ((try simp only [Field.key, Rg.PJ_RECESS_LOW]); first | done | decide | omega | (simp; done) | (simp; omega)))))).trans (put_PT (by (unfold pjKeys; ((try simp only [Field.key, Rg.PJ_STAGGER_LOG2]); first | done | decide | omega | (simp; done) | (simp; omega)))))).trans (put_PT (by (unfold pjKeys; ((try simp only [Field.key, Rg.PJ_AUTO_RECESS]); first | done | decide | omega | (simp; done) | (simp; omega)))))).trans (put_PT (by (unfold pjKeys; ((try simp only [Field.key, Rg.PJ_STAGGER_BEATS]); first | done | decide | omega | (simp; done) | (simp; omega)))))).trans (put_PT (by (unfold pjKeys; ((try simp only [Field.key, Rg.PJ_MIN_INTERVAL_BEATS]); first | done | decide | omega | (simp; done) | (simp; omega)))))).trans (put_PT (by (unfold pjKeys; ((try simp only [Field.key, Rg.PJ_RECESS_DETECT_MS]); first | done | decide | omega | (simp; done) | (simp; omega))))))
theorem jobTick_PT {j : Nat} (hj : j < 64) (s : State) : PT s (s.jobTick j) := by
  unfold State.jobTick
  split
  · exact PT.refl s
  · dsimp only
    split
    · exact setPj_PT ..
    · exact ((setCadence_PT hj _ _).trans (setPj_PT ..)).trans (setPj_PT ..)
theorem pjRegs_PT {j : Nat} (hj : j < 64) (s : State) : PT s (s.pjRegs j) := by
  unfold State.pjRegs State.putFlag
  dsimp only
  exact ((put_PT (by (unfold pjKeys; ((try simp only [Field.key, Rg.PJ_LEVEL_OUT]); first | done | decide | omega | (simp; done) | (simp; omega))))).trans (put_PT (by (unfold pjKeys; ((try simp only [Field.key, Rg.PJ_RECESS]); first | done | decide | omega | (simp; done) | (simp; omega)))))).trans (put_PT (by (unfold pjKeys; ((try simp only [Field.key, Rg.PJ_PHASE]); first | done | decide | omega | (simp; done) | (simp; omega)))))
theorem sendFloor_PT {j : Nat} (hj : j < 64) (s : State) : PT s (s.sendFloor j) := by
  unfold State.sendFloor
  dsimp only
  have big : ∀ x w, PT s (((s.pjRegs j).setPj j x).sendMembers j w) := by
    intro x w
    refine ((pjRegs_PT hj s).trans (setPj_PT j x _)).trans ?_
    unfold State.sendMembers
    exact ⟨by rw [(sendWords_all ..).1], by rw [(sendWords_all ..).1], fun f _ => (sendWords_all ..).2.2.1 .., (sendWords_all ..).2.2.2.2 ..⟩
  repeat' split
  all_goals first | exact pjRegs_PT hj s | exact big _ _
theorem sendFloors_PT (s : State) : PT s s.sendFloors := by
  unfold State.sendFloors
  refine foldl_PT fun t j hj => ?_
  split
  · exact sendFloor_PT (by simpa using hj) t
  · exact PT.refl t
theorem loadTimer_PT (up : Bool) (s : State) : PT s (s.loadTimer up) := by
  unfold State.loadTimer
  dsimp only
  generalize (if (!s.waits up) = true then none else _ : Option Nat) = t
  cases up <;> exact ⟨rfl, rfl, fun _ _ => rfl, rfl⟩
theorem pwr_ready {m : MbGo} {s : State} {sig : List Nat} {need : Nat} {jobArg : Option Nat} (h : MbReady m 3 (jobArg.map fun i => (parseFields m.args 0 sig).getD i 0) need s) (hn : layoutEnd 0 sig = need) (hp : m.part = .fd)
    (hv : s.dist.variant = .vxd2880) (ar : s.isActiveRoot = true) (code : Nat) (body : List Nat → State → MbOut × State) :
    s.mailbox m code (s.own2880 m.part 3) sig jobArg (fun a t => t.atRoot (body a t)) = (body (parseFields m.args 0 sig) (s.mbSubmit m code)).2.mbAnswer m.part m.box code m.tag m.irq m.dma (body (parseFields m.args 0 sig) (s.mbSubmit m code)).1 := by
  rw [own_fd hp hv, mailbox_ready h hn]
  unfold State.atRoot
  simp only [active_sub h.box code ar, if_true]
theorem pj_setPj (j : Nat) (x : JobPwr) (s : State) : (s.setPj j x).pj j = x := by
  unfold State.pj State.setPj State.setPower State.setDist; show SMap.get _ _ (SMap.set _ _ _) = _; rw [SMap.get_set_same]
theorem pj_dist {s t : State} (h : t.dist = s.dist) (j : Nat) : t.pj j = s.pj j := by unfold State.pj; rw [h]
theorem resendDown_all (s : State) : s.resendDown.dist = s.dist ∧ (∀ p f, s.resendDown.get p f = s.get p f) := by
  have sc : ∀ n (t : State), (t.sendCompleted n).dist = t.dist ∧ (∀ p f, (t.sendCompleted n).get p f = t.get p f) := by
    intro n t; unfold State.sendCompleted
    refine ⟨foldl_keeps (fun t : State => t.dist) (fun t e => ?_) _ _, fun p f => foldl_keeps (fun t : State => t.get p f) (fun t e => ?_) _ _⟩
    · dsimp only; split
      · exact (sendWord_all ..).1
      · rfl
    · dsimp only; split
      · exact (sendWord_all ..).2.2.1 p f
      · rfl
  unfold State.resendDown
  dsimp only
  generalize List.range 64 = l
  have a : ∀ t : State, (l.foldl (fun (t : State) n => (t.sendCompleted n).modLink .fd n fun l => { l with alignedBeat := t.beat .fd }) t).dist = t.dist :=
    fun t => foldl_keeps (fun t : State => t.dist) (fun t n => ((modLink_all ..).1.trans (sc n t).1)) _ _
  have b : ∀ (t : State) p f, (l.foldl (fun (t : State) n => (t.sendCompleted n).modLink .fd n fun l => { l with alignedBeat := t.beat .fd }) t).get p f = t.get p f :=
    fun t p f => foldl_keeps (fun t : State => t.get p f) (fun t n => (((modLink_all ..).2.2 p f).trans ((sc n t).2 p f))) _ _
  refine ⟨(foldl_keeps (fun t : State => t.dist) (fun t e => ?_) _ _).trans (a s), fun p f => (foldl_keeps (fun t : State => t.get p f) (fun t e => ?_) _ _).trans (b s p f)⟩
  · split
    · split
      · exact (sendBell_dist ..).1
      · rfl
    · rfl
  · split
    · split
      · exact (sendBell_dist ..).2 p f
      · rfl
    · rfl
theorem promotionRecovery_all (s : State) (h : ∀ e ∈ s.dist.hall.jobs, e.1 < 64) : s.promotionRecovery.dist.hall.promoteAt = s.dist.hall.promoteAt
    ∧ (∀ f : Machine.Field, (∀ j < 64, f.key ≠ (Rg.RC_RECOVERY_MS j).key) → s.promotionRecovery.get .fd f = s.get .fd f) := by
  unfold State.promotionRecovery
  dsimp only
  generalize s.dist.hall.jobs = l at *
  refine ⟨foldl_keeps (fun t : State => t.dist.hall.promoteAt) (fun t e => ?_) _ _, fun f hf => ?_⟩
  · rw [State.put_dist]; rfl
  · suffices key : ∀ (lost : Nat) (u : State), (l.foldl (fun (t : State) e => (t.setJob e.1 { (t.job e.1) with rcNs := (t.job e.1).rcNs.set 3 ((t.job e.1).rcNs.getD 3 0 + (if (t.job e.1).lastBellWord.isSome then lost else 0)), rcAt := t.now, rcWait := 0 }).put .fd (Rg.RC_RECOVERY_MS e.1)
        (sat 32 (((t.job e.1).rcNs.set 3 ((t.job e.1).rcNs.getD 3 0 + (if (t.job e.1).lastBellWord.isSome then lost else 0))).getD 3 0 / 1000000))) u).get .fd f = u.get .fd f from key _ s
    intro lost
    induction l with
    | nil => intro u; rfl
    | cons a l ih =>
      intro u
      rw [List.foldl_cons, ih (fun e he => h e (by simp [he]))]
      rw [State.get_put_ne _ (hf _ (h a (by simp)))]
      unfold State.setJob State.setHall; rw [State.get_setDist]
theorem promoteRegs_only (s : State) : Only .fd false (fun k => k = Rg.PROM_MIRROR_SILENT.key ∨ k = Rg.PROM_MID_MAJORITY.key ∨ k = Rg.PROM_MIDS_LINKED.key ∨ k = Rg.PROM_MIDS_LOST.key) s s.promoteRegs := by
  unfold State.promoteRegs
  exact Only.put (Only.put (Only.putFlag (Only.putFlag (Only.refl _ _ _ _) (.inl rfl) _) (.inr (.inl rfl)) _) (.inr (.inr (.inl rfl))) _) (.inr (.inr (.inr rfl))) _
def holdKeys (k : Nat) : Prop := k = Rg.REFS_SEL_STATE.key ∨ k = Rg.REFS_SELECTED.key ∨ k = Rg.REFS_LOCK.key ∨ k = Rg.HT_HOLDOVER.key ∨ k = Rg.HT_SLEWING.key ∨ attKeys k
theorem refEvent_regs (a b : Nat) (o : Option Int) (s : State) : Regs holdKeys s (s.refEvent a b o) ∧ (s.refEvent a b o).dist = { s.dist with arch := (s.refEvent a b o).dist.arch } := by
  have q : Only .fd false attKeys s (s.refEvent a b o) := by unfold State.refEvent; exact record_fd _ _
  exact ⟨Regs.of_only (q.mono fun _ k => .inr (.inr (.inr (.inr (.inr k))))), q.dist⟩
theorem enterHoldover_spec (s : State) : Regs holdKeys s s.enterHoldover ∧ s.enterHoldover.dist.hall = s.dist.hall ∧ s.enterHoldover.dist.mirrorTt = s.dist.mirrorTt := by
  unfold State.enterHoldover
  dsimp only
  refine ⟨?_, ?_, ?_⟩
  · refine Regs.trans ?_ (refEvent_regs ..).1
    refine Regs.put ?_ (.inr (.inr (.inr (.inr (.inl rfl))))) _
    intro p f hf
    rw [slewTo_get]; unfold State.setHold; rw [State.get_setDist]
    exact (((((Regs.refl _ s).put (q := .fd) (f := Rg.REFS_SEL_STATE) (.inl rfl) 3).put (q := .fd) (f := Rg.REFS_SELECTED) (.inr (.inl rfl)) 0).put (q := .fd) (f := Rg.REFS_LOCK) (.inr (.inr (.inl rfl))) 0).put (q := .fd) (f := Rg.HT_HOLDOVER) (.inr (.inr (.inr (.inl rfl)))) 1) p f hf
  · rw [(refEvent_regs ..).2]; rfl
  · rw [(refEvent_regs ..).2]; rfl
theorem SMap.find_set_ne {α : Type} {j k : Nat} (h : j ≠ k) (v : α) (m : SMap α) : SMap.find j (SMap.set k v m) = SMap.find j m := by
  induction m with
  | nil => simp [SMap.set, SMap.find, h]
  | cons e t ih =>
    obtain ⟨i, w⟩ := e
    simp only [SMap.set]
    split
    · simp [SMap.find, h]
    · split
      · subst_vars; simp [SMap.find, h]
      · simp [SMap.find, ih]
theorem prefectOf_congr {s u : State} {p : Part} (hg : ∀ f : Machine.Field, ¬ mbKeys f.key → u.get p f = s.get p f) (r : Nat) : u.prefectOf p r = s.prefectOf p r := by
  unfold State.prefectOf
  have key : ∀ l : List Nat, (∀ i ∈ l, i < 9) → l.find? (fun i => u.get p (Rg.PREF_ROLE i) == r && u.get p (Rg.PREF_STATE i) != 5) = l.find? (fun i => s.get p (Rg.PREF_ROLE i) == r && s.get p (Rg.PREF_STATE i) != 5) := by
    intro l hl
    induction l with
    | nil => rfl
    | cons a l ih =>
      have := hl a (by simp)
      simp only [List.find?_cons]
      rw [ih (fun i hi => hl i (by simp [hi])), hg _ (by (unfold mbKeys; ((try simp only [Field.key, Rg.PREF_ROLE]); first | done | decide | omega | (simp; done) | (simp; omega)))), hg _ (by (unfold mbKeys; ((try simp only [Field.key, Rg.PREF_STATE]); first | done | decide | omega | (simp; done) | (simp; omega))))]
  refine key _ ?_
  intro i hi
  have := List.mem_range.1 hi
  split at this <;> omega
theorem prefectOf_lt {s : State} {p : Part} {r i : Nat} (h : s.prefectOf p r = some i) : i < 7 := by
  unfold State.prefectOf at h
  have := List.mem_range.1 (List.mem_of_find?_eq_some h)
  split at this <;> omega
theorem rcPart_congr {s u : State} (j : Nat) (hj : j < 64) (hd : u.dist = s.dist) (hl : u.fd.links = s.fd.links) (hg : ∀ f : Machine.Field, ¬ mbKeys f.key → u.get .fd f = s.get .fd f) (hn : u.htNs .fd = s.htNs .fd) : u.rcPart j = s.rcPart j := by
  have us : ∀ k, u.slot k = s.slot k := HQ.slot (.of_dist hd)
  have uj : ∀ k, u.job k = s.job k := HQ.job (.of_dist hd)
  have uk : ∀ k, u.link .fd k = s.link .fd k := by intro k; unfold State.link; exact congrArg (SMap.get {} k) hl
  have js : ∀ k, u.jobSlots k = s.jobSlots k := by intro k; unfold State.jobSlots; rw [hd]
  have pj : ∀ k, u.pj k = s.pj k := pj_dist hd
  have uh : u.dist.hall = s.dist.hall := by rw [hd]
  have mp : ∀ k, u.missingPorts k = s.missingPorts k := by
    intro k; unfold State.missingPorts; rw [hallCount_of (s := s) (by unfold State.role; exact hg _ (by (unfold mbKeys; ((try simp only [Field.key, Rg.REFS_ROLE]); first | done | decide | omega | (simp; done) | (simp; omega))))) (by rw [hd]) (by rw [us]) (by rw [us]), us]
  have mp64 : ∀ k, ∀ n ∈ s.missingPorts k, n < 64 := by
    intro k n hn
    unfold State.missingPorts at hn
    have := (List.mem_filter.1 hn).1
    unfold setBits at this
    have := (List.mem_filter.1 this).1
    simpa using this
  have own : u.ownRecovery = s.ownRecovery := by
    unfold State.ownRecovery
    simp only [hl, uj, js, us, mp, uk, uh]
    rw [prefectOf_congr hg]
    have e1 : u.get .fd (Rg.PREF_STATE ((s.prefectOf .fd 2).getD 2)) = s.get .fd (Rg.PREF_STATE ((s.prefectOf .fd 2).getD 2)) := by
      refine hg _ ?_
      cases h : s.prefectOf .fd 2 with
      | none => simp only [Option.getD]; (unfold mbKeys; ((try simp only [Field.key, Rg.PREF_STATE]); first | done | decide | omega | (simp; done) | (simp; omega)))
      | some i => have := prefectOf_lt h; simp only [Option.getD]; (unfold mbKeys; ((try simp only [Field.key, Rg.PREF_STATE]); first | done | decide | omega | (simp; done) | (simp; omega)))
    rw [e1]
    refine congrArg (maskOf 64) (funext fun k => ?_)
    refine congrArg₂ _ (congrArg₂ _ (any_congr' fun h _ => ?_) rfl) rfl
    refine congrArg₂ _ rfl (any_congr' fun n hn => ?_)
    have := mp64 h n hn
    unfold State.lstate
    rw [hg _ (by (unfold mbKeys; ((try simp only [Field.key, Rg.LINK_LSTATE]); first | done | decide | omega | (simp; done) | (simp; omega))))]
  have rm : u.recoveryMasks = s.recoveryMasks := by unfold State.recoveryMasks; rw [own]; simp only [uk, hd]
  unfold State.rcPart
  rw [pj, rm, uj, hn]
theorem drillGates_congr {s u : State} (ht : (u.unit .fd).tt = (s.unit .fd).tt) (he : (u.unit .fd).emerg = (s.unit .fd).emerg) (hg : ∀ f : Machine.Field, ¬ mbKeys f.key → u.get .fd f = s.get .fd f) : u.drillGates = s.drillGates := by
  unfold State.drillGates State.flag State.inGuard State.flag State.emergency
  rw [he, hg _ (by (unfold mbKeys; ((try simp only [Field.key, Rg.DRL_DRILL_EN]); first | done | decide | omega | (simp; done) | (simp; omega)))), hg _ (by (unfold mbKeys; ((try simp only [Field.key, Rg.START_STAGE]); first | done | decide | omega | (simp; done) | (simp; omega)))), hg _ (by (unfold mbKeys; ((try simp only [Field.key, Rg.SUP_GUARD]); first | done | decide | omega | (simp; done) | (simp; omega)))), show u.fd.tt = s.fd.tt from ht]
theorem startDrill3 (target : Nat) (s : State) : (s.startDrill 3 target).get .fd Rg.DRL_RUNNING = 1 ∧ (s.startDrill 3 target).get .fd Rg.DRL_RUNNING_TYPE = 3
    ∧ (s.startDrill 3 target).dist.spare = { s.dist.spare with running := some { type := 3, target := target, ht32 := s.ht32 .fd, until_ := s.now + 1000000 }, drillSeen := 0, drillDue := false, forceMismatch := true } := by
  unfold State.startDrill State.inject
  have o : Only .fd false attKeys s (s.drillRec 3 target 0) := record_fd _ _
  have sd : (s.drillRec 3 target 0).dist.spare = s.dist.spare := by rw [o.dist]
  simp only [show (3 : Nat) ≠ 0 by decide, show (3 : Nat) ≠ 1 by decide, show (3 : Nat) ≠ 2 by decide, if_false, if_true]
  refine ⟨?_, ?_, ?_⟩
  · rw [State.get_setSpare, State.get_put_ne _ (by decide), State.get_put_same]; rfl
  · rw [State.get_setSpare, State.get_put_same]; rfl
  · simp only [State.setSpare, State.setDist, State.put_dist, sd]; rfl
theorem withdraw_spec (d : Drill) (s : State) : (s.withdraw d).dist.spare = { s.dist.spare with forceMismatch := false, drillSeen := 0, running := none }
    ∧ (s.withdraw d).get .fd Rg.DRL_RUNNING = 0 ∧ (s.withdraw d).get .fd Rg.DRL_RUNNING_TYPE = 7 ∧ (s.withdraw d).get .fd Rg.DRL_DONE_CNT = sat 16 (s.get .fd Rg.DRL_DONE_CNT + 1) := by
  unfold State.withdraw
  dsimp only
  generalize hx : (if d.type = 2 then _ else _ : State) = x
  have q : x.dist.spare = { s.dist.spare with forceMismatch := false, drillSeen := 0, running := none } ∧ (∀ f, x.get .fd f = s.get .fd f) := by
    rw [← hx]
    split
    · split
      · rename_i r _; refine ⟨?_, fun f => ?_⟩
        · cases r <;> rfl
        · cases r <;> rfl
      · exact ⟨rfl, fun _ => rfl⟩
    · exact ⟨rfl, fun _ => rfl⟩
  refine ⟨?_, ?_, ?_, ?_⟩
  · unfold State.bump; simp only [State.put_dist]; exact q.1
  · rw [get_bump_ne _ (by decide), State.get_put_ne _ (by decide), State.get_put_same]; rfl
  · rw [get_bump_ne _ (by decide), State.get_put_same]; rfl
  · rw [get_bump, State.get_put_ne _ (by decide), State.get_put_ne _ (by decide), q.2]; rfl
theorem drillLog_spec (ty tg h r : Nat) (hr : r < 4) (a b c : Nat) (w : State) : (((w.drillRec a b c).logDrill ty tg h r).dist.spare = { w.dist.spare with drillLog := ((ty, tg, h, r) :: w.dist.spare.drillLog).take 16 })
    ∧ ((w.drillRec a b c).logDrill ty tg h r).get .fd Rg.DRL_LAST_RESULT = r ∧ (∀ f : Machine.Field, ¬ attKeys f.key → f.key ≠ Rg.DRL_LAST_RESULT.key → ((w.drillRec a b c).logDrill ty tg h r).get .fd f = w.get .fd f) := by
  have o : Only .fd false attKeys w (w.drillRec a b c) := record_fd _ _
  have sd : (w.drillRec a b c).dist.spare = w.dist.spare := by rw [o.dist]
  unfold State.logDrill
  refine ⟨?_, ?_, fun f h1 h2 => ?_⟩
  · simp only [State.setSpare, State.setDist, State.put_dist, sd]
  · rw [State.get_put_same]; show r % 4 = r; omega
  · rw [State.get_put_ne _ h2, State.get_setSpare, o.get f h1]
/-- A word written where no GO bit stands. -/
theorem writeWord_plain {p : Part} {req off v : Nat} {s : State} (h1 : ¬ (0x8800 ≤ off ∧ off < 0x8900)) (h2 : off ≠ 0xA00C) : s.writeWord p req off v = s.slateWord p req off v := by
  have e : (decide (0x8800 ≤ off) && decide (off < 0x8900)) = false := by
    rw [Bool.and_eq_false_iff]; by_cases a : 0x8800 ≤ off <;> simp_all
  unfold State.writeWord
  simp only [e, Bool.false_and, Bool.false_eq_true, if_false, h2, decide_false]
  split <;> rfl

/-- A word whose write is refused. -/
theorem writeWord_denied {p : Part} {req off v : Nat} {s : State} (h : s.mayWrite p req off v = false) : s.writeWord p req off v = s.slateWord p req off v := by
  unfold State.writeWord
  simp only [h, Bool.not_false, if_true]

theorem clampInt_mem {lo hi x : Int} (h : lo ≤ hi) : lo ≤ clampInt lo hi x ∧ clampInt lo hi x ≤ hi := by
  unfold clampInt
  split
  · omega
  · split <;> omega

/-- One tick of a counter: 4 ns, and no more than one LSB a count besides (R45). -/
theorem run_one (counts : Nat) (c : Clock) : ∃ d : Int, -(counts : Int) ≤ d ∧ d ≤ counts ∧ (c.run 1 counts).ht = (c.ht + ((tickLsb : Nat) + d).toNat) % htSpan
    ∧ (c.slewNext = none → d = c.tickCorr 1 counts) := by
  have z : ∀ c : Clock, (c.count 0 counts).ht = c.ht % htSpan ∧ (c.count 0 counts).slewNext = c.slewNext := by
    intro c
    have : c.tickCorr 0 counts = 0 := by
      have := clampInt_mem (lo := -(0 * counts : Nat)) (hi := (0 * counts : Nat)) (x := Int.tdiv (c.carry + (0 * tickLsb : Nat) * c.rate + c.slewStep 0) lsbUnit) (by omega)
      unfold Clock.tickCorr
      omega
    unfold Clock.count
    simp [this]
  have r : ∀ c : Clock, c.relimit.ht = c.ht := by
    intro c; unfold Clock.relimit; split
    · split <;> rfl
    · rfl
  have b : ∀ c : Clock, -(counts : Int) ≤ c.tickCorr 1 counts ∧ c.tickCorr 1 counts ≤ counts := by
    intro c
    have := clampInt_mem (lo := -(1 * counts : Nat)) (hi := (1 * counts : Nat)) (x := Int.tdiv (c.carry + (1 * tickLsb : Nat) * c.rate + c.slewStep 1) lsbUnit) (by omega)
    unfold Clock.tickCorr
    omega
  have a : c.ticksBefore 1 = 0 ∨ c.ticksBefore 1 = 1 := by
    unfold Clock.ticksBefore; split <;> omega
  rcases a with a | a
  · refine ⟨(c.count 0 counts).relimit.tickCorr 1 counts, (b _).1, (b _).2, ?_, ?_⟩
    · unfold Clock.run
      simp only [a]
      show (((c.count 0 counts).relimit.ht) + _) % htSpan = _
      rw [r, (z c).1]
      simp [Nat.add_mod]
    · intro n
      exfalso
      unfold Clock.ticksBefore at a; rw [n] at a; simp at a
  · refine ⟨c.tickCorr 1 counts, (b _).1, (b _).2, ?_, fun _ => rfl⟩
    unfold Clock.run
    simp only [a, Nat.sub_self]
    rw [(z _).1, r]
    show (c.ht + _) % htSpan % htSpan = _
    simp

theorem pass_wraps {p : Part} {s : State} (on : (s.unit p).start.on = true) (h : s.htNs p = 2 ^ 64 - 1) : (s.pass 1).get p Rg.HT_HT_WRAP = 1 ∧ (s.pass 1).htNs p ≤ 4
    ∧ ((s.unit p).clock = { ht := s.ht p } → (s.pass 1).ht p = (s.ht p + 262144) % 2 ^ 80) := by
  have hn : (s.unit p).clock.ht / 65536 = 2 ^ 64 - 1 := h
  have key : ∀ counts, counts ≤ 8 → ∀ t : State, (t.unit p).clock = (s.unit p).clock → (t.unit p).start.on = true →
      (t.runPart p 1 counts).get p Rg.HT_HT_WRAP = 1 ∧ ((t.runPart p 1 counts).unit p).clock.ht / 65536 ≤ 4
      ∧ ((s.unit p).clock = { ht := s.ht p } → ((t.runPart p 1 counts).unit p).clock.ht = (s.ht p + 262144) % 2 ^ 80) := by
    intro counts hc t e e'
    unfold State.runPart
    rw [e', e]
    obtain ⟨d, d1, d2, d3, d4⟩ := run_one counts (s.unit p).clock
    have w : (s.unit p).clock.wrapsIn 1 counts = true := by
      unfold Clock.wrapsIn
      have := clampInt_mem (lo := -(1 * counts : Nat)) (hi := (1 * counts : Nat)) (x := Int.tdiv ((s.unit p).clock.carry + (1 * tickLsb : Nat) * (s.unit p).clock.rate + (s.unit p).clock.slewStep 1) lsbUnit) (by omega)
      unfold Clock.tickCorr
      have e1 : tickLsb = 262144 := rfl
      have e2 : htSpan = 2 ^ 80 := rfl
      rw [e1] at this ⊢
      rw [e2, decide_eq_true_eq]
      omega
    simp only [Bool.not_true, Bool.false_eq_true, if_false, w, if_true]
    refine ⟨by rw [State.get_put_same]; rfl, ?_, ?_⟩
    · rw [State.unit_put_clock, State.unit_setUnit]
      show ((s.unit p).clock.run 1 counts).ht / 65536 ≤ 4
      rw [d3]
      have e1 : tickLsb = 262144 := rfl
      have e2 : htSpan = 2 ^ 80 := rfl
      rw [e1, e2]; omega
    · intro hs
      rw [State.unit_put_clock, State.unit_setUnit]
      show ((s.unit p).clock.run 1 counts).ht = _
      have d0 : d = 0 := by
        rw [d4 (by rw [hs])]
        rw [hs]; unfold Clock.tickCorr Clock.slewStep clampInt; simp; omega
      rw [d3, d0]; rfl
  have se : ∀ u : State, u.slewEnd.get p Rg.HT_HT_WRAP = u.get p Rg.HT_HT_WRAP ∧ (u.slewEnd.unit p).clock = (u.unit p).clock := by
    intro u; unfold State.slewEnd; split
    · exact ⟨State.get_put_ne p (show (Rg.HT_HT_WRAP).key ≠ (Rg.HT_SLEWING).key by decide) 0 u |> fun h => by cases p <;> first | exact h | rfl, State.unit_put_clock ..⟩
    · exact ⟨rfl, rfl⟩
  have other : ∀ (q : Part) (counts : Nat) (u : State), q ≠ p → (u.runPart q 1 counts).get p Rg.HT_HT_WRAP = u.get p Rg.HT_HT_WRAP ∧ ((u.runPart q 1 counts).unit p).clock = (u.unit p).clock
      ∧ ((u.runPart q 1 counts).unit p).start = (u.unit p).start := by
    intro q counts u hq
    unfold State.runPart
    split
    · exact ⟨rfl, rfl, rfl⟩
    · dsimp only
      split
      · refine ⟨?_, ?_, ?_⟩
        · rw [State.get_put_part (Ne.symm hq)]; unfold State.get; rw [State.unit_setUnit_ne (Ne.symm hq)]
        · rw [State.unit_put_clock, State.unit_setUnit_ne (Ne.symm hq)]
        · rw [State.unit_put_start, State.unit_setUnit_ne (Ne.symm hq)]
      · refine ⟨?_, ?_, ?_⟩
        · unfold State.get; rw [State.unit_setUnit_ne (Ne.symm hq)]
        · rw [State.unit_setUnit_ne (Ne.symm hq)]
        · rw [State.unit_setUnit_ne (Ne.symm hq)]
  unfold State.pass State.htNs State.ht
  rw [(se _).1, (se _).2]
  cases p with
  | fd =>
    obtain ⟨o1, o2, o3⟩ := other .sc 5 (({ s with now := s.now + 4 * 1 } : State).runPart .fd 1 8) (by decide)
    rw [o1, o2]
    exact key 8 (by omega) _ rfl on
  | sc =>
    obtain ⟨o1, o2, o3⟩ := other .fd 8 ({ s with now := s.now + 4 * 1 } : State) (by decide)
    exact key 5 (by omega) _ (by rw [o2]; rfl) (by rw [o3]; exact on)

/-- The registers that a rebase of the measurement may move: the results' and, through records, attendance's. -/
def measKeys (k : Nat) : Prop := tresKeys k ∨ attKeys k

/-- What leaves everything but measurement results, records and the measurement's own state. -/
def MeasOk (s t : State) : Prop := Regs measKeys s t ∧ t.dist.hall = s.dist.hall ∧ (∀ p, t.ht p = s.ht p) ∧ (t.unit .fd).slate = (s.unit .fd).slate
theorem MeasOk.refl (s : State) : MeasOk s s := ⟨Regs.refl _ _, rfl, fun _ => rfl, rfl⟩
theorem MeasOk.trans {s t u : State} (a : MeasOk s t) (b : MeasOk t u) : MeasOk s u :=
  ⟨a.1.trans b.1, b.2.1.trans a.2.1, fun p => (b.2.2.1 p).trans (a.2.2.1 p), b.2.2.2.trans a.2.2.2⟩
theorem MeasOk.put {s t : State} (h : MeasOk s t) {f : Machine.Field} (hf : tresKeys f.key) (v : Nat) : MeasOk s (t.put .fd f v) :=
  h.trans ⟨(Regs.refl _ t).put (.inl hf) v, by rw [State.put_dist], fun p => by unfold State.ht; rw [State.unit_put_clock], State.unit_put_slate ..⟩
theorem MeasOk.record {s t : State} (h : MeasOk s t) (x : Rec) : MeasOk s (t.record .fd x) := by
  have q : Only .fd false attKeys t (t.record .fd x) := record_fd _ _
  refine h.trans ⟨Regs.of_only (q.mono fun _ k => .inr k), by rw [q.dist], fun p => ?_, ?_⟩
  · cases p
    · exact q.ht
    · unfold State.ht; rw [show ((t.record .fd x).unit .sc) = t.unit .sc from q.other .sc (by decide)]
  · rw [only_slate q, q.mail rfl]
theorem MeasOk.mains {s t : State} (h : MeasOk s t) (x : MainsSt) : MeasOk s (t.setMains x) :=
  h.trans ⟨fun p f _ => by cases p <;> rfl, rfl, fun p => by cases p <;> rfl, rfl⟩

theorem MeasOk.ite {s t u : State} {c : Prop} [Decidable c] (a : MeasOk s t) (b : MeasOk s u) : MeasOk s (if c then t else u) := by split <;> assumption
theorem MeasOk.mainsPublish {s t : State} (h : MeasOk s t) (v : Bool) : MeasOk s (t.mainsPublish v) := by
  unfold State.mainsPublish State.mainsEvent State.putFlag
  dsimp only
  have k2 : ∀ (u : State), MeasOk s u → ∀ (c : Prop) [Decidable c] (e : Nat), MeasOk s (if c then u.record .fd { kind := 0x23, arg := Config.eventCode 0x23 e % 256, hallwide := true } else u) :=
    fun u hu c _ e => MeasOk.ite (hu.record _) hu
  refine k2 _ (k2 _ (MeasOk.mains (MeasOk.put ?_ (by unfold tresKeys; ((try simp only [Field.key, Rg.MNS_GATE_SEQ]); first | done | decide | omega | (simp; done) | (simp; omega))) _) _) _ _) _ _
  have fo : ∀ (l : List Nat) (g : State → Nat → State) (w : State), MeasOk s w → (∀ n ∈ l, n < 6) → (∀ w n, n < 6 → MeasOk s w → MeasOk s (g w n)) → MeasOk s (l.foldl g w) := by
    intro l g
    induction l with
    | nil => intro w hw _ _; exact hw
    | cons a l ih => intro w hw hl hg; exact ih _ (hg _ _ (hl a (by simp)) hw) (fun n hn => hl n (by simp [hn])) hg
  refine fo _ _ _ ?_ (fun n hn => List.mem_range.1 hn) ?_
  · generalize selectFeed _ _ _ = sel
    generalize rocofOf _ _ _ = roc
    generalize List.find? _ _ = ref
    have p0 : ∀ (a b c d : Nat), MeasOk s ((((t.put .fd Rg.MNS_PHASE_VALID a).put .fd Rg.MNS_FEED_VALID b).put .fd Rg.MNS_MAINS_VALID c).put .fd Rg.MNS_ROCOF_VALID d) := fun a b c d =>
      MeasOk.put (MeasOk.put (MeasOk.put (MeasOk.put h (by unfold tresKeys; ((try simp only [Field.key, Rg.MNS_PHASE_VALID]); first | done | decide | omega | (simp; done) | (simp; omega))) _) (by unfold tresKeys; ((try simp only [Field.key, Rg.MNS_FEED_VALID]); first | done | decide | omega | (simp; done) | (simp; omega))) _) (by unfold tresKeys; ((try simp only [Field.key, Rg.MNS_MAINS_VALID]); first | done | decide | omega | (simp; done) | (simp; omega))) _) (by unfold tresKeys; ((try simp only [Field.key, Rg.MNS_ROCOF_VALID]); first | done | decide | omega | (simp; done) | (simp; omega))) _
    have p1 : ∀ (u : State), MeasOk s u → ∀ o : Option Nat, MeasOk s (match o with | some f => u.put .fd Rg.MNS_FREQ f | none => u) := by
      intro u hu o; cases o
      · exact hu
      · exact hu.put (by unfold tresKeys; ((try simp only [Field.key, Rg.MNS_FREQ]); first | done | decide | omega | (simp; done) | (simp; omega))) _
    have p2 : ∀ (u : State), MeasOk s u → ∀ o : Option Int, MeasOk s (match o with | some r => u.putS .fd Rg.MNS_ROCOF r | none => u) := by
      intro u hu o; cases o
      · exact hu
      · exact hu.put (by unfold tresKeys; ((try simp only [Field.key, Rg.MNS_ROCOF]); first | done | decide | omega | (simp; done) | (simp; omega))) _
    have p3 : ∀ (u : State), MeasOk s u → ∀ (o : Option Nat) (a b : Nat), MeasOk s (match o with
        | none => u
        | some p0 => ((u.put .fd Rg.MNS_ANGLE_REF p0).put .fd Rg.MNS_T0_LO a).put .fd Rg.MNS_T0_HI b) := by
      intro u hu o a b; cases o
      · exact hu
      · exact ((hu.put (by unfold tresKeys; ((try simp only [Field.key, Rg.MNS_ANGLE_REF]); first | done | decide | omega | (simp; done) | (simp; omega))) _).put (by unfold tresKeys; ((try simp only [Field.key, Rg.MNS_T0_LO]); first | done | decide | omega | (simp; done) | (simp; omega))) _).put (by unfold tresKeys; ((try simp only [Field.key, Rg.MNS_T0_HI]); first | done | decide | omega | (simp; done) | (simp; omega))) _
    exact p3 _ (p2 _ (p1 _ (p0 _ _ _ _) _) _) _ _ _
  · intro w n hn hw
    split
    · unfold State.putS
      exact MeasOk.put (MeasOk.put hw (by unfold tresKeys; ((try simp only [Field.key, Rg.MNS_FREQ_P]); first | done | decide | omega | (simp; done) | (simp; omega))) _) (by unfold tresKeys; ((try simp only [Field.key, Rg.MNS_ANGLE_P]); first | done | decide | omega | (simp; done) | (simp; omega))) _
    · exact MeasOk.put hw (by unfold tresKeys; ((try simp only [Field.key, Rg.MNS_ANGLE_P]); first | done | decide | omega | (simp; done) | (simp; omega))) _
theorem MeasOk.rebaseAll (old : Nat) (o : Bool) (s : State) : MeasOk s (s.rebaseAll old o) := by
  unfold State.rebaseAll State.mainsRebase
  have a := tdcRebase_ok old o s
  have b : MeasOk s (s.tdcRebase old o) := ⟨fun p f hf => a.1 p f fun e => hf (.inl e), a.2.1, a.2.2.1, a.2.2.2⟩
  dsimp only
  exact MeasOk.ite (b.mains _) (MeasOk.mains (MeasOk.mainsPublish (b.mains _) _) _)

/-- What an event carries, apart from where it is on its way. -/
def evCore (e : HubEv) : Nat × Nat × EvBody := (e.src, e.stamp, e.body)

theorem evStep_core (s : State) (others : List HubEv) : ∀ (k : Nat) (e : HubEv), evCore (s.evStep others k e) = evCore e := by
  intro k
  induction k with
  | zero => intro e; rfl
  | succ k ih =>
    intro e
    have go : ∀ n, evCore (if (s.stn n).clkLost then e else match s.nextHop n with
        | none => { e with at_ := .hub, entered := s.htNs .sc }
        | some m => if (others.filter fun o => o.at_ == .hop n m).length < 8 then s.evStep others k { e with at_ := .hop n m } else e) = evCore e := by
      intro n
      split
      · rfl
      · cases s.nextHop n with
        | none => rfl
        | some m =>
          dsimp only
          split
          · rw [ih]; rfl
          · rfl
    unfold State.evStep
    cases h : e.at_ with
    | buf n => exact go n
    | hop n m => exact go m
    | hub => rfl

theorem evMoves_core (s : State) : ∀ (l done : List HubEv), (s.evMoves done l).map evCore = (done ++ l).map evCore := by
  intro l
  induction l with
  | nil => intro done; unfold State.evMoves; simp
  | cons e l ih => intro done; unfold State.evMoves; rw [ih]; simp [evStep_core]

/-- Events on their way move, and nothing else changes. -/
theorem evSettle_spec : ∀ (k : Nat) (s : State), ∃ ev, s.evSettle k = s.setSync { s.die.sync with events := ev } ∧ ev.map evCore = s.die.sync.events.map evCore := by
  intro k
  induction k with
  | zero => intro s; exact ⟨s.die.sync.events, rfl, rfl⟩
  | succ k ih =>
    intro s
    unfold State.evSettle
    obtain ⟨ev, h1, h2⟩ := ih (s.setSync { s.die.sync with events := s.evMoves [] s.die.sync.events })
    refine ⟨ev, h1.trans rfl, h2.trans ?_⟩
    show (s.evMoves [] s.die.sync.events).map evCore = _
    rw [evMoves_core]; rfl

/-- An event of a station is queued and travels; nothing else changes. -/
theorem postEvent_spec (n : Nat) (b : EvBody) (s : State) :
    ∃ ev, s.postEvent n b = s.setSync { s.die.sync with events := ev } ∧ ev.map evCore = s.die.sync.events.map evCore ++ [(n, (s.stn n).stamp, b)] := by
  unfold State.postEvent State.settle
  obtain ⟨ev, h1, h2⟩ := evSettle_spec (s.setSync { s.die.sync with events := s.die.sync.events ++ [{ src := n, stamp := (s.stn n).stamp, body := b, at_ := .buf n }] }).die.sync.events.length
    (s.setSync { s.die.sync with events := s.die.sync.events ++ [{ src := n, stamp := (s.stn n).stamp, body := b, at_ := .buf n }] })
  refine ⟨ev, h1.trans rfl, h2.trans ?_⟩
  show (s.die.sync.events ++ _).map evCore = _
  simp [evCore]

theorem OnlyEv.refl (s : State) : OnlyEv s s := ⟨s.die.sync.events, rfl⟩
theorem OnlyEv.stn {s t : State} (h : OnlyEv s t) (n : Nat) : t.stn n = s.stn n := by obtain ⟨_, rfl⟩ := h; rfl
theorem copyLost_ev (n : Nat) (w : HbWord) (s : State) : OnlyEv s (s.copyLost n w) := by
  unfold State.copyLost
  split
  · exact OnlyEv.refl s
  · split
    · exact postEvent_ev ..
    · exact postEvent_ev ..
    · exact OnlyEv.refl s

/-- A queue's command is on its way. -/
theorem sendEvent_spec {q : Nat} {e : QEntry} {s v : State} (h1 : v.die.sync.events = s.die.sync.events) (h2 : v.get .sc (Rg.Q_STATION q) = s.get .sc (Rg.Q_STATION q))
    (h3 : v.get .sc (Rg.Q_BIND_GEN q) = s.get .sc (Rg.Q_BIND_GEN q)) :
    OnlyEv v (v.sendEvent q e.tag e.cmd) ∧ Sent q e (v.stn (s.get .sc (Rg.Q_STATION q))).stamp s (v.sendEvent q e.tag e.cmd) := by
  unfold State.sendEvent
  obtain ⟨ev, e1, e2⟩ := postEvent_spec (v.get .sc (Rg.Q_STATION q)) (.cmd q e.tag (v.get .sc (Rg.Q_BIND_GEN q)) e.cmd) v
  refine ⟨⟨ev, e1⟩, ?_⟩
  rw [h2, h3, h1] at e2
  rw [h2, h3] at e1
  rw [h2, h3, e1]
  exact e2

/-- Of the die only stations and the pending operating point may differ. -/
def StnOpp (s t : State) : Prop := ∃ x o, t.die = { s.die with stn := x, opp := o }

theorem StnOpp.refl (s : State) : StnOpp s s := ⟨s.die.stn, s.die.opp, rfl⟩
theorem StnOpp.trans {s t u : State} (a : StnOpp s t) (b : StnOpp t u) : StnOpp s u := by
  obtain ⟨x, o, a⟩ := a
  obtain ⟨y, q, b⟩ := b
  exact ⟨y, q, by rw [b, a]⟩
theorem StnOpp.queue (n : Nat) (m : HbMsg) (c : Nat) (s : State) : StnOpp s (s.hbQueue n m c) := ⟨_, s.die.opp, rfl⟩
theorem StnOpp.setOpp (o : OppSt) (s : State) : StnOpp s (s.setOpp o) := ⟨s.die.stn, o, rfl⟩
theorem StnOpp.fold {α : Type} {f : State → α → State} (h : ∀ t a, StnOpp t (f t a)) : ∀ (l : List α) (s : State), StnOpp s (l.foldl f s) := by
  intro l
  induction l with
  | nil => exact StnOpp.refl
  | cons a l ih => intro s; exact (h s a).trans (ih _)
theorem StnOpp.armAll (s : State) : StnOpp s s.oppArmAll := by
  unfold State.oppArmAll
  split
  · split
    · exact StnOpp.refl s
    · exact StnOpp.trans (by unfold State.hbQueueAll; exact StnOpp.fold (fun t n => StnOpp.queue n _ _ t) _ _) (StnOpp.setOpp _ _)
  · exact StnOpp.refl s
theorem StnOpp.due (b : Nat) (s : State) : StnOpp s (s.oppDue b) := by
  have a : ∀ o : Option OppSw, StnOpp s (match o with | some w => if w.at_ ≤ b + 2304 then s.oppArmAll else s | none => s) := by
    intro o
    cases o with
    | none => exact StnOpp.refl s
    | some w => dsimp only; split; exact StnOpp.armAll s; exact StnOpp.refl s
  unfold State.oppDue
  dsimp only
  split
  · split
    · exact ((a _).trans (StnOpp.setOpp _ _)).trans (StnOpp.fold (fun t n => StnOpp.queue n _ _ t) _ _)
    · exact a _
  · exact a _

end Sys2Proof.Cmds
end

