-- ==== Sys2Proof/Tests/Slice0.lean ====
section
/-! SUPPORT. Tests: what `wellFormed` refuses, single commands against values worked out by hand from the rules, and for every statement that has hypotheses
a state and operands that meet them. -/

open Sys2Proof Sys2Proof.Machine

namespace Slice0

set_option Elab.async false
set_option linter.unusedVariables false

/-- Several fields of a part set. -/
def poke (p : Part) (l : List (Machine.Field × Nat)) (s : State) : State := l.foldl (fun t e => t.put p e.1 e.2) s

def onDist (f : Dist → Dist) (s : State) : State := { s with dist := f s.dist }
def onDie (f : Die → Die) (s : State) : State := { s with die := f s.die }
def onUnit (p : Part) (f : Common → Common) (s : State) : State := s.setUnit p (f (s.unit p))
def onFw (p : Part) (f : FwSt → FwSt) : State → State := onUnit p fun u => { u with fw := f u.fw }
def onSync (f : SyncSt → SyncSt) : State → State := onDie fun d => { d with sync := f d.sync }
def onHall (f : HallSt → HallSt) : State → State := onDist fun d => { d with hall := f d.hall }
def at_ (n : Nat) (s : State) : State := { s with now := n }
def clk (p : Part) (ht : Nat) : State → State := onUnit p fun u => { u with clock := { u.clock with ht := ht } }

/-- Both parts powered and started, the step core's registers at their reset values: every prefect runs its own role, the distributor at stage 3, the step core at stage 2, joined and clocked. -/
def up : State :=
  let s := onUnit .sc (fun _ => { start := { on := true } })
    (onUnit .fd (fun u => { u with start := { on := true, tierA := true, ready := true } }) (onDie (fun d => { d with running := true }) State.reset))
  poke .sc [(Rg.START_STAGE, 2), (Rg.START_FW_UP, 1), (Rg.HT_JOINED, 1), (Rg.PREF_STATE 0, 2), (Rg.PREF_STATE 1, 2), (Rg.PREF_STATE 2, 2),
      (Rg.PREF_ROLE 0, 0), (Rg.PREF_ROLE 1, 1), (Rg.PREF_ROLE 2, 15)]
    (poke .fd ([(Rg.START_STAGE, 3), (Rg.START_STAGE1_MET, 1), (Rg.START_FW_UP, 1)] ++ (List.range 7).map (fun i => (Rg.PREF_STATE i, 2))
      ++ (List.range 7).map (fun i => (Rg.PREF_ROLE i, if i = 6 then 15 else i))) s)

/-- The distributor in a role: 1 the active root, 2 the standby, 3 a mid, 4 a portal. -/
def role (r : Nat) (s : State := up) : State := poke .fd [(Rg.REFS_ROLE, r)] s
def root : State := poke .fd [(Rg.ROLL_SEAT, 1)] (role 1)

/-- A PTP message from a master of clock class 6. -/
def okMaster : PtpMaster := ⟨0, 6, 0, 0, 0, 0, 0, 0⟩
def okPtp : PtpMsg := ⟨0, 0, false, okMaster, 0, true, 37⟩

/-- A submission at mailbox 0. -/
def go (p : Part) (args : List Nat) : MbGo := ⟨p, 0, 1, false, false, 0, args.map (BitVec.ofNat 8)⟩

/-- Queue 0 bound to context 0 and station 0, with these entries. -/
def withQ (es : List QEntry) (s : State := up) : State :=
  poke .sc [(Rg.Q_BOUND 0, 1)] (onSync (fun y => { y with queues := [(0, { entries := es, fenced := true })] }) s)
def ent (op : Nat) (rest : Nat := 0) : QEntry := { tag := 0, cmd := op * 2 ^ 60 + rest }
/-- A command that has passed the head, and one that waits behind: their tags are their own. -/
def gone : QEntry := { tag := 255, cmd := 0, phase := .passed }
def next : QEntry := { tag := 1, cmd := 0 }

/-- A slot at the hub's index 0, named by handle 0 of context 0. -/
def withHub (v : Slot) (s : State := up) : State := onSync (fun y => { y with slots := [(0, v)], handles := [(0, .hub 0)] }) s
def withStn (x : Station) (s : State := up) : State := onDie (fun d => { d with stn := [(0, x)] }) s
def withHSlot (v : HSlot) (s : State) : State := onHall (fun y => { y with slots := [(0, v)] }) s
def withJob (b : Job) (s : State) : State := onHall (fun y => { y with jobs := [(0, b)] }) s
def withChg (c : TtChg) (s : State) : State := onUnit .fd (fun u => { u with tt := { changes := [c], lastTxn := c.txn } }) s
def withMail (p : Part) (w : MbWait) : State → State := onUnit p fun u => { u with slate := { u.slate with mail := [(0, { wait := some w })] } }

/-- A descriptor in flight for queue 0 and the slot at index 0. -/
def desc : Desc := { idx := 0, q := 0, tag := 0, ctx := 0, ref := .hub 0, handle := 0, hslot := 0, epoch := 1, job := 0 }

theorem ready_of {m : MbGo} {owner need : Nat} {named : Option Nat} {s : State}
    (h : (decide (m.box < 8) && s.get m.part (Rg.MB_OWNED m.box) == 0 && (s.unit m.part).fw.activating == none && s.roleUp m.part 0 && s.roleUp m.part owner
      && s.die.sync.clear == none && s.cls m.part m.req == .admin && decide (need ≤ m.args.length)) = true) : MbReady m owner named need s := by
  simp only [Bool.and_eq_true, decide_eq_true_eq, beq_iff_eq] at h
  obtain ⟨⟨⟨⟨⟨⟨⟨a, b⟩, c⟩, d⟩, e⟩, f⟩, g⟩, k⟩ := h
  exact ⟨a, b, c, d, e, fun _ => f, Or.inl g, k⟩

theorem inQueue_of {q : Nat} {pre : List QEntry} {e : QEntry} {rest : List QEntry} {s : State}
    (h : ((s.queue q).entries == pre ++ e :: rest && (pre ++ rest).all (fun x => x.tag != e.tag) && e.out == none) = true) : InQueue q pre e rest s := by
  simp only [Bool.and_eq_true, beq_iff_eq, List.all_eq_true, bne_iff_ne] at h
  exact ⟨h.1.1, h.1.2, h.2⟩

theorem atHead_of {q : Nat} {pre : List QEntry} {e : QEntry} {rest : List QEntry} {s : State}
    (h : (((s.queue q).entries == pre ++ e :: rest && (pre ++ rest).all (fun x => x.tag != e.tag) && e.out == none) && s.queueLive q && pre.all (fun x => x.phase == .passed)
      && e.phase == .queued && cleanCmd e.cmd == e.cmd) = true) : AtHead q pre e rest s := by
  simp only [Bool.and_eq_true, beq_iff_eq, List.all_eq_true, bne_iff_ne] at h
  exact { toInQueue := ⟨h.1.1.1.1.1.1, h.1.1.1.1.1.2, h.1.1.1.1.2⟩, live := h.1.1.1.2, passed := h.1.1.2, fresh := h.1.2, clean := fun _ => h.2 }

theorem emuOpen_of {p : Part} {off : Nat} {s : State}
    (h : (decide (2 ≤ s.get .fd Rg.START_STAGE) && s.get .sc Rg.START_FW_UP == 1 && s.ownerDown p off == false && (s.unit p).slate.emuQ == []) = true) : EmuOpen p off s := by
  simp only [Bool.and_eq_true, decide_eq_true_eq, beq_iff_eq] at h
  obtain ⟨⟨⟨a, b⟩, c⟩, d⟩ := h
  exact ⟨fun _ => a, fun _ => b, c, d⟩

/-- A change for which the root has no NO: its digest is that of its body, whatever SHA-384 gives. -/
theorem ttStart_reason {s : State} {c : TtChg} (hb : c.hasBody = true) (hd : c.digest = digestOf (Config.sha384 [])) (hc : c.bytes = []) (hj : c.job = 0)
    (hm : c.members = []) (g : s.noNow .fd = 0) (r : s.isActiveRoot = true) (o : s.overQuota c = false) (v : s.voteLinkLost .fd c = false)
    (k : decide (8 ≤ ((s.tt .fd).changes.filter fun x => x.prepared && x.txn != c.txn).length) = false)
    (k2 : decide (16 ≤ ((s.tt .fd).changes.filter fun x => x.state == 3).length) = false) : s.ttReason .fd c true = 0 := by
  have p : parseBody 0 [] = some [] := by decide +kernel
  have a : c.acts = [] := by unfold TtChg.acts; rw [hc, hj, p]; rfl
  unfold State.ttReason
  simp [g, o, a, hb, hc, hd, hj, hm, p, r, v]
  simp at k k2
  omega


/-! `wellFormed` (R3, R14, R241, R365 and the rules of the fields). -/

def okGo : MbGo := go .fd []
def badGo : MbGo := { okGo with box := 8 }
def okBell : BellWord := { bellNo := 0, job := 0 }
def badBell : BellWord := { okBell with bellNo := 2 ^ 48 }
def badPtp : PtpMsg := { okPtp with domain := 256 }

/-! One well-formed term of each command that has a check. -/

theorem test_wellFormed_accepts_0 : ([
  .powerGood 0,
  .stageAdvance .fd (.tierBTrained 0 0),
  .supplyWarning .fd 0 0,
  .guardExit .fd 0,
  .ladderDescend .fd 0 0,
  .ladderWake .fd 0 0,
  .fwStage okGo,
  .fwActivate okGo,
  .activationComplete .fd [],
  .fwStatus okGo,
  .prefectRestart okGo,
  .tokenSet okGo,
  .configRead okGo,
  .fwUnstage okGo,
  .unknownCommand okGo 0,
  .componentFault .fd 0 0,
  .watchdogExpiry .fd 0,
  .prefectFaultRestart .fd 0 .sramUe,
  .prefectRestartComplete .fd 0 [],
  .emulatedRead .fd 0 0 false,
  .emulatedWrite .fd 0 0 0,
  .registerWrite .fd 0 0 4 0,
  .counterReadClear .fd 0 0 4,
  .tokenWrite .fd 0 0,
  .htSnapshotRead .fd 0 4,
  .hallForm okGo,
  .refAccept okGo,
  .refAcceptCancel okGo,
  .subtreeRejoin okGo,
  .ptpExchange okPtp,
  .wallRead okGo,
  .ppsOutPulse 0,
  .bellOutPulse 0 0 okBell,
  .outRealign okGo,
  .outRealignDone 0,
  .tdcEdge 0 0 0 false 0 none,
  .tdcGapQueue 0,
  .tdcGateEnd 0,
  .tdcRdidxWrite 0 0 0,
  .tdcRingSet okGo,
  .tdcCalNow okGo,
  .tdcCalRead okGo,
  .tdcCalStart (.channel 0) 0,
  .tdcCalTableDone (.channel 0) (List.replicate 256 0),
  .tdcCheckTimeout (.channel 0),
  .mainsZcEdge 0 0 0,
  .mainsLineEdge false false 0 0,
  .frameLaunch .fd 0,
  .frameReceive .fd 0 {},
  .signalDetect .fd 0 false,
  .lossOfSignal .fd 0,
  .trainingTimeout .fd 0,
  .rangingTimeout .fd 0,
  .suspectTimeout .fd 0,
  .suspectClear .fd 0,
  .residueExceeded .fd 0,
  .linkBackoffEnd .fd 0,
  .retransmitTimeout .fd 0,
  .carryingRoleMove 0 0 false,
  .linkCal okGo] : List Instr).all (wellFormed) = true := by decide +kernel

theorem test_wellFormed_accepts_1 : ([
  .linkSwap okGo,
  .linkReset okGo,
  .reflectRunStart .fd 0,
  .calSlice .fd 0 0 0,
  .reflectRunEnd .fd 0,
  .spareReady .fd 0 false,
  .swapAtBoundary .fd 0,
  .paySplitChange .fd 0,
  .pkgSlotReceive 8 {},
  .heartbeatReceive 0 [] 0 0,
  .heartbeatMissing 0 [],
  .regionClockMissing 0,
  .strobeFire 0 0 [],
  .strobeCfgWrite 0 0 0 0,
  .strobeEnWrite 0 0 0,
  .oppEvaluate 0 0 0 false,
  .oppSwitch okGo,
  .oppCancel okGo,
  .stationRead okGo,
  .oppSelDrive 0 [],
  .oppGo 0 [],
  .queueCmdAccept 0 0,
  .nop 0 [],
  .arrive 0 [],
  .wait 0 [],
  .arriveWait 0 [],
  .fence 0 [],
  .drainAck 0,
  .payloadArrive 0 [],
  .signalHost 0 [],
  .waitHost 0 [],
  .waitBell 0 [],
  .waitBellRelease 0 [],
  .waitTime 0 [],
  .waitTimeRelease 0 [],
  .stamp 0 [],
  .reservedOpcode 0 [],
  .queueBind 0 0 0,
  .hostArrive 0 0,
  .hostWaitArm 0 0,
  .hostFlagSet 0 0 false 0,
  .hostFlagWithdraw 0 0 false 0,
  .barrierCreate okGo,
  .barrierFree okGo,
  .ctxBind okGo,
  .ctxSwitch okGo,
  .ctxClear okGo,
  .slotRead okGo,
  .ctxQuota okGo,
  .hostWaitCancel okGo,
  .monDump okGo,
  .deadlockDeclare 0,
  .arriveWord 0 0 0 0 0 0 0 false 0,
  .leadDieArrive 0 0 false 0 0 0 0 0 false 0,
  .withdrawWord 0 0 0 0 0 0 0,
  .leadDieWithdraw 0 0 false 0 0 0 0 0,
  .doneWord 0 0 0 0 0 0 0 0,
  .doneAtDie 0 0 false 0 0 0 0 0 0,
  .rootDeadline 0,
  .midAnswerDeadline 0] : List Instr).all (wellFormed) = true := by decide +kernel

theorem test_wellFormed_accepts_2 : ([
  .rootCallWaitEnd 0,
  .hardTimeout 0,
  .bellWordForward 0 0 okBell,
  .bellWordAtDie 0 0 okBell,
  .bellRing okGo,
  .livenessWord 0 0 0 0 0,
  .livenessMiss 0,
  .monitorWord 0 0 0 0 0 false,
  .dnMaxReport 0 0,
  .memberWord .fd 0 0 0 0 0 0,
  .staleWord .fd 0 0 false 0 0 0 0 0,
  .slotInstall 0 (.slotFree 0 0),
  .hbarAllocInstalled 0,
  .hbarAlloc okGo,
  .hbarFree okGo,
  .hbarSet okGo,
  .hbarResolve okGo,
  .hbarRead okGo,
  .jobHallStatus okGo,
  .suspectRead okGo,
  .hbarDump okGo,
  .jobCreate okGo,
  .jobEnd okGo,
  .jobEndEffect 0,
  .descriptorReadDone 0 false false [],
  .fragmentReceive .fd 0 { fkind := 0, job := 0, tag := 0 },
  .bodyCheck .fd 0 0 0 0,
  .repeatRequestTimer .fd 0 0 0 0,
  .repeatRequest .fd 0 0 0,
  .pipeCombineDone 0 false,
  .resultFormed 0,
  .closeWord 0 0 0 0 0 0 0 0,
  .closeAtDie 0 0 0 0 0 0 0 0,
  .resultWriteDone 0 0,
  .pipeRead okGo,
  .payRead okGo,
  .pdBaseWrite 0 false 0,
  .checkerBeat 0 0 false,
  .chkExpectWrite 0 0,
  .chkValueWrite 0 0,
  .sbAlloc okGo,
  .sbFree okGo,
  .sbQuota okGo,
  .sbRead okGo,
  .sbCloseLog okGo,
  .attRecord .fd 0 { kind := 0 },
  .ruleRecordAtDie 0 ⟨0, false, 0, 0, 0, 0, 0, false, 0⟩,
  .attWinSelect 0 0,
  .attDma okGo,
  .attFind okGo,
  .attQuota okGo,
  .attFlush okGo,
  .patrolScrub false 0 0 false,
  .dramUe false 0 0 .none false,
  .channelFail 0 0,
  .stackFail 0 0,
  .ttSubmit okGo,
  .ttStart 0,
  .ttResult okGo,
  .ttCancel okGo] : List Instr).all (wellFormed) = true := by decide +kernel

theorem test_wellFormed_accepts_3 : ([
  .ttRead okGo,
  .ttBodyReceive .fd 0 0 0 0 [],
  .prepareWord .fd 0 0 false 0 0 0 0 0,
  .voteWord .fd 0 0 false 0 false 0 0 0,
  .ttRevoke .fd 0,
  .commitWord .fd 0 0 false 0 0 0,
  .abortWord .fd 0 0 false 0 0 0,
  .voteDeadline 0,
  .ttEffect .fd 0,
  .completionRelease 0,
  .floorWord .fd 0 0 0 false 0,
  .powerSample 0 false,
  .pwrRead okGo,
  .pwrJobSet okGo,
  .pwrRecess okGo,
  .pwrResume okGo,
  .rootState 0 0 0 0 0 0,
  .rootPromote okGo,
  .drillNow okGo false false,
  .drillRead okGo,
  .selftest okGo,
  .selftestRun .fd 0 0 false,
  .pipeUnretire okGo,
  .rcRead okGo,
  .rcClear okGo,
  .faultRead okGo,
  .refPpsEdge .a 0 0 none 0,
  .msixVectorUnmask 0,
  .calStale 0,
  .hubReleaseAtStation 0,
  .dieBellFire 0] : List Instr).all (wellFormed) = true := by decide +kernel

/-! For each check of `wellFormed` a term that only this check refuses. -/

theorem test_wellFormed_refuses_0 : ([
  .powerGood (2 ^ 80),
  .stageAdvance .fd (.tierBTrained 65536 0),
  .supplyWarning .fd 0 65536,
  .guardExit .fd 65536,
  .ladderDescend .fd 5 0,
  .ladderDescend .fd 0 1024,
  .ladderWake .fd 5 0,
  .ladderWake .fd 0 1024,
  .fwStage badGo,
  .fwActivate badGo,
  .fwStatus badGo,
  .prefectRestart badGo,
  .tokenSet badGo,
  .configRead badGo,
  .fwUnstage badGo,
  .unknownCommand badGo 0,
  .unknownCommand okGo 256,
  .emulatedRead .fd 0 65536 false,
  .emulatedWrite .fd 0 65536 0,
  .emulatedWrite .fd 0 0 (2 ^ 32),
  .registerWrite .fd 0 65536 4 0,
  .counterReadClear .fd 0 65536 4,
  .tokenWrite .fd 0 (2 ^ 32),
  .hallForm badGo,
  .refAccept badGo,
  .refAcceptCancel badGo,
  .subtreeRejoin badGo,
  .ptpExchange badPtp,
  .wallRead badGo,
  .ppsOutPulse 10,
  .bellOutPulse 10 0 okBell,
  .bellOutPulse 0 (2 ^ 64) okBell,
  .bellOutPulse 0 0 badBell,
  .outRealign badGo,
  .outRealignDone 10,
  .tdcEdge 32 0 0 false 0 none,
  .tdcEdge 0 6 0 false 0 none,
  .tdcEdge 0 0 0 false 256 none,
  .tdcGapQueue 32,
  .tdcGateEnd 32,
  .tdcRdidxWrite 0 32 0,
  .tdcRdidxWrite 0 0 (2 ^ 32),
  .tdcRingSet badGo,
  .tdcCalNow badGo,
  .tdcCalRead badGo,
  .tdcCalStart (.channel 32) 0,
  .tdcCalTableDone (.channel 32) (List.replicate 256 0),
  .tdcCheckTimeout (.channel 32),
  .mainsZcEdge 6 0 0,
  .mainsZcEdge 0 (2 ^ 80) 0,
  .mainsZcEdge 0 0 64,
  .mainsLineEdge false false (2 ^ 80) 0,
  .frameLaunch .fd 80,
  .frameLaunch .sc 16,
  .frameReceive .fd 80 {},
  .frameReceive .sc 16 {},
  .signalDetect .fd 80 false,
  .signalDetect .sc 16 false,
  .lossOfSignal .fd 80,
  .lossOfSignal .sc 16] : List Instr).all (fun i => !wellFormed i) = true := by decide +kernel

theorem test_wellFormed_refuses_1 : ([
  .trainingTimeout .fd 80,
  .trainingTimeout .sc 16,
  .rangingTimeout .fd 80,
  .rangingTimeout .sc 16,
  .suspectTimeout .fd 80,
  .suspectTimeout .sc 16,
  .suspectClear .fd 80,
  .suspectClear .sc 16,
  .residueExceeded .fd 80,
  .residueExceeded .sc 16,
  .linkBackoffEnd .fd 80,
  .linkBackoffEnd .sc 16,
  .retransmitTimeout .fd 80,
  .retransmitTimeout .sc 16,
  .carryingRoleMove 64 0 false,
  .carryingRoleMove 0 (2 ^ 64) false,
  .linkCal badGo,
  .linkSwap badGo,
  .linkReset badGo,
  .reflectRunStart .fd 80,
  .reflectRunStart .sc 16,
  .calSlice .fd 80 0 0,
  .calSlice .sc 16 0 0,
  .calSlice .fd 0 (2 ^ 80) 0,
  .calSlice .fd 0 0 (2 ^ 80),
  .reflectRunEnd .fd 80,
  .reflectRunEnd .sc 16,
  .spareReady .fd 80 false,
  .spareReady .sc 16 false,
  .swapAtBoundary .fd 80,
  .swapAtBoundary .sc 16,
  .paySplitChange .fd 80,
  .paySplitChange .sc 16,
  .pkgSlotReceive 16 {},
  .heartbeatReceive 256 [] 0 0,
  .heartbeatReceive 0 [] 512 0,
  .heartbeatReceive 0 [] 0 (2 ^ 64),
  .heartbeatMissing 256 [],
  .regionClockMissing 256,
  .strobeFire 256 0 [],
  .strobeFire 0 8 [],
  .strobeCfgWrite 0 8 0 0,
  .strobeCfgWrite 0 0 4 0,
  .strobeCfgWrite 0 0 0 (2 ^ 32),
  .strobeEnWrite 0 256 0,
  .strobeEnWrite 0 0 (2 ^ 32),
  .oppEvaluate 0 0 16 false,
  .oppSwitch badGo,
  .oppCancel badGo,
  .stationRead badGo,
  .oppSelDrive 256 [],
  .oppGo 256 [],
  .queueCmdAccept 128 0,
  .queueCmdAccept 0 (2 ^ 64),
  .nop 128 [],
  .arrive 128 [],
  .wait 128 [],
  .arriveWait 128 [],
  .fence 128 [],
  .drainAck 128] : List Instr).all (fun i => !wellFormed i) = true := by decide +kernel

theorem test_wellFormed_refuses_2 : ([
  .payloadArrive 128 [],
  .signalHost 128 [],
  .waitHost 128 [],
  .waitBell 128 [],
  .waitBellRelease 128 [],
  .waitTime 128 [],
  .waitTimeRelease 128 [],
  .stamp 128 [],
  .reservedOpcode 128 [],
  .queueBind 0 128 0,
  .queueBind 0 0 64,
  .hostArrive 0 65536,
  .hostWaitArm 0 65536,
  .hostFlagSet 0 64 false 0,
  .hostFlagSet 0 0 false (2 ^ 32),
  .hostFlagWithdraw 0 64 false 0,
  .hostFlagWithdraw 0 0 false (2 ^ 32),
  .barrierCreate badGo,
  .barrierFree badGo,
  .ctxBind badGo,
  .ctxSwitch badGo,
  .ctxClear badGo,
  .slotRead badGo,
  .ctxQuota badGo,
  .hostWaitCancel badGo,
  .monDump badGo,
  .deadlockDeclare 64,
  .arriveWord 80 0 0 0 0 0 0 false 0,
  .arriveWord 0 64 0 0 0 0 0 false 0,
  .arriveWord 0 0 (2 ^ 20) 0 0 0 0 false 0,
  .arriveWord 0 0 0 256 0 0 0 false 0,
  .arriveWord 0 0 0 0 65536 0 0 false 0,
  .arriveWord 0 0 0 0 0 (2 ^ 21) 0 false 0,
  .arriveWord 0 0 0 0 0 0 (2 ^ 32) false 0,
  .arriveWord 0 0 0 0 0 0 0 false (2 ^ 12),
  .leadDieArrive 8 0 false 0 0 0 0 0 false 0,
  .leadDieArrive 0 64 false 0 0 0 0 0 false 0,
  .leadDieArrive 0 0 false (2 ^ 20) 0 0 0 0 false 0,
  .leadDieArrive 0 0 false 0 256 0 0 0 false 0,
  .leadDieArrive 0 0 false 0 0 65536 0 0 false 0,
  .leadDieArrive 0 0 false 0 0 0 (2 ^ 21) 0 false 0,
  .leadDieArrive 0 0 false 0 0 0 0 (2 ^ 32) false 0,
  .leadDieArrive 0 0 false 0 0 0 0 0 false (2 ^ 12),
  .withdrawWord 80 0 0 0 0 0 0,
  .withdrawWord 0 64 0 0 0 0 0,
  .withdrawWord 0 0 (2 ^ 20) 0 0 0 0,
  .withdrawWord 0 0 0 256 0 0 0,
  .withdrawWord 0 0 0 0 65536 0 0,
  .withdrawWord 0 0 0 0 0 (2 ^ 21) 0,
  .withdrawWord 0 0 0 0 0 0 (2 ^ 32),
  .leadDieWithdraw 8 0 false 0 0 0 0 0,
  .leadDieWithdraw 0 64 false 0 0 0 0 0,
  .leadDieWithdraw 0 0 false (2 ^ 20) 0 0 0 0,
  .leadDieWithdraw 0 0 false 0 256 0 0 0,
  .leadDieWithdraw 0 0 false 0 0 65536 0 0,
  .leadDieWithdraw 0 0 false 0 0 0 (2 ^ 21) 0,
  .leadDieWithdraw 0 0 false 0 0 0 0 (2 ^ 32),
  .doneWord 80 0 0 0 0 0 0 0,
  .doneWord 0 64 0 0 0 0 0 0,
  .doneWord 0 0 (2 ^ 20) 0 0 0 0 0] : List Instr).all (fun i => !wellFormed i) = true := by decide +kernel

theorem test_wellFormed_refuses_3 : ([
  .doneWord 0 0 0 256 0 0 0 0,
  .doneWord 0 0 0 0 65536 0 0 0,
  .doneWord 0 0 0 0 0 (2 ^ 22) 0 0,
  .doneWord 0 0 0 0 0 0 (2 ^ 32) 0,
  .doneWord 0 0 0 0 0 0 0 256,
  .doneAtDie 16 0 false 0 0 0 0 0 0,
  .doneAtDie 0 64 false 0 0 0 0 0 0,
  .doneAtDie 0 0 false (2 ^ 20) 0 0 0 0 0,
  .doneAtDie 0 0 false 0 256 0 0 0 0,
  .doneAtDie 0 0 false 0 0 65536 0 0 0,
  .doneAtDie 0 0 false 0 0 0 (2 ^ 22) 0 0,
  .doneAtDie 0 0 false 0 0 0 0 (2 ^ 32) 0,
  .doneAtDie 0 0 false 0 0 0 0 0 256,
  .rootDeadline (2 ^ 20),
  .midAnswerDeadline (2 ^ 20),
  .rootCallWaitEnd (2 ^ 20),
  .hardTimeout (2 ^ 20),
  .bellWordForward 80 0 okBell,
  .bellWordForward 0 (2 ^ 54) okBell,
  .bellWordForward 0 0 badBell,
  .bellWordAtDie 16 0 okBell,
  .bellWordAtDie 0 (2 ^ 54) okBell,
  .bellWordAtDie 0 0 badBell,
  .bellRing badGo,
  .livenessWord 80 0 0 0 0,
  .livenessWord 0 (2 ^ 21) 0 0 0,
  .livenessWord 0 0 256 0 0,
  .livenessWord 0 0 0 65536 0,
  .livenessWord 0 0 0 0 (2 ^ 32),
  .livenessMiss 64,
  .monitorWord 80 0 0 0 0 false,
  .monitorWord 0 64 0 0 0 false,
  .monitorWord 0 0 64 0 0 false,
  .monitorWord 0 0 0 (2 ^ 21) 0 false,
  .monitorWord 0 0 0 0 (2 ^ 32) false,
  .dnMaxReport (64 + 1) 0,
  .dnMaxReport 0 (2 ^ 32),
  .memberWord .fd 80 0 0 0 0 0,
  .memberWord .sc 16 0 0 0 0 0,
  .memberWord .fd 0 64 0 0 0 0,
  .memberWord .fd 0 0 (2 ^ 32) 0 0 0,
  .memberWord .fd 0 0 0 (2 ^ 21) 0 0,
  .memberWord .fd 0 0 0 0 4 0,
  .memberWord .fd 0 0 0 0 0 256,
  .staleWord .fd 80 0 false 0 0 0 0 0,
  .staleWord .sc 16 0 false 0 0 0 0 0,
  .staleWord .fd 0 64 false 0 0 0 0 0,
  .staleWord .fd 0 0 false (2 ^ 21) 0 0 0 0,
  .staleWord .fd 0 0 false 0 (2 ^ 20) 0 0 0,
  .staleWord .fd 0 0 false 0 0 256 0 0,
  .staleWord .fd 0 0 false 0 0 0 65536 0,
  .staleWord .fd 0 0 false 0 0 0 0 256,
  .slotInstall 80 (.slotFree 0 0),
  .hbarAllocInstalled (2 ^ 20),
  .hbarAlloc badGo,
  .hbarFree badGo,
  .hbarSet badGo,
  .hbarResolve badGo,
  .hbarRead badGo,
  .jobHallStatus badGo] : List Instr).all (fun i => !wellFormed i) = true := by decide +kernel

theorem test_wellFormed_refuses_4 : ([
  .suspectRead badGo,
  .hbarDump badGo,
  .jobCreate badGo,
  .jobEnd badGo,
  .jobEndEffect 64,
  .descriptorReadDone 4096 false false [],
  .fragmentReceive .fd 80 { fkind := 0, job := 0, tag := 0 },
  .fragmentReceive .sc 16 { fkind := 0, job := 0, tag := 0 },
  .bodyCheck .fd 80 0 0 0,
  .bodyCheck .sc 16 0 0 0,
  .bodyCheck .fd 0 4 0 0,
  .bodyCheck .fd 0 0 64 0,
  .repeatRequestTimer .fd 80 0 0 0,
  .repeatRequestTimer .sc 16 0 0 0,
  .repeatRequestTimer .fd 0 4 0 0,
  .repeatRequestTimer .fd 0 0 64 0,
  .repeatRequest .fd 80 0 0,
  .repeatRequest .sc 16 0 0,
  .repeatRequest .fd 0 64 0,
  .pipeCombineDone 68 false,
  .resultFormed (2 ^ 20),
  .closeWord 80 0 0 0 0 0 0 0,
  .closeWord 0 64 0 0 0 0 0 0,
  .closeWord 0 0 (2 ^ 24) 0 0 0 0 0,
  .closeWord 0 0 0 (2 ^ 32) 0 0 0 0,
  .closeWord 0 0 0 0 65536 0 0 0,
  .closeWord 0 0 0 0 0 (2 ^ 22) 0 0,
  .closeWord 0 0 0 0 0 0 (2 ^ 32) 0,
  .closeWord 0 0 0 0 0 0 0 256,
  .closeAtDie 16 0 0 0 0 0 0 0,
  .closeAtDie 0 64 0 0 0 0 0 0,
  .closeAtDie 0 0 (2 ^ 24) 0 0 0 0 0,
  .closeAtDie 0 0 0 (2 ^ 32) 0 0 0 0,
  .closeAtDie 0 0 0 0 65536 0 0 0,
  .closeAtDie 0 0 0 0 0 (2 ^ 22) 0 0,
  .closeAtDie 0 0 0 0 0 0 (2 ^ 32) 0,
  .closeAtDie 0 0 0 0 0 0 0 256,
  .resultWriteDone 64 0,
  .resultWriteDone 0 (2 ^ 32),
  .pipeRead badGo,
  .payRead badGo,
  .pdBaseWrite 0 false (2 ^ 32),
  .checkerBeat (2 ^ 256) 0 false,
  .checkerBeat 0 (2 ^ 32) false,
  .chkExpectWrite 0 (2 ^ 32),
  .chkValueWrite 0 (2 ^ 32),
  .sbAlloc badGo,
  .sbFree badGo,
  .sbQuota badGo,
  .sbRead badGo,
  .sbCloseLog badGo,
  .attRecord .fd 80 { kind := 0 },
  .attRecord .sc 16 { kind := 0 },
  .ruleRecordAtDie 16 ⟨0, false, 0, 0, 0, 0, 0, false, 0⟩,
  .attWinSelect 0 (2 ^ 32),
  .attDma badGo,
  .attFind badGo,
  .attQuota badGo,
  .attFlush badGo,
  .patrolScrub false 16 0 false] : List Instr).all (fun i => !wellFormed i) = true := by decide +kernel

theorem test_wellFormed_refuses_5 : ([
  .dramUe false 16 0 .none false,
  .channelFail 16 0,
  .channelFail 0 3,
  .stackFail 4 0,
  .stackFail 0 3,
  .ttSubmit badGo,
  .ttStart (2 ^ 32),
  .ttResult badGo,
  .ttCancel badGo,
  .ttRead badGo,
  .ttBodyReceive .fd 80 0 0 0 [],
  .ttBodyReceive .sc 16 0 0 0 [],
  .ttBodyReceive .fd 0 (2 ^ 32) 0 0 [],
  .ttBodyReceive .fd 0 0 64 0 [],
  .ttBodyReceive .fd 0 0 0 2 [],
  .prepareWord .fd 80 0 false 0 0 0 0 0,
  .prepareWord .sc 16 0 false 0 0 0 0 0,
  .prepareWord .fd 0 64 false 0 0 0 0 0,
  .prepareWord .fd 0 0 false (2 ^ 32) 0 0 0 0,
  .prepareWord .fd 0 0 false 0 2 0 0 0,
  .prepareWord .fd 0 0 false 0 0 (2 ^ 54) 0 0,
  .prepareWord .fd 0 0 false 0 0 0 65536 0,
  .prepareWord .fd 0 0 false 0 0 0 0 (2 ^ 64),
  .voteWord .fd 80 0 false 0 false 0 0 0,
  .voteWord .sc 16 0 false 0 false 0 0 0,
  .voteWord .fd 0 64 false 0 false 0 0 0,
  .voteWord .fd 0 0 false (2 ^ 32) false 0 0 0,
  .voteWord .fd 0 0 false 0 false 256 0 0,
  .voteWord .fd 0 0 false 0 false 0 (2 ^ 21) 0,
  .voteWord .fd 0 0 false 0 false 0 0 (2 ^ 32),
  .ttRevoke .fd (2 ^ 32),
  .commitWord .fd 80 0 false 0 0 0,
  .commitWord .sc 16 0 false 0 0 0,
  .commitWord .fd 0 64 false 0 0 0,
  .commitWord .fd 0 0 false (2 ^ 32) 0 0,
  .commitWord .fd 0 0 false 0 2 0,
  .commitWord .fd 0 0 false 0 0 (2 ^ 54),
  .abortWord .fd 80 0 false 0 0 0,
  .abortWord .sc 16 0 false 0 0 0,
  .abortWord .fd 0 64 false 0 0 0,
  .abortWord .fd 0 0 false (2 ^ 32) 0 0,
  .abortWord .fd 0 0 false 0 256 0,
  .abortWord .fd 0 0 false 0 0 (2 ^ 21),
  .voteDeadline (2 ^ 32),
  .ttEffect .fd (2 ^ 32),
  .completionRelease (2 ^ 20),
  .floorWord .fd 80 0 0 false 0,
  .floorWord .sc 16 0 0 false 0,
  .floorWord .fd 0 64 0 false 0,
  .floorWord .fd 0 0 256 false 0,
  .floorWord .fd 0 0 0 false (2 ^ 54),
  .powerSample (2 ^ 32) false,
  .pwrRead badGo,
  .pwrJobSet badGo,
  .pwrRecess badGo,
  .pwrResume badGo,
  .rootState 64 0 0 0 0 0,
  .rootState 0 8 0 0 0 0,
  .rootState 0 0 8 0 0 0,
  .rootState 0 0 0 (2 ^ 32) 0 0] : List Instr).all (fun i => !wellFormed i) = true := by decide +kernel

theorem test_wellFormed_refuses_6 : ([
  .rootState 0 0 0 0 (2 ^ 32) 0,
  .rootState 0 0 0 0 0 256,
  .rootPromote badGo,
  .drillNow badGo false false,
  .drillRead badGo,
  .selftest badGo,
  .selftestRun .fd 3 0 false,
  .pipeUnretire badGo,
  .rcRead badGo,
  .rcClear badGo,
  .faultRead badGo,
  .refPpsEdge .a 0 256 none 0,
  .msixVectorUnmask 8,
  .calStale 32,
  .hubReleaseAtStation 128,
  .dieBellFire 64,
  .supplyWarning .fd 512 0,
  .supplyWarning .sc 16 0,
  .activationComplete .fd [256],
  .componentFault .fd 7 0,
  .componentFault .sc 3 0,
  .watchdogExpiry .fd 7,
  .watchdogExpiry .sc 3,
  .prefectFaultRestart .fd 7 .sramUe,
  .prefectFaultRestart .sc 3 .sramUe,
  .prefectRestartComplete .fd 7 [],
  .prefectRestartComplete .sc 3 [],
  .prefectRestartComplete .fd 0 [256],
  .emulatedRead .fd 0 2 false,
  .emulatedWrite .fd 0 2 0,
  .registerWrite .fd 0 0 3 0,
  .registerWrite .fd 0 2 4 0,
  .registerWrite .fd 0 0 1 256,
  .registerWrite .fd 0 0 4 (2 ^ 32),
  .counterReadClear .fd 0 2 4,
  .counterReadClear .fd 0 0 3,
  .htSnapshotRead .fd 0 2,
  .tdcEdge 0 0 (2 ^ 80) false 0 none,
  .refPpsEdge .a (2 ^ 80) 0 none 0,
  .registerWrite .fd 0 8 16 (2 ^ 64),
  .ptpExchange { okPtp with transport := 3 },
  .ptpExchange { okPtp with tai := 2 ^ 64 },
  .tdcCalTableDone (.channel 0) (List.replicate 255 0),
  .frameReceive .fd 0 { levels := 2 ^ 229376 },
  .frameReceive .fd 0 { coarse := 2 ^ 80 },
  .frameReceive .fd 0 { bin := 256 },
  .pkgSlotReceive 7 {},
  .pkgSlotReceive 8 { index := 256 },
  .pkgSlotReceive 8 { word := 2 ^ 264 },
  .pkgSlotReceive 8 { coarse := 2 ^ 80 },
  .pkgSlotReceive 8 { bin := 256 },
  .tdcCalStart (.lane .sc 16) 0,
  .fragmentReceive .fd 0 { fkind := 4, job := 0, tag := 0 },
  .fragmentReceive .fd 0 { fkind := 0, job := 64, tag := 0 },
  .attRecord .fd 0 { kind := 0, job := 64 },
  .attRecord .fd 0 { kind := 0, conts := List.replicate 8 0 },
  .ruleRecordAtDie 0 ⟨32, false, 0, 0, 0, 0, 0, false, 0⟩,
  .ruleRecordAtDie 0 ⟨0, false, 3, 0, 0, 0, 0, false, 0⟩,
  .ruleRecordAtDie 0 ⟨0, false, 0, 0, 0, 0, 64, false, 0⟩,
  .ruleRecordAtDie 0 ⟨0, false, 0, 0, 0, 0, 0, false, 65536⟩] : List Instr).all (fun i => !wellFormed i) = true := by decide +kernel

theorem test_wellFormed_refuses_7 : ([
  .ptpExchange { okPtp with master := { okMaster with clockClass := 256 } },
  .ptpExchange { okPtp with master := { okMaster with identity := 2 ^ 64 } },
  .fwStage { okGo with tag := 256 },
  .fwStage { okGo with args := List.replicate 257 0 },
  .bellWordForward 0 0 { okBell with job := 64 },
  .bellWordForward 0 0 { okBell with kind := 16 },
  .bellWordForward 0 0 { okBell with floor := 256 },
  .bellWordForward 0 0 { okBell with closeHwm := 2 ^ 32 },
  .bellWordForward 0 0 { okBell with stepEpoch := 65536 }] : List Instr).all (fun i => !wellFormed i) = true := by decide +kernel

theorem test_wellFormed_refuses_long_body : wellFormed (.ttBodyReceive .fd 0 0 0 0 (List.replicate 65537 0)) = false := by
  simp only [wellFormed, List.length_replicate]; decide

/-! Single commands and operations, the expected values worked out by hand from the rules. -/

/-- The outcome's next state, for tests. -/
def after (i : Instr) (s : State) : State := match exec i s with
  | .next t => t
  | .fault _ => s
  | .refused _ => s

/-- An empty queue lets 4 ns pass (log entry 7). -/
theorem test_idle_step : (match step State.reset with | .next t => t.now | _ => 0) = 4 := by decide +kernel
/-- The table gives its rows no bits. -/
theorem test_no_bits : decodeTableWord 32 0 = none := by decide +kernel
/-- R49: 3 is later than 250 in 8 bits; a difference of exactly half the range counts as earlier, both ways. -/
theorem test_serial : laterThan 8 3 250 = true ∧ laterThan 8 250 3 = false ∧ earlierThan 16 0 32768 = true ∧ earlierThan 16 32768 0 = true ∧ sdiff16 0 32768 = -32768 := by
  decide +kernel
/-- R38: the HT integer in 8 bytes, the fraction in 2, the status in 2, four zero bytes, little-endian. -/
theorem test_ht80_bytes : ht80Bytes (0x0123456789ABCDEF8001) 0x0203 = [0xEF, 0xCD, 0xAB, 0x89, 0x67, 0x45, 0x23, 0x01, 0x01, 0x80, 0x03, 0x02, 0, 0, 0, 0] := by decide +kernel
/-- R10: ALERT_EN's five bits take the value; the reserved bits above set RSVD_WRITE. -/
theorem test_reserved_write : (after (.registerWrite .fd 0 0x14 4 0xFFFFFFFF) up).get .fd Rg.ALERT_EN_EN = 31
    ∧ (after (.registerWrite .fd 0 0x14 4 0xFFFFFFFF) up).get .fd Rg.ALERT_RSVD_WRITE = 1 := by decide +kernel
/-- R10: with the reserved bits zero, no alert. -/
theorem test_clean_write : (after (.registerWrite .fd 0 0x14 4 5) up).get .fd Rg.ALERT_EN_EN = 5
    ∧ (after (.registerWrite .fd 0 0x14 4 5) up).get .fd Rg.ALERT_RSVD_WRITE = 0 := by decide +kernel
/-- R9: a write of one clears a W1C bit and no other. -/
theorem test_w1c : (after (.registerWrite .fd 0 0x10 4 4) (poke .fd [(Rg.ALERT_FAULT, 1), (Rg.ALERT_CABLING, 1)] up)).get .fd Rg.ALERT_FAULT = 0
    ∧ (after (.registerWrite .fd 0 0x10 4 4) (poke .fd [(Rg.ALERT_FAULT, 1), (Rg.ALERT_CABLING, 1)] up)).get .fd Rg.ALERT_CABLING = 1 := by decide +kernel
/-- R422: FD_ID of a VXD-2880. -/
theorem test_fd_id : State.reset.readWord .fd 0 0 = (0xB0804858, State.reset) := by decide +kernel
/-- R396: a read of GUARD_CNT clears it. -/
theorem test_read_clears : ((after (.counterReadClear .fd 7 0xB014 4) (poke .fd [(Rg.SUP_GUARD_CNT, 9)] up)).fd.slate.reply.value,
    (after (.counterReadClear .fd 7 0xB014 4) (poke .fd [(Rg.SUP_GUARD_CNT, 9)] up)).get .fd Rg.SUP_GUARD_CNT) = (9, 0) := by decide +kernel
/-- R54: the latch of HT_NS_LO's read holds the high word for HT_NS_HI. -/
theorem test_snapshot : (SMap.find 7 (after (.htSnapshotRead .fd 7 4) (clk .fd (5 * 2 ^ 48 + 65536) up)).fd.slate.snaps).map (·.ht) = some (5 * 2 ^ 48 + 65536) := by decide +kernel
/-- R179, R180: NOP at the head is released with OK; the unfenced flag is clear. -/
theorem test_nop : ((after (.nop 0 []) (withQ [ent 0])).queue 0).rels = [(0, 0, 0)] := by decide +kernel
/-- R184: an ARRIVE on a fenced queue clears FENCED. -/
theorem test_arrive_unfences : ((after (.arrive 0 []) (withStn { valid := true } (withQ [ent 1] (withHub {})))).queue 0).fenced = false := by decide +kernel
/-- R217, R218: the arrival of port 2 sets its bit; port 3 is still missing. -/
theorem test_hall_arrive : ((after (.arriveWord 2 0 0 0 0 65536 0 false 0) (clk .fd (2 ^ 40) (withHSlot { state := .counting } (withJob { mcount := [(2, 1), (3, 1)] } root)))).slot 0).arr = 4 := by decide +kernel
/-- R431: a code that the tables do not define is answered with BAD_ARG (3). -/
theorem test_unknown_command : (after (.unknownCommand (go .fd []) 0xFF) up).get .fd (Rg.MB_STATUS 0) = 3 ∧ (after (.unknownCommand (go .fd []) 0xFF) up).get .fd (Rg.MB_DONE 0) = 1 := by decide +kernel
/-- R359: a load command with no configuration starts the load. -/
theorem test_load_config : (after (.loadConfig .fd 0) up).get .fd Rg.LOAD_STATE = 1 := by decide +kernel
/-- R377: power good starts the distributor; the reset of the part ends it. -/
theorem test_power_and_reset : (after (.powerGood 0) State.reset).fd.start.on = true ∧ (after (.resetNAssert false) (after (.powerGood 0) State.reset)).fd.start.on = false := by decide +kernel
/-- R361: an emulated write reaches its register once its owner runs. -/
theorem test_emulated_write : (after (.emulatedWrite .fd 0 0x404 12345) up).get .fd Rg.REF_JUMP_NS = 12345 := by decide +kernel

/-- R115: the receiver finds in a frame's levels the pattern, a header whose CRC passes and codewords without error. -/
theorem test_frame_levels : (let r := ({ levels := ({ beat := 5 } : Frame).levels false } : RxFrame).parts false false; (r.pattern, r.headerOk, r.uncorrected, r.corrected)) = (true, true, 0, 0) := by decide +kernel
/-- R151: a heartbeat's bits pass its CRC; one flipped bit fails it. -/
theorem test_heartbeat_crc : hbPasses ({ joined := true } : HbWord).toBits = true ∧ hbPasses (Nat.xor ({ joined := true } : HbWord).toBits 2) = false := by decide +kernel

/-! Witnesses: for every statement with hypotheses, states and operands that meet them, clause by clause, at a boundary of their ranges. -/

/-- States that meet the hypotheses of `Obligations.PowerStagesAndResets`, clause by clause. -/
theorem witness_PowerStagesAndResets :
    (∃ (modules : Nat) (s : State), s.fd.start.on = false)
    ∧ (∃ (s : State), s.sc.start.on = false)
    ∧ (∃ (channels gib : Nat) (s : State), s.fd.start.on = true ∧ s.dist.variant ≠ .vxd2840 ∧ s.fd.start.tierA = true ∧ s.fd.start.tierB = false ∧ s.inGuard .fd = false)
    ∧ (∃ (s : State), s.fd.start.on = true ∧ s.fd.start.tierA = false ∧ s.dist.spare.stackFailed = false ∧ s.inGuard .fd = false ∧ s.fd.fw.waiting = none) :=
  ⟨⟨0, State.reset, by decide +kernel⟩,
   ⟨State.reset, by decide +kernel⟩,
   ⟨0, 64, up, by decide +kernel⟩,
   ⟨onUnit .fd (fun u => { u with start := { on := true } }) up, by decide +kernel⟩⟩

/-- States that meet the hypotheses of `Obligations.LoadsAndFirmwareCommands`, clause by clause. -/
theorem witness_LoadsAndFirmwareCommands :
    (∃ (p : Part) (req : Nat) (s : State), (s.unit p).start.on = true ∧ (s.unit p).fw.run = none ∧ (s.unit p).fw.config = none ∧ s.mayWrite p req 0xA00C 3 = true)
    ∧ (∃ (p : Part) (req : Nat) (s : State), (s.unit p).start.on = true ∧ (s.unit p).fw.run = none ∧ (s.unit p).fw.config.isSome ∧ (s.unit p).fw.running = none ∧ (s.unit p).fw.waiting = none ∧ s.mayWrite p req 0xA00C 1 = true)
    ∧ (∃ (p : Part) (r : LoadRun) (s : State), (s.unit p).fw.run = some r)
    ∧ (∃ (p : Part) (r : LoadRun) (s : State), (s.unit p).fw.run = some r ∧ r.kind = 1)
    ∧ (∃ (m : MbGo) (s : State), MbReady m 0 none 12 s ∧ m.argAt [8, 4] 0 % 4096 = 0 ∧ (s.unit m.part).fw.stagedCommitted = false)
    ∧ (∃ (m : MbGo) (s : State), MbReady m 0 none 0 s ∧ (s.unit m.part).fw.stagedCommitted = false)
    ∧ (∃ (m : MbGo) (i : Img) (s : State), MbReady m 0 none 8 s ∧ (s.unit m.part).fw.staged = some i ∧ i.imageDigest = m.argAt [8] 0 ∧ (s.unit m.part).emerg.conds = 0 ∧ (s.unit m.part).emerg.endNow = none ∧ (m.part = .fd → ∀ j < 64, s.get .fd (Rg.JH_MEMBERS j) = 0) ∧ (m.part = .sc → ∀ c < 64, s.get .sc (Rg.CTX_JOB_VALID c) = 0) ∧ s.inGuard m.part = false ∧ (s.unit m.part).fw.accepts i = true)
    ∧ (∃ (m : MbGo) (s : State), MbReady m 0 none 0 s)
    ∧ (∃ (m : MbGo) (s : State), MbReady m 0 none 8 s ∧ m.argAt [1, 4] 0 ≤ 63 ∧ m.argAt [1, 4] 1 ≠ 0)
    ∧ (∃ (m : MbGo) (s : State), MbReady m 0 none 0 s)
    ∧ (∃ (m : MbGo) (code : Nat) (s : State), MbReady m 0 none 0 s ∧ knownCode m.part code = false) :=
  ⟨⟨.fd, 0, up, by decide +kernel⟩,
   ⟨.fd, 0, onFw .fd (fun f => { f with config := some {} }) up, by decide +kernel⟩,
   ⟨.fd, ⟨1, 0, 0⟩, onFw .fd (fun f => { f with run := some ⟨1, 0, 0⟩ }) up, by decide +kernel⟩,
   ⟨.sc, ⟨1, 0, 0⟩, onFw .sc (fun f => { f with run := some ⟨1, 0, 0⟩ }) up, by decide +kernel⟩,
   ⟨go .fd (List.replicate 12 0), up, ready_of (by decide +kernel), by decide +kernel⟩,
   ⟨go .sc [], up, ready_of (by decide +kernel), by decide +kernel⟩,
   ⟨go .fd (List.replicate 8 0), {}, onFw .fd (fun f => { f with staged := some {} }) up, ready_of (by decide +kernel), by decide +kernel⟩,
   ⟨go .fd [], up, ready_of (by decide +kernel)⟩,
   ⟨go .fd [63, 0, 0, 0, 5, 0, 0, 0], up, ready_of (by decide +kernel), by decide +kernel⟩,
   ⟨go .sc [], up, ready_of (by decide +kernel)⟩,
   ⟨go .fd [], 0xFF, up, ready_of (by decide +kernel), by decide +kernel⟩⟩

/-- States that meet the hypotheses of `Obligations.PrefectsRestartAndReport`, clause by clause. -/
theorem witness_PrefectsRestartAndReport :
    (∃ (p : Part) (i : Nat) (s : State), s.canFault p i = true ∧ (s.countedRestarts p i).length < 2)
    ∧ (∃ (p : Part) (i : Nat) (cause : RestartCause) (s : State), s.canFault p i = true ∧ (s.countedRestarts p i).length < 2)
    ∧ (∃ (p : Part) (i comp : Nat) (s : State), s.canFault p i = true ∧ (SMap.get [] comp (s.pref p i).compFaults) = [])
    ∧ (∃ (m : MbGo) (s : State), MbReady m 0 none 1 s ∧ m.argAt [1] 0 < prefectCount m.part ∧ m.argAt [1] 0 ≠ 0 ∧ s.get m.part (Rg.PREF_STATE (m.argAt [1] 0)) = 2 ∧ s.prefRole m.part (m.argAt [1] 0) ≠ 0)
    ∧ (∃ (p : Part) (i : Nat) (s : State), i < prefectCount p ∧ s.get p (Rg.PREF_STATE i) = 3 ∧ s.activating p = false ∧ (s.unit p).slate.held = [] ∧ (∀ b, b < 8 → (s.mail p b).wait = none))
    ∧ (∃ (p : Part) (i : Img) (s : State), s.activating p = true ∧ (s.unit p).fw.staged = some i ∧ (p = .sc → (imageHash (s.dieMem.readN i.addr (i.len + 96))).toNat = i.digest) ∧ (s.unit p).slate.held = [] ∧ (∀ b, b < 8 → (s.mail p b).wait = none))
    ∧ (∃ (p : Part) (i : Img) (s : State), (s.unit p).fw.deferred = some i.imageDigest ∧ (s.unit p).fw.staged = some i ∧ (s.unit p).emerg.conds = 0 ∧ (s.unit p).emerg.endNow = none ∧ s.restarting p = false ∧ s.activating p = false ∧ (s.unit p).fw.accepts i = true)
    ∧ (∃ (p : Part) (i comp : Nat) (l : List Nat) (s : State), s.canFault p i = true ∧ ((SMap.get [] comp (s.pref p i).compFaults).filter fun t => decide (s.now < t + 600000000000)) = l)
    ∧ (∃ (p : Part) (i : Nat) (bad : List Nat) (s u : State), i < prefectCount p ∧ s.get p (Rg.PREF_STATE i) = 3 ∧ (s.put p (Rg.PREF_STATE i) (if s.activating p then 6 else 2)).coldStarts p i (bad.filter (· == sectionOf p (s.prefRole p i))) = u)
    ∧ (∃ (p : Part) (bad : List Nat) (i : Img) (s u v : State), s.activating p = true ∧ (s.unit p).fw.staged = some i ∧ (p = .sc → (imageHash (s.dieMem.readN i.addr (i.len + 96))).toNat = i.digest) ∧ (((s.prefectsRun p).setFw p { (s.unit p).fw with activating := none, staged := none }).setFw p (({ (s.unit p).fw with activating := none, staged := none, running := some i } : FwSt).keepRecord p i) = u) ∧ (bad.foldl (fun (t : State) k => if (sectionIds p).contains k then t.coldStart p ((t.prefectOf p (k - sectionOf p 0)).getD 0) k else t) ((u.put p Rg.LOAD_FW_VERSION i.version).restage p) = v)) :=
  ⟨⟨.fd, 6, up, by decide +kernel⟩,
   ⟨.sc, 0, .sramUe, up, by decide +kernel⟩,
   ⟨.fd, 1, 0, up, by decide +kernel⟩,
   ⟨go .fd [5], up, ready_of (by decide +kernel), by decide +kernel⟩,
   ⟨.fd, 1, poke .fd [(Rg.PREF_STATE 1, 3)] up, by decide +kernel⟩,
   ⟨.fd, {}, onFw .fd (fun f => { f with activating := some 0, staged := some {} }) up, by decide +kernel⟩,
   ⟨.sc, {}, onFw .sc (fun f => { f with deferred := some 0, staged := some {} }) up, by decide +kernel⟩,
   ⟨.fd, 6, 0, [], up, by decide +kernel⟩,
   ⟨.fd, 1, [], poke .fd [(Rg.PREF_STATE 1, 3)] up, _, by decide +kernel, by decide +kernel, rfl⟩,
   ⟨.fd, [255], {}, onFw .fd (fun f => { f with activating := some 0, staged := some {} }) up, _, _, by decide +kernel, by decide +kernel, by decide +kernel, rfl, rfl⟩⟩

/-- States that meet the hypotheses of `Obligations.GuardLadderAndConfiguration`, clause by clause. -/
theorem witness_GuardLadderAndConfiguration :
    (∃ (p : Part) (mon vinMv : Nat) (s : State), (s.unit p).start.on = true ∧ mon ≠ 0 ∧ s.inGuard p = false)
    ∧ (∃ (p : Part) (vinMv : Nat) (s : State), s.inGuard p = true ∧ (∀ b, b < 8 → (s.mail p b).wait = none))
    ∧ (∃ (p : Part) (u unit : Nat) (s : State), (s.unit p).start.on = true ∧ u < 5 ∧ (s.rung p u unit).1 < min (s.get p (Rg.PL_PL_MAX u)) (s.ladderLimit p u unit) ∧ (p = .sc → s.anyWaiting = false) ∧ s.ladderIdle p u unit = true)
    ∧ (∃ (p : Part) (u unit : Nat) (s : State), u < 5 ∧ (s.rung p u unit).1 ≠ 0)
    ∧ (∃ (p : Part) (c : Img) (b : Nat) (s : State), (s.unit p).fw.config = some c ∧ (s.unit p).fw.configBeat = some b ∧ c.fields = [] ∧ s.get p Rg.START_START_DEFAULTS = 0)
    ∧ (∃ (c : Img) (b v : Nat) (s : State), s.fd.fw.config = some c ∧ s.fd.fw.configBeat = some b ∧ c.fields = [((Rg.DRL_DRILL_EN).key, v)] ∧ s.get .fd Rg.START_START_DEFAULTS = 0 ∧ v < 2)
    ∧ (∃ (p : Part) (mon vinMv : Nat) (s : State), (s.unit p).start.on = true)
    ∧ (∃ (p : Part) (vinMv : Nat) (s : State), s.inGuard p = true)
    ∧ (∃ (p : Part) (c : Img) (b : Nat) (s u v : State), (s.unit p).fw.config = some c ∧ (s.unit p).fw.configBeat = some b ∧ s.awaitBeat p b = v ∧ ((((c.fields.foldl (fun (t : State) e => t.takeField p e.1 e.2) (v.setFw p { (v.unit p).fw with configBeat := none })).put p Rg.START_START_DEFAULTS 0).put p Rg.LOAD_CONFIG_LOADED 1).put p Rg.LOAD_CONFIG_VERSION c.version = u))
    ∧ (∃ (p : Part) (u unit : Nat) (s : State), (s.rung p u unit).1 = 0) :=
  ⟨⟨.fd, 256, 11000, up, by decide +kernel⟩,
   ⟨.sc, 12000, poke .sc [(Rg.SUP_GUARD, 1)] up, by decide +kernel⟩,
   ⟨.fd, 0, 67, up, by decide +kernel⟩,
   ⟨.fd, 4, 6, onUnit .fd (fun u => { u with start := { u.start with rungs := [(ladderKey 4 6, (2, 0))] } }) up, by decide +kernel⟩,
   ⟨.fd, {}, 0, poke .fd [(Rg.START_START_DEFAULTS, 0)] (onFw .fd (fun f => { f with config := some {}, configBeat := some 0 }) up), by decide +kernel⟩,
   ⟨{ fields := [((Rg.DRL_DRILL_EN).key, 1)] }, 0, 1, poke .fd [(Rg.START_START_DEFAULTS, 0)] (onFw .fd (fun f => { f with config := some { fields := [((Rg.DRL_DRILL_EN).key, 1)] }, configBeat := some 0 }) up), by decide +kernel⟩,
   ⟨.fd, 511, 11000, up, by decide +kernel⟩,
   ⟨.sc, 12000, poke .sc [(Rg.SUP_GUARD, 1)] up, by decide +kernel⟩,
   ⟨.fd, {}, 0, onFw .fd (fun f => { f with config := some {}, configBeat := some 0 }) up, _, _, by decide +kernel, by decide +kernel, rfl, rfl⟩,
   ⟨.fd, 4, 1023, up, by decide +kernel⟩⟩

/-- States that meet the hypotheses of `Obligations.RegisterAccess`, clause by clause. -/
theorem witness_RegisterAccess :
    (∃ (p : Part) (req v : Nat) (s : State), s.mayWrite p req 0x14 (v % 2 ^ 32) = true)
    ∧ (∃ (p : Part) (req off v : Nat) (s : State), ¬ (0x8000 ≤ off ∧ off < 0x8800) ∧ s.mayWrite p req off (v % 2 ^ 32) = false)
    ∧ (∃ (p : Part) (req off size v : Nat) (s : State), 0x8000 ≤ off ∧ off < 0x8800 ∧ s.mayWrite p req off 0 = true ∧ s.get p (Rg.MB_OWNED ((off - 0x8000) / 256)) = 0)
    ∧ (∃ (p : Part) (req off size v : Nat) (s : State), ¬ (0x8000 ≤ off ∧ off < 0x8800) ∧ size < 4)
    ∧ (∃ (req v : Nat) (s : State), s.mayWrite .fd req 0x404 (v % 2 ^ 32) = true ∧ EmuOpen .fd 0x404 s ∧ 10 ≤ v ∧ v ≤ 1000000000)
    ∧ (∃ (p : Part) (req off : Nat) (s : State), EmuOpen p off s)
    ∧ (∃ (p : Part) (req off : Nat) (late : Bool) (s : State), (p = .fd → 2 ≤ s.get .fd Rg.START_STAGE) ∧ (p = .sc → s.get .sc Rg.START_FW_UP = 1) ∧ s.ownerDown p off = true)
    ∧ (∃ (p : Part) (a : EmuAcc) (s : State), (s.unit p).slate.emuQ = [a])
    ∧ (∃ (p : Part) (s : State), (s.unit p).start.on = true ∧ s.htNs p = 2 ^ 64 - 1)
    ∧ (∃ (v : Nat) (s : State), v < 8 ∧ bit s.msix.masked v = true ∧ bit s.msix.pending v = true ∧ s.vectorCond v = true)
    ∧ (∃ (req q ctx : Nat) (s : State), q < s.die.queues ∧ q < 128 ∧ s.mayWrite .sc req (0x4000 + 16 * q) (ctx % 64 + 64) = true ∧ s.get .sc (Rg.Q_BOUND q) = 0)
    ∧ (∃ (p : Part) (req off n : Nat) (fs : List Field) (s : State), off % 4 = 0 ∧ off ≠ 0x100 ∧ s.regAt p off = some (n, fs) ∧ emulated fs = false)
    ∧ (∃ (p : Part) (a : EmuAcc) (l : List EmuAcc) (s : State), ((s.unit p).slate.emuQ = a :: l)) :=
  ⟨⟨.fd, 0, 31, up, by decide +kernel⟩,
   ⟨.fd, 0, 0x14, 1, poke .fd [(Rg.LOAD_CONFIG_LOADED, 1)] (onFw .fd (fun f => { f with config := some { fields := [(imgTokenEn, 1)] } }) up), by decide +kernel⟩,
   ⟨.sc, 0, 0x8700, 4, 0, up, by decide +kernel⟩,
   ⟨.fd, 0, 0x7FFF, 1, 0, up, by decide +kernel⟩,
   ⟨0, 10, up, by decide +kernel, emuOpen_of (by decide +kernel), by decide +kernel⟩,
   ⟨.fd, 0, 0x404, up, emuOpen_of (by decide +kernel)⟩,
   ⟨.fd, 0, 0x404, true, poke .fd [(Rg.PREF_STATE 0, 3)] up, by decide +kernel⟩,
   ⟨.fd, { req := 0, off := 0x404 }, onUnit .fd (fun u => { u with slate := { u.slate with emuQ := [{ req := 0, off := 0x404 }] } }) up, by decide +kernel⟩,
   ⟨.fd, clk .fd (2 ^ 80 - 1) up, by decide +kernel⟩,
   ⟨2, { poke .fd [(Rg.ALERT_EN_EN, 4), (Rg.ALERT_FAULT, 1)] up with msix := { masked := 4, pending := 4 } }, by decide +kernel⟩,
   ⟨0, 127, 63, up, by decide +kernel⟩,
   ⟨.fd, 0, 0x14, _, _, up, by decide +kernel, by decide +kernel, rfl, by decide +kernel⟩,
   ⟨.fd, { req := 0, off := 0x404 }, [], onUnit .fd (fun u => { u with slate := { u.slate with emuQ := [{ req := 0, off := 0x404 }] } }) up, by decide +kernel⟩⟩

/-- States that meet the hypotheses of `Obligations.ReferencesQualifyAndSteer`, clause by clause. -/
theorem witness_ReferencesQualifyAndSteer :
    (∃ (x : RefIn) (g : GateMeas) (s : State), s.refEnabled x = true ∧ s.get .fd Rg.START_STAGE1_MET = 1 ∧ (s.refSt x).drillUntil ≤ s.now ∧ g.passes = true ∧ s.get .fd x.qual = 0 ∧ s.unformedRoot = true)
    ∧ (∃ (x : RefIn) (g : GateMeas) (s : State), s.refEnabled x = true ∧ s.get .fd Rg.START_STAGE1_MET = 1 ∧ (s.refSt x).drillUntil ≤ s.now ∧ g.passes = false ∧ s.get .fd x.qual = 1 ∧ s.get .fd Rg.REFS_SELECTED ≠ x.code ∧ s.dist.hall.formBox = none)
    ∧ (∃ (x : RefIn) (b : RefBreach) (s : State), s.refEnabled x = true ∧ s.get .fd x.qual = 1 ∧ s.get .fd Rg.REFS_SELECTED ≠ x.code ∧ s.dist.hall.formBox = none)
    ∧ (∃ (x : RefIn) (t0 : Nat) (s : State), (s.refSt x).wtrFrom = some t0 ∧ s.primary = x ∧ s.get .fd Rg.REFS_SEL_STATE = 1 ∧ s.get .fd Rg.REF_REVERTIVE = 1 ∧ s.get .fd x.qual = 1 ∧ s.get .fd Rg.REFS_SELECTED ≠ x.code ∧ t0 + s.get .fd Rg.REF_WTR_S * 1000000000 ≤ s.now ∧ s.jumpPasses x = true ∧ (s.refSt x).accept = none)
    ∧ (∃ (x : RefIn) (coarse bin : Nat) (twin : Option Int) (cyc : Nat) (s u : State), u = s.pairEdge (.timing .fd) twin ∧ s.refEnabled x = true ∧ u.get .fd Rg.REFS_SELECTED ≠ x.code ∧ u.getS .fd (Rg.REFK_KEEP x.idx) = 0 ∧ (u.pair (.timing .fd)).stamp coarse bin 0 / 16384 % 4000000000 < 2000000000)
    ∧ (∃ (x : RefIn) (coarse bin : Nat) (twin : Option Int) (cyc : Nat) (s u : State), u = s.pairEdge (.timing .fd) twin ∧ s.refEnabled x = true ∧ u.isActiveRoot = true ∧ u.get .fd Rg.REFS_SEL_STATE = 1 ∧ u.get .fd Rg.REFS_SELECTED = x.code ∧ u.getS .fd (Rg.REFK_KEEP x.idx) = 0 ∧ (u.pair (.timing .fd)).stamp coarse bin 0 / 16384 % 4000000000 < 2000000000)
    ∧ (∃ (m : MbGo) (x : RefIn) (s : State), MbReady m 1 none 8 s ∧ m.part = .fd ∧ s.isActiveRoot = true ∧ (∀ j < 64, s.get .fd (Rg.JH_MEMBERS j) = 0) ∧ m.argAt [1, 1, 4] 0 = x.code ∧ m.argAt [1, 1, 4] 1 ≤ 1 ∧ s.freeRunFormed = false ∧ s.rootHoldover = false)
    ∧ (∃ (m : MbGo) (x : RefIn) (s : State), MbReady m 1 none 1 s ∧ m.part = .fd ∧ s.isActiveRoot = true ∧ m.argAt [1] 0 = x.code ∧ (s.refSt x).accept.isSome = true) :=
  ⟨⟨.a, ⟨200, 16, List.replicate 16 0, [], []⟩, poke .fd [(RefIn.a.en, 1), (Rg.ROLL_SEAT, 1)] up, by decide +kernel⟩,
   ⟨.b, ⟨201, 16, List.replicate 16 0, [], []⟩, poke .fd [(RefIn.b.en, 1), (RefIn.b.qual, 1)] up, by decide +kernel⟩,
   ⟨.b, .presence, poke .fd [(RefIn.b.en, 1), (RefIn.b.qual, 1)] up, by decide +kernel⟩,
   ⟨.a, 0, at_ 300000000000 (onDist (fun d => { d with refA := { wtrFrom := some 0 } }) (poke .fd [(Rg.REFS_SEL_STATE, 1), (Rg.REF_REVERTIVE, 1), (RefIn.a.qual, 1), (Rg.REFS_SELECTED, RefIn.b.code), (Rg.REFO_OFFSET 0, 0), (Rg.REF_WTR_S, 300)] up)), by decide +kernel⟩,
   ⟨.a, 0, 255, some 0, 0, poke .fd [(RefIn.a.en, 1)] up, _, rfl, by decide +kernel⟩,
   ⟨.a, 0, 255, none, 0, poke .fd [(RefIn.a.en, 1), (Rg.REFS_SEL_STATE, 1), (Rg.REFS_SELECTED, RefIn.a.code)] root, _, rfl, by decide +kernel⟩,
   ⟨go .fd [RefIn.a.code, 1, 0, 0, 0, 0, 0, 0], .a, root, ready_of (by decide +kernel), by decide +kernel⟩,
   ⟨go .fd [RefIn.a.code], .a, onDist (fun d => { d with refA := { accept := some (true, 0) } }) root, ready_of (by decide +kernel), by decide +kernel⟩⟩

/-- States that meet the hypotheses of `Obligations.HoldoverWallTimeAndOutputs`, clause by clause. -/
theorem witness_HoldoverWallTimeAndOutputs :
    (∃ (s : State), s.onModel = true)
    ∧ (∃ (t0 : Int) (s : State), s.dist.hold.spanLo ≤ t0 ∧ t0 ≤ s.dist.hold.spanHi)
    ∧ (∃ (s : State), s.dist.hold.tempNow + 10000000000 ≤ s.now ∧ s.dist.hold.quality = 2)
    ∧ (∃ (y : Int) (gs : List LearnGate) (s : State), (s.get .fd Rg.REFS_SEL_STATE = 1 ∨ s.get .fd Rg.REFS_SEL_STATE = 2 ∨ s.get .fd Rg.REFS_SEL_STATE = 5) ∧ s.roleUp .fd 1 = true ∧ (gs = ({ now := s.now, y := y, temp := s.dist.hold.temp } :: s.dist.hold.gates).filter (fun g => decide (s.now < g.now + 604800000000000))) ∧ 64 ≤ s.dist.hold.learned + 1 ∧ gs.length < 16200 ∧ s.dist.hold.failing = false)
    ∧ (∃ (x : PtpMsg) (s : State), s.roleUp .fd 1 = true ∧ s.get .fd Rg.PTP_PTP_EN = 1 ∧ x.domain = s.get .fd Rg.PTP_DOMAIN ∧ x.transport = s.get .fd Rg.PTP_TRANSPORT ∧ x.peerDelay = s.flag .fd Rg.PTP_DELAY_MECH ∧ (s.dist.ptp.hear x.master s.now).best x.master = true ∧ (x.master.clockClass = 6 ∨ x.master.clockClass = 7) ∧ x.utcValid = true ∧ s.dist.ptp.hist = [])
    ∧ (∃ (x : PtpMsg) (s : State), s.roleUp .fd 1 = true ∧ s.get .fd Rg.PTP_PTP_EN = 1 ∧ x.domain = s.get .fd Rg.PTP_DOMAIN ∧ x.transport = s.get .fd Rg.PTP_TRANSPORT ∧ x.peerDelay = s.flag .fd Rg.PTP_DELAY_MECH ∧ (s.dist.ptp.hear x.master s.now).best x.master = true ∧ x.utcValid = false)
    ∧ (∃ (s : State), s.get .fd Rg.PTP_PTP_EN = 1)
    ∧ (∃ (m : MbGo) (i : Int) (s : State), MbReady m 1 none 8 s ∧ m.part = .fd ∧ s.dist.ptp.taiAt (m.argAt [8] 0) = some i)
    ∧ (∃ (m : MbGo) (n : Nat) (s : State), MbReady m 1 none 0 s ∧ m.part = .fd ∧ s.get .fd Rg.REFS_SEL_STATE = 4 ∧ s.get .fd Rg.REFS_REJOIN_REFUSED = 1 ∧ s.wantedParent = some n)
    ∧ (∃ (s u : State), s.get .fd Rg.REFS_SEL_STATE = 6 ∧ 16 ≤ s.dist.hold.rejoinRun ∧ u = s.nextBeat .fd)
    ∧ (∃ (n : Nat) (s : State), n < 4 ∧ s.outDriven n = true ∧ s.get .fd (Rg.OUT_MODE n) = 0 ∧ s.get .fd (Rg.OUT_OUT_FALLBACK n) = 0)
    ∧ (∃ (n ht : Nat) (w : BellWord) (s : State), 6 ≤ n ∧ n < 10 ∧ s.outDriven n = true ∧ s.get .fd (Rg.OUT_ALL_JOBS n) = 1 ∧ s.get .fd (Rg.OUT_MODE n) = 0 ∧ s.get .fd (Rg.OUT_BELL_FORM n) = 1 ∧ (s.out n).moveTo = none ∧ (s.out n).pulses = 0)
    ∧ (∃ (m : MbGo) (n : Nat) (s : State), MbReady m 1 none 3 s ∧ m.part = .fd ∧ n < 6 ∧ m.argAt [2, 1] 0 = 2 ^ n ∧ s.get .fd (Rg.OUT_MODE n) = 1)
    ∧ (∃ (n : Nat) (v : Int) (s : State), n < 6 ∧ (s.out n).step = false ∧ s.get .fd (Rg.OUT_SOURCE n) = 0 ∧ (s.out n).moveTo = some v)
    ∧ (∃ (m : MbGo) (s : State), MbReady m 1 none 0 s ∧ m.part = .fd ∧ s.dist.variant = .vxd2880 ∧ m.args = [] ∧ 3 ≤ s.get .fd Rg.START_STAGE ∧ s.get .fd Rg.HT_FORMED = 0 ∧ s.parentAligned = false ∧ s.dist.hall.otherFormed = false ∧ s.get .fd Rg.ROLL_SEAT ≠ 0 ∧ s.dist.hall.seatConflict = false ∧ s.dist.hall.formBox = none)
    ∧ (∃ (b : Nat) (w : MbWait) (s : State), s.dist.hall.formBox = some b ∧ b < 8 ∧ (s.mail .fd b).wait = some w ∧ s.dist.hall.formAt ≤ s.htNs .fd ∧ s.dist.hall.formKind = 0) :=
  ⟨⟨poke .fd [(Rg.REFS_SEL_STATE, 3)] up, by decide +kernel⟩,
   ⟨4000, onDist (fun d => { d with hold := { d.hold with spanLo := 4000, spanHi := 4000 } }) up, by decide +kernel⟩,
   ⟨at_ 10000000000 (onDist (fun d => { d with hold := { d.hold with quality := 2 } }) up), by decide +kernel⟩,
   ⟨0, _, onDist (fun d => { d with hold := { d.hold with learned := 63 } }) (poke .fd [(Rg.REFS_SEL_STATE, 1)] up), by decide +kernel, by decide +kernel, rfl, by decide +kernel⟩,
   ⟨okPtp, poke .fd [(Rg.PTP_PTP_EN, 1)] up, by decide +kernel⟩,
   ⟨{ okPtp with utcValid := false }, poke .fd [(Rg.PTP_PTP_EN, 1)] up, by decide +kernel⟩,
   ⟨poke .fd [(Rg.PTP_PTP_EN, 1)] up, by decide +kernel⟩,
   ⟨go .fd (List.replicate 8 0), 5, onDist (fun d => { d with ptp := { d.ptp with hist := [(0, 5)] } }) up, ready_of (by decide +kernel), by decide +kernel⟩,
   ⟨go .fd [], 64, (poke .fd [(Rg.REFS_SEL_STATE, 4), (Rg.REFS_REJOIN_REFUSED, 1), (Rg.LINK_LSTATE 64, 3)] (role 4)).setLink .fd 64 { far := { formed := true, joined := true } }, ready_of (by decide +kernel), by decide +kernel⟩,
   ⟨onDist (fun d => { d with hold := { d.hold with rejoinRun := 16 } }) (poke .fd [(Rg.REFS_SEL_STATE, 6)] up), _, by decide +kernel, by decide +kernel, rfl⟩,
   ⟨3, poke .fd [(Rg.OUT_ENABLE 3, 1), (Rg.HT_JOINED, 1), (Rg.OUT_OUT_FALLBACK 3, 0), (Rg.OUT_MODE 3, 0), (Rg.OUT_SOURCE 3, 0)] up, by decide +kernel⟩,
   ⟨9, 0, ⟨0, 0, 0, 0, false, false, false, 0, 0⟩, poke .fd [(Rg.OUT_ENABLE 9, 1), (Rg.HT_JOINED, 1), (Rg.OUT_ALL_JOBS 9, 1), (Rg.OUT_BELL_FORM 9, 1), (Rg.OUT_MODE 9, 0), (Rg.OUT_SOURCE 9, 0)] up, by decide +kernel⟩,
   ⟨go .fd [32, 0, 0], 5, poke .fd [(Rg.OUT_MODE 5, 1)] up, ready_of (by decide +kernel), by decide +kernel⟩,
   ⟨5, -3, onDist (fun d => { d with outs := [(5, { moveTo := some (-3) })] }) (poke .fd [(Rg.OUT_REALIGNING 5, 1), (Rg.OUT_SOURCE 5, 0)] up), by decide +kernel⟩,
   ⟨go .fd [], poke .fd [(Rg.ROLL_SEAT, 2)] up, ready_of (by decide +kernel), by decide +kernel⟩,
   ⟨0, ⟨0, 0, false, false, []⟩, withMail .fd ⟨0, 0, false, false, []⟩ (onHall (fun h => { h with formBox := some 0 }) up), by decide +kernel⟩⟩

/-- States that meet the hypotheses of `Obligations.TimeIntervalsAndMains`, clause by clause. -/
theorem witness_TimeIntervalsAndMains :
    (∃ (n src coarse bin st : Nat) (s : State), s.has2880 = true ∧ n < 32 ∧ s.get .fd (Rg.TDC_ENABLE n) = 1 ∧ s.get .fd (Rg.TDC_SOURCE n) = src ∧ s.get .fd (Rg.TDC_EDGE_SEL n) = 0 ∧ s.get .fd (Rg.TDC_REGRESS_EN n) = 0 ∧ s.get .fd (Rg.TDC_Q_MODE n) = 1 ∧ (s.tdc n).lastStamp = none ∧ (s.tdc n).pend = [] ∧ (s.tdc n).queue = [] ∧ (s.tdc n).pair.cal = .idle ∧ (s.tdc n).pair.owed = none ∧ st = (s.tdc n).pair.stamp coarse bin (s.trim .fd (trimTdc n)) ∧ (s.tdc n).busyUntil ≤ st)
    ∧ (∃ (n src coarse bin t0 st : Nat) (s : State), s.has2880 = true ∧ n < 32 ∧ s.get .fd (Rg.TDC_ENABLE n) = 1 ∧ s.get .fd (Rg.TDC_SOURCE n) = src ∧ s.get .fd (Rg.TDC_EDGE_SEL n) = 0 ∧ s.get .fd (Rg.TDC_Q_MODE n) = 0 ∧ (s.tdc n).lastStamp = some t0 ∧ st = (s.tdc n).pair.stamp coarse bin (s.trim .fd (trimTdc n)) ∧ t0 ≤ st ∧ 10 * (st - t0) < 24 * nsLsb)
    ∧ (∃ (n : Nat) (r : PendRec) (s : State), n < 32 ∧ (s.tdc n).pend = [r] ∧ (s.tdc n).queue.length < (if r.raw.isSome then 4095 else 4096))
    ∧ (∃ (n : Nat) (s : State), s.tdcGating n = true ∧ (s.tdc n).gateLen ≠ 0 ∧ (s.tdc n).gateEndNs ≤ s.htNs .fd ∧ (s.htNs .fd < ({ s.tdc n with gateFrom := (s.tdc n).gateEndNs, gateLen := s.get .fd (Rg.TDC_GATE_MS n) } : TdcCh).gateEndNs) ∧ (s.tdc n).fit.n < 3)
    ∧ (∃ (n w : Nat) (s : State), s.has2880 = true ∧ n < 32 ∧ s.get .fd (Rg.TDC_Q_MODE n) = 1 ∧ (s.tdc n).ringLog2 ≠ 0 ∧ (s.tdc n).queue = [w] ∧ (s.tdc n).wr - (s.tdc n).rd < 2 ^ (s.tdc n).ringLog2 ∧ (∀ k < 32, k ≠ n → (s.tdc k).queue = []))
    ∧ (∃ (m : MbGo) (s : State), MbReady m 1 none 32 s ∧ m.part = .fd ∧ s.dist.variant = .vxd2880 ∧ m.argAt [1, 8, 1, 8] 0 < 32 ∧ m.argAt [1, 8, 1, 8] 1 % 4096 = 0 ∧ 12 ≤ m.argAt [1, 8, 1, 8] 2 ∧ m.argAt [1, 8, 1, 8] 2 ≤ 24 ∧ m.argAt [1, 8, 1, 8] 3 % 64 = 0 ∧ s.get .fd (Rg.TDC_Q_MODE (m.argAt [1, 8, 1, 8] 0)) = 0)
    ∧ (∃ (m : MbGo) (n : Nat) (s : State), MbReady m 1 none 4 s ∧ m.part = .fd ∧ s.dist.variant = .vxd2880 ∧ n < 32 ∧ m.argAt [4] 0 = 2 ^ n ∧ (s.tdc n).pair.fails < 2 ∧ (s.tdc n).pair.cal = .idle)
    ∧ (∃ (m : MbGo) (s : State), MbReady m 1 none 3 s ∧ m.part = .fd ∧ s.dist.variant = .vxd2880 ∧ m.argAt [1, 1, 1] 0 < 32 ∧ m.argAt [1, 1, 1] 1 = 0 ∧ m.argAt [1, 1, 1] 2 ≤ 1)
    ∧ (∃ (a : TdcAt) (temp : Int) (s : State), s.hasPair a = true ∧ (s.pair a).fails < 2 ∧ (s.pair a).swapNow + s.calPeriod a * 1000000000 ≤ s.now ∧ (s.pair a).cal = .idle)
    ∧ (∃ (a : TdcAt) (hits : List Nat) (s : State), (s.pair a).cal = .density ∧ tablePasses hits = true)
    ∧ (∃ (a : TdcAt) (s : State), (s.pair a).cal = .check)
    ∧ (∃ (n : Nat) (s : State), s.has2880 = true ∧ n < 32)
    ∧ (∃ (p stamp levels : Nat) (s : State), s.has2880 = true ∧ p < 6 ∧ bit (s.get .fd Rg.MNS_ZC_EN) p = true ∧ SMap.find p s.dist.mains.last = none ∧ s.dist.mains.gateLen ≠ 0 ∧ coarseStamp stamp / nsLsb < s.dist.mains.gateEndNs)
    ∧ (∃ (s : State), s.has2880 = true ∧ s.get .fd Rg.MNS_ZC_EN ≠ 0 ∧ s.dist.mains.gateLen ≠ 0 ∧ s.dist.mains.gateEndNs ≤ s.htNs .fd ∧ (s.htNs .fd < ({ s.dist.mains with gateFrom := s.dist.mains.gateEndNs, gateLen := s.get .fd Rg.MNS_GATE_10MS } : MainsSt).gateEndNs) ∧ s.dist.mains.fits = [] ∧ s.get .fd Rg.MNS_MAINS_VALID = 0 ∧ s.get .fd Rg.MNS_ROCOF_VALID = 0)
    ∧ (∃ (level : Bool) (stamp held : Nat) (s : State), s.has2880 = true ∧ 1000 ≤ held)
    ∧ (∃ (level : Bool) (stamp held : Nat) (s : State), s.has2880 = true ∧ 1000 ≤ held) :=
  ⟨⟨31, 0, 0, 255, _, poke .fd [(Rg.TDC_ENABLE 31, 1), (Rg.TDC_Q_MODE 31, 1), (Rg.TDC_EDGE_SEL 31, 0), (Rg.TDC_REGRESS_EN 31, 0)] up, by decide +kernel, by decide +kernel, by decide +kernel, by decide +kernel, by decide +kernel, by decide +kernel, by decide +kernel, by decide +kernel, by decide +kernel, by decide +kernel, by decide +kernel, by decide +kernel, rfl, by decide +kernel⟩,
   ⟨0, 0, 0, 0, 0, _, onDist (fun d => { d with tdc := [(0, { lastStamp := some 0 })] }) (poke .fd [(Rg.TDC_ENABLE 0, 1), (Rg.TDC_EDGE_SEL 0, 0), (Rg.TDC_Q_MODE 0, 0)] up), by decide +kernel, by decide +kernel, by decide +kernel, by decide +kernel, by decide +kernel, by decide +kernel, by decide +kernel, rfl, by decide +kernel⟩,
   ⟨31, {}, onDist (fun d => { d with tdc := [(31, { pend := [{}] })] }) up, by decide +kernel⟩,
   ⟨31, onDist (fun d => { d with tdc := [(31, { gateLen := 1 })] }) (clk .fd (1500000 * 65536) (poke .fd [(Rg.TDC_ENABLE 31, 1), (Rg.TDC_REGRESS_EN 31, 1)] up)), by decide +kernel⟩,
   ⟨31, 7, onDist (fun d => { d with tdc := [(31, { queue := [7], ringLog2 := 12 })] }) (poke .fd [(Rg.TDC_Q_MODE 31, 1)] up), by decide +kernel⟩,
   ⟨go .fd ([31, 0, 0, 0, 0, 0, 0, 0, 0, 0, 0, 0, 0, 0, 0, 0, 24] ++ List.replicate 15 0), poke .fd [(Rg.TDC_Q_MODE 31, 0)] up, ready_of (by decide +kernel), by decide +kernel⟩,
   ⟨go .fd [0, 0, 0, 128], 31, up, ready_of (by decide +kernel), by decide +kernel⟩,
   ⟨go .fd [31, 0, 1], up, ready_of (by decide +kernel), by decide +kernel⟩,
   ⟨.timing .sc, 0, at_ (2 ^ 60) up, by decide +kernel⟩,
   ⟨.lane .fd 79, List.replicate 256 4096, up.setLink .fd 79 { tdc := { cal := .density } }, by decide +kernel⟩,
   ⟨.channel 31, onDist (fun d => { d with tdc := [(31, { pair := { cal := .check } })] }) up, by decide +kernel⟩,
   ⟨31, up, by decide +kernel⟩,
   ⟨5, 0, 0, onDist (fun d => { d with mains := { d.mains with gateLen := 1 } }) (poke .fd [(Rg.MNS_ZC_EN, 63)] up), by decide +kernel⟩,
   ⟨onDist (fun d => { d with mains := { d.mains with gateLen := 1 } }) (clk .fd (15000000 * 65536) (poke .fd [(Rg.MNS_ZC_EN, 63)] up)), by decide +kernel⟩,
   ⟨true, 0, 1000, up, by decide +kernel⟩,
   ⟨false, 0, 1000, up, by decide +kernel⟩⟩

/-- States that meet the hypotheses of `Obligations.RegisterCommands`, clause by clause. -/
theorem witness_RegisterCommands :
    (∃ (req n v : Nat) (s : State), n < 32 ∧ v < 2 ^ 24 ∧ s.dist.variant = .vxd2880 ∧ s.mayWrite .fd req (0x101C + 32 * n) v = true ∧ EmuOpen .fd (0x101C + 32 * n) s)
    ∧ (∃ (req k v : Nat) (s : State), k < 8 ∧ v < 2 ^ 32 ∧ s.mayWrite .sc req (0x2C94 + 16 * k) v = true ∧ EmuOpen .sc (0x2C94 + 16 * k) s)
    ∧ (∃ (req n v : Nat) (s : State), n < s.die.stations ∧ n < 256 ∧ v < 2 ^ 24 ∧ 250 ≤ v / 256 ∧ s.mayWrite .sc req (0x3000 + 16 * n) v = true ∧ EmuOpen .sc (0x3000 + 16 * n) s)
    ∧ (∃ (req v : Nat) (s : State), v < 2 ^ 32 ∧ bits v 1 11 = 0 ∧ s.die.payload = true ∧ s.get .sc Rg.SPAY_IN_FLIGHT = 0 ∧ s.mayWrite .sc req 0x6800 v = true)
    ∧ (∃ (req v : Nat) (s : State), v < 2 ^ 29 ∧ s.die.checker = true ∧ s.get .sc Rg.CHK_FINAL_VALID = 0 ∧ s.mayWrite .sc req 0x6914 v = true ∧ s.get .sc Rg.CHK_EXPECT_LO < 2 ^ 32)
    ∧ (∃ (req : Nat) (s : State), s.die.checker = true)
    ∧ (∃ (req v : Nat) (s : State), v < 2 ^ 29 ∧ s.die.checker = true ∧ s.get .sc Rg.CHK_FINAL_VALID = 0 ∧ s.mayWrite .sc req 0x690C v = true)
    ∧ (∃ (req v : Nat) (s : State), v < 2 ^ 32 ∧ s.mayWrite .fd req 0x7038 v = true ∧ EmuOpen .fd 0x7038 s) :=
  ⟨⟨0, 31, 2 ^ 24 - 1, up, by decide +kernel, by decide +kernel, by decide +kernel, by decide +kernel, emuOpen_of (by decide +kernel)⟩,
   ⟨0, 7, 2 ^ 32 - 1, up, by decide +kernel, by decide +kernel, by decide +kernel, emuOpen_of (by decide +kernel)⟩,
   ⟨0, 255, 250 * 256, up, by decide +kernel, by decide +kernel, by decide +kernel, by decide +kernel, by decide +kernel, emuOpen_of (by decide +kernel)⟩,
   ⟨0, 2 ^ 32 - 4096, up, by decide +kernel⟩,
   ⟨0, 2 ^ 29 - 1, up, by decide +kernel⟩,
   ⟨0, up, by decide +kernel⟩,
   ⟨0, 2 ^ 29 - 1, up, by decide +kernel⟩,
   ⟨0, 2 ^ 32 - 1, up, by decide +kernel, by decide +kernel, emuOpen_of (by decide +kernel)⟩⟩

/-- States that meet the hypotheses of `Obligations.LinksTrainAndFail`, clause by clause. -/
theorem witness_LinksTrainAndFail :
    (∃ (n : Nat) (s : State), n < 64 ∧ s.get .fd Rg.REFS_ROLE = 1 ∧ s.get .fd (Rg.LINK_LSTATE n) ≠ 0)
    ∧ (∃ (n : Nat) (s : State), n < 64 ∧ s.get .fd Rg.REFS_ROLE = 1 ∧ s.get .fd (Rg.LINK_LSTATE n) = 1 ∧ s.trainHold .fd n = false ∧ (s.link .fd n).heldNs = 0 ∧ (s.link .fd n).heldFrom = none ∧ (s.link .fd n).enteredNow + 1000000000 ≤ s.now)
    ∧ (∃ (n : Nat) (s : State), n < 64 ∧ s.get .fd Rg.REFS_ROLE = 1 ∧ s.get .fd (Rg.LINK_LSTATE n) = 2 ∧ s.rangeHold .fd n = false ∧ (s.link .fd n).heldNs = 0 ∧ (s.link .fd n).heldFrom = none ∧ (s.link .fd n).enteredNow + 400000000 ≤ s.now)
    ∧ (∃ (n : Nat) (s : State), n < 64 ∧ s.get .fd Rg.REFS_ROLE = 1 ∧ s.get .fd (Rg.LINK_LSTATE n) = 4 ∧ s.get .fd (Rg.LINK_SUSPECT_CAUSE n) ≠ 0 ∧ s.get .fd (Rg.LINK_SUSPECT_CAUSE n) ≠ 8 ∧ (s.link .fd n).enteredNow + 100000000 ≤ s.now)
    ∧ (∃ (p : Part) (n : Nat) (s : State), s.get p (Rg.LINK_LSTATE n) = 4 ∧ s.get p (Rg.LINK_SUSPECT_CAUSE n) = 8)
    ∧ (∃ (n : Nat) (far : Bool) (s : State), n < 64 ∧ s.get .fd (Rg.LINK_LSTATE n) = 0 ∧ s.portEnabled .fd n = true ∧ s.fd.start.on = true ∧ (s.link .fd n).backoffUntil ≤ s.now ∧ (s.link .fd n).faulty = false)
    ∧ (∃ (n : Nat) (s : State), n < 64 ∧ s.get .fd Rg.REFS_ROLE = 1 ∧ s.get .fd (Rg.LINK_LSTATE n) = 4 ∧ 64 ≤ (s.link .fd n).clearRun)
    ∧ (∃ (n : Nat) (s : State), n < 64 ∧ s.get .fd Rg.REFS_ROLE = 1 ∧ s.get .fd (Rg.LINK_LSTATE n) = 3 ∧ 64 ≤ (s.link .fd n).residRun ∧ (s.link .fd n).calRun = none ∧ s.optical .fd n = false)
    ∧ (∃ (p : Part) (n : Nat) (s : State) (w : Machine.Sent) (l : List Machine.Sent), ((s.link p n).out = w :: l) ∧ s.linkUp p n = true)
    ∧ (∃ (s : State), s.die.coreHold = true ∧ 16 ≤ s.die.holdRun ∧ s.get .sc (Rg.LINK_LSTATE s.die.timePort) = 3)
    ∧ (∃ (s : State), s.get .fd Rg.REFS_SEL_STATE = 2 ∧ s.get .fd Rg.REFS_SELECTED = 3 ∧ s.get .fd (Rg.LINK_LSTATE 64) = 4 ∧ (s.link .fd 64).exch ≠ [] ∧ (s.link .fd 64).heldModel = false ∧ (s.link .fd 65).heldModel = false) :=
  ⟨⟨63, poke .fd [(Rg.LINK_LSTATE 63, 3)] (role 1), by decide +kernel⟩,
   ⟨63, at_ 1000000000 (poke .fd [(Rg.LINK_LSTATE 63, 1)] (role 1)), by decide +kernel⟩,
   ⟨63, at_ 400000000 (poke .fd [(Rg.LINK_LSTATE 63, 2), (Rg.HT_JOINED, 1), (Rg.HT_FORMED, 1), (Rg.LINK_CHANNEL_RANGE 63, 0)] (role 1)), by decide +kernel⟩,
   ⟨63, at_ 100000000 (poke .fd [(Rg.LINK_LSTATE 63, 4), (Rg.LINK_SUSPECT_CAUSE 63, 1)] (role 1)), by decide +kernel⟩,
   ⟨.fd, 71, poke .fd [(Rg.LINK_LSTATE 71, 4), (Rg.LINK_SUSPECT_CAUSE 71, 8)] (role 1), by decide +kernel⟩,
   ⟨63, true, poke .fd [(Rg.LINK_ENABLE 63, 1)] up, by decide +kernel⟩,
   ⟨63, (poke .fd [(Rg.LINK_LSTATE 63, 4)] (role 1)).setLink .fd 63 { clearRun := 64 }, by decide +kernel⟩,
   ⟨63, (poke .fd [(Rg.LINK_LSTATE 63, 3), (Rg.LINK_MEDIUM 63, 0)] (role 1)).setLink .fd 63 { residRun := 64 }, by decide +kernel⟩,
   ⟨.fd, 5, (poke .fd [(Rg.LINK_LSTATE 5, 3)] up).setLink .fd 5 { out := [⟨0, 0, ⟨0, false, .undefined 0⟩⟩] }, ⟨0, 0, ⟨0, false, .undefined 0⟩⟩, [], by decide +kernel⟩,
   ⟨onDie (fun d => { d with coreHold := true, holdRun := 16 }) (poke .sc [(Rg.LINK_LSTATE 0, 3)] up), by decide +kernel⟩,
   ⟨(poke .fd [(Rg.REFS_SEL_STATE, 2), (Rg.REFS_SELECTED, 3), (Rg.LINK_LSTATE 64, 4)] (role 4)).setLink .fd 64 { exch := [⟨0, 0, 0⟩] }, by decide +kernel⟩⟩

/-- States that meet the hypotheses of `Obligations.LinkCommands`, clause by clause. -/
theorem witness_LinkCommands :
    (∃ (m : MbGo) (n : Nat) (s : State), MbReady m 5 none 2 s ∧ m.part = .fd ∧ m.argAt [1, 1] 0 = n ∧ m.argAt [1, 1] 1 = 0 ∧ n < 80 ∧ s.optical .fd n = false)
    ∧ (∃ (m : MbGo) (n : Nat) (s : State), MbReady m 5 none 2 s ∧ m.part = .fd ∧ m.argAt [1, 1] 0 = n ∧ m.argAt [1, 1] 1 = 0 ∧ n < 72 ∧ s.get .fd (Rg.LINK_ON_SPARE n) = 0 ∧ s.spareFree .fd n = true)
    ∧ (∃ (m : MbGo) (n : Nat) (s : State), MbReady m 5 none 1 s ∧ m.part = .fd ∧ m.argAt [1] 0 = n ∧ n < 64 ∧ s.get .fd Rg.REFS_ROLE = 1 ∧ s.get .fd (Rg.LINK_LSTATE n) ≠ 0)
    ∧ (∃ (n : Nat) (s : State), n < 64 ∧ (s.link .fd n).calWant = true ∧ s.roleUp .fd 5 = true ∧ s.optical .fd n = false ∧ (s.link .fd n).calRun = none ∧ s.get .fd (Rg.LINK_LSTATE n) = 2)
    ∧ (∃ (p : Part) (n a b : Nat) (r : Machine.CalRun) (s : State), (s.link p n).calRun = some r ∧ r.slices < 7)
    ∧ (∃ (p : Part) (n a b : Nat) (r : Machine.CalRun) (s : State), (s.link p n).calRun = some r ∧ r.slices = 7)
    ∧ (∃ (n : Nat) (sum far : Int) (b : Nat) (s : State), n < 64 ∧ ((s.link .fd n).calRun = some { slices := 8, sum := sum, farAvg := some far, nextBeat := b }) ∧ s.get .fd Rg.SUP_GUARD = 0 ∧ s.roleUp .fd 5 = true)
    ∧ (∃ (p : Part) (n : Nat) (s : State), s.get p (Rg.LINK_SWAP_PENDING n) = 1 ∧ (s.link p n).swapAt = none)
    ∧ (∃ (n b : Nat) (s : State), n < 72 ∧ (s.link .fd n).swapAt = some b ∧ (s.link .fd n).swapBack = false)
    ∧ (∃ (p : Part) (n : Nat) (s : State), (s.link p n).payAnn = true ∧ s.governs p n = false ∧ (s.link p n).payNext < 64)
    ∧ (∃ (n k : Nat) (s : State), s.get .fd Rg.REFS_ROLE = 4 ∧ s.dist.hall.dualHere = true ∧ s.dist.hall.slots = [] ∧ s.get .fd (Rg.LINK_LSTATE 64) = 0 ∧ n < 64 ∧ bit s.dist.hall.carrying n = true)
    ∧ (∃ (n : Nat) (x : Machine.RxFrame) (r : Machine.RxParts) (s : State), n < 64 ∧ s.get .fd (Rg.LINK_LSTATE n) = 1 ∧ s.get .fd Rg.REFS_SEL_STATE = 1 ∧ (s.link .fd n).lockRun < 15 ∧ (s.link .fd n).uncorr = [] ∧ (s.link .fd n).symErr = [] ∧ s.get .fd (Rg.LINK_DEGRADED n) = 0 ∧ (s.link .fd n).calRun = none ∧ (s.pair (.lane .fd (s.laneOf .fd n))).cal = .idle ∧ (s.pair (.lane .fd (s.laneOf .fd n))).fault = false ∧ x.parts (s.link .fd n).precode false = r ∧ r.pattern = true ∧ r.headerOk = true ∧ r.uncorrected = 0 ∧ r.corrected = 0 ∧ r.blk.calAnn = false ∧ r.blk.swapAnn = false)
    ∧ (∃ (n : Nat) (x : Machine.RxSlot) (c : Machine.CtlSlot) (s : State), 8 ≤ n ∧ s.get .sc (Rg.LINK_LSTATE n) = 3 ∧ x.parse = .control c ∧ c.crcOk = true ∧ c.lseq = (s.link .sc n).rxNext ∧ s.rightWay .sc n c.word = true ∧ (∀ a b, c.word.body ≠ .bell a b) ∧ (∀ a b d e, c.word.body ≠ .monitor a b d e))
    ∧ (∃ (n : Nat) (s : State), s.transmits .fd n = true ∧ (s.link .fd n).lastTx = none ∧ (s.link .fd n).calRun = none ∧ (∀ k < 64, (s.link .fd k).goneAt = none) ∧ s.get .fd (Rg.LINK_LSTATE n) = 1) :=
  ⟨⟨go .fd [79, 0], 79, up, ready_of (by decide +kernel), by decide +kernel⟩,
   ⟨go .fd [71, 0], 71, up, ready_of (by decide +kernel), by decide +kernel⟩,
   ⟨go .fd [63], 63, poke .fd [(Rg.LINK_LSTATE 63, 3)] (role 1), ready_of (by decide +kernel), by decide +kernel⟩,
   ⟨63, (poke .fd [(Rg.LINK_LSTATE 63, 2)] up).setLink .fd 63 { calWant := true }, by decide +kernel⟩,
   ⟨.sc, 0, 0, 2 ^ 80 - 1, { slices := 6 }, up.setLink .sc 0 { calRun := some { slices := 6 } }, by decide +kernel⟩,
   ⟨.fd, 5, 1000, 0, { slices := 7 }, up.setLink .fd 5 { calRun := some { slices := 7 } }, by decide +kernel⟩,
   ⟨63, 16, 2, 0, up.setLink .fd 63 { calRun := some { slices := 8, sum := 16, farAvg := some 2, nextBeat := 0 } }, by decide +kernel⟩,
   ⟨.fd, 71, poke .fd [(Rg.LINK_SWAP_PENDING 71, 1)] up, by decide +kernel⟩,
   ⟨71, 0, up.setLink .fd 71 { swapAt := some 0 }, by decide +kernel⟩,
   ⟨.fd, 64, up.setLink .fd 64 { payAnn := true, payNext := 63 }, by decide +kernel⟩,
   ⟨63, 64, onHall (fun h => { h with dualHere := true, carrying := 2 ^ 63 }) (role 4), by decide +kernel⟩,
   ⟨63, { levels := ({} : Frame).levels false }, _, poke .fd [(Rg.LINK_LSTATE 63, 1), (Rg.REFS_SEL_STATE, 1)] up, by decide +kernel, by decide +kernel, by decide +kernel, by decide +kernel, by decide +kernel, by decide +kernel, by decide +kernel, by decide +kernel, by decide +kernel, by decide +kernel, rfl, by decide +kernel⟩,
   ⟨15, { index := 255, word := slotWord 255 kindControl (CtlSlot.toBits ⟨0, true, ⟨0, false, .vote 0 true 0 0 0⟩⟩) }, ⟨0, true, ⟨0, false, .vote 0 true 0 0 0⟩⟩, poke .sc [(Rg.LINK_LSTATE 15, 3)] up, by decide +kernel, by decide +kernel, by decide +kernel, by decide +kernel, by decide +kernel, by decide +kernel, fun _ _ => nofun, fun _ _ _ _ => nofun⟩,
   ⟨63, poke .fd [(Rg.LINK_LSTATE 63, 1), (Rg.LINK_ENABLE 63, 1)] up, by decide +kernel⟩⟩

/-- States that meet the hypotheses of `Obligations.StationsKeepTimeAndLaunch`, clause by clause. -/
theorem witness_StationsKeepTimeAndLaunch :
    (∃ (trip n : Nat) (s : State), s.die.running = true ∧ s.die.sync.lastHb ≠ some (s.htNs .sc / 64 * 64) ∧ n < s.die.stations ∧ SMap.get 0 n s.die.hbOmit = 0)
    ∧ (∃ (n : Nat) (es : List Nat) (s : State), s.stnLive n = true ∧ ((s.stn n).edges (s.period n) es).missRun = 0)
    ∧ (∃ (n : Nat) (es : List Nat) (s : State), s.stnLive n = true ∧ 1 ≤ ((s.stn n).edges (s.period n) es).missRun)
    ∧ (∃ (n : Nat) (s : State), s.stnLive n = true)
    ∧ (∃ (n k : Nat) (es : List Nat) (x : Machine.Target) (l : List Machine.Target) (s : State), s.stnLive n = true ∧ k < 8 ∧ (SMap.get [] k (s.stn n).targets = x :: l) ∧ ((s.stn n).edges (s.period n) es).reached x.ht = true ∧ s.get .sc (Rg.STRB_SOURCE k) = 1 ∧ x.source = 1 ∧ s.get .sc (Rg.STRB_JOB k) = x.job ∧ bit (s.get .sc (Rg.STN_STROBE_EN n)) k = true)
    ∧ (∃ (temp : Int) (droop req i : Nat) (valid : Bool) (s : State), s.roleUp .sc 1 = true ∧ 2 ≤ s.get .sc Rg.START_STAGE ∧ s.get .sc Rg.SUP_GUARD = 0 ∧ s.die.opp.pending = none ∧ ((s.put .sc Rg.SPIN_OPP_REQ req).putFlag .sc Rg.SPIN_OPP_REQ_VALID valid).choosePoint temp droop = some i ∧ i < 16 ∧ i ≠ s.get .sc Rg.OPS_CURRENT)
    ∧ (∃ (m : MbGo) (s : State), MbReady m 1 none 16 s ∧ m.part = .sc ∧ m.argAt [1, 8] 1 % 64 = 0 ∧ m.argAt [1, 8] 0 < 16 ∧ s.pointValid (m.argAt [1, 8] 0) = true ∧ s.die.opp.pending = none ∧ s.htNs .sc + 4096 ≤ m.argAt [1, 8] 1 ∧ s.get .sc Rg.SUP_GUARD = 0)
    ∧ (∃ (m : MbGo) (w : OppSw) (s : State), MbReady m 1 none 0 s ∧ m.part = .sc ∧ s.die.opp.pending = some w ∧ w.tt = false ∧ s.htNs .sc + 1024 ≤ w.at_)
    ∧ (∃ (m : MbGo) (n : Nat) (s : State), MbReady m 1 none 1 s ∧ m.part = .sc ∧ m.argAt [1] 0 = n ∧ n < s.die.stations)
    ∧ (∃ (w : OppSw) (s : State), s.die.opp.pending = some w ∧ s.die.opp.armed = false)
    ∧ (∃ (w : OppSw) (s : State), s.die.opp.pending = some w ∧ w.tt = false ∧ s.get .sc Rg.SPIN_OPP_READY = 0 ∧ w.at_ - 1024 ≤ s.htNs .sc ∧ w.at_ ≤ s.htNs .sc + 1024)
    ∧ (∃ (n i a : Nat) (es : List Nat) (s : State), s.stnLive n = true ∧ ((s.stn n).edges (s.period n) es).opp = some (i, a) ∧ ((s.stn n).edges (s.period n) es).reached (a - 16) = true)
    ∧ (∃ (n i a : Nat) (es : List Nat) (s : State), s.stnLive n = true ∧ ((s.stn n).edges (s.period n) es).opp = some (i, a) ∧ ((s.stn n).edges (s.period n) es).reached a = true ∧ s.die.opp.pending = none) :=
  ⟨⟨0, 255, up, by decide +kernel⟩,
   ⟨255, [], up, by decide +kernel⟩,
   ⟨0, [], withStn { missRun := 1 }, by decide +kernel⟩,
   ⟨255, up, by decide +kernel⟩,
   ⟨0, 7, [], ⟨0, 1, 0⟩, [], poke .sc [(Rg.STRB_SOURCE 7, 1), (Rg.STRB_JOB 7, 0), (Rg.STN_STROBE_EN 0, 128)] (withStn { targets := [(7, [⟨0, 1, 0⟩])] }), by decide +kernel⟩,
   ⟨0, 0, 0, 15, false, poke .sc [(Rg.OPE_PERIOD 15, 65536), (Rg.OPE_TEMP_MAX 15, 100), (Rg.OPE_DROOP_MAX 15, 100), (Rg.OPE_POWER_PCT 15, 0)] up, by decide +kernel⟩,
   ⟨go .sc [15, 0, 0, 0, 0, 0, 0, 0, 0, 0x10, 0, 0, 0, 0, 0, 0], poke .sc [(Rg.OPE_PERIOD 15, 65536)] up, ready_of (by decide +kernel), by decide +kernel⟩,
   ⟨go .sc [], ⟨1, 4096, false⟩, onDie (fun d => { d with opp := { pending := some ⟨1, 4096, false⟩ } }) up, ready_of (by decide +kernel), by decide +kernel⟩,
   ⟨go .sc [255], 255, up, ready_of (by decide +kernel), by decide +kernel⟩,
   ⟨⟨1, 4096, false⟩, onDie (fun d => { d with opp := { pending := some ⟨1, 4096, false⟩ } }) up, by decide +kernel⟩,
   ⟨⟨1, 1024, false⟩, onDie (fun d => { d with opp := { pending := some ⟨1, 1024, false⟩ } }) up, by decide +kernel⟩,
   ⟨0, 1, 16, [], withStn { opp := some (1, 16) }, by decide +kernel⟩,
   ⟨0, 1, 0, [], withStn { opp := some (1, 0) }, by decide +kernel⟩⟩

/-- States that meet the hypotheses of `Obligations.SyncQueuesExecute`, clause by clause. -/
theorem witness_SyncQueuesExecute :
    (∃ (q cmd : Nat) (s : State), s.queueLive q = true ∧ (s.queue q).entries.length < 64 ∧ s.clearing q = false)
    ∧ (∃ (q : Nat) (es : List Nat) (e : Machine.QEntry) (pre rest : List Machine.QEntry) (s : State), AtHead q pre e rest s ∧ e.op = 0)
    ∧ (∃ (q : Nat) (es : List Nat) (e : Machine.QEntry) (pre rest : List Machine.QEntry) (s : State), AtHead q pre e rest s ∧ 11 ≤ e.op)
    ∧ (∃ (q i : Nat) (es : List Nat) (e : Machine.QEntry) (pre rest : List Machine.QEntry) (s : State), AtHead q pre e rest s ∧ e.op = 1 ∧ (s.queue q).fenced = true ∧ s.stnFull q = false ∧ (s.stn (s.get .sc (Rg.Q_STATION q))).valid = true ∧ s.handle (s.get .sc (Rg.Q_CTX q)) (bits e.cmd 48 12) = some (.hub i))
    ∧ (∃ (q i : Nat) (es : List Nat) (e : Machine.QEntry) (pre rest : List Machine.QEntry) (s : State), AtHead q pre e rest s ∧ e.op = 2 ∧ s.stnFull q = false ∧ (s.stn (s.get .sc (Rg.Q_STATION q))).valid = true ∧ s.handle (s.get .sc (Rg.Q_CTX q)) (bits e.cmd 48 12) = some (.hub i))
    ∧ (∃ (q : Nat) (es : List Nat) (e : Machine.QEntry) (pre rest : List Machine.QEntry) (s : State), AtHead q pre e rest s ∧ e.op = 4)
    ∧ (∃ (q : Nat) (e : Machine.QEntry) (pre rest : List Machine.QEntry) (s : State), InQueue q pre e rest s ∧ (∀ x ∈ pre, x.phase = .passed) ∧ e.phase = .stalled ∧ e.op = 4 ∧ (s.queue q).drainReq = true)
    ∧ (∃ (q : Nat) (es : List Nat) (e : Machine.QEntry) (pre rest : List Machine.QEntry) (s : State), AtHead q pre e rest s ∧ q < 128 ∧ e.op = 6 ∧ s.get .sc (Rg.Q_CTX q) < 64)
    ∧ (∃ (q : Nat) (es : List Nat) (e : Machine.QEntry) (pre rest : List Machine.QEntry) (s : State), AtHead q pre e rest s ∧ e.op = 7 ∧ bit (s.hostFlags (s.get .sc (Rg.Q_CTX q))) (e.cmd % 64) = true)
    ∧ (∃ (q : Nat) (es : List Nat) (e : Machine.QEntry) (pre rest : List Machine.QEntry) (s : State), AtHead q pre e rest s ∧ e.op = 7 ∧ bit (s.hostFlags (s.get .sc (Rg.Q_CTX q))) (e.cmd % 64) = false)
    ∧ (∃ (q j : Nat) (es : List Nat) (e : Machine.QEntry) (pre rest : List Machine.QEntry) (s : State), AtHead q pre e rest s ∧ e.op = 8 ∧ s.ctxJob (s.get .sc (Rg.Q_CTX q)) = some j ∧ s.get .sc (Rg.SJH_BELL_VALID j) = 1 ∧ sdiff48 (e.cmd % 2 ^ 48) (s.lastBell j) ≤ 0)
    ∧ (∃ (q : Nat) (es : List Nat) (e : Machine.QEntry) (pre rest : List Machine.QEntry) (s : State), AtHead q pre e rest s ∧ e.op = 9)
    ∧ (∃ (q : Nat) (es : List Nat) (e : Machine.QEntry) (pre rest : List Machine.QEntry) (s : State), AtHead q pre e rest s ∧ e.op = 10)
    ∧ (∃ (q : Nat) (r : Machine.HubRel) (e : Machine.QEntry) (pre rest : List Machine.QEntry) (s : State), (s.die.sync.rels.find? fun x => x.q == q) = some r ∧ s.get .sc (Rg.Q_BIND_GEN q) = r.bindGen ∧ s.get .sc (Rg.Q_BOUND q) = 1 ∧ InQueue q pre e rest s ∧ e.tag = r.tag)
    ∧ (∃ (q x : Nat) (es : List Nat) (e : Machine.QEntry) (pre rest : List Machine.QEntry) (s : State), s.queueLive q = true ∧ InQueue q pre e rest s ∧ (∀ x ∈ pre, x.phase = .passed) ∧ e.phase = .stalled ∧ e.op = 8 ∧ e.target = some x ∧ ((s.stn (s.get .sc (Rg.Q_STATION q))).edges (s.period (s.get .sc (Rg.Q_STATION q))) es).reached x = true)
    ∧ (∃ (q x : Nat) (es : List Nat) (e : Machine.QEntry) (pre rest : List Machine.QEntry) (s : State), s.queueLive q = true ∧ InQueue q pre e rest s ∧ (∀ x ∈ pre, x.phase = .passed) ∧ e.phase = .stalled ∧ e.op = 9 ∧ e.target = some x ∧ ((s.stn (s.get .sc (Rg.Q_STATION q))).edges (s.period (s.get .sc (Rg.Q_STATION q))) es).reached x = true)
    ∧ (∃ (q i : Nat) (es : List Nat) (e : Machine.QEntry) (pre rest : List Machine.QEntry) (s : State), AtHead q pre e rest s ∧ e.op = 3 ∧ (s.queue q).fenced = true ∧ s.stnFull q = false ∧ (s.stn (s.get .sc (Rg.Q_STATION q))).valid = true ∧ s.handle (s.get .sc (Rg.Q_CTX q)) (bits e.cmd 48 12) = some (.hub i)) :=
  ⟨⟨0, 0, withQ [], by decide +kernel⟩,
   ⟨0, [], ent 0, [gone], [next], withQ [gone, ent 0, next], atHead_of (by decide +kernel), by decide +kernel⟩,
   ⟨0, [], ent 15, [gone], [next], withQ [gone, ent 15, next], atHead_of (by decide +kernel), by decide +kernel⟩,
   ⟨0, 0, [], ent 1, [gone], [next], withStn { valid := true } (withQ [gone, ent 1, next] (withHub {})), atHead_of (by decide +kernel), by decide +kernel⟩,
   ⟨0, 0, [], ent 2, [gone], [next], withStn { valid := true } (withQ [gone, ent 2, next] (withHub {})), atHead_of (by decide +kernel), by decide +kernel⟩,
   ⟨0, [], ent 4, [gone], [next], withQ [gone, ent 4, next], atHead_of (by decide +kernel), by decide +kernel⟩,
   ⟨0, { ent 4 with phase := .stalled }, [gone], [next], onSync (fun y => { y with queues := [(0, { entries := [gone, { ent 4 with phase := .stalled }, next], drainReq := true })] }) up, inQueue_of (by decide +kernel), by decide +kernel⟩,
   ⟨0, [], ent 6, [gone], [next], withQ [gone, ent 6, next], atHead_of (by decide +kernel), by decide +kernel⟩,
   ⟨0, [], ent 7, [gone], [next], poke .sc [(Rg.HF_FLAG_LO 0, 1)] (withQ [gone, ent 7, next]), atHead_of (by decide +kernel), by decide +kernel⟩,
   ⟨0, [], ent 7, [gone], [next], withQ [gone, ent 7, next], atHead_of (by decide +kernel), by decide +kernel⟩,
   ⟨0, 3, [], ent 8, [gone], [next], poke .sc [(Rg.CTX_JOB_VALID 0, 1), (Rg.CTX_JOB 0, 3), (Rg.SJH_BELL_VALID 3, 1)] (withQ [gone, ent 8, next]), atHead_of (by decide +kernel), by decide +kernel⟩,
   ⟨0, [], ent 9, [gone], [next], withQ [gone, ent 9, next], atHead_of (by decide +kernel), by decide +kernel⟩,
   ⟨0, [], ent 10, [gone], [next], withQ [gone, ent 10, next], atHead_of (by decide +kernel), by decide +kernel⟩,
   ⟨0, ⟨0, 0, 0, 0, 0⟩, ent 1, [gone], [next], onSync (fun y => { y with rels := [⟨0, 0, 0, 0, 0⟩] }) (withQ [gone, ent 1, next]), by decide +kernel, by decide +kernel, by decide +kernel, inQueue_of (by decide +kernel), by decide +kernel⟩,
   ⟨0, 0, [], { ent 8 with phase := .stalled, target := some 0 }, [gone], [next], withQ [gone, { ent 8 with phase := .stalled, target := some 0 }, next], by decide +kernel, inQueue_of (by decide +kernel), by decide +kernel⟩,
   ⟨0, 0, [], { ent 9 with phase := .stalled, target := some 0 }, [gone], [next], withQ [gone, { ent 9 with phase := .stalled, target := some 0 }, next], by decide +kernel, inQueue_of (by decide +kernel), by decide +kernel⟩,
   ⟨0, 0, [], ent 3, [gone], [next], withStn { valid := true } (withQ [gone, ent 3, next] (withHub {})), atHead_of (by decide +kernel), by decide +kernel⟩⟩

/-- States that meet the hypotheses of `Obligations.BarriersAndContexts`, clause by clause. -/
theorem witness_BarriersAndContexts :
    (∃ (n tap flips raw phi hb : Nat) (es : List Nat) (x : Machine.Station) (s : State), s.stnLive n = true ∧ Nat.xor (s.stn n).word.toBits (flips % 2 ^ 64) = raw ∧ bit raw 0 = true ∧ hbPasses raw = true ∧ ({ ((s.stn n).edges (s.period n) es).tapHit tap with word := (((s.stn n).edges (s.period n) es).tapHit tap).word.read raw } = x) ∧ x.word.msg = .none ∧ x.word.joined = true ∧ x.joined = true ∧ s.get .sc (Rg.STN_RT_UNREL n) = 0 ∧ x.valid = true ∧ (s.stn n).clkLost = false ∧ x.clkLost = false ∧ tapPos (s.stn n).taps tap = phi ∧ x.boundary phi false = some hb ∧ ((((x.rt + phi : Nat) : Int) - ((hb * nsLsb + x.delayLsb : Nat) : Int)).natAbs ≤ 2 * nsLsb))
    ∧ (∃ (e : Machine.HubEv) (q tag gen cmd i : Nat) (s : State), pickEvent s.die.sync.waiting = some e ∧ e.body = .cmd q tag gen cmd ∧ e.entered + 4 ≤ s.htNs .sc ∧ s.die.sync.lastStamp = none ∧ s.get .sc (Rg.Q_BIND_GEN q) = gen ∧ s.get .sc (Rg.Q_BOUND q) = 1 ∧ s.queueSlot q (bits cmd 48 12) = some (.hub i) ∧ bits cmd 60 4 = 2 ∧ bit cmd 31 = false ∧ (s.slotAt (.hub i)).waitFor (bits cmd 32 16) = some 0)
    ∧ (∃ (m : MbGo) (i : Nat) (s : State), MbReady m 0 none 6 s ∧ m.part = .sc ∧ m.argAt [1, 2, 1, 1] 2 = 1 ∧ 23 ≤ m.args.length ∧ m.argAt [1, 2, 1, 1] 0 < 64 ∧ (s.createOk { ctx := m.argAt [1, 2, 1, 1] 0, handle := m.argAt [1, 2, 1, 1] 1, scope := 1, headcount := m.argAt [1, 2, 1, 1] 3, part := ofLe ((m.args.drop 6).take 17) % 2 ^ 129 } = true) ∧ s.handle (m.argAt [1, 2, 1, 1] 0) (m.argAt [1, 2, 1, 1] 1) = none ∧ s.get .sc (Rg.CTX_HANDLES_USED (m.argAt [1, 2, 1, 1] 0)) < s.get .sc (Rg.CTX_HANDLE_QUOTA (m.argAt [1, 2, 1, 1] 0)) ∧ firstFresh s.die.sync.slots 16384 0 = some i)
    ∧ (∃ (m : MbGo) (i c h : Nat) (s : State), MbReady m 0 none 4 s ∧ m.part = .sc ∧ m.argAt [1, 2] 0 = c ∧ m.argAt [1, 2] 1 = h ∧ s.handle c h = some (.hub i) ∧ (s.slotAt (.hub i)).ctx = c ∧ (s.slotAt (.hub i)).handle = h ∧ (s.slotAt (.hub i)).scope = 1 ∧ (s.slotAt (.hub i)).waits = [] ∧ (s.slotAt (.hub i)).hostWaits = [] ∧ s.die.pay.descs = [] ∧ s.die.pay.held = [])
    ∧ (∃ (m : MbGo) (c j : Nat) (s : State), MbReady m 0 (some (m.argAt [1, 1] 1)) 2 s ∧ m.part = .sc ∧ m.argAt [1, 1] 0 = c ∧ m.argAt [1, 1] 1 = j ∧ c < 64 ∧ j < 64 ∧ 2 ≤ s.get .sc Rg.START_STAGE ∧ s.get .sc (Rg.CTX_JOB_VALID c) = 0 ∧ (∀ k, k < 64 → s.ctxJob k ≠ some j) ∧ s.ctxSlots c = [])
    ∧ (∃ (m : MbGo) (c : Nat) (s : State), MbReady m 0 none 1 s ∧ m.part = .sc ∧ m.argAt [1] 0 = c ∧ c < 64 ∧ s.boundQueues c = [] ∧ s.ctxSlots c = [] ∧ s.die.pay.descs = [] ∧ s.die.queues ≤ 128)
    ∧ (∃ (m : MbGo) (c d : Nat) (s : State), MbReady m 0 none 2 s ∧ m.part = .sc ∧ m.argAt [1, 1] 0 = c ∧ m.argAt [1, 1] 1 = d ∧ c < 64 ∧ d < 64 ∧ 18 ≤ m.args.length ∧ ofLe ((m.args.drop 2).take 16) = 0 ∧ s.boundQueues c = [] ∧ s.ctxSlots c = [] ∧ s.die.pay.descs = [] ∧ s.die.queues ≤ 128)
    ∧ (∃ (b c : Nat) (w : Machine.MbWait) (s : State), (s.die.sync.clear = some { ctx := c, box := b }) ∧ b < 8 ∧ (s.mail .sc b).wait = some w)
    ∧ (∃ (m : MbGo) (i : Nat) (s : State), MbReady m 0 none 5 s ∧ m.part = .sc ∧ m.argAt [1, 1, 2, 1] 0 = 1 ∧ m.argAt [1, 1, 2, 1] 1 ≠ 0 ∧ m.argAt [1, 1, 2, 1] 2 = i ∧ i < 16384)
    ∧ (∃ (m : MbGo) (c v : Nat) (s : State), MbReady m 0 none 4 s ∧ m.part = .sc ∧ m.argAt [1, 2] 0 = c ∧ m.argAt [1, 2] 1 = v ∧ c < 64 ∧ v ≤ 4096)
    ∧ (∃ (m : MbGo) (s : State), MbReady m 0 none 1 s ∧ m.part = .sc)
    ∧ (∃ (m : MbGo) (i en : Nat) (v : Machine.Slot) (s : State), MbReady m 0 none 2 s ∧ m.part = .sc ∧ m.argAt [2] 0 = 2 ^ en ∧ en < 16 ∧ (s.die.sync.slots.find? fun e => (SMap.find en e.2.hostWaits).isSome) = some (i, v))
    ∧ (∃ (c a : Nat) (s : State), c < 64 ∧ (s.mon c).stalled = some a ∧ s.get .sc Rg.MON_MON_EN = 1 ∧ bit (s.get64 Rg.MON_DEADLOCK_LO Rg.MON_DEADLOCK_HI) c = false)
    ∧ (∃ (m : MbGo) (c : Nat) (s u v : State), MbReady m 0 none 1 s ∧ m.part = .sc ∧ m.argAt [1] 0 = c ∧ c < 64 ∧ s.mbSubmit m 0x24 = u ∧ u.clearContext c = v)
    ∧ (∃ (m : MbGo) (c d : Nat) (s u v : State), MbReady m 0 none 2 s ∧ m.part = .sc ∧ m.argAt [1, 1] 0 = c ∧ m.argAt [1, 1] 1 = d ∧ c < 64 ∧ d < 64 ∧ 18 ≤ m.args.length ∧ s.mbSubmit m 0x23 = u ∧ u.clearContext c = v ∧ (∀ q < 128, bit (ofLe ((m.args.drop 2).take 16)) q = true → q ∈ u.boundQueues c)) :=
  ⟨⟨0, 0, 0, _, _, 0, [], _, withStn { valid := true, joined := true, word := { joined := true } }, by decide +kernel, rfl, by decide +kernel, by decide +kernel, rfl, by decide +kernel, by decide +kernel, by decide +kernel, by decide +kernel, by decide +kernel, by decide +kernel, by decide +kernel, rfl, by decide +kernel⟩,
   ⟨{ src := 0, stamp := 0, body := .cmd 0 0 0 (2 * 2 ^ 60) }, 0, 0, 0, 2 * 2 ^ 60, 0, clk .sc (2 ^ 40) (onSync (fun y => { y with events := [{ src := 0, stamp := 0, body := .cmd 0 0 0 (2 * 2 ^ 60) }] }) (withQ [] (withHub { state := .counting }))), by decide +kernel⟩,
   ⟨go .sc ([0, 0, 0, 0, 1, 1, 1] ++ List.replicate 16 0), 0, poke .sc [(Rg.CTX_HANDLE_QUOTA 0, 1)] (withQ []), ready_of (by decide +kernel), by decide +kernel⟩,
   ⟨go .sc [0, 0, 0, 0], 0, 0, 0, withHub { state := .counting, scope := 1 }, ready_of (by decide +kernel), by decide +kernel⟩,
   ⟨go .sc [63, 3], 63, 3, up, ready_of (by decide +kernel), by decide +kernel⟩,
   ⟨go .sc [63], 63, up, ready_of (by decide +kernel), by decide +kernel⟩,
   ⟨go .sc ([0, 63] ++ List.replicate 16 0), 0, 63, up, ready_of (by decide +kernel), by decide +kernel⟩,
   ⟨0, 0, ⟨0x13, 0, false, false, []⟩, withMail .sc ⟨0x13, 0, false, false, []⟩ (onSync (fun y => { y with clear := some { ctx := 0, box := 0 } }) up), by decide +kernel⟩,
   ⟨go .sc [1, 1, 0xFF, 0x3F, 0], 16383, up, ready_of (by decide +kernel), by decide +kernel⟩,
   ⟨go .sc [63, 0, 0, 16], 63, 4096, up, ready_of (by decide +kernel), by decide +kernel⟩,
   ⟨go .sc [0], up, ready_of (by decide +kernel), by decide +kernel⟩,
   ⟨go .sc [1, 0], 0, 0, { hostWaits := [(0, 0)] }, withHub { hostWaits := [(0, 0)] }, ready_of (by decide +kernel), by decide +kernel⟩,
   ⟨0, 0, poke .sc [(Rg.MON_MON_EN, 1)] (onSync (fun y => { y with mon := [(0, { stalled := some 0 })] }) up), by decide +kernel⟩,
   ⟨go .sc [63], 63, up, _, _, ready_of (by decide +kernel), by decide +kernel, by decide +kernel, by decide +kernel, rfl, rfl⟩,
   ⟨go .sc ([0, 63] ++ List.replicate 16 0), 0, 63, up, _, _, ready_of (by decide +kernel), by decide +kernel, by decide +kernel, by decide +kernel, by decide +kernel, by decide +kernel, by decide +kernel, rfl, rfl, by decide +kernel⟩⟩

/-- States that meet the hypotheses of `Obligations.HostTakesPart`, clause by clause. -/
theorem witness_HostTakesPart :
    (∃ (req i : Nat) (s : State), s.mayWrite .sc req 0x4804 0 = true ∧ EmuOpen .sc 0x4804 s ∧ s.get .sc Rg.HST_RES_BUSY = 0 ∧ s.get .sc Rg.HST_ARR_EP_AUTO = 1 ∧ s.handle (s.get .sc Rg.HST_ARR_CTX) (s.get .sc Rg.HST_ARR_HANDLE) = some (.hub i) ∧ (s.slotAt (.hub i)).state = .counting ∧ (s.slotAt (.hub i)).local_ = true ∧ (s.slotAt (.hub i)).scope = 1 ∧ bit (s.slotAt (.hub i)).part 128 = true ∧ bit (s.slotAt (.hub i)).arr 128 = false ∧ popCount 129 (setBit (s.slotAt (.hub i)).arr 128) ≠ (s.slotAt (.hub i)).headcount)
    ∧ (∃ (req epoch i : Nat) (s : State), epoch < 65536 ∧ s.mayWrite .sc req 0x4814 epoch = true ∧ EmuOpen .sc 0x4814 s ∧ s.get .sc Rg.HST_ARM_EP_AUTO = 0 ∧ s.handle (s.get .sc Rg.HST_ARM_CTX) (s.get .sc Rg.HST_ARM_HANDLE) = some (.hub i) ∧ (∀ e ∈ s.die.sync.slots, SMap.find (s.get .sc Rg.HST_ARM_ENTRY) e.2.hostWaits = none) ∧ (s.slotAt (.hub i)).waitFor epoch = none)
    ∧ (∃ (req c i : Nat) (s : State), c < 64 ∧ i < 32 ∧ s.mayWrite .sc req (0x4C00 + 16 * c) (2 ^ i) = true ∧ s.boundQueues c = [])
    ∧ (∃ (req c v : Nat) (s : State), c < 64 ∧ v < 2 ^ 32 ∧ s.mayWrite .sc req (0x4C08 + 16 * c) v = true)
    ∧ (∃ (req i : Nat) (s : State), s.mayWrite .sc req 0x5820 1 = true ∧ s.get .sc Rg.BCR_SCOPE = 1 ∧ s.get .sc Rg.BCR_CTX < 64 ∧ (s.createOk { ctx := s.get .sc Rg.BCR_CTX, handle := s.get .sc Rg.BCR_HANDLE, scope := 1, headcount := s.get .sc Rg.BCR_HEADCOUNT, station := s.get .sc Rg.BCR_STATION, part := (List.range 4).foldl (fun a i => a + s.get .sc (Rg.BCR_QMASK i) * 2 ^ (32 * i)) 0 + s.get .sc Rg.BCR_HOST * 2 ^ 128 } = true) ∧ s.handle (s.get .sc Rg.BCR_CTX) (s.get .sc Rg.BCR_HANDLE) = none ∧ s.get .sc (Rg.CTX_HANDLES_USED (s.get .sc Rg.BCR_CTX)) < s.get .sc (Rg.CTX_HANDLE_QUOTA (s.get .sc Rg.BCR_CTX)) ∧ firstFresh s.die.sync.slots 16384 0 = some i)
    ∧ (∃ (req i : Nat) (s : State), s.mayWrite .sc req 0x5820 2 = true ∧ s.handle (s.get .sc Rg.BCR_CTX) (s.get .sc Rg.BCR_HANDLE) = some (.hub i) ∧ (s.slotAt (.hub i)).ctx = s.get .sc Rg.BCR_CTX ∧ (s.slotAt (.hub i)).handle = s.get .sc Rg.BCR_HANDLE ∧ (s.slotAt (.hub i)).scope = 1 ∧ (s.slotAt (.hub i)).waits = [] ∧ (s.slotAt (.hub i)).hostWaits = [] ∧ s.die.pay.descs = [] ∧ s.die.pay.held = []) :=
  ⟨⟨0, 0, poke .sc [(Rg.HST_ARR_EP_AUTO, 1)] (withHub { state := .counting, scope := 1, part := 2 ^ 128 + 1, headcount := 2 }), by decide +kernel, emuOpen_of (by decide +kernel), by decide +kernel⟩,
   ⟨0, 1, 0, poke .sc [(Rg.HST_ARM_EP_AUTO, 0)] (withHub { state := .counting }), by decide +kernel, by decide +kernel, emuOpen_of (by decide +kernel), by decide +kernel⟩,
   ⟨0, 63, 31, up, by decide +kernel⟩,
   ⟨0, 63, 2 ^ 32 - 1, up, by decide +kernel⟩,
   ⟨0, 0, poke .sc [(Rg.BCR_SCOPE, 1), (Rg.BCR_HEADCOUNT, 1), (Rg.BCR_QMASK 0, 1), (Rg.CTX_HANDLE_QUOTA 0, 1)] (withQ []), by decide +kernel⟩,
   ⟨0, 0, withHub { state := .counting, scope := 1 }, by decide +kernel⟩⟩

/-- States that meet the hypotheses of `Obligations.PayloadAtTheDie`, clause by clause. -/
theorem witness_PayloadAtTheDie :
    (∃ (q i : Nat) (es : List Nat) (e : Machine.QEntry) (pre rest : List Machine.QEntry) (s : State), AtHead q pre e rest s ∧ e.op = 5 ∧ s.die.payload = true ∧ (s.queue q).fenced = true ∧ s.die.pay.descs = [] ∧ s.get .sc Rg.PD_PD_EN = 1 ∧ s.handle (s.get .sc (Rg.Q_CTX q)) (bits e.cmd 48 12) = some (.hub i) ∧ (s.slotAt (.hub i)).scope = 3 ∧ bit e.cmd 31 = false ∧ bits e.cmd 32 16 = (s.slotAt (.hub i)).e ∧ (s.slotAt (.hub i)).hasAcc = false ∧ (s.slotAt (.hub i)).earlyAcc = [])
    ∧ (∃ (i q : Nat) (d : Machine.Desc) (s : State), s.die.pay.descs = [d] ∧ d.reading = true ∧ d.reject = 0 ∧ d.ref = .hub i ∧ d.q = q ∧ q < 128 ∧ (readDesc (s.dieMem.readN (s.get .sc Rg.PD_BASE_LO * 4096 + 2 ^ 32 * s.get .sc Rg.PD_BASE_HI + 64 * d.idx) 64)).bad = false ∧ (readDesc (s.dieMem.readN (s.get .sc Rg.PD_BASE_LO * 4096 + 2 ^ 32 * s.get .sc Rg.PD_BASE_HI + 64 * d.idx) 64)).stray = false ∧ (readDesc (s.dieMem.readN (s.get .sc Rg.PD_BASE_LO * 4096 + 2 ^ 32 * s.get .sc Rg.PD_BASE_HI + 64 * d.idx) 64)).mask = 0 ∧ maskedOdd (readDesc (s.dieMem.readN (s.get .sc Rg.PD_BASE_LO * 4096 + 2 ^ 32 * s.get .sc Rg.PD_BASE_HI + 64 * d.idx) 64)).sum (if (readDesc (s.dieMem.readN (s.get .sc Rg.PD_BASE_LO * 4096 + 2 ^ 32 * s.get .sc Rg.PD_BASE_HI + 64 * d.idx) 64)).sum.op = 6 then [] else s.dieMem.elements (readDesc (s.dieMem.readN (s.get .sc Rg.PD_BASE_LO * 4096 + 2 ^ 32 * s.get .sc Rg.PD_BASE_HI + 64 * d.idx) 64)).src (srcWidth (readDesc (s.dieMem.readN (s.get .sc Rg.PD_BASE_LO * 4096 + 2 ^ 32 * s.get .sc Rg.PD_BASE_HI + 64 * d.idx) 64)).sum.op (readDesc (s.dieMem.readN (s.get .sc Rg.PD_BASE_LO * 4096 + 2 ^ 32 * s.get .sc Rg.PD_BASE_HI + 64 * d.idx) 64)).sum.fmt) (readDesc (s.dieMem.readN (s.get .sc Rg.PD_BASE_LO * 4096 + 2 ^ 32 * s.get .sc Rg.PD_BASE_HI + 64 * d.idx) 64)).sum.count) 0 = false ∧ (s.slotAt (.hub i)).state = .counting ∧ (s.slotAt (.hub i)).local_ = true ∧ (s.slotAt (.hub i)).scope = 3 ∧ bit (s.slotAt (.hub i)).part q = true ∧ bit (s.slotAt (.hub i)).arr q = false ∧ d.epoch = (s.slotAt (.hub i)).e ∧ popCount 129 (setBit (s.slotAt (.hub i)).arr q) ≠ (s.slotAt (.hub i)).headcount ∧ (s.slotAt (.hub i)).acc.isElem = false ∧ s.die.pkgIndex ≠ 0)
    ∧ (∃ (n job bucket seq epoch contrib hash flags c : Nat) (d : Machine.Desc) (s : State), job < 64 ∧ s.hallCtx job = some c ∧ s.die.pkgIndex ≠ 0 ∧ seq = (s.get .sc (Rg.SJH_CLOSE_SEQ job) + 1) % 2 ^ 32 ∧ (s.die.pay.descs.find? fun e => e.job == job && e.epoch == epoch && (e.reading || e.bucket == bucket)) = some d ∧ s.rxBody .sc n 2 job seq = none)
    ∧ (∃ (job seq : Nat) (c : Machine.CloseIn) (b : Body) (d : Machine.Desc) (s : State), s.die.pay.closes = [c] ∧ c.job = job ∧ c.seq = seq ∧ c.body = some b ∧ b.sum.op ≠ 7 ∧ s.die.pay.descs = [d] ∧ d.job = job ∧ d.bucket = c.bucket ∧ d.epoch = c.epoch ∧ d.reading = false ∧ d.dst ≠ 0 ∧ d.statusOk = true ∧ s.die.pay.held = [])
    ∧ (∃ (data keep : Nat) (s : State), s.die.checker = true ∧ s.die.running = true ∧ s.get .sc Rg.CHK_FINAL_VALID = 0 ∧ s.get .sc Rg.CHK_EXP_VALID = 0) :=
  ⟨⟨0, 0, [], ent 5 (2 ^ 32), [gone], [next], poke .sc [(Rg.PD_PD_EN, 1)] (withQ [gone, ent 5 (2 ^ 32), next] (withHub { scope := 3 })), atHead_of (by decide +kernel), by decide +kernel⟩,
   ⟨0, 0, desc, { onDie (fun d => { d with pkgIndex := 1, pay := { descs := [desc] } }) (withHub { state := .counting, scope := 3, part := 1, headcount := 2 }) with dieMem := [(4, 1)] }, by decide +kernel⟩,
   ⟨8, 0, 0, 1, 1, 0, 0, 0, 0, desc, poke .sc [(Rg.CTX_JOB_VALID 0, 1)] (onDie (fun d => { d with pkgIndex := 1, pay := { descs := [desc] } }) up), by decide +kernel⟩,
   ⟨0, 1, ⟨0, 1, 0, 1, 0, 0, 0, some {}, false⟩, {}, { desc with reading := false, dst := 8, statusOk := true }, onDie (fun d => { d with pay := { descs := [{ desc with reading := false, dst := 8, statusOk := true }], closes := [⟨0, 1, 0, 1, 0, 0, 0, some {}, false⟩] } }) up, by decide +kernel⟩,
   ⟨0, 0, up, by decide +kernel⟩⟩

/-- States that meet the hypotheses of `Obligations.HallSlotsCountAndDecide`, clause by clause. -/
theorem witness_HallSlotsCountAndDecide :
    (∃ (n job h gen epoch src ht32 k : Nat) (s : State), n < 64 ∧ s.peering = false ∧ s.jobHeld job = false ∧ s.rollInPort n src = true ∧ s.behind n h = false ∧ s.primarySrc n src = true ∧ s.resyncing n = false ∧ (s.slot h).state = .counting ∧ (s.slot h).gen = gen ∧ (s.slot h).job = job ∧ (s.slot h).payload = false ∧ (s.slot h).holding = false ∧ SMap.get 0 (s.participant job n) (s.job job).mcount ≠ 0 ∧ bit (s.slot h).wd (s.participant job n) = false ∧ epoch = (s.slot h).e ∧ bit (s.slot h).arr (s.participant job n) = false ∧ k < 64 ∧ k ≠ s.participant job n ∧ bit (s.counted h) k = true ∧ bit (s.slot h).arr k = false)
    ∧ (∃ (n job h gen epoch src ht32 k : Nat) (s : State), n < 64 ∧ s.peering = false ∧ s.jobHeld job = false ∧ s.rollInPort n src = true ∧ s.behind n h = false ∧ s.isActiveRoot = true ∧ (s.slot h).state = .counting ∧ (s.slot h).gen = gen ∧ (s.slot h).job = job ∧ (s.slot h).holding = false ∧ k < 64 ∧ k ≠ s.participant job n ∧ bit (s.counted h) k = true ∧ bit (s.slot h).arr k = false)
    ∧ (∃ (n job h epoch contrib hash flags : Nat) (s : State), s.isActiveRoot = false ∧ (s.slot h).state ≠ .free ∧ (s.slot h).job = job ∧ epoch = (s.slot h).e ∧ bit flags 2 = false ∧ (s.slot h).early = 0 ∧ s.dist.hall.bodyWait = [])
    ∧ (∃ (h : Nat) (s : State), s.isActiveRoot = true ∧ (s.slot h).policy = true ∧ (s.slot h).callSent = false ∧ (s.slot h).state = .counting)
    ∧ (∃ (h : Nat) (s : State), s.role = 3 ∧ (s.slot h).state = .called)
    ∧ (∃ (h : Nat) (s : State), s.isActiveRoot = true ∧ (s.slot h).callSent = true ∧ (s.slot h).paid = false ∧ (s.slot h).state = .called ∧ (s.slot h).contrib < (s.slot h).quorum)
    ∧ (∃ (h : Nat) (s : State), s.isActiveRoot = true ∧ (s.slot h).holding = false ∧ (s.slot h).hardBeat ≠ 0 ∧ (s.slot h).state = .counting ∧ (s.slot h).job < 64) :=
  ⟨⟨2, 0, 0, 0, 0, 65536, 0, 3, clk .fd (2 ^ 40) (withHSlot { state := .counting } (withJob { mcount := [(2, 1), (3, 1)] } root)), by decide +kernel⟩,
   ⟨2, 0, 0, 0, 0, 65536, 0, 3, clk .fd (2 ^ 40) (withHSlot { state := .counting } (withJob { mcount := [(2, 1), (3, 1)] } root)), by decide +kernel⟩,
   ⟨64, 0, 0, 0, 0, 0, 0, withHSlot { state := .counting } (role 4), by decide +kernel⟩,
   ⟨0, withHSlot { state := .counting, policy := true } root, by decide +kernel⟩,
   ⟨0, withHSlot { state := .called } (role 3), by decide +kernel⟩,
   ⟨0, withHSlot { state := .called, callSent := true, quorum := 1 } root, by decide +kernel⟩,
   ⟨0, withHSlot { state := .counting, hardBeat := 1, job := 63 } root, by decide +kernel⟩⟩

/-- States that meet the hypotheses of `Obligations.BellsLivenessMonitors`, clause by clause. -/
theorem witness_BellsLivenessMonitors :
    (∃ (m : MbGo) (j : Nat) (s : State), MbReady m 2 (some (m.argAt [1] 0)) 1 s ∧ m.part = .fd ∧ m.argAt [1] 0 = j ∧ s.isActiveRoot = true ∧ j < 64 ∧ s.get .fd (Rg.JH_CREATED j) = 1)
    ∧ (∃ (s : State), s.die.running = true ∧ s.die.pkgIndex = 0 ∧ s.beat .sc % 1024 = 0 ∧ SMap.find 3 s.sc.lastDone ≠ some (s.beat .sc) ∧ s.get .sc Rg.HT_JOINED = 1)
    ∧ (∃ (n src mask seq ht32 : Nat) (s : State), n < 64 ∧ s.role = 4 ∧ s.rollInPort n src = true)
    ∧ (∃ (n : Nat) (s : State), s.role = 4 ∧ n < 64 ∧ s.linkUp .fd n = true)
    ∧ (∃ (n job ctx src ht32 : Nat) (dead : Bool) (s : State), s.role = 4 ∧ (s.job job).installed = true)
    ∧ (∃ (n ps : Nat) (s : State), s.roleUp .fd 5 = true ∧ n < 64 ∧ s.isActiveRoot = false)
    ∧ (∃ (n src mask seq ht32 : Nat) (s : State), 64 ≤ n ∧ s.role = 4 ∧ s.rollInPort (portOf n src) src = true) :=
  ⟨⟨go .fd [63], 63, poke .fd [(Rg.JH_CREATED 63, 1)] root, ready_of (by decide +kernel), by decide +kernel⟩,
   ⟨up, by decide +kernel⟩,
   ⟨63, 511, 255, 0, 0, role 4, by decide +kernel⟩,
   ⟨63, poke .fd [(Rg.LINK_LSTATE 63, 3)] (role 4), by decide +kernel⟩,
   ⟨0, 0, 0, 0, 0, true, withJob { installed := true } (role 4), by decide +kernel⟩,
   ⟨63, 0, up, by decide +kernel⟩,
   ⟨64, 511, 255, 0, 0, role 4, by decide +kernel⟩⟩

/-- States that meet the hypotheses of `Obligations.HallWordsAtTheDie`, clause by clause. -/
theorem witness_HallWordsAtTheDie :
    (∃ (d h gen epoch src ht32 tag i : Nat) (s u : State), (s.takeDieWord (8 + d) { job := 0, hallwide := true, body := .arrive h gen epoch src ht32 false tag } = u) ∧ s.die.pkgIndex = 0 ∧ u.die.pkgIndex = 0 ∧ u.dieBehind (8 + d) h = false ∧ (u.wordSlot { job := 0, hallwide := true, body := .arrive h gen epoch src ht32 false tag } h gen = some (.hub i)) ∧ bit (u.slotAt (.hub i)).dieMask d = true ∧ (u.slotAt (.hub i)).state = .counting ∧ (u.slotAt (.hub i)).scope = 2 ∧ epoch = (u.slotAt (.hub i)).e ∧ bit (u.slotAt (.hub i)).dieArr d = false ∧ setBit (u.slotAt (.hub i)).dieArr d ≠ (u.slotAt (.hub i)).dieMask ∧ popCount 129 (u.slotAt (.hub i)).arr ≠ (u.slotAt (.hub i)).headcount)
    ∧ (∃ (d job h gen epoch src ht32 i : Nat) (hw : Bool) (s u : State), (s.takeDieWord (8 + d) { job := job, hallwide := hw, body := .withdraw h gen epoch src ht32 } = u) ∧ s.die.pkgIndex = 0 ∧ u.die.pkgIndex = 0 ∧ u.dieBehind (8 + d) h = false ∧ (u.wordSlot { job := job, hallwide := hw, body := .withdraw h gen epoch src ht32 } h gen = some (.hub i)) ∧ (u.slotAt (.hub i)).state = .counting ∧ 2 ≤ (u.slotAt (.hub i)).scope ∧ clearBit (u.slotAt (.hub i)).dieMask d ≠ 0 ∧ clearBit (u.slotAt (.hub i)).dieArr d ≠ clearBit (u.slotAt (.hub i)).dieMask d ∧ popCount 129 (u.slotAt (.hub i)).arr ≠ (u.slotAt (.hub i)).headcount)
    ∧ (∃ (n job h gen epoch contrib hash flags i : Nat) (s u : State), (s.takeDieWord n { job := job, body := .done h gen epoch contrib hash flags } = u) ∧ u.die.pkgIndex ≠ 0 ∧ (u.wordSlot { job := job, body := .done h gen epoch contrib hash flags } h gen = some (.hub i)) ∧ (u.slotAt (.hub i)).state = .counting ∧ (u.slotAt (.hub i)).scope = 3 ∧ epoch = (u.slotAt (.hub i)).e ∧ bit flags 5 = false ∧ u.die.pay.descs = [] ∧ u.die.pay.held = [] ∧ (u.slotAt (.hub i)).early = 0 ∧ (u.slotAt (.hub i)).earlyAcc = [] ∧ (u.slotAt (.hub i)).waits = [] ∧ (u.slotAt (.hub i)).hostWaits = [])
    ∧ (∃ (n job roll gen : Nat) (s : State), job < 64 ∧ s.die.pkgIndex ≠ 0 ∧ roll % 8 = s.die.pkgIndex)
    ∧ (∃ (n job roll h gen epoch i : Nat) (s : State), roll % 8 = s.die.pkgIndex ∧ (s.wordSlot { job := job, body := .stale roll h gen epoch 1 } h gen = some (.hub i)) ∧ (s.slotAt (.hub i)).waits = [] ∧ (s.slotAt (.hub i)).hostWaits = [] ∧ s.die.pay.descs = [] ∧ s.die.pay.held = [])
    ∧ (∃ (job : Nat) (b : Machine.DieBell) (s : State), job < 64 ∧ (s.die.sync.bells.find? fun x => x.word.job == job) = some b ∧ b.ht ≤ s.htNs .sc ∧ b.word.closeHwm = 0 ∧ b.word.floor ≤ 100 ∧ s.get .sc (Rg.SPWR_RECESS job) = 0)
    ∧ (∃ (n beat c : Nat) (w : Machine.BellWord) (s u : State), (s.takeDieWord n { job := w.job, body := .bell beat w } = u) ∧ w.job < 64 ∧ u.die.pkgIndex ≠ 0 ∧ s.hallCtx w.job = some c ∧ s.get .sc (Rg.SJH_BELL_VALID w.job) = 0 ∧ s.get .sc (Rg.SJH_MEMBER w.job) = 1 ∧ s.htNs .sc ≤ beat * 1024 ∧ u.bellSlots w.job = [] ∧ (∀ q, q < u.die.queues → (u.queue q).head = none)) :=
  ⟨⟨7, 0, 0, 1, 0, 0, 0, 0, withHub { state := .counting, scope := 2, dieMask := 192, headcount := 1 }, _, rfl, by decide +kernel⟩,
   ⟨7, 0, 0, 0, 1, 0, 0, 0, true, withHub { state := .counting, scope := 2, dieMask := 192, headcount := 1 }, _, rfl, by decide +kernel⟩,
   ⟨8, 0, 0, 0, 1, 0, 0, 0, 0, onDie (fun d => { d with pkgIndex := 1 }) (withHub { state := .counting, scope := 3 }), _, rfl, by decide +kernel⟩,
   ⟨8, 63, 1, 0, onDie (fun d => { d with pkgIndex := 1 }) up, by decide +kernel⟩,
   ⟨8, 0, 1, 0, 0, 1, 0, onDie (fun d => { d with pkgIndex := 1 }) (withHub { state := .counting, scope := 3 }), by decide +kernel⟩,
   ⟨63, { word := { bellNo := 1, job := 63, floor := 100 }, ht := 0 }, onSync (fun y => { y with bells := [{ word := { bellNo := 1, job := 63, floor := 100 }, ht := 0 }] }) up, by decide +kernel⟩,
   ⟨8, 0, 0, { bellNo := 1, job := 0 }, poke .sc [(Rg.CTX_JOB_VALID 0, 1), (Rg.SJH_MEMBER 0, 1)] (onDie (fun d => { d with pkgIndex := 1 }) up), _, rfl, by decide +kernel⟩⟩

/-- States that meet the hypotheses of `Obligations.HallJobsAndSlotsAtTheRoot`, clause by clause. -/
theorem witness_HallJobsAndSlotsAtTheRoot :
    (∃ (n : Nat) (a : Machine.SlotAttr) (s : State), s.roleUp .fd 2 = true ∧ 3 ≤ s.get .fd Rg.START_STAGE ∧ s.hallLive a.hslot a.gen = false)
    ∧ (∃ (h b : Nat) (w : Machine.MbWait) (s : State), b < 8 ∧ (s.mail .fd b).wait = some w ∧ s.mbWaiting .fd 0x20 = [b] ∧ w.args.getD 0 0 = h ∧ w.args.getD 1 0 = (s.slot h).gen ∧ (∀ e ∈ s.fd.links, e.2.tunnel = []))
    ∧ (∃ (m : MbGo) (j i : Nat) (a : Machine.SlotAttr) (s : State), MbReady m 2 (some (m.argAt [1, 1, 1, 1, 4, 2, 4] 0)) 16 s ∧ m.part = .fd ∧ s.isActiveRoot = true ∧ m.argAt [1, 1, 1, 1, 4, 2, 4] 0 = j ∧ j < 64 ∧ s.get .fd (Rg.JH_CREATED j) = 1 ∧ m.argAt [1, 1, 1, 1, 4, 2, 4] 1 ≤ 1 ∧ m.argAt [1, 1, 1, 1, 4, 2, 4] 2 = 0 ∧ m.argAt [1, 1, 1, 1, 4, 2, 4] 3 ≤ 1 ∧ (a = { hslot := i, gen := ((s.slot i).gen + 1) % 256, job := j, policy := m.argAt [1, 1, 1, 1, 4, 2, 4] 1 == 1, bell := false, payload := m.argAt [1, 1, 1, 1, 4, 2, 4] 3 == 1, deadlineNs := m.argAt [1, 1, 1, 1, 4, 2, 4] 4, hardMs := m.argAt [1, 1, 1, 1, 4, 2, 4] 5, quorum := m.argAt [1, 1, 1, 1, 4, 2, 4] 6 }) ∧ a.ok = true ∧ (s.jobSlots j).length + s.reservedCount j < (s.job j).hslotQuota ∧ s.dist.hall.neverUsed = i ∧ i < 1048576 ∧ (s.job j).memberPorts = 0)
    ∧ (∃ (m : MbGo) (h : Nat) (s : State), MbReady m 2 none 5 s ∧ m.part = .fd ∧ s.isActiveRoot = true ∧ m.argAt [4, 1] 0 = h ∧ m.argAt [4, 1] 1 = (s.slot h).gen ∧ (s.slot h).state ≠ .free)
    ∧ (∃ (m : MbGo) (h : Nat) (s : State), MbReady m 2 none 20 s ∧ m.part = .fd ∧ s.isActiveRoot = true ∧ m.argAt [4, 1, 4, 2, 4] 0 = h ∧ m.argAt [4, 1, 4, 2, 4] 1 = (s.slot h).gen ∧ (s.slot h).state ≠ .free ∧ m.args.length < 32 ∧ m.argAt [4, 1, 4, 2, 4] 4 ≤ 4194303 ∧ m.argAt [4, 1, 4, 2, 4] 3 ≤ 65535 ∧ (s.slot h).policy = false)
    ∧ (∃ (m : MbGo) (h : Nat) (s : State), MbReady m 2 none 6 s ∧ m.part = .fd ∧ s.isActiveRoot = true ∧ m.argAt [4, 1, 1] 0 = h ∧ m.argAt [4, 1, 1] 1 = (s.slot h).gen ∧ m.argAt [4, 1, 1] 2 = 0 ∧ (s.slot h).state = .unresolved ∧ (s.slot h).holding = false ∧ (s.slot h).paid = true ∧ (s.slot h).payload = false ∧ (s.slot h).bell = false ∧ (s.slot h).early = 0)
    ∧ (∃ (m : MbGo) (h : Nat) (s : State), MbReady m 2 none 4 s ∧ m.part = .fd ∧ m.argAt [4] 0 = h ∧ h < 1048576)
    ∧ (∃ (m : MbGo) (j : Nat) (s : State), MbReady m 2 (some (m.argAt [1] 0)) 1 s ∧ m.part = .fd ∧ s.isActiveRoot = true ∧ m.argAt [1] 0 = j ∧ j < 64)
    ∧ (∃ (m : MbGo) (j r : Nat) (s : State), MbReady m 2 (some (m.argAt [1, 4] 0)) 8 s ∧ m.part = .fd ∧ s.isActiveRoot = true ∧ m.argAt [1, 4] 0 = j ∧ m.argAt [1, 4] 1 = r ∧ j < 64)
    ∧ (∃ (m : MbGo) (s : State), MbReady m 2 (some (m.argAt [1] 0)) 1 s ∧ m.part = .fd ∧ s.isActiveRoot = true ∧ m.argAt [1] 0 < 64)
    ∧ (∃ (m : MbGo) (j : Nat) (s : State), MbReady m 2 (some (m.argAt [1, 4, 2, 4, 2] 0)) 18 s ∧ m.part = .fd ∧ s.isActiveRoot = true ∧ m.argAt [1, 4, 2, 4, 2] 0 = j ∧ j < 64 ∧ s.get .fd (Rg.JH_CREATED j) = 0 ∧ m.argAt [1, 4, 2, 4, 2] 1 ≤ 1048576 ∧ m.argAt [1, 4, 2, 4, 2] 2 ≤ 4096 ∧ m.argAt [1, 4, 2, 4, 2] 3 < 2 ^ 24 ∧ m.argAt [1, 4, 2, 4, 2] 4 ≠ 0 ∧ m.argAt [1, 4, 2, 4, 2] 4 ≤ 1024)
    ∧ (∃ (m : MbGo) (j : Nat) (s : State), MbReady m 2 (some (m.argAt [1] 0)) 1 s ∧ m.part = .fd ∧ s.isActiveRoot = true ∧ m.argAt [1] 0 = j ∧ j < 64 ∧ s.get .fd (Rg.JH_CREATED j) = 1 ∧ (s.job j).memberCount = 0 ∧ s.fd.tt.changes = [] ∧ s.jobSlots j = [] ∧ s.sbPages j = [])
    ∧ (∃ (j b : Nat) (s : State), (s.job j).ending = some b) :=
  ⟨⟨64, { hslot := 0, gen := 1, job := 0 }, up, by decide +kernel⟩,
   ⟨0, 0, ⟨0x20, 0, false, false, [0, 0]⟩, withMail .fd ⟨0x20, 0, false, false, [0, 0]⟩ up, by decide +kernel⟩,
   ⟨go .fd ([63] ++ List.replicate 15 0), 63, 0, { hslot := 0, gen := 1, job := 63, hardMs := 0 }, onHall (fun h => { h with jobs := [(63, { hslotQuota := 1 })] }) (poke .fd [(Rg.JH_CREATED 63, 1)] root), ready_of (by decide +kernel), by decide +kernel⟩,
   ⟨go .fd [0, 0, 0, 0, 0], 0, withHSlot { state := .counting } root, ready_of (by decide +kernel), by decide +kernel⟩,
   ⟨go .fd (List.replicate 20 0), 0, withHSlot { state := .counting } root, ready_of (by decide +kernel), by decide +kernel⟩,
   ⟨go .fd (List.replicate 6 0), 0, withHSlot { state := .unresolved, paid := true } root, ready_of (by decide +kernel), by decide +kernel⟩,
   ⟨go .fd [0xFF, 0xFF, 0x0F, 0], 1048575, up, ready_of (by decide +kernel), by decide +kernel⟩,
   ⟨go .fd [63], 63, root, ready_of (by decide +kernel), by decide +kernel⟩,
   ⟨go .fd [63, 0, 0, 0, 5, 0, 0, 0], 63, 5, root, ready_of (by decide +kernel), by decide +kernel⟩,
   ⟨go .fd [63], root, ready_of (by decide +kernel), by decide +kernel⟩,
   ⟨go .fd ([63] ++ List.replicate 15 0 ++ [0, 4]), 63, root, ready_of (by decide +kernel), by decide +kernel⟩,
   ⟨go .fd [63], 63, poke .fd [(Rg.JH_CREATED 63, 1)] root, ready_of (by decide +kernel), by decide +kernel⟩,
   ⟨63, 0, onHall (fun h => { h with jobs := [(63, { ending := some 0 })] }) up, by decide +kernel⟩⟩

/-- States that meet the hypotheses of `Obligations.StudBookPagesAndLogs`, clause by clause. -/
theorem witness_StudBookPagesAndLogs :
    (∃ (m : MbGo) (j first n : Nat) (s : State), MbReady m 2 (some (m.argAt [1, 2, 2] 0)) 6 s ∧ m.part = .fd ∧ s.dist.variant = .vxd2880 ∧ s.isActiveRoot = true ∧ m.argAt [1, 2, 2] 0 = j ∧ m.argAt [1, 2, 2] 1 = first ∧ m.argAt [1, 2, 2] 2 = n ∧ j < 64 ∧ s.get .fd (Rg.JH_CREATED j) = 1 ∧ first + n ≤ 4096 ∧ (s.sbPages j).length + n ≤ s.get .fd (Rg.JM_SB_QUOTA j) ∧ n ≤ ((List.range 4096).filter fun p => !s.dist.sb.used.contains p).length ∧ (∀ i < n, SMap.find (j * 4096 + first + i) s.dist.sb.pages = none))
    ∧ (∃ (m : MbGo) (j first n : Nat) (s : State), MbReady m 2 (some (m.argAt [1, 2, 2] 0)) 6 s ∧ m.part = .fd ∧ s.dist.variant = .vxd2880 ∧ s.isActiveRoot = true ∧ m.argAt [1, 2, 2] 0 = j ∧ m.argAt [1, 2, 2] 1 = first ∧ m.argAt [1, 2, 2] 2 = n ∧ j < 64 ∧ first + n ≤ 4096 ∧ (∀ i < n, SMap.find (j * 4096 + first + i) s.dist.sb.pages ≠ none))
    ∧ (∃ (key page at_ : Nat) (s : State), s.dist.sb.freeing = [(key, at_)] ∧ at_ < s.beat .fd ∧ SMap.find key s.dist.sb.pages = some page)
    ∧ (∃ (m : MbGo) (j n : Nat) (s : State), MbReady m 2 (some (m.argAt [1, 2] 0)) 4 s ∧ m.part = .fd ∧ s.dist.variant = .vxd2880 ∧ s.isActiveRoot = true ∧ m.argAt [1, 2] 0 = j ∧ m.argAt [1, 2] 1 = n ∧ j < 64 ∧ n ≤ 4096)
    ∧ (∃ (m : MbGo) (j b i : Nat) (s : State), MbReady m 2 (some (m.argAt [1, 4] 0)) 8 s ∧ m.part = .fd ∧ s.dist.variant = .vxd2880 ∧ s.isActiveRoot = true ∧ m.argAt [1, 4] 0 = j ∧ m.argAt [1, 4] 1 = b ∧ j < 64 ∧ b < 2 ^ 24 ∧ s.sbIndex j b = some i)
    ∧ (∃ (m : MbGo) (j first : Nat) (c : CloseEntry) (l : List CloseEntry) (s : State), MbReady m 2 (some (m.argAt [1, 4] 0)) 8 s ∧ m.part = .fd ∧ s.dist.variant = .vxd2880 ∧ s.isActiveRoot = true ∧ m.argAt [1, 4] 0 = j ∧ m.argAt [1, 4] 1 = first ∧ j < 64 ∧ laterThan 32 first (s.get .fd (Rg.JH_CLOSE_SEQ j)) = false ∧ (SMap.get [] j s.dist.sb.logs = c :: l) ∧ earlierThan 32 first c.seq = false)
    ∧ (∃ (s : State), s.get .fd Rg.SB_MIRROR_SYNC = 1) :=
  ⟨⟨go .fd [63, 0, 255, 15, 1, 0], 63, 4095, 1, poke .fd [(Rg.JH_CREATED 63, 1), (Rg.JM_SB_QUOTA 63, 1)] root, ready_of (by decide +kernel), by decide +kernel⟩,
   ⟨go .fd [63, 0, 255, 15, 1, 0], 63, 4095, 1, onDist (fun d => { d with sb := { pages := [(63 * 4096 + 4095, 0)] } }) root, ready_of (by decide +kernel), by decide +kernel⟩,
   ⟨0, 7, 0, clk .fd (2 ^ 40) (onDist (fun d => { d with sb := { pages := [(0, 7)], freeing := [(0, 0)] } }) up), by decide +kernel⟩,
   ⟨go .fd [63, 0, 0, 16], 63, 4096, root, ready_of (by decide +kernel), by decide +kernel⟩,
   ⟨go .fd [63, 0, 0, 0, 0, 0, 0, 0], 63, 0, 28672, onDist (fun d => { d with sb := { pages := [(63 * 4096, 7)] } }) root, ready_of (by decide +kernel), by decide +kernel⟩,
   ⟨go .fd [63, 0, 0, 0, 0, 0, 0, 0], 63, 0, ⟨0, 0, 63, 0, 0, 0, 0, 0, 0, 0, 0⟩, [], onDist (fun d => { d with sb := { logs := [(63, [⟨0, 0, 63, 0, 0, 0, 0, 0, 0, 0, 0⟩])] } }) root, ready_of (by decide +kernel), by decide +kernel⟩,
   ⟨poke .fd [(Rg.SB_MIRROR_SYNC, 1)] up, by decide +kernel⟩⟩

/-- States that meet the hypotheses of `Obligations.PayloadOnLinksAndPipes`, clause by clause. -/
theorem witness_PayloadOnLinksAndPipes :
    (∃ (p : Part) (n : Nat) (f : Fragment) (s : State), s.linkUp p n = true ∧ f.fkind = 1 ∧ f.gone = false ∧ s.parentEnd p n = true ∧ s.rxBody p n 1 f.job f.tag = none)
    ∧ (∃ (p : Part) (n fkind job tag : Nat) (r : RxBody) (s : State), s.rxBody p n fkind job tag = some r ∧ r.named = true ∧ r.requests = 0 ∧ r.lost = false ∧ r.whole = false ∧ r.dueBeat ≤ s.beat p)
    ∧ (∃ (p : Part) (n fkind job tag : Nat) (r : RxBody) (s : State), s.rxBody p n fkind job tag = some r ∧ 1 ≤ r.requests ∧ r.requests < 3 ∧ r.lost = false ∧ r.whole = false ∧ r.dueBeat ≤ s.beat p)
    ∧ (∃ (p : Part) (n job tag : Nat) (s : State), s.linkUp p n = true)
    ∧ (∃ (i : Nat) (c : Combine) (s : State), s.dist.spare.combines = [c] ∧ c.pipe = i ∧ c.fin = false ∧ c.second = false ∧ c.word = none ∧ s.dist.spare.forceMismatch = false)
    ∧ (∃ (h : Nat) (c : Combine) (o : Nat × Nat × Nat × Nat) (s : State), s.dist.spare.combines = [c] ∧ c.hslot = h ∧ c.fin = true ∧ c.done = some o ∧ s.dist.hall.bodyWait = [] ∧ (s.slot h).job < 64 ∧ (SMap.get [] (s.slot h).job s.dist.sb.logs).length < 65536)
    ∧ (∃ (n job bucket seq epoch contrib hash flags : Nat) (s : State), s.role = 4 ∧ (s.job job).installed = true ∧ s.rxBody .fd n 2 job seq = none)
    ∧ (∃ (m : MbGo) (i : Nat) (s : State), MbReady m 2 none 1 s ∧ m.part = .fd ∧ m.argAt [1] 0 = i ∧ i < 68)
    ∧ (∃ (m : MbGo) (s : State), MbReady m 0 none 0 s ∧ m.part = .sc ∧ s.die.payload = true) :=
  ⟨⟨.fd, 63, { fkind := 1, job := 0, tag := 0 }, poke .fd [(Rg.LINK_LSTATE 63, 3)] (role 4), by decide +kernel⟩,
   ⟨.fd, 5, 1, 0, 0, { fkind := 1, job := 0, tag := 0, named := true }, up.setLink .fd 5 { rxBodies := [{ fkind := 1, job := 0, tag := 0, named := true }] }, by decide +kernel⟩,
   ⟨.sc, 0, 2, 0, 0, { fkind := 2, job := 0, tag := 0, requests := 2 }, up.setLink .sc 0 { rxBodies := [{ fkind := 2, job := 0, tag := 0, requests := 2 }] }, by decide +kernel⟩,
   ⟨.fd, 63, 0, 0, poke .fd [(Rg.LINK_LSTATE 63, 3)] up, by decide +kernel⟩,
   ⟨67, { pipe := 67, hslot := 0, port := 0, body := {} }, onDist (fun d => { d with spare := { d.spare with combines := [{ pipe := 67, hslot := 0, port := 0, body := {} }] } }) up, by decide +kernel⟩,
   ⟨0, { pipe := 67, hslot := 0, port := 64, body := {}, fin := true, done := some (0, 0, 0, 0) }, (0, 0, 0, 0), onDist (fun d => { d with spare := { d.spare with combines := [{ pipe := 67, hslot := 0, port := 64, body := {}, fin := true, done := some (0, 0, 0, 0) }] } }) up, by decide +kernel⟩,
   ⟨64, 0, 0, 1, 0, 0, 0, 0, withJob { installed := true } (role 4), by decide +kernel⟩,
   ⟨go .fd [67], 67, up, ready_of (by decide +kernel), by decide +kernel⟩,
   ⟨go .sc [], up, ready_of (by decide +kernel), by decide +kernel⟩⟩

/-- States that meet the hypotheses of `Obligations.AttendanceTakesAndKeeps`, clause by clause. -/
theorem witness_AttendanceTakesAndKeeps :
    (∃ (n : Nat) (x : Machine.Rec) (s : State), x.kind ≠ 0xFE ∧ s.linkUp .sc n = true ∧ s.die.pkgIndex = 0 ∧ 9 ≤ n ∧ ((s.die.att.buf.foldl (fun (m : Nat) (e : Machine.Rec × Nat) => m + e.1.size) 0) + x.size ≤ dieBufCapacity))
    ∧ (∃ (b : Block) (s : State), s.dist.arch.cur = some b ∧ b.openNow + blockNs ≤ s.now ∧ s.dist.arch.ring.length < ringCapacity)
    ∧ (∃ (x : Machine.Rec) (at_ : Nat) (s : State), s.die.att.buf = [(x, at_)] ∧ at_ + 2 ^ 29 ≤ s.now ∧ x.size ≠ 0)
    ∧ (∃ (b : Block) (rest : List Block) (s : State), (s.dist.arch.spill = b :: rest) ∧ s.spillPaused = false ∧ s.dist.arch.capBlocks ≠ 0)
    ∧ (∃ (b : Nat) (s : State), s.dist.arch.ruleBeat = some b ∧ b + 1 ≤ s.beat .fd ∧ s.role = 4 ∧ s.get .fd Rg.START_STAGE = 3)
    ∧ (∃ (n : Nat) (r : RuleRec) (s : State), s.rulePort n = true ∧ s.die.pkgIndex ≠ 0)
    ∧ (∃ (s : State), s.die.att.coming.length = 32)
    ∧ (∃ (x : Machine.Rec) (at_ n : Nat) (l : List (Machine.Rec × Nat)) (s : State), (s.die.att.buf = (x, at_) :: l) ∧ at_ + 2 ^ 29 ≤ s.now ∧ x.size ≠ 0 ∧ ((s.die.att.buf.filter fun e => decide (e.2 + 2 ^ 29 ≤ s.now)).map fun e => e.1.size).sum = n) :=
  ⟨⟨9, { kind := 0x21 }, poke .sc [(Rg.LINK_LSTATE 9, 3)] up, by decide +kernel⟩,
   ⟨{}, at_ (2 ^ 28) (onDist (fun d => { d with arch := { d.arch with cur := some {} } }) up), by decide +kernel⟩,
   ⟨{ kind := 1 }, 0, at_ (2 ^ 29) (onDie (fun d => { d with att := { d.att with buf := [({ kind := 1 }, 0)] } }) up), by decide +kernel⟩,
   ⟨{}, [], onDist (fun d => { d with arch := { d.arch with spill := [{}], capBlocks := 1 } }) up, by decide +kernel⟩,
   ⟨0, clk .fd (2 ^ 26) (onDist (fun d => { d with arch := { d.arch with ruleBeat := some 0 } }) (role 4)), by decide +kernel⟩,
   ⟨8, ⟨31, true, 0, 0, 0, 0, 0, true, 0⟩, poke .sc [(Rg.LINK_LSTATE 8, 3)] (onDie (fun d => { d with pkgIndex := 1 }) up), by decide +kernel⟩,
   ⟨onDie (fun d => { d with att := { d.att with coming := (List.range 32).map fun i => (i, ⟨i, true, 0, 0, 0, 0, 0, true, 0⟩) } }) up, by decide +kernel⟩,
   ⟨{ kind := 1 }, 0, _, [], at_ (2 ^ 29) (onDie (fun d => { d with att := { d.att with buf := [({ kind := 1 }, 0)] } }) up), by decide +kernel, by decide +kernel, by decide +kernel, rfl⟩⟩

/-- States that meet the hypotheses of `Obligations.AttendanceReadsAndMemoryErrors`, clause by clause. -/
theorem witness_AttendanceReadsAndMemoryErrors :
    (∃ (b : Block) (s : State), s.get .fd Rg.ATT_WIN_BUSY = 1 ∧ s.archiveHas (s.get .fd Rg.ATT_WIN_SEQ) = false ∧ s.heldBlock (s.get .fd Rg.ATT_WIN_SEQ) = some b ∧ b.bad = false)
    ∧ (∃ (m : MbGo) (s : State), MbReady m 4 none 24 s ∧ m.part = .fd ∧ m.argAt [8, 1, 4, 8] 3 % 4096 = 0 ∧ 1 ≤ m.argAt [8, 1, 4, 8] 2 ∧ m.argAt [8, 1, 4, 8] 2 ≤ 65536 ∧ m.argAt [8, 1, 4, 8] 1 ≤ 1 ∧ (s.dmaSeqs (parseFields m.args 0 [8, 1, 4, 8])).any (fun q => s.archiveHas q) = false)
    ∧ (∃ (m : MbGo) (b : Block) (s : State), MbReady m 4 none 8 s ∧ m.part = .fd ∧ s.findBlock (m.argAt [8] 0) = some b)
    ∧ (∃ (m : MbGo) (j v : Nat) (s : State), MbReady m 4 (some (m.argAt [1, 4] 0)) 8 s ∧ m.part = .fd ∧ m.argAt [1, 4] 0 = j ∧ m.argAt [1, 4] 1 = v ∧ j < 64 ∧ v < 2 ^ 24)
    ∧ (∃ (m : MbGo) (b : Block) (s : State), MbReady m 4 none 0 s ∧ m.part = .fd ∧ s.dist.arch.cur = some b ∧ s.dist.arch.ring.length < ringCapacity)
    ∧ (∃ (unit row : Nat) (remap : Bool) (s : State), (SMap.get [] (memUnit true unit * 2 ^ 32 + row) s.dist.arch.rowCe).filter (fun t => decide (s.now < t + dayNs)) = [])
    ∧ (∃ (ch : Nat) (s : State), s.dist.variant = .vxd2880 ∧ ch < 16 ∧ bit (s.get .fd Rg.MEM_CH_PRESENT) ch = true ∧ bit (s.get .fd Rg.MEM_CH_FAILED) ch = false ∧ s.get .fd Rg.MEM_CH_FAILED < 2 ^ 16)
    ∧ (∃ (k : Nat) (s : State), k < 4 ∧ s.get .fd Rg.START_STAGE1_MET = 1 ∧ bit (s.get .fd Rg.ECC_STACK_OK) k = true ∧ s.get .fd Rg.ECC_STACK_OK < 16) :=
  ⟨⟨{}, poke .fd [(Rg.ATT_WIN_BUSY, 1)] (onDist (fun d => { d with arch := { d.arch with ring := [{}] } }) up), by decide +kernel⟩,
   ⟨go .fd ([0, 0, 0, 0, 0, 0, 0, 0, 0, 0, 0, 0, 1] ++ List.replicate 11 0), up, ready_of (by decide +kernel), by decide +kernel⟩,
   ⟨go .fd (List.replicate 8 0), {}, onDist (fun d => { d with arch := { d.arch with ring := [{}] } }) up, ready_of (by decide +kernel), by decide +kernel⟩,
   ⟨go .fd [63, 0, 0, 0, 255, 255, 255, 0], 63, 2 ^ 24 - 1, up, ready_of (by decide +kernel), by decide +kernel⟩,
   ⟨go .fd [], {}, onDist (fun d => { d with arch := { d.arch with cur := some {} } }) up, ready_of (by decide +kernel), by decide +kernel⟩,
   ⟨63, 0, true, up, by decide +kernel⟩,
   ⟨15, poke .fd [(Rg.MEM_CH_PRESENT, 2 ^ 15)] up, by decide +kernel⟩,
   ⟨3, poke .fd [(Rg.ECC_STACK_OK, 8)] up, by decide +kernel⟩⟩

/-- States that meet the hypotheses of `Obligations.TimetableAtTheRoot`, clause by clause. -/
theorem witness_TimetableAtTheRoot :
    (∃ (m : MbGo) (j at_ vb mask : Nat) (r : List Byte) (s : State), MbReady m 2 (some (m.argAt [1, 1, 1, 8, 2, 8, 4] 1)) 36 s ∧ m.part = .fd ∧ s.isActiveRoot = true ∧ parseFields m.args 0 [1, 1, 1, 8, 2, 8, 4] = [0, j, 1, at_, vb, 0, 16] ∧ j < 64 ∧ s.get .fd (Rg.JH_CREATED j) = 1 ∧ parseBody j (s.hostMem.readN 0 16) = some [(r, .drillMask mask)] ∧ r.length ≤ 65536 ∧ 8 ≤ vb ∧ vb ≤ 32767 ∧ at_ < 2 ^ 54 ∧ s.beat .fd + vb + s.lead + 1 ≤ at_ ∧ ((s.tt .fd).changes.filter fun c => c.state == 0).length < 64 ∧ (s.tt .fd).changes.length < 1024)
    ∧ (∃ (txn : Nat) (c : TtChg) (s : State), s.isActiveRoot = true ∧ ((s.tt .fd).changes.filter fun x => x.txn == txn) = [c] ∧ c.state = 0 ∧ s.turn c = true ∧ c.scope ≠ 0 ∧ c.sentNo = false ∧ s.get .fd Rg.START_STAGE = 3 ∧ (s.ttVoters .fd c).isEmpty = false ∧ minusMask 80 (maskOf 80 fun n => (s.ttVoters .fd c).contains n) c.yes ≠ 0 ∧ (s.ttReason .fd { c with state := 1, ports := maskOf 80 fun n => (s.ttVoters .fd c).contains n, prepBeat := s.beat .fd, vd := 0 } true = 0))
    ∧ (∃ (m : MbGo) (txn : Nat) (c : TtChg) (s : State), MbReady m 2 none 4 s ∧ m.part = .fd ∧ s.isActiveRoot = true ∧ m.argAt [4] 0 = txn ∧ txn ≠ 0 ∧ (s.tt .fd).lastTxn ≠ 0 ∧ laterThan 32 txn (s.tt .fd).lastTxn = false ∧ s.chg .fd txn = some c)
    ∧ (∃ (m : MbGo) (txn : Nat) (c : TtChg) (s : State), MbReady m 2 none 4 s ∧ m.part = .fd ∧ s.isActiveRoot = true ∧ m.argAt [4] 0 = txn ∧ txn ≠ 0 ∧ (s.tt .fd).lastTxn ≠ 0 ∧ laterThan 32 txn (s.tt .fd).lastTxn = false ∧ s.chg .fd txn = some c ∧ c.state < 3)
    ∧ (∃ (m : MbGo) (c : TtChg) (s : State), MbReady m 2 none 4 s ∧ m.part = .fd ∧ s.chg .fd (m.argAt [4] 0) = some c)
    ∧ (∃ (txn r : Nat) (c : TtChg) (s : State), s.isActiveRoot = true ∧ s.chg .fd txn = some c ∧ c.prepared = true ∧ c.sentNo = false ∧ s.ttReason .fd c false = r ∧ r ≠ 0 ∧ s.get .fd Rg.START_STAGE = 3)
    ∧ (∃ (txn n : Nat) (c : TtChg) (s : State), s.isActiveRoot = true ∧ s.chg .fd txn = some c ∧ c.state = 2 ∧ c.vd ≤ s.beat .fd ∧ c.silent = some n) :=
  ⟨⟨go .fd ([0, 63, 1, 0, 0, 0, 0, 0, 0xE8, 3, 0, 0, 0, 0, 0, 0, 8] ++ List.replicate 15 0 ++ [16, 0, 0, 0]), 63, 1000, 8, 5, [8, 0, 2, 0, 0, 0, 0, 0, 5, 0, 0, 0, 0, 0, 0, 0], { poke .fd [(Rg.JH_CREATED 63, 1)] root with hostMem := [(0, 8), (2, 2), (8, 5)] }, ready_of (by decide +kernel), by decide +kernel⟩,
   ⟨1, { txn := 1, scope := 2, hasBody := true, digest := digestOf (Config.sha384 []) }, withChg { txn := 1, scope := 2, hasBody := true, digest := digestOf (Config.sha384 []) } (poke .fd [(Rg.LINK_LSTATE 68, 3)] root), by decide +kernel, rfl, by decide +kernel, by decide +kernel, by decide +kernel, by decide +kernel, by decide +kernel, by decide +kernel, by decide +kernel, ttStart_reason rfl rfl rfl rfl rfl (by decide +kernel) (by decide +kernel) (by decide +kernel) (by decide +kernel) (by decide +kernel) (by decide +kernel)⟩,
   ⟨go .fd [1, 0, 0, 0], 1, { txn := 1 }, withChg { txn := 1 } root, ready_of (by decide +kernel), by decide +kernel⟩,
   ⟨go .fd [1, 0, 0, 0], 1, { txn := 1, state := 2 }, withChg { txn := 1, state := 2 } root, ready_of (by decide +kernel), by decide +kernel⟩,
   ⟨go .fd [1, 0, 0, 0], { txn := 1 }, withChg { txn := 1 } up, ready_of (by decide +kernel), by decide +kernel⟩,
   ⟨1, 1, { txn := 1, state := 1 }, onUnit .fd (fun u => { u with emerg := { u.emerg with conds := 1 } }) (withChg { txn := 1, state := 1 } root), by decide +kernel⟩,
   ⟨1, 63, { txn := 1, state := 2, ports := 2 ^ 63 }, withChg { txn := 1, state := 2, ports := 2 ^ 63 } root, by decide +kernel⟩⟩

/-- States that meet the hypotheses of `Obligations.TimetableAtUnits`, clause by clause. -/
theorem witness_TimetableAtUnits :
    (∃ (p : Part) (n txn job scope : Nat) (bytes : List Byte) (s : State), s.chg p txn = none)
    ∧ (∃ (n job : Nat) (txn atKind at_ voteBeats digest : Nat) (bytes : List Byte) (s : State), 66 ≤ n ∧ s.role = 4 ∧ s.chg .fd txn = none ∧ (s.tt .fd).bodies.find? (fun e => e.1 == txn) = some (txn, bytes) ∧ (s.tt .fd).changes.length < 1024)
    ∧ (∃ (p : Part) (n job : Nat) (hallwide : Bool) (txn src ht32 : Nat) (c : TtChg) (s : State), s.chg p txn = some c ∧ c.prepared = true ∧ bit c.ports n = true ∧ c.vote = none)
    ∧ (∃ (n job : Nat) (hallwide : Bool) (txn atKind at_ : Nat) (c : TtChg) (s : State), s.chg .fd txn = some c ∧ c.prepared = true ∧ c.atKind = 1 ∧ s.htNs .fd < c.at_ * 1024)
    ∧ (∃ (p : Part) (n job : Nat) (hallwide : Bool) (txn reason origin : Nat) (c : TtChg) (s : State), s.chg p txn = some c ∧ c.prepared = true)
    ∧ (∃ (txn mask : Nat) (c : TtChg) (s : State), (s.tt .fd).changes = [c] ∧ c.txn = txn ∧ c.state = 3 ∧ c.atKind = 1 ∧ c.at_ * 1024 ≤ s.htNs .fd ∧ c.acts = [.drillMask mask] ∧ c.members = [] ∧ c.scope = 0 ∧ c.job < 64) :=
  ⟨⟨.fd, 64, 1, 0, 0, [], up, by decide +kernel⟩,
   ⟨66, 0, 1, 0, 0, 8, 0, [], onUnit .fd (fun u => { u with tt := { u.tt with bodies := [(1, [])] } }) (role 4), by decide +kernel⟩,
   ⟨.fd, 63, 0, false, 1, 0, 0, { txn := 1, state := 1, ports := 2 ^ 63 }, withChg { txn := 1, state := 1, ports := 2 ^ 63 } up, by decide +kernel⟩,
   ⟨64, 0, false, 1, 1, 1, { txn := 1, state := 1, at_ := 1 }, withChg { txn := 1, state := 1, at_ := 1 } up, by decide +kernel⟩,
   ⟨.fd, 64, 0, false, 1, 1, 0, { txn := 1, state := 2 }, withChg { txn := 1, state := 2 } up, by decide +kernel⟩,
   ⟨1, 5, { txn := 1, state := 3, job := 63, bytes := [8, 0, 2, 0, 0, 0, 0, 0, 5, 0, 0, 0, 0, 0, 0, 0] }, withChg { txn := 1, state := 3, job := 63, bytes := [8, 0, 2, 0, 0, 0, 0, 0, 5, 0, 0, 0, 0, 0, 0, 0] } up, by decide +kernel⟩⟩

/-- States that meet the hypotheses of `Obligations.ShaperFloorsTelemetry`, clause by clause. -/
theorem witness_ShaperFloorsTelemetry :
    (∃ (temp : Int) (s : State), s.beat .fd % 1024 = 0 ∧ SMap.find 0 s.fd.lastDone ≠ some (s.beat .fd) ∧ bandOf s.dist.spare.band temp = s.dist.spare.band ∧ s.shaperUp = true ∧ s.get .fd Rg.PWR_UF_EN = 0 ∧ s.dist.power.cap ≤ 100)
    ∧ (∃ (b : Nat) (s : State), s.shaperUp = true ∧ s.beat .fd % 1024 = 0 ∧ s.dist.power.downAt = some b ∧ b ≤ s.beat .fd ∧ s.dist.power.capDown = true ∧ s.dist.power.cap ≤ 100)
    ∧ (∃ (h : Nat) (s u : State), s.isActiveRoot = true ∧ (s.slot h).holding = true ∧ (if s.rampDone (s.slot h).job = true then s.awaitHt .fd (max ((s.slot h).completeHt.getD 0) (s.bellSpaced (s.slot h).job).toNat) else s) = u ∧ (u.slot h).state = .counting ∧ (u.slot h).bell = true ∧ (u.slot h).payload = false ∧ (u.slot h).early = 0 ∧ u.countFull h = true ∧ u.shaperUp = true ∧ u.isActiveRoot = true ∧ u.mayComplete (u.slot h).job ((u.slot h).completeHt.getD (u.stretchedNeed (u.slot h).job)) = true ∧ (u.pj (u.slot h).job).holdSince = none)
    ∧ (∃ (n job level atBeat : Nat) (recess : Bool) (s : State), s.role = 4)
    ∧ (∃ (job level atBeat : Nat) (s : State), s.die.pwr.floors = [(job, level, false, atBeat)] ∧ atBeat ≤ s.beat .sc ∧ s.get .sc (Rg.SJH_MEMBER job) = 1)
    ∧ (∃ (j : Nat) (s : State), s.shaperOn = true ∧ j < 64 ∧ (s.pj j).floor ≠ none ∧ (∀ k < 64, (s.pj k).floor ≠ none → (s.pj k).floorSent + 65536 ≤ s.beat .fd))
    ∧ (∃ (mw : Nat) (s : State), s.die.running = true ∧ s.beat .sc % 1024 = 256 ∧ SMap.find 6 s.sc.lastDone ≠ some (s.beat .sc) ∧ s.die.pkgIndex = 0 ∧ mw < 2 ^ 22)
    ∧ (∃ (s : State), s.die.pkgIndex = 0 ∧ s.beat .sc % 1024 = 0 ∧ 1024 ≤ s.beat .sc ∧ SMap.find 5 s.sc.lastDone ≠ some (s.beat .sc))
    ∧ (∃ (f : Nat × Nat × Bool × Nat) (l : List (Nat × Nat × Bool × Nat)) (s : State), (s.die.pwr.floors = f :: l) ∧ f.2.2.2 ≤ s.beat .sc) :=
  ⟨⟨4499, poke .fd [(Rg.PWR_UF_EN, 0)] root, by decide +kernel⟩,
   ⟨0, onDist (fun d => { d with power := { d.power with downAt := some 0, capDown := true } }) root, by decide +kernel⟩,
   ⟨0, withHSlot { state := .counting, holding := true, bell := true, arr := 4 } (withJob { mcount := [(2, 1)] } root), _, by decide +kernel, by decide +kernel, rfl, by decide +kernel⟩,
   ⟨64, 0, 100, 0, true, role 4, by decide +kernel⟩,
   ⟨63, 100, 0, poke .sc [(Rg.SJH_MEMBER 63, 1)] (onDie (fun d => { d with pwr := { d.pwr with floors := [(63, 100, false, 0)] } }) up), by decide +kernel⟩,
   ⟨63, clk .fd (2 ^ 42) (onDist (fun d => { d with power := { d.power with jobs := [(63, { floor := some (50, false, 0) })] } }) root), by decide +kernel⟩,
   ⟨2 ^ 22 - 1, clk .sc (2 ^ 34) up, by decide +kernel⟩,
   ⟨clk .sc (2 ^ 36) up, by decide +kernel⟩,
   ⟨(63, 100, false, 0), [], onDie (fun d => { d with pwr := { d.pwr with floors := [(63, 100, false, 0)] } }) up, by decide +kernel⟩⟩

/-- States that meet the hypotheses of `Obligations.EmergenciesAndShaperCommands`, clause by clause. -/
theorem witness_EmergenciesAndShaperCommands :
    (∃ (temp : Int) (s : State), (s.unit .sc).emerg.conds = 0)
    ∧ (∃ (temp : Int) (s : State), (s.unit .sc).emerg.conds ≠ 0)
    ∧ (∃ (m : MbGo) (s : State), MbReady m 3 none 0 s ∧ m.part = .fd ∧ s.dist.variant = .vxd2880 ∧ s.isActiveRoot = true)
    ∧ (∃ (m : MbGo) (j : Nat) (s : State), (MbReady m 3 (some (m.argAt (1 :: List.replicate 16 1) 0)) 17 s) ∧ m.part = .fd ∧ s.dist.variant = .vxd2880 ∧ s.isActiveRoot = true ∧ (m.argAt (1 :: List.replicate 16 1) 0 = j) ∧ j < 64 ∧ s.get .fd (Rg.JH_CREATED j) = 1 ∧ cadenceOk ((m.args.drop 1).take 16) = true ∧ s.bellLive j = false)
    ∧ (∃ (m : MbGo) (j : Nat) (s : State), MbReady m 3 (some (m.argAt [1] 0)) 1 s ∧ m.part = .fd ∧ s.dist.variant = .vxd2880 ∧ s.isActiveRoot = true ∧ m.argAt [1] 0 = j ∧ j < 64 ∧ s.get .fd (Rg.JH_CREATED j) = 1 ∧ (s.pj j).recess = false)
    ∧ (∃ (m : MbGo) (j : Nat) (s : State), MbReady m 3 (some (m.argAt [1] 0)) 1 s ∧ m.part = .fd ∧ s.dist.variant = .vxd2880 ∧ s.isActiveRoot = true ∧ m.argAt [1] 0 = j ∧ j < 64 ∧ s.get .fd (Rg.JH_CREATED j) = 1 ∧ (s.pj j).recess = true) :=
  ⟨⟨9000, up, by decide +kernel⟩,
   ⟨0, onUnit .sc (fun u => { u with emerg := { u.emerg with conds := 1 } }) up, by decide +kernel⟩,
   ⟨go .fd [], root, ready_of (by decide +kernel), by decide +kernel⟩,
   ⟨go .fd [63, 0, 0, 0, 0, 0, 0, 0, 0, 10, 0, 0, 0, 0, 0, 0, 0], 63, poke .fd [(Rg.JH_CREATED 63, 1)] root, ready_of (by decide +kernel), by decide +kernel⟩,
   ⟨go .fd [63], 63, poke .fd [(Rg.JH_CREATED 63, 1)] root, ready_of (by decide +kernel), by decide +kernel⟩,
   ⟨go .fd [63], 63, onDist (fun d => { d with power := { d.power with jobs := [(63, { recess := true })] } }) (poke .fd [(Rg.JH_CREATED 63, 1)] root), ready_of (by decide +kernel), by decide +kernel⟩⟩

/-- States that meet the hypotheses of `Obligations.RootsReportAndChangeRoles`, clause by clause. -/
theorem witness_RootsReportAndChangeRoles :
    (∃ (s : State), s.role = 3 ∧ s.beat .fd % 64 = 0 ∧ SMap.find 7 s.fd.lastDone ≠ some (s.beat .fd) ∧ s.linkUp .fd 64 = true ∧ s.linkUp .fd 65 = true)
    ∧ (∃ (n u0 u1 l0 l1 q : Nat) (s : State), (s.role = 1 ∨ s.role = 2))
    ∧ (∃ (b : Nat) (s : State), s.role = 2 ∧ s.dist.hall.promoteAt = some b ∧ b < s.beat .fd ∧ s.dist.mirrorTt.changes = [] ∧ (∀ e ∈ s.dist.hall.jobs, e.1 < 64))
    ∧ (∃ (q : Nat) (s : State), s.isActiveRoot = true ∧ s.dist.hall.otherPromo = some q ∧ laterThan 8 (q % 256) (s.get .fd Rg.PROM_PROMO_SEQ) = true)
    ∧ (∃ (m : MbGo) (s : State), MbReady m 2 none 0 s ∧ m.part = .fd ∧ s.dist.variant = .vxd2880 ∧ s.role = 2 ∧ (∀ n, 68 ≤ n → n ≤ 71 → s.lstate .fd n ≠ 3)) :=
  ⟨⟨poke .fd [(Rg.LINK_LSTATE 64, 3), (Rg.LINK_LSTATE 65, 3)] (role 3), by decide +kernel⟩,
   ⟨63, 3, 3, 0, 0, 255, role 2, by decide +kernel⟩,
   ⟨0, clk .fd (2 ^ 26) (onHall (fun h => { h with promoteAt := some 0 }) (role 2)), by decide +kernel⟩,
   ⟨1, onHall (fun h => { h with otherPromo := some 1 }) root, by decide +kernel⟩,
   ⟨go .fd [], role 2, ready_of (by decide +kernel), by decide +kernel, by decide +kernel, by decide +kernel, fun n h1 h2 => (show n = 68 ∨ n = 69 ∨ n = 70 ∨ n = 71 by omega).elim (by rintro rfl; decide +kernel) fun h => h.elim (by rintro rfl; decide +kernel) fun h => h.elim (by rintro rfl; decide +kernel) (by rintro rfl; decide +kernel)⟩⟩

/-- States that meet the hypotheses of `Obligations.DrillsAndSelfTests`, clause by clause. -/
theorem witness_DrillsAndSelfTests :
    (∃ (target : Nat) (other idle pe : Bool) (s : State), s.role = 4 ∧ s.get .fd Rg.DRL_DRILL_EN = 1 ∧ s.nextDrill target other idle = some 3)
    ∧ (∃ (target : Nat) (other idle : Bool) (s : State), s.role = 4 ∧ s.get .fd Rg.DRL_DRILL_EN = 1 ∧ s.nextDrill target other idle = none)
    ∧ (∃ (d : Drill) (seen : Bool) (s : State), s.dist.spare.running = some d ∧ s.drillGates = true ∧ s.drillPasses d seen = true)
    ∧ (∃ (d : Drill) (seen : Bool) (s : State), s.dist.spare.running = some d)
    ∧ (∃ (m : MbGo) (target : Nat) (other : Bool) (s : State), MbReady m 4 none 8 s ∧ m.part = .fd ∧ m.argAt [1, 4] 0 = 3 ∧ m.argAt [1, 4] 1 = target ∧ s.drillGates = true ∧ s.roleUp .fd 4 = true ∧ s.dist.spare.running = none ∧ (∀ j < 64, s.get .fd (Rg.JH_MEMBERS j) ≠ 0 → bit (s.get .fd (Rg.JD_CONSENT j)) 3 = true) ∧ s.role = 4 ∧ 2 ≤ s.usablePipes.length)
    ∧ (∃ (m : MbGo) (s : State), MbReady m (if m.part = .fd then 4 else 0) none 0 s)
    ∧ (∃ (m : MbGo) (k i : Nat) (s : State), MbReady m (if m.part = .fd then 4 else 1) none 2 s ∧ m.argAt [1, 1] 0 = k ∧ m.argAt [1, 1] 1 = i ∧ k ≤ 2 ∧ i < s.testUnits m.part k)
    ∧ (∃ (p : Part) (i : Nat) (s : State), SMap.find 1 (s.unit p).tests = some i ∧ i < s.testUnits p 1 ∧ s.get p (Rg.LINK_SPARE_MAP (sparePos p i)) = 127)
    ∧ (∃ (m : MbGo) (i : Nat) (s : State), MbReady m 0 none 1 s ∧ m.argAt [1] 0 = i) :=
  ⟨⟨0, false, true, false, poke .fd [(Rg.DRL_DRILL_EN, 1)] (role 4), by decide +kernel⟩,
   ⟨0, false, false, poke .fd [(Rg.DRL_DRILL_EN, 1)] (role 4), by decide +kernel⟩,
   ⟨⟨0, 63, 0, 0⟩, true, poke .fd [(Rg.DRL_DRILL_EN, 1), (Rg.LINK_LSTATE 63, 3)] (onDist (fun d => { d with spare := { d.spare with running := some ⟨0, 63, 0, 0⟩ } }) (role 4)), by decide +kernel⟩,
   ⟨⟨0, 63, 0, 0⟩, false, onDist (fun d => { d with spare := { d.spare with running := some ⟨0, 63, 0, 0⟩ } }) up, by decide +kernel⟩,
   ⟨go .fd [3, 0, 0, 0, 0, 0, 0, 0], 0, false, poke .fd [(Rg.DRL_DRILL_EN, 1)] (role 4), ready_of (by decide +kernel), by decide +kernel⟩,
   ⟨go .sc [], up, ready_of (by decide +kernel)⟩,
   ⟨go .fd [2, 32], 2, 32, up, ready_of (by decide +kernel), by decide +kernel⟩,
   ⟨.fd, 7, poke .fd [(Rg.LINK_SPARE_MAP 79, 127)] (onUnit .fd (fun u => { u with tests := [(1, 7)] }) up), by decide +kernel⟩,
   ⟨go .sc [3], 3, up, ready_of (by decide +kernel), by decide +kernel⟩⟩

/-- States that meet the hypotheses of `Obligations.FaultTableAndReportCard`, clause by clause. -/
theorem witness_FaultTableAndReportCard :
    (∃ (m : MbGo) (i b : Nat) (s : State), MbReady m 2 none 2 s ∧ m.part = .fd ∧ m.argAt [1, 1] 0 = i ∧ m.argAt [1, 1] 1 = b ∧ i < 68)
    ∧ (∃ (b : Nat) (s : State), s.dist.spare.tableDirty = some b ∧ s.get .fd Rg.SUP_GUARD = 0)
    ∧ (∃ (s : State), s.role = 4 ∧ s.beat .fd % 1024 = 0 ∧ SMap.find 4 s.fd.lastDone ≠ some (s.beat .fd) ∧ s.linkUp .fd 64 = true)
    ∧ (∃ (j : Nat) (s : State), s.isActiveRoot = true ∧ s.beat .fd % 1024 = 0 ∧ SMap.find 4 s.fd.lastDone ≠ some (s.beat .fd) ∧ j < 64 ∧ s.get .fd (Rg.JH_CREATED j) = 1)
    ∧ (∃ (m : MbGo) (j : Nat) (s : State), MbReady m 4 (some (m.argAt [1] 0)) 1 s ∧ m.part = .fd ∧ s.isActiveRoot = true ∧ m.argAt [1] 0 = j ∧ j < 64)
    ∧ (∃ (m : MbGo) (j : Nat) (s : State), MbReady m 4 (some (m.argAt [1] 0)) 1 s ∧ m.part = .fd ∧ s.isActiveRoot = true ∧ m.argAt [1] 0 = j ∧ j < 64) :=
  ⟨⟨go .fd [67, 7], 67, 7, up, ready_of (by decide +kernel), by decide +kernel⟩,
   ⟨0, onDist (fun d => { d with spare := { d.spare with tableDirty := some 0 } }) up, by decide +kernel⟩,
   ⟨poke .fd [(Rg.LINK_LSTATE 64, 3)] (role 4), by decide +kernel⟩,
   ⟨63, poke .fd [(Rg.JH_CREATED 63, 1)] root, by decide +kernel⟩,
   ⟨go .fd [63], 63, root, ready_of (by decide +kernel), by decide +kernel⟩,
   ⟨go .fd [63], 63, root, ready_of (by decide +kernel), by decide +kernel⟩⟩

theorem witness_IdleStepPassesTime :
    ∃ (s : State), s.pending = [] :=
  ⟨State.reset, by decide +kernel⟩

theorem witness_StepsKeepMemoriesCanonical :
    ∃ (s t : State), MemOk s = true ∧ step s = .next t :=
  ⟨up, _, by decide +kernel, rfl⟩

theorem witness_PartsActApart :
    ∃ (i : Instr) (p : Part) (s t : State), i.partOf = some p ∧ exec i s = .next t :=
  ⟨.trstNAssert .fd, .fd, up, up, by decide +kernel, rfl⟩

theorem witness_MemoryKeepsStoredBytes :
    ∃ (a : Nat) (bs : List Byte) (m : Memory), Memory.wf m = true :=
  ⟨0, [0], [], by decide +kernel⟩

theorem witness_SerialNumbersCompare :
    ∃ (w a b : Nat), 1 ≤ w ∧ w ≤ 63 :=
  ⟨1, 0, 1, by decide +kernel⟩

/-- States that meet the hypotheses of `Obligations.HallTimeInMemory`, clause by clause. -/
theorem witness_HallTimeInMemory :
    (∃ (ht stat : Nat), ht < 2 ^ 80 ∧ stat < 2 ^ 16)
    ∧ (∃ (q : Nat) (es : List Nat) (e : QEntry) (pre rest : List QEntry) (s : State), AtHead q pre e rest s ∧ e.op = 10) :=
  ⟨⟨2 ^ 80 - 1, 2 ^ 16 - 1, by decide +kernel⟩,
   ⟨0, [], ent 10, [gone], [next], withQ [gone, ent 10, next], atHead_of (by decide +kernel), by decide +kernel⟩⟩

/-- States that meet the hypotheses of `Obligations.WrongWordsCountInBadWord`, clause by clause. -/
theorem witness_WrongWordsCountInBadWord :
    (∃ (p : Part) (n : Nat) (x : CtlSlot) (s : State), x.crcOk = false)
    ∧ (∃ (p : Part) (n : Nat) (x : CtlSlot) (s : State), x.crcOk = true ∧ x.lseq = (s.link p n).rxNext ∧ ((∃ k, x.word.body = .undefined k) ∨ ∃ up, x.word.body.up = some up ∧ ¬ (p = .fd ∧ 68 ≤ n ∧ n ≤ 71) ∧ up ≠ s.parentEnd p n)) :=
  ⟨⟨.fd, 0, ⟨0, false, ⟨0, false, .undefined 0⟩⟩, up, by decide +kernel⟩,
   ⟨.fd, 0, ⟨0, true, ⟨0, false, .undefined 0⟩⟩, up, by decide +kernel, by decide +kernel, Or.inl ⟨0, rfl⟩⟩⟩

/-- States that meet the hypotheses of `Obligations.ReservedBitsAndEncodings`, clause by clause. -/
theorem witness_ReservedBitsAndEncodings :
    (∃ (r : RegRow) (n : Nat) (p : Part) (i : Nat) (s : State), r ∈ regRows ∧ i < 32 ∧ bit (reservedBits (r.fields n)) i = true)
    ∧ (∃ (r : RegRow) (n : Nat) (p : Part) (v : Nat) (only : Field → Bool) (s : State), r ∈ regRows ∧ (∃ i < 32, bit v i = true ∧ bit (reservedBits (r.fields n)) i = true))
    ∧ (∃ (r : RegRow) (n : Nat) (f : Field) (p : Part) (v : Nat) (only : Field → Bool) (s : State), r ∈ regRows ∧ f ∈ r.fields n ∧ f.acc = .rw ∧ only f = true) :=
  ⟨⟨regRows[7]'(by decide +kernel), 0, .fd, 31, up, List.getElem_mem _, by decide +kernel⟩,
   ⟨regRows[7]'(by decide +kernel), 0, .fd, 2 ^ 31, fun _ => true, up, List.getElem_mem _, ⟨31, by decide +kernel⟩⟩,
   ⟨regRows[7]'(by decide +kernel), 0, Rg.ALERT_EN_EN, .fd, 0, fun _ => true, up, List.getElem_mem _, by decide +kernel⟩⟩

/-- States that meet the hypotheses of `Obligations.UnoccupiedOffsets`, clause by clause. -/
theorem witness_UnoccupiedOffsets :
    (∃ (p : Part) (off : Nat) (s : State), s.regPresent p off = false)
    ∧ (∃ (p : Part) (req off v : Nat) (s : State), s.regAt p off = none ∧ off ≠ 0x100 ∧ off ≠ 0x104 ∧ off ≠ 0x108 ∧ ¬ (0x7800 ≤ off ∧ off < 0x8800) ∧ off ≠ 0xA100) :=
  ⟨⟨.fd, 0x1000, onDist (fun d => { d with variant := .vxd2840 }) up, by decide +kernel⟩,
   ⟨.fd, 0, 0xFFFC, 1, up, by decide +kernel⟩⟩

/-- States that meet the hypotheses of `Obligations.MailboxGateAnswers`, clause by clause. -/
theorem witness_MailboxGateAnswers :
    (∃ (m : MbGo) (code : Nat) (owner : Option Nat) (sig : List Nat) (jobArg : Option Nat) (body : List Nat → State → MbOut × State) (s : State), s.get m.part (Rg.MB_OWNED m.box) = 1)
    ∧ (∃ (m : MbGo) (code : Nat) (owner : Option Nat) (sig : List Nat) (jobArg : Option Nat) (body : List Nat → State → MbOut × State) (s : State), m.box < 8 ∧ s.get m.part (Rg.MB_OWNED m.box) = 0 ∧ (s.unit m.part).fw.activating ≠ none)
    ∧ (∃ (m : MbGo) (code : Nat) (o : Nat) (sig : List Nat) (jobArg : Option Nat) (body : List Nat → State → MbOut × State) (s : State), m.box < 8 ∧ s.get m.part (Rg.MB_OWNED m.box) = 0 ∧ (s.unit m.part).fw.activating = none ∧ (m.part = .sc → s.die.sync.clear = none) ∧ (s.roleUp m.part 0 = false ∨ s.roleUp m.part o = false))
    ∧ (∃ (m : MbGo) (code : Nat) (o : Nat) (sig : List Nat) (body : List Nat → State → MbOut × State) (s : State), m.box < 8 ∧ s.get m.part (Rg.MB_OWNED m.box) = 0 ∧ (s.unit m.part).fw.activating = none ∧ (m.part = .sc → s.die.sync.clear = none) ∧ s.roleUp m.part 0 = true ∧ s.roleUp m.part o = true ∧ s.cls m.part m.req ≠ .admin)
    ∧ (∃ (m : MbGo) (code : Nat) (o : Nat) (sig : List Nat) (jobArg : Option Nat) (body : List Nat → State → MbOut × State) (s : State), m.box < 8 ∧ s.get m.part (Rg.MB_OWNED m.box) = 0 ∧ (s.unit m.part).fw.activating = none ∧ (m.part = .sc → s.die.sync.clear = none) ∧ s.roleUp m.part 0 = true ∧ s.roleUp m.part o = true ∧ s.cls m.part m.req = .admin ∧ m.args.length < layoutEnd 0 sig) :=
  ⟨⟨go .fd [], 0, none, [], none, fun _ t => (.ok [], t), poke .fd [(Rg.MB_OWNED 0, 1)] up, by decide +kernel⟩,
   ⟨go .fd [], 0, none, [], none, fun _ t => (.ok [], t), onFw .fd (fun f => { f with activating := some 0 }) up, by decide +kernel⟩,
   ⟨go .fd [], 0, 6, [], none, fun _ t => (.ok [], t), up, by decide +kernel⟩,
   ⟨go .fd [], 0, 1, [], fun _ t => (.ok [], t), poke .fd [(Rg.LOAD_CONFIG_LOADED, 1)] (onFw .fd (fun f => { f with config := some { fields := [(imgTokenEn, 1)] } }) up), by decide +kernel⟩,
   ⟨go .fd [], 0, 1, [8], none, fun _ t => (.ok [], t), up, by decide +kernel⟩⟩

theorem witness_RegisterMapIsUnambiguous :
    ∃ (r : RegRow) (n : Nat), r ∈ regRows :=
  ⟨regRows[7]'(by decide +kernel), 0, List.getElem_mem _⟩

theorem witness_CommandsThatStoreNothingLeaveMemory :
    ∃ (i : Instr) (s t : State), i.mayStore = false ∧ exec i s = .next t :=
  ⟨.queueCmdAccept 0 5, withQ [], _, by decide +kernel, rfl⟩

end Slice0
end

/-! PROOFS. O37, O43 and O44: a command of one part leaves the other part, reserved bits and encodings, offsets without a register. -/

namespace Sys2Proof.Proofs

open Sys2Proof Sys2Proof.Machine Sys2Proof.Cmds

/-! Parts (R1, R16, R359, R419). -/

/-- What a command of one part keeps, by the law of its meaning: all of the other part, and both memories where it may not store. The commands that the
list leaves to its last line have no part of their own: they wait for their moment, and time moves both parts. -/
theorem exec_acts_of_partOf {p : Part} (i : Instr) (s : State) : i.partOf = some p → ActsO p (!i.mayStore) s (exec i s) := by
  -- what the laws of the mailbox commands ask for: a list by DMA is all that they store
  have hd : (!i.mayStore) = true → i.mayStore = false := Bool.eq_false_of_not_eq_true'
  cases i with
  | powerGood => rintro ⟨⟩; exact execPowerGood_acts ..
  | stageAdvance => rintro ⟨⟩; exact execStageAdvance_acts ..
  | scResetRelease => rintro ⟨⟩; exact execScResetRelease_acts ..
  | perstNAssert => rintro ⟨⟩; exact execPerstNAssert_acts ..
  | trstNAssert => rintro ⟨⟩; exact execTrstNAssert_acts p s
  | supplyResetCrossing => rintro ⟨⟩; exact execSupplyResetCrossing_acts ..
  | supplyWarning => rintro ⟨⟩; exact execSupplyWarning_acts ..
  | ladderWake => rintro ⟨⟩; exact execLadderWake_acts ..
  | loadConfig => rintro ⟨⟩; exact execLoadConfig_acts ..
  | loadFirmware => rintro ⟨⟩; exact execLoadFirmware_acts ..
  | loadComplete => rintro ⟨⟩; exact execLoadComplete_acts ..
  | fwStage => rintro ⟨⟩; exact execFwStage_acts ..
  | fwActivate => rintro ⟨⟩; exact execFwActivate_acts ..
  | activationComplete p =>
    cases p with
    | fd => exact nofun
    | sc => rintro ⟨⟩; exact execActivationComplete_sc_acts ..
  | fwStatus => rintro ⟨⟩; exact execFwStatus_acts ..
  | prefectRestart => rintro ⟨⟩; exact execPrefectRestart_acts ..
  | tokenSet => rintro ⟨⟩; exact execTokenSet_acts ..
  | configRead => rintro ⟨⟩; exact execConfigRead_acts ..
  | fwUnstage => rintro ⟨⟩; exact execFwUnstage_acts ..
  | unknownCommand => rintro ⟨⟩; exact execUnknownCommand_acts ..
  | componentFault => rintro ⟨⟩; exact execComponentFault_acts ..
  | watchdogExpiry => rintro ⟨⟩; exact execWatchdogExpiry_acts ..
  | prefectFaultRestart => rintro ⟨⟩; exact execPrefectFaultRestart_acts ..
  | prefectRestartComplete p =>
    cases p with
    | fd => exact nofun
    | sc => rintro ⟨⟩; exact execPrefectRestartComplete_sc_acts ..
  | emulatedRead p =>
    cases p with
    | fd => exact nofun
    | sc => rintro ⟨⟩; exact execEmulatedRead_sc_acts ..
  | emulatedWrite p =>
    cases p with
    | fd => exact nofun
    | sc => rintro ⟨⟩; exact execEmulatedWrite_sc_acts ..
  | shadowTimeout p =>
    cases p with
    | fd => exact nofun
    | sc => rintro ⟨⟩; exact execShadowTimeout_sc_acts ..
  | counterReadClear p =>
    cases p with
    | fd => exact nofun
    | sc => rintro ⟨⟩; exact execCounterReadClear_sc_acts ..
  | tokenWrite p =>
    cases p with
    | fd => exact nofun
    | sc => rintro ⟨⟩; exact execTokenWrite_sc_acts ..
  | htSnapshotRead => rintro ⟨⟩; exact execHtSnapshotRead_acts ..
  | hallForm => rintro ⟨⟩; exact execHallForm_acts ..
  | holdoverBeat => rintro ⟨⟩; exact execHoldoverBeat_acts ..
  | temperatureRead => rintro ⟨⟩; exact execTemperatureRead_acts ..
  | modelLearn => rintro ⟨⟩; exact execModelLearn_acts ..
  | refAcceptCancel => rintro ⟨⟩; exact execRefAcceptCancel_acts ..
  | subtreeRejoin => rintro ⟨⟩; exact execSubtreeRejoin_acts ..
  | ptpExchange => rintro ⟨⟩; exact execPtpExchange_acts ..
  | wallRead => rintro ⟨⟩; exact execWallRead_acts ..
  | ppsOutPulse => rintro ⟨⟩; exact execPpsOutPulse_acts ..
  | bellOutPulse => rintro ⟨⟩; exact execBellOutPulse_acts ..
  | outRealign => rintro ⟨⟩; exact execOutRealign_acts ..
  | tdcEdge => rintro ⟨⟩; exact execTdcEdge_acts ..
  | tdcGapQueue => rintro ⟨⟩; exact execTdcGapQueue_acts ..
  | tdcGateEnd => rintro ⟨⟩; exact execTdcGateEnd_acts ..
  | tdcDma => rintro ⟨⟩; exact execTdcDma_acts ..
  | tdcRingSet => rintro ⟨⟩; exact execTdcRingSet_acts ..
  | tdcCalNow => rintro ⟨⟩; exact execTdcCalNow_acts ..
  | tdcCalRead => rintro ⟨⟩; exact execTdcCalRead_acts ..
  | tdcCalStart => rintro ⟨⟩; exact execTdcCalStart_acts ..
  | tdcCalTableDone => rintro ⟨⟩; exact execTdcCalTableDone_acts ..
  | mainsZcEdge => rintro ⟨⟩; exact execMainsZcEdge_acts ..
  | mainsLineEdge => rintro ⟨⟩; exact execMainsLineEdge_acts ..
  | lossOfSignal => rintro ⟨⟩; exact execLossOfSignal_acts ..
  | suspectClear => rintro ⟨⟩; exact execSuspectClear_acts ..
  | residueExceeded => rintro ⟨⟩; exact execResidueExceeded_acts ..
  | stepCoreHoldoverReturn => rintro ⟨⟩; exact execStepCoreHoldoverReturn_acts ..
  | linkSwap => rintro ⟨⟩; exact execLinkSwap_acts ..
  | linkReset => rintro ⟨⟩; exact execLinkReset_acts ..
  | reflectRunEnd => rintro ⟨⟩; exact execReflectRunEnd_acts ..
  | spareReady => rintro ⟨⟩; exact execSpareReady_acts ..
  | heartbeatSend => rintro ⟨⟩; exact execHeartbeatSend_acts ..
  | heartbeatReceive => rintro ⟨⟩; exact execHeartbeatReceive_acts ..
  | heartbeatMissing => rintro ⟨⟩; exact execHeartbeatMissing_acts ..
  | regionClockMissing => rintro ⟨⟩; exact execRegionClockMissing_acts ..
  | strobeFire => rintro ⟨⟩; exact execStrobeFire_acts ..
  | strobeCfgWrite => rintro ⟨⟩; exact execStrobeCfgWrite_acts ..
  | strobeEnWrite => rintro ⟨⟩; exact execStrobeEnWrite_acts ..
  | oppEvaluate => rintro ⟨⟩; exact execOppEvaluate_acts ..
  | oppSwitch => rintro ⟨⟩; exact execOppSwitch_acts ..
  | oppCancel => rintro ⟨⟩; exact execOppCancel_acts ..
  | stationRead => rintro ⟨⟩; exact execStationRead_acts ..
  | oppReadyAssert => rintro ⟨⟩; exact execOppReadyAssert_acts ..
  | oppSelDrive => rintro ⟨⟩; exact execOppSelDrive_acts ..
  | queueCmdAccept => rintro ⟨⟩; exact execQueueCmdAccept_acts ..
  | nop => rintro ⟨⟩; exact execNop_acts ..
  | arrive => rintro ⟨⟩; exact execArrive_acts ..
  | wait => rintro ⟨⟩; exact execWait_acts ..
  | arriveWait => rintro ⟨⟩; exact execArriveWait_acts ..
  | fence => rintro ⟨⟩; exact execFence_acts ..
  | drainAck => rintro ⟨⟩; exact execDrainAck_acts ..
  | payloadArrive => rintro ⟨⟩; exact execPayloadArrive_acts ..
  | signalHost => rintro ⟨⟩; exact execSignalHost_acts ..
  | waitHost => rintro ⟨⟩; exact execWaitHost_acts ..
  | waitBell => rintro ⟨⟩; exact execWaitBell_acts ..
  | waitBellRelease => rintro ⟨⟩; exact execWaitBellRelease_acts ..
  | waitTime => rintro ⟨⟩; exact execWaitTime_acts ..
  | waitTimeRelease => rintro ⟨⟩; exact execWaitTimeRelease_acts ..
  | stamp => rintro ⟨⟩; exact execStamp_acts ..
  | reservedOpcode => rintro ⟨⟩; exact execReservedOpcode_acts ..
  | queueBind => rintro ⟨⟩; exact execQueueBind_acts ..
  | hostArrive => rintro ⟨⟩; exact execHostArrive_acts ..
  | hostWaitArm => rintro ⟨⟩; exact execHostWaitArm_acts ..
  | hostFlagSet => rintro ⟨⟩; exact execHostFlagSet_acts ..
  | hostFlagWithdraw => rintro ⟨⟩; exact execHostFlagWithdraw_acts ..
  | directCreate => rintro ⟨⟩; exact execDirectCreate_acts ..
  | directFree => rintro ⟨⟩; exact execDirectFree_acts ..
  | barrierCreate => rintro ⟨⟩; exact execBarrierCreate_acts ..
  | barrierFree => rintro ⟨⟩; exact execBarrierFree_acts ..
  | ctxBind => rintro ⟨⟩; exact execCtxBind_acts ..
  | ctxSwitch => rintro ⟨⟩; exact execCtxSwitch_acts ..
  | ctxClear => rintro ⟨⟩; exact execCtxClear_acts ..
  | contextClearEnd => rintro ⟨⟩; exact execContextClearEnd_acts ..
  | slotRead => rintro ⟨⟩; exact execSlotRead_acts ..
  | ctxQuota => rintro ⟨⟩; exact execCtxQuota_acts ..
  | hostWaitCancel => rintro ⟨⟩; exact execHostWaitCancel_acts ..
  | monDump => rintro ⟨⟩; exact execMonDump_acts ..
  | arriveWord => rintro ⟨⟩; exact execArriveWord_acts ..
  | leadDieArrive => rintro ⟨⟩; exact execLeadDieArrive_acts ..
  | withdrawWord => rintro ⟨⟩; exact execWithdrawWord_acts ..
  | leadDieWithdraw => rintro ⟨⟩; exact execLeadDieWithdraw_acts ..
  | doneWord => rintro ⟨⟩; exact execDoneWord_acts ..
  | doneAtDie => rintro ⟨⟩; exact execDoneAtDie_acts ..
  | bellWordForward => rintro ⟨⟩; exact execBellWordForward_acts ..
  | bellWordAtDie => rintro ⟨⟩; exact execBellWordAtDie_acts ..
  | bellRing => rintro ⟨⟩; exact execBellRing_acts ..
  | livenessWord => rintro ⟨⟩; exact execLivenessWord_acts ..
  | livenessMiss => rintro ⟨⟩; exact execLivenessMiss_acts ..
  | monitorWord => rintro ⟨⟩; exact execMonitorWord_acts ..
  | memberWord => rintro ⟨⟩; exact execMemberWord_acts ..
  | staleWord => rintro ⟨⟩; exact execStaleWord_acts ..
  | slotInstall => rintro ⟨⟩; exact execSlotInstall_acts ..
  | hbarAllocInstalled => rintro ⟨⟩; exact execHbarAllocInstalled_acts ..
  | hbarAlloc => rintro ⟨⟩; exact execHbarAlloc_acts ..
  | hbarFree => rintro ⟨⟩; exact execHbarFree_acts ..
  | hbarSet => rintro ⟨⟩; exact execHbarSet_acts ..
  | hbarResolve => rintro ⟨⟩; exact execHbarResolve_acts ..
  | hbarRead => rintro ⟨⟩; exact execHbarRead_acts ..
  | jobHallStatus => rintro ⟨⟩; exact execJobHallStatus_acts ..
  | suspectRead => rintro ⟨⟩; exact execSuspectRead_acts ..
  | hbarDump => rintro ⟨⟩; exact execHbarDump_acts ..
  | jobCreate => rintro ⟨⟩; exact execJobCreate_acts ..
  | jobEnd => rintro ⟨⟩; exact execJobEnd_acts ..
  | descriptorReadDone => rintro ⟨⟩; exact execDescriptorReadDone_acts ..
  | fragmentReceive => rintro ⟨⟩; exact execFragmentReceive_acts ..
  | repeatRequest => rintro ⟨⟩; exact execRepeatRequest_acts ..
  | pipeCombineDone => rintro ⟨⟩; exact execPipeCombineDone_acts ..
  | resultFormed => rintro ⟨⟩; exact execResultFormed_acts ..
  | closeWord => rintro ⟨⟩; exact execCloseWord_acts ..
  | closeAtDie => rintro ⟨⟩; exact execCloseAtDie_acts ..
  | resultWriteDone => rintro ⟨⟩; exact execResultWriteDone_acts ..
  | pipeRead => rintro ⟨⟩; exact execPipeRead_acts ..
  | payRead => rintro ⟨⟩; exact execPayRead_acts ..
  | pdBaseWrite => rintro ⟨⟩; exact execPdBaseWrite_acts ..
  | checkerBeat => rintro ⟨⟩; exact execCheckerBeat_acts ..
  | chkExpectWrite => rintro ⟨⟩; exact execChkExpectWrite_acts ..
  | chkValueRead => rintro ⟨⟩; exact execChkValueRead_acts ..
  | chkValueWrite => rintro ⟨⟩; exact execChkValueWrite_acts ..
  | sbAlloc => rintro ⟨⟩; exact execSbAlloc_acts ..
  | sbFree => rintro ⟨⟩; exact execSbFree_acts ..
  | sbQuota => rintro ⟨⟩; exact execSbQuota_acts ..
  | sbRead => rintro ⟨⟩; exact execSbRead_acts ..
  | sbCloseLog => rintro ⟨⟩; exact execSbCloseLog_acts ..
  | mirrorResyncDone => rintro ⟨⟩; exact execMirrorResyncDone_acts ..
  | attRecord => rintro ⟨⟩; exact execAttRecord_acts ..
  | spillWrite => rintro ⟨⟩; exact execSpillWrite_acts ..
  | spillResume => rintro ⟨⟩; exact execSpillResume_acts ..
  | ruleRecordAtDie => rintro ⟨⟩; exact execRuleRecordAtDie_acts ..
  | attWinLoaded => rintro ⟨⟩; exact execAttWinLoaded_acts ..
  | attDma => rintro ⟨⟩; exact execAttDma_acts ..
  | attFind => rintro ⟨⟩; exact execAttFind_acts ..
  | attQuota => rintro ⟨⟩; exact execAttQuota_acts ..
  | attFlush => rintro ⟨⟩; exact execAttFlush_acts ..
  | patrolScrub => rintro ⟨⟩; exact execPatrolScrub_acts ..
  | dramUe => rintro ⟨⟩; exact execDramUe_acts ..
  | channelFail => rintro ⟨⟩; exact execChannelFail_acts ..
  | stackFail => rintro ⟨⟩; exact execStackFail_acts ..
  | ttSubmit => rintro ⟨⟩; exact execTtSubmit_acts ..
  | ttStart => rintro ⟨⟩; exact execTtStart_acts ..
  | ttResult => rintro ⟨⟩; exact execTtResult_acts ..
  | ttCancel => rintro ⟨⟩; exact execTtCancel_acts ..
  | ttRead => rintro ⟨⟩; exact execTtRead_acts ..
  | ttBodyReceive => rintro ⟨⟩; exact execTtBodyReceive_acts ..
  | prepareWord => rintro ⟨⟩; exact execPrepareWord_acts ..
  | voteWord => rintro ⟨⟩; exact execVoteWord_acts ..
  | ttRevoke => rintro ⟨⟩; exact execTtRevoke_acts ..
  | commitWord => rintro ⟨⟩; exact execCommitWord_acts ..
  | abortWord => rintro ⟨⟩; exact execAbortWord_acts ..
  | floorWord => rintro ⟨⟩; exact execFloorWord_acts ..
  | emergencyStart => rintro ⟨⟩; exact execEmergencyStart_acts ..
  | emergencyEnd => rintro ⟨⟩; exact execEmergencyEnd_acts ..
  | pwrRead => rintro ⟨⟩; exact execPwrRead_acts ..
  | pwrJobSet => rintro ⟨⟩; exact execPwrJobSet_acts ..
  | pwrRecess => rintro ⟨⟩; exact execPwrRecess_acts ..
  | pwrResume => rintro ⟨⟩; exact execPwrResume_acts ..
  | rootState => rintro ⟨⟩; exact execRootState_acts ..
  | rootPromote => rintro ⟨⟩; exact execRootPromote_acts ..
  | drillRead => rintro ⟨⟩; exact execDrillRead_acts ..
  | selftest => rintro ⟨⟩; exact execSelftest_acts ..
  | pipeUnretire => rintro ⟨⟩; exact execPipeUnretire_acts ..
  | faultTableWrite => rintro ⟨⟩; exact execFaultTableWrite_acts ..
  | rcRead => rintro ⟨⟩; exact execRcRead_acts ..
  | rcClear => rintro ⟨⟩; exact execRcClear_acts ..
  | faultRead => rintro ⟨⟩; exact execFaultRead_acts ..
  | refPpsEdge => rintro ⟨⟩; exact execRefPpsEdge_acts ..
  | scResetAssert => rintro ⟨⟩; exact execScResetAssert_acts ..
  | msixVectorUnmask => rintro ⟨⟩; exact execMsixVectorUnmask_acts ..
  | hubReleaseAtStation => rintro ⟨⟩; exact execHubReleaseAtStation_acts ..
  | _ => exact nofun

/-- Settles O37: a command with a part of its own acts on that part alone, by the laws of all commands put together. -/
theorem partsActApart : Obligations.PartsActApart := by
  unfold Obligations.PartsActApart
  intro i p s t hi ht
  obtain ⟨-, sc, fd⟩ := Acts.ofO ht (exec_acts_of_partOf i s hi)
  exact ⟨sc, fd⟩

/-! The register map: where the fields of a register lie. -/

/-- What of a field does not differ between the copies of its register: its lowest bit, its width, its access code. -/
def fieldShape (f : Machine.Field) : Nat × Nat × Acc := (f.lo, f.width, f.acc)

/-- The offset of copy `n` of a register. -/
def copyOff (r : RegRow) (n : Nat) : Nat := if r.count = 1 then r.base else r.base + r.stride * n

/-- The fields of every copy of a register stand at that copy's offset, in the same places. -/
theorem fields_eq_first {r : RegRow} (hr : r ∈ regRows) (n : Nat) :
    (r.fields n).map (fun f => (f.off, fieldShape f)) = (r.fields 0).map fun f => (copyOff r n, fieldShape f) := by
  have h : ∀ rows ∈ [regRows0, regRows1, regRows2, regRows3, regRows4, regRows5],
      rows.map (fun r => (r.fields n).map fun f => (f.off, fieldShape f)) = rows.map fun r => (r.fields 0).map fun f => (copyOff r n, fieldShape f) := by
    simp only [List.forall_mem_cons]
    exact ⟨rfl, rfl, rfl, rfl, rfl, rfl, nofun⟩
  have hm : r ∈ [regRows0, regRows1, regRows2, regRows3, regRows4, regRows5].flatten := by simpa [regRows] using hr
  obtain ⟨rows, hrows, hr⟩ := List.mem_flatten.1 hm
  exact List.map_eq_map_iff.1 (h rows hrows) r hr

theorem shapes_eq_first {r : RegRow} (hr : r ∈ regRows) (n : Nat) : (r.fields n).map fieldShape = (r.fields 0).map fieldShape := by
  have h := congrArg (List.map Prod.snd) (fields_eq_first hr n)
  rwa [List.map_map, List.map_map] at h

theorem shape_mem_first {r : RegRow} (hr : r ∈ regRows) {n : Nat} {f : Machine.Field} (hf : f ∈ r.fields n) : fieldShape f ∈ (r.fields 0).map fieldShape := by
  rw [← shapes_eq_first hr n]
  exact List.mem_map_of_mem hf

theorem off_of_mem_fields {r : RegRow} (hr : r ∈ regRows) {n : Nat} {f : Machine.Field} (hf : f ∈ r.fields n) : f.off = copyOff r n := by
  have hm : (f.off, fieldShape f) ∈ (r.fields n).map fun f => (f.off, fieldShape f) := List.mem_map_of_mem hf
  rw [fields_eq_first hr n] at hm
  obtain ⟨_, _, he⟩ := List.mem_map.1 hm
  exact (congrArg Prod.fst he).symm

theorem fields_pairwise_apart {r : RegRow} (hr : r ∈ regRows) (n : Nat) :
    (r.fields n).Pairwise fun f g => f.lo + f.width ≤ g.lo ∨ g.lo + g.width ≤ f.lo := by
  have h : ∀ r ∈ regRows, ((r.fields 0).map fieldShape).Pairwise fun x y => x.1 + x.2.1 ≤ y.1 ∨ y.1 + y.2.1 ≤ x.1 := by decide +kernel
  have hn := h r hr
  rwa [← shapes_eq_first hr n, List.pairwise_map] at hn

theorem field_within_word {r : RegRow} (hr : r ∈ regRows) {n : Nat} {f : Machine.Field} (hf : f ∈ r.fields n) : 0 < f.width ∧ f.lo + f.width ≤ 32 := by
  have h : ∀ r ∈ regRows, ∀ x ∈ (r.fields 0).map fieldShape, 0 < x.2.1 ∧ x.1 + x.2.1 ≤ 32 := by decide +kernel
  exact h r hr _ (shape_mem_first hr hf)

/-- The registers up to ALERT have no RW field. -/
theorem base_of_rw {r : RegRow} (hr : r ∈ regRows) {n : Nat} {f : Machine.Field} (hf : f ∈ r.fields n) (ha : f.acc = .rw) : Rg.ALERT_RSVD_WRITE.off < r.base := by
  have h : ∀ r ∈ regRows, ∀ x ∈ (r.fields 0).map fieldShape, x.2.2 = .rw → Rg.ALERT_RSVD_WRITE.off < r.base := by decide +kernel
  exact h r hr _ (shape_mem_first hr hf) ha

/-- Fields of one register have keys of their own. -/
theorem fields_pairwise_key {r : RegRow} (hr : r ∈ regRows) (n : Nat) : (r.fields n).Pairwise fun f g => f.key ≠ g.key := by
  refine (fields_pairwise_apart hr n).imp_of_mem fun {f g} hf hg hfg => ?_
  have hof := off_of_mem_fields hr hf
  have hog := off_of_mem_fields hr hg
  have hwf := field_within_word hr hf
  have hwg := field_within_word hr hg
  unfold Machine.Field.key
  omega

/-- A register with an RW field does not hold ALERT.RSVD_WRITE. -/
theorem key_ne_rsvdWrite {r : RegRow} (hr : r ∈ regRows) {n : Nat} {f g : Machine.Field} (hf : f ∈ r.fields n) (ha : f.acc = .rw) (hg : g ∈ r.fields n) :
    g.key ≠ Rg.ALERT_RSVD_WRITE.key := by
  have hb := base_of_rw hr hf ha
  have ho := off_of_mem_fields hr hg
  have hle : r.base ≤ copyOff r n := by unfold copyOff; split <;> omega
  have hlo : Rg.ALERT_RSVD_WRITE.lo < 32 := by decide
  unfold Machine.Field.key
  omega

/-! The word of a register: its reserved bits read zero. -/

/-- A value of `w` bits added where a number has zeros leaves the number's other bits. -/
theorem testBit_add_mul_two_pow {a x lo w i : Nat} (hx : x < 2 ^ w) (ha : ∀ j, lo ≤ j → j < lo + w → a.testBit j = false) (hi : i < lo ∨ lo + w ≤ i) :
    (a + x * 2 ^ lo).testBit i = a.testBit i := by
  have hlow : a % 2 ^ lo < 2 ^ lo := Nat.mod_lt _ (Nat.two_pow_pos lo)
  have hsum : 2 ^ lo * x + a % 2 ^ lo < 2 ^ (lo + w) := calc
    2 ^ lo * x + a % 2 ^ lo < 2 ^ lo * (x + 1) := by rw [Nat.mul_add_one]; omega
    _ ≤ 2 ^ lo * 2 ^ w := Nat.mul_le_mul_left _ hx
    _ = 2 ^ (lo + w) := (Nat.pow_add ..).symm
  have hsplit : a = 2 ^ (lo + w) * (a / 2 ^ (lo + w)) + a % 2 ^ lo := by
    refine Nat.eq_of_testBit_eq fun j => ?_
    rw [Nat.testBit_two_pow_mul_add _ (by omega)]
    split
    · by_cases hj : j < lo
      · simp [hj]
      · simp [hj, ha j (by omega) ‹_›]
    · rw [← Nat.testBit_add, Nat.sub_add_cancel (by omega)]
  have hadd : a + x * 2 ^ lo = 2 ^ (lo + w) * (a / 2 ^ (lo + w)) + (2 ^ lo * x + a % 2 ^ lo) := by
    rw [Nat.mul_comm x]; omega
  rw [hadd, Nat.testBit_two_pow_mul_add _ hsum]
  rcases hi with hi | hi
  · rw [if_pos (by omega), Nat.testBit_two_pow_mul_add _ hlow, if_pos hi, Nat.testBit_mod_two_pow]
    simp [hi]
  · rw [if_neg (by omega), ← Nat.testBit_add, Nat.sub_add_cancel hi]

/-- The bits of a field lie apart from bit `i`. -/
def Outside (f : Machine.Field) (i : Nat) : Prop := i < f.lo ∨ f.lo + f.width ≤ i

theorem bit_foldl_minusMask {m : Machine.Field → Nat} {fs : List Machine.Field} {a i : Nat} (hi : i < 32) :
    bit (fs.foldl (fun a f => minusMask 32 a (m f)) a) i = true ↔ bit a i = true ∧ ∀ f ∈ fs, bit (m f) i = false := by
  induction fs generalizing a with
  | nil => simp
  | cons f fs ih =>
    rw [List.foldl_cons, ih, minusMask, bit_maskOf hi, List.forall_mem_cons]
    simp [and_assoc]

/-- A reserved bit is a bit of no field. -/
theorem outside_of_reservedBits {fs : List Machine.Field} {i : Nat} (hi : i < 32) (h : bit (reservedBits fs) i = true) : ∀ f ∈ fs, Outside f i := by
  intro f hf
  have hm := ((bit_foldl_minusMask hi).1 h).2 f hf
  rw [bit_testBit, Nat.testBit_mul_two_pow, Nat.testBit_two_pow_sub_one] at hm
  simp only [Bool.and_eq_false_iff, decide_eq_false_iff_not] at hm
  unfold Outside
  omega

/-- Fields that share no bit, added up from a word that has zeros in their places, leave the word's other bits. -/
theorem testBit_foldl_fields {fs : List Machine.Field} {x : Machine.Field → Nat} {i a : Nat} (hx : ∀ f, x f < 2 ^ f.width)
    (hd : fs.Pairwise fun f g => f.lo + f.width ≤ g.lo ∨ g.lo + g.width ≤ f.lo)
    (ha : ∀ f ∈ fs, ∀ j, f.lo ≤ j → j < f.lo + f.width → a.testBit j = false) (hi : ∀ f ∈ fs, Outside f i) :
    (fs.foldl (fun a f => a + x f * 2 ^ f.lo) a).testBit i = a.testBit i := by
  induction fs generalizing a with
  | nil => rfl
  | cons f fs ih =>
    obtain ⟨hf, hd⟩ := List.pairwise_cons.1 hd
    obtain ⟨haf, ha⟩ := List.forall_mem_cons.1 ha
    obtain ⟨hif, hi⟩ := List.forall_mem_cons.1 hi
    have hstep : ∀ j, Outside f j → (a + x f * 2 ^ f.lo).testBit j = a.testBit j := fun j => testBit_add_mul_two_pow (hx f) haf
    rw [List.foldl_cons, ih hd (fun g hg j hl hu => ?_) hi, hstep i hif]
    rw [hstep j (by have := hf g hg; unfold Outside; omega)]
    exact ha g hg j hl hu

/-- A bit outside every field of a register reads zero (R10). -/
theorem bit_wordOf_of_outside {r : RegRow} (hr : r ∈ regRows) {n : Nat} {p : Part} {i : Nat} {s : State} (hi : ∀ f ∈ r.fields n, Outside f i) :
    bit (s.wordOf p (r.fields n)) i = false := by
  have hword : s.wordOf p (r.fields n) = (r.fields n).foldl (fun a f => a + (if f.acc = .wo then 0 else s.get p f % 2 ^ f.width) * 2 ^ f.lo) 0 := by
    unfold State.wordOf
    congr with a f
    split <;> simp
  rw [bit_testBit, hword, testBit_foldl_fields (fun f => ?_) (fields_pairwise_apart hr n) (fun _ _ _ _ _ => Nat.zero_testBit _) hi, Nat.zero_testBit]
  split
  · exact Nat.two_pow_pos _
  · exact Nat.mod_lt _ (Nat.two_pow_pos _)

/-! A word written to a register, field by field (R9 to R11). -/

/-- What a word written does at one field. -/
def writeField (p : Part) (v : Nat) (t : State) (f : Machine.Field) : State :=
  match f.acc with
  | .rw => if f.takes (bits v f.lo f.width) then t.put p f (bits v f.lo f.width) else t.rsvd p
  | .w1c => t.put p f (minusMask f.width (t.get p f) (bits v f.lo f.width))
  | _ => t

/-- The fields that the write reaches one after the other, then the flag for the reserved bits. -/
theorem writeFields_eq (p : Part) (fs : List Machine.Field) (v : Nat) (only : Machine.Field → Bool) (s : State) :
    s.writeFields p fs v only =
      if maskOf 32 (fun i => bit v i && bit (reservedBits fs) i) != 0 then ((fs.filter only).foldl (writeField p v) s).rsvd p
      else (fs.filter only).foldl (writeField p v) s := rfl

theorem get_rsvd_same (p : Part) (s : State) : (s.rsvd p).get p Rg.ALERT_RSVD_WRITE = 1 := by
  unfold State.rsvd State.raise
  rw [State.get_signalRise, State.get_put_same]
  rfl

theorem get_rsvd_ne {p : Part} {g : Machine.Field} (hg : g.key ≠ Rg.ALERT_RSVD_WRITE.key) (s : State) : (s.rsvd p).get p g = s.get p g :=
  State.get_raise_ne p p hg s

theorem get_writeField_ne {p : Part} {v : Nat} {t : State} {f g : Machine.Field} (hg : g.key ≠ Rg.ALERT_RSVD_WRITE.key) (hfg : g.key ≠ f.key) :
    (writeField p v t f).get p g = t.get p g := by
  unfold writeField
  split
  · split
    · exact State.get_put_ne _ hfg _ _
    · exact get_rsvd_ne hg t
  · exact State.get_put_ne _ hfg _ _
  · rfl

/-- Once set, the flag stays set under the writes of other fields. -/
theorem rsvd_writeField {p : Part} {v : Nat} {t : State} {f : Machine.Field} (hf : f.key ≠ Rg.ALERT_RSVD_WRITE.key) (ht : t.get p Rg.ALERT_RSVD_WRITE = 1) :
    (writeField p v t f).get p Rg.ALERT_RSVD_WRITE = 1 := by
  unfold writeField
  split
  · split
    · rwa [State.get_put_ne _ hf.symm]
    · exact get_rsvd_same p t
  · rwa [State.get_put_ne _ hf.symm]
  · exact ht

theorem get_foldl_writeField_ne {p : Part} {v : Nat} {g : Machine.Field} (hg : g.key ≠ Rg.ALERT_RSVD_WRITE.key) {fs : List Machine.Field} (hfs : ∀ f ∈ fs, g.key ≠ f.key)
    (t : State) : (fs.foldl (writeField p v) t).get p g = t.get p g := by
  induction fs generalizing t with
  | nil => rfl
  | cons f fs ih =>
    obtain ⟨hf, hfs⟩ := List.forall_mem_cons.1 hfs
    rw [List.foldl_cons, ih hfs, get_writeField_ne hg hf]

theorem rsvd_foldl_writeField {p : Part} {v : Nat} {fs : List Machine.Field} (hfs : ∀ f ∈ fs, f.key ≠ Rg.ALERT_RSVD_WRITE.key) {t : State}
    (ht : t.get p Rg.ALERT_RSVD_WRITE = 1) : (fs.foldl (writeField p v) t).get p Rg.ALERT_RSVD_WRITE = 1 := by
  induction fs generalizing t with
  | nil => exact ht
  | cons f fs ih =>
    obtain ⟨hf, hfs⟩ := List.forall_mem_cons.1 hfs
    exact ih hfs (rsvd_writeField hf ht)

theorem get_writeFields_ne {p : Part} {g : Machine.Field} (hg : g.key ≠ Rg.ALERT_RSVD_WRITE.key) {fs : List Machine.Field} (v : Nat) (only : Machine.Field → Bool)
    (s : State) : (s.writeFields p fs v only).get p g = ((fs.filter only).foldl (writeField p v) s).get p g := by
  rw [writeFields_eq]
  split
  · exact get_rsvd_ne hg _
  · rfl

theorem rsvd_writeFields {p : Part} {fs : List Machine.Field} {v : Nat} {only : Machine.Field → Bool} {s : State}
    (h : ((fs.filter only).foldl (writeField p v) s).get p Rg.ALERT_RSVD_WRITE = 1) : (s.writeFields p fs v only).get p Rg.ALERT_RSVD_WRITE = 1 := by
  rw [writeFields_eq]
  split
  · exact get_rsvd_same ..
  · exact h

/-- A reserved bit written 1 sets ALERT.RSVD_WRITE (R10). -/
theorem rsvd_writeFields_of_reserved_bit {p : Part} {fs : List Machine.Field} {v i : Nat} (hi : i < 32) (hv : bit v i = true) (hr : bit (reservedBits fs) i = true)
    (only : Machine.Field → Bool) (s : State) : (s.writeFields p fs v only).get p Rg.ALERT_RSVD_WRITE = 1 := by
  have hmask : maskOf 32 (fun i => bit v i && bit (reservedBits fs) i) ≠ 0 := fun h => by
    simpa [hv, hr] using (maskOf_zero _ _).1 h i hi
  rw [writeFields_eq, if_pos (bne_iff_ne.2 hmask)]
  exact get_rsvd_same ..

/-- What a field holds after a word is written to its register comes from its own write, whatever the other fields take; what it sets of the flag stays. -/
theorem writeFields_at_field {r : RegRow} (hr : r ∈ regRows) {n : Nat} {f : Machine.Field} (hf : f ∈ r.fields n) (ha : f.acc = .rw) {only : Machine.Field → Bool}
    (ho : only f = true) (p : Part) (v : Nat) (s : State) :
    ∃ t : State, t.get p f = s.get p f ∧ (s.writeFields p (r.fields n) v only).get p f = (writeField p v t f).get p f
      ∧ ((writeField p v t f).get p Rg.ALERT_RSVD_WRITE = 1 → (s.writeFields p (r.fields n) v only).get p Rg.ALERT_RSVD_WRITE = 1) := by
  have hnot : ∀ g ∈ (r.fields n).filter only, g.key ≠ Rg.ALERT_RSVD_WRITE.key := fun g hg => key_ne_rsvdWrite hr hf ha (List.mem_of_mem_filter hg)
  have hkeys := (fields_pairwise_key hr n).filter only
  obtain ⟨pre, post, hsplit⟩ := List.append_of_mem (List.mem_filter.2 ⟨hf, ho⟩)
  have hfk : f.key ≠ Rg.ALERT_RSVD_WRITE.key := key_ne_rsvdWrite hr hf ha hf
  rw [hsplit] at hkeys hnot
  obtain ⟨-, hpost, hpre⟩ := List.pairwise_append.1 hkeys
  have hfold : (r.fields n |>.filter only).foldl (writeField p v) s = post.foldl (writeField p v) (writeField p v (pre.foldl (writeField p v) s) f) := by
    rw [hsplit, List.foldl_append, List.foldl_cons]
  refine ⟨pre.foldl (writeField p v) s, get_foldl_writeField_ne hfk (fun g hg => (hpre g hg f (by simp)).symm) s, ?_, fun h => rsvd_writeFields ?_⟩
  · rw [get_writeFields_ne hfk, hfold, get_foldl_writeField_ne hfk (List.pairwise_cons.1 hpost).1]
  · rw [hfold]
    exact rsvd_foldl_writeField (fun g hg => hnot g (by simp [hg])) h

/-- Settles O43: reserved bits lie outside every field, and a field takes what its own write gives it. -/
theorem reservedBitsAndEncodings : Obligations.ReservedBitsAndEncodings := by
  unfold Obligations.ReservedBitsAndEncodings
  refine ⟨fun r n p i s hr hi hres => bit_wordOf_of_outside hr (outside_of_reservedBits hi hres), fun r n p v only s hr ⟨i, hi, hv, hres⟩ => ⟨?_, fun g hg hfs => ?_⟩,
    fun r n f p v only s hr hf ha ho => ?_⟩
  · exact rsvd_writeFields_of_reserved_bit hi hv hres only s
  · rw [get_writeFields_ne hg, get_foldl_writeField_ne hg fun f hf => hfs f (List.mem_of_mem_filter hf)]
  · obtain ⟨t, hget, hown, hflag⟩ := writeFields_at_field hr hf ha ho p v s
    refine ⟨fun htake => ?_, fun htake => ?_⟩
    · have hput : writeField p v t f = t.put p f (bits v f.lo f.width) := by simp [writeField, ha, htake]
      rw [hown, hput, State.get_put_same]
      exact Nat.mod_mod _ _
    · have hrsvd : writeField p v t f = t.rsvd p := by simp [writeField, ha, htake]
      rw [hrsvd] at hown hflag
      exact ⟨by rw [hown, get_rsvd_ne (key_ne_rsvdWrite hr hf ha hf), hget], hflag (get_rsvd_same p t)⟩

/-! Offsets without a register (R420). -/

/-- An offset without a register reads zero (R420). -/
theorem readWord_of_regAt_none {p : Part} {req off : Nat} {s : State} (hr : s.regAt p off = none) (h100 : off ≠ 0x100) (h104 : off ≠ 0x104) (h108 : off ≠ 0x108)
    (hw : ¬ (0x7800 ≤ off ∧ off < 0x8800)) : s.readWord p req off = (0, s) := by
  have hmail : ¬ (0x8000 ≤ off ∧ off < 0x8800) := fun h => hw ⟨by omega, h.2⟩
  have hwin : ¬ (p = .fd ∧ 0x7800 ≤ off ∧ off < 0x8000) := fun h => hw ⟨h.2.1, by omega⟩
  simp only [← and_assoc] at hwin
  simp [State.readWord, hr, h100, h104, h108, hmail, hwin]

/-- A write that the requester may make to an offset without a register sets ALERT.RSVD_WRITE unless it is zero (R420). -/
theorem slateWord_of_regAt_none {p : Part} {req off v : Nat} {s : State} (hm : s.mayWrite p req off v = true) (hr : s.regAt p off = none) (htok : off ≠ 0xA100)
    (hw : ¬ (0x7800 ≤ off ∧ off < 0x8800)) : s.slateWord p req off v = if v = 0 then s else s.rsvd p := by
  have hwin : ¬ (p = .fd ∧ 0x7800 ≤ off ∧ off < 0x8000) := fun h => hw ⟨h.2.1, by omega⟩
  simp only [← and_assoc] at hwin
  simp [State.slateWord, hm, hr, htok, hwin]

/-- A register that the part, its variant or its configuration lacks is unoccupied (R3, R420). -/
theorem regAt_of_not_present {p : Part} {off : Nat} {s : State} (h : s.regPresent p off = false) : s.regAt p off = none := by
  simp [State.regAt, h]

/-- Settles O44, from the read and the write of an offset without a register. -/
theorem unoccupiedOffsets : Obligations.UnoccupiedOffsets := by
  unfold Obligations.UnoccupiedOffsets
  exact ⟨fun p off s h => regAt_of_not_present h, fun p req off v s hr h100 h104 h108 hw htok =>
    ⟨readWord_of_regAt_none hr h100 h104 h108 hw, fun hm => slateWord_of_regAt_none hm hr htok hw⟩⟩

end Sys2Proof.Proofs

/-! PROOFS. O11: the link commands, calibration runs, spare swaps, the payload split, frames received and launched. -/

namespace Sys2Proof.Proofs

open Sys2Proof Sys2Proof.Machine Sys2Proof.Cmds

/-! The status register of a port, at 0x2004 + 32 n (R147): which other fields are none of its own, and what leaves it. -/

/-- Two fields of one register that begin at different bits. -/
theorem key_ne_of_lo {f g : Machine.Field} (ho : f.off = g.off := by rfl) (hl : (f.lo == g.lo) = false := by rfl) : f.key ≠ g.key := by
  have hne : f.lo ≠ g.lo := by simpa using hl
  unfold Machine.Field.key
  omega

/-- Fields of different registers. -/
theorem key_ne_of_off {f g : Machine.Field} (ho : f.off ≠ g.off) (hf : decide (f.lo < 32) = true := by rfl) (hg : decide (g.lo < 32) = true := by rfl) : f.key ≠ g.key := by
  simp only [decide_eq_true_eq] at hf hg
  unfold Machine.Field.key
  omega

theorem not_mbKeys_stat {n : Nat} (hn : n < 80) {f : Machine.Field} (ho : f.off = 0x2004 + 32 * n := by rfl) (hl : decide (f.lo < 32) = true := by rfl) : ¬ mbKeys f.key := by
  simp only [decide_eq_true_eq] at hl
  unfold mbKeys Machine.Field.key
  omega

theorem get_stat_mbSubmit {m : MbGo} (hb : m.box < 8) (code : Nat) {p : Part} {n : Nat} (hn : n < 80) {f : Machine.Field} (s : State) (ho : f.off = 0x2004 + 32 * n := by rfl)
    (hl : decide (f.lo < 32) = true := by rfl) : (s.mbSubmit m code).get p f = s.get p f := get_sub hb code (not_mbKeys_stat hn ho hl) p

theorem get_stat_mbAnswer_ok {m : MbGo} (hb : m.box < 8) (code : Nat) (fixed : List (Nat × Nat)) {p : Part} {n : Nat} (hn : n < 80) {f : Machine.Field} (t : State)
    (ho : f.off = 0x2004 + 32 * n := by rfl) (hl : decide (f.lo < 32) = true := by rfl) : (t.mbAnswer m.part m.box code m.tag m.irq m.dma (.ok fixed)).get p f = t.get p f :=
  get_ans hb code fixed (not_mbKeys_stat hn ho hl) p

theorem get_stat_laneSum (n : Nat) {p : Part} {f : Machine.Field} (s : State) (ho : f.off = 0x2004 + 32 * n := by rfl) (hl : decide (f.lo < 32) = true := by rfl) :
    (s.laneSum p).get p f = s.get p f :=
  laneSum_get (key_ne_of_off (by simp only [ho, Rg.FSUM_LANES_DEGRADED]; omega) hl) (key_ne_of_off (by simp only [ho, Rg.FSUM_SPARE_NONE]; omega) hl) p s

theorem link_mbAnswer_ok (m : MbGo) (code : Nat) (fixed : List (Nat × Nat)) (p : Part) (n : Nat) (t : State) :
    (t.mbAnswer m.part m.box code m.tag m.irq m.dma (.ok fixed)).link p n = t.link p n := link_done ..

theorem link_of_waits {s t : State} (h : Waits s t) (p : Part) (n : Nat) : t.link p n = s.link p n := by
  unfold State.link
  rw [h.links p]

/-! A port's medium and its group's spare (R143, R379). -/

theorem optical_congr {p : Part} {n : Nat} {s t : State} (hlink : t.link p n = s.link p n) (hfw : (t.unit p).fw = (s.unit p).fw)
    (hdef : t.get p Rg.START_START_DEFAULTS = s.get p Rg.START_START_DEFAULTS) (hmed : t.get p (Rg.LINK_MEDIUM n) = s.get p (Rg.LINK_MEDIUM n)) :
    t.optical p n = s.optical p n := by
  unfold State.optical State.flag
  rw [hlink, hfw, hdef, hmed]

theorem optical_mbSubmit {m : MbGo} (hb : m.box < 8) (code : Nat) (p : Part) {n : Nat} (hn : n < 80) (s : State) : (s.mbSubmit m code).optical p n = s.optical p n := by
  refine optical_congr (link_sub ..) (mbSubmit_unit_fw ..) (get_sub hb code ?_ p) (get_sub hb code ?_ p) <;>
    (simp only [mbKeys, Machine.Field.key, Rg.START_START_DEFAULTS, Rg.LINK_MEDIUM]; omega)

/-- The spare of a distributor's port is free or not by the ports' status registers and the faults of the lanes alone. -/
theorem spareFree_congr {n : Nat} {s t : State} (hn : n < 72) (hget : ∀ k < 80, ∀ f : Machine.Field, f.off = 0x2004 + 32 * k → decide (f.lo < 32) = true → t.get .fd f = s.get .fd f)
    (hlink : ∀ k, t.link .fd k = s.link .fd k) : t.spareFree .fd n = s.spareFree .fd n := by
  have hspare : spareOf .fd n < 80 := by
    simp only [spareOf, if_true]
    omega
  have hgoing : ∀ k ∈ List.range 72, (spareOf .fd k == spareOf .fd n && t.flag .fd (Rg.LINK_SWAP_PENDING k) && !t.flag .fd (Rg.LINK_ON_SPARE k))
      = (spareOf .fd k == spareOf .fd n && s.flag .fd (Rg.LINK_SWAP_PENDING k) && !s.flag .fd (Rg.LINK_ON_SPARE k)) := fun k hk => by
    have hk : k < 80 := by
      have := List.mem_range.1 hk
      omega
    unfold State.flag
    rw [hget k hk (Rg.LINK_SWAP_PENDING k) rfl rfl, hget k hk (Rg.LINK_ON_SPARE k) rfl rfl]
  unfold State.spareFree State.spareTaken
  rw [hget _ hspare (Rg.LINK_SPARE_MAP (spareOf .fd n)) rfl rfl, hlink, any_congr' hgoing]

/-! LINK_CAL, LINK_SWAP, LINK_RESET (R133, R138, R144, R145, R148). -/

/-- A command that is ready leaves what its body makes of the submitted state, with the answer in the mailbox. -/
theorem mailbox_eq_answer {m : MbGo} {owner need : Nat} {s u : State} {sig : List Nat} {jobArg : Option Nat} {out : MbOut}
    (h : MbReady m owner (jobArg.map fun i => (parseFields m.args 0 sig).getD i 0) need s) (hn : layoutEnd 0 sig = need) {code : Nat}
    {body : List Nat → State → MbOut × State} (hbody : body (parseFields m.args 0 sig) (s.mbSubmit m code) = (out, u)) :
    s.mailbox m code (some owner) sig jobArg body = u.mbAnswer m.part m.box code m.tag m.irq m.dma out := by
  rw [mailbox_ready h hn, hbody]

/-- LINK_CAL with step REFLECT on a link that is not optical asks for a run (R132, R148). -/
theorem linkCal_asks_for_run {m : MbGo} {n : Nat} {s : State} (h : MbReady m 5 none 2 s) (hp : m.part = .fd) (hn : m.argAt [1, 1] 0 = n) (hstep : m.argAt [1, 1] 1 = 0)
    (hlt : n < 80) (hmed : s.optical .fd n = false) :
    Gives (.linkCal m) s fun t => Answered m 0 t ∧ t.link .fd n = { s.link .fd n with calWant := true } := by
  refine ⟨_, rfl, ?_⟩
  have ho := (optical_mbSubmit h.box 0x0E .fd hlt s).trans hmed
  unfold MbGo.argAt at hn hstep
  rw [hp, if_pos rfl, mailbox_eq_answer h rfl (out := .ok []) (u := (s.mbSubmit m 0x0E).wantCal .fd n) ?body]
  case body =>
    simp only [hn, hstep]
    simp [State.hasPosition, hlt, ho, isPkg]
  refine ⟨answered_ok .., ?_⟩
  rw [link_mbAnswer_ok, State.wantCal, link_modLink, link_sub]

theorem startSwap_pending (p : Part) (n : Nat) (back : Bool) (s : State) : (s.startSwap p n back).get p (Rg.LINK_SWAP_PENDING n) = 1 := by
  unfold State.startSwap
  rw [State.get_modLink, State.get_put_same]
  rfl

theorem startSwap_link (p : Part) (n : Nat) (back : Bool) (s : State) : ((s.startSwap p n back).link p n).swapBack = back ∧ ((s.startSwap p n back).link p n).swapAt = none := by
  unfold State.startSwap
  rw [link_modLink]
  exact ⟨rfl, rfl⟩

/-- LINK_SWAP of a port on its own lane, its group's spare free, prepares the swap (R144, R145, R148). -/
theorem linkSwap_prepares {m : MbGo} {n : Nat} {s : State} (h : MbReady m 5 none 2 s) (hp : m.part = .fd) (hn : m.argAt [1, 1] 0 = n) (hback : m.argAt [1, 1] 1 = 0)
    (hlt : n < 72) (hon : s.get .fd (Rg.LINK_ON_SPARE n) = 0) (hfree : s.spareFree .fd n = true) :
    Gives (.linkSwap m) s fun t => Answered m 0 t ∧ t.get .fd (Rg.LINK_SWAP_PENDING n) = 1 ∧ (t.link .fd n).swapBack = false ∧ (t.link .fd n).swapAt = none := by
  refine ⟨_, rfl, ?_⟩
  have hn80 : n < 80 := by omega
  have hflag : (s.mbSubmit m 0x0F).flag .fd (Rg.LINK_ON_SPARE n) = false := flag0 ((get_stat_mbSubmit h.box 0x0F hn80 s).trans hon)
  have hspare : (s.mbSubmit m 0x0F).spareFree .fd n = true :=
    (spareFree_congr hlt (fun k hk f ho hl => get_stat_mbSubmit h.box 0x0F hk s ho hl) fun k => link_sub ..).trans hfree
  have hne : spareOf .fd n ≠ n := by
    simp only [spareOf, if_true]
    omega
  unfold MbGo.argAt at hn hback
  rw [hp, if_pos rfl, mailbox_eq_answer h rfl (out := .ok []) (u := ((s.mbSubmit m 0x0F).startSwap .fd n false).laneSum .fd) ?body]
  case body =>
    simp only [hn, hback]
    simp [State.hasPosition, hn80, hflag, hne, hspare]
  refine ⟨answered_ok .., ?_, ?_⟩
  · rw [get_stat_mbAnswer_ok h.box _ _ hn80, get_stat_laneSum n, startSwap_pending]
  · rw [link_mbAnswer_ok, laneSum_link]
    exact startSwap_link ..

/-- LINK_RESET takes the link DOWN and clears its retry count (R138, R148). -/
theorem linkReset_takes_down {m : MbGo} {n : Nat} {s : State} (h : MbReady m 5 none 1 s) (hp : m.part = .fd) (hn : m.argAt [1] 0 = n) (hlt : n < 64)
    (hrole : s.get .fd Rg.REFS_ROLE = 1) (hst : s.get .fd (Rg.LINK_LSTATE n) ≠ 0) :
    Gives (.linkReset m) s fun t => Answered m 0 t ∧ t.get .fd (Rg.LINK_LSTATE n) = 0 ∧ (t.link .fd n).fails = 0
        ∧ (s.get .fd (Rg.LINK_LSTATE n) ≠ 3 → s.get .fd (Rg.LINK_LSTATE n) < 5 → (t.link .fd n).backoffUntil = s.now + 100000000) := by
  refine ⟨_, rfl, ?_⟩
  have hn80 : n < 80 := by omega
  generalize hu : ((s.mbSubmit m 0x10).modLink .fd n fun l => { l with fails := 0 }) = u
  have hget : ∀ f : Machine.Field, u.get .fd f = (s.mbSubmit m 0x10).get .fd f := fun f => by rw [← hu, State.get_modLink]
  have hust : u.get .fd (Rg.LINK_LSTATE n) = s.get .fd (Rg.LINK_LSTATE n) := (hget _).trans (get_stat_mbSubmit h.box 0x10 hn80 s)
  have hurole : u.get .fd Rg.REFS_ROLE = 1 := by rw [hget, get_sub h.box _ (by simp [mbKeys, Machine.Field.key, Rg.REFS_ROLE]), hrole]
  have hfails : (u.link .fd n).fails = 0 := by rw [← hu, link_modLink]
  have hnow : u.now = s.now := by rw [← hu]; exact mbSubmit_now ..
  obtain ⟨hdown, -, -, -, -, -, hback⟩ := down_root hlt hurole (by rwa [hust])
  unfold MbGo.argAt at hn
  rw [hp, if_pos rfl, mailbox_eq_answer h rfl (out := .ok []) (u := (u.linkDown .fd n).modLink .fd n fun l => { l with fails := 0 }) ?body]
  case body =>
    simp only [hn, hu]
    simp [State.hasPosition, hn80]
  refine ⟨answered_ok .., ?_, ?_, fun hne hlt5 => ?_⟩
  · rw [get_stat_mbAnswer_ok h.box _ _ hn80, State.get_modLink, hdown]
  · rw [link_mbAnswer_ok, link_modLink]
  · have hmem : u.get .fd (Rg.LINK_LSTATE n) ∈ [1, 2, 4] := by
      rw [hust]
      simp only [List.mem_cons, List.not_mem_nil, or_false]
      omega
    rw [link_mbAnswer_ok, link_modLink, hback, if_pos hmem, if_neg (by omega), hnow]

/-! Calibration runs (R131 to R134). -/

/-- A run begins at a parent end that wants one; the place of its first slice is the model's choice (R132, log entry 66). -/
theorem reflectRunStart_begins {n : Nat} {s : State} (hlt : n < 64) (hwant : (s.link .fd n).calWant = true) (hup : s.roleUp .fd 5 = true) (hmed : s.optical .fd n = false)
    (hrun : (s.link .fd n).calRun = none) (hst : s.get .fd (Rg.LINK_LSTATE n) = 2) :
    Gives (.reflectRunStart .fd n) s fun t => (t.link .fd n).calRun = some { nextBeat := s.beat .fd + 17 } ∧ (t.link .fd n).calWant = false ∧ t.get .fd (Rg.LINK_CAL_RUNNING n) = 1 := by
  refine ⟨_, rfl, ?_⟩
  have hlst : s.lstate .fd n = 2 := hst
  have hparent : s.parentEnd .fd n = true := by simp [State.parentEnd, hlt]
  simp only [hwant, hup, hmed, hrun, hlst, hparent, isPkg, Bool.not_true, Bool.and_false, reduceCtorEq, decide_false, Bool.false_and, Option.isSome_none, Bool.or_false,
    Nat.lt_irrefl, Bool.false_eq_true, if_false, if_true, show ¬ (2 : Nat) = 3 by decide]
  refine ⟨?_, ?_, ?_⟩
  · rw [link_put, link_modLink]
  · rw [link_put, link_modLink]
  · rw [State.get_put_same]
    rfl

/-- The delay in ps that a slice gives for its pair: half the difference of the two stamps of the sense tap, less the lane's TDR_K trim (R132, R358). -/
def sliceDelay (p : Part) (n sent reflected : Nat) (s : State) : Int := lsbToPs (roundDiv ((reflected : Int) - sent) 2 - s.trim p (trimTdr (s.laneOf p n)))

/-- A slice of a run that is not over adds its delay; the eighth sends the average over the tunnel; the rounding and the TDR_K trim follow log entries 65 and 76 (R132). -/
theorem calSlice_adds (p : Part) (n a b : Nat) {r : Machine.CalRun} {s : State} (hrun : (s.link p n).calRun = some r) (hlt : r.slices < 8) :
    Gives (.calSlice p n a b) s fun t => t.link p n = { s.link p n with
      calRun := some { r with slices := r.slices + 1, sum := r.sum + sliceDelay p n a b s, nextBeat := r.nextBeat + 8 },
      tunnel := if r.slices + 1 = 8 then (s.link p n).tunnel ++ [.calAverage (roundDiv (r.sum + sliceDelay p n a b s) 8)] else (s.link p n).tunnel } := by
  refine ⟨_, rfl, ?_⟩
  simp only [hrun, Nat.not_le.2 hlt, if_false]
  rw [link_modLink, link_of_waits (Waits.awaitBeat p _ s)]
  rfl

/-- The first seven slices add to the sum (R132). -/
theorem calSlice_counts {p : Part} {n a b : Nat} {r : Machine.CalRun} {s : State} (hrun : (s.link p n).calRun = some r) (hlt : r.slices < 7) :
    Gives (.calSlice p n a b) s fun t => t.link p n = { s.link p n with
      calRun := some { r with slices := r.slices + 1, sum := r.sum + sliceDelay p n a b s, nextBeat := r.nextBeat + 8 } } := by
  obtain ⟨t, ht, hlink⟩ := calSlice_adds p n a b hrun (by omega)
  rw [if_neg (by omega)] at hlink
  exact ⟨t, ht, hlink⟩

/-- The eighth slice sends the average to the far end (R132, R133). -/
theorem calSlice_sends_average {p : Part} {n a b : Nat} {r : Machine.CalRun} {s : State} (hrun : (s.link p n).calRun = some r) (hlast : r.slices = 7) :
    Gives (.calSlice p n a b) s fun t => (t.link p n).tunnel = (s.link p n).tunnel ++ [.calAverage (roundDiv (r.sum + sliceDelay p n a b s) 8)] := by
  obtain ⟨t, ht, hlink⟩ := calSlice_adds p n a b hrun (by omega)
  rw [if_pos (by omega)] at hlink
  exact ⟨t, ht, congrArg Machine.Link.tunnel hlink⟩

/-- A calibration taken now: the record with its basis, the asymmetry in its field, CAL_VALID (R131, R134). -/
theorem newCal_spec (p : Part) (n basis : Nat) {asym : Int} (ha : -100000 ≤ asym ∧ asym ≤ 100000) (s : State) :
    (s.newCal p n basis asym).getS p (Rg.LINK_MED_ASYM n) = asym ∧ (s.newCal p n basis asym).get p (Rg.LINK_CAL_VALID n) = 1
      ∧ ((s.newCal p n basis asym).link p n).calRun = (s.link p n).calRun
      ∧ (((s.newCal p n basis asym).link p n).cal.map fun c => (c.basis, c.medAsym)) = some (basis, asym) := by
  unfold State.newCal State.putS
  refine ⟨?_, ?_, ?_, ?_⟩
  · unfold State.getS
    rw [State.get_put_ne _ (key_ne_of_off (by simp only [Rg.LINK_MED_ASYM, Rg.LINK_CAL_VALID]; omega)), State.get_put_same]
    exact toSigned_ofSigned ha
  · rw [State.get_put_same]
    rfl
  · rw [link_put, link_put, link_setLink]
  · rw [link_put, link_put, link_setLink]
    rfl

/-- Outside the supply guard and with P5 running the record is stored at once (R134, R354, R390). -/
theorem storeCal_eq {p : Part} {n : Nat} {s : State} (hguard : s.get p Rg.SUP_GUARD = 0) (hup : p = .fd → s.roleUp .fd 5 = true) :
    s.storeCal p n = s.modLink p n fun l => { l with storedCal := l.cal } := by
  have hg : s.inGuard p = false := flag0 hguard
  have hu : (decide (p = .fd) && !s.roleUp .fd 5) = false := by
    by_cases hp : p = .fd
    · simp [hp, hup hp]
    · simp [hp]
  unfold State.storeCal
  rw [hg, hu]
  rfl

/-- A calibration leaves the registers above the links'. -/
theorem get_newCal_of_off (p : Part) {n : Nat} (hn : n < 80) (basis : Nat) (asym : Int) {f : Machine.Field} (ho : 0x2A00 ≤ f.off) (s : State) :
    (s.newCal p n basis asym).get p f = s.get p f := by
  unfold State.newCal State.putS
  rw [State.get_put_ne _ (by simp only [Machine.Field.key, Rg.LINK_CAL_VALID]; omega), State.get_put_ne _ (by simp only [Machine.Field.key, Rg.LINK_MED_ASYM]; omega),
    State.get_setLink]

/-- A run ends in a calibration record of basis 1, stored at once; how it rounds is the model's choice (R132, R134, log entry 65). -/
theorem reflectRunEnd_records {n : Nat} {sum far : Int} {b : Nat} {s : State} (hlt : n < 64)
    (hrun : (s.link .fd n).calRun = some { slices := 8, sum := sum, farAvg := some far, nextBeat := b }) (hguard : s.get .fd Rg.SUP_GUARD = 0) (hup : s.roleUp .fd 5 = true) :
    Gives (.reflectRunEnd .fd n) s fun t => (t.link .fd n).calRun = none ∧ t.get .fd (Rg.LINK_CAL_VALID n) = 1 ∧ t.get .fd (Rg.LINK_CAL_RUNNING n) = 0
        ∧ t.getS .fd (Rg.LINK_MED_ASYM n) = clampInt (-100000) 100000 (roundDiv sum 8 - far) ∧ (t.link .fd n).storedCal = (t.link .fd n).cal
        ∧ ((t.link .fd n).cal.map fun c => (c.basis, c.medAsym)) = some (1, clampInt (-100000) 100000 (roundDiv sum 8 - far)) := by
  refine ⟨_, rfl, ?_⟩
  have hparent : s.parentEnd .fd n = true := by simp [State.parentEnd, hlt]
  simp only [hrun, hparent, if_true]
  generalize hu : s.modLink .fd n (fun l => { l with calRun := none }) = u
  have hnone : (u.link .fd n).calRun = none := by rw [← hu, link_modLink]
  have hget : ∀ f : Machine.Field, u.get .fd f = s.get .fd f := fun f => by rw [← hu, State.get_modLink]
  obtain ⟨hasym, hvalid, hkept, hrec⟩ := newCal_spec .fd n 1 (clampInt_mem (x := roundDiv sum 8 - far) (show (-100000 : Int) ≤ 100000 by decide)) u
  generalize hv : u.newCal .fd n 1 (clampInt (-100000) 100000 (roundDiv sum 8 - far)) = v at *
  have hhigh : ∀ f : Machine.Field, 0x2A00 ≤ f.off → ((v.put .fd (Rg.LINK_CAL_RUNNING n) 0).get .fd f) = s.get .fd f := fun f ho => by
    rw [State.get_put_ne _ (by simp only [Machine.Field.key, Rg.LINK_CAL_RUNNING]; omega), ← hv, get_newCal_of_off .fd (by omega) _ _ ho, hget]
  rw [storeCal_eq ((hhigh _ (by decide)).trans hguard) fun _ =>
    (roleUp_congr (fun i _ => ⟨hhigh _ (by simp only [Rg.PREF_ROLE]; omega), hhigh _ (by simp only [Rg.PREF_STATE]; omega)⟩) 5).trans hup]
  simp only [State.getS, State.get_modLink, link_modLink, link_put]
  refine ⟨hkept.trans hnone, ?_, State.get_put_same .., ?_, trivial, hrec⟩
  · rw [State.get_put_ne _ key_ne_of_lo, hvalid]
  · rw [State.get_put_ne _ (key_ne_of_off (by simp only [Rg.LINK_MED_ASYM, Rg.LINK_CAL_RUNNING]; omega))]
    exact hasym

/-! Swaps (R145). -/

/-- A spare that is ready has its swap announced for a beat at least 16 ahead (R145). -/
theorem spareReady_announces {p : Part} {n : Nat} {s : State} (hpend : s.get p (Rg.LINK_SWAP_PENDING n) = 1) (hnone : (s.link p n).swapAt = none) :
    Gives (.spareReady p n true) s fun t => t.link p n = { s.link p n with swapAt := some (s.announceAt p n) } ∧ s.beat p + 16 ≤ s.announceAt p n := by
  refine ⟨_, rfl, ?_, ?_⟩
  · simp only [flag1 hpend, hnone, Bool.not_true, Option.isSome_none, Bool.or_false, Bool.false_eq_true, if_false, if_true]
    exact link_setLink ..
  · unfold State.announceAt
    split
    · split <;> omega
    · omega

/-- A distributor's port on its group's spare: ON_SPARE and both SPARE_MAP fields name the move (R143). -/
theorem putOnSpare_spec {n : Nat} (hn : n < 72) (s : State) :
    (s.putOnSpare .fd n true).get .fd (Rg.LINK_ON_SPARE n) = 1 ∧ (s.putOnSpare .fd n true).get .fd (Rg.LINK_SPARE_MAP n) = 72 + n / 9
      ∧ (s.putOnSpare .fd n true).get .fd (Rg.LINK_SPARE_MAP (72 + n / 9)) = n := by
  have hother : ∀ f g : Machine.Field, f.off = 0x2004 + 32 * n → g.off = 0x2004 + 32 * (72 + n / 9) → f.off ≠ g.off := by omega
  have hmap : ∀ k : Nat, (Rg.LINK_SPARE_MAP k).width = 7 := fun _ => rfl
  simp only [State.putOnSpare, State.putFlag, spareOf, if_true]
  refine ⟨?_, ?_, ?_⟩
  · rw [State.get_put_ne _ (key_ne_of_off (hother _ _ rfl rfl)), State.get_put_ne _ key_ne_of_lo, State.get_put_same]
    rfl
  · rw [State.get_put_ne _ (key_ne_of_off (hother _ _ rfl rfl)), State.get_put_same, hmap]
    omega
  · rw [State.get_put_same, hmap]
    omega

/-- At its boundary a swap moves the port to the spare and discards a run; that it clears DEGRADED is the model's choice (R143, R145, log entry 51). -/
theorem swapAtBoundary_moves {n b : Nat} {s : State} (hlt : n < 72) (hat : (s.link .fd n).swapAt = some b) (hback : (s.link .fd n).swapBack = false) :
    Gives (.swapAtBoundary .fd n) s fun t => t.get .fd (Rg.LINK_ON_SPARE n) = 1 ∧ t.get .fd (Rg.LINK_SPARE_MAP n) = 72 + n / 9 ∧ t.get .fd (Rg.LINK_SPARE_MAP (72 + n / 9)) = n
        ∧ t.get .fd (Rg.LINK_SWAP_PENDING n) = 0 ∧ t.get .fd (Rg.LINK_DEGRADED n) = 0 ∧ (t.link .fd n).swapAt = none ∧ (t.link .fd n).calRun = none := by
  refine ⟨_, rfl, ?_⟩
  obtain ⟨hon, hmap, hspare⟩ := putOnSpare_spec hlt (s.awaitBeat .fd b)
  have hother : ∀ f g : Machine.Field, f.off = 0x2004 + 32 * (72 + n / 9) → g.off = 0x2004 + 32 * n → f.off ≠ g.off := by omega
  simp only [hat, hback, Bool.not_false, State.putFlag]
  generalize (s.awaitBeat .fd b).putOnSpare .fd n true = u at *
  refine ⟨?_, ?_, ?_, ?_, ?_, ?_, ?_⟩
  · rw [get_stat_laneSum n, State.get_put_ne _ key_ne_of_lo, State.get_put_ne _ key_ne_of_lo, State.get_put_ne _ key_ne_of_lo, State.get_modLink, hon]
  · rw [get_stat_laneSum n, State.get_put_ne _ key_ne_of_lo, State.get_put_ne _ key_ne_of_lo, State.get_put_ne _ key_ne_of_lo, State.get_modLink, hmap]
  · have hne : ∀ g : Machine.Field, g.off = 0x2004 + 32 * n → decide (g.lo < 32) = true → (Rg.LINK_SPARE_MAP (72 + n / 9)).key ≠ g.key :=
      fun g ho hl => key_ne_of_off (hother _ _ rfl ho) rfl hl
    rw [get_stat_laneSum (72 + n / 9), State.get_put_ne _ (hne _ rfl rfl), State.get_put_ne _ (hne _ rfl rfl), State.get_put_ne _ (hne _ rfl rfl), State.get_modLink, hspare]
  · rw [get_stat_laneSum n, State.get_put_ne _ key_ne_of_lo, State.get_put_ne _ key_ne_of_lo, State.get_put_same]
    rfl
  · rw [get_stat_laneSum n, State.get_put_same]
    rfl
  · rw [laneSum_link, link_put, link_put, link_put, link_modLink]
  · rw [laneSum_link, link_put, link_put, link_put, link_modLink]

/-! The payload split and the carrying role (R20, R120). -/

theorem governs_of_waits {s t : State} (h : Waits s t) (p : Part) (n : Nat) : t.governs p n = s.governs p n := by
  have hget : ∀ f : Machine.Field, ¬ timeKeys f.key → t.get .fd f = s.get .fd f := h.get .fd
  cases p with
  | sc => rfl
  | fd =>
    unfold State.governs State.role
    rw [hget Rg.REFS_ROLE (by simp [timeKeys, Machine.Field.key, Rg.REFS_ROLE, Rg.HT_HT_WRAP, Rg.HT_SLEWING]),
      hget Rg.ROLL_SEAT (by simp [timeKeys, Machine.Field.key, Rg.ROLL_SEAT, Rg.HT_HT_WRAP, Rg.HT_SLEWING]),
      hget Rg.ROLL_ROLL (by simp [timeKeys, Machine.Field.key, Rg.ROLL_ROLL, Rg.HT_HT_WRAP, Rg.HT_SLEWING])]

theorem governs_modLink (p q : Part) (n k : Nat) (f : Machine.Link → Machine.Link) (s : State) : (s.modLink q k f).governs p n = s.governs p n := by
  cases p with
  | sc => rfl
  | fd =>
    unfold State.governs State.role
    simp only [State.get_modLink]

/-- The split that the other end has announced is in use from its beat on (R120). -/
theorem paySplitChange_takes_over {p : Part} {n : Nat} {s : State} (hann : (s.link p n).payAnn = true) (hgov : s.governs p n = false) :
    Gives (.paySplitChange p n) s fun t => t.link p n = { s.link p n with payCur := (s.link p n).payNext, payAnn := false } := by
  refine ⟨_, rfl, ?_⟩
  have hw := Waits.awaitBeat p (s.link p n).payAt s
  simp only [hann, governs_modLink, (governs_of_waits hw p n).trans hgov, Bool.not_true, Bool.not_false, Bool.false_eq_true, if_false, if_true]
  rw [link_put, link_modLink, link_of_waits hw]

theorem bit_two_pow (n i : Nat) : bit (2 ^ n) i = decide (n = i) := by rw [bit_testBit, Nat.testBit_two_pow]

/-- Without live slots the carried packages change alone. -/
theorem carryNow_of_no_slots (mask : Nat) (took : Bool) {s : State} (h : s.dist.hall.slots = []) : s.carryNow mask took = s.setHall { s.dist.hall with carrying := mask } := by
  unfold State.carryNow
  show List.foldl _ _ s.dist.hall.slots = _
  rw [h]
  rfl

/-- A leaf whose own path is lost gives up the package of a port that it carries, and no other (R20, log entry 23). -/
theorem carryingRoleMove_gives_up {n k : Nat} {s : State} (hrole : s.get .fd Rg.REFS_ROLE = 4) (hdual : s.dist.hall.dualHere = true) (hslots : s.dist.hall.slots = [])
    (hpath : s.get .fd (Rg.LINK_LSTATE 64) = 0) (hlt : n < 64) (hcar : bit s.dist.hall.carrying n = true) :
    Gives (.carryingRoleMove k (2 ^ n) false) s fun t =>
      bit t.dist.hall.carrying n = false ∧ (∀ i < 64, i ≠ n → bit t.dist.hall.carrying i = bit s.dist.hall.carrying i) := by
  refine ⟨_, rfl, ?_⟩
  have hheld : ∀ i, s.pathHeld i = false := fun i => by simp [State.pathHeld, State.linkUp, State.lstate, hpath]
  have hdist : (s.nextBeat .fd).dist = s.dist := (Waits.nextBeat .fd s).dist
  have hrole4 : (s.role == 4) = true := by simp [State.role, hrole]
  simp only [hrole4, hdual, Bool.and_self, if_true, hheld, Bool.not_false, Bool.true_and, Bool.false_eq_true, if_false, bit_two_pow]
  generalize hm : maskOf 64 (fun i => decide (n = i) && bit s.dist.hall.carrying i) = moved
  have hbit : ∀ i < 64, bit moved i = (decide (n = i) && bit s.dist.hall.carrying i) := fun i hi => by rw [← hm, bit_maskOf hi]
  have hne : moved ≠ 0 := fun h0 => by
    have hn := hbit n hlt
    rw [h0, hcar] at hn
    simp [bit] at hn
  rw [if_neg hne, carryNow_of_no_slots _ _ (by rw [hdist, hslots])]
  have hafter : ∀ i < 64, bit (minusMask 64 s.dist.hall.carrying moved) i = (bit s.dist.hall.carrying i && !bit moved i) := fun i hi => bit_maskOf hi
  refine ⟨?_, fun i hi hin => ?_⟩
  · show bit (minusMask 64 s.dist.hall.carrying moved) n = false
    rw [hafter n hlt, hbit n hlt, hcar]
    simp
  · show bit (minusMask 64 s.dist.hall.carrying moved) i = _
    rw [hafter i hi, hbit i hi]
    simp [Ne.symm hin]

/-! A frame received in TRAINING (R99, R116 to R126, R136, R144). -/

theorem linkUp_of_training {p : Part} {n : Nat} {s : State} (h : s.lstate p n = 1) : s.linkUp p n = false := by
  simp [State.linkUp, h]

theorem tdc_modLink {p : Part} {n : Nat} {f : Machine.Link → Machine.Link} (hf : ∀ l, (f l).tdc = l.tdc) (k : Nat) (s : State) :
    ((s.modLink p n f).link p k).tdc = (s.link p k).tdc := by
  by_cases hk : k = n
  · rw [hk, link_modLink, hf]
  · rw [State.modLink, link_setLink_ne p hk]

/-- An edge changes nothing of a pair that does not calibrate (R99). -/
theorem edge_of_idle {q : TdcPair} (h : q.cal = .idle) (now : Nat) (twin : Option Int) : q.edge now twin = q := by
  unfold TdcPair.edge
  rw [h]
  rfl

/-- With the lane's pair idle, the stamp of a frame's edge changes no register and no link. -/
theorem pairEdge_of_idle {k : Nat} {s : State} (h : (s.pair (.lane .fd k)).cal = .idle) (twin : Option Int) :
    (∀ f : Machine.Field, (s.pairEdge (.lane .fd k) twin).get .fd f = s.get .fd f) ∧ ∀ j, (s.pairEdge (.lane .fd k) twin).link .fd j = s.link .fd j := by
  have hedge : s.pairEdge (.lane .fd k) twin = s.modLink .fd k fun l => { l with tdc := (s.link .fd k).tdc } := by
    unfold State.pairEdge State.pairNow
    rw [edge_of_idle h, if_pos (Nat.le_refl _)]
    rfl
  rw [hedge]
  refine ⟨fun f => State.get_modLink .., fun j => ?_⟩
  by_cases hj : j = k
  · rw [hj, link_modLink]
  · rw [State.modLink, link_setLink_ne _ hj]

/-- A header without announcements leaves the end that governs the split as it was. -/
theorem takeAnnounced_of_none {p : Part} {n : Nat} {b : LinkBlk} {s : State} (hgov : s.governs p n = true) (hswap : b.swapAnn = false) (hcal : b.calAnn = false) (beat : Nat) :
    s.takeAnnounced p n beat b = s := by
  simp [State.takeAnnounced, hgov, hswap, hcal]

theorem link_takeHeader (p : Part) (n : Nat) (b : LinkBlk) (tx rx : Nat) (clean : Bool) (s : State) :
    (s.takeHeader p n b tx rx clean).link p n = { s.link p n with
      far := b, farHeard := true, hdrBad := 0, lockRun := min 16 ((s.link p n).lockRun + 1),
      echo2 := if (s.link p n).echoOk then some ((s.link p n).echoTx, (s.link p n).echoRx) else none, echoClean2 := (s.link p n).echoClean,
      echoTx := tx, echoRx := rx, echoOk := true, echoClean := clean } := by
  simp only [State.takeHeader, link_put, link_modLink]

theorem tdc_takeHeader (p : Part) (n : Nat) (b : LinkBlk) (tx rx : Nat) (clean : Bool) (k : Nat) (s : State) :
    ((s.takeHeader p n b tx rx clean).link p k).tdc = (s.link p k).tdc := by
  simp only [State.takeHeader, link_put]
  exact tdc_modLink (by intro; rfl) k s

theorem farRole_takeHeader (p : Part) (n : Nat) (b : LinkBlk) (tx rx : Nat) (clean : Bool) (s : State) :
    (s.takeHeader p n b tx rx clean).get p (Rg.LINK_FAR_ROLE n) = b.role % 2 ^ 3 := by
  have hne : ∀ g : Machine.Field, g.off = 0x201C + 32 * n → (Rg.LINK_FAR_ROLE n).off ≠ g.off := fun g hg => by
    simp only [hg, Rg.LINK_FAR_ROLE]
    omega
  unfold State.takeHeader
  rw [State.get_put_ne _ (key_ne_of_off (hne _ rfl)), State.get_put_ne _ (key_ne_of_off (hne _ rfl)), State.get_put_same]
  rfl

/-- A header leaves every register but those of the far end (R118, R147). -/
theorem get_takeHeader (p : Part) {n : Nat} {f : Machine.Field} (hrole : f.key ≠ (Rg.LINK_FAR_ROLE n).key) (ho : f.off ≠ 0x201C + 32 * n)
    (b : LinkBlk) (tx rx : Nat) (clean : Bool) (s : State) (hl : decide (f.lo < 32) = true := by rfl) : (s.takeHeader p n b tx rx clean).get p f = s.get p f := by
  unfold State.takeHeader
  rw [State.get_put_ne _ (key_ne_of_off ho hl), State.get_put_ne _ (key_ne_of_off ho hl), State.get_put_ne _ hrole, State.get_modLink]

/-- Of two writes at one key the later stays. -/
theorem smap_set_set {α : Type} (k : Nat) (v w : α) (m : SMap α) : SMap.set k w (SMap.set k v m) = SMap.set k w m := by
  induction m with
  | nil => simp [SMap.set]
  | cons e m ih =>
    obtain ⟨j, x⟩ := e
    simp only [SMap.set]
    split
    · simp [SMap.set]
    · split
      · simp [SMap.set]
      · simp [SMap.set, *]

theorem laneOf_congr {p : Part} {n : Nat} {s t : State} (h : t.get p (Rg.LINK_ON_SPARE n) = s.get p (Rg.LINK_ON_SPARE n)) : t.laneOf p n = s.laneOf p n := by
  unfold State.laneOf State.flag
  rw [h]

theorem modLink_modLink (p : Part) (n : Nat) (f g : Machine.Link → Machine.Link) (s : State) : (s.modLink p n f).modLink p n g = s.modLink p n fun l => g (f l) := by
  unfold State.modLink
  rw [link_setLink]
  cases p <;> simp [State.setLink, smap_set_set]

/-- A frame without errors in a window without errors is no cause of SUSPECT (R120). -/
theorem takeUncorr_of_none {p : Part} {n : Nat} {s : State} (h : (s.link p n).uncorr = []) :
    s.takeUncorr p n 0 = s.modLink p n fun l => { l with uncorr := (0 :: l.uncorr).take 1024 } := by
  have hsum : ((s.modLink p n fun l => { l with uncorr := (0 :: l.uncorr).take 1024 }).link p n).uncorr.foldl (· + ·) 0 = 0 := by
    rw [link_modLink, h]
    rfl
  unfold State.takeUncorr
  rw [if_pos rfl]
  exact if_neg (by rw [hsum]; decide)

/-- A lane that was sound and stays sound keeps its condition (R144). -/
theorem laneCheck_of_sound {p : Part} {n : Nat} {s : State} (hpkg : isPkg p n = false) (hdeg : s.get p (Rg.LINK_DEGRADED n) = 0) (hsym : (s.link p n).symErr.foldl (· + ·) 0 = 0)
    (hunc : (s.link p n).uncorr.foldl (· + ·) 0 = 0) (hfault : (s.link p (s.laneOf p n)).tdc.fault = false) : s.laneCheck p n = s.putFlag p (Rg.LINK_DEGRADED n) false := by
  have hwas : s.flag p (Rg.LINK_DEGRADED n) = false := flag0 hdeg
  simp [State.laneCheck, hpkg, hwas, hsym, hunc, hfault]

/-- The symbol errors and the uncorrected codewords of a frame without either (R120, R144). -/
def cleanFrame (l : Machine.Link) : Machine.Link := { l with symErr := (0 :: l.symErr).take 1024, uncorr := (0 :: l.uncorr).take 1024 }

/-- A frame without errors on a sound lane: the errors of the frame enter their windows, the lane stays as it was; in TRAINING nothing else is taken (R120, R144). -/
theorem takeCodewords_of_clean {n : Nat} {r : RxParts} {s : State} (hst : s.lstate .fd n = 1) (hunc : (s.link .fd n).uncorr = [])
    (hsym : (s.link .fd n).symErr = []) (hdeg : s.get .fd (Rg.LINK_DEGRADED n) = 0) (hfault : (s.link .fd (s.laneOf .fd n)).tdc.fault = false) (hr : r.uncorrected = 0)
    (hc : r.corrected = 0) (x : RxFrame) : s.takeCodewords .fd n r x = (s.modLink .fd n cleanFrame).putFlag .fd (Rg.LINK_DEGRADED n) false := by
  have hsums : (s.modLink .fd n fun l => { l with symErr := (0 :: l.symErr).take 1024 }).takeUncorr .fd n 0 = s.modLink .fd n cleanFrame := by
    rw [takeUncorr_of_none (by rw [link_modLink, hunc])]
    rw [modLink_modLink]
    rfl
  have hlane : (s.modLink .fd n cleanFrame).laneOf .fd n = s.laneOf .fd n := laneOf_congr (State.get_modLink ..)
  have hcheck : (s.modLink .fd n cleanFrame).laneCheck .fd n = (s.modLink .fd n cleanFrame).putFlag .fd (Rg.LINK_DEGRADED n) false := by
    refine laneCheck_of_sound rfl (by rw [State.get_modLink, hdeg]) ?_ ?_ ?_
    · rw [link_modLink, cleanFrame, hsym]
      rfl
    · rw [link_modLink, cleanFrame, hunc]
      rfl
    · rw [hlane, tdc_modLink (f := cleanFrame) (fun _ => rfl), hfault]
  have hlst : ((s.modLink .fd n cleanFrame).putFlag .fd (Rg.LINK_DEGRADED n) false).lstate .fd n = 1 := by
    unfold State.lstate State.putFlag
    rw [State.get_put_ne _ key_ne_of_lo, State.get_modLink]
    exact hst
  unfold State.takeCodewords
  simp only [hc, hr, hsums, hcheck, hlst, linkUp_of_training hlst, Bool.false_eq_true, if_false, show ¬ 2 ≤ 1 by decide]
  split <;> simp

/-- What a hold begins or ends at is the timers of the link alone (R136). -/
theorem trackHold_spec (p : Part) (n : Nat) (s : State) :
    (∀ f : Machine.Field, (s.trackHold p n).get p f = s.get p f) ∧ ∃ a b, (s.trackHold p n).link p n = { s.link p n with heldFrom := a, heldNs := b } := by
  unfold State.trackHold
  refine ⟨fun f => State.get_modLink .., ?_⟩
  rw [link_modLink]
  split
  · split
    · exact ⟨_, _, rfl⟩
    · exact ⟨_, _, rfl⟩
  · split
    · exact ⟨_, _, rfl⟩
    · exact ⟨_, _, rfl⟩

/-- Before frame lock a downstream port of a unit that follows no port goes no further (R116, R136). -/
theorem linkStep_of_unlocked {n : Nat} {s : State} (hn : n < 64) (hst : s.lstate .fd n = 1) (hlock : (s.link .fd n).lockRun < 16) (hsel : s.get .fd Rg.REFS_SEL_STATE = 1) :
    s.linkStep .fd n = s.trackHold .fd n := by
  have hfollow : s.followSource .fd n = s := by simp [State.followSource, hsel]
  have htrain : s.train .fd n = s := by simp [State.train, hlock]
  simp [State.linkStep, hst, htrain, hfollow, show ¬ 68 ≤ n by omega, show ¬ 64 ≤ n by omega]

/-- The link after a frame without errors in TRAINING, before the state machine of the port advances. -/
def takenFrame (n : Nat) (b : LinkBlk) (tx rx : Nat) (clean : Bool) (s : State) : State :=
  ((s.takeHeader .fd n b tx rx clean).modLink .fd n cleanFrame).putFlag .fd (Rg.LINK_DEGRADED n) false

/-- In TRAINING a frame without errors brings its header and its error counts, and nothing else is taken of it (R116 to R126). -/
theorem takeFrame_in_training {n : Nat} {r : RxParts} {s : State} (hst : s.lstate .fd n = 1) (hunc : (s.link .fd n).uncorr = []) (hsym : (s.link .fd n).symErr = [])
    (hdeg : s.get .fd (Rg.LINK_DEGRADED n) = 0) (hfault : (s.link .fd (s.laneOf .fd n)).tdc.fault = false) (hr : r.uncorrected = 0) (hc : r.corrected = 0)
    (rx : Nat) (clean : Bool) (x : RxFrame) :
    (((s.takeHeader .fd n r.blk r.timing.txHt rx clean).takeAck .fd n r.blk.cw0Ack).headerExchange .fd n r.timing rx clean).takeCodewords .fd n r x
      = takenFrame n r.blk r.timing.txHt rx clean s := by
  unfold takenFrame
  generalize hu : s.takeHeader .fd n r.blk r.timing.txHt rx clean = u
  have hget : ∀ f : Machine.Field, f.off = 0x2004 + 32 * n → (f.lo == 4) = false → decide (f.lo < 32) = true → u.get .fd f = s.get .fd f := fun f ho hne hl => by
    rw [← hu, get_takeHeader .fd (key_ne_of_lo ho hne) (by omega) _ _ _ _ _ hl]
  have hlst : u.lstate .fd n = 1 := (hget (Rg.LINK_LSTATE n) rfl rfl rfl).trans hst
  have hack : u.takeAck .fd n r.blk.cw0Ack = u := by simp [State.takeAck, linkUp_of_training hlst]
  have hexch : u.headerExchange .fd n r.timing rx clean = u := by simp [State.headerExchange, hlst]
  have hlane : u.laneOf .fd n = s.laneOf .fd n := laneOf_congr (hget _ rfl rfl rfl)
  rw [hack, hexch]
  refine takeCodewords_of_clean hlst ?_ ?_ ((hget _ rfl rfl rfl).trans hdeg) ?_ hr hc x
  · rw [← hu, link_takeHeader, hunc]
  · rw [← hu, link_takeHeader, hsym]
  · rw [hlane, ← hu, tdc_takeHeader, hfault]

theorem link_takenFrame (n : Nat) (b : LinkBlk) (tx rx : Nat) (clean : Bool) (s : State) :
    (takenFrame n b tx rx clean s).link .fd n = cleanFrame ((s.takeHeader .fd n b tx rx clean).link .fd n) := by
  rw [takenFrame, link_putFlag, link_modLink]

theorem get_takenFrame {n : Nat} {f : Machine.Field} (hf : f.key ≠ (Rg.LINK_DEGRADED n).key) (b : LinkBlk) (tx rx : Nat) (clean : Bool) (s : State) :
    (takenFrame n b tx rx clean s).get .fd f = (s.takeHeader .fd n b tx rx clean).get .fd f := by
  rw [takenFrame, State.putFlag, State.get_put_ne _ hf, State.get_modLink]

/-- The port after that frame: the far end's words and sample at the link, its role, the lock's run one longer, and TRAINING still (R116, R118, R126). -/
theorem linkStep_takenFrame {n : Nat} {s : State} (hn : n < 64) (hst : s.get .fd (Rg.LINK_LSTATE n) = 1) (hsel : s.get .fd Rg.REFS_SEL_STATE = 1)
    (hlock : (s.link .fd n).lockRun < 15) (b : LinkBlk) (tx rx : Nat) (clean : Bool) :
    (((takenFrame n b tx rx clean s).linkStep .fd n).link .fd n).far = b ∧ (((takenFrame n b tx rx clean s).linkStep .fd n).link .fd n).farHeard = true
      ∧ (((takenFrame n b tx rx clean s).linkStep .fd n).link .fd n).lockRun = (s.link .fd n).lockRun + 1 ∧ (((takenFrame n b tx rx clean s).linkStep .fd n).link .fd n).echoTx = tx
      ∧ (((takenFrame n b tx rx clean s).linkStep .fd n).link .fd n).echoRx = rx
      ∧ ((takenFrame n b tx rx clean s).linkStep .fd n).get .fd (Rg.LINK_FAR_ROLE n) = b.role % 2 ^ 3
      ∧ ((takenFrame n b tx rx clean s).linkStep .fd n).get .fd (Rg.LINK_LSTATE n) = 1 := by
  have hst' : (takenFrame n b tx rx clean s).lstate .fd n = 1 := by
    rw [State.lstate, get_takenFrame key_ne_of_lo, get_takeHeader .fd key_ne_of_lo (by simp only [Rg.LINK_LSTATE]; omega), hst]
  have hsel' : (takenFrame n b tx rx clean s).get .fd Rg.REFS_SEL_STATE = 1 := by
    rw [get_takenFrame (key_ne_of_off (by simp only [Rg.REFS_SEL_STATE, Rg.LINK_DEGRADED]; omega)),
      get_takeHeader .fd (key_ne_of_off (by simp only [Rg.REFS_SEL_STATE, Rg.LINK_FAR_ROLE]; omega)) (by simp only [Rg.REFS_SEL_STATE]; omega), hsel]
  have hlink := link_takenFrame n b tx rx clean s
  rw [link_takeHeader] at hlink
  have hstep := linkStep_of_unlocked hn hst' (by rw [hlink]; simp only [cleanFrame]; omega) hsel'
  obtain ⟨hget, from_, ns, hhold⟩ := trackHold_spec .fd n (takenFrame n b tx rx clean s)
  rw [hstep, hget, hget, hhold, hlink]
  refine ⟨rfl, rfl, ?_, rfl, rfl, ?_, hst'⟩
  · simp only [cleanFrame]
    omega
  · rw [get_takenFrame key_ne_of_lo, farRole_takeHeader]

/-- The alignment edge of a frame on an idle pair leaves the registers, the lanes' pairs and, but for the patterns missed, the link (R99, R116). -/
theorem edge_taken {n : Nat} {s : State} (hidle : (s.pair (.lane .fd (s.laneOf .fd n))).cal = .idle) (twin : Option Int) :
    ∃ w, ((s.pairEdge (.lane .fd (s.laneOf .fd n)) twin).modLink .fd n fun l => { l with missRun := 0 }) = w ∧ (∀ f : Machine.Field, w.get .fd f = s.get .fd f)
      ∧ w.link .fd n = { s.link .fd n with missRun := 0 } ∧ ∀ k, (w.link .fd k).tdc = (s.link .fd k).tdc := by
  obtain ⟨hget, hlink⟩ := pairEdge_of_idle hidle twin
  refine ⟨_, rfl, fun f => ?_, ?_, fun k => ?_⟩
  · rw [State.get_modLink, hget]
  · rw [link_modLink, hlink]
  · rw [tdc_modLink (by intro; rfl), hlink]

/-- FRAME_RECEIVE of a good frame on a downstream port in TRAINING (R115 to R126, R136). -/
theorem frameReceive_trains {n : Nat} {x : Machine.RxFrame} {r : Machine.RxParts} {s : State} (hlt : n < 64) (hst : s.get .fd (Rg.LINK_LSTATE n) = 1)
    (hsel : s.get .fd Rg.REFS_SEL_STATE = 1) (hlock : (s.link .fd n).lockRun < 15) (hunc : (s.link .fd n).uncorr = []) (hsym : (s.link .fd n).symErr = [])
    (hdeg : s.get .fd (Rg.LINK_DEGRADED n) = 0) (hrun : (s.link .fd n).calRun = none) (hidle : (s.pair (.lane .fd (s.laneOf .fd n))).cal = .idle)
    (hfault : (s.pair (.lane .fd (s.laneOf .fd n))).fault = false) (hparts : x.parts (s.link .fd n).precode false = r) (hpat : r.pattern = true) (hok : r.headerOk = true)
    (hr : r.uncorrected = 0) (hc : r.corrected = 0) (hcal : r.blk.calAnn = false) (hswap : r.blk.swapAnn = false) :
    Gives (.frameReceive .fd n x) s fun t => (t.link .fd n).far = r.blk ∧ (t.link .fd n).farHeard = true ∧ (t.link .fd n).lockRun = (s.link .fd n).lockRun + 1
        ∧ (t.link .fd n).echoTx = r.timing.txHt
        ∧ (t.link .fd n).echoRx = (s.pair (.lane .fd (s.laneOf .fd n))).stamp x.coarse x.bin (s.trim .fd (trimRx (s.laneOf .fd n)))
        ∧ t.get .fd (Rg.LINK_FAR_ROLE n) = r.blk.role % 2 ^ 3 ∧ t.get .fd (Rg.LINK_LSTATE n) = 1 := by
  refine ⟨_, rfl, ?_⟩
  have hlst : s.lstate .fd n = 1 := hst
  have hslice : (s.link .fd n).farSlice r.timing.beat = false := by simp [Machine.Link.farSlice, hrun]
  have hpkg : isPkg .fd n = false := rfl
  have hgov : ∀ w : State, w.governs .fd n = true := fun w => by simp [State.governs, hlt]
  obtain ⟨w, hw, hget, hlink, htdc⟩ := edge_taken hidle x.twin
  have hlock' : (w.link .fd n).lockRun = (s.link .fd n).lockRun := by rw [hlink]
  simp only [hlst, hpkg, hparts, hok, hslice, hpat, Bool.and_false, Bool.or_false, Bool.not_true, Bool.not_false, Bool.true_and, Bool.false_eq_true, if_false, decide_false,
    Nat.one_ne_zero, State.laneStamp, hw, takeAnnounced_of_none (hgov _) hswap hcal]
  rw [takeFrame_in_training ((hget _).trans hst) (by rw [hlink, hunc]) (by rw [hlink, hsym]) ((hget _).trans hdeg) (by rw [laneOf_congr (hget _), htdc]; exact hfault) hr hc, ← hlock']
  exact linkStep_takenFrame hlt ((hget _).trans hst) ((hget _).trans hsel) (hlock'.trans_lt hlock) ..

/-! A control word on a package port (R123, R125, R160). -/

/-- A lead die of a package, and a die below one, know their direction by the port and the package alone (R125). -/
theorem rightWay_modLink (n k : Nat) (f : Machine.Link → Machine.Link) (w : CtlWord) (s : State) : (s.modLink .sc k f).rightWay .sc n w = s.rightWay .sc n w := rfl

/-- The next word of the link, in its direction and no MONITOR and no BELL, goes into the inbox (R123, R125). -/
theorem takeSlot_of_next {n : Nat} {c : CtlSlot} {s : State} (hcrc : c.crcOk = true) (hseq : c.lseq = (s.link .sc n).rxNext) (hway : s.rightWay .sc n c.word = true)
    (hbell : ∀ a b, c.word.body ≠ .bell a b) (hmon : ∀ a b d e, c.word.body ≠ .monitor a b d e) :
    ((s.takeSlot .sc n c).link .sc n).rxNext = ((s.link .sc n).rxNext + 1) % 65536 ∧ (s.takeSlot .sc n c).sc.inbox = s.sc.inbox ++ [(n, c.word)] := by
  have hroom : s.holdFull .sc c.word = false := rfl
  have hlink := link_modLink .sc n (fun l => { l with rxNext := (l.rxNext + 1) % 65536 }) s
  unfold State.takeSlot
  simp only [hcrc, hseq, hroom, rightWay_modLink, hway, bne_self_eq_false, Bool.and_false, Bool.not_true, Bool.false_eq_true, if_false]
  exact ⟨congrArg Machine.Link.rxNext hlink, rfl⟩

/-- PKG_SLOT_RECEIVE of a control word on an ALIGNED port (R123, R125, R160). -/
theorem pkgSlotReceive_takes_in {n : Nat} {x : Machine.RxSlot} {c : Machine.CtlSlot} {s : State} (hn : 8 ≤ n) (hst : s.get .sc (Rg.LINK_LSTATE n) = 3) (hx : x.parse = .control c)
    (hcrc : c.crcOk = true) (hseq : c.lseq = (s.link .sc n).rxNext) (hway : s.rightWay .sc n c.word = true)
    (hbell : ∀ a b, c.word.body ≠ .bell a b) (hmon : ∀ a b d e, c.word.body ≠ .monitor a b d e) :
    Gives (.pkgSlotReceive n x) s fun t => (t.link .sc n).rxNext = ((s.link .sc n).rxNext + 1) % 65536 ∧ t.sc.inbox = s.sc.inbox ++ [(n, c.word)] := by
  refine ⟨_, rfl, ?_⟩
  have hpkg : isPkg .sc n = true := by simp [isPkg, hn]
  have hup : s.linkUp .sc n = true := by simp [State.linkUp, State.lstate, hst]
  have hon : s.lstate .sc n ≠ 0 := by simp [State.lstate, hst]
  simp only [hpkg, hon, hx, hup, Bool.not_true, Bool.false_or, decide_false, Bool.false_eq_true, if_false, if_true]
  exact takeSlot_of_next hcrc hseq hway hbell hmon

/-! A frame launched in TRAINING (R30, R115 to R118, R427). -/

/-- A step that leaves the state for every element of a list leaves it over the list. -/
theorem foldl_of_fixed {α σ : Type} {f : σ → α → σ} {s : σ} {l : List α} (h : ∀ x ∈ l, f s x = s) : l.foldl f s = s := by
  induction l with
  | nil => rfl
  | cons x l ih =>
    rw [List.foldl_cons, h x List.mem_cons_self]
    exact ih fun y hy => h y (List.mem_cons_of_mem x hy)

/-- With no package lost, a beat marks none absent (R25). -/
theorem goneBeat_of_none {s : State} (h : ∀ k < 64, (s.link .fd k).goneAt = none) : s.goneBeat = s := by
  refine foldl_of_fixed fun k hk => ?_
  simp only [h k (List.mem_range.mp hk)]

/-- The fields of ALERT (R427). -/
def alertKeys (k : Nat) : Prop := k / 32 = Rg.ALERT_CABLING.key / 32

theorem only_raise_if {p : Part} {b : Bool} {K : Nat → Prop} {s t : State} (h : Only p b K s t) {f : Machine.Field} (hk : K f.key) (c : Prop) [Decidable c] :
    Only p b K s (if c then t.raise p f else t) := .ite (fun _ => h.raise hk) fun _ => h

/-- The alerts that stand again at a beat boundary change no register but ALERT (R427). -/
theorem only_alertBeat (p : Part) (s : State) : Only p false alertKeys s (s.alertBeat p) := by
  have hkeys : alertKeys Rg.ALERT_CABLING.key ∧ alertKeys Rg.ALERT_FAULT.key ∧ alertKeys Rg.ALERT_LEAD_HOLD.key := by
    refine ⟨?_, ?_, ?_⟩ <;> unfold alertKeys <;> decide
  obtain ⟨hcabling, hfault, hlead⟩ := hkeys
  exact only_raise_if (only_raise_if (only_raise_if (Only.refl p false alertKeys s) hcabling _) hfault _) hlead _

theorem link_of_only {p : Part} {b : Bool} {K : Nat → Prop} {s t : State} (h : Only p b K s t) (n : Nat) : t.link p n = s.link p n := by
  unfold State.link
  rw [h.links]

/-- The alerts of a beat boundary leave the link, its state and the beat (R427). -/
theorem alertBeat_spec (p : Part) (n : Nat) (s : State) :
    (s.alertBeat p).link p n = s.link p n ∧ (s.alertBeat p).lstate p n = s.lstate p n ∧ (s.alertBeat p).beat p = s.beat p := by
  have honly := only_alertBeat p s
  refine ⟨link_of_only honly n, honly.get _ ?_, ?_⟩
  · simp only [alertKeys, Field.key, Rg.LINK_LSTATE, Rg.ALERT_CABLING]
    omega
  · unfold State.beat State.htNs
    rw [honly.ht]

/-- A port in TRAINING has no words, payload, records, rules, tunnel messages, telemetry or mirrored state to send (R119, R120, R136). -/
theorem sends_nothing_in_training {n : Nat} {s : State} (hst : s.lstate .fd n = 1) :
    (∀ room, s.txPayload .fd n room = ([], s)) ∧ (∀ all, s.txWords .fd n all = ([], s)) ∧ (∀ cws, s.txRecs .fd n cws = ([], s)) ∧ (∀ cws, s.txRules .fd n cws = ([], s))
      ∧ s.txTunnel .fd n = (0, [], s) ∧ s.txTel .fd n = ({}, s) ∧ s.txMirror .fd n = none := by
  have hup := linkUp_of_training hst
  refine ⟨fun room => ?_, fun all => ?_, fun cws => ?_, fun cws => ?_, ?_, ?_, ?_⟩
  · simp [State.txPayload, hup]
  · simp [State.txWords, hup]
  · simp [State.txRecs, State.sendsRecs]
  · simp [State.txRules, hup]
  · simp [State.txTunnel, hst]
  · simp [State.txTel, hup]
  · simp [State.txMirror, hup]

/-- In TRAINING a frame is its header and nothing else (R116 to R120, R136). -/
theorem launch40_of_training {n : Nat} {s : State} (hst : s.lstate .fd n = 1) (hrun : (s.link .fd n).calRun = none) :
    s.launch40 .fd n = ((s.txHeader .fd n false).1, (s.txHeader .fd n false).2.sentFrame .fd n (s.txHeader .fd n false).1) := by
  have hpkg : isPkg .fd n = false := rfl
  have hslice : (s.link .fd n).sliceDue (s.beat .fd) = false := by simp [Machine.Link.sliceDue, hrun]
  obtain ⟨hpay, hwords, hrecs, hrules, htun, htel, -⟩ := sends_nothing_in_training (s := (s.txHeader .fd n false).2) hst
  obtain ⟨-, -, -, -, -, -, hmirror⟩ := sends_nothing_in_training hst
  unfold State.launch40
  simp only [hpkg, hslice, hpay, hwords, hrecs, hrules, htun, htel, hmirror, Bool.false_eq_true, if_false]
  rfl

/-- A frame sent stands in the link's state with its levels on the pins (R114). -/
theorem link_sentFrame (n : Nat) (f : Frame) (s : State) : (s.sentFrame .fd n f).link .fd n = { s.link .fd n with lastTx := some f, pins := f.levels (s.link .fd n).precode } := by
  unfold State.sentFrame
  rw [link_modLink]
  rfl

/-- The timing block carries the stamp of the frame's own edge (R117). -/
theorem txHt_timingOf (tx : Nat) (a : Option (Nat × Nat × Bool)) : (timingOf tx a).txHt = tx := by
  cases a <;> rfl

/-- Without words sent no calibration run is touched (R132). -/
theorem noteBells_nil (p : Part) (n : Nat) (s : State) : s.noteBells p n [] = s := rfl

/-- FRAME_LAUNCH on a port in TRAINING: the header goes out alone, with the link-state block (R115 to R118). -/
theorem frameLaunch_sends_header {n : Nat} {s : State} (hon : s.transmits .fd n = true) (hlast : (s.link .fd n).lastTx = none) (hrun : (s.link .fd n).calRun = none)
    (hgone : ∀ k < 64, (s.link .fd k).goneAt = none) (hst : s.get .fd (Rg.LINK_LSTATE n) = 1) :
    Gives (.frameLaunch .fd n) s fun t => ∃ f, (t.link .fd n).pins = f.levels (s.link .fd n).precode ∧ (t.link .fd n).lastTx = some f ∧ f.beat = s.beat .fd
        ∧ f.timing.txHt = (s.beat .fd * 1024 * nsLsb + 18725) % htSpan
        ∧ f.blk.lstate = 1 ∧ f.blk.position = n ∧ f.blk.cw0Ack = (s.link .fd n).rxNext ∧ f.cw0 = [] ∧ f.carriers = [] ∧ f.payload = [] ∧ f.records = [] ∧ f.tunnel = [] := by
  refine ⟨_, rfl, ?_⟩
  obtain ⟨hlink, hlst, hbeat⟩ := alertBeat_spec .fd n s
  simp only [hon, hlast, Bool.not_true, Bool.false_eq_true, if_false, if_true, State.launchFrame, goneBeat_of_none hgone]
  rw [← hlink] at hrun ⊢
  rw [← hbeat]
  have hst' := hlst.trans hst
  generalize s.alertBeat .fd = u at hrun hst' ⊢
  rw [launch40_of_training hst' hrun]
  have hpre : ((u.txHeader .fd n false).2.link .fd n).precode = (u.link .fd n).precode := by simp only [State.txHeader, link_setLink]
  have hbells : ∀ v : State, v.noteBells .fd n (u.txHeader .fd n false).1.words = v := fun v => noteBells_nil .fd n v
  rw [hbells, link_sentFrame, hpre]
  exact ⟨_, rfl, rfl, rfl, txHt_timingOf .., hst', rfl, rfl, rfl, rfl, rfl, rfl, rfl⟩

/-- Settles O11, each clause by the lemma on its command. -/
theorem linkCommands : Obligations.LinkCommands := by
  unfold Obligations.LinkCommands
  exact ⟨fun _ _ _ h hp hn hstep hlt hmed => linkCal_asks_for_run h hp hn hstep hlt hmed,
    fun _ _ _ h hp hn hback hlt hon hfree => linkSwap_prepares h hp hn hback hlt hon hfree,
    fun _ _ _ h hp hn hlt hrole hst => linkReset_takes_down h hp hn hlt hrole hst,
    fun _ _ hlt hwant hup hmed hrun hst => reflectRunStart_begins hlt hwant hup hmed hrun hst,
    fun _ _ _ _ _ _ hrun hlt => calSlice_counts hrun hlt,
    fun _ _ _ _ _ _ hrun hlast => calSlice_sends_average hrun hlast,
    fun _ _ _ _ _ hlt hrun hguard hup => reflectRunEnd_records hlt hrun hguard hup,
    fun _ _ _ hpend hnone => spareReady_announces hpend hnone,
    fun _ _ _ hlt hat hback => swapAtBoundary_moves hlt hat hback,
    fun _ _ _ hann hgov _ => paySplitChange_takes_over hann hgov,
    fun _ _ _ hrole hdual hslots hpath hlt hcar => carryingRoleMove_gives_up hrole hdual hslots hpath hlt hcar,
    fun _ _ _ _ hlt hst hsel hlock hunc hsym hdeg hrun hidle hfault hparts hpat hok hr hc hcal hswap =>
      frameReceive_trains hlt hst hsel hlock hunc hsym hdeg hrun hidle hfault hparts hpat hok hr hc hcal hswap,
    fun _ _ _ _ hn hst hx hcrc hseq hway hbell hmon => pkgSlotReceive_takes_in hn hst hx hcrc hseq hway hbell hmon,
    fun _ _ hon hlast hrun hgone hst => frameLaunch_sends_header hon hlast hrun hgone hst⟩

end Sys2Proof.Proofs

/-! PROOFS. O33, O35, O38 to O40, O48: memories keep bytes, their form and what no command stores; serial numbers; HT80 in memory; the idle step. -/

namespace Sys2Proof.Proofs

open Sys2Proof Sys2Proof.Machine Sys2Proof.Cmds

/-! Bytes stored and read back (R38, R359, R365). -/

@[simp] theorem length_readN (a n : Nat) (m : Memory) : (m.readN a n).length = n := by
  induction n generalizing a with
  | zero => rfl
  | succ n ih => simp [Memory.readN, ih]

theorem getElem_readN (a n : Nat) (m : Memory) {i : Nat} (h : i < (m.readN a n).length) : (m.readN a n)[i] = m.read (a + i) := by
  induction n generalizing a i with
  | zero => simp [Memory.readN] at h
  | succ n ih =>
    cases i with
    | zero => rfl
    | succ i =>
      simp only [Memory.readN, List.getElem_cons_succ, ih]
      congr 1
      omega

theorem readN_writeN {m : Memory} (hm : m.wf = true) (a : Nat) (bs : List Byte) : (m.writeN a bs).readN a bs.length = bs :=
  List.ext_getElem (length_readN ..) fun i hi _ => by
    rw [length_readN] at hi
    rw [getElem_readN, Memory.read_writeN a i bs m hm hi]

/-- Settles O38, by the laws of a store: its form, the bytes in it, the bytes beside it. -/
theorem memoryKeepsStoredBytes : Obligations.MemoryKeepsStoredBytes := by
  unfold Obligations.MemoryKeepsStoredBytes
  exact fun a bs m hm => ⟨Memory.wf_writeN a bs m hm, readN_writeN hm a bs, fun b hb => Memory.read_writeN_ne a b bs m hb⟩

/-! Serial numbers (R49). -/

/-- The difference of two counters before it is read as two's complement, by their residues. -/
theorem serial_residue {n : Nat} (hn : 0 < n) (a b : Nat) :
    (b + n - a % n) % n = if a % n ≤ b % n then b % n - a % n else b % n + n - a % n := by
  have ha := Nat.mod_lt a hn
  have hb := Nat.mod_lt b hn
  have hsum : b + n - a % n = b % n + n - a % n + n * (b / n) := by
    have := Nat.mod_add_div b n
    omega
  rw [hsum, Nat.add_mul_mod_self_left]
  split
  · rw [show b % n + n - a % n = b % n - a % n + n by omega, Nat.add_mod_right, Nat.mod_eq_of_lt (by omega)]
  · rw [Nat.mod_eq_of_lt (by omega)]

/-- Two's complement of a residue, with half the modulus as a number of its own. -/
theorem toSigned_of_lt {w h v : Nat} (hw : 2 ^ w = 2 * h) (hh : 2 ^ (w - 1) = h) (hv : v < 2 * h) :
    toSigned w v = if v < h then (v : Int) else (v : Int) - 2 * h := by
  unfold toSigned
  rw [hw, hh, Nat.mod_eq_of_lt hv]
  push_cast
  rfl

/-- The serial difference lies in its range and is that of the residues, up to the modulus: there is only one such number. -/
theorem sdiff_spec {w : Nat} (hw : 1 ≤ w) (a b : Nat) :
    (Machine.sdiff w b a = (b % 2 ^ w : Nat) - (a % 2 ^ w : Nat) ∨ Machine.sdiff w b a = (b % 2 ^ w : Nat) - (a % 2 ^ w : Nat) + 2 ^ w
        ∨ Machine.sdiff w b a = (b % 2 ^ w : Nat) - (a % 2 ^ w : Nat) - 2 ^ w)
      ∧ -(2 : Int) ^ (w - 1) ≤ Machine.sdiff w b a ∧ Machine.sdiff w b a ≤ 2 ^ (w - 1) - 1 := by
  obtain ⟨h, hh⟩ : ∃ h : Nat, 2 ^ (w - 1) = h := ⟨_, rfl⟩
  have hpow : 2 ^ w = 2 * h := by rw [← hh, mul_pow_sub_one (by omega)]
  have hpos : 0 < 2 * h := hpow ▸ Nat.two_pow_pos w
  have hhi : (2 : Int) ^ (w - 1) = h := by exact_mod_cast hh
  have hpowi : (2 : Int) ^ w = 2 * h := by exact_mod_cast hpow
  have ha := Nat.mod_lt a hpos
  have hb := Nat.mod_lt b hpos
  rw [hhi, hpowi, Machine.sdiff, hpow, serial_residue hpos, toSigned_of_lt hpow hh (by split <;> omega)]
  generalize a % (2 * h) = r at *
  generalize b % (2 * h) = t at *
  split <;> split <;> omega

/-- Read modulo the width, the serial difference is b − a. -/
theorem sdiff_congruent {w : Nat} (hw : 1 ≤ w) (a b : Nat) : ∃ k : Int, Machine.sdiff w b a = (b : Int) - a + k * 2 ^ w := by
  have ha : ((a % 2 ^ w : Nat) : Int) + 2 ^ w * ((a / 2 ^ w : Nat) : Int) = a := by exact_mod_cast Nat.mod_add_div a (2 ^ w)
  have hb : ((b % 2 ^ w : Nat) : Int) + 2 ^ w * ((b / 2 ^ w : Nat) : Int) = b := by exact_mod_cast Nat.mod_add_div b (2 ^ w)
  obtain ⟨h | h | h, -, -⟩ := sdiff_spec hw a b
  · exact ⟨(a / 2 ^ w : Nat) - (b / 2 ^ w : Nat), by rw [h]; linear_combination hb - ha⟩
  · exact ⟨(a / 2 ^ w : Nat) - (b / 2 ^ w : Nat) + 1, by rw [h]; linear_combination hb - ha⟩
  · exact ⟨(a / 2 ^ w : Nat) - (b / 2 ^ w : Nat) - 1, by rw [h]; linear_combination hb - ha⟩

theorem sdiff_eq_zero_iff {w : Nat} (hw : 1 ≤ w) (a b : Nat) : a % 2 ^ w = b % 2 ^ w ↔ Machine.sdiff w b a = 0 := by
  have ha : ((a % 2 ^ w : Nat) : Int) < 2 ^ w := by exact_mod_cast Nat.mod_lt a (Nat.two_pow_pos w)
  have hb : ((b % 2 ^ w : Nat) : Int) < 2 ^ w := by exact_mod_cast Nat.mod_lt b (Nat.two_pow_pos w)
  have hpow : (2 : Int) * 2 ^ (w - 1) = 2 ^ w := mul_pow_sub_one (by omega) 2
  have hspec := sdiff_spec hw a b
  generalize a % 2 ^ w = r at *
  generalize b % 2 ^ w = t at *
  omega

/-- A difference of exactly half the modulus is read as negative. -/
theorem sdiff_half_neg {w : Nat} (hw : 1 ≤ w) {a b : Nat} (h : (a + 2 ^ (w - 1)) % 2 ^ w = b % 2 ^ w) : Machine.sdiff w b a < 0 := by
  have hpow : 2 * 2 ^ (w - 1) = 2 ^ w := mul_pow_sub_one (by omega) 2
  have ha := Nat.mod_lt a (Nat.two_pow_pos w)
  have hpos := Nat.two_pow_pos (w - 1)
  have hspec := sdiff_spec hw a b
  have hpowi : (2 : Int) * 2 ^ (w - 1) = 2 ^ w := mul_pow_sub_one (by omega) 2
  rw [← h, Nat.add_mod, Nat.mod_eq_of_lt (a := 2 ^ (w - 1)) (by omega)] at hspec
  rcases Nat.lt_or_ge (a % 2 ^ w + 2 ^ (w - 1)) (2 ^ w) with hlt | hge
  · rw [Nat.mod_eq_of_lt hlt] at hspec
    push_cast at hspec
    omega
  · rw [Nat.mod_eq_sub_mod hge, Nat.mod_eq_of_lt (by omega)] at hspec
    push_cast [hge] at hspec
    omega

/-- Settles O39: the serial difference by its range and its residue. -/
theorem serialNumbersCompare : Obligations.SerialNumbersCompare := by
  unfold Obligations.SerialNumbersCompare
  refine ⟨fun w a b hw _ => ?_, fun a b => ⟨rfl, rfl⟩⟩
  obtain ⟨-, hlo, hhi⟩ := sdiff_spec hw a b
  exact ⟨sdiff_congruent hw a b, hlo, hhi, decide_eq_true_iff, decide_eq_true_iff, sdiff_eq_zero_iff hw a b,
    fun h => ⟨sdiff_half_neg hw h, decide_eq_true (sdiff_half_neg hw h)⟩⟩

/-! HT80 in memory (R38). -/

@[simp] theorem length_leBytes (n v : Nat) : (leBytes n v).length = n := by
  induction n generalizing v with
  | zero => rfl
  | succ n ih => simp [leBytes, ih]

theorem ofLe_leBytes (n v : Nat) : ofLe (leBytes n v) = v % 256 ^ n := by
  induction n generalizing v with
  | zero => simp [leBytes, ofLe, Nat.mod_one]
  | succ n ih =>
    rw [leBytes, ofLe, ih, BitVec.toNat_ofNat, Nat.pow_succ' (m := 256), Nat.mod_mul]

theorem length_ht80Bytes (ht stat : Nat) : (ht80Bytes ht stat).length = 16 := by simp [ht80Bytes]

/-- The fields of the 16 bytes, each where R38 places it. -/
theorem ht80Bytes_fields {ht stat : Nat} (hht : ht < 2 ^ 80) (hstat : stat < 2 ^ 16) :
    ofLe ((ht80Bytes ht stat).take 8) = ht / 2 ^ 16 ∧ ofLe (((ht80Bytes ht stat).drop 8).take 2) = ht % 2 ^ 16
      ∧ ofLe (((ht80Bytes ht stat).drop 10).take 2) = stat ∧ (ht80Bytes ht stat).drop 12 = [0, 0, 0, 0] := by
  refine ⟨?_, ?_, ?_, ?_⟩ <;> simp only [ht80Bytes, List.append_assoc]
  · rw [List.take_left' (length_leBytes ..), ofLe_leBytes, Nat.mod_eq_of_lt (by unfold nsLsb; omega)]
    rfl
  · rw [List.drop_left' (length_leBytes ..), List.take_left' (length_leBytes ..), ofLe_leBytes]
    unfold nsLsb
    omega
  · rw [← List.append_assoc, List.drop_left' (by simp), List.take_left' (length_leBytes ..), ofLe_leBytes, Nat.mod_eq_of_lt (by omega)]
  · rw [← List.append_assoc, ← List.append_assoc, List.drop_left' (by simp)]
    rfl

/-- STAMP stores the station's region time and status of the edge in that form (R196). -/
theorem stamp_stores {q : Nat} {es : List Nat} {e : QEntry} {pre rest : List QEntry} {s : State} (h : AtHead q pre e rest s) (hop : e.op = 10) :
    Gives (.stamp q es) s fun t => t.dieMem = s.dieMem.writeN (16 * (e.cmd % 2 ^ 60))
      (ht80Bytes ((s.stn (s.get .sc (Rg.Q_STATION q))).edges (s.period (s.get .sc (Rg.Q_STATION q))) es).rt
        ((s.stnEdges (s.get .sc (Rg.Q_STATION q)) es).stnStat (s.get .sc (Rg.Q_STATION q)))) := by
  refine ⟨_, rfl, ?_⟩
  rw [atHead_one h es _ (by rw [hop]; rfl)]
  dsimp only
  rw [edges_get, stnEdges_stn]
  have hq := inQueue_of (t := (s.stnEdges (s.get .sc (Rg.Q_STATION q)) es).dmaWrite .sc (16 * (e.cmd % 2 ^ 60)) (ht80Bytes ((s.stn (s.get .sc (Rg.Q_STATION q))).edges (s.period (s.get .sc (Rg.Q_STATION q))) es).rt
        ((s.stnEdges (s.get .sc (Rg.Q_STATION q)) es).stnStat (s.get .sc (Rg.Q_STATION q))))) h.toInQueue rfl
  rw [(resolve_one hq).2.2.2]
  rfl

/-- The header of a block carries the form at its byte 8, behind SEQ, the count, the version and the flags (R297). -/
theorem block_header_anchor (b : Block) : (b.toBytes.drop 8).take 16 = ht80Bytes b.anchor b.stat := by
  have lead : ∀ f : Nat, (leBytes 4 b.seq ++ leBytes 2 f ++ leBytes 1 1 ++ leBytes 1 f).length = 8 := by simp
  unfold Block.toBytes
  simp only [List.append_assoc]
  rw [← List.append_assoc, ← List.append_assoc, ← List.append_assoc, List.drop_left' (by simp), List.take_left' (length_ht80Bytes ..)]

/-- Settles O40: the fields of the form, the stamp that a command stores, the anchor in a block. -/
theorem hallTimeInMemory : Obligations.HallTimeInMemory := by
  unfold Obligations.HallTimeInMemory
  exact ⟨fun ht stat hht hstat => ⟨length_ht80Bytes ht stat, ht80Bytes_fields hht hstat⟩, fun _ _ _ _ _ _ h hop => stamp_stores h hop, block_header_anchor⟩

/-! What a command keeps of the memories (R38, R196, R305, R365). -/

theorem keepO_of_actsO {p : Part} {quiet : Bool} {s : State} {o : Host.Outcome State Fault Refusal} (h : ActsO p quiet s o) : KeepO quiet s o := by
  cases o with
  | next t => exact Acts.keep h
  | fault r => exact h
  | refused r => exact h

/-- Every command keeps the form of both memories, and both whole where it may not store: a command with a part of its own by the law of that part,
one that waits for its moment by its own law. -/
theorem exec_keepO (i : Instr) (s : State) : KeepO (!i.mayStore) s (exec i s) := by
  rcases hpart : i.partOf with _ | p
  case some => exact keepO_of_actsO (exec_acts_of_partOf i s hpart)
  -- what the laws of the mailbox commands ask for: a list by DMA is all that they store
  have hd : (!i.mayStore) = true → i.mayStore = false := Bool.eq_false_of_not_eq_true'
  cases i with
  | htWrap => exact execHtWrap_acts ..
  | ladderDescend => exact execLadderDescend_acts ..
  | tdcCheckTimeout => exact execTdcCheckTimeout_acts ..
  | refGateEnd => exact execRefGateEnd_acts ..
  | refDisqualify x breach => exact execRefDisqualify_acts x breach s
  | revertiveWaitEnd => exact execRevertiveWaitEnd_acts ..
  | refAccept => exact execRefAccept_acts ..
  | ptpTimeout => exact execPtpTimeout_acts ..
  | outRealignDone => exact execOutRealignDone_acts ..
  | rootDeadline => exact execRootDeadline_acts ..
  | midAnswerDeadline => exact execMidAnswerDeadline_acts ..
  | rootCallWaitEnd => exact execRootCallWaitEnd_acts ..
  | hardTimeout => exact execHardTimeout_acts ..
  | livenessSend => exact execLivenessSend_acts ..
  | dnMaxReport => exact execDnMaxReport_acts ..
  | sbFreeEffect => exact execSbFreeEffect_acts ..
  | calStale => exact execCalStale_acts ..
  | mainsGateEnd => exact execMainsGateEnd_acts ..
  | hallFormLoad => exact execHallFormLoad_acts ..
  | oppReadyTimeout => exact execOppReadyTimeout_acts ..
  | oppGo => exact execOppGo_acts ..
  | stationEventCommit => exact execStationEventCommit_acts ..
  | deadlockDeclare => exact execDeadlockDeclare_acts ..
  | jobEndEffect => exact execJobEndEffect_acts ..
  | dieBellFire => exact execDieBellFire_acts ..
  | bodyCheck => exact execBodyCheck_acts ..
  | repeatRequestTimer => exact execRepeatRequestTimer_acts ..
  | blockTimeout => exact execBlockTimeout_acts ..
  | recordAgeDrop => exact execRecordAgeDrop_acts ..
  | ruleSetSend => exact execRuleSetSend_acts ..
  | ruleSetAdopt => exact execRuleSetAdopt_acts ..
  | attTokenRefill => exact execAttTokenRefill_acts ..
  | shaperTick => exact execShaperTick_acts ..
  | stepTimerExpiry => exact execStepTimerExpiry_acts ..
  | completionRelease => exact execCompletionRelease_acts ..
  | floorApply => exact execFloorApply_acts ..
  | floorResend => exact execFloorResend_acts ..
  | powerSample => exact execPowerSample_acts ..
  | telemetrySend => exact execTelemetrySend_acts ..
  | voteDeadline => exact execVoteDeadline_acts ..
  | ttEffect => exact execTtEffect_acts ..
  | rootStateSend => exact execRootStateSend_acts ..
  | standbyPromote => exact execStandbyPromote_acts ..
  | rootDemote => exact execRootDemote_acts ..
  | drillMoment => exact execDrillMoment_acts ..
  | drillEnd => exact execDrillEnd_acts ..
  | drillNow => exact execDrillNow_acts ..
  | selftestRun => exact execSelftestRun_acts ..
  | reportCardTick => exact execReportCardTick_acts ..
  | frameLaunch => exact execFrameLaunch_acts ..
  | frameReceive => exact execFrameReceive_acts ..
  | pkgSlotReceive => exact execPkgSlotReceive_acts ..
  | steerBeat => exact execSteerBeat_acts ..
  | rejoinComplete => exact execRejoinComplete_acts ..
  | signalDetect => exact execSignalDetect_acts ..
  | trainingTimeout => exact execTrainingTimeout_acts ..
  | rangingTimeout => exact execRangingTimeout_acts ..
  | suspectTimeout => exact execSuspectTimeout_acts ..
  | linkBackoffEnd => exact execLinkBackoffEnd_acts ..
  | retransmitTimeout => exact execRetransmitTimeout_acts ..
  | paySplitChange => exact execPaySplitChange_acts ..
  | carryingRoleMove => exact execCarryingRoleMove_acts ..
  | linkCal => exact execLinkCal_acts ..
  | reflectRunStart => exact execReflectRunStart_acts ..
  | calSlice => exact execCalSlice_acts ..
  | swapAtBoundary => exact execSwapAtBoundary_acts ..
  | emulatedWrite => exact execEmulatedWrite_acts ..
  | emulatedRead => exact execEmulatedRead_acts ..
  | shadowTimeout => exact execShadowTimeout_acts ..
  | counterReadClear => exact execCounterReadClear_acts ..
  | tokenWrite => exact execTokenWrite_acts ..
  | tdcRdidxWrite => exact execTdcRdidxWrite_acts ..
  | attWinSelect => exact execAttWinSelect_acts ..
  | configTakesEffect => exact execConfigTakesEffect_acts ..
  | guardExit => exact execGuardExit_acts ..
  | resetNAssert => exact execResetNAssert_acts ..
  | activationComplete => exact execActivationComplete_acts ..
  | deferredActivation => exact execDeferredActivation_acts ..
  | prefectRestartComplete => exact execPrefectRestartComplete_acts ..
  | registerWrite => exact execRegisterWrite_acts ..
  | _ => cases hpart

/-- Settles O48: a command that may not store is quiet. -/
theorem commandsThatStoreNothingLeaveMemory : Obligations.CommandsThatStoreNothingLeaveMemory := by
  unfold Obligations.CommandsThatStoreNothingLeaveMemory
  intro i s t hi ht
  exact ((Keep.ofO ht (exec_keepO i s)).same (by rw [hi]; rfl)).symm

/-! One step (log entry 7). -/

theorem step_of_empty {s : State} (h : s.pending = []) : step s = .next s.tick := by
  unfold step
  rw [h]

theorem step_of_cons {s : State} {c : Instr} {rest : List Instr} (h : s.pending = c :: rest) : step s = exec c { s with pending := rest } := by
  unfold step
  rw [h]

/-- Settles O35: a step is the command in front, or 4 ns of time, which leave the memories alone. -/
theorem stepsKeepMemoriesCanonical : Obligations.StepsKeepMemoriesCanonical := by
  unfold Obligations.StepsKeepMemoriesCanonical
  intro s t hs ht
  simp only [MemOk, Bool.and_eq_true] at hs ⊢
  cases hq : s.pending with
  | nil =>
    obtain rfl : s.tick = t := Host.Outcome.next.inj ((step_of_empty hq).symm.trans ht)
    have hw := Waits.pass 1 s
    exact ⟨hw.dieMem ▸ hs.1, hw.hostMem ▸ hs.2⟩
  | cons c rest =>
    have hk := Keep.ofO ht (step_of_cons hq ▸ exec_keepO c { s with pending := rest })
    exact ⟨hk.dieMem hs.1, hk.hostMem hs.2⟩

/-- Settles O33: time that passes moves the clock of true time and leaves queue and memories. -/
theorem idleStepPassesTime : Obligations.IdleStepPassesTime := by
  unfold Obligations.IdleStepPassesTime
  intro s h
  have hw := Waits.pass 1 s
  exact ⟨s.tick, step_of_empty h, pass_now 1 s, hw.pending.trans h, hw.hostMem, hw.dieMem⟩

end Sys2Proof.Proofs

/-! PROOFS. O7: holdover, wall time, formation and the timing outputs. -/

namespace Sys2Proof.Proofs

open Sys2Proof Sys2Proof.Machine Sys2Proof.Cmds

theorem ofSigned_lt (w : Nat) (i : Int) : ofSigned w i < 2 ^ w := by
  have hpos : (0 : Int) < ((2 ^ w : Nat) : Int) := by exact_mod_cast Nat.two_pow_pos w
  unfold ofSigned
  exact (Int.toNat_lt (Int.emod_nonneg i hpos.ne')).2 (Int.emod_lt_of_pos i hpos)

theorem get_putS_same (p : Part) (f : Machine.Field) (i : Int) (s : State) : (s.putS p f i).get p f = ofSigned f.width i := by
  rw [State.putS, State.get_put_same, Nat.mod_eq_of_lt (ofSigned_lt ..)]

theorem get_putS_ne (p : Part) {f g : Machine.Field} (h : f.key ≠ g.key) (i : Int) (s : State) : (s.putS p g i).get p f = s.get p f := State.get_put_ne p h _ s

theorem get_putFlag_same {p : Part} {f : Machine.Field} (b : Bool) (s : State) (h : f.width = 1 := by rfl) : (s.putFlag p f b).get p f = ofBool b := by
  rw [State.putFlag, State.get_put_same, h]
  cases b <;> rfl

theorem get_putFlag_ne (p : Part) {f g : Machine.Field} (h : f.key ≠ g.key) (b : Bool) (s : State) : (s.putFlag p g b).get p f = s.get p f := State.get_put_ne p h _ s

/-! The OCXO's model: holdover, temperature, learning (R45, R70, R71). -/

theorem holdoverBeat_sets_rate {s : State} (h : s.onModel = true) :
    exec .holdoverBeat s = .next { s with fd := { s.fd with clock := { s.fd.clock with rate := clampInt (-200000000000) 200000000000 (-s.modelY) } } } := by
  show Host.Outcome.next (if s.onModel then s.setRate .fd (-s.modelY) else s) = _
  rw [if_pos h]
  rfl

/-- Within the learned span, with no read failing, the quality is what learning has reached. -/
theorem qualityCap_within {s : State} (hlo : s.dist.hold.spanLo ≤ s.dist.hold.temp) (hhi : s.dist.hold.temp ≤ s.dist.hold.spanHi) (hfail : s.dist.hold.failing = false) :
    s.qualityCap = s.put .fd Rg.REFS_HOLD_QUALITY s.dist.hold.quality := by
  simp [State.qualityCap, hfail, Int.not_lt.2 hlo, Int.not_lt.2 hhi]

/-- After 10 s of failed reads FREQ is left of any quality above it. -/
theorem qualityCap_late {s : State} (hfail : s.dist.hold.failing = true) (hlate : s.dist.hold.tempNow + 10000000000 ≤ s.now) (hq : 1 ≤ s.dist.hold.quality) :
    s.qualityCap = s.put .fd Rg.REFS_HOLD_QUALITY 1 := by
  simp [State.qualityCap, hfail, hlate, Nat.min_eq_right hq]

/-- FREQ is below every cap. -/
theorem qualityCap_freq {s : State} (h : s.dist.hold.quality = 1) : s.qualityCap = s.put .fd Rg.REFS_HOLD_QUALITY 1 := by
  simp [State.qualityCap, h]

theorem temperatureRead_stores {t0 : Int} {s : State} (hlo : s.dist.hold.spanLo ≤ t0) (hhi : t0 ≤ s.dist.hold.spanHi) :
    Gives (.temperatureRead (some t0)) s fun t => t.get .fd Rg.REFS_HOLD_QUALITY = s.dist.hold.quality % 4 ∧ t.dist = { s.dist with hold := { s.dist.hold with temp := t0, tempNow := s.now, failing := false } }
      ∧ ∀ f, f.key ≠ (Rg.REFS_HOLD_QUALITY).key → t.get .fd f = s.get .fd f := by
  refine ⟨_, rfl, ?_⟩
  rw [qualityCap_within (s := s.setHold { s.dist.hold with temp := t0, tempNow := s.now, failing := false }) hlo hhi rfl]
  exact ⟨State.get_put_same .., State.put_dist .., fun f hf => State.get_put_ne _ hf _ _⟩

theorem temperatureRead_fails {s : State} (hlate : s.dist.hold.tempNow + 10000000000 ≤ s.now) (hq : s.dist.hold.quality = 2) :
    Gives (.temperatureRead none) s fun t => t.get .fd Rg.REFS_HOLD_QUALITY = 1 ∧ t.dist.hold = { s.dist.hold with failing := true } := by
  refine ⟨_, rfl, ?_⟩
  rw [qualityCap_late (s := s.setHold { s.dist.hold with failing := true }) rfl hlate (hq ▸ by decide : 1 ≤ s.dist.hold.quality)]
  exact ⟨State.get_put_same .., congrArg Dist.hold (State.put_dist ..)⟩

theorem modelLearn_writes {y : Int} {gs : List LearnGate} {s : State} (hst : s.get .fd Rg.REFS_SEL_STATE = 1 ∨ s.get .fd Rg.REFS_SEL_STATE = 2 ∨ s.get .fd Rg.REFS_SEL_STATE = 5)
    (hup : s.roleUp .fd 1 = true)
    (hgs : gs = ({ now := s.now, y := y, temp := s.dist.hold.temp } :: s.dist.hold.gates).filter (fun g => decide (s.now < g.now + 604800000000000)))
    (hlearned : 64 ≤ s.dist.hold.learned + 1) (hlen : gs.length < 16200) :
    Gives (.modelLearn y) s fun t => t.dist.hold.gates = gs ∧ t.dist.hold.learned = s.dist.hold.learned + 1 ∧ t.dist.hold.quality = 1 ∧ t.get .fd Rg.REFS_HOLD_QUALITY = 1
      ∧ t.get .fd Rg.HOLD_F0 = ofSigned 32 (fitModel gs).1 ∧ t.get .fd Rg.HOLD_AGING = ofSigned 32 (fitModel gs).2.1 ∧ t.get .fd Rg.HOLD_C1 = ofSigned 32 (fitModel gs).2.2.1
      ∧ t.get .fd Rg.HOLD_C2 = ofSigned 32 (fitModel gs).2.2.2.1 := by
  have hgo : (!(s.get .fd Rg.REFS_SEL_STATE == 1 || s.get .fd Rg.REFS_SEL_STATE == 2 || s.get .fd Rg.REFS_SEL_STATE == 5) || !s.roleUp .fd 1) = false := by
    rcases hst with h | h | h <;> simp [h, hup]
  have hq : (if s.dist.hold.learned + 1 < 64 then 0 else if 16200 ≤ gs.length then 2 else 1) = 1 := by
    rw [if_neg (by omega), if_neg (by omega)]
  refine ⟨_, if_neg (by rw [hgo]; decide), ?_⟩
  dsimp only
  rw [← hgs, hq, qualityCap_freq rfl]
  simp only [State.put_dist, State.get_put_same]
  refine ⟨rfl, rfl, rfl, rfl, ?_, ?_, ?_, ?_⟩ <;> rw [State.get_put_ne _ (by decide), State.get_setHold]
  · rw [get_putS_ne _ (by decide), get_putS_ne _ (by decide), get_putS_ne _ (by decide), get_putS_ne _ (by decide), get_putS_same]
    rfl
  · rw [get_putS_ne _ (by decide), get_putS_ne _ (by decide), get_putS_ne _ (by decide), get_putS_same]
    rfl
  · rw [get_putS_ne _ (by decide), get_putS_same]
    rfl
  · rw [get_putS_same]
    rfl

/-! PTP and wall time (R77, R78, R86). -/

/-- A single exchange gives a line of slope 1 through it. -/
theorem taiAt_single (q : PtpSt) (x y : Nat) : ({ q with hist := [(x, y)] } : PtpSt).taiAt x = some (y : Int) := by
  simp [PtpSt.taiAt]

/-- A message that the unit's clock takes: P1 runs, PTP is on, the message is of the clock's domain, transport and delay mechanism, from the best master heard. -/
structure PtpTakes (x : PtpMsg) (s : State) : Prop where
  up : s.roleUp .fd 1 = true
  on : s.get .fd Rg.PTP_PTP_EN = 1
  domain : x.domain = s.get .fd Rg.PTP_DOMAIN
  transport : x.transport = s.get .fd Rg.PTP_TRANSPORT
  delay : x.peerDelay = s.flag .fd Rg.PTP_DELAY_MECH
  best : (s.dist.ptp.hear x.master s.now).best x.master = true

theorem dist_setDist (d : Machine.Dist) (s : State) : (s.setDist d).dist = d := rfl

theorem PtpTakes.mine {x : PtpMsg} {s : State} (h : PtpTakes x s) :
    (x.domain == s.get .fd Rg.PTP_DOMAIN && x.transport == s.get .fd Rg.PTP_TRANSPORT && x.peerDelay == s.flag .fd Rg.PTP_DELAY_MECH) = true := by
  simp [h.domain, h.transport, h.delay]

/-- An exchange without a valid UTC offset ends the run of measurements. -/
theorem ptpExchange_loses_lock {x : PtpMsg} {s : State} (h : PtpTakes x s) (hutc : x.utcValid = false) :
    Gives (.ptpExchange x) s fun t => t.get .fd Rg.PTP_PTP_LOCKED = 0 ∧ t.dist.ptp = { s.dist.ptp.hear x.master s.now with run := 0 } := by
  show ∃ t, execPtpExchange x s = .next t ∧ _
  have hup : ∀ d, (s.setDist d).roleUp .fd 1 = true := fun _ => h.up
  have hon : ∀ d, (s.setDist d).flag .fd Rg.PTP_PTP_EN = true := fun _ => flag1 h.on
  unfold execPtpExchange
  simp only [h.mine, h.up, flag1 h.on, hup, hon, dist_setDist, h.best, hutc, Bool.and_true, Bool.and_false, Bool.not_true, Bool.not_false, Bool.or_false, Bool.false_eq_true, if_true, if_false]
  exact ⟨_, rfl, State.get_put_same .., by rw [State.put_dist]; rfl⟩

/-- The first valid exchange with a master that reports a locked clock is a measurement on its own line. -/
theorem ptpExchange_measures {x : PtpMsg} {s : State} (h : PtpTakes x s) (hclass : x.master.clockClass = 6 ∨ x.master.clockClass = 7) (hutc : x.utcValid = true)
    (hhist : s.dist.ptp.hist = []) :
    Gives (.ptpExchange x) s fun t => t.get .fd Rg.PTP_WALL_STALE = 0
      ∧ t.dist.ptp = { s.dist.ptp.hear x.master s.now with hist := [(s.htNs .fd, x.tai)], run := s.dist.ptp.run + 1, utcOffset := x.utcOffset, ever := s.dist.ptp.ever || decide (16 ≤ s.dist.ptp.run + 1), lastNow := s.now }
      ∧ (t.get .fd Rg.PTP_PTP_LOCKED = 1 ↔ 16 ≤ s.dist.ptp.run + 1) := by
  show ∃ t, execPtpExchange x s = .next t ∧ _
  have hup : ∀ d, (s.setDist d).roleUp .fd 1 = true := fun _ => h.up
  have hon : ∀ d, (s.setDist d).flag .fd Rg.PTP_PTP_EN = true := fun _ => flag1 h.on
  have hcounts : ((x.master.clockClass == 6 || x.master.clockClass == 7) && x.utcValid) = true := by simpa [hutc] using hclass
  have hns : ∀ d, (s.setDist d).htNs .fd = s.htNs .fd := fun _ => rfl
  have htake : ((s.htNs .fd, x.tai) :: (s.dist.ptp.hear x.master s.now).hist).take 64 = [(s.htNs .fd, x.tai)] := by rw [show (s.dist.ptp.hear x.master s.now).hist = [] from hhist]; rfl
  unfold execPtpExchange
  have hnear : decide (((x.tai : Int) - x.tai).natAbs ≤ 10000) = true := by simp
  simp only [h.mine, h.up, flag1 h.on, hup, hon, dist_setDist, h.best, hcounts, hns, htake, taiAt_single, hnear, Bool.and_true, Bool.not_true, Bool.or_false, Bool.false_eq_true, if_true, if_false]
  refine ⟨_, rfl, State.get_put_same .., ?_, ?_⟩
  · rw [State.put_dist, State.putFlag, State.put_dist]
    rfl
  · rw [State.get_put_ne _ key_ne_of_lo, get_putFlag_same]
    show ofBool (decide (16 ≤ s.dist.ptp.run + 1)) = 1 ↔ _
    by_cases hr : 16 ≤ s.dist.ptp.run + 1 <;> simp [hr, ofBool]

theorem ptpTimeout_loses_lock {s : State} (h : s.get .fd Rg.PTP_PTP_EN = 1) :
    Gives .ptpTimeout s fun t => t.get .fd Rg.PTP_PTP_LOCKED = 0 ∧ t.get .fd Rg.PTP_WALL_STALE = 1 ∧ t.dist = { s.dist with ptp := { s.dist.ptp with run := 0 } }
      ∧ s.dist.ptp.lastNow + 10000000000 ≤ t.now := by
  refine ⟨_, if_pos (flag1 h), ?_, State.get_put_same .., ?_, ?_⟩
  · rw [State.get_put_ne _ key_ne_of_lo, State.get_put_same]
    rfl
  · rw [State.put_dist, State.put_dist, dist_setDist, (Waits.awaitNow ..).dist]
  · rw [State.put_now, State.put_now, State.setDist_now]
    exact awaitNow_le ..

/-- Fields below the mailboxes' control blocks. -/
theorem not_mbKeys_of_off {f : Machine.Field} (ho : decide (f.off < 0x8800) = true := by rfl) (hl : decide (f.lo < 32) = true := by rfl) : ¬ mbKeys f.key := by
  simp only [decide_eq_true_eq] at ho hl
  unfold mbKeys Machine.Field.key
  omega

theorem wallRead_answers {m : MbGo} {i : Int} {s : State} (h : MbReady m 1 none 8 s) (hp : m.part = .fd) (htai : s.dist.ptp.taiAt (m.argAt [8] 0) = some i) :
    Gives (.wallRead m) s fun t => Only .fd true mbKeys s t ∧ Result m (packFields 0 [(8, ofSigned 64 i), (2, ofSigned 16 s.dist.ptp.utcOffset),
      (1, s.get .fd Rg.PTP_PTP_LOCKED), (1, s.get .fd Rg.PTP_WALL_STALE)]) s t := by
  refine ⟨_, rfl, ?_⟩
  rw [fdOnly_fd hp, ← hp]
  refine (reader_ok (jobArg := none) h rfl 0x09 _ _ ?_).symm
  unfold MbGo.argAt at htai
  dsimp only
  rw [mbSubmit_dist, htai, get_sub h.box _ not_mbKeys_of_off, get_sub h.box _ not_mbKeys_of_off]

/-! Rejoining (R75, R86). -/

theorem portQualifies_congr {n : Nat} {s t : State} (hlink : t.link .fd n = s.link .fd n) (hst : t.get .fd (Rg.LINK_LSTATE n) = s.get .fd (Rg.LINK_LSTATE n)) :
    t.portQualifies n = s.portQualifies n := by
  unfold State.portQualifies State.lstate
  rw [hlink, hst]

theorem wantedParent_mbSubmit {m : MbGo} (hb : m.box < 8) (code : Nat) (s : State) : (s.mbSubmit m code).wantedParent = s.wantedParent := by
  unfold State.wantedParent State.role
  rw [portQualifies_congr (link_sub ..) (get_sub hb code not_mbKeys_of_off .fd), portQualifies_congr (link_sub ..) (get_sub hb code not_mbKeys_of_off .fd),
    get_sub hb code not_mbKeys_of_off, get_sub hb code not_mbKeys_of_off]
  simp only [link_sub]

theorem wantedParent_cases {n : Nat} {s : State} (h : s.wantedParent = some n) : n = 64 ∨ n = 65 := by
  unfold State.wantedParent at h
  grind

theorem get_startRejoin (f : Machine.Field) (s : State) : s.startRejoin.get .fd f = ((s.put .fd Rg.REFS_SEL_STATE 6).put .fd Rg.REFS_REJOIN_REFUSED 0).get .fd f := rfl

theorem clock_startRejoin (s : State) : s.startRejoin.fd.clock = { s.fd.clock with slewRate := s.get .fd Rg.REF_REJOIN_SLEW * 100000000 } := by
  have hslew : ((s.put .fd Rg.REFS_SEL_STATE 6).put .fd Rg.REFS_REJOIN_REFUSED 0).get .fd Rg.REF_REJOIN_SLEW = s.get .fd Rg.REF_REJOIN_SLEW := by
    rw [State.get_put_ne _ (by decide), State.get_put_ne _ (by decide)]
  rw [← hslew]
  rfl

theorem subtreeRejoin_starts {m : MbGo} {n : Nat} {s : State} (h : MbReady m 1 none 0 s) (hp : m.part = .fd) (hst : s.get .fd Rg.REFS_SEL_STATE = 4)
    (href : s.get .fd Rg.REFS_REJOIN_REFUSED = 1) (hw : s.wantedParent = some n) :
    Gives (.subtreeRejoin m) s fun t => Answered m 0 t ∧ t.get .fd Rg.REFS_SEL_STATE = 6 ∧ t.get .fd Rg.REFS_REJOIN_REFUSED = 0 ∧ t.get .fd Rg.REFS_SELECTED = n - 61
      ∧ t.fd.clock = { s.fd.clock with slewRate := s.get .fd Rg.REF_REJOIN_SLEW * 100000000 } := by
  refine ⟨_, rfl, ?_⟩
  have hget : ∀ f : Machine.Field, ¬ mbKeys f.key → (s.mbSubmit m 0x08).get .fd f = s.get .fd f := fun f hf => get_sub h.box 0x08 hf .fd
  rw [fdOnly_fd hp, mailbox_eq_answer (jobArg := none) h rfl (out := .ok []) (u := ((s.mbSubmit m 0x08).put .fd Rg.REFS_SELECTED (n - 61)).startRejoin) ?body]
  case body =>
    have hst' := (hget Rg.REFS_SEL_STATE not_mbKeys_of_off).trans hst
    have href' := flag1 ((hget Rg.REFS_REJOIN_REFUSED not_mbKeys_of_off).trans href)
    simp [wantedParent_mbSubmit h.box, hw, hst', href']
  refine ⟨answered_ok .., ?_, ?_, ?_, ?_⟩
  · rw [get_ans h.box _ _ not_mbKeys_of_off, get_startRejoin, State.get_put_ne _ key_ne_of_lo, State.get_put_same]
    rfl
  · rw [get_ans h.box _ _ not_mbKeys_of_off, get_startRejoin, State.get_put_same]
    rfl
  · rw [get_ans h.box _ _ not_mbKeys_of_off, get_startRejoin, State.get_put_ne _ key_ne_of_lo, State.get_put_ne _ key_ne_of_lo, State.get_put_same]
    obtain rfl | rfl := wantedParent_cases hw <;> rfl
  · rw [← State.unit_fd, ans_ok, mbDone_unit_clock, State.unit_fd, clock_startRejoin, State.get_put_ne _ (by decide), hget _ not_mbKeys_of_off, ← State.unit_fd, State.unit_put_clock,
      mbSubmit_unit_clock, State.unit_fd]

/-- Muting changes the outputs alone. -/
theorem muteOuts_sets_outs (s : State) : ∃ o, s.muteOuts = s.setDist { s.dist with outs := o } := by
  have fold : ∀ (f : State → Nat → State), (∀ t n, ∃ o, f t n = t.setDist { t.dist with outs := o }) →
      ∀ (l : List Nat) (t : State), ∃ o, l.foldl f t = t.setDist { t.dist with outs := o } := by
    intro f hf l
    induction l with
    | nil => exact fun t => ⟨t.dist.outs, rfl⟩
    | cons n l ih =>
      intro t
      obtain ⟨a, ha⟩ := hf t n
      obtain ⟨o, ho⟩ := ih (f t n)
      exact ⟨o, by rw [List.foldl_cons, ho, ha]; rfl⟩
  refine fold _ (fun t n => ?_) _ s
  dsimp only
  split_ifs
  · exact ⟨t.dist.outs, rfl⟩
  · exact ⟨_, rfl⟩
  · exact ⟨_, rfl⟩
  · exact ⟨t.dist.outs, rfl⟩

theorem rejoinComplete_tracks {s u : State} (hst : s.get .fd Rg.REFS_SEL_STATE = 6) (hrun : 16 ≤ s.dist.hold.rejoinRun) (hu : u = s.nextBeat .fd) :
    Gives .rejoinComplete s fun t => t.get .fd Rg.REFS_SEL_STATE = 2 ∧ t.get .fd Rg.REFS_LOCK = 1 ∧ t.get .fd Rg.HT_UNALIGNED = 0 ∧ t.get .fd Rg.HT_ALIGNED = 1
      ∧ t.get .fd Rg.HT_HOLDOVER = ofBool (s.link .fd (s.get .fd Rg.REFS_SELECTED + 61)).far.holdover
      ∧ t.get .fd Rg.HT_SLEWING = ofBool (s.link .fd (s.get .fd Rg.REFS_SELECTED + 61)).far.slewing
      ∧ t.fd.clock = { u.fd.clock with slewRate := 0 } ∧ t.sc = u.sc := by
  have hw : Waits s u := hu ▸ Waits.nextBeat .fd s
  have hsel : u.get .fd Rg.REFS_SELECTED = s.get .fd Rg.REFS_SELECTED := hw.get _ _ (by unfold timeKeys; decide)
  refine ⟨_, if_pos (by simp [hst, hrun]), ?_⟩
  rw [← hu]
  dsimp only
  rw [hsel, link_of_waits hw]
  generalize (s.link .fd (s.get .fd Rg.REFS_SELECTED + 61)).far = far
  generalize hv : ((((((u.put .fd Rg.REFS_SEL_STATE 2).put .fd Rg.REFS_LOCK 1).put .fd Rg.HT_UNALIGNED 0).put .fd Rg.HT_ALIGNED 1).putFlag .fd Rg.HT_HOLDOVER far.holdover).putFlag .fd
    Rg.HT_SLEWING far.slewing) = v
  obtain ⟨o, ho⟩ := muteOuts_sets_outs (v.setUnit .fd { v.fd with clock := { v.fd.clock with slewRate := 0 } })
  rw [ho]
  have hget : ∀ f : Machine.Field, (v.setUnit .fd { v.fd with clock := { v.fd.clock with slewRate := 0 } }).get .fd f = v.get .fd f := fun _ => rfl
  simp only [State.get_setDist, hget]
  refine ⟨?_, ?_, ?_, ?_, ?_, ?_, ?_, ?_⟩
  all_goals subst hv
  · simp (disch := decide) only [get_putFlag_ne, State.get_put_ne, State.get_put_same]
    rfl
  · simp (disch := decide) only [get_putFlag_ne, State.get_put_ne, State.get_put_same]
    rfl
  · simp (disch := decide) only [get_putFlag_ne, State.get_put_ne, State.get_put_same]
    rfl
  · simp (disch := decide) only [get_putFlag_ne, State.get_put_same]
    rfl
  · rw [get_putFlag_ne _ key_ne_of_lo, get_putFlag_same]
  · rw [get_putFlag_same]
  · rfl
  · rfl

/-! Timing outputs (R80 to R83). -/

@[simp] theorem out_setOut (n : Nat) (o : OutSt) (s : State) : (s.setOut n o).out n = o := SMap.get_set_same ..

theorem out_setOut_ne {n k : Nat} (h : k ≠ n) (o : OutSt) (s : State) : (s.setOut n o).out k = s.out k := SMap.get_set_ne _ h ..

@[simp] theorem out_put (n : Nat) (p : Part) (f : Machine.Field) (v : Nat) (s : State) : (s.put p f v).out n = s.out n := by
  unfold State.out
  rw [State.put_dist]

theorem out_mbDone (n : Nat) (p : Part) (box tag : Nat) (irq : Bool) (status detail : Nat) (area : List Byte) (total : Nat) (s : State) :
    (s.mbDone p box tag irq status detail area total).out n = s.out n := by
  unfold State.out
  rw [mbDone_dist]

theorem out_of_waits {s t : State} (h : Waits s t) (n : Nat) : t.out n = s.out n := by
  unfold State.out
  rw [h.dist]

/-- A PPS output in TRACK, not in fallback, pulses at its TRACK position. -/
theorem ppsOutPulse_tracks {n : Nat} {s : State} (hn : n < 4) (hdriven : s.outDriven n = true) (hmode : s.get .fd (Rg.OUT_MODE n) = 0) (hfall : s.get .fd (Rg.OUT_OUT_FALLBACK n) = 0) :
    Gives (.ppsOutPulse n) s fun t => t.out n = { s.out n with pulses := (s.out n).pulses + 1, lastPulse := ((s.secondQ : Int) + s.trackPhase n).toNat, phase := s.trackPhase n, highUntil := ((s.secondQ : Int) + s.trackPhase n).toNat + 400 * s.get .fd (Rg.OUT_WIDTH n) }
      ∧ t.fd = s.fd ∧ t.sc = s.sc ∧ ∀ k, k ≠ n → t.out k = s.out k := by
  have hholds : s.outHolds n = false := by simp [State.outHolds, flag0 hmode, flag0 hfall]
  refine ⟨_, if_pos (by simp [hn, hdriven]), ?_⟩
  simp only [State.outPhase, hholds, Bool.false_and, Bool.false_eq_true, if_false]
  exact ⟨out_setOut .., rfl, rfl, fun k hk => out_setOut_ne hk ..⟩

/-- A BELL_OUT in TRACK that sends frames answers its first bell at the bell's HT plus OFFSET. -/
theorem bellOutPulse_sends_frame {n ht : Nat} {w : BellWord} {s : State} (h6 : 6 ≤ n) (h10 : n < 10) (hdriven : s.outDriven n = true) (hall : s.get .fd (Rg.OUT_ALL_JOBS n) = 1)
    (hmode : s.get .fd (Rg.OUT_MODE n) = 0) (hform : s.get .fd (Rg.OUT_BELL_FORM n) = 1) (hmove : (s.out n).moveTo = none) (hpulses : (s.out n).pulses = 0) :
    Gives (.bellOutPulse n ht w) s fun t => t.out n = { s.out n with pulses := 1, lastPulse := ((4 * ht : Nat) + s.getS .fd (Rg.OUT_OFFSET n)).toNat, phase := s.getS .fd (Rg.OUT_OFFSET n), step := false, frameOut := bellFrame w }
      ∧ t.fd = s.fd := by
  refine ⟨_, if_pos (by simp [h6, h10, hdriven, flag1 hall]), ?_⟩
  simp only [flag0 hmode, flag1 hform, hmove, hpulses, Option.isSome_none, bne_self_eq_false, Bool.false_and, Bool.false_eq_true, if_false, if_true]
  exact ⟨out_setOut .., rfl⟩

theorem setBits_two_pow : ∀ n < 6, setBits 10 (2 ^ n) = [n] := by decide

theorem trackPhase_mbSubmit {m : MbGo} (hb : m.box < 8) (code : Nat) {n : Nat} (hn : n < 6) (s : State) : (s.mbSubmit m code).trackPhase n = s.trackPhase n := by
  have hoff : ¬ mbKeys (Rg.OUT_OFFSET n).key := by simp only [mbKeys, Machine.Field.key, Rg.OUT_OFFSET]; omega
  have hsrc : ¬ mbKeys (Rg.OUT_SOURCE n).key := by simp only [mbKeys, Machine.Field.key, Rg.OUT_SOURCE]; omega
  have href : ∀ x, (s.mbSubmit m code).refSt x = s.refSt x := fun x => by unfold State.refSt; rw [mbSubmit_dist]
  unfold State.trackPhase State.getS
  simp only [get_sub hb code hoff, get_sub hb code hsrc, href]

theorem outRealign_starts {m : MbGo} {n : Nat} {s : State} (h : MbReady m 1 none 3 s) (hp : m.part = .fd) (hn : n < 6) (harg : m.argAt [2, 1] 0 = 2 ^ n)
    (hmode : s.get .fd (Rg.OUT_MODE n) = 1) :
    Gives (.outRealign m) s fun t => Answered m 0 t ∧ t.get .fd (Rg.OUT_REALIGNING n) = 1 ∧ (t.out n).moveTo = some (s.trackPhase n)
      ∧ (t.out n).step = (m.argAt [2, 1] 1 != 0) ∧ ∀ k, k ≠ n → t.out k = s.out k := by
  have hmove : ¬ mbKeys (Rg.OUT_REALIGNING n).key := by simp only [mbKeys, Machine.Field.key, Rg.OUT_REALIGNING]; omega
  have hkey : ¬ mbKeys (Rg.OUT_MODE n).key := by simp only [mbKeys, Machine.Field.key, Rg.OUT_MODE]; omega
  have hout : ∀ k, (s.mbSubmit m 0x07).out k = s.out k := fun k => by unfold State.out; rw [mbSubmit_dist]
  refine ⟨_, rfl, ?_⟩
  unfold MbGo.argAt at harg ⊢
  rw [fdOnly_fd hp, mailbox_eq_answer (jobArg := none) h rfl (out := .ok []) (u := (s.mbSubmit m 0x07).startMove n ((parseFields m.args 0 [2, 1]).getD 1 0 != 0)) ?body]
  case body =>
    simp only [harg, setBits_two_pow n hn, List.foldl_cons, List.foldl_nil, State.realign, flag1 ((get_sub h.box 0x07 hkey .fd).trans hmode), if_true]
  refine ⟨answered_ok .., ?_, ?_, ?_, fun k hk => ?_⟩
  · rw [get_ans h.box _ _ hmove, State.startMove, State.get_put_same]
    rfl
  · rw [ans_ok, out_mbDone, State.startMove, out_put, out_setOut, if_pos hn, trackPhase_mbSubmit h.box _ hn]
  · rw [ans_ok, out_mbDone, State.startMove, out_put, out_setOut]
  · rw [ans_ok, out_mbDone, State.startMove, out_put, out_setOut_ne hk, hout]

theorem outRealignDone_ends {n : Nat} {v : Int} {s : State} (hn : n < 6) (hstep : (s.out n).step = false) (hsrc : s.get .fd (Rg.OUT_SOURCE n) = 0) (hmove : (s.out n).moveTo = some v) :
    Gives (.outRealignDone n) s fun t => t.get .fd (Rg.OUT_REALIGNING n) = 0 ∧ t.get .fd (Rg.OUT_OUT_FALLBACK n) = 0
      ∧ t.out n = { s.out n with phase := v, moveTo := none } ∧ ∀ k, k ≠ n → t.out k = s.out k := by
  have hw := Waits.awaitHt .fd (ceilDiv (s.out n).moveEnd 4) s
  have hsrc' : (s.awaitHt .fd (ceilDiv (s.out n).moveEnd 4)).get .fd (Rg.OUT_SOURCE n) = 0 :=
    (hw.get _ _ (by simp only [timeKeys, Machine.Field.key, Rg.OUT_SOURCE, Rg.HT_HT_WRAP, Rg.HT_SLEWING]; omega)).trans hsrc
  have hgo : ((s.out n).step || decide (6 ≤ n)) = false := by simp [hstep, hn]
  show ∃ t, execOutRealignDone n s = .next t ∧ _
  unfold execOutRealignDone
  simp only [hmove, hgo, hsrc', show refOf 0 = none from rfl, Bool.false_eq_true, if_false]
  refine ⟨_, rfl, ?_, ?_, ?_, fun k hk => ?_⟩
  · rw [State.get_put_ne _ key_ne_of_lo, State.get_put_same]
    rfl
  · rw [State.get_put_same]
    rfl
  · rw [out_put, out_put, out_setOut]
  · rw [out_put, out_put, out_setOut_ne hk, out_of_waits hw]

/-! Formation (R41 to R44, R432). -/

theorem epochKindNow_mbSubmit {m : MbGo} (hb : m.box < 8) (code : Nat) (s : State) : (s.mbSubmit m code).epochKindNow = s.epochKindNow := by
  have hqual : ∀ x : RefIn, ¬ mbKeys x.qual.key := fun x => by cases x <;> exact not_mbKeys_of_off
  unfold State.epochKindNow State.flag
  rw [get_sub hb code (f := Rg.REFS_SELECTED) not_mbKeys_of_off, get_sub hb code (f := Rg.PTP_PTP_LOCKED) not_mbKeys_of_off]
  simp only [get_sub hb code (hqual _)]

theorem formFrom_mbSubmit {m : MbGo} (hb : m.box < 8) (code : Nat) (s : State) : (s.mbSubmit m code).formFrom = s.formFrom := by
  unfold State.formFrom
  rw [epochKindNow_mbSubmit hb, htNs_mbSubmit]

theorem parentAligned_mbSubmit {m : MbGo} (hb : m.box < 8) (code : Nat) (s : State) : (s.mbSubmit m code).parentAligned = s.parentAligned := by
  unfold State.parentAligned
  rw [get_sub hb code not_mbKeys_of_off, get_sub hb code not_mbKeys_of_off]

theorem hallForm_waits {m : MbGo} {s : State} (h : MbReady m 1 none 0 s) (hp : m.part = .fd) (hv : s.dist.variant = .vxd2880) (hargs : m.args = []) (hstage : 3 ≤ s.get .fd Rg.START_STAGE)
    (hformed : s.get .fd Rg.HT_FORMED = 0) (hparent : s.parentAligned = false) (hother : s.dist.hall.otherFormed = false) (hseat : s.get .fd Rg.ROLL_SEAT ≠ 0)
    (hconflict : s.dist.hall.seatConflict = false) (hbox : s.dist.hall.formBox = none) :
    Gives (.hallForm m) s fun t => t.dist.hall = { s.dist.hall with formKind := s.epochKindNow, formAt := s.formFrom, formBox := some m.box, formHoming := none }
      ∧ (t.mail .fd m.box).wait = some { code := 5, tag := m.tag, irq := m.irq, dma := m.dma, args := [] } ∧ t.get .fd (Rg.MB_OWNED m.box) = 1 := by
  have hget : ∀ f : Machine.Field, ¬ mbKeys f.key → (s.mbSubmit m 0x05).get .fd f = s.get .fd f := fun f hf => get_sub h.box 0x05 hf .fd
  refine ⟨_, rfl, ?_⟩
  rw [own_fd hp hv, mailbox_eq_answer (jobArg := none) h rfl (out := .wait [])
    (u := (s.mbSubmit m 0x05).setHall { s.dist.hall with formKind := s.epochKindNow, formAt := s.formFrom, formBox := some m.box, formHoming := none }) ?body]
  case body =>
    have hstage' : ¬ (s.mbSubmit m 0x05).get .fd Rg.START_STAGE < 3 := by rw [hget _ (by unfold mbKeys; decide)]; omega
    have hformed' := flag0 ((hget Rg.HT_FORMED not_mbKeys_of_off).trans hformed)
    have hseat' : ((s.mbSubmit m 0x05).get .fd Rg.ROLL_SEAT == 0) = false := by rw [hget _ not_mbKeys_of_off]; simpa using hseat
    simp [hargs, hstage', hformed', hseat', parentAligned_mbSubmit h.box, hparent, hother, hconflict, hbox, epochKindNow_mbSubmit h.box, formFrom_mbSubmit h.box]
  rw [ans_wait, hp]
  refine ⟨by rw [setMail_dist]; rfl, ?_, ?_⟩
  · rw [State.mail_setMail]
  · rw [State.get_setMail, State.get_setHall, ← hp]
    exact owned_mbSubmit ..

/-- Without a 1PPS reference the load instant is the one that HALL_FORM found. -/
theorem formInstant_without_pps {s : State} (h : s.dist.hall.formKind < 2) : s.formInstant = s.dist.hall.formAt := by
  unfold State.formInstant
  split
  · rw [if_pos h]
  · rfl

/-- The end of a formation: measurement starts anew, muted outputs go low, HALL_FORM completes. Of the registers outside the measurement results and the mailboxes none changes. -/
theorem formation_end_spec {u : State} {b old : Nat} {w : MbWait} (joined : Bool) (fixed : List (Nat × Nat)) (hb : b < 8) (hw : (u.mail .fd b).wait = some w) {t : State}
    (ht : t = ((u.rebaseAll old joined).muteOuts).mbComplete .fd b (.ok fixed)) :
    t.ht .fd = u.ht .fd ∧ (∀ f : Machine.Field, ¬ measKeys f.key → ¬ mbKeys f.key → t.get .fd f = u.get .fd f) ∧ t.dist.hall = u.dist.hall
      ∧ t.get .fd (Rg.MB_STATUS b) = 0 ∧ t.get .fd (Rg.MB_DONE b) = 1 := by
  obtain ⟨hregs, hhall, hht, hslate⟩ := MeasOk.rebaseAll old joined u
  generalize u.rebaseAll old joined = r at ht hregs hhall hht hslate
  obtain ⟨o, ho⟩ := muteOuts_sets_outs r
  have hwait : (r.muteOuts.mail .fd b).wait = some w := by
    rw [ho, ← hw, ← mail_of_slate (congrArg SlateSt.mail hslate) b]
    unfold State.mail
    rw [State.unit_setDist]
  obtain ⟨hstatus, -, hdone, -⟩ := comp_answered hwait fixed
  rw [ht]
  refine ⟨?_, fun f hf hmb => ?_, ?_, hstatus, hdone⟩
  · rw [comp_ht, ho]
    exact hht .fd
  · rw [get_comp ((offMb_iff f).2 hmb) _ _ hb, ho, State.get_setDist]
    exact hregs .fd f hf
  · rw [comp_dist, ho]
    exact hhall

theorem not_measKeys_of_off {f : Machine.Field} (ho : decide (f.off < 0x1000) = true := by rfl) (hl : decide (f.lo < 32) = true := by rfl) : ¬ measKeys f.key := by
  simp only [decide_eq_true_eq] at ho hl
  rintro (h | h)
  · unfold tresKeys Machine.Field.key at h
    omega
  · have := attKeys_cases h
    unfold Machine.Field.key at this
    omega

theorem mail_loadHt (n b : Nat) (s : State) : (s.loadHt .fd n).mail .fd b = s.mail .fd b := by
  have hclose : Only .fd false attKeys s s.closeBlock := (Only.refl ..).closeBlock fun _ h _ => h
  exact mail_of_slate (hclose.mail rfl) b

/-- The unit at its load instant (R42 to R44), before measurement starts anew: HT at `ns`, the unit formed, joined, aligned, the active root with roll number 0. -/
def loaded (kind ns label : Nat) (s : State) : State :=
  let s1 := ((((s.loadHt .fd (ns * nsLsb)).put .fd Rg.HT_FORMED 1).put .fd Rg.HT_JOINED 1).put .fd Rg.HT_ALIGNED 1).put .fd Rg.HT_EPOCH_KIND kind
  let s2 := (s1.put .fd (Rg.EPL_EPOCH_LABEL 0) label).put .fd (Rg.EPL_EPOCH_LABEL 1) (label / 2 ^ 32)
  let s3 := ((s2.setRole 1).put .fd Rg.ROLL_ROLL_VALID 1).put .fd Rg.ROLL_ROLL 0
  let s4 := s3.setHold { s3.dist.hold with entryHt := s3.ht .fd }
  let s5 := (s4.put .fd Rg.REFS_SEL_STATE (ofBool (s4.get .fd Rg.REFS_SELECTED != 0))).putFlag .fd Rg.REFS_LOCK (s4.get .fd Rg.REFS_SELECTED != 0)
  s5.setHall { s5.dist.hall with formBox := none, homingMap := homingOf s.dist.hall.formHoming }

theorem execHallFormLoad_free_run {b : Nat} {s : State} (hbox : s.dist.hall.formBox = some b) (hat : s.dist.hall.formAt ≤ s.htNs .fd) (hkind : s.dist.hall.formKind = 0) :
    execHallFormLoad s = .next ((((loaded 0 0 0 s).rebaseAll (s.ht .fd) (s.flag .fd Rg.HT_JOINED)).muteOuts).mbComplete .fd b (.ok [(1, 0), (8, 0)])) := by
  have hinstant := formInstant_without_pps (s := s) (by omega)
  unfold execHallFormLoad
  simp only [hbox, hinstant, awaitHt_past hat, if_neg (Nat.not_lt.2 hat), hkind]
  rfl

theorem mail_setHall (p : Part) (b : Nat) (h : HallSt) (s : State) : (s.setHall h).mail p b = s.mail p b := by
  unfold State.mail
  rw [State.unit_setHall]

theorem mail_setHold (p : Part) (b : Nat) (h : HoldSt) (s : State) : (s.setHold h).mail p b = s.mail p b := by
  unfold State.mail
  rw [State.unit_setHold]

theorem mail_loaded (kind ns label b : Nat) (s : State) : (loaded kind ns label s).mail .fd b = s.mail .fd b := by
  unfold loaded State.setRole State.putFlag
  simp only [mail_setHall, mail_setHold, State.mail_put, mail_loadHt]

theorem ht_loaded (kind label : Nat) (s : State) : (loaded kind 0 label s).ht .fd = 0 := by
  unfold loaded State.setRole State.putFlag State.ht
  simp only [State.unit_setHall, State.unit_setHold, State.unit_put_clock]
  rfl

/-- The registers that the load writes. -/
theorem get_loaded (ns label : Nat) (s : State) :
    (loaded 0 ns label s).get .fd Rg.HT_FORMED = 1 ∧ (loaded 0 ns label s).get .fd Rg.HT_JOINED = 1 ∧ (loaded 0 ns label s).get .fd Rg.HT_ALIGNED = 1
      ∧ (loaded 0 ns label s).get .fd Rg.HT_EPOCH_KIND = 0 ∧ (loaded 0 ns label s).get .fd Rg.REFS_ROLE = 1 ∧ (loaded 0 ns label s).get .fd Rg.ROLL_ROLL_VALID = 1 := by
  unfold loaded State.setRole
  refine ⟨?_, ?_, ?_, ?_, ?_, ?_⟩ <;> simp (disch := decide) only [State.get_setHall, State.get_setHold, get_putFlag_ne, State.get_put_ne, State.get_put_same] <;> rfl

theorem hallFormLoad_loads {b : Nat} {w : MbWait} {s : State} (hbox : s.dist.hall.formBox = some b) (hb : b < 8) (hw : (s.mail .fd b).wait = some w)
    (hat : s.dist.hall.formAt ≤ s.htNs .fd) (hkind : s.dist.hall.formKind = 0) :
    Gives .hallFormLoad s fun t => t.ht .fd = 0 ∧ t.get .fd Rg.HT_FORMED = 1 ∧ t.get .fd Rg.HT_JOINED = 1 ∧ t.get .fd Rg.HT_ALIGNED = 1 ∧ t.get .fd Rg.HT_EPOCH_KIND = 0
      ∧ t.isActiveRoot = true ∧ t.get .fd Rg.ROLL_ROLL_VALID = 1 ∧ t.dist.hall.formBox = none ∧ t.get .fd (Rg.MB_STATUS b) = 0 ∧ t.get .fd (Rg.MB_DONE b) = 1 := by
  refine ⟨_, execHallFormLoad_free_run hbox hat hkind, ?_⟩
  have hwait : ((loaded 0 0 0 s).mail .fd b).wait = some w := by
    rw [mail_loaded]
    exact hw
  obtain ⟨hht, hget, hhall, hstatus, hdone⟩ := formation_end_spec (old := s.ht .fd) (s.flag .fd Rg.HT_JOINED) [(1, 0), (8, 0)] hb hwait rfl
  obtain ⟨hformed, hjoined, haligned, hepoch, hrole, hvalid⟩ := get_loaded 0 0 s
  have hactive : ∀ t : State, t.get .fd Rg.REFS_ROLE = 1 → t.isActiveRoot = true := fun t h => by rw [State.isActiveRoot, State.role, h]; rfl
  exact ⟨hht.trans (ht_loaded 0 0 s), (hget _ not_measKeys_of_off not_mbKeys_of_off).trans hformed, (hget _ not_measKeys_of_off not_mbKeys_of_off).trans hjoined,
    (hget _ not_measKeys_of_off not_mbKeys_of_off).trans haligned, (hget _ not_measKeys_of_off not_mbKeys_of_off).trans hepoch,
    hactive _ ((hget _ not_measKeys_of_off not_mbKeys_of_off).trans hrole), (hget _ not_measKeys_of_off not_mbKeys_of_off).trans hvalid,
    (congrArg HallSt.formBox hhall).trans rfl, hstatus, hdone⟩

/-- Settles O7, each clause by the lemma on its command. -/
theorem holdoverWallTimeAndOutputs : Obligations.HoldoverWallTimeAndOutputs := by
  unfold Obligations.HoldoverWallTimeAndOutputs
  exact ⟨fun _ h => holdoverBeat_sets_rate h, fun _ _ hlo hhi => temperatureRead_stores hlo hhi, fun _ hlate hq => temperatureRead_fails hlate hq,
    fun _ _ _ hst hup hgs hl hlen _ => modelLearn_writes hst hup hgs hl hlen,
    fun _ _ hup hon hd ht hdel hb hc hu hh => ptpExchange_measures ⟨hup, hon, hd, ht, hdel, hb⟩ hc hu hh,
    fun _ _ hup hon hd ht hdel hb hu => ptpExchange_loses_lock ⟨hup, hon, hd, ht, hdel, hb⟩ hu, fun _ h => ptpTimeout_loses_lock h,
    fun _ _ _ h hp ht => wallRead_answers h hp ht, fun _ _ _ h hp hst hr hw => subtreeRejoin_starts h hp hst hr hw,
    fun _ _ hst hrun hu => rejoinComplete_tracks hst hrun hu, fun _ _ hn hd hm hf => ppsOutPulse_tracks hn hd hm hf,
    fun _ _ _ _ h6 h10 hd ha hm hf hmv hp => bellOutPulse_sends_frame h6 h10 hd ha hm hf hmv hp,
    fun _ _ _ h hp hn ha hm => outRealign_starts h hp hn ha hm, fun _ _ _ hn hs hsrc hm => outRealignDone_ends hn hs hsrc hm,
    fun _ _ h hp hv ha hstg hf hpa ho hseat hc hb => hallForm_waits h hp hv ha hstg hf hpa ho hseat hc hb,
    fun _ _ _ hbox hb hw hat hk => hallFormLoad_loads hbox hb hw hat hk⟩

end Sys2Proof.Proofs

/-! PROOFS. O6: references qualify, fail, are adopted, accepted and measured. -/

namespace Sys2Proof.Proofs

open Sys2Proof Sys2Proof.Machine Sys2Proof.Cmds

/-! What concerns the outputs and the records leaves the registers of the references, 0x400 to 0x423, and those below (R54, R85). -/

/-- The registers that follow those of the references: the outputs, attendance. -/
def beyondRefKeys (k : Nat) : Prop := 0x0440 * 32 ≤ k

theorem beyondRefKeys_of_off {f : Machine.Field} (h : 0x0440 ≤ f.off) : beyondRefKeys f.key := by
  unfold beyondRefKeys Machine.Field.key
  omega

theorem not_beyondRefKeys {f : Machine.Field} (ho : decide (f.off < 0x0440) = true := by rfl) (hl : decide (f.lo < 32) = true := by rfl) : ¬ beyondRefKeys f.key := by
  simp only [decide_eq_true_eq] at ho hl
  unfold beyondRefKeys Machine.Field.key
  omega

theorem beyondRefKeys_of_attKeys {k : Nat} (h : attKeys k) : beyondRefKeys k := by
  have := attKeys_cases h
  unfold beyondRefKeys
  omega

theorem regs_setOut {K : Nat → Prop} (n : Nat) (o : OutSt) (s : State) : Regs K s (s.setOut n o) := fun _ _ _ => State.get_setOut ..

theorem regs_muteOuts (K : Nat → Prop) (s : State) : Regs K s s.muteOuts := by
  obtain ⟨o, ho⟩ := muteOuts_sets_outs s
  rw [ho]
  exact fun _ _ _ => State.get_setDist ..

theorem regs_refEvent (src ev : Nat) (off : Option Int) (s : State) : Regs beyondRefKeys s (s.refEvent src ev off) := by
  unfold State.refEvent
  exact (Regs.refl _ s).record (fun _ => beyondRefKeys_of_attKeys) _

theorem regs_startMove (n : Nat) (step : Bool) (s : State) : Regs beyondRefKeys s (s.startMove n step) := by
  unfold State.startMove
  exact Regs.put (regs_setOut _ _ _) (beyondRefKeys_of_off (by simp only [Rg.OUT_REALIGNING]; omega)) _

theorem regs_outsReturn (x : RefIn) (s : State) : Regs beyondRefKeys s (s.outsReturn x) := by
  unfold State.outsReturn
  refine (Regs.foldl (fun t n => ?_) _ (Regs.refl _ s)).trans (regs_muteOuts _ _)
  have harm := regs_setOut (K := beyondRefKeys) n { (t.out n) with armed := t.flag .fd (Rg.OUT_ENABLE n) || (t.out n).armed } t
  exact Regs.ite (fun _ => Regs.ite (fun _ => harm.trans (regs_startMove _ _ _)) fun _ => harm) fun _ => Regs.refl _ _

theorem regs_outsFallback (x : RefIn) (s : State) : Regs beyondRefKeys s (s.outsFallback x) := by
  unfold State.outsFallback
  refine Regs.foldl (fun t n => ?_) _ (Regs.refl _ s)
  exact Regs.ite (fun _ => Regs.put (regs_setOut _ _ _) (beyondRefKeys_of_off (by simp only [Rg.OUT_OUT_FALLBACK]; omega)) _) fun _ => Regs.refl _ _

/-! The state of an input. -/

theorem refSt_of_dist {s t : State} (h : t.dist = s.dist) (x : RefIn) : t.refSt x = s.refSt x := by
  unfold State.refSt
  rw [h]

theorem refSt_setRef (x : RefIn) (r : RefSt) (s : State) : (s.setRef x r).refSt x = r := by cases x <;> rfl

theorem refSt_setRef_other (x : RefIn) (r : RefSt) (s : State) : (s.setRef x r).refSt x.other = s.refSt x.other := by cases x <;> rfl

theorem refSt_put (x : RefIn) (p : Part) (f : Machine.Field) (v : Nat) (s : State) : (s.put p f v).refSt x = s.refSt x := refSt_of_dist (State.put_dist ..) x

theorem code_ne_zero (x : RefIn) : x.code % 2 ^ Rg.REFS_SELECTED.width ≠ 0 := by cases x <;> decide

/-! Qualification (R58). -/

theorem mem_priority (x : RefIn) (s : State) : x ∈ s.priority := by
  unfold State.priority
  cases x <;> cases s.primary <;> simp [RefIn.other]

/-- An unformed root with a qualified input selects one. -/
theorem selectUnformed_of_qualified {x : RefIn} {s : State} (h : s.flag .fd x.qual = true) : ∃ y : RefIn, s.selectUnformed = s.put .fd Rg.REFS_SELECTED y.code := by
  obtain ⟨y, hy⟩ := Option.isSome_iff_exists.1 (List.find?_isSome (p := fun y : RefIn => s.flag .fd y.qual).2 ⟨x, mem_priority x s, h⟩)
  refine ⟨y, ?_⟩
  unfold State.selectUnformed
  rw [hy]

theorem unformedRoot_congr {s t : State} (hseat : t.get .fd Rg.ROLL_SEAT = s.get .fd Rg.ROLL_SEAT) (hformed : t.get .fd Rg.HT_FORMED = s.get .fd Rg.HT_FORMED) :
    t.unformedRoot = s.unformedRoot := by
  unfold State.unformedRoot State.flag
  rw [hseat, hformed]

/-- An input that may be measured now and whose gate fails is disqualified. -/
theorem execRefGateEnd_failing {x : RefIn} {g : GateMeas} {s : State} (hen : s.refEnabled x = true) (hstage : s.get .fd Rg.START_STAGE1_MET = 1)
    (hdrill : (s.refSt x).drillUntil ≤ s.now) (hpass : g.passes = false) : execRefGateEnd x g s = .next (s.disqualify x) := by
  simp [execRefGateEnd, hen, awaitNow_past hdrill, flag1 hstage, hpass]

/-- An input that may be measured now and whose gate passes qualifies; the selector acts on it. -/
theorem execRefGateEnd_passing {x : RefIn} {g : GateMeas} {s : State} (hen : s.refEnabled x = true) (hstage : s.get .fd Rg.START_STAGE1_MET = 1)
    (hdrill : (s.refSt x).drillUntil ≤ s.now) (hpass : g.passes = true) (hqual : s.get .fd x.qual = 0) :
    execRefGateEnd x g s = .next ((((s.setRef x { (s.refSt x) with qualNow := s.now }).put .fd x.qual 1).outsReturn x).refReady x) := by
  simp [execRefGateEnd, hen, awaitNow_past hdrill, flag1 hstage, hpass, flag0 hqual]

theorem refGateEnd_qualifies {x : RefIn} {g : GateMeas} {s : State} (hen : s.refEnabled x = true) (hstage : s.get .fd Rg.START_STAGE1_MET = 1)
    (hdrill : (s.refSt x).drillUntil ≤ s.now) (hpass : g.passes = true) (hqual : s.get .fd x.qual = 0) (hroot : s.unformedRoot = true) :
    Gives (.refGateEnd x g) s fun t => t.get .fd x.qual = 1 ∧ t.get .fd Rg.REFS_SELECTED ≠ 0 := by
  refine ⟨_, execRefGateEnd_passing hen hstage hdrill hpass hqual, ?_⟩
  have hregs := regs_outsReturn x ((s.setRef x { (s.refSt x) with qualNow := s.now }).put .fd x.qual 1)
  generalize State.outsReturn x _ = u at hregs ⊢
  have hq : u.get .fd x.qual = 1 := by
    rw [hregs _ _ (by cases x <;> exact not_beyondRefKeys), State.get_put_same]
    cases x <;> rfl
  have hunformed : u.unformedRoot = true := by
    rw [← hroot]
    refine unformedRoot_congr ?_ ?_
    · rw [hregs _ _ not_beyondRefKeys, State.get_put_ne _ (by cases x <;> decide), State.get_setRef]
    · rw [hregs _ _ not_beyondRefKeys, State.get_put_ne _ (by cases x <;> decide), State.get_setRef]
  obtain ⟨y, hy⟩ := selectUnformed_of_qualified (flag1 hq)
  rw [State.refReady, if_pos hunformed, hy]
  refine ⟨?_, ?_⟩
  · rw [State.get_put_ne _ (by cases x <;> decide), hq]
  · rw [State.get_put_same]
    exact code_ne_zero y

/-! Disqualification (R59, R64). -/

theorem get_revertiveWait {f : Machine.Field} (h : f.key ≠ Rg.REFS_WTR_RUNNING.key) (s : State) : s.revertiveWait.get .fd f = s.get .fd f := by
  unfold State.revertiveWait
  rw [get_putFlag_ne _ h, State.get_setRef, State.get_setRef]

/-- The flags and the input's state after a breach, before the outputs and the selector follow. -/
def breached (x : RefIn) (s : State) : State :=
  let s1 := ((s.put .fd x.qual 0).put .fd x.refusedF 0).put .fd Rg.REFS_REF_FAULT_SEEN 1
  s1.setRef x { (s1.refSt x) with refused := false }

theorem breached_flags (x : RefIn) (s : State) :
    (breached x s).get .fd x.qual = 0 ∧ (breached x s).get .fd x.refusedF = 0 ∧ (breached x s).get .fd Rg.REFS_REF_FAULT_SEEN = 1 := by
  unfold breached
  cases x <;> refine ⟨?_, ?_, ?_⟩ <;> simp (disch := decide) only [State.get_setRef, State.get_put_ne, State.get_put_same] <;> rfl

theorem breached_selector (x : RefIn) (s : State) :
    (breached x s).get .fd Rg.REFS_SEL_STATE = s.get .fd Rg.REFS_SEL_STATE ∧ (breached x s).get .fd Rg.REFS_SELECTED = s.get .fd Rg.REFS_SELECTED := by
  unfold breached
  cases x <;> constructor <;> simp (disch := decide) only [State.get_setRef, State.get_put_ne]

/-- A breach at an input that is not selected leaves the selector where it is. -/
theorem disqualify_of_unselected {x : RefIn} {s : State} (hqual : s.get .fd x.qual = 1) (hsel : s.get .fd Rg.REFS_SELECTED ≠ x.code) (hbox : s.dist.hall.formBox = none) :
    (s.disqualify x).get .fd x.qual = 0 ∧ (s.disqualify x).get .fd x.refusedF = 0 ∧ (s.disqualify x).get .fd Rg.REFS_REF_FAULT_SEEN = 1
      ∧ (s.disqualify x).get .fd Rg.REFS_SEL_STATE = s.get .fd Rg.REFS_SEL_STATE ∧ (s.disqualify x).get .fd Rg.REFS_SELECTED = s.get .fd Rg.REFS_SELECTED := by
  have habandon : s.abandonForm x = s := by simp [State.abandonForm, hbox]
  have hget : ∀ f : Machine.Field, f.key ≠ Rg.REFS_WTR_RUNNING.key → ¬ beyondRefKeys f.key →
      (((breached x s).revertiveWait.refEvent x.code 3 none).outsFallback x).get .fd f = (breached x s).get .fd f := fun f hw hf => by
    rw [regs_outsFallback x _ _ _ hf, regs_refEvent _ _ _ _ _ _ hf, get_revertiveWait hw]
  obtain ⟨hq, hr, hf⟩ := breached_flags x s
  obtain ⟨hst, hse⟩ := breached_selector x s
  have hstays : s.disqualify x = ((breached x s).revertiveWait.refEvent x.code 3 none).outsFallback x := by
    have hsel' := (hget Rg.REFS_SELECTED key_ne_of_lo not_beyondRefKeys).trans hse
    unfold breached at hsel'
    unfold State.disqualify breached
    simp [flag1 hqual, habandon, hsel', hsel]
  rw [hstays, hget _ (by cases x <;> decide) (by cases x <;> exact not_beyondRefKeys), hget _ (by cases x <;> decide) (by cases x <;> exact not_beyondRefKeys),
    hget _ key_ne_of_lo not_beyondRefKeys, hget _ key_ne_of_lo not_beyondRefKeys, hget _ key_ne_of_lo not_beyondRefKeys]
  exact ⟨hq, hr, hf, hst, hse⟩

theorem refGateEnd_disqualifies {x : RefIn} {g : GateMeas} {s : State} (hen : s.refEnabled x = true) (hstage : s.get .fd Rg.START_STAGE1_MET = 1)
    (hdrill : (s.refSt x).drillUntil ≤ s.now) (hpass : g.passes = false) (hqual : s.get .fd x.qual = 1) (hsel : s.get .fd Rg.REFS_SELECTED ≠ x.code)
    (hbox : s.dist.hall.formBox = none) :
    Gives (.refGateEnd x g) s fun t => t.get .fd x.qual = 0 ∧ t.get .fd Rg.REFS_REF_FAULT_SEEN = 1 ∧ t.get .fd Rg.REFS_SEL_STATE = s.get .fd Rg.REFS_SEL_STATE := by
  obtain ⟨hq, -, hf, hst, -⟩ := disqualify_of_unselected hqual hsel hbox
  exact ⟨_, execRefGateEnd_failing hen hstage hdrill hpass, hq, hf, hst⟩

theorem refDisqualify_disqualifies {x : RefIn} {b : RefBreach} {s : State} (hen : s.refEnabled x = true) (hqual : s.get .fd x.qual = 1)
    (hsel : s.get .fd Rg.REFS_SELECTED ≠ x.code) (hbox : s.dist.hall.formBox = none) :
    Gives (.refDisqualify x b) s fun t => t.get .fd x.qual = 0 ∧ t.get .fd x.refusedF = 0 ∧ t.get .fd Rg.REFS_REF_FAULT_SEEN = 1
      ∧ t.get .fd Rg.REFS_SEL_STATE = s.get .fd Rg.REFS_SEL_STATE ∧ t.get .fd Rg.REFS_SELECTED = s.get .fd Rg.REFS_SELECTED :=
  ⟨_, congrArg Host.Outcome.next (if_pos hen), disqualify_of_unselected hqual hsel hbox⟩

/-! Adoption and the revertive wait (R61, R64, R66, R68). -/

/-- What the registers report of an adoption. -/
theorem adopt_reports (x : RefIn) (s : State) :
    (s.adopt x).get .fd Rg.REFS_SELECTED = x.code ∧ (s.adopt x).get .fd Rg.REFS_SEL_STATE = 1 ∧ (s.adopt x).get .fd Rg.REFS_LOCK = 1
      ∧ (s.adopt x).get .fd x.refusedF = 0 := by
  unfold State.adopt
  cases x <;> refine ⟨?_, ?_, ?_, ?_⟩ <;> simp (disch := decide) only [get_putFlag_ne, slewTo_get, State.get_put_ne, State.get_put_same] <;> rfl

/-- The fields that the selector writes: HOLDOVER and SLEWING, FD_REF_STATUS but its ROLE, OFFSET_x and KEEP_x, and those of the records. -/
def selectorKeys (k : Nat) : Prop :=
  k = Rg.HT_HOLDOVER.key ∨ k = Rg.HT_SLEWING.key ∨ (0x0410 * 32 ≤ k ∧ k < 0x0424 * 32 ∧ k ≠ Rg.REFS_ROLE.key) ∨ attKeys k

theorem selectorKeys_of_status {f : Machine.Field} (h : 0x0410 * 32 ≤ f.key ∧ f.key < 0x0424 * 32 ∧ f.key ≠ Rg.REFS_ROLE.key := by decide) : selectorKeys f.key :=
  Or.inr (Or.inr (Or.inl h))

theorem not_selectorKeys {f : Machine.Field} (hht : f.key ≠ Rg.HT_HOLDOVER.key ∧ f.key ≠ Rg.HT_SLEWING.key := by decide)
    (hst : ¬ (0x0410 * 32 ≤ f.key ∧ f.key < 0x0424 * 32 ∧ f.key ≠ Rg.REFS_ROLE.key) := by decide)
    (hatt : f.key < 0x7000 * 32 ∨ 0x7600 * 32 ≤ f.key ∨ 0x7000 * 32 + 16 < f.key ∧ f.key < 0x7024 * 32 := by decide) : ¬ selectorKeys f.key := by
  rintro (h | h | h | h)
  · exact hht.1 h
  · exact hht.2 h
  · exact hst h
  · have := attKeys_cases h
    omega

theorem regs_slewTo (K : Nat → Prop) (off : Int) (rate : Nat) (s : State) : Regs K s (s.slewTo off rate) := fun _ _ _ => slewTo_get ..

theorem regs_setRef {K : Nat → Prop} (x : RefIn) (r : RefSt) {s t : State} (h : Regs K s t) : Regs K s (t.setRef x r) := h.trans fun _ _ _ => State.get_setRef ..

/-- An acceptance with KEEP moves the offset accepted from OFFSET_x into KEEP_x (R68). -/
theorem regs_adoptKeep (x : RefIn) (off keep : Int) (s : State) :
    Regs selectorKeys s ((s.putS .fd (Rg.REFO_OFFSET x.idx) off).putS .fd (Rg.REFK_KEEP x.idx) keep) :=
  ((Regs.refl _ s).putS (by cases x <;> exact selectorKeys_of_status) _).putS (by cases x <;> exact selectorKeys_of_status) _

/-- An adoption writes the selector's fields alone. -/
theorem regs_adopt (x : RefIn) (s : State) : Regs selectorKeys s (s.adopt x) := by
  unfold State.adopt
  dsimp only
  refine Regs.putFlag (Regs.trans ?_ (regs_slewTo _ _ _ _)) (Or.inr (Or.inl rfl)) _
  refine Regs.put (Regs.put (Regs.put (Regs.put (Regs.put (Regs.put (Regs.putFlag (regs_setRef _ _ ?_) ?_ _) ?_ _) ?_ _) ?_ _) ?_ _) (Or.inl rfl) _) ?_ _
  case refine_1 =>
    split
    · exact regs_adoptKeep x _ _ s
    · exact Regs.refl _ s
  case refine_6 => cases x <;> exact selectorKeys_of_status
  all_goals exact selectorKeys_of_status

theorem primary_congr {s t : State} (h : t.get .fd Rg.REF_PRIMARY = s.get .fd Rg.REF_PRIMARY) : t.primary = s.primary := by
  unfold State.primary State.flag
  rw [h]

/-- Locked on the input of higher priority, the root waits for none. -/
theorem revertiveWait_at_primary {s : State} (h : s.get .fd Rg.REFS_SELECTED = s.primary.code) (x : RefIn) :
    s.revertiveWait.get .fd Rg.REFS_WTR_RUNNING = 0 ∧ (s.revertiveWait.refSt x).wtrFrom = none := by
  unfold State.revertiveWait
  simp only [h, bne_self_eq_false, Bool.and_false, Bool.false_and, Bool.false_eq_true, if_false]
  refine ⟨get_putFlag_same _ _, ?_⟩
  rw [State.putFlag, refSt_put]
  cases s.primary <;> cases x <;> rfl

theorem revertiveWaitEnd_adopts {x : RefIn} {t0 : Nat} {s : State} (hfrom : (s.refSt x).wtrFrom = some t0) (hprim : s.primary = x) (hst : s.get .fd Rg.REFS_SEL_STATE = 1)
    (hrev : s.get .fd Rg.REF_REVERTIVE = 1) (hqual : s.get .fd x.qual = 1) (hsel : s.get .fd Rg.REFS_SELECTED ≠ x.code)
    (hend : t0 + s.get .fd Rg.REF_WTR_S * 1000000000 ≤ s.now) (hjump : s.jumpPasses x = true) :
    Gives (.revertiveWaitEnd x) s fun t => t.get .fd Rg.REFS_SELECTED = x.code ∧ t.get .fd Rg.REFS_SEL_STATE = 1 ∧ t.get .fd Rg.REFS_LOCK = 1
      ∧ t.get .fd Rg.REFS_WTR_RUNNING = 0 ∧ t.get .fd x.refusedF = 0 ∧ (t.refSt x).wtrFrom = none := by
  have hrun : execRevertiveWaitEnd x s = .next (s.adopt x).revertiveWait := by
    simp [execRevertiveWaitEnd, hfrom, hst, flag1 hrev, flag1 hqual, hsel, awaitNow_past hend, hjump]
  obtain ⟨hcode, hlocked, hlock, hrefused⟩ := adopt_reports x s
  have hprim' : (s.adopt x).primary = x := (primary_congr (regs_adopt x s _ _ not_selectorKeys)).trans hprim
  obtain ⟨hwtr, hnone⟩ := revertiveWait_at_primary (hcode.trans (congrArg RefIn.code hprim'.symm)) x
  refine ⟨_, hrun, ?_, ?_, ?_, hwtr, ?_, hnone⟩
  · rw [get_revertiveWait key_ne_of_lo, hcode]
  · rw [get_revertiveWait key_ne_of_lo, hlocked]
  · rw [get_revertiveWait key_ne_of_lo, hlock]
  · rw [get_revertiveWait (by cases x <;> decide), hrefused]

/-! An edge measured (R47, R65, R90). -/

theorem ofSigned_natCast {w m : Nat} (h : m < 2 ^ w) : ofSigned w (m : Int) = m := by
  unfold ofSigned
  rw [← Int.natCast_mod, Int.toNat_natCast, Nat.mod_eq_of_lt h]

/-- An edge taken in at an input: its offset against the HT second and its stamps. -/
def edgeTaken (x : RefIn) (off : Int) (ht cyc : Nat) (s : State) : State :=
  (s.putS .fd (Rg.REFO_OFFSET x.idx) off).setRef x { s.refSt x with edgeHt := ht, cycHt := cyc, edged := true }

theorem get_edgeTaken_offset (x : RefIn) {m : Nat} (h : m < 2000000000) (ht cyc : Nat) (s : State) : (edgeTaken x m ht cyc s).get .fd (Rg.REFO_OFFSET x.idx) = m := by
  rw [edgeTaken, State.get_setRef, get_putS_same]
  exact ofSigned_natCast (w := 32) (h.trans (by decide))

theorem get_edgeTaken {x : RefIn} {f : Machine.Field} (h : f.key ≠ (Rg.REFO_OFFSET x.idx).key) (off : Int) (ht cyc : Nat) (s : State) :
    (edgeTaken x off ht cyc s).get .fd f = s.get .fd f := by
  rw [edgeTaken, State.get_setRef, get_putS_ne _ h]

theorem clock_edgeTaken (x : RefIn) (off : Int) (ht cyc : Nat) (s : State) : (edgeTaken x off ht cyc s).fd.clock = s.fd.clock := by cases x <;> rfl

theorem isActiveRoot_edgeTaken (x : RefIn) (off : Int) (ht cyc : Nat) (s : State) : (edgeTaken x off ht cyc s).isActiveRoot = s.isActiveRoot := by
  unfold State.isActiveRoot State.role
  rw [get_edgeTaken (by cases x <;> decide)]

/-- An offset of less than half a second needs no wrap. -/
theorem offset_in_half_second {m : Nat} (h : m < 2000000000) :
    (if (m : Int) < 2000000000 then (m : Int) else m - 4000000000) = m ∧
      (if (m : Int) < -2000000000 then (m : Int) + 4000000000 else if 2000000000 ≤ (m : Int) then (m : Int) - 4000000000 else m) = m := by
  constructor
  · rw [if_pos (by omega)]
  · rw [if_neg (by omega), if_neg (by omega)]

section

variable {x : RefIn} {coarse bin ht m cyc : Nat} {twin : Option Int} {s u : State}

/-- An edge less than half a second after the HT second, with nothing kept, at an input that is not selected: it is taken in. -/
theorem execRefPpsEdge_unselected (hu : u = s.pairEdge (.timing .fd) twin) (hen : s.refEnabled x = true) (hsel : u.get .fd Rg.REFS_SELECTED ≠ x.code)
    (hkeep : u.getS .fd (Rg.REFK_KEEP x.idx) = 0) (hht : (u.pair (.timing .fd)).stamp coarse bin 0 = ht) (hm : ht / 16384 % 4000000000 = m) (hnear : m < 2000000000) :
    execRefPpsEdge x coarse bin twin cyc s = .next (edgeTaken x m ht cyc u) := by
  obtain ⟨hhalf, hwrap⟩ := offset_in_half_second hnear
  have hsel' : (edgeTaken x m ht cyc u).get .fd Rg.REFS_SELECTED ≠ x.code := by rwa [get_edgeTaken (by cases x <;> decide)]
  unfold execRefPpsEdge
  simp only [hen, ← hu, hht, hm, hhalf, hkeep, Int.sub_zero, hwrap, Bool.not_true, Bool.false_eq_true, if_false]
  exact if_pos (bne_iff_ne.2 hsel')

/-- The same edge at the input that an active root is locked to: HT is slewed to it. -/
theorem execRefPpsEdge_locked (hu : u = s.pairEdge (.timing .fd) twin) (hen : s.refEnabled x = true) (hroot : u.isActiveRoot = true) (hst : u.get .fd Rg.REFS_SEL_STATE = 1)
    (hsel : u.get .fd Rg.REFS_SELECTED = x.code)
    (hkeep : u.getS .fd (Rg.REFK_KEEP x.idx) = 0) (hht : (u.pair (.timing .fd)).stamp coarse bin 0 = ht) (hm : ht / 16384 % 4000000000 = m) (hnear : m < 2000000000) :
    execRefPpsEdge x coarse bin twin cyc s =
      .next (((edgeTaken x m ht cyc u).slewTo m (edgeTaken x m ht cyc u).slewLimit).putFlag .fd Rg.HT_SLEWING (m != 0)) := by
  obtain ⟨hhalf, hwrap⟩ := offset_in_half_second hnear
  have hsel' : (edgeTaken x m ht cyc u).get .fd Rg.REFS_SELECTED = x.code := (get_edgeTaken (by cases x <;> decide) ..).trans hsel
  have hst' : (edgeTaken x m ht cyc u).get .fd Rg.REFS_SEL_STATE = 1 := (get_edgeTaken (by cases x <;> decide) ..).trans hst
  have hroot' : (edgeTaken x m ht cyc u).isActiveRoot = true := (isActiveRoot_edgeTaken ..).trans hroot
  have hzero : ((m : Int) != 0) = (m != 0) := by rw [Bool.eq_iff_iff]; simp
  unfold execRefPpsEdge
  simp only [hen, ← hu, hht, hm, hhalf, hkeep, Int.sub_zero, hwrap, Bool.not_true, Bool.false_eq_true, if_false, hzero]
  have hunsel : ¬ ((edgeTaken x m ht cyc u).get .fd Rg.REFS_SELECTED != x.code) = true := by simp [hsel']
  have hlocked : ((edgeTaken x m ht cyc u).isActiveRoot && (edgeTaken x m ht cyc u).get .fd Rg.REFS_SEL_STATE == 1) = true := by simp [hroot', hst']
  exact (if_neg hunsel).trans (if_pos hlocked)

theorem refPpsEdge_measures (hu : u = s.pairEdge (.timing .fd) twin) (hen : s.refEnabled x = true)
    (hsel : u.get .fd Rg.REFS_SELECTED ≠ x.code) (hkeep : u.getS .fd (Rg.REFK_KEEP x.idx) = 0)
    (hnear : (u.pair (.timing .fd)).stamp coarse bin 0 / 16384 % 4000000000 < 2000000000) :
    Gives (.refPpsEdge x coarse bin twin cyc) s fun t => t.get .fd (Rg.REFO_OFFSET x.idx) = (u.pair (.timing .fd)).stamp coarse bin 0 / 16384 % 4000000000 ∧ t.fd.clock = u.fd.clock
      ∧ ∀ f, f.key ≠ (Rg.REFO_OFFSET x.idx).key → t.get .fd f = u.get .fd f :=
  ⟨_, execRefPpsEdge_unselected hu hen hsel hkeep rfl rfl hnear, get_edgeTaken_offset x hnear _ _ u, clock_edgeTaken .., fun _ hf => get_edgeTaken hf ..⟩

theorem refPpsEdge_steers (hu : u = s.pairEdge (.timing .fd) twin) (hen : s.refEnabled x = true) (hroot : u.isActiveRoot = true) (hst : u.get .fd Rg.REFS_SEL_STATE = 1)
    (hsel : u.get .fd Rg.REFS_SELECTED = x.code) (hkeep : u.getS .fd (Rg.REFK_KEEP x.idx) = 0)
    (hnear : (u.pair (.timing .fd)).stamp coarse bin 0 / 16384 % 4000000000 < 2000000000) :
    Gives (.refPpsEdge x coarse bin twin cyc) s fun t => t.get .fd (Rg.REFO_OFFSET x.idx) = (u.pair (.timing .fd)).stamp coarse bin 0 / 16384 % 4000000000
      ∧ t.get .fd Rg.HT_SLEWING = ofBool ((u.pair (.timing .fd)).stamp coarse bin 0 / 16384 % 4000000000 != 0)
      ∧ t.fd.clock = { u.fd.clock with slewRate := u.get .fd Rg.REF_SLEW_LIMIT * 100000, slewNext := none, slewLeft := -((((u.pair (.timing .fd)).stamp coarse bin 0 / 16384 % 4000000000 : Nat) : Int) * 16384 * 1000000000000000) } := by
  refine ⟨_, execRefPpsEdge_locked hu hen hroot hst hsel hkeep rfl rfl hnear, ?_, get_putFlag_same .., ?_⟩
  · rw [get_putFlag_ne _ (by cases x <;> decide), slewTo_get, get_edgeTaken_offset x hnear]
  · have hlimit : ∀ off ht, (edgeTaken x off ht cyc u).slewLimit = u.get .fd Rg.REF_SLEW_LIMIT * 100000 := fun off ht => by
      rw [State.slewLimit, get_edgeTaken (by cases x <;> decide)]
    rw [hlimit, ← clock_edgeTaken x _ _ cyc u]
    rfl

end

/-! The operator's acceptance (R68, R86). -/

theorem acceptFlag_pending (s : State) : s.acceptFlag.get .fd Rg.REFS_ACCEPT_PENDING = ofBool (s.dist.refA.accept.isSome || s.dist.refB.accept.isSome) := get_putFlag_same ..

theorem accept_or (x : RefIn) (s : State) : (s.dist.refA.accept.isSome || s.dist.refB.accept.isSome) = ((s.refSt x).accept.isSome || (s.refSt x.other).accept.isSome) := by
  cases x
  · rfl
  · exact Bool.or_comm ..

theorem refSt_acceptFlag (x : RefIn) (s : State) : s.acceptFlag.refSt x = s.refSt x := refSt_put ..

theorem get_acceptFlag_ne {f : Machine.Field} (h : f.key ≠ Rg.REFS_ACCEPT_PENDING.key) (s : State) : s.acceptFlag.get .fd f = s.get .fd f := get_putFlag_ne _ h ..

/-- What decides whether the root awaits a reference: the selector's state, FORMED and the role. -/
theorem awaitsRef_congr {s t : State} (h : ∀ f ∈ [Rg.REFS_SEL_STATE, Rg.HT_FORMED, Rg.REFS_ROLE], t.get .fd f = s.get .fd f) :
    t.freeRunFormed = s.freeRunFormed ∧ t.rootHoldover = s.rootHoldover := by
  have hst := h Rg.REFS_SEL_STATE (by simp)
  have hformed := h Rg.HT_FORMED (by simp)
  have hrole := h Rg.REFS_ROLE (by simp)
  unfold State.freeRunFormed State.rootHoldover State.isActiveRoot State.role State.flag
  rw [hst, hformed, hrole]
  exact ⟨rfl, rfl⟩

/-- A root that awaits no reference keeps an acceptance pending. -/
theorem acceptRef_pends {x : RefIn} {keep : Bool} {off : Int} {s : State} (hfree : s.freeRunFormed = false) (hhold : s.rootHoldover = false) :
    s.acceptRef x keep off = (s.setRef x { s.refSt x with accept := some (keep, off) }).acceptFlag := by
  obtain ⟨hfree', hhold'⟩ := awaitsRef_congr (s := s) (t := (s.setRef x { s.refSt x with accept := some (keep, off) }).acceptFlag) fun f hf => by
    rw [get_acceptFlag_ne (by revert f; decide), State.get_setRef]
  unfold State.acceptRef
  simp [hfree', hhold', hfree, hhold]

theorem refOf_code (x : RefIn) : refOf x.code = some x := by cases x <;> rfl

theorem refAccept_pends {m : MbGo} {x : RefIn} {s : State} (h : MbReady m 1 none 8 s) (hp : m.part = .fd) (hroot : s.isActiveRoot = true)
    (hjobs : ∀ j < 64, s.get .fd (Rg.JH_MEMBERS j) = 0) (hx : m.argAt [1, 1, 4] 0 = x.code) (hkeep : m.argAt [1, 1, 4] 1 ≤ 1) (hfree : s.freeRunFormed = false)
    (hhold : s.rootHoldover = false) :
    Gives (.refAccept m) s fun t => Answered m 0 t ∧ t.get .fd Rg.REFS_ACCEPT_PENDING = 1
      ∧ (t.refSt x).accept = some (m.argAt [1, 1, 4] 1 == 1, toSigned 32 (m.argAt [1, 1, 4] 2)) := by
  refine ⟨_, rfl, ?_⟩
  have hget : ∀ f : Machine.Field, ¬ mbKeys f.key → (s.mbSubmit m 0x06).get .fd f = s.get .fd f := fun f hf => get_sub h.box 0x06 hf .fd
  have hlive : (s.mbSubmit m 0x06).liveJob .fd = false :=
    liveJob_none (fun _ j hj => (hget _ (by simp only [mbKeys, Machine.Field.key, Rg.JH_MEMBERS]; omega)).trans (hjobs j hj)) nofun
  unfold MbGo.argAt at hx hkeep ⊢
  generalize hv : (s.mbSubmit m 0x06).nextBeat .fd = v
  have hw : Waits (s.mbSubmit m 0x06) v := hv ▸ Waits.nextBeat ..
  obtain ⟨hfree', hhold'⟩ := awaitsRef_congr (s := s) (t := v) fun f hf => by
    rw [hw.get _ _ (by unfold timeKeys; revert f; decide), hget _ (by unfold mbKeys; revert f; decide)]
  rw [fdOnly_fd hp, mailbox_eq_answer (jobArg := none) h rfl (out := .ok [])
    (u := (v.setRef x { v.refSt x with accept := some ((parseFields m.args 0 [1, 1, 4]).getD 1 0 == 1, toSigned 32 ((parseFields m.args 0 [1, 1, 4]).getD 2 0)) }).acceptFlag) ?body]
  case body =>
    rw [State.atRoot, if_pos (active_sub h.box 0x06 hroot), hlive, hx, refOf_code, hv]
    simp only [Bool.false_eq_true, if_false, if_neg (Nat.not_lt.2 hkeep), acceptRef_pends (hfree'.trans hfree) (hhold'.trans hhold)]
  refine ⟨answered_ok .., ?_, ?_⟩
  · rw [get_ans h.box _ _ not_mbKeys_of_off, acceptFlag_pending, accept_or x, refSt_setRef]
    rfl
  · rw [ans_ok, refSt_of_dist (mbDone_dist ..), refSt_acceptFlag, refSt_setRef]

theorem refAcceptCancel_cancels {m : MbGo} {x : RefIn} {s : State} (h : MbReady m 1 none 1 s) (hp : m.part = .fd) (hroot : s.isActiveRoot = true) (hx : m.argAt [1] 0 = x.code)
    (hacc : (s.refSt x).accept.isSome = true) :
    Gives (.refAcceptCancel m) s fun t => Answered m 0 t ∧ (t.refSt x).accept = none ∧ t.refSt x.other = s.refSt x.other
      ∧ t.get .fd Rg.REFS_ACCEPT_PENDING = ofBool (s.refSt x.other).accept.isSome := by
  refine ⟨_, rfl, ?_⟩
  have href : ∀ y, (s.mbSubmit m 0x0A).refSt y = s.refSt y := refSt_of_dist (mbSubmit_dist ..)
  unfold MbGo.argAt at hx
  rw [fdOnly_fd hp, mailbox_eq_answer (jobArg := none) h rfl (out := .ok []) (u := (s.mbSubmit m 0x0A).cancelAccept x) ?body]
  case body =>
    rw [State.atRoot, if_pos (active_sub h.box 0x0A hroot), hx, refOf_code]
    simp only [href, hacc, if_true]
  unfold State.cancelAccept
  refine ⟨answered_ok .., ?_, ?_, ?_⟩
  · rw [ans_ok, refSt_of_dist (mbDone_dist ..), refSt_acceptFlag, refSt_setRef]
  · rw [ans_ok, refSt_of_dist (mbDone_dist ..), refSt_acceptFlag, refSt_setRef_other, href]
  · rw [get_ans h.box _ _ not_mbKeys_of_off, acceptFlag_pending, accept_or x, refSt_setRef, refSt_setRef_other, href x.other]
    rfl

/-- Settles O6, each clause by the lemma on its command. -/
theorem referencesQualifyAndSteer : Obligations.ReferencesQualifyAndSteer := by
  unfold Obligations.ReferencesQualifyAndSteer
  exact ⟨fun _ _ _ hen hstage hdrill hpass hqual hroot => refGateEnd_qualifies hen hstage hdrill hpass hqual hroot,
    fun _ _ _ hen hstage hdrill hpass hqual hsel hbox => refGateEnd_disqualifies hen hstage hdrill hpass hqual hsel hbox,
    fun _ _ _ hen hqual hsel hbox => refDisqualify_disqualifies hen hqual hsel hbox,
    fun _ _ _ hfrom hprim hst hrev hqual hsel hend hjump _ => revertiveWaitEnd_adopts hfrom hprim hst hrev hqual hsel hend hjump,
    fun _ _ _ _ _ _ _ hu hen hsel hkeep hnear => refPpsEdge_measures hu hen hsel hkeep hnear,
    fun _ _ _ _ _ _ _ hu hen hroot hst hsel hkeep hnear => refPpsEdge_steers hu hen hroot hst hsel hkeep hnear,
    fun _ _ _ h hp hroot hjobs hx hkeep hfree hhold => refAccept_pends h hp hroot hjobs hx hkeep hfree hhold,
    fun _ _ _ h hp hroot hx hacc => refAcceptCancel_cancels h hp hroot hx hacc⟩

end Sys2Proof.Proofs

/-! PROOFS. O29: the two roots: the mids' reports, promotion, demotion. -/

namespace Sys2Proof.Proofs

open Sys2Proof Sys2Proof.Machine Sys2Proof.Cmds

/-! The mids' reports (R405, R406; that ROOT_STATE carries PROMO_SEQ is the model's own, log entry 54). -/

theorem link_sendTunnel_ne (p : Part) {n k : Nat} (h : n ≠ k) (m : TunMsg) (s : State) : (s.sendTunnel p k m).link p n = s.link p n := by
  unfold State.sendTunnel
  split
  · exact link_setLink_ne p h ..
  · rfl

theorem get_sendTunnel (p : Part) (n : Nat) (m : TunMsg) (q : Part) (f : Machine.Field) (s : State) : (s.sendTunnel p n m).get q f = s.get q f :=
  (sendTunnels_all p [n] m s).2.1 q f

theorem link_sendTunnels_of_not_mem {p : Part} {n : Nat} {ns : List Nat} (h : n ∉ ns) (m : TunMsg) (s : State) : (s.sendTunnels p ns m).link p n = s.link p n := by
  induction ns generalizing s with
  | nil => rfl
  | cons k ks ih =>
    obtain ⟨hne, hks⟩ := not_or.1 (List.mem_cons.not.1 h)
    exact (ih hks _).trans (link_sendTunnel_ne p hne m s)

/-- A message to several links that are up goes out once on each. -/
theorem tunnel_sendTunnels {p : Part} {n : Nat} {ns : List Nat} (hnodup : ns.Nodup) (hn : n ∈ ns) (m : TunMsg) {s : State} (hup : s.linkUp p n = true) :
    ((s.sendTunnels p ns m).link p n).tunnel = (s.link p n).tunnel ++ [m] := by
  induction ns generalizing s with
  | nil => exact absurd hn List.not_mem_nil
  | cons k ks ih =>
    obtain ⟨hk, hks⟩ := List.nodup_cons.1 hnodup
    change (((s.sendTunnel p k m).sendTunnels p ks m).link p n).tunnel = _
    rcases List.mem_cons.1 hn with rfl | hn
    · rw [link_sendTunnels_of_not_mem hk, State.sendTunnel, if_pos hup, link_modLink]
    · have hne : n ≠ k := fun e => hk (e ▸ hn)
      have hup' : (s.sendTunnel p k m).linkUp p n = true := by
        unfold State.linkUp State.lstate at hup ⊢
        rwa [get_sendTunnel]
      rw [ih hks hn hup', link_sendTunnel_ne p hne]

theorem rootStateSend_reports {s : State} (hrole : s.role = 3) (hbeat : s.beat .fd % 64 = 0) (hfirst : SMap.find 7 s.fd.lastDone ≠ some (s.beat .fd))
    (hup0 : s.linkUp .fd 64 = true) (hup1 : s.linkUp .fd 65 = true) :
    Gives .rootStateSend s fun t => ∀ n, n = 64 ∨ n = 65 →
      (t.link .fd n).tunnel = (s.link .fd n).tunnel ++ [.rootState (s.lstate .fd 64) (s.lstate .fd 65) (s.link .fd 64).leftHt32 (s.link .fd 65).leftHt32 (s.get .fd Rg.PROM_PROMO_SEQ)] := by
  generalize hu : s.setUnit .fd { s.fd with lastDone := SMap.set 7 (s.beat .fd) s.fd.lastDone } = u
  have hregs : ∀ f, u.get .fd f = s.get .fd f := fun f => by
    rw [← hu, State.get_setUnit]
    rfl
  have hlink : ∀ n, u.link .fd n = s.link .fd n := fun n => by
    rw [← hu]
    rfl
  have hrun : execRootStateSend s = .next (u.sendTunnels .fd [64, 65]
      (.rootState (s.lstate .fd 64) (s.lstate .fd 65) (s.link .fd 64).leftHt32 (s.link .fd 65).leftHt32 (s.get .fd Rg.PROM_PROMO_SEQ))) := by
    have hnow : s.periodic .fd 7 64 0 = u := by
      rw [periodic_now (by decide) hbeat hfirst, ← hu]
      rfl
    have hrole' : u.role = 3 := (hregs _).trans hrole
    have hbeat' : u.beat .fd % 64 = 0 := by
      rw [← hu]
      exact hbeat
    simp [execRootStateSend, hrole, hnow, hrole', hbeat', hlink, State.lstate, hregs]
  refine ⟨_, hrun, fun n hn => ?_⟩
  have hup : u.linkUp .fd n = true := by
    unfold State.linkUp State.lstate at hup0 hup1 ⊢
    rw [hregs]
    rcases hn with rfl | rfl
    · exact hup0
    · exact hup1
  rw [tunnel_sendTunnels (by decide) (by simpa using hn) _ hup, hlink]

theorem rootState_kept {n u0 u1 l0 l1 q : Nat} {s : State} (hrole : s.role = 1 ∨ s.role = 2) :
    Gives (.rootState n u0 u1 l0 l1 q) s fun t => t.dist.hall = { s.dist.hall with rootStates := SMap.set n (u0, u1, l0, l1, s.beat .fd) s.dist.hall.rootStates, otherPromo := some q }
      ∧ Regs (fun k => k = Rg.PROM_MIRROR_SILENT.key ∨ k = Rg.PROM_MID_MAJORITY.key ∨ k = Rg.PROM_MIDS_LINKED.key ∨ k = Rg.PROM_MIDS_LOST.key) s t := by
  generalize hu : (s.modLink .fd n fun l => { l with tunIn := l.tunIn.erase (.rootState u0 u1 l0 l1 q) }) = u
  obtain ⟨hdist, -, hget⟩ := hu ▸ modLink_all .fd n (fun l => { l with tunIn := l.tunIn.erase (.rootState u0 u1 l0 l1 q) }) s
  have hbeat : u.beat .fd = s.beat .fd := beat_of (hu ▸ State.setLink_clock ..)
  have hother : (u.role != 1 && u.role != 2) = false := by
    rw [show u.role = s.role from hget ..]
    rcases hrole with h | h <;> simp [h]
  have hrun : execRootState n u0 u1 l0 l1 q s
      = .next (u.setHall { s.dist.hall with rootStates := SMap.set n (u0, u1, l0, l1, s.beat .fd) s.dist.hall.rootStates, otherPromo := some q }).promoteRegs := by
    simp only [execRootState, hu, hother, hdist, hbeat, Bool.false_eq_true, if_false]
  have honly := promoteRegs_only (u.setHall { s.dist.hall with rootStates := SMap.set n (u0, u1, l0, l1, s.beat .fd) s.dist.hall.rootStates, otherPromo := some q })
  refine ⟨_, hrun, ?_, ?_⟩
  · rw [honly.dist]
    rfl
  · exact Regs.trans (fun p f _ => (State.get_setHall ..).trans (hget p f)) (Regs.of_only honly)

/-! Promotion asked for (R405, R418). -/

theorem rootPromote_asks {m : MbGo} {s : State} (h : MbReady m 2 none 0 s) (hp : m.part = .fd) (hv : s.dist.variant = .vxd2880) (hrole : s.role = 2)
    (hlanes : ∀ n, 68 ≤ n → n ≤ 71 → s.lstate .fd n ≠ 3) :
    Gives (.rootPromote m) s fun t => Answered m 0 t ∧ t.dist = { s.dist with hall := { s.dist.hall with promoteAt := some (s.beat .fd) } } := by
  refine ⟨_, rfl, ?_⟩
  have hrole' : (s.mbSubmit m 0x14).role = 2 := (get_sub h.box 0x14 not_mbKeys_of_off .fd).trans hrole
  have hgone : (prPorts.any fun n => (s.mbSubmit m 0x14).lstate .fd n == 3) = false := List.any_eq_false.2 fun n hn => by
    have hn : 68 ≤ n ∧ n ≤ 71 := by revert n; decide
    have hst : (s.mbSubmit m 0x14).lstate .fd n = s.lstate .fd n := get_stat_mbSubmit h.box 0x14 (n := n) (by omega) s
    simpa [hst] using hlanes n hn.1 hn.2
  rw [own_fd hp hv, mailbox_eq_answer (jobArg := none) h rfl (out := .ok [])
    (u := (s.mbSubmit m 0x14).setHall { s.dist.hall with promoteAt := some (s.beat .fd) }) ?body]
  case body =>
    rw [hrole', hgone, mbSubmit_dist, beat_of (mbSubmit_unit_clock ..)]
    rfl
  refine ⟨answered_ok .., ?_⟩
  rw [ans_ok, mbDone_dist, State.setHall, mbSubmit_dist]
  rfl

/-! The selector of a root that changes its role (R64, R76, R407, R408). -/

/-- The fields of the selector, and FORMED, which a promotion into FREE_RUN sets (R447). -/
def rootKeys (k : Nat) : Prop := k = Rg.HT_FORMED.key ∨ selectorKeys k

theorem not_rootKeys {f : Machine.Field} (h : ¬ selectorKeys f.key) (hf : f.key ≠ Rg.HT_FORMED.key := by decide) : ¬ rootKeys f.key := by
  rintro (e | e)
  · exact hf e
  · exact h e

/-- A root's selector has acted: fields of its own have changed; the hall's part and the mirrored changes have not. -/
structure Reselected (s t : State) : Prop where
  regs : Regs rootKeys s t
  hall : t.dist.hall = s.dist.hall
  mirrorTt : t.dist.mirrorTt = s.dist.mirrorTt

theorem Reselected.refl (s : State) : Reselected s s := ⟨Regs.refl _ s, rfl, rfl⟩

theorem Reselected.trans {s t u : State} (h : Reselected s t) (k : Reselected t u) : Reselected s u :=
  ⟨h.regs.trans k.regs, k.hall.trans h.hall, k.mirrorTt.trans h.mirrorTt⟩

theorem regs_mono {K L : Nat → Prop} {s t : State} (h : Regs K s t) (hk : ∀ k, K k → L k) : Regs L s t := fun p f hf => h p f fun e => hf (hk _ e)

theorem rootKeys_of_holdKeys {k : Nat} (h : holdKeys k) : rootKeys k := by
  rcases h with rfl | rfl | rfl | h | h | h
  · exact Or.inr selectorKeys_of_status
  · exact Or.inr selectorKeys_of_status
  · exact Or.inr selectorKeys_of_status
  · exact Or.inr (Or.inl h)
  · exact Or.inr (Or.inr (Or.inl h))
  · exact Or.inr (Or.inr (Or.inr (Or.inr h)))

theorem Reselected.put {s t : State} (h : Reselected s t) {f : Machine.Field} (hf : rootKeys f.key) (v : Nat) : Reselected s (t.put .fd f v) :=
  ⟨h.regs.put hf v, by rw [State.put_dist, h.hall], by rw [State.put_dist, h.mirrorTt]⟩

/-- A field of FD_REF_STATUS other than ROLE. -/
theorem Reselected.putStatus {s t : State} (h : Reselected s t) {f : Machine.Field} (v : Nat)
    (hf : 0x0410 * 32 ≤ f.key ∧ f.key < 0x0424 * 32 ∧ f.key ≠ Rg.REFS_ROLE.key := by decide) : Reselected s (t.put .fd f v) := h.put (Or.inr (selectorKeys_of_status hf)) v

theorem Reselected.refEvent {s t : State} (h : Reselected s t) (src ev : Nat) (off : Option Int) : Reselected s (t.refEvent src ev off) := by
  obtain ⟨hregs, hdist⟩ := refEvent_regs src ev off t
  refine h.trans ⟨regs_mono hregs fun _ => rootKeys_of_holdKeys, ?_, ?_⟩
  · rw [hdist]
  · rw [hdist]

theorem Reselected.setHold {s t : State} (h : Reselected s t) (x : HoldSt) : Reselected s (t.setHold x) :=
  h.trans ⟨fun _ _ _ => State.get_setHold .., rfl, rfl⟩

theorem Reselected.slewTo {s t : State} (h : Reselected s t) (off : Int) (rate : Nat) : Reselected s (t.slewTo off rate) :=
  h.trans ⟨regs_slewTo _ _ _ _, rfl, rfl⟩

theorem Reselected.setClock {s t : State} (h : Reselected s t) (c : Machine.Clock) : Reselected s (t.setUnit .fd { t.fd with clock := c }) :=
  h.trans ⟨(Regs.refl _ t).setUnit (q := .fd) _ rfl, rfl, rfl⟩

theorem Reselected.enterHoldover {s t : State} (h : Reselected s t) : Reselected s t.enterHoldover := by
  obtain ⟨hregs, hhall, htt⟩ := enterHoldover_spec t
  exact h.trans ⟨regs_mono hregs fun _ => rootKeys_of_holdKeys, hhall, htt⟩

theorem reselected_adopt (x : RefIn) (s : State) : Reselected s (s.adopt x) := by
  refine ⟨regs_mono (regs_adopt x s) fun _ => Or.inr, ?_, ?_⟩ <;> unfold State.adopt <;> dsimp only <;> split <;> cases x <;> rfl

theorem reselected_refuseRef (x : RefIn) (s : State) : Reselected s (s.refuseRef x) := by
  unfold State.refuseRef
  refine Reselected.refEvent (Reselected.trans (t := (s.put .fd Rg.REFS_REF_JUMP_REFUSED 1).put .fd x.refusedF 1) ?_ ⟨regs_setRef _ _ (Regs.refl _ _), ?_, ?_⟩) ..
  · exact ((Reselected.refl s).putStatus 1).putStatus 1 (by cases x <;> decide)
  · cases x <;> rfl
  · cases x <;> rfl

theorem reselected_selectFrom (xs : List RefIn) (s : State) : Reselected s (s.selectFrom xs).2 := by
  induction xs generalizing s with
  | nil => exact Reselected.refl s
  | cons x xs ih =>
    unfold State.selectFrom
    split
    · split
      · exact reselected_adopt x s
      · exact (reselected_refuseRef x s).trans (ih _)
    · exact ih s

/-- A standby's selector turns to the mirror or to holdover (R63, R64). -/
theorem reselected_reselect {s : State} (hrole : s.get .fd Rg.REFS_ROLE = 2) : Reselected s s.reselect := by
  unfold State.reselect
  have hqual := ((Reselected.refl s).putStatus (f := Rg.REFS_PARENT_0_QUAL) (ofBool (s.portQualifies 64))).putStatus (f := Rg.REFS_PARENT_1_QUAL) (ofBool (s.portQualifies 65))
  change Reselected s ((s.putFlag .fd Rg.REFS_PARENT_0_QUAL (s.portQualifies 64)).putFlag .fd Rg.REFS_PARENT_1_QUAL (s.portQualifies 65)) at hqual
  generalize (s.putFlag .fd Rg.REFS_PARENT_0_QUAL (s.portQualifies 64)).putFlag .fd Rg.REFS_PARENT_1_QUAL (s.portQualifies 65) = u at hqual ⊢
  have hstandby : (u.role == 2) = true := by
    have hu : u.role = 2 := (hqual.regs .fd Rg.REFS_ROLE (not_rootKeys not_selectorKeys)).trans hrole
    simp [hu]
  dsimp only
  rw [if_pos hstandby]
  split_ifs
  · exact hqual
  · exact Reselected.refEvent (((((hqual.putStatus 3).putStatus 0).putStatus 0).put (Or.inr (Or.inl rfl)) 1).setHold _) ..
  · exact ((((hqual.putStatus 5).putStatus 5).putStatus 1).put (Or.inr (Or.inl rfl)) 0).setClock _
  · exact hqual

/-! Demotion (R408). -/

/-- A fault event and its alert: the fields of the fault log change, the hall's part does not. -/
theorem faultEvent_spec (cls act obj : Nat) (s : State) :
    Regs faultKeys s ((s.faultLog .fd cls act obj).faultAlert .fd) ∧ ((s.faultLog .fd cls act obj).faultAlert .fd).dist.hall = s.dist.hall := by
  have honly : Only .fd false faultKeys s ((s.faultLog .fd cls act obj).faultAlert .fd) :=
    ((Only.refl .fd false faultKeys s).faultLog (fun _ h => h) cls act obj [] none).faultAlert (Or.inr (Or.inr (Or.inr (Or.inr (Or.inl rfl)))))
  refine ⟨Regs.of_only honly, ?_⟩
  rw [honly.dist]

theorem not_faultKeys {f : Machine.Field} (h : f.key ∉ [Rg.FLT_CLASS.key, Rg.FLT_ACTION.key, Rg.FLT_LAST_HT32.key, Rg.FLT_FAULTS.key, Rg.ALERT_FAULT.key] := by decide)
    (hatt : ¬ attKeys f.key := by exact not_att (by decide) (by decide) (by decide)) : ¬ faultKeys f.key := by
  simp only [List.mem_cons, List.not_mem_nil, or_false, not_or] at h
  unfold faultKeys
  simp only [not_or]
  obtain ⟨hclass, haction, hht, hcount, halert⟩ := h
  exact ⟨hclass, haction, hht, hcount, halert, hatt⟩

/-- The unit in the role of the standby, its mirror not yet built, before its selector acts. -/
def newStandby (s : State) : State :=
  (((s.setRole 2).put .fd Rg.SB_MIRRORED 0).put .fd Rg.SB_MIRROR_SYNC 0).setHall { s.dist.hall with otherPromo := none }

theorem newStandby_reports (s : State) :
    (newStandby s).get .fd Rg.REFS_ROLE = 2 ∧ (newStandby s).get .fd Rg.SB_MIRRORED = 0 ∧ (newStandby s).get .fd Rg.SB_MIRROR_SYNC = 0 := by
  unfold newStandby State.setRole
  refine ⟨?_, ?_, ?_⟩ <;> simp (disch := decide) only [State.get_setHall, State.get_put_ne, State.get_put_same] <;> rfl

/-- The new standby leaves its reference and turns to the mirror or to holdover. -/
theorem exists_demoted_selector (s : State) :
    ∃ u, Reselected (newStandby s) u ∧ s.demote = ((u.put .fd Rg.FSUM_DEMOTED 1).faultLog .fd 0x72 6 0).faultAlert .fd := by
  have hhold : Reselected (newStandby s) (if (newStandby s).get .fd Rg.REFS_SEL_STATE = 3 then newStandby s else (newStandby s).enterHoldover) := by
    split_ifs
    · exact Reselected.refl _
    · exact (Reselected.refl _).enterHoldover
  refine ⟨_, hhold.trans (reselected_reselect ?_), rfl⟩
  rw [hhold.regs _ _ (not_rootKeys not_selectorKeys), (newStandby_reports s).1]

theorem rootDemote_demotes {q : Nat} {s : State} (hroot : s.isActiveRoot = true) (hother : s.dist.hall.otherPromo = some q)
    (hlater : laterThan 8 (q % 256) (s.get .fd Rg.PROM_PROMO_SEQ) = true) :
    Gives .rootDemote s fun t => t.role = 2 ∧ t.get .fd Rg.FSUM_DEMOTED = 1 ∧ t.get .fd Rg.SB_MIRRORED = 0 ∧ t.get .fd Rg.SB_MIRROR_SYNC = 0
      ∧ t.dist.hall = { s.dist.hall with otherPromo := none } := by
  have hrun : execRootDemote s = .next s.demote := by
    cases hgone : s.dist.hall.mirrorGoneNow <;> simp [execRootDemote, hother, hlater, hroot, hgone]
  refine ⟨_, hrun, ?_⟩
  obtain ⟨u, hsel, hdemote⟩ := exists_demoted_selector s
  obtain ⟨hrole, hmirrored, hsync⟩ := newStandby_reports s
  obtain ⟨hregs, hhall⟩ := faultEvent_spec 0x72 6 0 (u.put .fd Rg.FSUM_DEMOTED 1)
  rw [hdemote, State.role, hhall, State.put_dist, hsel.hall]
  refine ⟨?_, ?_, ?_, ?_, rfl⟩
  · rw [hregs _ _ not_faultKeys, State.get_put_ne _ (by decide), hsel.regs _ _ (not_rootKeys not_selectorKeys), hrole]
  · rw [hregs _ _ not_faultKeys, State.get_put_same]
    rfl
  · rw [hregs _ _ not_faultKeys, State.get_put_ne _ (by decide), hsel.regs _ _ (not_rootKeys not_selectorKeys), hmirrored]
  · rw [hregs _ _ not_faultKeys, State.get_put_ne _ (by decide), hsel.regs _ _ (not_rootKeys not_selectorKeys), hsync]

/-! Promotion made (R76, R322, R407, R415, R447). -/

/-- The standby in the role of the active root, with the next PROMO_SEQ, before its selector acts. -/
def newRoot (s : State) : State := (s.put .fd Rg.PROM_PROMO_SEQ (s.get .fd Rg.PROM_PROMO_SEQ + 1)).setRole 1

/-- It keeps its HT, in HOLDOVER, or in FREE_RUN with the time of the model counted from formation. -/
def rootOnOcxo (free : Bool) (s : State) : State :=
  if free then
    ((((((s.put .fd Rg.REFS_SEL_STATE 0).put .fd Rg.REFS_SELECTED 0).put .fd Rg.REFS_LOCK 0).put .fd Rg.HT_HOLDOVER 0).put .fd Rg.HT_FORMED 1).slewTo 0 0)
      |> fun t => t.setHold { t.dist.hold with entryHt := 0 }
  else if s.get .fd Rg.REFS_SEL_STATE = 3 then s else s.enterHoldover

/-- What the mirror shows of changes, slots and jobs taken over. -/
def mirrorTaken (s : State) : State := (s.setHall { s.dist.hall with promoteAt := none }).takeOverChanges.resendDown.promotionRecovery

/-- What follows the selection: the mirror taken over, the promotion reported. -/
def takeOver (s : State) : State := ((((mirrorTaken s).put .fd Rg.FSUM_PROMOTED 1).faultLog .fd 0x71 5 0).faultAlert .fd).promoteRegs

theorem reselected_rootOnOcxo (free : Bool) (s : State) : Reselected s (rootOnOcxo free s) := by
  unfold rootOnOcxo
  split_ifs
  · exact ((((((((Reselected.refl s).putStatus 0).putStatus 0).putStatus 0).put (Or.inr (Or.inl rfl)) 0).put (Or.inl rfl) 1).slewTo 0 0)).setHold _
  · exact Reselected.refl s
  · exact (Reselected.refl s).enterHoldover

theorem exists_promoted_selector (s : State) : ∃ u, Reselected (newRoot s) u ∧ s.promote2 = takeOver u :=
  ⟨_, (reselected_rootOnOcxo s.dist.hold.mirrorFree (newRoot s)).trans (reselected_selectFrom _ _), rfl⟩

/-- With no change mirrored there is none to abort or to send again. -/
theorem takeOverChanges_of_none {s : State} (h : s.dist.mirrorTt.changes = []) :
    s.takeOverChanges = (s.setTt .fd { s.dist.mirrorTt with changes := [] }).ttRegs .fd := by
  unfold State.takeOverChanges
  dsimp only
  rw [h]
  rfl

/-- The fields of FD_PROMOTE_STATUS (R417). -/
def promoteKeys (k : Nat) : Prop := k = Rg.PROM_MIRROR_SILENT.key ∨ k = Rg.PROM_MID_MAJORITY.key ∨ k = Rg.PROM_MIDS_LINKED.key ∨ k = Rg.PROM_MIDS_LOST.key

/-- With no change mirrored, the takeover writes the timetable's status and the jobs' RECOVERY alone. -/
theorem mirrorTaken_spec {s : State} (hchg : s.dist.mirrorTt.changes = []) (hjobs : ∀ e ∈ s.dist.hall.jobs, e.1 < 64) :
    (∀ f : Machine.Field, ¬ ttKeys f.key → (∀ j < 64, f.key ≠ (Rg.RC_RECOVERY_MS j).key) → (mirrorTaken s).get .fd f = s.get .fd f)
      ∧ (mirrorTaken s).dist.hall.promoteAt = none := by
  unfold mirrorTaken
  rw [takeOverChanges_of_none (s := s.setHall { s.dist.hall with promoteAt := none }) hchg]
  generalize hu : (s.setHall { s.dist.hall with promoteAt := none }).setTt .fd { (s.setHall { s.dist.hall with promoteAt := none }).dist.mirrorTt with changes := [] } = u
  have honly := ttRegs_only .fd u
  obtain ⟨hdist, hget⟩ := resendDown_all (u.ttRegs .fd)
  have hhall : (u.ttRegs .fd).resendDown.dist.hall = { s.dist.hall with promoteAt := none } := by
    rw [hdist, honly.dist, ← hu]
    rfl
  obtain ⟨hdone, hregs⟩ := promotionRecovery_all (u.ttRegs .fd).resendDown (by rw [hhall]; exact hjobs)
  refine ⟨fun f htt hrc => ?_, ?_⟩
  · rw [hregs f hrc, hget, honly.get f htt, ← hu, State.get_setTt, State.get_setHall]
  · rw [hdone, hhall]

theorem takeOver_spec {s : State} (hchg : s.dist.mirrorTt.changes = []) (hjobs : ∀ e ∈ s.dist.hall.jobs, e.1 < 64) :
    (∀ f : Machine.Field, ¬ ttKeys f.key → (∀ j < 64, f.key ≠ (Rg.RC_RECOVERY_MS j).key) → f.key ≠ Rg.FSUM_PROMOTED.key → ¬ faultKeys f.key → ¬ promoteKeys f.key →
        (takeOver s).get .fd f = s.get .fd f)
      ∧ (takeOver s).get .fd Rg.FSUM_PROMOTED = 1 ∧ (takeOver s).dist.hall.promoteAt = none := by
  unfold takeOver
  obtain ⟨hget, hdone⟩ := mirrorTaken_spec hchg hjobs
  obtain ⟨hregs, hhall⟩ := faultEvent_spec 0x71 5 0 ((mirrorTaken s).put .fd Rg.FSUM_PROMOTED 1)
  have honly := promoteRegs_only ((((mirrorTaken s).put .fd Rg.FSUM_PROMOTED 1).faultLog .fd 0x71 5 0).faultAlert .fd)
  refine ⟨fun f htt hrc hp hf hk => ?_, ?_, ?_⟩
  · rw [honly.get f hk, hregs _ _ hf, State.get_put_ne _ hp, hget f htt hrc]
  · rw [honly.get _ (by decide), hregs _ _ not_faultKeys, State.get_put_same]
    rfl
  · rw [honly.dist]
    dsimp only
    rw [hhall, State.put_dist, hdone]

theorem key_ne_recovery {f : Machine.Field} (h : f.key < 0xC40C * 32 := by decide) : ∀ j < 64, f.key ≠ (Rg.RC_RECOVERY_MS j).key := fun j _ => by
  simp only [Machine.Field.key, Rg.RC_RECOVERY_MS] at h ⊢
  omega

theorem standbyPromote_promotes {b : Nat} {s : State} (hrole : s.role = 2) (hat : s.dist.hall.promoteAt = some b) (hb : b < s.beat .fd)
    (hchg : s.dist.mirrorTt.changes = []) (hjobs : ∀ e ∈ s.dist.hall.jobs, e.1 < 64) :
    Gives .standbyPromote s fun t => t.role = 1 ∧ t.get .fd Rg.PROM_PROMO_SEQ = (s.get .fd Rg.PROM_PROMO_SEQ + 1) % 256 ∧ t.get .fd Rg.FSUM_PROMOTED = 1
      ∧ t.dist.hall.promoteAt = none := by
  have hnow : s.awaitBeat .fd (b + 1) = s := by
    unfold State.awaitBeat
    refine awaitHt_past ?_
    unfold State.beat at hb
    omega
  have hrun : execStandbyPromote s = .next s.promote2 := by
    simp [execStandbyPromote, hrole, hat, hnow, hb]
  refine ⟨_, hrun, ?_⟩
  obtain ⟨u, hsel, hpromote⟩ := exists_promoted_selector s
  obtain ⟨hget, hpromoted, hdone⟩ := takeOver_spec (s := u) (by rw [hsel.mirrorTt]; exact hchg) (by rw [hsel.hall]; exact hjobs)
  have hkept : ∀ f : Machine.Field, f = Rg.REFS_ROLE ∨ f = Rg.PROM_PROMO_SEQ → s.promote2.get .fd f = (newRoot s).get .fd f := by
    rintro f (rfl | rfl) <;>
      rw [hpromote, hget _ (by unfold ttKeys; decide) key_ne_recovery (by decide) not_faultKeys (by unfold promoteKeys; decide), hsel.regs _ _ (not_rootKeys not_selectorKeys)]
  refine ⟨(hkept _ (Or.inl rfl)).trans ?_, (hkept _ (Or.inr rfl)).trans ?_, hpromote ▸ hpromoted, hpromote ▸ hdone⟩
  · rw [newRoot, State.setRole, State.get_put_ne _ (by decide), State.get_put_same]
    rfl
  · rw [newRoot, State.setRole, State.get_put_ne _ (by decide), State.get_put_ne _ (by decide), State.get_put_same]
    rfl

/-- Settles O29, each clause by the lemma on its command. -/
theorem rootsReportAndChangeRoles : Obligations.RootsReportAndChangeRoles := by
  unfold Obligations.RootsReportAndChangeRoles
  exact ⟨fun _ hrole hbeat hfirst hup0 hup1 => rootStateSend_reports hrole hbeat hfirst hup0 hup1, fun _ _ _ _ _ _ _ hrole => rootState_kept hrole,
    fun _ _ hrole hat hb hchg hjobs => standbyPromote_promotes hrole hat hb hchg hjobs, fun _ _ hroot hother hlater => rootDemote_demotes hroot hother hlater,
    fun _ _ h hp hv hrole hlanes => rootPromote_asks h hp hv hrole hlanes⟩

end Sys2Proof.Proofs

/-! PROOFS. O9: the commands that are writes of one register take effect through it. -/

namespace Sys2Proof.Proofs

open Sys2Proof Sys2Proof.Machine Sys2Proof.Cmds

/-! A word written to one register, and what follows it (R9, R361, R420). -/

/-- What follows a write at either part, beyond its fields. -/
def regWritten (p : Part) (off n v : Nat) (s before : State) : State :=
  match p with
  | .fd => s.fdWritten off n v before
  | .sc => s.scWritten off n v before

/-- The offsets at which no write waits, is locked or keeps a field, and which are no link's, mailbox's or window's. -/
def PlainOff (off : Nat) : Prop := off < 0x2000 ∨ (0x2A00 ≤ off ∧ off < 0x4000) ∨ (0x6808 ≤ off ∧ off < 0x7800)

section
variable {p : Part} {req off v n : Nat} {fs : List Machine.Field} {s : State}

/-- A write to an emulated register, carried out at once: its fields take the word, what follows is done, the shadow is brought up to date. -/
theorem slateWord_emulated (hm : s.mayWrite p req off v = true) (hoff : PlainOff off) (hr : s.regAt p off = some (n, fs)) (hdirect : (fs.any fun f => !f.slate) = false)
    (hemu : emulated fs = true) (hopen : EmuOpen p off s) :
    ∃ sl, s.slateWord p req off v = (regWritten p off n v (s.writeFields p fs v (·.slate)) s).setSlate p sl := by
  unfold PlainOff at hoff
  rw [slateWord_open hm (by omega) (by omega) hr hdirect hemu hopen (by omega), applyWord_off (by omega)]
  simp only [hemu, if_true]
  cases p <;> exact ⟨_, rfl⟩

/-- A write to a register that is not emulated: its fields take the word and what follows is done. -/
theorem slateWord_own (hm : s.mayWrite p req off v = true) (hoff : PlainOff off) (hr : s.regAt p off = some (n, fs)) (hdirect : (fs.any fun f => !f.slate) = true)
    (hemu : emulated fs = false) : s.slateWord p req off v = regWritten p off n v (s.writeFields p fs v (fun f => !f.slate)) s := by
  unfold PlainOff at hoff
  rw [slateWord_direct hm (by omega) (by omega) hr hdirect hemu, applyWord_off (by omega)]
  simp only [hemu, Bool.false_eq_true, if_false]
  cases p <;> rfl

end

/-- A register of one field from bit 0 up takes the word whole. -/
theorem writeFields_low {p : Part} {f : Machine.Field} {v : Nat} {only : Machine.Field → Bool} (s : State) (ha : f.acc = .rw) (ho : only f = true) (h0 : f.lo = 0)
    (hv : v < 2 ^ f.width) (ht : f.takes v = true) : s.writeFields p [f] v only = s.put p f v :=
  writeFields_one ha ho h0 rfl ht (fun i hi hb => by
    have hout := outside_of_reservedBits hi hb f List.mem_cons_self
    unfold Outside at hout
    omega) hv

theorem get_put_low {p : Part} {f : Machine.Field} {v : Nat} (s : State) (hv : v < 2 ^ f.width) : (s.put p f v).get p f = v := by
  rw [State.get_put_same, Nat.mod_eq_of_lt hv]

/-- The channels', strobe slots' and stations' registers in the register map. -/
theorem mapAt_arrays : (∀ n < 32, mapAt .fd (0x101C + 32 * n) = some (n, [Rg.TDC_RDIDX n])) ∧ (∀ k < 8, mapAt .sc (0x2C94 + 16 * k) = some (k, [Rg.STRB_START_HB_LO k]))
    ∧ ∀ n < 256, mapAt .sc (0x3000 + 16 * n) = some (n, [Rg.STN_STROBE_EN n, Rg.STN_DEBT_BOUND n]) := by
  decide +kernel

/-! The read index of a queue's ring (R93). -/

/-- A serial count written k ahead of another, less than half its range, is k later. -/
theorem sdiff_add_of_lt {w a k v : Nat} (hw : 1 ≤ w) (hv : v = (a + k) % 2 ^ w) (hk : k < 2 ^ (w - 1)) : Machine.sdiff w v a = k := by
  have hpow : 2 ^ w = 2 * 2 ^ (w - 1) := (mul_pow_sub_one (by omega) 2).symm
  have hlt : v < 2 ^ w := by
    rw [hv]
    exact Nat.mod_lt _ (Nat.two_pow_pos w)
  have hres : (v + 2 ^ w - a % 2 ^ w) % 2 ^ w = k := by
    have ha := Nat.mod_lt a (Nat.two_pow_pos w)
    have hsum : v = if a % 2 ^ w + k < 2 ^ w then a % 2 ^ w + k else a % 2 ^ w + k - 2 ^ w := by
      rw [hv, ← Nat.mod_add_mod]
      split
      case isTrue h => exact Nat.mod_eq_of_lt h
      case isFalse h => rw [Nat.mod_eq_sub_mod (Nat.le_of_not_lt h), Nat.mod_eq_of_lt (a := a % 2 ^ w + k - 2 ^ w) (by omega)]
    rw [serial_residue (Nat.two_pow_pos w), Nat.mod_eq_of_lt hlt]
    split at hsum <;> split <;> omega
  unfold Machine.sdiff
  rw [hres, toSigned_of_lt hpow rfl (by omega), if_pos hk]

@[simp] theorem tdc_put (p : Part) (f : Machine.Field) (v n : Nat) (s : State) : (s.put p f v).tdc n = s.tdc n := by
  unfold State.tdc
  rw [State.put_dist]

theorem tdc_setSlate (p : Part) (x : SlateSt) (n : Nat) (s : State) : (s.setSlate p x).tdc n = s.tdc n := by
  unfold State.tdc
  rw [State.dist_setSlate]

theorem tdc_setTdc (n : Nat) (c : TdcCh) (s : State) : (s.setTdc n c).tdc n = c := by
  unfold State.tdc
  rw [setTdc_dist, SMap.get_set_same]

theorem tdc_setTdc_ne {n k : Nat} (h : k ≠ n) (c : TdcCh) (s : State) : (s.setTdc n c).tdc k = s.tdc k := by
  unfold State.tdc
  rw [setTdc_dist, SMap.get_set_ne _ h]

/-- An index that lies ahead of the present one, at most at the write index, releases the slots before it (R93). -/
theorem tdc_tdcRelease {n v k : Nat} {s : State} (hv : v = ((s.tdc n).rd + k) % 2 ^ 24) (hk : k < 2 ^ 23) (hwr : (s.tdc n).rd + k ≤ (s.tdc n).wr) :
    (s.tdcRelease n v).tdc n = { s.tdc n with rd := (s.tdc n).rd + k } := by
  unfold State.tdcRelease
  simp only [sdiff_add_of_lt (w := 24) (by decide) hv hk]
  rw [tdc_put, tdc_setTdc, if_neg (by omega), Int.toNat_natCast, min_eq_right hwr]

theorem regAt_rdidx {n : Nat} {s : State} (hn : n < 32) (hvar : s.dist.variant = .vxd2880) : s.regAt .fd (0x101C + 32 * n) = some (n, [Rg.TDC_RDIDX n]) := by
  obtain ⟨hmap, -, -⟩ := mapAt_arrays
  refine regAt_of ?_ (hmap n hn) fun f hf => ?_
  · simp [State.regPresent, hvar]
  · rw [List.mem_singleton.1 hf]
    refine ⟨?_, ?_, ?_, ?_, ?_⟩ <;> exact key_ne_of_off (by simp only [Rg.TDC_RDIDX, Rg.ATT_SPILL_EN, Rg.ATT_SPILL_PAUSED, Rg.ATT_ARCH_LOST_SEEN, Rg.ATT_SPILL_BUF_PCT, Rg.ATT_ARCH_LOST]; omega)

theorem fdWritten_rdidx {n : Nat} (hn : n < 32) (v : Nat) (s before : State) : s.fdWritten (0x101C + 32 * n) n v before = s.tdcRelease n (v % 2 ^ 24) := by
  unfold State.fdWritten
  rw [if_neg (by omega), if_neg (by omega), if_neg (by omega), if_neg (by omega), if_neg (by omega), if_neg (by omega), if_neg (by simp; omega), if_neg (by omega),
    if_neg (by simp), if_pos (by simp; omega)]

/-- TDC_RDIDX_WRITE (R93); an index out of its range is the model's choice (log entry 79). -/
theorem tdcRdidxWrite_releases {req n v : Nat} {s : State} (hn : n < 32) (hv : v < 2 ^ 24) (hvar : s.dist.variant = .vxd2880)
    (hm : s.mayWrite .fd req (0x101C + 32 * n) v = true) (hopen : EmuOpen .fd (0x101C + 32 * n) s) :
    Gives (.tdcRdidxWrite req n v) s fun t => t.get .fd (Rg.TDC_RDIDX n) = v
        ∧ (∀ k, v = ((s.tdc n).rd + k) % 2 ^ 24 → k < 2 ^ 23 → (s.tdc n).rd + k ≤ (s.tdc n).wr → t.tdc n = { s.tdc n with rd := (s.tdc n).rd + k }) := by
  refine ⟨_, rfl, ?_⟩
  obtain ⟨sl, hsl⟩ := slateWord_emulated hm (Or.inl (by omega)) (regAt_rdidx hn hvar) rfl rfl hopen
  rw [Nat.mod_eq_of_lt (by omega : v < 2 ^ 32), hsl, writeFields_low s rfl rfl rfl hv rfl, regWritten, fdWritten_rdidx hn, Nat.mod_eq_of_lt hv]
  refine ⟨?_, fun k hvk hk hwr => ?_⟩
  · rw [State.get_setSlate]
    unfold State.tdcRelease
    exact get_put_low _ hv
  · rw [tdc_setSlate, tdc_tdcRelease (k := k) (by rwa [tdc_put]) hk (by rwa [tdc_put]), tdc_put]

/-! Strobe slots (R164). -/

/-- The sticky flags of the stations for a target dropped. -/
def strobeOvrKeys (k : Nat) : Prop := ∃ n, k = (Rg.STN_STROBE_OVR n).key

theorem regs_setStn {K : Nat → Prop} (n : Nat) (x : Station) (s : State) : Regs K s (s.setStn n x) := fun _ _ _ => State.get_setStn ..

theorem regs_arm (n k ht : Nat) (s : State) : Regs strobeOvrKeys s (s.arm n k ht) := by
  unfold State.arm
  exact .ite (fun _ => .refl _ s) fun _ => .ite (fun _ => (Regs.refl _ s).put ⟨n, rfl⟩ _) fun _ => regs_setStn n _ s

theorem regs_armTimed (n k : Nat) (s : State) : Regs strobeOvrKeys s (s.armTimed n k) := by
  unfold State.armTimed
  exact .ite (fun _ => .refl _ s) fun _ => .ite (fun _ => .ite (fun _ => .refl _ s) fun _ => regs_arm n k _ s) fun _ => regs_arm n k _ s

theorem regs_strobeCfgWritten (k : Nat) (s before : State) : Regs strobeOvrKeys s (s.strobeCfgWritten k before) := by
  unfold State.strobeCfgWritten
  refine .ite (fun _ => .refl _ s) fun _ => .foldl (fun t n => ?_) _ (.refl _ s)
  have hclear : Regs strobeOvrKeys t (t.clearTargets n k) := regs_setStn n _ t
  exact .ite (fun _ => hclear) fun _ => (hclear.trans (regs_setStn n _ _)).trans (regs_armTimed n k _)

theorem regs_strobeEnWritten (n : Nat) (s before : State) : Regs strobeOvrKeys s (s.strobeEnWritten n before) := by
  unfold State.strobeEnWritten
  exact Regs.foldl (fun t k => Regs.ite (fun _ => regs_armTimed n k t) fun _ => Regs.refl _ t) _ (Regs.refl _ s)

theorem regAt_startHb {k : Nat} (hk : k < 8) (s : State) : s.regAt .sc (0x2C94 + 16 * k) = some (k, [Rg.STRB_START_HB_LO k]) := by
  obtain ⟨-, hmap, -⟩ := mapAt_arrays
  have hpres : ∀ k < 8, s.regPresent .sc (0x2C94 + 16 * k) = true := fun k hk => by
    interval_cases k <;> rfl
  refine regAt_of (hpres k hk) (hmap k hk) fun f hf => ?_
  rw [List.mem_singleton.1 hf]
  exact Or.inr (by simp only [Machine.Field.key, Rg.STRB_START_HB_LO]; omega)

/-- STROBE_CFG_WRITE of word 1: START_HB_LO (R164). -/
theorem strobeCfgWrite_sets_start {req k v : Nat} {s : State} (hk : k < 8) (hv : v < 2 ^ 32) (hm : s.mayWrite .sc req (0x2C94 + 16 * k) v = true)
    (hopen : EmuOpen .sc (0x2C94 + 16 * k) s) : Gives (.strobeCfgWrite req k 1 v) s fun t => t.get .sc (Rg.STRB_START_HB_LO k) = v := by
  refine ⟨_, rfl, ?_⟩
  obtain ⟨sl, hsl⟩ := slateWord_emulated hm (Or.inr (Or.inl (by omega))) (regAt_startHb hk s) rfl rfl hopen
  rw [show 0x2C90 + 16 * k + 4 * 1 = 0x2C94 + 16 * k by omega, Nat.mod_eq_of_lt hv, hsl, writeFields_low s rfl rfl rfl hv rfl, State.get_setSlate, regWritten, State.scWritten,
    if_pos (by simp; omega), regs_strobeCfgWritten _ _ _ .sc _ ?_, get_put_low _ hv]
  rintro ⟨n, hn⟩
  simp only [Machine.Field.key, Rg.STRB_START_HB_LO, Rg.STN_STROBE_OVR] at hn
  omega

theorem regAt_stnCtrl {n : Nat} {s : State} (hst : n < s.die.stations) (hn : n < 256) : s.regAt .sc (0x3000 + 16 * n) = some (n, [Rg.STN_STROBE_EN n, Rg.STN_DEBT_BOUND n]) := by
  obtain ⟨-, -, hmap⟩ := mapAt_arrays
  refine regAt_of ?_ (hmap n hn) fun f hf => Or.inr ?_
  · simp [State.regPresent, show ¬ 0x3000 + 16 * n < 0x2A00 by omega, show 0x3000 + 16 * n < 0x4000 by omega, hst]
  · simp only [List.mem_cons, List.not_mem_nil, or_false] at hf
    rcases hf with rfl | rfl <;> (simp only [Machine.Field.key, Rg.STN_STROBE_EN, Rg.STN_DEBT_BOUND]; omega)

/-- The two fields of SC_STN_CTRL from its word (R164, R176). -/
theorem writeFields_stnCtrl {n v : Nat} (hv : v < 2 ^ 24) (hb : 250 ≤ v / 256) (s : State) :
    s.writeFields .sc [Rg.STN_STROBE_EN n, Rg.STN_DEBT_BOUND n] v (·.slate) = (s.put .sc (Rg.STN_STROBE_EN n) (v % 256)).put .sc (Rg.STN_DEBT_BOUND n) (v / 256) := by
  have hen : bits v (Rg.STN_STROBE_EN n).lo (Rg.STN_STROBE_EN n).width = v % 256 := by simp [bits, Rg.STN_STROBE_EN]
  have hbound : bits v (Rg.STN_DEBT_BOUND n).lo (Rg.STN_DEBT_BOUND n).width = v / 256 := by
    simp only [bits, Rg.STN_DEBT_BOUND]
    omega
  have htakes : (Rg.STN_DEBT_BOUND n).takes (v / 256) = true := by
    simp only [Field.takes, Rg.STN_DEBT_BOUND, Bool.and_eq_true, decide_eq_true_eq]
    omega
  rw [writeFields_plain _ s (k := 24) (fun i hi hres => ?_) hv]
  · show (if _ then _ else _ : State) = _
    rw [hbound, if_pos htakes]
    show (State.put _ _ (bits v (Rg.STN_STROBE_EN n).lo (Rg.STN_STROBE_EN n).width) _).put _ _ _ = _
    rw [hen]
  · have hout := outside_of_reservedBits hi hres
    have h1 := hout (Rg.STN_STROBE_EN n) (by simp)
    have h2 := hout (Rg.STN_DEBT_BOUND n) (by simp)
    simp only [Outside, Rg.STN_STROBE_EN, Rg.STN_DEBT_BOUND] at h1 h2
    omega

/-- STROBE_EN_WRITE (R164). -/
theorem strobeEnWrite_sets_ctrl {req n v : Nat} {s : State} (hst : n < s.die.stations) (hn : n < 256) (hv : v < 2 ^ 24) (hb : 250 ≤ v / 256)
    (hm : s.mayWrite .sc req (0x3000 + 16 * n) v = true) (hopen : EmuOpen .sc (0x3000 + 16 * n) s) :
    Gives (.strobeEnWrite req n v) s fun t => t.get .sc (Rg.STN_STROBE_EN n) = v % 256 ∧ t.get .sc (Rg.STN_DEBT_BOUND n) = v / 256 := by
  refine ⟨_, rfl, ?_⟩
  obtain ⟨sl, hsl⟩ := slateWord_emulated hm (Or.inr (Or.inl (by omega))) (regAt_stnCtrl hst hn) rfl rfl hopen
  have hkept : ∀ f : Machine.Field, f.off = 0x3000 + 16 * n → f.lo < 32 → ¬ strobeOvrKeys f.key := fun f ho hl ⟨m, hkey⟩ => by
    simp only [Machine.Field.key, Rg.STN_STROBE_OVR, ho] at hkey
    omega
  rw [Nat.mod_eq_of_lt (by omega : v < 2 ^ 32), hsl, writeFields_stnCtrl hv hb, regWritten, State.scWritten, if_neg (by simp; omega), if_pos (by simp; omega)]
  simp only [State.get_setSlate]
  rw [regs_strobeEnWritten _ _ _ .sc _ (hkept (Rg.STN_STROBE_EN n) rfl (by simp [Rg.STN_STROBE_EN])), regs_strobeEnWritten _ _ _ .sc _ (hkept (Rg.STN_DEBT_BOUND n) rfl (by simp [Rg.STN_DEBT_BOUND])),
    State.get_put_ne _ key_ne_of_lo]
  exact ⟨get_put_low _ (Nat.mod_lt _ (by decide)), get_put_low _ (Nat.div_lt_of_lt_mul hv)⟩

/-! The payload table's base (R280). -/

theorem bit_eq_false_of_bits {v lo w i : Nat} (h : bits v lo w = 0) (hlo : lo ≤ i) (hhi : i < lo + w) : bit v i = false := by
  have hbit : (bits v lo w).testBit (i - lo) = v.testBit i := by
    unfold bits
    rw [Nat.testBit_mod_two_pow, Nat.testBit_div_two_pow, Nat.sub_add_cancel hlo, decide_eq_true (by omega), Bool.true_and]
  rw [bit_testBit, ← hbit, h, Nat.zero_testBit]

theorem regAt_pdBase {s : State} (hpay : s.die.payload = true) : s.regAt .sc 0x6800 = some (0, [Rg.PD_BASE_LO, Rg.PD_PD_EN]) := by
  refine regAt_of ?_ rfl fun f hf => Or.inr ?_
  · simp [State.regPresent, hpay]
  · simp only [List.mem_cons, List.not_mem_nil, or_false] at hf
    rcases hf with rfl | rfl <;> decide

/-- The two fields of SC_PD_BASE_LO from a word whose reserved bits are zero (R280). -/
theorem writeFields_pdBase {v : Nat} (hv : v < 2 ^ 32) (hres : bits v 1 11 = 0) (s : State) :
    s.writeFields .sc [Rg.PD_BASE_LO, Rg.PD_PD_EN] v (fun f => !f.slate) = (s.put .sc Rg.PD_BASE_LO (v / 4096)).put .sc Rg.PD_PD_EN (v % 2) := by
  have hmask : maskOf 32 (fun i => bit v i && bit (reservedBits [Rg.PD_BASE_LO, Rg.PD_PD_EN]) i) = 0 := by
    refine (maskOf_zero _ _).2 fun i hi => ?_
    by_cases hb : bit (reservedBits [Rg.PD_BASE_LO, Rg.PD_PD_EN]) i = true
    · have hout := outside_of_reservedBits hi hb
      have h1 := hout Rg.PD_BASE_LO (by simp)
      have h2 := hout Rg.PD_PD_EN (by simp)
      simp only [Outside, Rg.PD_BASE_LO, Rg.PD_PD_EN] at h1 h2
      rw [bit_eq_false_of_bits hres (by omega) (by omega), Bool.false_and]
    · rw [Bool.eq_false_of_not_eq_true hb, Bool.and_false]
  have hbase : bits v Rg.PD_BASE_LO.lo Rg.PD_BASE_LO.width = v / 4096 := by
    simp only [bits, Rg.PD_BASE_LO]
    omega
  have hen : bits v Rg.PD_PD_EN.lo Rg.PD_PD_EN.width = v % 2 := by simp [bits, Rg.PD_PD_EN]
  rw [writeFields_eq, hmask, ← hbase, ← hen]
  rfl

/-- While no descriptor is in flight the base is written like any register (R280). -/
theorem applyWord_pdBase {n v : Nat} {fs : List Machine.Field} {only : Machine.Field → Bool} {s : State} (hfly : s.get .sc Rg.SPAY_IN_FLIGHT = 0) (hemu : emulated fs = false) :
    s.applyWord .sc 0x6800 n fs v only = s.writeFields .sc fs v only := by
  have heff : s.effective .sc 0x6800 n v = v := by simp [State.effective, hfly]
  simp [State.applyWord, State.locked, heff, hemu, State.scWritten]

/-- PD_BASE_WRITE of the low word (R280). -/
theorem pdBaseWrite_sets_base {req v : Nat} {s : State} (hv : v < 2 ^ 32) (hres : bits v 1 11 = 0) (hpay : s.die.payload = true) (hfly : s.get .sc Rg.SPAY_IN_FLIGHT = 0)
    (hm : s.mayWrite .sc req 0x6800 v = true) :
    Gives (.pdBaseWrite req false v) s fun t => t.get .sc Rg.PD_BASE_LO = v / 4096 ∧ t.get .sc Rg.PD_PD_EN = v % 2 ∧ t.fd = s.fd ∧ t.dist = s.dist ∧ t.die = s.die := by
  have hword : exec (.pdBaseWrite req false v) s = .next ((s.put .sc Rg.PD_BASE_LO (v / 4096)).put .sc Rg.PD_PD_EN (v % 2)) := by
    show Host.Outcome.next (s.slateWord .sc req 0x6800 (v % 2 ^ 32)) = _
    rw [Nat.mod_eq_of_lt hv, slateWord_direct hm (by decide) (by simp) (regAt_pdBase hpay) rfl rfl, applyWord_pdBase hfly rfl, writeFields_pdBase hv hres]
  refine ⟨_, hword, ?_, get_put_low _ (Nat.mod_lt _ (by decide)), rfl, rfl, rfl⟩
  rw [State.get_put_ne _ key_ne_of_lo, get_put_low _ (Nat.div_lt_of_lt_mul hv)]

/-! The checker's values (R278, R279). -/

section
variable {req v : Nat} {s : State}

theorem regAt_checker (hchk : s.die.checker = true) : s.regAt .sc 0x6908 = some (0, [Rg.CHK_VALUE_LO]) ∧ s.regAt .sc 0x690C = some (0, [Rg.CHK_VALUE_HI])
    ∧ s.regAt .sc 0x6914 = some (0, [Rg.CHK_EXPECT_HI]) := by
  refine ⟨regAt_of ?_ rfl fun f hf => Or.inr ?_, regAt_of ?_ rfl fun f hf => Or.inr ?_, regAt_of ?_ rfl fun f hf => Or.inr ?_⟩
  case refine_1 | refine_3 | refine_5 => simp [State.regPresent, hchk]
  case refine_2 | refine_4 | refine_6 =>
    rw [List.mem_singleton.1 hf]
    decide

/-- Nothing is compared before the final value is valid (R278). -/
theorem chkCompare_of_not_final (h : s.get .sc Rg.CHK_FINAL_VALID = 0) : s.chkCompare = s := by
  unfold State.chkCompare
  rw [flag0 h, Bool.and_false]
  rfl

theorem chkExpect_of_not_final (v : Nat) (h : s.get .sc Rg.CHK_FINAL_VALID = 0) :
    s.chkExpect v = ((s.put .sc Rg.CHK_EXPECT_LO v).put .sc Rg.CHK_EXPECT_HI (v / 2 ^ 32)).put .sc Rg.CHK_EXP_VALID 1 :=
  chkCompare_of_not_final (by rw [State.get_put_ne _ (by decide), State.get_put_ne _ (by decide), State.get_put_ne _ (by decide), h])

/-- CHK_EXPECT_WRITE: the expected value becomes valid (R278). -/
theorem chkExpectWrite_sets_expected (hv : v < 2 ^ 29) (hchk : s.die.checker = true) (hfin : s.get .sc Rg.CHK_FINAL_VALID = 0) (hm : s.mayWrite .sc req 0x6914 v = true)
    (hlo : s.get .sc Rg.CHK_EXPECT_LO < 2 ^ 32) :
    Gives (.chkExpectWrite req v) s fun t => t.get .sc Rg.CHK_EXPECT_HI = v ∧ t.get .sc Rg.CHK_EXPECT_LO = s.get .sc Rg.CHK_EXPECT_LO ∧ t.get .sc Rg.CHK_EXP_VALID = 1 := by
  refine ⟨_, rfl, ?_⟩
  have hwritten : ∀ t : State, regWritten .sc 0x6914 0 v t s = t.chkExpect (t.get .sc Rg.CHK_EXPECT_LO + 2 ^ 32 * v) := fun _ => rfl
  rw [Nat.mod_eq_of_lt (by omega : v < 2 ^ 32), slateWord_own hm (Or.inr (Or.inr (by omega))) (regAt_checker hchk).2.2 rfl rfl, writeFields_low s rfl rfl rfl hv rfl, hwritten,
    State.get_put_ne _ (by decide), chkExpect_of_not_final _ ((State.get_put_ne _ (by decide) ..).trans hfin),
    show (s.get .sc Rg.CHK_EXPECT_LO + 2 ^ 32 * v) / 2 ^ 32 = v by omega]
  refine ⟨?_, ?_, get_put_low _ (by decide)⟩
  · rw [State.get_put_ne _ (by decide), get_put_low _ hv]
  · rw [State.get_put_ne _ (by decide), State.get_put_ne _ (by decide), State.get_put_same]
    show (s.get .sc Rg.CHK_EXPECT_LO + 2 ^ 32 * v) % 2 ^ 32 = _
    omega

/-- CHK_VALUE_READ: the low word answers, the whole value is latched for the high word (R279). -/
theorem chkValueRead_latches (req : Nat) (hchk : s.die.checker = true) :
    Gives (.chkValueRead req) s fun t => t.sc.slate.reply = { req := req, off := 0x6908, value := s.die.pay.chk % 2 ^ 32, stale := false }
      ∧ t.die.pay = { s.die.pay with chkLatch := s.die.pay.chk } := by
  refine ⟨_, rfl, ?_⟩
  have hread : s.readWord .sc req 0x6908 = (s.die.pay.chk % 2 ^ 32, s.setPay { s.die.pay with chkLatch := s.die.pay.chk }) := by
    simp [State.readWord, (regAt_checker hchk).1, State.readsZero]
  rw [hread]
  unfold State.replyTo
  exact ⟨congrArg SlateSt.reply (State.setSlate_self .sc _ _), by rw [State.die_setSlate, setPay_die]⟩

/-- CHK_VALUE_WRITE of the high word loads the running value (R279). -/
theorem chkValueWrite_loads (hv : v < 2 ^ 29) (hchk : s.die.checker = true) (hfin : s.get .sc Rg.CHK_FINAL_VALID = 0) (hm : s.mayWrite .sc req 0x690C v = true) :
    Gives (.chkValueWrite req v) s fun t => t.die.pay = { s.die.pay with chk := (s.get .sc Rg.CHK_VALUE_LO + 2 ^ 32 * v) % resMod } ∧ t.get .sc Rg.CHK_VALUE_HI = v := by
  refine ⟨_, rfl, ?_⟩
  have hwritten : ∀ t : State, regWritten .sc 0x690C 0 v t s = t.chkLoad v := fun _ => rfl
  have hflag : (s.put .sc Rg.CHK_VALUE_HI v).flag .sc Rg.CHK_FINAL_VALID = false := flag0 ((State.get_put_ne _ (by decide) ..).trans hfin)
  rw [Nat.mod_eq_of_lt (by omega : v < 2 ^ 32), slateWord_own hm (Or.inr (Or.inr (by omega))) (regAt_checker hchk).2.1 rfl rfl, writeFields_low s rfl rfl rfl hv rfl, hwritten,
    State.chkLoad, hflag, if_neg Bool.false_ne_true, Nat.mod_eq_of_lt hv, State.get_put_ne _ (by decide)]
  exact ⟨by rw [setPay_die, State.put_die], (setPay_regs _ _ .sc _ (by decide)).trans (get_put_low _ hv)⟩

end

/-! The attendance window (R305). -/

theorem regAt_attWinSel (s : State) : s.regAt .fd 0x7038 = some (0, [Rg.ATT_WIN_SEQ]) := by
  refine regAt_of ?_ rfl fun f hf => ?_
  · simp [State.regPresent]
  · rw [List.mem_singleton.1 hf]
    refine ⟨?_, ?_, ?_, ?_, ?_⟩ <;> decide

/-- What a selection leaves until the block has been read (R305). -/
theorem winSelect_spec {v : Nat} (hv : v < 2 ^ 32) (s : State) :
    (s.winSelect v).get .fd Rg.ATT_WIN_SEQ = v ∧ (s.winSelect v).get .fd Rg.ATT_WIN_BUSY = 1 ∧ (s.winSelect v).get .fd Rg.ATT_WIN_VALID = 0
      ∧ (s.winSelect v).get .fd Rg.ATT_WIN_GONE = 0 ∧ (s.winSelect v).dist.arch.window = none := by
  unfold State.winSelect
  simp only [State.get_setArch]
  refine ⟨?_, ?_, ?_, get_put_low _ (by decide), rfl⟩
  · rw [State.get_put_ne _ (by decide), State.get_put_ne _ (by decide), State.get_put_ne _ (by decide), State.get_put_ne _ (by decide), get_put_low _ hv]
  · rw [State.get_put_ne _ (by decide), State.get_put_ne _ (by decide), State.get_put_ne _ (by decide), get_put_low _ (by decide)]
  · rw [State.get_put_ne _ (by decide), State.get_put_ne _ (by decide), get_put_low _ (by decide)]

/-- ATT_WIN_SELECT (R305). -/
theorem attWinSelect_selects {req v : Nat} {s : State} (hv : v < 2 ^ 32) (hm : s.mayWrite .fd req 0x7038 v = true) (hopen : EmuOpen .fd 0x7038 s) :
    Gives (.attWinSelect req v) s fun t => t.get .fd Rg.ATT_WIN_SEQ = v ∧ t.get .fd Rg.ATT_WIN_BUSY = 1 ∧ t.get .fd Rg.ATT_WIN_VALID = 0 ∧ t.get .fd Rg.ATT_WIN_GONE = 0
        ∧ t.dist.arch.window = none := by
  refine ⟨_, rfl, ?_⟩
  obtain ⟨sl, hsl⟩ := slateWord_emulated hm (Or.inr (Or.inr (by omega))) (regAt_attWinSel s) rfl rfl hopen
  have hwritten : ∀ t : State, regWritten .fd 0x7038 0 v t s = t.winSelect v := fun _ => rfl
  rw [Nat.mod_eq_of_lt hv, hsl, writeFields_low s rfl rfl rfl hv rfl, hwritten]
  simp only [State.get_setSlate, State.dist_setSlate]
  exact winSelect_spec hv _

/-- Settles O9, each clause by the lemma on its command. -/
theorem registerCommands : Obligations.RegisterCommands := by
  unfold Obligations.RegisterCommands
  exact ⟨fun _ _ _ _ hn hv hvar hm hopen => tdcRdidxWrite_releases hn hv hvar hm hopen, fun _ _ _ _ hk hv hm hopen => strobeCfgWrite_sets_start hk hv hm hopen,
    fun _ _ _ _ hst hn hv hb hm hopen => strobeEnWrite_sets_ctrl hst hn hv hb hm hopen, fun _ _ _ hv hres hpay hfly hm => pdBaseWrite_sets_base hv hres hpay hfly hm,
    fun _ _ _ hv hchk hfin hm hlo => chkExpectWrite_sets_expected hv hchk hfin hm hlo, fun req _ hchk => chkValueRead_latches req hchk,
    fun _ _ _ hv hchk hfin hm => chkValueWrite_loads hv hchk hfin hm, fun _ _ _ hv hm hopen => attWinSelect_selects hv hm hopen⟩

end Sys2Proof.Proofs

/-! PROOFS. O8: stamps, queues, rings, calibration and the mains inputs. -/

namespace Sys2Proof.Proofs

open Sys2Proof Sys2Proof.Machine Sys2Proof.Cmds

/-! A channel and its pair replaced: what else changes is in FD_TDC_STAT, 0x1010 + 32 n (R108). -/

/-- The fields of a channel's FD_TDC_STAT. -/
def tdcStatKeys (n k : Nat) : Prop := k / 32 = 0x1010 + 32 * n

theorem tdcStatKeys_of_off {n : Nat} {f : Machine.Field} (ho : f.off = 0x1010 + 32 * n := by rfl) (hl : decide (f.lo < 32) = true := by rfl) : tdcStatKeys n f.key := by
  simp only [decide_eq_true_eq] at hl
  unfold tdcStatKeys Machine.Field.key
  omega

theorem not_tdcStatKeys {n : Nat} {f : Machine.Field} (ho : f.off ≠ 0x1010 + 32 * n) (hl : decide (f.lo < 32) = true := by rfl) : ¬ tdcStatKeys n f.key := by
  simp only [decide_eq_true_eq] at hl
  unfold tdcStatKeys Machine.Field.key
  omega

theorem get_setTdc_level (n : Nat) (c : TdcCh) (s : State) : (s.setTdc n c).get .fd (Rg.TDC_QUEUE_LEVEL n) = c.queue.length % 2 ^ 13 := State.get_put_same ..

theorem get_setTdc_ne {n : Nat} {f : Machine.Field} (h : f.key ≠ (Rg.TDC_QUEUE_LEVEL n).key) (c : TdcCh) (s : State) : (s.setTdc n c).get .fd f = s.get .fd f := by
  unfold State.setTdc
  rw [State.get_put_ne _ h, State.get_setDist]

theorem regs_setTdc (n : Nat) (c : TdcCh) (s : State) : Regs (tdcStatKeys n) s (s.setTdc n c) := by
  unfold State.setTdc
  exact Regs.put (fun _ _ _ => State.get_setDist ..) tdcStatKeys_of_off _

theorem regs_setPair_channel (n : Nat) (q : TdcPair) (s : State) : Regs (tdcStatKeys n) s (s.setPair (.channel n) q) := by
  have hdist : ∀ d, Regs (tdcStatKeys n) s (s.setDist d) := fun _ _ _ _ => State.get_setDist ..
  unfold State.setPair
  exact (((Regs.ite (fun _ => (hdist _).put tdcStatKeys_of_off _) fun _ => hdist _).put tdcStatKeys_of_off _ |>.putFlag tdcStatKeys_of_off _).putFlag tdcStatKeys_of_off _).putFlag
    tdcStatKeys_of_off _

/-- The channels after a channel's pair is replaced: a swap falls in the channel's gate (R99). -/
theorem dist_setPair_channel (n : Nat) (q : TdcPair) (s : State) : (s.setPair (.channel n) q).dist =
    { s.dist with tdc := SMap.set n { s.tdc n with pair := q, swapIn := (s.tdc n).swapIn || (s.tdc n).pair.active != q.active } s.dist.tdc } := by
  unfold State.setPair State.putFlag
  simp only [State.put_dist]
  split
  · rw [State.put_dist]
    rfl
  · rfl

theorem tdc_setPair (n : Nat) (q : TdcPair) (s : State) :
    (s.setPair (.channel n) q).tdc n = { s.tdc n with pair := q, swapIn := (s.tdc n).swapIn || (s.tdc n).pair.active != q.active } := by
  unfold State.tdc
  rw [dist_setPair_channel, SMap.get_set_same]
  rfl

theorem tdc_setPair_ne {n k : Nat} (h : k ≠ n) (q : TdcPair) (s : State) : (s.setPair (.channel n) q).tdc k = s.tdc k := by
  unfold State.tdc
  rw [dist_setPair_channel, SMap.get_set_ne _ h]

theorem tdc_setPair_self (n : Nat) (s : State) : (s.setPair (.channel n) (s.tdc n).pair).tdc n = s.tdc n := by
  rw [tdc_setPair, bne_self_eq_false, Bool.or_false]

/-- What FD_TDC_STAT shows of a channel's pair (R108). -/
theorem setPair_channel_stat (n : Nat) (q : TdcPair) (s : State) :
    (s.setPair (.channel n) q).get .fd (Rg.TDC_ACTIVE_TDC n) = q.active % 2 ∧ (s.setPair (.channel n) q).get .fd (Rg.TDC_CAL_RUNNING n) = ofBool (q.cal != .idle)
      ∧ (s.setPair (.channel n) q).get .fd (Rg.TDC_CAL_PENDING n) = ofBool q.queued := by
  unfold State.setPair
  refine ⟨?_, ?_, ?_⟩ <;> simp only [get_putFlag_ne _ (key_ne_of_lo (f := Rg.TDC_ACTIVE_TDC n) (g := Rg.TDC_TWIN_FAULT n)),
    get_putFlag_ne _ (key_ne_of_lo (f := Rg.TDC_ACTIVE_TDC n) (g := Rg.TDC_CAL_PENDING n)), get_putFlag_ne _ (key_ne_of_lo (f := Rg.TDC_ACTIVE_TDC n) (g := Rg.TDC_CAL_RUNNING n)),
    get_putFlag_ne _ (key_ne_of_lo (f := Rg.TDC_CAL_RUNNING n) (g := Rg.TDC_TWIN_FAULT n)), get_putFlag_ne _ (key_ne_of_lo (f := Rg.TDC_CAL_RUNNING n) (g := Rg.TDC_CAL_PENDING n)),
    get_putFlag_ne _ (key_ne_of_lo (f := Rg.TDC_CAL_PENDING n) (g := Rg.TDC_TWIN_FAULT n))]
  · exact State.get_put_same ..
  · exact get_putFlag_same ..
  · exact get_putFlag_same ..

theorem pair_setPair (a : TdcAt) (q : TdcPair) (s : State) : (s.setPair a q).pair a = q := by
  cases a with
  | channel n => exact congrArg TdcCh.pair (tdc_setPair n q s)
  | timing p => exact congrArg Common.timing (State.unit_setUnit ..)
  | lane p n => exact congrArg Machine.Link.tdc (link_modLink ..)

/-- A pair that has not failed again is stored and nothing is logged (R100). -/
theorem pairNow_of_no_failure {a : TdcAt} {q : TdcPair} {s : State} (h : q.fails ≤ (s.pair a).fails) : s.pairNow a q = s.setPair a q := if_pos h

/-! An edge stamped into the queue, or missed (R88, R89, R92, R99). -/

section
variable {n src coarse bin st : Nat} {s : State}

/-- A rising edge on the source of an enabled channel that takes rising edges: within the dead time or with the front buffer full it is missed, else the pair takes it and it is stamped. -/
theorem execTdcEdge_rising (hdev : s.has2880 = true) (hn : n < 32) (hen : s.get .fd (Rg.TDC_ENABLE n) = 1) (hsrc : s.get .fd (Rg.TDC_SOURCE n) = src)
    (hsel : s.get .fd (Rg.TDC_EDGE_SEL n) = 0) (hst : st = (s.tdc n).pair.stamp coarse bin (s.trim .fd (trimTdc n))) :
    exec (.tdcEdge n src coarse true bin none) s = .next (if (s.tdc n).dead st || (s.tdc n).frontFull st then
        (s.tdcLost n 1 (st / nsLsb)).setTdc n { ((s.tdcLost n 1 (st / nsLsb)).tdc n) with seq := ((s.tdc n).seq + 1) % 2 ^ 24 }
      else s.tdcStamp n true (((s.tdc n).pair.edge s.now none).stamp coarse bin (s.trim .fd (trimTdc n))) bin ((s.tdc n).pair.edge s.now none)) := by
  subst hst
  show execTdcEdge n src coarse true bin none s = _
  unfold execTdcEdge
  rw [if_neg (by simp [hdev, hn, flag1 hen, hsrc, hsel, Machine.edgeTaken])]

theorem tdcCatchUp_of_not_gating (h : s.tdcGating n = false) (ns : Nat) : s.tdcCatchUp n ns = s := by
  unfold State.tdcCatchUp
  rw [h]
  rfl

theorem not_tdcGating (h : s.get .fd (Rg.TDC_REGRESS_EN n) = 0) : s.tdcGating n = false := by
  unfold State.tdcGating
  rw [flag0 h, Bool.and_false]

theorem tdcSwapRec_of_none_owed (h : (s.tdc n).pair.owed = none) : s.tdcSwapRec n st = s := by
  unfold State.tdcSwapRec
  simp only [h]

/-- A stamp enters an empty queue behind which nothing waits (R92). -/
theorem tdcEnqueue_empty (hmode : s.get .fd (Rg.TDC_Q_MODE n) = 1) (hpend : (s.tdc n).pend = []) (hqueue : (s.tdc n).queue = []) (code edge : Nat) :
    s.tdcEnqueue n st code edge = s.setTdc n { s.tdc n with queue := [stampWord (st / nsLsb) st code n 0 edge (s.stampFlags n) (s.tdc n).seq] } := by
  simp [State.tdcEnqueue, hmode, hpend, hqueue, flushPend]

/-- An edge stamped on a channel in queue mode without gates, its queue empty and no SWAP record owed (R92, R99). -/
theorem tdcStamp_queues (hreg : s.get .fd (Rg.TDC_REGRESS_EN n) = 0) (hmode : s.get .fd (Rg.TDC_Q_MODE n) = 1) (hpend : (s.tdc n).pend = []) (hqueue : (s.tdc n).queue = [])
    (howed : (s.tdc n).pair.owed = none) (hbusy : (s.tdc n).busyUntil ≤ st) :
    (s.tdcStamp n true st bin (s.tdc n).pair).get .fd (Rg.TDC_QUEUE_LEVEL n) = 1
      ∧ (s.tdcStamp n true st bin (s.tdc n).pair).tdc n = { s.tdc n with
        queue := [stampWord (st / nsLsb) st bin n 0 1 (s.get .fd Rg.HT_JOINED + 2 * s.get .fd Rg.HT_UNALIGNED + 4 * ((s.tdc n).pair.active % 2)) (s.tdc n).seq],
        seq := ((s.tdc n).seq + 1) % 2 ^ 24, lastStamp := some st, busyUntil := st + 20 * nsLsb } := by
  obtain ⟨u, hu⟩ : ∃ u, s.setPair (.channel n) (s.tdc n).pair = u := ⟨_, rfl⟩
  have huc : u.tdc n = s.tdc n := by rw [← hu, tdc_setPair_self]
  have hget : ∀ f : Machine.Field, f.off ≠ 0x1010 + 32 * n → decide (f.lo < 32) = true → u.get .fd f = s.get .fd f := fun f ho hl => by
    rw [← hu]
    exact regs_setPair_channel n _ s .fd f (not_tdcStatKeys ho hl)
  have hflags : u.stampFlags n = s.get .fd Rg.HT_JOINED + 2 * s.get .fd Rg.HT_UNALIGNED + 4 * ((s.tdc n).pair.active % 2) := by
    unfold State.stampFlags
    rw [hget Rg.HT_JOINED (by simp only [Rg.HT_JOINED]; omega) rfl, hget Rg.HT_UNALIGNED (by simp only [Rg.HT_UNALIGNED]; omega) rfl, ← hu, (setPair_channel_stat ..).1]
  have hureg : ∀ c, (u.setTdc n c).tdcGating n = false := fun c => not_tdcGating (by
    rw [get_setTdc_ne (key_ne_of_off (by simp only [Rg.TDC_REGRESS_EN, Rg.TDC_QUEUE_LEVEL]; omega)), hget _ (by simp only [Rg.TDC_REGRESS_EN]; omega) rfl, hreg])
  have humode : u.get .fd (Rg.TDC_Q_MODE n) = 1 := (hget _ (by simp only [Rg.TDC_Q_MODE]; omega) rfl).trans hmode
  unfold State.tdcStamp
  rw [tdcCatchUp_of_not_gating (not_tdcGating hreg), pairNow_of_no_failure (a := .channel n) (q := (s.tdc n).pair) (s := s) (Nat.le_refl _), hu, tdcSwapRec_of_none_owed (by rw [huc, howed])]
  dsimp only
  rw [tdcEnqueue_empty humode (by rw [huc, hpend]) (by rw [huc, hqueue]), huc, hflags]
  have hrun : ∀ f : Fit, (decide (f.exclRun = 7) && decide (f.exclRun = 0) && decide (f.n = 1)) = false := fun f => by
    by_cases h : f.exclRun = 7 <;> simp [h]
  simp only [hureg, tdc_setTdc, hrun, Bool.false_eq_true, if_false, max_eq_right hbusy]
  exact ⟨get_setTdc_level .., rfl⟩

/-- TDC_EDGE in queue mode (R88, R91, R92). -/
theorem tdcEdge_queues (hdev : s.has2880 = true) (hn : n < 32) (hen : s.get .fd (Rg.TDC_ENABLE n) = 1) (hsrc : s.get .fd (Rg.TDC_SOURCE n) = src)
    (hsel : s.get .fd (Rg.TDC_EDGE_SEL n) = 0) (hreg : s.get .fd (Rg.TDC_REGRESS_EN n) = 0) (hmode : s.get .fd (Rg.TDC_Q_MODE n) = 1) (hlast : (s.tdc n).lastStamp = none)
    (hpend : (s.tdc n).pend = []) (hqueue : (s.tdc n).queue = []) (hidle : (s.tdc n).pair.cal = .idle) (howed : (s.tdc n).pair.owed = none)
    (hst : st = (s.tdc n).pair.stamp coarse bin (s.trim .fd (trimTdc n))) (hbusy : (s.tdc n).busyUntil ≤ st) :
    Gives (.tdcEdge n src coarse true bin none) s fun t => t.get .fd (Rg.TDC_QUEUE_LEVEL n) = 1
        ∧ t.tdc n = { s.tdc n with queue := [stampWord (st / nsLsb) st bin n 0 1 (s.get .fd Rg.HT_JOINED + 2 * s.get .fd Rg.HT_UNALIGNED + 4 * ((s.tdc n).pair.active % 2)) (s.tdc n).seq], seq := ((s.tdc n).seq + 1) % 2 ^ 24, lastStamp := some st, busyUntil := st + 20 * nsLsb } := by
  have hdead : (s.tdc n).dead st = false := by simp [TdcCh.dead, hlast]
  have hfront : (s.tdc n).frontFull st = false := decide_eq_false (by omega)
  refine ⟨_, execTdcEdge_rising hdev hn hen hsrc hsel hst, ?_⟩
  rw [hdead, hfront, edge_of_idle hidle, ← hst]
  exact tdcStamp_queues hreg hmode hpend hqueue howed hbusy

/-- TDC_EDGE within the dead time (R89). -/
theorem tdcEdge_misses {t0 : Nat} (hdev : s.has2880 = true) (hn : n < 32) (hen : s.get .fd (Rg.TDC_ENABLE n) = 1) (hsrc : s.get .fd (Rg.TDC_SOURCE n) = src)
    (hsel : s.get .fd (Rg.TDC_EDGE_SEL n) = 0) (hmode : s.get .fd (Rg.TDC_Q_MODE n) = 0) (hlast : (s.tdc n).lastStamp = some t0)
    (hst : st = (s.tdc n).pair.stamp coarse bin (s.trim .fd (trimTdc n))) (hle : t0 ≤ st) (hdead : 10 * (st - t0) < 24 * nsLsb) :
    Gives (.tdcEdge n src coarse true bin none) s fun t => t.get .fd (Rg.TDC_MISS_CNT n) = sat 32 (s.get .fd (Rg.TDC_MISS_CNT n) + 1) ∧ t.get .fd (Rg.TDC_MISS n) = 1
        ∧ t.tdc n = { s.tdc n with seq := ((s.tdc n).seq + 1) % 2 ^ 24 } := by
  have hmiss : (s.tdc n).dead st = true := by simp [TdcCh.dead, hlast, hle, hdead]
  have hlost : s.tdcLost n 1 (st / nsLsb) = (s.bump .fd (Rg.TDC_MISS_CNT n)).put .fd (Rg.TDC_MISS n) 1 := by simp [State.tdcLost, hmode]
  have hcnt : (Rg.TDC_MISS_CNT n).off ≠ 0x1010 + 32 * n := by simp only [Rg.TDC_MISS_CNT]; omega
  refine ⟨_, execTdcEdge_rising hdev hn hen hsrc hsel hst, ?_⟩
  rw [hmiss, hlost, Bool.true_or, if_pos rfl]
  refine ⟨?_, ?_, ?_⟩
  · rw [get_setTdc_ne (key_ne_of_off hcnt), State.get_put_ne _ (key_ne_of_off hcnt), get_bump]
    rfl
  · rw [get_setTdc_ne key_ne_of_lo, get_put_low _ (by decide : 1 < 2 ^ 1)]
  · rw [tdc_setTdc, tdc_put, State.bump, tdc_put]

/-- TDC_GAP_QUEUE: a waiting record enters the queue while it has a slot for it (R92). -/
theorem tdcGapQueue_queues {r : PendRec} (hn : n < 32) (hpend : (s.tdc n).pend = [r]) (hroom : (s.tdc n).queue.length < (if r.raw.isSome then 4095 else 4096)) :
    Gives (.tdcGapQueue n) s fun t => t.tdc n = { s.tdc n with pend := [], queue := (s.tdc n).queue ++ [r.word n] } ∧ (∀ k, k ≠ n → t.tdc k = s.tdc k)
        ∧ t.get .fd (Rg.TDC_QUEUE_LEVEL n) = (s.tdc n).queue.length + 1 := by
  have hflush : flushPend n (s.tdc n).pend (s.tdc n).queue = ([], (s.tdc n).queue ++ [r.word n]) := by rw [hpend, flushPend, if_pos hroom, flushPend]
  have hlen : (s.tdc n).queue.length < 4096 := by
    split at hroom <;> omega
  refine ⟨_, congrArg Host.Outcome.next (if_pos (by simp [hn, hpend])), ?_⟩
  rw [hflush]
  refine ⟨tdc_setTdc .., fun k hk => tdc_setTdc_ne hk .., ?_⟩
  rw [get_setTdc_level, List.length_append, List.length_singleton, Nat.mod_eq_of_lt (by omega)]

end

/-! The end of a gate (R94, R96). -/

section
variable {n : Nat} {s : State}

/-- A gate with fewer than three stamps publishes no result, and its length's register stays (R96). -/
theorem tdcPublish_few (h : (s.tdc n).fit.n < 3) :
    (s.tdcPublish n true).get .fd (Rg.TRES_VALID n) = 0 ∧ (s.tdcPublish n true).get .fd (Rg.TRES_GATE_SEQ n) = (s.get .fd (Rg.TRES_GATE_SEQ n) + 1) % 2 ^ 32
      ∧ (s.tdcPublish n true).get .fd (Rg.TDC_GATE_MS n) = s.get .fd (Rg.TDC_GATE_MS n) := by
  have hout : ∀ pnom, (s.tdc n).fit.out pnom = none := fun pnom => if_pos h
  have hne : ∀ f : Machine.Field, 0x1400 + 64 * n ≤ f.off → decide (f.lo < 32) = true → (Rg.TDC_GATE_MS n).key ≠ f.key := fun f ho hl =>
    key_ne_of_off (by simp only [Rg.TDC_GATE_MS]; omega) rfl hl
  unfold State.tdcPublish
  simp only [if_true, hout, State.putFlag]
  refine ⟨?_, State.get_put_same .., ?_⟩
  · rw [State.get_put_ne _ (key_ne_of_off (by simp only [Rg.TRES_VALID, Rg.TRES_GATE_SEQ]; omega)), State.get_put_same]
    rfl
  · simp only [State.get_put_ne _ (hne (Rg.TRES_GATE_SEQ n) (by simp only [Rg.TRES_GATE_SEQ]; omega) rfl), State.get_put_ne _ (hne (Rg.TRES_VALID n) (by simp only [Rg.TRES_VALID]; omega) rfl),
      State.get_put_ne _ (hne (Rg.TRES_JOINED_BASE n) (by simp only [Rg.TRES_JOINED_BASE]; omega) rfl),
      State.get_put_ne _ (hne (Rg.TRES_SWAP_IN_GATE n) (by simp only [Rg.TRES_SWAP_IN_GATE]; omega) rfl),
      State.get_put_ne _ (hne (Rg.TRES_REANCHOR_IN_GATE n) (by simp only [Rg.TRES_REANCHOR_IN_GATE]; omega) rfl),
      State.get_put_ne _ (hne (Rg.TRES_PARTIAL n) (by simp only [Rg.TRES_PARTIAL]; omega) rfl), State.get_put_ne _ (hne (Rg.TRES_EXCLUDED n) (by simp only [Rg.TRES_EXCLUDED]; omega) rfl),
      State.get_put_ne _ (hne (Rg.TRES_N_HI n) (by simp only [Rg.TRES_N_HI]; omega) rfl), State.get_put_ne _ (hne (Rg.TRES_N n) (by simp only [Rg.TRES_N]; omega) rfl)]

theorem tdc_tdcPublish (n k : Nat) (v : Bool) (s : State) : (s.tdcPublish n v).tdc k = s.tdc k := by
  unfold State.tdc
  rw [(tdcPublish_same n v s).1]

/-- Within the gate in progress no further gate has ended. -/
theorem tdcSkip_within {ns : Nat} (h : ns < (s.tdc n).gateEndNs) : s.tdcSkip n ns = s := if_pos (by simp [h])

/-- Where one gate has ended and the next has not, the gate is published and the next begins (R94). -/
theorem tdcCatchUp_one {ns : Nat} (hgate : s.tdcGating n = true) (hlen : (s.tdc n).gateLen ≠ 0) (hend : (s.tdc n).gateEndNs ≤ ns)
    (hnext : ns < (((s.tdcPublish n true).tdcNextGate n (s.tdc n).gateEndNs true).tdc n).gateEndNs) :
    s.tdcCatchUp n ns = (s.tdcPublish n true).tdcNextGate n (s.tdc n).gateEndNs true := by
  unfold State.tdcCatchUp
  simp only [hgate, hlen, hend, Bool.not_true, Bool.false_eq_true, if_false, if_true]
  exact tdcSkip_within hnext

/-- TDC_GATE_END of a gate with fewer than three stamps (R94, R96). -/
theorem tdcGateEnd_publishes (hgate : s.tdcGating n = true) (hlen : (s.tdc n).gateLen ≠ 0) (hend : (s.tdc n).gateEndNs ≤ s.htNs .fd)
    (hnext : s.htNs .fd < ({ s.tdc n with gateFrom := (s.tdc n).gateEndNs, gateLen := s.get .fd (Rg.TDC_GATE_MS n) } : TdcCh).gateEndNs) (hfew : (s.tdc n).fit.n < 3) :
    Gives (.tdcGateEnd n) s fun t => t.get .fd (Rg.TRES_VALID n) = 0 ∧ t.get .fd (Rg.TRES_GATE_SEQ n) = (s.get .fd (Rg.TRES_GATE_SEQ n) + 1) % 2 ^ 32
        ∧ (t.tdc n).fit = {} ∧ (t.tdc n).gateFrom = (s.tdc n).gateEndNs := by
  obtain ⟨hvalid, hseq, hms⟩ := tdcPublish_few hfew
  refine ⟨_, congrArg Host.Outcome.next (tdcCatchUp_one hgate hlen hend ?_), ?_, ?_, ?_, ?_⟩
  · rw [State.tdcNextGate, tdc_setTdc, hms]
    exact hnext
  · rw [State.tdcNextGate, get_setTdc_ne (key_ne_of_off (by simp only [Rg.TRES_VALID, Rg.TDC_QUEUE_LEVEL]; omega)), hvalid]
  · rw [State.tdcNextGate, get_setTdc_ne (key_ne_of_off (by simp only [Rg.TRES_GATE_SEQ, Rg.TDC_QUEUE_LEVEL]; omega)), hseq]
  · rw [State.tdcNextGate, tdc_setTdc]
  · rw [State.tdcNextGate, tdc_setTdc]

end

/-! The channels' mailbox commands (R93, R100, R109). -/

theorem tdc_mbSubmit (m : MbGo) (code n : Nat) (s : State) : (s.mbSubmit m code).tdc n = s.tdc n := by
  unfold State.tdc
  rw [mbSubmit_dist]

theorem tdc_mbAnswer_ok (p : Part) (box code tag : Nat) (irq dma : Bool) (fixed : List (Nat × Nat)) (n : Nat) (t : State) :
    (t.mbAnswer p box code tag irq dma (.ok fixed)).tdc n = t.tdc n := by
  unfold State.tdc
  rw [ans_ok, mbDone_dist]

/-- A channel's registers are none of the mailboxes'. -/
theorem not_mbKeys_tdc {n : Nat} (hn : n < 32) {f : Machine.Field} (ho : f.off < 0x1020 + 32 * n) (hl : decide (f.lo < 32) = true := by rfl) : ¬ mbKeys f.key := by
  simp only [decide_eq_true_eq] at hl
  unfold mbKeys Machine.Field.key
  omega

section
variable {m : MbGo} {s : State}

/-- TDC_RING_SET (R93, R109). -/
theorem tdcRingSet_sets (h : MbReady m 1 none 32 s) (hp : m.part = .fd) (hvar : s.dist.variant = .vxd2880) (hn : m.argAt [1, 8, 1, 8] 0 < 32)
    (hbase : m.argAt [1, 8, 1, 8] 1 % 4096 = 0) (hlo : 12 ≤ m.argAt [1, 8, 1, 8] 2) (hhi : m.argAt [1, 8, 1, 8] 2 ≤ 24) (hwb : m.argAt [1, 8, 1, 8] 3 % 64 = 0)
    (hmode : s.get .fd (Rg.TDC_Q_MODE (m.argAt [1, 8, 1, 8] 0)) = 0) :
    Gives (.tdcRingSet m) s fun t => Answered m 0 t ∧ t.get .fd (Rg.TDC_RDIDX (m.argAt [1, 8, 1, 8] 0)) = 0
        ∧ t.tdc (m.argAt [1, 8, 1, 8] 0) = { s.tdc (m.argAt [1, 8, 1, 8] 0) with ringBase := m.argAt [1, 8, 1, 8] 1, ringLog2 := m.argAt [1, 8, 1, 8] 2, ringWb := m.argAt [1, 8, 1, 8] 3, wr := 0, rd := 0 } := by
  refine ⟨_, rfl, ?_⟩
  unfold MbGo.argAt at *
  generalize ha : parseFields m.args 0 [1, 8, 1, 8] = a at *
  have hq : (s.mbSubmit m 0x0B).get .fd (Rg.TDC_Q_MODE (a.getD 0 0)) = 0 := (get_sub h.box 0x0B (not_mbKeys_tdc hn (by simp only [Rg.TDC_Q_MODE]; omega)) .fd).trans hmode
  rw [own_fd hp hvar, mailbox_eq_answer (jobArg := none) h rfl (out := .ok [])
    (u := ((s.mbSubmit m 0x0B).setTdc (a.getD 0 0) { s.tdc (a.getD 0 0) with ringBase := a.getD 1 0, ringLog2 := a.getD 2 0, ringWb := a.getD 3 0, wr := 0, rd := 0 }).put .fd
      (Rg.TDC_RDIDX (a.getD 0 0)) 0) ?body]
  case body =>
    dsimp only
    rw [ha, if_neg (by simp [-List.getD_eq_getElem?_getD, hbase, hwb]; omega), if_neg (by omega), tdc_mbSubmit]
  refine ⟨answered_ok .., ?_, ?_⟩
  · rw [get_ans h.box _ _ (not_mbKeys_tdc hn (by simp only [Rg.TDC_RDIDX]; omega)), State.get_put_same]
    rfl
  · rw [tdc_mbAnswer_ok, tdc_put, tdc_setTdc]

/-- A mask of one bit. -/
theorem setBits_single {w n : Nat} (h : n < w) : setBits w (2 ^ n) = [n] := by
  have hbit : (bit (2 ^ n) ·) = (· == n) := funext fun i => by
    rw [bit_testBit, Nat.testBit_two_pow, Bool.eq_iff_iff, decide_eq_true_iff, beq_iff_eq, eq_comm]
  unfold setBits
  rw [hbit, List.filter_beq, List.count_eq_one_of_mem List.nodup_range (List.mem_range.2 h), List.replicate_one]

theorem begin_of_idle {q : TdcPair} (h : q.cal = .idle) : q.begin_ = { q with cal := .density, queued := false } := if_pos h

/-- A calibration that begins shows in the channel's FD_TDC_STAT (R98, R108). -/
theorem setPair_density_stat (n : Nat) (q : TdcPair) (s : State) :
    (s.setPair (.channel n) { q with cal := .density, queued := false }).get .fd (Rg.TDC_CAL_RUNNING n) = 1
      ∧ (s.setPair (.channel n) { q with cal := .density, queued := false }).get .fd (Rg.TDC_CAL_PENDING n) = 0 := (setPair_channel_stat n _ s).2

/-- TDC_CAL_NOW for one channel (R98, R100, R109). -/
theorem tdcCalNow_begins {n : Nat} (h : MbReady m 1 none 4 s) (hp : m.part = .fd) (hvar : s.dist.variant = .vxd2880) (hn : n < 32) (harg : m.argAt [4] 0 = 2 ^ n)
    (hfails : (s.tdc n).pair.fails < 2) (hidle : (s.tdc n).pair.cal = .idle) :
    Gives (.tdcCalNow m) s fun t => Answered m 0 t ∧ t.tdc n = { s.tdc n with pair := { (s.tdc n).pair with cal := .density, queued := false } } ∧ t.get .fd (Rg.TDC_CAL_RUNNING n) = 1 ∧ t.get .fd (Rg.TDC_CAL_PENDING n) = 0 := by
  refine ⟨_, rfl, ?_⟩
  unfold MbGo.argAt at harg
  have hcal : (s.mbSubmit m 0x0C).pairCal (.channel n) = (s.mbSubmit m 0x0C).setPair (.channel n) { (s.tdc n).pair with cal := .density, queued := false } := by
    have hpair : (s.mbSubmit m 0x0C).pair (.channel n) = (s.tdc n).pair := congrArg TdcCh.pair (tdc_mbSubmit m 0x0C n s)
    unfold State.pairCal
    rw [hpair, if_neg (by omega), begin_of_idle hidle]
  rw [own_fd hp hvar, mailbox_eq_answer (jobArg := none) h rfl (out := .ok [])
    (u := (s.mbSubmit m 0x0C).setPair (.channel n) { (s.tdc n).pair with cal := .density, queued := false }) ?body]
  case body =>
    dsimp only
    rw [harg, setBits_single hn, List.any_cons, List.any_nil, Bool.or_false, tdc_mbSubmit, if_neg (by simp; omega), List.foldl_cons, List.foldl_nil, hcal]
  refine ⟨answered_ok .., ?_, ?_, ?_⟩
  · rw [tdc_mbAnswer_ok, tdc_setPair, tdc_mbSubmit, bne_self_eq_false, Bool.or_false]
  · rw [get_ans h.box _ _ (not_mbKeys_tdc hn (by simp only [Rg.TDC_CAL_RUNNING]; omega))]
    exact (setPair_density_stat ..).1
  · rw [get_ans h.box _ _ (not_mbKeys_tdc hn (by simp only [Rg.TDC_CAL_PENDING]; omega))]
    exact (setPair_density_stat ..).2

/-- TDC_CAL_READ of the main's table (R109); a width is rounded half up, the model's choice (log entry 65). -/
theorem tdcCalRead_answers (h : MbReady m 1 none 3 s) (hp : m.part = .fd) (hvar : s.dist.variant = .vxd2880) (hn : m.argAt [1, 1, 1] 0 < 32)
    (hmain : m.argAt [1, 1, 1] 1 = 0) (hhalf : m.argAt [1, 1, 1] 2 ≤ 1) :
    Gives (.tdcCalRead m) s fun t => Only .fd true mbKeys s t
        ∧ Result m (((((s.tdc (m.argAt [1, 1, 1] 0)).pair.main.drop (128 * m.argAt [1, 1, 1] 2)).take 128).map fun h => leBytes 2 ((1600000 * h + 1048576) / 2097152)).flatten.take 256) s t := by
  refine ⟨_, rfl, ?_⟩
  unfold MbGo.argAt at *
  rw [own_fd hp hvar, ← hp]
  refine (bytes_ok (jobArg := none) h rfl 0x0D _ _ ?_).symm
  dsimp only
  rw [if_neg (by simp [-List.getD_eq_getElem?_getD, hmain]; omega), hmain, if_pos rfl, tdc_mbSubmit]

end

/-! The pair's own steps (R98 to R100). -/

section
variable {a : TdcAt} {s : State}

/-- TDC_CAL_START once CAL_PERIOD_S have passed (R98, R100). -/
theorem tdcCalStart_begins {temp : Int} (hhas : s.hasPair a = true) (hfails : (s.pair a).fails < 2) (hdue : (s.pair a).swapNow + s.calPeriod a * 1000000000 ≤ s.now)
    (hidle : (s.pair a).cal = .idle) :
    Gives (.tdcCalStart a temp) s fun t => t.pair a = { s.pair a with temp := temp, cal := .density, queued := false }
        ∧ ∀ n, a = .channel n → t.get .fd (Rg.TDC_CAL_RUNNING n) = 1 ∧ t.get .fd (Rg.TDC_CAL_PENDING n) = 0 := by
  refine ⟨s.setPair a { s.pair a with temp := temp, cal := .density, queued := false }, congrArg Host.Outcome.next ?_, pair_setPair .., ?_⟩
  · simp only [hhas, hdue, hfails, decide_true, Bool.true_or, Bool.and_true, Bool.not_true, Bool.false_eq_true, if_false, if_true]
    rw [begin_of_idle (q := { s.pair a with temp := temp }) hidle]
  · rintro n rfl
    exact setPair_density_stat n { s.pair (.channel n) with temp := temp } s

/-- TDC_CAL_TABLE_DONE with a table that passes (R98, R99). -/
theorem tdcCalTableDone_checks {hits : List Nat} (hcal : (s.pair a).cal = .density) (hpass : tablePasses hits = true) :
    Gives (.tdcCalTableDone a hits) s fun t => t.pair a = { s.pair a with twin := hits, twinNow := s.now, cal := .check, diffs := [], checkFrom := s.now }
        ∧ ∀ n, a = .channel n → ∀ k, k ≠ n → t.tdc k = s.tdc k := by
  refine ⟨s.setPair a { s.pair a with twin := hits, twinNow := s.now, cal := .check, diffs := [], checkFrom := s.now }, congrArg Host.Outcome.next ?_, pair_setPair .., ?_⟩
  · simp only [hcal, hpass, bne_self_eq_false, Bool.false_eq_true, if_false, if_true]
  · rintro n rfl k hk
    exact tdc_setPair_ne hk ..

theorem Waits.pair {t : State} (h : Waits s t) (a : TdcAt) : t.pair a = s.pair a := by
  cases a with
  | channel n => exact congrArg (fun d : Dist => (SMap.get {} n d.tdc).pair) h.dist
  | timing p => exact h.timing p
  | lane p n => exact congrArg (fun l => (SMap.get {} n l).tdc) (h.links p)

theorem now_setPair (a : TdcAt) (q : TdcPair) (s : State) : (s.setPair a q).now = s.now := by
  cases a with
  | channel n =>
    unfold State.setPair State.putFlag
    dsimp only
    split <;> rfl
  | timing p => cases p <;> rfl
  | lane p n => cases p <;> rfl

/-- TDC_CHECK_TIMEOUT (R99). -/
theorem tdcCheckTimeout_swaps (hcal : (s.pair a).cal = .check) :
    Gives (.tdcCheckTimeout a) s fun t => t.pair a = (s.pair a).swap t.now false ∧ (t.pair a).main = (s.pair a).twin ∧ (t.pair a).twin = (s.pair a).main ∧ (s.pair a).checkFrom + 120000000000 ≤ t.now := by
  refine ⟨_, congrArg Host.Outcome.next (if_pos hcal), ?_⟩
  dsimp only
  rw [pair_setPair, now_setPair, Waits.pair (Waits.awaitNow ..)]
  exact ⟨rfl, rfl, rfl, awaitNow_le ..⟩

/-- CAL_STALE (R100). -/
theorem calStale_sets {n : Nat} (hdev : s.has2880 = true) (hn : n < 32) :
    Gives (.calStale n) s fun t => t.get .fd (Rg.TDC_CAL_STALE n) = 1 ∧ (s.tdc n).pair.mainNow + 2 * s.get .fd (Rg.TDC_CAL_PERIOD_S n) * 1000000000 < t.now := by
  refine ⟨_, if_pos (by simp [hdev, hn]), State.get_put_same .., ?_⟩
  rw [State.put_now]
  exact awaitNow_le ..

end

/-! A record moved to its ring (R93). -/

/-- A step that leaves the state for every element but one, before it and after, does that one step over the list. -/
theorem foldl_of_fixed_but {α σ : Type} {f : σ → α → σ} {s : σ} {l : List α} {x : α} (hmem : x ∈ l) (hnd : l.Nodup) (hbefore : ∀ y ∈ l, y ≠ x → f s y = s)
    (hafter : ∀ y ∈ l, y ≠ x → f (f s x) y = f s x) : l.foldl f s = f s x := by
  induction l with
  | nil => exact absurd hmem List.not_mem_nil
  | cons y l ih =>
    rw [List.nodup_cons] at hnd
    rw [List.foldl_cons]
    by_cases hy : y = x
    · rw [hy]
      exact foldl_of_fixed fun z hz => hafter z (List.mem_cons_of_mem y hz) fun e => hnd.1 (hy ▸ e ▸ hz)
    · rw [hbefore y List.mem_cons_self hy]
      exact ih ((List.mem_cons.1 hmem).resolve_left (Ne.symm hy)) hnd.2 (fun z hz => hbefore z (List.mem_cons_of_mem y hz)) fun z hz => hafter z (List.mem_cons_of_mem y hz)

section
variable {n w : Nat} {s : State}

/-- The one channel with a record that may move is served, whichever channel's turn it is (R93). -/
theorem tdcMoves_one (hn : n < 32) (hmov : s.tdcMovable n = true) (honly : ∀ k < 32, k ≠ n → s.tdcMovable k = false) :
    s.tdcMoves 1 = (s.tdcMove n).setDist { (s.tdcMove n).dist with tdcTurn := (n + 1) % 32 } := by
  have hmod : (s.dist.tdcTurn + (n + 32 - s.dist.tdcTurn % 32) % 32) % 32 = n := by omega
  cases hfind : (List.range 32).find? fun i => s.tdcMovable ((s.dist.tdcTurn + i) % 32) with
  | none =>
    have hnot := List.find?_eq_none.1 hfind ((n + 32 - s.dist.tdcTurn % 32) % 32) (List.mem_range.2 (by omega))
    exact absurd hmov (hmod ▸ hnot)
  | some i =>
    have hi : (s.dist.tdcTurn + i) % 32 = n := by
      by_contra hne
      have hyes := List.find?_some hfind
      rw [honly _ (Nat.mod_lt _ (by decide)) hne] at hyes
      exact Bool.false_ne_true hyes
    unfold State.tdcMoves
    simp only [hfind, hi]
    rfl

/-- One write index moved: it alone is written back (R93). -/
theorem tdcWriteBack_one {u : State} (hn : n < 32) (hmoved : (u.tdc n).wr ≠ (s.tdc n).wr) (hrest : ∀ k < 32, k ≠ n → (u.tdc k).wr = (s.tdc k).wr) :
    State.tdcWriteBack s u = u.dmaWrite .fd (u.tdc n).ringWb (leBytes 8 (u.tdc n).wr) := by
  unfold State.tdcWriteBack
  rw [foldl_of_fixed_but (x := n) (List.mem_range.2 hn) List.nodup_range, if_neg hmoved]
  · exact fun k hk hne => if_pos (hrest k (List.mem_range.1 hk) hne)
  · intro k hk hne
    rw [if_neg hmoved, tdc_dmaWrite, if_pos (hrest k (List.mem_range.1 hk) hne)]

theorem tdc_setTurn (v k : Nat) (s : State) : (s.setDist { s.dist with tdcTurn := v }).tdc k = s.tdc k := rfl

/-- The state with a channel's only record in its ring and the turn passed on (R93). -/
theorem tdcDma_moves (hdev : s.has2880 = true) (hn : n < 32) (hmode : s.get .fd (Rg.TDC_Q_MODE n) = 1) (hring : (s.tdc n).ringLog2 ≠ 0) (hqueue : (s.tdc n).queue = [w])
    (hroom : (s.tdc n).wr - (s.tdc n).rd < 2 ^ (s.tdc n).ringLog2) (hrest : ∀ k < 32, k ≠ n → (s.tdc k).queue = []) :
    Gives (.tdcDma 1) s fun t => t.tdc n = { s.tdc n with queue := [], wr := ((s.tdc n).wr + 1) % 2 ^ 64 } ∧ (∀ k < 32, k ≠ n → t.tdc k = s.tdc k) ∧ t.get .fd (Rg.TDC_QUEUE_LEVEL n) = 0
        ∧ t.hostMem = (s.hostMem.writeN ((s.tdc n).ringBase + 16 * ((s.tdc n).wr % 2 ^ (s.tdc n).ringLog2)) (leBytes 16 w)).writeN (s.tdc n).ringWb
            (leBytes 8 (((s.tdc n).wr + 1) % 2 ^ 64)) ∧ t.dieMem = s.dieMem ∧ t.dist.tdcTurn = (n + 1) % 32 := by
  have hmov : s.tdcMovable n = true := by simp [State.tdcMovable, hmode, hring, hqueue, hroom]
  have honly : ∀ k < 32, k ≠ n → s.tdcMovable k = false := fun k hk hne => by simp [State.tdcMovable, hrest k hk hne]
  have hmove : s.tdcMove n = (s.dmaWrite .fd ((s.tdc n).ringBase + 16 * ((s.tdc n).wr % 2 ^ (s.tdc n).ringLog2)) (leBytes 16 w)).setTdc n
      { s.tdc n with queue := [], wr := ((s.tdc n).wr + 1) % 2 ^ 64 } := by
    unfold State.tdcMove
    simp only [hqueue, hroom, if_true]
  obtain ⟨u, hu⟩ : ∃ u, (s.tdcMove n).setDist { (s.tdcMove n).dist with tdcTurn := (n + 1) % 32 } = u := ⟨_, rfl⟩
  have hun : u.tdc n = { s.tdc n with queue := [], wr := ((s.tdc n).wr + 1) % 2 ^ 64 } := by rw [← hu, tdc_setTurn, hmove, tdc_setTdc]
  have huk : ∀ k < 32, k ≠ n → u.tdc k = s.tdc k := fun k _ hne => by rw [← hu, tdc_setTurn, hmove, tdc_setTdc_ne hne, tdc_dmaWrite]
  have hback : State.tdcWriteBack s u = u.dmaWrite .fd (s.tdc n).ringWb (leBytes 8 (((s.tdc n).wr + 1) % 2 ^ 64)) := by
    rw [tdcWriteBack_one hn ?_ fun k hk hne => congrArg TdcCh.wr (huk k hk hne), hun]
    rw [hun]
    show ((s.tdc n).wr + 1) % 2 ^ 64 ≠ (s.tdc n).wr
    omega
  refine ⟨u.dmaWrite .fd (s.tdc n).ringWb (leBytes 8 (((s.tdc n).wr + 1) % 2 ^ 64)), congrArg Host.Outcome.next ((if_pos hdev).trans ?_), ?_, ?_, ?_, ?_, ?_, ?_⟩
  · rw [show min 1 4000 = 1 from rfl, tdcMoves_one hn hmov honly, hu, hback]
  · rw [tdc_dmaWrite, hun]
  · intro k hk hne
    rw [tdc_dmaWrite, huk k hk hne]
  · rw [State.get_dmaWrite, ← hu, State.get_setDist, hmove, get_setTdc_level]
    rfl
  · rw [dmaWrite_fd_host, ← hu, State.setDist_hostMem, hmove, State.setTdc, State.put_hostMem, State.setDist_hostMem, dmaWrite_fd_host]
  · rw [dmaWrite_fd_die, ← hu, State.setDist_dieMem, hmove, State.setTdc, State.put_dieMem, State.setDist_dieMem, dmaWrite_fd_die]
  · rw [dmaWrite_dist, ← hu]
    rfl

end

/-! The mains inputs (R101 to R107). -/

section
variable {s : State}

theorem mainsCatchUp_within {ns : Nat} (hlen : s.dist.mains.gateLen ≠ 0) (h : ns < s.dist.mains.gateEndNs) : s.mainsCatchUp ns = s := by
  unfold State.mainsCatchUp
  rw [if_neg hlen, if_pos h]

/-- MAINS_ZC_EDGE within the gate in progress (R101, R102); that FD_PINS takes the levels given at a crossing is the model's choice (log entry 18). -/
theorem mainsZcEdge_fits {p stamp levels : Nat} (hdev : s.has2880 = true) (hp : p < 6) (hen : bit (s.get .fd Rg.MNS_ZC_EN) p = true) (hlast : SMap.find p s.dist.mains.last = none)
    (hlen : s.dist.mains.gateLen ≠ 0) (hin : coarseStamp stamp / nsLsb < s.dist.mains.gateEndNs) :
    Gives (.mainsZcEdge p stamp levels) s fun t => t.get .fd Rg.PIN_MAINS_ZC = levels % 64
        ∧ t.dist.mains = { s.dist.mains with last := SMap.set p (coarseStamp stamp) s.dist.mains.last, fits := SMap.set p (Fit.place s.mainsNom (coarseStamp stamp) (SMap.get {} p s.dist.mains.fits)) s.dist.mains.fits } := by
  have hen0 : bit ((s.put .fd Rg.PIN_MAINS_ZC levels).get .fd Rg.MNS_ZC_EN) p = true := by
    rw [State.get_put_ne _ (by decide), hen]
  refine ⟨(s.put .fd Rg.PIN_MAINS_ZC levels).setMains { s.dist.mains with last := SMap.set p (coarseStamp stamp) s.dist.mains.last, fits := SMap.set p (Fit.place s.mainsNom (coarseStamp stamp) (SMap.get {} p s.dist.mains.fits)) s.dist.mains.fits }, ?_, ?_, rfl⟩
  · show execMainsZcEdge p stamp levels s = _
    unfold execMainsZcEdge
    simp only [hdev, hp, hen, hlast, decide_true, Bool.and_self, Bool.not_true, Bool.false_eq_true, if_false]
    rw [mainsCatchUp_within (by rwa [State.put_dist]) (by rwa [State.put_dist]), State.put_dist]
  · rw [State.get_setMains, State.get_put_same]
    rfl

/-- A phase without a stamp in the gate has no result (R102). -/
theorem phaseOut_of_no_fit (h : s.dist.mains.fits = []) (p : Nat) : s.phaseOut p = none := by
  unfold State.phaseOut
  rw [h]
  split <;> rfl

theorem selectFeed_none (sel : Nat) : selectFeed sel none none = none := by
  unfold selectFeed
  split
  · rfl
  · split <;> rfl

/-- No rate of change while the newest gate has no frequency (R105). -/
theorem rocofOf_none (m gate10 : Nat) (hist : List (Option Nat)) : rocofOf (m + 1) gate10 ((none :: hist).take 17) = none := by
  unfold rocofOf
  rw [if_neg]
  simp

/-- The angles of phases cleared. -/
def clearAngles (l : List Nat) (s : State) : State := l.foldl (fun t p => t.put .fd (Rg.MNS_ANGLE_P p) 0) s

theorem regs_clearAngles (l : List Nat) (s : State) : Regs (fun k => ∃ p, k = (Rg.MNS_ANGLE_P p).key) s (clearAngles l s) :=
  Regs.foldl (fun u p => (Regs.refl _ u).put ⟨p, rfl⟩ 0) l (Regs.refl _ s)

theorem dist_clearAngles (l : List Nat) (s : State) : (clearAngles l s).dist = s.dist := foldl_keeps State.dist (fun _ _ => State.put_dist ..) l s

theorem angle_put_zero {p q : Nat} {t : State} (h : p = q ∨ t.get .fd (Rg.MNS_ANGLE_P p) = 0) : (t.put .fd (Rg.MNS_ANGLE_P q) 0).get .fd (Rg.MNS_ANGLE_P p) = 0 := by
  by_cases hpq : p = q
  · rw [hpq, State.get_put_same]
    rfl
  · rw [State.get_put_ne _ (key_ne_of_off (by simp only [Rg.MNS_ANGLE_P]; omega))]
    exact h.resolve_left hpq

theorem angle_clearAngles {p : Nat} {l : List Nat} {s : State} (h : p ∈ l ∨ s.get .fd (Rg.MNS_ANGLE_P p) = 0) : (clearAngles l s).get .fd (Rg.MNS_ANGLE_P p) = 0 := by
  induction l generalizing s with
  | nil => exact h.resolve_left List.not_mem_nil
  | cons q l ih =>
    refine ih (s := s.put .fd (Rg.MNS_ANGLE_P q) 0) ?_
    rcases h with h | h
    · rcases List.mem_cons.1 h with h | h
      · exact Or.inr (angle_put_zero (Or.inl h))
      · exact Or.inl h
    · exact Or.inr (angle_put_zero (Or.inr h))

/-- A gate without a crossing publishes every result as not valid, the angles as 0 (R102 to R105). -/
theorem mainsPublish_empty (hfits : s.dist.mains.fits = []) (hmains : s.get .fd Rg.MNS_MAINS_VALID = 0) (hroc : s.get .fd Rg.MNS_ROCOF_VALID = 0) :
    s.mainsPublish true = ((clearAngles (List.range 6) ((((s.put .fd Rg.MNS_PHASE_VALID 0).put .fd Rg.MNS_FEED_VALID 0).putFlag .fd Rg.MNS_MAINS_VALID false).putFlag .fd
      Rg.MNS_ROCOF_VALID false)).put .fd Rg.MNS_GATE_SEQ (s.get .fd Rg.MNS_GATE_SEQ + 1)).setMains { s.dist.mains with fits := [], hist := (none :: s.dist.mains.hist).take 17 } := by
  have houts : (List.range 6).map (fun p => if true = true then s.phaseOut p else none) = List.replicate 6 none := by
    simp only [if_true, phaseOut_of_no_fit hfits]
    rfl
  have hget : ∀ p, (List.replicate 6 (none : Option (Nat × FitOut))).getD p none = none := fun p => by
    rw [List.getD_eq_getElem?_getD, List.getElem?_replicate]
    split <;> rfl
  unfold State.mainsPublish
  rw [houts]
  have hfeed : ∀ l : List Nat, feedFreq (l.filterMap fun _ => Option.map Prod.fst (none : Option (Nat × FitOut))) = none := fun l => by
    rw [Option.map_none, List.filterMap_none]
    rfl
  have hfind : (List.range 6).find? (fun _ => false) = none := rfl
  simp only [hget, hfeed, selectFeed_none, rocofOf_none, flag0 hmains, flag0 hroc, Option.isSome_none, hfind, bne_self_eq_false, Bool.false_eq_true, if_false]
  rfl

/-- What the registers show after such a gate. -/
theorem mainsPublish_empty_results (hfits : s.dist.mains.fits = []) (hmains : s.get .fd Rg.MNS_MAINS_VALID = 0) (hroc : s.get .fd Rg.MNS_ROCOF_VALID = 0) :
    ((s.mainsPublish true).get .fd Rg.MNS_PHASE_VALID = 0 ∧ (s.mainsPublish true).get .fd Rg.MNS_FEED_VALID = 0 ∧ (s.mainsPublish true).get .fd Rg.MNS_MAINS_VALID = 0
      ∧ (s.mainsPublish true).get .fd Rg.MNS_ROCOF_VALID = 0) ∧ (∀ p < 6, (s.mainsPublish true).get .fd (Rg.MNS_ANGLE_P p) = 0)
      ∧ (s.mainsPublish true).get .fd Rg.MNS_GATE_SEQ = (s.get .fd Rg.MNS_GATE_SEQ + 1) % 2 ^ 32 ∧ (s.mainsPublish true).get .fd Rg.MNS_GATE_10MS = s.get .fd Rg.MNS_GATE_10MS := by
  rw [mainsPublish_empty hfits hmains hroc]
  generalize hu : (((s.put .fd Rg.MNS_PHASE_VALID 0).put .fd Rg.MNS_FEED_VALID 0).putFlag .fd Rg.MNS_MAINS_VALID false).putFlag .fd Rg.MNS_ROCOF_VALID false = u
  have hget : ∀ f : Machine.Field, f.off < 0x1C08 → decide (f.lo < 32) = true →
      ((clearAngles (List.range 6) u).put .fd Rg.MNS_GATE_SEQ (s.get .fd Rg.MNS_GATE_SEQ + 1)).get .fd f = u.get .fd f := fun f ho hl => by
    rw [State.get_put_ne _ (key_ne_of_off (by simp only [Rg.MNS_GATE_SEQ]; omega) hl)]
    refine regs_clearAngles _ u .fd f ?_
    rintro ⟨p, hp⟩
    exact key_ne_of_off (by simp only [Rg.MNS_ANGLE_P]; omega) hl rfl hp
  simp only [State.get_setMains]
  refine ⟨⟨?_, ?_, ?_, ?_⟩, fun p hp => ?_, State.get_put_same .., ?_⟩
  · rw [hget _ (by decide) rfl, ← hu, get_putFlag_ne _ (by decide), get_putFlag_ne _ (by decide), State.get_put_ne _ (by decide), State.get_put_same]
    rfl
  · rw [hget _ (by decide) rfl, ← hu, get_putFlag_ne _ (by decide), get_putFlag_ne _ (by decide), State.get_put_same]
    rfl
  · rw [hget _ (by decide) rfl, ← hu, get_putFlag_ne _ (by decide), get_putFlag_same]
    rfl
  · rw [hget _ (by decide) rfl, ← hu, get_putFlag_same]
    rfl
  · rw [State.get_put_ne _ (key_ne_of_off (by simp only [Rg.MNS_ANGLE_P, Rg.MNS_GATE_SEQ]; omega))]
    exact angle_clearAngles (Or.inl (List.mem_range.2 hp))
  · rw [hget _ (by decide) rfl, ← hu, get_putFlag_ne _ (by decide), get_putFlag_ne _ (by decide), State.get_put_ne _ (by decide), State.get_put_ne _ (by decide)]

/-- Where one mains gate has ended and the next has not, the gate is published and the next begins (R94, R102). -/
theorem mainsCatchUp_one {ns : Nat} (hlen : s.dist.mains.gateLen ≠ 0) (hend : s.dist.mains.gateEndNs ≤ ns)
    (hnext : ns < ((s.mainsPublish true).mainsNextGate s.dist.mains.gateEndNs).dist.mains.gateEndNs) :
    s.mainsCatchUp ns = (s.mainsPublish true).mainsNextGate s.dist.mains.gateEndNs := by
  unfold State.mainsCatchUp
  rw [if_neg hlen, if_neg (by omega)]
  exact if_pos hnext

/-- MAINS_GATE_END without a crossing in the gate (R102 to R107). -/
theorem mainsGateEnd_publishes (hdev : s.has2880 = true) (hen : s.get .fd Rg.MNS_ZC_EN ≠ 0) (hlen : s.dist.mains.gateLen ≠ 0) (hend : s.dist.mains.gateEndNs ≤ s.htNs .fd)
    (hnext : s.htNs .fd < ({ s.dist.mains with gateFrom := s.dist.mains.gateEndNs, gateLen := s.get .fd Rg.MNS_GATE_10MS } : MainsSt).gateEndNs) (hfits : s.dist.mains.fits = [])
    (hmains : s.get .fd Rg.MNS_MAINS_VALID = 0) (hroc : s.get .fd Rg.MNS_ROCOF_VALID = 0) :
    Gives .mainsGateEnd s fun t => t.get .fd Rg.MNS_PHASE_VALID = 0 ∧ t.get .fd Rg.MNS_FEED_VALID = 0 ∧ t.get .fd Rg.MNS_MAINS_VALID = 0 ∧ t.get .fd Rg.MNS_ROCOF_VALID = 0
        ∧ (∀ p < 6, t.get .fd (Rg.MNS_ANGLE_P p) = 0) ∧ t.get .fd Rg.MNS_GATE_SEQ = (s.get .fd Rg.MNS_GATE_SEQ + 1) % 2 ^ 32 ∧ t.dist.mains.gateFrom = s.dist.mains.gateEndNs := by
  obtain ⟨⟨hphase, hfeed, hvalid, hrate⟩, hangle, hseq, hms⟩ := mainsPublish_empty_results hfits hmains hroc
  refine ⟨(s.mainsPublish true).mainsNextGate s.dist.mains.gateEndNs, congrArg Host.Outcome.next ((if_neg (by simp [hdev, hen])).trans ?_), ?_⟩
  · dsimp only
    rw [if_neg hlen, awaitHt_past hend]
    refine mainsCatchUp_one hlen hend ?_
    rw [State.mainsNextGate, hms]
    exact hnext
  · unfold State.mainsNextGate
    simp only [State.get_setMains]
    exact ⟨hphase, hfeed, hvalid, hrate, hangle, hseq, rfl⟩

/-- The record of an edge of a mains line writes attendance fields alone (R106). -/
theorem get_mainsEventAt {f : Machine.Field} (h : ¬ attKeys f.key) (ns ev : Nat) (t : State) : (t.mainsEventAt ns ev).get .fd f = t.get .fd f :=
  (Regs.refl attKeys t).recordAt (fun _ x => x) _ _ .fd f h

/-- MAINS_LINE_EDGE of the frequency alarm's line (R106). -/
theorem mainsLineEdge_alarm {level : Bool} {stamp held : Nat} (hdev : s.has2880 = true) (hheld : 1000 ≤ held) :
    Gives (.mainsLineEdge true level stamp held) s fun t => t.get .fd Rg.PIN_MAINS_FREQ_ALM_N = ofBool level ∧ t.get .fd Rg.MNS_FREQ_ALM = ofBool (!level) ∧ t.get .fd Rg.MNS_SAG = s.get .fd Rg.MNS_SAG := by
  refine ⟨_, congrArg Host.Outcome.next (if_neg (by simp [hdev]; omega)), ?_, ?_, ?_⟩ <;> dsimp only <;> rw [if_pos rfl, get_mainsEventAt (not_att (by decide) (by decide) (by decide))]
  · rw [get_putFlag_ne _ (by decide), get_putFlag_same]
  · rw [get_putFlag_same]
  · rw [get_putFlag_ne _ (by decide), get_putFlag_ne _ (by decide)]

/-- MAINS_LINE_EDGE of the sag's line (R106). -/
theorem mainsLineEdge_sag {level : Bool} {stamp held : Nat} (hdev : s.has2880 = true) (hheld : 1000 ≤ held) :
    Gives (.mainsLineEdge false level stamp held) s fun t => t.get .fd Rg.PIN_MAINS_SAG_N = ofBool level ∧ t.get .fd Rg.MNS_SAG = ofBool (!level) ∧ t.get .fd Rg.MNS_FREQ_ALM = s.get .fd Rg.MNS_FREQ_ALM := by
  refine ⟨_, congrArg Host.Outcome.next (if_neg (by simp [hdev]; omega)), ?_, ?_, ?_⟩ <;> dsimp only <;>
    rw [if_neg Bool.false_ne_true, get_mainsEventAt (not_att (by decide) (by decide) (by decide))]
  · rw [get_putFlag_ne _ (by decide), get_putFlag_same]
  · rw [get_putFlag_same]
  · rw [get_putFlag_ne _ (by decide), get_putFlag_ne _ (by decide)]

end

/-- Settles O8, each clause by the lemma on its command. -/
theorem timeIntervalsAndMains : Obligations.TimeIntervalsAndMains := by
  unfold Obligations.TimeIntervalsAndMains
  exact ⟨fun _ _ _ _ _ _ hdev hn hen hsrc hsel hreg hmode hlast hpend hqueue hidle howed hst hbusy =>
      tdcEdge_queues hdev hn hen hsrc hsel hreg hmode hlast hpend hqueue hidle howed hst hbusy,
    fun _ _ _ _ _ _ _ hdev hn hen hsrc hsel hmode hlast hst hle hdead => tdcEdge_misses hdev hn hen hsrc hsel hmode hlast hst hle hdead,
    fun _ _ _ hn hpend hroom => tdcGapQueue_queues hn hpend hroom,
    fun _ _ hgate hlen hend hnext hfew => tdcGateEnd_publishes hgate hlen hend hnext hfew,
    fun _ _ _ hdev hn hmode hring hqueue hroom hrest => tdcDma_moves hdev hn hmode hring hqueue hroom hrest,
    fun _ _ h hp hvar hn hbase hlo hhi hwb hmode => tdcRingSet_sets h hp hvar hn hbase hlo hhi hwb hmode,
    fun _ _ _ h hp hvar hn harg hfails hidle => tdcCalNow_begins h hp hvar hn harg hfails hidle,
    fun _ _ h hp hvar hn hmain hhalf => tdcCalRead_answers h hp hvar hn hmain hhalf,
    fun _ _ _ hhas hfails hdue hidle => tdcCalStart_begins hhas hfails hdue hidle,
    fun _ _ _ hcal hpass => tdcCalTableDone_checks hcal hpass,
    fun _ _ hcal => tdcCheckTimeout_swaps hcal,
    fun _ _ hdev hn => calStale_sets hdev hn,
    fun _ _ _ _ hdev hp hen hlast hlen hin => mainsZcEdge_fits hdev hp hen hlast hlen hin,
    fun _ hdev hen hlen hend hnext hfits hmains hroc => mainsGateEnd_publishes hdev hen hlen hend hnext hfits hmains hroc,
    fun _ _ _ _ hdev hheld => mainsLineEdge_alarm hdev hheld,
    fun _ _ _ _ hdev hheld => mainsLineEdge_sag hdev hheld⟩

end Sys2Proof.Proofs

/-! PROOFS. O10 and O42: the timers and conditions of a link's states, steering and the return from core holdover; the words that a control slot discards. -/

namespace Sys2Proof.Proofs

open Sys2Proof Sys2Proof.Machine Sys2Proof.Cmds

/-! Words that a control slot discards (R125). -/

/-- The direction in which a word travels is a matter of the port and the unit's role, not of the links' state. -/
theorem rightWay_setLink (p q : Part) (n k : Nat) (l : Machine.Link) (w : CtlWord) (s : State) : (s.setLink q k l).rightWay p n w = s.rightWay p n w := by
  have hparent : (s.setLink q k l).parentEnd p n = s.parentEnd p n := by
    cases p with
    | fd =>
      unfold State.parentEnd State.isActiveRoot State.role
      simp only [State.get_setLink]
    | sc =>
      unfold State.parentEnd
      rw [State.die_setLink]
  unfold State.rightWay
  rw [hparent]

/-- An undefined word is in its direction nowhere. -/
theorem rightWay_of_undefined {p : Part} {n : Nat} {w : CtlWord} {s : State} (h : ∃ k, w.body = CtlBody.undefined k) : s.rightWay p n w = false := by
  obtain ⟨k, hk⟩ := h
  simp [State.rightWay, hk, CtlBody.up]

/-- Off the mirror and peer lanes a word is out of its direction at the end that sends its type. -/
theorem rightWay_of_wrong_direction {p : Part} {n : Nat} {w : CtlWord} {s : State}
    (h : ∃ up, w.body.up = some up ∧ ¬ (p = Part.fd ∧ 68 ≤ n ∧ n ≤ 71) ∧ up ≠ s.parentEnd p n) : s.rightWay p n w = false := by
  obtain ⟨up, hup, hlane, hend⟩ := h
  have hpr : (decide (p = Part.fd) && prPorts.contains n) = false := by
    simp only [Bool.and_eq_false_iff, decide_eq_false_iff_not, prPorts, List.contains_eq_mem, List.mem_cons, List.not_mem_nil, or_false]
    by_cases hp : p = Part.fd
    · exact .inr fun hn => hlane ⟨hp, by omega, by omega⟩
    · exact .inl hp
  simp only [State.rightWay, hup, hpr, Bool.false_or, beq_eq_false_iff_ne]
  exact hend

/-- A word that comes next but not in its direction advances the sequence and counts, no more (R125). -/
theorem takeSlot_of_wrong_way {p : Part} {n : Nat} {x : CtlSlot} {s : State} (hcrc : x.crcOk = true) (hseq : x.lseq = (s.link p n).rxNext)
    (hway : s.rightWay p n x.word = false) :
    s.takeSlot p n x = (s.modLink p n fun l => { l with rxNext := (l.rxNext + 1) % 65536 }).bump p (Rg.LINK_BAD_WORD n) := by
  have hway' : (s.modLink p n fun l => { l with rxNext := (l.rxNext + 1) % 65536 }).rightWay p n x.word = false := (rightWay_setLink ..).trans hway
  unfold State.takeSlot
  simp only [hcrc, hseq, hway, hway', bne_self_eq_false, Bool.false_and, Bool.not_true, Bool.not_false, Bool.false_eq_true, if_false, if_true]

/-- What such a word leaves: the next sequence number, one more in BAD_WORD, and the inbox, the distributor's and the die's state as they were. -/
theorem takeSlot_discards {p : Part} {n : Nat} {x : CtlSlot} {s : State} (hcrc : x.crcOk = true) (hseq : x.lseq = (s.link p n).rxNext)
    (hway : s.rightWay p n x.word = false) :
    ((s.takeSlot p n x).link p n).rxNext = ((s.link p n).rxNext + 1) % 65536 ∧ (s.takeSlot p n x).get p (Rg.LINK_BAD_WORD n) = sat 8 (s.get p (Rg.LINK_BAD_WORD n) + 1)
      ∧ ((s.takeSlot p n x).unit p).inbox = (s.unit p).inbox ∧ (s.takeSlot p n x).dist = s.dist ∧ (s.takeSlot p n x).die = s.die := by
  rw [takeSlot_of_wrong_way hcrc hseq hway]
  refine ⟨?_, ?_, ?_, ?_, ?_⟩
  · rw [State.bump, link_put, link_modLink]
  · rw [get_bump, State.get_modLink]
    rfl
  · rw [State.bump, State.unit_put_inbox, State.modLink, State.setLink_inbox]
  · rw [State.bump, State.put_dist, State.modLink, State.dist_setLink]
  · rw [State.bump, State.put_die, State.modLink, State.die_setLink]

/-- A slot whose CRC fails counts and does nothing else (R125). -/
theorem takeSlot_of_bad_crc {p : Part} {n : Nat} {x : CtlSlot} {s : State} (hcrc : x.crcOk = false) : s.takeSlot p n x = s.bump p (Rg.LINK_BAD_WORD n) := by
  unfold State.takeSlot
  simp only [hcrc, Bool.not_false, if_true]

/-- Settles O42, by what a slot with a failing CRC and what a word out of its direction come to. -/
theorem wrongWordsCountInBadWord : Obligations.WrongWordsCountInBadWord := by
  unfold Obligations.WrongWordsCountInBadWord
  exact ⟨fun _ _ _ _ hcrc => takeSlot_of_bad_crc hcrc,
    fun _ _ _ _ hcrc hseq hbad => takeSlot_discards hcrc hseq (hbad.elim rightWay_of_undefined rightWay_of_wrong_direction)⟩

/-! A link's state (R136) and its event (R296): what they write. A field's place is proved at each use of `key_ne_of_lo` and `key_ne_of_off`: a default argument's tactic
would hold a thread of the build until the kernel has checked all that stands before. -/

/-- Attendance's fields lie from 0x7000 to below 0x7600. -/
theorem not_attKeys_of_off {f : Machine.Field} (ho : f.off < 0x7000 ∨ 0x7600 ≤ f.off) (hl : decide (f.lo < 32) = true) : ¬ attKeys f.key := by
  simp only [decide_eq_true_eq] at hl
  refine not_att ?_ ?_ ?_ <;> unfold Machine.Field.key <;> omega

theorem get_linkEvent_of_off {p : Part} {n ev d : Nat} {f : Machine.Field} (s : State) (ho : f.off < 0x7000 ∨ 0x7600 ≤ f.off) (hl : decide (f.lo < 32) = true) :
    (s.linkEvent p n ev d).get p f = s.get p f := get_event (not_attKeys_of_off ho hl) ..

theorem fw_linkEvent (p : Part) (n ev d : Nat) (s : State) : ((s.linkEvent p n ev d).unit p).fw = (s.unit p).fw := by
  unfold State.linkEvent
  exact ((Only.refl p false attKeys s).record (fun _ h => h) _).fw

theorem get_setLstate_same (p : Part) (n st : Nat) (s : State) : (s.setLstate p n st).get p (Rg.LINK_LSTATE n) = st % 2 ^ 3 := by
  rw [State.setLstate, State.get_modLink, State.get_put_same]
  rfl

theorem get_setLstate_ne {p : Part} {n st : Nat} {f : Machine.Field} (h : f.key ≠ (Rg.LINK_LSTATE n).key) (s : State) : (s.setLstate p n st).get p f = s.get p f := by
  rw [State.setLstate, State.get_modLink, State.get_put_ne _ h]

theorem link_setLstate (p : Part) (n st : Nat) (s : State) :
    (s.setLstate p n st).link p n = { s.link p n with enteredNow := s.now, clearRun := 0, heldNs := 0, heldFrom := none } := by
  rw [State.setLstate, link_modLink, link_put]

theorem fw_setLstate (p : Part) (n st : Nat) (s : State) : ((s.setLstate p n st).unit p).fw = (s.unit p).fw := by
  rw [State.setLstate, State.modLink, State.setLink_fw, State.unit_put_fw]

/-! At the active root a change of a downstream port selects no parent (R62, R64). -/

theorem get_reselect_root {f : Machine.Field} {s : State} (hrole : s.get .fd Rg.REFS_ROLE = 1) (h0 : f.key ≠ Rg.REFS_PARENT_0_QUAL.key) (h1 : f.key ≠ Rg.REFS_PARENT_1_QUAL.key) :
    s.reselect.get .fd f = s.get .fd f := by
  rw [reselect_root hrole, State.putFlag, State.putFlag, State.get_put_ne _ h1, State.get_put_ne _ h0]

theorem get_port_reselect_root {f : Machine.Field} {s : State} (hrole : s.get .fd Rg.REFS_ROLE = 1) (ho : 0x2000 ≤ f.off) (hl : decide (f.lo < 32) = true) :
    s.reselect.get .fd f = s.get .fd f :=
  get_reselect_root hrole (key_ne_of_off (by simp only [Rg.REFS_PARENT_0_QUAL]; omega) hl rfl) (key_ne_of_off (by simp only [Rg.REFS_PARENT_1_QUAL]; omega) hl rfl)

theorem link_reselect_root {s : State} (hrole : s.get .fd Rg.REFS_ROLE = 1) (n : Nat) : s.reselect.link .fd n = s.link .fd n := by
  rw [reselect_root hrole, link_putFlag, link_putFlag]

theorem fw_reselect_root {s : State} (hrole : s.get .fd Rg.REFS_ROLE = 1) : (s.reselect.unit .fd).fw = (s.unit .fd).fw := by
  rw [reselect_root hrole, State.putFlag, State.putFlag, State.unit_put_fw, State.unit_put_fw]

/-! A root's downstream port goes DOWN (R123, R136, R138). -/

section
variable {n : Nat} {s : State}

/-- LOSS_OF_SIGNAL (R116, R136). -/
theorem lossOfSignal_takes_down (hn : n < 64) (hrole : s.get .fd Rg.REFS_ROLE = 1) (hst : s.get .fd (Rg.LINK_LSTATE n) ≠ 0) :
    Gives (.lossOfSignal .fd n) s fun t => t.get .fd (Rg.LINK_LSTATE n) = 0 ∧ t.get .fd (Rg.LINK_DELAY n) = 2 ^ 32 - 1
        ∧ t.get .fd (Rg.LINK_LINK_OFFSET n) = 0x80000000 ∧ (t.link .fd n).txq = [] ∧ (t.link .fd n).out = [] := by
  obtain ⟨hdown, hdelay, hoff, htxq, hout, -, -⟩ := down_root hn hrole hst
  exact ⟨_, rfl, hdown, hdelay, hoff, htxq, hout⟩

/-- Out of TRAINING, RANGING or SUSPECT a link goes DOWN as a failure, which starts the backoff (R138). -/
theorem linkDown_root_failed (hn : n < 64) (hrole : s.get .fd Rg.REFS_ROLE = 1) (hst : s.get .fd (Rg.LINK_LSTATE n) ∈ [1, 2, 4]) :
    (s.linkDown .fd n).get .fd (Rg.LINK_LSTATE n) = 0 ∧ ((s.linkDown .fd n).link .fd n).fails = (s.link .fd n).fails + 1
      ∧ ((s.linkDown .fd n).link .fd n).backoffUntil = s.now + (if 8 ≤ (s.link .fd n).fails + 1 then 10000000000 else 100000000) := by
  obtain ⟨hne0, hne3⟩ : s.get .fd (Rg.LINK_LSTATE n) ≠ 0 ∧ s.get .fd (Rg.LINK_LSTATE n) ≠ 3 := by
    simp only [List.mem_cons, List.not_mem_nil, or_false] at hst
    omega
  obtain ⟨hdown, -, -, -, -, hfails, hback⟩ := down_root hn hrole hne0
  rw [if_neg hne3, if_pos hst] at hfails
  rw [if_pos hst] at hback
  exact ⟨hdown, hfails, hback⟩

/-- Without a hold a limit runs from the state's entry alone: once its length is over there is nothing to wait for (R113, R136). -/
theorem awaitNow_limitEnd {p : Part} {n ns : Nat} {s : State} (hheld : (s.link p n).heldNs = 0) (hfrom : (s.link p n).heldFrom = none)
    (hdue : (s.link p n).enteredNow + ns ≤ s.now) : s.awaitNow (s.limitEnd p n ns) = s := by
  have hend : s.limitEnd p n ns = (s.link p n).enteredNow + ns := by simp only [State.limitEnd, hheld, hfrom, Nat.add_zero]
  rw [hend, awaitNow_past hdue]

/-- TRAINING_TIMEOUT once 1,000 ms are over (R136, R138). -/
theorem trainingTimeout_fails (hn : n < 64) (hrole : s.get .fd Rg.REFS_ROLE = 1) (hst : s.get .fd (Rg.LINK_LSTATE n) = 1) (hhold : s.trainHold .fd n = false)
    (hheld : (s.link .fd n).heldNs = 0) (hfrom : (s.link .fd n).heldFrom = none) (hdue : (s.link .fd n).enteredNow + 1000000000 ≤ s.now) :
    Gives (.trainingTimeout .fd n) s fun t => t.get .fd (Rg.LINK_LSTATE n) = 0 ∧ (t.link .fd n).fails = (s.link .fd n).fails + 1
        ∧ (t.link .fd n).backoffUntil = s.now + (if 8 ≤ (s.link .fd n).fails + 1 then 10000000000 else 100000000) := by
  have hlst : s.lstate .fd n = 1 := hst
  have hpkg : isPkg .fd n = false := rfl
  refine ⟨s.linkDown .fd n, congrArg Host.Outcome.next ?_, linkDown_root_failed hn hrole (by simp [hst])⟩
  simp only [hlst, hhold, hpkg, decide_true, Bool.not_false, Bool.and_self, Bool.false_eq_true, if_true, if_false]
  rw [awaitNow_limitEnd hheld hfrom hdue]

/-- RANGING_TIMEOUT once 400 ms are over (R136, R138). -/
theorem rangingTimeout_fails (hn : n < 64) (hrole : s.get .fd Rg.REFS_ROLE = 1) (hst : s.get .fd (Rg.LINK_LSTATE n) = 2) (hhold : s.rangeHold .fd n = false)
    (hheld : (s.link .fd n).heldNs = 0) (hfrom : (s.link .fd n).heldFrom = none) (hdue : (s.link .fd n).enteredNow + 400000000 ≤ s.now) :
    Gives (.rangingTimeout .fd n) s fun t => t.get .fd (Rg.LINK_LSTATE n) = 0 ∧ (t.link .fd n).fails = (s.link .fd n).fails + 1
        ∧ (t.link .fd n).backoffUntil = s.now + (if 8 ≤ (s.link .fd n).fails + 1 then 10000000000 else 100000000) := by
  have hlst : s.lstate .fd n = 2 := hst
  refine ⟨s.linkDown .fd n, congrArg Host.Outcome.next ?_, linkDown_root_failed hn hrole (by simp [hst])⟩
  simp only [hlst, hhold, decide_true, Bool.not_false, Bool.and_self, if_true]
  rw [awaitNow_limitEnd hheld hfrom hdue]

/-- SUSPECT_TIMEOUT once 100 ms are over, where RESIDUE is not the one cause (R136). -/
theorem suspectTimeout_fails (hn : n < 64) (hrole : s.get .fd Rg.REFS_ROLE = 1) (hst : s.get .fd (Rg.LINK_LSTATE n) = 4) (hcause : s.get .fd (Rg.LINK_SUSPECT_CAUSE n) ≠ 8)
    (hdue : (s.link .fd n).enteredNow + 100000000 ≤ s.now) :
    Gives (.suspectTimeout .fd n) s fun t => t.get .fd (Rg.LINK_LSTATE n) = 0 ∧ (t.link .fd n).fails = (s.link .fd n).fails + 1 := by
  have hlst : s.lstate .fd n = 4 := hst
  obtain ⟨hdown, hfails, -⟩ := linkDown_root_failed hn hrole (by simp [hst])
  refine ⟨s.linkDown .fd n, congrArg Host.Outcome.next ?_, hdown, hfails⟩
  rw [if_pos (by simp [hlst, hcause]), awaitNow_past hdue]

/-- With RESIDUE as the one cause SUSPECT has no limit (R136). -/
theorem suspectTimeout_of_residue {p : Part} {n : Nat} {s : State} (hcause : s.get p (Rg.LINK_SUSPECT_CAUSE n) = 8) : exec (.suspectTimeout p n) s = Host.Outcome.next s :=
  congrArg Host.Outcome.next (if_neg (by simp [hcause]))

/-! A downstream port with signal trains (R111, R136). -/

/-- What a unit's wake from the ladder leaves: the links, the time and the links' registers (R385). -/
theorem wake_keeps_links (p : Part) {u : Nat} (hu : u < 5) (k : Nat) (s : State) :
    (∀ n, (s.wake p u k).link p n = s.link p n) ∧ (s.wake p u k).now = s.now
      ∧ ∀ f : Machine.Field, f.off < 0xB000 → decide (f.lo < 32) = true → (s.wake p u k).get p f = s.get p f := by
  obtain ⟨-, -, hnow, hunit, hregs⟩ := wake_lad p hu k s
  refine ⟨fun n => ?_, hnow, fun f ho hl => hregs p f ?_⟩
  · unfold State.link
    rw [hunit p]
  · simp only [decide_eq_true_eq] at hl
    unfold ladKey Machine.Field.key
    omega

/-- SIGNAL_DETECT at a downstream port whose backoff is over and whose lane is sound (R120, R123, R136). -/
theorem signalDetect_trains {far : Bool} (hn : n < 64) (hst : s.get .fd (Rg.LINK_LSTATE n) = 0) (hen : s.portEnabled .fd n = true) (hon : s.fd.start.on = true)
    (hback : (s.link .fd n).backoffUntil ≤ s.now) (hfault : (s.link .fd n).faulty = false) :
    Gives (.signalDetect .fd n far) s fun t => t.get .fd (Rg.LINK_LSTATE n) = 1 ∧ (t.link .fd n).enteredNow = s.now ∧ (t.link .fd n).nextLseq = 0
        ∧ (t.link .fd n).rxNext = 0 ∧ (t.link .fd n).payCur = min 38 (s.get .fd (Rg.LINK_PAY_CW n))
        ∧ (t.link .fd n).precode = (far && s.flag .fd (Rg.LINK_PRECODE_ALLOW n)) := by
  refine ⟨_, rfl, ?_⟩
  have hlst : s.lstate .fd n = 0 := hst
  have hpos : s.hasPosition .fd n = true := by simp only [State.hasPosition, decide_eq_true_eq]; omega
  have hused : s.posUsed .fd n = true := by simp [State.posUsed, hn]
  have hpkg : isPkg .fd n = false := rfl
  have hgov : ∀ w : State, w.governs .fd n = true := fun w => by simp [State.governs, hn]
  obtain ⟨hlink, hnow, hget⟩ := wake_keeps_links .fd (u := 3) (by decide) n s
  have hpay := hget (Rg.LINK_PAY_CW n) (by simp only [Rg.LINK_PAY_CW]; omega) rfl
  have hallow := hget (Rg.LINK_PRECODE_ALLOW n) (by simp only [Rg.LINK_PRECODE_ALLOW]; omega) rfl
  simp only [hlst, hpos, hused, hen, State.unit_fd, hon, hpkg, hgov, awaitNow_past hback, bne_self_eq_false, Bool.not_true, Bool.or_self, Bool.false_eq_true, if_false, if_true,
    link_modLink, link_setLstate, hlink, hfault, Bool.false_and, Bool.not_false, Bool.and_true, State.get_modLink, get_setLstate_same, hnow, hpay, State.flag, hallow, and_true]
  rfl

/-! SUSPECT entered and left at a root's downstream port (R113, R135 to R137). -/

/-- SUSPECT_CLEAR after 64 clear beats (R113, R136). -/
theorem suspectClear_aligns (hn : n < 64) (hrole : s.get .fd Rg.REFS_ROLE = 1) (hst : s.get .fd (Rg.LINK_LSTATE n) = 4) (hrun : 64 ≤ (s.link .fd n).clearRun) :
    Gives (.suspectClear .fd n) s fun t => t.get .fd (Rg.LINK_LSTATE n) = 3 ∧ t.get .fd (Rg.LINK_SUSPECT_CAUSE n) = 0 ∧ t.get .fd (Rg.LINK_CHANNEL_RANGE n) = 0
        ∧ t.link .fd n = { s.link .fd n with enteredNow := s.now, clearRun := 0, heldNs := 0, heldFrom := none } := by
  have hlst : s.lstate .fd n = 4 := hst
  generalize hu : (((s.setLstate .fd n 3).put .fd (Rg.LINK_SUSPECT_CAUSE n) 0).put .fd (Rg.LINK_CHANNEL_RANGE n) 0).linkEvent .fd n 3 0 = u
  have hurole : u.get .fd Rg.REFS_ROLE = 1 := by
    rw [← hu, get_linkEvent_of_off _ (by decide) rfl, State.get_put_ne _ (key_ne_of_off (by simp only [Rg.REFS_ROLE, Rg.LINK_CHANNEL_RANGE]; omega) rfl rfl),
      State.get_put_ne _ (key_ne_of_off (by simp only [Rg.REFS_ROLE, Rg.LINK_SUSPECT_CAUSE]; omega) rfl rfl),
      get_setLstate_ne (key_ne_of_off (by simp only [Rg.REFS_ROLE, Rg.LINK_LSTATE]; omega) rfl rfl), hrole]
  have hget : ∀ f : Machine.Field, f.off = 0x2004 + 32 * n → decide (f.lo < 32) = true →
      u.reselect.get .fd f = (((s.setLstate .fd n 3).put .fd (Rg.LINK_SUSPECT_CAUSE n) 0).put .fd (Rg.LINK_CHANNEL_RANGE n) 0).get .fd f := fun f ho hl => by
    rw [get_port_reselect_root hurole (by omega) hl, ← hu, get_linkEvent_of_off _ (by omega) hl]
  refine ⟨u.reselect, congrArg Host.Outcome.next ?_, ?_, ?_, ?_, ?_⟩
  · rw [if_pos (by simp [hlst, hrun])]
    simp only [prNot hn, hu, Bool.false_eq_true, if_false]
  · rw [hget _ rfl rfl, State.get_put_ne _ (key_ne_of_lo (by rfl) (by rfl)), State.get_put_ne _ (key_ne_of_lo (by rfl) (by rfl)), get_setLstate_same]
    rfl
  · rw [hget _ rfl rfl, State.get_put_ne _ (key_ne_of_lo (by rfl) (by rfl)), State.get_put_same]
    rfl
  · rw [hget _ rfl rfl, State.get_put_same]
    rfl
  · rw [link_reselect_root hurole, ← hu, link_event, link_put, link_put, link_setLstate]

/-- A port's medium rests on the stored calibration, the module, the firmware's state and two fields (R379). -/
theorem optical_congr_of_module {p : Part} {n : Nat} {s t : State} (hcal : (t.link p n).storedCal = (s.link p n).storedCal) (hhere : (t.link p n).moduleHere = (s.link p n).moduleHere)
    (hfw : (t.unit p).fw = (s.unit p).fw) (hdef : t.get p Rg.START_START_DEFAULTS = s.get p Rg.START_START_DEFAULTS)
    (hmed : t.get p (Rg.LINK_MEDIUM n) = s.get p (Rg.LINK_MEDIUM n)) : t.optical p n = s.optical p n := by
  unfold State.optical State.flag
  rw [hcal, hhere, hfw, hdef, hmed]

/-- The link as it enters SUSPECT (R136, R137). -/
def suspectLink (ht32 now : Nat) (l : Machine.Link) : Machine.Link := { l with enteredNow := now, clearRun := 0, heldNs := 0, heldFrom := none, leftHt32 := ht32 }

/-- A cause found at a root's ALIGNED downstream port: SUSPECT with the cause's bit, its entry noted at the link, the port's medium as it was (R137). -/
theorem suspect_root (hn : n < 64) (hrole : s.get .fd Rg.REFS_ROLE = 1) (hst : s.get .fd (Rg.LINK_LSTATE n) = 3) (cause : Nat) :
    (s.suspect .fd n cause).get .fd (Rg.LINK_LSTATE n) = 4
      ∧ (s.suspect .fd n cause).get .fd (Rg.LINK_SUSPECT_CAUSE n) = setBit (s.get .fd (Rg.LINK_SUSPECT_CAUSE n)) cause % 2 ^ 4
      ∧ (s.suspect .fd n cause).link .fd n = suspectLink (s.ht32 .fd) s.now (s.link .fd n)
      ∧ (s.suspect .fd n cause).optical .fd n = s.optical .fd n := by
  have hlst : s.lstate .fd n = 3 := hst
  generalize hc : setBit (s.get .fd (Rg.LINK_SUSPECT_CAUSE n)) cause = c
  generalize hu : ((((s.put .fd (Rg.LINK_SUSPECT_CAUSE n) c).setLstate .fd n 4).linkEvent .fd n 2 0).modLink .fd n fun l => { l with leftHt32 := s.ht32 .fd }) = u
  have heq : s.suspect .fd n cause = u.reselect := by
    unfold State.suspect
    simp only [hlst, prNot hn, hc, hu, Bool.false_eq_true, if_false, if_true]
  have huget : ∀ f : Machine.Field, f.off < 0x7000 ∨ 0x7600 ≤ f.off → decide (f.lo < 32) = true →
      u.get .fd f = ((s.put .fd (Rg.LINK_SUSPECT_CAUSE n) c).setLstate .fd n 4).get .fd f := fun f ho hl => by
    rw [← hu, State.get_modLink, get_linkEvent_of_off _ ho hl]
  have huother : ∀ f : Machine.Field, (f.off < 0x7000 ∨ 0x7600 ≤ f.off) ∧ f.off ≠ 0x2004 + 32 * n → decide (f.lo < 32) = true → u.get .fd f = s.get .fd f := fun f ho hl => by
    rw [huget f ho.1 hl, get_setLstate_ne (key_ne_of_off ho.2 hl rfl), State.get_put_ne _ (key_ne_of_off ho.2 hl rfl)]
  have hurole : u.get .fd Rg.REFS_ROLE = 1 := (huother _ (by simp only [Rg.REFS_ROLE]; omega) rfl).trans hrole
  have hlink : u.reselect.link .fd n = suspectLink (s.ht32 .fd) s.now (s.link .fd n) := by
    rw [link_reselect_root hurole, ← hu, link_modLink, link_event, link_setLstate, link_put, State.put_now]
    rfl
  rw [heq]
  refine ⟨?_, ?_, hlink, optical_congr_of_module (by rw [hlink]; rfl) (by rw [hlink]; rfl) ?_ ?_ ?_⟩
  · rw [get_port_reselect_root hurole (by simp only [Rg.LINK_LSTATE]; omega) rfl, huget _ (by simp only [Rg.LINK_LSTATE]; omega) rfl, get_setLstate_same]
    rfl
  · rw [get_port_reselect_root hurole (by simp only [Rg.LINK_SUSPECT_CAUSE]; omega) rfl, huget _ (by simp only [Rg.LINK_SUSPECT_CAUSE]; omega) rfl, get_setLstate_ne (key_ne_of_lo (by rfl) (by rfl)),
      State.get_put_same]
    rfl
  · rw [fw_reselect_root hurole, ← hu, State.modLink, State.setLink_fw, fw_linkEvent, fw_setLstate, State.unit_put_fw]
  · rw [get_port_reselect_root hurole (by decide) rfl, huother _ (by simp only [Rg.START_START_DEFAULTS]; omega) rfl]
  · rw [get_port_reselect_root hurole (by simp only [Rg.LINK_MEDIUM]; omega) rfl, huother _ (by simp only [Rg.LINK_MEDIUM]; omega) rfl]

/-- RESIDUE_EXCEEDED at an electrical port that does not calibrate: SUSPECT with RESIDUE, and a run is asked for (R132, R135, R137). -/
theorem residueExceeded_suspects (hn : n < 64) (hrole : s.get .fd Rg.REFS_ROLE = 1) (hst : s.get .fd (Rg.LINK_LSTATE n) = 3) (hrun : 64 ≤ (s.link .fd n).residRun)
    (hcal : (s.link .fd n).calRun = none) (hmed : s.optical .fd n = false) :
    Gives (.residueExceeded .fd n) s fun t => t.get .fd (Rg.LINK_LSTATE n) = 4 ∧ t.get .fd (Rg.LINK_SUSPECT_CAUSE n) = setBit (s.get .fd (Rg.LINK_SUSPECT_CAUSE n)) 3 % 2 ^ 4
        ∧ t.get .fd (Rg.LINK_CAL_REQUIRED n) = 1 ∧ (t.link .fd n).calWant = true := by
  obtain ⟨hst4, hcause, hlink, hmed'⟩ := suspect_root hn hrole hst 3
  generalize hu : ((s.suspect .fd n 3).put .fd (Rg.LINK_CAL_REQUIRED n) 1).linkEvent .fd n 4 0 = u
  have hulink : u.link .fd n = suspectLink (s.ht32 .fd) s.now (s.link .fd n) := by rw [← hu, link_event, link_put, hlink]
  have huget : ∀ f : Machine.Field, f.off < 0x7000 ∨ 0x7600 ≤ f.off → decide (f.lo < 32) = true →
      u.get .fd f = ((s.suspect .fd n 3).put .fd (Rg.LINK_CAL_REQUIRED n) 1).get .fd f := fun f ho hl => by
    rw [← hu, get_linkEvent_of_off _ ho hl]
  have humed : u.optical .fd n = false := by
    rw [← hmed, ← hmed']
    refine optical_congr (by rw [hulink, hlink]) ?_ ?_ ?_
    · rw [← hu, fw_linkEvent, State.unit_put_fw]
    · rw [huget _ (by simp only [Rg.START_START_DEFAULTS]; omega) rfl, State.get_put_ne _ (key_ne_of_off (by simp only [Rg.START_START_DEFAULTS, Rg.LINK_CAL_REQUIRED]; omega) rfl rfl)]
    · rw [huget _ (by simp only [Rg.LINK_MEDIUM]; omega) rfl, State.get_put_ne _ (key_ne_of_off (by simp only [Rg.LINK_MEDIUM, Rg.LINK_CAL_REQUIRED]; omega) rfl rfl)]
  have hup : s.linkUp .fd n = true := by simp [State.linkUp, State.lstate, hst]
  have hidle : (isPkg .fd n || u.optical .fd n || (u.link .fd n).calRun.isSome) = false := by simp [isPkg, humed, hulink, suspectLink, hcal]
  refine ⟨u.wantCal .fd n, congrArg Host.Outcome.next ?_, ?_, ?_, ?_, ?_⟩
  · rw [if_pos (by simp [hup, hrun])]
    simp only [hu, hidle, Bool.false_eq_true, if_false]
  · rw [State.wantCal, State.get_modLink, huget _ (by simp only [Rg.LINK_LSTATE]; omega) rfl, State.get_put_ne _ (key_ne_of_lo (by rfl) (by rfl)), hst4]
  · rw [State.wantCal, State.get_modLink, huget _ (by simp only [Rg.LINK_SUSPECT_CAUSE]; omega) rfl, State.get_put_ne _ (key_ne_of_lo (by rfl) (by rfl)), hcause]
  · rw [State.wantCal, State.get_modLink, huget _ (by simp only [Rg.LINK_CAL_REQUIRED]; omega) rfl, State.get_put_same]
    rfl
  · rw [State.wantCal, link_modLink]

/-! Backoff and retransmission (R123, R138). -/

/-- LINK_BACKOFF_END: no earlier than the backoff's end, and only the backoff of the link is cleared (R138). -/
theorem linkBackoffEnd_clears (p : Part) (n : Nat) (s : State) :
    Gives (.linkBackoffEnd p n) s fun t => (s.link p n).backoffUntil ≤ t.now ∧ t.link p n = { s.link p n with backoffUntil := 0 } := by
  refine ⟨_, rfl, ?_, ?_⟩
  · rw [State.modLink, State.now_setLink]
    exact awaitNow_le ..
  · rw [link_modLink, link_of_waits (Waits.awaitNow _ s)]

/-- RETRANSMIT_TIMEOUT: the link resends from its oldest unacknowledged word (R123). -/
theorem retransmitTimeout_resends {p : Part} {n : Nat} {s : State} {w : Machine.Sent} {l : List Machine.Sent} (hout : (s.link p n).out = w :: l) (hup : s.linkUp p n = true) :
    Gives (.retransmitTimeout p n) s fun t => t.link p n = { s.link p n with resend := some w.lseq } := by
  refine ⟨(s.awaitBeat p (w.beat + (s.link p n).retxBeats)).modLink p n fun l => { l with resend := some w.lseq }, congrArg Host.Outcome.next ?_, ?_⟩
  · simp only [hout, hup, if_true]
  · change State.link p n _ = _
    rw [link_modLink, link_of_waits (Waits.awaitBeat p _ s)]

/-! The return from core holdover and steering (R129, R137, R141). -/

/-- STEP_CORE_HOLDOVER_RETURN after 16 near beats of an ALIGNED source (R141). -/
theorem stepCoreHoldoverReturn_returns (hhold : s.die.coreHold = true) (hrun : 16 ≤ s.die.holdRun) (hst : s.get .sc (Rg.LINK_LSTATE s.die.timePort) = 3) :
    Gives .stepCoreHoldoverReturn s fun t => t.get .sc Rg.HT_UNALIGNED = 0 ∧ t.get .sc Rg.HT_ALIGNED = 1
        ∧ t.get .sc Rg.HT_HOLDOVER = ofBool (s.link .sc s.die.timePort).far.holdover ∧ t.die = { s.die with coreHold := false, holdRun := 0 } ∧ t.sc.clock.slewRate = 0 := by
  generalize hfar : (s.link .sc s.die.timePort).far.holdover = far
  generalize hu : ((s.put .sc Rg.HT_UNALIGNED 0).put .sc Rg.HT_ALIGNED 1).putFlag .sc Rg.HT_HOLDOVER far = u
  have hget : ∀ (c : Clock) (d : Die) (f : Machine.Field), ((u.setUnit .sc { u.sc with clock := c }).setDie d).get .sc f = u.get .sc f := fun _ _ _ => rfl
  have hudie : u.die = s.die := by rw [← hu, State.putFlag, State.put_die, State.put_die, State.put_die]
  refine ⟨(u.setUnit .sc { u.sc with clock := { u.sc.clock with slewRate := 0 } }).setDie { s.die with coreHold := false, holdRun := 0 }, congrArg Host.Outcome.next ?_, ?_, ?_, ?_,
    rfl, rfl⟩
  · rw [if_pos (by simp [hhold, hrun, State.lstate, hst]), hfar, hu, ← hudie]
    rfl
  · rw [hget, ← hu, State.putFlag, State.get_put_ne _ (by decide), State.get_put_ne _ (by decide), State.get_put_same]
    rfl
  · rw [hget, ← hu, State.putFlag, State.get_put_ne _ (by decide), State.get_put_same]
    rfl
  · rw [hget, ← hu, State.putFlag, State.get_put_same]
    cases far <;> rfl

/-- The corrections counted since the last steering leave what steering in SUSPECT goes by: the exchanges, a reversal, the link's state (R129, R133). -/
theorem countApplied_of_waits {u : State} (hw : Waits s u) (p : Part) (beats k : Nat) :
    ((u.countApplied p beats).link p k).exch = (s.link p k).exch ∧ ((u.countApplied p beats).link p k).heldModel = (s.link p k).heldModel
      ∧ ∀ f : Machine.Field, ¬ timeKeys f.key → (u.countApplied p beats).get p f = s.get p f := by
  obtain ⟨hexch, hheld, hget⟩ := counts_spec p beats u k
  rw [link_of_waits hw] at hexch hheld
  exact ⟨hexch, hheld, fun f hf => (hget f).trans (hw.get p f hf)⟩

/-- A unit that tracks its first parent steers by port 64 (R130). -/
theorem steerPort_of_tracking (hst : s.get .fd Rg.REFS_SEL_STATE = 2) (hsel : s.get .fd Rg.REFS_SELECTED = 3) : s.steerPort .fd = some 64 := by
  simp [State.steerPort, hst, hsel]

/-- STEER_BEAT with the source in SUSPECT: the fitted rate, within ±200 ppm, and no phase correction (R45, R129, R137). -/
theorem steerBeat_keeps_rate (hst : s.get .fd Rg.REFS_SEL_STATE = 2) (hsel : s.get .fd Rg.REFS_SELECTED = 3) (hlst : s.get .fd (Rg.LINK_LSTATE 64) = 4)
    (hexch : (s.link .fd 64).exch ≠ []) (h64 : (s.link .fd 64).heldModel = false) (h65 : (s.link .fd 65).heldModel = false) :
    Gives (.steerBeat .fd) s fun t => t.fd.clock.rate = clampInt (-200000000000) 200000000000 (beatToRate (-(fitLine (s.link .fd 64).exch).2)) := by
  have hw := Waits.periodic .fd 10 1 0 s
  have hport : (s.periodic .fd 10 1 0).steerPort .fd = some 64 :=
    steerPort_of_tracking ((hw.get _ _ (by unfold timeKeys; decide)).trans hst) ((hw.get _ _ (by unfold timeKeys; decide)).trans hsel)
  refine ⟨_, rfl, ?_⟩
  simp only [steerPort_of_tracking hst hsel, Option.isSome_some, if_true]
  generalize s.periodic .fd 10 1 0 = u at hw hport ⊢
  have hexch' : ∀ beats, ((u.countApplied .fd beats).link .fd 64).exch = (s.link .fd 64).exch := fun beats => (countApplied_of_waits hw .fd beats 64).1
  have hlst' : ∀ beats, (u.countApplied .fd beats).lstate .fd 64 = 4 := fun beats => by
    obtain ⟨-, -, hget⟩ := countApplied_of_waits hw .fd beats 64
    exact (hget _ (by unfold timeKeys; decide)).trans hlst
  have hfree : ∀ beats, (u.countApplied .fd beats).reversing = false := fun beats => by
    obtain ⟨-, hheld64, -⟩ := countApplied_of_waits hw .fd beats 64
    obtain ⟨-, hheld65, -⟩ := countApplied_of_waits hw .fd beats 65
    rw [State.reversing, hheld64, hheld65, h64, h65]
    rfl
  have hsome : (s.link .fd 64).exch.isEmpty = false := by simpa using hexch
  simp only [hport, hexch', hlst', hfree, hsome, Bool.and_false, Bool.or_false, Bool.false_eq_true, if_false]
  rfl

end

/-- Settles O10, each clause by the lemma on its command. -/
theorem linksTrainAndFail : Obligations.LinksTrainAndFail := by
  unfold Obligations.LinksTrainAndFail
  exact ⟨fun _ _ hn hrole hst => lossOfSignal_takes_down hn hrole hst,
    fun _ _ hn hrole hst hhold hheld hfrom hdue => trainingTimeout_fails hn hrole hst hhold hheld hfrom hdue,
    fun _ _ hn hrole hst hhold hheld hfrom hdue => rangingTimeout_fails hn hrole hst hhold hheld hfrom hdue,
    fun _ _ hn hrole hst _ hcause hdue => suspectTimeout_fails hn hrole hst hcause hdue,
    fun _ _ _ _ hcause => suspectTimeout_of_residue hcause,
    fun _ _ _ hn hst hen hon hback hfault => signalDetect_trains hn hst hen hon hback hfault,
    fun _ _ hn hrole hst hrun => suspectClear_aligns hn hrole hst hrun,
    fun _ _ hn hrole hst hrun hcal hmed => residueExceeded_suspects hn hrole hst hrun hcal hmed,
    fun p n s => linkBackoffEnd_clears p n s,
    fun _ _ _ _ _ hout hup => retransmitTimeout_resends hout hup,
    fun _ hhold hrun hst => stepCoreHoldoverReturn_returns hhold hrun hst,
    fun _ hst hsel hlst hexch h64 h65 => steerBeat_keeps_rate hst hsel hlst hexch h64 h65⟩

end Sys2Proof.Proofs

/-! PROOFS. O12: heartbeats, losses of reference, strobes and operating points. -/

namespace Sys2Proof.Proofs

open Sys2Proof Sys2Proof.Machine Sys2Proof.Cmds

-- One proof after another, as in the tests: side by side, the proofs of the joined text keep more stacks alive than the check's memory holds.
set_option Elab.async false

/-! The hub's heartbeat (R151, R153). -/

/-- The round trip of one station moves neither the words on the wire nor the hub's own state. -/
theorem hbTurn_keeps (c : Prop) [Decidable c] (n trip : Nat) (s : State) :
    (∀ k, ((if c then s.hbMeasure n trip else s).stn k).word = (s.stn k).word) ∧ (if c then s.hbMeasure n trip else s).die.sync = s.die.sync := by
  split
  · exact ⟨fun k => hbMeasure_word n k trip s, (hbMeasure_sync n trip s).1⟩
  · exact ⟨fun _ => rfl, rfl⟩

theorem heartbeatSend_sends {trip n b : Nat} {s : State} (hb : s.htNs .sc / 64 * 64 = b) (hrun : s.die.running = true) (hnew : s.die.sync.lastHb ≠ some b)
    (hn : n < s.die.stations) (hsent : SMap.get 0 n s.die.hbOmit = 0) :
    Gives (.heartbeatSend trip) s fun t => (t.stn n).word.ht = b ∧ (t.stn n).word.idx = b / 64 % 16
      ∧ t.die.sync = { s.die.sync with lastHb := some b, turn := if s.die.sync.turn + 1 < s.die.stations then s.die.sync.turn + 1 else 0 } := by
  refine ⟨_, if_neg (by simp [hb, hrun, hnew]), ?_⟩
  rw [hb]
  obtain ⟨x, o, hdue⟩ := StnOpp.due b s
  obtain ⟨-, hsync, -, -, hwords⟩ := hbWords b n (List.range s.die.stations) (s.oppDue b) (by rw [hdue]; exact hsent)
  obtain ⟨hht, hidx⟩ := hwords (.inl (List.mem_range.2 hn))
  generalize (List.range s.die.stations).foldl (fun t k => t.hbWord b k) (s.oppDue b) = u at hsync hht hidx
  obtain ⟨hword, hturn⟩ := hbTurn_keeps (s.die.sync.turn < s.die.stations) s.die.sync.turn trip u
  refine ⟨(congrArg HbWord.ht (hword n)).trans hht, (congrArg HbWord.idx (hword n)).trans hidx, ?_⟩
  rw [hturn, hsync, hdue]
  rfl

/-! Losses of reference (R159). -/

/-- A heartbeat missed at a station that is clocked: the count and the run of misses, before a loss is told (R159). -/
theorem missed_spec (n : Nat) (es : List Nat) (s : State) {u : State} (hu : u = ((s.stnEdges n es).bump .sc (Rg.STN_HB_MISS n)).copyLost n (s.stn n).word) :
    u.stn n = (s.stn n).edges (s.period n) es ∧ u.get .sc (Rg.STN_HB_MISS n) = sat 8 (s.get .sc (Rg.STN_HB_MISS n) + 1)
      ∧ u.get .sc (Rg.STN_RT_UNREL n) = s.get .sc (Rg.STN_RT_UNREL n) ∧ u.get .sc (Rg.STN_LOSS_CAUSE n) = s.get .sc (Rg.STN_LOSS_CAUSE n) := by
  have hev := copyLost_ev n (s.stn n).word ((s.stnEdges n es).bump .sc (Rg.STN_HB_MISS n))
  rw [← hu] at hev
  refine ⟨?_, ?_, ?_, ?_⟩
  · rw [hev.stn, State.bump, stn_put, stnEdges_stn]
  · rw [hev.get, get_bump, edges_get]
    rfl
  · rw [hev.get, get_bump_ne _ key_ne_of_lo, edges_get]
  · rw [hev.get, get_bump_ne _ key_ne_of_lo, edges_get]

section
variable {n : Nat} {es : List Nat} {s : State}

theorem heartbeatMissing_counts (hlive : s.stnLive n = true) (hfirst : ((s.stn n).edges (s.period n) es).missRun = 0) :
    Gives (.heartbeatMissing n es) s fun t => t.get .sc (Rg.STN_HB_MISS n) = sat 8 (s.get .sc (Rg.STN_HB_MISS n) + 1) ∧ (t.stn n).missRun = 1 ∧ (t.stn n).goodRun = 0
        ∧ t.get .sc (Rg.STN_RT_UNREL n) = s.get .sc (Rg.STN_RT_UNREL n) := by
  refine ⟨_, if_neg (by simp [hlive]), ?_⟩
  dsimp only
  generalize hu : ((s.stnEdges n es).bump .sc (Rg.STN_HB_MISS n)).copyLost n (s.stn n).word = u
  obtain ⟨hstn, hmiss, hunrel, -⟩ := missed_spec n es s hu.symm
  rw [hstn, hfirst, if_neg (by decide)]
  refine ⟨?_, ?_, ?_, ?_⟩
  · rw [State.get_setStn, hmiss]
  · rw [stn_setStn]
  · rw [stn_setStn]
  · rw [State.get_setStn, hunrel]

theorem heartbeatMissing_loses (hlive : s.stnLive n = true) (hrun : 1 ≤ ((s.stn n).edges (s.period n) es).missRun) :
    Gives (.heartbeatMissing n es) s fun t => t.get .sc (Rg.STN_RT_UNREL n) = 1 ∧ t.get .sc (Rg.STN_LOSS_CAUSE n) = setBit (s.get .sc (Rg.STN_LOSS_CAUSE n)) 0 % 4 := by
  refine ⟨_, if_neg (by simp [hlive]), ?_⟩
  dsimp only
  generalize hu : ((s.stnEdges n es).bump .sc (Rg.STN_HB_MISS n)).copyLost n (s.stn n).word = u
  obtain ⟨hstn, -, -, hcause⟩ := missed_spec n es s hu.symm
  rw [hstn, if_pos (by omega)]
  obtain ⟨hunrel, hloss⟩ := stnLoss_spec n 0 (u.setStn n { (s.stn n).edges (s.period n) es with missRun := ((s.stn n).edges (s.period n) es).missRun + 1, goodRun := 0 })
  rw [State.get_setStn, hcause] at hloss
  exact ⟨hunrel, hloss⟩

theorem regionClockMissing_loses (hlive : s.stnLive n = true) :
    Gives (.regionClockMissing n) s fun t => t.get .sc (Rg.STN_RT_UNREL n) = 1 ∧ t.get .sc (Rg.STN_LOSS_CAUSE n) = setBit (s.get .sc (Rg.STN_LOSS_CAUSE n)) 1 % 4 := by
  refine ⟨_, if_neg (by simp [hlive]), ?_⟩
  have hget : ∀ f : Machine.Field, (if (s.stn n).clkLost then s.stnLoss n 1 else (s.stnLoss n 1).hbControl n).get .sc f = (s.stnLoss n 1).get .sc f := fun f => by
    split
    · rfl
    · exact hbControl_get ..
  dsimp only
  rw [hget, hget]
  exact stnLoss_spec n 1 s

end

/-! Strobes (R163, R164). -/

/-- Region edges move a station's time, its pending correction and its slip (R155). -/
theorem edges_moves_time (period : Nat) (es : List Nat) (x : Machine.Station) :
    ∃ c r l, x.edges period es = { x with pending := c, rt := r, slip := l } := by
  unfold Station.edges
  induction es generalizing x with
  | nil => exact ⟨x.pending, x.rt, x.slip, rfl⟩
  | cons e es ih =>
    obtain ⟨c, r, l, h⟩ := ih (x.edge period e)
    exact ⟨c, r, l, h⟩

/-- A launch adds to a station's debt (R163, R165). -/
theorem stn_launch (n target src : Nat) (s : State) : ∃ d, (s.launch n target src).2.stn n = { s.stn n with debtSum := d } := by
  unfold State.launch
  dsimp only
  split
  · exact ⟨_, by rw [stnRecord_stn, State.bump, stn_put, stn_put, stn_setStn]⟩
  · exact ⟨_, by rw [stn_put, stn_setStn]⟩

theorem strobeFire_pulses {n k : Nat} {es : List Nat} {x : Machine.Target} {l : List Machine.Target} {s : State} (hlive : s.stnLive n = true) (hk : k < 8)
    (htargets : SMap.get [] k (s.stn n).targets = x :: l) (hreach : ((s.stn n).edges (s.period n) es).reached x.ht = true) (hbell : s.get .sc (Rg.STRB_SOURCE k) = 1)
    (hsrc : x.source = 1) (hjob : s.get .sc (Rg.STRB_JOB k) = x.job) (hen : bit (s.get .sc (Rg.STN_STROBE_EN n)) k = true) :
    Gives (.strobeFire n k es) s fun t => SMap.get 0 k (t.stn n).pulses = SMap.get 0 k (s.stn n).pulses + 1 ∧ SMap.get [] k (t.stn n).targets = l
        ∧ (t.stn n).strobeUnrel = s.flag .sc (Rg.STN_RT_UNREL n) ∧ (t.stn n).slip = 0 := by
  obtain ⟨c, r, m, hedges⟩ := edges_moves_time (s.period n) es (s.stn n)
  have htargets' : SMap.get [] k ((s.stn n).edges (s.period n) es).targets = x :: l := by rw [hedges]; exact htargets
  change ∃ t, execStrobeFire n k es s = .next t ∧ _
  unfold execStrobeFire
  simp only [hlive, stnEdges_stn, htargets', hreach, hbell, hsrc, hjob, hen, Nat.not_le.2 hk, Bool.not_true, Bool.false_eq_true, bne_self_eq_false, beq_self_eq_true, Bool.or_true, Bool.and_self, decide_false,
    Bool.or_self, if_false, Nat.reduceEqDiff, Bool.false_and]
  obtain ⟨d, hlaunch⟩ := stn_launch n x.ht 1 ((s.stnEdges n es).setStn n { (s.stn n).edges (s.period n) es with targets := SMap.set k l ((s.stn n).edges (s.period n) es).targets })
  rw [stn_setStn, hedges] at hlaunch
  refine ⟨_, rfl, ?_⟩
  rw [stn_setStn, hedges, hlaunch]
  exact ⟨SMap.get_set_same .., SMap.get_set_same .., rfl, rfl⟩

/-! Operating points (R170 to R173, R177). -/

/-- Fields of an array that lies below the mailboxes' control blocks. -/
theorem not_mbKeys_of_lt {f : Machine.Field} (ho : f.off < 0x8800) (hl : decide (f.lo < 32) = true := by rfl) : ¬ mbKeys f.key := by
  simp only [decide_eq_true_eq] at hl
  unfold mbKeys Machine.Field.key
  omega

section
variable {s : State}

/-- A switch that has become the pending one (R171, R172). -/
theorem oppPend_spec (w : OppSw) (s : State) : (s.oppPend w).get .sc Rg.OPS_PENDING = 1 ∧ (s.oppPend w).get .sc Rg.OPS_PENDING_TT = ofBool w.tt
    ∧ (s.oppPend w).get .sc Rg.OPS_NEXT = w.point % 16 ∧ (s.oppPend w).die.opp.pending = some w := by
  unfold State.oppPend
  refine ⟨?_, ?_, ?_, ?_⟩
  · rw [State.get_put_ne _ (by decide), State.get_put_ne _ (by decide), get_putFlag_ne _ (by decide), State.get_put_same]
    rfl
  · rw [State.get_put_ne _ (by decide), State.get_put_ne _ (by decide), get_putFlag_same]
  · rw [State.get_put_ne _ (by decide), State.get_put_same]
    rfl
  · simp only [State.putFlag, State.put_die]
    rfl

/-- The pending switch has ended. -/
theorem oppClear_spec (s : State) : s.oppClear.get .sc Rg.OPS_PENDING = 0 ∧ s.oppClear.die.opp.pending = none
    ∧ ∀ f : Machine.Field, f.key ≠ Rg.OPS_PENDING.key → f.key ≠ Rg.OPS_PENDING_TT.key → f.key ≠ Rg.OPS_NEXT.key → s.oppClear.get .sc f = s.get .sc f := by
  unfold State.oppClear
  refine ⟨?_, ?_, fun f h1 h2 h3 => ?_⟩
  · rw [State.get_put_ne _ (by decide), State.get_put_ne _ (by decide), State.get_put_same]
    rfl
  · simp only [State.put_die]
    rfl
  · rw [State.get_put_ne _ h3, State.get_put_ne _ h2, State.get_put_ne _ h1, State.get_setOpp]

/-- The first 64 ns boundary at least 8,192 ns ahead leaves the 4,096 ns that R171 asks for. -/
theorem oppLocalOk_at_boundary (hnone : s.die.opp.pending = none) : s.oppLocalOk (ceilDiv (s.htNs .sc + 8192) 64 * 64) = true := by
  have hahead : s.htNs .sc + 4096 ≤ ceilDiv (s.htNs .sc + 8192) 64 * 64 := by
    unfold ceilDiv
    omega
  simp [State.oppLocalOk, hnone, hahead]

theorem roleUp_put {p : Part} {f : Machine.Field} (hf : f.off < 0xA040) (hl : f.lo < 32) (v r : Nat) (s : State) : (s.put p f v).roleUp p r = s.roleUp p r := by
  refine roleUp_congr (fun i _ => ⟨State.get_put_ne _ ?_ _ _, State.get_put_ne _ ?_ _ _⟩) r
  · simp only [Machine.Field.key, Rg.PREF_ROLE]
    omega
  · simp only [Machine.Field.key, Rg.PREF_STATE]
    omega

theorem oppEvaluate_pends {temp : Int} {droop req i : Nat} {valid : Bool} (hup : s.roleUp .sc 1 = true) (hstage : 2 ≤ s.get .sc Rg.START_STAGE) (hguard : s.get .sc Rg.SUP_GUARD = 0)
    (hnone : s.die.opp.pending = none) (hchoice : ((s.put .sc Rg.SPIN_OPP_REQ req).putFlag .sc Rg.SPIN_OPP_REQ_VALID valid).choosePoint temp droop = some i) (hi : i < 16)
    (hnew : i ≠ s.get .sc Rg.OPS_CURRENT) :
    Gives (.oppEvaluate temp droop req valid) s fun t => t.get .sc Rg.OPS_PENDING = 1 ∧ t.get .sc Rg.OPS_NEXT = i ∧ t.get .sc Rg.OPS_PENDING_TT = 0
        ∧ t.die.opp.pending = some { point := i, at_ := ceilDiv (s.htNs .sc + 8192) 64 * 64, tt := false } := by
  change ∃ t, execOppEvaluate temp droop req valid s = .next t ∧ _
  unfold execOppEvaluate
  dsimp only
  generalize hu : (s.put .sc Rg.SPIN_OPP_REQ req).putFlag .sc Rg.SPIN_OPP_REQ_VALID valid = u at hchoice ⊢
  have hget : ∀ f : Machine.Field, f.key ≠ Rg.SPIN_OPP_REQ.key → f.key ≠ Rg.SPIN_OPP_REQ_VALID.key → u.get .sc f = s.get .sc f := fun f h1 h2 => by
    rw [← hu, get_putFlag_ne _ h2, State.get_put_ne _ h1]
  have hup' : u.roleUp .sc 1 = true := by rw [← hu, State.putFlag, roleUp_put (by decide) (by decide), roleUp_put (by decide) (by decide), hup]
  have hguard' : u.inGuard .sc = false := flag0 ((hget _ (by decide) (by decide)).trans hguard)
  have hns : u.htNs .sc = s.htNs .sc := by rw [← hu]; rfl
  have hok : u.oppLocalOk (ceilDiv (u.htNs .sc + 8192) 64 * 64) = true := oppLocalOk_at_boundary (by rw [← hu]; exact hnone)
  simp only [hchoice, hup', hguard', hok, hget _ (show Rg.START_STAGE.key ≠ Rg.SPIN_OPP_REQ.key by decide) (by decide), hget _ (show Rg.OPS_CURRENT.key ≠ Rg.SPIN_OPP_REQ.key by decide) (by decide),
    Nat.not_lt.2 hstage, hnew, decide_false, Bool.not_true, Bool.false_and, Bool.or_self, Bool.false_eq_true, if_false]
  rw [hns]
  obtain ⟨hpend, htt, hnext, hsw⟩ := oppPend_spec { point := i, at_ := ceilDiv (s.htNs .sc + 8192) 64 * 64, tt := false } u
  exact ⟨_, rfl, hpend, hnext.trans (Nat.mod_eq_of_lt hi), htt, hsw⟩

theorem pointValid_congr {i : Nat} {s t : State} (h : t.get .sc (Rg.OPE_PERIOD i) = s.get .sc (Rg.OPE_PERIOD i)) : t.pointValid i = s.pointValid i := by
  unfold State.pointValid
  rw [h]

theorem oppSwitch_pends {m : MbGo} (h : MbReady m 1 none 16 s) (hp : m.part = .sc) (hat : m.argAt [1, 8] 1 % 64 = 0) (hi : m.argAt [1, 8] 0 < 16)
    (hvalid : s.pointValid (m.argAt [1, 8] 0) = true) (hnone : s.die.opp.pending = none) (hahead : s.htNs .sc + 4096 ≤ m.argAt [1, 8] 1) (hguard : s.get .sc Rg.SUP_GUARD = 0) :
    Gives (.oppSwitch m) s fun t => Answered m 0 t ∧ t.get .sc Rg.OPS_PENDING = 1 ∧ t.get .sc Rg.OPS_NEXT = m.argAt [1, 8] 0
        ∧ t.die.opp.pending = some { point := m.argAt [1, 8] 0, at_ := m.argAt [1, 8] 1, tt := false } := by
  refine ⟨_, rfl, ?_⟩
  generalize hw : ({ point := m.argAt [1, 8] 0, at_ := m.argAt [1, 8] 1, tt := false } : OppSw) = w
  rw [scOnly_sc hp, mailbox_eq_answer (jobArg := none) h rfl (out := .ok []) (u := (s.mbSubmit m 0x11).oppPend w) ?body]
  case body =>
    unfold MbGo.argAt at hat hi hvalid hahead hw
    have hvalid' : (s.mbSubmit m 0x11).pointValid ((parseFields m.args 0 [1, 8]).getD 0 0) = true := by
      rw [pointValid_congr (get_sub h.box _ (not_mbKeys_of_lt (show 0x2C00 + 8 * _ < 0x8800 by omega)) .sc), hvalid]
    have hok : (s.mbSubmit m 0x11).oppLocalOk ((parseFields m.args 0 [1, 8]).getD 1 0) = true := by
      simp only [State.oppLocalOk, mbSubmit_die, hnone, htNs_mbSubmit, hahead, Option.isNone_none, decide_true, Bool.and_self]
    have hguard' : (s.mbSubmit m 0x11).inGuard .sc = false := by
      refine flag0 ((get_sub h.box _ ?_ .sc).trans hguard)
      unfold mbKeys
      decide
    simp only [hat, hvalid', hok, hguard', hw, bne_self_eq_false, Bool.not_true, Bool.or_self, Bool.false_and, Bool.false_eq_true, if_false]
  obtain ⟨hpend, -, hnext, hsw⟩ := oppPend_spec w (s.mbSubmit m 0x11)
  refine ⟨answered_ok .., ?_, ?_, ?_⟩
  · rw [get_ans h.box _ _ not_mbKeys_of_off, hpend]
  · rw [get_ans h.box _ _ not_mbKeys_of_off, hnext, ← hw]
    exact Nat.mod_eq_of_lt hi
  · rw [ans_ok, mbDone_die, hsw]

theorem oppCancelAll_keeps (w : OppSw) (s : State) : (∀ p f, (s.oppCancelAll w).get p f = s.get p f) ∧ (s.oppCancelAll w).die.opp = s.die.opp := by
  unfold State.oppCancelAll
  split
  · exact ⟨fun p f => hbQueueAll_get .., by rw [hbQueueAll_die]⟩
  · exact ⟨fun _ _ => rfl, rfl⟩

theorem oppCancel_ends {m : MbGo} {w : OppSw} (h : MbReady m 1 none 0 s) (hp : m.part = .sc) (hpend : s.die.opp.pending = some w) (htt : w.tt = false)
    (hahead : s.htNs .sc + 1024 ≤ w.at_) :
    Gives (.oppCancel m) s fun t => Answered m 0 t ∧ t.get .sc Rg.OPS_PENDING = 0 ∧ t.die.opp.pending = none := by
  refine ⟨_, rfl, ?_⟩
  rw [scOnly_sc hp, mailbox_eq_answer (jobArg := none) h rfl (out := .ok []) (u := ((s.mbSubmit m 0x12).oppCancelAll w).oppClear) ?body]
  case body =>
    simp only [mbSubmit_die, hpend, htt, htNs_mbSubmit, hahead, Bool.not_false, decide_true, Bool.and_self, if_true]
  obtain ⟨hclear, hnone, -⟩ := oppClear_spec ((s.mbSubmit m 0x12).oppCancelAll w)
  refine ⟨answered_ok .., ?_, ?_⟩
  · rw [get_ans h.box _ _ not_mbKeys_of_off, hclear]
  · rw [ans_ok, mbDone_die, hnone]

theorem stationRead_answers {m : MbGo} {n : Nat} (h : MbReady m 1 none 1 s) (hp : m.part = .sc) (harg : m.argAt [1] 0 = n) (hn : n < s.die.stations) :
    Gives (.stationRead m) s fun t => Result m (packFields 0 [(8, (s.stn n).debtSum), (2, (s.stn n).delay), (4, (s.stn n).orderLate), (4, (s.stn n).strobeLost), (4, (s.stn n).strobeClr)]) s t
        ∧ Only .sc true mbKeys s t := by
  refine ⟨_, rfl, ?_⟩
  rw [scOnly_sc hp, ← hp]
  refine reader_ok (jobArg := none) h rfl 0x13 _ _ ?_
  unfold MbGo.argAt at harg
  have hstn : (s.mbSubmit m 0x13).stn n = s.stn n := stn_of (by rw [mbSubmit_die]) n
  simp only [harg, mbSubmit_die, Nat.not_le.2 hn, if_false, hstn]

theorem oppReadyAssert_arms {w : OppSw} (hpend : s.die.opp.pending = some w) (harmed : s.die.opp.armed = false) :
    Gives .oppReadyAssert s fun t => t.get .sc Rg.SPIN_OPP_READY = 1 ∧ t.die.opp = { s.die.opp with armed := true } := by
  have harm : (s.put .sc Rg.SPIN_OPP_READY 1).oppArmAll =
      ((s.put .sc Rg.SPIN_OPP_READY 1).hbQueueAll (.oppArm w.point (w.at_ / 64 % 2 ^ 38) false) 3).setOpp { s.die.opp with armed := true } := by
    unfold State.oppArmAll
    simp only [State.put_die, hpend, harmed, Bool.false_eq_true, if_false]
  refine ⟨_, rfl, ?_⟩
  rw [harm]
  refine ⟨?_, rfl⟩
  rw [State.get_setOpp, hbQueueAll_get, State.get_put_same]
  rfl

theorem oppReadyTimeout_cancels {w : OppSw} (hpend : s.die.opp.pending = some w) (htt : w.tt = false) (hready : s.get .sc Rg.SPIN_OPP_READY = 0) (hdue : w.at_ - 1024 ≤ s.htNs .sc)
    (hlate : w.at_ ≤ s.htNs .sc + 1024) :
    Gives .oppReadyTimeout s fun t => t.get .sc Rg.OPS_OPP_UNREADY = sat 8 (s.get .sc Rg.OPS_OPP_UNREADY + 1) ∧ t.get .sc Rg.OPS_PENDING = 0 ∧ t.die.opp.pending = none := by
  change ∃ t, execOppReadyTimeout s = .next t ∧ _
  unfold execOppReadyTimeout
  simp only [hpend, flag0 hready, awaitHt_past hdue, Nat.not_lt.2 hlate, htt, decide_false, Bool.or_self, Bool.false_eq_true, if_false]
  obtain ⟨hclear, hnone, hget⟩ := oppClear_spec (((s.bump .sc Rg.OPS_OPP_UNREADY).faultLog .sc 0x50 0 w.point).hbQueueAll (.oppArm w.point (w.at_ / 64 % 2 ^ 38) true) 3)
  refine ⟨_, rfl, ?_, hclear, hnone⟩
  have hlog := (Only.refl .sc false faultKeys (s.bump .sc Rg.OPS_OPP_UNREADY)).faultLog (fun _ hk => hk) 0x50 0 w.point [] none
  rw [hget _ (by decide) (by decide) (by decide), hbQueueAll_get, hlog.get _ (not_fault (not_att (by decide) (by decide) (by decide)) (by decide) (by decide)), get_bump]
  rfl

theorem oppSelDrive_drives {n i a : Nat} {es : List Nat} (hlive : s.stnLive n = true) (hopp : ((s.stn n).edges (s.period n) es).opp = some (i, a))
    (hreach : ((s.stn n).edges (s.period n) es).reached (a - 16) = true) :
    Gives (.oppSelDrive n es) s fun t => t.stn n = { (s.stn n).edges (s.period n) es with sel := i } := by
  change ∃ t, execOppSelDrive n es s = .next t ∧ _
  unfold execOppSelDrive
  simp only [hlive, stnEdges_stn, hopp, hreach, Bool.not_true, Bool.false_eq_true, if_false, if_true]
  exact ⟨_, rfl, stn_setStn ..⟩

theorem oppGo_switches {n i a : Nat} {es : List Nat} (hlive : s.stnLive n = true) (hopp : ((s.stn n).edges (s.period n) es).opp = some (i, a))
    (hreach : ((s.stn n).edges (s.period n) es).reached a = true) (hnone : s.die.opp.pending = none) :
    Gives (.oppGo n es) s fun t => t.stn n = { (s.stn n).edges (s.period n) es with
      sel := i, point := i, opp := none, rateTrim := 0, goPulses := ((s.stn n).edges (s.period n) es).goPulses + 1 } := by
  have hsettle : ∀ t : State, t.die.opp.pending = none → t.oppSettle = t := fun t ht => by simp only [State.oppSettle, ht]
  change ∃ t, execOppGo n es s = .next t ∧ _
  unfold execOppGo
  simp only [hlive, stnEdges_stn, hopp, hreach, Bool.not_true, Bool.false_eq_true, if_false, if_true]
  exact ⟨_, congrArg Host.Outcome.next (hsettle _ (by exact hnone)), stn_setStn n _ (s.stnEdges n es)⟩

end

/-- Settles O12, each clause by the lemma on its command. -/
theorem stationsKeepTimeAndLaunch : Obligations.StationsKeepTimeAndLaunch := by
  unfold Obligations.StationsKeepTimeAndLaunch
  exact ⟨fun _ _ _ hrun hnew hn hsent => heartbeatSend_sends rfl hrun hnew hn hsent,
    fun _ _ _ hlive hfirst => heartbeatMissing_counts hlive hfirst,
    fun _ _ _ hlive hrun => heartbeatMissing_loses hlive hrun,
    fun _ _ hlive => regionClockMissing_loses hlive,
    fun _ _ _ _ _ _ hlive hk htargets hreach hbell hsrc hjob hen => strobeFire_pulses hlive hk htargets hreach hbell hsrc hjob hen,
    fun _ _ _ _ _ _ hup hstage hguard hnone hchoice hi hnew => oppEvaluate_pends hup hstage hguard hnone hchoice hi hnew,
    fun _ _ h hp hat hi hvalid hnone hahead hguard => oppSwitch_pends h hp hat hi hvalid hnone hahead hguard,
    fun _ _ _ h hp hpend htt hahead => oppCancel_ends h hp hpend htt hahead,
    fun _ _ _ h hp harg hn => stationRead_answers h hp harg hn,
    fun _ _ hpend harmed => oppReadyAssert_arms hpend harmed,
    fun _ _ hpend htt hready hdue hlate => oppReadyTimeout_cancels hpend htt hready hdue hlate,
    fun _ _ _ _ _ hlive hopp hreach => oppSelDrive_drives hlive hopp hreach,
    fun _ _ _ _ _ hlive hopp hreach hnone => oppGo_switches hlive hopp hreach hnone⟩

end Sys2Proof.Proofs

/-! PROOFS. O14: heartbeats accepted, events committed, barriers created and freed, contexts bound, switched and cleared, the monitor. -/

namespace Sys2Proof.Proofs

open Sys2Proof Sys2Proof.Machine Sys2Proof.Cmds

-- One proof after another, as in the tests: side by side, the proofs of the joined text keep more stacks alive than the check's memory holds.
set_option Elab.async false

/-! A heartbeat accepted (R155, R156). -/

theorem hbMessage_of_none {n : Nat} {s : State} (h : (s.stn n).word.msg = .none) : s.hbMessage n = s := by simp only [State.hbMessage, h]

/-- An accepted heartbeat leaves the error as the correction to be made; beside it only the rate, its sum and its count move (R155). -/
theorem correct_sets_pending (period : Nat) (eps : Int) (x : Machine.Station) :
    ∃ k e r, x.correct period eps = { x with pending := -eps, nHb := k, epsSum := e, rateTrim := r } := by
  unfold Station.correct
  dsimp only
  split
  · exact ⟨_, _, _, rfl⟩
  · exact ⟨_, _, _, rfl⟩

/-- How far an arrival at a position lies behind the boundary it names and the path's delay, in LSBs (R155). -/
def arrivalError (hb phi : Nat) (x : Machine.Station) : Int := ((x.rt + phi : Nat) : Int) - ((hb * nsLsb + x.delayLsb : Nat) : Int)

theorem hbAccept_corrects {n : Nat} (hb phi : Nat) {y : Machine.Station} {s : State} (hy : s.stn n = y) (hvalid : y.valid = true) (hclk : y.clkLost = false)
    (hrel : s.get .sc (Rg.STN_RT_UNREL n) = 0) :
    ((s.hbAccept n hb phi).stn n).missRun = 0 ∧ ((s.hbAccept n hb phi).stn n).pending = -arrivalError hb phi y ∧ ((s.hbAccept n hb phi).stn n).unaligned = y.unaligned
      ∧ ((s.hbAccept n hb phi).stn n).holdover = y.holdover ∧ ((s.hbAccept n hb phi).stn n).tapHits = y.tapHits := by
  obtain ⟨k, e, r, hcorrect⟩ := correct_sets_pending (s.period n) (arrivalError hb phi y) y
  unfold arrivalError at hcorrect ⊢
  unfold State.hbAccept
  simp only [hy, hvalid, hclk, flag0 hrel, hcorrect, Bool.not_true, Bool.false_and, Bool.false_eq_true, if_false, stn_setStn, and_self]

theorem heartbeatReceive_corrects {n tap flips raw phi hb : Nat} {es : List Nat} {x : Machine.Station} {s : State} (hlive : s.stnLive n = true)
    (hraw : Nat.xor (s.stn n).word.toBits (flips % 2 ^ 64) = raw) (hstart : bit raw 0 = true) (hpass : hbPasses raw = true)
    (hx : { ((s.stn n).edges (s.period n) es).tapHit tap with word := (((s.stn n).edges (s.period n) es).tapHit tap).word.read raw } = x) (hmsg : x.word.msg = .none)
    (hword : x.word.joined = true) (hjoined : x.joined = true) (hrel : s.get .sc (Rg.STN_RT_UNREL n) = 0) (hvalid : x.valid = true) (hclk : (s.stn n).clkLost = false)
    (hclk' : x.clkLost = false) (hphi : tapPos (s.stn n).taps tap = phi) (hbound : x.boundary phi false = some hb) (hnear : (arrivalError hb phi x).natAbs ≤ 2 * nsLsb) :
    Gives (.heartbeatReceive n es tap flips) s fun t => (t.stn n).missRun = 0 ∧ (t.stn n).pending = -arrivalError hb phi x
        ∧ (t.stn n).unaligned = x.word.unaligned ∧ (t.stn n).holdover = x.word.holdover ∧ (t.stn n).tapHits = x.tapHits := by
  have hread : ((s.stnEdges n es).setStn n x).hbMessage n = (s.stnEdges n es).setStn n x := hbMessage_of_none (by rw [stn_setStn]; exact hmsg)
  change ∃ t, execHeartbeatReceive n es tap flips s = .next t ∧ _
  unfold execHeartbeatReceive
  unfold arrivalError at hnear
  simp only [hraw, hlive, hstart, hpass, hphi, stnEdges_stn, hx, hread, stn_setStn, hword, hjoined, hclk, flag0 hrel, hvalid, hbound, Nat.not_lt.2 hnear, Bool.not_true, Bool.not_false, Bool.or_self,
    Bool.and_self, Bool.and_false, Bool.false_and, Bool.false_eq_true, decide_false, if_false, if_true]
  refine ⟨_, rfl, ?_⟩
  have herror : arrivalError hb phi { x with valid := true, joined := true, unaligned := x.word.unaligned, holdover := x.word.holdover, slewing := x.word.slewing } = arrivalError hb phi x := rfl
  rw [← herror]
  exact hbAccept_corrects hb phi (stn_setStn ..) rfl hclk' hrel

/-! The hub commits an event (R169). -/

/-- A wait at a hub slot whose epoch has been reached is answered by a release on its way to the station (R192, R201). -/
theorem waitAt_hub_of_reached {i w : Nat} {s : State} (h : (s.slotAt (.hub i)).waitFor w = some 0) (q tag : Nat) :
    s.waitAt (.hub i) q tag w = s.setSync { s.die.sync with rels := s.die.sync.rels ++ [{ q := q, tag := tag, bindGen := s.get .sc (Rg.Q_BIND_GEN q), status := 0 }] } := by
  unfold State.waitAt
  simp only [h]
  rfl

theorem barrierOp_wait {i tag stamp cmd q : Nat} {s : State} (hop : bits cmd 60 4 = 2) (hauto : bit cmd 31 = false) :
    s.barrierOp (some (.hub i)) false q tag stamp cmd = s.waitAt (.hub i) q tag (bits cmd 32 16) := by
  unfold State.barrierOp
  simp only [hop, hauto, Bool.false_eq_true, if_true, if_false]

/-- The state in which an event that is not late has been taken from the reorder stage. -/
def takenEvent (e : Machine.HubEv) (s : State) : State := s.setSync { s.die.sync with events := s.die.sync.events.erase e, lastStamp := some e.stamp }

theorem commitEvent_of_cmd {e : Machine.HubEv} {q tag gen cmd : Nat} {s : State} (hbody : e.body = .cmd q tag gen cmd) (hfirst : s.die.sync.lastStamp = none)
    (hgen : s.get .sc (Rg.Q_BIND_GEN q) = gen) (hbound : s.get .sc (Rg.Q_BOUND q) = 1) :
    s.commitEvent e = ((takenEvent e s).barrierOp (s.queueSlot q (bits cmd 48 12)) false q tag e.stamp cmd).settle := by
  have hstamp : (s.setSync { s.die.sync with events := s.die.sync.events.erase e }).commitStamp e.stamp = (false, takenEvent e s) := by
    unfold State.commitStamp
    rw [show (s.setSync { s.die.sync with events := s.die.sync.events.erase e }).die.sync.lastStamp = none from hfirst]
    rfl
  have hgen' : (takenEvent e s).get .sc (Rg.Q_BIND_GEN q) = gen := hgen
  have hbound' : (takenEvent e s).flag .sc (Rg.Q_BOUND q) = true := flag1 hbound
  unfold State.commitEvent
  simp only [hstamp, hbody, hgen', hbound', bne_self_eq_false, Bool.not_true, Bool.or_self, Bool.false_eq_true, if_false]
  rfl

theorem stationEventCommit_releases {e : Machine.HubEv} {q tag gen cmd i : Nat} {s : State} (hpick : pickEvent s.die.sync.waiting = some e) (hbody : e.body = .cmd q tag gen cmd)
    (hdue : e.entered + 4 ≤ s.htNs .sc) (hfirst : s.die.sync.lastStamp = none) (hgen : s.get .sc (Rg.Q_BIND_GEN q) = gen) (hbound : s.get .sc (Rg.Q_BOUND q) = 1)
    (hslot : s.queueSlot q (bits cmd 48 12) = some (.hub i)) (hop : bits cmd 60 4 = 2) (hauto : bit cmd 31 = false) (hwait : (s.slotAt (.hub i)).waitFor (bits cmd 32 16) = some 0) :
    Gives (.stationEventCommit []) s fun t => t.die.sync.events.map (fun x => (x.src, x.stamp, x.body)) = (s.die.sync.events.erase e).map (fun x => (x.src, x.stamp, x.body))
        ∧ t.die.sync.lastStamp = some e.stamp ∧ t.die.sync.rels = s.die.sync.rels ++ [{ q := q, tag := tag, bindGen := gen, status := 0 }] := by
  have hall : (s.die.sync.waiting.filter fun x => !([] : List Nat).contains x.src) = s.die.sync.waiting := List.filter_eq_self.2 fun _ _ => rfl
  refine ⟨_, congrArg Host.Outcome.next (a₂ := s.commitEvent e) ?_, ?_⟩
  · rw [hall, hpick]
    exact congrArg (State.commitEvent e) (awaitHt_past hdue)
  · rw [commitEvent_of_cmd hbody hfirst hgen hbound, hslot, barrierOp_wait hop hauto, waitAt_hub_of_reached (s := takenEvent e s) hwait]
    unfold State.settle
    obtain ⟨ev, hsettle, hcore⟩ := evSettle_spec (takenEvent e s).die.sync.events.length ((takenEvent e s).setSync { (takenEvent e s).die.sync with
      rels := (takenEvent e s).die.sync.rels ++ [{ q := q, tag := tag, bindGen := (takenEvent e s).get .sc (Rg.Q_BIND_GEN q), status := 0 }] })
    rw [show (takenEvent e s).get .sc (Rg.Q_BIND_GEN q) = gen from hgen] at hsettle hcore ⊢
    refine ⟨?_, ?_, ?_⟩
    · exact (congrArg (fun t : State => t.die.sync.events.map evCore) hsettle).trans hcore
    · exact congrArg (fun t : State => t.die.sync.lastStamp) hsettle
    · exact congrArg (fun t : State => t.die.sync.rels) hsettle

/-! Slots, handles and contexts through a mailbox command (R366). -/

theorem slotAt_congr {s t : State} (h : t.die = s.die) (r : SlotRef) : t.slotAt r = s.slotAt r := by
  cases r <;> simp only [State.slotAt, State.stn, h]

theorem handle_congr {s t : State} (h : t.die = s.die) (c k : Nat) : t.handle c k = s.handle c k := by
  unfold State.handle
  rw [h]

theorem die_ans (m : MbGo) (code : Nat) (fixed : List (Nat × Nat)) (t : State) : (t.mbAnswer m.part m.box code m.tag m.irq m.dma (.ok fixed)).die = t.die := mbDone_die ..

section
variable {m : MbGo} {c : Nat} {s : State}

theorem get_ctx_mbSubmit (hb : m.box < 8) (code : Nat) (hc : c < 64) {f : Machine.Field} (s : State) (ho : f.off = 0x5200 + 8 * c ∨ f.off = 0x5204 + 8 * c := by exact .inl rfl)
    (hl : decide (f.lo < 32) = true := by rfl) : (s.mbSubmit m code).get .sc f = s.get .sc f := get_sub hb code (not_mbKeys_of_lt (by omega) hl) .sc

theorem get_queue_mbSubmit (hb : m.box < 8) (code : Nat) {q : Nat} (hq : q < 128) {f : Machine.Field} (s : State) (ho : f.off = 0x4000 + 16 * q := by rfl)
    (hl : decide (f.lo < 32) = true := by rfl) : (s.mbSubmit m code).get .sc f = s.get .sc f := get_sub hb code (not_mbKeys_of_lt (by omega) hl) .sc

theorem boundQueues_mbSubmit (hb : m.box < 8) (code c : Nat) (hq : s.die.queues ≤ 128) : (s.mbSubmit m code).boundQueues c = s.boundQueues c := by
  unfold State.boundQueues
  rw [mbSubmit_die]
  refine List.filter_congr fun q hmem => ?_
  have hlt : q < 128 := lt_of_lt_of_le (List.mem_range.1 hmem) hq
  unfold State.flag
  rw [get_queue_mbSubmit hb code hlt s, get_queue_mbSubmit hb code hlt s]

theorem ctxSlots_mbSubmit (code : Nat) (s : State) : (s.mbSubmit m code).ctxSlots c = s.ctxSlots c := by
  unfold State.ctxSlots
  rw [mbSubmit_die]

theorem ctxJob_mbSubmit (hb : m.box < 8) (code : Nat) (hc : c < 64) (s : State) : (s.mbSubmit m code).ctxJob c = s.ctxJob c := by
  unfold State.ctxJob State.flag
  rw [get_ctx_mbSubmit hb code hc s, get_ctx_mbSubmit hb code hc s]

theorem createOk_mbSubmit (hb : m.box < 8) (code : Nat) (a : CreateArgs) (s : State) : (s.mbSubmit m code).createOk a = s.createOk a := by
  have hlt : ∀ q ∈ setBits 128 a.part, q < 128 := fun q hq => List.mem_range.1 (List.mem_filter.1 hq).1
  have hbound : ((setBits 128 a.part).all fun q => decide (q < s.die.queues) && (s.mbSubmit m code).flag .sc (Rg.Q_BOUND q) && (s.mbSubmit m code).get .sc (Rg.Q_CTX q) == a.ctx) =
      (setBits 128 a.part).all fun q => decide (q < s.die.queues) && s.flag .sc (Rg.Q_BOUND q) && s.get .sc (Rg.Q_CTX q) == a.ctx :=
    all_congr' fun q hq => by
      unfold State.flag
      rw [get_queue_mbSubmit hb code (hlt q hq) s, get_queue_mbSubmit hb code (hlt q hq) s]
  have hstation : ((setBits 128 a.part).all fun q => (s.mbSubmit m code).get .sc (Rg.Q_STATION q) == a.station) =
      (setBits 128 a.part).all fun q => s.get .sc (Rg.Q_STATION q) == a.station :=
    all_congr' fun q hq => by rw [get_queue_mbSubmit hb code (hlt q hq) s]
  unfold State.createOk State.isLead
  simp only [mbSubmit_die, hbound, hstation]

/-! Barriers (R186, R187, R204, R210). -/

theorem barrierCreate_creates {i : Nat} (h : MbReady m 0 none 6 s) (hp : m.part = .sc) (hscope : m.argAt [1, 2, 1, 1] 2 = 1) (hlen : 23 ≤ m.args.length)
    (hc : m.argAt [1, 2, 1, 1] 0 < 64)
    (hok : s.createOk { ctx := m.argAt [1, 2, 1, 1] 0, handle := m.argAt [1, 2, 1, 1] 1, scope := 1, headcount := m.argAt [1, 2, 1, 1] 3, part := ofLe ((m.args.drop 6).take 17) % 2 ^ 129 } = true)
    (hfree : s.handle (m.argAt [1, 2, 1, 1] 0) (m.argAt [1, 2, 1, 1] 1) = none)
    (hquota : s.get .sc (Rg.CTX_HANDLES_USED (m.argAt [1, 2, 1, 1] 0)) < s.get .sc (Rg.CTX_HANDLE_QUOTA (m.argAt [1, 2, 1, 1] 0)))
    (hfresh : firstFresh s.die.sync.slots 16384 0 = some i) :
    Gives (.barrierCreate m) s fun t => Answered m 0 t ∧ t.handle (m.argAt [1, 2, 1, 1] 0) (m.argAt [1, 2, 1, 1] 1) = some (.hub i)
        ∧ (t.slotAt (.hub i)).state = .counting ∧ (t.slotAt (.hub i)).headcount = m.argAt [1, 2, 1, 1] 3 ∧ (t.slotAt (.hub i)).part = ofLe ((m.args.drop 6).take 17) % 2 ^ 129
        ∧ (t.slotAt (.hub i)).arr = 0 := by
  refine ⟨_, rfl, ?_⟩
  obtain ⟨u, hcreate, hhandle, hstate, -, hhead, hpart, harr, -⟩ := create_hub (s := s.mbSubmit m 0x20) rfl ((createOk_mbSubmit h.box 0x20 _ s).trans hok)
    ((handle_congr (mbSubmit_die ..) ..).trans hfree)
    (by rw [get_ctx_mbSubmit h.box 0x20 hc s (.inr rfl), get_ctx_mbSubmit h.box 0x20 hc s]; exact hquota) (by rw [mbSubmit_die]; exact hfresh)
  rw [scOnly_sc hp, mailbox_eq_answer (jobArg := none) h rfl (out := .ok [(2, i), (1, (((s.mbSubmit m 0x20).slotAt (.hub i)).gen + 1) % 256)]) (u := u) ?body]
  case body =>
    unfold MbGo.argAt at hscope hcreate
    simp only [hscope, Nat.not_lt.2 hlen, Nat.reduceEqDiff, Nat.reduceLeDiff, decide_false, Bool.false_and, Bool.false_eq_true, if_false, if_true, hcreate]
  rw [handle_congr (die_ans ..), slotAt_congr (die_ans ..)]
  exact ⟨answered_ok .., hhandle, hstate, hhead, hpart, harr⟩

theorem barrierFree_frees {i h : Nat} (hm : MbReady m 0 none 4 s) (hp : m.part = .sc) (hc : m.argAt [1, 2] 0 = c) (hh : m.argAt [1, 2] 1 = h) (hslot : s.handle c h = some (.hub i))
    (hctx : (s.slotAt (.hub i)).ctx = c) (hhandle : (s.slotAt (.hub i)).handle = h) (hscope : (s.slotAt (.hub i)).scope = 1) (hwaits : (s.slotAt (.hub i)).waits = [])
    (hhost : (s.slotAt (.hub i)).hostWaits = []) (hdescs : s.die.pay.descs = []) (hheld : s.die.pay.held = []) :
    Gives (.barrierFree m) s fun t => Answered m 0 t ∧ t.handle c h = none ∧ (t.slotAt (.hub i)).state = .free ∧ (t.slotAt (.hub i)).gen = (s.slotAt (.hub i)).gen
        ∧ t.die.sync.freed = s.die.sync.freed ++ [(i, s.now)] := by
  refine ⟨_, rfl, ?_⟩
  have hsub : (s.mbSubmit m 0x21).slotAt (.hub i) = s.slotAt (.hub i) := slotAt_congr (mbSubmit_die ..) _
  rw [scOnly_sc hp, mailbox_eq_answer (jobArg := none) hm rfl (out := .ok []) (u := (s.mbSubmit m 0x21).barrierFree (.hub i)) ?body]
  case body =>
    unfold MbGo.argAt at hc hh
    simp only [hc, hh, handle_congr (mbSubmit_die m 0x21 s), hslot]
  have hfreed := free_hub (i := i) (s := s.mbSubmit m 0x21) (by rw [hsub, hscope]) (by rw [hsub, hwaits]) (by rw [hsub, hhost]) (by rw [mbSubmit_die, hdescs]) (by rw [mbSubmit_die, hheld])
  rw [hsub, hctx, hhandle, mbSubmit_die, mbSubmit_now] at hfreed
  dsimp only
  rw [handle_congr (die_ans ..), slotAt_congr (die_ans ..), die_ans]
  exact ⟨answered_ok .., hfreed⟩

theorem slotBytes_congr {s t : State} (h : t.die = s.die) (r : SlotRef) : t.slotBytes r = s.slotBytes r := by
  unfold State.slotBytes State.isLead
  rw [slotAt_congr h, h]

theorem slotRead_answers {i : Nat} (h : MbReady m 0 none 5 s) (hp : m.part = .sc) (hform : m.argAt [1, 1, 2, 1] 0 = 1) (hscope : m.argAt [1, 1, 2, 1] 1 ≠ 0)
    (hi : m.argAt [1, 1, 2, 1] 2 = i) (hlt : i < 16384) :
    Gives (.slotRead m) s fun t => Result m ((s.slotBytes (.hub i)).take 256) s t ∧ Only .sc true mbKeys s t := by
  refine ⟨_, rfl, ?_⟩
  rw [scOnly_sc hp, ← hp]
  refine bytes_ok (jobArg := none) h rfl 0x25 _ _ ?_
  unfold MbGo.argAt at hform hscope hi
  simp only [hform, hscope, hi, hlt, one_ne_zero, if_false, if_true, slotBytes_congr (mbSubmit_die m 0x25 s)]

/-! Contexts (R202, R203). -/

theorem hallCtx_none {j : Nat} {s : State} (h : ∀ k < 64, s.ctxJob k ≠ some j) : s.hallCtx j = none := by
  unfold State.hallCtx
  rw [List.find?_eq_none]
  intro k hk
  simpa using h k (List.mem_range.1 hk)

theorem ctxJob_none {s : State} (h : s.get .sc (Rg.CTX_JOB_VALID c) = 0) : s.ctxJob c = none := by
  unfold State.ctxJob
  rw [flag0 h]
  rfl

theorem ctxBind_binds {j : Nat} (h : MbReady m 0 (some (m.argAt [1, 1] 1)) 2 s) (hp : m.part = .sc) (harg : m.argAt [1, 1] 0 = c) (hjob : m.argAt [1, 1] 1 = j) (hc : c < 64) (hj : j < 64)
    (hstage : 2 ≤ s.get .sc Rg.START_STAGE) (hunbound : s.get .sc (Rg.CTX_JOB_VALID c) = 0) (hother : ∀ k, k < 64 → s.ctxJob k ≠ some j) (hslots : s.ctxSlots c = []) :
    Gives (.ctxBind m) s fun t => Answered m 0 t ∧ t.get .sc (Rg.CTX_JOB c) = j ∧ t.get .sc (Rg.CTX_JOB_VALID c) = 1 ∧ t.get .sc (Rg.SJH_BELL_VALID j) = 0 := by
  refine ⟨_, rfl, ?_⟩
  rw [scOnly_sc hp, mailbox_eq_answer (jobArg := some 1) h rfl (out := .ok [])
    (u := (((s.mbSubmit m 0x22).put .sc (Rg.CTX_JOB c) j).put .sc (Rg.CTX_JOB_VALID c) 1).put .sc (Rg.SJH_BELL_VALID j) 0) ?body]
  case body =>
    unfold MbGo.argAt at harg hjob
    have hstage' : ¬ (s.mbSubmit m 0x22).get .sc Rg.START_STAGE < 2 := by
      rw [get_sub h.box 0x22 (by unfold mbKeys; decide) .sc]
      omega
    have hjob' : (s.mbSubmit m 0x22).ctxJob c = none := (ctxJob_mbSubmit h.box 0x22 hc s).trans (ctxJob_none hunbound)
    have hhall : (s.mbSubmit m 0x22).hallCtx j = none := hallCtx_none fun k hk => by
      rw [ctxJob_mbSubmit h.box 0x22 hk]
      exact hother k hk
    have hj255 : j ≠ 255 := by omega
    simp only [harg, hjob, ctxSlots_mbSubmit, hslots, hstage', hjob', hhall, hj255, List.any_nil, Nat.not_lt.2 (Nat.le_of_lt_succ hc), Nat.not_lt.2 (Nat.le_of_lt_succ hj), decide_false,
      Bool.false_and, Bool.and_false, Bool.or_self, Bool.false_eq_true, reduceCtorEq, if_false]
  have hbell : ∀ f : Machine.Field, f.off = 0x5200 + 8 * c → f.lo < 32 → f.key ≠ (Rg.SJH_BELL_VALID j).key := fun f ho hl => by
    simp only [Machine.Field.key, Rg.SJH_BELL_VALID]
    omega
  refine ⟨answered_ok .., ?_, ?_, ?_⟩
  · rw [get_ans h.box _ _ (not_mbKeys_of_lt (show 0x5200 + 8 * c < 0x8800 by omega)), State.get_put_ne _ (hbell _ rfl (show 0 < 32 by decide)), State.get_put_ne _ key_ne_of_lo, State.get_put_same]
    exact Nat.mod_eq_of_lt hj
  · rw [get_ans h.box _ _ (not_mbKeys_of_lt (show 0x5200 + 8 * c < 0x8800 by omega)), State.get_put_ne _ (hbell _ rfl (show 6 < 32 by decide)), State.get_put_same]
    rfl
  · rw [get_ans h.box _ _ (not_mbKeys_of_lt (show 0x6404 + 16 * j < 0x8800 by omega)), State.get_put_same]
    rfl

theorem ctxQuota_sets {v : Nat} (h : MbReady m 0 none 4 s) (hp : m.part = .sc) (harg : m.argAt [1, 2] 0 = c) (hv : m.argAt [1, 2] 1 = v) (hc : c < 64) (hle : v ≤ 4096) :
    Gives (.ctxQuota m) s fun t => Answered m 0 t ∧ t.get .sc (Rg.CTX_HANDLE_QUOTA c) = v
      ∧ t.get .sc (Rg.CTX_OVER_QUOTA c) = ofBool (decide (v < s.get .sc (Rg.CTX_HANDLES_USED c))) := by
  refine ⟨_, rfl, ?_⟩
  rw [scOnly_sc hp, mailbox_eq_answer (jobArg := none) h rfl (out := .ok []) (u := (s.mbSubmit m 0x26).setQuota c v) ?body]
  case body =>
    unfold MbGo.argAt at harg hv
    simp only [harg, hv, Nat.not_lt.2 (Nat.le_of_lt_succ hc), Nat.not_lt.2 hle, decide_false, Bool.or_self, Bool.false_eq_true, if_false]
  unfold State.setQuota
  refine ⟨answered_ok .., ?_, ?_⟩
  · rw [get_ans h.box _ _ (not_mbKeys_of_lt (show 0x5200 + 8 * c < 0x8800 by omega)), get_putFlag_ne _ (key_ne_of_off (show 0x5200 + 8 * c ≠ 0x5204 + 8 * c by omega)), State.get_put_same]
    exact Nat.mod_eq_of_lt (Nat.lt_of_le_of_lt hle (show 4096 < 2 ^ 13 by decide))
  · rw [get_ans h.box _ _ (not_mbKeys_of_lt (show 0x5204 + 8 * c < 0x8800 by omega)), get_putFlag_same, get_ctx_mbSubmit h.box 0x26 hc s (.inr rfl)]

/-- A context is being cleared: what its clear does at once has been done, the run of the clear is noted and its command waits in a mailbox (R203). -/
def clearBegun (c box : Nat) (r : ClearRun) (x : Machine.Mail) (s : State) : State :=
  ((s.clearContext c).setSync { (s.clearContext c).die.sync with clear := some r }).setMail .sc box x

theorem get_clearBegun (c box : Nat) (r : ClearRun) (x : Machine.Mail) (f : Machine.Field) (s : State) : (clearBegun c box r x s).get .sc f = (s.clearContext c).get .sc f := by
  unfold clearBegun
  rw [State.get_setMail, State.get_setSync]

/-- The clear of a context leaves it no flag and no signal (R203, step 5). -/
theorem clearContext_flags (hc : c < 64) (s : State) :
    (s.clearContext c).hostFlags c = 0 ∧ (s.clearContext c).get .sc (Rg.HF_SIG_LO c) = 0 ∧ (s.clearContext c).get .sc (Rg.HF_SIG_HI c) = 0 := by
  have hflags : (Rg.HF_FLAG_LO c).key ≠ (Rg.HF_FLAG_HI c).key := key_ne_of_off (show 0x4C08 + 16 * c ≠ 0x4C0C + 16 * c by omega)
  have hsigs : (Rg.HF_SIG_LO c).key ≠ (Rg.HF_SIG_HI c).key := key_ne_of_off (show 0x5000 + 8 * c ≠ 0x5004 + 8 * c by omega)
  have hloLo : (Rg.HF_FLAG_LO c).key ≠ (Rg.HF_SIG_LO c).key := key_ne_of_off (show 0x4C08 + 16 * c ≠ 0x5000 + 8 * c by omega)
  have hloHi : (Rg.HF_FLAG_LO c).key ≠ (Rg.HF_SIG_HI c).key := key_ne_of_off (show 0x4C08 + 16 * c ≠ 0x5004 + 8 * c by omega)
  have hhiLo : (Rg.HF_FLAG_HI c).key ≠ (Rg.HF_SIG_LO c).key := key_ne_of_off (show 0x4C0C + 16 * c ≠ 0x5000 + 8 * c by omega)
  have hhiHi : (Rg.HF_FLAG_HI c).key ≠ (Rg.HF_SIG_HI c).key := key_ne_of_off (show 0x4C0C + 16 * c ≠ 0x5004 + 8 * c by omega)
  unfold State.clearContext
  dsimp only
  generalize List.foldl _ _ _ = u
  unfold State.hostFlags State.get64 State.put64
  simp only [State.get_setMon]
  refine ⟨?_, ?_, ?_⟩
  · rw [State.get_put_ne _ hloHi, State.get_put_ne _ hloLo, State.get_put_ne _ hflags, State.get_put_same, State.get_put_ne _ hhiHi, State.get_put_ne _ hhiLo, State.get_put_same]
    rfl
  · rw [State.get_put_ne _ hsigs, State.get_put_same]
    rfl
  · rw [State.get_put_same]
    rfl

/-- What a begun clear leaves: its run is noted, the context's flags and signals are clear, the queues are as the clear left them (R203). -/
theorem clearBegun_spec (box : Nat) (r : ClearRun) (x : Machine.Mail) (hc : c < 64) (s : State) :
    (clearBegun c box r x s).die.sync.clear = some r ∧ (clearBegun c box r x s).hostFlags c = 0 ∧ (clearBegun c box r x s).get .sc (Rg.HF_SIG_LO c) = 0
      ∧ (clearBegun c box r x s).get .sc (Rg.HF_SIG_HI c) = 0 ∧ ∀ q, (clearBegun c box r x s).queue q = (s.clearContext c).queue q := by
  obtain ⟨hflags, hlo, hhi⟩ := clearContext_flags hc s
  have hhost : (clearBegun c box r x s).hostFlags c = (s.clearContext c).hostFlags c := by
    unfold State.hostFlags State.get64
    rw [get_clearBegun, get_clearBegun]
  have hsync : (clearBegun c box r x s).die.sync = { (s.clearContext c).die.sync with clear := some r } := by
    unfold clearBegun
    generalize s.clearContext c = u
    rw [setMail_die]
    rfl
  refine ⟨?_, hhost.trans hflags, (get_clearBegun ..).trans hlo, (get_clearBegun ..).trans hhi, fun q => queue_of ?_ q⟩
  · rw [hsync]
  · rw [hsync]

/-- Nothing of the context is left beside its flags and signals: the clear that begins keeps the mailbox the device's (R366). -/
theorem owned_clearBegun {code : Nat} (box : Nat) (r : ClearRun) (x : Machine.Mail) (h : m.box < 8) (hp : m.part = .sc) (hc : c < 64) (hbound : s.boundQueues c = []) (hslots : s.ctxSlots c = [])
    (hdescs : s.die.pay.descs = []) (hq : s.die.queues ≤ 128) : (clearBegun c box r x (s.mbSubmit m code)).get .sc (Rg.MB_OWNED m.box) = 1 := by
  obtain ⟨heq, howned, -⟩ := clear_empty (code := code) h hp hc hbound hslots hdescs hq
  rw [get_clearBegun, heq, howned]

theorem maskOf_nil (w : Nat) : maskOf w (([] : List Nat).contains ·) = 0 := (maskOf_zero ..).2 fun _ _ => rfl

theorem ctxClear_begins {u : State} (h : MbReady m 0 none 1 s) (hp : m.part = .sc) (harg : m.argAt [1] 0 = c) (hc : c < 64) (hu : s.mbSubmit m 0x24 = u) :
    ∃ x, execCtxClear m s = .next (clearBegun c m.box { ctx := c, box := m.box, queues := maskOf 128 ((u.boundQueues c).contains ·) } x u) := by
  unfold execCtxClear
  rw [scOnly_sc hp, mailbox_eq_answer (jobArg := none) h rfl (out := .wait [])
    (u := (u.clearContext c).setSync { (u.clearContext c).die.sync with clear := some { ctx := c, box := m.box, queues := maskOf 128 ((u.boundQueues c).contains ·) } }) ?body, ans_wait, hp]
  case body =>
    unfold MbGo.argAt at harg
    simp only [harg, hu, Nat.not_lt.2 (Nat.le_of_lt_succ hc), if_false]
  exact ⟨_, rfl⟩

theorem ctxClear_clears {u v : State} (h : MbReady m 0 none 1 s) (hp : m.part = .sc) (harg : m.argAt [1] 0 = c) (hc : c < 64) (hu : s.mbSubmit m 0x24 = u) (hv : u.clearContext c = v) :
    Gives (.ctxClear m) s fun t => t.die.sync.clear = some { ctx := c, box := m.box, queues := maskOf 128 ((u.boundQueues c).contains ·) } ∧ t.hostFlags c = 0
        ∧ t.get .sc (Rg.HF_SIG_LO c) = 0 ∧ t.get .sc (Rg.HF_SIG_HI c) = 0 ∧ ∀ q, t.queue q = v.queue q := by
  obtain ⟨x, hexec⟩ := ctxClear_begins h hp harg hc hu
  subst hv
  exact ⟨_, hexec, clearBegun_spec m.box _ x hc u⟩

theorem ctxClear_clears_empty (h : MbReady m 0 none 1 s) (hp : m.part = .sc) (harg : m.argAt [1] 0 = c) (hc : c < 64) (hbound : s.boundQueues c = []) (hslots : s.ctxSlots c = [])
    (hdescs : s.die.pay.descs = []) (hq : s.die.queues ≤ 128) :
    Gives (.ctxClear m) s fun t => t.get .sc (Rg.MB_OWNED m.box) = 1 ∧ t.die.sync.clear = some { ctx := c, box := m.box } ∧ t.hostFlags c = 0
        ∧ t.get .sc (Rg.HF_SIG_LO c) = 0 ∧ t.get .sc (Rg.HF_SIG_HI c) = 0 := by
  obtain ⟨x, hexec⟩ := ctxClear_begins h hp harg hc rfl
  rw [(boundQueues_mbSubmit h.box 0x24 c hq).trans hbound, maskOf_nil] at hexec
  obtain ⟨hclear, hflags, hlo, hhi, -⟩ := clearBegun_spec m.box { ctx := c, box := m.box, queues := 0 } x hc (s.mbSubmit m 0x24)
  exact ⟨_, hexec, owned_clearBegun _ _ _ h.box hp hc hbound hslots hdescs hq, hclear, hflags, hlo, hhi⟩

/-- A switch begins as a clear does, and notes the incoming context with the queues that it takes over (R203). -/
theorem ctxSwitch_begins {d mask : Nat} {u : State} (h : MbReady m 0 none 2 s) (hp : m.part = .sc) (harg : m.argAt [1, 1] 0 = c) (hnext : m.argAt [1, 1] 1 = d) (hc : c < 64) (hd : d < 64)
    (hlen : 18 ≤ m.args.length) (hmask : ofLe ((m.args.drop 2).take 16) = mask) (hu : s.mbSubmit m 0x23 = u) (htaken : ∀ q < 128, bit mask q = true → q ∈ u.boundQueues c) :
    ∃ x, execCtxSwitch m s = .next (clearBegun c m.box { ctx := c, next := some (d, mask), box := m.box, queues := maskOf 128 ((u.boundQueues c).contains ·) } x u) := by
  have hnone : ((setBits 128 mask).any fun q => !(u.boundQueues c).contains q) = false := by
    rw [List.any_eq_false]
    intro q hq
    obtain ⟨hlt, hbit⟩ := List.mem_filter.1 hq
    simpa using htaken q (List.mem_range.1 hlt) hbit
  unfold execCtxSwitch
  rw [scOnly_sc hp, mailbox_eq_answer (jobArg := none) h rfl (out := .wait []) (u := (u.clearContext c).setSync
    { (u.clearContext c).die.sync with clear := some { ctx := c, next := some (d, mask), box := m.box, queues := maskOf 128 ((u.boundQueues c).contains ·) } }) ?body, ans_wait, hp]
  case body =>
    unfold MbGo.argAt at harg hnext
    simp only [harg, hnext, hu, hmask, hnone, Nat.not_lt.2 (Nat.le_of_lt_succ hc), Nat.not_lt.2 (Nat.le_of_lt_succ hd), Nat.not_lt.2 hlen, decide_false, Bool.or_self, Bool.false_eq_true, if_false]
  exact ⟨_, rfl⟩

theorem ctxSwitch_clears {d : Nat} {u v : State} (h : MbReady m 0 none 2 s) (hp : m.part = .sc) (harg : m.argAt [1, 1] 0 = c) (hnext : m.argAt [1, 1] 1 = d) (hc : c < 64) (hd : d < 64)
    (hlen : 18 ≤ m.args.length) (hu : s.mbSubmit m 0x23 = u) (hv : u.clearContext c = v) (htaken : ∀ q < 128, bit (ofLe ((m.args.drop 2).take 16)) q = true → q ∈ u.boundQueues c) :
    Gives (.ctxSwitch m) s fun t => t.die.sync.clear = some { ctx := c, next := some (d, ofLe ((m.args.drop 2).take 16)), box := m.box, queues := maskOf 128 ((u.boundQueues c).contains ·) }
        ∧ t.hostFlags c = 0 ∧ t.get .sc (Rg.HF_SIG_LO c) = 0 ∧ t.get .sc (Rg.HF_SIG_HI c) = 0 ∧ ∀ q, t.queue q = v.queue q := by
  obtain ⟨x, hexec⟩ := ctxSwitch_begins h hp harg hnext hc hd hlen rfl hu htaken
  subst hv
  exact ⟨_, hexec, clearBegun_spec m.box _ x hc u⟩

theorem ctxSwitch_clears_empty {d : Nat} (h : MbReady m 0 none 2 s) (hp : m.part = .sc) (harg : m.argAt [1, 1] 0 = c) (hnext : m.argAt [1, 1] 1 = d) (hc : c < 64) (hd : d < 64)
    (hlen : 18 ≤ m.args.length) (hmask : ofLe ((m.args.drop 2).take 16) = 0) (hbound : s.boundQueues c = []) (hslots : s.ctxSlots c = []) (hdescs : s.die.pay.descs = [])
    (hq : s.die.queues ≤ 128) :
    Gives (.ctxSwitch m) s fun t => t.get .sc (Rg.MB_OWNED m.box) = 1 ∧ t.die.sync.clear = some { ctx := c, next := some (d, 0), box := m.box } ∧ t.hostFlags c = 0
        ∧ t.get .sc (Rg.HF_SIG_LO c) = 0 ∧ t.get .sc (Rg.HF_SIG_HI c) = 0 := by
  have hzero : ∀ q, bit 0 q = false := fun q => by rw [bit_testBit, Nat.zero_testBit]
  obtain ⟨x, hexec⟩ := ctxSwitch_begins h hp harg hnext hc hd hlen hmask rfl fun q _ hbit => absurd hbit (by simp [hzero])
  rw [(boundQueues_mbSubmit h.box 0x23 c hq).trans hbound, maskOf_nil] at hexec
  obtain ⟨hclear, hflags, hlo, hhi, -⟩ := clearBegun_spec m.box { ctx := c, next := some (d, 0), box := m.box, queues := 0 } x hc (s.mbSubmit m 0x23)
  exact ⟨_, hexec, owned_clearBegun _ _ _ h.box hp hc hbound hslots hdescs hq, hclear, hflags, hlo, hhi⟩

end

/-- The end of a clear: CLEARED sets and the command that waited completes (R203, step 6). -/
theorem contextClearEnd_completes {b c : Nat} {w : Machine.MbWait} {s : State} (hclear : s.die.sync.clear = some { ctx := c, box := b }) (hb : b < 8) (hwait : (s.mail .sc b).wait = some w) :
    Gives .contextClearEnd s fun t => t.get .sc Rg.MON_CLEARED = 1 ∧ t.die.sync.clear = none ∧ t.get .sc (Rg.MB_STATUS b) = 0 ∧ t.get .sc (Rg.MB_DONE b) = 1 ∧ t.get .sc (Rg.MB_OWNED b) = 0 := by
  refine ⟨((s.setSync { s.die.sync with clear := none }).put .sc Rg.MON_CLEARED 1).mbComplete .sc b (.ok []), ?_, ?_⟩
  · change execContextClearEnd s = _
    unfold execContextClearEnd
    simp only [hclear]
  · obtain ⟨hstatus, -, hdone, howned⟩ := comp_answered (q := .sc) (b := b) (s := (s.setSync { s.die.sync with clear := none }).put .sc Rg.MON_CLEARED 1) ((congrArg Mail.wait (State.mail_put ..)).trans hwait) []
    refine ⟨?_, ?_, hstatus, hdone, howned⟩
    · rw [get_comp ((offMb_iff _).2 not_mbKeys_of_off) .sc .sc hb, State.get_put_same]
      rfl
    · rw [comp_die]
      rfl

/-! The monitor (R211, R212). -/

/-- The records of a stalled context feed attendance and nothing else (R212). -/
theorem deadlockRecords_only (c : Nat) (s : State) : Only .sc true attKeys s (s.deadlockRecords c) :=
  Only.foldl (fun t _ => (Only.refl .sc true attKeys t).record (fun _ h => h) _) _ (Only.refl ..)

theorem monDump_records {m : MbGo} {s : State} (h : MbReady m 0 none 1 s) (hp : m.part = .sc) :
    Gives (.monDump m) s fun t => Answered m 0 t ∧ Only .sc true (fun k => mbKeys k ∨ attKeys k) s t := by
  refine ⟨_, rfl, ?_⟩
  rw [scOnly_sc hp, mailbox_eq_answer (jobArg := none) h rfl (out := .ok []) (u := (s.mbSubmit m 0x28).deadlockRecords (m.argAt [1] 0)) rfl]
  refine ⟨answered_ok .., ?_⟩
  have hsubmit : Only m.part true (fun k => mbKeys k ∨ attKeys k) s (s.mbSubmit m 0x28) := (Only.refl ..).mbSubmit h.box (fun _ => .inl) 0x28
  rw [hp] at hsubmit ⊢
  exact (hsubmit.trans ((deadlockRecords_only ..).mono fun _ => .inr)).mbAnswer_ok h.box (fun _ => .inl) ..

/-- The end of a host wait leaves its status, valid, in the entry's result (R208). -/
theorem hostWaitEnd_spec (en status epoch : Nat) (s : State) :
    (s.hostWaitEnd en status epoch).get .sc (Rg.HST_WS_STATUS en) = status % 2 ^ 4 ∧ (s.hostWaitEnd en status epoch).get .sc (Rg.HST_WS_VALID en) = 1
      ∧ (s.hostWaitEnd en status epoch).die = s.die := by
  have hne : ∀ f : Machine.Field, f.off = 0x4840 + 4 * en → decide (f.lo < 32) = true → f.key ≠ Rg.HST_W_DONE.key ∧ f.key ≠ Rg.HST_W_ARMED.key := fun f ho hl =>
    ⟨key_ne_of_off (by rw [ho]; change _ ≠ 0x4818; omega) hl, key_ne_of_off (by rw [ho]; change _ ≠ 0x4818; omega) hl⟩
  unfold State.hostWaitEnd
  refine ⟨?_, ?_, rfl⟩
  · rw [State.get_put_ne _ (hne _ rfl rfl).2, State.get_put_ne _ (hne _ rfl rfl).1, State.get_put_ne _ key_ne_of_lo, State.get_put_ne _ key_ne_of_lo, State.get_put_same]
    rfl
  · rw [State.get_put_ne _ (hne _ rfl rfl).2, State.get_put_ne _ (hne _ rfl rfl).1, State.get_put_same]
    rfl

/-- A wait of an entry that stands at a slot ends with its status and leaves the slot (R208, R215). -/
theorem hostWaitStop_spec {i en : Nat} {v : Machine.Slot} {s : State} (status : Nat) (hfind : (s.die.sync.slots.find? fun e => (SMap.find en e.2.hostWaits).isSome) = some (i, v)) :
    (s.hostWaitStop en status).get .sc (Rg.HST_WS_STATUS en) = status % 2 ^ 4 ∧ (s.hostWaitStop en status).get .sc (Rg.HST_WS_VALID en) = 1
      ∧ ((s.hostWaitStop en status).slotAt (.hub i)).hostWaits = SMap.erase en v.hostWaits := by
  unfold State.hostWaitStop
  simp only [hfind]
  obtain ⟨hstatus, hvalid, hdie⟩ := hostWaitEnd_spec en status (SMap.get 0 en v.hostWaits) (s.setSlotAt (.hub i) { v with hostWaits := SMap.erase en v.hostWaits })
  refine ⟨hstatus, hvalid, ?_⟩
  rw [slotAt_congr hdie, slotAt_set]

theorem hostWaitCancel_cancels {m : MbGo} {i en : Nat} {v : Machine.Slot} {s : State} (h : MbReady m 0 none 2 s) (hp : m.part = .sc) (harg : m.argAt [2] 0 = 2 ^ en) (hen : en < 16)
    (hfind : (s.die.sync.slots.find? fun e => (SMap.find en e.2.hostWaits).isSome) = some (i, v)) :
    Gives (.hostWaitCancel m) s fun t => Answered m 0 t ∧ t.get .sc (Rg.HST_WS_STATUS en) = 1 ∧ t.get .sc (Rg.HST_WS_VALID en) = 1 ∧ (t.slotAt (.hub i)).hostWaits = SMap.erase en v.hostWaits := by
  refine ⟨_, rfl, ?_⟩
  rw [scOnly_sc hp, mailbox_eq_answer (jobArg := none) h rfl (out := .ok []) (u := (s.mbSubmit m 0x27).hostWaitStop en 1) ?body]
  case body =>
    unfold MbGo.argAt at harg
    simp only [harg, setBits_single hen, List.foldl_cons, List.foldl_nil]
  obtain ⟨hstatus, hvalid, hwaits⟩ := hostWaitStop_spec (s := s.mbSubmit m 0x27) 1 (by rw [mbSubmit_die]; exact hfind)
  refine ⟨answered_ok .., ?_, ?_, ?_⟩
  · rw [get_ans h.box _ _ (not_mbKeys_of_lt (show 0x4840 + 4 * en < 0x8800 by omega)), hstatus]
    rfl
  · rw [get_ans h.box _ _ (not_mbKeys_of_lt (show 0x4840 + 4 * en < 0x8800 by omega)), hvalid]
  · rw [slotAt_congr (die_ans ..), hwaits]

theorem deadlockDeclare_declares {c a : Nat} {s : State} (hc : c < 64) (hstalled : (s.mon c).stalled = some a) (hon : s.get .sc Rg.MON_MON_EN = 1)
    (hbit : bit (s.get64 Rg.MON_DEADLOCK_LO Rg.MON_DEADLOCK_HI) c = false) :
    Gives (.deadlockDeclare c) s fun t => t.get .sc Rg.MON_MONITOR = 1
        ∧ t.get .sc Rg.MON_DEADLOCK_LO = setBit (s.get64 Rg.MON_DEADLOCK_LO Rg.MON_DEADLOCK_HI) c % 2 ^ 32
        ∧ t.get .sc Rg.MON_DEADLOCK_HI = setBit (s.get64 Rg.MON_DEADLOCK_LO Rg.MON_DEADLOCK_HI) c / 2 ^ 32 % 2 ^ 32 := by
  change ∃ t, execDeadlockDeclare c s = .next t ∧ _
  unfold execDeadlockDeclare
  simp only [hstalled, hbit, flag1 hon, hc, decide_true, Bool.not_false, Bool.and_self, if_true]
  refine ⟨_, rfl, ?_⟩
  rw [(sendMonitor_all ..).2.1, (sendMonitor_all ..).2.1, (sendMonitor_all ..).2.1, (deadlockRecords_only ..).get _ (not_att (by decide) (by decide) (by decide)),
    (deadlockRecords_only ..).get _ (not_att (by decide) (by decide) (by decide)), (deadlockRecords_only ..).get _ (not_att (by decide) (by decide) (by decide))]
  unfold State.put64
  refine ⟨?_, ?_, ?_⟩
  · rw [State.get_put_same]
    rfl
  · rw [State.get_put_ne _ (by decide), State.get_put_ne _ (by decide), State.get_put_ne _ (by decide), State.get_put_ne _ (by decide), State.get_put_same]
    rfl
  · rw [State.get_put_ne _ (by decide), State.get_put_ne _ (by decide), State.get_put_ne _ (by decide), State.get_put_same]
    rfl

/-- Settles O14, each clause by the lemma on its command. -/
theorem barriersAndContexts : Obligations.BarriersAndContexts := by
  unfold Obligations.BarriersAndContexts
  exact ⟨fun _ _ _ _ _ _ _ _ _ hlive hraw hstart hpass hx hmsg hword hjoined hrel hvalid hclk hclk' hphi hbound hnear =>
      heartbeatReceive_corrects hlive hraw hstart hpass hx hmsg hword hjoined hrel hvalid hclk hclk' hphi hbound hnear,
    fun _ _ _ _ _ _ _ hpick hbody hdue hfirst hgen hbound hslot hop hauto hwait => stationEventCommit_releases hpick hbody hdue hfirst hgen hbound hslot hop hauto hwait,
    fun _ _ _ h hp hscope hlen hc hok hfree hquota hfresh => barrierCreate_creates h hp hscope hlen hc hok hfree hquota hfresh,
    fun _ _ _ _ _ hm hp hc hh hslot hctx hhandle hscope hwaits hhost hdescs hheld => barrierFree_frees hm hp hc hh hslot hctx hhandle hscope hwaits hhost hdescs hheld,
    fun _ _ _ _ h hp harg hjob hc hj hstage hunbound hother hslots => ctxBind_binds h hp harg hjob hc hj hstage hunbound hother hslots,
    fun _ _ _ h hp harg hc hbound hslots hdescs hq => ctxClear_clears_empty h hp harg hc hbound hslots hdescs hq,
    fun _ _ _ _ h hp harg hnext hc hd hlen hmask hbound hslots hdescs hq => ctxSwitch_clears_empty h hp harg hnext hc hd hlen hmask hbound hslots hdescs hq,
    fun _ _ _ _ hclear hb hwait => contextClearEnd_completes hclear hb hwait,
    fun _ _ _ h hp hform hscope hi hlt => slotRead_answers h hp hform hscope hi hlt,
    fun _ _ _ _ h hp harg hv hc hle => ctxQuota_sets h hp harg hv hc hle,
    fun _ _ h hp => monDump_records h hp,
    fun _ _ _ _ _ h hp harg hen hfind => hostWaitCancel_cancels h hp harg hen hfind,
    fun _ _ _ hc hstalled hon hbit => deadlockDeclare_declares hc hstalled hon hbit,
    fun _ _ _ _ _ h hp harg hc hu hv => ctxClear_clears h hp harg hc hu hv,
    fun _ _ _ _ _ _ h hp harg hnext hc hd hlen hu hv htaken => ctxSwitch_clears h hp harg hnext hc hd hlen hu hv htaken⟩

end Sys2Proof.Proofs

/-! PROOFS. O13: each opcode of a sync queue and what releases it, by one lemma on each command. -/

namespace Sys2Proof.Proofs

open Sys2Proof Sys2Proof.Machine Sys2Proof.Cmds

-- One proof after another, as in the tests: side by side, the proofs of the joined text keep more stacks alive than the check's memory holds.
set_option Elab.async false

/-! A queue replaced: what else moves (R178, R387). -/

/-- Of the die a change of one queue moves the queues and the monitor, of the registers those of that queue and the ladder's. -/
def QueueMoved (q : Nat) (s t : State) : Prop := DQ s t ∧ Regs (queueKeys q) s t

theorem QueueMoved.trans {q : Nat} {s t u : State} (h : QueueMoved q s t) (k : QueueMoved q t u) : QueueMoved q s u := ⟨h.1.trans k.1, h.2.trans k.2⟩

theorem setQueue_moves (q : Nat) (x : SQueue) (s : State) : QueueMoved q s (s.setQueue q x) := ⟨(setQueue_dq q x s).1, setQueue_regs (Regs.refl _ s) fun _ h => h⟩

/-- The registers of a queue's binding stand at the first word of four; a change of a queue writes the others (R213). -/
theorem not_queueKeys_of_first {q : Nat} {f : Machine.Field} (ho : f.off % 16 = 0) (hl : decide (f.lo < 32) = true := by rfl) : ¬ queueKeys q f.key := by
  simp only [decide_eq_true_eq] at hl
  unfold queueKeys Machine.Field.key
  simp only [Rg.Q_LEVEL, Rg.Q_WAITING, Rg.Q_HEAD_OP, Rg.Q_HEAD_CMD_LO, Rg.Q_HEAD_CMD_HI, Rg.PL_HELD, Rg.PL_WAKES, Rg.PL_UNITS_DOWN]
  omega

/-- The binding of a queue, its context and its station stay. -/
theorem QueueMoved.get_binding {q k : Nat} {s t : State} (h : QueueMoved q s t) {f : Machine.Field} (ho : f.off = 0x4000 + 16 * k := by rfl) (hl : decide (f.lo < 32) = true := by rfl) :
    t.get .sc f = s.get .sc f := h.2 .sc f (not_queueKeys_of_first (by omega) hl)

theorem QueueMoved.queueSlot {q : Nat} {s t : State} (h : QueueMoved q s t) (k : Nat) : t.queueSlot q k = s.queueSlot q k := by
  unfold State.queueSlot State.handle
  rw [h.get_binding, h.get_binding (f := Rg.Q_STATION q), h.1]

/-! The head stalls, passes on, or clears FENCED (R181, R184). -/

theorem stallHead_queue {q : Nat} {e : QEntry} {pre rest : List QEntry} {s : State} (h : InQueue q pre e rest s) (target : Option Nat) :
    (s.stallHead q e.tag target).queue q = { s.queue q with entries := pre ++ { e with phase := .stalled, target := target } :: rest } := by
  unfold State.stallHead
  rw [queue_setQueue, modTag_at h _ _ rfl]

theorem passHead_queue {q : Nat} {e : QEntry} {pre rest : List QEntry} {s : State} (h : InQueue q pre e rest s) :
    (s.passHead q e.tag).queue q = { s.queue q with entries := pre ++ { e with phase := .passed } :: rest } := by
  unfold State.passHead
  rw [queue_setQueue, modTag_at h _ _ rfl]

theorem fenceTest_of_fenced {q : Nat} {s : State} (h : (s.queue q).fenced = true) (tag : Nat) : s.fenceTest q tag = s.setQueue q { s.queue q with fenced := false } := by
  unfold State.fenceTest
  exact if_pos h

/-- A queue whose head is stalled shows WAITING (R213). -/
theorem waiting_of_stalled {q : Nat} {e : QEntry} {pre rest : List QEntry} {x : SQueue} (hx : x.entries = pre ++ e :: rest) (hpre : ∀ y ∈ pre, y.phase = .passed) (he : e.phase = .stalled)
    (s : State) : (s.setQueue q x).get .sc (Rg.Q_WAITING q) = 1 := by
  rw [setQueue_waiting, head_at x hpre (by rw [he]; decide) hx]
  simp only [he, beq_self_eq_true]
  rfl

theorem stallHead_waiting {q : Nat} {e : QEntry} {pre rest : List QEntry} {s : State} (h : InQueue q pre e rest s) (hpre : ∀ y ∈ pre, y.phase = .passed) (target : Option Nat) :
    (s.stallHead q e.tag target).get .sc (Rg.Q_WAITING q) = 1 := by
  unfold State.stallHead
  rw [modTag_at h _ _ rfl]
  exact waiting_of_stalled rfl hpre rfl s

/-! The head executes (R179 to R182). -/

/-- An outcome known in a state in which the queue stands as it stood releases what it then may (R179, R182). -/
theorem qResolve_releases {q : Nat} {e : QEntry} {pre rest : List QEntry} {s u : State} (h : InQueue q pre e rest s) (hu : u.queue q = s.queue q) (status flags : Nat) :
    Released q pre e rest status flags s (u.qResolve q e.tag status flags) := by
  refine released_of ?_
  rw [(resolve_one (inQueue_of h (by rw [hu]))).2.1, hu]

section
variable {q : Nat} {es : List Nat} {e : QEntry} {pre rest : List QEntry} {s : State}

/-- The state in which the head of a queue executes: its station has taken its region edges. -/
def headState (q : Nat) (es : List Nat) (s : State) : State := s.stnEdges (s.get .sc (Rg.Q_STATION q)) es

@[simp] theorem headState_queue (k : Nat) : (headState q es s).queue k = s.queue k := rfl

@[simp] theorem headState_get (p : Part) (f : Machine.Field) : (headState q es s).get p f = s.get p f := edges_get ..

theorem headState_stn : (headState q es s).stn (s.get .sc (Rg.Q_STATION q)) = (s.stn (s.get .sc (Rg.Q_STATION q))).edges (s.period (s.get .sc (Rg.Q_STATION q))) es := stnEdges_stn ..

@[simp] theorem headState_get64 (lo hi : Machine.Field) : (headState q es s).get64 lo hi = s.get64 lo hi := by
  unfold State.get64
  rw [headState_get, headState_get]

/-- A command that may execute does so in that state. -/
theorem atHead_runs (h : AtHead q pre e rest s) {ops : Nat → Bool} (hop : ops e.op = true) (run : QEntry → State → State) : s.atHead q es ops run = run e (headState q es s) :=
  atHead_one h es ops hop run

theorem inQueue_headState (h : AtHead q pre e rest s) : InQueue q pre e rest (headState q es s) := inQueue_of h.toInQueue rfl

theorem nop_releases (h : AtHead q pre e rest s) (hop : e.op = 0) : Gives (.nop q es) s fun t => Released q pre e rest 0 0 s t := by
  refine ⟨_, rfl, ?_⟩
  rw [atHead_runs h (by rw [hop]; rfl)]
  exact qResolve_releases h.toInQueue (by rfl) 0 0

theorem reservedOpcode_releases (h : AtHead q pre e rest s) (hop : 11 ≤ e.op) : Gives (.reservedOpcode q es) s fun t => Released q pre e rest 7 0 s t := by
  refine ⟨_, rfl, ?_⟩
  rw [atHead_runs h (decide_eq_true hop)]
  exact qResolve_releases h.toInQueue (by rfl) 7 0

theorem queueCmdAccept_appends {cmd : Nat} (hlive : s.queueLive q = true) (hroom : (s.queue q).entries.length < 64) (hclear : s.clearing q = false) :
    Gives (.queueCmdAccept q cmd) s fun t => t.queue q = { s.queue q with
      entries := (s.queue q).entries ++ [{ tag := (s.queue q).nextTag, cmd := cmd % 2 ^ 64 }], nextTag := ((s.queue q).nextTag + 1) % 64 } := by
  have hready : s.cmdReady q = true := by
    unfold State.cmdReady
    rw [hlive, hclear, decide_eq_true hroom]
    rfl
  change ∃ t, execQueueCmdAccept q cmd s = .next t ∧ _
  unfold execQueueCmdAccept
  rw [hready]
  exact ⟨_, rfl, queue_setQueue ..⟩

/-! Fences (R184). -/

theorem fence_stalls (h : AtHead q pre e rest s) (hop : e.op = 4) :
    Gives (.fence q es) s fun t => t.queue q = { s.queue q with entries := pre ++ { e with phase := .stalled, target := none } :: rest, drainReq := true }
      ∧ t.get .sc (Rg.Q_WAITING q) = 1 := by
  refine ⟨_, rfl, ?_⟩
  rw [atHead_runs h (by rw [hop]; rfl)]
  have hstalled := stallHead_queue (inQueue_headState (es := es) h) none
  dsimp only
  rw [queue_setQueue, hstalled]
  exact ⟨rfl, waiting_of_stalled rfl h.passed rfl _⟩

theorem drainAck_releases (h : InQueue q pre e rest s) (hpre : ∀ x ∈ pre, x.phase = .passed) (hphase : e.phase = .stalled) (hop : e.op = 4) (hreq : (s.queue q).drainReq = true) :
    Gives (.drainAck q) s fun t => Released q pre e rest 0 0 s t ∧ (t.queue q).fenced = true ∧ (t.queue q).drainReq = false := by
  have hq : ∀ x : SQueue, (s.setQueue q x).queue q = x := fun x => queue_setQueue q x s
  have hin : InQueue q pre e rest (s.setQueue q { s.queue q with drainReq := false, fenced := true }) := inQueue_of h (by rw [hq])
  change ∃ t, execDrainAck q s = .next t ∧ _
  unfold execDrainAck
  simp only [head_one h hpre (by rw [hphase]; decide), hreq, hop, hphase, beq_self_eq_true, Bool.and_self, if_true]
  refine ⟨_, rfl, ?_⟩
  unfold Released
  rw [(resolve_one hin).2.1, hq]
  exact ⟨⟨rfl, rfl⟩, rfl, rfl⟩

/-! Host flags and signals (R209). -/

theorem get_put64_lo {lo hi : Machine.Field} (h : lo.key ≠ hi.key) (v : Nat) (s : State) : (s.put64 lo hi v).get .sc lo = v % 2 ^ lo.width := by
  unfold State.put64
  rw [State.get_put_ne _ h, State.get_put_same]

theorem get_put64_hi (lo hi : Machine.Field) (v : Nat) (s : State) : (s.put64 lo hi v).get .sc hi = v / 2 ^ 32 % 2 ^ hi.width := by
  unfold State.put64
  rw [State.get_put_same]

theorem queue_put64 (lo hi : Machine.Field) (v k : Nat) (s : State) : (s.put64 lo hi v).queue k = s.queue k := rfl

/-- What a release at a queue of the block leaves of a context's signals (R209, R213). -/
theorem not_relKeys_of_signal {c : Nat} (hq : q < 128) (hc : c < 64) {f : Machine.Field} (ho : f.off = 0x5000 + 8 * c ∨ f.off = 0x5004 + 8 * c) (hl : f.lo = 0) : ¬ relKeys q f.key := by
  have hatt : ¬ attKeys f.key := not_att (by unfold Machine.Field.key; omega) (by unfold Machine.Field.key; omega) (by unfold Machine.Field.key; omega)
  rintro (hqueue | hrec | hdead | hdead)
  · unfold queueKeys Machine.Field.key at hqueue
    simp only [Rg.Q_LEVEL, Rg.Q_WAITING, Rg.Q_HEAD_OP, Rg.Q_HEAD_CMD_LO, Rg.Q_HEAD_CMD_HI, Rg.PL_HELD, Rg.PL_WAKES, Rg.PL_UNITS_DOWN] at hqueue
    omega
  · exact hatt hrec
  · simp only [Machine.Field.key, Rg.MON_DEADLOCK_LO] at hdead
    omega
  · simp only [Machine.Field.key, Rg.MON_DEADLOCK_HI] at hdead
    omega

theorem signalHost_signals {c : Nat} (hc : s.get .sc (Rg.Q_CTX q) = c) (h : AtHead q pre e rest s) (hq : q < 128) (hop : e.op = 6) (hlt : c < 64) :
    Gives (.signalHost q es) s fun t => Released q pre e rest 0 0 s t
      ∧ t.get .sc (Rg.HF_SIG_LO c) = setBit (s.get64 (Rg.HF_SIG_LO c) (Rg.HF_SIG_HI c)) (e.cmd % 64) % 2 ^ 32
      ∧ t.get .sc (Rg.HF_SIG_HI c) = setBit (s.get64 (Rg.HF_SIG_LO c) (Rg.HF_SIG_HI c)) (e.cmd % 64) / 2 ^ 32 % 2 ^ 32 := by
  refine ⟨_, rfl, ?_⟩
  rw [atHead_runs h (by rw [hop]; rfl)]
  simp only [headState_get, headState_get64, hc]
  generalize setBit (s.get64 (Rg.HF_SIG_LO c) (Rg.HF_SIG_HI c)) (e.cmd % 64) = sig
  have hin : InQueue q pre e rest ((headState q es s).put64 (Rg.HF_SIG_LO c) (Rg.HF_SIG_HI c) sig) := inQueue_of h.toInQueue rfl
  obtain ⟨-, -, hregs, -⟩ := resolve_one (st := 0) (fl := 0) hin
  refine ⟨qResolve_releases h.toInQueue (by rfl) 0 0, ?_, ?_⟩
  · rw [hregs .sc _ (not_relKeys_of_signal hq hlt (.inl rfl) rfl), get_put64_lo (key_ne_of_off (by simp only [Rg.HF_SIG_LO, Rg.HF_SIG_HI]; omega))]
    rfl
  · rw [hregs .sc _ (not_relKeys_of_signal hq hlt (.inr rfl) rfl), get_put64_hi]
    rfl

theorem hostFlags_headState (c : Nat) : (headState q es s).hostFlags c = s.hostFlags c := headState_get64 ..

theorem waitHost_releases (h : AtHead q pre e rest s) (hop : e.op = 7) (hset : bit (s.hostFlags (s.get .sc (Rg.Q_CTX q))) (e.cmd % 64) = true) :
    Gives (.waitHost q es) s fun t => Released q pre e rest 0 0 s t := by
  refine ⟨_, rfl, ?_⟩
  rw [atHead_runs h (by rw [hop]; rfl)]
  simp only [headState_get, hostFlags_headState, hset, if_true]
  exact qResolve_releases h.toInQueue (by rfl) 0 0

/-- What stalls at the head stays there, and the queue shows WAITING (R181, R213). -/
theorem stallHead_stalls (h : AtHead q pre e rest s) (target : Option Nat) :
    (((headState q es s).stallHead q e.tag target).queue q).entries = pre ++ { e with phase := .stalled, target := target } :: rest
      ∧ ((headState q es s).stallHead q e.tag target).get .sc (Rg.Q_WAITING q) = 1 :=
  ⟨congrArg SQueue.entries (stallHead_queue (inQueue_headState h) target), stallHead_waiting (inQueue_headState h) h.passed target⟩

theorem waitHost_stalls (h : AtHead q pre e rest s) (hop : e.op = 7) (hclear : bit (s.hostFlags (s.get .sc (Rg.Q_CTX q))) (e.cmd % 64) = false) :
    Gives (.waitHost q es) s fun t => (t.queue q).entries = pre ++ { e with phase := .stalled, target := none } :: rest ∧ t.get .sc (Rg.Q_WAITING q) = 1 := by
  refine ⟨_, rfl, ?_⟩
  rw [atHead_runs h (by rw [hop]; rfl)]
  simp only [headState_get, hostFlags_headState, hclear, Bool.false_eq_true, if_false]
  exact stallHead_stalls h none

/-! Bells, times and stamps (R194 to R196). -/

theorem ctxJob_headState (c : Nat) : (headState q es s).ctxJob c = s.ctxJob c := by
  unfold State.ctxJob State.flag
  rw [headState_get, headState_get]

theorem lastBell_headState (j : Nat) : (headState q es s).lastBell j = s.lastBell j := by
  unfold State.lastBell
  rw [headState_get, headState_get]

theorem waitBell_releases {j : Nat} (h : AtHead q pre e rest s) (hop : e.op = 8) (hjob : s.ctxJob (s.get .sc (Rg.Q_CTX q)) = some j) (hvalid : s.get .sc (Rg.SJH_BELL_VALID j) = 1)
    (hrung : sdiff48 (e.cmd % 2 ^ 48) (s.lastBell j) ≤ 0) :
    Gives (.waitBell q es) s fun t => Released q pre e rest 0 (4 * s.get .sc (Rg.STN_RT_UNREL (s.get .sc (Rg.Q_STATION q)))) s t := by
  refine ⟨_, rfl, ?_⟩
  rw [atHead_runs h (by rw [hop]; rfl)]
  simp only [headState_get, ctxJob_headState, hjob, lastBell_headState, flag1 ((headState_get (q := q) (es := es) ..).trans hvalid), hrung, decide_true, Bool.and_self, if_true]
  exact qResolve_releases h.toInQueue (by rfl) 0 _

theorem waitTime_stalls (h : AtHead q pre e rest s) (hop : e.op = 9) :
    Gives (.waitTime q es) s fun t => (t.queue q).entries = pre ++ { e with phase := .stalled, target := some ((s.stnEdges (s.get .sc (Rg.Q_STATION q)) es).timeTarget q e.cmd) } :: rest
      ∧ t.get .sc (Rg.Q_WAITING q) = 1 := by
  refine ⟨_, rfl, ?_⟩
  rw [atHead_runs h (by rw [hop]; rfl)]
  exact stallHead_stalls h _

theorem stamp_releases (h : AtHead q pre e rest s) (hop : e.op = 10) :
    Gives (.stamp q es) s fun t => Released q pre e rest 0 0 s t ∧ t.dieMem = s.dieMem.writeN (16 * (e.cmd % 2 ^ 60))
      (ht80Bytes ((s.stn (s.get .sc (Rg.Q_STATION q))).edges (s.period (s.get .sc (Rg.Q_STATION q))) es).rt
        ((s.stnEdges (s.get .sc (Rg.Q_STATION q)) es).stnStat (s.get .sc (Rg.Q_STATION q)))) := by
  obtain ⟨t, hexec, hmem⟩ := stamp_stores (es := es) h hop
  refine ⟨t, hexec, ?_, hmem⟩
  have hrun : exec (.stamp q es) s = .next (s.atHead q es (· == 10) _) := rfl
  rw [hrun, atHead_runs h (by rw [hop]; rfl)] at hexec
  cases hexec
  exact qResolve_releases h.toInQueue (by rfl) 0 0

theorem waitBellRelease_releases {x : Nat} (hlive : s.queueLive q = true) (h : InQueue q pre e rest s) (hpre : ∀ x ∈ pre, x.phase = .passed) (hphase : e.phase = .stalled) (hop : e.op = 8)
    (htarget : e.target = some x) (hreached : ((s.stn (s.get .sc (Rg.Q_STATION q))).edges (s.period (s.get .sc (Rg.Q_STATION q))) es).reached x = true) :
    Gives (.waitBellRelease q es) s fun t => ∃ late : Bool, Released q pre e rest 0 (2 * ofBool late + 4 * s.get .sc (Rg.STN_RT_UNREL (s.get .sc (Rg.Q_STATION q)))) s t :=
  ⟨_, rfl, launchHead_one hlive h hpre hphase hop htarget hreached⟩

theorem waitTimeRelease_releases {x : Nat} (hlive : s.queueLive q = true) (h : InQueue q pre e rest s) (hpre : ∀ x ∈ pre, x.phase = .passed) (hphase : e.phase = .stalled) (hop : e.op = 9)
    (htarget : e.target = some x) (hreached : ((s.stn (s.get .sc (Rg.Q_STATION q))).edges (s.period (s.get .sc (Rg.Q_STATION q))) es).reached x = true) :
    Gives (.waitTimeRelease q es) s fun t => ∃ late : Bool, Released q pre e rest 0 (2 * ofBool late + 4 * s.get .sc (Rg.STN_RT_UNREL (s.get .sc (Rg.Q_STATION q)))) s t :=
  ⟨_, rfl, launchHead_one hlive h hpre hphase hop htarget hreached⟩

/-! Barrier commands on their way to the hub, and the hub's releases (R169, R181 to R184, R201). -/

theorem hubReleaseAtStation_releases {r : HubRel} (hfind : (s.die.sync.rels.find? fun x => x.q == q) = some r) (hgen : s.get .sc (Rg.Q_BIND_GEN q) = r.bindGen)
    (hbound : s.get .sc (Rg.Q_BOUND q) = 1) (h : InQueue q pre e rest s) (htag : e.tag = r.tag) :
    Gives (.hubReleaseAtStation q) s fun t => Released q pre e rest r.status r.flags s t ∧ t.die.sync.rels = s.die.sync.rels.erase r := by
  change ∃ t, execHubReleaseAtStation q s = .next t ∧ _
  unfold execHubReleaseAtStation
  simp only [hfind, hgen, flag1 hbound, bne_self_eq_false, Bool.not_true, Bool.or_self, Bool.false_eq_true, if_false, ← htag]
  have hin : InQueue q pre e rest (s.setSync { s.die.sync with rels := s.die.sync.rels.erase r }) := inQueue_of h rfl
  obtain ⟨hdie, -⟩ := resolve_one (st := r.status) (fl := r.flags) hin
  refine ⟨_, rfl, qResolve_releases h (by rfl) r.status r.flags, ?_⟩
  rw [hdie]
  rfl

/-- Whether the output buffer has room and region time is valid: a barrier command at the head then leaves its station (R168, R174). -/
structure MayLeave (q i : Nat) (e : QEntry) (s : State) : Prop where
  room : s.stnFull q = false
  valid : (s.stn (s.get .sc (Rg.Q_STATION q))).valid = true
  slot : s.handle (s.get .sc (Rg.Q_CTX q)) (bits e.cmd 48 12) = some (.hub i)

theorem MayLeave.queueSlot {i : Nat} (h : MayLeave q i e s) : s.queueSlot q (bits e.cmd 48 12) = some (.hub i) := by
  unfold State.queueSlot
  rw [h.slot]

/-- What the head goes through before its event is posted: the test of the fence for an arrival, then it passes on or stalls. -/
def headTaken (q op tag : Nat) (s : State) : State :=
  let s1 := if op = 2 then s else s.fenceTest q tag
  if op = 1 then s1.passHead q tag else s1.stallHead q tag none

theorem barrierHead_sends {op i : Nat} (h : AtHead q pre e rest s) (hop : e.op = op) (hleave : MayLeave q i e s) (hmoved : QueueMoved q (headState q es s) (headTaken q op e.tag (headState q es s))) :
    ∃ t, s.barrierHead q es op = t ∧ OnlyEv (headTaken q op e.tag (headState q es s)) t
      ∧ Sent q e ((s.stn (s.get .sc (Rg.Q_STATION q))).edges (s.period (s.get .sc (Rg.Q_STATION q))) es).stamp s t := by
  have hslot : (headTaken q op e.tag (headState q es s)).queueSlot q (bits e.cmd 48 12) = some (.hub i) := by
    rw [hmoved.queueSlot, ← hleave.queueSlot]
    unfold State.queueSlot State.handle
    rw [headState_get, headState_get]
    rfl
  obtain ⟨honly, hsent⟩ := sendEvent_spec (q := q) (e := e) (s := s) (v := headTaken q op e.tag (headState q es s)) (by rw [hmoved.1]; rfl) (by rw [hmoved.get_binding, headState_get])
    (by rw [hmoved.get_binding, headState_get])
  rw [hmoved.1.stn, headState_stn] at hsent
  refine ⟨_, ?_, honly, hsent⟩
  unfold State.barrierHead
  rw [hleave.room, hleave.valid, atHead_runs h (by rw [hop]; exact beq_self_eq_true _)]
  unfold headTaken at hslot ⊢
  simp only [hslot, Bool.not_true, Bool.or_self, Bool.false_eq_true, if_false]

theorem queue_of_onlyEv {s t : State} (h : OnlyEv s t) (k : Nat) : t.queue k = s.queue k := by
  obtain ⟨_, rfl⟩ := h
  rfl

/-- A fence stands before the arrival: FENCED is clear behind it (R184). -/
theorem fenceTest_clears {tag : Nat} (h : InQueue q pre e rest s) (hfenced : (s.queue q).fenced = true) :
    InQueue q pre e rest (s.fenceTest q tag) ∧ (s.fenceTest q tag).queue q = { s.queue q with fenced := false } ∧ QueueMoved q s (s.fenceTest q tag) := by
  rw [fenceTest_of_fenced hfenced]
  have hq := queue_setQueue q { s.queue q with fenced := false } s
  exact ⟨inQueue_of h (by rw [hq]), hq, setQueue_moves ..⟩

theorem arrive_travels {i : Nat} (h : AtHead q pre e rest s) (hop : e.op = 1) (hfenced : (s.queue q).fenced = true) (hleave : MayLeave q i e s) :
    Gives (.arrive q es) s fun t => (t.queue q).fenced = false ∧ (t.queue q).entries = pre ++ { e with phase := .passed } :: rest
      ∧ Sent q e ((s.stn (s.get .sc (Rg.Q_STATION q))).edges (s.period (s.get .sc (Rg.Q_STATION q))) es).stamp s t := by
  obtain ⟨hin, hqueue, hmoved⟩ := fenceTest_clears (tag := e.tag) (inQueue_headState (es := es) h) hfenced
  obtain ⟨t, hexec, honly, hsent⟩ := barrierHead_sends h hop hleave (hmoved.trans (setQueue_moves ..))
  have hpass := passHead_queue hin
  rw [hqueue] at hpass
  have hq := (queue_of_onlyEv honly q).trans hpass
  exact ⟨t, congrArg Host.Outcome.next hexec, congrArg SQueue.fenced hq, congrArg SQueue.entries hq, hsent⟩

theorem wait_travels {i : Nat} (h : AtHead q pre e rest s) (hop : e.op = 2) (hleave : MayLeave q i e s) :
    Gives (.wait q es) s fun t => (t.queue q).entries = pre ++ { e with phase := .stalled, target := none } :: rest ∧ t.get .sc (Rg.Q_WAITING q) = 1
      ∧ Sent q e ((s.stn (s.get .sc (Rg.Q_STATION q))).edges (s.period (s.get .sc (Rg.Q_STATION q))) es).stamp s t := by
  obtain ⟨t, hexec, honly, hsent⟩ := barrierHead_sends h hop hleave (setQueue_moves ..)
  obtain ⟨hentries, hwaiting⟩ := stallHead_stalls (es := es) h none
  exact ⟨t, congrArg Host.Outcome.next hexec, (congrArg SQueue.entries (queue_of_onlyEv honly q)).trans hentries, (honly.get ..).trans hwaiting, hsent⟩

theorem arriveWait_travels {i : Nat} (h : AtHead q pre e rest s) (hop : e.op = 3) (hfenced : (s.queue q).fenced = true) (hleave : MayLeave q i e s) :
    Gives (.arriveWait q es) s fun t => (t.queue q).fenced = false ∧ (t.queue q).entries = pre ++ { e with phase := .stalled, target := none } :: rest ∧ t.get .sc (Rg.Q_WAITING q) = 1
      ∧ Sent q e ((s.stn (s.get .sc (Rg.Q_STATION q))).edges (s.period (s.get .sc (Rg.Q_STATION q))) es).stamp s t := by
  obtain ⟨hin, hqueue, hmoved⟩ := fenceTest_clears (tag := e.tag) (inQueue_headState (es := es) h) hfenced
  obtain ⟨t, hexec, honly, hsent⟩ := barrierHead_sends h hop hleave (hmoved.trans (setQueue_moves ..))
  have hstall := stallHead_queue hin none
  rw [hqueue] at hstall
  have hq := (queue_of_onlyEv honly q).trans hstall
  exact ⟨t, congrArg Host.Outcome.next hexec, congrArg SQueue.fenced hq, congrArg SQueue.entries hq, (honly.get ..).trans (stallHead_waiting hin h.passed none), hsent⟩

end

/-- Settles O13, each clause by the lemma on its command. -/
theorem syncQueuesExecute : Obligations.SyncQueuesExecute := by
  unfold Obligations.SyncQueuesExecute
  exact ⟨fun _ _ _ hlive hroom hclear => queueCmdAccept_appends hlive hroom hclear,
    fun _ _ _ _ _ _ h hop => nop_releases h hop,
    fun _ _ _ _ _ _ h hop => reservedOpcode_releases h hop,
    fun _ _ _ _ _ _ _ h hop hfenced hroom hvalid hslot => arrive_travels h hop hfenced ⟨hroom, hvalid, hslot⟩,
    fun _ _ _ _ _ _ _ h hop hroom hvalid hslot => wait_travels h hop ⟨hroom, hvalid, hslot⟩,
    fun _ _ _ _ _ _ h hop => fence_stalls h hop,
    fun _ _ _ _ _ h hpre hphase hop hreq => drainAck_releases h hpre hphase hop hreq,
    fun _ _ _ _ _ _ h hq hop hlt => signalHost_signals rfl h hq hop hlt,
    fun _ _ _ _ _ _ h hop hset => waitHost_releases h hop hset,
    fun _ _ _ _ _ _ h hop hclear => waitHost_stalls h hop hclear,
    fun _ _ _ _ _ _ _ h hop hjob hvalid hrung => waitBell_releases h hop hjob hvalid hrung,
    fun _ _ _ _ _ _ h hop => waitTime_stalls h hop,
    fun _ _ _ _ _ _ h hop => stamp_releases h hop,
    fun _ _ _ _ _ _ hfind hgen hbound h htag => hubReleaseAtStation_releases hfind hgen hbound h htag,
    fun _ _ _ _ _ _ _ hlive h hpre hphase hop htarget hreached => waitBellRelease_releases hlive h hpre hphase hop htarget hreached,
    fun _ _ _ _ _ _ _ hlive h hpre hphase hop htarget hreached => waitTimeRelease_releases hlive h hpre hphase hop htarget hreached,
    fun _ _ _ _ _ _ _ h hop hfenced hroom hvalid hslot => arriveWait_travels h hop hfenced ⟨hroom, hvalid, hslot⟩⟩

end Sys2Proof.Proofs

/-! PROOFS. O15: the host's registers and the direct create block, by what a write to each does. -/

namespace Sys2Proof.Proofs

open Sys2Proof Sys2Proof.Machine Sys2Proof.Cmds

-- One proof after another, as in the tests: side by side, the proofs of the joined text keep more stacks alive than the check's memory holds.
set_option Elab.async false

/-! Writes to the host's registers and to the direct create block: no lock and no kept field stands there (R207 to R209, R214). -/

/-- The host's registers and the direct create block in the register map. -/
theorem mapAt_host : mapAt .sc 0x4804 = some (0, [Rg.HST_ARR_EPOCH]) ∧ mapAt .sc 0x4814 = some (0, [Rg.HST_ARM_EPOCH]) ∧ mapAt .sc 0x5820 = some (0, [Rg.BCR_OP])
    ∧ (∀ c < 64, mapAt .sc (0x4C00 + 16 * c) = some (c, [Rg.HF_FLAG_SET_LO c])) ∧ ∀ c < 64, mapAt .sc (0x4C08 + 16 * c) = some (c, [Rg.HF_FLAG_LO c]) := by
  decide +kernel

section
variable {req off v n : Nat} {f : Machine.Field} {s : State}

/-- A register between the queues' and the payload's that holds one field is every step core's. -/
theorem regAt_host (hlo : 0x4800 ≤ off) (hhi : off < 0x6800) (hmap : mapAt .sc off = some (n, [f])) (hf : f.off = off) : s.regAt .sc off = some (n, [f]) := by
  refine regAt_of ?_ hmap fun g hg => ?_
  · unfold State.regPresent
    simp only [Bool.and_eq_true, Bool.or_eq_true, decide_eq_true_eq]
    rw [if_neg (by omega), if_neg (by omega), if_neg (by omega), if_neg (by omega), if_neg (by omega), if_neg (by omega), if_neg (by omega)]
    simp only [Bool.not_eq_true', Bool.and_eq_false_iff, decide_eq_false_iff_not]
    omega
  · rw [List.mem_singleton.1 hg]
    refine Or.inr ?_
    unfold Machine.Field.key
    omega

/-- A write-only field that takes the whole word stores nothing (R9). -/
theorem writeFields_trigger {p : Part} {only : Machine.Field → Bool} (hacc : f.acc = .wo) (h0 : f.lo = 0) (hv : v < 2 ^ f.width) : s.writeFields p [f] v only = s := by
  refine writeFields_wo (fun g hg => ?_) (fun i hi hb => ?_) hv
  · rw [List.mem_singleton.1 hg, hacc]
  · have hout := outside_of_reservedBits hi hb f List.mem_cons_self
    unfold Outside at hout
    omega

/-- A trigger behind the owner of its register, carried out at once: what follows it is done. -/
theorem slateWord_hostTrigger (hm : s.mayWrite .sc req off v = true) (hlo : 0x4800 ≤ off) (hhi : off < 0x6800) (hmap : mapAt .sc off = some (n, [f])) (hf : f.off = off)
    (hemu : f.slate = true) (hopen : EmuOpen .sc off s) (hbusy : off = 0x4804 → s.flag .sc Rg.HST_RES_BUSY = false) (hacc : f.acc = .wo) (h0 : f.lo = 0) (hv : v < 2 ^ f.width) :
    ∃ sl, s.slateWord .sc req off v = (s.scWritten off n v s).setSlate .sc sl := by
  have hdirect : ([f].any fun f => !f.slate) = false := by simp [hemu]
  have hemulated : emulated [f] = true := by simp [emulated, hemu]
  rw [slateWord_open hm (by omega) nofun (regAt_host hlo hhi hmap hf) hdirect hemulated hopen fun _ => hbusy, applyWord_off (by omega), writeFields_trigger hacc h0 hv]
  simp only [hemulated, if_true]
  exact ⟨_, rfl⟩

/-- A write to a register of the step core's own: its field takes the word and what follows is done. -/
theorem slateWord_hostOwn (hm : s.mayWrite .sc req off v = true) (hlo : 0x4800 ≤ off) (hhi : off < 0x6800) (hmap : mapAt .sc off = some (n, [f])) (hf : f.off = off)
    (hown : f.slate = false) : s.slateWord .sc req off v = (s.writeFields .sc [f] v fun f => !f.slate).scWritten off n v s := by
  have hdirect : ([f].any fun f => !f.slate) = true := by simp [hown]
  have hemulated : emulated [f] = false := by simp [emulated, hown]
  rw [slateWord_direct hm (by omega) nofun (regAt_host hlo hhi hmap hf) hdirect hemulated, applyWord_off (by omega)]
  simp only [hemulated, Bool.false_eq_true, if_false]

end

/-! The host as participant (R207, R208). -/

section
variable {req i : Nat} {s : State}

theorem hostSlot_of_handle {c h : Nat} (hhandle : s.handle c h = some (.hub i)) : s.hostSlot c h = some (.hub i) := by
  unfold State.hostSlot
  rw [hhandle]

/-- A change of the hub that leaves its slots. -/
theorem slotAt_setSync {x : SyncSt} (hslots : x.slots = s.die.sync.slots) : (s.setSync x).slotAt (.hub i) = s.slotAt (.hub i) := congrArg (SMap.get ({} : Machine.Slot) i) hslots

theorem hostArrive_counts {epoch : Nat} (hauto : s.get .sc Rg.HST_ARR_EP_AUTO = 1) (hhandle : s.handle (s.get .sc Rg.HST_ARR_CTX) (s.get .sc Rg.HST_ARR_HANDLE) = some (.hub i))
    (hcounting : (s.slotAt (.hub i)).state = .counting) (hlocal : (s.slotAt (.hub i)).local_ = true) (hscope : (s.slotAt (.hub i)).scope = 1)
    (hpart : bit (s.slotAt (.hub i)).part 128 = true) (hnew : bit (s.slotAt (.hub i)).arr 128 = false)
    (hmore : popCount 129 (setBit (s.slotAt (.hub i)).arr 128) ≠ (s.slotAt (.hub i)).headcount) :
    (s.hostArrive epoch).get .sc Rg.HST_RES_STATUS = 0 ∧ (s.hostArrive epoch).get .sc Rg.HST_RES_EPOCH_T = (s.slotAt (.hub i)).e % 2 ^ 16
      ∧ ((s.hostArrive epoch).slotAt (.hub i)).arr = setBit (s.slotAt (.hub i)).arr 128
      ∧ (s.hostArrive epoch).die.sync.hostLast = some (s.get .sc Rg.HST_ARR_CTX * 4096 + s.get .sc Rg.HST_ARR_HANDLE, (s.slotAt (.hub i)).e) := by
  have hdie : (s.put .sc Rg.HST_RES_BUSY 0).die = s.die := State.put_die ..
  have hslot := slotAt_congr hdie (.hub i)
  obtain ⟨hstatus, hepoch, hafter, -⟩ := arrive_hub (i := i) (p := 128) (kind := 1) (idx := 0) (stamp := (s.put .sc Rg.HST_RES_BUSY 0).ht .sc % 2 ^ 48) (epoch := epoch) (auto := true)
    (s := s.put .sc Rg.HST_RES_BUSY 0) (by rwa [hslot]) (by rwa [hslot]) (by rwa [hslot]) (by rwa [hslot]) (by rwa [hslot]) (Or.inl rfl) (by rwa [hslot])
  have hget : ∀ f : Machine.Field, f.off = 0x4800 → decide (f.lo < 32) = true → (s.put .sc Rg.HST_RES_BUSY 0).get .sc f = s.get .sc f := fun f ho hl =>
    State.get_put_ne _ (key_ne_of_off (by rw [ho]; exact (by decide : 0x4800 ≠ 0x4808)) hl) ..
  unfold State.hostArrive
  simp only [hget Rg.HST_ARR_HANDLE rfl rfl, hget Rg.HST_ARR_CTX rfl rfl, hostSlot_of_handle ((handle_congr hdie _ _).trans hhandle),
    flag1 ((hget Rg.HST_ARR_EP_AUTO rfl rfl).trans hauto)]
  generalize State.arriveAt .. = o at hstatus hepoch hafter ⊢
  obtain ⟨status, target, t⟩ := o
  simp only at hstatus hepoch hafter
  simp only [hstatus, hepoch, if_true, hslot]
  refine ⟨?_, ?_, ?_, ?_⟩
  · rw [State.get_setSync, State.get_put_ne _ key_ne_of_lo, State.get_put_same]
    rfl
  · rw [State.get_setSync, State.get_put_same]
    rfl
  · rw [slotAt_setSync (by rfl), slotAt_congr ((State.put_die ..).trans (State.put_die ..)), hafter, hslot]
  · rfl

/-- HOST_ARRIVE (R207). -/
theorem hostArrive_arrives (hm : s.mayWrite .sc req 0x4804 0 = true) (hopen : EmuOpen .sc 0x4804 s) (hbusy : s.get .sc Rg.HST_RES_BUSY = 0) (hauto : s.get .sc Rg.HST_ARR_EP_AUTO = 1)
    (hhandle : s.handle (s.get .sc Rg.HST_ARR_CTX) (s.get .sc Rg.HST_ARR_HANDLE) = some (.hub i)) (hcounting : (s.slotAt (.hub i)).state = .counting)
    (hlocal : (s.slotAt (.hub i)).local_ = true) (hscope : (s.slotAt (.hub i)).scope = 1) (hpart : bit (s.slotAt (.hub i)).part 128 = true)
    (hnew : bit (s.slotAt (.hub i)).arr 128 = false) (hmore : popCount 129 (setBit (s.slotAt (.hub i)).arr 128) ≠ (s.slotAt (.hub i)).headcount) :
    Gives (.hostArrive req 0) s fun t => t.get .sc Rg.HST_RES_STATUS = 0 ∧ t.get .sc Rg.HST_RES_EPOCH_T = (s.slotAt (.hub i)).e % 2 ^ 16
      ∧ (t.slotAt (.hub i)).arr = setBit (s.slotAt (.hub i)).arr 128 ∧ t.die.sync.hostLast = some (s.get .sc Rg.HST_ARR_CTX * 4096 + s.get .sc Rg.HST_ARR_HANDLE, (s.slotAt (.hub i)).e) := by
  obtain ⟨hmap, -⟩ := mapAt_host
  obtain ⟨sl, hsl⟩ := slateWord_hostTrigger hm (by decide) (by decide) hmap rfl rfl hopen (fun _ => flag0 hbusy) rfl rfl (by decide)
  refine ⟨_, congrArg Host.Outcome.next hsl, ?_⟩
  simp only [State.get_setSlate, slotAt_congr (State.die_setSlate ..), State.die_setSlate]
  exact hostArrive_counts (epoch := 0) hauto hhandle hcounting hlocal hscope hpart hnew hmore

theorem hostArm_arms {epoch : Nat} (hauto : s.get .sc Rg.HST_ARM_EP_AUTO = 0) (hhandle : s.handle (s.get .sc Rg.HST_ARM_CTX) (s.get .sc Rg.HST_ARM_HANDLE) = some (.hub i))
    (hfree : ∀ e ∈ s.die.sync.slots, SMap.find (s.get .sc Rg.HST_ARM_ENTRY) e.2.hostWaits = none) (hwaits : (s.slotAt (.hub i)).waitFor epoch = none) :
    s.hostArm epoch = (s.setSlotAt (.hub i) { s.slotAt (.hub i) with hostWaits := SMap.set (s.get .sc Rg.HST_ARM_ENTRY) epoch (s.slotAt (.hub i)).hostWaits }).put .sc Rg.HST_W_ARMED
      (setBit (s.get .sc Rg.HST_W_ARMED) (s.get .sc Rg.HST_ARM_ENTRY)) := by
  have hstop : s.hostWaitStop (s.get .sc Rg.HST_ARM_ENTRY) 1 = s := by
    unfold State.hostWaitStop
    rw [List.find?_eq_none.2 fun e he => by rw [hfree e he]; exact nofun]
  unfold State.hostArm
  simp only [hstop, flag0 hauto, Bool.false_eq_true, if_false, hostSlot_of_handle hhandle, hwaits]

/-- HOST_WAIT_ARM (R208). -/
theorem hostWaitArm_arms {epoch : Nat} (hlt : epoch < 65536) (hm : s.mayWrite .sc req 0x4814 epoch = true) (hopen : EmuOpen .sc 0x4814 s) (hauto : s.get .sc Rg.HST_ARM_EP_AUTO = 0)
    (hhandle : s.handle (s.get .sc Rg.HST_ARM_CTX) (s.get .sc Rg.HST_ARM_HANDLE) = some (.hub i))
    (hfree : ∀ e ∈ s.die.sync.slots, SMap.find (s.get .sc Rg.HST_ARM_ENTRY) e.2.hostWaits = none) (hwaits : (s.slotAt (.hub i)).waitFor epoch = none) :
    Gives (.hostWaitArm req epoch) s fun t => t.get .sc Rg.HST_W_ARMED = setBit (s.get .sc Rg.HST_W_ARMED) (s.get .sc Rg.HST_ARM_ENTRY) % 2 ^ 16
      ∧ SMap.get 0 (s.get .sc Rg.HST_ARM_ENTRY) (t.slotAt (.hub i)).hostWaits = epoch := by
  obtain ⟨-, hmap, -⟩ := mapAt_host
  obtain ⟨sl, hsl⟩ := slateWord_hostTrigger hm (by decide) (by decide) hmap rfl rfl hopen nofun rfl rfl hlt
  have harm : s.scWritten 0x4814 0 epoch s = s.hostArm epoch := congrArg s.hostArm (Nat.mod_eq_of_lt hlt)
  rw [harm, hostArm_arms hauto hhandle hfree hwaits] at hsl
  refine ⟨_, congrArg Host.Outcome.next ((congrArg (s.slateWord .sc req 0x4814 ·) (Nat.mod_eq_of_lt hlt)).trans hsl), ?_⟩
  simp only [State.get_setSlate, slotAt_congr (State.die_setSlate ..), State.get_put_same, slotAt_congr (State.put_die ..), slotAt_set, SMap.get_set_same, and_true]
  rfl

/-! The host flags (R209). -/

/-- Without a bound queue no queue waits for the flag: it stands. -/
theorem setHostFlag_stands {c n : Nat} (hnone : s.boundQueues c = []) : s.setHostFlag c n = s.put64 (Rg.HF_FLAG_LO c) (Rg.HF_FLAG_HI c) (setBit (s.hostFlags c) n) := by
  unfold State.setHostFlag
  simp only [hnone, List.findSome?_nil]

theorem scWritten_flagSet {c n : Nat} (hc : c < 64) (v : Nat) (before : State) :
    s.scWritten (0x4C00 + 16 * c) n v before = (setBits 32 v).foldl (fun t i => t.setHostFlag n (i + 8 * ((0x4C00 + 16 * c) % 16))) s := by
  unfold State.scWritten
  simp only [Bool.and_eq_true, decide_eq_true_eq]
  rw [if_neg (by omega), if_neg (by omega), if_neg (by omega), if_neg (by omega), if_neg (by omega), if_pos (by omega)]

/-- HOST_FLAG_SET (R209). -/
theorem hostFlagSet_sets {c : Nat} (hc : c < 64) (hi : i < 32) (hm : s.mayWrite .sc req (0x4C00 + 16 * c) (2 ^ i) = true) (hnone : s.boundQueues c = []) :
    Gives (.hostFlagSet req c false (2 ^ i)) s fun t => t.get .sc (Rg.HF_FLAG_LO c) = setBit (s.hostFlags c) i % 2 ^ 32
      ∧ t.get .sc (Rg.HF_FLAG_HI c) = setBit (s.hostFlags c) i / 2 ^ 32 % 2 ^ 32 := by
  obtain ⟨-, -, -, hmap, -⟩ := mapAt_host
  have hlt : 2 ^ i < 2 ^ 32 := Nat.pow_lt_pow_right (by decide) hi
  have hword : s.slateWord .sc req (0x4C00 + 16 * c) (2 ^ i % 2 ^ 32) = s.put64 (Rg.HF_FLAG_LO c) (Rg.HF_FLAG_HI c) (setBit (s.hostFlags c) i) := by
    rw [Nat.mod_eq_of_lt hlt, slateWord_hostOwn hm (by omega) (by omega) (hmap c hc) rfl rfl, writeFields_trigger rfl rfl hlt, scWritten_flagSet hc, setBits_single hi, List.foldl_cons, List.foldl_nil,
      show i + 8 * ((0x4C00 + 16 * c) % 16) = i by omega, setHostFlag_stands hnone]
  refine ⟨_, congrArg Host.Outcome.next hword, ?_⟩
  unfold State.put64
  refine ⟨?_, State.get_put_same ..⟩
  rw [State.get_put_ne _ (key_ne_of_off (by simp only [Rg.HF_FLAG_LO, Rg.HF_FLAG_HI]; omega)), State.get_put_same]
  rfl

theorem scWritten_flagWithdraw {c n : Nat} (hc : c < 64) (v : Nat) (before : State) : s.scWritten (0x4C08 + 16 * c) n v before = s := by
  unfold State.scWritten
  simp only [Bool.and_eq_true, decide_eq_true_eq]
  rw [if_neg (by omega), if_neg (by omega), if_neg (by omega), if_neg (by omega), if_neg (by omega), if_neg (by omega), if_neg (by omega), if_neg (by omega), if_neg (by omega),
    if_neg (by omega)]

/-- Writing 1 to a field clears its bits (R9). -/
theorem writeFields_clears {p : Part} {f : Machine.Field} {v : Nat} {only : Machine.Field → Bool} (hacc : f.acc = .w1c) (honly : only f = true) (h0 : f.lo = 0) (hv : v < 2 ^ f.width) :
    s.writeFields p [f] v only = s.put p f (minusMask f.width (s.get p f) v) := by
  rw [writeFields_plain only s (fun i hi hb => ?_) hv]
  · simp only [List.filter_cons, honly, if_true, List.filter_nil, List.foldl_cons, List.foldl_nil, hacc, h0]
    rw [bits, Nat.pow_zero, Nat.div_one, Nat.mod_eq_of_lt hv]
  · have hout := outside_of_reservedBits hi hb f List.mem_cons_self
    unfold Outside at hout
    omega

/-- HOST_FLAG_WITHDRAW (R209). -/
theorem hostFlagWithdraw_clears {c v : Nat} (hc : c < 64) (hv : v < 2 ^ 32) (hm : s.mayWrite .sc req (0x4C08 + 16 * c) v = true) :
    Gives (.hostFlagWithdraw req c false v) s fun t => t.get .sc (Rg.HF_FLAG_LO c) = minusMask 32 (s.get .sc (Rg.HF_FLAG_LO c)) v % 2 ^ 32
      ∧ t.get .sc (Rg.HF_FLAG_HI c) = s.get .sc (Rg.HF_FLAG_HI c) := by
  obtain ⟨-, -, -, -, hmap⟩ := mapAt_host
  have hword : s.slateWord .sc req (0x4C08 + 16 * c) (v % 2 ^ 32) = s.put .sc (Rg.HF_FLAG_LO c) (minusMask 32 (s.get .sc (Rg.HF_FLAG_LO c)) v) := by
    rw [Nat.mod_eq_of_lt hv, slateWord_hostOwn hm (by omega) (by omega) (hmap c hc) rfl rfl, writeFields_clears rfl rfl rfl hv, scWritten_flagWithdraw hc]
    rfl
  refine ⟨_, congrArg Host.Outcome.next hword, ?_⟩
  refine ⟨State.get_put_same .., ?_⟩
  rw [State.get_put_ne _ (key_ne_of_off (by simp only [Rg.HF_FLAG_LO, Rg.HF_FLAG_HI]; omega))]

/-! The direct create block (R214). -/

/-- A write of the block's operation runs it. -/
theorem slateWord_direct_op {op : Nat} (hop : op < 4) (hm : s.mayWrite .sc req 0x5820 op = true) : s.slateWord .sc req 0x5820 op = s.directOp op := by
  obtain ⟨-, -, hmap, -⟩ := mapAt_host
  rw [slateWord_hostOwn hm (by decide) (by decide) hmap rfl rfl, writeFields_trigger rfl rfl hop]
  exact congrArg s.directOp (Nat.mod_eq_of_lt hop)

/-- DIRECT_CREATE (R214). -/
theorem directCreate_creates (hm : s.mayWrite .sc req 0x5820 1 = true) (hscope : s.get .sc Rg.BCR_SCOPE = 1)
    (hok : s.createOk { ctx := s.get .sc Rg.BCR_CTX, handle := s.get .sc Rg.BCR_HANDLE, scope := 1, headcount := s.get .sc Rg.BCR_HEADCOUNT, station := s.get .sc Rg.BCR_STATION,
                        part := (List.range 4).foldl (fun a i => a + s.get .sc (Rg.BCR_QMASK i) * 2 ^ (32 * i)) 0 + s.get .sc Rg.BCR_HOST * 2 ^ 128 } = true)
    (hnone : s.handle (s.get .sc Rg.BCR_CTX) (s.get .sc Rg.BCR_HANDLE) = none)
    (hquota : s.get .sc (Rg.CTX_HANDLES_USED (s.get .sc Rg.BCR_CTX)) < s.get .sc (Rg.CTX_HANDLE_QUOTA (s.get .sc Rg.BCR_CTX))) (hfresh : firstFresh s.die.sync.slots 16384 0 = some i) :
    Gives (.directCreate req) s fun t => t.get .sc Rg.BCR_STATUS = 0 ∧ t.get .sc Rg.BCR_PHYS = i % 2 ^ 14 ∧ t.handle (s.get .sc Rg.BCR_CTX) (s.get .sc Rg.BCR_HANDLE) = some (.hub i)
      ∧ (t.slotAt (.hub i)).state = .counting ∧ (t.slotAt (.hub i)).headcount = s.get .sc Rg.BCR_HEADCOUNT := by
  obtain ⟨t, hcreate, hhandle, hcounting, -, hheadcount, -⟩ := create_hub rfl hok hnone hquota hfresh
  have hword : s.slateWord .sc req 0x5820 1 = ((t.put .sc Rg.BCR_STATUS 0).put .sc Rg.BCR_PHYS i).put .sc Rg.BCR_GEN (((s.slotAt (.hub i)).gen + 1) % 256) := by
    rw [slateWord_direct_op (by decide) hm]
    unfold State.directOp
    simp only [if_true, hscope, hcreate]
  have hdie : (((t.put .sc Rg.BCR_STATUS 0).put .sc Rg.BCR_PHYS i).put .sc Rg.BCR_GEN (((s.slotAt (.hub i)).gen + 1) % 256)).die = t.die :=
    (State.put_die ..).trans ((State.put_die ..).trans (State.put_die ..))
  refine ⟨_, congrArg Host.Outcome.next hword, ?_⟩
  simp only [handle_congr hdie, slotAt_congr hdie]
  refine ⟨?_, ?_, hhandle, hcounting, hheadcount⟩
  · rw [State.get_put_ne _ key_ne_of_lo, State.get_put_ne _ key_ne_of_lo, State.get_put_same]
    rfl
  · rw [State.get_put_ne _ key_ne_of_lo, State.get_put_same]
    rfl

/-- DIRECT_FREE (R214). -/
theorem directFree_frees (hm : s.mayWrite .sc req 0x5820 2 = true) (hhandle : s.handle (s.get .sc Rg.BCR_CTX) (s.get .sc Rg.BCR_HANDLE) = some (.hub i))
    (hctx : (s.slotAt (.hub i)).ctx = s.get .sc Rg.BCR_CTX) (hname : (s.slotAt (.hub i)).handle = s.get .sc Rg.BCR_HANDLE) (hscope : (s.slotAt (.hub i)).scope = 1)
    (hwaits : (s.slotAt (.hub i)).waits = []) (hhost : (s.slotAt (.hub i)).hostWaits = []) (hdescs : s.die.pay.descs = []) (hheld : s.die.pay.held = []) :
    Gives (.directFree req) s fun t => t.get .sc Rg.BCR_STATUS = 0 ∧ t.handle (s.get .sc Rg.BCR_CTX) (s.get .sc Rg.BCR_HANDLE) = none ∧ (t.slotAt (.hub i)).state = .free := by
  obtain ⟨hnone, hfree, -⟩ := free_hub hscope hwaits hhost hdescs hheld
  rw [hctx, hname] at hnone
  have hword : s.slateWord .sc req 0x5820 2 = (s.barrierFree (.hub i)).put .sc Rg.BCR_STATUS 0 := by
    rw [slateWord_direct_op (by decide) hm]
    unfold State.directOp
    simp only [hhandle, hscope]
    rfl
  refine ⟨_, congrArg Host.Outcome.next hword, ?_⟩
  simp only [handle_congr (State.put_die ..), slotAt_congr (State.put_die ..), State.get_put_same]
  exact ⟨rfl, hnone, hfree⟩

end

/-- Settles O15, each clause by the lemma on its command. -/
theorem hostTakesPart : Obligations.HostTakesPart := by
  unfold Obligations.HostTakesPart
  exact ⟨fun _ _ _ hm hopen hbusy hauto hhandle hcounting hlocal hscope hpart hnew hmore =>
      hostArrive_arrives hm hopen hbusy hauto hhandle hcounting hlocal hscope hpart hnew hmore,
    fun _ _ _ _ hlt hm hopen hauto hhandle hfree hwaits => hostWaitArm_arms hlt hm hopen hauto hhandle hfree hwaits,
    fun _ _ _ _ hc hi hm hnone => hostFlagSet_sets hc hi hm hnone,
    fun _ _ _ _ hc hv hm => hostFlagWithdraw_clears hc hv hm,
    fun _ _ _ hm hscope _ hok hnone hquota hfresh => directCreate_creates hm hscope hok hnone hquota hfresh,
    fun _ _ _ hm hhandle hctx hname hscope hwaits hhost hdescs hheld => directFree_frees hm hhandle hctx hname hscope hwaits hhost hdescs hheld⟩

end Sys2Proof.Proofs

/-! PROOFS. O16: the descriptors, closes, results and the checker of the die's payload engine. -/

namespace Sys2Proof.Proofs

open Sys2Proof Sys2Proof.Machine Sys2Proof.Cmds

-- One proof after another, as in the tests: side by side, the proofs of the joined text keep more stacks alive than the check's memory holds.
set_option Elab.async false

/-! The engine's state replaced: what else stays (R251, R259). -/

section
variable {s : State}

theorem setPay_inFlight (x : PaySt) (s : State) : (s.setPay x).get .sc Rg.SPAY_IN_FLIGHT = x.descs.length % 2 ^ Rg.SPAY_IN_FLIGHT.width := State.get_put_same ..

theorem setPay_get {f : Machine.Field} (x : PaySt) (s : State) (hf : f.key ≠ Rg.SPAY_IN_FLIGHT.key) (p : Part) : (s.setPay x).get p f = s.get p f := setPay_regs x s p f hf

theorem setPay_slotAt (x : PaySt) (i : Nat) (s : State) : (s.setPay x).slotAt (.hub i) = s.slotAt (.hub i) := by
  unfold State.slotAt
  rw [setPay_die]

theorem setPay_link (x : PaySt) (p : Part) (n : Nat) (s : State) : (s.setPay x).link p n = s.link p n := by
  unfold State.setPay
  rw [link_put]
  cases p <;> rfl

theorem setPay_clock (x : PaySt) (p : Part) (s : State) : ((s.setPay x).unit p).clock = (s.unit p).clock := by
  unfold State.setPay
  rw [State.unit_put_clock]
  cases p <;> rfl

theorem setPay_dieMem (x : PaySt) (s : State) : (s.setPay x).dieMem = s.dieMem := by
  unfold State.setPay
  rw [State.put_dieMem]
  rfl

end

/-! A payload arrival at the head of its queue (R181, R184, R250). -/

theorem QueueMoved.pay {q : Nat} {s t : State} (h : QueueMoved q s t) : t.die.pay = s.die.pay := by
  rw [h.1]

theorem QueueMoved.slotAt {q : Nat} {s t : State} (h : QueueMoved q s t) (i : Nat) : t.slotAt (.hub i) = s.slotAt (.hub i) := by
  unfold State.slotAt
  rw [h.1]

section
variable {q i : Nat} {es : List Nat} {e : QEntry} {pre rest : List QEntry} {s : State}

/-- Without a descriptor in flight the named epoch is the target, and no arrival is held for a slot without a partial (R250). -/
theorem targetOf_of_idle {epoch : Nat} {r : SlotRef} (hdescs : s.die.pay.descs = []) : s.targetOf r q epoch false = epoch := by
  unfold State.targetOf
  simp only [hdescs]
  rfl

theorem holdsArrival_of_idle {epoch : Nat} {r : SlotRef} (hdescs : s.die.pay.descs = []) (hacc : (s.slotAt r).hasAcc = false) (hearly : (s.slotAt r).earlyAcc = []) :
    s.holdsArrival r epoch = false := by
  unfold State.holdsArrival
  simp only [hdescs, hacc, hearly, List.any_nil, Bool.and_false, Bool.or_false]

/-- The descriptor that an accepted payload arrival puts in flight. -/
def arrivalDesc (q i : Nat) (e : QEntry) (s : State) : Desc :=
  { idx := e.cmd % 4096, q := q, tag := e.tag, ctx := s.get .sc (Rg.Q_CTX q), ref := .hub i, handle := bits e.cmd 48 12, hslot := (s.slotAt (.hub i)).name,
    epoch := (s.slotAt (.hub i)).e, job := (s.slotAt (.hub i)).job }

/-- PAYLOAD_ARRIVE (R181, R184, R250). -/
theorem payloadArrive_in_flight (h : AtHead q pre e rest s) (hop : e.op = 5) (hengine : s.die.payload = true) (hfenced : (s.queue q).fenced = true) (hdescs : s.die.pay.descs = [])
    (hen : s.get .sc Rg.PD_PD_EN = 1) (hhandle : s.handle (s.get .sc (Rg.Q_CTX q)) (bits e.cmd 48 12) = some (.hub i)) (hscope : (s.slotAt (.hub i)).scope = 3)
    (hauto : bit e.cmd 31 = false) (hepoch : bits e.cmd 32 16 = (s.slotAt (.hub i)).e) (hacc : (s.slotAt (.hub i)).hasAcc = false) (hearly : (s.slotAt (.hub i)).earlyAcc = []) :
    Gives (.payloadArrive q es) s fun t => (t.queue q).fenced = false ∧ (t.queue q).entries = pre ++ { e with phase := .passed } :: rest ∧ t.get .sc Rg.SPAY_IN_FLIGHT = 1
      ∧ t.die.pay.descs = [arrivalDesc q i e s] := by
  obtain ⟨hin, hqueue, hmoved⟩ := fenceTest_clears (tag := e.tag) (inQueue_headState (es := es) h) hfenced
  have hpass := passHead_queue hin
  rw [hqueue] at hpass
  have hpay : ((headState q es s).fenceTest q e.tag).die.pay.descs = [] := (congrArg PaySt.descs hmoved.pay).trans hdescs
  have hslot : ((headState q es s).fenceTest q e.tag).slotAt (.hub i) = s.slotAt (.hub i) := hmoved.slotAt i
  have hctx : ((headState q es s).fenceTest q e.tag).get .sc (Rg.Q_CTX q) = s.get .sc (Rg.Q_CTX q) := hmoved.get_binding.trans (headState_get ..)
  have hflag : ((headState q es s).fenceTest q e.tag).flag .sc Rg.PD_PD_EN = true := flag1 ((hmoved.2 .sc _ (not_queueKeys_of_first rfl)).trans ((headState_get ..).trans hen))
  have hrefers : ((headState q es s).fenceTest q e.tag).queueSlot q (bits e.cmd 48 12) = some (.hub i) := by
    rw [hmoved.queueSlot]
    unfold State.queueSlot
    rw [headState_get, show (headState q es s).handle (s.get .sc (Rg.Q_CTX q)) (bits e.cmd 48 12) = some (.hub i) from hhandle]
  refine ⟨_, rfl, ?_⟩
  rw [atHead_runs h (by rw [hop]; rfl)]
  simp only [show (headState q es s).die.payload = true from hengine, Bool.not_true, Bool.false_eq_true, if_false, hpay, List.any_nil, hflag, Bool.or_self, hrefers, hctx, Option.getD_some, hauto,
    targetOf_of_idle hpay, hslot, hscope, bne_self_eq_false, holdsArrival_of_idle hpay (hslot ▸ hacc) (hslot ▸ hearly), if_true, hepoch, List.nil_append]
  have hq : ∀ x, ((((headState q es s).fenceTest q e.tag).passHead q e.tag).wake .sc 0 0 |>.setPay x).queue q = _ := fun x => (queue_of (by rw [setPay_die, wake_die]) q).trans hpass
  refine ⟨congrArg SQueue.fenced (hq _), congrArg SQueue.entries (hq _), setPay_inFlight .., ?_⟩
  rw [setPay_die]
  rfl

/-! A descriptor read, its partial formed and its arrival applied (R252 to R254). -/

/-- What the read of a descriptor leaves of it where the fabric reports no error. -/
def descTaken (f : DescFields) (d : Desc) : Desc :=
  { d with reading := false, bucket := f.sum.bucket, dst := f.dst, status := f.status, statusOk := f.status % 32 == 0, srcFault := false, suppressed := false }

/-- A release of a hub's answer that is no misuse: it goes behind the others, with the queue's present binding (R182). -/
theorem answer_hub_ok {tag : Nat} : s.answer false q tag 0 = s.setSync { s.die.sync with rels := s.die.sync.rels ++ [{ q := q, tag := tag, bindGen := s.get .sc (Rg.Q_BIND_GEN q), status := 0 }] } := rfl

/-- The binding registers of the queues are none that an arrival at the hub writes. -/
theorem not_relKeys_bindGen (hq : q < 128) : ¬ relKeys 0 (Rg.Q_BIND_GEN q).key := by
  rintro (h | h | h | h)
  · exact not_queueKeys_of_first (by simp only [Rg.Q_BIND_GEN]; omega) rfl h
  · revert h
    refine not_att ?_ ?_ ?_ <;> (simp only [Machine.Field.key, Rg.Q_BIND_GEN]; omega)
  · exact key_ne_of_off (by simp only [Rg.Q_BIND_GEN, Rg.MON_DEADLOCK_LO]; omega) rfl rfl h
  · exact key_ne_of_off (by simp only [Rg.Q_BIND_GEN, Rg.MON_DEADLOCK_HI]; omega) rfl rfl h

theorem descriptorReadDone_counts {d : Desc} {f : DescFields} {raw : List Nat} (hdescs : s.die.pay.descs = [d]) (hreading : d.reading = true) (hreject : d.reject = 0) (href : d.ref = .hub i)
    (hq : d.q < 128) (hf : readDesc (s.dieMem.readN (s.get .sc Rg.PD_BASE_LO * 4096 + 2 ^ 32 * s.get .sc Rg.PD_BASE_HI + 64 * d.idx) 64) = f)
    (hraw : (if f.sum.op = 6 then [] else s.dieMem.elements f.src (srcWidth f.sum.op f.sum.fmt) f.sum.count) = raw)
    (hgood : f.bad = false) (hstray : f.stray = false) (hmask : f.mask = 0) (hodd : maskedOdd f.sum raw 0 = false)
    (hcounting : (s.slotAt (.hub i)).state = .counting) (hlocal : (s.slotAt (.hub i)).local_ = true) (hscope : (s.slotAt (.hub i)).scope = 3)
    (hpart : bit (s.slotAt (.hub i)).part d.q = true) (hnew : bit (s.slotAt (.hub i)).arr d.q = false) (hepoch : d.epoch = (s.slotAt (.hub i)).e)
    (hmore : popCount 129 (setBit (s.slotAt (.hub i)).arr d.q) ≠ (s.slotAt (.hub i)).headcount) (hfirst : (s.slotAt (.hub i)).acc.isElem = false) (hlead : s.die.pkgIndex ≠ 0) :
    Gives (.descriptorReadDone d.idx false false []) s fun t => (t.slotAt (.hub i)).arr = setBit (s.slotAt (.hub i)).arr d.q ∧ (t.slotAt (.hub i)).hasAcc = true
      ∧ (t.slotAt (.hub i)).acc = (s.slotAt (.hub i)).acc.combine (diePartial f.sum raw 0) ∧ t.die.pay.descs = [descTaken f d]
      ∧ t.die.sync.rels = s.die.sync.rels ++ [{ q := d.q, tag := d.tag, bindGen := s.get .sc (Rg.Q_BIND_GEN d.q), status := 0 }] := by
  have hfind : (s.die.pay.descs.find? fun x => x.idx == d.idx && x.reading) = some d := by
    rw [hdescs, List.find?_cons_of_pos (by simp [hreading])]
  have htaken : (s.die.pay.descs.map fun x => if x.idx = d.idx then descTaken f d else x) = [descTaken f d] := by
    rw [hdescs, List.map_singleton, if_pos rfl]
  generalize hs1 : s.setPay { s.die.pay with descs := s.die.pay.descs.map fun x => if x.idx = d.idx then descTaken f d else x } = s1
  have hslot : s1.slotAt (.hub i) = s.slotAt (.hub i) := by
    rw [← hs1, setPay_slotAt]
  have hdie : s1.die = { s.die with pay := { s.die.pay with descs := [descTaken f d] } } := by
    rw [← hs1, setPay_die, htaken]
  obtain ⟨hstatus, -, hafter, hregs, hrels, hpay⟩ := arrive_pay (i := i) (p := d.q) (stamp := s1.ht .sc % 2 ^ 48) (epoch := d.epoch) (b := diePartial f.sum raw 0) (s := s1)
    (by rwa [hslot]) (by rwa [hslot]) (by rwa [hslot]) (by rwa [hslot]) (by rwa [hslot]) (by rwa [hslot]) (by rwa [hslot]) (by rwa [hslot]) (by rwa [hdie])
  generalize ho : s1.arriveAt (.hub i) d.q 0 d.q (s1.ht .sc % 2 ^ 48) d.epoch false (some (diePartial f.sum raw 0)) = o at hstatus hafter hregs hrels hpay
  have hrun : execDescriptorReadDone d.idx false false [] s = .next ((o.2.2.qLast d.q d.handle d.epoch).answer false d.q d.tag 0) := by
    unfold execDescriptorReadDone
    simp only [hfind, hf, hstray, hreject, hgood, hmask, Bool.false_eq_true, if_false, bne_self_eq_false, if_true, hraw, List.filter_nil, ite_self, List.any_nil, Bool.and_false, Bool.or_self,
      List.isEmpty_nil, Bool.not_true, Bool.not_false, hodd]
    simp only [descTaken, hreject] at hs1
    rw [hs1, href, ho]
    exact if_pos hstatus
  refine ⟨_, hrun, ?_⟩
  have hlast : QueueMoved d.q o.2.2 (o.2.2.qLast d.q d.handle d.epoch) := setQueue_moves ..
  have hgen : (o.2.2.qLast d.q d.handle d.epoch).get .sc (Rg.Q_BIND_GEN d.q) = s.get .sc (Rg.Q_BIND_GEN d.q) := by
    rw [hlast.get_binding, hregs .sc _ (not_relKeys_bindGen hq), ← hs1, setPay_get _ _ (key_ne_of_off (by simp only [Rg.Q_BIND_GEN, Rg.SPAY_IN_FLIGHT]; omega))]
  have hslots : ((o.2.2.qLast d.q d.handle d.epoch).answer false d.q d.tag 0).slotAt (.hub i) = _ := (slotAt_setSync (by rfl)).trans ((hlast.slotAt i).trans hafter)
  rw [hslot] at hslots
  refine ⟨congrArg Machine.Slot.arr hslots, congrArg Machine.Slot.hasAcc hslots, congrArg Machine.Slot.acc hslots, ?_, ?_⟩
  · change (o.2.2.qLast d.q d.handle d.epoch).die.pay.descs = _
    rw [hlast.pay, hpay, hdie]
  · rw [answer_hub_ok, hgen]
    change (o.2.2.qLast d.q d.handle d.epoch).die.sync.rels ++ _ = _
    rw [show (o.2.2.qLast d.q d.handle d.epoch).die.sync.rels = o.2.2.die.sync.rels by rw [hlast.1], hrels, hdie]

end

/-! A close is taken, its result body named (R244, R258, R264). -/

section
variable {s : State}

/-- The word that names a body of which nothing has come begins it (R264). -/
theorem rxBody_nameBody_new {p : Part} {n fkind job tag : Nat} (hnone : s.rxBody p n fkind job tag = none) :
    (s.nameBody p n fkind job tag).rxBody p n fkind job tag = some { fkind := fkind, job := job, tag := tag, named := true, dueBeat := s.beat p + 2 } := by
  unfold State.rxBody at hnone
  unfold State.nameBody State.modRx State.rxBody
  simp only [link_modLink, hnone, Bool.false_eq_true, if_false]
  rw [List.find?_append, hnone, Option.none_or]
  exact List.find?_cons_of_pos (by simp [RxBody.is])

theorem nameBody_die (p : Part) (n fkind job tag : Nat) (s : State) : (s.nameBody p n fkind job tag).die = s.die := State.die_setLink ..

theorem nameBody_get (p q : Part) (n fkind job tag : Nat) (f : Machine.Field) (s : State) : (s.nameBody p n fkind job tag).get q f = s.get q f := State.get_modLink ..

/-- A body that is not whole is not taken (R264). -/
theorem takeResult_of_partial {n job seq : Nat} {r : RxBody} (hbody : s.rxBody .sc n 2 job seq = some r) (hpart : r.whole = false) : s.takeResult n job seq = s := by
  unfold State.takeResult
  simp only [hbody, hpart, Bool.not_false, Bool.true_or, if_true]

/-- CLOSE_AT_DIE (R244, R258). -/
theorem closeAtDie_takes {n job bucket seq epoch contrib hash flags c : Nat} {d : Desc} (hjob : job < 64) (hctx : s.hallCtx job = some c) (hlead : s.die.pkgIndex ≠ 0)
    (hseq : seq = (s.get .sc (Rg.SJH_CLOSE_SEQ job) + 1) % 2 ^ 32)
    (hdesc : (s.die.pay.descs.find? fun e => e.job == job && e.epoch == epoch && (e.reading || e.bucket == bucket)) = some d) (hnone : s.rxBody .sc n 2 job seq = none) :
    Gives (.closeAtDie n job bucket seq epoch contrib hash flags) s fun t => t.get .sc (Rg.SJH_CLOSE_SEQ job) = seq
      ∧ t.die.pay.closes = s.die.pay.closes ++ [{ job := job, seq := seq, bucket := bucket, epoch := epoch, contrib := contrib, hash := hash, flags := flags }]
      ∧ t.get .sc (Rg.SJH_CLOSE_GAP job) = s.get .sc (Rg.SJH_CLOSE_GAP job)
      ∧ t.rxBody .sc n 2 job seq = some { fkind := 2, job := job, tag := seq, named := true, dueBeat := s.beat .sc + 2 } := by
  have hlt : seq < 2 ^ 32 := by
    rw [hseq]
    exact Nat.mod_lt _ (Nat.two_pow_pos 32)
  have hnext : Machine.sdiff 32 seq (s.get .sc (Rg.SJH_CLOSE_SEQ job)) = 1 := sdiff_add_of_lt (k := 1) (by decide) hseq (by decide)
  have hmember : s.isLead = false := beq_eq_false_iff_ne.2 hlead
  have hkeys : (Rg.SJH_CLOSE_SEQ job).key ≠ Rg.SPAY_IN_FLIGHT.key ∧ (Rg.SJH_CLOSE_GAP job).key ≠ Rg.SPAY_IN_FLIGHT.key ∧ (Rg.SJH_CLOSE_GAP job).key ≠ (Rg.SJH_CLOSE_SEQ job).key :=
    ⟨key_ne_of_off (by simp only [Rg.SJH_CLOSE_SEQ, Rg.SPAY_IN_FLIGHT]; omega), key_ne_of_off (by simp only [Rg.SJH_CLOSE_GAP, Rg.SPAY_IN_FLIGHT]; omega),
      key_ne_of_off (by simp only [Rg.SJH_CLOSE_SEQ, Rg.SJH_CLOSE_GAP]; omega)⟩
  generalize hu : ((s.setUnit .sc { s.sc with inbox := s.sc.inbox.erase (n, { job := job, body := .close bucket seq epoch contrib flags hash }) }).put .sc (Rg.SJH_CLOSE_SEQ job) seq) = u
  have hdie : u.die = s.die := by
    rw [← hu, State.put_die]
    rfl
  have hlink : u.link .sc n = s.link .sc n := by
    rw [← hu, link_put]
    rfl
  have hclock : (u.unit .sc).clock = (s.unit .sc).clock := by
    rw [← hu, State.unit_put_clock]
    rfl
  have hget : u.get .sc (Rg.SJH_CLOSE_SEQ job) = seq ∧ u.get .sc (Rg.SJH_CLOSE_GAP job) = s.get .sc (Rg.SJH_CLOSE_GAP job) := by
    rw [← hu, State.get_put_same, State.get_put_ne _ hkeys.2.2]
    exact ⟨Nat.mod_eq_of_lt hlt, rfl⟩
  generalize hv : u.setPay { s.die.pay with closes := s.die.pay.closes ++ [{ job := job, seq := seq, bucket := bucket, epoch := epoch, contrib := contrib, hash := hash, flags := flags }] } = v
  have hbody : v.rxBody .sc n 2 job seq = none := by
    rw [← hnone, ← hv]
    unfold State.rxBody
    rw [setPay_link, hlink]
  have hnamed := rxBody_nameBody_new hbody
  have hbeat : v.beat .sc = s.beat .sc := beat_of (by rw [← hv, setPay_clock, hclock])
  have hrun : execCloseAtDie n job bucket seq epoch contrib hash flags s = .next (v.nameBody .sc n 2 job seq) := by
    unfold execCloseAtDie
    simp only [hctx, Option.isNone_some, Bool.false_and, Bool.false_eq_true, if_false, hnext, hmember, show ¬ (1 : Int) ≤ 0 by decide, ← hseq, bne_self_eq_false]
    simp only [hu, hdie, hdesc, hv, takeResult_of_partial hnamed rfl]
  refine ⟨_, hrun, ?_⟩
  simp only [nameBody_get, nameBody_die]
  refine ⟨?_, ?_, ?_, ?_⟩
  · rw [← hv, setPay_get _ _ hkeys.1, hget.1]
  · rw [← hv, setPay_die]
  · rw [← hv, setPay_get _ _ hkeys.2.1, hget.2]
  · rw [hnamed, hbeat]

end

/-! A result written and its descriptor ended (R258, R259). -/

section
variable {s : State}

/-- The status record rests on the clock alone, beside what it is given (R259). -/
theorem statusBytes_congr {t : State} (hclock : (t.unit .sc).clock = (s.unit .sc).clock) (d : Desc) (rstatus seq flags : Nat) (r : Summary) :
    t.statusBytes d rstatus seq r flags = s.statusBytes d rstatus seq r flags := by
  unfold State.statusBytes State.ht32
  rw [htNs_of hclock]

/-- A descriptor that was read, its STATUS address aligned, ends with its status record written and leaves flight (R259). -/
theorem endDesc_writes {d : Desc} (hread : d.reading = false) (hok : d.statusOk = true) (hdescs : s.die.pay.descs = [d]) (rstatus seq flags : Nat) (r : Summary) :
    (s.endDesc d rstatus seq r flags).die.pay = { s.die.pay with descs := [] } ∧ (s.endDesc d rstatus seq r flags).get .sc Rg.SPAY_IN_FLIGHT = 0
      ∧ (s.endDesc d rstatus seq r flags).dieMem = s.dieMem.writeN d.status (s.statusBytes d rstatus seq r flags) := by
  unfold State.endDesc
  simp only [hread, hok, Bool.not_true, Bool.or_self, Bool.false_eq_true, if_false, dmaWrite_die, hdescs, List.filter_singleton, bne_self_eq_false, cond_false, setPay_die, setPay_inFlight, setPay_dieMem,
    dmaWrite_sc_die, List.length_nil, Nat.zero_mod, and_self]

/-- Without a held DONE none is applied (R250, R258). -/
theorem doneHeld_of_none {r : SlotRef} (hheld : s.die.pay.held = []) : s.doneHeld r = s := by
  unfold State.doneHeld
  rw [hheld]
  rfl

/-- RESULT_WRITE_DONE (R258, R259). -/
theorem resultWriteDone_writes {job seq : Nat} {c : CloseIn} {b : Body} {d : Desc} (hcloses : s.die.pay.closes = [c]) (hcjob : c.job = job) (hcseq : c.seq = seq) (hcbody : c.body = some b)
    (hop : b.sum.op ≠ 7) (hdescs : s.die.pay.descs = [d]) (hdjob : d.job = job) (hbucket : d.bucket = c.bucket) (hepoch : d.epoch = c.epoch) (hread : d.reading = false)
    (hdst : d.dst ≠ 0) (hok : d.statusOk = true) (hheld : s.die.pay.held = []) :
    Gives (.resultWriteDone job seq) s fun t => t.die.pay.closes = [] ∧ t.die.pay.descs = [] ∧ t.get .sc Rg.SPAY_IN_FLIGHT = 0
      ∧ t.dieMem = (s.dieMem.writeN d.dst b.resultBytes).writeN d.status (s.statusBytes d 0 seq { contrib := c.contrib, pflags := c.flags, hash := c.hash, residue := b.sum.residue } 0) := by
  generalize hu : (s.setPay { s.die.pay with closes := [] }).dmaWrite .sc d.dst b.resultBytes = u
  have hpay : u.die.pay = { s.die.pay with closes := [] } := by
    rw [← hu, dmaWrite_die, setPay_die]
  have hmem : u.dieMem = s.dieMem.writeN d.dst b.resultBytes := by
    rw [← hu, dmaWrite_sc_die, setPay_dieMem]
  have hclock : (u.unit .sc).clock = (s.unit .sc).clock := by
    rw [← hu, unit_dmaWrite, setPay_clock]
  generalize hsum : ({ contrib := c.contrib, pflags := c.flags, hash := c.hash, residue := b.sum.residue } : Summary) = sum
  obtain ⟨hend, hflight, hwritten⟩ := endDesc_writes (s := u) hread hok (by rw [hpay, hdescs]) 0 seq 0 sum
  have hclose : (s.die.pay.closes.find? fun x => x.job == job) = some c := by
    rw [hcloses, List.find?_cons_of_pos (by simp [hcjob])]
  have hfilter : (s.die.pay.closes.filter fun x => !(x.job == job && x.seq == seq)) = [] := by
    rw [hcloses, List.filter_cons_of_neg (by simp [hcjob, hcseq]), List.filter_nil]
  have hfind : (s.die.pay.descs.find? fun x => x.job == job && x.bucket == c.bucket && x.epoch == c.epoch && !x.reading) = some d := by
    rw [hdescs, List.find?_cons_of_pos (by simp [hdjob, hbucket, hepoch, hread])]
  have hundone : (s.die.pay.held.find? fun x => x.ref == d.ref && x.epoch == c.epoch) = none := by
    rw [hheld, List.find?_nil]
  have hrun : execResultWriteDone job seq s = .next (u.endDesc d 0 seq sum 0) := by
    unfold execResultWriteDone
    simp only [hclose, hcseq, hcbody, hfilter, setPay_die, hfind, hundone, hdst, hop, hu, hsum, bne_self_eq_false, Option.isNone_some, Bool.false_and, Bool.or_self, Bool.false_eq_true, if_false,
      Option.map_none, Option.getD_none, decide_false]
    exact congrArg Host.Outcome.next (doneHeld_of_none (by rw [hend, hpay, hheld]))
  refine ⟨_, hrun, ?_, ?_, hflight, ?_⟩
  · rw [hend, hpay]
  · rw [hend]
  · rw [hwritten, hmem, statusBytes_congr hclock]

end

/-! The checker folds a stream (R276, R277). -/

section
variable {s : State} {data keep : Nat}

/-- The running value of the checker after a beat (R277). -/
def chkFolded (data keep : Nat) (s : State) : Nat :=
  (chkElems (2 ^ s.get .sc Rg.CHK_WIDTH) data keep).1.foldl (fun a x => chkAdd (s.flag .sc Rg.CHK_SIGNED) (8 * 2 ^ s.get .sc Rg.CHK_WIDTH) a x) s.die.pay.chk

/-- Nothing is compared before an expected value is valid (R278). -/
theorem chkCompare_of_not_expected (h : s.get .sc Rg.CHK_EXP_VALID = 0) : s.chkCompare = s := by
  unfold State.chkCompare
  rw [flag0 h, Bool.false_and]
  rfl

theorem checkerBeat_folds (hchk : s.die.checker = true) (hrun : s.die.running = true) (hfinal : s.get .sc Rg.CHK_FINAL_VALID = 0) :
    Gives (.checkerBeat data keep false) s fun t => t.die.pay.chk = chkFolded data keep s ∧ t.get .sc Rg.CHK_FINAL_VALID = 0 := by
  have hexec : execCheckerBeat data keep false s = .next ((s.bump .sc Rg.CHK_KEEP_ERR (chkElems (2 ^ s.get .sc Rg.CHK_WIDTH) data keep).2).setPay { s.die.pay with chk := chkFolded data keep s }) := by
    unfold execCheckerBeat
    rw [hchk, hrun, flag0 hfinal]
    rfl
  refine ⟨_, hexec, ?_, ?_⟩
  · rw [setPay_die]
  · rw [setPay_get _ _ (by decide), get_bump_ne _ (by decide), hfinal]

theorem checkerBeat_latches (hchk : s.die.checker = true) (hrun : s.die.running = true) (hfinal : s.get .sc Rg.CHK_FINAL_VALID = 0) (hexp : s.get .sc Rg.CHK_EXP_VALID = 0) :
    Gives (.checkerBeat data keep true) s fun t => t.get .sc Rg.CHK_FINAL_LO = chkFolded data keep s % 2 ^ 32 ∧ t.get .sc Rg.CHK_FINAL_HI = chkFolded data keep s / 2 ^ 32 % 2 ^ 29
      ∧ t.get .sc Rg.CHK_FINAL_VALID = 1 ∧ t.die.pay.chk = if s.flag .sc Rg.CHK_AUTO_CLEAR then 0 else chkFolded data keep s := by
  generalize hu : (s.bump .sc Rg.CHK_KEEP_ERR (chkElems (2 ^ s.get .sc Rg.CHK_WIDTH) data keep).2).setPay { s.die.pay with chk := if s.flag .sc Rg.CHK_AUTO_CLEAR then 0 else chkFolded data keep s } = u
  generalize hv : ((u.put .sc Rg.CHK_FINAL_LO (chkFolded data keep s)).put .sc Rg.CHK_FINAL_HI (chkFolded data keep s / 2 ^ 32)).put .sc Rg.CHK_FINAL_VALID 1 = v
  have hnone : v.get .sc Rg.CHK_EXP_VALID = 0 := by
    rw [← hv, State.get_put_ne _ (by decide), State.get_put_ne _ (by decide), State.get_put_ne _ (by decide), ← hu, setPay_get _ _ (by decide), get_bump_ne _ (by decide), hexp]
  have hexec : execCheckerBeat data keep true s = .next v := by
    rw [← chkCompare_of_not_expected hnone, ← hv, ← hu]
    unfold execCheckerBeat
    rw [hchk, hrun, flag0 hfinal]
    rfl
  refine ⟨_, hexec, ?_, ?_, ?_, ?_⟩
  · rw [← hv, State.get_put_ne _ (by decide), State.get_put_ne _ (by decide), State.get_put_same]
    rfl
  · rw [← hv, State.get_put_ne _ (by decide), State.get_put_same]
    rfl
  · rw [← hv, State.get_put_same]
    rfl
  · rw [← hv, State.put_die, State.put_die, State.put_die, ← hu, setPay_die]

end

/-- Settles O16, each clause by the lemma on its command. -/
theorem payloadAtTheDie : Obligations.PayloadAtTheDie := by
  unfold Obligations.PayloadAtTheDie
  refine ⟨fun _ _ _ _ _ _ _ h hop hengine hfenced hdescs hen hhandle hscope hauto hepoch hacc hearly =>
      payloadArrive_in_flight h hop hengine hfenced hdescs hen hhandle hscope hauto hepoch hacc hearly,
    fun i q d s hdescs hreading hreject href hdq hq hgood hstray hmask hodd hcounting hlocal hscope hpart hnew hepoch hmore hfirst hlead => ?_,
    fun _ _ _ _ _ _ _ _ _ _ _ hjob hctx hlead hseq hdesc hnone => closeAtDie_takes hjob hctx hlead hseq hdesc hnone,
    fun _ _ _ _ _ _ hcloses hcjob hcseq hcbody hop hdescs hdjob hbucket hepoch hread hdst hok hheld =>
      resultWriteDone_writes hcloses hcjob hcseq hcbody hop hdescs hdjob hbucket hepoch hread hdst hok hheld,
    fun _ _ _ hchk hrun hfinal hexp => ⟨checkerBeat_folds hchk hrun hfinal, checkerBeat_latches hchk hrun hfinal hexp⟩⟩
  subst hdq
  exact descriptorReadDone_counts hdescs hreading hreject href hq rfl rfl hgood hstray hmask hodd hcounting hlocal hscope hpart hnew hepoch hmore hfirst hlead

end Sys2Proof.Proofs

/-! PROOFS. O19: the words of barriers, bells, members and stale notices at a die. -/

namespace Sys2Proof.Proofs

open Sys2Proof Sys2Proof.Machine Sys2Proof.Cmds

-- One proof after another, as in the tests: side by side, the proofs of the joined text keep more stacks alive than the check's memory holds.
set_option Elab.async false

/-! What leaves a hub slot (R191, R192). -/

section
variable {s t : State} {i : Nat}

theorem ctxRecord_only (c : Nat) (x : Machine.Rec) (s : State) : Only .sc false attKeys s (s.ctxRecord c x) := by
  unfold State.ctxRecord
  exact Only.record (Only.refl ..) (fun _ h => h) _

theorem slotAt_of_only {b : Bool} {K : Nat → Prop} (h : Only .sc b K s t) : t.slotAt (.hub i) = s.slotAt (.hub i) := by
  unfold State.slotAt
  rw [h.die]

theorem monArrival_slotAt (c : Nat) (s : State) : (s.monArrival c).slotAt (.hub i) = s.slotAt (.hub i) := by
  unfold State.monArrival
  rw [slotAt_congr (Cmds.monEnd_keep ..).1]
  rfl

theorem monArrival_pkgIndex (c : Nat) (s : State) : (s.monArrival c).die.pkgIndex = s.die.pkgIndex := by
  unfold State.monArrival
  rw [(Cmds.monEnd_keep ..).1]
  rfl

theorem isLead_of_zero (h : s.die.pkgIndex = 0) : s.isLead = true := beq_iff_eq.2 h

theorem isLead_of_ne (h : s.die.pkgIndex ≠ 0) : s.isLead = false := beq_eq_false_iff_ne.2 h

/-- A slot of the package whose dies are not all in does not complete at the lead die (R198, R199). -/
theorem dieCheck_stays {r : SlotRef} (h : (s.slotAt r).dieArr ≠ (s.slotAt r).dieMask) : s.dieCheck r = (false, s) := by
  unfold State.dieCheck
  simp only [bne_iff_ne.2 h, Bool.or_true, if_true]

/-- The slot's own participants are all in (R191). -/
def FullHere (v : Machine.Slot) : Bool := v.local_ && v.headcount != 0 && popCount 129 v.arr == v.headcount

theorem fullHere_of_short {v : Machine.Slot} (h : popCount 129 v.arr ≠ v.headcount) : FullHere v = false := by
  unfold FullHere
  rw [beq_eq_false_iff_ne.2 h, Bool.and_false]

theorem fullHere_of_empty {v : Machine.Slot} (h : v.arr = 0) : FullHere v = false := by
  unfold FullHere
  rw [h, show popCount 129 0 = 0 by decide]
  cases v.headcount <;> simp

/-- A slot beyond the die that is short of its own participants, at the lead die of its dies too, waits on (R191, R198, R199). -/
theorem slotTest_stays {r : SlotRef} {v : Machine.Slot} (hv : s.slotAt r = v) (hcounting : v.state = .counting) (hscope : 2 ≤ v.scope) (hshort : FullHere v = false)
    (hdies : s.isLead = true → v.dieArr ≠ v.dieMask) : s.slotTest r = s := by
  unfold FullHere at hshort
  unfold State.slotTest State.slotCheck
  simp only [hv, hcounting, bne_self_eq_false, Bool.false_eq_true, if_false, hshort, if_neg (not_lt.2 hscope), Bool.false_and]
  by_cases hlead : s.isLead = true
  · simp only [hlead, if_true, dieCheck_stays (hv ▸ hdies hlead), Bool.false_eq_true, if_false]
  · simp only [hlead, Bool.false_eq_true, if_false]

theorem without_waiters (v : Machine.Slot) (hwaits : v.waits = []) (hhost : v.hostWaits = []) : ({ v with waits := [], hostWaits := [] } : Machine.Slot) = v := by
  obtain ⟨⟩ := v
  simp only at hwaits hhost
  rw [hwaits, hhost]

/-- No waiter stands at the slot: none is released (R192). -/
theorem relWaiters_of_none (hwaits : (s.slotAt (.hub i)).waits = []) (hhost : (s.slotAt (.hub i)).hostWaits = []) (status : Nat) (f : Nat → Bool) :
    s.relWaiters (.hub i) status f = s.setSlotAt (.hub i) (s.slotAt (.hub i)) := by
  unfold State.relWaiters
  simp only [hwaits, hhost, List.filter_nil, List.foldl_nil, without_waiters _ hwaits hhost]

end

/-! Words of a package die at the lead die (R198 to R200). -/

section
variable {s u : State} {d job h gen epoch src ht32 tag i : Nat} {w : CtlWord}

/-- The slot with a die's arrival for the present epoch (R198). -/
def dieArrived (d idx ht32 : Nat) (v : Machine.Slot) : Machine.Slot := { v with dieArr := setBit v.dieArr d, sigKind := 2, sigIdx := idx, sigHt32 := ht32 }

theorem applyDie_new {v : Machine.Slot} {idx : Nat} (hnew : bit v.dieArr d = false) : v.applyDie d v.e idx ht32 = (0, dieArrived d idx ht32 v) := by
  unfold Slot.applyDie
  simp only [sdiff16_self, hnew, lt_self_iff_false, if_false, if_true, Bool.false_eq_true]
  rfl

theorem leadArrive_sets {v : Machine.Slot} (hslot : u.wordSlot w h gen = some (.hub i)) (hv : u.slotAt (.hub i) = v) (hmask : bit v.dieMask d = true) (hcounting : v.state = .counting)
    (hscope : v.scope = 2) (hepoch : epoch = v.e) (hnew : bit v.dieArr d = false) (hdies : setBit v.dieArr d ≠ v.dieMask) (hshort : popCount 129 v.arr ≠ v.headcount) :
    (u.leadArrive d w h gen epoch src ht32 none).slotAt (.hub i) = dieArrived d (src % 2 ^ 21) ht32 v := by
  subst hepoch
  have hset : ((u.setSlotAt (.hub i) (dieArrived d (src % 2 ^ 21) ht32 v)).monArrival v.ctx).slotAt (.hub i) = dieArrived d (src % 2 ^ 21) ht32 v := by
    rw [monArrival_slotAt, slotAt_set]
  have hrun : u.leadArrive d w h gen v.e src ht32 none = ((u.setSlotAt (.hub i) (dieArrived d (src % 2 ^ 21) ht32 v)).monArrival v.ctx).slotTest (.hub i) := by
    unfold State.leadArrive
    simp only [hslot, hv, hmask, hcounting, applyDie_new hnew, hscope, bne_self_eq_false, Bool.not_true, Bool.false_or, reduceCtorEq, decide_false, Bool.false_eq_true, if_false]
    rfl
  rw [hrun, slotTest_stays hset hcounting hscope.ge (fullHere_of_short hshort) fun _ => hdies, hset]

/-- LEAD_DIE_ARRIVE of a package slot (R198). -/
theorem leadDieArrive_sets (htake : s.takeDieWord (8 + d) { job := 0, hallwide := true, body := .arrive h gen epoch src ht32 false tag } = u) (hlead : s.die.pkgIndex = 0)
    (hbehind : u.dieBehind (8 + d) h = false) (hslot : u.wordSlot { job := 0, hallwide := true, body := .arrive h gen epoch src ht32 false tag } h gen = some (.hub i))
    (hmask : bit (u.slotAt (.hub i)).dieMask d = true) (hcounting : (u.slotAt (.hub i)).state = .counting) (hscope : (u.slotAt (.hub i)).scope = 2)
    (hepoch : epoch = (u.slotAt (.hub i)).e) (hnew : bit (u.slotAt (.hub i)).dieArr d = false) (hdies : setBit (u.slotAt (.hub i)).dieArr d ≠ (u.slotAt (.hub i)).dieMask)
    (hshort : popCount 129 (u.slotAt (.hub i)).arr ≠ (u.slotAt (.hub i)).headcount) :
    Gives (.leadDieArrive d 0 true h gen epoch src ht32 false tag) s fun t => t.slotAt (.hub i) = dieArrived d (src % 2 ^ 21) ht32 (u.slotAt (.hub i)) := by
  have hrun : execLeadDieArrive d 0 true h gen epoch src ht32 false tag s
      = .next (u.leadArrive d { job := 0, hallwide := true, body := .arrive h gen epoch src ht32 false tag } h gen epoch src ht32 none) := by
    unfold execLeadDieArrive
    simp only [isLead_of_zero hlead, if_true, htake]
    unfold State.packageWord
    simp only [hbehind, Bool.not_false, Bool.true_or, if_true, Bool.false_eq_true, if_false, Nat.add_sub_cancel_left]
  exact ⟨_, hrun, leadArrive_sets hslot rfl hmask hcounting hscope hepoch hnew hdies hshort⟩

/-- The slot without a die (R200). -/
def dieLeft (d : Nat) (v : Machine.Slot) : Machine.Slot :=
  { v with dieMask := clearBit v.dieMask d, dieArr := clearBit v.dieArr d, dieEarly := clearBit v.dieEarly d, earlyAcc := v.earlyAcc.filter fun e => e.1 != d }

theorem leadWithdraw_clears {v : Machine.Slot} (hslot : u.wordSlot w h gen = some (.hub i)) (hv : u.slotAt (.hub i) = v) (hcounting : v.state = .counting) (hscope : 2 ≤ v.scope)
    (hmask : clearBit v.dieMask d ≠ 0) (hdies : clearBit v.dieArr d ≠ clearBit v.dieMask d) (hshort : popCount 129 v.arr ≠ v.headcount) :
    (u.leadWithdraw d w h gen).slotAt (.hub i) = dieLeft d v := by
  have hset := slotAt_set i (dieLeft d v) u
  have hrun : u.leadWithdraw d w h gen = (u.setSlotAt (.hub i) (dieLeft d v)).slotTest (.hub i) := by
    unfold State.leadWithdraw
    simp only [hslot, hv, if_neg hmask]
    rfl
  rw [hrun, slotTest_stays hset hcounting hscope (fullHere_of_short hshort) fun _ => hdies, hset]

/-- LEAD_DIE_WITHDRAW (R200). -/
theorem leadDieWithdraw_clears {hw : Bool} (htake : s.takeDieWord (8 + d) { job := job, hallwide := hw, body := .withdraw h gen epoch src ht32 } = u) (hlead : s.die.pkgIndex = 0)
    (hbehind : u.dieBehind (8 + d) h = false) (hslot : u.wordSlot { job := job, hallwide := hw, body := .withdraw h gen epoch src ht32 } h gen = some (.hub i))
    (hcounting : (u.slotAt (.hub i)).state = .counting) (hscope : 2 ≤ (u.slotAt (.hub i)).scope) (hmask : clearBit (u.slotAt (.hub i)).dieMask d ≠ 0)
    (hdies : clearBit (u.slotAt (.hub i)).dieArr d ≠ clearBit (u.slotAt (.hub i)).dieMask d) (hshort : popCount 129 (u.slotAt (.hub i)).arr ≠ (u.slotAt (.hub i)).headcount) :
    Gives (.leadDieWithdraw d job hw h gen epoch src ht32) s fun t => t.slotAt (.hub i) = dieLeft d (u.slotAt (.hub i)) := by
  have hrun : execLeadDieWithdraw d job hw h gen epoch src ht32 s = .next (u.leadWithdraw d { job := job, hallwide := hw, body := .withdraw h gen epoch src ht32 } h gen) := by
    unfold execLeadDieWithdraw
    simp only [isLead_of_zero hlead, if_true, htake]
    unfold State.packageWord
    simp only [hbehind, Bool.false_eq_true, if_false, Nat.add_sub_cancel_left]
  exact ⟨_, hrun, leadWithdraw_clears hslot rfl hcounting hscope hmask hdies hshort⟩

end

/-! A DONE at a die (R200, R258). -/

section
variable {s u : State} {n job h gen epoch contrib hash flags i : Nat}

/-- The slot after an epoch without an early arrival (R191). -/
def completedSlot (missing : Nat) (v : Machine.Slot) : Machine.Slot :=
  { v with e := (v.e + 1) % 65536, arr := v.early, early := 0, dieArr := v.dieEarly, dieEarly := 0, state := .counting, missing := missing, retried := 0, acc := {}, hasAcc := false, earlyAcc := [] }

theorem completeSlot_alone {v : Machine.Slot} (hv : u.slotAt (.hub i) = v) (hscope : v.scope = 3) (hearly : v.earlyAcc = []) (hwaits : v.waits = []) (hhost : v.hostWaits = []) (missing : Nat) :
    (u.completeSlot (.hub i) missing).slotAt (.hub i) = completedSlot missing v ∧ (u.completeSlot (.hub i) missing).die.pkgIndex = u.die.pkgIndex := by
  have hset := slotAt_set i (completedSlot missing v) u
  have hfree := fun ns => (freePartials_all .sc ns v.job v.name v.e (u.setSlotAt (.hub i) (completedSlot missing v))).2.1
  generalize hy : (u.setSlotAt (.hub i) (completedSlot missing v)).freePartials .sc ((u.setSlotAt (.hub i) (completedSlot missing v)).upPorts .sc) v.job v.name v.e = y
  have hdie : y.die = (u.setSlotAt (.hub i) (completedSlot missing v)).die := by
    rw [← hy]
    exact hfree _
  have hslot : y.slotAt (.hub i) = completedSlot missing v := (slotAt_congr hdie _).trans hset
  have hrun : u.completeSlot (.hub i) missing = y.setSlotAt (.hub i) (completedSlot missing v) := by
    have hidle := relWaiters_of_none (s := y) (i := i) (by rw [hslot]; exact hwaits) (by rw [hslot]; exact hhost) 0 fun w => decide (sdiff16 w v.e ≤ 0)
    rw [hslot] at hidle
    rw [← hidle, ← hy]
    unfold State.completeSlot
    simp only [hv, hearly, List.foldl_nil, if_pos hscope]
    rfl
  rw [hrun, slotAt_set]
  refine ⟨rfl, ?_⟩
  change y.die.pkgIndex = _
  rw [hdie]
  rfl

/-- The slot after the DONE of its present epoch (R200). -/
def doneSlot (missing contrib hash flags : Nat) (v : Machine.Slot) : Machine.Slot := { completedSlot missing v with doneContrib := contrib, doneHash := hash, doneFlags := flags }

theorem slotDone_present {v : Machine.Slot} (hv : u.slotAt (.hub i) = v) (hmember : u.die.pkgIndex ≠ 0) (hcounting : v.state = .counting) (hscope : v.scope = 3) (hearly : v.early = 0)
    (hpartials : v.earlyAcc = []) (hwaits : v.waits = []) (hhost : v.hostWaits = []) :
    (u.slotDone (.hub i) v.e contrib hash flags).slotAt (.hub i) = doneSlot (minusMask 129 v.part v.arr) contrib hash flags v := by
  obtain ⟨hcompleted, hindex⟩ := completeSlot_alone hv hscope hpartials hwaits hhost (minusMask 129 v.part v.arr)
  generalize hy : u.completeSlot (.hub i) (minusMask 129 v.part v.arr) = y at hcompleted hindex
  have hbyDone : u.completeByDone (.hub i) = y := by
    unfold State.completeByDone
    simp only [hv, hcounting, reduceCtorEq, if_false, hy]
  generalize hx : ({ kind := 0x03, obj := v.handle, arg := contrib % 2 ^ 22, epoch := v.e } : Machine.Rec) = x
  have hrec := ctxRecord_only v.ctx x (y.setSlotAt (.hub i) (doneSlot (minusMask 129 v.part v.arr) contrib hash flags v))
  generalize hz : (y.setSlotAt (.hub i) (doneSlot (minusMask 129 v.part v.arr) contrib hash flags v)).ctxRecord v.ctx x = z at hrec
  have hslot : z.slotAt (.hub i) = doneSlot (minusMask 129 v.part v.arr) contrib hash flags v := (slotAt_of_only hrec).trans (slotAt_set ..)
  have hlead : z.isLead = false := isLead_of_ne (by rw [hrec.die]; exact hindex ▸ hmember)
  have hrun : u.slotDone (.hub i) v.e contrib hash flags = z.slotTest (.hub i) := by
    unfold State.slotDone
    simp only [hv, sdiff16_self, Int.toNat_zero, if_true, hbyDone, Nat.zero_le, hcompleted, hx]
    rw [← hz]
    rfl
  rw [hrun, slotTest_stays hslot rfl (by change 2 ≤ v.scope; omega) (fullHere_of_empty hearly) (by rw [hlead]; nofun), hslot]

/-- DONE_AT_DIE (R200). -/
theorem doneAtDie_completes (htake : s.takeDieWord n { job := job, body := .done h gen epoch contrib hash flags } = u) (hmember : u.die.pkgIndex ≠ 0)
    (hslot : u.wordSlot { job := job, body := .done h gen epoch contrib hash flags } h gen = some (.hub i)) (hcounting : (u.slotAt (.hub i)).state = .counting)
    (hscope : (u.slotAt (.hub i)).scope = 3) (hepoch : epoch = (u.slotAt (.hub i)).e) (hflag : bit flags 5 = false) (hdescs : u.die.pay.descs = []) (hheld : u.die.pay.held = [])
    (hearly : (u.slotAt (.hub i)).early = 0) (hpartials : (u.slotAt (.hub i)).earlyAcc = []) (hwaits : (u.slotAt (.hub i)).waits = []) (hhost : (u.slotAt (.hub i)).hostWaits = []) :
    Gives (.doneAtDie n job false h gen epoch contrib hash flags) s fun t => t.slotAt (.hub i)
      = doneSlot (minusMask 129 (u.slotAt (.hub i)).part (u.slotAt (.hub i)).arr) contrib hash flags (u.slotAt (.hub i)) := by
  have happlied : u.doneOrHold (.hub i) epoch contrib hash flags = u.slotDone (.hub i) epoch contrib hash flags := by
    unfold State.doneOrHold
    simp only [hdescs, hflag, hheld, List.filter_nil, List.isEmpty_nil, List.any_nil, Bool.not_true, Bool.and_false, Bool.or_self, Bool.false_eq_true, if_false]
  have hrun : execDoneAtDie n job false h gen epoch contrib hash flags s = .next (u.slotDone (.hub i) epoch contrib hash flags) := by
    unfold execDoneAtDie
    simp only [htake, hslot, hcounting, isLead_of_ne hmember, Bool.false_and, Bool.false_eq_true, if_false, happlied]
    rw [hepoch, sdiff16_self]
    rfl
  refine ⟨_, hrun, ?_⟩
  rw [hepoch]
  exact slotDone_present rfl hmember hcounting hscope hearly hpartials hwaits hhost

end

/-! Members and notices of stale slots (R205, R206, R221). -/

section
variable {s : State} {n job roll h gen epoch i : Nat}

theorem takeWord_die (n : Nat) (w : CtlWord) (s : State) : (s.takeWord .sc n w).die = s.die := rfl

theorem takeWord_get (n : Nat) (w : CtlWord) (f : Machine.Field) (s : State) : (s.takeWord .sc n w).get .sc f = s.get .sc f := rfl

/-- The floor's outputs are all that it drives (R333). -/
theorem driveFloor_get {f : Machine.Field} (hfloor : f.key ≠ Rg.SPWR_FLOOR_OUT.key) (hrecess : f.key ≠ Rg.SPWR_PM_RECESS.key) (s : State) : s.driveFloor.get .sc f = s.get .sc f := by
  unfold State.driveFloor
  rw [get_putFlag_ne _ hrecess, State.get_put_ne _ hfloor]

/-- MEMBER_WORD at the die that it names, outside a change (R221, R321). -/
theorem memberWord_joins (hjob : job < 64) (hmember : s.die.pkgIndex ≠ 0) (hroll : roll % 8 = s.die.pkgIndex) :
    Gives (.memberWord .sc n job 0 roll 0 gen) s fun t => t.get .sc (Rg.SJH_MEMBER job) = 1 ∧ t.get .sc (Rg.SJH_MGEN job) = gen % 2 ^ (Rg.SJH_MGEN job).width := by
  generalize hu : s.takeWord .sc n { job := job, body := .member 0 roll 0 gen } = u
  have hdie : u.die = s.die := by
    rw [← hu, takeWord_die]
  have hjoin : u.memberAtDie job roll 0 gen = ((u.put .sc (Rg.SJH_MEMBER job) 1).put .sc (Rg.SJH_MGEN job) gen).driveFloor := by
    unfold State.memberAtDie
    simp only [isLead_of_ne (hdie ▸ hmember : u.die.pkgIndex ≠ 0), hdie, hroll, Bool.false_eq_true, if_false, if_true, show ¬ (0 : Nat) = 1 by decide, decide_false, Bool.false_and]
  have hrun : execMemberWord .sc n job 0 roll 0 gen s = .next ((u.put .sc (Rg.SJH_MEMBER job) 1).put .sc (Rg.SJH_MGEN job) gen).driveFloor := by
    unfold execMemberWord
    simp only [isLead_of_ne hmember, Bool.false_and, Bool.false_eq_true, if_false, if_true, hu, hjoin, show ¬ 1 < (0 : Nat) by decide]
  refine ⟨_, hrun, ?_, ?_⟩
  · rw [driveFloor_get (key_ne_of_off (by simp only [Rg.SJH_MEMBER, Rg.SPWR_FLOOR_OUT]; omega)) (key_ne_of_off (by simp only [Rg.SJH_MEMBER, Rg.SPWR_PM_RECESS]; omega)),
      State.get_put_ne _ key_ne_of_lo, State.get_put_same]
    rfl
  · rw [driveFloor_get (key_ne_of_off (by simp only [Rg.SJH_MGEN, Rg.SPWR_FLOOR_OUT]; omega)) (key_ne_of_off (by simp only [Rg.SJH_MGEN, Rg.SPWR_PM_RECESS]; omega)), State.get_put_same]

/-- Nobody waits at the slot and no descriptor is in flight: STALE changes its state alone (R206, R259). -/
theorem slotStale_alone {v : Machine.Slot} (hv : s.slotAt (.hub i) = v) (hwaits : v.waits = []) (hhost : v.hostWaits = []) (hdescs : s.die.pay.descs = []) :
    s.slotStale (.hub i) = (((s.setSlotAt (.hub i) { v with state := .stale }).setSlotAt (.hub i) { v with state := .stale }).setPay { s.die.pay with held := s.die.pay.held.filter fun x => x.ref != .hub i }) := by
  have hset := slotAt_set i { v with state := .stale } s
  have hidle := relWaiters_of_none (s := s.setSlotAt (.hub i) { v with state := .stale }) (i := i) (by rw [hset]; exact hwaits) (by rw [hset]; exact hhost) 4 fun _ => true
  rw [hset] at hidle
  unfold State.slotStale
  rw [hv, hidle]
  unfold State.endDescs
  have hnone : ((s.setSlotAt (.hub i) { v with state := .stale }).setSlotAt (.hub i) { v with state := .stale }).die.pay = s.die.pay := rfl
  simp only [hnone, hdescs, List.filter_nil, List.foldl_nil]

/-- STALE_WORD at the die that it names (R205, R206). -/
theorem staleWord_stales (hroll : roll % 8 = s.die.pkgIndex) (hslot : s.wordSlot { job := job, body := .stale roll h gen epoch 1 } h gen = some (.hub i)) (hwaits : (s.slotAt (.hub i)).waits = [])
    (hhost : (s.slotAt (.hub i)).hostWaits = []) (hdescs : s.die.pay.descs = []) :
    Gives (.staleWord .sc n job false roll h gen epoch 1) s fun t => (t.slotAt (.hub i)).state = .stale ∧ t.get .sc Rg.MON_STALE_CNT = sat Rg.MON_STALE_CNT.width (s.get .sc Rg.MON_STALE_CNT + 1) := by
  generalize hw : ({ job := job, body := .stale roll h gen epoch 1 } : CtlWord) = w at hslot
  generalize hx : ({ kind := 0x08, obj := h, arg := gen + 256 * (1 % 256), epoch := epoch, job := job, hallwide := false } : Machine.Rec) = x
  have hcount : (s.takeWord .sc n w).staleCount.die = s.die := State.put_die ..
  have hrec : Only .sc false attKeys (s.takeWord .sc n w).staleCount ((s.takeWord .sc n w).staleCount.record .sc x) := Only.record (Only.refl ..) (fun _ h => h) _
  generalize hu : (s.takeWord .sc n w).staleCount.record .sc x = u at hrec
  have hstays : u.slotAt (.hub i) = s.slotAt (.hub i) := (slotAt_of_only hrec).trans (slotAt_congr hcount _)
  have hfound : u.wordSlot w h gen = some (.hub i) := by
    rw [← hslot]
    unfold State.wordSlot
    rw [hrec.die, hcount]
  have hdesc : u.die.pay.descs = [] := by
    rw [hrec.die, hcount, hdescs]
  have hrun : execStaleWord .sc n job false roll h gen epoch 1 s = .next (u.slotStale (.hub i)) := by
    unfold execStaleWord
    simp only [hw, hx, hu, hroll, bne_self_eq_false, Bool.false_eq_true, if_false, hfound, decide_true, Bool.true_or, if_true]
  rw [slotStale_alone hstays hwaits hhost hdesc] at hrun
  refine ⟨_, hrun, ?_, ?_⟩
  · rw [setPay_slotAt, slotAt_set]
  · rw [setPay_get _ _ (by decide)]
    change u.get .sc _ = _
    rw [hrec.get _ (not_att (by decide) (by decide) (by decide))]
    exact get_bump ..

end

/-! Bells at a die (R242, R243, R332). -/

section
variable {s u : State} {job : Nat}

/-- The level that a bell brings outside a recess (R332, R335). -/
theorem applyLevel_steps {level : Nat} (hlevel : level < 2 ^ 8) (s : State) :
    (s.applyLevel job level false).get .sc (Rg.SPWR_LEVEL job) = level ∧ (s.applyLevel job level false).get .sc (Rg.SPWR_RECESS job) = 0
      ∧ (s.applyLevel job level false).get .sc (Rg.SPWR_VALID job) = 1 ∧ (s.applyLevel job level false).get .sc (Rg.SPWR_ENTRY job) = 0 := by
  have hdrive : ∀ (t : State) (f : Machine.Field), f.off = 0x9100 + 4 * job → decide (f.lo < 32) = true → t.driveFloor.get .sc f = t.get .sc f := fun t f ho hl =>
    driveFloor_get (key_ne_of_off (by rw [ho]; simp only [Rg.SPWR_FLOOR_OUT]; omega) hl) (key_ne_of_off (by rw [ho]; simp only [Rg.SPWR_PM_RECESS]; omega) hl) t
  unfold State.applyLevel
  simp only [Bool.false_and, Bool.false_eq_true, if_false, Bool.not_false, if_true]
  refine ⟨?_, ?_, ?_, ?_⟩ <;> rw [hdrive _ _ rfl rfl]
  · rw [State.get_put_ne _ key_ne_of_lo, State.get_put_ne _ key_ne_of_lo, get_putFlag_ne _ key_ne_of_lo, get_put_low _ hlevel]
  · rw [State.get_put_ne _ key_ne_of_lo, State.get_put_ne _ key_ne_of_lo, get_putFlag_same]
    rfl
  · rw [State.get_put_ne _ key_ne_of_lo, State.get_put_same]
    rfl
  · rw [State.get_put_same]
    rfl

theorem applyLevel_die (level : Nat) (recess : Bool) (s : State) : (s.applyLevel job level recess).die = s.die := by
  have hdrive : ∀ t : State, t.driveFloor.die = t.die := fun t => (State.put_die ..).trans (State.put_die ..)
  have hfirst : (((s.put .sc (Rg.SPWR_LEVEL job) level).putFlag .sc (Rg.SPWR_RECESS job) recess).put .sc (Rg.SPWR_VALID job) 1).die = s.die :=
    (State.put_die ..).trans ((State.put_die ..).trans (State.put_die ..))
  unfold State.applyLevel
  rw [hdrive]
  split
  · exact (State.put_die ..).trans hfirst
  · split
    · exact (State.put_die ..).trans hfirst
    · exact hfirst

/-- DIE_BELL_FIRE (R332, R337). -/
theorem dieBellFire_applies {b : DieBell} (hfind : (s.die.sync.bells.find? fun x => x.word.job == job) = some b) (hpast : b.ht ≤ s.htNs .sc) (hclose : b.word.closeHwm = 0)
    (hfloor : b.word.floor ≤ 100) (hrecess : s.get .sc (Rg.SPWR_RECESS job) = 0) :
    Gives (.dieBellFire job) s fun t => t.die.sync.bells = s.die.sync.bells.erase b ∧ t.get .sc (Rg.SPWR_LEVEL job) = b.word.floor ∧ t.get .sc (Rg.SPWR_RECESS job) = 0
      ∧ t.get .sc (Rg.SPWR_VALID job) = 1 ∧ t.get .sc (Rg.SPWR_ENTRY job) = 0 := by
  have hrun : execDieBellFire job s = .next ((s.setSync { s.die.sync with bells := s.die.sync.bells.erase b }).applyLevel job b.word.floor false) := by
    unfold execDieBellFire
    simp only [hfind, awaitHt_past hpast, if_neg (not_lt.2 hpast), hclose, bne_self_eq_false, Bool.and_false, Bool.false_eq_true, if_false, flag0 hrecess, Bool.false_and]
    exact if_neg (by omega)
  refine ⟨_, hrun, ?_, applyLevel_steps (by omega) _⟩
  rw [applyLevel_die]
  rfl

/-- No head waits for a bell: no launch target is given (R194). -/
theorem bellTargets_of_none {no ht : Nat} (hheads : ∀ q, q < s.die.queues → (s.queue q).head = none) : s.bellTargets job no ht = s :=
  foldl_of_fixed fun q hq => by simp only [hheads q (List.mem_range.1 hq)]

/-- The registers of a job's last bell (R242). -/
def bellRecorded (w : BellWord) (s : State) : State :=
  ((s.put .sc (Rg.SJH_BELL_LO w.job) w.bellNo).put .sc (Rg.SJH_BELL_HI w.job) (w.bellNo / 2 ^ 32)).put .sc (Rg.SJH_BELL_VALID w.job) 1

theorem bellRecorded_eq (w : BellWord) (s : State) :
    bellRecorded w s = ((s.put .sc (Rg.SJH_BELL_LO w.job) w.bellNo).put .sc (Rg.SJH_BELL_HI w.job) (w.bellNo / 2 ^ 32)).put .sc (Rg.SJH_BELL_VALID w.job) 1 := rfl

theorem bellRecorded_die (w : BellWord) (s : State) : (bellRecorded w s).die = s.die := (State.put_die ..).trans ((State.put_die ..).trans (State.put_die ..))

theorem bellRecorded_bellSlots {w : BellWord} (hjob : w.job < 64) (s : State) : (bellRecorded w s).bellSlots w.job = s.bellSlots w.job := by
  have hget : ∀ k < 8, ∀ f : Machine.Field, f.off = 0x2C90 + 16 * k → decide (f.lo < 32) = true → (bellRecorded w s).get .sc f = s.get .sc f := fun k hk f ho hl => by
    unfold bellRecorded
    rw [State.get_put_ne _ (key_ne_of_off (by rw [ho]; simp only [Rg.SJH_BELL_VALID]; omega) hl), State.get_put_ne _ (key_ne_of_off (by rw [ho]; simp only [Rg.SJH_BELL_HI]; omega) hl),
      State.get_put_ne _ (key_ne_of_off (by rw [ho]; simp only [Rg.SJH_BELL_LO]; omega) hl)]
  refine List.filter_congr fun k hk => ?_
  rw [hget k (List.mem_range.1 hk) _ rfl rfl, hget k (List.mem_range.1 hk) _ rfl rfl]

/-- BELL_WORD_AT_DIE of a first bell that is not late (R242, R243). -/
theorem bellWordAtDie_records {n beat c : Nat} {w : BellWord} (htake : s.takeDieWord n { job := w.job, body := .bell beat w } = u) (hjob : w.job < 64) (hmember : u.die.pkgIndex ≠ 0)
    (hctx : s.hallCtx w.job = some c) (hfirst : s.get .sc (Rg.SJH_BELL_VALID w.job) = 0) (hin : s.get .sc (Rg.SJH_MEMBER w.job) = 1) (hearly : s.htNs .sc ≤ beat * 1024)
    (hslots : u.bellSlots w.job = []) (hheads : ∀ q, q < u.die.queues → (u.queue q).head = none) :
    Gives (.bellWordAtDie n beat w) s fun t => t.get .sc (Rg.SJH_BELL_LO w.job) = w.bellNo % 2 ^ 32 ∧ t.get .sc (Rg.SJH_BELL_HI w.job) = w.bellNo / 2 ^ 32 % 2 ^ 16
      ∧ t.get .sc (Rg.SJH_BELL_VALID w.job) = 1 ∧ t.die.sync.bells = u.die.sync.bells ++ [{ word := w, ht := beat * 1024, late := false }] := by
  have hdie := bellRecorded_die w u
  have hnone : u.bellDies w.job = [] := by
    unfold State.bellDies
    rw [isLead_of_ne hmember]
    rfl
  have hunarmed : (bellRecorded w u).bellSlots w.job = [] := (bellRecorded_bellSlots hjob u).trans hslots
  have hquiet : (bellRecorded w u).bellTargets w.job w.bellNo (beat * 1024) = bellRecorded w u :=
    bellTargets_of_none fun q hq => by
      rw [queue_of (by rw [hdie])]
      exact hheads q (by rwa [hdie] at hq)
  have hrun : execBellWordAtDie n beat w s
      = .next ((bellRecorded w u).setSync { (bellRecorded w u).die.sync with bells := (bellRecorded w u).die.sync.bells ++ [{ word := w, ht := beat * 1024, late := false }] }) := by
    unfold execBellWordAtDie
    simp only [htake, hctx, Option.isNone_some, Bool.false_eq_true, if_false, flag0 hfirst, Bool.false_and, hnone, List.foldl_nil, flag1 hin, Bool.not_true, decide_eq_false (not_lt.2 hearly),
      ← bellRecorded_eq, hunarmed, ite_self, hquiet]
  refine ⟨_, hrun, ?_⟩
  simp only [State.get_setSync]
  unfold bellRecorded
  refine ⟨?_, ?_, ?_, ?_⟩
  · rw [State.get_put_ne _ (key_ne_of_off (by simp only [Rg.SJH_BELL_LO, Rg.SJH_BELL_VALID]; omega)), State.get_put_ne _ (key_ne_of_off (by simp only [Rg.SJH_BELL_LO, Rg.SJH_BELL_HI]; omega)),
      State.get_put_same]
    rfl
  · rw [State.get_put_ne _ key_ne_of_lo, State.get_put_same]
    rfl
  · rw [State.get_put_same]
    rfl
  · change (bellRecorded w u).die.sync.bells ++ _ = _
    rw [hdie]

end

/-- Settles O19, each clause by the lemma on its command. -/
theorem hallWordsAtTheDie : Obligations.HallWordsAtTheDie := by
  unfold Obligations.HallWordsAtTheDie
  refine ⟨fun _ _ _ _ _ _ _ _ _ _ htake hlead _ hbehind hslot hmask hcounting hscope hepoch hnew hdies hshort =>
      leadDieArrive_sets htake hlead hbehind hslot hmask hcounting hscope hepoch hnew hdies hshort,
    fun _ _ _ _ _ _ _ _ _ _ _ htake hlead _ hbehind hslot hcounting hscope hmask hdies hshort =>
      leadDieWithdraw_clears htake hlead hbehind hslot hcounting hscope hmask hdies hshort,
    fun n job h gen epoch contrib hash flags i s u htake hmember hslot hcounting hscope hepoch hflag hdescs hheld hearly hpartials hwaits hhost => ?_,
    fun _ _ _ _ _ hjob hmember hroll => memberWord_joins hjob hmember hroll,
    fun _ _ _ _ _ _ _ _ hroll hslot hwaits hhost hdescs _ => staleWord_stales hroll hslot hwaits hhost hdescs,
    fun _ _ _ _ hfind hpast hclose hfloor hrecess => dieBellFire_applies hfind hpast hclose hfloor hrecess,
    fun _ _ _ _ _ _ htake hjob hmember hctx hfirst hin hearly hslots hheads => bellWordAtDie_records htake hjob hmember hctx hfirst hin hearly hslots hheads⟩
  obtain ⟨t, hrun, hdone⟩ := doneAtDie_completes htake hmember hslot hcounting hscope hepoch hflag hdescs hheld hearly hpartials hwaits hhost
  refine ⟨t, hrun, ?_⟩
  simp only [hdone, hepoch]
  exact ⟨rfl, hearly, rfl, rfl, rfl, rfl, rfl⟩

end Sys2Proof.Proofs

/-! PROOFS. O21: pages, quotas, entries and close logs of the stud book. -/

namespace Sys2Proof.Proofs

open Sys2Proof Sys2Proof.Machine Sys2Proof.Cmds

-- One proof after another, as in the tests: side by side, the proofs of the joined text keep more stacks alive than the check's memory holds.
set_option Elab.async false

section
variable {m : MbGo} {j first n : Nat} {s : State}

/-- A stud book command that is ready at the active root leaves what its body makes of the submitted state, with the answer in the mailbox. -/
theorem sbCmd_eq_answer {sig : List Nat} {need : Nat} {u : State} {out : MbOut} (h : MbReady m 2 (some (m.argAt sig 0)) need s) (hn : layoutEnd 0 sig = need) (hp : m.part = .fd)
    (hv : s.dist.variant = .vxd2880) (har : s.isActiveRoot = true) {code : Nat} {body : List Nat → State → MbOut × State}
    (hbody : body (parseFields m.args 0 sig) (s.mbSubmit m code) = (out, u)) : s.sbCmd m code sig body = u.mbAnswer m.part m.box code m.tag m.irq m.dma out := by
  rw [sb_ready h hn hp hv har, hbody]

/-- The answer to a mailbox command is nothing of the hall's state. -/
theorem dist_ans (m : MbGo) (code : Nat) (fixed : List (Nat × Nat)) (t : State) : (t.mbAnswer m.part m.box code m.tag m.irq m.dma (.ok fixed)).dist = t.dist := mbDone_dist ..

theorem sbPages_congr {t : State} (hd : t.dist = s.dist) (j : Nat) : t.sbPages j = s.sbPages j := by
  unfold State.sbPages
  rw [hd]

theorem flag_mbSubmit (hb : m.box < 8) (code : Nat) {f : Machine.Field} (hf : ¬ mbKeys f.key) (p : Part) : (s.mbSubmit m code).flag p f = s.flag p f := by
  unfold State.flag
  rw [get_sub hb code hf p]

theorem beat_mbSubmit (code : Nat) (p : Part) : (s.mbSubmit m code).beat p = s.beat p := beat_of (mbSubmit_unit_clock ..)

/-- Only as many elements of the second list as the first has are taken into a zip. -/
theorem zip_take_right {α β : Type} (l : List α) (r : List β) (h : l.length ≤ r.length) : List.zip l (r.take l.length) = List.zip l r := by
  rw [List.zip_eq_zip_take_min (l₂ := r), Nat.min_eq_left h, List.take_length]

/-- SB_ALLOC maps the lowest free pages (R289, R307; log entry 25, the model's choice). -/
theorem sbAlloc_maps_lowest_free (h : MbReady m 2 (some (m.argAt [1, 2, 2] 0)) 6 s) (hp : m.part = .fd) (hv : s.dist.variant = .vxd2880) (har : s.isActiveRoot = true)
    (hj : m.argAt [1, 2, 2] 0 = j) (hfirst : m.argAt [1, 2, 2] 1 = first) (hn : m.argAt [1, 2, 2] 2 = n) (hlt : j < 64) (hcreated : s.get .fd (Rg.JH_CREATED j) = 1) (hend : first + n ≤ 4096)
    (hquota : (s.sbPages j).length + n ≤ s.get .fd (Rg.JM_SB_QUOTA j)) (hfree : n ≤ ((List.range 4096).filter fun p => !s.dist.sb.used.contains p).length)
    (hunmapped : ∀ i < n, SMap.find (j * 4096 + first + i) s.dist.sb.pages = none) :
    Gives (.sbAlloc m) s fun t => Answered m 0 t ∧ t.dist.sb.used = s.dist.sb.used ++ ((List.range 4096).filter fun p => !s.dist.sb.used.contains p).take n
      ∧ t.dist.sb.pages = (List.zip ((List.range n).map fun i => j * 4096 + first + i) ((List.range 4096).filter fun p => !s.dist.sb.used.contains p)).foldl (fun q e => SMap.set e.1 e.2 q) s.dist.sb.pages
      ∧ t.dist.sb.entries = s.dist.sb.entries := by
  refine ⟨_, rfl, ?_⟩
  generalize hf : (List.range 4096).filter (fun p => !s.dist.sb.used.contains p) = free at *
  generalize hk : (List.range n).map (fun i => j * 4096 + first + i) = keys at *
  have hlen : keys.length = n := by rw [← hk, List.length_map, List.length_range]
  have hnone : keys.any (fun k => (SMap.find k s.dist.sb.pages).isSome) = false := by
    rw [← hk, List.any_map, List.any_eq_false]
    intro i hi
    rw [Function.comp_apply, hunmapped i (List.mem_range.1 hi)]
    decide
  rw [sbCmd_eq_answer h rfl hp hv har (out := .list [] ((free.take n).map fun p => [(2, p)]))
    (u := ((s.mbSubmit m 0x42).setSb { s.dist.sb with pages := (List.zip keys (free.take n)).foldl (fun q e => SMap.set e.1 e.2 q) s.dist.sb.pages, used := s.dist.sb.used ++ free.take n }).sbRegs j) ?body]
  case body =>
    unfold MbGo.argAt at hj hfirst hn
    have hflag : (s.mbSubmit m 0x42).flag .fd (Rg.JH_CREATED j) = true := by
      rw [flag_mbSubmit h.box 0x42 (not_mbKeys_of_lt (show 0x6104 + 16 * j < 0x8800 by omega))]
      exact flag1 hcreated
    have hq : ¬ (s.mbSubmit m 0x42).get .fd (Rg.JM_SB_QUOTA j) < (s.sbPages j).length + n := by
      rw [get_sub h.box 0x42 (not_mbKeys_of_lt (show 0x7200 + 16 * j < 0x8800 by omega))]
      omega
    simp only [hj, hfirst, hn, mbSubmit_dist, hf, hk, hnone, hflag, sbPages_congr (mbSubmit_dist m 0x42 s), hq, Nat.not_lt.2 (Nat.le_of_lt_succ hlt), Nat.not_lt.2 hend, Nat.not_lt.2 hfree,
      decide_false, Bool.not_true, Bool.or_self, Bool.false_eq_true, if_false]
  obtain ⟨hanswered, hdist, -, -⟩ := ans_list_ok m 0x42 [] ((free.take n).map fun p => [(2, p)])
    (((s.mbSubmit m 0x42).setSb { s.dist.sb with pages := (List.zip keys (free.take n)).foldl (fun q e => SMap.set e.1 e.2 q) s.dist.sb.pages, used := s.dist.sb.used ++ free.take n }).sbRegs j)
  refine ⟨hanswered, ?_⟩
  rw [hdist, sbRegs_dist, ← zip_take_right keys free (hlen.trans_le hfree), hlen]
  exact ⟨rfl, rfl, rfl⟩

/-- SB_FREE notes the pages for the next beat boundary (R289, R307). -/
theorem sbFree_schedules (h : MbReady m 2 (some (m.argAt [1, 2, 2] 0)) 6 s) (hp : m.part = .fd) (hv : s.dist.variant = .vxd2880) (har : s.isActiveRoot = true)
    (hj : m.argAt [1, 2, 2] 0 = j) (hfirst : m.argAt [1, 2, 2] 1 = first) (hn : m.argAt [1, 2, 2] 2 = n) (hlt : j < 64) (hend : first + n ≤ 4096)
    (hmapped : ∀ i < n, SMap.find (j * 4096 + first + i) s.dist.sb.pages ≠ none) :
    Gives (.sbFree m) s fun t => Answered m 0 t ∧ t.dist.sb.freeing = s.dist.sb.freeing ++ (List.range n).map (fun i => (j * 4096 + first + i, s.beat .fd)) ∧ t.dist.sb.pages = s.dist.sb.pages := by
  refine ⟨_, rfl, ?_⟩
  have hsome : ((List.range n).map fun i => j * 4096 + first + i).any (fun k => (SMap.find k s.dist.sb.pages).isNone) = false := by
    rw [List.any_map, List.any_eq_false]
    intro i hi
    simpa using hmapped i (List.mem_range.1 hi)
  rw [sbCmd_eq_answer h rfl hp hv har (out := .ok [])
    (u := (s.mbSubmit m 0x43).setSb { s.dist.sb with freeing := s.dist.sb.freeing ++ (List.range n).map (fun i => (j * 4096 + first + i, s.beat .fd)) }) ?body]
  case body =>
    unfold MbGo.argAt at hj hfirst hn
    simp only [hj, hfirst, hn, mbSubmit_dist, hsome, beat_mbSubmit, Nat.not_lt.2 (Nat.le_of_lt_succ hlt), Nat.not_lt.2 hend, decide_false, Bool.or_self, Bool.false_eq_true, if_false,
      List.map_map, Function.comp_def]
  refine ⟨answered_ok .., ?_⟩
  rw [dist_ans]
  exact ⟨rfl, rfl⟩

theorem awaitBeat_past {p : Part} {b : Nat} (h : b ≤ s.beat p) : s.awaitBeat p b = s := by
  unfold State.beat at h
  exact awaitHt_past ((Nat.le_div_iff_mul_le (by decide)).1 h)

theorem sbUnmap_now (key : Nat) (s : State) : (s.sbUnmap key).now = s.now := by
  unfold State.sbUnmap
  split
  · rfl
  · unfold State.sbRegs State.putFlag
    simp only [State.put_now]
    rfl

/-- At the beat boundary after SB_FREE the page is unmapped, zeroed and free (R289). -/
theorem sbFreeEffect_unmaps {key page at_ : Nat} (hfreeing : s.dist.sb.freeing = [(key, at_)]) (hbeat : at_ < s.beat .fd) (hpage : SMap.find key s.dist.sb.pages = some page) :
    Gives .sbFreeEffect s fun t => t.dist.sb.freeing = [] ∧ t.dist.sb.pages = SMap.erase key s.dist.sb.pages ∧ t.dist.sb.used = s.dist.sb.used.filter (· != page)
      ∧ t.dist.sb.entries = s.dist.sb.entries.filter (fun e => e.1 / 4096 != page) ∧ t.now = s.now := by
  have hrun : execSbFreeEffect s = .next ((s.sbUnmap key).setSb { (s.sbUnmap key).dist.sb with freeing := [] }) := by
    unfold execSbFreeEffect
    simp only [hfreeing, awaitBeat_past hbeat, List.filter_cons, hbeat, decide_true, if_true, List.filter_nil, List.foldl_cons, List.foldl_nil, sbUnmap_one key page s hpage, Bool.not_true,
      Bool.false_eq_true, if_false]
  have hsb := sbUnmap_one key page s hpage
  exact ⟨_, hrun, rfl, congrArg Machine.StudBook.pages hsb, congrArg Machine.StudBook.used hsb, congrArg Machine.StudBook.entries hsb, sbUnmap_now key s⟩

/-- SB_QUOTA sets the quota; the count of pages and whether it is above the quota follow (R289, R307). -/
theorem sbQuota_sets (h : MbReady m 2 (some (m.argAt [1, 2] 0)) 4 s) (hp : m.part = .fd) (hv : s.dist.variant = .vxd2880) (har : s.isActiveRoot = true)
    (hj : m.argAt [1, 2] 0 = j) (hn : m.argAt [1, 2] 1 = n) (hlt : j < 64) (hle : n ≤ 4096) :
    Gives (.sbQuota m) s fun t => Answered m 0 t ∧ t.get .fd (Rg.JM_SB_QUOTA j) = n ∧ t.get .fd (Rg.JM_SB_USED j) = (s.sbPages j).length % 2 ^ 13
      ∧ t.get .fd (Rg.JM_SB_OVER_QUOTA j) = ofBool (decide (n < (s.sbPages j).length)) ∧ t.dist.sb = s.dist.sb := by
  refine ⟨_, rfl, ?_⟩
  generalize hu : ((s.mbSubmit m 0x44).put .fd (Rg.JM_SB_QUOTA j) n).sbRegs j = u
  rw [sbCmd_eq_answer h rfl hp hv har (out := .ok []) (u := u) ?body]
  case body =>
    unfold MbGo.argAt at hj hn
    simp only [hj, hn, hu, Nat.not_lt.2 (Nat.le_of_lt_succ hlt), Nat.not_lt.2 hle, decide_false, Bool.or_self, Bool.false_eq_true, if_false]
  have hlow : ∀ f : Machine.Field, f.off = 0x7200 + 16 * j → decide (f.lo < 32) = true → ¬ mbKeys f.key := fun f ho hl => not_mbKeys_of_lt (by omega) hl
  have hquota : ((s.mbSubmit m 0x44).put .fd (Rg.JM_SB_QUOTA j) n).get .fd (Rg.JM_SB_QUOTA j) = n := get_put_low _ (Nat.lt_of_le_of_lt hle (show 4096 < 2 ^ 13 by decide))
  have hpages : ((s.mbSubmit m 0x44).put .fd (Rg.JM_SB_QUOTA j) n).sbPages j = s.sbPages j := sbPages_congr (by rw [State.put_dist, mbSubmit_dist]) j
  have hfree : ∀ f : Machine.Field, f.off = 0x7200 + 16 * j → decide (f.lo < 32) = true → f.key ≠ Rg.SB_PAGES_FREE.key := fun f ho hl =>
    key_ne_of_off (by rw [ho]; show 0x7200 + 16 * j ≠ 0x7010; omega) hl rfl
  refine ⟨answered_ok .., ?_, ?_, ?_, ?_⟩
  · rw [get_ans h.box _ _ (hlow _ rfl rfl), ← hu]
    unfold State.sbRegs
    rw [get_putFlag_ne _ key_ne_of_lo, State.get_put_ne _ key_ne_of_lo, State.get_put_ne _ (hfree _ rfl rfl), hquota]
  · rw [get_ans h.box _ _ (hlow _ rfl rfl), ← hu]
    unfold State.sbRegs
    rw [get_putFlag_ne _ key_ne_of_lo, State.get_put_same, hpages]
    rfl
  · rw [get_ans h.box _ _ (hlow _ rfl rfl), ← hu]
    unfold State.sbRegs
    rw [get_putFlag_same, hpages, hquota]
  · rw [dist_ans, ← hu, sbRegs_dist, State.put_dist, mbSubmit_dist]

theorem sbIndex_congr {t : State} (hd : t.dist = s.dist) (hb : t.beat .fd = s.beat .fd) (j b : Nat) : t.sbIndex j b = s.sbIndex j b := by
  unfold State.sbIndex State.sbFreed
  rw [hd, hb]

/-- SB_READ answers the entry of a mapped bucket (R287, R290, R307). -/
theorem sbRead_answers {b i : Nat} (h : MbReady m 2 (some (m.argAt [1, 4] 0)) 8 s) (hp : m.part = .fd) (hv : s.dist.variant = .vxd2880) (har : s.isActiveRoot = true)
    (hj : m.argAt [1, 4] 0 = j) (hb : m.argAt [1, 4] 1 = b) (hlt : j < 64) (hle : b < 2 ^ 24) (hindex : s.sbIndex j b = some i) :
    Gives (.sbRead m) s fun t => Result m (((if (SMap.get ({} : SbEntry) i s.dist.sb.entries).bad then ({} : SbEntry) else SMap.get ({} : SbEntry) i s.dist.sb.entries).toBytes j b).take 256) s t
      ∧ Only .fd true mbKeys s t := by
  refine ⟨_, rfl, ?_⟩
  unfold State.sbCmd
  rw [own_fd hp hv, ← hp]
  refine bytes_ok (jobArg := some 0) h rfl 0x45 _ _ ?_
  unfold MbGo.argAt at hj hb
  simp only [State.atRoot, active_sub h.box 0x45 har, hj, hb, sbIndex_congr (mbSubmit_dist m 0x45 s) (beat_mbSubmit 0x45 .fd), hindex, mbSubmit_dist, Nat.not_lt.2 (Nat.le_of_lt_succ hlt), Nat.not_le.2 hle,
    decide_false, Bool.or_self, Bool.false_eq_true, if_false, if_true]

/-- SB_CLOSE_LOG answers the job's closes from a sequence (R293, R307). -/
theorem sbCloseLog_lists {c : CloseEntry} {l : List CloseEntry} (h : MbReady m 2 (some (m.argAt [1, 4] 0)) 8 s) (hp : m.part = .fd) (hv : s.dist.variant = .vxd2880) (har : s.isActiveRoot = true)
    (hj : m.argAt [1, 4] 0 = j) (hfirst : m.argAt [1, 4] 1 = first) (hlt : j < 64) (hlater : laterThan 32 first (s.get .fd (Rg.JH_CLOSE_SEQ j)) = false)
    (hlog : SMap.get [] j s.dist.sb.logs = c :: l) (hearlier : earlierThan 32 first c.seq = false) :
    Gives (.sbCloseLog m) s fun t => Listed m [] ((((c :: l).filter fun e => decide (0 ≤ Machine.sdiff 32 e.seq first)).take 7).map fun e => e.toBytes.map fun x => (1, x.toNat)) s t := by
  refine ⟨_, rfl, ?_⟩
  unfold State.sbCmd
  rw [own_fd hp hv]
  refine list_any (jobArg := some 0) h rfl 0x46 _ _ _ ?_
  unfold MbGo.argAt at hj hfirst
  have hlater' : laterThan 32 first ((s.mbSubmit m 0x46).get .fd (Rg.JH_CLOSE_SEQ j)) = false := by
    rw [get_sub h.box 0x46 (not_mbKeys_of_lt (show 0x6108 + 16 * j < 0x8800 by omega)) .fd]
    exact hlater
  simp only [State.atRoot, active_sub h.box 0x46 har, hj, hfirst, hlater', mbSubmit_dist, hlog, hearlier, Nat.not_lt.2 (Nat.le_of_lt_succ hlt), decide_false, Bool.or_self, Bool.false_eq_true, if_false,
    if_true]

/-- At the end of the copy to the standby the books are mirrored (R292). -/
theorem mirrorResyncDone_mirrors (hsync : s.get .fd Rg.SB_MIRROR_SYNC = 1) :
    Gives .mirrorResyncDone s fun t => t.get .fd Rg.SB_MIRROR_SYNC = 0 ∧ t.get .fd Rg.SB_MIRRORED = 1 ∧ t.dist = s.dist := by
  have hrun : execMirrorResyncDone s = .next ((s.put .fd Rg.SB_MIRROR_SYNC 0).put .fd Rg.SB_MIRRORED 1) := by
    unfold execMirrorResyncDone
    rw [flag1 hsync, if_pos rfl]
  refine ⟨_, hrun, ?_, ?_, ?_⟩
  · rw [State.get_put_ne _ key_ne_of_lo, State.get_put_same]
    rfl
  · rw [State.get_put_same]
    rfl
  · rw [State.put_dist, State.put_dist]

end

/-- Settles O21, each clause by the lemma on its command. -/
theorem studBookPagesAndLogs : Obligations.StudBookPagesAndLogs := by
  unfold Obligations.StudBookPagesAndLogs
  exact ⟨fun _ _ _ _ _ => sbAlloc_maps_lowest_free, fun _ _ _ _ _ => sbFree_schedules, fun _ _ _ _ => sbFreeEffect_unmaps, fun _ _ _ _ => sbQuota_sets, fun _ _ _ _ _ => sbRead_answers,
    fun _ _ _ _ _ _ => sbCloseLog_lists, fun _ => mirrorResyncDone_mirrors⟩

end Sys2Proof.Proofs

/-! PROOFS. O17: the words and the deadlines of the hall slots. -/

namespace Sys2Proof.Proofs

open Sys2Proof Sys2Proof.Machine Sys2Proof.Cmds

-- One proof after another, as in the tests: side by side, the proofs of the joined text keep more stacks alive than the check's memory holds.
set_option Elab.async false

/-! What only moves slots, links and records leaves every count that rests on the tables. -/

/-- The role and, beside slots and the archive, the distributor's own state are the same. -/
def SlotsOnly (s t : State) : Prop := t.role = s.role ∧ HS s t

section
variable {s t u : State} {h : Nat}

theorem SlotsOnly.refl (s : State) : SlotsOnly s s := ⟨rfl, HS.refl s⟩

theorem SlotsOnly.trans (hst : SlotsOnly s t) (htu : SlotsOnly t u) : SlotsOnly s u := ⟨htu.1.trans hst.1, hst.2.trans htu.2⟩

theorem SlotsOnly.setSlot (h : Nat) (v : HSlot) (s : State) : SlotsOnly s (s.setSlot h v) := ⟨rfl, setSlot_hs h v s⟩

theorem SlotsOnly.sent (p : Part) (ns : List Nat) (w : CtlWord) (s : State) : SlotsOnly s (s.sendWords p ns w) := by
  obtain ⟨hdist, -, hget, -, -⟩ := sendWords_all p ns w s
  exact ⟨hget .fd Rg.REFS_ROLE, HQ.hs (.of_dist hdist)⟩

theorem SlotsOnly.record (x : Machine.Rec) (s : State) : SlotsOnly s (s.record .fd x) :=
  ⟨(record_fd x s).get Rg.REFS_ROLE (not_att (by decide) (by decide) (by decide)), (HQ.of_only (record_fd x s)).hs⟩

theorem SlotsOnly.hbarInt {f : Machine.Field} (hf : Rg.REFS_ROLE.key ≠ f.key) (s : State) : SlotsOnly s (s.hbarInt f) :=
  ⟨(Only.hbarInt (K := fun k => k = f.key) (Only.refl .fd false _ s) rfl).get Rg.REFS_ROLE hf, (hall_hbarInt f s).hs⟩

theorem SlotsOnly.waited (hw : Waits s t) : SlotsOnly s t := ⟨hw.get .fd Rg.REFS_ROLE (by unfold timeKeys; decide), HQ.hs (.of_dist hw.dist)⟩

theorem SlotsOnly.root (hst : SlotsOnly s t) : t.isActiveRoot = s.isActiveRoot := by
  unfold State.isActiveRoot
  rw [hst.1]

theorem SlotsOnly.hall (hst : SlotsOnly s t) : t.dist.hall = { s.dist.hall with slots := t.dist.hall.slots } := congrArg Dist.hall hst.2

theorem SlotsOnly.counted (hst : SlotsOnly s t) (hjob : (t.slot h).job = (s.slot h).job) (hwd : (t.slot h).wd = (s.slot h).wd) : t.counted h = s.counted h := hallCount_of hst.1 hst.hall hjob hwd

/-- Not all ports counted have arrived, so the completion check of the open slot leaves the state. -/
theorem hallTest_waits {k : Nat} (hcounting : (s.slot h).state = .counting) (hholding : (s.slot h).holding = false) (hk : k < 64) (hcounted : bit (s.counted h) k = true)
    (harr : bit (s.slot h).arr k = false) : s.hallTest h = s := hallTest_open hcounting hholding (countFull_of hk hcounted harr)

/-! ARRIVE words (R220, R224, R225). -/

theorem onWord_run {n : Nat} {w : CtlWord} {f : State → State} (hheld : s.jobHeld w.job = false) : s.onWord n w f = f (s.takeWord .fd n w) := by
  unfold State.onWord
  simp only [hheld, Bool.and_false, Bool.false_eq_true, if_false]

theorem peerLane_none (hpeer : s.peering = false) : s.peerLane = none := by
  unfold State.peering at hpeer
  unfold State.peerLane
  rw [hpeer]
  rfl

theorem carriesAt_of_alone (hpeer : s.peering = false) (n : Nat) : s.carriesAt n = true := by
  unfold State.peering at hpeer
  unfold State.carriesAt
  rw [hpeer]
  rfl

/-- The mark of the way an arrival came leaves the rest of its slot. -/
theorem markVia_spec (a : Arr) (k : Nat) (s : State) :
    (s.markVia a k).slot a.h = { s.slot a.h with viaPeer := ((s.markVia a k).slot a.h).viaPeer } ∧ SlotsOnly s (s.markVia a k) := by
  unfold State.markVia
  dsimp only
  split
  · rw [slot_setSlot]
    exact ⟨rfl, .setSlot ..⟩
  · exact ⟨rfl, .refl s⟩

/-- What an arrival without a partial leaves in a slot without payload: its bit, the port's members counted in, the port and the HT (R225). -/
def afterArrival (p c port ht32 via : Nat) (v : HSlot) : HSlot :=
  { v.add { c := c } with arr := setBit v.arr p, lastPort := port % 64, lastHt32 := ht32, viaPeer := via }

theorem countArr_plain {a : Arr} (hpeer : s.peering = false) (hpayload : (s.slot a.h).payload = false) (hplain : a.payload = false) (hcounting : (s.slot a.h).state = .counting)
    (hjob : (s.slot a.h).job = a.job) :
    (s.countArr a .none).slot a.h = afterArrival (s.participant a.job a.port) (s.mcountAt a.job (s.participant a.job a.port)) a.port a.ht32 ((s.countArr a .none).slot a.h).viaPeer (s.slot a.h)
      ∧ SlotsOnly s (s.countArr a .none) := by
  have hnone : s.countPartial a.h a.payload .none = s := by
    unfold State.countPartial
    simp only [hpayload, hplain, Bool.not_false, if_true, Bool.false_eq_true, if_false]
  have hadded : s.addedBy a.h (s.participant a.job a.port) .none = { c := s.mcountAt a.job (s.participant a.job a.port) } := by
    unfold State.addedBy
    simp only [hpayload, hjob, Bool.not_false, if_true]
  have hopen : (HState.counting == HState.quorumWait || HState.counting == HState.unresolved) = false := by decide
  unfold State.countArr
  simp only [hnone, hadded, hpeer, hpayload, Bool.and_false, Bool.false_eq_true, if_false, hcounting, hopen, carriesAt_of_alone hpeer, if_true]
  generalize hv : ({ (s.slot a.h).add _ with arr := _, lastPort := _, lastHt32 := _ } : HSlot) = v
  obtain ⟨hslot, honly⟩ := markVia_spec a (s.participant a.job a.port) (s.setSlot a.h v)
  refine ⟨?_, (SlotsOnly.setSlot a.h v s).trans honly⟩
  rw [hslot, slot_setSlot, ← hv]
  rfl

/-- The row of R225 for a primary arrival of the open epoch at an open slot. -/
theorem applyRows_open {a : Arr} (hown : (s.slot a.h).owns a.job a.gen = true) (hmember : SMap.get 0 (s.participant a.job a.port) (s.job a.job).mcount ≠ 0)
    (hwd : bit (s.slot a.h).wd (s.participant a.job a.port) = false) (hsync : s.resyncing a.port = false) (hprimary : s.primarySrc a.port a.src = true) (hepoch : a.epoch = (s.slot a.h).e)
    (harr : bit (s.slot a.h).arr (s.participant a.job a.port) = false) (hcounting : (s.slot a.h).state = .counting) :
    s.applyRows a .none = (((s.countArr a .none).arriveRec a 4).bufSync).hallTest a.h := by
  unfold State.applyRows
  simp only [hown, hmember, hwd, hsync, hprimary, hepoch, sdiff16_self, harr, hcounting, Bool.not_true, Bool.false_eq_true, Bool.and_false, Bool.false_and, if_false, if_true, lt_irrefl]

/-- An arrival that no partner and no other mid could have brought before is applied by the rows of R225. -/
theorem applyArrive_rows {a : Arr} (hpeer : s.peering = false) (hvia : a.via < 64) (hepoch : a.epoch = (s.slot a.h).e) (harr : bit (s.slot a.h).arr (s.participant a.job a.port) = false) :
    s.applyArrive a .none = s.applyRows a .none := by
  have hcopy : s.pairCopy a = false := by
    unfold State.pairCopy
    simp only [hepoch, sdiff16_self, harr, if_true, Nat.not_le.2 hvia, if_false, Bool.false_and, Bool.and_false, ite_self]
  unfold State.applyArrive State.peerCopy
  simp only [peerLane_none hpeer, hcopy, Nat.not_le.2 hvia, decide_false, Bool.and_false, Bool.false_and, Bool.false_eq_true, if_false]

/-- An ARRIVE without a partial as a downstream port of this distributor receives it. -/
def plainArrival (n job h gen epoch src ht32 : Nat) : Arr :=
  { via := n, port := n, job := job, h := h, gen := gen, epoch := epoch, src := src, ht32 := ht32, payload := false, ptag := 0 }

theorem portOf_own {n : Nat} (hn : n < 64) (src : Nat) : portOf n src = n := if_pos hn

theorem owns_of_counting {job gen : Nat} (hcounting : (s.slot h).state = .counting) (hgen : (s.slot h).gen = gen) (hjob : (s.slot h).job = job) : (s.slot h).owns job gen = true := by
  unfold HSlot.owns
  rw [hcounting, hgen, hjob, beq_self_eq_true, beq_self_eq_true]
  rfl

/-- The record and the count of buffers after an arrival are nothing of the slots. -/
theorem recorded_arrival (a : Arr) (row : Nat) (s : State) : SlotsOnly s (s.arriveRec a row).bufSync ∧ ∀ h, ((s.arriveRec a row).bufSync).slot h = s.slot h := by
  have hbuf := bufSync_only (s.arriveRec a row)
  refine ⟨(SlotsOnly.record _ s).trans ⟨hbuf.get Rg.REFS_ROLE (by decide), (HQ.of_only hbuf).hs⟩, fun h => ?_⟩
  rw [(HQ.of_only hbuf).slot]
  exact (HQ.of_only (record_fd ..)).slot h

/-- A primary arrival of the open epoch, without a partial, is counted at its slot, which stays open while another port is missing (R220, R224, R225). -/
theorem hallWord_counts_arrival {n job gen epoch src ht32 k : Nat} (hn : n < 64) (hpeer : s.peering = false) (hroll : s.rollInPort n src = true) (hbehind : s.behind n h = false)
    (hprimary : s.primarySrc n src = true) (hsync : s.resyncing n = false) (hcounting : (s.slot h).state = .counting) (hgen : (s.slot h).gen = gen) (hjob : (s.slot h).job = job)
    (hpayload : (s.slot h).payload = false) (hholding : (s.slot h).holding = false) (hmember : SMap.get 0 (s.participant job n) (s.job job).mcount ≠ 0)
    (hwd : bit (s.slot h).wd (s.participant job n) = false) (hepoch : epoch = (s.slot h).e) (harr : bit (s.slot h).arr (s.participant job n) = false)
    (hk : k < 64) (hother : k ≠ s.participant job n) (hcounted : bit (s.counted h) k = true) (hmissing : bit (s.slot h).arr k = false) :
    ∃ via, (s.hallWord n { job := job, body := .arrive h gen epoch src ht32 false 0 }).slot h
      = afterArrival (s.participant job n) (s.mcountAt job (s.participant job n)) n ht32 via (s.slot h) := by
  have hrows : s.hallWord n { job := job, body := .arrive h gen epoch src ht32 false 0 }
      = (((s.countArr (plainArrival n job h gen epoch src ht32) .none).arriveRec (plainArrival n job h gen epoch src ht32) 4).bufSync).hallTest h := by
    refine Eq.trans ?_ (applyRows_open (a := plainArrival n job h gen epoch src ht32) (owns_of_counting hcounting hgen hjob) hmember hwd hsync hprimary hepoch harr hcounting)
    rw [← applyArrive_rows (a := plainArrival n job h gen epoch src ht32) hpeer hn hepoch harr]
    unfold State.hallWord arrOf State.tryArrive State.runArrive
    simp only [portOf_own hn, plainArrival, hroll, hbehind, Bool.not_true, Bool.not_false, Bool.false_eq_true, if_false, if_true]
  obtain ⟨hslot, honly⟩ := countArr_plain (a := plainArrival n job h gen epoch src ht32) hpeer hpayload rfl hcounting hjob
  obtain ⟨hrec, hsame⟩ := recorded_arrival (plainArrival n job h gen epoch src ht32) 4 (s.countArr (plainArrival n job h gen epoch src ht32) .none)
  rw [hrows]
  generalize ((s.countArr _ .none).arriveRec _ 4).bufSync = t at hrec hsame ⊢
  have hat : t.slot h = afterArrival (s.participant job n) (s.mcountAt job (s.participant job n)) n ht32 _ (s.slot h) := (hsame h).trans hslot
  have hcount : t.counted h = s.counted h := (honly.trans hrec).counted (by rw [hat]; rfl) (by rw [hat]; rfl)
  have hstays : bit (t.slot h).arr k = false := by
    rw [hat]
    exact (bit_setBit_ne hother).trans hmissing
  rw [hallTest_waits (k := k) (by rw [hat]; exact hcounting) (by rw [hat]; exact hholding) hk (by rw [hcount]; exact hcounted) hstays]
  exact ⟨_, hat⟩

theorem arriveWord_counts {n job gen epoch src ht32 k : Nat} (hn : n < 64) (hpeer : s.peering = false) (hheld : s.jobHeld job = false) (hroll : s.rollInPort n src = true)
    (hbehind : s.behind n h = false) (hprimary : s.primarySrc n src = true) (hsync : s.resyncing n = false) (hcounting : (s.slot h).state = .counting) (hgen : (s.slot h).gen = gen)
    (hjob : (s.slot h).job = job) (hpayload : (s.slot h).payload = false) (hholding : (s.slot h).holding = false) (hmember : SMap.get 0 (s.participant job n) (s.job job).mcount ≠ 0)
    (hwd : bit (s.slot h).wd (s.participant job n) = false) (hepoch : epoch = (s.slot h).e) (harr : bit (s.slot h).arr (s.participant job n) = false)
    (hk : k < 64) (hother : k ≠ s.participant job n) (hcounted : bit (s.counted h) k = true) (hmissing : bit (s.slot h).arr k = false) :
    Gives (.arriveWord n job h gen epoch src ht32 false 0) s fun t => (t.slot h).arr = setBit (s.slot h).arr (s.participant job n)
      ∧ (t.slot h).contrib = ((s.slot h).contrib + s.mcountAt job (s.participant job n)) % 2 ^ 22 ∧ (t.slot h).lastPort = n % 64 ∧ (t.slot h).lastHt32 = ht32
      ∧ (t.slot h).state = .counting ∧ (t.slot h).e = (s.slot h).e := by
  refine ⟨_, rfl, ?_⟩
  rw [onWord_run hheld]
  obtain ⟨via, hslot⟩ := hallWord_counts_arrival (s := s.takeWord .fd n { job := job, body := .arrive h gen epoch src ht32 false 0 }) (ht32 := ht32) hn hpeer hroll hbehind hprimary hsync hcounting hgen hjob
    hpayload hholding hmember hwd hepoch harr hk hother hcounted hmissing
  rw [hslot]
  exact ⟨rfl, rfl, rfl, rfl, hcounting, rfl⟩

/-! WITHDRAW words (R225, R226). -/

theorem bit_counted {k : Nat} (hk : k < 64) : bit (s.counted h) k = (bit (s.job (s.slot h).job).memberPorts k && !bit (s.slot h).wd k && s.mcountAt (s.slot h).job k != 0) := by
  unfold State.counted State.expected minusMask
  rw [bit_maskOf hk, bit_maskOf hk]

theorem peering_root (hroot : s.isActiveRoot = true) : s.peering = false := by
  unfold State.isActiveRoot at hroot
  unfold State.peering
  rw [beq_iff_eq.1 hroot]
  rfl

/-- What a withdrawal leaves of an open slot: the participant is withdrawn and what it has brought early is gone (R225). -/
def afterWithdrawal (p : Nat) (v : HSlot) : HSlot :=
  { v with wd := setBit v.wd p, arr := clearBit v.arr p, early := clearBit v.early p, earlyBodies := v.earlyBodies.filter fun e => e.1 != p }

/-- A withdrawal at an open slot of the root takes the port out, and the slot stays open while another port is missing (R225, R226). -/
theorem hallWord_withdraws {n job gen epoch src ht32 k : Nat} (hn : n < 64) (hroll : s.rollInPort n src = true) (hbehind : s.behind n h = false) (hroot : s.isActiveRoot = true)
    (hcounting : (s.slot h).state = .counting) (hgen : (s.slot h).gen = gen) (hjob : (s.slot h).job = job) (hholding : (s.slot h).holding = false)
    (hk : k < 64) (hother : k ≠ s.participant job n) (hcounted : bit (s.counted h) k = true) (hmissing : bit (s.slot h).arr k = false) :
    (s.hallWord n { job := job, body := .withdraw h gen epoch src ht32 }).slot h = afterWithdrawal (s.participant job n) (s.slot h) := by
  have hown := owns_of_counting hcounting hgen hjob
  have hopen : (decide ((s.slot h).state = .counting) || decide ((s.slot h).state = .called)) = true := by
    rw [hcounting]
    rfl
  have hsame := SlotsOnly.setSlot h (afterWithdrawal (s.participant job n) (s.slot h)) s
  have hrun : s.hallWord n { job := job, body := .withdraw h gen epoch src ht32 } = (s.setSlot h (afterWithdrawal (s.participant job n) (s.slot h))).hallTest h := by
    unfold State.hallWord State.applyWithdraw
    simp only [portOf_own hn, hroll, hbehind, peerLane_none (peering_root hroot), hown, hopen, hroot, Bool.not_true, Bool.false_and, Bool.false_eq_true, if_false, if_true]
    rfl
  have hcount : bit ((s.setSlot h (afterWithdrawal (s.participant job n) (s.slot h))).counted h) k = true := by
    rw [bit_counted hk] at hcounted ⊢
    rw [slot_setSlot, mcountAt_of hsame.1 hsame.hall, hsame.2.job]
    simp only [afterWithdrawal, bit_setBit_ne hother]
    exact hcounted
  have hstays : bit (clearBit (s.slot h).arr (s.participant job n)) k = false := (bit_clearBit_ne hother).trans hmissing
  rw [hrun, hallTest_waits (k := k) (by rw [slot_setSlot]; exact hcounting) (by rw [slot_setSlot]; exact hholding) hk hcount (by rw [slot_setSlot]; exact hstays), slot_setSlot]

theorem withdrawWord_leaves {n job gen epoch src ht32 k : Nat} (hn : n < 64) (hheld : s.jobHeld job = false) (hroll : s.rollInPort n src = true) (hbehind : s.behind n h = false)
    (hroot : s.isActiveRoot = true) (hcounting : (s.slot h).state = .counting) (hgen : (s.slot h).gen = gen) (hjob : (s.slot h).job = job) (hholding : (s.slot h).holding = false)
    (hk : k < 64) (hother : k ≠ s.participant job n) (hcounted : bit (s.counted h) k = true) (hmissing : bit (s.slot h).arr k = false) :
    Gives (.withdrawWord n job h gen epoch src ht32) s fun t => t.slot h = { s.slot h with
      wd := setBit (s.slot h).wd (s.participant job n), arr := clearBit (s.slot h).arr (s.participant job n), early := clearBit (s.slot h).early (s.participant job n),
      earlyBodies := (s.slot h).earlyBodies.filter fun e => e.1 != s.participant job n } := by
  refine ⟨_, rfl, ?_⟩
  rw [onWord_run hheld]
  exact hallWord_withdraws (s := s.takeWord .fd n { job := job, body := .withdraw h gen epoch src ht32 }) hn hroll hbehind hroot hcounting hgen hjob hholding hk hother hcounted hmissing

/-! DONE words (R225, R228). -/

/-- What a DONE of the open epoch notes in its slot before the next epoch opens (R228). -/
def noteDone (contrib hash flags beat : Nat) (v : HSlot) : HSlot := { v with last := (contrib, hash, flags), forced := bit flags 1, doneBeat := some beat }

/-- A DONE of the open epoch completes it; no arrival was early, so the next epoch opens empty (R228). -/
theorem hallDone_completes {w : CtlWord} {gen epoch contrib hash flags : Nat} (hlive : (s.slot h).state ≠ .free) (hgen : (s.slot h).gen = gen) (hjob : (s.slot h).job = w.job)
    (hepoch : epoch = (s.slot h).e) (hflag : bit flags 2 = false) (hearly : (s.slot h).early = 0) (ht : s.hallDone w h gen epoch contrib hash flags = t) :
    ((t.slot h).completed = epoch ∧ (t.slot h).e = (epoch + 1) % 65536 ∧ (t.slot h).arr = 0 ∧ (t.slot h).state = .counting ∧ (t.slot h).last = (contrib, hash, flags) ∧ (t.slot h).contrib = 0
      ∧ (t.slot h).hash = 0) ∧ t.dist.hall.bodyWait = s.dist.hall.bodyWait := by
  have hown : (s.slot h).owns w.job gen = true := by
    unfold HSlot.owns
    rw [hgen, hjob, beq_self_eq_true, beq_self_eq_true, bne_iff_ne.2 hlive]
    rfl
  have hopen : sdiff16 epoch (s.slot h).e = 0 := by rw [hepoch, sdiff16_self]
  generalize hu : ((s.sendWords .fd (s.portsOfMask (s.expected h)) w).hallRec 3 h (contrib % 2 ^ 22) epoch 0).setSlot h (noteDone contrib hash flags (s.beat .fd) (s.slot h)) = u
  have hrun : s.hallDone w h gen epoch contrib hash flags = (u.promote h).hallTest h := by
    unfold State.hallDone
    simp only [hown, hflag, hopen, Bool.not_true, Bool.false_eq_true, if_false, lt_irrefl, if_true]
    rw [← hu]
    rfl
  have honly : SlotsOnly s u := by
    rw [← hu]
    exact ((SlotsOnly.sent ..).trans (.record ..)).trans (.setSlot ..)
  have hslot : u.slot h = noteDone contrib hash flags (s.beat .fd) (s.slot h) := by rw [← hu, slot_setSlot]
  obtain ⟨hpromoted, hhall, -⟩ := promote_plain (h := h) (s := u) (by rw [hslot]; exact hearly)
  rw [← ht, hrun, hallTest_open (by rw [hpromoted]) (by rw [hpromoted]) (countFull_zero (by rw [hpromoted])), hpromoted, hhall, hslot, honly.hall, hepoch]
  exact ⟨⟨rfl, rfl, rfl, rfl, rfl, rfl, rfl⟩, rfl⟩

theorem doneWord_completes {n job epoch contrib hash flags : Nat} (hroot : s.isActiveRoot = false) (hlive : (s.slot h).state ≠ .free) (hjob : (s.slot h).job = job) (hepoch : epoch = (s.slot h).e)
    (hflag : bit flags 2 = false) (hearly : (s.slot h).early = 0) (hwait : s.dist.hall.bodyWait = []) :
    Gives (.doneWord n job h (s.slot h).gen epoch contrib hash flags) s fun t => (t.slot h).completed = epoch ∧ (t.slot h).e = (epoch + 1) % 65536 ∧ (t.slot h).arr = 0 ∧ (t.slot h).state = .counting
      ∧ (t.slot h).last = (contrib, hash, flags) ∧ (t.slot h).contrib = 0 ∧ (t.slot h).hash = 0 := by
  refine ⟨_, rfl, ?_⟩
  generalize hw : ({ job := job, body := .done h (s.slot h).gen epoch contrib hash flags } : CtlWord) = w
  have hmid : (s.takeWord .fd n w).isActiveRoot = false := hroot
  generalize ht : (s.takeWord .fd n w).hallDone w h (s.slot h).gen epoch contrib hash flags = t
  obtain ⟨hdone, hnone⟩ := hallDone_completes (s := s.takeWord .fd n w) (t := t) hlive rfl (hjob.trans (by rw [← hw])) hepoch hflag hearly ht
  rw [hmid, if_neg Bool.false_ne_true, HQ.slot (.of_dist (retryHeld_nil (hnone.trans hwait)).1)]
  exact hdone

/-! The root's deadlines, the mid's answer deadline and the hard timeout (R230 to R233). -/

theorem lead_congr (hlead : t.dist.hall.leadWas = s.dist.hall.leadWas) (hbeat : t.beat .fd = s.beat .fd) (hget : t.get .fd Rg.BELL_LEAD_BEATS = s.get .fd Rg.BELL_LEAD_BEATS) : t.lead = s.lead := by
  unfold State.lead
  rw [hlead, hbeat, hget]

/-- A call leaves the HT and the bell lead (R230). -/
theorem callOut_spec (h : Nat) (s : State) : (s.callOut h).slot h = { s.slot h with
      state := if (s.slot h).state = .counting then .called else (s.slot h).state, callSent := true, dlBeat := (s.beat .fd + 2 * s.lead) % 2 ^ 32 }
    ∧ (s.callOut h).beat .fd = s.beat .fd ∧ (s.callOut h).lead = s.lead := by
  unfold State.callOut
  dsimp only
  generalize hu : s.sendWords .fd _ _ = u
  obtain ⟨hdist, -, hget, -, hclock⟩ := sendWords_all .fd ((s.missingPorts h).map fun p => s.portsOf p).flatten { job := (s.slot h).job, body := .done h (s.slot h).gen (s.slot h).e 0 0 4 } s
  rw [hu] at hdist hget hclock
  have hbeat : u.beat .fd = s.beat .fd := beat_of (hclock .fd)
  have hlead : u.lead = s.lead := lead_congr (by rw [hdist]) hbeat (hget ..)
  exact ⟨slot_setSlot .., hbeat, (lead_congr rfl rfl rfl).trans hlead⟩

theorem rootDeadline_calls (hroot : s.isActiveRoot = true) (hpolicy : (s.slot h).policy = true) (hcall : (s.slot h).callSent = false) (hcounting : (s.slot h).state = .counting) :
    Gives (.rootDeadline h) s fun t => (t.slot h).state = .called ∧ (t.slot h).callSent = true ∧ (t.slot h).dlBeat = (t.beat .fd + 2 * t.lead) % 2 ^ 32 := by
  have hrun : execRootDeadline h s = .next ((s.awaitBeat32 .fd (s.slot h).dlBeat).callOut h) := by
    unfold execRootDeadline
    simp only [hroot, hpolicy, hcall, hcounting, beq_self_eq_true, Bool.not_false, Bool.true_or, Bool.and_self, if_true]
  refine ⟨_, hrun, ?_⟩
  have hslot : (s.awaitBeat32 .fd (s.slot h).dlBeat).slot h = s.slot h := HQ.slot (.of_dist (Waits.awaitBeat32 ..).dist) h
  obtain ⟨hcalled, hbeat, hlead⟩ := callOut_spec h (s.awaitBeat32 .fd (s.slot h).dlBeat)
  beta_reduce
  rw [hcalled, hslot, hbeat, hlead, if_pos hcounting]
  exact ⟨rfl, rfl, rfl⟩

/-- Time that passes leaves what the payment of the missing ports adds to the paddock (R231). -/
theorem payPorts_waited (hw : Waits s u) :
    (u.payPorts h).slot h = { s.slot h with hash := (s.missingPorts h).foldl (fun a p => Nat.xor a (s.mhashAt (s.slot h).job p)) (s.slot h).hash } := by
  have hslot : u.slot h = s.slot h := HQ.slot (.of_dist hw.dist) h
  have honly := SlotsOnly.waited hw
  have hmissing : u.missingPorts h = s.missingPorts h := by
    unfold State.missingPorts
    rw [hslot, honly.counted (by rw [hslot]) (by rw [hslot])]
  rw [(payPorts_spec h u).1, hslot, hmissing]
  simp only [mhashAt_of honly.1 honly.hall]

theorem sendSlotUp_slot (h k : Nat) (s : State) : (s.sendSlotUp h).slot k = s.slot k := by
  unfold State.sendSlotUp
  dsimp only
  split
  · exact HQ.slot (.of_dist (sendArrive_all ..).1) k
  · rfl

theorem midAnswerDeadline_closes (hmid : s.role = 3) (hcalled : (s.slot h).state = .called) :
    Gives (.midAnswerDeadline h) s fun t => (t.slot h).state = .closed ∧ (t.slot h).e = (s.slot h).e
      ∧ (t.slot h).hash = (s.missingPorts h).foldl (fun a p => Nat.xor a (s.mhashAt (s.slot h).job p)) (s.slot h).hash := by
  have hrun : execMidAnswerDeadline h s = .next ((s.awaitBeat32 .fd (s.slot h).dlBeat).closeSlot h) := by
    unfold execMidAnswerDeadline
    simp only [hmid, hcalled, beq_self_eq_true, Bool.and_self, if_true]
  refine ⟨_, hrun, ?_⟩
  unfold State.closeSlot
  dsimp only
  rw [sendSlotUp_slot, slot_setSlot, payPorts_waited (Waits.awaitBeat32 ..)]
  exact ⟨rfl, rfl, rfl⟩

/-- A quorum that is not reached leaves a called slot waiting for it, with its interrupt (R232). -/
theorem decideQuorum_short (hquorum : (s.slot h).contrib < (s.slot h).quorum) (hcalled : (s.slot h).state = .called) :
    (s.decideQuorum h).slot h = { s.slot h with state := .quorumWait, quorumWaited := true } ∧ (s.decideQuorum h).get .fd Rg.HINT_QUORUM_WAIT = 1 := by
  have hopen : ¬ (s.slot h).state = .unresolved := by
    rw [hcalled]
    decide
  unfold State.decideQuorum
  simp only [Nat.not_le.2 hquorum, hopen, if_false]
  exact ⟨((hall_hbarInt ..).slot h).trans (slot_setSlot ..), hbarInt_get _⟩

theorem rootCallWaitEnd_waits (hroot : s.isActiveRoot = true) (hcall : (s.slot h).callSent = true) (hpaid : (s.slot h).paid = false) (hcalled : (s.slot h).state = .called)
    (hquorum : (s.slot h).contrib < (s.slot h).quorum) :
    Gives (.rootCallWaitEnd h) s fun t => (t.slot h).state = .quorumWait ∧ (t.slot h).paid = true ∧ (t.slot h).quorumWaited = true
      ∧ (t.slot h).hash = (s.missingPorts h).foldl (fun a p => Nat.xor a (s.mhashAt (s.slot h).job p)) (s.slot h).hash ∧ t.get .fd Rg.HINT_QUORUM_WAIT = 1 := by
  have hpay := payPorts_waited (h := h) (Waits.awaitBeat32 .fd (s.slot h).dlBeat s)
  generalize hu : (s.awaitBeat32 .fd (s.slot h).dlBeat).payPorts h = u at hpay
  have hrun : execRootCallWaitEnd h s = .next ((u.setSlot h { u.slot h with paid := true }).decideQuorum h) := by
    unfold execRootCallWaitEnd
    simp only [hroot, hcall, hpaid, hcalled, hu, beq_self_eq_true, Bool.not_false, Bool.true_or, Bool.and_self, if_true]
  obtain ⟨hslot, hint⟩ := decideQuorum_short (h := h) (s := u.setSlot h { u.slot h with paid := true }) (by rw [slot_setSlot, hpay]; exact hquorum) (by rw [slot_setSlot, hpay]; exact hcalled)
  refine ⟨_, hrun, ?_⟩
  beta_reduce
  rw [hint, hslot, slot_setSlot, hpay]
  exact ⟨rfl, rfl, rfl, rfl, rfl⟩

/-- The counts that a job's registers show leave every other field below the ladders' (R247). -/
theorem get_jobRegs {j : Nat} {f : Machine.Field} (ho : f.off < 0xB000) (hl : decide (f.lo < 32) = true) (hcount : f.off ≠ 0x6100 + 16 * j) (hused : f.off ≠ 0x610C + 16 * j)
    (hsus : f.key ≠ (Rg.JH_SUSPECT j).key) (hunres : f.key ≠ (Rg.JH_UNRESOLVED j).key) (s : State) : (s.jobRegs j).get .fd f = s.get .fd f := by
  have hlow : ¬ ladKey f.key := by
    simp only [decide_eq_true_eq] at hl
    unfold ladKey Machine.Field.key
    omega
  exact (jobRegs_all j s).2.1 f (key_ne_of_off hcount hl) (key_ne_of_off hused hl) hsus hunres hlow .fd

/-- The interrupts of the hall barriers are none of a job's registers (R247). -/
theorem hint_jobRegs {f : Machine.Field} (ho : f.off = 0x6010) (hl : decide (f.lo < 32) = true) (j : Nat) (s : State) : (s.jobRegs j).get .fd f = s.get .fd f :=
  get_jobRegs (by omega) hl (by omega) (by omega) (key_ne_of_off (show f.off ≠ 0x6104 + 16 * j by omega) hl) (key_ne_of_off (show f.off ≠ 0x6104 + 16 * j by omega) hl) s

/-- A slot whose hard timeout has passed (R233). -/
def unresolvedSlot (v : HSlot) : HSlot := { v with state := .unresolved, unresolvedSeen := true }

theorem hardTimeout_unresolves (hroot : s.isActiveRoot = true) (hholding : (s.slot h).holding = false) (hhard : (s.slot h).hardBeat ≠ 0) (hcounting : (s.slot h).state = .counting) :
    Gives (.hardTimeout h) s fun t => (t.slot h).state = .unresolved ∧ (t.slot h).unresolvedSeen = true ∧ (t.slot h).arr = (s.slot h).arr ∧ t.get .fd Rg.HINT_UNRESOLVED = 1 := by
  generalize hu : ((s.awaitBeat32 .fd (s.slot h).hardBeat).setSlot h (unresolvedSlot (s.slot h))).hbarInt Rg.HINT_UNRESOLVED = u
  generalize hc : contsOf 5 ((unresolvedSlot (s.slot h)).toBytes true) = c
  have hrun : execHardTimeout h s = .next ((u.hallRec 0x0A h (s.slot h).gen (s.slot h).e 0 c).jobRegs (s.slot h).job) := by
    have hopen : (s.isActiveRoot && !(s.slot h).holding && (s.slot h).hardBeat != 0 && ((s.slot h).state == .counting || (s.slot h).state == .called || (s.slot h).state == .quorumWait)) = true := by
      rw [hroot, hholding, hcounting, bne_iff_ne.2 hhard]
      rfl
    unfold execHardTimeout
    simp only [hopen, if_true, slot_setSlot]
    rw [← hu, ← hc]
    rfl
  have hrec := hallRec_only 0x0A h (s.slot h).gen (s.slot h).e 0 c u
  have hslot : ((u.hallRec 0x0A h (s.slot h).gen (s.slot h).e 0 c).jobRegs (s.slot h).job).slot h = unresolvedSlot (s.slot h) := by
    rw [HQ.slot (.of_dist (jobRegs_all ..).1), (HQ.of_only hrec).slot, ← hu, (hall_hbarInt ..).slot, slot_setSlot]
  refine ⟨_, hrun, ?_⟩
  beta_reduce
  rw [hslot, hint_jobRegs rfl rfl, hrec.get _ (not_att (by decide) (by decide) (by decide)), ← hu, hbarInt_get]
  exact ⟨rfl, rfl, rfl, rfl⟩

end

/-- Settles O17, each clause by the lemma on its command. -/
theorem hallSlotsCountAndDecide : Obligations.HallSlotsCountAndDecide := by
  unfold Obligations.HallSlotsCountAndDecide
  exact ⟨fun _ _ _ _ _ _ _ _ _ => arriveWord_counts, fun _ _ _ _ _ _ _ _ _ hn _ => withdrawWord_leaves hn, fun _ _ _ _ _ _ _ _ => doneWord_completes, fun _ _ => rootDeadline_calls,
    fun _ _ => midAnswerDeadline_closes, fun _ _ => rootCallWaitEnd_waits, fun _ _ hroot hholding hhard hcounting _ => hardTimeout_unresolves hroot hholding hhard hcounting⟩

end Sys2Proof.Proofs

/-! PROOFS. O18: bells, liveness words, monitor words and delay reports at a distributor. -/

namespace Sys2Proof.Proofs

open Sys2Proof Sys2Proof.Machine Sys2Proof.Cmds

-- One proof after another, as in the tests: side by side, the proofs of the joined text keep more stacks alive than the check's memory holds.
set_option Elab.async false

section
variable {s t u : State}

/-! Bells (R240, R242, R249). -/

theorem bellWordForward_records (n beat : Nat) (w : Machine.BellWord) (s : State) :
    Gives (.bellWordForward n beat w) s fun t => (t.job w.job).lastBell = w.bellNo ∧ (t.job w.job).lastBellBeat = beat ∧ (t.job w.job).lastBellWord = some w ∧ (t.job w.job).bellSeen = true
      ∧ (t.job w.job).nextBell = (s.job w.job).nextBell := by
  refine ⟨_, rfl, ?_⟩
  beta_reduce
  rw [HQ.job (.of_dist (sendBell_dist ..).1), job_setJob]
  exact ⟨rfl, rfl, rfl, rfl, rfl⟩

/-- A bell takes the job's next number and the first beat at or after the lead; the report card counts it (R240). -/
theorem scheduleBell_spec (j kind epoch flags : Nat) (s : State) :
    ((s.scheduleBell j kind epoch flags).job j).lastBell = (s.job j).nextBell ∧ ((s.scheduleBell j kind epoch flags).job j).nextBell = ((s.job j).nextBell + 1) % 2 ^ 48
      ∧ ((s.scheduleBell j kind epoch flags).job j).lastBellBeat = beatAtOrAfter (s.htNs .fd + 1024 * s.lead)
      ∧ (s.scheduleBell j kind epoch flags).get .fd (Rg.RC_BELLS j) = sat 32 (s.get .fd (Rg.RC_BELLS j) + 1) := by
  unfold State.scheduleBell
  dsimp only
  rw [job_put, HQ.job (.of_only (record_fd ..)), HQ.job (.of_dist (sendBell_dist ..).1), job_setJob, State.get_put_same]
  exact ⟨rfl, rfl, rfl, sat_mod 32 _⟩

theorem lead_mbSubmit {m : MbGo} (hb : m.box < 8) (code : Nat) (s : State) : (s.mbSubmit m code).lead = s.lead :=
  lead_congr (by rw [mbSubmit_dist]) (beat_mbSubmit ..) (get_sub hb code (not_mbKeys_of_off rfl rfl) .fd)

theorem bellRing_rings {m : MbGo} {j : Nat} (h : MbReady m 2 (some (m.argAt [1] 0)) 1 s) (hp : m.part = .fd) (hj : m.argAt [1] 0 = j) (hroot : s.isActiveRoot = true) (hlt : j < 64)
    (hcreated : s.get .fd (Rg.JH_CREATED j) = 1) :
    Gives (.bellRing m) s fun t => Answered m 0 t ∧ (t.job j).lastBell = (s.job j).nextBell ∧ (t.job j).nextBell = ((s.job j).nextBell + 1) % 2 ^ 48
      ∧ (t.job j).lastBellBeat = beatAtOrAfter (s.htNs .fd + 1024 * s.lead) ∧ t.get .fd (Rg.RC_BELLS j) = sat 32 (s.get .fd (Rg.RC_BELLS j) + 1) := by
  refine ⟨_, rfl, ?_⟩
  generalize hu : (s.mbSubmit m 0x25).scheduleBell j 1 0 0 = u
  rw [fdOnly_fd hp, mailbox_eq_answer (jobArg := some 0) h rfl (out := .ok [(8, (u.job j).lastBell), (8, (u.job j).lastBellBeat)]) (u := u) ?body]
  case body =>
    unfold MbGo.argAt at hj
    have hflag : (s.mbSubmit m 0x25).flag .fd (Rg.JH_CREATED j) = true := by
      rw [flag_mbSubmit h.box 0x25 (not_mbKeys_of_lt (show 0x6104 + 16 * j < 0x8800 by omega))]
      exact flag1 hcreated
    simp only [State.atRoot, active_sub h.box 0x25 hroot, hj, hflag, hu, Nat.not_lt.2 (Nat.le_of_lt_succ hlt), decide_false, Bool.not_true, Bool.or_self, Bool.false_eq_true, if_false, if_true]
  have hcard : ¬ mbKeys (Rg.RC_BELLS j).key := by
    simp only [mbKeys, Machine.Field.key, Rg.RC_BELLS]
    omega
  have hjob : (s.mbSubmit m 0x25).job j = s.job j := HQ.job (.of_dist (mbSubmit_dist ..)) j
  obtain ⟨hno, hnext, hbeat, hcount⟩ := scheduleBell_spec j 1 0 0 (s.mbSubmit m 0x25)
  rw [hu] at hno hnext hbeat hcount
  refine ⟨answered_ok .., ?_⟩
  rw [HQ.job (.of_dist (dist_ans ..)), get_ans h.box _ _ hcard, hno, hnext, hbeat, hcount, hjob, htNs_mbSubmit, lead_mbSubmit h.box, get_sub h.box _ hcard]
  exact ⟨rfl, rfl, rfl, rfl⟩

/-! Liveness words (R25, R235, R236). -/

theorem sendWord_other (p : Part) {n k : Nat} (hk : k ≠ n) (w : CtlWord) (s : State) : (s.sendWord p n w).link p k = s.link p k := by
  unfold State.sendWord
  split
  · exact link_setLink_ne p hk _ s
  · rfl

theorem sendWord_queues {p : Part} {n : Nat} (hup : s.linkUp p n = true) (w : CtlWord) : (s.sendWord p n w).link p n = { s.link p n with txq := (s.link p n).txq ++ [w] } := by
  unfold State.sendWord
  rw [if_pos hup, link_modLink]

/-- The lead die's LIVENESS word on one tick-link port (R235). -/
def livenessOn (mask : Nat) (s : State) (n : Nat) : State :=
  (s.sendWord .sc n { job := 0, hallwide := true, body := .liveness (s.get .sc Rg.SROLL_ROLL) mask (s.link .sc n).lvSeq (s.ht32 .sc) }).modLink .sc n
    fun k => { k with lvSeq := ((s.link .sc n).lvSeq + 1) % 65536 }

theorem livenessOn_same (mask n : Nat) (s : State) : ((livenessOn mask s n).link .sc n).lvSeq = ((s.link .sc n).lvSeq + 1) % 65536 := by
  unfold livenessOn
  rw [link_modLink]

theorem livenessOn_queues {mask n : Nat} (hup : s.linkUp .sc n = true) : ((livenessOn mask s n).link .sc n).txq
    = (s.link .sc n).txq ++ [{ job := 0, hallwide := true, body := .liveness (s.get .sc Rg.SROLL_ROLL) mask (s.link .sc n).lvSeq (s.ht32 .sc) }] := by
  unfold livenessOn
  rw [link_modLink, sendWord_queues hup]

theorem livenessOn_other (mask : Nat) {n k : Nat} (hk : k ≠ n) (s : State) : (livenessOn mask s n).link .sc k = s.link .sc k := by
  unfold livenessOn
  exact (link_setLink_ne .sc hk _ _).trans (sendWord_other .sc hk _ s)

theorem livenessSend_sends (hrun : s.die.running = true) (hlead : s.die.pkgIndex = 0) (hphase : s.beat .sc % 1024 = 0) (hnew : SMap.find 3 s.sc.lastDone ≠ some (s.beat .sc))
    (hjoined : s.get .sc Rg.HT_JOINED = 1) :
    Gives .livenessSend s fun t => (t.link .sc 0).lvSeq = ((s.link .sc 0).lvSeq + 1) % 65536 ∧ (t.link .sc 1).lvSeq = ((s.link .sc 1).lvSeq + 1) % 65536
      ∧ (s.linkUp .sc 0 = true → (t.link .sc 0).txq = (s.link .sc 0).txq ++ [{ job := 0, hallwide := true, body := .liveness (s.get .sc Rg.SROLL_ROLL) (maskOf 8 fun d => d == 0 || (decide (d < s.die.pkgDies) && s.lstate .sc (8 + d) == 3)) (s.link .sc 0).lvSeq (s.ht32 .sc) }]) := by
  generalize hmask : (maskOf 8 fun d => d == 0 || (decide (d < s.die.pkgDies) && s.lstate .sc (8 + d) == 3)) = mask
  generalize hu : s.setUnit .sc { s.sc with lastDone := SMap.set 3 (s.beat .sc) s.sc.lastDone } = u
  have hrun : execLivenessSend s = .next (livenessOn mask (livenessOn mask u 0) 1) := by
    have hwait : s.periodic .sc 3 1024 0 = u := (periodic_now (by decide) hphase hnew).trans hu
    have hready : (!u.die.running || u.die.pkgIndex != 0 || u.beat .sc % 1024 != 0 || !u.flag .sc Rg.HT_JOINED) = false := by
      subst hu
      show (!s.die.running || s.die.pkgIndex != 0 || s.beat .sc % 1024 != 0 || !s.flag .sc Rg.HT_JOINED) = false
      rw [hrun, hlead, hphase, flag1 hjoined]
      rfl
    unfold execLivenessSend
    simp only [hrun, hlead, beq_self_eq_true, Bool.and_self, if_true, hwait, hready, Bool.false_eq_true, if_false]
    subst hu hmask
    rfl
  have hlink : ∀ k, u.link .sc k = s.link .sc k := by
    subst hu
    exact fun _ => rfl
  refine ⟨_, hrun, ?_, ?_, fun hup => ?_⟩
  · rw [livenessOn_other mask (by decide), livenessOn_same, hlink]
  · rw [livenessOn_same, livenessOn_other mask (by decide), hlink]
  · have hup' : u.linkUp .sc 0 = true := by
      subst hu
      exact hup
    rw [livenessOn_other mask (by decide), livenessOn_queues hup']
    subst hu
    rfl

theorem livenessWord_restores {n src mask seq ht32 : Nat} (hn : n < 64) (hleaf : s.role = 4) (hroll : s.rollInPort n src = true) :
    Gives (.livenessWord n src mask seq ht32) s fun t => (t.link .fd n).lvMiss = 0 ∧ (t.link .fd n).lvSeq = seq ∧ (t.link .fd n).alive = mask % 256 := by
  generalize hw : ({ job := 0, hallwide := true, body := .liveness src mask seq ht32 } : CtlWord) = w
  have hrun : execLivenessWord n src mask seq ht32 s = .next (((s.takeWord .fd n w).modLink .fd n fun l => { l with lvMiss := 0, lvSeq := seq }).portAlive n (mask % 256)) := by
    unfold execLivenessWord
    simp only [portOf_own hn, hroll, hleaf, hw, Nat.not_le.2 hn, beq_self_eq_true, decide_false, Bool.and_false, Bool.not_true, Bool.false_eq_true, if_false, if_true]
  refine ⟨_, hrun, ?_⟩
  beta_reduce
  rw [portAlive_link, link_modLink, if_pos rfl]
  exact ⟨rfl, rfl, rfl⟩

theorem livenessMiss_counts {n : Nat} (hleaf : s.role = 4) (hn : n < 64) (hup : s.linkUp .fd n = true) :
    Gives (.livenessMiss n) s fun t => (t.link .fd n).lvMiss = (s.link .fd n).lvMiss + 1
      ∧ (t.link .fd n).alive = if s.get .fd Rg.BELL_LV_MISS ≤ (s.link .fd n).lvMiss + 1 then 0 else (s.link .fd n).alive := by
  generalize hu : (s.modLink .fd n fun l => { l with lvMiss := (s.link .fd n).lvMiss + 1 }) = u
  have hlink : u.link .fd n = { s.link .fd n with lvMiss := (s.link .fd n).lvMiss + 1 } := by rw [← hu, link_modLink]
  have hrun : execLivenessMiss n s = .next (if s.get .fd Rg.BELL_LV_MISS ≤ (s.link .fd n).lvMiss + 1 then u.portAlive n 0 else u) := by
    unfold execLivenessMiss
    simp only [hleaf, hup, hu, Nat.not_le.2 hn, bne_self_eq_false, decide_false, Bool.not_true, Bool.or_self, Bool.false_eq_true, if_false]
  refine ⟨_, hrun, ?_⟩
  beta_reduce
  split
  · rw [portAlive_link, hlink, if_pos rfl]
    exact ⟨rfl, rfl⟩
  · rw [hlink]
    exact ⟨rfl, rfl⟩

/-- A report of a port's set of alive dies is none of the partner's sets (R235). -/
theorem reportAlive_partner (n was : Nat) (s : State) : (s.reportAlive n was).dist.hall.partnerAlive = s.dist.hall.partnerAlive := by
  unfold State.reportAlive
  dsimp only
  split
  · rfl
  · split
    · unfold State.sendUp
      rw [(sendWords_all ..).1]
      rfl
    · rfl

theorem livenessWord_of_partner {n src mask seq ht32 : Nat} (hn : 64 ≤ n) (hleaf : s.role = 4) (hroll : s.rollInPort (portOf n src) src = true) :
    Gives (.livenessWord n src mask seq ht32) s fun t => SMap.get 0 (bits src 3 6) t.dist.hall.partnerAlive = mask % 256 := by
  generalize hw : ({ job := 0, hallwide := true, body := .liveness src mask seq ht32 } : CtlWord) = w
  have hrun : execLivenessWord n src mask seq ht32 s = .next ((s.takeWord .fd n w).partnerPort (bits src 3 6) (mask % 256)) := by
    unfold execLivenessWord
    simp only [hroll, hleaf, hw, hn, beq_self_eq_true, decide_true, Bool.and_self, Bool.not_true, Bool.false_eq_true, if_false, if_true]
  refine ⟨_, hrun, ?_⟩
  beta_reduce
  unfold State.partnerPort
  rw [reportAlive_partner]
  exact SMap.get_set_same ..

/-! Monitor words (R245). -/

/-- A leaf that passes its combined state up leaves what was reported and who is a member. -/
theorem monitorUpdate_leaf {j : Nat} (hroot : s.isActiveRoot = false) :
    ((s.monitorUpdate j).job j).reporting = (s.job j).reporting ∧ ((s.monitorUpdate j).job j).members = (s.job j).members := by
  unfold State.monitorUpdate
  dsimp only
  rw [hroot, if_neg Bool.false_ne_true]
  generalize (if (s.role == 4) = true then s.leafDeadlocked j else s.portsDeadlocked j) = dead
  split
  · exact ⟨rfl, rfl⟩
  · unfold State.sendUp
    rw [HQ.job (.of_dist (sendWords_all ..).1), job_setJob]
    exact ⟨rfl, rfl⟩

theorem leaf_not_root (hleaf : s.role = 4) : s.isActiveRoot = false := by
  unfold State.isActiveRoot
  rw [hleaf]
  rfl

theorem monitorWord_reports {n job ctx src ht32 : Nat} {dead : Bool} (hleaf : s.role = 4) (hinstalled : (s.job job).installed = true) :
    Gives (.monitorWord n job ctx src ht32 dead) s fun t => (t.job job).reporting = SMap.set src (ofBool dead) (s.job job).reporting ∧ (t.job job).members = (s.job job).members := by
  refine ⟨_, rfl, ?_⟩
  have hheld : s.jobHeld job = false := by
    unfold State.jobHeld
    rw [hinstalled, Bool.not_true, Bool.and_false]
  have hleaf' : ∀ w, (s.takeWord .fd n w).role = 4 := fun _ => hleaf
  beta_reduce
  rw [onWord_run hheld]
  simp only [hleaf', beq_self_eq_true, if_true]
  generalize hb : ({ (s.takeWord .fd n _).job job with reporting := _ } : Job) = b
  obtain ⟨hreporting, hmembers⟩ := monitorUpdate_leaf (j := job) (s := (s.takeWord .fd n { job := job, body := .monitor ctx src ht32 dead }).setJob job b) (leaf_not_root hleaf)
  rw [hreporting, hmembers, job_setJob, ← hb]
  exact ⟨rfl, rfl⟩

/-! Delay reports (R238, R239). -/

theorem dDown_congr {n : Nat} (hlink : t.link .fd n = s.link .fd n) (hopt : t.optical .fd n = s.optical .fd n) (hmed : t.get .fd (Rg.LINK_MED_ASYM n) = s.get .fd (Rg.LINK_MED_ASYM n))
    (hwave : t.get .fd (Rg.LINK_WAVE n) = s.get .fd (Rg.LINK_WAVE n)) : t.dDown .fd n = s.dDown .fd n := by
  have hpkg : isPkg .fd n = false := rfl
  unfold State.dDown State.asym State.getS
  simp only [hlink, hopt, hmed, hwave, hpkg, Bool.false_eq_true, if_false]

/-- DN_MAX itself is none of what it is computed from. -/
theorem dnMax_put (v : Nat) (s : State) : (s.put .fd Rg.BELL_DN_MAX v).dnMax = s.dnMax := by
  have hget : ∀ n < 64, ∀ f : Machine.Field, f.off < 0x2004 + 32 * n + 9 → decide (f.lo < 32) = true → (s.put .fd Rg.BELL_DN_MAX v).get .fd f = s.get .fd f := fun n hn f ho hl =>
    State.get_put_ne _ (key_ne_of_off (show f.off ≠ 0x6004 by omega) hl) _ _
  unfold State.dnMax
  refine foldl_congr' fun a n hn => ?_
  have hn := List.mem_range.1 hn
  have hst : (s.put .fd Rg.BELL_DN_MAX v).lstate .fd n = s.lstate .fd n := hget n hn _ (show 0x2004 + 32 * n < _ by omega) rfl
  have hopt : (s.put .fd Rg.BELL_DN_MAX v).optical .fd n = s.optical .fd n :=
    optical_congr (link_put ..) (State.unit_put_fw ..) (State.get_put_ne _ (by decide) _ _) (hget n hn _ (show 0x2000 + 32 * n < _ by omega) rfl)
  have hdown : (s.put .fd Rg.BELL_DN_MAX v).dDown .fd n = s.dDown .fd n :=
    dDown_congr (link_put ..) hopt (hget n hn _ (show 0x2008 + 32 * n < _ by omega) rfl) (hget n hn _ (show 0x200C + 32 * n < _ by omega) rfl)
  have hrole : (s.put .fd Rg.BELL_DN_MAX v).role = s.role := State.get_put_ne _ (by decide) _ _
  simp only [hst, hdown, hrole, link_put, State.put_dist]

/-- Below the root a report moves DN_MAX alone (R238). -/
theorem leadUpdate_below (hroot : s.isActiveRoot = false) : s.leadUpdate = s.put .fd Rg.BELL_DN_MAX (sat 32 s.dnMax) := by
  unfold State.leadUpdate
  simp only [hroot, Bool.not_false, if_true]

theorem dnMaxReport_updates {n ps : Nat} (hup : s.roleUp .fd 5 = true) (hn : n < 64) (hroot : s.isActiveRoot = false) :
    Gives (.dnMaxReport n ps) s fun t => SMap.get 0 n t.dist.hall.portDn = ps ∧ t.get .fd Rg.BELL_DN_MAX = sat 32 t.dnMax := by
  generalize hu : (s.modLink .fd n fun l => { l with tunIn := l.tunIn.filter (· != .dnMax ps) }) = u
  generalize hv : u.setHall { u.dist.hall with portDn := SMap.set n ps u.dist.hall.portDn } = v
  have hbelow : v.isActiveRoot = false := by
    have hget : u.get .fd Rg.REFS_ROLE = s.get .fd Rg.REFS_ROLE := by rw [← hu, State.get_modLink]
    subst hv
    show (u.get .fd Rg.REFS_ROLE == 1) = false
    rw [hget]
    exact hroot
  have hrun : execDnMaxReport n ps s = .next (v.put .fd Rg.BELL_DN_MAX (sat 32 v.dnMax)) := by
    unfold execDnMaxReport
    simp only [hup, hn, hu, hv, Bool.not_true, Bool.false_eq_true, if_false, if_true, leadUpdate_below hbelow]
  refine ⟨_, hrun, ?_, ?_⟩
  · rw [State.put_dist, ← hv]
    exact SMap.get_set_same ..
  · rw [State.get_put_same, dnMax_put]
    exact sat_mod 32 _

end

/-- Settles O18, each clause by the lemma on its command. -/
theorem bellsLivenessMonitors : Obligations.BellsLivenessMonitors := by
  unfold Obligations.BellsLivenessMonitors
  exact ⟨bellWordForward_records, fun _ _ _ => bellRing_rings, fun _ => livenessSend_sends, fun _ _ _ _ _ _ => livenessWord_restores, fun _ _ => livenessMiss_counts,
    fun _ _ _ _ _ _ _ => monitorWord_reports, fun _ _ _ => dnMaxReport_updates, fun _ _ _ _ _ _ => livenessWord_of_partner⟩

end Sys2Proof.Proofs

/-! PROOFS. O20: slots and jobs at the root, by its commands and the installs down the tree. -/

namespace Sys2Proof.Proofs

open Sys2Proof Sys2Proof.Machine Sys2Proof.Cmds

-- One proof after another, as in the tests: side by side, the proofs of the joined text keep more stacks alive than the check's memory holds.
set_option Elab.async false

/-! What a submitted command leaves of the hall, and what a job's own registers are. -/

section
variable {m : MbGo} {j h : Nat} {s t : State}

theorem SlotsOnly.submitted (hb : m.box < 8) (code : Nat) (s : State) : SlotsOnly s (s.mbSubmit m code) :=
  ⟨get_sub hb code (not_mbKeys_of_off rfl rfl) .fd, HQ.hs (.of_dist (mbSubmit_dist ..))⟩

theorem slot_mbSubmit (code h : Nat) (s : State) : (s.mbSubmit m code).slot h = s.slot h := HQ.slot (.of_dist (mbSubmit_dist ..)) h

theorem job_mbSubmit (code j : Nat) (s : State) : (s.mbSubmit m code).job j = s.job j := HQ.job (.of_dist (mbSubmit_dist ..)) j

theorem jobSlots_congr (hd : t.dist = s.dist) (j : Nat) : t.jobSlots j = s.jobSlots j := by
  unfold State.jobSlots
  rw [hd]

theorem reservedCount_congr (hd : t.dist = s.dist) (j : Nat) : t.reservedCount j = s.reservedCount j := by
  unfold State.reservedCount
  rw [hd]

theorem newSlot_congr (hroot : t.isActiveRoot = s.isActiveRoot) (hht : t.htNs .fd = s.htNs .fd) (a : SlotAttr) : t.newSlot a = s.newSlot a := by
  unfold State.newSlot
  rw [hroot, hht]

theorem hallLive_of {gen : Nat} (hlive : (s.slot h).state ≠ .free) (hgen : gen = (s.slot h).gen) : s.hallLive h gen = true := by
  unfold State.hallLive
  rw [bne_iff_ne.2 hlive, hgen, beq_self_eq_true]
  rfl

theorem created_mbSubmit (hb : m.box < 8) (code : Nat) (hj : j < 64) : (s.mbSubmit m code).flag .fd (Rg.JH_CREATED j) = s.flag .fd (Rg.JH_CREATED j) :=
  flag_mbSubmit hb code (not_mbKeys_of_lt (show 0x6104 + 16 * j < 0x8800 by omega)) .fd

theorem slot_jobRegs (j h : Nat) (s : State) : (s.jobRegs j).slot h = s.slot h := HQ.slot (.of_dist (jobRegs_all j s).1) h

theorem job_jobRegs (j k : Nat) (s : State) : (s.jobRegs j).job k = s.job k := HQ.job (.of_dist (jobRegs_all j s).1) k

theorem slot_sendTunnels (p : Part) (ns : List Nat) (x : TunMsg) (h : Nat) (s : State) : (s.sendTunnels p ns x).slot h = s.slot h := HQ.slot (.of_dist (sendTunnels_all ..).1) h

/-- CREATED is none of the counts that a job's registers show. -/
theorem created_jobRegs (hj : j < 64) (s : State) : (s.jobRegs j).get .fd (Rg.JH_CREATED j) = s.get .fd (Rg.JH_CREATED j) :=
  get_jobRegs (show 0x6104 + 16 * j < 0xB000 by omega) rfl (show 0x6104 + 16 * j ≠ 0x6100 + 16 * j by omega) (show 0x6104 + 16 * j ≠ 0x610C + 16 * j by omega) key_ne_of_lo key_ne_of_lo s

/-- Nor is a field outside the jobs' hall registers. -/
theorem get_jobRegs_far (hj : j < 64) {f : Machine.Field} (ho : 0x7000 ≤ f.off) (hhi : f.off < 0xB000) (hl : decide (f.lo < 32) = true) (s : State) :
    (s.jobRegs j).get .fd f = s.get .fd f :=
  get_jobRegs hhi hl (by omega) (by omega) (key_ne_of_off (show f.off ≠ 0x6104 + 16 * j by omega) hl) (key_ne_of_off (show f.off ≠ 0x6104 + 16 * j by omega) hl) s

/-! Slots taken in, allocated and installed (R216 to R218, R450). -/

theorem slotInstall_installs {n : Nat} {a : SlotAttr} (hup : s.roleUp .fd 2 = true) (hstage : 3 ≤ s.get .fd Rg.START_STAGE) (hdead : s.hallLive a.hslot a.gen = false) :
    Gives (.slotInstall n (.slotInstall a)) s fun t => t.slot a.hslot = s.newSlot a := by
  generalize hu : (s.modLink .fd n fun l => { l with tunIn := l.tunIn.erase (.slotInstall a) }) = u
  have hdist : u.dist = s.dist := by
    rw [← hu]
    exact (modLink_all ..).1
  have hroot : u.isActiveRoot = s.isActiveRoot := by
    unfold State.isActiveRoot State.role
    rw [← hu, State.get_modLink]
  have hht : u.htNs .fd = s.htNs .fd := by
    rw [← hu]
    exact htNs_of (State.setLink_clock ..)
  have hfree : u.hallLive a.hslot a.gen = false := by
    unfold State.hallLive at hdead ⊢
    rw [HQ.slot (.of_dist hdist)]
    exact hdead
  have hrun : execSlotInstall n (.slotInstall a) s = .next (((u.setSlot a.hslot (u.newSlot a)).jobRegs a.job).sendTunnels .fd (u.jobPorts a.job) (.slotInstall a)) := by
    unfold execSlotInstall
    simp only [hup, Nat.not_lt.2 hstage, hu, hfree, Bool.not_true, decide_false, Bool.or_self, Bool.false_eq_true, if_false]
  refine ⟨_, hrun, ?_⟩
  beta_reduce
  rw [slot_sendTunnels, slot_jobRegs, slot_setSlot, newSlot_congr hroot hht]

theorem hbarAllocInstalled_completes {b : Nat} {w : MbWait} (hwait : (s.mail .fd b).wait = some w) (hwaiting : s.mbWaiting .fd 0x20 = [b])
    (hslot : w.args.getD 0 0 = h) (hgen : w.args.getD 1 0 = (s.slot h).gen) (htunnels : ∀ e ∈ s.fd.links, e.2.tunnel = []) :
    Gives (.hbarAllocInstalled h) s fun t => t.get .fd (Rg.MB_STATUS b) = 0 ∧ t.get .fd (Rg.MB_DONE b) = 1 ∧ t.get .fd (Rg.MB_OWNED b) = 0 ∧ t.slot h = s.slot h := by
  have hgone : (s.fd.links.any fun e => e.2.tunnel.any fun x => x == .slotInstall ((s.slot h).attr h)) = false := by
    rw [List.any_eq_false]
    intro e he
    rw [htunnels e he]
    exact Bool.false_ne_true
  have hrun : execHbarAllocInstalled h s = .next (s.mbComplete .fd b (.ok [(4, h), (1, (s.slot h).gen)])) := by
    unfold execHbarAllocInstalled
    simp only [hwaiting, List.find?_cons, hwait, hslot, hgen, beq_self_eq_true, Bool.and_self, hgone, Bool.false_eq_true, if_false]
  obtain ⟨hstatus, -, hdone, howned⟩ := comp_answered hwait [(4, h), (1, (s.slot h).gen)]
  exact ⟨_, hrun, hstatus, hdone, howned, HQ.slot (.of_dist (comp_dist ..)) h⟩

/-- A job without members has no port to install on. -/
theorem jobPorts_nil (hnone : (s.job j).memberPorts = 0) : s.jobPorts j = [] := by
  have hbits : setBits 64 0 = [] := by decide
  unfold State.jobPorts State.portsOfMask
  rw [hnone, hbits]
  rfl

/-- While a slot was never used the free list gives the first such (R217). -/
theorem freeHall_unused {i : Nat} (hunused : s.dist.hall.neverUsed = i) (hi : i < 1048576) : s.freeHall = .inl i := by
  unfold State.freeHall
  simp only [hunused, hallSlots, hi, if_true]

theorem takeHall_unused {i : Nat} (hunused : s.dist.hall.neverUsed = i) : s.takeHall i = (((s.slot i).gen + 1) % 256, s.setHall { s.dist.hall with neverUsed := i + 1 }) := by
  unfold State.takeHall
  simp only [hunused, if_true]

theorem hbarAlloc_allocates {i : Nat} {a : SlotAttr} (hm : MbReady m 2 (some (m.argAt [1, 1, 1, 1, 4, 2, 4] 0)) 16 s) (hp : m.part = .fd) (hroot : s.isActiveRoot = true)
    (hj : m.argAt [1, 1, 1, 1, 4, 2, 4] 0 = j) (hlt : j < 64) (hcreated : s.get .fd (Rg.JH_CREATED j) = 1) (hpolicy : m.argAt [1, 1, 1, 1, 4, 2, 4] 1 ≤ 1)
    (hbell : m.argAt [1, 1, 1, 1, 4, 2, 4] 2 = 0) (hpayload : m.argAt [1, 1, 1, 1, 4, 2, 4] 3 ≤ 1)
    (ha : a = { hslot := i, gen := ((s.slot i).gen + 1) % 256, job := j, policy := m.argAt [1, 1, 1, 1, 4, 2, 4] 1 == 1, bell := false, payload := m.argAt [1, 1, 1, 1, 4, 2, 4] 3 == 1, deadlineNs := m.argAt [1, 1, 1, 1, 4, 2, 4] 4, hardMs := m.argAt [1, 1, 1, 1, 4, 2, 4] 5, quorum := m.argAt [1, 1, 1, 1, 4, 2, 4] 6 })
    (hok : a.ok = true) (hquota : (s.jobSlots j).length + s.reservedCount j < (s.job j).hslotQuota) (hunused : s.dist.hall.neverUsed = i) (hi : i < 1048576)
    (hnone : (s.job j).memberPorts = 0) :
    Gives (.hbarAlloc m) s fun t => Answered m 0 t ∧ t.slot i = s.newSlot a ∧ t.dist.hall.neverUsed = i + 1 := by
  refine ⟨_, rfl, ?_⟩
  generalize hv : (s.mbSubmit m 0x20).setHall { (s.mbSubmit m 0x20).dist.hall with neverUsed := i + 1 } = v
  have hnew : v.newSlot a = s.newSlot a := by
    rw [← hv]
    exact newSlot_congr (SlotsOnly.submitted hm.box 0x20 s).root (htNs_mbSubmit ..) a
  rw [fdOnly_fd hp, mailbox_eq_answer (jobArg := some 0) hm rfl (out := .ok [(4, i), (1, a.gen)]) (u := (v.setSlot i (v.newSlot a)).jobRegs j) ?body]
  case body =>
    have hfirst : (s.mbSubmit m 0x20).dist.hall.neverUsed = i := by rw [mbSubmit_dist, hunused]
    have htake : (s.mbSubmit m 0x20).takeHall i = (((s.slot i).gen + 1) % 256, v) := by rw [takeHall_unused hfirst, slot_mbSubmit, hv]
    have hports : v.jobPorts j = [] := by
      rw [← hv]
      exact jobPorts_nil ((congrArg Job.memberPorts (job_mbSubmit 0x20 j s)).trans hnone)
    have hflag : (s.mbSubmit m 0x20).flag .fd (Rg.JH_CREATED j) = true := (created_mbSubmit hm.box 0x20 hlt).trans (flag1 hcreated)
    unfold MbGo.argAt at hj hpolicy hbell hpayload ha
    subst ha
    generalize hpol : ((parseFields m.args 0 [1, 1, 1, 1, 4, 2, 4]).getD 1 0 == 1) = policy at hok ⊢
    generalize hpay : ((parseFields m.args 0 [1, 1, 1, 1, 4, 2, 4]).getD 3 0 == 1) = payload at hok ⊢
    have hfits : SlotAttr.ok { hslot := 0, gen := 0, job := j, policy := policy, bell := false, payload := payload, deadlineNs := (parseFields m.args 0 [1, 1, 1, 1, 4, 2, 4]).getD 4 0, hardMs := (parseFields m.args 0 [1, 1, 1, 1, 4, 2, 4]).getD 5 0, quorum := (parseFields m.args 0 [1, 1, 1, 1, 4, 2, 4]).getD 6 0 } = true := hok
    have hmanual : ((0 : Nat) == 1) = false := rfl
    simp only [hmanual, hfits, State.atRoot, active_sub hm.box 0x20 hroot, hj, hbell, hflag, job_mbSubmit, jobSlots_congr (mbSubmit_dist m 0x20 s), reservedCount_congr (mbSubmit_dist m 0x20 s), freeHall_unused hfirst hi, htake, hports,
      Nat.not_lt.2 (Nat.le_of_lt_succ hlt), Nat.not_lt.2 hpolicy, Nat.not_lt.2 hpayload, Nat.not_le.2 hquota, Nat.not_lt_zero, decide_false,
      Bool.not_true, Bool.false_and, Bool.or_self, Bool.false_eq_true, if_false, if_true, List.isEmpty_nil]
    rfl
  refine ⟨answered_ok .., ?_, ?_⟩
  · rw [HQ.slot (.of_dist (dist_ans ..)), slot_jobRegs, slot_setSlot, hnew]
  · rw [dist_ans, (jobRegs_all ..).1, ← hv]
    rfl

/-! Slots freed, changed, resolved and read (R219, R227, R234, R249). -/

/-- A live slot freed at the active root keeps its GEN, notes the time and goes to the tail of the free list (R249). -/
theorem dropHall_frees {i : Nat} (hlive : (s.slot i).state ≠ .free) (hroot : s.isActiveRoot = true) :
    (s.dropHall i).slot i = { state := .free, gen := (s.slot i).gen, freedNow := some s.now } ∧ (s.dropHall i).dist.hall.freed = s.dist.hall.freed ++ [i] := by
  unfold State.dropHall
  simp only [hlive, if_false]
  generalize hv : ({ state := .free, gen := (s.slot i).gen, freedNow := some s.now } : HSlot) = v
  obtain ⟨hdist, -, -⟩ := freePartials_all .fd (s.upPorts .fd ++ prPorts) (s.slot i).job i (s.slot i).e (s.setSlot i v)
  generalize (s.setSlot i v).freePartials .fd (s.upPorts .fd ++ prPorts) (s.slot i).job i (s.slot i).e = u at hdist ⊢
  rw [hroot, if_pos rfl, slot_jobRegs, HQ.slot (.of_only (bufSync_only _)), (jobRegs_all ..).1, HQ.hall (.of_only (bufSync_only _))]
  refine ⟨?_, ?_⟩
  · show u.slot i = v
    rw [HQ.slot (.of_dist hdist), slot_setSlot]
  · show u.dist.hall.freed ++ [i] = _
    rw [hdist]
    rfl

theorem freeEverywhere_frees {i : Nat} (hlive : (s.slot i).state ≠ .free) (hroot : s.isActiveRoot = true) :
    (s.freeEverywhere i).slot i = { state := .free, gen := (s.slot i).gen, freedNow := some s.now } ∧ (s.freeEverywhere i).dist.hall.freed = s.dist.hall.freed ++ [i] := by
  unfold State.freeEverywhere
  dsimp only
  obtain ⟨hdist, hget, hnow, -⟩ := sendTunnels_all .fd (s.jobPorts (s.slot i).job) (.slotFree i (s.slot i).gen) s
  generalize s.sendTunnels .fd (s.jobPorts (s.slot i).job) (.slotFree i (s.slot i).gen) = u at hdist hget hnow ⊢
  have hslot : u.slot i = s.slot i := HQ.slot (.of_dist hdist) i
  obtain ⟨hfree, htail⟩ := dropHall_frees (i := i) (s := u) (by rw [hslot]; exact hlive) ((congrArg (· == 1) (hget .fd Rg.REFS_ROLE)).trans hroot)
  rw [hfree, htail, hslot, hnow, hdist]
  exact ⟨rfl, rfl⟩

theorem hbarFree_frees (hm : MbReady m 2 none 5 s) (hp : m.part = .fd) (hroot : s.isActiveRoot = true) (hh : m.argAt [4, 1] 0 = h) (hgen : m.argAt [4, 1] 1 = (s.slot h).gen)
    (hlive : (s.slot h).state ≠ .free) :
    Gives (.hbarFree m) s fun t => Answered m 0 t ∧ (t.slot h).state = .free ∧ (t.slot h).gen = (s.slot h).gen ∧ (t.slot h).freedNow = some s.now ∧ t.dist.hall.freed = s.dist.hall.freed ++ [h] := by
  refine ⟨_, rfl, ?_⟩
  rw [fdOnly_fd hp, mailbox_eq_answer (jobArg := none) hm rfl (out := .ok []) (u := (s.mbSubmit m 0x21).freeEverywhere h) ?body]
  case body =>
    unfold MbGo.argAt at hh hgen
    have hlive' : (s.mbSubmit m 0x21).hallLive h (s.slot h).gen = true := by
      unfold State.hallLive
      rw [slot_mbSubmit]
      exact hallLive_of hlive rfl
    simp only [State.atRoot, active_sub hm.box 0x21 hroot, hh, hgen, hlive', Bool.not_true, Bool.false_eq_true, if_false, if_true]
  obtain ⟨hfree, htail⟩ := freeEverywhere_frees (i := h) (s := s.mbSubmit m 0x21) (by rw [slot_mbSubmit]; exact hlive) (active_sub hm.box 0x21 hroot)
  refine ⟨answered_ok .., ?_⟩
  rw [HQ.slot (.of_dist (dist_ans ..)), dist_ans, hfree, htail, slot_mbSubmit, mbSubmit_now, mbSubmit_dist]
  exact ⟨rfl, rfl, rfl, rfl⟩

theorem hbarSet_changes (hm : MbReady m 2 none 20 s) (hp : m.part = .fd) (hroot : s.isActiveRoot = true) (hh : m.argAt [4, 1, 4, 2, 4] 0 = h) (hgen : m.argAt [4, 1, 4, 2, 4] 1 = (s.slot h).gen)
    (hlive : (s.slot h).state ≠ .free) (hshort : m.args.length < 32) (hquorum : m.argAt [4, 1, 4, 2, 4] 4 ≤ 4194303) (hhard : m.argAt [4, 1, 4, 2, 4] 3 ≤ 65535)
    (hpolicy : (s.slot h).policy = false) :
    Gives (.hbarSet m) s fun t => Answered m 0 t ∧ t.slot h = { s.slot h with hardMs := m.argAt [4, 1, 4, 2, 4] 3, nextQuorum := some (m.argAt [4, 1, 4, 2, 4] 4) } := by
  refine ⟨_, rfl, ?_⟩
  rw [fdOnly_fd hp, mailbox_eq_answer (jobArg := none) hm rfl (out := .ok [])
    (u := (s.mbSubmit m 0x22).setSlot h { s.slot h with hardMs := m.argAt [4, 1, 4, 2, 4] 3, nextQuorum := some (m.argAt [4, 1, 4, 2, 4] 4) }) ?body]
  case body =>
    unfold MbGo.argAt at hh hgen hquorum hhard
    have hlive' : (s.mbSubmit m 0x22).hallLive h (s.slot h).gen = true := by
      unfold State.hallLive
      rw [slot_mbSubmit]
      exact hallLive_of hlive rfl
    have hfits : SlotAttr.ok { hslot := h, gen := (s.slot h).gen, job := (s.slot h).job, policy := (s.slot h).policy, payload := (s.slot h).payload, deadlineNs := (parseFields m.args 0 [4, 1, 4, 2, 4]).getD 2 0, hardMs := (parseFields m.args 0 [4, 1, 4, 2, 4]).getD 3 0, quorum := (parseFields m.args 0 [4, 1, 4, 2, 4]).getD 4 0 } = true := by
      unfold SlotAttr.ok
      simp only [hquorum, hhard, hpolicy, decide_true, Bool.not_false, Bool.true_or, Bool.and_self]
    simp only [State.atRoot, active_sub hm.box 0x22 hroot, hh, hgen, hlive', Nat.not_le.2 hshort, slot_mbSubmit, hfits, Bool.not_true, Bool.false_eq_true, if_false, if_true]
    rw [hpolicy, if_neg Bool.false_ne_true]
    rfl
  refine ⟨answered_ok .., ?_⟩
  rw [HQ.slot (.of_dist (dist_ans ..)), slot_setSlot]

theorem membersOf_congr (honly : SlotsOnly s t) (j mask : Nat) : t.membersOf j mask = s.membersOf j mask := by
  unfold State.membersOf
  simp only [mcountAt_of honly.1 honly.hall]

theorem expected_mbSubmit (code h : Nat) (s : State) : (s.mbSubmit m code).expected h = s.expected h := by
  unfold State.expected
  simp only [slot_mbSubmit, job_mbSubmit]

theorem hbarResolve_forces (hm : MbReady m 2 none 6 s) (hp : m.part = .fd) (hroot : s.isActiveRoot = true) (hh : m.argAt [4, 1, 1] 0 = h) (hgen : m.argAt [4, 1, 1] 1 = (s.slot h).gen)
    (haction : m.argAt [4, 1, 1] 2 = 0) (hunres : (s.slot h).state = .unresolved) (hholding : (s.slot h).holding = false) (hpaid : (s.slot h).paid = true) (hpayload : (s.slot h).payload = false)
    (hbell : (s.slot h).bell = false) (hearly : (s.slot h).early = 0) :
    Gives (.hbarResolve m) s fun t => Answered m 0 t ∧ (t.slot h).completed = (s.slot h).e ∧ (t.slot h).e = ((s.slot h).e + 1) % 65536 ∧ (t.slot h).forced = true ∧ (t.slot h).state = .counting
      ∧ (t.slot h).arr = 0 ∧ (t.slot h).last = ((s.slot h).contrib, (s.slot h).hash, ofBool (decide ((s.slot h).contrib < s.membersOf (s.slot h).job (s.expected h))) + 2
        + 8 * ofBool (s.slot h).quorumWaited + 16 * ofBool (s.slot h).unresolvedSeen) := by
  refine ⟨_, rfl, ?_⟩
  have hslot : (s.mbSubmit m 0x23).slot h = s.slot h := slot_mbSubmit ..
  obtain ⟨⟨hcompleted, he, hforced, hopen, harr, hlast⟩, htest⟩ := rootComplete_plain (h := h) (forced := true) (s := s.mbSubmit m 0x23) (by rw [hslot]; exact hpayload) (by rw [hslot]; exact hbell)
    (by rw [hslot]; exact hearly) (active_sub hm.box 0x23 hroot)
  rw [fdOnly_fd hp, mailbox_eq_answer (jobArg := none) hm rfl (out := .ok []) (u := (s.mbSubmit m 0x23).rootComplete h true) ?body]
  case body =>
    unfold MbGo.argAt at hh hgen haction
    have hlive' : (s.mbSubmit m 0x23).hallLive h (s.slot h).gen = true := by
      unfold State.hallLive
      rw [hslot]
      exact hallLive_of (by rw [hunres]; decide) rfl
    have hmay : ((s.slot h).state == .counting || (s.slot h).state == .called || (s.slot h).state == .quorumWait || (s.slot h).state == .unresolved) = true := by
      rw [hunres]
      rfl
    simp only [State.atRoot, active_sub hm.box 0x23 hroot, hh, hgen, haction, hlive', hslot, hmay, hholding, hpaid, htest, bne_self_eq_false, Bool.not_true, Bool.or_self, Bool.false_eq_true, if_false,
      if_true]
  refine ⟨answered_ok .., ?_⟩
  rw [HQ.slot (.of_dist (dist_ans ..)), hcompleted, he, hforced, hopen, harr, hlast, hslot, expected_mbSubmit, membersOf_congr (.submitted hm.box 0x23 s)]
  exact ⟨rfl, rfl, rfl, rfl, rfl, rfl⟩

theorem hbarRead_answers (hm : MbReady m 2 none 4 s) (hp : m.part = .fd) (hh : m.argAt [4] 0 = h) (hlt : h < 1048576) :
    Gives (.hbarRead m) s fun t => Only .fd true mbKeys s t ∧ Result m (((s.slot h).toBytes s.isActiveRoot).take 256) s t := by
  refine ⟨_, rfl, And.symm ?_⟩
  rw [fdOnly_fd hp, ← hp]
  refine bytes_ok (jobArg := none) hm rfl 0x24 _ _ ?_
  unfold MbGo.argAt at hh
  simp only [hh, hallSlots, Nat.not_le.2 hlt, slot_mbSubmit, (SlotsOnly.submitted hm.box 0x24 s).root, if_false]

/-! What the root answers of its jobs (R249). -/

theorem jobHallStatus_answers (hm : MbReady m 2 (some (m.argAt [1] 0)) 1 s) (hp : m.part = .fd) (hroot : s.isActiveRoot = true) (hj : m.argAt [1] 0 = j) (hlt : j < 64) :
    Gives (.jobHallStatus m) s fun t => Only .fd true mbKeys s t ∧ Result m (packFields 0 [(1, s.get .fd (Rg.JH_CREATED j)), (4, s.get .fd (Rg.JH_MEMBERS j)), (4, s.get .fd (Rg.JH_SUSPECT j)), (1, s.get .fd (Rg.JH_DEADLOCK j)),
        (4, ((s.jobSlots j).filter fun h => (s.slot h).state == .unresolved).length), (4, (s.job j).hslotQuota), (4, (s.jobSlots j).length + s.reservedCount j),
        (2, s.get .fd (Rg.JM_PAY_SHARE j)), (8, (s.job j).lastBell), (8, (s.job j).lastBellBeat), (4, s.get .fd (Rg.JH_CLOSE_SEQ j))]) s t := by
  refine ⟨_, rfl, And.symm ?_⟩
  have hget : ∀ f : Machine.Field, f.off < 0x7600 → decide (f.lo < 32) = true → (s.mbSubmit m 0x26).get .fd f = s.get .fd f := fun f ho hl =>
    get_sub hm.box 0x26 (not_mbKeys_of_lt (by omega) hl) .fd
  have hcreated := hget (Rg.JH_CREATED j) (show 0x6104 + 16 * j < 0x7600 by omega) rfl
  have hmembers := hget (Rg.JH_MEMBERS j) (show 0x6100 + 16 * j < 0x7600 by omega) rfl
  have hsuspect := hget (Rg.JH_SUSPECT j) (show 0x6104 + 16 * j < 0x7600 by omega) rfl
  have hdeadlock := hget (Rg.JH_DEADLOCK j) (show 0x6104 + 16 * j < 0x7600 by omega) rfl
  have hshare := hget (Rg.JM_PAY_SHARE j) (show 0x720C + 16 * j < 0x7600 by omega) rfl
  have hclose := hget (Rg.JH_CLOSE_SEQ j) (show 0x6108 + 16 * j < 0x7600 by omega) rfl
  rw [fdOnly_fd hp]
  have hfd : ∀ u, Only .fd true mbKeys s u = Only m.part true mbKeys s u := fun u => by rw [hp]
  rw [hfd]
  refine reader_ok (jobArg := some 0) hm rfl 0x26 _ _ ?_
  unfold MbGo.argAt at hj
  simp only [State.atRoot, active_sub hm.box 0x26 hroot, hj, Nat.not_lt.2 (Nat.le_of_lt_succ hlt), hcreated, hmembers, hsuspect, hdeadlock, hshare, hclose, slot_mbSubmit, job_mbSubmit,
    jobSlots_congr (mbSubmit_dist m 0x26 s), reservedCount_congr (mbSubmit_dist m 0x26 s), if_false, if_true]

theorem suspectRead_lists {r : Nat} (hm : MbReady m 2 (some (m.argAt [1, 4] 0)) 8 s) (hp : m.part = .fd) (hroot : s.isActiveRoot = true) (hj : m.argAt [1, 4] 0 = j) (hr : m.argAt [1, 4] 1 = r)
    (hlt : j < 64) :
    Gives (.suspectRead m) s fun t => Listed m [] (((s.dist.hall.suspects.filter fun e => decide (r ≤ e.1) && SMap.get 0 e.1 (s.job j).members != 0).take 48).map fun e => [(4, e.1), (4, e.2)]) s t := by
  refine ⟨_, rfl, ?_⟩
  rw [fdOnly_fd hp]
  refine list_any (jobArg := some 0) hm rfl 0x27 _ _ _ ?_
  unfold MbGo.argAt at hj hr
  simp only [State.atRoot, active_sub hm.box 0x27 hroot, hj, hr, Nat.not_lt.2 (Nat.le_of_lt_succ hlt), mbSubmit_dist, job_mbSubmit, if_false, if_true]

/-- The records of a job's slots feed attendance and nothing else. -/
theorem dumpJob_only (j : Nat) (s : State) : Only .fd true attKeys s (s.dumpJob j) :=
  Only.foldl (fun t _ => (Only.refl .fd true attKeys t).record (fun _ h => h) _) _ (Only.refl ..)

theorem hbarDump_records (hm : MbReady m 2 (some (m.argAt [1] 0)) 1 s) (hp : m.part = .fd) (hroot : s.isActiveRoot = true) (hlt : m.argAt [1] 0 < 64) :
    Gives (.hbarDump m) s fun t => Answered m 0 t ∧ Only .fd true (fun k => mbKeys k ∨ attKeys k) s t := by
  refine ⟨_, rfl, ?_⟩
  rw [fdOnly_fd hp, mailbox_eq_answer (jobArg := some 0) hm rfl (out := .ok []) (u := (s.mbSubmit m 0x28).dumpJob (m.argAt [1] 0)) ?body]
  case body =>
    unfold MbGo.argAt at hlt ⊢
    simp only [State.atRoot, active_sub hm.box 0x28 hroot, Nat.not_lt.2 (Nat.le_of_lt_succ hlt), if_false, if_true]
  refine ⟨answered_ok .., ?_⟩
  have hsubmit : Only m.part true (fun k => mbKeys k ∨ attKeys k) s (s.mbSubmit m 0x28) := (Only.refl ..).mbSubmit hm.box (fun _ => .inl) 0x28
  rw [hp] at hsubmit ⊢
  exact (hsubmit.trans ((dumpJob_only ..).mono fun _ => .inr)).mbAnswer_ok hm.box (fun _ => .inl) ..

/-! Jobs created and ended (R246). -/

theorem get_foldl_put_ne {f : Machine.Field} {fs : List Machine.Field} {v : Machine.Field → Nat} (hne : ∀ g ∈ fs, f.key ≠ g.key) (s : State) :
    (fs.foldl (fun t g => t.put .fd g (v g)) s).get .fd f = s.get .fd f := by
  induction fs generalizing s with
  | nil => rfl
  | cons g fs ih => rw [List.foldl_cons, ih fun x hx => hne x (List.mem_cons_of_mem g hx), State.get_put_ne _ (hne g List.mem_cons_self)]

theorem dist_foldl_put (fs : List Machine.Field) (v : Machine.Field → Nat) (s : State) : (fs.foldl (fun t g => t.put .fd g (v g)) s).dist = s.dist :=
  foldl_keeps (fun t : State => t.dist) (fun t g => State.put_dist .fd g (v g) t) fs s

/-- The fields of FD_PWR_JOBj that JOB_CREATE resets beside STEP_FLOOR (R246, R346). -/
def cadenceFields (j : Nat) : List Machine.Field :=
  [Rg.PJ_RECESS_LOW j, Rg.PJ_STAGGER_LOG2 j, Rg.PJ_AUTO_RECESS j, Rg.PJ_STAGGER_BEATS j, Rg.PJ_RECESS_DETECT_MS j, Rg.PJ_MIN_INTERVAL_BEATS j, Rg.PJ_HOLD_US j, Rg.PJ_LEVEL_OUT j, Rg.PJ_RECESS j,
    Rg.PJ_PHASE j, Rg.PJ_HOLDING j]

theorem job_setPj (j k : Nat) (x : JobPwr) (s : State) : (s.setPj j x).job k = s.job k := rfl

theorem cadenceReset_eq (j : Nat) (s : State) :
    s.cadenceReset j = ((cadenceFields j).foldl (fun t f => t.put .fd f f.reset) (s.put .fd (Rg.PJ_STEP_FLOOR j) (Rg.PJ_STEP_FLOOR j).reset)).setPj j {} := rfl

/-- The report card's counts (R415). -/
def cardFields (j : Nat) : List Machine.Field := [Rg.RC_COMPUTE_MS j, Rg.RC_WAIT_MS j, Rg.RC_RECESS_MS j, Rg.RC_RECOVERY_MS j, Rg.RC_DRILL_MS j, Rg.RC_BELLS j]

theorem rcClear_eq (j : Nat) (s : State) :
    s.rcClear j = (((cardFields j).foldl (fun t f => t.put .fd f 0) s).put .fd (Rg.RC_SINCE_BEAT j) (s.beat .fd)).setJob j { s.job j with rcNs := [0, 0, 0, 0, 0] } := rfl

theorem cadenceFields_off (j : Nat) : ∀ g ∈ cadenceFields j, 0x9100 ≤ g.off ∧ g.lo < 32 ∧ g.key ≠ (Rg.PJ_STEP_FLOOR j).key := by
  simp only [cadenceFields, List.forall_mem_cons, List.not_mem_nil, false_imp_iff, implies_true, and_true, Machine.Field.key, Rg.PJ_STEP_FLOOR, Rg.PJ_RECESS_LOW, Rg.PJ_STAGGER_LOG2, Rg.PJ_AUTO_RECESS,
    Rg.PJ_STAGGER_BEATS, Rg.PJ_RECESS_DETECT_MS, Rg.PJ_MIN_INTERVAL_BEATS, Rg.PJ_HOLD_US, Rg.PJ_LEVEL_OUT, Rg.PJ_RECESS, Rg.PJ_PHASE, Rg.PJ_HOLDING]
  omega

theorem cardFields_off (j : Nat) : ∀ g ∈ cardFields j, 0xC400 ≤ g.off ∧ g.lo < 32 := by
  simp only [cardFields, List.forall_mem_cons, List.not_mem_nil, false_imp_iff, implies_true, and_true, Rg.RC_COMPUTE_MS, Rg.RC_WAIT_MS, Rg.RC_RECESS_MS, Rg.RC_RECOVERY_MS, Rg.RC_DRILL_MS, Rg.RC_BELLS]
  omega

theorem get_cadenceReset {f : Machine.Field} (ho : f.off < 0x9100) (hl : decide (f.lo < 32) = true) (s : State) : (s.cadenceReset j).get .fd f = s.get .fd f := by
  have hne : ∀ g ∈ cadenceFields j, f.key ≠ g.key := fun g hg => by
    obtain ⟨hoff, hlo, -⟩ := cadenceFields_off j g hg
    exact key_ne_of_off (by omega) hl (decide_eq_true hlo)
  rw [cadenceReset_eq, State.get_setPj, get_foldl_put_ne hne, State.get_put_ne _ (key_ne_of_off (show f.off ≠ 0x9100 + 16 * j by omega) hl)]

theorem stepFloor_cadenceReset (j : Nat) (s : State) : (s.cadenceReset j).get .fd (Rg.PJ_STEP_FLOOR j) = (Rg.PJ_STEP_FLOOR j).reset % 2 ^ (Rg.PJ_STEP_FLOOR j).width := by
  have hne : ∀ g ∈ cadenceFields j, (Rg.PJ_STEP_FLOOR j).key ≠ g.key := fun g hg => by
    obtain ⟨-, -, hkey⟩ := cadenceFields_off j g hg
    exact hkey.symm
  rw [cadenceReset_eq, State.get_setPj, get_foldl_put_ne hne, State.get_put_same]

theorem job_cadenceReset (j : Nat) (s : State) : (s.cadenceReset j).job j = s.job j := by
  rw [cadenceReset_eq, job_setPj, HQ.job (.of_dist (dist_foldl_put ..)), job_put]

theorem get_rcClear {f : Machine.Field} (ho : f.off < 0xC400) (hl : decide (f.lo < 32) = true) (s : State) : (s.rcClear j).get .fd f = s.get .fd f := by
  have hne : ∀ g ∈ cardFields j, f.key ≠ g.key := fun g hg => by
    obtain ⟨hoff, hlo⟩ := cardFields_off j g hg
    exact key_ne_of_off (by omega) hl (decide_eq_true hlo)
  rw [rcClear_eq, State.get_setJob, State.get_put_ne _ (key_ne_of_off (show f.off ≠ 0xC418 + 32 * j by omega) hl)]
  exact get_foldl_put_ne (v := fun _ => 0) hne s

theorem job_rcClear (j : Nat) (s : State) : (s.rcClear j).job j = { s.job j with rcNs := [0, 0, 0, 0, 0] } := by
  rw [rcClear_eq, job_setJob]

/-- A new job with the quotas and shares it is given (R246). -/
def newJob (j hslots pages rate share : Nat) (s : State) : State :=
  (((((s.setJob j { hslotQuota := hslots, installed := true, created := true }).put .fd (Rg.JH_CREATED j) 1).put .fd (Rg.JH_CLOSE_SEQ j) 0).put .fd (Rg.JM_SB_QUOTA j) pages).put .fd (Rg.JM_ATT_RATE j)
    rate).put .fd (Rg.JM_PAY_SHARE j) share

/-- What JOB_CREATE makes of the unit: the new job, its cadence and report card reset, the shares sent to every port (R246, R346, R415). -/
def jobCreated (j hslots pages rate share : Nat) (s : State) : State :=
  ((((((newJob j hslots pages rate share s).cadenceReset j).put .fd (Rg.JD_CONSENT j) s.dist.spare.consentDefault).rcClear j).sendTunnels .fd (List.range 64) (.jobShares j rate share)).jobRegs j)

/-- What the new job's registers hold below the cadence's stays. -/
theorem get_jobCreated {hslots pages rate share : Nat} {f : Machine.Field} (ho : f.off < 0x9100) (hl : decide (f.lo < 32) = true)
    (hregs : ∀ u : State, (u.jobRegs j).get .fd f = u.get .fd f) (s : State) : (jobCreated j hslots pages rate share s).get .fd f = (newJob j hslots pages rate share s).get .fd f := by
  unfold jobCreated
  rw [hregs, (sendTunnels_all ..).2.1, get_rcClear (by omega) hl, State.get_put_ne _ (key_ne_of_off (show f.off ≠ 0xC100 + 8 * j by omega) hl), get_cadenceReset ho hl]

theorem stepFloor_jobCreated (hj : j < 64) (hslots pages rate share : Nat) (s : State) :
    (jobCreated j hslots pages rate share s).get .fd (Rg.PJ_STEP_FLOOR j) = (Rg.PJ_STEP_FLOOR j).reset % 2 ^ (Rg.PJ_STEP_FLOOR j).width := by
  unfold jobCreated
  rw [get_jobRegs_far hj (show 0x7000 ≤ 0x9100 + 16 * j by omega) (show 0x9100 + 16 * j < 0xB000 by omega) rfl, (sendTunnels_all ..).2.1, get_rcClear (show 0x9100 + 16 * j < 0xC400 by omega) rfl,
    State.get_put_ne _ (key_ne_of_off (show 0x9100 + 16 * j ≠ 0xC100 + 8 * j by omega)), stepFloor_cadenceReset]

theorem quota_jobCreated (j hslots pages rate share : Nat) (s : State) : ((jobCreated j hslots pages rate share s).job j).hslotQuota = hslots := by
  unfold jobCreated
  rw [job_jobRegs, HQ.job (.of_dist (sendTunnels_all ..).1), job_rcClear, job_put, job_cadenceReset]
  unfold newJob
  simp only [job_put, job_setJob]

/-- The registers of a new job (R246). -/
theorem get_newJob {hslots pages rate share : Nat} (hpages : pages ≤ 4096) (hrate : rate < 2 ^ 24) (hshare : share ≤ 1024) (s : State) :
    (newJob j hslots pages rate share s).get .fd (Rg.JH_CREATED j) = 1 ∧ (newJob j hslots pages rate share s).get .fd (Rg.JH_CLOSE_SEQ j) = 0
      ∧ (newJob j hslots pages rate share s).get .fd (Rg.JM_SB_QUOTA j) = pages ∧ (newJob j hslots pages rate share s).get .fd (Rg.JM_ATT_RATE j) = rate
      ∧ (newJob j hslots pages rate share s).get .fd (Rg.JM_PAY_SHARE j) = share := by
  have hshareReg : ∀ f : Machine.Field, f.off < 0x720C + 16 * j → decide (f.lo < 32) = true → f.key ≠ (Rg.JM_PAY_SHARE j).key := fun f ho hl => key_ne_of_off (by show f.off ≠ 0x720C + 16 * j; omega) hl
  have hrateReg : ∀ f : Machine.Field, f.off < 0x7204 + 16 * j → decide (f.lo < 32) = true → f.key ≠ (Rg.JM_ATT_RATE j).key := fun f ho hl => key_ne_of_off (by show f.off ≠ 0x7204 + 16 * j; omega) hl
  have hpageReg : ∀ f : Machine.Field, f.off < 0x7200 + 16 * j → decide (f.lo < 32) = true → f.key ≠ (Rg.JM_SB_QUOTA j).key := fun f ho hl => key_ne_of_off (by show f.off ≠ 0x7200 + 16 * j; omega) hl
  have hcreated : (Rg.JH_CREATED j).key ≠ (Rg.JH_CLOSE_SEQ j).key := key_ne_of_off (show 0x6104 + 16 * j ≠ 0x6108 + 16 * j by omega)
  unfold newJob
  refine ⟨?_, ?_, ?_, ?_, get_put_low _ (Nat.lt_of_le_of_lt hshare (show 1024 < 2 ^ 11 by decide))⟩
  · rw [State.get_put_ne _ (hshareReg _ (show 0x6104 + 16 * j < _ by omega) rfl), State.get_put_ne _ (hrateReg _ (show 0x6104 + 16 * j < _ by omega) rfl),
      State.get_put_ne _ (hpageReg _ (show 0x6104 + 16 * j < _ by omega) rfl), State.get_put_ne _ hcreated, State.get_put_same]
    rfl
  · rw [State.get_put_ne _ (hshareReg _ (show 0x6108 + 16 * j < _ by omega) rfl), State.get_put_ne _ (hrateReg _ (show 0x6108 + 16 * j < _ by omega) rfl),
      State.get_put_ne _ (hpageReg _ (show 0x6108 + 16 * j < _ by omega) rfl), State.get_put_same]
    rfl
  · rw [State.get_put_ne _ (hshareReg _ (show 0x7200 + 16 * j < _ by omega) rfl), State.get_put_ne _ (hrateReg _ (show 0x7200 + 16 * j < _ by omega) rfl)]
    exact get_put_low _ (Nat.lt_of_le_of_lt hpages (show 4096 < 2 ^ 13 by decide))
  · rw [State.get_put_ne _ (hshareReg _ (show 0x7204 + 16 * j < _ by omega) rfl)]
    exact get_put_low _ hrate

theorem jobCreate_creates (hm : MbReady m 2 (some (m.argAt [1, 4, 2, 4, 2] 0)) 18 s) (hp : m.part = .fd) (hroot : s.isActiveRoot = true) (hj : m.argAt [1, 4, 2, 4, 2] 0 = j) (hlt : j < 64)
    (hcreated : s.get .fd (Rg.JH_CREATED j) = 0) (hslots : m.argAt [1, 4, 2, 4, 2] 1 ≤ 1048576) (hpages : m.argAt [1, 4, 2, 4, 2] 2 ≤ 4096) (hrate : m.argAt [1, 4, 2, 4, 2] 3 < 2 ^ 24)
    (hsome : m.argAt [1, 4, 2, 4, 2] 4 ≠ 0) (hshare : m.argAt [1, 4, 2, 4, 2] 4 ≤ 1024) :
    Gives (.jobCreate m) s fun t => Answered m 0 t ∧ t.get .fd (Rg.JH_CREATED j) = 1 ∧ (t.job j).hslotQuota = m.argAt [1, 4, 2, 4, 2] 1 ∧ t.get .fd (Rg.JM_SB_QUOTA j) = m.argAt [1, 4, 2, 4, 2] 2
      ∧ t.get .fd (Rg.JM_ATT_RATE j) = m.argAt [1, 4, 2, 4, 2] 3 ∧ t.get .fd (Rg.JM_PAY_SHARE j) = m.argAt [1, 4, 2, 4, 2] 4 ∧ t.get .fd (Rg.JH_CLOSE_SEQ j) = 0
      ∧ t.get .fd (Rg.PJ_STEP_FLOOR j) = (Rg.PJ_STEP_FLOOR j).reset % 2 ^ (Rg.PJ_STEP_FLOOR j).width := by
  refine ⟨_, rfl, ?_⟩
  rw [fdOnly_fd hp, mailbox_eq_answer (jobArg := some 0) hm rfl (out := .ok [])
    (u := jobCreated j (m.argAt [1, 4, 2, 4, 2] 1) (m.argAt [1, 4, 2, 4, 2] 2) (m.argAt [1, 4, 2, 4, 2] 3) (m.argAt [1, 4, 2, 4, 2] 4) (s.mbSubmit m 0x29)) ?body]
  case body =>
    unfold MbGo.argAt at hj hslots hpages hrate hsome hshare ⊢
    have hflag : (s.mbSubmit m 0x29).flag .fd (Rg.JH_CREATED j) = false := (created_mbSubmit hm.box 0x29 hlt).trans (flag0 hcreated)
    simp only [State.atRoot, active_sub hm.box 0x29 hroot, hj, hflag, hallSlots, Nat.not_lt.2 (Nat.le_of_lt_succ hlt), Nat.not_lt.2 hslots, Nat.not_lt.2 hpages, Nat.not_le.2 hrate, hsome, Nat.not_lt.2 hshare,
      decide_false, Bool.or_self, Bool.false_eq_true, if_false, if_true]
    rfl
  have hfloor : ¬ mbKeys (Rg.PJ_STEP_FLOOR j).key := by
    simp only [mbKeys, Machine.Field.key, Rg.PJ_STEP_FLOOR]
    omega
  have hclose : ∀ u : State, (u.jobRegs j).get .fd (Rg.JH_CLOSE_SEQ j) = u.get .fd (Rg.JH_CLOSE_SEQ j) :=
    get_jobRegs (show 0x6108 + 16 * j < 0xB000 by omega) rfl (show 0x6108 + 16 * j ≠ 0x6100 + 16 * j by omega) (show 0x6108 + 16 * j ≠ 0x610C + 16 * j by omega)
      (key_ne_of_off (show 0x6108 + 16 * j ≠ 0x6104 + 16 * j by omega)) (key_ne_of_off (show 0x6108 + 16 * j ≠ 0x6104 + 16 * j by omega))
  obtain ⟨gcreated, gclose, gpages, grate, gshare⟩ := get_newJob (j := j) (hslots := m.argAt [1, 4, 2, 4, 2] 1) hpages hrate hshare (s.mbSubmit m 0x29)
  refine ⟨answered_ok .., ?_, ?_, ?_, ?_, ?_, ?_, ?_⟩
  · rw [get_ans hm.box _ _ (not_mbKeys_of_lt (show 0x6104 + 16 * j < 0x8800 by omega)), get_jobCreated (show 0x6104 + 16 * j < 0x9100 by omega) rfl (created_jobRegs hlt), gcreated]
  · rw [HQ.job (.of_dist (dist_ans ..)), quota_jobCreated]
  · rw [get_ans hm.box _ _ (not_mbKeys_of_lt (show 0x7200 + 16 * j < 0x8800 by omega)),
      get_jobCreated (show 0x7200 + 16 * j < 0x9100 by omega) rfl (get_jobRegs_far hlt (show 0x7000 ≤ 0x7200 + 16 * j by omega) (show 0x7200 + 16 * j < 0xB000 by omega) rfl), gpages]
  · rw [get_ans hm.box _ _ (not_mbKeys_of_lt (show 0x7204 + 16 * j < 0x8800 by omega)),
      get_jobCreated (show 0x7204 + 16 * j < 0x9100 by omega) rfl (get_jobRegs_far hlt (show 0x7000 ≤ 0x7204 + 16 * j by omega) (show 0x7204 + 16 * j < 0xB000 by omega) rfl), grate]
  · rw [get_ans hm.box _ _ (not_mbKeys_of_lt (show 0x720C + 16 * j < 0x8800 by omega)),
      get_jobCreated (show 0x720C + 16 * j < 0x9100 by omega) rfl (get_jobRegs_far hlt (show 0x7000 ≤ 0x720C + 16 * j by omega) (show 0x720C + 16 * j < 0xB000 by omega) rfl), gshare]
  · rw [get_ans hm.box _ _ (not_mbKeys_of_lt (show 0x6108 + 16 * j < 0x8800 by omega)), get_jobCreated (show 0x6108 + 16 * j < 0x9100 by omega) rfl hclose, gclose]
  · rw [get_ans hm.box _ _ hfloor, stepFloor_jobCreated hlt]

/-- JOB_END of a job without slots, pages and members: what goes at once, and what is sent (R246). -/
def jobEnded (j : Nat) (s : State) : State :=
  (((((((s.sbFreeJob j).setJob j { (s.sbFreeJob j).job j with hslotQuota := 0, ending := some (s.beat .fd) }).put .fd (Rg.JM_SB_QUOTA j) 0).put .fd (Rg.JM_ATT_RATE j) 0).put .fd (Rg.JM_PAY_SHARE j)
    0).sendTunnels .fd (List.range 64) (.jobEnd j)).sbRegs j).jobRegs j

/-- With no page mapped, the end of a job frees its close log alone (R246). -/
theorem sbFreeJob_none (hpages : s.sbPages j = []) :
    s.sbFreeJob j = s.setSb { s.dist.sb with logs := SMap.erase j s.dist.sb.logs, freeing := s.dist.sb.freeing.filter fun e => e.1 / 4096 != j } := by
  unfold State.sbFreeJob
  rw [hpages]
  rfl

theorem jobEnded_hall (hpages : s.sbPages j = []) :
    (jobEnded j s).job j = { s.job j with hslotQuota := 0, ending := some (s.beat .fd) } ∧ SMap.find j (jobEnded j s).dist.sb.logs = none := by
  unfold jobEnded
  rw [job_jobRegs, (jobRegs_all ..).1, HQ.job (.of_dist (sbRegs_dist ..)), sbRegs_dist, HQ.job (.of_dist (sendTunnels_all ..).1), (sendTunnels_all ..).1]
  simp only [job_put, State.put_dist, job_setJob, sbFreeJob_none hpages]
  exact ⟨rfl, find_erase ..⟩

/-- The stud book's counts of a job leave every field of other registers. -/
theorem get_sbRegs {f : Machine.Field} (hfree : f.off ≠ 0x7010) (hjob : f.off ≠ 0x7200 + 16 * j) (hl : decide (f.lo < 32) = true) (s : State) : (s.sbRegs j).get .fd f = s.get .fd f := by
  unfold State.sbRegs
  rw [get_putFlag_ne _ (key_ne_of_off hjob hl), State.get_put_ne _ (key_ne_of_off hjob hl), State.get_put_ne _ (key_ne_of_off hfree hl)]

theorem quota_sbRegs (j : Nat) (s : State) : (s.sbRegs j).get .fd (Rg.JM_SB_QUOTA j) = s.get .fd (Rg.JM_SB_QUOTA j) := by
  unfold State.sbRegs
  rw [get_putFlag_ne _ key_ne_of_lo, State.get_put_ne _ key_ne_of_lo, State.get_put_ne _ (key_ne_of_off (show 0x7200 + 16 * j ≠ 0x7010 by omega))]

theorem get_jobEnded (hj : j < 64) (hpages : s.sbPages j = []) :
    (jobEnded j s).get .fd (Rg.JH_CREATED j) = s.get .fd (Rg.JH_CREATED j) ∧ (jobEnded j s).get .fd (Rg.JM_SB_QUOTA j) = 0 ∧ (jobEnded j s).get .fd (Rg.JM_ATT_RATE j) = 0
      ∧ (jobEnded j s).get .fd (Rg.JM_PAY_SHARE j) = 0 := by
  have hoff : ∀ (f g : Machine.Field) (u : State) (v : Nat), f.off ≠ g.off → decide (f.lo < 32) = true → decide (g.lo < 32) = true → (u.put .fd g v).get .fd f = u.get .fd f :=
    fun f g u v ho hf hg => State.get_put_ne _ (key_ne_of_off ho hf hg) _ _
  have hq : (Rg.JM_SB_QUOTA j).off = 0x7200 + 16 * j := rfl
  have hr : (Rg.JM_ATT_RATE j).off = 0x7204 + 16 * j := rfl
  have hs : (Rg.JM_PAY_SHARE j).off = 0x720C + 16 * j := rfl
  have hc : (Rg.JH_CREATED j).off = 0x6104 + 16 * j := rfl
  unfold jobEnded
  rw [sbFreeJob_none hpages]
  refine ⟨?_, ?_, ?_, ?_⟩
  · rw [created_jobRegs hj, get_sbRegs (by omega) (by omega) rfl, (sendTunnels_all ..).2.1, hoff _ _ _ _ (by omega) rfl rfl, hoff _ _ _ _ (by omega) rfl rfl, hoff _ _ _ _ (by omega) rfl rfl]
    rfl
  · rw [get_jobRegs_far hj (by omega) (by omega) rfl, quota_sbRegs, (sendTunnels_all ..).2.1, hoff _ _ _ _ (by omega) rfl rfl, hoff _ _ _ _ (by omega) rfl rfl, State.get_put_same]
    rfl
  · rw [get_jobRegs_far hj (by omega) (by omega) rfl, get_sbRegs (by omega) (by omega) rfl, (sendTunnels_all ..).2.1, hoff _ _ _ _ (by omega) rfl rfl, State.get_put_same]
    rfl
  · rw [get_jobRegs_far hj (by omega) (by omega) rfl, get_sbRegs (by omega) (by omega) rfl, (sendTunnels_all ..).2.1, State.get_put_same]
    rfl

theorem jobEnd_ends (hm : MbReady m 2 (some (m.argAt [1] 0)) 1 s) (hp : m.part = .fd) (hroot : s.isActiveRoot = true) (hj : m.argAt [1] 0 = j) (hlt : j < 64)
    (hcreated : s.get .fd (Rg.JH_CREATED j) = 1) (hmembers : (s.job j).memberCount = 0) (hchanges : s.fd.tt.changes = []) (hslots : s.jobSlots j = []) (hpages : s.sbPages j = []) :
    Gives (.jobEnd m) s fun t => Answered m 0 t ∧ (t.job j).ending = some (s.beat .fd) ∧ (t.job j).hslotQuota = 0 ∧ t.get .fd (Rg.JH_CREATED j) = 1 ∧ t.get .fd (Rg.JM_SB_QUOTA j) = 0
      ∧ t.get .fd (Rg.JM_ATT_RATE j) = 0 ∧ t.get .fd (Rg.JM_PAY_SHARE j) = 0 ∧ SMap.find j t.dist.sb.logs = none := by
  refine ⟨_, rfl, ?_⟩
  rw [fdOnly_fd hp, mailbox_eq_answer (jobArg := some 0) hm rfl (out := .ok []) (u := jobEnded j (s.mbSubmit m 0x2A)) ?body]
  case body =>
    unfold MbGo.argAt at hj
    have hflag : (s.mbSubmit m 0x2A).flag .fd (Rg.JH_CREATED j) = true := (created_mbSubmit hm.box 0x2A hlt).trans (flag1 hcreated)
    have hnone : (s.mbSubmit m 0x2A).fd.tt.changes = [] := (congrArg TtSt.changes (mbSubmit_unit_tt m .fd 0x2A s)).trans hchanges
    simp only [State.atRoot, active_sub hm.box 0x2A hroot, hj, hflag, hnone, job_mbSubmit, hmembers, jobSlots_congr (mbSubmit_dist m 0x2A s), hslots, Nat.not_lt.2 (Nat.le_of_lt_succ hlt),
      List.any_nil, List.foldl_nil, bne_self_eq_false, decide_false, Bool.not_true, Bool.or_self, Bool.false_eq_true, if_false, if_true]
    rfl
  have hnopages : (s.mbSubmit m 0x2A).sbPages j = [] := (sbPages_congr (mbSubmit_dist m 0x2A s) j).trans hpages
  obtain ⟨hjob, hlog⟩ := jobEnded_hall hnopages
  obtain ⟨gcreated, gquota, grate, gshare⟩ := get_jobEnded hlt hnopages
  rw [job_mbSubmit, beat_mbSubmit] at hjob
  have hcreated' : ¬ mbKeys (Rg.JH_CREATED j).key := not_mbKeys_of_lt (show 0x6104 + 16 * j < 0x8800 by omega)
  refine ⟨answered_ok .., ?_⟩
  rw [HQ.job (.of_dist (dist_ans ..)), dist_ans, hlog, hjob, get_ans hm.box _ _ hcreated', gcreated, get_sub hm.box _ hcreated', hcreated,
    get_ans hm.box _ _ (not_mbKeys_of_lt (f := Rg.JM_SB_QUOTA j) (show 0x7200 + 16 * j < 0x8800 by omega)), gquota, get_ans hm.box _ _ (not_mbKeys_of_lt (f := Rg.JM_ATT_RATE j) (show 0x7204 + 16 * j < 0x8800 by omega)), grate,
    get_ans hm.box _ _ (not_mbKeys_of_lt (f := Rg.JM_PAY_SHARE j) (show 0x720C + 16 * j < 0x8800 by omega)), gshare]
  exact ⟨rfl, rfl, rfl, rfl, rfl, rfl, rfl⟩

theorem jobEndEffect_clears {b : Nat} (hending : (s.job j).ending = some b) : Gives (.jobEndEffect j) s fun t => t.job j = {} ∧ t.get .fd (Rg.JH_CREATED j) = 0 := by
  have hrun : execJobEndEffect j s = .next (((s.awaitBeat .fd (b + 1)).setJob j {}).put .fd (Rg.JH_CREATED j) 0) := by
    unfold execJobEndEffect
    rw [hending]
  refine ⟨_, hrun, ?_, ?_⟩
  · rw [job_put, job_setJob]
  · rw [State.get_put_same]
    rfl

end

/-- Settles O20, each clause by the lemma on its command. -/
theorem hallJobsAndSlotsAtTheRoot : Obligations.HallJobsAndSlotsAtTheRoot := by
  unfold Obligations.HallJobsAndSlotsAtTheRoot
  exact ⟨fun _ _ _ => slotInstall_installs, fun _ _ _ _ _ => hbarAllocInstalled_completes, fun _ _ _ _ _ => hbarAlloc_allocates, fun _ _ _ => hbarFree_frees, fun _ _ _ => hbarSet_changes,
    fun _ _ _ => hbarResolve_forces, fun _ _ _ => hbarRead_answers, fun _ _ _ => jobHallStatus_answers, fun _ _ _ _ => suspectRead_lists, fun _ _ => hbarDump_records, fun _ _ _ => jobCreate_creates,
    fun _ _ _ => jobEnd_ends, fun _ _ _ => jobEndEffect_clears⟩

end Sys2Proof.Proofs

/-! PROOFS. O22: bodies on links, combines on pipes, the root's results, the readers of pipes and payload. -/

namespace Sys2Proof.Proofs

open Sys2Proof Sys2Proof.Machine Sys2Proof.Cmds

-- One proof after another, as in the tests: side by side, the proofs of the joined text keep more stacks alive than the check's memory holds.
set_option Elab.async false

/-! Bodies taken in, checked and asked for (R258, R260, R264). -/

section
variable {p : Part} {n fkind job tag : Nat} {r : RxBody} {s : State}

/-- A fragment taken in says which words are in hand, not whose body they are or whether a word has named it. -/
theorem take_keeps (f : Fragment) (r : RxBody) : (r.take f).named = r.named ∧ (r.take f).fkind = r.fkind ∧ (r.take f).job = r.job ∧ (r.take f).tag = r.tag := by
  unfold RxBody.take
  dsimp only
  split <;> split <;> exact ⟨rfl, rfl, rfl, rfl⟩

/-- A body of which nothing has come is begun behind the others. -/
theorem modRx_begins (hnone : s.rxBody p n fkind job tag = none) (g : RxBody → RxBody) :
    (s.modRx p n fkind job tag g).link p n = { s.link p n with rxBodies := (s.link p n).rxBodies ++ [g { fkind := fkind, job := job, tag := tag }] } := by
  unfold State.rxBody at hnone
  unfold State.modRx
  rw [link_modLink, hnone]

theorem rxBody_modRx_begun (hnone : s.rxBody p n fkind job tag = none) {g : RxBody → RxBody} (hkey : (g { fkind := fkind, job := job, tag := tag }).is fkind job tag = true) :
    (s.modRx p n fkind job tag g).rxBody p n fkind job tag = some (g { fkind := fkind, job := job, tag := tag }) := by
  unfold State.rxBody
  rw [modRx_begins hnone]
  unfold State.rxBody at hnone
  rw [List.find?_append, hnone, Option.none_or, List.find?_cons_of_pos hkey]

/-- The first fragment of a partial from below begins its body, which no word has named yet (R260, R264). -/
theorem fragmentReceive_begins {f : Fragment} (hup : s.linkUp p n = true) (hkind : f.fkind = 1) (hgone : f.gone = false) (hparent : s.parentEnd p n = true)
    (hnone : s.rxBody p n 1 f.job f.tag = none) :
    Gives (.fragmentReceive p n f) s fun t => (t.link p n).rxBodies = (s.link p n).rxBodies ++ [RxBody.take f { fkind := 1, job := f.job, tag := f.tag }] ∧ t.dist = s.dist ∧ t.die = s.die := by
  obtain ⟨hnamed, htk, htj, htt⟩ := take_keeps f { fkind := 1, job := f.job, tag := f.tag }
  have hbody := rxBody_modRx_begun hnone (g := fun r => r.take f) (by unfold RxBody.is; simp only [htk, htj, htt, beq_self_eq_true, Bool.and_self])
  have hlink := modRx_begins hnone fun r => r.take f
  have hdist : (s.modRx p n 1 f.job f.tag fun r => r.take f).dist = s.dist := (modLink_all ..).1
  have hdie : (s.modRx p n 1 f.job f.tag fun r => r.take f).die = s.die := (modLink_all ..).2.1
  have hrun : execFragmentReceive p n f s = .next (s.modRx p n 1 f.job f.tag fun r => r.take f) := by
    unfold execFragmentReceive State.fragment
    simp only [hup, hkind, hgone, hparent, hbody, Option.getD_some, hnamed, Bool.not_true, Bool.true_or, Bool.and_false, Bool.false_eq_true, if_false, if_true]
    cases p <;> rfl
  refine ⟨_, hrun, ?_, hdist, hdie⟩
  rw [hlink]

/-- A body has been asked for: FKIND 3 is queued for its sender, the request is counted, the next check is due 16 beats on (R264). -/
def BodyRequested (p : Part) (n fkind job tag : Nat) (s t : State) : Prop :=
  (t.link p n).txBodies = (s.link p n).txBodies ++ [{ fkind := 3, job := job, tag := tag, body := {} }]
    ∧ (t.link p n).rxBodies = (s.link p n).rxBodies.map (fun x => if x.is fkind job tag then { x with requests := x.requests + 1, dueBeat := s.beat p + 16 } else x)
    ∧ t.get p (if p = .fd then Rg.PAY_REPEAT_SENT else Rg.SPAY_REPEAT_CNT) = sat 16 (s.get p (if p = .fd then Rg.PAY_REPEAT_SENT else Rg.SPAY_REPEAT_CNT) + 1)

/-- Two beats after its naming word a body with a word missing is asked for the first time (R264). -/
theorem bodyCheck_requests (hbody : s.rxBody p n fkind job tag = some r) (hnamed : r.named = true) (hfirst : r.requests = 0) (hlost : r.lost = false) (hpart : r.whole = false)
    (hdue : r.dueBeat ≤ s.beat p) :
    Gives (.bodyCheck p n fkind job tag) s (BodyRequested p n fkind job tag s) := by
  have hrun : execBodyCheck p n fkind job tag s = .next (s.requestBody p n fkind job tag) := by
    unfold execBodyCheck
    simp only [hbody, hnamed, hfirst, hlost, hpart, awaitBeat_past hdue, Nat.not_lt.2 hdue, beq_self_eq_true, bne_self_eq_false, decide_false, Bool.not_true, Bool.or_self, Bool.false_eq_true, ite_self,
      if_false]
  exact ⟨_, hrun, requestBody_spec _ _ _ _ _ _ hbody⟩

/-- 16 beats after a request the body is asked for again, up to 3 times in all (R264). -/
theorem repeatRequestTimer_requests (hbody : s.rxBody p n fkind job tag = some r) (hasked : 1 ≤ r.requests) (hagain : r.requests < 3) (hlost : r.lost = false) (hpart : r.whole = false)
    (hdue : r.dueBeat ≤ s.beat p) :
    Gives (.repeatRequestTimer p n fkind job tag) s (BodyRequested p n fkind job tag s) := by
  have hrun : execRepeatRequestTimer p n fkind job tag s = .next (s.requestBody p n fkind job tag) := by
    unfold execRepeatRequestTimer
    simp only [hbody, hlost, hpart, awaitBeat_past hdue, Nat.not_lt.2 hdue, Nat.ne_of_gt hasked, hagain, decide_false, Bool.or_self, Bool.false_eq_true, ite_self, if_false, if_true]
  exact ⟨_, hrun, requestBody_spec _ _ _ _ _ _ hbody⟩

/-- A sender that is asked for a body sends the whole of it again, or answers that it is gone (R264). -/
theorem repeatRequest_answers (hup : s.linkUp p n = true) :
    Gives (.repeatRequest p n job tag) s fun t => (t.link p n).txBodies =
      (if (s.link p n).txBodies.any (fun b => b.fkind == (if s.parentEnd p n then 2 else 1) && b.job == job && b.tag == tag) then
        (s.link p n).txBodies.map fun b => if b.fkind = (if s.parentEnd p n then 2 else 1) ∧ b.job = job ∧ b.tag = tag then { b with at_ := 0, sentBeat := none } else b
      else (s.link p n).txBodies ++ [{ fkind := if s.parentEnd p n then 2 else 1, job := job, tag := tag, body := {}, gone := true }]) ∧ t.dist = s.dist ∧ t.die = s.die := by
  have hrun : execRepeatRequest p n job tag s = .next (s.repeatBody p n job tag) := by
    unfold execRepeatRequest
    rw [if_pos hup]
  refine ⟨_, hrun, ?_, (modLink_all ..).1, (modLink_all ..).2.1⟩
  unfold State.repeatBody
  simp only [link_modLink, apply_ite Link.txBodies, Bool.and_eq_true, decide_eq_true_eq, and_assoc]

end

/-! The end of a combine on a pipe (R274, R275, R282). -/

section
variable {s : State}

theorem mismatch_not_pstate (k i : Nat) : (Rg.PIPE_MISMATCH_CNT k).key ≠ (Rg.PIPE_PSTATE i).key :=
  key_ne_of_off (show 0x6A04 + 16 * k ≠ 0x6A00 + 16 * i by omega)

/-- The root's conversion whose runs agree is finished and waits for its result to be formed (R257, R275). -/
theorem pipeCombineDone_finishes {i : Nat} {c : Combine} (hone : s.dist.spare.combines = [c]) (hpipe : c.pipe = i) (hrunning : c.fin = false) (hfirst : c.second = false) (hword : c.word = none)
    (hforce : s.dist.spare.forceMismatch = false) :
    Gives (.pipeCombineDone i false) s fun t => t.dist.spare.combines = [{ c with fin := true }] ∧ t.dist.hall = s.dist.hall
      ∧ ∀ k < 68, t.get .fd (Rg.PIPE_MISMATCH_CNT k) = s.get .fd (Rg.PIPE_MISMATCH_CNT k) := by
  have hfind : (s.dist.spare.combines.find? fun x => x.pipe == i && !x.fin) = some c := by
    rw [hone, List.find?_cons_of_pos (by simp [hpipe, hrunning])]
  generalize hu : s.setSpare { s.dist.spare with combines := [{ c with fin := true }] } = u
  have hrun : execPipeCombineDone i false s = .next u.pipeStates := by
    unfold execPipeCombineDone
    simp only [hfind, hforce, hfirst, Bool.false_and, Bool.not_false, Bool.and_self, Bool.false_eq_true, if_false, if_true]
    unfold State.combineResult
    simp only [hword, hone, List.map_cons, List.map_nil, if_true]
    rw [← hu, hword]
  obtain ⟨hdist, hget, -⟩ := pipeStates_keep u
  refine ⟨_, hrun, ?_, ?_, fun k _ => ?_⟩
  · rw [hdist, ← hu]
    rfl
  · rw [hdist, ← hu]
    rfl
  · rw [hget _ (fun i _ => mismatch_not_pstate k i), ← hu, State.get_setSpare]

end

/-! The root's result (R257, R258, R291, R293). -/

section
variable {s : State}

/-- A result queued on ports is nothing of the hall's state or of the registers (R258). -/
theorem sendResults_leave (p : Part) (job seq words : Nat) (body : Body) (ns : List Nat) (s : State) :
    (ns.foldl (fun (t : State) n => t.sendResult p job seq words body n) s).dist = s.dist
      ∧ ∀ q f, (ns.foldl (fun (t : State) n => t.sendResult p job seq words body n) s).get q f = s.get q f := by
  have hone : ∀ (t : State) n, (t.sendResult p job seq words body n).dist = t.dist ∧ ∀ q f, (t.sendResult p job seq words body n).get q f = t.get q f := by
    intro t n
    unfold State.sendResult
    split
    · exact ⟨rfl, fun _ _ => rfl⟩
    · exact ⟨(modLink_all ..).1, (modLink_all ..).2.2⟩
  exact ⟨foldl_keeps (fun t : State => t.dist) (fun t n => (hone t n).1) _ _, fun q f => foldl_keeps (fun t : State => t.get q f) (fun t n => (hone t n).2 q f) _ _⟩

/-- An attendance record is taken into the archive and moves nothing else of the distributor (R298). -/
theorem record_leaves (x : Machine.Rec) (s : State) : (s.record .fd x).dist.sb = s.dist.sb ∧ (s.record .fd x).dist.spare = s.dist.spare ∧ (s.record .fd x).dist.hall = s.dist.hall
    ∧ ∀ f : Machine.Field, ¬ attKeys f.key → (s.record .fd x).get .fd f = s.get .fd f := by
  have honly := record_fd x s
  exact ⟨by rw [honly.dist], by rw [honly.dist], by rw [honly.dist], honly.get⟩

/-- A close goes behind the others of its job, which are fewer than the log holds; beside the stud book, its count of unmapped buckets and the archive nothing else moves (R293). -/
theorem recordClose_logs {e : CloseEntry} {b : Body} {present : Bool} (hroom : (SMap.get [] e.job s.dist.sb.logs).length < 65536) :
    SMap.get [] e.job (s.recordClose e b present).dist.sb.logs = SMap.get [] e.job s.dist.sb.logs ++ [e] ∧ (s.recordClose e b present).dist.spare = s.dist.spare
      ∧ (s.recordClose e b present).dist.hall = s.dist.hall
      ∧ ∀ f : Machine.Field, ¬ attKeys f.key → f.key ≠ Rg.SB_SB_UNMAPPED.key → (s.recordClose e b present).get .fd f = s.get .fd f := by
  generalize hl : SMap.get [] e.job s.dist.sb.logs = log at *
  have hdrop : (log ++ [e]).drop ((log ++ [e]).length - 65536) = log ++ [e] := by
    rw [List.length_append, List.length_singleton, Nat.sub_eq_zero_of_le hroom, List.drop_zero]
  unfold State.recordClose
  simp only [hl, hdrop]
  generalize hu : s.setSb { s.dist.sb with logs := SMap.set e.job (log ++ [e]) s.dist.sb.logs } = u
  have hlog : SMap.get [] e.job u.dist.sb.logs = log ++ [e] := by
    rw [← hu]
    exact SMap.get_set_same ..
  have hrest : u.dist.spare = s.dist.spare ∧ u.dist.hall = s.dist.hall ∧ ∀ f, u.get .fd f = s.get .fd f := by
    rw [← hu]
    exact ⟨rfl, rfl, fun f => State.get_setSb ..⟩
  obtain ⟨hspare, hhall, hget⟩ := hrest
  cases u.sbIndex e.job e.bucket with
  | none =>
    obtain ⟨rsb, rspare, rhall, rget⟩ := record_leaves
      { kind := 0x06, obj := e.bucket, arg := e.seq % 2 ^ 23 + 2 ^ 23 * ofBool (none : Option Nat).isNone, epoch := e.epoch, job := e.job } (u.bump .fd Rg.SB_SB_UNMAPPED)
    have hdist : (u.bump .fd Rg.SB_SB_UNMAPPED).dist = u.dist := State.put_dist ..
    refine ⟨?_, ?_, ?_, fun f hatt hother => ?_⟩
    · rw [rsb, hdist, hlog]
    · rw [rspare, hdist, hspare]
    · rw [rhall, hdist, hhall]
    · rw [rget f hatt, get_bump_ne _ hother, hget]
  | some i =>
    obtain ⟨rsb, rspare, rhall, rget⟩ := record_leaves
      { kind := 0x06, obj := e.bucket, arg := e.seq % 2 ^ 23 + 2 ^ 23 * ofBool (some i).isNone, epoch := e.epoch, job := e.job }
      (u.setSb { u.dist.sb with entries := SMap.set i (SbEntry.close e b present (SMap.get {} i u.dist.sb.entries)) u.dist.sb.entries })
    refine ⟨?_, ?_, ?_, fun f hatt _ => ?_⟩
    · rw [rsb]
      exact hlog
    · rw [rspare]
      exact hspare
    · rw [rhall]
      exact hhall
    · rw [rget f hatt, State.get_setSb, hget]

/-- A combine that leaves its pipe, no word waiting, moves the spares and the pipes' states alone (R274). -/
theorem endCombine_leaves {c : Combine} (hwait : s.dist.hall.bodyWait = []) :
    (s.endCombine c id).dist.spare.combines = s.dist.spare.combines.erase c ∧ (s.endCombine c id).dist.sb = s.dist.sb
      ∧ ∀ f : Machine.Field, (∀ i < 68, f.key ≠ (Rg.PIPE_PSTATE i).key) → (s.endCombine c id).get .fd f = s.get .fd f := by
  generalize hu : (s.setSpare { s.dist.spare with combines := s.dist.spare.combines.erase c }).setPipe c.pipe { s.pipe c.pipe with busy := (s.pipe c.pipe).busy + c.body.sum.count } = u
  obtain ⟨hdist, hget, -⟩ := pipeStates_keep u
  obtain ⟨hretry, hunit, -⟩ := retryHeld_nil (s := u.pipeStates) (by
    rw [hdist, ← hu]
    exact hwait)
  have hend : s.endCombine c id = u.pipeStates.retryHeld := by
    unfold State.endCombine
    dsimp only [id]
    rw [hu]
  rw [hend]
  refine ⟨?_, ?_, fun f hf => ?_⟩
  · rw [hretry, hdist, ← hu]
    rfl
  · rw [hretry, hdist, ← hu]
    rfl
  · refine Eq.trans (congrArg (fun x : Common => fieldGet f x.regs) (hunit .fd)) ((hget f hf .fd).trans ?_)
    rw [← hu]
    rfl

/-- What RESULT_FORMED sends leaves the unit but for the job's next CLOSE_SEQ; then the close is recorded and its conversion leaves the pipe (R257, R258, R293). -/
theorem resultFormed_sends {h : Nat} {c : Combine} {o : Nat × Nat × Nat × Nat} (hfind : (s.dist.spare.combines.find? fun x => x.hslot == h && x.fin) = some c) (hdone : c.done = some o) :
    ∃ (u : State) (e : CloseEntry) (b : Body), execResultFormed h s = .next ((u.recordClose e b (bit c.body.present 0)).endCombine c id) ∧ u.dist = s.dist
      ∧ u.get .fd (Rg.JH_CLOSE_SEQ (s.slot h).job) = (s.get .fd (Rg.JH_CLOSE_SEQ (s.slot h).job) + 1) % 2 ^ 32
      ∧ e.job = (s.slot h).job ∧ e.epoch = o.1 ∧ e.contrib = o.2.1 ∧ e.hash = o.2.2.1 ∧ e.doneFlags = o.2.2.2
      ∧ e.seq = (s.get .fd (Rg.JH_CLOSE_SEQ (s.slot h).job) + 1) % 2 ^ 32 ∧ e.beat = s.beat .fd % 2 ^ 32 := by
  unfold execResultFormed
  rw [hfind]
  simp only [hdone, Option.getD_some]
  refine ⟨_, _, _, rfl, ?_, ?_, rfl, rfl, rfl, rfl, rfl, rfl, rfl⟩
  · rw [(sendResults_leave ..).1]
    unfold State.sendMembers State.sendDone
    rw [(sendWords_all ..).1, (sendWords_all ..).1, State.put_dist]
  · rw [(sendResults_leave ..).2]
    unfold State.sendMembers State.sendDone
    rw [(sendWords_all ..).2.2.1, (sendWords_all ..).2.2.1, State.get_put_same]
    exact Nat.mod_mod ..

/-- A formed result takes the job's next CLOSE_SEQ and an entry of its close log, and its conversion leaves the pipe (R257, R274, R293). -/
theorem resultFormed_closes {h : Nat} {c : Combine} {o : Nat × Nat × Nat × Nat} (hone : s.dist.spare.combines = [c]) (hslot : c.hslot = h) (hfin : c.fin = true) (hdone : c.done = some o)
    (hwait : s.dist.hall.bodyWait = []) (hjob : (s.slot h).job < 64) (hroom : (SMap.get [] (s.slot h).job s.dist.sb.logs).length < 65536) :
    Gives (.resultFormed h) s fun t => t.get .fd (Rg.JH_CLOSE_SEQ (s.slot h).job) = (s.get .fd (Rg.JH_CLOSE_SEQ (s.slot h).job) + 1) % 2 ^ 32 ∧ t.dist.spare.combines = []
      ∧ ∃ e : CloseEntry, SMap.get [] (s.slot h).job t.dist.sb.logs = SMap.get [] (s.slot h).job s.dist.sb.logs ++ [e] ∧ e.job = (s.slot h).job ∧ e.epoch = o.1 ∧ e.contrib = o.2.1 ∧ e.hash = o.2.2.1
        ∧ e.doneFlags = o.2.2.2 ∧ e.seq = (s.get .fd (Rg.JH_CLOSE_SEQ (s.slot h).job) + 1) % 2 ^ 32 ∧ e.beat = s.beat .fd % 2 ^ 32 := by
  have hfind : (s.dist.spare.combines.find? fun x => x.hslot == h && x.fin) = some c := by
    rw [hone, List.find?_cons_of_pos (by simp [hslot, hfin])]
  obtain ⟨u, e, b, hrun, hdist, hseq, hejob, hrest⟩ := resultFormed_sends hfind hdone
  obtain ⟨hlogs, hspare, hhall, hget⟩ := recordClose_logs (e := e) (b := b) (present := bit c.body.present 0) (s := u) (by rwa [hejob, hdist])
  obtain ⟨hcombines, hsb, hfield⟩ := endCombine_leaves (c := c) (s := u.recordClose e b (bit c.body.present 0)) (by rwa [hhall, hdist])
  have hatt : ¬ attKeys (Rg.JH_CLOSE_SEQ (s.slot h).job).key := by
    refine not_att ?_ ?_ ?_ <;> (simp only [Machine.Field.key, Rg.JH_CLOSE_SEQ]; omega)
  refine ⟨_, hrun, ?_, ?_, e, ?_, hejob, hrest⟩
  · rw [hfield _ fun i _ => key_ne_of_off (show 0x6108 + 16 * (s.slot h).job ≠ 0x6A00 + 16 * i by omega),
      hget _ hatt (key_ne_of_off (show 0x6108 + 16 * (s.slot h).job ≠ 0x7014 by omega)), hseq]
  · rw [hcombines, hspare, hdist, hone, List.erase_cons_head]
  · rw [hsb, ← hejob, hlogs, hdist]

end

/-! A CLOSE on its way down (R257, R258, R264). -/

section
variable {s : State}

/-- A leaf sends the CLOSE on to the job's member ports and begins the result that it names (R257, R264). -/
theorem closeWord_forwards {n job bucket seq epoch contrib hash flags : Nat} (hleaf : s.role = 4) (hinstalled : (s.job job).installed = true) (hnone : s.rxBody .fd n 2 job seq = none) :
    Gives (.closeWord n job bucket seq epoch contrib hash flags) s fun t =>
      (t.link .fd n).rxBodies = (s.link .fd n).rxBodies ++ [{ fkind := 2, job := job, tag := seq, named := true, dueBeat := s.beat .fd + 2 }] ∧ t.dist = s.dist
        ∧ ∀ k l, s.portsOfMask (s.job job).memberPorts = [k] → k ≠ n → s.linkUp .fd k = true → l = { job := job, body := .close bucket seq epoch contrib flags hash } →
          (t.link .fd k).txq = (s.link .fd k).txq ++ [l] := by
  generalize hw : ({ job := job, body := .close bucket seq epoch contrib flags hash } : CtlWord) = w
  have hheld : s.jobHeld w.job = false := by
    unfold State.jobHeld
    rw [← hw, hinstalled, Bool.not_true, Bool.and_false]
  generalize hu : (s.takeWord .fd n w).sendMembers job w = u
  have hsent : u = (s.takeWord .fd n w).sendWords .fd (s.portsOfMask (s.job job).memberPorts) w := hu.symm
  obtain ⟨hdist, -, -, -, hclock⟩ := sendWords_all .fd (s.portsOfMask (s.job job).memberPorts) w (s.takeWord .fd n w)
  have hrx : (u.link .fd n).rxBodies = (s.link .fd n).rxBodies := by
    rw [hsent, sendWords_link]
    rfl
  have hbody : u.rxBody .fd n 2 job seq = none := by
    unfold State.rxBody at hnone ⊢
    rw [hrx, hnone]
  have hbeat : u.beat .fd = s.beat .fd := beat_of (by rw [hsent, hclock]; rfl)
  have hrun : execCloseWord n job bucket seq epoch contrib hash flags s = .next (u.nameBody .fd n 2 job seq) := by
    unfold execCloseWord
    simp only [hw, leaf_not_root hleaf, onWord_run hheld, hu, hbody, Bool.false_eq_true, if_false]
  refine ⟨_, hrun, ?_, ?_, fun k l hports hk hup hl => ?_⟩
  · unfold State.nameBody
    rw [modRx_begins hbody, hbeat]
    exact congrArg (· ++ _) hrx
  · unfold State.nameBody
    exact (modLink_all ..).1.trans (by rw [hsent, hdist]; rfl)
  · unfold State.nameBody State.modRx State.modLink
    rw [link_setLink_ne .fd hk, hsent, hports, hl]
    exact congrArg Link.txq (sendWord_queues (s := s.takeWord .fd n w) hup w)

end

/-! The readers (R283, R367, R404; the layouts of PIPE_READ and PAY_READ are the model's choice, log entries 33 and 28). -/

section
variable {m : MbGo} {s : State}

/-- PIPE_READ answers a pipe's state, its retired bands and its 32 fault cells (R283, R404). -/
theorem pipeRead_answers {i : Nat} (h : MbReady m 2 none 1 s) (hp : m.part = .fd) (hi : m.argAt [1] 0 = i) (hlt : i < 68) :
    Gives (.pipeRead m) s fun t => Result m (packFields 0 ([(1, s.get .fd (Rg.PIPE_PSTATE i)), (1, s.get .fd (Rg.PIPE_RETIRE_MAP i))] ++ (List.range 32).map fun k => (1, SMap.get 0 k (s.pipe i).cells))) s t
      ∧ Only .fd true mbKeys s t := by
  refine ⟨_, rfl, ?_⟩
  have hfd : ∀ u, Only .fd true mbKeys s u = Only m.part true mbKeys s u := fun u => by rw [hp]
  beta_reduce
  rw [fdOnly_fd hp, hfd]
  refine reader_ok (jobArg := none) h rfl 0x40 _ _ ?_
  unfold MbGo.argAt at hi
  have hpipe : (s.mbSubmit m 0x40).pipe i = s.pipe i := by
    unfold State.pipe
    rw [mbSubmit_dist]
  have hget : ∀ f : Machine.Field, f.off = 0x6A00 + 16 * i → decide (f.lo < 32) = true → (s.mbSubmit m 0x40).get .fd f = s.get .fd f := fun f ho hl =>
    get_sub h.box 0x40 (not_mbKeys_of_lt (by omega) hl) .fd
  simp only [hi, Nat.not_lt.2 (Nat.le_of_lt_succ hlt), if_false, hget (Rg.PIPE_PSTATE i) rfl rfl, hget (Rg.PIPE_RETIRE_MAP i) rfl rfl, hpipe]

/-- PAY_READ at a die lists its descriptors in flight from the lowest index (R283). -/
theorem payRead_lists (h : MbReady m 0 none 0 s) (hp : m.part = .sc) (hengine : s.die.payload = true) :
    Gives (.payRead m) s fun t => Listed m [(2, s.get .sc Rg.SPAY_IN_FLIGHT)]
      (((s.die.pay.descs.foldl (fun (m : SMap Desc) d => SMap.set d.idx d m) []).take 48).map fun e => [(4, e.2.hslot), (4, e.2.bucket), (2, e.2.epoch)]) s t := by
  refine ⟨_, rfl, ?_⟩
  have howner : (if m.part = .fd then some 2 else if s.die.payload then some 0 else none) = some 0 := by
    rw [hp, hengine]
    rfl
  rw [howner]
  refine list_any (jobArg := none) h rfl 0x41 _ _ _ ?_
  have hflight : (s.mbSubmit m 0x41).get .sc Rg.SPAY_IN_FLIGHT = s.get .sc Rg.SPAY_IN_FLIGHT := get_sub h.box 0x41 (not_mbKeys_of_off rfl rfl) .sc
  simp only [hp, hflight, mbSubmit_die]

end

/-- Settles O22, each clause by the lemma on its command. -/
theorem payloadOnLinksAndPipes : Obligations.PayloadOnLinksAndPipes := by
  unfold Obligations.PayloadOnLinksAndPipes
  exact ⟨fun _ _ _ _ => fragmentReceive_begins, fun _ _ _ _ _ _ _ => bodyCheck_requests, fun _ _ _ _ _ _ _ => repeatRequestTimer_requests, fun _ _ _ _ _ => repeatRequest_answers,
    fun _ _ _ => pipeCombineDone_finishes, fun _ _ _ _ => resultFormed_closes, fun _ _ _ _ _ _ _ _ _ => closeWord_forwards, fun _ _ _ => pipeRead_answers, fun _ _ => payRead_lists⟩

end Sys2Proof.Proofs

/-! PROOFS. O23: records buffered and dropped at the lead die, blocks closed and spilled, rule sets, the jobs' shares. -/

namespace Sys2Proof.Proofs

open Sys2Proof Sys2Proof.Machine Sys2Proof.Cmds

-- One proof after another, as in the tests: side by side, the proofs of the joined text keep more stacks alive than the check's memory holds.
set_option Elab.async false

section
variable {n : Nat} {x : Machine.Rec} {b : Block} {s : State}

/-! Records at the lead die (R294, R298). -/

/-- A record of the package is buffered with its die and the moment it came (R294, R298). -/
theorem attRecord_buffers (hkind : x.kind ≠ 0xFE) (hup : s.linkUp .sc n = true) (hlead : s.die.pkgIndex = 0) (hn : 9 ≤ n)
    (hroom : (s.die.att.buf.foldl (fun (m : Nat) (e : Machine.Rec × Nat) => m + e.1.size) 0) + x.size ≤ dieBufCapacity) :
    Gives (.attRecord .sc n x) s fun t => t.die = { s.die with att := { s.die.att with buf := s.die.att.buf ++ [({ x with die := n - 8 }, s.now)] } }
      ∧ t.get .sc Rg.SATT_DROP = s.get .sc Rg.SATT_DROP := by
  have hrun : execAttRecord .sc n x s = .next (s.setDie { s.die with att := { s.die.att with buf := s.die.att.buf ++ [({ x with die := n - 8 }, s.now)] } }) := by
    unfold execAttRecord
    simp only [hkind, hup, hlead, Nat.not_lt.2 hn, hroom, bne_self_eq_false, decide_false, Bool.not_true, Bool.or_self, Bool.false_eq_true, if_false, if_true]
  exact ⟨_, hrun, rfl, rfl⟩

/-- The positions that records and their continuations take, added one by one. -/
theorem foldl_size_eq_sum (l : List (Machine.Rec × Nat)) : l.foldl (fun (m : Nat) (e : Machine.Rec × Nat) => m + e.1.size) 0 = (l.map fun e => e.1.size).sum := by
  rw [List.sum_eq_foldl, List.foldl_map]

/-- Records that have waited 2^29 ns at the die are dropped, and their positions counted (R298). -/
theorem recordAgeDrop_drops {at_ : Nat} {l : List (Machine.Rec × Nat)} (hbuf : s.die.att.buf = (x, at_) :: l) (hold : at_ + 2 ^ 29 ≤ s.now) (hsize : x.size ≠ 0)
    (hn : ((s.die.att.buf.filter fun e => decide (e.2 + 2 ^ 29 ≤ s.now)).map fun e => e.1.size).sum = n) :
    Gives .recordAgeDrop s fun t => t.die.att = { s.die.att with buf := s.die.att.buf.filter (fun e => !decide (e.2 + 2 ^ 29 ≤ s.now)), lost := s.die.att.lost + n }
      ∧ t.get .sc Rg.SATT_DROP = sat 16 (s.get .sc Rg.SATT_DROP + n) := by
  rw [hbuf] at hn
  have hpos : n ≠ 0 := fun e => by
    rw [List.filter_cons, if_pos (decide_eq_true hold), List.map_cons, List.sum_cons] at hn
    exact hsize (Nat.eq_zero_of_add_eq_zero_right (hn.trans e))
  have hrun : execRecordAgeDrop s = .next
      ((s.setDie { s.die with att := { s.die.att with buf := s.die.att.buf.filter (fun e => !decide (e.2 + 2 ^ 29 ≤ s.now)), lost := s.die.att.lost + n } }).bump .sc Rg.SATT_DROP n) := by
    unfold execRecordAgeDrop
    simp only [hbuf, awaitNow_past hold, foldl_size_eq_sum, hn, hpos, if_false]
  refine ⟨_, hrun, ?_, get_bump ..⟩
  unfold State.bump
  rw [State.put_die]
  rfl

/-- The same of a record that waits alone. -/
theorem recordAgeDrop_drops_single {at_ : Nat} (hbuf : s.die.att.buf = [(x, at_)]) (hold : at_ + 2 ^ 29 ≤ s.now) (hsize : x.size ≠ 0) :
    Gives .recordAgeDrop s fun t => t.die.att = { s.die.att with buf := [], lost := s.die.att.lost + x.size } ∧ t.get .sc Rg.SATT_DROP = sat 16 (s.get .sc Rg.SATT_DROP + x.size) := by
  have hdropped : s.die.att.buf.filter (fun e => decide (e.2 + 2 ^ 29 ≤ s.now)) = [(x, at_)] := by rw [hbuf, List.filter_cons, if_pos (decide_eq_true hold), List.filter_nil]
  have hkept : s.die.att.buf.filter (fun e => !decide (e.2 + 2 ^ 29 ≤ s.now)) = [] := by
    rw [hbuf, List.filter_eq_nil_iff]
    simpa using hold
  have h := recordAgeDrop_drops (n := x.size) hbuf hold hsize (by rw [hdropped]; rfl)
  rwa [hkept] at h

/-! Blocks: the hot ring, the spill buffer, the archive (R298 to R300). -/

/-- An open block 2^28 ns old closes into the ring (R298). -/
theorem blockTimeout_closes (hcur : s.dist.arch.cur = some b) (hold : b.openNow + blockNs ≤ s.now) (hroom : s.dist.arch.ring.length < ringCapacity) :
    Gives .blockTimeout s fun t => t.dist.arch.cur = none ∧ t.dist.arch.ring = s.dist.arch.ring ++ [{ b with guard := b.guard || s.inGuard .fd }]
      ∧ t.get .fd Rg.ATT_HEAD_SEQ = b.seq % 2 ^ 32 := by
  have hrun : execBlockTimeout s = .next s.closeBlock := by
    unfold execBlockTimeout
    rw [hcur]
    dsimp only
    rw [awaitNow_past hold]
  obtain ⟨hdist, hhead⟩ := closeBlock_room hcur hroom
  refine ⟨_, hrun, ?_⟩
  beta_reduce
  rw [hdist]
  exact ⟨rfl, rfl, hhead⟩

theorem dist_attRegs (s : State) : s.attRegs.dist = s.dist := (attRegs_spec s).1

theorem dist_bump (p : Part) (f : Machine.Field) (k : Nat) (s : State) : (s.bump p f k).dist = s.dist := State.put_dist ..

/-- The oldest block of the spill buffer is archived, with GAP_BEFORE after a loss (R299, R300). -/
theorem spillWrite_archives {rest : List Block} (hspill : s.dist.arch.spill = b :: rest) (hfree : s.spillPaused = false) (hcap : s.dist.arch.capBlocks ≠ 0) :
    Gives .spillWrite s fun t => t.dist.arch.spill = rest ∧ t.dist.arch.archGap = false ∧ t.dist.arch.ring = s.dist.arch.ring
      ∧ ∃ x, t.dist.arch.arch.getLast? = some x ∧ x.block = { b with gapBefore := b.gapBefore || s.dist.arch.archGap } ∧ x.len ≤ 4096 ∧ x.gone = false := by
  show ∃ t, execSpillWrite s = .next t ∧ _
  unfold execSpillWrite
  simp only [hspill, hfree, hcap, decide_false, Bool.or_self, Bool.false_eq_true, if_false]
  refine ⟨_, rfl, ?_⟩
  rw [apply_ite State.dist, dist_bump, ite_self, dist_attRegs]
  exact ⟨rfl, rfl, rfl, _, List.getLast?_concat, rfl, Nat.min_le_right .., rfl⟩

/-- The archive's remapping ends (R300). -/
theorem spillResume_resumes (s : State) : Gives .spillResume s fun t => t.dist.arch = { s.dist.arch with remapping := false } ∧ t.die = s.die := by
  obtain ⟨hdist, hdie, -⟩ := attRegs_spec (s.setArch { s.dist.arch with remapping := false })
  exact ⟨_, rfl, congrArg Dist.arch hdist, hdie⟩

/-! Rule sets (R302, R303). -/

theorem sendRules_all (k : Nat) (s : State) : (s.sendRules k).dist = s.dist ∧ ∀ p f, (s.sendRules k).get p f = s.get p f := by
  unfold State.sendRules
  split
  · obtain ⟨hdist, -, hget⟩ := modLink_all .fd k (fun l => { l with rulesOut := (List.range 32).map fun r => s.ruleRec r }) s
    exact ⟨hdist, hget⟩
  · exact ⟨rfl, fun _ _ => rfl⟩

theorem ruleRec_sendRules (k r : Nat) (s : State) : (s.sendRules k).ruleRec r = s.ruleRec r := by
  obtain ⟨hdist, hget⟩ := sendRules_all k s
  unfold State.ruleRec State.flag
  simp only [hdist, hget]

theorem linkUp_sendRules (k : Nat) (p : Part) (n : Nat) (s : State) : (s.sendRules k).linkUp p n = s.linkUp p n := by
  unfold State.linkUp State.lstate
  rw [(sendRules_all k s).2]

theorem rulesOut_sendRules_same (hup : s.linkUp .fd n = true) : ((s.sendRules n).link .fd n).rulesOut = (List.range 32).map fun r => s.ruleRec r := by
  unfold State.sendRules
  rw [if_pos hup, link_modLink]

theorem link_sendRules_ne {k : Nat} (h : n ≠ k) (s : State) : (s.sendRules k).link .fd n = s.link .fd n := by
  unfold State.sendRules
  split
  · exact link_setLink_ne .fd h ..
  · rfl

/-- Once queued on a port, the set stays queued while the other ports get it. -/
theorem rulesOut_foldl_of_queued {ns : List Nat} (hup : s.linkUp .fd n = true) (hq : (s.link .fd n).rulesOut = (List.range 32).map fun r => s.ruleRec r) :
    ((ns.foldl (fun (t : State) k => t.sendRules k) s).link .fd n).rulesOut = (List.range 32).map fun r => s.ruleRec r := by
  induction ns generalizing s with
  | nil => exact hq
  | cons k ks ih =>
    have hk : ((s.sendRules k).link .fd n).rulesOut = (List.range 32).map fun r => (s.sendRules k).ruleRec r := by
      simp only [ruleRec_sendRules]
      by_cases e : n = k
      · exact e ▸ rulesOut_sendRules_same hup
      · rw [link_sendRules_ne e, hq]
    rw [List.foldl_cons, ih ((linkUp_sendRules ..).trans hup) hk]
    simp only [ruleRec_sendRules]

/-- The set is queued on every port of the list that is up. -/
theorem rulesOut_foldl_sendRules {ns : List Nat} (hn : n ∈ ns) (hup : s.linkUp .fd n = true) :
    ((ns.foldl (fun (t : State) k => t.sendRules k) s).link .fd n).rulesOut = (List.range 32).map fun r => s.ruleRec r := by
  induction ns generalizing s with
  | nil => exact absurd hn List.not_mem_nil
  | cons k ks ih =>
    have hup' : (s.sendRules k).linkUp .fd n = true := (linkUp_sendRules ..).trans hup
    have hrec : ((List.range 32).map fun r => (s.sendRules k).ruleRec r) = (List.range 32).map fun r => s.ruleRec r := by simp only [ruleRec_sendRules]
    rw [List.foldl_cons, ← hrec]
    rcases List.mem_cons.1 hn with rfl | hn
    · exact rulesOut_foldl_of_queued hup' ((rulesOut_sendRules_same hup).trans hrec.symm)
    · exact ih hn hup'

/-- In the beat after a change a leaf queues its rule set on every downstream port that is up (R303). -/
theorem ruleSetSend_queues {k : Nat} (hchg : s.dist.arch.ruleBeat = some k) (hbeat : k + 1 ≤ s.beat .fd) (hleaf : s.role = 4) (hstage : s.get .fd Rg.START_STAGE = 3) :
    Gives .ruleSetSend s fun t => t.dist.arch = { s.dist.arch with ruleBeat := none }
      ∧ ∀ n < 64, s.linkUp .fd n = true → (t.link .fd n).rulesOut = (List.range 32).map fun r => s.ruleRec r := by
  have hrun : execRuleSetSend s = .next (((List.range 64).foldl (fun (t : State) n => t.sendRules n) s).setArch { s.dist.arch with ruleBeat := none }) := by
    unfold execRuleSetSend
    simp only [hchg, awaitBeat_past hbeat, hleaf, hstage, Option.isSome_some, beq_self_eq_true, Bool.true_or, Bool.and_self, if_true]
  refine ⟨_, hrun, rfl, fun n hn hup => ?_⟩
  rw [ruleSet_link]
  exact rulesOut_foldl_sendRules (List.mem_range.2 hn) hup

/-- A die that is not the lead die collects the record (R303). -/
theorem ruleRecordAtDie_collects {r : RuleRec} (hport : s.rulePort n = true) (hpkg : s.die.pkgIndex ≠ 0) :
    Gives (.ruleRecordAtDie n r) s fun t => (∃ k, t.die = { s.die with att := { s.die.att.collect r with fullBeat := k } }) ∧ t.dist = s.dist := by
  have hrun : execRuleRecordAtDie n r s = .next (s.setDie { s.die with att := if (s.die.att.collect r).coming.length = 32 && s.die.att.coming.length != 32
      then { s.die.att.collect r with fullBeat := s.beat .sc } else s.die.att.collect r }) := by
    unfold execRuleRecordAtDie
    simp only [hport, bne_iff_ne.2 hpkg, Bool.not_true, Bool.false_eq_true, if_false, if_true]
  refine ⟨_, hrun, ?_, rfl⟩
  split
  · exact ⟨_, rfl⟩
  · exact ⟨(s.die.att.collect r).fullBeat, rfl⟩

/-- A whole set is taken into use at the beat boundary (R303). -/
theorem ruleSetAdopt_adopts (hall : s.die.att.coming.length = 32) :
    Gives .ruleSetAdopt s fun t => t.die.att = { s.die.att with inUse := s.die.att.coming.map (·.2), inUseSeq := some s.die.att.comingSeq, coming := [] } := by
  have hdie : (s.awaitBeat .sc (s.die.att.fullBeat + 1)).die = s.die := (Waits.awaitBeat .sc _ s).die
  refine ⟨_, rfl, ?_⟩
  simp only [hall, hdie, if_true]
  rfl

/-! Shares (R304). -/

/-- A beat's tokens come back to every job's bucket (R304). -/
theorem attTokenRefill_refills (s : State) :
    Gives .attTokenRefill s fun t => t.dist.arch = { s.dist.arch with tokens := s.dist.arch.tokens.map fun e => (e.1, e.2 - 1024 * s.get .fd (Rg.JM_ATT_RATE e.1)) } := by
  have hw := Waits.periodic .fd 12 1 0 s
  have hrate : ∀ j, (s.periodic .fd 12 1 0).get .fd (Rg.JM_ATT_RATE j) = s.get .fd (Rg.JM_ATT_RATE j) := fun j => hw.get .fd _ (by
    simp only [timeKeys, Machine.Field.key, Rg.JM_ATT_RATE, Rg.HT_HT_WRAP, Rg.HT_SLEWING]
    omega)
  refine ⟨_, rfl, ?_⟩
  simp only [hrate, hw.dist]
  rfl

end

/-- Settles O23, each clause by the lemma on its command. -/
theorem attendanceTakesAndKeeps : Obligations.AttendanceTakesAndKeeps := by
  unfold Obligations.AttendanceTakesAndKeeps
  exact ⟨fun _ _ _ => attRecord_buffers, fun _ _ => blockTimeout_closes, fun _ _ _ => recordAgeDrop_drops_single, fun _ _ _ => spillWrite_archives, spillResume_resumes,
    fun _ _ => ruleSetSend_queues, fun _ _ _ => ruleRecordAtDie_collects, fun _ => ruleSetAdopt_adopts, attTokenRefill_refills, fun _ _ _ _ _ => recordAgeDrop_drops⟩

end Sys2Proof.Proofs

/-! PROOFS. O24: the window, the attendance commands, errors of the memory tiers. -/

namespace Sys2Proof.Proofs

open Sys2Proof Sys2Proof.Machine Sys2Proof.Cmds

-- One proof after another, as in the tests: side by side, the proofs of the joined text keep more stacks alive than the check's memory holds.
set_option Elab.async false

/-! Blocks held (R305): they are found by the archive and FD_ATT_HEAD_SEQ alone. -/

section
variable {m : MbGo} {b : Block} {s t : State}

theorem heldBlock_congr (hd : t.dist = s.dist) (q : Nat) : t.heldBlock q = s.heldBlock q := by
  unfold State.heldBlock State.heldBlocks
  rw [hd]

theorem findBlock_congr (hd : t.dist = s.dist) (ht : Nat) : t.findBlock ht = s.findBlock ht := by
  unfold State.findBlock State.heldBlocks
  rw [hd]

theorem archiveHas_congr (hd : t.dist = s.dist) (q : Nat) : t.archiveHas q = s.archiveHas q := by
  unfold State.archiveHas
  rw [hd]

theorem dmaSeqs_congr (hd : t.dist = s.dist) (hhead : t.get .fd Rg.ATT_HEAD_SEQ = s.get .fd Rg.ATT_HEAD_SEQ) (a : List Nat) : t.dmaSeqs a = s.dmaSeqs a := by
  unfold State.dmaSeqs State.heldBlocks
  simp only [findBlock_congr hd, hd, hhead]

/-- The fetch ends: the block held is shown, valid and good (R305). -/
theorem attWinLoaded_shows (hbusy : s.get .fd Rg.ATT_WIN_BUSY = 1) (harch : s.archiveHas (s.get .fd Rg.ATT_WIN_SEQ) = false) (hheld : s.heldBlock (s.get .fd Rg.ATT_WIN_SEQ) = some b)
    (hgood : b.bad = false) :
    Gives .attWinLoaded s fun t => t.get .fd Rg.ATT_WIN_BUSY = 0 ∧ t.get .fd Rg.ATT_WIN_VALID = 1 ∧ t.get .fd Rg.ATT_WIN_BAD = 0 ∧ t.dist.arch = { s.dist.arch with window := some b } := by
  have hrun : execAttWinLoaded s = .next ((((s.put .fd Rg.ATT_WIN_BUSY 0).put .fd Rg.ATT_WIN_VALID 1).putFlag .fd Rg.ATT_WIN_BAD false).setArch { s.dist.arch with window := some b }) := by
    unfold execAttWinLoaded
    simp only [flag1 hbusy, harch, hheld, hgood, State.put_dist, Bool.not_true, Bool.false_and, Bool.false_eq_true, if_false]
  refine ⟨_, hrun, ?_, ?_, ?_, rfl⟩
  · rw [State.get_setArch, get_putFlag_ne _ key_ne_of_lo, State.get_put_ne _ key_ne_of_lo, State.get_put_same]
    rfl
  · rw [State.get_setArch, get_putFlag_ne _ key_ne_of_lo, State.get_put_same]
    rfl
  · rw [State.get_setArch, get_putFlag_same]
    rfl

/-! The mailbox commands (R304, R305, R307). -/

theorem hostMem_ans_list (hdma : m.dma = false) (code : Nat) (fixed : List (Nat × Nat)) (es : List (List (Nat × Nat))) (t : State) :
    (t.mbAnswer m.part m.box code m.tag m.irq m.dma (.list fixed es)).hostMem = t.hostMem := by
  unfold State.mbAnswer State.mbList
  simp only [hdma, Bool.false_eq_true, if_false, mbDone_hostMem]

/-- ATT_DMA carried out answers a list, writes the blocks held to host memory and leaves the distributor's own state (R305, R307). -/
theorem attDma_spec (a : List Nat) (s : State) :
    ∃ fixed es, (s.attDma a).1 = .list fixed es ∧ (s.attDma a).2.dist = s.dist
      ∧ (s.attDma a).2.hostMem = s.hostMem.writeN (a.getD 3 0) (((s.dmaSeqs a).filterMap fun q => s.heldBlock q).map Block.toBytes).flatten := by
  refine ⟨_, _, rfl, (dist_bump ..).trans (dmaWrite_dist ..), ?_⟩
  exact (State.put_hostMem ..).trans (dmaWrite_fd_host ..)

/-- ATT_DMA writes the blocks held, in the order of their sequences, to host memory (R305, R307). -/
theorem attDma_copies (h : MbReady m 4 none 24 s) (hp : m.part = .fd) (haligned : m.argAt [8, 1, 4, 8] 3 % 4096 = 0) (hsome : 1 ≤ m.argAt [8, 1, 4, 8] 2)
    (hmost : m.argAt [8, 1, 4, 8] 2 ≤ 65536) (hkind : m.argAt [8, 1, 4, 8] 1 ≤ 1) (harch : (s.dmaSeqs (parseFields m.args 0 [8, 1, 4, 8])).any (fun q => s.archiveHas q) = false) :
    Gives (.attDma m) s fun t => Answered m 0 t ∧ t.dist = s.dist ∧ (m.dma = false → t.hostMem = s.hostMem.writeN (m.argAt [8, 1, 4, 8] 3)
      (((s.dmaSeqs (parseFields m.args 0 [8, 1, 4, 8])).filterMap fun q => s.heldBlock q).map Block.toBytes).flatten) := by
  have hd : (s.mbSubmit m 0x80).dist = s.dist := mbSubmit_dist ..
  have hseqs := dmaSeqs_congr hd (get_sub h.box 0x80 (not_mbKeys_of_off rfl rfl) .fd)
  refine ⟨_, rfl, ?_⟩
  rw [fdOnly_fd hp, mailbox_eq_answer (jobArg := none) h rfl (out := ((s.mbSubmit m 0x80).attDma (parseFields m.args 0 [8, 1, 4, 8])).1)
    (u := ((s.mbSubmit m 0x80).attDma (parseFields m.args 0 [8, 1, 4, 8])).2) ?body]
  case body =>
    unfold MbGo.argAt at haligned hsome hmost hkind
    simp only [haligned, Nat.ne_of_gt hsome, Nat.not_lt.2 hmost, Nat.not_lt.2 hkind, hseqs, archiveHas_congr hd, harch, bne_self_eq_false, decide_false, Bool.or_self, Bool.false_and,
      Bool.false_eq_true, if_false]
  obtain ⟨fixed, es, hout, hsame, hmem⟩ := attDma_spec (parseFields m.args 0 [8, 1, 4, 8]) (s.mbSubmit m 0x80)
  simp only [mbSubmit_hostMem, hseqs, heldBlock_congr hd] at hmem
  rw [hout]
  obtain ⟨hanswered, hdist, -, -⟩ := ans_list_ok m 0x80 fixed es ((s.mbSubmit m 0x80).attDma (parseFields m.args 0 [8, 1, 4, 8])).2
  exact ⟨hanswered, hdist.trans (hsame.trans hd), fun hdma => (hostMem_ans_list hdma ..).trans hmem⟩

/-- ATT_FIND answers the sequence of the newest block anchored at or before an HT (R307). -/
theorem attFind_answers (h : MbReady m 4 none 8 s) (hp : m.part = .fd) (hfind : s.findBlock (m.argAt [8] 0) = some b) :
    Gives (.attFind m) s fun t => Result m (packFields 0 [(4, b.seq)]) s t ∧ Only .fd true mbKeys s t := by
  refine ⟨_, rfl, ?_⟩
  beta_reduce
  rw [fdOnly_fd hp, ← hp]
  refine reader_ok (jobArg := none) h rfl 0x81 _ _ ?_
  unfold MbGo.argAt at hfind
  simp only [findBlock_congr (mbSubmit_dist m 0x81 s), hfind]

/-- ATT_QUOTA sets the job's rate and no other field (R304, R307). -/
theorem attQuota_sets {j v : Nat} (h : MbReady m 4 (some (m.argAt [1, 4] 0)) 8 s) (hp : m.part = .fd) (hj : m.argAt [1, 4] 0 = j) (hv : m.argAt [1, 4] 1 = v) (hlt : j < 64) (hfit : v < 2 ^ 24) :
    Gives (.attQuota m) s fun t => Answered m 0 t ∧ t.get .fd (Rg.JM_ATT_RATE j) = v ∧ t.dist = s.dist
      ∧ ∀ f : Machine.Field, f.key ≠ (Rg.JM_ATT_RATE j).key → ¬ mbKeys f.key → t.get .fd f = s.get .fd f := by
  refine ⟨_, rfl, ?_⟩
  rw [fdOnly_fd hp, mailbox_eq_answer (jobArg := some 0) h rfl (out := .ok []) (u := (s.mbSubmit m 0x82).put .fd (Rg.JM_ATT_RATE j) v) ?body]
  case body =>
    unfold MbGo.argAt at hj hv
    simp only [hj, hv, Nat.not_lt.2 (Nat.le_of_lt_succ hlt), Nat.not_le.2 hfit, decide_false, Bool.or_self, Bool.false_eq_true, if_false]
  refine ⟨answered_ok .., ?_, ?_, fun f hne hf => ?_⟩
  · rw [get_ans h.box _ _ (not_mbKeys_of_lt (show 0x7204 + 16 * j < 0x8800 by omega))]
    exact get_put_low _ hfit
  · rw [dist_ans, State.put_dist, mbSubmit_dist]
  · rw [get_ans h.box _ _ hf, State.get_put_ne _ hne, get_sub h.box _ hf]

/-- ATT_FLUSH closes the open block into the ring (R298, R307). -/
theorem attFlush_closes (h : MbReady m 4 none 0 s) (hp : m.part = .fd) (hcur : s.dist.arch.cur = some b) (hroom : s.dist.arch.ring.length < ringCapacity) :
    Gives (.attFlush m) s fun t => Answered m 0 t ∧ t.dist.arch.cur = none ∧ (∃ g, t.dist.arch.ring = s.dist.arch.ring ++ [{ b with guard := g }])
      ∧ t.get .fd Rg.ATT_HEAD_SEQ = b.seq % 2 ^ 32 := by
  have hd : (s.mbSubmit m 0x83).dist = s.dist := mbSubmit_dist ..
  obtain ⟨hdist, hhead⟩ := closeBlock_room (s := s.mbSubmit m 0x83) (hd ▸ hcur) (hd ▸ hroom)
  obtain ⟨hregs, -, hget⟩ := attRegs_spec (s.mbSubmit m 0x83).closeBlock
  refine ⟨_, rfl, ?_⟩
  rw [fdOnly_fd hp, mailbox_eq_answer (jobArg := none) h rfl (out := .ok []) (u := (s.mbSubmit m 0x83).closeBlock.attRegs) rfl]
  beta_reduce
  rw [dist_ans, hregs, hdist, hd]
  refine ⟨answered_ok .., rfl, ⟨_, rfl⟩, ?_⟩
  rw [get_ans h.box _ _ (not_mbKeys_of_off rfl rfl), hget _ (by decide) (by decide) (by decide), hhead]

end

/-! Errors of the memory tiers (R285 to R287, R397, R399). -/

/-- The fields that a fault event at the distributor writes: not the one that shares its place with the step core's SATT_DROP. -/
def fdFaultKeys (k : Nat) : Prop := faultKeys k ∧ k ≠ Rg.SATT_DROP.key

section
variable {s : State}

theorem not_fdFaultKeys {f : Machine.Field} (h : ¬ faultKeys f.key) : ¬ fdFaultKeys f.key := fun hk => h hk.1

theorem faultLog_only (cls act obj : Nat) (s : State) : Only .fd false fdFaultKeys s (s.faultLog .fd cls act obj) :=
  (Only.refl .fd false fdFaultKeys s).faultLogFd (fun _ hk hne => ⟨hk, hne⟩) cls act obj [] none

theorem faultEvent_only (cls act obj : Nat) (s : State) : Only .fd false fdFaultKeys s ((s.faultLog .fd cls act obj).faultAlert .fd) :=
  (faultLog_only cls act obj s).faultAlert ⟨Or.inr (Or.inr (Or.inr (Or.inr (Or.inl rfl)))), by decide⟩

theorem get_faultLog {f : Machine.Field} (hf : ¬ faultKeys f.key) (cls act obj : Nat) (s : State) : (s.faultLog .fd cls act obj).get .fd f = s.get .fd f :=
  (faultLog_only cls act obj s).get f (not_fdFaultKeys hf)

/-- A fault event and what follows of it in FD_ATT_STATUS leave every other field. -/
theorem get_faultEvent_attRegs {f : Machine.Field} (hf : ¬ fdFaultKeys f.key) (hold : f.key ≠ Rg.ATT_OLDEST_SEQ.key := by decide) (hpaused : f.key ≠ Rg.ATT_SPILL_PAUSED.key := by decide)
    (hpct : f.key ≠ Rg.ATT_SPILL_BUF_PCT.key := by decide) (cls act obj : Nat) (s : State) : (((s.faultLog .fd cls act obj).faultAlert .fd).attRegs).get .fd f = s.get .fd f := by
  obtain ⟨-, -, hget⟩ := attRegs_spec ((s.faultLog .fd cls act obj).faultAlert .fd)
  exact (hget f hold hpaused hpct .fd).trans ((faultEvent_only cls act obj s).get f hf)

/-- A row's first corrected error within 24 h is counted and noted; the row is not spared (R286). -/
theorem patrolScrub_counts {unit row : Nat} (remap : Bool)
    (hfirst : (SMap.get [] (memUnit true unit * 2 ^ 32 + row) s.dist.arch.rowCe).filter (fun t => decide (s.now < t + dayNs)) = []) :
    Gives (.patrolScrub true unit row remap) s fun t => t.get .fd Rg.ECC_CE_CNT = sat 16 (s.get .fd Rg.ECC_CE_CNT + 1)
      ∧ SMap.get [] (memUnit true unit * 2 ^ 32 + row) t.dist.arch.rowCe = [s.now] ∧ t.get .fd Rg.SPR_ROWS_A = s.get .fd Rg.SPR_ROWS_A := by
  have hrun : execPatrolScrub true unit row remap s = .next
      ((s.setArch { s.dist.arch with rowCe := SMap.set (memUnit true unit * 2 ^ 32 + row) [s.now] s.dist.arch.rowCe }).bump .fd Rg.ECC_CE_CNT) := by
    unfold execPatrolScrub
    simp only [hfirst, Bool.not_true, Bool.false_and, Bool.false_eq_true, if_false, List.isEmpty_nil, if_true]
  refine ⟨_, hrun, get_bump .., ?_, ?_⟩
  · rw [dist_bump]
    exact SMap.get_set_same ..
  · rw [get_bump_ne _ (by decide), State.get_setArch]

/-- The counter of spared rows of a tier (R286). -/
def sparedRows (tierA : Bool) : Machine.Field := if tierA then Rg.SPR_ROWS_A else Rg.SPR_ROWS_B

theorem sparedRows_key (tierA : Bool) : ¬ faultKeys (sparedRows tierA).key ∧ (sparedRows tierA).key ≠ Rg.ECC_UE_CNT.key ∧ (sparedRows tierA).width = 16 := by
  cases tierA
  · exact ⟨not_faultKeys, by decide, rfl⟩
  · exact ⟨not_faultKeys, by decide, rfl⟩

/-- Sparing a row counts it and is recorded (R286). -/
theorem spareRow_counts (tierA : Bool) (unit row : Nat) (remap : Bool) (s : State) :
    (s.spareRow tierA unit row remap).get .fd (sparedRows tierA) = sat 16 (s.get .fd (sparedRows tierA) + 1)
      ∧ (s.spareRow tierA unit row remap).get .fd Rg.ECC_UE_CNT = s.get .fd Rg.ECC_UE_CNT := by
  obtain ⟨hfault, hne, hwidth⟩ := sparedRows_key tierA
  unfold State.spareRow
  refine ⟨(get_faultLog hfault ..).trans ((get_bump ..).trans ?_), (get_faultLog not_faultKeys ..).trans ((get_bump_ne _ hne.symm ..).trans (State.get_setArch ..))⟩
  rw [← hwidth]
  rfl

/-- An uncorrectable error outside every region is counted and its row spared (R287, R397). -/
theorem dramUe_counts (tierA : Bool) (unit row : Nat) (remap : Bool) (s : State) :
    Gives (.dramUe tierA unit row .none remap) s fun t => t.get .fd Rg.ECC_UE_CNT = sat 8 (s.get .fd Rg.ECC_UE_CNT + 1)
      ∧ t.get .fd (sparedRows tierA) = sat 16 (s.get .fd (sparedRows tierA) + 1) := by
  obtain ⟨hfault, hne, -⟩ := sparedRows_key tierA
  obtain ⟨hspared, hue⟩ := spareRow_counts tierA unit row remap _
  refine ⟨_, rfl, hue.trans ((get_faultLog not_faultKeys ..).trans (get_bump ..)), hspared.trans ?_⟩
  exact congrArg (fun v => sat 16 (v + 1)) ((get_faultLog hfault ..).trans (get_bump_ne _ hne ..))

/-- A clear bit of a word of `w` bits set. -/
theorem setBit_lt {w v i : Nat} (hv : v < 2 ^ w) (hi : i < w) (hclear : bit v i = false) : setBit v i < 2 ^ w := by
  have heven : v / 2 ^ i % 2 ≠ 1 := fun h => by simp [bit, h] at hclear
  obtain ⟨k, rfl⟩ : ∃ k, w = k + 1 + i := ⟨w - i - 1, by omega⟩
  rw [Nat.pow_add, ← Nat.div_lt_iff_lt_mul (Nat.two_pow_pos i)] at hv ⊢
  rw [setBit, hclear, if_neg Bool.false_ne_true, Nat.add_div_right _ (Nat.two_pow_pos i)]
  rw [Nat.pow_succ] at hv ⊢
  omega

theorem clearBit_le (v i : Nat) : clearBit v i ≤ v := by
  unfold clearBit
  split
  · exact Nat.sub_le ..
  · exact Nat.le_refl v

/-- A channel that fails its training is marked, and the others' presence stays (R285, R397). -/
theorem channelFail_marks {ch : Nat} (hv : s.dist.variant = .vxd2880) (hlt : ch < 16) (hpresent : bit (s.get .fd Rg.MEM_CH_PRESENT) ch = true)
    (hsound : bit (s.get .fd Rg.MEM_CH_FAILED) ch = false) (hword : s.get .fd Rg.MEM_CH_FAILED < 2 ^ 16) :
    Gives (.channelFail ch 0) s fun t => t.get .fd Rg.MEM_CH_FAILED = setBit (s.get .fd Rg.MEM_CH_FAILED) ch ∧ t.get .fd Rg.FSUM_CHANNEL_FAIL = 1
      ∧ t.get .fd Rg.MEM_CH_PRESENT = s.get .fd Rg.MEM_CH_PRESENT := by
  show ∃ t, execChannelFail ch 0 s = .next t ∧ _
  unfold execChannelFail
  simp only [hv, hpresent, hsound, Nat.not_lt.2 (Nat.le_of_lt_succ hlt), beq_self_eq_true, Bool.true_or, Bool.not_true, decide_false, Bool.or_self, Bool.false_eq_true, if_false, reduceCtorEq]
  refine ⟨_, rfl, ?_, ?_, ?_⟩
  · rw [get_faultEvent_attRegs (f := Rg.MEM_CH_FAILED) fun h => h.2 rfl, State.get_setArch, State.get_put_ne _ (by decide)]
    exact get_put_low _ (setBit_lt hword hlt hsound)
  · rw [get_faultEvent_attRegs (not_fdFaultKeys not_faultKeys), State.get_setArch]
    exact get_put_low _ (by decide)
  · rw [get_faultEvent_attRegs (not_fdFaultKeys not_faultKeys), State.get_setArch, State.get_put_ne _ (by decide), State.get_put_ne _ key_ne_of_lo]

/-- A stack in service whose spare rows are spent fails (R397, R399). -/
theorem stackFail_fails {k : Nat} (hk : k < 4) (hmet : s.get .fd Rg.START_STAGE1_MET = 1) (hsound : bit (s.get .fd Rg.ECC_STACK_OK) k = true) (hword : s.get .fd Rg.ECC_STACK_OK < 16) :
    Gives (.stackFail k 0) s fun t => t.get .fd Rg.ECC_STACK_OK = clearBit (s.get .fd Rg.ECC_STACK_OK) k ∧ t.get .fd Rg.FSUM_STACK_FAIL = 1
      ∧ t.dist.spare = { s.dist.spare with stackFailed := true } := by
  generalize hu : (s.faultLog .fd 0x33 4 k).faultAlert .fd = u
  generalize hw : (u.put .fd Rg.ECC_STACK_OK (clearBit (s.get .fd Rg.ECC_STACK_OK) k)).put .fd Rg.FSUM_STACK_FAIL 1 = w
  have hrun : execStackFail k 0 s = .next (w.setSpare { u.dist.spare with stackFailed := true }) := by
    unfold execStackFail
    simp only [flag1 hmet, hsound, hu, hw, Nat.not_lt.2 (Nat.le_of_lt_succ hk), State.put_dist, beq_self_eq_true, Bool.true_or, Bool.not_true, decide_false, Bool.or_self, Bool.false_eq_true,
      if_false, if_true]
  have hspare : u.dist.spare = s.dist.spare := by
    rw [← hu, (faultEvent_only ..).dist]
  refine ⟨_, hrun, ?_, ?_, congrArg (fun x : SpareSt => { x with stackFailed := true }) hspare⟩
  · rw [State.get_setSpare, ← hw, State.get_put_ne _ (by decide)]
    exact get_put_low _ (Nat.lt_of_le_of_lt (clearBit_le ..) hword)
  · rw [State.get_setSpare, ← hw]
    exact get_put_low _ (by decide)

end

/-- Settles O24, each clause by the lemma on its command. -/
theorem attendanceReadsAndMemoryErrors : Obligations.AttendanceReadsAndMemoryErrors := by
  unfold Obligations.AttendanceReadsAndMemoryErrors
  exact ⟨fun _ _ => attWinLoaded_shows, fun _ _ => attDma_copies, fun _ _ _ => attFind_answers, fun _ _ _ _ => attQuota_sets, fun _ _ _ => attFlush_closes,
    fun _ _ remap _ => patrolScrub_counts remap, dramUe_counts, fun _ _ => channelFail_marks, fun _ _ => stackFail_fails⟩

end Sys2Proof.Proofs
